-- ==== Sys2Proof/Word.lean ====
section
/-!
DEFINITION. The word types of the W3 and their plainest arithmetic (R9, R11).
-/
namespace Sys2Proof

/-- A 32-bit register of the window (R459). -/
abbrev Word := BitVec 32

/-- One byte. -/
abbrev Byte := BitVec 8

/-- A 64-bit instruction word, due-table entry or slot word. -/
abbrev Dword := BitVec 64

/-- One granule: 64 bytes, byte 0 in bits [7:0] (R9, R64). -/
abbrev Granule := BitVec 512

/-- The bits [lo + w - 1 : lo] of a number. -/
def bitsOf (n lo w : Nat) : Nat := (n >>> lo) % 2 ^ w

/-- The bits [lo + w - 1 : lo] of a bit vector, as a number. -/
def fieldOf {n : Nat} (b : BitVec n) (lo w : Nat) : Nat := bitsOf b.toNat lo w

/-- One bit of a bit vector. -/
def bitAt {n : Nat} (b : BitVec n) (i : Nat) : Bool := b.getLsbD i

/-- A Boolean as one bit. -/
def bitN (b : Bool) : Nat := if b then 1 else 0

/-- Saturate a number at the top of a `w`-bit field. -/
def satN (w n : Nat) : Nat := if n < 2 ^ w then n else 2 ^ w - 1

/-- Ceiling division. -/
def cdiv (a b : Nat) : Nat := (a + b - 1) / b

/-- Core cycles in a slot (R11). -/
def cyPerSlot : Nat := 128

/-- Core cycles in a microsecond at the 2.1 GHz clock (R2, R11). -/
def cyPerUs : Nat := 2100

/-- Beats in a frame (R11). -/
def beatsPerFrame : Nat := 256

end Sys2Proof
end

