-- ==== Sys2Proof/Machine/Maps.lean ====
section
/-!
DEFINITION. Sparse tables held as lists of (key, value) pairs in one canonical form: keys strictly rising, no entry equal to
what an unlisted key reads as. Registers, cells, counters and every byte memory of the W3 are kept in this form.
-/
namespace Sys2Proof.Machine

/-- A sparse table. What an unlisted key reads as is an argument `d` of its operations. -/
abbrev Table (α : Type) := List (Nat × α)

namespace Table
variable {α : Type}

/-- The value at key `k`; an unlisted key reads as `d k`. -/
def get (d : Nat → α) : Table α → Nat → α
  | [], k => d k
  | (k', v) :: t, k => if k' = k then v else get d t k

/-- Put `v` at key `k` without looking for an older entry further on. -/
def cons [DecidableEq α] (d : Nat → α) (k : Nat) (v : α) (t : Table α) : Table α :=
  if v = d k then t else (k, v) :: t

/-- Store `v` at key `k`, keeping the canonical form: storing what an unlisted key reads as removes the entry. -/
def set [DecidableEq α] (d : Nat → α) : Table α → Nat → α → Table α
  | [], k, v => cons d k v []
  | (k', v') :: t, k, v =>
    if k < k' then cons d k v ((k', v') :: t)
    else if k' = k then cons d k v t
    else (k', v') :: set d t k v

/-- Remove every entry whose key lies in [lo, lo + n): those keys read as unlisted. -/
def clear (t : Table α) (lo n : Nat) : Table α := t.filter fun p => decide (p.1 < lo) || decide (lo + n ≤ p.1)

/-- Apply `f` to every listed entry, dropping those that become what an unlisted key reads as. -/
def mapVals [DecidableEq α] (d : Nat → α) (f : Nat → α → α) (t : Table α) : Table α :=
  (t.map fun p => (p.1, f p.1 p.2)).filter fun p => decide (p.2 ≠ d p.1)

/-- Store a list of values at consecutive keys from `k` on. -/
def setMany [DecidableEq α] (d : Nat → α) (t : Table α) (k : Nat) : List α → Table α
  | [] => t
  | v :: vs => setMany d (set d t k v) (k + 1) vs

/-- The keys from `k` on, `n` of them, read in order. -/
def getMany (d : Nat → α) (t : Table α) (k : Nat) : Nat → List α
  | 0 => []
  | n + 1 => get d t k :: getMany d t (k + 1) n

/-- Keys strictly rising, each above `lo`. -/
def rising : Option Nat → Table α → Bool
  | _, [] => true
  | none, p :: t => rising (some p.1) t
  | some lo, p :: t => decide (lo < p.1) && rising (some p.1) t

/-- The canonical form. -/
def wf [DecidableEq α] (d : Nat → α) (t : Table α) : Bool :=
  rising none t && t.all fun p => decide (p.2 ≠ d p.1)

end Table
end Sys2Proof.Machine
end

