-- ==== Sys2Proof/Machine/StateSvc.lean ====
section
/-!
DEFINITION. The state of the generation service (R212 to R252), of KV pages and sequence slots (R186 to R208) and of the step
ledger (R353 to R359).
-/
namespace Sys2Proof.Machine

/-- One valid entry of a sequence's page list: span number and page (R192). (DESIGN CHOICE, safe: log entry 22.) -/
structure PageEntry where
  /-- Page span: position / 256. -/
  span : Nat
  /-- Page number. -/
  page : Nat
  /-- SHARED: a prefix page. -/
  shared : Bool
  deriving DecidableEq, Repr

/-- KV state record and page list of one of the 4,096 sequence slots (R192). -/
structure SeqSlot where
  /-- V: slot in use. -/
  used : Bool
  /-- Model slot, 4 bits. -/
  model : Nat
  /-- LIST: page list address in granules, 35 bits. -/
  list : Nat
  /-- LEN: committed positions, 25 bits. -/
  len : Nat
  /-- HOTLOG, 3 bits (R186). -/
  hotlog : Nat
  /-- Valid page list entries (R192). -/
  pages : List PageEntry
  /-- Page sets still reserved for it (R220). -/
  resv : Nat
  /-- Released: frame starts left before the slot is free again (R454); none while not releasing. -/
  freeing : Option Nat
  deriving DecidableEq, Repr

/-- A free sequence slot. -/
def SeqSlot.reset : SeqSlot :=
  { used := false, model := 0, list := 0, len := 0, hotlog := 0, pages := [], resv := 0, freeing := none }

/-- States of a request (R216). -/
inductive ReqState where
  /-- Taken, not yet considered. -/
  | queued
  /-- Deferred by admission. -/
  | deferred
  /-- Admitted, input positions being prefilled. -/
  | prefill
  /-- Decoding. -/
  | decode
  /-- Ended; it holds its sequence slot no more. -/
  | ended
  deriving DecidableEq, Repr

/-- A SUBMIT or PREFIX_CREATE that the W3 has taken (R213, R216). -/
structure Request where
  /-- Order of taking, and the W3's own name for the request. -/
  id : Nat
  /-- PREFIX_CREATE. -/
  isPrefix : Bool
  /-- Model slot. -/
  model : Nat
  /-- Output ring of its results. -/
  ring : Nat
  /-- REQ_ID, 64 bits. -/
  reqId : Nat
  /-- PREFIX: handle to start from, or the new handle. -/
  handle : Nat
  /-- The handle passed the check of R226 and counts this request as a user. -/
  usesHandle : Bool
  /-- NTOK. -/
  ntok : Nat
  /-- TOKADDR. -/
  tokAddr : Nat
  /-- MAX_NEW. -/
  maxNew : Nat
  /-- TEMP, BF16 bits. -/
  temp : BitVec 16
  /-- TOP_P. -/
  topP : Nat
  /-- TOP_K. -/
  topK : Nat
  /-- SHAPE. -/
  shape : Nat
  /-- HOTLOG. -/
  hot : Nat
  /-- SEED, 64 bits. -/
  seed : Nat
  /-- FIRST_DL. -/
  firstDl : Nat
  /-- STEP_BEATS. -/
  stepBeats : Nat
  /-- STOP0 to STOP3 in use. -/
  stops : List Nat
  /-- State (R216). -/
  state : ReqState
  /-- It was deferred at least once: its first deferral has been written (R223). -/
  deferredOnce : Bool
  /-- Reason of its last deferral (R215). -/
  reason : Nat
  /-- Sequence slot, while admitted. -/
  seq : Nat
  /-- Lp: length of its prefix (R217). -/
  lp : Nat
  /-- Token ids read from the host; none until they are read. -/
  tokens : Option (List Nat)
  /-- Input positions launched so far. -/
  launched : Nat
  /-- Input positions committed so far. -/
  prefilled : Nat
  /-- STEP of its next launched step (R234). -/
  step : Nat
  /-- Tokens committed. -/
  generated : Nat
  /-- Tokens delivered. -/
  delivered : Nat
  /-- Highest STEP whose TOKENS entry has been delivered, plus one; 0 for none (R318). -/
  thru : Nat
  /-- Root token and candidate tokens of the next step's rows, in row order (R229). -/
  next : List Nat
  /-- A step of it is in flight. -/
  inStep : Bool
  /-- Order in which it became ready to launch (R218). -/
  readyAt : Nat
  /-- A KV-Move still fills its hot window and sinter stores (R226). -/
  filling : Bool
  /-- `BEAT_NO` of its previous commit (R224); none before the first. -/
  lastCommit : Option Nat
  /-- CANCEL entries (model, ring, REQ_ID) waiting for it to end (R233). -/
  cancels : List (Nat × Nat × Nat)
  /-- End status fixed by an eviction, close or fault while its steps in flight commit. -/
  ending : Option Nat
  deriving DecidableEq, Repr

/-- STATE of a ledger entry that is not FREE (R353). -/
inductive LedState where
  /-- Launched. -/
  | launched
  /-- The sampling stage's result has reached the ledger. -/
  | result
  /-- Committed, its output entries not all written. -/
  | committed
  deriving DecidableEq, Repr

/-- One sequence of a step: its row of the length table, its inputs and its result (R184, R353). -/
structure StepSeq where
  /-- Sequence slot. -/
  seq : Nat
  /-- Request, by the W3's own name for it. -/
  req : Nat
  /-- REQ_ID. -/
  reqId : Nat
  /-- STEP. -/
  step : Nat
  /-- SEED. -/
  seed : Nat
  /-- START. -/
  start : Nat
  /-- TREE: PARENT of each row; empty where the rows are a chunk (R185). -/
  parents : List Nat
  /-- Input token of every row. -/
  tokens : List Nat
  /-- New page spans and the page each takes (R354). -/
  pages : List PageEntry
  /-- Element granules acknowledged (R354). -/
  acked : Nat
  /-- It holds an output entry reservation (R215). -/
  reserved : Bool
  /-- Result: tokens delivered by its commit (R232). -/
  out : List Nat
  /-- Result: rows accepted, A of R354. -/
  accepted : Nat
  /-- Result: next root and candidates (R229). -/
  next : List Nat
  deriving DecidableEq, Repr

/-- A step-ledger entry that is not FREE (R353). -/
structure LedgerEntry where
  /-- Entry number, 0 to 1,023. -/
  index : Nat
  /-- Model slot. -/
  model : Nat
  /-- Launch number of the launch it runs in: that of its last one once it has been replayed. -/
  launch : Nat
  /-- LAUNCH: launch number of its first launch (R353, R358). -/
  first : Nat
  /-- ACT: Prefill (otherwise Generate). -/
  isPrefill : Bool
  /-- Recipe in force at launch (R126). -/
  recipe : Nat
  /-- STATE. -/
  state : LedState
  /-- ATTEMPT: faults suffered (R353). -/
  attempt : Nat
  /-- Marked for replay (R357). -/
  replay : Bool
  /-- Tainted by a report (R355). -/
  tainted : Bool
  /-- Sequences of the step. -/
  seqs : List StepSeq
  /-- Its length table, one entry a sequence (R184); the tree tables that follow are the sequences' parents (R185). -/
  table : List Dword
  /-- Slot boundaries since the later of the result and the last acknowledgement (R354). -/
  guard : Nat
  /-- Mirror group number, once sent (R319). -/
  group : Option Nat
  /-- Output entries of it that still wait for the mirror's ACK. -/
  awaitsAck : Bool
  deriving DecidableEq, Repr

/-- A command ring as the W3 follows it (R212). -/
structure CmdRing where
  /-- PROD as last read. -/
  prod : Nat
  /-- CONS. -/
  cons : Nat
  deriving DecidableEq, Repr

/-- A TOKENS entry written to an output ring and not yet delivered (R235, R296). -/
structure Undelivered where
  /-- PROD that covers it. -/
  prod : Nat
  /-- Tokens it carries. -/
  tokens : Nat
  /-- Request. -/
  req : Nat
  /-- STEP of the request. -/
  step : Nat
  /-- Ledger entry it belongs to. -/
  entry : Nat
  deriving DecidableEq, Repr

/-- An output entry: its 64 bytes, and what it carries for the token account (R215). -/
structure OutEntry where
  /-- The 64 bytes. -/
  data : BitVec 512
  /-- Tokens carried (TOKENS entries). -/
  tokens : Nat
  /-- Request. -/
  req : Nat
  /-- STEP of the request. -/
  step : Nat
  /-- Ledger entry. -/
  entry : Nat
  /-- It waits for no mirror ACK (R324). -/
  noAck : Bool
  deriving DecidableEq, Repr

/-- An output ring as the W3 follows it (R212, R215). -/
structure OutRing where
  /-- PROD. -/
  prod : Nat
  /-- CONS as last read. -/
  cons : Nat
  /-- Entries reserved by launched steps (R215). -/
  reserved : Nat
  /-- Entries that take no reservation and wait for room, in order of occasion (R215). -/
  waiting : List OutEntry
  /-- A failed header read makes the ring count as full (R290). -/
  full : Bool
  /-- Entries written and not yet delivered, oldest first (R235). -/
  undelivered : List Undelivered
  /-- Committed TOKENS entries kept back: the link is not ACTIVE, or the mirror's ACK is awaited (R284, R354). -/
  held : List OutEntry
  deriving DecidableEq, Repr

/-- An output ring that nothing uses. -/
def OutRing.reset : OutRing :=
  { prod := 0, cons := 0, reserved := 0, waiting := [], full := false, undelivered := [], held := [] }

/-- A KV sinter store: one layer's BF16 errors of K or V of one head (R116, R356). -/
structure SinterStore where
  /-- Layer. -/
  layer : Nat
  /-- K or V of a head: kv × KVH + h. -/
  part : Nat
  /-- Position it precedes. -/
  tag : Nat
  /-- Cell that holds it. -/
  cell : Nat
  /-- Element i at byte offset 2i. -/
  data : List Granule
  deriving DecidableEq, Repr

/-- The carry of a row of a step in flight (R117). -/
structure Carry where
  /-- Sequence slot. -/
  seq : Nat
  /-- Row of the step. -/
  row : Nat
  /-- The error it leaves, tagged with the position after its own. -/
  store : SinterStore
  deriving DecidableEq, Repr

/-- Staged K or V of one head of a row of a step in flight (R187, R356). -/
structure StagedKv where
  /-- Sequence slot. -/
  seq : Nat
  /-- START of the step. -/
  start : Nat
  /-- Row of the step. -/
  row : Nat
  /-- Layer. -/
  layer : Nat
  /-- K or V of a head. -/
  part : Nat
  /-- Position. -/
  pos : Nat
  /-- Elements, packed. -/
  elems : List Granule
  /-- Block indices, packed from bit 0. -/
  idx : Granule
  deriving DecidableEq, Repr

/-- What one slot of a hot window's ring holds of K or V of one head (R186). -/
structure HotKv where
  /-- Sequence slot. -/
  seq : Nat
  /-- Layer. -/
  layer : Nat
  /-- K or V of a head. -/
  part : Nat
  /-- Ring slot: pos mod W. -/
  slot : Nat
  /-- Position. -/
  pos : Nat
  /-- Elements, packed. -/
  elems : List Granule
  /-- Block indices, packed from bit 0. -/
  idx : Granule
  deriving DecidableEq, Repr

/-- Format and tensor scales of one layer's page of a span (R190, R191). -/
structure PageFmt where
  /-- Sequence slot. -/
  seq : Nat
  /-- Page span. -/
  span : Nat
  /-- Layer. -/
  layer : Nat
  /-- FMT, coded as KFMT. -/
  fmt : Nat
  /-- T of each (K or V, head). -/
  scales : List (Nat × Word)
  /-- Row of the step in flight that it is staged with; none once a position of the page is committed (OPEN). -/
  by_ : Option Nat
  deriving DecidableEq, Repr

/-- A prefix-table entry (R225 to R227). -/
structure PfxEntry where
  /-- Handle, 64 bits, nonzero. -/
  handle : Nat
  /-- Model slot. -/
  model : Nat
  /-- Its PREFIX_CREATE has not completed. -/
  pending : Bool
  /-- A PREFIX_RELEASE (or a close) has been taken for it. -/
  released : Bool
  /-- User count. -/
  users : Nat
  /-- Page list. -/
  pages : List PageEntry
  /-- Lp. -/
  lp : Nat
  /-- PREFIX_RELEASE entries (model, ring, REQ_ID) answered once its pages are freed. -/
  releasers : List (Nat × Nat × Nat)
  /-- KV sinter stores kept with its pages (R225). -/
  sinter : List SinterStore
  deriving DecidableEq, Repr

/-- A page under zeroisation before it reaches the free list (R452). -/
structure PageClear where
  /-- Pool. -/
  model : Nat
  /-- Page. -/
  page : Nat
  /-- Prefix handle whose pages these are; 0 for a sequence's. -/
  handle : Nat
  deriving DecidableEq, Repr

/-- An open LOAD_RECEIVE (R246). -/
structure LoadRecv where
  /-- Output ring. -/
  ring : Nat
  /-- REQ_ID. -/
  reqId : Nat
  /-- WAIT in frames. -/
  wait : Nat
  /-- Frame starts since the command was taken or the last part arrived. -/
  idle : Nat
  /-- NSEG. -/
  nseg : Nat
  /-- Segments placed. -/
  placed : Nat
  /-- MANIFEST. -/
  manifest : Nat
  deriving DecidableEq, Repr

/-- A slice map entry (R242). -/
structure Slice where
  /-- Linear cell. -/
  cell : Nat
  /-- KIND: 0 cell memory, 1 configuration space, 2 stack, 3 reserved. -/
  kind : Nat
  /-- START: granule or word address. -/
  start : Nat
  /-- LEN: granules, or 16-word units for KIND 1. -/
  len : Nat
  /-- STADDR. -/
  staddr : Nat
  deriving DecidableEq, Repr

/-- A tree shape (R228). -/
structure Shape where
  /-- COUNT, 1 to 17. -/
  count : Nat
  /-- PARENT of rows 1 to COUNT − 1. -/
  parents : List Nat
  deriving DecidableEq, Repr

/-- A segment of a LOAD_WEIGHTS, as its segment list gives it (R243). -/
structure SegRec where
  /-- Slice id. -/
  slice : Nat
  /-- Offset in granules. -/
  off : Nat
  /-- Length in granules. -/
  len : Nat
  /-- Host address of its data. -/
  addr : Nat
  deriving DecidableEq, Repr

/-- What a LOAD_WEIGHTS has still to do (R243). -/
structure LoadJob where
  /-- SEGS. -/
  list : Nat
  /-- NSEG. -/
  nseg : Nat
  /-- MANIFEST. -/
  manifest : Nat
  /-- PASS. -/
  pass : Bool
  /-- Segments to read and place, the one being read first. -/
  todo : List SegRec
  /-- The first of them waits while Weight-Load is held (R167). -/
  waits : Bool
  deriving DecidableEq, Repr

/-- Nothing to do. -/
def LoadJob.reset : LoadJob := { list := 0, nseg := 0, manifest := 0, pass := false, todo := [], waits := false }

/-- What the W3 keeps of a model slot beside its registers (R237 to R252). -/
structure ModelSlot where
  /-- Reserved fields, ascending (R237). -/
  fields : List Nat
  /-- Order in which the slot was opened (R238). -/
  opened : Nat
  /-- A close or eviction is in progress (R239). -/
  closing : Bool
  /-- RUN has been cleared and zeroisation runs. -/
  clearing : Bool
  /-- CLOSE_MODEL entries (ring, REQ_ID) answered when the close ends (R239). -/
  closers : List (Nat × Nat)
  /-- Manifest of the loads (R448). -/
  manifest : Nat
  /-- Slice map as read for the last load. -/
  slices : List Slice
  /-- Shapes read by the last passing load check, shape s at place s − 1 (R228). -/
  shapes : List Shape
  /-- Vocabulary the image declares (R214). -/
  vocab : Nat
  /-- The open LOAD_RECEIVE (R246). -/
  recv : Option LoadRecv
  /-- A LOAD_WEIGHTS placing segments: ring and REQ_ID (R243, R510). -/
  loading : Option (Nat × Nat)
  /-- What it still has to do. -/
  job : LoadJob
  /-- Segments that LOAD_WEIGHTS has placed since the slot was opened, where a rewrite finds the data again (R243, R361). -/
  segs : List SegRec
  /-- Rows launched in each of the last 64 complete frames, newest first (R238). -/
  use : List Nat
  /-- Rows launched in the current frame. -/
  useNow : Nat
  /-- Telemetry counts of the model: GEN, PRE, TUNE, EMPTY, ROWS, TOKENS, REPLAY (R249). -/
  tele : List Nat
  /-- Frame numbers of its restarts for causes that count toward no defect (R351). -/
  restarts : List Nat
  /-- A recipe switch is carried because replays are pending (R358). -/
  switchHeld : Bool
  /-- A sequence of the model delivered a LATE entry in the current frame (R221). -/
  lateNow : Bool
  deriving DecidableEq, Repr

/-- A free model slot. -/
def ModelSlot.reset : ModelSlot :=
  { fields := [], opened := 0, closing := false, clearing := false, closers := [], manifest := 0, slices := [], shapes := [],
    vocab := 0, recv := none, loading := none, job := .reset, segs := [], use := [], useNow := 0, tele := [0, 0, 0, 0, 0, 0, 0], restarts := [],
    switchHeld := false, lateNow := false }

/-- An OPEN_MODEL that waits for its victims to close (R237, R238). -/
structure Opening where
  /-- Model slot. -/
  model : Nat
  /-- Output ring. -/
  ring : Nat
  /-- REQ_ID. -/
  reqId : Nat
  /-- FIELDS. -/
  fields : Nat
  /-- STACK. -/
  stack : Nat
  /-- Flags: EVICT_OK, PINNED, T36. -/
  flags : Nat
  /-- Victims still closing. -/
  victims : List Nat
  deriving DecidableEq, Repr

/-- The generation service. -/
structure Svc where
  /-- Command rings 0 to 7. -/
  cmd : Table CmdRing
  /-- Command ring whose turn it is (R213). -/
  turn : Nat
  /-- Enabled rings whose header has not been read: 0 to 7 command, 8 to 15 output, 16 telemetry, 17 tune, 18 event (R212). -/
  unread : List Nat
  /-- Output rings 0 to 7. -/
  out : Table OutRing
  /-- Requests not yet ended, in order of taking. -/
  reqs : List Request
  /-- Next request number. -/
  nextReq : Nat
  /-- Next readiness number (R218). -/
  nextReady : Nat
  /-- Prefix table (R225). -/
  pfx : List PfxEntry
  /-- Model slots. -/
  models : Table ModelSlot
  /-- Number of the next OPEN_MODEL claim. -/
  nextOpen : Nat
  /-- The OPEN_MODEL in progress (R237). -/
  opening : Option Opening
  /-- Telemetry ring PROD (R248). -/
  telProd : Nat
  /-- Telemetry ring CONS as last read. -/
  telCons : Nat
  /-- Frame starts since the telemetry period began (R249). -/
  telFrames : Nat
  /-- Admission decisions that the next FRAME carries: (REQ_ID, model, CODE, sequence slot) (R318). -/
  decisions : List (Nat × Nat × Nat × Nat)
  /-- Counter values at the end of the last period written, in the order of R249's payloads (R249). -/
  telBase : Table Nat
  deriving DecidableEq, Repr

/-- The service right after reset. -/
def Svc.reset : Svc :=
  { cmd := [], turn := 0, unread := [], out := [], reqs := [], nextReq := 0, nextReady := 0, pfx := [], models := [], nextOpen := 0, opening := none,
    telProd := 0, telCons := 0, telFrames := 0, decisions := [], telBase := [] }

/-- A soft repair of a stack row (R206, R418). -/
structure RowRepair where
  /-- Stack. -/
  stack : Nat
  /-- Channel. -/
  channel : Nat
  /-- Bank. -/
  bank : Nat
  /-- Row. -/
  row : Nat
  deriving DecidableEq, Repr

/-- KV pages and stack memory beside their registers. -/
structure Kv where
  /-- Sequence slots 0 to 4,095 (R192). -/
  seqs : Table SeqSlot
  /-- The allocator's account of each pool's free list in stack memory, by model slot (R193). -/
  freeList : Table (List Nat)
  /-- Pages under zeroisation (R452). -/
  clearing : List PageClear
  /-- Release flits sent and not yet arrived: (cell, sequence slot) (R454). -/
  releases : List (Nat × Nat)
  /-- Stack rows soft-repaired (R205, R206). -/
  repairs : List RowRepair
  /-- Trained settings in force of each stack, as a number (R208, R428). -/
  settings : Table Nat
  /-- Start of the running patrol pass of each stack, in cycles (R207). -/
  patrolStart : Table Nat
  /-- Position of the patrol of each stack: next granule (R207). -/
  patrolPos : Table Nat
  /-- `TIMESTAMP` of each stack's last patrol step, (stack, timestamp) (R164). -/
  patrolStamp : List (Nat × Nat)
  /-- KV sinter stores of sequences, (sequence slot, store), the last two of each (R116, R356). -/
  stores : List (Nat × SinterStore)
  /-- Carries of the rows of steps in flight (R117). -/
  carries : List Carry
  /-- Rows staged by steps in flight (R187). -/
  staged : List StagedKv
  /-- Hot windows (R186). -/
  hot : List HotKv
  /-- Formats and scales of sequences' pages (R191). -/
  formats : List PageFmt
  deriving DecidableEq, Repr

/-- KV state right after reset. -/
def Kv.reset : Kv :=
  { seqs := [], freeList := [], clearing := [], releases := [], repairs := [], settings := [], patrolStart := [], patrolPos := [], patrolStamp := [], stores := [],
    carries := [], staged := [], hot := [], formats := [] }

/-- The step ledger (R353) and its accounts (R368). -/
structure Ledger where
  /-- Entries not FREE, in order of launch. -/
  entries : List LedgerEntry
  /-- Steps launched since reset (R368 LEDGER). -/
  launched : Nat
  /-- Entries returned to FREE (R368). -/
  returned : Nat
  /-- Entries abandoned (R368). -/
  abandoned : Nat
  deriving DecidableEq, Repr

/-- The ledger right after reset: every entry FREE. -/
def Ledger.reset : Ledger := { entries := [], launched := 0, returned := 0, abandoned := 0 }

end Sys2Proof.Machine
end

