-- ==== Sys2Proof/Machine/StateBoot.lean ====
section
/-!
DEFINITION. The state of start-up, the NOR device and the journal (R412 to R437), of the fuses (R438), and of resets and fatal
events in progress (R363 to R373).
-/
namespace Sys2Proof.Machine

/-- A journal record (R417, R418): its type, low 16 bits of the start count, timestamp and payload as numbers in the order its
row of R418 names them. -/
structure JRecord where
  /-- SEQ, counting from 1 in each area. -/
  seq : Nat
  /-- TYPE of R418. -/
  type : Nat
  /-- Low 16 bits of the start count. -/
  start : Nat
  /-- `TIMESTAMP`. -/
  stamp : Nat
  /-- Payload fields. -/
  payload : List Nat
  deriving DecidableEq, Repr

/-- What the W3 does once a journal record is durable (R419). -/
inductive Durable where
  /-- Nothing waits for it. -/
  | none
  /-- The EPOCH record of a takeover or of an arbitration (R326, R331). -/
  | epoch
  /-- The FATAL record of a critical temperature: `PWR_OFF_REQ` follows (R397). -/
  | thermalFatal
  /-- The SHUTDOWN record (R433). -/
  | shutdown
  /-- LMS_RESV of a tree: signing may go on (R421). -/
  | lms (tree : Nat)
  /-- The TRIP record: the trip cell is cleared (R398). -/
  | trip
  deriving DecidableEq, Repr

/-- A record waiting to be programmed (R419). -/
structure JPending where
  /-- TYPE. -/
  type : Nat
  /-- Payload. -/
  payload : List Nat
  /-- `TIMESTAMP` when requested. -/
  stamp : Nat
  /-- Urgent (R419). -/
  urgent : Bool
  /-- What follows once it is durable. -/
  after : Durable
  deriving DecidableEq, Repr

/-- STATE of a journal area header (R416). -/
inductive AreaState where
  /-- 0xFF. -/
  | erased
  /-- 0x7F. -/
  | opening
  /-- 0x3F. -/
  | active
  /-- 0x1F. -/
  | retired
  deriving DecidableEq, Repr

/-- One journal area (R416). -/
structure JArea where
  /-- GEN. -/
  gen : Nat
  /-- STATE. -/
  state : AreaState
  /-- Durable records, oldest first. -/
  recs : List JRecord
  /-- Units of 64 bytes used, the header page included. -/
  units : Nat
  /-- Failed programs in this area (R419). -/
  fails : Nat
  deriving DecidableEq, Repr

/-- An erased area. -/
def JArea.reset : JArea := { gen := 0, state := .erased, recs := [], units := 0, fails := 0 }

/-- A start record copy (R414). -/
structure StartRecord where
  /-- SEQ. -/
  seq : Nat
  /-- SLOT byte: active slot, TRIAL, FALLBACK_OK. -/
  slot : Nat
  /-- FLOW_K. -/
  flowK : Nat
  /-- CAP_W. -/
  capW : Nat
  /-- ABSENT_MAX. -/
  absentMax : Nat
  /-- NEW_ABSENT_MAX. -/
  newAbsentMax : Nat
  /-- FIELD_ABSENT_MAX. -/
  fieldAbsentMax : Nat
  /-- MIN_STACKS. -/
  minStacks : Nat
  /-- FAST_DAYS. -/
  fastDays : Nat
  /-- DIGEST, 256 bits. -/
  digest : Nat
  /-- ALT_DIGEST, 256 bits. -/
  altDigest : Nat
  /-- Reserved bytes 84 to 507, as a number. -/
  rest : Nat
  /-- The copy is valid: MAGIC and FORMAT match and the CRC checks. -/
  valid : Bool
  deriving DecidableEq, Repr

/-- A start record copy that is not valid. -/
def StartRecord.reset : StartRecord :=
  { seq := 0, slot := 0, flowK := 0, capW := 0, absentMax := 0, newAbsentMax := 0, fieldAbsentMax := 0, minStacks := 0,
    fastDays := 0, digest := 0, altDigest := 0, rest := 0, valid := false }

/-- What an image slot of the NOR device holds (R413, R439): the header fields of its bundle, and what its hashes and its signature
come to. (DESIGN CHOICE, unsafe: log entry 5.) -/
structure ImageSlot where
  /-- MAGIC. -/
  magic : Nat
  /-- FORMAT. -/
  format : Nat
  /-- KEY_ID. -/
  keyId : Nat
  /-- SVN. -/
  svn : Nat
  /-- FW_LEN. -/
  fwLen : Nat
  /-- CUL_LEN. -/
  culLen : Nat
  /-- SIG_LEN. -/
  sigLen : Nat
  /-- VERSION. -/
  version : Nat
  /-- Reserved bytes 6, 7 and 96 to 255, as a number. -/
  rest : Nat
  /-- The signature verifies over bytes 0 to 255 under release key KEY_ID (R440, R441). -/
  signed : Bool
  /-- FW_DIGEST and CUL_DIGEST match their parts (R441). -/
  partsOk : Bool
  /-- SHA-256 of bytes 0 to TOTAL − 1, 256 bits (R439). -/
  digest : Nat
  deriving DecidableEq, Repr

/-- An empty image slot. -/
def ImageSlot.reset : ImageSlot :=
  { magic := 0, format := 0, keyId := 0, svn := 0, fwLen := 0, culLen := 0, sigLen := 0, version := 0, rest := 0, signed := false,
    partsOk := false, digest := 0 }

/-- The fuses (R438, R472). -/
structure Fuses where
  /-- STEPPING. -/
  stepping : Nat
  /-- Serial number, 128 bits. -/
  serial : Nat
  /-- Fuse defect map: field × 8192 + row × 256 + p, cell defects (R422 step 5). -/
  cellMap : List Nat
  /-- Fuse defect map: router defects. -/
  routerMap : List Nat
  /-- VCL set point of each field in mV; an unlisted field reads 700 (R379, typical). -/
  vclSet : Table Nat
  /-- Security version fuses blown, 0 to 64 (R443). -/
  svn : Nat
  /-- REVOKE0 (R441). -/
  revoke0 : Bool
  deriving DecidableEq, Repr

/-- Fuses of the model's module. (DESIGN CHOICE, unsafe: log entry 4.) -/
def Fuses.reset : Fuses :=
  { stepping := 0, serial := 0, cellMap := [], routerMap := [], vclSet := [], svn := 0, revoke0 := false }

/-- A report of the neighbour test (R424). -/
structure NeighbourReport where
  /-- The position reported on: field × 8192 + row × 256 + p. -/
  pos : Nat
  /-- The reporting neighbour, likewise. -/
  by_ : Nat
  /-- CELL_FAIL is reported. -/
  cell : Bool
  /-- PATH_FAIL is reported. -/
  path : Bool
  deriving DecidableEq, Repr

/-- What bringing up one stack comes to (R208, R428). -/
structure StackTrain where
  /-- The restored settings verified (fast start). -/
  verified : Bool
  /-- Rate that a full training reaches, 0 to 2; 3 when it cannot be trained at 9.6 Gb/s. -/
  rate : Nat
  /-- The settings that a full training finds, as a number. -/
  settings : Nat
  deriving DecidableEq, Repr

/-- A stack that cannot be trained. -/
def StackTrain.none_ : StackTrain := { verified := false, rate := 3, settings := 0 }

/-- What a start reads and measures, step by step (R422). (DESIGN CHOICE, unsafe: log entry 5.)
(DESIGN CHOICE, unsafe: log entry 63.) -/
structure StartInput where
  /-- Instant of step 1 in cycles. -/
  t : Nat
  /-- Step 1: the NOR device was identified. -/
  norOk : Bool
  /-- Step 2: the bytes of start record copy 0 as the device is found to hold them; none when they are those the W3 last wrote. -/
  sr0 : Option (List (BitVec 8))
  /-- Copy 1. -/
  sr1 : Option (List (BitVec 8))
  /-- Image slot 0, likewise. -/
  img0 : Option ImageSlot
  /-- Slot 1. -/
  img1 : Option ImageSlot
  /-- The bytes of journal area 0 as far as it is programmed, likewise. -/
  area0 : Option (List (BitVec 8))
  /-- Area 1. -/
  area1 : Option (List (BitVec 8))
  /-- UTC seconds from the BMC; none within 1 s (R422, R500). -/
  utc : Option Nat
  /-- Step 3: rails at set points. -/
  rails : Bool
  /-- PLLs locked. -/
  plls : Bool
  /-- Step 4: analogue checks pass. -/
  analogue : Bool
  /-- Results of the tests of R435 when the start is slow: test × 65536 + unit, and the result. -/
  bist : List (Nat × Nat)
  /-- Step 5: the fuse map's ECC checks. -/
  fuseOk : Bool
  /-- Step 6: the neighbours' reports (R424). -/
  reports : List NeighbourReport
  /-- Links that failed their second test: position reported on, reporting neighbour (R425). -/
  linkAgain : List (Nat × Nat)
  /-- Step 8: the broadcast tree delivers. -/
  culture : Bool
  /-- Positions whose cell failed the culture twice. -/
  cultureFail : List Nat
  /-- Step 9: each stack's training. -/
  hbm : List StackTrain
  /-- Outcome of each page program that the start makes, in order: whether its read-back matched (R419); what is not listed matched. -/
  programs : List Bool
  /-- Milliseconds from step 1 to READY. -/
  ms : Nat
  deriving DecidableEq, Repr

/-- A staging operation (R415). -/
inductive Staged where
  /-- A bundle for the image slot that is not active, as the bytes that are read spell it. -/
  | image (bundle : ImageSlot)
  /-- A start record. -/
  | record
  /-- A dump of the journal. -/
  | dump
  deriving DecidableEq, Repr

/-- Start-up, NOR, journal and self-test beside their registers. -/
structure Boot where
  /-- Journal areas 0 and 1 (R413). -/
  area0 : JArea
  /-- Area 1. -/
  area1 : JArea
  /-- Records waiting to be programmed, in order (R419). -/
  waiting : List JPending
  /-- Outcomes of the page programs still to come of the start in progress (R419). -/
  programs : List Bool
  /-- Records requested while pressing runs, to append to the new area (R420). -/
  pressing : List JRecord
  /-- Both areas have failed (R419). -/
  failed : Bool
  /-- Start record copies (R413). -/
  sr0 : StartRecord
  /-- Copy 1. -/
  sr1 : StartRecord
  /-- Image slots. -/
  img0 : ImageSlot
  /-- Slot 1. -/
  img1 : ImageSlot
  /-- Failed starts counted in Brynodor memory for this power-up (R431). -/
  ramFails : Nat
  /-- CONFIG_ID of this start (R414). -/
  configId : Nat
  /-- A start that waits for `COOL_OK` in step 3 (R491). -/
  attempt : Option StartInput
  /-- The start record copy that the last start took, or has written since (R414, R423); none before one. -/
  inForce : Option Nat
  /-- The staging operation in progress (R415). -/
  staged : Option Staged
  /-- The bytes that it has read from host memory, once they are all there. -/
  stageData : Option (List (BitVec 8))
  /-- A read of it has failed (R290, R415). -/
  stageBad : Bool
  /-- Fields of the wave in progress that have reached 95 °C: their results are incomplete (R436). -/
  bistHot : List Nat
  /-- Every result of the running self-test so far is good (R435). -/
  bistOk : Bool
  /-- BIST results (R418, R435): test × 65536 + unit, tests 0 SerDes, 1 PLL, 2 voltage, 3 thermal, 4 current sense; 0 pass, 1 fail,
  2 incomplete. -/
  bist : List (Nat × Nat)
  /-- Steps of the orderly shutdown done (R433). -/
  shutdown : Nat
  /-- Starts since manufacture as the journal gives them (R437). -/
  starts : Nat
  /-- UTC seconds as the BMC gave them at this start; 0 when unknown (R500). -/
  utc : Nat
  deriving DecidableEq, Repr

/-- Boot state of a module with an empty NOR device. (DESIGN CHOICE, unsafe: log entry 5.) -/
def Boot.reset : Boot :=
  { area0 := .reset, area1 := .reset, waiting := [], programs := [], pressing := [], failed := false, sr0 := .reset, sr1 := .reset,
    img0 := .reset, img1 := .reset, ramFails := 0, configId := 0, attempt := none, inForce := none, staged := none, stageData := none, stageBad := false, bistHot := [], bistOk := false, bist := [],
    shutdown := 0, starts := 0, utc := 0 }

/-- A cell rewrite of one model, or the installation of one of its variants, as far as its reads have come (R158, R361). -/
structure Rewrite where
  /-- Model slot. -/
  model : Nat
  /-- Index of the variant; none for a cell rewrite. -/
  variant : Option Nat
  /-- Cells to rewrite. -/
  cells : List Nat
  /-- Slices of KIND 2 to read again. -/
  ids : List Nat
  /-- The slice map as read. -/
  slices : List Slice
  /-- Segments still to read, the one being read first. -/
  todo : List SegRec
  /-- Segments read, with their granules. -/
  done : List (SegRec × List (BitVec 512))
  /-- A read failed twice (R290). -/
  bad : Bool
  /-- Nothing is left to read. -/
  ready : Bool
  deriving DecidableEq, Repr

/-- What a partial reset or restart in progress covers (R357, R364). -/
structure ResetJob where
  /-- Cells of CELL and CLUSTER resets (R363). -/
  single : List Nat
  /-- Fields of PARTITION resets and of the regions of restarted images (R357, R363). -/
  fields : List Nat
  /-- Model slots restarted; empty for a plain reset (R357). -/
  models : List Nat
  /-- PHASE: 0 DRAIN, 1 ABSORB, 2 RELEASE. -/
  phase : Nat
  /-- `BEAT_NO` at its start (R364). -/
  beat : Nat
  /-- Cells to rewrite from the slice map before RELEASE (R361). -/
  reload : List Nat
  /-- Slices of KIND 2 to read again (R351): (model, slice id). -/
  slices : List (Nat × Nat)
  /-- Caldera variants to install: (model, index) (R362). -/
  variants : List (Nat × Nat)
  /-- What step 4 of the restart reads of host memory, once ABSORB has ended (R290, R357, R361). -/
  work : List Rewrite
  deriving DecidableEq, Repr

/-- A fault report kept for the repeat counts of R352: cause, position and frame. -/
structure PastReport where
  /-- Cause. -/
  cause : Nat
  /-- Physical position: field × 8192 + row × 256 + p. -/
  pos : Nat
  /-- Frame. -/
  frame : Nat
  deriving DecidableEq, Repr

/-- The fault controller: reports, resets, fatal events. -/
structure Faults where
  /-- Reports of the last 64 frames, newest first (R352). -/
  past : List PastReport
  /-- The partial reset or restart in progress (R364). -/
  job : Option ResetJob
  /-- A fatal event has stopped the module until a WHOLE reset (R372). -/
  stopped : Bool
  deriving DecidableEq, Repr

/-- The fault controller after reset. -/
def Faults.reset : Faults := { past := [], job := none, stopped := false }

end Sys2Proof.Machine
end

