-- ==== Sys2Proof/Machine/StateLink.lean ====
section
/-!
DEFINITION. The state of the links (R273 to R306, R307 to R315): the flit layer of OCL and of the four span ports, the
transaction layer of OCL with its reads, watches and credits, and the event path.
-/
namespace Sys2Proof.Machine

/-- One 16-byte transaction slot (R278). -/
abbrev Slot16 := BitVec 128

/-- An OCL message: header fields and data slots (R285). -/
structure Msg where
  /-- Its header slot, which is its associated data (R303). -/
  hdr : Slot16
  /-- OP of R286. -/
  op : Nat
  /-- TAG, 10 bits. -/
  tag : Nat
  /-- LENM1, 3 bits. -/
  lenm1 : Nat
  /-- STATUS, 3 bits. -/
  status : Nat
  /-- FLAGS: ENC [0], POISON [1], KEY_SLOT [2]. -/
  flags : Nat
  /-- ADDR, 64 bits. -/
  addr : Nat
  /-- FIRST. -/
  first : Nat
  /-- COUNT. -/
  count : Nat
  /-- VECTOR. -/
  vector : Nat
  /-- Data slots (and the GCM tag slot where ENC is set). -/
  data : List Slot16
  deriving DecidableEq, Repr

/-- What acknowledgement of a sent PAYLOAD flit completes (R296, R354). -/
structure AckMark where
  /-- Output ring whose PROD the flit carries. -/
  ring : Nat
  /-- The PROD it writes. -/
  prod : Nat
  deriving DecidableEq, Repr

/-- A message on its way out of a link: its header slot, its data slots in plaintext, and its class (R286, R311). -/
structure OutMsg where
  /-- Class: 0 REQ, 1 POST, 2 RSP, 3 none. -/
  cls : Nat
  /-- Header slot. -/
  hdr : Slot16
  /-- Data slots. -/
  data : List Slot16
  /-- Lowest `OCL_ENC.MODE` that encrypts it (R302); 0 for a message that none does. -/
  enc : Nat
  /-- It may pass while the session is closed: it answers an access to the mailbox block (R305). -/
  mailbox : Bool
  /-- What its acknowledgement completes. -/
  marks : List AckMark
  deriving DecidableEq, Repr

/-- A PAYLOAD flit in a replay buffer (R281). -/
structure SentFlit where
  /-- SEQ, modulo 4,096. -/
  seq : Nat
  /-- The 256 bytes as first sent: a replay resends the same ciphertext. -/
  raw : BitVec 2048
  /-- What its acknowledgement completes. -/
  marks : List AckMark
  /-- How often it has been replayed since the last retrain (R283). -/
  replays : Nat
  deriving DecidableEq, Repr

/-- What PARAMS exchanges (R277, R309). (DEDUCED, unsafe: log entry 37.) -/
structure Params where
  /-- Protocol version. -/
  version : Nat
  /-- Replay buffer size in flits (R277). -/
  replay : Nat
  /-- REQ credits offered (span: slot credits). -/
  req : Nat
  /-- POST credits offered. -/
  post : Nat
  /-- Span: the peer's port number. -/
  port : Nat
  /-- Span: the peer's serial number. -/
  serial : Nat
  /-- Span: the peer's SENIOR bit. -/
  senior : Bool
  /-- Span: the peer's PAIR_EPOCH. -/
  epoch : Nat
  /-- Span: the peer's strap, which R492 compares. -/
  strap : Bool
  deriving DecidableEq, Repr

/-- The flit layer of one link: OCL or one span port (R277 to R284). -/
structure LinkState where
  /-- Lanes on which a receiver was detected, or failed in training (R276, R277). -/
  laneFail : Nat
  /-- First lane in use (R276). -/
  lane0 : Nat
  /-- Lanes in use; 0 before training has chosen a width (R276). -/
  laneN : Nat
  /-- The peer's lanes are met in reverse (R273). -/
  laneRev : Bool
  /-- Scramblers of the lanes in use, sending side, first lane first (R275). -/
  txLanes : List Nat
  /-- Scramblers of the lanes in use, receiving side. -/
  rxLanes : List Nat
  /-- The last flit put on the lanes, scrambled: its byte b travelled on lane b mod N of those in use (R275). -/
  line : Option (BitVec 2048)
  /-- The last IDLE, NAK or RETRAIN flit sent (R278). -/
  ctl : Option (BitVec 2048)
  /-- What this end has sent in PARAMS (R277). -/
  own : Option Params
  /-- What the peer has sent in PARAMS (R277). -/
  peer : Option Params
  /-- Next SEQ to send, 12 bits; reset 0. -/
  txSeq : Nat
  /-- Replay buffer, oldest first, at most 1,024 (R281). -/
  replay : List SentFlit
  /-- Expected SEQ, 12 bits; reset 0. -/
  rxSeq : Nat
  /-- A PAYLOAD flit has been received in order (R278 ACK_V). -/
  gotAny : Bool
  /-- A NAK has been sent and the expected SEQ has not arrived (R281). -/
  nakked : Bool
  /-- NAK flits sent, repeats included (R281). -/
  naks : Nat
  /-- Flits delivered since the last acknowledgement (R281). -/
  unacked : Nat
  /-- SEQ last replayed from, and how often in a row (R283). -/
  replayedSeq : Nat
  /-- Replays of that SEQ. -/
  replayedN : Nat
  /-- ACK timeouts in a row (R283). -/
  ackTimeouts : Nat
  /-- Instants of the retrains of the last second (R284). -/
  retrains : List Nat
  /-- Failed retrains in a row (R284). -/
  retrainFails : Nat
  /-- Instant at which the link went DOWN (R284). -/
  downAt : Nat
  /-- Frame starts since the link went DOWN or the session closed (R284, R305). -/
  downFrames : Nat
  /-- Slots received of a message not yet whole (R285). -/
  partSlots : List Slot16
  /-- Messages waiting to be sent: link not ACTIVE, no credit, 1,024 unacknowledged, or no key (R281, R287, R304). -/
  waiting : List OutMsg
  /-- REQ credits held. -/
  creditReq : Nat
  /-- POST credits held. -/
  creditPost : Nat
  /-- REQ slots received and not yet returned as credits. -/
  owedReq : Nat
  /-- POST slots received and not yet returned as credits. -/
  owedPost : Nat
  deriving DecidableEq, Repr

/-- A link right after whole-module reset: DETECT (R277). -/
def LinkState.reset : LinkState :=
  { laneFail := 0, lane0 := 0, laneN := 0, laneRev := false, txLanes := [], rxLanes := [], line := none, ctl := none, own := none,
    peer := none, txSeq := 0, replay := [], rxSeq := 0, gotAny := false, nakked := false, naks := 0, unacked := 0, replayedSeq := 0, replayedN := 0,
    ackTimeouts := 0, retrains := [], retrainFails := 0, downAt := 0, downFrames := 0, partSlots := [], waiting := [],
    creditReq := 0, creditPost := 0, owedReq := 0, owedPost := 0 }

/-- What a longer read of host memory is for; `part` numbers its extents in order. -/
inductive FetchUse where
  /-- A load check's structures (R149, R152, R510): 0 table header, 1 records, 2 slice map, 3 shape table, 4 variant descriptors,
  5 crossing table. -/
  | check (model part : Nat)
  /-- A LOAD_WEIGHTS (R243): 0 slice map, 1 segment list, 2 data of a segment. -/
  | load (model part : Nat)
  /-- A cell rewrite (R361): 0 slice map, 1 data of a segment. -/
  | rewrite (model part : Nat)
  /-- A relocation (R158, R290): 0 descriptor of the variant, 1 weights of its cells. -/
  | variant (model index part : Nat)
  /-- A staging operation (R415). -/
  | stage
  deriving DecidableEq, Repr

/-- An extent of host memory being read, 512 bytes at a time (R286). -/
structure Fetch where
  /-- What it is for. -/
  use : FetchUse
  /-- Host address of the next byte. -/
  addr : Nat
  /-- Bytes still to be read. -/
  left : Nat
  /-- Bytes read, in order. -/
  got : List (BitVec 8)
  deriving DecidableEq, Repr

/-- What an outstanding read of host memory is for: which row of R290's table its failure takes. -/
inductive ReadUse where
  /-- Header or entry of command ring r. -/
  | cmdRing (r : Nat)
  /-- Token ids of the request with this REQ_ID. -/
  | tokens (req : Nat)
  /-- Slice map for LOAD_RECEIVE of this model. -/
  | sliceMap (model : Nat)
  /-- Tune ring entry or its tokens. -/
  | tune
  /-- PROD of the tune ring while no tune job runs (R295). -/
  | tuneProd
  /-- Header (CONS) of output ring r. -/
  | outRing (r : Nat)
  /-- Header (CONS) of the event ring. -/
  | eventRing
  /-- Header (CONS) of the telemetry ring. -/
  | teleRing
  /-- The next 512 bytes of an extent. -/
  | fetch (use : FetchUse)
  deriving DecidableEq, Repr

/-- An outstanding read (R286, R290). -/
structure HostRead where
  /-- TAG. -/
  tag : Nat
  /-- Host address. -/
  addr : Nat
  /-- LENM1. -/
  lenm1 : Nat
  /-- RD_WATCH. -/
  watch : Bool
  /-- It has been retried once. -/
  retried : Bool
  /-- What it is for. -/
  use : ReadUse
  deriving DecidableEq, Repr

/-- A watched host line and the W3's read-only snapshot of it (R292). -/
structure Watch where
  /-- Line address. -/
  addr : Nat
  /-- Which ring header it is. -/
  use : ReadUse
  /-- The snapshot, 512 bits; none between SNP_INV and the completion of the re-read. -/
  snap : Option (BitVec 512)
  deriving DecidableEq, Repr

/-- An event record (R298). -/
structure EvRec where
  /-- Window offset of the status register. -/
  off : Nat
  /-- The bits that rose. -/
  bits : Nat
  /-- `TIMESTAMP` at the rise. -/
  stamp : Nat
  deriving DecidableEq, Repr

/-- One key slot of one direction (R303, R304). -/
structure KeySlot where
  /-- 32-bit key epoch that the key was installed under; none while the slot is empty. -/
  epoch : Option Nat
  /-- The 256-bit key (R451); no register shows it. -/
  key : Nat
  /-- 64-bit message counter. -/
  ctr : Nat
  deriving DecidableEq, Repr

/-- An empty key slot. -/
def KeySlot.reset : KeySlot := { epoch := none, key := 0, ctr := 0 }

/-- INTR moderation of one vector (R301). -/
structure Moderation where
  /-- Vector. -/
  vector : Nat
  /-- `BEAT_NO` when its last INTR was sent. -/
  last : Nat
  /-- A write for which no INTR has been sent. -/
  owed : Bool
  deriving DecidableEq, Repr

/-- The transaction layer of OCL and the event path. -/
structure Ocl where
  /-- Outstanding reads, oldest first (R286). -/
  reads : List HostRead
  /-- Reads that wait for a free TAG, oldest first; their TAG is still to be given (R286). -/
  readWait : List HostRead
  /-- Extents of host memory being read (R286). -/
  fetches : List Fetch
  /-- Next TAG. -/
  nextTag : Nat
  /-- Watches, at most 32 (R292). -/
  watches : List Watch
  /-- Messages received and not yet performed (R288). -/
  inbox : List Msg
  /-- The session is closed by a failed check until new keys are installed in both directions (R305); reset false. -/
  closed : Bool
  /-- Send key slots (R303). -/
  tx0 : KeySlot
  /-- Send key slot 1. -/
  tx1 : KeySlot
  /-- Receive key slots. -/
  rx0 : KeySlot
  /-- Receive key slot 1. -/
  rx1 : KeySlot
  /-- Event records waiting while the link is not ACTIVE, at most 256 (R300). -/
  evQueue : List EvRec
  /-- W3's PROD of the event ring (R298). -/
  evProd : Nat
  /-- CONS of the event ring as last read. -/
  evCons : Nat
  /-- A failed header read makes the event ring count as full (R290). -/
  evFull : Bool
  /-- INTR moderation by vector (R301). -/
  intr : List Moderation
  deriving DecidableEq, Repr

/-- The transaction layer right after reset. -/
def Ocl.reset : Ocl :=
  { reads := [], readWait := [], fetches := [], nextTag := 0, watches := [], inbox := [], closed := false, tx0 := .reset, tx1 := .reset, rx0 := .reset,
    rx1 := .reset, evQueue := [], evProd := 0, evCons := 0, evFull := false, intr := [] }

end Sys2Proof.Machine
end

