-- ==== Sys2Proof/Machine/StatePair.lean ====
section
/-!
DEFINITION. The state of the tune job (R256 to R272) and of the pair: span streams, mirroring, split mode (R307 to R341).
-/
namespace Sys2Proof.Machine

/-- A training example as the W3 read it (R260). -/
structure Example where
  /-- Index of its ring entry. -/
  index : Nat
  /-- NTOK. -/
  ntok : Nat
  /-- LOSS_FROM. -/
  lossFrom : Nat
  /-- END_GROUP. -/
  endGroup : Bool
  /-- Token ids. -/
  tokens : List Nat
  /-- Its STATUS is INPUT: it contributes nothing (R261). -/
  bad : Bool
  deriving DecidableEq, Repr

/-- A tune block in flight (R256). -/
structure TuneBlock where
  /-- Model slot whose launches it occupies. -/
  model : Nat
  /-- First launch. -/
  launch : Nat
  /-- TBLK as it stood then. -/
  tblk : Nat
  /-- Ring indices of its examples. -/
  examples : List Nat
  /-- Sequence slots it took (R262). -/
  seqs : List Nat
  /-- Length table its launch carries, an entry for each example (R184, R261). -/
  table : List Dword
  /-- APPLY: it holds the group's END_GROUP example (R267). -/
  apply : Bool
  deriving DecidableEq, Repr

/-- The tune job beside its registers. -/
structure Tune where
  /-- PROD of the tune ring as last read. -/
  prod : Nat
  /-- CONS of the tune ring. -/
  cons : Nat
  /-- Examples read from the ring and not yet passed by CONS, in ring order. -/
  examples : List Example
  /-- TOKADDR of the examples read, by ring index. -/
  addrs : Table Nat
  /-- Ring index of the next example to run. -/
  next : Nat
  /-- Blocks in flight, oldest first (R256, R259). -/
  blocks : List TuneBlock
  /-- The next Tune step takes KEEPIN = 0 (R269). -/
  fresh : Bool
  /-- Launch number after the last launch of the last block formed (R256); none before the first block. -/
  blockEnd : Option Nat
  deriving DecidableEq, Repr

/-- The tune job right after reset. -/
def Tune.reset : Tune :=
  { prod := 0, cons := 0, examples := [], addrs := [], next := 0, blocks := [], fresh := false, blockEnd := none }

/-- What a stack request met in a stack (R206). -/
structure StackEnv where
  /-- Stack address of the granule of each failed transfer: a granule's first four are retried, its fifth counts as uncorrectable. -/
  retries : List Nat
  /-- Stack addresses of corrected reads. -/
  ce : List Nat
  /-- Stack addresses of uncorrectable granules. -/
  ue : List Nat
  deriving DecidableEq, Repr

/-- No error met. -/
def StackEnv.quiet : StackEnv := ⟨[], [], []⟩

/-- A page asked of the partner (R323). -/
structure PageReq where
  /-- Model slot. -/
  model : Nat
  /-- Sequence slot. -/
  seq : Nat
  /-- Page span. -/
  span : Nat
  /-- Layer. -/
  layer : Nat
  /-- Stack controller whose stack the uncorrectable granule lies in. -/
  stack : Nat
  /-- Sequence slot of the request that met it; none for the patrol (R206). -/
  reader : Option Nat
  /-- Bytes of the answer that have arrived. -/
  got : Nat
  deriving DecidableEq, Repr

/-- A span message: header fields and data slots (R311). -/
structure SpanMsg where
  /-- OP (R312). -/
  op : Nat
  /-- MODEL. -/
  model : Nat
  /-- PSN (R313). -/
  psn : Nat
  /-- ARG, 64 bits. -/
  arg : Nat
  /-- Data slots. -/
  data : List Slot16
  deriving DecidableEq, Repr

/-- An admission decision as FRAME carries it (R318). -/
structure Decided where
  /-- REQ_ID. -/
  reqId : Nat
  /-- Model slot. -/
  model : Nat
  /-- CODE of the DECISION entry. -/
  code : Nat
  /-- Sequence slot of an admission. -/
  seq : Nat
  deriving DecidableEq, Repr

/-- What a FRAME carries (R321). (DESIGN CHOICE, safe: log entry 22.) -/
structure FrameData where
  /-- It travels in the MIRROR stream (the primary's). -/
  mirror : Bool
  /-- PSN, when it does. -/
  psn : Nat
  /-- Frame number. -/
  frame : Nat
  /-- Beat number. -/
  beat : Nat
  /-- `TIMESTAMP` (R164). -/
  stamp : Nat
  /-- POOL_FREE by model slot. -/
  free : List Nat
  /-- POOL_RESV by model slot. -/
  resv : List Nat
  /-- TOK_GEN_CNT. -/
  gen : Nat
  /-- TOK_DELIV_CNT. -/
  deliv : Nat
  /-- PAIR_EPOCH. -/
  epoch : Nat
  /-- Admission decisions of the frame (R318): REQ_ID, model, CODE as a DECISION entry holds it, and the sequence slot of an
  admission. -/
  decisions : List Decided
  deriving DecidableEq, Repr

/-- One sequence of a COMMIT (R318). -/
structure CommitSeq where
  /-- Sequence slot. -/
  seq : Nat
  /-- REQ_ID. -/
  reqId : Nat
  /-- STEP. -/
  step : Nat
  /-- Tokens committed. -/
  tokens : List Nat
  /-- Next root token. -/
  root : Nat
  /-- DELIVERED_THRU. -/
  deliveredThru : Nat
  deriving DecidableEq, Repr

/-- A COMMIT (R318). (DESIGN CHOICE, safe: log entry 22.) -/
structure CommitData where
  /-- PSN. -/
  psn : Nat
  /-- Model slot. -/
  model : Nat
  /-- Launch number. -/
  launch : Nat
  /-- Beat number. -/
  beat : Nat
  /-- Sequences. -/
  seqs : List CommitSeq
  deriving DecidableEq, Repr

/-- A prefix-table change (R225, R227, R318). -/
structure PfxChange where
  /-- PSN. -/
  psn : Nat
  /-- Model slot. -/
  model : Nat
  /-- Handle. -/
  handle : Nat
  /-- Sequence slot whose pages become the prefix; none for a removal. -/
  seq : Option Nat
  /-- Lp. -/
  lp : Nat
  deriving DecidableEq, Repr

/-- A RESULT of a split step (R337). -/
structure SplitResult where
  /-- PSN. -/
  psn : Nat
  /-- Model slot. -/
  model : Nat
  /-- Launch number at the front. -/
  launch : Nat
  /-- For each sequence: tokens, accepted rows, next tree's root and candidates. -/
  seqs : List (List Nat × Nat × List Nat)
  deriving DecidableEq, Repr

/-- What a stream delivers (R312, R313). -/
inductive SpanIn where
  /-- CMD, TOKENS_IN, KV, SEQSTATE or XING. -/
  | msg (m : SpanMsg)
  /-- COMMIT. -/
  | commit (d : CommitData)
  /-- PREFIX. -/
  | pfx (d : PfxChange)
  /-- The primary's FRAME. -/
  | frame (d : FrameData)
  /-- RESULT. -/
  | result (d : SplitResult)
  /-- SCOMMIT: model and launch. -/
  | scommit (model launch : Nat)
  deriving DecidableEq, Repr

/-- A part of a pass-on segment that has still to be sent (R333). -/
structure PassPart where
  /-- Model slot. -/
  model : Nat
  /-- MANIFEST. -/
  manifest : Nat
  /-- LOAD_WEIGHTS it belongs to: (ring, REQ_ID). -/
  key : Nat × Nat
  /-- Slice id. -/
  slice : Nat
  /-- Offset in the slice, in granules. -/
  off : Nat
  /-- The segment's final part. -/
  last : Bool
  /-- Its granules. -/
  data : List Granule
  deriving DecidableEq, Repr

/-- What the MIRROR stream has delivered of a commit group whose COMMIT has not arrived (R318). -/
structure SpanPart where
  /-- Message kind (OP). -/
  op : Nat
  /-- Model. -/
  model : Nat
  /-- ARG. -/
  arg : Nat
  /-- Data. -/
  data : List Slot16
  deriving DecidableEq, Repr

/-- A request as the mirror keeps it at its last complete commit group (R318, R326). -/
structure MirrorReq where
  /-- REQ_ID. -/
  reqId : Nat
  /-- Model. -/
  model : Nat
  /-- Sequence slot. -/
  seq : Nat
  /-- STEP of the last mirrored step. -/
  step : Nat
  /-- DELIVERED_THRU. -/
  deliveredThru : Nat
  /-- Next root token. -/
  root : Nat
  /-- TOKENS of the mirrored steps after DELIVERED_THRU, as (STEP, tokens). -/
  kept : List (Nat × List Nat)
  /-- The request with its status and its sequence's LEN, where the last mirrored commit ended it (R327). -/
  ended : Option (Request × Nat × Nat)
  deriving DecidableEq, Repr

/-- A step of the back half of a split model (R336, R337). -/
structure BackStep where
  /-- Number by which the commands of a step name it: 1,024 and above; 0 until it is launched. -/
  index : Nat
  /-- Model slot. -/
  model : Nat
  /-- Launch number at the front. -/
  launch : Nat
  /-- Launch entry: 1 Generate, 2 Prefill. -/
  entry : Nat
  /-- Requests of the front with their sequences, as the step's crossings tell them. -/
  seqs : List (Request × StepSeq)
  /-- RESULT has been sent. -/
  result : Bool
  /-- SCOMMIT has been received. -/
  commits : Bool
  deriving DecidableEq, Repr

/-- Input token ids held by the mirror (R318). -/
structure MirrorTokens where
  /-- REQ_ID. -/
  reqId : Nat
  /-- Model. -/
  model : Nat
  /-- Offset in tokens of this part. -/
  off : Nat
  /-- Token ids. -/
  toks : List Nat
  deriving DecidableEq, Repr

/-- The pair: span links and streams, mirroring and split mode. -/
structure Pair where
  /-- Span ports 0 to 3: their flit layers. -/
  port0 : LinkState
  /-- Port 1. -/
  port1 : LinkState
  /-- Port 2. -/
  port2 : LinkState
  /-- Port 3. -/
  port3 : LinkState
  /-- Partner serial learned on each ACTIVE port, by port (R309). -/
  serials : Table Nat
  /-- Next PSN of the streams MIRROR, SPLIT and PASS. -/
  txPsn : Table Nat
  /-- Messages sent with a PSN and not known to have arrived: (port, stream, message) (R314). -/
  outstanding : List (Nat × Nat × SpanMsg)
  /-- MIRROR messages with their PSN that wait for the Mirror budget, oldest first (R320). -/
  mirrorQ : List SpanMsg
  /-- Next PSN expected of each stream (R313). -/
  rxPsn : Table Nat
  /-- Messages that arrived ahead of their PSN: (stream, PSN, message) (R313). -/
  ahead : List (Nat × Nat × SpanIn)
  /-- Parts of the commit group being received (R318). -/
  group : List SpanPart
  /-- Complete commit groups applied. -/
  groupsIn : Nat
  /-- Commit groups sent: (PSN of COMMIT, ledger entry) not yet acknowledged (R319, R320). -/
  lag : List (Nat × Nat)
  /-- PSNs of TOKENS_IN not yet acknowledged: (PSN, request) (R319). -/
  tokensIn : List (Nat × Nat)
  /-- Mirrored requests (R318). -/
  mirror : List MirrorReq
  /-- Mirrored input token ids. -/
  mirrorToks : List MirrorTokens
  /-- KV sinter stores held for mirrored sequences: (sequence slot, first layer, data) (R318). -/
  sinter : List (Nat × Nat × List Slot16)
  /-- Primary: sequences whose copy is complete in SYNCING (R324). -/
  synced : List Nat
  /-- The partner is still SYNCING. -/
  syncing : Bool
  /-- Mirror: the primary's pool counts as its last FRAME gave them, per model (FREE, RESV) (R321). -/
  poolFree : Table Nat
  /-- As `poolFree`, for POOL_RESV. -/
  poolResv : Table Nat
  /-- Frame starts of this module without a partner FRAME (R328). -/
  silent : Nat
  /-- An arbitration whose epoch is being journaled: (action, epoch) (R331). -/
  arb : Option (Nat × Nat)
  /-- A takeover waits for its journal record (R326). -/
  takeover : Bool
  /-- Page requests sent and not answered (R323). -/
  pageReqs : List PageReq
  /-- PAGE_REQ and PAGE_DATA messages that wait while KV-Move is held, oldest first, with what an answer's own read meets (R167, R323). -/
  pageWait : List (SpanMsg × StackEnv)
  /-- Split crossing granules landed: key launch-ordered step number × 2 + DIR (R336). -/
  crossed : Table Nat
  /-- Steps the back may launch, oldest first (R336). -/
  backReady : List BackStep
  /-- Steps the back has launched and not committed (R337). -/
  backSteps : List BackStep
  /-- The partner's last PARAMS (R332). -/
  partner : Option Params
  /-- The partner is watched for loss, from this cycle on (R328); none after ISOLATED, after a FAIL and in MODE NONE. -/
  watch : Option Nat
  /-- A junior that was isolated keeps its frozen mirror (R329). -/
  frozen : Bool
  /-- Pass-on parts sent and not answered: (ring, REQ_ID) (R333). -/
  passSent : List (Nat × Nat)
  /-- Pass-on parts that wait to be sent (R167, R333). -/
  passWait : List PassPart
  /-- Running LOAD_WEIGHTS of which a pass-on part was dropped: (ring, REQ_ID) (R333). -/
  passDrop : List (Nat × Nat)
  /-- Span messages received whole and not yet performed. -/
  inbox : List SpanMsg
  deriving DecidableEq, Repr

/-- The pair right after reset. -/
def Pair.reset : Pair :=
  { port0 := .reset, port1 := .reset, port2 := .reset, port3 := .reset, serials := [], txPsn := [], outstanding := [], mirrorQ := [],
    rxPsn := [], ahead := [], group := [], groupsIn := 0, lag := [], tokensIn := [], mirror := [], mirrorToks := [],
    sinter := [], synced := [], syncing := false, poolFree := [], poolResv := [], silent := 0, arb := none,
    takeover := false, pageReqs := [], pageWait := [], crossed := [], backReady := [], backSteps := [], partner := none, watch := none, frozen := false, passSent := [], passWait := [], passDrop := [], inbox := [] }

end Sys2Proof.Machine
end

