-- ==== Sys2Proof/Machine/StateCell.lean ====
section
/-!
DEFINITION. The state of the logical cells and of the wafer mesh (R28 to R63, R64 to R90, R135 to R141, R147, R363): sequencers,
shadows, launch rings, scrubbers, flits on the mesh, router tables, reduction queues, link replay buffers, row placement.
-/
namespace Sys2Proof.Machine

/-- Why a sequencer does not issue (R29). -/
inductive Stall where
  /-- Issue is not stalled. -/
  | none
  /-- A WAIT on counter `cnt` for `thresh` (R81). -/
  | wait (cnt : Nat) (thresh : BitVec 24)
  /-- A SYNC that closes schedule slot `slot` (R141). -/
  | sync (slot : Nat)
  deriving DecidableEq, Repr

/-- The phase of a partial reset as one cell sees it (R364). -/
inductive RstPhase where
  /-- No reset acts on the cell. -/
  | none
  /-- Issue stops after the instruction in progress. -/
  | drain
  /-- Reset state applied, landings absorbed (R365). -/
  | absorb
  /-- Schedule state is being filled again. -/
  | release
  deriving DecidableEq, Repr

/-- A port access that has lost its bank and retries (R77). -/
structure Waiting where
  /-- Port code (R69). -/
  port : Nat
  /-- Bank. -/
  bank : Nat
  /-- Cycles lost. -/
  losses : Nat
  /-- Cycle in which it became aged. -/
  agedAt : Option Nat
  deriving DecidableEq, Repr

/-- One logical cell's sequencer, shadows, due engine, scrubber and reset state (R28, R363). -/
structure Cell where
  /-- `SEQ_CTRL.RUN` (R60); reset 0. -/
  run : Bool
  /-- `SEQ_CTRL.ILLEGAL`, sticky (R60); reset 0. -/
  illegal : Bool
  /-- `SEQ_PC`, 18 bits: word address of next issue (R60); reset 0. -/
  pc : BitVec 18
  /-- Issue stall (R29). -/
  stall : Stall
  /-- Fetch buffer of two granules: number and content as fetched (R71); reset empty. -/
  fetch : List (Nat × Granule)
  /-- RNG state (R33, R363), 64 bits; reset 0. -/
  rng : BitVec 64
  /-- Control-granule shadow (R74), 512 bits; reset 0. -/
  shadow0 : Granule
  /-- Stage-record shadow (R135), 512 bits; reset 0. -/
  shadow1 : Granule
  /-- Tune-record shadow (R255), 512 bits; reset 0. -/
  shadow2 : Granule
  /-- Bank class map in force (R74), two bits a bank, 240 bits; reset 0 (every bank SHARED). -/
  classes : BitVec 240
  /-- The cell's own copy of `SLOT_NO` less the hub's, modulo 2⁵⁴ (R147). -/
  slotOff : BitVec 54
  /-- Launch ring: 1,024 two-bit entries, entry k in bits [2k + 1:2k] (R139); reset all empty. -/
  ring : BitVec 2048
  /-- Launch entry that the current iteration serves, 0 to 3 (R137, R139). -/
  serving : Nat
  /-- Schedule slot in which the current iteration began (R138). -/
  iterStart : Nat
  /-- Launch number the current iteration serves (R138). -/
  iterLaunch : Nat
  /-- An iteration is in progress (R138). -/
  inIter : Bool
  /-- SYNCs completed in the current iteration (R138). -/
  syncs : Nat
  /-- The last SYNC of the iteration before was not complete when this one began (R143). -/
  lateSync : Bool
  /-- The iteration runs the wide variant (R153). -/
  wide : Bool
  /-- Recipe entry of the cell's layer that the iteration runs under (R120, R126). -/
  recipe : Word
  /-- Tune-block role of the iteration: 0 serving, 1 tune-forward, 2 backward, 3 idle within a block (R256). -/
  tuneRole : Nat
  /-- Schedule slot that the failing DUE test guards (R349). -/
  dueSlot : Nat
  /-- Consecutive failed DUE tests for it, up to 32,768 (R349). -/
  dueFails : Nat
  /-- Schedule slot whose STRETCH tests are counted (R143). -/
  stretchSlot : Nat
  /-- STRETCH tests made for it (R143). -/
  stretchTests : Nat
  /-- Words with a corrected value waiting to be written back: granule × 8 + word (R85). -/
  writeBack : List Nat
  /-- Words corrected and written back, not read since (R87). -/
  corrected : List Nat
  /-- Accesses that have lost their bank and retry (R77); reset none. -/
  waiting : List Waiting
  /-- Granules that the TENSOR port holds while one of the same cycle is retried (R77); reset none. -/
  tensorHeld : List Nat
  /-- Next granule of the scrubber (R88). -/
  scrubPos : Nat
  /-- The waiting scrub read is aged (R88). -/
  scrubAged : Bool
  /-- Instant at which it became aged (R76, R88). -/
  scrubSince : Nat
  /-- Cycle in which the running scrub pass began (R88). -/
  passStart : Nat
  /-- `TIMESTAMP` of the scrubber's last step (R164). -/
  scrubStamp : Nat
  /-- The pass in progress has been reported late (R88). -/
  passLate : Bool
  /-- Passes completed (R90). -/
  passes : Nat
  /-- `MEM_SCRUB_PASS_CNT` of the field when the cell's last pass ended (R90); reset none. -/
  passAt : Option Nat
  /-- Phase of a partial reset (R364). -/
  phase : RstPhase
  /-- Landings since reset, modulo 2³² (R368). -/
  landed : Word
  /-- Thresholds taken by WAIT since reset, modulo 2³² (R368). -/
  taken : Word
  /-- An arrival counter saturated in this frame (R83, R368). -/
  cntOvf : Bool
  deriving DecidableEq, Repr

/-- A cell right after reset (R363, R472). (DESIGN CHOICE, unsafe: log entry 7.) -/
def Cell.reset : Cell :=
  { run := false, illegal := false, pc := 0, stall := .none, fetch := [], rng := 0, shadow0 := 0, shadow1 := 0, shadow2 := 0,
    classes := 0, slotOff := 0, ring := 0, serving := 0, iterStart := 0, iterLaunch := 0, inIter := false, syncs := 0, lateSync := false, wide := false,
    recipe := 0, tuneRole := 0, dueSlot := 0, dueFails := 0, stretchSlot := 0, stretchTests := 0, writeBack := [],
    corrected := [], waiting := [], tensorHeld := [], scrubPos := 0, scrubAged := false, scrubSince := 0, passStart := 0, scrubStamp := 0,
    passLate := false, passes := 0, passAt := none, phase := .none, landed := 0, taken := 0, cntOvf := false }

/-- A data flit: 48-bit tag and 512 data bits (R51). -/
structure Flit where
  /-- Tag, laid out by R51. -/
  tag : BitVec 48
  /-- Data, byte 0 in bits [7:0]. -/
  data : Granule
  deriving DecidableEq, Repr

/-- A flit on the mesh: the router (or endpoint) it stands at or was injected at, and the flit (R42, R54). -/
structure Flight where
  /-- Linear number of the logical cell whose router holds or last sent it, or of the endpoint that injected it. -/
  at_ : Nat
  /-- The flit. -/
  flit : Flit
  /-- Activity whose work it is (R165). -/
  act : Nat
  /-- Link directions it has passed, router and port, the one before it last (R42, R53); of a multicast copy that last one alone. -/
  via : List (Nat × Nat)
  /-- Link directions of its route still before it (R42, R46). -/
  ahead : List (Nat × Nat)
  /-- The XING message that a span port sends when this flit, the last of its MOVE, has come out of the mesh (R336): model, ARG, data. -/
  out : Option (Nat × Nat × List (BitVec 128))
  /-- The split crossing that this flit, come in by a span port, belongs to (R336): model and DIR. -/
  xin : Option (Nat × Nat)
  deriving DecidableEq, Repr

/-- One direction of a mesh link: sender's replay buffers and receiver's error state (R53). The CRCs that travel beside a flit or a VC0
word are functions of them (R52). -/
structure LinkDir where
  /-- Flits sent and not released: sequence number, and the flit as the link carries it, oldest first. -/
  replay : List (Nat × Flit)
  /-- Next SEQ, modulo 16. -/
  seq : Nat
  /-- VC0 words sent and not released. -/
  replay0 : List (Nat × Word)
  /-- Next VC0 sequence number, modulo 16. -/
  seq0 : Nat
  /-- The receiver discards flits until the replay of this SEQ arrives. -/
  await : Option Nat
  /-- The receiver discards VC0 words until the replay of this number arrives. -/
  await0 : Option Nat
  /-- SEQ of the flit that failed last, until it leaves the replay buffer. -/
  failing : Option Nat
  /-- Number of the VC0 word that failed last, until it leaves the replay buffer. -/
  failing0 : Option Nat
  /-- Times that flit has failed. -/
  fails : Nat
  /-- Times that VC0 word has failed. -/
  fails0 : Nat
  /-- The link is failed (R53). -/
  failed : Bool
  deriving DecidableEq, Repr

/-- A link direction with nothing sent. -/
def LinkDir.reset : LinkDir :=
  { replay := [], seq := 0, replay0 := [], seq0 := 0, await := none, await0 := none, failing := none,
    failing0 := none, fails := 0, fails0 := 0, failed := false }

/-- A write to a multicast or reduction table entry that waits for the next slot boundary (R61). -/
structure TableWrite where
  /-- Router, by the linear number of its logical cell. -/
  router : Nat
  /-- True: reduction table; false: multicast table. -/
  red : Bool
  /-- Tree, 0 to 255. -/
  tree : Nat
  /-- The written word. -/
  value : Word
  deriving DecidableEq, Repr

/-- A data-class fault on its way to the fault controller (R350). -/
structure Report where
  /-- Cause code of R350. -/
  cause : Nat
  /-- Linear number of the reporting cell or of the cell of the reporting router. -/
  cell : Nat
  /-- STACK_UE: stack address of the uncorrectable granule, plus 1; 0 otherwise (R206). -/
  info : Nat
  /-- STACK_UE: sequence slot of the request that met it; none for the patrol (R206, R351). -/
  reader : Option Nat
  /-- STACK_UE: the granule lay in committed KV (R351). -/
  kv : Bool
  deriving DecidableEq, Repr

/-- A change of one row's placement that waits for the next slot boundary (R39, R63). -/
structure PlaceChange where
  /-- Field. -/
  field : Nat
  /-- Row. -/
  row : Nat
  /-- The `SPARE_MAP` word to take effect. -/
  word : Word
  deriving DecidableEq, Repr

/-- The wafer mesh and the row placement. -/
structure Mesh where
  /-- Flits injected and not yet landed or copied (R42, R46). -/
  flight : List Flight
  /-- Multicast tables, key router × 256 + tree, 16-bit entries (R54); reset 0. -/
  mcast : Table (BitVec 16)
  /-- Reduction tables, key router × 256 + tree, 32-bit entries (R56); reset 0. -/
  redTab : Table Word
  /-- Table writes that take effect at the next slot boundary (R61). -/
  tabWrites : List TableWrite
  /-- VC2 flits held at routers with the activity whose work each is, key (router × 256 + tree) × 8 + input port, oldest first (R56,
  R165). -/
  redQ : Table (List (Nat × Flit))
  /-- Reduction trees stopped at a router by RED_SEQ, router × 256 + tree (R57). -/
  redStop : List Nat
  /-- Link directions, key router × 8 + output port (R53). -/
  links : Table LinkDir
  /-- VC2 credits in use by the sender, key router × 8 + output port, 0 to 8 (R46, R59). -/
  used2 : Table Nat
  /-- VC3 credits in use by the sender, key router × 8 + output port, 0 to 4 (R46, R59). -/
  used3 : Table Nat
  /-- Routers marked out, by physical position: field × 8192 + row × 256 + p (R38). -/
  markedOut : List Nat
  /-- Positions with a defective cell: field × 8192 + row × 256 + p (R36, R38). -/
  defects : List Nat
  /-- Placement changes for the next slot boundary (R39). -/
  placing : List PlaceChange
  /-- Each router row's copy of its `SPARE_MAP` word, key field × 32 + row (R39, R60). -/
  rowMap : Table Word
  /-- Fault reports on their way to the fault controller (R350). -/
  reports : List Report
  /-- Cycle of the collision that `MEM_COLL_LAST` of a field holds, (field, cycle), youngest first (R78). -/
  collAt : List (Nat × Nat)
  deriving DecidableEq, Repr

/-- The mesh right after reset. (DESIGN CHOICE, unsafe: log entry 7.) -/
def Mesh.reset : Mesh :=
  { flight := [], mcast := [], redTab := [], tabWrites := [], redQ := [], redStop := [], links := [], used2 := [], used3 := [],
    markedOut := [], defects := [], placing := [], rowMap := [], reports := [], collAt := [] }

end Sys2Proof.Machine
end

