-- ==== Sys2Proof/Machine/StateEnv.lean ====
section
/-!
DEFINITION. What the accesses of a cell's memory meet while a command is performed: collisions, bit errors, fault causes, and the row
worked for.
-/
namespace Sys2Proof.Machine

/-- Ports of a cell want one bank in one cycle (R76, R77); which of them is served the cell itself decides. (DESIGN CHOICE, unsafe: log
entry 66.) -/
structure Meet where
  /-- Cycle, counted since reset. -/
  cy : Nat
  /-- Bank, 0 to 119. -/
  bank : Nat
  /-- Codes of the ports that want it (R69); 5 stands for a scrub read. -/
  wants : List Nat
  /-- A clear-engine write wants it too, since this cycle (R452). -/
  clear : Option Nat
  /-- Granules that the TENSOR port is served in other banks in the same cycle. -/
  won : List Nat
  deriving DecidableEq, Repr

/-- The row of a step whose K or V an instruction quantises: the image's program knows it, no register of the cell holds it (R116,
R191). (DESIGN CHOICE, unsafe: log entry 73.) -/
structure KvRow where
  /-- Sequence slot. -/
  seq : Nat
  /-- KV layer. -/
  layer : Nat
  /-- K or V of a head: kv × KVH + h (R190). -/
  part : Nat
  /-- Row of the step. -/
  row : Nat
  deriving DecidableEq, Repr

/-- The attention row that an instruction works for (R178 to R182). (DESIGN CHOICE, unsafe: log entry 73.) -/
structure AttnRow where
  /-- Sequence slot. -/
  seq : Nat
  /-- Tree row, 0 when the step carries no tree. -/
  row : Nat
  /-- Query position. -/
  pos : Nat
  /-- Query head. -/
  qhead : Nat
  /-- Granule whose first word is the row maximum, FP32. -/
  maxAt : Nat
  /-- Granule whose first word is the row sum, FP32. -/
  sumAt : Nat
  /-- Byte address, in 16 bytes, of the row's statistics record. -/
  recAt : Nat
  /-- The instruction writes scores of the row into its tile. -/
  scores : Bool
  deriving DecidableEq, Repr

/-- What a cell's memory accesses met while a command was performed, and the row it was performed for.
(DESIGN CHOICE, unsafe: log entry 66.) -/
structure MemEnv where
  /-- Words with a single-bit error, granule × 8 + word (R85). -/
  ce : List Nat
  /-- Uncorrectable words, granule × 8 + word (R86). -/
  ue : List Nat
  /-- Collisions, one for each cycle and losing set (R77). -/
  meets : List Meet
  /-- Fault causes raised by residue, duplicate-lane and parity checks (R345 to R347). -/
  checks : List Nat
  /-- Routers at which a VC1 flit of the command waited for an earlier one on the same link direction (R47). -/
  conflicts : List Nat
  /-- QNT in KV mode: the row it quantises. -/
  kvRow : Option KvRow
  /-- An instruction of an attention stage: the row it works for. -/
  attn : Option AttnRow
  deriving DecidableEq, Repr

/-- Nothing met. -/
def MemEnv.quiet : MemEnv := { ce := [], ue := [], meets := [], checks := [], conflicts := [], kvRow := none, attn := none }

/-- What the reads of several cells met, by cell (R85 to R87). -/
abbrev CellEnvs := List (Nat × MemEnv)

/-- What one cell's reads met. -/
def CellEnvs.of (es : CellEnvs) (c : Nat) : MemEnv := ((es.find? (·.1 == c)).map (·.2)).getD MemEnv.quiet

end Sys2Proof.Machine
end

