-- ==== Sys2Proof/Machine/StateSched.lean ====
section
/-!
DEFINITION. The state of the schedule (R134 to R176), of precision events, recipes and auto-widen (R120 to R133), of the beat
(R159 to R164) and of the activity budgets (R165 to R170).
-/
namespace Sys2Proof.Machine

/-- A precision event on its way to its layer (R121, R122). -/
structure PrecEvent where
  /-- Model slot charged (R120). -/
  model : Nat
  /-- Layer charged (R120). -/
  layer : Nat
  /-- 0 WHEY_OVF, 1 SAT, 2 NONFIN (R121). -/
  kind : Nat
  deriving DecidableEq, Repr

/-- Flags, counters and widen state of one (model, layer) (R121, R129, R133). -/
structure LayerPrec where
  /-- `PREC_LAYER_STS` [4:0]: WHEY_OVF, SAT, NONFIN, WIDEN_REFUSED, WIDENED (RC); reset 0. -/
  flags : BitVec 5
  /-- `WHEY_OVF_CNT`, 64 bits; reset 0. -/
  whey : BitVec 64
  /-- `SAT_CNT`, 64 bits; reset 0. -/
  sat : BitVec 64
  /-- `NONFIN_CNT`, 64 bits; reset 0. -/
  nonfin : BitVec 64
  /-- `WIDEN_STATE.REMAIN`: steps left, 0 to 64; reset 0. -/
  remain : Nat
  /-- The layer is widened, from the grant on, and charged to WIDEN_MAX (R128); reset false. -/
  granted : Bool
  /-- `WIDEN_STATE.WIDE`: the layer runs its wide variant; reset false. -/
  wide : Bool
  deriving DecidableEq, Repr

/-- A layer nothing has flagged. -/
def LayerPrec.reset : LayerPrec :=
  { flags := 0, whey := 0, sat := 0, nonfin := 0, remain := 0, granted := false, wide := false }

/-- A widen change, waiting for a slot word or in force from a launch (R154). -/
structure WidenChange where
  /-- Model slot. -/
  model : Nat
  /-- Layer. -/
  layer : Nat
  /-- To wide. -/
  wide : Bool
  deriving DecidableEq, Repr

/-- A widen change carried in a slot word: it applies from launch `launch` on (R154). -/
structure WidenFrom where
  /-- The change. -/
  change : WidenChange
  /-- The first launch K it applies to. -/
  launch : Nat
  deriving DecidableEq, Repr

/-- A recipe that a switch took out of force, as its entries stood (R126): what started before the switch keeps it. -/
structure OldRecipe where
  /-- Model slot. -/
  model : Nat
  /-- Recipe number. -/
  recipe : Nat
  /-- The first launch after the switch. -/
  upTo : Nat
  /-- `SLOT_NO` at the switch. -/
  slot : Nat
  /-- Its 256 entries. -/
  entries : List Word
  deriving DecidableEq, Repr

/-- Precision collector, recipes and auto-widen. -/
structure Prec where
  /-- Events not yet collected (R122). -/
  queue : List PrecEvent
  /-- Per-layer state, key model × 256 + layer. -/
  layers : Table LayerPrec
  /-- Recipe tables, key recipe × 256 + layer, 32-bit entries (R124); reset 0, invalid. -/
  recipes : Table Word
  /-- PRECISION_STORM has been raised in this frame (R131). -/
  stormed : Bool
  /-- Widen changes waiting for a slot word with VSW_V free, oldest first (R154). -/
  waiting : List WidenChange
  /-- Changes carried in a slot word whose boundary has not yet advanced (R154). -/
  carried : List WidenChange
  /-- Changes with a first launch fixed (R154). -/
  fixed : List WidenFrom
  /-- Recipes taken out of force, oldest first (R126). -/
  outgoing : List OldRecipe
  deriving DecidableEq, Repr

/-- Precision state right after reset. (DESIGN CHOICE, unsafe: log entry 7.) -/
def Prec.reset : Prec :=
  { queue := [], layers := [], recipes := [], stormed := false, waiting := [], carried := [], fixed := [],
    outgoing := [] }

/-- One granule a caldera variant writes into a cell (R156). -/
structure GranuleWrite where
  /-- Cell. -/
  cell : Nat
  /-- Granule. -/
  granule : Nat
  /-- Content. -/
  data : Granule
  deriving DecidableEq, Repr

/-- A caldera variant descriptor as the load check read it (R156). -/
structure CalVariant where
  /-- Field of the cluster. -/
  field : Nat
  /-- Home row. -/
  row : Nat
  /-- Cluster of the row, 0 to 3. -/
  cluster : Nat
  /-- Caldera row it moves to. -/
  target : Nat
  /-- The variant fits (R156). -/
  usable : Bool
  /-- Replacement stage records, code and due tables. -/
  writes : List GranuleWrite
  /-- Replacement multicast and reduction table entries. -/
  tables : List TableWrite
  /-- Weights of the relocated cells: for each run of granules the cell in `slice`, the first granule in `off`, and the host address that
  is read at installation. -/
  weights : List SegRec
  deriving DecidableEq, Repr

/-- The image of a model slot, as the load check left it (R134, R137, R149). -/
structure Image where
  /-- Linear numbers of the bound cells, ascending (R510). -/
  cells : List Nat
  /-- Region: bit f set means field f (R149). -/
  region : Nat
  /-- Launch interval I in slots (R135). -/
  interval : Nat
  /-- FLAGS bit 0: a T36 image (R171). -/
  t36 : Bool
  /-- Caldera variants (R156). -/
  variants : List CalVariant
  /-- VARTAB: host address of their descriptors (R149). -/
  varTab : Nat
  /-- Variants in force, by index into `variants` (R157). -/
  inForce : List Nat
  /-- WFMT of each layer whose weights the load check found (R125). -/
  formats : List (Nat × Nat)
  /-- Crossing table of a split model, records in order (R335). -/
  crossings : List (BitVec 128)
  /-- The image waits for an advancing boundary to start (R137). -/
  toStart : Bool
  /-- The image has started and runs. -/
  running : Bool
  /-- START: the schedule slot that its starting boundary began (R137). -/
  start : Nat
  /-- First launch number of this start, so that launch numbers never repeat across restarts (R358). -/
  launch0 : Nat
  deriving DecidableEq, Repr

/-- A slot with no image. -/
def Image.reset : Image :=
  { cells := [], region := 0, interval := 0, t36 := false, variants := [], varTab := 0, inForce := [], formats := [], crossings := [], toStart := false, running := false,
    start := 0, launch0 := 0 }

/-- What fills one model's launch slot in the schedule slot the coming boundary begins (R137, R218). -/
structure LaunchPlan where
  /-- Model slot. -/
  model : Nat
  /-- Launch number k. -/
  launch : Nat
  /-- Launch entry: 0 empty, 1 Generate, 2 Prefill, 3 Tune (R137). -/
  entry : Nat
  deriving DecidableEq, Repr

/-- A running load check: what it has read of host memory so far (R149, R152, R510). -/
structure LoadRead where
  /-- Model slot. -/
  model : Nat
  /-- Address of the transfer table (R149). -/
  table : Nat
  /-- Bytes of the table's header. -/
  header : List (BitVec 8)
  /-- Bytes of its records. -/
  records : List (BitVec 8)
  /-- Bytes of the slice map (R242). -/
  slices : List (BitVec 8)
  /-- Bytes of the shape table (R228). -/
  shapes : List (BitVec 8)
  /-- Bytes of the crossing table (R335). -/
  crossings : List (BitVec 8)
  /-- Structure and byte offset of a read that failed (R290, R510). -/
  failed : Option (Nat × Nat)
  /-- Nothing is left to read. -/
  ready : Bool
  deriving DecidableEq, Repr

/-- A check that has read nothing. -/
def LoadRead.start (m addr : Nat) : LoadRead :=
  { model := m, table := addr, header := [], records := [], slices := [], shapes := [], crossings := [], failed := none, ready := false }

/-- The schedule: slot word, hold requests and sources, load check in progress. -/
structure Sched where
  /-- The 64-bit slot word delivered for the coming boundary (R145); reset 0. -/
  slotWord : Dword
  /-- A hold decision has been delivered for the coming boundary. -/
  decided : Bool
  /-- The launches the slot word carries. -/
  plan : List LaunchPlan
  /-- DUE was requested at cy 16 of this slot (R143). -/
  reqDue : Bool
  /-- PACE was requested at cy 16 of this slot (R143). -/
  reqPace : Bool
  /-- STRETCH was requested at cy 16 of this slot (R143). -/
  reqStretch : Bool
  /-- Causes the hub's last decision saw: bits DUE, PACE, STRETCH, EXT, HOST, FW, GATE (R173). -/
  causes : BitVec 7
  /-- FW hold sources in force, by the code of the rule that raised each (R144). -/
  fw : List Nat
  /-- Fields gated in the slot in progress (R390). -/
  gated : List Nat
  /-- Boundaries reached since reset, advancing or held: physical slots (R140). -/
  phys : Nat
  /-- Length of the unbroken run of held boundaries (R173). -/
  heldRun : Nat
  /-- LONG_HOLD has been set in this run (R173). -/
  longHeld : Bool
  /-- Copies of the launch rings kept by the hold collectors, key model × 1,024 + index (R147). -/
  ringCopy : Table Nat
  /-- What the reads of cells that start at the next boundary will meet. The model's own field (log entry 24). -/
  startEnvs : CellEnvs
  /-- What the due engines' reads will meet at the next hold test. The model's own field (log entry 24). -/
  dueEnvs : CellEnvs
  /-- The running load check (R150). -/
  checking : Option LoadRead
  /-- Images by model slot (R134). -/
  images : Table Image
  deriving DecidableEq, Repr

/-- The schedule right after reset. -/
def Sched.reset : Sched :=
  { slotWord := 0, decided := false, plan := [], reqDue := false, reqPace := false, reqStretch := false, causes := 0, fw := [],
    gated := [], phys := 0, heldRun := 0, longHeld := false, ringCopy := [],
    startEnvs := [], dueEnvs := [], checking := none, images := [] }

/-- The BEAT input as R159 to R162 judge it. Instants are core cycles since reset. -/
structure Beat where
  /-- The reference edge (R159); none before the first filtered edge. -/
  reference : Option Nat
  /-- The last 16 accepted periods, newest first (R159). -/
  periods : List Nat
  /-- Periods accepted in a row towards a relock, newest first (R162). -/
  streak : List Nat
  /-- The last accepted edge (R160). -/
  lastEdge : Option Nat
  /-- Start of the beat in progress (R160). -/
  beatStart : Nat
  /-- The relock lengthens the beat in progress to the next accepted edge (R162). -/
  lengthened : Bool
  /-- Beats begun in HOLDOVER or NONE (R161). -/
  counted : Nat
  /-- Period of internal beats fixed at the entry into HOLDOVER (R160); 0 in NONE, where `BEAT_PERIOD` is taken. -/
  ownPeriod : Nat
  /-- Frame starts that the W3 has performed (R163). -/
  frames : Nat
  deriving DecidableEq, Repr

/-- The beat right after reset: beat 0 has begun, on internal beats (R159). -/
def Beat.reset : Beat :=
  { reference := none, periods := [], streak := [], lastEdge := none, beatStart := 0, lengthened := false, counted := 1,
    ownPeriod := 0, frames := 0 }

/-- The activity budgets beside their registers (R165 to R170). -/
structure Budget where
  /-- Limits in force, key activity × 4 + kind (0 flits, 1 stack, 2 mJ); an unlisted limit is all ones (R169, R175). -/
  limits : Table Nat
  /-- Charges below one unit of a used counter, key activity × 4 + kind (R175). -/
  part : Table Nat
  deriving DecidableEq, Repr

/-- Budgets right after reset: unlimited, nothing charged. -/
def Budget.reset : Budget := { limits := [], part := [] }

end Sys2Proof.Machine
end

