-- ==== Sys2Proof/Machine/Inputs.lean ====
section
/-!
DEFINITION. What commands carry from outside the block: readings, what a host read returned, what met what in a memory bank,
what a frame of a protocol holds. Everything the spec lets the block compute itself is computed, never carried.
-/
namespace Sys2Proof.Machine

/-- What a receiver takes off a link direction in one cycle (R34): a flit or a VC0 word as its lines carry it, damage included. -/
inductive LineFrame where
  /-- The data lines: tag and data, and the 16-bit CRC beside them. -/
  | data (flit : Flit) (crc : BitVec 16)
  /-- The VC0 word lines: the word, its 4-bit sequence number, and the 8-bit CRC over both. -/
  | vc0 (word : Word) (seq : BitVec 4) (crc : BitVec 8)
  deriving DecidableEq, Repr

/-- An access that loses its port again (R77): its port, its bank and the cycle. -/
structure LosingAccess where
  /-- Port code (R76). -/
  port : Nat
  /-- Bank. -/
  bank : Nat
  /-- Core cycle. -/
  cy : Nat
  deriving DecidableEq, Repr

/-- A READBACK command as taken: its ring entry and what the reads of cells met (R247, R67). -/
structure ReadbackTake where
  /-- The ring entry. -/
  entry : BitVec 1024
  /-- What the reads of cells met. -/
  envs : CellEnvs
  deriving DecidableEq, Repr

/-- What a slot's decision finds (R145), and what the reads that no command names meet until the next one. -/
structure SlotInputs where
  /-- Field units that see the slot word differ. -/
  mismatch : List Nat
  /-- What the reads of cells that start at the coming boundary meet (R137). -/
  starts : CellEnvs
  /-- What the due engines' reads meet in the coming slot (R143). -/
  dues : CellEnvs
  deriving DecidableEq, Repr

/-- One record of the transfer table (R149), 128 bits. -/
abbrev TransferRec := BitVec 128

/-- A weight operand record's position, as a load check reads it: cell, first granule, tiles in it, recipe entry. -/
structure WeightAt where
  /-- Cell. -/
  cell : Nat
  /-- Starting granule. -/
  granule : Nat
  /-- Tiles. -/
  tiles : Nat
  deriving DecidableEq, Repr

/-- What the load check reads of an image from host memory (R149, R150, R510). -/
structure LoadInput where
  /-- The 64-byte transfer table header; none when its read failed. -/
  header : Option (BitVec 512)
  /-- Transfer records in order; none stands for a failed read. -/
  records : List (Option TransferRec)
  /-- Slice map entries, 32 bytes each; none stands for a failed read. -/
  slices : List (Option (BitVec 256))
  /-- Shape table, 224 bytes; none when its read failed. -/
  shapes : Option (BitVec 1792)
  /-- Caldera variants; none stands for a failed read. -/
  variants : List (Option CalVariant)
  /-- Crossing table records of a split model; none stands for a failed read. -/
  crossings : List (Option (BitVec 128))
  /-- Weight records of the image. -/
  weights : List WeightAt
  /-- Vocabulary the image declares (R214). -/
  vocab : Nat
  /-- Byte offset of the read that failed, within its structure (R510). -/
  readAt : Nat
  deriving DecidableEq, Repr

/-- What the load check finds beside the structures whose layout the spec gives (R156, R214, R510), and what its reads of cell memory
meet. (DESIGN CHOICE, unsafe: log entry 63.) -/
structure LoadRest where
  /-- Caldera variant descriptors, in order. -/
  variants : List CalVariant
  /-- Weight records of the image. -/
  weights : List WeightAt
  /-- Vocabulary the image declares (R214). -/
  vocab : Nat
  /-- What the reads of part 5 meet. -/
  envs : CellEnvs
  deriving DecidableEq, Repr

/-- A word that a configuration packet writes (R60). -/
structure CfgWord where
  /-- Address in the cell's configuration space. -/
  addr : Nat
  /-- The written word. -/
  data : Word
  deriving DecidableEq, Repr

/-- A request for a page and what the reads of the stack meet that answer it (R323). -/
structure PageAsk where
  /-- The message. -/
  msg : SpanMsg
  /-- What the reads meet. -/
  env : StackEnv
  deriving DecidableEq, Repr

/-- A release flit and what the reads of the release table meet that it brings about (R454). -/
structure ReleaseAsk where
  /-- Sequence slot. -/
  seq : Nat
  /-- What the reads meet. -/
  env : MemEnv
  deriving DecidableEq, Repr

/-- What the crossings of a step tell the back of it (R336). -/
structure BackLaunch where
  /-- Launch entry: 1 Generate, 2 Prefill. -/
  entry : Nat
  /-- Launch number at the front. -/
  launch : Nat
  /-- Requests of the front with their sequences. -/
  seqs : List (Request × StepSeq)
  deriving DecidableEq, Repr

/-- A segment of LOAD_WEIGHTS and its data as read (R243). -/
structure Segment where
  /-- Slice id. -/
  slice : Nat
  /-- Offset in granules. -/
  off : Nat
  /-- Data; its length is the segment's length in granules. -/
  data : List Granule
  deriving DecidableEq, Repr

/-- Scores of one row of a step: logits as FP32, and each geyser head's (R229, R230). -/
structure RowScores where
  /-- Logits of the row, FP32. -/
  logits : List Word
  deriving DecidableEq, Repr

/-- What the sampling stage receives for one sequence of a step: a row of logits each, and the heads' scores (R229, R230). -/
structure SeqScores where
  /-- Rows in row order (the last row only, for a chunk). -/
  rows : List RowScores
  /-- Head d's scores at place d − 1, FP32. -/
  heads : List (List Word)
  deriving DecidableEq, Repr

/-- Encryption of a received message (R285, R303). -/
structure MsgSec where
  /-- ENC. -/
  enc : Bool
  /-- KEY_SLOT. -/
  slot : Bool
  /-- The GCM tag slot that follows its data. -/
  tag : Slot16
  deriving DecidableEq, Repr

/-- A plaintext message. -/
def MsgSec.plain : MsgSec := { enc := false, slot := false, tag := 0 }

/-- Readings of one field at a voltage sample (R383, R385). -/
structure FieldVolt where
  /-- Readings of the 64 W0 sensors of VCL, in mV. -/
  vcl : List Nat
  /-- VCL current of each phase, A. -/
  phases : List Nat
  /-- Readings of the 32 memory-wafer sensors of VCM, in mV. -/
  vcm : List Nat
  deriving DecidableEq, Repr

/-- A voltage sample (R375, R385, R392). (DESIGN CHOICE, unsafe: log entry 63.) -/
structure VoltSample where
  /-- Instant in cycles. -/
  t : Nat
  /-- Feed A: voltage in 10 mV, current in A. -/
  feedA : Nat × Nat
  /-- Feed B. -/
  feedB : Nat × Nat
  /-- VCM rail current in A. -/
  vcmA : Nat
  /-- The sensors of each regulator group of VPHY, VHS, VBRY and VIO, in mV; none for one at full scale. -/
  rails : List (List (Option Nat))
  /-- Fields 0 to 71. -/
  fields : List FieldVolt
  deriving DecidableEq, Repr

/-- A thermal sample (R393, R399). -/
structure ThermSample where
  /-- Instant in cycles. -/
  t : Nat
  /-- Supply coupling in 0.5 °C, signed. -/
  inlet : Int
  /-- Return coupling in 0.5 °C. -/
  outlet : Nat
  /-- For each field, its 16 pairs' readings in 0.5 °C. -/
  pairs : List (List (Nat × Nat))
  /-- Stack temperatures in °C. -/
  hbm : List Nat
  deriving DecidableEq, Repr

end Sys2Proof.Machine
end

