-- ==== Sys2Proof/Syntax.lean ====
section
/-!
DEFINITION. The commands of the W3: one constructor per row of the opcode table, with the operands that name the part of the
block they act on and what they carry from outside.
-/
namespace Sys2Proof
open Sys2Proof.Machine

/-- A command of the W3. -/
inductive Instr where
  /-- NOP (R30): The sequencer issues a NOP instruction word, which does nothing. -/
  | nop (cell : Nat) (env : MemEnv)
  /-- TENSOR (R31): The sequencer issues a TENSOR instruction that multiplies weight tiles by activation vectors into an array's accumulator file. -/
  | tensor (cell : Nat) (env : MemEnv)
  /-- ADD (R33): The vector unit adds A and B element-wise into D. -/
  | add (cell : Nat) (env : MemEnv)
  /-- MUL (R33): The vector unit multiplies A and B element-wise into D. -/
  | mul (cell : Nat) (env : MemEnv)
  /-- FMA (R33): The vector unit computes A times B plus D element-wise. -/
  | fma (cell : Nat) (env : MemEnv)
  /-- MAX (R33): The vector unit takes the element-wise maximum of A and B. -/
  | max (cell : Nat) (env : MemEnv)
  /-- EXP (R33): The vector unit writes an approximate e^A. -/
  | exp (cell : Nat) (env : MemEnv)
  /-- RCP (R33): The vector unit writes an approximate 1/A. -/
  | rcp (cell : Nat) (env : MemEnv)
  /-- RSQRT (R33): The vector unit writes an approximate 1/sqrt(A). -/
  | rsqrt (cell : Nat) (env : MemEnv)
  /-- SUMRED (R33): The vector unit writes the FP32 sum of A over LEN granules as one scalar. -/
  | sumred (cell : Nat) (env : MemEnv)
  /-- MAXRED (R33): The vector unit writes the maximum of A over LEN granules as one scalar. -/
  | maxred (cell : Nat) (env : MemEnv)
  /-- CVT (R33): The vector unit converts A to the format named in B's first word. -/
  | cvt (cell : Nat) (env : MemEnv)
  /-- SCALE (R33): The vector unit multiplies A by the scalar at B. -/
  | scale (cell : Nat) (env : MemEnv)
  /-- QNT (R109): The vector unit quantises A to curd with block scales, a whey lane and optional sinter feedback. -/
  | qnt (cell : Nat) (env : MemEnv)
  /-- S24ENC (R98): The vector unit encodes FP32 granules into a SUM24 block. -/
  | s24enc (cell : Nat) (env : MemEnv)
  /-- S24DEC (R98): The vector unit decodes a SUM24 block back to FP32. -/
  | s24dec (cell : Nat) (env : MemEnv)
  /-- RNG (R33): The vector unit writes uniform values from the cell's seeded generator. -/
  | rng (cell : Nat) (env : MemEnv)
  /-- MOVE (R30): The sequencer issues a MOVE that sends flits on a virtual channel to a cell, tree or endpoint. -/
  | move (cell : Nat) (env : MemEnv)
  /-- WAIT (R81): The sequencer issues a WAIT, which stalls issue until its arrival counter reaches THRESH. -/
  | wait (cell : Nat) (env : MemEnv)
  /-- WAIT_COMPLETE (R81): A stalled WAIT finds its counter at or above THRESH, completes, and subtracts THRESH from the counter. -/
  | waitComplete (cell : Nat)
  /-- SYNC (R141): The sequencer issues a SYNC, which stalls until its schedule slot has advanced. -/
  | sync (cell : Nat) (env : MemEnv)
  /-- JUMP (R71): The sequencer jumps to a target word address and empties its fetch buffer. -/
  | jump (cell : Nat) (env : MemEnv)
  /-- ILLEGAL_INSTRUCTION (R30): The sequencer reaches an illegal word, stops issuing and sets FAB_ERR_STS.ILLEGAL. -/
  | illegalInstruction (cell : Nat) (env : MemEnv)
  /-- ACCESS_AGED (R77): A port access that has lost four cycles in a row becomes aged. -/
  | accessAged (cell : Nat) (access : LosingAccess)
  /-- FLIT_LANDING (R66): A remote write lands in a bank and increments its arrival counter. -/
  | flitLanding (cell : Nat) (flit : Flit) (env : MemEnv)
  /-- MULTICAST_COPY (R54): A router copies a multicast flit to the ports its tree entry names. -/
  | multicastCopy (router : Nat) (flit : Flit) (env : MemEnv)
  /-- REDUCTION_COMBINE (R56): A router holding same-IDX flits from every input of a tree adds them in SUM24 and sends the sum on. -/
  | reductionCombine (router tree : Nat) (env : MemEnv)
  /-- LINK_CRC_ERROR (R53): A mesh receiver finds a CRC error, discards the flit and sends a NAK. -/
  | linkCrcError (router port seq : Nat) (frame : LineFrame)
  /-- NAK (R53): A sender receives a NAK word and resends from the named flit onward. -/
  | nak (router port : Nat) (vc0 : Bool) (seq : Nat)
  /-- LINK_FAIL (R53): The same flit or VC0 word fails four times, so the mesh link is failed. -/
  | linkFail (router port : Nat)
  /-- REPLAY_BUFFER_RELEASE (R53): A flit with no NAK within 8 or 16 cy leaves the replay buffer. -/
  | replayBufferRelease (router port : Nat) (vc0 : Bool)
  /-- VC0_DISCARD (R59): A VC0 word of a reserved type is discarded and counted. -/
  | vc0Discard (router : Nat) (word : Word)
  /-- CFG_READ (R60): A target cell receives a configuration read packet and answers CFG_RSP with the data. -/
  | cfgRead (cell addr : Nat)
  /-- CFG_WRITE (R60): A target cell receives a configuration write packet, applies it, and answers CFG_RSP. -/
  | cfgWrite (cell : Nat) (word : CfgWord) (env : MemEnv)
  /-- CFG_RSP (R479): A configuration response reaches the agent and ends the CELL_WIN access. -/
  | cfgRsp (err : Bool) (data : Word)
  /-- FAB_CALDERA_WRITE (R62): The host writes the caldera row count of a field; invalid or bound-field writes are ignored and set CFG. -/
  | fabCalderaWrite (field : Nat) (value : Word)
  /-- ECC_WRITEBACK (R85): The bank writes back a corrected word in a cycle that no port wants. -/
  | eccWriteback (cell granule word : Nat)
  /-- SCRUB_READ (R88): The cell scrubber makes its paced read of the next granule. -/
  | scrubRead (cell t : Nat) (env : MemEnv)
  /-- SCRUB_AGED (R88): A scrub read that has waited 4,096 cy becomes aged. -/
  | scrubAged (cell : Nat)
  /-- SCRUB_LATE (R88): A cell's scrub pass exceeds 63e9 cy and sets SCRUB_LATE. -/
  | scrubLate (cell t : Nat)
  /-- PRECISION_EVENT_COLLECT (R122): Precision events reach their layer's flags and counters in model and layer order. -/
  | precisionEventCollect
  /-- WIDEN_END (R129): A widen's 64-step count reaches zero, and the layer returns to narrow. -/
  | widenEnd (model layer : Nat)
  /-- MODEL_RECIPE_WRITE (R125): The host writes NEXT with PENDING to request a recipe switch. -/
  | modelRecipeWrite (model : Nat) (value : Word)
  /-- RECIPE_WIN_DATA_WRITE (R127): The host writes a recipe entry; a write to an active or pending recipe is refused. -/
  | recipeWinDataWrite (value : Word)
  /-- HOLD_TEST (R143): At cy 16 each running cell tests DUE, PACE and STRETCH and raises HOLD_REQ. -/
  | holdTest
  /-- HOLD_DECISION (R145): At cy 64 the hub ORs cell and module sources, and the slot word is delivered to every cell by cy 112. -/
  | holdDecision (inputs : SlotInputs)
  /-- SLOT_BOUNDARY (R140): Every 128 cy a boundary either advances SLOT_NO or is held. -/
  | slotBoundary
  /-- LONG_HOLD (R173): An unbroken run of held boundaries reaches 65,536 and sets LONG_HOLD. -/
  | longHold
  /-- STALL (R349): A DUE test fails 32,768 consecutive times, and the cell raises STALL. -/
  | stall (cell : Nat)
  /-- LOAD_GO (R150): The loader writes LOAD_CTRL.GO to start the load check of a model slot. -/
  | loadGo (value : Word)
  /-- LOAD_CHECK_DONE (R151): The load check ends in pass or failure and reports the reason, cell and detail. -/
  | loadCheckDone (rest : LoadRest)
  /-- HOST_HOLD (R173): The host sets or clears SCHED_CTRL.HOST_HOLD, which holds every boundary. -/
  | hostHold (on : Bool)
  /-- EXT_EN (R490): The host writes SCHED_CTRL.EXT_EN, which enables nHOLD_EXT and restarts its stuck count. -/
  | extEn (on : Bool)
  /-- BEAT_EDGE (R159): A filtered BEAT rising edge is judged by its period and begins a beat when accepted. -/
  | beatEdge (t highNs : Nat)
  /-- INTERNAL_BEAT (R160): In HOLDOVER, NONE or LOST an internal beat begins at BEAT_PERIOD. -/
  | internalBeat (t : Nat)
  /-- HOLDOVER (R160): No accepted edge arrives within the deadline, so the W3 enters HOLDOVER. -/
  | holdover (t : Nat)
  /-- BEAT_LOSS (R161): The 4,096th counted internal beat passes, so the W3 declares LOST and asserts ALERT. -/
  | beatLoss (t : Nat)
  /-- FRAME_START (R163): At a frame start the W3 runs invariant checks, budget roll, recipe switches, refusal reset and admission. -/
  | frameStart (t : Nat)
  /-- KV_READ (R197): A stack controller walks the page list and returns the KV and side granules of a request. -/
  | kvRead (ctl : Nat) (req : Granule) (env : StackEnv)
  /-- KV_WRITE (R198): A stack controller writes the KV data of a request and acknowledges it. -/
  | kvWrite (ctl : Nat) (req : Granule) (data : List Granule) (env : StackEnv)
  /-- LIN_READ (R196): A stack controller returns granules from a linear stack address. -/
  | linRead (ctl : Nat) (req : Granule) (env : StackEnv)
  /-- LIN_WRITE (R196): A stack controller writes granules at a linear stack address and acknowledges them. -/
  | linWrite (ctl : Nat) (req : Granule) (data : List Granule) (env : StackEnv)
  /-- PATROL_READ (R207): A stack controller makes a paced patrol read. -/
  | patrolRead (stack t : Nat) (env : StackEnv)
  /-- STACK_SCRUB_LATE (R207): A stack patrol pass exceeds 30 s and sets SCRUB_LATE. -/
  | stackScrubLate (stack t : Nat)
  /-- POOL_ENABLE (R204): The loader sets POOL_CTRL.ENABLE; the pool is checked and its free list filled, or CFG is set. -/
  | poolEnable (model : Nat)
  /-- POOL_DISABLE (R204): The loader clears ENABLE, which is refused while pages are held. -/
  | poolDisable (model : Nat)
  /-- POS_LIMIT_WRITE (R204): The loader writes POS_LIMIT; an out-of-range value is ignored and sets CFG. -/
  | posLimitWrite (model : Nat) (value : Word)
  /-- RING_ENABLE (R212): The host enables a ring, and the W3 reads its header to take PROD and CONS. -/
  | ringEnable (ring : Nat) (header : Option (Nat × Nat))
  /-- SUBMIT (R213): The W3 takes a SUBMIT command into the admission queue. -/
  | submit (ring : Nat) (entry : BitVec 1024)
  /-- CANCEL (R233): The W3 takes a CANCEL command and ends the matching request. -/
  | cancel (ring : Nat) (entry : BitVec 1024)
  /-- PREFIX_CREATE (R225): The W3 takes a PREFIX_CREATE command and enters its handle as pending. -/
  | prefixCreate (ring : Nat) (entry : BitVec 1024)
  /-- PREFIX_RELEASE (R227): The W3 takes a PREFIX_RELEASE command and removes the handle. -/
  | prefixRelease (ring : Nat) (entry : BitVec 1024)
  /-- OPEN_MODEL (R237): The W3 takes an OPEN_MODEL command and reserves fields and stack area for a slot. -/
  | openModel (ring : Nat) (entry : BitVec 1024)
  /-- CLOSE_MODEL (R239): The W3 takes a CLOSE_MODEL command and begins closing the slot. -/
  | closeModel (ring : Nat) (entry : BitVec 1024)
  /-- CLOSE_COMPLETE (R239): In-flight steps have committed, and the slot is cleared, freed and CMD_DONE is written. -/
  | closeComplete (model : Nat)
  /-- LOAD_WEIGHTS (R243): The W3 takes a LOAD_WEIGHTS command, given as the two 64-byte lines of its ring entry, and places its segments through the slice map. -/
  | loadWeights (ring : Nat) (lower upper : BitVec 512)
  /-- LOAD_RECEIVE (R246): The W3 takes a LOAD_RECEIVE command and opens the slot to pass-on data. -/
  | loadReceive (ring : Nat) (entry : BitVec 1024)
  /-- LOAD_RECEIVE_TIMEOUT (R246): WAIT frames pass without enough segments, so LOAD_RECEIVE ends with LOAD. -/
  | loadReceiveTimeout (model : Nat)
  /-- READBACK (R247): The W3 takes a READBACK command and writes slices back to host memory. -/
  | readback (ring : Nat) (take : ReadbackTake)
  /-- STEP_RESULT (R354): The sampling result reaches the ledger, and the accepted rows' KV_WRITEs are issued. -/
  | stepResult (entry : Nat) (scores : List SeqScores)
  /-- STEP_COMMIT (R354): At the commit point LEN rises, pages become the sequence's, the entry is COMMITTED and tokens are counted. -/
  | stepCommit (entry : Nat)
  /-- OUTPUT_ROOM_WRITE (R215): A waiting DECISION, DONE, CMD_DONE or ERROR entry is written once ring room exists. -/
  | outputRoomWrite (ring cons : Nat)
  /-- HOT_WINDOW_FILL (R226): A KV-Move filling a sequence's hot window and sinter stores completes. -/
  | hotWindowFill (request : Nat)
  /-- PINNED_WRITE (R252): The host writes MODEL_SVC.PINNED in any state but FREE. -/
  | pinnedWrite (model : Nat) (on : Bool)
  /-- RUN (R268): The host writes TUNE_CTRL.RUN to start or resume the tune job. -/
  | run
  /-- PAUSE (R268): The host writes TUNE_CTRL.PAUSE, and the job enters PAUSING. -/
  | pause
  /-- ABORT (R268): The host writes TUNE_CTRL.ABORT, and the job enters ENDING. -/
  | abort
  /-- DISCARD (R269): The host writes TUNE_CTRL.DISCARD, and the open group is discarded. -/
  | discard
  /-- TUNE_BLOCK_COMPLETE (R259): A tune block completes; OPT_STEP and ring results advance, and PAUSING becomes PAUSED. -/
  | tuneBlockComplete (losses : List Word)
  /-- PRESENCE_DETECT (R277): Receiver presence is found on enough lanes, and the link enters EQUALISE. -/
  | presenceDetect (link lanes : Nat)
  /-- EQUALISATION_END (R277): Equalisation ends, failed lanes are marked and the link enters ALIGN. -/
  | equalisationEnd (link failedLanes : Nat)
  /-- ALIGNMENT (R276): Alignment holds, the width is chosen and the link enters PARAMS. -/
  | alignment (link : Nat) (reversed : Bool)
  /-- PARAMS (R277): The link exchanges version, buffer and credits, then becomes ACTIVE or is refused. -/
  | params (link : Nat) (peer : Params) (t : Nat)
  /-- RETRAIN_COMPLETE (R277): A retrain redoes alignment, and the link returns to ACTIVE. -/
  | retrainComplete (link : Nat) (ok : Bool) (t : Nat)
  /-- LINK_DOWN (R284): Failed or excessive retrains take the link DOWN, and ALERT is asserted. -/
  | linkDown (link t : Nat)
  /-- LINK_RETRY (R277): Every 100 ms a DOWN link retries full training. -/
  | linkRetry (link t : Nat)
  /-- OCL_DOWN_TIMEOUT (R284): OCL has been DOWN or its session closed for 1,024 frames, so a fatal event is raised. -/
  | oclDownTimeout
  /-- PAYLOAD_FLIT (R281): A receiver delivers, discards or NAKs a PAYLOAD flit and processes its ACK. -/
  | payloadFlit (link : Nat) (raw : BitVec 2048) (t : Nat)
  /-- IDLE_FLIT (R278): An IDLE flit is received, which carries only an ACK. -/
  | idleFlit (link : Nat) (raw : BitVec 2048) (t : Nat)
  /-- NAK_FLIT (R281): A sender receives a NAK flit and replays from the flit after ACK. -/
  | nakFlit (link : Nat) (raw : BitVec 2048) (t : Nat)
  /-- RETRAIN_FLIT (R283): A RETRAIN flit arrives, and the link enters RETRAIN. -/
  | retrainFlit (link : Nat) (raw : BitVec 2048) (t : Nat)
  /-- NAK_RESEND (R281): The expected SEQ has not arrived 2 us after a NAK, so the NAK is sent again. -/
  | nakResend (link : Nat)
  /-- ACK_TIMEOUT (R282): No ACK advances for 10 us, so the sender replays from its oldest flit. -/
  | ackTimeout (link t : Nat)
  /-- MMIO_RD (R297): The companion reads a window register and is answered with CPL_DATA. -/
  | mmioRd (off size tag : Nat)
  /-- MMIO_WR (R297): The companion writes a window register. -/
  | mmioWr (off size : Nat) (data : Slot16) (sec : MsgSec)
  /-- SNP_INV (R292): The home invalidates a watched line; the W3 drops its snapshot, answers SNP_ACK and re-reads the line. -/
  | snpInv (addr : Nat)
  /-- CPL_DATA (R290): A read completion arrives and supplies data, or an error is retried. -/
  | cplData (tag status : Nat) (poison : Bool) (data : List Slot16) (sec : MsgSec)
  /-- CREDIT (R287): An OCL CREDIT message returns or initialises credits. -/
  | credit (req post : Nat) (init : Bool)
  /-- INTR_MODERATION (R301): A moderated interrupt is sent when its MOD-beat window expires. -/
  | intrModeration (vector : Nat)
  /-- CPL_TIMEOUT (R290): A read without completion for 100 us completes with ABORT and is retried or failed. -/
  | cplTimeout (tag : Nat)
  /-- DOORBELL (R295): The host writes DOORBELL, and the W3 re-reads the named ring's PROD. -/
  | doorbell (value : Word)
  /-- OCL_ENC_MODE (R302): The host raises OCL_ENC.MODE; a lowering write, or raising without keys, is refused. -/
  | oclEncMode (mode : Nat)
  /-- OCL_CTRL_RETRAIN (R283): The host writes OCL_CTRL.RETRAIN to retrain the link. -/
  | oclCtrlRetrain (t : Nat)
  /-- FAIL (R325): A FAIL arrives from the partner, and the senior goes SOLO or the junior goes TAKEOVER. -/
  | fail (port arg : Nat)
  /-- FRAME (R321): A partner FRAME checkpoint arrives; pool counts and beat offset are compared. -/
  | frame (port : Nat) (data : FrameData)
  /-- ACK (R319): The partner acknowledges MIRROR or SPLIT PSNs, releasing held TOKENS entries and Prefill launches. -/
  | ack (arg : Nat)
  /-- CMD (R318): The mirror receives a command the primary took and queues it. -/
  | cmd (msg : SpanMsg)
  /-- TOKENS_IN (R318): The mirror receives a request's input token ids and stores them. -/
  | tokensIn (msg : SpanMsg)
  /-- KV (R318): The mirror receives KV_WRITE data of a step, or a copied page. -/
  | kv (msg : SpanMsg)
  /-- SEQSTATE (R318): The mirror receives a sequence's state record and sinter stores. -/
  | seqstate (msg : SpanMsg)
  /-- COMMIT (R318): The mirror applies a commit group and acknowledges it. -/
  | commit (data : CommitData)
  /-- PREFIX (R318): The mirror receives a prefix table change. -/
  | pfx (data : PfxChange)
  /-- PAGE_REQ (R323): A partner asks for a damaged KV page and is answered with PAGE_DATA. -/
  | pageReq (ask : PageAsk)
  /-- PAGE_DATA (R323): A part of a requested page arrives, and the requester rewrites the page. -/
  | pageData (msg : SpanMsg)
  /-- PASS (R333): A pass-on segment part arrives and is placed, or dropped, and answered with PASS_RSP. -/
  | pass (msg : SpanMsg)
  /-- PASS_RSP (R333): The sender receives a part's match or drop, and ends LOAD_WEIGHTS after the last. -/
  | passRsp (msg : SpanMsg)
  /-- XING (R336): Split crossing data arrive and are written to the receiving cell. -/
  | xing (msg : SpanMsg)
  /-- RESULT (R337): The front receives a split step's result, commits its KV and writes TOKENS. -/
  | result (data : SplitResult)
  /-- SCOMMIT (R337): The back receives SCOMMIT and commits its staged KV. -/
  | scommit (model launch psn : Nat)
  /-- SPAN_CREDIT (R313): A span CREDIT message returns or initialises slot credits. -/
  | spanCredit (port slots : Nat) (init : Bool)
  /-- SPLIT_LAUNCH (R336): All of a step's front-to-back crossings have landed, and the back launches it. -/
  | splitLaunch (model : Nat) (step : BackLaunch)
  /-- PAIR_MODE_WRITE (R316): The host writes PAIR_CFG.MODE, which is accepted only with no slot LOADING or RUNNABLE. -/
  | pairModeWrite (value : Word)
  /-- ISOLATE (R328): No span port has been ACTIVE for 1 ms, so the module enters ISOLATED. -/
  | isolate (t : Nat)
  /-- TAKEOVER (R331): The host arbitrates TAKEOVER for an isolated junior. -/
  | takeover
  /-- RELEASE (R331): The host arbitrates RELEASE; the junior zeroises its mirror and goes SOLO. -/
  | release
  /-- RESYNC (R331): The host arbitrates RESYNC; the mirror discards its state and resyncs. -/
  | resync
  /-- TAKEOVER_COMPLETE (R326): The takeover's epoch record is durable; the junior sets SENIOR, enters SOLO and serves. -/
  | takeoverComplete
  /-- SYNCING_COMPLETE (R324): The mirror holds the primary's full committed state and enters MIRROR. -/
  | syncingComplete
  /-- FAULT_REPORT (R351): The fault controller receives a data-class fault report and taints steps and orders restarts. -/
  | faultReport (cause cell : Nat)
  /-- CELL_RESET (R363): The host requests a CELL reset through RST_CTRL. -/
  | cellReset (cell : Nat)
  /-- CLUSTER_RESET (R363): The host requests a CLUSTER reset through RST_CTRL. -/
  | clusterReset (cell : Nat)
  /-- PARTITION_RESET (R363): The host requests a PARTITION reset through RST_CTRL. -/
  | partitionReset (cell : Nat)
  /-- WHOLE_RESET (R367): The host requests a WHOLE reset, which acts as nRESET held for 10 us. -/
  | wholeReset
  /-- RESET (R364): A cell receives a RESET word and acts on its phase. -/
  | reset
  /-- DRAIN_DONE (R364): DRAIN ends in every cell of the domain, and ABSORB begins. -/
  | drainDone
  /-- ABSORB_DONE (R364): Outstanding traffic has completed and no landings come for 128 cy, so RELEASE begins; `quiet` is the cycles since the last landing. -/
  | absorbDone (quiet : Nat)
  /-- RELEASE_DONE (R364): The RING_FILL words have landed, and the reset ends. -/
  | releaseDone
  /-- DRAIN_TIMEOUT (R364): A reset has not reached RELEASE within one frame, so a fatal event is raised. -/
  | drainTimeout
  /-- RING_FILL (R147): A cell receives a RING_FILL word and restores one launch ring entry. -/
  | ringFill (cell : Nat) (word : Word)
  /-- SLOT_FILL (R147): A cell receives a SLOT_FILL word and restores part of SLOT_NO. -/
  | slotFill (cell : Nat) (word : Word)
  /-- AUDIT (R370): A router receives an AUDIT word and checks its credit sum against the buffer depth. -/
  | audit (router port : Nat) (word : Word)
  /-- FORCE_FATAL (R371): The host writes FLT_CTRL.FORCE_FATAL, which raises fatal cause FORCED. -/
  | forceFatal
  /-- VOLTAGE_SAMPLE (R385): Every 2,048 cy feeds and rails are sampled, and VCM drops are judged. -/
  | voltageSample (sample : VoltSample)
  /-- VCM_RECOVERED (R386): A suspect field's VCM holds recovered for 64 samples, so its images restart and its cells are rewritten. -/
  | vcmRecovered
  /-- VCM_NORECOVER (R387): A VCM event does not recover within 1,024 samples, so a fatal event is raised. -/
  | vcmNorecover
  /-- FEED_OK (R375): A feed has been in range for 10 ms and becomes OK. -/
  | feedOk (feed : Nat)
  /-- FEED_LOST (R376): A feed has been out of range for 100 us and is lost, and FEED_LOST is warned. -/
  | feedLost (feed : Nat)
  /-- BOTH_FEEDS_LOST (R378): Both feeds have been lost for 100 us, so fatal POWER is raised. -/
  | bothFeedsLost
  /-- FEED_SHARE (R377): A feed's share has been outside 40 to 60% for 1 s, so FEED_SHARE is warned. -/
  | feedShare
  /-- PHASE_FAULT (R382): A VCL phase's stage faults or its current imbalance persists, so the phase is failed. -/
  | phaseFault (field phase : Nat)
  /-- POWER_LEVEL_ADJUST (R383): Every 64 samples a field's G_pwr is adjusted against its current limit. -/
  | powerLevelAdjust (field : Nat)
  /-- CAP_ADJUST (R392): Every 64 samples G_cap is adjusted against PWR_CAP. -/
  | capAdjust
  /-- PWR_CAP_WRITE (R392): The host writes PWR_CAP; an out-of-range value is refused. -/
  | pwrCapWrite (value : Word)
  /-- THERMAL_SAMPLE (R396): Every 65,536 cy sensors are read and each field's G_therm is adjusted. -/
  | thermalSample (sample : ThermSample)
  /-- PAIR_SUSPECT (R394): A sensor pair disagrees for 8 samples and is marked SUSPECT. -/
  | pairSuspect (field pair : Nat)
  /-- NO_PAIRS (R395): No pair of a field gives a value for 8 samples, so G_therm is held at 8. -/
  | noPairs (field : Nat)
  /-- THERMAL_TRIP (R398): The analogue 125 C trip asserts PWR_OFF_REQ and latches. -/
  | thermalTrip
  /-- PWR_OFF_REQ (R397): PWR_OFF_REQ is asserted once the fatal record is durable or 5 ms pass. -/
  | pwrOffReq
  /-- INLET (R408): The supply coupling reads out of range for 1 s, so INLET is warned. -/
  | inlet
  /-- FLOW_PULSE (R488): A filtered FLOW_PULSE edge is accepted or rejected as noise. -/
  | flowPulse (t highNs : Nat)
  /-- FLOW_UPDATE (R402): Every 16 ms the flow is computed and the coolant state and ARMED are updated. -/
  | flowUpdate
  /-- FLOW_PULSE_TIMEOUT (R403): No pulse for 50 ms while ARMED, so the coolant enters STOPPING. -/
  | flowPulseTimeout (t : Nat)
  /-- COOL_OK (R403): A filtered COOL_OK change is taken; a deassertion enters STOPPING. -/
  | coolOk (level : Bool) (heldUs t : Nat)
  /-- COOLANT_STOPPED (R404): In-flight steps have committed or 2 ms pass, so every field is gated and STOPPED is entered. -/
  | coolantStopped
  /-- COOLANT_RESUME (R405): Conditions hold for 1 s, so images restart and the module returns to NORMAL. -/
  | coolantResume
  /-- COOL_CFG_WRITE (R401): FLOW_K is written; an invalid value is refused and 0 disables the flow rules. -/
  | coolCfgWrite (value : Word)
  /-- THR_RELOC (R400): The host asks to move a cluster into its caldera, which is performed or refused. -/
  | thrReloc (value : Word)
  /-- START (R422): A start begins on feed OK or reset end and runs the start sequence to READY or failure. -/
  | start (input : StartInput)
  /-- COOL_OK_TIMEOUT (R491): COOL_OK is not asserted within 10 s of step 3, so the attempt fails with COOLANT. -/
  | coolOkTimeout
  /-- START_TIMEOUT (R430): READY has not come within 60 s, so the attempt fails with TIMEOUT. -/
  | startTimeout
  /-- STAGE_IMAGE (R415): The host stages a bundle into the inactive image slot. -/
  | stageImage (bundle : ImageSlot)
  /-- STAGE_START_RECORD (R415): The host stages a start record into the other copy by its write of STAGE_CTRL. -/
  | stageStartRecord (value : Word)
  /-- STAGE_JOURNAL_DUMP (R415): The host has the journal's valid records written to host memory. -/
  | stageJournalDump
  /-- STAGE_DONE (R415): A staging operation ends, and STAGE_STATE reports pass or error. -/
  | stageDone (error : Nat)
  /-- JOURNAL_WRITE (R419): A journal page program completes and is read back, so the record becomes durable or is rewritten. -/
  | journalWrite (ok : Bool)
  /-- PRESS_COMPLETE (R420): The new area becomes ACTIVE and the old one is RETIRED. -/
  | pressComplete
  /-- JOURNAL_ERASE_DONE (R420): The background erase of the retired area ends. -/
  | journalEraseDone
  /-- SHUTDOWN (R433): The host writes SHUT_CTRL.GO, which leaves the pair, closes models, zeroises and self-tests. -/
  | shutdown (value : Word)
  /-- BIST_WAVE (R434): A wave of field self-tests completes, and the next wave begins or the test ends. -/
  | bistWave (wave : Nat) (results : List (Nat × Nat))
  /-- CLR (R432): The host writes BOOT_CTRL.CLR, which writes a CLEAR record and zeroes the failed-start count. -/
  | clr
  /-- RESTART (R432): The host writes BOOT_CTRL.RESTART, which begins a start from MINIMAL or HALTED. -/
  | restart
  /-- ATTEST (R448): The mailbox signs an attestation report and writes it to host memory. -/
  | attest
  /-- IDENTITY_BUILT (R446): The current identity tree's rebuild completes, and BUILT is set. -/
  | identityBuilt
  /-- KEM_START (R450): The mailbox generates an ML-KEM key pair and returns the signed encapsulation key. -/
  | kemStart
  /-- KEM_FINISH (R450): The mailbox decapsulates, derives and installs OCL keys and returns the confirmation tag. -/
  | kemFinish
  /-- KEM_SWITCH (R450): The mailbox makes the W3 send under the new key slot. -/
  | kemSwitch
  /-- KEM_KEY_EXPIRY (R450): A decapsulation key is destroyed 1 s after KEM_START. -/
  | kemKeyExpiry
  /-- ZEROISE (R455): A mailbox or BMC ZEROISE zeroises the module according to its mode. -/
  | zeroise (mgmt : Bool)
  /-- ZEROISE_DONE (R456): Whole-module zeroisation ends, ZERO_DONE is set and the hold is released. -/
  | zeroiseDone
  /-- IDENTITY (R457): The mailbox returns SERIAL and the identity public key. -/
  | identity
  /-- SVN_COMMIT (R443): The mailbox raises FUSE_SVN to the running bundle's SVN, or refuses. -/
  | svnCommit
  /-- RELEASE_FLIT (R454): A cell receives a release flit and its clear engine zeroises the slot's run. -/
  | releaseFlit (cell : Nat) (ask : ReleaseAsk)
  /-- PAGE_ZEROISE_DONE (R452): A page's zeroisation ends and it returns to the free list. -/
  | pageZeroiseDone (model page : Nat)
  /-- CELL_WIN_READ (R479): The host starts a CELL_WIN read, which is checked and sent as a configuration packet. -/
  | cellWinRead
  /-- CELL_WIN_WRITE (R479): The host starts a CELL_WIN write, which is checked and sent as a configuration packet. -/
  | cellWinWrite
  /-- CELL_WIN_TIMEOUT (R479): No CFG_RSP arrives within 16 us, so the access ends with TIMEOUT. -/
  | cellWinTimeout
  /-- CELL_WIN_AGENT_FREE (R480): Firmware frees the configuration agent, and a waiting CELL_WIN packet is sent. -/
  | cellWinAgentFree
  /-- REGISTER_WRITE (R468): A plain or alias write to a register without a row of its own updates its fields. -/
  | registerWrite (off : Nat) (value : Word)
  /-- NRESET_ASSERT (R489): nRESET is held low for 10 us, so a whole-module reset begins. -/
  | nresetAssert
  /-- NRESET_RELEASE (R489): nRESET rises after reset, the strap is sampled and the start sequence begins. -/
  | nresetRelease (senior : Bool)
  /-- RESET_SHORT (R486): A low on nRESET of 100 ns up to 10 us is rejected and counted. -/
  | resetShort
  /-- NHOLD_EXT (R490): A filtered nHOLD_EXT change is taken or rejected as too fast. -/
  | nholdExt (level : Bool) (heldNs t : Nat)
  /-- EXT_STUCK (R490): nHOLD_EXT stays asserted for 4,096 beats, so the EXT source is withdrawn. -/
  | extStuck
  /-- FLOW_NOISE (R499): Once a second, the PLDM event for rejected FLOW_PULSE edges is queued. -/
  | flowNoise (t : Nat)
  /-- ENTDAA (R495): The W3 takes part in dynamic address assignment on I3C. -/
  | entdaa (address : Nat)
  /-- SETDASA (R495): The W3 takes a dynamic address from its static address. -/
  | setdasa (address : Nat)
  /-- RSTDAA (R495): The W3 drops its dynamic address. -/
  | rstdaa
  /-- ENEC (R495): The W3 enables I3C events. -/
  | enec (events : Nat)
  /-- DISEC (R495): The W3 disables I3C events. -/
  | disec (events : Nat)
  /-- GETPID (R495): The W3 returns its provisioned ID. -/
  | getpid
  /-- GETBCR (R495): The W3 returns its bus characteristics register. -/
  | getbcr
  /-- GETDCR (R495): The W3 returns its device characteristics register. -/
  | getdcr
  /-- GETSTATUS (R495): The W3 returns its I3C status. -/
  | getstatus
  /-- GETMXDS (R495): The W3 returns its maximum data speed. -/
  | getmxds
  /-- SETMWL (R495): The W3 takes a maximum write length. -/
  | setmwl (length : Nat)
  /-- SETMRL (R495): The W3 takes a maximum read length. -/
  | setmrl (length : Nat)
  /-- RSTACT (R495): The W3 takes an I3C reset action. -/
  | rstact (action : Nat)
  /-- SET_ENDPOINT_ID (R496): The BMC assigns the W3's MCTP endpoint ID. -/
  | setEndpointId (eid source : Nat)
  /-- GET_ENDPOINT_ID (R496): The W3 returns its MCTP endpoint ID. -/
  | getEndpointId
  /-- GET_MCTP_VERSION_SUPPORT (R496): The W3 returns its supported MCTP versions. -/
  | getMctpVersionSupport
  /-- GET_MESSAGE_TYPE_SUPPORT (R496): The W3 returns its supported MCTP message types. -/
  | getMessageTypeSupport
  /-- GET_TID (R497): The W3 returns its PLDM terminus ID. -/
  | getTid
  /-- GET_PLDM_VERSION (R497): The W3 returns a PLDM type's version. -/
  | getPldmVersion (pldmType : Nat)
  /-- GET_PLDM_TYPES (R497): The W3 returns its supported PLDM types. -/
  | getPldmTypes
  /-- GET_PLDM_COMMANDS (R497): The W3 returns the commands of a PLDM type. -/
  | getPldmCommands (pldmType : Nat)
  /-- GET_PDR (R497): The W3 returns a record of its PDR repository. -/
  | getPdr (record : Nat)
  /-- GET_PDR_REPOSITORY_INFO (R497): The W3 returns information on its PDR repository. -/
  | getPdrRepositoryInfo
  /-- GET_NUMERIC_SENSOR_READING (R497): The W3 returns a numeric sensor reading. -/
  | getNumericSensorReading (sensor : Nat)
  /-- GET_STATE_SENSOR_READINGS (R497): The W3 returns state sensor readings. -/
  | getStateSensorReadings (sensor : Nat)
  /-- EVENT_MESSAGE_SUPPORTED (R497): The W3 reports its platform event message support. -/
  | eventMessageSupported
  /-- EVENT_MESSAGE_BUFFER_SIZE (R497): The W3 reports its event message buffer size. -/
  | eventMessageBufferSize (size : Nat)
  /-- POLL_FOR_PLATFORM_EVENT_MESSAGE (R499): The BMC polls and acknowledges queued events, and ALERT falls when the queue empties. -/
  | pollForPlatformEventMessage (ack : Bool)
  /-- GET_FRU_RECORD_TABLE_METADATA (R497): The W3 returns its FRU record table metadata. -/
  | getFruRecordTableMetadata
  /-- GET_FRU_RECORD_TABLE (R497): The W3 returns its FRU record table. -/
  | getFruRecordTable
  /-- WIN_READ (R498): The BMC reads a window register over PLDM. -/
  | winRead (off size : Nat)
  /-- WIN_WRITE (R498): The BMC writes a window register over PLDM, subject to MGMT_WR. -/
  | winWrite (off size : Nat) (data : Dword)
  /-- STACK_LOST (R203): A memory stack in service fails, which raises a fatal event with cause STACK_LOST. -/
  | stackLost (stack : Nat)
  /-- BRYNODOR_WATCHDOG (R371): The Brynodor watchdog expires or a firmware self-check fails, which raises fatal cause FIRMWARE. -/
  | brynodorWatchdog
  /-- HISTORY (R418): Every 60 s the W3 writes a HISTORY journal record of temperatures, power, gating and sensor faults. -/
  | history (t : Nat)
  deriving DecidableEq, Repr

end Sys2Proof
end

