-- ==== Sys2Proof/Decode.lean ====
section
/-!
DEFINITION. The commands that a word spells. The opcode table gives no row any bits, so no word spells a command.
-/
namespace Sys2Proof

/-- The command that the bits `w` spell by the opcode table: none, because no row of the table has bits.
(DESIGN CHOICE, safe: log entry 8.) -/
def decodeTableWord (_nbits _w : Nat) : Option Instr := none

end Sys2Proof
end

