-- ==== Sys2Proof/Config.lean ====
section
/-!
DEFINITION. What one implementation fixes and the spec leaves open: constants with no body, so that nothing can be proved of their
values. Each is named in a row of notes/assumptions.
-/
namespace Sys2Proof.Config

/-- A free value, one for each reading of the counter `State.free`: choices that the spec leaves open each time, such as the span port a
message leaves by. (DESIGN CHOICE, safe: log entry 13.) -/
opaque freeNat : Nat → Nat

/-- Approximation of e^x chosen by the vector unit, FP32 in and out (R118 bounds it). (DESIGN CHOICE, safe: log entry 14.) -/
opaque expApprox : BitVec 32 → BitVec 32

/-- Approximation of 1/x chosen by the vector unit (R118). (DESIGN CHOICE, safe: log entry 14.) -/
opaque rcpApprox : BitVec 32 → BitVec 32

/-- Approximation of 1/√x chosen by the vector unit (R118). (DESIGN CHOICE, safe: log entry 14.) -/
opaque rsqrtApprox : BitVec 32 → BitVec 32

/-- Sum chosen by SUMRED for its elements (R118). -/
opaque sumApprox : List (BitVec 32) → BitVec 32

/-- Sign and payload of the NaN an operation on these operands gives (R95). -/
opaque nanBits : BitVec 32 → BitVec 32 → BitVec 32

/-- Result for which the spec gives no number format value: EXP, RCP and RSQRT outside their stated domain. -/
opaque openResult : Nat → BitVec 32 → BitVec 32

/-- A token, by the scores it would be drawn from and what tells one draw from another, where R229 and R230 fix none: a score is a NaN,
the largest is infinite, or rounding keeps every running sum below the draw. (DESIGN CHOICE, safe: log entry 17.) -/
opaque openToken : List (BitVec 32) → Nat → Nat

/-- Number format that the first word of CVT's B names (R33): 0 BF16, 1 FP32, 2 W8F, 3 C4F, 4 C4I, 5 C3I, 6 C2T-T, otherwise C2T-S. -/
opaque cvtFormat : BitVec 32 → Nat

/-- The first word of CVT's B says that A is a C4I activation run (R115): the spec does not lay the word out. (DESIGN CHOICE, safe: log
entry 14.) -/
opaque cvtRun : BitVec 32 → Bool

/-- UE5M3 code of the scale that CVT's B supplies for a block of 16 elements (R118): the spec does not lay B out. (DESIGN CHOICE, safe:
log entry 14.) -/
opaque cvtScale : BitVec 512 → Nat → BitVec 8

/-- Position that the seeded generator of a cell draws from for element `i`, given the granule at A and the state of the
generator (R33, R231). -/
opaque rngPosition : BitVec 512 → BitVec 64 → Nat → Nat

/-- Rest of the granule that a one-scalar result is written into (R33, R66): granule content by operands. -/
opaque scalarRest : Nat → BitVec 512 → BitVec 512

/-- Word delivered for an uncorrectable word (R86). -/
opaque badWord : Nat → BitVec 64 → BitVec 64

/-- Energy of one event of a kind, in nJ, from the module's calibration (R165). -/
opaque energyCoef : Nat → Nat

/-- Bytes of the device seed, known to nobody (R438). -/
opaque deviceSeed : Nat

/-- SHA-256 of the boot ROM (R448). -/
opaque romDigest : Nat

/-- The two seeds that the key pair of the n-th KEM_START is made from (R450): what the W3's generator draws. (DESIGN CHOICE, safe: log
entry 14.) -/
opaque kemSeed : Nat → Nat → Nat

/-- Response body of a management-bus command whose bytes the spec takes from a named standard (R495 to R497).
(DESIGN CHOICE, safe: log entry 12.) -/
opaque standardReply : Nat → Nat → List (BitVec 8)

/-- Channel, bank and row of an address in a stack: how a stack lays its addresses out the spec does not say (R203, R418). (DESIGN CHOICE,
safe: log entry 99.) -/
opaque stackRow : Nat → Nat × Nat × Nat

/-- LIST of a sequence slot in granules: where page lists lie in stack memory the spec leaves to the loader (R192). (DESIGN CHOICE, safe:
log entry 22.) -/
opaque pageList : Nat → Nat

/-- Code that firmware does not describe, for a sensor's number (R497). (DESIGN CHOICE, safe: log entry 12.) -/
opaque sensorIndex : Nat → Nat

/-- Which of the 24 boundary cells a stack controller sends a flit for a granule of a cell by (R194). (DESIGN CHOICE, safe: log
entry 68.) -/
opaque dataPort : Nat → Nat → Nat → Nat

end Sys2Proof.Config
end

