-- ==== Sys2Proof/Machine/RegTable.lean ====
section
/-!
DEFINITION. The register window's field table, page by page, as the register tables of the spec lay it out (R459 to R478 and
each chapter's own register rules): where every field lies, and which bits of every register are RW, RC and WO.
-/
namespace Sys2Proof.Machine

/-- A register field: its register's offset in the window, its lowest bit and its width. -/
structure Fld where
  /-- Window offset of the register (plain view). -/
  off : Nat
  /-- Lowest bit. -/
  lo : Nat
  /-- Width in bits. -/
  w : Nat
  deriving DecidableEq, Repr

/-- One row of a register page: offset of the first such register within its block, how many there are and how far apart, the
masks of its RW, RC and WO bits (R470), and whether the word is a counter's low or high word (R473). -/
structure RegRow where
  /-- Offset within the block. -/
  off : Nat
  /-- How many registers of this row. -/
  count : Nat
  /-- Distance between them. -/
  stride : Nat
  /-- RW bits. -/
  rw : Nat
  /-- RC bits. -/
  rc : Nat
  /-- WO bits. -/
  wo : Nat
  /-- 0 plain, 1 a counter's low word, 2 a counter's high word. -/
  cnt : Nat
  deriving DecidableEq, Repr


namespace F

/-- `DEV_ID` [15:0], RO (R475). -/
def DEV_ID.VENDOR : Fld := ⟨0x0, 0, 16⟩

/-- `DEV_ID` [31:16], RO (R475). -/
def DEV_ID.DEVICE : Fld := ⟨0x0, 16, 16⟩

/-- `DEV_VER` [7:0], RO (R475). -/
def DEV_VER.STEPPING : Fld := ⟨0x4, 0, 8⟩

/-- `DEV_VER` [15:8], RO (R475). -/
def DEV_VER.MAP : Fld := ⟨0x4, 8, 8⟩

/-- `DEV_SERIAL` [31:0], RO (R475). -/
def DEV_SERIAL.SERIAL (i : Nat) : Fld := ⟨0x8 + i * 0x4, 0, 32⟩

/-- `BUNDLE_VER`, 64-bit counter: offset of its low word (R475). -/
def BUNDLE_VER : Nat := 0x18

/-- `MOD_CTRL` [0:0], RW (R475). -/
def MOD_CTRL.MGMT_WR : Fld := ⟨0x20, 0, 1⟩

/-- `SCRATCH` [31:0], RW (R475). -/
def SCRATCH.VALUE (i : Nat) : Fld := ⟨0x30 + i * 0x4, 0, 32⟩

/-- `PIN_STS` [0:0], RC (R508). -/
def PIN_STS.BEAT_FAST : Fld := ⟨0x100, 0, 1⟩

/-- `PIN_STS` [1:1], RC (R508). -/
def PIN_STS.FLOW_NOISE : Fld := ⟨0x100, 1, 1⟩

/-- `PIN_STS` [2:2], RC (R508). -/
def PIN_STS.RESET_SHORT : Fld := ⟨0x100, 2, 1⟩

/-- `PIN_STS` [3:3], RC (R508). -/
def PIN_STS.EXT_FAST : Fld := ⟨0x100, 3, 1⟩

/-- `PIN_STS` [4:4], RC (R508). -/
def PIN_STS.EXT_STUCK : Fld := ⟨0x100, 4, 1⟩

/-- `PIN_STS` [5:5], RC (R508). -/
def PIN_STS.COOL_GLITCH : Fld := ⟨0x100, 5, 1⟩

/-- `PIN_STS` [6:6], RC (R508). -/
def PIN_STS.STRAP : Fld := ⟨0x100, 6, 1⟩

/-- `PIN_STS` [7:7], RC (R508). -/
def PIN_STS.EVT_DROP : Fld := ⟨0x100, 7, 1⟩

/-- `PIN_STS` [8:8], RC (R508). -/
def PIN_STS.MGMT_DENIED : Fld := ⟨0x100, 8, 1⟩

/-- `PIN_STATE` [0:0], RO (R508). -/
def PIN_STATE.BEAT : Fld := ⟨0x104, 0, 1⟩

/-- `PIN_STATE` [1:1], RO (R508). -/
def PIN_STATE.FLOW : Fld := ⟨0x104, 1, 1⟩

/-- `PIN_STATE` [2:2], RO (R508). -/
def PIN_STATE.COOL_OK : Fld := ⟨0x104, 2, 1⟩

/-- `PIN_STATE` [3:3], RO (R508). -/
def PIN_STATE.HOLD_EXT : Fld := ⟨0x104, 3, 1⟩

/-- `PIN_STATE` [4:4], RO (R508). -/
def PIN_STATE.EXT_STUCK : Fld := ⟨0x104, 4, 1⟩

/-- `PIN_STATE` [5:5], RO (R508). -/
def PIN_STATE.SENIOR_STRAP : Fld := ⟨0x104, 5, 1⟩

/-- `PIN_STATE` [6:6], RO (R508). -/
def PIN_STATE.ALERT : Fld := ⟨0x104, 6, 1⟩

/-- `PIN_STATE` [7:7], RO (R508). -/
def PIN_STATE.PWR_OFF_REQ : Fld := ⟨0x104, 7, 1⟩

/-- `PIN_STATE` [15:8], RO (R508). -/
def PIN_STATE.EVT_Q : Fld := ⟨0x104, 8, 8⟩

/-- `PIN_STATE` [22:16], RO (R508). -/
def PIN_STATE.DA : Fld := ⟨0x104, 16, 7⟩

/-- `PIN_STATE` [23:23], RO (R508). -/
def PIN_STATE.DA_V : Fld := ⟨0x104, 23, 1⟩

/-- `FLOW_NOISE_CNT`, 64-bit counter: offset of its low word (R508). -/
def FLOW_NOISE_CNT : Nat := 0x110

/-- `RESET_SHORT_CNT`, 64-bit counter: offset of its low word (R508). -/
def RESET_SHORT_CNT : Nat := 0x118

/-- `EXT_FAST_CNT`, 64-bit counter: offset of its low word (R508). -/
def EXT_FAST_CNT : Nat := 0x120

/-- `COOL_GLITCH_CNT`, 64-bit counter: offset of its low word (R508). -/
def COOL_GLITCH_CNT : Nat := 0x128

/-- `PLDM_DROP_CNT`, 64-bit counter: offset of its low word (R508). -/
def PLDM_DROP_CNT : Nat := 0x130

/-- `CELL_WIN_STS` [0:0], RC (R478). -/
def CELL_WIN_STS.DONE : Fld := ⟨0x2000, 0, 1⟩

/-- `CELL_WIN_STS` [1:1], RC (R478). -/
def CELL_WIN_STS.ERR : Fld := ⟨0x2000, 1, 1⟩

/-- `CELL_WIN_STS` [2:2], RC (R478). -/
def CELL_WIN_STS.REFUSED : Fld := ⟨0x2000, 2, 1⟩

/-- `CELL_WIN_CELL` [17:0], RW (R478). -/
def CELL_WIN_CELL.CELL : Fld := ⟨0x2004, 0, 18⟩

/-- `CELL_WIN_WORD` [15:0], RW (R478). -/
def CELL_WIN_WORD.WORD : Fld := ⟨0x2008, 0, 16⟩

/-- `CELL_WIN_WORD` [16:16], RW (R478). -/
def CELL_WIN_WORD.AINC : Fld := ⟨0x2008, 16, 1⟩

/-- `CELL_WIN_DATA` [31:0], RW (R478). -/
def CELL_WIN_DATA.VALUE : Fld := ⟨0x200c, 0, 32⟩

/-- `CELL_WIN_CTRL` [0:0], RW (R478). -/
def CELL_WIN_CTRL.OP : Fld := ⟨0x2010, 0, 1⟩

/-- `CELL_WIN_CTRL` [31:31], WO (R478). -/
def CELL_WIN_CTRL.GO : Fld := ⟨0x2010, 31, 1⟩

/-- `CELL_WIN_STATE` [0:0], RO (R478). -/
def CELL_WIN_STATE.BUSY : Fld := ⟨0x2014, 0, 1⟩

/-- `CELL_WIN_STATE` [1:1], RO (R478). -/
def CELL_WIN_STATE.WAIT : Fld := ⟨0x2014, 1, 1⟩

/-- `CELL_WIN_STATE` [10:8], RO (R478). -/
def CELL_WIN_STATE.ERROR : Fld := ⟨0x2014, 8, 3⟩

/-- `SCHED_CTRL` [0:0], RW (R173). -/
def SCHED_CTRL.HOST_HOLD : Fld := ⟨0x3000, 0, 1⟩

/-- `SCHED_CTRL` [1:1], RW (R173). -/
def SCHED_CTRL.EXT_EN : Fld := ⟨0x3000, 1, 1⟩

/-- `SCHED_STS` [0:0], RC (R173). -/
def SCHED_STS.HELD : Fld := ⟨0x3004, 0, 1⟩

/-- `SCHED_STS` [1:1], RC (R173). -/
def SCHED_STS.HOLD_MISMATCH : Fld := ⟨0x3004, 1, 1⟩

/-- `SCHED_STS` [2:2], RC (R173). -/
def SCHED_STS.LONG_HOLD : Fld := ⟨0x3004, 2, 1⟩

/-- `SCHED_STS` [3:3], RC (R173). -/
def SCHED_STS.LOAD_DONE : Fld := ⟨0x3004, 3, 1⟩

/-- `SLOT_NO`, 64-bit counter: offset of its low word (R173). -/
def SLOT_NO : Nat := 0x3008

/-- `HELD_SLOT_CNT`, 64-bit counter: offset of its low word (R173). -/
def HELD_SLOT_CNT : Nat := 0x3010

/-- `HOLD_DUE_CNT`, 64-bit counter: offset of its low word (R173). -/
def HOLD_DUE_CNT : Nat := 0x3018

/-- `HOLD_PACE_CNT`, 64-bit counter: offset of its low word (R173). -/
def HOLD_PACE_CNT : Nat := 0x3020

/-- `HOLD_STRETCH_CNT`, 64-bit counter: offset of its low word (R173). -/
def HOLD_STRETCH_CNT : Nat := 0x3028

/-- `HOLD_EXT_CNT`, 64-bit counter: offset of its low word (R173). -/
def HOLD_EXT_CNT : Nat := 0x3030

/-- `HOLD_HOST_CNT`, 64-bit counter: offset of its low word (R173). -/
def HOLD_HOST_CNT : Nat := 0x3038

/-- `HOLD_FW_CNT`, 64-bit counter: offset of its low word (R173). -/
def HOLD_FW_CNT : Nat := 0x3040

/-- `HOLD_GATE_CNT`, 64-bit counter: offset of its low word (R173). -/
def HOLD_GATE_CNT : Nat := 0x3048

/-- `LOAD_CTRL` [3:0], RW (R173). -/
def LOAD_CTRL.MODEL : Fld := ⟨0x3080, 0, 4⟩

/-- `LOAD_CTRL` [4:4], WO (R173). -/
def LOAD_CTRL.GO : Fld := ⟨0x3080, 4, 1⟩

/-- `LOAD_STATE` [0:0], RO (R173). -/
def LOAD_STATE.BUSY : Fld := ⟨0x3084, 0, 1⟩

/-- `LOAD_STATE` [1:1], RO (R173). -/
def LOAD_STATE.PASS : Fld := ⟨0x3084, 1, 1⟩

/-- `LOAD_STATE` [2:2], RO (R173). -/
def LOAD_STATE.FAIL : Fld := ⟨0x3084, 2, 1⟩

/-- `LOAD_STATE` [15:8], RO (R173). -/
def LOAD_STATE.REASON : Fld := ⟨0x3084, 8, 8⟩

/-- `LOAD_CELL` [17:0], RO (R173). -/
def LOAD_CELL.CELL : Fld := ⟨0x3088, 0, 18⟩

/-- `LOAD_CELL` [20:18], RO (R173). -/
def LOAD_CELL.STRUCT : Fld := ⟨0x3088, 18, 3⟩

/-- `LOAD_DETAIL` [31:0], RO (R173). -/
def LOAD_DETAIL.DETAIL : Fld := ⟨0x308c, 0, 32⟩

/-- `LOAD_TABLE` [31:6], RW (R173). -/
def LOAD_TABLE.ADDR_LO : Fld := ⟨0x3090, 6, 26⟩

/-- `LOAD_TABLE_HI` [31:0], RW (R173). -/
def LOAD_TABLE_HI.ADDR_HI : Fld := ⟨0x3094, 0, 32⟩

/-- `MODEL_SCHED` [11:0], RO (R173). -/
def MODEL_SCHED.INTERVAL (i : Nat) : Fld := ⟨0x30c0 + i * 0x4, 0, 12⟩

/-- `MODEL_SCHED` [13:12], RO (R173). -/
def MODEL_SCHED.STATE (i : Nat) : Fld := ⟨0x30c0 + i * 0x4, 12, 2⟩

/-- `BEAT_STS` [0:0], RC (R174). -/
def BEAT_STS.HOLDOVER : Fld := ⟨0x4000, 0, 1⟩

/-- `BEAT_STS` [1:1], RC (R174). -/
def BEAT_STS.LOST : Fld := ⟨0x4000, 1, 1⟩

/-- `BEAT_STS` [2:2], RC (R174). -/
def BEAT_STS.RELOCK : Fld := ⟨0x4000, 2, 1⟩

/-- `BEAT_STS` [3:3], RC (R174). -/
def BEAT_STS.REJECT : Fld := ⟨0x4000, 3, 1⟩

/-- `BEAT_STATE` [1:0], RO (R174). -/
def BEAT_STATE.MODE : Fld := ⟨0x4004, 0, 2⟩

/-- `BEAT_STATE` [14:2], RO (R174). -/
def BEAT_STATE.HO_BEATS : Fld := ⟨0x4004, 2, 13⟩

/-- `BEAT_PERIOD` [23:0], RO (R174). -/
def BEAT_PERIOD.PERIOD : Fld := ⟨0x4008, 0, 24⟩

/-- `BEAT_NO`, 64-bit counter: offset of its low word (R174). -/
def BEAT_NO : Nat := 0x4010

/-- `TIMESTAMP`, 64-bit counter: offset of its low word (R174). -/
def TIMESTAMP : Nat := 0x4018

/-- `BEAT_REJECT_CNT`, 64-bit counter: offset of its low word (R174). -/
def BEAT_REJECT_CNT : Nat := 0x4020

/-- `BUDGET_STS` [7:0], RC (R175). -/
def BUDGET_STS.EXHAUST : Fld := ⟨0x5000, 0, 8⟩

/-- `BUDGET_HELD` [7:0], RO (R175). -/
def BUDGET_HELD.HELD : Fld := ⟨0x5004, 0, 8⟩

/-- `BUDGET_HELD` [15:8], RO (R175). -/
def BUDGET_HELD.CARRY : Fld := ⟨0x5004, 8, 8⟩

/-- `LIM_FLIT` [31:0], RW (R175). -/
def LIM_FLIT.VALUE (i : Nat) : Fld := ⟨0x5100 + i * 0x40, 0, 32⟩

/-- `LIM_STACK` [31:0], RW (R175). -/
def LIM_STACK.VALUE (i : Nat) : Fld := ⟨0x5104 + i * 0x40, 0, 32⟩

/-- `LIM_MJ` [19:0], RW (R175). -/
def LIM_MJ.VALUE (i : Nat) : Fld := ⟨0x5108 + i * 0x40, 0, 20⟩

/-- `USED_FLIT` [31:0], RO (R175). -/
def USED_FLIT.VALUE (i : Nat) : Fld := ⟨0x5110 + i * 0x40, 0, 32⟩

/-- `USED_STACK` [31:0], RO (R175). -/
def USED_STACK.VALUE (i : Nat) : Fld := ⟨0x5114 + i * 0x40, 0, 32⟩

/-- `USED_MJ` [19:0], RO (R175). -/
def USED_MJ.VALUE (i : Nat) : Fld := ⟨0x5118 + i * 0x40, 0, 20⟩

/-- `LAST_FLIT` [31:0], RO (R175). -/
def LAST_FLIT.VALUE (i : Nat) : Fld := ⟨0x5120 + i * 0x40, 0, 32⟩

/-- `LAST_STACK` [31:0], RO (R175). -/
def LAST_STACK.VALUE (i : Nat) : Fld := ⟨0x5124 + i * 0x40, 0, 32⟩

/-- `LAST_MJ` [19:0], RO (R175). -/
def LAST_MJ.VALUE (i : Nat) : Fld := ⟨0x5128 + i * 0x40, 0, 20⟩

/-- `PREC_STS` [0:0], RC (R133). -/
def PREC_STS.STORM : Fld := ⟨0x6000, 0, 1⟩

/-- `PREC_STS` [1:1], RC (R133). -/
def PREC_STS.RECIPE_ERR : Fld := ⟨0x6000, 1, 1⟩

/-- `PREC_STS` [2:2], RC (R133). -/
def PREC_STS.FLAG : Fld := ⟨0x6000, 2, 1⟩

/-- `PREC_CTRL` [3:0], RW (R133). -/
def PREC_CTRL.WIDEN_MAX : Fld := ⟨0x6004, 0, 4⟩

/-- `PREC_CTRL` [4:4], RW (R133). -/
def PREC_CTRL.AUTO_WIDEN : Fld := ⟨0x6004, 4, 1⟩

/-- `PREC_CTRL` [15:8], RW (R133). -/
def PREC_CTRL.STORM_MIN : Fld := ⟨0x6004, 8, 8⟩

/-- `PREC_FRAME` [3:0], RO (R133). -/
def PREC_FRAME.WIDE_NOW : Fld := ⟨0x6008, 0, 4⟩

/-- `PREC_FRAME` [15:8], RO (R133). -/
def PREC_FRAME.REFUSED : Fld := ⟨0x6008, 8, 8⟩

/-- `PREC_MODEL_STS` [15:0], RC (R133). -/
def PREC_MODEL_STS.MODEL_FLAG : Fld := ⟨0x600c, 0, 16⟩

/-- `PREC_SEL` [3:0], RW (R133). -/
def PREC_SEL.MODEL : Fld := ⟨0x6010, 0, 4⟩

/-- `PREC_SEL` [11:4], RW (R133). -/
def PREC_SEL.LAYER : Fld := ⟨0x6010, 4, 8⟩

/-- `PREC_LAYER_STS` [0:0], RC (R133). -/
def PREC_LAYER_STS.WHEY_OVF : Fld := ⟨0x6014, 0, 1⟩

/-- `PREC_LAYER_STS` [1:1], RC (R133). -/
def PREC_LAYER_STS.SAT : Fld := ⟨0x6014, 1, 1⟩

/-- `PREC_LAYER_STS` [2:2], RC (R133). -/
def PREC_LAYER_STS.NONFIN : Fld := ⟨0x6014, 2, 1⟩

/-- `PREC_LAYER_STS` [3:3], RC (R133). -/
def PREC_LAYER_STS.WIDEN_REFUSED : Fld := ⟨0x6014, 3, 1⟩

/-- `PREC_LAYER_STS` [4:4], RC (R133). -/
def PREC_LAYER_STS.WIDENED : Fld := ⟨0x6014, 4, 1⟩

/-- `WIDEN_STATE` [6:0], RO (R133). -/
def WIDEN_STATE.REMAIN : Fld := ⟨0x6018, 0, 7⟩

/-- `WIDEN_STATE` [7:7], RO (R133). -/
def WIDEN_STATE.WIDE : Fld := ⟨0x6018, 7, 1⟩

/-- `WHEY_OVF_CNT`, 64-bit counter: offset of its low word (R133). -/
def WHEY_OVF_CNT : Nat := 0x6020

/-- `SAT_CNT`, 64-bit counter: offset of its low word (R133). -/
def SAT_CNT : Nat := 0x6028

/-- `NONFIN_CNT`, 64-bit counter: offset of its low word (R133). -/
def NONFIN_CNT : Nat := 0x6030

/-- `RECIPE_WIN_SEL` [3:0], RW (R133). -/
def RECIPE_WIN_SEL.RECIPE : Fld := ⟨0x6040, 0, 4⟩

/-- `RECIPE_WIN_SEL` [11:4], RW (R133). -/
def RECIPE_WIN_SEL.LAYER : Fld := ⟨0x6040, 4, 8⟩

/-- `RECIPE_WIN_DATA` [31:0], RW (R133). -/
def RECIPE_WIN_DATA.ENTRY : Fld := ⟨0x6044, 0, 32⟩

/-- `MODEL_RECIPE` [3:0], RO (R133). -/
def MODEL_RECIPE.ACTIVE (i : Nat) : Fld := ⟨0x6080 + i * 0x4, 0, 4⟩

/-- `MODEL_RECIPE` [7:4], RW (R133). -/
def MODEL_RECIPE.NEXT (i : Nat) : Fld := ⟨0x6080 + i * 0x4, 4, 4⟩

/-- `MODEL_RECIPE` [8:8], RW (R133). -/
def MODEL_RECIPE.PENDING (i : Nat) : Fld := ⟨0x6080 + i * 0x4, 8, 1⟩

/-- `MODEL_RECIPE` [9:9], RC (R133). -/
def MODEL_RECIPE.REFUSED (i : Nat) : Fld := ⟨0x6080 + i * 0x4, 9, 1⟩

/-- `KV_STS` [0:0], RC (R210). -/
def KV_STS.CFG : Fld := ⟨0x7000, 0, 1⟩

/-- `KV_STS` [1:1], RC (R210). -/
def KV_STS.PAGE_MISS : Fld := ⟨0x7000, 1, 1⟩

/-- `KV_STS` [2:2], RC (R210). -/
def KV_STS.RANGE : Fld := ⟨0x7000, 2, 1⟩

/-- `KV_STS` [3:3], RC (R210). -/
def KV_STS.FMT_FIT : Fld := ⟨0x7000, 3, 1⟩

/-- `KV_STS` [4:4], RC (R210). -/
def KV_STS.SCRUB_LATE : Fld := ⟨0x7000, 4, 1⟩

/-- `KV_STS` [5:5], RC (R210). -/
def KV_STS.LIMIT : Fld := ⟨0x7000, 5, 1⟩

/-- `KV_STS` [6:6], RC (R210). -/
def KV_STS.KV_LOSS : Fld := ⟨0x7000, 6, 1⟩

/-- `KV_CTRL` [4:0], RW (R210). -/
def KV_CTRL.SCRUB_S : Fld := ⟨0x7004, 0, 5⟩

/-- `SPILL_GR_CNT`, 64-bit counter: offset of its low word (R210). -/
def SPILL_GR_CNT : Nat := 0x7010

/-- `KV_GR_CNT`, 64-bit counter: offset of its low word (R210). -/
def KV_GR_CNT : Nat := 0x7018

/-- `COW_CNT`, 64-bit counter: offset of its low word (R210). -/
def COW_CNT : Nat := 0x7020

/-- `POOL_BASE` [24:0], RW (R210). -/
def POOL_BASE.VALUE (i : Nat) : Fld := ⟨0x7100 + i * 0x30, 0, 25⟩

/-- `POOL_GEOM` [7:0], RW (R210). -/
def POOL_GEOM.PAGE_UNITS (i : Nat) : Fld := ⟨0x7104 + i * 0x30, 0, 8⟩

/-- `POOL_GEOM` [10:8], RW (R210). -/
def POOL_GEOM.G (i : Nat) : Fld := ⟨0x7104 + i * 0x30, 8, 3⟩

/-- `POOL_GEOM` [16:11], RW (R210). -/
def POOL_GEOM.KVH (i : Nat) : Fld := ⟨0x7104 + i * 0x30, 11, 6⟩

/-- `POOL_GEOM` [18:17], RW (R210). -/
def POOL_GEOM.D (i : Nat) : Fld := ⟨0x7104 + i * 0x30, 17, 2⟩

/-- `POOL_GEOM` [26:19], RW (R210). -/
def POOL_GEOM.L (i : Nat) : Fld := ⟨0x7104 + i * 0x30, 19, 8⟩

/-- `POOL_GEOM` [29:27], RW (R210). -/
def POOL_GEOM.HEADROOM (i : Nat) : Fld := ⟨0x7104 + i * 0x30, 27, 3⟩

/-- `SIDE_BASE` [24:0], RW (R210). -/
def SIDE_BASE.VALUE (i : Nat) : Fld := ⟨0x7108 + i * 0x30, 0, 25⟩

/-- `POOL_PAGES` [27:0], RW (R210). -/
def POOL_PAGES.NPAGES (i : Nat) : Fld := ⟨0x710c + i * 0x30, 0, 28⟩

/-- `POOL_FREE` [27:0], RO (R210). -/
def POOL_FREE.VALUE (i : Nat) : Fld := ⟨0x7110 + i * 0x30, 0, 28⟩

/-- `POOL_FREELIST` [24:0], RW (R210). -/
def POOL_FREELIST.VALUE (i : Nat) : Fld := ⟨0x7114 + i * 0x30, 0, 25⟩

/-- `POS_LIMIT` [24:0], RW (R210). -/
def POS_LIMIT.VALUE (i : Nat) : Fld := ⟨0x7118 + i * 0x30, 0, 25⟩

/-- `SPILL_BASE` [24:0], RW (R210). -/
def SPILL_BASE.VALUE (i : Nat) : Fld := ⟨0x711c + i * 0x30, 0, 25⟩

/-- `SPILL_SIZE` [24:0], RW (R210). -/
def SPILL_SIZE.VALUE (i : Nat) : Fld := ⟨0x7120 + i * 0x30, 0, 25⟩

/-- `POOL_CTRL` [0:0], RW (R210). -/
def POOL_CTRL.ENABLE (i : Nat) : Fld := ⟨0x7124 + i * 0x30, 0, 1⟩

/-- `SVC_STS` [0:0], RC (R251). -/
def SVC_STS.ERROR : Fld := ⟨0x8000, 0, 1⟩

/-- `SVC_STS` [1:1], RC (R251). -/
def SVC_STS.OUT_FULL : Fld := ⟨0x8000, 1, 1⟩

/-- `SVC_STS` [2:2], RC (R251). -/
def SVC_STS.REJECT : Fld := ⟨0x8000, 2, 1⟩

/-- `SVC_STS` [3:3], RC (R251). -/
def SVC_STS.LATE : Fld := ⟨0x8000, 3, 1⟩

/-- `SVC_STS` [4:4], RC (R251). -/
def SVC_STS.EVICT : Fld := ⟨0x8000, 4, 1⟩

/-- `SVC_STS` [5:5], RC (R251). -/
def SVC_STS.LOAD : Fld := ⟨0x8000, 5, 1⟩

/-- `SVC_STS` [6:6], RC (R251). -/
def SVC_STS.TELE : Fld := ⟨0x8000, 6, 1⟩

/-- `SVC_CTRL` [0:0], RW (R251). -/
def SVC_CTRL.ADMIT : Fld := ⟨0x8004, 0, 1⟩

/-- `SVC_CTRL` [7:4], RW (R251). -/
def SVC_CTRL.PREFILL_EVERY : Fld := ⟨0x8004, 4, 4⟩

/-- `SVC_CTRL` [15:8], RW (R251). -/
def SVC_CTRL.ADM_MAX : Fld := ⟨0x8004, 8, 8⟩

/-- `TOK_GEN_CNT`, 64-bit counter: offset of its low word (R251). -/
def TOK_GEN_CNT : Nat := 0x8010

/-- `TOK_DELIV_CNT`, 64-bit counter: offset of its low word (R251). -/
def TOK_DELIV_CNT : Nat := 0x8018

/-- `ADM_ACCEPT_CNT`, 64-bit counter: offset of its low word (R251). -/
def ADM_ACCEPT_CNT : Nat := 0x8020

/-- `ADM_DEFER_CNT`, 64-bit counter: offset of its low word (R251). -/
def ADM_DEFER_CNT : Nat := 0x8028

/-- `ADM_REJECT_CNT`, 64-bit counter: offset of its low word (R251). -/
def ADM_REJECT_CNT : Nat := 0x8030

/-- `PASS_DROP_CNT`, 64-bit counter: offset of its low word (R251). -/
def PASS_DROP_CNT : Nat := 0x8038

/-- `CMD_RING_BASE` [31:7], RW (R251). -/
def CMD_RING_BASE.VALUE (i : Nat) : Fld := ⟨0x8100 + i * 0x10, 7, 25⟩

/-- `CMD_RING_BASE_HI` [31:0], RW (R251). -/
def CMD_RING_BASE_HI.VALUE (i : Nat) : Fld := ⟨0x8104 + i * 0x10, 0, 32⟩

/-- `CMD_RING_CFG` [4:0], RW (R251). -/
def CMD_RING_CFG.SIZE_LOG (i : Nat) : Fld := ⟨0x8108 + i * 0x10, 0, 5⟩

/-- `CMD_RING_CFG` [31:31], RW (R251). -/
def CMD_RING_CFG.ENABLE (i : Nat) : Fld := ⟨0x8108 + i * 0x10, 31, 1⟩

/-- `OUT_RING_BASE` [31:7], RW (R251). -/
def OUT_RING_BASE.VALUE (i : Nat) : Fld := ⟨0x8200 + i * 0x10, 7, 25⟩

/-- `OUT_RING_BASE_HI` [31:0], RW (R251). -/
def OUT_RING_BASE_HI.VALUE (i : Nat) : Fld := ⟨0x8204 + i * 0x10, 0, 32⟩

/-- `OUT_RING_CFG` [4:0], RW (R251). -/
def OUT_RING_CFG.SIZE_LOG (i : Nat) : Fld := ⟨0x8208 + i * 0x10, 0, 5⟩

/-- `OUT_RING_CFG` [31:31], RW (R251). -/
def OUT_RING_CFG.ENABLE (i : Nat) : Fld := ⟨0x8208 + i * 0x10, 31, 1⟩

/-- `TELE_RING_BASE` [31:7], RW (R251). -/
def TELE_RING_BASE.VALUE : Fld := ⟨0x8300, 7, 25⟩

/-- `TELE_RING_BASE_HI` [31:0], RW (R251). -/
def TELE_RING_BASE_HI.VALUE : Fld := ⟨0x8304, 0, 32⟩

/-- `TELE_CFG` [4:0], RW (R251). -/
def TELE_CFG.SIZE_LOG : Fld := ⟨0x8308, 0, 5⟩

/-- `TELE_CFG` [12:5], RW (R251). -/
def TELE_CFG.PERIOD : Fld := ⟨0x8308, 5, 8⟩

/-- `TELE_CFG` [16:13], RW (R251). -/
def TELE_CFG.KINDS : Fld := ⟨0x8308, 13, 4⟩

/-- `TELE_CFG` [31:31], RW (R251). -/
def TELE_CFG.ENABLE : Fld := ⟨0x8308, 31, 1⟩

/-- `TELE_SKIP_CNT`, 64-bit counter: offset of its low word (R251). -/
def TELE_SKIP_CNT : Nat := 0x8310

/-- `TUNE_STS` [0:0], RC (R272). -/
def TUNE_STS.GROUP : Fld := ⟨0x9000, 0, 1⟩

/-- `TUNE_STS` [1:1], RC (R272). -/
def TUNE_STS.DISCARD : Fld := ⟨0x9000, 1, 1⟩

/-- `TUNE_STS` [2:2], RC (R272). -/
def TUNE_STS.INPUT : Fld := ⟨0x9000, 2, 1⟩

/-- `TUNE_STS` [3:3], RC (R272). -/
def TUNE_STS.REFUSED : Fld := ⟨0x9000, 3, 1⟩

/-- `TUNE_STS` [4:4], RC (R272). -/
def TUNE_STS.ENDED : Fld := ⟨0x9000, 4, 1⟩

/-- `TUNE_CTRL` [0:0], WO (R272). -/
def TUNE_CTRL.RUN : Fld := ⟨0x9004, 0, 1⟩

/-- `TUNE_CTRL` [1:1], WO (R272). -/
def TUNE_CTRL.PAUSE : Fld := ⟨0x9004, 1, 1⟩

/-- `TUNE_CTRL` [2:2], WO (R272). -/
def TUNE_CTRL.ABORT : Fld := ⟨0x9004, 2, 1⟩

/-- `TUNE_CTRL` [3:3], WO (R272). -/
def TUNE_CTRL.DISCARD : Fld := ⟨0x9004, 3, 1⟩

/-- `TUNE_STATE` [2:0], RO (R272). -/
def TUNE_STATE.STATE : Fld := ⟨0x9008, 0, 3⟩

/-- `TUNE_STATE` [15:8], RO (R272). -/
def TUNE_STATE.FAIL : Fld := ⟨0x9008, 8, 8⟩

/-- `TUNE_STATE` [17:16], RO (R272). -/
def TUNE_STATE.DISCARDS : Fld := ⟨0x9008, 16, 2⟩

/-- `TUNE_CFG` [3:0], RW (R272). -/
def TUNE_CFG.MODEL : Fld := ⟨0x900c, 0, 4⟩

/-- `TUNE_CFG` [4:4], RW (R272). -/
def TUNE_CFG.EN : Fld := ⟨0x900c, 4, 1⟩

/-- `TUNE_CFG` [14:5], RW (R272). -/
def TUNE_CFG.TBLK : Fld := ⟨0x900c, 5, 10⟩

/-- `TUNE_CFG` [26:15], RW (R272). -/
def TUNE_CFG.GAP : Fld := ⟨0x900c, 15, 12⟩

/-- `TUNE_ROWS` [12:0], RW (R272). -/
def TUNE_ROWS.VALUE : Fld := ⟨0x9010, 0, 13⟩

/-- `TUNE_RING_CFG` [4:0], RW (R272). -/
def TUNE_RING_CFG.SIZE_LOG : Fld := ⟨0x9014, 0, 5⟩

/-- `TUNE_RING_CFG` [31:31], RW (R272). -/
def TUNE_RING_CFG.ENABLE : Fld := ⟨0x9014, 31, 1⟩

/-- `TUNE_RING_BASE` [31:7], RW (R272). -/
def TUNE_RING_BASE.VALUE : Fld := ⟨0x9018, 7, 25⟩

/-- `TUNE_RING_BASE_HI` [31:0], RW (R272). -/
def TUNE_RING_BASE_HI.VALUE : Fld := ⟨0x901c, 0, 32⟩

/-- `OPT_STEP` [31:0], RW (R272). -/
def OPT_STEP.VALUE : Fld := ⟨0x9020, 0, 32⟩

/-- `TUNE_LR` [31:0], RW (R272). -/
def TUNE_LR.VALUE : Fld := ⟨0x9040, 0, 32⟩

/-- `TUNE_BETA1` [31:0], RW (R272). -/
def TUNE_BETA1.VALUE : Fld := ⟨0x9044, 0, 32⟩

/-- `TUNE_BETA2` [31:0], RW (R272). -/
def TUNE_BETA2.VALUE : Fld := ⟨0x9048, 0, 32⟩

/-- `TUNE_EPS` [31:0], RW (R272). -/
def TUNE_EPS.VALUE : Fld := ⟨0x904c, 0, 32⟩

/-- `TUNE_WD` [31:0], RW (R272). -/
def TUNE_WD.VALUE : Fld := ⟨0x9050, 0, 32⟩

/-- `TUNE_GSCALE` [31:0], RW (R272). -/
def TUNE_GSCALE.VALUE : Fld := ⟨0x9054, 0, 32⟩

/-- `TUNE_CLAMP` [31:0], RW (R272). -/
def TUNE_CLAMP.VALUE : Fld := ⟨0x9058, 0, 32⟩

/-- `TUNE_ALPHA` [31:0], RW (R272). -/
def TUNE_ALPHA.VALUE : Fld := ⟨0x905c, 0, 32⟩

/-- `TUNE_EX_CNT`, 64-bit counter: offset of its low word (R272). -/
def TUNE_EX_CNT : Nat := 0x9060

/-- `TUNE_ROW_CNT`, 64-bit counter: offset of its low word (R272). -/
def TUNE_ROW_CNT : Nat := 0x9068

/-- `TUNE_BLOCK_CNT`, 64-bit counter: offset of its low word (R272). -/
def TUNE_BLOCK_CNT : Nat := 0x9070

/-- `OCL_STS` [0:0], RC (R306). -/
def OCL_STS.DEGRADED : Fld := ⟨0xa000, 0, 1⟩

/-- `OCL_STS` [1:1], RC (R306). -/
def OCL_STS.RETRAIN : Fld := ⟨0xa000, 1, 1⟩

/-- `OCL_STS` [2:2], RC (R306). -/
def OCL_STS.DOWN : Fld := ⟨0xa000, 2, 1⟩

/-- `OCL_STS` [3:3], RC (R306). -/
def OCL_STS.CPL_TIMEOUT : Fld := ⟨0xa000, 3, 1⟩

/-- `OCL_STS` [4:4], RC (R306). -/
def OCL_STS.CPL_ERR : Fld := ⟨0xa000, 4, 1⟩

/-- `OCL_STS` [5:5], RC (R306). -/
def OCL_STS.PROTO : Fld := ⟨0xa000, 5, 1⟩

/-- `OCL_STS` [6:6], RC (R306). -/
def OCL_STS.UR : Fld := ⟨0xa000, 6, 1⟩

/-- `OCL_STS` [7:7], RC (R306). -/
def OCL_STS.EVT_OVF : Fld := ⟨0xa000, 7, 1⟩

/-- `OCL_STS` [8:8], RC (R306). -/
def OCL_STS.AUTH : Fld := ⟨0xa000, 8, 1⟩

/-- `OCL_STS` [9:9], RC (R306). -/
def OCL_STS.REKEY : Fld := ⟨0xa000, 9, 1⟩

/-- `OCL_STATE` [2:0], RO (R306). -/
def OCL_STATE.STATE : Fld := ⟨0xa004, 0, 3⟩

/-- `OCL_STATE` [4:3], RO (R306). -/
def OCL_STATE.WIDTH : Fld := ⟨0xa004, 3, 2⟩

/-- `OCL_STATE` [6:5], RO (R306). -/
def OCL_STATE.PART : Fld := ⟨0xa004, 5, 2⟩

/-- `OCL_STATE` [7:7], RO (R306). -/
def OCL_STATE.REVERSED : Fld := ⟨0xa004, 7, 1⟩

/-- `OCL_CTRL` [0:0], WO (R306). -/
def OCL_CTRL.RETRAIN : Fld := ⟨0xa008, 0, 1⟩

/-- `OCL_ENC` [1:0], RW (R306). -/
def OCL_ENC.MODE : Fld := ⟨0xa00c, 0, 2⟩

/-- `OCL_ENC` [2:2], RO (R306). -/
def OCL_ENC.KEYS : Fld := ⟨0xa00c, 2, 1⟩

/-- `OCL_ENC` [3:3], RO (R306). -/
def OCL_ENC.TX_SLOT : Fld := ⟨0xa00c, 3, 1⟩

/-- `OCL_ENC` [4:4], RO (R306). -/
def OCL_ENC.RX_SLOT : Fld := ⟨0xa00c, 4, 1⟩

/-- `DOORBELL` [7:0], WO (R306). -/
def DOORBELL.RINGS : Fld := ⟨0xa010, 0, 8⟩

/-- `DOORBELL` [8:8], WO (R306). -/
def DOORBELL.TUNE : Fld := ⟨0xa010, 8, 1⟩

/-- `EVT_CFG` [4:0], RW (R306). -/
def EVT_CFG.SIZE_LOG : Fld := ⟨0xa014, 0, 5⟩

/-- `EVT_CFG` [12:5], RW (R306). -/
def EVT_CFG.MOD : Fld := ⟨0xa014, 5, 8⟩

/-- `EVT_CFG` [31:31], RW (R306). -/
def EVT_CFG.ENABLE : Fld := ⟨0xa014, 31, 1⟩

/-- `EVT_RING_BASE` [31:7], RW (R306). -/
def EVT_RING_BASE.VALUE : Fld := ⟨0xa018, 7, 25⟩

/-- `EVT_RING_BASE_HI` [31:0], RW (R306). -/
def EVT_RING_BASE_HI.VALUE : Fld := ⟨0xa01c, 0, 32⟩

/-- `INTR_CFG` [15:0], RW (R306). -/
def INTR_CFG.EVT_VEC : Fld := ⟨0xa020, 0, 16⟩

/-- `INTR_CFG` [31:16], RW (R306). -/
def INTR_CFG.OUT_VEC : Fld := ⟨0xa020, 16, 16⟩

/-- `INTR_EN` [7:0], RW (R306). -/
def INTR_EN.OUT : Fld := ⟨0xa024, 0, 8⟩

/-- `INTR_EN` [8:8], RW (R306). -/
def INTR_EN.EVT : Fld := ⟨0xa024, 8, 1⟩

/-- `OCL_ERR_ADDR` [31:0], RO (R306). -/
def OCL_ERR_ADDR.LO : Fld := ⟨0xa028, 0, 32⟩

/-- `OCL_ERR_ADDR_HI` [31:0], RO (R306). -/
def OCL_ERR_ADDR_HI.HI : Fld := ⟨0xa02c, 0, 32⟩

/-- `OCL_FEC_CNT`, 64-bit counter: offset of its low word (R306). -/
def OCL_FEC_CNT : Nat := 0xa040

/-- `OCL_CRC_CNT`, 64-bit counter: offset of its low word (R306). -/
def OCL_CRC_CNT : Nat := 0xa048

/-- `OCL_REPLAY_CNT`, 64-bit counter: offset of its low word (R306). -/
def OCL_REPLAY_CNT : Nat := 0xa050

/-- `OCL_RETRAIN_CNT`, 64-bit counter: offset of its low word (R306). -/
def OCL_RETRAIN_CNT : Nat := 0xa058

/-- `OCL_CPL_ERR_CNT`, 64-bit counter: offset of its low word (R306). -/
def OCL_CPL_ERR_CNT : Nat := 0xa060

/-- `OCL_PROTO_CNT`, 64-bit counter: offset of its low word (R306). -/
def OCL_PROTO_CNT : Nat := 0xa068

/-- `EVT_DROP_CNT`, 64-bit counter: offset of its low word (R306). -/
def EVT_DROP_CNT : Nat := 0xa070

/-- `EVT_SEL` [23:0], RW (R306). -/
def EVT_SEL.OFF (i : Nat) : Fld := ⟨0xa100 + i * 0x4, 0, 24⟩

/-- `EVT_SEL` [28:24], RW (R306). -/
def EVT_SEL.BIT (i : Nat) : Fld := ⟨0xa100 + i * 0x4, 24, 5⟩

/-- `EVT_SEL` [31:31], RW (R306). -/
def EVT_SEL.V (i : Nat) : Fld := ⟨0xa100 + i * 0x4, 31, 1⟩

/-- `FLT_STS` [0:0], RC (R373). -/
def FLT_STS.DATA : Fld := ⟨0xb000, 0, 1⟩

/-- `FLT_STS` [1:1], RC (R373). -/
def FLT_STS.RESTART : Fld := ⟨0xb000, 1, 1⟩

/-- `FLT_STS` [2:2], RC (R373). -/
def FLT_STS.REPLAY_FAIL : Fld := ⟨0xb000, 2, 1⟩

/-- `FLT_STS` [3:3], RC (R373). -/
def FLT_STS.DEFECT : Fld := ⟨0xb000, 3, 1⟩

/-- `FLT_STS` [4:4], RC (R373). -/
def FLT_STS.RELOCATED : Fld := ⟨0xb000, 4, 1⟩

/-- `FLT_STS` [5:5], RC (R373). -/
def FLT_STS.RELOAD : Fld := ⟨0xb000, 5, 1⟩

/-- `FLT_STS` [6:6], RC (R373). -/
def FLT_STS.SINTER : Fld := ⟨0xb000, 6, 1⟩

/-- `FLT_STS` [7:7], RC (R373). -/
def FLT_STS.FATAL : Fld := ⟨0xb000, 7, 1⟩

/-- `FLT_CTRL` [0:0], RW (R373). -/
def FLT_CTRL.RELOC_EN : Fld := ⟨0xb004, 0, 1⟩

/-- `FLT_CTRL` [1:1], WO (R373). -/
def FLT_CTRL.FORCE_FATAL : Fld := ⟨0xb004, 1, 1⟩

/-- `FLT_LAST` [17:0], RO (R373). -/
def FLT_LAST.CELL : Fld := ⟨0xb008, 0, 18⟩

/-- `FLT_LAST` [23:18], RO (R373). -/
def FLT_LAST.CAUSE : Fld := ⟨0xb008, 18, 6⟩

/-- `FLT_LAST` [27:24], RO (R373). -/
def FLT_LAST.MODEL : Fld := ⟨0xb008, 24, 4⟩

/-- `FLT_LAST` [28:28], RO (R373). -/
def FLT_LAST.MODEL_V : Fld := ⟨0xb008, 28, 1⟩

/-- `FLT_LAST` [31:31], RC (R373). -/
def FLT_LAST.V : Fld := ⟨0xb008, 31, 1⟩

/-- `FATAL_CAUSE` [7:0], RO (R373). -/
def FATAL_CAUSE.CODE : Fld := ⟨0xb00c, 0, 8⟩

/-- `FATAL_CAUSE` [15:8], RO (R373). -/
def FATAL_CAUSE.DETAIL : Fld := ⟨0xb00c, 8, 8⟩

/-- `RST_CTRL` [17:0], RW (R373). -/
def RST_CTRL.TARGET : Fld := ⟨0xb010, 0, 18⟩

/-- `RST_CTRL` [19:18], RW (R373). -/
def RST_CTRL.SCOPE : Fld := ⟨0xb010, 18, 2⟩

/-- `RST_CTRL` [31:31], WO (R373). -/
def RST_CTRL.GO : Fld := ⟨0xb010, 31, 1⟩

/-- `RST_STS` [0:0], RC (R373). -/
def RST_STS.WIDENED : Fld := ⟨0xb014, 0, 1⟩

/-- `RST_STS` [1:1], RC (R373). -/
def RST_STS.REFUSED : Fld := ⟨0xb014, 1, 1⟩

/-- `LEDGER_USE` [10:0], RO (R373). -/
def LEDGER_USE.VALUE : Fld := ⟨0xb018, 0, 11⟩

/-- `RST_STATE` [0:0], RO (R373). -/
def RST_STATE.BUSY : Fld := ⟨0xb01c, 0, 1⟩

/-- `RST_STATE` [2:1], RO (R373). -/
def RST_STATE.PHASE : Fld := ⟨0xb01c, 1, 2⟩

/-- `FLT_DATA_CNT`, 64-bit counter: offset of its low word (R373). -/
def FLT_DATA_CNT : Nat := 0xb020

/-- `REPLAY_CNT`, 64-bit counter: offset of its low word (R373). -/
def REPLAY_CNT : Nat := 0xb028

/-- `RESTART_CNT`, 64-bit counter: offset of its low word (R373). -/
def RESTART_CNT : Nat := 0xb030

/-- `DEFECT_CNT`, 64-bit counter: offset of its low word (R373). -/
def DEFECT_CNT : Nat := 0xb038

/-- `RELOC_CNT`, 64-bit counter: offset of its low word (R373). -/
def RELOC_CNT : Nat := 0xb040

/-- `RST_ABSORB_CNT`, 64-bit counter: offset of its low word (R373). -/
def RST_ABSORB_CNT : Nat := 0xb048

/-- `FAULT_END_CNT`, 64-bit counter: offset of its low word (R373). -/
def FAULT_END_CNT : Nat := 0xb050

/-- `PWR_STS` [0:0], RC (R409). -/
def PWR_STS.FEED_A : Fld := ⟨0xc000, 0, 1⟩

/-- `PWR_STS` [1:1], RC (R409). -/
def PWR_STS.FEED_B : Fld := ⟨0xc000, 1, 1⟩

/-- `PWR_STS` [2:2], RC (R409). -/
def PWR_STS.SHARE : Fld := ⟨0xc000, 2, 1⟩

/-- `PWR_STS` [3:3], RC (R409). -/
def PWR_STS.PHASE_FAIL : Fld := ⟨0xc000, 3, 1⟩

/-- `PWR_STS` [4:4], RC (R409). -/
def PWR_STS.FIELD_LIMIT : Fld := ⟨0xc000, 4, 1⟩

/-- `PWR_STS` [5:5], RC (R409). -/
def PWR_STS.VCM_EVENT : Fld := ⟨0xc000, 5, 1⟩

/-- `PWR_STS` [6:6], RC (R409). -/
def PWR_STS.CAP : Fld := ⟨0xc000, 6, 1⟩

/-- `PWR_STS` [7:7], RC (R409). -/
def PWR_STS.CAP_REFUSED : Fld := ⟨0xc000, 7, 1⟩

/-- `PWR_STATE` [0:0], RO (R409). -/
def PWR_STATE.A_OK : Fld := ⟨0xc004, 0, 1⟩

/-- `PWR_STATE` [1:1], RO (R409). -/
def PWR_STATE.B_OK : Fld := ⟨0xc004, 1, 1⟩

/-- `PWR_STATE` [5:2], RO (R409). -/
def PWR_STATE.G_CAP : Fld := ⟨0xc004, 2, 4⟩

/-- `PWR_STATE` [10:8], RO (R409). -/
def PWR_STATE.FATAL_SRC : Fld := ⟨0xc004, 8, 3⟩

/-- `PWR_CAP` [15:0], RW (R409). -/
def PWR_CAP.VALUE : Fld := ⟨0xc008, 0, 16⟩

/-- `PWR_IN` [15:0], RO (R409). -/
def PWR_IN.VALUE : Fld := ⟨0xc00c, 0, 16⟩

/-- `FEED_A` [12:0], RO (R409). -/
def FEED_A.V : Fld := ⟨0xc010, 0, 13⟩

/-- `FEED_A` [25:16], RO (R409). -/
def FEED_A.A : Fld := ⟨0xc010, 16, 10⟩

/-- `FEED_B` [12:0], RO (R409). -/
def FEED_B.V : Fld := ⟨0xc014, 0, 13⟩

/-- `FEED_B` [25:16], RO (R409). -/
def FEED_B.A : Fld := ⟨0xc014, 16, 10⟩

/-- `VCM_MON` [9:0], RO (R409). -/
def VCM_MON.MV : Fld := ⟨0xc018, 0, 10⟩

/-- `VCM_MON` [25:16], RO (R409). -/
def VCM_MON.A : Fld := ⟨0xc018, 16, 10⟩

/-- `IN_ENERGY_CNT`, 64-bit counter: offset of its low word (R409). -/
def IN_ENERGY_CNT : Nat := 0xc020

/-- `CAP_GATE_CNT`, 64-bit counter: offset of its low word (R409). -/
def CAP_GATE_CNT : Nat := 0xc028

/-- `THR_STS` [0:0], RC (R410). -/
def THR_STS.THROTTLE : Fld := ⟨0xd000, 0, 1⟩

/-- `THR_STS` [1:1], RC (R410). -/
def THR_STS.PAIR_SUSPECT : Fld := ⟨0xd000, 1, 1⟩

/-- `THR_STS` [2:2], RC (R410). -/
def THR_STS.NO_PAIRS : Fld := ⟨0xd000, 2, 1⟩

/-- `THR_STS` [3:3], RC (R410). -/
def THR_STS.STACK_HOT : Fld := ⟨0xd000, 3, 1⟩

/-- `THR_STS` [4:4], RC (R410). -/
def THR_STS.FLOW_45 : Fld := ⟨0xd000, 4, 1⟩

/-- `THR_STS` [5:5], RC (R410). -/
def THR_STS.FLOW_30 : Fld := ⟨0xd000, 5, 1⟩

/-- `THR_STS` [6:6], RC (R410). -/
def THR_STS.COOL_STOP : Fld := ⟨0xd000, 6, 1⟩

/-- `THR_STS` [7:7], RC (R410). -/
def THR_STS.COOL_RESUME : Fld := ⟨0xd000, 7, 1⟩

/-- `THR_STS` [8:8], RC (R410). -/
def THR_STS.INLET : Fld := ⟨0xd000, 8, 1⟩

/-- `THR_STS` [9:9], RC (R410). -/
def THR_STS.RELOC_DONE : Fld := ⟨0xd000, 9, 1⟩

/-- `THR_STS` [10:10], RC (R410). -/
def THR_STS.RELOC_REFUSED : Fld := ⟨0xd000, 10, 1⟩

/-- `THR_STS` [11:11], RC (R410). -/
def THR_STS.CFG : Fld := ⟨0xd000, 11, 1⟩

/-- `COOL_STATE` [2:0], RO (R410). -/
def COOL_STATE.STATE : Fld := ⟨0xd004, 0, 3⟩

/-- `COOL_STATE` [3:3], RO (R410). -/
def COOL_STATE.COOL_OK : Fld := ⟨0xd004, 3, 1⟩

/-- `COOL_STATE` [4:4], RO (R410). -/
def COOL_STATE.ARMED : Fld := ⟨0xd004, 4, 1⟩

/-- `COOL_STATE` [25:16], RO (R410). -/
def COOL_STATE.FLOW : Fld := ⟨0xd004, 16, 10⟩

/-- `COOL_CFG` [10:0], RW (R410). -/
def COOL_CFG.FLOW_K : Fld := ⟨0xd008, 0, 11⟩

/-- `COOL_TEMP` [8:0], RO (R410). -/
def COOL_TEMP.INLET : Fld := ⟨0xd00c, 0, 9⟩

/-- `COOL_TEMP` [17:9], RO (R410). -/
def COOL_TEMP.OUTLET : Fld := ⟨0xd00c, 9, 9⟩

/-- `THR_MAX` [8:0], RO (R410). -/
def THR_MAX.T : Fld := ⟨0xd010, 0, 9⟩

/-- `THR_MAX` [15:9], RO (R410). -/
def THR_MAX.FIELD : Fld := ⟨0xd010, 9, 7⟩

/-- `THR_MAX` [20:16], RO (R410). -/
def THR_MAX.G_MAX : Fld := ⟨0xd010, 16, 5⟩

/-- `THR_RELOC` [17:0], RW (R410). -/
def THR_RELOC.CELL : Fld := ⟨0xd014, 0, 18⟩

/-- `THR_RELOC` [31:31], WO (R410). -/
def THR_RELOC.GO : Fld := ⟨0xd014, 31, 1⟩

/-- `THR_GATE_CNT`, 64-bit counter: offset of its low word (R410). -/
def THR_GATE_CNT : Nat := 0xd020

/-- `COOL_STOP_CNT`, 64-bit counter: offset of its low word (R410). -/
def COOL_STOP_CNT : Nat := 0xd028

/-- `BOOT_STS` [0:0], RC (R437). -/
def BOOT_STS.READY : Fld := ⟨0xe000, 0, 1⟩

/-- `BOOT_STS` [1:1], RC (R437). -/
def BOOT_STS.REFUSED : Fld := ⟨0xe000, 1, 1⟩

/-- `BOOT_STS` [2:2], RC (R437). -/
def BOOT_STS.FALLBACK : Fld := ⟨0xe000, 2, 1⟩

/-- `BOOT_STS` [3:3], RC (R437). -/
def BOOT_STS.SLOW : Fld := ⟨0xe000, 3, 1⟩

/-- `BOOT_STS` [4:4], RC (R437). -/
def BOOT_STS.DISCREP : Fld := ⟨0xe000, 4, 1⟩

/-- `BOOT_STS` [5:5], RC (R437). -/
def BOOT_STS.TRIP : Fld := ⟨0xe000, 5, 1⟩

/-- `BOOT_STS` [6:6], RC (R437). -/
def BOOT_STS.JRNL_FAIL : Fld := ⟨0xe000, 6, 1⟩

/-- `BOOT_STS` [7:7], RC (R437). -/
def BOOT_STS.PRESS : Fld := ⟨0xe000, 7, 1⟩

/-- `BOOT_STS` [8:8], RC (R437). -/
def BOOT_STS.STAGE_DONE : Fld := ⟨0xe000, 8, 1⟩

/-- `BOOT_STS` [9:9], RC (R437). -/
def BOOT_STS.SHUT_REFUSED : Fld := ⟨0xe000, 9, 1⟩

/-- `BOOT_STS` [10:10], RC (R437). -/
def BOOT_STS.BIST_FAIL : Fld := ⟨0xe000, 10, 1⟩

/-- `BOOT_STATE` [2:0], RO (R437). -/
def BOOT_STATE.MODE : Fld := ⟨0xe004, 0, 3⟩

/-- `BOOT_STATE` [6:3], RO (R437). -/
def BOOT_STATE.STEP : Fld := ⟨0xe004, 3, 4⟩

/-- `BOOT_STATE` [8:7], RO (R437). -/
def BOOT_STATE.FAILS : Fld := ⟨0xe004, 7, 2⟩

/-- `BOOT_STATE` [9:9], RO (R437). -/
def BOOT_STATE.FAST : Fld := ⟨0xe004, 9, 1⟩

/-- `BOOT_STATE` [10:10], RO (R437). -/
def BOOT_STATE.SLOT : Fld := ⟨0xe004, 10, 1⟩

/-- `BOOT_STATE` [11:11], RO (R437). -/
def BOOT_STATE.TRIAL : Fld := ⟨0xe004, 11, 1⟩

/-- `BOOT_STATE` [15:12], RO (R437). -/
def BOOT_STATE.WAVE : Fld := ⟨0xe004, 12, 4⟩

/-- `BOOT_REASON` [7:0], RO (R437). -/
def BOOT_REASON.CODE : Fld := ⟨0xe008, 0, 8⟩

/-- `BOOT_REASON` [15:8], RO (R437). -/
def BOOT_REASON.DETAIL : Fld := ⟨0xe008, 8, 8⟩

/-- `BOOT_CTRL` [0:0], WO (R437). -/
def BOOT_CTRL.CLR : Fld := ⟨0xe00c, 0, 1⟩

/-- `BOOT_CTRL` [1:1], WO (R437). -/
def BOOT_CTRL.RESTART : Fld := ⟨0xe00c, 1, 1⟩

/-- `BOOT_TIME` [15:0], RO (R437). -/
def BOOT_TIME.VALUE : Fld := ⟨0xe010, 0, 16⟩

/-- `START_CNT` [31:0], RO (R437). -/
def START_CNT.VALUE : Fld := ⟨0xe014, 0, 32⟩

/-- `DISCREP_CNT` [15:0], RO (R437). -/
def DISCREP_CNT.FUSE : Fld := ⟨0xe018, 0, 16⟩

/-- `DISCREP_CNT` [31:16], RO (R437). -/
def DISCREP_CNT.JRNL : Fld := ⟨0xe018, 16, 16⟩

/-- `NEW_DEFECT` [15:0], RO (R437). -/
def NEW_DEFECT.VALUE : Fld := ⟨0xe01c, 0, 16⟩

/-- `SHUT_CTRL` [0:0], WO (R437). -/
def SHUT_CTRL.GO : Fld := ⟨0xe020, 0, 1⟩

/-- `SHUT_CTRL` [1:1], RW (R437). -/
def SHUT_CTRL.POWER_OFF : Fld := ⟨0xe020, 1, 1⟩

/-- `SHUT_CTRL` [2:2], RW (R437). -/
def SHUT_CTRL.SKIP_BIST : Fld := ⟨0xe020, 2, 1⟩

/-- `JRNL_STATE` [0:0], RO (R437). -/
def JRNL_STATE.AREA : Fld := ⟨0xe030, 0, 1⟩

/-- `JRNL_STATE` [7:1], RO (R437). -/
def JRNL_STATE.FILL : Fld := ⟨0xe030, 1, 7⟩

/-- `JRNL_STATE` [8:8], RO (R437). -/
def JRNL_STATE.PRESSING : Fld := ⟨0xe030, 8, 1⟩

/-- `JRNL_STATE` [9:9], RO (R437). -/
def JRNL_STATE.ERASING : Fld := ⟨0xe030, 9, 1⟩

/-- `JRNL_SEQ` [31:0], RO (R437). -/
def JRNL_SEQ.SEQ : Fld := ⟨0xe034, 0, 32⟩

/-- `STAGE_SRC` [31:6], RW (R437). -/
def STAGE_SRC.VALUE : Fld := ⟨0xe040, 6, 26⟩

/-- `STAGE_SRC_HI` [31:0], RW (R437). -/
def STAGE_SRC_HI.VALUE : Fld := ⟨0xe044, 0, 32⟩

/-- `STAGE_LEN` [25:0], RW (R437). -/
def STAGE_LEN.VALUE : Fld := ⟨0xe048, 0, 26⟩

/-- `STAGE_CTRL` [1:0], RW (R437). -/
def STAGE_CTRL.TARGET : Fld := ⟨0xe04c, 0, 2⟩

/-- `STAGE_CTRL` [31:31], WO (R437). -/
def STAGE_CTRL.GO : Fld := ⟨0xe04c, 31, 1⟩

/-- `STAGE_STATE` [0:0], RO (R437). -/
def STAGE_STATE.BUSY : Fld := ⟨0xe050, 0, 1⟩

/-- `STAGE_STATE` [1:1], RO (R437). -/
def STAGE_STATE.PASS : Fld := ⟨0xe050, 1, 1⟩

/-- `STAGE_STATE` [2:2], RO (R437). -/
def STAGE_STATE.FAIL : Fld := ⟨0xe050, 2, 1⟩

/-- `STAGE_STATE` [15:8], RO (R437). -/
def STAGE_STATE.ERROR : Fld := ⟨0xe050, 8, 8⟩

/-- `MODEL_SVC` [0:0], RW (R251). -/
def MODEL_SVC.PINNED (i : Nat) : Fld := ⟨0xf000 + i * 0x40, 0, 1⟩

/-- `MODEL_SVC` [3:1], RW (R251). -/
def MODEL_SVC.HEADS (i : Nat) : Fld := ⟨0xf000 + i * 0x40, 1, 3⟩

/-- `MODEL_SVC` [12:5], RW (R251). -/
def MODEL_SVC.GEN_ROWS (i : Nat) : Fld := ⟨0xf000 + i * 0x40, 5, 8⟩

/-- `MODEL_SVC` [20:13], RW (R251). -/
def MODEL_SVC.PRE_ROWS (i : Nat) : Fld := ⟨0xf000 + i * 0x40, 13, 8⟩

/-- `ADM_BASE` [23:0], RW (R251). -/
def ADM_BASE.VALUE (i : Nat) : Fld := ⟨0xf004 + i * 0x40, 0, 24⟩

/-- `ADM_PAGE_COST` [23:0], RW (R251). -/
def ADM_PAGE_COST.VALUE (i : Nat) : Fld := ⟨0xf008 + i * 0x40, 0, 24⟩

/-- `HOT_CAP` [15:0], RW (R251). -/
def HOT_CAP.VALUE (i : Nat) : Fld := ⟨0xf00c + i * 0x40, 0, 16⟩

/-- `ADM_SPILL_POS` [31:0], RW (R251). -/
def ADM_SPILL_POS.VALUE (i : Nat) : Fld := ⟨0xf010 + i * 0x40, 0, 32⟩

/-- `POOL_RESV` [27:0], RO (R251). -/
def POOL_RESV.VALUE (i : Nat) : Fld := ⟨0xf014 + i * 0x40, 0, 28⟩

/-- `MODEL_USE` [31:0], RO (R251). -/
def MODEL_USE.VALUE (i : Nat) : Fld := ⟨0xf018 + i * 0x40, 0, 32⟩

/-- `STACK_AREA` [24:0], RO (R251). -/
def STACK_AREA.VALUE (i : Nat) : Fld := ⟨0xf01c + i * 0x40, 0, 25⟩

/-- `STACK_SIZE` [24:0], RO (R251). -/
def STACK_SIZE.VALUE (i : Nat) : Fld := ⟨0xf020 + i * 0x40, 0, 25⟩

/-- `SLICE_MAP` [31:5], RW (R251). -/
def SLICE_MAP.VALUE (i : Nat) : Fld := ⟨0xf024 + i * 0x40, 5, 27⟩

/-- `SLICE_MAP_HI` [31:0], RW (R251). -/
def SLICE_MAP_HI.VALUE (i : Nat) : Fld := ⟨0xf028 + i * 0x40, 0, 32⟩

/-- `SLICE_COUNT` [23:0], RW (R251). -/
def SLICE_COUNT.VALUE (i : Nat) : Fld := ⟨0xf02c + i * 0x40, 0, 24⟩

/-- `SHAPE_TAB` [31:5], RW (R251). -/
def SHAPE_TAB.VALUE (i : Nat) : Fld := ⟨0xf030 + i * 0x40, 5, 27⟩

/-- `SHAPE_TAB_HI` [31:0], RW (R251). -/
def SHAPE_TAB_HI.VALUE (i : Nat) : Fld := ⟨0xf034 + i * 0x40, 0, 32⟩

/-- `FLD_ID` [3:0], RO (R477). -/
def FLD_ID.FX (f : Nat) : Fld := ⟨0x100000 + f * 0x10000, 0, 4⟩

/-- `FLD_ID` [6:4], RO (R477). -/
def FLD_ID.FY (f : Nat) : Fld := ⟨0x100000 + f * 0x10000, 4, 3⟩

/-- `FLD_ID` [13:7], RO (R477). -/
def FLD_ID.INDEX (f : Nat) : Fld := ⟨0x100000 + f * 0x10000, 7, 7⟩

/-- `FAB_CALDERA` [2:0], RW (R62). -/
def FAB_CALDERA.ROWS (f : Nat) : Fld := ⟨0x101000 + f * 0x10000, 0, 3⟩

/-- `FAB_ERR_STS` [0:0], RC (R62). -/
def FAB_ERR_STS.LINK_REPLAY (f : Nat) : Fld := ⟨0x101004 + f * 0x10000, 0, 1⟩

/-- `FAB_ERR_STS` [1:1], RC (R62). -/
def FAB_ERR_STS.LINK_FAIL (f : Nat) : Fld := ⟨0x101004 + f * 0x10000, 1, 1⟩

/-- `FAB_ERR_STS` [2:2], RC (R62). -/
def FAB_ERR_STS.RED_SEQ (f : Nat) : Fld := ⟨0x101004 + f * 0x10000, 2, 1⟩

/-- `FAB_ERR_STS` [3:3], RC (R62). -/
def FAB_ERR_STS.TREE_MISS (f : Nat) : Fld := ⟨0x101004 + f * 0x10000, 3, 1⟩

/-- `FAB_ERR_STS` [4:4], RC (R62). -/
def FAB_ERR_STS.CFG (f : Nat) : Fld := ⟨0x101004 + f * 0x10000, 4, 1⟩

/-- `FAB_ERR_STS` [5:5], RC (R62). -/
def FAB_ERR_STS.VC1_CONFLICT (f : Nat) : Fld := ⟨0x101004 + f * 0x10000, 5, 1⟩

/-- `FAB_ERR_STS` [6:6], RC (R62). -/
def FAB_ERR_STS.ILLEGAL (f : Nat) : Fld := ⟨0x101004 + f * 0x10000, 6, 1⟩

/-- `FAB_ERR_STS` [7:7], RC (R62). -/
def FAB_ERR_STS.ROUTER_OUT (f : Nat) : Fld := ⟨0x101004 + f * 0x10000, 7, 1⟩

/-- `LINK_REPLAY_CNT`, 64-bit counter: offset of its low word (R62). -/
def LINK_REPLAY_CNT (f : Nat) : Nat := 0x101010 + f * 0x10000

/-- `VC1_CONFLICT_CNT`, 64-bit counter: offset of its low word (R62). -/
def VC1_CONFLICT_CNT (f : Nat) : Nat := 0x101018 + f * 0x10000

/-- `VC0_DISCARD_CNT`, 64-bit counter: offset of its low word (R62). -/
def VC0_DISCARD_CNT (f : Nat) : Nat := 0x101020 + f * 0x10000

/-- `SPARE_MAP` [4:0], RO (R62). -/
def SPARE_MAP.DEF_0 (f i : Nat) : Fld := ⟨0x101100 + f * 0x10000 + i * 0x4, 0, 5⟩

/-- `SPARE_MAP` [5:5], RO (R62). -/
def SPARE_MAP.RBYP_0 (f i : Nat) : Fld := ⟨0x101100 + f * 0x10000 + i * 0x4, 5, 1⟩

/-- `SPARE_MAP` [6:6], RO (R62). -/
def SPARE_MAP.ABSENT_0 (f i : Nat) : Fld := ⟨0x101100 + f * 0x10000 + i * 0x4, 6, 1⟩

/-- `SPARE_MAP` [7:7], RO (R62). -/
def SPARE_MAP.USED_0 (f i : Nat) : Fld := ⟨0x101100 + f * 0x10000 + i * 0x4, 7, 1⟩

/-- `SPARE_MAP` [12:8], RO (R62). -/
def SPARE_MAP.DEF_1 (f i : Nat) : Fld := ⟨0x101100 + f * 0x10000 + i * 0x4, 8, 5⟩

/-- `SPARE_MAP` [13:13], RO (R62). -/
def SPARE_MAP.RBYP_1 (f i : Nat) : Fld := ⟨0x101100 + f * 0x10000 + i * 0x4, 13, 1⟩

/-- `SPARE_MAP` [14:14], RO (R62). -/
def SPARE_MAP.ABSENT_1 (f i : Nat) : Fld := ⟨0x101100 + f * 0x10000 + i * 0x4, 14, 1⟩

/-- `SPARE_MAP` [15:15], RO (R62). -/
def SPARE_MAP.USED_1 (f i : Nat) : Fld := ⟨0x101100 + f * 0x10000 + i * 0x4, 15, 1⟩

/-- `SPARE_MAP` [20:16], RO (R62). -/
def SPARE_MAP.DEF_2 (f i : Nat) : Fld := ⟨0x101100 + f * 0x10000 + i * 0x4, 16, 5⟩

/-- `SPARE_MAP` [21:21], RO (R62). -/
def SPARE_MAP.RBYP_2 (f i : Nat) : Fld := ⟨0x101100 + f * 0x10000 + i * 0x4, 21, 1⟩

/-- `SPARE_MAP` [22:22], RO (R62). -/
def SPARE_MAP.ABSENT_2 (f i : Nat) : Fld := ⟨0x101100 + f * 0x10000 + i * 0x4, 22, 1⟩

/-- `SPARE_MAP` [23:23], RO (R62). -/
def SPARE_MAP.USED_2 (f i : Nat) : Fld := ⟨0x101100 + f * 0x10000 + i * 0x4, 23, 1⟩

/-- `SPARE_MAP` [28:24], RO (R62). -/
def SPARE_MAP.DEF_3 (f i : Nat) : Fld := ⟨0x101100 + f * 0x10000 + i * 0x4, 24, 5⟩

/-- `SPARE_MAP` [29:29], RO (R62). -/
def SPARE_MAP.RBYP_3 (f i : Nat) : Fld := ⟨0x101100 + f * 0x10000 + i * 0x4, 29, 1⟩

/-- `SPARE_MAP` [30:30], RO (R62). -/
def SPARE_MAP.ABSENT_3 (f i : Nat) : Fld := ⟨0x101100 + f * 0x10000 + i * 0x4, 30, 1⟩

/-- `SPARE_MAP` [31:31], RO (R62). -/
def SPARE_MAP.USED_3 (f i : Nat) : Fld := ⟨0x101100 + f * 0x10000 + i * 0x4, 31, 1⟩

/-- `MEM_ERR_STS` [0:0], RC (R90). -/
def MEM_ERR_STS.CE (f : Nat) : Fld := ⟨0x102000 + f * 0x10000, 0, 1⟩

/-- `MEM_ERR_STS` [1:1], RC (R90). -/
def MEM_ERR_STS.UE (f : Nat) : Fld := ⟨0x102000 + f * 0x10000, 1, 1⟩

/-- `MEM_ERR_STS` [2:2], RC (R90). -/
def MEM_ERR_STS.RANGE (f : Nat) : Fld := ⟨0x102000 + f * 0x10000, 2, 1⟩

/-- `MEM_ERR_STS` [3:3], RC (R90). -/
def MEM_ERR_STS.CNT_OVF (f : Nat) : Fld := ⟨0x102000 + f * 0x10000, 3, 1⟩

/-- `MEM_ERR_STS` [4:4], RC (R90). -/
def MEM_ERR_STS.HARD (f : Nat) : Fld := ⟨0x102000 + f * 0x10000, 4, 1⟩

/-- `MEM_ERR_STS` [5:5], RC (R90). -/
def MEM_ERR_STS.SCRUB_LATE (f : Nat) : Fld := ⟨0x102000 + f * 0x10000, 5, 1⟩

/-- `MEM_SCRUB_CTRL` [2:0], RW (R90). -/
def MEM_SCRUB_CTRL.PACE (f : Nat) : Fld := ⟨0x102004 + f * 0x10000, 0, 3⟩

/-- `MEM_ECC_LAST` [6:0], RO (R90). -/
def MEM_ECC_LAST.COL (f : Nat) : Fld := ⟨0x102008 + f * 0x10000, 0, 7⟩

/-- `MEM_ECC_LAST` [11:7], RO (R90). -/
def MEM_ECC_LAST.ROW (f : Nat) : Fld := ⟨0x102008 + f * 0x10000, 7, 5⟩

/-- `MEM_ECC_LAST` [26:12], RO (R90). -/
def MEM_ECC_LAST.GRANULE (f : Nat) : Fld := ⟨0x102008 + f * 0x10000, 12, 15⟩

/-- `MEM_ECC_LAST` [29:27], RO (R90). -/
def MEM_ECC_LAST.WORD (f : Nat) : Fld := ⟨0x102008 + f * 0x10000, 27, 3⟩

/-- `MEM_ECC_LAST` [30:30], RO (R90). -/
def MEM_ECC_LAST.UE (f : Nat) : Fld := ⟨0x102008 + f * 0x10000, 30, 1⟩

/-- `MEM_ECC_LAST` [31:31], RC (R90). -/
def MEM_ECC_LAST.V (f : Nat) : Fld := ⟨0x102008 + f * 0x10000, 31, 1⟩

/-- `MEM_COLL_LAST` [6:0], RO (R90). -/
def MEM_COLL_LAST.COL (f : Nat) : Fld := ⟨0x10200c + f * 0x10000, 0, 7⟩

/-- `MEM_COLL_LAST` [11:7], RO (R90). -/
def MEM_COLL_LAST.ROW (f : Nat) : Fld := ⟨0x10200c + f * 0x10000, 7, 5⟩

/-- `MEM_COLL_LAST` [18:12], RO (R90). -/
def MEM_COLL_LAST.BANK (f : Nat) : Fld := ⟨0x10200c + f * 0x10000, 12, 7⟩

/-- `MEM_COLL_LAST` [21:19], RO (R90). -/
def MEM_COLL_LAST.WINNER (f : Nat) : Fld := ⟨0x10200c + f * 0x10000, 19, 3⟩

/-- `MEM_COLL_LAST` [24:22], RO (R90). -/
def MEM_COLL_LAST.LOSER (f : Nat) : Fld := ⟨0x10200c + f * 0x10000, 22, 3⟩

/-- `MEM_COLL_LAST` [25:25], RO (R90). -/
def MEM_COLL_LAST.AGED (f : Nat) : Fld := ⟨0x10200c + f * 0x10000, 25, 1⟩

/-- `MEM_COLL_LAST` [31:31], RC (R90). -/
def MEM_COLL_LAST.V (f : Nat) : Fld := ⟨0x10200c + f * 0x10000, 31, 1⟩

/-- `MEM_COLL_CNT`, 64-bit counter: offset of its low word (R90). -/
def MEM_COLL_CNT (f : Nat) : Nat := 0x102010 + f * 0x10000

/-- `MEM_OFFCLASS_CNT`, 64-bit counter: offset of its low word (R90). -/
def MEM_OFFCLASS_CNT (f : Nat) : Nat := 0x102018 + f * 0x10000

/-- `MEM_CE_CNT`, 64-bit counter: offset of its low word (R90). -/
def MEM_CE_CNT (f : Nat) : Nat := 0x102020 + f * 0x10000

/-- `MEM_UE_CNT`, 64-bit counter: offset of its low word (R90). -/
def MEM_UE_CNT (f : Nat) : Nat := 0x102028 + f * 0x10000

/-- `MEM_SCRUB_PASS_CNT`, 64-bit counter: offset of its low word (R90). -/
def MEM_SCRUB_PASS_CNT (f : Nat) : Nat := 0x102030 + f * 0x10000

/-- `FLD_HOLD_LAST` [6:0], RO (R176). -/
def FLD_HOLD_LAST.COL (f : Nat) : Fld := ⟨0x103000 + f * 0x10000, 0, 7⟩

/-- `FLD_HOLD_LAST` [11:7], RO (R176). -/
def FLD_HOLD_LAST.ROW (f : Nat) : Fld := ⟨0x103000 + f * 0x10000, 7, 5⟩

/-- `FLD_HOLD_LAST` [13:12], RO (R176). -/
def FLD_HOLD_LAST.CAUSE (f : Nat) : Fld := ⟨0x103000 + f * 0x10000, 12, 2⟩

/-- `FLD_HOLD_LAST` [29:14], RO (R176). -/
def FLD_HOLD_LAST.OFFSET (f : Nat) : Fld := ⟨0x103000 + f * 0x10000, 14, 16⟩

/-- `FLD_HOLD_LAST` [31:31], RC (R176). -/
def FLD_HOLD_LAST.V (f : Nat) : Fld := ⟨0x103000 + f * 0x10000, 31, 1⟩

/-- `FLD_HOLD_CNT`, 64-bit counter: offset of its low word (R176). -/
def FLD_HOLD_CNT (f : Nat) : Nat := 0x103008 + f * 0x10000

/-- `FLD_FLT_LAST` [6:0], RO (R374). -/
def FLD_FLT_LAST.COL (f : Nat) : Fld := ⟨0x104000 + f * 0x10000, 0, 7⟩

/-- `FLD_FLT_LAST` [11:7], RO (R374). -/
def FLD_FLT_LAST.ROW (f : Nat) : Fld := ⟨0x104000 + f * 0x10000, 7, 5⟩

/-- `FLD_FLT_LAST` [17:12], RO (R374). -/
def FLD_FLT_LAST.CAUSE (f : Nat) : Fld := ⟨0x104000 + f * 0x10000, 12, 6⟩

/-- `FLD_FLT_LAST` [31:31], RC (R374). -/
def FLD_FLT_LAST.V (f : Nat) : Fld := ⟨0x104000 + f * 0x10000, 31, 1⟩

/-- `FLD_FLT_CNT`, 64-bit counter: offset of its low word (R374). -/
def FLD_FLT_CNT (f : Nat) : Nat := 0x104008 + f * 0x10000

/-- `FLD_PWR_STS` [0:0], RC (R411). -/
def FLD_PWR_STS.PHASE_FAIL (f : Nat) : Fld := ⟨0x105000 + f * 0x10000, 0, 1⟩

/-- `FLD_PWR_STS` [1:1], RC (R411). -/
def FLD_PWR_STS.LIMIT (f : Nat) : Fld := ⟨0x105000 + f * 0x10000, 1, 1⟩

/-- `FLD_PWR_STS` [2:2], RC (R411). -/
def FLD_PWR_STS.VCM_EVENT (f : Nat) : Fld := ⟨0x105000 + f * 0x10000, 2, 1⟩

/-- `FLD_PWR_STS` [3:3], RC (R411). -/
def FLD_PWR_STS.THROTTLE (f : Nat) : Fld := ⟨0x105000 + f * 0x10000, 3, 1⟩

/-- `FLD_PWR_STS` [4:4], RC (R411). -/
def FLD_PWR_STS.PAIR_SUSPECT (f : Nat) : Fld := ⟨0x105000 + f * 0x10000, 4, 1⟩

/-- `FLD_PWR_STS` [5:5], RC (R411). -/
def FLD_PWR_STS.NO_PAIRS (f : Nat) : Fld := ⟨0x105000 + f * 0x10000, 5, 1⟩

/-- `FLD_PWR_STATE` [4:0], RO (R411). -/
def FLD_PWR_STATE.PHASES (f : Nat) : Fld := ⟨0x105004 + f * 0x10000, 0, 5⟩

/-- `FLD_PWR_STATE` [5:5], RO (R411). -/
def FLD_PWR_STATE.VCM_SUSPECT (f : Nat) : Fld := ⟨0x105004 + f * 0x10000, 5, 1⟩

/-- `FLD_PWR_STATE` [12:8], RO (R411). -/
def FLD_PWR_STATE.G (f : Nat) : Fld := ⟨0x105004 + f * 0x10000, 8, 5⟩

/-- `FLD_PWR_STATE` [15:13], RO (R411). -/
def FLD_PWR_STATE.SRC (f : Nat) : Fld := ⟨0x105004 + f * 0x10000, 13, 3⟩

/-- `FLD_VCL` [9:0], RO (R411). -/
def FLD_VCL.MV (f : Nat) : Fld := ⟨0x105008 + f * 0x10000, 0, 10⟩

/-- `FLD_VCL` [25:16], RO (R411). -/
def FLD_VCL.A (f : Nat) : Fld := ⟨0x105008 + f * 0x10000, 16, 10⟩

/-- `FLD_VCL_SET` [9:0], RO (R411). -/
def FLD_VCL_SET.VCL (f : Nat) : Fld := ⟨0x10500c + f * 0x10000, 0, 10⟩

/-- `FLD_PHASE` [15:0], RO (R411). -/
def FLD_PHASE.VALUE (f : Nat) : Fld := ⟨0x105010 + f * 0x10000, 0, 16⟩

/-- `FLD_TEMP` [8:0], RO (R411). -/
def FLD_TEMP.T (f : Nat) : Fld := ⟨0x105014 + f * 0x10000, 0, 9⟩

/-- `FLD_TEMP` [12:9], RO (R411). -/
def FLD_TEMP.PAIR (f : Nat) : Fld := ⟨0x105014 + f * 0x10000, 9, 4⟩

/-- `FLD_TEMP` [31:16], RO (R411). -/
def FLD_TEMP.SUSPECT (f : Nat) : Fld := ⟨0x105014 + f * 0x10000, 16, 16⟩

/-- `FLD_PAIR` [8:0], RO (R411). -/
def FLD_PAIR.A (f i : Nat) : Fld := ⟨0x105040 + f * 0x10000 + i * 0x4, 0, 9⟩

/-- `FLD_PAIR` [17:9], RO (R411). -/
def FLD_PAIR.B (f i : Nat) : Fld := ⟨0x105040 + f * 0x10000 + i * 0x4, 9, 9⟩

/-- `FLD_PAIR` [18:18], RO (R411). -/
def FLD_PAIR.A_DISC (f i : Nat) : Fld := ⟨0x105040 + f * 0x10000 + i * 0x4, 18, 1⟩

/-- `FLD_PAIR` [19:19], RO (R411). -/
def FLD_PAIR.B_DISC (f i : Nat) : Fld := ⟨0x105040 + f * 0x10000 + i * 0x4, 19, 1⟩

/-- `FLD_PAIR` [20:20], RO (R411). -/
def FLD_PAIR.SUSPECT (f i : Nat) : Fld := ⟨0x105040 + f * 0x10000 + i * 0x4, 20, 1⟩

/-- `HS_STS` [0:0], RC (R211). -/
def HS_STS.CE (n : Nat) : Fld := ⟨0x1300000 + n * 0x10000, 0, 1⟩

/-- `HS_STS` [1:1], RC (R211). -/
def HS_STS.UE (n : Nat) : Fld := ⟨0x1300000 + n * 0x10000, 1, 1⟩

/-- `HS_STS` [2:2], RC (R211). -/
def HS_STS.PARITY (n : Nat) : Fld := ⟨0x1300000 + n * 0x10000, 2, 1⟩

/-- `HS_STS` [3:3], RC (R211). -/
def HS_STS.TEMP (n : Nat) : Fld := ⟨0x1300000 + n * 0x10000, 3, 1⟩

/-- `HS_STS` [4:4], RC (R211). -/
def HS_STS.SCRUB_LATE (n : Nat) : Fld := ⟨0x1300000 + n * 0x10000, 4, 1⟩

/-- `HS_STS` [5:5], RC (R211). -/
def HS_STS.TRAIN (n : Nat) : Fld := ⟨0x1300000 + n * 0x10000, 5, 1⟩

/-- `HS_STATE` [1:0], RO (R211). -/
def HS_STATE.STATE (n : Nat) : Fld := ⟨0x1300004 + n * 0x10000, 0, 2⟩

/-- `HS_STATE` [2:2], RO (R211). -/
def HS_STATE.SVC (n : Nat) : Fld := ⟨0x1300004 + n * 0x10000, 2, 1⟩

/-- `HS_STATE` [4:3], RO (R211). -/
def HS_STATE.RATE (n : Nat) : Fld := ⟨0x1300004 + n * 0x10000, 3, 2⟩

/-- `HS_STATE` [15:8], RO (R211). -/
def HS_STATE.TEMP (n : Nat) : Fld := ⟨0x1300004 + n * 0x10000, 8, 8⟩

/-- `HS_UE_LAST` [30:0], RO (R211). -/
def HS_UE_LAST.VALUE (n : Nat) : Fld := ⟨0x1300008 + n * 0x10000, 0, 31⟩

/-- `HS_UE_LAST` [31:31], RC (R211). -/
def HS_UE_LAST.V (n : Nat) : Fld := ⟨0x1300008 + n * 0x10000, 31, 1⟩

/-- `HS_UE_LAST_HI` [3:0], RO (R211). -/
def HS_UE_LAST_HI.VALUE (n : Nat) : Fld := ⟨0x130000c + n * 0x10000, 0, 4⟩

/-- `HS_CE_CNT`, 64-bit counter: offset of its low word (R211). -/
def HS_CE_CNT (n : Nat) : Nat := 0x1300010 + n * 0x10000

/-- `HS_UE_CNT`, 64-bit counter: offset of its low word (R211). -/
def HS_UE_CNT (n : Nat) : Nat := 0x1300018 + n * 0x10000

/-- `HS_RETRY_CNT`, 64-bit counter: offset of its low word (R211). -/
def HS_RETRY_CNT (n : Nat) : Nat := 0x1300020 + n * 0x10000

/-- `HS_RD_GR_CNT`, 64-bit counter: offset of its low word (R211). -/
def HS_RD_GR_CNT (n : Nat) : Nat := 0x1300028 + n * 0x10000

/-- `HS_WR_GR_CNT`, 64-bit counter: offset of its low word (R211). -/
def HS_WR_GR_CNT (n : Nat) : Nat := 0x1300030 + n * 0x10000

/-- `HS_SCRUB_PASS_CNT`, 64-bit counter: offset of its low word (R211). -/
def HS_SCRUB_PASS_CNT (n : Nat) : Nat := 0x1300038 + n * 0x10000

/-- `HS_SCRUB_POS` [15:0], RO (R211). -/
def HS_SCRUB_POS.VALUE (n : Nat) : Fld := ⟨0x1300040 + n * 0x10000, 0, 16⟩

/-- `HS_UE_PAGE` [27:0], RO (R211). -/
def HS_UE_PAGE.PAGE (n : Nat) : Fld := ⟨0x1300044 + n * 0x10000, 0, 28⟩

/-- `HS_UE_PAGE` [31:28], RO (R211). -/
def HS_UE_PAGE.MODEL (n : Nat) : Fld := ⟨0x1300044 + n * 0x10000, 28, 4⟩

/-- `HS_UE_SEQ` [11:0], RO (R211). -/
def HS_UE_SEQ.SEQ (n : Nat) : Fld := ⟨0x1300048 + n * 0x10000, 0, 12⟩

/-- `HS_UE_SEQ` [12:12], RO (R211). -/
def HS_UE_SEQ.SHARED (n : Nat) : Fld := ⟨0x1300048 + n * 0x10000, 12, 1⟩

/-- `HS_UE_SEQ` [13:13], RO (R211). -/
def HS_UE_SEQ.PATROL (n : Nat) : Fld := ⟨0x1300048 + n * 0x10000, 13, 1⟩

/-- `HS_UE_SEQ` [31:31], RC (R211). -/
def HS_UE_SEQ.V (n : Nat) : Fld := ⟨0x1300048 + n * 0x10000, 31, 1⟩

/-- `PAIR_STS` [0:0], RC (R340). -/
def PAIR_STS.ISOLATED : Fld := ⟨0x1400000, 0, 1⟩

/-- `PAIR_STS` [1:1], RC (R340). -/
def PAIR_STS.TAKEOVER : Fld := ⟨0x1400000, 1, 1⟩

/-- `PAIR_STS` [2:2], RC (R340). -/
def PAIR_STS.PARTNER_FAIL : Fld := ⟨0x1400000, 2, 1⟩

/-- `PAIR_STS` [3:3], RC (R340). -/
def PAIR_STS.DEGRADED : Fld := ⟨0x1400000, 3, 1⟩

/-- `PAIR_STS` [4:4], RC (R340). -/
def PAIR_STS.CABLE : Fld := ⟨0x1400000, 4, 1⟩

/-- `PAIR_STS` [5:5], RC (R340). -/
def PAIR_STS.DIVERGE : Fld := ⟨0x1400000, 5, 1⟩

/-- `PAIR_STS` [6:6], RC (R340). -/
def PAIR_STS.BEAT_SKEW : Fld := ⟨0x1400000, 6, 1⟩

/-- `PAIR_STS` [7:7], RC (R340). -/
def PAIR_STS.LAG_FULL : Fld := ⟨0x1400000, 7, 1⟩

/-- `PAIR_STS` [8:8], RC (R340). -/
def PAIR_STS.EPOCH_REFUSED : Fld := ⟨0x1400000, 8, 1⟩

/-- `PAIR_CFG` [1:0], RW (R340). -/
def PAIR_CFG.MODE : Fld := ⟨0x1400004, 0, 2⟩

/-- `PAIR_CFG` [15:8], RW (R340). -/
def PAIR_CFG.MAXLAG : Fld := ⟨0x1400004, 8, 8⟩

/-- `PAIR_STATE` [2:0], RO (R340). -/
def PAIR_STATE.STATE : Fld := ⟨0x1400008, 0, 3⟩

/-- `PAIR_STATE` [3:3], RO (R340). -/
def PAIR_STATE.SENIOR : Fld := ⟨0x1400008, 3, 1⟩

/-- `PAIR_STATE` [7:4], RO (R340). -/
def PAIR_STATE.PORTS : Fld := ⟨0x1400008, 4, 4⟩

/-- `PAIR_EPOCH` [31:0], RO (R340). -/
def PAIR_EPOCH.VALUE : Fld := ⟨0x140000c, 0, 32⟩

/-- `PAIR_ARB_EPOCH` [31:0], RW (R340). -/
def PAIR_ARB_EPOCH.VALUE : Fld := ⟨0x1400010, 0, 32⟩

/-- `PAIR_ARB_CTRL` [1:0], WO (R340). -/
def PAIR_ARB_CTRL.ACTION : Fld := ⟨0x1400014, 0, 2⟩

/-- `BEAT_OFFSET` [31:0], RO (R340). -/
def BEAT_OFFSET.VALUE : Fld := ⟨0x1400018, 0, 32⟩

/-- `MIRROR_LAG` [15:0], RO (R340). -/
def MIRROR_LAG.VALUE : Fld := ⟨0x140001c, 0, 16⟩

/-- `MIRROR_GROUP_CNT`, 64-bit counter: offset of its low word (R340). -/
def MIRROR_GROUP_CNT : Nat := 0x1400020

/-- `MIRROR_BYTE_CNT`, 64-bit counter: offset of its low word (R340). -/
def MIRROR_BYTE_CNT : Nat := 0x1400028

/-- `SPLIT_CTRL` [0:0], RW (R340). -/
def SPLIT_CTRL.EN (i : Nat) : Fld := ⟨0x1400100 + i * 0x10, 0, 1⟩

/-- `SPLIT_CTRL` [8:1], RW (R340). -/
def SPLIT_CTRL.CUT (i : Nat) : Fld := ⟨0x1400100 + i * 0x10, 1, 8⟩

/-- `SPLIT_TAB` [31:4], RW (R340). -/
def SPLIT_TAB.VALUE (i : Nat) : Fld := ⟨0x1400104 + i * 0x10, 4, 28⟩

/-- `SPLIT_TAB_HI` [31:0], RW (R340). -/
def SPLIT_TAB_HI.VALUE (i : Nat) : Fld := ⟨0x1400108 + i * 0x10, 0, 32⟩

/-- `SPLIT_COUNT` [15:0], RW (R340). -/
def SPLIT_COUNT.VALUE (i : Nat) : Fld := ⟨0x140010c + i * 0x10, 0, 16⟩

/-- `SPAN_STS` [0:0], RC (R341). -/
def SPAN_STS.DEGRADED (i : Nat) : Fld := ⟨0x1401000 + i * 0x1000, 0, 1⟩

/-- `SPAN_STS` [1:1], RC (R341). -/
def SPAN_STS.RETRAIN (i : Nat) : Fld := ⟨0x1401000 + i * 0x1000, 1, 1⟩

/-- `SPAN_STS` [2:2], RC (R341). -/
def SPAN_STS.DOWN (i : Nat) : Fld := ⟨0x1401000 + i * 0x1000, 2, 1⟩

/-- `SPAN_STS` [3:3], RC (R341). -/
def SPAN_STS.PROTO (i : Nat) : Fld := ⟨0x1401000 + i * 0x1000, 3, 1⟩

/-- `SPAN_STATE` [2:0], RO (R341). -/
def SPAN_STATE.STATE (i : Nat) : Fld := ⟨0x1401004 + i * 0x1000, 0, 3⟩

/-- `SPAN_STATE` [4:3], RO (R341). -/
def SPAN_STATE.WIDTH (i : Nat) : Fld := ⟨0x1401004 + i * 0x1000, 3, 2⟩

/-- `SPAN_CTRL` [0:0], WO (R341). -/
def SPAN_CTRL.RETRAIN (i : Nat) : Fld := ⟨0x1401008 + i * 0x1000, 0, 1⟩

/-- `SPAN_FEC_CNT`, 64-bit counter: offset of its low word (R341). -/
def SPAN_FEC_CNT (i : Nat) : Nat := 0x1401010 + i * 0x1000

/-- `SPAN_CRC_CNT`, 64-bit counter: offset of its low word (R341). -/
def SPAN_CRC_CNT (i : Nat) : Nat := 0x1401018 + i * 0x1000

/-- `SPAN_REPLAY_CNT`, 64-bit counter: offset of its low word (R341). -/
def SPAN_REPLAY_CNT (i : Nat) : Nat := 0x1401020 + i * 0x1000

/-- `SPAN_RETRAIN_CNT`, 64-bit counter: offset of its low word (R341). -/
def SPAN_RETRAIN_CNT (i : Nat) : Nat := 0x1401028 + i * 0x1000

/-- `SPAN_PROTO_CNT`, 64-bit counter: offset of its low word (R341). -/
def SPAN_PROTO_CNT (i : Nat) : Nat := 0x1401030 + i * 0x1000

/-- `MBX_CMD` [7:0], RW (R457). -/
def MBX_CMD.OP : Fld := ⟨0x1500000, 0, 8⟩

/-- `MBX_CMD` [31:31], WO (R457). -/
def MBX_CMD.GO : Fld := ⟨0x1500000, 31, 1⟩

/-- `MBX_STS` [0:0], RC (R457). -/
def MBX_STS.DONE : Fld := ⟨0x1500004, 0, 1⟩

/-- `MBX_STS` [1:1], RC (R457). -/
def MBX_STS.ERR : Fld := ⟨0x1500004, 1, 1⟩

/-- `MBX_STATE` [0:0], RO (R457). -/
def MBX_STATE.BUSY : Fld := ⟨0x1500008, 0, 1⟩

/-- `MBX_STATE` [15:8], RO (R457). -/
def MBX_STATE.ERROR : Fld := ⟨0x1500008, 8, 8⟩

/-- `MBX_STATE` [31:16], RO (R457). -/
def MBX_STATE.LEN : Fld := ⟨0x1500008, 16, 16⟩

/-- `MBX_ADDR` [31:6], RW (R457). -/
def MBX_ADDR.VALUE : Fld := ⟨0x1500010, 6, 26⟩

/-- `MBX_ADDR_HI` [31:0], RW (R457). -/
def MBX_ADDR_HI.VALUE : Fld := ⟨0x1500014, 0, 32⟩

/-- `IDENT_STATE` [14:0], RO (R457). -/
def IDENT_STATE.LOWER : Fld := ⟨0x1500018, 0, 15⟩

/-- `IDENT_STATE` [15:15], RO (R457). -/
def IDENT_STATE.BUILT : Fld := ⟨0x1500018, 15, 1⟩

/-- `IDENT_STATE` [31:16], RO (R457). -/
def IDENT_STATE.LEFT : Fld := ⟨0x1500018, 16, 16⟩

/-- `IDENT_TOP` [15:0], RO (R457). -/
def IDENT_TOP.VALUE : Fld := ⟨0x150001c, 0, 16⟩

/-- `SEC_STS` [0:0], RC (R457). -/
def SEC_STS.ATTESTED : Fld := ⟨0x1500020, 0, 1⟩

/-- `SEC_STS` [1:1], RC (R457). -/
def SEC_STS.KEYS : Fld := ⟨0x1500020, 1, 1⟩

/-- `SEC_STS` [2:2], RC (R457). -/
def SEC_STS.ZERO_DONE : Fld := ⟨0x1500020, 2, 1⟩

/-- `SEC_STS` [3:3], RC (R457). -/
def SEC_STS.ZERO_PART : Fld := ⟨0x1500020, 3, 1⟩

/-- `SEC_STS` [4:4], RC (R457). -/
def SEC_STS.LOW_INDEX : Fld := ⟨0x1500020, 4, 1⟩

/-- `SEC_STS` [5:5], RC (R457). -/
def SEC_STS.EXHAUSTED : Fld := ⟨0x1500020, 5, 1⟩

/-- `SEC_STS` [6:6], RC (R457). -/
def SEC_STS.SVN : Fld := ⟨0x1500020, 6, 1⟩

/-- `ZERO_STATE` [0:0], RO (R457). -/
def ZERO_STATE.BUSY : Fld := ⟨0x1500024, 0, 1⟩

/-- `ZERO_STATE` [12:1], RO (R457). -/
def ZERO_STATE.STACKS : Fld := ⟨0x1500024, 1, 12⟩

/-- `FUSE_SVN` [6:0], RO (R457). -/
def FUSE_SVN.FUSE_SVN : Fld := ⟨0x1500028, 0, 7⟩

/-- `FUSE_SVN` [7:7], RO (R457). -/
def FUSE_SVN.REVOKE0 : Fld := ⟨0x1500028, 7, 1⟩

/-- `KEY_EPOCH` [31:0], RO (R457). -/
def KEY_EPOCH.VALUE : Fld := ⟨0x150002c, 0, 32⟩

end F

namespace O

/-- Window offset of `DEV_ID` (R475). -/
def DEV_ID : Nat := 0x0

/-- Window offset of `DEV_VER` (R475). -/
def DEV_VER : Nat := 0x4

/-- Window offset of `DEV_SERIAL` (R475). -/
def DEV_SERIAL (i : Nat) : Nat := 0x8 + i * 0x4

/-- Window offset of `MOD_CTRL` (R475). -/
def MOD_CTRL : Nat := 0x20

/-- Window offset of `SCRATCH` (R475). -/
def SCRATCH (i : Nat) : Nat := 0x30 + i * 0x4

/-- Window offset of `PIN_STS` (R508). -/
def PIN_STS : Nat := 0x100

/-- Window offset of `PIN_STATE` (R508). -/
def PIN_STATE : Nat := 0x104

/-- Window offset of `STS_SUM0` (R476). -/
def STS_SUM0 : Nat := 0x1000

/-- Window offset of `STS_SUM1` (R476). -/
def STS_SUM1 : Nat := 0x1004

/-- Window offset of `FIELD_SUM0` (R476). -/
def FIELD_SUM0 : Nat := 0x1008

/-- Window offset of `FIELD_SUM1` (R476). -/
def FIELD_SUM1 : Nat := 0x100c

/-- Window offset of `FIELD_SUM2` (R476). -/
def FIELD_SUM2 : Nat := 0x1010

/-- Window offset of `CELL_WIN_STS` (R478). -/
def CELL_WIN_STS : Nat := 0x2000

/-- Window offset of `CELL_WIN_CELL` (R478). -/
def CELL_WIN_CELL : Nat := 0x2004

/-- Window offset of `CELL_WIN_WORD` (R478). -/
def CELL_WIN_WORD : Nat := 0x2008

/-- Window offset of `CELL_WIN_DATA` (R478). -/
def CELL_WIN_DATA : Nat := 0x200c

/-- Window offset of `CELL_WIN_CTRL` (R478). -/
def CELL_WIN_CTRL : Nat := 0x2010

/-- Window offset of `CELL_WIN_STATE` (R478). -/
def CELL_WIN_STATE : Nat := 0x2014

/-- Window offset of `SCHED_CTRL` (R173). -/
def SCHED_CTRL : Nat := 0x3000

/-- Window offset of `SCHED_STS` (R173). -/
def SCHED_STS : Nat := 0x3004

/-- Window offset of `LOAD_CTRL` (R173). -/
def LOAD_CTRL : Nat := 0x3080

/-- Window offset of `LOAD_STATE` (R173). -/
def LOAD_STATE : Nat := 0x3084

/-- Window offset of `LOAD_CELL` (R173). -/
def LOAD_CELL : Nat := 0x3088

/-- Window offset of `LOAD_DETAIL` (R173). -/
def LOAD_DETAIL : Nat := 0x308c

/-- Window offset of `LOAD_TABLE` (R173). -/
def LOAD_TABLE : Nat := 0x3090

/-- Window offset of `LOAD_TABLE_HI` (R173). -/
def LOAD_TABLE_HI : Nat := 0x3094

/-- Window offset of `MODEL_SCHED` (R173). -/
def MODEL_SCHED (i : Nat) : Nat := 0x30c0 + i * 0x4

/-- Window offset of `BEAT_STS` (R174). -/
def BEAT_STS : Nat := 0x4000

/-- Window offset of `BEAT_STATE` (R174). -/
def BEAT_STATE : Nat := 0x4004

/-- Window offset of `BEAT_PERIOD` (R174). -/
def BEAT_PERIOD : Nat := 0x4008

/-- Window offset of `BUDGET_STS` (R175). -/
def BUDGET_STS : Nat := 0x5000

/-- Window offset of `BUDGET_HELD` (R175). -/
def BUDGET_HELD : Nat := 0x5004

/-- Window offset of `LIM_FLIT` (R175). -/
def LIM_FLIT (i : Nat) : Nat := 0x5100 + i * 0x40

/-- Window offset of `LIM_STACK` (R175). -/
def LIM_STACK (i : Nat) : Nat := 0x5104 + i * 0x40

/-- Window offset of `LIM_MJ` (R175). -/
def LIM_MJ (i : Nat) : Nat := 0x5108 + i * 0x40

/-- Window offset of `USED_FLIT` (R175). -/
def USED_FLIT (i : Nat) : Nat := 0x5110 + i * 0x40

/-- Window offset of `USED_STACK` (R175). -/
def USED_STACK (i : Nat) : Nat := 0x5114 + i * 0x40

/-- Window offset of `USED_MJ` (R175). -/
def USED_MJ (i : Nat) : Nat := 0x5118 + i * 0x40

/-- Window offset of `LAST_FLIT` (R175). -/
def LAST_FLIT (i : Nat) : Nat := 0x5120 + i * 0x40

/-- Window offset of `LAST_STACK` (R175). -/
def LAST_STACK (i : Nat) : Nat := 0x5124 + i * 0x40

/-- Window offset of `LAST_MJ` (R175). -/
def LAST_MJ (i : Nat) : Nat := 0x5128 + i * 0x40

/-- Window offset of `PREC_STS` (R133). -/
def PREC_STS : Nat := 0x6000

/-- Window offset of `PREC_CTRL` (R133). -/
def PREC_CTRL : Nat := 0x6004

/-- Window offset of `PREC_FRAME` (R133). -/
def PREC_FRAME : Nat := 0x6008

/-- Window offset of `PREC_MODEL_STS` (R133). -/
def PREC_MODEL_STS : Nat := 0x600c

/-- Window offset of `PREC_SEL` (R133). -/
def PREC_SEL : Nat := 0x6010

/-- Window offset of `PREC_LAYER_STS` (R133). -/
def PREC_LAYER_STS : Nat := 0x6014

/-- Window offset of `WIDEN_STATE` (R133). -/
def WIDEN_STATE : Nat := 0x6018

/-- Window offset of `RECIPE_WIN_SEL` (R133). -/
def RECIPE_WIN_SEL : Nat := 0x6040

/-- Window offset of `RECIPE_WIN_DATA` (R133). -/
def RECIPE_WIN_DATA : Nat := 0x6044

/-- Window offset of `MODEL_RECIPE` (R133). -/
def MODEL_RECIPE (i : Nat) : Nat := 0x6080 + i * 0x4

/-- Window offset of `KV_STS` (R210). -/
def KV_STS : Nat := 0x7000

/-- Window offset of `KV_CTRL` (R210). -/
def KV_CTRL : Nat := 0x7004

/-- Window offset of `POOL_BASE` (R210). -/
def POOL_BASE (i : Nat) : Nat := 0x7100 + i * 0x30

/-- Window offset of `POOL_GEOM` (R210). -/
def POOL_GEOM (i : Nat) : Nat := 0x7104 + i * 0x30

/-- Window offset of `SIDE_BASE` (R210). -/
def SIDE_BASE (i : Nat) : Nat := 0x7108 + i * 0x30

/-- Window offset of `POOL_PAGES` (R210). -/
def POOL_PAGES (i : Nat) : Nat := 0x710c + i * 0x30

/-- Window offset of `POOL_FREE` (R210). -/
def POOL_FREE (i : Nat) : Nat := 0x7110 + i * 0x30

/-- Window offset of `POOL_FREELIST` (R210). -/
def POOL_FREELIST (i : Nat) : Nat := 0x7114 + i * 0x30

/-- Window offset of `POS_LIMIT` (R210). -/
def POS_LIMIT (i : Nat) : Nat := 0x7118 + i * 0x30

/-- Window offset of `SPILL_BASE` (R210). -/
def SPILL_BASE (i : Nat) : Nat := 0x711c + i * 0x30

/-- Window offset of `SPILL_SIZE` (R210). -/
def SPILL_SIZE (i : Nat) : Nat := 0x7120 + i * 0x30

/-- Window offset of `POOL_CTRL` (R210). -/
def POOL_CTRL (i : Nat) : Nat := 0x7124 + i * 0x30

/-- Window offset of `SVC_STS` (R251). -/
def SVC_STS : Nat := 0x8000

/-- Window offset of `SVC_CTRL` (R251). -/
def SVC_CTRL : Nat := 0x8004

/-- Window offset of `CMD_RING_BASE` (R251). -/
def CMD_RING_BASE (i : Nat) : Nat := 0x8100 + i * 0x10

/-- Window offset of `CMD_RING_BASE_HI` (R251). -/
def CMD_RING_BASE_HI (i : Nat) : Nat := 0x8104 + i * 0x10

/-- Window offset of `CMD_RING_CFG` (R251). -/
def CMD_RING_CFG (i : Nat) : Nat := 0x8108 + i * 0x10

/-- Window offset of `OUT_RING_BASE` (R251). -/
def OUT_RING_BASE (i : Nat) : Nat := 0x8200 + i * 0x10

/-- Window offset of `OUT_RING_BASE_HI` (R251). -/
def OUT_RING_BASE_HI (i : Nat) : Nat := 0x8204 + i * 0x10

/-- Window offset of `OUT_RING_CFG` (R251). -/
def OUT_RING_CFG (i : Nat) : Nat := 0x8208 + i * 0x10

/-- Window offset of `TELE_RING_BASE` (R251). -/
def TELE_RING_BASE : Nat := 0x8300

/-- Window offset of `TELE_RING_BASE_HI` (R251). -/
def TELE_RING_BASE_HI : Nat := 0x8304

/-- Window offset of `TELE_CFG` (R251). -/
def TELE_CFG : Nat := 0x8308

/-- Window offset of `TUNE_STS` (R272). -/
def TUNE_STS : Nat := 0x9000

/-- Window offset of `TUNE_CTRL` (R272). -/
def TUNE_CTRL : Nat := 0x9004

/-- Window offset of `TUNE_STATE` (R272). -/
def TUNE_STATE : Nat := 0x9008

/-- Window offset of `TUNE_CFG` (R272). -/
def TUNE_CFG : Nat := 0x900c

/-- Window offset of `TUNE_ROWS` (R272). -/
def TUNE_ROWS : Nat := 0x9010

/-- Window offset of `TUNE_RING_CFG` (R272). -/
def TUNE_RING_CFG : Nat := 0x9014

/-- Window offset of `TUNE_RING_BASE` (R272). -/
def TUNE_RING_BASE : Nat := 0x9018

/-- Window offset of `TUNE_RING_BASE_HI` (R272). -/
def TUNE_RING_BASE_HI : Nat := 0x901c

/-- Window offset of `OPT_STEP` (R272). -/
def OPT_STEP : Nat := 0x9020

/-- Window offset of `TUNE_LR` (R272). -/
def TUNE_LR : Nat := 0x9040

/-- Window offset of `TUNE_BETA1` (R272). -/
def TUNE_BETA1 : Nat := 0x9044

/-- Window offset of `TUNE_BETA2` (R272). -/
def TUNE_BETA2 : Nat := 0x9048

/-- Window offset of `TUNE_EPS` (R272). -/
def TUNE_EPS : Nat := 0x904c

/-- Window offset of `TUNE_WD` (R272). -/
def TUNE_WD : Nat := 0x9050

/-- Window offset of `TUNE_GSCALE` (R272). -/
def TUNE_GSCALE : Nat := 0x9054

/-- Window offset of `TUNE_CLAMP` (R272). -/
def TUNE_CLAMP : Nat := 0x9058

/-- Window offset of `TUNE_ALPHA` (R272). -/
def TUNE_ALPHA : Nat := 0x905c

/-- Window offset of `OCL_STS` (R306). -/
def OCL_STS : Nat := 0xa000

/-- Window offset of `OCL_STATE` (R306). -/
def OCL_STATE : Nat := 0xa004

/-- Window offset of `OCL_CTRL` (R306). -/
def OCL_CTRL : Nat := 0xa008

/-- Window offset of `OCL_ENC` (R306). -/
def OCL_ENC : Nat := 0xa00c

/-- Window offset of `DOORBELL` (R306). -/
def DOORBELL : Nat := 0xa010

/-- Window offset of `EVT_CFG` (R306). -/
def EVT_CFG : Nat := 0xa014

/-- Window offset of `EVT_RING_BASE` (R306). -/
def EVT_RING_BASE : Nat := 0xa018

/-- Window offset of `EVT_RING_BASE_HI` (R306). -/
def EVT_RING_BASE_HI : Nat := 0xa01c

/-- Window offset of `INTR_CFG` (R306). -/
def INTR_CFG : Nat := 0xa020

/-- Window offset of `INTR_EN` (R306). -/
def INTR_EN : Nat := 0xa024

/-- Window offset of `OCL_ERR_ADDR` (R306). -/
def OCL_ERR_ADDR : Nat := 0xa028

/-- Window offset of `OCL_ERR_ADDR_HI` (R306). -/
def OCL_ERR_ADDR_HI : Nat := 0xa02c

/-- Window offset of `EVT_SEL` (R306). -/
def EVT_SEL (i : Nat) : Nat := 0xa100 + i * 0x4

/-- Window offset of `FLT_STS` (R373). -/
def FLT_STS : Nat := 0xb000

/-- Window offset of `FLT_CTRL` (R373). -/
def FLT_CTRL : Nat := 0xb004

/-- Window offset of `FLT_LAST` (R373). -/
def FLT_LAST : Nat := 0xb008

/-- Window offset of `FATAL_CAUSE` (R373). -/
def FATAL_CAUSE : Nat := 0xb00c

/-- Window offset of `RST_CTRL` (R373). -/
def RST_CTRL : Nat := 0xb010

/-- Window offset of `RST_STS` (R373). -/
def RST_STS : Nat := 0xb014

/-- Window offset of `LEDGER_USE` (R373). -/
def LEDGER_USE : Nat := 0xb018

/-- Window offset of `RST_STATE` (R373). -/
def RST_STATE : Nat := 0xb01c

/-- Window offset of `PWR_STS` (R409). -/
def PWR_STS : Nat := 0xc000

/-- Window offset of `PWR_STATE` (R409). -/
def PWR_STATE : Nat := 0xc004

/-- Window offset of `PWR_CAP` (R409). -/
def PWR_CAP : Nat := 0xc008

/-- Window offset of `PWR_IN` (R409). -/
def PWR_IN : Nat := 0xc00c

/-- Window offset of `FEED_A` (R409). -/
def FEED_A : Nat := 0xc010

/-- Window offset of `FEED_B` (R409). -/
def FEED_B : Nat := 0xc014

/-- Window offset of `VCM_MON` (R409). -/
def VCM_MON : Nat := 0xc018

/-- Window offset of `THR_STS` (R410). -/
def THR_STS : Nat := 0xd000

/-- Window offset of `COOL_STATE` (R410). -/
def COOL_STATE : Nat := 0xd004

/-- Window offset of `COOL_CFG` (R410). -/
def COOL_CFG : Nat := 0xd008

/-- Window offset of `COOL_TEMP` (R410). -/
def COOL_TEMP : Nat := 0xd00c

/-- Window offset of `THR_MAX` (R410). -/
def THR_MAX : Nat := 0xd010

/-- Window offset of `THR_RELOC` (R410). -/
def THR_RELOC : Nat := 0xd014

/-- Window offset of `BOOT_STS` (R437). -/
def BOOT_STS : Nat := 0xe000

/-- Window offset of `BOOT_STATE` (R437). -/
def BOOT_STATE : Nat := 0xe004

/-- Window offset of `BOOT_REASON` (R437). -/
def BOOT_REASON : Nat := 0xe008

/-- Window offset of `BOOT_CTRL` (R437). -/
def BOOT_CTRL : Nat := 0xe00c

/-- Window offset of `BOOT_TIME` (R437). -/
def BOOT_TIME : Nat := 0xe010

/-- Window offset of `START_CNT` (R437). -/
def START_CNT : Nat := 0xe014

/-- Window offset of `DISCREP_CNT` (R437). -/
def DISCREP_CNT : Nat := 0xe018

/-- Window offset of `NEW_DEFECT` (R437). -/
def NEW_DEFECT : Nat := 0xe01c

/-- Window offset of `SHUT_CTRL` (R437). -/
def SHUT_CTRL : Nat := 0xe020

/-- Window offset of `JRNL_STATE` (R437). -/
def JRNL_STATE : Nat := 0xe030

/-- Window offset of `JRNL_SEQ` (R437). -/
def JRNL_SEQ : Nat := 0xe034

/-- Window offset of `STAGE_SRC` (R437). -/
def STAGE_SRC : Nat := 0xe040

/-- Window offset of `STAGE_SRC_HI` (R437). -/
def STAGE_SRC_HI : Nat := 0xe044

/-- Window offset of `STAGE_LEN` (R437). -/
def STAGE_LEN : Nat := 0xe048

/-- Window offset of `STAGE_CTRL` (R437). -/
def STAGE_CTRL : Nat := 0xe04c

/-- Window offset of `STAGE_STATE` (R437). -/
def STAGE_STATE : Nat := 0xe050

/-- Window offset of `MODEL_SVC` (R251). -/
def MODEL_SVC (i : Nat) : Nat := 0xf000 + i * 0x40

/-- Window offset of `ADM_BASE` (R251). -/
def ADM_BASE (i : Nat) : Nat := 0xf004 + i * 0x40

/-- Window offset of `ADM_PAGE_COST` (R251). -/
def ADM_PAGE_COST (i : Nat) : Nat := 0xf008 + i * 0x40

/-- Window offset of `HOT_CAP` (R251). -/
def HOT_CAP (i : Nat) : Nat := 0xf00c + i * 0x40

/-- Window offset of `ADM_SPILL_POS` (R251). -/
def ADM_SPILL_POS (i : Nat) : Nat := 0xf010 + i * 0x40

/-- Window offset of `POOL_RESV` (R251). -/
def POOL_RESV (i : Nat) : Nat := 0xf014 + i * 0x40

/-- Window offset of `MODEL_USE` (R251). -/
def MODEL_USE (i : Nat) : Nat := 0xf018 + i * 0x40

/-- Window offset of `STACK_AREA` (R251). -/
def STACK_AREA (i : Nat) : Nat := 0xf01c + i * 0x40

/-- Window offset of `STACK_SIZE` (R251). -/
def STACK_SIZE (i : Nat) : Nat := 0xf020 + i * 0x40

/-- Window offset of `SLICE_MAP` (R251). -/
def SLICE_MAP (i : Nat) : Nat := 0xf024 + i * 0x40

/-- Window offset of `SLICE_MAP_HI` (R251). -/
def SLICE_MAP_HI (i : Nat) : Nat := 0xf028 + i * 0x40

/-- Window offset of `SLICE_COUNT` (R251). -/
def SLICE_COUNT (i : Nat) : Nat := 0xf02c + i * 0x40

/-- Window offset of `SHAPE_TAB` (R251). -/
def SHAPE_TAB (i : Nat) : Nat := 0xf030 + i * 0x40

/-- Window offset of `SHAPE_TAB_HI` (R251). -/
def SHAPE_TAB_HI (i : Nat) : Nat := 0xf034 + i * 0x40

/-- Window offset of `FLD_ID` (R477). -/
def FLD_ID (f : Nat) : Nat := 0x100000 + f * 0x10000

/-- Window offset of `FLD_STS_SUM` (R477). -/
def FLD_STS_SUM (f : Nat) : Nat := 0x100004 + f * 0x10000

/-- Window offset of `FAB_CALDERA` (R62). -/
def FAB_CALDERA (f : Nat) : Nat := 0x101000 + f * 0x10000

/-- Window offset of `FAB_ERR_STS` (R62). -/
def FAB_ERR_STS (f : Nat) : Nat := 0x101004 + f * 0x10000

/-- Window offset of `SPARE_MAP` (R62). -/
def SPARE_MAP (f i : Nat) : Nat := 0x101100 + f * 0x10000 + i * 0x4

/-- Window offset of `MEM_ERR_STS` (R90). -/
def MEM_ERR_STS (f : Nat) : Nat := 0x102000 + f * 0x10000

/-- Window offset of `MEM_SCRUB_CTRL` (R90). -/
def MEM_SCRUB_CTRL (f : Nat) : Nat := 0x102004 + f * 0x10000

/-- Window offset of `MEM_ECC_LAST` (R90). -/
def MEM_ECC_LAST (f : Nat) : Nat := 0x102008 + f * 0x10000

/-- Window offset of `MEM_COLL_LAST` (R90). -/
def MEM_COLL_LAST (f : Nat) : Nat := 0x10200c + f * 0x10000

/-- Window offset of `FLD_HOLD_LAST` (R176). -/
def FLD_HOLD_LAST (f : Nat) : Nat := 0x103000 + f * 0x10000

/-- Window offset of `FLD_FLT_LAST` (R374). -/
def FLD_FLT_LAST (f : Nat) : Nat := 0x104000 + f * 0x10000

/-- Window offset of `FLD_PWR_STS` (R411). -/
def FLD_PWR_STS (f : Nat) : Nat := 0x105000 + f * 0x10000

/-- Window offset of `FLD_PWR_STATE` (R411). -/
def FLD_PWR_STATE (f : Nat) : Nat := 0x105004 + f * 0x10000

/-- Window offset of `FLD_VCL` (R411). -/
def FLD_VCL (f : Nat) : Nat := 0x105008 + f * 0x10000

/-- Window offset of `FLD_VCL_SET` (R411). -/
def FLD_VCL_SET (f : Nat) : Nat := 0x10500c + f * 0x10000

/-- Window offset of `FLD_PHASE` (R411). -/
def FLD_PHASE (f : Nat) : Nat := 0x105010 + f * 0x10000

/-- Window offset of `FLD_TEMP` (R411). -/
def FLD_TEMP (f : Nat) : Nat := 0x105014 + f * 0x10000

/-- Window offset of `FLD_PAIR` (R411). -/
def FLD_PAIR (f i : Nat) : Nat := 0x105040 + f * 0x10000 + i * 0x4

/-- Window offset of `HS_STS` (R211). -/
def HS_STS (n : Nat) : Nat := 0x1300000 + n * 0x10000

/-- Window offset of `HS_STATE` (R211). -/
def HS_STATE (n : Nat) : Nat := 0x1300004 + n * 0x10000

/-- Window offset of `HS_UE_LAST` (R211). -/
def HS_UE_LAST (n : Nat) : Nat := 0x1300008 + n * 0x10000

/-- Window offset of `HS_UE_LAST_HI` (R211). -/
def HS_UE_LAST_HI (n : Nat) : Nat := 0x130000c + n * 0x10000

/-- Window offset of `HS_SCRUB_POS` (R211). -/
def HS_SCRUB_POS (n : Nat) : Nat := 0x1300040 + n * 0x10000

/-- Window offset of `HS_UE_PAGE` (R211). -/
def HS_UE_PAGE (n : Nat) : Nat := 0x1300044 + n * 0x10000

/-- Window offset of `HS_UE_SEQ` (R211). -/
def HS_UE_SEQ (n : Nat) : Nat := 0x1300048 + n * 0x10000

/-- Window offset of `PAIR_STS` (R340). -/
def PAIR_STS : Nat := 0x1400000

/-- Window offset of `PAIR_CFG` (R340). -/
def PAIR_CFG : Nat := 0x1400004

/-- Window offset of `PAIR_STATE` (R340). -/
def PAIR_STATE : Nat := 0x1400008

/-- Window offset of `PAIR_EPOCH` (R340). -/
def PAIR_EPOCH : Nat := 0x140000c

/-- Window offset of `PAIR_ARB_EPOCH` (R340). -/
def PAIR_ARB_EPOCH : Nat := 0x1400010

/-- Window offset of `PAIR_ARB_CTRL` (R340). -/
def PAIR_ARB_CTRL : Nat := 0x1400014

/-- Window offset of `BEAT_OFFSET` (R340). -/
def BEAT_OFFSET : Nat := 0x1400018

/-- Window offset of `MIRROR_LAG` (R340). -/
def MIRROR_LAG : Nat := 0x140001c

/-- Window offset of `SPLIT_CTRL` (R340). -/
def SPLIT_CTRL (i : Nat) : Nat := 0x1400100 + i * 0x10

/-- Window offset of `SPLIT_TAB` (R340). -/
def SPLIT_TAB (i : Nat) : Nat := 0x1400104 + i * 0x10

/-- Window offset of `SPLIT_TAB_HI` (R340). -/
def SPLIT_TAB_HI (i : Nat) : Nat := 0x1400108 + i * 0x10

/-- Window offset of `SPLIT_COUNT` (R340). -/
def SPLIT_COUNT (i : Nat) : Nat := 0x140010c + i * 0x10

/-- Window offset of `SPAN_STS` (R341). -/
def SPAN_STS (i : Nat) : Nat := 0x1401000 + i * 0x1000

/-- Window offset of `SPAN_STATE` (R341). -/
def SPAN_STATE (i : Nat) : Nat := 0x1401004 + i * 0x1000

/-- Window offset of `SPAN_CTRL` (R341). -/
def SPAN_CTRL (i : Nat) : Nat := 0x1401008 + i * 0x1000

/-- Window offset of `MBX_CMD` (R457). -/
def MBX_CMD : Nat := 0x1500000

/-- Window offset of `MBX_STS` (R457). -/
def MBX_STS : Nat := 0x1500004

/-- Window offset of `MBX_STATE` (R457). -/
def MBX_STATE : Nat := 0x1500008

/-- Window offset of `MBX_ADDR` (R457). -/
def MBX_ADDR : Nat := 0x1500010

/-- Window offset of `MBX_ADDR_HI` (R457). -/
def MBX_ADDR_HI : Nat := 0x1500014

/-- Window offset of `IDENT_STATE` (R457). -/
def IDENT_STATE : Nat := 0x1500018

/-- Window offset of `IDENT_TOP` (R457). -/
def IDENT_TOP : Nat := 0x150001c

/-- Window offset of `SEC_STS` (R457). -/
def SEC_STS : Nat := 0x1500020

/-- Window offset of `ZERO_STATE` (R457). -/
def ZERO_STATE : Nat := 0x1500024

/-- Window offset of `FUSE_SVN` (R457). -/
def FUSE_SVN : Nat := 0x1500028

/-- Window offset of `KEY_EPOCH` (R457). -/
def KEY_EPOCH : Nat := 0x150002c

end O

/-- Page 0x0 of the global block (R475, R508). -/
def globalPage0 : List RegRow := [
  ⟨0x0, 1, 0x4, 0x0, 0x0, 0x0, 0⟩,
  ⟨0x4, 1, 0x4, 0x0, 0x0, 0x0, 0⟩,
  ⟨0x8, 4, 0x4, 0x0, 0x0, 0x0, 0⟩,
  ⟨0x18, 1, 0x4, 0x0, 0x0, 0x0, 1⟩,
  ⟨0x1c, 1, 0x4, 0x0, 0x0, 0x0, 2⟩,
  ⟨0x20, 1, 0x4, 0x1, 0x0, 0x0, 0⟩,
  ⟨0x30, 4, 0x4, 0xffffffff, 0x0, 0x0, 0⟩,
  ⟨0x100, 1, 0x4, 0x0, 0x1ff, 0x0, 0⟩,
  ⟨0x104, 1, 0x4, 0x0, 0x0, 0x0, 0⟩,
  ⟨0x110, 1, 0x4, 0x0, 0x0, 0x0, 1⟩,
  ⟨0x114, 1, 0x4, 0x0, 0x0, 0x0, 2⟩,
  ⟨0x118, 1, 0x4, 0x0, 0x0, 0x0, 1⟩,
  ⟨0x11c, 1, 0x4, 0x0, 0x0, 0x0, 2⟩,
  ⟨0x120, 1, 0x4, 0x0, 0x0, 0x0, 1⟩,
  ⟨0x124, 1, 0x4, 0x0, 0x0, 0x0, 2⟩,
  ⟨0x128, 1, 0x4, 0x0, 0x0, 0x0, 1⟩,
  ⟨0x12c, 1, 0x4, 0x0, 0x0, 0x0, 2⟩,
  ⟨0x130, 1, 0x4, 0x0, 0x0, 0x0, 1⟩,
  ⟨0x134, 1, 0x4, 0x0, 0x0, 0x0, 2⟩]

/-- Page 0x1 of the global block (R476). -/
def globalPage1 : List RegRow := [
  ⟨0x0, 1, 0x4, 0x0, 0x0, 0x0, 0⟩,
  ⟨0x4, 1, 0x4, 0x0, 0x0, 0x0, 0⟩,
  ⟨0x8, 1, 0x4, 0x0, 0x0, 0x0, 0⟩,
  ⟨0xc, 1, 0x4, 0x0, 0x0, 0x0, 0⟩,
  ⟨0x10, 1, 0x4, 0x0, 0x0, 0x0, 0⟩]

/-- Page 0x2 of the global block (R478). -/
def globalPage2 : List RegRow := [
  ⟨0x0, 1, 0x4, 0x0, 0x7, 0x0, 0⟩,
  ⟨0x4, 1, 0x4, 0x3ffff, 0x0, 0x0, 0⟩,
  ⟨0x8, 1, 0x4, 0x1ffff, 0x0, 0x0, 0⟩,
  ⟨0xc, 1, 0x4, 0xffffffff, 0x0, 0x0, 0⟩,
  ⟨0x10, 1, 0x4, 0x1, 0x0, 0x80000000, 0⟩,
  ⟨0x14, 1, 0x4, 0x0, 0x0, 0x0, 0⟩]

/-- Page 0x3 of the global block (R173). -/
def globalPage3 : List RegRow := [
  ⟨0x0, 1, 0x4, 0x3, 0x0, 0x0, 0⟩,
  ⟨0x4, 1, 0x4, 0x0, 0xf, 0x0, 0⟩,
  ⟨0x8, 1, 0x4, 0x0, 0x0, 0x0, 1⟩,
  ⟨0xc, 1, 0x4, 0x0, 0x0, 0x0, 2⟩,
  ⟨0x10, 1, 0x4, 0x0, 0x0, 0x0, 1⟩,
  ⟨0x14, 1, 0x4, 0x0, 0x0, 0x0, 2⟩,
  ⟨0x18, 1, 0x4, 0x0, 0x0, 0x0, 1⟩,
  ⟨0x1c, 1, 0x4, 0x0, 0x0, 0x0, 2⟩,
  ⟨0x20, 1, 0x4, 0x0, 0x0, 0x0, 1⟩,
  ⟨0x24, 1, 0x4, 0x0, 0x0, 0x0, 2⟩,
  ⟨0x28, 1, 0x4, 0x0, 0x0, 0x0, 1⟩,
  ⟨0x2c, 1, 0x4, 0x0, 0x0, 0x0, 2⟩,
  ⟨0x30, 1, 0x4, 0x0, 0x0, 0x0, 1⟩,
  ⟨0x34, 1, 0x4, 0x0, 0x0, 0x0, 2⟩,
  ⟨0x38, 1, 0x4, 0x0, 0x0, 0x0, 1⟩,
  ⟨0x3c, 1, 0x4, 0x0, 0x0, 0x0, 2⟩,
  ⟨0x40, 1, 0x4, 0x0, 0x0, 0x0, 1⟩,
  ⟨0x44, 1, 0x4, 0x0, 0x0, 0x0, 2⟩,
  ⟨0x48, 1, 0x4, 0x0, 0x0, 0x0, 1⟩,
  ⟨0x4c, 1, 0x4, 0x0, 0x0, 0x0, 2⟩,
  ⟨0x80, 1, 0x4, 0xf, 0x0, 0x10, 0⟩,
  ⟨0x84, 1, 0x4, 0x0, 0x0, 0x0, 0⟩,
  ⟨0x88, 1, 0x4, 0x0, 0x0, 0x0, 0⟩,
  ⟨0x8c, 1, 0x4, 0x0, 0x0, 0x0, 0⟩,
  ⟨0x90, 1, 0x4, 0xffffffc0, 0x0, 0x0, 0⟩,
  ⟨0x94, 1, 0x4, 0xffffffff, 0x0, 0x0, 0⟩,
  ⟨0xc0, 16, 0x4, 0x0, 0x0, 0x0, 0⟩]

/-- Page 0x4 of the global block (R174). -/
def globalPage4 : List RegRow := [
  ⟨0x0, 1, 0x4, 0x0, 0xf, 0x0, 0⟩,
  ⟨0x4, 1, 0x4, 0x0, 0x0, 0x0, 0⟩,
  ⟨0x8, 1, 0x4, 0x0, 0x0, 0x0, 0⟩,
  ⟨0x10, 1, 0x4, 0x0, 0x0, 0x0, 1⟩,
  ⟨0x14, 1, 0x4, 0x0, 0x0, 0x0, 2⟩,
  ⟨0x18, 1, 0x4, 0x0, 0x0, 0x0, 1⟩,
  ⟨0x1c, 1, 0x4, 0x0, 0x0, 0x0, 2⟩,
  ⟨0x20, 1, 0x4, 0x0, 0x0, 0x0, 1⟩,
  ⟨0x24, 1, 0x4, 0x0, 0x0, 0x0, 2⟩]

/-- Page 0x5 of the global block (R175). -/
def globalPage5 : List RegRow := [
  ⟨0x0, 1, 0x4, 0x0, 0xff, 0x0, 0⟩,
  ⟨0x4, 1, 0x4, 0x0, 0x0, 0x0, 0⟩,
  ⟨0x100, 8, 0x40, 0xffffffff, 0x0, 0x0, 0⟩,
  ⟨0x104, 8, 0x40, 0xffffffff, 0x0, 0x0, 0⟩,
  ⟨0x108, 8, 0x40, 0xfffff, 0x0, 0x0, 0⟩,
  ⟨0x110, 8, 0x40, 0x0, 0x0, 0x0, 0⟩,
  ⟨0x114, 8, 0x40, 0x0, 0x0, 0x0, 0⟩,
  ⟨0x118, 8, 0x40, 0x0, 0x0, 0x0, 0⟩,
  ⟨0x120, 8, 0x40, 0x0, 0x0, 0x0, 0⟩,
  ⟨0x124, 8, 0x40, 0x0, 0x0, 0x0, 0⟩,
  ⟨0x128, 8, 0x40, 0x0, 0x0, 0x0, 0⟩]

/-- Page 0x6 of the global block (R133). -/
def globalPage6 : List RegRow := [
  ⟨0x0, 1, 0x4, 0x0, 0x7, 0x0, 0⟩,
  ⟨0x4, 1, 0x4, 0xff1f, 0x0, 0x0, 0⟩,
  ⟨0x8, 1, 0x4, 0x0, 0x0, 0x0, 0⟩,
  ⟨0xc, 1, 0x4, 0x0, 0xffff, 0x0, 0⟩,
  ⟨0x10, 1, 0x4, 0xfff, 0x0, 0x0, 0⟩,
  ⟨0x14, 1, 0x4, 0x0, 0x1f, 0x0, 0⟩,
  ⟨0x18, 1, 0x4, 0x0, 0x0, 0x0, 0⟩,
  ⟨0x20, 1, 0x4, 0x0, 0x0, 0x0, 1⟩,
  ⟨0x24, 1, 0x4, 0x0, 0x0, 0x0, 2⟩,
  ⟨0x28, 1, 0x4, 0x0, 0x0, 0x0, 1⟩,
  ⟨0x2c, 1, 0x4, 0x0, 0x0, 0x0, 2⟩,
  ⟨0x30, 1, 0x4, 0x0, 0x0, 0x0, 1⟩,
  ⟨0x34, 1, 0x4, 0x0, 0x0, 0x0, 2⟩,
  ⟨0x40, 1, 0x4, 0xfff, 0x0, 0x0, 0⟩,
  ⟨0x44, 1, 0x4, 0xffffffff, 0x0, 0x0, 0⟩,
  ⟨0x80, 16, 0x4, 0x1f0, 0x200, 0x0, 0⟩]

/-- Page 0x7 of the global block (R210). -/
def globalPage7 : List RegRow := [
  ⟨0x0, 1, 0x4, 0x0, 0x7f, 0x0, 0⟩,
  ⟨0x4, 1, 0x4, 0x1f, 0x0, 0x0, 0⟩,
  ⟨0x10, 1, 0x4, 0x0, 0x0, 0x0, 1⟩,
  ⟨0x14, 1, 0x4, 0x0, 0x0, 0x0, 2⟩,
  ⟨0x18, 1, 0x4, 0x0, 0x0, 0x0, 1⟩,
  ⟨0x1c, 1, 0x4, 0x0, 0x0, 0x0, 2⟩,
  ⟨0x20, 1, 0x4, 0x0, 0x0, 0x0, 1⟩,
  ⟨0x24, 1, 0x4, 0x0, 0x0, 0x0, 2⟩,
  ⟨0x100, 16, 0x30, 0x1ffffff, 0x0, 0x0, 0⟩,
  ⟨0x104, 16, 0x30, 0x3fffffff, 0x0, 0x0, 0⟩,
  ⟨0x108, 16, 0x30, 0x1ffffff, 0x0, 0x0, 0⟩,
  ⟨0x10c, 16, 0x30, 0xfffffff, 0x0, 0x0, 0⟩,
  ⟨0x110, 16, 0x30, 0x0, 0x0, 0x0, 0⟩,
  ⟨0x114, 16, 0x30, 0x1ffffff, 0x0, 0x0, 0⟩,
  ⟨0x118, 16, 0x30, 0x1ffffff, 0x0, 0x0, 0⟩,
  ⟨0x11c, 16, 0x30, 0x1ffffff, 0x0, 0x0, 0⟩,
  ⟨0x120, 16, 0x30, 0x1ffffff, 0x0, 0x0, 0⟩,
  ⟨0x124, 16, 0x30, 0x1, 0x0, 0x0, 0⟩]

/-- Page 0x8 of the global block (R251). -/
def globalPage8 : List RegRow := [
  ⟨0x0, 1, 0x4, 0x0, 0x7f, 0x0, 0⟩,
  ⟨0x4, 1, 0x4, 0xfff1, 0x0, 0x0, 0⟩,
  ⟨0x10, 1, 0x4, 0x0, 0x0, 0x0, 1⟩,
  ⟨0x14, 1, 0x4, 0x0, 0x0, 0x0, 2⟩,
  ⟨0x18, 1, 0x4, 0x0, 0x0, 0x0, 1⟩,
  ⟨0x1c, 1, 0x4, 0x0, 0x0, 0x0, 2⟩,
  ⟨0x20, 1, 0x4, 0x0, 0x0, 0x0, 1⟩,
  ⟨0x24, 1, 0x4, 0x0, 0x0, 0x0, 2⟩,
  ⟨0x28, 1, 0x4, 0x0, 0x0, 0x0, 1⟩,
  ⟨0x2c, 1, 0x4, 0x0, 0x0, 0x0, 2⟩,
  ⟨0x30, 1, 0x4, 0x0, 0x0, 0x0, 1⟩,
  ⟨0x34, 1, 0x4, 0x0, 0x0, 0x0, 2⟩,
  ⟨0x38, 1, 0x4, 0x0, 0x0, 0x0, 1⟩,
  ⟨0x3c, 1, 0x4, 0x0, 0x0, 0x0, 2⟩,
  ⟨0x100, 8, 0x10, 0xffffff80, 0x0, 0x0, 0⟩,
  ⟨0x104, 8, 0x10, 0xffffffff, 0x0, 0x0, 0⟩,
  ⟨0x108, 8, 0x10, 0x8000001f, 0x0, 0x0, 0⟩,
  ⟨0x200, 8, 0x10, 0xffffff80, 0x0, 0x0, 0⟩,
  ⟨0x204, 8, 0x10, 0xffffffff, 0x0, 0x0, 0⟩,
  ⟨0x208, 8, 0x10, 0x8000001f, 0x0, 0x0, 0⟩,
  ⟨0x300, 1, 0x4, 0xffffff80, 0x0, 0x0, 0⟩,
  ⟨0x304, 1, 0x4, 0xffffffff, 0x0, 0x0, 0⟩,
  ⟨0x308, 1, 0x4, 0x8001ffff, 0x0, 0x0, 0⟩,
  ⟨0x310, 1, 0x4, 0x0, 0x0, 0x0, 1⟩,
  ⟨0x314, 1, 0x4, 0x0, 0x0, 0x0, 2⟩]

/-- Page 0x9 of the global block (R272). -/
def globalPage9 : List RegRow := [
  ⟨0x0, 1, 0x4, 0x0, 0x1f, 0x0, 0⟩,
  ⟨0x4, 1, 0x4, 0x0, 0x0, 0xf, 0⟩,
  ⟨0x8, 1, 0x4, 0x0, 0x0, 0x0, 0⟩,
  ⟨0xc, 1, 0x4, 0x7ffffff, 0x0, 0x0, 0⟩,
  ⟨0x10, 1, 0x4, 0x1fff, 0x0, 0x0, 0⟩,
  ⟨0x14, 1, 0x4, 0x8000001f, 0x0, 0x0, 0⟩,
  ⟨0x18, 1, 0x4, 0xffffff80, 0x0, 0x0, 0⟩,
  ⟨0x1c, 1, 0x4, 0xffffffff, 0x0, 0x0, 0⟩,
  ⟨0x20, 1, 0x4, 0xffffffff, 0x0, 0x0, 0⟩,
  ⟨0x40, 1, 0x4, 0xffffffff, 0x0, 0x0, 0⟩,
  ⟨0x44, 1, 0x4, 0xffffffff, 0x0, 0x0, 0⟩,
  ⟨0x48, 1, 0x4, 0xffffffff, 0x0, 0x0, 0⟩,
  ⟨0x4c, 1, 0x4, 0xffffffff, 0x0, 0x0, 0⟩,
  ⟨0x50, 1, 0x4, 0xffffffff, 0x0, 0x0, 0⟩,
  ⟨0x54, 1, 0x4, 0xffffffff, 0x0, 0x0, 0⟩,
  ⟨0x58, 1, 0x4, 0xffffffff, 0x0, 0x0, 0⟩,
  ⟨0x5c, 1, 0x4, 0xffffffff, 0x0, 0x0, 0⟩,
  ⟨0x60, 1, 0x4, 0x0, 0x0, 0x0, 1⟩,
  ⟨0x64, 1, 0x4, 0x0, 0x0, 0x0, 2⟩,
  ⟨0x68, 1, 0x4, 0x0, 0x0, 0x0, 1⟩,
  ⟨0x6c, 1, 0x4, 0x0, 0x0, 0x0, 2⟩,
  ⟨0x70, 1, 0x4, 0x0, 0x0, 0x0, 1⟩,
  ⟨0x74, 1, 0x4, 0x0, 0x0, 0x0, 2⟩]

/-- Page 0xA of the global block (R306). -/
def globalPageA : List RegRow := [
  ⟨0x0, 1, 0x4, 0x0, 0x3ff, 0x0, 0⟩,
  ⟨0x4, 1, 0x4, 0x0, 0x0, 0x0, 0⟩,
  ⟨0x8, 1, 0x4, 0x0, 0x0, 0x1, 0⟩,
  ⟨0xc, 1, 0x4, 0x3, 0x0, 0x0, 0⟩,
  ⟨0x10, 1, 0x4, 0x0, 0x0, 0x1ff, 0⟩,
  ⟨0x14, 1, 0x4, 0x80001fff, 0x0, 0x0, 0⟩,
  ⟨0x18, 1, 0x4, 0xffffff80, 0x0, 0x0, 0⟩,
  ⟨0x1c, 1, 0x4, 0xffffffff, 0x0, 0x0, 0⟩,
  ⟨0x20, 1, 0x4, 0xffffffff, 0x0, 0x0, 0⟩,
  ⟨0x24, 1, 0x4, 0x1ff, 0x0, 0x0, 0⟩,
  ⟨0x28, 1, 0x4, 0x0, 0x0, 0x0, 0⟩,
  ⟨0x2c, 1, 0x4, 0x0, 0x0, 0x0, 0⟩,
  ⟨0x40, 1, 0x4, 0x0, 0x0, 0x0, 1⟩,
  ⟨0x44, 1, 0x4, 0x0, 0x0, 0x0, 2⟩,
  ⟨0x48, 1, 0x4, 0x0, 0x0, 0x0, 1⟩,
  ⟨0x4c, 1, 0x4, 0x0, 0x0, 0x0, 2⟩,
  ⟨0x50, 1, 0x4, 0x0, 0x0, 0x0, 1⟩,
  ⟨0x54, 1, 0x4, 0x0, 0x0, 0x0, 2⟩,
  ⟨0x58, 1, 0x4, 0x0, 0x0, 0x0, 1⟩,
  ⟨0x5c, 1, 0x4, 0x0, 0x0, 0x0, 2⟩,
  ⟨0x60, 1, 0x4, 0x0, 0x0, 0x0, 1⟩,
  ⟨0x64, 1, 0x4, 0x0, 0x0, 0x0, 2⟩,
  ⟨0x68, 1, 0x4, 0x0, 0x0, 0x0, 1⟩,
  ⟨0x6c, 1, 0x4, 0x0, 0x0, 0x0, 2⟩,
  ⟨0x70, 1, 0x4, 0x0, 0x0, 0x0, 1⟩,
  ⟨0x74, 1, 0x4, 0x0, 0x0, 0x0, 2⟩,
  ⟨0x100, 32, 0x4, 0x9fffffff, 0x0, 0x0, 0⟩]

/-- Page 0xB of the global block (R373). -/
def globalPageB : List RegRow := [
  ⟨0x0, 1, 0x4, 0x0, 0xff, 0x0, 0⟩,
  ⟨0x4, 1, 0x4, 0x1, 0x0, 0x2, 0⟩,
  ⟨0x8, 1, 0x4, 0x0, 0x80000000, 0x0, 0⟩,
  ⟨0xc, 1, 0x4, 0x0, 0x0, 0x0, 0⟩,
  ⟨0x10, 1, 0x4, 0xfffff, 0x0, 0x80000000, 0⟩,
  ⟨0x14, 1, 0x4, 0x0, 0x3, 0x0, 0⟩,
  ⟨0x18, 1, 0x4, 0x0, 0x0, 0x0, 0⟩,
  ⟨0x1c, 1, 0x4, 0x0, 0x0, 0x0, 0⟩,
  ⟨0x20, 1, 0x4, 0x0, 0x0, 0x0, 1⟩,
  ⟨0x24, 1, 0x4, 0x0, 0x0, 0x0, 2⟩,
  ⟨0x28, 1, 0x4, 0x0, 0x0, 0x0, 1⟩,
  ⟨0x2c, 1, 0x4, 0x0, 0x0, 0x0, 2⟩,
  ⟨0x30, 1, 0x4, 0x0, 0x0, 0x0, 1⟩,
  ⟨0x34, 1, 0x4, 0x0, 0x0, 0x0, 2⟩,
  ⟨0x38, 1, 0x4, 0x0, 0x0, 0x0, 1⟩,
  ⟨0x3c, 1, 0x4, 0x0, 0x0, 0x0, 2⟩,
  ⟨0x40, 1, 0x4, 0x0, 0x0, 0x0, 1⟩,
  ⟨0x44, 1, 0x4, 0x0, 0x0, 0x0, 2⟩,
  ⟨0x48, 1, 0x4, 0x0, 0x0, 0x0, 1⟩,
  ⟨0x4c, 1, 0x4, 0x0, 0x0, 0x0, 2⟩,
  ⟨0x50, 1, 0x4, 0x0, 0x0, 0x0, 1⟩,
  ⟨0x54, 1, 0x4, 0x0, 0x0, 0x0, 2⟩]

/-- Page 0xC of the global block (R409). -/
def globalPageC : List RegRow := [
  ⟨0x0, 1, 0x4, 0x0, 0xff, 0x0, 0⟩,
  ⟨0x4, 1, 0x4, 0x0, 0x0, 0x0, 0⟩,
  ⟨0x8, 1, 0x4, 0xffff, 0x0, 0x0, 0⟩,
  ⟨0xc, 1, 0x4, 0x0, 0x0, 0x0, 0⟩,
  ⟨0x10, 1, 0x4, 0x0, 0x0, 0x0, 0⟩,
  ⟨0x14, 1, 0x4, 0x0, 0x0, 0x0, 0⟩,
  ⟨0x18, 1, 0x4, 0x0, 0x0, 0x0, 0⟩,
  ⟨0x20, 1, 0x4, 0x0, 0x0, 0x0, 1⟩,
  ⟨0x24, 1, 0x4, 0x0, 0x0, 0x0, 2⟩,
  ⟨0x28, 1, 0x4, 0x0, 0x0, 0x0, 1⟩,
  ⟨0x2c, 1, 0x4, 0x0, 0x0, 0x0, 2⟩]

/-- Page 0xD of the global block (R410). -/
def globalPageD : List RegRow := [
  ⟨0x0, 1, 0x4, 0x0, 0xfff, 0x0, 0⟩,
  ⟨0x4, 1, 0x4, 0x0, 0x0, 0x0, 0⟩,
  ⟨0x8, 1, 0x4, 0x7ff, 0x0, 0x0, 0⟩,
  ⟨0xc, 1, 0x4, 0x0, 0x0, 0x0, 0⟩,
  ⟨0x10, 1, 0x4, 0x0, 0x0, 0x0, 0⟩,
  ⟨0x14, 1, 0x4, 0x3ffff, 0x0, 0x80000000, 0⟩,
  ⟨0x20, 1, 0x4, 0x0, 0x0, 0x0, 1⟩,
  ⟨0x24, 1, 0x4, 0x0, 0x0, 0x0, 2⟩,
  ⟨0x28, 1, 0x4, 0x0, 0x0, 0x0, 1⟩,
  ⟨0x2c, 1, 0x4, 0x0, 0x0, 0x0, 2⟩]

/-- Page 0xE of the global block (R437). -/
def globalPageE : List RegRow := [
  ⟨0x0, 1, 0x4, 0x0, 0x7ff, 0x0, 0⟩,
  ⟨0x4, 1, 0x4, 0x0, 0x0, 0x0, 0⟩,
  ⟨0x8, 1, 0x4, 0x0, 0x0, 0x0, 0⟩,
  ⟨0xc, 1, 0x4, 0x0, 0x0, 0x3, 0⟩,
  ⟨0x10, 1, 0x4, 0x0, 0x0, 0x0, 0⟩,
  ⟨0x14, 1, 0x4, 0x0, 0x0, 0x0, 0⟩,
  ⟨0x18, 1, 0x4, 0x0, 0x0, 0x0, 0⟩,
  ⟨0x1c, 1, 0x4, 0x0, 0x0, 0x0, 0⟩,
  ⟨0x20, 1, 0x4, 0x6, 0x0, 0x1, 0⟩,
  ⟨0x30, 1, 0x4, 0x0, 0x0, 0x0, 0⟩,
  ⟨0x34, 1, 0x4, 0x0, 0x0, 0x0, 0⟩,
  ⟨0x40, 1, 0x4, 0xffffffc0, 0x0, 0x0, 0⟩,
  ⟨0x44, 1, 0x4, 0xffffffff, 0x0, 0x0, 0⟩,
  ⟨0x48, 1, 0x4, 0x3ffffff, 0x0, 0x0, 0⟩,
  ⟨0x4c, 1, 0x4, 0x3, 0x0, 0x80000000, 0⟩,
  ⟨0x50, 1, 0x4, 0x0, 0x0, 0x0, 0⟩]

/-- Page 0xF of the global block (R251). -/
def globalPageF : List RegRow := [
  ⟨0x0, 16, 0x40, 0x1fffef, 0x0, 0x0, 0⟩,
  ⟨0x4, 16, 0x40, 0xffffff, 0x0, 0x0, 0⟩,
  ⟨0x8, 16, 0x40, 0xffffff, 0x0, 0x0, 0⟩,
  ⟨0xc, 16, 0x40, 0xffff, 0x0, 0x0, 0⟩,
  ⟨0x10, 16, 0x40, 0xffffffff, 0x0, 0x0, 0⟩,
  ⟨0x14, 16, 0x40, 0x0, 0x0, 0x0, 0⟩,
  ⟨0x18, 16, 0x40, 0x0, 0x0, 0x0, 0⟩,
  ⟨0x1c, 16, 0x40, 0x0, 0x0, 0x0, 0⟩,
  ⟨0x20, 16, 0x40, 0x0, 0x0, 0x0, 0⟩,
  ⟨0x24, 16, 0x40, 0xffffffe0, 0x0, 0x0, 0⟩,
  ⟨0x28, 16, 0x40, 0xffffffff, 0x0, 0x0, 0⟩,
  ⟨0x2c, 16, 0x40, 0xffffff, 0x0, 0x0, 0⟩,
  ⟨0x30, 16, 0x40, 0xffffffe0, 0x0, 0x0, 0⟩,
  ⟨0x34, 16, 0x40, 0xffffffff, 0x0, 0x0, 0⟩]

/-- Page 0x0 of the field block (R477). -/
def fieldPage0 : List RegRow := [
  ⟨0x0, 1, 0x4, 0x0, 0x0, 0x0, 0⟩,
  ⟨0x4, 1, 0x4, 0x0, 0x0, 0x0, 0⟩]

/-- Page 0x1 of the field block (R62). -/
def fieldPage1 : List RegRow := [
  ⟨0x0, 1, 0x4, 0x7, 0x0, 0x0, 0⟩,
  ⟨0x4, 1, 0x4, 0x0, 0xff, 0x0, 0⟩,
  ⟨0x10, 1, 0x4, 0x0, 0x0, 0x0, 1⟩,
  ⟨0x14, 1, 0x4, 0x0, 0x0, 0x0, 2⟩,
  ⟨0x18, 1, 0x4, 0x0, 0x0, 0x0, 1⟩,
  ⟨0x1c, 1, 0x4, 0x0, 0x0, 0x0, 2⟩,
  ⟨0x20, 1, 0x4, 0x0, 0x0, 0x0, 1⟩,
  ⟨0x24, 1, 0x4, 0x0, 0x0, 0x0, 2⟩,
  ⟨0x100, 24, 0x4, 0x0, 0x0, 0x0, 0⟩]

/-- Page 0x2 of the field block (R90). -/
def fieldPage2 : List RegRow := [
  ⟨0x0, 1, 0x4, 0x0, 0x3f, 0x0, 0⟩,
  ⟨0x4, 1, 0x4, 0x7, 0x0, 0x0, 0⟩,
  ⟨0x8, 1, 0x4, 0x0, 0x80000000, 0x0, 0⟩,
  ⟨0xc, 1, 0x4, 0x0, 0x80000000, 0x0, 0⟩,
  ⟨0x10, 1, 0x4, 0x0, 0x0, 0x0, 1⟩,
  ⟨0x14, 1, 0x4, 0x0, 0x0, 0x0, 2⟩,
  ⟨0x18, 1, 0x4, 0x0, 0x0, 0x0, 1⟩,
  ⟨0x1c, 1, 0x4, 0x0, 0x0, 0x0, 2⟩,
  ⟨0x20, 1, 0x4, 0x0, 0x0, 0x0, 1⟩,
  ⟨0x24, 1, 0x4, 0x0, 0x0, 0x0, 2⟩,
  ⟨0x28, 1, 0x4, 0x0, 0x0, 0x0, 1⟩,
  ⟨0x2c, 1, 0x4, 0x0, 0x0, 0x0, 2⟩,
  ⟨0x30, 1, 0x4, 0x0, 0x0, 0x0, 1⟩,
  ⟨0x34, 1, 0x4, 0x0, 0x0, 0x0, 2⟩]

/-- Page 0x3 of the field block (R176). -/
def fieldPage3 : List RegRow := [
  ⟨0x0, 1, 0x4, 0x0, 0x80000000, 0x0, 0⟩,
  ⟨0x8, 1, 0x4, 0x0, 0x0, 0x0, 1⟩,
  ⟨0xc, 1, 0x4, 0x0, 0x0, 0x0, 2⟩]

/-- Page 0x4 of the field block (R374). -/
def fieldPage4 : List RegRow := [
  ⟨0x0, 1, 0x4, 0x0, 0x80000000, 0x0, 0⟩,
  ⟨0x8, 1, 0x4, 0x0, 0x0, 0x0, 1⟩,
  ⟨0xc, 1, 0x4, 0x0, 0x0, 0x0, 2⟩]

/-- Page 0x5 of the field block (R411). -/
def fieldPage5 : List RegRow := [
  ⟨0x0, 1, 0x4, 0x0, 0x3f, 0x0, 0⟩,
  ⟨0x4, 1, 0x4, 0x0, 0x0, 0x0, 0⟩,
  ⟨0x8, 1, 0x4, 0x0, 0x0, 0x0, 0⟩,
  ⟨0xc, 1, 0x4, 0x0, 0x0, 0x0, 0⟩,
  ⟨0x10, 1, 0x4, 0x0, 0x0, 0x0, 0⟩,
  ⟨0x14, 1, 0x4, 0x0, 0x0, 0x0, 0⟩,
  ⟨0x40, 16, 0x4, 0x0, 0x0, 0x0, 0⟩]

/-- Page 0x0 of the stack block (R211). -/
def stackPage0 : List RegRow := [
  ⟨0x0, 1, 0x4, 0x0, 0x3f, 0x0, 0⟩,
  ⟨0x4, 1, 0x4, 0x0, 0x0, 0x0, 0⟩,
  ⟨0x8, 1, 0x4, 0x0, 0x80000000, 0x0, 0⟩,
  ⟨0xc, 1, 0x4, 0x0, 0x0, 0x0, 0⟩,
  ⟨0x10, 1, 0x4, 0x0, 0x0, 0x0, 1⟩,
  ⟨0x14, 1, 0x4, 0x0, 0x0, 0x0, 2⟩,
  ⟨0x18, 1, 0x4, 0x0, 0x0, 0x0, 1⟩,
  ⟨0x1c, 1, 0x4, 0x0, 0x0, 0x0, 2⟩,
  ⟨0x20, 1, 0x4, 0x0, 0x0, 0x0, 1⟩,
  ⟨0x24, 1, 0x4, 0x0, 0x0, 0x0, 2⟩,
  ⟨0x28, 1, 0x4, 0x0, 0x0, 0x0, 1⟩,
  ⟨0x2c, 1, 0x4, 0x0, 0x0, 0x0, 2⟩,
  ⟨0x30, 1, 0x4, 0x0, 0x0, 0x0, 1⟩,
  ⟨0x34, 1, 0x4, 0x0, 0x0, 0x0, 2⟩,
  ⟨0x38, 1, 0x4, 0x0, 0x0, 0x0, 1⟩,
  ⟨0x3c, 1, 0x4, 0x0, 0x0, 0x0, 2⟩,
  ⟨0x40, 1, 0x4, 0x0, 0x0, 0x0, 0⟩,
  ⟨0x44, 1, 0x4, 0x0, 0x0, 0x0, 0⟩,
  ⟨0x48, 1, 0x4, 0x0, 0x80000000, 0x0, 0⟩]

/-- Page 0x0 of the span block (R340). -/
def spanPage0 : List RegRow := [
  ⟨0x0, 1, 0x4, 0x0, 0x1ff, 0x0, 0⟩,
  ⟨0x4, 1, 0x4, 0xff03, 0x0, 0x0, 0⟩,
  ⟨0x8, 1, 0x4, 0x0, 0x0, 0x0, 0⟩,
  ⟨0xc, 1, 0x4, 0x0, 0x0, 0x0, 0⟩,
  ⟨0x10, 1, 0x4, 0xffffffff, 0x0, 0x0, 0⟩,
  ⟨0x14, 1, 0x4, 0x0, 0x0, 0x3, 0⟩,
  ⟨0x18, 1, 0x4, 0x0, 0x0, 0x0, 0⟩,
  ⟨0x1c, 1, 0x4, 0x0, 0x0, 0x0, 0⟩,
  ⟨0x20, 1, 0x4, 0x0, 0x0, 0x0, 1⟩,
  ⟨0x24, 1, 0x4, 0x0, 0x0, 0x0, 2⟩,
  ⟨0x28, 1, 0x4, 0x0, 0x0, 0x0, 1⟩,
  ⟨0x2c, 1, 0x4, 0x0, 0x0, 0x0, 2⟩,
  ⟨0x100, 16, 0x10, 0x1ff, 0x0, 0x0, 0⟩,
  ⟨0x104, 16, 0x10, 0xfffffff0, 0x0, 0x0, 0⟩,
  ⟨0x108, 16, 0x10, 0xffffffff, 0x0, 0x0, 0⟩,
  ⟨0x10c, 16, 0x10, 0xffff, 0x0, 0x0, 0⟩]

/-- Page 0x1 of the span block (R341). -/
def spanPage1 : List RegRow := [
  ⟨0x0, 1, 0x1000, 0x0, 0xf, 0x0, 0⟩,
  ⟨0x4, 1, 0x1000, 0x0, 0x0, 0x0, 0⟩,
  ⟨0x8, 1, 0x1000, 0x0, 0x0, 0x1, 0⟩,
  ⟨0x10, 1, 0x1000, 0x0, 0x0, 0x0, 1⟩,
  ⟨0x14, 1, 0x1000, 0x0, 0x0, 0x0, 2⟩,
  ⟨0x18, 1, 0x1000, 0x0, 0x0, 0x0, 1⟩,
  ⟨0x1c, 1, 0x1000, 0x0, 0x0, 0x0, 2⟩,
  ⟨0x20, 1, 0x1000, 0x0, 0x0, 0x0, 1⟩,
  ⟨0x24, 1, 0x1000, 0x0, 0x0, 0x0, 2⟩,
  ⟨0x28, 1, 0x1000, 0x0, 0x0, 0x0, 1⟩,
  ⟨0x2c, 1, 0x1000, 0x0, 0x0, 0x0, 2⟩,
  ⟨0x30, 1, 0x1000, 0x0, 0x0, 0x0, 1⟩,
  ⟨0x34, 1, 0x1000, 0x0, 0x0, 0x0, 2⟩]

/-- Page 0x0 of the mbx block (R457). -/
def mbxPage0 : List RegRow := [
  ⟨0x0, 1, 0x4, 0xff, 0x0, 0x80000000, 0⟩,
  ⟨0x4, 1, 0x4, 0x0, 0x3, 0x0, 0⟩,
  ⟨0x8, 1, 0x4, 0x0, 0x0, 0x0, 0⟩,
  ⟨0x10, 1, 0x4, 0xffffffc0, 0x0, 0x0, 0⟩,
  ⟨0x14, 1, 0x4, 0xffffffff, 0x0, 0x0, 0⟩,
  ⟨0x18, 1, 0x4, 0x0, 0x0, 0x0, 0⟩,
  ⟨0x1c, 1, 0x4, 0x0, 0x0, 0x0, 0⟩,
  ⟨0x20, 1, 0x4, 0x0, 0x7f, 0x0, 0⟩,
  ⟨0x24, 1, 0x4, 0x0, 0x0, 0x0, 0⟩,
  ⟨0x28, 1, 0x4, 0x0, 0x0, 0x0, 0⟩,
  ⟨0x2c, 1, 0x4, 0x0, 0x0, 0x0, 0⟩]

/-- The rows of the page that a plain window offset lies in (R459 to R462). -/
def pageRows (off : Nat) : List RegRow :=
  let inner := if off < 0x100000 then off / 0x1000 else off % 0x10000 / 0x1000
  if off < 0x100000 then
    match inner with
    | 0x0 => globalPage0
    | 0x1 => globalPage1
    | 0x2 => globalPage2
    | 0x3 => globalPage3
    | 0x4 => globalPage4
    | 0x5 => globalPage5
    | 0x6 => globalPage6
    | 0x7 => globalPage7
    | 0x8 => globalPage8
    | 0x9 => globalPage9
    | 0xA => globalPageA
    | 0xB => globalPageB
    | 0xC => globalPageC
    | 0xD => globalPageD
    | 0xE => globalPageE
    | 0xF => globalPageF
    | _ => []
  else if off < 0x580000 then
    match inner with
    | 0x0 => fieldPage0
    | 0x1 => fieldPage1
    | 0x2 => fieldPage2
    | 0x3 => fieldPage3
    | 0x4 => fieldPage4
    | 0x5 => fieldPage5
    | _ => []
  else if off < 0x1300000 then []
  else if off < 0x13C0000 then (if inner = 0 then stackPage0 else [])
  else if off < 0x1400000 then []
  else if off < 0x1410000 then
    match inner with
    | 0 => spanPage0
    | 1 | 2 | 3 | 4 => spanPage1
    | _ => []
  else if 0x1500000 ≤ off ∧ off < 0x1510000 ∧ inner = 0 then mbxPage0
  else []

/-- Does this row hold the register at page offset `o`? -/
def RegRow.has (r : RegRow) (o : Nat) : Bool :=
  decide (r.off ≤ o) && (o - r.off) % r.stride == 0 && decide ((o - r.off) / r.stride < r.count)

/-- The row of the register at a plain window offset; none where the location is reserved (R459). -/
def regAt (off : Nat) : Option RegRow := (pageRows off).find? (·.has (off % 0x1000))


/-- The reset word of a register (R472): the Reset columns, every nonzero entry that names a value. -/
def resetWord (off : Nat) : Word :=
  if off < 0x100000 then
    if off = 0x0 then 0x57334e44  -- DEV_ID
    else
    if off = 0x4 then 0x100  -- DEV_VER
    else
    if off = 0x3000 then 0x2  -- SCHED_CTRL
    else
    if off = 0x4004 then 0x3  -- BEAT_STATE
    else
    if off = 0x4008 then 0x41a0  -- BEAT_PERIOD
    else
    if 0x5100 ≤ off ∧ off < 0x5300 ∧ (off - 0x5100) % 0x40 = 0 then 0xffffffff  -- LIM_FLIT
    else
    if 0x5104 ≤ off ∧ off < 0x5304 ∧ (off - 0x5104) % 0x40 = 0 then 0xffffffff  -- LIM_STACK
    else
    if 0x5108 ≤ off ∧ off < 0x5308 ∧ (off - 0x5108) % 0x40 = 0 then 0xfffff  -- LIM_MJ
    else
    if off = 0x6004 then 0x818  -- PREC_CTRL
    else
    if off = 0x7004 then 0x18  -- KV_CTRL
    else
    if 0x7104 ≤ off ∧ off < 0x7404 ∧ (off - 0x7104) % 0x30 = 0 then 0x10000000  -- POOL_GEOM
    else
    if 0x7118 ≤ off ∧ off < 0x7418 ∧ (off - 0x7118) % 0x30 = 0 then 0x1000000  -- POS_LIMIT
    else
    if off = 0x8004 then 0x4040  -- SVC_CTRL
    else
    if off = 0x900c then 0x8000  -- TUNE_CFG
    else
    if off = 0xb004 then 0x1  -- FLT_CTRL
    else
    if off = 0xc008 then 0x8ca0  -- PWR_CAP
    else
    if 0xf010 ≤ off ∧ off < 0xf410 ∧ (off - 0xf010) % 0x40 = 0 then 0xffffffff  -- ADM_SPILL_POS
    else
    0
  else if off < 0x580000 then
    if off % 0x10000 = 0x1000 then 0x1  -- FAB_CALDERA
    else if off % 0x10000 = 0x2004 then 0x4  -- MEM_SCRUB_CTRL
    else if off % 0x10000 = 0x5004 then 0x10  -- FLD_PWR_STATE
    else 0
  else if off = 0x1400004 then 0x4000  -- PAIR_CFG
  else 0

end Sys2Proof.Machine
end

