-- ==== Sys2Proof/Machine/StatePower.lean ====
section
/-!
DEFINITION. The state of power delivery, heat and coolant (R375 to R411) and of the low-speed pins (R485 to R494) beside their
registers.
-/
namespace Sys2Proof.Machine

/-- One field's power and thermal control (R383, R385, R394 to R396). -/
structure FieldPower where
  /-- G_pwr, 0 to 15 (R383); reset 0. -/
  gPwr : Nat
  /-- G_therm, 0 to 15 (R396); reset 0. -/
  gTherm : Nat
  /-- Thermal samples since G_therm last changed (R396). -/
  sinceChange : Nat
  /-- Thermal samples in a row without a pair value (R395). -/
  noPairs : Nat
  /-- The NO_PAIRS floor of 8 is in force (R395). -/
  noPairsHold : Bool
  /-- Disagreeing samples in a row, per pair: key pair (R394). -/
  disagree : Table Nat
  /-- Samples in a row in which a VCL phase stood away from the others, per phase (R382). -/
  apart : Table Nat
  /-- Sum of the VCL current over the voltage samples since the last adjustment of G_pwr (R383). -/
  vclSum : Nat
  /-- Those samples. -/
  vclCount : Nat
  /-- Those of them in which the field sagged at its current limit (R383). -/
  sagged : Nat
  /-- Consecutive samples with d_f at 20 mV or more (R385). -/
  dip : Nat
  /-- A load step was in progress in the 16 samples up to the first of them (R385). -/
  dipExplained : Bool
  /-- Consecutive samples with d_f 15 mV or more above the median (R385). -/
  localDrop : Nat
  deriving DecidableEq, Repr

/-- A field's power and thermal control after reset. -/
def FieldPower.reset : FieldPower :=
  { gPwr := 0, gTherm := 0, sinceChange := 8, noPairs := 0, noPairsHold := false, disagree := [], apart := [], vclSum := 0, vclCount := 0,
    sagged := 0, dip := 0, dipExplained := false, localDrop := 0 }

/-- A VCM event in progress (R386, R387). -/
structure VcmEvent where
  /-- Fields in which it was declared, all at one sample. -/
  fields : List Nat
  /-- Voltage sample at which it was declared. -/
  sample : Nat
  /-- Samples in a row with d_f at 10 mV or less in each of them. -/
  calm : Nat
  /-- They have reached 64: step 4 of R386 is due. -/
  done : Bool
  deriving DecidableEq, Repr

/-- Updates in a row that meet each condition of R402. -/
structure FlowRuns where
  /-- F ≥ 48 L/min. -/
  ge48 : Nat
  /-- F < 45 L/min. -/
  lt45 : Nat
  /-- F < 30 L/min. -/
  lt30 : Nat
  /-- F ≥ 33 L/min. -/
  ge33 : Nat
  deriving DecidableEq, Repr

/-- Power, heat and coolant beside their registers. -/
structure Power where
  /-- Fields 0 to 71. -/
  fields : Table FieldPower
  /-- Voltage samples since reset (R387). -/
  samples : Nat
  /-- Voltage samples since the last adjustment of G_cap (R392). -/
  capCount : Nat
  /-- Input power of the last 1,024 samples, newest first, in W (R392). -/
  inputs : List Nat
  /-- VCM rail current of the last 18 samples, newest first, in A (R385). -/
  vcm : List Nat
  /-- Sample numbers at which the load steps of the last 32 samples began (R385). -/
  loadSteps : List Nat
  /-- Last sample at which a load step was in progress (R385). -/
  loadLast : Option Nat
  /-- The VCM event in progress. -/
  event : Option VcmEvent
  /-- Sample number of the last VCM event (R387). -/
  lastEvent : Option Nat
  /-- Input energy below one mJ, in W × cycles (R409). -/
  energyPart : Nat
  /-- The feed share lies outside 40% to 60% and has been warned (R377). -/
  shareOff : Bool
  /-- Thermal samples since reset. -/
  thermals : Nat
  /-- The inlet reads outside 25 °C to 45 °C and has been warned (R408). -/
  inletOff : Bool
  /-- Thermal sensors discarded since a self-test failed them: field × 32 + pair × 2 + side (R435). -/
  badSensors : List Nat
  /-- Voltage sensors left out since a self-test failed them: field × 96 + sensor, VCL 0 to 63, VCM 64 to 95 (R435). -/
  badVolts : List Nat
  /-- VCM regulator phases failed by a PHASE record (R435): field × 64 + phase. -/
  badPhases : List Nat
  /-- Accepted flow pulses of each of the last 16 updates of 16 ms, newest first (R401). -/
  pulses : List Nat
  /-- Accepted pulses since the last update. -/
  pulseNow : Nat
  /-- Instant of the last accepted pulse (R403). -/
  lastPulse : Option Nat
  /-- Runs of flow updates (R402). -/
  runs : FlowRuns
  /-- Instant of the trigger of a coolant stop (R404). -/
  coolTrigger : Nat
  /-- A relocation by THR_RELOC is in progress (R400). -/
  relocating : Option (Nat × Nat)
  /-- A critical temperature has been read (R397, R399). -/
  critical : Bool
  /-- The non-volatile trip cell (R381, R398). -/
  tripCell : Bool
  /-- `PWR_OFF_REQ` asserted, until power is lost (R406). -/
  pwrOff : Bool
  /-- Both feeds have been lost, and no feed has become OK since (R378, R381). -/
  off : Bool
  /-- Lowest reading of each regulator group of VPHY, VHS, VBRY and VIO, in mV, of the sensors that count (R379, R380). -/
  rails : List (Option Nat)
  /-- Sensors found at 0 V or full scale since the last HISTORY record (R380, R418). -/
  sensorFaults : Nat
  /-- `HOLD_GATE_CNT` at the last HISTORY record (R418). -/
  gateBase : Nat
  /-- Instant of the last HISTORY record (R418). -/
  historyAt : Nat
  deriving DecidableEq, Repr

/-- Power state after reset. -/
def Power.reset : Power :=
  { fields := [], samples := 0, capCount := 0, inputs := [], vcm := [], loadSteps := [], loadLast := none, event := none,
    lastEvent := none, energyPart := 0, shareOff := false, thermals := 0, inletOff := false, badSensors := [], badVolts := [], badPhases := [], pulses := [],
    pulseNow := 0, lastPulse := none, runs := ⟨0, 0, 0, 0⟩, coolTrigger := 0, relocating := none, critical := false,
    tripCell := false, pwrOff := false, off := false, rails := [], sensorFaults := 0, gateBase := 0, historyAt := 0 }

end Sys2Proof.Machine
end

