-- ==== Sys2Proof/Machine/StateSec.lean ====
section
/-!
DEFINITION. The state of the mailbox and the root of trust (R438 to R458), of the cell configuration window's agent (R478 to
R480), of the pins (R486 to R494) and of the management bus (R495 to R499) beside their registers.
-/
namespace Sys2Proof.Machine

/-- A mailbox command in progress, waiting for something (R446, R448, R456). -/
inductive MbxWait where
  /-- None. -/
  | none
  /-- ATTEST waits for a durable reservation or a tree build. -/
  | attest
  /-- KEM_START waits for a durable reservation or a tree build. -/
  | kemStart
  /-- ZEROISE waits for its end; true when it came by the management path. -/
  | zeroise (mgmt : Bool)
  deriving DecidableEq, Repr

/-- The root of trust: identity trees, ML-KEM exchange, measurements. -/
structure Sec where
  /-- The mailbox buffer, 8,192 bytes, key byte number (R457); reset 0. -/
  mbx : Table (BitVec 8)
  /-- The command in progress. -/
  wait : MbxWait
  /-- Next index of the top tree (R445). -/
  topNext : Nat
  /-- First index of the top tree not covered by a durable reservation (R421). -/
  topLimit : Nat
  /-- Current lower tree (R446). -/
  lower : Nat
  /-- Next index of the current lower tree; 32,768 while there is no such tree or it is used up. -/
  lowNext : Nat
  /-- First index of it not covered by a durable reservation. -/
  lowLimit : Nat
  /-- The next lower tree has been opened and built, to follow the current one (R446). -/
  nextLower : Option Nat
  /-- An ML-KEM decapsulation key is held: the number of the KEM_START that made it, no key material (R450). -/
  kem : Option Nat
  /-- KEM_STARTs since reset. -/
  kemCount : Nat
  /-- ek ‖ signature of that exchange (1,568 + 5,396 bytes), which the transcript hash of R451 is taken over. -/
  kemMsg : List (BitVec 8)
  /-- Keys installed by KEM_FINISH and not yet switched to (R450). -/
  kemReady : Bool
  /-- Transcript hash H of the keys in force, 256 bits; 0 for none (R448). -/
  session : Nat
  /-- Epoch of the keys in force; 0 for none (R448). -/
  epochNow : Nat
  /-- Transcript hash of the keys installed and not yet switched to. -/
  sessionNext : Nat
  /-- A whole-module zeroise has completed since start and no model has been opened since (R448). -/
  zeroised : Bool
  /-- This start was a fallback start (R423). -/
  fallback : Bool
  /-- SHA-256 of the running bundle, BUNDLE (R442). -/
  bundle : Nat
  /-- SVN of the running bundle. -/
  svn : Nat
  deriving DecidableEq, Repr

/-- The root of trust after reset. -/
def Sec.reset : Sec :=
  { mbx := [], wait := .none, topNext := 0, topLimit := 0, lower := 0, lowNext := 32768, lowLimit := 32768, nextLower := none,
    kem := none, kemCount := 0, kemMsg := [], kemReady := false, session := 0, epochNow := 0, sessionNext := 0, zeroised := false,
    fallback := false, bundle := 0, svn := 0 }

/-- The access of the cell configuration window in progress (R479). -/
structure CfgAccess where
  /-- Target cell. -/
  cell : Nat
  /-- Word address. -/
  word : Nat
  /-- Write. -/
  write : Bool
  /-- Data of a write. -/
  data : Word
  /-- The packet has left the agent. -/
  sent : Bool
  deriving DecidableEq, Repr

/-- The configuration agent (R60, R480). -/
structure Agent where
  /-- Firmware holds the agent. -/
  firmware : Bool
  /-- The host's access in progress. -/
  access : Option CfgAccess
  /-- The response on its way: error bit and data (R60). -/
  response : Option (Bool × Word)
  deriving DecidableEq, Repr

/-- The agent after reset: firmware has first use of it during the start (R480). -/
def Agent.reset : Agent := { firmware := true, access := none, response := none }

/-- A PLDM event (R499). -/
structure PldmEvent where
  /-- Event code. -/
  code : Nat
  /-- `TIMESTAMP`, or 0 before the first beat. -/
  stamp : Nat
  /-- Detail, 32 bits. -/
  detail : Nat
  /-- It has been transferred to the BMC and waits for acknowledgement. -/
  polled : Bool
  deriving DecidableEq, Repr

/-- Pins and the management bus. -/
structure Mgmt where
  /-- `BEAT` instant of the last edge the filter accepted (R486). -/
  beatEdge : Option Nat
  /-- Instant of the last `FLOW_PULSE` edge, accepted or not (R486). -/
  flowEdge : Option Nat
  /-- `nRESET` is low and the module in reset (R489). -/
  inReset : Bool
  /-- Filtered `nHOLD_EXT`, asserted (R490). -/
  hold : Bool
  /-- Instant of its last accepted change (R486). -/
  holdEdge : Option Nat
  /-- Beats begun while it is asserted and EXT_EN is 1 (R490). -/
  holdBeats : Nat
  /-- Stuck latch (R490). -/
  stuck : Bool
  /-- Level of `PAIR_SENIOR` (R492). -/
  senior : Bool
  /-- Filtered `COOL_OK` (R491). -/
  coolOk : Bool
  /-- I3C dynamic address (R495); none while none is assigned. -/
  da : Option Nat
  /-- Target events enabled by ENEC (R495). -/
  events : Nat
  /-- Maximum write length set by SETMWL. -/
  mwl : Nat
  /-- Maximum read length set by SETMRL. -/
  mrl : Nat
  /-- Reset action set by RSTACT. -/
  rstact : Nat
  /-- MCTP endpoint ID (R496); 0 while none is assigned. -/
  eid : Nat
  /-- Endpoint ID of the BMC (R500). -/
  bmcEid : Nat
  /-- PLDM event queue, oldest first, at most 64 (R499). -/
  events_ : List PldmEvent
  /-- Event message buffer size the BMC set. -/
  bufSize : Nat
  /-- FLOW_NOISE edges since the last FLOW_NOISE event (R499). -/
  noiseSince : Nat
  /-- Instant of the first of them. -/
  noiseAt : Option Nat
  /-- Response to the last management command, bytes (R495 to R499). -/
  response : List (BitVec 8)
  deriving DecidableEq, Repr

/-- Pins and bus after reset. Lengths take the 64-byte unit of R496. (PRESUMED, unsafe: log entry 11.) -/
def Mgmt.reset : Mgmt :=
  { beatEdge := none, flowEdge := none, inReset := false, hold := false, holdEdge := none, holdBeats := 0, stuck := false,
    senior := false, coolOk := false, da := none, events := 0, mwl := 64, mrl := 64, rstact := 0, eid := 0, bmcEid := 8,
    events_ := [], bufSize := 64, noiseSince := 0, noiseAt := none, response := [] }

end Sys2Proof.Machine
end

