-- ==== Sys2Proof/Machine/State.lean ====
section
/-!
DEFINITION. The state of the W3 as the spec gives it, its reset value, and the reasons a command can stop. Every register of the
window is a word of `win`; what the spec holds beside the registers is in the structures of the State files.
-/
namespace Sys2Proof.Machine

/-- Why the block stops with a fault. No command of the W3 does: the spec gives every command of its table an effect. -/
inductive Fault where
  /-- Raised by nothing: kept so that the type is inhabited. Safe. -/
  | unreachable
  deriving DecidableEq, Repr

/-- Why a command has no meaning. -/
inductive Refusal where
  /-- Raised by the dispatch of a command that the model has not reached yet, named by its mnemonic. Safe. -/
  | notModelled (mnemonic : String)
  deriving DecidableEq, Repr

/-- The W3. -/
structure State where
  /-- Commands waiting, first in, first out (the block's own queue). -/
  pending : List Instr
  /-- Every register of the window by its plain offset, 32 bits each (R459); reset `resetWord` (R472). -/
  win : Table Word
  /-- Counter latches of the OCL path, by the counter's low offset, 32 bits (R473); reset 0. -/
  latchOcl : Table Word
  /-- Counter latches of the management path (R473); reset 0. -/
  latchMgmt : Table Word
  /-- Logical cells by linear number (R28). -/
  cells : Table Cell
  /-- Arrival counters, key cell × 32 + counter, 24 bits (R80); reset 0. -/
  counters : Table (BitVec 24)
  /-- Accumulator files, key ((cell × 4 + array) × 16 + vector) × 8 + row, FP32 (R31); reset 0. -/
  accs : Table Word
  /-- Cell memory, key cell × 1,769,472 + byte address (R64); an unlisted byte reads 0. -/
  cellMem : List Host.Cell
  /-- Stack memory by stack byte address (R203); an unlisted byte reads 0. -/
  stackMem : List Host.Cell
  /-- The mesh, the routers' tables and the placement. -/
  mesh : Mesh
  /-- Precision events, recipes and auto-widen. -/
  prec : Prec
  /-- The schedule. -/
  sched : Sched
  /-- The BEAT input. -/
  beat : Beat
  /-- The activity budgets. -/
  budget : Budget
  /-- KV pages and sequence slots. -/
  kv : Kv
  /-- The generation service. -/
  svc : Svc
  /-- The step ledger. -/
  ledger : Ledger
  /-- The tune job. -/
  tune : Tune
  /-- OCL: its flit layer. -/
  link : LinkState
  /-- OCL: its transaction layer and the event path. -/
  ocl : Ocl
  /-- The pair. -/
  pair : Pair
  /-- The fault controller. -/
  faults : Faults
  /-- Power, heat and coolant. -/
  power : Power
  /-- Start-up, NOR device and journal. -/
  boot : Boot
  /-- Fuses. -/
  fuses : Fuses
  /-- Root of trust and mailbox. -/
  sec : Sec
  /-- Configuration agent. -/
  agent : Agent
  /-- Pins and management bus. -/
  mgmt : Mgmt
  /-- Instant of the last command that names one, in core cycles since reset (R11). -/
  now : Nat
  /-- The model's own counter of free values taken. -/
  free : Nat
  deriving DecidableEq, Repr

/-- The machine right after reset. (DESIGN CHOICE, safe: log entry 8.) -/
def State.reset : State :=
  { pending := [], win := [], latchOcl := [], latchMgmt := [], cells := [], counters := [], accs := [], cellMem := [],
    stackMem := [], mesh := .reset, prec := .reset, sched := .reset, beat := .reset, budget := .reset, kv := .reset,
    svc := .reset, ledger := .reset, tune := .reset, link := .reset, ocl := .reset, pair := .reset, faults := .reset,
    power := .reset, boot := .reset, fuses := .reset, sec := .reset, agent := .reset, mgmt := .reset, now := 0, free := 0 }

end Sys2Proof.Machine
end

