-- ==== Sys2Proof/Machine/Ops.lean ====
section
/-!
DEFINITION. The named operations over the state: register fields, counters, cells, memory bytes and granules, free values, time.
-/
namespace Sys2Proof.Machine
open Sys2Proof

/-! ### Registers of the window -/

/-- Overwrite bits [lo + w - 1 : lo] of a register with `v`. -/
def putBits (r : Word) (lo w v : Nat) : Word :=
  BitVec.ofNat 32 (r.toNat - bitsOf r.toNat lo w * 2 ^ lo + v % 2 ^ w * 2 ^ lo)

/-- The stored word of the register at a plain offset. -/
def reg (off : Nat) (s : State) : Word := Table.get resetWord s.win off

/-- Store a register's word. -/
def setReg (off : Nat) (v : Word) (s : State) : State := { s with win := Table.set resetWord s.win off v }

/-- Read a field. -/
def rd (f : Fld) (s : State) : Nat := bitsOf (reg f.off s).toNat f.lo f.w

/-- Set a field. -/
def wr (f : Fld) (v : Nat) (s : State) : State := setReg f.off (putBits (reg f.off s) f.lo f.w v) s

/-- Is a one-bit field set? -/
def on (f : Fld) (s : State) : Bool := rd f s != 0

/-- Set a one-bit field from a Boolean. -/
def wrB (f : Fld) (b : Bool) (s : State) : State := wr f (bitN b) s

/-- The value of the 64-bit counter whose low word lies at `off` (R473). -/
def cnt (off : Nat) (s : State) : Nat := (reg off s).toNat + 2 ^ 32 * (reg (off + 4) s).toNat

/-- Set a 64-bit counter; it wraps modulo 2⁶⁴ (R474). -/
def setCnt (off : Nat) (n : Nat) (s : State) : State :=
  setReg (off + 4) (BitVec.ofNat 32 (n / 2 ^ 32)) (setReg off (BitVec.ofNat 32 n) s)

/-- Add `n` to a counter. -/
def bumpBy (off n : Nat) (s : State) : State := setCnt off (cnt off s + n) s

/-- Add one to a counter. -/
def bump (off : Nat) (s : State) : State := bumpBy off 1 s

/-- Apply `f` when `b`. -/
def when (b : Bool) (f : State → State) (s : State) : State := if b then f s else s

/-- Apply `f` for every element of a list, first to last. -/
def forEach {α : Type} (l : List α) (f : α → State → State) (s : State) : State := l.foldl (fun s a => f a s) s

/-! ### Time -/

/-- Take the instant that a command names. (DESIGN CHOICE, unsafe: log entry 3.) -/
def atTime (t : Nat) (s : State) : State := { s with now := t }

/-- `BEAT_NO`. -/
def beatNo (s : State) : Nat := cnt F.BEAT_NO s

/-- The number of the frame in progress (R11). -/
def frameNo (s : State) : Nat := beatNo s / beatsPerFrame

/-- `TIMESTAMP` (R164): the beat number, and the cycles since that beat began, saturating at 0xFFFF.
(DESIGN CHOICE, unsafe: log entry 3.) -/
def timestamp (s : State) : Nat := beatNo s % 2 ^ 48 * 2 ^ 16 + satN 16 (s.now - s.beat.beatStart)

/-! ### Free values -/

/-- The free value that the step takes next. (DESIGN CHOICE, safe: log entry 13.) -/
def freeHere (s : State) : Nat := Config.freeNat s.free

/-- Advance the counter of free values. (DESIGN CHOICE, safe: log entry 13.) -/
def takeFree (s : State) : State := { s with free := s.free + 1 }

/-! ### Bytes -/

/-- Little-endian value of a list of bytes (R9). -/
def bytesToNat : List Byte → Nat
  | [] => 0
  | b :: bs => b.toNat + 256 * bytesToNat bs

/-- The `n` low bytes of a number, least significant first. -/
def natToBytes : Nat → Nat → List Byte
  | 0, _ => []
  | n + 1, v => BitVec.ofNat 8 v :: natToBytes n (v / 256)

/-- What an unlisted byte of cell memory, stack memory and the mailbox buffer reads as (the model's choice: 0). -/
def byte0 (_ : Nat) : Byte := 0

/-- The `n` bytes of a byte memory from `a` on, as a number. (DESIGN CHOICE, unsafe: log entry 6.) -/
def memNat (m : Table Byte) (a n : Nat) : Nat := bytesToNat (Table.getMany byte0 m a n)

/-- Store the `n` low bytes of a number from `a` on. (DESIGN CHOICE, unsafe: log entry 6.) -/
def memPut (m : Table Byte) (a n v : Nat) : Table Byte := Table.setMany byte0 m a (natToBytes n v)

/-! ### Cells -/

/-- Logical cells of the module (R7). -/
def cellCount : Nat := 221184

/-- Granules of a cell (R64). -/
def cellGranules : Nat := 27648

/-- Bytes of a cell (R64). -/
def cellBytes : Nat := 1769472

/-- A cell. -/
def cell (c : Nat) (s : State) : Cell := Table.get (fun _ => Cell.reset) s.cells c

/-- Store a cell. -/
def setCell (c : Nat) (x : Cell) (s : State) : State := { s with cells := Table.set (fun _ => Cell.reset) s.cells c x }

/-- Change a cell. -/
def modCell (c : Nat) (f : Cell → Cell) (s : State) : State := setCell c (f (cell c s)) s

/-- An arrival counter (R80). -/
def arrival (c n : Nat) (s : State) : BitVec 24 := Table.get (fun _ => 0) s.counters (c * 32 + n)

/-- Set an arrival counter. -/
def setArrival (c n : Nat) (v : BitVec 24) (s : State) : State :=
  { s with counters := Table.set (fun _ => 0) s.counters (c * 32 + n) v }

/-- An accumulator value: array, vector, row (R31). -/
def acc (c arr v row : Nat) (s : State) : Word := Table.get (fun _ => 0) s.accs (((c * 4 + arr) * 16 + v) * 8 + row)

/-- Set an accumulator value. -/
def setAcc (c arr v row : Nat) (x : Word) (s : State) : State :=
  { s with accs := Table.set (fun _ => 0) s.accs (((c * 4 + arr) * 16 + v) * 8 + row) x }

/-- A granule of cell memory; a granule that names no memory reads as zeros (R67). -/
def granule (c g : Nat) (s : State) : Granule :=
  if g < cellGranules then BitVec.ofNat 512 (memNat s.cellMem (c * cellBytes + g * 64) 64) else 0

/-- Store a granule of cell memory; a write to a granule that names no memory is dropped (R67). -/
def setGranule (c g : Nat) (v : Granule) (s : State) : State :=
  if g < cellGranules then { s with cellMem := memPut s.cellMem (c * cellBytes + g * 64) 64 v.toNat } else s

/-- A granule of stack memory at a stack address (R203). -/
def stackGranule (a : Nat) (s : State) : Granule := BitVec.ofNat 512 (memNat s.stackMem a 64)

/-- Store a granule of stack memory. -/
def setStackGranule (a : Nat) (v : Granule) (s : State) : State :=
  { s with stackMem := memPut s.stackMem a 64 v.toNat }

/-- Read `n` bytes of stack memory as a number. -/
def stackNat (a n : Nat) (s : State) : Nat := memNat s.stackMem a n

/-- Write `n` bytes of stack memory. -/
def stackPut (a n v : Nat) (s : State) : State := { s with stackMem := memPut s.stackMem a n v }

/-! ### The mode of the module -/

/-- `BOOT_STATE.MODE` is READY (R437). -/
def ready (s : State) : Bool := rd F.BOOT_STATE.MODE s == 1

/-- Cells and steps run: MODE is READY, or a shutdown still closes models (R433 step 2). -/
def alive (s : State) : Bool := ready s || (rd F.BOOT_STATE.MODE s == 3 && decide (s.boot.shutdown ≤ 2))

/-- The module serves: it is alive and no fatal event has stopped it (R372). -/
def serving (s : State) : Bool := alive s && !s.faults.stopped

/-! ### Tables of the service -/

/-- A sequence slot (R192). -/
def seqSlot (q : Nat) (s : State) : SeqSlot := Table.get (fun _ => SeqSlot.reset) s.kv.seqs q

/-- Store a sequence slot. -/
def setSeqSlot (q : Nat) (x : SeqSlot) (s : State) : State :=
  { s with kv := { s.kv with seqs := Table.set (fun _ => SeqSlot.reset) s.kv.seqs q x } }

/-- Change a sequence slot. -/
def modSeqSlot (q : Nat) (f : SeqSlot → SeqSlot) (s : State) : State := setSeqSlot q (f (seqSlot q s)) s

/-- Depth of a row of a step. -/
def depthIn (parents : List Nat) : Nat → Nat → Nat
  | 0, _ => 0
  | n + 1, i => if i = 0 then 0 else 1 + depthIn parents n (parents.getD i 0)

/-- A model slot. -/
def modelSlot (m : Nat) (s : State) : ModelSlot := Table.get (fun _ => ModelSlot.reset) s.svc.models m

/-- Store a model slot. -/
def setModelSlot (m : Nat) (x : ModelSlot) (s : State) : State :=
  { s with svc := { s.svc with models := Table.set (fun _ => ModelSlot.reset) s.svc.models m x } }

/-- Change a model slot. -/
def modModelSlot (m : Nat) (f : ModelSlot → ModelSlot) (s : State) : State := setModelSlot m (f (modelSlot m s)) s

/-- An image. -/
def image (m : Nat) (s : State) : Image := Table.get (fun _ => Image.reset) s.sched.images m

/-- Store an image. -/
def setImage (m : Nat) (x : Image) (s : State) : State :=
  { s with sched := { s.sched with images := Table.set (fun _ => Image.reset) s.sched.images m x } }

/-- Change an image. -/
def modImage (m : Nat) (f : Image → Image) (s : State) : State := setImage m (f (image m s)) s

/-- Per-layer precision state. -/
def layerPrec (m l : Nat) (s : State) : LayerPrec := Table.get (fun _ => LayerPrec.reset) s.prec.layers (m * 256 + l)

/-- Store per-layer precision state. -/
def setLayerPrec (m l : Nat) (x : LayerPrec) (s : State) : State :=
  { s with prec := { s.prec with layers := Table.set (fun _ => LayerPrec.reset) s.prec.layers (m * 256 + l) x } }

/-- A field's power and thermal control. -/
def fieldPower (f : Nat) (s : State) : FieldPower := Table.get (fun _ => FieldPower.reset) s.power.fields f

/-- Store a field's power and thermal control. -/
def setFieldPower (f : Nat) (x : FieldPower) (s : State) : State :=
  { s with power := { s.power with fields := Table.set (fun _ => FieldPower.reset) s.power.fields f x } }

/-- An output ring. -/
def outRing (r : Nat) (s : State) : OutRing := Table.get (fun _ => OutRing.reset) s.svc.out r

/-- Store an output ring. -/
def setOutRing (r : Nat) (x : OutRing) (s : State) : State :=
  { s with svc := { s.svc with out := Table.set (fun _ => OutRing.reset) s.svc.out r x } }

/-- A command ring. -/
def cmdRing (r : Nat) (s : State) : CmdRing := Table.get (fun _ => CmdRing.mk 0 0) s.svc.cmd r

/-- Store a command ring. -/
def setCmdRing (r : Nat) (x : CmdRing) (s : State) : State :=
  { s with svc := { s.svc with cmd := Table.set (fun _ => CmdRing.mk 0 0) s.svc.cmd r x } }

/-- A link's flit layer: 0 OCL, 1 to 4 span ports 0 to 3. -/
def linkOf (i : Nat) (s : State) : LinkState :=
  match i with
  | 0 => s.link
  | 1 => s.pair.port0
  | 2 => s.pair.port1
  | 3 => s.pair.port2
  | _ => s.pair.port3

/-- Store a link's flit layer. -/
def setLink (i : Nat) (l : LinkState) (s : State) : State :=
  match i with
  | 0 => { s with link := l }
  | 1 => { s with pair := { s.pair with port0 := l } }
  | 2 => { s with pair := { s.pair with port1 := l } }
  | 3 => { s with pair := { s.pair with port2 := l } }
  | _ => { s with pair := { s.pair with port3 := l } }

/-- Change a link's flit layer. -/
def modLink (i : Nat) (f : LinkState → LinkState) (s : State) : State := setLink i (f (linkOf i s)) s

/-- Where the state of a link is shown: `OCL_STATE` or `SPAN_STATE` (R277, R307). -/
def linkStateFld (i : Nat) : Fld := if i = 0 then F.OCL_STATE.STATE else F.SPAN_STATE.STATE (i - 1)

/-- The state of a link, as coded in `OCL_STATE`. -/
def linkSt (i : Nat) (s : State) : Nat := rd (linkStateFld i) s

/-- The link is ACTIVE. -/
def linkActive (i : Nat) (s : State) : Bool := linkSt i s == 4

/-- The service works with OCL: it is ACTIVE, or delayed by a retrain, and its session is not closed (R277, R284, R305). -/
def oclServes (s : State) : Bool := (linkActive 0 s || linkSt 0 s == 5) && !s.ocl.closed

/-- OCL carries traffic: it is ACTIVE and its session is not closed (R284, R305). -/
def oclUp (s : State) : Bool := linkActive 0 s && !s.ocl.closed

end Sys2Proof.Machine
end

