-- ==== Sys2Proof/Machine/Crc.lean ====
section
/-!
DEFINITION. The CRCs of the mesh's links (R52).
-/
namespace Sys2Proof.Machine
open Sys2Proof

/-- The `n` low bits of a number, most significant first. -/
def msbBits (n v : Nat) : List Bool := (List.range n).reverse.map v.testBit

/-- One bit through a CRC register of `w` bits. -/
def crcBit (w poly c : Nat) (b : Bool) : Nat :=
  let d := 2 * c % 2 ^ w
  if c.testBit (w - 1) != b then Nat.xor d poly else d

/-- The CRC-16 of a data flit (R52): over its tag, most significant bit first, then its data bytes in ascending order, each most
significant bit first. (DEDUCED, unsafe: log entry 67.) -/
def flitCrc (f : Flit) : Nat :=
  (msbBits 48 f.tag.toNat ++ (List.range 64).flatMap fun i => msbBits 8 (fieldOf f.data (8 * i) 8)).foldl (crcBit 16 0x1021) 0xFFFF

/-- The CRC-8 of a VC0 word and its sequence number (R52). (DEDUCED, unsafe: log entry 67.) -/
def wordCrc (w : Word) (seq : Nat) : Nat := (msbBits 32 w.toNat ++ msbBits 4 seq).foldl (crcBit 8 0x07) 0

/-- The frame came by the VC0 word lines. -/
def LineFrame.isVc0 : LineFrame → Bool
  | .data _ _ => false
  | .vc0 _ _ _ => true

/-- The receiver finds no CRC error (R52, R53). -/
def LineFrame.good : LineFrame → Bool
  | .data f crc => flitCrc f == crc.toNat
  | .vc0 w seq crc => wordCrc w seq.toNat == crc.toNat

/-- The lines of a flit that arrives undamaged (R34, R52). -/
def dataFrame (f : Flit) : LineFrame := .data f (BitVec.ofNat 16 (flitCrc f))

/-- The lines of a VC0 word that arrives undamaged (R34, R52). -/
def wordFrame (w : Word) (seq : Nat) : LineFrame := .vc0 w (BitVec.ofNat 4 seq) (BitVec.ofNat 8 (wordCrc w (seq % 16)))

end Sys2Proof.Machine
end

