-- ==== Sys2Proof/Machine/Geometry.lean ====
section
/-!
DEFINITION. Coordinates, placement, the mesh's routes and travel times (R6 to R8, R35 to R45, R194, R509).
-/
namespace Sys2Proof.Machine
open Sys2Proof

/-- Global column of a cell (R7). -/
def gcol (c : Nat) : Nat := c % 1152

/-- Global row of a cell (R7). -/
def grow (c : Nat) : Nat := c / 1152

/-- Field of a cell (R6). -/
def fieldOfCell (c : Nat) : Nat := grow c / 24 * 9 + gcol c / 128

/-- Row of a cell in its field. -/
def rowOf (c : Nat) : Nat := grow c % 24

/-- Column of a cell in its row. -/
def colOf (c : Nat) : Nat := gcol c % 128

/-- Linear number of a cell (R7). -/
def cellAt (field row col : Nat) : Nat := (field / 9 * 24 + row) * 1152 + field % 9 * 128 + col

/-- Linear numbers of the cells of a cluster, named by any of its cells (R8). -/
def clusterCells (c : Nat) : List Nat := (List.range 32).map fun k => c - colOf c % 32 + k

/-- Linear numbers of the cells of a field, ascending. -/
def fieldCells (f : Nat) : List Nat :=
  (List.range 24).flatMap fun r => (List.range 128).map fun k => cellAt f r k

/-- The byte of a row's `SPARE_MAP` word that describes a cluster: DEF [4:0], RBYP [5], ABSENT [6], USED [7] (R62). -/
def spareByte (field row g : Nat) (s : State) : Nat := bitsOf (reg (O.SPARE_MAP field row) s).toNat (8 * g) 8

/-- The cluster of a cell is absent (R37). -/
def absent (c : Nat) (s : State) : Bool := bitsOf (spareByte (fieldOfCell c) (rowOf c) (colOf c / 32) s) 6 1 == 1

/-- Physical position of a logical cell in its row (R36). -/
def physPos (c : Nat) (s : State) : Nat :=
  let g := colOf c / 32
  let k := colOf c % 32
  let b := spareByte (fieldOfCell c) (rowOf c) g s
  33 * g + k + (if bitsOf b 7 1 = 1 ∧ bitsOf b 0 5 ≤ k then 1 else 0)

/-- Track of a logical column (R42). -/
def track (col : Nat) : Nat := 33 * (col / 32) + col % 32

/-- Key of a physical position: field × 8192 + row × 256 + p. -/
def posKey (field row p : Nat) : Nat := field * 8192 + row * 256 + p

/-- Position key of the router of a logical cell. -/
def posOfCell (c : Nat) (s : State) : Nat := posKey (fieldOfCell c) (rowOf c) (physPos c s)

/-- Neighbour of a cell through a port (1 N, 2 E, 3 S, 4 W); none where the port faces off the array (R41). -/
def neighbour (c port : Nat) : Option Nat :=
  match port with
  | 1 => if grow c < 191 then some (c + 1152) else none
  | 2 => if gcol c < 1151 then some (c + 1) else none
  | 3 => if 0 < grow c then some (c - 1152) else none
  | 4 => if 0 < gcol c then some (c - 1) else none
  | _ => none

/-- The port of the neighbour that a link through `port` ends at. -/
def opposite (port : Nat) : Nat :=
  match port with
  | 1 => 3
  | 2 => 4
  | 3 => 1
  | 4 => 2
  | p => p

/-- The link of a cell's router through a port crosses a field stitch (R41). -/
def stitch (c port : Nat) : Bool :=
  match port with
  | 1 => rowOf c == 23
  | 2 => colOf c == 127
  | 3 => rowOf c == 0
  | 4 => colOf c == 0
  | _ => false

/-- Latency of a hop (R41). -/
def hopLatency (c port : Nat) : Nat := if stitch c port then 4 else 1

/-- Absolute difference. -/
def dist (a b : Nat) : Nat := if a ≤ b then b - a else a - b

/-- Hops of a path between two cells (R43). -/
def hops (a b : Nat) : Nat := dist (gcol a) (gcol b) + dist (grow a) (grow b)

/-- Stitches of a path (R43). -/
def stitches (a b : Nat) : Nat := dist (gcol a / 128) (gcol b / 128) + dist (grow a / 24) (grow b / 24)

/-- Travel time T of a unicast path (R43). -/
def travel (a b : Nat) : Nat := 2 + hops a b + 3 * stitches a b + (if grow a = grow b then 0 else 1)

/-- Port that a path at router `a` leaves by on its way to `b`, X leg first (R42); none at the destination. -/
def nextPort (a b : Nat) : Option Nat :=
  if gcol a < gcol b then some 2
  else if gcol b < gcol a then some 4
  else if grow a < grow b then some 1
  else if grow b < grow a then some 3
  else none

/-- The first `n` hops of the route from `a` to `b`: routers passed and ports left by. -/
def routeN : Nat → Nat → Nat → List (Nat × Nat)
  | 0, _, _ => []
  | n + 1, a, b =>
    match nextPort a b with
    | none => []
    | some p => (a, p) :: routeN n ((neighbour a p).getD a) b

/-- Links of the route of R42 between two cells. -/
def route (a b : Nat) : List (Nat × Nat) := routeN (hops a b) a b

/-- Attach field of stack HSn (R19). -/
def attachField (n : Nat) : Nat := [1, 4, 7, 17, 44, 62, 70, 67, 64, 54, 36, 9].getD n 0

/-- Request cell of the controller of HSn (R194). -/
def requestCell (n : Nat) : Nat :=
  if n ≤ 2 then cellAt (attachField n) 0 64
  else if n ≤ 5 then cellAt (attachField n) 12 127
  else if n ≤ 8 then cellAt (attachField n) 23 64
  else cellAt (attachField n) 12 0

/-- The 24 boundary cells by which data that HSn returns enter the mesh (R194): of the outer row of a north or south attach field, of
the outer column of an east or west one. -/
def dataCells (n : Nat) : List Nat :=
  let f := attachField n
  let r := requestCell n
  if rowOf r = 0 ∨ rowOf r = 23 then (List.range 24).map fun i => cellAt f (rowOf r) (52 + i)
  else (List.range 24).map fun i => cellAt f i (colOf r)

/-- The boundary cell of HSn that a flit for granule `g` of cell `dst` enters by: the spec names the 24, not which of them.
(DESIGN CHOICE, safe: log entry 68.) -/
def dataCell (n dst g : Nat) : Nat := (dataCells n).getD (Config.dataPort n dst g % 24) 0

/-- Field that span port `k` joins the mesh at (R18). -/
def spanField (k : Nat) : Nat := [2 * 9 + 8, 5 * 9 + 8, 5 * 9, 2 * 9].getD k 0

/-- Gateway cell of span port `k` for a flit whose mesh end is cell `c` (R45). -/
def spanGateway (k c : Nat) : Nat := cellAt (spanField k) (8 + grow c % 8) (if k < 2 then 127 else 0)

/-- Gateway cell of OCL entry `e` for a flit whose mesh end is cell `c` (R45). -/
def oclGateway (e c : Nat) : Nat := cellAt (3 + e) 0 (8 + gcol c % 8)

/-- Cell of the configuration agent (R60). -/
def agentCell : Nat := cellAt 67 23 100

/-- A linear number names a cell or an off-array endpoint (R45). -/
def endpointOk (d : Nat) : Bool := decide (d < 221203)

/-- Cell at which a flit from `src` leaves the mesh or lands (R45): the destination itself, or its endpoint's gateway. -/
def meshEnd (src dst : Nat) : Nat :=
  if dst < 221184 then dst
  else if dst < 221196 then requestCell (dst - 221184)
  else if dst < 221200 then spanGateway (dst - 221196) src
  else oclGateway (dst - 221200) src

/-- Cell at which a flit of an endpoint bound for granule `g` of cell `dst` enters the mesh (R45, R194). -/
def meshStart (src dst g : Nat) : Nat :=
  if src < 221184 then src
  else if src < 221196 then dataCell (src - 221184) dst g
  else if src < 221200 then spanGateway (src - 221196) dst
  else oclGateway (src - 221200) dst

/-! ### Marked-out routers (R38, R44) -/

/-- Physical column of a position over the wafer (R35). -/
def physCol (k : Nat) : Nat := k / 8192 % 9 * 132 + k % 256

/-- Physical row of a position over the wafer. -/
def physRow (k : Nat) : Nat := k / 8192 / 9 * 24 + k / 256 % 32

/-- Two marked-out routers cannot both be bypassed (R38). -/
def sideBySide (a b : Nat) : Bool :=
  (physRow a == physRow b && dist (physCol a) (physCol b) == 1) || (physCol a == physCol b && dist (physRow a) (physRow b) == 1)

/-- Marked-out routers whose bypass is impossible (R38). -/
def noBypass (s : State) : List Nat := s.mesh.markedOut.filter fun a => s.mesh.markedOut.any (sideBySide a)

/-- A number lies between two others. -/
def between (x a b : Nat) : Bool := decide (min a b ≤ x) && decide (x ≤ max a b)

/-- The route of R42 from a cell to a cell passes a physical position: the X leg along the source's row as far as the destination's
track, or to its position where there is no Y leg, and the Y leg along that track. -/
def passes (a b p : Nat) (s : State) : Bool :=
  let track_ := gcol b / 128 * 132 + track (colOf b)
  let stop := if grow a = grow b then physCol (posOfCell b s) else track_
  (physRow p == grow a && between (physCol p) (physCol (posOfCell a s)) stop) ||
    (grow a != grow b && physCol p == track_ && between (physRow p) (grow a) (grow b))

/-- The path between two cells has lost its travel time (R44): one end lies in an absent cluster, or it passes a router whose bypass is
impossible. -/
def pathLost (a b : Nat) (s : State) : Bool := absent a s || absent b s || (noBypass s).any fun p => passes a b p s

/-- Weight-loading chain of a field (R244). -/
def chainOf (f : Nat) : Nat := if f % 9 = 4 then 1 else if f % 9 < 4 then 0 else 2

/-- Caldera rows of a field (R40). -/
def calderaRows (f : Nat) (s : State) : Nat := rd (F.FAB_CALDERA.ROWS f) s

/-- A cell lies in a caldera row (R40). -/
def inCaldera (c : Nat) (s : State) : Bool := decide (24 - calderaRows (fieldOfCell c) s ≤ rowOf c)

/-- The model slot whose image is bound to a field, if any (R149): the field is reserved by a slot that is not FREE. -/
def modelOfField (f : Nat) (s : State) : Option Nat :=
  (List.range 16).find? fun m => rd (F.MODEL_SCHED.STATE m) s != 0 && (modelSlot m s).fields.contains f

/-- The model slot whose image binds a cell. -/
def modelOfCell (c : Nat) (s : State) : Option Nat :=
  (List.range 16).find? fun m => rd (F.MODEL_SCHED.STATE m) s != 0 && (image m s).cells.contains c

/-- The model slot whose running image binds a cell (R351). -/
def runningModelOf (c : Nat) (s : State) : Option Nat :=
  (List.range 16).find? fun m => rd (F.MODEL_SCHED.STATE m) s == 2 && (image m s).cells.contains c

/-- A cell belongs to a T36 image (R68): it does from when the load check of the image passes, and acts as a native cell while the image is
loading. (DESIGN CHOICE, unsafe: log entry 88.) -/
def inT36 (c : Nat) (s : State) : Bool :=
  match modelOfField (fieldOfCell c) s with
  | some m => (image m s).t36
  | none => false

/-- Bank of a granule (R65). -/
def bankOf (g : Nat) : Nat :=
  if g < 3072 then g / 512 * 4 + g % 4
  else if g < 15360 then 24 + (g - 3072) / 1024 * 4 + g % 4
  else 72 + (g - 15360) / 1024 * 4 + g % 4

end Sys2Proof.Machine
end

