-- ==== Sys2Proof/Machine/Hash.lean ====
section
/-!
DEFINITION. SHA-256 and HMAC-SHA-256 (R414, R439, R444, R451). The spec names them; their steps are those of the public standards
(FIPS 180-4 and FIPS 198-1). (PRESUMED, unsafe: log entry 101.)
-/
namespace Sys2Proof.Machine
open Sys2Proof

/-- Sum of two 32-bit words. -/
def add32 (a b : Nat) : Nat := (a + b) % 2 ^ 32

/-- A 32-bit word rotated to the right. -/
def rotr32 (n x : Nat) : Nat := (x >>> n) ||| ((x <<< (32 - n)) % 2 ^ 32)

/-- The round constants: word `i` lies at bits [32i + 31:32i]. -/
def shaConsts : Nat :=
  0xc67178f2bef9a3f7a4506ceb90befffa8cc7020884c8781478a5636f748f82ee682e6ff35b9cca4f4ed8aa4a391c0cb334b0bcb52748774c1e376c0819a4c116 * 2 ^ 1536 +
  0x106aa070f40e3585d6990624d192e819c76c51a3c24b8b70a81a664ba2bfe8a192722c8581c2c92e766a0abb650a735453380d134d2c6dfc2e1b213827b70a85 * 2 ^ 1024 +
  0x1429296706ca6351d5a79147c6e00bf3bf597fc7b00327c8a831c66d983e515276f988da5cb0a9dc4a7484aa2de92c6f240ca1cc0fc19dc6efbe4786e49b69c1 * 2 ^ 512 +
  0xc19bf1749bdc06a780deb1fe72be5d74550c7dc3243185be12835b01d807aa98ab1c5ed5923f82a459f111f13956c25be9b5dba5b5c0fbcf71374491428a2f98

/-- The words that a hash begins with. -/
def shaFirst : List Nat :=
  [0x6a09e667, 0xbb67ae85, 0x3c6ef372, 0xa54ff53a,
    0x510e527f, 0x9b05688c, 0x1f83d9ab, 0x5be0cd19]

/-- The message word that follows sixteen others, the oldest first. -/
def shaNext (w : List Nat) : Nat :=
  let x := w.getD 1 0
  let y := w.getD 14 0
  let u := rotr32 7 x ^^^ rotr32 18 x ^^^ (x >>> 3)
  let v := rotr32 17 y ^^^ rotr32 19 y ^^^ (y >>> 10)
  add32 (add32 (w.headD 0) u) (add32 (w.getD 9 0) v)

/-- Rounds from number `i` on; `w` holds sixteen message words, `h` the eight working words. -/
def shaRounds : Nat → Nat → List Nat → List Nat → List Nat
  | 0, _, _, h => h
  | n + 1, i, w, h =>
    let a := h.headD 0
    let b := h.getD 1 0
    let c := h.getD 2 0
    let e := h.getD 4 0
    let f := h.getD 5 0
    let t := add32 (add32 (h.getD 7 0) (rotr32 6 e ^^^ rotr32 11 e ^^^ rotr32 25 e))
      (add32 ((e &&& f) ^^^ ((0xffffffff - e) &&& h.getD 6 0)) (add32 (bitsOf shaConsts (32 * i) 32) (w.headD 0)))
    let u := add32 (rotr32 2 a ^^^ rotr32 13 a ^^^ rotr32 22 a) ((a &&& b) ^^^ (a &&& c) ^^^ (b &&& c))
    shaRounds n (i + 1) (w.drop 1 ++ [shaNext w]) [add32 t u, a, b, c, add32 (h.getD 3 0) t, e, f, h.getD 6 0]

/-- Bytes as one number, the first byte the highest. -/
def highFirst (b : List Nat) : Nat := b.foldl (fun n x => 256 * n + x) 0

/-- Cut a list into pieces of `k`, at most `n` of them. -/
def piecesOf (k : Nat) : Nat → List Nat → List (List Nat)
  | 0, _ => []
  | n + 1, l => l.take k :: piecesOf k n (l.drop k)

/-- Hash one block of 64 bytes. -/
def shaBlock (h block : List Nat) : List Nat :=
  List.zipWith add32 h (shaRounds 64 0 ((piecesOf 4 16 block).map highFirst) h)

/-- The bytes of a number, the lowest first. -/
def octets (n x : Nat) : List Nat := (natToBytes n x).map (·.toNat)

/-- The bytes of a number, the highest first. -/
def bigEndian (n x : Nat) : List Nat := (octets n x).reverse

/-- A message with its padding: a bit 1, zeros, and its length in bits. -/
def shaPadded (m : List Nat) : List Nat :=
  m ++ 128 :: List.replicate ((119 - m.length % 64) % 64) 0 ++ bigEndian 8 (8 * m.length)

/-- SHA-256 of bytes: 32 bytes. (PRESUMED, unsafe: log entry 101.) -/
def sha256Bytes (m : List Nat) : List Nat :=
  let p := shaPadded m
  ((piecesOf 64 (p.length / 64) p).foldl shaBlock shaFirst).flatMap (bigEndian 4)

/-- Bytes as a number, the first byte the lowest. -/
def lowFirst (b : List Nat) : Nat := b.foldr (fun x n => x + 256 * n) 0

/-- SHA-256 of bytes as a number whose lowest byte is the first. -/
def sha256 (m : List Nat) : Nat := lowFirst (sha256Bytes m)

/-- HMAC-SHA-256 of bytes under a key of at most 64 bytes: 32 bytes. (PRESUMED, unsafe: log entry 101.) -/
def hmacBytes (key m : List Nat) : List Nat :=
  let k := key ++ List.replicate (64 - key.length) 0
  sha256Bytes (k.map (0x5c ^^^ ·) ++ sha256Bytes (k.map (0x36 ^^^ ·) ++ m))

/-- HMAC-SHA-256 of bytes under a key of 32 bytes, key and result as numbers whose lowest byte is the first. -/
def hmac (key : Nat) (m : List Nat) : Nat := lowFirst (hmacBytes (octets 32 key) m)

/-- The first `n` of a list of byte values, as bytes. -/
def firstBytes (n : Nat) (b : List Nat) : List Byte := (List.range n).map fun i => BitVec.ofNat 8 (b.getD i 0)

/-- Characters of a label. -/
def label (t : String) : List Nat := t.toList.map (·.toNat)

end Sys2Proof.Machine
end

