-- ==== Sys2Proof/Machine/Gcm.lean ====
section
/-!
DEFINITION. AES-256-GCM of message slots (R302, R303). The spec names the algorithm; its steps are those of the public standards
(FIPS 197 and SP 800-38D). (PRESUMED, unsafe: log entry 41.)
-/
namespace Sys2Proof.Machine
open Sys2Proof

/-! ### The block cipher -/

/-- The S-box: byte `x` lies at bits [8x + 7:8x]. -/
def aesTable : Nat :=
  0x16bb54b00f2d99416842e6bf0d89a18cdf2855cee9871e9b948ed9691198f8e19e1dc186b95735610ef6034866b53e708a8bbd4b1f74dde8c6b4a61c2e2578ba * 2 ^ 1536 +
  0x08ae7a65eaf4566ca94ed58d6d37c8e779e4959162acd3c25c2406490a3a32e0db0b5ede14b8ee4688902a22dc4f816073195d643d7ea7c41744975fec130ccd * 2 ^ 1024 +
  0xd2f3ff1021dab6bcf5389d928f40a351a89f3c507f02f94585334d43fbaaefd0cf584c4a39becb6a5bb1fc20ed00d153842fe329b3d63b52a05a6e1b1a2c8309 * 2 ^ 512 +
  0x75b227ebe28012079a059618c323c7041531d871f1e5a534ccf73f362693fdb7c072a49cafa2d4adf04759fa7dc982ca76abd7fe2b670130c56f6bf27b777c63

/-- Substitute a byte. -/
def aesSub (x : Nat) : Nat := bitsOf aesTable (8 * x) 8

/-- Twice a byte in the field of the cipher. -/
def aesTwice (x : Nat) : Nat := if 128 ≤ x then (2 * x) ^^^ 0x11B else 2 * x

/-- Bytewise sum of two lists. -/
def xorBytes (a b : List Nat) : List Nat := List.zipWith (· ^^^ ·) a b

/-- The round constant of the `n`-th key word group: 2 to the power n. -/
def aesRcon : Nat → Nat
  | 0 => 1
  | n + 1 => aesTwice (aesRcon n)

/-- One more word of the key schedule; `ws` holds the words so far, latest first. -/
def aesNextWord (ws : List (List Nat)) : List Nat :=
  let t := ws.headD []
  let i := ws.length
  let u :=
    if i % 8 = 0 then xorBytes (((t.drop 1) ++ t.take 1).map aesSub) [aesRcon (i / 8 - 1), 0, 0, 0]
    else if i % 8 = 4 then t.map aesSub
    else t
  xorBytes (ws.getD 7 []) u

/-- `n` more words of the key schedule. -/
def aesWords : Nat → List (List Nat) → List (List Nat)
  | 0, ws => ws
  | n + 1, ws => aesWords n (aesNextWord ws :: ws)

/-- The fifteen round keys of a 32-byte key. -/
def aesKeys (key : List Nat) : List (List Nat) :=
  piecesOf 16 15 (aesWords 52 (piecesOf 4 8 key).reverse).reverse.flatten

/-- Substitute and shift the rows of a block; byte r + 4c is row r of column c. -/
def aesShift (b : List Nat) : List Nat :=
  (List.range 16).map fun i => aesSub (b.getD (i % 4 + 4 * ((i / 4 + i % 4) % 4)) 0)

/-- Mix the columns of a block. -/
def aesMix (b : List Nat) : List Nat :=
  (List.range 16).map fun i =>
    let x := fun (k : Nat) => b.getD ((i + k) % 4 + 4 * (i / 4)) 0
    aesTwice (x 0) ^^^ (aesTwice (x 1) ^^^ x 1) ^^^ x 2 ^^^ x 3

/-- The rounds of a block, each with its key; the last one mixes no columns. -/
def aesRounds : List (List Nat) → List Nat → List Nat
  | [], b => b
  | [k], b => xorBytes (aesShift b) k
  | k :: ks, b => aesRounds ks (xorBytes (aesMix (aesShift b)) k)

/-- Encrypt a block of 16 bytes. -/
def aesBlock (keys : List (List Nat)) (b : List Nat) : List Nat :=
  aesRounds (keys.drop 1) (xorBytes b (keys.headD []))

/-! ### The mode of operation -/

/-- The bytes of a 128-bit number, the highest first. -/
def bytesHigh (x : Nat) : List Nat := ((List.range 16).map fun i => bitsOf x (8 * i) 8).reverse

/-- The product of two elements of the hash's field: bit 127 of the first to bit 0, `v` the second shifted so far. -/
def ghashMul (x : Nat) : Nat → Nat → Nat → Nat
  | 0, _, z => z
  | n + 1, v, z =>
    ghashMul x n (if v % 2 = 1 then (v / 2) ^^^ (0xE1 * 2 ^ 120) else v / 2) (if x.testBit n then z ^^^ v else z)

/-- The hash of blocks under a key. -/
def ghash (h : Nat) (blocks : List Nat) : Nat := blocks.foldl (fun y x => ghashMul (y ^^^ x) 128 h 0) 0

/-- The 16 bytes of a slot. -/
def slotOctets (x : BitVec 128) : List Nat := (List.range 16).map fun i => fieldOf x (8 * i) 8

/-- A slot from its 16 bytes. -/
def octetSlot (b : List Nat) : BitVec 128 := BitVec.ofNat 128 (highFirst b.reverse)

/-- The 96-bit nonce (R303): the key's epoch in bytes 0 to 3, the message counter in bytes 4 to 11. -/
def gcmNonce (epoch ctr : Nat) : List Nat := (natToBytes 4 epoch ++ natToBytes 8 ctr).map (·.toNat)

/-- The counter block `n` of a nonce. -/
def gcmCounter (iv : List Nat) (n : Nat) : List Nat := iv ++ (bytesHigh n).drop 12

/-- Encrypt or decrypt data slots: the key stream starts at counter block 2. -/
def gcmCrypt (keys : List (List Nat)) (iv : List Nat) (data : List (BitVec 128)) : List (BitVec 128) :=
  data.zipIdx.map fun p => p.1 ^^^ octetSlot (aesBlock keys (gcmCounter iv (p.2 + 2)))

/-- The tag of a header slot and ciphertext slots. -/
def gcmTag (keys : List (List Nat)) (iv : List Nat) (hdr : BitVec 128) (ct : List (BitVec 128)) : BitVec 128 :=
  let h := highFirst (aesBlock keys (List.replicate 16 0))
  let y := ghash h ((hdr :: ct).map (fun x => highFirst (slotOctets x)) ++ [128 * 2 ^ 64 + 128 * ct.length])
  octetSlot (xorBytes (bytesHigh y) (aesBlock keys (gcmCounter iv 1)))

/-- Round keys of a 256-bit key. -/
def gcmKeys (key : Nat) : List (List Nat) := aesKeys ((natToBytes 32 key).map (·.toNat))

/-- Seal a message (R303): its ciphertext slots, then the tag slot; the header slot is the associated data. (PRESUMED, unsafe: log entry
41.) -/
def gcmSeal (key epoch ctr : Nat) (hdr : BitVec 128) (data : List (BitVec 128)) : List (BitVec 128) :=
  let ks := gcmKeys key
  let iv := gcmNonce epoch ctr
  let ct := gcmCrypt ks iv data
  ct ++ [gcmTag ks iv hdr ct]

/-- The tag of a received message checks under a key, its epoch and the counter it must carry (R303, R305). -/
def gcmChecks (key epoch ctr : Nat) (hdr : BitVec 128) (slots : List (BitVec 128)) : Bool :=
  slots.getLast? == some (gcmTag (gcmKeys key) (gcmNonce epoch ctr) hdr slots.dropLast)

/-- The plaintext of a received message. -/
def gcmOpen (key epoch ctr : Nat) (slots : List (BitVec 128)) : List (BitVec 128) :=
  gcmCrypt (gcmKeys key) (gcmNonce epoch ctr) slots.dropLast

end Sys2Proof.Machine
end

