-- ==== Sys2Proof/Machine/Fec.lean ====
section
/-!
DEFINITION. Building and judging a 256-byte flit: its fields, CRC-32 and Reed-Solomon parity (R278 to R280).
-/
namespace Sys2Proof.Machine
open Sys2Proof

/-- Multiply by α in GF(2⁸) with field polynomial x⁸ + x⁴ + x³ + x² + 1 (R279). -/
def gfTwice (a : Nat) : Nat := if a < 128 then 2 * a else Nat.xor (2 * a % 256) 0x1D

/-- Product in GF(2⁸), over the `n` low bits of `b`. -/
def gfMulN : Nat → Nat → Nat → Nat
  | 0, _, _ => 0
  | n + 1, a, b => Nat.xor (if b % 2 = 1 then a else 0) (gfMulN n (gfTwice a) (b / 2))

/-- Product in GF(2⁸). -/
def gfMul (a b : Nat) : Nat := gfMulN 8 a b

/-- αⁿ. -/
def gfPow : Nat → Nat
  | 0 => 1
  | n + 1 => gfTwice (gfPow n)

/-- Inverse: a²⁵⁴. -/
def gfInv (a : Nat) : Nat :=
  let sq := fun x => gfMul x x
  let a2 := sq a
  let a4 := sq a2
  let a8 := sq a4
  let a16 := sq a8
  let a32 := sq a16
  let a64 := sq a32
  let a128 := sq a64
  gfMul a128 (gfMul a64 (gfMul a32 (gfMul a16 (gfMul a8 (gfMul a4 a2)))))

/-- Coefficients, highest first, of the remainder of data · x⁴ by the generator of R279 (root α⁰ to α³), one division step. -/
def rsStep (r : List Nat) (d : Nat) : List Nat :=
  match r with
  | [r3, r2, r1, r0] =>
    let f := Nat.xor d r3
    -- generator x⁴ + 15 x³ + 54 x² + 120 x + 64
    [Nat.xor r2 (gfMul f 15), Nat.xor r1 (gfMul f 54), Nat.xor r0 (gfMul f 120), gfMul f 64]
  | _ => r

/-- Four parity symbols of 124 data symbols, highest degree first. (DEDUCED, unsafe: log entry 38.) -/
def rsParity (data : List Nat) : List Nat := data.foldl rsStep [0, 0, 0, 0]

/-- Syndrome at αʲ of a codeword, highest degree first. -/
def rsSyndrome (cw : List Nat) (j : Nat) : Nat := cw.foldl (fun a c => Nat.xor (gfMul a (gfPow j)) c) 0

/-- Add `e` to the symbol of degree `d` of a 128-symbol codeword. -/
def rsFix (cw : List Nat) (d e : Nat) : List Nat :=
  (cw.zip (List.range cw.length)).map fun p => if p.2 + d + 1 = cw.length then Nat.xor p.1 e else p.1

/-- Correct up to two symbols of a codeword (R279): the codeword, and whether it was corrected; none when it cannot be. -/
def rsDecode (cw : List Nat) : Option (List Nat × Bool) :=
  let s0 := rsSyndrome cw 0
  let s1 := rsSyndrome cw 1
  let s2 := rsSyndrome cw 2
  let s3 := rsSyndrome cw 3
  if s0 = 0 ∧ s1 = 0 ∧ s2 = 0 ∧ s3 = 0 then some (cw, false)
  else
    let pos := List.range 128
    match pos.find? (fun d =>
        let x := gfPow d
        s0 != 0 && s1 == gfMul s0 x && s2 == gfMul s1 x && s3 == gfMul s2 x) with
    | some d => some (rsFix cw d s0, true)
    | none =>
      let tryPair := fun (p : Nat × Nat) =>
        let x := gfPow p.1
        let y := gfPow p.2
        let e2 := gfMul (Nat.xor s1 (gfMul s0 x)) (gfInv (Nat.xor x y))
        let e1 := Nat.xor s0 e2
        let at2 := Nat.xor (gfMul e1 (gfMul x x)) (gfMul e2 (gfMul y y))
        let at3 := Nat.xor (gfMul e1 (gfMul x (gfMul x x))) (gfMul e2 (gfMul y (gfMul y y)))
        if e1 ≠ 0 ∧ e2 ≠ 0 ∧ at2 = s2 ∧ at3 = s3 then some (e1, e2) else none
      let pairs := pos.flatMap fun a => (List.range a).map fun b => (a, b)
      match pairs.findSome? (fun p => (tryPair p).map fun e => (p, e)) with
      | some ((a, b), (e1, e2)) => some (rsFix (rsFix cw a e1) b e2, true)
      | none => none

/-- CRC-32 of R280 (polynomial 0x04C1_1DB7, bits taken least significant first), `n` bits of one byte. -/
def crcBits : Nat → Nat → Nat
  | 0, c => c
  | n + 1, c => crcBits n (if c % 2 = 1 then Nat.xor (c / 2) 0xEDB88320 else c / 2)

/-- CRC-32 of a list of bytes. -/
def crc32 (bs : List Nat) : Nat := Nat.xor (bs.foldl (fun c b => crcBits 8 (Nat.xor c b)) 0xFFFFFFFF) 0xFFFFFFFF

/-- The bytes of a flit. -/
def flitBytes (raw : BitVec 2048) : List Nat := (natToBytes 256 raw.toNat).map (·.toNat)

/-- Elements of a list at even places. -/
def evens : List Nat → List Nat
  | [] => []
  | [a] => [a]
  | a :: _ :: t => a :: evens t

/-- Elements at odd places. -/
def odds : List Nat → List Nat
  | [] => []
  | [_] => []
  | _ :: b :: t => b :: odds t

/-- Two lists taken in turn. -/
def weave : List Nat → List Nat → List Nat
  | a :: as, b :: bs => a :: b :: weave as bs
  | as, _ => as

/-- A list of bytes as a number, little-endian. -/
def listNat (bs : List Nat) : Nat := bs.foldr (fun b n => b % 256 + 256 * n) 0

/-- Build a flit from its header and its slots (at most 15; the rest are NOP). (DEDUCED, unsafe: log entry 38.) -/
def buildFlit (hdr : Nat) (slots : List Slot16) : BitVec 2048 :=
  let full : List Slot16 := (slots ++ List.replicate 15 0).take 15
  let body := (natToBytes 4 hdr ++ full.flatMap fun s => natToBytes 16 s.toNat).map (·.toNat)
  let b248 := body ++ (natToBytes 4 (crc32 body)).map (·.toNat)
  BitVec.ofNat 2048 (listNat (b248 ++ weave (rsParity (evens b248)) (rsParity (odds b248))))

/-- A flit as received: what FEC and CRC made of it, its header and its slots. -/
structure RxFlit where
  /-- FEC corrected it (R279). -/
  corrected : Bool
  /-- It is bad (R280). -/
  bad : Bool
  /-- SEQ. -/
  seq : Nat
  /-- ACK. -/
  ack : Nat
  /-- TYPE. -/
  type : Nat
  /-- ACK_V. -/
  ackV : Bool
  /-- SLOT0 to SLOT14. -/
  slots : List Slot16
  deriving DecidableEq, Repr

/-- Slots of the bytes after the header. -/
def slotsOf : Nat → List Nat → List Slot16
  | 0, _ => []
  | n + 1, bs => BitVec.ofNat 128 (listNat (bs.take 16)) :: slotsOf n (bs.drop 16)

/-- Judge a received flit (R279, R280). (DEDUCED, unsafe: log entry 38.) -/
def readFlit (raw : BitVec 2048) : RxFlit :=
  let bs := flitBytes raw
  let de := rsDecode (evens bs)
  let dq := rsDecode (odds bs)
  let fixed := match de, dq with
    | some e, some o => some (weave e.1 o.1, e.2 || o.2)
    | _, _ => none
  let good := fixed.getD (bs, false)
  let body := good.1.take 244
  let crcOk := crc32 body == listNat ((good.1.drop 244).take 4)
  let h := listNat (body.take 4)
  { corrected := good.2, bad := fixed.isNone || !crcOk, seq := bitsOf h 0 12, ack := bitsOf h 12 12, type := bitsOf h 24 3,
    ackV := bitsOf h 27 1 == 1, slots := slotsOf 15 (body.drop 4) }

end Sys2Proof.Machine
end

