-- ==== Sys2Proof/Machine/Lanes.lean ====
section
/-!
DEFINITION. The lanes of a link (R273, R275, R276, R307): which lanes carry which bytes of a flit, their scramblers, and a flit as it is put
on the lanes or taken off them.
-/
namespace Sys2Proof.Machine
open Sys2Proof

/-- One bit of the additive scrambler with polynomial x³¹ + x²⁸ + 1 (R275), from its 31-bit state. -/
def scrBit (x : Nat) : Nat := Nat.xor (bitsOf x 30 1) (bitsOf x 27 1)

/-- The scrambler after one bit. -/
def scrStep (x : Nat) : Nat := (2 * x + scrBit x) % 2 ^ 31

/-- The bits of the scrambler that a byte meets, least significant bit first, and the scrambler after it. `n` is how many bits are left.
(DESIGN CHOICE, unsafe: log entry 82.) -/
def scrBits : Nat → Nat → Nat × Nat
  | 0, x => (0, x)
  | n + 1, x =>
    let r := scrBits n (scrStep x)
    (scrBit x + 2 * r.1, r.2)

/-- Bytes of a flit through the scramblers of the lanes in use, byte b on lane b mod N (R275): the bytes, and the scramblers after them.
Scrambling twice with the same states gives the bytes back. -/
def scramble : List Nat → List Nat → List Nat × List Nat
  | [], ls => ([], ls)
  | bs, [] => (bs, [])
  | b :: bs, x :: ls =>
    let k := scrBits 8 x
    let r := scramble bs (ls ++ [k.2])
    (Nat.xor b k.1 :: r.1, r.2)

/-- A flit through the scramblers of its lanes. -/
def scrambleFlit (raw : BitVec 2048) (ls : List Nat) : BitVec 2048 × List Nat :=
  let r := scramble (flitBytes raw) ls
  (BitVec.ofNat 2048 (listNat r.1), r.2)

/-- Lanes of a link: 32 on OCL, 64 on a span port (R273, R307). -/
def linkLanes (i : Nat) : Nat := if i = 0 then 32 else 64

/-- The lane that byte `b` of a flit travels on (R275). -/
def laneOfByte (l : LinkState) (b : Nat) : Nat := l.lane0 + b % l.laneN

/-- Seed the scramblers with the number of the sending lane plus one (R275); with the lanes reversed the peer numbers them from the
other end (R273). -/
def seedLanes (i : Nat) (l : LinkState) : LinkState :=
  let first := if l.laneRev then linkLanes i - l.lane0 - l.laneN else l.lane0
  { l with
    txLanes := (List.range l.laneN).map fun k => l.lane0 + k + 1
    rxLanes := (List.range l.laneN).map fun k => first + k + 1 }

/-- Put a flit on the lanes (R275). -/
def emit (i : Nat) (raw : BitVec 2048) (s : State) : State :=
  modLink i (fun l =>
    let r := scrambleFlit raw l.txLanes
    { l with line := some r.1, txLanes := r.2 }) s

/-- Take a flit off the lanes: what it holds, and the receiving scramblers after it (R275, R279, R280). -/
def takeOff (i : Nat) (raw : BitVec 2048) (s : State) : RxFlit × State :=
  let r := scrambleFlit raw (linkOf i s).rxLanes
  (readFlit r.1, modLink i (fun l => { l with rxLanes := r.2 }) s)

/-- Header of a flit that a link sends: SEQ, the last SEQ received in order, TYPE, ACK_V (R278). -/
def flitHeader (l : LinkState) (type seq : Nat) : Nat :=
  seq + (l.rxSeq + 4095) % 4096 * 2 ^ 12 + type * 2 ^ 24 + bitN l.gotAny * 2 ^ 27

/-- Send an IDLE (1), NAK (2) or RETRAIN (3) flit (R278, R281, R283): it names the last flit delivered. -/
def sendCtl (i type : Nat) (s : State) : State :=
  let raw := buildFlit (flitHeader (linkOf i s) type 0) []
  emit i raw (modLink i (fun l => { l with ctl := some raw, unacked := 0 }) s)

end Sys2Proof.Machine
end

