-- ==== Sys2Proof/Machine/Link.lean ====
section
/-!
DEFINITION. Sending on a link: message slots, credits, order, encryption, flits into the replay buffer (R278, R281, R285 to R288,
R302 to R305, R311), and the messages the W3 sends on OCL and on the span ports.
-/
namespace Sys2Proof.Machine
open Sys2Proof

/-- May a message of class `later` pass an earlier one of class `earlier` (R288)? Classes: 0 REQ, 1 POST, 2 RSP, 3 none. -/
def mayPassAs (later earlier : Nat) (sameTag : Bool) : Bool :=
  match later, earlier with
  | 3, _ => true
  | _, 3 => true
  | 2, 2 => !sameTag
  | _, 0 => true
  | _, _ => false

/-- May a later message on its way out pass an earlier one (R288)? -/
def mayPass (later earlier : OutMsg) : Bool :=
  mayPassAs later.cls earlier.cls (fieldOf later.hdr 8 10 == fieldOf earlier.hdr 8 10)

/-- A message that leaves now is encrypted: MODE as it stands when it is sent requires it (R302); while the session is closed the mailbox
is answered in plaintext (R305). -/
def sealed (m : OutMsg) (s : State) : Bool :=
  m.enc != 0 && decide (m.enc ≤ rd F.OCL_ENC.MODE s) && !(m.mailbox && s.ocl.closed)

/-- Slots of a message that leaves now, the GCM tag slot included (R286). -/
def msgSlots (m : OutMsg) (s : State) : Nat := 1 + m.data.length + bitN (sealed m s)

/-- A message passes on OCL while the session is closed (R305). -/
def passesClosed (i : Nat) (m : OutMsg) (s : State) : Bool := i != 0 || !s.ocl.closed || m.mailbox

/-- The key slot the W3 sends under (R304). -/
def txKey (s : State) : KeySlot := if rd F.OCL_ENC.TX_SLOT s = 1 then s.ocl.tx1 else s.ocl.tx0

/-- Store it. -/
def setTxKey (k : KeySlot) (s : State) : State :=
  if rd F.OCL_ENC.TX_SLOT s = 1 then { s with ocl := { s.ocl with tx1 := k } } else { s with ocl := { s.ocl with tx0 := k } }

/-- Can this message leave on link `i` now, behind `n` slots of the same batch (R277, R281, R287, R304, R305)? CREDIT flows in PARAMS
too. -/
def sendable (i : Nat) (m : OutMsg) (n : Nat) (s : State) : Bool :=
  let l := linkOf i s
  (linkActive i s || (m.cls == 3 && linkSt i s == 3)) && passesClosed i m s &&
  (match m.cls with
    | 0 => decide (msgSlots m s ≤ l.creditReq)
    | 1 => decide (msgSlots m s ≤ l.creditPost)
    | _ => true) &&
  decide (l.replay.length + cdiv (n + msgSlots m s) 15 ≤ 1024) &&
  (!sealed m s || ((txKey s).epoch.isSome && decide ((txKey s).ctr < 2 ^ 48)))

/-- An `EVT_SEL` entry names this bit (R299). (DEDUCED, unsafe: log entry 42.) -/
def selected (off bit : Nat) (s : State) : Bool :=
  (List.range 32).any fun n => on (F.EVT_SEL.V n) s && rd (F.EVT_SEL.OFF n) s * 4 == off && rd (F.EVT_SEL.BIT n) s == bit

/-- Drop an event record (R300): counted, EVT_OVF set. Where EVT_OVF rises and `EVT_SEL` names it, its own record finds no room either. -/
def dropEvent (s : State) : State :=
  wr F.OCL_STS.EVT_OVF 1
    (bumpBy F.EVT_DROP_CNT (1 + bitN (!on F.OCL_STS.EVT_OVF s && selected F.OCL_STS.EVT_OVF.off F.OCL_STS.EVT_OVF.lo s)) s)

/-- Put a status change into the queue of the event path (R298, R300): dropped beyond 256 entries. A bit that rises in the same cycle as
the last record's, in the same register, shares that record (R299). (DEDUCED, unsafe: log entry 42.) -/
def queueEvent (off bits : Nat) (s : State) : State :=
  let shared := match s.ocl.evQueue.getLast? with
    | some e => e.off == off && e.stamp == timestamp s && e.bits &&& bits == 0
    | none => false
  if shared then
    let add := fun (e : EvRec) => { e with bits := e.bits ||| bits }
    { s with ocl := { s.ocl with evQueue := s.ocl.evQueue.dropLast ++ (s.ocl.evQueue.getLast?.map add).toList } }
  else if s.ocl.evQueue.length < 256 then
    { s with ocl := { s.ocl with evQueue := s.ocl.evQueue ++ [⟨off, bits, timestamp s⟩] } }
  else dropEvent s

/-- Bits that a chapter raises on the event path (R150, R131, R160, R206, R373, R408, R437, R458, R479, R508).
(DEDUCED, unsafe: log entry 42.) -/
def eventful (off bit : Nat) : Bool :=
  let mask :=
    if off = O.FLT_STS then 0xFF
    else if off = O.BOOT_STS then 0x7FF
    else if off = O.SEC_STS then 0x7F
    else if off = O.PIN_STS then 0x1FF
    else if off = O.CELL_WIN_STS then 0x3
    else if off = O.KV_STS then 0x40
    else if off = O.PREC_STS then 0x1
    else if off = O.SCHED_STS then 0x8
    else if off = O.BEAT_STS then 0x1
    else if off = O.PWR_STS then 0x7F
    else if off = O.THR_STS then 0x9FF
    else 0
  bitsOf mask bit 1 == 1

/-- Set a status bit; its rise is queued for the event path (R299). -/
def raiseQuiet (f : Fld) (s : State) : State :=
  let s1 := wr f 1 s
  if on f s then s1
  else if eventful f.off f.lo || selected f.off f.lo s then queueEvent f.off (2 ^ f.lo) s1 else s1

/-- Seal a message that MODE encrypts (R303): header with ENC and KEY_SLOT, ciphertext and tag; the counter rises. -/
def sealMsg (m : OutMsg) (s : State) : List Slot16 × State :=
  if sealed m s then
    let k := txKey s
    let h := m.hdr ||| BitVec.ofNat 128 (2 ^ 24 + rd F.OCL_ENC.TX_SLOT s * 2 ^ 26)
    let s1 := setTxKey { k with ctr := k.ctr + 1 } s
    (h :: gcmSeal k.key (k.epoch.getD 0) k.ctr h m.data, if k.ctr + 1 = 2 ^ 40 + 1 then raiseQuiet F.OCL_STS.REKEY s1 else s1)
  else (m.hdr :: m.data, s)

/-- A slot of a flit to be sent, and what its acknowledgement completes. -/
abbrev TxSlot := Slot16 × List AckMark

/-- Send slots as PAYLOAD flits, 15 a flit (R281, R285). `n` bounds the flits. (DESIGN CHOICE, safe: log entry 39.) -/
def pushFlits : Nat → Nat → List TxSlot → State → State
  | 0, _, _, s => s
  | n + 1, i, slots, s =>
    if slots.isEmpty then s
    else
      let l := linkOf i s
      let f : SentFlit :=
        { seq := l.txSeq, raw := buildFlit (flitHeader l 0 l.txSeq) ((slots.take 15).map (·.1)), marks := (slots.take 15).flatMap (·.2),
          replays := 0 }
      let s1 := setLink i { l with txSeq := (l.txSeq + 1) % 4096, replay := l.replay ++ [f], unacked := 0 } s
      pushFlits n i (slots.drop 15) (emit i f.raw s1)

/-- Take a message's credits (R287). -/
def takeCredits (i : Nat) (m : OutMsg) (s : State) : State :=
  modLink i (fun l =>
    match m.cls with
    | 0 => { l with creditReq := l.creditReq - msgSlots m s }
    | 1 => { l with creditPost := l.creditPost - msgSlots m s }
    | _ => l) s

/-- The moderation record of an interrupt vector. -/
def moderationOf (v : Nat) (s : State) : Option Moderation := s.ocl.intr.find? (·.vector == v)

/-- Store it. -/
def setModeration (m : Moderation) (s : State) : State :=
  { s with ocl := { s.ocl with intr := m :: s.ocl.intr.filter (·.vector != m.vector) } }

/-- OP of a message that waits on a link. -/
def outOp (m : OutMsg) : Nat := fieldOf m.hdr 0 8

/-- VECTOR of an INTR that waits on OCL. -/
def outVector (m : OutMsg) : Nat := fieldOf m.hdr 112 16

/-- An INTR leaves: the beat it leaves in counts for its vector (R301). -/
def stampIntr (i : Nat) (m : OutMsg) (s : State) : State :=
  if i = 0 ∧ outOp m = 0x06 then
    setModeration ⟨outVector m, beatNo s, ((moderationOf (outVector m) s).map (·.owed)).getD false⟩ s
  else s

/-- The slots of a message; the acknowledgement of the last one completes the message. -/
def markLast (marks : List AckMark) : List Slot16 → List TxSlot
  | [] => []
  | [x] => [(x, marks)]
  | x :: xs => (x, []) :: markLast marks xs

/-- Send a message that can be sent: its slots, its credits taken. (DESIGN CHOICE, safe: log entry 39.) -/
def transmit (i : Nat) (m : OutMsg) (s : State) : List TxSlot × State :=
  let p := sealMsg m (stampIntr i m (takeCredits i m s))
  (markLast m.marks p.1, p.2)

/-- Every waiting message that order, credits and the link permit, back to back as slots (R285); the rest stay, in order. What a closed
session holds back holds back nothing itself (R305). -/
def pumpList (i : Nat) : List OutMsg → List OutMsg → List TxSlot → State → (List OutMsg × List TxSlot) × State
  | [], blocked, out, s => ((blocked, out), s)
  | m :: ms, blocked, out, s =>
    if sendable i m out.length s && blocked.all (fun b => mayPass m b || !passesClosed i b s) then
      let r := transmit i m s
      pumpList i ms blocked (out ++ r.1) r.2
    else pumpList i ms (blocked ++ [m]) out s

/-- Send what link `i` can send of its waiting messages. -/
def pump (i : Nat) (s : State) : State :=
  let p := pumpList i (linkOf i s).waiting [] [] s
  pushFlits (cdiv p.1.2.length 15) i p.1.2 (modLink i (fun l => { l with waiting := p.1.1 }) p.2)

/-- Hand a message to link `i`. -/
def sendOut (i : Nat) (m : OutMsg) (s : State) : State :=
  pump i (modLink i (fun l => { l with waiting := l.waiting ++ [m] }) s)

/-! ### Messages of OCL -/

/-- Header slot of an OCL message (R285). -/
def oclHeader (op tag lenm1 status flags addr fst count vector : Nat) : Slot16 :=
  BitVec.ofNat 128 (op % 256 + (tag % 1024 + lenm1 % 8 * 1024 + status % 8 * 8192) * 2 ^ 8 + flags % 256 * 2 ^ 24 +
    addr % 2 ^ 64 * 2 ^ 32 + fst % 256 * 2 ^ 96 + count % 256 * 2 ^ 104 + vector % 65536 * 2 ^ 112)

/-- MODE encrypts the writes and read completions of the DATA class (R302). -/
def encData (s : State) : Bool := decide (1 ≤ rd F.OCL_ENC.MODE s)

/-- MODE encrypts MMIO data (R302). -/
def encMmio (s : State) : Bool := rd F.OCL_ENC.MODE s == 2

/-- A list of bytes as whole slots. -/
def bytesToSlots : Nat → List Byte → List Slot16
  | 0, _ => []
  | n + 1, bs => BitVec.ofNat 128 (bytesToNat (bs.take 16)) :: bytesToSlots n (bs.drop 16)

/-- Write whole lines (WR, R286). -/
def sendWr (addr lines : Nat) (data : List Byte) (marks : List AckMark) (s : State) : State :=
  sendOut 0
    { cls := 1, hdr := oclHeader 0x03 0 (lines - 1) 0 0 addr 0 0 0, data := bytesToSlots (4 * lines) data, enc := 1,
      mailbox := false, marks := marks } s

/-- Write bytes within one line (WR_PART, R286): the data sit at their line positions. -/
def sendWrPart (addr : Nat) (data : List Byte) (marks : List AckMark) (s : State) : State :=
  sendOut 0
    { cls := 1, hdr := oclHeader 0x04 0 0 0 0 (addr - addr % 64) (addr % 64) data.length 0,
      data := bytesToSlots 4 (List.replicate (addr % 64) 0 ++ data), enc := 1, mailbox := false, marks := marks } s

/-- Send INTR (R301). -/
def sendIntr (vector : Nat) (s : State) : State :=
  sendOut 0
    { cls := 1, hdr := oclHeader 0x06 0 0 0 0 0 0 0 vector, data := [], enc := 0, mailbox := false, marks := [] } s

/-- End a watch (UNWATCH, R286). -/
def sendUnwatch (addr : Nat) (s : State) : State :=
  sendOut 0
    { cls := 1, hdr := oclHeader 0x05 0 0 0 0 addr 0 0 0, data := [], enc := 0, mailbox := false, marks := [] } s

/-- Answer an MMIO_RD (CPL_DATA, R286, R297). -/
def sendCpl (tag status : Nat) (data : Nat) (mailbox : Bool) (s : State) : State :=
  sendOut 0
    { cls := 2, hdr := oclHeader 0x20 tag 0 status 0 0 0 0 0, data := [BitVec.ofNat 128 data],
      enc := 2, mailbox := mailbox, marks := [] } s

/-- Answer an SNP_INV (R292). -/
def sendSnpAck (addr : Nat) (s : State) : State :=
  sendOut 0
    { cls := 2, hdr := oclHeader 0x21 0 0 0 0 addr 0 0 0, data := [], enc := 0, mailbox := false, marks := [] } s

/-- Return credits, or advertise them (R287). -/
def sendCredit (req post : Nat) (init : Bool) (s : State) : State :=
  sendOut 0
    { cls := 3, hdr := oclHeader 0x30 0 0 0 0 (req % 65536 + post % 65536 * 65536) (bitN init) 0 0, data := [], enc := 0,
      mailbox := true, marks := [] } s

/-- A TAG that no outstanding read uses, looking from the next one on (R286). -/
def freeTag (s : State) : Option Nat :=
  ((List.range 1024).map fun k => (s.ocl.nextTag + k) % 1024).find? fun t => !(s.ocl.reads.any fun r => r.tag == t)

/-- Send RD or RD_WATCH (R286, R292) for an outstanding read. -/
def sendRead (r : HostRead) (s : State) : State :=
  sendOut 0
    { cls := 0, hdr := oclHeader (if r.watch then 0x02 else 0x01) r.tag r.lenm1 0 0 r.addr 0 0 0, data := [], enc := 0,
      mailbox := false, marks := [] } s

/-- Issue a read under the next free TAG; with all 1,024 out it waits (R286). -/
def issueRead (r0 : HostRead) (s : State) : State :=
  match freeTag s with
  | none => { s with ocl := { s.ocl with readWait := s.ocl.readWait ++ [r0] } }
  | some t =>
    let r : HostRead := { r0 with tag := t }
    sendRead r { s with ocl := { s.ocl with reads := s.ocl.reads ++ [r], nextTag := (t + 1) % 1024 } }

/-- Read `lenm1` + 1 lines of host memory (R286, R290). -/
def hostRead (addr lenm1 : Nat) (watch : Bool) (use : ReadUse) (s : State) : State :=
  issueRead { tag := 0, addr := addr, lenm1 := lenm1, watch := watch, retried := false, use := use } s

/-- Issue the reads that waited, as far as TAGs are free. -/
def issueWaiting (s : State) : State := forEach s.ocl.readWait issueRead { s with ocl := { s.ocl with readWait := [] } }

/-- A read with this use is outstanding or waits. -/
def readingFor (use : ReadUse) (s : State) : Bool := (s.ocl.reads ++ s.ocl.readWait).any (·.use == use)

/-! ### Extents of host memory (R286, R290) -/

/-- The extent being read for a use. -/
def fetchOf (u : FetchUse) (s : State) : Option Fetch := s.ocl.fetches.find? (·.use == u)

/-- Extents of these uses are read no further. -/
def dropFetches (p : FetchUse → Bool) (s : State) : State :=
  { s with ocl := { s.ocl with fetches := s.ocl.fetches.filter fun f => !p f.use } }

/-- Bytes that the next read of an extent brings: at most eight lines, no crossing of a 4 KiB boundary (R286). -/
def fetchBytes (f : Fetch) : Nat := min f.left (min (512 - f.addr % 64) (4096 - f.addr % 4096))

/-- Whole records of `n` bytes in a list of bytes. -/
def recordsOf (n : Nat) (bs : List Byte) : List Nat :=
  (List.range (bs.length / n)).map fun i => bytesToNat ((bs.drop (n * i)).take n)

/-- Put an extent's next read on its way. -/
def fetchNext (f : Fetch) (s : State) : State :=
  hostRead (f.addr - f.addr % 64) (cdiv (f.addr % 64 + fetchBytes f) 64 - 1) false (.fetch f.use)
    { s with ocl := { s.ocl with fetches := s.ocl.fetches ++ [f] } }

/-- Begin to read an extent of host memory. -/
def startFetch (u : FetchUse) (addr n : Nat) (s : State) : State := fetchNext ⟨u, addr, n, []⟩ (dropFetches (· == u) s)

/-- The lines of an extent's read have come: the extent with them. -/
def Fetch.take (f : Fetch) (bs : List Byte) : Fetch :=
  let n := fetchBytes f
  { f with addr := f.addr + n, left := f.left - n, got := f.got ++ (bs.drop (f.addr % 64)).take n }

/-! ### Messages of the span ports -/

/-- Header slot of a span message (R311). -/
def spanHeader (op model dlen psn arg : Nat) : Slot16 :=
  BitVec.ofNat 128 (op % 256 + model % 16 * 2 ^ 8 + dlen % 65536 * 2 ^ 16 + psn % 2 ^ 32 * 2 ^ 32 + arg % 2 ^ 64 * 2 ^ 64)

/-- The stream of a span message this module sends (R312): 0 none, 1 MIRROR, 2 SPLIT, 3 PASS. -/
def streamOf (op : Nat) (primary : Bool) : Nat :=
  if op = 0x02 then (if primary then 1 else 0)
  else if 0x10 ≤ op ∧ op ≤ 0x15 then 1
  else if op = 0x20 then 3
  else if 0x30 ≤ op ∧ op ≤ 0x32 then 2
  else 0

/-- Ports that are ACTIVE. -/
def activePorts (s : State) : List Nat := (List.range 4).filter fun k => linkActive (k + 1) s

/-- A span message as it waits on a port. -/
def spanOut (m : SpanMsg) : OutMsg :=
  { cls := if m.op = 0x3F then 3 else 0, hdr := spanHeader m.op m.model m.data.length m.psn m.arg, data := m.data, enc := 0,
    mailbox := false, marks := [] }

/-- Send a span message on one port. -/
def sendOnPort (k : Nat) (m : SpanMsg) (s : State) : State := sendOut (k + 1) (spanOut m) s

/-- Stands for the port of a stream message that no port has taken yet. -/
def noPort : Nat := 4

/-- Put a span message on an ACTIVE port of the sender's choice (R313); a stream message is kept until it is known to have arrived.
With no port ACTIVE a stream message waits, and any other is not sent. -/
def putSpan (m : SpanMsg) (st : Nat) (s : State) : State :=
  match activePorts s with
  | [] => if st = 0 then s else { s with pair := { s.pair with outstanding := s.pair.outstanding ++ [(noPort, st, m)] } }
  | p :: ps =>
    let k := (p :: ps).getD (freeHere s % (ps.length + 1)) p
    let s0 := takeFree s
    let s1 := if st = 0 then s0 else
      { s0 with pair := { s0.pair with outstanding := s0.pair.outstanding ++ [(k, st, m)] } }
    sendOnPort k m s1

/-- Next PSN of a stream (R313). -/
def nextPsn (st : Nat) (s : State) : Nat := Table.get (fun _ => 0) s.pair.txPsn st

/-- A message takes the next PSN of its stream (R313). -/
def takePsn (st : Nat) (s : State) : State :=
  if st = 0 then s
  else { s with pair := { s.pair with txPsn := Table.set (fun _ => 0) s.pair.txPsn st ((nextPsn st s + 1) % 2 ^ 32) } }

/-- Send a span message (R312, R313). -/
def sendSpan (op model arg : Nat) (data : List Slot16) (s : State) : State :=
  let st := streamOf op (rd F.PAIR_STATE.STATE s == 3)
  putSpan { op := op, model := model, psn := if st = 0 then 0 else nextPsn st s, arg := arg, data := data } st (takePsn st s)

/-- Send a span message on every ACTIVE port (R325). -/
def sendEveryPort (op arg : Nat) (s : State) : State :=
  forEach (activePorts s) (fun k => sendOnPort k { op := op, model := 0, psn := 0, arg := arg, data := [] }) s

end Sys2Proof.Machine
end

