-- ==== Sys2Proof/Machine/Flags.lean ====
section
/-!
DEFINITION. Raising status bits on the event path, interrupts and their moderation, PLDM events, journal requests, fault reports
(R298 to R301, R350, R419, R493, R499).
-/
namespace Sys2Proof.Machine
open Sys2Proof

/-! ### Rings in host memory (R212) -/

/-- Address of entry `i` of a ring. -/
def entryAddr (base sizeLog i size : Nat) : Nat := base + 128 + i % 2 ^ sizeLog * size

/-- Entries in a ring: PROD − CONS modulo 2³². -/
def ringUsed (prod cons : Nat) : Nat := (prod + 2 ^ 32 - cons % 2 ^ 32) % 2 ^ 32

/-- A 64-bit address from two registers. -/
def addr64 (lo hi : Nat) (s : State) : Nat := (reg lo s).toNat + 2 ^ 32 * (reg hi s).toNat

/-! ### Interrupts -/

/-- An INTR of this vector waits to leave. -/
def intrWaits (v : Nat) (s : State) : Bool := (linkOf 0 s).waiting.any fun m => outOp m == 0x06 && outVector m == v

/-- An INTR of this vector may be sent now (R301): MOD beats have passed since the last one left, and none waits. -/
def intrFree (v : Nat) (s : State) : Bool :=
  rd F.EVT_CFG.MOD s == 0 || (!intrWaits v s &&
    match moderationOf v s with
    | none => true
    | some m => decide (m.last + rd F.EVT_CFG.MOD s ≤ beatNo s))

/-- A write for which vector `v` sends no INTR yet is noted, or no longer (R301). -/
def oweIntr (v : Nat) (owed : Bool) (s : State) : State :=
  match moderationOf v s with
  | some m => setModeration { m with owed := owed } s
  | none => when owed (setModeration ⟨v, beatNo s, true⟩) s

/-- A write that vector `v` announces has been made (R301): INTR after it, or owed. -/
def interrupt (v : Nat) (s : State) : State :=
  let n := v % 65536
  if intrFree n s then sendIntr n (oweIntr n false s) else oweIntr n true s

/-! ### The event path -/

/-- Event ring of R298: is it full? -/
def eventRingFull (s : State) : Bool :=
  s.ocl.evFull || decide (2 ^ rd F.EVT_CFG.SIZE_LOG s ≤ ringUsed s.ocl.evProd s.ocl.evCons)

/-- The 16 bytes of an event record (R298). -/
def eventBytes (e : EvRec) : List Byte := natToBytes 4 e.off ++ natToBytes 4 e.bits ++ natToBytes 8 e.stamp

/-- Write queued records, oldest first, and say whether one was written; records that find the ring full are dropped (R300). -/
def writeEvents : List EvRec → Bool → State → Bool × State
  | [], w, s => (w, s)
  | e :: es, w, s =>
    if eventRingFull s then writeEvents es w (dropEvent s)
    else
      let a := entryAddr (addr64 O.EVT_RING_BASE O.EVT_RING_BASE_HI s) (rd F.EVT_CFG.SIZE_LOG s) s.ocl.evProd 16
      writeEvents es true
        (sendWrPart a (eventBytes e) [] { s with ocl := { s.ocl with evProd := (s.ocl.evProd + 1) % 2 ^ 32 } })

/-- Drain the queue of the event path while OCL carries traffic and the ring's header has been read (R212, R298 to R301). With the ring not enabled there is no ring to
write to, and the records are not kept. -/
def flushEvents (s : State) : State :=
  match s.ocl.evQueue with
  | [] => s
  | es =>
    if !on F.EVT_CFG.ENABLE s then { s with ocl := { s.ocl with evQueue := [] } }
    else if oclUp s ∧ !s.svc.unread.contains 18 then
      let p := writeEvents es false { s with ocl := { s.ocl with evQueue := [] } }
      if p.1 then
        let s1 := sendWrPart (addr64 O.EVT_RING_BASE O.EVT_RING_BASE_HI p.2) (natToBytes 4 p.2.ocl.evProd) [] p.2
        when (on F.INTR_EN.EVT s1) (interrupt (rd F.INTR_CFG.EVT_VEC s1)) s1
      else p.2
    else s

/-- Set a status bit and report its rise (R299). -/
def raise (f : Fld) (s : State) : State := flushEvents (raiseQuiet f s)

/-- Set two status bits of one register that rise in the same cycle: they share a record (R299). -/
def raiseBoth (f g : Fld) (s : State) : State := flushEvents (raiseQuiet g (raiseQuiet f s))

/-! ### PLDM events and ALERT -/

/-- Replace the youngest queued event that is not FATAL (R499); the queue is oldest first. -/
def replaceYoungest (e : PldmEvent) (q : List PldmEvent) : List PldmEvent :=
  match q.reverse.findIdx? (fun x => x.code != 0x22) with
  | none => q
  | some i => (q.reverse.eraseIdx i).reverse ++ [e]

/-- `TIMESTAMP` of a PLDM event: 0 before the first beat edge (R499). -/
def pldmStamp (s : State) : Nat := if s.beat.reference.isNone ∧ beatNo s = 0 then 0 else timestamp s

/-- Queue a PLDM event for the BMC; `ALERT` is high while the queue is not empty (R493, R499). A FATAL event
that meets a queue of FATAL events alone is neither queued nor counted. (DESIGN CHOICE, unsafe: log entry 43.) -/
def pldm (code detail : Nat) (s : State) : State :=
  let e : PldmEvent := ⟨code, pldmStamp s, detail % 2 ^ 32, false⟩
  if s.mgmt.events_.length < 64 then { s with mgmt := { s.mgmt with events_ := s.mgmt.events_ ++ [e] } }
  else if code = 0x22 then { s with mgmt := { s.mgmt with events_ := replaceYoungest e s.mgmt.events_ } }
  else raise F.PIN_STS.EVT_DROP (bump F.PLDM_DROP_CNT s)

/-- Issue a warning of R408: its status bit, and its PLDM event with the field index where one applies (R499). -/
def warn (code field : Nat) (f : Fld) (s : State) : State := pldm code field (raise f s)

/-! ### Journal requests -/

/-- Urgent records go ahead of the waiting ones that are not (R419). -/
def insertUrgent (p : JPending) : List JPending → List JPending
  | [] => [p]
  | q :: qs => if q.urgent then q :: insertUrgent p qs else p :: q :: qs

/-- Request a journal record (R417 to R419). After both areas have failed nothing is written.
(DESIGN CHOICE, unsafe: log entry 54.) -/
def journal (type : Nat) (payload : List Nat) (after : Durable) (s : State) : State :=
  if s.boot.failed then s
  else
    let urgent := type == 0x05 || type == 0x06 || type == 0x0E
    let p : JPending := ⟨type, payload, timestamp s, urgent, after⟩
    { s with boot := { s.boot with
        waiting := if urgent then insertUrgent p s.boot.waiting else s.boot.waiting ++ [p] } }

/-! ### Fault reports -/

/-- Send a data-class fault report with what it tells beside cause and cell. -/
def sendReport (r : Report) (s : State) : State := { s with mesh := { s.mesh with reports := s.mesh.reports ++ [r] } }

/-- Send a data-class fault report on its way to the fault controller (R350). -/
def report (cause c : Nat) (s : State) : State := sendReport ⟨cause, c, 0, none, false⟩ s

/-- Add an FW hold source (R144); each rule that raises one has its own code. -/
def holdFw (code : Nat) (s : State) : State :=
  if s.sched.fw.contains code then s else { s with sched := { s.sched with fw := code :: s.sched.fw } }

/-- Remove an FW hold source. -/
def releaseFw (code : Nat) (s : State) : State :=
  { s with sched := { s.sched with fw := s.sched.fw.filter (· != code) } }

end Sys2Proof.Machine
end

