-- ==== Sys2Proof/Machine/Budget.lean ====
section
/-!
DEFINITION. Charging the activity budgets (R165 to R170, R175).
-/
namespace Sys2Proof.Machine
open Sys2Proof

/-- One bit of a status register. -/
def bitFld (off bit : Nat) : Fld := ⟨off, bit, 1⟩

/-- What one unit of a used counter counts: 0 slot-flits, 1 stack bytes, 2 energy in nJ (R175). -/
def unitOf (kind : Nat) : Nat := [4096, 65536, 1000000].getD kind 1

/-- The used counter of an activity and kind. -/
def usedFld (a kind : Nat) : Fld :=
  match kind with
  | 0 => F.USED_FLIT.VALUE a
  | 1 => F.USED_STACK.VALUE a
  | _ => F.USED_MJ.VALUE a

/-- The last-frame register of an activity and kind. -/
def lastFld (a kind : Nat) : Fld :=
  match kind with
  | 0 => F.LAST_FLIT.VALUE a
  | 1 => F.LAST_STACK.VALUE a
  | _ => F.LAST_MJ.VALUE a

/-- The limit register of an activity and kind. -/
def limFld (a kind : Nat) : Fld :=
  match kind with
  | 0 => F.LIM_FLIT.VALUE a
  | 1 => F.LIM_STACK.VALUE a
  | _ => F.LIM_MJ.VALUE a

/-- All ones: no limit (R169). -/
def noLimit (kind : Nat) : Nat := if kind = 2 then 0xFFFFF else 0xFFFFFFFF

/-- The limit in force (R175). -/
def limitOf (a kind : Nat) (s : State) : Nat := Table.get (fun k => noLimit (k % 4)) s.budget.limits (a * 4 + kind)

/-- A used counter has reached its limit (R166). -/
def reached (a kind : Nat) (s : State) : Bool :=
  limitOf a kind s != noLimit kind && decide (limitOf a kind s ≤ rd (usedFld a kind) s)

/-- Set `BUDGET_HELD` and `BUDGET_STS.EXHAUST` of an activity when any of its limits is reached (R170); a further limit reached while it is
held sets neither again. (DESIGN CHOICE, unsafe: log entry 92.) -/
def checkHeld (a : Nat) (s : State) : State :=
  if reached a 0 s || reached a 1 s || reached a 2 s then
    if on (bitFld O.BUDGET_HELD a) s then s else raise (bitFld O.BUDGET_STS a) (wr (bitFld O.BUDGET_HELD a) 1 s)
  else s

/-- Charge an activity `n` slot-flits, stack bytes or nJ (R165, R170). (DEDUCED, safe: log entry 64.) -/
def charge (a kind n : Nat) (s : State) : State :=
  let total := Table.get (fun _ => 0) s.budget.part (a * 4 + kind) + n
  let s1 := { s with budget := { s.budget with part := Table.set (fun _ => 0) s.budget.part (a * 4 + kind) (total % unitOf kind) } }
  checkHeld a (wr (usedFld a kind) (satN (usedFld a kind).w (rd (usedFld a kind) s1 + total / unitOf kind)) s1)

/-- Kinds of events whose energy firmware weights by a coefficient (R165). -/
def energyMac (mode : Nat) : Nat := mode

/-- Energy of vector operations. -/
def energyVec : Nat := 4

/-- Energy of flit-hops of a virtual channel. -/
def energyHop (vc : Nat) : Nat := 8 + vc

/-- Energy of stack bytes. -/
def energyStack : Nat := 12

/-- Charge the energy of `n` events of a kind. (DEDUCED, safe: log entry 64.) -/
def chargeEnergy (a kind n : Nat) (s : State) : State := charge a 2 (Config.energyCoef kind * n) s

/-- An activity is held (R166, R167): it has reached a limit, or a limit of zero blocks it (R169). -/
def held (a : Nat) (s : State) : Bool := on (bitFld O.BUDGET_HELD a) s || reached a 0 s || reached a 1 s || reached a 2 s

/-- Activity of a launch entry (R137, R165): 1 Generate, 2 Prefill, 3 Tune. -/
def activityOf (entry : Nat) : Nat := if entry = 2 then 1 else if entry = 3 then 7 else 0

end Sys2Proof.Machine
end

