-- ==== Sys2Proof/Machine/Float.lean ====
section
/-!
DEFINITION. FP32 and BF16 arithmetic of the vector and tensor units (R95, R118): exact dyadic values, one rounding, subnormals
flushed to zero with their sign. Approximate results are any value within the bound of R118.
-/
namespace Sys2Proof.Machine
open Sys2Proof

/-- An exact value m × 2ᵉ. -/
structure Dy where
  /-- Mantissa. -/
  m : Int
  /-- Exponent. -/
  e : Int
  deriving DecidableEq, Repr

/-- Exact zero. -/
def Dy.zero : Dy := ⟨0, 0⟩

/-- The mantissa of `a` at exponent `e`, for e ≤ a.e. -/
def Dy.at_ (a : Dy) (e : Int) : Int := a.m * 2 ^ (a.e - e).toNat

/-- Exact sum. -/
def Dy.add (a b : Dy) : Dy :=
  let e := if a.e ≤ b.e then a.e else b.e
  ⟨a.at_ e + b.at_ e, e⟩

/-- Exact product. -/
def Dy.mul (a b : Dy) : Dy := ⟨a.m * b.m, a.e + b.e⟩

/-- Exact negation. -/
def Dy.neg (a : Dy) : Dy := ⟨-a.m, a.e⟩

/-- Exact magnitude. -/
def Dy.abs (a : Dy) : Dy := ⟨a.m.natAbs, a.e⟩

/-- Exact order. -/
def Dy.le (a b : Dy) : Bool :=
  let e := if a.e ≤ b.e then a.e else b.e
  decide (a.at_ e ≤ b.at_ e)

/-- Exact strict order. -/
def Dy.lt (a b : Dy) : Bool := !b.le a

/-- Exact sum of a list. -/
def Dy.sum (l : List Dy) : Dy := l.foldl Dy.add Dy.zero

/-- A quotient with enough bits, and a sticky bit, for one later rounding (divisor not zero). -/
def Dy.div (a b : Dy) : Dy :=
  let k := b.m.natAbs.log2 + 64
  let n := a.m.natAbs * 2 ^ k
  let q := 2 * (n / b.m.natAbs) + (if n % b.m.natAbs = 0 then 0 else 1)
  ⟨if (a.m < 0) = (b.m < 0) then (q : Int) else -(q : Int), a.e - b.e - k - 1⟩

/-- Drop `k` low bits of a number, rounding to nearest, ties to even. -/
def rne (n k : Nat) : Nat :=
  if k = 0 then n
  else
    let q := n / 2 ^ k
    let r := n % 2 ^ k
    if 2 ^ (k - 1) < r ∨ (r = 2 ^ (k - 1) ∧ q % 2 = 1) then q + 1 else q

/-- Round a magnitude n × 2ᵉ to FP32 with a sign: overflow to infinity, results below the normal range to zero (R95). -/
def packFp (neg : Bool) (n : Nat) (e : Int) : Word :=
  let sign := if neg then 2 ^ 31 else 0
  if n = 0 then BitVec.ofNat 32 sign
  else
    let len := n.log2 + 1
    let q := if len ≤ 24 then n * 2 ^ (24 - len) else rne n (len - 24)
    let e0 := e + len - 24
    let q1 := if q = 2 ^ 24 then 2 ^ 23 else q
    let e1 := if q = 2 ^ 24 then e0 + 1 else e0
    let biased := e1 + 150
    if 255 ≤ biased then BitVec.ofNat 32 (sign + 255 * 2 ^ 23)
    else if biased ≤ 0 then BitVec.ofNat 32 sign
    else BitVec.ofNat 32 (sign + biased.toNat * 2 ^ 23 + (q1 - 2 ^ 23))

/-- Round an exact value to FP32; exact zero is +0. -/
def Dy.toFp (a : Dy) : Word := packFp (decide (a.m < 0)) a.m.natAbs a.e

/-- Sign of an FP32 value. -/
def fpNeg (w : Word) : Bool := bitAt w 31

/-- Biased exponent of an FP32 value. -/
def fpExp (w : Word) : Nat := fieldOf w 23 8

/-- Fraction of an FP32 value. -/
def fpFrac (w : Word) : Nat := fieldOf w 0 23

/-- NaN. -/
def isNan (w : Word) : Bool := fpExp w == 255 && fpFrac w != 0

/-- Infinity of either sign. -/
def isInf (w : Word) : Bool := fpExp w == 255 && fpFrac w == 0

/-- Neither infinite nor NaN. -/
def isFin (w : Word) : Bool := fpExp w != 255

/-- Zero, or a subnormal that is flushed to it (R95). -/
def isZero (w : Word) : Bool := fpExp w == 0

/-- The exact value of a finite FP32 value. -/
def fpVal (w : Word) : Dy :=
  if fpExp w = 0 then Dy.zero
  else
    let n : Int := 2 ^ 23 + fpFrac w
    ⟨if fpNeg w then -n else n, (fpExp w : Int) - 150⟩

/-- Infinity. -/
def fpInf (neg : Bool) : Word := if neg then 0xFF800000 else 0x7F800000

/-- Zero. -/
def fpZero (neg : Bool) : Word := if neg then 0x80000000 else 0

/-- A quiet NaN whose sign and payload the implementation chooses (R95). -/
def qnan (a b : Word) : Word := 0x7FC00000 ||| (Config.nanBits a b &&& 0x803FFFFF)

/-- A + B. -/
def fpAdd (a b : Word) : Word :=
  if isNan a || isNan b then qnan a b
  else if isInf a then (if isInf b && fpNeg a != fpNeg b then qnan a b else a)
  else if isInf b then b
  else if isZero a && isZero b then fpZero (fpNeg a && fpNeg b)
  else ((fpVal a).add (fpVal b)).toFp

/-- A × B. -/
def fpMul (a b : Word) : Word :=
  let neg := fpNeg a != fpNeg b
  if isNan a || isNan b then qnan a b
  else if isInf a || isInf b then (if isZero a || isZero b then qnan a b else fpInf neg)
  else if isZero a || isZero b then fpZero neg
  else ((fpVal a).mul (fpVal b)).toFp

/-- A × B + D with one rounding (R118). -/
def fpFma (a b d : Word) : Word :=
  let neg := fpNeg a != fpNeg b
  if isNan a || isNan b || isNan d then qnan (if isNan d then d else a) b
  else if isInf a || isInf b then
    if isZero a || isZero b then qnan a b
    else if isInf d && fpNeg d != neg then qnan a d
    else fpInf neg
  else if isInf d then d
  else if (isZero a || isZero b) && isZero d then fpZero (neg && fpNeg d)
  else (((fpVal a).mul (fpVal b)).add (fpVal d)).toFp

/-- max(A, B); +0 is above −0. (DEDUCED, unsafe: log entry 16.) -/
def fpMax (a b : Word) : Word :=
  if isNan a || isNan b then qnan a b
  else if isZero a && isZero b then fpZero (fpNeg a && fpNeg b)
  else if isInf a then (if fpNeg a then (if isZero b then fpZero (fpNeg b) else b) else a)
  else if isInf b then (if fpNeg b then (if isZero a then fpZero (fpNeg a) else a) else b)
  else if (fpVal a).le (fpVal b) then (if isZero b then fpZero (fpNeg b) else b)
  else (if isZero a then fpZero (fpNeg a) else a)

/-- A / B by a finite nonzero B: a NaN or an infinity of A is passed on (R95). -/
def fpDiv (a b : Word) : Word :=
  if isNan a then qnan a b
  else if isInf a then fpInf (fpNeg a != fpNeg b)
  else if isZero a then fpZero (fpNeg a != fpNeg b)
  else ((fpVal a).div (fpVal b)).toFp

/-- |A|. -/
def fpAbs (a : Word) : Word := a &&& 0x7FFFFFFF

/-- Round an FP32 value to BF16 once (R95). (DEDUCED, unsafe: log entry 16.) -/
def toBf16 (w : Word) : BitVec 16 :=
  if isNan w then (BitVec.ofNat 16 (w.toNat / 65536)) ||| 0x40
  else if isZero w then BitVec.ofNat 16 (w.toNat / 2 ^ 31 * 2 ^ 15)
  else BitVec.ofNat 16 (rne w.toNat 16)

/-- A BF16 value in FP32. -/
def ofBf16 (b : BitVec 16) : Word := BitVec.ofNat 32 (b.toNat * 65536)

/-! ### Approximate results (R118) -/

/-- Fixed-point bits used for e^x. -/
def expBits : Nat := 160

/-- ln 2 × 2¹⁶⁰, rounded down. -/
def ln2Fixed : Nat := 1013035739299659071135698605846798551586536899366

/-- Taylor terms of e^r × 2¹⁶⁰ for r × 2¹⁶⁰ = `r`, from term `i` on. -/
def expTerms : Nat → Nat → Nat → Nat → Nat
  | 0, _, _, _ => 0
  | n + 1, i, r, term => term + expTerms n (i + 1) r (term * r / 2 ^ expBits / (i + 1))

/-- e^x of a finite value with |x| < 128, to more than 120 bits. -/
def expDy (x : Dy) : Dy :=
  let fx : Int := if 0 ≤ x.e + 160 then x.m * 2 ^ (x.e + 160).toNat else x.m / 2 ^ (-(x.e + 160)).toNat
  let k := fx / (ln2Fixed : Int)
  let r := (fx - k * (ln2Fixed : Int)).toNat
  ⟨(expTerms 48 0 r (2 ^ expBits) : Int), k - 160⟩

/-- Is candidate `c` within `bound` × v of the exact value v > 0, up to the width of v's own enclosure? -/
def within (c v : Dy) (bound : Dy) : Bool := (c.add v.neg).abs.le (((bound.add ⟨1, -100⟩).mul v))

/-- EXP (R118): 0 below −87.33, +∞ above 88.72, otherwise any FP32 value within 2⁻²¹ relative. -/
def fpExpOp (a : Word) : Word :=
  if isNan a then qnan a a
  else if isInf a then (if fpNeg a then 0 else fpInf false)
  else
    let x := fpVal a
    if (x.mul ⟨100, 0⟩).lt ⟨-8733, 0⟩ then 0
    else if Dy.lt ⟨8872, 0⟩ (x.mul ⟨100, 0⟩) then fpInf false
    else
      let v := expDy x
      let c := Config.expApprox a
      if isFin c && !isZero c && within (fpVal c) v ⟨1, -21⟩ then c else v.toFp

/-- EXP raises NONFIN: its result is +∞ for an input above 88.72 (R118). -/
def expNonfin (a : Word) : Bool :=
  !isNan a && ((isInf a && !fpNeg a) || (isFin a && Dy.lt ⟨8872, 0⟩ ((fpVal a).mul ⟨100, 0⟩)))

/-- RCP (R118): ∞ for 0, otherwise any FP32 value within 2⁻²² relative. -/
def fpRcpOp (a : Word) : Word :=
  if isNan a then qnan a a
  else if isInf a then fpZero (fpNeg a)
  else if isZero a then fpInf (fpNeg a)
  else
    let r := (Dy.div ⟨1, 0⟩ (fpVal a)).toFp
    let c := Config.rcpApprox a
    if isFin c && !isZero c && !isZero r && (((fpVal c).mul (fpVal a)).add ⟨-1, 0⟩).abs.le ⟨1, -22⟩ then c else r

/-- Integer square root, bit by bit from bit `n` down. -/
def isqrtN : Nat → Nat → Nat → Nat
  | 0, _, r => r
  | n + 1, v, r => let t := r + 2 ^ n; isqrtN n v (if t * t ≤ v then t else r)

/-- 1/√x for x > 0, to more than 60 bits. -/
def rsqrtDy (x : Dy) : Dy :=
  let odd := x.e % 2 ≠ 0
  let m := if odd then 2 * x.m.natAbs else x.m.natAbs
  let e := if odd then x.e - 1 else x.e
  ⟨(isqrtN 110 (2 ^ 200 / m) 0 : Int), -100 - e / 2⟩

/-- A result that the spec does not state, its subnormals flushed as those of every result (R95). (DESIGN CHOICE, safe: log entry 14.) -/
def openFp (k : Nat) (a : Word) : Word :=
  let r := Config.openResult k a
  if isZero r then fpZero (fpNeg r) else r

/-- RSQRT (R118): within 2⁻²² relative for x > 0; of −∞ a NaN (R95); the spec states no result for zero and for finite negative operands. -/
def fpRsqrtOp (a : Word) : Word :=
  if isNan a || (isInf a && fpNeg a) then qnan a a
  else if isZero a || fpNeg a then openFp 0 a
  else if isInf a then 0
  else
    let c := Config.rsqrtApprox a
    let t := (fpVal c).mul (fpVal c) |>.mul (fpVal a)
    let lo : Dy := ⟨(2 ^ 22 - 1) * (2 ^ 22 - 1), -44⟩
    let hi : Dy := ⟨(2 ^ 22 + 1) * (2 ^ 22 + 1), -44⟩
    if isFin c && !isZero c && !fpNeg c && lo.le t && t.le hi then c else (rsqrtDy (fpVal a)).toFp

/-- Sum of a list of FP32 values within the bound of SUMRED (R118): `l` is 16 for FP32 inputs and 32 for BF16 inputs. -/
def fpSum (l : Nat) (xs : List Word) : Word :=
  match xs.find? isNan with
  | some a => qnan a a
  | none =>
    match xs.find? isInf with
    | some a => if xs.any (fun b => isInf b && fpNeg b != fpNeg a) then qnan a a else a
    | none =>
      let exact := Dy.sum (xs.map fpVal)
      let mag := Dy.sum (xs.map fun x => (fpVal x).abs)
      let c := Config.sumApprox xs
      let steps : Nat := xs.length + l.log2 * l
      -- |c − exact| × l ≤ (N + l × log₂ l) × 2⁻²⁴ × Σ|x|
      if isFin c && !isZero c && (((fpVal c).add exact.neg).abs.mul ⟨l, 0⟩).le (mag.mul ⟨steps, -24⟩) then c else exact.toFp

/-- Maximum of a list. -/
def fpMaxList : List Word → Word
  | [] => 0
  | x :: xs => xs.foldl fpMax (if isZero x then fpZero (fpNeg x) else x)

end Sys2Proof.Machine
end

