-- ==== Sys2Proof/Machine/Curd.lean ====
section
/-!
DEFINITION. Number formats and operand layouts (R91 to R106): element codes and values, block scales, whey entries, weight
records, activation runs, SUM24 groups.
-/
namespace Sys2Proof.Machine
open Sys2Proof

/-- Element formats (R91, R124). -/
inductive Fmt where
  /-- C4F. -/
  | c4f
  /-- C4I. -/
  | c4i
  /-- C3I. -/
  | c3i
  /-- C2T-T. -/
  | c2tt
  /-- C2T-S. -/
  | c2ts
  /-- W8F. -/
  | w8f
  deriving DecidableEq, Repr

/-- Element width in bits. -/
def Fmt.bits : Fmt → Nat
  | .c4f => 4
  | .c4i => 4
  | .c3i => 3
  | .c2tt => 2
  | .c2ts => 2
  | .w8f => 8

/-- WFMT of a recipe entry (R124); none for a reserved code. -/
def wfmtOf (n : Nat) : Option Fmt :=
  match n with
  | 0 => some .c4f
  | 1 => some .c4i
  | 2 => some .c3i
  | 3 => some .c2tt
  | 4 => some .c2ts
  | 5 => some .w8f
  | _ => none

/-- AFMT of a recipe entry (R124). -/
def afmtOf (n : Nat) : Option Fmt :=
  match n with
  | 0 => some .c4f
  | 1 => some .c4i
  | 2 => some .w8f
  | _ => none

/-- The code that marks a whey element (R92, R93). -/
def Fmt.marker : Fmt → Option Nat
  | .c4f => some 8
  | .c4i => some 8
  | .c3i => some 4
  | .c2tt => some 2
  | .c2ts => none
  | .w8f => none

/-- Magnitude of a W8F code without its sign, in units of 2⁻⁹ (R94). -/
def w8fMag (c : Nat) : Nat := if c / 8 = 0 then c else (8 + c % 8) * 2 ^ (c / 8 - 1)

/-- Magnitude of a UE5M3 code in units of 2⁻¹⁷ (R96). -/
def ue5m3Mag (c : Nat) : Nat := if c / 8 = 0 then c else (8 + c % 8) * 2 ^ (c / 8 - 1)

/-- Magnitude of a C4F code without its sign, in halves (R92). -/
def c4fMag (c : Nat) : Nat := [0, 1, 2, 3, 4, 6, 8, 12].getD c 0

/-- Value of a W8F code; NaN codes count as zero (R113). -/
def w8fVal (c : Nat) : Dy :=
  if c % 128 = 127 then Dy.zero else ⟨if c < 128 then (w8fMag (c % 128) : Int) else -(w8fMag (c % 128) : Int), -9⟩

/-- A W8F code is NaN. -/
def w8fNan (c : Nat) : Bool := c % 128 == 127

/-- Value of a UE5M3 code. -/
def ue5m3Val (c : Nat) : Dy := ⟨ue5m3Mag c, -17⟩

/-- Value of a two's-complement code of `w` bits. -/
def twosVal (w c : Nat) : Int := if c < 2 ^ (w - 1) then c else (c : Int) - 2 ^ w

/-- Value of an element code that is no marker (R92 to R94). -/
def elemVal (f : Fmt) (c : Nat) : Dy :=
  match f with
  | .c4f => ⟨if c < 8 then (c4fMag c : Int) else -(c4fMag (c - 8) : Int), -1⟩
  | .c4i => ⟨twosVal 4 c, 0⟩
  | .c3i => ⟨twosVal 3 c, 0⟩
  | .c2tt => ⟨twosVal 2 c, 0⟩
  | .c2ts => ⟨twosVal 2 c, 0⟩
  | .w8f => w8fVal c

/-- Greatest code magnitude that elements fit to: Emax (R93); 448 for W8F. -/
def Fmt.emax : Fmt → Nat
  | .c4f => 6
  | .c4i => 7
  | .c3i => 3
  | .c2tt => 1
  | .c2ts => 1
  | .w8f => 448

/-- Top code of a format's magnitudes. -/
def Fmt.top : Fmt → Nat
  | .c4f => 7
  | .c4i => 7
  | .c3i => 3
  | .c2tt => 1
  | .c2ts => 1
  | .w8f => 126

/-- Magnitude of code `c` as a dyadic value. -/
def Fmt.mag (f : Fmt) (c : Nat) : Dy :=
  match f with
  | .c4f => ⟨c4fMag c, -1⟩
  | .w8f => ⟨w8fMag c, -9⟩
  | _ => ⟨c, 0⟩

/-- The magnitude code whose value times a scale is nearest, ties to the even code, clamped to the top code (R91). -/
def nearestMag (f : Fmt) (scale x : Dy) : Nat :=
  ((List.range f.top).filter fun c =>
    let mid := scale.mul ((f.mag c).add (f.mag (c + 1)))
    let d := x.mul ⟨2, 0⟩
    Dy.lt mid d || (mid.le d && (c + 1) % 2 == 0)).length

/-- Encode a value under a scale: a negative value that rounds to zero becomes code 0, never a marker (R92). W8F keeps its sign
bit. -/
def encodeScaled (f : Fmt) (scale x : Dy) : Nat :=
  let c := nearestMag f scale x.abs
  let neg := decide (x.m < 0)
  match f with
  | .c4f => if neg && c != 0 then 8 + c else c
  | .w8f => if neg then 128 + c else c
  | .c4i => if neg && c != 0 then 16 - c else c
  | .c3i => if neg && c != 0 then 8 - c else c
  | .c2tt => if neg && c != 0 then 4 - c else c
  | .c2ts => if neg then (if Dy.lt x.abs (scale.mul ⟨3, -1⟩) then (if c = 0 then 0 else 3) else 2) else c

/-- Encode a value. -/
def encodeElem (f : Fmt) (x : Dy) : Nat := encodeScaled f ⟨1, 0⟩ x

/-- A value lies outside what a format's codes reach under a scale. -/
def saturates (f : Fmt) (scale x : Dy) : Bool :=
  let most : Dy := if f = .c2ts ∧ x.m < 0 then ⟨2, 0⟩ else ⟨f.emax, 0⟩
  Dy.lt (scale.mul most) x.abs

/-- The smallest UE5M3 code whose value is at least `m`, and whether m lies above the largest (R109, R111). -/
def scaleCode (m : Dy) : Nat × Bool :=
  let c := ((List.range 256).filter fun c => Dy.lt (ue5m3Val c) m).length
  if c < 256 then (c, false) else (255, true)

/-- The smallest index n, largest scale first excluded, with 2^(−2n) at least `m`: index 0 and saturation when m exceeds 1 (R112). -/
def indexCode (m : Dy) : Nat × Bool :=
  if m.le ⟨1, -6⟩ then (3, false)
  else if m.le ⟨1, -4⟩ then (2, false)
  else if m.le ⟨1, -2⟩ then (1, false)
  else (0, Dy.lt ⟨1, 0⟩ m)

/-- Value of a block index (R101). -/
def indexVal (n : Nat) : Dy := ⟨1, -(2 * (n : Int))⟩

/-! ### Reading operands -/

/-- Granules of a cell that the running image may name (R67, R68). -/
def exposed (c : Nat) (s : State) : Nat := if inT36 c s then 3072 else cellGranules

/-- Granules of a cell that its loader writes, its due engine reads and its scrubber covers: no W2 bank of a T36 image's cell (R67,
R68). -/
def reachable (c : Nat) (s : State) : Nat := if inT36 c s then 15360 else cellGranules

/-- A granule that the loader or the due engine reads: zeros where it names no memory of theirs (R67, R68). -/
def loadedGranule (c g : Nat) (s : State) : Granule := if g < reachable c s then granule c g s else 0

/-- One uncorrectable word of a cell as reads deliver it: no stated value (R86). (DESIGN CHOICE, safe: log entry 14.) -/
def spoil (c : Nat) (m : Table Byte) (w : Nat) : Table Byte :=
  let a := c * cellBytes + 8 * w
  memPut m a 8 (Config.badWord (a / 8) (BitVec.ofNat 64 (memNat m a 8))).toNat

/-- The state as a cell's reads see it: the data of an uncorrectable word are not those stored (R86). -/
def seen (c : Nat) (env : MemEnv) (s : State) : State :=
  if env.ue.isEmpty then s
  else { s with cellMem := (env.ue.filter fun w => decide (w < 8 * cellGranules)).foldl (spoil c) s.cellMem }

/-- A granule as the cell's engines read it: zeros where it names no exposed memory (R67). -/
def readGranule (c g : Nat) (s : State) : Granule := if g < exposed c s then granule c g s else 0

/-- `n` bytes of a cell's memory from byte `b` of granule `g` on, as a number. -/
def readBytes (c g b n : Nat) (s : State) : Nat :=
  let whole := (List.range ((b + n + 63) / 64)).foldr (fun k acc => (readGranule c (g + k) s).toNat + 2 ^ 512 * acc) 0
  bitsOf whole (8 * b) (8 * n)

/-- Decoded elements: exact values with their block scales applied, and what was met on the way. -/
structure Decoded where
  /-- Values. -/
  vals : List Dy
  /-- A W8F NaN was met and taken as zero (R113). -/
  nonfin : Bool
  /-- The group breaks R105. -/
  illegal : Bool

/-- Whey entry INDEX. -/
def wheyIndex (e : Nat) : Nat := bitsOf e 0 6

/-- Whey entry VALUE. -/
def wheyValue (e : Nat) : Nat := bitsOf e 8 8

/-- Codes of `n` elements of a format from a packed number. -/
def unpack (f : Fmt) (n packed : Nat) : List Nat := (List.range n).map fun i => bitsOf packed (f.bits * i) f.bits

/-- A code is the format's marker. -/
def Fmt.isMarker (f : Fmt) (c : Nat) : Bool := f.marker == some c

/-- Values of 64 codes under four block scales and whey entries: block of element i is i / 16. -/
def decodeElems (f : Fmt) (codes : List Nat) (scales : List Dy) (entries : List Nat) : List Dy × Bool :=
  let one := fun (p : Nat × Nat) =>
    let (c, i) := p
    if f.isMarker c then
      match entries.find? (fun e => wheyIndex e == i) with
      | some e => (w8fVal (wheyValue e), w8fNan (wheyValue e))
      | none => (Dy.zero, false)
    else ((scales.getD (i / 16) Dy.zero).mul (elemVal f c), decide (f = Fmt.w8f) && w8fNan c)
  let l := (codes.zip (List.range codes.length)).map one
  (l.map (·.1), l.any (·.2))

/-- Where one record of a weight operand lies (R103): its first granule, its tiles, and the tile number it starts with. -/
structure WRec where
  /-- First granule. -/
  start : Nat
  /-- Tiles. -/
  n : Nat
  /-- First tile. -/
  tile0 : Nat

/-- Markers among the elements of a record. -/
def markersOf (c : Nat) (f : Fmt) (start n : Nat) (s : State) : Nat :=
  match f.marker with
  | none => 0
  | some m =>
    ((List.range n).map fun t => ((unpack f 64 (readBytes c start (8 * f.bits * t) (8 * f.bits) s)).filter (· == m)).length).sum

/-- Granules of a record (R103). -/
def recordLen (c : Nat) (f : Fmt) (start n : Nat) (s : State) : Nat :=
  cdiv (n * f.bits) 8 + 1 + cdiv (markersOf c f start n s) 32

/-- The records that hold `total` tiles from a granule on; `k` bounds them. -/
def records (c : Nat) (f : Fmt) (s : State) : Nat → Nat → Nat → Nat → List WRec
  | 0, _, _, _ => []
  | k + 1, start, tile0, total =>
    if total = 0 then []
    else
      let n := min 64 total
      ⟨start, n, tile0⟩ :: records c f s k (start + recordLen c f start n s) (tile0 + n) (total - n)

/-- Decode one tile: 64 values, element (i, j) at place 8i + j (R102, R103, R114). -/
def decodeTile (c : Nat) (f : Fmt) (r : WRec) (t : Nat) (s : State) : Decoded :=
  let k := t - r.tile0
  let eg := cdiv (r.n * f.bits) 8
  let codes := fun q => unpack f 64 (readBytes c r.start (8 * f.bits * q) (8 * f.bits) s)
  let mine := codes k
  let idx := readBytes c (r.start + eg) k 1 s
  let scales := (List.range 4).map fun b => indexVal (bitsOf idx (2 * b) 2)
  let before := match f.marker with
    | none => 0
    | some m => ((List.range k).map fun q => ((codes q).filter (· == m)).length).sum
  let own := match f.marker with
    | none => 0
    | some m => (mine.filter (· == m)).length
  let entries := (List.range own).map fun q => readBytes c (r.start + eg + 1) (2 * (before + q)) 2 s
  let d := decodeElems f mine scales entries
  { vals := d.1, nonfin := d.2, illegal := false }

/-- Granules of the element part of an activation unit (R104). -/
def unitElems (f : Fmt) : Nat := if f = .w8f then 4 else 2

/-- An activation group keeps R105: as many markers as entries, each entry naming a marker, in ascending INDEX order. -/
def groupOk (f : Fmt) (codes entries : List Nat) (count : Nat) : Bool :=
  let idx := entries.map wheyIndex
  decide (count ≤ 4) && (codes.filter f.isMarker).length == count && idx.all (fun i => f.isMarker (codes.getD i 0)) &&
    (idx.zip (idx.drop 1)).all (fun p => decide (p.1 < p.2))

/-- Decode activation group `g` of the run at a granule (R104, R105). -/
def decodeGroup (c : Nat) (f : Fmt) (at_ g : Nat) (s : State) : Decoded :=
  let u := at_ + g / 4 * (unitElems f + 1)
  let codes := unpack f 64 (readBytes c u (8 * f.bits * (g % 4)) (8 * f.bits) s)
  let side := readBytes c (u + unitElems f) (16 * (g % 4)) 16 s
  let scales := (List.range 4).map fun b => ue5m3Val (bitsOf side (8 * b) 8)
  let count := bitsOf side 32 3
  let entries := (List.range (min count 4)).map fun q => bitsOf side (64 + 16 * q) 16
  if groupOk f codes entries count then
    let d := decodeElems f codes scales entries
    { vals := d.1, nonfin := d.2, illegal := false }
  else { vals := List.replicate 64 Dy.zero, nonfin := false, illegal := true }

/-! ### SUM24 -/

/-- Divide a mantissa by 2ᵏ, rounding to nearest, ties to even. -/
def shiftRne (m : Int) (k : Nat) : Int := if m < 0 then -(rne m.natAbs k : Int) else (rne m.natAbs k : Int)

/-- A SUM24 group: its exponent and its mantissas. -/
structure Sum24 where
  /-- E. -/
  e : Nat
  /-- Mantissas. -/
  m : List Int
  deriving DecidableEq, Repr

/-- Add two groups (R99); true when the sums saturate. -/
def Sum24.add (a b : Sum24) : Sum24 × Bool :=
  let e : Nat := max a.e b.e
  let am : List Int := a.m.map fun x => shiftRne x (e - a.e)
  let bm : List Int := b.m.map fun x => shiftRne x (e - b.e)
  let sums : List Int := (am.zip bm).map fun p => p.1 + p.2
  if sums.any (fun x => decide (32767 < x.natAbs)) then
    if e = 255 then ({ e := 255, m := sums.map fun x => if 32767 < x then 32767 else if x < -32767 then -32767 else x }, true)
    else ({ e := e + 1, m := sums.map fun x => shiftRne x 1 }, false)
  else ({ e := e, m := sums }, false)

/-- Add a list of groups pairwise in order (R99). -/
def Sum24.addAll : List Sum24 → Sum24 × Bool
  | [] => ({ e := 0, m := List.replicate 16 0 }, false)
  | g :: gs => gs.foldl (fun acc h => let r := acc.1.add h; (r.1, acc.2 || r.2)) (g, false)

/-- Value of an element (R97). -/
def sum24Val (e : Nat) (m : Int) : Dy := ⟨m, (e : Int) - 142⟩

/-- Biased binary32 exponent of a finite FP32 value. -/
def sumExp (w : Word) : Nat := fpExp w

/-- Mantissa of a finite FP32 value under group exponent `e`. -/
def sumMant (w : Word) (e : Nat) : Int :=
  let v := fpVal w
  let sh := v.e - ((e : Int) - 142)
  if 0 ≤ sh then v.m * 2 ^ sh.toNat else shiftRne v.m (-sh).toNat

/-- Encode a group of FP32 values (R98); true when it saturates. Non-finite elements have been taken as zero. -/
def Sum24.encode (xs : List Word) : Sum24 × Bool :=
  if xs.all isZero then ({ e := 0, m := xs.map fun _ => 0 }, false)
  else
    let e0 := (xs.map sumExp).foldl max 0 + 1
    let m0 := xs.map fun x => sumMant x e0
    let e1 := if m0.any (fun m => decide (32768 ≤ m.natAbs)) then e0 + 1 else e0
    if 255 < e1 then
      ({ e := 255, m := (xs.map fun x => sumMant x 255).map fun m =>
          if 32767 < m then 32767 else if m < -32767 then -32767 else m }, true)
    else ({ e := e1, m := xs.map fun x => sumMant x e1 }, false)

/-- A mantissa as 16 bits. -/
def mantBits (m : Int) : Nat := (m % 65536).toNat

/-- Mantissa of 16 bits. -/
def mantVal (n : Nat) : Int := twosVal 16 (n % 65536)

/-- Groups of a VC2 flit: group 0 and group 1 (R51). -/
def flitGroups (f : Flit) : Sum24 × Sum24 :=
  let g := fun e lo => ({ e := e, m := (List.range 16).map fun i => mantVal (fieldOf f.data (16 * (lo + i)) 16) } : Sum24)
  (g (fieldOf f.tag 27 8) 0, g (fieldOf f.tag 35 8) 16)

/-- The 512 data bits of two groups. -/
def groupData (a b : Sum24) : Granule := BitVec.ofNat 512 ((a.m ++ b.m).foldr (fun m acc => mantBits m + 65536 * acc) 0)

end Sys2Proof.Machine
end

