-- ==== Sys2Proof/Machine/Memory.lean ====
section
/-!
DEFINITION. Accesses of a cell's engines to its memory: bank classes, collisions, range, error correction, captures, the control
granule's shadow (R65 to R90); and the commands of memory that no instruction issues.
-/
namespace Sys2Proof.Machine
open Sys2Proof

/-- Port codes (R69): 0 NET_IN, 1 TENSOR, 2 VECTOR, 3 NET_OUT, 4 SEQ, 5 SCRUB. The class a port owns (R73); 0 where it owns none. -/
def portClass (port : Nat) : Nat := [3, 1, 2, 3, 0, 0].getD port 0

/-- Class in force of a bank of a cell (R68, R74): in a T36 image's cell every bank is SHARED. -/
def classOf (c b : Nat) (s : State) : Nat := if inT36 c s then 0 else fieldOf (cell c s).classes (2 * b) 2

/-- Class in force of a granule's bank in a cell (R74). -/
def bankClass (c g : Nat) (s : State) : Nat := classOf c (bankOf g) s

/-- An access by this port is off-class (R75). -/
def offClass (c port g : Nat) (s : State) : Bool :=
  port != 5 && bankClass c g s != 0 && bankClass c g s != portClass port

/-- An access that names no exposed memory (R67): RANGE is set and a data-class fault is reported. -/
def rangeFault (c : Nat) (s : State) : State := report 0x02 c (raise (F.MEM_ERR_STS.RANGE (fieldOfCell c)) s)

/-- Count one access of a port to a granule (R67, R75). (DEDUCED, safe: log entry 64.) -/
def countAccess (c port g : Nat) (s : State) : State :=
  if g < exposed c s then when (offClass c port g s) (bump (F.MEM_OFFCLASS_CNT (fieldOfCell c))) s else rangeFault c s

/-- Count the accesses of a port to a list of granules. -/
def countAccesses (c port : Nat) (gs : List Nat) (s : State) : State := forEach gs (countAccess c port) s

/-- Count one access of the loader or the due engine, which reach the W1 banks of a T36 image's cell too (R67, R68, R75, R136). -/
def countLoaded (c port g : Nat) (s : State) : State :=
  if g < reachable c s then when (offClass c port g s) (bump (F.MEM_OFFCLASS_CNT (fieldOfCell c))) s else rangeFault c s

/-! ### Collisions (R76 to R78) -/

/-- Lowest of a list of port codes. -/
def lowest (l : List Nat) : Nat := l.foldl min 7

/-- The access of a port to a bank that has lost before, if any. -/
def Cell.waits (x : Cell) (port bank : Nat) : Option Waiting := x.waiting.find? fun w => w.port == port && w.bank == bank

/-- Cycle in which a port's access to a bank became aged. -/
def Cell.agedAt (x : Cell) (port bank : Nat) : Option Nat := (x.waits port bank).bind (·.agedAt)

/-- The port of these whose access has been aged longest; of several aged in one cycle the one with the lowest code (R76). -/
def oldestAged (x : Cell) (bank : Nat) : List Nat → Option (Nat × Nat)
  | [] => none
  | p :: ps =>
    match x.agedAt p bank, oldestAged x bank ps with
    | none, r => r
    | some t, none => some (p, t)
    | some t, some q => if t < q.2 ∨ (t = q.2 ∧ p < q.1) then some (p, t) else some q

/-- A clear-engine write has waited 64 cy (R452). -/
def Meet.clearAged (m : Meet) : Bool := m.clear.any fun t => decide (t + 64 ≤ m.cy)

/-- The aged SCRUB access that a bank would serve (R76): 5 the scrub read, 6 a clear-engine write, oldest-aged first; of two aged in one
cycle the scrub read. (DEDUCED, safe: log entry 72.) -/
def agedScrub (c : Nat) (m : Meet) (s : State) : Option Nat :=
  let x := cell c s
  match m.wants.contains 5 && x.scrubAged, m.clear.filter (fun _ => m.clearAged) with
  | true, some t => some (if t + 64 < x.scrubSince then 6 else 5)
  | true, none => some 5
  | false, some _ => some 6
  | false, none => none

/-- The access that a bank serves, and whether it is aged (R76): NET_IN; aged port accesses, oldest first; aged SCRUB accesses, oldest
first; the owner of the bank's class; the other ports in the order of their codes; SCRUB accesses not aged. Codes are those of the ports,
and 6 for a clear-engine write. -/
def served (c : Nat) (m : Meet) (s : State) : Option (Nat × Bool) :=
  let x := cell c s
  let ports := [1, 2, 3, 4].filter m.wants.contains
  let cls := classOf c m.bank s
  if m.wants.contains 0 then some (0, false)
  else match oldestAged x m.bank ports with
    | some p => some (p.1, true)
    | none => match agedScrub c m s with
      | some p => some (p, true)
      | none => match ports.find? (fun p => cls != 0 && portClass p == cls), ports.head? with
        | some p, _ => some (p, false)
        | none, some p => some (p, false)
        | none, none => if m.wants.contains 5 then some (5, false) else m.clear.map fun _ => (6, false)

/-- Ports that lose the cycle to the one served (R77); a SCRUB access that is not served only waits. (DEDUCED, safe: log entry 72.) -/
def losers (m : Meet) (win : Nat) : List Nat := [1, 2, 3, 4].filter fun p => m.wants.contains p && p != win

/-- An access that has lost one more cycle; the fourth in a row makes it aged (R77). -/
def Waiting.lose (cy : Nat) (w : Waiting) : Waiting :=
  { w with losses := w.losses + 1, agedAt := if w.agedAt = none ∧ 4 ≤ w.losses + 1 then some cy else w.agedAt }

/-- An access loses one more cycle. -/
def loseOnce (cy bank : Nat) (l : List Waiting) (port : Nat) : List Waiting :=
  if l.any fun w => w.port == port && w.bank == bank then
    l.map fun w => if w.port = port ∧ w.bank = bank then w.lose cy else w
  else l ++ [{ port := port, bank := bank, losses := 1, agedAt := none }]

/-- What a cycle leaves waiting in a cell (R77): the served access waits no more, the losing ones retry; a TENSOR port that lost holds
the granules it won until it has lost none. -/
def retry (m : Meet) (win : Nat) (x : Cell) : Cell :=
  let lost := losers m win
  let left := lost.foldl (loseOnce m.cy m.bank) (x.waiting.filter fun w => !(w.port == win && w.bank == m.bank))
  { x with
    waiting := left
    tensorHeld :=
      if lost.contains 1 then (x.tensorHeld ++ m.won).eraseDups
      else if win = 1 ∧ !(left.any (·.port == 1)) then [] else x.tensorHeld }

/-- The capture of a field takes a collision of this cell in this cycle (R78): it is armed, or it holds one of the same cycle from a cell
of higher number. Of two banks of the cell that collide in that cycle the one listed first is captured. (DESIGN CHOICE, unsafe: log entry
86.) -/
def captures (c cy : Nat) (s : State) : Bool :=
  let f := fieldOfCell c
  let held := cellAt f (rd (F.MEM_COLL_LAST.ROW f) s) (rd (F.MEM_COLL_LAST.COL f) s)
  !on (F.MEM_COLL_LAST.V f) s || (s.mesh.collAt.find? (·.1 == f) == some (f, cy) && decide (c < held))

/-- Capture a collision in `MEM_COLL_LAST` (R78, R90). -/
def captureColl (c : Nat) (m : Meet) (win : Nat × Bool) (s : State) : State :=
  let f := fieldOfCell c
  let s1 := s |> wr (F.MEM_COLL_LAST.COL f) (colOf c) |> wr (F.MEM_COLL_LAST.ROW f) (rowOf c) |> wr (F.MEM_COLL_LAST.BANK f) m.bank
    |> wr (F.MEM_COLL_LAST.WINNER f) (min 5 win.1) |> wr (F.MEM_COLL_LAST.LOSER f) (lowest (losers m win.1))
    |> wrB (F.MEM_COLL_LAST.AGED f) win.2 |> wr (F.MEM_COLL_LAST.V f) 1
  { s1 with mesh := { s1.mesh with collAt := (f, m.cy) :: s1.mesh.collAt.filter (·.1 != f) } }

/-- One cycle in which ports meet on a bank (R76 to R78): one is served, every loss is a collision, counted and captured. -/
def collide (c : Nat) (m : Meet) (s : State) : State :=
  match served c m s with
  | none => s
  | some win =>
    let n := (losers m win.1).length
    let s1 := bumpBy (F.MEM_COLL_CNT (fieldOfCell c)) n (modCell c (retry m win.1) s)
    when (n != 0 && captures c m.cy s1) (captureColl c m win) s1

/-- Every access of a port has been performed: none of its accesses waits. -/
def portDone (c port : Nat) (s : State) : State :=
  modCell c (fun x => { x with
    waiting := x.waiting.filter fun w => w.port != port
    tensorHeld := if port = 1 then [] else x.tensorHeld }) s

/-- Capture the place of an error in `MEM_ECC_LAST` (R90): an uncorrectable word replaces a captured correctable one. -/
def captureEcc (c w : Nat) (ue : Bool) (s : State) : State :=
  let f := fieldOfCell c
  if on (F.MEM_ECC_LAST.V f) s && (!ue || on (F.MEM_ECC_LAST.UE f) s) then s
  else
    s |> wr (F.MEM_ECC_LAST.COL f) (colOf c) |> wr (F.MEM_ECC_LAST.ROW f) (rowOf c)
      |> wr (F.MEM_ECC_LAST.GRANULE f) (w / 8) |> wr (F.MEM_ECC_LAST.WORD f) (w % 8)
      |> wrB (F.MEM_ECC_LAST.UE f) ue |> wr (F.MEM_ECC_LAST.V f) 1

/-- A read corrects a single-bit error (R85); the same word corrected at its last read and written back is HARD (R87). -/
def correctWord (c w : Nat) (s : State) : State :=
  let f := fieldOfCell c
  let hard := (cell c s).corrected.contains w
  let s1 := captureEcc c w false (raise (F.MEM_ERR_STS.CE f) (bump (F.MEM_CE_CNT f) s))
  let s2 := modCell c (fun x => { x with
    writeBack := if x.writeBack.contains w then x.writeBack else x.writeBack ++ [w],
    corrected := x.corrected.filter (· != w) }) s1
  when hard (fun t => report 0x0E c (raise (F.MEM_ERR_STS.HARD f) t)) s2

/-- A read finds an uncorrectable word (R86). -/
def uncorrectable (c w : Nat) (s : State) : State :=
  let f := fieldOfCell c
  report 0x01 c (captureEcc c w true (raise (F.MEM_ERR_STS.UE f) (bump (F.MEM_UE_CNT f) s)))

/-- What reads of granules met (R85 to R87): words of other granules are not read. A corrected word read without error is no
longer waited for. -/
def readChecks (c : Nat) (gs : List Nat) (env : MemEnv) (s : State) : State :=
  let mine := fun w => gs.contains (w / 8)
  let s1 := forEach (env.ce.filter mine) (correctWord c) s
  let s2 := modCell c (fun x => { x with corrected := x.corrected.filter fun w => !(mine w) || env.ce.contains w }) s1
  forEach (env.ue.filter mine) (uncorrectable c) s2

/-- Reads of a port: counting, what they met, collisions and check failures. -/
def reads (c port : Nat) (gs : List Nat) (env : MemEnv) (s : State) : State :=
  let s1 := readChecks c (gs.filter (· < exposed c s)) env (countAccesses c port gs s)
  forEach env.checks (fun k => report k c) (portDone c port (forEach env.meets (collide c) s1))

/-- Reads of the loader or the due engine in a cell (R67, R68, R75, R85, R136). -/
def loadReads (c port : Nat) (gs : List Nat) (env : MemEnv) (s : State) : State :=
  let s1 := readChecks c (gs.filter (· < reachable c s)) env (forEach gs (countLoaded c port) s)
  forEach env.checks (fun k => report k c) (portDone c port (forEach env.meets (collide c) s1))

/-- A granule is written (R66): the control granule's shadow follows (R68, R74), waiting write-backs of it are cancelled (R85). -/
def storeGranule (c g : Nat) (v : Granule) (s : State) : State :=
  modCell c (fun x => { x with
    shadow0 := if g = 0 ∧ !inT36 c s then v else x.shadow0,
    writeBack := x.writeBack.filter fun w => w / 8 != g,
    corrected := x.corrected.filter fun w => w / 8 != g }) (setGranule c g v s)

/-- A port writes a granule, if it names exposed memory (R67). -/
def putGranule (c g : Nat) (v : Granule) (s : State) : State := if g < exposed c s then storeGranule c g v s else s

/-- The loader writes a granule (R67, R68): the W1 banks of a T36 image's cell too. -/
def loadGranule (c g : Nat) (v : Granule) (s : State) : State :=
  if g < reachable c s then storeGranule c g v s else rangeFault c s

/-- A counted write of a port. -/
def writeGranule (c port g : Nat) (v : Granule) (s : State) : State := putGranule c g v (countAccess c port g s)

/-- Writes of a port to consecutive granules. -/
def writeGranules (c port : Nat) : Nat → List Granule → State → State
  | _, [], s => s
  | g, v :: vs, s => writeGranules c port (g + 1) vs (writeGranule c port g v s)

/-- A list of consecutive granules. -/
def granulesFrom (g n : Nat) : List Nat := (List.range n).map (g + ·)

/-! ### Arrival counters -/

/-- A remote write has landed: counter `n` rises, or saturates and raises a control-class violation (R80, R83). -/
def arrive (c n : Nat) (s : State) : State :=
  let v := arrival c n s
  let s1 := modCell c (fun x => { x with landed := x.landed + 1 }) s
  if v.toNat = 0xFFFFFF then
    modCell c (fun x => { x with cntOvf := true }) (raise (F.MEM_ERR_STS.CNT_OVF (fieldOfCell c)) s1)
  else setArrival c n (v + 1) s1

/-- Take a threshold from a counter (R81). -/
def takeThreshold (c n : Nat) (t : BitVec 24) (s : State) : State :=
  modCell c (fun x => { x with taken := x.taken + BitVec.ofNat 32 t.toNat }) (setArrival c n (arrival c n s - t) s)

/-! ### Precision events -/

/-- Model slot and layer that a cell is bound to, from its stage record's shadow (R120, R135); none while it belongs to no stage. -/
def bound (c : Nat) (s : State) : Option (Nat × Nat) :=
  let x := cell c s
  if x.run then some (fieldOf x.shadow1 16 4, fieldOf x.shadow1 24 8) else none

/-- Raise precision events of a cell (R121, R122): 0 WHEY_OVF, 1 SAT, 2 NONFIN, `n` of them. A cell that belongs to no stage charges its
events to no layer: they are dropped. (DESIGN CHOICE, unsafe: log entry 87.) -/
def precise (c kind n : Nat) (s : State) : State :=
  match bound c s with
  | none => s
  | some (m, l) => { s with prec := { s.prec with queue := s.prec.queue ++ List.replicate n ⟨m, l, kind⟩ } }

/-! ### Commands -/

/-- ACCESS_AGED (R77): a port access that has lost four cycles becomes aged in this cycle, if it is not already. -/
def accessAged (c : Nat) (x : LosingAccess) (s : State) : State :=
  if c < cellCount then
    modCell c (fun y => { y with waiting := y.waiting.map fun w =>
      if w.port = x.port ∧ w.bank = x.bank ∧ 4 ≤ w.losses ∧ w.agedAt = none then { w with agedAt := some x.cy } else w }) s
  else s

/-- ECC_WRITEBACK (R85): the corrected word is written back in a free cycle of its bank, unless a port write cancelled it. The
corrected data are what the memory holds. -/
def eccWriteback (c g w : Nat) (s : State) : State :=
  let k := g * 8 + w
  if (cell c s).writeBack.contains k then
    modCell c (fun x => { x with writeBack := x.writeBack.filter (· != k), corrected := k :: x.corrected }) s
  else s

/-- Granules the scrubber of a cell covers (R68, R88). -/
def scrubLimit (c : Nat) (s : State) : Nat := reachable c s

/-- Cycles between scrub reads of a cell (R88). -/
def scrubGap (c : Nat) (s : State) : Nat := 2 ^ (14 + rd (F.MEM_SCRUB_CTRL.PACE (fieldOfCell c)) s)

/-- A cell counts for the pass count of its field: it is exposed, not in an absent cluster (R37, R90). -/
def scrubCounted (c : Nat) (s : State) : Bool := !absent c s

/-- Every exposed cell of the field has completed a pass since the field's count last rose (R90). -/
def fieldPassDone (f : Nat) (s : State) : Bool :=
  (fieldCells f).all fun c => !scrubCounted c s || (cell c s).passAt == some (cnt (F.MEM_SCRUB_PASS_CNT f) s)

/-- The granule that a cell's scrubber reads next: it begins afresh where what is left of its pass is not scrubbed (R68, R88). -/
def scrubNext (c : Nat) (s : State) : Nat := if (cell c s).scrubPos < scrubLimit c s then (cell c s).scrubPos else 0

/-- SCRUB_READ (R88): one scrub read; a wrap ends a pass. The same rules as for any read apply to what it finds (R86). -/
def scrubRead (c t : Nat) (env : MemEnv) (s : State) : State :=
  if c < cellCount then
    let g := scrubNext c s
    let s0 := forEach env.meets (collide c) (readChecks c [g] env (atTime t s))
    let s1 := forEach env.checks (fun k => report k c) s0
    let wrap := decide (scrubLimit c s ≤ g + 1)
    let f := fieldOfCell c
    let s2 := modCell c (fun x => { x with
      scrubPos := if wrap then 0 else g + 1,
      scrubAged := false,
      scrubStamp := timestamp s1,
      passes := if wrap then x.passes + 1 else x.passes,
      passAt := if wrap then some (cnt (F.MEM_SCRUB_PASS_CNT f) s1) else x.passAt,
      passStart := if wrap then t else x.passStart,
      passLate := if wrap then false else x.passLate }) s1
    when (wrap && fieldPassDone f s2) (bump (F.MEM_SCRUB_PASS_CNT f)) s2
  else s

/-- SCRUB_AGED (R88): a scrub read that has waited 4,096 cy is aged. -/
def scrubAged (c : Nat) (s : State) : State :=
  if c < cellCount then modCell c (fun x => if x.scrubAged then x else { x with scrubAged := true, scrubSince := s.now }) s else s

/-- SCRUB_LATE (R88): the pass in progress has taken more than 63 × 10⁹ cy. -/
def scrubLate (c t : Nat) (s : State) : State :=
  if c < cellCount ∧ 63000000000 < t - (cell c s).passStart ∧ !(cell c s).passLate then
    raise (F.MEM_ERR_STS.SCRUB_LATE (fieldOfCell c)) (modCell c (fun x => { x with passLate := true }) (atTime t s))
  else atTime t s

/-- Meaning of ACCESS_AGED. -/
def execAccessAged (c : Nat) (x : LosingAccess) (s : State) : Host.Outcome State Fault Refusal := .next (accessAged c x s)

/-- Meaning of ECC_WRITEBACK. -/
def execEccWriteback (c g w : Nat) (s : State) : Host.Outcome State Fault Refusal := .next (eccWriteback c g w s)

/-- Meaning of SCRUB_READ. -/
def execScrubRead (c t : Nat) (env : MemEnv) (s : State) : Host.Outcome State Fault Refusal := .next (scrubRead c t env s)

/-- Meaning of SCRUB_AGED. -/
def execScrubAged (c : Nat) (s : State) : Host.Outcome State Fault Refusal := .next (scrubAged c s)

/-- Meaning of SCRUB_LATE. -/
def execScrubLate (c t : Nat) (s : State) : Host.Outcome State Fault Refusal := .next (scrubLate c t s)

end Sys2Proof.Machine
end

