-- ==== Sys2Proof/Machine/Operands.lean ====
section
/-!
DEFINITION. Instruction words of the sequencer (R30 to R33): their fields, which words are legal, and the recipe entry that gives a
cell its formats (R107, R124).
-/
namespace Sys2Proof.Machine
open Sys2Proof

/-- CLASS. -/
def wClass (w : Dword) : Nat := fieldOf w 60 4

/-- TENSOR fields (R30). -/
structure TensorWord where
  /-- MODE. -/
  mode : Nat
  /-- TR. -/
  tr : Bool
  /-- CLR. -/
  clr : Bool
  /-- Arrays that ARR selects, ascending. -/
  arrays : List Nat
  /-- NV. -/
  nv : Nat
  /-- WADDR. -/
  waddr : Nat
  /-- AADDR. -/
  aaddr : Nat
  /-- COUNT. -/
  count : Nat

/-- Read the TENSOR fields. -/
def tensorWord (w : Dword) : TensorWord :=
  { mode := fieldOf w 57 3, tr := bitAt w 56, clr := bitAt w 55, arrays := (List.range 4).filter fun n => bitAt w (51 + n),
    nv := fieldOf w 47 4 + 1, waddr := fieldOf w 32 15, aaddr := fieldOf w 17 15, count := fieldOf w 10 7 + 1 }

/-- VECTOR fields (R30). -/
structure VectorWord where
  /-- OP. -/
  op : Nat
  /-- FMT: FP32. -/
  fp32 : Bool
  /-- ACC: source A is an accumulator file. -/
  acc : Bool
  /-- A. -/
  a : Nat
  /-- B. -/
  b : Nat
  /-- D. -/
  d : Nat
  /-- LEN. -/
  len : Nat

/-- Read the VECTOR fields. -/
def vectorWord (w : Dword) : VectorWord :=
  { op := fieldOf w 54 6, fp32 := bitAt w 53, acc := bitAt w 52, a := fieldOf w 37 15, b := fieldOf w 22 15, d := fieldOf w 7 15,
    len := fieldOf w 0 7 + 1 }

/-- Elements in a granule of the vector unit's format. -/
def VectorWord.perGranule (v : VectorWord) : Nat := if v.fp32 then 16 else 32

/-- Elements of an operand of LEN granules. -/
def VectorWord.elems (v : VectorWord) : Nat := v.len * v.perGranule

/-- MOVE fields (R30). -/
structure MoveWord where
  /-- VC. -/
  vc : Nat
  /-- MC. -/
  mc : Bool
  /-- DST. -/
  dst : Nat
  /-- CNT. -/
  cnt : Nat
  /-- LADDR. -/
  laddr : Nat
  /-- RADDR. -/
  raddr : Nat
  /-- LEN in flits. -/
  len : Nat

/-- Read the MOVE fields. -/
def moveWord (w : Dword) : MoveWord :=
  { vc := fieldOf w 58 2, mc := bitAt w 57, dst := fieldOf w 39 18, cnt := fieldOf w 34 5, laddr := fieldOf w 19 15,
    raddr := fieldOf w 4 15, len := fieldOf w 0 4 + 1 }

/-- WAIT's counter. -/
def waitCnt (w : Dword) : Nat := fieldOf w 55 5

/-- WAIT's threshold. -/
def waitThresh (w : Dword) : BitVec 24 := BitVec.ofNat 24 (fieldOf w 31 24)

/-- JUMP's target. -/
def jumpTarget (w : Dword) : BitVec 18 := BitVec.ofNat 18 (fieldOf w 42 18)

/-! ### Formats in force -/

/-- WFMT of the cell's recipe entry (R124). -/
def cellWfmt (x : Cell) : Option Fmt := wfmtOf (fieldOf x.recipe 0 3)

/-- The activation format in force: W8F while the layer is widened and in a backward iteration, AFMT otherwise (R107, R264). -/
def cellAfmt (x : Cell) : Option Fmt := if x.wide || x.tuneRole == 2 then some Fmt.w8f else afmtOf (fieldOf x.recipe 4 2)

/-- MODE admits both formats (R107). -/
def modeAdmits (mode : Nat) (w a : Fmt) : Bool :=
  let narrow := decide (a = .c4f) || decide (a = .c4i)
  let w4 := decide (w = .c4f) || decide (w = .c4i) || decide (w = .c3i)
  match mode with
  | 0 => decide (w = .w8f) && decide (a = .w8f)
  | 1 => w4 && decide (a = .w8f)
  | 2 => w4 && narrow
  | 3 => (decide (w = .c2tt) || decide (w = .c2ts)) && narrow
  | _ => false

/-- QNT block header (granule B): T. -/
def qntT (h : Granule) : Word := BitVec.ofNat 32 (fieldOf h 0 32)

/-- MODE bit of the QNT header: 0 ADD, 1 KEEP, 2 KV, 3 CARRY. -/
def qntMode (h : Granule) (bit : Nat) : Bool := bitAt h (32 + bit)

/-- KFMT of the recipe entry (R124). -/
def cellKfmt (x : Cell) : Nat := fieldOf x.recipe 6 2

/-! ### Kinds of words -/

/-- The instruction a word spells. -/
inductive Kind where
  /-- NOP. -/
  | nop
  /-- TENSOR. -/
  | tensor
  /-- VECTOR, by OP. -/
  | vector (op : Nat)
  /-- MOVE. -/
  | move
  /-- WAIT. -/
  | wait
  /-- SYNC. -/
  | sync
  /-- JUMP. -/
  | jump
  /-- An illegal word (R30). -/
  | illegal
  deriving DecidableEq, Repr

/-- Is a TENSOR word legal in this cell (R30, R32, R107)? -/
def tensorLegal (x : Cell) (w : Dword) : Bool :=
  fieldOf w 0 10 == 0 &&
  (match cellWfmt x, cellAfmt x with
    | some wf, some af => modeAdmits (tensorWord w).mode wf af
    | _, _ => false)

/-- Is a VECTOR word legal in this cell (R30, R33, R98, R108)? -/
def vectorLegal (c : Nat) (w : Dword) (s : State) : Bool :=
  let v := vectorWord w
  let kv := qntMode (readGranule c v.b s) 2
  decide (v.op ≤ 0x0E) && (!v.acc || v.a / 4 == 0) && (v.op != 0x0C || decide (v.len ≤ 32)) &&
  (v.op != 0x0B || (v.elems % 64 == 0 && (!kv || decide (v.elems ≤ 3584)) && (kv || (cellAfmt (cell c s)).isSome)))

/-- The instruction a word spells in a cell. -/
def kindOf (c : Nat) (w : Dword) (s : State) : Kind :=
  match wClass w with
  | 0 => if fieldOf w 0 60 = 0 then .nop else .illegal
  | 1 => if tensorLegal (cell c s) w then .tensor else .illegal
  | 2 => if vectorLegal c w s then .vector (vectorWord w).op else .illegal
  | 3 => if (moveWord w).vc = 0 then .illegal else .move
  | 4 => if fieldOf w 0 31 = 0 then .wait else .illegal
  | 5 => if fieldOf w 0 60 = 0 then .sync else .illegal
  | 6 => if fieldOf w 0 42 = 0 then .jump else .illegal
  | _ => .illegal

end Sys2Proof.Machine
end

