-- ==== Sys2Proof/Machine/Tensor.lean ====
section
/-!
DEFINITION. What a TENSOR instruction does (R31, R70, R105, R107, R113, R114): weight records, activation groups, exact row sums,
one rounding, FP32 accumulation.
-/
namespace Sys2Proof.Machine
open Sys2Proof

/-- Tiles an instruction takes over all selected arrays. -/
def tensorTiles (t : TensorWord) : Nat := t.count * t.arrays.length

/-- Records of the weight operand (R103): the instruction's own COUNT × arrays tiles from WADDR are a slice's tail, so that its last
record holds the remainder. (DESIGN CHOICE, unsafe: log entry 74.) -/
def tensorRecords (c : Nat) (t : TensorWord) (wf : Fmt) (s : State) : List WRec :=
  records c wf s (tensorTiles t + 1) t.waddr 0 (tensorTiles t)

/-- Granules that the weight operand covers. -/
def weightGranules (c : Nat) (wf : Fmt) (rs : List WRec) (s : State) : List Nat :=
  rs.flatMap fun r => granulesFrom r.start (recordLen c wf r.start r.n s)

/-- Activation vectors an instruction reads: NV for each of COUNT tiles. -/
def tensorVectors (t : TensorWord) : Nat := t.count * t.nv

/-- Granules that the activation operand covers: whole units (R104). -/
def activationGranules (t : TensorWord) (af : Fmt) : List Nat :=
  granulesFrom t.aaddr (cdiv (cdiv (tensorVectors t) 8) 4 * (unitElems af + 1))

/-- One product row: the exact sum over j of W(i, j) × x(j), rounded once to FP32 (R114). TR takes the tile transposed. -/
def rowSum (tile : List Dy) (tr : Bool) (i : Nat) (x : List Dy) : Word :=
  (Dy.sum ((List.range 8).map fun j =>
    (tile.getD (if tr then 8 * j + i else 8 * i + j) Dy.zero).mul (x.getD j Dy.zero))).toFp

/-- Add one row's result into the accumulator file (R114). -/
def accumulate (c arr v i : Nat) (r : Word) (s : State) : State := setAcc c arr v i (fpAdd (acc c arr v i s) r) s

/-- Zero an array's accumulator file (R31). -/
def clearFile (c arr : Nat) (s : State) : State := { s with accs := Table.clear s.accs ((c * 4 + arr) * 128) 128 }

/-- One tile against its NV vectors. -/
def tileStep (c arr nv : Nat) (tr : Bool) (tile : List Dy) (vecs : List (List Dy)) (s : State) : State :=
  forEach (List.range nv) (fun v s1 =>
    forEach (List.range 8) (fun i s2 => accumulate c arr v i (rowSum tile tr i (vecs.getD v [])) s2) s1) s

/-- The row statistics record (R182): M, SUM, POS, QHEAD, SEQ, ROW. -/
def rowRecord (a : AttnRow) (m sum : Nat) : Nat :=
  m % 2 ^ 32 + sum % 2 ^ 32 * 2 ^ 32 + a.pos % 2 ^ 24 * 2 ^ 64 + a.qhead % 256 * 2 ^ 88 + a.seq % 4096 * 2 ^ 96 + a.row % 32 * 2 ^ 112

/-- A granule with 16 of its bytes replaced. -/
def putRecord (g : Granule) (at_ v : Nat) : Granule :=
  let lo := 8 * (at_ / 16 * 16 % 64)
  BitVec.ofNat 512 (g.toNat - fieldOf g lo 128 * 2 ^ lo + v % 2 ^ 128 * 2 ^ lo)

/-- Write the statistics of the attention row an instruction works for into its cell (R182, R209): a row all of whose scores are −∞ has
M = −∞, SUM = 0 and a zero output, and NONFIN is raised (R181). -/
def rowStats (c : Nat) (arrays : List Nat) (env : MemEnv) (r s : State) : State :=
  match env.attn with
  | none => s
  | some a =>
    if a.scores then s
    else
      let m := fieldOf (readGranule c a.maxAt r) 0 32
      let blank := decide (m = 0xFF800000)
      let v := rowRecord a m (if blank then 0 else fieldOf (readGranule c a.sumAt r) 0 32)
      let s1 := writeGranule c 2 (a.recAt / 64) (putRecord (readGranule c (a.recAt / 64) s) a.recAt v) s
      if blank then precise c 2 1 (forEach arrays (clearFile c) s1) else s1

/-- TENSOR in a cell: results, events and charges. The selected arrays take COUNT tiles each, one array after the other from WADDR on, and
tile k of every array meets the same NV vectors (R31); groups that break R105 make one report together. (DESIGN CHOICE, unsafe: log
entry 74.) -/
def tensorEffect (c : Nat) (w : Dword) (env : MemEnv) (s : State) : State :=
  match cellWfmt (cell c s), cellAfmt (cell c s) with
  | some wf, some af =>
    let t := tensorWord w
    let r := seen c env s
    let rs := tensorRecords c t wf r
    let tiles := (List.range (tensorTiles t)).map fun k =>
      match rs.find? (fun r => decide (r.tile0 ≤ k ∧ k < r.tile0 + r.n)) with
      | some q => decodeTile c wf q k r
      | none => { vals := [], nonfin := false, illegal := false }
    let groups := (List.range (cdiv (tensorVectors t) 8)).map fun g => decodeGroup c af t.aaddr g r
    let vec := fun n => (((groups.map (·.vals)).getD (n / 8) []).drop (8 * (n % 8))).take 8
    let s1 := reads c 1 (weightGranules c wf rs r ++ activationGranules t af) env s
    let s2 := if t.clr then forEach t.arrays (clearFile c) s1 else s1
    let s3 := forEach (t.arrays.zip (List.range t.arrays.length)) (fun p s' =>
      forEach (List.range t.count) (fun k s'' =>
        tileStep c p.1 t.nv t.tr ((tiles.map (·.vals)).getD (p.2 * t.count + k) [])
          ((List.range t.nv).map fun v => vec (k * t.nv + v)) s'') s') s2
    let bad := groups.any (·.illegal)
    let s4 := when bad (fun q => report 0x03 c (raise (F.FAB_ERR_STS.ILLEGAL (fieldOfCell c)) q)) s3
    let nf := tiles.any (·.nonfin) || groups.any (·.nonfin)
    let s5 := rowStats c t.arrays env r (when nf (precise c 2 1) s4)
    chargeEnergy (activityOf (cell c s).serving) (energyMac t.mode) (tensorTiles t * 64 * t.nv) s5
  | _, _ => s

end Sys2Proof.Machine
end

