-- ==== Sys2Proof/Machine/KvCell.lean ====
section
/-!
DEFINITION. What attention cells keep of a sequence's KV: sinter stores and the carries of rows in flight, staged rows, the hot window's
ring, the format and scales of a page (R115 to R117, R186, R187, R190, R191, R356).
-/
namespace Sys2Proof.Machine
open Sys2Proof

/-! ### Rows of a step -/

/-- What the ledger holds of the uncommitted step of a sequence. -/
def stepRows (q : Nat) (s : State) : Option StepSeq :=
  ((s.ledger.entries.filter fun e => decide (e.state ≠ .committed)).flatMap fun e => e.seqs.filter (·.seq == q)).head?

/-- Position of a row (R184, R185). -/
def StepSeq.posOf (x : StepSeq) (i : Nat) : Nat := x.start + if x.parents.isEmpty then i else depthIn x.parents 17 i

/-- The row that a row follows: its parent in the tree, or the row before it in a chunk; none for the first. -/
def StepSeq.parentOf (x : StepSeq) (i : Nat) : Option Nat :=
  if i = 0 then none else some (if x.parents.isEmpty then i - 1 else x.parents.getD i 0)

/-- A row and its ancestors in a tree; `n` bounds them. -/
def treePath (parents : List Nat) : Nat → Nat → List Nat
  | 0, _ => []
  | n + 1, i => if i = 0 then [0] else i :: treePath parents n (parents.getD i 0)

/-- A row is `i` or one that `i` follows: its positions come before (R178). -/
def StepSeq.follows (x : StepSeq) (i j : Nat) : Bool :=
  if x.parents.isEmpty then decide (j ≤ i) else (treePath x.parents 17 i).contains j

/-- Rows accepted from row `i` on, by the tokens delivered (R232). -/
def acceptedTree (x : StepSeq) : Nat → Nat → List Nat → List Nat
  | 0, _, _ => []
  | n + 1, i, out =>
    i :: match out with
      | [] => []
      | t :: ts =>
        match (List.range x.tokens.length).find? fun j => decide (0 < j) && x.parents.getD j 0 == i && x.tokens.getD j 0 == t with
        | none => []
        | some j => acceptedTree x n j ts

/-- The rows that a commit accepts, in order of position. -/
def StepSeq.acceptedRows (x : StepSeq) : List Nat :=
  if x.parents.isEmpty then List.range x.accepted else acceptedTree x x.accepted 0 x.out

/-! ### Sinter stores (R116, R117, R356) -/

/-- The store that KV of a row takes its error from (R116, R117): its parent's carry, or the sequence's store tagged with START; zero
where there is none. -/
def sinterBefore (r : KvRow) (x : StepSeq) (s : State) : List Granule :=
  match x.parentOf r.row with
  | some j =>
    match s.kv.carries.find? fun k => k.seq == r.seq && k.row == j && k.store.layer == r.layer && k.store.part == r.part with
    | some k => k.store.data
    | none => []
  | none =>
    match s.kv.stores.find? fun p => p.1 == r.seq && p.2.layer == r.layer && p.2.part == r.part && p.2.tag == x.start with
    | some p => p.2.data
    | none => []

/-- Keep a row's carry. -/
def putCarry (c : Nat) (r : KvRow) (x : StepSeq) (data : List Granule) (s : State) : State :=
  let k : Carry := ⟨r.seq, r.row, ⟨r.layer, r.part, x.posOf r.row + 1, c, data⟩⟩
  { s with kv := { s.kv with carries := (s.kv.carries.filter fun y =>
      !(y.seq == r.seq && y.row == r.row && y.store.layer == r.layer && y.store.part == r.part)) ++ [k] } }

/-- Keep a sequence's store, and the one before it (R356). -/
def putStore (q : Nat) (l : List (Nat × SinterStore)) (x : SinterStore) : List (Nat × SinterStore) :=
  let mine := fun (p : Nat × SinterStore) => p.1 == q && p.2.layer == x.layer && p.2.part == x.part
  (q, x) :: (l.filter mine).take 1 ++ l.filter fun p => !mine p

/-! ### Pages' formats and scales (R191) -/

/-- A KV format fits the element areas of a pool (R189). -/
def kvFits (m k : Nat) (s : State) : Bool :=
  let bits := if k < 2 then 4 else if k = 2 then 8 else 16
  decide ((rd (F.POOL_GEOM.D m) s + 1) * 64 * bits ≤ 512 * rd (F.POOL_GEOM.G m) s)

/-- KFMT where it fits, otherwise C4F; and whether C4F stands in for it (R191). (DEDUCED, unsafe: log entry 18.) -/
def freshFormat (m k : Nat) (s : State) : Nat × Bool :=
  if on (F.POOL_CTRL.ENABLE m) s && !kvFits m k s then (0, true) else (k, false)

/-- The format and scales that a row's page has already: those of an open page, or those fixed by a row that it follows. -/
def pageFormat (r : KvRow) (x : StepSeq) (s : State) : Option PageFmt :=
  s.kv.formats.find? fun p => p.seq == r.seq && p.span == x.posOf r.row / 256 && p.layer == r.layer &&
    p.by_.all fun j => x.follows r.row j

/-- The least k with m0 ≤ Emax × 2ᵏ, and the headroom, as a power of two (R191). -/
def pageScale (k headroom : Nat) (m0 : Dy) : Word :=
  let emax : Int := if k = 0 then 6 else if k = 1 then 7 else 448
  if 3 ≤ k then 0x3F800000
  else if m0.m = 0 then packFp false 1 headroom
  else
    match (List.range 320).find? fun (i : Nat) => m0.le ⟨emax, (i : Int) - 170⟩ with
    | some i => packFp false 1 ((i : Int) - 170 + headroom)
    | none => packFp false 1 (150 + headroom)

/-- Record the scale that a row fixes for its page's K or V of a head. -/
def putScale (r : KvRow) (x : StepSeq) (k : Nat) (t : Word) (s : State) : State :=
  match pageFormat r x s with
  | none =>
    { s with kv := { s.kv with formats := s.kv.formats ++ [⟨r.seq, x.posOf r.row / 256, r.layer, k, [(r.part, t)], some r.row⟩] } }
  | some p =>
    if p.scales.any (·.1 == r.part) then s
    else { s with kv := { s.kv with formats := s.kv.formats.map fun y =>
        if y = p then { p with scales := p.scales ++ [(r.part, t)] } else y } }

/-! ### Staging, commit, discard (R187, R356) -/

/-- Stage a row's K or V of a head. -/
def stageKv (r : KvRow) (x : StepSeq) (elems : List Granule) (idx : Granule) (s : State) : State :=
  { s with kv := { s.kv with staged := (s.kv.staged.filter fun y =>
      !(y.seq == r.seq && y.row == r.row && y.layer == r.layer && y.part == r.part)) ++
        [⟨r.seq, x.start, r.row, r.layer, r.part, x.posOf r.row, elems, idx⟩] } }

/-- W of a hot window (R186). -/
def hotWindow (hotlog : Nat) : Nat := 256 * 2 ^ hotlog

/-- A position of a sequence is read from its hot window; older ones are read from the stacks (R187). -/
def inHot (q p : Nat) (s : State) : Bool :=
  let x := seqSlot q s
  decide (p < x.len) && decide (x.len ≤ p + hotWindow x.hotlog)

/-- A committed position takes its slot of the ring (R186). -/
def putHot (w : Nat) (l : List HotKv) (y : StagedKv) : List HotKv :=
  (l.filter fun h => !(h.seq == y.seq && h.layer == y.layer && h.part == y.part && h.slot == y.pos % w)) ++
    [⟨y.seq, y.layer, y.part, y.pos % w, y.pos, y.elems, y.idx⟩]

/-- Formats staged by the rows of a step: those of accepted rows become the pages', the others go. -/
def openFormats (q : Nat) (rows : List Nat) (l : List PageFmt) : List PageFmt :=
  (l.filter fun p => p.seq != q || p.by_.all rows.contains).map fun p => if p.seq = q then { p with by_ := none } else p

/-- What the commit of a sequence's step does to what its cells keep (R117, R186, R187, R191, R356). -/
def commitKv (x : StepSeq) (s : State) : State :=
  let rows := x.acceptedRows
  let w := hotWindow (seqSlot x.seq s).hotlog
  let kept := (s.kv.carries.filter fun k => k.seq == x.seq && rows.getLast? == some k.row).map (·.store)
  { s with kv := { s.kv with
      stores := kept.foldl (putStore x.seq) s.kv.stores
      carries := s.kv.carries.filter (·.seq != x.seq)
      hot := (s.kv.staged.filter fun y => y.seq == x.seq && rows.contains y.row).foldl (putHot w) s.kv.hot
      staged := s.kv.staged.filter (·.seq != x.seq)
      formats := openFormats x.seq rows s.kv.formats } }

/-- Sinter stores of a sequence that precede position LEN (R116). -/
def storesOf (q : Nat) (s : State) : List SinterStore :=
  (s.kv.stores.filter fun p => p.1 == q && p.2.tag == (seqSlot q s).len).map (·.2)

/-- What a step that does not commit leaves in the cells is discarded (R117, R191, R356). -/
def discardKv (q : Nat) (s : State) : State :=
  { s with kv := { s.kv with
      carries := s.kv.carries.filter (·.seq != q), staged := s.kv.staged.filter (·.seq != q)
      formats := openFormats q [] s.kv.formats } }

/-- A released sequence slot: its cells keep nothing of it (R356, R454). -/
def forgetKv (q : Nat) (s : State) : State :=
  { s with kv := { s.kv with
      stores := s.kv.stores.filter (·.1 != q), carries := s.kv.carries.filter (·.seq != q)
      staged := s.kv.staged.filter (·.seq != q), hot := s.kv.hot.filter (·.seq != q)
      formats := s.kv.formats.filter (·.seq != q) } }

end Sys2Proof.Machine
end

