-- ==== Sys2Proof/Machine/Vector.lean ====
section
/-!
DEFINITION. What the VECTOR instructions do (R33, R95, R97, R98, R108 to R113, R118, R231).
-/
namespace Sys2Proof.Machine
open Sys2Proof

/-- Element `i` of an operand in cell memory, as FP32. -/
def memElem (c : Nat) (v : VectorWord) (at_ i : Nat) (s : State) : Word :=
  let g := readGranule c (at_ + i / v.perGranule) s
  if v.fp32 then BitVec.ofNat 32 (fieldOf g (32 * (i % 16)) 32) else ofBf16 (BitVec.ofNat 16 (fieldOf g (16 * (i % 32)) 16))

/-- Element `i` of an accumulator file, column by column (R31, R33); the file holds 128. -/
def accElem (c arr i : Nat) (s : State) : Word :=
  if i < 128 then acc c arr (i / 8) (i % 8) s else openFp 1 (BitVec.ofNat 32 i)

/-- Element `i` of source A. -/
def srcElem (c : Nat) (v : VectorWord) (i : Nat) (s : State) : Word :=
  if v.acc then accElem c (v.a % 4) i s else memElem c v v.a i s

/-- Source A. -/
def srcA (c : Nat) (v : VectorWord) (s : State) : List Word := (List.range v.elems).map fun i => srcElem c v i s

/-- An operand in memory. -/
def srcMem (c : Nat) (v : VectorWord) (at_ : Nat) (s : State) : List Word :=
  (List.range v.elems).map fun i => memElem c v at_ i s

/-- FP32 values as granules. -/
def packFp32 : Nat → List Word → List Granule
  | 0, _ => []
  | n + 1, xs => BitVec.ofNat 512 ((xs.take 16).foldr (fun x a => x.toNat + 2 ^ 32 * a) 0) :: packFp32 n (xs.drop 16)

/-- FP32 values rounded to BF16, as granules. -/
def packBf16 : Nat → List Word → List Granule
  | 0, _ => []
  | n + 1, xs => BitVec.ofNat 512 ((xs.take 32).foldr (fun x a => (toBf16 x).toNat + 2 ^ 16 * a) 0) :: packBf16 n (xs.drop 32)

/-- Results in the instruction's format, as granules (R95). -/
def packResult (v : VectorWord) (xs : List Word) : List Granule := if v.fp32 then packFp32 v.len xs else packBf16 v.len xs

/-- Granules of source A in memory. -/
def aGranules (v : VectorWord) : List Nat := if v.acc then [] else granulesFrom v.a v.len

/-- Charge a vector operation on `n` elements. -/
def chargeVec (c n : Nat) (s : State) : State := chargeEnergy (activityOf (cell c s).serving) energyVec n s

/-- A score is finite in the format it is stored in. -/
def scoreFin (fp32 : Bool) (y : Word) : Bool := isFin (if fp32 then y else ofBf16 (toBf16 y))

/-- The instruction writes scores. -/
def scoring (env : MemEnv) : Bool := env.attn.any (·.scores)

/-- The instruction writes scores: one that is not finite as it is stored is stored as 0xFF80 (R181). -/
def scoreOut (env : MemEnv) (fp32 : Bool) (out : List Word) : List Word :=
  if scoring env then out.map fun y => if scoreFin fp32 y then y else 0xFF800000 else out

/-- Results of an attention row none of whose scores is seen: zero (R181). -/
def rowOut (c : Nat) (env : MemEnv) (out : List Word) (r : State) : List Word :=
  match env.attn with
  | some a => if !a.scores && fieldOf (readGranule c a.maxAt r) 0 32 == 0xFF800000 then out.map fun _ => 0 else out
  | none => out

/-- The granules that an element-wise operation writes, from its results as computed. -/
def vecResults (c : Nat) (v : VectorWord) (out : List Word) (env : MemEnv) (s : State) : List Granule :=
  packResult v (scoreOut env v.fp32 (rowOut c env out (seen c env s)))

/-- Perform an element-wise operation: read the operands, write LEN granules at D (R33). -/
def elementwise (c : Nat) (v : VectorWord) (rdGran : List Nat) (out : List Word) (env : MemEnv) (s : State) : State :=
  let bad := scoring env && out.any fun y => !scoreFin v.fp32 y
  chargeVec c v.elems (when bad (precise c 2 1) (writeGranules c 2 v.d (vecResults c v out env s) (reads c 2 rdGran env s)))

/-- ADD: A + B. -/
def addEffect (c : Nat) (w : Dword) (env : MemEnv) (s : State) : State :=
  let v := vectorWord w
  let r := seen c env s
  elementwise c v (aGranules v ++ granulesFrom v.b v.len)
    (((srcA c v r).zip (srcMem c v v.b r)).map fun p => fpAdd p.1 p.2) env s

/-- MUL: A × B. -/
def mulEffect (c : Nat) (w : Dword) (env : MemEnv) (s : State) : State :=
  let v := vectorWord w
  let r := seen c env s
  elementwise c v (aGranules v ++ granulesFrom v.b v.len)
    (((srcA c v r).zip (srcMem c v v.b r)).map fun p => fpMul p.1 p.2) env s

/-- FMA: A × B + D. -/
def fmaEffect (c : Nat) (w : Dword) (env : MemEnv) (s : State) : State :=
  let v := vectorWord w
  let r := seen c env s
  elementwise c v (aGranules v ++ granulesFrom v.b v.len ++ granulesFrom v.d v.len)
    (((srcA c v r).zip ((srcMem c v v.b r).zip (srcMem c v v.d r))).map fun p => fpFma p.1 p.2.1 p.2.2) env s

/-- MAX: max(A, B). -/
def maxEffect (c : Nat) (w : Dword) (env : MemEnv) (s : State) : State :=
  let v := vectorWord w
  let r := seen c env s
  elementwise c v (aGranules v ++ granulesFrom v.b v.len)
    (((srcA c v r).zip (srcMem c v v.b r)).map fun p => fpMax p.1 p.2) env s

/-- EXP (R118). -/
def expEffect (c : Nat) (w : Dword) (env : MemEnv) (s : State) : State :=
  let v := vectorWord w
  let r := seen c env s
  when ((srcA c v r).any expNonfin) (precise c 2 1)
    (elementwise c v (aGranules v) ((srcA c v r).map fpExpOp) env s)

/-- RCP (R118): RCP of 0 raises NONFIN. -/
def rcpEffect (c : Nat) (w : Dword) (env : MemEnv) (s : State) : State :=
  let v := vectorWord w
  let r := seen c env s
  when ((srcA c v r).any isZero) (precise c 2 1)
    (elementwise c v (aGranules v) ((srcA c v r).map fpRcpOp) env s)

/-- RSQRT (R118). -/
def rsqrtEffect (c : Nat) (w : Dword) (env : MemEnv) (s : State) : State :=
  let v := vectorWord w
  let r := seen c env s
  elementwise c v (aGranules v) ((srcA c v r).map fpRsqrtOp) env s

/-- A granule whose first `n` bits hold a scalar; what the rest of it holds the spec does not say. -/
def scalarGranule (n x : Nat) (a : Granule) : Granule :=
  BitVec.ofNat 512 ((Config.scalarRest n a).toNat / 2 ^ n * 2 ^ n + x % 2 ^ n)

/-- SUMRED: FP32 sum of A over LEN granules, one scalar (R33, R118). -/
def sumredEffect (c : Nat) (w : Dword) (env : MemEnv) (s : State) : State :=
  let v := vectorWord w
  let r := seen c env s
  let y := fpSum (if v.fp32 then 16 else 32) (srcA c v r)
  chargeVec c v.elems (writeGranule c 2 v.d (scalarGranule 32 y.toNat (readGranule c v.a r)) (reads c 2 (aGranules v) env s))

/-- MAXRED: maximum of A over LEN granules, one scalar in the instruction's format. -/
def maxredEffect (c : Nat) (w : Dword) (env : MemEnv) (s : State) : State :=
  let v := vectorWord w
  let r := seen c env s
  let y := fpMaxList (srcA c v r)
  let g := if v.fp32 then scalarGranule 32 y.toNat (readGranule c v.a r)
    else scalarGranule 16 (toBf16 y).toNat (readGranule c v.a r)
  chargeVec c v.elems (writeGranule c 2 v.d g (reads c 2 (aGranules v) env s))

/-- SCALE: A × scalar at B. -/
def scaleEffect (c : Nat) (w : Dword) (env : MemEnv) (s : State) : State :=
  let v := vectorWord w
  let r := seen c env s
  elementwise c v (aGranules v ++ [v.b]) ((srcA c v r).map fun x => fpMul x (memElem c v v.b 0 r)) env s

/-- A non-finite source element is encoded as zero (R113). (DEDUCED, unsafe: log entry 16.) -/
def finOrZero (x : Word) : Word := if isFin x then x else 0

/-- A value whose subnormals are flushed to zero, keeping their sign (R95). -/
def flushed (x : Word) : Word := if isZero x then fpZero (fpNeg x) else x

/-- Codes of `b` bits as granules, packed from bit 0 upward (R102). -/
def packElems (b : Nat) : Nat → List Nat → List Granule
  | 0, _ => []
  | n + 1, xs =>
    BitVec.ofNat 512 ((xs.take (512 / b)).foldr (fun x a => x % 2 ^ b + 2 ^ b * a) 0) :: packElems b n (xs.drop (512 / b))

/-- Granules that hold `n` codes of a format. -/
def Fmt.granules (f : Fmt) (n : Nat) : Nat := cdiv n (512 / f.bits)

/-- Format that CVT converts into (R33); none for BF16 and FP32. -/
def cvtFmt (bw : Word) : Option Fmt :=
  match Config.cvtFormat bw with
  | 0 => none
  | 1 => none
  | 2 => some .w8f
  | 3 => some .c4f
  | 4 => some .c4i
  | 5 => some .c3i
  | 6 => some .c2tt
  | _ => some .c2ts

/-- Units of a C4I activation run of `n` elements (R104, R115). -/
def carryUnits (n : Nat) : Nat := cdiv n 256

/-- Source of CVT: A in the instruction's format, with ACC the accumulator file (R33), or a residual carry, a C4I activation run (R115).
(DESIGN CHOICE, safe: log entry
14.) -/
def cvtSource (c : Nat) (v : VectorWord) (bw : Word) (r : State) : List Word :=
  if Config.cvtRun bw && !v.acc then
    (((List.range (cdiv v.elems 64)).flatMap fun g => (decodeGroup c .c4i v.a g r).vals).take v.elems).map Dy.toFp
  else srcA c v r

/-- Granules that CVT reads of A. -/
def cvtGranules (v : VectorWord) (bw : Word) : List Nat :=
  if Config.cvtRun bw && !v.acc then granulesFrom v.a (3 * carryUnits v.elems) else aGranules v

/-- Code of element `i` under the scales that B supplies (R118): the W8F NaN for a value that is not finite (R94), otherwise zero for one
(R113). (DEDUCED, unsafe: log entry 16.) -/
def cvtCode (f : Fmt) (b : Granule) (i : Nat) (x : Word) : Nat :=
  let sc := ue5m3Val (Config.cvtScale b (i / 16)).toNat
  if !isFin x then (if f = .w8f then 0x7F else 0) else if sc.m = 0 then 0 else encodeScaled f sc (fpVal x)

/-- Element `i` saturates in CVT (R121). -/
def cvtSat (f : Fmt) (b : Granule) (i : Nat) (x : Word) : Bool :=
  let sc := ue5m3Val (Config.cvtScale b (i / 16)).toNat
  isFin x && sc.m != 0 && saturates f sc (fpVal x)

/-- CVT converts into FP32: the first word of B names it. -/
def cvtToFp32 (b : Granule) : Bool := Config.cvtFormat (BitVec.ofNat 32 (fieldOf b 0 32)) != 0

/-- Granules that CVT writes, from the granule at B and the source: the format that the first word of B names, with the scales that B
supplies (R33, R91 to R95, R118). A score that is not finite is stored as 0xFF80 (R181), any other value that is not finite as zero
(R113). -/
def cvtResults (v : VectorWord) (env : MemEnv) (b : Granule) (src : List Word) : List Granule :=
  let bw := BitVec.ofNat 32 (fieldOf b 0 32)
  let xs := if scoring env then scoreOut env (cvtToFp32 b) src else src.map finOrZero
  match cvtFmt bw with
  | none => if Config.cvtFormat bw = 0 then packBf16 (cdiv v.elems 32) xs else packFp32 (cdiv v.elems 16) (xs.map flushed)
  | some f => packElems f.bits (f.granules v.elems) (src.zipIdx.map fun p => cvtCode f b p.2 p.1)

/-- CVT raises NONFIN: an element of the source is not finite (R113), or a score as it is stored (R181). -/
def cvtNonfin (env : MemEnv) (b : Granule) (src : List Word) : Bool :=
  (src.any fun x => !isFin x) || (scoring env && (cvtFmt (BitVec.ofNat 32 (fieldOf b 0 32))).isNone && src.any fun x => !scoreFin (cvtToFp32 b) x)

/-- A result of CVT saturates (R121). -/
def cvtClamps (b : Granule) (src : List Word) : Bool :=
  match cvtFmt (BitVec.ofNat 32 (fieldOf b 0 32)) with
  | none => false
  | some f => src.zipIdx.any fun p => cvtSat f b p.2 p.1

/-- CVT (R33, R113, R115). -/
def cvtEffect (c : Nat) (w : Dword) (env : MemEnv) (s : State) : State :=
  let v := vectorWord w
  let r := seen c env s
  let b := readGranule c v.b r
  let bw := BitVec.ofNat 32 (fieldOf b 0 32)
  let src := cvtSource c v bw r
  let s1 := writeGranules c 2 v.d (cvtResults v env b src) (reads c 2 (cvtGranules v bw ++ [v.b]) env s)
  chargeVec c v.elems (when (cvtClamps b src) (precise c 1 1) (when (cvtNonfin env b src) (precise c 2 1) s1))

/-- Groups of a SUM24 block of `flits` flits, with whether they saturate (R97): sixteen elements each, one not finite counted as zero
(R113). -/
def s24Groups (flits : Nat) (src : List Word) : List (Sum24 × Bool) :=
  (List.range (2 * flits)).map fun k =>
    let part := ((src.map finOrZero).drop (16 * k)).take 16
    Sum24.encode (part ++ List.replicate (16 - part.length) 0)

/-- The granules of a SUM24 block (R98): the exponents, then two groups to a granule. -/
def s24Block (flits : Nat) (gs : List (Sum24 × Bool)) : List Granule :=
  BitVec.ofNat 512 (gs.foldr (fun g a => g.1.e + 256 * a) 0) :: (List.range flits).map fun f =>
    groupData ((gs.map (·.1)).getD (2 * f) ⟨0, []⟩) ((gs.map (·.1)).getD (2 * f + 1) ⟨0, []⟩)

/-- S24ENC (R97, R98): LEN granules of FP32 into a SUM24 block at D. -/
def s24encEffect (c : Nat) (w : Dword) (env : MemEnv) (s : State) : State :=
  let v := { vectorWord w with fp32 := true }
  let src := srcA c v (seen c env s)
  let flits := cdiv v.len 2
  let gs := s24Groups flits src
  let s1 := writeGranules c 2 v.d (s24Block flits gs) (reads c 2 (aGranules v) env s)
  chargeVec c v.elems
    (when (gs.any (·.2)) (precise c 1 1) (when (src.any fun x => !isFin x) (precise c 2 1) s1))

/-- Granule `k` of source A: of memory, or of the accumulator file, 16 FP32 values to a granule (R33). -/
def srcGranule (c : Nat) (v : VectorWord) (k : Nat) (r : State) : Granule :=
  if v.acc then ((packFp32 1 ((List.range 16).map fun i => accElem c (v.a % 4) (16 * k + i) r)).headD 0) else readGranule c (v.a + k) r

/-- S24DEC (R97, R98): a SUM24 block back to LEN granules of FP32 at D. -/
def s24decEffect (c : Nat) (w : Dword) (env : MemEnv) (s : State) : State :=
  let v := vectorWord w
  let r := seen c env s
  let exps := srcGranule c v 0 r
  let elem := fun i =>
    (sum24Val (fieldOf exps (8 * (i / 16)) 8) (mantVal (fieldOf (srcGranule c v (1 + i / 32) r) (16 * (i % 32)) 16))).toFp
  let out := packFp32 v.len ((List.range (16 * v.len)).map elem)
  let gs := if v.acc then [] else granulesFrom v.a (1 + cdiv v.len 2)
  chargeVec c (16 * v.len) (writeGranules c 2 v.d out (reads c 2 gs env s))

/-- The generator of R231: SEED and a position. -/
def splitmix (seed p : Nat) : Nat :=
  let m := 2 ^ 64
  let x0 := Nat.xor (seed % m) (p * 0x9E3779B97F4A7C15 % m)
  let x1 := Nat.xor x0 (x0 / 2 ^ 30) * 0xBF58476D1CE4E5B9 % m
  let x2 := Nat.xor x1 (x1 / 2 ^ 27) * 0x94D049BB133111EB % m
  Nat.xor x2 (x2 / 2 ^ 31)

/-- u = ((x >> 40) + 0.5) / 2²⁴, exactly (R231). -/
def uniform (seed p : Nat) : Dy := ⟨2 * ((splitmix seed p / 2 ^ 40 : Nat) : Int) + 1, -25⟩

/-- RNG (R33, R231): uniform values of the cell's generator, seeded by the granule at A. -/
def rngEffect (c : Nat) (w : Dword) (env : MemEnv) (s : State) : State :=
  let v := vectorWord w
  let a := srcGranule c v 0 (seen c env s)
  let st := (cell c s).rng
  let out := (List.range v.elems).map fun i => (uniform (fieldOf a 0 64) (Config.rngPosition a st i)).toFp
  let s1 := chargeVec c v.elems (writeGranules c 2 v.d (packResult v out) (reads c 2 (if v.acc then [] else [v.a]) env s))
  modCell c (fun x => { x with rng := BitVec.ofNat 64 (Config.rngPosition a st v.elems) }) s1

/-! ### QNT (R108 to R113) -/

/-- FP32 mean of the magnitudes of 64 values, the sum within the bound of SUMRED. -/
def meanAbs (xs : List Word) : Word := fpMul (fpSum 16 (xs.map fpAbs)) 0x3C800000

/-- Indices of a group that are whey candidates: |x| > 2^OUTR × mean (R109). -/
def candidates (xs : List Word) (outr : Nat) : List Nat :=
  let a := meanAbs xs
  (List.range xs.length).filter fun i =>
    Dy.lt ((fpVal a).mul ⟨1, outr⟩) (fpVal (xs.getD i 0)).abs

/-- Of a list of indices, the one with the largest magnitude, ties to the lower index. -/
def largest (xs : List Word) : List Nat → Option Nat
  | [] => none
  | i :: is =>
    match largest xs is with
    | none => some i
    | some j => if (fpVal (xs.getD j 0)).abs.le (fpVal (xs.getD i 0)).abs then some i else some j

/-- The `n` indices with the largest magnitudes, ties to the lower index. -/
def topBy (xs : List Word) : Nat → List Nat → List Nat
  | 0, _ => []
  | n + 1, is =>
    match largest xs is with
    | none => []
    | some i => i :: topBy xs n (is.filter (· != i))

/-- How a group is quantised. -/
structure QGroup where
  /-- Element codes. -/
  codes : List Nat
  /-- Block scale codes: UE5M3, or indices in KV mode. -/
  scales : List Nat
  /-- Whey entries (INDEX, W8F code) in ascending INDEX. -/
  whey : List (Nat × Nat)
  /-- Dequantised values divided by T, FP32. -/
  deq : List Word
  /-- Something saturated. -/
  sat : Bool
  /-- More than four candidates. -/
  ovf : Bool

/-- Value that a W8F code stands for, in FP32; the NaN code is a NaN. -/
def w8fWord (n : Nat) : Word := if w8fNan n then 0x7FC00000 else (w8fVal n).toFp

/-- Quantise one group of scaled values x / T (R109 to R112). A value that overflowed in the sum or the division clamps (R111, R112);
of a NaN (`lost`), W8F keeps its NaN (R94) and a curd format takes zero. (DEDUCED, unsafe: log entry 16.) -/
def quantGroup (f : Fmt) (indexed : Bool) (outr : Nat) (lost : List Bool) (xs : List Word) : QGroup :=
  let num := fun i => if lost.getD i false then 0 else xs.getD i 0
  let ys := (List.range xs.length).map num
  let cand := if indexed || outr == 0 || decide (f = .w8f) then [] else candidates ys outr
  let ovf := decide (4 < cand.length)
  let inW := if ovf then topBy ys 4 cand else cand
  let block := fun k => ((List.range 16).map fun i => 16 * k + i).filter fun i => !inW.contains i && decide (i < xs.length)
  let blockMax := fun k => (block k).foldl (fun m i => if m.le (fpVal (num i)).abs then (fpVal (num i)).abs else m) Dy.zero
  let emax := packFp false f.emax 0
  let sc := (List.range 4).map fun k =>
    let m := blockMax k
    if m.m = 0 then ((if indexed then 3 else 0), false)
    else
      let q := fpVal (fpDiv m.toFp emax)
      if indexed then indexCode q else scaleCode q
  let scales := sc.map (·.1)
  let sval := fun k => if indexed then indexVal (scales.getD k 0) else ue5m3Val (scales.getD k 0)
  let code := fun i =>
    if lost.getD i false then (if f = .w8f then 0x7F else 0)
    else if inW.contains i then (f.marker).getD 0
    else
      let sv := sval (i / 16)
      if sv.m = 0 then 0 else encodeElem f (fpVal (fpDiv (num i) sv.toFp))
  let codes := (List.range xs.length).map code
  let whey := ((List.range xs.length).filter inW.contains).map fun i => (i, encodeElem .w8f (fpVal (num i)))
  let deq := (List.range xs.length).map fun i =>
    match whey.find? (·.1 == i) with
    | some e => (w8fVal e.2).toFp
    | none =>
      if f = .w8f ∧ w8fNan (codes.getD i 0) then 0x7FC00000
      else ((sval (i / 16)).mul (elemVal f (codes.getD i 0))).toFp
  let wsat := whey.any fun e => Dy.lt ⟨448, 0⟩ (fpVal (num e.1)).abs
  { codes := codes, scales := scales, whey := whey, deq := deq, sat := sc.any (·.2) || wsat, ovf := ovf }

/-- A list of codes of `b` bits as a number. -/
def packCodes (b : Nat) (l : List Nat) : Nat := l.foldr (fun x a => x % 2 ^ b + 2 ^ b * a) 0

/-- Side record of a group (R104). -/
def sideRecord (q : QGroup) : Nat :=
  packCodes 8 q.scales + q.whey.length * 2 ^ 32 +
    (packCodes 16 (q.whey.map fun e => e.1 + 256 * e.2)) * 2 ^ 64

/-- A number as consecutive granules. -/
def toGranules : Nat → Nat → List Granule
  | 0, _ => []
  | n + 1, x => BitVec.ofNat 512 x :: toGranules n (x / 2 ^ 512)

/-- Granules of one activation unit of four groups (R104); groups past the end are zero. -/
def unitGranules (f : Fmt) (qs : List QGroup) : List Granule :=
  let elems := (List.range 4).foldr (fun g a =>
    (match qs[g]? with
      | some q => packCodes f.bits q.codes
      | none => 0) + 2 ^ (64 * f.bits) * a) 0
  let side := (List.range 4).foldr (fun g a =>
    (match qs[g]? with
      | some q => sideRecord q
      | none => 0) + 2 ^ 128 * a) 0
  toGranules (unitElems f) elems ++ toGranules 1 side

/-- Units of an activation run; `n` bounds them. -/
def runGranules (f : Fmt) : Nat → List QGroup → List Granule
  | 0, _ => []
  | n + 1, qs => if qs.isEmpty then [] else unitGranules f (qs.take 4) ++ runGranules f n (qs.drop 4)

/-- BF16 element `i` of the sinter store after a QNT header at granule `b` (R108). -/
def sinterElem (c b i : Nat) (s : State) : Word :=
  ofBf16 (BitVec.ofNat 16 (fieldOf (readGranule c (b + 1 + i / 32) s) (16 * (i % 32)) 16))

/-- Sinter store of a QNT: element by element, the store of the row's sequence in KV mode (R116), otherwise that in memory at B. -/
def storeElem (c b : Nat) (kvr : Option (KvRow × StepSeq)) (i : Nat) (r : State) : Word :=
  match kvr with
  | some k => ofBf16 (BitVec.ofNat 16 (fieldOf ((sinterBefore k.1 k.2 r).getD (i / 32) 0) (16 * (i % 32)) 16))
  | none => sinterElem c b i r

/-- The row that a QNT in KV mode quantises, with its step. -/
def kvRowOf (kv : Bool) (env : MemEnv) (s : State) : Option (KvRow × StepSeq) :=
  if kv then env.kvRow.bind fun r => (stepRows r.seq s).map fun x => (r, x) else none

/-- KV format of a QNT and whether C4F stands in for KFMT (R191): that of the row's page where it is fixed; otherwise KFMT where an
element area of the pool holds it. (DEDUCED, unsafe: log entry 18.) -/
def kvFormat (c : Nat) (kvr : Option (KvRow × StepSeq)) (s : State) : Nat × Bool :=
  let k := cellKfmt (cell c s)
  match kvr with
  | some r =>
    match pageFormat r.1 r.2 s with
    | some p => (p.fmt, false)
    | none => freshFormat (seqSlot r.1.seq s).model k s
  | none =>
    match modelOfCell c s with
    | none => (k, false)
    | some m => freshFormat m k s

/-- T of a QNT: that of the row's page in KV mode (R191), otherwise that of its header (R108). -/
def qntScale (hdr : Granule) (kvr : Option (KvRow × StepSeq)) (k : Nat) (a : List Word) (s : State) : Word :=
  match kvr with
  | none => qntT hdr
  | some r =>
    let most := a.foldl (fun m x => if m.le (fpVal x).abs then (fpVal x).abs else m) Dy.zero
    let fresh := pageScale k (rd (F.POOL_GEOM.HEADROOM (seqSlot r.1.seq s).model) s) most
    match pageFormat r.1 r.2 s with
    | some p => ((p.scales.find? (·.1 == r.1.part)).map (·.2)).getD fresh
    | none => fresh

/-- Formats QNT writes (R108): AFMT or W8F, C4I in CARRY, the KV format in KV; none stands for BF16 KV.
(DEDUCED, unsafe: log entry 18.) -/
def qntFormat (x : Cell) (k : Nat) (kv carry : Bool) : Option Fmt :=
  if kv then afmtOf k
  else if carry then some .c4i
  else cellAfmt x

/-- Keep what a KV-mode QNT of a known row computed: its page's scale, its staged elements, and its carry (R116, R117, R187, R191). -/
def keepRow (c : Nat) (kvr : Option (KvRow × StepSeq)) (k : Nat) (t : Word) (elems : List Granule) (idx : Granule)
    (carry : Option (List Granule)) (s : State) : State :=
  match kvr with
  | none => s
  | some r =>
    let s1 := stageKv r.1 r.2 elems idx (putScale r.1 r.2 k t s)
    match carry with
    | some d => putCarry c r.1 r.2 d s1
    | none => s1

/-- What a QNT computes from its operands. -/
structure QntResult where
  /-- Granules it writes at D. -/
  out : List Granule
  /-- The header it writes at B, in KV mode (R108). -/
  header : Option Granule
  /-- The errors it keeps in the sinter store, from B + 1 on (R116). -/
  kept : Option (List Granule)
  /-- Block indices of the elements. -/
  idx : Granule
  /-- T (R108, R191). -/
  scale : Word
  /-- KV format, and whether C4F stands in for KFMT (R191). -/
  kf : Nat × Bool
  /-- Something saturated (R111, R112). -/
  sat : Bool
  /-- Groups with more than four whey candidates (R110). -/
  ovfs : Nat
  /-- T or a source element is not finite (R113). -/
  nonfin : Bool
  deriving DecidableEq, Repr

/-- The error of each value as quantised, BF16 (R109). -/
def errorsOf (vs q : List Word) : List Granule :=
  packBf16 (cdiv vs.length 32) ((List.range vs.length).map fun i => fpAdd (vs.getD i 0) (q.getD i 0 ^^^ 0x80000000))

/-- The row in whose KV a QNT quantises, if the block header at B asks for KV mode. -/
def qntRow (hdr : Granule) (env : MemEnv) (s : State) : Option (KvRow × StepSeq) := kvRowOf (qntMode hdr 2) env s

/-- ADD of a QNT acts: the mode bit is set, the layer's entry sets RSINTER (KSINTER in KV mode), and CARRY is clear (R115, R116). -/
def qntAdds (hdr : Granule) (x : Cell) : Bool :=
  qntMode hdr 0 && !(qntMode hdr 3 && !qntMode hdr 2) && bitAt x.recipe (if qntMode hdr 2 then 13 else 12)

/-- KEEP of a QNT acts, likewise. -/
def qntKeeps (hdr : Granule) (x : Cell) : Bool :=
  qntMode hdr 1 && !(qntMode hdr 3 && !qntMode hdr 2) && bitAt x.recipe (if qntMode hdr 2 then 13 else 12)

/-- What a QNT of a cell computes (R108 to R113): `r` is what it reads. Bits of IDX past the last block are written zero. (DEDUCED, unsafe:
log entry 18.) -/
def qntResult (c : Nat) (v : VectorWord) (env : MemEnv) (r s : State) : QntResult :=
  let x := cell c s
  let hdr := readGranule c v.b r
  let kv := qntMode hdr 2
  let carry := qntMode hdr 3 && !kv
  let kvr := qntRow hdr env s
  let src := srcA c v r
  let a := src.map finOrZero
  let n := v.elems
  let kf := kvFormat c kvr s
  let t := qntScale hdr kvr kf.1 a s
  let tOk := isFin t && !isZero t && !fpNeg t
  let vs := (List.range n).map fun i => if qntAdds hdr x then fpAdd (a.getD i 0) (storeElem c v.b kvr i r) else a.getD i 0
  let lost := vs.map isNan
  let nonfin := !tOk || (src.any fun e => !isFin e)
  let zeros := List.replicate n (0 : Word)
  let keep := qntKeeps hdr x && tOk
  match qntFormat x kf.1 kv carry with
  | none =>
    let vals := if tOk then vs else zeros
    { out := packBf16 (cdiv n 32) vals, header := none, idx := 0, scale := t, kf := kf, sat := false, ovfs := 0, nonfin := nonfin
      kept := if keep then some (errorsOf vs (vals.map fun e => ofBf16 (toBf16 e))) else none }
  | some f =>
    let xs := if tOk then vs.map fun e => fpDiv e t else zeros
    let outr := if kv || carry then 0 else fieldOf x.recipe 8 3
    let qs := (List.range (n / 64)).map fun g =>
      quantGroup f kv outr (if tOk then (lost.drop (64 * g)).take 64 else []) ((xs.drop (64 * g)).take 64)
    let idx := if tOk then qs.foldr (fun q acc => packCodes 2 q.scales + 256 * acc) 0 % 2 ^ 448 else 0
    { out :=
        if kv then toGranules (cdiv (n * f.bits) 512) (qs.foldr (fun q acc => packCodes f.bits q.codes + 2 ^ (64 * f.bits) * acc) 0)
        else runGranules f (qs.length + 1) qs
      header := if kv then some (BitVec.ofNat 512 (t.toNat + fieldOf hdr 32 32 * 2 ^ 32 + idx * 2 ^ 64)) else none
      kept := if keep then some (errorsOf vs ((qs.flatMap (·.deq)).map fun d => fpMul t d)) else none
      idx := BitVec.ofNat 512 idx, scale := t, kf := kf, sat := qs.any (·.sat), ovfs := (qs.filter (·.ovf)).length, nonfin := nonfin }

/-- The writes of a QNT (R108, R116): the elements at D, the header at B, the errors from B + 1 on. -/
def qntWrites (c : Nat) (v : VectorWord) (q : QntResult) (s : State) : State :=
  let s1 := writeGranules c 2 v.d q.out s
  let s2 := match q.header with
    | none => s1
    | some h => writeGranule c 2 v.b h s1
  match q.kept with
  | none => s2
  | some e => writeGranules c 2 (v.b + 1) e s2

/-- QNT (R108 to R113, R115 to R117, R191). -/
def qntEffect (c : Nat) (w : Dword) (env : MemEnv) (s : State) : State :=
  let v := vectorWord w
  let r := seen c env s
  let hdr := readGranule c v.b r
  let q := qntResult c v env r s
  let store := if qntAdds hdr (cell c s) then granulesFrom (v.b + 1) (cdiv v.elems 32) else []
  let s1 := qntWrites c v q (reads c 2 (aGranules v ++ [v.b] ++ store) env s)
  let s2 := keepRow c (qntRow hdr env s) q.kf.1 q.scale q.out q.idx q.kept s1
  let s3 := when q.sat (precise c 1 1) (precise c 0 q.ovfs s2)
  let s4 := when (qntMode hdr 2 && q.kf.2) (raise F.KV_STS.FMT_FIT) s3
  chargeVec c v.elems (when q.nonfin (precise c 2 1) s4)

end Sys2Proof.Machine
end

