-- ==== Sys2Proof/Machine/Seq.lean ====
section
/-!
DEFINITION. The sequencer (R29, R30, R71, R81, R138, R141): fetching, issuing one word, and the meanings of the cell's
instructions. Each command names the word that the cell issues; it does nothing where the cell does not issue such a word.
-/
namespace Sys2Proof.Machine
open Sys2Proof

/-- `SLOT_NO`. -/
def slotNo (s : State) : Nat := cnt F.SLOT_NO s

/-- A cell's own copy of `SLOT_NO` (R147). -/
def cellSlot (c : Nat) (s : State) : Nat := (slotNo s + (cell c s).slotOff.toNat) % 2 ^ 54

/-- The sequencer of a cell may issue (R29, R30, R135, R139, R364, R390): the module runs, the cell exists and runs, it is in an
iteration, nothing stalls it, no reset acts on it, and its field's slot is not gated. (DESIGN CHOICE, unsafe: log entry 2.) -/
def canIssue (c : Nat) (s : State) : Bool :=
  let x := cell c s
  decide (c < cellCount) && alive s && !absent c s && x.run && !x.illegal && x.inIter && decide (x.stall = .none) &&
    decide (x.phase = .none) && !s.sched.gated.contains (fieldOfCell c)

/-- One granule fetched through the SEQ port (R69, R71). -/
def fetchGranule (c g : Nat) (env : MemEnv) (s : State) : State :=
  let s1 := readChecks c [g] env (countAccess c 4 g s)
  modCell c (fun x => { x with
    fetch := (x.fetch ++ [(g, readGranule c g (seen c env s))]).drop (x.fetch.length + 1 - 2)
    waiting := x.waiting.filter fun w => w.port != 4 }) s1

/-- The fetch buffer holds the granule of the next word and the one after it; a granule once fetched is not read again (R71). -/
def fill (c : Nat) (env : MemEnv) (s : State) : State :=
  let g := (cell c s).pc.toNat / 8
  let s1 := if (cell c s).fetch.any (·.1 == g) then s
    else fetchGranule c g env (modCell c (fun x => { x with fetch := [] }) s)
  if (cell c s1).fetch.any (·.1 == g + 1) then s1 else fetchGranule c (g + 1) env s1

/-- The word that issues next, once the fetch buffer is filled. -/
def nextWord (c : Nat) (s : State) : Dword :=
  let x := cell c s
  match x.fetch.find? (·.1 == x.pc.toNat / 8) with
  | some g => BitVec.ofNat 64 (fieldOf g.2 (64 * (x.pc.toNat % 8)) 64)
  | none => 0

/-- Go to the next word; a granule fully issued leaves the fetch buffer (R71). -/
def advance (c : Nat) (s : State) : State :=
  modCell c (fun x =>
    let pc := x.pc + 1
    { x with pc := pc, fetch := x.fetch.filter fun g => decide (pc.toNat / 8 ≤ g.1) }) s

/-- Issue the word of a cell when it is of the wanted kind: fill the buffer, perform `body` on the word, and go on to the next word
unless `stay`. -/
def issue (c : Nat) (want : Kind → Bool) (env : MemEnv) (body : Dword → State → State) (stay : Bool) (s : State) : State :=
  if canIssue c s then
    let s1 := fill c env s
    let w := nextWord c s1
    if want (kindOf c w (seen c env s1)) then
      let s2 := body w s1
      if stay then s2 else advance c s2
    else s
  else s

/-- A vector instruction. -/
def issueVector (op c : Nat) (env : MemEnv) (body : Nat → Dword → MemEnv → State → State) (s : State) : State :=
  issue c (fun k => decide (k = .vector op)) env (fun w s1 => body c w env s1) false s

/-- What the checks of R347 found at a word that no engine performs: fetch buffer, issue state and decoding. -/
def seqChecks (c : Nat) (env : MemEnv) (s : State) : State := forEach env.checks (fun k => report k c) s

/-- NOP does nothing (R30). -/
def execNop (c : Nat) (env : MemEnv) (s : State) : Host.Outcome State Fault Refusal :=
  .next (issue c (fun k => decide (k = .nop)) env (fun _ s1 => seqChecks c env s1) false s)

/-- TENSOR (R31). -/
def execTensor (c : Nat) (env : MemEnv) (s : State) : Host.Outcome State Fault Refusal :=
  .next (issue c (fun k => decide (k = .tensor)) env (fun w s1 => tensorEffect c w env s1) false s)

/-- ADD (R33). -/
def execAdd (c : Nat) (env : MemEnv) (s : State) : Host.Outcome State Fault Refusal := .next (issueVector 0x00 c env addEffect s)

/-- MUL (R33). -/
def execMul (c : Nat) (env : MemEnv) (s : State) : Host.Outcome State Fault Refusal := .next (issueVector 0x01 c env mulEffect s)

/-- FMA (R33). -/
def execFma (c : Nat) (env : MemEnv) (s : State) : Host.Outcome State Fault Refusal := .next (issueVector 0x02 c env fmaEffect s)

/-- MAX (R33). -/
def execMax (c : Nat) (env : MemEnv) (s : State) : Host.Outcome State Fault Refusal := .next (issueVector 0x03 c env maxEffect s)

/-- EXP (R33, R118). -/
def execExp (c : Nat) (env : MemEnv) (s : State) : Host.Outcome State Fault Refusal := .next (issueVector 0x04 c env expEffect s)

/-- RCP (R33, R118). -/
def execRcp (c : Nat) (env : MemEnv) (s : State) : Host.Outcome State Fault Refusal := .next (issueVector 0x05 c env rcpEffect s)

/-- RSQRT (R33, R118). -/
def execRsqrt (c : Nat) (env : MemEnv) (s : State) : Host.Outcome State Fault Refusal :=
  .next (issueVector 0x06 c env rsqrtEffect s)

/-- SUMRED (R33, R118). -/
def execSumred (c : Nat) (env : MemEnv) (s : State) : Host.Outcome State Fault Refusal :=
  .next (issueVector 0x07 c env sumredEffect s)

/-- MAXRED (R33). -/
def execMaxred (c : Nat) (env : MemEnv) (s : State) : Host.Outcome State Fault Refusal :=
  .next (issueVector 0x08 c env maxredEffect s)

/-- CVT (R33). -/
def execCvt (c : Nat) (env : MemEnv) (s : State) : Host.Outcome State Fault Refusal := .next (issueVector 0x09 c env cvtEffect s)

/-- SCALE (R33). -/
def execScale (c : Nat) (env : MemEnv) (s : State) : Host.Outcome State Fault Refusal :=
  .next (issueVector 0x0A c env scaleEffect s)

/-- QNT (R109). -/
def execQnt (c : Nat) (env : MemEnv) (s : State) : Host.Outcome State Fault Refusal := .next (issueVector 0x0B c env qntEffect s)

/-- S24ENC (R98). -/
def execS24enc (c : Nat) (env : MemEnv) (s : State) : Host.Outcome State Fault Refusal :=
  .next (issueVector 0x0C c env s24encEffect s)

/-- S24DEC (R98). -/
def execS24dec (c : Nat) (env : MemEnv) (s : State) : Host.Outcome State Fault Refusal :=
  .next (issueVector 0x0D c env s24decEffect s)

/-- RNG (R33). -/
def execRng (c : Nat) (env : MemEnv) (s : State) : Host.Outcome State Fault Refusal := .next (issueVector 0x0E c env rngEffect s)

/-! ### WAIT, SYNC, JUMP, illegal words -/

/-- Does counter `n` meet a threshold (R81)? -/
def meets (c n : Nat) (t : BitVec 24) (s : State) : Bool := decide (t.toNat ≤ (arrival c n s).toNat)

/-- WAIT (R81): with its counter at the threshold it completes and takes it, otherwise it stalls issue.
(DESIGN CHOICE, safe: log entry 65.) -/
def waitEffect (c : Nat) (w : Dword) (s : State) : State :=
  let n := waitCnt w
  let t := waitThresh w
  if t = 0 then advance c s
  else if meets c n t s then advance c (takeThreshold c n t s)
  else modCell c (fun x => { x with stall := .wait n t }) s

/-- WAIT. -/
def execWait (c : Nat) (env : MemEnv) (s : State) : Host.Outcome State Fault Refusal :=
  .next (issue c (fun k => decide (k = .wait)) env (fun w s1 => waitEffect c w (seqChecks c env s1)) true s)

/-- WAIT_COMPLETE (R81, R388): the counter has reached the threshold of the stalled WAIT, and the sequencer is not gated. (DESIGN CHOICE, safe: log entry 65.) -/
def waitComplete (c : Nat) (s : State) : State :=
  match (cell c s).stall with
  | .wait n t =>
    if meets c n t s && decide ((cell c s).phase = .none) && !s.sched.gated.contains (fieldOfCell c) then
      advance c (modCell c (fun x => { x with stall := .none }) (takeThreshold c n t s))
    else s
  | _ => s

/-- WAIT_COMPLETE. -/
def execWaitComplete (c : Nat) (s : State) : Host.Outcome State Fault Refusal := .next (waitComplete c s)

/-- Complete the SYNC a cell stands at (R138, R141). (DESIGN CHOICE, safe: log entry 65.) -/
def completeSync (c : Nat) (s : State) : State :=
  advance c (modCell c (fun x => { x with stall := .none, syncs := x.syncs + 1 }) s)

/-- SYNC (R141): it closes slot m of the iteration, and completes at once when `SLOT_NO` exceeds m. -/
def syncEffect (c : Nat) (s : State) : State :=
  let m := (cell c s).iterStart + (cell c s).syncs
  if m < cellSlot c s then completeSync c s else modCell c (fun x => { x with stall := .sync m }) s

/-- SYNC. -/
def execSync (c : Nat) (env : MemEnv) (s : State) : Host.Outcome State Fault Refusal :=
  .next (issue c (fun k => decide (k = .sync)) env (fun _ s1 => syncEffect c (seqChecks c env s1)) true s)

/-- JUMP empties the fetch buffer (R71). -/
def execJump (c : Nat) (env : MemEnv) (s : State) : Host.Outcome State Fault Refusal :=
  .next (issue c (fun k => decide (k = .jump)) env
    (fun w s1 => modCell c (fun x => { x with pc := jumpTarget w, fetch := [] }) (seqChecks c env s1)) true s)

/-- An illegal word (R30, R105): issue stops, ILLEGAL is set and a data-class fault reported. -/
def execIllegalInstruction (c : Nat) (env : MemEnv) (s : State) : Host.Outcome State Fault Refusal :=
  .next (issue c (fun k => decide (k = .illegal)) env
    (fun _ s1 => report 0x03 c (raise (F.FAB_ERR_STS.ILLEGAL (fieldOfCell c)) (modCell c (fun x => { x with illegal := true })
      (seqChecks c env s1)))) true s)

end Sys2Proof.Machine
end

