-- ==== Sys2Proof/Machine/Mesh.lean ====
section
/-!
DEFINITION. The mesh (R41 to R61, R336, R347, R348, R365): MOVE, landings, multicast copies, reductions, link replay, VC0 words and
configuration packets at their targets, and the restoring words of the hold collectors.
-/
namespace Sys2Proof.Machine
open Sys2Proof

/-! ### Placement -/

/-- The placement of a row, in its `SPARE_MAP` register and in its routers' copies (R39, R60, R63). -/
def setRow (field row : Nat) (w : Word) (s : State) : State :=
  let s1 := setReg (O.SPARE_MAP field row) w s
  { s1 with mesh := { s1.mesh with rowMap := Table.set (fun _ => 0) s1.mesh.rowMap (field * 32 + row) w } }

/-! ### Links -/

/-- The direction of a link that leaves a router through a port. -/
def linkDir (r port : Nat) (s : State) : LinkDir := Table.get (fun _ => LinkDir.reset) s.mesh.links (r * 8 + port)

/-- Store a link direction. -/
def setLinkDir (r port : Nat) (l : LinkDir) (s : State) : State :=
  { s with mesh := { s.mesh with links := Table.set (fun _ => LinkDir.reset) s.mesh.links (r * 8 + port) l } }

/-- Entries that a replay buffer keeps (R53): 8 within a field, 16 across a stitch. -/
def replayDepth (r port : Nat) : Nat := if stitch r port then 16 else 8

/-- Keep the last `n` of a list. -/
def lastN {α : Type} (n : Nat) (l : List α) : List α := l.drop (l.length - n)

/-- A flit after its hop through a port (R42, R51, R57): one that leaves its row owes no alignment cycle any more. -/
def turned (port : Nat) (f : Flit) : Flit :=
  if port = 1 ∨ port = 3 then { f with tag := f.tag &&& ~~~(BitVec.ofNat 48 (2 ^ 43)) } else f

/-- A flit as a link carries it: the link's SEQ stands in its tag (R51, R53). -/
def onLink (port seq : Nat) (f : Flit) : Flit :=
  { turned port f with tag := (turned port f).tag &&& ~~~(15 : BitVec 48) ||| BitVec.ofNat 48 (seq % 16) }

/-- A flit passes a link: it takes the next SEQ and a copy stays in the replay buffer (R53). -/
def passLink (f : Flit) (r port : Nat) (s : State) : State :=
  let l := linkDir r port s
  setLinkDir r port { l with
    replay := lastN (replayDepth r port) (l.replay ++ [(l.seq, onLink port l.seq f)])
    seq := (l.seq + 1) % 16 } s

/-- A VC0 word passes a link. -/
def passLink0 (w : Word) (r port : Nat) (s : State) : State :=
  let l := linkDir r port s
  setLinkDir r port { l with
    replay0 := lastN (replayDepth r port) (l.replay0 ++ [(l.seq0, w)])
    seq0 := (l.seq0 + 1) % 16 } s

/-- A flit passes the links of a route. -/
def passRoute (f : Flit) (rt : List (Nat × Nat)) (s : State) : State := forEach rt (fun p => passLink f p.1 p.2) s

/-- A VC0 word was sent on a link no earlier than the word whose replay its receiver awaits: it is discarded (R53). -/
def LinkDir.discards0 (l : LinkDir) (w : Word) : Bool :=
  match l.await0 with
  | none => false
  | some n => (l.replay0.dropWhile (·.1 != n)).any fun p => p.2 == w

/-- One of these VC0 words has been discarded on a route, and its replay has not come (R53). -/
def lost0 (ws : List Word) (rt : List (Nat × Nat)) (s : State) : Bool :=
  rt.any fun p => ws.any (linkDir p.1 p.2 s).discards0

/-- VC0 words pass the links of a route. -/
def passRoute0 (ws : List Word) (rt : List (Nat × Nat)) (s : State) : State :=
  forEach rt (fun p t => forEach ws (fun w => passLink0 w p.1 p.2) t) s

/-! ### Flits on their way (R42, R46, R53, R59) -/

/-- The same flit: data and tag agree but for SEQ and the alignment cycle, which links change. -/
def sameFlit (a b : Flit) : Bool :=
  let mask : BitVec 48 := BitVec.ofNat 48 (2 ^ 48 - 1 - 2 ^ 43 - 31)
  a.data == b.data && (a.tag &&& mask) == (b.tag &&& mask)

/-- Virtual channel of a flit (R51). -/
def vcOf (f : Flit) : Nat := fieldOf f.tag 46 2

/-- Credits of VC2 in use on a link direction (R46, R59): slots of the 8 flits of the buffer at its far end. -/
def used2 (r port : Nat) (s : State) : Nat := Table.get (fun _ => 0) s.mesh.used2 (r * 8 + port)

/-- Credits of VC3 in use on a link direction (R46, R59): slots of the 4 flits of the buffer at its far end. -/
def used3 (r port : Nat) (s : State) : Nat := Table.get (fun _ => 0) s.mesh.used3 (r * 8 + port)

/-- Store the VC3 credits in use on a link direction. -/
def setUsed3 (r port n : Nat) (s : State) : State :=
  { s with mesh := { s.mesh with used3 := Table.set (fun _ => 0) s.mesh.used3 (r * 8 + port) n } }

/-- A VC3 flit takes a slot of the buffer at the far end of a link, and with it a credit. -/
def enter3 (f : Flit) (p : Option (Nat × Nat)) (s : State) : State :=
  match p with
  | some (r, port) => when (vcOf f == 3) (fun t => setUsed3 r port (used3 r port t + 1) t) s
  | none => s

/-- A VC3 flit leaves such a slot: the credit comes back. -/
def leave3 (f : Flit) (p : Option (Nat × Nat)) (s : State) : State :=
  match p with
  | some (r, port) => when (vcOf f == 3) (fun t => setUsed3 r port (used3 r port t - 1) t) s
  | none => s

/-- A VC3 flit finds no credit on a link direction. -/
def full3 (f : Flit) (p : Nat × Nat) (s : State) : Bool := vcOf f == 3 && decide (4 ≤ used3 p.1 p.2 s)

/-- A flit may pass a link now: VC3 has a credit, and the replay buffer has room. (DEDUCED, unsafe: log entry 20.) -/
def mayHop (f : Flit) (p : Nat × Nat) (s : State) : Bool :=
  !full3 f p s && decide ((linkDir p.1 p.2 s).replay.length < replayDepth p.1 p.2)

/-- Put a flit on the mesh as it stands. -/
def keepFlight (x : Flight) (s : State) : State := { s with mesh := { s.mesh with flight := s.mesh.flight ++ [x] } }

/-- A flit bound for a span port or an OCL entry leaves the mesh where its route ends (R45). -/
def leavesMesh (x : Flight) : Bool :=
  x.ahead.isEmpty && !bitAt x.flit.tag 45 && decide (221196 ≤ fieldOf x.flit.tag 5 18) && decide (fieldOf x.flit.tag 5 18 < 221203)

/-- A flit stands where it has come to; one that has come to its span port or OCL entry goes out by it (R45, R336). -/
def settle (x : Flight) (s : State) : State :=
  if leavesMesh x then
    let s1 := leave3 x.flit x.via.getLast? s
    match x.out with
    | some (m, arg, data) => sendSpan 0x30 m arg data s1
    | none => s1
  else keepFlight x s

/-- A flit goes on over the links of its route that it may pass now (R46, R48). (DEDUCED, unsafe: log entry 20.) -/
def goOn (x : Flight) (s : State) : State :=
  let go := x.ahead.takeWhile fun p => mayHop x.flit p s
  if go.isEmpty then settle x s
  else
    settle { x with via := x.via ++ go, ahead := x.ahead.drop go.length }
      (enter3 x.flit go.getLast? (leave3 x.flit x.via.getLast? (passRoute x.flit go s)))

/-- Every flit goes on as far as it may, oldest first: a slot or a place in a replay buffer has become free. -/
def moveOn (s : State) : State :=
  forEach s.mesh.flight goOn { s with mesh := { s.mesh with flight := [] } }

/-- A flit of an activity's work enters the mesh on a route. (DEDUCED, unsafe: log entry 19.) -/
def sendFlit (at_ act : Nat) (f : Flit) (rt : List (Nat × Nat)) (s : State) : State := goOn ⟨at_, f, act, [], rt, none, none⟩ s

/-- A multicast flit of an activity's work stands at a router, come by a link. -/
def launchFlit (at_ act : Nat) (f : Flit) (via : List (Nat × Nat)) (s : State) : State :=
  keepFlight ⟨at_, f, act, via, [], none, none⟩ s

/-- The receiver of a link direction discards a flit until its replay arrives (R53): it was sent no earlier than the awaited one. -/
def LinkDir.discards (l : LinkDir) (f : Flit) : Bool :=
  match l.await with
  | none => false
  | some n => (l.replay.dropWhile (·.1 != n)).any fun p => sameFlit p.2 f

/-- Some link direction that a flit has passed has discarded it, and its replay has not come (R53). -/
def heldBack (via : List (Nat × Nat)) (f : Flit) (s : State) : Bool := via.any fun p => (linkDir p.1 p.2 s).discards f

/-- A flit on the mesh cannot have come to the end of its route: a link has discarded it, or it waits for a credit or for a replay. -/
def Flight.stuck (x : Flight) (s : State) : Bool :=
  heldBack x.via x.flit s || x.ahead.any fun p => full3 x.flit p s || (linkDir p.1 p.2 s).await.isSome

/-- Take a flit off the mesh at the end of its route, and let the others go on. -/
def liftFlit (x : Flight) (s : State) : State :=
  moveOn (leave3 x.flit x.via.getLast? (passRoute x.flit x.ahead { s with mesh := { s.mesh with flight := s.mesh.flight.erase x } }))

/-- The oldest flit on the mesh of which this holds. -/
def flightOf (p : Flight → Bool) (s : State) : Option Flight := s.mesh.flight.find? p

/-- An endpoint takes a VC3 flit that has come to it and carries this data, if there is one (R194). -/
def takeBound (dst : Nat) (g : Granule) (s : State) : State :=
  match flightOf (fun x => !x.stuck s && vcOf x.flit == 3 && fieldOf x.flit.tag 5 18 == dst && x.flit.data == g) s with
  | some x => liftFlit x s
  | none => s

/-! ### Tables -/

/-- Multicast table entry of a router (R54). -/
def mcastEntry (r tree : Nat) (s : State) : BitVec 16 := Table.get (fun _ => 0) s.mesh.mcast (r * 256 + tree)

/-- Reduction table entry of a router (R56). -/
def redEntry (r tree : Nat) (s : State) : Word := Table.get (fun _ => 0) s.mesh.redTab (r * 256 + tree)

/-- A router's entry copies a flit out of its row: a leaf's path turns there (R42, R54). -/
def turnsAt (e : BitVec 16) : Bool := bitAt e 1 || bitAt e 3

/-- Within `n` hops from a router through a port of its row, a multicast tree turns out of the row. -/
def rowTurns : Nat → Nat → Nat → Nat → State → Bool
  | 0, _, _, _, _ => false
  | n + 1, r, port, tree, s =>
    match neighbour r port with
    | none => false
    | some q =>
      let e := mcastEntry q tree s
      bitAt e 5 && (turnsAt e || (bitAt e port && rowTurns n q port tree s))

/-- A multicast flit owes an alignment cycle at its root (R42, R51, R55): some leaf lies in another row. -/
def treeOwes (c tree : Nat) (s : State) : Bool :=
  let e := mcastEntry c tree s
  bitAt e 5 && (turnsAt e || (bitAt e 2 && rowTurns 1151 c 2 tree s) || (bitAt e 4 && rowTurns 1151 c 4 tree s))

/-- A cell's VC2 flit owes an alignment cycle (R51, R57): its path to the root begins with a Y leg. -/
def leafOwes (c tree : Nat) (s : State) : Bool :=
  let e := redEntry c tree s
  bitAt e 8 && (fieldOf e 5 3 == 1 || fieldOf e 5 3 == 3)

/-! ### MOVE -/

/-- Tag of flit `i` of a MOVE on VC1 or VC3 from cell `c` (R51). A multicast DST above 255 is taken modulo 256: the spec gives no
outcome. (DEDUCED, unsafe: log entry 19; DESIGN CHOICE, unsafe: log entry 69.) -/
def moveTag (c : Nat) (m : MoveWord) (i : Nat) (s : State) : BitVec 48 :=
  let mc := m.mc && m.vc == 1
  let dst := if mc then m.dst % 256 else m.dst
  let al := if mc then treeOwes c dst s else grow c != grow (meshEnd c m.dst)
  BitVec.ofNat 48 (dst * 2 ^ 5 + (m.raddr + i) % 2 ^ 15 * 2 ^ 23 + m.cnt * 2 ^ 38 + bitN al * 2 ^ 43 +
    bitN (i + 1 == m.len) * 2 ^ 44 + bitN mc * 2 ^ 45 + m.vc * 2 ^ 46)

/-- Tag of flit `i` of a MOVE on VC2 (R51, R56). A DST above 255 is taken modulo 256: the spec gives no outcome. (DEDUCED, unsafe: log
entry 19; DESIGN CHOICE, unsafe: log entry 69.) -/
def sumTag (c : Nat) (m : MoveWord) (exps : Granule) (i : Nat) (s : State) : BitVec 48 :=
  BitVec.ofNat 48 (m.dst % 256 * 2 ^ 7 + (m.raddr + i) % 4096 * 2 ^ 15 + fieldOf exps (16 * i) 8 * 2 ^ 27 +
    fieldOf exps (16 * i + 8) 8 * 2 ^ 35 + bitN (leafOwes c (m.dst % 256) s) * 2 ^ 43 + bitN (i + 1 == m.len) * 2 ^ 44 + 2 * 2 ^ 46)

/-- Granules a MOVE reads: LEN flits, and for VC2 the block's exponents before them (R98). -/
def moveGranules (m : MoveWord) : List Nat := granulesFrom m.laddr (if m.vc = 2 then m.len + 1 else m.len)

/-- Put a VC2 flit into an input queue of a router (R56). -/
def queueSum (r tree port act : Nat) (f : Flit) (s : State) : State :=
  let k := (r * 256 + tree) * 8 + port
  { s with mesh := { s.mesh with
      redQ := Table.set (fun _ => []) s.mesh.redQ k (Table.get (fun _ => []) s.mesh.redQ k ++ [(act, f)]) } }

/-- The queue of an input. -/
def sumQueue (r tree port : Nat) (s : State) : List Flit :=
  (Table.get (fun _ => []) s.mesh.redQ ((r * 256 + tree) * 8 + port)).map (·.2)

/-- Activity whose work the head of a tree's inputs is. -/
def sumAct (r tree : Nat) (ins : List Nat) (s : State) : Nat :=
  ((ins.filterMap fun p => (Table.get (fun _ => []) s.mesh.redQ ((r * 256 + tree) * 8 + p)).head?).head?.map (·.1)).getD 0

/-- The XING message of a crossing of a split model: model, ARG, data (R336). -/
def crossingMsg (c : Nat) (m : MoveWord) (data : List Granule) (s : State) : Option (Nat × Nat × List Slot16) :=
  match modelOfCell c s with
  | none => none
  | some k =>
    let sgr := match (image k s).crossings[m.raddr]? with
      | some r => fieldOf r 39 15
      | none => m.laddr
    let slots := data.flatMap fun g => (List.range 4).map fun i => (BitVec.ofNat 128 (fieldOf g (128 * i) 128) : Slot16)
    some (k, m.raddr + (m.laddr - sgr) % 1024 * 2 ^ 15, slots)

/-- Charge a VC3 flit's hops, and every flit's energy (R165). -/
def chargeHops (c vc n h : Nat) (s : State) : State :=
  let a := activityOf (cell c s).serving
  let s1 := if vc = 3 then charge a 0 (n * h) s else s
  chargeEnergy a (energyHop vc) (n * h) s1

/-- A cell of a T36 image has no access to the memory stacks (R27): for it their controllers are no endpoints. (DESIGN CHOICE, unsafe: log
entry 76.) -/
def barred (c dst : Nat) (s : State) : Bool := inT36 c s && decide (221184 ≤ dst) && decide (dst < 221196)

/-- MOVE (R27, R30, R45, R51, R54, R56, R336): LEN flits leave the cell. -/
def moveEffect (c : Nat) (w : Dword) (env : MemEnv) (s : State) : State :=
  let m := moveWord w
  let r := seen c env s
  let act := activityOf (cell c s).serving
  let s1 := reads c 3 (moveGranules m) env s
  let data := (List.range m.len).map fun i => readGranule c (m.laddr + i) r
  if m.vc = 2 then
    let exps := readGranule c m.laddr r
    let flits := (List.range m.len).map fun i => (⟨sumTag c m exps i s, readGranule c (m.laddr + 1 + i) r⟩ : Flit)
    forEach flits (fun f => queueSum c (m.dst % 256) 0 act f) s1
  else
    let flits := (List.range m.len).map fun i => (⟨moveTag c m i s, readGranule c (m.laddr + i) r⟩ : Flit)
    if m.mc && m.vc == 1 then forEach flits (fun f => launchFlit c act f []) s1
    else if !endpointOk m.dst || barred c m.dst s then forEach flits (fun _ => report 0x0A c) s1
    else
      let rt := route c (meshEnd c m.dst)
      let xing := if m.vc = 3 ∧ 221196 ≤ m.dst ∧ m.dst < 221200 then crossingMsg c m data s else none
      forEach flits (fun f => goOn ⟨c, f, act, [], rt, if bitAt f.tag 44 then xing else none, none⟩)
        (chargeHops c m.vc m.len (hops c (meshEnd c m.dst)) s1)

/-- MOVE. -/
def execMove (c : Nat) (env : MemEnv) (s : State) : Host.Outcome State Fault Refusal :=
  .next (issue c (fun k => decide (k = .move)) env (fun w s1 => moveEffect c w env s1) false s)

/-! ### Landings -/

/-- VC1 flits met on link directions; the earlier-injected one went first (R47). -/
def vc1Meets (rs : List Nat) (s : State) : State :=
  forEach rs (fun r t => raise (F.FAB_ERR_STS.VC1_CONFLICT (fieldOfCell r)) (bump (F.VC1_CONFLICT_CNT (fieldOfCell r)) t)) s

/-- Write a landing granule and count the arrival (R66, R67, R80); a cell in ABSORB consumes it (R365). A cell of an absent cluster does
not exist: nothing is written or counted for it (R37). -/
def landWrite (c g n : Nat) (v : Granule) (env : MemEnv) (s : State) : State :=
  if absent c s then s
  else if (cell c s).phase = .absorb then bump F.RST_ABSORB_CNT s
  else
    let s1 := forEach env.checks (fun k => report k c) (forEach env.meets (collide c) (writeGranule c 0 g v s))
    arrive c n s1

/-- The 64 bytes that a root writes for two groups (R99): BF16, one rounding each. -/
def sumBf16 (a b : Sum24) : Granule :=
  let one := fun (g : Sum24) => g.m.map fun m => (toBf16 (sum24Val g.e m).toFp).toNat
  BitVec.ofNat 512 ((one a ++ one b).foldr (fun x acc => x + 65536 * acc) 0)

/-- A landing is misrouted (R348): absorbed, not written, its counter left untouched. -/
def misroute (c : Nat) (s : State) : State := report 0x0A c s

/-- Granules landed of a model's step in one direction (R336). -/
def crossed (m dir : Nat) (s : State) : Nat := Table.get (fun _ => 0) s.pair.crossed (m * 2 + dir)

/-- Store it. -/
def setCrossed (m dir n : Nat) (s : State) : State :=
  { s with pair := { s.pair with crossed := Table.set (fun _ => 0) s.pair.crossed (m * 2 + dir) n } }

/-- A flit leaves the mesh at its cell; one of a split crossing is counted (R336). -/
def landFlit (x : Flight) (s : State) : State :=
  match x.xin with
  | some (m, dir) => setCrossed m dir (crossed m dir s + 1) (liftFlit x s)
  | none => liftFlit x s

/-- FLIT_LANDING (R47, R53, R66, R336, R348, R365): a flit comes out of a router's L port into its cell, unless a link on its way has
discarded it. -/
def flitLanding (c : Nat) (f : Flit) (env : MemEnv) (s0 : State) : State :=
  let x := flightOf (fun x => sameFlit x.flit f) s0
  let s := vc1Meets env.conflicts (match x with
    | some x => landFlit x s0
    | none => s0)
  let addr := fieldOf f.tag 23 15
  let n := fieldOf f.tag 38 5
  if cellCount ≤ c ∨ x.any (·.stuck s0) then s0
  else if (cell c s).phase = .absorb then bump F.RST_ABSORB_CNT s
  else if fieldOf f.tag 46 2 = 2 then
    let e := redEntry c (fieldOf f.tag 7 8) s
    if bitAt e 8 && fieldOf e 5 3 == 0 then
      landWrite c (fieldOf e 15 15 + fieldOf f.tag 15 12) (fieldOf e 9 5) (sumBf16 (flitGroups f).1 (flitGroups f).2) env s
    else misroute c s
  else if bitAt f.tag 45 then
    let e := mcastEntry c (fieldOf f.tag 5 8) s
    if bitAt e 5 && bitAt e 0 then landWrite c addr n f.data env s else misroute c s
  else if fieldOf f.tag 5 18 = c then landWrite c addr n f.data env s
  else misroute c s

/-- FLIT_LANDING. -/
def execFlitLanding (c : Nat) (f : Flit) (env : MemEnv) (s : State) : Host.Outcome State Fault Refusal :=
  .next (flitLanding c f env s)

/-! ### Multicast and reduction -/

/-- A flit meets an invalid table entry (R54, R57). -/
def treeMiss (r : Nat) (s : State) : State := raise (F.FAB_ERR_STS.TREE_MISS (fieldOfCell r)) s

/-- Charge the energy of one hop to the activity whose work the flit is (R165). -/
def hopEnergy (act vc : Nat) (s : State) : State := chargeEnergy act (energyHop vc) 1 s

/-- A multicast flit that stands at a router. -/
def copyAt (r : Nat) (f : Flit) (s : State) : Option Flight := flightOf (fun x => x.at_ == r && sameFlit x.flit f) s

/-- Activity whose work a multicast flit at a router is. -/
def flightAct (r : Nat) (f : Flit) (s : State) : Nat := ((copyAt r f s).map (·.act)).getD 0

/-- Copy a multicast flit through one port (R54). A copy for a port that faces off the array is dropped: the spec names no outcome.
(DESIGN CHOICE, unsafe: log entry 70.) -/
def copyTo (r act : Nat) (f : Flit) (env : MemEnv) (port : Nat) (s : State) : State :=
  if port = 0 then landWrite r (fieldOf f.tag 23 15) (fieldOf f.tag 38 5) f.data env s
  else match neighbour r port with
    | none => s
    | some q => launchFlit q act (turned port f) [(r, port)] (passLink f r port (hopEnergy act 1 s))

/-- MULTICAST_COPY (R47, R53, R54): a router copies a flit to every port set in OUT. -/
def multicastCopy (r : Nat) (f : Flit) (env : MemEnv) (s0 : State) : State :=
  if cellCount ≤ r ∨ (copyAt r f s0).any (·.stuck s0) then s0
  else
    let s := vc1Meets env.conflicts (match copyAt r f s0 with
      | some x => liftFlit x s0
      | none => s0)
    let e := mcastEntry r (fieldOf f.tag 5 8) s
    if bitAt e 5 then forEach ((List.range 5).filter fun p => bitAt e p) (copyTo r (flightAct r f s0) f env) s
    else treeMiss r s

/-- MULTICAST_COPY. -/
def execMulticastCopy (r : Nat) (f : Flit) (env : MemEnv) (s : State) : Host.Outcome State Fault Refusal :=
  .next (multicastCopy r f env s)

/-- Drop the head of an input queue and return its credit to the sender (R56, R59). -/
def popSum (r tree port : Nat) (s : State) : State :=
  let k := (r * 256 + tree) * 8 + port
  let s1 := { s with mesh := { s.mesh with
    redQ := Table.set (fun _ => []) s.mesh.redQ k (Table.get (fun _ => []) s.mesh.redQ k).tail } }
  match neighbour r port with
  | none => s1
  | some q =>
    let u := q * 8 + opposite port
    { s1 with mesh := { s1.mesh with used2 := Table.set (fun _ => 0) s1.mesh.used2 u (Table.get (fun _ => 0) s1.mesh.used2 u - 1) } }

/-- Send a sum on through a port (R56). With a reserved OUT, or one that faces off the array, the sum is lost: the spec names no outcome.
(DESIGN CHOICE, unsafe: log entry 70.) -/
def sendSum (r tree port act : Nat) (f : Flit) (s : State) : State :=
  match neighbour r port with
  | none => s
  | some q =>
    let u := r * 8 + port
    let s1 := passLink f r port (queueSum q tree (opposite port) act f (hopEnergy act 2 s))
    { s1 with mesh := { s1.mesh with used2 := Table.set (fun _ => 0) s1.mesh.used2 u (Table.get (fun _ => 0) s1.mesh.used2 u + 1) } }

/-- IDX of a VC2 flit. -/
def sumIdx (f : Flit) : Nat := fieldOf f.tag 15 12

/-- A VC2 flit of two groups with the tag of `f`; it owes no alignment cycle after the router that formed it (R51, R57). -/
def sumFlit (f : Flit) (a b : Sum24) : Flit :=
  let keep : BitVec 48 := BitVec.ofNat 48 (2 ^ 27 - 16 + 2 ^ 44 * 15)
  { tag := (f.tag &&& keep) ||| BitVec.ofNat 48 (a.e * 2 ^ 27 + b.e * 2 ^ 35), data := groupData a b }

/-- A router's tree sends through this port and holds no credit for it (R59). -/
def noCredit (r port : Nat) (s : State) : Bool := decide (1 ≤ port) && decide (port ≤ 4) && decide (8 ≤ used2 r port s)

/-- The link direction that arrives at a router's input port. -/
def arrivesBy (r port : Nat) : List (Nat × Nat) :=
  match neighbour r port with
  | some q => [(q, opposite port)]
  | none => []

/-- Heads of a tree's inputs at a router that no link has discarded (R53, R56). -/
def sumHeads (r tree : Nat) (ins : List Nat) (s : State) : List Flit :=
  ins.filterMap fun p => (sumQueue r tree p s).head?.filter fun f => !heldBack (arrivesBy r p) f s

/-- REDUCTION_COMBINE (R53, R56 to R59, R99): one step of a tree at a router. -/
def reductionCombine (r tree : Nat) (env : MemEnv) (s : State) : State :=
  if cellCount ≤ r ∨ 256 ≤ tree then s
  else
    let e := redEntry r tree s
    if !bitAt e 8 then
      let held := (List.range 5).filter fun p => !(sumQueue r tree p s).isEmpty
      if held.isEmpty then s else treeMiss r (forEach held (fun p => popSum r tree p) s)
    else if s.mesh.redStop.contains (r * 256 + tree) then s
    else
      let ins := (List.range 5).filter fun p => bitAt e p
      let heads := sumHeads r tree ins s
      match heads with
      | [] => s
      | f :: fs =>
        if fs.any (fun g => sumIdx g != sumIdx f) then
          report 0x09 r (raise (F.FAB_ERR_STS.RED_SEQ (fieldOfCell r))
            { s with mesh := { s.mesh with redStop := (r * 256 + tree) :: s.mesh.redStop } })
        else if heads.length < ins.length ∨ noCredit r (fieldOf e 5 3) s then s
        else
          let a := Sum24.addAll (heads.map fun g => (flitGroups g).1)
          let b := Sum24.addAll (heads.map fun g => (flitGroups g).2)
          let s1 := forEach env.checks (fun k => report k r) (forEach ins (fun p => popSum r tree p) s)
          let s2 := when (a.2 || b.2) (precise r 1 1) s1
          if fieldOf e 5 3 = 0 then
            landWrite r (fieldOf e 15 15 + sumIdx f) (fieldOf e 9 5) (sumBf16 a.1 b.1) { env with checks := [] } s2
          else sendSum r tree (fieldOf e 5 3) (sumAct r tree ins s) (sumFlit f a.1 b.1) s2

/-- REDUCTION_COMBINE. -/
def execReductionCombine (r tree : Nat) (env : MemEnv) (s : State) : Host.Outcome State Fault Refusal :=
  .next (reductionCombine r tree env s)

/-! ### Link errors -/

/-- The sending end of the link that arrives at a router's input port. -/
def senderOf (r port : Nat) : Option (Nat × Nat) := (neighbour r port).map fun q => (q, opposite port)

/-- The receiver of a link direction discards what it receives, flits or VC0 words. -/
def LinkDir.discarding (l : LinkDir) (vc0 : Bool) : Bool := if vc0 then l.await0.isSome else l.await.isSome

/-- A flit or VC0 word has failed its CRC (R53): the receiver discards until its replay, and failures of the same one are counted. -/
def LinkDir.fail (l : LinkDir) (vc0 : Bool) (seq : Nat) : LinkDir :=
  if vc0 then
    { l with await0 := some seq, failing0 := some seq, fails0 := if l.failing0 = some seq then l.fails0 + 1 else 1 }
  else { l with await := some seq, failing := some seq, fails := if l.failing = some seq then l.fails + 1 else 1 }

/-- The NAK word of a failed flit or VC0 word (R59). -/
def nakOf (vc0 : Bool) (seq : Nat) : Word := BitVec.ofNat 32 (2 ^ 28 + seq % 16 * 2 ^ 24 + bitN vc0 * 2 ^ 23)

/-- The sender of a link direction still holds the flit or VC0 word of a number (R53). -/
def LinkDir.holds (l : LinkDir) (vc0 : Bool) (seq : Nat) : Bool :=
  if vc0 then l.replay0.any (·.1 == seq) else l.replay.any (·.1 == seq)

/-- LINK_CRC_ERROR (R52, R53): what a receiver took off a link fails its CRC; it discards until the replay of `seq` arrives, and sends a
NAK. What it discards sends none; a frame whose CRC agrees is no error, and what the sender holds no more has arrived in order. (DEDUCED,
unsafe: log entry 67.) -/
def linkCrcError (r port seq : Nat) (frame : LineFrame) (s : State) : State :=
  match senderOf r port with
  | none => s
  | some (q, p) =>
    let l := linkDir q p s
    if cellCount ≤ r ∨ frame.good ∨ l.discarding frame.isVc0 ∨ !l.holds frame.isVc0 (seq % 16) then s
    else passLink0 (nakOf frame.isVc0 seq) r port (setLinkDir q p (l.fail frame.isVc0 (seq % 16)) s)

/-- LINK_CRC_ERROR. -/
def execLinkCrcError (r port seq : Nat) (frame : LineFrame) (s : State) : Host.Outcome State Fault Refusal :=
  .next (linkCrcError r port seq frame s)

/-- The replay has come: the receiver discards no more (R53). -/
def LinkDir.resume (l : LinkDir) (vc0 : Bool) : LinkDir := if vc0 then { l with await0 := none } else { l with await := none }

/-- NAK (R53): the sender of a link resends from the named flit onward, and the receiver takes the replay; it is counted. A NAK word that
was itself discarded on its way does nothing. (DEDUCED, unsafe: log entry 67.) -/
def nakWord (r port : Nat) (vc0 : Bool) (seq : Nat) (s : State) : State :=
  let l := linkDir r port s
  if l.holds vc0 (seq % 16) && !lost0 [nakOf vc0 seq] (arrivesBy r port) s then
    raise (F.FAB_ERR_STS.LINK_REPLAY (fieldOfCell r)) (bump (F.LINK_REPLAY_CNT (fieldOfCell r)) (setLinkDir r port (l.resume vc0) s))
  else s

/-- NAK. -/
def execNak (r port : Nat) (vc0 : Bool) (seq : Nat) (s : State) : Host.Outcome State Fault Refusal :=
  .next (nakWord r port vc0 seq s)

/-- LINK_FAIL (R53): the same flit or word has failed four times; the receiving router reports the failed link. -/
def meshLinkFail (r port : Nat) (s : State) : State :=
  match senderOf r port with
  | none => s
  | some (q, p) =>
    let l := linkDir q p s
    if (4 ≤ l.fails ∨ 4 ≤ l.fails0) ∧ !l.failed then
      report 0x0B r (raise (F.FAB_ERR_STS.LINK_FAIL (fieldOfCell r)) (setLinkDir q p { l with failed := true } s))
    else s

/-- LINK_FAIL. -/
def execLinkFail (r port : Nat) (s : State) : Host.Outcome State Fault Refusal := .next (meshLinkFail r port s)

/-- REPLAY_BUFFER_RELEASE (R53): the oldest flit or word, for which no NAK has come, leaves the buffer. -/
def replayRelease (r port : Nat) (vc0 : Bool) (s : State) : State :=
  let l := linkDir r port s
  if vc0 then
    match l.replay0 with
    | [] => s
    | x :: xs => setLinkDir r port { l with
        replay0 := xs
        failing0 := if l.failing0 = some x.1 then none else l.failing0
        fails0 := if l.failing0 = some x.1 then 0 else l.fails0 } s
  else
    match l.replay with
    | [] => s
    | x :: xs => moveOn (setLinkDir r port { l with
        replay := xs
        failing := if l.failing = some x.1 then none else l.failing
        fails := if l.failing = some x.1 then 0 else l.fails } s)

/-- REPLAY_BUFFER_RELEASE. -/
def execReplayBufferRelease (r port : Nat) (vc0 : Bool) (s : State) : Host.Outcome State Fault Refusal :=
  .next (replayRelease r port vc0 s)

/-- VC0_DISCARD (R59): a word of a reserved type is discarded and counted. -/
def vc0Discard (r : Nat) (w : Word) (s : State) : State :=
  let t := fieldOf w 28 4
  if r < cellCount ∧ (t = 7 ∨ 12 ≤ t) then bump (F.VC0_DISCARD_CNT (fieldOfCell r)) s else s

/-- VC0_DISCARD. -/
def execVc0Discard (r : Nat) (w : Word) (s : State) : Host.Outcome State Fault Refusal := .next (vc0Discard r w s)

/-! ### Configuration packets at their target -/

/-- A word of cell configuration space that belongs to the cell, not to its router (R60, R84). -/
def ofCell (addr : Nat) : Bool := addr == 0x200 || addr == 0x201 || (decide (0x210 ≤ addr) && decide (addr < 0x230))

/-- The word lies in a cell that does not exist: an absent cluster keeps its routers only (R37). (DEDUCED, safe: log entry 71.) -/
def notThere (c addr : Nat) (s : State) : Bool := ofCell addr && absent c s

/-- A word of cell configuration space (R60, R84); none for an address outside the table, or in a cell that does not exist. -/
def cfgWord (c addr : Nat) (s : State) : Option Word :=
  if notThere c addr s then none
  else if addr < 0x100 then some (BitVec.ofNat 32 (mcastEntry c addr s).toNat)
  else if addr < 0x200 then some (redEntry c (addr - 0x100) s)
  else if addr = 0x200 then some (BitVec.ofNat 32 (bitN (cell c s).run + 2 * bitN (cell c s).illegal))
  else if addr = 0x201 then some (BitVec.ofNat 32 (cell c s).pc.toNat)
  else if 0x210 ≤ addr ∧ addr < 0x230 then some (BitVec.ofNat 32 (arrival c (addr - 0x210) s).toNat)
  else if addr = 0x300 then some (Table.get (fun _ => 0) s.mesh.rowMap (fieldOfCell c * 32 + rowOf c))
  else if addr = 0x301 then
    some (BitVec.ofNat 32 (if s.mesh.markedOut.contains (posOfCell c s) then 3 else 0))
  else none

/-- The words of a configuration packet (R60). -/
def cfgPacket (c addr : Nat) (data : Option Word) : List Word :=
  let hdr := BitVec.ofNat 32 (0x8 * 2 ^ 28 + bitN data.isSome * 2 ^ 27 + c % 2 ^ 18 * 2 ^ 9)
  let at_ := BitVec.ofNat 32 (0x9 * 2 ^ 28 + addr % 2 ^ 16)
  hdr :: at_ :: (match data with
    | some d => [BitVec.ofNat 32 (0xA * 2 ^ 28), d]
    | none => [])

/-- The words of a response (R60). -/
def rspWords (err : Bool) (data : Option Word) : List Word :=
  let hdr : Word := BitVec.ofNat 32 (0xB * 2 ^ 28 + bitN err * 2 ^ 27)
  match data with
  | some d => [hdr, d]
  | none => [hdr]

/-- The route of a response: that of its packet in reverse (R60). -/
def backRoute (c : Nat) : List (Nat × Nat) :=
  ((route agentCell c).map fun p => ((neighbour p.1 p.2).getD p.1, opposite p.2)).reverse

/-- The answer of a target goes back over the same route (R60). -/
def respond (c : Nat) (err : Bool) (data : Option Word) (s : State) : State :=
  let s1 := passRoute0 (rspWords err data) (backRoute c) s
  { s1 with agent := { s1.agent with response := some (err, data.getD 0) } }

/-- CFG_READ (R53, R60, R365): the target answers with the word, or with the error bit; a packet discarded on its way has not come. -/
def cfgRead (c addr : Nat) (s : State) : State :=
  if cellCount ≤ c ∨ lost0 (cfgPacket c addr none) (route agentCell c) s then s
  else if (cell c s).phase = .absorb then respond c true none s
  else match cfgWord c addr s with
    | some d => respond c false (some d) s
    | none => respond c true none s

/-- CFG_READ. -/
def execCfgRead (c addr : Nat) (s : State) : Host.Outcome State Fault Refusal := .next (cfgRead c addr s)

/-- A caldera variant in force lies on this cell (R135, R156). -/
def calderaInUse (c : Nat) (s : State) : Bool :=
  (List.range 16).any fun m =>
    let im := image m s
    im.inForce.any fun i => im.variants[i]?.any fun v =>
      v.field == fieldOfCell c && v.target == rowOf c && v.cluster == colOf c / 32

/-- A cell that may have RUN = 1 (R135). -/
def mayRun (c : Nat) (s : State) : Bool := !absent c s && (!inCaldera c s || calderaInUse c s)

/-- Granule that holds a cell's stage record (R135, R172). -/
def stageGranule (t36 : Bool) : Nat := if t36 then 3072 else 1

/-- Records that a cell copies into shadows when RUN changes from 0 to 1: its stage record and its tune record (R135, R255). -/
def recordGranules (t36 : Bool) : List Nat := [stageGranule t36, 2]

/-- RUN changes from 0 to 1 (R135, R255): the cell reads its records by the SEQ port into its shadows. -/
def setRun (c : Nat) (t36 : Bool) (env : MemEnv) (s : State) : State :=
  let t := seen c env s
  let s1 := loadReads c 4 (recordGranules t36) env s
  modCell c (fun x => { x with
    run := true, shadow1 := loadedGranule c (stageGranule t36) t, shadow2 := loadedGranule c 2 t }) s1

/-- A write of `SEQ_CTRL` (R84, R135); `env` tells of the reads of the records. -/
def writeSeqCtrl (c : Nat) (d : Word) (env : MemEnv) (s : State) : State :=
  let was := (cell c s).run
  let s1 := modCell c (fun x => { x with illegal := bitAt d 1, run := was && bitAt d 0 }) s
  if bitAt d 0 && !was && mayRun c s then setRun c (inT36 c s) env s1 else s1

/-- A write to a table entry waits for the next slot boundary (R61). -/
def writeTable (c : Nat) (red : Bool) (tree : Nat) (d : Word) (s : State) : State :=
  { s with mesh := { s.mesh with tabWrites := s.mesh.tabWrites ++ [⟨c, red, tree, d⟩] } }

/-- A word written into cell configuration space, and the target's answer (R60, R61, R84, R365). -/
def writeCfg (c addr : Nat) (d : Word) (env : MemEnv) (s : State) : State :=
  if cellCount ≤ c then s
  else if (cell c s).phase = .absorb ∨ notThere c addr s then respond c true none s
  else if addr < 0x100 then respond c false none (writeTable c false addr d s)
  else if addr < 0x200 then respond c false none (writeTable c true (addr - 0x100) d s)
  else if addr = 0x200 then
    respond c false none (writeSeqCtrl c d env s)
  else if addr = 0x201 then
    respond c false none (when (!(cell c s).run) (modCell c (fun x => { x with pc := BitVec.ofNat 18 d.toNat, fetch := [] })) s)
  else if 0x210 ≤ addr ∧ addr < 0x230 then
    if (cell c s).run then respond c true none s
    else respond c false none (setArrival c (addr - 0x210) (BitVec.ofNat 24 d.toNat) s)
  else if addr = 0x300 ∨ addr = 0x301 then respond c false none s
  else respond c true none s

/-- CFG_WRITE (R53, R60); a packet discarded on its way has not come. -/
def cfgWrite (c addr : Nat) (d : Word) (env : MemEnv) (s : State) : State :=
  if lost0 (cfgPacket c addr (some d)) (route agentCell c) s then s else writeCfg c addr d env s

/-- CFG_WRITE. -/
def execCfgWrite (c : Nat) (w : CfgWord) (env : MemEnv) (s : State) : Host.Outcome State Fault Refusal :=
  .next (cfgWrite c w.addr w.data env s)

/-! ### Caldera allowance -/

/-- An image is bound to a field (R149, R240): its slot is not FREE and its region holds the field. -/
def fieldBound (f : Nat) (s : State) : Bool := (modelOfField f s).any fun m => bitsOf (image m s).region f 1 == 1

/-- FAB_CALDERA_WRITE (R62). -/
def fabCalderaWrite (f : Nat) (v : Word) (s : State) : State :=
  if 72 ≤ f then s
  else if 4 < fieldOf v 0 3 ∨ fieldBound f s then raise (F.FAB_ERR_STS.CFG f) s
  else wr (F.FAB_CALDERA.ROWS f) (fieldOf v 0 3) s

/-- FAB_CALDERA_WRITE. -/
def execFabCalderaWrite (f : Nat) (v : Word) (s : State) : Host.Outcome State Fault Refusal := .next (fabCalderaWrite f v s)

/-! ### Hold words -/

/-- RING_FILL (R147): the collector restores one launch ring entry of a cell. -/
def ringFill (c : Nat) (w : Word) (s : State) : State :=
  if c < cellCount ∧ fieldOf w 28 4 = 2 ∧ modelOfCell c s = some (fieldOf w 24 4) then
    let k := fieldOf w 14 10
    modCell c (fun x => { x with
      ring := BitVec.ofNat 2048 (x.ring.toNat - fieldOf x.ring (2 * k) 2 * 4 ^ k + fieldOf w 12 2 * 4 ^ k) }) s
  else s

/-- RING_FILL. -/
def execRingFill (c : Nat) (w : Word) (s : State) : Host.Outcome State Fault Refusal := .next (ringFill c w s)

/-- SLOT_FILL (R147): the collector restores one part of a cell's own copy of `SLOT_NO`. -/
def slotFill (c : Nat) (w : Word) (s : State) : State :=
  if c < cellCount ∧ fieldOf w 28 4 = 3 then
    let n := cellSlot c s
    let v := if bitAt w 27 then n % 2 ^ 27 + fieldOf w 0 27 * 2 ^ 27 else n / 2 ^ 27 * 2 ^ 27 + fieldOf w 0 27
    modCell c (fun x => { x with slotOff := BitVec.ofNat 54 v - BitVec.ofNat 54 (slotNo s) }) s
  else s

/-- SLOT_FILL. -/
def execSlotFill (c : Nat) (w : Word) (s : State) : Host.Outcome State Fault Refusal := .next (slotFill c w s)

end Sys2Proof.Machine
end

