-- ==== Sys2Proof/Machine/Prec.lean ====
section
/-!
DEFINITION. Precision events, recipes and auto-widen (R120 to R133, R154).
-/
namespace Sys2Proof.Machine
open Sys2Proof

/-- A recipe entry (R124). -/
def recipeEntry (r l : Nat) (s : State) : Word := Table.get (fun _ => 0) s.prec.recipes (r * 256 + l)

/-- Store a recipe entry. -/
def setRecipeEntry (r l : Nat) (v : Word) (s : State) : State :=
  { s with prec := { s.prec with recipes := Table.set (fun _ => 0) s.prec.recipes (r * 256 + l) v } }

/-- `MODEL_RECIPE.ACTIVE` of a model slot. -/
def activeRecipe (m : Nat) (s : State) : Nat := rd (F.MODEL_RECIPE.ACTIVE m) s

/-- A model slot holds a resident model (R125): its state is not FREE. -/
def resident (m : Nat) (s : State) : Bool := rd (F.MODEL_SCHED.STATE m) s != 0

/-! ### Auto-widen -/

/-- Queue a widen change for a slot word with VSW_V free (R154). -/
def queueWiden (m l : Nat) (wide : Bool) (s : State) : State :=
  { s with prec := { s.prec with waiting := s.prec.waiting ++ [⟨m, l, wide⟩] } }

/-- A change is a return of this layer to narrow. -/
def WidenChange.returns (m l : Nat) (w : WidenChange) : Bool := w.model == m && w.layer == l && !w.wide

/-- First launch of the widen of a layer that runs wide (R154). -/
def wideFrom (m l : Nat) (s : State) : Nat :=
  ((s.prec.fixed.filter fun w => w.change.model == m && w.change.layer == l && w.change.wide).getLast?.map (·.launch)).getD 0

/-- Drop the return to narrow of a layer that runs wide: the widen goes on (R129). (DEDUCED, unsafe: log entry 23.) -/
def keepWide (m l : Nat) (s : State) : State :=
  if (layerPrec m l s).wide then
    { s with prec := { s.prec with
        waiting := s.prec.waiting.filter fun w => !(w.returns m l)
        carried := s.prec.carried.filter fun w => !(w.returns m l)
        fixed := s.prec.fixed.filter fun w => !(w.change.returns m l && decide (wideFrom m l s < w.launch)) } }
  else s

/-- A widen is refused (R128, R131). (DEDUCED, unsafe: log entry 23.) -/
def refuseWiden (m l : Nat) (s : State) : State :=
  let x := layerPrec m l s
  let s1 := setLayerPrec m l { x with flags := x.flags ||| 0x08 } s
  let n := satN 8 (rd F.PREC_FRAME.REFUSED s1 + 1)
  let s2 := wr F.PREC_FRAME.REFUSED n s1
  if max 1 (rd F.PREC_CTRL.STORM_MIN s2) ≤ n ∧ !s2.prec.stormed then
    raise F.PREC_STS.STORM { s2 with prec := { s2.prec with stormed := true } }
  else s2

/-- A widen is granted (R128, R129). -/
def grantWiden (m l : Nat) (s : State) : State :=
  let x := layerPrec m l s
  let s1 := setLayerPrec m l { x with flags := x.flags ||| 0x10, granted := true, remain := 64 } s
  queueWiden m l true (wr F.PREC_FRAME.WIDE_NOW (rd F.PREC_FRAME.WIDE_NOW s1 + 1) s1)

/-- A layer's WHEY_OVF flag is raised (R128, R129). -/
def requestWiden (m l : Nat) (s : State) : State :=
  let x := layerPrec m l s
  if x.granted then keepWide m l (setLayerPrec m l { x with remain := 64 } s)
  else if on F.PREC_CTRL.AUTO_WIDEN s && bitAt (recipeEntry (activeRecipe m s) l s) 11 then
    if rd F.PREC_FRAME.WIDE_NOW s < rd F.PREC_CTRL.WIDEN_MAX s then grantWiden m l s else refuseWiden m l s
  else s

/-- One event reaches its layer's flag and counter (R121). (DEDUCED, unsafe: log entry 23.) -/
def collectEvent (e : PrecEvent) (s : State) : State :=
  let x := layerPrec e.model e.layer s
  let y := match e.kind with
    | 0 => { x with flags := x.flags ||| 0x01, whey := x.whey + 1 }
    | 1 => { x with flags := x.flags ||| 0x02, sat := x.sat + 1 }
    | _ => { x with flags := x.flags ||| 0x04, nonfin := x.nonfin + 1 }
  let s1 := setLayerPrec e.model e.layer y s
  let s2 := raise (bitFld O.PREC_MODEL_STS e.model) (raise F.PREC_STS.FLAG s1)
  if e.kind = 0 then requestWiden e.model e.layer s2 else s2

/-- Insert an event in ascending order of model and then layer, after its equals (R122). -/
def insertEvent (e : PrecEvent) : List PrecEvent → List PrecEvent
  | [] => [e]
  | x :: xs =>
    if e.model * 256 + e.layer < x.model * 256 + x.layer then e :: x :: xs else x :: insertEvent e xs

/-- PRECISION_EVENT_COLLECT (R122): the events that wait are taken in ascending order of model and then layer. -/
def collectEvents (s : State) : State :=
  let q := s.prec.queue.foldl (fun l e => insertEvent e l) []
  forEach q collectEvent { s with prec := { s.prec with queue := [] } }

/-- PRECISION_EVENT_COLLECT. -/
def execPrecisionEventCollect (s : State) : Host.Outcome State Fault Refusal := .next (collectEvents s)

/-- WIDEN_END (R129): the count of a widened layer is at zero; a return to narrow is queued. -/
def widenEnd (m l : Nat) (s : State) : State :=
  let x := layerPrec m l s
  if x.granted && x.wide && x.remain == 0 && !(s.prec.waiting.any fun w => w.model == m && w.layer == l) &&
      !(s.prec.carried.any fun w => w.model == m && w.layer == l) &&
      !((s.prec.fixed.filter fun w => w.change.model == m && w.change.layer == l).getLast?.any fun w => !w.change.wide) then queueWiden m l false s
  else s

/-- WIDEN_END. -/
def execWidenEnd (m l : Nat) (s : State) : Host.Outcome State Fault Refusal := .next (widenEnd m l s)

/-- Put the oldest waiting change into a slot word (R154). -/
def carryWiden (s : State) : Nat × State :=
  match s.prec.waiting with
  | [] => (0, s)
  | w :: ws =>
    (2 ^ 33 + w.model * 2 ^ 34 + w.layer * 2 ^ 38 + bitN w.wide * 2 ^ 46,
      { s with prec := { s.prec with waiting := ws, carried := s.prec.carried ++ [w] } })

/-! ### Recipes -/

/-- Layers bound by a model's image: the layer of each bound cell's stage record (R120, R135). -/
def boundLayers (m : Nat) (s : State) : List Nat :=
  ((image m s).cells.map fun c => fieldOf (granule c (if (image m s).t36 then 3072 else 1) s) 24 8).eraseDups

/-- WFMT of the weights loaded for a layer; none for a layer without weight records. -/
def weightFormat (m l : Nat) (s : State) : Option Nat := ((image m s).formats.find? (·.1 == l)).map (·.2)

/-- A recipe entry suits a layer (R125): VALID, WFMT as loaded, no reserved code. -/
def entryOk (e : Word) (loaded : Option Nat) : Bool :=
  bitAt e 15 && decide (fieldOf e 0 3 < 6) && decide (fieldOf e 4 2 < 3) && loaded.all (· == fieldOf e 0 3)

/-- The check of R125 for a model and a recipe. -/
def recipeOk (m r : Nat) (s : State) : Bool :=
  (boundLayers m s).all fun l => entryOk (recipeEntry r l s) (weightFormat m l s)

/-- Launch number of the next launch slot of a model after schedule slot `n`. -/
def nextLaunch (m n : Nat) (s : State) : Nat :=
  let im := image m s
  if n < im.start then im.launch0 else im.launch0 + (n - im.start) / max 1 im.interval + 1

/-- Slots after which nothing that started under a recipe is in flight: beyond every LAG, iteration and tune block (R135, R256). -/
def flightSlots : Nat := 2 ^ 24

/-- Keep the recipe that goes out of force for what has started under it (R126). -/
def keepRecipe (m : Nat) (s : State) : State :=
  let r := activeRecipe m s
  let n := slotNo s
  let old := s.prec.outgoing.filter fun x => decide (n < x.slot + flightSlots) ||
    s.ledger.entries.any fun e => e.model == x.model && e.recipe == x.recipe
  { s with prec := { s.prec with outgoing := old ++
      [⟨m, r, if (image m s).running then nextLaunch m n s else (image m s).launch0, n, (List.range 256).map fun l => recipeEntry r l s⟩] } }

/-- Replays of a model's steps are pending (R358). -/
def replaysPending (m : Nat) (s : State) : Bool := s.ledger.entries.any fun e => e.model == m && e.replay

/-- One model's pending switch at a frame start (R125, R358); REFUSED, once set, stands until a read clears it, also when a later switch
passes. (DESIGN CHOICE, unsafe: log entry 89.) -/
def switchRecipe (m : Nat) (s : State) : State :=
  if !on (F.MODEL_RECIPE.PENDING m) s || replaysPending m s then s
  else
    let r := rd (F.MODEL_RECIPE.NEXT m) s
    let s1 := wr (F.MODEL_RECIPE.PENDING m) 0 s
    if recipeOk m r s then wr (F.MODEL_RECIPE.ACTIVE m) r (keepRecipe m s1)
    else raise F.PREC_STS.RECIPE_ERR (raise (F.MODEL_RECIPE.REFUSED m) s1)

/-- MODEL_RECIPE_WRITE (R125, R133): NEXT, and a request when PENDING is written 1; a request stands until the frame start. -/
def modelRecipeWrite (m : Nat) (v : Word) (s : State) : State :=
  if 16 ≤ m then s
  else when (bitAt v 8) (wr (F.MODEL_RECIPE.PENDING m) 1) (wr (F.MODEL_RECIPE.NEXT m) (fieldOf v 4 4) s)

/-- MODEL_RECIPE_WRITE. -/
def execModelRecipeWrite (m : Nat) (v : Word) (s : State) : Host.Outcome State Fault Refusal := .next (modelRecipeWrite m v s)

/-- A recipe is active for a resident model, or named by a pending switch (R127). -/
def recipeBusy (r : Nat) (s : State) : Bool :=
  (List.range 16).any fun m =>
    (resident m s && activeRecipe m s == r) || (on (F.MODEL_RECIPE.PENDING m) s && rd (F.MODEL_RECIPE.NEXT m) s == r)

/-- RECIPE_WIN_DATA_WRITE (R127). -/
def recipeWinDataWrite (v : Word) (s : State) : State :=
  let r := rd F.RECIPE_WIN_SEL.RECIPE s
  if recipeBusy r s then raise F.PREC_STS.RECIPE_ERR s
  else setRecipeEntry r (rd F.RECIPE_WIN_SEL.LAYER s) v s

/-- RECIPE_WIN_DATA_WRITE. -/
def execRecipeWinDataWrite (v : Word) (s : State) : Host.Outcome State Fault Refusal := .next (recipeWinDataWrite v s)

end Sys2Proof.Machine
end

