-- ==== Sys2Proof/Machine/Hold.lean ====
section
/-!
DEFINITION. Iterations and their due tables, and what requests a hold at cy 16 (R135 to R139, R143, R144, R153, R154, R176, R257,
R349).
-/
namespace Sys2Proof.Machine
open Sys2Proof

/-- MODEL of a cell's stage record shadow (R135). -/
def stageModel (x : Cell) : Nat := fieldOf x.shadow1 16 4

/-- LAYER. -/
def stageLayer (x : Cell) : Nat := fieldOf x.shadow1 24 8

/-- INTERVAL. -/
def stageInterval (x : Cell) : Nat := fieldOf x.shadow1 32 12

/-- LAG. -/
def stageLag (x : Cell) : Nat := fieldOf x.shadow1 64 32

/-- LAYER_LAG. -/
def stageLayerLag (x : Cell) : Nat := fieldOf x.shadow1 96 32

/-- WV: the stage has a wide variant. -/
def stageWv (x : Cell) : Bool := bitAt x.shadow1 191

/-- BOFF of a cell's tune record shadow (R255). -/
def tuneBoff (x : Cell) : Nat := fieldOf x.shadow2 128 10

/-- Launch (counted from START) that a cell serves in schedule slot `n`, and the slot of the iteration (R138). -/
def iterOf (x : Cell) (n : Nat) (s : State) : Option (Nat × Nat) :=
  let im := image (stageModel x) s
  let i := stageInterval x
  if im.running ∧ 0 < i ∧ im.start + stageLag x ≤ n then
    some ((n - im.start - stageLag x) / i, (n - im.start - stageLag x) % i)
  else none

/-- Launch entry `k` of a cell's ring (R139). -/
def ringEntry (x : Cell) (k : Nat) : Nat := fieldOf x.ring (2 * (k % 1024)) 2

/-- The layer runs its wide variant in the launch with this number (R154): the last change fixed at or before it. -/
def wideAt (m l launch : Nat) (s : State) : Bool :=
  match (s.prec.fixed.filter fun w => w.change.model == m && w.change.layer == l && decide (w.launch ≤ launch)).getLast? with
  | some w => w.change.wide
  | none => false

/-- What a cell runs in an iteration: 0 nothing, 1 narrow, 2 wide, 3 tune-forward, 4 backward (R139, R153, R257). -/
def roleOf (x : Cell) (k : Nat) (s : State) : Nat :=
  let m := stageModel x
  let launch := (image m s).launch0 + k
  match ringEntry x k with
  | 0 => 0
  | 3 =>
    match s.tune.blocks.find? fun b => b.model == m && decide (b.launch ≤ launch) && decide (launch < b.launch + b.tblk) with
    | none => 0
    | some b =>
      if launch = b.launch then 3
      else if tuneBoff x ≠ 0 ∧ launch = b.launch + tuneBoff x then 4
      else 0
  | _ => if wideAt m (stageLayer x) launch s && stageWv x then 2 else 1

/-- Word address at which a role's code begins (R135, R255). -/
def roleEntry (x : Cell) (role : Nat) : Nat :=
  match role with
  | 1 => fieldOf x.shadow1 128 18
  | 2 => fieldOf x.shadow1 160 18
  | 3 => fieldOf x.shadow2 0 18
  | _ => fieldOf x.shadow2 64 18

/-- First granule and number of entries of a role's due table. -/
def roleDue (x : Cell) (role : Nat) : Nat × Nat :=
  match role with
  | 1 => (fieldOf x.shadow1 192 15, fieldOf x.shadow1 207 11)
  | 2 => (fieldOf x.shadow1 224 15, fieldOf x.shadow1 239 11)
  | 3 => (fieldOf x.shadow2 32 15, fieldOf x.shadow2 47 11)
  | 4 => (fieldOf x.shadow2 96 15, fieldOf x.shadow2 111 11)
  | _ => (0, 0)

/-- Entry `k` of the due table at a granule, as the due engine reads it. -/
def dueEntry (c first k : Nat) (s : State) : Dword := BitVec.ofNat 64 (fieldOf (loadedGranule c (first + k / 8) s) (64 * (k % 8)) 64)

/-- Places in a role's due table of the entries that guard a slot of the iteration (R136). -/
def dueIndices (c role off : Nat) (s : State) : List Nat :=
  let t := roleDue (cell c s) role
  (List.range t.2).filter fun k => fieldOf (dueEntry c t.1 k s) 0 16 == off

/-- Due table entries that guard a slot of the iteration (R136). -/
def dueEntries (c role off : Nat) (s : State) : List Dword :=
  (dueIndices c role off s).map fun k => dueEntry c (roleDue (cell c s) role).1 k s

/-- The due engine reads what the coming slot's test needs, by the SEQ port (R136): each granule that holds an entry of the slot once.
(DESIGN CHOICE, unsafe: log entry 83.) -/
def dueReads (n c : Nat) (env : MemEnv) (s : State) : State :=
  let x := cell c s
  match iterOf x (n + 1) s with
  | none => s
  | some (k, off) =>
    let role := roleOf x k s
    let gs := ((dueIndices c role off (seen c env s)).map fun k => (roleDue x role).1 + k / 8).eraseDups
    if gs.isEmpty then s else loadReads c 4 gs env s

/-- A DUE entry finds its counter below THRESH (R143). -/
def dueFailing (c : Nat) (e : Dword) (s : State) : Bool :=
  fieldOf e 16 3 == 0 && decide ((arrival c (fieldOf e 19 5) s).toNat < fieldOf e 24 24)

/-- What a cell's tests of R143 give in a slot. -/
structure HoldReq where
  /-- Cell. -/
  cell : Nat
  /-- DUE. -/
  due : Bool
  /-- PACE. -/
  pace : Bool
  /-- STRETCH. -/
  stretch : Bool
  /-- Iteration slot that the DUE or STRETCH test guarded. -/
  offset : Nat
  /-- Iteration slot that the PACE test guarded. -/
  paceOff : Nat
  deriving DecidableEq, Repr

/-- The SYNC that closes schedule slot `n` − 1 is not complete (R143): in an iteration's first slot, the last one of the iteration
before it. -/
def paceLate (n : Nat) (x : Cell) : Bool :=
  if n = x.iterStart then x.lateSync else x.inIter && decide (x.iterStart + x.syncs + 1 ≤ n)

/-- OFFSET of a PACE capture (R176): the iteration slot of the SYNC that closes schedule slot `n` − 1. (DESIGN CHOICE, unsafe: log
entry 91.) -/
def paceSlot (n : Nat) (x : Cell) : Nat := if n = x.iterStart then stageInterval x - 1 else n - 1 - x.iterStart

/-- The tests of one cell at cy 16 of a slot with schedule number `n`, after its test counts have moved on (R143). In a cell of LAG 0 the
launch entry of an iteration that begins with the guarded slot has not arrived at cy 16: its tests use what the ring of R142 holds then.
(DESIGN CHOICE, unsafe: log entry 90.) -/
def holdTestCell (n c : Nat) (s : State) : HoldReq :=
  let x := cell c s
  let pace := paceLate n x
  match iterOf x (n + 1) s with
  | none => ⟨c, false, pace, false, 0, paceSlot n x⟩
  | some (k, off) =>
    let es := dueEntries c (roleOf x k s) off s
    let due := es.any fun e => dueFailing c e s
    let stretch := es.any fun e => fieldOf e 16 3 == 1 && decide (x.stretchTests ≤ fieldOf e 24 8)
    ⟨c, due, pace, stretch, off, paceSlot n x⟩

/-- FW or GATE is present: DUE failures are not counted towards STALL (R349). -/
def stallPaused (s : State) : Bool := !s.sched.fw.isEmpty || !s.sched.gated.isEmpty

/-- Move a cell's test counts on (R143, R349). -/
def countTests (n : Nat) (due paused : Bool) (x : Cell) : Cell :=
  { x with
    dueSlot := n + 1
    dueFails :=
      if !due then 0
      else if paused then x.dueFails
      else if x.dueSlot = n + 1 then min 32768 (x.dueFails + 1)
      else 1 }

/-- Count a further STRETCH test of the coming slot (R143). -/
def countStretch (n : Nat) (x : Cell) : Cell :=
  { x with stretchSlot := n + 1, stretchTests := if x.stretchSlot = n + 1 then x.stretchTests + 1 else 1 }

/-- Cells with RUN = 1. -/
def runningCells (s : State) : List Nat := (s.cells.filter fun p => p.2.run).map (·.1)

/-- CAUSE of a request in `FLD_HOLD_LAST` (R176): where several tests of the cell succeed, DUE goes before PACE and PACE before STRETCH.
(DESIGN CHOICE, unsafe: log entry 79.) -/
def HoldReq.cause (r : HoldReq) : Nat := if r.due then 0 else if r.pace then 1 else 2

/-- OFFSET of a request in `FLD_HOLD_LAST` (R176): the slot that the captured test guarded. -/
def HoldReq.slot (r : HoldReq) : Nat := if r.cause = 1 then r.paceOff else r.offset

/-- A cell of a field requests a hold: counted once a slot, and captured when armed (R176). -/
def captureHold (r : HoldReq) (s : State) : State :=
  let f := fieldOfCell r.cell
  let s1 := bump (F.FLD_HOLD_CNT f) s
  if on (F.FLD_HOLD_LAST.V f) s1 then s1
  else
    s1 |> wr (F.FLD_HOLD_LAST.COL f) (colOf r.cell) |> wr (F.FLD_HOLD_LAST.ROW f) (rowOf r.cell)
      |> wr (F.FLD_HOLD_LAST.CAUSE f) r.cause |> wr (F.FLD_HOLD_LAST.OFFSET f) r.slot |> wr (F.FLD_HOLD_LAST.V f) 1

/-- The request of lowest cell number in each field. -/
def firstPerField : List Nat → List HoldReq → List HoldReq
  | _, [] => []
  | seen, r :: rs =>
    if seen.contains (fieldOfCell r.cell) then firstPerField seen rs
    else r :: firstPerField (fieldOfCell r.cell :: seen) rs

/-- HOLD_TEST (R143, R349): every running cell tests, at cy 16 of the slot in progress. (DEDUCED, unsafe: log entry 24.) -/
def holdTest (s : State) : State :=
  let envs := s.sched.dueEnvs
  let cs := runningCells s
  let s0 := forEach cs (fun c => modCell c (countStretch (cellSlot c s))) s
  let s1 := forEach cs (fun c => dueReads (cellSlot c s) c (envs.of c)) s0
  let rs := cs.map fun c => holdTestCell (cellSlot c s) c (seen c (envs.of c) s1)
  let p := stallPaused s1
  let s2 := forEach rs (fun r => modCell r.cell (countTests (cellSlot r.cell s) r.due p)) s1
  let asked := rs.filter fun r => r.due || r.pace || r.stretch
  let s3 := forEach (firstPerField [] asked) captureHold s2
  { s3 with sched := { s3.sched with
      reqDue := asked.any (·.due), reqPace := asked.any (·.pace), reqStretch := asked.any (·.stretch), dueEnvs := [] } }

/-- HOLD_TEST. -/
def execHoldTest (s : State) : Host.Outcome State Fault Refusal := .next (holdTest s)

/-- STALL (R349): the DUE test of one iteration slot has failed at 32,768 consecutive tests. -/
def stallReport (c : Nat) (s : State) : State :=
  if (cell c s).dueFails = 32768 then report 0x0D c (modCell c (fun x => { x with dueFails := 0 }) s) else s

/-- STALL. -/
def execStall (c : Nat) (s : State) : Host.Outcome State Fault Refusal := .next (stallReport c s)

/-- LONG_HOLD (R173): set once in an unbroken run of held boundaries, at its 65,536th. -/
def longHold (s : State) : State :=
  if s.sched.heldRun = 65536 ∧ !s.sched.longHeld then
    raise F.SCHED_STS.LONG_HOLD { s with sched := { s.sched with longHeld := true } }
  else s

/-- LONG_HOLD. -/
def execLongHold (s : State) : Host.Outcome State Fault Refusal := .next (longHold s)

/-- HOST_HOLD (R144, R173): the host writes `SCHED_CTRL.HOST_HOLD`. -/
def execHostHold (b : Bool) (s : State) : Host.Outcome State Fault Refusal := .next (wrB F.SCHED_CTRL.HOST_HOLD b s)

/-- The count of R490 runs while `nHOLD_EXT` is asserted and EXT_EN is 1; it starts afresh otherwise. -/
def extEn (b : Bool) (s : State) : State :=
  let s1 := wrB F.SCHED_CTRL.EXT_EN b s
  if b then s1 else { s1 with mgmt := { s1.mgmt with holdBeats := 0 } }

/-- EXT_EN (R173, R490): the host writes `SCHED_CTRL.EXT_EN`. -/
def execExtEn (b : Bool) (s : State) : Host.Outcome State Fault Refusal := .next (extEn b s)

end Sys2Proof.Machine
end

