-- ==== Sys2Proof/Machine/KvBase.lean ====
section
/-!
DEFINITION. Pools, pages and sequence slots (R188 to R193, R203, R204, R220, R236, R452 to R454): addresses, taking and freeing
pages, sequence release, the pool registers' own commands.
-/
namespace Sys2Proof.Machine
open Sys2Proof

/-! ### Stack memory -/

/-- Stacks in service, in HS order (R203). -/
def stacksInService (s : State) : List Nat := (List.range 12).filter fun n => on (F.HS_STATE.SVC n) s

/-- Bytes of one stack (R203). -/
def stackBytes : Nat := 96 * 2 ^ 30

/-- Capacity in service (R203). -/
def stackCapacity (s : State) : Nat := (stacksInService s).length * stackBytes

/-- Stack that holds a stack address (R203). -/
def stackOf (a : Nat) (s : State) : Nat :=
  let l := stacksInService s
  l.getD (a / 4096 % max 1 l.length) 0

/-- Count granules from an address on, as read or written in their stacks (R211). -/
def countSpan (wrt : Bool) (a n : Nat) (s : State) : State :=
  let lo := a % 4096 / 64
  forEach (List.range (cdiv (lo + n) 64)) (fun i t =>
    let k := stackOf ((a / 4096 + i) * 4096) t
    let inChunk := min (64 * (i + 1)) (lo + n) - max (64 * i) lo
    bumpBy (if wrt then F.HS_WR_GR_CNT k else F.HS_RD_GR_CNT k) inChunk t) s

/-- The lead stack controller: the one in service with the lowest number (R193). -/
def leadController (s : State) : Nat := (stacksInService s).headD 0

/-! ### Pools -/

/-- The pool of a model is enabled. -/
def poolOn (m : Nat) (s : State) : Bool := on (F.POOL_CTRL.ENABLE m) s

/-- G. -/
def poolG (m : Nat) (s : State) : Nat := rd (F.POOL_GEOM.G m) s

/-- KVH. -/
def poolKvh (m : Nat) (s : State) : Nat := rd (F.POOL_GEOM.KVH m) s + 1

/-- D. -/
def poolD (m : Nat) (s : State) : Nat := (rd (F.POOL_GEOM.D m) s + 1) * 64

/-- L. -/
def poolL (m : Nat) (s : State) : Nat := rd (F.POOL_GEOM.L m) s + 1

/-- PAGE_UNITS. -/
def poolUnits (m : Nat) (s : State) : Nat := rd (F.POOL_GEOM.PAGE_UNITS m) s

/-- S of R190: granules of a side record before its indices. -/
def sideHead (m : Nat) (s : State) : Nat := cdiv (4 + 8 * poolKvh m s) 64

/-- SIDE_GR (R188). -/
def sideGr (m : Nat) (s : State) : Nat := sideHead m s + 2 * poolKvh m s * poolD m s / 16

/-- Element area of page `n`, layer `l` (R188). -/
def pageElem (m n l : Nat) (s : State) : Nat :=
  rd (F.POOL_BASE.VALUE m) s * 65536 + (n * poolL m s + l) * poolUnits m s * 65536

/-- Side record of page `n`, layer `l` (R188). -/
def pageSide (m n l : Nat) (s : State) : Nat := rd (F.SIDE_BASE.VALUE m) s * 65536 + (n * poolL m s + l) * sideGr m s * 64

/-- Bytes of a page set's element areas. -/
def elemBytes (m : Nat) (s : State) : Nat := poolL m s * poolUnits m s * 65536

/-- Bytes of a page set's side records. -/
def sideBytes (m : Nat) (s : State) : Nat := poolL m s * sideGr m s * 64

/-- NPAGES. -/
def poolPages (m : Nat) (s : State) : Nat := rd (F.POOL_PAGES.NPAGES m) s

/-- Regions of a pool: first byte and length (R204). -/
def poolRegions (m : Nat) (s : State) : List (Nat × Nat) :=
  [(pageElem m 0 0 s, poolPages m s * elemBytes m s), (pageSide m 0 0 s, poolPages m s * sideBytes m s),
    (rd (F.POOL_FREELIST.VALUE m) s * 65536, poolPages m s * 4),
    (rd (F.SPILL_BASE.VALUE m) s * 65536, rd (F.SPILL_SIZE.VALUE m) s * 65536)]

/-- Two regions share a byte. -/
def overlap (a b : Nat × Nat) : Bool := decide (a.1 < b.1 + b.2) && decide (b.1 < a.1 + a.2) && a.2 != 0 && b.2 != 0

/-- No two regions of a list overlap. -/
def disjoint : List (Nat × Nat) → Bool
  | [] => true
  | r :: rs => rs.all (fun q => !overlap r q) && disjoint rs

/-- The check that ENABLE makes (R204); a T36 image has no stack memory (R27: log entry 76). -/
def poolOk (m : Nat) (s : State) : Bool :=
  let regs := poolRegions m s
  let area := rd (F.STACK_AREA.VALUE m) s * 65536
  let size := rd (F.STACK_SIZE.VALUE m) s * 65536
  let others := ((List.range 16).filter fun k => k != m && poolOn k s).flatMap fun k => poolRegions k s
  resident m s && !(image m s).t36 && decide (1 ≤ poolUnits m s) && decide (1 ≤ poolG m s) &&
  decide (2 * poolKvh m s * 256 * poolG m s * 64 ≤ poolUnits m s * 65536) && decide (cdiv (poolD m s * 4) 512 ≤ poolG m s) &&
  disjoint regs && regs.all (fun r => others.all fun q => !overlap r q) &&
  regs.all fun r => r.2 == 0 || (decide (r.1 + r.2 ≤ stackCapacity s) && decide (area ≤ r.1) && decide (r.1 + r.2 ≤ area + size))

/-- The allocator's account of a pool's free list. -/
def freeListOf (m : Nat) (s : State) : List Nat := Table.get (fun _ => []) s.kv.freeList m

/-- Keep it. -/
def setFreeList (m : Nat) (l : List Nat) (s : State) : State :=
  { s with kv := { s.kv with freeList := Table.set (fun _ => []) s.kv.freeList m l } }

/-- Stack byte address of entry `i` of a pool's free list (R193). -/
def freeAddr (m i : Nat) (s : State) : Nat := rd (F.POOL_FREELIST.VALUE m) s * 65536 + 4 * i

/-- The free list in stack memory (R193): the pages in its first POOL_FREE entries are free. -/
def freePage (m i : Nat) (s : State) : Nat := stackNat (freeAddr m i s) 4 s % 2 ^ 28

/-- Write an entry of the free list. -/
def putFree (m i p : Nat) (s : State) : State := stackPut (freeAddr m i s) 4 (p % 2 ^ 28) s

/-- Pages of a pool return to its free list, the last of them to be taken first. (DESIGN CHOICE, unsafe: log entry 84.) -/
def freePages (m : Nat) (ps : List Nat) (s : State) : State :=
  forEach ps (fun p t =>
    let n := rd (F.POOL_FREE.VALUE m) t
    setFreeList m (freeListOf m t ++ [p]) (putFree m n p (wr (F.POOL_FREE.VALUE m) (n + 1) t))) s

/-- POOL_ENABLE (R204). -/
def poolEnable (m : Nat) (s : State) : State :=
  if 16 ≤ m then s
  else if poolOn m s || !poolOk m s then raise F.KV_STS.CFG s
  else
    freePages m (List.range (poolPages m s)) (setFreeList m [] (wr (F.POOL_FREE.VALUE m) 0 (wr (F.POOL_CTRL.ENABLE m) 1 s)))

/-- POOL_ENABLE. -/
def execPoolEnable (m : Nat) (s : State) : Host.Outcome State Fault Refusal := .next (poolEnable m s)

/-- A sequence or a prefix handle of the model holds a page (R204). -/
def pagesInUse (m : Nat) (s : State) : Bool :=
  (s.kv.seqs.any fun p => p.2.used && p.2.model == m && !p.2.pages.isEmpty) ||
  (s.svc.pfx.any fun h => h.model == m && !h.pages.isEmpty) || s.kv.clearing.any fun c => c.model == m

/-- Disable a pool. -/
def disablePool (m : Nat) (s : State) : State :=
  setFreeList m [] (wr (F.POOL_FREE.VALUE m) 0 (wr (F.POOL_RESV.VALUE m) 0 (wr (F.POOL_CTRL.ENABLE m) 0 s)))

/-- POOL_DISABLE (R204). -/
def poolDisable (m : Nat) (s : State) : State :=
  if 16 ≤ m ∨ !poolOn m s then s
  else if pagesInUse m s then raise F.KV_STS.CFG s
  else disablePool m s

/-- POOL_DISABLE. -/
def execPoolDisable (m : Nat) (s : State) : Host.Outcome State Fault Refusal := .next (poolDisable m s)

/-- POS_LIMIT_WRITE (R204, R210). -/
def posLimitWrite (m : Nat) (v : Word) (s : State) : State :=
  let n := fieldOf v 0 25
  if 16 ≤ m then s
  else if poolOn m s ∨ n = 0 ∨ 16777216 < n then raise F.KV_STS.CFG s
  else wr (F.POS_LIMIT.VALUE m) n s

/-- POS_LIMIT_WRITE. -/
def execPosLimitWrite (m : Nat) (v : Word) (s : State) : Host.Outcome State Fault Refusal := .next (posLimitWrite m v s)

/-! ### Pages -/

/-- Stack byte address of a sequence's page list entry for a span (R192, R197). -/
def listAddr (q span : Nat) (s : State) : Nat := (seqSlot q s).list * 64 + span * 4

/-- The page list entry of a span, as the word in stack memory says (R192, R197). -/
def pageAt (q span : Nat) (s : State) : Option PageEntry :=
  let w := stackNat (listAddr q span s) 4 s
  if bitsOf w 28 1 = 1 then some ⟨span, bitsOf w 0 28, bitsOf w 29 1 == 1⟩ else none

/-- The word of a valid page list entry (R192). -/
def listWord (e : PageEntry) : Nat := e.page % 2 ^ 28 + 2 ^ 28 + 2 ^ 29 * bitN e.shared

/-- Put an entry into an account of pages. -/
def putPage (e : PageEntry) (l : List PageEntry) : List PageEntry := l.filter (·.span != e.span) ++ [e]

/-- Put a page into a sequence's list (R192, R193): the word in stack memory, and the account of the pages it holds. -/
def setPage (q : Nat) (e : PageEntry) (s : State) : State :=
  stackPut (listAddr q e.span s) 4 (listWord e) (modSeqSlot q (fun x => { x with pages := putPage e x.pages }) s)

/-- Put pages into a sequence's list. -/
def setPages (q : Nat) (ps : List PageEntry) (s : State) : State := forEach ps (setPage q) s

/-- The list entries of a sequence's pages become invalid. -/
def clearList (q : Nat) (ps : List PageEntry) (s : State) : State := forEach ps (fun e t => stackPut (listAddr q e.span t) 4 0 t) s

/-- Take a page from a sequence's reservation (R193); none where the reservation or the free list is empty. -/
def takePage (q : Nat) (s : State) : Option (Nat × State) :=
  let x := seqSlot q s
  let m := x.model
  let n := rd (F.POOL_FREE.VALUE m) s
  if n = 0 ∨ x.resv = 0 then none
  else
    some (freePage m (n - 1) s, setSeqSlot q { x with resv := x.resv - 1 }
      (wr (F.POOL_RESV.VALUE m) (rd (F.POOL_RESV.VALUE m) s - 1)
        (wr (F.POOL_FREE.VALUE m) (n - 1) (setFreeList m (freeListOf m s).dropLast s))))

/-- Copy `n` bytes of stack memory. -/
def stackCopy (src dst n : Nat) (s : State) : State :=
  let put := fun (t : Table Byte) (p : Nat × Byte) =>
    if src ≤ p.1 ∧ p.1 < src + n then Table.set byte0 t (dst + (p.1 - src)) p.2 else t
  { s with stackMem := s.stackMem.foldl put (Table.clear s.stackMem dst n) }

/-- Zero `n` bytes of stack memory. -/
def stackZero (a n : Nat) (s : State) : State := { s with stackMem := Table.clear s.stackMem a n }

/-- Count every granule of a page set, as read or written (R211). -/
def countPage (wrt : Bool) (m n : Nat) (s : State) : State :=
  countSpan wrt (pageSide m n 0 s) (sideBytes m s / 64) (countSpan wrt (pageElem m n 0 s) (elemBytes m s / 64) s)

/-- Copy a page set (R193): every layer's element area and side record. -/
def copyPage (m src dst : Nat) (s : State) : State :=
  countPage true m dst (countPage false m src
    (stackCopy (pageSide m src 0 s) (pageSide m dst 0 s) (sideBytes m s)
      (stackCopy (pageElem m src 0 s) (pageElem m dst 0 s) (elemBytes m s) s)))

/-- Zeroise a page set (R452). -/
def zeroPage (m n : Nat) (s : State) : State :=
  countPage true m n (stackZero (pageSide m n 0 s) (sideBytes m s) (stackZero (pageElem m n 0 s) (elemBytes m s) s))

/-- Hand pages to zeroisation (R193, R227, R452). -/
def clearPages (m handle : Nat) (ps : List PageEntry) (s : State) : State :=
  { s with kv := { s.kv with clearing := s.kv.clearing ++ ps.map (fun e => PageClear.mk m e.page handle) } }

/-! ### Sequence slots -/

/-- A free sequence slot: the lowest (R220 asks for one of 4,096). -/
def freeSeq (s : State) : Option Nat := (List.range 4096).find? fun q => !(seqSlot q s).used

/-- Return an unused reservation (R236). -/
def returnResv (m n : Nat) (s : State) : State := wr (F.POOL_RESV.VALUE m) (rd (F.POOL_RESV.VALUE m) s - n) s

/-- Base of a cell's release table (R454). -/
def releaseBase (c : Nat) (s : State) : Nat := fieldOf (granule c 3 s) 0 15

/-- The OPEN byte, and the format and scales where they are known, of a page's side record in one layer (R190, R191). -/
def putSideHead (m p l : Nat) (f : Option PageFmt) (s : State) : State :=
  let a := pageSide m p l s
  match f with
  | none => stackPut (a + 1) 1 1 s
  | some x => forEach x.scales (fun k t => stackPut (a + 4 + 4 * k.1) 4 k.2.toNat t) (stackPut a 2 (x.fmt % 256 + 256) s)

/-- Positions of these spans have been committed: the pages are OPEN in every layer, with the format and scales fixed for them. -/
def openPages (q : Nat) (spans : List Nat) (s : State) : State :=
  let m := (seqSlot q s).model
  forEach spans (fun sp t => match pageAt q sp t with
    | none => t
    | some e => forEach (List.range (poolL m t)) (fun l u =>
        putSideHead m e.page l (u.kv.formats.find? fun f => f.seq == q && f.span == sp && f.layer == l && f.by_.isNone) u) t) s

/-- Format and scales of a page that is OPEN, from its side record (R190). -/
def sideFormat (m q span p l : Nat) (s : State) : Option PageFmt :=
  let a := pageSide m p l s
  if stackNat (a + 1) 1 s = 1 then
    some ⟨q, span, l, stackNat a 1 s, (List.range (2 * poolKvh m s)).map fun k => (k, BitVec.ofNat 32 (stackNat (a + 4 + 4 * k) 4 s)), none⟩
  else none

/-- Release a sequence slot (R193, R236, R356, R453, R454): its own pages go to zeroisation unless they are `kept` by a prefix, its
reservation returns, its cells keep nothing of it, and release flits go to the cells that hold state of it. -/
def releaseSeq (q : Nat) (kept : Bool) (s : State) : State :=
  let x := seqSlot q s
  if !x.used ∨ x.freeing.isSome then s
  else
    let own := if kept then [] else x.pages.filter (!·.shared)
    let s1 := clearPages x.model 0 own (returnResv x.model x.resv s)
    let cs := (image x.model s).cells.filter fun c => releaseBase c s != 0
    let s2 := { s1 with kv := { s1.kv with releases := s1.kv.releases ++ cs.map (fun c => (c, q)) } }
    setSeqSlot q { x with pages := [], len := 0, resv := 0, freeing := some 2 } (forgetKv q (clearList q x.pages s2))

/-- A frame start: slots whose release flits went out two frame starts ago are free (R454). -/
def ageReleases (s : State) : State :=
  forEach ((s.kv.seqs.filter fun p => p.2.freeing.isSome).map (·.1)) (fun q t =>
    let x := seqSlot q t
    match x.freeing with
    | some (n + 2) => setSeqSlot q { x with freeing := some (n + 1) } t
    | some _ => setSeqSlot q .reset t
    | none => t) s

/-- Entry of a sequence slot in a cell's release table (R454), as a read under `env` sees it. -/
def releaseEntry (c q : Nat) (env : MemEnv) (s : State) : Nat :=
  fieldOf (readGranule c (releaseBase c (seen c env s) + q / 16) (seen c env s)) (32 * (q % 16)) 32

/-- RELEASE_FLIT (R452, R454): a cell's clear engine reads the base and the slot's entry and zeroises the run, through the SCRUB port. -/
def releaseFlit (c q : Nat) (env : MemEnv) (s : State) : State :=
  if s.kv.releases.contains (c, q) then
    let e := releaseEntry c q env s
    let s1 := { s with kv := { s.kv with releases := s.kv.releases.erase (c, q) } }
    let s2 := reads c 5 [3, releaseBase c (seen c env s) + q / 16] env s1
    forEach (granulesFrom (bitsOf e 0 15) (bitsOf e 15 15)) (fun g => writeGranule c 5 g 0) s2
  else s

/-- RELEASE_FLIT. -/
def execReleaseFlit (c : Nat) (x : ReleaseAsk) (s : State) : Host.Outcome State Fault Refusal := .next (releaseFlit c x.seq x.env s)

/-- Pages of a pool that sequences hold, those under zeroisation included (R368, R452). -/
def heldBySeqs (m : Nat) (s : State) : Nat :=
  ((s.kv.seqs.filter fun p => p.2.model == m).map fun p => (p.2.pages.filter (!·.shared)).length).foldl (· + ·) 0 +
  (s.kv.clearing.filter (·.model == m)).length

/-- Pages of a pool that prefixes hold (R368). -/
def heldByPfx (m : Nat) (s : State) : Nat := ((s.svc.pfx.filter (·.model == m)).map (·.pages.length)).foldl (· + ·) 0

end Sys2Proof.Machine
end

