-- ==== Sys2Proof/Machine/Rings.lean ====
section
/-!
DEFINITION. Output rings and their entries, delivery, and the ledger's entries coming free (R212, R215, R235, R284, R296, R353,
R354).
-/
namespace Sys2Proof.Machine
open Sys2Proof

/-! ### Entries (R215) -/

/-- The 64 bytes of an output entry. -/
def outBits (type flags code model reqId step data : Nat) (s : State) : BitVec 512 :=
  BitVec.ofNat 512 (type + flags % 256 * 2 ^ 8 + code % 256 * 2 ^ 16 + model % 16 * 2 ^ 24 + reqId % 2 ^ 64 * 2 ^ 32 +
    step % 2 ^ 32 * 2 ^ 96 + beatNo s % 2 ^ 48 * 2 ^ 128 + data * 2 ^ 192)

/-- An entry that carries no tokens. -/
def plainEntry (type code model reqId data : Nat) (s : State) : OutEntry :=
  { data := outBits type 0 code model reqId 0 data s, tokens := 0, req := 0, step := 0, entry := 0, noAck := true }

/-! ### Rings -/

/-- An output ring is enabled. -/
def outOn (r : Nat) (s : State) : Bool := on (F.OUT_RING_CFG.ENABLE r) s

/-- An output ring is enabled and its header has been read (R212). -/
def outLive (r : Nat) (s : State) : Bool := outOn r s && !s.svc.unread.contains (8 + r)

/-- Entries of an output ring. -/
def outSize (r : Nat) (s : State) : Nat := 2 ^ rd (F.OUT_RING_CFG.SIZE_LOG r) s

/-- Entries written and not yet consumed. -/
def outUsed (r : Nat) (s : State) : Nat := ringUsed (outRing r s).prod (outRing r s).cons

/-- Entries that may still be reserved or written (R215, R290). -/
def outRoom (r : Nat) (s : State) : Nat :=
  if outLive r s && !(outRing r s).full then outSize r s - outUsed r s - (outRing r s).reserved else 0

/-- Write one entry, then PROD after it, then the interrupt (R296, R301). -/
def writeEntry (r : Nat) (e : OutEntry) (s : State) : State :=
  let base := addr64 (O.OUT_RING_BASE r) (O.OUT_RING_BASE_HI r) s
  let o := outRing r s
  let prod := (o.prod + 1) % 2 ^ 32
  let mark : AckMark := ⟨r, prod⟩
  let und := if e.tokens = 0 then o.undelivered else o.undelivered ++ [⟨prod, e.tokens, e.req, e.step, e.entry⟩]
  let s1 := setOutRing r { o with prod := prod, undelivered := und } s
  let s2 := sendWr (entryAddr base (rd (F.OUT_RING_CFG.SIZE_LOG r) s) o.prod 64) 1 (natToBytes 64 e.data.toNat) [] s1
  let s3 := sendWrPart base (natToBytes 4 prod) (if e.tokens = 0 then [] else [mark]) s2
  when (on (bitFld O.INTR_EN r) s3) (interrupt (rd F.INTR_CFG.OUT_VEC s3 + r)) s3

/-- Write waiting entries while there is room and OCL carries traffic (R215, R284). `n` bounds the entries. -/
def drainRing : Nat → Nat → State → State
  | 0, _, s => s
  | n + 1, r, s =>
    let o := outRing r s
    match o.waiting with
    | [] => s
    | e :: es =>
      if oclUp s && o.held.isEmpty && decide (0 < outRoom r s) then
        drainRing n r (writeEntry r e (setOutRing r { o with waiting := es } s))
      else s

/-- Write what an output ring has waiting. (DEDUCED, unsafe: log entry 34.) -/
def drain (r : Nat) (s : State) : State := drainRing (outRing r s).waiting.length r s

/-- Hand over an entry that takes no reservation (R215). (DEDUCED, unsafe: log entry 34.) -/
def putEntry (r : Nat) (e : OutEntry) (s : State) : State :=
  drain r (setOutRing r { outRing r s with waiting := (outRing r s).waiting ++ [e] } s)

/-- A DONE entry. -/
def putDone (r model reqId status : Nat) (s : State) : State := putEntry r (plainEntry 3 status model reqId 0 s) s

/-- A CMD_DONE entry with DATA from byte 24 on. -/
def putCmdDone (r model reqId status data : Nat) (s : State) : State := putEntry r (plainEntry 4 status model reqId data s) s

/-- An ERROR entry (R214). -/
def putError (r model reqId code : Nat) (s : State) : State :=
  putEntry r (plainEntry 5 code model reqId 0 s) (raise F.SVC_STS.ERROR s)

/-- A DECISION entry (R215, R223). -/
def putDecision (r model reqId code reason : Nat) (s : State) : State :=
  putEntry r (plainEntry 2 (code + 4 * reason) model reqId 0 s) s

/-- Reserve one entry (R215). -/
def reserveEntry (r : Nat) (s : State) : State :=
  setOutRing r { outRing r s with reserved := (outRing r s).reserved + 1 } s

/-- Give a reservation back. -/
def unreserve (r : Nat) (s : State) : State :=
  setOutRing r { outRing r s with reserved := (outRing r s).reserved - 1 } s

/-! ### The ledger's entries -/

/-- A ledger entry. -/
def ledgerEntry (i : Nat) (s : State) : Option LedgerEntry := s.ledger.entries.find? (·.index == i)

/-- Change a ledger entry. -/
def modLedger (i : Nat) (f : LedgerEntry → LedgerEntry) (s : State) : State :=
  { s with ledger := { s.ledger with entries := s.ledger.entries.map fun e => if e.index == i then f e else e } }

/-- `LEDGER_USE` follows the entries. -/
def showLedger (s : State) : State := wr F.LEDGER_USE.VALUE s.ledger.entries.length s

/-- An entry returns to FREE (R354), zeroised (R453). -/
def freeLedger (i : Nat) (s : State) : State :=
  if s.ledger.entries.any (·.index == i) then
    showLedger { s with ledger := { s.ledger with
      entries := s.ledger.entries.filter (·.index != i), returned := s.ledger.returned + 1 } }
  else s

/-- An entry is abandoned without replay (R240, R368). -/
def abandonLedger (i : Nat) (s : State) : State :=
  if s.ledger.entries.any (·.index == i) then
    showLedger { s with ledger := { s.ledger with
      entries := s.ledger.entries.filter (·.index != i), abandoned := s.ledger.abandoned + 1 } }
  else s

/-- Output entries of a committed step that are still to be written or delivered. -/
def outstandingOut (i : Nat) (s : State) : Bool :=
  (List.range 8).any fun r =>
    ((outRing r s).undelivered.any fun u => u.entry == i) || (outRing r s).held.any fun e => e.entry == i

/-- A committed entry whose output is all written returns to FREE (R354). -/
def settleLedger (i : Nat) (s : State) : State :=
  match ledgerEntry i s with
  | some e => if e.state = .committed ∧ !outstandingOut i s then freeLedger i s else s
  | none => s

/-! ### TOKENS entries -/

/-- A held TOKENS entry goes out into its reservation (R215, R319). -/
def releaseHeld (r : Nat) (e : OutEntry) (s : State) : State :=
  writeEntry r e (setOutRing r { outRing r s with held := (outRing r s).held.erase e, reserved := (outRing r s).reserved - 1 } s)

/-- May a held entry go out: OCL carries traffic and no mirror ACK is awaited for its step (R284, R319)?
(DEDUCED, unsafe: log entry 34.) -/
def mayRelease (e : OutEntry) (s : State) : Bool :=
  oclUp s && (e.noAck || !(match ledgerEntry e.entry s with
    | some l => l.awaitsAck
    | none => false))

/-- Send held entries of a ring in order up to the first that must wait. -/
def flushHeldList (r : Nat) : List OutEntry → State → State
  | [], s => s
  | e :: es, s => if mayRelease e s && !(outRing r s).full && !s.svc.unread.contains (8 + r) then flushHeldList r es (releaseHeld r e s) else s

/-- The module has a partner in PAIR mode (R372). -/
def hasPartner (s : State) : Bool :=
  rd F.PAIR_CFG.MODE s == 1 && (rd F.PAIR_STATE.STATE s == 2 || rd F.PAIR_STATE.STATE s == 3 || rd F.PAIR_STATE.STATE s == 4)

/-- Send what a ring holds back; after a fatal event the partner delivers it (R372). -/
def flushHeld (r : Nat) (s : State) : State :=
  if s.faults.stopped && hasPartner s then s else drain r (flushHeldList r (outRing r s).held s)

/-- Send what every ring holds back. -/
def flushRings (s : State) : State := forEach (List.range 8) flushHeld s

/-- Fill a reservation with a TOKENS entry (R215, R354). -/
def putTokens (r : Nat) (e : OutEntry) (s : State) : State :=
  flushHeld r (setOutRing r { outRing r s with held := (outRing r s).held ++ [e] } s)

/-! ### Delivery (R235, R296) -/

/-- `a` is at or before `b`, modulo 2³². -/
def atOrBefore (a b : Nat) : Bool := decide (ringUsed b a < 2 ^ 31)

/-- Count one delivered TOKENS entry. -/
def deliverOne (u : Undelivered) (s : State) : State :=
  let s1 := bumpBy F.TOK_DELIV_CNT u.tokens s
  let s2 := { s1 with svc := { s1.svc with
    reqs := s1.svc.reqs.map fun q => if q.id == u.req then { q with delivered := q.delivered + u.tokens, thru := max q.thru (u.step + 1) } else q } }
  settleLedger u.entry s2

/-- The flit that carries a PROD has been acknowledged: the entries it covers are delivered. -/
def deliver (m : AckMark) (s : State) : State :=
  let o := outRing m.ring s
  let done := o.undelivered.filter fun u => atOrBefore u.prod m.prod
  let s1 := setOutRing m.ring { o with undelivered := o.undelivered.filter fun u => !atOrBefore u.prod m.prod } s
  forEach done deliverOne s1

/-- OUTPUT_ROOM_WRITE (R215, R294): the W3 has read the CONS of an output ring; what waited is written where room now exists. -/
def outputRoomWrite (r cons : Nat) (s : State) : State :=
  if 8 ≤ r ∨ !outLive r s then s
  else flushHeld r (setOutRing r { outRing r s with cons := cons % 2 ^ 32, full := false } s)

/-- OUTPUT_ROOM_WRITE. -/
def execOutputRoomWrite (r cons : Nat) (s : State) : Host.Outcome State Fault Refusal := .next (outputRoomWrite r cons s)

end Sys2Proof.Machine
end

