-- ==== Sys2Proof/Machine/Requests.lean ====
section
/-!
DEFINITION. Requests and prefix handles (R216, R225 to R227, R233, R236): how they end, and what their ends free.
-/
namespace Sys2Proof.Machine
open Sys2Proof

/-- A request not yet ended. -/
def request (id : Nat) (s : State) : Option Request := s.svc.reqs.find? (·.id == id)

/-- Change a request. -/
def modRequest (id : Nat) (f : Request → Request) (s : State) : State :=
  { s with svc := { s.svc with reqs := s.svc.reqs.map fun q => if q.id == id then f q else q } }

/-- A request is admitted: it holds a sequence slot. -/
def Request.admitted (q : Request) : Bool := decide (q.state = .prefill) || decide (q.state = .decode)

/-! ### Prefix handles -/

/-- A prefix-table entry. -/
def pfxEntry (h : Nat) (s : State) : Option PfxEntry := s.svc.pfx.find? (·.handle == h)

/-- Change a prefix-table entry. -/
def modPfx (h : Nat) (f : PfxEntry → PfxEntry) (s : State) : State :=
  { s with svc := { s.svc with pfx := s.svc.pfx.map fun e => if e.handle == h then f e else e } }

/-- A handle leaves the table (R225). -/
def dropPfx (h : Nat) (s : State) : State := { s with svc := { s.svc with pfx := s.svc.pfx.filter (·.handle != h) } }

/-- Answer every PREFIX_RELEASE that waited for a handle, which leaves the table. -/
def finishPfx (h : Nat) (s : State) : State :=
  match pfxEntry h s with
  | none => s
  | some e => forEach e.releasers (fun r => putCmdDone r.2.1 r.1 r.2.2 0 0) (dropPfx h s)

/-- A released handle that nobody uses: its pages go to zeroisation, its sinter copies are zeroised; with none to zeroise it is finished (R227). -/
def retirePfx (h : Nat) (s : State) : State :=
  match pfxEntry h s with
  | none => s
  | some e =>
    if e.released && e.users == 0 && !(s.kv.clearing.any (·.handle == h)) then
      if e.pages.isEmpty then finishPfx h s
      else modPfx h (fun x => { x with pages := [], sinter := [] }) (clearPages e.model h e.pages s)
    else s

/-- Withdraw a handle (R206, R227, R239). -/
def withdrawPfx (h : Nat) (s : State) : State := retirePfx h (modPfx h (fun e => { e with released := true }) s)

/-- A user of a handle ends (R226, R236). -/
def unusePfx (h : Nat) (s : State) : State := retirePfx h (modPfx h (fun e => { e with users := e.users - 1 }) s)

/-- PAGE_ZEROISE_DONE (R193, R227, R452): a page has been zeroised and reaches the free list. -/
def pageZeroiseDone (m p : Nat) (s : State) : State :=
  match s.kv.clearing.find? fun c => c.model == m && c.page == p with
  | none => s
  | some c =>
    let s1 := zeroPage m p { s with kv := { s.kv with clearing := s.kv.clearing.erase c } }
    let s2 := when (poolOn m s1) (freePages m [p]) s1
    if c.handle ≠ 0 ∧ !(s2.kv.clearing.any (·.handle == c.handle)) then finishPfx c.handle s2 else s2

/-- PAGE_ZEROISE_DONE. -/
def execPageZeroiseDone (m p : Nat) (s : State) : Host.Outcome State Fault Refusal := .next (pageZeroiseDone m p s)

/-! ### The end of a request -/

/-- The entry a request ends with: DONE, or CMD_DONE for a PREFIX_CREATE (R223, R225). -/
def endEntry (q : Request) (status : Nat) (s : State) : State :=
  if q.isPrefix then putCmdDone q.ring q.model q.reqId status 0 s else putDone q.ring q.model q.reqId status s

/-- End a request (R216, R232, R233, R236): its entry, its sequence, its handle, the CANCELs that waited for it. -/
def endRequest (id status : Nat) (s : State) : State :=
  match request id s with
  | none => s
  | some q =>
    let s1 := { s with svc := { s.svc with reqs := s.svc.reqs.filter (·.id != id) } }
    let s2 := endEntry q status s1
    let s3 := when (status == 7) (fun t => raise F.FLT_STS.REPLAY_FAIL (bump F.FAULT_END_CNT t)) s2
    let s4 := when q.admitted (releaseSeq q.seq (q.isPrefix && status == 0)) s3
    let s5 := when q.usesHandle (unusePfx q.handle) s4
    let s6 := when (q.isPrefix && status != 0 && (pfxEntry q.handle s5).any (·.pending)) (dropPfx q.handle) s5
    forEach q.cancels (fun c => putCmdDone c.2.1 c.1 c.2.2 0 0) s6

/-- End a request now, or, while a step of it is in flight, once that step has committed (R233, R239). -/
def endWhenQuiet (id status : Nat) (s : State) : State :=
  match request id s with
  | none => s
  | some q =>
    if q.inStep then modRequest id (fun x => { x with ending := some (x.ending.getD status) }) s
    else endRequest id status s

/-- A PREFIX_CREATE whose handle never entered the table ends at once (R225). -/
def refuseHandle (ring model reqId : Nat) (isPrefix : Bool) (s : State) : State :=
  if isPrefix then putCmdDone ring model reqId 0x0B 0 s else putDone ring model reqId 0x0B s

/-- Requests that use a page, directly or through a prefix (R206). -/
def requestsWithPage (m p : Nat) (s : State) : List Nat :=
  (s.svc.reqs.filter fun q => q.admitted && q.model == m && (seqSlot q.seq s).pages.any fun e => e.page == p).map (·.id)

/-- Requests that name a handle, admitted or not. -/
def requestsNaming (hs : List Nat) (s : State) : List Nat := (s.svc.reqs.filter fun q => q.usesHandle && hs.contains q.handle).map (·.id)

/-- A committed page is lost (R206): requests and prefixes that hold it end, and every request that uses such a prefix. -/
def loseKvPage (m p : Nat) (s : State) : State :=
  let hs := (s.svc.pfx.filter fun e => e.model == m && e.pages.any fun x => x.page == p).map (·.handle)
  let ids := (requestsWithPage m p s ++ requestsNaming hs s).eraseDups
  forEach hs withdrawPfx (forEach ids (fun id => endWhenQuiet id 0x06) (raise F.KV_STS.KV_LOSS s))

end Sys2Proof.Machine
end

