-- ==== Sys2Proof/Machine/Fatal.lean ====
section
/-!
DEFINITION. Fatal events (R371, R372, R325) and the commands that are nothing but one.
-/
namespace Sys2Proof.Machine
open Sys2Proof

/-- Nothing waits for a mirror any more: held TOKENS entries may go out. -/
def dropAckWaits (s : State) : State :=
  { s with ledger := { s.ledger with entries := s.ledger.entries.map fun e => { e with awaitsAck := false } } }

/-- The ends of every request at a fatal event (R372). -/
def endAll (status : Nat) (s : State) : State :=
  forEach (s.svc.reqs.map (·.id)) (fun id => endRequest id status) s

/-- Cells of the domain of a job. -/
def ResetJob.cells (j : ResetJob) : List Nat := j.single ++ j.fields.flatMap fieldCells

/-- A fatal event ends the reset, restart or relocation in progress (R372). -/
def endJob (s : State) : State :=
  let s1 := forEach ((s.faults.job.map ResetJob.cells).getD []) (fun c => modCell c (fun x => { x with phase := .none })) s
  wr F.RST_STATE.PHASE 0 (wr F.RST_STATE.BUSY 0
    { s1 with faults := { s1.faults with job := none }, power := { s1.power with relocating := none } })

/-- A fatal event (R372): code and detail of R371, the power source where the cause is POWER, and what follows the durability of
its journal record. A module already stopped stays as it is. -/
def fatalWith (code detail src : Nat) (after : Durable) (s : State) : State :=
  if s.faults.stopped then s
  else
    let s0 := endJob s
    let s1 := holdFw 1 { s0 with faults := { s0.faults with stopped := true } }
    let s2 := sendEveryPort 0x01 code s1
    let s3 := wr F.FATAL_CAUSE.CODE code (wr F.FATAL_CAUSE.DETAIL detail s2)
    let s4 := when (src != 0) (wr F.PWR_STATE.FATAL_SRC src) s3
    let s5 := pldm 0x22 (code + 256 * detail) (raise F.FLT_STS.FATAL s4)
    let s6 := journal 0x0E [code + 256 * detail, src] after s5
    if hasPartner s then s6 else endAll 0x07 (flushRings (dropAckWaits s6))

/-- A fatal event. -/
def fatal (code detail : Nat) (s : State) : State := fatalWith code detail 0 .none s

/-- FORCE_FATAL (R371): the host writes `FLT_CTRL.FORCE_FATAL`. -/
def execForceFatal (s : State) : Host.Outcome State Fault Refusal := .next (fatal 0x0B 0 s)

/-- BRYNODOR_WATCHDOG (R371): the watchdog or a firmware self-check fails. -/
def execBrynodorWatchdog (s : State) : Host.Outcome State Fault Refusal := .next (fatal 0x0A 0 s)

/-- STACK_LOST (R203, R371): a stack in service fails. -/
def stackLost (n : Nat) (s : State) : State :=
  if n < 12 ∧ on (F.HS_STATE.SVC n) s then fatal 0x02 0 (wr (F.HS_STATE.STATE n) 2 s) else s

/-- STACK_LOST. -/
def execStackLost (n : Nat) (s : State) : Host.Outcome State Fault Refusal := .next (stackLost n s)

/-- OCL_DOWN_TIMEOUT (R284, R305, R371): OCL is DOWN, or its session closed, for 1,024 frames. -/
def oclDownTimeout (s : State) : State :=
  if (linkSt 0 s ≠ 4 ∨ s.ocl.closed) ∧ 1024 ≤ s.link.downFrames then fatal 0x04 0 s else s

/-- OCL_DOWN_TIMEOUT. -/
def execOclDownTimeout (s : State) : Host.Outcome State Fault Refusal := .next (oclDownTimeout s)

/-- AUDIT (R370): the upstream router of a link compares a buffer's account, VALUE and its own credits, with the depth: VALUE must equal
the credits it has in use. (DEDUCED, unsafe: log entry 20.) -/
def audit (r port : Nat) (w : Word) (s : State) : State :=
  let v := fieldOf w 23 4
  if cellCount ≤ r ∨ fieldOf w 28 4 ≠ 6 then s
  else if v = (if bitAt w 27 then used3 r port s else used2 r port s) then s
  else fatal 0x01 0x01 s

/-- AUDIT. -/
def execAudit (r port : Nat) (w : Word) (s : State) : Host.Outcome State Fault Refusal := .next (audit r port w s)

end Sys2Proof.Machine
end

