-- ==== Sys2Proof/Machine/Kv.lean ====
section
/-!
DEFINITION. Stack requests, the page walk, stack errors and the patrol (R191 to R208, R211).
-/
namespace Sys2Proof.Machine
open Sys2Proof

/-! ### Requests (R196) -/

/-- A stack request as its flit lays it out (R196). -/
structure StackReq where
  /-- OP. -/
  op : Nat
  /-- K selected. -/
  k : Bool
  /-- V selected. -/
  v : Bool
  /-- SIDE selected. -/
  side : Bool
  /-- Sequence slot. -/
  seq : Nat
  /-- Layer. -/
  layer : Nat
  /-- First KV head. -/
  head : Nat
  /-- Heads. -/
  hcnt : Nat
  /-- Activity charged. -/
  act : Nat
  /-- First position. -/
  pos : Nat
  /-- Positions. -/
  npos : Nat
  /-- Requesting cell. -/
  reply : Nat
  /-- Counter. -/
  cnt : Nat
  /-- First granule at the requester. -/
  raddr : Nat
  /-- Stack byte address of a LIN operation. -/
  addr : Nat
  /-- Granules of a LIN operation. -/
  len : Nat
  deriving DecidableEq, Repr

/-- Decode a request. -/
def stackReq (g : Granule) : StackReq :=
  { op := fieldOf g 0 8, k := bitAt g 8, v := bitAt g 9, side := bitAt g 10, seq := fieldOf g 16 12, layer := fieldOf g 32 8,
    head := fieldOf g 40 8, hcnt := fieldOf g 48 8, act := fieldOf g 56 3, pos := fieldOf g 64 24, npos := fieldOf g 88 8 + 1,
    reply := fieldOf g 96 18, cnt := fieldOf g 114 5, raddr := fieldOf g 128 15, addr := fieldOf g 192 41,
    len := fieldOf g 240 8 + 1 }

/-- The OP is reserved, or a reserved bit is set (R196). -/
def reservedSet (g : Granule) : Bool :=
  fieldOf g 0 8 == 0 || decide (4 < fieldOf g 0 8) || fieldOf g 11 5 != 0 || fieldOf g 28 4 != 0 || fieldOf g 59 5 != 0 ||
    fieldOf g 119 9 != 0 || fieldOf g 143 49 != 0 || fieldOf g 233 7 != 0 || fieldOf g 248 264 != 0

/-- KV_ERR (R199): RANGE, and a report that names the cell of REPLY. -/
def kvRange (r : StackReq) (s : State) : State := report 0x0F r.reply (raise F.KV_STS.RANGE s)

/-- PAGE_MISS (R199). -/
def kvMiss (r : StackReq) (s : State) : State := report 0x0F r.reply (raise F.KV_STS.PAGE_MISS s)

/-- Charge stack bytes of a request (R201). -/
def chargeStack (r : StackReq) (n : Nat) (s : State) : State :=
  charge r.act 1 n (chargeEnergy r.act energyStack n s)

/-! ### Stack errors (R206) -/

/-- Page set of an enabled pool that holds a stack address: model, page, layer (R188, R206). -/
def pageAtAddr (a : Nat) (s : State) : Option (Nat × Nat × Nat) :=
  let hit := fun m =>
    let e := pageElem m 0 0 s
    let d := pageSide m 0 0 s
    let eb := poolUnits m s * 65536
    let sb := sideGr m s * 64
    if poolOn m s && decide (e ≤ a) && decide (a < e + poolPages m s * elemBytes m s) then
      some (m, (a - e) / elemBytes m s, (a - e) / eb % poolL m s)
    else if poolOn m s && decide (d ≤ a) && decide (a < d + poolPages m s * sideBytes m s) then
      some (m, (a - d) / sideBytes m s, (a - d) / sb % poolL m s)
    else none
  ((List.range 16).filterMap hit).head?

/-- The page holds committed positions of some sequence or prefix (R206). -/
def pageCommitted (m p : Nat) (s : State) : Bool :=
  (s.kv.seqs.any fun q => q.2.used && q.2.model == m && q.2.pages.any fun e => e.page == p && decide (e.span * 256 < q.2.len)) ||
  s.svc.pfx.any fun h => h.model == m && h.pages.any fun e => e.page == p

/-- A page is a prefix page: a handle holds it, or a sequence has it as SHARED. -/
def prefixPage (m p : Nat) (s : State) : Bool :=
  (s.svc.pfx.any fun h => h.model == m && h.pages.any fun e => e.page == p) ||
  s.kv.seqs.any fun q => q.2.used && q.2.model == m && q.2.pages.any fun e => e.page == p && e.shared

/-- Capture the first KV loss of a stack after re-arming (R211); `seq` is the slot that the request names, none for the patrol. -/
def captureLoss (n m p : Nat) (seq : Option Nat) (s : State) : State :=
  if on (F.HS_UE_SEQ.V n) s then s
  else
    s |> wr (F.HS_UE_PAGE.PAGE n) p |> wr (F.HS_UE_PAGE.MODEL n) m |> wr (F.HS_UE_SEQ.SEQ n) (seq.getD 0)
      |> wrB (F.HS_UE_SEQ.SHARED n) (prefixPage m p s) |> wrB (F.HS_UE_SEQ.PATROL n) seq.isNone |> wr (F.HS_UE_SEQ.V n) 1

/-- A committed page that could not be restored is lost (R206): it is captured, and what holds it ends. -/
def losePage (n m p : Nat) (seq : Option Nat) (s : State) : State := loseKvPage m p (captureLoss n m p seq s)

/-- The partner holds a copy that may restore a page (R323): PAIR mode with a partner and a port ACTIVE. -/
def canRestore (s : State) : Bool := hasPartner s && !(activePorts s).isEmpty

/-- A sequence slot and span whose page this is, by which the partner finds its own copy. -/
def ownerOf (m p : Nat) (s : State) : Option (Nat × Nat) :=
  (s.kv.seqs.filterMap fun q =>
    if q.2.used && q.2.model == m then (q.2.pages.find? (·.page == p)).map fun e => (q.1, e.span) else none).head?

/-- ARG of PAGE_REQ: model, sequence slot, page span, layer (R312), as the model packs it. -/
def pageArg (m q span l : Nat) : Nat := m + 16 * q + 2 ^ 16 * span + 2 ^ 32 * l

/-- The page request with an ARG. -/
def pageReqOf (arg : Nat) (s : State) : Option PageReq :=
  s.pair.pageReqs.find? fun r => pageArg r.model r.seq r.span r.layer == arg % 2 ^ 40

/-- The page that a page request is for, where the sequence slot still has one there. -/
def PageReq.page (r : PageReq) (s : State) : Option Nat := (pageAt r.seq r.span s).map (·.page)

/-- A page of a model is being restored from the partner (R323). -/
def restoringPage (m p : Nat) (s : State) : Bool := s.pair.pageReqs.any fun r => r.model == m && r.page s == some p

/-- Ask the partner for a page (R323); the request keeps the stack and the finder, for the capture of a loss (R206). -/
def askPage (r : PageReq) (s : State) : State :=
  if s.pair.pageReqs.any fun x => x.model == r.model && x.seq == r.seq && x.span == r.span && x.layer == r.layer then s
  else sendSpan 0x16 r.model (pageArg r.model r.seq r.span r.layer) []
    { s with pair := { s.pair with pageReqs := s.pair.pageReqs ++ [r] } }

/-- A granule of a committed page is uncorrectable: restored from the partner, or lost (R206, R323). -/
def badPage (n m p l : Nat) (seq : Option Nat) (s : State) : State :=
  if !pageCommitted m p s then s
  else match canRestore s, ownerOf m p s with
    | true, some (q, span) => askPage ⟨m, q, span, l, n, seq, 0⟩ s
    | _, _ => losePage n m p seq s

/-- Address in its stack of a stack address (R203). -/
def inStack (a : Nat) (s : State) : Nat := a / 4096 / max 1 (stacksInService s).length * 4096 + a % 4096

/-- A stack address lies in a committed page of KV (R206, R351). -/
def inCommittedKv (a : Nat) (s : State) : Bool := (pageAtAddr a s).any fun x => pageCommitted x.1 x.2.1 s

/-- The row that holds an address of a stack (R418). -/
def rowAt (n a : Nat) : RowRepair := ⟨n, (Config.stackRow a).1, (Config.stackRow a).2.1, (Config.stackRow a).2.2⟩

/-- An uncorrectable granule (R206): counted, captured, reported, its row soft-repaired and journaled; a committed KV page is
restored or lost. `c` is the cell the report names, `seq` the slot that the request names. -/
def stackUe (c : Nat) (seq : Option Nat) (a : Nat) (s : State) : State :=
  let n := stackOf a s
  let s1 := raise (F.HS_STS.UE n) (bump (F.HS_UE_CNT n) s)
  let s2 := if on (F.HS_UE_LAST.V n) s1 then s1
    else wr (F.HS_UE_LAST.V n) 1 (wr (F.HS_UE_LAST_HI.VALUE n) (a / 2 ^ 37) (wr (F.HS_UE_LAST.VALUE n) (a / 64) s1))
  let r := rowAt n (inStack a s)
  let s3 := journal 0x0A [r.stack, r.channel, r.bank, r.row] .none { s2 with kv := { s2.kv with repairs := r :: s2.kv.repairs } }
  let s4 := sendReport ⟨0x10, c, a + 1, seq, inCommittedKv a s3⟩ s3
  match pageAtAddr a s4 with
  | some (m, p, l) => badPage n m p l seq s4
  | none => s4

/-- Failed transfers of a granule. -/
def StackEnv.failures (env : StackEnv) (a : Nat) : Nat := (env.retries.filter (· == a)).length

/-- A granule is uncorrectable: it is so, or its transfer failed a fifth time (R206). -/
def StackEnv.lost (env : StackEnv) (a : Nat) : Bool := env.ue.contains a || decide (5 ≤ env.failures a)

/-- The retries of one granule's transfer. -/
def retryStack (env : StackEnv) (a : Nat) (s : State) : State :=
  let n := min 4 (env.failures a)
  when (n != 0) (fun t => raise (F.HS_STS.PARITY (stackOf a t)) (bumpBy (F.HS_RETRY_CNT (stackOf a t)) n t)) s

/-- One corrected read. -/
def correctStack (a : Nat) (s : State) : State := raise (F.HS_STS.CE (stackOf a s)) (bump (F.HS_CE_CNT (stackOf a s)) s)

/-- The uncorrectable granules among those of a transfer. -/
def StackEnv.lostIn (env : StackEnv) (p : Nat → Bool) : List Nat :=
  (env.ue ++ env.retries).eraseDups.filter fun a => p a && env.lost a

/-- What a transfer of the granules that `p` names met (R206): retries, corrected reads, uncorrectable granules, each counted at its
stack. -/
def stackMetOf (c : Nat) (seq : Option Nat) (p : Nat → Bool) (env : StackEnv) (s : State) : State :=
  let s1 := forEach (env.retries.filter p).eraseDups (retryStack env) s
  let s2 := forEach (env.ce.filter p) correctStack s1
  forEach (env.lostIn p) (stackUe c seq) s2

/-- What a transfer of these granules met. -/
def stackMet (c : Nat) (seq : Option Nat) (as_ : List Nat) (env : StackEnv) (s : State) : State := stackMetOf c seq as_.contains env s

/-- Granules of a page set. -/
def inPage (m p : Nat) (s : State) (a : Nat) : Bool :=
  (decide (pageElem m p 0 s ≤ a) && decide (a < pageElem m p 0 s + elemBytes m s)) ||
    (decide (pageSide m p 0 s ≤ a) && decide (a < pageSide m p 0 s + sideBytes m s))

/-- Granule of stack memory that holds a sequence's page list entry (R192, R197). -/
def listGranule (q span : Nat) (s : State) : Nat := listAddr q span s / 64 * 64

/-- Where the copy of a page has a granule of the page copied. -/
def copiedAt (m p dst : Nat) (s : State) (a : Nat) : Nat :=
  if pageElem m p 0 s ≤ a ∧ a < pageElem m p 0 s + elemBytes m s then pageElem m dst 0 s + (a - pageElem m p 0 s)
  else pageSide m dst 0 s + (a - pageSide m p 0 s)

/-- What a read of a stack granule delivers: the word delivered for an uncorrectable word is no stated value. -/
def deliveredGranule (a : Nat) (env : StackEnv) (s : State) : Granule :=
  let g := stackGranule a s
  if env.lost a then
    BitVec.ofNat 512 ((List.range 8).foldr
      (fun i acc => (Config.badWord (a + i) (BitVec.ofNat 64 (fieldOf g (64 * i) 64))).toNat + 2 ^ 64 * acc) 0)
  else g

/-! ### Replies -/

/-- Boundary cell by which flit `i` of a reply enters the mesh (R194). -/
def replyCell (ctl : Nat) (r : StackReq) (i : Nat) : Nat := dataCell ctl r.reply ((r.raddr + i) % 2 ^ 15)

/-- Tag of a controller's flit to the requester (R51, R196). -/
def replyTag (ctl : Nat) (r : StackReq) (i n : Nat) : BitVec 48 :=
  BitVec.ofNat 48 (r.reply * 2 ^ 5 + (r.raddr + i) % 2 ^ 15 * 2 ^ 23 + r.cnt * 2 ^ 38 +
    bitN (grow (replyCell ctl r i) != grow r.reply) * 2 ^ 43 + bitN (i + 1 == n) * 2 ^ 44 + 3 * 2 ^ 46)

/-- Hops of a reply of `n` flits, all together. -/
def replyHops (ctl : Nat) (r : StackReq) (n : Nat) : Nat := ((List.range n).map fun i => hops (replyCell ctl r i) r.reply).sum

/-- Send flits of a controller to the requester by its boundary cells, charging their hops (R42, R165, R194). -/
def replyFlits (ctl : Nat) (r : StackReq) (gs : List Granule) (s : State) : State :=
  let n := gs.length
  let h := replyHops ctl r n
  let flit := fun i => (⟨replyTag ctl r i n, gs.getD i 0⟩ : Flit)
  let s1 := chargeEnergy r.act (energyHop 3) h (charge r.act 0 h s)
  forEach (List.range n) (fun i => sendFlit (221184 + ctl) r.act (flit i) (route (replyCell ctl r i) r.reply)) s1

/-- The acknowledgement of a write (R196). -/
def ackFlit (ctl : Nat) (r : StackReq) (err : Bool) (s : State) : State :=
  replyFlits ctl r [BitVec.ofNat 512 (r.op + 256 * bitN err)] s

/-- Copy a shared page for a commit (R193): what its reading meets is handled as any read's (R206). -/
def copyShared (r : StackReq) (m src dst : Nat) (env : StackEnv) (s : State) : State :=
  let put := fun (a : Nat) (t : State) => setStackGranule (copiedAt m src dst s a) (deliveredGranule a env s) t
  let s1 := forEach (env.lostIn (inPage m src s)) put (copyPage m src dst s)
  stackMetOf r.reply (some r.seq) (inPage m src s) env s1

/-- Count granules read or written in their stacks (R211). -/
def countGranules (wrt : Bool) (as_ : List Nat) (s : State) : State :=
  forEach as_ (fun a t => bump (if wrt then F.HS_WR_GR_CNT (stackOf a t) else F.HS_RD_GR_CNT (stackOf a t)) t) s

/-! ### KV requests (R197, R198) -/

/-- K and V selected, in order: 0 and 1. -/
def StackReq.kvs (r : StackReq) : List Nat := (if r.k then [0] else []) ++ (if r.v then [1] else [])

/-- Heads selected. -/
def StackReq.heads (r : StackReq) : List Nat := (List.range r.hcnt).map (r.head + ·)

/-- Offsets of a request's element granules in the page's element area, each with its position (R189, R197). -/
def elemOffsets (m : Nat) (r : StackReq) (s : State) : List (Nat × Nat) :=
  r.kvs.flatMap fun kv => r.heads.flatMap fun h => (List.range r.npos).flatMap fun i =>
    (List.range (poolG m s)).map fun j =>
      (r.pos + i, ((kv * poolKvh m s + h) * 256 + (r.pos + i) % 256) * poolG m s + j)

/-- Granules of the side record that a request names (R190, R197). -/
def sideOffsets (m : Nat) (r : StackReq) (s : State) : List Nat :=
  if r.side then
    List.range (sideHead m s) ++ r.kvs.flatMap fun kv => r.heads.flatMap fun h =>
      (List.range (poolD m s / 16)).map fun j => sideHead m s + (kv * poolKvh m s + h) * (poolD m s / 16) + j
  else []

/-- Stack addresses of a request's granules in page `p`, in reply order, each with its position: none for side granules. -/
def kvAddrs (m p : Nat) (r : StackReq) (s : State) : List (Option Nat × Nat) :=
  (elemOffsets m r s).map (fun e => (some e.1, pageElem m p r.layer s + e.2 * 64)) ++
  (sideOffsets m r s).map fun o => (none, pageSide m p r.layer s + o * 64)

/-- The operands of a KV request lie in the ranges that R196 gives, for a slot in use whose pool is enabled. -/
def kvFieldsOk (r : StackReq) (s : State) : Bool :=
  let x := seqSlot r.seq s
  x.used && x.freeing.isNone && poolOn x.model s && decide (r.layer < poolL x.model s) && decide (1 ≤ r.hcnt) &&
    decide (r.head + r.hcnt ≤ poolKvh x.model s) && decide (r.pos % 256 + r.npos ≤ 256)

/-- A controller takes the flits of a request off the mesh (R194, R196). -/
def takeRequest (ctl : Nat) (req : Granule) (data : List Granule) (s : State) : State :=
  if ctl < 12 then forEach (req :: data) (takeBound (221184 + ctl)) s else s

/-- KV_READ (R197, R199, R201): bytes of stack memory that it reads are charged. A cell of a T36 image has no access (R27: log entry 76).
(DEDUCED, unsafe: log entry 31.) -/
def kvRead (ctl : Nat) (req : Granule) (env : StackEnv) (s : State) : State :=
  let r := stackReq req
  if 12 ≤ ctl ∨ !on (F.HS_STATE.SVC ctl) s ∨ (r.op ≠ 1 ∧ !reservedSet req) then s
  else if reservedSet req || !kvFieldsOk r s || inT36 r.reply s then kvRange r s
  else
    let x := seqSlot r.seq s
    let m := x.model
    let shape := kvAddrs m 0 r s
    let n := shape.length
    let s1 := bumpBy F.KV_GR_CNT n s
    if x.len ≤ r.pos then replyFlits ctl r (List.replicate n 0) (kvRange r s1)
    else
      let s2 := when (decide (x.len < r.pos + r.npos)) (kvRange r) (chargeStack r 4 s1)
      match pageAt r.seq (r.pos / 256) s with
      | none => replyFlits ctl r (List.replicate n 0) (kvMiss r s2)
      | some e =>
        let as_ := kvAddrs m e.page r s
        let live := as_.filter fun a => a.1.all fun p => decide (p < x.len)
        let data := as_.map fun a => if live.contains a then deliveredGranule a.2 env s else 0
        let addrs := live.map (·.2)
        replyFlits ctl r data (stackMet r.reply (some r.seq) (listGranule r.seq (r.pos / 256) s :: addrs) env
          (countGranules false addrs (chargeStack r (64 * addrs.length) s2)))

/-- KV_READ. -/
def execKvRead (ctl : Nat) (req : Granule) (env : StackEnv) (s : State) : Host.Outcome State Fault Refusal :=
  .next (kvRead ctl req env (takeRequest ctl req [] s))

/-- The uncommitted step of a sequence in the ledger. -/
def stepOf (q : Nat) (s : State) : Option Nat :=
  (s.ledger.entries.find? fun e => e.seqs.any fun x => x.seq == q).map (·.index)

/-- Change what the ledger keeps of a sequence's step. -/
def modStepSeq (q : Nat) (f : StepSeq → StepSeq) (s : State) : State :=
  { s with ledger := { s.ledger with entries := s.ledger.entries.map fun e =>
      { e with seqs := e.seqs.map fun x => if x.seq = q then f x else x } } }

/-- The page a replayed commit took for the span, if the ledger holds one (R193, R354). (DEDUCED, unsafe: log entry 31.) -/
def recordedPage (q span : Nat) (s : State) : Option Nat :=
  (s.ledger.entries.flatMap fun e => e.seqs.flatMap fun x =>
    if x.seq = q then (x.pages.filter (·.span == span)).map (·.page) else []).head?

/-- The page that a KV_WRITE of a sequence goes to (R193): the list's own page; a new one from the reservation where the entry is
invalid; a copy of a shared one. None where the reservation is empty. What it reads and writes of the free list and the page list is
charged (R201). -/
def commitPage (q span : Nat) (r : StackReq) (env : StackEnv) (s : State) : Option (Nat × State) :=
  let m := (seqSlot q s).model
  let fresh : Option (Nat × State) := match recordedPage q span s with
    | some p => some (p, s)
    | none => (takePage q s).map fun (t : Nat × State) =>
        (t.1, chargeStack r 4 <| modStepSeq q (fun x => { x with pages := putPage ⟨span, t.1, false⟩ x.pages }) t.2)
  match pageAt q span s with
  | some e =>
    if e.shared then fresh.map fun t =>
      let n := elemBytes m s + sideBytes m s
      (t.1, setPage q ⟨span, t.1, false⟩ (bump F.COW_CNT (chargeStack r (2 * n + 4) (copyShared r m e.page t.1 env t.2))))
    else some (e.page, s)
  | none => fresh.map fun t => (t.1, setPage q ⟨span, t.1, false⟩ (chargeStack r 4 t.2))

/-- Write granules at stack addresses. -/
def storeGranules : List Nat → List Granule → State → State
  | a :: as_, g :: gs, s => storeGranules as_ gs (setStackGranule a g s)
  | _, _, s => s

/-- Element granules of a sequence's KV_WRITEs are acknowledged (R354): the lead controller counts them for a step whose result is in the
ledger, and the boundaries before its commit are counted afresh; at the back of a split model, for a step that SCOMMIT has come for. -/
def ackWrites (q n : Nat) (s : State) : State :=
  let hit := fun (e : LedgerEntry) => e.state == .result && !e.replay && e.seqs.any fun x => x.seq == q
  let add := fun (x : StepSeq) => if x.seq = q then { x with acked := x.acked + n } else x
  { s with
    ledger := { s.ledger with entries := s.ledger.entries.map fun e => if hit e then { e with guard := 0, seqs := e.seqs.map add } else e }
    pair := { s.pair with backSteps := s.pair.backSteps.map fun b =>
      if b.commits then { b with seqs := b.seqs.map fun p => (p.1, add p.2) } else b } }

/-- KV_WRITE (R193, R198, R354). (DEDUCED, unsafe: log entry 31.) -/
def kvWrite (ctl : Nat) (req : Granule) (data : List Granule) (env : StackEnv) (s : State) : State :=
  let r := stackReq req
  if 12 ≤ ctl ∨ !on (F.HS_STATE.SVC ctl) s ∨ (r.op ≠ 2 ∧ !reservedSet req) then s
  else if reservedSet req || !kvFieldsOk r s || inT36 r.reply s || data.length != (kvAddrs (seqSlot r.seq s).model 0 r s).length then kvRange r s
  else
    match commitPage r.seq (r.pos / 256) r env s with
    | none => fatal 0x01 0x03 s
    | some (p, s1) =>
      let m := (seqSlot r.seq s).model
      let as_ := (kvAddrs m p r s1).map (·.2)
      let s2 := storeGranules as_ data (chargeStack r (64 * as_.length + 4) s1)
      let s3 := stackMet r.reply (some r.seq) as_ { env with ue := [] } (countGranules true as_ s2)
      ackFlit ctl r false (ackWrites r.seq (elemOffsets m r s).length s3)

/-- KV_WRITE. -/
def execKvWrite (ctl : Nat) (req : Granule) (data : List Granule) (env : StackEnv) (s : State) :
    Host.Outcome State Fault Refusal := .next (kvWrite ctl req data env (takeRequest ctl req data s))

/-! ### LIN requests -/

/-- Granule addresses of a LIN request. -/
def linAddrs (r : StackReq) : List Nat := (List.range r.len).map fun i => r.addr + 64 * i

/-- A LIN request keeps to its alignment and to one 4 KiB chunk (R196). -/
def linShapeOk (r : StackReq) : Bool := decide (r.addr % 64 = 0) && decide (r.len ≤ 64) && decide (r.addr % 4096 + 64 * r.len ≤ 4096)

/-- It lies in the capacity in service (R199). -/
def linInside (r : StackReq) (s : State) : Bool := decide (r.addr + 64 * r.len ≤ stackCapacity s)

/-- LIN_READ (R196, R199). -/
def linRead (ctl : Nat) (req : Granule) (env : StackEnv) (s : State) : State :=
  let r := stackReq req
  if 12 ≤ ctl ∨ !on (F.HS_STATE.SVC ctl) s ∨ (r.op ≠ 3 ∧ !reservedSet req) then s
  else if reservedSet req || !linShapeOk r || inT36 r.reply s then kvRange r s
  else if linInside r s then
    let as_ := linAddrs r
    replyFlits ctl r (as_.map fun a => deliveredGranule a env s)
      (stackMet r.reply (some r.seq) as_ env (countGranules false as_ (chargeStack r (64 * r.len) s)))
  else replyFlits ctl r (List.replicate r.len 0) (kvRange r s)

/-- LIN_READ. -/
def execLinRead (ctl : Nat) (req : Granule) (env : StackEnv) (s : State) : Host.Outcome State Fault Refusal :=
  .next (linRead ctl req env (takeRequest ctl req [] s))

/-- A stack address lies in a model's spill region (R183). -/
def inSpill (a : Nat) (s : State) : Bool :=
  (List.range 16).any fun m =>
    let b := rd (F.SPILL_BASE.VALUE m) s * 65536
    poolOn m s && decide (b ≤ a) && decide (a < b + rd (F.SPILL_SIZE.VALUE m) s * 65536)

/-- LIN_WRITE (R196, R199). -/
def linWrite (ctl : Nat) (req : Granule) (data : List Granule) (env : StackEnv) (s : State) : State :=
  let r := stackReq req
  if 12 ≤ ctl ∨ !on (F.HS_STATE.SVC ctl) s ∨ (r.op ≠ 4 ∧ !reservedSet req) then s
  else if reservedSet req || !linShapeOk r || inT36 r.reply s || data.length != r.len then kvRange r s
  else if linInside r s then
    let as_ := linAddrs r
    let s1 := storeGranules as_ data (chargeStack r (64 * r.len) s)
    let s2 := stackMet r.reply (some r.seq) as_ { env with ue := [] } (countGranules true as_ s1)
    ackFlit ctl r false (bumpBy F.SPILL_GR_CNT (as_.filter fun a => inSpill a s).length s2)
  else ackFlit ctl r true (kvRange r s)

/-- LIN_WRITE. -/
def execLinWrite (ctl : Nat) (req : Granule) (data : List Granule) (env : StackEnv) (s : State) :
    Host.Outcome State Fault Refusal := .next (linWrite ctl req data env (takeRequest ctl req data s))

/-! ### The patrol (R207) -/

/-- Granules of a stack. -/
def stackGranules : Nat := stackBytes / 64

/-- Stack address of granule `g` of stack `n` (R203). -/
def patrolAddr (n g : Nat) (s : State) : Nat :=
  let l := stacksInService s
  (g / 64 * l.length + (l.findIdx? (· == n)).getD 0) * 4096 + g % 64 * 64

/-- PATROL_READ (R206, R207): the next granule of a stack, unless the Scrub activity is held. -/
def patrolRead (n t : Nat) (env : StackEnv) (s : State) : State :=
  if 12 ≤ n ∨ !on (F.HS_STATE.SVC n) s ∨ held 5 s then s
  else
    let g := Table.get (fun _ => 0) s.kv.patrolPos n
    let a := patrolAddr n g s
    let s1 := chargeEnergy 5 energyStack 64 (charge 5 1 64 (atTime t s))
    let s2 := stackMet (requestCell n) none [a] env s1
    let wrap := decide (stackGranules ≤ g + 1)
    let g1 := if wrap then 0 else g + 1
    let s3 := { s2 with kv := { s2.kv with
      patrolPos := Table.set (fun _ => 0) s2.kv.patrolPos n g1
      patrolStamp := (n, timestamp s2) :: s2.kv.patrolStamp.filter (·.1 != n)
      patrolStart := if wrap then Table.set (fun _ => 0) s2.kv.patrolStart n t else s2.kv.patrolStart } }
    when wrap (bump (F.HS_SCRUB_PASS_CNT n)) (wr (F.HS_SCRUB_POS.VALUE n) (g1 * 65536 / stackGranules) s3)

/-- PATROL_READ. -/
def execPatrolRead (n t : Nat) (env : StackEnv) (s : State) : Host.Outcome State Fault Refusal := .next (patrolRead n t env s)

/-- STACK_SCRUB_LATE (R207): the pass in progress has taken longer than 30 s. -/
def stackScrubLate (n t : Nat) (s : State) : State :=
  if n < 12 ∧ on (F.HS_STATE.SVC n) s ∧ 63000000000 < t - Table.get (fun _ => 0) s.kv.patrolStart n then
    raise F.KV_STS.SCRUB_LATE (raise (F.HS_STS.SCRUB_LATE n) (atTime t s))
  else s

/-- STACK_SCRUB_LATE. -/
def execStackScrubLate (n t : Nat) (s : State) : Host.Outcome State Fault Refusal := .next (stackScrubLate n t s)

end Sys2Proof.Machine
end

