-- ==== Sys2Proof/Machine/Tune.lean ====
section
/-!
DEFINITION. The tune job (R255 to R272): its commands, the example ring, groups, blocks and optimiser records.
-/
namespace Sys2Proof.Machine
open Sys2Proof

/-- Model slot of the tune job. -/
def tuneModel (s : State) : Nat := rd F.TUNE_CFG.MODEL s

/-- `TUNE_STATE.STATE`: 0 IDLE, 1 RUNNING, 2 PAUSING, 3 PAUSED, 4 ENDING, 5 FAILED. -/
def tuneSt (s : State) : Nat := rd F.TUNE_STATE.STATE s

/-- A tune job runs: it is RUNNING, PAUSING, PAUSED or ENDING. -/
def tuneRuns (s : State) : Bool := decide (1 ≤ tuneSt s) && decide (tuneSt s ≤ 4)

/-- A command or write is refused (R268). -/
def tuneRefuse (s : State) : State := raise F.TUNE_STS.REFUSED s

/-- The tune ring is enabled. -/
def tuneRingOn (s : State) : Bool := on F.TUNE_RING_CFG.ENABLE s

/-! ### Ring headers and the watches on them (R212, R292, R294) -/

/-- Watch a line of host memory (R292, R294). -/
def watchLine (addr : Nat) (use : ReadUse) (s : State) : State :=
  let ws := s.ocl.watches.filter fun w => w.addr != addr
  { s with ocl := { s.ocl with watches := (ws ++ [Watch.mk addr use none]).take 32 } }

/-- Base of the header of a ring: 0 to 7 command, 8 to 15 output, 16 telemetry, 17 tune, 18 event. -/
def ringBase (k : Nat) (s : State) : Nat :=
  if k < 8 then addr64 (O.CMD_RING_BASE k) (O.CMD_RING_BASE_HI k) s
  else if k < 16 then addr64 (O.OUT_RING_BASE (k - 8)) (O.OUT_RING_BASE_HI (k - 8)) s
  else if k = 16 then addr64 O.TELE_RING_BASE O.TELE_RING_BASE_HI s
  else if k = 17 then addr64 O.TUNE_RING_BASE O.TUNE_RING_BASE_HI s
  else addr64 O.EVT_RING_BASE O.EVT_RING_BASE_HI s

/-- ENABLE of a ring. -/
def ringEnFld (k : Nat) : Fld :=
  if k < 8 then F.CMD_RING_CFG.ENABLE k
  else if k < 16 then F.OUT_RING_CFG.ENABLE (k - 8)
  else if k = 16 then F.TELE_CFG.ENABLE
  else if k = 17 then F.TUNE_RING_CFG.ENABLE
  else F.EVT_CFG.ENABLE

/-- SIZE_LOG of a ring. -/
def ringLog (k : Nat) (s : State) : Nat :=
  if k < 8 then rd (F.CMD_RING_CFG.SIZE_LOG k) s
  else if k < 16 then rd (F.OUT_RING_CFG.SIZE_LOG (k - 8)) s
  else if k = 16 then rd F.TELE_CFG.SIZE_LOG s
  else if k = 17 then rd F.TUNE_RING_CFG.SIZE_LOG s
  else rd F.EVT_CFG.SIZE_LOG s

/-- What a read of a ring's header is for. -/
def ringUse (k : Nat) : ReadUse :=
  if k < 8 then .cmdRing k else if k < 16 then .outRing (k - 8) else if k = 16 then .teleRing
  else if k = 17 then .tune else .eventRing

/-- Line of the header that the W3 watches: PROD where the host produces, CONS where the W3 does (R294). -/
def watchedLine (k : Nat) (s : State) : Nat := ringBase k s + (if k < 8 ∨ k = 17 then 0 else 64)

/-- Watch the line of a ring's header from now on (R294): RD_WATCH registers the watch at the home. The tune ring is watched while a tune
job runs. -/
def watchRing (k : Nat) (s : State) : State :=
  if k = 17 ∧ !tuneRuns s then s
  else hostRead (watchedLine k s) 0 true (ringUse k) (watchLine (watchedLine k s) (ringUse k) s)

/-- The watch on the line of a ring's header ends (UNWATCH, R292). -/
def unwatchRing (k : Nat) (s : State) : State :=
  let a := watchedLine k s
  if s.ocl.watches.any (·.addr == a) then
    sendUnwatch a { s with ocl := { s.ocl with watches := s.ocl.watches.filter fun w => w.addr != a } }
  else s

/-- The watch of the tune ring follows the tune job (R294). -/
def watchTune (s : State) : State :=
  if !tuneRuns s then unwatchRing 17 s
  else if tuneRingOn s ∧ !s.svc.unread.contains 17 ∧ !s.ocl.watches.any (·.addr == watchedLine 17 s) then watchRing 17 s
  else s

/-! ### The example ring -/

/-- The job enters IDLE or FAILED: it runs no more, and the watch of its ring ends (R294). -/
def tuneEnd (st fail : Nat) (s : State) : State :=
  watchTune (raise F.TUNE_STS.ENDED (wr F.TUNE_STATE.FAIL fail (wr F.TUNE_STATE.STATE st s)))

/-- Address of an entry of the tune ring. -/
def tuneAddr (i : Nat) (s : State) : Nat :=
  entryAddr (addr64 O.TUNE_RING_BASE O.TUNE_RING_BASE_HI s) (rd F.TUNE_RING_CFG.SIZE_LOG s) i 64

/-- Write part of an entry of the tune ring: `n` low bytes of `v` at byte `b`. -/
def writeExample (i b n v : Nat) (s : State) : State := sendWrPart (tuneAddr i s + b) (natToBytes n v) [] s

/-- Write CONS of the tune ring. -/
def writeTuneCons (c : Nat) (s : State) : State :=
  sendWrPart (addr64 O.TUNE_RING_BASE O.TUNE_RING_BASE_HI s + 64) (natToBytes 4 c) []
    { s with tune := { s.tune with cons := c } }

/-- An example that has been read: one of the ring. -/
def exampleAt (i : Nat) (s : State) : Option Example := s.tune.examples.find? (·.index == i)

/-- `a` lies before `b` in the ring order that starts at CONS. -/
def exBefore (a b : Nat) (s : State) : Bool := decide (ringUsed a s.tune.cons < ringUsed b s.tune.cons)

/-- Examples run so far: those before the next one to run. -/
def examplesRun (s : State) : List Example := s.tune.examples.filter fun e => exBefore e.index s.tune.next s

/-- Ring index of the first example of the open group: after the last END_GROUP example that has run (R262). -/
def openFirst (s : State) : Nat :=
  match ((examplesRun s).filter fun e => e.endGroup && !e.bad).getLast? with
  | some e => (e.index + 1) % 2 ^ 32
  | none => s.tune.cons

/-- Examples of the open group run so far. -/
def openRun (s : State) : List Example := (examplesRun s).filter fun e => !exBefore e.index (openFirst s) s

/-- Run again from ring index `i`, with KEEPIN 0 (R269). -/
def rewind (i : Nat) (s : State) : State := { s with tune := { s.tune with next := i, fresh := true } }

/-- Write STATUS DISCARDED into examples; those of STATUS INPUT have not run and keep it (R261, R269). -/
def markDiscarded (es : List Example) (s : State) : State :=
  raise F.TUNE_STS.DISCARD (forEach (es.filter (!·.bad)) (fun e => writeExample e.index 32 1 3) s)

/-- Discard the open group (R269): STATUS DISCARDED in the examples run, the group runs again from its first example. -/
def discardGroup (s : State) : State := rewind (openFirst s) (markDiscarded (openRun s) s)

/-! ### Commands (R268) -/

/-- RUN may be taken now. -/
def tuneRunOk (s : State) : Bool :=
  (tuneSt s == 0 || tuneSt s == 3) && rd (F.MODEL_SCHED.STATE (tuneModel s)) s == 2 && on F.TUNE_CFG.EN s && tuneRingOn s &&
    decide (2 ≤ rd F.TUNE_CFG.TBLK s) && rd F.PAIR_CFG.MODE s != 2

/-- RUN (R268). -/
def tuneRun (s : State) : State := if tuneRunOk s then watchTune (wr F.TUNE_STATE.STATE 1 s) else tuneRefuse s

/-- RUN. -/
def execRun (s : State) : Host.Outcome State Fault Refusal := .next (tuneRun s)

/-- PAUSE (R268): with no block in flight the job is paused at once. -/
def tunePause (s : State) : State :=
  if tuneSt s = 1 then wr F.TUNE_STATE.STATE (if s.tune.blocks.isEmpty then 3 else 2) s else tuneRefuse s

/-- PAUSE. -/
def execPause (s : State) : Host.Outcome State Fault Refusal := .next (tunePause s)

/-- ABORT (R268): the open group is discarded; the block in flight completes, then the job is IDLE. -/
def tuneAbort (s : State) : State :=
  if 1 ≤ tuneSt s ∧ tuneSt s ≤ 3 then
    let s1 := discardGroup s
    if s1.tune.blocks.isEmpty then tuneEnd 0 0 s1 else wr F.TUNE_STATE.STATE 4 s1
  else tuneRefuse s

/-- ABORT. -/
def execAbort (s : State) : Host.Outcome State Fault Refusal := .next (tuneAbort s)

/-- DISCARD (R269): the host discards the open group of a job that has one. (DEDUCED, unsafe: log entry 36.) -/
def tuneDiscard (s : State) : State := if 1 ≤ tuneSt s ∧ tuneSt s ≤ 3 then discardGroup s else tuneRefuse s

/-- DISCARD. -/
def execDiscard (s : State) : Host.Outcome State Fault Refusal := .next (tuneDiscard s)

/-- A write of `TUNE_CTRL` (R268): bits act in the order ABORT, PAUSE, DISCARD, RUN. -/
def tuneCtrl (v : Word) (s : State) : State :=
  when (bitAt v 0) tuneRun (when (bitAt v 3) tuneDiscard (when (bitAt v 1) tunePause (when (bitAt v 2) tuneAbort s)))

/-! ### Ends and faults -/

/-- Sequence slots that blocks in flight took. -/
def tuneSeqs (s : State) : List Nat := s.tune.blocks.flatMap (·.seqs)

/-- Drop the blocks in flight: their slots are released. -/
def dropBlocks (s : State) : State :=
  let s1 := forEach (tuneSeqs s) (fun q => releaseSeq q false) s
  { s1 with tune := { s1.tune with blocks := [] } }

/-- The job fails with a cause (R269): groups not yet applied run again from their first example, which is where CONS stands (R262).
Nothing happens where no job runs: a later job's first block follows no discard (R267). -/
def tuneFail (cause : Nat) (s : State) : State :=
  if 1 ≤ tuneSt s ∧ tuneSt s ≤ 4 then tuneEnd 5 cause (rewind s.tune.cons (dropBlocks s)) else s

/-- A detected fault is reported in a cell of the model's image while a block is in flight (R269). -/
def tuneFault (m : Nat) (s : State) : State :=
  if !s.tune.blocks.any (·.model == m) then s
  else if s.tune.blocks.any (·.apply) then tuneFail 2 (markDiscarded (examplesRun s) s)
  else
    let n := rd F.TUNE_STATE.DISCARDS s + 1
    let s1 := dropBlocks (wr F.TUNE_STATE.DISCARDS n (discardGroup s))
    if 3 ≤ n then tuneFail 1 s1
    else if tuneSt s1 = 2 then wr F.TUNE_STATE.STATE 3 s1
    else if tuneSt s1 = 4 then tuneEnd 0 0 s1
    else s1

/-- No block has run on the job's model (R271). -/
def noBlockYet (s : State) : State := { s with tune := { s.tune with blockEnd := none } }

/-- The job's model, or that of a block in flight, is evicted or closed (R269). -/
def tuneEvict (m : Nat) (s : State) : State :=
  if tuneModel s = m ∨ s.tune.blocks.any (·.model == m) then noBlockYet (tuneFail 3 s) else s

/-- The module fails over to its partner (R269). -/
def tuneFailover (s : State) : State := tuneFail 4 s

/-- A passing load check of the job's model makes a FAILED job IDLE, its group not yet discarded (R268). (DEDUCED, unsafe: log entry 36.) -/
def tuneReloaded (m : Nat) (s : State) : State :=
  if tuneModel s = m ∧ tuneSt s = 5 then wr F.TUNE_STATE.DISCARDS 0 (wr F.TUNE_STATE.FAIL 0 (wr F.TUNE_STATE.STATE 0 s)) else s

/-! ### Forming a Tune step (R256, R262, R267, R271) -/

/-- GAP in launches. -/
def tuneGap (s : State) : Nat := max 1 (rd F.TUNE_CFG.GAP s)

/-- The examples that the next Tune step packs (R262). -/
def packExamples : List Example → Nat → Nat → List Example
  | [], _, _ => []
  | e :: es, n, rows =>
    if e.bad then packExamples es n rows
    else if n = 0 ∨ rows < e.ntok then []
    else if e.endGroup then [e]
    else e :: packExamples es (n - 1) (rows - e.ntok)

/-- Examples read and not run, in order: those with all their tokens. -/
def unrunExamples (s : State) : List Example :=
  (s.tune.examples.filter fun e => !exBefore e.index s.tune.next s).takeWhile fun e => e.bad || e.tokens.length == e.ntok

/-- Free sequence slots, lowest first. -/
def freeSeqs (n : Nat) (s : State) : List Nat := ((List.range 4096).filter fun q => !(seqSlot q s).used).take n

/-- What a Tune step of this launch would pack; empty where none forms. -/
def tunePack (m launch : Nat) (s : State) : List Example :=
  if tuneSt s == 1 && tuneModel s == m && !held 7 s && s.tune.blockEnd.all (fun b => decide (b + tuneGap s ≤ launch)) then
    let es := packExamples (unrunExamples s) 64 (rd F.TUNE_ROWS.VALUE s)
    es.take (freeSeqs 64 s).length
  else []

/-- The launch lies in a block that runs (R256). -/
def inBlock (m launch : Nat) (s : State) : Bool :=
  s.tune.blocks.any fun b => b.model == m && decide (b.launch < launch) && decide (launch < b.launch + b.tblk)

/-- A power of an exact value, the mantissa kept to 160 bits. -/
def dyTrim (x : Dy) : Dy :=
  let k := x.m.natAbs.log2 - 160
  ⟨if x.m < 0 then -((x.m.natAbs / 2 ^ k : Nat) : Int) else ((x.m.natAbs / 2 ^ k : Nat) : Int), x.e + k⟩

/-- x to the power `t`, `n` bits of `t` from the top. -/
def dyPow (x : Dy) (t : Nat) : Nat → Dy
  | 0 => ⟨1, 0⟩
  | n + 1 =>
    let r := dyPow x (t / 2) n
    let q := dyTrim (r.mul r)
    if t % 2 = 1 then dyTrim (q.mul x) else q

/-- 1 / (1 − βᵗ), FP32 (R267). -/
def biasCorr (b : Word) (t : Nat) : Word :=
  let d := (⟨1, 0⟩ : Dy).add (dyPow (fpVal b) t 33).neg
  if d.m = 0 then fpInf false else ((⟨1, 0⟩ : Dy).div d).toFp

/-- 1 − β, FP32. -/
def oneMinus (b : Word) : Word := ((⟨1, 0⟩ : Dy).add (fpVal b).neg).toFp

/-- FP32 one. -/
def fpOne : Word := 0x3F800000

/-- The optimiser record of a Tune step (R266, R267). -/
def optRecord (apply keepin : Bool) (s : State) : Granule :=
  let b1 := reg O.TUNE_BETA1 s
  let b2 := reg O.TUNE_BETA2 s
  let eps := reg O.TUNE_EPS s
  let t := (rd F.OPT_STEP.VALUE s + 1) % 2 ^ 32
  let words : List Word :=
    (if apply then [reg O.TUNE_LR s, b1, oneMinus b1, b2, oneMinus b2, biasCorr b1 t, biasCorr b2 t, fpMul eps eps,
        reg O.TUNE_WD s, 0]
      else [0, fpOne, 0, fpOne, 0, fpOne, fpOne, fpMul eps eps, 0, fpOne]) ++
    [reg O.TUNE_GSCALE s, reg O.TUNE_CLAMP s, reg O.TUNE_ALPHA s, if keepin then fpOne else 0, BitVec.ofNat 32 t,
      BitVec.ofNat 32 (bitN apply)]
  BitVec.ofNat 512 (words.foldr (fun w acc => w.toNat + 2 ^ 32 * acc) 0)

/-- RANK of a cell's tune record shadow (R255). -/
def tuneRank (x : Cell) : Nat := fieldOf x.shadow2 144 7

/-- Send a cell its optimiser record from the configuration agent, charged to Tune (R267). -/
def sendOptRecord (g : Granule) (c : Nat) (s : State) : State :=
  let x := cell c s
  let tag : BitVec 48 := BitVec.ofNat 48 (c * 2 ^ 5 + fieldOf x.shadow2 176 15 * 2 ^ 23 + fieldOf x.shadow2 224 5 * 2 ^ 38 +
    bitN (grow agentCell != grow c) * 2 ^ 43 + 2 ^ 44 + 3 * 2 ^ 46)
  let h := hops agentCell c
  sendFlit agentCell 7 ⟨tag, g⟩ (route agentCell c) (chargeEnergy 7 (energyHop 3) h (charge 7 0 h s))

/-- Take a sequence slot for an example (R262). -/
def takeTuneSeq (m q : Nat) (s : State) : State := setSeqSlot q { SeqSlot.reset with used := true, model := m } s

/-- A length table entry (R184): SEQ, TREE, START, COUNTM1. -/
def lengthWord (q : Nat) (tree : Bool) (start n : Nat) : Dword :=
  BitVec.ofNat 64 (q % 2 ^ 12 + 2 ^ 12 * bitN tree + start % 2 ^ 24 * 2 ^ 16 + (n - 1) % 2 ^ 24 * 2 ^ 40)

/-- Form the Tune step of a launch: a block begins (R256, R262, R267). -/
def formTune (m launch : Nat) (s : State) : State :=
  let es := tunePack m launch s
  match es.getLast? with
  | none => s
  | some last =>
    let qs := freeSeqs es.length s
    let b : TuneBlock := { model := m, launch := launch, tblk := rd F.TUNE_CFG.TBLK s, examples := es.map (·.index), seqs := qs,
                           table := (qs.zip es).map fun p => lengthWord p.1 false 0 p.2.ntok,
                           apply := last.endGroup }
    let s1 := forEach qs (takeTuneSeq m) s
    let t1 : Tune := { s1.tune with
      blocks := s1.tune.blocks ++ [b], next := (last.index + 1) % 2 ^ 32, fresh := false,
      blockEnd := some (launch + rd F.TUNE_CFG.TBLK s) }
    let s2 := bumpBy F.TUNE_ROW_CNT ((es.map (·.ntok)).foldl (· + ·) 0) { s1 with tune := t1 }
    let g := optRecord b.apply (!s.tune.fresh) s
    forEach ((image m s).cells.filter fun c => tuneRank (cell c s) != 0) (sendOptRecord g) s2

/-! ### The end of a block -/

/-- The last iteration of the block's last launch has ended in every cell of the image (R259). -/
def blockOver (b : TuneBlock) (s : State) : Bool :=
  let im := image b.model s
  im.cells.all fun c => decide (im.start + stageLag (cell c s) + (b.launch + b.tblk - im.launch0) * im.interval ≤ slotNo s)

/-- Write an example's losses (R260, R263). -/
def writeLosses : List Nat → List Word → State → State
  | i :: is, l :: ls, s =>
    let n := match exampleAt i s with
      | some e => e.ntok - e.lossFrom
      | none => 0
    writeLosses is ls (writeExample i 36 8 (l.toNat + 2 ^ 32 * n) s)
  | _, _, s => s

/-- Close the group that ends with example `last` (R260, R267): results, CONS past its examples. (DEDUCED, unsafe: log entry 36.) -/
def closeGroup (last : Nat) (s : State) : State :=
  let step := (rd F.OPT_STEP.VALUE s + 1) % 2 ^ 32
  let mine := s.tune.examples.filter fun e => !exBefore last e.index s
  let good := mine.filter (!·.bad)
  let s1 := forEach good (fun e t => writeExample e.index 32 1 1 (writeExample e.index 44 4 step t)) (wr F.OPT_STEP.VALUE step s)
  let s2 := forEach (mine.filter (·.bad)) (fun e => writeExample e.index 32 1 2) s1
  let keep := s2.tune.examples.filter fun e => exBefore last e.index s
  let s3 := writeTuneCons ((last + 1) % 2 ^ 32) { s2 with tune := { s2.tune with examples := keep } }
  raise F.TUNE_STS.GROUP (wr F.TUNE_STATE.DISCARDS 0 (bumpBy F.TUNE_EX_CNT good.length s3))

/-- After a block: PAUSING becomes PAUSED and ENDING becomes IDLE when none is left in flight. -/
def afterBlock (s : State) : State :=
  if s.tune.blocks.isEmpty then
    if tuneSt s = 2 then wr F.TUNE_STATE.STATE 3 s else if tuneSt s = 4 then tuneEnd 0 0 s else s
  else s

/-- TUNE_BLOCK_COMPLETE (R259, R260, R262, R267): the losses of the block's examples, in order. -/
def tuneBlockComplete (losses : List Word) (s : State) : State :=
  match s.tune.blocks with
  | [] => s
  | b :: bs =>
    if blockOver b s then
      let s1 := forEach b.seqs (fun q => releaseSeq q false) { s with tune := { s.tune with blocks := bs } }
      let s2 := bump F.TUNE_BLOCK_CNT (writeLosses b.examples losses s1)
      afterBlock (match b.apply, b.examples.getLast? with
        | true, some l => closeGroup l s2
        | _, _ => s2)
    else s

/-- TUNE_BLOCK_COMPLETE. -/
def execTuneBlockComplete (losses : List Word) (s : State) : Host.Outcome State Fault Refusal :=
  .next (tuneBlockComplete losses s)

/-! ### Reading examples (R260, R261) -/

/-- Bytes of `n` tokens from a byte list. -/
def tokensOf : Nat → List Byte → List Nat
  | 0, _ => []
  | n + 1, bs => bytesToNat (bs.take 4) :: tokensOf n (bs.drop 4)

/-- Tokens that one read from `a` gives: at most eight lines, no crossing of a 4 KiB boundary (R286). -/
def tokensPerRead (a left : Nat) : Nat := min left (max 1 (min (512 - a % 64) (4096 - a % 4096) / 4))

/-- Read host memory for tokens from `a` on: the lines that hold the next of `left` tokens. -/
def readTokens (a left : Nat) (use : ReadUse) (s : State) : State :=
  hostRead (a - a % 64) (cdiv (a % 64 + 4 * tokensPerRead a left) 64 - 1) false use s

/-- A token id the model may not take (R214). -/
def badToken (m t : Nat) (s : State) : Bool := decide (0x00FFFFFF < t) || decide ((modelSlot m s).vocab ≤ t)

/-- An example of the ring whose tokens are still being read. -/
def tuneReading (s : State) : Option Example := s.tune.examples.find? fun e => !e.bad && decide (e.tokens.length < e.ntok)

/-- Ring index of the next entry to read. -/
def tuneNextRead (s : State) : Nat :=
  match s.tune.examples.getLast? with
  | some e => (e.index + 1) % 2 ^ 32
  | none => s.tune.cons

/-- TOKADDR of an example, read again from the ring's entry as the W3 keeps it. -/
def tuneTokAddr (e : Example) (s : State) : Nat := Table.get (fun _ => 0) s.tune.addrs e.index + 4 * e.tokens.length

/-- Go on reading the ring: one read at a time. -/
def tuneFetch (s : State) : State :=
  if !tuneRingOn s || s.svc.unread.contains 17 || readingFor .tune s then s
  else match tuneReading s with
    | some e => readTokens (tuneTokAddr e s) (e.ntok - e.tokens.length) .tune s
    | none =>
      if tuneNextRead s = s.tune.prod then s else hostRead (tuneAddr (tuneNextRead s) s) 0 false .tune s

/-- An entry of the ring has been read (R260, R261). -/
def tuneEntryRead (g : BitVec 512) (s : State) : State :=
  let ntok := fieldOf g 64 32
  let lf := fieldOf g 96 32
  let bad := decide (ntok < 2) || decide (rd F.TUNE_ROWS.VALUE s < ntok) || decide (lf < 1) || decide (ntok ≤ lf)
  let e : Example := { index := tuneNextRead s, ntok := ntok, lossFrom := lf, endGroup := bitAt g 192, tokens := [], bad := bad }
  let t : Tune := { s.tune with
    examples := s.tune.examples ++ [e], addrs := Table.set (fun _ => 0) s.tune.addrs e.index (fieldOf g 128 64) }
  tuneFetch (when bad (raise F.TUNE_STS.INPUT) { s with tune := t })

/-- Tokens of an example have been read. -/
def tuneTokensRead (e : Example) (bytes : List Byte) (s : State) : State :=
  let a := tuneTokAddr e s
  let ts := tokensOf (tokensPerRead a (e.ntok - e.tokens.length)) (bytes.drop (a % 64))
  let bad := ts.any fun t => badToken (tuneModel s) t s
  let e1 : Example := { e with tokens := e.tokens ++ ts, bad := bad }
  let t : Tune := { s.tune with examples := s.tune.examples.map fun x => if x.index = e.index then e1 else x }
  tuneFetch (when bad (raise F.TUNE_STS.INPUT) { s with tune := t })

end Sys2Proof.Machine
end

