-- ==== Sys2Proof/Machine/Mirror.lean ====
section
/-!
DEFINITION. What a primary sends its mirror (R318 to R320, R324): the MIRROR stream under its budget, commit groups, input tokens.
-/
namespace Sys2Proof.Machine
open Sys2Proof

/-- The module is a primary (R317). -/
def primary (s : State) : Bool := rd F.PAIR_STATE.STATE s == 3

/-- Charge an activity with flits that cross the mesh between a cell and its span gateway (R165). -/
def chargeSpan (a c flits : Nat) (s : State) : State :=
  let h := flits * hops c (spanGateway 0 c)
  chargeEnergy a (energyHop 3) h (charge a 0 h s)

/-- Charge an activity with stack bytes. -/
def chargeBytes (a n : Nat) (s : State) : State := chargeEnergy a energyStack n (charge a 1 n s)

/-- Charge an activity with `n` bytes that pass between the stacks and a span port: from the lead controller's request cell. -/
def chargeSpanStack (a n : Nat) (s : State) : State := chargeSpan a (requestCell (leadController s)) (cdiv n 64) (chargeBytes a n s)

/-- Charge a mirror message of `n` data slots at one end (R320): KV passes between the stacks and the port, every other message between
the service and the port; the mirror keeps input tokens and sinter stores in the stacks (R318). (DEDUCED, unsafe: log entry 44.) -/
def chargeMirrorSlots (op n : Nat) (recv : Bool) (s : State) : State :=
  let s1 := bumpBy F.MIRROR_BYTE_CNT (16 * (n + 1)) s
  if op = 0x12 then chargeSpanStack 4 (16 * n) s1
  else chargeSpan 4 agentCell (cdiv (n + 1) 4) (when (recv && (op == 0x11 || op == 0x13)) (chargeBytes 4 (16 * n)) s1)

/-- Charge a mirror message. -/
def chargeMirror (m : SpanMsg) (recv : Bool) (s : State) : State := chargeMirrorSlots m.op m.data.length recv s

/-- Send the mirror messages that wait, while Mirror is not held and a port is ACTIVE. -/
def flushMirrorList : List SpanMsg → State → List SpanMsg × State
  | [], s => ([], s)
  | m :: ms, s =>
    if held 4 s || (activePorts s).isEmpty then (m :: ms, s)
    else flushMirrorList ms (putSpan m 1 (chargeMirror m false s))

/-- Send what waits of the MIRROR stream. -/
def flushMirror (s : State) : State :=
  let p := flushMirrorList s.pair.mirrorQ s
  { p.2 with pair := { p.2.pair with mirrorQ := p.1 } }

/-- A primary's message of the MIRROR stream (R312, R313, R320): it takes its PSN now, and goes out when the budget lets it. -/
def mirrorMsg (op model arg : Nat) (data : List Slot16) (s : State) : State :=
  let m : SpanMsg := { op := op, model := model, psn := nextPsn 1 s, arg := arg, data := data }
  let s1 := takePsn 1 s
  flushMirror { s1 with pair := { s1.pair with mirrorQ := s1.pair.mirrorQ ++ [m] } }

/-- A slot of a number. -/
def natSlot (n : Nat) : Slot16 := BitVec.ofNat 128 n

/-- The slots of a granule. -/
def granuleSlots (g : Granule) : List Slot16 := (List.range 4).map fun i => natSlot (fieldOf g (128 * i) 128)

/-- Mirror a command entry (R318). -/
def mirrorCmd (model : Nat) (e : BitVec 1024) (s : State) : State :=
  if primary s then mirrorMsg 0x10 model 0 ((List.range 8).map fun i => natSlot (fieldOf e (128 * i) 128)) s else s

/-- Tokens as slots, four each. -/
def tokenSlots : Nat → List Nat → List Slot16
  | 0, _ => []
  | n + 1, ts => natSlot ((ts.take 4).foldr (fun t acc => t % 2 ^ 32 + 2 ^ 32 * acc) 0) :: tokenSlots n (ts.drop 4)

/-- Parts of a token list as TOKENS_IN messages (R312): 8,184 tokens a part. `n` bounds the parts. -/
def tokenParts (model reqId req : Nat) : Nat → Nat → List Nat → State → State
  | 0, _, _, s => s
  | n + 1, off, ts, s =>
    match ts with
    | [] => s
    | _ =>
      let part := ts.take 8184
      let p := nextPsn 1 s
      let s1 := mirrorMsg 0x11 model 0 (natSlot (reqId + 2 ^ 64 * off) :: tokenSlots (cdiv part.length 4) part) s
      tokenParts model reqId req n (off + 8184) (ts.drop 8184)
        { s1 with pair := { s1.pair with tokensIn := s1.pair.tokensIn ++ [(p, req)] } }

/-- Mirror a request's input tokens before its first Prefill step (R318, R319). -/
def mirrorTokens (q : Request) (ts : List Nat) (s : State) : State :=
  if primary s then tokenParts q.model q.reqId q.id (cdiv ts.length 8184) 0 ts s else s

/-! ### Commit groups (R318) -/

/-- Granules of consecutive positions of a page's layer, K and V of every head (R198), and the side record when `side`. -/
def kvRun (m page l p0 n : Nat) (side : Bool) (s : State) : List Granule :=
  let r : StackReq := { op := 1, k := true, v := true, side := side, seq := 0, layer := l, head := 0, hcnt := poolKvh m s, act := 4,
                        pos := p0, npos := n, reply := 0, cnt := 0, raddr := 0, addr := 0, len := 0 }
  (kvAddrs m page r s).map fun a => stackGranule a.2 s

/-- ARG of a KV message: sequence slot, layer, first position, position count, as the model packs it, and which message of the run it is
where the run's data take several. -/
def kvArg (q l p n i : Nat) : Nat := q + 2 ^ 12 * l + 2 ^ 20 * p + 2 ^ 44 * n + 2 ^ 53 * i

/-- Granules that one message carries (R313). -/
def granulesPerPart : Nat := 511

/-- Positions that one KV message carries (R312, R313). -/
def kvPerPart (m : Nat) (s : State) : Nat := max 1 (granulesPerPart / max 1 (2 * poolKvh m s * poolG m s))

/-- Send a run of positions: one KV message, or several where one position or the side granules exceed a message (R313). -/
def kvMessages (q m l p n : Nat) (gs : List Granule) (s : State) : State :=
  forEach (List.range (cdiv gs.length granulesPerPart)) (fun i =>
    mirrorMsg 0x12 m (kvArg q l p n i) (((gs.drop (granulesPerPart * i)).take granulesPerPart).flatMap granuleSlots)) s

/-- Send the positions [p, e) of one layer and span as KV messages; the side granules go in the last part. -/
def kvParts (q m page l : Nat) : Nat → Nat → Nat → State → State
  | 0, _, _, s => s
  | k + 1, p, e, s =>
    if e ≤ p then s
    else
      let n := min (e - p) (kvPerPart m s)
      let s1 := kvMessages q m l p n (kvRun m page l p n (p + n == e) s) s
      kvParts q m page l k (p + n) e s1

/-- Spans that the positions [a, b) touch. -/
def spansOf (a b : Nat) : List Nat := if a < b then (List.range ((b - 1) / 256 - a / 256 + 1)).map (a / 256 + ·) else []

/-- Send the positions of [a, b) that lie in a page under a sequence slot's name, layer by layer. -/
def mirrorPage (q m a b : Nat) (e : PageEntry) (s : State) : State :=
  forEach (List.range (poolL m s)) (fun l => kvParts q m e.page l 256 (max a (e.span * 256)) (min b (e.span * 256 + 256))) s

/-- Send the committed positions [a, b) of a sequence, span by span and layer by layer. A SHARED page is its prefix's to send. -/
def mirrorKv (q a b : Nat) (s : State) : State :=
  forEach (spansOf a b) (fun sp t =>
    match pageAt q sp t with
    | none => t
    | some e => if e.shared then t else mirrorPage q (seqSlot q s).model a b e t) s

/-- The state record of a sequence slot (R192). -/
def stateRecord (q : Nat) (s : State) : Slot16 :=
  let x := seqSlot q s
  natSlot (x.list + 2 ^ 35 * bitN x.used + 2 ^ 36 * x.model + 2 ^ 40 * x.len + 2 ^ 65 * x.hotlog)

/-- Granules of the sinter store of K or V of one head: one BF16 for each channel (R116). -/
def sinterGranules (m : Nat) (s : State) : Nat := poolD m s / 32

/-- The sinter store of a sequence that precedes position LEN, of K or V of one head; zero where no cell holds one (R116, R361). -/
def sinterPart (q l part : Nat) (s : State) : List Granule :=
  let data := match s.kv.stores.find? fun p => p.1 == q && p.2.layer == l && p.2.part == part && p.2.tag == (seqSlot q s).len with
    | some p => p.2.data
    | none => []
  (List.range (sinterGranules (seqSlot q s).model s)).map fun i => data.getD i 0

/-- The sinter store of one layer: K and V of every head in order (R116). -/
def sinterSlots (q l : Nat) (s : State) : List Slot16 :=
  (List.range (2 * poolKvh (seqSlot q s).model s)).flatMap fun part => (sinterPart q l part s).flatMap granuleSlots

/-- Store slots that one SEQSTATE carries beside a state record (R313). -/
def storesPerPart : Nat := 2046

/-- Send a layer's sinter stores, with the state record in the first part of the first layer (R312); a layer that exceeds a message goes
in several, each with its number above the layer in ARG, as the model packs it. -/
def mirrorLayer (q m l : Nat) (rec_ : Slot16) (xs : List Slot16) (s : State) : State :=
  forEach (List.range (max 1 (cdiv xs.length storesPerPart))) (fun i =>
    mirrorMsg 0x13 m (q + 2 ^ 12 * l + 2 ^ 20 * i)
      ((if l = 0 ∧ i = 0 then [rec_] else []) ++ (xs.drop (storesPerPart * i)).take storesPerPart)) s

/-- Send a sequence's state and KV sinter stores (R312). -/
def mirrorState (q : Nat) (s : State) : State :=
  let m := (seqSlot q s).model
  forEach (List.range (poolL m s)) (fun l t => mirrorLayer q m l (stateRecord q t) (sinterSlots q l t) t) s

/-- Slots of a COMMIT's sequence (R318), as the model packs them. -/
def commitSlots (q reqId step : Nat) (tokens : List Nat) (root thru : Nat) : List Slot16 :=
  natSlot (q + 2 ^ 32 * step + 2 ^ 64 * reqId) :: natSlot (tokens.length + 2 ^ 32 * root + 2 ^ 64 * thru) ::
    tokenSlots (cdiv tokens.length 4) tokens

/-- ARG of a PREFIX message: the handle. Its data: the sequence slot plus one, 0 for a removal, and Lp, as the model packs them. -/
def mirrorPfx (model handle : Nat) (seq : Option Nat) (lp : Nat) (s : State) : State :=
  if primary s then mirrorMsg 0x15 model handle [natSlot ((match seq with
      | some q => q + 1
      | none => 0) + 2 ^ 32 * lp)] s
  else s

/-- Close a commit group for ledger entry `i` (R318, R320): COMMIT, and the lag it adds. -/
def mirrorCommit (i model launch : Nat) (data : List Slot16) (s : State) : State :=
  let p := nextPsn 1 s
  let s1 := mirrorMsg 0x14 model (launch % 2 ^ 32 + beatNo s % 2 ^ 32 * 2 ^ 32) data s
  let s2 := { s1 with pair := { s1.pair with lag := s1.pair.lag ++ [(p, i)] } }
  when (decide (max 1 (rd F.PAIR_CFG.MAXLAG s2) ≤ s2.pair.lag.length)) (raise F.PAIR_STS.LAG_FULL) s2

/-- The mirror lags so far that no further Generate or Prefill step is filled (R320). -/
def lagFull (s : State) : Bool := primary s && decide (max 1 (rd F.PAIR_CFG.MAXLAG s) ≤ s.pair.lag.length)

/-- Commit groups of this sequence are mirrored: the mirror is in step, or SYNCING has copied the sequence (R324). -/
def seqMirrored (q : Nat) (s : State) : Bool := primary s && (!s.pair.syncing || s.pair.synced.contains q)

end Sys2Proof.Machine
end

