-- ==== Sys2Proof/Machine/Service.lean ====
section
/-!
DEFINITION. The command rings and their commands on requests and prefixes (R212 to R216, R225 to R228, R233), the end of steps
without replay, and a model slot that fails or closes (R239, R240, R453).
-/
namespace Sys2Proof.Machine
open Sys2Proof

/-! ### Rings (R212, R294) -/

/-- A telemetry base value. -/
def teleBase (k : Nat) (s : State) : Nat := Table.get (fun _ => 0) s.svc.telBase k

/-- Store one. -/
def setTeleBase (k n : Nat) (s : State) : State := { s with svc := { s.svc with telBase := Table.set (fun _ => 0) s.svc.telBase k n } }

/-- Key of what a slot's closed models have counted, by slot and count (R249). -/
def teleCarry (m k : Nat) : Nat := 3000 + 16 * m + k

/-- Keep the telemetry counts of a slot that is freed: the period's increase takes in all models that it held (R249). -/
def keepTele (m : Nat) (s : State) : State :=
  forEach (List.range 7) (fun k t => setTeleBase (teleCarry m k) (teleBase (teleCarry m k) t + (modelSlot m s).tele.getD k 0) t) s

/-- A ring's header has been read, or is read no more. -/
def markRead (k : Nat) (s : State) : State := { s with svc := { s.svc with unread := s.svc.unread.filter (· != k) } }

/-- Take PROD and CONS as starting indices (R212); the frames of the first telemetry period count from here. (DESIGN CHOICE, unsafe: log
entry 94.) -/
def setIndices (k p c : Nat) (s : State) : State :=
  if k < 8 then setCmdRing k ⟨p, c⟩ s
  else if k < 16 then setOutRing (k - 8) { outRing (k - 8) s with prod := p, cons := c, full := false } s
  else if k = 16 then { s with svc := { s.svc with telProd := p, telCons := c, telFrames := 0 } }
  else if k = 17 then { s with tune := { s.tune with prod := p, cons := c, next := c, examples := [] } }
  else { s with ocl := { s.ocl with evProd := p, evCons := c, evFull := false } }

/-- A header could not be read (R290): a command ring is disabled; another ring waits until a later read succeeds. -/
def ringUnread (k : Nat) (s : State) : State :=
  if k < 8 then wr (ringEnFld k) 0 (markRead k s)
  else if k < 16 then setOutRing (k - 8) { outRing (k - 8) s with full := true } s
  else if k = 18 then { s with ocl := { s.ocl with evFull := true } }
  else s

/-- New entries of a command ring are read (R294 step 2). -/
def readEntries (r old new : Nat) (s : State) : State :=
  let n := min (ringUsed new old) (2 ^ ringLog r s)
  forEach (List.range n) (fun i t => hostRead (entryAddr (ringBase r t) (ringLog r t) (old + i) 128) 1 false (.cmdRing r) t) s

/-- A header has been read when its ring was enabled (R212): the entries that stand in a command ring are read, and the watch begins
(R294). (DEDUCED, unsafe: log entry 35.) -/
def ringHeader (k p c : Nat) (s0 : State) : State :=
  let s := markRead k s0
  if 2 ^ ringLog k s < ringUsed p c then wr (ringEnFld k) 0 s
  else
    let s2 := watchRing k (setIndices k p c s)
    let s1 := if k < 8 then readEntries k c p s2 else s2
    if k = 18 then flushEvents s1 else if 8 ≤ k ∧ k < 16 then flushHeld (k - 8) s1 else if k = 17 then tuneFetch s1 else s1

/-- SIZE_LOG lets ENABLE be set (R251, R306). -/
def ringSizeOk (k : Nat) (s : State) : Bool := decide (4 ≤ ringLog k s) && decide (ringLog k s ≤ 16)

/-- A ring's ENABLE is set; until its header has been read it is not used (R212). -/
def beginRing (k : Nat) (s : State) : State :=
  wr (ringEnFld k) 1 { s with svc := { s.svc with unread := s.svc.unread.filter (· != k) ++ [k] } }

/-- RING_ENABLE (R212): the host enables a ring; the header as it was read, or none when the read failed twice.
(DEDUCED, unsafe: log entry 35.) -/
def ringEnable (k : Nat) (h : Option (Nat × Nat)) (s : State) : State :=
  if 19 ≤ k ∨ on (ringEnFld k) s ∨ !ringSizeOk k s then s
  else
    let s1 := beginRing k s
    match h with
    | none => ringUnread k s1
    | some (p, c) => ringHeader k (p % 2 ^ 32) (c % 2 ^ 32) s1

/-- RING_ENABLE. -/
def execRingEnable (k : Nat) (h : Option (Nat × Nat)) (s : State) : Host.Outcome State Fault Refusal := .next (ringEnable k h s)

/-! ### Taking a command entry (R213, R214) -/

/-- OP of a command entry. -/
def cmdOp (e : BitVec 1024) : Nat := fieldOf e 0 8

/-- Model slot. -/
def cmdModel (e : BitVec 1024) : Nat := fieldOf e 8 4

/-- Output ring of its results. -/
def cmdOut (e : BitVec 1024) : Nat := fieldOf e 12 3

/-- REQ_ID. -/
def cmdReq (e : BitVec 1024) : Nat := fieldOf e 32 64

/-- Bytes of a command entry as a number. -/
def cmdBytes (e : BitVec 1024) (at_ n : Nat) : Nat := fieldOf e (8 * at_) (8 * n)

/-- A reserved bit of the common part is set. -/
def commonReserved (e : BitVec 1024) : Bool := bitAt e 15 || fieldOf e 16 16 != 0

/-- The bytes from `a` up to `b` are not all zero. -/
def bytesSet (e : BitVec 1024) (a b : Nat) : Bool := fieldOf e (8 * a) (8 * (b - a)) != 0

/-- A command ring holds an entry to take. -/
def hasEntry (r : Nat) (s : State) : Bool :=
  on (F.CMD_RING_CFG.ENABLE r) s && !s.svc.unread.contains r && (cmdRing r s).prod != (cmdRing r s).cons

/-- The command ring whose turn it is among those that hold an entry (R213). -/
def turnRing (s : State) : Option Nat := ((List.range 8).map fun i => (s.svc.turn + i) % 8).find? fun r => hasEntry r s

/-- The W3 may take this entry from this ring now, as the command `op` (R213, R284, R237): a reserved OP is taken by the first.
(DESIGN CHOICE, unsafe: log entry 2.) (DEDUCED, unsafe: log entry 32.) -/
def cmdReady (r op : Nat) (e : BitVec 1024) (s : State) : Bool :=
  turnRing s == some r && ready s && serving s && oclServes s &&
    s.svc.opening.isNone &&
    (cmdOp e == op || (op == 1 && (cmdOp e == 0 || decide (9 < cmdOp e))))

/-- The module is a mirror, or waits as one (R324, R329). (DEDUCED, unsafe: log entry 32.) -/
def asMirror (s : State) : Bool :=
  let st := rd F.PAIR_STATE.STATE s
  st == 2 || st == 4 || st == 7 || ((st == 6 || (st == 1 && s.pair.frozen)) && !on F.PAIR_STATE.SENIOR s)

/-- The slot holds the back half of a split model (R316, R334). -/
def splitBack (m : Nat) (s : State) : Bool := on (F.SPLIT_CTRL.EN m) s && rd F.PAIR_CFG.MODE s == 2 && !on F.PAIR_STATE.SENIOR s

/-- A ring has had its turn (R213). -/
def passTurn (r : Nat) (s : State) : State := { s with svc := { s.svc with turn := (r + 1) % 8 } }

/-- An entry that must wait keeps no other ring from its turn (R213). -/
def waitEntry (r op : Nat) (e : BitVec 1024) (s : State) : State := if cmdReady r op e s then passTurn r s else s

/-- CONS passes a command entry; one taken without error a primary mirrors first (R212, R318). -/
def passEntry (r code : Nat) (e : BitVec 1024) (s : State) : State :=
  let s1 := if code = 0 ∧ 1 ≤ cmdOp e ∧ cmdOp e ≤ 4 then mirrorCmd (cmdModel e) e s else s
  let c := cmdRing r s1
  let cons := (c.cons + 1) % 2 ^ 32
  sendWrPart (ringBase r s1 + 64) (natToBytes 4 cons) [] (setCmdRing r { c with cons := cons } (passTurn r s1))

/-- Lowest error code among the causes that apply (R214); 0 for none. -/
def errorCode (resv st lim : Bool) : Nat := if resv then 1 else if st then 2 else if lim then 3 else 0

/-- Take an entry: an ERROR entry for the code, otherwise the command's own action (R214). -/
def takeEntry (r op : Nat) (e : BitVec 1024) (code : Nat) (act : State → State) (s : State) : State :=
  if cmdReady r op e s then
    let s1 := passEntry r code e s
    if code = 0 then act s1 else putError (cmdOut e) (cmdModel e) (cmdReq e) code s1
  else s

/-- State of a model slot: 0 FREE, 1 LOADING, 2 RUNNABLE, 3 FAILED. -/
def slotSt (m : Nat) (s : State) : Nat := rd (F.MODEL_SCHED.STATE m) s

/-- A slot that a request may name: it holds a model that does not close. -/
def slotOpen (m : Nat) (s : State) : Bool := slotSt m s != 0 && !(modelSlot m s).closing

/-! ### Tree shapes (R185, R228) -/

/-- Depth of row `i` of a shape. `n` bounds the walk. -/
def rowDepth (sh : Shape) : Nat → Nat → Nat
  | 0, _ => 0
  | n + 1, i => if i = 0 then 0 else 1 + rowDepth sh n (sh.parents.getD (i - 1) 0)

/-- Depth of a shape. -/
def shapeDepth (sh : Shape) : Nat := ((List.range sh.count).map (rowDepth sh 17)).foldl max 0

/-- The shape a request names (R228); shape 0 is one row. -/
def shapeOf (m sh : Nat) (s : State) : Shape := if sh = 0 then ⟨1, []⟩ else (modelSlot m s).shapes.getD (sh - 1) ⟨0, []⟩

/-- A shape passes R228: 1 to 17 rows, parents before their rows, within HEADS and GEN_ROWS. -/
def shapeOk (m sh : Nat) (s : State) : Bool :=
  let x := shapeOf m sh s
  sh == 0 || (decide (1 ≤ x.count) && decide (x.count ≤ 17) &&
    ((List.range (x.count - 1)).all fun i => decide (x.parents.getD i 0 < i + 1)) &&
    decide (shapeDepth x ≤ rd (F.MODEL_SVC.HEADS m) s) && decide (x.count ≤ rd (F.MODEL_SVC.GEN_ROWS m) s))

/-! ### SUBMIT and PREFIX_CREATE -/

/-- TEMP breaks its layout (R213): not finite, or negative and nonzero after conversion. -/
def tempBad (t : BitVec 16) : Bool :=
  let w := ofBf16 t
  !isFin w || (fpNeg w && !isZero w)

/-- Reserved bits of SUBMIT and PREFIX_CREATE. -/
def submitReserved (e : BitVec 1024) : Bool :=
  commonReserved e || fieldOf e 339 5 != 0 || fieldOf e 347 5 != 0 || bytesSet e 58 60 || bytesSet e 80 128

/-- Limits of the layout (R213, R214). -/
def submitLimit (e : BitVec 1024) (s : State) : Bool :=
  let m := cmdModel e
  cmdBytes e 20 4 == 0 || (cmdOp e == 1 && cmdBytes e 32 4 == 0) || (cmdOp e == 3 && cmdBytes e 32 4 != 0) ||
    tempBad (BitVec.ofNat 16 (cmdBytes e 36 2)) || decide (1024 < cmdBytes e 40 2) ||
    (cmdOp e == 1 && slotSt m s == 2 && !shapeOk m (fieldOf e 336 3) s)

/-- The request that an entry makes. -/
def newRequest (e : BitVec 1024) (uses : Bool) (lp : Nat) (s : State) : Request :=
  { id := s.svc.nextReq, isPrefix := cmdOp e == 3, model := cmdModel e, ring := cmdOut e, reqId := cmdReq e,
    handle := cmdBytes e 12 8, usesHandle := uses, ntok := cmdBytes e 20 4, tokAddr := cmdBytes e 24 8,
    maxNew := cmdBytes e 32 4, temp := BitVec.ofNat 16 (cmdBytes e 36 2), topP := cmdBytes e 38 2, topK := cmdBytes e 40 2,
    shape := fieldOf e 336 3, hot := fieldOf e 344 3, seed := cmdBytes e 44 8, firstDl := cmdBytes e 52 6,
    stepBeats := cmdBytes e 60 4,
    stops := ((List.range 4).map fun i => cmdBytes e (64 + 4 * i) 4).filter (· != 0xFFFFFFFF),
    state := .queued, deferredOnce := false, reason := 0, seq := 0, lp := lp, tokens := none, launched := 0, prefilled := 0,
    step := 0, generated := 0, delivered := 0, thru := 0, next := [], inStep := false, readyAt := 0, filling := false, lastCommit := none,
    cancels := [], ending := none }

/-- Join the admission queue (R213). -/
def enqueue (q : Request) (s : State) : State :=
  { s with svc := { s.svc with reqs := s.svc.reqs ++ [q], nextReq := s.svc.nextReq + 1 } }

/-- A handle that a SUBMIT may start from (R226). -/
def usableHandle (m h : Nat) (s : State) : Option PfxEntry :=
  match pfxEntry h s with
  | some p => if p.pending || p.released || p.model != m then none else some p
  | none => none

/-- A SUBMIT taken without error (R213, R226). -/
def submitAct (e : BitVec 1024) (s : State) : State :=
  let h := cmdBytes e 12 8
  if h = 0 then enqueue (newRequest e false 0 s) s
  else match usableHandle (cmdModel e) h s with
    | some p => enqueue (newRequest e true p.lp s) (modPfx h (fun x => { x with users := x.users + 1 }) s)
    | none => refuseHandle (cmdOut e) (cmdModel e) (cmdReq e) false s

/-- A PREFIX_CREATE taken without error (R225). -/
def prefixCreateAct (e : BitVec 1024) (s : State) : State :=
  let h := cmdBytes e 12 8
  if h = 0 ∨ (pfxEntry h s).isSome ∨ 65536 ≤ s.svc.pfx.length then
    refuseHandle (cmdOut e) (cmdModel e) (cmdReq e) true s
  else
    let p : PfxEntry := { handle := h, model := cmdModel e, pending := true, released := false, users := 0, pages := [],
                          lp := 0, releasers := [], sinter := [] }
    enqueue (newRequest e false 0 s) { s with svc := { s.svc with pfx := s.svc.pfx ++ [p] } }

/-- Error code of a request entry on this module. -/
def requestCode (e : BitVec 1024) (s : State) : Nat :=
  if cmdOp e = 0 ∨ 9 < cmdOp e then 1
  else
    let c := errorCode (submitReserved e) (!slotOpen (cmdModel e) s || splitBack (cmdModel e) s) (submitLimit e s)
    if c = 0 ∧ asMirror s then 5 else c

/-- SUBMIT (R213); an entry with a reserved OP ends here, in an ERROR entry (R214). (DEDUCED, unsafe: log entry 32.) -/
def submit (r : Nat) (e : BitVec 1024) (s : State) : State := takeEntry r 1 e (requestCode e s) (submitAct e) s

/-- SUBMIT. -/
def execSubmit (r : Nat) (e : BitVec 1024) (s : State) : Host.Outcome State Fault Refusal := .next (submit r e s)

/-- PREFIX_CREATE (R225). -/
def prefixCreate (r : Nat) (e : BitVec 1024) (s : State) : State := takeEntry r 3 e (requestCode e s) (prefixCreateAct e) s

/-- PREFIX_CREATE. -/
def execPrefixCreate (r : Nat) (e : BitVec 1024) (s : State) : Host.Outcome State Fault Refusal := .next (prefixCreate r e s)

/-! ### CANCEL and PREFIX_RELEASE -/

/-- The request that a CANCEL acts on (R233): the one taken first. -/
def cancelTarget (m reqId : Nat) (s : State) : Option Request := s.svc.reqs.find? fun q => q.reqId == reqId && q.model == m

/-- Cancel a request (R233). -/
def cancelAct (m out reqId target : Nat) (s : State) : State :=
  match cancelTarget m target s with
  | none => putError out m reqId 4 s
  | some q =>
    endWhenQuiet q.id 4 (modRequest q.id (fun x => { x with cancels := x.cancels ++ [(m, out, reqId)] }) s)

/-- Error code of an entry whose layout ends at byte `n`; the back of a split model takes none (R334). -/
def shortCode (e : BitVec 1024) (n : Nat) (s : State) : Nat :=
  let c := errorCode (commonReserved e || bytesSet e n 128) (splitBack (cmdModel e) s) false
  if c = 0 ∧ asMirror s then 5 else c

/-- Error code of a CANCEL (R214, R233): one that finds no request is UNKNOWN, on a mirror too. -/
def cancelCode (e : BitVec 1024) (s : State) : Nat :=
  let c := shortCode e 20 s
  if (c = 0 ∨ c = 5) ∧ (cancelTarget (cmdModel e) (cmdBytes e 12 8) s).isNone then 4 else c

/-- CANCEL (R233). -/
def cancel (r : Nat) (e : BitVec 1024) (s : State) : State :=
  takeEntry r 2 e (cancelCode e s) (cancelAct (cmdModel e) (cmdOut e) (cmdReq e) (cmdBytes e 12 8)) s

/-- CANCEL. -/
def execCancel (r : Nat) (e : BitVec 1024) (s : State) : Host.Outcome State Fault Refusal := .next (cancel r e s)

/-- Release a handle (R227); one that is pending, released already or unknown ends with status HANDLE. -/
def prefixReleaseAct (m out reqId h : Nat) (s : State) : State :=
  match usableHandle m h s with
  | none => putCmdDone out m reqId 0x0B 0 s
  | some _ => withdrawPfx h (modPfx h (fun x => { x with releasers := x.releasers ++ [(m, out, reqId)] }) s)

/-- PREFIX_RELEASE (R227). -/
def prefixRelease (r : Nat) (e : BitVec 1024) (s : State) : State :=
  takeEntry r 4 e (shortCode e 20 s) (prefixReleaseAct (cmdModel e) (cmdOut e) (cmdReq e) (cmdBytes e 12 8)) s

/-- PREFIX_RELEASE. -/
def execPrefixRelease (r : Nat) (e : BitVec 1024) (s : State) : Host.Outcome State Fault Refusal := .next (prefixRelease r e s)

/-! ### Steps that end without replay -/

/-- The rings of a step's reserved entries (R215). -/
def reservedRings (e : LedgerEntry) (s : State) : List Nat :=
  (e.seqs.filter (·.reserved)).filterMap fun q => (request q.req s).map (·.ring)

/-- Requests of a step are in no step any more. -/
def outOfStep (e : LedgerEntry) (s : State) : State :=
  forEach e.seqs (fun q => modRequest q.req (fun x => { x with inStep := false })) s

/-- Abandon a step (R240, R358): its entry returns to FREE, its reservations are given back. -/
def abandonStep (e : LedgerEntry) (s : State) : State :=
  abandonLedger e.index (outOfStep e (forEach (e.seqs.map (·.seq)) discardKv (forEach (reservedRings e s) unreserve s)))

/-- Uncommitted steps of a model. -/
def uncommitted (m : Nat) (s : State) : List LedgerEntry :=
  s.ledger.entries.filter fun e => e.model == m && e.state != .committed

/-- Requests of a model that run, in order of taking. -/
def runningReqs (m : Nat) (s : State) : List Nat := (s.svc.reqs.filter fun q => q.model == m && q.admitted).map (·.id)

/-- Requests of a model that wait for admission. -/
def waitingReqs (m : Nat) (s : State) : List Nat := (s.svc.reqs.filter fun q => q.model == m && !q.admitted).map (·.id)

/-- RUN is cleared in a model's cells. -/
def stopCells (m : Nat) (s : State) : State :=
  forEach (image m s).cells (fun c => modCell c (fun x => { x with run := false, inIter := false, lateSync := false, stall := .none })) s

/-- A model slot takes FAILED (R240). -/
def failSlot (m : Nat) (s : State) : State :=
  let s1 := forEach (uncommitted m s) abandonStep (wr (F.MODEL_SCHED.STATE m) 3 s)
  let s2 := forEach (runningReqs m s1) (fun id => endRequest id 7) s1
  modImage m (fun i => { i with running := false, toStart := false }) (stopCells m s2)

/-! ### Closing a model (R239) -/

/-- A running load check of the slot is abandoned (R511). -/
def abandonCheck (m : Nat) (s : State) : State :=
  if s.sched.checking.any (·.model == m) then
    wr F.LOAD_STATE.FAIL 0 (wr F.LOAD_STATE.PASS 0 (wr F.LOAD_STATE.BUSY 0
      (dropFetches (fun u => (List.range 6).any fun p => u == .check m p) { s with sched := { s.sched with checking := none } })))
  else s

/-- CMD_DONE of a LOAD_RECEIVE, with the segments placed (R246). -/
def endReceive (m status : Nat) (s : State) : State :=
  match (modelSlot m s).recv with
  | none => s
  | some r =>
    when (status == 0x0C) (raise F.SVC_STS.LOAD)
      (putCmdDone r.ring m r.reqId status r.placed (modModelSlot m (fun x => { x with recv := none }) s))

/-- A LOAD_WEIGHTS in progress ends; what it still had to pass on is not sent. -/
def endLoading (m status : Nat) (s : State) : State :=
  match (modelSlot m s).loading with
  | none => s
  | some (ring, reqId) =>
    let s1 := dropFetches (fun u => (List.range 3).any fun p => u == .load m p)
      (modModelSlot m (fun x => { x with loading := none, job := .reset }) s)
    when (status == 0x0C || status == 0x0D) (raise F.SVC_STS.LOAD)
      (putCmdDone ring m reqId status 0 { s1 with pair := { s1.pair with passWait := s1.pair.passWait.filter (·.key != (ring, reqId)) } })

/-- Begin a close or an eviction (R239, steps 1 to 4); a pending handle leaves with its PREFIX_CREATE (R225). -/
def beginClose (m : Nat) (s : State) : State :=
  let s1 := modModelSlot m (fun x => { x with closing := true }) s
  let s2 := forEach (waitingReqs m s1) (fun id => endRequest id 5) s1
  let s3 := forEach (runningReqs m s2) (fun id => endWhenQuiet id 5) s2
  let s4 := forEach ((s3.svc.pfx.filter fun e => e.model == m && !e.pending).map (·.handle)) withdrawPfx s3
  tuneEvict m (endLoading m 5 (endReceive m 5 (abandonCheck m s4)))

/-- Zeroise the memory of one cell (R452, R453). -/
def zeroCell (c : Nat) (s : State) : State :=
  modCell c (fun x => { x with shadow0 := 0, fetch := [], writeBack := [], corrected := [] })
    { s with cellMem := Table.clear s.cellMem (c * cellBytes) cellBytes }

/-- Zeroise every cell of a field. -/
def zeroField (f : Nat) (s : State) : State := forEach (fieldCells f) zeroCell s

/-- Nothing of the model is in flight. -/
def closeQuiet (m : Nat) (s : State) : Bool :=
  !(s.ledger.entries.any (·.model == m)) && !(s.svc.reqs.any (·.model == m))

/-- Drop what is left of a model's sequences, handles and pages: its stack area is zeroised whole (R453). -/
def dropKv (m : Nat) (s : State) : State :=
  let s1 := forEach ((s.svc.pfx.filter (·.model == m)).map (·.handle)) finishPfx s
  { s1 with kv := { s1.kv with
      seqs := s1.kv.seqs.filter fun p => p.2.model != m
      clearing := s1.kv.clearing.filter fun c => c.model != m
      releases := s1.kv.releases.filter fun r => !((image m s1).cells.contains r.1) } }

/-- Zeroise what a closed model held, and free its slot (R239 steps 5 and 6, R453). -/
def freeSlot (m : Nat) (s : State) : State :=
  let s1 := disablePool m (dropKv m (stopCells m (keepTele m s)))
  let s2 := forEach (modelSlot m s).fields zeroField s1
  let s3 := stackZero (rd (F.STACK_AREA.VALUE m) s * 65536) (rd (F.STACK_SIZE.VALUE m) s * 65536) s2
  let s4 := forEach (poolRegions m s) (fun r => stackZero r.1 r.2) s3
  let s5 := { s4 with
    sched := { s4.sched with
      ringCopy := Table.clear s4.sched.ringCopy (m * 1024) 1024
      images := Table.clear s4.sched.images m 1 }
    prec := { s4.prec with
      layers := Table.mapVals (fun _ => LayerPrec.reset) (fun k v => if k / 256 = m then { v with granted := false, wide := false, remain := 0 } else v) s4.prec.layers
      waiting := s4.prec.waiting.filter fun w => w.model != m
      carried := s4.prec.carried.filter fun w => w.model != m
      fixed := s4.prec.fixed.filter fun w => w.change.model != m
      outgoing := s4.prec.outgoing.filter fun x => x.model != m }
    svc := { s4.svc with models := Table.clear s4.svc.models m 1 } }
  let wide := (s.prec.layers.filter fun p => p.1 / 256 == m && p.2.granted).length
  s5 |> wr F.PREC_FRAME.WIDE_NOW (rd F.PREC_FRAME.WIDE_NOW s5 - wide) |> wr (F.STACK_AREA.VALUE m) 0
    |> wr (F.STACK_SIZE.VALUE m) 0 |> wr (F.MODEL_USE.VALUE m) 0 |> wr (F.MODEL_SCHED.STATE m) 0

/-! ### OPEN_MODEL (R237, R238) -/

/-- Fields reserved by slots other than those listed. -/
def takenFields (but : List Nat) (s : State) : List Nat :=
  ((List.range 16).filter fun m => slotSt m s != 0 && !but.contains m).flatMap fun m => (modelSlot m s).fields

/-- The 36 fields of a T36 window (R26). -/
def windowFields (fx fy : Nat) : List Nat :=
  (List.range 6).flatMap fun y => (List.range 6).map fun x => (fy + y) * 9 + fx + x

/-- Fields that an OPEN_MODEL would take, with the models listed gone; none where there is no room. -/
def pickFields (o : Opening) (but : List Nat) (s : State) : Option (List Nat) :=
  let taken := takenFields but s
  if bitsOf o.flags 2 1 = 1 then
    (((List.range 12).map fun k => windowFields (k % 4) (k / 4)).find? fun w => w.all fun f => !taken.contains f)
  else
    let free := ((List.range 72).filter fun f => !taken.contains f).take o.fields
    if free.length = o.fields then some free else none

/-- Stack areas reserved by slots other than those listed, in 64 KiB units. -/
def takenAreas (but : List Nat) (s : State) : List (Nat × Nat) :=
  ((List.range 16).filter fun m => slotSt m s != 0 && !but.contains m).map fun m =>
    (rd (F.STACK_AREA.VALUE m) s, rd (F.STACK_SIZE.VALUE m) s)

/-- The lowest free contiguous stack area of `n` units (R237). -/
def pickStack (n : Nat) (but : List Nat) (s : State) : Option Nat :=
  let areas := takenAreas but s
  let fits := fun b => decide ((b + n) * 65536 ≤ stackCapacity s) && areas.all fun a => !overlap (b, n) a
  let bases := (0 :: areas.map fun a => a.1 + a.2).filter fits
  match bases with
  | [] => none
  | b :: bs => some (bs.foldl min b)

/-- There is room with the models listed gone. -/
def roomFor (o : Opening) (but : List Nat) (s : State) : Bool := (pickFields o but s).isSome && (pickStack o.stack but s).isSome

/-- Order of victims: lower `MODEL_USE` first, then opened earlier. -/
def victimBefore (s : State) (a b : Nat) : Bool :=
  let ua := rd (F.MODEL_USE.VALUE a) s
  let ub := rd (F.MODEL_USE.VALUE b) s
  decide (ua < ub) || (ua == ub && decide ((modelSlot a s).opened ≤ (modelSlot b s).opened))

/-- Insert into an ordered list. -/
def insertBy (before : Nat → Nat → Bool) (a : Nat) : List Nat → List Nat
  | [] => [a]
  | b :: bs => if before a b then a :: b :: bs else b :: insertBy before a bs

/-- Candidate victims in order (R238). -/
def victims (s : State) : List Nat :=
  let failed := (List.range 16).filter fun m => slotSt m s == 3 && !(modelSlot m s).closing
  let run := (List.range 16).filter fun m => slotSt m s == 2 && !on (F.MODEL_SVC.PINNED m) s && !(modelSlot m s).closing
  failed ++ run.foldl (fun l m => insertBy (victimBefore s) m l) []

/-- The shortest leading run of victims that leaves room. `n` bounds the search. -/
def shortestRun (o : Opening) (vs : List Nat) (s : State) : Nat → Nat → Option (List Nat)
  | 0, _ => none
  | n + 1, k => if roomFor o (vs.take k) s then some (vs.take k) else shortestRun o vs s n (k + 1)

/-- The slot is claimed (R237): LOADING, with its reservation; CMD_DONE returns it. -/
def claimSlot (o : Opening) (fs : List Nat) (base : Nat) (s : State) : State :=
  let x : ModelSlot := { ModelSlot.reset with fields := fs, opened := s.svc.nextOpen }
  let s1 := setModelSlot o.model x { s with svc := { s.svc with nextOpen := s.svc.nextOpen + 1, opening := none },
                                            sec := { s.sec with zeroised := false } }
  let mask := fs.foldl (fun acc f => acc + 2 ^ f) 0
  s1 |> wr (F.STACK_AREA.VALUE o.model) base |> wr (F.STACK_SIZE.VALUE o.model) o.stack
    |> wr (F.MODEL_SVC.PINNED o.model) (bitsOf o.flags 1 1) |> wr (F.MODEL_SCHED.STATE o.model) 1
    |> putCmdDone o.ring o.model o.reqId 0 (mask + base * 2 ^ 128)

/-- Claim the slot when there is room now; end with NOROOM where none can come. -/
def tryClaim (o : Opening) (s : State) : State :=
  match pickFields o [] s, pickStack o.stack [] s with
  | some fs, some b => claimSlot o fs b s
  | _, _ => putCmdDone o.ring o.model o.reqId 0x0A 0 { s with svc := { s.svc with opening := none } }

/-- OPEN_MODEL taken without error (R237, R238). -/
def openAct (e : BitVec 1024) (s : State) : State :=
  let o : Opening := { model := cmdModel e, ring := cmdOut e, reqId := cmdReq e, fields := cmdBytes e 12 2,
                       stack := cmdBytes e 16 4, flags := cmdBytes e 20 1, victims := [] }
  if roomFor o [] s then tryClaim o s
  else if bitsOf o.flags 0 1 = 0 then tryClaim o s
  else
    let vs := victims s
    match shortestRun o vs s (vs.length + 1) 0 with
    | none => tryClaim o s
    | some run =>
      raise F.SVC_STS.EVICT (forEach run beginClose { s with svc := { s.svc with opening := some { o with victims := run } } })

/-- Error code of an OPEN_MODEL. -/
def openCode (e : BitVec 1024) (s : State) : Nat :=
  let n := cmdBytes e 12 2
  errorCode (commonReserved e || bytesSet e 14 16 || fieldOf e 163 5 != 0 || bytesSet e 21 128) (slotSt (cmdModel e) s != 0)
    (n == 0 || decide (72 < n) || (bitAt e 162 && n != 36))

/-- OPEN_MODEL (R237). -/
def openModel (r : Nat) (e : BitVec 1024) (s : State) : State := takeEntry r 5 e (openCode e s) (openAct e) s

/-- OPEN_MODEL. -/
def execOpenModel (r : Nat) (e : BitVec 1024) (s : State) : Host.Outcome State Fault Refusal := .next (openModel r e s)

/-- CLOSE_MODEL taken without error (R239): it begins a close, or joins one. -/
def closeAct (e : BitVec 1024) (s : State) : State :=
  let m := cmdModel e
  let s1 := modModelSlot m (fun x => { x with closers := x.closers ++ [(cmdOut e, cmdReq e)] }) s
  if (modelSlot m s).closing then s1 else beginClose m s1

/-- CLOSE_MODEL (R239). -/
def closeModel (r : Nat) (e : BitVec 1024) (s : State) : State :=
  takeEntry r 6 e (errorCode (commonReserved e || bytesSet e 12 128) (slotSt (cmdModel e) s == 0) false) (closeAct e) s

/-- CLOSE_MODEL. -/
def execCloseModel (r : Nat) (e : BitVec 1024) (s : State) : Host.Outcome State Fault Refusal := .next (closeModel r e s)

/-- An OPEN_MODEL that waited for this slot goes on (R237). -/
def resumeOpen (m : Nat) (s : State) : State :=
  match s.svc.opening with
  | none => s
  | some o =>
    let o1 := { o with victims := o.victims.filter (· != m) }
    let s1 := { s with svc := { s.svc with opening := some o1 } }
    if o1.victims.isEmpty then tryClaim o1 s1 else s1

/-- CLOSE_COMPLETE (R239, R453): nothing of a closing model is in flight; the slot is cleared and freed. -/
def closeComplete (m : Nat) (s : State) : State :=
  if m < 16 ∧ (modelSlot m s).closing ∧ closeQuiet m s then
    let cs := (modelSlot m s).closers
    resumeOpen m (forEach cs (fun c => putCmdDone c.1 m c.2 0 0) (freeSlot m s))
  else s

/-- PINNED_WRITE (R252): in every state but FREE. -/
def pinnedWrite (m : Nat) (b : Bool) (s : State) : State := if m < 16 ∧ slotSt m s ≠ 0 then wrB (F.MODEL_SVC.PINNED m) b s else s

/-- PINNED_WRITE. -/
def execPinnedWrite (m : Nat) (b : Bool) (s : State) : Host.Outcome State Fault Refusal := .next (pinnedWrite m b s)

end Sys2Proof.Machine
end

