-- ==== Sys2Proof/Machine/Loading.lean ====
section
/-!
DEFINITION. Weight loading, pass-on and readback (R242 to R247, R333), and the KV-Move that fills a hot window (R226).
-/
namespace Sys2Proof.Machine
open Sys2Proof

/-- Hops of weight data for a cell along its chain of fields (R244): 24 hops a field northward or southward, 128 from column to column
of fields, and the way inside the target's field. (DESIGN CHOICE, unsafe: log entry 26.) -/
def chainHops (c : Nat) : Nat :=
  let f := fieldOfCell c
  let fx := f % 9
  let fy := f / 9
  let k := if fx ≤ 3 then 3 - fx else if fx = 4 then 0 else fx - 5
  let pos := if k % 2 = 0 then fy else 7 - fy
  24 * (7 * k + pos) + 128 * k + rowOf c + colOf c

/-- Charge Weight-Load for granules bound for a cell (R165, R243). -/
def chargeLoad (c n : Nat) (s : State) : State :=
  chargeEnergy 3 (energyHop 3) (n * chainHops c) (charge 3 0 (n * chainHops c) s)

/-- Cell by which data of a slice leave their chain: its cell, or for KIND 2 the request cell of the stack that holds STADDR (R244). (DESIGN
CHOICE, unsafe: log entry 95.) -/
def sliceCell (x : Slice) (s : State) : Nat := if x.kind = 2 then requestCell (stackOf x.staddr s) else x.cell

/-- Write one word of cell configuration space as the loader does; the answer of R60 goes to no host access. -/
def loadWord (c a : Nat) (d : Word) (s : State) : State :=
  let s1 := writeCfg c a d .quiet s
  { s1 with agent := s.agent, mesh := { s1.mesh with links := s.mesh.links } }

/-- The 16 words of a granule, written from a word address on. -/
def loadWords (c a : Nat) (g : Granule) (s : State) : State :=
  forEach (List.range 16) (fun i => loadWord c (a + i) (BitVec.ofNat 32 (fieldOf g (32 * i) 32))) s

/-- Place one granule of a slice (R242). -/
def placeGranule (x : Slice) (o : Nat) (g : Granule) (s : State) : State :=
  if x.kind = 0 then loadGranule x.cell (x.start + o) g s
  else if x.kind = 1 then loadWords x.cell (x.start + 16 * o) g s
  else setStackGranule (x.staddr + 64 * o) g s

/-- Place granules of a slice from an offset on. -/
def placeGranules (x : Slice) : Nat → List Granule → State → State
  | _, [], s => s
  | o, g :: gs, s => placeGranules x (o + 1) gs (placeGranule x o g s)

/-- Place a segment (R243), charged to Weight-Load. -/
def placeSegment (x : Slice) (o : Nat) (gs : List Granule) (s : State) : State :=
  let n := gs.length
  let s1 := chargeLoad (sliceCell x s) n (placeGranules x o gs s)
  if x.kind = 2 then countSpan true (x.staddr + 64 * o) n (chargeEnergy 3 energyStack (64 * n) (charge 3 1 (64 * n) s1)) else s1

/-- The slice of a map that a segment may be placed in (R243): it exists, its KIND is not reserved, and the segment fits. -/
def segmentSlice (slices : List Slice) (id o n : Nat) : Option Slice :=
  match slices[id]? with
  | some x => if x.kind ≠ 3 ∧ o + n ≤ x.len then some x else none
  | none => none

/-- Place segments until one fails; true when all were placed. -/
def placeAll (slices : List Slice) : List (Option Segment) → State → Bool × State
  | [], s => (true, s)
  | none :: _, s => (false, s)
  | some g :: gs, s =>
    match segmentSlice slices g.slice g.off g.data.length with
    | some x => placeAll slices gs (placeSegment x g.off g.data s)
    | none => (false, s)

/-- A FAILED slot that is loaded again returns to LOADING (R240). -/
def reloadSlot (m : Nat) (s : State) : State := if slotSt m s = 3 then wr (F.MODEL_SCHED.STATE m) 1 s else s

/-! ### Pass-on (R245, R333) -/

/-- First data slot of a PASS message. -/
def passSlot (slice off len : Nat) (last : Bool) : Slot16 := natSlot (slice + 2 ^ 32 * off + 2 ^ 64 * len + 2 ^ 96 * bitN last)

/-- The parts of a segment, of at most 511 granules each. `n` bounds the parts. -/
def passParts (m manifest slice : Nat) (key : Nat × Nat) : Nat → Nat → List Granule → List PassPart
  | 0, _, _ => []
  | n + 1, off, gs =>
    let rest := gs.drop 511
    let p : PassPart := { model := m, manifest := manifest, key := key, slice := slice, off := off, last := rest.isEmpty, data := gs.take 511 }
    if rest.isEmpty then [p] else p :: passParts m manifest slice key n (off + 511) rest

/-- Send one part as a PASS message, charged to Weight-Load (R165, R333). -/
def sendPart (p : PassPart) (s : State) : State :=
  let n := p.data.length * hops agentCell (spanGateway 0 agentCell)
  let s1 := sendSpan 0x20 p.model p.manifest (passSlot p.slice p.off p.data.length p.last :: p.data.flatMap granuleSlots)
    (chargeEnergy 3 (energyHop 3) n (charge 3 0 n s))
  { s1 with pair := { s1.pair with passSent := s1.pair.passSent ++ [p.key] } }

/-- Send the parts that wait, while Weight-Load is not held (R167). -/
def flushPassList : List PassPart → State → List PassPart × State
  | [], s => ([], s)
  | p :: ps, s => if held 3 s then (p :: ps, s) else flushPassList ps (sendPart p s)

/-- Send what waits to be passed on. -/
def flushPass (s : State) : State :=
  let r := flushPassList s.pair.passWait s
  { r.2 with pair := { r.2.pair with passWait := r.1 } }

/-- Pass every segment on. (DEDUCED, unsafe: log entry 33.) -/
def passAll (m manifest : Nat) (key : Nat × Nat) (segs : List (Option Segment)) (s : State) : State :=
  let ps := segs.flatMap fun g => match g with
    | some x => passParts m manifest x.slice key (cdiv x.data.length 511 + 1) x.off x.data
    | none => []
  flushPass { s with pair := { s.pair with passWait := s.pair.passWait ++ ps } }

/-- Pass-on parts of a LOAD_WEIGHTS that have not been answered (R333). -/
def passOpen (key : Nat × Nat) (s : State) : Bool := s.pair.passSent.contains key || s.pair.passWait.any (·.key == key)

/-- Pass-on works in every MODE but NONE while a port is ACTIVE (R333). -/
def canPass (s : State) : Bool := rd F.PAIR_CFG.MODE s != 0 && !(activePorts s).isEmpty

/-! ### LOAD_WEIGHTS -/

/-- A slot that weights may be loaded into. -/
def loadable (m : Nat) (s : State) : Bool := (slotSt m s == 1 || slotSt m s == 3) && !(modelSlot m s).closing

/-- Address of a model's slice map. -/
def sliceMapAddr (m : Nat) (s : State) : Nat := addr64 (O.SLICE_MAP m) (O.SLICE_MAP_HI m) s

/-- A slice map entry from its 32 bytes (R242). -/
def sliceOf (g : Nat) : Slice :=
  { cell := bitsOf g 0 18, kind := bitsOf g 30 2, start := bitsOf g 32 32, len := bitsOf g 64 32, staddr := bitsOf g 128 64 }

/-- A segment list entry from its 24 bytes (R243). -/
def segOf (g : Nat) : SegRec := { slice := bitsOf g 0 32, off := bitsOf g 32 32, len := bitsOf g 64 32, addr := bitsOf g 128 64 }

/-- The granules of bytes read. -/
def granulesOf (bs : List Byte) : List Granule := (recordsOf 64 bs).map fun n => BitVec.ofNat 512 n

/-- Every segment of a LOAD_WEIGHTS has been placed (R243, R245). -/
def loadPlaced (m : Nat) (key : Nat × Nat) (s : State) : State :=
  let j := (modelSlot m s).job
  let s1 := modModelSlot m (fun x => { x with manifest := j.manifest }) s
  if !j.pass then endLoading m 0 s1
  else if !canPass s1 then endLoading m 0x0D s1
  else if passOpen key s1 then s1
  else endLoading m (if s1.pair.passDrop.contains key then 0x0D else 0) s1

/-- Reads of a LOAD_WEIGHTS are not at their end. -/
def loadReading (m : Nat) (s : State) : Bool :=
  !(modelSlot m s).job.todo.isEmpty || (List.range 3).any fun p => (fetchOf (.load m p) s).isSome

/-- Go on with a LOAD_WEIGHTS (R243): the next segment's data are read, unless it names no place for them; while Weight-Load is held
nothing further is read (R167). -/
def loadNext (m : Nat) (s : State) : State :=
  match (modelSlot m s).loading, (modelSlot m s).job.todo with
  | none, _ => s
  | some key, [] => loadPlaced m key s
  | some _, g :: _ =>
    if (segmentSlice (modelSlot m s).slices g.slice g.off g.len).isNone then endLoading m 0x0C s
    else if held 3 s then modModelSlot m (fun x => { x with job := { x.job with waits := true } }) s
    else startFetch (.load m 2) g.addr (64 * g.len) (modModelSlot m (fun x => { x with job := { x.job with waits := false } }) s)

/-- Segments without data take no read (R243): they are passed over. -/
def dropEmpty (m : Nat) (s : State) : State :=
  modModelSlot m (fun x => { x with job := { x.job with todo := x.job.todo.dropWhile fun g =>
    g.len == 0 && (segmentSlice x.slices g.slice g.off 0).isSome } }) s

/-- Read the segment list of a LOAD_WEIGHTS, if it has segments. -/
def loadList (m : Nat) (s : State) : State :=
  let j := (modelSlot m s).job
  if j.nseg = 0 then loadNext m s else startFetch (.load m 1) j.list (24 * j.nseg) s

/-- Place a segment whose data have been read, and pass it on where PASS asks for it (R243, R245). -/
def loadSegment (m : Nat) (key : Nat × Nat) (g : SegRec) (gs : List Granule) (s : State) : State :=
  match segmentSlice (modelSlot m s).slices g.slice g.off gs.length with
  | none => s
  | some x =>
    let s1 := modModelSlot m (fun y => { y with segs := y.segs ++ [g] }) (placeSegment x g.off gs s)
    let j := (modelSlot m s).job
    if !j.pass then s1
    else if canPass s1 then passAll m j.manifest key [some ⟨g.slice, g.off, gs⟩] s1
    else { s1 with pair := { s1.pair with passDrop := key :: s1.pair.passDrop } }

/-- An extent of a LOAD_WEIGHTS has been read: the slice map, the segment list, or a segment's data (R242, R243). -/
def loadPartRead (m part : Nat) (bs : List Byte) (s : State) : State :=
  match (modelSlot m s).loading with
  | none => s
  | some key =>
    match part, (modelSlot m s).job.todo with
    | 0, _ => loadList m (modModelSlot m (fun x => { x with slices := (recordsOf 32 bs).map sliceOf }) s)
    | 1, _ => loadNext m (dropEmpty m (modModelSlot m (fun x => { x with job := { x.job with todo := (recordsOf 24 bs).map segOf } }) s))
    | _, [] => s
    | _, g :: rest =>
      loadNext m (dropEmpty m (modModelSlot m (fun x => { x with job := { x.job with todo := rest } })
        (loadSegment m key g (granulesOf bs) s)))

/-- LOAD_WEIGHTS taken without error (R243, R245): its slice map is read first. (DEDUCED, unsafe: log entry 33.) -/
def loadAct (e : BitVec 1024) (s : State) : State :=
  let m := cmdModel e
  let key := (cmdOut e, cmdReq e)
  let job : LoadJob := { list := cmdBytes e 12 8, nseg := cmdBytes e 20 4, manifest := cmdBytes e 24 8, pass := bitAt e 256,
                         todo := [], waits := false }
  let s1 := modModelSlot m (fun x => { x with slices := [], loading := some key, job := job }) (reloadSlot m s)
  let s2 : State := { s1 with pair := { s1.pair with passDrop := s1.pair.passDrop.filter (· != key) } }
  let n := 32 * rd (F.SLICE_COUNT.VALUE m) s
  if n = 0 then loadList m s2 else startFetch (.load m 0) (sliceMapAddr m s) n s2

/-- Weight-Load is no longer held: what waited for it is read on (R167). -/
def resumeLoads (s : State) : State :=
  forEach (List.range 16) (fun m t => when (modelSlot m t).job.waits (loadNext m) t) s

/-- Error code of a LOAD_WEIGHTS. -/
def loadCode (e : BitVec 1024) (s : State) : Nat :=
  let c := errorCode (commonReserved e || fieldOf e 257 7 != 0 || bytesSet e 33 128) (!loadable (cmdModel e) s) false
  if c = 0 ∧ asMirror s then 5 else c

/-- LOAD_WEIGHTS (R243): while Weight-Load is held, or another one of the slot still passes its data on, it waits. -/
def loadWeights (r : Nat) (e : BitVec 1024) (s : State) : State :=
  if held 3 s ∨ (modelSlot (cmdModel e) s).loading.isSome then waitEntry r 7 e s
  else takeEntry r 7 e (loadCode e s) (loadAct e) s

/-- LOAD_WEIGHTS, given as the two 64-byte lines of its entry, the line with byte 0 first. -/
def execLoadWeights (r : Nat) (lower upper : BitVec 512) (s : State) : Host.Outcome State Fault Refusal :=
  .next (loadWeights r (upper ++ lower) s)

/-! ### LOAD_RECEIVE (R246) -/

/-- Read the next entries of a model's slice map: up to 16, within one 4 KiB page (R286). (DEDUCED, unsafe: log entry 33.) -/
def fetchSlices (m : Nat) (s : State) : State :=
  let have_ := (modelSlot m s).slices.length
  let left := rd (F.SLICE_COUNT.VALUE m) s - have_
  if left = 0 then s
  else readTokens (sliceMapAddr m s + 32 * have_) (8 * min left 16) (.sliceMap m) s

/-- The slice map of a slot has been read whole. -/
def slicesRead (m : Nat) (s : State) : Bool := decide (rd (F.SLICE_COUNT.VALUE m) s ≤ (modelSlot m s).slices.length)

/-- LOAD_RECEIVE taken without error. -/
def receiveAct (e : BitVec 1024) (s : State) : State :=
  let m := cmdModel e
  let w := cmdBytes e 12 4
  let r : LoadRecv := { ring := cmdOut e, reqId := cmdReq e, wait := if w = 0 then 1024 else w, idle := 0, nseg := cmdBytes e 20 4,
                        placed := 0, manifest := cmdBytes e 24 8 }
  fetchSlices m (modModelSlot m (fun x => { x with recv := some r, slices := [] }) (reloadSlot m s))

/-- Error code of a LOAD_RECEIVE. -/
def receiveCode (e : BitVec 1024) (s : State) : Nat :=
  let m := cmdModel e
  errorCode (commonReserved e || bytesSet e 16 20 || bytesSet e 32 128) (!loadable m s || (modelSlot m s).recv.isSome)
    (decide (65535 < cmdBytes e 12 4) || cmdBytes e 20 4 == 0)

/-- LOAD_RECEIVE (R246). -/
def loadReceive (r : Nat) (e : BitVec 1024) (s : State) : State := takeEntry r 8 e (receiveCode e s) (receiveAct e) s

/-- LOAD_RECEIVE. -/
def execLoadReceive (r : Nat) (e : BitVec 1024) (s : State) : Host.Outcome State Fault Refusal := .next (loadReceive r e s)

/-- LOAD_RECEIVE_TIMEOUT (R246): WAIT frames have passed without an arriving part. -/
def loadReceiveTimeout (m : Nat) (s : State) : State :=
  match (modelSlot m s).recv with
  | some r => if m < 16 ∧ r.wait ≤ r.idle then endReceive m 0x0C s else s
  | none => s

/-- LOAD_RECEIVE_TIMEOUT. -/
def execLoadReceiveTimeout (m : Nat) (s : State) : Host.Outcome State Fault Refusal := .next (loadReceiveTimeout m s)

/-! ### READBACK (R247) -/

/-- Granule `o` of a slice as it stands. -/
def sliceGranule (x : Slice) (o : Nat) (s : State) : Granule :=
  if x.kind = 0 then loadedGranule x.cell (x.start + o) s
  else if x.kind = 1 then
    BitVec.ofNat 512 ((List.range 16).foldr
      (fun i acc => ((cfgWord x.cell (x.start + 16 * o + i) s).getD 0).toNat + 2 ^ 32 * acc) 0)
  else stackGranule (x.staddr + 64 * o) s

/-- A slice's granules are read (R67, R85, R165): those of cell memory leave by the NET_OUT port, those of a stack are charged as stack
bytes. (DEDUCED, unsafe: log entry 33.) -/
def sliceReads (envs : CellEnvs) (x : Slice) (s : State) : State :=
  let s1 := chargeLoad (sliceCell x s) x.len s
  if x.kind = 0 then loadReads x.cell 3 (granulesFrom x.start x.len) (envs.of x.cell) s1
  else if x.kind = 2 then countSpan false x.staddr x.len (chargeEnergy 3 energyStack (64 * x.len) (charge 3 1 (64 * x.len) s1))
  else s1

/-- Granules of the slices read back, in slice order. -/
def readbackData (envs : CellEnvs) (xs : List Slice) (s : State) : List Granule :=
  xs.flatMap fun x =>
    let t := if x.kind = 0 then seen x.cell (envs.of x.cell) s else s
    (List.range x.len).map fun o => sliceGranule x o t

/-- Write 64 bytes to host memory, in one line or across two. -/
def writeHost (a : Nat) (g : Granule) (s : State) : State :=
  let bs := natToBytes 64 g.toNat
  if a % 64 = 0 then sendWr a 1 bs [] s
  else sendWrPart (a + (64 - a % 64)) (bs.drop (64 - a % 64)) [] (sendWrPart a (bs.take (64 - a % 64)) [] s)

/-- Write granules to host memory from an address on. -/
def writeHostAll : Nat → List Granule → State → State
  | _, [], s => s
  | a, g :: gs, s => writeHostAll (a + 64) gs (writeHost a g s)

/-- Slices that a READBACK names; none where one is missing. -/
def readbackSlices (e : BitVec 1024) (s : State) : Option (List Slice) :=
  let l := (modelSlot (cmdModel e) s).slices
  let a := cmdBytes e 12 4
  let n := cmdBytes e 16 4
  if a + n ≤ l.length ∧ (((l.drop a).take n).all fun x => x.kind != 3) then some ((l.drop a).take n) else none

/-- READBACK taken without error. -/
def readbackAct (envs : CellEnvs) (e : BitVec 1024) (s : State) : State :=
  let xs := (readbackSlices e s).getD []
  let s1 := forEach xs (sliceReads envs) s
  putCmdDone (cmdOut e) (cmdModel e) (cmdReq e) 0 0 (writeHostAll (cmdBytes e 24 8) (readbackData envs xs s) s1)

/-- READBACK (R247): while Weight-Load is held, it waits (R167). -/
def readback (r : Nat) (x : ReadbackTake) (s : State) : State :=
  let e := x.entry
  if held 3 s then waitEntry r 9 e s
  else takeEntry r 9 e (errorCode (commonReserved e || bytesSet e 20 24 || bytesSet e 32 128)
    (slotSt (cmdModel e) s == 0 || (modelSlot (cmdModel e) s).closing) (readbackSlices e s).isNone) (readbackAct x.envs e) s

/-- READBACK. -/
def execReadback (r : Nat) (x : ReadbackTake) (s : State) : Host.Outcome State Fault Refusal := .next (readback r x s)

/-! ### Filling a hot window (R226) -/

/-- Positions that a fill brings into a hot window of `w` slots (R226). -/
def fillPositions (len w : Nat) : List Nat := (List.range (min len w)).map (len - min len w + ·)

/-- What a fill puts into the ring for one position, layer and part: the granules and indices in its page (R189, R190). -/
def hotFrom (q : Nat) (w l part p : Nat) (s : State) : HotKv :=
  let m := (seqSlot q s).model
  let pg := ((pageAt q (p / 256) s).map (·.page)).getD 0
  let at_ := part * 256 + p % 256
  { seq := q, layer := l, part := part, slot := p % w, pos := p,
    elems := (List.range (poolG m s)).map fun j => stackGranule (pageElem m pg l s + (at_ * poolG m s + j) * 64) s,
    idx := BitVec.ofNat 512 (stackNat (pageSide m pg l s + sideHead m s * 64 + at_ * (poolD m s / 64)) (poolD m s / 64) s) }

/-- The cell that a fill of one layer and part goes to: the one that keeps the sinter store, or the image's first.
(DESIGN CHOICE, unsafe: log entry 81.) -/
def fillCell (q l part : Nat) (s : State) : Nat :=
  match s.kv.stores.find? fun p => p.1 == q && p.2.layer == l && p.2.part == part with
  | some p => p.2.cell
  | none => (image (seqSlot q s).model s).cells.headD 0

/-- The page of a sequence's span; page 0 where it has none. -/
def spanPage (q sp : Nat) (s : State) : Nat := ((pageAt q sp s).map (·.page)).getD 0

/-- Spans that a fill touches, each with its first position and how many of its positions are filled. -/
def fillSpans (len w : Nat) : List (Nat × Nat × Nat) :=
  let ps := fillPositions len w
  ((ps.map (· / 256)).eraseDups).map fun sp =>
    let mine := ps.filter fun p => p / 256 == sp
    (sp, mine.headD 0, mine.length)

/-- Stack addresses of the granules that a fill reads for a layer and part of one span, each run with its length: elements and indices. -/
def fillRuns (q l part : Nat) (x : Nat × Nat × Nat) (s : State) : List (Nat × Nat) :=
  let m := (seqSlot q s).model
  let pg := spanPage q x.1 s
  [(pageElem m pg l s + (part * 256 + x.2.1 % 256) * poolG m s * 64, x.2.2 * poolG m s),
    (pageSide m pg l s + (sideHead m s + part * (poolD m s / 16)) * 64, poolD m s / 16)]

/-- The head of a side record, which a fill reads with the first part of its layer. -/
def fillHead (q l part : Nat) (x : Nat × Nat × Nat) (s : State) : List (Nat × Nat) :=
  let m := (seqSlot q s).model
  if part = 0 then [(pageSide m (spanPage q x.1 s) l s, sideHead m s)] else []

/-- Every run of granules that a fill reads, with the cell it goes to (R189, R190, R226). -/
def fillReads (q w : Nat) (s : State) : List (Nat × Nat × Nat) :=
  let m := (seqSlot q s).model
  (List.range (poolL m s)).flatMap fun l => (List.range (2 * poolKvh m s)).flatMap fun part =>
    (fillSpans (seqSlot q s).len w).flatMap fun x =>
      (fillHead q l part x s ++ fillRuns q l part x s).map fun r => (r.1, r.2, fillCell q l part s)

/-- Hops of a run's flits (R42, R165, R194): each granule from its stack's data cells to the cell it is for. -/
def runHops (r : Nat × Nat × Nat) (s : State) : Nat :=
  ((List.range r.2.1).map fun j => hops (dataCell (stackOf (r.1 + 64 * j) s) r.2.2 j) r.2.2).sum

/-- Hops of the stored sinter copies that a fill brings to the cells that keep them. (DESIGN CHOICE, unsafe: log entry 81.) -/
def copyHops (xs : List SinterStore) (s : State) : Nat :=
  (xs.map fun x => ((List.range x.data.length).map fun j => hops (dataCell (leadController s) x.cell j) x.cell).sum).sum

/-- Sinter stores of a layer from the slots that SEQSTATE carries for it (R116, R312), tagged with the position they precede. -/
def storesAt (q l : Nat) (xs : List Slot16) (tag : Nat) (s : State) : List SinterStore :=
  let m := (seqSlot q s).model
  let n := poolD m s / 32
  let c := (image m s).cells.headD 0
  let gran := fun (i : Nat) => (BitVec.ofNat 512 (((xs.drop (4 * i)).take 4).foldr (fun x n => x.toNat + 2 ^ 128 * n) 0) : Granule)
  (List.range (2 * poolKvh m s)).map fun part => ⟨l, part, tag, c, (List.range n).map fun i => gran (n * part + i)⟩

/-- Sinter stores that a fill brings to a sequence (R226, R326): after a takeover the mirror's copies, else those of its prefix, where the
cells hold none. -/
def fillStores (q : Request) (s : State) : List SinterStore :=
  let kept := s.pair.sinter.filter (·.1 == q.seq)
  if !kept.isEmpty then kept.flatMap fun x => storesAt x.1 x.2.1 x.2.2 (seqSlot q.seq s).len s
  else if q.usesHandle && (storesOf q.seq s).isEmpty then ((pfxEntry q.handle s).map (·.sinter)).getD []
  else []

/-- Fill a sequence's ring, its pages' formats and its sinter stores (R186, R191, R226, R326). -/
def fillKv (q : Request) (s : State) : State :=
  let m := q.model
  let w := hotWindow q.hot
  let ps := fillPositions (seqSlot q.seq s).len w
  let layers := List.range (poolL m s)
  let ring := layers.flatMap fun l => (List.range (2 * poolKvh m s)).flatMap fun part => ps.map fun p => hotFrom q.seq w l part p s
  let spans := (ps.map (· / 256)).eraseDups
  let fmts := spans.flatMap fun sp => match pageAt q.seq sp s with
    | some e => layers.filterMap fun l => sideFormat m q.seq sp e.page l s
    | none => []
  { s with kv := { s.kv with
      hot := (s.kv.hot.filter fun h => h.seq != q.seq) ++ ring
      formats := (s.kv.formats.filter fun f => !(f.seq == q.seq && spans.contains f.span)) ++ fmts
      stores := (fillStores q s).map (fun x => (q.seq, x)) ++ s.kv.stores } }

/-- HOT_WINDOW_FILL (R226, R168): the KV-Move that fills a sequence's hot window and sinter stores is done; while KV-Move is held it
waits. -/
def hotWindowFill (id : Nat) (s : State) : State :=
  match request id s with
  | none => s
  | some q =>
    if q.filling ∧ !held 2 s then
      let rs := fillReads q.seq (hotWindow q.hot) s
      let xs := fillStores q s
      let h := (rs.map fun r => runHops r s).sum + copyHops xs s
      let n := 64 * ((rs.map (·.2.1)).sum + (xs.map (·.data.length)).sum)
      chargeEnergy 2 (energyHop 3) h (charge 2 0 h (chargeEnergy 2 energyStack n (charge 2 1 n
        (modRequest id (fun x => { x with filling := false }) (forEach rs (fun r => countSpan false r.1 r.2.1) (fillKv q s))))))
    else s

/-- HOT_WINDOW_FILL. -/
def execHotWindowFill (id : Nat) (s : State) : Host.Outcome State Fault Refusal := .next (hotWindowFill id s)

end Sys2Proof.Machine
end

