-- ==== Sys2Proof/Machine/Steps.lean ====
section
/-!
DEFINITION. Steps: how they are formed (R202, R215, R217, R218), sampled and accepted (R228 to R232), committed (R354), marked for
replay and relaunched (R353 to R359).
-/
namespace Sys2Proof.Machine
open Sys2Proof

/-! ### Forming a step (R218) -/

/-- Requests of a model in order of readiness. -/
def insertReady (q : Request) : List Request → List Request
  | [] => [q]
  | x :: xs => if q.readyAt < x.readyAt then q :: x :: xs else x :: insertReady q xs

/-- Requests of a model in a state, none of them in a step or at its end, in order of readiness. -/
def readyList (m : Nat) (st : ReqState) (s : State) : List Request :=
  (s.svc.reqs.filter fun q => q.model == m && q.state == st && !q.inStep && q.ending.isNone).foldl
    (fun l q => insertReady q l) []

/-- Committed length of a request's sequence. -/
def lenOf (q : Request) (s : State) : Nat := (seqSlot q.seq s).len

/-- Position limit of a model. -/
def posLimit (m : Nat) (s : State) : Nat := rd (F.POS_LIMIT.VALUE m) s

/-- Rows of the tree that stay below the position limit (R202). -/
def keptRows (q : Request) (s : State) : List Nat :=
  let sh := shapeOf q.model q.shape s
  (List.range sh.count).filter fun i => decide (lenOf q s + rowDepth sh 17 i < posLimit q.model s)

/-- PARENT of every kept row, 0xFF for the root (R185); empty for a lone row. -/
def keptParents (q : Request) (s : State) : List Nat :=
  let sh := shapeOf q.model q.shape s
  let rows := keptRows q s
  if rows.length ≤ 1 then []
  else rows.map fun i => if i = 0 then 0xFF else (rows.findIdx? (· == sh.parents.getD (i - 1) 0)).getD 0

/-- A sequence of a step as it is launched. -/
def stepSeq (q : Request) (parents tokens : List Nat) (reserved : Bool) (s : State) : StepSeq :=
  { seq := q.seq, req := q.id, reqId := q.reqId, step := q.step, seed := q.seed, start := lenOf q s, parents := parents,
    tokens := tokens, pages := [], acked := 0, reserved := reserved, out := [], accepted := 0, next := [] }

/-- The sequence of a decoding request. -/
def decodeSeq (q : Request) (s : State) : StepSeq :=
  stepSeq q (keptParents q s) ((keptRows q s).map fun i => q.next.getD i 0) true s

/-- Rings of the sequences packed so far that take an entry. -/
def takenOn (r : Nat) (l : List (Request × StepSeq)) : Nat := (l.filter fun p => p.1.ring == r && p.2.reserved).length

/-- Rows packed so far. -/
def packedRows (l : List (Request × StepSeq)) : Nat := (l.map fun p => p.2.tokens.length).foldl (· + ·) 0

/-- Σ rows × LEN packed so far. -/
def packedSpill (l : List (Request × StepSeq)) : Nat := (l.map fun p => p.2.tokens.length * p.2.start).foldl (· + ·) 0

/-- A page of a request's sequence is being restored from the partner (R323). -/
def restoring (q : Request) (s : State) : Bool := (seqSlot q.seq s).pages.any fun e => restoringPage q.model e.page s

/-- No KV-Move that a step of a request depends on is unfinished (R168): its hot window is filled, its pages are restored. -/
def kvReady (q : Request) (s : State) : Bool := !q.filling && !restoring q s

/-- Pack decoding sequences (R218): to 64 entries, GEN_ROWS rows, or the spill limit. A sequence without output room is not ready. -/
def packGenerate (m : Nat) (s : State) : List Request → List (Request × StepSeq) → List (Request × StepSeq)
  | [], acc => acc
  | q :: qs, acc =>
    let x := decodeSeq q s
    if !kvReady q s ∨ posLimit m s ≤ lenOf q s ∨ outRoom q.ring s ≤ takenOn q.ring acc then packGenerate m s qs acc
    else if 64 ≤ acc.length ∨ rd (F.MODEL_SVC.GEN_ROWS m) s < packedRows acc + x.tokens.length ∨
        rd (F.ADM_SPILL_POS.VALUE m) s < packedSpill acc + x.tokens.length * x.start then acc
    else packGenerate m s qs (acc ++ [(q, x)])

/-- A sequence in PREFILL may launch (R168, R226, R319): its tokens are read, its hot window filled, its TOKENS_IN acknowledged. -/
def prefillReady (q : Request) (s : State) : Bool :=
  kvReady q s && (q.tokens.map (·.length)) == some q.ntok &&
    !(primary s && s.pair.tokensIn.any fun p => p.2 == q.id) && decide (lenOf q s < posLimit q.model s)

/-- Rows that the spill limit still allows a chunk of a sequence of length `len`. -/
def spillRows (m len used want : Nat) (s : State) : Nat :=
  if len = 0 then want else min want ((rd (F.ADM_SPILL_POS.VALUE m) s - used) / len)

/-- Pack prefill chunks (R218). -/
def packPrefill (m : Nat) (s : State) : List Request → List (Request × StepSeq) → List (Request × StepSeq)
  | [], acc => acc
  | q :: qs, acc =>
    if !prefillReady q s then packPrefill m s qs acc
    else
      let left := rd (F.MODEL_SVC.PRE_ROWS m) s - packedRows acc
      let want := min (q.ntok - q.launched) left
      let n := spillRows m (lenOf q s) (packedSpill acc) want s
      let lastOne := decide (q.launched + n = q.ntok) && !q.isPrefix
      if 64 ≤ acc.length ∨ n = 0 then acc
      else if lastOne && decide (outRoom q.ring s ≤ takenOn q.ring acc) then packPrefill m s qs acc
      else
        let x := stepSeq q [] (((q.tokens.getD []).drop q.launched).take n) lastOne s
        if n < want then acc ++ [(q, x)] else packPrefill m s qs (acc ++ [(q, x)])

/-- The service may fill launches of a model (R218, R239, R284, R320, R353, R372). -/
def mayLaunch (m : Nat) (s : State) : Bool :=
  serving s && oclServes s && slotSt m s == 2 && !(modelSlot m s).closing && !lagFull s &&
    decide (s.ledger.entries.length < 1024) && !asMirror s

/-- What a launch of a model carries (R218): 0 empty, 1 Generate, 2 Prefill, with the sequences packed. -/
def planStep (m launch : Nat) (s : State) : Nat × List (Request × StepSeq) :=
  if mayLaunch m s then
    let gen := if held 0 s then [] else packGenerate m s (readyList m .decode s) []
    let pre := if held 1 s then [] else packPrefill m s (readyList m .prefill s) []
    let every := max 1 (rd F.SVC_CTRL.PREFILL_EVERY s)
    if !pre.isEmpty && (gen.isEmpty || launch % every == 0) then (2, pre)
    else if gen.isEmpty then (0, [])
    else (1, gen)
  else (0, [])

/-- The next chunk of a SUBMIT's sequence would be its last (R217). -/
def lastChunk (m : Nat) (q : Request) (s : State) : Bool :=
  !q.isPrefix && q.launched + spillRows m (lenOf q s) 0 (min (q.ntok - q.launched) (rd (F.MODEL_SVC.PRE_ROWS m) s)) s == q.ntok

/-- A ready sequence that the step packed for a launch leaves out has no room for its entry beside those that the step takes. -/
def leftOut (l : List (Request × StepSeq)) (q : Request) (s : State) : Bool :=
  !(l.any fun p => p.1.id == q.id) && decide (outRoom q.ring s ≤ takenOn q.ring l)

/-- A sequence waits for output room (R215): a decoding one, or one whose last chunk is due. -/
def outBlocked (m launch : Nat) (s : State) : Bool :=
  let l := (planStep m launch s).2
  ((readyList m .decode s).any fun q => kvReady q s && leftOut l q s) ||
  (readyList m .prefill s).any fun q => prefillReady q s && lastChunk m q s && leftOut l q s

/-- The lowest FREE ledger entry. -/
def freeEntry (s : State) : Nat :=
  ((List.range 1024).find? fun i => !(s.ledger.entries.any (·.index == i))).getD 0

/-- Place in the telemetry counts of a model: 0 GEN, 1 PRE, 2 TUNE, 3 EMPTY, 4 ROWS, 5 TOKENS, 6 REPLAY (R249). -/
def addTele (m k n : Nat) (s : State) : State :=
  modModelSlot m (fun x => { x with tele := x.tele.set k (x.tele.getD k 0 + n) }) s

/-- A request joins a step (R234). -/
def joinStep (p : Request × StepSeq) (s : State) : State :=
  let s1 := modRequest p.1.id (fun q => { q with
    inStep := true, step := q.step + 1, launched := if q.state = .prefill then q.launched + p.2.tokens.length else q.launched }) s
  when p.2.reserved (reserveEntry p.1.ring) s1

/-- Length table entry of a sequence of a step (R184). -/
def StepSeq.lengthEntry (x : StepSeq) : Dword :=
  lengthWord x.seq (!x.parents.isEmpty) x.start x.tokens.length

/-- Launch a planned step (R184, R215, R218, R353). -/
def formStep (m launch entry : Nat) (l : List (Request × StepSeq)) (s : State) : State :=
  let e : LedgerEntry :=
    { index := freeEntry s, model := m, launch := launch, isPrefill := entry == 2, recipe := activeRecipe m s,
      state := .launched, attempt := 0, replay := false, tainted := false, seqs := l.map (·.2),
      table := l.map (·.2.lengthEntry), guard := 0, group := none, first := launch,
      awaitsAck := false }
  let s1 := showLedger { s with ledger := { s.ledger with
    entries := s.ledger.entries ++ [e], launched := s.ledger.launched + 1 } }
  let rows := packedRows l
  forEach l joinStep (addTele m 4 rows (addTele m (entry - 1) 1
    (modModelSlot m (fun x => { x with useNow := x.useNow + rows }) s1)))

/-! ### Replays (R357, R358) -/

/-- The step of a model to replay next: the earliest original launch (R358). -/
def nextReplay (m : Nat) (s : State) : Option LedgerEntry :=
  (s.ledger.entries.filter fun e => e.model == m && e.replay).foldl (fun (b : Option LedgerEntry) e =>
    match b with
    | none => some e
    | some x => if e.first < x.first then some e else some x) none

/-- What a step reads of its sequences' KV is in place (R168). -/
def replayReady (e : LedgerEntry) (s : State) : Bool := e.seqs.all fun x => (request x.req s).all fun q => kvReady q s

/-- Launch entry of a step. -/
def LedgerEntry.entry (e : LedgerEntry) : Nat := if e.isPrefill then 2 else 1

/-- Relaunch a step in a launch (R358, R359). -/
def relaunch (e : LedgerEntry) (launch : Nat) (s : State) : State :=
  addTele e.model 6 1 (bump F.REPLAY_CNT
    (modLedger e.index (fun x => { x with replay := false, launch := launch, state := .launched, guard := 0 }) s))

/-- What the result of an attempt left, discarded (R357, R359): pages taken stay recorded. -/
def StepSeq.again (x : StepSeq) : StepSeq := { x with acked := 0, out := [], accepted := 0, next := [] }

/-- Replace a step by one step per sequence (R358), as far as entries are FREE. -/
def splitStep (e : LedgerEntry) (s : State) : State :=
  match e.seqs with
  | [] => s
  | [_] => s
  | x :: xs =>
    let s1 := modLedger e.index (fun y => { y with seqs := [x], table := [x.lengthEntry] }) s
    forEach xs (fun q t =>
      if t.ledger.entries.length < 1024 then
        showLedger { t with ledger := { t.ledger with
          entries := t.ledger.entries ++ [{ e with index := freeEntry t, seqs := [q], table := [q.lengthEntry] }], launched := t.ledger.launched + 1 } }
      else modLedger e.index (fun y => { y with seqs := y.seqs ++ [q], table := y.table ++ [q.lengthEntry] }) t) s1

/-- Mark one step for replay (R356 to R358): what its cells staged is discarded; a tainted one has suffered a fault; one whose lone sequence faults again ends it. -/
def markReplay (e : LedgerEntry) (s : State) : State :=
  if e.tainted ∧ 3 ≤ e.attempt ∧ e.seqs.length ≤ 1 then
    forEach e.seqs (fun q => endRequest q.req 7) (abandonStep e s)
  else
    let e1 : LedgerEntry := { e with
      replay := true, tainted := false, state := .launched,
      attempt := if e.tainted then min 3 (e.attempt + 1) else e.attempt, seqs := e.seqs.map (·.again), guard := 0 }
    let s1 := modLedger e.index (fun _ => e1) (forEach (e.seqs.map (·.seq)) discardKv s)
    if e.tainted ∧ e1.attempt = 3 then splitStep e1 s1 else s1

/-! ### Sampling (R230) -/

/-- Order of FP32 numbers. -/
def fpKey (w : Word) : Int := if fpNeg w then -((fieldOf w 0 31 : Nat) : Int) else ((fieldOf w 0 31 : Nat) : Int)

/-- A token that R229 and R230 do not fix, below the number of scores: a free value. (DESIGN CHOICE, safe: log entry 17.) -/
def openToken (l : List Word) (key : Nat) : Nat := Config.openToken l key % max 1 l.length

/-- Insert (value, id) in descending order of value, ties to the lower id. -/
def insertDesc (x : Word × Nat) : List (Word × Nat) → List (Word × Nat)
  | [] => [x]
  | y :: ys => if fpKey y.1 < fpKey x.1 then x :: y :: ys else y :: insertDesc x ys

/-- Ids with their values, the most probable first, ties to the lower id. -/
def ranked (l : List Word) : List (Word × Nat) := (l.zipIdx).foldl (fun acc x => insertDesc x acc) []

/-- The first id whose running sum reaches `u`; none where rounding keeps every sum below it. -/
def pickFirst (u : Dy) : Word → List (Word × Nat) → Option Nat
  | _, [] => none
  | run, (p, i) :: rest =>
    let r := fpAdd run p
    if u.le (fpVal r) then some i else pickFirst u r rest

/-- The shortest prefix whose sum reaches a bound. -/
def prefixTo (bound : Dy) : Word → List (Word × Nat) → List (Word × Nat)
  | _, [] => []
  | run, x :: rest =>
    let r := fpAdd run x.1
    if bound.le (fpVal r) then [x] else x :: prefixTo bound r rest

/-- Normalise values to sum one. -/
def normalise (l : List (Word × Nat)) : List (Word × Nat) :=
  let total := fpSum 32 (l.map (·.1))
  l.map fun x => (fpDiv x.1 total, x.2)

/-- The ids of K with their probabilities, in descending order (R230); `z` is in that order. -/
def keptIds (q : Request) (z : List (Word × Nat)) (top : Word) : List (Word × Nat) :=
  let k := if q.topK ≠ 0 then z.take q.topK else if q.topP = 0 then z else z.take 1024
  let e := normalise (k.map fun x => (fpExpOp (fpAdd x.1 (top ^^^ 0x80000000)), x.2))
  if q.topP = 0 then e else normalise (prefixTo ⟨q.topP, -16⟩ 0 e)

/-- The token that a row samples at position `p` (R230, R231): a free value where a score is a NaN, where the largest z is infinite, so
that no probability is a number, and among K where rounding keeps every running sum below the draw.
(DESIGN CHOICE, safe: log entry 17.) -/
def sampleToken (q : Request) (logits : List Word) (p : Nat) : Nat :=
  let t := ofBf16 q.temp
  let key := q.seed + 2 ^ 64 * p
  if logits.any isNan then openToken logits key
  else if isZero t then (((ranked logits).head?).map (·.2)).getD 0
  else
    let z := ranked (logits.map fun x => fpDiv x t)
    let top := ((z.head?).map (·.1)).getD 0
    if isInf top then openToken logits key
    else
      let kept := keptIds q z top
      match pickFirst (uniform q.seed p) 0 kept with
      | some i => i
      | none => ((kept[Config.openToken logits key % max 1 kept.length]?).map (·.2)).getD 0

/-- Walk a tree (R232): tokens in order, rows passed, whether the request ends after its commit. `n` bounds the rows. -/
def walkTree (x : StepSeq) (samples : List Nat) (stops : List Nat) (left : Nat) : Nat → Nat → List Nat → Nat → List Nat × Nat
  | 0, _, out, rows => (out, rows)
  | n + 1, row, out, rows =>
    let t := samples.getD row 0
    let out1 := out ++ [t]
    if stops.contains t ∨ left ≤ out1.length then (out1, rows + 1)
    else
      match (List.range x.tokens.length).find? fun i => decide (0 < i) && x.parents.getD i 0 == row && x.tokens.getD i 0 == t with
      | none => (out1, rows + 1)
      | some c => walkTree x samples stops left n c out1 (rows + 1)

/-- Rank of row `i` among its parent's children, in row order. -/
def rankOf (sh : Shape) (i : Nat) : Nat :=
  ((List.range i).filter fun j => decide (0 < j) && sh.parents.getD (j - 1) 0 == sh.parents.getD (i - 1) 0).length

/-- The token of rank `k` of a head's scores (R229): a free value where a score is a NaN. (DESIGN CHOICE, safe: log entry 17.) -/
def rankedToken (l : List Word) (k : Nat) : Nat := if l.any isNan then openToken l k else (((ranked l)[k]?).map (·.2)).getD 0

/-- Root and candidates of the next tree (R229). -/
def nextTree (q : Request) (root : Nat) (heads : List (List Word)) (s : State) : List Nat :=
  let sh := shapeOf q.model q.shape s
  (List.range sh.count).map fun i =>
    if i = 0 then root else rankedToken (heads.getD (rowDepth sh 17 i - 1) []) (rankOf sh i)

/-- The result of one sequence of a step under its request. -/
def resultOf (q : Request) (isPrefill : Bool) (x : StepSeq) (sc : SeqScores) (s : State) : StepSeq :=
  let n := x.tokens.length
  let row := fun i => ((sc.rows[i]?).map (·.logits)).getD []
  if isPrefill then
    if x.reserved then
      let t := sampleToken q (row 0) (x.start + n - 1)
      { x with out := [t], accepted := n, next := nextTree q t sc.heads s }
    else { x with accepted := n }
  else
    let samples := (List.range n).map fun i => sampleToken q (row i) (x.start + depthIn x.parents 17 i)
    let w := walkTree x samples q.stops (q.maxNew - q.generated) n 0 [] 0
    { x with out := w.1, accepted := w.2, next := nextTree q (w.1.getLast?.getD 0) sc.heads s }

/-- The result of one sequence of a step. -/
def seqResult (isPrefill : Bool) (x : StepSeq) (sc : SeqScores) (s : State) : StepSeq :=
  match request x.req s with
  | none => { x with accepted := x.tokens.length }
  | some q => resultOf q isPrefill x sc s

/-- Results of the sequences of a step, in order. -/
def seqResults (isPrefill : Bool) (s : State) : List StepSeq → List SeqScores → List StepSeq
  | [], _ => []
  | x :: xs, [] => seqResult isPrefill x ⟨[], []⟩ s :: seqResults isPrefill s xs []
  | x :: xs, c :: cs => seqResult isPrefill x c s :: seqResults isPrefill s xs cs

/-- A result reaches the ledger (R354). -/
def setResult (i : Nat) (xs : List StepSeq) (s : State) : State :=
  modLedger i (fun e => { e with state := .result, seqs := xs, guard := 0 }) s

/-! ### The back half of a split model (R336, R337) -/

/-- The lowest number that no launched step of the back has. -/
def freeBack (s : State) : Nat := 1024 + ((List.range 1024).find? fun i => !(s.pair.backSteps.any (·.index == 1024 + i))).getD 0

/-- A sequence slot as the back needs it for a step (R337): in use for the model, empty where the sequence is a new one, with the pages
that the step may commit into reserved. (DEDUCED, unsafe: log entry 45.) -/
def backSlot (m : Nat) (x : StepSeq) (s : State) : State :=
  let y := seqSlot x.seq s
  let s1 :=
    if y.used && y.model == m && x.start != 0 then s
    else setSeqSlot x.seq { SeqSlot.reset with used := true, model := m, list := Config.pageList x.seq % 2 ^ 35 }
      (clearPages y.model 0 (y.pages.filter (!·.shared)) (returnResv y.model y.resv (clearList x.seq y.pages s)))
  let need := ((spansOf x.start (x.start + x.tokens.length)).filter fun sp => (pageAt x.seq sp s1).all (·.shared)).length
  let z := seqSlot x.seq s1
  setSeqSlot x.seq { z with resv := max z.resv need }
    (wr (F.POOL_RESV.VALUE m) (rd (F.POOL_RESV.VALUE m) s1 + (max z.resv need - z.resv)) s1)

/-- Launch a step of the back half (R336). -/
def launchBack (b : BackStep) (s : State) : State :=
  let s1 := { s with pair := { s.pair with
    backReady := s.pair.backReady.erase b, backSteps := s.pair.backSteps ++ [{ b with index := freeBack s }] } }
  forEach b.seqs (fun p => backSlot b.model p.2) (addTele b.model (b.entry - 1) 1 s1)

/-- Results of the sequences of a step of the back, in order. -/
def backResults (isPrefill : Bool) (s : State) : List (Request × StepSeq) → List SeqScores → List (Request × StepSeq)
  | [], _ => []
  | p :: ps, [] => (p.1, resultOf p.1 isPrefill p.2 ⟨[], []⟩ s) :: backResults isPrefill s ps []
  | p :: ps, c :: cs => (p.1, resultOf p.1 isPrefill p.2 c s) :: backResults isPrefill s ps cs

/-- Slots of a RESULT's sequence, as the model packs them: counts, then tokens and candidates (R337). -/
def resultSlots (x : StepSeq) : List Slot16 :=
  natSlot (x.out.length + 2 ^ 32 * x.accepted + 2 ^ 64 * x.next.length) ::
    tokenSlots (cdiv (x.out.length + x.next.length) 4) (x.out ++ x.next)

/-- The back's result goes to the front (R337). -/
def backResult (b : BackStep) (scores : List SeqScores) (s : State) : State :=
  let xs := backResults (b.entry == 2) s b.seqs scores
  sendSpan 0x31 b.model b.launch (xs.flatMap fun p => resultSlots p.2)
    { s with pair := { s.pair with backSteps := s.pair.backSteps.map fun y =>
        if y.index = b.index then { y with seqs := xs, result := true } else y } }

/-- A launched step of the back. -/
def backStep (i : Nat) (s : State) : Option BackStep := s.pair.backSteps.find? (·.index == i)

/-- SCOMMIT has come for a step of the back (R337): its cells issue the KV_WRITEs of the rows they staged. -/
def scommitted (m launch : Nat) (s : State) : State :=
  { s with pair := { s.pair with backSteps := s.pair.backSteps.map fun b =>
      if b.model = m ∧ b.launch = launch ∧ b.result then { b with commits := true } else b } }

/-- STEP_RESULT (R354): the sampling stage's scores for each sequence reach the ledger; the image's cells then issue the KV_WRITEs. -/
def stepResult (i : Nat) (scores : List SeqScores) (s : State) : State :=
  match ledgerEntry i s with
  | some e => if e.state = .launched ∧ !e.replay ∧ !e.tainted then setResult i (seqResults e.isPrefill s e.seqs scores) s else s
  | none => match backStep i s with
    | some b => if b.result then s else backResult b scores s
    | none => s

/-- STEP_RESULT. -/
def execStepResult (i : Nat) (scores : List SeqScores) (s : State) : Host.Outcome State Fault Refusal :=
  .next (stepResult i scores s)

/-! ### The commit point (R354) -/

/-- Element granules that a sequence's KV commit takes. -/
def commitGranules (m : Nat) (x : StepSeq) (s : State) : Nat := x.accepted * poolL m s * 2 * poolKvh m s * poolG m s

/-- Every sequence's KV commit is complete and 3 boundaries have passed since. -/
def commitReady (e : LedgerEntry) (s : State) : Bool :=
  decide (e.state = .result) && !e.replay && !e.tainted && decide (3 ≤ e.guard) &&
    e.seqs.all fun x => decide (commitGranules e.model x s ≤ x.acked)

/-- Beats since the previous commit exceed STEP_BEATS (R224). -/
def isLate (q : Request) (s : State) : Bool :=
  q.stepBeats != 0 && q.lastCommit.any fun b => decide (q.stepBeats < beatNo s - b)

/-- The TOKENS entry of a sequence (R215, R232). -/
def tokensEntry (q : Request) (x : StepSeq) (late isPrefill : Bool) (i : Nat) (s : State) : OutEntry :=
  let stop := x.out.getLast?.any fun t => q.stops.contains t
  let toks := x.out.foldr (fun t acc => t % 2 ^ 32 + 2 ^ 32 * acc) 0
  let pos := if isPrefill then x.start + x.tokens.length else x.start + 1
  let flags := bitN late + 2 * bitN (q.generated == 0) + 4 * bitN stop
  { data := outBits 1 flags x.out.length q.model q.reqId x.step (toks + pos * 2 ^ 160) s, tokens := x.out.length, req := q.id,
    step := x.step, entry := i, noAck := !seqMirrored q.seq s }

/-- Status with which a commit ends its request; none where it goes on (R232, R233). -/
def commitEnd (q : Request) (x : StepSeq) (s : State) : Option Nat :=
  if q.isPrefix then (if q.prefilled + x.tokens.length = q.ntok then some 0 else q.ending)
  else if x.out.isEmpty then q.ending
  else if x.out.getLast?.any fun t => q.stops.contains t then some 1
  else if q.maxNew ≤ q.generated + x.out.length then some 2
  else if posLimit q.model s ≤ (seqSlot x.seq s).len then some 3
  else q.ending

/-- Pages and sinter stores of a completed prefix (R225). -/
def completePfx (q : Request) (s : State) : State :=
  let ps := (seqSlot q.seq s).pages.map fun e => { e with shared := true }
  modPfx q.handle (fun h => { h with pending := false, pages := ps, lp := q.ntok, sinter := storesOf q.seq s }) s

/-- What the commit changes in a request (R216, R217, R224). -/
def advanceRequest (e : LedgerEntry) (x : StepSeq) (s : State) : State :=
  modRequest x.req (fun q =>
    let pre := if e.isPrefill then q.prefilled + x.tokens.length else q.prefilled
    { q with
      inStep := false
      prefilled := pre
      state := if q.state = .prefill ∧ pre = q.ntok ∧ !q.isPrefix then .decode else q.state
      generated := q.generated + x.out.length
      next := if x.out.isEmpty then q.next else x.next
      lastCommit := some (beatNo s)
      readyAt := if e.isPrefill ∧ x.out.isEmpty then q.readyAt else s.svc.nextReady })
    { s with svc := { s.svc with nextReady := s.svc.nextReady + 1 } }

/-- A late step of a model (R221, R224). -/
def noteLate (m : Nat) (s : State) : State := modModelSlot m (fun x => { x with lateNow := true }) (raise F.SVC_STS.LATE s)

/-- Commit one sequence of a step (R117, R186, R190, R191, R202, R215, R232, R354, R356). -/
def commitSeq (e : LedgerEntry) (x : StepSeq) (s : State) : State :=
  let s0 := openPages x.seq (spansOf x.start (x.start + x.accepted)) (commitKv x s)
  let s1 := modSeqSlot x.seq (fun y => { y with len := y.len + x.accepted }) s0
  let s2 := when (decide (posLimit e.model s1 ≤ (seqSlot x.seq s1).len)) (raise F.KV_STS.LIMIT) s1
  match request x.req s2 with
  | none => s2
  | some q =>
    let late := x.reserved && isLate q s2
    let s3 := when late (noteLate e.model) (advanceRequest e x s2)
    let s4 := when (x.reserved && !x.out.isEmpty) (putTokens q.ring (tokensEntry q x late e.isPrefill e.index s2)) s3
    when (q.isPrefix && q.prefilled + x.tokens.length == q.ntok) (completePfx q) s4

/-- End the request of a committed sequence where its commit ends it. -/
def finishSeq (ends : List (Nat × Nat)) (s : State) : State := forEach ends (fun p => endRequest p.1 p.2) s

/-- Statuses of the requests that this commit ends. -/
def commitEnds (e : LedgerEntry) (s0 s : State) : List (Nat × Nat) :=
  e.seqs.filterMap fun x =>
    match request x.req s0 with
    | some q => (commitEnd q x s).map fun st => (q.id, st)
    | none => none

/-- What a commit group carries of one sequence (R318): its KV, its state, and the prefix that the commit completes. -/
def mirrorStepSeq (x : StepSeq) (s : State) : State :=
  let s1 := mirrorState x.seq (mirrorKv x.seq x.start (x.start + x.accepted) s)
  match request x.req s with
  | some q => when (q.isPrefix && q.prefilled == q.ntok) (mirrorPfx q.model q.handle (some q.seq) q.ntok) s1
  | none => s1

/-- The commit group of a step for the mirror (R318): every mirrored sequence, then COMMIT. -/
def mirrorStep (e : LedgerEntry) (s : State) : State :=
  let xs := e.seqs.filter fun x => seqMirrored x.seq s
  if xs.isEmpty then s
  else
    let s1 := forEach xs mirrorStepSeq s
    let data := xs.flatMap fun x =>
      commitSlots x.seq x.reqId x.step x.out (x.next.headD 0) (match request x.req s1 with
        | some q => if q.thru = 0 then 0xFFFFFFFF else q.thru - 1
        | none => 0xFFFFFFFF)
    mirrorCommit e.index e.model e.launch data (modLedger e.index (fun y => { y with group := some (nextPsn 1 s1) }) s1)

/-- The front of a split model tells the back that the step has committed (R337). -/
def sendScommit (e : LedgerEntry) (s : State) : State :=
  if on (F.SPLIT_CTRL.EN e.model) s && rd F.PAIR_STATE.STATE s == 5 && on F.PAIR_STATE.SENIOR s then
    sendSpan 0x32 e.model e.launch [] s
  else s

/-- The KV commit of a step of the back is complete (R337, R354). -/
def backReadyToCommit (b : BackStep) (s : State) : Bool :=
  b.commits && b.seqs.all fun p => decide (commitGranules b.model p.2 s ≤ p.2.acked)

/-- The KV commit of one sequence at the back: LEN rises (R337). -/
def backCommitSeq (m : Nat) (x : StepSeq) (s : State) : State :=
  let s1 := modSeqSlot x.seq (fun y => { y with len := y.len + x.accepted })
    (openPages x.seq (spansOf x.start (x.start + x.accepted)) (commitKv x s))
  when (decide (posLimit m s1 ≤ (seqSlot x.seq s1).len)) (raise F.KV_STS.LIMIT) s1

/-- The back commits a step's staged KV (R337). -/
def backCommit (b : BackStep) (s : State) : State :=
  if backReadyToCommit b s then
    forEach b.seqs (fun p => backCommitSeq b.model p.2)
      { s with pair := { s.pair with backSteps := s.pair.backSteps.filter (·.index != b.index) } }
  else s

/-- STEP_COMMIT (R354): the commit point of a step, as one act; at the back of a split model its KV commit (R337). -/
def stepCommit (i : Nat) (s : State) : State :=
  match ledgerEntry i s with
  | none => match backStep i s with
    | some b => backCommit b s
    | none => s
  | some e =>
    if commitReady e s then
      let n := (e.seqs.map fun x => x.out.length).foldl (· + ·) 0
      let waits := e.seqs.any fun x => seqMirrored x.seq s
      let s1 := addTele e.model 5 n (bumpBy F.TOK_GEN_CNT n
        (modLedger i (fun y => { y with state := .committed, awaitsAck := waits }) s))
      let s2 := forEach e.seqs (commitSeq e) s1
      let s3 := sendScommit e (mirrorStep e s2)
      settleLedger i (finishSeq (commitEnds e s s3) s3)
    else s

/-- STEP_COMMIT. -/
def execStepCommit (i : Nat) (s : State) : Host.Outcome State Fault Refusal := .next (stepCommit i s)

end Sys2Proof.Machine
end

