-- ==== Sys2Proof/Machine/Sched.lean ====
section
/-!
DEFINITION. The schedule's heartbeat: the hold decision and its slot word, slot boundaries, launches, iterations, gating (R137 to R147,
R154, R218, R256, R388 to R391).
-/
namespace Sys2Proof.Machine
open Sys2Proof

/-! ### Gating levels (R389 to R391) -/

/-- Four bits reversed (R389). -/
def rev4 (q : Nat) : Nat := bitsOf q 3 1 + 2 * bitsOf q 2 1 + 4 * bitsOf q 1 1 + 8 * bitsOf q 0 1

/-- `COOL_STATE.STATE`: 0 NORMAL, 1 LOW45, 2 LOW30, 3 STOPPING, 4 STOPPED. -/
def coolSt (s : State) : Nat := rd F.COOL_STATE.STATE s

/-- A coolant stop: every launch is empty, replays included (R404). -/
def coolStop (s : State) : Bool := decide (3 ≤ coolSt s)

/-- G_f of a field and its SRC (R391, R411): 0 none, 1 thermal, 2 field limit, 3 ceiling, 4 coolant stop, 5 fatal. -/
def gateLevel (f : Nat) (s : State) : Nat × Nat :=
  if s.faults.stopped then (16, 5)
  else if coolSt s = 4 then (16, 4)
  else if rd F.BOOT_STATE.MODE s = 2 then (16, 0)
  else
    let x := fieldPower f s
    let cap := rd F.PWR_STATE.G_CAP s
    let g := max x.gTherm (max x.gPwr cap)
    (g, if g = 0 then 0 else if x.gTherm = g then 1 else if x.gPwr = g then 2 else 3)

/-- A field is gated in the physical slot with this count (R389). -/
def gatedIn (q f : Nat) (s : State) : Bool := decide (rev4 (q % 16) < (gateLevel f s).1)

/-- Fields gated in a physical slot. -/
def gatedFields (q : Nat) (s : State) : List Nat := (List.range 72).filter fun f => gatedIn q f s

/-- Largest G_f. -/
def gateMax (s : State) : Nat := ((List.range 72).map fun f => (gateLevel f s).1).foldl max 0

/-! ### Launches (R137, R218, R358) -/

/-- Launch number of a model whose launch slot is schedule slot `n`; an image that waits to start begins at the boundary. -/
def launchDue (m n : Nat) (s : State) : Option Nat :=
  let im := image m s
  if im.running then
    if im.start ≤ n ∧ (n - im.start) % max 1 im.interval = 0 then some (im.launch0 + (n - im.start) / max 1 im.interval) else none
  else if im.toStart && !coolStop s then some im.launch0
  else none

/-- A step marked for replay may be launched (R320, R358, R372). -/
def mayReplay (m : Nat) (s : State) : Bool := serving s && oclServes s && slotSt m s == 2 && !lagFull s

/-- The step that the back half of a split model launches next: what its crossings made ready (R336), while the step's activity is not
held (R166). -/
def nextBack (m : Nat) (s : State) : Option BackStep :=
  if rd F.PAIR_STATE.STATE s = 5 then
    match s.pair.backReady.find? (·.model == m) with
    | some b => if held (activityOf b.entry) s then none else some b
    | none => none
  else none

/-- Its launch entry. -/
def backEntry (m : Nat) (s : State) : Nat := ((nextBack m s).map (·.entry)).getD 0

/-- Nothing but empty launches leaves the service (R284, R329, R372). -/
def launchesNothing (s : State) : Bool := !serving s || !oclServes s || asMirror s

/-- Launch entry of a model's launch slot (R218): replays first, then a step, then a tune block; a block's fillers carry entry 3. -/
def planEntry (m launch : Nat) (s : State) : Nat :=
  if coolStop s || launchesNothing s then 0
  else if splitBack m s then backEntry m s
  else if inBlock m launch s then 3
  else match nextReplay m s with
    | some e => if mayReplay m s && replayReady e s then e.entry else 0
    | none =>
      let p := planStep m launch s
      if p.1 ≠ 0 then p.1 else if (tunePack m launch s).isEmpty then 0 else 3

/-- Plans of every model whose launch slot is schedule slot `n`. -/
def planAll (n : Nat) (s : State) : List LaunchPlan :=
  (List.range 16).filterMap fun m => (launchDue m n s).map fun k => ⟨m, k, planEntry m k s⟩

/-- A sequence without output room keeps its model from launching it: OUT_FULL (R215, R251). -/
def noteBlocked (ps : List LaunchPlan) (s : State) : State :=
  when (ps.any fun p => outBlocked p.model p.launch s) (raise F.SVC_STS.OUT_FULL) s

/-! ### The hold decision (R144 to R146) -/

/-- EXT: `nHOLD_EXT` is asserted, honoured and not stuck (R144, R490). -/
def extHold (s : State) : Bool := s.mgmt.hold && on F.SCHED_CTRL.EXT_EN s && !s.mgmt.stuck

/-- The sources of the coming boundary: DUE, PACE, STRETCH, EXT, HOST, FW, GATE from bit 0 up. -/
def holdCauses (s : State) : BitVec 7 :=
  BitVec.ofNat 7 (bitN s.sched.reqDue + 2 * bitN s.sched.reqPace + 4 * bitN s.sched.reqStretch + 8 * bitN (extHold s) +
    16 * bitN (on F.SCHED_CTRL.HOST_HOLD s) + 32 * bitN (!s.sched.fw.isEmpty) +
    64 * bitN (!(gatedFields (s.sched.phys + 1) s).isEmpty))

/-- LAUNCH of the slot word (R145). -/
def launchBits (ps : List LaunchPlan) : Nat := (ps.map fun p => p.entry * 4 ^ p.model).foldl (· + ·) 0

/-- The hub decides (R145): the slot word is delivered, with a widen change where one waits. -/
def decideHold (s : State) : State :=
  let causes := holdCauses s
  let isHeld := decide (causes ≠ 0)
  let ps := if isHeld then [] else planAll (slotNo s + 1) s
  let p := carryWiden s
  let w := launchBits ps + bitN isHeld * 2 ^ 32 + p.1
  noteBlocked ps { p.2 with sched := { p.2.sched with
    slotWord := BitVec.ofNat 64 w, decided := true, plan := ps, causes := causes } }

/-- A cell's copies of the slot word disagree (R146). -/
def slotMismatch (c : Nat) (s : State) : State :=
  if c < cellCount then report 0x0C c (raise F.SCHED_STS.HOLD_MISMATCH s) else s

/-- HOLD_DECISION (R145, R146): `mismatch` names the cells whose two copies disagree. (DEDUCED, unsafe: log entry 24.) -/
def holdDecision (x : SlotInputs) (s : State) : State :=
  let s1 := forEach x.mismatch slotMismatch (decideHold s)
  { s1 with sched := { s1.sched with startEnvs := x.starts, dueEnvs := x.dues } }

/-- HOLD_DECISION. -/
def execHoldDecision (x : SlotInputs) (s : State) : Host.Outcome State Fault Refusal := .next (holdDecision x s)

/-! ### What every boundary does -/

/-- Cells whose placement shifts: their memory is that of the position they now stand on (R36, R360). -/
def shiftKey (base g d a : Nat) : Option Nat :=
  let lo := base + (32 * g + d) * cellBytes
  let hi := base + (32 * g + 32) * cellBytes
  if lo ≤ a ∧ a < hi then (if a < lo + cellBytes then none else some (a - cellBytes)) else some a

/-- The memory of a cluster's cells follows the shift to its spare; the spare's own content is not yet written. -/
def shiftCells (field row g d : Nat) (s : State) : State :=
  let base := cellAt field row 0 * cellBytes
  { s with cellMem := s.cellMem.filterMap fun p => (shiftKey base g d p.1).map fun k => (k, p.2) }

/-- A spare comes into use where USED rises (R360). -/
def noteShift (p : PlaceChange) (s : State) : State :=
  forEach (List.range 4) (fun g t =>
    let was := spareByte p.field p.row g s
    let is := bitsOf p.word.toNat (8 * g) 8
    when (bitsOf was 7 1 == 0 && bitsOf is 7 1 == 1 && bitsOf is 6 1 == 0) (shiftCells p.field p.row g (bitsOf is 0 5)) t) s

/-- A row takes its new placement (R39, R63). -/
def placeRow (p : PlaceChange) (s : State) : State := setRow p.field p.row p.word (noteShift p s)

/-- Placement changes take effect (R39). -/
def applyPlaces (s : State) : State :=
  forEach s.mesh.placing placeRow { s with mesh := { s.mesh with placing := [] } }

/-- One table write takes effect (R61). -/
def applyTable (w : TableWrite) (s : State) : State :=
  let k := w.router * 256 + w.tree
  if w.red then { s with mesh := { s.mesh with redTab := Table.set (fun _ => 0) s.mesh.redTab k w.value } }
  else { s with mesh := { s.mesh with mcast := Table.set (fun _ => 0) s.mesh.mcast k (BitVec.ofNat 16 w.value.toNat) } }

/-- Table writes take effect (R61). -/
def applyTables (s : State) : State :=
  forEach s.mesh.tabWrites applyTable { s with mesh := { s.mesh with tabWrites := [] } }

/-- The map that the control granule's shadow selects (R74). -/
def selectedMap (g : Granule) : BitVec 240 := BitVec.ofNat 240 (fieldOf g (if bitAt g 504 then 256 else 0) 240)

/-- The bank classes of every cell follow its shadow (R74). -/
def applyClasses (s : State) : State :=
  { s with cells := Table.mapVals (fun _ => Cell.reset) (fun _ x => { x with classes := selectedMap x.shadow0 }) s.cells }

/-- Results in the ledger see one more boundary (R354). -/
def ageGuards (s : State) : State :=
  { s with ledger := { s.ledger with entries := s.ledger.entries.map fun e =>
      if e.state = .result then { e with guard := e.guard + 1 } else e } }

/-- The physical slot that the boundary begins is gated in the fields that asked for the hold (R390, R409, R410). -/
def gateSlot (s : State) : State :=
  let fs := if bitAt s.sched.causes 6 then gatedFields s.sched.phys s else []
  let s1 := { s with sched := { s.sched with gated := fs } }
  let cap := rd F.PWR_STATE.G_CAP s
  s1 |> when (!fs.isEmpty) (bump F.THR_GATE_CNT)
    |> when (!fs.isEmpty && cap != 0 && cap == gateMax s) (bump F.CAP_GATE_CNT)

/-- What both kinds of boundary do: physical time passes (R140), placements, tables and classes take effect. -/
def boundaryCommon (s : State) : State :=
  let s1 := { s with
    now := max s.now (128 * (s.sched.phys + 1))
    sched := { s.sched with phys := s.sched.phys + 1, decided := false, reqDue := false, reqPace := false, reqStretch := false } }
  ageGuards (applyClasses (applyTables (applyPlaces (gateSlot s1))))

/-- The counter of a hold cause (R173). -/
def causeCnt (i : Nat) : Nat :=
  [F.HOLD_DUE_CNT, F.HOLD_PACE_CNT, F.HOLD_STRETCH_CNT, F.HOLD_EXT_CNT, F.HOLD_HOST_CNT, F.HOLD_FW_CNT, F.HOLD_GATE_CNT].getD i
    F.HOLD_GATE_CNT

/-- A held boundary (R140, R173): the slot repeats. -/
def heldBoundary (s : State) : State :=
  let s1 := raise F.SCHED_STS.HELD (bump F.HELD_SLOT_CNT { s with sched := { s.sched with heldRun := s.sched.heldRun + 1 } })
  forEach ((List.range 7).filter fun i => bitAt s.sched.causes i) (fun i => bump (causeCnt i)) s1

/-! ### An advancing boundary -/

/-- SYNCs whose slot has passed complete (R141). -/
def releaseSyncs (s : State) : State :=
  let cs := (s.cells.filter fun p =>
    match p.2.stall with
    | .sync m => decide (m < cellSlot p.1 s) && decide (p.2.phase = .none)
    | _ => false).map (·.1)
  forEach cs completeSync s

/-- RUN is set in a cell by the schedule: the sequencer begins afresh. -/
def startCell (env : MemEnv) (t36 : Bool) (c : Nat) (s : State) : State :=
  modCell c (fun x => { x with illegal := false, stall := .none, inIter := false, lateSync := false, fetch := [] }) (setRun c t36 env s)

/-- Empty launch rings of cells (R139). -/
def clearRings (cs : List Nat) (s : State) : State := forEach cs (fun c => modCell c fun x => { x with ring := 0 }) s

/-- Images that wait start at this boundary (R137): no launch of an earlier image stands in their cells' rings. -/
def startImages (s : State) : State :=
  let envs := s.sched.startEnvs
  let n := slotNo s
  let ms := (List.range 16).filter fun m => (image m s).toStart && slotSt m s == 2 && !coolStop s
  forEach ms (fun m t =>
    let im := image m t
    let cs := im.cells.filter fun c => !absent c t
    forEach cs (fun c => startCell (envs.of c) im.t36 c)
      (clearRings cs (setImage m { im with toStart := false, running := true, start := n } t))) s

/-- A launch's entry reaches the rings of the model's cells and the collectors' copies (R139, R147). -/
def writeRing (m launch entry : Nat) (s : State) : State :=
  let k := (launch - (image m s).launch0) % 1024
  let put := fun (x : Cell) => { x with
    ring := BitVec.ofNat 2048 (x.ring.toNat - fieldOf x.ring (2 * k) 2 * 4 ^ k + entry % 4 * 4 ^ k) }
  let s1 := forEach (image m s).cells (fun c => modCell c put) s
  { s1 with sched := { s1.sched with ringCopy := Table.set (fun _ => 0) s1.sched.ringCopy (m * 1024 + k) entry } }

/-- Steps that a launch carries (R256): its entry, but nothing for a filler of a tune block. -/
def carriesStep (m launch : Nat) (s : State) : Bool :=
  let k := (launch - (image m s).launch0) % 1024
  let e := Table.get (fun _ => 0) s.sched.ringCopy (m * 1024 + k)
  e != 0 && !(inBlock m launch s)

/-- A layer changes its form (R129, R154). -/
def applyWiden (w : WidenChange) (s : State) : State :=
  let x := layerPrec w.model w.layer s
  if w.wide then setLayerPrec w.model w.layer { x with wide := true } s
  else if x.granted then
    wr F.PREC_FRAME.WIDE_NOW (rd F.PREC_FRAME.WIDE_NOW s - 1)
      (setLayerPrec w.model w.layer { x with wide := false, granted := false, remain := 0 } s)
  else setLayerPrec w.model w.layer { x with wide := false } s

/-- LAYER_LAG of a layer: from any cell of the image bound to it (R135). -/
def layerLag (m l : Nat) (s : State) : Nat :=
  match (image m s).cells.find? fun c => stageLayer (cell c s) == l with
  | some c => stageLayerLag (cell c s)
  | none => 0

/-- The first launch of a change whose word's boundary began schedule slot `n` (R154); that of the next start while no image runs. -/
def firstLaunch (m l n : Nat) (s : State) : Nat :=
  let im := image m s
  if im.running then im.launch0 + cdiv (n + 2 - (im.start + layerLag m l s)) (max 1 im.interval) else im.launch0

/-- Fix the first launch of a carried change (R154). -/
def fixWiden (w : WidenChange) (s : State) : State :=
  let k := firstLaunch w.model w.layer (slotNo s) s
  { s with prec := { s.prec with fixed := s.prec.fixed ++ [⟨w, k⟩] } }

/-- Launch that enters a layer's first stage in schedule slot `n` (R135, R138). -/
def entering (m l n : Nat) (s : State) : Option Nat :=
  let im := image m s
  let d := im.start + layerLag m l s
  if im.running ∧ d ≤ n ∧ (n - d) % max 1 im.interval = 0 then some (im.launch0 + (n - d) / max 1 im.interval) else none

/-- A launch enters a layer that a widen is granted for: the form it runs, and its count where it carries a step (R129, R154). -/
def enterLayer (n key : Nat) (s : State) : State :=
  let m := key / 256
  let l := key % 256
  match entering m l n s with
  | none => s
  | some k =>
    let w := wideAt m l k s
    let s1 := if w = (layerPrec m l s).wide then s else applyWiden ⟨m, l, w⟩ s
    let x := layerPrec m l s1
    when (x.wide && carriesStep m k s1) (setLayerPrec m l { x with remain := x.remain - 1 }) s1

/-- Launches enter layers in the schedule slot just begun. -/
def enterLayers (s : State) : State :=
  forEach ((s.prec.layers.filter fun p => p.2.granted).map (·.1)) (enterLayer (slotNo s)) s

/-- Every carried change is fixed. -/
def fixCarried (s : State) : State := forEach s.prec.carried fixWiden { s with prec := { s.prec with carried := [] } }

/-- Form what a planned launch carries, and say which entry it takes (R218); while OCL is DOWN every launch is empty (R284), and at a mirror (R329). -/
def fillLaunch (p : LaunchPlan) (s : State) : Nat × State :=
  if launchesNothing s then (0, s)
  else match p.entry with
  | 0 => (0, s)
  | 3 =>
    if inBlock p.model p.launch s then (3, s)
    else if (nextReplay p.model s).isSome || (tunePack p.model p.launch s).isEmpty then (0, s)
    else (3, addTele p.model 2 1 (formTune p.model p.launch s))
  | n =>
    if splitBack p.model s then
      match nextBack p.model s with
      | some b => if b.entry = n then (n, launchBack b s) else (0, s)
      | none => (0, s)
    else
      match nextReplay p.model s with
      | some e => if e.entry = n ∧ mayReplay p.model s ∧ replayReady e s then (n, relaunch e p.launch s) else (0, s)
      | none =>
        let q := planStep p.model p.launch s
        if q.1 = n then (n, formStep p.model p.launch n q.2 s) else (0, s)

/-- A launch slot of a model (R137, R139); an image that a restart has stopped since the decision launches nothing (R357). -/
def doLaunch (p : LaunchPlan) (s : State) : State :=
  if (image p.model s).running then
    let r := fillLaunch p s
    let s1 := when (r.1 == 0) (addTele p.model 3 1) r.2
    writeRing p.model p.launch r.1 s1
  else s

/-- Launch at which what a launch serves was formed: the first one of its tune block, or itself (R256, R263). -/
def formedAt (m launch : Nat) (s : State) : Nat :=
  match s.tune.blocks.find? fun b => b.model == m && decide (b.launch ≤ launch) && decide (launch < b.launch + b.tblk) with
  | some b => b.launch
  | none => launch

/-- Entry of a recipe as what was formed at a launch has it (R126): the one kept from before a later switch, or the one in force. -/
def entryAt (m r launch layer : Nat) (s : State) : Word :=
  let kept := s.prec.outgoing.filter fun x => x.model == m && x.recipe == r
  match kept.find? fun x => decide (launch < x.upTo) with
  | some x => x.entries.getD layer 0
  | none =>
    if r = activeRecipe m s then recipeEntry r layer s
    else match kept.getLast? with
      | some x => x.entries.getD layer 0
      | none => recipeEntry r layer s

/-- Recipe number of a launch that the ledger does not name: the one in force at its launch slot. -/
def recipeAt (m launch : Nat) (s : State) : Nat :=
  match s.prec.outgoing.find? fun x => x.model == m && decide (launch < x.upTo) with
  | some x => x.recipe
  | none => activeRecipe m s

/-- Recipe entry that an iteration runs under: that of the step it serves, as the ledger recorded it, or of its launch (R126). -/
def iterRecipe (m launch layer : Nat) (s : State) : Word :=
  let k := formedAt m launch s
  let r := match s.ledger.entries.find? fun e => e.model == m && e.launch == launch && !e.replay with
    | some e => e.recipe
    | none => recipeAt m k s
  entryAt m r k layer s

/-- A cell begins its iteration serving launch `k`, counted from START (R138, R139, R153, R257). -/
def beginIter (c k : Nat) (s : State) : State :=
  let x := cell c s
  let m := stageModel x
  let launch := (image m s).launch0 + k
  let role := roleOf x k s
  let e := ringEntry x k
  let y : Cell := { x with
    pc := if role = 0 then x.pc else BitVec.ofNat 18 (roleEntry x role), fetch := [], stall := .none, serving := e,
    lateSync := x.inIter && decide (x.syncs < stageInterval x)
    iterStart := cellSlot c s, iterLaunch := launch, inIter := decide (role ≠ 0), syncs := 0, wide := decide (role = 2),
    recipe := iterRecipe m launch (stageLayer x) s,
    tuneRole := if role = 3 then 1 else if role = 4 then 2 else if e = 3 then 3 else 0 }
  setCell c y s

/-- Iterations that begin in the schedule slot just begun (R138). -/
def startIters (s : State) : State :=
  forEach (runningCells s) (fun c t =>
    match iterOf (cell c t) (cellSlot c t) t with
    | some (k, 0) => beginIter c k t
    | _ => t) s

/-- Images that started at this boundary and that the slot word carries no launch for: their launch 0 is empty (R137, R139). -/
def emptyStarts (plan : List LaunchPlan) (s : State) : List LaunchPlan :=
  ((List.range 16).filter fun m => (image m s).running && (image m s).start == slotNo s && !(plan.any (·.model == m))).map fun m =>
    ⟨m, (image m s).launch0, 0⟩

/-- An advancing boundary (R137 to R141, R154). -/
def advanceBoundary (s : State) : State :=
  let plan := s.sched.plan
  let s1 := setCnt F.SLOT_NO ((slotNo s + 1) % 2 ^ 54) { s with sched := { s.sched with heldRun := 0, longHeld := false, plan := [] } }
  let s2 := fixCarried (startImages (releaseSyncs s1))
  startIters (enterLayers (forEach (plan ++ emptyStarts plan s2) doLaunch s2))

/-- SLOT_BOUNDARY (R140): the boundary at cy 128, held or advancing as the slot word says. (DEDUCED, unsafe: log entry 24.) -/
def slotBoundary (s : State) : State :=
  let s0 := if s.sched.decided then s else decideHold s
  let isHeld := bitAt s0.sched.slotWord 32
  let s1 := boundaryCommon s0
  if isHeld then heldBoundary s1
  else
    let s2 := advanceBoundary s1
    { s2 with sched := { s2.sched with startEnvs := [] } }

/-- SLOT_BOUNDARY. -/
def execSlotBoundary (s : State) : Host.Outcome State Fault Refusal := .next (slotBoundary s)

end Sys2Proof.Machine
end

