-- ==== Sys2Proof/Machine/Load.lean ====
section
/-!
DEFINITION. The load check of an image (R106, R134 to R137, R149 to R156, R171, R255, R258, R335, R509 to R511).
-/
namespace Sys2Proof.Machine
open Sys2Proof

/-- Why a load is rejected, and where (R150, R173). -/
structure LoadFail where
  /-- Reason code. -/
  reason : Nat
  /-- `LOAD_CELL.CELL`. -/
  cell : Nat
  /-- `LOAD_CELL.STRUCT`. -/
  struct : Nat
  /-- `LOAD_DETAIL`. -/
  detail : Nat
  deriving DecidableEq, Repr

/-- A rejection that names no structure. -/
def loadFail (reason cell detail : Nat) : LoadFail := ⟨reason, cell, 0, detail⟩

/-- A TABLE rejection (R510). -/
def tableFail (struct off : Nat) : LoadFail := ⟨0x0E, 0, struct, off⟩

/-- The first failure of a list of conditions, each with its rejection. -/
def firstBad : List (Bool × LoadFail) → Option LoadFail
  | [] => none
  | (b, f) :: rest => if b then some f else firstBad rest

/-- The failure with the lowest reason code (R510). -/
def lowestBad (l : List (Bool × LoadFail)) : Option LoadFail :=
  (l.filter (·.1)).foldl (fun (b : Option LoadFail) p =>
    match b with
    | none => some p.2
    | some x => if p.2.reason < x.reason then some p.2 else some x) none

/-! ### The header (R149, R510 part 1) -/

/-- INTERVAL. -/
def hdrInterval (h : BitVec 512) : Nat := fieldOf h 32 12

/-- FLAGS [0]: a T36 image. -/
def hdrT36 (h : BitVec 512) : Bool := bitAt h 56

/-- REGION. -/
def hdrRegion (h : BitVec 512) : Nat := fieldOf h 64 72

/-- COUNT. -/
def hdrCount (h : BitVec 512) : Nat := fieldOf h 0 32

/-- NVAR. -/
def hdrNvar (h : BitVec 512) : Nat := fieldOf h 160 32

/-- A field lies in a region. -/
def inRegion (region f : Nat) : Bool := bitsOf region f 1 == 1

/-- The header's own fields. (DEDUCED, unsafe: log entry 25.) -/
def checkHeader (m : Nat) (h : BitVec 512) : Option LoadFail :=
  firstBad [
    (hdrInterval h == 0, tableFail 0 4),
    (fieldOf h 44 4 != 0, tableFail 0 5),
    (fieldOf h 48 4 != m || fieldOf h 52 4 != 0, tableFail 0 6),
    (fieldOf h 57 7 != 0, tableFail 0 7),
    (fieldOf h 136 8 != 0, tableFail 0 17),
    (fieldOf h 256 256 != 0, tableFail 0 32)]

/-! ### Paths (R42, R43, R54 to R57, R509) -/

/-- A link direction in use, or the L port of a cell: router, port, and the cycle counted from the flit's first. -/
structure LinkUse where
  /-- Router. -/
  router : Nat
  /-- Output port. -/
  port : Nat
  /-- Cycle. -/
  cy : Nat
  deriving DecidableEq, Repr

/-- Links of an X-then-Y route with their cycles, from cycle `t` on; `turned` once the alignment cycle is spent. -/
def timeRoute : List (Nat × Nat) → Bool → Nat → List LinkUse
  | [], _, _ => []
  | (r, p) :: rest, turned, t =>
    if (p = 1 ∨ p = 3) ∧ !turned then
      ⟨r, 4, t⟩ :: ⟨r, p, t + 1⟩ :: timeRoute rest true (t + 1 + hopLatency r p)
    else ⟨r, p, t⟩ :: timeRoute rest turned (t + hopLatency r p)

/-- Link use of a unicast flit (R509): the first cycle is that of the L port. -/
def unicastUse (a b : Nat) : List LinkUse := timeRoute (route a b) false 1

/-- A leaf of a multicast tree, with the way from the root to it: routers with the port the flit leaves by. -/
abbrev Leaf := Nat × List (Nat × Nat)

/-- Leaves of a multicast tree from a router on, reached by `way`, and every router passed; `n` bounds the hops. A router whose entry
is not valid, or a port that faces off the array, gives none. -/
def treeWalk : Nat → Nat → Nat → List (Nat × Nat) → State → Option (List Leaf × List Nat)
  | 0, _, _, _, _ => none
  | n + 1, tree, r, way, s =>
    let e := mcastEntry r tree s
    if !bitAt e 5 then none
    else
      let here : List Leaf := if bitAt e 0 then [(r, way)] else []
      ([1, 2, 3, 4].filter fun p => bitAt e p).foldl (fun (acc : Option (List Leaf × List Nat)) p =>
        match acc, neighbour r p with
        | some a, some q => (treeWalk n tree q (way ++ [(r, p)]) s).map fun b => (a.1 ++ b.1, a.2 ++ b.2)
        | _, _ => none) (some (here, [r]))

/-- A multicast tree that keeps R55: its leaves, or none. The way to each leaf is an X leg and then a Y leg, as a unicast flit's is, and
no router appears twice or leads to no leaf. -/
def treeLeaves (tree root : Nat) (s : State) : Option (List Nat) :=
  match treeWalk 1344 tree root [] s with
  | none => none
  | some (leaves, passed) =>
    let onWays := root :: leaves.flatMap fun l => l.2.map fun p => (neighbour p.1 p.2).getD p.1
    if passed.eraseDups.length = passed.length ∧ !leaves.isEmpty ∧ leaves.all (fun l => l.2 == route root l.1) ∧
        passed.all onWays.contains then
      some (leaves.map (·.1))
    else none

/-- Inputs of a reduction entry. -/
def redInputs (e : Word) : Nat := ((List.range 5).filter fun i => bitAt e i).length

/-- Path of a contribution that enters a router by port `i`: routers with the port each leaves by; `n` bounds the hops. It ends with port
0 at the root (R56); with port 7 at a router that does not take it or has nowhere to send it. -/
def leafPath : Nat → Nat → Nat → Nat → State → List (Nat × Nat)
  | 0, _, _, r, _ => [(r, 7)]
  | n + 1, tree, i, r, s =>
    let e := redEntry r tree s
    let o := fieldOf e 5 3
    if !bitAt e 8 ∨ !bitAt e i ∨ 4 < o then [(r, 7)]
    else if o = 0 then [(r, 0)]
    else match neighbour r o with
      | none => [(r, 7)]
      | some q => (r, o) :: leafPath n tree (opposite o) q s

/-- Path of a leaf's contribution (R57). -/
def leafWay (tree src : Nat) (s : State) : List (Nat × Nat) := leafPath 1344 tree 0 src s

/-- Where a leaf's path ends: its root; the last router it reaches where it reaches none. (DESIGN CHOICE, unsafe: log entry 85.) -/
def rootOf (src : Nat) (path : List (Nat × Nat)) : Nat := (path.getLast?.map (·.1)).getD src

/-- Y leg, then X leg (R57). -/
def yThenX : Bool → List (Nat × Nat) → Bool
  | _, [] => true
  | inX, (_, p) :: rest =>
    if p = 0 then rest.isEmpty
    else if p = 2 ∨ p = 4 then yThenX true rest
    else !inX && yThenX false rest

/-- Combining routers of a path. -/
def combiners (tree : Nat) (path : List (Nat × Nat)) (s : State) : List Nat :=
  (path.filter fun p => decide (2 ≤ redInputs (redEntry p.1 tree s))).map (·.1)

/-- Link use of a leaf's contribution: the alignment cycle first where it crosses rows, 2 cy at each combining router. -/
def leafUse (tree : Nat) (s : State) : List (Nat × Nat) → Nat → List LinkUse
  | [], _ => []
  | (r, p) :: rest, t =>
    let t1 := t + (if 2 ≤ redInputs (redEntry r tree s) then 2 else 0)
    if p = 0 then [] else ⟨r, p, t1⟩ :: leafUse tree s rest (t1 + hopLatency r p)

/-- All link use of a leaf's contribution. -/
def leafUses (tree src : Nat) (path : List (Nat × Nat)) (s : State) : List LinkUse :=
  match path with
  | (_, p) :: _ => if p = 1 ∨ p = 3 then ⟨src, 4, 1⟩ :: leafUse tree s path 2 else leafUse tree s path 1
  | [] => []

/-! ### Records (R149) -/

/-- A transfer record with its fields apart. -/
structure Rec where
  /-- Index. -/
  idx : Nat
  /-- SRC. -/
  src : Nat
  /-- DST. -/
  dst : Nat
  /-- KIND. -/
  kind : Nat
  /-- Cycle of the first flit: 128 × SEND_SLOT + SEND_CY. -/
  send : Nat
  /-- TRAVEL. -/
  travel : Nat
  /-- Flits. -/
  len : Nat
  /-- DUE_SLOT. -/
  due : Nat
  /-- FORM: 0 narrow, 1 wide, 2 both, 3 the iterations of a tune block. -/
  form : Nat
  /-- Earlier records of the same leaf, tree, DUE_SLOT, FORM and CVAR: they belong to earlier sums. -/
  nth : Nat
  /-- CVAR. -/
  cvar : Nat
  /-- Byte of the first reserved field that is set; 16 for none. -/
  bad : Nat
  deriving DecidableEq, Repr

/-- Read a record. -/
def recOf (i : Nat) (b : TransferRec) : Rec :=
  { idx := i, src := fieldOf b 0 18, dst := fieldOf b 18 18, kind := fieldOf b 36 2, send := 128 * fieldOf b 38 16 + fieldOf b 54 7,
    travel := fieldOf b 64 11, len := fieldOf b 75 4 + 1, due := fieldOf b 80 16, form := fieldOf b 96 2,
    nth := 0, cvar := fieldOf b 98 14,
    bad := if fieldOf b 36 2 = 3 then 4 else if fieldOf b 36 2 ≠ 0 ∧ fieldOf b 26 10 ≠ 0 then 3
      else if fieldOf b 61 3 ≠ 0 then 7 else if bitAt b 79 then 9 else if fieldOf b 112 16 ≠ 0 then 14 else 16 }

/-- Contributions of one leaf to one tree, due together. -/
def sameLeaf (a b : Rec) : Bool :=
  a.kind == 2 && b.kind == 2 && a.src == b.src && a.dst % 256 == b.dst % 256 && a.due == b.due && a.form == b.form && a.cvar == b.cvar

/-- Records in order, each with its place among the contributions of its leaf. -/
def numberRecs : List Rec → List Rec → List Rec
  | _, [] => []
  | earlier, r :: rs => { r with nth := (earlier.filter (sameLeaf r)).length } :: numberRecs (earlier ++ [r]) rs

/-- What a record's path is: its travel time as the W3 computes it, its link use, and the cells its flits land in with their
times. -/
structure PathOf where
  /-- T. -/
  t : Nat
  /-- Links. -/
  uses : List LinkUse
  /-- Landings: cell and cycle. -/
  lands : List (Nat × Nat)
  /-- First combining router's cycle on the path: link use from then on is shared with the tree's other leaves. -/
  shared : Nat
  deriving DecidableEq, Repr

/-- The tables that a record's trees run by: those of its caldera variant in place of the home ones (R156). -/
def withTables (vars : List CalVariant) (r : Rec) (s : State) : State :=
  if r.cvar = 0 then s
  else match vars[r.cvar - 1]? with
    | some v => forEach v.tables applyTable s
    | none => s

/-- The path of a record; none where its tree breaks R55 or R57. -/
def pathOf (r : Rec) (s : State) : Option PathOf :=
  match r.kind with
  | 0 => some ⟨Sys2Proof.Machine.travel r.src r.dst, unicastUse r.src r.dst, [(r.dst, Sys2Proof.Machine.travel r.src r.dst)], 2 ^ 32⟩
  | 1 => (treeLeaves (r.dst % 256) r.src s).map fun ls =>
      ⟨(ls.map fun l => Sys2Proof.Machine.travel r.src l).foldl max 0, (ls.flatMap fun l => unicastUse r.src l).eraseDups,
        ls.map fun l => (l, Sys2Proof.Machine.travel r.src l), 2 ^ 32⟩
  | _ =>
    let path := leafWay (r.dst % 256) r.src s
    if !yThenX false path ∨ (path.getLast?.map (·.2)) ≠ some 0 then none
    else
      let root := rootOf r.src path
      let cs := combiners (r.dst % 256) path s
      let uses := leafUses (r.dst % 256) r.src path s
      let t := Sys2Proof.Machine.travel r.src root + 2 * cs.length
      let cut := match uses.find? fun u => cs.contains u.router with
        | some u => u.cy
        | none => 2 ^ 32
      some ⟨t, uses, [(root, t)], cut⟩

/-- The router that a TREE rejection names (R150). -/
def treeRoot (r : Rec) (s : State) : Nat := if r.kind = 2 then rootOf r.src (leafWay (r.dst % 256) r.src s) else r.src

/-- A path of a record that has no travel time (R150): an end in an absent cluster, or two marked-out routers on it that cannot both be
bypassed. A reduction's path runs as the root's route to the leaf does. -/
def lostPath (r : Rec) (p : PathOf) (s : State) : Bool :=
  p.lands.any fun l => if r.kind = 2 then pathLost l.1 r.src s else pathLost r.src l.1 s

/-- Cells at which a path has its ends. -/
def pathEnds (r : Rec) (p : PathOf) : List Nat := r.src :: p.lands.map (·.1)

/-- Routers of a path. -/
def pathRouters (r : Rec) (p : PathOf) : List Nat := (pathEnds r p ++ p.uses.map (·.router)).eraseDups

/-- A record with its path. -/
abbrev Routed := Rec × PathOf

/-- The records of a variant's timetable (R155, R156): its own, and the home records that it does not replace: those whose ends do not
lie in the relocated cluster, of trees that its own records do not name. Variant 0 is the home timetable. -/
def inTimetable (v : Nat) (vars : List CalVariant) (all : List Rec) (r : Rec) : Bool :=
  if r.cvar ≠ 0 then r.cvar == v
  else if v = 0 then true
  else match vars[v - 1]? with
    | none => false
    | some x =>
      let moved := fun c => fieldOfCell c == x.field && rowOf c == x.row && colOf c / 32 == x.cluster
      !(moved r.src || (r.kind == 0 && moved r.dst)) &&
        !(r.kind != 0 && all.any fun q => q.cvar == v && q.kind == r.kind && q.dst % 256 == r.dst % 256)

/-- Two forms that one iteration may run: a narrow and a wide record never meet in one sum (R155). -/
def formsMeet (a b : Nat) : Bool := a == b || (a == 2 && decide (b < 2)) || (b == 2 && decide (a < 2))

/-- Records of one reduction: leaves of a tree that are due together, each leaf's contributions taken in record order.
(DEDUCED, unsafe: log entry 25.) -/
def sameSum (a b : Rec) : Bool :=
  a.kind == 2 && b.kind == 2 && a.dst % 256 == b.dst % 256 && a.due == b.due && a.cvar == b.cvar && formsMeet a.form b.form &&
    a.nth == b.nth

/-- Forms that a record runs in (R155): both, for one that every launch runs. -/
def formsOf (r : Rec) : List Nat := if r.form = 2 then [0, 1] else [r.form]

/-- In every form that a leaf's record runs in, another leaf of the sum comes to one place later: the sum that goes on from there is not
formed by this one's flit (R56). `mine` is its own cycle there, `theirs` the cycles of another record's flits there. -/
def beaten (all : List Routed) (x : Routed) (mine : Nat) (theirs : Routed → List Nat) : Bool :=
  (formsOf x.1).all fun f => all.any fun y => sameSum x.1 y.1 && (formsOf y.1).contains f && y.1.idx != x.1.idx &&
    (theirs y).any fun n => decide (x.1.send + mine < y.1.send + n) || (x.1.send + mine == y.1.send + n && decide (y.1.idx < x.1.idx))

/-- Link use of a record of its timetable: past the first combining router only the flit that comes last counts. -/
def ownUses (all : List Routed) (x : Routed) : List LinkUse :=
  x.2.uses.filter fun u => decide (u.cy < x.2.shared) || !beaten all x u.cy fun y =>
    (y.2.uses.filter fun w => w.router == u.router && w.port == u.port).map (·.cy)

/-- Landings of a record of its timetable: of a sum, only the flit that comes last lands (R47, R56). -/
def ownLands (all : List Routed) (x : Routed) : List (Nat × Nat) :=
  x.2.lands.filter fun l => x.1.kind != 2 || !beaten all x l.2 fun y => (y.2.lands.filter fun k => k.1 == l.1).map (·.2)

/-- Cycles of a record's flits on its links, modulo the launch interval (R509). -/
def cyclesOf (period : Nat) (all : List Routed) (x : Routed) : List LinkUse :=
  (List.range x.1.len).flatMap fun j => (ownUses all x).map fun u => { u with cy := (x.1.send + 2 * j + u.cy) % period }

/-- L-port cycles of a record: 0 for sending, 1 for receiving, with the cell and the cycle. -/
def lportOf (period : Nat) (all : List Routed) (x : Routed) : List (Nat × Nat × Nat) :=
  (List.range x.1.len).flatMap fun j =>
    (0, x.1.src, (x.1.send + 2 * j) % period) ::
      (ownLands all x).map fun l => (1, l.1, (x.1.send + 2 * j + l.2) % period)

/-- Two L-port cycles are less than 2 cy apart. -/
def portClash (period : Nat) (a b : Nat × Nat × Nat) : Bool :=
  a.1 == b.1 && a.2.1 == b.2.1 && (a.2.2 == b.2.2 || (a.2.2 + 1) % period == b.2.2 || (b.2.2 + 1) % period == a.2.2)

/-- LINK_OVERLAP, LINK_LOAD and LPORT of a record against the earlier ones of one timetable (R47, R150, R509); `all` is that timetable. -/
def meetBad (period : Nat) (all earlier : List Routed) (x : Routed) : List (Bool × LoadFail) :=
  let mine := cyclesOf period all x
  let theirs := earlier.flatMap (cyclesOf period all)
  let both := mine.find? theirs.contains
  let slotUse := fun (u : LinkUse) =>
    ((theirs ++ mine).filter fun w => w.router == u.router && w.port == u.port && w.cy / 128 == u.cy / 128).length
  let load := mine.find? fun u => decide (96 < slotUse u)
  let ports := lportOf period all x
  let own := ports.zipIdx.find? fun p => (ports.take p.2).any (portClash period p.1)
  let others := earlier.filter fun y => !(sameSum x.1 y.1)
  let with_ := ports.find? fun p => (others.flatMap (lportOf period all)).any (portClash period p)
  let port := match own with
    | some p => some p.1
    | none => with_
  [(both.isSome, loadFail 0x03 ((both.map (·.router)).getD 0) x.1.idx),
    (load.isSome, loadFail 0x04 ((load.map (·.router)).getD 0)
      ((load.map (·.port)).getD 0 + 8 * ((load.map fun u => u.cy / 128).getD 0))),
    (port.isSome, loadFail 0x05 ((port.map fun p => p.2.1).getD 0) x.1.idx)]

/-- What the check of a record needs. -/
structure RecEnv where
  /-- MODEL's launch period in cycles. -/
  period : Nat
  /-- REGION. -/
  region : Nat
  /-- NVAR. -/
  nvar : Nat
  /-- Caldera variants. -/
  vars : List CalVariant
  /-- Every record. -/
  all : List Rec
  /-- Every record that has a path, with it. -/
  routed : List Routed

/-- The failures of one record (R150, R510 part 2); `earlier` are the records before it. -/
def recBad (e : RecEnv) (earlier : List Routed) (r : Rec) (s : State) : List (Bool × LoadFail) :=
  let off := 64 + 16 * r.idx
  let outside := decide (221183 < r.src) || (r.kind == 0 && decide (221183 < r.dst))
  let base := [(r.bad != 16, tableFail 0 (off + r.bad)), (decide (e.nvar < r.cvar), loadFail 0x0C r.src r.cvar),
    (decide (128 * r.due < r.send + r.travel + 2 * (r.len - 1) + 112), loadFail 0x02 r.src r.idx)]
  if outside then (true, loadFail 0x09 r.src r.idx) :: base
  else if r.kind = 3 then base
  else match pathOf r (withTables e.vars r s) with
    | none => (true, loadFail 0x0A (treeRoot r (withTables e.vars r s)) (r.dst % 256)) :: base
    | some p =>
      let x : Routed := (r, p)
      let out := (pathRouters r p).find? fun c => !inRegion e.region (fieldOfCell c)
      let gone := lostPath r p s
      let tabs := ((List.range (e.nvar + 1)).filter fun v => inTimetable v e.vars e.all r)
      base ++ [(p.t != r.travel && !gone, loadFail 0x01 r.src r.idx), (out.isSome, loadFail 0x09 r.src r.idx),
        (gone, loadFail 0x0F r.src r.idx)] ++
        tabs.flatMap fun v =>
          let of_ := fun (l : List Routed) => l.filter fun y => inTimetable v e.vars e.all y.1
          meetBad e.period (of_ e.routed) (of_ earlier) x

/-- The records in order: the first that fails ends the check. (DEDUCED, unsafe: log entry 25.) -/
def checkRecs (e : RecEnv) (s : State) : List Rec → List Routed → Option LoadFail
  | [], _ => none
  | r :: rest, earlier =>
    match lowestBad (recBad e earlier r s) with
    | some f => some f
    | none => checkRecs e s rest (match pathOf r (withTables e.vars r s) with
        | some p => earlier ++ [(r, p)]
        | none => earlier)

/-- The records that the header counts, up to the first that could not be read (R149). -/
def recordsRead (count : Nat) (l : List (Option TransferRec)) : List TransferRec := ((l.take count).takeWhile (·.isSome)).filterMap id

/-- Every record that was read, with its index and its place among its leaf's contributions. -/
def tableRecs (count : Nat) (l : List (Option TransferRec)) : List Rec :=
  numberRecs [] ((recordsRead count l).zipIdx.map fun p => recOf p.2 p.1)

/-- A read of the table that failed: the first record that is missing from the COUNT that the header gives. -/
def recordMissing (count : Nat) (l : List (Option TransferRec)) : Option LoadFail :=
  let n := (recordsRead count l).length
  if n < count then some (tableFail 0 (64 + 16 * n)) else none

/-! ### The other structures (R510 part 3) -/

/-- The first element that could not be read. -/
def firstNone {α : Type} (l : List (Option α)) : Option Nat := l.findIdx? (·.isNone)

/-- Byte offset in its entry of the first reserved field of a slice map entry that is set (R242). -/
def sliceReserved (b : BitVec 256) : Option Nat :=
  if fieldOf b 18 12 ≠ 0 then some 2
  else if fieldOf b 30 2 = 3 then some 3
  else if fieldOf b 30 2 = 2 ∧ fieldOf b 32 32 ≠ 0 then some 4
  else if fieldOf b 96 32 ≠ 0 then some 12
  else if fieldOf b 192 64 ≠ 0 then some 24
  else none

/-- The slice map as SLICE_COUNT bounds it (R242): its entries, or where it fails. -/
def sliceMapBad (count : Nat) (l : List (Option (BitVec 256))) : Option Nat :=
  let bad := (l.take count).zipIdx.findSome? fun p => match p.1 with
    | none => some (32 * p.2)
    | some b => (sliceReserved b).map (32 * p.2 + ·)
  match bad with
  | some o => some o
  | none => if l.length < count then some (32 * l.length) else none

/-- Slices of a slice map. -/
def slicesOf (count : Nat) (l : List (Option (BitVec 256))) : List Slice := ((l.take count).filterMap id).map fun b => sliceOf b.toNat

/-- Byte offset of the first reserved field of a shape table that is set (R228): bytes 17 to 31 of each entry. -/
def shapesReserved (b : BitVec 1792) : Option Nat :=
  ((List.range 7).find? fun i => fieldOf b (256 * i + 136) 120 != 0).map fun i => 32 * i + 17

/-- Offset of a slice's address that leaves the model's stack area (R237, R242). -/
def badSlice (m : Nat) (xs : List Slice) (s : State) : Option Nat :=
  let a := rd (F.STACK_AREA.VALUE m) s * 65536
  let n := rd (F.STACK_SIZE.VALUE m) s * 65536
  xs.findIdx? fun x => x.kind == 2 && !(decide (a ≤ x.staddr) && decide (x.staddr + 64 * x.len ≤ a + n) && x.staddr % 64 == 0)

/-- The side of a crossing record that lies on this module breaks R335. -/
def badCrossing (cells : List Nat) (t36 front : Bool) (b : BitVec 128) : Bool :=
  let back := bitAt b 36
  let sends := back != front
  let c := if sends then fieldOf b 0 18 else fieldOf b 18 18
  let g := if sends then fieldOf b 39 15 else fieldOf b 54 15
  fieldOf b 37 2 == 3 || fieldOf b 84 44 != 0 || !cells.contains c ||
    decide ((if t36 then 3072 else cellGranules) < g + fieldOf b 74 10 + 1)

/-- A caldera variant breaks R40 or R156: variants move one cluster of a native image into a caldera row of its field. -/
def badVariant (t36 : Bool) (x : CalVariant) (nrec : Nat) (s : State) : Bool :=
  t36 || decide (72 ≤ x.field) || decide (4 ≤ x.cluster) || decide (24 ≤ x.target) || decide (24 ≤ x.row) ||
    inCaldera (cellAt x.field x.row 0) s || !(inCaldera (cellAt x.field x.target 0) s) || (!x.usable && nrec != 0)

/-- Cells that slices of KIND 0 and 1 name, ascending (R510). -/
def boundCells (xs : List Slice) : List Nat :=
  ((xs.filter fun x => decide (x.kind ≤ 1)).map (·.cell)).foldl (fun l c => if l.contains c then l else insertBy (fun a b => decide (a ≤ b)) c l) []

/-- The images of other slots that hold a field of the region. -/
def otherRegions (m : Nat) (s : State) : List Nat :=
  (((List.range 16).filter fun k => k != m && slotSt k s != 0).map fun k => (image k s).region).flatMap fun r =>
    (List.range 72).filter (inRegion r)

/-- REGION lies in the slot's reservation and overlaps no other image's (R134, R237). -/
def checkRegion (m region : Nat) (s : State) : Option LoadFail :=
  let others := otherRegions m s
  ((List.range 72).find? fun f => inRegion region f && (!((modelSlot m s).fields.contains f) || others.contains f)).map
    fun f => loadFail 0x09 0 f

/-- A T36 image's window (R26, R27, R171). A WINDOW rejection names no cell; its field is the one at fault, the origin's for a second window,
and 0 for an origin out of range. (DESIGN CHOICE, unsafe: log entry 80.) -/
def checkWindow (m : Nat) (h : BitVec 512) (s : State) : Option LoadFail :=
  if !hdrT36 h then none
  else
    let fx := fieldOf h 144 8
    let fy := fieldOf h 152 8
    let w := windowFields fx fy
    let second := (List.range 16).any fun k => k != m && slotSt k s != 0 && (image k s).t36
    firstBad [
      (decide (3 < fx) || decide (2 < fy), loadFail 0x0D 0 0),
      (second, loadFail 0x0D 0 (fy * 9 + fx)),
      ((w.find? fun f => rd (F.FAB_CALDERA.ROWS f) s != 0).isSome,
        loadFail 0x0D 0 ((w.find? fun f => rd (F.FAB_CALDERA.ROWS f) s != 0).getD 0)),
      ((List.range 72).any (fun f => inRegion (hdrRegion h) f != w.contains f),
        loadFail 0x0D 0 (((List.range 72).find? fun f => inRegion (hdrRegion h) f != w.contains f).getD 0))]

/-- The model is the back or front of a split pair (R334). -/
def splitModel (m : Nat) (s : State) : Bool := on (F.SPLIT_CTRL.EN m) s && rd F.PAIR_CFG.MODE s == 2

/-- Part 3 of R510. A T36 image has no slice in a stack (R27: log entry 76). (DEDUCED, unsafe: log entry 25.) -/
def checkOthers (m : Nat) (h : BitVec 512) (inp : LoadInput) (s : State) : Option LoadFail :=
  let count := rd (F.SLICE_COUNT.VALUE m) s
  let slices := slicesOf count inp.slices
  let vars := inp.variants.filterMap id
  let recs := tableRecs (hdrCount h) inp.records
  let cells := boundCells slices
  let service := decide (4 < rd (F.MODEL_SVC.HEADS m) s) || rd (F.MODEL_SVC.GEN_ROWS m) s == 0 || rd (F.MODEL_SVC.PRE_ROWS m) s == 0
  let var := vars.zipIdx.find? fun p => badVariant (hdrT36 h) p.1 (recs.filter (·.cvar == p.2 + 1)).length s
  let cross := inp.crossings.findIdx? fun c => c.any (badCrossing cells (hdrT36 h) (on F.PAIR_STATE.SENIOR s))
  firstBad [
    (service, tableFail 5 0),
    ((sliceMapBad count inp.slices).isSome, tableFail 1 ((sliceMapBad count inp.slices).getD 0)),
    ((badSlice m slices s).isSome, tableFail 1 (32 * (badSlice m slices s).getD 0 + 16)),
    (hdrT36 h && slices.any (·.kind == 2), tableFail 1 (32 * (slices.findIdx? (·.kind == 2)).getD 0 + 3)),
    (inp.shapes.isNone, tableFail 2 inp.readAt),
    ((inp.shapes.bind shapesReserved).isSome, tableFail 2 ((inp.shapes.bind shapesReserved).getD 0)),
    ((firstNone inp.variants).isSome, tableFail 3 inp.readAt),
    (inp.variants.length != hdrNvar h, tableFail 3 0),
    (var.isSome, loadFail 0x0C ((var.map fun p => cellAt p.1.field p.1.row (32 * p.1.cluster)).getD 0) ((var.map (·.2 + 1)).getD 0)),
    (splitModel m s && (firstNone inp.crossings).isSome, tableFail 4 inp.readAt),
    (splitModel m s && cross.isSome, tableFail 4 (16 * cross.getD 0))]

/-! ### The bound cells (R510 parts 4 and 5) -/

/-- Part 4: a bound cell outside calderas, absent clusters and the region's outside. -/
def cellBad (region c : Nat) (s : State) : Option LoadFail :=
  if cellCount ≤ c then some (loadFail 0x09 c 0)
  else lowestBad [(inCaldera c s, loadFail 0x07 c 0), (absent c s, loadFail 0x08 c 0),
    (!inRegion region (fieldOfCell c), loadFail 0x09 c (fieldOfCell c))]

/-- Elements of a list of checks over cells. -/
def firstCell (f : Nat → Option LoadFail) : List Nat → Option LoadFail
  | [] => none
  | c :: cs => match f c with
    | some x => some x
    | none => firstCell f cs

/-- A weight record keeps R106; nonzero bytes where R103 has zero break it too. (DEDUCED, safe: log entry 75.) -/
def weightOk (f : Fmt) (c start n : Nat) (s : State) : Bool :=
  let eg := cdiv (n * f.bits) 8
  let codes := fun t => unpack f 64 (readBytes c start (8 * f.bits * t) (8 * f.bits) s)
  let marks := fun t => ((codes t).filter f.isMarker).length
  let total := markersOf c f start n s
  let entry := fun q => readBytes c (start + eg + 1) (2 * q) 2 s
  let tileOk := fun t =>
    let before := ((List.range t).map marks).sum
    let es := (List.range (marks t)).map fun q => entry (before + q)
    groupOk f (codes t) es (marks t) && es.all fun e => !w8fNan (wheyValue e) && bitsOf e 6 2 == 0
  decide (1 ≤ n) && decide (n ≤ 64) && (List.range n).all tileOk &&
    readBytes c (start + eg) n (64 - n) s == 0 &&
    readBytes c (start + eg + 1) (2 * total) (64 * cdiv total 32 - 2 * total) s == 0

/-- Weight format of a model's layer. -/
def layerWfmt (m l : Nat) (s : State) : Option Fmt := wfmtOf (fieldOf (recipeEntry (activeRecipe m s) l s) 0 3)

/-- The due table at `(first, n)` of a cell breaks R136 or, in a T36 image's cell, leaves the W1 banks (R172): the granule at fault. -/
def dueBad (t36 : Bool) (c first n interval : Nat) (s : State) : Option Nat :=
  let e := fun k => (BitVec.ofNat 64 (fieldOf (granule c (first + k / 8) s) (64 * (k % 8)) 64) : Dword)
  let off := fun k => fieldOf (e k) 0 16
  let bad := fun k =>
    let w := e k
    decide (interval ≤ off k) || decide (1 < fieldOf w 16 3) ||
      (fieldOf w 16 3 == 1 && (fieldOf w 19 5 != 0 || fieldOf w 24 8 == 0 || fieldOf w 32 16 != 0)) ||
      (decide (0 < k) && decide (off k < off (k - 1))) || (decide (8 ≤ k) && off k == off (k - 8))
  if 1024 < n ∨ (if t36 then 15360 else cellGranules) < first + cdiv n 8 ∨ (t36 ∧ n ≠ 0 ∧ first < 3072) then some first
  else ((List.range n).find? bad).map fun k => first + k / 8

/-- A stage record breaks R135; its reserved fields are not read (R10). -/
def stageBad (m interval : Nat) (g : Granule) : Bool :=
  let lag := fieldOf g 64 32
  fieldOf g 16 4 != m || fieldOf g 32 12 != interval ||
    decide (65536 < lag + interval) || decide (1024 * interval ≤ lag) || decide (lag < fieldOf g 96 32)

/-- Granules of a cell's adapter state (R254). -/
def adapterGranules (n : Nat) : Nat := 3 * cdiv (4 * n) 64 + 3 * cdiv (2 * n) 64

/-- Granules that a bound cell's memory has (R27, R67, R68). -/
def cellExtent (t36 : Bool) : Nat := if t36 then 3072 else cellGranules

/-- A tune record breaks R255; its reserved fields are not read (R10). -/
def tuneBad (m : Nat) (t36 : Bool) (g : Granule) (s : State) : Bool :=
  let boff := fieldOf g 128 10
  let rank := fieldOf g 144 7
  let n := fieldOf g 192 17
  decide (64 < rank) || decide (rd F.TUNE_CFG.TBLK s ≤ boff) ||
    (rank != 0 && (decide (cellExtent t36 < fieldOf g 160 15 + adapterGranules n) || decide (cellExtent t36 ≤ fieldOf g 176 15))) ||
    ((boundLayers m s).any fun l => match layerWfmt m l s with
      | some .c2tt => true
      | some .c2ts => true
      | _ => false)

/-- The model carries tune records (R255). -/
def hasTune (m : Nat) (s : State) : Bool := on F.TUNE_CFG.EN s && tuneModel s == m

/-- LAYER_LAG of a layer as its cells' LAGs give it (R135). -/
def lagOfLayer (cells : List Nat) (t36 : Bool) (l : Nat) (s : State) : Nat :=
  ((cells.filter fun c => fieldOf (granule c (stageGranule t36) s) 24 8 == l).map fun c =>
    fieldOf (granule c (stageGranule t36) s) 64 32).foldl min (2 ^ 32)

/-- Part 5: what a bound cell holds. -/
def contentBad (m : Nat) (h : BitVec 512) (cells : List Nat) (ws : List WeightAt) (c : Nat) (s : State) : Option LoadFail :=
  let t36 := hdrT36 h
  let sg := stageGranule t36
  let g := granule c sg s
  let i := hdrInterval h
  let wbad := (ws.filter (·.cell == c)).find? fun w =>
    match layerWfmt m (fieldOf g 24 8) s with
    | some f => !weightOk f c w.granule w.tiles s
    | none => true
  let due := match dueBad t36 c (fieldOf g 192 15) (fieldOf g 207 11) i s with
    | some x => some x
    | none => if bitAt g 191 then dueBad t36 c (fieldOf g 224 15) (fieldOf g 239 11) i s else none
  let tg := granule c 2 s
  let tdue := if hasTune m s then match dueBad t36 c (fieldOf tg 32 15) (fieldOf tg 47 11) i s with
      | some x => some x
      | none => dueBad t36 c (fieldOf tg 96 15) (fieldOf tg 111 11) i s
    else none
  lowestBad [
    (wbad.isSome, loadFail 0x06 c ((wbad.map (·.granule)).getD 0)),
    (stageBad m i g || fieldOf g 96 32 != lagOfLayer cells t36 (fieldOf g 24 8) s, loadFail 0x0B c sg),
    (due.isSome, loadFail 0x0B c (due.getD 0)),
    (hasTune m s && tuneBad m t36 tg s, loadFail 0x0B c 2),
    (tdue.isSome, loadFail 0x0B c (tdue.getD 0))]

/-- The first failure of a list of parts, in order. -/
def firstPart : List (Option LoadFail) → Option LoadFail
  | [] => none
  | some f :: _ => some f
  | none :: rest => firstPart rest

/-- Parts 1 to 4 of R510, on the state with every table write in force: they run while the weights arrive.
(DEDUCED, unsafe: log entry 25.) -/
def checkTables (m : Nat) (h : BitVec 512) (inp : LoadInput) (s : State) : Option LoadFail :=
  let recs := tableRecs (hdrCount h) inp.records
  let e : RecEnv :=
    { period := 128 * max 1 (hdrInterval h), region := hdrRegion h, nvar := hdrNvar h, vars := inp.variants.filterMap id, all := recs,
      routed := recs.filterMap fun r => (pathOf r (withTables (inp.variants.filterMap id) r s)).map fun p => (r, p) }
  let cells := boundCells (slicesOf (rd (F.SLICE_COUNT.VALUE m) s) inp.slices)
  firstPart [checkHeader m h, checkRecs e s recs [], recordMissing (hdrCount h) inp.records, checkOthers m h inp s,
    checkRegion m (hdrRegion h) s, checkWindow m h s, firstCell (fun c => cellBad (hdrRegion h) c s) cells]

/-- Cells that an image binds, by the slice map as the check read it (R510). -/
def inputCells (m : Nat) (inp : LoadInput) (s : State) : List Nat := boundCells (slicesOf (rd (F.SLICE_COUNT.VALUE m) s) inp.slices)

/-- A state with the image's cells bound as the check judges them. -/
def asBound (m : Nat) (h : BitVec 512) (inp : LoadInput) (s : State) : State :=
  setImage m { image m s with cells := inputCells m inp s, t36 := hdrT36 h } s

/-- Part 5 of R510. -/
def checkContents (m : Nat) (h : BitVec 512) (inp : LoadInput) (envs : CellEnvs) (s : State) : Option LoadFail :=
  let t := asBound m h inp s
  let cells := inputCells m inp s
  firstCell (fun c => contentBad m h cells inp.weights c (seen c (envs.of c) t)) cells

/-- Granules of a due table. -/
def tableGranules (first n : Nat) : List Nat := granulesFrom first (cdiv n 8)

/-- Granules of a cell that part 5 reads (R510): its records, its due tables, and the weight records in it. -/
def contentGranules (m : Nat) (h : BitVec 512) (ws : List WeightAt) (c : Nat) (s : State) : List Nat :=
  let sg := stageGranule (hdrT36 h)
  let g := granule c sg s
  let tg := granule c 2 s
  let due := tableGranules (fieldOf g 192 15) (fieldOf g 207 11) ++
    (if bitAt g 191 then tableGranules (fieldOf g 224 15) (fieldOf g 239 11) else [])
  let tune := if hasTune m s then 2 :: tableGranules (fieldOf tg 32 15) (fieldOf tg 47 11) ++
    tableGranules (fieldOf tg 96 15) (fieldOf tg 111 11) else []
  let one := fun (w : WeightAt) => match layerWfmt m (fieldOf g 24 8) s with
    | some f => granulesFrom w.granule (cdiv (w.tiles * f.bits) 8 + 1 + cdiv (markersOf c f w.granule w.tiles s) 32)
    | none => []
  (sg :: due ++ tune ++ (ws.filter (·.cell == c)).flatMap one).eraseDups.filter fun g => decide (g < cellGranules)

/-- Part 5 reads the cells' contents up to the cell that fails (R85, R86). (DESIGN CHOICE, unsafe: log entry 83.) -/
def readContents (m : Nat) (h : BitVec 512) (inp : LoadInput) (envs : CellEnvs) (f : Option LoadFail) (s : State) : State :=
  let t := asBound m h inp s
  let cs := (inputCells m inp s).filter fun c => f.all fun x => decide (c ≤ x.cell)
  forEach cs (fun c => loadReads c 4 (contentGranules m h inp.weights c (seen c (envs.of c) t)) (envs.of c)) s

/-! ### LOAD_GO and LOAD_CHECK_DONE -/

/-- Address of the transfer table (R149). -/
def tableAddr (s : State) : Nat := (reg O.LOAD_TABLE s).toNat / 64 * 64 + 2 ^ 32 * (reg O.LOAD_TABLE_HI s).toNat

/-- Part 0 to 5 of what a check reads (R149, R228, R242, R335, R510): host address and bytes. The spec gives the descriptors of VARTAB no
layout: one line of them is read. (DESIGN CHOICE, unsafe: log entry 63.) -/
def checkExtent (c : LoadRead) (part : Nat) (s : State) : Nat × Nat :=
  let m := c.model
  let h := BitVec.ofNat 512 (bytesToNat c.header)
  match part with
  | 0 => (c.table, 64)
  | 1 => (c.table + 64, 16 * hdrCount h)
  | 2 => (addr64 (O.SLICE_MAP m) (O.SLICE_MAP_HI m) s, 32 * rd (F.SLICE_COUNT.VALUE m) s)
  | 3 => (addr64 (O.SHAPE_TAB m) (O.SHAPE_TAB_HI m) s, 224)
  | 4 => (fieldOf h 192 64, if hdrNvar h = 0 then 0 else 64)
  | _ => (addr64 (O.SPLIT_TAB m) (O.SPLIT_TAB_HI m) s, if splitModel m s then 16 * rd (F.SPLIT_COUNT.VALUE m) s else 0)

/-- The check reads on, from a part on; with none left it has read everything (R152). -/
def readCheck (c : LoadRead) (part : Nat) (s : State) : State :=
  match ((List.range 6).drop part).find? fun p => (checkExtent c p s).2 != 0 with
  | some p => startFetch (.check c.model p) (checkExtent c p s).1 (checkExtent c p s).2
      { s with sched := { s.sched with checking := some c } }
  | none => { s with sched := { s.sched with checking := some { c with ready := true } } }

/-- A part has been read. -/
def LoadRead.put (c : LoadRead) (part : Nat) (bs : List Byte) : LoadRead :=
  match part with
  | 0 => { c with header := bs }
  | 1 => { c with records := bs }
  | 2 => { c with slices := bs }
  | 3 => { c with shapes := bs }
  | 4 => c
  | _ => { c with crossings := bs }

/-- A part of a check's structures has been read (R149, R152). -/
def checkPartRead (m part : Nat) (bs : List Byte) (s : State) : State :=
  match s.sched.checking with
  | some c => if c.model = m then readCheck (c.put part bs) (part + 1) s else s
  | none => s

/-- A read of a check's structures failed twice (R290, R510): nothing further is read; what came before it counts. -/
def checkPartFailed (m part : Nat) (bs : List Byte) (s : State) : State :=
  match s.sched.checking with
  | some c =>
    if c.model = m then
      let at_ := if part = 1 then 64 + bs.length else bs.length
      { s with sched := { s.sched with checking := some { c.put part bs with failed := some (part - 1, at_), ready := true } } }
    else s
  | none => s

/-- What a check has read, as it judges it. -/
def loadInput (c : LoadRead) (x : LoadRest) : LoadInput :=
  let bad := fun (k : Nat) => c.failed.any (·.1 == k)
  { header := if c.header.length < 64 then none else some (BitVec.ofNat 512 (bytesToNat c.header))
    records := (recordsOf 16 c.records).map fun n => some (BitVec.ofNat 128 n)
    slices := (recordsOf 32 c.slices).map fun n => some (BitVec.ofNat 256 n)
    shapes := if c.shapes.length < 224 then none else some (BitVec.ofNat 1792 (bytesToNat c.shapes))
    variants := if bad 3 then [none] else x.variants.map some
    crossings := (recordsOf 16 c.crossings).map (fun n => some (BitVec.ofNat 128 n)) ++ (if bad 4 then [none] else [])
    weights := x.weights, vocab := x.vocab, readAt := (c.failed.map (·.2)).getD 0 }

/-- LOAD_GO (R149, R150, R152, R511): the loader writes `LOAD_CTRL` with GO, and the check begins to read the table over OCL; PASS, FAIL and
REASON of the last check clear while the new one is BUSY. (DESIGN CHOICE, unsafe: log entries 63 and 77.) -/
def loadGo (v : Word) (s : State) : State :=
  let m := fieldOf v 0 4
  let s1 := wr F.LOAD_CTRL.MODEL m s
  if !bitAt v 4 ∨ s.sched.checking.isSome ∨ !loadable m s then s1
  else
    s1 |> wr F.LOAD_STATE.BUSY 1 |> wr F.LOAD_STATE.PASS 0 |> wr F.LOAD_STATE.FAIL 0 |> wr F.LOAD_STATE.REASON 0
      |> wr F.LOAD_CELL.STRUCT 0 |> readCheck (.start m (tableAddr s)) 0

/-- LOAD_GO. -/
def execLoadGo (v : Word) (s : State) : Host.Outcome State Fault Refusal := .next (loadGo v s)

/-- Shapes of the shape table (R228). -/
def shapesOf (b : BitVec 1792) : List Shape :=
  (List.range 7).map fun i =>
    let n := fieldOf b (256 * i) 8
    ⟨n, (List.range (min n 17 - 1)).map fun k => fieldOf b (256 * i + 8 + 8 * k) 8⟩

/-- The check fails (R151, R240). -/
def loadFailed (m : Nat) (f : LoadFail) (s : State) : State :=
  failSlot m s |> wr F.LOAD_STATE.FAIL 1 |> wr F.LOAD_STATE.REASON f.reason |> wr F.LOAD_CELL.CELL f.cell
    |> wr F.LOAD_CELL.STRUCT f.struct |> wr F.LOAD_DETAIL.DETAIL f.detail |> raise F.SCHED_STS.LOAD_DONE

/-- WFMT of each layer whose weights the check found: that of the recipe entry they were judged by (R106, R125). -/
def formatsOf (m : Nat) (ws : List WeightAt) (t36 : Bool) (s : State) : List (Nat × Nat) :=
  let layers := (ws.map fun w => fieldOf (granule w.cell (stageGranule t36) s) 24 8).eraseDups
  layers.map fun l => (l, fieldOf (recipeEntry (activeRecipe m s) l s) 0 3)

/-- The check passes (R137, R151): the image is RUNNABLE and starts at the next advancing boundary. `MODEL_SCHED.INTERVAL` reads its I
until a later check of the slot passes (DESIGN CHOICE, unsafe: log entry 78), and the cells of a T36 image act as such from now on
(DESIGN CHOICE, unsafe: log entry 88). -/
def loadPassed (m : Nat) (inp : LoadInput) (s : State) : State :=
  let h := inp.header.getD 0
  let old := image m s
  let slices := slicesOf (rd (F.SLICE_COUNT.VALUE m) s) inp.slices
  let im : Image :=
    { cells := boundCells slices, region := hdrRegion h, interval := hdrInterval h, t36 := hdrT36 h,
      variants := inp.variants.filterMap id, varTab := fieldOf h 192 64, inForce := [], formats := formatsOf m inp.weights (hdrT36 h) s,
      crossings := inp.crossings.filterMap id, toStart := true,
      running := false, start := 0, launch0 := if old.cells.isEmpty then 0 else nextLaunch m (slotNo s) s }
  let s1 := modModelSlot m (fun x => { x with
    slices := slices, shapes := (inp.shapes.map shapesOf).getD [], vocab := inp.vocab, restarts := [] }) s
  let s2 := setImage m im { s1 with sched := { s1.sched with ringCopy := Table.clear s1.sched.ringCopy (m * 1024) 1024 } }
  s2 |> wr (F.MODEL_SCHED.INTERVAL m) im.interval |> wr (F.MODEL_SCHED.STATE m) 2 |> wr F.LOAD_STATE.PASS 1 |> tuneReloaded m
    |> raise F.SCHED_STS.LOAD_DONE

/-- LOAD_CHECK_DONE (R150 to R152, R510): the check that runs, its reads done, comes to its end. Parts 1 to 4 fail it while a load of the
slot is still in progress; part 5 begins once none is. -/
def loadCheckDone (x : LoadRest) (s : State) : State :=
  match s.sched.checking with
  | none => s
  | some c =>
    if !c.ready then s
    else
      let m := c.model
      let inp := loadInput c x
      let s1 := wr F.LOAD_STATE.BUSY 0 { s with sched := { s.sched with checking := none } }
      match inp.header with
      | none => loadFailed m (tableFail 0 inp.readAt) s1
      | some h =>
        match checkTables m h inp (applyTables s) with
        | some f => loadFailed m f s1
        | none =>
          if (modelSlot m s).loading.isSome ∨ (modelSlot m s).recv.isSome then s
          else
            let f := checkContents m h inp x.envs (applyTables s)
            let s2 := readContents m h inp x.envs f s1
            match f with
            | some f => loadFailed m f s2
            | none => loadPassed m inp s2

/-- LOAD_CHECK_DONE. -/
def execLoadCheckDone (x : LoadRest) (s : State) : Host.Outcome State Fault Refusal := .next (loadCheckDone x s)

end Sys2Proof.Machine
end

