-- ==== Sys2Proof/Machine/Beat.lean ====
section
/-!
DEFINITION. The BEAT input, beats, holdover, loss and relock (R159 to R162, R486, R487), and the count behind EXT_STUCK (R490).
-/
namespace Sys2Proof.Machine
open Sys2Proof

/-- Modes of `BEAT_STATE.MODE`: 0 LOCKED, 1 HOLDOVER, 2 LOST, 3 NONE. -/
def beatMode (s : State) : Nat := rd F.BEAT_STATE.MODE s

/-- `BEAT_PERIOD` in cycles. -/
def beatPeriod (s : State) : Nat := rd F.BEAT_PERIOD.PERIOD s

/-- Shortest accepted period, 3.6 µs (R159). -/
def beatMin : Nat := 7560

/-- Longest accepted period, 17.6 µs (R159). -/
def beatMax : Nat := 36960

/-- The count of R490 counts this beat: `nHOLD_EXT` is asserted, EXT_EN is 1 and the latch is not in force. -/
def holdCounts (s : State) : Bool := s.mgmt.hold && on F.SCHED_CTRL.EXT_EN s && !s.mgmt.stuck

/-- A beat begins at an instant (R159): `BEAT_NO` rises by one. -/
def beginBeat (t : Nat) (s : State) : State :=
  let s1 := setCnt F.BEAT_NO ((beatNo s + 1) % 2 ^ 48) { s with beat := { s.beat with beatStart := t, lengthened := false } }
  when (holdCounts s) (fun u => { u with mgmt := { u.mgmt with holdBeats := u.mgmt.holdBeats + 1 } }) s1

/-! ### Edges -/

/-- Mean of accepted periods, whole cycles rounded down (R159). -/
def meanOf (l : List Nat) : Nat := l.foldl (· + ·) 0 / max 1 l.length

/-- An edge outside the range of R159 is rejected and counted; it breaks a run towards relock. -/
def rejectEdge (s : State) : State :=
  raise F.BEAT_STS.REJECT (bump F.BEAT_REJECT_CNT { s with beat := { s.beat with streak := [] } })

/-- Sixteen periods within 2% of their mean (R162), compared exactly: |16p − Σ| × 50 ≤ Σ. -/
def steady (l : List Nat) : Bool :=
  let total := l.foldl (· + ·) 0
  decide (l.length = 16) && l.all fun p => decide (dist (16 * p) total * 50 ≤ total)

/-- The W3 returns to LOCKED at this edge (R162). (DEDUCED, unsafe: log entry 27.) -/
def relock (t : Nat) (s : State) : State :=
  let s1 := raise F.BEAT_STS.RELOCK (wr F.BEAT_STATE.HO_BEATS 0 (wr F.BEAT_STATE.MODE 0
    { s with beat := { s.beat with streak := [], counted := 0 } }))
  if beatPeriod s1 ≤ 4 * (t - s1.beat.beatStart) then beginBeat t s1
  else { s1 with beat := { s1.beat with lengthened := true } }

/-- An edge with an accepted period (R159, R162). -/
def acceptEdge (t p : Nat) (s : State) : State :=
  let ps := (p :: s.beat.periods).take 16
  let streak := if beatMode s = 0 then [] else (p :: s.beat.streak).take 16
  let s1 := wr F.BEAT_PERIOD.PERIOD (meanOf ps)
    { s with beat := { s.beat with reference := some t, lastEdge := some t, periods := ps, streak := streak } }
  if beatMode s = 0 then beginBeat t s1
  else if steady streak then relock t s1
  else s1

/-- An edge that passed the input filter, judged by its period (R159). (DEDUCED, unsafe: log entry 27.) -/
def judgeEdge (t : Nat) (s : State) : State :=
  match s.beat.reference with
  | none => { s with beat := { s.beat with reference := some t } }
  | some r =>
    let p := t - r
    if p < beatMin then rejectEdge s
    else if beatMax < p then
      let s1 := rejectEdge s
      { s1 with beat := { s1.beat with reference := some t } }
    else acceptEdge t p s

/-- The filter of R486 rejects an edge less than 2 µs after the last one it accepted. -/
def beatTooFast (t : Nat) (s : State) : Bool := s.mgmt.beatEdge.any fun e => decide (t - e < 4200)

/-- BEAT_EDGE (R159, R486, R487): a rising edge of `BEAT` that stays high for `highNs`. -/
def beatEdge (t highNs : Nat) (s0 : State) : State :=
  let s := atTime t s0
  if highNs < 100 then s
  else if beatTooFast t s then raise F.PIN_STS.BEAT_FAST (raise F.BEAT_STS.REJECT (bump F.BEAT_REJECT_CNT s))
  else judgeEdge t { s with mgmt := { s.mgmt with beatEdge := some t } }

/-- BEAT_EDGE. -/
def execBeatEdge (t highNs : Nat) (s : State) : Host.Outcome State Fault Refusal := .next (beatEdge t highNs s)

/-! ### Internal beats -/

/-- The HOLDOVER deadline of R160: the smaller of 1.5 × `BEAT_PERIOD` and 17.6 µs has passed since the later of the last beat's
start and the last accepted edge. -/
def holdoverDue (t : Nat) (s : State) : Bool :=
  let base := max s.beat.beatStart (s.beat.lastEdge.getD 0)
  decide (3 * beatPeriod s ≤ 2 * (t - base)) || decide (beatMax ≤ t - base)

/-- A beat counted by R161. -/
def countBeat (s : State) : State :=
  let n := s.beat.counted + 1
  wr F.BEAT_STATE.HO_BEATS (min 4096 n) { s with beat := { s.beat with counted := n } }

/-- HOLDOVER (R160): no accepted edge within the deadline; the missing beat began one `BEAT_PERIOD` after the last. -/
def holdover (t : Nat) (s0 : State) : State :=
  let s := atTime t s0
  if beatMode s = 0 ∧ holdoverDue t s then
    let p := beatPeriod s
    let s1 := wr F.BEAT_STATE.MODE 1 { s with beat := { s.beat with streak := [], counted := 0, ownPeriod := p } }
    raise F.BEAT_STS.HOLDOVER (countBeat (beginBeat (s.beat.beatStart + p) s1))
  else s

/-- HOLDOVER. -/
def execHoldover (t : Nat) (s : State) : Host.Outcome State Fault Refusal := .next (holdover t s)

/-- Period of internal beats: in NONE `BEAT_PERIOD` (R159), in HOLDOVER and LOST that of the entry into HOLDOVER (R160, R161).
(DEDUCED, unsafe: log entry 27.) -/
def internalPeriod (s : State) : Nat := if s.beat.ownPeriod = 0 then beatPeriod s else s.beat.ownPeriod

/-- An internal beat is due. -/
def internalDue (t : Nat) (s : State) : Bool := beatMode s != 0 && decide (s.beat.beatStart + internalPeriod s ≤ t)

/-- The 4,096th counted beat has begun and the mode is not yet LOST (R161). -/
def lossDue (s : State) : Bool := (beatMode s == 1 || beatMode s == 3) && decide (4096 ≤ s.beat.counted)

/-- Beat loss (R161). -/
def loseBeat (s : State) : State :=
  pldm 0x23 0 (raise F.BEAT_STS.LOST (wr F.BEAT_STATE.MODE 2 { s with beat := { s.beat with ownPeriod := internalPeriod s } }))

/-- An internal beat begins (R160, R161). -/
def internalBeat (s : State) : State :=
  let s1 := beginBeat (s.beat.beatStart + internalPeriod s) s
  if lossDue s then loseBeat s1 else if beatMode s = 2 then s1 else countBeat s1

/-- INTERNAL_BEAT (R160). -/
def internalBeatAt (t : Nat) (s0 : State) : State :=
  let s := atTime t s0
  if internalDue t s then internalBeat s else s

/-- INTERNAL_BEAT. -/
def execInternalBeat (t : Nat) (s : State) : Host.Outcome State Fault Refusal := .next (internalBeatAt t s)

/-- BEAT_LOSS (R161): the beat that follows the 4,096th counted one begins. -/
def beatLoss (t : Nat) (s0 : State) : State :=
  let s := atTime t s0
  if internalDue t s && lossDue s then internalBeat s else s

/-- BEAT_LOSS. -/
def execBeatLoss (t : Nat) (s : State) : Host.Outcome State Fault Refusal := .next (beatLoss t s)

end Sys2Proof.Machine
end

