-- ==== Sys2Proof/Machine/Hss.lean ====
section
/-!
DEFINITION. The identity's signatures (R440, R444, R445): LMS_SHA256_M32_H15 with LMOTS_SHA256_N32_W4 in two levels. The spec names the
parameter sets and the derivation of the trees; the rest is that of RFC 8554. (PRESUMED, unsafe: log entry 101.)
-/
namespace Sys2Proof.Machine
open Sys2Proof

/-- HMAC-SHA-256 under the device seed (R444). -/
def seedHmac (m : List Nat) : List Nat := hmacBytes (octets 32 Config.deviceSeed) m

/-- Private seed of tree `n` (R444). -/
def treeSeed (n : Nat) : List Nat := seedHmac (label "W3ID" ++ bigEndian 4 n)

/-- Identifier I of tree `n` (R444). -/
def treeId (n : Nat) : List Nat := (seedHmac (label "W3I" ++ bigEndian 4 n)).take 16

/-- Randomizer C of a signature of tree `n` with index `q` (R444). -/
def randomizer (n q : Nat) (m : List Nat) : List Nat :=
  seedHmac (label "W3C" ++ bigEndian 4 n ++ bigEndian 4 q ++ sha256Bytes m)

/-- What one hash of a one-time key or of a tree begins with: the tree's identifier and a number. -/
def lmsHead (n q : Nat) : List Nat := treeId n ++ bigEndian 4 q

/-- Part `i` of the private one-time key `q`. -/
def otsSecret (n q i : Nat) : List Nat := sha256Bytes (lmsHead n q ++ bigEndian 2 i ++ 255 :: treeSeed n)

/-- `k` steps of the chain of part `i`, from step `j` on. -/
def otsChain (n q i : Nat) : Nat → Nat → List Nat → List Nat
  | 0, _, x => x
  | k + 1, j, x => otsChain n q i k (j + 1) (sha256Bytes (lmsHead n q ++ bigEndian 2 i ++ j :: x))

/-- The public one-time key `q`. -/
def otsPublic (n q : Nat) : List Nat :=
  sha256Bytes (lmsHead n q ++ [0x80, 0x80] ++ (List.range 67).flatMap fun i => otsChain n q i 15 0 (otsSecret n q i))

/-- A node of tree `n`, `k` levels above the leaves; the root is node 1. -/
def treeNode (n : Nat) : Nat → Nat → List Nat
  | 0, r => sha256Bytes (lmsHead n r ++ [0x82, 0x82] ++ otsPublic n (r - 32768))
  | k + 1, r => sha256Bytes (lmsHead n r ++ [0x83, 0x83] ++ treeNode n k (2 * r) ++ treeNode n k (2 * r + 1))

/-- The LMS public key of tree `n`: 56 bytes (R440). -/
def treePublic (n : Nat) : List Nat := bigEndian 4 7 ++ bigEndian 4 3 ++ treeId n ++ treeNode n 15 1

/-- The 67 digits of four bits that a one-time signature signs: those of the hash, the highest of each byte first, and of their
checksum. -/
def otsDigits (h : List Nat) : List Nat :=
  let d := h.flatMap fun b => [b / 16, b % 16]
  let c := (d.map (15 - ·)).sum
  d ++ [c / 256 % 16, c / 16 % 16, c % 16]

/-- The LMS signature of a message by tree `n` with index `q`: 2,668 bytes (R440). -/
def lmsSign (n q : Nat) (m : List Nat) : List Nat :=
  let c := randomizer n q m
  let d := otsDigits (sha256Bytes (lmsHead n q ++ [0x81, 0x81] ++ c ++ m))
  bigEndian 4 q ++ bigEndian 4 3 ++ c ++ ((List.range 67).flatMap fun i => otsChain n q i (d.getD i 0) 0 (otsSecret n q i)) ++
    bigEndian 4 7 ++ (List.range 15).flatMap fun i => treeNode n i ((32768 + q) / 2 ^ i ^^^ 1)

/-- The identity's signature of a message with index `q` of lower tree `k`: 5,396 bytes (R440, R445). (PRESUMED, unsafe: log entry 101.) -/
def hssSignature (k q : Nat) (m : List Nat) : List Nat :=
  bigEndian 4 1 ++ lmsSign 0 k (treePublic (k + 1)) ++ treePublic (k + 1) ++ lmsSign (k + 1) q m

/-- That signature as bytes. -/
def hssSign (k q : Nat) (m : List Nat) : List Byte := firstBytes 5396 (hssSignature k q m)

/-- The identity public key, 60 bytes: two levels, and the top tree's LMS public key (R440, R444). -/
def identityKey : List Byte := firstBytes 60 (bigEndian 4 2 ++ treePublic 0)

end Sys2Proof.Machine
end

