-- ==== Sys2Proof/Machine/Admission.lean ====
section
/-!
DEFINITION. Admission at a frame start (R219 to R223, R226, R228).
-/
namespace Sys2Proof.Machine
open Sys2Proof

/-! ### What a request needs (R220, R221) -/

/-- Lmax (R220). -/
def reqLmax (q : Request) (s : State) : Nat := min (q.lp + q.ntok + q.maxNew) (posLimit q.model s)

/-- Page sets that a request needs. -/
def pageSets (q : Request) (s : State) : Nat := cdiv (reqLmax q s) 256 - q.lp / 256

/-- Rows of a request's tree shape. -/
def reqRows (q : Request) (s : State) : Nat := if q.isPrefix then 1 else (shapeOf q.model q.shape s).count

/-- Admitted requests of a model. -/
def admittedOf (m : Nat) (s : State) : List Request := s.svc.reqs.filter fun q => q.model == m && q.admitted

/-- Hot positions of a model (R220). -/
def hotCap (m : Nat) (s : State) : Nat := rd (F.HOT_CAP.VALUE m) s * 256

/-- What a check says: it passes, it defers, it rejects. -/
inductive Verdict where
  /-- Passed. -/
  | pass
  /-- Deferred. -/
  | defer
  /-- Rejected. -/
  | reject
  deriving DecidableEq, Repr

/-- PAGES (R220). -/
def checkPages (q : Request) (s : State) : Verdict :=
  let m := q.model
  let need := pageSets q s
  let w := hotWindow q.hot
  if posLimit m s ≤ q.lp + q.ntok ∨ rd (F.ADM_SPILL_POS.VALUE m) s < reqRows q s * reqLmax q s ∨
      poolPages m s - heldByPfx m s < need ∨ hotCap m s < w ∨ !poolOn m s then .reject
  else if (freeSeq s).isNone ∨ rd (F.POOL_FREE.VALUE m) s - rd (F.POOL_RESV.VALUE m) s < need ∨
      hotCap m s < (((admittedOf m s).map fun x => hotWindow x.hot).foldl (· + ·) 0) + w then .defer
  else .pass

/-- N of R221: page spans beyond the hot window. -/
def coldSpans (q : Request) (s : State) : Nat := cdiv (reqLmax q s - hotWindow q.hot) 256

/-- Predicted step time of a model in beats, with these sequences (R221). -/
def predicted (m : Nat) (qs : List Request) (s : State) : Nat :=
  let n := (qs.map fun q => coldSpans q s).foldl (· + ·) 0
  let p := rd (F.ADM_BASE.VALUE m) s + cdiv (rd (F.ADM_PAGE_COST.VALUE m) s * n) 256
  cdiv (p * 128) (max 1 (beatPeriod s))

/-- STEP_TIME (R221). -/
def checkStepTime (q : Request) (s : State) : Verdict :=
  let others := admittedOf q.model s
  if q.stepBeats ≠ 0 ∧ q.stepBeats < predicted q.model [q] s then .reject
  else
    let b := predicted q.model (others ++ [q]) s
    if (q.stepBeats ≠ 0 ∧ q.stepBeats < b) ∨ (others.any fun x => x.stepBeats != 0 && decide (x.stepBeats < b)) ∨
        (modelSlot q.model s).lateNow then .defer
    else .pass

/-- BUDGET (R222): Prefill began the frame with CARRY set, or has a zero limit. -/
def checkBudget (s : State) : Verdict :=
  if on (bitFld O.BUDGET_HELD 9) s || (List.range 3).any fun k => limitOf 1 k s == 0 then .defer else .pass

/-- Verdict on a request with its reason: 1 PAGES, 2 STEP_TIME, 3 BUDGET (R215, R219). A coolant stop defers every request with
STEP_TIME (R404). (DEDUCED, unsafe: log entry 29.) -/
def verdict (q : Request) (s : State) : Verdict × Nat :=
  if coolStop s then (.defer, 2)
  else match checkPages q s with
    | .pass =>
      match checkStepTime q s with
      | .pass => (checkBudget s, 3)
      | v => (v, 2)
    | v => (v, 1)

/-! ### Decisions (R223) -/

/-- A decision: its entry, and what the next FRAME tells the mirror (R318). -/
def decide_ (q : Request) (code reason seq : Nat) (entry : Bool) (s : State) : State :=
  let s1 := { s with svc := { s.svc with decisions := s.svc.decisions ++ [(q.reqId, q.model, code + 4 * reason, seq)] } }
  when entry (putDecision q.ring q.model q.reqId code reason) s1

/-- Reject a request (R223): DONE or CMD_DONE with status REJECTED follows. -/
def rejectReq (q : Request) (reason : Nat) (s : State) : State :=
  endRequest q.id 8 (bump F.ADM_REJECT_CNT (raise F.SVC_STS.REJECT (decide_ q 2 reason 0 true s)))

/-- Defer a request (R223): an entry at its first deferral only. -/
def deferReq (q : Request) (reason : Nat) (s : State) : State :=
  bump F.ADM_DEFER_CNT (decide_ q 1 reason 0 (!q.deferredOnce)
    (modRequest q.id (fun x => { x with state := .deferred, deferredOnce := true, reason := reason }) s))

/-- A request takes a sequence slot with its page list, and its page sets (R192, R220, R226). -/
def admitInto (q : Request) (seq : Nat) (s : State) : State :=
  let n := pageSets q s
  let ps := if q.usesHandle then ((pfxEntry q.handle s).map (·.pages)).getD [] else []
  let x : SeqSlot := { SeqSlot.reset with
    used := true, model := q.model, len := q.lp, hotlog := q.hot, list := Config.pageList seq % 2 ^ 35, resv := n }
  let s1 := setPages seq (ps.map fun e => { e with shared := true }) <| setSeqSlot seq x (wr (F.POOL_RESV.VALUE q.model) (rd (F.POOL_RESV.VALUE q.model) s + n) s)
  modRequest q.id (fun r => { r with
      state := .prefill, seq := seq, filling := r.usesHandle && r.lp != 0, readyAt := s.svc.nextReady })
    { s1 with svc := { s1.svc with nextReady := s1.svc.nextReady + 1 } }

/-- Admit a request: its token ids are then read (R214, R216, R223). -/
def admitReq (q : Request) (s : State) : State :=
  match freeSeq s with
  | none => s
  | some seq =>
    let s1 := bump F.ADM_ACCEPT_CNT (decide_ q 0 0 seq true (admitInto q seq s))
    readTokens q.tokAddr q.ntok (.tokens q.id) (modRequest q.id (fun r => { r with tokens := some [] }) s1)

/-- Consider one request (R219, R223, R228). (DEDUCED, unsafe: log entry 29.) -/
def consider (id : Nat) (s : State) : State :=
  match request id s with
  | none => s
  | some q =>
    if !q.isPrefix && !shapeOk q.model q.shape s then
      let s1 := { s with svc := { s.svc with reqs := s.svc.reqs.filter (·.id != id) } }
      putError q.ring q.model q.reqId 3 (when q.usesHandle (unusePfx q.handle) s1)
    else if q.firstDl ≠ 0 ∧ q.firstDl < beatNo s then rejectReq q (if q.state = .deferred then q.reason else 2) s
    else match verdict q s with
      | (.pass, _) => admitReq q s
      | (.defer, r) => deferReq q r s
      | (.reject, r) => rejectReq q r s

/-- Requests that admission may consider, in order (R219): deferred before queued, of RUNNABLE models. -/
def consideredReqs (s : State) : List Nat :=
  let ok := fun (q : Request) => slotSt q.model s == 2 && !(modelSlot q.model s).closing && q.ending.isNone
  ((s.svc.reqs.filter fun q => q.state == .deferred && ok q) ++ (s.svc.reqs.filter fun q => q.state == .queued && ok q)).map (·.id)

/-- ADM_MAX; 0 acts as 256 (R251). -/
def admMax (s : State) : Nat := if rd F.SVC_CTRL.ADM_MAX s = 0 then 256 else rd F.SVC_CTRL.ADM_MAX s

/-- Admission (R219, R223, R284, R372): it runs while ADMIT is set, OCL carries traffic and the module serves.
(DEDUCED, unsafe: log entry 29.) -/
def admission (s : State) : State :=
  if on F.SVC_CTRL.ADMIT s && oclServes s && serving s && !asMirror s then forEach ((consideredReqs s).take (admMax s)) consider s else s

end Sys2Proof.Machine
end

