-- ==== Sys2Proof/Machine/Pair.lean ====
section
/-!
DEFINITION. The pair (R316 to R332): its states, the mirror's side of the MIRROR stream, takeover, isolation, arbitration, and the
span streams' order (R313).
-/
namespace Sys2Proof.Machine
open Sys2Proof

/-- `PAIR_STATE.STATE`: 0 SOLO, 1 LINKING, 2 SYNCING, 3 PRIMARY, 4 MIRROR, 5 SPLIT, 6 ISOLATED, 7 TAKEOVER. -/
def pairSt (s : State) : Nat := rd F.PAIR_STATE.STATE s

/-- Set it. -/
def setPairSt (n : Nat) (s : State) : State := wr F.PAIR_STATE.STATE n s

/-- SENIOR. -/
def senior (s : State) : Bool := on F.PAIR_STATE.SENIOR s

/-- `PAIR_CFG.MODE`: 0 NONE, 1 PAIR, 2 SPLIT. -/
def pairMode (s : State) : Nat := rd F.PAIR_CFG.MODE s

/-- `PAIR_EPOCH` never falls, and a rise goes to the journal (R330). -/
def raiseEpoch (e : Nat) (after : Durable) (s : State) : State :=
  if rd F.PAIR_EPOCH.VALUE s < e then journal 0x06 [e] after (wr F.PAIR_EPOCH.VALUE e s) else s

/-! ### Leaving and discarding -/

/-- The module is no primary any more: nothing waits for a mirror (R329). -/
def leavePrimary (s : State) : State :=
  let s1 := dropAckWaits { s with pair := { s.pair with mirrorQ := [], lag := [], tokensIn := [], syncing := false, synced := [] } }
  flushRings s1

/-- Requests of split models end with status FAULT (R329, R338). -/
def endSplit (s : State) : State :=
  let ms := (List.range 16).filter fun m => on (F.SPLIT_CTRL.EN m) s
  let s1 := forEach ms (fun m t => forEach (uncommitted m t) abandonStep t) s
  forEach ((s1.svc.reqs.filter fun q => ms.contains q.model).map (·.id)) (fun id => endRequest id 7) s1

/-- The pair leaves SPLIT (R338): what crosses and what the back has launched is dropped; uncommitted steps are not replayed. -/
def leaveSplit (s : State) : State :=
  forEach (s.pair.backSteps.flatMap fun b => b.seqs.map fun p => p.2.seq) discardKv
    { s with pair := { s.pair with backReady := [], backSteps := [], crossed := [] } }

/-- A sequence ends without an entry: its slot is released. -/
def dropSeq (q : Nat) (s : State) : State := releaseSeq q false s

/-- A mirror discards its mirrored state (R321, R331): requests, sequences, prefixes, tokens, parts. -/
def discardMirror (s : State) : State :=
  let s1 := forEach ((s.kv.seqs.filter fun p => p.2.used).map (·.1)) dropSeq s
  let s2 := forEach s1.svc.pfx (fun e => clearPages e.model 0 e.pages) s1
  { s2 with
    svc := { s2.svc with reqs := [], pfx := [] }
    pair := { s2.pair with group := [], ahead := [], mirror := [], mirrorToks := [], sinter := [], pageReqs := [], pageWait := [], frozen := false } }

/-- The mirror freezes at the last complete commit group (R329). -/
def freezeMirror (s : State) : State := { s with pair := { s.pair with group := [], ahead := [] } }

/-- A page asked of the partner is lost (R206, R323). -/
def loseRequested (r : PageReq) (s : State) : State :=
  match r.page s with
  | some p => losePage r.stack r.model p r.reader s
  | none => s

/-- With the partner gone, the pages asked of it are lost (R323). (DEDUCED, unsafe: log entry 45.) -/
def losePageReqs (s : State) : State :=
  forEach s.pair.pageReqs loseRequested { s with pair := { s.pair with pageReqs := [], pageWait := [] } }

/-- The partner is watched from now on (R328), or no more. -/
def setWatch (w : Option Nat) (s : State) : State := { s with pair := { s.pair with watch := w, silent := 0 } }

/-- The module enters ISOLATED (R328, R329). -/
def isolatePair (s : State) : State :=
  let st := pairSt s
  let s1 := setWatch none (pldm 0x26 0 (raise F.PAIR_STS.ISOLATED (setPairSt 6 s)))
  let s2 := when (st == 5) leaveSplit s1
  if senior s then (if st = 5 then endSplit s2 else leavePrimary (losePageReqs s2))
  else freezeMirror { s2 with pair := { s2.pair with frozen := true } }

/-- ISOLATE (R328): no port has been ACTIVE for 1 ms. (DEDUCED, unsafe: log entry 45.) -/
def isolate (t : Nat) (s0 : State) : State :=
  let s := atTime t s0
  match s.pair.watch with
  | none => s
  | some w =>
    let since := ((List.range 4).map fun k => (linkOf (k + 1) s).downAt).foldl max w
    if pairMode s ≠ 0 ∧ (activePorts s).isEmpty ∧ since + 1000 * cyPerUs ≤ t then isolatePair s else s

/-- ISOLATE. -/
def execIsolate (t : Nat) (s : State) : Host.Outcome State Fault Refusal := .next (isolate t s)

/-- PARTNER_SILENT (R328): at a frame start with a port ACTIVE, three have passed without the partner's FRAME. -/
def watchPartner (s : State) : State :=
  if pairMode s ≠ 0 ∧ s.pair.watch.isSome ∧ !(activePorts s).isEmpty then
    let n := s.pair.silent + 1
    let s1 := { s with pair := { s.pair with silent := n } }
    if 3 ≤ n then isolatePair s1 else s1
  else { s with pair := { s.pair with silent := 0 } }

/-! ### SYNCING, the primary's side (R324) -/

/-- The 128-byte entry of a request, as it was taken (R213). -/
def requestEntry (q : Request) : BitVec 1024 :=
  let stop := fun i => q.stops.getD i 0xFFFFFFFF * 2 ^ (512 + 32 * i)
  BitVec.ofNat 1024 ((if q.isPrefix then 3 else 1) + q.model * 2 ^ 8 + q.ring * 2 ^ 12 + q.reqId * 2 ^ 32 + q.handle * 2 ^ 96 +
    q.ntok * 2 ^ 160 + q.tokAddr * 2 ^ 192 + q.maxNew * 2 ^ 256 + q.temp.toNat * 2 ^ 288 + q.topP * 2 ^ 304 + q.topK * 2 ^ 320 +
    q.shape * 2 ^ 336 + q.hot * 2 ^ 344 + q.seed * 2 ^ 352 + q.firstDl * 2 ^ 416 + q.stepBeats * 2 ^ 480 +
    stop 0 + stop 1 + stop 2 + stop 3)

/-- Send one sequence: its committed positions, then its state; from then on its commits are mirrored. -/
def syncSeq (q : Nat) (s : State) : State :=
  let s1 := mirrorState q (mirrorKv q 0 (seqSlot q s).len s)
  { s1 with pair := { s1.pair with synced := s1.pair.synced ++ [q] } }

/-- Send one prefix (R324): its pages and sinter stores under the number of a sequence slot that is free, then the PREFIX that makes them
the handle's. (DEDUCED, unsafe: log entry 44.) -/
def syncPfx (e : PfxEntry) (s : State) : State :=
  match freeSeq s with
  | none => s
  | some c =>
    let m := e.model
    let slots := fun (l : Nat) => (List.range (2 * poolKvh m s)).flatMap fun part =>
      let data := ((e.sinter.find? fun x => x.layer == l && x.part == part).map (·.data)).getD []
      ((List.range (sinterGranules m s)).map fun i => data.getD i 0).flatMap granuleSlots
    let rec_ := natSlot (2 ^ 35 + 2 ^ 36 * m + 2 ^ 40 * e.lp)
    let s1 := forEach e.pages (mirrorPage c m 0 e.lp) s
    mirrorPfx m e.handle (some c) e.lp (forEach (List.range (poolL m s)) (fun l => mirrorLayer c m l rec_ (slots l)) s1)

/-- The primary sends its whole committed state (R324): every prefix, every request's entry, every sequence in slot order. Requests
that run are named in the next FRAME as admitted. (DEDUCED, unsafe: log entry 44.) -/
def syncAll (s : State) : State :=
  let run := (s.svc.reqs.filter Request.admitted).map fun q => (q.reqId, q.model, 0, q.seq)
  let s1 := { s with
    pair := { s.pair with syncing := true, synced := [] }
    svc := { s.svc with decisions := s.svc.decisions ++ run } }
  let s2 := forEach (s1.svc.pfx.filter fun e => !e.pending && !e.pages.isEmpty) syncPfx s1
  let s3 := forEach s2.svc.reqs (fun q => mirrorCmd q.model (requestEntry q)) s2
  let s4 := forEach ((s3.kv.seqs.filter fun p => p.2.used && p.2.freeing.isNone).map (·.1)) syncSeq s3
  { s4 with pair := { s4.pair with syncing := false } }

/-- A port is ACTIVE and the epochs agree: the module takes its place in the pair (R317, R332). -/
def joinPair (s : State) : State :=
  if pairMode s = 2 then setPairSt 5 s
  else if senior s then syncAll (setPairSt 3 s)
  else setPairSt 2 (discardMirror s)

/-! ### PARAMS between partners (R332, R492) -/

/-- This module keeps or takes SENIOR against a partner with the same SENIOR bit: higher epoch, then strap, then lower serial. -/
def winsSenior (p : Params) (s : State) : Bool :=
  let mine := rd F.PAIR_EPOCH.VALUE s
  let strap := on F.PIN_STATE.SENIOR_STRAP s
  if senior s && p.epoch != mine then decide (p.epoch < mine)
  else if strap != p.strap then strap
  else decide (s.fuses.serial < p.serial)

/-- A strap rule has to choose between equal straps and equal epochs (R492). -/
def strapTie (p : Params) (s : State) : Bool :=
  p.epoch == rd F.PAIR_EPOCH.VALUE s && on F.PIN_STATE.SENIOR_STRAP s == p.strap

/-- Settle SENIOR with a partner that shows the same bit (R332, R492). -/
def settleSenior (p : Params) (s : State) : State :=
  if senior s != p.senior then s
  else
    let s1 := when (strapTie p s) (fun t => pldm 0x2A 0 (raise F.PIN_STS.STRAP t)) s
    if winsSenior p s then wr F.PAIR_STATE.SENIOR 1 s1
    else if senior s then discardMirror (endAll 7 (leavePrimary (wr F.PAIR_STATE.SENIOR 0 s1)))
    else s1

/-- The partners compare epochs and SENIOR bits when a port becomes ACTIVE (R330, R332). -/
def meetPartner (p : Params) (s0 : State) : State :=
  let s := { s0 with pair := { s0.pair with partner := some p } }
  if pairMode s ≠ 0 ∧ (pairSt s ≤ 1 ∨ pairSt s = 6) then
    joinPair (setWatch (some s.now) (raiseEpoch p.epoch .none (settleSenior p s)))
  else raiseEpoch p.epoch .none s

/-! ### The streams (R313) -/

/-- PSN that a stream expects next. -/
def rxExpected (st : Nat) (s : State) : Nat := Table.get (fun _ => 0) s.pair.rxPsn st

/-- Advance it. -/
def rxAdvance (st : Nat) (s : State) : State :=
  { s with pair := { s.pair with rxPsn := Table.set (fun _ => 0) s.pair.rxPsn st ((rxExpected st s + 1) % 2 ^ 32) } }

/-- Acknowledge a stream: the highest PSN applied (R312, R319). -/
def sendSpanAck (st : Nat) (s : State) : State :=
  sendSpan 0x03 0 ((rxExpected st s + 2 ^ 32 - 1) % 2 ^ 32 + bitN (st == 2) * 2 ^ 32) [] s

/-- The stream's side of the pair can be applied: a mirror, or a split module, or pass-on. -/
def isMirror (s : State) : Bool := pairSt s == 2 || pairSt s == 4

/-! ### What the mirror applies (R318) -/

/-- Bytes of slots. -/
def slotsNat (l : List Slot16) : Nat := l.foldr (fun x n => x.toNat + 2 ^ 128 * n) 0

/-- Bytes of slots as granules. -/
def slotGranules : Nat → List Slot16 → List Granule
  | 0, _ => []
  | n + 1, l => BitVec.ofNat 512 (slotsNat (l.take 4)) :: slotGranules n (l.drop 4)

/-- A mirrored command (R318): it changes the mirror's own queue and writes no entry. (DEDUCED, unsafe: log entry 44.) -/
def mirrorTake (e : BitVec 1024) (s : State) : State :=
  let m := cmdModel e
  let h := cmdBytes e 12 8
  match cmdOp e with
  | 1 =>
    if h = 0 then enqueue (newRequest e false 0 s) s
    else match usableHandle m h s with
      | some p => enqueue (newRequest e true p.lp s) (modPfx h (fun x => { x with users := x.users + 1 }) s)
      | none => s
  | 2 =>
    match cancelTarget m h s with
    | none => s
    | some q =>
      let s1 := { s with svc := { s.svc with reqs := s.svc.reqs.filter (·.id != q.id) } }
      when q.usesHandle (unusePfx q.handle) (when q.admitted (dropSeq q.seq) s1)
  | 3 => if h = 0 ∨ (pfxEntry h s).isSome then s else prefixCreateAct e s
  | 4 => match usableHandle m h s with
    | none => s
    | some _ => withdrawPfx h s
  | _ => s

/-- A sequence that SYNCING has copied already is admitted where it stands (R324): what its request may still need is reserved, and the
pages of its prefix are its own SHARED ones. -/
def admitCopied (q : Request) (seq : Nat) (s : State) : State :=
  let x := seqSlot seq s
  let n := pageSets q s - (x.pages.filter (!·.shared)).length
  let s1 := setSeqSlot seq { x with hotlog := q.hot, resv := x.resv + n }
    (wr (F.POOL_RESV.VALUE q.model) (rd (F.POOL_RESV.VALUE q.model) s + n) s)
  let ps := if q.usesHandle then ((pfxEntry q.handle s).map (·.pages)).getD [] else []
  let s2 := setPages seq ((ps.filter fun e => (pageAt seq e.span s).isNone).map fun e => { e with shared := true }) s1
  modRequest q.id (fun r => { r with state := .prefill, seq := seq, readyAt := s.svc.nextReady })
    { s2 with svc := { s2.svc with nextReady := s2.svc.nextReady + 1 } }

/-- A mirrored decision (R318). -/
def mirrorDecision (d : Decided) (s : State) : State :=
  match s.svc.reqs.find? fun q => q.reqId == d.reqId && q.model == d.model && !q.admitted with
  | none => s
  | some q =>
    match d.code % 4 with
    | 0 => if (seqSlot d.seq s).used then admitCopied q d.seq s else admitInto q d.seq s
    | 1 => modRequest q.id (fun x => { x with state := .deferred, deferredOnce := true, reason := d.code / 4 }) s
    | _ =>
      let s1 := { s with svc := { s.svc with reqs := s.svc.reqs.filter (·.id != q.id) } }
      let s2 := when q.usesHandle (unusePfx q.handle) s1
      when (q.isPrefix) (dropPfx q.handle) s2

/-- A sequence slot that SYNCING copies into is in use (R324). -/
def copySlot (q m : Nat) (s : State) : State :=
  if (seqSlot q s).used then s
  else setSeqSlot q { SeqSlot.reset with used := true, model := m, list := Config.pageList q % 2 ^ 35 } s

/-- While SYNCING, a page that a copied sequence needs is reserved as it is taken (R324). (DEDUCED, unsafe: log entry 44.) -/
def lendPage (q span : Nat) (s : State) : State :=
  let x := seqSlot q s
  if pairSt s = 2 ∧ (pageAt q span s).all (·.shared) ∧ x.resv = 0 then
    setSeqSlot q { x with resv := 1 } (wr (F.POOL_RESV.VALUE x.model) (rd (F.POOL_RESV.VALUE x.model) s + 1) s)
  else s

/-- KV data of a commit group, or of a copied sequence, go to the mirror's own pages (R318). -/
def applyKv (p : SpanPart) (s : State) : State :=
  let q := bitsOf p.arg 0 12
  let l := bitsOf p.arg 12 8
  let pos := bitsOf p.arg 20 24
  let n := bitsOf p.arg 44 9
  let m := p.model
  let r : StackReq := { op := 1, k := true, v := true, side := true, seq := q, layer := l, head := 0, hcnt := poolKvh m s, act := 4,
                        pos := pos, npos := n, reply := 0, cnt := 0, raddr := 0, addr := 0, len := 0 }
  match commitPage q (pos / 256) r .quiet (lendPage q (pos / 256) (copySlot q m s)) with
  | none => s
  | some (pg, s1) => storeGranules (((kvAddrs m pg r s1).map (·.2)).drop (granulesPerPart * bitsOf p.arg 53 11)) (slotGranules (cdiv p.data.length 4) p.data) s1

/-- A sequence's state record and sinter stores (R312, R318). -/
def applyState (p : SpanPart) (s : State) : State :=
  let q := bitsOf p.arg 0 12
  let l := bitsOf p.arg 12 8
  let i := bitsOf p.arg 20 12
  let fst := decide (l = 0) && decide (i = 0)
  let rec_ := (p.data.headD 0).toNat
  let store := if fst then p.data.drop 1 else p.data
  let before := if i = 0 then [] else (s.pair.sinter.filter fun x => x.1 == q && x.2.1 == l).flatMap (·.2.2)
  let s1 := { s with pair := { s.pair with
    sinter := s.pair.sinter.filter (fun x => !(x.1 == q && x.2.1 == l)) ++ [(q, l, before ++ store)],
    synced := if s.pair.synced.contains q then s.pair.synced else s.pair.synced ++ [q] } }
  if fst then
    modSeqSlot q (fun x => { x with len := bitsOf rec_ 40 25, hotlog := bitsOf rec_ 65 3 }) (copySlot q (bitsOf rec_ 36 4) s1)
  else s1

/-- A prefix-table change (R318). In SYNCING the pages of a handle that the mirror does not know have come under the number of a slot that
is free again after it (R324). (DEDUCED, unsafe: log entry 44.) -/
def applyPfx (d : PfxChange) (s : State) : State :=
  match d.seq with
  | none => if d.lp = 0 then withdrawPfx d.handle s else s
  | some q =>
    let ps := (seqSlot q s).pages.map fun e => { e with shared := true }
    let kept := (s.pair.sinter.filter (·.1 == q)).flatMap fun x => storesAt q x.2.1 x.2.2 d.lp s
    if (pfxEntry d.handle s).isSome then
      modPfx d.handle (fun h => { h with pending := false, pages := ps, lp := d.lp, sinter := kept }) s
    else
      let e : PfxEntry := { handle := d.handle, model := d.model, pending := false, released := false, users := 0, pages := ps, lp := d.lp,
                            releasers := [], sinter := kept }
      let x := seqSlot q s
      let s1 := setSeqSlot q .reset (clearList q x.pages (returnResv x.model x.resv s))
      { s1 with
        svc := { s1.svc with pfx := s1.svc.pfx ++ [e] }
        pair := { s1.pair with sinter := s1.pair.sinter.filter (·.1 != q), synced := s1.pair.synced.filter (· != q) } }

/-- One part of a commit group. -/
def applyPart (p : SpanPart) (s : State) : State :=
  if p.op = 0x12 then applyKv p s
  else if p.op = 0x13 then applyState p s
  else
    let w := (p.data.headD 0).toNat
    let q := bitsOf w 0 32
    applyPfx { psn := 0, model := p.model, handle := p.arg, seq := if q = 0 then none else some (q - 1), lp := bitsOf w 32 32 } s

/-- The mirrored record of a sequence after a COMMIT (R318, R327). -/
def keepTokens (m : Nat) (c : CommitSeq) (old : Option MirrorReq) : MirrorReq :=
  let was := (old.map (·.kept)).getD []
  let all := if c.tokens.isEmpty then was else was ++ [(c.step, c.tokens)]
  { reqId := c.reqId, model := m, seq := c.seq, step := c.step, deliveredThru := c.deliveredThru, root := c.root,
    kept := if c.deliveredThru = 0xFFFFFFFF then all else all.filter fun k => decide (c.deliveredThru < k.1), ended := none }

/-- Status with which a mirrored commit ends its request (R232, R233); none where it goes on. -/
def mirroredEnd (m : Nat) (c : CommitSeq) (q : Request) (gen pre len : Nat) (s : State) : Option Nat :=
  if q.isPrefix then (if pre = q.ntok then some 0 else none)
  else if c.tokens.isEmpty then none
  else if c.tokens.getLast?.any fun t => q.stops.contains t then some 1
  else if q.maxNew ≤ gen then some 2
  else if posLimit m s ≤ len then some 3
  else none

/-- The record of a mirrored request that its last commit ended is kept for a takeover (R327). -/
def keepEnded (m : Nat) (q : Request) (status len : Nat) (s : State) : State :=
  { s with pair := { s.pair with mirror := s.pair.mirror.map fun x =>
      if x.reqId = q.reqId ∧ x.model = m then { x with ended := some (q, status, len) } else x } }

/-- One sequence of a COMMIT: the mirror's request moves on; one whose tokens end it is released (R232, R318). -/
def applyCommitSeq (m : Nat) (c : CommitSeq) (s : State) : State :=
  let old := s.pair.mirror.find? fun x => x.reqId == c.reqId && x.model == m
  let k := keepTokens m c old
  let s1 : State := { s with pair := { s.pair with
    mirror := s.pair.mirror.filter (fun x => !(x.reqId == c.reqId && x.model == m)) ++ [k] } }
  match s1.svc.reqs.find? fun q => q.reqId == c.reqId && q.model == m && q.admitted with
  | none => s1
  | some q =>
    let len := (seqSlot q.seq s1).len
    let gen := q.generated + c.tokens.length
    let pre := min q.ntok (len - q.lp)
    match mirroredEnd m c q gen pre len s1 with
    | some st =>
      let s2 := keepEnded m { q with generated := gen } st len { s1 with svc := { s1.svc with reqs := s1.svc.reqs.filter (·.id != q.id) } }
      when q.usesHandle (unusePfx q.handle) (releaseSeq q.seq q.isPrefix s2)
    | none =>
      modRequest q.id (fun x => { x with
        step := c.step + 1, generated := gen, prefilled := pre, launched := pre,
        state := if c.tokens.isEmpty then x.state else .decode, next := [c.root] }) s1

/-- COMMIT (R318, R319): the commit group is applied and acknowledged. -/
def applyCommit (d : CommitData) (s : State) : State :=
  let s1 := forEach s.pair.group applyPart { s with pair := { s.pair with group := [] } }
  let s2 := forEach d.seqs (applyCommitSeq d.model) s1
  { s2 with pair := { s2.pair with groupsIn := s2.pair.groupsIn + 1 } }

/-- A part of a commit group waits for its COMMIT; while SYNCING it is applied on arrival (R318, R324).
(DEDUCED, unsafe: log entry 44.) -/
def takePart (p : SpanPart) (s : State) : State :=
  if pairSt s = 2 then applyPart p s else { s with pair := { s.pair with group := s.pair.group ++ [p] } }

/-- TOKENS_IN (R312, R318). -/
def keepTokensIn (m : SpanMsg) (s : State) : State :=
  let h := (m.data.headD 0).toNat
  let toks := (m.data.drop 1).flatMap fun x => (List.range 4).map fun i => fieldOf x (32 * i) 32
  { s with pair := { s.pair with
    mirrorToks := s.pair.mirrorToks ++ [{ reqId := bitsOf h 0 64, model := m.model, off := bitsOf h 64 32, toks := toks }] } }

/-- A mirror discards its state and returns to SYNCING (R321, R331). It asks for the primary's state by an ACK with bit 33 set: the spec
does not say how the primary learns of it. (DESIGN CHOICE, unsafe: log entry 98.) -/
def syncAgain (s : State) : State :=
  sendSpan 0x03 0 ((rxExpected 1 s + 2 ^ 32 - 1) % 2 ^ 32 + 2 ^ 33) [] (setPairSt 2 (discardMirror s))

/-- Pool counts of the primary differ from the mirror's own (R321). -/
def diverges (d : FrameData) (s : State) : Bool :=
  (List.range 16).any fun m =>
    d.free.getD m 0 != rd (F.POOL_FREE.VALUE m) s || d.resv.getD m 0 != rd (F.POOL_RESV.VALUE m) s

/-- The primary's FRAME (R318, R321): decisions, pool counts, beat offset. -/
def applyFrame (d : FrameData) (s : State) : State :=
  let s1 := forEach d.decisions mirrorDecision s
  let off := (d.beat + 2 ^ 32 - beatNo s1 % 2 ^ 32) % 2 ^ 32
  let pool := fun (l : List Nat) => (List.range 16).foldl (fun t m => Table.set (fun _ => 0) t m (l.getD m 0)) ([] : Table Nat)
  let s2 := wr F.BEAT_OFFSET.VALUE off { s1 with pair := { s1.pair with poolFree := pool d.free, poolResv := pool d.resv } }
  let s3 := when (off != 0) (raise F.PAIR_STS.BEAT_SKEW) s2
  if pairSt s3 = 4 ∧ diverges d s3 then syncAgain (raise F.PAIR_STS.DIVERGE s3) else s3

/-! ### Split mode (R336, R337) -/

/-- A crossing record's fields (R335). -/
def crossDir (r : BitVec 128) : Nat := fieldOf r 36 1

/-- Granules of a record. -/
def crossLen (r : BitVec 128) : Nat := fieldOf r 74 10 + 1

/-- Granules that a step of a model takes in one direction. -/
def crossTotal (m dir : Nat) (s : State) : Nat :=
  (((image m s).crossings.filter fun r => crossDir r == dir).map crossLen).foldl (· + ·) 0

/-- The span port by which crossings enter the mesh: the first that is ACTIVE. (DESIGN CHOICE, unsafe: log entry 97.) -/
def xingPort (s : State) : Nat := (activePorts s).headD 0

/-- Receiving cell of a record. -/
def crossCell (r : BitVec 128) : Nat := fieldOf r 18 18

/-- Hops of `n` granules of a record from the gateway that R45 selects for its receiving cell (R336). -/
def crossHops (n : Nat) (r : BitVec 128) (s : State) : Nat := n * hops (spanGateway (xingPort s) (crossCell r)) (crossCell r)

/-- Charge crossings that come in to the step's activity (R165, R336). -/
def chargeCross (act h : Nat) (s : State) : State := chargeEnergy act (energyHop 3) h (charge act 0 h s)

/-- The flit of one granule of a crossing (R51, R336): to the record's cell at DGR + i, with its counter. -/
def crossFlit (r : BitVec 128) (i n : Nat) (g : Granule) (s : State) : Flit :=
  let c := crossCell r
  ⟨BitVec.ofNat 48 (c * 2 ^ 5 + (fieldOf r 54 15 + i) % 2 ^ 15 * 2 ^ 23 + fieldOf r 69 5 * 2 ^ 38 +
    bitN (grow (spanGateway (xingPort s) c) != grow c) * 2 ^ 43 + bitN (n == 1) * 2 ^ 44 + 3 * 2 ^ 46), g⟩

/-- Activity of the step of a model whose result the front awaits. -/
def awaitedAct (m : Nat) (s : State) : Nat :=
  match s.ledger.entries.find? fun e => e.model == m && e.state == .launched && !e.replay with
  | some e => activityOf e.entry
  | none => 0

/-- Put granules of a crossing on the mesh, from number `i` of the record on. -/
def crossIn (m act : Nat) (r : BitVec 128) : Nat → List Granule → State → State
  | _, [], s => s
  | i, g :: gs, s =>
    crossIn m act r (i + 1) gs
      (goOn ⟨221196 + xingPort s, crossFlit r i (gs.length + 1) g s, act, [], route (spanGateway (xingPort s) (crossCell r)) (crossCell r), none,
        some (m, crossDir r)⟩ s)

/-- XING (R336): its granules enter the mesh at the gateway of their receiving cell. The front's step is charged for them as they come,
the back's when it is formed. -/
def applyXing (x : SpanMsg) (s : State) : State :=
  match (image x.model s).crossings[bitsOf x.arg 0 15]? with
  | none => s
  | some r =>
    let gs := slotGranules (x.data.length / 4) x.data
    let act := if crossDir r = 1 then awaitedAct x.model s else 0
    crossIn x.model act r (bitsOf x.arg 15 10) gs (when (crossDir r == 1) (chargeCross act (crossHops gs.length r s)) s)

/-- RESULT (R337): the step's tokens, accepted rows and next trees reach the front's ledger. -/
def applyResult (d : SplitResult) (s : State) : State :=
  match s.ledger.entries.find? fun e => e.model == d.model && e.launch == d.launch && e.state == .launched && !e.replay with
  | none => s
  | some e =>
    let xs := (List.range e.seqs.length).filterMap fun i =>
      match e.seqs[i]?, d.seqs[i]? with
      | some x, some r => some { x with out := r.1, accepted := r.2.1, next := r.2.2 }
      | some x, none => some x
      | _, _ => none
    let n := crossTotal d.model 1 s
    setResult e.index xs (setCrossed d.model 1 (crossed d.model 1 s - n) s)

/-! ### Pass-on, the receiver's side (R245, R246, R333) -/

/-- Answer a part: 0 placed, 1 dropped. -/
def passRsp_ (m code : Nat) (s : State) : State := sendSpan 0x21 m code [] s

/-- A part that matches an open LOAD_RECEIVE is placed; the last one of the last segment ends the command. -/
def placePart (m slice off : Nat) (lastOne : Bool) (gs : List Granule) (r : LoadRecv) (s : State) : State :=
  match segmentSlice (modelSlot m s).slices slice off gs.length with
  | none => endReceive m 0x0C (passRsp_ m 1 s)
  | some x =>
    let n := r.placed + bitN lastOne
    let s1 := modModelSlot m (fun y => { y with recv := some { r with idle := 0, placed := n } }) (placeSegment x off gs s)
    let s2 := passRsp_ m 0 s1
    if n < r.nseg then s2 else endReceive m 0 (modModelSlot m (fun y => { y with manifest := r.manifest }) s2)

/-- A part that no open LOAD_RECEIVE matches is dropped; a segment counts as dropped with its final part, as one counts as placed
(R245, R246, R251). (DEDUCED, unsafe: log entry 45.) -/
def dropPart (m : Nat) (lastOne : Bool) (s : State) : State := passRsp_ m 1 (when lastOne (bump F.PASS_DROP_CNT) s)

/-- PASS (R245, R246, R333). -/
def applyPass (x : SpanMsg) (s : State) : State :=
  let h := (x.data.headD 0).toNat
  let gs := slotGranules ((x.data.length - 1) / 4) (x.data.drop 1)
  match (modelSlot x.model s).recv with
  | some r =>
    if r.manifest = x.arg then placePart x.model (bitsOf h 0 32) (bitsOf h 32 32) (bitsOf h 96 1 == 1) gs r s
    else dropPart x.model (bitsOf h 96 1 == 1) s
  | none => dropPart x.model (bitsOf h 96 1 == 1) s

/-- A part waits while the slice map of its LOAD_RECEIVE is still being read, and while Weight-Load is held; at a mirror the MIRROR
stream waits while Mirror is held (R167, R320). (DEDUCED, unsafe: log entry 45.) -/
def spanBlocked (st : Nat) (x : SpanIn) (s : State) : Bool :=
  if st = 1 then isMirror s && held 4 s
  else match x with
    | .msg m => m.op == 0x20 && (modelSlot m.model s).recv.isSome && (!slicesRead m.model s || held 3 s)
    | _ => false

/-! ### Applying a stream in order (R313) -/

/-- Data slots of a COMMIT as it is sent (R318). -/
def commitSize (d : CommitData) : Nat := (d.seqs.map fun c => 2 + cdiv c.tokens.length 4).sum

/-- Data slots of a FRAME as it is sent (R321). -/
def frameSize (d : FrameData) : Nat := 20 + d.decisions.length

/-- Apply one message of a stream; a mirror charges what it applies (R320). -/
def applySpan (x : SpanIn) (s : State) : State :=
  match x with
  | .msg m =>
    if m.op = 0x30 then applyXing m s
    else if m.op = 0x20 then applyPass m s
    else if !isMirror s then s
    else
      let s1 := chargeMirror m true s
      if m.op = 0x10 then mirrorTake (BitVec.ofNat 1024 (slotsNat m.data)) s1
      else if m.op = 0x11 then sendSpanAck 1 (keepTokensIn m s1)
      else takePart ⟨m.op, m.model, m.arg, m.data⟩ s1
  | .commit d => if isMirror s then sendSpanAck 1 (applyCommit d (chargeMirrorSlots 0x14 (commitSize d) true s)) else s
  | .pfx d =>
    if isMirror s then
      takePart ⟨0x15, d.model, d.handle, [natSlot ((match d.seq with
        | some q => q + 1
        | none => 0) + 2 ^ 32 * d.lp)]⟩ (chargeMirrorSlots 0x15 1 true s)
    else s
  | .frame d => if isMirror s then applyFrame d (chargeMirrorSlots 0x02 (frameSize d) true s) else s
  | .result d => applyResult d s
  | .scommit m launch => sendSpanAck 2 (scommitted m launch s)

/-- Apply what has become next in its stream. `n` bounds the messages. -/
def drainAhead (st : Nat) : Nat → State → State
  | 0, s => s
  | n + 1, s =>
    match s.pair.ahead.find? fun x => x.1 == st && x.2.1 == rxExpected st s with
    | none => s
    | some x =>
      if spanBlocked st x.2.2 s then s else
      let s1 := { s with pair := { s.pair with ahead := s.pair.ahead.erase x } }
      drainAhead st n (applySpan x.2.2 (rxAdvance st s1))

/-- A stream message arrives (R313, R314): in order it is applied, ahead it waits, behind it is a repeat and dropped. -/
def receiveSpan (st psn : Nat) (x : SpanIn) (s : State) : State :=
  let want := rxExpected st s
  if psn = want ∧ !spanBlocked st x s then
    let s1 := applySpan x (rxAdvance st s)
    drainAhead st s1.pair.ahead.length s1
  else if ringUsed psn want < 2 ^ 31 then
    if s.pair.ahead.any fun a => a.1 == st && a.2.1 == psn then s
    else { s with pair := { s.pair with ahead := s.pair.ahead ++ [(st, psn, x)] } }
  else s

/-- A span message is performed: it leaves the inbox if it stands there. -/
def takeInbox (op : Nat) (s : State) : State :=
  match s.pair.inbox.find? (·.op == op) with
  | some m => { s with pair := { s.pair with inbox := s.pair.inbox.erase m } }
  | none => s

/-! ### Takeover (R326, R327) -/

/-- A mirrored request is ready at its last mirrored commit (R326): its tokens, and a hot window to fill. -/
def readyMirrored (s : State) (q : Request) : Request :=
  let parts := s.pair.mirrorToks.filter fun p => p.reqId == q.reqId && p.model == q.model
  let toks := (parts.flatMap (·.toks)).take q.ntok
  if q.admitted then
    { q with inStep := false, filling := decide (0 < (seqSlot q.seq s).len), tokens := if parts.isEmpty then q.tokens else some toks }
  else q

/-- The junior enters TAKEOVER (R325, R326): the incomplete group is dropped; requests whose copy was not complete end with FAULT. -/
def startTakeover (epoch : Nat) (durable : Bool) (s : State) : State :=
  let wasSync := pairSt s == 2
  let s1 := setWatch none (freezeMirror (setPairSt 7 s))
  let s2 := { s1 with pair := { s1.pair with takeover := !durable } }
  let s3 := if durable then wr F.PAIR_EPOCH.VALUE (max (rd F.PAIR_EPOCH.VALUE s2) epoch) s2 else raiseEpoch epoch .epoch s2
  let lost := if wasSync then (s3.svc.reqs.filter fun q => q.admitted && !s3.pair.synced.contains q.seq).map (·.id) else []
  let s4 := forEach lost (fun id => endRequest id 7) s3
  losePageReqs { s4 with svc := { s4.svc with reqs := s4.svc.reqs.map (readyMirrored s4) } }

/-- Position of the first token of each kept step, from the last one back. -/
def keptPositions (len : Nat) : List (Nat × List Nat) → List (Nat × List Nat × Nat)
  | [] => []
  | k :: ks =>
    let after := (ks.map fun x => x.2.length).foldl (· + ·) 0
    (k.1, k.2, len + 1 - after - k.2.length) :: keptPositions len ks

/-- FLAGS of the TOKENS entry of a mirrored step (R215): FIRST and STOP; LATE is not mirrored. `after` counts the tokens of later kept steps.
(DEDUCED, unsafe: log entry 44.) -/
def keptFlags (q : Request) (toks : List Nat) (after : Nat) : Nat :=
  2 * bitN (decide (q.generated ≤ after + toks.length)) + 4 * bitN (toks.getLast?.any fun t => q.stops.contains t)

/-- The TOKENS entry of a mirrored step (R215, R327). -/
def keptEntry (len : Nat) (q : Request) (k : Nat × List Nat × Nat) (s : State) : OutEntry :=
  let toks := k.2.1.foldr (fun t acc => t % 2 ^ 32 + 2 ^ 32 * acc) 0
  { data := outBits 1 (keptFlags q k.2.1 (len + 1 - k.2.2 - k.2.1.length)) k.2.1.length q.model q.reqId k.1 (toks + k.2.2 * 2 ^ 160) s, tokens := k.2.1.length, req := q.id, step := k.1,
    entry := 1024, noAck := true }

/-- Write the kept TOKENS entries of a request whose sequence has this LEN (R327). -/
def writeKept (q : Request) (len : Nat) (kept : List (Nat × List Nat)) (s : State) : State :=
  forEach (keptPositions len kept) (fun k t => putEntry q.ring (keptEntry len q k t) (bumpBy F.TOK_GEN_CNT k.2.1.length t)) s

/-- The new primary writes what the old one had not delivered (R327); a request that its last mirrored commit ended ends here too. -/
def rewriteTokens (m : MirrorReq) (s : State) : State :=
  match m.ended, s.svc.reqs.find? fun q => q.reqId == m.reqId && q.model == m.model with
  | some (q, st, len), _ => if m.kept.isEmpty then s else endEntry q st (writeKept q len m.kept s)
  | none, some q => writeKept q (seqSlot m.seq s).len m.kept s
  | none, none => s

/-- `BEAT_OFFSET` as a signed number (R321). -/
def beatOffset (s : State) : Int :=
  let v := rd F.BEAT_OFFSET.VALUE s
  if v < 2 ^ 31 then (v : Int) else (v : Int) - 2 ^ 32

/-- TAKEOVER_COMPLETE (R322, R326, R327): the hot windows are filled and the epoch's record is durable; the junior serves. -/
def takeoverComplete (s : State) : State :=
  if pairSt s = 7 ∧ !s.pair.takeover ∧ !(s.svc.reqs.any (·.filling)) then
    let s1 := raise F.PAIR_STS.TAKEOVER (setPairSt 0 (wr F.PAIR_STATE.SENIOR 1 s))
    let off := beatOffset s1
    let shift := fun (q : Request) =>
      { q with firstDl := if q.firstDl = 0 then 0 else ((q.firstDl : Int) + off).toNat, lastCommit := none }
    let s2 := { s1 with svc := { s1.svc with reqs := s1.svc.reqs.map shift } }
    let s3 := forEach s2.pair.mirror rewriteTokens s2
    { s3 with pair := { s3.pair with mirror := [], mirrorToks := [], sinter := [], frozen := false } }
  else s

/-- TAKEOVER_COMPLETE. -/
def execTakeoverComplete (s : State) : Host.Outcome State Fault Refusal := .next (takeoverComplete s)

/-- SYNCING_COMPLETE (R324): the mirror holds the primary's whole committed state. -/
def syncingComplete (s : State) : State :=
  if pairSt s = 2 ∧ s.pair.ahead.isEmpty ∧ !(activePorts s).isEmpty then setPairSt 4 s else s

/-- SYNCING_COMPLETE. -/
def execSyncingComplete (s : State) : Host.Outcome State Fault Refusal := .next (syncingComplete s)

/-! ### Arbitration (R331) -/

/-- An action fits the module's state (R331). -/
def arbFits (action : Nat) (s : State) : Bool :=
  !senior s && (if action = 3 then pairSt s == 4 else pairSt s == 6)

/-- The host writes an action: it is journaled before it takes effect, or refused (R331). -/
def arbitrate (action : Nat) (s : State) : State :=
  let e := rd F.PAIR_ARB_EPOCH.VALUE s
  if rd F.PAIR_EPOCH.VALUE s < e ∧ arbFits action s ∧ s.pair.arb.isNone then
    journal 0x06 [e] .epoch { s with pair := { s.pair with arb := some (action, e) } }
  else raise F.PAIR_STS.EPOCH_REFUSED s

/-- TAKEOVER (R331). -/
def execTakeover (s : State) : Host.Outcome State Fault Refusal := .next (arbitrate 1 s)

/-- RELEASE (R331). -/
def execRelease (s : State) : Host.Outcome State Fault Refusal := .next (arbitrate 2 s)

/-- RESYNC (R331). -/
def execResync (s : State) : Host.Outcome State Fault Refusal := .next (arbitrate 3 s)

/-- The record of an epoch is durable: a takeover may complete; an arbitration takes effect (R326, R331). -/
def epochDurable (s : State) : State :=
  match s.pair.arb with
  | none => { s with pair := { s.pair with takeover := false } }
  | some (a, e) =>
    let s1 := wr F.PAIR_EPOCH.VALUE (max (rd F.PAIR_EPOCH.VALUE s) e) { s with pair := { s.pair with arb := none } }
    match a with
    | 1 => startTakeover e true s1
    | 2 => setPairSt 0 (discardMirror s1)
    | _ => syncAgain s1

/-! ### Modes (R316) -/

/-- A model slot is LOADING or RUNNABLE. -/
def anyLoaded (s : State) : Bool := (List.range 16).any fun m => slotSt m s == 1 || slotSt m s == 2

/-- The pair state that a new MODE brings (R317): with a port ACTIVE the epochs are compared first (R332). -/
def enterMode (mode : Nat) (s0 : State) : State :=
  let s := when (pairSt s0 == 5) leaveSplit s0
  if mode = 0 then setPairSt 0 (setWatch none s)
  else
    let s1 := setPairSt 1 (setWatch (some s.now) s)
    match s1.pair.partner, (activePorts s1).isEmpty with
    | some p, false => meetPartner p s1
    | _, _ => s1

/-- PAIR_MODE_WRITE (R316, R320): MAXLAG is always taken; MODE only while no slot is LOADING or RUNNABLE. -/
def pairModeWrite (v : Word) (s : State) : State :=
  let mode := fieldOf v 0 2
  let s1 := wr F.PAIR_CFG.MAXLAG (fieldOf v 8 8) s
  if mode = pairMode s ∨ mode = 3 ∨ anyLoaded s then s1 else enterMode mode (wr F.PAIR_CFG.MODE mode s1)

/-- PAIR_MODE_WRITE. -/
def execPairModeWrite (v : Word) (s : State) : Host.Outcome State Fault Refusal := .next (pairModeWrite v s)

end Sys2Proof.Machine
end

