-- ==== Sys2Proof/Machine/Pages.lean ====
section
/-!
DEFINITION. Pages restored from the partner (R165, R167, R206, R323).
-/
namespace Sys2Proof.Machine
open Sys2Proof

/-- Bytes of a page's layer: its element area and then its side record. -/
def pageBytes (m : Nat) (s : State) : Nat := poolUnits m s * 65536 + sideGr m s * 64

/-- Stack address of byte `o` of a page's layer. -/
def pageByte (m p l o : Nat) (s : State) : Nat :=
  let e := poolUnits m s * 65536
  if o < e then pageElem m p l s + o else pageSide m p l s + (o - e)

/-- Data slots that a part carries beside its offset slot (R313). -/
def pagePart : Nat := 2046

/-- Send a page's layer in parts from byte `o` on. `n` bounds the parts. -/
def sendPage (m p l arg : Nat) : Nat → Nat → State → State
  | 0, _, s => s
  | n + 1, o, s =>
    let k := min pagePart ((pageBytes m s - o) / 16)
    if k = 0 then s
    else
      let data := natSlot o :: (List.range k).map fun i => natSlot (stackNat (pageByte m p l (o + 16 * i) s) 16 s)
      sendPage m p l arg n (o + 16 * k) (sendSpan 0x17 m arg data s)

/-- Granules of a page's layer. -/
def inLayer (m p l : Nat) (s : State) (a : Nat) : Bool :=
  (decide (pageElem m p l s ≤ a) && decide (a < pageElem m p l s + poolUnits m s * 65536)) ||
    (decide (pageSide m p l s ≤ a) && decide (a < pageSide m p l s + sideGr m s * 64))

/-- Count the granules of a page's layer, as read or written (R211). -/
def countLayer (wrt : Bool) (m p l : Nat) (s : State) : State :=
  countSpan wrt (pageSide m p l s) (sideGr m s) (countSpan wrt (pageElem m p l s) (poolUnits m s * 1024) s)

/-- Answer a page request from the own copy (R323), charged to KV-Move. A copy that is itself uncorrectable, or that this module does
not have, is answered by a PAGE_DATA without data. (DESIGN CHOICE, unsafe: log entry 96.) -/
def answerPage (arg : Nat) (env : StackEnv) (s : State) : State :=
  let m := bitsOf arg 0 4
  let l := bitsOf arg 32 8
  match pageAt (bitsOf arg 4 12) (bitsOf arg 16 16) s with
  | none => sendSpan 0x17 m arg [] s
  | some e =>
    let n := pageBytes m s
    let mine := inLayer m e.page l s
    let s1 := stackMetOf (requestCell (leadController s)) (some (bitsOf arg 4 12)) mine env
      (countLayer false m e.page l (chargeSpanStack 2 n s))
    if (env.lostIn mine).isEmpty then sendPage m e.page l arg (n / (16 * pagePart) + 1) 0 s1 else sendSpan 0x17 m arg [] s1

/-- Write slots at bytes of a page's layer. -/
def fillPage (m p l : Nat) : Nat → List Slot16 → State → State
  | _, [], s => s
  | o, x :: xs, s => fillPage m p l (o + 16) xs (stackPut (pageByte m p l o s) 16 x.toNat s)

/-- A part of a page asked for has come (R323), charged to KV-Move: the requester rewrites the page; the last part ends the request, one
without data loses the page. -/
def restorePart (r : PageReq) (data : List Slot16) (s : State) : State :=
  let rest : State := { s with pair := { s.pair with pageReqs := s.pair.pageReqs.erase r } }
  match r.page s, data with
  | none, _ => rest
  | some _, [] => loseRequested r rest
  | some p, h :: xs =>
    let n := 16 * xs.length
    let s1 := chargeSpanStack 2 n (fillPage r.model p r.layer (fieldOf h 0 32) xs rest)
    if pageBytes r.model s ≤ r.got + n then countLayer true r.model p r.layer s1
    else { s1 with pair := { s1.pair with pageReqs := s1.pair.pageReqs ++ [{ r with got := r.got + n }] } }

/-- A page message is acted on; while KV-Move is held it waits (R167). -/
def pageMessage (x : SpanMsg × StackEnv) (s : State) : State :=
  if held 2 s then { s with pair := { s.pair with pageWait := s.pair.pageWait ++ [x] } }
  else if x.1.op = 0x16 then answerPage x.1.arg x.2 s
  else match pageReqOf x.1.arg s with
    | some r => restorePart r x.1.data s
    | none => s

/-- KV-Move is no longer held: the page messages that waited are acted on. -/
def flushPages (s : State) : State := forEach s.pair.pageWait pageMessage { s with pair := { s.pair with pageWait := [] } }

/-- PAGE_REQ (R323). -/
def pageReq (m : SpanMsg) (env : StackEnv) (s : State) : State := pageMessage ({ m with op := 0x16 }, env) (takeInbox 0x16 s)

/-- PAGE_DATA (R323). -/
def pageData (m : SpanMsg) (s : State) : State := pageMessage ({ m with op := 0x17 }, .quiet) (takeInbox 0x17 s)

/-- PAGE_REQ. -/
def execPageReq (x : PageAsk) (s : State) : Host.Outcome State Fault Refusal := .next (pageReq x.msg x.env s)

/-- PAGE_DATA. -/
def execPageData (m : SpanMsg) (s : State) : Host.Outcome State Fault Refusal := .next (pageData m s)

end Sys2Proof.Machine
end

