-- ==== Sys2Proof/Machine/Frame.lean ====
section
/-!
DEFINITION. Frame starts (R163): invariants, the budget roll, recipe switches, admission, telemetry, the partner's FRAME, re-reads
(R125, R130, R169, R219, R238, R246, R248 to R250, R295, R321, R328, R368, R369, R454).
-/
namespace Sys2Proof.Machine
open Sys2Proof

/-! ### Invariants (R368, R369) -/

/-- Sum of a list. -/
def total (l : List Nat) : Nat := l.foldl (· + ·) 0

/-- ARRIVAL: landings ≡ counter values + thresholds taken, modulo 2³². -/
def arrivalOk (c : Nat) (s : State) : Bool :=
  let x := cell c s
  x.landed.toNat == (total ((List.range 32).map fun k => (arrival c k s).toNat) + x.taken.toNat) % 2 ^ 32

/-- Cells that listed cells or counters name. -/
def countedCells (s : State) : List Nat :=
  let xs : List Nat := s.cells.map fun p => p.1
  let ys : List Nat := s.counters.map fun p => p.1 / 32
  (xs ++ ys).eraseDups

/-- PAGES of one enabled pool. -/
def pagesOk (m : Nat) (s : State) : Bool :=
  !poolOn m s || (rd (F.POOL_FREE.VALUE m) s + heldBySeqs m s + heldByPfx m s == poolPages m s &&
    decide (rd (F.POOL_RESV.VALUE m) s ≤ rd (F.POOL_FREE.VALUE m) s))

/-- SLOTS: in use and free make 4,096. -/
def slotsOk (s : State) : Bool := s.kv.seqs.all fun p => decide (p.1 < 4096)

/-- LEDGER. -/
def ledgerOk (s : State) : Bool :=
  s.ledger.entries.length + s.ledger.returned + s.ledger.abandoned == s.ledger.launched

/-- OUTPUT of one ring: what is reserved and what is written and not consumed leave a count of free entries. -/
def outputOk (r : Nat) (s : State) : Bool :=
  !outLive r s || decide ((outRing r s).reserved + outUsed r s ≤ outSize r s)

/-- Tokens committed and not yet delivered, and their TOKENS entries. -/
def undeliveredTokens (s : State) : Nat × Nat :=
  let per := (List.range 8).map fun r =>
    let o := outRing r s
    (total (o.undelivered.map (·.tokens)) + total (o.held.map (·.tokens)) + total (o.waiting.map (·.tokens)),
      o.undelivered.length + o.held.length + (o.waiting.filter (·.tokens != 0)).length)
  (total (per.map fun p => p.1), total (per.map fun p => p.2))

/-- TOKENS (R235). -/
def tokensOk (s : State) : Bool :=
  let u := undeliveredTokens s
  let resv := total ((List.range 8).map fun r => (outRing r s).reserved)
  cnt F.TOK_GEN_CNT s == cnt F.TOK_DELIV_CNT s + u.1 && decide (u.1 ≤ 5 * (resv + u.2))

/-- REQUEST: tokens delivered and in flight of each request. -/
def requestsOk (s : State) : Bool := s.svc.reqs.all fun q => q.isPrefix || decide (q.generated ≤ q.maxNew)

/-- Codes of the invariants that this module checks by itself and finds violated, ascending. CREDIT is checked by AUDIT words (R370). -/
def violated (s : State) : List Nat :=
  (if (countedCells s).all fun c => arrivalOk c s then [] else [2]) ++
  (if (List.range 16).all fun m => pagesOk m s then [] else [3]) ++
  (if slotsOk s then [] else [4]) ++ (if ledgerOk s then [] else [5]) ++
  (if (List.range 8).all fun r => outputOk r s then [] else [6]) ++
  (if tokensOk s then [] else [7]) ++ (if requestsOk s then [] else [8]) ++
  (if s.cells.any fun p => p.2.cntOvf then [9] else [])

/-- The checks of the ending frame (R368, R369): the lowest code is DETAIL. (DEDUCED, unsafe: log entry 28.) -/
def checkInvariants (s : State) : State :=
  let s1 := match violated s with
    | [] => s
    | c :: _ => fatal 0x01 c s
  { s1 with cells := Table.mapVals (fun _ => Cell.reset) (fun _ x => { x with cntOvf := false }) s1.cells }

/-! ### The budget roll (R169) -/

/-- One used counter rolls: its total to LAST, the excess over its limit, capped at the limit, to the new frame; CARRY is set where what is
carried is not 0. (DESIGN CHOICE, unsafe: log entry 92.) -/
def rollOne (a k : Nat) (s : State) : State :=
  let u := rd (usedFld a k) s
  let p := Table.get (fun _ => 0) s.budget.part (a * 4 + k)
  let lim := limitOf a k s
  let past := lim != noLimit k && decide (lim ≤ u)
  let capped := decide (2 * lim ≤ u)
  let keep := if !past then 0 else if capped then lim else u - lim
  let part := if past && !capped then p else 0
  let s1 := wr (usedFld a k) keep (wr (lastFld a k) u s)
  let s2 := when (decide (0 < keep) || decide (0 < part)) (wr (bitFld O.BUDGET_HELD (8 + a)) 1) s1
  { s2 with budget := { s2.budget with
      part := Table.set (fun _ => 0) s2.budget.part (a * 4 + k) part
      limits := Table.set (fun j => noLimit (j % 4)) s2.budget.limits (a * 4 + k) (rd (limFld a k) s2) } }

/-- Key of a telemetry accumulator of an activity: 0 mJ charged, 1 frames held, 2 frames that began with CARRY, 3 mJ carried in. -/
def teleKey (a i : Nat) : Nat := 500 + a * 4 + i

/-- What telemetry keeps of the ending frame's budget (R249). -/
def noteFrame (a : Nat) (s : State) : State :=
  let add := fun i n t => setTeleBase (teleKey a i) (teleBase (teleKey a i) t + n) t
  s |> add 0 (rd (usedFld a 2) s - teleBase (teleKey a 3) s) |> add 1 (rd (bitFld O.BUDGET_HELD a) s)
    |> add 2 (rd (bitFld O.BUDGET_HELD (8 + a)) s)

/-- One activity rolls. A carried excess or a zero limit that reaches the new limit holds it again (R166, R170). -/
def rollActivity (a : Nat) (s : State) : State :=
  let s1 := wr (bitFld O.BUDGET_HELD (8 + a)) 0 (wr (bitFld O.BUDGET_HELD a) 0 (noteFrame a s))
  let s2 := forEach [0, 1, 2] (rollOne a) s1
  checkHeld a (setTeleBase (teleKey a 3) (rd (usedFld a 2) s2) s2)

/-- Messages of a stream that waited for a budget are applied. -/
def drainStream (st : Nat) (s : State) : State := drainAhead st s.pair.ahead.length s

/-- Loads and pass-on that waited on Weight-Load go on, at both ends (R167). -/
def resumePass (s : State) : State := drainStream 3 (flushPass (resumeLoads s))

/-- The budget roll; what waited on KV-Move, on Mirror and on Weight-Load goes on (R167, R320). (DEDUCED, unsafe: log entry 28.) -/
def rollBudgets (s : State) : State :=
  resumePass (drainStream 1 (flushMirror (flushPages (forEach (List.range 8) rollActivity s))))

/-! ### Service upkeep -/

/-- `MODEL_USE` over the last 64 complete frames (R238). -/
def rollUse (m : Nat) (s : State) : State :=
  if slotSt m s = 0 then s
  else
    let x := modelSlot m s
    let use := (x.useNow :: x.use).take 64
    wr (F.MODEL_USE.VALUE m) (satN 32 (total use)) (setModelSlot m { x with use := use, useNow := 0 } s)

/-- Each frame start after a LOAD_RECEIVE counts towards its WAIT (R246). -/
def ageReceive (m : Nat) (s : State) : State :=
  modModelSlot m (fun x => { x with recv := x.recv.map fun r => { r with idle := r.idle + 1 } }) s

/-- Read again the header of an enabled ring that could not be read (R290). (DEDUCED, unsafe: log entry 35.) -/
def retryHeader (k : Nat) (s : State) : State :=
  if (s.ocl.reads ++ s.ocl.readWait).any fun r => r.use == ringUse k && r.addr == ringBase k s then s else hostRead (ringBase k s) 1 false (ringUse k) s

/-- Every watched ring is re-read once a frame (R295); during a retrain the reads wait for its end (R277). -/
def rereadWatches (s : State) : State :=
  if oclServes s then forEach s.svc.unread retryHeader (forEach s.ocl.watches (fun w => hostRead w.addr 0 true w.use) s) else s

/-- Frames that OCL has been DOWN or its session closed (R284, R305). -/
def ageOcl (s : State) : State :=
  let down := linkSt 0 s == 6 || s.ocl.closed || (!linkActive 0 s && linkSt 0 s != 5 && s.link.downFrames != 0)
  modLink 0 (fun l => { l with downFrames := if down then l.downFrames + 1 else 0 }) s

/-- LATE entries of the ended frame no longer count (R221). -/
def clearLate (s : State) : State :=
  forEach (List.range 16) (fun m => modModelSlot m (fun x => { x with lateNow := false })) s

/-- Fault reports older than 64 frames are forgotten (R352). -/
def agePast (s : State) : State :=
  { s with faults := { s.faults with past := s.faults.past.filter fun p => decide (frameNo s < p.frame + 64) } }

/-! ### FRAME (R321) -/

/-- Data of a FRAME as the model packs them: frame and beat, timestamp (R164), pool counts, token counts, epoch, decisions. -/
def frameSlots (ds : List (Nat × Nat × Nat × Nat)) (s : State) : List Slot16 :=
  natSlot (frameNo s + 2 ^ 64 * beatNo s) :: natSlot (timestamp s) ::
    ((List.range 16).map fun m => natSlot (rd (F.POOL_FREE.VALUE m) s + 2 ^ 32 * rd (F.POOL_RESV.VALUE m) s)) ++
    [natSlot (cnt F.TOK_GEN_CNT s + 2 ^ 64 * cnt F.TOK_DELIV_CNT s), natSlot (rd F.PAIR_EPOCH.VALUE s)] ++
    (ds.map fun d => natSlot (d.1 + 2 ^ 64 * d.2.1 + 2 ^ 72 * d.2.2.1 + 2 ^ 80 * d.2.2.2))

/-- Decisions that one FRAME carries beside its other data (R313). -/
def decisionsPerFrame : Nat := 2000

/-- The primary's FRAME, in parts where the frame's decisions exceed a message (R313, R318). -/
def mirrorFrame (s : State) : State :=
  let ds := s.svc.decisions
  forEach (List.range (max 1 (cdiv ds.length decisionsPerFrame))) (fun i t =>
    mirrorMsg 0x02 0 (frameNo t) (frameSlots ((ds.drop (decisionsPerFrame * i)).take decisionsPerFrame) t) t) s

/-- A module in PAIR or SPLIT mode with a port ACTIVE sends FRAME; the primary's travels in the MIRROR stream. -/
def sendFrame (s : State) : State :=
  let s1 :=
    if pairMode s = 0 ∨ (activePorts s).isEmpty then s
    else if primary s then mirrorFrame s
    else sendSpan 0x02 0 (frameNo s) (frameSlots [] s) s
  { s1 with svc := { s1.svc with decisions := [] } }

/-! ### Telemetry (R248 to R250) -/

/-- Counters behind the counts of the payloads: key and value. Module 0 to 8; model m from 100 + 16 m; field f from 1000 + 4 f. -/
def teleCounts (s : State) : List (Nat × Nat) :=
  ([cnt F.HELD_SLOT_CNT s, slotNo s, cnt F.TOK_GEN_CNT s, cnt F.TOK_DELIV_CNT s, cnt F.ADM_ACCEPT_CNT s, cnt F.ADM_DEFER_CNT s,
    cnt F.ADM_REJECT_CNT s, cnt F.EVT_DROP_CNT s, cnt F.FLT_DATA_CNT s].zipIdx.map fun p => (p.2, p.1)) ++
  ((List.range 16).flatMap fun m =>
    ((List.range 7).map fun k => (100 + 16 * m + k, teleBase (teleCarry m k) s + (modelSlot m s).tele.getD k 0)) ++
    [(107 + 16 * m, total ((s.prec.layers.filter fun p => p.1 / 256 == m).map fun p => p.2.whey.toNat))]) ++
  ((List.range 72).flatMap fun f =>
    [(1000 + 4 * f, cnt (F.FLD_HOLD_CNT f) s), (1001 + 4 * f, cnt (F.MEM_CE_CNT f) s), (1002 + 4 * f, cnt (F.LINK_REPLAY_CNT f) s),
      (1003 + 4 * f, cnt (F.MEM_COLL_CNT f) s)])

/-- Increase of a counter since the last period written, or since reset where none has been, saturating at `w` bits. (DESIGN CHOICE, unsafe:
log entry 94.) -/
def teleRise (cs : List (Nat × Nat)) (k w : Nat) (s : State) : Nat :=
  satN w (((cs.find? (·.1 == k)).map (·.2)).getD 0 - teleBase k s)

/-- Bytes of fields given as (value, bytes), from the first on. -/
def packFields : List (Nat × Nat) → List Byte
  | [] => []
  | (v, n) :: fs => natToBytes n v ++ packFields fs

/-- A record: header and payload, 64 bytes. -/
def teleRecord (type index frame : Nat) (payload : List (Nat × Nat)) (s : State) : List Byte :=
  (packFields ([(type, 1), (0, 1), (index, 2), (frame, 4), (timestamp s, 8)] ++ payload) ++ List.replicate 48 0).take 64

/-- MODULE payload. -/
def modulePayload (cs : List (Nat × Nat)) (s : State) : List (Nat × Nat) :=
  [(rd F.PWR_IN.VALUE s, 2), (rd F.THR_MAX.T s, 2), (rd F.THR_MAX.FIELD s, 1), (gateMax s, 1), (rd F.LEDGER_USE.VALUE s, 2)] ++
  [(teleRise cs 0 32 s, 4), (teleRise cs 1 32 s, 4), (teleRise cs 2 32 s, 4), (teleRise cs 3 32 s, 4), (teleRise cs 4 16 s, 2),
    (teleRise cs 5 16 s, 2), (teleRise cs 6 16 s, 2), (teleRise cs 7 16 s, 2)] ++
  [(rd F.BEAT_STATE.MODE s, 1), (rd F.COOL_STATE.STATE s, 1), (rd F.COOL_STATE.FLOW s, 2), (rd F.COOL_TEMP.INLET s, 2),
    (rd F.COOL_TEMP.OUTLET s, 2), (teleRise cs 8 32 s, 4)]

/-- MODEL payload. -/
def modelPayload (cs : List (Nat × Nat)) (m : Nat) (s : State) : List (Nat × Nat) :=
  let b := 100 + 16 * m
  let inState := fun st => satN 16 (s.svc.reqs.filter fun q => q.model == m && q.state == st).length
  [(slotSt m s, 1), (activeRecipe m s, 1), ((s.prec.layers.filter fun p => p.1 / 256 == m && p.2.granted).length, 1), (0, 1)] ++
  ((List.range 6).map fun k => (teleRise cs (b + k) 32 s, 4)) ++
  [(rd (F.POOL_FREE.VALUE m) s, 4), (rd (F.POOL_RESV.VALUE m) s, 4), (teleRise cs (b + 7) 32 s, 4), (inState .decode, 2),
    (inState .prefill, 2), (teleRise cs (b + 6) 32 s, 4)]

/-- BUDGET payload. -/
def budgetPayload (a : Nat) (s : State) : List (Nat × Nat) :=
  [(rd (lastFld a 0) s, 4), (rd (lastFld a 1) s, 4), (rd (lastFld a 2) s, 4), (satN 32 (teleBase (teleKey a 0) s), 4),
    (satN 8 (teleBase (teleKey a 1) s), 1), (satN 8 (teleBase (teleKey a 2) s), 1)]

/-- Absent clusters of a field. -/
def absentClusters (f : Nat) (s : State) : Nat :=
  ((List.range 96).filter fun i => bitsOf (spareByte f (i / 4) (i % 4) s) 6 1 == 1).length

/-- FIELD payload. -/
def fieldPayload (cs : List (Nat × Nat)) (f : Nat) (s : State) : List (Nat × Nat) :=
  let b := 1000 + 4 * f
  let g := gateLevel f s
  [(rd (F.FLD_TEMP.T f) s, 2), (g.1, 1), (g.2, 1), (rd (F.FLD_VCL.A f) s, 2), (rd (F.FLD_VCL.MV f) s, 2)] ++
  ((List.range 4).map fun k => (teleRise cs (b + k) 32 s, 4)) ++
  [(rd (F.FLD_PWR_STATE.PHASES f) s, 1), (absentClusters f s, 1)]

/-- Records of a period, in order (R249). -/
def teleRecords (frame : Nat) (s : State) : List (List Byte) :=
  let cs := teleCounts s
  let kind := fun i => bitsOf (rd F.TELE_CFG.KINDS s) i 1 == 1
  (if kind 0 then [teleRecord 1 0 frame (modulePayload cs s) s] else []) ++
  (if kind 1 then ((List.range 16).filter fun m => slotSt m s != 0).map fun m => teleRecord 2 m frame (modelPayload cs m s) s else []) ++
  (if kind 2 then (List.range 8).map fun a => teleRecord 3 a frame (budgetPayload a s) s else []) ++
  (if kind 3 then (List.range 72).map fun f => teleRecord 4 f frame (fieldPayload cs f s) s else [])

/-- Cell from which a field's counts are sent: the middle of the field, where the model puts its collector.
(DEDUCED, unsafe: log entry 30.) -/
def collectorCell (f : Nat) : Nat := cellAt f 12 64

/-- The fields' counts reach the configuration agent, one flit a field, charged to Telemetry (R250). -/
def gatherFields (s : State) : State :=
  let h := total ((List.range 72).map fun f => hops (collectorCell f) agentCell)
  chargeEnergy 6 (energyHop 3) h (charge 6 0 h s)

/-- Write telemetry records. -/
def writeTele : List (List Byte) → State → State
  | [], s => s
  | r :: rs, s =>
    let a := entryAddr (ringBase 16 s) (ringLog 16 s) s.svc.telProd 64
    writeTele rs (sendWr a 1 r [] { s with svc := { s.svc with telProd := (s.svc.telProd + 1) % 2 ^ 32 } })

/-- Counters at the end of a period whose records were written become the base of the next. -/
def rebase (s : State) : State :=
  let s1 := forEach (teleCounts s) (fun p => setTeleBase p.1 p.2) s
  forEach (List.range 8) (fun a t => setTeleBase (teleKey a 2) 0 (setTeleBase (teleKey a 1) 0 (setTeleBase (teleKey a 0) 0 t))) s1

/-- A telemetry period ends (R249, R250): the fields' counts are gathered, unless Telemetry is held; then its records and PROD, or a skipped
period. -/
def endPeriod (frame : Nat) (s0 : State) : State :=
  let s1 := { s0 with svc := { s0.svc with telFrames := 0 } }
  let s := if held 6 s1 then s1 else gatherFields s1
  let rs := teleRecords frame s
  if held 6 s1 ∨ !oclUp s ∨ 2 ^ ringLog 16 s < ringUsed s.svc.telProd s.svc.telCons + rs.length then
    raise F.SVC_STS.TELE (bump F.TELE_SKIP_CNT s)
  else
    let s2 := writeTele rs s
    rebase (sendWrPart (ringBase 16 s2) (natToBytes 4 s2.svc.telProd) [] s2)

/-- Telemetry at a frame start. (DEDUCED, unsafe: log entry 30.) -/
def telemetry (frame : Nat) (s : State) : State :=
  if on F.TELE_CFG.ENABLE s ∧ !s.svc.unread.contains 16 then
    let n := s.svc.telFrames + 1
    let s1 := { s with svc := { s.svc with telFrames := n } }
    if max 1 (rd F.TELE_CFG.PERIOD s) ≤ n then endPeriod frame s1 else s1
  else s

/-! ### FRAME_START -/

/-- Refusals are counted afresh (R130, R131, R163). -/
def resetRefused (s : State) : State := wr F.PREC_FRAME.REFUSED 0 { s with prec := { s.prec with stormed := false } }

/-- A tune job ends when the module has stopped and its partner takes over (R269). -/
def tuneStopped (s : State) : State := when (s.faults.stopped && hasPartner s) tuneFailover s

/-- What a frame start performs (R163), in order. (DEDUCED, unsafe: log entry 28.) -/
def frameActs (frame : Nat) (s : State) : State :=
  s |> checkInvariants |> rollBudgets |> forEach (List.range 16) switchRecipe |> resetRefused |> admission |> clearLate
    |> forEach (List.range 16) rollUse |> forEach (List.range 16) ageReceive |> ageReleases |> ageOcl |> agePast |> tuneStopped
    |> telemetry frame |> watchPartner |> sendFrame |> rereadWatches

/-- FRAME_START (R163): the next frame whose first beat has begun starts. -/
def frameStart (t : Nat) (s0 : State) : State :=
  let s := atTime t s0
  if s.beat.frames * beatsPerFrame ≤ beatNo s then
    frameActs s.beat.frames { s with beat := { s.beat with frames := s.beat.frames + 1 } }
  else s

/-- FRAME_START. -/
def execFrameStart (t : Nat) (s : State) : Host.Outcome State Fault Refusal := .next (frameStart t s)

end Sys2Proof.Machine
end

