-- ==== Sys2Proof/Machine/SpanRows.lean ====
section
/-!
DEFINITION. The span messages as they arrive (R312 to R314, R319, R321, R323, R325, R333, R336, R337).
-/
namespace Sys2Proof.Machine
open Sys2Proof

/-! ### FAIL and FRAME -/

/-- A partner has stopped (R325, R317, R338). -/
def partnerFailed (arg : Nat) (s : State) : State :=
  let st := pairSt s
  if senior s then
    let s1 := pldm 0x25 arg (raise F.PAIR_STS.PARTNER_FAIL (setPairSt 0 s))
    if st = 5 then endSplit (leaveSplit s1) else leavePrimary (losePageReqs s1)
  else if st = 2 ∨ st = 4 then startTakeover (rd F.PAIR_EPOCH.VALUE s + 1) false s
  else if st = 5 then setPairSt 0 (leaveSplit s)
  else s

/-- FAIL (R325). (DEDUCED, unsafe: log entry 45.) -/
def failRow (port arg : Nat) (s : State) : State :=
  if port < 4 ∧ linkActive (port + 1) s ∧ pairMode s ≠ 0 then partnerFailed arg (setWatch none (takeInbox 0x01 s)) else s

/-- FAIL. -/
def execFail (port arg : Nat) (s : State) : Host.Outcome State Fault Refusal := .next (failRow port arg s)

/-- FRAME (R321, R328, R330): every FRAME shows that the partner lives and its epoch; the primary's acts in the MIRROR stream. -/
def frameRow (port : Nat) (d : FrameData) (s : State) : State :=
  if port < 4 ∧ linkActive (port + 1) s then
    let s1 := takeInbox 0x02 s
    let s2 := raiseEpoch d.epoch .none { s1 with pair := { s1.pair with silent := 0 } }
    if d.mirror ∧ pairMode s ≠ 0 then receiveSpan 1 d.psn (.frame d) s2 else s2
  else s

/-- FRAME. -/
def execFrame (port : Nat) (d : FrameData) (s : State) : Host.Outcome State Fault Refusal := .next (frameRow port d s)

/-! ### ACK -/

/-- Forget sent messages of a stream up to a PSN (R314). -/
def forgetSent (st psn : Nat) (s : State) : State :=
  { s with pair := { s.pair with
      outstanding := s.pair.outstanding.filter fun x => !(x.2.1 == st && atOrBefore x.2.2.psn psn) } }

/-- A commit group is acknowledged: the step's TOKENS entries wait no more (R319). -/
def groupAcked (p : Nat × Nat) (s : State) : State :=
  bump F.MIRROR_GROUP_CNT (modLedger p.2 (fun e => if e.group = some p.1 then { e with awaitsAck := false } else e) s)

/-- ACK of the MIRROR stream (R319, R320). -/
def ackMirror (psn : Nat) (s : State) : State :=
  let done := s.pair.lag.filter fun p => atOrBefore p.1 psn
  let s1 := { s with pair := { s.pair with
    lag := s.pair.lag.filter fun p => !atOrBefore p.1 psn
    tokensIn := s.pair.tokensIn.filter fun p => !atOrBefore p.1 psn } }
  let s2 := flushRings (forEach done groupAcked s1)
  forEach done (fun p => settleLedger p.2) s2

/-- ACK (R312, R319); a mirror that has returned to SYNCING asks by it for the whole state (R324). (DESIGN CHOICE, unsafe: log entry 98.) -/
def ackRow (arg : Nat) (s : State) : State :=
  let psn := bitsOf arg 0 32
  if (activePorts s).isEmpty then s
  else
    let s1 := takeInbox 0x03 s
    if bitsOf arg 32 1 = 1 then forgetSent 2 psn s1
    else
      let s2 := ackMirror psn (forgetSent 1 psn s1)
      when (bitsOf arg 33 1 == 1 && primary s2 && !s2.pair.syncing) syncAll s2

/-- ACK. -/
def execAck (arg : Nat) (s : State) : Host.Outcome State Fault Refusal := .next (ackRow arg s)

/-! ### Stream messages -/

/-- A message of a stream arrives on an ACTIVE port. -/
def streamRow (st op psn : Nat) (x : SpanIn) (s : State) : State :=
  if (activePorts s).isEmpty then s else receiveSpan st psn x (takeInbox op s)

/-- CMD (R318). -/
def execCmd (m : SpanMsg) (s : State) : Host.Outcome State Fault Refusal :=
  .next (streamRow 1 0x10 m.psn (.msg { m with op := 0x10 }) s)

/-- TOKENS_IN (R318). -/
def execTokensIn (m : SpanMsg) (s : State) : Host.Outcome State Fault Refusal :=
  .next (streamRow 1 0x11 m.psn (.msg { m with op := 0x11 }) s)

/-- KV (R318). -/
def execKv (m : SpanMsg) (s : State) : Host.Outcome State Fault Refusal :=
  .next (streamRow 1 0x12 m.psn (.msg { m with op := 0x12 }) s)

/-- SEQSTATE (R318). -/
def execSeqstate (m : SpanMsg) (s : State) : Host.Outcome State Fault Refusal :=
  .next (streamRow 1 0x13 m.psn (.msg { m with op := 0x13 }) s)

/-- COMMIT (R318, R319). -/
def execCommit (d : CommitData) (s : State) : Host.Outcome State Fault Refusal := .next (streamRow 1 0x14 d.psn (.commit d) s)

/-- PREFIX (R318). -/
def execPfx (d : PfxChange) (s : State) : Host.Outcome State Fault Refusal := .next (streamRow 1 0x15 d.psn (.pfx d) s)

/-- PASS (R333): in every MODE but NONE and any state. -/
def execPass (m : SpanMsg) (s : State) : Host.Outcome State Fault Refusal :=
  .next (if pairMode s = 0 then s else streamRow 3 0x20 m.psn (.msg { m with op := 0x20 }) s)

/-- XING (R336). -/
def execXing (m : SpanMsg) (s : State) : Host.Outcome State Fault Refusal :=
  .next (if pairSt s = 5 then streamRow 2 0x30 m.psn (.msg { m with op := 0x30 }) s else s)

/-- RESULT (R337), at the front. -/
def execResult (d : SplitResult) (s : State) : Host.Outcome State Fault Refusal :=
  .next (if pairSt s = 5 ∧ senior s then streamRow 2 0x31 d.psn (.result d) s else s)

/-- SCOMMIT (R337), at the back: it commits its staged KV and acknowledges. -/
def execScommit (model launch psn : Nat) (s : State) : Host.Outcome State Fault Refusal :=
  .next (if pairSt s = 5 ∧ !senior s then streamRow 2 0x32 psn (.scommit model launch) s else s)

/-! ### PASS_RSP -/

/-- PASS_RSP (R333): one part is answered; the last answer ends LOAD_WEIGHTS. -/
def passRsp (m : SpanMsg) (s : State) : State :=
  match s.pair.passSent with
  | [] => s
  | k :: ks =>
    let s1 := takeInbox 0x21 s
    let sent := s1.pair.outstanding
    let s2 := { s1 with pair := { s1.pair with
      passSent := ks
      passDrop := if m.arg = 0 then s1.pair.passDrop else k :: s1.pair.passDrop
      outstanding := match sent.find? fun x => x.2.1 == 3 with
        | some x => sent.erase x
        | none => sent } }
    if passOpen k s2 ∨ loadReading m.model s2 then s2 else endLoading m.model (if s2.pair.passDrop.contains k then 0x0D else 0) s2

/-- PASS_RSP. -/
def execPassRsp (m : SpanMsg) (s : State) : Host.Outcome State Fault Refusal := .next (passRsp m s)

/-! ### Credits and split launches -/

/-- SPAN_CREDIT (R287, R313). -/
def spanCredit (port slots : Nat) (init : Bool) (s : State) : State :=
  if port < 4 then
    pump (port + 1) (modLink (port + 1) (fun l => { l with creditReq := if init then slots else l.creditReq + slots }) (takeInbox 0x3F s))
  else s

/-- SPAN_CREDIT. -/
def execSpanCredit (port slots : Nat) (init : Bool) (s : State) : Host.Outcome State Fault Refusal := .next (spanCredit port slots init s)

/-- Hops of every crossing that a step of the back takes in. -/
def stepHops (m : Nat) (s : State) : Nat :=
  (((image m s).crossings.filter fun r => crossDir r == 0).map fun r => crossHops (crossLen r) r s).sum

/-- SPLIT_LAUNCH (R336): every front-to-back crossing of a step has landed; the back's next launch slot takes it, with the activity of
its front launch, which is charged for the crossings. `launch` and `seqs` are what the crossings tell of the step. (DEDUCED, unsafe: log
entry 45.) -/
def splitLaunch (m entry launch : Nat) (seqs : List (Request × StepSeq)) (s : State) : State :=
  let n := crossTotal m 0 s
  if m < 16 ∧ splitBack m s ∧ pairSt s = 5 ∧ 0 < n ∧ n ≤ crossed m 0 s ∧ (entry = 1 ∨ entry = 2) then
    let s1 := chargeCross (activityOf entry) (stepHops m s) (setCrossed m 0 (crossed m 0 s - n) s)
    { s1 with pair := { s1.pair with backReady := s1.pair.backReady ++
        [{ index := 0, model := m, launch := launch, entry := entry, seqs := seqs, result := false, commits := false }] } }
  else s

/-- SPLIT_LAUNCH. -/
def execSplitLaunch (m : Nat) (b : BackLaunch) (s : State) : Host.Outcome State Fault Refusal :=
  .next (splitLaunch m b.entry b.launch b.seqs s)

end Sys2Proof.Machine
end

