-- ==== Sys2Proof/Machine/LinkRows.lean ====
section
/-!
DEFINITION. The flit layer and the training of OCL and of the span ports (R275 to R284, R307 to R314).
-/
namespace Sys2Proof.Machine
open Sys2Proof

/-! ### Registers of a link: 0 OCL, 1 to 4 span ports 0 to 3 -/

/-- DEGRADED. -/
def degradedFld (i : Nat) : Fld := if i = 0 then F.OCL_STS.DEGRADED else F.SPAN_STS.DEGRADED (i - 1)

/-- RETRAIN. -/
def retrainFld (i : Nat) : Fld := if i = 0 then F.OCL_STS.RETRAIN else F.SPAN_STS.RETRAIN (i - 1)

/-- DOWN. -/
def downFld (i : Nat) : Fld := if i = 0 then F.OCL_STS.DOWN else F.SPAN_STS.DOWN (i - 1)

/-- PROTO. -/
def protoFld (i : Nat) : Fld := if i = 0 then F.OCL_STS.PROTO else F.SPAN_STS.PROTO (i - 1)

/-- Flits corrected by FEC. -/
def fecCnt (i : Nat) : Nat := if i = 0 then F.OCL_FEC_CNT else F.SPAN_FEC_CNT (i - 1)

/-- Bad flits. -/
def crcCnt (i : Nat) : Nat := if i = 0 then F.OCL_CRC_CNT else F.SPAN_CRC_CNT (i - 1)

/-- Replays. -/
def replayCnt (i : Nat) : Nat := if i = 0 then F.OCL_REPLAY_CNT else F.SPAN_REPLAY_CNT (i - 1)

/-- Retrains. -/
def retrainCnt (i : Nat) : Nat := if i = 0 then F.OCL_RETRAIN_CNT else F.SPAN_RETRAIN_CNT (i - 1)

/-- Messages discarded. -/
def protoCnt (i : Nat) : Nat := if i = 0 then F.OCL_PROTO_CNT else F.SPAN_PROTO_CNT (i - 1)

/-- A message is discarded (R287, R291, R312). -/
def discardMsg (i : Nat) (s : State) : State := raise (protoFld i) (bump (protoCnt i) s)

/-- PORTS and DEGRADED follow the ports (R314, R340). -/
def showPorts (s : State) : State :=
  let ps := activePorts s
  let s1 := wr F.PAIR_STATE.PORTS ((ps.map fun k => 2 ^ k).foldl (· + ·) 0) s
  when (decide (0 < ps.length) && decide (ps.length < 4)) (raise F.PAIR_STS.DEGRADED) s1

/-- A link takes a state (R277). -/
def setLinkSt (i n : Nat) (s : State) : State :=
  let s1 := wr (linkStateFld i) n s
  if i = 0 then s1 else showPorts s1

/-! ### Going DOWN and coming up -/

/-- A waiting span message as it was handed over. -/
def outSpan (m : OutMsg) : SpanMsg :=
  { op := outOp m, model := fieldOf m.hdr 8 4, psn := fieldOf m.hdr 32 32, arg := fieldOf m.hdr 64 64, data := m.data }

/-- Messages of a span port that goes DOWN are sent on another (R314): those of the streams with their PSN, the others as they stand. -/
def moveSpan (k : Nat) (s : State) : State :=
  let prim := primary s
  let mine := s.pair.outstanding.filter fun x => x.1 == k
  let plain := ((linkOf (k + 1) s).waiting.map outSpan).filter fun m => m.op != 0x3F && streamOf m.op prim == 0
  let s1 := modLink (k + 1) (fun l => { l with waiting := [], replay := [], partSlots := [], txSeq := 0, rxSeq := 0, gotAny := false }) s
  let s2 := { s1 with pair := { s1.pair with outstanding := s1.pair.outstanding.filter fun x => x.1 != k } }
  let s3 := forEach mine (fun x => putSpan x.2.2 x.2.1) s2
  forEach plain (fun m t => putSpan m 0 t) s3

/-- A link goes DOWN (R284, R307). (DEDUCED, unsafe: log entry 37.) -/
def goDown (i t : Nat) (s : State) : State :=
  let s1 := setLinkSt i 6 (modLink i (fun l => { l with downAt := t, retrainFails := 0, retrains := [], ackTimeouts := 0, nakked := false }) s)
  let s2 := raise (downFld i) s1
  if i = 0 then pldm 0x24 0 s2 else moveSpan (i - 1) s2

/-- Stream messages that no port could take go out on the first one that comes up (R314). -/
def resendSpan (k : Nat) (s : State) : State :=
  let lost := s.pair.outstanding.filter (·.1 == noPort)
  let s1 := { s with pair := { s.pair with outstanding := s.pair.outstanding.filter (·.1 != noPort) } }
  forEach lost (fun x t => sendOnPort k x.2.2 { t with pair := { t.pair with outstanding := t.pair.outstanding ++ [(k, x.2.1, x.2.2)] } }) s1

/-- Traffic flows again on a link that has become ACTIVE. -/
def resume (i : Nat) (s : State) : State :=
  if i = 0 then flushEvents (flushRings (pump 0 s)) else flushMirror (pump i s)

/-! ### Training (R276, R277, R307) -/

/-- A link's number is one of the five. -/
def linkOk (i : Nat) : Bool := decide (i ≤ 4)

/-- PRESENCE_DETECT (R277): presence on at least 8 lanes. (DEDUCED, unsafe: log entry 61.) -/
def presenceDetect (i lanes : Nat) (s : State) : State :=
  if linkOk i ∧ linkSt i s = 0 ∧ 8 ≤ lanes ∧ !s.mgmt.inReset ∧ !s.power.off then setLinkSt i 1 s else s

/-- PRESENCE_DETECT. -/
def execPresenceDetect (i lanes : Nat) (s : State) : Host.Outcome State Fault Refusal := .next (presenceDetect i lanes s)

/-- EQUALISATION_END (R277): `failed` is the set of failed lanes, bit n for lane n. -/
def equalisationEnd (i failed : Nat) (s : State) : State :=
  if linkOk i ∧ linkSt i s = 1 then setLinkSt i 2 (modLink i (fun l => { l with laneFail := failed }) s) else s

/-- EQUALISATION_END. -/
def execEqualisationEnd (i failed : Nat) (s : State) : Host.Outcome State Fault Refusal := .next (equalisationEnd i failed s)

/-- The first run of `n` lanes among `k` runs that holds no failed lane. -/
def cleanRun (failed n k : Nat) : Option Nat := (List.range k).find? fun p => bitsOf failed (p * n) n == 0

/-- Width code and lanes in use, in units of the width (R276, R307); none where no width is left. -/
def chooseWidth (i failed : Nat) : Option (Nat × Nat) :=
  let full := if i = 0 then 32 else 64
  match cleanRun failed full 1, cleanRun failed (full / 2) 2, cleanRun failed (full / 4) 4 with
  | some p, _, _ => some (0, p)
  | _, some p, _ => some (1, p)
  | _, _, some p => some (2, p)
  | _, _, _ => none

/-- What this end sends in PARAMS (R277, R281, R287, R309, R313). -/
def ownParams (i : Nat) (s : State) : Params :=
  { version := 1, replay := 1024, req := if i = 0 then 256 else 4096, post := if i = 0 then 2048 else 0, port := i - 1,
    serial := s.fuses.serial, senior := on F.PAIR_STATE.SENIOR s, epoch := rd F.PAIR_EPOCH.VALUE s,
    strap := on F.PIN_STATE.SENIOR_STRAP s }

/-- PARAMS begins: this end sends its parameters, and its credits in a CREDIT message with INIT (R277, R287, R313). -/
def offerParams (i : Nat) (s : State) : State :=
  let s1 := modLink i (fun l => { l with own := some (ownParams i s), peer := none }) s
  if i = 0 then sendCredit 256 2048 true s1
  else sendOnPort (i - 1) { op := 0x3F, model := 0, psn := 0, arg := 4096 + 2 ^ 16, data := [] } s1

/-- The links of an ISOLATED module return (R317): a span port exchanges PARAMS again. -/
def relink (i : Nat) (s : State) : State :=
  if i ≠ 0 ∧ pairMode s ≠ 0 ∧ pairSt s = 6 then setPairSt 1 { s with pair := { s.pair with watch := some s.now } } else s

/-- ALIGNMENT (R276, R277, R317): the width is chosen; with none left the link is DOWN. -/
def alignment (i : Nat) (reversed : Bool) (s : State) : State :=
  if linkOk i ∧ linkSt i s = 2 then
    match chooseWidth i (linkOf i s).laneFail with
    | none => goDown i s.now s
    | some (w, p) =>
      let n := linkLanes i / 2 ^ w
      let l0 := fun (l : LinkState) => seedLanes i { l with lane0 := p * n, laneN := n, laneRev := reversed }
      let s1 := relink i (offerParams i (when (w != 0) (raise (degradedFld i)) (setLinkSt i 3 (modLink i l0 s))))
      if i = 0 then wrB F.OCL_STATE.REVERSED reversed (wr F.OCL_STATE.PART p (wr F.OCL_STATE.WIDTH w s1))
      else wr (F.SPAN_STATE.WIDTH (i - 1)) w s1
  else s

/-- ALIGNMENT. -/
def execAlignment (i : Nat) (reversed : Bool) (s : State) : Host.Outcome State Fault Refusal := .next (alignment i reversed s)

/-- PARAMS is refused (R277, R287, R313). -/
def paramsRefused (i : Nat) (p : Params) : Bool :=
  p.version != 1 || (if i = 0 then decide (p.req < 128) || decide (p.post < 1024) else decide (p.req < 4096))

/-- A cable is wrong (R309): port numbers differ, or the serial learned on another ACTIVE port. -/
def miscabled (k : Nat) (p : Params) (s : State) : Bool :=
  p.port != k || (activePorts s).any fun j => Table.get (fun _ => 0) s.pair.serials j != p.serial

/-- A link becomes ACTIVE with the credits the peer offered. (DEDUCED, unsafe: log entry 37.) -/
def becomeActive (i : Nat) (p : Params) (s : State) : State :=
  setLinkSt i 4 (modLink i (fun l => { l with
    peer := some p, creditReq := p.req, creditPost := p.post, owedReq := 0, owedPost := 0, downFrames := 0, retrainFails := 0 }) s)

/-- PARAMS (R277, R309, R332). -/
def paramsRow (i : Nat) (p : Params) (t : Nat) (s0 : State) : State :=
  let s := atTime t s0
  if !linkOk i || linkSt i s != 3 then s
  else if paramsRefused i p then goDown i t s
  else if i = 0 then resume 0 (becomeActive 0 p s)
  else
    let k := i - 1
    if miscabled k p s then goDown i t (raise F.PAIR_STS.CABLE s)
    else
      let s1 := becomeActive i p { s with pair := { s.pair with serials := Table.set (fun _ => 0) s.pair.serials k p.serial } }
      resume i (meetPartner p (resendSpan k s1))

/-- PARAMS. -/
def execParams (i : Nat) (p : Params) (t : Nat) (s : State) : Host.Outcome State Fault Refusal := .next (paramsRow i p t s)

/-- Flits flow: the link is ACTIVE, or in PARAMS, where the credits are exchanged (R277, R287). -/
def flitsFlow (i : Nat) (s : State) : Bool := linkOk i && (linkActive i s || linkSt i s == 3)

/-! ### Retrain and DOWN (R283, R284) -/

/-- Enter RETRAIN (R283): counted and signalled; sequence numbers, buffers and credits stay. -/
def enterRetrain (i t : Nat) (s : State) : State :=
  let recent := fun (l : List Nat) => (l.filter fun x => decide (t < x + 1000000 * cyPerUs)) ++ [t]
  let s1 := modLink i (fun l => { l with
    retrains := recent l.retrains, replayedN := 0, ackTimeouts := 0, replay := l.replay.map fun f => { f with replays := 0 } }) s
  raise (retrainFld i) (bump (retrainCnt i) (setLinkSt i 5 (sendCtl i 3 s1)))

/-- RETRAIN_COMPLETE (R277, R283, R284): after a failure the link retrains again, unless three in a row have failed. A link that retrained
before PARAMS had completed goes on with PARAMS. -/
def retrainComplete (i : Nat) (ok : Bool) (t : Nat) (s0 : State) : State :=
  let s := atTime t s0
  if !linkOk i || linkSt i s != 5 then s
  else if ok then
    resume i (setLinkSt i (if (linkOf i s).peer.isSome then 4 else 3) (modLink i (fun l => seedLanes i { l with retrainFails := 0 }) s))
  else
    let s1 := modLink i (fun l => { l with retrainFails := l.retrainFails + 1 }) s
    if 3 ≤ (linkOf i s1).retrainFails then s1 else enterRetrain i t s1

/-- RETRAIN_COMPLETE. -/
def execRetrainComplete (i : Nat) (ok : Bool) (t : Nat) (s : State) : Host.Outcome State Fault Refusal :=
  .next (retrainComplete i ok t s)

/-- A link has a cause to go DOWN (R284): three failed retrains in a row, or more than 16 retrains within 1 s. -/
def downCause (i t : Nat) (s : State) : Bool :=
  let l := linkOf i s
  decide (3 ≤ l.retrainFails) || decide (16 < (l.retrains.filter fun x => decide (t < x + 1000000 * cyPerUs)).length)

/-- LINK_DOWN (R284). -/
def linkDown (i t : Nat) (s0 : State) : State :=
  let s := atTime t s0
  if linkOk i ∧ (linkSt i s = 4 ∨ linkSt i s = 5) ∧ downCause i t s then goDown i t s else s

/-- LINK_DOWN. -/
def execLinkDown (i t : Nat) (s : State) : Host.Outcome State Fault Refusal := .next (linkDown i t s)

/-- LINK_RETRY (R277): 100 ms after it went DOWN a link trains again from DETECT. -/
def linkRetry (i t : Nat) (s0 : State) : State :=
  let s := atTime t s0
  if linkOk i ∧ linkSt i s = 6 ∧ (linkOf i s).downAt + 100000 * cyPerUs ≤ t then setLinkSt i 0 s else s

/-- LINK_RETRY. -/
def execLinkRetry (i t : Nat) (s : State) : Host.Outcome State Fault Refusal := .next (linkRetry i t s)

/-- OCL_CTRL_RETRAIN (R283): the host writes `OCL_CTRL.RETRAIN`. -/
def oclCtrlRetrain (t : Nat) (s0 : State) : State :=
  let s := atTime t s0
  if linkActive 0 s then enterRetrain 0 t s else s

/-- OCL_CTRL_RETRAIN. -/
def execOclCtrlRetrain (t : Nat) (s : State) : Host.Outcome State Fault Refusal := .next (oclCtrlRetrain t s)

/-! ### Acknowledgement and replay (R281, R282) -/

/-- Sent flits up to the acknowledged one, and the rest. -/
def splitAck (ack : Nat) (l : List SentFlit) : List SentFlit × List SentFlit :=
  match l.findIdx? (·.seq == ack) with
  | some i => (l.take (i + 1), l.drop (i + 1))
  | none => ([], l)

/-- A span port has nothing unacknowledged: what it sent has arrived (R314). -/
def portClear (i : Nat) (s : State) : State :=
  let l := linkOf i s
  if i ≠ 0 ∧ l.replay.isEmpty ∧ l.waiting.isEmpty then
    { s with pair := { s.pair with outstanding := s.pair.outstanding.filter fun x => x.1 + 1 != i } }
  else s

/-- Take an ACK: acknowledged flits leave the replay buffer, and what they complete is done (R281, R296). -/
def takeAck (i : Nat) (f : RxFlit) (s : State) : State :=
  let p := splitAck f.ack (linkOf i s).replay
  if !f.ackV || p.1.isEmpty then s
  else
    let s1 := modLink i (fun l => { l with replay := p.2, ackTimeouts := 0 }) s
    portClear i (pump i (forEach (p.1.flatMap (·.marks)) deliver s1))

/-- Replay from the oldest unacknowledged flit, in order (R281, R283): the eighth replay of one SEQ brings a retrain. -/
def replayFlits (i t : Nat) (s : State) : State :=
  match (linkOf i s).replay with
  | [] => s
  | f :: _ =>
    let l := linkOf i s
    let n := if l.replayedN ≠ 0 ∧ l.replayedSeq = f.seq then l.replayedN + 1 else 1
    let again := l.replay.map fun x => { x with replays := x.replays + 1 }
    let s1 := bump (replayCnt i) (setLink i { l with replayedSeq := f.seq, replayedN := n, replay := again } s)
    let s2 := forEach (again.map (·.raw)) (emit i) s1
    if again.any fun x => decide (8 ≤ x.replays) then enterRetrain i t s2 else s2

/-- ACK_TIMEOUT (R282, R283): no ACK has advanced for 10 µs. -/
def ackTimeout (i t : Nat) (s0 : State) : State :=
  let s := atTime t s0
  if flitsFlow i s ∧ !(linkOf i s).replay.isEmpty then
    let s1 := replayFlits i t (modLink i (fun l => { l with ackTimeouts := l.ackTimeouts + 1 }) s)
    if 4 ≤ (linkOf i s1).ackTimeouts ∧ flitsFlow i s1 then enterRetrain i t s1 else s1
  else s

/-- ACK_TIMEOUT. -/
def execAckTimeout (i t : Nat) (s : State) : Host.Outcome State Fault Refusal := .next (ackTimeout i t s)

/-- A NAK flit is sent: its ACK names the last flit delivered (R281). -/
def putNak (i : Nat) (s : State) : State := sendCtl i 2 (modLink i (fun l => { l with nakked := true, naks := l.naks + 1 }) s)

/-- A NAK is due: it is sent once until the expected SEQ arrives (R281). -/
def sendNak (i : Nat) (s : State) : State := if (linkOf i s).nakked then s else putNak i s

/-- NAK_RESEND (R281): the expected SEQ has not arrived 2 µs after the NAK. -/
def nakResend (i : Nat) (s : State) : State :=
  if flitsFlow i s ∧ (linkOf i s).nakked then putNak i s else s

/-- NAK_RESEND. -/
def execNakResend (i : Nat) (s : State) : Host.Outcome State Fault Refusal := .next (nakResend i s)

/-! ### Messages out of slots (R285, R286, R311) -/

/-- OP of a header slot. -/
def slotOp (h : Slot16) : Nat := fieldOf h 0 8

/-- Data slots that follow a header. -/
def dataSlots (i : Nat) (h : Slot16) : Nat :=
  if i ≠ 0 then fieldOf h 16 16
  else
    let enc := fieldOf h 24 1
    enc + match slotOp h with
      | 0x11 => 1
      | 0x20 => 4 * (fieldOf h 18 3 + 1)
      | _ => 0

/-- An OCL message from its slots. -/
def oclMsg (h : Slot16) (data : List Slot16) : Msg :=
  { hdr := h, op := slotOp h, tag := fieldOf h 8 10, lenm1 := fieldOf h 18 3, status := fieldOf h 21 3, flags := fieldOf h 24 8,
    addr := fieldOf h 32 64, first := fieldOf h 96 8, count := fieldOf h 104 8, vector := fieldOf h 112 16, data := data }

/-- Class of a companion's message: 0 REQ, 1 POST, 2 neither; none for a message it may not send (R286, R291). -/
def oclClass (op : Nat) : Option Nat :=
  if op = 0x10 ∨ op = 0x12 then some 0 else if op = 0x11 then some 1 else if op = 0x20 ∨ op = 0x30 then some 2 else none

/-- Credits left beyond what is owed: 256 REQ and 2,048 POST are advertised (R287). -/
def inCredit (m : Msg) (s : State) : Bool :=
  let n := 1 + m.data.length
  match oclClass m.op with
  | some 0 => decide (s.link.owedReq + n ≤ 256)
  | some 1 => decide (s.link.owedPost + n ≤ 2048)
  | _ => true

/-- A received message is malformed (R291): STATUS, size or alignment. -/
def oclBad (m : Msg) : Bool :=
  decide (2 < m.status) || ((m.op == 0x12) && m.addr % 64 != 0) || ((m.op == 0x10 || m.op == 0x11) && decide (1 < m.lenm1))

/-- Take an OCL message from the flit layer (R287, R288, R291): it waits in the inbox to be performed.
(DESIGN CHOICE, safe: log entry 39.) -/
def takeOcl (m : Msg) (s : State) : State :=
  match oclClass m.op with
  | none => discardMsg 0 s
  | some c =>
    if !inCredit m s then discardMsg 0 s
    else if oclBad m then
      let n := 1 + m.data.length
      let s0 := if (m.op = 0x10 ∨ m.op = 0x11) ∧ 1 < m.lenm1 then raiseBoth F.OCL_STS.PROTO F.OCL_STS.UR (bump F.OCL_PROTO_CNT s) else discardMsg 0 s
      let s1 := if c = 2 then s0 else sendCredit (if c = 0 then n else 0) (if c = 1 then n else 0) false s0
      if m.op = 0x10 then sendCpl m.tag 1 0 false s1 else s1
    else
      let n := 1 + m.data.length
      let s1 := modLink 0 (fun l => { l with
        owedReq := if c = 0 then l.owedReq + n else l.owedReq, owedPost := if c = 1 then l.owedPost + n else l.owedPost }) s
      { s1 with ocl := { s1.ocl with inbox := s1.ocl.inbox ++ [m] } }

/-- A message of R312 has this OP. -/
def spanOpOk (op : Nat) : Bool :=
  [0x01, 0x02, 0x03, 0x10, 0x11, 0x12, 0x13, 0x14, 0x15, 0x16, 0x17, 0x20, 0x21, 0x30, 0x31, 0x32, 0x3F].contains op

/-- Take a span message from the flit layer (R312, R313): its slots are free again when it stands in the inbox. -/
def takeSpan (k : Nat) (h : Slot16) (data : List Slot16) (s : State) : State :=
  let m : SpanMsg := { op := slotOp h, model := fieldOf h 8 4, psn := fieldOf h 32 32, arg := fieldOf h 64 64, data := data }
  if !spanOpOk m.op ∨ 2047 < data.length then discardMsg (k + 1) s
  else
    let s1 := { s with pair := { s.pair with inbox := s.pair.inbox ++ [m] } }
    if m.op = 0x3F then s1
    else sendOnPort k { op := 0x3F, model := 0, psn := 0, arg := 1 + data.length, data := [] } s1

/-- Messages out of a run of slots; what is left of a message not yet whole stays. `n` bounds the slots. -/
def parseSlots (i : Nat) : Nat → List Slot16 → State → List Slot16 × State
  | 0, l, s => (l, s)
  | _, [], s => ([], s)
  | n + 1, h :: rest, s =>
    if slotOp h = 0 then parseSlots i n rest s
    else
      let k := dataSlots i h
      if rest.length < k then (h :: rest, s)
      else
        let s1 := if i = 0 then takeOcl (oclMsg h (rest.take k)) s else takeSpan (i - 1) h (rest.take k) s
        parseSlots i n (rest.drop k) s1

/-- Deliver a flit's slots. -/
def deliverSlots (i : Nat) (slots : List Slot16) (s : State) : State :=
  let l := (linkOf i s).partSlots ++ slots
  let p := parseSlots i l.length l s
  modLink i (fun x => { x with partSlots := p.1 }) p.2

/-! ### Flits -/

/-- What every received flit does (R279 to R281): corrections and bad flits counted, ACK taken. -/
def countFlit (i : Nat) (f : RxFlit) (s : State) : State :=
  let s1 := when f.corrected (bump (fecCnt i)) s
  if f.bad then bump (crcCnt i) s1 else takeAck i f s1

/-- A PAYLOAD flit with the expected SEQ is delivered and acknowledged (R281): where no flit that goes out with the delivery carries the
ACK, an IDLE flit does. -/
def deliverFlit (i : Nat) (f : RxFlit) (s : State) : State :=
  let s1 := deliverSlots i f.slots (modLink i (fun l => { l with
    rxSeq := (l.rxSeq + 1) % 4096, gotAny := true, nakked := false, unacked := l.unacked + 1 }) s)
  if (linkOf i s1).unacked = 0 then s1 else sendCtl i 1 s1

/-- PAYLOAD_FLIT (R281): the expected SEQ is delivered, an earlier one discarded, a bad or a later one answered by NAK. -/
def payloadFlit (i : Nat) (raw : BitVec 2048) (t : Nat) (s0 : State) : State :=
  let s := atTime t s0
  if !flitsFlow i s then s
  else
    let p := takeOff i raw s
    let f := p.1
    let s1 := countFlit i f p.2
    let want := (linkOf i s1).rxSeq
    if f.bad then sendNak i s1
    else if f.type ≠ 0 then s1
    else if f.seq = want then deliverFlit i f s1
    else if (want + 4096 - f.seq) % 4096 < 2048 then s1
    else sendNak i s1

/-- PAYLOAD_FLIT. -/
def execPayloadFlit (i : Nat) (raw : BitVec 2048) (t : Nat) (s : State) : Host.Outcome State Fault Refusal :=
  .next (payloadFlit i raw t s)

/-- IDLE_FLIT (R278, R281): it carries only an ACK; a bad flit is answered by NAK. -/
def idleFlit (i : Nat) (raw : BitVec 2048) (t : Nat) (s0 : State) : State :=
  let s := atTime t s0
  if !flitsFlow i s then s
  else
    let p := takeOff i raw s
    let s1 := countFlit i p.1 p.2
    if p.1.bad then sendNak i s1 else s1

/-- IDLE_FLIT. -/
def execIdleFlit (i : Nat) (raw : BitVec 2048) (t : Nat) (s : State) : Host.Outcome State Fault Refusal := .next (idleFlit i raw t s)

/-- NAK_FLIT (R281): the sender replays from the flit after ACK. -/
def nakFlit (i : Nat) (raw : BitVec 2048) (t : Nat) (s0 : State) : State :=
  let s := atTime t s0
  if !flitsFlow i s then s
  else
    let p := takeOff i raw s
    let s1 := countFlit i p.1 p.2
    if p.1.bad then sendNak i s1 else if p.1.type ≠ 2 then s1 else replayFlits i t s1

/-- NAK_FLIT. -/
def execNakFlit (i : Nat) (raw : BitVec 2048) (t : Nat) (s : State) : Host.Outcome State Fault Refusal := .next (nakFlit i raw t s)

/-- RETRAIN_FLIT (R283): the other end retrains. -/
def retrainFlit (i : Nat) (raw : BitVec 2048) (t : Nat) (s0 : State) : State :=
  let s := atTime t s0
  if !flitsFlow i s then s
  else
    let p := takeOff i raw s
    let s1 := countFlit i p.1 p.2
    if p.1.bad then sendNak i s1 else if p.1.type ≠ 3 then s1 else enterRetrain i t s1

/-- RETRAIN_FLIT. -/
def execRetrainFlit (i : Nat) (raw : BitVec 2048) (t : Nat) (s : State) : Host.Outcome State Fault Refusal :=
  .next (retrainFlit i raw t s)

end Sys2Proof.Machine
end

