-- ==== Sys2Proof/Machine/Fault.lean ====
section
/-!
DEFINITION. The fault controller: reports, defects and placement, image restarts, caldera variants, partial and whole resets (R36 to
R38, R156 to R158, R269, R350 to R367, R400, R426).
-/
namespace Sys2Proof.Machine
open Sys2Proof

/-! ### Placement from the defect set (R36 to R38, R426) -/

/-- Keys of the positions of a group. -/
def groupPos (field row g : Nat) : List Nat := (List.range 33).map fun i => posKey field row (33 * g + i)

/-- The byte of `SPARE_MAP` that a group takes from its defects (R62, R360, R426). (DEDUCED, safe: log entry 48.) -/
def groupByte (defects marked : List Nat) (field row g : Nat) : Nat :=
  let bad := (groupPos field row g).filter defects.contains
  let rbyp := if (groupPos field row g).any marked.contains then 32 else 0
  match bad with
  | [] => rbyp
  | [k] => let d := k % 256 - 33 * g; if d = 32 then rbyp else 128 + rbyp + d
  | _ => 64 + rbyp

/-- The `SPARE_MAP` word of a row. (DEDUCED, safe: log entry 48.) -/
def rowWord (defects marked : List Nat) (field row : Nat) : Word :=
  BitVec.ofNat 32 ((List.range 4).map (fun g => groupByte defects marked field row g * 2 ^ (8 * g))).sum

/-- What the declaration of a defect changes for logical cells. -/
structure Moved where
  /-- Cells that stand on another position now (R36). -/
  shifted : List Nat
  /-- Cells of a cluster that has become absent (R37). -/
  lost : List Nat
  deriving DecidableEq, Repr

/-- Nothing moved. -/
def Moved.none : Moved := ⟨[], []⟩

/-- What a group's change does to the cells of its cluster. -/
def movedBy (was is field row g : Nat) : Moved :=
  let cells := (List.range 32).map fun k => cellAt field row (32 * g + k)
  if bitsOf was 6 1 = 1 then .none
  else if bitsOf is 6 1 = 1 then ⟨[], cells⟩
  else if bitsOf was 7 1 = 0 ∧ bitsOf is 7 1 = 1 then ⟨cells.drop (bitsOf is 0 5), []⟩
  else .none

/-- The defect sets with one more defect. -/
def addDefect (pos : Nat) (router : Bool) (s : State) : State :=
  let d := if s.mesh.defects.contains pos then s.mesh.defects else s.mesh.defects ++ [pos]
  let m := if router then s.mesh.markedOut ++ [pos] else s.mesh.markedOut
  { s with mesh := { s.mesh with defects := d, markedOut := m } }

/-- Declare a cell or router defective (R352, R360). -/
def declareDefect (pos : Nat) (router : Bool) (s : State) : Moved × State :=
  let known := if router then s.mesh.markedOut.contains pos else s.mesh.defects.contains pos
  if known then (.none, s)
  else
    let field := pos / 8192
    let row := pos / 256 % 32
    let g := pos % 256 / 33
    let was := groupByte s.mesh.defects s.mesh.markedOut field row g
    let s1 := addDefect pos router s
    let is := groupByte s1.mesh.defects s1.mesh.markedOut field row g
    let s2 := journal 0x03 [pos, bitN router, 1] .none (when router (raise (F.FAB_ERR_STS.ROUTER_OUT field)) (raise F.FLT_STS.DEFECT (bump F.DEFECT_CNT s1)))
    if router && s.mesh.markedOut.any (sideBySide pos) then (.none, fatal 0x05 0 s2)
    else
      let word := rowWord s1.mesh.defects s1.mesh.markedOut field row
      (movedBy was is field row g, { s2 with mesh := { s2.mesh with placing := s2.mesh.placing ++ [⟨field, row, word⟩] } })

/-! ### What a report touches (R350, R351) -/

/-- Model slots whose image runs (R351). -/
def runningModels (s : State) : List Nat := (List.range 16).filter fun m => slotSt m s == 2

/-- A report is captured and counted at the field's collector and at the fault controller (R350, R373, R374).
(DEDUCED, unsafe: log entry 46.) -/
def captureReport (r : Report) (s : State) : State :=
  let f := fieldOfCell r.cell
  let s1 := bump (F.FLD_FLT_CNT f) s
  let s2 := if on (F.FLD_FLT_LAST.V f) s1 then s1
    else s1 |> wr (F.FLD_FLT_LAST.COL f) (colOf r.cell) |> wr (F.FLD_FLT_LAST.ROW f) (rowOf r.cell)
      |> wr (F.FLD_FLT_LAST.CAUSE f) r.cause |> wr (F.FLD_FLT_LAST.V f) 1
  let s3 := raise F.FLT_STS.DATA (bump F.FLT_DATA_CNT s2)
  if on F.FLT_LAST.V s3 then s3
  else
    let m := runningModelOf r.cell s3
    s3 |> wr F.FLT_LAST.CELL r.cell |> wr F.FLT_LAST.CAUSE r.cause |> wr F.FLT_LAST.MODEL (m.getD 0)
      |> wrB F.FLT_LAST.MODEL_V m.isSome |> wr F.FLT_LAST.V 1

/-- Causes that count toward a cell defect (R352): TENSOR_RES, VECTOR_RES, VECTOR_DUP, SEQ_PARITY. -/
def cellCauses : List Nat := [0x04, 0x05, 0x06, 0x07]

/-- Causes that count toward a router defect (R352): RED_RES, MISROUTE. -/
def routerCauses : List Nat := [0x08, 0x0A]

/-- Causes that taint the steps of every running image (R351). -/
def everyImage (cause : Nat) : Bool := routerCauses.contains cause || cause == 0x0B || cause == 0x0C

/-- Causes that count toward no defect (R351): a third restart for them within 64 frames fails the slot. -/
def noDefect (cause : Nat) : Bool := [0x01, 0x02, 0x03, 0x09, 0x0C, 0x0D, 0x0F, 0x10].contains cause

/-- An earlier report of one of these causes at a position within 64 frames (R352). -/
def seenBefore (causes : List Nat) (pos : Nat) (s : State) : Bool :=
  s.faults.past.any fun p => causes.contains p.cause && p.pos == pos && decide (frameNo s < p.frame + 64)

/-- Keep a report for the repeat counts. -/
def notePast (cause pos : Nat) (s : State) : State :=
  { s with faults := { s.faults with past := ⟨cause, pos, frameNo s⟩ :: s.faults.past } }

/-- The defect that a report declares (R352): none, or whether it is the router's. -/
def defectKind (cause pos : Nat) (s : State) : Option Bool :=
  if cause = 0x0E then some false
  else if cause = 0x0B then some true
  else if cellCauses.contains cause && seenBefore cellCauses pos s then some false
  else if routerCauses.contains cause && seenBefore routerCauses pos s then some true
  else none

/-- A stack address lies in a page list or a free list (R192, R193, R351). -/
def metaAddr (a : Nat) (s : State) : Bool :=
  ((List.range 16).any fun m =>
    let b := rd (F.POOL_FREELIST.VALUE m) s * 65536
    poolOn m s && decide (b ≤ a) && decide (a < b + poolPages m s * 4)) ||
  s.kv.seqs.any fun p => p.2.used && p.2.list != 0 && decide (p.2.list * 64 ≤ a) && decide (a < p.2.list * 64 + 262144)

/-- Slices of KIND 2 of a model that hold a stack address (R351). -/
def weightSlices (m a : Nat) (s : State) : List (Nat × Nat) :=
  (((modelSlot m s).slices.zipIdx).filter fun p =>
    p.1.kind == 2 && decide (p.1.staddr ≤ a) && decide (a < p.1.staddr + 64 * p.1.len)).map fun p => (m, p.2)

/-- The model whose stack memory holds an address (R188, R237, R242): its pages, its KIND 2 slices, or its stack area. -/
def modelAtAddr (a : Nat) (s : State) : Option Nat :=
  let inArea := fun (m : Nat) =>
    let b := rd (F.STACK_AREA.VALUE m) s * 65536
    decide (b ≤ a) && decide (a < b + rd (F.STACK_SIZE.VALUE m) s * 65536)
  match pageAtAddr a s, (List.range 16).find? fun m => !(weightSlices m a s).isEmpty with
  | some (m, _, _), _ => some m
  | none, some m => some m
  | none, none => (List.range 16).find? fun m => slotSt m s != 0 && inArea m

/-- The image that a report concerns (R351): that of the cell; for an uncorrectable stack granule that of the memory it lies in, or, where
it lies in no model's, that of the cell whose request met it. The patrol's cell is no party to what it finds. (DEDUCED, unsafe: log entry
46.) -/
def reportModel (r : Report) (s : State) : Option Nat :=
  if r.cause = 0x10 ∧ r.info ≠ 0 then
    match modelAtAddr (r.info - 1) s with
    | some m => if slotSt m s = 2 then some m else none
    | none => if r.reader.isSome then runningModelOf r.cell s else none
  else runningModelOf r.cell s

/-- The steps of a model that a report taints (R351): every uncommitted one; for committed KV the step that read it, which the patrol's read
is none of. Steps already marked for replay have not run since. -/
def taints (r : Report) (e : LedgerEntry) : Bool :=
  e.state != .committed && !e.replay && (!r.kv || e.seqs.any fun q => r.reader == some q.seq)

/-- Taint steps of the models named. -/
def taintSteps (ms : List Nat) (r : Report) (s : State) : State :=
  let mark := fun (e : LedgerEntry) => if ms.contains e.model && taints r e then { e with tainted := true } else e
  { s with ledger := { s.ledger with entries := s.ledger.entries.map mark } }

/-! ### Jobs: partial resets and restarts (R357, R364) -/

/-- A job at the beginning of DRAIN. -/
def freshJob (s : State) : ResetJob :=
  { single := [], fields := [], models := [], phase := 0, beat := beatNo s, reload := [], slices := [], variants := [], work := [] }

/-- The elements of a list that another does not hold. -/
def without (a b : List Nat) : List Nat := a.filter fun x => !b.contains x

/-- Add cells and fields to the job in progress, or begin one; its domain goes through DRAIN (R364), that of a job in RELEASE again. -/
def joinJob (cells fields : List Nat) (s : State) : State :=
  let j := s.faults.job.getD (freshJob s)
  let j1 : ResetJob := { j with
    single := j.single ++ without cells j.single, fields := j.fields ++ without fields j.fields, phase := 0 }
  wr F.RST_STATE.PHASE 0 (wr F.RST_STATE.BUSY 1 { s with faults := { s.faults with job := some j1 } })

/-- Change the job in progress. -/
def modJob (f : ResetJob → ResetJob) (s : State) : State := { s with faults := { s.faults with job := s.faults.job.map f } }

/-- Fields of an image's region. -/
def regionFields (m : Nat) (s : State) : List Nat := (List.range 72).filter fun f => inRegion (image m s).region f

/-- A model slot fails in service (R240, R351, R361, R362). -/
def failService (m : Nat) (s : State) : State := raise F.FLT_STS.RELOAD (failSlot m s)

/-- Step 2 of a restart (R357): launches stop, steps are marked, the collectors' ring copies are cleared (R365). -/
def stopImage (m : Nat) (s : State) : State :=
  let s1 := forEach (uncommitted m s) markReplay s
  let im := image m s1
  let s2 := setImage m { im with
    running := false, toStart := false, launch0 := if im.running then nextLaunch m (slotNo s1) s1 else im.launch0 } s1
  { s2 with sched := { s2.sched with ringCopy := Table.clear s2.sched.ringCopy (m * 1024) 1024 } }

/-- Count a restart toward the three of R351; the third within 64 frames fails the slot. -/
def countRestart (m : Nat) (s : State) : State :=
  let l := frameNo s :: (modelSlot m s).restarts.filter fun f => decide (frameNo s < f + 64)
  let s1 := modModelSlot m (fun x => { x with restarts := l }) s
  if 3 ≤ l.length then failService m s1 else s1

/-- An image takes part in the job, whose step 4 is still to come (R357). -/
def restarting (m : Nat) (s : State) : Bool := s.faults.job.any fun j => j.models.contains m && decide (j.phase < 2)

/-- A running image restarts (R357, R269), unless it takes part in a job whose rewrites are still to come; one in RELEASE begins again. -/
def restartImage (counted : Bool) (m : Nat) (s : State) : State :=
  if slotSt m s ≠ 2 ∨ restarting m s then s
  else
    let s1 := holdFw 4 (raise F.FLT_STS.RESTART (bump F.RESTART_CNT s))
    let s2 := joinJob [] (regionFields m s1) (tuneFault m (stopImage m s1))
    let s3 := modJob (fun j => { j with models := j.models ++ without [m] j.models }) s2
    when counted (countRestart m) s3

/-- Restart images. -/
def restartImages (counted : Bool) (ms : List Nat) (s : State) : State := forEach ms (restartImage counted) s

/-! ### Caldera variants (R156 to R158, R362) -/

/-- Variants in force or about to be, of every image: (field of the cluster, its variant). -/
def variantsHeld (s : State) : List (Nat × CalVariant) :=
  let take := fun (m i : Nat) => ((image m s).variants[i]?).map fun v => (m, v)
  ((List.range 16).flatMap fun m => (image m s).inForce.filterMap (take m)) ++
    ((s.faults.job.map (·.variants)).getD []).filterMap fun p => take p.1 p.2

/-- The cluster at (field, row, group) is absent by the defect set. -/
def clusterAbsent (field row g : Nat) (s : State) : Bool :=
  bitsOf (groupByte s.mesh.defects s.mesh.markedOut field row g) 6 1 == 1

/-- The variant of an image for a cluster, usable and permitted (R156, R157, R362). -/
def variantFor (m field row g : Nat) (s : State) : Option Nat :=
  (image m s).variants.findIdx? fun v =>
    v.field == field && v.row == row && v.cluster == g && v.usable && !clusterAbsent field v.target g s &&
      !((variantsHeld s).any fun p => p.2.field / 9 == field / 9)

/-- A cluster of an image that has become absent: its variant joins the restart, or the slot fails (R362, R172). -/
def moveCluster (m field row g : Nat) (s : State) : State :=
  let v := if on F.FLT_CTRL.RELOC_EN s && !(image m s).t36 then variantFor m field row g s else none
  match v with
  | some i => modJob (fun j => { j with variants := j.variants ++ [(m, i)] }) s
  | none => failService m s

/-- Cells of the targets of variants in force of an image. -/
def relocatedCells (m : Nat) (s : State) : List Nat :=
  (image m s).inForce.flatMap fun i => match (image m s).variants[i]? with
    | some v => (List.range 32).map fun k => cellAt v.field v.target (32 * v.cluster + k)
    | none => []

/-! ### Responses (R351) -/

/-- Restart what a placement change touches, and note what must be written again (R360 to R362); a lost cluster in which an image binds no
cell asks nothing of that image. (DESIGN CHOICE, unsafe: log entry 93.) -/
def followMove (mv : Moved) (s : State) : State :=
  let hit := (runningModels s).filter fun m => (image m s).cells.any fun c => mv.shifted.contains c || mv.lost.contains c
  let s1 := modJob (fun j => { j with reload := j.reload ++ without mv.shifted j.reload }) (restartImages false hit s)
  match mv.lost with
  | [] => s1
  | c :: _ =>
    forEach ((runningModels s1).filter fun m => (image m s1).cells.any mv.lost.contains)
      (fun m => moveCluster m (fieldOfCell c) (rowOf c) (colOf c / 32)) s1

/-- The action of R351 on a report of a cell of a running image. -/
def respondImage (m : Nat) (r : Report) (mv : Moved) (s : State) : State :=
  let ms := if everyImage r.cause then runningModels s else [m]
  let s1 := restartImages (noDefect r.cause) ms (taintSteps ms r s)
  let s2 := modJob (fun j => { j with
    reload := if r.cause = 0x01 then j.reload ++ without [r.cell] j.reload else j.reload
    slices := if r.cause = 0x10 ∧ r.info ≠ 0 then j.slices ++ weightSlices m (r.info - 1) s else j.slices }) s1
  followMove mv s2

/-- The action of R351 on a report of a cell of no running image: the cell is reset, no step is tainted. A cell that a running image has
bound is none: the memory that such a report concerns is no running image's. (DEDUCED, unsafe: log entry 46.) -/
def respondCell (c : Nat) (mv : Moved) (s : State) : State :=
  if (runningModelOf c s).isSome then followMove mv s else followMove mv (joinJob [c] [] s)

/-- The response to a report (R351, R352, R360). -/
def respond350 (x : Report) (s : State) : State :=
  let cause := x.cause
  let c := x.cell
  let info := x.info
  let pos := posOfCell c s
  if cause = 0x0C ∧ (s.faults.past.any fun p => p.cause == 0x0C && decide (frameNo s < p.frame + 64)) then fatal 0x07 0 s
  else if cause = 0x10 ∧ info ≠ 0 ∧ metaAddr (info - 1) s then fatal 0x03 0 s
  else
    let k := defectKind cause pos s
    let s1 := notePast cause pos s
    let r := match k with
      | some router => declareDefect pos router s1
      | none => (.none, s1)
    if r.2.faults.stopped then r.2
    else
      match reportModel x s with
      | some m => respondImage m x r.1 r.2
      | none => respondCell c r.1 r.2

/-- FAULT_REPORT (R350 to R352): a report reaches the fault controller. One that a cell, router or stack controller of the model has
sent is taken from those on their way, with what it tells beside cause and cell. (DEDUCED, unsafe: log entry 46.) -/
def faultReport (cause c : Nat) (s : State) : State :=
  if cellCount ≤ c ∨ cause = 0 ∨ 16 < cause then s
  else
    let hit := fun (r : Report) => r.cause == cause && r.cell == c
    let r := (s.mesh.reports.find? hit).getD ⟨cause, c, 0, none, false⟩
    let s1 := captureReport r { s with mesh := { s.mesh with reports := s.mesh.reports.eraseP hit } }
    if s1.faults.stopped then s1 else respond350 r s1

/-- FAULT_REPORT. -/
def execFaultReport (cause c : Nat) (s : State) : Host.Outcome State Fault Refusal := .next (faultReport cause c s)

/-! ### Requests for a reset (R363, R367) -/

/-- A reset request of the host: `cells` or whole `fields`; a domain with a cell bound to a running image restarts that image. -/
def requestReset (scope c : Nat) (cells fields : List Nat) (s0 : State) : State :=
  let s := wr F.RST_CTRL.SCOPE scope (wr F.RST_CTRL.TARGET c s0)
  if on F.RST_STATE.BUSY s ∨ cellCount ≤ c then raise F.RST_STS.REFUSED s
  else
    let hit := if s.faults.stopped then []
      else (runningModels s).filter fun m => (image m s).cells.any fun x => cells.contains x || fields.contains (fieldOfCell x)
    if hit.isEmpty then joinJob cells fields s
    else joinJob cells fields (raise F.RST_STS.WIDENED (restartImages false hit s))

/-- CELL_RESET (R363, R367). -/
def execCellReset (c : Nat) (s : State) : Host.Outcome State Fault Refusal := .next (requestReset 0 c [c] [] s)

/-- CLUSTER_RESET (R363, R367). -/
def execClusterReset (c : Nat) (s : State) : Host.Outcome State Fault Refusal := .next (requestReset 1 c (clusterCells c) [] s)

/-- PARTITION_RESET (R363, R367). -/
def execPartitionReset (c : Nat) (s : State) : Host.Outcome State Fault Refusal :=
  .next (requestReset 2 c [] [fieldOfCell c] s)

/-! ### Phases (R364, R365) -/

/-- What a reset sets within a cell (R363). -/
def resetCell (c : Nat) (s : State) : State :=
  let s1 := modCell c (fun x => { x with
    run := false, illegal := false, pc := 0, stall := .none, fetch := [], rng := 0, shadow0 := 0, shadow1 := 0, shadow2 := 0,
    ring := 0, serving := 0, iterStart := 0, iterLaunch := 0, inIter := false, syncs := 0, lateSync := false, wide := false, recipe := 0,
    tuneRole := 0, dueSlot := 0, dueFails := 0, stretchSlot := 0, stretchTests := 0, landed := 0, taken := 0,
    waiting := [], tensorHeld := [], phase := .absorb }) s
  { s1 with counters := Table.clear s1.counters (c * 32) 32, accs := Table.clear s1.accs (c * 512) 512 }

/-- RESET (R364): the cells of the domain receive the RESET word of the phase in progress and act on it. -/
def resetWords (s : State) : State :=
  match s.faults.job with
  | none => s
  | some j =>
    match j.phase with
    | 0 => forEach j.cells (fun c => modCell c (fun x => { x with phase := .drain })) s
    | 1 => forEach j.cells resetCell s
    | _ => forEach j.cells (fun c => modCell c (fun x => { x with phase := .release })) s

/-- RESET. -/
def execReset (s : State) : Host.Outcome State Fault Refusal := .next (resetWords s)

/-- Every cell of the domain stands in a phase. -/
def allIn (p : RstPhase) (j : ResetJob) (s : State) : Bool := j.cells.all fun c => decide ((cell c s).phase = p)

/-- The job enters a phase. -/
def enterPhase (n : Nat) (s : State) : State := wr F.RST_STATE.PHASE n (modJob (fun j => { j with phase := n }) s)

/-- DRAIN_DONE (R364): every cell of the domain has answered DONE. -/
def drainDone (s : State) : State :=
  match s.faults.job with
  | some j => if j.phase = 0 ∧ allIn .drain j s then enterPhase 1 s else s
  | none => s

/-- DRAIN_DONE. -/
def execDrainDone (s : State) : Host.Outcome State Fault Refusal := .next (drainDone s)

/-- Sequences of a model whose state a cell holds (R361, R454): those its release table names a run for. -/
def sequencesIn (c m : Nat) (s : State) : List Nat :=
  let b := releaseBase c s
  if b = 0 then []
  else (s.kv.seqs.filter fun p => p.2.used && p.2.model == m &&
    bitsOf (fieldOf (granule c (b + p.1 / 16) s) (32 * (p.1 % 16)) 32) 15 15 != 0).map (·.1)

/-- A cell's sinter stores are zero, tagged with their sequences' LEN (R361). -/
def zeroStores (c : Nat) (s : State) : State :=
  { s with kv := { s.kv with stores := s.kv.stores.map fun p =>
      if p.2.cell = c then (p.1, { p.2 with data := [], tag := (seqSlot p.1 s).len }) else p } }

/-- KV that a rewritten cell held (R361): its sinter stores are zero, its hot windows are filled again by KV-Move. -/
def restoreKv (m c : Nat) (s0 : State) : State :=
  let had := s0.kv.stores.any fun p => p.2.cell == c
  let qs := sequencesIn c m s0
  let s := zeroStores c s0
  let run := fun (q : Nat) (t : State) =>
    let e := fieldOf (granule c (releaseBase c t + q / 16) t) (32 * (q % 16)) 32
    forEach (granulesFrom (bitsOf e 0 15) (bitsOf e 15 15)) (fun g => putGranule c g 0) t
  let s1 := forEach qs run s
  let fill := fun (q : Request) => if q.admitted && q.model == m && qs.contains q.seq then { q with filling := true } else q
  let s2 := { s1 with svc := { s1.svc with reqs := s1.svc.reqs.map fill } }
  when (had || !qs.isEmpty) (raise F.FLT_STS.SINTER) s2

/-- The segments of a rewrite: those of the slices that name a cell to be written again, and of the stack slices to be read again. -/
def rewriteSegs (cells ids : List Nat) (slices : List Slice) (segs : List SegRec) : List SegRec :=
  segs.filter fun x => x.len != 0 && (ids.contains x.slice || match slices[x.slice]? with
    | some y => (y.kind == 0 || y.kind == 1) && cells.contains y.cell
    | none => false)

/-- A rewritten cell holds trained adapter state (R361): it cannot be restored. -/
def trainedCells (m : Nat) (cells : List Nat) (s : State) : Bool := !cells.isEmpty && tuneModel s == m && rd F.OPT_STEP.VALUE s != 0

/-- A cell rewrite cannot be done by reading the slice map (R157, R361): a relocated cell, or trained adapter state. -/
def noRewrite (w : Rewrite) (s : State) : Bool :=
  slotSt w.model s != 2 || w.cells.any (relocatedCells w.model s).contains || trainedCells w.model w.cells s

/-- The segments of a rewrite as read. -/
def Rewrite.segments (w : Rewrite) : List (Option Segment) := w.done.map fun p => some ⟨p.1.slice, p.1.off, p.2⟩

/-- The rewrite of R361 for one model of a restart. -/
def rewriteModel (w : Rewrite) (s : State) : State :=
  let m := w.model
  if slotSt m s ≠ 2 then s
  else if w.cells.any (relocatedCells m s).contains then failService m s
  else if trainedCells m w.cells s then tuneFail 1 (failService m s)
  else if w.bad then failService m s
  else
    let p := placeAll w.slices w.segments s
    if p.1 then forEach w.cells (restoreKv m) p.2 else failService m p.2

/-- Insert into a rising list. -/
def insertNat (a : Nat) : List Nat → List Nat
  | [] => [a]
  | b :: bs => if a ≤ b then a :: b :: bs else b :: insertNat a bs

/-- The granules of a run of weights as read, where they go. -/
def weightWrites (p : SegRec × List Granule) : List GranuleWrite := p.2.zipIdx.map fun g => ⟨p.1.slice, p.1.off + g.2, g.1⟩

/-- Put a caldera variant into force (R158, R362, R453): records, tables and weights; the home cluster is zeroised. One whose reads
failed is reported, not installed (R290). -/
def installVariant (w : Rewrite) (i : Nat) (s : State) : State :=
  let m := w.model
  match (image m s).variants[i]?, decide (slotSt m s = 2 ∧ !w.bad) with
  | some v, true =>
    let home := (List.range 32).map fun k => cellAt v.field v.row (32 * v.cluster + k)
    let target := (List.range 32).map fun k => cellAt v.field v.target (32 * v.cluster + k)
    let put := fun (w : GranuleWrite) (t : State) => chargeLoad w.cell 1 (loadGranule w.cell w.granule w.data t)
    let s1 := forEach (w.done.flatMap weightWrites) put (forEach v.writes put (forEach home zeroCell s))
    let s2 := { s1 with mesh := { s1.mesh with tabWrites := s1.mesh.tabWrites ++ v.tables } }
    let s3 := modImage m (fun x => { x with
      cells := target.foldl (fun l c => insertNat c l) (x.cells.filter fun c => !home.contains c)
      inForce := x.inForce ++ [i] }) s2
    raise F.FLT_STS.RELOCATED (bump F.RELOC_CNT s3)
  | some _, false => if slotSt m s = 2 then failService m s else s
  | _, _ => s

/-- A relocation by THR_RELOC has come to its end: performed where its variant is in force (R400). (DEDUCED, unsafe: log entry 47.) -/
def relocDone (s : State) : State :=
  match s.power.relocating with
  | none => s
  | some (m, i) =>
    when ((image m s).inForce.contains i) (raise F.THR_STS.RELOC_DONE) { s with power := { s.power with relocating := none } }

/-- What a job needs read of host memory, by what it names now: a rewrite for each model with cells or stack slices to be written again,
and each variant (R361, R362). -/
def worksOf (j : ResetJob) (s : State) : List Rewrite :=
  let cellWork := fun (m : Nat) =>
    let cells := (image m s).cells.filter j.reload.contains
    let ids := (j.slices.filter fun p => p.1 == m).map (·.2)
    if slotSt m s ≠ 2 ∨ (cells.isEmpty ∧ ids.isEmpty) then none
    else some (⟨m, none, cells, ids, [], [], [], false, false⟩ : Rewrite)
  j.models.filterMap cellWork ++ j.variants.map fun p => ⟨p.1, some p.2, [], [], [], [], [], false, false⟩

/-- The reads of a job are those that it needs. -/
def coversJob (j : ResetJob) (s : State) : Bool :=
  let key := fun (w : Rewrite) => (w.model, w.variant, w.cells, w.ids)
  j.work.map key == (worksOf j s).map key

/-- Use of the reads of one work. -/
def Rewrite.use (w : Rewrite) (part : Nat) : FetchUse :=
  match w.variant with
  | some i => .variant w.model i part
  | none => .rewrite w.model part

/-- Change the work that reads for a model, or for one of its variants. -/
def modWork (m : Nat) (v : Option Nat) (f : Rewrite → Rewrite) (s : State) : State :=
  modJob (fun j => { j with work := j.work.map fun w => if w.model = m ∧ w.variant = v then f w else w }) s

/-- The work that reads for a model, or for one of its variants. -/
def workOf (m : Nat) (v : Option Nat) (s : State) : Option Rewrite :=
  s.faults.job.bind fun j => j.work.find? fun w => w.model == m && w.variant == v

/-- A work of a variant installs it. -/
def installWork (w : Rewrite) (s : State) : State :=
  match w.variant with
  | some i => installVariant w i s
  | none => s

/-- Step 4 of a restart ends (R357): rewrites and variants are applied, and RELEASE begins. -/
def endAbsorb (j : ResetJob) (s : State) : State :=
  let cellsOf := j.work.filter fun w => w.variant.isNone
  let s1 := forEach cellsOf rewriteModel s
  let s2 := forEach j.work installWork s1
  enterPhase 2 (relocDone (modJob (fun k => { k with reload := [], slices := [], variants := [], work := [] }) s2))

/-- Put the first read of a work on its way. -/
def startWork (w : Rewrite) (s : State) : State :=
  let n := 32 * rd (F.SLICE_COUNT.VALUE w.model) s
  match w.variant with
  | some _ => startFetch (w.use 0) (image w.model s).varTab 64 s
  | none =>
    if noRewrite w s ∨ n = 0 then modWork w.model none (fun x => { x with ready := true }) s
    else startFetch (w.use 0) (sliceMapAddr w.model s) n s

/-- Begin step 4 of a restart (R357): the reads that it needs, from the first one on. -/
def beginWork (s : State) : State :=
  match s.faults.job with
  | none => s
  | some j =>
    let ws := worksOf j s
    forEach ws startWork (modJob (fun k => { k with work := ws }) s)

/-- Step 4 goes on (R357): once nothing is left to read it ends; what has come to need a read meanwhile is read first. -/
def stepWork (s : State) : State :=
  match s.faults.job with
  | none => s
  | some j =>
    if j.phase = 1 ∧ j.work.all (·.ready) then (if coversJob j s then endAbsorb j s else beginWork s) else s

/-- Read on for a work: its next segment, or nothing more. -/
def nextWork (w : Rewrite) (s : State) : State :=
  match w.todo with
  | [] => stepWork (modWork w.model w.variant (fun x => { x with ready := true }) s)
  | g :: _ => startFetch (w.use 1) g.addr (64 * g.len) s

/-- A work is changed, and reads on. -/
def goOnWork (w : Rewrite) (s : State) : State := nextWork w (modWork w.model w.variant (fun _ => w) s)

/-- An extent of a work has been read: the slice map or descriptor, or a segment's data (R158, R361). -/
def workPartRead (m : Nat) (v : Option Nat) (part : Nat) (bs : List Byte) (s : State) : State :=
  match workOf m v s with
  | none => s
  | some w =>
    match part, w.todo, v with
    | 0, _, some i =>
      let segs := (((image m s).variants[i]?).map (·.weights)).getD []
      goOnWork { w with todo := segs.filter fun g => g.len != 0 } s
    | 0, _, none =>
      let slices := (recordsOf 32 bs).map sliceOf
      goOnWork { w with slices := slices, todo := rewriteSegs w.cells w.ids slices (modelSlot m s).segs } s
    | _, g :: rest, _ => goOnWork { w with todo := rest, done := w.done ++ [(g, granulesOf bs)] } s
    | _, [], _ => s

/-- A read of a work failed twice (R290): it cannot complete. -/
def workFailed (m : Nat) (v : Option Nat) (s : State) : State :=
  match workOf m v s with
  | none => s
  | some w => stepWork (modWork m v (fun _ => { w with bad := true, ready := true, todo := [] }) s)

/-- ABSORB_DONE (R357 step 4, R361, R362, R364): requests issued before DRAIN have completed and nothing has landed for 128 cy; with
placements in force, step 4 begins to read what it needs, and ends at once where that is nothing. (DEDUCED, unsafe: log entry 47.) -/
def absorbDone (s : State) : State :=
  match s.faults.job with
  | none => s
  | some j =>
    if j.phase = 1 ∧ allIn .absorb j s ∧ s.mesh.placing.isEmpty ∧ j.work.isEmpty then stepWork (beginWork s) else s

/-- ABSORB_DONE (R364): `quiet` cycles have passed since a flit landed. -/
def execAbsorbDone (quiet : Nat) (s : State) : Host.Outcome State Fault Refusal := .next (when (decide (128 ≤ quiet)) absorbDone s)

/-- RELEASE_DONE (R357 steps 5 and 6, R364): the RING_FILL words have landed and table entries written by a variant are in force; the
images start at the first advancing boundary. (DEDUCED, unsafe: log entry 47.) -/
def releaseDone (s : State) : State :=
  match s.faults.job with
  | none => s
  | some j =>
    if j.phase = 2 ∧ allIn .release j s ∧ s.mesh.tabWrites.isEmpty then
      let s1 := forEach j.cells (fun c => modCell c (fun x => { x with phase := .none })) s
      let s2 := forEach (j.models.filter fun m => slotSt m s1 == 2) (fun m => modImage m (fun x => { x with toStart := true })) s1
      releaseFw 4 (wr F.RST_STATE.PHASE 0 (wr F.RST_STATE.BUSY 0 { s2 with faults := { s2.faults with job := none } }))
    else s

/-- RELEASE_DONE. -/
def execReleaseDone (s : State) : Host.Outcome State Fault Refusal := .next (releaseDone s)

/-- DRAIN_TIMEOUT (R364): a reset has not reached RELEASE within one frame of its start. -/
def drainTimeout (s : State) : State :=
  match s.faults.job with
  | some j => if j.phase < 2 ∧ j.beat + beatsPerFrame ≤ beatNo s then fatal 0x06 0 s else s
  | none => s

/-- DRAIN_TIMEOUT. -/
def execDrainTimeout (s : State) : Host.Outcome State Fault Refusal := .next (drainTimeout s)

/-! ### Whole-module reset (R363, R367, R489) -/

/-- Registers that show levels a whole-module reset does not change (R406, R486, R492). (DEDUCED, unsafe: log entry 9.) -/
def showPins (s : State) : State :=
  s |> wrB F.PIN_STATE.HOLD_EXT s.mgmt.hold |> wrB F.PIN_STATE.COOL_OK s.mgmt.coolOk |> wrB F.COOL_STATE.COOL_OK s.mgmt.coolOk
    |> wrB F.PIN_STATE.SENIOR_STRAP s.mgmt.senior |> wrB F.PAIR_STATE.SENIOR s.mgmt.senior
    |> wrB F.PIN_STATE.PWR_OFF_REQ s.power.pwrOff

/-- A whole-module reset: everything takes its reset value but the fuses, the NOR device, the trip cell, the latch of `PWR_OFF_REQ`, the
levels of the pins, the feeds, and what Brynodor memory counts for the power-up (R381, R406, R431).
(DEDUCED, unsafe: log entry 9.) -/
def wholeReset (s : State) : State :=
  let r := State.reset
  let s1 : State := { r with
    pending := s.pending
    free := s.free
    fuses := s.fuses
    power := { r.power with tripCell := s.power.tripCell, pwrOff := s.power.pwrOff, off := s.power.off }
    boot := { r.boot with
      area0 := s.boot.area0, area1 := s.boot.area1, failed := s.boot.failed, sr0 := s.boot.sr0, sr1 := s.boot.sr1,
      img0 := s.boot.img0, img1 := s.boot.img1, ramFails := s.boot.ramFails, starts := s.boot.starts }
    mgmt := { r.mgmt with
      senior := s.mgmt.senior, inReset := s.mgmt.inReset, hold := s.mgmt.hold, coolOk := s.mgmt.coolOk,
      bmcEid := s.mgmt.bmcEid } }
  showPins (wr F.PWR_STATE.B_OK (rd F.PWR_STATE.B_OK s) (wr F.PWR_STATE.A_OK (rd F.PWR_STATE.A_OK s) s1))

/-- WHOLE_RESET (R367): the host's request acts as `nRESET` held for 10 µs; one made while a reset is in progress, or that names a cell
number above 221,183, is refused. -/
def wholeRequest (s : State) : State :=
  if on F.RST_STATE.BUSY s ∨ cellCount ≤ rd F.RST_CTRL.TARGET s then raise F.RST_STS.REFUSED s else wholeReset s

/-- WHOLE_RESET. -/
def execWholeReset (s : State) : Host.Outcome State Fault Refusal := .next (wholeRequest s)

/-! ### Relocation on request (R400) -/

/-- A relocation asked for by `THR_RELOC` is refused. -/
def relocRefuse (s : State) : State := raise F.THR_STS.RELOC_REFUSED s

/-- THR_RELOC (R400): GO asks for a cluster of a running native image to move into its caldera. -/
def thrReloc (v : Word) (s0 : State) : State :=
  let s := wr F.THR_RELOC.CELL (fieldOf v 0 18) s0
  let c := fieldOf v 0 18
  if !bitAt v 31 then s
  else if cellCount ≤ c ∨ (s.faults.job.any fun j => !j.models.isEmpty) ∨ s.faults.stopped then relocRefuse s
  else
    match (runningModels s).find? fun m => (image m s).cells.any fun x => (clusterCells c).contains x with
    | none => relocRefuse s
    | some m =>
      match if (image m s).t36 then none else variantFor m (fieldOfCell c) (rowOf c) (colOf c / 32) s with
      | none => relocRefuse s
      | some i =>
        modJob (fun j => { j with variants := j.variants ++ [(m, i)] })
          (restartImage false m { s with power := { s.power with relocating := some (m, i) } })

/-- THR_RELOC. -/
def execThrReloc (v : Word) (s : State) : Host.Outcome State Fault Refusal := .next (thrReloc v s)

end Sys2Proof.Machine
end

