-- ==== Sys2Proof/Machine/Power.lean ====
section
/-!
DEFINITION. Feeds, rails, regulator phases, drops on the memory rail, the power levels and the ceiling (R375 to R392, R407 to R409).
-/
namespace Sys2Proof.Machine
open Sys2Proof

/-- A fatal event with cause POWER and its source (R371, R409): 1 PHASES, 2 VCM_REPEAT, 3 VCM_NORECOVER, 4 FEEDS. -/
def fatalPower (src : Nat) (s : State) : State := fatalWith 0x08 0 src .none s

/-! ### Feeds (R375 to R378) -/

/-- OK of a feed: 0 A, 1 B. -/
def feedOkFld (n : Nat) : Fld := if n = 0 then F.PWR_STATE.A_OK else F.PWR_STATE.B_OK

/-- Its warning's status bit. -/
def feedSts (n : Nat) : Fld := if n = 0 then F.PWR_STS.FEED_A else F.PWR_STS.FEED_B

/-- A feed is OK. -/
def feedIsOk (n : Nat) (s : State) : Bool := on (feedOkFld n) s

/-- Power returns after both feeds were lost (R378, R381): nothing the module held survives but the fuses, the NOR device and the trip
cell; the pins keep their levels. (DEDUCED, unsafe: log entry 9.) -/
def powerUp (s : State) : State :=
  wholeReset { s with
    power := { s.power with off := false, pwrOff := false }, boot := { s.boot with ramFails := 0, failed := false }, mgmt := { s.mgmt with bmcEid := State.reset.mgmt.bmcEid } }

/-- The module is without power (R378, R381, R406): no link carries anything, and the latch of `PWR_OFF_REQ` falls. -/
def powerGone (s : State) : State :=
  forEach (List.range 5) (fun i => wr (linkStateFld i) 0)
    (wr F.PIN_STATE.PWR_OFF_REQ 0 { s with power := { s.power with off := true, pwrOff := false } })

/-- FEED_OK (R375, R378): a feed has been in range for 10 ms. -/
def feedOk (n : Nat) (s : State) : State :=
  if 2 ≤ n ∨ feedIsOk n s then s else wr (feedOkFld n) 1 (if s.power.off then powerUp s else s)

/-- FEED_OK. -/
def execFeedOk (n : Nat) (s : State) : Host.Outcome State Fault Refusal := .next (feedOk n s)

/-- FEED_LOST (R376): a feed has been out of range for 100 µs. -/
def feedLost (n : Nat) (s : State) : State := if 2 ≤ n ∨ !feedIsOk n s then s else warn 0x01 0 (feedSts n) (wr (feedOkFld n) 0 s)

/-- FEED_LOST. -/
def execFeedLost (n : Nat) (s : State) : Host.Outcome State Fault Refusal := .next (feedLost n s)

/-- BOTH_FEEDS_LOST (R378, R381): both feeds have been lost for 100 µs: a fatal event, and then no part of the module runs. -/
def bothFeedsLost (s : State) : State :=
  if feedIsOk 0 s ∨ feedIsOk 1 s ∨ s.power.off then s else powerGone (fatalPower 4 s)

/-- BOTH_FEEDS_LOST. -/
def execBothFeedsLost (s : State) : Host.Outcome State Fault Refusal := .next (bothFeedsLost s)

/-- Power of each feed as last sampled, in units of 10 mW. -/
def feedPower (n : Nat) (s : State) : Nat :=
  if n = 0 then rd F.FEED_A.V s * rd F.FEED_A.A s else rd F.FEED_B.V s * rd F.FEED_B.A s

/-- With both feeds OK, one of them carries less than 40% of the input power (R377). -/
def shareOutside (s : State) : Bool :=
  let a := feedPower 0 s
  let b := feedPower 1 s
  feedIsOk 0 s && feedIsOk 1 s && (decide (10 * a < 4 * (a + b)) || decide (10 * b < 4 * (a + b)))

/-- FEED_SHARE (R377): the share has lain outside the band for 1 s; warned once an occasion. -/
def feedShare (s : State) : State :=
  if shareOutside s ∧ !s.power.shareOff then warn 0x02 0 F.PWR_STS.SHARE { s with power := { s.power with shareOff := true } } else s

/-- FEED_SHARE. -/
def execFeedShare (s : State) : Host.Outcome State Fault Refusal := .next (feedShare s)

/-! ### Phases and the field limit (R382 to R384) -/

/-- Working phases of a field. -/
def phases (f : Nat) (s : State) : Nat := rd (F.FLD_PWR_STATE.PHASES f) s

/-- A phase has failed. -/
def phaseFailed (f p : Nat) (s : State) : Bool := bitsOf (rd (F.FLD_PHASE.VALUE f) s) p 1 == 1

/-- PHASE_FAULT (R382, R384): a phase's stage reports a fault, or its imbalance has lasted 32 samples. -/
def phaseFault (f p : Nat) (s : State) : State :=
  if 72 ≤ f ∨ 16 ≤ p ∨ phaseFailed f p s then s
  else
    let s1 := wr (F.FLD_PHASE.VALUE f) (rd (F.FLD_PHASE.VALUE f) s + 2 ^ p) (wr (F.FLD_PWR_STATE.PHASES f) (phases f s - 1) s)
    let s2 := warn 0x03 f F.PWR_STS.PHASE_FAIL (raise (F.FLD_PWR_STS.PHASE_FAIL f) (journal 0x0B [f, p] .none s1))
    if phases f s2 < 8 then fatalPower 1 s2 else s2

/-- PHASE_FAULT. -/
def execPhaseFault (f p : Nat) (s : State) : Host.Outcome State Fault Refusal := .next (phaseFault f p s)

/-- POWER_LEVEL_ADJUST (R383, R407): every 64 voltage samples; with a phase failed the level stays as it is at G_f = 16. -/
def powerLevelAdjust (f : Nat) (s : State) : State :=
  let x := fieldPower f s
  if 72 ≤ f ∨ x.vclCount < 64 then s
  else
    let lim := 48 * phases f s * x.vclCount
    let past := decide (lim < x.vclSum) || x.sagged == x.vclCount
    let g :=
      if (gateLevel f s).1 = 16 ∧ phases f s < 16 then x.gPwr
      else if past then min 15 (x.gPwr + 1)
      else if 10 * x.vclSum < 9 * lim then x.gPwr - 1
      else x.gPwr
    let s1 := setFieldPower f { x with gPwr := g, vclSum := 0, vclCount := 0, sagged := 0 } s
    when (x.gPwr == 0 && decide (0 < g)) (fun t => warn 0x04 f F.PWR_STS.FIELD_LIMIT (raise (F.FLD_PWR_STS.LIMIT f) t)) s1

/-- POWER_LEVEL_ADJUST. -/
def execPowerLevelAdjust (f : Nat) (s : State) : Host.Outcome State Fault Refusal := .next (powerLevelAdjust f s)

/-! ### The ceiling (R392) -/

/-- Sum of the input power kept. -/
def inputSum (s : State) : Nat := total s.power.inputs

/-- CAP_ADJUST (R392): every 64 voltage samples. -/
def capAdjust (s : State) : State :=
  if s.power.capCount < 64 then s
  else
    let n := s.power.inputs.length
    let cap := rd F.PWR_CAP.VALUE s * n
    let g0 := rd F.PWR_STATE.G_CAP s
    let g := if cap < inputSum s then min 15 (g0 + 1) else if 100 * inputSum s < 95 * cap then g0 - 1 else g0
    let s1 := wr F.PWR_STATE.G_CAP g { s with power := { s.power with capCount := 0 } }
    when (g0 == 0 && decide (0 < g)) (warn 0x06 0 F.PWR_STS.CAP) s1

/-- CAP_ADJUST. -/
def execCapAdjust (s : State) : Host.Outcome State Fault Refusal := .next (capAdjust s)

/-- PWR_CAP_WRITE (R392): outside 12,000 W to 36,000 W it is refused. -/
def pwrCapWrite (v : Word) (s : State) : State :=
  let w := fieldOf v 0 16
  if 12000 ≤ w ∧ w ≤ 36000 then wr F.PWR_CAP.VALUE w s else raise F.PWR_STS.CAP_REFUSED s

/-- PWR_CAP_WRITE. -/
def execPwrCapWrite (v : Word) (s : State) : Host.Outcome State Fault Refusal := .next (pwrCapWrite v s)

/-- VCL set point of a field in mV, from the fuses (R379, R472). (DESIGN CHOICE, unsafe: log entry 4.) -/
def vclSet (f : Nat) (s : State) : Nat := Table.get (fun _ => 700) s.fuses.vclSet f

/-! ### Voltage samples (R375, R385, R392, R409) -/

/-- Nearest integer of a quotient; 0 where the divisor is 0. (DEDUCED, unsafe: log entry 49.) -/
def nearest (a b : Nat) : Nat := if b = 0 then 0 else (2 * a + b) / (2 * b)

/-- Cycles between voltage samples. -/
def voltCycles : Nat := 2048

/-- A voltage sensor's reading stands at 0 V or at full scale, the top code of its register (R380).
(DEDUCED, unsafe: log entry 49.) -/
def atRail (mv : Nat) : Bool := mv == 0 || decide (1023 ≤ mv)

/-- Readings of a field's voltage sensors that count (R380, R435): `base` is 0 for VCL, 64 for VCM. -/
def keptVolts (f base : Nat) (l : List Nat) (s : State) : List Nat :=
  (l.zipIdx.filter fun p => !atRail p.1 && !s.power.badVolts.contains (f * 96 + base + p.2)).map (·.1)

/-- The smallest of a list. -/
def lowestOf (l : List Nat) : Option Nat :=
  match l with
  | [] => none
  | x :: xs => some (xs.foldl min x)

/-- Lowest VCL reading of a field. -/
def lowVcl (f : Nat) (v : FieldVolt) (s : State) : Option Nat := lowestOf (keptVolts f 0 v.vcl s)

/-- Lowest VCM reading of a field. -/
def lowVcm (f : Nat) (v : FieldVolt) (s : State) : Option Nat := lowestOf (keptVolts f 64 v.vcm s)

/-- Sensor faults of a sample (R380). -/
def sensorFaultsIn (v : VoltSample) : Nat :=
  total (v.fields.map fun x => ((x.vcl ++ x.vcm).filter atRail).length) +
    total (v.rails.map fun g => (g.filter fun r => r.all (· == 0)).length)

/-- What each regulator group beside VCL and VCM is regulated on (R380). -/
def lowRails (v : VoltSample) : List (Option Nat) := v.rails.map fun g => lowestOf (g.filterMap fun r => r.filter (· != 0))

/-- Input power: mean, energy, feeds (R392, R409). -/
def sampleInput (v : VoltSample) (s : State) : State :=
  let w := (v.feedA.1 * v.feedA.2 + v.feedB.1 * v.feedB.2) / 100
  let inputs := (w :: s.power.inputs).take 1024
  let e := s.power.energyPart + w * voltCycles
  let s1 := { s with power := { s.power with
    inputs := inputs, energyPart := e % 2100000, capCount := s.power.capCount + 1, rails := lowRails v,
    sensorFaults := s.power.sensorFaults + sensorFaultsIn v } }
  let s2 := s1 |> wr F.FEED_A.V (satN 13 v.feedA.1) |> wr F.FEED_A.A (satN 10 v.feedA.2) |> wr F.FEED_B.V (satN 13 v.feedB.1)
    |> wr F.FEED_B.A (satN 10 v.feedB.2)
    |> wr F.PWR_IN.VALUE (satN 16 (nearest (total inputs) inputs.length)) |> bumpBy F.IN_ENERGY_CNT (e / 2100000)
  if shareOutside s2 then s2 else { s2 with power := { s2.power with shareOff := false } }

/-- d_f in mV (R385); 0 where no sensor counts. (DEDUCED, unsafe: log entry 49.) -/
def vcmDrop (f : Nat) (x : FieldVolt) (s : State) : Int := ((lowVcm f x s).map fun u => 800 - (u : Int)).getD 0

/-- d_f of every field of a sample. -/
def vcmDrops (v : VoltSample) (s : State) : List Int := (v.fields.take 72).zipIdx.map fun p => vcmDrop p.2 p.1 s

/-- Insert into a rising list. -/
def insertUp (a : Int) : List Int → List Int
  | [] => [a]
  | b :: bs => if a ≤ b then a :: b :: bs else b :: insertUp a bs

/-- Twice the median of a list. -/
def median2 (l : List Int) : Int :=
  let r := l.foldl (fun acc x => insertUp x acc) []
  let n := r.length
  if n % 2 = 1 then 2 * r.getD (n / 2) 0 else r.getD (n / 2 - 1) 0 + r.getD (n / 2) 0

/-- A load step is in progress at the newest sample of a list (R385). (DEDUCED, unsafe: log entry 49.) -/
def loadStepNow (l : List Nat) : Bool :=
  match l[0]?, l[16]? with
  | some a, some b => decide (b < a) && decide (11 * b ≤ 10 * a)
  | _, _ => false

/-- The VCM rail at a sample: its current, its load steps (R385). -/
def sampleRail (v : VoltSample) (s : State) : State :=
  let n := s.power.samples + 1
  let vcm := (v.vcmA :: s.power.vcm).take 18
  let now := loadStepNow vcm
  let began := now && !loadStepNow (vcm.drop 1)
  let steps := (if began then [n] else []) ++ s.power.loadSteps.filter fun k => decide (n ≤ k + 32)
  let low := (lowestOf ((v.fields.take 72).zipIdx.filterMap fun p => lowVcm p.2 p.1 s)).getD (rd F.VCM_MON.MV s)
  { s with power := { s.power with samples := n, vcm := vcm, loadSteps := steps, loadLast := if now then some n else s.power.loadLast } }
    |> wr F.VCM_MON.MV low |> wr F.VCM_MON.A (satN 10 v.vcmA)

/-- Every working phase of a field is at its current limit (R383). -/
def atLimit (f : Nat) (x : FieldVolt) (s : State) : Bool :=
  (List.range 16).all fun p => phaseFailed f p s || decide (48 ≤ x.phases.getD p 0)

/-- The mean phase current of a field is 8 A or more, and a phase stands more than 40% away from the mean of the others (R382): with n
working phases of sum Σ, |(n − 1) i − (Σ − i)| × 10 > 4 (Σ − i). -/
def standsApart (f p : Nat) (x : FieldVolt) (s : State) : Bool :=
  let work := (List.range 16).filter fun k => !phaseFailed f k s
  let n := work.length
  let sum := total (work.map fun k => x.phases.getD k 0)
  let i := x.phases.getD p 0
  work.contains p && decide (2 ≤ n) && decide (8 * n ≤ sum) && decide (4 * (sum - i) < 10 * dist ((n - 1) * i) (sum - i))

/-- Samples in a row of each phase that stands apart (R382). -/
def countApart (f : Nat) (x : FieldVolt) (old : Table Nat) (s : State) : Table Nat :=
  (List.range 16).foldl (fun t p =>
    Table.set (fun _ => 0) t p (if standsApart f p x s then Table.get (fun _ => 0) old p + 1 else 0)) []

/-- One field at a sample, and whether a VCM event is declared in it (R383, R385). `m2` is twice the median of d_f. -/
def sampleField (m2 : Int) (f : Nat) (v : FieldVolt) (s : State) : Bool × State :=
  let x := fieldPower f s
  let n := s.power.samples
  let d := vcmDrop f v s
  let amps := total v.phases
  let explained := s.power.loadLast.any fun k => decide (n ≤ k + 16)
  let dip := if 20 ≤ d then x.dip + 1 else 0
  let drop := if m2 + 30 ≤ 2 * d then x.localDrop + 1 else 0
  let dipExplained := if x.dip = 0 then explained else x.dipExplained
  let low := lowVcl f v s
  let sag := low.any (fun u => decide (u + 50 < vclSet f s)) && atLimit f v s
  let y : FieldPower := { x with
    vclSum := x.vclSum + amps, vclCount := x.vclCount + 1, sagged := x.sagged + bitN sag, dip := dip, dipExplained := dipExplained,
    localDrop := drop, apart := countApart f v x.apart s }
  let declared := (dip == 4 && !dipExplained) || drop == 4 || (decide (1 ≤ dip) && s.power.loadSteps.contains (n - 32))
  (declared, setFieldPower f y (wr (F.FLD_VCL.A f) (satN 10 amps) (wr (F.FLD_VCL.MV f) (low.getD (rd (F.FLD_VCL.MV f) s)) s)))

/-- Every field at a sample; the fields in which an event is declared. -/
def sampleFields (m2 : Int) : Nat → List FieldVolt → State → List Nat × State
  | _, [], s => ([], s)
  | f, v :: vs, s =>
    let r := sampleField m2 f v s
    let q := sampleFields m2 (f + 1) vs r.2
    (if r.1 then f :: q.1 else q.1, q.2)

/-- Steps 1 and 2 of R386 in one field. -/
def markSuspect (f : Nat) (s : State) : State :=
  warn 0x05 f F.PWR_STS.VCM_EVENT (raise (F.FLD_PWR_STS.VCM_EVENT f)
    (journal 0x0C [f, 0x100, 1] .none (wr (F.FLD_PWR_STATE.VCM_SUSPECT f) 1 s)))

/-- Fields of an event not yet over, but those already in a list. -/
def waitingFields (fs : List Nat) (s : State) : List Nat :=
  match s.power.event with
  | some e => e.fields.filter fun f => !fs.contains f
  | none => []

/-- A VCM event is declared in these fields (R386); a second one within 2,048 samples is fatal (R387), and a later one takes in the
fields of one that still waits for its step 4 (R407). (DEDUCED, unsafe: log entry 49.) -/
def vcmEvent (fs : List Nat) (s : State) : State :=
  let n := s.power.samples
  if s.power.lastEvent.any fun k => decide (n ≤ k + 2048) then fatalPower 2 s
  else
    let s1 := holdFw 2 { s with power := { s.power with event := some ⟨fs ++ waitingFields fs s, n, 0, false⟩, lastEvent := some n } }
    forEach fs markSuspect s1

/-- Declared fields that no event which has yet to recover names already. (DEDUCED, unsafe: log entry 49.) -/
def newlyDeclared (fs : List Nat) (s : State) : List Nat :=
  match s.power.event with
  | some e => if e.done then fs else fs.filter fun f => !e.fields.contains f
  | none => fs

/-- The event in progress recovers for as long as all its fields are calm: at 64 samples it has (R386). -/
def countCalm (v : VoltSample) (s : State) : State :=
  let calm := fun (e : VcmEvent) => e.fields.all fun f => (v.fields[f]?).all fun x => decide (vcmDrop f x s ≤ 10)
  let next := fun (e : VcmEvent) => if calm e then e.calm + 1 else 0
  { s with power := { s.power with event := s.power.event.map fun e => { e with calm := next e, done := e.done || decide (64 ≤ next e) } } }

/-- Phases that have stood apart at 32 samples in a row (R382). -/
def phasesApart (s : State) : List (Nat × Nat) :=
  (List.range 72).flatMap fun f => ((fieldPower f s).apart.filter fun p => decide (32 ≤ p.2)).map fun p => (f, p.1)

/-- They are failed (R382, R384). -/
def failApart (s : State) : State := forEach (phasesApart s) (fun p => phaseFault p.1 p.2) s

/-- VOLTAGE_SAMPLE (R375, R380, R382, R383, R385 to R387, R392). -/
def voltageSample (v : VoltSample) (s : State) : State :=
  let s1 := sampleRail v (sampleInput v (atTime v.t s))
  let r := sampleFields (median2 (vcmDrops v s1)) 0 (v.fields.take 72) s1
  let s2 := failApart (countCalm v r.2)
  match newlyDeclared r.1 s2 with
  | [] => s2
  | fs => vcmEvent fs s2

/-- VOLTAGE_SAMPLE. -/
def execVoltageSample (v : VoltSample) (s : State) : Host.Outcome State Fault Refusal := .next (voltageSample v s)

/-- Bound cells of running images in fields. -/
def boundIn (fs : List Nat) (s : State) : List Nat :=
  (runningModels s).flatMap fun m => (image m s).cells.filter fun c => fs.contains (fieldOfCell c)

/-- VCM_RECOVERED (R386 step 4, R407): the drop has stayed away for 64 samples; the images with a bound cell in the fields restart and
those cells are rewritten. During a coolant stop this waits. -/
def vcmRecovered (s : State) : State :=
  match s.power.event with
  | none => s
  | some e =>
    if !e.done ∨ coolStop s ∨ s.faults.stopped then s
    else
      let cs := boundIn e.fields s
      let ms := (runningModels s).filter fun m => (image m s).cells.any cs.contains
      let s1 := restartImages false ms { s with power := { s.power with event := none } }
      releaseFw 2 (modJob (fun j => { j with reload := j.reload ++ without cs j.reload }) s1)

/-- VCM_RECOVERED. -/
def execVcmRecovered (s : State) : Host.Outcome State Fault Refusal := .next (vcmRecovered s)

/-- VCM_NORECOVER (R387): the event has not recovered within 1,024 samples. -/
def vcmNorecover (s : State) : State :=
  match s.power.event with
  | some e => if !e.done ∧ e.sample + 1024 ≤ s.power.samples then fatalPower 3 s else s
  | none => s

/-- VCM_NORECOVER. -/
def execVcmNorecover (s : State) : Host.Outcome State Fault Refusal := .next (vcmNorecover s)

end Sys2Proof.Machine
end

