-- ==== Sys2Proof/Machine/Thermal.lean ====
section
/-!
DEFINITION. Junction and stack temperatures, the trip, the coolant (R393 to R408, R410, R411, R418), and the filters of the pins that
carry it (R486, R488, R491).
-/
namespace Sys2Proof.Machine
open Sys2Proof

/-- Core cycles of a microsecond (R11). -/
def usCycles : Nat := 2100

/-! ### Power-off (R397, R406, R494) -/

/-- Assert `PWR_OFF_REQ`: it stays until power is lost. -/
def assertPwrOff (s : State) : State := wr F.PIN_STATE.PWR_OFF_REQ 1 { s with power := { s.power with pwrOff := true } }

/-- PWR_OFF_REQ (R397): 5 ms after a critical sample it is asserted at the latest. -/
def execPwrOffReq (s : State) : Host.Outcome State Fault Refusal := .next (when s.power.critical assertPwrOff s)

/-- A critical temperature (R397, R399). -/
def criticalHeat (s : State) : State := fatalWith 0x09 0 0 .thermalFatal { s with power := { s.power with critical := true } }

/-- THERMAL_TRIP (R398): an analogue circuit reads 125 °C; the trip is latched on the power board. -/
def execThermalTrip (s : State) : Host.Outcome State Fault Refusal :=
  .next (assertPwrOff { s with power := { s.power with tripCell := true } })

/-! ### Pairs (R394, R395) -/

/-- A reading that the W3 discards (R394, R435): below the inlet, at full scale, or of a sensor that failed its self-test. -/
def discarded (ref id code : Nat) (s : State) : Bool :=
  decide (code < ref) || decide (511 ≤ code) || s.power.badSensors.contains id

/-- A pair is SUSPECT. -/
def suspect (f p : Nat) (s : State) : Bool := bitsOf (rd (F.FLD_TEMP.SUSPECT f) s) p 1 == 1

/-- One pair at a thermal sample: its value where it gives one. -/
def samplePair (ref f p : Nat) (r : Nat × Nat) (s : State) : Option Nat × State :=
  let da := discarded ref (f * 32 + p * 2) r.1 s
  let db := discarded ref (f * 32 + p * 2 + 1) r.2 s
  let sus := suspect f p s
  let x := fieldPower f s
  let n := if !da && !db && decide (12 < dist r.1 r.2) then Table.get (fun _ => 0) x.disagree p + 1 else 0
  let s1 := setFieldPower f { x with disagree := Table.set (fun _ => 0) x.disagree p n } s
    |> wr (F.FLD_PAIR.A f p) (satN 9 r.1) |> wr (F.FLD_PAIR.B f p) (satN 9 r.2)
    |> wrB (F.FLD_PAIR.A_DISC f p) da |> wrB (F.FLD_PAIR.B_DISC f p) db |> wrB (F.FLD_PAIR.SUSPECT f p) sus
  let v :=
    if !da && !db then some (max r.1 r.2 + (if sus then 4 else 0))
    else if !da then some (r.1 + 4)
    else if !db then some (r.2 + 4)
    else none
  (v, s1)

/-- The pairs of a field: largest value and the pair that gives it, the lowest of equals. -/
def samplePairs (ref f : Nat) : Nat → List (Nat × Nat) → State → Option (Nat × Nat) × State
  | _, [], s => (none, s)
  | p, r :: rs, s =>
    let a := samplePair ref f p r s
    let b := samplePairs ref f (p + 1) rs a.2
    let best := match a.1, b.1 with
      | none, y => y
      | some v, none => some (v, p)
      | some v, some (w, q) => if v < w then some (w, q) else some (v, p)
    (best, b.2)

/-- A rise of G_therm from 0 (R396). -/
def throttleRise (f was g : Nat) (s : State) : State :=
  when (was == 0 && decide (0 < g)) (fun t => warn 0x07 f F.THR_STS.THROTTLE (raise (F.FLD_PWR_STS.THROTTLE f) t)) s

/-- G_therm follows T_f (R396). -/
def followHeat (f t : Nat) (s : State) : State :=
  let x := fieldPower f s
  let since := x.sinceChange + 1
  let g := if 190 ≤ t then min 15 (x.gTherm + 1) else if t < 186 ∧ 8 ≤ since then x.gTherm - 1 else x.gTherm
  throttleRise f x.gTherm g (setFieldPower f { x with
    gTherm := g, sinceChange := if g = x.gTherm then since else 0, noPairs := 0, noPairsHold := false } s)

/-- One field at a thermal sample (R394 to R396); true where it is critical. (DEDUCED, unsafe: log entry 50.) -/
def sampleHeat (ref f : Nat) (rs : List (Nat × Nat)) (s : State) : Bool × State :=
  let r := samplePairs ref f 0 (rs.take 16) s
  match r.1 with
  | some (t, p) => (decide (220 ≤ t), followHeat f t (wr (F.FLD_TEMP.PAIR f) p (wr (F.FLD_TEMP.T f) (satN 9 t) r.2)))
  | none =>
    let x := fieldPower f r.2
    (false, setFieldPower f { x with noPairs := min 8 (x.noPairs + 1), sinceChange := x.sinceChange + 1 } r.2)

/-- Every field at a thermal sample. -/
def sampleHeats (ref : Nat) : Nat → List (List (Nat × Nat)) → State → Bool × State
  | _, [], s => (false, s)
  | f, rs :: rest, s =>
    let a := sampleHeat ref f rs s
    let b := sampleHeats ref (f + 1) rest a.2
    (a.1 || b.1, b.2)

/-- Fields of a wave of the self-test (R434). -/
def waveFields (w : Nat) : List Nat := (List.range 72).filter fun f => (f % 9 + 2 * (f / 9)) % 9 == w

/-- A field under test that has reached 95 °C ends its test at once (R436): its results are incomplete. -/
def heatEndsTest (s : State) : State :=
  let hot := (waveFields (rd F.BOOT_STATE.WAVE s)).filter fun f =>
    decide (190 ≤ rd (F.FLD_TEMP.T f) s) && !s.boot.bistHot.contains f
  if rd F.BOOT_STATE.MODE s = 3 ∧ s.boot.shutdown = 4 ∧ hot ≠ [] then
    { s with boot := { s.boot with bistHot := s.boot.bistHot ++ hot, bistOk := false } }
  else s

/-- The largest T_f and its field (R410). -/
def showHottest (s : State) : State :=
  let best := (List.range 72).foldl (fun (b : Nat × Nat) f =>
    if b.1 < rd (F.FLD_TEMP.T f) s then (rd (F.FLD_TEMP.T f) s, f) else b) (0, 0)
  wr F.THR_MAX.FIELD best.2 (wr F.THR_MAX.T best.1 s)

/-- One stack's temperature (R205, R399): each rise to 95 °C is an occasion. (DEDUCED, unsafe: log entry 50.) -/
def sampleStack (n t : Nat) (s : State) : State :=
  let was := rd (F.HS_STATE.TEMP n) s
  wr (F.HS_STATE.TEMP n) (satN 8 t) s |> when (decide (85 < t)) (raise (F.HS_STS.TEMP n))
    |> when (decide (was < 95) && decide (95 ≤ t)) (warn 0x0A 0 F.THR_STS.STACK_HOT)

/-- Stack temperatures in order. -/
def sampleStacks : Nat → List Nat → State → State
  | _, [], s => s
  | n, t :: ts, s => sampleStacks (n + 1) ts (sampleStack n t s)

/-- A temperature in half degrees as its register of `w` bits shows it. (DEDUCED, unsafe: log entry 50.) -/
def tempCode (w : Nat) (t : Int) : Nat := satN w t.toNat

/-- The coolant temperature readings (R22, R394, R408). -/
def sampleInlet (v : ThermSample) (s : State) : State :=
  let s1 := wr F.COOL_TEMP.INLET (tempCode 9 v.inlet) (wr F.COOL_TEMP.OUTLET (satN 9 v.outlet) s)
  if 50 ≤ v.inlet ∧ v.inlet ≤ 90 then { s1 with power := { s1.power with inletOff := false } } else s1

/-- THERMAL_SAMPLE (R393 to R397, R399). -/
def thermalSample (v : ThermSample) (s : State) : State :=
  let ref := if 0 ≤ v.inlet ∧ v.inlet ≤ 200 then v.inlet.toNat else 40
  let s1 := sampleInlet v (atTime v.t { s with power := { s.power with thermals := s.power.thermals + 1 } })
  let r := sampleHeats ref 0 (v.pairs.take 72) s1
  let s2 := sampleStacks 0 (v.hbm.take 12) (heatEndsTest (showHottest r.2))
  when (r.1 || (v.hbm.take 12).any fun t => decide (105 ≤ t)) criticalHeat s2

/-- THERMAL_SAMPLE. -/
def execThermalSample (v : ThermSample) (s : State) : Host.Outcome State Fault Refusal := .next (thermalSample v s)

/-- PAIR_SUSPECT (R394): a pair has disagreed at 8 samples in a row. -/
def pairSuspect (f p : Nat) (s : State) : State :=
  if 72 ≤ f ∨ 16 ≤ p ∨ suspect f p s ∨ Table.get (fun _ => 0) (fieldPower f s).disagree p < 8 then s
  else
    let s1 := wr (F.FLD_PAIR.SUSPECT f p) 1 (wr (F.FLD_TEMP.SUSPECT f) (rd (F.FLD_TEMP.SUSPECT f) s + 2 ^ p) s)
    warn 0x08 f F.THR_STS.PAIR_SUSPECT (raise (F.FLD_PWR_STS.PAIR_SUSPECT f) (journal 0x0C [f, p, 1] .none s1))

/-- PAIR_SUSPECT. -/
def execPairSuspect (f p : Nat) (s : State) : Host.Outcome State Fault Refusal := .next (pairSuspect f p s)

/-- NO_PAIRS (R395): no pair has given a value at 8 samples in a row. -/
def noPairs (f : Nat) (s : State) : State :=
  let x := fieldPower f s
  if 72 ≤ f ∨ x.noPairs < 8 ∨ x.noPairsHold then s
  else
    let g := max 8 x.gTherm
    let s1 := setFieldPower f { x with
      noPairsHold := true, gTherm := g, sinceChange := if g = x.gTherm then x.sinceChange else 0 } s
    throttleRise f x.gTherm g (warn 0x09 f F.THR_STS.NO_PAIRS (raise (F.FLD_PWR_STS.NO_PAIRS f) s1))

/-- NO_PAIRS. -/
def execNoPairs (f : Nat) (s : State) : Host.Outcome State Fault Refusal := .next (noPairs f s)

/-- INLET (R408): the supply coupling has read outside 25 °C to 45 °C for 1 s. -/
def inletWarn (s : State) : State :=
  let t := rd F.COOL_TEMP.INLET s
  if (t < 50 ∨ 90 < t) ∧ !s.power.inletOff then warn 0x0F 0 F.THR_STS.INLET { s with power := { s.power with inletOff := true } } else s

/-- INLET. -/
def execInlet (s : State) : Host.Outcome State Fault Refusal := .next (inletWarn s)

/-! ### Flow (R401 to R403) -/

/-- Flow pulses of the last 256 ms. -/
def flowPulses (s : State) : Nat := total s.power.pulses

/-- FLOW_K. -/
def flowK (s : State) : Nat := rd F.COOL_CFG.FLOW_K s

/-- F is at least `x` L/min: N × 60 / (0.256 × FLOW_K) ≥ x. -/
def flowAtLeast (x : Nat) (s : State) : Bool := decide (x * 256 * flowK s ≤ flowPulses s * 60000)

/-- FLOW_PULSE (R486, R488): an edge high for less than 5 µs is ignored, one within 250 µs of the previous edge is noise. -/
def flowPulse (t highNs : Nat) (s0 : State) : State :=
  if highNs < 5000 then s0
  else
    let s := atTime t s0
    let noise := s.mgmt.flowEdge.any fun e => decide (t < e + 250 * usCycles)
    let s1 := { s with mgmt := { s.mgmt with flowEdge := some t } }
    if noise then
      raise F.PIN_STS.FLOW_NOISE (bump F.FLOW_NOISE_CNT { s1 with mgmt := { s1.mgmt with
        noiseSince := s1.mgmt.noiseSince + 1, noiseAt := some (s1.mgmt.noiseAt.getD t) } })
    else { s1 with power := { s1.power with pulseNow := s1.power.pulseNow + 1, lastPulse := some t } }

/-- FLOW_PULSE. -/
def execFlowPulse (t highNs : Nat) (s : State) : Host.Outcome State Fault Refusal := .next (flowPulse t highNs s)

/-- FLOW_NOISE (R499): the event for the edges rejected in a second. -/
def flowNoise (t : Nat) (s : State) : State :=
  if s.mgmt.noiseAt.any fun a => decide (a + 1000000 * usCycles ≤ t) then
    pldm 0x29 s.mgmt.noiseSince { atTime t s with mgmt := { s.mgmt with noiseSince := 0, noiseAt := none } }
  else s

/-- FLOW_NOISE. -/
def execFlowNoise (t : Nat) (s : State) : Host.Outcome State Fault Refusal := .next (flowNoise t s)

/-- A coolant state is entered (R402): LOW45 and LOW30 warn. -/
def enterCool (n : Nat) (s : State) : State :=
  let s1 := wr F.COOL_STATE.STATE n s
  if n = 1 then warn 0x0B 0 F.THR_STS.FLOW_45 s1 else if n = 2 then warn 0x0C 0 F.THR_STS.FLOW_30 s1 else s1

/-- The state that F leads to (R402): LOW30 goes before LOW45. (DEDUCED, unsafe: log entry 51.) -/
def nextCool (st : Nat) (r : FlowRuns) : Nat :=
  if st ≠ 2 ∧ 4 ≤ r.lt30 then 2
  else if st = 0 ∧ 4 ≤ r.lt45 then 1
  else if st = 2 ∧ 4 ≤ r.ge33 then 1
  else if st = 1 ∧ 4 ≤ r.ge48 then 0
  else st

/-- FLOW_UPDATE (R401 to R403): every 16 ms; an update with FLOW_K 0 meets no condition of R402, so it ends every run. -/
def flowUpdate (s : State) : State :=
  let now := s.power.pulseNow
  let s1 := { s with power := { s.power with pulses := (now :: s.power.pulses).take 16, pulseNow := 0 } }
  if flowK s1 = 0 then
    wr F.COOL_STATE.FLOW 0 (wr F.COOL_STATE.ARMED 0 { s1 with power := { s1.power with runs := ⟨0, 0, 0, 0⟩ } })
  else
    let s2 := wr F.COOL_STATE.FLOW (satN 10 (nearest (flowPulses s1 * 600000) (256 * flowK s1))) s1
    let s3 := if now = 0 then s2 else wrB F.COOL_STATE.ARMED (flowAtLeast 30 s2) s2
    let step := fun (b : Bool) (n : Nat) => if b then n + 1 else 0
    let r := s3.power.runs
    let r1 : FlowRuns := ⟨step (flowAtLeast 48 s3) r.ge48, step (!flowAtLeast 45 s3) r.lt45, step (!flowAtLeast 30 s3) r.lt30,
      step (flowAtLeast 33 s3) r.ge33⟩
    let s4 := { s3 with power := { s3.power with runs := r1 } }
    let st := coolSt s4
    if 3 ≤ st ∨ nextCool st r1 = st then s4 else enterCool (nextCool st r1) s4

/-- FLOW_UPDATE. -/
def execFlowUpdate (s : State) : Host.Outcome State Fault Refusal := .next (flowUpdate s)

/-! ### Coolant stop (R403 to R405) -/

/-- R403 applies once the start is over (R507). -/
def coolWatched (s : State) : Bool := rd F.BOOT_STATE.MODE s != 0

/-- STOPPING is entered (R404 steps 1 and 2). -/
def enterStopping (t : Nat) (s : State) : State :=
  if coolStop s ∨ !coolWatched s then s
  else
    let s1 := wr F.COOL_STATE.ARMED 0 (wr F.COOL_STATE.STATE 3 { s with power := { s.power with coolTrigger := t } })
    warn 0x0D 0 F.THR_STS.COOL_STOP (bump F.COOL_STOP_CNT s1)

/-- FLOW_PULSE_TIMEOUT (R403): ARMED, and no accepted pulse for 50 ms. -/
def flowPulseTimeout (t : Nat) (s : State) : State :=
  if on F.COOL_STATE.ARMED s ∧ (s.power.lastPulse.all fun p => decide (p + 50000 * usCycles ≤ t)) then
    enterStopping t (atTime t s)
  else s

/-- FLOW_PULSE_TIMEOUT. -/
def execFlowPulseTimeout (t : Nat) (s : State) : Host.Outcome State Fault Refusal := .next (flowPulseTimeout t s)

/-- COOL_OK (R403, R486, R491): a level held for 1 ms is taken; one from 10 µs up to that is a glitch. -/
def coolOk (level : Bool) (heldUs t : Nat) (s0 : State) : State :=
  let s := atTime t s0
  if heldUs < 10 ∨ level = s.mgmt.coolOk then s
  else if heldUs < 1000 then raise F.PIN_STS.COOL_GLITCH (bump F.COOL_GLITCH_CNT s)
  else
    let s1 := wrB F.PIN_STATE.COOL_OK level (wrB F.COOL_STATE.COOL_OK level { s with mgmt := { s.mgmt with coolOk := level } })
    if level then s1 else enterStopping t s1

/-- Ledger entries that neither have committed nor wait for a replay. -/
def inFlight (s : State) : List LedgerEntry := s.ledger.entries.filter fun e => e.state != .committed && !e.replay

/-- COOLANT_STOPPED (R404 step 3): every step in flight has committed, or 2 ms have passed since the trigger. -/
def coolantStopped (s : State) : State :=
  let es := inFlight s
  if coolSt s = 3 ∧ (es = [] ∨ s.power.coolTrigger + 2000 * usCycles ≤ s.now) then
    forEach es markReplay (wr F.COOL_STATE.STATE 4 (holdFw 3 s))
  else s

/-- COOLANT_STOPPED. -/
def execCoolantStopped (s : State) : Host.Outcome State Fault Refusal := .next (coolantStopped s)

/-- Resumption is possible (R405): a field whose pairs give no value holds it back. (DEDUCED, unsafe: log entry 51.) -/
def coolReady (s : State) : Bool :=
  coolSt s == 4 && s.mgmt.coolOk && (flowK s == 0 || flowAtLeast 45 s) && s.power.thermals != 0 &&
    (List.range 72).all fun f => (fieldPower f s).noPairs == 0 && decide (rd (F.FLD_TEMP.T f) s < 170)

/-- COOLANT_RESUME (R405): the conditions have held for 1 s; every running image restarts. -/
def coolantResume (s : State) : State :=
  if coolReady s then
    let s1 := warn 0x0E 0 F.THR_STS.COOL_RESUME (wr F.COOL_STATE.STATE 0 s)
    releaseFw 3 (if s1.faults.stopped then s1 else restartImages false (runningModels s1) s1)
  else s

/-- COOLANT_RESUME. -/
def execCoolantResume (s : State) : Host.Outcome State Fault Refusal := .next (coolantResume s)

/-- COOL_CFG_WRITE (R401): FLOW_K is 0 or 200 to 1,333. (DEDUCED, unsafe: log entry 51.) -/
def coolCfgWrite (v : Word) (s : State) : State :=
  let k := fieldOf v 0 11
  if k = 0 then raise F.THR_STS.CFG (wr F.COOL_STATE.ARMED 0 (wr F.COOL_CFG.FLOW_K 0 s))
  else if k < 200 ∨ 1333 < k then raise F.THR_STS.CFG s
  else wr F.COOL_CFG.FLOW_K k s

/-- COOL_CFG_WRITE. -/
def execCoolCfgWrite (v : Word) (s : State) : Host.Outcome State Fault Refusal := .next (coolCfgWrite v s)

/-! ### The thermal and power history (R418) -/

/-- HISTORY (R418): every 60 s a record of the largest T_f and its field, the largest stack temperature, `PWR_IN`, the increase of
`HOLD_GATE_CNT` and the sensor faults. -/
def history (t : Nat) (s0 : State) : State :=
  if t < s0.power.historyAt + 60000000 * usCycles then s0
  else
    let s := atTime t s0
    let hot := ((List.range 12).map fun n => rd (F.HS_STATE.TEMP n) s).foldl max 0
    let gate := cnt F.HOLD_GATE_CNT s
    let s1 := { s with power := { s.power with historyAt := t, gateBase := gate, sensorFaults := 0 } }
    journal 0x0D [rd F.THR_MAX.T s, rd F.THR_MAX.FIELD s, hot, rd F.PWR_IN.VALUE s, gate - s.power.gateBase, s.power.sensorFaults]
      .none s1

/-- HISTORY. -/
def execHistory (t : Nat) (s : State) : Host.Outcome State Fault Refusal := .next (history t s)

end Sys2Proof.Machine
end

