-- ==== Sys2Proof/Machine/Journal.lean ====
section
/-!
DEFINITION. The journal in the NOR device: areas, records and their units, durable writing, pressing, erasing (R416 to R420).
-/
namespace Sys2Proof.Machine
open Sys2Proof

/-! ### Areas and units (R413, R416, R417) -/

/-- Number of the active area. -/
def activeArea (s : State) : Nat := rd F.JRNL_STATE.AREA s

/-- A journal area. -/
def area (n : Nat) (s : State) : JArea := if n = 0 then s.boot.area0 else s.boot.area1

/-- Store a journal area. -/
def setArea (n : Nat) (a : JArea) (s : State) : State :=
  if n = 0 then { s with boot := { s.boot with area0 := a } } else { s with boot := { s.boot with area1 := a } }

/-- Units of 64 bytes in an area of 64 MiB (R413, R417). -/
def areaUnits : Nat := 1048576

/-- Units of a record (R417, R418): the START, SHUTDOWN, BIST and TRAIN records take more than one.
(PRESUMED, unsafe: log entry 52.) -/
def recUnits (type : Nat) : Nat :=
  if type = 0x01 ∨ type = 0x08 then 2 else if type = 0x07 ∨ type = 0x09 then 4 else 1

/-- First unit of a record of `u` units: it lies within one 256-byte page (R417). -/
def placeUnit (pos u : Nat) : Nat := if pos % 4 + u ≤ 4 then pos else (pos / 4 + 1) * 4

/-- SEQ of the last record of an area; 0 when it holds none. -/
def lastSeq (a : JArea) : Nat := (a.recs.getLast?.map (·.seq)).getD 0

/-- Records of an area that another record of this type follows or not: the last of a type. -/
def lastOf (type : Nat) (l : List JRecord) : Option JRecord := l.reverse.find? (·.type == type)

/-- A record fits behind those of an area. -/
def fits (a : JArea) (type : Nat) : Bool := decide (placeUnit a.units (recUnits type) + recUnits type ≤ areaUnits)

/-- The SHUTDOWN record names the BIST record by the SEQ it has in its area (R418); a 1 in its place asks for it. -/
def fixPayload (a : JArea) (type : Nat) (payload : List Nat) : List Nat :=
  match decide (type = 0x08), payload with
  | true, [c, u, ok, b] => [c, u, ok, if b = 0 then 0 else ((lastOf 0x07 a.recs).map (·.seq)).getD 0]
  | _, p => p

/-- Append a record to an area (R417). -/
def appendTo (a : JArea) (type start stamp : Nat) (payload : List Nat) : JArea :=
  { a with
    recs := a.recs ++ [⟨lastSeq a + 1, type, start, stamp, fixPayload a type payload⟩]
    units := placeUnit a.units (recUnits type) + recUnits type }

/-- The program of a record fails its read-back: the page that it was to lie in is left and not used again (R417, R419). -/
def failProgram (a : JArea) (type : Nat) : JArea :=
  { a with units := (placeUnit a.units (recUnits type) / 4 + 1) * 4, fails := a.fails + 1 }

/-- FILL and SEQ show the active area (R437). -/
def showJournal (s : State) : State :=
  let a := area (activeArea s) s
  wr F.JRNL_SEQ.SEQ (lastSeq a) (wr F.JRNL_STATE.FILL (a.units * 100 / areaUnits) s)

/-! ### Pressing (R420) -/

/-- The outcome of a start that reached READY (R418). -/
def isReadyOutcome (r : JRecord) : Bool := r.type == 0x02 && r.payload.headD 1 == 0

/-- Two records speak of the same sensor or stack. -/
def samePlace (a b : JRecord) (n : Nat) : Bool := a.type == b.type && a.payload.take n == b.payload.take n

/-- A record is live state, by what follows it in the area (R420). The START and OUTCOME records of the last READY count as "since the
last READY": `START_CNT` is read from them. -/
def isLive (r : JRecord) (rest : List JRecord) : Bool :=
  if r.type = 0x03 ∨ r.type = 0x0B ∨ r.type = 0x0A then true
  else if r.type = 0x0C then r.payload.getD 2 0 == 1 && !(rest.any fun x => samePlace r x 2)
  else if r.type = 0x09 then !(rest.any fun x => samePlace r x 1)
  else if r.type = 0x05 then !(rest.any fun x => samePlace r x 1 && decide (r.payload.getD 1 0 ≤ x.payload.getD 1 0))
  else if r.type = 0x06 ∨ r.type = 0x08 then !(rest.any fun x => x.type == r.type)
  else if r.type = 0x07 then !((rest.dropWhile fun x => x.type == 0x07).any fun x => x.type == 0x07)
  else if r.type = 0x01 then
    let more := rest.filter isReadyOutcome
    more.isEmpty || (more.length == 1 && (rest.takeWhile fun x => x.type != 0x01).any isReadyOutcome)
  else if r.type = 0x02 ∨ r.type = 0x10 then !(rest.any isReadyOutcome)
  else if r.type = 0x0D then decide ((rest.filter fun x => x.type == 0x0D).length < 1024)
  else if r.type = 0x0E ∨ r.type = 0x0F then decide ((rest.filter fun x => x.type == 0x0E || x.type == 0x0F).length < 64)
  else false

/-- The live records of an area, in order. -/
def liveRecords : List JRecord → List JRecord
  | [] => []
  | r :: rest => if isLive r rest then r :: liveRecords rest else liveRecords rest

/-- Append copies of records. -/
def appendAll (l : List JRecord) (a : JArea) : JArea := l.foldl (fun x r => appendTo x r.type r.start r.stamp r.payload) a

/-- An area has failed: three programs in it have failed their read-back (R419). (DEDUCED, unsafe: log entry 53.) -/
def areaFailed (a : JArea) : Bool := decide (3 ≤ a.fails)

/-- The active area calls for pressing (R419, R420): past 75% full, or failed. -/
def wantsPress (s : State) : Bool :=
  let a := area (activeArea s) s
  areaFailed a || decide (areaUnits * 3 < a.units * 4)

/-- Pressing starts (R420 steps 1 and 2), when the other area is erased and has not failed. -/
def pressStart (s : State) : State :=
  let n := activeArea s
  let a := area n s
  let b := area (1 - n) s
  if wantsPress s ∧ !on F.JRNL_STATE.PRESSING s ∧ b.state = .erased ∧ !areaFailed b then
    let fresh : JArea := { gen := a.gen + 1, state := .opening, recs := [], units := 4, fails := b.fails }
    wr F.JRNL_STATE.PRESSING 1
      (setArea (1 - n) (appendAll (liveRecords a.recs) fresh) { s with boot := { s.boot with pressing := [] } })
  else s

/-- PRESS_COMPLETE (R420 steps 3 to 5): what was recorded meanwhile is appended; the new area is ACTIVE, the old one RETIRED and then
erased. -/
def pressComplete (s : State) : State :=
  if on F.JRNL_STATE.PRESSING s then
    let n := activeArea s
    let s1 := setArea (1 - n) { appendAll s.boot.pressing (area (1 - n) s) with state := .active }
      (setArea n { area n s with state := .retired } { s with boot := { s.boot with pressing := [] } })
    let s2 := wr F.JRNL_STATE.ERASING 1 (wr F.JRNL_STATE.PRESSING 0 (wr F.JRNL_STATE.AREA (1 - n) s1))
    raise F.BOOT_STS.PRESS (showJournal s2)
  else s

/-- PRESS_COMPLETE. -/
def execPressComplete (s : State) : Host.Outcome State Fault Refusal := .next (pressComplete s)

/-- JOURNAL_ERASE_DONE (R420): the other area is erased and may be pressed into. -/
def journalEraseDone (s : State) : State :=
  if on F.JRNL_STATE.ERASING s then
    let n := 1 - activeArea s
    pressStart (wr F.JRNL_STATE.ERASING 0 (setArea n { JArea.reset with fails := (area n s).fails } s))
  else s

/-- JOURNAL_ERASE_DONE. -/
def execJournalEraseDone (s : State) : Host.Outcome State Fault Refusal := .next (journalEraseDone s)

/-! ### Writing records (R419) -/

/-- A record is durable: it stands in the active area, and while pressing runs it goes to the new area as well (R420). -/
def durable (p : JPending) (s : State) : State :=
  let n := activeArea s
  let start := rd F.START_CNT.VALUE s % 65536
  let s1 := setArea n (appendTo (area n s) p.type start p.stamp p.payload) s
  let s2 := if on F.JRNL_STATE.PRESSING s then
      { s1 with boot := { s1.boot with pressing := s1.boot.pressing ++ [⟨0, p.type, start, p.stamp, p.payload⟩] } }
    else s1
  pressStart (showJournal s2)

/-- Both areas have failed (R419): nothing more is recorded. -/
def journalFail (s : State) : State :=
  pldm 0x27 0 (raise F.BOOT_STS.JRNL_FAIL { s with boot := { s.boot with failed := true, waiting := [] } })

/-- The active area can take records. -/
def journalUp (s : State) : Bool := decide ((area (activeArea s) s).state = .active) && !s.boot.failed

/-- The program of a record has failed its read-back (R419). (DEDUCED, unsafe: log entry 53.) -/
def programFailed (type : Nat) (s : State) : State :=
  let n := activeArea s
  let s1 := setArea n (failProgram (area n s) type) s
  if areaFailed (area n s1) && areaFailed (area (1 - n) s1) then journalFail s1 else pressStart (showJournal s1)

/-- The first waiting record is programmed and read back (R419): what follows its durability, where it is durable. A full area waits for
pressing; with the other area failed there is none. (DEDUCED, unsafe: log entry 53.) -/
def journalStep (ok : Bool) (s : State) : Option Durable × State :=
  match s.boot.waiting with
  | [] => (none, s)
  | p :: rest =>
    let a := area (activeArea s) s
    if !journalUp s then (none, s)
    else if !fits a p.type then (none, if areaFailed (area (1 - activeArea s) s) then journalFail s else pressStart s)
    else if ok then (some p.after, durable p { s with boot := { s.boot with waiting := rest } })
    else (none, programFailed p.type s)

/-- What follows a record of the start sequence that has become durable (R398). -/
def startDurable (d : Option Durable) (s : State) : State :=
  if d = some .trip then { s with power := { s.power with tripCell := false } } else s

/-- Program the waiting records, in order, until none waits or none can be written; a failed program is made again at the next page, and a
full area is pressed first (R419, R420). `n` bounds the programs. (DESIGN CHOICE, unsafe: log entry 54.) -/
def drainJournal : Nat → State → State
  | 0, s => s
  | n + 1, s =>
    match s.boot.waiting with
    | [] => s
    | p :: _ =>
      if !journalUp s then s
      else if !fits (area (activeArea s) s) p.type then
        let s1 := pressComplete (pressStart s)
        if fits (area (activeArea s1) s1) p.type then drainJournal n s1 else s
      else
        let r := journalStep (s.boot.programs.headD true) { s with boot := { s.boot with programs := s.boot.programs.drop 1 } }
        drainJournal n (startDurable r.1 r.2)

/-- Every waiting record is written. -/
def writeWaiting (s : State) : State := drainJournal (2 * s.boot.waiting.length + 2 * s.boot.programs.length + 2) s

/-- Write a record and wait until it is durable, as the start sequence does with its own (R422, R423, R426, R429).
(DESIGN CHOICE, unsafe: log entry 54.) -/
def journalNow (type : Nat) (payload : List Nat) (s : State) : State := writeWaiting (journal type payload .none s)

/-! ### What a record looks like (R417, R418): for the journal dump of R415 -/

/-- Bytes of the payload numbers of a record, in order; where R418 gives no width, the model's. (PRESUMED, unsafe: log entry 52.) -/
def payloadWidths (type : Nat) : List Nat :=
  if type = 0x01 then [4, 1, 32, 8, 4] else if type = 0x02 then [1, 1, 4] else if type = 0x03 then [4, 1, 1]
  else if type = 0x04 then [1, 4, 4] else if type = 0x05 then [4, 4] else if type = 0x06 then [4]
  else if type = 0x08 then [32, 8, 1, 4] else if type = 0x09 then [1, 1, 234] else if type = 0x0A then [1, 1, 1, 4]
  else if type = 0x0B then [1, 1] else if type = 0x0C then [1, 2, 1] else if type = 0x0D then [2, 1, 1, 4, 8, 4]
  else if type = 0x0E then [4, 1] else if type = 0x11 then [1, 1] else []

/-- Payload bytes: the numbers at their widths; a BIST record's pairs at 4 bytes each. (PRESUMED, unsafe: log entry 52.) -/
def payloadBytes (type : Nat) (p : List Nat) : List Byte :=
  if type = 0x07 then p.flatMap (natToBytes 4) else ((payloadWidths type).zip p).flatMap fun x => natToBytes x.1 x.2

/-- The bytes of a record: its header, its payload, and the CRC-32 of the rest in the last four (R417). -/
def recordBytes (r : JRecord) : List Byte :=
  let n := 64 * recUnits r.type
  let head := natToBytes 4 r.seq ++ [BitVec.ofNat 8 r.type, BitVec.ofNat 8 (recUnits r.type)] ++ natToBytes 2 r.start ++
    natToBytes 8 r.stamp ++ payloadBytes r.type r.payload
  let body := (head ++ List.replicate n 0).take (n - 4)
  body ++ natToBytes 4 (crc32 (body.map (·.toNat)))

/-! ### What a start reads in an area (R416, R417) -/

/-- The number in the `n` bytes from byte `a`, least significant first. -/
def leAt (bs : List Byte) (a n : Nat) : Nat := bytesToNat ((bs.drop a).take n)

/-- The CRC-32 of R280 over bytes (R414, R416, R417). -/
def crcOf (bs : List Byte) : Nat := crc32 (bs.map (·.toNat))

/-- The first `n` bytes of a device's area; what is not programmed reads erased. -/
def erasedTo (n : Nat) (bs : List Byte) : List Byte := (bs ++ List.replicate n 0xFF).take n

/-- STATE of an area by its header (R416); a header that is neither valid nor erased leaves the area to be ignored and erased.
(DEDUCED, unsafe: log entry 53.) -/
def headerState (bs : List Byte) : AreaState :=
  if bs.all (· == 0xFF) then .erased
  else if leAt bs 0 4 ≠ 0x4C4E524A ∨ leAt bs 12 4 ≠ crcOf (bs.take 8) then .opening
  else if leAt bs 8 1 = 0x3F then .active
  else if leAt bs 8 1 = 0x1F then .retired
  else .opening

/-- Numbers at their widths. -/
def splitBytes : List Nat → List Byte → List Nat
  | [], _ => []
  | w :: ws, bs => bytesToNat (bs.take w) :: splitBytes ws (bs.drop w)

/-- The payload numbers of a record's payload bytes (R418). (PRESUMED, unsafe: log entry 52.) -/
def payloadOf (type : Nat) (bs : List Byte) : List Nat :=
  if type = 0x07 then ((splitBytes (List.replicate (bs.length / 4) 4) bs).reverse.dropWhile (· == 0)).reverse
  else splitBytes (payloadWidths type) bs

/-- The record at the head of the rest of a page, and its units (R417); none where the unit reads erased or the CRC fails. -/
def recordAt (bs : List Byte) : Option (JRecord × Nat) :=
  let u := leAt bs 5 1
  let n := 64 * u - 4
  if 1 ≤ u ∧ 64 * u ≤ bs.length ∧ leAt bs n 4 = crcOf (bs.take n) then
    some (⟨leAt bs 0 4, leAt bs 4 1, leAt bs 6 2, leAt bs 8 8, payloadOf (leAt bs 4 1) ((bs.drop 16).take (n - 16))⟩, u)
  else none

/-- The records of a page from its head on, and the units they take; at most `n` of them. -/
def scanPage : Nat → List Byte → List JRecord × Nat
  | 0, _ => ([], 0)
  | n + 1, bs =>
    match recordAt bs with
    | none => ([], 0)
    | some (r, u) =>
      let p := scanPage n (bs.drop (64 * u))
      (r :: p.1, u + p.2)

/-- The records from page `k` on, and the units up to the end of the last (R417): after a skip a page counts only if its first record
has SEQ one above the last valid record's. -/
def scanPages : Nat → Nat → Bool → Nat → List Byte → List JRecord × Nat
  | 0, _, _, _, _ => ([], 0)
  | fuel + 1, k, skipped, last, bs =>
    let p := scanPage 4 (erasedTo 256 bs)
    match p.1.head? with
    | none => if skipped then ([], 0) else scanPages fuel (k + 1) true last (bs.drop 256)
    | some r =>
      if skipped && r.seq != last + 1 then ([], 0)
      else
        let now := (p.1.getLast?.map (·.seq)).getD last
        let q := scanPages fuel (k + 1) (decide (p.2 < 4)) now (bs.drop 256)
        (p.1 ++ q.1, if q.2 = 0 then 4 * k + p.2 else q.2)

/-- Bytes of an area up to the last that is not erased. -/
def programmed (bs : List Byte) : Nat := (bs.reverse.dropWhile (· == 0xFF)).length

/-- Where the writer resumes (R417): after the last valid record, or at the page boundary past a torn or skipped unit.
(DEDUCED, unsafe: log entry 53.) -/
def resumeAt (bs : List Byte) (after : Nat) : Nat :=
  if programmed bs ≤ 64 * after then after else ((programmed bs - 1) / 256 + 1) * 4

/-- An area as a start finds it (R416, R417). -/
def scanArea (fails : Nat) (bs : List Byte) : JArea :=
  let p := scanPages (bs.length / 256 + 1) 1 false 0 (bs.drop 256)
  if headerState bs = .erased then { JArea.reset with fails := fails }
  else { gen := leAt bs 4 4, state := headerState bs, recs := p.1, units := resumeAt bs (max 4 p.2), fails := fails }

end Sys2Proof.Machine
end

