-- ==== Sys2Proof/Machine/Kem.lean ====
section
/-!
DEFINITION. ML-KEM-1024 (R450). The spec names it; its steps are those of the public standards (FIPS 203 and FIPS 202). The two seeds of a
key pair are free values. (PRESUMED, unsafe: log entry 102.)
-/
namespace Sys2Proof.Machine
open Sys2Proof

/-! ### The sponge -/

/-- The rotations of the 25 lanes, lane x + 5y. -/
def laneTurns : List Nat := [0, 1, 62, 28, 27, 36, 44, 6, 55, 20, 3, 10, 43, 25, 39, 41, 45, 15, 21, 8, 18, 2, 61, 56, 14]

/-- The round constants: word `i` lies at bits [64i + 63:64i]. -/
def keccakConsts : Nat :=
  0x8000000080008008000000008000000180000000000080808000000080008081800000008000000a000000000000800a80000000000000808000000000008002 * 2 ^ 1024 +
  0x80000000000080038000000000008089800000000000008b000000008000808b000000008000000a00000000800080090000000000000088000000000000008a * 2 ^ 512 +
  0x800000000000800980000000800080810000000080000001000000000000808b8000000080008000800000000000808a00000000000080820000000000000001

/-- A 64-bit lane rotated to the left. -/
def rotl64 (n x : Nat) : Nat := (x <<< n) % 2 ^ 64 ||| x >>> (64 - n)

/-- One round of the permutation. -/
def keccakRound (a : List Nat) (i : Nat) : List Nat :=
  let c := (List.range 5).map fun x => (List.range 5).foldl (fun t y => t ^^^ a.getD (x + 5 * y) 0) 0
  let d := (List.range 5).map fun x => c.getD ((x + 4) % 5) 0 ^^^ rotl64 1 (c.getD ((x + 1) % 5) 0)
  let b := (List.range 25).map fun k =>
    let x := (k % 5 + 3 * (k / 5)) % 5
    let j := x + 5 * (k % 5)
    rotl64 (laneTurns.getD j 0) (a.getD j 0 ^^^ d.getD x 0)
  (List.range 25).map fun k =>
    let u := fun (n : Nat) => b.getD ((k + n) % 5 + 5 * (k / 5)) 0
    u 0 ^^^ ((2 ^ 64 - 1 - u 1) &&& u 2) ^^^ (if k = 0 then bitsOf keccakConsts (64 * i) 64 else 0)

/-- The permutation. -/
def keccak (a : List Nat) : List Nat := (List.range 24).foldl keccakRound a

/-- A message with the suffix of its function and the padding of a rate of `r` bytes. -/
def spongePadded (r suffix : Nat) (m : List Nat) : List Nat :=
  let n := r - m.length % r
  m ++ (if n = 1 then [suffix + 128] else suffix :: List.replicate (n - 2) 0 ++ [128])

/-- Take in one block. -/
def absorbBlock (a block : List Nat) : List Nat :=
  keccak ((List.range 25).map fun k => a.getD k 0 ^^^ lowFirst ((block.drop (8 * k)).take 8))

/-- `n` blocks of output of rate `r`. -/
def squeeze (r : Nat) : Nat → List Nat → List Nat
  | 0, _ => []
  | n + 1, a => (a.flatMap (octets 8)).take r ++ squeeze r n (keccak a)

/-- A sponge function: `n` bytes of output. -/
def sponge (r suffix n : Nat) (m : List Nat) : List Nat :=
  let p := spongePadded r suffix m
  (squeeze r (n / r + 1) ((piecesOf r (p.length / r) p).foldl absorbBlock (List.replicate 25 0))).take n

/-- SHA3-256. -/
def sha3of256 (m : List Nat) : List Nat := sponge 136 6 32 m

/-- SHA3-512. -/
def sha3of512 (m : List Nat) : List Nat := sponge 72 6 64 m

/-- SHAKE128. -/
def shake128 (n : Nat) (m : List Nat) : List Nat := sponge 168 0x1F n m

/-- SHAKE256. -/
def shake256 (n : Nat) (m : List Nat) : List Nat := sponge 136 0x1F n m

/-! ### Polynomials -/

/-- The modulus. -/
def kemQ : Nat := 3329

/-- Seven bits in reverse order. -/
def rev7 (x : Nat) : Nat := (List.range 7).foldl (fun t i => 2 * t + bitsOf x i 1) 0

/-- Powers of a number modulo the modulus. -/
def powQ (b : Nat) : Nat → Nat
  | 0 => 1
  | n + 1 => b * powQ b n % kemQ

/-- The factor of node `k` of the transform. -/
def zetaOf (k : Nat) : Nat := powQ 17 (rev7 k)

/-- Sum of two polynomials. -/
def addPoly (a b : List Nat) : List Nat := List.zipWith (fun x y => (x + y) % kemQ) a b

/-- Difference of two polynomials. -/
def subPoly (a b : List Nat) : List Nat := List.zipWith (fun x y => (x + kemQ - y) % kemQ) a b

/-- The transform of a list of 2 to the `n` + 1 coefficients, from node `k` on. -/
def nttFrom : Nat → Nat → List Nat → List Nat
  | 0, _, f => f
  | n + 1, k, f =>
    let lo := f.take (2 ^ (n + 1))
    let hi := (f.drop (2 ^ (n + 1))).map fun x => zetaOf k * x % kemQ
    nttFrom n (2 * k) (addPoly lo hi) ++ nttFrom n (2 * k + 1) (subPoly lo hi)

/-- The transform. -/
def ntt (f : List Nat) : List Nat := nttFrom 7 1 f

/-- Its inverse, but for the last factor; `k` is the node counted from the far end of its level. -/
def unttFrom : Nat → Nat → List Nat → List Nat
  | 0, _, f => f
  | n + 1, k, f =>
    let lo := unttFrom n (2 * k + 1) (f.take (2 ^ (n + 1)))
    let hi := unttFrom n (2 * k) (f.drop (2 ^ (n + 1)))
    addPoly lo hi ++ (subPoly hi lo).map fun x => zetaOf k * x % kemQ

/-- The inverse transform. -/
def untt (f : List Nat) : List Nat := (unttFrom 7 1 f).map fun x => 3303 * x % kemQ

/-- Product of two transformed polynomials. -/
def mulNtt (a b : List Nat) : List Nat :=
  (List.range 128).flatMap fun i =>
    let g := powQ 17 (2 * rev7 i + 1)
    let x := a.getD (2 * i) 0
    let y := a.getD (2 * i + 1) 0
    let u := b.getD (2 * i) 0
    let v := b.getD (2 * i + 1) 0
    [(x * u + y * v % kemQ * g) % kemQ, (x * v + y * u) % kemQ]

/-- Scalar product of two vectors of transformed polynomials. -/
def dotNtt (a b : List (List Nat)) : List Nat :=
  (List.zipWith mulNtt a b).foldl addPoly (List.replicate 256 0)

/-- Coefficients at `d` bits each, as bytes. -/
def packCoefs (d : Nat) (f : List Nat) : List Nat := octets (32 * d) (f.foldr (fun x n => x + 2 ^ d * n) 0)

/-- Coefficients from bytes. -/
def coefsOf (d : Nat) (bs : List Nat) : List Nat := (List.range 256).map fun i => bitsOf (lowFirst bs) (d * i) d

/-- Coefficients rounded to `d` bits. -/
def compressPoly (d : Nat) (f : List Nat) : List Nat := f.map fun x => (2 ^ (d + 1) * x + kemQ) / (2 * kemQ) % 2 ^ d

/-- Coefficients of `d` bits scaled back. -/
def expandPoly (d : Nat) (f : List Nat) : List Nat := f.map fun y => (kemQ * y + 2 ^ (d - 1)) / 2 ^ d

/-- The numbers below the modulus among the pairs of 12 bits of a stream. -/
def acceptCoefs : List Nat → List Nat
  | a :: b :: c :: rest => ([a + 256 * (b % 16), b / 16 + 16 * c].filter fun x => decide (x < kemQ)) ++ acceptCoefs rest
  | _ => []

/-- A transformed polynomial drawn from a seed of 34 bytes. -/
def sampleNtt (seed : List Nat) : List Nat :=
  ((acceptCoefs (shake128 1344 seed)).take 256 ++ List.replicate 256 0).take 256

/-- A polynomial of small coefficients drawn from a seed and a number. -/
def sampleSmall (seed : List Nat) (n : Nat) : List Nat :=
  let x := lowFirst (shake256 128 (seed ++ [n]))
  (List.range 256).map fun i =>
    (bitsOf x (4 * i) 1 + bitsOf x (4 * i + 1) 1 + kemQ - bitsOf x (4 * i + 2) 1 - bitsOf x (4 * i + 3) 1) % kemQ

/-! ### The mechanism -/

/-- Rank of the matrix: the parameter set 1024. -/
def kemRank : List Nat := List.range 4

/-- Element of row `i` and column `j` of the matrix of a seed. -/
def kemMatrix (rho : List Nat) (i j : Nat) : List Nat := sampleNtt (rho ++ [j, i])

/-- Two halves of 32 bytes that a seed expands to. -/
def kemExpand (d : List Nat) : List Nat × List Nat :=
  let g := sha3of512 (d ++ [4])
  (g.take 32, g.drop 32)

/-- The transformed secret vector of a seed. -/
def kemSecret (d : List Nat) : List (List Nat) := kemRank.map fun i => ntt (sampleSmall (kemExpand d).2 i)

/-- The encapsulation key of a seed: 1,568 bytes. (PRESUMED, unsafe: log entry 102.) -/
def kemPublic (d : List Nat) : List Nat :=
  let p := kemExpand d
  let s := kemSecret d
  (kemRank.flatMap fun i => packCoefs 12 (addPoly (dotNtt (kemRank.map (kemMatrix p.1 i)) s) (ntt (sampleSmall p.2 (4 + i))))) ++ p.1

/-- Encrypt 32 bytes under an encapsulation key with given randomness: 1,568 bytes. -/
def kemEncrypt (ek m r : List Nat) : List Nat :=
  let t := kemRank.map fun i => coefsOf 12 ((ek.drop (384 * i)).take 384)
  let rho := ek.drop 1536
  let y := kemRank.map fun i => ntt (sampleSmall r i)
  let u := kemRank.map fun i => addPoly (untt (dotNtt (kemRank.map fun j => kemMatrix rho j i) y)) (sampleSmall r (4 + i))
  let v := addPoly (addPoly (untt (dotNtt t y)) (sampleSmall r 8)) (expandPoly 1 (coefsOf 1 m))
  (u.flatMap fun f => packCoefs 11 (compressPoly 11 f)) ++ packCoefs 5 (compressPoly 5 v)

/-- Decrypt a ciphertext under a secret vector: 32 bytes. -/
def kemDecrypt (s : List (List Nat)) (ct : List Nat) : List Nat :=
  let u := kemRank.map fun i => expandPoly 11 (coefsOf 11 ((ct.drop (352 * i)).take 352))
  let v := expandPoly 5 (coefsOf 5 (ct.drop 1408))
  packCoefs 1 (compressPoly 1 (subPoly v (untt (dotNtt s (u.map ntt)))))

/-- The shared secret that a ciphertext brings under the key pair of the seeds `d` and `z`; a wrong ciphertext brings another.
(PRESUMED, unsafe: log entry 102.) -/
def kemShared (d z ct : List Nat) : List Nat :=
  let ek := kemPublic d
  let m := kemDecrypt (kemSecret d) ct
  let g := sha3of512 (m ++ sha3of256 ek)
  if kemEncrypt ek m (g.drop 32) = ct then g.take 32 else shake256 32 (z ++ ct)

/-- The two seeds of the `n`-th key pair: free values. -/
def kemSeed (n i : Nat) : List Nat := octets 32 (Config.kemSeed n i)

/-- Encapsulation key of the `n`-th KEM_START (R450): 1,568 bytes. -/
def kemEk (n : Nat) : List Byte := firstBytes 1568 (kemPublic (kemSeed n 0))

/-- Shared secret of a ciphertext under the `n`-th decapsulation key (R450), its first byte the lowest. -/
def kemDecaps (n : Nat) (ct : List Byte) : Nat := lowFirst (kemShared (kemSeed n 0) (kemSeed n 1) (ct.map (·.toNat)))

end Sys2Proof.Machine
end

