-- ==== Sys2Proof/Machine/Security.lean ====
section
/-!
DEFINITION. The mailbox and the root of trust: identity trees and their reservations, attestation, key establishment, zeroisation, the
security version (R421, R443 to R458).
-/
namespace Sys2Proof.Machine
open Sys2Proof

/-! ### The mailbox (R457, R458) -/

/-- The mailbox answers: from step 1 of R422 onward (R458), while the module has power (R381). -/
def mailboxUp (s : State) : Bool := (rd F.BOOT_STATE.MODE s != 0 || rd F.BOOT_STATE.STEP s != 0) && !s.power.off

/-- The boot ROM alone runs: minimal mode for NOR, START_RECORD, IMAGE or JOURNAL (R432, R449). -/
def romOnly (s : State) : Bool :=
  rd F.BOOT_STATE.MODE s == 2 && decide (1 ≤ rd F.BOOT_REASON.CODE s) && decide (rd F.BOOT_REASON.CODE s ≤ 4)

/-- The module is STARTING. -/
def starting (s : State) : Bool := rd F.BOOT_STATE.MODE s == 0

/-- A mailbox command is in progress. -/
def mbxBusy (s : State) : Bool := decide (s.sec.wait ≠ .none)

/-- The mailbox waits for something of this command. -/
def mbxWait (w : MbxWait) (s : State) : State := wr F.MBX_STATE.BUSY 1 { s with sec := { s.sec with wait := w } }

/-- A command ends without error, with `n` result bytes. -/
def mbxDone (n : Nat) (s : State) : State :=
  raise F.MBX_STS.DONE
    (wr F.MBX_STATE.LEN n (wr F.MBX_STATE.ERROR 0 (wr F.MBX_STATE.BUSY 0 { s with sec := { s.sec with wait := .none } })))

/-- A command ends with an error: 1 BUSY, 2 STATE, 3 NOT_READY, 4 EXHAUSTED, 5 JOURNAL, 6 ADDR. -/
def mbxFail (code : Nat) (s : State) : State :=
  raise F.MBX_STS.ERR
    (wr F.MBX_STATE.LEN 0 (wr F.MBX_STATE.ERROR code (wr F.MBX_STATE.BUSY 0 { s with sec := { s.sec with wait := .none } })))

/-- A write of `MBX_CMD` with OP and GO (R457): ignored while BUSY; a second ZEROISE while one runs ends with error BUSY (R455). -/
def mbxCommand (op : Nat) (act : State → State) (s : State) : State :=
  if !mailboxUp s then s
  else
    let s1 := wr F.MBX_CMD.OP op s
    if op = 5 ∧ on F.ZERO_STATE.BUSY s then raise F.MBX_STS.ERR (wr F.MBX_STATE.ERROR 1 s1)
    else if mbxBusy s then s1
    else act s1

/-- Read bytes of the buffer. -/
def mbxRead (a n : Nat) (s : State) : List Byte := Table.getMany byte0 s.sec.mbx a n

/-- Write bytes into the buffer. -/
def mbxWrite (a : Nat) (bs : List Byte) (s : State) : State :=
  { s with sec := { s.sec with mbx := Table.setMany byte0 s.sec.mbx a bs } }

/-- Bytes as numbers, as the hash functions take them. -/
def nats (bs : List Byte) : List Nat := bs.map (·.toNat)

/-- SERIAL, 16 bytes. -/
def serialBytes (s : State) : List Byte := natToBytes 16 s.fuses.serial

/-! ### Identity trees (R421, R444 to R447) -/

/-- One-time indices of a tree of height 15 (R440). -/
def treeSize : Nat := 32768

/-- Top-tree indices left. -/
def topLeft (s : State) : Nat := treeSize - s.sec.topNext

/-- Unused indices of the current lower tree. -/
def lowLeft (s : State) : Nat := treeSize - s.sec.lowNext

/-- The identity registers show the trees (R457). -/
def showIdentity (s : State) : State :=
  wr F.IDENT_TOP.VALUE (topLeft s) (wr F.IDENT_STATE.LEFT (lowLeft s) (wr F.IDENT_STATE.LOWER s.sec.lower s))

/-- A reservation of this tree waits to be written. -/
def reserving (tree : Nat) (s : State) : Bool := s.boot.waiting.any fun p => p.type == 0x05 && p.payload.headD 0 == tree

/-- Request LMS_RESV for the block of a tree that begins at `first` (R421). -/
def reserve (tree first : Nat) (s : State) : State := if reserving tree s then s else journal 0x05 [tree, first] (.lms tree) s

/-- SEC_STS.LOW_INDEX (R447). -/
def warnTop (s : State) : State := when (decide (topLeft s < 1024)) (raise F.SEC_STS.LOW_INDEX) s

/-- Open the next lower tree: its number is the next top index, taken under the reservation rule (R445, R446). -/
def openLower (s : State) : State :=
  if treeSize ≤ s.sec.topNext then s
  else if s.sec.topNext < s.sec.topLimit then
    warnTop { s with sec := { s.sec with nextLower := some s.sec.topNext, topNext := s.sec.topNext + 1 } }
  else reserve 0 s.sec.topLimit s

/-- The next lower tree follows one that is used up (R446). (DEDUCED, unsafe: log entry 58.) -/
def switchLower (s : State) : State :=
  match decide (treeSize ≤ s.sec.lowNext), s.sec.nextLower with
  | true, some k => { s with sec := { s.sec with lower := k, lowNext := 0, lowLimit := 0, nextLower := none } }
  | _, _ => s

/-- Keep a lower tree ahead: with fewer than 2,048 unused indices the next one is opened (R446). (DEDUCED, unsafe: log entry 58.) -/
def settleTrees (s : State) : State :=
  let s1 := switchLower s
  let s2 := if lowLeft s1 < 2048 ∧ s1.sec.nextLower.isNone then openLower s1 else s1
  showIdentity (switchLower s2)

/-- What a signature meets: 0 it can be made, 1 it waits, otherwise the error it ends with (R446, R447). -/
def signState (s : State) : Nat :=
  if treeSize ≤ s.sec.topNext then 4
  else if !on F.IDENT_STATE.BUILT s then 1
  else if s.sec.lowNext < s.sec.lowLimit then 0
  else if s.boot.failed then 5
  else 1

/-- A signature that waits for an index asks for the block that holds it (R421). -/
def askIndex (s : State) : State :=
  if on F.IDENT_STATE.BUILT s && decide (s.sec.lowNext < treeSize) && decide (s.sec.lowLimit ≤ s.sec.lowNext) then
    reserve (s.sec.lower + 1) s.sec.lowLimit s
  else s

/-- The signature over a message under the index it takes: 5,396 bytes, and the state after (R440, R444). -/
def sign (msg : List Byte) (s : State) : List Byte × State :=
  let sig := hssSign s.sec.lower s.sec.lowNext (nats msg)
  (sig, settleTrees { s with sec := { s.sec with lowNext := s.sec.lowNext + 1 } })

/-- A signing command runs, waits or ends with its error (R446, R447). -/
def signing (w : MbxWait) (act : State → State) (s : State) : State :=
  match signState s with
  | 0 => act s
  | 1 => askIndex (mbxWait w s)
  | 4 => mbxFail 4 (raise F.SEC_STS.EXHAUSTED s)
  | e => mbxFail e s

/-! ### Attestation (R448, R449) -/

/-- FLAGS of a report. -/
def reportFlags (s : State) : Nat :=
  bitN s.sec.fallback + 2 * rd F.BOOT_STATE.TRIAL s + 4 * rd F.BOOT_STATE.FAST s + 8 * bitN (rd F.BOOT_STATE.MODE s == 2) +
    16 * bitN s.sec.zeroised

/-- The signed part of a report, bytes 0 to 511. -/
def reportBody (s : State) : List Byte :=
  let slots := (List.range 16).filter fun m => slotSt m s != 0
  let manifests := (List.range 16).flatMap fun m => natToBytes 8 (if slotSt m s = 0 then 0 else (modelSlot m s).manifest)
  natToBytes 4 0x54525433 ++ natToBytes 1 1 ++ natToBytes 1 (reportFlags s) ++ natToBytes 2 0 ++ serialBytes s ++ mbxRead 0 32 s ++
    natToBytes 4 s.sec.svn ++ natToBytes 4 s.fuses.svn ++ natToBytes 32 s.sec.bundle ++ natToBytes 32 Config.romDigest ++
    natToBytes 32 s.boot.configId ++ natToBytes 4 (rd F.START_CNT.VALUE s) ++ natToBytes 8 (timestamp s) ++
    natToBytes 1 (rd F.OCL_ENC.MODE s) ++ natToBytes 1 (rd F.PAIR_CFG.MODE s) ++ natToBytes 2 (slots.map fun m => 2 ^ m).sum ++
    natToBytes 4 s.sec.epochNow ++ natToBytes 32 s.sec.session ++ manifests ++ natToBytes 4 s.sec.lower ++
    identityKey ++ List.replicate 108 0

/-- Write `n` bytes from an aligned address in messages of at most 8 lines that cross no 4 KiB boundary (R286). `k` bounds them. -/
def writeLines : Nat → Nat → List Byte → State → State
  | 0, _, _, s => s
  | k + 1, a, bs, s =>
    if bs.isEmpty then s
    else
      let n := min (cdiv bs.length 64) (min 8 ((4096 - a % 4096) / 64))
      writeLines k (a + 64 * n) (bs.drop (64 * n)) (sendWr a n (bs.take (64 * n)) [] s)

/-- MBX_ADDR. -/
def mbxAddr (s : State) : Nat := addr64 O.MBX_ADDR O.MBX_ADDR_HI s

/-- The report is signed and written, 93 lines. -/
def attestNow (s : State) : State :=
  let body := reportBody s
  let p := sign body s
  mbxDone 0 (raise F.SEC_STS.ATTESTED (writeLines 93 (mbxAddr s) (body ++ p.1 ++ List.replicate 44 0) p.2))

/-- ATTEST taken. -/
def attest (s : State) : State :=
  if romOnly s then mbxFail 3 s
  else if 2 ^ 64 < mbxAddr s + 5952 then mbxFail 6 s
  else signing .attest attestNow s

/-- ATTEST (R448). -/
def execAttest (s : State) : Host.Outcome State Fault Refusal := .next (mbxCommand 1 attest s)

/-! ### Key establishment (R450, R451) -/

/-- The held decapsulation key is destroyed (R450). -/
def dropKem (s : State) : State := { s with sec := { s.sec with kem := none, kemMsg := [] } }

/-- Epoch of the next installation. -/
def nextEpoch (s : State) : Nat := rd F.KEY_EPOCH.VALUE s + 1

/-- The key pair is made; ek and the signature go to the buffer (R450 step 2). -/
def kemStartNow (s : State) : State :=
  let n := s.sec.kemCount
  let ek := kemEk n
  let p := sign (ek ++ mbxRead 0 32 s ++ serialBytes s ++ natToBytes 4 (nextEpoch s)) s
  let s1 := p.2
  let s2 := { s1 with sec := { s1.sec with kem := some n, kemCount := n + 1, kemMsg := ek ++ p.1 } }
  mbxDone 6964 (mbxWrite 0 (ek ++ p.1) s2)

/-- KEM_START taken: accepted in every mode but STARTING (R451). (DEDUCED, unsafe: log entry 59.) -/
def kemStart (s : State) : State :=
  let s1 := dropKem s
  if starting s1 ∨ romOnly s1 then mbxFail 3 s1 else signing .kemStart kemStartNow s1

/-- KEM_START (R450). -/
def execKemStart (s : State) : Host.Outcome State Fault Refusal := .next (mbxCommand 2 kemStart s)

/-- A key of R451. -/
def kemKey (ss h e : Nat) (t : String) : Nat := hmac ss (label t ++ nats (natToBytes 32 h) ++ nats (natToBytes 4 e))

/-- The keys are installed in the slot of each direction that is not in use (R304, R450 step 4). -/
def installKeys (ss h e : Nat) (s : State) : State :=
  let tx : KeySlot := { epoch := some e, key := kemKey ss h e "W3-TX", ctr := 0 }
  let rx : KeySlot := { epoch := some e, key := kemKey ss h e "W3-RX", ctr := 0 }
  let t := rd F.OCL_ENC.TX_SLOT s
  let r := rd F.OCL_ENC.RX_SLOT s
  let o := s.ocl
  let o1 := if t = 1 then { o with tx0 := tx } else { o with tx1 := tx }
  let o2 := if r = 1 then { o1 with rx0 := rx } else { o1 with rx1 := rx }
  let s1 : State := { s with ocl := o2, sec := { s.sec with kemReady := true, sessionNext := h } }
  raise F.SEC_STS.KEYS (wr F.KEY_EPOCH.VALUE e (wr F.OCL_ENC.KEYS 1 s1))

/-- KEM_FINISH taken (R450 step 4): true when keys were installed. (DEDUCED, unsafe: log entry 59.) -/
def kemFinish (s : State) : Bool × State :=
  if starting s then (false, mbxFail 3 s)
  else
    match s.sec.kem with
    | none => (false, mbxFail 2 s)
    | some n =>
      let ct := mbxRead 0 1568 s
      let s1 := dropKem s
      let e := nextEpoch s
      if 2 ^ 32 ≤ e then (false, mbxFail 2 s1)
      else
        let ss := kemDecaps n ct
        let h := sha256 (nats (s.sec.kemMsg ++ ct))
        let tag := hmac (kemKey ss h e "W3-CF") (label "DONE")
        (true, mbxDone 36 (mbxWrite 0 (natToBytes 4 e ++ natToBytes 32 tag) (installKeys ss h e s1)))

/-- KEM_SWITCH taken (R450 step 5): the W3 sends under the new slot from its next message. (DEDUCED, unsafe: log entry 59.) -/
def kemSwitch (s : State) : State :=
  if starting s then mbxFail 3 s
  else if !s.sec.kemReady then mbxFail 2 s
  else
    let s1 := wr F.OCL_ENC.TX_SLOT (1 - rd F.OCL_ENC.TX_SLOT s) s
    let s2 := { s1 with sec := { s1.sec with
      kemReady := false, session := s1.sec.sessionNext, epochNow := (txKey s1).epoch.getD 0 } }
    pump 0 (mbxDone 0 s2)

/-- KEM_SWITCH (R450). -/
def execKemSwitch (s : State) : Host.Outcome State Fault Refusal := .next (mbxCommand 4 kemSwitch s)

/-- KEM_KEY_EXPIRY (R450): a decapsulation key is destroyed 1 s after KEM_START. -/
def execKemKeyExpiry (s : State) : Host.Outcome State Fault Refusal := .next (dropKem s)

/-! ### Identity and security version -/

/-- IDENTITY taken (R457). -/
def identity (s : State) : State :=
  mbxDone 76 (mbxWrite 0 (serialBytes s ++ identityKey) s)

/-- IDENTITY (R457). -/
def execIdentity (s : State) : Host.Outcome State Fault Refusal := .next (mbxCommand 6 identity s)

/-- SVN_COMMIT taken (R443). -/
def svnCommit (s : State) : State :=
  if starting s ∨ romOnly s then mbxFail 3 s
  else if on F.BOOT_STATE.TRIAL s ∨ s.sec.fallback ∨ s.sec.svn ≤ s.fuses.svn then mbxFail 2 s
  else mbxDone 0 (raise F.SEC_STS.SVN { s with fuses := { s.fuses with svn := s.sec.svn } })

/-- SVN_COMMIT (R443). -/
def execSvnCommit (s : State) : Host.Outcome State Fault Refusal := .next (mbxCommand 7 svnCommit s)

/-- A waiting signature goes on. -/
def resumeSigning (s : State) : State :=
  match s.sec.wait with
  | .attest => signing .attest attestNow s
  | .kemStart => signing .kemStart kemStartNow s
  | _ => s

/-- IDENTITY_BUILT (R446): the rebuild of the current tree ends. -/
def identityBuilt (s : State) : State :=
  if s.sec.lowNext < treeSize ∨ s.sec.nextLower.isSome then resumeSigning (wr F.IDENT_STATE.BUILT 1 (settleTrees s)) else s

/-- IDENTITY_BUILT. -/
def execIdentityBuilt (s : State) : Host.Outcome State Fault Refusal := .next (identityBuilt s)

/-- A reservation is durable (R421): 64 more indices of its tree may be used. -/
def lmsDurable (tree : Nat) (s : State) : State :=
  let x := s.sec
  let s1 := if tree = 0 then openLower { s with sec := { x with topLimit := x.topLimit + 64 } }
    else if tree = x.lower + 1 then { s with sec := { x with lowLimit := x.lowLimit + 64 } }
    else s
  resumeSigning (settleTrees s1)

/-- The highest reservation of a tree in the journal (R421). -/
def highestResv (tree : Nat) (l : List JRecord) : Option Nat :=
  match (l.filter fun r => r.type == 0x05 && r.payload.headD 0 == tree).map fun r => r.payload.getD 1 0 with
  | [] => none
  | x :: xs => some (xs.foldl max x)

/-- First unused index of a tree after its highest reservation: that block is abandoned (R421). -/
def afterResv (tree : Nat) (l : List JRecord) : Nat :=
  match highestResv tree l with
  | some f => f + 64
  | none => 0

/-- The identity at a start (R421, R446): the highest-numbered lower tree with a reservation is current; its rebuild begins.
(DEDUCED, unsafe: log entry 58.) -/
def startIdentity (s : State) : State :=
  let l := (area (activeArea s) s).recs
  let trees := (l.filter fun r => r.type == 0x05 && decide (1 ≤ r.payload.headD 0)).map fun r => r.payload.headD 0
  let top := afterResv 0 l
  let t := trees.foldl max 0
  let low := if t = 0 then treeSize else afterResv t l
  settleTrees (warnTop (wr F.IDENT_STATE.BUILT 0 { s with sec := { s.sec with
    topNext := top, topLimit := top, lower := t - 1, lowNext := low, lowLimit := low, nextLower := none } }))

/-! ### Zeroisation of the module (R452 to R456) -/

/-- Stacks that are not ACTIVE, a bit each: they are not zeroised (R455). -/
def idleStacks (s : State) : Nat := (((List.range 12).filter fun n => rd (F.HS_STATE.STATE n) s != 1).map fun n => 2 ^ n).sum

/-- All cell memory and every ACTIVE stack (R455, R456 step 4). -/
def zeroMemory (s : State) : State :=
  let still := fun (p : Host.Cell) => rd (F.HS_STATE.STATE (stackOf p.1 s)) s != 1
  let clean := fun (_ : Nat) (x : Cell) => { x with shadow0 := 0, fetch := [], writeBack := [], corrected := [] }
  { s with cellMem := [], cells := Table.mapVals (fun _ => Cell.reset) clean s.cells, stackMem := s.stackMem.filter still }

/-- FAIL with ARG 0 on every ACTIVE port, and the pair is left (R433 step 1, R456 step 2). -/
def leavePair (s : State) : State :=
  if pairMode s = 0 then s
  else
    let st := pairSt s
    let s1 := setPairSt 0 (sendEveryPort 0x01 0 s)
    let s2 := if st = 5 then endSplit (leaveSplit s1) else if st = 2 ∨ st = 4 ∨ st = 7 then discardMirror s1 else leavePrimary s1
    { s2 with pair := { s2.pair with arb := none, takeover := false, pageReqs := [], pageWait := [] } }

/-- A slot is freed without a close of its own: what waits for it ends (R456 step 3). -/
def forceFree (m : Nat) (s : State) : State :=
  if slotSt m s = 0 then s
  else
    let cs := (modelSlot m s).closers
    let s1 := forEach (uncommitted m s) abandonStep (endLoading m 5 (endReceive m 5 (abandonCheck m s)))
    let s2 := forEach ((s1.svc.reqs.filter fun q => q.model == m).map (·.id)) (fun id => endRequest id 5) s1
    forEach cs (fun c => putCmdDone c.1 m c.2 0 0) (freeSlot m s2)

/-- Every slot becomes FREE; an OPEN_MODEL that waits for victims ends. -/
def forceFreeAll (s : State) : State :=
  let s1 := forEach (List.range 16) forceFree s
  match s1.svc.opening with
  | some o => putCmdDone o.ring o.model o.reqId 5 0 { s1 with svc := { s1.svc with opening := none } }
  | none => s1

/-- User data beside memory (R456 step 4): ledger, KV state records, mailbox buffer, the pending ML-KEM key, the key slots. With MODE
raised the session is closed until new keys are installed. -/
def zeroRecords (s : State) : State :=
  let l := s.ledger
  let s1 := dropKem { s with
    ledger := { l with entries := [], abandoned := l.abandoned + l.entries.length }
    sec := { s.sec with mbx := [], kemReady := false, session := 0, epochNow := 0, sessionNext := 0 }
    ocl := { s.ocl with
      tx0 := .reset, tx1 := .reset, rx0 := .reset, rx1 := .reset, closed := s.ocl.closed || encData s }
    pair := { s.pair with mirror := [], mirrorToks := [], sinter := [], group := [] }
    kv := { s.kv with
      seqs := [], clearing := [], releases := [], stores := [], carries := [], staged := [], hot := [], formats := [] } }
  wr F.OCL_ENC.KEYS 0 s1

/-- ZERO_STATE at the start of a zeroise. -/
def zeroBegin (mgmt : Bool) (s : State) : State :=
  mbxWait (.zeroise mgmt) (wr F.ZERO_STATE.STACKS (idleStacks s) (wr F.ZERO_STATE.BUSY 1 (dropKem s)))

/-- The end of a ZEROISE: its PLDM event where it came by the management path (R499). -/
def zeroEnd (mgmt : Bool) (s : State) : State :=
  let s1 := mbxDone 0 (wr F.ZERO_STATE.BUSY 0 s)
  when mgmt (pldm 0x2B (reg O.ZERO_STATE s1).toNat) s1

/-- ZEROISE in READY (R456 steps 1 to 4). (DEDUCED, unsafe: log entry 60.) -/
def zeroReady (mgmt : Bool) (s : State) : State :=
  let s1 := wr F.SVC_CTRL.ADMIT 0 (holdFw 5 (zeroBegin mgmt s))
  let s2 := leavePair (tuneEvict (tuneModel s1) s1)
  let job := fun (j : ResetJob) => { j with models := [], reload := [], slices := [], variants := [] }
  let s3 := modJob job (forceFreeAll s2)
  zeroRecords (zeroMemory s3)

/-- ZEROISE taken (R455). (DEDUCED, unsafe: log entry 60.) -/
def zeroise (mgmt : Bool) (s : State) : State :=
  match rd F.BOOT_STATE.MODE s with
  | 0 => mbxFail 3 s
  | 1 => zeroReady mgmt s
  | 2 => zeroMemory (zeroBegin mgmt s)
  | 3 => if 4 ≤ s.boot.shutdown then zeroEnd mgmt (dropKem s) else zeroBegin mgmt s
  | _ => zeroEnd mgmt (dropKem s)

/-- ZEROISE (R455), from the mailbox or from the BMC. -/
def execZeroise (mgmt : Bool) (s : State) : Host.Outcome State Fault Refusal := .next (mbxCommand 5 (zeroise mgmt) s)

/-- ZEROISE_DONE (R456 step 5): in READY and MINIMAL mode the clear engines and controllers are done.
(DEDUCED, unsafe: log entry 60.) -/
def zeroiseDone (s : State) : State :=
  match s.sec.wait, decide (rd F.BOOT_STATE.MODE s = 3) with
  | .zeroise mgmt, false =>
    let s1 := releaseFw 5 (raise F.SEC_STS.ZERO_DONE { s with sec := { s.sec with zeroised := true } })
    zeroEnd mgmt (when (rd F.ZERO_STATE.STACKS s1 != 0) (raise F.SEC_STS.ZERO_PART) s1)
  | _, _ => s

/-- ZEROISE_DONE. -/
def execZeroiseDone (s : State) : Host.Outcome State Fault Refusal := .next (zeroiseDone s)

end Sys2Proof.Machine
end

