-- ==== Sys2Proof/Machine/Boot.lean ====
section
/-!
DEFINITION. The start sequence, failed starts and minimal mode, staging, the orderly shutdown with its self-test, and what follows a
durable journal record (R414, R415, R419, R422 to R437).
-/
namespace Sys2Proof.Machine
open Sys2Proof

/-! ### The NOR device (R413 to R415) -/

/-- A start record copy. -/
def startRec (n : Nat) (s : State) : StartRecord := if n = 0 then s.boot.sr0 else s.boot.sr1

/-- Store a start record copy. -/
def setStartRec (n : Nat) (r : StartRecord) (s : State) : State :=
  if n = 0 then { s with boot := { s.boot with sr0 := r } } else { s with boot := { s.boot with sr1 := r } }

/-- An image slot. -/
def imageSlot (n : Nat) (s : State) : ImageSlot := if n = 0 then s.boot.img0 else s.boot.img1

/-- Store an image slot. -/
def setImageSlot (n : Nat) (b : ImageSlot) (s : State) : State :=
  if n = 0 then { s with boot := { s.boot with img0 := b } } else { s with boot := { s.boot with img1 := b } }

/-- The copy in force (R414): of two valid copies the one with the higher SEQ. -/
def copyInForce (s : State) : Option Nat :=
  match (startRec 0 s).valid, (startRec 1 s).valid with
  | true, true => if (startRec 0 s).seq < (startRec 1 s).seq then some 1 else some 0
  | true, false => some 0
  | false, true => some 1
  | false, false => none

/-- The start record in force. -/
def recInForce (s : State) : StartRecord := startRec ((copyInForce s).getD 0) s

/-- Slot that a start record names as active. -/
def activeSlot (r : StartRecord) : Nat := bitsOf r.slot 0 1

/-- TRIAL. -/
def isTrial (r : StartRecord) : Bool := bitsOf r.slot 1 1 == 1

/-- FALLBACK_OK. -/
def fallbackOk (r : StartRecord) : Bool := bitsOf r.slot 2 1 == 1

/-- CONFIG_ID (R414): SHA-256 of bytes 10 to 507 of the start record, followed by the slot started. -/
def configIdOf (r : StartRecord) (slot : Nat) : Nat :=
  sha256 (nats (natToBytes 2 r.flowK ++ natToBytes 2 r.capW ++ natToBytes 2 r.absentMax ++ natToBytes 1 r.newAbsentMax ++
    natToBytes 1 r.fieldAbsentMax ++ natToBytes 1 r.minStacks ++ natToBytes 1 r.fastDays ++ natToBytes 32 r.digest ++
    natToBytes 32 r.altDigest ++ natToBytes 424 r.rest) ++ [slot])

/-- Check 1 of R441: the fields of a bundle's header are as R439 says, and the bundle fits its slot. -/
def fieldsOk (b : ImageSlot) : Bool :=
  b.magic == 0x44425A4C && b.format == 1 && b.sigLen == 2672 && b.rest == 0 && decide (b.svn ≤ 64) && b.fwLen % 64 == 0 &&
    b.culLen % 64 == 0 && decide (256 + b.fwLen + b.culLen + 2672 ≤ 33554432)

/-- A bundle passes checks 1 to 5 of R441. -/
def bundleVerifies (b : ImageSlot) (s : State) : Bool :=
  fieldsOk b && b.signed && b.partsOk && (b.keyId == 1 || (b.keyId == 0 && !s.fuses.revoke0)) && decide (s.fuses.svn ≤ b.svn)

/-- The bundle of a slot may start: it verifies and matches its digest in the start record (R423, R441). -/
def slotStarts (r : StartRecord) (slot : Nat) (s : State) : Bool :=
  bundleVerifies (imageSlot slot s) s &&
    (imageSlot slot s).digest == (if slot = activeSlot r then r.digest else r.altDigest)

/-! ### Failed starts (R430 to R432) -/

/-- Failed starts by the journal (R431): START records after the latest OUTCOME READY or CLEAR. -/
def failedStarts (l : List JRecord) : Nat :=
  ((l.reverse.takeWhile fun r => !(isReadyOutcome r || r.type == 0x10)).filter fun r => r.type == 0x01).length

/-- The records of the active area. -/
def jRecords (s : State) : List JRecord := (area (activeArea s) s).recs

/-- Reasons counted in Brynodor memory (R431): NOR, START_RECORD, JOURNAL. -/
def ramReason (code : Nat) : Bool := code == 1 || code == 2 || code == 4

/-- Minimal mode (R431, R432), with `BOOT_REASON` as it stands. -/
def minimal (s : State) : State :=
  let s1 := { s with boot := { s.boot with attempt := none } }
  let s2 := wr F.BOOT_STATE.FAILS 3 (wr F.BOOT_STATE.STEP 0 (wr F.BOOT_STATE.MODE 2 (holdFw 7 s1)))
  let code := rd F.BOOT_REASON.CODE s2
  let s3 := if ramReason code then s2 else journalNow 0x11 [code, rd F.BOOT_REASON.DETAIL s2] s2
  pldm 0x21 (reg O.BOOT_REASON s3).toNat s3

/-- BOOT_REASON. -/
def setReason (code detail : Nat) (s : State) : State := wr F.BOOT_REASON.DETAIL detail (wr F.BOOT_REASON.CODE code s)

/-- The attempt fails (R430): OUTCOME where the journal is usable, then a new attempt by whole-module reset, or minimal mode.
(DEDUCED, unsafe: log entry 10.) -/
def failStart (code detail : Nat) (s : State) : State :=
  let s1 := raise F.BOOT_STS.REFUSED (setReason code detail s)
  if ramReason code then
    let n := s1.boot.ramFails + 1
    let s2 := { s1 with boot := { s1.boot with ramFails := n } }
    if 3 ≤ n then minimal s2 else wholeReset s2
  else
    let s2 := journalNow 0x02 [code, detail, 0] s1
    if 3 ≤ failedStarts (jRecords s2) then minimal s2 else wholeReset s2

/-! ### Steps 1 and 2 (R414, R416, R422, R423) -/

/-- MAGIC and FORMAT of a start record are right (R414). -/
def recordForm (bs : List Byte) : Bool := leAt bs 0 4 == 0x33575A4C && leAt bs 8 1 == 1

/-- A start record copy by its 512 bytes (R414). -/
def parseRecord (device : List Byte) : StartRecord :=
  let bs := erasedTo 512 device
  { seq := leAt bs 4 4, slot := leAt bs 9 1, flowK := leAt bs 10 2, capW := leAt bs 12 2, absentMax := leAt bs 14 2
    newAbsentMax := leAt bs 16 1, fieldAbsentMax := leAt bs 17 1, minStacks := leAt bs 18 1, fastDays := leAt bs 19 1
    digest := leAt bs 20 32, altDigest := leAt bs 52 32, rest := leAt bs 84 424
    valid := recordForm bs && leAt bs 508 4 == crcOf (bs.take 508) }

/-- What the device is found to hold (R414, R416, R417). (DESIGN CHOICE, unsafe: log entry 5.) -/
def readDevice (i : StartInput) (s : State) : State :=
  let b := s.boot
  { s with boot := { b with
    sr0 := (i.sr0.map parseRecord).getD b.sr0, sr1 := (i.sr1.map parseRecord).getD b.sr1
    img0 := i.img0.getD b.img0, img1 := i.img1.getD b.img1
    area0 := (i.area0.map (scanArea b.area0.fails)).getD b.area0, area1 := (i.area1.map (scanArea b.area1.fails)).getD b.area1 } }

/-- The active journal area (R416): with a valid header, ACTIVE, and the higher GEN. -/
def findArea (s : State) : Option Nat :=
  match decide (s.boot.area0.state = .active), decide (s.boot.area1.state = .active) with
  | true, true => if s.boot.area0.gen < s.boot.area1.gen then some 1 else some 0
  | true, false => some 0
  | false, true => some 1
  | false, false => none

/-- Scan the journal (R416): the other area is retired where it is ACTIVE, and erased where it is not. -/
def scanJournal (n : Nat) (s : State) : State :=
  let b := area (1 - n) s
  let s1 := wr F.JRNL_STATE.AREA n s
  let s2 := if b.state = .erased then s1
    else wr F.JRNL_STATE.ERASING 1 (setArea (1 - n) { b with state := if b.state = .active then .retired else b.state } s1)
  showJournal s2

/-- Records that follow the last START record with this start record SEQ; none where there is no such START. -/
def afterStart (seq : Nat) (l : List JRecord) : Option (List JRecord) :=
  (l.reverse.findIdx? fun x => x.type == 0x01 && x.payload.getD 4 0 == seq).map fun i => l.drop (l.length - i)

/-- The last START record with the same start record SEQ ended without READY, and TRIAL is set (R423). -/
def trialFailed (r : StartRecord) (l : List JRecord) : Bool :=
  isTrial r && (match afterStart r.seq l with
    | some rest => !((rest.takeWhile fun y => y.type != 0x01).any isReadyOutcome)
    | none => false)

/-- The slot tried first (R423). -/
def firstSlot (r : StartRecord) (l : List JRecord) : Nat := if trialFailed r l then 1 - activeSlot r else activeSlot r

/-- The slot started (R423); none where none may. -/
def chooseSlot (r : StartRecord) (s : State) : Option Nat :=
  let f := firstSlot r (jRecords s)
  if slotStarts r f s then some f
  else if f = activeSlot r ∧ fallbackOk r ∧ slotStarts r (1 - f) s then some (1 - f)
  else none

/-- Start count of this start: one more than the last START record's. -/
def startCount (l : List JRecord) : Nat := ((lastOf 0x01 l).map fun r => r.payload.headD 0).getD 0 + 1

/-- The start is fast (R422). -/
def isFast (r : StartRecord) (cfg : Nat) (utc : Option Nat) (l : List JRecord) (s : State) : Bool :=
  match l.getLast?, utc with
  | some x, some now =>
    x.type == 0x08 && x.payload.getD 0 0 == cfg && x.payload.getD 2 0 == 1 &&
      decide (now < x.payload.getD 1 0 + r.fastDays * 86400) && !s.power.tripCell
  | _, _ => false

/-- A PHASE record fails a phase from the next start on (R382, R435): a VCL phase, or a VCM phase from 16 up. -/
def applyPhase (f p : Nat) (s : State) : State :=
  if 72 ≤ f ∨ 64 ≤ p then s
  else if 16 ≤ p then
    { s with power := { s.power with badPhases := (f * 64 + p) :: s.power.badPhases.filter (· != f * 64 + p) } }
  else if phaseFailed f p s then s
  else wr (F.FLD_PHASE.VALUE f) (rd (F.FLD_PHASE.VALUE f) s + 2 ^ p) (wr (F.FLD_PWR_STATE.PHASES f) (phases f s - 1) s)

/-- A SENSOR record (R380, R394, R435): key below 16 a pair's mark, 0x100 the VCM mark, from 0x200 a thermal sensor, from 0x300
a voltage sensor. -/
def applySensor (f key set : Nat) (s : State) : State :=
  if 72 ≤ f then s
  else if key < 16 then
    let m := rd (F.FLD_TEMP.SUSPECT f) s
    let had := bitsOf m key 1
    wr (F.FLD_PAIR.SUSPECT f key) (set % 2) (wr (F.FLD_TEMP.SUSPECT f) (m - had * 2 ^ key + set % 2 * 2 ^ key) s)
  else if key = 0x100 then wr (F.FLD_PWR_STATE.VCM_SUSPECT f) (set % 2) s
  else if 0x200 ≤ key ∧ key < 0x220 then
    let k := f * 32 + (key - 0x200)
    let rest := s.power.badSensors.filter (· != k)
    { s with power := { s.power with badSensors := if set = 1 then k :: rest else rest } }
  else if 0x300 ≤ key ∧ key < 0x360 then
    let k := f * 96 + (key - 0x300)
    let rest := s.power.badVolts.filter (· != k)
    { s with power := { s.power with badVolts := if set = 1 then k :: rest else rest } }
  else s

/-- What the journal's records bring back at a start (R205, R326, R382, R394, R435). -/
def applyRecord (r : JRecord) (s : State) : State :=
  match r.type, r.payload with
  | 0x0B, [f, p] => applyPhase f p s
  | 0x0C, [f, k, b] => applySensor f k b s
  | 0x06, [e] => wr F.PAIR_EPOCH.VALUE e s
  | 0x0A, [n, c, b, a] => { s with kv := { s.kv with repairs := ⟨n, c, b, a⟩ :: s.kv.repairs } }
  | _, _ => s

/-- FLOW_K and CAP_W of the start record (R414); a value that R392 or R401 does not allow is not taken. -/
def loadConfig (r : StartRecord) (s : State) : State :=
  let k := r.flowK
  let s1 := if k = 0 ∨ k < 200 ∨ 1333 < k then wr F.COOL_CFG.FLOW_K 0 s else wr F.COOL_CFG.FLOW_K k s
  if 12000 ≤ r.capW ∧ r.capW ≤ 36000 then wr F.PWR_CAP.VALUE r.capW s1 else s1

/-- The bundle of a slot runs (R423, R442). -/
def runBundle (r : StartRecord) (slot : Nat) (s : State) : State :=
  let b := imageSlot slot s
  let other := slot != activeSlot r
  let s1 := { s with
    sec := { s.sec with bundle := b.digest, svn := b.svn, fallback := other }
    boot := { s.boot with configId := configIdOf r slot } }
  let s2 := wr F.BOOT_STATE.SLOT slot (wrB F.BOOT_STATE.TRIAL (isTrial r) (setCnt F.BUNDLE_VER b.version s1))
  startIdentity (when other (raise F.BOOT_STS.FALLBACK) s2)

/-- Reason of the last failed attempt in the journal. -/
def lastReason (l : List JRecord) : Nat × Nat :=
  match lastOf 0x02 l with
  | some r => (r.payload.getD 0 0, r.payload.getD 1 0)
  | none => (0, 0)

/-- Three failed starts are counted at step 2 (R431): `BOOT_REASON` holds the reason of the last failed attempt (R432). -/
def minimalAtStart (r : StartRecord) (s : State) : State :=
  let p := lastReason (jRecords s)
  let s1 := setReason p.1 p.2 s
  minimal (match chooseSlot r s with
    | some slot => runBundle r slot s1
    | none => s1)

/-- The TRIP record (R398, R422). -/
def noteTrip (s : State) : State := if s.power.tripCell then journal 0x0F [] .trip (raise F.BOOT_STS.TRIP s) else s

/-- The start record in force is known and the journal is scanned: START is written, the slot chosen (R422 step 2). -/
def beginRun (i : StartInput) (r : StartRecord) (s : State) : Bool × State :=
  let l := jRecords s
  let n := startCount l
  let first := firstSlot r l
  let slot := (chooseSlot r s).getD first
  let fast := isFast r (configIdOf r slot) i.utc l s
  let s1 := wr F.BOOT_STATE.FAILS (min 3 (failedStarts l)) (wr F.START_CNT.VALUE n s)
  let s2 := { s1 with boot := { s1.boot with starts := n, utc := i.utc.getD 0 } }
  let s3 := journalNow 0x01 [n, slot, configIdOf r slot, i.utc.getD 0, r.seq] s2
  match chooseSlot r s with
  | none => (false, failStart 3 0 s3)
  | some k =>
    let s4 := wrB F.BOOT_STATE.FAST fast (when (!fast) (raise F.BOOT_STS.SLOW) (runBundle r k s3))
    (true, loadConfig r (noteTrip (forEach l applyRecord s4)))

/-- Steps 1 and 2 (R422): whether the attempt goes on, and the state. -/
def startSteps12 (i : StartInput) (s0 : State) : Bool × State :=
  let s := wr F.BOOT_STATE.STEP 1 (atTime i.t { s0 with boot := { s0.boot with programs := i.programs } })
  if !i.norOk then (false, failStart 1 0 s)
  else
    let s1 := wr F.BOOT_STATE.STEP 2 (readDevice i s)
    match copyInForce s1, findArea s1 with
    | none, _ => (false, failStart 2 0 s1)
    | _, none => (false, failStart 4 0 s1)
    | some _, some n =>
      let s3 := { scanJournal n s1 with boot := { (scanJournal n s1).boot with inForce := copyInForce s1 } }
      let s2 := wr F.START_CNT.VALUE (startCount (jRecords s3) - 1) s3
      let r := recInForce s2
      if 3 ≤ failedStarts (jRecords s2) then (false, minimalAtStart r s2) else beginRun i r s2

/-! ### Steps 6 to 8: the defect union (R424 to R427) -/

/-- A list without repeats. -/
def distinct (l : List Nat) : List Nat := l.foldl (fun acc x => if acc.contains x then acc else acc ++ [x]) []

/-- The router taken as defective of two whose link failed again (R425). -/
def blamed (a b : Nat) : Nat :=
  if physCol a < physCol b ∨ (physCol a = physCol b ∧ physRow a < physRow b) then b else a

/-- A number names a physical position: one of 132 in each row of 24 of each field (R35, R424). -/
def isPosition (p : Nat) : Bool := decide (p < 72 * 8192) && decide (p / 256 % 32 < 24) && decide (p % 256 < 132)

/-- A report that the neighbour test can make (R424): of a position, by one of its physical neighbours, of which it has four, at the array's
edge three and at a corner two. -/
def reportOk (r : NeighbourReport) : Bool := isPosition r.pos && isPosition r.by_ && sideBySide r.pos r.by_

/-- The reports on a position (R424), one of each neighbour: those that carry a failure bit. -/
def reportsOn (i : StartInput) (p : Nat) : List NeighbourReport :=
  let mine := i.reports.filter fun r => r.pos == p && reportOk r
  (mine.foldl (fun acc r => if acc.any (·.by_ == r.by_) then acc else acc ++ [r]) []).filter fun r => r.cell || r.path

/-- What the reports on a position come to (R425): a defect, and whether of the router. (DEDUCED, unsafe: log entry 55.) -/
def judged (i : StartInput) (p : Nat) : Option (Nat × Bool) :=
  match reportsOn i p with
  | [] => none
  | [r] => if i.linkAgain.contains (p, r.by_) then some (blamed p r.by_, true) else none
  | l => some (p, decide (2 ≤ (l.filter (·.path)).length))

/-- Positions that the neighbour test finds defective (R425), with whether the router is. (DEDUCED, unsafe: log entry 55.) -/
def testFound (i : StartInput) : List (Nat × Bool) := (distinct (i.reports.map (·.pos))).filterMap (judged i)

/-- DEFECT records of the journal: position, and whether the router is. -/
def journalDefects (l : List JRecord) : List (Nat × Bool) :=
  (l.filter fun r => r.type == 0x03).map fun r => (r.payload.getD 0 0, r.payload.getD 1 0 == 1)

/-- Defects of the fuse map. -/
def fuseDefects (s : State) : List (Nat × Bool) :=
  s.fuses.cellMap.map (fun p => (p, false)) ++ s.fuses.routerMap.map fun p => (p, true)

/-- Add defects to the set (R426): a router defect in any source makes the position a router defect. -/
def joinDefects (l : List (Nat × Bool)) (s : State) : State :=
  forEach l (fun p t => if p.2 && t.mesh.markedOut.contains p.1 then t else addDefect p.1 p.2 t) s

/-- Rows with a defect, field × 32 + row. -/
def defectRows (s : State) : List Nat := distinct (s.mesh.defects.map (· / 256))

/-- Write `SPARE_MAP` from the defect set; the routers of each row read their copy (R63, R426). -/
def writeSpareMaps (s : State) : State :=
  forEach (defectRows s) (fun k t => setRow (k / 32) (k % 32) (rowWord t.mesh.defects t.mesh.markedOut (k / 32) (k % 32)) t) s

/-- One DISCREP record per field with a nonzero count (R426). (DEDUCED, unsafe: log entry 55.) -/
def noteDiscrep (fuse jrnl : List Nat) (s : State) : State :=
  let fields := (List.range 72).filter fun f => (fuse ++ jrnl).any fun p => p / 8192 == f
  let count := fun (l : List Nat) (f : Nat) => (l.filter fun p => p / 8192 == f).length
  let s1 := forEach fields (fun f t => journalNow 0x04 [f, count fuse f, count jrnl f] t) s
  let s2 := wr F.DISCREP_CNT.JRNL jrnl.length (wr F.DISCREP_CNT.FUSE fuse.length s1)
  when (!fields.isEmpty) (raise F.BOOT_STS.DISCREP) s2

/-- Step 7 (R426). -/
def defectUnion (i : StartInput) (s : State) : State :=
  let found := testFound i
  let bad := distinct (found.map (·.1))
  let fuse := distinct ((fuseDefects s).map (·.1))
  let jrnl := distinct ((journalDefects (jRecords s)).map (·.1))
  let test := found.filter fun p => !fuse.contains p.1
  let fresh := test.filter fun p => !jrnl.contains p.1
  let s1 := joinDefects (fuseDefects s ++ journalDefects (jRecords s) ++ found) s
  let s2 := forEach test (fun p t => journalNow 0x03 [p.1, bitN p.2, 0] t) s1
  let s3 := noteDiscrep (without fuse bad) (without jrnl bad) s2
  writeSpareMaps (wr F.NEW_DEFECT.VALUE (distinct (fresh.map (·.1))).length s3)

/-- Step 8 (R427): a cell that fails the culture twice is defective, and the union is formed again. -/
def cultureStep (i : StartInput) (s : State) : State :=
  let fresh := (distinct i.cultureFail).filter fun p => !s.mesh.defects.contains p
  let s1 := forEach fresh (fun p t => journalNow 0x03 [p, 0, 2] t) (joinDefects (fresh.map fun p => (p, false)) s)
  let s2 := wr F.NEW_DEFECT.VALUE (rd F.NEW_DEFECT.VALUE s + fresh.length) s1
  { writeSpareMaps s2 with cellMem := [] }

/-! ### Step 9: the stacks (R208, R428) -/

/-- Rate and settings of the latest TRAIN record of a stack. -/
def lastTrain (n : Nat) (l : List JRecord) : Option (Nat × Nat) :=
  ((l.reverse.find? fun r => r.type == 0x09 && r.payload.headD 12 == n).map fun r => (r.payload.getD 1 0, r.payload.getD 2 0))

/-- A stack's first patrol pass begins (R207). -/
def patrolBegins (n : Nat) (s : State) : State :=
  { s with kv := { s.kv with patrolStart := Table.set (fun _ => 0) s.kv.patrolStart n s.now } }

/-- A stack is ACTIVE and in service at a rate, with its settings in force; its patrol begins. -/
def stackActive (n rate settings : Nat) (s : State) : State :=
  patrolBegins n (wr (F.HS_STATE.RATE n) rate (wr (F.HS_STATE.SVC n) 1 (wr (F.HS_STATE.STATE n) 1
    { s with kv := { s.kv with settings := Table.set (fun _ => 0) s.kv.settings n settings } })))

/-- Full training (R208, R428). -/
def trainStack (n : Nat) (x : StackTrain) (s : State) : State :=
  if x.rate < 3 then journalNow 0x09 [n, x.rate, x.settings] (stackActive n x.rate x.settings s)
  else raise (F.HS_STS.TRAIN n) (wr (F.HS_STATE.STATE n) 2 s)

/-- One stack is brought up (R428). -/
def bringUp (fast : Bool) (l : List JRecord) (hbm : List StackTrain) (n : Nat) (s : State) : State :=
  let x := hbm.getD n StackTrain.none_
  match fast, lastTrain n l with
  | true, some p => if x.verified then stackActive n p.1 p.2 s else trainStack n x (raise (F.HS_STS.TRAIN n) s)
  | _, _ => trainStack n x s

/-- Step 9: every stack, then zeroisation of those in service (R428, R453). -/
def stackStep (i : StartInput) (s : State) : State :=
  let l := jRecords s
  { forEach (List.range 12) (bringUp (on F.BOOT_STATE.FAST s) l i.hbm) s with stackMem := [] }

/-! ### Step 10: topology and READY (R429) -/

/-- The group of a position: row key × 4 + cluster. -/
def groupOf (p : Nat) : Nat := p / 256 * 4 + p % 256 / 33

/-- Groups that hold two or more of these defects: their clusters are absent (R37, R426). -/
def absentGroups (d : List Nat) : List Nat :=
  distinct ((d.filter fun p => decide (2 ≤ (d.filter fun q => groupOf q == groupOf p).length)).map groupOf)

/-- A field is unusable (R429): two marked-out routers that cannot both be bypassed, or too many absent clusters. -/
def fieldRefused (r : StartRecord) (f : Nat) (s : State) : Bool :=
  ((noBypass s).any fun p => p / 8192 == f) ||
    decide (r.fieldAbsentMax < ((absentGroups s.mesh.defects).filter fun g => g / 128 == f).length)

/-- Why READY is refused (R429): reason and DETAIL. -/
def refusal (r : StartRecord) (s : State) : Option (Nat × Nat) :=
  let gone := absentGroups s.mesh.defects
  let earlier := (jRecords s).filter fun x => x.start != rd F.START_CNT.VALUE s % 65536
  let known := absentGroups (distinct ((fuseDefects s ++ journalDefects earlier).map (·.1)))
  let inService := (stacksInService s).length
  match (List.range 72).find? fun f => decide (phases f s < 8), (List.range 72).find? fun f => fieldRefused r f s with
  | some f, _ => some (0x0D, f)
  | none, some f => some (0x09, f)
  | none, none =>
    if r.absentMax < gone.length then some (0x0A, 0)
    else if r.newAbsentMax < (gone.filter fun g => !known.contains g).length then some (0x0B, 0)
    else if inService < r.minStacks then some (0x0C, inService)
    else none

/-- After a trial or a fallback start the slot started is named as active (R423). -/
def rewriteStartRecord (r : StartRecord) (s : State) : State :=
  let slot := rd F.BOOT_STATE.SLOT s
  if isTrial r ∨ slot ≠ activeSlot r then
    let swap := decide (slot ≠ activeSlot r)
    let r1 : StartRecord := { r with
      seq := r.seq + 1, slot := slot + 4 * bitN (fallbackOk r)
      digest := if swap then r.altDigest else r.digest, altDigest := if swap then r.digest else r.altDigest, rest := 0 }
    let n := 1 - (copyInForce s).getD 0
    setStartRec n r1 { s with boot := { s.boot with inForce := some n } }
  else s

/-- READY is declared (R429). -/
def declareReady (i : StartInput) (r : StartRecord) (s : State) : State :=
  let s1 := journalNow 0x02 [0, 0, i.ms] s
  let s2 := rewriteStartRecord r { s1 with
    boot := { s1.boot with attempt := none, ramFails := 0 }, agent := { s1.agent with firmware := false } }
  let s3 := wr F.BOOT_TIME.VALUE i.ms (wr F.BOOT_STATE.FAILS 0 (wr F.BOOT_STATE.STEP 0 (wr F.BOOT_STATE.MODE 1 s2)))
  let s4 := pldm 0x20 i.ms (raise F.BOOT_STS.READY s3)
  when (flowK s4 == 0) (warn 0x10 0 F.THR_STS.CFG) s4

/-- Step 10 (R429, R430). -/
def readyStep (i : StartInput) (s0 : State) : State :=
  let s := wr F.BOOT_STATE.STEP 10 s0
  let r := recInForce s
  if 60000 < i.ms then failStart 0x0F 0 s
  else match refusal r s with
    | some (code, detail) => failStart code detail s
    | none => declareReady i r s

/-! ### Steps 3 to 9 -/

/-- A result of a test unit (R435): a failed sensor or phase goes to the journal. (DESIGN CHOICE, unsafe: log entry 54.) -/
def noteResult (x : Nat × Nat) (s : State) : State :=
  let test := x.1 / 65536
  let unit := x.1 % 65536
  if x.2 ≠ 1 then s
  else if test = 2 then journal 0x0C [unit / 96, 0x300 + unit % 96, 1] .none s
  else if test = 3 then journal 0x0C [unit / 32, 0x200 + unit % 32, 1] .none s
  else if test = 4 then journal 0x0B [unit / 64, unit % 64] .none s
  else s

/-- Steps 4 to 10, after `COOL_OK`. -/
def startSteps4 (i : StartInput) (s0 : State) : State :=
  let s := wr F.BOOT_STATE.STEP 4 { s0 with boot := { s0.boot with attempt := none } }
  if !i.analogue then failStart 7 0 s
  else
    let s1 := if on F.BOOT_STATE.FAST s then s else forEach i.bist noteResult s
    let s2 := wr F.BOOT_STATE.STEP 5 s1
    if !i.fuseOk then failStart 8 0 s2
    else
      let s3 := wr F.BOOT_STATE.STEP 8 (defectUnion i s2)
      if !i.culture then failStart 0x0E 0 s3
      else readyStep i (stackStep i (wr F.BOOT_STATE.STEP 9 (cultureStep i s3)))

/-- Step 3 (R422, R491): with `COOL_OK` not asserted the start waits. -/
def startStep3 (i : StartInput) (s0 : State) : State :=
  let s := wr F.BOOT_STATE.STEP 3 s0
  if !i.rails then failStart 5 0 s
  else if !i.plls then failStart 6 0 s
  else if s.mgmt.coolOk then startSteps4 i s
  else { s with boot := { s.boot with attempt := some i } }

/-- A start may begin (R422): a feed is OK, and the module has just been reset. (DESIGN CHOICE, unsafe: log entry 2.)
(DEDUCED, unsafe: log entry 55.) -/
def mayStart (s : State) : Bool :=
  (feedIsOk 0 s || feedIsOk 1 s) && starting s && rd F.BOOT_STATE.STEP s == 0 && !s.mgmt.inReset

/-- START (R422). -/
def start (i : StartInput) (s : State) : State :=
  if mayStart s then
    let p := startSteps12 i s
    if p.1 then startStep3 i p.2 else p.2
  else s

/-- START. -/
def execStart (input : StartInput) (s : State) : Host.Outcome State Fault Refusal := .next (start input s)

/-- COOL_OK (R403, R486, R491): a start that waits in step 3 goes on once the input is asserted. -/
def coolOkRow (level : Bool) (heldUs t : Nat) (s : State) : State :=
  let s1 := coolOk level heldUs t s
  match s1.boot.attempt, s1.mgmt.coolOk with
  | some i, true => startSteps4 i s1
  | _, _ => s1

/-- COOL_OK. -/
def execCoolOk (level : Bool) (heldUs t : Nat) (s : State) : Host.Outcome State Fault Refusal := .next (coolOkRow level heldUs t s)

/-- The waiting start fails with a reason. (DEDUCED, unsafe: log entry 10.) -/
def failWaiting (code : Nat) (s : State) : State :=
  match s.boot.attempt with
  | some _ => failStart code 0 s
  | none => s

/-- COOL_OK_TIMEOUT (R491): 10 s of step 3 have passed. -/
def execCoolOkTimeout (s : State) : Host.Outcome State Fault Refusal := .next (failWaiting 0x10 s)

/-- START_TIMEOUT (R430): READY has not been declared within 60 s of step 1. -/
def execStartTimeout (s : State) : Host.Outcome State Fault Refusal := .next (failWaiting 0x0F s)

/-! ### Leaving minimal mode and halting (R432) -/

/-- CLR (R432): a CLEAR record sets the count to 0. (DEDUCED, unsafe: log entry 57.) -/
def clearFails (s : State) : State :=
  if mailboxUp s then
    journal 0x10 [] .none (wr F.BOOT_STATE.FAILS 0 { s with boot := { s.boot with ramFails := 0 } })
  else s

/-- CLR. -/
def execClr (s : State) : Host.Outcome State Fault Refusal := .next (clearFails s)

/-- RESTART (R432, R437): from MINIMAL or HALTED a new start begins by whole-module reset, once the records that wait have been written;
ignored otherwise. (DEDUCED, unsafe: log entry 57.) -/
def restart (s : State) : State :=
  if mailboxUp s ∧ (rd F.BOOT_STATE.MODE s = 2 ∨ rd F.BOOT_STATE.MODE s = 4) then wholeReset (writeWaiting s) else s

/-- RESTART. -/
def execRestart (s : State) : Host.Outcome State Fault Refusal := .next (restart s)

/-! ### Staging (R415) -/

/-- STAGE_LEN. -/
def stageLen (s : State) : Nat := rd F.STAGE_LEN.VALUE s

/-- The size of the data is refused before anything is read (R415). -/
def stageSizeBad (target : Nat) (s : State) : Bool :=
  if target = 0 then stageLen s == 0 || decide (33554432 < stageLen s) else target == 1 && decide (stageLen s < 512)

/-- A staging operation begins (R415): the data of an image or of a start record are read from host memory over OCL (R286, R290). -/
def stageBegin (target : Nat) (s : State) : State :=
  let s1 := setReg O.STAGE_STATE 1 (wr F.STAGE_CTRL.TARGET target { s with boot := { s.boot with
    staged := if target = 1 then some .record else if target = 2 then some .dump else none, stageData := none, stageBad := false } })
  if target = 2 ∨ stageSizeBad target s then { s1 with boot := { s1.boot with stageData := some [] } }
  else startFetch .stage (addr64 O.STAGE_SRC O.STAGE_SRC_HI s) (stageLen s) s1

/-- A write of `STAGE_CTRL` with TARGET and GO: ignored while BUSY. -/
def stageGo (target : Nat) (s : State) : State :=
  if !mailboxUp s then s
  else if on F.STAGE_STATE.BUSY s then wr F.STAGE_CTRL.TARGET target s
  else stageBegin target s

/-- STAGE_IMAGE (R415): the write, and what the bytes of host memory spell; after a plain write of `STAGE_CTRL` it supplies just that.
(DEDUCED, unsafe: log entry 56.) -/
def stageImage (b : ImageSlot) (s : State) : State :=
  let take := fun (t : State) => { t with boot := { t.boot with staged := some (.image b) } }
  if on F.STAGE_STATE.BUSY s then
    if s.boot.staged.isNone ∧ rd F.STAGE_CTRL.TARGET s = 0 ∧ mailboxUp s then take s else stageGo 0 s
  else if mailboxUp s then take (stageBegin 0 s) else s

/-- A plain write of `STAGE_CTRL` (R415, R437). -/
def stageCtrl (v : Word) (s : State) : State :=
  let target := fieldOf v 0 2
  if !bitAt v 31 ∨ on F.STAGE_STATE.BUSY s ∨ target = 3 then wr F.STAGE_CTRL.TARGET target s else stageBegin target s

/-- STAGE_IMAGE (R415). -/
def execStageImage (bundle : ImageSlot) (s : State) : Host.Outcome State Fault Refusal := .next (stageImage bundle s)

/-- STAGE_START_RECORD (R415): the write of `STAGE_CTRL` has GO and TARGET 1. -/
def execStageStartRecord (v : Word) (s : State) : Host.Outcome State Fault Refusal :=
  .next (when (bitAt v 31 && fieldOf v 0 2 == 1) (stageGo 1) s)

/-- STAGE_JOURNAL_DUMP (R415). -/
def execStageJournalDump (s : State) : Host.Outcome State Fault Refusal := .next (stageGo 2 s)

/-- The data of a staging operation have been read. -/
def stageRead (bs : List Byte) (s : State) : State := { s with boot := { s.boot with stageData := some bs } }

/-- A read of a staging operation has failed twice (R290). -/
def stageFailed (s : State) : State := { s with boot := { s.boot with stageData := some [], stageBad := true } }

/-- The form of a staged start record (R415): MAGIC, FORMAT and the reserved fields; SEQ and CRC are the W3's to write. -/
def stagedForm (bs : List Byte) : Bool := recordForm bs && (parseRecord bs).rest == 0 && decide ((parseRecord bs).slot < 8)

/-- Error that the data themselves bring (R415): 1 AUTH, 2 SIZE, 3 RECORD; 0 for none. (DEDUCED, unsafe: log entry 56.) -/
def stageError (x : Staged) (bs : List Byte) (s : State) : Nat :=
  match x with
  | .image b => if stageSizeBad 0 s then 2 else if bundleVerifies b s then 0 else 1
  | .record =>
    let names := fun (n : Nat) => bundleVerifies (imageSlot n s) s && (imageSlot n s).digest == (parseRecord bs).digest
    if stageSizeBad 1 s then 2 else if stagedForm bs && (names 0 || names 1) then 0 else 3
  | .dump => 0

/-- What a staging operation leaves (R415): the copy in force is the one that the last start took. (DEDUCED, unsafe: log entry 56.) -/
def stagePut (x : Staged) (bs : List Byte) (s : State) : State :=
  match x with
  | .image b => setImageSlot (match s.boot.inForce with | some n => 1 - activeSlot (startRec n s) | none => 0) b s
  | .record =>
    match s.boot.inForce with
    | some n => setStartRec (1 - n) { parseRecord bs with seq := (startRec n s).seq + 1, valid := true } s
    | none => setStartRec 0 { parseRecord bs with seq := 1, valid := true } s
  | .dump =>
    let bytes := (jRecords s).flatMap recordBytes
    let n := min (cdiv bytes.length 64) (stageLen s / 64)
    writeLines n (addr64 O.STAGE_SRC O.STAGE_SRC_HI s) (bytes.take (64 * n)) s

/-- ERROR of a staging operation whose data have come (R415): 5 READ, 4 NOR where the device failed, or what the data bring. -/
def stageCode (error : Nat) (bs : List Byte) (s : State) : Nat :=
  if s.boot.stageBad then 5
  else
    let e := ((s.boot.staged.map fun x => stageError x bs s).getD 0)
    if e = 0 ∧ error = 4 then 4 else e

/-- STAGE_DONE (R415): the operation ends, once its data have been read; `error` is 4 where the NOR device failed. -/
def stageDone (error : Nat) (s : State) : State :=
  match on F.STAGE_STATE.BUSY s && (s.boot.staged.isSome || s.boot.stageBad), s.boot.stageData with
  | true, some bs =>
    let e := stageCode error bs s
    let s1 : State := { s with boot := { s.boot with staged := none, stageData := none, stageBad := false } }
    let s2 := match s.boot.staged, decide (e = 0) with
      | some x, true => stagePut x bs s1
      | _, _ => s1
    raise F.BOOT_STS.STAGE_DONE (setReg O.STAGE_STATE (if e = 0 then 2 else BitVec.ofNat 32 (4 + 256 * e)) s2)
  | _, _ => s

/-- STAGE_DONE. -/
def execStageDone (error : Nat) (s : State) : Host.Outcome State Fault Refusal := .next (stageDone error s)

/-! ### Orderly shutdown and self-test (R433 to R436) -/

/-- UTC seconds now: those of the start and the time since; 0 where unknown. -/
def utcNow (s : State) : Nat := if s.boot.utc = 0 then 0 else s.boot.utc + s.now / (1000000 * usCycles)

/-- Step 5 (R433): the SHUTDOWN record; `ran` when a self-test was made. -/
def writeShutdown (ok ran : Bool) (s : State) : State :=
  journal 0x08 [s.boot.configId, utcNow s, bitN ok, bitN ran] .shutdown { s with boot := { s.boot with shutdown := 5, bistOk := ok } }

/-- Steps 3 and 4 (R433), once every model is closed. (DEDUCED, unsafe: log entry 57.) -/
def shutdownGoOn (s : State) : State :=
  if rd F.BOOT_STATE.MODE s = 3 ∧ s.boot.shutdown = 2 ∧ ((List.range 16).all fun m => slotSt m s == 0) then
    let s1 := zeroMemory (holdFw 6 { s with boot := { s.boot with shutdown := 4, bist := [], bistHot := [], bistOk := true } })
    let s2 := match s1.sec.wait with
      | .zeroise mgmt => zeroEnd mgmt s1
      | _ => s1
    if on F.SHUT_CTRL.SKIP_BIST s2 then writeShutdown false false s2 else wr F.BOOT_STATE.WAVE 0 s2
  else s

/-- SHUTDOWN (R433): the host writes `SHUT_CTRL`; GO is refused unless MODE is READY. (DEDUCED, unsafe: log entry 57.) -/
def shutdown (v : Word) (s0 : State) : State :=
  let s := wr F.SHUT_CTRL.SKIP_BIST (fieldOf v 2 1) (wr F.SHUT_CTRL.POWER_OFF (fieldOf v 1 1) s0)
  if !bitAt v 0 then s
  else if !ready s then raise F.BOOT_STS.SHUT_REFUSED s
  else
    let paired_ := pairSt s == 2 || pairSt s == 3 || pairSt s == 4 || pairSt s == 5
    let s1 := when paired_ leavePair { s with boot := { s.boot with shutdown := 2 } }
    let s2 := wr F.BOOT_STATE.MODE 3 (wr F.SVC_CTRL.ADMIT 0 s1)
    let open_ := (List.range 16).filter fun m => slotSt m s2 != 0
    let s3 := if s2.faults.stopped then forEach open_ (fun m t => forEach (uncommitted m t) abandonStep t) s2 else s2
    shutdownGoOn (forEach (open_.filter fun m => !(modelSlot m s3).closing) beginClose s3)

/-- SHUTDOWN. -/
def execShutdown (value : Word) (s : State) : Host.Outcome State Fault Refusal := .next (shutdown value s)

/-- CLOSE_COMPLETE (R239, R453): it may let a shutdown go on (R433). -/
def execCloseComplete (m : Nat) (s : State) : Host.Outcome State Fault Refusal := .next (shutdownGoOn (closeComplete m s))

/-- Both sensors of a pair passed (R435). -/
def pairPassed (f p : Nat) (l : List (Nat × Nat)) : Bool :=
  [0, 1].all fun side => l.contains (3 * 65536 + f * 32 + p * 2 + side, 0)

/-- Marks of thermal pairs whose two sensors passed are cleared by a SENSOR record (R435). -/
def clearMarks (l : List (Nat × Nat)) (s : State) : State :=
  forEach (List.range 72) (fun f t =>
    forEach ((List.range 16).filter fun p => bitsOf (rd (F.FLD_TEMP.SUSPECT f) t) p 1 == 1 && pairPassed f p l)
      (fun p u => journal 0x0C [f, p, 0] .none (applySensor f p 0 u)) t) s

/-- A result keeps BIST_OK (R435): no SerDes or PLL test failed, and the unit completed. -/
def keepsOk (x : Nat × Nat) : Bool := x.2 == 0 || (x.2 == 1 && decide (2 ≤ x.1 / 65536))

/-- Field of a unit of a test (R435), where the unit is a field's: a PLL, a voltage or thermal sensor, a regulator phase. -/
def unitField (test unit : Nat) : Option Nat :=
  let f := if test = 1 then unit else if test = 2 then unit / 96 else if test = 3 then unit / 32 else unit / 64
  if 1 ≤ test ∧ f < 72 then some f else none

/-- A result belongs to a wave (R434): its field is one of the wave's, or it is of the rind and of waves 0 and 1.
(DESIGN CHOICE, unsafe: log entry 54.) -/
def ofWave (w : Nat) (x : Nat × Nat) : Bool :=
  match unitField (x.1 / 65536) (x.1 % 65536) with
  | some f => (waveFields w).contains f
  | none => decide (w < 2)

/-- The results of a wave (R434, R436): those of its units, INCOMPLETE where the field has reached 95 °C. -/
def waveResults (w : Nat) (rs : List (Nat × Nat)) (s : State) : List (Nat × Nat) :=
  (rs.filter (ofWave w)).map fun x =>
    match unitField (x.1 / 65536) (x.1 % 65536) with
    | some f => if s.boot.bistHot.contains f then (x.1, 2) else x
    | none => x

/-- Results that one BIST record holds: 236 bytes of payload, eight bytes each (R417). -/
def bistPerRecord : Nat := 29

/-- Journal self-test results: as many BIST records as they take, in order. `n` bounds them. -/
def journalBist : Nat → List (Nat × Nat) → State → State
  | 0, _, s => s
  | n + 1, l, s =>
    let s1 := journal 0x07 ((l.take bistPerRecord).flatMap fun x => [x.1, x.2]) .none s
    if l.length ≤ bistPerRecord then s1 else journalBist n (l.drop bistPerRecord) s1

/-- The self-test ends (R435): its BIST records hold every result. (PRESUMED, unsafe: log entry 52.) -/
def endBist (s : State) : State :=
  let s1 := clearMarks s.boot.bist s
  let s2 := journalBist (s1.boot.bist.length + 1) s1.boot.bist s1
  writeShutdown s2.boot.bistOk true (when (!s2.boot.bistOk) (raise F.BOOT_STS.BIST_FAIL) s2)

/-- BIST_WAVE (R434 to R436): a wave completes; the next begins, or the test ends. A fatal event has stopped it for good. -/
def bistWave (wave : Nat) (results : List (Nat × Nat)) (s : State) : State :=
  if rd F.BOOT_STATE.MODE s ≠ 3 ∨ s.boot.shutdown ≠ 4 ∨ rd F.BOOT_STATE.WAVE s ≠ wave ∨ s.faults.stopped then s
  else
    let mine := waveResults wave results s
    let s1 := { s with boot := { s.boot with
      bist := s.boot.bist ++ mine, bistHot := [], bistOk := s.boot.bistOk && mine.all keepsOk } }
    let s2 := forEach mine noteResult s1
    if wave < 8 then wr F.BOOT_STATE.WAVE (wave + 1) s2 else endBist s2

/-- BIST_WAVE. -/
def execBistWave (wave : Nat) (results : List (Nat × Nat)) (s : State) : Host.Outcome State Fault Refusal :=
  .next (bistWave wave results s)

/-- The SHUTDOWN record is durable (R433 step 6). -/
def halt (s : State) : State :=
  let s1 := wr F.BOOT_STATE.MODE 4 { s with boot := { s.boot with shutdown := 6 } }
  when (on F.SHUT_CTRL.POWER_OFF s1) assertPwrOff s1

/-! ### Durable records (R419) -/

/-- What follows a record that has become durable. -/
def afterDurable (d : Durable) (s : State) : State :=
  match d with
  | .none => s
  | .epoch => epochDurable s
  | .thermalFatal => assertPwrOff s
  | .shutdown => if rd F.BOOT_STATE.MODE s = 3 then halt s else s
  | .lms tree => lmsDurable tree s
  | .trip => { s with power := { s.power with tripCell := false } }

/-- JOURNAL_WRITE (R419): the page program of the first waiting record ends, and `ok` says whether the read-back matched. -/
def journalWrite (ok : Bool) (s : State) : State :=
  let p := journalStep ok s
  match p.1 with
  | some d => afterDurable d p.2
  | none => if p.2.boot.failed && !s.boot.failed then resumeSigning p.2 else p.2

/-- JOURNAL_WRITE. -/
def execJournalWrite (ok : Bool) (s : State) : Host.Outcome State Fault Refusal := .next (journalWrite ok s)

end Sys2Proof.Machine
end

