-- ==== Sys2Proof/Machine/CellWin.lean ====
section
/-!
DEFINITION. Which parts of the register window answer (R466), and the cell configuration window: its access, its checks and its ends
(R60, R478 to R481).
-/
namespace Sys2Proof.Machine
open Sys2Proof

/-! ### Parts of the window that answer (R466) -/

/-- The whole window answers: READY or SHUTTING_DOWN. -/
def wholeWindow (s : State) : Bool := rd F.BOOT_STATE.MODE s == 1 || rd F.BOOT_STATE.MODE s == 3

/-- A plain offset lies in the mailbox block (R459). -/
def inMailbox (off : Nat) : Bool := decide (0x1500000 ≤ off) && decide (off < 0x1600000)

/-- A plain offset is one of the `SPARE_MAP` registers (R62). -/
def inSpareMap (off : Nat) : Bool :=
  decide (0x100000 ≤ off) && decide (off < 0x580000) && decide (0x1100 ≤ (off - 0x100000) % 0x10000) &&
    decide ((off - 0x100000) % 0x10000 < 0x1160)

/-- The register at a plain offset answers an access of the management path or of OCL (R305, R458, R466). -/
def answersAt (mgmt : Bool) (off : Nat) (s : State) : Bool :=
  if s.mgmt.inReset || s.power.off then false
  else if inMailbox off then mailboxUp s
  else if !mgmt && s.ocl.closed then false
  else if wholeWindow s then true
  else if off / 0x1000 == 0xE || off / 0x1000 == 0xA then true
  else starting s && inSpareMap off

/-! ### The cell configuration window -/

/-- Firmware holds the configuration agent: at the start, for a placement change and for a caldera variant (R480).
(DEDUCED, unsafe: log entry 21.) -/
def firmwareHolds (s : State) : Bool :=
  s.agent.firmware || !s.mesh.placing.isEmpty || (s.faults.job.any fun j => decide (1 ≤ j.phase) && !j.variants.isEmpty)

/-- The packet of an access leaves the agent (R60, R479). -/
def sendCfg (a : CfgAccess) (s : State) : State :=
  passRoute0 (cfgPacket a.cell a.word (if a.write then some a.data else none)) (route agentCell a.cell)
    (wr F.CELL_WIN_STATE.WAIT 0 { s with agent := { s.agent with access := some { a with sent := true } } })

/-- An access ends with an error: 1 RANGE, 2 ABSENT, 3 BOUND, 4 TARGET, 5 TIMEOUT (R478, R479). -/
def cellWinFail (code : Nat) (s : State) : State :=
  raise F.CELL_WIN_STS.ERR
    (wr F.CELL_WIN_STATE.ERROR code (wr F.CELL_WIN_STATE.WAIT 0 (wr F.CELL_WIN_STATE.BUSY 0
      { s with agent := { s.agent with access := none } })))

/-- A field reserved by a model slot that is not FREE holds the target (R237, R479). -/
def boundCell (c : Nat) (s : State) : Bool := (modelOfField (fieldOfCell c) s).isSome

/-- A write of GO with this OP (R479, R480). (DEDUCED, unsafe: log entry 21.) -/
def cellWinGo (write : Bool) (s : State) : State :=
  if on F.CELL_WIN_STATE.BUSY s then raise F.CELL_WIN_STS.REFUSED s
  else
    let s1 := wrB F.CELL_WIN_CTRL.OP write s
    let c := rd F.CELL_WIN_CELL.CELL s
    if cellCount ≤ c then cellWinFail 1 s1
    else if absent c s then cellWinFail 2 s1
    else if write && boundCell c s then cellWinFail 3 s1
    else
      let a : CfgAccess := ⟨c, rd F.CELL_WIN_WORD.WORD s, write, reg O.CELL_WIN_DATA s, false⟩
      let s2 := wr F.CELL_WIN_STATE.BUSY 1 s1
      if firmwareHolds s then wr F.CELL_WIN_STATE.WAIT 1 { s2 with agent := { s2.agent with access := some a } }
      else sendCfg a s2

/-- A row of the host's on a page of the window. -/
def onWindow (off : Nat) (act : State → State) (s : State) : State := if answersAt false off s then act s else s

/-- CELL_WIN_READ. -/
def execCellWinRead (s : State) : Host.Outcome State Fault Refusal := .next (onWindow O.CELL_WIN_CTRL (cellWinGo false) s)

/-- CELL_WIN_WRITE. -/
def execCellWinWrite (s : State) : Host.Outcome State Fault Refusal := .next (onWindow O.CELL_WIN_CTRL (cellWinGo true) s)

/-- An access ends without error (R478, R479). -/
def cellWinDone (a : CfgAccess) (d : Word) (s : State) : State :=
  let s1 := when (!a.write) (setReg O.CELL_WIN_DATA d) s
  let s2 := when (on F.CELL_WIN_WORD.AINC s) (wr F.CELL_WIN_WORD.WORD (rd F.CELL_WIN_WORD.WORD s + 1)) s1
  raise F.CELL_WIN_STS.DONE
    (wr F.CELL_WIN_STATE.ERROR 0 (wr F.CELL_WIN_STATE.BUSY 0 { s2 with agent := { s2.agent with access := none } }))

/-- The response of an access has been discarded on its way, and its replay has not come (R53). -/
def rspLost (err : Bool) (d : Word) (s : State) : Bool :=
  s.agent.access.any fun a => lost0 (rspWords err (if a.write || err then none else some d)) (backRoute a.cell) s

/-- CFG_RSP (R53, R60, R479): the response on its way reaches the agent; one that no access waits for is discarded. -/
def cfgRsp (err : Bool) (d : Word) (s : State) : State :=
  if s.agent.response = some (err, d) ∧ !rspLost err d s then
    let s1 : State := { s with agent := { s.agent with response := none } }
    match s.agent.access with
    | none => s1
    | some a => if !a.sent then s1 else if err then cellWinFail 4 s1 else cellWinDone a d s1
  else s

/-- CFG_RSP. -/
def execCfgRsp (err : Bool) (d : Word) (s : State) : Host.Outcome State Fault Refusal := .next (cfgRsp err d s)

/-- CELL_WIN_TIMEOUT (R479): no response within 16 µs of injection. (DEDUCED, unsafe: log entry 21.) -/
def cellWinTimeout (s : State) : State :=
  match s.agent.access with
  | some a => if a.sent then cellWinFail 5 { s with agent := { s.agent with response := none } } else s
  | none => s

/-- CELL_WIN_TIMEOUT. -/
def execCellWinTimeout (s : State) : Host.Outcome State Fault Refusal := .next (cellWinTimeout s)

/-- CELL_WIN_AGENT_FREE (R480): firmware no longer uses the agent; a waiting packet is sent. -/
def cellWinAgentFree (s : State) : State :=
  let s1 : State := { s with agent := { s.agent with firmware := false } }
  if firmwareHolds s1 then s
  else match s1.agent.access with
    | some a => if a.sent then s1 else sendCfg a s1
    | none => s1

/-- CELL_WIN_AGENT_FREE. -/
def execCellWinAgentFree (s : State) : Host.Outcome State Fault Refusal := .next (cellWinAgentFree s)

end Sys2Proof.Machine
end

