-- ==== Sys2Proof/Machine/OclRows.lean ====
section
/-!
DEFINITION. The transaction layer of OCL: read completions and their failures, snoops, credits, doorbells, encryption of received
messages, moderated interrupts (R287, R290 to R296, R301 to R305), and KEM_FINISH, which reopens a closed session.
-/
namespace Sys2Proof.Machine
open Sys2Proof

/-! ### Messages received -/

/-- The message that a row spells: what its operands say of header and data, the tag slot last where ENC is set (R285). -/
def rowMsg (op tag lenm1 status addr fst : Nat) (poison : Bool) (data : List Slot16) (sec : MsgSec) : Msg :=
  let flags := bitN sec.enc + 2 * bitN poison + 4 * bitN sec.slot
  { hdr := oclHeader op tag lenm1 status flags addr fst 0 0, op := op, tag := tag, lenm1 := lenm1, status := status, flags := flags,
    addr := addr, first := fst, count := 0, vector := 0, data := if sec.enc then data ++ [sec.tag] else data }

/-- The message a row performs: the one that waits in the inbox for it, or else the one that the row spells. (DEDUCED, unsafe: log
entry 40.) -/
def rowTakes (p : Msg → Bool) (m : Msg) (s : State) : Msg := (s.ocl.inbox.find? p).getD m

/-- ENC of a received message. -/
def Msg.enc (m : Msg) : Bool := m.flags.testBit 0

/-- POISON of a received message. -/
def Msg.poison (m : Msg) : Bool := m.flags.testBit 1

/-- KEY_SLOT of a received message. -/
def Msg.keySlot (m : Msg) : Bool := m.flags.testBit 2

/-- Order class of a received message (R286, R288). -/
def rxClass (m : Msg) : Nat := if m.op = 0x20 then 2 else (oclClass m.op).elim 3 (fun c => if c = 2 then 3 else c)

/-- The message `p` names may be handled now: it passes every earlier message of the inbox (R288). -/
def msgTurn (p : Msg → Bool) (s : State) : Bool :=
  match s.ocl.inbox.find? p with
  | none => true
  | some m => (s.ocl.inbox.takeWhile (fun e => !p e)).all fun e => mayPassAs (rxClass m) (rxClass e) (m.tag == e.tag)

/-- A message is performed: it leaves the inbox if it stands there, and its slots are returned as credits (R287);
a message that must wait for an earlier one stays (R288). (DEDUCED, unsafe: log entry 40.) -/
def takeMsg (p : Msg → Bool) (s : State) : State :=
  match s.ocl.inbox.find? p with
  | none => s
  | some m =>
    if !msgTurn p s then s
    else
      let n := 1 + m.data.length
      let s1 : State := { s with ocl := { s.ocl with inbox := s.ocl.inbox.erase m } }
      if oclClass m.op = some 0 then sendCredit n 0 false (modLink 0 (fun l => { l with owedReq := l.owedReq - n }) s1)
      else if oclClass m.op = some 1 then sendCredit 0 n false (modLink 0 (fun l => { l with owedPost := l.owedPost - n }) s1)
      else s1

/-- A receive key slot. -/
def rxKey (slot : Bool) (s : State) : KeySlot := if slot then s.ocl.rx1 else s.ocl.rx0

/-- Store one. -/
def setRxKey (slot : Bool) (k : KeySlot) (s : State) : State :=
  if slot then { s with ocl := { s.ocl with rx1 := k } } else { s with ocl := { s.ocl with rx0 := k } }

/-- A message passes the checks of R303 and R305: its tag checks under its key, whose next counter it must carry; `need` says that MODE
requires encryption. (DESIGN CHOICE, unsafe: log entry 100.) -/
def secOk (need : Bool) (m : Msg) (s : State) : Bool :=
  if m.enc then
    match (rxKey m.keySlot s).epoch with
    | some e => gcmChecks (rxKey m.keySlot s).key e (rxKey m.keySlot s).ctr m.hdr m.data
    | none => false
  else !need

/-- The data slots of a received message in plaintext, the tag slot left out. -/
def plainData (m : Msg) (s : State) : List Slot16 :=
  if m.enc then gcmOpen (rxKey m.keySlot s).key ((rxKey m.keySlot s).epoch.getD 0) (rxKey m.keySlot s).ctr m.data else m.data

/-- A message that passed is accepted: its counter is used; the first one under a new slot retires the old key (R304). -/
def acceptSec (m : Msg) (s : State) : State :=
  if m.enc then
    let k := rxKey m.keySlot s
    let s1 := setRxKey m.keySlot { k with ctr := k.ctr + 1 } s
    if rd F.OCL_ENC.RX_SLOT s = bitN m.keySlot then s1
    else wrB F.OCL_ENC.RX_SLOT m.keySlot (setRxKey (!m.keySlot) KeySlot.reset s1)
  else s

/-- A message that failed is discarded, and the session closes (R305). -/
def failSec (s : State) : State := raise F.OCL_STS.AUTH { s with ocl := { s.ocl with closed := true } }

/-- Perform a message whose encryption MODE may require, with its data in plaintext (R302 to R305).
(DESIGN CHOICE, unsafe: log entry 100.) -/
def checked (need : Bool) (m : Msg) (act : List Slot16 → State → State) (s : State) : State :=
  if secOk need m s then act (plainData m s) (acceptSec m s) else failSec s

/-! ### What a read returns -/

/-- The bytes of data slots, as a number. -/
def slotData (l : List Slot16) : Nat := slotsNat l

/-- The bytes of data slots. -/
def slotBytes (l : List Slot16) : List Byte := natToBytes (16 * l.length) (slotsNat l)

/-- The watched line of a ring has been read again (R294, R295). -/
def ringLine (use : ReadUse) (v : Nat) (s : State) : State :=
  match use with
  | .cmdRing r =>
    let c := cmdRing r s
    if on (F.CMD_RING_CFG.ENABLE r) s ∧ !s.svc.unread.contains r then readEntries r c.prod v (setCmdRing r { c with prod := v } s) else s
  | .tune | .tuneProd => if tuneRingOn s ∧ !s.svc.unread.contains 17 then tuneFetch { s with tune := { s.tune with prod := v } } else s
  | .outRing r => outputRoomWrite r v s
  | .eventRing =>
    if on F.EVT_CFG.ENABLE s ∧ !s.svc.unread.contains 18 then flushEvents { s with ocl := { s.ocl with evCons := v, evFull := false } } else s
  | .teleRing => when (!s.svc.unread.contains 16) (fun t => { t with svc := { t.svc with telCons := v } }) s
  | _ => s

/-- The ring whose header a read with this use fetches. -/
def ringOf (use : ReadUse) : Nat :=
  match use with
  | .cmdRing r => r
  | .outRing r => 8 + r
  | .teleRing => 16
  | .tune => 17
  | _ => 18

/-- The read fetches a whole ring header (R212). -/
def readsHeader (r : HostRead) (s : State) : Bool :=
  !r.watch && r.lenm1 == 1 && r.addr == ringBase (ringOf r.use) s && r.use == ringUse (ringOf r.use)

/-- Token ids of a request have been read (R214, R216). -/
def tokensRead (id : Nat) (bs : List Byte) (s : State) : State :=
  match request id s with
  | none => s
  | some q =>
    let have_ := q.tokens.getD []
    let a := q.tokAddr + 4 * have_.length
    let ts := tokensOf (tokensPerRead a (q.ntok - have_.length)) (bs.drop (a % 64))
    let all := have_ ++ ts
    let s1 := modRequest id (fun x => { x with tokens := some all }) s
    if ts.any fun t => badToken q.model t s then endWhenQuiet id 9 s1
    else if all.length < q.ntok then readTokens (q.tokAddr + 4 * all.length) (q.ntok - all.length) (.tokens id) s1
    else mirrorTokens q all s1

/-- Slice map entries have been read (R242, R246). -/
def sliceMapRead (m : Nat) (bs : List Byte) (s : State) : State :=
  if (modelSlot m s).recv.isNone then s
  else
    let have_ := (modelSlot m s).slices.length
    let a := sliceMapAddr m s + 32 * have_
    let n := tokensPerRead a (8 * min (rd (F.SLICE_COUNT.VALUE m) s - have_) 16) / 8
    let new := (List.range n).map fun i => sliceOf (bytesToNat ((bs.drop (a % 64 + 32 * i)).take 32))
    let s1 := fetchSlices m (modModelSlot m (fun x => { x with slices := x.slices ++ new }) s)
    if slicesRead m s1 then drainAhead 3 s1.pair.ahead.length s1 else s1

/-- An extent has been read: what asked for it goes on. -/
def fetchDone (u : FetchUse) (bs : List Byte) (s : State) : State :=
  match u with
  | .check m part => checkPartRead m part bs s
  | .load m part => loadPartRead m part bs s
  | .rewrite m part => workPartRead m none part bs s
  | .variant m i part => workPartRead m (some i) part bs s
  | .stage => stageRead bs s

/-- A read of an extent has failed twice (R290); `bs` is what came before it. -/
def fetchFailed (u : FetchUse) (bs : List Byte) (s : State) : State :=
  match u with
  | .check m part => checkPartFailed m part bs s
  | .load m _ => endLoading m 0x0C s
  | .rewrite m _ => workFailed m none s
  | .variant m i _ => workFailed m (some i) s
  | .stage => stageFailed s

/-- The lines of an extent's read have come: the next ones are read, or the extent is whole. A read of an extent that nobody asks for any
more does nothing. -/
def fetchLines (u : FetchUse) (r : HostRead) (bs : List Byte) (s : State) : State :=
  match fetchOf u s with
  | none => s
  | some f =>
    if r.addr ≠ f.addr - f.addr % 64 then s
    else
      let g := f.take bs
      let s1 := dropFetches (· == u) s
      if g.left = 0 then fetchDone u g.got s1 else fetchNext g s1

/-- A read of an extent has failed. -/
def fetchLost (u : FetchUse) (r : HostRead) (s : State) : State :=
  match fetchOf u s with
  | none => s
  | some f => if r.addr ≠ f.addr - f.addr % 64 then s else fetchFailed u f.got (dropFetches (· == u) s)

/-- The operation that asked for data goes on (R212, R214, R242, R260, R294). (DEDUCED, unsafe: log entry 35.) -/
def readDone (r : HostRead) (data : List Slot16) (s : State) : State :=
  let g := slotData data
  if readsHeader r s then
    when (on (ringEnFld (ringOf r.use)) s) (ringHeader (ringOf r.use) (bitsOf g 0 32) (bitsOf g 512 32)) s
  else if r.watch then
    let mark := fun (w : Watch) => if w.addr = r.addr then { w with snap := some (BitVec.ofNat 512 g) } else w
    ringLine r.use (bitsOf g 0 32) { s with ocl := { s.ocl with watches := s.ocl.watches.map mark } }
  else match r.use with
    | .tuneProd => ringLine .tuneProd (bitsOf g 0 32) s
    | .tokens id => tokensRead id (slotBytes data) s
    | .sliceMap m => sliceMapRead m (slotBytes data) s
    | .tune =>
      match tuneReading s with
      | some e => tuneTokensRead e (slotBytes data) s
      | none => if tuneNextRead s = s.tune.prod then s else tuneEntryRead (BitVec.ofNat 512 g) s
    | .fetch u => fetchLines u r (slotBytes data) s
    | _ => s

/-! ### Failed reads (R290) -/

/-- The example being read takes STATUS INPUT. -/
def tuneReadFailed (s : State) : State :=
  match tuneReading s with
  | some e =>
    let t : Tune := { s.tune with examples := s.tune.examples.map fun x => if x.index = e.index then { x with bad := true } else x }
    tuneFetch (raise F.TUNE_STS.INPUT { s with tune := t })
  | none => if tuneNextRead s = s.tune.prod then s else tuneEntryRead 0 s

/-- The operation that needed the data fails (R290). (DEDUCED, unsafe: log entry 40.) -/
def readFailed (r : HostRead) (s : State) : State :=
  if readsHeader r s then ringUnread (ringOf r.use) s
  else match r.use with
    | .cmdRing k => ringUnread k s
    | .tokens id => endWhenQuiet id 9 s
    | .sliceMap m => endReceive m 0x0C s
    | .tune => if r.watch then s else tuneReadFailed s
    | .outRing k => ringUnread (8 + k) s
    | .eventRing => ringUnread 18 s
    | .teleRing | .tuneProd => s
    | .fetch u => fetchLost u r s

/-- A read failed (R290): it is retried once, under a TAG of its own; a second failure ends it. `late`: it got no completion in time. -/
def readError (late : Bool) (r : HostRead) (s : State) : State :=
  let s1 := bump F.OCL_CPL_ERR_CNT s
  let rest : State := { s1 with ocl := { s1.ocl with reads := s1.ocl.reads.erase r } }
  if r.retried then
    let s2 := setReg O.OCL_ERR_ADDR_HI (BitVec.ofNat 32 (r.addr / 2 ^ 32)) (setReg O.OCL_ERR_ADDR (BitVec.ofNat 32 r.addr) rest)
    issueWaiting (readFailed r (if late then raiseBoth F.OCL_STS.CPL_TIMEOUT F.OCL_STS.CPL_ERR s2 else raise F.OCL_STS.CPL_ERR s2))
  else
    let again : HostRead := { r with retried := true, tag := (freeTag s1).getD r.tag }
    let s2 := when late (raise F.OCL_STS.CPL_TIMEOUT) rest
    sendRead again { s2 with ocl := { s2.ocl with reads := s2.ocl.reads ++ [again], nextTag := (again.tag + 1) % 1024 } }

/-- The outstanding read with a TAG. -/
def readWith (tag : Nat) (s : State) : Option HostRead := s.ocl.reads.find? (·.tag == tag)

/-- A completion for an outstanding read, its checks passed. -/
def completeRead (r : HostRead) (status : Nat) (poison : Bool) (data : List Slot16) (s : State) : State :=
  if status ≠ 0 ∨ poison then readError false r s
  else if data.length ≠ 4 * (r.lenm1 + 1) then discardMsg 0 s
  else issueWaiting (readDone r data { s with ocl := { s.ocl with reads := s.ocl.reads.erase r } })

/-- CPL_DATA (R286, R290, R291, R302 to R305). While the session is closed it is not accepted. (DEDUCED, unsafe: log entry 40.) -/
def cplData (tag status : Nat) (poison : Bool) (data : List Slot16) (sec : MsgSec) (s0 : State) : State :=
  let p := fun (m : Msg) => m.op == 0x20 && m.tag == tag
  let m := rowTakes p (rowMsg 0x20 tag ((data.length / 4 + 7) % 8) status 0 0 poison data sec) s0
  let s := if linkActive 0 s0 then takeMsg p s0 else s0
  if !linkActive 0 s ∨ !msgTurn p s0 ∨ s.ocl.closed then s
  else if 2 < m.status then discardMsg 0 s
  else checked (encData s) m (fun d t =>
    match readWith tag t with
    | none => bump F.OCL_PROTO_CNT t
    | some r => completeRead r m.status m.poison d t) s

/-- CPL_DATA. -/
def execCplData (tag status : Nat) (poison : Bool) (data : List Slot16) (sec : MsgSec) (s : State) :
    Host.Outcome State Fault Refusal := .next (cplData tag status poison data sec s)

/-- CPL_TIMEOUT (R284, R290): 100 µs have passed; the limit is suspended while the link is DOWN or the session closed. -/
def cplTimeout (tag : Nat) (s : State) : State :=
  match readWith tag s with
  | none => s
  | some r =>
    if (linkActive 0 s ∨ linkSt 0 s = 5) ∧ !s.ocl.closed then readError true r s else s

/-- CPL_TIMEOUT. -/
def execCplTimeout (tag : Nat) (s : State) : Host.Outcome State Fault Refusal := .next (cplTimeout tag s)

/-! ### Snoops and credits -/

/-- SNP_INV (R288, R292, R294): the snapshot is dropped, SNP_ACK sent, and the line of a ring read again with a new watch. -/
def snpInv (addr : Nat) (s0 : State) : State :=
  let p := fun (m : Msg) => m.op == 0x12 && m.addr == addr
  let s := if linkActive 0 s0 then takeMsg p s0 else s0
  if !linkActive 0 s ∨ !msgTurn p s0 ∨ s.ocl.closed then s
  else if addr % 64 ≠ 0 then discardMsg 0 s
  else
    let drop := fun (w : Watch) => if w.addr = addr then { w with snap := none } else w
    let s1 := sendSnpAck addr { s with ocl := { s.ocl with watches := s.ocl.watches.map drop } }
    match s.ocl.watches.find? (·.addr == addr) with
    | none => s1
    | some w => hostRead addr 0 true w.use s1

/-- SNP_INV. -/
def execSnpInv (addr : Nat) (s : State) : Host.Outcome State Fault Refusal := .next (snpInv addr s)

/-- CREDIT (R285, R287): credits return, or with INIT are set; what waited for them is sent. -/
def creditRow (req post : Nat) (init : Bool) (s0 : State) : State :=
  let p := fun (m : Msg) => m.op == 0x30
  let m := rowTakes p (rowMsg 0x30 0 0 0 (req + 2 ^ 16 * post) (bitN init) false [] MsgSec.plain) s0
  let nreq := bitsOf m.addr 0 16
  let npost := bitsOf m.addr 16 16
  let s := if linkActive 0 s0 ∨ linkSt 0 s0 = 3 then takeMsg p s0 else s0
  if m.first.testBit 0 then
    if linkActive 0 s ∨ linkSt 0 s = 3 then pump 0 (modLink 0 (fun l => { l with creditReq := nreq, creditPost := npost }) s) else s
  else if linkActive 0 s then
    pump 0 (modLink 0 (fun l => { l with creditReq := l.creditReq + nreq, creditPost := l.creditPost + npost }) s)
  else s

/-- CREDIT. -/
def execCredit (req post : Nat) (init : Bool) (s : State) : Host.Outcome State Fault Refusal := .next (creditRow req post init s)

/-! ### Interrupts, doorbells, encryption mode -/

/-- `INTR_EN` enables INTR of a vector (R301): the event ring's, or an output ring's. -/
def intrOn (v : Nat) (s : State) : Bool :=
  (on F.INTR_EN.EVT s && rd F.INTR_CFG.EVT_VEC s == v) ||
    (List.range 8).any fun r => on (bitFld O.INTR_EN r) s && (rd F.INTR_CFG.OUT_VEC s + r) % 65536 == v

/-- INTR_MODERATION (R301): the window of a vector has passed and an INTR is owed. -/
def intrModeration (v : Nat) (s : State) : State :=
  if (moderationOf v s).any (·.owed) && intrFree v s && intrOn v s then interrupt v s else s

/-- INTR_MODERATION. -/
def execIntrModeration (vector : Nat) (s : State) : Host.Outcome State Fault Refusal := .next (intrModeration vector s)

/-- A write of `DOORBELL` (R295). -/
def doorbell (v : Word) (s : State) : State :=
  let ring := fun (k : Nat) (t : State) => when (on (ringEnFld k) t) (hostRead (watchedLine k t) 0 true (ringUse k)) t
  let s1 := forEach ((List.range 8).filter fun r => bitAt v r) ring s
  when (bitAt v 8 && tuneRingOn s1)
    (fun t => hostRead (watchedLine 17 t) 0 (tuneRuns t) (if tuneRuns t then .tune else .tuneProd) t) s1

/-- DOORBELL. -/
def execDoorbell (value : Word) (s : State) : Host.Outcome State Fault Refusal := .next (onWindow O.DOORBELL (doorbell value) s)

/-- A write of `OCL_ENC.MODE` (R302, R306). -/
def oclEncMode (mode : Nat) (s : State) : State :=
  let now := rd F.OCL_ENC.MODE s
  if mode = now then s
  else if mode < now ∨ 2 < mode ∨ !on F.OCL_ENC.KEYS s then raise F.OCL_STS.PROTO s
  else wr F.OCL_ENC.MODE mode s

/-- OCL_ENC_MODE. -/
def execOclEncMode (mode : Nat) (s : State) : Host.Outcome State Fault Refusal := .next (onWindow O.OCL_ENC (oclEncMode mode) s)

/-! ### KEM_FINISH (R305, R450) -/

/-- A closed session reopens: outstanding reads end with ABORT, and traffic flows again (R305). -/
def reopen (s : State) : State :=
  if s.ocl.closed then
    let s1 : State := { s with ocl := { s.ocl with closed := false }, link := { s.link with downFrames := 0 } }
    resume 0 (forEach s.ocl.reads (readError false) s1)
  else s

/-- KEM_FINISH taken: keys installed in both directions reopen the session. -/
def kemFinishRow (s : State) : State :=
  let p := kemFinish s
  if p.1 then reopen p.2 else p.2

/-- KEM_FINISH. -/
def execKemFinish (s : State) : Host.Outcome State Fault Refusal := .next (mbxCommand 3 kemFinishRow s)

end Sys2Proof.Machine
end

