-- ==== Sys2Proof/Machine/Window.lean ====
section
/-!
DEFINITION. The register window: views, reads that clear and latch, writes and the registers whose writes act (R459 to R477), the
companion's accesses (R297), and REGISTER_WRITE.
-/
namespace Sys2Proof.Machine
open Sys2Proof

/-! ### Addresses and views (R459, R467) -/

/-- Plain offset of the register that a window offset names. -/
def plainOff (off : Nat) : Nat := off - off % 0x1000 + off % 0x400

/-- View of a window offset: 0 plain, 1 set, 2 clear, 3 toggle. -/
def viewOf (off : Nat) : Nat := off % 0x1000 / 0x400

/-- A plain offset lies in the mailbox buffer (R457). -/
def inBuffer (off : Nat) : Bool := decide (0x1501000 ≤ off) && decide (off < 0x1509000)

/-- Buffer byte at a plain offset (R457). -/
def bufferByte (off : Nat) : Nat := (off - 0x1501000) / 0x1000 * 0x400 + off % 0x400

/-! ### What registers show -/

/-- A word with bit `i` set where the register at place `i` of the list is nonzero. -/
def nonzeroBits (offs : List Nat) (s : State) : Nat :=
  offs.foldr (fun o n => bitN (reg o s != 0) + 2 * n) 0

/-- Bits as a number, the first one lowest. -/
def packBits (l : List Bool) : Nat := l.foldr (fun b n => bitN b + 2 * n) 0

/-- The layer that `PREC_SEL` selects (R133). -/
def selLayer (s : State) : LayerPrec := layerPrec (rd F.PREC_SEL.MODEL s) (rd F.PREC_SEL.LAYER s) s

/-- `FLD_STS_SUM` of a field (R477). -/
def fieldSum (f : Nat) (s : State) : Nat :=
  packBits [reg (O.FAB_ERR_STS f) s != 0, reg (O.MEM_ERR_STS f) s != 0, reg (O.FLD_PWR_STS f) s != 0,
    on (F.FLD_HOLD_LAST.V f) s, on (F.FLD_FLT_LAST.V f) s, on (F.MEM_ECC_LAST.V f) s || on (F.MEM_COLL_LAST.V f) s]

/-- `FIELD_SUM` of the `n` fields from `f` on (R476). -/
def fieldsSum (f n : Nat) (s : State) : Nat := packBits ((List.range n).map fun i => fieldSum (f + i) s != 0)

/-- `STS_SUM0` (R476). -/
def stsSum0 (s : State) : Nat :=
  nonzeroBits ([O.SCHED_STS, O.BEAT_STS, O.BUDGET_STS, O.PREC_STS, O.PREC_MODEL_STS, O.KV_STS, O.SVC_STS, O.TUNE_STS, O.OCL_STS,
    O.FLT_STS, O.PWR_STS, O.THR_STS, O.BOOT_STS, O.PAIR_STS, O.MBX_STS, O.SEC_STS, O.CELL_WIN_STS] ++
    (List.range 4).map O.SPAN_STS ++ [O.PIN_STS]) s

/-- `STS_SUM1` (R476). -/
def stsSum1 (s : State) : Nat :=
  nonzeroBits ((List.range 12).map O.HS_STS) s + 2 ^ 12 * bitN (fieldsSum 0 72 s != 0)

/-- `PIN_STATE` (R508). The levels of `BEAT` and `FLOW_PULSE` after their Schmitt buffers are inputs that no command gives: free values.
(DESIGN CHOICE, safe: log entry 15.) -/
def pinState (s : State) : Nat :=
  packBits [bitsOf (freeHere s) 0 1 == 1, bitsOf (freeHere s) 1 1 == 1, s.mgmt.coolOk, s.mgmt.hold, s.mgmt.stuck,
    on F.PIN_STATE.SENIOR_STRAP s, !s.mgmt.events_.isEmpty, s.power.pwrOff] + 2 ^ 8 * s.mgmt.events_.length +
    2 ^ 16 * (s.mgmt.da.getD 0 % 128) + 2 ^ 23 * bitN s.mgmt.da.isSome

/-- A field's registers that show what is kept elsewhere (R379, R396, R477). (DESIGN CHOICE, unsafe: log entry 4.) -/
def fieldWord (f o : Nat) (w : Word) (s : State) : Word :=
  if o = 0 then BitVec.ofNat 32 (f % 9 + f / 9 * 2 ^ 4 + f * 2 ^ 7)
  else if o = 4 then BitVec.ofNat 32 (fieldSum f s)
  else if o = 0x5004 then putBits (putBits w 8 5 (gateLevel f s).1) 13 3 (gateLevel f s).2
  else if o = 0x500C then BitVec.ofNat 32 (vclSet f s)
  else w

/-- The plain value of the register at a plain offset (R469): what is stored, or what the register shows of the state. Counters have
their own reading. (DESIGN CHOICE, safe: log entry 15.) -/
def regNow (off : Nat) (s : State) : Word :=
  let w := reg off s
  if 0x100000 ≤ off ∧ off < 0x580000 then fieldWord ((off - 0x100000) / 0x10000) (off % 0x10000) w s
  else if off = O.DEV_VER then putBits w 0 8 s.fuses.stepping
  else if 0x8 ≤ off ∧ off < 0x18 then BitVec.ofNat 32 (bitsOf s.fuses.serial (8 * (off - 8)) 32)
  else if off = O.PIN_STATE then BitVec.ofNat 32 (pinState s)
  else if off = O.STS_SUM0 then BitVec.ofNat 32 (stsSum0 s)
  else if off = O.STS_SUM1 then BitVec.ofNat 32 (stsSum1 s)
  else if off = O.FIELD_SUM0 then BitVec.ofNat 32 (fieldsSum 0 32 s)
  else if off = O.FIELD_SUM1 then BitVec.ofNat 32 (fieldsSum 32 32 s)
  else if off = O.FIELD_SUM2 then BitVec.ofNat 32 (fieldsSum 64 8 s)
  else if off = O.PREC_LAYER_STS then BitVec.ofNat 32 (selLayer s).flags.toNat
  else if off = O.WIDEN_STATE then BitVec.ofNat 32 ((selLayer s).remain % 128 + 2 ^ 7 * bitN (selLayer s).wide)
  else if off = O.RECIPE_WIN_DATA then recipeEntry (rd F.RECIPE_WIN_SEL.RECIPE s) (rd F.RECIPE_WIN_SEL.LAYER s) s
  else if off = O.THR_MAX then putBits w 16 5 (gateMax s)
  else if off = O.MIRROR_LAG then BitVec.ofNat 32 (s.pair.lag.length % 2 ^ 16)
  else if off = O.FUSE_SVN then BitVec.ofNat 32 (s.fuses.svn % 128 + 2 ^ 7 * bitN s.fuses.revoke0)
  else w

/-- The 64-bit value of the counter whose low word lies at a plain offset (R164, R133, R473). -/
def counterNow (off : Nat) (s : State) : Nat :=
  if off = F.TIMESTAMP then timestamp s
  else if off = F.WHEY_OVF_CNT then (selLayer s).whey.toNat
  else if off = F.SAT_CNT then (selLayer s).sat.toNat
  else if off = F.NONFIN_CNT then (selLayer s).nonfin.toNat
  else cnt off s

/-! ### Reads (R463, R469 to R473) -/

/-- The latch of a counter on an access path. -/
def latch (mgmt : Bool) (off : Nat) (s : State) : Word :=
  Table.get (fun _ => 0) (if mgmt then s.latchMgmt else s.latchOcl) off

/-- Set it. -/
def setLatch (mgmt : Bool) (off : Nat) (v : Word) (s : State) : State :=
  if mgmt then { s with latchMgmt := Table.set (fun _ => 0) s.latchMgmt off v }
  else { s with latchOcl := Table.set (fun _ => 0) s.latchOcl off v }

/-- A plain read clears the RC bits it returned (R470). -/
def clearOnRead (off : Nat) (r : RegRow) (s : State) : State :=
  if off = O.PREC_LAYER_STS then
    let x := selLayer s
    setLayerPrec (rd F.PREC_SEL.MODEL s) (rd F.PREC_SEL.LAYER s) { x with flags := 0 } s
  else if off = O.PIN_STATE then takeFree s
  else if r.rc = 0 then s
  else setReg off (reg off s &&& ~~~(BitVec.ofNat 32 r.rc)) s

/-- Read the register at a plain offset; `plain` says whether the plain view is read. -/
def readReg (mgmt plain : Bool) (off : Nat) (s : State) : Word × State :=
  match regAt off with
  | none => (0, s)
  | some r =>
    if r.cnt = 2 then (latch mgmt (off - 4) s, s)
    else if r.cnt = 1 then
      let n := counterNow off s
      (BitVec.ofNat 32 n, when plain (setLatch mgmt off (BitVec.ofNat 32 (n / 2 ^ 32))) s)
    else (regNow off s, when plain (clearOnRead off r) s)

/-- Read one word of the window (R466, R467, R469). -/
def readWord (mgmt : Bool) (off : Nat) (s : State) : Word × State :=
  let o := plainOff off
  if !answersAt mgmt o s then (0, s)
  else if inBuffer o then
    (if viewOf off = 0 then BitVec.ofNat 32 (bytesToNat (mbxRead (bufferByte o) 4 s)) else 0, s)
  else readReg mgmt (viewOf off == 0) o s

/-- A counter's low word lies at a plain offset. -/
def isCounter (off : Nat) : Bool := (regAt off).any fun r => r.cnt == 1

/-- Read 4 or 8 bytes of the window (R463, R469, R473): the value, and the state after. -/
def readWindow (mgmt : Bool) (off size : Nat) (s : State) : Nat × State :=
  let a := readWord mgmt off s
  if size ≠ 8 then (a.1.toNat, a.2)
  else if viewOf off ≠ 0 ∧ isCounter (plainOff off) then
    (if answersAt mgmt (plainOff off) s then counterNow (plainOff off) s else 0, s)
  else
    let b := readWord mgmt (off + 4) a.2
    (a.1.toNat + 2 ^ 32 * b.1.toNat, b.2)

/-! ### Writes (R468, R470) -/

/-- A register takes the RW bits of a value. -/
def putReg (off : Nat) (rw : Nat) (v : Word) (s : State) : State :=
  let m := BitVec.ofNat 32 rw
  setReg off ((reg off s &&& ~~~m) ||| (v &&& m)) s

/-- Page 0x2000 (R478 to R480). -/
def writeCellWin (off : Nat) (r : RegRow) (v : Word) (s : State) : State :=
  if off = O.CELL_WIN_CTRL ∧ bitAt v 31 then cellWinGo (bitAt v 0) s
  else if on F.CELL_WIN_STATE.BUSY s ∧ off ≠ O.CELL_WIN_CTRL ∧ r.rw ≠ 0 then raise F.CELL_WIN_STS.REFUSED s
  else putReg off r.rw v s

/-- Page 0x3000 (R173). (DEDUCED, unsafe: log entry 62.) -/
def writeSched (off : Nat) (r : RegRow) (v : Word) (s : State) : State :=
  if off = O.SCHED_CTRL then extEn (bitAt v 1) (wrB F.SCHED_CTRL.HOST_HOLD (bitAt v 0) s)
  else if off = O.LOAD_CTRL then loadGo v s
  else putReg off r.rw v s

/-- Page 0x6000 (R125, R127, R133). -/
def writePrec (off : Nat) (r : RegRow) (v : Word) (s : State) : State :=
  if off = O.RECIPE_WIN_DATA then recipeWinDataWrite v s
  else if 0x6080 ≤ off then modelRecipeWrite ((off - 0x6080) / 4) v s
  else putReg off r.rw v s

/-- Page 0x7000 (R204, R210). (DEDUCED, unsafe: log entry 62.) -/
def writeKv (off : Nat) (r : RegRow) (v : Word) (s : State) : State :=
  if off < 0x7100 then putReg off r.rw v s
  else
    let m := (off - 0x7100) / 0x30
    let o := (off - 0x7100) % 0x30
    if o = 0x24 then (if bitAt v 0 then poolEnable m s else poolDisable m s)
    else if o = 0x18 then posLimitWrite m v s
    else if poolOn m s then raise F.KV_STS.CFG s
    else putReg off r.rw v s

/-- A ring is enabled: its header is read (R212). -/
def openRing (k : Nat) (s : State) : State :=
  if ringSizeOk k s then hostRead (ringBase k s) 1 false (ringUse k) (beginRing k s) else s

/-- A ring is disabled: its watch ends (R292). -/
def closeRing (k : Nat) (s : State) : State :=
  unwatchRing k (wr (ringEnFld k) 0 (markRead k s))

/-- A ring's base (R212): writable while ENABLE is 0. -/
def writeRingBase (k off : Nat) (r : RegRow) (v : Word) (s : State) : State :=
  if on (ringEnFld k) s then s else putReg off r.rw v s

/-- A ring's configuration (R212): SIZE_LOG is writable while ENABLE is 0. -/
def writeRingCfg (k off : Nat) (r : RegRow) (v : Word) (s : State) : State :=
  let en := on (ringEnFld k) s
  let s1 := putReg off (r.rw % 2 ^ 31 - (if en then 31 else 0)) v s
  if en && !bitAt v 31 then closeRing k s1 else if !en && bitAt v 31 then openRing k s1 else s1

/-- Page 0x8000 (R251). -/
def writeService (off : Nat) (r : RegRow) (v : Word) (s : State) : State :=
  if off < 0x8100 ∨ 0x8310 ≤ off then putReg off r.rw v s
  else
    let k := if off < 0x8200 then (off - 0x8100) / 0x10 else if off < 0x8300 then 8 + (off - 0x8200) / 0x10 else 16
    if off % 0x10 = 8 then writeRingCfg k off r v s else writeRingBase k off r v s

/-- A slot may have `TUNE_CFG` and `TUNE_ROWS` written for it (R272). -/
def tuneSlotOk (m : Nat) (s : State) : Bool := slotSt m s == 0 || slotSt m s == 1

/-- Page 0x9000 (R268, R272). -/
def writeTune (off : Nat) (r : RegRow) (v : Word) (s : State) : State :=
  if off = O.TUNE_CTRL then tuneCtrl v s
  else if off = O.TUNE_CFG then
    if tuneSlotOk (fieldOf v 0 4) s then
      putReg off r.rw v (when (fieldOf v 0 4 != tuneModel s) noBlockYet s)
    else tuneRefuse s
  else if off = O.TUNE_ROWS then (if tuneSlotOk (tuneModel s) s then putReg off r.rw v s else tuneRefuse s)
  else if off = O.TUNE_RING_CFG then writeRingCfg 17 off r v s
  else if off = O.TUNE_RING_BASE ∨ off = O.TUNE_RING_BASE_HI then writeRingBase 17 off r v s
  else if off = O.OPT_STEP then (if tuneSt s = 0 ∨ tuneSt s = 3 then putReg off r.rw v s else tuneRefuse s)
  else putReg off r.rw v s

/-- Page 0xA000 (R283, R295, R302, R306). -/
def writeOcl (off : Nat) (r : RegRow) (v : Word) (s : State) : State :=
  if off = O.OCL_CTRL then when (bitAt v 0 && linkActive 0 s) (enterRetrain 0 s.now) s
  else if off = O.OCL_ENC then oclEncMode (fieldOf v 0 2) s
  else if off = O.DOORBELL then doorbell v s
  else if off = O.EVT_CFG then writeRingCfg 18 off r v s
  else if off = O.EVT_RING_BASE ∨ off = O.EVT_RING_BASE_HI then writeRingBase 18 off r v s
  else putReg off r.rw v s

/-- A write of `RST_CTRL` with GO (R367). -/
def resetGo (scope c : Nat) (s : State) : State :=
  match scope with
  | 0 => requestReset 0 c [c] [] s
  | 1 => requestReset 1 c (clusterCells c) [] s
  | 2 => requestReset 2 c [] [fieldOfCell c] s
  | _ => wholeRequest (wr F.RST_CTRL.SCOPE 3 (wr F.RST_CTRL.TARGET c s))

/-- Page 0xB000 (R367, R371, R373). -/
def writeFault (off : Nat) (r : RegRow) (v : Word) (s : State) : State :=
  if off = O.FLT_CTRL then when (bitAt v 1) (fatal 0x0B 0) (putReg off r.rw v s)
  else if off = O.RST_CTRL ∧ bitAt v 31 then resetGo (fieldOf v 18 2) (fieldOf v 0 18) s
  else putReg off r.rw v s

/-- Page 0xE000 (R415, R432, R433, R437). -/
def writeBoot (off : Nat) (r : RegRow) (v : Word) (s : State) : State :=
  if off = O.BOOT_CTRL then when (bitAt v 1) restart (when (bitAt v 0) clearFails s)
  else if off = O.SHUT_CTRL then shutdown v s
  else if off = O.STAGE_CTRL then stageCtrl v s
  else putReg off r.rw v s

/-- Page 0xF000 (R252): while the slot is RUNNABLE only PINNED is written; PINNED is not written while it is FREE. -/
def writeModel (off : Nat) (r : RegRow) (v : Word) (s : State) : State :=
  let m := (off - 0xF000) / 0x40
  let svc := off % 0x40 == 0
  if slotSt m s = 2 then (if svc then pinnedWrite m (bitAt v 0) s else s)
  else if svc && slotSt m s == 0 then putReg off (r.rw - 1) v s
  else putReg off r.rw v s

/-- The span block (R316, R331, R340, R341). -/
def writeSpan (off : Nat) (r : RegRow) (v : Word) (s : State) : State :=
  let o := off - 0x1400000
  if o = 0x4 then pairModeWrite v s
  else if o = 0x14 then (if fieldOf v 0 2 = 0 then s else arbitrate (fieldOf v 0 2) s)
  else if 0x100 ≤ o ∧ o < 0x200 then (if slotSt ((o - 0x100) / 0x10) s = 2 then s else putReg off r.rw v s)
  else if 0x1000 ≤ o ∧ o % 0x1000 = 8 then
    let i := o / 0x1000
    when (bitAt v 0 && linkActive i s) (enterRetrain i s.now) s
  else putReg off r.rw v s

/-- A mailbox command with GO (R457); an OP the table does not name does nothing. -/
def mbxGo (mgmt : Bool) (op : Nat) (s : State) : State :=
  match op with
  | 1 => mbxCommand 1 attest s
  | 2 => mbxCommand 2 kemStart s
  | 3 => mbxCommand 3 kemFinishRow s
  | 4 => mbxCommand 4 kemSwitch s
  | 5 => mbxCommand 5 (zeroise mgmt) s
  | 6 => mbxCommand 6 identity s
  | 7 => mbxCommand 7 svnCommit s
  | n => wr F.MBX_CMD.OP n s

/-- The mailbox block (R457). -/
def writeMbx (mgmt : Bool) (off : Nat) (r : RegRow) (v : Word) (s : State) : State :=
  if off = O.MBX_CMD ∧ bitAt v 31 then mbxGo mgmt (fieldOf v 0 8) s else putReg off r.rw v s

/-- A plain write of a value to the register at a plain offset. -/
def writeReg (mgmt : Bool) (off : Nat) (r : RegRow) (v : Word) (s : State) : State :=
  if 0x100000 ≤ off then
    if 0x1500000 ≤ off then writeMbx mgmt off r v s
    else if 0x1400000 ≤ off then writeSpan off r v s
    else if off < 0x580000 ∧ off % 0x10000 = 0x1000 then fabCalderaWrite ((off - 0x100000) / 0x10000) v s
    else putReg off r.rw v s
  else match off / 0x1000 with
    | 0x2 => writeCellWin off r v s
    | 0x3 => writeSched off r v s
    | 0x6 => writePrec off r v s
    | 0x7 => writeKv off r v s
    | 0x8 => writeService off r v s
    | 0x9 => writeTune off r v s
    | 0xA => writeOcl off r v s
    | 0xB => writeFault off r v s
    | 0xC => if off = O.PWR_CAP then pwrCapWrite v s else putReg off r.rw v s
    | 0xD => if off = O.COOL_CFG then coolCfgWrite v s else if off = O.THR_RELOC then thrReloc v s else putReg off r.rw v s
    | 0xE => writeBoot off r v s
    | 0xF => writeModel off r v s
    | _ => putReg off r.rw v s

/-- The value that a write through a view stands for (R468), from the register's plain value. -/
def viewValue (view : Nat) (r : RegRow) (c v : Word) : Word :=
  match view with
  | 0 => v
  | 1 => c ||| v
  | 2 => c &&& ~~~v
  | _ => (c ^^^ v) &&& ~~~(BitVec.ofNat 32 r.wo)

/-- The offset of a model's pool registers (R210): a write to one while its pool is enabled is noted, read-only ones included (R204). -/
def poolBlock (o : Nat) : Bool := decide (0x7100 ≤ o) && decide (o < 0x7400)

/-- Write one word of the window (R466 to R468, R470, R474). -/
def writeWord (mgmt : Bool) (off : Nat) (v : Word) (s : State) : State :=
  let o := plainOff off
  if !answersAt mgmt o s then s
  else if inBuffer o then (if viewOf off = 0 then mbxWrite (bufferByte o) (natToBytes 4 v.toNat) s else s)
  else match regAt o with
    | none => s
    | some r =>
      if r.rw = 0 ∧ r.wo = 0 ∧ !poolBlock o then s else writeReg mgmt o r (viewValue (viewOf off) r (regNow o s) v) s

/-- Write 4 or 8 bytes of the window: the low word, then the high word (R297). -/
def writeWindow (mgmt : Bool) (off size : Nat) (d : Dword) (s : State) : State :=
  let s1 := writeWord mgmt off (BitVec.ofNat 32 d.toNat) s
  if size = 8 then writeWord mgmt (off + 4) (BitVec.ofNat 32 (d.toNat / 2 ^ 32)) s1 else s1

/-- An access has a size and an alignment that the window takes (R297, R463). -/
def accessOk (off size : Nat) : Bool := (size == 4 || size == 8) && off % size == 0

/-- Window offset of an access: ADDR[25:0] (R297). -/
def windowOff (off : Nat) : Nat := off % 2 ^ 26

/-! ### The companion's accesses (R297, R302, R305) -/

/-- An access of another size or alignment (R297). -/
def badAccess (s : State) : State := raise F.OCL_STS.UR (bump F.OCL_PROTO_CNT s)

/-- An access is the one that a received message asks for: its ADDR, and its size from LENM1 (R286). -/
def accessOf (off size : Nat) (m : Msg) : Bool := m.addr == off && 4 * (m.lenm1 + 1) == size

/-- MMIO_RD (R286, R297): answered by CPL_DATA. -/
def mmioRd (off size tag : Nat) (s0 : State) : State :=
  let p := fun (m : Msg) => m.op == 0x10 && m.tag == tag && accessOf off size m
  let s := if linkActive 0 s0 then takeMsg p s0 else s0
  if !linkActive 0 s ∨ !msgTurn p s0 then s
  else
    let own := s.ocl.closed || inMailbox (windowOff off)
    if !accessOk off size then sendCpl tag 1 0 own (badAccess s)
    else
      let p := readWindow false (windowOff off) size s
      sendCpl tag 0 p.1 own p.2

/-- MMIO_RD. -/
def execMmioRd (off size tag : Nat) (s : State) : Host.Outcome State Fault Refusal := .next (mmioRd off size tag s)

/-- MMIO_WR (R286, R297, R302, R305): in a closed session it is accepted in plaintext only. -/
def mmioWr (off size : Nat) (data : Slot16) (sec : MsgSec) (s0 : State) : State :=
  let p := fun (m : Msg) => m.op == 0x11 && accessOf off size m
  let m := rowTakes p (rowMsg 0x11 0 (size / 4 - 1) 0 off 0 false [data] sec) s0
  let s := if linkActive 0 s0 then takeMsg p s0 else s0
  if !linkActive 0 s ∨ !msgTurn p s0 then s
  else
    let act := fun (d : List Slot16) (t : State) =>
      if accessOk off size then writeWindow false (windowOff off) size (BitVec.ofNat 64 (d.headD 0).toNat) t else badAccess t
    if s.ocl.closed then (if m.enc then failSec s else act m.data s) else checked (encMmio s) m act s

/-- MMIO_WR. -/
def execMmioWr (off size : Nat) (data : Slot16) (sec : MsgSec) (s : State) : Host.Outcome State Fault Refusal :=
  .next (mmioWr off size data sec s)

/-- REGISTER_WRITE (R467, R468): a 4-byte write of the host's through any view. -/
def registerWrite (off : Nat) (v : Word) (s : State) : State := if off % 4 = 0 then writeWord false (windowOff off) v s else s

/-- REGISTER_WRITE. -/
def execRegisterWrite (off : Nat) (value : Word) (s : State) : Host.Outcome State Fault Refusal := .next (registerWrite off value s)

end Sys2Proof.Machine
end

