-- ==== Sys2Proof/Machine/Pins.lean ====
section
/-!
DEFINITION. The low-speed pins `nRESET` and `nHOLD_EXT` (R486, R489, R490, R492, R507).
-/
namespace Sys2Proof.Machine
open Sys2Proof

/-- NRESET_ASSERT (R489): `nRESET` has been low for 10 µs; the module is in reset for as long as it stays low. -/
def nresetAssert (s : State) : State :=
  if s.mgmt.inReset then s
  else
    let s1 := wholeReset s
    { s1 with mgmt := { s1.mgmt with inReset := true, da := none } }

/-- NRESET_ASSERT. -/
def execNresetAssert (s : State) : Host.Outcome State Fault Refusal := .next (nresetAssert s)

/-- NRESET_RELEASE (R489, R492): the filtered rising edge; the strap is sampled, and a start may begin. -/
def nresetRelease (senior : Bool) (s : State) : State :=
  if s.mgmt.inReset then showPins { s with mgmt := { s.mgmt with inReset := false, senior := senior } } else s

/-- NRESET_RELEASE. -/
def execNresetRelease (senior : Bool) (s : State) : Host.Outcome State Fault Refusal := .next (nresetRelease senior s)

/-- RESET_SHORT (R486): a low of 100 ns up to 10 µs is rejected and counted. (DEDUCED, unsafe: log entry 61.) -/
def resetShort (s : State) : State := if s.mgmt.inReset then s else raise F.PIN_STS.RESET_SHORT (bump F.RESET_SHORT_CNT s)

/-- RESET_SHORT. -/
def execResetShort (s : State) : Host.Outcome State Fault Refusal := .next (resetShort s)

/-- A change of `nHOLD_EXT` is accepted: the stuck count starts afresh, and the latch clears when it deasserts (R490). -/
def holdAccept (asserted : Bool) (t : Nat) (s : State) : State :=
  wrB F.PIN_STATE.HOLD_EXT asserted
    { s with mgmt := { s.mgmt with hold := asserted, holdEdge := some t, holdBeats := 0, stuck := s.mgmt.stuck && asserted } }

/-- NHOLD_EXT (R486, R490): `level` is the level of the pin, low for asserted; a level held for less than 100 ns is ignored, a change
within 1 µs of the last accepted one is rejected and counted. -/
def nholdExt (level : Bool) (heldNs t : Nat) (s0 : State) : State :=
  let s := atTime t s0
  if heldNs < 100 ∨ s.mgmt.hold = !level then s
  else if s.mgmt.holdEdge.any fun e => decide (t < e + usCycles) then raise F.PIN_STS.EXT_FAST (bump F.EXT_FAST_CNT s)
  else holdAccept (!level) t s

/-- NHOLD_EXT. -/
def execNholdExt (level : Bool) (heldNs t : Nat) (s : State) : Host.Outcome State Fault Refusal := .next (nholdExt level heldNs t s)

/-- EXT_STUCK (R490): the input has stayed asserted, with EXT_EN 1, for 4,096 beats; the EXT source is withdrawn.
(DEDUCED, unsafe: log entry 61.) -/
def extStuck (s : State) : State :=
  if s.mgmt.hold && on F.SCHED_CTRL.EXT_EN s && !s.mgmt.stuck && decide (4096 ≤ s.mgmt.holdBeats) then
    pldm 0x28 0 (raise F.PIN_STS.EXT_STUCK (wr F.PIN_STATE.EXT_STUCK 1 { s with mgmt := { s.mgmt with stuck := true } }))
  else s

/-- EXT_STUCK. -/
def execExtStuck (s : State) : Host.Outcome State Fault Refusal := .next (extStuck s)

end Sys2Proof.Machine
end

