-- ==== Sys2Proof/Machine/MgmtBus.lean ====
section
/-!
DEFINITION. The management bus: I3C, MCTP and PLDM, and the BMC's path into the register window (R465, R493, R495 to R500).
-/
namespace Sys2Proof.Machine
open Sys2Proof

/-! ### I3C (R495) -/

/-- The W3 answers on I3C: from step 1 of the start on, in every mode, and not in reset (R489, R495). -/
def i3cUp (s : State) : Bool := mailboxUp s && !s.mgmt.inReset

/-- A directed transfer reaches the W3: a dynamic address is assigned. -/
def addressed (s : State) : Bool := i3cUp s && s.mgmt.da.isSome

/-- The bytes of the answer. -/
def answer (bs : List Byte) (s : State) : State := { s with mgmt := { s.mgmt with response := bs } }

/-- The provisioned ID: its low 32 bits are those of SERIAL, sent most significant byte first; the rest is the standard's.
(DESIGN CHOICE, safe: log entry 12.) -/
def provisionedId (s : State) : List Byte :=
  ((Config.standardReply 0x8D 0 ++ List.replicate 2 0).take 2) ++ (natToBytes 4 (s.fuses.serial % 2 ^ 32)).reverse

/-- Take a dynamic address: a target that has one does not take part. -/
def takeAddress (a : Nat) (s : State) : State :=
  if i3cUp s && s.mgmt.da.isNone && decide (a < 128) then { s with mgmt := { s.mgmt with da := some a } } else s

/-- ENTDAA: the W3 sends its provisioned ID and takes the address. -/
def entdaa (a : Nat) (s : State) : State :=
  if i3cUp s && s.mgmt.da.isNone then takeAddress a (answer (provisionedId s) s) else s

/-- ENTDAA. -/
def execEntdaa (address : Nat) (s : State) : Host.Outcome State Fault Refusal := .next (entdaa address s)

/-- SETDASA, sent to the static address 0x4A. -/
def execSetdasa (address : Nat) (s : State) : Host.Outcome State Fault Refusal := .next (takeAddress address s)

/-- RSTDAA: the dynamic address is dropped. -/
def rstdaa (s : State) : State := if i3cUp s then { s with mgmt := { s.mgmt with da := none } } else s

/-- RSTDAA. -/
def execRstdaa (s : State) : Host.Outcome State Fault Refusal := .next (rstdaa s)

/-- ENEC: target events enabled. -/
def enec (e : Nat) (s : State) : State :=
  if i3cUp s then { s with mgmt := { s.mgmt with events := (s.mgmt.events ||| e) % 256 } } else s

/-- ENEC. -/
def execEnec (events : Nat) (s : State) : Host.Outcome State Fault Refusal := .next (enec events s)

/-- DISEC: target events disabled. -/
def disec (e : Nat) (s : State) : State :=
  if i3cUp s then { s with mgmt := { s.mgmt with events := s.mgmt.events - (s.mgmt.events &&& e) } } else s

/-- DISEC. -/
def execDisec (events : Nat) (s : State) : Host.Outcome State Fault Refusal := .next (disec events s)

/-- A directed command is answered. -/
def answered (bs : State → List Byte) (s : State) : State := if addressed s then answer (bs s) s else s

/-- GETPID. -/
def execGetpid (s : State) : Host.Outcome State Fault Refusal := .next (answered provisionedId s)

/-- Bytes that a named standard lays out. -/
def standard (code arg : Nat) (_ : State) : List Byte := Config.standardReply code arg

/-- GETBCR. -/
def execGetbcr (s : State) : Host.Outcome State Fault Refusal := .next (answered (standard 0x8E 0) s)

/-- GETDCR. -/
def execGetdcr (s : State) : Host.Outcome State Fault Refusal := .next (answered (standard 0x8F 0) s)

/-- GETSTATUS. -/
def execGetstatus (s : State) : Host.Outcome State Fault Refusal := .next (answered (standard 0x90 0) s)

/-- GETMXDS. -/
def execGetmxds (s : State) : Host.Outcome State Fault Refusal := .next (answered (standard 0x94 0) s)

/-- SETMWL: the maximum write length. -/
def setmwl (n : Nat) (s : State) : State := if i3cUp s then { s with mgmt := { s.mgmt with mwl := n % 2 ^ 16 } } else s

/-- SETMWL. -/
def execSetmwl (length : Nat) (s : State) : Host.Outcome State Fault Refusal := .next (setmwl length s)

/-- SETMRL: the maximum read length. -/
def setmrl (n : Nat) (s : State) : State := if i3cUp s then { s with mgmt := { s.mgmt with mrl := n % 2 ^ 16 } } else s

/-- SETMRL. -/
def execSetmrl (length : Nat) (s : State) : Host.Outcome State Fault Refusal := .next (setmrl length s)

/-- RSTACT: the reset action is kept. -/
def rstact (a : Nat) (s : State) : State := if i3cUp s then { s with mgmt := { s.mgmt with rstact := a % 256 } } else s

/-- RSTACT. -/
def execRstact (action : Nat) (s : State) : Host.Outcome State Fault Refusal := .next (rstact action s)

/-! ### MCTP (R496, R500) -/

/-- SET_ENDPOINT_ID: the BMC assigns the endpoint ID; its own is the source of the message. (PRESUMED, unsafe: log entry 11.) -/
def setEndpointId (eid source : Nat) (s : State) : State :=
  if !addressed s then s
  else
    let ok := decide (8 ≤ eid) && decide (eid < 255)
    let s1 := if ok then { s with mgmt := { s.mgmt with eid := eid, bmcEid := source % 256 } } else s
    answer (Config.standardReply 0x1001 eid) s1

/-- SET_ENDPOINT_ID. -/
def execSetEndpointId (eid source : Nat) (s : State) : Host.Outcome State Fault Refusal := .next (setEndpointId eid source s)

/-- GET_ENDPOINT_ID. -/
def execGetEndpointId (s : State) : Host.Outcome State Fault Refusal :=
  .next (answered (fun t => Config.standardReply 0x1002 t.mgmt.eid) s)

/-- GET_MCTP_VERSION_SUPPORT. -/
def execGetMctpVersionSupport (s : State) : Host.Outcome State Fault Refusal := .next (answered (standard 0x1004 0) s)

/-- GET_MESSAGE_TYPE_SUPPORT: the types 0x00 and 0x01 follow what the standard puts before them. -/
def execGetMessageTypeSupport (s : State) : Host.Outcome State Fault Refusal :=
  .next (answered (fun _ => Config.standardReply 0x1005 2 ++ [0, 1]) s)

/-! ### PLDM (R497) -/

/-- GET_TID. -/
def execGetTid (s : State) : Host.Outcome State Fault Refusal := .next (answered (standard 0x2002 0) s)

/-- GET_PLDM_VERSION. -/
def execGetPldmVersion (pldmType : Nat) (s : State) : Host.Outcome State Fault Refusal :=
  .next (answered (standard 0x2003 pldmType) s)

/-- GET_PLDM_TYPES. -/
def execGetPldmTypes (s : State) : Host.Outcome State Fault Refusal := .next (answered (standard 0x2004 0) s)

/-- GET_PLDM_COMMANDS. -/
def execGetPldmCommands (pldmType : Nat) (s : State) : Host.Outcome State Fault Refusal :=
  .next (answered (standard 0x2005 pldmType) s)

/-- GET_PDR. -/
def execGetPdr (record : Nat) (s : State) : Host.Outcome State Fault Refusal := .next (answered (standard 0x2251 record) s)

/-- GET_PDR_REPOSITORY_INFO. -/
def execGetPdrRepositoryInfo (s : State) : Host.Outcome State Fault Refusal := .next (answered (standard 0x2250 0) s)

/-- Readings of the numeric sensors, in the order R497 lists them: FEED_A voltage and current, FEED_B voltage and current, PWR_IN,
THR_MAX, inlet, outlet, FLOW, the largest stack temperature. (PRESUMED, unsafe: log entry 11.) -/
def numericSensors (s : State) : List Nat :=
  [fieldOf (reg O.FEED_A s) 0 13, fieldOf (reg O.FEED_A s) 16 10, fieldOf (reg O.FEED_B s) 0 13, fieldOf (reg O.FEED_B s) 16 10,
    rd F.PWR_IN.VALUE s, rd F.THR_MAX.T s, fieldOf (reg O.COOL_TEMP s) 0 9, fieldOf (reg O.COOL_TEMP s) 9 9, rd F.COOL_STATE.FLOW s,
    ((List.range 12).map fun n => rd (F.HS_STATE.TEMP n) s).foldl max 0]

/-- Readings of the state sensors, in the order R497 lists them: MODE, the pair state, the coolant state. -/
def stateSensors (s : State) : List Nat := [rd F.BOOT_STATE.MODE s, rd F.PAIR_STATE.STATE s, rd F.COOL_STATE.STATE s]

/-- The answer with a sensor's reading; sensors are numbered from 1. -/
def sensorAnswer (code sensor : Nat) (l : List Nat) : List Byte :=
  match decide (1 ≤ sensor), l[sensor - 1]? with
  | true, some v => Config.standardReply code 0 ++ natToBytes 4 v
  | _, _ => Config.standardReply code 1

/-- GET_NUMERIC_SENSOR_READING. -/
def execGetNumericSensorReading (sensor : Nat) (s : State) : Host.Outcome State Fault Refusal :=
  .next (answered (fun t => sensorAnswer 0x2211 sensor (numericSensors t)) s)

/-- GET_STATE_SENSOR_READINGS. -/
def execGetStateSensorReadings (sensor : Nat) (s : State) : Host.Outcome State Fault Refusal :=
  .next (answered (fun t => sensorAnswer 0x2221 sensor (stateSensors t)) s)

/-- EVENT_MESSAGE_SUPPORTED. -/
def execEventMessageSupported (s : State) : Host.Outcome State Fault Refusal := .next (answered (standard 0x220C 0) s)

/-- EVENT_MESSAGE_BUFFER_SIZE: the BMC's size is kept. -/
def eventBufferSize (n : Nat) (s : State) : State :=
  if addressed s then answer (Config.standardReply 0x220D n) { s with mgmt := { s.mgmt with bufSize := n % 2 ^ 16 } } else s

/-- EVENT_MESSAGE_BUFFER_SIZE. -/
def execEventMessageBufferSize (size : Nat) (s : State) : Host.Outcome State Fault Refusal := .next (eventBufferSize size s)

/-- The 13 data bytes of an event (R499). -/
def eventData (e : PldmEvent) : List Byte := natToBytes 1 e.code ++ natToBytes 8 e.stamp ++ natToBytes 4 e.detail

/-- A poll hands over the oldest event; an acknowledgement removes one that has been handed over (R493, R499). -/
def pollEvent (ack : Bool) (s : State) : State :=
  if !addressed s then s
  else match s.mgmt.events_ with
    | [] => answer (Config.standardReply 0x220B 0) s
    | e :: es =>
      if ack then
        if e.polled then answer (Config.standardReply 0x220B 1) { s with mgmt := { s.mgmt with events_ := es } } else s
      else
        answer (Config.standardReply 0x220B 2 ++ eventData e) { s with mgmt := { s.mgmt with events_ := { e with polled := true } :: es } }

/-- POLL_FOR_PLATFORM_EVENT_MESSAGE. -/
def execPollForPlatformEventMessage (ack : Bool) (s : State) : Host.Outcome State Fault Refusal := .next (pollEvent ack s)

/-- GET_FRU_RECORD_TABLE_METADATA. -/
def execGetFruRecordTableMetadata (s : State) : Host.Outcome State Fault Refusal := .next (answered (standard 0x2401 0) s)

/-- The FRU record: part number, SERIAL, STEPPING and BUNDLE_VER (R497). -/
def fruRecord (s : State) : List Byte :=
  ("LZW3-72A".toList.map fun c => BitVec.ofNat 8 c.toNat) ++ serialBytes s ++ natToBytes 1 s.fuses.stepping ++
    natToBytes 8 (cnt F.BUNDLE_VER s)

/-- GET_FRU_RECORD_TABLE. -/
def execGetFruRecordTable (s : State) : Host.Outcome State Fault Refusal :=
  .next (answered (fun t => Config.standardReply 0x2402 0 ++ fruRecord t) s)

/-! ### The window over PLDM (R465, R498) -/

/-- WIN_READ. (DEDUCED, unsafe: log entry 62.) -/
def winRead (off size : Nat) (s : State) : State :=
  if !addressed s then s
  else if !accessOk off size then answer [0x81] s
  else if 2 ^ 26 ≤ off then answer (0x00 :: natToBytes size 0) s
  else
    let p := readWindow true off size s
    answer (0x00 :: natToBytes size p.1) p.2

/-- WIN_READ. -/
def execWinRead (off size : Nat) (s : State) : Host.Outcome State Fault Refusal := .next (winRead off size s)

/-- A write that R465 always permits: `MBX_CMD` with OP ZEROISE and GO. -/
def isZeroise (off : Nat) (d : Dword) : Bool := off == O.MBX_CMD && fieldOf d 0 8 == 5 && bitAt d 31

/-- WIN_WRITE (R465, R498). -/
def winWrite (off size : Nat) (d : Dword) (s : State) : State :=
  if !addressed s then s
  else if !accessOk off size then answer [0x81] s
  else if on F.MOD_CTRL.MGMT_WR s then answer [0x00] (if off < 2 ^ 26 then writeWindow true off size d s else s)
  else if isZeroise off d then answer [0x00] (writeWindow true off 4 d s)
  else answer [0x80] (raise F.PIN_STS.MGMT_DENIED s)

/-- WIN_WRITE. -/
def execWinWrite (off size : Nat) (data : Dword) (s : State) : Host.Outcome State Fault Refusal := .next (winWrite off size data s)

end Sys2Proof.Machine
end

