-- ==== Sys2Proof/Machine/Dispatch.lean ====
section
/-!
DEFINITION. One arm per command of the W3: each calls its meaning.
-/
namespace Sys2Proof.Machine
open Sys2Proof

/-- The effect of a command on everything but the queue. -/
def exec (i : Instr) (s : State) : Host.Outcome State Fault Refusal :=
  match i with
  | .nop cell env => Sys2Proof.Machine.execNop cell env s
  | .tensor cell env => Sys2Proof.Machine.execTensor cell env s
  | .add cell env => Sys2Proof.Machine.execAdd cell env s
  | .mul cell env => Sys2Proof.Machine.execMul cell env s
  | .fma cell env => Sys2Proof.Machine.execFma cell env s
  | .max cell env => Sys2Proof.Machine.execMax cell env s
  | .exp cell env => Sys2Proof.Machine.execExp cell env s
  | .rcp cell env => Sys2Proof.Machine.execRcp cell env s
  | .rsqrt cell env => Sys2Proof.Machine.execRsqrt cell env s
  | .sumred cell env => Sys2Proof.Machine.execSumred cell env s
  | .maxred cell env => Sys2Proof.Machine.execMaxred cell env s
  | .cvt cell env => Sys2Proof.Machine.execCvt cell env s
  | .scale cell env => Sys2Proof.Machine.execScale cell env s
  | .qnt cell env => Sys2Proof.Machine.execQnt cell env s
  | .s24enc cell env => Sys2Proof.Machine.execS24enc cell env s
  | .s24dec cell env => Sys2Proof.Machine.execS24dec cell env s
  | .rng cell env => Sys2Proof.Machine.execRng cell env s
  | .move cell env => Sys2Proof.Machine.execMove cell env s
  | .wait cell env => Sys2Proof.Machine.execWait cell env s
  | .waitComplete cell => Sys2Proof.Machine.execWaitComplete cell s
  | .sync cell env => Sys2Proof.Machine.execSync cell env s
  | .jump cell env => Sys2Proof.Machine.execJump cell env s
  | .illegalInstruction cell env => Sys2Proof.Machine.execIllegalInstruction cell env s
  | .accessAged cell access => Sys2Proof.Machine.execAccessAged cell access s
  | .flitLanding cell flit env => Sys2Proof.Machine.execFlitLanding cell flit env s
  | .multicastCopy router flit env => Sys2Proof.Machine.execMulticastCopy router flit env s
  | .reductionCombine router tree env => Sys2Proof.Machine.execReductionCombine router tree env s
  | .linkCrcError router port seq frame => Sys2Proof.Machine.execLinkCrcError router port seq frame s
  | .nak router port vc0 seq => Sys2Proof.Machine.execNak router port vc0 seq s
  | .linkFail router port => Sys2Proof.Machine.execLinkFail router port s
  | .replayBufferRelease router port vc0 => Sys2Proof.Machine.execReplayBufferRelease router port vc0 s
  | .vc0Discard router word => Sys2Proof.Machine.execVc0Discard router word s
  | .cfgRead cell addr => Sys2Proof.Machine.execCfgRead cell addr s
  | .cfgWrite cell word env => Sys2Proof.Machine.execCfgWrite cell word env s
  | .cfgRsp err data => Sys2Proof.Machine.execCfgRsp err data s
  | .fabCalderaWrite field value => Sys2Proof.Machine.execFabCalderaWrite field value s
  | .eccWriteback cell granule word => Sys2Proof.Machine.execEccWriteback cell granule word s
  | .scrubRead cell t env => Sys2Proof.Machine.execScrubRead cell t env s
  | .scrubAged cell => Sys2Proof.Machine.execScrubAged cell s
  | .scrubLate cell t => Sys2Proof.Machine.execScrubLate cell t s
  | .precisionEventCollect => Sys2Proof.Machine.execPrecisionEventCollect s
  | .widenEnd model layer => Sys2Proof.Machine.execWidenEnd model layer s
  | .modelRecipeWrite model value => Sys2Proof.Machine.execModelRecipeWrite model value s
  | .recipeWinDataWrite value => Sys2Proof.Machine.execRecipeWinDataWrite value s
  | .holdTest => Sys2Proof.Machine.execHoldTest s
  | .holdDecision inputs => Sys2Proof.Machine.execHoldDecision inputs s
  | .slotBoundary => Sys2Proof.Machine.execSlotBoundary s
  | .longHold => Sys2Proof.Machine.execLongHold s
  | .stall cell => Sys2Proof.Machine.execStall cell s
  | .loadGo value => Sys2Proof.Machine.execLoadGo value s
  | .loadCheckDone rest => Sys2Proof.Machine.execLoadCheckDone rest s
  | .hostHold on => Sys2Proof.Machine.execHostHold on s
  | .extEn on => Sys2Proof.Machine.execExtEn on s
  | .beatEdge t highNs => Sys2Proof.Machine.execBeatEdge t highNs s
  | .internalBeat t => Sys2Proof.Machine.execInternalBeat t s
  | .holdover t => Sys2Proof.Machine.execHoldover t s
  | .beatLoss t => Sys2Proof.Machine.execBeatLoss t s
  | .frameStart t => Sys2Proof.Machine.execFrameStart t s
  | .kvRead ctl req env => Sys2Proof.Machine.execKvRead ctl req env s
  | .kvWrite ctl req data env => Sys2Proof.Machine.execKvWrite ctl req data env s
  | .linRead ctl req env => Sys2Proof.Machine.execLinRead ctl req env s
  | .linWrite ctl req data env => Sys2Proof.Machine.execLinWrite ctl req data env s
  | .patrolRead stack t env => Sys2Proof.Machine.execPatrolRead stack t env s
  | .stackScrubLate stack t => Sys2Proof.Machine.execStackScrubLate stack t s
  | .poolEnable model => Sys2Proof.Machine.execPoolEnable model s
  | .poolDisable model => Sys2Proof.Machine.execPoolDisable model s
  | .posLimitWrite model value => Sys2Proof.Machine.execPosLimitWrite model value s
  | .ringEnable ring header => Sys2Proof.Machine.execRingEnable ring header s
  | .submit ring entry => Sys2Proof.Machine.execSubmit ring entry s
  | .cancel ring entry => Sys2Proof.Machine.execCancel ring entry s
  | .prefixCreate ring entry => Sys2Proof.Machine.execPrefixCreate ring entry s
  | .prefixRelease ring entry => Sys2Proof.Machine.execPrefixRelease ring entry s
  | .openModel ring entry => Sys2Proof.Machine.execOpenModel ring entry s
  | .closeModel ring entry => Sys2Proof.Machine.execCloseModel ring entry s
  | .closeComplete model => Sys2Proof.Machine.execCloseComplete model s
  | .loadWeights ring lower upper => Sys2Proof.Machine.execLoadWeights ring lower upper s
  | .loadReceive ring entry => Sys2Proof.Machine.execLoadReceive ring entry s
  | .loadReceiveTimeout model => Sys2Proof.Machine.execLoadReceiveTimeout model s
  | .readback ring take => Sys2Proof.Machine.execReadback ring take s
  | .stepResult entry scores => Sys2Proof.Machine.execStepResult entry scores s
  | .stepCommit entry => Sys2Proof.Machine.execStepCommit entry s
  | .outputRoomWrite ring cons => Sys2Proof.Machine.execOutputRoomWrite ring cons s
  | .hotWindowFill request => Sys2Proof.Machine.execHotWindowFill request s
  | .pinnedWrite model on => Sys2Proof.Machine.execPinnedWrite model on s
  | .run => Sys2Proof.Machine.execRun s
  | .pause => Sys2Proof.Machine.execPause s
  | .abort => Sys2Proof.Machine.execAbort s
  | .discard => Sys2Proof.Machine.execDiscard s
  | .tuneBlockComplete losses => Sys2Proof.Machine.execTuneBlockComplete losses s
  | .presenceDetect link lanes => Sys2Proof.Machine.execPresenceDetect link lanes s
  | .equalisationEnd link failedLanes => Sys2Proof.Machine.execEqualisationEnd link failedLanes s
  | .alignment link reversed => Sys2Proof.Machine.execAlignment link reversed s
  | .params link peer t => Sys2Proof.Machine.execParams link peer t s
  | .retrainComplete link ok t => Sys2Proof.Machine.execRetrainComplete link ok t s
  | .linkDown link t => Sys2Proof.Machine.execLinkDown link t s
  | .linkRetry link t => Sys2Proof.Machine.execLinkRetry link t s
  | .oclDownTimeout => Sys2Proof.Machine.execOclDownTimeout s
  | .payloadFlit link raw t => Sys2Proof.Machine.execPayloadFlit link raw t s
  | .idleFlit link raw t => Sys2Proof.Machine.execIdleFlit link raw t s
  | .nakFlit link raw t => Sys2Proof.Machine.execNakFlit link raw t s
  | .retrainFlit link raw t => Sys2Proof.Machine.execRetrainFlit link raw t s
  | .nakResend link => Sys2Proof.Machine.execNakResend link s
  | .ackTimeout link t => Sys2Proof.Machine.execAckTimeout link t s
  | .mmioRd off size tag => Sys2Proof.Machine.execMmioRd off size tag s
  | .mmioWr off size data sec => Sys2Proof.Machine.execMmioWr off size data sec s
  | .snpInv addr => Sys2Proof.Machine.execSnpInv addr s
  | .cplData tag status poison data sec => Sys2Proof.Machine.execCplData tag status poison data sec s
  | .credit req post init => Sys2Proof.Machine.execCredit req post init s
  | .intrModeration vector => Sys2Proof.Machine.execIntrModeration vector s
  | .cplTimeout tag => Sys2Proof.Machine.execCplTimeout tag s
  | .doorbell value => Sys2Proof.Machine.execDoorbell value s
  | .oclEncMode mode => Sys2Proof.Machine.execOclEncMode mode s
  | .oclCtrlRetrain t => Sys2Proof.Machine.execOclCtrlRetrain t s
  | .fail port arg => Sys2Proof.Machine.execFail port arg s
  | .frame port data => Sys2Proof.Machine.execFrame port data s
  | .ack arg => Sys2Proof.Machine.execAck arg s
  | .cmd msg => Sys2Proof.Machine.execCmd msg s
  | .tokensIn msg => Sys2Proof.Machine.execTokensIn msg s
  | .kv msg => Sys2Proof.Machine.execKv msg s
  | .seqstate msg => Sys2Proof.Machine.execSeqstate msg s
  | .commit data => Sys2Proof.Machine.execCommit data s
  | .pfx data => Sys2Proof.Machine.execPfx data s
  | .pageReq ask => Sys2Proof.Machine.execPageReq ask s
  | .pageData msg => Sys2Proof.Machine.execPageData msg s
  | .pass msg => Sys2Proof.Machine.execPass msg s
  | .passRsp msg => Sys2Proof.Machine.execPassRsp msg s
  | .xing msg => Sys2Proof.Machine.execXing msg s
  | .result data => Sys2Proof.Machine.execResult data s
  | .scommit model launch psn => Sys2Proof.Machine.execScommit model launch psn s
  | .spanCredit port slots init => Sys2Proof.Machine.execSpanCredit port slots init s
  | .splitLaunch model step => Sys2Proof.Machine.execSplitLaunch model step s
  | .pairModeWrite value => Sys2Proof.Machine.execPairModeWrite value s
  | .isolate t => Sys2Proof.Machine.execIsolate t s
  | .takeover => Sys2Proof.Machine.execTakeover s
  | .release => Sys2Proof.Machine.execRelease s
  | .resync => Sys2Proof.Machine.execResync s
  | .takeoverComplete => Sys2Proof.Machine.execTakeoverComplete s
  | .syncingComplete => Sys2Proof.Machine.execSyncingComplete s
  | .faultReport cause cell => Sys2Proof.Machine.execFaultReport cause cell s
  | .cellReset cell => Sys2Proof.Machine.execCellReset cell s
  | .clusterReset cell => Sys2Proof.Machine.execClusterReset cell s
  | .partitionReset cell => Sys2Proof.Machine.execPartitionReset cell s
  | .wholeReset => Sys2Proof.Machine.execWholeReset s
  | .reset => Sys2Proof.Machine.execReset s
  | .drainDone => Sys2Proof.Machine.execDrainDone s
  | .absorbDone quiet => Sys2Proof.Machine.execAbsorbDone quiet s
  | .releaseDone => Sys2Proof.Machine.execReleaseDone s
  | .drainTimeout => Sys2Proof.Machine.execDrainTimeout s
  | .ringFill cell word => Sys2Proof.Machine.execRingFill cell word s
  | .slotFill cell word => Sys2Proof.Machine.execSlotFill cell word s
  | .audit router port word => Sys2Proof.Machine.execAudit router port word s
  | .forceFatal => Sys2Proof.Machine.execForceFatal s
  | .voltageSample sample => Sys2Proof.Machine.execVoltageSample sample s
  | .vcmRecovered => Sys2Proof.Machine.execVcmRecovered s
  | .vcmNorecover => Sys2Proof.Machine.execVcmNorecover s
  | .feedOk feed => Sys2Proof.Machine.execFeedOk feed s
  | .feedLost feed => Sys2Proof.Machine.execFeedLost feed s
  | .bothFeedsLost => Sys2Proof.Machine.execBothFeedsLost s
  | .feedShare => Sys2Proof.Machine.execFeedShare s
  | .phaseFault field phase => Sys2Proof.Machine.execPhaseFault field phase s
  | .powerLevelAdjust field => Sys2Proof.Machine.execPowerLevelAdjust field s
  | .capAdjust => Sys2Proof.Machine.execCapAdjust s
  | .pwrCapWrite value => Sys2Proof.Machine.execPwrCapWrite value s
  | .thermalSample sample => Sys2Proof.Machine.execThermalSample sample s
  | .pairSuspect field pair => Sys2Proof.Machine.execPairSuspect field pair s
  | .noPairs field => Sys2Proof.Machine.execNoPairs field s
  | .thermalTrip => Sys2Proof.Machine.execThermalTrip s
  | .pwrOffReq => Sys2Proof.Machine.execPwrOffReq s
  | .inlet => Sys2Proof.Machine.execInlet s
  | .flowPulse t highNs => Sys2Proof.Machine.execFlowPulse t highNs s
  | .flowUpdate => Sys2Proof.Machine.execFlowUpdate s
  | .flowPulseTimeout t => Sys2Proof.Machine.execFlowPulseTimeout t s
  | .coolOk level heldUs t => Sys2Proof.Machine.execCoolOk level heldUs t s
  | .coolantStopped => Sys2Proof.Machine.execCoolantStopped s
  | .coolantResume => Sys2Proof.Machine.execCoolantResume s
  | .coolCfgWrite value => Sys2Proof.Machine.execCoolCfgWrite value s
  | .thrReloc value => Sys2Proof.Machine.execThrReloc value s
  | .start input => Sys2Proof.Machine.execStart input s
  | .coolOkTimeout => Sys2Proof.Machine.execCoolOkTimeout s
  | .startTimeout => Sys2Proof.Machine.execStartTimeout s
  | .stageImage bundle => Sys2Proof.Machine.execStageImage bundle s
  | .stageStartRecord value => Sys2Proof.Machine.execStageStartRecord value s
  | .stageJournalDump => Sys2Proof.Machine.execStageJournalDump s
  | .stageDone error => Sys2Proof.Machine.execStageDone error s
  | .journalWrite ok => Sys2Proof.Machine.execJournalWrite ok s
  | .pressComplete => Sys2Proof.Machine.execPressComplete s
  | .journalEraseDone => Sys2Proof.Machine.execJournalEraseDone s
  | .shutdown value => Sys2Proof.Machine.execShutdown value s
  | .bistWave wave results => Sys2Proof.Machine.execBistWave wave results s
  | .clr => Sys2Proof.Machine.execClr s
  | .restart => Sys2Proof.Machine.execRestart s
  | .attest => Sys2Proof.Machine.execAttest s
  | .identityBuilt => Sys2Proof.Machine.execIdentityBuilt s
  | .kemStart => Sys2Proof.Machine.execKemStart s
  | .kemFinish => Sys2Proof.Machine.execKemFinish s
  | .kemSwitch => Sys2Proof.Machine.execKemSwitch s
  | .kemKeyExpiry => Sys2Proof.Machine.execKemKeyExpiry s
  | .zeroise mgmt => Sys2Proof.Machine.execZeroise mgmt s
  | .zeroiseDone => Sys2Proof.Machine.execZeroiseDone s
  | .identity => Sys2Proof.Machine.execIdentity s
  | .svnCommit => Sys2Proof.Machine.execSvnCommit s
  | .releaseFlit cell ask => Sys2Proof.Machine.execReleaseFlit cell ask s
  | .pageZeroiseDone model page => Sys2Proof.Machine.execPageZeroiseDone model page s
  | .cellWinRead => Sys2Proof.Machine.execCellWinRead s
  | .cellWinWrite => Sys2Proof.Machine.execCellWinWrite s
  | .cellWinTimeout => Sys2Proof.Machine.execCellWinTimeout s
  | .cellWinAgentFree => Sys2Proof.Machine.execCellWinAgentFree s
  | .registerWrite off value => Sys2Proof.Machine.execRegisterWrite off value s
  | .nresetAssert => Sys2Proof.Machine.execNresetAssert s
  | .nresetRelease senior => Sys2Proof.Machine.execNresetRelease senior s
  | .resetShort => Sys2Proof.Machine.execResetShort s
  | .nholdExt level heldNs t => Sys2Proof.Machine.execNholdExt level heldNs t s
  | .extStuck => Sys2Proof.Machine.execExtStuck s
  | .flowNoise t => Sys2Proof.Machine.execFlowNoise t s
  | .entdaa address => Sys2Proof.Machine.execEntdaa address s
  | .setdasa address => Sys2Proof.Machine.execSetdasa address s
  | .rstdaa => Sys2Proof.Machine.execRstdaa s
  | .enec events => Sys2Proof.Machine.execEnec events s
  | .disec events => Sys2Proof.Machine.execDisec events s
  | .getpid => Sys2Proof.Machine.execGetpid s
  | .getbcr => Sys2Proof.Machine.execGetbcr s
  | .getdcr => Sys2Proof.Machine.execGetdcr s
  | .getstatus => Sys2Proof.Machine.execGetstatus s
  | .getmxds => Sys2Proof.Machine.execGetmxds s
  | .setmwl length => Sys2Proof.Machine.execSetmwl length s
  | .setmrl length => Sys2Proof.Machine.execSetmrl length s
  | .rstact action => Sys2Proof.Machine.execRstact action s
  | .setEndpointId eid source => Sys2Proof.Machine.execSetEndpointId eid source s
  | .getEndpointId => Sys2Proof.Machine.execGetEndpointId s
  | .getMctpVersionSupport => Sys2Proof.Machine.execGetMctpVersionSupport s
  | .getMessageTypeSupport => Sys2Proof.Machine.execGetMessageTypeSupport s
  | .getTid => Sys2Proof.Machine.execGetTid s
  | .getPldmVersion pldmType => Sys2Proof.Machine.execGetPldmVersion pldmType s
  | .getPldmTypes => Sys2Proof.Machine.execGetPldmTypes s
  | .getPldmCommands pldmType => Sys2Proof.Machine.execGetPldmCommands pldmType s
  | .getPdr record => Sys2Proof.Machine.execGetPdr record s
  | .getPdrRepositoryInfo => Sys2Proof.Machine.execGetPdrRepositoryInfo s
  | .getNumericSensorReading sensor => Sys2Proof.Machine.execGetNumericSensorReading sensor s
  | .getStateSensorReadings sensor => Sys2Proof.Machine.execGetStateSensorReadings sensor s
  | .eventMessageSupported => Sys2Proof.Machine.execEventMessageSupported s
  | .eventMessageBufferSize size => Sys2Proof.Machine.execEventMessageBufferSize size s
  | .pollForPlatformEventMessage ack => Sys2Proof.Machine.execPollForPlatformEventMessage ack s
  | .getFruRecordTableMetadata => Sys2Proof.Machine.execGetFruRecordTableMetadata s
  | .getFruRecordTable => Sys2Proof.Machine.execGetFruRecordTable s
  | .winRead off size => Sys2Proof.Machine.execWinRead off size s
  | .winWrite off size data => Sys2Proof.Machine.execWinWrite off size data s
  | .stackLost stack => Sys2Proof.Machine.execStackLost stack s
  | .brynodorWatchdog => Sys2Proof.Machine.execBrynodorWatchdog s
  | .history t => Sys2Proof.Machine.execHistory t s

end Sys2Proof.Machine
end

