-- ==== Sys2Proof/Machine/Step.lean ====
section
/-!
DEFINITION. One step of the block: the command at the front of its queue. An empty queue leaves the block as it is.
-/
namespace Sys2Proof.Machine
open Sys2Proof

/-- Take the command at the front of the queue and perform it with the rest of the queue in place.
(DESIGN CHOICE, safe: log entry 1.) (DESIGN CHOICE, unsafe: log entry 66.) -/
def step (s : State) : Host.Outcome State Fault Refusal :=
  match s.pending with
  | [] => .next s
  | c :: rest => exec c { s with pending := rest }

/-- Put the command that a table word spells at the front of the queue: no row of the table gives bits, so none is spelled.
(DESIGN CHOICE, safe: log entry 8.) -/
def State.withFetchWord (s : State) (nbits w : Nat) : State :=
  match decodeTableWord nbits w with
  | none => s
  | some c => { s with pending := c :: s.pending }

end Sys2Proof.Machine
end

