-- ==== Sys2Proof/Safety.lean ====
section
/-!
DEFINITION. What counts as a safe state: every table and memory in its one canonical form, so that equal contents are equal data; and
what no command may change whatever it does.
-/
namespace Sys2Proof.Machine
open Sys2Proof

/-- A byte memory is in its canonical form: addresses strictly rising, no entry equal to what an unlisted address reads as. -/
def Memory.wf (m : Table Byte) : Bool := Table.wf byte0 m

/-- A byte memory read one byte at a time. -/
abbrev byteAt (m : Table Byte) (a : Nat) : Byte := Table.get byte0 m a

/-- Every byte memory of the W3 is in its canonical form: the cells' memory, stack memory, the mailbox buffer. -/
structure State.MemoryWf (s : State) : Prop where
  cellMem : Memory.wf s.cellMem = true
  stackMem : Memory.wf s.stackMem = true
  mbx : Memory.wf s.sec.mbx = true

/-- The register window, the counter latches, the cells, their arrival counters and accumulators, the routers' tables, links and queues,
the row maps, the model, sequence and layer slots, recipes, images, free pages, stack settings, rings, limits and the fields' controls
are in their canonical form. -/
structure State.TablesWf (s : State) : Prop where
  win : Table.wf resetWord s.win = true
  latchOcl : Table.wf (fun _ => 0) s.latchOcl = true
  latchMgmt : Table.wf (fun _ => 0) s.latchMgmt = true
  cells : Table.wf (fun _ => Cell.reset) s.cells = true
  counters : Table.wf (fun _ => 0) s.counters = true
  accs : Table.wf (fun _ => 0) s.accs = true
  mcast : Table.wf (fun _ => 0) s.mesh.mcast = true
  redTab : Table.wf (fun _ => 0) s.mesh.redTab = true
  layers : Table.wf (fun _ => LayerPrec.reset) s.prec.layers = true
  images : Table.wf (fun _ => Image.reset) s.sched.images = true
  seqs : Table.wf (fun _ => SeqSlot.reset) s.kv.seqs = true
  models : Table.wf (fun _ => ModelSlot.reset) s.svc.models = true
  out : Table.wf (fun _ => OutRing.reset) s.svc.out = true
  cmd : Table.wf (fun _ => CmdRing.mk 0 0) s.svc.cmd = true
  fields : Table.wf (fun _ => FieldPower.reset) s.power.fields = true
  links : Table.wf (fun _ => LinkDir.reset) s.mesh.links = true
  redQ : Table.wf (fun _ => []) s.mesh.redQ = true
  used2 : Table.wf (fun _ => 0) s.mesh.used2 = true
  used3 : Table.wf (fun _ => 0) s.mesh.used3 = true
  rowMap : Table.wf (fun _ => 0) s.mesh.rowMap = true
  recipes : Table.wf (fun _ => 0) s.prec.recipes = true
  limits : Table.wf (fun k => noLimit (k % 4)) s.budget.limits = true
  part : Table.wf (fun _ => 0) s.budget.part = true
  freeList : Table.wf (fun _ => []) s.kv.freeList = true
  settings : Table.wf (fun _ => 0) s.kv.settings = true

/-- Fuses are only ever blown: of `b` and an earlier `a`, the security version has not fallen and nothing else differs (R438, R443). -/
def FusesFollow (a b : Fuses) : Prop := a.svn ≤ b.svn ∧ b = { a with svn := b.svn }

/-- Registers that an access of a cell's engines to memory, and an illegal word or operand, may write: `FAB_ERR_STS` and the memory
error and collision registers of the cell's field (R60, R90), and the event path's `OCL_STS` and `EVT_DROP_CNT` (R299, R300). -/
def cellRegs (c : Nat) : List Nat :=
  [O.OCL_STS, F.EVT_DROP_CNT, F.EVT_DROP_CNT + 4] ++
    [0x1004, 0x2000, 0x2008, 0x200c, 0x2010, 0x2014, 0x2018, 0x201c, 0x2020, 0x2024, 0x2028, 0x202c].map
      (0x100000 + fieldOfCell c * 0x10000 + ·)

/-- Registers that a charge of energy may write: `BUDGET_STS`, `BUDGET_HELD` and the activity's `USED_MJ` (R165, R170, R175). -/
def energyRegs (a : Nat) : List Nat := [O.BUDGET_STS, O.BUDGET_HELD, O.USED_MJ a, O.OCL_STS, F.EVT_DROP_CNT, F.EVT_DROP_CNT + 4]

/-- Cell `c` went on to its next word, and every register outside the list, and every other cell, is as it was (R71). -/
structure Issued (c : Nat) (regs : List Nat) (s t : State) : Prop where
  pc : (cell c t).pc = (cell c s).pc + 1
  regs : ∀ o, o ∉ regs → reg o t = reg o s
  other : ∀ d, d ≠ c → cell d t = cell d s

/-- Of cell memory, the granules of cell `c` from `d` on became `out`, and every byte outside them is as it was. -/
structure Wrote (c d : Nat) (out : List Granule) (s t : State) : Prop where
  granules : ∀ k (h : k < out.length), granule c (d + k) t = out[k]
  bytes : ∀ b, (b < c * cellBytes + d * 64 ∨ c * cellBytes + (d + out.length) * 64 ≤ b) → byteAt t.cellMem b = byteAt s.cellMem b

/-- The parts of the state that a frame speaks of. -/
inductive Part where
  | win | latch | cells | counters | accs | cellMem | stackMem | mesh | prec | sched | beat | budget | kv | svc | ledger | tune
  | link | ports | ocl | pair | faults | power | boot | fuses | sec | agent | mgmt | now | free
  deriving DecidableEq, Repr

/-- A part is in `s` what it is in `a`. `ports` are the four span ports' flit layers, `pair` the rest of the pair's state. -/
abbrev Part.same (p : Part) (a s : State) : Prop :=
  match p with
  | .win => s.win = a.win
  | .latch => s.latchOcl = a.latchOcl ∧ s.latchMgmt = a.latchMgmt
  | .cells => s.cells = a.cells
  | .counters => s.counters = a.counters
  | .accs => s.accs = a.accs
  | .cellMem => s.cellMem = a.cellMem
  | .stackMem => s.stackMem = a.stackMem
  | .mesh => s.mesh = a.mesh
  | .prec => s.prec = a.prec
  | .sched => s.sched = a.sched
  | .beat => s.beat = a.beat
  | .budget => s.budget = a.budget
  | .kv => s.kv = a.kv
  | .svc => s.svc = a.svc
  | .ledger => s.ledger = a.ledger
  | .tune => s.tune = a.tune
  | .link => s.link = a.link
  | .ports => s.pair.port0 = a.pair.port0 ∧ s.pair.port1 = a.pair.port1 ∧ s.pair.port2 = a.pair.port2 ∧ s.pair.port3 = a.pair.port3
  | .ocl => s.ocl = a.ocl
  | .pair => { s.pair with port0 := .reset, port1 := .reset, port2 := .reset, port3 := .reset } =
      { a.pair with port0 := .reset, port1 := .reset, port2 := .reset, port3 := .reset }
  | .faults => s.faults = a.faults
  | .power => s.power = a.power
  | .boot => s.boot = a.boot
  | .fuses => s.fuses = a.fuses
  | .sec => s.sec = a.sec
  | .agent => s.agent = a.agent
  | .mgmt => s.mgmt = a.mgmt
  | .now => s.now = a.now
  | .free => s.free = a.free

/-- Every part outside the list is the same. -/
structure Same (l : List Part) (a s : State) : Prop where
  part : ∀ p, p ∉ l → p.same a s

/-- The parts that a command may change; every other part it leaves as it is. The queue is no command's to change. -/
def mayChange : Instr → List Part
  | .nop .. => [.win, .cells, .mesh, .link, .ports, .ocl]
  | .tensor .. => [.win, .cells, .accs, .cellMem, .mesh, .prec, .budget, .link, .ports, .ocl]
  | .add .. => [.win, .cells, .cellMem, .mesh, .prec, .budget, .link, .ports, .ocl]
  | .mul .. => [.win, .cells, .cellMem, .mesh, .prec, .budget, .link, .ports, .ocl]
  | .fma .. => [.win, .cells, .cellMem, .mesh, .prec, .budget, .link, .ports, .ocl]
  | .max .. => [.win, .cells, .cellMem, .mesh, .prec, .budget, .link, .ports, .ocl]
  | .exp .. => [.win, .cells, .cellMem, .mesh, .prec, .budget, .link, .ports, .ocl]
  | .rcp .. => [.win, .cells, .cellMem, .mesh, .prec, .budget, .link, .ports, .ocl]
  | .rsqrt .. => [.win, .cells, .cellMem, .mesh, .prec, .budget, .link, .ports, .ocl]
  | .sumred .. => [.win, .cells, .cellMem, .mesh, .budget, .link, .ports, .ocl]
  | .maxred .. => [.win, .cells, .cellMem, .mesh, .budget, .link, .ports, .ocl]
  | .cvt .. => [.win, .cells, .cellMem, .mesh, .prec, .budget, .link, .ports, .ocl]
  | .scale .. => [.win, .cells, .cellMem, .mesh, .prec, .budget, .link, .ports, .ocl]
  | .qnt .. => [.win, .cells, .cellMem, .mesh, .prec, .budget, .kv, .link, .ports, .ocl]
  | .s24enc .. => [.win, .cells, .cellMem, .mesh, .prec, .budget, .link, .ports, .ocl]
  | .s24dec .. => [.win, .cells, .cellMem, .mesh, .budget, .link, .ports, .ocl]
  | .rng .. => [.win, .cells, .cellMem, .mesh, .budget, .link, .ports, .ocl]
  | .move .. => [.win, .cells, .mesh, .budget, .link, .ports, .ocl, .pair, .free]
  | .wait .. => [.win, .cells, .counters, .mesh, .link, .ports, .ocl]
  | .waitComplete .. => [.cells, .counters]
  | .sync .. => [.win, .cells, .mesh, .link, .ports, .ocl]
  | .jump .. => [.win, .cells, .mesh, .link, .ports, .ocl]
  | .illegalInstruction .. => [.win, .cells, .mesh, .link, .ports, .ocl]
  | .accessAged .. => [.cells]
  | .flitLanding .. => [.win, .cells, .counters, .cellMem, .mesh, .link, .ports, .ocl, .pair, .free]
  | .multicastCopy .. => [.win, .cells, .counters, .cellMem, .mesh, .budget, .link, .ports, .ocl, .pair, .free]
  | .reductionCombine .. => [.win, .cells, .counters, .cellMem, .mesh, .prec, .budget, .link, .ports, .ocl]
  | .linkCrcError .. => [.mesh]
  | .nak .. => [.win, .mesh, .link, .ports, .ocl]
  | .linkFail .. => [.win, .mesh, .link, .ports, .ocl]
  | .replayBufferRelease .. => [.win, .mesh, .link, .ports, .ocl, .pair, .free]
  | .vc0Discard .. => [.win]
  | .cfgRead .. => [.mesh, .agent]
  | .cfgWrite .. => [.win, .cells, .counters, .mesh, .link, .ports, .ocl, .agent]
  | .cfgRsp .. => [.win, .link, .ports, .ocl, .agent]
  | .fabCalderaWrite .. => [.win, .link, .ports, .ocl]
  | .eccWriteback .. => [.cells]
  | .scrubRead .. => [.win, .cells, .mesh, .link, .ports, .ocl, .now]
  | .scrubAged .. => [.cells]
  | .scrubLate .. => [.win, .cells, .link, .ports, .ocl, .now]
  | .precisionEventCollect => [.win, .prec, .link, .ports, .ocl]
  | .widenEnd .. => [.prec]
  | .modelRecipeWrite .. => [.win]
  | .recipeWinDataWrite .. => [.win, .prec, .link, .ports, .ocl]
  | .holdTest => [.win, .cells, .mesh, .sched, .link, .ports, .ocl]
  | .holdDecision .. => [.win, .mesh, .prec, .sched, .link, .ports, .ocl]
  | .slotBoundary =>
      [.win, .cells, .cellMem, .stackMem, .mesh, .prec, .sched, .budget, .kv, .svc, .ledger, .tune, .link, .ports, .ocl, .pair, .now,
        .free]
  | .longHold => [.win, .sched, .link, .ports, .ocl]
  | .stall .. => [.cells, .mesh]
  | .loadGo .. => [.win, .sched, .link, .ports, .ocl]
  | .loadCheckDone .. => [.win, .cells, .stackMem, .mesh, .sched, .kv, .svc, .ledger, .link, .ports, .ocl]
  | .hostHold .. => [.win]
  | .extEn .. => [.win, .mgmt]
  | .beatEdge .. => [.win, .beat, .link, .ports, .ocl, .mgmt, .now]
  | .internalBeat .. => [.win, .beat, .link, .ports, .ocl, .mgmt, .now]
  | .holdover .. => [.win, .beat, .link, .ports, .ocl, .mgmt, .now]
  | .beatLoss .. => [.win, .beat, .link, .ports, .ocl, .mgmt, .now]
  | .frameStart .. =>
      [.win, .cells, .counters, .cellMem, .stackMem, .mesh, .prec, .sched, .beat, .budget, .kv, .svc, .ledger, .tune, .link, .ports, .ocl,
        .pair, .faults, .power, .boot, .agent, .mgmt, .now, .free]
  | .kvRead .. => [.win, .stackMem, .mesh, .budget, .kv, .svc, .link, .ports, .ocl, .pair, .boot, .free]
  | .kvWrite .. =>
      [.win, .cells, .stackMem, .mesh, .sched, .budget, .kv, .svc, .ledger, .link, .ports, .ocl, .pair, .faults, .power, .boot, .mgmt,
        .free]
  | .linRead .. => [.win, .stackMem, .mesh, .budget, .kv, .svc, .link, .ports, .ocl, .pair, .boot, .free]
  | .linWrite .. => [.win, .stackMem, .mesh, .budget, .kv, .svc, .link, .ports, .ocl, .pair, .boot, .free]
  | .patrolRead .. => [.win, .stackMem, .mesh, .budget, .kv, .svc, .link, .ports, .ocl, .pair, .boot, .now, .free]
  | .stackScrubLate .. => [.win, .link, .ports, .ocl, .now]
  | .poolEnable .. => [.win, .stackMem, .kv, .link, .ports, .ocl]
  | .poolDisable .. => [.win, .kv, .link, .ports, .ocl]
  | .posLimitWrite .. => [.win, .link, .ports, .ocl]
  | .ringEnable .. => [.win, .svc, .tune, .link, .ports, .ocl]
  | .submit .. => [.win, .budget, .svc, .link, .ports, .ocl, .pair, .free]
  | .cancel .. => [.win, .stackMem, .budget, .kv, .svc, .link, .ports, .ocl, .pair, .free]
  | .prefixCreate .. => [.win, .budget, .svc, .link, .ports, .ocl, .pair, .free]
  | .prefixRelease .. => [.win, .budget, .kv, .svc, .link, .ports, .ocl, .pair, .free]
  | .openModel .. => [.win, .stackMem, .sched, .budget, .kv, .svc, .tune, .link, .ports, .ocl, .pair, .sec, .free]
  | .closeModel .. => [.win, .stackMem, .sched, .budget, .kv, .svc, .tune, .link, .ports, .ocl, .pair, .free]
  | .closeComplete .. =>
      [.win, .cells, .cellMem, .stackMem, .prec, .sched, .kv, .svc, .ledger, .tune, .link, .ports, .ocl, .pair, .faults, .boot, .sec,
        .mgmt]
  | .loadWeights .. => [.win, .budget, .svc, .link, .ports, .ocl, .pair, .free]
  | .loadReceive .. => [.win, .budget, .svc, .link, .ports, .ocl, .pair, .free]
  | .loadReceiveTimeout .. => [.win, .svc, .link, .ports, .ocl]
  | .readback .. => [.win, .cells, .mesh, .budget, .svc, .link, .ports, .ocl, .pair, .free]
  | .stepResult .. => [.win, .ledger, .link, .ports, .ocl, .pair, .free]
  | .stepCommit .. => [.win, .stackMem, .budget, .kv, .svc, .ledger, .link, .ports, .ocl, .pair, .free]
  | .outputRoomWrite .. => [.win, .svc, .link, .ports, .ocl]
  | .hotWindowFill .. => [.win, .budget, .kv, .svc, .link, .ports, .ocl]
  | .pinnedWrite .. => [.win]
  | .run => [.win, .link, .ports, .ocl]
  | .pause => [.win, .link, .ports, .ocl]
  | .abort => [.win, .tune, .link, .ports, .ocl]
  | .discard => [.win, .tune, .link, .ports, .ocl]
  | .tuneBlockComplete .. => [.win, .stackMem, .kv, .tune, .link, .ports, .ocl]
  | .presenceDetect .. => [.win, .link, .ports, .ocl]
  | .equalisationEnd .. => [.win, .link, .ports, .ocl]
  | .alignment .. => [.win, .link, .ports, .ocl, .pair, .mgmt, .free]
  | .params .. => [.win, .stackMem, .budget, .kv, .svc, .ledger, .link, .ports, .ocl, .pair, .boot, .mgmt, .now, .free]
  | .retrainComplete .. => [.win, .budget, .svc, .link, .ports, .ocl, .pair, .now, .free]
  | .linkDown .. => [.win, .link, .ports, .ocl, .pair, .mgmt, .now, .free]
  | .linkRetry .. => [.win, .link, .ports, .ocl, .now]
  | .oclDownTimeout => [.win, .cells, .stackMem, .sched, .kv, .svc, .ledger, .link, .ports, .ocl, .faults, .power, .boot, .mgmt]
  | .payloadFlit .. => [.win, .svc, .ledger, .link, .ports, .ocl, .pair, .now]
  | .idleFlit .. => [.win, .svc, .ledger, .link, .ports, .ocl, .pair, .now]
  | .nakFlit .. => [.win, .svc, .ledger, .link, .ports, .ocl, .pair, .now]
  | .retrainFlit .. => [.win, .svc, .ledger, .link, .ports, .ocl, .pair, .now]
  | .nakResend .. => [.link, .ports]
  | .ackTimeout .. => [.win, .link, .ports, .ocl, .now]
  | .mmioRd .. => [.win, .latch, .prec, .link, .ports, .ocl, .free]
  | .mmioWr .. =>
      [.win, .latch, .cells, .counters, .accs, .cellMem, .stackMem, .mesh, .prec, .sched, .beat, .budget, .kv, .svc, .ledger, .tune,
        .link, .ports, .ocl, .pair, .faults, .power, .boot, .fuses, .sec, .agent, .mgmt, .now, .free]
  | .snpInv .. => [.win, .link, .ports, .ocl]
  | .cplData .. =>
      [.win, .cells, .counters, .cellMem, .stackMem, .mesh, .sched, .budget, .kv, .svc, .ledger, .tune, .link, .ports, .ocl, .pair,
        .faults, .power, .boot, .agent, .free]
  | .credit .. => [.win, .link, .ports, .ocl]
  | .intrModeration .. => [.win, .link, .ports, .ocl]
  | .cplTimeout .. =>
      [.win, .cells, .counters, .cellMem, .stackMem, .mesh, .sched, .budget, .kv, .svc, .ledger, .tune, .link, .ports, .ocl, .pair,
        .faults, .power, .boot, .agent]
  | .doorbell .. => [.win, .link, .ports, .ocl]
  | .oclEncMode .. => [.win, .link, .ports, .ocl]
  | .oclCtrlRetrain .. => [.win, .link, .ports, .ocl, .now]
  | .fail .. => [.win, .stackMem, .kv, .svc, .ledger, .link, .ports, .ocl, .pair, .boot, .mgmt]
  | .frame .. =>
      [.win, .cells, .counters, .cellMem, .stackMem, .mesh, .budget, .kv, .svc, .ledger, .link, .ports, .ocl, .pair, .boot, .agent, .free]
  | .ack .. => [.win, .budget, .svc, .ledger, .link, .ports, .ocl, .pair, .free]
  | .cmd .. =>
      [.win, .cells, .counters, .cellMem, .stackMem, .mesh, .budget, .kv, .svc, .ledger, .link, .ports, .ocl, .pair, .boot, .agent, .free]
  | .tokensIn .. =>
      [.win, .cells, .counters, .cellMem, .stackMem, .mesh, .budget, .kv, .svc, .ledger, .link, .ports, .ocl, .pair, .boot, .agent, .free]
  | .kv .. =>
      [.win, .cells, .counters, .cellMem, .stackMem, .mesh, .budget, .kv, .svc, .ledger, .link, .ports, .ocl, .pair, .boot, .agent, .free]
  | .seqstate .. =>
      [.win, .cells, .counters, .cellMem, .stackMem, .mesh, .budget, .kv, .svc, .ledger, .link, .ports, .ocl, .pair, .boot, .agent, .free]
  | .commit .. =>
      [.win, .cells, .counters, .cellMem, .stackMem, .mesh, .budget, .kv, .svc, .ledger, .link, .ports, .ocl, .pair, .boot, .agent, .free]
  | .pfx .. =>
      [.win, .cells, .counters, .cellMem, .stackMem, .mesh, .budget, .kv, .svc, .ledger, .link, .ports, .ocl, .pair, .boot, .agent, .free]
  | .pageReq .. => [.win, .stackMem, .mesh, .budget, .kv, .svc, .link, .ports, .ocl, .pair, .boot, .free]
  | .pageData .. => [.win, .stackMem, .mesh, .budget, .kv, .svc, .link, .ports, .ocl, .pair, .boot, .free]
  | .pass .. =>
      [.win, .cells, .counters, .cellMem, .stackMem, .mesh, .budget, .kv, .svc, .ledger, .link, .ports, .ocl, .pair, .boot, .agent, .free]
  | .passRsp .. => [.win, .svc, .link, .ports, .ocl, .pair]
  | .xing .. =>
      [.win, .cells, .counters, .cellMem, .stackMem, .mesh, .budget, .kv, .svc, .ledger, .link, .ports, .ocl, .pair, .boot, .agent, .free]
  | .result .. =>
      [.win, .cells, .counters, .cellMem, .stackMem, .mesh, .budget, .kv, .svc, .ledger, .link, .ports, .ocl, .pair, .boot, .agent, .free]
  | .scommit .. =>
      [.win, .cells, .counters, .cellMem, .stackMem, .mesh, .budget, .kv, .svc, .ledger, .link, .ports, .ocl, .pair, .boot, .agent, .free]
  | .spanCredit .. => [.win, .link, .ports, .ocl, .pair]
  | .splitLaunch .. => [.win, .budget, .link, .ports, .ocl, .pair]
  | .pairModeWrite .. => [.win, .stackMem, .budget, .kv, .svc, .ledger, .link, .ports, .ocl, .pair, .boot, .mgmt, .free]
  | .isolate .. => [.win, .stackMem, .kv, .svc, .ledger, .link, .ports, .ocl, .pair, .mgmt, .now]
  | .takeover => [.win, .link, .ports, .ocl, .pair, .boot]
  | .release => [.win, .link, .ports, .ocl, .pair, .boot]
  | .resync => [.win, .link, .ports, .ocl, .pair, .boot]
  | .takeoverComplete => [.win, .svc, .link, .ports, .ocl, .pair]
  | .syncingComplete => [.win]
  | .faultReport .. =>
      [.win, .cells, .stackMem, .mesh, .sched, .kv, .svc, .ledger, .tune, .link, .ports, .ocl, .faults, .power, .boot, .mgmt]
  | .cellReset .. => [.win, .cells, .stackMem, .sched, .kv, .svc, .ledger, .tune, .link, .ports, .ocl, .faults]
  | .clusterReset .. => [.win, .cells, .stackMem, .sched, .kv, .svc, .ledger, .tune, .link, .ports, .ocl, .faults]
  | .partitionReset .. => [.win, .cells, .stackMem, .sched, .kv, .svc, .ledger, .tune, .link, .ports, .ocl, .faults]
  | .wholeReset =>
      [.win, .latch, .cells, .counters, .accs, .cellMem, .stackMem, .mesh, .prec, .sched, .beat, .budget, .kv, .svc, .ledger, .tune,
        .link, .ports, .ocl, .pair, .faults, .power, .boot, .sec, .agent, .mgmt, .now]
  | .reset => [.win, .cells, .counters, .accs, .svc, .link, .ports, .ocl]
  | .drainDone => [.win, .svc, .link, .ports, .ocl, .faults]
  | .absorbDone .. =>
      [.win, .cells, .counters, .cellMem, .stackMem, .mesh, .sched, .budget, .kv, .svc, .ledger, .tune, .link, .ports, .ocl, .faults,
        .power, .agent]
  | .releaseDone => [.win, .cells, .sched, .faults]
  | .drainTimeout => [.win, .cells, .stackMem, .sched, .kv, .svc, .ledger, .link, .ports, .ocl, .faults, .power, .boot, .mgmt]
  | .ringFill .. => [.cells]
  | .slotFill .. => [.cells]
  | .audit .. => [.win, .cells, .stackMem, .sched, .kv, .svc, .ledger, .link, .ports, .ocl, .faults, .power, .boot, .mgmt]
  | .forceFatal => [.win, .cells, .stackMem, .sched, .kv, .svc, .ledger, .link, .ports, .ocl, .faults, .power, .boot, .mgmt]
  | .voltageSample .. => [.win, .cells, .stackMem, .sched, .kv, .svc, .ledger, .link, .ports, .ocl, .faults, .power, .boot, .mgmt, .now]
  | .vcmRecovered => [.win, .cells, .stackMem, .sched, .kv, .svc, .ledger, .tune, .link, .ports, .ocl, .faults, .power]
  | .vcmNorecover => [.win, .cells, .stackMem, .sched, .kv, .svc, .ledger, .link, .ports, .ocl, .faults, .power, .boot, .mgmt]
  | .feedOk .. =>
      [.win, .latch, .cells, .counters, .accs, .cellMem, .stackMem, .mesh, .prec, .sched, .beat, .budget, .kv, .svc, .ledger, .tune,
        .link, .ports, .ocl, .pair, .faults, .power, .boot, .sec, .agent, .mgmt, .now]
  | .feedLost .. => [.win, .link, .ports, .ocl, .mgmt]
  | .bothFeedsLost => [.win, .cells, .stackMem, .sched, .kv, .svc, .ledger, .link, .ports, .ocl, .faults, .power, .boot, .mgmt]
  | .feedShare => [.win, .link, .ports, .ocl, .power, .mgmt]
  | .phaseFault .. => [.win, .cells, .stackMem, .sched, .kv, .svc, .ledger, .link, .ports, .ocl, .faults, .power, .boot, .mgmt]
  | .powerLevelAdjust .. => [.win, .link, .ports, .ocl, .power, .mgmt]
  | .capAdjust => [.win, .link, .ports, .ocl, .power, .mgmt]
  | .pwrCapWrite .. => [.win, .link, .ports, .ocl]
  | .thermalSample .. => [.win, .cells, .stackMem, .sched, .kv, .svc, .ledger, .link, .ports, .ocl, .faults, .power, .boot, .mgmt, .now]
  | .pairSuspect .. => [.win, .link, .ports, .ocl, .boot, .mgmt]
  | .noPairs .. => [.win, .link, .ports, .ocl, .power, .mgmt]
  | .thermalTrip => [.win, .power]
  | .pwrOffReq => [.win, .power]
  | .inlet => [.win, .link, .ports, .ocl, .power, .mgmt]
  | .flowPulse .. => [.win, .link, .ports, .ocl, .power, .mgmt, .now]
  | .flowUpdate => [.win, .link, .ports, .ocl, .power, .mgmt]
  | .flowPulseTimeout .. => [.win, .link, .ports, .ocl, .power, .mgmt, .now]
  | .coolOk .. =>
      [.win, .latch, .cells, .counters, .accs, .cellMem, .stackMem, .mesh, .prec, .sched, .beat, .budget, .kv, .svc, .ledger, .tune,
        .link, .ports, .ocl, .pair, .faults, .power, .boot, .sec, .agent, .mgmt, .now]
  | .coolantStopped => [.win, .stackMem, .sched, .kv, .svc, .ledger, .link, .ports, .ocl]
  | .coolantResume => [.win, .cells, .stackMem, .sched, .kv, .svc, .ledger, .tune, .link, .ports, .ocl, .faults, .mgmt]
  | .coolCfgWrite .. => [.win, .link, .ports, .ocl]
  | .thrReloc .. => [.win, .cells, .stackMem, .sched, .kv, .svc, .ledger, .tune, .link, .ports, .ocl, .faults, .power]
  | .start .. =>
      [.win, .latch, .cells, .counters, .accs, .cellMem, .stackMem, .mesh, .prec, .sched, .beat, .budget, .kv, .svc, .ledger, .tune,
        .link, .ports, .ocl, .pair, .faults, .power, .boot, .sec, .agent, .mgmt, .now]
  | .coolOkTimeout =>
      [.win, .latch, .cells, .counters, .accs, .cellMem, .stackMem, .mesh, .prec, .sched, .beat, .budget, .kv, .svc, .ledger, .tune,
        .link, .ports, .ocl, .pair, .faults, .power, .boot, .sec, .agent, .mgmt, .now]
  | .startTimeout =>
      [.win, .latch, .cells, .counters, .accs, .cellMem, .stackMem, .mesh, .prec, .sched, .beat, .budget, .kv, .svc, .ledger, .tune,
        .link, .ports, .ocl, .pair, .faults, .power, .boot, .sec, .agent, .mgmt, .now]
  | .stageImage .. => [.win, .link, .ports, .ocl, .boot]
  | .stageStartRecord .. => [.win, .link, .ports, .ocl, .boot]
  | .stageJournalDump => [.win, .link, .ports, .ocl, .boot]
  | .stageDone .. => [.win, .link, .ports, .ocl, .boot]
  | .journalWrite .. =>
      [.win, .cells, .cellMem, .stackMem, .prec, .sched, .kv, .svc, .ledger, .tune, .link, .ports, .ocl, .pair, .faults, .power, .boot,
        .sec, .mgmt, .free]
  | .pressComplete => [.win, .link, .ports, .ocl, .boot]
  | .journalEraseDone => [.win, .boot]
  | .shutdown .. =>
      [.win, .cells, .cellMem, .stackMem, .prec, .sched, .kv, .svc, .ledger, .tune, .link, .ports, .ocl, .pair, .faults, .boot, .sec,
        .mgmt]
  | .bistWave .. => [.win, .link, .ports, .ocl, .power, .boot]
  | .clr => [.win, .boot]
  | .restart =>
      [.win, .latch, .cells, .counters, .accs, .cellMem, .stackMem, .mesh, .prec, .sched, .beat, .budget, .kv, .svc, .ledger, .tune,
        .link, .ports, .ocl, .pair, .faults, .power, .boot, .sec, .agent, .mgmt, .now]
  | .attest => [.win, .link, .ports, .ocl, .boot, .sec]
  | .identityBuilt => [.win, .link, .ports, .ocl, .boot, .sec]
  | .kemStart => [.win, .link, .ports, .ocl, .boot, .sec]
  | .kemFinish =>
      [.win, .cells, .counters, .cellMem, .stackMem, .mesh, .sched, .budget, .kv, .svc, .ledger, .tune, .link, .ports, .ocl, .pair,
        .faults, .power, .boot, .sec, .agent, .free]
  | .kemSwitch => [.win, .link, .ports, .ocl, .sec]
  | .kemKeyExpiry => [.sec]
  | .zeroise .. =>
      [.win, .cells, .cellMem, .stackMem, .prec, .sched, .kv, .svc, .ledger, .tune, .link, .ports, .ocl, .pair, .faults, .sec, .mgmt]
  | .zeroiseDone =>
      [.win, .cells, .cellMem, .stackMem, .prec, .sched, .kv, .svc, .ledger, .tune, .link, .ports, .ocl, .pair, .faults, .sec, .mgmt]
  | .identity => [.win, .link, .ports, .ocl, .sec]
  | .svnCommit => [.win, .link, .ports, .ocl, .fuses, .sec]
  | .releaseFlit .. => [.win, .cells, .cellMem, .mesh, .kv, .link, .ports, .ocl]
  | .pageZeroiseDone .. => [.win, .stackMem, .kv, .svc, .link, .ports, .ocl]
  | .cellWinRead => [.win, .mesh, .link, .ports, .ocl, .agent]
  | .cellWinWrite => [.win, .mesh, .link, .ports, .ocl, .agent]
  | .cellWinTimeout => [.win, .link, .ports, .ocl, .agent]
  | .cellWinAgentFree => [.win, .mesh, .agent]
  | .registerWrite .. =>
      [.win, .latch, .cells, .counters, .accs, .cellMem, .stackMem, .mesh, .prec, .sched, .beat, .budget, .kv, .svc, .ledger, .tune,
        .link, .ports, .ocl, .pair, .faults, .power, .boot, .fuses, .sec, .agent, .mgmt, .now, .free]
  | .nresetAssert =>
      [.win, .latch, .cells, .counters, .accs, .cellMem, .stackMem, .mesh, .prec, .sched, .beat, .budget, .kv, .svc, .ledger, .tune,
        .link, .ports, .ocl, .pair, .faults, .power, .boot, .sec, .agent, .mgmt, .now]
  | .nresetRelease .. => [.win, .mgmt]
  | .resetShort => [.win, .link, .ports, .ocl]
  | .nholdExt .. => [.win, .link, .ports, .ocl, .mgmt, .now]
  | .extStuck => [.win, .link, .ports, .ocl, .mgmt]
  | .flowNoise .. => [.win, .link, .ports, .ocl, .mgmt, .now]
  | .entdaa .. => [.mgmt]
  | .setdasa .. => [.mgmt]
  | .rstdaa => [.mgmt]
  | .enec .. => [.mgmt]
  | .disec .. => [.mgmt]
  | .getpid => [.mgmt]
  | .getbcr => [.mgmt]
  | .getdcr => [.mgmt]
  | .getstatus => [.mgmt]
  | .getmxds => [.mgmt]
  | .setmwl .. => [.mgmt]
  | .setmrl .. => [.mgmt]
  | .rstact .. => [.mgmt]
  | .setEndpointId .. => [.mgmt]
  | .getEndpointId => [.mgmt]
  | .getMctpVersionSupport => [.mgmt]
  | .getMessageTypeSupport => [.mgmt]
  | .getTid => [.mgmt]
  | .getPldmVersion .. => [.mgmt]
  | .getPldmTypes => [.mgmt]
  | .getPldmCommands .. => [.mgmt]
  | .getPdr .. => [.mgmt]
  | .getPdrRepositoryInfo => [.mgmt]
  | .getNumericSensorReading .. => [.mgmt]
  | .getStateSensorReadings .. => [.mgmt]
  | .eventMessageSupported => [.mgmt]
  | .eventMessageBufferSize .. => [.mgmt]
  | .pollForPlatformEventMessage .. => [.mgmt]
  | .getFruRecordTableMetadata => [.mgmt]
  | .getFruRecordTable => [.mgmt]
  | .winRead .. => [.win, .latch, .prec, .mgmt, .free]
  | .winWrite .. =>
      [.win, .latch, .cells, .counters, .accs, .cellMem, .stackMem, .mesh, .prec, .sched, .beat, .budget, .kv, .svc, .ledger, .tune,
        .link, .ports, .ocl, .pair, .faults, .power, .boot, .fuses, .sec, .agent, .mgmt, .now, .free]
  | .stackLost .. => [.win, .cells, .stackMem, .sched, .kv, .svc, .ledger, .link, .ports, .ocl, .faults, .power, .boot, .mgmt]
  | .brynodorWatchdog => [.win, .cells, .stackMem, .sched, .kv, .svc, .ledger, .link, .ports, .ocl, .faults, .power, .boot, .mgmt]
  | .history .. => [.power, .boot, .now]

end Sys2Proof.Machine
end

