-- ==== Sys2Proof/WellFormed.lean ====
section
/-!
DEFINITION. Which commands are well formed: every operand that names a part of the block names one that exists (R4 to R8, R19, R28,
R42, R188, R212, R237, R286), and every operand of a fixed width fits it.
-/
namespace Sys2Proof

/-- An operand below its bound. -/
def below (n x : Nat) : Bool := decide (x < n)

/-- A linear number of a logical cell (R7). -/
def isCell (c : Nat) : Bool := below 221184 c

/-- The command's operands lie in their ranges. -/
def Instr.wellFormed (i : Instr) : Bool :=
  match i with
  | .nop cell _ => isCell cell
  | .tensor cell _ => isCell cell
  | .add cell _ => isCell cell
  | .mul cell _ => isCell cell
  | .fma cell _ => isCell cell
  | .max cell _ => isCell cell
  | .exp cell _ => isCell cell
  | .rcp cell _ => isCell cell
  | .rsqrt cell _ => isCell cell
  | .sumred cell _ => isCell cell
  | .maxred cell _ => isCell cell
  | .cvt cell _ => isCell cell
  | .scale cell _ => isCell cell
  | .qnt cell _ => isCell cell
  | .s24enc cell _ => isCell cell
  | .s24dec cell _ => isCell cell
  | .rng cell _ => isCell cell
  | .move cell _ => isCell cell
  | .wait cell _ => isCell cell
  | .waitComplete cell => isCell cell
  | .sync cell _ => isCell cell
  | .jump cell _ => isCell cell
  | .illegalInstruction cell _ => isCell cell
  | .accessAged cell access => isCell cell && below 6 access.port && below 120 access.bank
  | .flitLanding cell _ _ => isCell cell
  | .multicastCopy router _ _ => isCell router
  | .reductionCombine router tree _ => isCell router && below 256 tree
  | .linkCrcError router port seq _ => isCell router && below 8 port && below 16 seq
  | .nak router port _ seq => isCell router && below 8 port && below 16 seq
  | .linkFail router port => isCell router && below 8 port
  | .replayBufferRelease router port _ => isCell router && below 8 port
  | .vc0Discard router _ => isCell router
  | .cfgRead cell _ => isCell cell
  | .cfgWrite cell _ _ => isCell cell
  | .cfgRsp _ _ => true
  | .fabCalderaWrite field _ => below 72 field
  | .eccWriteback cell granule word => isCell cell && below 27648 granule && below 8 word
  | .scrubRead cell _ _ => isCell cell
  | .scrubAged cell => isCell cell
  | .scrubLate cell _ => isCell cell
  | .precisionEventCollect => true
  | .widenEnd model layer => below 16 model && below 256 layer
  | .modelRecipeWrite model _ => below 16 model
  | .recipeWinDataWrite _ => true
  | .holdTest => true
  | .holdDecision _ => true
  | .slotBoundary => true
  | .longHold => true
  | .stall cell => isCell cell
  | .loadGo _ => true
  | .loadCheckDone _ => true
  | .hostHold _ => true
  | .extEn _ => true
  | .beatEdge _ _ => true
  | .internalBeat _ => true
  | .holdover _ => true
  | .beatLoss _ => true
  | .frameStart _ => true
  | .kvRead ctl _ _ => below 12 ctl
  | .kvWrite ctl _ _ _ => below 12 ctl
  | .linRead ctl _ _ => below 12 ctl
  | .linWrite ctl _ _ _ => below 12 ctl
  | .patrolRead stack _ _ => below 12 stack
  | .stackScrubLate stack _ => below 12 stack
  | .poolEnable model => below 16 model
  | .poolDisable model => below 16 model
  | .posLimitWrite model _ => below 16 model
  | .ringEnable ring _ => below 19 ring
  | .submit ring _ => below 8 ring
  | .cancel ring _ => below 8 ring
  | .prefixCreate ring _ => below 8 ring
  | .prefixRelease ring _ => below 8 ring
  | .openModel ring _ => below 8 ring
  | .closeModel ring _ => below 8 ring
  | .closeComplete model => below 16 model
  | .loadWeights ring _ _ => below 8 ring
  | .loadReceive ring _ => below 8 ring
  | .loadReceiveTimeout model => below 16 model
  | .readback ring _ => below 8 ring
  | .stepResult entry _ => below 1024 entry
  | .stepCommit entry => below 1024 entry
  | .outputRoomWrite ring cons => below 8 ring && below 4294967296 cons
  | .hotWindowFill _ => true
  | .pinnedWrite model _ => below 16 model
  | .run => true
  | .pause => true
  | .abort => true
  | .discard => true
  | .tuneBlockComplete _ => true
  | .presenceDetect link lanes => below 5 link && below 65 lanes
  | .equalisationEnd link _ => below 5 link
  | .alignment link _ => below 5 link
  | .params link _ _ => below 5 link
  | .retrainComplete link _ _ => below 5 link
  | .linkDown link _ => below 5 link
  | .linkRetry link _ => below 5 link
  | .oclDownTimeout => true
  | .payloadFlit link _ _ => below 5 link
  | .idleFlit link _ _ => below 5 link
  | .nakFlit link _ _ => below 5 link
  | .retrainFlit link _ _ => below 5 link
  | .nakResend link => below 5 link
  | .ackTimeout link _ => below 5 link
  | .mmioRd off _ tag => below 4294967296 off && below 1024 tag
  | .mmioWr off _ _ _ => below 4294967296 off
  | .snpInv _ => true
  | .cplData tag status _ _ _ => below 1024 tag && below 8 status
  | .credit req post _ => below 65536 req && below 65536 post
  | .intrModeration vector => below 65536 vector
  | .cplTimeout tag => below 1024 tag
  | .doorbell _ => true
  | .oclEncMode mode => below 4 mode
  | .oclCtrlRetrain _ => true
  | .fail port _ => below 4 port
  | .frame port _ => below 4 port
  | .ack _ => true
  | .cmd _ => true
  | .tokensIn _ => true
  | .kv _ => true
  | .seqstate _ => true
  | .commit _ => true
  | .pfx _ => true
  | .pageReq _ => true
  | .pageData _ => true
  | .pass _ => true
  | .passRsp _ => true
  | .xing _ => true
  | .result _ => true
  | .scommit model _ psn => below 16 model && below 4294967296 psn
  | .spanCredit port slots _ => below 4 port && below 65536 slots
  | .splitLaunch model step => below 16 model && below 1024 step.entry
  | .pairModeWrite _ => true
  | .isolate _ => true
  | .takeover => true
  | .release => true
  | .resync => true
  | .takeoverComplete => true
  | .syncingComplete => true
  | .faultReport _ cell => isCell cell
  | .cellReset cell => isCell cell
  | .clusterReset cell => isCell cell
  | .partitionReset cell => isCell cell
  | .wholeReset => true
  | .reset => true
  | .drainDone => true
  | .absorbDone _ => true
  | .releaseDone => true
  | .drainTimeout => true
  | .ringFill cell _ => isCell cell
  | .slotFill cell _ => isCell cell
  | .audit router port _ => isCell router && below 4 port
  | .forceFatal => true
  | .voltageSample _ => true
  | .vcmRecovered => true
  | .vcmNorecover => true
  | .feedOk feed => below 2 feed
  | .feedLost feed => below 2 feed
  | .bothFeedsLost => true
  | .feedShare => true
  | .phaseFault field phase => below 72 field && below 16 phase
  | .powerLevelAdjust field => below 72 field
  | .capAdjust => true
  | .pwrCapWrite _ => true
  | .thermalSample _ => true
  | .pairSuspect field pair => below 72 field && below 16 pair
  | .noPairs field => below 72 field
  | .thermalTrip => true
  | .pwrOffReq => true
  | .inlet => true
  | .flowPulse _ _ => true
  | .flowUpdate => true
  | .flowPulseTimeout _ => true
  | .coolOk _ _ _ => true
  | .coolantStopped => true
  | .coolantResume => true
  | .coolCfgWrite _ => true
  | .thrReloc _ => true
  | .start _ => true
  | .coolOkTimeout => true
  | .startTimeout => true
  | .stageImage _ => true
  | .stageStartRecord _ => true
  | .stageJournalDump => true
  | .stageDone error => below 6 error
  | .journalWrite _ => true
  | .pressComplete => true
  | .journalEraseDone => true
  | .shutdown _ => true
  | .bistWave wave _ => below 9 wave
  | .clr => true
  | .restart => true
  | .attest => true
  | .identityBuilt => true
  | .kemStart => true
  | .kemFinish => true
  | .kemSwitch => true
  | .kemKeyExpiry => true
  | .zeroise _ => true
  | .zeroiseDone => true
  | .identity => true
  | .svnCommit => true
  | .releaseFlit cell _ => isCell cell
  | .pageZeroiseDone model page => below 16 model && below 268435456 page
  | .cellWinRead => true
  | .cellWinWrite => true
  | .cellWinTimeout => true
  | .cellWinAgentFree => true
  | .registerWrite off _ => below 4294967296 off
  | .nresetAssert => true
  | .nresetRelease _ => true
  | .resetShort => true
  | .nholdExt _ _ _ => true
  | .extStuck => true
  | .flowNoise _ => true
  | .entdaa address => below 128 address
  | .setdasa address => below 128 address
  | .rstdaa => true
  | .enec events => below 256 events
  | .disec events => below 256 events
  | .getpid => true
  | .getbcr => true
  | .getdcr => true
  | .getstatus => true
  | .getmxds => true
  | .setmwl length => below 65536 length
  | .setmrl length => below 65536 length
  | .rstact action => below 256 action
  | .setEndpointId eid source => below 256 eid && below 256 source
  | .getEndpointId => true
  | .getMctpVersionSupport => true
  | .getMessageTypeSupport => true
  | .getTid => true
  | .getPldmVersion pldmType => below 64 pldmType
  | .getPldmTypes => true
  | .getPldmCommands pldmType => below 64 pldmType
  | .getPdr _ => true
  | .getPdrRepositoryInfo => true
  | .getNumericSensorReading sensor => below 65536 sensor
  | .getStateSensorReadings sensor => below 65536 sensor
  | .eventMessageSupported => true
  | .eventMessageBufferSize _ => true
  | .pollForPlatformEventMessage _ => true
  | .getFruRecordTableMetadata => true
  | .getFruRecordTable => true
  | .winRead off _ => below 4294967296 off
  | .winWrite off _ _ => below 4294967296 off
  | .stackLost stack => below 12 stack
  | .brynodorWatchdog => true
  | .history _ => true

end Sys2Proof
end

