-- ==== Sys2Proof/Certificates/Slice0/Obligations.lean ====
section
/-!
DEFINITION. The statements for the provers.
-/
open Sys2Proof Sys2Proof.Machine

/-- The word at the program counter of cell `c`, read with the fetch buffer filled (R71). -/
abbrev wordAt (c : Nat) (env : MemEnv) (s : State) : Dword := nextWord c (fill c env s)

/-- What that word spells in the cell. -/
abbrev spells (c : Nat) (env : MemEnv) (s : State) : Kind := kindOf c (wordAt c env s) (seen c env (fill c env s))

/-- What the instruction reads: a word that its reads find uncorrectable is a free value (R86). -/
abbrev readView (c : Nat) (env : MemEnv) (s : State) : State := seen c env (fill c env s)

/-- The registers that an instruction of cell `c` may write: the memory and illegal-word registers of its field, the event path's,
and the budget registers of the activity it serves. -/
abbrev instrRegs (c : Nat) (s : State) : List Nat := cellRegs c ++ energyRegs (activityOf (cell c s).serving)

/-- The W3 took the entry at CONS of command ring `r` (R212). -/
abbrev tookEntry (r : Nat) (s t : State) : Prop :=
  (cmdRing r t).cons = ((cmdRing r s).cons + 1) % 2 ^ 32 ∧ (cmdRing r t).prod = (cmdRing r s).prod

/-- No message waits ahead of its turn and the stream's table of expected PSNs is canonical. -/
abbrev inTurn (st psn : Nat) (s : State) : Prop :=
  rxExpected st s = psn ∧ s.pair.ahead = [] ∧ Table.wf (fun _ => 0) s.pair.rxPsn = true

/-- Stack memory stands but for page list entries of sequence slots, which releasing a slot clears (R193). -/
abbrev keepsStack (s t : State) : Prop :=
  ∀ b, (∀ q, ∀ e ∈ (seqSlot q s).pages, b < listAddr q e.span s ∨ listAddr q e.span s + 4 ≤ b) →
    byteAt t.stackMem b = byteAt s.stackMem b

/-- The module stands after a fatal event with this cause and detail (R371, R372). -/
abbrev stoppedBy (code detail : Nat) (t : State) : Prop :=
  t.faults.stopped = true ∧ t.faults.job = none ∧ rd F.RST_STATE.BUSY t = 0 ∧ rd F.FATAL_CAUSE.CODE t = code ∧ rd F.FATAL_CAUSE.DETAIL t = detail ∧ rd F.FLT_STS.FATAL t = 1

/-- For every state whose queue of waiting commands begins with command i and goes on with l, the step is exec of i on that state with
the queue l in place. The queue is the model's own (log entry 1). (1. SCOPE) -/
def Obligations.StepRunsTheFrontCommand : Prop :=
  ∀ (i : Instr) (l : List Instr) (s : State), s.pending = i :: l → step s = exec i { s with pending := l }

/-- For every state with an empty queue of waiting commands, the step answers the same state. The queue and the idling are the model's
choice (log entry 1). (1. SCOPE) -/
def Obligations.StepIdlesOnEmptyQueue : Prop :=
  ∀ s : State, s.pending = [] → step s = .next s

/-- No command stops the block: for every command, with every operand, and every state there is a next state, and its queue of waiting
commands is the queue before. That a command whose conditions do not hold changes nothing is the model's choice (log entry 2). (1.
SCOPE) -/
def Obligations.EveryCommandAnswersNextAndKeepsQueue : Prop :=
  ∀ (i : Instr) (s : State), ∃ t, exec i s = .next t ∧ t.pending = s.pending

/-- For every state whose three byte memories (the cells' memory, the stacks' memory, the mailbox buffer) list their addresses strictly
rising with no byte equal to what an unlisted address reads as, and every next state of a step from it, the same holds of the next
state. (R64, R203, R447) -/
def Obligations.StepKeepsByteMemoriesCanonical : Prop :=
  ∀ s t : State, s.MemoryWf → step s = .next t → t.MemoryWf

/-- For every state whose register window, counter latches, cells, arrival counters, accumulators, router tables, layer, image,
sequence, model, ring and field tables are in canonical form, and every next state of a step from it, the same holds of the next state.
A register therefore has one stored value and reads back what was last stored. (R28, R54, R56, R80, R459, R473) -/
def Obligations.StepKeepsTablesCanonical : Prop :=
  ∀ s t : State, s.TablesWf → step s = .next t → t.TablesWf

/-- The byte memories and the tables of the state right after reset are in the canonical form that every step keeps, and no command
waits. (R472) -/
def Obligations.ResetIsCanonical : Prop :=
  State.reset.MemoryWf ∧ State.reset.TablesWf ∧ State.reset.pending = []

/-- For every step that answers a next state, the security version held in fuses is at least what it was, and every other fuse holds
what it held. (R438, R443) -/
def Obligations.StepNeverUndoesAFuse : Prop :=
  ∀ s t : State, step s = .next t → FusesFollow s.fuses t.fuses

/-- For every cell whose fetch buffer is empty, the word that issues next is the 64-bit word of the cell's memory that SEQ_PC addresses:
word SEQ_PC mod 8 of granule SEQ_PC / 8. A word whose read finds it uncorrectable is a free value (log entry 14); with none such in the
environment of the read, what is read is what is stored. (R28, R60, R71) -/
def Obligations.FetchReadsMemoryAtPc : Prop :=
  ∀ (s : State) (c : Nat) (env : MemEnv), s.TablesWf → (cell c s).fetch = [] →
    wordAt c env s =
      BitVec.ofNat 64 (fieldOf (readGranule c ((cell c s).pc.toNat / 8) (seen c env s)) (64 * ((cell c s).pc.toNat % 8)) 64) ∧
    (env.ue = [] → seen c env s = s)

/-- A cell that may issue and stands at a VECTOR word of the operation, whose LEN granules at D the cell exposes: the command answers a
next state in which the granules at D hold A + B (ADD), A × B (MUL), A × B + D (FMA), max(A, B) (MAX), or A times the scalar at B
(SCALE), element by element and packed in the word's format, as the row of an attention stage stores them (R181: a score that is not
finite as 0xFF80; zeros for a row none of whose scores is seen; outside attention stages, as computed); every other byte of cell memory,
every other cell and every register outside the cell's own is as before, and SEQ_PC is one on. (R33, R71, R95, R118, R181) -/
def Obligations.ElementwiseVectorResults : Prop :=
  ∀ (s : State) (c : Nat) (env : MemEnv), s.TablesWf → s.MemoryWf → canIssue c s = true →
    let u := readView c env s
    let x := fill c env s
    let v := vectorWord (wordAt c env s)
    v.d + v.len ≤ exposed c s →
    (env.attn = none → ∀ out, vecResults c v out env x = packResult v out) ∧
    (spells c env s = .vector 0x00 → ∃ t, exec (.add c env) s = .next t ∧ Issued c (instrRegs c s) s t ∧
      Wrote c v.d (vecResults c v (List.zipWith fpAdd (srcA c v u) (srcMem c v v.b u)) env x) s t) ∧
    (spells c env s = .vector 0x01 → ∃ t, exec (.mul c env) s = .next t ∧ Issued c (instrRegs c s) s t ∧
      Wrote c v.d (vecResults c v (List.zipWith fpMul (srcA c v u) (srcMem c v v.b u)) env x) s t) ∧
    (spells c env s = .vector 0x02 → ∃ t, exec (.fma c env) s = .next t ∧ Issued c (instrRegs c s) s t ∧
      Wrote c v.d (vecResults c v (List.zipWith (fun a p => fpFma a p.1 p.2) (srcA c v u) ((srcMem c v v.b u).zip (srcMem c v v.d u))) env x) s t) ∧
    (spells c env s = .vector 0x03 → ∃ t, exec (.max c env) s = .next t ∧ Issued c (instrRegs c s) s t ∧
      Wrote c v.d (vecResults c v (List.zipWith fpMax (srcA c v u) (srcMem c v v.b u)) env x) s t) ∧
    (spells c env s = .vector 0x0A → ∃ t, exec (.scale c env) s = .next t ∧ Issued c (instrRegs c s) s t ∧
      Wrote c v.d (vecResults c v ((srcA c v u).map fun x => fpMul x (memElem c v v.b 0 u)) env x) s t)

/-- A cell that may issue and stands at a VECTOR word of the operation, whose LEN granules at D the cell exposes: the command answers a
next state in which the granules at D hold the function of each element of A (EXP, RCP, RSQRT), the decoded SUM24 elements of the block
at A (S24DEC), or uniform values of the cell's generator seeded by the granule at A, or by the accumulator file (RNG); EXP, RCP and
RSQRT store them as the row of an attention stage does (R181; outside one, as computed); every other byte of cell memory, every other
cell and every register outside the cell's own is as before, and SEQ_PC is one on. Where in the generator's sequence a draw lies is a
free value (log entry 14). (R33, R98, R118, R121, R181, R231) -/
def Obligations.FunctionVectorResults : Prop :=
  ∀ (s : State) (c : Nat) (env : MemEnv), s.TablesWf → s.MemoryWf → canIssue c s = true →
    let u := readView c env s
    let x := fill c env s
    let v := vectorWord (wordAt c env s)
    v.d + v.len ≤ exposed c s →
    (env.attn = none → ∀ out, vecResults c v out env x = packResult v out) ∧
    (spells c env s = .vector 0x04 → ∃ t, exec (.exp c env) s = .next t ∧ Issued c (instrRegs c s) s t ∧
      Wrote c v.d (vecResults c v ((srcA c v u).map fpExpOp) env x) s t) ∧
    (spells c env s = .vector 0x05 → ∃ t, exec (.rcp c env) s = .next t ∧ Issued c (instrRegs c s) s t ∧
      Wrote c v.d (vecResults c v ((srcA c v u).map fpRcpOp) env x) s t) ∧
    (spells c env s = .vector 0x06 → ∃ t, exec (.rsqrt c env) s = .next t ∧ Issued c (instrRegs c s) s t ∧
      Wrote c v.d (vecResults c v ((srcA c v u).map fpRsqrtOp) env x) s t) ∧
    (spells c env s = .vector 0x0D → ∃ t, exec (.s24dec c env) s = .next t ∧ Issued c (instrRegs c s) s t ∧
      Wrote c v.d (packFp32 v.len ((List.range (16 * v.len)).map fun i =>
        (sum24Val (fieldOf (srcGranule c v 0 u) (8 * (i / 16)) 8)
          (mantVal (fieldOf (srcGranule c v (1 + i / 32) u) (16 * (i % 32)) 16))).toFp)) s t) ∧
    (spells c env s = .vector 0x0E → ∃ t, exec (.rng c env) s = .next t ∧ Issued c (instrRegs c s) s t ∧
      Wrote c v.d (packResult v ((List.range v.elems).map fun i =>
        (uniform (fieldOf (srcGranule c v 0 u) 0 64) (Config.rngPosition (srcGranule c v 0 u) (cell c s).rng i)).toFp)) s t)

/-- A cell that may issue and stands at a SUMRED or MAXRED word whose granule at D the cell exposes: the command answers a next state in
which the low 32 bits of that granule hold the FP32 sum of A over LEN granules (SUMRED), or its low bits hold the maximum of A in the
word's format, 32 bits FP32 or 16 bits BF16 (MAXRED); what the rest of the granule holds is a free value (log entry 14). Every byte
outside that granule, every other cell and every register outside the cell's own is as before, and SEQ_PC is one on. (R33, R118) -/
def Obligations.ReductionsWriteOneScalar : Prop :=
  ∀ (s : State) (c : Nat) (env : MemEnv), s.TablesWf → s.MemoryWf → canIssue c s = true →
    let u := readView c env s
    let v := vectorWord (wordAt c env s)
    v.d < exposed c s →
    (spells c env s = .vector 0x07 → ∃ t g, exec (.sumred c env) s = .next t ∧ Issued c (instrRegs c s) s t ∧ Wrote c v.d [g] s t ∧
      fieldOf g 0 32 = (fpSum (if v.fp32 then 16 else 32) (srcA c v u)).toNat) ∧
    (spells c env s = .vector 0x08 → ∃ t g, exec (.maxred c env) s = .next t ∧ Issued c (instrRegs c s) s t ∧ Wrote c v.d [g] s t ∧
      (if v.fp32 then fieldOf g 0 32 = (fpMaxList (srcA c v u)).toNat
        else fieldOf g 0 16 = (toBf16 (fpMaxList (srcA c v u))).toNat))

/-- A cell that may issue and stands at a CVT, QNT or S24ENC word: the command answers a next state in which SEQ_PC is one on, every
other cell and every register but the cell's own and KV_STS are as before. The exposed granules from D on hold the results: A converted
into the format and with the scales that B gives (CVT; scores of an attention row stored as R181 says), the SUM24 block of A (S24ENC),
the quantised elements of A (QNT, which also leaves the header it forms in KV mode at B and the errors that KEEP keeps from B + 1 on,
the last of its writes to a granule standing); every byte outside these is as before. Where the cell is bound to a model slot and layer
and an element of the source is an infinity or a NaN, the precision events waiting to be collected include a NONFIN event of that slot
and layer beyond those that waited before. (R33, R98, R108, R109, R113, R116, R118, R121, R181) -/
def Obligations.ConvertingVectorOpsComplete : Prop :=
  ∀ (s : State) (c : Nat) (env : MemEnv), s.TablesWf → s.MemoryWf → canIssue c s = true →
    let u := readView c env s
    let v := vectorWord (wordAt c env s)
    let b := readGranule c v.b u
    let w : VectorWord := { v with fp32 := true }
    let event := fun (t : State) (src : List Word) => ∀ m l, bound c s = some (m, l) → (src.any fun x => !isFin x) = true →
      s.prec.queue.length < t.prec.queue.length ∧ (⟨m, l, 2⟩ : PrecEvent) ∈ t.prec.queue
    (spells c env s = .vector 0x09 →
      let src := cvtSource c v (BitVec.ofNat 32 (fieldOf b 0 32)) u
      ∃ t, exec (.cvt c env) s = .next t ∧ Issued c (instrRegs c s) s t ∧ event t src ∧
        (v.d + (cvtResults v env b src).length ≤ exposed c s → Wrote c v.d (cvtResults v env b src) s t)) ∧
    (spells c env s = .vector 0x0C →
      let out := s24Block (cdiv v.len 2) (s24Groups (cdiv v.len 2) (srcA c w u))
      ∃ t, exec (.s24enc c env) s = .next t ∧ Issued c (instrRegs c s) s t ∧ event t (srcA c w u) ∧
        (v.d + out.length ≤ exposed c s → Wrote c v.d out s t)) ∧
    (spells c env s = .vector 0x0B →
      let q := qntResult c v env u (fill c env s)
      ∃ t, exec (.qnt c env) s = .next t ∧ Issued c (O.KV_STS :: instrRegs c s) s t ∧ event t (srcA c v u) ∧
        (q.header = none → q.kept = none → v.d + q.out.length ≤ exposed c s → Wrote c v.d q.out s t) ∧
        (∀ h, q.header = some h → v.b < exposed c s → granule c v.b t = h) ∧
        (∀ e, q.kept = some e → ∀ k (hk : k < e.length), v.b + 1 + k < exposed c s → granule c (v.b + 1 + k) t = e[k]) ∧
        (∀ k (hk : k < q.out.length), v.d + k < exposed c s → (v.d + k < v.b ∨ v.b + cdiv v.elems 32 < v.d + k) →
          granule c (v.d + k) t = q.out[k]) ∧
        (∀ a, (∀ k, k < q.out.length → ¬ (c * cellBytes + (v.d + k) * 64 ≤ a ∧ a < c * cellBytes + (v.d + k + 1) * 64)) →
          (∀ k, k ≤ cdiv v.elems 32 → ¬ (c * cellBytes + (v.b + k) * 64 ≤ a ∧ a < c * cellBytes + (v.b + k + 1) * 64)) →
          byteAt t.cellMem a = byteAt s.cellMem a))

/-- A cell that may issue and stands at a legal TENSOR word with CLR set, one array selected, COUNT 1 and NV 1: the command answers a
next state in which SEQ_PC is one on and no other accumulator file of the module has changed. Unless it works for an attention row with
statistics to write, memory is as before, accumulator row i of vector 0 of the array holds 0 plus the exact sum over j of weight (i, j)
times activation j (transposed under TR), rounded once, and every other accumulator value of that file is zero. Working for such a row
(log entry 73), it leaves the row's 16-byte record (M, SUM, POS, QHEAD, SEQ, ROW) in the exposed granule of its place, every byte
outside that granule as before; the file is as above, or, where M is minus infinity, zero throughout, with SUM 0 in the record. What
tile meets which vector is the model's choice (log entry 74). (R31, R70, R114, R181, R182) -/
def Obligations.TensorTileProduct : Prop :=
  ∀ (s : State) (c : Nat) (env : MemEnv) (arr : Nat) (wf af : Fmt), s.TablesWf → s.MemoryWf → canIssue c s = true →
    spells c env s = .tensor →
    let u := readView c env s
    let w := tensorWord (wordAt c env s)
    cellWfmt (cell c s) = some wf → cellAfmt (cell c s) = some af →
    w.clr = true → w.arrays = [arr] → w.count = 1 → w.nv = 1 →
    let tile := match (tensorRecords c w wf u).find? (fun r => decide (r.tile0 ≤ 0 ∧ 0 < r.tile0 + r.n)) with
      | some r => (decodeTile c wf r 0 u).vals
      | none => []
    let x := (decodeGroup c af w.aaddr 0 u).vals.take 8
    let product := fun t : State => (∀ i, i < 8 → acc c arr 0 i t = fpAdd 0 (rowSum tile w.tr i x)) ∧
      (∀ v i, v < 16 → i < 8 → v ≠ 0 → acc c arr v i t = 0)
    let blank := fun t : State => ∀ v i, v < 16 → i < 8 → acc c arr v i t = 0
    ∃ t, exec (.tensor c env) s = .next t ∧ (cell c t).pc = (cell c s).pc + 1 ∧
      (∀ d a v i, a < 4 → v < 16 → i < 8 → (d ≠ c ∨ a ≠ arr) → acc d a v i t = acc d a v i s) ∧
      ((∀ a, env.attn = some a → a.scores = true) → t.cellMem = s.cellMem ∧ product t) ∧
      (∀ a, env.attn = some a → a.scores = false →
        let m := fieldOf (readGranule c a.maxAt u) 0 32
        let unseen := m = 0xFF800000
        let g := putRecord (readGranule c (a.recAt / 64) s) a.recAt
          (rowRecord a m (if unseen then 0 else fieldOf (readGranule c a.sumAt u) 0 32))
        (unseen → blank t) ∧ (¬ unseen → product t) ∧
        (a.recAt / 64 < exposed c s → Wrote c (a.recAt / 64) [g] s t))

/-- A cell that may issue: at a NOP word SEQ_PC is one on; at a JUMP word SEQ_PC is the word's target and the fetch buffer is empty; at
an illegal word SEQ_PC stays, SEQ_CTRL.ILLEGAL and the field's FAB_ERR_STS.ILLEGAL are set, and a data-class fault of cause 0x03 from
the cell joins the reports to the fault controller. Cell memory, accumulators, arrival counters, every other cell and every register
outside the cell's own are as before. (R30, R60, R71, R105, R350) -/
def Obligations.NopJumpAndIllegalWords : Prop :=
  ∀ (s : State) (c : Nat) (env : MemEnv), s.TablesWf → canIssue c s = true →
    let rest := fun t : State => t.cellMem = s.cellMem ∧ t.accs = s.accs ∧ t.counters = s.counters ∧
      (∀ d, d ≠ c → cell d t = cell d s) ∧ ∀ o, o ∉ cellRegs c → reg o t = reg o s
    (spells c env s = .nop → ∃ t, exec (.nop c env) s = .next t ∧ (cell c t).pc = (cell c s).pc + 1 ∧ rest t) ∧
    (spells c env s = .jump → ∃ t, exec (.jump c env) s = .next t ∧ (cell c t).pc = jumpTarget (wordAt c env s) ∧
      (cell c t).fetch = [] ∧ rest t) ∧
    (spells c env s = .illegal → ∃ t, exec (.illegalInstruction c env) s = .next t ∧ (cell c t).illegal = true ∧
      (cell c t).pc = (cell c s).pc ∧ rd (F.FAB_ERR_STS.ILLEGAL (fieldOfCell c)) t = 1 ∧
      t.mesh.reports.getLast? = some ⟨0x03, c, 0, none, false⟩ ∧ rest t)

/-- A cell that may issue and stands at a WAIT word: with the threshold at most the counter, SEQ_PC is one on and the counter is lower
by the threshold; otherwise issue stalls on that counter and threshold, SEQ_PC and the counter stay. A stalled WAIT whose counter has
reached the threshold completes in the same way and stalls no more, in a cell that no reset acts on and whose field's slot is not gated.
No other counter, cell or byte of cell memory changes. (R80, R81, R388) -/
def Obligations.WaitTakesItsThreshold : Prop :=
  ∀ (s : State) (c : Nat) (env : MemEnv), s.TablesWf →
    let w := wordAt c env s
    let rest := fun (n : Nat) (t : State) => t.cellMem = s.cellMem ∧ (∀ d, d ≠ c → cell d t = cell d s) ∧
      ∀ d k, d * 32 + k ≠ c * 32 + n → arrival d k t = arrival d k s
    (canIssue c s = true → spells c env s = .wait → (waitThresh w).toNat ≤ (arrival c (waitCnt w) s).toNat →
      ∃ t, exec (.wait c env) s = .next t ∧ (cell c t).pc = (cell c s).pc + 1 ∧ (cell c t).stall = .none ∧
        arrival c (waitCnt w) t = arrival c (waitCnt w) s - waitThresh w ∧ rest (waitCnt w) t) ∧
    (canIssue c s = true → spells c env s = .wait → (arrival c (waitCnt w) s).toNat < (waitThresh w).toNat →
      ∃ t, exec (.wait c env) s = .next t ∧ (cell c t).pc = (cell c s).pc ∧ (cell c t).stall = .wait (waitCnt w) (waitThresh w) ∧
        arrival c (waitCnt w) t = arrival c (waitCnt w) s ∧ rest (waitCnt w) t) ∧
    (∀ n th, (cell c s).stall = .wait n th → (cell c s).phase = .none → fieldOfCell c ∉ s.sched.gated → th.toNat ≤ (arrival c n s).toNat →
      ∃ t, exec (.waitComplete c) s = .next t ∧ (cell c t).pc = (cell c s).pc + 1 ∧ (cell c t).stall = .none ∧
        arrival c n t = arrival c n s - th ∧ rest n t)

/-- A cell that may issue and stands at a SYNC word closes the slot in which its iteration began plus the SYNCs it has completed: where
the cell's own copy of SLOT_NO exceeds that slot the SYNC completes, SEQ_PC and the count of SYNCs are one on; otherwise issue stalls on
that slot and SEQ_PC stays. Cell memory and every other cell are as before. (R138, R141, R147) -/
def Obligations.SyncClosesItsSlot : Prop :=
  ∀ (s : State) (c : Nat) (env : MemEnv), s.TablesWf → canIssue c s = true → spells c env s = .sync →
    ∃ t, exec (.sync c env) s = .next t ∧ t.cellMem = s.cellMem ∧ (∀ d, d ≠ c → cell d t = cell d s) ∧
      (if (cell c s).iterStart + (cell c s).syncs < cellSlot c s then
        (cell c t).pc = (cell c s).pc + 1 ∧ (cell c t).syncs = (cell c s).syncs + 1 ∧ (cell c t).stall = .none
      else (cell c t).pc = (cell c s).pc ∧ (cell c t).stall = .sync ((cell c s).iterStart + (cell c s).syncs))

/-- A cell that may issue and stands at a MOVE word; in every case SEQ_PC is one on, cell memory and every other cell are as before.
Multicast on VC1, or to an endpoint the mesh has other than a span port or an OCL entry: LEN flits join those on the mesh, in order,
each with the tag of R51 and the data of one granule of the cell from LADDR on. To a span port or an OCL entry: of these flits, in
order, those join that have not yet come to the end of their route, where they leave the mesh. VC2: LEN flits join the queue of the
cell's own input for the tree, each with exponents from the granule at LADDR and the data of a granule after it. To an endpoint the mesh
does not have, or to a memory stack from a cell of a T36 image (the model's choice, log entry 76): no flit joins the mesh, and LEN
reports of a misroute join the fault reports. A DST above 255 of a tree is taken modulo 256 (the model's choice, log entry 69). (R27,
R30, R45, R51, R54, R56, R98, R336, R348) -/
def Obligations.MoveInjectsItsFlits : Prop :=
  ∀ (s : State) (c : Nat) (env : MemEnv), s.TablesWf → canIssue c s = true → spells c env s = .move →
    let u := readView c env s
    let m := moveWord (wordAt c env s)
    let out := 221196 ≤ m.dst ∧ m.dst < 221203
    let tree := m.vc = 1 ∧ m.mc = true
    let reached := endpointOk m.dst = true ∧ barred c m.dst s = false
    let act := activityOf (cell c s).serving
    let flits := (List.range m.len).map fun i => (c, (⟨moveTag c m i s, readGranule c (m.laddr + i) u⟩ : Flit), act)
    let core := fun (x : Flight) => (x.at_, x.flit, x.act)
    ∃ t, exec (.move c env) s = .next t ∧ (cell c t).pc = (cell c s).pc + 1 ∧ t.cellMem = s.cellMem ∧
      (∀ d, d ≠ c → cell d t = cell d s) ∧
      ((tree ∨ (m.vc ≠ 2 ∧ reached ∧ ¬ out)) → ∃ l, t.mesh.flight = s.mesh.flight ++ l ∧ l.map core = flits) ∧
      (m.vc ≠ 2 → ¬ tree → reached → out → ∃ l, t.mesh.flight = s.mesh.flight ++ l ∧ (l.map core).Sublist flits) ∧
      (m.vc = 2 → t.mesh.flight = s.mesh.flight ∧
        sumQueue c (m.dst % 256) 0 t = sumQueue c (m.dst % 256) 0 s ++ (List.range m.len).map fun i =>
          ⟨sumTag c m (readGranule c m.laddr u) i s, readGranule c (m.laddr + 1 + i) u⟩) ∧
      (m.vc ≠ 2 → ¬ tree → ¬ reached → t.mesh.flight = s.mesh.flight ∧
        List.replicate m.len ⟨0x0A, c, 0, none, false⟩ <:+ t.mesh.reports)

/-- FLIT_LANDING of a unicast flit of VC1 or VC3 (tag bit 45 clear, VC not 2) at cell c below 221,184. While it is on the mesh and has
not come to the end of its route (a link has discarded it and its replay has not come, or it waits for a credit), nothing changes.
Otherwise, for c its destination, not in an absent cluster and outside ABSORB: an exposed granule ADDR holds the flit's data, every byte
outside that granule is as before, and counter CNT is one higher, or stays at 0xFFFFFF with MEM_ERR_STS.CNT_OVF set; every other counter
is as before. For a cell of an absent cluster: no byte and no counter changes. In ABSORB: no byte and no counter changes, and
RST_ABSORB_CNT is one higher. For another destination: no byte and no counter changes and a misroute report (cause 0x0A) is the youngest
fault report. Where the flit is the second of two VC1 flits that met at one router's link, VC1_CONFLICT_CNT of its field is one higher
and FAB_ERR_STS.VC1_CONFLICT is set. (R37, R47, R53, R62, R66, R67, R80, R83, R348, R365) -/
def Obligations.LandingsStoreAndCount : Prop :=
  ∀ (s : State) (c : Nat) (f : Flit) (env : MemEnv), s.TablesWf → s.MemoryWf → c < cellCount → bitAt f.tag 45 = false →
    fieldOf f.tag 46 2 ≠ 2 →
    let waits := (flightOf (fun x => sameFlit x.flit f) s).any (·.stuck s)
    let g := fieldOf f.tag 23 15
    let n := fieldOf f.tag 38 5
    (waits = true → exec (.flitLanding c f env) s = .next s) ∧
    (waits = false → (cell c s).phase ≠ .absorb → fieldOf f.tag 5 18 = c → absent c s = false →
      ∃ t, exec (.flitLanding c f env) s = .next t ∧
      (g < exposed c s → granule c g t = f.data) ∧
      (∀ b, (b < c * cellBytes + g * 64 ∨ c * cellBytes + g * 64 + 64 ≤ b) → byteAt t.cellMem b = byteAt s.cellMem b) ∧
      (arrival c n s ≠ 0xFFFFFF → arrival c n t = arrival c n s + 1) ∧
      (arrival c n s = 0xFFFFFF → arrival c n t = 0xFFFFFF ∧ rd (F.MEM_ERR_STS.CNT_OVF (fieldOfCell c)) t = 1) ∧
      ∀ d k, d * 32 + k ≠ c * 32 + n → arrival d k t = arrival d k s) ∧
    (waits = false → (cell c s).phase ≠ .absorb → fieldOf f.tag 5 18 = c → absent c s = true →
      ∃ t, exec (.flitLanding c f env) s = .next t ∧ t.cellMem = s.cellMem ∧ t.counters = s.counters) ∧
    (waits = false → (cell c s).phase = .absorb → ∃ t, exec (.flitLanding c f env) s = .next t ∧ t.cellMem = s.cellMem ∧
      t.counters = s.counters ∧ cnt F.RST_ABSORB_CNT t = (cnt F.RST_ABSORB_CNT s + 1) % 2 ^ 64) ∧
    (waits = false → (cell c s).phase ≠ .absorb → fieldOf f.tag 5 18 ≠ c → ∃ t, exec (.flitLanding c f env) s = .next t ∧
      t.cellMem = s.cellMem ∧ t.counters = s.counters ∧ t.mesh.reports.getLast? = some ⟨0x0A, c, 0, none, false⟩) ∧
    (∀ r, waits = false → r < cellCount → env.conflicts = [r] → ∃ t, exec (.flitLanding c f env) s = .next t ∧
      rd (F.FAB_ERR_STS.VC1_CONFLICT (fieldOfCell r)) t = 1 ∧
      cnt (F.VC1_CONFLICT_CNT (fieldOfCell r)) t = (cnt (F.VC1_CONFLICT_CNT (fieldOfCell r)) s + 1) % 2 ^ 64)

/-- At a router below 221,184. MULTICAST_COPY of a flit that no link on its way has discarded and that waits for no credit, under an
entry with its valid bit: a copy stands at the neighbour of every outer port set in OUT, owing no alignment cycle once it has left its
row, and with the L port set, outside ABSORB and outside absent clusters, an exposed granule ADDR of the cell holds the flit's data;
under an entry without it FAB_ERR_STS.TREE_MISS is set and no memory changes. REDUCTION_COMBINE of a tree below 256 that RED_SEQ has not
stopped: while an input set in the valid entry is empty and the heads there are agree in IDX, the state is as before; with a head at
every input, all of one IDX, and an outer OUT port with a neighbour, the state is as before while the port has no VC2 credit left; with
one, a flit with the sums of the two groups joins that neighbour's queue for the tree; where two heads differ in IDX, RED_SEQ is set,
reported (cause 0x09), and the tree is stopped at the router. (R51, R53, R54, R56, R57, R59, R66, R80, R99) -/
def Obligations.TreesCopyAndCombine : Prop :=
  ∀ (s : State) (r : Nat) (env : MemEnv), s.TablesWf → s.MemoryWf → r < cellCount →
    (∀ f : Flit, (copyAt r f s).any (·.stuck s) = false →
      let e := mcastEntry r (fieldOf f.tag 5 8) s
      ∃ t, exec (.multicastCopy r f env) s = .next t ∧
        (bitAt e 5 = true →
          (∀ p q, 1 ≤ p → p ≤ 4 → bitAt e p = true → neighbour r p = some q →
            (⟨q, turned p f, flightAct r f s, [(r, p)], [], none, none⟩ : Flight) ∈ t.mesh.flight) ∧
          (bitAt e 0 = true → (cell r s).phase ≠ .absorb → absent r s = false → fieldOf f.tag 23 15 < exposed r s →
            granule r (fieldOf f.tag 23 15) t = f.data)) ∧
        (bitAt e 5 = false → rd (F.FAB_ERR_STS.TREE_MISS (fieldOfCell r)) t = 1 ∧ t.cellMem = s.cellMem)) ∧
    (∀ tree, tree < 256 → ¬ r * 256 + tree ∈ s.mesh.redStop →
      let e := redEntry r tree s
      let ins := (List.range 5).filter fun p => bitAt e p
      let heads := sumHeads r tree ins s
      bitAt e 8 = true →
      (heads.length < ins.length → (∀ a ∈ heads, ∀ b ∈ heads, sumIdx a = sumIdx b) →
        exec (.reductionCombine r tree env) s = .next s) ∧
      (∀ f q, heads.head? = some f → heads.length = ins.length → (∀ a ∈ heads, sumIdx a = sumIdx f) →
        neighbour r (fieldOf e 5 3) = some q → noCredit r (fieldOf e 5 3) s = false →
        ∃ t, exec (.reductionCombine r tree env) s = .next t ∧
          sumQueue q tree (opposite (fieldOf e 5 3)) t = sumQueue q tree (opposite (fieldOf e 5 3)) s ++
            [sumFlit f (Sum24.addAll (heads.map fun g => (flitGroups g).1)).1 (Sum24.addAll (heads.map fun g => (flitGroups g).2)).1]) ∧
      (noCredit r (fieldOf e 5 3) s = true → (∀ a ∈ heads, ∀ b ∈ heads, sumIdx a = sumIdx b) →
        exec (.reductionCombine r tree env) s = .next s) ∧
      ((∃ a ∈ heads, ∃ b ∈ heads, sumIdx a ≠ sumIdx b) →
        ∃ t, exec (.reductionCombine r tree env) s = .next t ∧ rd (F.FAB_ERR_STS.RED_SEQ (fieldOfCell r)) t = 1 ∧
          t.mesh.reports.getLast? = some ⟨0x09, r, 0, none, false⟩ ∧ r * 256 + tree ∈ t.mesh.redStop))

/-- For a router below 221,184. LINK_CRC_ERROR of a frame whose CRC fails, on a link whose receiver discards nothing of that kind and
whose sender still holds the flit or word: the receiver discards from that SEQ modulo 16 on, the failure is counted with those of the
same SEQ, and a NAK word that names it goes back on the reverse direction. A frame whose CRC agrees, one that is discarded, and one the
sender holds no more change nothing. NAK naming a flit or word the sender still holds, the NAK word itself not discarded: LINK_REPLAY is
set and counted, and the receiver takes the replay. LINK_FAIL on a link not failed whose flit or word has failed four times: the link is
failed, LINK_FAIL is set and reported (cause 0x0B). REPLAY_BUFFER_RELEASE: the oldest word leaves the sender's buffer, or the oldest
flit, whose place is left free where no flit on the mesh has this link still before it. VC0_DISCARD of a word of a reserved type (7, 12
to 15): counted. When receiver and sender act is the model's reading (log entry 67). (R52, R53, R59) -/
def Obligations.LinkReplayCommands : Prop :=
  ∀ (s : State) (r port seq : Nat), s.TablesWf → r < cellCount →
    (∀ q p frame, senderOf r port = some (q, p) → frame.good = false → (linkDir q p s).discarding frame.isVc0 = false →
      (linkDir q p s).holds frame.isVc0 (seq % 16) = true → ∃ t, exec (.linkCrcError r port seq frame) s = .next t ∧
        linkDir q p t = (linkDir q p s).fail frame.isVc0 (seq % 16) ∧
        (linkDir q p t).discarding frame.isVc0 = true ∧
        (linkDir r port t).replay0.getLast? = some ((linkDir r port s).seq0, nakOf frame.isVc0 seq)) ∧
    (∀ q p frame, senderOf r port = some (q, p) → (frame.good = true ∨ (linkDir q p s).discarding frame.isVc0 = true ∨
      (linkDir q p s).holds frame.isVc0 (seq % 16) = false) →
      exec (.linkCrcError r port seq frame) s = .next s) ∧
    (∀ vc0, (linkDir r port s).holds vc0 (seq % 16) = true → lost0 [nakOf vc0 seq] (arrivesBy r port) s = false →
      ∃ t, exec (.nak r port vc0 seq) s = .next t ∧ linkDir r port t = (linkDir r port s).resume vc0 ∧
        (linkDir r port t).discarding vc0 = false ∧ rd (F.FAB_ERR_STS.LINK_REPLAY (fieldOfCell r)) t = 1 ∧
        cnt (F.LINK_REPLAY_CNT (fieldOfCell r)) t = (cnt (F.LINK_REPLAY_CNT (fieldOfCell r)) s + 1) % 2 ^ 64) ∧
    (∀ q p, senderOf r port = some (q, p) → (linkDir q p s).failed = false → (4 ≤ (linkDir q p s).fails ∨ 4 ≤ (linkDir q p s).fails0) →
      ∃ t, exec (.linkFail r port) s = .next t ∧ (linkDir q p t).failed = true ∧
        rd (F.FAB_ERR_STS.LINK_FAIL (fieldOfCell r)) t = 1 ∧ t.mesh.reports.getLast? = some ⟨0x0B, r, 0, none, false⟩) ∧
    (∃ t, exec (.replayBufferRelease r port false) s = .next t ∧ (linkDir r port t).replay0 = (linkDir r port s).replay0 ∧
      ((∀ x ∈ s.mesh.flight, (r, port) ∉ x.ahead) → (linkDir r port t).replay = (linkDir r port s).replay.tail)) ∧
    (∃ t, exec (.replayBufferRelease r port true) s = .next t ∧ (linkDir r port t).replay0 = (linkDir r port s).replay0.tail ∧
      (linkDir r port t).replay = (linkDir r port s).replay) ∧
    (∀ w : Word, (fieldOf w 28 4 = 7 ∨ 12 ≤ fieldOf w 28 4) → ∃ t, exec (.vc0Discard r w) s = .next t ∧
      cnt (F.VC0_DISCARD_CNT (fieldOfCell r)) t = (cnt (F.VC0_DISCARD_CNT (fieldOfCell r)) s + 1) % 2 ^ 64)

/-- For a cell below 221,184 outside ABSORB, and a packet none of whose words a link has discarded on its way (one that is changes
nothing). CFG_READ: the agent's response is the configuration word at the address without error, or an error where the table has none.
CFG_WRITE: a write to a multicast or reduction table entry joins those that wait for the next slot boundary, after the earlier ones; in
a cell that exists, a write of SEQ_CTRL sets ILLEGAL, clears RUN where bit 0 is clear and sets it where the cell may run, with the stage
and tune records then copied into their shadows; a write of an arrival counter of a cell that does not run sets it and of a running cell
is answered with an error; for both, a cell of an absent cluster answers with an error and nothing changes in it. CFG_RSP of a read that
the access in progress waits for, without error and not discarded on its way: CELL_WIN_DATA holds the word and CELL_WIN_STATE is not
busy. FAB_CALDERA_WRITE with ROWS at most 4 of a field no image binds sets ROWS; with ROWS above 4 it sets FAB_ERR_STS.CFG and leaves
ROWS. (R37, R53, R60, R61, R62, R84, R135, R149, R255, R365, R479) -/
def Obligations.ConfigurationPackets : Prop :=
  ∀ (s : State) (c : Nat) (d : Word) (env : MemEnv), s.TablesWf → c < cellCount →
    let gone := fun (addr : Nat) (data : Option Word) => lost0 (cfgPacket c addr data) (route agentCell c) s
    (∀ addr, (gone addr none = true → exec (.cfgRead c addr) s = .next s) ∧
      (gone addr (some d) = true → exec (.cfgWrite c ⟨addr, d⟩ env) s = .next s)) ∧
    ((cell c s).phase ≠ .absorb →
      (∀ addr, gone addr none = false → ∃ t, exec (.cfgRead c addr) s = .next t ∧
        t.agent.response = some ((cfgWord c addr s).isNone, (cfgWord c addr s).getD 0)) ∧
      (∀ addr, addr < 0x200 → gone addr (some d) = false → ∃ t, exec (.cfgWrite c ⟨addr, d⟩ env) s = .next t ∧ t.agent.response = some (false, 0) ∧
        t.mesh.tabWrites = s.mesh.tabWrites ++ [⟨c, decide (0x100 ≤ addr), addr % 0x100, d⟩]) ∧
      (absent c s = false → gone 0x200 (some d) = false → ∃ t, exec (.cfgWrite c ⟨0x200, d⟩ env) s = .next t ∧ t.agent.response = some (false, 0) ∧
        (cell c t).run = (bitAt d 0 && ((cell c s).run || mayRun c s)) ∧ (cell c t).illegal = bitAt d 1 ∧
        ((cell c s).run = false → (cell c t).run = true →
          (cell c t).shadow1 = loadedGranule c (stageGranule (inT36 c s)) (seen c env s) ∧
          (cell c t).shadow2 = loadedGranule c 2 (seen c env s)) ∧
        ∀ e, e ≠ c → cell e t = cell e s) ∧
      (absent c s = true → ∀ addr, ofCell addr = true → gone addr (some d) = false → ∃ t, exec (.cfgWrite c ⟨addr, d⟩ env) s = .next t ∧
        t.agent.response = some (true, 0) ∧ t.cells = s.cells ∧ t.counters = s.counters) ∧
      (∀ n, n < 32 → absent c s = false → gone (0x210 + n) (some d) = false →
        ∃ t, exec (.cfgWrite c ⟨0x210 + n, d⟩ env) s = .next t ∧ t.agent.response = some ((cell c s).run, 0) ∧
        arrival c n t = (if (cell c s).run then arrival c n s else BitVec.ofNat 24 d.toNat))) ∧
    (∀ a, s.agent.access = some a → a.sent = true → a.write = false → s.agent.response = some (false, d) → rspLost false d s = false →
      ∃ t, exec (.cfgRsp false d) s = .next t ∧ reg O.CELL_WIN_DATA t = d ∧ rd F.CELL_WIN_STATE.BUSY t = 0 ∧
        rd F.CELL_WIN_STS.DONE t = 1 ∧ t.agent.access = none ∧ t.agent.response = none) ∧
    (∀ f, f < 72 → fieldBound f s = false → fieldOf d 0 3 ≤ 4 → ∃ t, exec (.fabCalderaWrite f d) s = .next t ∧
      rd (F.FAB_CALDERA.ROWS f) t = fieldOf d 0 3) ∧
    (∀ f, f < 72 → 4 < fieldOf d 0 3 → ∃ t, exec (.fabCalderaWrite f d) s = .next t ∧
      rd (F.FAB_CALDERA.ROWS f) t = rd (F.FAB_CALDERA.ROWS f) s ∧ rd (F.FAB_ERR_STS.CFG f) t = 1)

/-- For a cell below 221,184. ACCESS_AGED: each of the cell's waiting accesses of that port to that bank that has lost four cycles or
more and is not aged becomes aged in that cycle, and nothing else changes. SCRUB_READ: the scrubber reads its next granule (the first,
where what is left of its pass is not scrubbed) and goes on to the one after it, or after the last one to 0 with one more pass completed
and the next pass begun at that instant; where it meets other ports on a bank once, MEM_COLL_CNT of the field rises by the number of
ports that the served one (R76) makes lose. ECC_WRITEBACK of a word that waits for its write-back: it waits no more and is remembered as
corrected. SCRUB_AGED: the waiting scrub read is aged. SCRUB_LATE more than 63,000,000,000 cycles into a pass not yet reported:
MEM_ERR_STS.SCRUB_LATE is set and the pass is reported. None changes a byte of memory. What the accesses meet is given with the command
(log entry 66). (R76, R77, R78, R85, R87, R88, R90) -/
def Obligations.CellMemoryUpkeep : Prop :=
  ∀ (s : State) (c : Nat), s.TablesWf → c < cellCount →
    (∀ x, ∃ t, exec (.accessAged c x) s = .next t ∧ t.cellMem = s.cellMem ∧ t.win = s.win ∧ (∀ d, d ≠ c → cell d t = cell d s) ∧
      cell c t = { cell c s with waiting := (cell c s).waiting.map fun w =>
        if w.port = x.port ∧ w.bank = x.bank ∧ 4 ≤ w.losses ∧ w.agedAt = none then { w with agedAt := some x.cy } else w }) ∧
    (∀ g w, g * 8 + w ∈ (cell c s).writeBack → ∃ t, exec (.eccWriteback c g w) s = .next t ∧ t.cellMem = s.cellMem ∧
      g * 8 + w ∉ (cell c t).writeBack ∧ g * 8 + w ∈ (cell c t).corrected ∧ ∀ d, d ≠ c → cell d t = cell d s) ∧
    (∀ at_ env, ∃ t, exec (.scrubRead c at_ env) s = .next t ∧ t.cellMem = s.cellMem ∧
      (if scrubLimit c s ≤ scrubNext c s + 1 then
        (cell c t).scrubPos = 0 ∧ (cell c t).passes = (cell c s).passes + 1 ∧ (cell c t).passStart = at_
      else (cell c t).scrubPos = scrubNext c s + 1 ∧ (cell c t).passes = (cell c s).passes) ∧
      (cell c t).scrubAged = false ∧
      (∀ d, d ≠ c → cell d t = cell d s) ∧
      ∀ m win, env = { MemEnv.quiet with meets := [m] } → served c m s = some win →
        cnt (F.MEM_COLL_CNT (fieldOfCell c)) t = (cnt (F.MEM_COLL_CNT (fieldOfCell c)) s + (losers m win.1).length) % 2 ^ 64) ∧
    (∃ t, exec (.scrubAged c) s = .next t ∧ (cell c t).scrubAged = true ∧ t.win = s.win ∧ t.cellMem = s.cellMem ∧
      ∀ d, d ≠ c → cell d t = cell d s) ∧
    (∀ at_, 63000000000 < at_ - (cell c s).passStart → (cell c s).passLate = false → ∃ t, exec (.scrubLate c at_) s = .next t ∧
      rd (F.MEM_ERR_STS.SCRUB_LATE (fieldOfCell c)) t = 1 ∧ (cell c t).passLate = true ∧ t.cellMem = s.cellMem)

/-- PRECISION_EVENT_COLLECT: no event waits; where one waited PREC_STS.FLAG is set; a lone event raises its layer's flag bit (WHEY_OVF
bit 0, SAT bit 1, NONFIN bit 2) and adds one to that counter. WIDEN_END of a layer widened, granted, with its count at zero and no
change of it waiting or carried and its last fixed change not already a return: a return to narrow waits, last. MODEL_RECIPE_WRITE of a
slot below 16: NEXT is bits 7:4, PENDING is set by a 1 in bit 8 and stands otherwise. RECIPE_WIN_DATA_WRITE: with the selected recipe in
no use the selected entry holds the word and no other entry changes; with it in use RECIPE_ERR is set and no entry changes. (R120, R121,
R122, R125, R127, R129, R133, R154) -/
def Obligations.PrecisionCollectAndRecipes : Prop :=
  ∀ s : State, s.TablesWf →
    (∃ t, exec .precisionEventCollect s = .next t ∧ t.prec.queue = [] ∧ (s.prec.queue ≠ [] → rd F.PREC_STS.FLAG t = 1) ∧
      ∀ m l kind, s.prec.queue = [⟨m, l, kind⟩] →
        (kind = 0 → (layerPrec m l t).whey = (layerPrec m l s).whey + 1 ∧ (layerPrec m l t).flags.getLsbD 0 = true) ∧
        (kind = 1 → (layerPrec m l t).sat = (layerPrec m l s).sat + 1 ∧ (layerPrec m l t).flags.getLsbD 1 = true) ∧
        (kind = 2 → (layerPrec m l t).nonfin = (layerPrec m l s).nonfin + 1 ∧ (layerPrec m l t).flags.getLsbD 2 = true)) ∧
    (∀ m l, (layerPrec m l s).granted = true → (layerPrec m l s).wide = true → (layerPrec m l s).remain = 0 →
      (∀ w ∈ s.prec.waiting, ¬(w.model = m ∧ w.layer = l)) → (∀ w ∈ s.prec.carried, ¬(w.model = m ∧ w.layer = l)) →
      ((s.prec.fixed.filter fun w => w.change.model == m && w.change.layer == l).getLast?.any fun w => !w.change.wide) = false →
      ∃ t, exec (.widenEnd m l) s = .next t ∧ t.prec.waiting = s.prec.waiting ++ [⟨m, l, false⟩] ∧ t.win = s.win) ∧
    (∀ m v, m < 16 → ∃ t, exec (.modelRecipeWrite m v) s = .next t ∧ rd (F.MODEL_RECIPE.NEXT m) t = fieldOf v 4 4 ∧
      rd (F.MODEL_RECIPE.PENDING m) t = (if bitAt v 8 then 1 else rd (F.MODEL_RECIPE.PENDING m) s)) ∧
    (∀ v, recipeBusy (rd F.RECIPE_WIN_SEL.RECIPE s) s = false → ∃ t, exec (.recipeWinDataWrite v) s = .next t ∧ t.win = s.win ∧
      recipeEntry (rd F.RECIPE_WIN_SEL.RECIPE s) (rd F.RECIPE_WIN_SEL.LAYER s) t = v ∧
      ∀ r l, r * 256 + l ≠ rd F.RECIPE_WIN_SEL.RECIPE s * 256 + rd F.RECIPE_WIN_SEL.LAYER s → recipeEntry r l t = recipeEntry r l s) ∧
    (∀ v, recipeBusy (rd F.RECIPE_WIN_SEL.RECIPE s) s = true → ∃ t, exec (.recipeWinDataWrite v) s = .next t ∧
      rd F.PREC_STS.RECIPE_ERR t = 1 ∧ t.prec = s.prec)

/-- HOLD_TEST: a PACE hold is requested exactly where a running cell has not completed the SYNC that closes the slot before the one in
progress by the cell's own SLOT_NO, in its iteration or, in its first slot, of the one before; memory and every SEQ_PC are as before.
HOLD_DECISION: the decision is made with the causes that stand, DUE, PACE, STRETCH, EXT, HOST, FW, GATE from bit 0 up; where one stands
the slot word's HOLD bit is set, its LAUNCH field is empty and no launch is planned; a cell below 221,184 whose copies disagree sets
HOLD_MISMATCH and is reported (cause 0x0C). STALL of a cell with 32,768 consecutive failed DUE tests is reported (cause 0x0D) and the
count starts afresh. LONG_HOLD at the 65,536th held boundary of a run sets SCHED_STS.LONG_HOLD, once in the run. HOST_HOLD and EXT_EN
set their bits of SCHED_CTRL; clearing EXT_EN ends the count of held beats. (R143, R144, R145, R146, R147, R173, R349) -/
def Obligations.HoldTestsAndDecision : Prop :=
  ∀ s : State, s.TablesWf →
    (∃ t, exec .holdTest s = .next t ∧ t.cellMem = s.cellMem ∧ (∀ c, (cell c t).pc = (cell c s).pc) ∧
      (t.sched.reqPace = true ↔ ∃ c ∈ runningCells s, paceLate (cellSlot c s) (cell c s) = true)) ∧
    (∀ n x, paceLate n x = true ↔ if n = x.iterStart then x.lateSync = true
      else x.inIter = true ∧ x.iterStart + x.syncs + 1 ≤ n) ∧
    (∀ inp : SlotInputs, ∃ t, exec (.holdDecision inp) s = .next t ∧ t.sched.decided = true ∧ t.sched.causes = holdCauses s ∧
      (holdCauses s ≠ 0 → bitAt t.sched.slotWord 32 = true ∧ fieldOf t.sched.slotWord 0 32 = 0 ∧ t.sched.plan = []) ∧
      (∀ c ∈ inp.mismatch, c < cellCount → rd F.SCHED_STS.HOLD_MISMATCH t = 1 ∧ (⟨0x0C, c, 0, none, false⟩ : Report) ∈ t.mesh.reports)) ∧
    (∀ c, (cell c s).dueFails = 32768 → ∃ t, exec (.stall c) s = .next t ∧ t.mesh.reports = s.mesh.reports ++ [⟨0x0D, c, 0, none, false⟩] ∧
      (cell c t).dueFails = 0 ∧ t.win = s.win) ∧
    (s.sched.heldRun = 65536 → s.sched.longHeld = false → ∃ t, exec .longHold s = .next t ∧ rd F.SCHED_STS.LONG_HOLD t = 1 ∧ t.sched.longHeld = true) ∧
    (s.sched.longHeld = true → exec .longHold s = .next s) ∧
    (∀ b, ∃ t, exec (.hostHold b) s = .next t ∧ rd F.SCHED_CTRL.HOST_HOLD t = bitN b ∧ ∀ o, o ≠ O.SCHED_CTRL → reg o t = reg o s) ∧
    (∀ b, ∃ t, exec (.extEn b) s = .next t ∧ rd F.SCHED_CTRL.EXT_EN t = bitN b ∧ (b = false → t.mgmt.holdBeats = 0) ∧
      ∀ o, o ≠ O.SCHED_CTRL → reg o t = reg o s)

/-- SLOT_BOUNDARY after a decision: the physical slot count is one higher and the decision is spent. With the slot word's HOLD bit set
SLOT_NO stays, SCHED_STS.HELD is set, HELD_SLOT_CNT and the run of held boundaries are one higher; with it clear SLOT_NO is one higher
and the run of held boundaries is over. (R140, R141, R173) -/
def Obligations.BoundariesHoldOrAdvance : Prop :=
  ∀ s : State, s.TablesWf → s.sched.decided = true →
    ∃ t, exec .slotBoundary s = .next t ∧ t.sched.phys = s.sched.phys + 1 ∧ t.sched.decided = false ∧
      (bitAt s.sched.slotWord 32 = true → slotNo t = slotNo s ∧ rd F.SCHED_STS.HELD t = 1 ∧
        t.sched.heldRun = s.sched.heldRun + 1 ∧ cnt F.HELD_SLOT_CNT t = (cnt F.HELD_SLOT_CNT s + 1) % 2 ^ 64) ∧
      (bitAt s.sched.slotWord 32 = false → slotNo t = (slotNo s + 1) % 2 ^ 54 ∧ t.sched.heldRun = 0)

/-- LOAD_GO with GO for a slot that can be checked, while no check runs: LOAD_STATE shows BUSY and neither PASS nor FAIL (that these
clear at GO is the model's choice, log entry 77), and the check is of that slot and begins with the table at LOAD_TABLE. LOAD_CHECK_DONE
changes nothing while the check still reads. Once it has read what it needs, for a slot below 16 and over what it read (log entry 63):
where the table could not be read or a part that needs no weights fails, the check ends with FAIL and the REASON of the first failure,
even with a load in progress; where those parts pass and a load is in progress, nothing changes; otherwise the contents are judged: FAIL
with their first failure, or PASS, MODEL_SCHED.STATE RUNNABLE, and the image starts at the next advancing boundary. Where it ends BUSY
is clear and SCHED_STS.LOAD_DONE is set. (R137, R150, R151, R152, R240, R290, R510) -/
def Obligations.LoadCheckRunsAndEnds : Prop :=
  ∀ s : State, s.TablesWf →
    (∀ v : Word, bitAt v 4 = true → s.sched.checking = none → loadable (fieldOf v 0 4) s = true → ∃ t, exec (.loadGo v) s = .next t ∧
      (∃ c, t.sched.checking = some c ∧ c.model = fieldOf v 0 4 ∧ c.table = tableAddr s ∧ c.ready = false) ∧ rd F.LOAD_CTRL.MODEL t = fieldOf v 0 4 ∧ rd F.LOAD_STATE.BUSY t = 1 ∧
      rd F.LOAD_STATE.PASS t = 0 ∧ rd F.LOAD_STATE.FAIL t = 0) ∧
    (∀ c x, s.sched.checking = some c → c.ready = false → exec (.loadCheckDone x) s = .next s) ∧
    (∀ c x, s.sched.checking = some c → c.ready = true → c.model < 16 →
      let m := c.model
      let inp := loadInput c x
      let ended := fun t : State => t.sched.checking = none ∧ rd F.LOAD_STATE.BUSY t = 0 ∧ rd F.SCHED_STS.LOAD_DONE t = 1
      let failed := fun f : LoadFail => ∃ t, exec (.loadCheckDone x) s = .next t ∧ ended t ∧ rd F.LOAD_STATE.FAIL t = 1 ∧
        rd F.LOAD_STATE.REASON t = f.reason % 2 ^ F.LOAD_STATE.REASON.w
      let u := applyTables s
      let busy := (modelSlot m s).loading ≠ none ∨ (modelSlot m s).recv ≠ none
      (inp.header = none → failed (tableFail 0 inp.readAt)) ∧
      (∀ h f, inp.header = some h → checkTables m h inp u = some f → failed f) ∧
      (∀ h, inp.header = some h → checkTables m h inp u = none → busy → exec (.loadCheckDone x) s = .next s) ∧
      (∀ h f, inp.header = some h → checkTables m h inp u = none → ¬ busy → checkContents m h inp x.envs u = some f → failed f) ∧
      (∀ h, inp.header = some h → checkTables m h inp u = none → ¬ busy → checkContents m h inp x.envs u = none →
        ∃ t, exec (.loadCheckDone x) s = .next t ∧ ended t ∧ rd F.LOAD_STATE.PASS t = 1 ∧ rd (F.MODEL_SCHED.STATE m) t = 2 ∧
          (image m t).toStart = true))

/-- BEAT_EDGE at an instant. High for less than 100 ns: only the instant is noted. Less than 4,200 cycles after the last edge the filter
accepted: PIN_STS.BEAT_FAST and BEAT_STS.REJECT are set, BEAT_REJECT_CNT is one higher, BEAT_NO stays. Passed by the filter: as the
first edge it becomes the reference and BEAT_NO stays; with a period below 7,560 or above 36,960 cycles it is refused and counted and
BEAT_NO stays, the longer one becoming the reference; with an accepted period in LOCKED it becomes the reference, a beat begins, and
BEAT_NO is one higher. (R159, R162, R486, R487) -/
def Obligations.BeatEdgesAreJudged : Prop :=
  ∀ (s : State) (at_ high : Nat), s.TablesWf →
    (high < 100 → exec (.beatEdge at_ high) s = .next { s with now := at_ }) ∧
    (∀ e, 100 ≤ high → s.mgmt.beatEdge = some e → at_ - e < 4200 → ∃ t, exec (.beatEdge at_ high) s = .next t ∧
      rd F.PIN_STS.BEAT_FAST t = 1 ∧ rd F.BEAT_STS.REJECT t = 1 ∧ cnt F.BEAT_REJECT_CNT t = (cnt F.BEAT_REJECT_CNT s + 1) % 2 ^ 64 ∧
      beatNo t = beatNo s ∧ t.beat = s.beat) ∧
    (100 ≤ high → (∀ e, s.mgmt.beatEdge = some e → 4200 ≤ at_ - e) →
      (s.beat.reference = none → ∃ t, exec (.beatEdge at_ high) s = .next t ∧ t.beat.reference = some at_ ∧ t.win = s.win) ∧
      ∀ r, s.beat.reference = some r →
        (at_ - r < 7560 → ∃ t, exec (.beatEdge at_ high) s = .next t ∧ rd F.BEAT_STS.REJECT t = 1 ∧ t.beat.reference = some r ∧
          cnt F.BEAT_REJECT_CNT t = (cnt F.BEAT_REJECT_CNT s + 1) % 2 ^ 64 ∧ beatNo t = beatNo s) ∧
        (36960 < at_ - r → ∃ t, exec (.beatEdge at_ high) s = .next t ∧ rd F.BEAT_STS.REJECT t = 1 ∧ t.beat.reference = some at_ ∧
          cnt F.BEAT_REJECT_CNT t = (cnt F.BEAT_REJECT_CNT s + 1) % 2 ^ 64 ∧ beatNo t = beatNo s) ∧
        (7560 ≤ at_ - r → at_ - r ≤ 36960 → beatMode s = 0 → ∃ t, exec (.beatEdge at_ high) s = .next t ∧
          t.beat.reference = some at_ ∧ t.beat.beatStart = at_ ∧ beatNo t = (beatNo s + 1) % 2 ^ 48))

/-- INTERNAL_BEAT that is due outside LOCKED, with no loss due: a beat begins one period after the last and BEAT_NO is one higher.
HOLDOVER in LOCKED with its deadline passed: the mode is HOLDOVER, BEAT_STS.HOLDOVER is set, the missing beat is counted as the first
and BEAT_NO is one higher. BEAT_LOSS with the 4,096th counted beat past: the mode is LOST, BEAT_STS.LOST is set, BEAT_NO is one higher
and, with room in the queue, event 0x23 is the youngest PLDM event. FRAME_START: where the next frame's first beat has begun one more
frame has started and the refusals of auto-widen are counted afresh from 0; otherwise only the instant is noted. (R130, R160, R161,
R163, R499) -/
def Obligations.BeatsWithoutEdgesAndFrames : Prop :=
  ∀ (s : State) (at_ : Nat), s.TablesWf →
    (internalDue at_ s = true → lossDue s = false → ∃ t, exec (.internalBeat at_) s = .next t ∧
      beatNo t = (beatNo s + 1) % 2 ^ 48 ∧ t.beat.beatStart = s.beat.beatStart + internalPeriod s) ∧
    (beatMode s = 0 → holdoverDue at_ s = true → ∃ t, exec (.holdover at_) s = .next t ∧ beatMode t = 1 ∧
      rd F.BEAT_STS.HOLDOVER t = 1 ∧ rd F.BEAT_STATE.HO_BEATS t = 1 ∧ beatNo t = (beatNo s + 1) % 2 ^ 48) ∧
    (internalDue at_ s = true → lossDue s = true → s.mgmt.events_.length < 64 → ∃ t, exec (.beatLoss at_) s = .next t ∧
      beatMode t = 2 ∧ rd F.BEAT_STS.LOST t = 1 ∧ beatNo t = (beatNo s + 1) % 2 ^ 48 ∧
      (t.mgmt.events_.getLast?.map (·.code)) = some 0x23) ∧
    (s.beat.frames * beatsPerFrame ≤ beatNo s → ∃ t, exec (.frameStart at_) s = .next t ∧ t.beat.frames = s.beat.frames + 1 ∧
      rd F.PREC_FRAME.REFUSED t = 0) ∧
    (beatNo s < s.beat.frames * beatsPerFrame → exec (.frameStart at_) s = .next { s with now := at_ })

/-- At a controller below 12 whose stack is in service, a well-formed LIN request of LEN granules for a cell that no T36 image binds;
the controller takes the request's flits off the mesh and the reply's flits follow what is then on it. LIN_WRITE with LEN granules
within the capacity: one acknowledgement flit with OP 4 leaves for the requester and, where no transfer fails five times, the granule at
ADDR + 64 k holds the k-th and every byte of stack memory outside them is as before; past the capacity no byte changes, KV_STS.RANGE is
set and the acknowledgement carries the error bit. LIN_READ within the capacity: LEN flits leave for the requester, the k-th with the
granule at ADDR + 64 k as delivered, and where none is lost stack memory is as before; past the capacity they carry zeros and RANGE is
set. What is delivered for an uncorrectable word is a free value (log entry 14). A request for a cell of a T36 image is refused with
RANGE and answered by no flit (the model's choice, log entry 76). (R27, R194, R196, R199, R201, R203, R206) -/
def Obligations.LinearStackRequests : Prop :=
  ∀ (s : State) (ctl : Nat) (req : Granule) (data : List Granule) (env : StackEnv), s.TablesWf → s.MemoryWf → ctl < 12 →
    on (F.HS_STATE.SVC ctl) s = true → reservedSet req = false → linShapeOk (stackReq req) = true →
    let r := stackReq req
    let core := fun (x : Flight) => (x.at_, x.flit, x.act)
    let flit := fun (i n : Nat) (g : Granule) => (221184 + ctl, (⟨replyTag ctl r i n, g⟩ : Flit), r.act)
    let sent := fun (data : List Granule) (t : State) (l : List (Nat × Flit × Nat)) =>
      r.reply < 221184 → ∃ k, t.mesh.flight = (takeRequest ctl req data s).mesh.flight ++ k ∧ k.map core = l
    (inT36 r.reply s = false → r.op = 4 → data.length = r.len → r.addr + 64 * r.len ≤ stackCapacity s →
      ∃ t, exec (.linWrite ctl req data env) s = .next t ∧ t.cellMem = s.cellMem ∧ sent data t [flit 0 1 4] ∧
        ((∀ a, env.failures a < 5) →
          (∀ k (h : k < data.length), stackGranule (r.addr + 64 * k) t = data[k]) ∧
          ∀ b, (b < r.addr ∨ r.addr + 64 * r.len ≤ b) → byteAt t.stackMem b = byteAt s.stackMem b)) ∧
    (inT36 r.reply s = false → r.op = 4 → data.length = r.len → stackCapacity s < r.addr + 64 * r.len →
      ∃ t, exec (.linWrite ctl req data env) s = .next t ∧ t.stackMem = s.stackMem ∧ t.cellMem = s.cellMem ∧
        rd F.KV_STS.RANGE t = 1 ∧ sent data t [flit 0 1 260]) ∧
    (inT36 r.reply s = false → r.op = 3 → r.addr + 64 * r.len ≤ stackCapacity s →
      ∃ t, exec (.linRead ctl req env) s = .next t ∧ t.cellMem = s.cellMem ∧
        ((∀ a, env.lost a = false) → t.stackMem = s.stackMem) ∧
        sent [] t ((List.range r.len).map fun k => flit k r.len (deliveredGranule (r.addr + 64 * k) env s))) ∧
    (inT36 r.reply s = false → r.op = 3 → stackCapacity s < r.addr + 64 * r.len →
      ∃ t, exec (.linRead ctl req env) s = .next t ∧ t.stackMem = s.stackMem ∧ t.cellMem = s.cellMem ∧ rd F.KV_STS.RANGE t = 1 ∧
        sent [] t ((List.range r.len).map fun k => flit k r.len 0)) ∧
    (inT36 r.reply s = true →
      (r.op = 3 → ∃ t, exec (.linRead ctl req env) s = .next t ∧ rd F.KV_STS.RANGE t = 1 ∧ t.stackMem = s.stackMem ∧
        t.mesh.flight = (takeRequest ctl req [] s).mesh.flight) ∧
      (r.op = 4 → ∃ t, exec (.linWrite ctl req data env) s = .next t ∧ rd F.KV_STS.RANGE t = 1 ∧ t.stackMem = s.stackMem ∧
        t.mesh.flight = (takeRequest ctl req data s).mesh.flight))

/-- At a controller below 12 whose stack is in service, a well-formed KV request of a slot in use, for a cell that no T36 image binds
(for one, the model refuses it: log entry 76). KV_READ of positions all below LEN whose page list entry in stack memory is valid: the
flits that leave for a cell, after those that stay on the mesh once the request's are taken, carry the granules of that page at the
request's places, in order; with no valid entry KV_STS.PAGE_MISS is set and they carry zeros; where nothing is lost stack memory is as
before. KV_WRITE into a page of the sequence's own whose places do not overlap, with one granule for each place and no transfer failing
five times: each place holds its granule and every byte outside them is as before. KV_WRITE of a span with no entry and none recorded,
with a page free and the reservation not empty, whose places do not touch the list entry: the entry is the last free page of the free
list in stack memory (which one is taken is the model's choice, log entry 84), POOL_FREE and the reservation are one lower. (R27, R189,
R190, R192, R193, R196, R197, R198, R199, R206) -/
def Obligations.KvRequestsWalkThePageList : Prop :=
  ∀ (s : State) (ctl : Nat) (req : Granule) (data : List Granule) (env : StackEnv), s.TablesWf → s.MemoryWf → ctl < 12 →
    on (F.HS_STATE.SVC ctl) s = true → reservedSet req = false → kvFieldsOk (stackReq req) s = true →
    inT36 (stackReq req).reply s = false →
    let r := stackReq req
    let x := seqSlot r.seq s
    let span := r.pos / 256
    let n := (kvAddrs x.model 0 r s).length
    let free := rd (F.POOL_FREE.VALUE x.model) s
    let core := fun (x : Flight) => (x.at_, x.flit, x.act)
    let sent := fun (t : State) (gs : List Granule) => r.reply < 221184 →
      ∃ k, t.mesh.flight = (takeRequest ctl req [] s).mesh.flight ++ k ∧
        k.map core = (List.range n).map fun i => (221184 + ctl, (⟨replyTag ctl r i n, gs.getD i 0⟩ : Flit), r.act)
    (∀ e, r.op = 1 → r.pos + r.npos ≤ x.len → pageAt r.seq span s = some e → ∃ t, exec (.kvRead ctl req env) s = .next t ∧
      t.cellMem = s.cellMem ∧ ((∀ a, env.lost a = false) → t.stackMem = s.stackMem) ∧
      sent t ((kvAddrs x.model e.page r s).map fun a => deliveredGranule a.2 env s)) ∧
    (r.op = 1 → r.pos + r.npos ≤ x.len → pageAt r.seq span s = none → ∃ t, exec (.kvRead ctl req env) s = .next t ∧
      t.stackMem = s.stackMem ∧ rd F.KV_STS.PAGE_MISS t = 1 ∧
      sent t (List.replicate n 0)) ∧
    (∀ e, r.op = 2 → data.length = n → pageAt r.seq span s = some e → e.shared = false → (∀ a, env.failures a < 5) →
      let as_ := (kvAddrs x.model e.page r s).map (·.2)
      as_.Pairwise (fun a b => a + 64 ≤ b ∨ b + 64 ≤ a) →
      ∃ t, exec (.kvWrite ctl req data env) s = .next t ∧ t.cellMem = s.cellMem ∧
        (∀ k (h : k < as_.length) (h2 : k < data.length), stackGranule as_[k] t = data[k]) ∧
        ∀ b, (∀ a ∈ as_, b < a ∨ a + 64 ≤ b) → byteAt t.stackMem b = byteAt s.stackMem b) ∧
    (r.op = 2 → data.length = n → pageAt r.seq span s = none → recordedPage r.seq span s = none → (∀ a, env.failures a < 5) →
      0 < free → 0 < x.resv →
      let p := freePage x.model (free - 1) s
      (∀ a ∈ (kvAddrs x.model p r s).map (·.2), a + 64 ≤ listAddr r.seq span s ∨ listAddr r.seq span s + 4 ≤ a) →
      ∃ t, exec (.kvWrite ctl req data env) s = .next t ∧
        pageAt r.seq span t = some ⟨span, p, false⟩ ∧ rd (F.POOL_FREE.VALUE x.model) t = free - 1 ∧
        (seqSlot r.seq t).resv = x.resv - 1)

/-- For a slot below 16. POOL_ENABLE of a disabled pool whose geometry passes the check: ENABLE is set, every page is free, and the free
list in stack memory names each once, in order (the order is the model's choice, log entry 84); otherwise KV_STS.CFG is set and
POOL_CTRL stays. POOL_DISABLE of an enabled pool with no page in use: ENABLE is clear and no page is free; with one in use CFG is set
and ENABLE stays. POS_LIMIT_WRITE of 1 to 16,777,216 while the pool is disabled sets POS_LIMIT; otherwise CFG is set and POS_LIMIT
stays. PATROL_READ of a stack in service: its HS_SCRUB_POS shows the next granule, 0 after the last, and where the granule is not lost
stack memory is as before; while Scrub is held nothing changes. STACK_SCRUB_LATE more than 63,000,000,000 cycles into a pass:
HS_STS.SCRUB_LATE and KV_STS.SCRUB_LATE are set. (R204, R206, R207, R210, R211) -/
def Obligations.PoolsAndPatrol : Prop :=
  ∀ (s : State) (m : Nat), s.TablesWf → m < 16 →
    (poolOn m s = false → poolOk m s = true → ∃ t, exec (.poolEnable m) s = .next t ∧ poolOn m t = true ∧
      freeListOf m t = List.range (poolPages m s) ∧ rd (F.POOL_FREE.VALUE m) t = poolPages m s ∧
      ∀ i, i < poolPages m s → freePage m i t = i) ∧
    ((poolOn m s = true ∨ poolOk m s = false) → ∃ t, exec (.poolEnable m) s = .next t ∧ rd F.KV_STS.CFG t = 1 ∧
      poolOn m t = poolOn m s ∧ t.kv = s.kv) ∧
    (poolOn m s = true → pagesInUse m s = false → ∃ t, exec (.poolDisable m) s = .next t ∧ poolOn m t = false ∧
      freeListOf m t = []) ∧
    (poolOn m s = true → pagesInUse m s = true → ∃ t, exec (.poolDisable m) s = .next t ∧ rd F.KV_STS.CFG t = 1 ∧
      poolOn m t = true ∧ t.kv = s.kv) ∧
    (∀ v : Word, poolOn m s = false → 1 ≤ fieldOf v 0 25 → fieldOf v 0 25 ≤ 16777216 → ∃ t, exec (.posLimitWrite m v) s = .next t ∧
      rd (F.POS_LIMIT.VALUE m) t = fieldOf v 0 25) ∧
    (∀ v : Word, (poolOn m s = true ∨ fieldOf v 0 25 = 0 ∨ 16777216 < fieldOf v 0 25) → ∃ t, exec (.posLimitWrite m v) s = .next t ∧
      rd F.KV_STS.CFG t = 1 ∧ rd (F.POS_LIMIT.VALUE m) t = rd (F.POS_LIMIT.VALUE m) s) ∧
    (∀ n at_ env, n < 12 → on (F.HS_STATE.SVC n) s = true → held 5 s = false →
      let g := Table.get (fun _ => 0) s.kv.patrolPos n
      ∃ t, exec (.patrolRead n at_ env) s = .next t ∧ ((∀ a, env.lost a = false) → t.stackMem = s.stackMem) ∧
        rd (F.HS_SCRUB_POS.VALUE n) t =
          (if stackGranules ≤ g + 1 then 0 else (g + 1) * 65536 / stackGranules) % 2 ^ (F.HS_SCRUB_POS.VALUE n).w) ∧
    (∀ n at_ env, held 5 s = true → exec (.patrolRead n at_ env) s = .next s) ∧
    (∀ n at_, n < 12 → on (F.HS_STATE.SVC n) s = true → 63000000000 < at_ - Table.get (fun _ => 0) s.kv.patrolStart n →
      ∃ t, exec (.stackScrubLate n at_) s = .next t ∧ rd (F.HS_STS.SCRUB_LATE n) t = 1 ∧ rd F.KV_STS.SCRUB_LATE t = 1)

/-- For an entry that the W3 may take from command ring r (READY, OCL carrying traffic, no OPEN_MODEL waiting, and of the rings enabled,
read and not empty this one's turn). Each of the four commands passes CONS by one. SUBMIT without error and without a handle: its
request joins the end of the admission queue; with an error code: SVC_STS.ERROR is set and no request is made. PREFIX_CREATE without
error of a new handle: a pending entry with that handle joins the prefix table, and its request the queue. CANCEL of a request whose
step is in flight: that request holds the CANCEL and is to end with status 4 unless an end was fixed before; of a request in no step:
the request is gone; of an unknown one: SVC_STS.ERROR is set. PREFIX_RELEASE of a usable handle that has users: the handle is released
and keeps the command to answer; of another handle: requests and prefix table are as before. None changes a byte of cell memory, nor of
stack memory, but that a CANCEL clears the page list entries of the sequence it ends. (R212, R213, R214, R216, R225, R227, R233) -/
def Obligations.RequestCommandsAreTaken : Prop :=
  ∀ (s : State) (r : Nat) (e : BitVec 1024), s.TablesWf →
    let h := cmdBytes e 12 8
    let m := cmdModel e
    (cmdReady r 1 e s = true → ∃ t, exec (.submit r e) s = .next t ∧ tookEntry r s t ∧ t.cellMem = s.cellMem ∧ t.stackMem = s.stackMem ∧
      (requestCode e s = 0 → h = 0 → t.svc.reqs = s.svc.reqs ++ [newRequest e false 0 s]) ∧
      (requestCode e s ≠ 0 → rd F.SVC_STS.ERROR t = 1 ∧ t.svc.reqs = s.svc.reqs)) ∧
    (cmdReady r 3 e s = true → ∃ t, exec (.prefixCreate r e) s = .next t ∧ tookEntry r s t ∧ t.cellMem = s.cellMem ∧
      t.stackMem = s.stackMem ∧
      (requestCode e s = 0 → h ≠ 0 → pfxEntry h s = none → s.svc.pfx.length < 65536 →
        t.svc.reqs = s.svc.reqs ++ [newRequest e false 0 s] ∧ ∃ p, t.svc.pfx = s.svc.pfx ++ [p] ∧ p.handle = h ∧ p.model = m ∧
          p.pending = true ∧ p.users = 0 ∧ p.pages = [])) ∧
    (cmdReady r 2 e s = true → shortCode e 20 s = 0 → ∃ t, exec (.cancel r e) s = .next t ∧ tookEntry r s t ∧ t.cellMem = s.cellMem ∧
      (∀ b, (∀ q p, cancelTarget m h s = some q → request q.id s = some p → ∀ g ∈ (seqSlot p.seq s).pages,
          b < listAddr p.seq g.span s ∨ listAddr p.seq g.span s + 4 ≤ b) → byteAt t.stackMem b = byteAt s.stackMem b) ∧
      ((∀ q p, cancelTarget m h s = some q → request q.id s = some p → p.admitted = false ∨ p.inStep = true) →
        t.stackMem = s.stackMem) ∧
      (cancelTarget m h s = none → rd F.SVC_STS.ERROR t = 1 ∧ t.svc.reqs = s.svc.reqs) ∧
      (∀ q, cancelTarget m h s = some q → request q.id s = some q → q.inStep = true →
        request q.id t = some { q with cancels := q.cancels ++ [(m, cmdOut e, cmdReq e)], ending := some (q.ending.getD 4) }) ∧
      (∀ q, cancelTarget m h s = some q → request q.id s = some q → q.inStep = false → request q.id t = none)) ∧
    (cmdReady r 4 e s = true → shortCode e 20 s = 0 → ∃ t, exec (.prefixRelease r e) s = .next t ∧ tookEntry r s t ∧
      t.cellMem = s.cellMem ∧ t.stackMem = s.stackMem ∧
      (∀ p, usableHandle m h s = some p → p.users ≠ 0 →
        pfxEntry h t = some { p with released := true, releasers := p.releasers ++ [(m, cmdOut e, cmdReq e)] }) ∧
      (usableHandle m h s = none → t.svc.pfx = s.svc.pfx ∧ t.svc.reqs = s.svc.reqs))

/-- For an entry that the W3 may take. OPEN_MODEL without error where fields and a stack area are free: CONS passes it, the slot is
LOADING, holds the lowest fields and stack base that fit, and its flag PINNED; where they are not and EVICT_OK is 0, the slot stays
FREE. CLOSE_MODEL without error of a slot that does not close yet: it closes and keeps the command to answer. CLOSE_COMPLETE of a
closing slot with nothing in flight and no OPEN_MODEL waiting: the slot is FREE and empty, and every granule of the fields it held reads
zero. PINNED_WRITE of a slot that is not FREE sets PINNED and no other register. (R237, R238, R239, R240, R252, R453) -/
def Obligations.ModelsOpenAndClose : Prop :=
  ∀ (s : State) (r m : Nat) (e : BitVec 1024), s.TablesWf → s.MemoryWf →
    (∀ fs b, cmdReady r 5 e s = true → openCode e s = 0 → s.svc.opening = none →
      let o : Opening := { model := cmdModel e, ring := cmdOut e, reqId := cmdReq e, fields := cmdBytes e 12 2,
                           stack := cmdBytes e 16 4, flags := cmdBytes e 20 1, victims := [] }
      (pickFields o [] s = some fs → pickStack o.stack [] s = some b →
        ∃ t, exec (.openModel r e) s = .next t ∧ tookEntry r s t ∧ rd (F.MODEL_SCHED.STATE (cmdModel e)) t = 1 ∧
          (modelSlot (cmdModel e) t).fields = fs ∧ rd (F.STACK_AREA.VALUE (cmdModel e)) t = b % 2 ^ 25 ∧
          rd (F.MODEL_SVC.PINNED (cmdModel e)) t = bitN (bitAt e 161) ∧ t.svc.opening = none ∧ t.cellMem = s.cellMem) ∧
      ((pickFields o [] s = none ∨ pickStack o.stack [] s = none) → bitAt e 160 = false →
        ∃ t, exec (.openModel r e) s = .next t ∧ tookEntry r s t ∧ rd (F.MODEL_SCHED.STATE (cmdModel e)) t = 0 ∧
          modelSlot (cmdModel e) t = modelSlot (cmdModel e) s)) ∧
    (cmdReady r 6 e s = true → errorCode (commonReserved e || bytesSet e 12 128) (slotSt (cmdModel e) s == 0) false = 0 →
      (modelSlot (cmdModel e) s).closing = false →
      ∃ t, exec (.closeModel r e) s = .next t ∧ tookEntry r s t ∧ (modelSlot (cmdModel e) t).closing = true ∧
        (modelSlot (cmdModel e) t).closers = (modelSlot (cmdModel e) s).closers ++ [(cmdOut e, cmdReq e)]) ∧
    (m < 16 → (modelSlot m s).closing = true → closeQuiet m s = true → s.svc.opening = none →
      ∃ t, exec (.closeComplete m) s = .next t ∧ rd (F.MODEL_SCHED.STATE m) t = 0 ∧ modelSlot m t = ModelSlot.reset ∧
        (∀ f ∈ (modelSlot m s).fields, ∀ c ∈ fieldCells f, ∀ g, granule c g t = 0) ∧
        rd (F.STACK_SIZE.VALUE m) t = 0) ∧
    (∀ b, m < 16 → slotSt m s ≠ 0 → ∃ t, exec (.pinnedWrite m b) s = .next t ∧ rd (F.MODEL_SVC.PINNED m) t = bitN b ∧
      (∀ o, o ≠ (F.MODEL_SVC.PINNED m).off → reg o t = reg o s) ∧ t = { s with win := t.win })

/-- For an entry that the W3 may take. LOAD_WEIGHTS, its entry given as two lines of 64 bytes, without error, while Weight-Load is not
held and no other load of the slot goes on: a load with the entry's REQ_ID is in progress with its segment list, NSEG, MANIFEST and
PASS, no byte of memory changes yet, and the first extent being read from host memory is the slice map, or with no slice the segment
list; with neither, the load is over and the slot has the manifest; while Weight-Load is held or another load goes on, it waits. Once
the data of the last segment of a load without pass-on have been read and fit its slice: no load is in progress, the slot has the
manifest, and of a slice of kind 0 every granule of the segment that the loader reaches in the cell holds its data. Where an extent of a
load could not be read: SVC_STS.LOAD is set, no load is in progress, and no byte of memory changes. LOAD_RECEIVE without error: the slot
holds an open receive with the entry's REQ_ID, NSEG, MANIFEST and WAIT (0 means 1,024 frames) and no segment placed.
LOAD_RECEIVE_TIMEOUT after WAIT frames without a part: no receive is open and SVC_STS.LOAD is set. READBACK without error: the slices'
granules are written from ADDR on and then CMD_DONE with status 0, and no byte of memory changes; while Weight-Load is held it waits.
(R240, R242, R243, R246, R247) -/
def Obligations.WeightsAreLoadedReceivedAndReadBack : Prop :=
  ∀ (s : State) (r m : Nat) (e : BitVec 1024), s.TablesWf → s.MemoryWf →
    let c := cmdModel e
    let slices := 32 * rd (F.SLICE_COUNT.VALUE c) s
    (cmdReady r 7 e s = true → loadCode e s = 0 → held 3 s = false → (modelSlot c s).loading = none →
      (slices ≠ 0 ∨ cmdBytes e 20 4 ≠ 0) →
      ∃ t, exec (.loadWeights r (e.extractLsb' 0 512) (e.extractLsb' 512 512)) s = .next t ∧ tookEntry r s t ∧ (modelSlot c t).loading = some (cmdOut e, cmdReq e) ∧
        (modelSlot c t).job = ⟨cmdBytes e 12 8, cmdBytes e 20 4, cmdBytes e 24 8, bitAt e 256, [], false⟩ ∧
        t.cellMem = s.cellMem ∧ t.stackMem = s.stackMem ∧
        (slices ≠ 0 → fetchOf (.load c 0) t = some ⟨.load c 0, sliceMapAddr c s, slices, []⟩) ∧
        (slices = 0 → fetchOf (.load c 1) t = some ⟨.load c 1, cmdBytes e 12 8, 24 * cmdBytes e 20 4, []⟩)) ∧
    (cmdReady r 7 e s = true → loadCode e s = 0 → held 3 s = false → (modelSlot c s).loading = none → slices = 0 → cmdBytes e 20 4 = 0 →
      bitAt e 256 = false → ∃ t, exec (.loadWeights r (e.extractLsb' 0 512) (e.extractLsb' 512 512)) s = .next t ∧ tookEntry r s t ∧ (modelSlot c t).loading = none ∧
        (modelSlot c t).manifest = cmdBytes e 24 8) ∧
    (cmdReady r 7 e s = true → (held 3 s = true ∨ (modelSlot c s).loading.isSome = true) → ∃ t, exec (.loadWeights r (e.extractLsb' 0 512) (e.extractLsb' 512 512)) s = .next t ∧
      cmdRing r t = cmdRing r s ∧ t.cellMem = s.cellMem ∧ t.stackMem = s.stackMem) ∧
    (∀ key g bs x, (modelSlot m s).loading = some key → (modelSlot m s).job.todo = [g] → (modelSlot m s).job.pass = false →
      (granulesOf bs).length = g.len → segmentSlice (modelSlot m s).slices g.slice g.off g.len = some x →
      let t := fetchDone (.load m 2) bs s
      (modelSlot m t).loading = none ∧ (modelSlot m t).manifest = (modelSlot m s).job.manifest ∧
        (x.kind = 0 → ∀ k (h : k < (granulesOf bs).length), x.start + g.off + k < reachable x.cell s →
          granule x.cell (x.start + g.off + k) t = (granulesOf bs)[k])) ∧
    (∀ part bs, (modelSlot m s).loading.isSome = true →
      let t := fetchFailed (.load m part) bs s
      rd F.SVC_STS.LOAD t = 1 ∧ (modelSlot m t).loading = none ∧ t.cellMem = s.cellMem ∧ t.stackMem = s.stackMem) ∧
    (cmdReady r 8 e s = true → receiveCode e s = 0 → ∃ t v, exec (.loadReceive r e) s = .next t ∧ tookEntry r s t ∧
      (modelSlot c t).recv = some v ∧ v.reqId = cmdReq e ∧ v.nseg = cmdBytes e 20 4 ∧ v.manifest = cmdBytes e 24 8 ∧
      v.wait = (if cmdBytes e 12 4 = 0 then 1024 else cmdBytes e 12 4) ∧ v.idle = 0 ∧ v.placed = 0 ∧ t.cellMem = s.cellMem) ∧
    (∀ v, m < 16 → (modelSlot m s).recv = some v → v.wait ≤ v.idle → ∃ t, exec (.loadReceiveTimeout m) s = .next t ∧
      (modelSlot m t).recv = none ∧ rd F.SVC_STS.LOAD t = 1 ∧ t.cellMem = s.cellMem) ∧
    (∀ xs (x : ReadbackTake), x.entry = e → cmdReady r 9 e s = true → held 3 s = false →
      errorCode (commonReserved e || bytesSet e 20 24 || bytesSet e 32 128)
        (slotSt c s == 0 || (modelSlot c s).closing) false = 0 → readbackSlices e s = some xs →
      ∃ t u, exec (.readback r x) s = .next t ∧ tookEntry r s t ∧
        t = putCmdDone (cmdOut e) c (cmdReq e) 0 0 (writeHostAll (cmdBytes e 24 8) (readbackData x.envs xs s) u) ∧
        tookEntry r s u ∧ t.cellMem = s.cellMem ∧ t.stackMem = s.stackMem) ∧
    (∀ x : ReadbackTake, x.entry = e → cmdReady r 9 e s = true → held 3 s = true → ∃ t, exec (.readback r x) s = .next t ∧
      (cmdRing r t) = cmdRing r s ∧ t.cellMem = s.cellMem ∧ t.stackMem = s.stackMem)

/-- RING_ENABLE of a ring not enabled whose SIZE_LOG is allowed. With a header whose PROD and CONS are no further apart than the ring's
size: ENABLE is set, and a command ring starts at those indices; with a header further apart, or on a command ring none after two reads:
ENABLE is 0. OUTPUT_ROOM_WRITE on an enabled output ring whose header has been read, with nothing waiting or held: CONS is taken, the
ring is not full, and nothing else of the rings changes; on another ring nothing changes. HOT_WINDOW_FILL of a request that fills, while
KV-Move is not held: the request fills no more, its sequence's ring holds the last positions of every layer and part as their pages have
them, a sequence with no mirror's copies that starts from a prefix and has no sinter stores takes the prefix's, other sequences' rings
keep what they hold, and no byte of memory changes. (R186, R212, R215, R226, R294) -/
def Obligations.RingsOpenAndMakeRoom : Prop :=
  ∀ (s : State) (k r p c id : Nat), s.TablesWf →
    (k < 19 → on (ringEnFld k) s = false → ringSizeOk k s = true →
      (∃ t, exec (.ringEnable k (some (p, c))) s = .next t ∧
        (ringUsed (p % 2 ^ 32) (c % 2 ^ 32) ≤ 2 ^ ringLog k s → on (ringEnFld k) t = true ∧
          (k < 8 → cmdRing k t = ⟨p % 2 ^ 32, c % 2 ^ 32⟩)) ∧
        (2 ^ ringLog k s < ringUsed (p % 2 ^ 32) (c % 2 ^ 32) → on (ringEnFld k) t = false)) ∧
      (k < 8 → ∃ t, exec (.ringEnable k none) s = .next t ∧ on (ringEnFld k) t = false)) ∧
    (r < 8 → outLive r s = false → exec (.outputRoomWrite r c) s = .next s) ∧
    (r < 8 → outLive r s = true → (outRing r s).waiting = [] → (outRing r s).held = [] →
      ∃ t, exec (.outputRoomWrite r c) s = .next t ∧ outRing r t = { outRing r s with cons := c % 2 ^ 32, full := false } ∧
        (∀ q, q ≠ r → outRing q t = outRing q s) ∧ t.win = s.win) ∧
    (∀ q, request id s = some q → q.filling = true → held 2 s = false → ∃ t, exec (.hotWindowFill id) s = .next t ∧
      request id t = some { q with filling := false } ∧ t.cellMem = s.cellMem ∧ t.stackMem = s.stackMem ∧ t.kv.seqs = s.kv.seqs ∧
      (∀ l part, l < poolL q.model s → part < 2 * poolKvh q.model s →
        ∀ pos ∈ fillPositions (seqSlot q.seq s).len (hotWindow q.hot),
          hotFrom q.seq (hotWindow q.hot) l part pos s ∈ t.kv.hot) ∧
      (∀ h ∈ s.kv.hot, h.seq ≠ q.seq → h ∈ t.kv.hot) ∧
      (∀ e, s.pair.sinter.filter (·.1 == q.seq) = [] → q.usesHandle = true → storesOf q.seq s = [] → pfxEntry q.handle s = some e → ∀ x ∈ e.sinter, (q.seq, x) ∈ t.kv.stores))

/-- STEP_RESULT of a launched ledger entry that is neither tainted nor marked for replay: the entry holds the sampled results of all its
sequences, its guard starts at 0, and every other entry is as before. STEP_COMMIT of an entry with its result, its KV commit complete
and 3 slot boundaries passed: TOK_GEN_CNT rises by the tokens of all its sequences, what is left of the entry is COMMITTED, and for an
entry with one sequence whose request has ended, or goes on without a token, the sequence is longer by the accepted rows, and of stack
memory, where they lie in one span, only the heads of that page's side records change, each now OPEN. A step that is not ready is left
as it is, with the whole state. (R190, R191, R202, R229, R230, R232, R353, R354) -/
def Obligations.StepsReachTheirResultAndCommit : Prop :=
  ∀ (s : State) (i : Nat), s.TablesWf →
    (∀ e scores, ledgerEntry i s = some e → e.state = .launched → e.replay = false → e.tainted = false →
      ∃ t, exec (.stepResult i scores) s = .next t ∧
        ledgerEntry i t = some { e with state := .result, seqs := seqResults e.isPrefill s e.seqs scores, guard := 0 } ∧
        (∀ j, j ≠ i → ledgerEntry j t = ledgerEntry j s) ∧ t = { s with ledger := t.ledger }) ∧
    (∀ e, ledgerEntry i s = some e → commitReady e s = true →
      ∃ t, exec (.stepCommit i) s = .next t ∧
        cnt F.TOK_GEN_CNT t = (cnt F.TOK_GEN_CNT s + (e.seqs.map fun x => x.out.length).foldl (· + ·) 0) % 2 ^ 64 ∧
        (∀ x ∈ t.ledger.entries, x.index = i → x.state = .committed) ∧ t.cellMem = s.cellMem ∧
        (∀ x, e.seqs = [x] → (request x.req s = none ∨
            ∃ q, request x.req s = some q ∧ q.isPrefix = false ∧ x.out = [] ∧ q.ending = none) →
          (seqSlot x.seq t).len = (seqSlot x.seq s).len + x.accepted ∧
          ∀ sp, spansOf x.start (x.start + x.accepted) = [sp] →
            let m := (seqSlot x.seq s).model
            (pageAt x.seq sp s = none → t.stackMem = s.stackMem) ∧
            ∀ g, pageAt x.seq sp s = some g → (∀ f ∈ s.kv.formats, ∀ k ∈ f.scales, k.1 < 2 * poolKvh m s) →
              (∀ l, l < poolL m s → stackNat (pageSide m g.page l s + 1) 1 t = 1) ∧
              ∀ b, (∀ l, l < poolL m s → b < pageSide m g.page l s ∨ pageSide m g.page l s + 4 + 8 * poolKvh m s ≤ b) →
                byteAt t.stackMem b = byteAt s.stackMem b)) ∧
    (∀ e, ledgerEntry i s = some e → commitReady e s = false → exec (.stepCommit i) s = .next s)

/-- RUN that may be taken: the job is RUNNING, its ring, once its header has been read and where fewer than 32 lines are watched, is
watched, and no other register changes but OCL_STS and EVT_DROP_CNT; otherwise, and for the other commands in a state that does not take
them, TUNE_STS.REFUSED is set and the job's state stays. PAUSE of a RUNNING job: PAUSED with no block in flight, else PAUSING. ABORT of
a job that runs, pauses or is paused: the open group is discarded (the next example is its first) and the job is IDLE with no block in
flight, else ENDING. DISCARD: the same discard, and the job's state stays. TUNE_BLOCK_COMPLETE of a block that is over: the block leaves
the job and is counted, and when it ended a group OPT_STEP is one higher (modulo 2 to the 32) and TUNE_STS.GROUP is set, else OPT_STEP
stays. None changes a byte of cell memory, and of stack memory none but the page list entries of slots that a block releases. (R260,
R262, R267, R268, R269) -/
def Obligations.TuneJobFollowsItsCommands : Prop :=
  ∀ s : State, s.TablesWf →
    (∃ t, exec .run s = .next t ∧ t.tune = s.tune ∧ t.cellMem = s.cellMem ∧ t.stackMem = s.stackMem ∧
      (tuneRunOk s = true → tuneSt t = 1 ∧ (∀ o, o ∉ [O.TUNE_STATE, O.OCL_STS, F.EVT_DROP_CNT, F.EVT_DROP_CNT + 4] → reg o t = reg o s) ∧
        (s.svc.unread.contains 17 = false → s.ocl.watches.length < 32 → t.ocl.watches.any (·.addr == watchedLine 17 s) = true)) ∧
      (tuneRunOk s = false → rd F.TUNE_STS.REFUSED t = 1 ∧ tuneSt t = tuneSt s)) ∧
    (∃ t, exec .pause s = .next t ∧ t.tune = s.tune ∧ t.cellMem = s.cellMem ∧ t.stackMem = s.stackMem ∧
      (tuneSt s = 1 → tuneSt t = if s.tune.blocks.isEmpty then 3 else 2) ∧
      (tuneSt s ≠ 1 → rd F.TUNE_STS.REFUSED t = 1 ∧ tuneSt t = tuneSt s)) ∧
    (∃ t, exec .abort s = .next t ∧ t.tune.blocks = s.tune.blocks ∧ t.cellMem = s.cellMem ∧ t.stackMem = s.stackMem ∧
      (1 ≤ tuneSt s → tuneSt s ≤ 3 → t.tune.next = openFirst s ∧ rd F.TUNE_STS.DISCARD t = 1 ∧
        tuneSt t = if s.tune.blocks.isEmpty then 0 else 4) ∧
      ((tuneSt s = 0 ∨ 3 < tuneSt s) → rd F.TUNE_STS.REFUSED t = 1 ∧ tuneSt t = tuneSt s ∧ t.tune = s.tune)) ∧
    (∃ t, exec .discard s = .next t ∧ t.tune.blocks = s.tune.blocks ∧ tuneSt t = tuneSt s ∧ t.cellMem = s.cellMem ∧
      t.stackMem = s.stackMem ∧
      (1 ≤ tuneSt s → tuneSt s ≤ 3 → t.tune.next = openFirst s ∧ rd F.TUNE_STS.DISCARD t = 1) ∧
      ((tuneSt s = 0 ∨ 3 < tuneSt s) → rd F.TUNE_STS.REFUSED t = 1 ∧ t.tune = s.tune)) ∧
    (∀ b bs losses, s.tune.blocks = b :: bs → blockOver b s = true → ∃ t, exec (.tuneBlockComplete losses) s = .next t ∧
      t.tune.blocks = bs ∧ cnt F.TUNE_BLOCK_CNT t = (cnt F.TUNE_BLOCK_CNT s + 1) % 2 ^ 64 ∧ t.cellMem = s.cellMem ∧
      (∀ a, (∀ q ∈ b.seqs, ∀ g ∈ (seqSlot q s).pages, a < listAddr q g.span s ∨ listAddr q g.span s + 4 ≤ a) →
        byteAt t.stackMem a = byteAt s.stackMem a) ∧
      (b.apply = true → b.examples ≠ [] → rd F.OPT_STEP.VALUE t = (rd F.OPT_STEP.VALUE s + 1) % 2 ^ 32 ∧ rd F.TUNE_STS.GROUP t = 1) ∧
      (b.apply = false → rd F.OPT_STEP.VALUE t = rd F.OPT_STEP.VALUE s))

/-- For OCL and the four span ports, with linkSt the state shown in OCL_STATE or SPAN_STATE. PRESENCE_DETECT on at least 8 lanes in
DETECT outside reset, with power: TRAIN; with fewer nothing changes. EQUALISATION_END in TRAIN: ALIGN, and the failed lanes are kept.
ALIGNMENT in ALIGN: PARAMS with the widest width that has no failed lane, DEGRADED set when it is not the full one, the scramblers of
its lanes seeded with their numbers plus one, and this end's parameters sent; with no width left DOWN, and the DOWN bit is set. PARAMS
of OCL, or of a span port in MODE NONE, that offers enough: ACTIVE; refused: DOWN; on a wrong cable: DOWN and PAIR_STS.CABLE set.
RETRAIN_COMPLETE in RETRAIN: when it worked ACTIVE, or PARAMS where PARAMS had not completed, else one more failure and, before the
third, the next retrain, counted, with the RETRAIN bit set. LINK_DOWN with a cause (three failed retrains, or more than 16 within 1 s):
DOWN, its instant kept. LINK_RETRY 100 ms after: DETECT. OCL_CTRL_RETRAIN while ACTIVE: RETRAIN, counted, and OCL_STS.RETRAIN set.
(R275, R276, R277, R283, R284, R287, R307, R309) -/
def Obligations.LinksTrainAndGoDown : Prop :=
  ∀ (s : State) (i t0 : Nat), s.TablesWf → i ≤ 4 →
    (∀ lanes, linkSt i s = 0 → (8 ≤ lanes → s.mgmt.inReset = false → s.power.off = false → ∃ t, exec (.presenceDetect i lanes) s = .next t ∧ linkSt i t = 1) ∧
      (lanes < 8 → exec (.presenceDetect i lanes) s = .next s)) ∧
    (∀ failed, linkSt i s = 1 → ∃ t, exec (.equalisationEnd i failed) s = .next t ∧ linkSt i t = 2 ∧ (linkOf i t).laneFail = failed) ∧
    (∀ rev, linkSt i s = 2 →
      (∀ w p, chooseWidth i (linkOf i s).laneFail = some (w, p) → ∃ t, exec (.alignment i rev) s = .next t ∧ linkSt i t = 3 ∧
        rd (if i = 0 then F.OCL_STATE.WIDTH else F.SPAN_STATE.WIDTH (i - 1)) t = w ∧ (w ≠ 0 → rd (degradedFld i) t = 1) ∧
        (linkOf i t).laneN = linkLanes i / 2 ^ w ∧ (linkOf i t).lane0 = p * (linkLanes i / 2 ^ w) ∧
        (linkOf i t).own = some (ownParams i s) ∧ (linkOf i t).rxLanes.length = (linkOf i t).laneN ∧
        (rev = false → (linkOf i t).rxLanes = (List.range (linkOf i t).laneN).map fun k => (linkOf i t).lane0 + k + 1) ∧
        (i = 0 → rd F.OCL_STATE.PART t = p ∧ rd F.OCL_STATE.REVERSED t = bitN rev)) ∧
      (chooseWidth i (linkOf i s).laneFail = none → ∃ t, exec (.alignment i rev) s = .next t ∧ linkSt i t = 6 ∧
        rd (downFld i) t = 1)) ∧
    (∀ p : Params, linkSt i s = 3 →
      (paramsRefused i p = true → ∃ t, exec (.params i p t0) s = .next t ∧ linkSt i t = 6 ∧ rd (downFld i) t = 1) ∧
      (paramsRefused i p = false → i = 0 → ∃ t, exec (.params i p t0) s = .next t ∧ linkSt i t = 4) ∧
      (paramsRefused i p = false → 1 ≤ i → miscabled (i - 1) p s = true →
        ∃ t, exec (.params i p t0) s = .next t ∧ linkSt i t = 6 ∧ rd F.PAIR_STS.CABLE t = 1) ∧
      (paramsRefused i p = false → 1 ≤ i → miscabled (i - 1) p s = false → pairMode s = 0 →
        ∃ t, exec (.params i p t0) s = .next t ∧ linkSt i t = 4)) ∧
    (linkSt i s = 5 → (∃ t, exec (.retrainComplete i true t0) s = .next t ∧
        linkSt i t = (if (linkOf i s).peer.isSome then 4 else 3) ∧ t.now = t0) ∧
      (∃ t, exec (.retrainComplete i false t0) s = .next t ∧ linkSt i t = 5 ∧
        (linkOf i t).retrainFails = (linkOf i s).retrainFails + 1 ∧
        (2 ≤ (linkOf i s).retrainFails → t.win = s.win) ∧
        ((linkOf i s).retrainFails < 2 → rd (retrainFld i) t = 1 ∧
          cnt (retrainCnt i) t = (cnt (retrainCnt i) s + 1) % 2 ^ 64))) ∧
    ((linkSt i s = 4 ∨ linkSt i s = 5) → downCause i t0 s = true → ∃ t, exec (.linkDown i t0) s = .next t ∧ linkSt i t = 6 ∧
      rd (downFld i) t = 1 ∧ (linkOf i t).downAt = t0) ∧
    (linkSt i s = 6 → (linkOf i s).downAt + 100000 * cyPerUs ≤ t0 → ∃ t, exec (.linkRetry i t0) s = .next t ∧ linkSt i t = 0) ∧
    (linkSt 0 s = 4 → ∃ t, exec (.oclCtrlRetrain t0) s = .next t ∧ linkSt 0 t = 5 ∧ rd F.OCL_STS.RETRAIN t = 1 ∧
      cnt F.OCL_RETRAIN_CNT t = (cnt F.OCL_RETRAIN_CNT s + 1) % 2 ^ 64)

/-- On a link that is ACTIVE or in PARAMS, of a flit as its lanes' scramblers, FEC and CRC leave it. PAYLOAD_FLIT that is bad: counted
in the CRC counter, nothing delivered, NAK pending, and, where none was pending, one NAK flit sent that names the last flit delivered;
of the expected SEQ: the next SEQ is expected and no NAK is pending; of an earlier SEQ: the expected SEQ stays and no message arrives;
of a later one: the expected SEQ stays and NAK is pending. IDLE_FLIT that is not bad with nothing waiting to be sent: the acknowledged
flits leave the replay buffer; bad: counted, the buffer stays, NAK pending. NAK_FLIT with something left unacknowledged and nothing
waiting: a replay is counted. RETRAIN_FLIT: the link retrains and its RETRAIN bit is set. NAK_RESEND while a NAK is pending: one more
NAK flit is sent, and the link's sequence numbers and replay buffer stay. ACK_TIMEOUT with flits unacknowledged: a replay is counted,
and the fourth in a row brings RETRAIN. (R275, R278, R279, R280, R281, R282, R283) -/
def Obligations.FlitsAreDeliveredAcknowledgedAndReplayed : Prop :=
  ∀ (s : State) (i t0 : Nat) (raw : BitVec 2048), s.TablesWf → i ≤ 4 → (linkSt i s = 4 ∨ linkSt i s = 3) →
    let f := (takeOff i raw s).1
    let l := linkOf i s
    let left := if f.ackV then (splitAck f.ack l.replay).2 else l.replay
    (∃ t, exec (.payloadFlit i raw t0) s = .next t ∧ t.now = t0 ∧
      (f.bad = true → cnt (crcCnt i) t = (cnt (crcCnt i) s + 1) % 2 ^ 64 ∧ (linkOf i t).rxSeq = l.rxSeq ∧ (linkOf i t).nakked = true ∧
        (l.nakked = false → (linkOf i t).naks = l.naks + 1 ∧ (linkOf i t).ctl = some (buildFlit (flitHeader l 2 0) [])) ∧
        t.ocl.inbox = s.ocl.inbox ∧ t.pair.inbox = s.pair.inbox) ∧
      (f.bad = false → f.type = 0 → f.seq = l.rxSeq → (linkOf i t).rxSeq = (l.rxSeq + 1) % 4096 ∧ (linkOf i t).nakked = false ∧
        (linkOf i t).gotAny = true) ∧
      (f.bad = false → f.type = 0 → f.seq ≠ l.rxSeq → (l.rxSeq + 4096 - f.seq) % 4096 < 2048 → (linkOf i t).rxSeq = l.rxSeq ∧
        t.ocl.inbox = s.ocl.inbox ∧ t.pair.inbox = s.pair.inbox) ∧
      (f.bad = false → f.type = 0 → f.seq ≠ l.rxSeq → 2048 ≤ (l.rxSeq + 4096 - f.seq) % 4096 → (linkOf i t).rxSeq = l.rxSeq ∧
        (linkOf i t).nakked = true ∧ t.ocl.inbox = s.ocl.inbox ∧ t.pair.inbox = s.pair.inbox)) ∧
    (∃ t, exec (.idleFlit i raw t0) s = .next t ∧
      (f.bad = true → cnt (crcCnt i) t = (cnt (crcCnt i) s + 1) % 2 ^ 64 ∧ (linkOf i t).replay = l.replay ∧
        (linkOf i t).nakked = true) ∧
      (f.bad = false → l.waiting = [] → (linkOf i t).replay = left)) ∧
    (f.bad = false → f.type = 2 → l.waiting = [] → left ≠ [] → ∃ t, exec (.nakFlit i raw t0) s = .next t ∧
      cnt (replayCnt i) t = (cnt (replayCnt i) s + 1) % 2 ^ 64) ∧
    (f.bad = false → f.type = 3 → ∃ t, exec (.retrainFlit i raw t0) s = .next t ∧ linkSt i t = 5 ∧ rd (retrainFld i) t = 1) ∧
    (l.nakked = true → ∃ t, exec (.nakResend i) s = .next t ∧ (linkOf i t).naks = l.naks + 1 ∧ (linkOf i t).nakked = true ∧
      (linkOf i t).ctl = some (buildFlit (flitHeader l 2 0) []) ∧ (linkOf i t).rxSeq = l.rxSeq ∧ (linkOf i t).txSeq = l.txSeq ∧
      (linkOf i t).replay = l.replay ∧ t.win = s.win) ∧
    (l.replay ≠ [] → ∃ t, exec (.ackTimeout i t0) s = .next t ∧ cnt (replayCnt i) t = (cnt (replayCnt i) s + 1) % 2 ^ 64 ∧
      (3 ≤ l.ackTimeouts → linkSt i t = 5 ∧ rd (retrainFld i) t = 1))

/-- On an ACTIVE OCL, for the message that waits in the inbox and has its turn (R288), or else the one that the row spells; out of turn
nothing changes. MMIO_RD of 4 or 8 bytes, aligned: CPL_DATA with what the window reads; else OCL_STS.UR is set and counted. MMIO_WR in
an open session: with a tag that checks, or in plaintext where MODE asks no more, the window is written, or UR set; otherwise
OCL_STS.AUTH is set and the session closes; in a closed session a plaintext one is performed. SNP_INV of a line: no watch of it has a
snapshot, and a watched line is read again with a new watch. CPL_DATA of a valid STATUS that passes the checks: for a TAG nobody waits
for, counted; with an error status or POISON, counted, and a first attempt read again, a second shown in OCL_STS.CPL_ERR with its
address; with the lines asked for, the read is over and what asked goes on; for the watched line of an enabled command ring PROD is
taken. CREDIT with nothing waiting: credits are set or added. INTR_MODERATION of an owed, enabled vector whose window has passed: the
INTR leaves now or waits to leave, and is owed no more. CPL_TIMEOUT of an outstanding read: shown, counted, read again once. DOORBELL:
the watched line of each enabled ring it names is read, or its read waits for a TAG. OCL_ENC_MODE upward with keys: the mode; the same:
nothing; otherwise OCL_STS.PROTO, and the mode stays. (R286, R287, R288, R290, R292, R294, R295, R297, R301, R302, R305, R306) -/
def Obligations.CompanionMessagesAct : Prop :=
  ∀ s : State, s.TablesWf → linkSt 0 s = 4 →
    let counted := fun (o : Nat) (t : State) => cnt o t = (cnt o s + 1) % 2 ^ 64
    let again := fun (r : HostRead) (t : State) => ∃ q ∈ t.ocl.reads, q.addr = r.addr ∧ q.use = r.use ∧ q.retried = true
    let asked := fun (a : Nat) (w : Bool) (u : ReadUse) (t : State) =>
      ∃ r ∈ t.ocl.reads ++ t.ocl.readWait, r.addr = a ∧ r.watch = w ∧ r.use = u
    (∀ off size tag, let p := fun (m : Msg) => m.op == 0x10 && m.tag == tag && accessOf off size m
      let u := takeMsg p s
      (msgTurn p s = false → exec (.mmioRd off size tag) s = .next s) ∧
      (msgTurn p s = true → accessOk off size = true → exec (.mmioRd off size tag) s = .next (sendCpl tag 0
          (readWindow false (windowOff off) size u).1 (s.ocl.closed || inMailbox (windowOff off)) (readWindow false (windowOff off) size u).2)) ∧
      (msgTurn p s = true → accessOk off size = false → ∃ t, exec (.mmioRd off size tag) s = .next t ∧ rd F.OCL_STS.UR t = 1 ∧
        counted F.OCL_PROTO_CNT t)) ∧
    (∀ off size d sec, let p := fun (m : Msg) => m.op == 0x11 && accessOf off size m
      let m := rowTakes p (rowMsg 0x11 0 (size / 4 - 1) 0 off 0 false [d] sec) s
      let u := takeMsg p s
      let put := fun (x : List Slot16) (v : State) => writeWindow false (windowOff off) size (BitVec.ofNat 64 (x.headD 0).toNat) v
      (msgTurn p s = false → exec (.mmioWr off size d sec) s = .next s) ∧
      (msgTurn p s = true → s.ocl.closed = false → secOk (encMmio s) m s = true →
        (accessOk off size = true → exec (.mmioWr off size d sec) s = .next (put (plainData m u) (acceptSec m u))) ∧
        (accessOk off size = false → ∃ t, exec (.mmioWr off size d sec) s = .next t ∧ rd F.OCL_STS.UR t = 1)) ∧
      (msgTurn p s = true → ((s.ocl.closed = false ∧ secOk (encMmio s) m s = false) ∨ (s.ocl.closed = true ∧ m.enc = true)) →
        ∃ t, exec (.mmioWr off size d sec) s = .next t ∧ rd F.OCL_STS.AUTH t = 1 ∧ t.ocl.closed = true) ∧
      (msgTurn p s = true → s.ocl.closed = true → m.enc = false → accessOk off size = true →
        exec (.mmioWr off size d sec) s = .next (put m.data u))) ∧
    (∀ addr, msgTurn (fun m => m.op == 0x12 && m.addr == addr) s = true → s.ocl.closed = false → addr % 64 = 0 →
      ∃ t, exec (.snpInv addr) s = .next t ∧ (∀ w ∈ t.ocl.watches, w.addr = addr → w.snap = none) ∧
        t.cellMem = s.cellMem ∧ t.stackMem = s.stackMem ∧
        (∀ w, s.ocl.watches.find? (·.addr == addr) = some w → asked addr true w.use t)) ∧
    (∀ tag status poison data sec, let p := fun (m : Msg) => m.op == 0x20 && m.tag == tag
      let m := rowTakes p (rowMsg 0x20 tag ((data.length / 4 + 7) % 8) status 0 0 poison data sec) s
      let u := acceptSec m (takeMsg p s)
      let d := plainData m (takeMsg p s)
      msgTurn p s = true → s.ocl.closed = false → m.status ≤ 2 → secOk (encData s) m s = true →
      (readWith tag s = none → ∃ t, exec (.cplData tag status poison data sec) s = .next t ∧ t.ocl.reads = s.ocl.reads ∧
        counted F.OCL_PROTO_CNT t ∧ t.cellMem = s.cellMem ∧ t.stackMem = s.stackMem) ∧
      (∀ r, readWith tag s = some r →
        ((m.status ≠ 0 ∨ m.poison = true) → ∃ t, exec (.cplData tag status poison data sec) s = .next t ∧
          counted F.OCL_CPL_ERR_CNT t ∧ (r.retried = false → again r t) ∧
          (r.retried = true → rd F.OCL_STS.CPL_ERR t = 1 ∧ reg O.OCL_ERR_ADDR t = BitVec.ofNat 32 r.addr)) ∧
        (m.status = 0 → m.poison = false → d.length = 4 * (r.lenm1 + 1) →
          exec (.cplData tag status poison data sec) s =
            .next (issueWaiting (readDone r d { u with ocl := { u.ocl with reads := u.ocl.reads.erase r } })) ∧
          (∀ k, r.watch = true → r.use = .cmdRing k → on (F.CMD_RING_CFG.ENABLE k) s = true → k ∉ s.svc.unread →
            ∃ t, exec (.cplData tag status poison data sec) s = .next t ∧ (cmdRing k t).prod = bitsOf (slotData d) 0 32 ∧
              (cmdRing k t).cons = (cmdRing k s).cons)))) ∧
    (∀ req post init, let m := rowTakes (fun m => m.op == 0x30) (rowMsg 0x30 0 0 0 (req + 2 ^ 16 * post) (bitN init) false [] MsgSec.plain) s
      s.link.waiting = [] → ∃ t, exec (.credit req post init) s = .next t ∧ t.win = s.win ∧ t.cellMem = s.cellMem ∧
        t.link.creditReq = (if m.first.testBit 0 then 0 else s.link.creditReq) + bitsOf m.addr 0 16 ∧
        t.link.creditPost = (if m.first.testBit 0 then 0 else s.link.creditPost) + bitsOf m.addr 16 16) ∧
    (∀ v m, v < 65536 → moderationOf v s = some m → m.owed = true → intrFree v s = true → intrOn v s = true →
      ∃ t x, exec (.intrModeration v) s = .next t ∧ moderationOf v t = some x ∧ x.owed = false ∧
        (x.last = beatNo s ∨ intrWaits v t = true)) ∧
    (∀ tag r, s.ocl.closed = false → readWith tag s = some r → ∃ t, exec (.cplTimeout tag) s = .next t ∧
      rd F.OCL_STS.CPL_TIMEOUT t = 1 ∧ counted F.OCL_CPL_ERR_CNT t ∧ (r.retried = false → again r t)) ∧
    (∀ v : Word, answersAt false O.DOORBELL s = true → ∃ t, exec (.doorbell v) s = .next t ∧ t.cellMem = s.cellMem ∧
      t.stackMem = s.stackMem ∧
      (∀ k, k < 8 → bitAt v k = true → on (ringEnFld k) s = true → asked (watchedLine k s) true (.cmdRing k) t) ∧
      (bitAt v 8 = true → tuneRingOn s = true →
        asked (watchedLine 17 s) (tuneRuns s) (if tuneRuns s then .tune else .tuneProd) t)) ∧
    (∀ mode, answersAt false O.OCL_ENC s = true →
      (mode = rd F.OCL_ENC.MODE s → exec (.oclEncMode mode) s = .next s) ∧
      (rd F.OCL_ENC.MODE s < mode → mode ≤ 2 → on F.OCL_ENC.KEYS s = true → ∃ t, exec (.oclEncMode mode) s = .next t ∧
        rd F.OCL_ENC.MODE t = mode ∧ t = { s with win := t.win }) ∧
      ((mode < rd F.OCL_ENC.MODE s ∨ 2 < mode ∨ on F.OCL_ENC.KEYS s = false) → mode ≠ rd F.OCL_ENC.MODE s → ∃ t, exec (.oclEncMode mode) s = .next t ∧ rd F.OCL_ENC.MODE t = rd F.OCL_ENC.MODE s ∧
          rd F.OCL_STS.PROTO t = 1))

/-- With a port ACTIVE, at a module in MIRROR, Mirror not held, and a message with the PSN that the stream expects while none waits
ahead: the next PSN is expected. CMD with a SUBMIT without handle: its request joins the mirror's queue. TOKENS_IN: the tokens are kept
under their REQ_ID and model. KV, SEQSTATE and PREFIX: the part joins the open commit group. COMMIT: the group is applied and empty, and
one more group is counted in. While Mirror is held such a message waits. A message with a later PSN waits ahead and is applied by none;
one that repeats an earlier PSN is dropped. (R312, R313, R318, R319, R320, R324) -/
def Obligations.MirrorStreamMessages : Prop :=
  ∀ (s : State) (m : SpanMsg), s.TablesWf → activePorts s ≠ [] → pairSt s = 4 →
    let e : BitVec 1024 := BitVec.ofNat 1024 (slotsNat m.data)
    let h := ((m.data.headD 0)).toNat
    (inTurn 1 m.psn s → held 4 s = false →
      (∃ t, exec (.cmd m) s = .next t ∧ rxExpected 1 t = (m.psn + 1) % 2 ^ 32 ∧
        (cmdOp e = 1 → cmdBytes e 12 8 = 0 → t.svc.reqs = s.svc.reqs ++ [newRequest e false 0 s])) ∧
      (∃ t x, exec (.tokensIn m) s = .next t ∧ rxExpected 1 t = (m.psn + 1) % 2 ^ 32 ∧ t.pair.mirrorToks = s.pair.mirrorToks ++ [x] ∧
        x.reqId = bitsOf h 0 64 ∧ x.model = m.model) ∧
      (∃ t, exec (.kv m) s = .next t ∧ rxExpected 1 t = (m.psn + 1) % 2 ^ 32 ∧ t.stackMem = s.stackMem ∧
        t.pair.group = s.pair.group ++ [⟨0x12, m.model, m.arg, m.data⟩]) ∧
      (∃ t, exec (.seqstate m) s = .next t ∧ rxExpected 1 t = (m.psn + 1) % 2 ^ 32 ∧ t.kv = s.kv ∧
        t.pair.group = s.pair.group ++ [⟨0x13, m.model, m.arg, m.data⟩])) ∧
    (∀ d : PfxChange, inTurn 1 d.psn s → held 4 s = false → ∃ t x, exec (.pfx d) s = .next t ∧ rxExpected 1 t = (d.psn + 1) % 2 ^ 32 ∧ t.svc = s.svc ∧
      t.pair.group = s.pair.group ++ [x] ∧ x.op = 0x15 ∧ x.model = d.model ∧ x.arg = d.handle) ∧
    (∀ d : CommitData, inTurn 1 d.psn s → held 4 s = false → ∃ t, exec (.commit d) s = .next t ∧ rxExpected 1 t = (d.psn + 1) % 2 ^ 32 ∧
      t.pair.group = [] ∧ t.pair.groupsIn = s.pair.groupsIn + 1) ∧
    ((m.psn ≠ rxExpected 1 s ∨ held 4 s = true) → ringUsed m.psn (rxExpected 1 s) < 2 ^ 31 → s.pair.ahead = [] →
      ∃ t, exec (.cmd m) s = .next t ∧ t.pair.ahead = [(1, m.psn, .msg { m with op := 0x10 })] ∧ t.svc = s.svc ∧
        rxExpected 1 t = rxExpected 1 s) ∧
    (2 ^ 31 ≤ ringUsed m.psn (rxExpected 1 s) → ∃ t, exec (.cmd m) s = .next t ∧ t.svc = s.svc ∧ t.pair.ahead = s.pair.ahead ∧
      rxExpected 1 t = rxExpected 1 s)

/-- With a port ACTIVE and a message in its turn. PASS outside MODE NONE for a slot with no open LOAD_RECEIVE: its segment is counted in
PASS_DROP_CNT with its final part, and no byte of cell or stack memory changes. XING in SPLIT of a record of the image: a flit for each
granule it carries enters the mesh, bound for the record's cell, and no byte of cell memory changes yet; of no record: nothing enters.
FLIT_LANDING of such a flit that no link holds back: one more granule is counted as crossed in its direction. RESULT at the front for a
launched step: what the ledger holds of that entry has its result, and the crossings it took are no longer counted. SCOMMIT at the back:
a launched step of that launch whose result has gone to the front is to commit, the next PSN is expected and no byte of memory changes
yet. PASS_RSP while parts are unanswered: one fewer is; an answer other than 0 is remembered. SPLIT_LAUNCH at the back with all granules
of a step landed: a launch of the model with that activity is ready, the step's granules are taken off the count, and no memory, request
or ledger entry changes. SPAN_CREDIT with nothing waiting: the port's credits are set or added. (R313, R333, R335, R336, R337) -/
def Obligations.PassOnAndSplitMessages : Prop :=
  ∀ (s : State) (m : SpanMsg), s.TablesWf → s.MemoryWf → activePorts s ≠ [] →
    (inTurn 3 m.psn s → pairMode s ≠ 0 → (modelSlot m.model s).recv = none → ∃ t, exec (.pass m) s = .next t ∧
      rxExpected 3 t = (m.psn + 1) % 2 ^ 32 ∧ t.cellMem = s.cellMem ∧ t.stackMem = s.stackMem ∧
      cnt F.PASS_DROP_CNT t = if bitsOf (m.data.headD 0).toNat 96 1 = 1 then (cnt F.PASS_DROP_CNT s + 1) % 2 ^ 64 else cnt F.PASS_DROP_CNT s) ∧
    (inTurn 2 m.psn s → pairSt s = 5 → ∃ t, exec (.xing m) s = .next t ∧ rxExpected 2 t = (m.psn + 1) % 2 ^ 32 ∧
      t.cellMem = s.cellMem ∧ t.stackMem = s.stackMem ∧
      (∀ r, (image m.model s).crossings[bitsOf m.arg 0 15]? = some r → crossCell r < 221184 →
        ∃ l, t.mesh.flight = s.mesh.flight ++ l ∧ l.length = m.data.length / 4 ∧ l.map (·.flit.data) = slotGranules (m.data.length / 4) m.data ∧
          ∀ x ∈ l, fieldOf x.flit.tag 5 18 = crossCell r ∧ x.xin = some (m.model, crossDir r)) ∧
      ((image m.model s).crossings[bitsOf m.arg 0 15]? = none → t.mesh = s.mesh ∧ t.counters = s.counters)) ∧
    (∀ c f env x k d, c < cellCount → flightOf (fun y => sameFlit y.flit f) s = some x → x.stuck s = false → x.xin = some (k, d) →
      Table.wf (fun _ => 0) s.pair.crossed = true →
      ∃ t, exec (.flitLanding c f env) s = .next t ∧ crossed k d t = crossed k d s + 1) ∧
    (∀ (d : SplitResult) e, inTurn 2 d.psn s → Table.wf (fun _ => 0) s.pair.crossed = true → pairSt s = 5 → senior s = true →
      s.ledger.entries.find? (fun e => e.model == d.model && e.launch == d.launch && e.state == .launched && !e.replay) = some e →
      ∃ t, exec (.result d) s = .next t ∧ (∀ x ∈ t.ledger.entries, x.index = e.index → x.state = .result) ∧
        crossed d.model 1 t = crossed d.model 1 s - crossTotal d.model 1 s) ∧
    (∀ launch psn, inTurn 2 psn s → pairSt s = 5 → senior s = false → ∃ t, exec (.scommit m.model launch psn) s = .next t ∧
      rxExpected 2 t = (psn + 1) % 2 ^ 32 ∧ t.cellMem = s.cellMem ∧ t.stackMem = s.stackMem ∧ t.svc = s.svc ∧
      ∀ b ∈ s.pair.backSteps, b.model = m.model → b.launch = launch → b.result = true → { b with commits := true } ∈ t.pair.backSteps) ∧
    (∀ k ks, s.pair.passSent = k :: ks → ∃ t, exec (.passRsp m) s = .next t ∧ t.pair.passSent = ks ∧
      (m.arg ≠ 0 → k ∈ t.pair.passDrop) ∧ t.cellMem = s.cellMem) ∧
    (∀ c entry launch seqs, c < 16 → splitBack c s = true → pairSt s = 5 → Table.wf (fun _ => 0) s.pair.crossed = true → 0 < crossTotal c 0 s → crossTotal c 0 s ≤ crossed c 0 s → (entry = 1 ∨ entry = 2) →
      ∃ t, exec (.splitLaunch c ⟨entry, launch, seqs⟩) s = .next t ∧
        t.pair.backReady = s.pair.backReady ++
          [{ index := 0, model := c, launch := launch, entry := entry, seqs := seqs, result := false, commits := false }] ∧
        crossed c 0 t = crossed c 0 s - crossTotal c 0 s ∧ t.cellMem = s.cellMem ∧ t.stackMem = s.stackMem ∧ t.svc = s.svc ∧
        t.ledger = s.ledger) ∧
    (∀ port slots, port < 4 → (linkOf (port + 1) s).waiting = [] →
      (∃ t, exec (.spanCredit port slots true) s = .next t ∧ (linkOf (port + 1) t).creditReq = slots ∧ t.win = s.win) ∧
      (∃ t, exec (.spanCredit port slots false) s = .next t ∧
        (linkOf (port + 1) t).creditReq = (linkOf (port + 1) s).creditReq + slots ∧ t.win = s.win))

/-- On an ACTIVE port. FRAME outside the MIRROR stream, in any MODE: the partner counts as heard, and PAIR_EPOCH is the larger of both
epochs; in a pair MODE, of the MIRROR stream in its turn at a mirror while Mirror is not held, also: the next PSN is expected,
BEAT_OFFSET is the partner's beat less the own, the partner's pool counts are kept, and the state stays or, in MIRROR, becomes SYNCING
with PAIR_STS.DIVERGE. FAIL in a pair MODE at the senior: SOLO with PAIR_STS.PARTNER_FAIL; at a junior in SYNCING or MIRROR: TAKEOVER,
waiting for its epoch's record, the open commit group dropped; in SPLIT: SOLO; else the state stays. ACK of the SPLIT stream: what it
covers is kept for resending no more; of the MIRROR stream: commit groups and token ranges up to its PSN wait no more. While KV-Move is
held PAGE_REQ and PAGE_DATA wait. PAGE_REQ of a page held whose granules read well: charged to KV-Move and the layer's bytes are sent in
parts of up to 2,046 slots, each with its offset; of a page that is not held or not readable, PAGE_DATA without data answers (the
model's choice, log entry 96). PAGE_DATA of a requested page held: each of its slots stands at its place, no other byte of stack memory
changes, and the request ends with the last byte of the layer; without data the page is lost: KV_STS.KV_LOSS; of a page not requested:
nothing changes. None changes cell memory, but a FAIL, which may end requests. (R312, R313, R319, R320, R321, R323, R325, R326, R328,
R330, R338) -/
def Obligations.PartnerMessages : Prop :=
  ∀ (s : State) (port : Nat), s.TablesWf → s.MemoryWf → port < 4 → linkSt (port + 1) s = 4 →
    (∀ d : FrameData, d.mirror = false → d.epoch < 2 ^ 32 → ∃ t, exec (.frame port d) s = .next t ∧ t.pair.silent = 0 ∧
      rd F.PAIR_EPOCH.VALUE t = max (rd F.PAIR_EPOCH.VALUE s) d.epoch ∧ pairSt t = pairSt s ∧ t.cellMem = s.cellMem ∧
      t.stackMem = s.stackMem) ∧
    (∀ d : FrameData, pairMode s ≠ 0 → held 4 s = false → d.mirror = true → d.epoch < 2 ^ 32 → inTurn 1 d.psn s → isMirror s = true → ∃ t, exec (.frame port d) s = .next t ∧
      t.pair.silent = 0 ∧ rd F.PAIR_EPOCH.VALUE t = max (rd F.PAIR_EPOCH.VALUE s) d.epoch ∧ rxExpected 1 t = (d.psn + 1) % 2 ^ 32 ∧
      rd F.BEAT_OFFSET.VALUE t = (d.beat + 2 ^ 32 - beatNo s % 2 ^ 32) % 2 ^ 32 ∧
      (∀ m, m < 16 → Table.get (fun _ => 0) t.pair.poolFree m = d.free.getD m 0 ∧
        Table.get (fun _ => 0) t.pair.poolResv m = d.resv.getD m 0) ∧
      (pairSt t = pairSt s ∨ (pairSt s = 4 ∧ pairSt t = 2 ∧ rd F.PAIR_STS.DIVERGE t = 1)) ∧ t.cellMem = s.cellMem) ∧
    (∀ arg, pairMode s ≠ 0 → (senior s = true → ∃ t, exec (.fail port arg) s = .next t ∧ pairSt t = 0 ∧ rd F.PAIR_STS.PARTNER_FAIL t = 1) ∧
      (senior s = false → (pairSt s = 2 ∨ pairSt s = 4) → ∃ t, exec (.fail port arg) s = .next t ∧ pairSt t = 7 ∧
        t.pair.takeover = true ∧ t.pair.group = []) ∧
      (senior s = false → pairSt s = 5 → ∃ t, exec (.fail port arg) s = .next t ∧ pairSt t = 0 ∧ t.svc = s.svc ∧ t.cellMem = s.cellMem) ∧
      (senior s = false → pairSt s ≠ 2 → pairSt s ≠ 4 → pairSt s ≠ 5 → exec (.fail port arg) s = .next (setWatch none (takeInbox 0x01 s)))) ∧
    (∀ arg, let psn := bitsOf arg 0 32
      (bitsOf arg 32 1 = 1 → ∃ t, exec (.ack arg) s = .next t ∧ t.win = s.win ∧ t = { s with pair := t.pair } ∧
        t.pair.outstanding = s.pair.outstanding.filter fun x => !(x.2.1 == 2 && atOrBefore x.2.2.psn psn)) ∧
      (bitsOf arg 32 1 = 0 → ∃ t, exec (.ack arg) s = .next t ∧ t.pair.lag = s.pair.lag.filter (fun p => !atOrBefore p.1 psn) ∧
        t.pair.tokensIn = s.pair.tokensIn.filter (fun p => !atOrBefore p.1 psn) ∧
        (bitsOf arg 33 1 = 0 → t.pair.outstanding = s.pair.outstanding.filter (fun x => !(x.2.1 == 1 && atOrBefore x.2.2.psn psn))) ∧
        t.cellMem = s.cellMem ∧ t.stackMem = s.stackMem)) ∧
    (∀ (m : SpanMsg) env,
      let p := bitsOf m.arg 0 4
      let q := bitsOf m.arg 4 12
      let l := bitsOf m.arg 32 8
      let n := pageBytes p s
      let entry := pageAt q (bitsOf m.arg 16 16) s
      (held 2 s = true → ∃ t, exec (.pageReq ⟨m, env⟩) s = .next t ∧ t = { s with pair := t.pair } ∧
        t.pair.pageWait = s.pair.pageWait ++ [({ m with op := 0x16 }, env)]) ∧
      (held 2 s = false → entry = none → exec (.pageReq ⟨m, env⟩) s = .next (sendSpan 0x17 p m.arg [] (takeInbox 0x16 s))) ∧
      ∀ e, held 2 s = false → entry = some e →
        let lost := env.lostIn (inLayer p e.page l s)
        let u := stackMetOf (requestCell (leadController s)) (some q) (inLayer p e.page l s) env
          (countLayer false p e.page l (chargeSpanStack 2 n (takeInbox 0x16 s)))
        let part := fun (k : Nat) => natSlot (32736 * k) :: (List.range (min 2046 ((n - 32736 * k) / 16))).map fun i =>
          natSlot (memNat s.stackMem (pageByte p e.page l (32736 * k + 16 * i) s) 16)
        ∃ t, exec (.pageReq ⟨m, env⟩) s = .next t ∧ t.cellMem = s.cellMem ∧
          (lost ≠ [] → t = sendSpan 0x17 p m.arg [] u) ∧
          (lost = [] → t = (List.range (cdiv n 32736)).foldl (fun u k => sendSpan 0x17 p m.arg (part k) u) u ∧
            t.stackMem = s.stackMem ∧ t.kv = s.kv ∧ t.svc = s.svc ∧ t.pair.pageReqs = s.pair.pageReqs)) ∧
    (∀ m : SpanMsg,
      (held 2 s = true → ∃ t, exec (.pageData m) s = .next t ∧ t = { s with pair := t.pair } ∧
        t.pair.pageWait = s.pair.pageWait ++ [({ m with op := 0x17 }, .quiet)]) ∧
      (held 2 s = false → pageReqOf m.arg s = none → exec (.pageData m) s = .next (takeInbox 0x17 s)) ∧
      ∀ r, held 2 s = false → pageReqOf m.arg s = some r → ∃ t, exec (.pageData m) s = .next t ∧ t.cellMem = s.cellMem ∧
        (r.page s = none → t.stackMem = s.stackMem ∧ t.pair.pageReqs = s.pair.pageReqs.erase r) ∧
        (r.page s ≠ none → m.data = [] → rd F.KV_STS.KV_LOSS t = 1) ∧
        ∀ p h xs, r.page s = some p → m.data = h :: xs →
          let n := r.got + 16 * xs.length
          let a := fun (i : Nat) => pageByte r.model p r.layer (fieldOf h 0 32 + 16 * i) s
          (pageBytes r.model s ≤ n → t.pair.pageReqs = s.pair.pageReqs.erase r) ∧
          (n < pageBytes r.model s → t.pair.pageReqs = s.pair.pageReqs.erase r ++ [{ r with got := n }]) ∧
          (∀ i x, xs[i]? = some x → (∀ j, i < j → j < xs.length → a j + 16 ≤ a i ∨ a i + 16 ≤ a j) →
            memNat t.stackMem (a i) 16 = x.toNat) ∧
          ∀ b, (∀ i, i < xs.length → b < a i ∨ a i + 16 ≤ b) → byteAt t.stackMem b = byteAt s.stackMem b)

/-- PAIR_MODE_WRITE always takes MAXLAG. A new MODE (not 3) while no slot is LOADING or RUNNABLE is taken: MODE NONE gives SOLO, another
one without an ACTIVE port or before the partner's PARAMS LINKING; with both, PAIR_EPOCH is the larger of both epochs, SENIOR stays
where the partner shows the other bit, and the state is SPLIT, or PRIMARY at the senior and SYNCING at the junior; while a slot is
loaded MODE stays. ISOLATE in a pair MODE of a module that watches its partner and none of whose ports has been ACTIVE for 1 ms:
ISOLATED, and its status bit. TAKEOVER, RELEASE and RESYNC with a higher arbitration epoch, in the state that the action needs, with
none in progress: the action waits for the record of that epoch; otherwise EPOCH_REFUSED is set. TAKEOVER_COMPLETE with the record
durable and no hot window left to fill: SOLO, senior, TAKEOVER shown, nothing mirrored left. SYNCING_COMPLETE with nothing ahead:
MIRROR, and no other register changes. (R316, R317, R320, R324, R326, R328, R329, R330, R331, R332) -/
def Obligations.PairStatesFollowHostAndPartner : Prop :=
  ∀ s : State, s.TablesWf →
    (∀ v : Word, let mode := fieldOf v 0 2
      ∃ t, exec (.pairModeWrite v) s = .next t ∧ rd F.PAIR_CFG.MAXLAG t = fieldOf v 8 8 ∧
        ((mode = pairMode s ∨ mode = 3 ∨ anyLoaded s = true) → pairMode t = pairMode s ∧ pairSt t = pairSt s) ∧
        (mode ≠ pairMode s → mode ≠ 3 → anyLoaded s = false → pairMode t = mode ∧
          (mode = 0 → pairSt t = 0) ∧
          (mode ≠ 0 → (activePorts s = [] ∨ s.pair.partner = none) → pairSt t = 1) ∧
          (∀ p, mode ≠ 0 → activePorts s ≠ [] → s.pair.partner = some p →
            (mode = 2 → pairSt t = 5) ∧ (mode = 1 → pairSt t = if senior t then 3 else 2) ∧
            (p.senior ≠ senior s → senior t = senior s) ∧
            (p.epoch < 2 ^ 32 → rd F.PAIR_EPOCH.VALUE t = max (rd F.PAIR_EPOCH.VALUE s) p.epoch)))) ∧
    (∀ t0 w, pairMode s ≠ 0 → s.pair.watch = some w → activePorts s = [] →
      ((List.range 4).map fun k => (linkOf (k + 1) s).downAt).foldl max w + 1000 * cyPerUs ≤ t0 →
      ∃ t, exec (.isolate t0) s = .next t ∧ pairSt t = 6 ∧ rd F.PAIR_STS.ISOLATED t = 1 ∧ t.now = t0) ∧
    (∀ a i, (a = 1 ∧ i = Instr.takeover ∨ a = 2 ∧ i = Instr.release ∨ a = 3 ∧ i = Instr.resync) →
      ∃ t, exec i s = .next t ∧ pairSt t = pairSt s ∧
        (rd F.PAIR_EPOCH.VALUE s < rd F.PAIR_ARB_EPOCH.VALUE s → arbFits a s = true → s.pair.arb = none →
          t.pair.arb = some (a, rd F.PAIR_ARB_EPOCH.VALUE s) ∧ t.win = s.win ∧
          (s.boot.failed = false → ∃ p ∈ t.boot.waiting, p.type = 0x06 ∧ p.payload = [rd F.PAIR_ARB_EPOCH.VALUE s])) ∧
        ((rd F.PAIR_ARB_EPOCH.VALUE s ≤ rd F.PAIR_EPOCH.VALUE s ∨ arbFits a s = false ∨ s.pair.arb ≠ none) →
          rd F.PAIR_STS.EPOCH_REFUSED t = 1 ∧ t.pair.arb = s.pair.arb)) ∧
    (pairSt s = 7 → s.pair.takeover = false → (∀ q ∈ s.svc.reqs, q.filling = false) → ∃ t, exec .takeoverComplete s = .next t ∧ pairSt t = 0 ∧ senior t = true ∧
      rd F.PAIR_STS.TAKEOVER t = 1 ∧ t.pair.mirror = [] ∧ t.cellMem = s.cellMem ∧ t.stackMem = s.stackMem) ∧
    (pairSt s = 2 → s.pair.ahead = [] → activePorts s ≠ [] → ∃ t, exec .syncingComplete s = .next t ∧ pairSt t = 4 ∧
      t = { s with win := t.win } ∧ ∀ o, o ≠ F.PAIR_STATE.STATE.off → reg o t = reg o s)

/-- At a module that no fatal event has stopped. FORCE_FATAL: cause 0x0B. BRYNODOR_WATCHDOG: 0x0A. OCL_DOWN_TIMEOUT with OCL down, or
its session closed, for 1,024 frames: 0x04. STACK_LOST of a stack in service: 0x02, and the stack's state is failed. AUDIT whose VALUE
is not the account of its VC2 or VC3 buffer (log entry 20): 0x01 detail 0x01. DRAIN_TIMEOUT of a reset not in RELEASE one frame after
its start: 0x06. BOTH_FEEDS_LOST with neither feed OK: 0x08, source 4. VCM_NORECOVER of an event older than 1,024 samples that has not
recovered: 0x08, source 3. In each case the module is stopped, no reset is in progress any more, FATAL_CAUSE shows cause and detail, and
FLT_STS.FATAL is set. After BOTH_FEEDS_LOST, of a stopped module too, the module is without power and no link is up; without power it
changes nothing. A stopped module stays as it is under FORCE_FATAL and BRYNODOR_WATCHDOG. (R203, R284, R305, R364, R370, R371, R372,
R378, R381, R387, R409) -/
def Obligations.FatalEventsStopTheModule : Prop :=
  ∀ s : State, s.TablesWf →
    (s.faults.stopped = false →
      (∃ t, exec .forceFatal s = .next t ∧ stoppedBy 0x0B 0 t) ∧
      (∃ t, exec .brynodorWatchdog s = .next t ∧ stoppedBy 0x0A 0 t) ∧
      ((linkSt 0 s ≠ 4 ∨ s.ocl.closed = true) → 1024 ≤ s.link.downFrames → ∃ t, exec .oclDownTimeout s = .next t ∧ stoppedBy 0x04 0 t) ∧
      (∀ n, n < 12 → on (F.HS_STATE.SVC n) s = true → ∃ t, exec (.stackLost n) s = .next t ∧ stoppedBy 0x02 0 t ∧
        rd (F.HS_STATE.STATE n) t = 2) ∧
      (∀ r port w, r < cellCount → fieldOf w 28 4 = 6 →
        let account := if bitAt w 27 then used3 r port s else used2 r port s
        (fieldOf w 23 4 ≠ account → ∃ t, exec (.audit r port w) s = .next t ∧ stoppedBy 0x01 0x01 t) ∧
        (fieldOf w 23 4 = account → exec (.audit r port w) s = .next s)) ∧
      (∀ j, s.faults.job = some j → j.phase < 2 → j.beat + beatsPerFrame ≤ beatNo s →
        ∃ t, exec .drainTimeout s = .next t ∧ stoppedBy 0x06 0 t) ∧
      (feedIsOk 0 s = false → feedIsOk 1 s = false → s.power.off = false → ∃ t, exec .bothFeedsLost s = .next t ∧ stoppedBy 0x08 0 t ∧
        rd F.PWR_STATE.FATAL_SRC t = 4) ∧
      (∀ e, s.power.event = some e → e.done = false → e.sample + 1024 ≤ s.power.samples →
        ∃ t, exec .vcmNorecover s = .next t ∧ stoppedBy 0x08 0 t ∧ rd F.PWR_STATE.FATAL_SRC t = 3)) ∧
    (feedIsOk 0 s = false → feedIsOk 1 s = false → s.power.off = false → ∃ t, exec .bothFeedsLost s = .next t ∧ t.power.off = true ∧
      t.faults.stopped = true ∧ t.power.pwrOff = false ∧ ∀ i, i < 5 → linkSt i t = 0) ∧
    (s.power.off = true → exec .bothFeedsLost s = .next s) ∧
    (s.faults.stopped = true → exec .forceFatal s = .next s ∧ exec .brynodorWatchdog s = .next s)

/-- FAULT_REPORT of cause 1 to 16 at a cell below 221,184: FLT_DATA_CNT and the field's FLD_FLT_CNT rise by one and FLT_STS.DATA is set;
while FLT_LAST holds no report it takes cell and cause, otherwise it keeps the earlier one. At a module not stopped, for a cause other
than 0x10 and a cell of no running image, the module either stops or a job that holds the cell stands in DRAIN. CELL_RESET,
CLUSTER_RESET and PARTITION_RESET of a cell below 221,184 while no reset is in progress: RST_CTRL shows scope and cell, RST_STATE.BUSY
is set, and the job in DRAIN holds the cell, the cells of its cluster, or its field; while one is in progress the request is refused and
the job stays. (R350, R351, R363, R364, R367, R373, R374) -/
def Obligations.ReportsAndResetRequestsBeginJobs : Prop :=
  ∀ (s : State) (c : Nat), s.TablesWf → c < cellCount →
    (∀ cause, 1 ≤ cause → cause ≤ 16 → ∃ t, exec (.faultReport cause c) s = .next t ∧
      cnt F.FLT_DATA_CNT t = (cnt F.FLT_DATA_CNT s + 1) % 2 ^ 64 ∧
      cnt (F.FLD_FLT_CNT (fieldOfCell c)) t = (cnt (F.FLD_FLT_CNT (fieldOfCell c)) s + 1) % 2 ^ 64 ∧ rd F.FLT_STS.DATA t = 1 ∧
      (rd F.FLT_LAST.V s = 0 → rd F.FLT_LAST.V t = 1 ∧ rd F.FLT_LAST.CELL t = c ∧ rd F.FLT_LAST.CAUSE t = cause) ∧
      (rd F.FLT_LAST.V s = 1 → reg O.FLT_LAST t = reg O.FLT_LAST s) ∧
      (s.faults.stopped = false → cause ≠ 16 → runningModelOf c s = none →
        t.faults.stopped = true ∨ (rd F.RST_STATE.BUSY t = 1 ∧ ∃ j, t.faults.job = some j ∧ c ∈ j.single ∧ j.phase = 0))) ∧
    (rd F.RST_STATE.BUSY s = 0 →
      (∃ t j, exec (.cellReset c) s = .next t ∧ rd F.RST_CTRL.SCOPE t = 0 ∧ rd F.RST_CTRL.TARGET t = c ∧ rd F.RST_STATE.BUSY t = 1 ∧
        t.faults.job = some j ∧ j.phase = 0 ∧ c ∈ j.single) ∧
      (∃ t j, exec (.clusterReset c) s = .next t ∧ rd F.RST_CTRL.SCOPE t = 1 ∧ rd F.RST_CTRL.TARGET t = c ∧ rd F.RST_STATE.BUSY t = 1 ∧
        t.faults.job = some j ∧ j.phase = 0 ∧ ∀ x ∈ clusterCells c, x ∈ j.single) ∧
      (∃ t j, exec (.partitionReset c) s = .next t ∧ rd F.RST_CTRL.SCOPE t = 2 ∧ rd F.RST_CTRL.TARGET t = c ∧
        rd F.RST_STATE.BUSY t = 1 ∧ t.faults.job = some j ∧ j.phase = 0 ∧ fieldOfCell c ∈ j.fields)) ∧
    (rd F.RST_STATE.BUSY s = 1 →
      (∃ t, exec (.cellReset c) s = .next t ∧ rd F.RST_STS.REFUSED t = 1 ∧ t.faults = s.faults) ∧
      (∃ t, exec (.clusterReset c) s = .next t ∧ rd F.RST_STS.REFUSED t = 1 ∧ t.faults = s.faults) ∧
      (∃ t, exec (.partitionReset c) s = .next t ∧ rd F.RST_STS.REFUSED t = 1 ∧ t.faults = s.faults))

/-- With a job. RESET: every cell of the job takes the phase in progress, and in ABSORB it is reset (not running, its program counter
0); every other cell is as before. DRAIN_DONE with every cell in DRAIN: ABSORB is in progress. ABSORB_DONE less than 128 cycles after a
landing changes nothing; later, with every cell in ABSORB and no placement open: RELEASE, or, where host memory must be read for it, a
rewrite is in progress for each model and variant that needs one. RELEASE_DONE with every cell in RELEASE and every table entry written:
the job is over, RST_STATE shows none, its hold is gone. RING_FILL and SLOT_FILL set one launch ring entry of a cell and one half of the
cell's own copy of the slot number. WHOLE_RESET with no reset in progress and a TARGET below 221,184: fuses, waiting commands and free
values are as before, all memory reads as unwritten, no cell runs, and every register but the four that show pin and feed levels has its
reset value; otherwise it is refused. (R147, R357, R363, R364, R365, R367) -/
def Obligations.ResetJobsRunTheirPhases : Prop :=
  ∀ s : State, s.TablesWf →
    (∀ j, s.faults.job = some j →
      (∃ t, exec .reset s = .next t ∧ (∀ c, c ∉ j.cells → cell c t = cell c s) ∧
        (∀ c, c ∈ j.cells → (j.phase = 0 → (cell c t).phase = .drain) ∧
          (j.phase = 1 → (cell c t).phase = .absorb ∧ (cell c t).run = false ∧ (cell c t).pc = 0) ∧
          (2 ≤ j.phase → (cell c t).phase = .release))) ∧
      (j.phase = 0 → allIn .drain j s = true → ∃ t, exec .drainDone s = .next t ∧ rd F.RST_STATE.PHASE t = 1 ∧
        t.faults.job = some { j with phase := 1 } ∧ t.cells = s.cells) ∧
      (∀ quiet, quiet < 128 → exec (.absorbDone quiet) s = .next s) ∧
      (∀ quiet, 128 ≤ quiet → j.phase = 1 → allIn .absorb j s = true → s.mesh.placing = [] → j.work = [] →
        ∃ t k, exec (.absorbDone quiet) s = .next t ∧ t.faults.job = some k ∧
          ((rd F.RST_STATE.PHASE t = 2 ∧ k.phase = 2) ∨ (k.phase = 1 ∧ k.work.length = (worksOf j s).length)) ∧
          (worksOf j s = [] → k.phase = 2)) ∧
      (j.phase = 2 → allIn .release j s = true → s.mesh.tabWrites = [] →
        ∃ t, exec .releaseDone s = .next t ∧ t.faults.job = none ∧ rd F.RST_STATE.BUSY t = 0 ∧ rd F.RST_STATE.PHASE t = 0 ∧
          4 ∉ t.sched.fw ∧ ∀ c ∈ j.cells, (cell c t).phase = .none)) ∧
    (∀ c w, c < cellCount → fieldOf w 28 4 = 2 → modelOfCell c s = some (fieldOf w 24 4) → ∃ t, exec (.ringFill c w) s = .next t ∧
      fieldOf (cell c t).ring (2 * fieldOf w 14 10) 2 = fieldOf w 12 2 ∧ (cell c t).pc = (cell c s).pc ∧
      ∀ d, d ≠ c → cell d t = cell d s) ∧
    (∀ c w, c < cellCount → fieldOf w 28 4 = 3 → ∃ t, exec (.slotFill c w) s = .next t ∧
      (bitAt w 27 = false → cellSlot c t % 2 ^ 27 = fieldOf w 0 27 ∧ cellSlot c t / 2 ^ 27 = cellSlot c s / 2 ^ 27) ∧
      (bitAt w 27 = true → cellSlot c t / 2 ^ 27 = fieldOf w 0 27 ∧ cellSlot c t % 2 ^ 27 = cellSlot c s % 2 ^ 27) ∧
      slotNo t = slotNo s ∧ ∀ d, d ≠ c → cell d t = cell d s) ∧
    (rd F.RST_STATE.BUSY s = 0 → rd F.RST_CTRL.TARGET s < cellCount → ∃ t, exec .wholeReset s = .next t ∧ t.fuses = s.fuses ∧ t.free = s.free ∧ t.pending = s.pending ∧
      (∀ a, byteAt t.cellMem a = 0 ∧ byteAt t.stackMem a = 0 ∧ byteAt t.sec.mbx a = 0) ∧ (∀ c, cell c t = Cell.reset) ∧
      ∀ o, o ∉ [O.PIN_STATE, O.COOL_STATE, O.PAIR_STATE, O.PWR_STATE] → reg o t = resetWord o) ∧
    ((rd F.RST_STATE.BUSY s = 1 ∨ cellCount ≤ rd F.RST_CTRL.TARGET s) → ∃ t, exec .wholeReset s = .next t ∧ rd F.RST_STS.REFUSED t = 1 ∧ t.faults = s.faults ∧ t.cells = s.cells)

/-- FEED_LOST of a feed that is OK: it is not OK, and its warning is set. FEED_OK of one that is not: it is OK, and at a module without
power the module has power again and nothing of before but fuses and journal: no fatal event stands, all memory reads as unwritten.
FEED_SHARE outside the band, not warned yet: PWR_STS.SHARE. PHASE_FAULT of a working phase: it is marked, the field has one working
phase less, and both status bits are set. POWER_LEVEL_ADJUST after 64 samples at a field not gated whole with a phase failed: up one
level (to 15) past the limit or sagging throughout, down one below 90% of it, else unchanged, and a new period begins; at one gated
whole with a phase failed the level stays. CAP_ADJUST after 64 samples: G_CAP up (to 15) above the ceiling, down below 95% of it, else
unchanged. PWR_CAP_WRITE of 12,000 to 36,000 W: taken, with no other register; else refused. VCM_RECOVERED of a recovered event in
service: the event is over and its hold gone. VOLTAGE_SAMPLE: the sample is counted and the ceiling's period advances. Of memory it
changes no more than page list entries of sequence slots. (R375, R376, R377, R378, R382, R383, R384, R385, R386, R391, R392, R407) -/
def Obligations.FeedsAndPowerLevels : Prop :=
  ∀ s : State, s.TablesWf →
    (∀ n, n < 2 →
      (feedIsOk n s = true → ∃ t, exec (.feedLost n) s = .next t ∧ feedIsOk n t = false ∧ rd (feedSts n) t = 1) ∧
      (feedIsOk n s = false → s.power.off = false → ∃ t, exec (.feedOk n) s = .next t ∧ feedIsOk n t = true ∧ t = { s with win := t.win }) ∧
      (feedIsOk n s = false → s.power.off = true → ∃ t, exec (.feedOk n) s = .next t ∧ feedIsOk n t = true ∧ t.power.off = false ∧
        t.faults.stopped = false ∧ t.fuses = s.fuses ∧ t.boot.area0 = s.boot.area0 ∧ t.boot.area1 = s.boot.area1 ∧
        ∀ a, byteAt t.cellMem a = 0 ∧ byteAt t.stackMem a = 0)) ∧
    (shareOutside s = true → s.power.shareOff = false → ∃ t, exec .feedShare s = .next t ∧ rd F.PWR_STS.SHARE t = 1 ∧
      t.power.shareOff = true) ∧
    (∀ f p, f < 72 → p < 16 → phaseFailed f p s = false → 1 ≤ phases f s → ∃ t, exec (.phaseFault f p) s = .next t ∧
      phaseFailed f p t = true ∧ phases f t = phases f s - 1 ∧ rd F.PWR_STS.PHASE_FAIL t = 1 ∧ rd (F.FLD_PWR_STS.PHASE_FAIL f) t = 1) ∧
    (∀ f, f < 72 → 64 ≤ (fieldPower f s).vclCount → ((gateLevel f s).1 ≠ 16 ∨ 16 ≤ phases f s) → ∃ t, exec (.powerLevelAdjust f) s = .next t ∧
      let x := fieldPower f s
      let lim := 48 * phases f s * x.vclCount
      (fieldPower f t).vclCount = 0 ∧ (fieldPower f t).vclSum = 0 ∧
      ((lim < x.vclSum ∨ x.sagged = x.vclCount) → (fieldPower f t).gPwr = min 15 (x.gPwr + 1)) ∧
      (x.vclSum ≤ lim → x.sagged ≠ x.vclCount → 10 * x.vclSum < 9 * lim → (fieldPower f t).gPwr = x.gPwr - 1) ∧
      (x.vclSum ≤ lim → x.sagged ≠ x.vclCount → 9 * lim ≤ 10 * x.vclSum → (fieldPower f t).gPwr = x.gPwr)) ∧
    (∀ f, f < 72 → 64 ≤ (fieldPower f s).vclCount → (gateLevel f s).1 = 16 → phases f s < 16 →
      ∃ t, exec (.powerLevelAdjust f) s = .next t ∧ (fieldPower f t).gPwr = (fieldPower f s).gPwr ∧ (fieldPower f t).vclCount = 0) ∧
    (64 ≤ s.power.capCount → ∃ t, exec .capAdjust s = .next t ∧ t.power.capCount = 0 ∧
      let cap := rd F.PWR_CAP.VALUE s * s.power.inputs.length
      (cap < inputSum s → rd F.PWR_STATE.G_CAP t = min 15 (rd F.PWR_STATE.G_CAP s + 1)) ∧
      (inputSum s ≤ cap → 100 * inputSum s < 95 * cap → rd F.PWR_STATE.G_CAP t = rd F.PWR_STATE.G_CAP s - 1) ∧
      (inputSum s ≤ cap → 95 * cap ≤ 100 * inputSum s → rd F.PWR_STATE.G_CAP t = rd F.PWR_STATE.G_CAP s)) ∧
    (∀ v : Word, let w := fieldOf v 0 16
      (12000 ≤ w → w ≤ 36000 → ∃ t, exec (.pwrCapWrite v) s = .next t ∧ rd F.PWR_CAP.VALUE t = w ∧ t = { s with win := t.win } ∧
        ∀ o, o ≠ O.PWR_CAP → reg o t = reg o s) ∧
      ((w < 12000 ∨ 36000 < w) → ∃ t, exec (.pwrCapWrite v) s = .next t ∧ rd F.PWR_CAP.VALUE t = rd F.PWR_CAP.VALUE s ∧
        rd F.PWR_STS.CAP_REFUSED t = 1)) ∧
    (∀ e, s.power.event = some e → e.done = true → coolStop s = false → s.faults.stopped = false →
      ∃ t, exec .vcmRecovered s = .next t ∧ t.power.event = none ∧ 2 ∉ t.sched.fw) ∧
    (∀ v : VoltSample, ∃ t, exec (.voltageSample v) s = .next t ∧ t.now = v.t ∧ t.power.samples = s.power.samples + 1 ∧
      t.power.capCount = s.power.capCount + 1 ∧ t.cellMem = s.cellMem ∧ keepsStack s t)

/-- Code T means T/2 degrees. THERMAL_SAMPLE: its instant is taken and it is counted; no cell memory changes, and of stack memory none
but page list entries of sequence slots. At a module not stopped, a stack at 105 degrees or a field with an agreed pair reading of code
220 or more: fatal, cause 0x09, marked critical. With nothing that hot: no fatal event, and a field all whose readings are kept and
whose pairs are not suspect shows the largest reading as T_f, and its G_therm is one more (to 15) from code 190, one less below 186 when
unchanged for 8 samples, else unchanged. PAIR_SUSPECT of a pair that disagreed at 8 samples: it alone becomes suspect, with its status
bits. NO_PAIRS after 8 samples without a value: G_therm at least 8 and the status bits. THERMAL_TRIP: latched, and PWR_OFF_REQ asserted.
PWR_OFF_REQ: asserted after a critical sample, else nothing. INLET outside codes 50 to 90, not warned yet: THR_STS.INLET; else nothing.
HISTORY 60 s after the last: its record waits for the journal. (R393, R394, R395, R396, R397, R398, R399, R406, R408, R418) -/
def Obligations.TemperaturesThrottleWarnAndStop : Prop :=
  ∀ s : State, s.TablesWf →
    (∀ v : ThermSample, ∃ t, exec (.thermalSample v) s = .next t ∧ t.now = v.t ∧ t.power.thermals = s.power.thermals + 1 ∧
      t.cellMem = s.cellMem ∧ keepsStack s t ∧
      let ref := if 0 ≤ v.inlet ∧ v.inlet ≤ 200 then v.inlet.toNat else 40
      let kept := fun (f p : Nat) (r : Nat × Nat) =>
        discarded ref (f * 32 + p * 2) r.1 s = false ∧ discarded ref (f * 32 + p * 2 + 1) r.2 s = false
      (s.faults.stopped = false → ((v.hbm.take 12).any fun x => decide (105 ≤ x)) = true →
        stoppedBy 0x09 0 t ∧ t.power.critical = true) ∧
      (s.faults.stopped = false → ∀ f rs p r, f < 72 → p < 16 → v.pairs[f]? = some rs → rs[p]? = some r → kept f p r →
        220 ≤ max r.1 r.2 → stoppedBy 0x09 0 t ∧ t.power.critical = true) ∧
      ((∀ rs ∈ v.pairs, ∀ r ∈ rs, r.1 < 216 ∧ r.2 < 216) → (∀ x ∈ v.hbm, x < 105) → t.faults = s.faults ∧
        ∀ f rs, f < 72 → v.pairs[f]? = some rs → rs ≠ [] →
          (∀ p r, p < 16 → rs[p]? = some r → kept f p r ∧ suspect f p s = false) →
          let T := (rs.take 16).foldl (fun m r => max m (max r.1 r.2)) 0
          let x := fieldPower f s
          rd (F.FLD_TEMP.T f) t = T ∧ (fieldPower f t).gTherm =
            if 190 ≤ T then min 15 (x.gTherm + 1) else if T < 186 ∧ 8 ≤ x.sinceChange + 1 then x.gTherm - 1 else x.gTherm)) ∧
    (∀ f p, f < 72 → p < 16 → suspect f p s = false → 8 ≤ Table.get (fun _ => 0) (fieldPower f s).disagree p →
      ∃ t, exec (.pairSuspect f p) s = .next t ∧ suspect f p t = true ∧ (∀ q, q < 16 → q ≠ p → suspect f q t = suspect f q s) ∧
        rd (F.FLD_PAIR.SUSPECT f p) t = 1 ∧ rd F.THR_STS.PAIR_SUSPECT t = 1 ∧ rd (F.FLD_PWR_STS.PAIR_SUSPECT f) t = 1 ∧
        t.power = s.power ∧ t.cellMem = s.cellMem ∧ t.stackMem = s.stackMem) ∧
    (∀ f, f < 72 → 8 ≤ (fieldPower f s).noPairs → (fieldPower f s).noPairsHold = false → ∃ t, exec (.noPairs f) s = .next t ∧
      (fieldPower f t).gTherm = max 8 (fieldPower f s).gTherm ∧ (fieldPower f t).noPairsHold = true ∧
      (∀ g, g ≠ f → fieldPower g t = fieldPower g s) ∧ rd F.THR_STS.NO_PAIRS t = 1 ∧ rd (F.FLD_PWR_STS.NO_PAIRS f) t = 1 ∧
      t.cellMem = s.cellMem ∧ t.stackMem = s.stackMem) ∧
    (∃ t, exec .thermalTrip s = .next t ∧ t.power.tripCell = true ∧ t.power.pwrOff = true ∧ rd F.PIN_STATE.PWR_OFF_REQ t = 1 ∧
      ∀ o, o ≠ O.PIN_STATE → reg o t = reg o s) ∧
    (s.power.critical = true → ∃ t, exec .pwrOffReq s = .next t ∧ t.power.pwrOff = true ∧ rd F.PIN_STATE.PWR_OFF_REQ t = 1 ∧
      ∀ o, o ≠ O.PIN_STATE → reg o t = reg o s) ∧
    (s.power.critical = false → exec .pwrOffReq s = .next s) ∧
    (let T := rd F.COOL_TEMP.INLET s;
      ((T < 50 ∨ 90 < T) → s.power.inletOff = false → ∃ t, exec .inlet s = .next t ∧ rd F.THR_STS.INLET t = 1 ∧
        t.power = { s.power with inletOff := true } ∧ t.cellMem = s.cellMem ∧ t.stackMem = s.stackMem) ∧
      (50 ≤ T → T ≤ 90 → exec .inlet s = .next s)) ∧
    (∀ t0, s.power.historyAt + 60000000 * usCycles ≤ t0 → s.boot.failed = false → ∃ t st, exec (.history t0) s = .next t ∧
      t.now = t0 ∧ t.win = s.win ∧ t.power.historyAt = t0 ∧
      t.boot.waiting = s.boot.waiting ++ [⟨0x0D, [rd F.THR_MAX.T s, rd F.THR_MAX.FIELD s,
        ((List.range 12).map fun n => rd (F.HS_STATE.TEMP n) s).foldl max 0, rd F.PWR_IN.VALUE s,
        cnt F.HOLD_GATE_CNT s - s.power.gateBase, s.power.sensorFaults], st, false, .none⟩])

/-- FLOW_PULSE high for less than 5 microseconds: nothing; within 250 of the last edge: noise, counted, PIN_STS.FLOW_NOISE; else an
accepted pulse. FLOW_UPDATE: the pulses since the last join the 16 windows; FLOW_K 0 shows FLOW 0 and not ARMED and ends every run of
updates, else FLOW as R401 gives it, and below STOPPING the state follows F. FLOW_NOISE after a second: its event, and the count starts
afresh. FLOW_PULSE_TIMEOUT when ARMED and watched without a pulse for 50 ms, and COOL_OK low for 1 ms: STOPPING, COOL_STOP_CNT one more,
THR_STS.COOL_STOP. COOL_OK below 10 microseconds or of the same level: nothing but time; below 1 ms a counted glitch; else the level is
taken, and high lets a waiting start go on. COOLANT_STOPPED from STOPPING, once no step is in flight or 2 ms have passed: STOPPED with
its hold. COOLANT_RESUME when ready: NORMAL, hold gone. Both and THR_RELOC keep stack memory but page list entries of sequence slots.
COOL_CFG_WRITE of 0, of 200 to 1,333, of another value: off, taken, refused with THR_STS.CFG. THR_RELOC without GO writes CELL; with GO
of a running image with a usable variant it begins a restart job that installs it; else RELOC_REFUSED. That a command whose conditions
fail changes nothing is log entry 2. (R400, R401, R402, R403, R404, R405, R486, R488, R491, R499) -/
def Obligations.FlowAndCoolantStop : Prop :=
  ∀ (s : State) (t0 : Nat), s.TablesWf →
    (∀ h, h < 5000 → exec (.flowPulse t0 h) s = .next s) ∧
    (∀ h, 5000 ≤ h → ∃ t, exec (.flowPulse t0 h) s = .next t ∧ t.now = t0 ∧ t.mgmt.flowEdge = some t0 ∧
      ((∃ e, s.mgmt.flowEdge = some e ∧ t0 < e + 250 * usCycles) → t.power = s.power ∧ rd F.PIN_STS.FLOW_NOISE t = 1 ∧
        cnt F.FLOW_NOISE_CNT t = (cnt F.FLOW_NOISE_CNT s + 1) % 2 ^ 64) ∧
      ((∀ e, s.mgmt.flowEdge = some e → e + 250 * usCycles ≤ t0) → t.win = s.win ∧
        t.power = { s.power with pulseNow := s.power.pulseNow + 1, lastPulse := some t0 })) ∧
    (∃ t, exec .flowUpdate s = .next t ∧ t.power.pulses = (s.power.pulseNow :: s.power.pulses).take 16 ∧ t.power.pulseNow = 0 ∧
      t.cellMem = s.cellMem ∧ t.stackMem = s.stackMem ∧
      (flowK s = 0 → rd F.COOL_STATE.FLOW t = 0 ∧ rd F.COOL_STATE.ARMED t = 0 ∧ coolSt t = coolSt s ∧ t.power.runs = ⟨0, 0, 0, 0⟩) ∧
      (flowK s ≠ 0 → rd F.COOL_STATE.FLOW t = satN 10 (nearest (total t.power.pulses * 600000) (256 * flowK s)) ∧
        coolSt t = if 3 ≤ coolSt s then coolSt s else nextCool (coolSt s) t.power.runs)) ∧
    (∀ a, s.mgmt.noiseAt = some a → a + 1000000 * usCycles ≤ t0 → s.mgmt.events_.length < 64 → ∃ t st,
      exec (.flowNoise t0) s = .next t ∧ t.mgmt.noiseAt = none ∧ t.mgmt.noiseSince = 0 ∧ t.win = s.win ∧
        t.mgmt.events_ = s.mgmt.events_ ++ [⟨0x29, st, s.mgmt.noiseSince % 2 ^ 32, false⟩]) ∧
    (on F.COOL_STATE.ARMED s = true → (∀ p, s.power.lastPulse = some p → p + 50000 * usCycles ≤ t0) → coolWatched s = true →
      coolStop s = false → ∃ t, exec (.flowPulseTimeout t0) s = .next t ∧ coolSt t = 3 ∧ rd F.COOL_STATE.ARMED t = 0 ∧
        t.power.coolTrigger = t0 ∧ rd F.THR_STS.COOL_STOP t = 1 ∧
        cnt F.COOL_STOP_CNT t = (cnt F.COOL_STOP_CNT s + 1) % 2 ^ 64) ∧
    (∀ level h,
      (s.boot.attempt = none → (h < 10 ∨ level = s.mgmt.coolOk) → exec (.coolOk level h t0) s = .next { s with now := t0 }) ∧
      (s.boot.attempt = none → 10 ≤ h → h < 1000 → level ≠ s.mgmt.coolOk → ∃ t, exec (.coolOk level h t0) s = .next t ∧
        t.mgmt.coolOk = s.mgmt.coolOk ∧ rd F.PIN_STS.COOL_GLITCH t = 1 ∧
        cnt F.COOL_GLITCH_CNT t = (cnt F.COOL_GLITCH_CNT s + 1) % 2 ^ 64) ∧
      (s.boot.attempt = none → 1000 ≤ h → level ≠ s.mgmt.coolOk → ∃ t, exec (.coolOk level h t0) s = .next t ∧
        t.mgmt.coolOk = level ∧ rd F.PIN_STATE.COOL_OK t = bitN level ∧ rd F.COOL_STATE.COOL_OK t = bitN level ∧
        (level = true → coolSt t = coolSt s) ∧
        (level = false → coolWatched s = true → coolStop s = false → coolSt t = 3 ∧ rd F.THR_STS.COOL_STOP t = 1)) ∧
      (∀ i, s.boot.attempt = some i → s.mgmt.coolOk = false → 1000 ≤ h → ∃ u,
        exec (.coolOk true h t0) s = .next (startSteps4 i u) ∧ u.mgmt.coolOk = true ∧ rd F.PIN_STATE.COOL_OK u = 1 ∧
        u.boot = s.boot)) ∧
    (coolSt s = 3 → (inFlight s = [] ∨ s.power.coolTrigger + 2000 * usCycles ≤ s.now) → ∃ t, exec .coolantStopped s = .next t ∧ coolSt t = 4 ∧ 3 ∈ t.sched.fw ∧ t.cellMem = s.cellMem ∧
      keepsStack s t) ∧
    ((coolSt s ≠ 3 ∨ (inFlight s ≠ [] ∧ s.now < s.power.coolTrigger + 2000 * usCycles)) → exec .coolantStopped s = .next s) ∧
    (coolReady s = true → ∃ t, exec .coolantResume s = .next t ∧ coolSt t = 0 ∧ 3 ∉ t.sched.fw ∧ rd F.THR_STS.COOL_RESUME t = 1 ∧
      t.cellMem = s.cellMem ∧ keepsStack s t) ∧
    (coolReady s = false → exec .coolantResume s = .next s) ∧
    (∀ v : Word, let k := fieldOf v 0 11
      (k = 0 → ∃ t, exec (.coolCfgWrite v) s = .next t ∧ flowK t = 0 ∧ rd F.COOL_STATE.ARMED t = 0 ∧ rd F.THR_STS.CFG t = 1) ∧
      (200 ≤ k → k ≤ 1333 → ∃ t, exec (.coolCfgWrite v) s = .next t ∧ flowK t = k ∧ t = { s with win := t.win } ∧
        ∀ o, o ≠ O.COOL_CFG → reg o t = reg o s) ∧
      (0 < k → (k < 200 ∨ 1333 < k) → ∃ t, exec (.coolCfgWrite v) s = .next t ∧ flowK t = flowK s ∧ rd F.THR_STS.CFG t = 1)) ∧
    (∀ v : Word, let c := fieldOf v 0 18
      (bitAt v 31 = false → ∃ t, exec (.thrReloc v) s = .next t ∧ rd F.THR_RELOC.CELL t = c ∧ t = { s with win := t.win } ∧
        ∀ o, o ≠ O.THR_RELOC → reg o t = reg o s) ∧
      (bitAt v 31 = true → (cellCount ≤ c ∨ (∃ j, s.faults.job = some j ∧ j.models ≠ []) ∨ s.faults.stopped = true) →
        ∃ t, exec (.thrReloc v) s = .next t ∧ rd F.THR_STS.RELOC_REFUSED t = 1 ∧ t.faults = s.faults ∧ t.cells = s.cells) ∧
      (∀ m i, bitAt v 31 = true → c < cellCount → s.faults.job = none → s.faults.stopped = false →
        ((runningModels s).find? fun n => (image n s).cells.any fun x => (clusterCells c).contains x) = some m →
        (image m s).t36 = false → variantFor m (fieldOfCell c) (rowOf c) (colOf c / 32) s = some i →
        ∃ t j, exec (.thrReloc v) s = .next t ∧ t.faults.job = some j ∧ (m, i) ∈ j.variants ∧ m ∈ j.models ∧
          t.power.relocating = some (m, i) ∧ t.cellMem = s.cellMem ∧ keepsStack s t))

/-- START that may not begin: nothing. One that finds no device: BOOT_REASON 1, and the third such failure ends in minimal mode. One
whose steps 1 to 3 pass while COOL_OK is not asserted waits in step 3. COOL_OK_TIMEOUT, START_TIMEOUT: of a waiting start, its attempt
fails with reason 0x10, 0x0F; without one, nothing. STAGE_IMAGE, STAGE_START_RECORD (a write of STAGE_CTRL with GO and TARGET 1),
STAGE_JOURNAL_DUMP while the mailbox answers and no operation is in progress: TARGET, BUSY, and for the first two of a right size the
read of the data from STAGE_SRC begins. STAGE_DONE once the data have come: of a failed read, ERROR 5; else the data's error, or 4 of a
failed device; with an error nothing is written, without one DONE; before the data have come, nothing. BIST_WAVE of the wave in progress
below 8: WAVE one higher, the results of the wave's units kept, those of a field that reached 95 degrees incomplete; with another wave:
nothing. CLR: no failed starts, a CLEAR record waits. RESTART from MINIMAL or HALTED: whole reset, once the waiting records are written;
else nothing. SHUTDOWN without GO writes its two options; with GO outside READY: SHUT_REFUSED; in READY: MODE leaves READY, admission
ends. (R415, R422, R430, R431, R432, R433, R434, R435, R436, R437, R491) -/
def Obligations.StartsAndShutdowns : Prop :=
  ∀ s : State, s.TablesWf →
    (∀ i : StartInput,
      (mayStart s = false → exec (.start i) s = .next s) ∧
      (mayStart s = true → i.norOk = false → 2 ≤ s.boot.ramFails → ∃ t, exec (.start i) s = .next t ∧ rd F.BOOT_STATE.MODE t = 2 ∧
        rd F.BOOT_STATE.STEP t = 0 ∧ rd F.BOOT_REASON.CODE t = 1 ∧ rd F.BOOT_STS.REFUSED t = 1 ∧ 7 ∈ t.sched.fw) ∧
      (mayStart s = true → i.norOk = false → s.boot.ramFails < 2 → ∃ t, exec (.start i) s = .next t ∧ rd F.BOOT_STATE.MODE t = 0 ∧
        rd F.BOOT_STATE.STEP t = 0 ∧ t.boot.ramFails = s.boot.ramFails + 1 ∧ t.fuses = s.fuses) ∧
      (mayStart s = true → (startSteps12 i s).1 = true → i.rails = true → i.plls = true → (startSteps12 i s).2.mgmt.coolOk = false →
        ∃ t, exec (.start i) s = .next t ∧ rd F.BOOT_STATE.STEP t = 3 ∧ rd F.BOOT_STATE.MODE t = 0 ∧ t.boot.attempt = some i)) ∧
    (∀ i, s.boot.attempt = some i → exec .coolOkTimeout s = .next (failStart 0x10 0 s) ∧
      exec .startTimeout s = .next (failStart 0x0F 0 s)) ∧
    (s.boot.attempt = none → exec .coolOkTimeout s = .next s ∧ exec .startTimeout s = .next s) ∧
    (mailboxUp s = true → on F.STAGE_STATE.BUSY s = false →
      let begun := fun (n : Nat) (t : State) => rd F.STAGE_CTRL.TARGET t = n ∧ on F.STAGE_STATE.BUSY t = true ∧ t.boot.stageBad = false
      let reads := fun (n : Nat) (t : State) =>
        if stageSizeBad n s then t.boot.stageData = some [] ∧ t.ocl = s.ocl
        else t.boot.stageData = none ∧ fetchOf .stage t = some ⟨.stage, addr64 O.STAGE_SRC O.STAGE_SRC_HI s, rd F.STAGE_LEN.VALUE s, []⟩
      (∀ b, ∃ t, exec (.stageImage b) s = .next t ∧ begun 0 t ∧ reads 0 t ∧ t.boot.staged = some (.image b)) ∧
      (∀ v : Word, (bitAt v 31 = true → fieldOf v 0 2 = 1 → ∃ t, exec (.stageStartRecord v) s = .next t ∧ begun 1 t ∧ reads 1 t ∧
          t.boot.staged = some .record) ∧
        (bitAt v 31 = false ∨ fieldOf v 0 2 ≠ 1 → exec (.stageStartRecord v) s = .next s)) ∧
      (∃ t, exec .stageJournalDump s = .next t ∧ begun 2 t ∧ t.ocl = s.ocl ∧ t.boot.staged = some .dump ∧ t.boot.stageData = some [])) ∧
    (on F.STAGE_STATE.BUSY s = true → ∀ e bs,
      (s.boot.stageData = none → exec (.stageDone e) s = .next s) ∧
      (s.boot.stageData = some bs → s.boot.stageBad = true → ∃ t, exec (.stageDone e) s = .next t ∧
        t.boot = { s.boot with staged := none, stageData := none, stageBad := false } ∧
        (reg O.STAGE_STATE t).toNat = 4 + 256 * 5 ∧ rd F.BOOT_STS.STAGE_DONE t = 1) ∧
      (∀ x, s.boot.stageData = some bs → s.boot.stageBad = false → s.boot.staged = some x →
        let k := if stageError x bs s = 0 ∧ e = 4 then 4 else stageError x bs s
        ∃ t, exec (.stageDone e) s = .next t ∧ t.boot.staged = none ∧ t.boot.stageData = none ∧ rd F.BOOT_STS.STAGE_DONE t = 1 ∧
          (reg O.STAGE_STATE t).toNat = (if k = 0 then 2 else 4 + 256 * k) ∧
          (k ≠ 0 → t.boot = { s.boot with staged := none, stageData := none }))) ∧
    (∀ w rs, rd F.BOOT_STATE.MODE s = 3 → s.boot.shutdown = 4 → s.faults.stopped = false →
      (rd F.BOOT_STATE.WAVE s = w → w < 8 → ∃ t, exec (.bistWave w rs) s = .next t ∧ rd F.BOOT_STATE.WAVE t = w + 1 ∧
        t.boot.bist = s.boot.bist ++ waveResults w rs s ∧ t.boot.bistHot = [] ∧
        t.boot.bistOk = (s.boot.bistOk && (waveResults w rs s).all keepsOk)) ∧
      (rd F.BOOT_STATE.WAVE s ≠ w → exec (.bistWave w rs) s = .next s)) ∧
    (mailboxUp s = true → ∃ t, exec .clr s = .next t ∧ rd F.BOOT_STATE.FAILS t = 0 ∧ t.boot.ramFails = 0 ∧
      (s.boot.failed = false → ∃ st, t.boot.waiting = s.boot.waiting ++ [⟨0x10, [], st, false, .none⟩]) ∧
      ∀ o, o ≠ O.BOOT_STATE → reg o t = reg o s) ∧
    (mailboxUp s = true → (rd F.BOOT_STATE.MODE s = 2 ∨ rd F.BOOT_STATE.MODE s = 4) →
      exec .restart s = .next (wholeReset (writeWaiting s))) ∧
    (rd F.BOOT_STATE.MODE s ≠ 2 → rd F.BOOT_STATE.MODE s ≠ 4 → exec .restart s = .next s) ∧
    (∀ v : Word, ∃ t, exec (.shutdown v) s = .next t ∧
      (bitAt v 0 = false → t = { s with win := t.win } ∧ rd F.SHUT_CTRL.SKIP_BIST t = fieldOf v 2 1 ∧
        rd F.SHUT_CTRL.POWER_OFF t = fieldOf v 1 1 ∧ ∀ o, o ≠ O.SHUT_CTRL → reg o t = reg o s) ∧
      (bitAt v 0 = true → ready s = false → rd F.BOOT_STS.SHUT_REFUSED t = 1 ∧ t.boot = s.boot ∧
        rd F.BOOT_STATE.MODE t = rd F.BOOT_STATE.MODE s) ∧
      (bitAt v 0 = true → ready s = true → rd F.BOOT_STATE.MODE t = 3 ∧ rd F.SVC_CTRL.ADMIT t = 0))

/-- JOURNAL_WRITE that reads back, with a record waiting that fits the active area: it leaves the queue and stands last in that area
with the next SEQ, and what follows its durability happens: PWR_OFF_REQ after a thermal fatal event, HALTED after a shutdown, the trip
cell cleared. One that does not read back: the area's records stay and it has one more failed program; with both areas failed the
journal has failed and BOOT_STS.JRNL_FAIL is set, else the record still waits. Nothing waiting: no change. PRESS_COMPLETE while
PRESSING: the other area becomes active with what was recorded meanwhile appended, the old one is RETIRED and erases, BOOT_STS.PRESS is
set; else no change. JOURNAL_ERASE_DONE while ERASING: the area not active is empty and erased, but for its failed programs, and
pressing into it starts at once where the active one calls for it; else no change. None changes a byte of cell memory. That a command
with nothing to do changes nothing is the model's choice (log entry 2). (R416, R417, R419, R420, R437) -/
def Obligations.JournalWritesPressesAndErases : Prop :=
  ∀ s : State, s.TablesWf →
    let n := activeArea s
    let a := area n s
    (s.boot.waiting = [] → ∀ ok, exec (.journalWrite ok) s = .next s) ∧
    (∀ p rest, s.boot.waiting = p :: rest → journalUp s = true → fits a p.type = true →
      (∃ t u, exec (.journalWrite true) s = .next t ∧ t = afterDurable p.after u ∧ u.boot.waiting = rest ∧
        (area n u).recs = a.recs ++ [⟨lastSeq a + 1, p.type, rd F.START_CNT.VALUE s % 65536, p.stamp, fixPayload a p.type p.payload⟩] ∧
        u.cellMem = s.cellMem ∧ u.stackMem = s.stackMem ∧
        (p.after = .none → t = u) ∧
        (p.after = .thermalFatal → t.power.pwrOff = true ∧ rd F.PIN_STATE.PWR_OFF_REQ t = 1) ∧
        (p.after = .shutdown → rd F.BOOT_STATE.MODE s = 3 → rd F.BOOT_STATE.MODE t = 4) ∧
        (p.after = .trip → t.power.tripCell = false)) ∧
      (∃ t, exec (.journalWrite false) s = .next t ∧ (area n t).recs = a.recs ∧ (area n t).fails = a.fails + 1 ∧
        (3 ≤ a.fails + 1 → areaFailed (area (1 - n) s) = true → t.boot.failed = true ∧ rd F.BOOT_STS.JRNL_FAIL t = 1) ∧
        ((a.fails + 1 < 3 ∨ areaFailed (area (1 - n) s) = false) → t.boot.failed = s.boot.failed ∧
          t.boot.waiting = s.boot.waiting))) ∧
    (on F.JRNL_STATE.PRESSING s = true → ∃ t, exec .pressComplete s = .next t ∧ activeArea t = 1 - n ∧
      area (1 - n) t = { appendAll s.boot.pressing (area (1 - n) s) with state := .active } ∧
      area n t = { a with state := .retired } ∧ rd F.JRNL_STATE.PRESSING t = 0 ∧ rd F.JRNL_STATE.ERASING t = 1 ∧
      rd F.BOOT_STS.PRESS t = 1 ∧ t.boot.waiting = s.boot.waiting ∧ t.cellMem = s.cellMem ∧ t.stackMem = s.stackMem) ∧
    (on F.JRNL_STATE.PRESSING s = false → exec .pressComplete s = .next s) ∧
    (on F.JRNL_STATE.ERASING s = true → ∃ t, exec .journalEraseDone s = .next t ∧ rd F.JRNL_STATE.ERASING t = 0 ∧
      area n t = a ∧ t.cellMem = s.cellMem ∧ t.stackMem = s.stackMem ∧
      ((wantsPress s = false ∨ on F.JRNL_STATE.PRESSING s = true) →
        area (1 - n) t = { JArea.reset with fails := (area (1 - n) s).fails } ∧
        rd F.JRNL_STATE.PRESSING t = rd F.JRNL_STATE.PRESSING s) ∧
      (wantsPress s = true → on F.JRNL_STATE.PRESSING s = false → (area (1 - n) s).fails < 3 →
        rd F.JRNL_STATE.PRESSING t = 1 ∧ (area (1 - n) t).gen = a.gen + 1 ∧ (area (1 - n) t).state = .opening)) ∧
    (on F.JRNL_STATE.ERASING s = false → exec .journalEraseDone s = .next s)

/-- At a mailbox that answers and is not busy. ATTEST that can sign: DONE, SEC_STS.ATTESTED; under the boot ROM alone: error 3.
KEM_START that can sign: a fresh key is held, LEN 6,964. KEM_FINISH without a key: error 2; with one: next epoch, keys installed, LEN
36, the key gone. KEM_SWITCH with keys ready: the other slot. KEM_KEY_EXPIRY: the key is gone. IDENTITY: 76 bytes, serial number and
key. SVN_COMMIT of a higher version outside trial and fallback: fused; else error 2. ZEROISE while one runs: error 1; in STARTING: error
3; in READY and MINIMAL: every byte of cell memory is zero, and in READY the mailbox buffer and the sequence slots are empty and
admission ends; in HALTED: done at once. ZEROISE_DONE: done, hold gone, ZERO_PART where a stack was left out. IDENTITY_BUILT: BUILT.
RELEASE_FLIT of a listed slot: the granules of its run in that cell are zero, other cells' memory stays. PAGE_ZEROISE_DONE of a listed
page: its bytes zero, off the list, and free again, last in the free list, where the pool is enabled. That the last two change nothing
unlisted is log entry 2. (R193, R443, R446, R448, R450, R451, R452, R453, R454, R455, R456, R457) -/
def Obligations.MailboxCommandsAndZeroisation : Prop :=
  ∀ s : State, s.TablesWf → s.MemoryWf →
    (mailboxUp s = true → mbxBusy s = false →
      (romOnly s = false → mbxAddr s + 5952 ≤ 2 ^ 64 → signState s = 0 → ∃ t, exec .attest s = .next t ∧ rd F.MBX_STS.DONE t = 1 ∧
        rd F.MBX_STATE.ERROR t = 0 ∧ rd F.SEC_STS.ATTESTED t = 1 ∧ t.cellMem = s.cellMem ∧ t.stackMem = s.stackMem) ∧
      (romOnly s = true → ∃ t, exec .attest s = .next t ∧ rd F.MBX_STATE.ERROR t = 3 ∧ rd F.MBX_STS.ERR t = 1) ∧
      (starting s = false → romOnly s = false → signState s = 0 → ∃ t, exec .kemStart s = .next t ∧ rd F.MBX_STS.DONE t = 1 ∧
        rd F.MBX_STATE.LEN t = 6964 ∧ t.sec.kem = some s.sec.kemCount ∧ t.sec.kemCount = s.sec.kemCount + 1) ∧
      (starting s = false → s.sec.kem = none → ∃ t, exec .kemFinish s = .next t ∧ rd F.MBX_STATE.ERROR t = 2 ∧ t.sec = s.sec) ∧
      (∀ n, starting s = false → s.sec.kem = some n → nextEpoch s < 2 ^ 32 → ∃ t, exec .kemFinish s = .next t ∧ t.sec.kem = none ∧
        rd F.KEY_EPOCH.VALUE t = nextEpoch s ∧ t.sec.kemReady = true ∧ rd F.OCL_ENC.KEYS t = 1 ∧ rd F.MBX_STATE.LEN t = 36 ∧
        rd F.SEC_STS.KEYS t = 1) ∧
      (starting s = false → s.sec.kemReady = true → ∃ t, exec .kemSwitch s = .next t ∧
        rd F.OCL_ENC.TX_SLOT t = 1 - rd F.OCL_ENC.TX_SLOT s ∧ t.sec.kemReady = false ∧ t.sec.session = s.sec.sessionNext) ∧
      (∃ t, exec .identity s = .next t ∧ rd F.MBX_STATE.LEN t = 76 ∧ rd F.MBX_STS.DONE t = 1 ∧
        mbxRead 0 76 t = serialBytes s ++ identityKey) ∧
      (starting s = false → romOnly s = false → rd F.BOOT_STATE.TRIAL s = 0 → s.sec.fallback = false → s.fuses.svn < s.sec.svn →
        ∃ t, exec .svnCommit s = .next t ∧ t.fuses = { s.fuses with svn := s.sec.svn } ∧ rd F.SEC_STS.SVN t = 1) ∧
      (starting s = false → romOnly s = false → (rd F.BOOT_STATE.TRIAL s = 1 ∨ s.sec.fallback = true ∨ s.sec.svn ≤ s.fuses.svn) →
        ∃ t, exec .svnCommit s = .next t ∧ t.fuses = s.fuses ∧ rd F.MBX_STATE.ERROR t = 2) ∧
      (∀ mgmt, on F.ZERO_STATE.BUSY s = false →
        (rd F.BOOT_STATE.MODE s = 0 → ∃ t, exec (.zeroise mgmt) s = .next t ∧ rd F.MBX_STATE.ERROR t = 3 ∧ t.cellMem = s.cellMem) ∧
        (rd F.BOOT_STATE.MODE s = 1 ∨ rd F.BOOT_STATE.MODE s = 2 → ∃ t, exec (.zeroise mgmt) s = .next t ∧
          (∀ x, byteAt t.cellMem x = 0) ∧ rd F.ZERO_STATE.BUSY t = 1 ∧ rd F.MBX_STATE.BUSY t = 1 ∧ t.sec.kem = none ∧
          (rd F.BOOT_STATE.MODE s = 1 → (∀ x, byteAt t.sec.mbx x = 0) ∧ t.kv.seqs = [] ∧ rd F.SVC_CTRL.ADMIT t = 0 ∧ 5 ∈ t.sched.fw)) ∧
        (rd F.BOOT_STATE.MODE s = 4 → ∃ t, exec (.zeroise mgmt) s = .next t ∧ rd F.ZERO_STATE.BUSY t = 0 ∧
          rd F.MBX_STS.DONE t = 1 ∧ t.sec.kem = none))) ∧
    (mailboxUp s = true → on F.ZERO_STATE.BUSY s = true → ∀ mgmt, ∃ t, exec (.zeroise mgmt) s = .next t ∧
      rd F.MBX_STATE.ERROR t = 1 ∧ rd F.MBX_STS.ERR t = 1 ∧ t.sec = s.sec ∧ t.cellMem = s.cellMem) ∧
    exec .kemKeyExpiry s = .next { s with sec := { s.sec with kem := none, kemMsg := [] } } ∧
    (∀ mgmt, s.sec.wait = .zeroise mgmt → rd F.BOOT_STATE.MODE s ≠ 3 → ∃ t, exec .zeroiseDone s = .next t ∧
      rd F.ZERO_STATE.BUSY t = 0 ∧ t.sec.wait = .none ∧ t.sec.zeroised = true ∧ rd F.SEC_STS.ZERO_DONE t = 1 ∧ 5 ∉ t.sched.fw ∧
      rd F.MBX_STS.DONE t = 1 ∧ (rd F.ZERO_STATE.STACKS s ≠ 0 → rd F.SEC_STS.ZERO_PART t = 1)) ∧
    (s.sec.lowNext < treeSize → ∃ t, exec .identityBuilt s = .next t ∧ rd F.IDENT_STATE.BUILT t = 1) ∧
    (∀ c q env, (s.kv.releases.contains (c, q) = false → exec (.releaseFlit c ⟨q, env⟩) s = .next s) ∧
      (s.kv.releases.contains (c, q) = true → ∃ t, exec (.releaseFlit c ⟨q, env⟩) s = .next t ∧
        t.kv = { s.kv with releases := s.kv.releases.erase (c, q) } ∧ t.stackMem = s.stackMem ∧ t.svc = s.svc ∧
        (∀ b, (b < c * cellBytes ∨ (c + 1) * cellBytes ≤ b) → byteAt t.cellMem b = byteAt s.cellMem b) ∧
        (env.ue = [] → releaseEntry c q env s =
          fieldOf (readGranule c (releaseBase c s + q / 16) s) (32 * (q % 16)) 32) ∧
        let e := releaseEntry c q env s
        ∀ g ∈ granulesFrom (bitsOf e 0 15) (bitsOf e 15 15), g < exposed c s → granule c g t = 0)) ∧
    (∀ m p, ((s.kv.clearing.find? fun c => c.model == m && c.page == p) = none → exec (.pageZeroiseDone m p) s = .next s) ∧
      (∀ c, (s.kv.clearing.find? fun c => c.model == m && c.page == p) = some c → m < 16 → ∃ t, exec (.pageZeroiseDone m p) s = .next t ∧
        t.kv.clearing = s.kv.clearing.erase c ∧ t.cellMem = s.cellMem ∧
        let a := freeAddr m (rd (F.POOL_FREE.VALUE m) s) s
        (poolOn m s = true → freeListOf m t = freeListOf m s ++ [p] ∧ memNat t.stackMem a 4 = p % 2 ^ 28) ∧
        (poolOn m s = false → t.kv.freeList = s.kv.freeList) ∧
        ∀ b, ((pageElem m p 0 s ≤ b ∧ b < pageElem m p 0 s + elemBytes m s) ∨
            (pageSide m p 0 s ≤ b ∧ b < pageSide m p 0 s + sideBytes m s)) →
          (poolOn m s = false ∨ b < a ∨ a + 4 ≤ b) → byteAt t.stackMem b = 0))

/-- NRESET_ASSERT outside reset: whole reset, module in reset, no dynamic address, fuses kept; NRESET_RELEASE: reset ends, strap
sampled. RESET_SHORT outside reset: counted, PIN_STS.RESET_SHORT. NHOLD_EXT held below 100 ns or without a change: time only; within 1
microsecond of the last change: counted, PIN_STS.EXT_FAST; else taken, the count of beats restarts, and deassertion clears the latch.
EXT_STUCK when its conditions hold: the latch and both status bits. CELL_WIN_READ and CELL_WIN_WRITE while the page answers: BUSY:
REFUSED; else cell beyond 221,183: error 1; in an absent cluster: error 2; a write to a cell of a field that a model slot not FREE has
reserved: error 3; else BUSY, and the access waits while firmware holds the agent and is sent when not. CELL_WIN_TIMEOUT of a sent
access: error 5. CELL_WIN_AGENT_FREE: firmware leaves the agent, and a waiting access is sent. A command whose conditions do not hold
changes nothing: log entry 2. (R237, R472, R478, R479, R480, R486, R489, R490, R492) -/
def Obligations.PinsAndCellWindow : Prop :=
  ∀ s : State, s.TablesWf →
    (s.mgmt.inReset = true → exec .nresetAssert s = .next s ∧ exec .resetShort s = .next s ∧
      ∀ b, ∃ t, exec (.nresetRelease b) s = .next t ∧ t.mgmt.inReset = false ∧ t.mgmt.senior = b ∧
        rd F.PIN_STATE.SENIOR_STRAP t = bitN b ∧ rd F.PAIR_STATE.SENIOR t = bitN b ∧ t.cells = s.cells ∧ t.boot = s.boot) ∧
    (s.mgmt.inReset = false → (∀ b, exec (.nresetRelease b) s = .next s) ∧
      (∃ t, exec .resetShort s = .next t ∧ rd F.PIN_STS.RESET_SHORT t = 1 ∧
        cnt F.RESET_SHORT_CNT t = (cnt F.RESET_SHORT_CNT s + 1) % 2 ^ 64) ∧
      ∃ t, exec .nresetAssert s = .next t ∧ t.mgmt.inReset = true ∧ t.mgmt.da = none ∧ t.fuses = s.fuses ∧ t.pending = s.pending ∧
        (∀ c, cell c t = Cell.reset) ∧ (∀ a, byteAt t.cellMem a = 0 ∧ byteAt t.stackMem a = 0) ∧
        ∀ o, o ∉ [O.PIN_STATE, O.COOL_STATE, O.PAIR_STATE, O.PWR_STATE] → reg o t = resetWord o) ∧
    (∀ level h t0,
      ((h < 100 ∨ s.mgmt.hold = !level) → exec (.nholdExt level h t0) s = .next { s with now := t0 }) ∧
      (100 ≤ h → s.mgmt.hold = level → (∃ e, s.mgmt.holdEdge = some e ∧ t0 < e + usCycles) →
        ∃ t, exec (.nholdExt level h t0) s = .next t ∧ t.mgmt.hold = level ∧ rd F.PIN_STS.EXT_FAST t = 1 ∧
          cnt F.EXT_FAST_CNT t = (cnt F.EXT_FAST_CNT s + 1) % 2 ^ 64) ∧
      (100 ≤ h → s.mgmt.hold = level → (∀ e, s.mgmt.holdEdge = some e → e + usCycles ≤ t0) →
        ∃ t, exec (.nholdExt level h t0) s = .next t ∧ t.mgmt.hold = !level ∧ t.mgmt.holdEdge = some t0 ∧ t.mgmt.holdBeats = 0 ∧
          t.mgmt.stuck = (s.mgmt.stuck && !level) ∧ rd F.PIN_STATE.HOLD_EXT t = bitN (!level) ∧
          ∀ o, o ≠ O.PIN_STATE → reg o t = reg o s)) ∧
    (s.mgmt.hold = true → on F.SCHED_CTRL.EXT_EN s = true → s.mgmt.stuck = false → 4096 ≤ s.mgmt.holdBeats →
      ∃ t, exec .extStuck s = .next t ∧ t.mgmt.stuck = true ∧ rd F.PIN_STATE.EXT_STUCK t = 1 ∧ rd F.PIN_STS.EXT_STUCK t = 1) ∧
    ((s.mgmt.hold = false ∨ on F.SCHED_CTRL.EXT_EN s = false ∨ s.mgmt.stuck = true ∨ s.mgmt.holdBeats < 4096) →
      exec .extStuck s = .next s) ∧
    (answersAt false O.CELL_WIN_CTRL s = false → exec .cellWinRead s = .next s ∧ exec .cellWinWrite s = .next s) ∧
    (answersAt false O.CELL_WIN_CTRL s = true →
      let c := rd F.CELL_WIN_CELL.CELL s
      let reserved := (List.range 16).any fun m => slotSt m s != 0 && (modelSlot m s).fields.contains (fieldOfCell c)
      let after := fun (w : Bool) (t : State) =>
        let bound := w && reserved
        t.cellMem = s.cellMem ∧ t.cells = s.cells ∧
        (on F.CELL_WIN_STATE.BUSY s = true → rd F.CELL_WIN_STS.REFUSED t = 1 ∧ t.agent = s.agent) ∧
        (on F.CELL_WIN_STATE.BUSY s = false →
          (cellCount ≤ c → rd F.CELL_WIN_STATE.ERROR t = 1 ∧ rd F.CELL_WIN_STS.ERR t = 1 ∧ rd F.CELL_WIN_STATE.BUSY t = 0) ∧
          (c < cellCount → absent c s = true → rd F.CELL_WIN_STATE.ERROR t = 2 ∧ rd F.CELL_WIN_STS.ERR t = 1 ∧
            rd F.CELL_WIN_STATE.BUSY t = 0) ∧
          (c < cellCount → absent c s = false → bound = true → rd F.CELL_WIN_STATE.ERROR t = 3 ∧ rd F.CELL_WIN_STS.ERR t = 1 ∧
            rd F.CELL_WIN_STATE.BUSY t = 0) ∧
          (c < cellCount → absent c s = false → bound = false → rd F.CELL_WIN_STATE.BUSY t = 1 ∧
            rd F.CELL_WIN_STATE.WAIT t = bitN (firmwareHolds s) ∧
            t.agent.access = some ⟨c, rd F.CELL_WIN_WORD.WORD s, w, reg O.CELL_WIN_DATA s, !firmwareHolds s⟩))
      (∃ t, exec .cellWinRead s = .next t ∧ after false t) ∧ ∃ t, exec .cellWinWrite s = .next t ∧ after true t) ∧
    (∀ a, s.agent.access = some a →
      (a.sent = true → ∃ t, exec .cellWinTimeout s = .next t ∧ t.agent.access = none ∧ rd F.CELL_WIN_STATE.ERROR t = 5 ∧
        rd F.CELL_WIN_STATE.BUSY t = 0 ∧ rd F.CELL_WIN_STS.ERR t = 1) ∧
      (a.sent = false → exec .cellWinTimeout s = .next s) ∧
      (a.sent = false → firmwareHolds { s with agent := { s.agent with firmware := false } } = false →
        ∃ t, exec .cellWinAgentFree s = .next t ∧ t.agent.access = some { a with sent := true } ∧ t.agent.firmware = false ∧
          rd F.CELL_WIN_STATE.WAIT t = 0) ∧
      (a.sent = true → firmwareHolds { s with agent := { s.agent with firmware := false } } = false →
        exec .cellWinAgentFree s = .next { s with agent := { s.agent with firmware := false } })) ∧
    (firmwareHolds { s with agent := { s.agent with firmware := false } } = true → exec .cellWinAgentFree s = .next s) ∧
    (s.agent.access = none → exec .cellWinTimeout s = .next s ∧
      (firmwareHolds { s with agent := { s.agent with firmware := false } } = false →
        exec .cellWinAgentFree s = .next { s with agent := { s.agent with firmware := false } }))

/-- While I3C answers: ENTDAA and SETDASA give a dynamic address where none is held, RSTDAA drops it, ENEC and DISEC set and clear event
bits, SETMWL, SETMRL and RSTACT keep their values. To an addressed W3 each of the directed and MCTP and PLDM commands answers: the
provisioned ID ends in the low half of SERIAL, most significant byte first; a sensor's answer holds its reading and the FRU answer the
record; bytes that a named standard lays out are Config.standardReply, which the manual leaves to the standard. SET_ENDPOINT_ID takes
IDs 8 to 254. A poll hands over the oldest event and keeps it, an acknowledgement of one handed over removes it. WIN_READ and WIN_WRITE
of a wrong size answer 0x81; WIN_READ answers 0 and the value; WIN_WRITE without MGMT_WR of anything but a ZEROISE answers 0x80, sets
PIN_STS.MGMT_DENIED and writes nothing, else answers 0. Without an address none of the answering commands changes anything (log entry
2). (R465, R466, R469, R470, R493, R495, R496, R497, R498, R499, R500) -/
def Obligations.ManagementBusAnswers : Prop :=
  ∀ s : State, s.TablesWf →
    (∀ (i : Instr) (k : State → List Byte), (i, k) ∈ ([(.getpid, provisionedId), (.getbcr, standard 0x8E 0), (.getdcr, standard 0x8F 0),
        (.getstatus, standard 0x90 0), (.getmxds, standard 0x94 0), (.getEndpointId, fun u => Config.standardReply 0x1002 u.mgmt.eid),
        (.getMctpVersionSupport, standard 0x1004 0), (.getMessageTypeSupport, fun _ => Config.standardReply 0x1005 2 ++ [0, 1]),
        (.getTid, standard 0x2002 0), (.getPldmTypes, standard 0x2004 0), (.getPdrRepositoryInfo, standard 0x2250 0),
        (.eventMessageSupported, standard 0x220C 0), (.getFruRecordTableMetadata, standard 0x2401 0),
        (.getFruRecordTable, fun u => Config.standardReply 0x2402 0 ++ fruRecord u)] : List (Instr × (State → List Byte))) →
      (addressed s = true → exec i s = .next (answer (k s) s)) ∧ (addressed s = false → exec i s = .next s)) ∧
    (provisionedId s).length = 6 ∧ (provisionedId s).drop 2 = (natToBytes 4 (s.fuses.serial % 2 ^ 32)).reverse ∧
    (∀ n, addressed s = true → exec (.getPldmVersion n) s = .next (answer (Config.standardReply 0x2003 n) s) ∧
      exec (.getPldmCommands n) s = .next (answer (Config.standardReply 0x2005 n) s) ∧
      exec (.getPdr n) s = .next (answer (Config.standardReply 0x2251 n) s) ∧
      (∀ v, 1 ≤ n → (numericSensors s)[n - 1]? = some v →
        exec (.getNumericSensorReading n) s = .next (answer (Config.standardReply 0x2211 0 ++ natToBytes 4 v) s)) ∧
      (∀ v, 1 ≤ n → (stateSensors s)[n - 1]? = some v →
        exec (.getStateSensorReadings n) s = .next (answer (Config.standardReply 0x2221 0 ++ natToBytes 4 v) s)) ∧
      (∃ t, exec (.eventMessageBufferSize n) s = .next t ∧ t.mgmt.bufSize = n % 2 ^ 16 ∧ t = { s with mgmt := t.mgmt } ∧
        t.mgmt.response = Config.standardReply 0x220D n) ∧
      (∀ b, ∃ t, exec (.setEndpointId n b) s = .next t ∧ t = { s with mgmt := t.mgmt } ∧
        (8 ≤ n → n < 255 → t.mgmt.eid = n ∧ t.mgmt.bmcEid = b % 256) ∧
        ((n < 8 ∨ 255 ≤ n) → t.mgmt.eid = s.mgmt.eid ∧ t.mgmt.bmcEid = s.mgmt.bmcEid))) ∧
    (i3cUp s = true → ∀ n,
      (s.mgmt.da = none → n < 128 → (∃ t, exec (.entdaa n) s = .next t ∧ t.mgmt.da = some n ∧ t.mgmt.response = provisionedId s ∧
          t = { s with mgmt := t.mgmt }) ∧
        exec (.setdasa n) s = .next { s with mgmt := { s.mgmt with da := some n } }) ∧
      (s.mgmt.da.isSome = true → exec (.entdaa n) s = .next s ∧ exec (.setdasa n) s = .next s) ∧
      exec .rstdaa s = .next { s with mgmt := { s.mgmt with da := none } } ∧
      (∃ t, exec (.enec n) s = .next t ∧ t = { s with mgmt := { s.mgmt with events := t.mgmt.events } } ∧
        t.mgmt.events = (s.mgmt.events ||| n) % 256) ∧
      (∃ t, exec (.disec n) s = .next t ∧ t = { s with mgmt := { s.mgmt with events := t.mgmt.events } } ∧
        t.mgmt.events + (s.mgmt.events &&& n) = s.mgmt.events) ∧
      exec (.setmwl n) s = .next { s with mgmt := { s.mgmt with mwl := n % 2 ^ 16 } } ∧
      exec (.setmrl n) s = .next { s with mgmt := { s.mgmt with mrl := n % 2 ^ 16 } } ∧
      exec (.rstact n) s = .next { s with mgmt := { s.mgmt with rstact := n % 256 } }) ∧
    (∀ e es, addressed s = true → s.mgmt.events_ = e :: es →
      (∃ t, exec (.pollForPlatformEventMessage false) s = .next t ∧ t = { s with mgmt := t.mgmt } ∧
        t.mgmt.events_ = { e with polled := true } :: es ∧ t.mgmt.response = Config.standardReply 0x220B 2 ++ eventData e) ∧
      (e.polled = true → ∃ t, exec (.pollForPlatformEventMessage true) s = .next t ∧ t = { s with mgmt := t.mgmt } ∧
        t.mgmt.events_ = es)) ∧
    (∀ off n, addressed s = true →
      (accessOk off n = false → exec (.winRead off n) s = .next (answer [0x81] s) ∧
        ∀ d, exec (.winWrite off n d) s = .next (answer [0x81] s)) ∧
      (accessOk off n = true → 2 ^ 26 ≤ off → exec (.winRead off n) s = .next (answer (0x00 :: natToBytes n 0) s)) ∧
      (accessOk off n = true → off < 2 ^ 26 → ∃ t, exec (.winRead off n) s = .next t ∧
        t.mgmt.response = 0x00 :: natToBytes n (readWindow true off n s).1 ∧ t.cellMem = s.cellMem ∧ t.latchOcl = s.latchOcl ∧
        t.fuses = s.fuses) ∧
      (∀ d, accessOk off n = true → on F.MOD_CTRL.MGMT_WR s = false → isZeroise off d = false →
        ∃ t, exec (.winWrite off n d) s = .next t ∧ t.mgmt.response = [0x80] ∧ rd F.PIN_STS.MGMT_DENIED t = 1 ∧
          t.cellMem = s.cellMem ∧ t.sec = s.sec ∧ t.fuses = s.fuses) ∧
      (∀ d, accessOk off n = true → (on F.MOD_CTRL.MGMT_WR s = true ∨ isZeroise off d = true) →
        ∃ t, exec (.winWrite off n d) s = .next t ∧ t.mgmt.response = [0x00]))

/-- REGISTER_WRITE at an offset that is no multiple of 4 (the model's: log entry 2), at one that does not answer, where no register is,
and at one with neither RW nor WO bits (a status register, a counter word, an identification register) outside the pools' block: no
change. At a pool's register with the pool enabled, read-only ones included, POOL_CTRL and POS_LIMIT apart: only KV_STS.CFG is set. At
an alias it is the plain write of the computed value: c OR v, c AND NOT v, and of the toggle view c XOR v with write-only bits left out.
At a plain offset of the identification and module control page, the summary page, and the pages 0x4000 and 0x5000: the register's RW
bits become those of the value, its other bits and every other register stay, and nothing else changes. The write of a ring's base while
that ring is disabled does the same. (R459, R466, R468, R470, R473, R474, R475) -/
def Obligations.RegisterWritesReachRegisters : Prop :=
  ∀ (s : State) (off : Nat) (v : Word), s.TablesWf →
    let o := plainOff (windowOff off)
    (off % 4 ≠ 0 → exec (.registerWrite off v) s = .next s) ∧
    (answersAt false o s = false → exec (.registerWrite off v) s = .next s) ∧
    (inBuffer o = false → regAt o = none → exec (.registerWrite off v) s = .next s) ∧
    (∀ r, off % 4 = 0 → inBuffer o = false → regAt o = some r →
      (r.rw = 0 → r.wo = 0 → poolBlock o = false → exec (.registerWrite off v) s = .next s) ∧
      (poolBlock o = true → (o - 0x7100) % 0x30 ≠ 0x24 → (o - 0x7100) % 0x30 ≠ 0x18 → poolOn ((o - 0x7100) / 0x30) s = true →
        answersAt false o s = true → exec (.registerWrite off v) s = .next (raise F.KV_STS.CFG s)) ∧
      (let c := regNow o s;
        exec (.registerWrite off v) s = exec (.registerWrite o (match viewOf (windowOff off) with
          | 0 => v
          | 1 => c ||| v
          | 2 => c &&& ~~~v
          | _ => (c ^^^ v) &&& ~~~(BitVec.ofNat 32 r.wo))) s) ∧
      (viewOf (windowOff off) = 0 → answersAt false o s = true → r.rw ≠ 0 →
        (o / 0x1000 ∈ [0, 1, 4, 5] ∨ (∃ k, k < 8 ∧ (o = O.CMD_RING_BASE k ∨ o = O.CMD_RING_BASE_HI k) ∧ on (F.CMD_RING_CFG.ENABLE k) s = false)) →
        ∃ t, exec (.registerWrite off v) s = .next t ∧ t = { s with win := t.win } ∧
          reg o t = (reg o s &&& ~~~(BitVec.ofNat 32 r.rw)) ||| (v &&& BitVec.ofNat 32 r.rw) ∧ ∀ p, p ≠ o → reg p t = reg p s))

/-- For every page, page offset o below 0x400 and view k of plain, set, clear and toggle: the window offset of the page plus k times
0x400 plus o names the register at page offset o, in view k; it reads there what the plain view reads (R469), on either access path, and
a write there is the plain write of the view's computed value. No register lies at a page offset of 0x400 or more. (R467) -/
def Obligations.RegistersAnswerAtFourViews : Prop :=
  (∀ p k o : Nat, p < 2 ^ 14 → k < 4 → o < 0x400 →
    let a := p * 0x1000 + k * 0x400 + o
    let b := p * 0x1000 + o
    plainOff a = b ∧ viewOf a = k ∧
    ∀ (s : State) (r : RegRow), o % 4 = 0 → regAt b = some r →
      (∀ mgmt, (readWord mgmt a s).1 = (readWord mgmt b s).1) ∧
      ∀ v, exec (.registerWrite a v) s = exec (.registerWrite b (viewValue k r (regNow b s) v)) s) ∧
  ∀ off : Nat, 0x400 ≤ off % 0x1000 → regAt off = none

/-- For every read of 4 or 8 aligned bytes through an alias, on either access path: the state is unchanged, so no RC bit is cleared and
no counter word latched. Of 4 bytes the value is what the plain view of that register gives, of the high word of a counter the access
path's latch; of 8 bytes at a counter's low word it is one consistent 64-bit value, and of 8 bytes elsewhere the plain values of the two
registers, the lower one first. WIN_READ answers just that and changes nothing but its answer. (R469) -/
def Obligations.AliasReadsHaveNoOtherEffect : Prop :=
  ∀ (s : State) (mgmt : Bool) (off : Nat), off < 2 ^ 26 → viewOf off ≠ 0 →
    let o := plainOff off
    (accessOk off 4 = true → inBuffer o = false → (readWindow mgmt off 4 s).2 = s ∧
      (readWindow mgmt off 4 s).1 = (readWindow mgmt o 4 s).1 ∧
      (∀ r, answersAt mgmt o s = true → regAt o = some r → r.cnt = 2 → (readWindow mgmt off 4 s).1 = (latch mgmt (o - 4) s).toNat)) ∧
    (accessOk off 8 = true → inBuffer o = false → (readWindow mgmt off 8 s).2 = s ∧
      (answersAt mgmt o s = true → isCounter o = true → (readWindow mgmt off 8 s).1 = counterNow o s) ∧
      (isCounter o = false → (readWindow mgmt off 8 s).1 =
        (readWindow mgmt o 4 s).1 + 2 ^ 32 * (readWindow mgmt (o + 4) 4 s).1)) ∧
    (∀ n, addressed s = true → accessOk off n = true → inBuffer o = false →
      exec (.winRead off n) s = .next (answer (0x00 :: natToBytes n (readWindow true off n s).1) s))

/-- Each bit of STS_SUM0 and STS_SUM1 is set just when its status register is nonzero, FIELDS when any bit of FIELD_SUM0 to FIELD_SUM2
is set, bit f of the FIELD_SUM registers when FLD_STS_SUM of field f is nonzero; bits beyond the table are 0. A read of any of the five,
by WIN_READ in a module whose whole window answers, returns that value and changes nothing but the answer; a write changes nothing.
(R476) -/
def Obligations.SummariesFollowTheirSources : Prop :=
  ∀ s : State,
    let l0 := [O.SCHED_STS, O.BEAT_STS, O.BUDGET_STS, O.PREC_STS, O.PREC_MODEL_STS, O.KV_STS, O.SVC_STS, O.TUNE_STS, O.OCL_STS,
      O.FLT_STS, O.PWR_STS, O.THR_STS, O.BOOT_STS, O.PAIR_STS, O.MBX_STS, O.SEC_STS, O.CELL_WIN_STS, O.SPAN_STS 0, O.SPAN_STS 1,
      O.SPAN_STS 2, O.SPAN_STS 3, O.PIN_STS]
    (∀ i (h : i < l0.length), bitAt (regNow O.STS_SUM0 s) i = (reg l0[i] s != 0)) ∧
    (∀ i, 22 ≤ i → bitAt (regNow O.STS_SUM0 s) i = false) ∧
    (∀ n, n < 12 → bitAt (regNow O.STS_SUM1 s) n = (reg (O.HS_STS n) s != 0)) ∧
    bitAt (regNow O.STS_SUM1 s) 12 =
      (regNow O.FIELD_SUM0 s != 0 || regNow O.FIELD_SUM1 s != 0 || regNow O.FIELD_SUM2 s != 0) ∧
    (∀ i, 13 ≤ i → bitAt (regNow O.STS_SUM1 s) i = false) ∧
    (∀ n, n < 32 → bitAt (regNow O.FIELD_SUM0 s) n = (regNow (O.FLD_STS_SUM n) s != 0) ∧
      bitAt (regNow O.FIELD_SUM1 s) n = (regNow (O.FLD_STS_SUM (32 + n)) s != 0)) ∧
    (∀ n, n < 8 → bitAt (regNow O.FIELD_SUM2 s) n = (regNow (O.FLD_STS_SUM (64 + n)) s != 0)) ∧
    (∀ i, 8 ≤ i → bitAt (regNow O.FIELD_SUM2 s) i = false) ∧
    ∀ o ∈ [O.STS_SUM0, O.STS_SUM1, O.FIELD_SUM0, O.FIELD_SUM1, O.FIELD_SUM2],
      (addressed s = true → wholeWindow s = true → exec (.winRead o 4) s = .next (answer (0x00 :: natToBytes 4 (regNow o s).toNat) s)) ∧
      ∀ v, exec (.registerWrite o v) s = .next s

/-- For every step that takes a command, with Safety.mayChange the parts of the state that command may change: the waiting commands
behind it stay; where the register window is not among those parts, every register stays; where cell memory, stack memory, the cells,
the arrival counters, the accumulators, the fuses, the security state or the journal and start state are not, every byte, cell, counter,
accumulator, or all of them stay. Cell memory and the fuses are in the list of few commands: a link's flit, a telemetry command, a
register read or a management bus command other than WIN_WRITE changes no byte of cell memory and no fuse. (R203, R293, R363, R438,
R465) -/
def Obligations.StepsKeepWhatTheirCommandMayNotChange : Prop :=
  ∀ (i : Instr) (l : List Instr) (s t : State), s.pending = i :: l → step s = .next t →
    t.pending = l ∧
    (.win ∉ mayChange i → ∀ o, reg o t = reg o s) ∧
    (.cellMem ∉ mayChange i → ∀ a, byteAt t.cellMem a = byteAt s.cellMem a) ∧
    (.stackMem ∉ mayChange i → ∀ a, byteAt t.stackMem a = byteAt s.stackMem a) ∧
    (.cells ∉ mayChange i → ∀ c, cell c t = cell c s) ∧
    (.counters ∉ mayChange i → ∀ c n, arrival c n t = arrival c n s) ∧
    (.accs ∉ mayChange i → t.accs = s.accs) ∧
    (.fuses ∉ mayChange i → t.fuses = s.fuses) ∧
    (.sec ∉ mayChange i → t.sec = s.sec) ∧
    (.boot ∉ mayChange i → t.boot = s.boot) ∧
    (.kv ∉ mayChange i → t.kv = s.kv) ∧
    (∀ j raw t0, i = .payloadFlit j raw t0 ∨ i = .idleFlit j raw t0 ∨ i = .nakFlit j raw t0 ∨ i = .retrainFlit j raw t0 →
      t.fuses = s.fuses ∧ ∀ a, byteAt t.cellMem a = byteAt s.cellMem a) ∧
    (∀ off n tag, i = .mmioRd off n tag ∨ i = .winRead off n → t.fuses = s.fuses ∧ ∀ a, byteAt t.cellMem a = byteAt s.cellMem a)
end

