-- ==== Sys2Proof/Laws/Table.lean ====
section
/-!
SUPPORT. Laws of the sparse tables: what a store leaves at each key, and that every operation keeps the canonical form.
-/
set_option Elab.async false
namespace Sys2Proof.Machine.Table
variable {α : Type}

/-- Keys strictly rising, as a pairwise relation. -/
def Sorted (t : Table α) : Prop := t.Pairwise fun p q => p.1 < q.1

theorem rising_some_iff (lo : Nat) (t : Table α) :
    rising (some lo) t = true ↔ (∀ p ∈ t, lo < p.1) ∧ Sorted t := by
  induction t generalizing lo with
  | nil => simp [rising, Sorted]
  | cons p t ih =>
    simp only [rising, Bool.and_eq_true, decide_eq_true_eq, ih, Sorted, List.pairwise_cons, List.mem_cons, forall_eq_or_imp]
    constructor
    · rintro ⟨h1, h2, h3⟩
      exact ⟨⟨h1, fun q hq => h1.trans (h2 q hq)⟩, h2, h3⟩
    · rintro ⟨⟨h1, -⟩, h2, h3⟩
      exact ⟨h1, h2, h3⟩

theorem rising_none_iff (t : Table α) : rising none t = true ↔ Sorted t := by
  cases t with
  | nil => simp [rising, Sorted]
  | cons p t => simp only [rising, rising_some_iff, Sorted, List.pairwise_cons]

variable [DecidableEq α] (d : Nat → α)

/-- The canonical form, as a proposition. -/
theorem wf_iff (t : Table α) : wf d t = true ↔ Sorted t ∧ ∀ p ∈ t, p.2 ≠ d p.1 := by
  simp [wf, rising_none_iff]

theorem wf_nil : wf d ([] : Table α) = true := rfl

omit [DecidableEq α] in
/-- A key below every listed one reads as unlisted. -/
theorem get_above (t : Table α) (k : Nat) (h : ∀ p ∈ t, k < p.1) : get d t k = d k := by
  induction t with
  | nil => rfl
  | cons p t ih =>
    have h1 := h p (by simp)
    simp only [get, if_neg (Nat.ne_of_gt h1)]
    exact ih fun q hq => h q (by simp [hq])

/-- What a store leaves at each key. -/
theorem get_set (t : Table α) (k j : Nat) (v : α) (h : Sorted t) :
    get d (set d t k v) j = if j = k then v else get d t j := by
  induction t with
  | nil =>
    simp only [set, cons]
    split <;> rename_i hv <;> simp only [get]
    · split <;> rename_i hj
      · rw [hj, hv]
      · rfl
    · split <;> rename_i hj <;> split <;> rename_i hk <;> first | rfl | omega
  | cons p t ih =>
    have hs := (List.pairwise_cons.1 h).2
    have hp := (List.pairwise_cons.1 h).1
    obtain ⟨q, w⟩ := p
    simp only [set]
    split
    · rename_i hk
      simp only [cons]
      split <;> rename_i hv
      · split <;> rename_i hj
        · subst hj hv
          exact get_above d _ _ (by
            intro r hr
            rcases List.mem_cons.1 hr with rfl | hr
            · exact hk
            · exact hk.trans (hp r hr))
        · rfl
      · simp only [get]
        by_cases hj : j = k
        · simp [hj]
        · simp only [if_neg (Ne.symm hj), if_neg hj]
    · split
      · rename_i hk hq
        subst hq
        simp only [cons]
        split <;> rename_i hv
        · split <;> rename_i hj
          · subst hj hv
            exact get_above d _ _ hp
          · simp only [get, if_neg (Ne.symm hj)]
        · simp only [get]
          by_cases hj : j = q
          · simp [hj]
          · simp only [if_neg (Ne.symm hj), if_neg hj]
      · rename_i hk hq
        simp only [get, ih hs]
        by_cases hj : q = j
        · subst hj
          simp [hq]
        · simp only [if_neg hj]

/-- The keys of a store are the old ones and perhaps the one stored to. -/
theorem mem_set (t : Table α) (k : Nat) (v : α) (p : Nat × α) (h : p ∈ set d t k v) : p ∈ t ∨ (p = (k, v) ∧ v ≠ d k) := by
  induction t with
  | nil =>
    simp only [set, cons] at h
    split at h
    · simp at h
    · right; exact ⟨by simpa using h, by assumption⟩
  | cons q t ih =>
    obtain ⟨a, w⟩ := q
    simp only [set] at h
    split at h
    · simp only [cons] at h
      split at h
      · exact .inl h
      · rcases List.mem_cons.1 h with h | h
        · exact .inr ⟨h, by assumption⟩
        · exact .inl h
    · split at h
      · simp only [cons] at h
        split at h
        · exact .inl (List.mem_cons_of_mem _ h)
        · rcases List.mem_cons.1 h with h | h
          · exact .inr ⟨h, by assumption⟩
          · exact .inl (List.mem_cons_of_mem _ h)
      · rcases List.mem_cons.1 h with h | h
        · exact .inl (by simp [h])
        · rcases ih h with h | h
          · exact .inl (List.mem_cons_of_mem _ h)
          · exact .inr h

theorem sorted_set (t : Table α) (k : Nat) (v : α) (h : Sorted t) : Sorted (set d t k v) := by
  induction t with
  | nil => simp only [set, cons]; split <;> simp [Sorted]
  | cons q t ih =>
    obtain ⟨a, w⟩ := q
    have hs := (List.pairwise_cons.1 h).2
    have hp := (List.pairwise_cons.1 h).1
    simp only [set]
    split
    · rename_i hk
      simp only [cons]
      split
      · exact h
      · refine List.pairwise_cons.2 ⟨?_, h⟩
        intro r hr
        rcases List.mem_cons.1 hr with rfl | hr
        · exact hk
        · exact hk.trans (hp r hr)
    · split
      · rename_i hk hq
        subst hq
        simp only [cons]
        split
        · exact hs
        · exact List.pairwise_cons.2 ⟨hp, hs⟩
      · rename_i hk hq
        refine List.pairwise_cons.2 ⟨?_, ih hs⟩
        intro r hr
        rcases mem_set d t k v r hr with hr | ⟨rfl, -⟩
        · exact hp r hr
        · show a < k
          omega

/-- A store keeps the canonical form. -/
theorem wf_set (t : Table α) (k : Nat) (v : α) (h : wf d t = true) : wf d (set d t k v) = true := by
  rw [wf_iff] at h ⊢
  refine ⟨sorted_set d t k v h.1, fun p hp => ?_⟩
  rcases mem_set d t k v p hp with hp | ⟨rfl, hv⟩
  · exact h.2 p hp
  · exact hv

theorem wf_setMany (t : Table α) (k : Nat) (vs : List α) (h : wf d t = true) : wf d (setMany d t k vs) = true := by
  induction vs generalizing t k with
  | nil => exact h
  | cons v vs ih => exact ih _ _ (wf_set d t k v h)

/-- Dropping entries keeps the canonical form. -/
theorem wf_filter (t : Table α) (f : Nat × α → Bool) (h : wf d t = true) : wf d (t.filter f) = true := by
  rw [wf_iff] at h ⊢
  exact ⟨h.1.filter _, fun p hp => h.2 p (List.mem_of_mem_filter hp)⟩

theorem wf_clear (t : Table α) (lo n : Nat) (h : wf d t = true) : wf d (clear t lo n) = true := wf_filter d t _ h

theorem wf_mapVals (f : Nat → α → α) (t : Table α) (h : wf d t = true) : wf d (mapVals d f t) = true := by
  rw [wf_iff] at h ⊢
  refine ⟨List.Pairwise.filter _ (List.pairwise_map.2 h.1), fun p hp => ?_⟩
  simpa using (List.mem_filter.1 hp).2

/-- Moving entries to other keys in the same order keeps the canonical form where every key reads alike when unlisted. -/
theorem wf_shift (c : α) (t : Table α) (f : Nat → Option Nat)
    (hf : ∀ a b x y, a < b → f a = some x → f b = some y → x < y) (h : wf (fun _ => c) t = true) :
    wf (fun _ => c) (t.filterMap fun p => (f p.1).map fun k => (k, p.2)) = true := by
  rw [wf_iff] at h ⊢
  refine ⟨?_, ?_⟩
  · refine List.Pairwise.filterMap _ ?_ h.1
    intro p q hpq x hx y hy
    simp only [Option.map_eq_some_iff] at hx hy
    obtain ⟨a, ha, rfl⟩ := hx
    obtain ⟨b, hb, rfl⟩ := hy
    exact hf _ _ _ _ hpq ha hb
  · intro p hp
    obtain ⟨q, hq, hx⟩ := List.mem_filterMap.1 hp
    simp only [Option.map_eq_some_iff] at hx
    obtain ⟨a, -, rfl⟩ := hx
    exact h.2 q hq

/-- Reading one key after stores at consecutive keys. -/
theorem get_setMany_out (t : Table α) (k j : Nat) (vs : List α) (h : Sorted t) (hj : j < k ∨ k + vs.length ≤ j) :
    get d (setMany d t k vs) j = get d t j := by
  induction vs generalizing t k with
  | nil => rfl
  | cons v vs ih =>
    simp only [setMany, List.length_cons] at hj ⊢
    rw [ih _ _ (sorted_set d t k v h) (by omega), get_set d t k j v h, if_neg (by omega)]

end Sys2Proof.Machine.Table
end

