-- ==== Sys2Proof/Laws/Keep.lean ====
section
/-!
SUPPORT. What every function over the state keeps: the canonical form of every table and memory, the queue, the fuses but for a rising
security version, and the counter of free values, which never falls. One lemma per kind of update; the Keep files go through the model.
-/
set_option Elab.async false
namespace Sys2Proof.Machine
open Sys2Proof

/-- `s` keeps of `a` what nothing but the queue's own step may change. -/
structure Keeps (a s : State) : Prop where
  pending : s.pending = a.pending
  free : a.free ≤ s.free
  fuses : FusesFollow a.fuses s.fuses
  tables : a.TablesWf → s.TablesWf
  memory : a.MemoryWf → s.MemoryWf

variable {a e s : State}

theorem FusesFollow.refl (a : Fuses) : FusesFollow a a := ⟨Nat.le_refl _, rfl⟩

theorem FusesFollow.trans {a b c : Fuses} (h : FusesFollow a b) (k : FusesFollow b c) : FusesFollow a c := by
  refine ⟨h.1.trans k.1, ?_⟩
  rw [k.2, h.2]

theorem Keeps.refl (a : State) : Keeps a a := ⟨rfl, Nat.le_refl _, .refl _, id, id⟩

theorem Keeps.trans {a b c : State} (h : Keeps a b) (k : Keeps b c) : Keeps a c :=
  ⟨k.pending.trans h.pending, h.free.trans k.free, h.fuses.trans k.fuses, fun x => k.tables (h.tables x), fun x => k.memory (h.memory x)⟩

/-- An update that leaves every tracked part as it is. -/
theorem keeps_upd (h : Keeps a e) {mesh : Mesh} {prec : Prec} {sched : Sched} {beat : Beat} {budget : Budget} {kv : Kv} {svc : Svc}
    {ledger : Ledger} {tune : Tune} {link : LinkState} {ocl : Ocl} {pair : Pair} {faults : Faults} {power : Power} {boot : Boot}
    {fuses : Fuses} {sec : Sec} {agent : Agent} {mgmt : Mgmt} {now : Nat}
    (h1 : mesh.mcast = e.mesh.mcast) (h2 : mesh.redTab = e.mesh.redTab) (h3 : prec.layers = e.prec.layers)
    (h4 : sched.images = e.sched.images) (h5 : kv.seqs = e.kv.seqs) (h6 : svc.models = e.svc.models)
    (h7 : svc.out = e.svc.out) (h8 : svc.cmd = e.svc.cmd) (h9 : power.fields = e.power.fields)
    (h10 : sec.mbx = e.sec.mbx) (h11 : fuses = e.fuses) (h12 : mesh.links = e.mesh.links) (h13 : mesh.redQ = e.mesh.redQ)
    (h14 : mesh.used2 = e.mesh.used2) (h15 : mesh.rowMap = e.mesh.rowMap) (h16 : prec.recipes = e.prec.recipes)
    (h17 : budget.limits = e.budget.limits) (h18 : budget.part = e.budget.part) (h19 : kv.freeList = e.kv.freeList)
    (h20 : mesh.used3 = e.mesh.used3) (h21 : kv.settings = e.kv.settings) :
    Keeps a {
      pending := e.pending, win := e.win, latchOcl := e.latchOcl, latchMgmt := e.latchMgmt, cells := e.cells,
      counters := e.counters, accs := e.accs, cellMem := e.cellMem, stackMem := e.stackMem, mesh := mesh, prec := prec, sched := sched,
      beat := beat, budget := budget, kv := kv, svc := svc, ledger := ledger, tune := tune, link := link, ocl := ocl, pair := pair,
      faults := faults, power := power, boot := boot, fuses := fuses, sec := sec, agent := agent, mgmt := mgmt, now := now,
      free := e.free } where
  pending := h.pending
  free := h.free
  fuses := h11 ▸ h.fuses
  tables w :=
    have t := h.tables w
    ⟨t.win, t.latchOcl, t.latchMgmt, t.cells, t.counters, t.accs, h1 ▸ t.mcast, h2 ▸ t.redTab, h3 ▸ t.layers, h4 ▸ t.images,
      h5 ▸ t.seqs, h6 ▸ t.models, h7 ▸ t.out, h8 ▸ t.cmd, h9 ▸ t.fields, h12 ▸ t.links, h13 ▸ t.redQ, h14 ▸ t.used2, h20 ▸ t.used3,
      h15 ▸ t.rowMap, h16 ▸ t.recipes, h17 ▸ t.limits, h18 ▸ t.part, h19 ▸ t.freeList, h21 ▸ t.settings⟩
  memory w :=
    have t := h.memory w
    ⟨t.cellMem, t.stackMem, h10 ▸ t.mbx⟩

/-- An update of tables, each kept in its form where the tables were. -/
theorem keeps_tables (h : Keeps a e) (h1 : s.pending = e.pending) (h2 : s.free = e.free) (h3 : s.fuses = e.fuses)
    (h4 : s.cellMem = e.cellMem) (h5 : s.stackMem = e.stackMem) (h6 : s.sec.mbx = e.sec.mbx) (h7 : e.TablesWf → s.TablesWf) : Keeps a s where
  pending := h1.trans h.pending
  free := h2 ▸ h.free
  fuses := h3 ▸ h.fuses
  tables w := h7 (h.tables w)
  memory w :=
    have t := h.memory w
    ⟨h4 ▸ t.cellMem, h5 ▸ t.stackMem, h6 ▸ t.mbx⟩

/-- An update of a memory, kept in its form where the memories were. -/
theorem keeps_memory (h : Keeps a e) (h1 : s.pending = e.pending) (h2 : s.free = e.free) (h3 : s.fuses = e.fuses)
    (h7 : e.TablesWf → s.TablesWf) (h8 : e.MemoryWf → s.MemoryWf) : Keeps a s where
  pending := h1.trans h.pending
  free := h2 ▸ h.free
  fuses := h3 ▸ h.fuses
  tables w := h7 (h.tables w)
  memory w := h8 (h.memory w)

theorem keeps_ite {c : Prop} [Decidable c] {x y : State} (hx : Keeps a x) (hy : Keeps a y) : Keeps a (if c then x else y) := by
  split <;> assumption

theorem keeps_snd_ite {α : Type} {c : Prop} [Decidable c] {x y : α × State} (hx : Keeps a x.2) (hy : Keeps a y.2) :
    Keeps a (if c then x else y).2 := by
  split <;> assumption

theorem when_keeps {b : Bool} {f : State → State} (hf : ∀ t, Keeps a t → Keeps a (f t)) (h : Keeps a s) : Keeps a (when b f s) := by
  unfold when
  exact keeps_ite (hf _ h) h

theorem foldl_keeps {α : Type} {l : List α} {f : State → α → State} (hf : ∀ x t, Keeps a t → Keeps a (f t x)) (h : Keeps a s) :
    Keeps a (l.foldl f s) := by
  induction l generalizing s with
  | nil => exact h
  | cons x l ih => exact ih (hf x s h)

theorem forEach_keeps {α : Type} {l : List α} {f : α → State → State} (hf : ∀ x t, Keeps a t → Keeps a (f x t)) (h : Keeps a s) :
    Keeps a (forEach l f s) := by
  unfold forEach
  exact foldl_keeps hf h

theorem setReg_keeps {off : Nat} {v : Word} (h : Keeps a s) : Keeps a (setReg off v s) :=
  keeps_tables h rfl rfl rfl rfl rfl rfl fun t => { t with win := Table.wf_set _ _ _ _ t.win }

theorem wr_keeps {f : Fld} {v : Nat} (h : Keeps a s) : Keeps a (wr f v s) := by
  unfold wr
  exact setReg_keeps h

theorem wrB_keeps {f : Fld} {b : Bool} (h : Keeps a s) : Keeps a (wrB f b s) := by
  unfold wrB
  exact wr_keeps h

theorem setCnt_keeps {off n : Nat} (h : Keeps a s) : Keeps a (setCnt off n s) := by
  unfold setCnt
  exact setReg_keeps (setReg_keeps h)

theorem bumpBy_keeps {off n : Nat} (h : Keeps a s) : Keeps a (bumpBy off n s) := by
  unfold bumpBy
  exact setCnt_keeps h

theorem bump_keeps {off : Nat} (h : Keeps a s) : Keeps a (bump off s) := by
  unfold bump
  exact bumpBy_keeps h

theorem atTime_keeps {t : Nat} (h : Keeps a s) : Keeps a (atTime t s) := keeps_upd h rfl rfl rfl rfl rfl rfl rfl rfl rfl rfl rfl rfl rfl rfl rfl rfl rfl rfl rfl rfl rfl

theorem takeFree_keeps (h : Keeps a s) : Keeps a (takeFree s) :=
  ⟨h.pending, h.free.trans (Nat.le_succ _), h.fuses, fun w => { h.tables w with }, fun w => { h.memory w with }⟩

theorem setCell_keeps {c : Nat} {x : Cell} (h : Keeps a s) : Keeps a (setCell c x s) :=
  keeps_tables h rfl rfl rfl rfl rfl rfl fun t => { t with cells := Table.wf_set _ _ _ _ t.cells }

theorem modCell_keeps {c : Nat} {f : Cell → Cell} (h : Keeps a s) : Keeps a (modCell c f s) := by
  unfold modCell
  exact setCell_keeps h

theorem setArrival_keeps {c n : Nat} {v : BitVec 24} (h : Keeps a s) : Keeps a (setArrival c n v s) :=
  keeps_tables h rfl rfl rfl rfl rfl rfl fun t => { t with counters := Table.wf_set _ _ _ _ t.counters }

theorem setAcc_keeps {c arr v row : Nat} {x : Word} (h : Keeps a s) : Keeps a (setAcc c arr v row x s) :=
  keeps_tables h rfl rfl rfl rfl rfl rfl fun t => { t with accs := Table.wf_set _ _ _ _ t.accs }

theorem memPut_wf {m : Table Byte} {p n v : Nat} (h : Memory.wf m = true) : Memory.wf (memPut m p n v) = true :=
  Table.wf_setMany _ _ _ _ h

theorem cellMem_keeps {m : Table Byte} (h : Keeps a s) (hm : Memory.wf s.cellMem = true → Memory.wf m = true) :
    Keeps a { s with cellMem := m } :=
  keeps_memory h rfl rfl rfl (fun t => { t with }) fun t => { t with cellMem := hm t.cellMem }

theorem cells_keeps {m : Table Cell} (h : Keeps a s)
    (hm : Table.wf (fun _ => Cell.reset) s.cells = true → Table.wf (fun _ => Cell.reset) m = true) : Keeps a { s with cells := m } :=
  keeps_tables h rfl rfl rfl rfl rfl rfl fun t => { t with cells := hm t.cells }

theorem layers_keeps {m : Table LayerPrec} {p : Prec} (h : Keeps a s) (hp : p.layers = m) (hr : p.recipes = s.prec.recipes)
    (hm : Table.wf (fun _ => LayerPrec.reset) s.prec.layers = true → Table.wf (fun _ => LayerPrec.reset) m = true) :
    Keeps a { s with prec := p } :=
  keeps_tables h rfl rfl rfl rfl rfl rfl fun t => { t with layers := hp ▸ hm t.layers, recipes := hr ▸ t.recipes }

theorem stackMem_keeps {m : Table Byte} (h : Keeps a s) (hm : Memory.wf s.stackMem = true → Memory.wf m = true) :
    Keeps a { s with stackMem := m } :=
  keeps_memory h rfl rfl rfl (fun t => { t with }) fun t => { t with stackMem := hm t.stackMem }

theorem setGranule_keeps {c g : Nat} {v : Granule} (h : Keeps a s) : Keeps a (setGranule c g v s) := by
  unfold setGranule
  exact keeps_ite (cellMem_keeps h memPut_wf) h

theorem setStackGranule_keeps {n : Nat} {v : Granule} (h : Keeps a s) : Keeps a (setStackGranule n v s) := by
  unfold setStackGranule
  exact stackMem_keeps h memPut_wf

theorem stackPut_keeps {p n v : Nat} (h : Keeps a s) : Keeps a (stackPut p n v s) := by
  unfold stackPut
  exact stackMem_keeps h memPut_wf

theorem setSeqSlot_keeps {q : Nat} {x : SeqSlot} (h : Keeps a s) : Keeps a (setSeqSlot q x s) :=
  keeps_tables h rfl rfl rfl rfl rfl rfl fun t => { t with seqs := Table.wf_set _ _ _ _ t.seqs }

theorem modSeqSlot_keeps {q : Nat} {f : SeqSlot → SeqSlot} (h : Keeps a s) : Keeps a (modSeqSlot q f s) := by
  unfold modSeqSlot
  exact setSeqSlot_keeps h

theorem setModelSlot_keeps {m : Nat} {x : ModelSlot} (h : Keeps a s) : Keeps a (setModelSlot m x s) :=
  keeps_tables h rfl rfl rfl rfl rfl rfl fun t => { t with models := Table.wf_set _ _ _ _ t.models }

theorem modModelSlot_keeps {m : Nat} {f : ModelSlot → ModelSlot} (h : Keeps a s) : Keeps a (modModelSlot m f s) := by
  unfold modModelSlot
  exact setModelSlot_keeps h

theorem setImage_keeps {m : Nat} {x : Image} (h : Keeps a s) : Keeps a (setImage m x s) :=
  keeps_tables h rfl rfl rfl rfl rfl rfl fun t => { t with images := Table.wf_set _ _ _ _ t.images }

theorem modImage_keeps {m : Nat} {f : Image → Image} (h : Keeps a s) : Keeps a (modImage m f s) := by
  unfold modImage
  exact setImage_keeps h

theorem setLayerPrec_keeps {m l : Nat} {x : LayerPrec} (h : Keeps a s) : Keeps a (setLayerPrec m l x s) :=
  keeps_tables h rfl rfl rfl rfl rfl rfl fun t => { t with layers := Table.wf_set _ _ _ _ t.layers }

theorem setFieldPower_keeps {f : Nat} {x : FieldPower} (h : Keeps a s) : Keeps a (setFieldPower f x s) :=
  keeps_tables h rfl rfl rfl rfl rfl rfl fun t => { t with fields := Table.wf_set _ _ _ _ t.fields }

theorem setOutRing_keeps {r : Nat} {x : OutRing} (h : Keeps a s) : Keeps a (setOutRing r x s) :=
  keeps_tables h rfl rfl rfl rfl rfl rfl fun t => { t with out := Table.wf_set _ _ _ _ t.out }

theorem setCmdRing_keeps {r : Nat} {x : CmdRing} (h : Keeps a s) : Keeps a (setCmdRing r x s) :=
  keeps_tables h rfl rfl rfl rfl rfl rfl fun t => { t with cmd := Table.wf_set _ _ _ _ t.cmd }

theorem setLink_keeps {i : Nat} {l : LinkState} (h : Keeps a s) : Keeps a (setLink i l s) := by
  unfold setLink
  split <;> exact keeps_upd h rfl rfl rfl rfl rfl rfl rfl rfl rfl rfl rfl rfl rfl rfl rfl rfl rfl rfl rfl rfl rfl

theorem modLink_keeps {i : Nat} {f : LinkState → LinkState} (h : Keeps a s) : Keeps a (modLink i f s) := by
  unfold modLink
  exact setLink_keeps h

end Sys2Proof.Machine
end

