-- ==== Sys2Proof/Laws/Frame.lean ====
section
/-!
SUPPORT. Frames by parts of the state: `Same l a s` says that every part not listed in `l` is in `s` what it is in `a`. The Frame files
give one such lemma per function, with the parts it may change.
-/
set_option Elab.async false
namespace Sys2Proof.Machine
open Sys2Proof

/-- Every part of one list stands in the other. -/
abbrev Sub (a b : List Part) : Prop := (a.all fun p => b.contains p) = true

theorem Sub.mem {a b : List Part} (h : Sub a b) {p : Part} (hp : p ∈ a) : p ∈ b := by
  have := List.all_eq_true.1 h p hp
  simpa using this

theorem Sub.trans {a b c : List Part} (h : Sub a b) (k : Sub b c) : Sub a c := by
  refine List.all_eq_true.2 fun p hp => ?_
  simpa using k.mem (h.mem hp)

theorem Part.same_refl (p : Part) (a : State) : p.same a a := by
  cases p <;> first | exact rfl | exact ⟨rfl, rfl⟩ | exact ⟨rfl, rfl, rfl, rfl⟩

theorem Part.same_trans {p : Part} {a b c : State} (h : p.same a b) (k : p.same b c) : p.same a c := by
  cases p <;> first
    | exact Eq.trans k h
    | exact ⟨k.1.trans h.1, k.2.trans h.2⟩
    | exact ⟨k.1.trans h.1, k.2.1.trans h.2.1, k.2.2.1.trans h.2.2.1, k.2.2.2.trans h.2.2.2⟩

variable {σ e s : State} {l : List Part}

theorem Same.refl (l : List Part) (a : State) : Same l a a := ⟨fun p _ => p.same_refl a⟩

theorem Same.step (h : Same l σ e) (k : ∀ p, p ∉ l → p.same e s) : Same l σ s :=
  ⟨fun p hp => Part.same_trans (h.part p hp) (k p hp)⟩

/-- An update of the state, judged part by part. -/
theorem same_upd {win latchOcl latchMgmt cells counters accs cellMem stackMem} {mesh : Mesh} {prec : Prec} {sched : Sched} {beat : Beat}
    {budget : Budget} {kv : Kv} {svc : Svc} {ledger : Ledger} {tune : Tune} {link : LinkState} {ocl : Ocl} {pair : Pair}
    {faults : Faults} {power : Power} {boot : Boot} {fuses : Fuses} {sec : Sec} {agent : Agent} {mgmt : Mgmt} {now free : Nat}
    (h : Same l σ e) (k : ∀ p, p ∉ l → p.same e {
      pending := e.pending, win := win, latchOcl := latchOcl, latchMgmt := latchMgmt, cells := cells, counters := counters,
      accs := accs, cellMem := cellMem, stackMem := stackMem, mesh := mesh, prec := prec, sched := sched, beat := beat,
      budget := budget, kv := kv, svc := svc, ledger := ledger, tune := tune, link := link, ocl := ocl, pair := pair,
      faults := faults, power := power, boot := boot, fuses := fuses, sec := sec, agent := agent, mgmt := mgmt, now := now,
      free := free }) :
    Same l σ {
      pending := e.pending, win := win, latchOcl := latchOcl, latchMgmt := latchMgmt, cells := cells, counters := counters,
      accs := accs, cellMem := cellMem, stackMem := stackMem, mesh := mesh, prec := prec, sched := sched, beat := beat,
      budget := budget, kv := kv, svc := svc, ledger := ledger, tune := tune, link := link, ocl := ocl, pair := pair,
      faults := faults, power := power, boot := boot, fuses := fuses, sec := sec, agent := agent, mgmt := mgmt, now := now,
      free := free } := h.step k

theorem same_ite {c : Prop} [Decidable c] {x y : State} (hx : Same l σ x) (hy : Same l σ y) : Same l σ (if c then x else y) := by
  split <;> assumption

theorem same_snd_ite {α : Type} {c : Prop} [Decidable c] {x y : α × State} (hx : Same l σ x.2) (hy : Same l σ y.2) :
    Same l σ (if c then x else y).2 := by
  split <;> assumption

theorem when_same {b : Bool} {f : State → State} (hf : ∀ t, Same l σ t → Same l σ (f t)) (h : Same l σ s) : Same l σ (when b f s) := by
  unfold when
  exact same_ite (hf _ h) h

theorem foldl_same {α : Type} {xs : List α} {f : State → α → State} (hf : ∀ x t, Same l σ t → Same l σ (f t x)) (h : Same l σ s) :
    Same l σ (xs.foldl f s) := by
  induction xs generalizing s with
  | nil => exact h
  | cons x xs ih => exact ih (hf x s h)

theorem forEach_same {α : Type} {xs : List α} {f : α → State → State} (hf : ∀ x t, Same l σ t → Same l σ (f x t)) (h : Same l σ s) :
    Same l σ (forEach xs f s) := by
  unfold forEach
  exact foldl_same hf h

theorem setReg_same {off : Nat} {v : Word} (hl : Sub [.win] l) (h : Same l σ s) : Same l σ (setReg off v s) := by
  unfold setReg
  exact same_upd h fun p hp => by
    cases p <;> first | exact absurd (hl.mem (by decide)) hp | exact rfl | exact ⟨rfl, rfl⟩ | exact ⟨rfl, rfl, rfl, rfl⟩

theorem wr_same {f : Fld} {v : Nat} (hl : Sub [.win] l) (h : Same l σ s) : Same l σ (wr f v s) := by
  unfold wr
  exact setReg_same hl h

theorem wrB_same {f : Fld} {b : Bool} (hl : Sub [.win] l) (h : Same l σ s) : Same l σ (wrB f b s) := by
  unfold wrB
  exact wr_same hl h

theorem setCnt_same {off n : Nat} (hl : Sub [.win] l) (h : Same l σ s) : Same l σ (setCnt off n s) := by
  unfold setCnt
  exact setReg_same hl (setReg_same hl h)

theorem bumpBy_same {off n : Nat} (hl : Sub [.win] l) (h : Same l σ s) : Same l σ (bumpBy off n s) := by
  unfold bumpBy
  exact setCnt_same hl h

theorem bump_same {off : Nat} (hl : Sub [.win] l) (h : Same l σ s) : Same l σ (bump off s) := by
  unfold bump
  exact bumpBy_same hl h

theorem atTime_same {t : Nat} (hl : Sub [.now] l) (h : Same l σ s) : Same l σ (atTime t s) := by
  unfold atTime
  exact same_upd h fun p hp => by
    cases p <;> first | exact absurd (hl.mem (by decide)) hp | exact rfl | exact ⟨rfl, rfl⟩ | exact ⟨rfl, rfl, rfl, rfl⟩

theorem takeFree_same  (hl : Sub [.free] l) (h : Same l σ s) : Same l σ (takeFree  s) := by
  unfold takeFree
  exact same_upd h fun p hp => by
    cases p <;> first | exact absurd (hl.mem (by decide)) hp | exact rfl | exact ⟨rfl, rfl⟩ | exact ⟨rfl, rfl, rfl, rfl⟩

theorem setCell_same {c : Nat} {x : Cell} (hl : Sub [.cells] l) (h : Same l σ s) : Same l σ (setCell c x s) := by
  unfold setCell
  exact same_upd h fun p hp => by
    cases p <;> first | exact absurd (hl.mem (by decide)) hp | exact rfl | exact ⟨rfl, rfl⟩ | exact ⟨rfl, rfl, rfl, rfl⟩

theorem modCell_same {c : Nat} {f : Cell → Cell} (hl : Sub [.cells] l) (h : Same l σ s) : Same l σ (modCell c f s) := by
  unfold modCell
  exact setCell_same hl h

theorem setArrival_same {c n : Nat} {v : BitVec 24} (hl : Sub [.counters] l) (h : Same l σ s) : Same l σ (setArrival c n v s) := by
  unfold setArrival
  exact same_upd h fun p hp => by
    cases p <;> first | exact absurd (hl.mem (by decide)) hp | exact rfl | exact ⟨rfl, rfl⟩ | exact ⟨rfl, rfl, rfl, rfl⟩

theorem setAcc_same {c arr v row : Nat} {x : Word} (hl : Sub [.accs] l) (h : Same l σ s) : Same l σ (setAcc c arr v row x s) := by
  unfold setAcc
  exact same_upd h fun p hp => by
    cases p <;> first | exact absurd (hl.mem (by decide)) hp | exact rfl | exact ⟨rfl, rfl⟩ | exact ⟨rfl, rfl, rfl, rfl⟩

theorem setGranule_same {c g : Nat} {v : Granule} (hl : Sub [.cellMem] l) (h : Same l σ s) : Same l σ (setGranule c g v s) := by
  unfold setGranule
  refine same_ite ?_ h
  exact same_upd h fun p hp => by
    cases p <;> first | exact absurd (hl.mem (by decide)) hp | exact rfl | exact ⟨rfl, rfl⟩ | exact ⟨rfl, rfl, rfl, rfl⟩

theorem setStackGranule_same {n : Nat} {v : Granule} (hl : Sub [.stackMem] l) (h : Same l σ s) : Same l σ (setStackGranule n v s) := by
  unfold setStackGranule
  exact same_upd h fun p hp => by
    cases p <;> first | exact absurd (hl.mem (by decide)) hp | exact rfl | exact ⟨rfl, rfl⟩ | exact ⟨rfl, rfl, rfl, rfl⟩

theorem stackPut_same {p n v : Nat} (hl : Sub [.stackMem] l) (h : Same l σ s) : Same l σ (stackPut p n v s) := by
  unfold stackPut
  exact same_upd h fun p hp => by
    cases p <;> first | exact absurd (hl.mem (by decide)) hp | exact rfl | exact ⟨rfl, rfl⟩ | exact ⟨rfl, rfl, rfl, rfl⟩

theorem setSeqSlot_same {q : Nat} {x : SeqSlot} (hl : Sub [.kv] l) (h : Same l σ s) : Same l σ (setSeqSlot q x s) := by
  unfold setSeqSlot
  exact same_upd h fun p hp => by
    cases p <;> first | exact absurd (hl.mem (by decide)) hp | exact rfl | exact ⟨rfl, rfl⟩ | exact ⟨rfl, rfl, rfl, rfl⟩

theorem modSeqSlot_same {q : Nat} {f : SeqSlot → SeqSlot} (hl : Sub [.kv] l) (h : Same l σ s) : Same l σ (modSeqSlot q f s) := by
  unfold modSeqSlot
  exact setSeqSlot_same hl h

theorem setModelSlot_same {m : Nat} {x : ModelSlot} (hl : Sub [.svc] l) (h : Same l σ s) : Same l σ (setModelSlot m x s) := by
  unfold setModelSlot
  exact same_upd h fun p hp => by
    cases p <;> first | exact absurd (hl.mem (by decide)) hp | exact rfl | exact ⟨rfl, rfl⟩ | exact ⟨rfl, rfl, rfl, rfl⟩

theorem modModelSlot_same {m : Nat} {f : ModelSlot → ModelSlot} (hl : Sub [.svc] l) (h : Same l σ s) : Same l σ (modModelSlot m f s) := by
  unfold modModelSlot
  exact setModelSlot_same hl h

theorem setImage_same {m : Nat} {x : Image} (hl : Sub [.sched] l) (h : Same l σ s) : Same l σ (setImage m x s) := by
  unfold setImage
  exact same_upd h fun p hp => by
    cases p <;> first | exact absurd (hl.mem (by decide)) hp | exact rfl | exact ⟨rfl, rfl⟩ | exact ⟨rfl, rfl, rfl, rfl⟩

theorem modImage_same {m : Nat} {f : Image → Image} (hl : Sub [.sched] l) (h : Same l σ s) : Same l σ (modImage m f s) := by
  unfold modImage
  exact setImage_same hl h

theorem setLayerPrec_same {m k : Nat} {x : LayerPrec} (hl : Sub [.prec] l) (h : Same l σ s) : Same l σ (setLayerPrec m k x s) := by
  unfold setLayerPrec
  exact same_upd h fun p hp => by
    cases p <;> first | exact absurd (hl.mem (by decide)) hp | exact rfl | exact ⟨rfl, rfl⟩ | exact ⟨rfl, rfl, rfl, rfl⟩

theorem setFieldPower_same {f : Nat} {x : FieldPower} (hl : Sub [.power] l) (h : Same l σ s) : Same l σ (setFieldPower f x s) := by
  unfold setFieldPower
  exact same_upd h fun p hp => by
    cases p <;> first | exact absurd (hl.mem (by decide)) hp | exact rfl | exact ⟨rfl, rfl⟩ | exact ⟨rfl, rfl, rfl, rfl⟩

theorem setOutRing_same {r : Nat} {x : OutRing} (hl : Sub [.svc] l) (h : Same l σ s) : Same l σ (setOutRing r x s) := by
  unfold setOutRing
  exact same_upd h fun p hp => by
    cases p <;> first | exact absurd (hl.mem (by decide)) hp | exact rfl | exact ⟨rfl, rfl⟩ | exact ⟨rfl, rfl, rfl, rfl⟩

theorem setCmdRing_same {r : Nat} {x : CmdRing} (hl : Sub [.svc] l) (h : Same l σ s) : Same l σ (setCmdRing r x s) := by
  unfold setCmdRing
  exact same_upd h fun p hp => by
    cases p <;> first | exact absurd (hl.mem (by decide)) hp | exact rfl | exact ⟨rfl, rfl⟩ | exact ⟨rfl, rfl, rfl, rfl⟩

theorem setLink_same {i : Nat} {x : LinkState} (hl : Sub [.link, .ports] l) (h : Same l σ s) : Same l σ (setLink i x s) := by
  unfold setLink
  split <;> exact same_upd h fun p hp => by
    cases p <;> first | exact absurd (hl.mem (by decide)) hp | exact rfl | exact ⟨rfl, rfl⟩ | exact ⟨rfl, rfl, rfl, rfl⟩

theorem modLink_same {i : Nat} {f : LinkState → LinkState} (hl : Sub [.link, .ports] l) (h : Same l σ s) : Same l σ (modLink i f s) := by
  unfold modLink
  exact setLink_same hl h

end Sys2Proof.Machine
end

