-- ==== Sys2Proof/Laws/FrameLanes.lean ====
section
/-!
SUPPORT. The parts that may change, for every function of Machine/Lanes.lean that changes the state.
-/
set_option Elab.async false
namespace Sys2Proof.Machine
open Sys2Proof

theorem emit_same {σ : State} {π : List Part} {i : Nat} {raw : BitVec 2048} {s : State} (hl : Sub [.link, .ports] π) (h_s : Same π σ s) :
    Same π σ (emit i raw s) := by
  unfold emit
  repeat' first
    | with_reducible assumption
    | intro _
    | extract_lets
    | with_reducible refine modLink_same (Sub.trans (by decide) hl) ?_
    | fail_if_no_progress with_reducible refine same_upd ?_ (fun p hp => by cases p <;> first | exact absurd (hl.mem (by decide)) hp | exact rfl | exact ⟨rfl, rfl⟩ | exact ⟨rfl, rfl, rfl, rfl⟩)

theorem takeOff_same {σ : State} {π : List Part} {i : Nat} {raw : BitVec 2048} {s : State} (hl : Sub [.link, .ports] π) (h_s : Same π σ s) :
    Same π σ (takeOff i raw s).2 := by
  unfold takeOff
  repeat' first
    | with_reducible assumption
    | intro _
    | extract_lets
    | with_reducible refine modLink_same (Sub.trans (by decide) hl) ?_
    | fail_if_no_progress with_reducible refine same_upd ?_ (fun p hp => by cases p <;> first | exact absurd (hl.mem (by decide)) hp | exact rfl | exact ⟨rfl, rfl⟩ | exact ⟨rfl, rfl, rfl, rfl⟩)
    | with_reducible refine same_snd_ite ?_ ?_

theorem sendCtl_same {σ : State} {π : List Part} {i : Nat} {type : Nat} {s : State} (hl : Sub [.link, .ports] π) (h_s : Same π σ s) :
    Same π σ (sendCtl i type s) := by
  unfold sendCtl
  repeat' first
    | with_reducible assumption
    | intro _
    | extract_lets
    | with_reducible refine emit_same (Sub.trans (by decide) hl) ?_
    | with_reducible refine modLink_same (Sub.trans (by decide) hl) ?_
    | fail_if_no_progress with_reducible refine same_upd ?_ (fun p hp => by cases p <;> first | exact absurd (hl.mem (by decide)) hp | exact rfl | exact ⟨rfl, rfl⟩ | exact ⟨rfl, rfl, rfl, rfl⟩)

end Sys2Proof.Machine
end

