-- ==== Sys2Proof/Laws/FrameLink.lean ====
section
/-!
SUPPORT. The parts that may change, for every function of Machine/Link.lean that changes the state.
-/
set_option Elab.async false
namespace Sys2Proof.Machine
open Sys2Proof

theorem setTxKey_same {σ : State} {π : List Part} {k : KeySlot} {s : State} (hl : Sub [.ocl] π) (h_s : Same π σ s) :
    Same π σ (setTxKey k s) := by
  unfold setTxKey
  repeat' first
    | with_reducible assumption
    | intro _
    | with_reducible refine same_ite ?_ ?_
    | fail_if_no_progress with_reducible refine same_upd ?_ (fun p hp => by cases p <;> first | exact absurd (hl.mem (by decide)) hp | exact rfl | exact ⟨rfl, rfl⟩ | exact ⟨rfl, rfl, rfl, rfl⟩)
    | split

theorem dropEvent_same {σ : State} {π : List Part} {s : State} (hl : Sub [.win] π) (h_s : Same π σ s) :
    Same π σ (dropEvent s) := by
  unfold dropEvent
  repeat' first
    | with_reducible assumption
    | intro _
    | with_reducible refine wr_same (Sub.trans (by decide) hl) ?_
    | with_reducible refine bumpBy_same (Sub.trans (by decide) hl) ?_

theorem queueEvent_same {σ : State} {π : List Part} {off : Nat} {bits : Nat} {s : State} (hl : Sub [.win, .ocl] π) (h_s : Same π σ s) :
    Same π σ (queueEvent off bits s) := by
  unfold queueEvent
  repeat' first
    | with_reducible assumption
    | intro _
    | extract_lets
    | with_reducible refine same_ite ?_ ?_
    | with_reducible refine dropEvent_same (Sub.trans (by decide) hl) ?_
    | fail_if_no_progress with_reducible refine same_upd ?_ (fun p hp => by cases p <;> first | exact absurd (hl.mem (by decide)) hp | exact rfl | exact ⟨rfl, rfl⟩ | exact ⟨rfl, rfl, rfl, rfl⟩)
    | split
    | dsimp +zetaDelta only

theorem raiseQuiet_same {σ : State} {π : List Part} {f : Fld} {s : State} (hl : Sub [.win, .ocl] π) (h_s : Same π σ s) :
    Same π σ (raiseQuiet f s) := by
  unfold raiseQuiet
  repeat' first
    | with_reducible assumption
    | intro _
    | extract_lets
    | with_reducible refine same_ite ?_ ?_
    | with_reducible refine wr_same (Sub.trans (by decide) hl) ?_
    | with_reducible refine queueEvent_same (Sub.trans (by decide) hl) ?_
    | split

theorem sealMsg_same {σ : State} {π : List Part} {m : OutMsg} {s : State} (hl : Sub [.win, .ocl] π) (h_s : Same π σ s) :
    Same π σ (sealMsg m s).2 := by
  unfold sealMsg
  repeat' first
    | with_reducible assumption
    | intro _
    | extract_lets
    | with_reducible refine same_ite ?_ ?_
    | with_reducible refine setTxKey_same (Sub.trans (by decide) hl) ?_
    | with_reducible refine raiseQuiet_same (Sub.trans (by decide) hl) ?_
    | fail_if_no_progress with_reducible refine same_upd ?_ (fun p hp => by cases p <;> first | exact absurd (hl.mem (by decide)) hp | exact rfl | exact ⟨rfl, rfl⟩ | exact ⟨rfl, rfl, rfl, rfl⟩)
    | with_reducible refine same_snd_ite ?_ ?_
    | split

theorem pushFlits_same {σ : State} {π : List Part} {x0 : Nat} {x1 : Nat} {x2 : List TxSlot} {x3 : State} (hl : Sub [.link, .ports] π) (h_x3 : Same π σ x3) :
    Same π σ (pushFlits x0 x1 x2 x3) := by
  induction x0 generalizing x1 x2 x3 with
  | zero => (unfold pushFlits; repeat' first
      | with_reducible assumption
      | intro _
      | extract_lets
      | with_reducible refine same_ite ?_ ?_
      | with_reducible refine setLink_same (Sub.trans (by decide) hl) ?_
      | with_reducible refine emit_same (Sub.trans (by decide) hl) ?_
      | fail_if_no_progress with_reducible refine same_upd ?_ (fun p hp => by cases p <;> first | exact absurd (hl.mem (by decide)) hp | exact rfl | exact ⟨rfl, rfl⟩ | exact ⟨rfl, rfl, rfl, rfl⟩)
      | split)
  | succ _ ih => (unfold pushFlits; repeat' first
      | with_reducible assumption
      | with_reducible apply ih
      | (injections; subst_vars; with_reducible apply ih)
      | intro _
      | extract_lets
      | with_reducible refine same_ite ?_ ?_
      | with_reducible refine setLink_same (Sub.trans (by decide) hl) ?_
      | with_reducible refine emit_same (Sub.trans (by decide) hl) ?_
      | fail_if_no_progress with_reducible refine same_upd ?_ (fun p hp => by cases p <;> first | exact absurd (hl.mem (by decide)) hp | exact rfl | exact ⟨rfl, rfl⟩ | exact ⟨rfl, rfl, rfl, rfl⟩)
      | split)

theorem takeCredits_same {σ : State} {π : List Part} {i : Nat} {m : OutMsg} {s : State} (hl : Sub [.link, .ports] π) (h_s : Same π σ s) :
    Same π σ (takeCredits i m s) := by
  unfold takeCredits
  repeat' first
    | with_reducible assumption
    | intro _
    | with_reducible refine modLink_same (Sub.trans (by decide) hl) ?_
    | fail_if_no_progress with_reducible refine same_upd ?_ (fun p hp => by cases p <;> first | exact absurd (hl.mem (by decide)) hp | exact rfl | exact ⟨rfl, rfl⟩ | exact ⟨rfl, rfl, rfl, rfl⟩)
    | split

theorem setModeration_same {σ : State} {π : List Part} {m : Moderation} {s : State} (hl : Sub [.ocl] π) (h_s : Same π σ s) :
    Same π σ (setModeration m s) := by
  unfold setModeration
  repeat' first
    | with_reducible assumption
    | intro _
    | fail_if_no_progress with_reducible refine same_upd ?_ (fun p hp => by cases p <;> first | exact absurd (hl.mem (by decide)) hp | exact rfl | exact ⟨rfl, rfl⟩ | exact ⟨rfl, rfl, rfl, rfl⟩)

theorem stampIntr_same {σ : State} {π : List Part} {i : Nat} {m : OutMsg} {s : State} (hl : Sub [.ocl] π) (h_s : Same π σ s) :
    Same π σ (stampIntr i m s) := by
  unfold stampIntr
  repeat' first
    | with_reducible assumption
    | intro _
    | with_reducible refine same_ite ?_ ?_
    | with_reducible refine setModeration_same (Sub.trans (by decide) hl) ?_
    | fail_if_no_progress with_reducible refine same_upd ?_ (fun p hp => by cases p <;> first | exact absurd (hl.mem (by decide)) hp | exact rfl | exact ⟨rfl, rfl⟩ | exact ⟨rfl, rfl, rfl, rfl⟩)
    | split

theorem transmit_same {σ : State} {π : List Part} {i : Nat} {m : OutMsg} {s : State} (hl : Sub [.win, .link, .ports, .ocl] π) (h_s : Same π σ s) :
    Same π σ (transmit i m s).2 := by
  unfold transmit
  repeat' first
    | with_reducible assumption
    | intro _
    | extract_lets
    | with_reducible refine sealMsg_same (Sub.trans (by decide) hl) ?_
    | with_reducible refine stampIntr_same (Sub.trans (by decide) hl) ?_
    | with_reducible refine takeCredits_same (Sub.trans (by decide) hl) ?_
    | with_reducible refine same_snd_ite ?_ ?_

theorem pumpList_same {σ : State} {π : List Part} {i : Nat} {x0 : List OutMsg} {x1 : List OutMsg} {x2 : List TxSlot} {x3 : State} (hl : Sub [.win, .link, .ports, .ocl] π) (h_x3 : Same π σ x3) :
    Same π σ (pumpList i x0 x1 x2 x3).2 := by
  induction x0 generalizing i x1 x2 x3 with
  | nil => (unfold pumpList; repeat' first
      | with_reducible assumption
      | intro _
      | extract_lets
      | with_reducible refine same_ite ?_ ?_
      | with_reducible refine transmit_same (Sub.trans (by decide) hl) ?_
      | with_reducible refine same_snd_ite ?_ ?_
      | split)
  | cons _ _ ih => (unfold pumpList; repeat' first
      | with_reducible assumption
      | with_reducible apply ih
      | (injections; subst_vars; with_reducible apply ih)
      | intro _
      | extract_lets
      | with_reducible refine same_ite ?_ ?_
      | with_reducible refine transmit_same (Sub.trans (by decide) hl) ?_
      | with_reducible refine same_snd_ite ?_ ?_
      | split)

theorem pump_same {σ : State} {π : List Part} {i : Nat} {s : State} (hl : Sub [.win, .link, .ports, .ocl] π) (h_s : Same π σ s) :
    Same π σ (pump i s) := by
  unfold pump
  repeat' first
    | with_reducible assumption
    | intro _
    | extract_lets
    | with_reducible refine pumpList_same (Sub.trans (by decide) hl) ?_
    | with_reducible refine pushFlits_same (Sub.trans (by decide) hl) ?_
    | with_reducible refine modLink_same (Sub.trans (by decide) hl) ?_
    | fail_if_no_progress with_reducible refine same_upd ?_ (fun p hp => by cases p <;> first | exact absurd (hl.mem (by decide)) hp | exact rfl | exact ⟨rfl, rfl⟩ | exact ⟨rfl, rfl, rfl, rfl⟩)

theorem sendOut_same {σ : State} {π : List Part} {i : Nat} {m : OutMsg} {s : State} (hl : Sub [.win, .link, .ports, .ocl] π) (h_s : Same π σ s) :
    Same π σ (sendOut i m s) := by
  unfold sendOut
  repeat' first
    | with_reducible assumption
    | intro _
    | with_reducible refine pump_same (Sub.trans (by decide) hl) ?_
    | with_reducible refine modLink_same (Sub.trans (by decide) hl) ?_
    | fail_if_no_progress with_reducible refine same_upd ?_ (fun p hp => by cases p <;> first | exact absurd (hl.mem (by decide)) hp | exact rfl | exact ⟨rfl, rfl⟩ | exact ⟨rfl, rfl, rfl, rfl⟩)

theorem sendWr_same {σ : State} {π : List Part} {addr : Nat} {lines : Nat} {data : List Byte} {marks : List AckMark} {s : State} (hl : Sub [.win, .link, .ports, .ocl] π) (h_s : Same π σ s) :
    Same π σ (sendWr addr lines data marks s) := by
  unfold sendWr
  repeat' first
    | with_reducible assumption
    | intro _
    | with_reducible refine sendOut_same (Sub.trans (by decide) hl) ?_

theorem sendWrPart_same {σ : State} {π : List Part} {addr : Nat} {data : List Byte} {marks : List AckMark} {s : State} (hl : Sub [.win, .link, .ports, .ocl] π) (h_s : Same π σ s) :
    Same π σ (sendWrPart addr data marks s) := by
  unfold sendWrPart
  repeat' first
    | with_reducible assumption
    | intro _
    | with_reducible refine sendOut_same (Sub.trans (by decide) hl) ?_

theorem sendIntr_same {σ : State} {π : List Part} {vector : Nat} {s : State} (hl : Sub [.win, .link, .ports, .ocl] π) (h_s : Same π σ s) :
    Same π σ (sendIntr vector s) := by
  unfold sendIntr
  repeat' first
    | with_reducible assumption
    | intro _
    | with_reducible refine sendOut_same (Sub.trans (by decide) hl) ?_

theorem sendUnwatch_same {σ : State} {π : List Part} {addr : Nat} {s : State} (hl : Sub [.win, .link, .ports, .ocl] π) (h_s : Same π σ s) :
    Same π σ (sendUnwatch addr s) := by
  unfold sendUnwatch
  repeat' first
    | with_reducible assumption
    | intro _
    | with_reducible refine sendOut_same (Sub.trans (by decide) hl) ?_

theorem sendCpl_same {σ : State} {π : List Part} {tag : Nat} {status : Nat} {data : Nat} {mailbox : Bool} {s : State} (hl : Sub [.win, .link, .ports, .ocl] π) (h_s : Same π σ s) :
    Same π σ (sendCpl tag status data mailbox s) := by
  unfold sendCpl
  repeat' first
    | with_reducible assumption
    | intro _
    | with_reducible refine sendOut_same (Sub.trans (by decide) hl) ?_

theorem sendSnpAck_same {σ : State} {π : List Part} {addr : Nat} {s : State} (hl : Sub [.win, .link, .ports, .ocl] π) (h_s : Same π σ s) :
    Same π σ (sendSnpAck addr s) := by
  unfold sendSnpAck
  repeat' first
    | with_reducible assumption
    | intro _
    | with_reducible refine sendOut_same (Sub.trans (by decide) hl) ?_

theorem sendCredit_same {σ : State} {π : List Part} {req : Nat} {post : Nat} {init : Bool} {s : State} (hl : Sub [.win, .link, .ports, .ocl] π) (h_s : Same π σ s) :
    Same π σ (sendCredit req post init s) := by
  unfold sendCredit
  repeat' first
    | with_reducible assumption
    | intro _
    | with_reducible refine sendOut_same (Sub.trans (by decide) hl) ?_

theorem sendRead_same {σ : State} {π : List Part} {r : HostRead} {s : State} (hl : Sub [.win, .link, .ports, .ocl] π) (h_s : Same π σ s) :
    Same π σ (sendRead r s) := by
  unfold sendRead
  repeat' first
    | with_reducible assumption
    | intro _
    | with_reducible refine same_ite ?_ ?_
    | with_reducible refine sendOut_same (Sub.trans (by decide) hl) ?_
    | split

theorem issueRead_same {σ : State} {π : List Part} {r0 : HostRead} {s : State} (hl : Sub [.win, .link, .ports, .ocl] π) (h_s : Same π σ s) :
    Same π σ (issueRead r0 s) := by
  unfold issueRead
  repeat' first
    | with_reducible assumption
    | intro _
    | extract_lets
    | with_reducible refine sendRead_same (Sub.trans (by decide) hl) ?_
    | with_reducible refine reads_same (Sub.trans (by decide) hl) ?_
    | fail_if_no_progress with_reducible refine same_upd ?_ (fun p hp => by cases p <;> first | exact absurd (hl.mem (by decide)) hp | exact rfl | exact ⟨rfl, rfl⟩ | exact ⟨rfl, rfl, rfl, rfl⟩)
    | split
    | dsimp +zetaDelta only

theorem hostRead_same {σ : State} {π : List Part} {addr : Nat} {lenm1 : Nat} {watch : Bool} {use : ReadUse} {s : State} (hl : Sub [.win, .link, .ports, .ocl] π) (h_s : Same π σ s) :
    Same π σ (hostRead addr lenm1 watch use s) := by
  unfold hostRead
  repeat' first
    | with_reducible assumption
    | intro _
    | with_reducible refine issueRead_same (Sub.trans (by decide) hl) ?_

theorem issueWaiting_same {σ : State} {π : List Part} {s : State} (hl : Sub [.win, .link, .ports, .ocl] π) (h_s : Same π σ s) :
    Same π σ (issueWaiting s) := by
  unfold issueWaiting
  repeat' first
    | with_reducible assumption
    | intro _
    | with_reducible refine forEach_same ?_ ?_
    | with_reducible refine issueRead_same (Sub.trans (by decide) hl) ?_
    | fail_if_no_progress with_reducible refine same_upd ?_ (fun p hp => by cases p <;> first | exact absurd (hl.mem (by decide)) hp | exact rfl | exact ⟨rfl, rfl⟩ | exact ⟨rfl, rfl, rfl, rfl⟩)

theorem dropFetches_same {σ : State} {π : List Part} {p : FetchUse → Bool} {s : State} (hl : Sub [.ocl] π) (h_s : Same π σ s) :
    Same π σ (dropFetches p s) := by
  unfold dropFetches
  repeat' first
    | with_reducible assumption
    | intro _
    | fail_if_no_progress with_reducible refine same_upd ?_ (fun p hp => by cases p <;> first | exact absurd (hl.mem (by decide)) hp | exact rfl | exact ⟨rfl, rfl⟩ | exact ⟨rfl, rfl, rfl, rfl⟩)

theorem fetchNext_same {σ : State} {π : List Part} {f : Fetch} {s : State} (hl : Sub [.win, .link, .ports, .ocl] π) (h_s : Same π σ s) :
    Same π σ (fetchNext f s) := by
  unfold fetchNext
  repeat' first
    | with_reducible assumption
    | intro _
    | with_reducible refine hostRead_same (Sub.trans (by decide) hl) ?_
    | fail_if_no_progress with_reducible refine same_upd ?_ (fun p hp => by cases p <;> first | exact absurd (hl.mem (by decide)) hp | exact rfl | exact ⟨rfl, rfl⟩ | exact ⟨rfl, rfl, rfl, rfl⟩)

theorem startFetch_same {σ : State} {π : List Part} {u : FetchUse} {addr : Nat} {n : Nat} {s : State} (hl : Sub [.win, .link, .ports, .ocl] π) (h_s : Same π σ s) :
    Same π σ (startFetch u addr n s) := by
  unfold startFetch
  repeat' first
    | with_reducible assumption
    | intro _
    | with_reducible refine fetchNext_same (Sub.trans (by decide) hl) ?_
    | with_reducible refine dropFetches_same (Sub.trans (by decide) hl) ?_
    | fail_if_no_progress with_reducible refine same_upd ?_ (fun p hp => by cases p <;> first | exact absurd (hl.mem (by decide)) hp | exact rfl | exact ⟨rfl, rfl⟩ | exact ⟨rfl, rfl, rfl, rfl⟩)

theorem sendOnPort_same {σ : State} {π : List Part} {k : Nat} {m : SpanMsg} {s : State} (hl : Sub [.win, .link, .ports, .ocl] π) (h_s : Same π σ s) :
    Same π σ (sendOnPort k m s) := by
  unfold sendOnPort
  repeat' first
    | with_reducible assumption
    | intro _
    | with_reducible refine sendOut_same (Sub.trans (by decide) hl) ?_

theorem putSpan_same {σ : State} {π : List Part} {m : SpanMsg} {st : Nat} {s : State} (hl : Sub [.win, .link, .ports, .ocl, .pair, .free] π) (h_s : Same π σ s) :
    Same π σ (putSpan m st s) := by
  unfold putSpan
  repeat' first
    | with_reducible assumption
    | intro _
    | extract_lets
    | with_reducible refine same_ite ?_ ?_
    | with_reducible refine takeFree_same (Sub.trans (by decide) hl) ?_
    | with_reducible refine sendOnPort_same (Sub.trans (by decide) hl) ?_
    | fail_if_no_progress with_reducible refine same_upd ?_ (fun p hp => by cases p <;> first | exact absurd (hl.mem (by decide)) hp | exact rfl | exact ⟨rfl, rfl⟩ | exact ⟨rfl, rfl, rfl, rfl⟩)
    | split
    | dsimp +zetaDelta only

theorem takePsn_same {σ : State} {π : List Part} {st : Nat} {s : State} (hl : Sub [.pair] π) (h_s : Same π σ s) :
    Same π σ (takePsn st s) := by
  unfold takePsn
  repeat' first
    | with_reducible assumption
    | intro _
    | with_reducible refine same_ite ?_ ?_
    | fail_if_no_progress with_reducible refine same_upd ?_ (fun p hp => by cases p <;> first | exact absurd (hl.mem (by decide)) hp | exact rfl | exact ⟨rfl, rfl⟩ | exact ⟨rfl, rfl, rfl, rfl⟩)
    | split

theorem sendSpan_same {σ : State} {π : List Part} {op : Nat} {model : Nat} {arg : Nat} {data : List Slot16} {s : State} (hl : Sub [.win, .link, .ports, .ocl, .pair, .free] π) (h_s : Same π σ s) :
    Same π σ (sendSpan op model arg data s) := by
  unfold sendSpan
  repeat' first
    | with_reducible assumption
    | intro _
    | extract_lets
    | with_reducible refine same_ite ?_ ?_
    | with_reducible refine putSpan_same (Sub.trans (by decide) hl) ?_
    | with_reducible refine takePsn_same (Sub.trans (by decide) hl) ?_
    | split

theorem sendEveryPort_same {σ : State} {π : List Part} {op : Nat} {arg : Nat} {s : State} (hl : Sub [.win, .link, .ports, .ocl] π) (h_s : Same π σ s) :
    Same π σ (sendEveryPort op arg s) := by
  unfold sendEveryPort
  repeat' first
    | with_reducible assumption
    | intro _
    | with_reducible refine forEach_same ?_ ?_
    | with_reducible refine sendOnPort_same (Sub.trans (by decide) hl) ?_

end Sys2Proof.Machine
end

