-- ==== Sys2Proof/Laws/FrameFlags.lean ====
section
/-!
SUPPORT. The parts that may change, for every function of Machine/Flags.lean that changes the state.
-/
set_option Elab.async false
namespace Sys2Proof.Machine
open Sys2Proof

theorem oweIntr_same {σ : State} {π : List Part} {v : Nat} {owed : Bool} {s : State} (hl : Sub [.ocl] π) (h_s : Same π σ s) :
    Same π σ (oweIntr v owed s) := by
  unfold oweIntr
  repeat' first
    | with_reducible assumption
    | intro _
    | with_reducible refine setModeration_same (Sub.trans (by decide) hl) ?_
    | with_reducible refine when_same ?_ ?_
    | fail_if_no_progress with_reducible refine same_upd ?_ (fun p hp => by cases p <;> first | exact absurd (hl.mem (by decide)) hp | exact rfl | exact ⟨rfl, rfl⟩ | exact ⟨rfl, rfl, rfl, rfl⟩)
    | split

theorem interrupt_same {σ : State} {π : List Part} {v : Nat} {s : State} (hl : Sub [.win, .link, .ports, .ocl] π) (h_s : Same π σ s) :
    Same π σ (interrupt v s) := by
  unfold interrupt
  repeat' first
    | with_reducible assumption
    | intro _
    | extract_lets
    | with_reducible refine same_ite ?_ ?_
    | with_reducible refine sendIntr_same (Sub.trans (by decide) hl) ?_
    | with_reducible refine oweIntr_same (Sub.trans (by decide) hl) ?_
    | split

theorem writeEvents_same {σ : State} {π : List Part} {x0 : List EvRec} {x1 : Bool} {x2 : State} (hl : Sub [.win, .link, .ports, .ocl] π) (h_x2 : Same π σ x2) :
    Same π σ (writeEvents x0 x1 x2).2 := by
  induction x0 generalizing x1 x2 with
  | nil => (unfold writeEvents; repeat' first
      | with_reducible assumption
      | intro _
      | extract_lets
      | with_reducible refine same_ite ?_ ?_
      | with_reducible refine dropEvent_same (Sub.trans (by decide) hl) ?_
      | with_reducible refine sendWrPart_same (Sub.trans (by decide) hl) ?_
      | fail_if_no_progress with_reducible refine same_upd ?_ (fun p hp => by cases p <;> first | exact absurd (hl.mem (by decide)) hp | exact rfl | exact ⟨rfl, rfl⟩ | exact ⟨rfl, rfl, rfl, rfl⟩)
      | with_reducible refine same_snd_ite ?_ ?_
      | split)
  | cons _ _ ih => (unfold writeEvents; repeat' first
      | with_reducible assumption
      | with_reducible apply ih
      | (injections; subst_vars; with_reducible apply ih)
      | intro _
      | extract_lets
      | with_reducible refine same_ite ?_ ?_
      | with_reducible refine dropEvent_same (Sub.trans (by decide) hl) ?_
      | with_reducible refine sendWrPart_same (Sub.trans (by decide) hl) ?_
      | fail_if_no_progress with_reducible refine same_upd ?_ (fun p hp => by cases p <;> first | exact absurd (hl.mem (by decide)) hp | exact rfl | exact ⟨rfl, rfl⟩ | exact ⟨rfl, rfl, rfl, rfl⟩)
      | with_reducible refine same_snd_ite ?_ ?_
      | split)

theorem flushEvents_same {σ : State} {π : List Part} {s : State} (hl : Sub [.win, .link, .ports, .ocl] π) (h_s : Same π σ s) :
    Same π σ (flushEvents s) := by
  unfold flushEvents
  repeat' first
    | with_reducible assumption
    | intro _
    | extract_lets
    | with_reducible refine same_ite ?_ ?_
    | with_reducible refine writeEvents_same (Sub.trans (by decide) hl) ?_
    | with_reducible refine sendWrPart_same (Sub.trans (by decide) hl) ?_
    | with_reducible refine when_same ?_ ?_
    | with_reducible refine interrupt_same (Sub.trans (by decide) hl) ?_
    | fail_if_no_progress with_reducible refine same_upd ?_ (fun p hp => by cases p <;> first | exact absurd (hl.mem (by decide)) hp | exact rfl | exact ⟨rfl, rfl⟩ | exact ⟨rfl, rfl, rfl, rfl⟩)
    | split
    | dsimp +zetaDelta only

theorem raise_same {σ : State} {π : List Part} {f : Fld} {s : State} (hl : Sub [.win, .link, .ports, .ocl] π) (h_s : Same π σ s) :
    Same π σ (raise f s) := by
  unfold raise
  repeat' first
    | with_reducible assumption
    | intro _
    | with_reducible refine flushEvents_same (Sub.trans (by decide) hl) ?_
    | with_reducible refine raiseQuiet_same (Sub.trans (by decide) hl) ?_

theorem raiseBoth_same {σ : State} {π : List Part} {f : Fld} {g : Fld} {s : State} (hl : Sub [.win, .link, .ports, .ocl] π) (h_s : Same π σ s) :
    Same π σ (raiseBoth f g s) := by
  unfold raiseBoth
  repeat' first
    | with_reducible assumption
    | intro _
    | with_reducible refine flushEvents_same (Sub.trans (by decide) hl) ?_
    | with_reducible refine raiseQuiet_same (Sub.trans (by decide) hl) ?_

theorem pldm_same {σ : State} {π : List Part} {code : Nat} {detail : Nat} {s : State} (hl : Sub [.win, .link, .ports, .ocl, .mgmt] π) (h_s : Same π σ s) :
    Same π σ (pldm code detail s) := by
  unfold pldm
  repeat' first
    | with_reducible assumption
    | intro _
    | extract_lets
    | with_reducible refine same_ite ?_ ?_
    | with_reducible refine raise_same (Sub.trans (by decide) hl) ?_
    | with_reducible refine bump_same (Sub.trans (by decide) hl) ?_
    | fail_if_no_progress with_reducible refine same_upd ?_ (fun p hp => by cases p <;> first | exact absurd (hl.mem (by decide)) hp | exact rfl | exact ⟨rfl, rfl⟩ | exact ⟨rfl, rfl, rfl, rfl⟩)
    | split

theorem warn_same {σ : State} {π : List Part} {code : Nat} {field : Nat} {f : Fld} {s : State} (hl : Sub [.win, .link, .ports, .ocl, .mgmt] π) (h_s : Same π σ s) :
    Same π σ (warn code field f s) := by
  unfold warn
  repeat' first
    | with_reducible assumption
    | intro _
    | with_reducible refine pldm_same (Sub.trans (by decide) hl) ?_
    | with_reducible refine raise_same (Sub.trans (by decide) hl) ?_

theorem journal_same {σ : State} {π : List Part} {type : Nat} {payload : List Nat} {after : Durable} {s : State} (hl : Sub [.boot] π) (h_s : Same π σ s) :
    Same π σ (journal type payload after s) := by
  unfold journal
  repeat' first
    | with_reducible assumption
    | intro _
    | extract_lets
    | with_reducible refine same_ite ?_ ?_
    | fail_if_no_progress with_reducible refine same_upd ?_ (fun p hp => by cases p <;> first | exact absurd (hl.mem (by decide)) hp | exact rfl | exact ⟨rfl, rfl⟩ | exact ⟨rfl, rfl, rfl, rfl⟩)
    | split

theorem sendReport_same {σ : State} {π : List Part} {r : Report} {s : State} (hl : Sub [.mesh] π) (h_s : Same π σ s) :
    Same π σ (sendReport r s) := by
  unfold sendReport
  repeat' first
    | with_reducible assumption
    | intro _
    | fail_if_no_progress with_reducible refine same_upd ?_ (fun p hp => by cases p <;> first | exact absurd (hl.mem (by decide)) hp | exact rfl | exact ⟨rfl, rfl⟩ | exact ⟨rfl, rfl, rfl, rfl⟩)

theorem report_same {σ : State} {π : List Part} {cause : Nat} {c : Nat} {s : State} (hl : Sub [.mesh] π) (h_s : Same π σ s) :
    Same π σ (report cause c s) := by
  unfold report
  repeat' first
    | with_reducible assumption
    | intro _
    | with_reducible refine sendReport_same (Sub.trans (by decide) hl) ?_
    | fail_if_no_progress with_reducible refine same_upd ?_ (fun p hp => by cases p <;> first | exact absurd (hl.mem (by decide)) hp | exact rfl | exact ⟨rfl, rfl⟩ | exact ⟨rfl, rfl, rfl, rfl⟩)

theorem holdFw_same {σ : State} {π : List Part} {code : Nat} {s : State} (hl : Sub [.sched] π) (h_s : Same π σ s) :
    Same π σ (holdFw code s) := by
  unfold holdFw
  repeat' first
    | with_reducible assumption
    | intro _
    | with_reducible refine same_ite ?_ ?_
    | fail_if_no_progress with_reducible refine same_upd ?_ (fun p hp => by cases p <;> first | exact absurd (hl.mem (by decide)) hp | exact rfl | exact ⟨rfl, rfl⟩ | exact ⟨rfl, rfl, rfl, rfl⟩)
    | split

theorem releaseFw_same {σ : State} {π : List Part} {code : Nat} {s : State} (hl : Sub [.sched] π) (h_s : Same π σ s) :
    Same π σ (releaseFw code s) := by
  unfold releaseFw
  repeat' first
    | with_reducible assumption
    | intro _
    | fail_if_no_progress with_reducible refine same_upd ?_ (fun p hp => by cases p <;> first | exact absurd (hl.mem (by decide)) hp | exact rfl | exact ⟨rfl, rfl⟩ | exact ⟨rfl, rfl, rfl, rfl⟩)

end Sys2Proof.Machine
end

