-- ==== Sys2Proof/Laws/FrameBudget.lean ====
section
/-!
SUPPORT. The parts that may change, for every function of Machine/Budget.lean that changes the state.
-/
set_option Elab.async false
namespace Sys2Proof.Machine
open Sys2Proof

theorem checkHeld_same {σ : State} {π : List Part} {a : Nat} {s : State} (hl : Sub [.win, .link, .ports, .ocl] π) (h_s : Same π σ s) :
    Same π σ (checkHeld a s) := by
  unfold checkHeld
  repeat' first
    | with_reducible assumption
    | intro _
    | with_reducible refine same_ite ?_ ?_
    | with_reducible refine raise_same (Sub.trans (by decide) hl) ?_
    | with_reducible refine wr_same (Sub.trans (by decide) hl) ?_
    | split

theorem charge_same {σ : State} {π : List Part} {a : Nat} {kind : Nat} {n : Nat} {s : State} (hl : Sub [.win, .budget, .link, .ports, .ocl] π) (h_s : Same π σ s) :
    Same π σ (charge a kind n s) := by
  unfold charge
  repeat' first
    | with_reducible assumption
    | intro _
    | extract_lets
    | with_reducible refine checkHeld_same (Sub.trans (by decide) hl) ?_
    | with_reducible refine wr_same (Sub.trans (by decide) hl) ?_
    | fail_if_no_progress with_reducible refine same_upd ?_ (fun p hp => by cases p <;> first | exact absurd (hl.mem (by decide)) hp | exact rfl | exact ⟨rfl, rfl⟩ | exact ⟨rfl, rfl, rfl, rfl⟩)

theorem chargeEnergy_same {σ : State} {π : List Part} {a : Nat} {kind : Nat} {n : Nat} {s : State} (hl : Sub [.win, .budget, .link, .ports, .ocl] π) (h_s : Same π σ s) :
    Same π σ (chargeEnergy a kind n s) := by
  unfold chargeEnergy
  repeat' first
    | with_reducible assumption
    | intro _
    | with_reducible refine charge_same (Sub.trans (by decide) hl) ?_

end Sys2Proof.Machine
end

