-- ==== Sys2Proof/Laws/FrameMemory.lean ====
section
/-!
SUPPORT. The parts that may change, for every function of Machine/Memory.lean that changes the state.
-/
set_option Elab.async false
namespace Sys2Proof.Machine
open Sys2Proof

theorem rangeFault_same {σ : State} {π : List Part} {c : Nat} {s : State} (hl : Sub [.win, .mesh, .link, .ports, .ocl] π) (h_s : Same π σ s) :
    Same π σ (rangeFault c s) := by
  unfold rangeFault
  repeat' first
    | with_reducible assumption
    | intro _
    | with_reducible refine report_same (Sub.trans (by decide) hl) ?_
    | with_reducible refine raise_same (Sub.trans (by decide) hl) ?_

theorem countAccess_same {σ : State} {π : List Part} {c : Nat} {port : Nat} {g : Nat} {s : State} (hl : Sub [.win, .mesh, .link, .ports, .ocl] π) (h_s : Same π σ s) :
    Same π σ (countAccess c port g s) := by
  unfold countAccess
  repeat' first
    | with_reducible assumption
    | intro _
    | with_reducible refine same_ite ?_ ?_
    | with_reducible refine when_same ?_ ?_
    | with_reducible refine bump_same (Sub.trans (by decide) hl) ?_
    | with_reducible refine rangeFault_same (Sub.trans (by decide) hl) ?_
    | split

theorem countAccesses_same {σ : State} {π : List Part} {c : Nat} {port : Nat} {gs : List Nat} {s : State} (hl : Sub [.win, .mesh, .link, .ports, .ocl] π) (h_s : Same π σ s) :
    Same π σ (countAccesses c port gs s) := by
  unfold countAccesses
  repeat' first
    | with_reducible assumption
    | intro _
    | with_reducible refine forEach_same ?_ ?_
    | with_reducible refine countAccess_same (Sub.trans (by decide) hl) ?_

theorem countLoaded_same {σ : State} {π : List Part} {c : Nat} {port : Nat} {g : Nat} {s : State} (hl : Sub [.win, .mesh, .link, .ports, .ocl] π) (h_s : Same π σ s) :
    Same π σ (countLoaded c port g s) := by
  unfold countLoaded
  repeat' first
    | with_reducible assumption
    | intro _
    | with_reducible refine same_ite ?_ ?_
    | with_reducible refine when_same ?_ ?_
    | with_reducible refine bump_same (Sub.trans (by decide) hl) ?_
    | with_reducible refine rangeFault_same (Sub.trans (by decide) hl) ?_
    | split

theorem captureColl_same {σ : State} {π : List Part} {c : Nat} {m : Meet} {win : Nat × Bool} {s : State} (hl : Sub [.win, .mesh] π) (h_s : Same π σ s) :
    Same π σ (captureColl c m win s) := by
  unfold captureColl
  repeat' first
    | with_reducible assumption
    | intro _
    | extract_lets
    | with_reducible refine wr_same (Sub.trans (by decide) hl) ?_
    | with_reducible refine wrB_same (Sub.trans (by decide) hl) ?_
    | fail_if_no_progress with_reducible refine same_upd ?_ (fun p hp => by cases p <;> first | exact absurd (hl.mem (by decide)) hp | exact rfl | exact ⟨rfl, rfl⟩ | exact ⟨rfl, rfl, rfl, rfl⟩)

theorem collide_same {σ : State} {π : List Part} {c : Nat} {m : Meet} {s : State} (hl : Sub [.win, .cells, .mesh] π) (h_s : Same π σ s) :
    Same π σ (collide c m s) := by
  unfold collide
  repeat' first
    | with_reducible assumption
    | intro _
    | extract_lets
    | with_reducible refine bumpBy_same (Sub.trans (by decide) hl) ?_
    | with_reducible refine modCell_same (Sub.trans (by decide) hl) ?_
    | with_reducible refine when_same ?_ ?_
    | with_reducible refine captureColl_same (Sub.trans (by decide) hl) ?_
    | fail_if_no_progress with_reducible refine same_upd ?_ (fun p hp => by cases p <;> first | exact absurd (hl.mem (by decide)) hp | exact rfl | exact ⟨rfl, rfl⟩ | exact ⟨rfl, rfl, rfl, rfl⟩)
    | split
    | dsimp +zetaDelta only

theorem portDone_same {σ : State} {π : List Part} {c : Nat} {port : Nat} {s : State} (hl : Sub [.cells] π) (h_s : Same π σ s) :
    Same π σ (portDone c port s) := by
  unfold portDone
  repeat' first
    | with_reducible assumption
    | intro _
    | with_reducible refine same_ite ?_ ?_
    | with_reducible refine modCell_same (Sub.trans (by decide) hl) ?_
    | fail_if_no_progress with_reducible refine same_upd ?_ (fun p hp => by cases p <;> first | exact absurd (hl.mem (by decide)) hp | exact rfl | exact ⟨rfl, rfl⟩ | exact ⟨rfl, rfl, rfl, rfl⟩)
    | split

theorem captureEcc_same {σ : State} {π : List Part} {c : Nat} {w : Nat} {ue : Bool} {s : State} (hl : Sub [.win] π) (h_s : Same π σ s) :
    Same π σ (captureEcc c w ue s) := by
  unfold captureEcc
  repeat' first
    | with_reducible assumption
    | intro _
    | extract_lets
    | with_reducible refine same_ite ?_ ?_
    | with_reducible refine wr_same (Sub.trans (by decide) hl) ?_
    | with_reducible refine wrB_same (Sub.trans (by decide) hl) ?_
    | split

theorem correctWord_same {σ : State} {π : List Part} {c : Nat} {w : Nat} {s : State} (hl : Sub [.win, .cells, .mesh, .link, .ports, .ocl] π) (h_s : Same π σ s) :
    Same π σ (correctWord c w s) := by
  unfold correctWord
  repeat' first
    | with_reducible assumption
    | intro _
    | extract_lets
    | with_reducible refine same_ite ?_ ?_
    | with_reducible refine captureEcc_same (Sub.trans (by decide) hl) ?_
    | with_reducible refine raise_same (Sub.trans (by decide) hl) ?_
    | with_reducible refine bump_same (Sub.trans (by decide) hl) ?_
    | with_reducible refine modCell_same (Sub.trans (by decide) hl) ?_
    | with_reducible refine when_same ?_ ?_
    | with_reducible refine report_same (Sub.trans (by decide) hl) ?_
    | fail_if_no_progress with_reducible refine same_upd ?_ (fun p hp => by cases p <;> first | exact absurd (hl.mem (by decide)) hp | exact rfl | exact ⟨rfl, rfl⟩ | exact ⟨rfl, rfl, rfl, rfl⟩)
    | split

theorem uncorrectable_same {σ : State} {π : List Part} {c : Nat} {w : Nat} {s : State} (hl : Sub [.win, .mesh, .link, .ports, .ocl] π) (h_s : Same π σ s) :
    Same π σ (uncorrectable c w s) := by
  unfold uncorrectable
  repeat' first
    | with_reducible assumption
    | intro _
    | extract_lets
    | with_reducible refine report_same (Sub.trans (by decide) hl) ?_
    | with_reducible refine captureEcc_same (Sub.trans (by decide) hl) ?_
    | with_reducible refine raise_same (Sub.trans (by decide) hl) ?_
    | with_reducible refine bump_same (Sub.trans (by decide) hl) ?_

theorem readChecks_same {σ : State} {π : List Part} {c : Nat} {gs : List Nat} {env : MemEnv} {s : State} (hl : Sub [.win, .cells, .mesh, .link, .ports, .ocl] π) (h_s : Same π σ s) :
    Same π σ (readChecks c gs env s) := by
  unfold readChecks
  repeat' first
    | with_reducible assumption
    | intro _
    | extract_lets
    | with_reducible refine forEach_same ?_ ?_
    | with_reducible refine correctWord_same (Sub.trans (by decide) hl) ?_
    | with_reducible refine modCell_same (Sub.trans (by decide) hl) ?_
    | with_reducible refine uncorrectable_same (Sub.trans (by decide) hl) ?_
    | fail_if_no_progress with_reducible refine same_upd ?_ (fun p hp => by cases p <;> first | exact absurd (hl.mem (by decide)) hp | exact rfl | exact ⟨rfl, rfl⟩ | exact ⟨rfl, rfl, rfl, rfl⟩)

theorem reads_same {σ : State} {π : List Part} {c : Nat} {port : Nat} {gs : List Nat} {env : MemEnv} {s : State} (hl : Sub [.win, .cells, .mesh, .link, .ports, .ocl] π) (h_s : Same π σ s) :
    Same π σ (reads c port gs env s) := by
  unfold reads
  repeat' first
    | with_reducible assumption
    | intro _
    | extract_lets
    | with_reducible refine readChecks_same (Sub.trans (by decide) hl) ?_
    | with_reducible refine countAccesses_same (Sub.trans (by decide) hl) ?_
    | with_reducible refine forEach_same ?_ ?_
    | with_reducible refine report_same (Sub.trans (by decide) hl) ?_
    | with_reducible refine portDone_same (Sub.trans (by decide) hl) ?_
    | with_reducible refine collide_same (Sub.trans (by decide) hl) ?_

theorem loadReads_same {σ : State} {π : List Part} {c : Nat} {port : Nat} {gs : List Nat} {env : MemEnv} {s : State} (hl : Sub [.win, .cells, .mesh, .link, .ports, .ocl] π) (h_s : Same π σ s) :
    Same π σ (loadReads c port gs env s) := by
  unfold loadReads
  repeat' first
    | with_reducible assumption
    | intro _
    | extract_lets
    | with_reducible refine readChecks_same (Sub.trans (by decide) hl) ?_
    | with_reducible refine forEach_same ?_ ?_
    | with_reducible refine countLoaded_same (Sub.trans (by decide) hl) ?_
    | with_reducible refine report_same (Sub.trans (by decide) hl) ?_
    | with_reducible refine portDone_same (Sub.trans (by decide) hl) ?_
    | with_reducible refine collide_same (Sub.trans (by decide) hl) ?_

theorem storeGranule_same {σ : State} {π : List Part} {c : Nat} {g : Nat} {v : Granule} {s : State} (hl : Sub [.cells, .cellMem] π) (h_s : Same π σ s) :
    Same π σ (storeGranule c g v s) := by
  unfold storeGranule
  repeat' first
    | with_reducible assumption
    | intro _
    | with_reducible refine same_ite ?_ ?_
    | with_reducible refine modCell_same (Sub.trans (by decide) hl) ?_
    | with_reducible refine setGranule_same (Sub.trans (by decide) hl) ?_
    | fail_if_no_progress with_reducible refine same_upd ?_ (fun p hp => by cases p <;> first | exact absurd (hl.mem (by decide)) hp | exact rfl | exact ⟨rfl, rfl⟩ | exact ⟨rfl, rfl, rfl, rfl⟩)
    | split

theorem putGranule_same {σ : State} {π : List Part} {c : Nat} {g : Nat} {v : Granule} {s : State} (hl : Sub [.cells, .cellMem] π) (h_s : Same π σ s) :
    Same π σ (putGranule c g v s) := by
  unfold putGranule
  repeat' first
    | with_reducible assumption
    | intro _
    | with_reducible refine same_ite ?_ ?_
    | with_reducible refine storeGranule_same (Sub.trans (by decide) hl) ?_
    | split

theorem loadGranule_same {σ : State} {π : List Part} {c : Nat} {g : Nat} {v : Granule} {s : State} (hl : Sub [.win, .cells, .cellMem, .mesh, .link, .ports, .ocl] π) (h_s : Same π σ s) :
    Same π σ (loadGranule c g v s) := by
  unfold loadGranule
  repeat' first
    | with_reducible assumption
    | intro _
    | with_reducible refine same_ite ?_ ?_
    | with_reducible refine storeGranule_same (Sub.trans (by decide) hl) ?_
    | with_reducible refine rangeFault_same (Sub.trans (by decide) hl) ?_
    | split

theorem writeGranule_same {σ : State} {π : List Part} {c : Nat} {port : Nat} {g : Nat} {v : Granule} {s : State} (hl : Sub [.win, .cells, .cellMem, .mesh, .link, .ports, .ocl] π) (h_s : Same π σ s) :
    Same π σ (writeGranule c port g v s) := by
  unfold writeGranule
  repeat' first
    | with_reducible assumption
    | intro _
    | with_reducible refine putGranule_same (Sub.trans (by decide) hl) ?_
    | with_reducible refine countAccess_same (Sub.trans (by decide) hl) ?_

theorem writeGranules_same {σ : State} {π : List Part} {c : Nat} {port : Nat} {x0 : Nat} {x1 : List Granule} {x2 : State} (hl : Sub [.win, .cells, .cellMem, .mesh, .link, .ports, .ocl] π) (h_x2 : Same π σ x2) :
    Same π σ (writeGranules c port x0 x1 x2) := by
  induction x1 generalizing c port x0 x2 with
  | nil => (unfold writeGranules; repeat' first
      | with_reducible assumption
      | intro _
      | with_reducible refine writeGranule_same (Sub.trans (by decide) hl) ?_)
  | cons _ _ ih => (unfold writeGranules; repeat' first
      | with_reducible assumption
      | with_reducible apply ih
      | (injections; subst_vars; with_reducible apply ih)
      | intro _
      | with_reducible refine writeGranule_same (Sub.trans (by decide) hl) ?_)

theorem arrive_same {σ : State} {π : List Part} {c : Nat} {n : Nat} {s : State} (hl : Sub [.win, .cells, .counters, .link, .ports, .ocl] π) (h_s : Same π σ s) :
    Same π σ (arrive c n s) := by
  unfold arrive
  repeat' first
    | with_reducible assumption
    | intro _
    | extract_lets
    | with_reducible refine same_ite ?_ ?_
    | with_reducible refine modCell_same (Sub.trans (by decide) hl) ?_
    | with_reducible refine raise_same (Sub.trans (by decide) hl) ?_
    | with_reducible refine setArrival_same (Sub.trans (by decide) hl) ?_
    | fail_if_no_progress with_reducible refine same_upd ?_ (fun p hp => by cases p <;> first | exact absurd (hl.mem (by decide)) hp | exact rfl | exact ⟨rfl, rfl⟩ | exact ⟨rfl, rfl, rfl, rfl⟩)
    | split

theorem takeThreshold_same {σ : State} {π : List Part} {c : Nat} {n : Nat} {t : BitVec 24} {s : State} (hl : Sub [.cells, .counters] π) (h_s : Same π σ s) :
    Same π σ (takeThreshold c n t s) := by
  unfold takeThreshold
  repeat' first
    | with_reducible assumption
    | intro _
    | with_reducible refine modCell_same (Sub.trans (by decide) hl) ?_
    | with_reducible refine setArrival_same (Sub.trans (by decide) hl) ?_
    | fail_if_no_progress with_reducible refine same_upd ?_ (fun p hp => by cases p <;> first | exact absurd (hl.mem (by decide)) hp | exact rfl | exact ⟨rfl, rfl⟩ | exact ⟨rfl, rfl, rfl, rfl⟩)

theorem precise_same {σ : State} {π : List Part} {c : Nat} {kind : Nat} {n : Nat} {s : State} (hl : Sub [.prec] π) (h_s : Same π σ s) :
    Same π σ (precise c kind n s) := by
  unfold precise
  repeat' first
    | with_reducible assumption
    | intro _
    | fail_if_no_progress with_reducible refine same_upd ?_ (fun p hp => by cases p <;> first | exact absurd (hl.mem (by decide)) hp | exact rfl | exact ⟨rfl, rfl⟩ | exact ⟨rfl, rfl, rfl, rfl⟩)
    | split

theorem accessAged_same {σ : State} {π : List Part} {c : Nat} {x : LosingAccess} {s : State} (hl : Sub [.cells] π) (h_s : Same π σ s) :
    Same π σ (accessAged c x s) := by
  unfold accessAged
  repeat' first
    | with_reducible assumption
    | intro _
    | with_reducible refine same_ite ?_ ?_
    | with_reducible refine modCell_same (Sub.trans (by decide) hl) ?_
    | fail_if_no_progress with_reducible refine same_upd ?_ (fun p hp => by cases p <;> first | exact absurd (hl.mem (by decide)) hp | exact rfl | exact ⟨rfl, rfl⟩ | exact ⟨rfl, rfl, rfl, rfl⟩)
    | split

theorem eccWriteback_same {σ : State} {π : List Part} {c : Nat} {g : Nat} {w : Nat} {s : State} (hl : Sub [.cells] π) (h_s : Same π σ s) :
    Same π σ (eccWriteback c g w s) := by
  unfold eccWriteback
  repeat' first
    | with_reducible assumption
    | intro _
    | extract_lets
    | with_reducible refine same_ite ?_ ?_
    | with_reducible refine modCell_same (Sub.trans (by decide) hl) ?_
    | fail_if_no_progress with_reducible refine same_upd ?_ (fun p hp => by cases p <;> first | exact absurd (hl.mem (by decide)) hp | exact rfl | exact ⟨rfl, rfl⟩ | exact ⟨rfl, rfl, rfl, rfl⟩)
    | split

theorem scrubRead_same {σ : State} {π : List Part} {c : Nat} {t : Nat} {env : MemEnv} {s : State} (hl : Sub [.win, .cells, .mesh, .link, .ports, .ocl, .now] π) (h_s : Same π σ s) :
    Same π σ (scrubRead c t env s) := by
  unfold scrubRead
  repeat' first
    | with_reducible assumption
    | intro _
    | extract_lets
    | with_reducible refine same_ite ?_ ?_
    | with_reducible refine forEach_same ?_ ?_
    | with_reducible refine collide_same (Sub.trans (by decide) hl) ?_
    | with_reducible refine readChecks_same (Sub.trans (by decide) hl) ?_
    | with_reducible refine atTime_same (Sub.trans (by decide) hl) ?_
    | with_reducible refine report_same (Sub.trans (by decide) hl) ?_
    | with_reducible refine modCell_same (Sub.trans (by decide) hl) ?_
    | with_reducible refine scrubAged_same (Sub.trans (by decide) hl) ?_
    | with_reducible refine when_same ?_ ?_
    | with_reducible refine bump_same (Sub.trans (by decide) hl) ?_
    | fail_if_no_progress with_reducible refine same_upd ?_ (fun p hp => by cases p <;> first | exact absurd (hl.mem (by decide)) hp | exact rfl | exact ⟨rfl, rfl⟩ | exact ⟨rfl, rfl, rfl, rfl⟩)
    | split

theorem scrubAged_same {σ : State} {π : List Part} {c : Nat} {s : State} (hl : Sub [.cells] π) (h_s : Same π σ s) :
    Same π σ (scrubAged c s) := by
  unfold scrubAged
  repeat' first
    | with_reducible assumption
    | intro _
    | with_reducible refine same_ite ?_ ?_
    | with_reducible refine modCell_same (Sub.trans (by decide) hl) ?_
    | fail_if_no_progress with_reducible refine same_upd ?_ (fun p hp => by cases p <;> first | exact absurd (hl.mem (by decide)) hp | exact rfl | exact ⟨rfl, rfl⟩ | exact ⟨rfl, rfl, rfl, rfl⟩)
    | split

theorem scrubLate_same {σ : State} {π : List Part} {c : Nat} {t : Nat} {s : State} (hl : Sub [.win, .cells, .link, .ports, .ocl, .now] π) (h_s : Same π σ s) :
    Same π σ (scrubLate c t s) := by
  unfold scrubLate
  repeat' first
    | with_reducible assumption
    | intro _
    | with_reducible refine same_ite ?_ ?_
    | with_reducible refine raise_same (Sub.trans (by decide) hl) ?_
    | with_reducible refine modCell_same (Sub.trans (by decide) hl) ?_
    | with_reducible refine atTime_same (Sub.trans (by decide) hl) ?_
    | fail_if_no_progress with_reducible refine same_upd ?_ (fun p hp => by cases p <;> first | exact absurd (hl.mem (by decide)) hp | exact rfl | exact ⟨rfl, rfl⟩ | exact ⟨rfl, rfl, rfl, rfl⟩)
    | split

theorem execAccessAged_same {σ : State} {π : List Part} {c : Nat} {x : LosingAccess} {s : State} (hl : Sub [.cells] π) (h_s : Same π σ s) :
    ∃ τ, execAccessAged c x s = .next τ ∧ Same π σ τ := by
  refine ⟨_, rfl, ?_⟩
  repeat' first
    | with_reducible assumption
    | intro _
    | with_reducible refine accessAged_same (Sub.trans (by decide) hl) ?_

theorem execEccWriteback_same {σ : State} {π : List Part} {c : Nat} {g : Nat} {w : Nat} {s : State} (hl : Sub [.cells] π) (h_s : Same π σ s) :
    ∃ τ, execEccWriteback c g w s = .next τ ∧ Same π σ τ := by
  refine ⟨_, rfl, ?_⟩
  repeat' first
    | with_reducible assumption
    | intro _
    | with_reducible refine eccWriteback_same (Sub.trans (by decide) hl) ?_

theorem execScrubRead_same {σ : State} {π : List Part} {c : Nat} {t : Nat} {env : MemEnv} {s : State} (hl : Sub [.win, .cells, .mesh, .link, .ports, .ocl, .now] π) (h_s : Same π σ s) :
    ∃ τ, execScrubRead c t env s = .next τ ∧ Same π σ τ := by
  refine ⟨_, rfl, ?_⟩
  repeat' first
    | with_reducible assumption
    | intro _
    | with_reducible refine scrubRead_same (Sub.trans (by decide) hl) ?_

theorem execScrubAged_same {σ : State} {π : List Part} {c : Nat} {s : State} (hl : Sub [.cells] π) (h_s : Same π σ s) :
    ∃ τ, execScrubAged c s = .next τ ∧ Same π σ τ := by
  refine ⟨_, rfl, ?_⟩
  repeat' first
    | with_reducible assumption
    | intro _
    | with_reducible refine scrubAged_same (Sub.trans (by decide) hl) ?_

theorem execScrubLate_same {σ : State} {π : List Part} {c : Nat} {t : Nat} {s : State} (hl : Sub [.win, .cells, .link, .ports, .ocl, .now] π) (h_s : Same π σ s) :
    ∃ τ, execScrubLate c t s = .next τ ∧ Same π σ τ := by
  refine ⟨_, rfl, ?_⟩
  repeat' first
    | with_reducible assumption
    | intro _
    | with_reducible refine scrubLate_same (Sub.trans (by decide) hl) ?_

end Sys2Proof.Machine
end

