-- ==== Sys2Proof/Laws/FrameTensor.lean ====
section
/-!
SUPPORT. The parts that may change, for every function of Machine/Tensor.lean that changes the state.
-/
set_option Elab.async false
namespace Sys2Proof.Machine
open Sys2Proof

theorem accumulate_same {σ : State} {π : List Part} {c : Nat} {arr : Nat} {v : Nat} {i : Nat} {r : Word} {s : State} (hl : Sub [.accs] π) (h_s : Same π σ s) :
    Same π σ (accumulate c arr v i r s) := by
  unfold accumulate
  repeat' first
    | with_reducible assumption
    | intro _
    | with_reducible refine setAcc_same (Sub.trans (by decide) hl) ?_

theorem clearFile_same {σ : State} {π : List Part} {c : Nat} {arr : Nat} {s : State} (hl : Sub [.accs] π) (h_s : Same π σ s) :
    Same π σ (clearFile c arr s) := by
  unfold clearFile
  repeat' first
    | with_reducible assumption
    | intro _
    | fail_if_no_progress with_reducible refine same_upd ?_ (fun p hp => by cases p <;> first | exact absurd (hl.mem (by decide)) hp | exact rfl | exact ⟨rfl, rfl⟩ | exact ⟨rfl, rfl, rfl, rfl⟩)

theorem tileStep_same {σ : State} {π : List Part} {c : Nat} {arr : Nat} {nv : Nat} {tr : Bool} {tile : List Dy} {vecs : List (List Dy)} {s : State} (hl : Sub [.accs] π) (h_s : Same π σ s) :
    Same π σ (tileStep c arr nv tr tile vecs s) := by
  unfold tileStep
  repeat' first
    | with_reducible assumption
    | intro _
    | with_reducible refine forEach_same ?_ ?_
    | with_reducible refine accumulate_same (Sub.trans (by decide) hl) ?_

theorem rowStats_same {σ : State} {π : List Part} {c : Nat} {arrays : List Nat} {env : MemEnv} {r : Machine.State} {s : State} (hl : Sub [.win, .cells, .accs, .cellMem, .mesh, .prec, .link, .ports, .ocl] π) (h_s : Same π σ s) :
    Same π σ (rowStats c arrays env r s) := by
  unfold rowStats
  repeat' first
    | with_reducible assumption
    | intro _
    | extract_lets
    | with_reducible refine same_ite ?_ ?_
    | with_reducible refine writeGranule_same (Sub.trans (by decide) hl) ?_
    | with_reducible refine precise_same (Sub.trans (by decide) hl) ?_
    | with_reducible refine forEach_same ?_ ?_
    | with_reducible refine clearFile_same (Sub.trans (by decide) hl) ?_
    | fail_if_no_progress with_reducible refine same_upd ?_ (fun p hp => by cases p <;> first | exact absurd (hl.mem (by decide)) hp | exact rfl | exact ⟨rfl, rfl⟩ | exact ⟨rfl, rfl, rfl, rfl⟩)
    | split
    | dsimp +zetaDelta only

theorem tensorEffect_same {σ : State} {π : List Part} {c : Nat} {w : Dword} {env : MemEnv} {s : State} (hl : Sub [.win, .cells, .accs, .cellMem, .mesh, .prec, .budget, .link, .ports, .ocl] π) (h_s : Same π σ s) :
    Same π σ (tensorEffect c w env s) := by
  unfold tensorEffect
  repeat' first
    | with_reducible assumption
    | intro _
    | extract_lets
    | with_reducible refine same_ite ?_ ?_
    | with_reducible refine reads_same (Sub.trans (by decide) hl) ?_
    | with_reducible refine forEach_same ?_ ?_
    | with_reducible refine clearFile_same (Sub.trans (by decide) hl) ?_
    | with_reducible refine tileStep_same (Sub.trans (by decide) hl) ?_
    | with_reducible refine when_same ?_ ?_
    | with_reducible refine report_same (Sub.trans (by decide) hl) ?_
    | with_reducible refine raise_same (Sub.trans (by decide) hl) ?_
    | with_reducible refine rowStats_same (Sub.trans (by decide) hl) ?_
    | with_reducible refine precise_same (Sub.trans (by decide) hl) ?_
    | with_reducible refine chargeEnergy_same (Sub.trans (by decide) hl) ?_
    | fail_if_no_progress with_reducible refine same_upd ?_ (fun p hp => by cases p <;> first | exact absurd (hl.mem (by decide)) hp | exact rfl | exact ⟨rfl, rfl⟩ | exact ⟨rfl, rfl, rfl, rfl⟩)
    | split
    | dsimp +zetaDelta only

end Sys2Proof.Machine
end

