-- ==== Sys2Proof/Laws/FrameKvCell.lean ====
section
/-!
SUPPORT. The parts that may change, for every function of Machine/KvCell.lean that changes the state.
-/
set_option Elab.async false
namespace Sys2Proof.Machine
open Sys2Proof

theorem putCarry_same {σ : State} {π : List Part} {c : Nat} {r : KvRow} {x : StepSeq} {data : List Granule} {s : State} (hl : Sub [.kv] π) (h_s : Same π σ s) :
    Same π σ (putCarry c r x data s) := by
  unfold putCarry
  repeat' first
    | with_reducible assumption
    | intro _
    | extract_lets
    | fail_if_no_progress with_reducible refine same_upd ?_ (fun p hp => by cases p <;> first | exact absurd (hl.mem (by decide)) hp | exact rfl | exact ⟨rfl, rfl⟩ | exact ⟨rfl, rfl, rfl, rfl⟩)

theorem putScale_same {σ : State} {π : List Part} {r : KvRow} {x : StepSeq} {k : Nat} {t : Word} {s : State} (hl : Sub [.kv] π) (h_s : Same π σ s) :
    Same π σ (putScale r x k t s) := by
  unfold putScale
  repeat' first
    | with_reducible assumption
    | intro _
    | with_reducible refine same_ite ?_ ?_
    | fail_if_no_progress with_reducible refine same_upd ?_ (fun p hp => by cases p <;> first | exact absurd (hl.mem (by decide)) hp | exact rfl | exact ⟨rfl, rfl⟩ | exact ⟨rfl, rfl, rfl, rfl⟩)
    | split

theorem stageKv_same {σ : State} {π : List Part} {r : KvRow} {x : StepSeq} {elems : List Granule} {idx : Granule} {s : State} (hl : Sub [.kv] π) (h_s : Same π σ s) :
    Same π σ (stageKv r x elems idx s) := by
  unfold stageKv
  repeat' first
    | with_reducible assumption
    | intro _
    | fail_if_no_progress with_reducible refine same_upd ?_ (fun p hp => by cases p <;> first | exact absurd (hl.mem (by decide)) hp | exact rfl | exact ⟨rfl, rfl⟩ | exact ⟨rfl, rfl, rfl, rfl⟩)

theorem commitKv_same {σ : State} {π : List Part} {x : StepSeq} {s : State} (hl : Sub [.kv] π) (h_s : Same π σ s) :
    Same π σ (commitKv x s) := by
  unfold commitKv
  repeat' first
    | with_reducible assumption
    | intro _
    | extract_lets
    | fail_if_no_progress with_reducible refine same_upd ?_ (fun p hp => by cases p <;> first | exact absurd (hl.mem (by decide)) hp | exact rfl | exact ⟨rfl, rfl⟩ | exact ⟨rfl, rfl, rfl, rfl⟩)
    | with_reducible refine foldl_same ?_ ?_

theorem discardKv_same {σ : State} {π : List Part} {q : Nat} {s : State} (hl : Sub [.kv] π) (h_s : Same π σ s) :
    Same π σ (discardKv q s) := by
  unfold discardKv
  repeat' first
    | with_reducible assumption
    | intro _
    | fail_if_no_progress with_reducible refine same_upd ?_ (fun p hp => by cases p <;> first | exact absurd (hl.mem (by decide)) hp | exact rfl | exact ⟨rfl, rfl⟩ | exact ⟨rfl, rfl, rfl, rfl⟩)

theorem forgetKv_same {σ : State} {π : List Part} {q : Nat} {s : State} (hl : Sub [.kv] π) (h_s : Same π σ s) :
    Same π σ (forgetKv q s) := by
  unfold forgetKv
  repeat' first
    | with_reducible assumption
    | intro _
    | fail_if_no_progress with_reducible refine same_upd ?_ (fun p hp => by cases p <;> first | exact absurd (hl.mem (by decide)) hp | exact rfl | exact ⟨rfl, rfl⟩ | exact ⟨rfl, rfl, rfl, rfl⟩)

end Sys2Proof.Machine
end

