-- ==== Sys2Proof/Laws/FrameVector.lean ====
section
/-!
SUPPORT. The parts that may change, for every function of Machine/Vector.lean that changes the state.
-/
set_option Elab.async false
namespace Sys2Proof.Machine
open Sys2Proof

theorem chargeVec_same {σ : State} {π : List Part} {c : Nat} {n : Nat} {s : State} (hl : Sub [.win, .budget, .link, .ports, .ocl] π) (h_s : Same π σ s) :
    Same π σ (chargeVec c n s) := by
  unfold chargeVec
  repeat' first
    | with_reducible assumption
    | intro _
    | with_reducible refine chargeEnergy_same (Sub.trans (by decide) hl) ?_

theorem elementwise_same {σ : State} {π : List Part} {c : Nat} {v : VectorWord} {rdGran : List Nat} {out : List Word} {env : MemEnv} {s : State} (hl : Sub [.win, .cells, .cellMem, .mesh, .prec, .budget, .link, .ports, .ocl] π) (h_s : Same π σ s) :
    Same π σ (elementwise c v rdGran out env s) := by
  unfold elementwise
  repeat' first
    | with_reducible assumption
    | intro _
    | extract_lets
    | with_reducible refine chargeVec_same (Sub.trans (by decide) hl) ?_
    | with_reducible refine when_same ?_ ?_
    | with_reducible refine precise_same (Sub.trans (by decide) hl) ?_
    | with_reducible refine writeGranules_same (Sub.trans (by decide) hl) ?_
    | with_reducible refine reads_same (Sub.trans (by decide) hl) ?_

theorem addEffect_same {σ : State} {π : List Part} {c : Nat} {w : Dword} {env : MemEnv} {s : State} (hl : Sub [.win, .cells, .cellMem, .mesh, .prec, .budget, .link, .ports, .ocl] π) (h_s : Same π σ s) :
    Same π σ (addEffect c w env s) := by
  unfold addEffect
  repeat' first
    | with_reducible assumption
    | intro _
    | extract_lets
    | with_reducible refine elementwise_same (Sub.trans (by decide) hl) ?_

theorem mulEffect_same {σ : State} {π : List Part} {c : Nat} {w : Dword} {env : MemEnv} {s : State} (hl : Sub [.win, .cells, .cellMem, .mesh, .prec, .budget, .link, .ports, .ocl] π) (h_s : Same π σ s) :
    Same π σ (mulEffect c w env s) := by
  unfold mulEffect
  repeat' first
    | with_reducible assumption
    | intro _
    | extract_lets
    | with_reducible refine elementwise_same (Sub.trans (by decide) hl) ?_

theorem fmaEffect_same {σ : State} {π : List Part} {c : Nat} {w : Dword} {env : MemEnv} {s : State} (hl : Sub [.win, .cells, .cellMem, .mesh, .prec, .budget, .link, .ports, .ocl] π) (h_s : Same π σ s) :
    Same π σ (fmaEffect c w env s) := by
  unfold fmaEffect
  repeat' first
    | with_reducible assumption
    | intro _
    | extract_lets
    | with_reducible refine elementwise_same (Sub.trans (by decide) hl) ?_

theorem maxEffect_same {σ : State} {π : List Part} {c : Nat} {w : Dword} {env : MemEnv} {s : State} (hl : Sub [.win, .cells, .cellMem, .mesh, .prec, .budget, .link, .ports, .ocl] π) (h_s : Same π σ s) :
    Same π σ (maxEffect c w env s) := by
  unfold maxEffect
  repeat' first
    | with_reducible assumption
    | intro _
    | extract_lets
    | with_reducible refine elementwise_same (Sub.trans (by decide) hl) ?_

theorem expEffect_same {σ : State} {π : List Part} {c : Nat} {w : Dword} {env : MemEnv} {s : State} (hl : Sub [.win, .cells, .cellMem, .mesh, .prec, .budget, .link, .ports, .ocl] π) (h_s : Same π σ s) :
    Same π σ (expEffect c w env s) := by
  unfold expEffect
  repeat' first
    | with_reducible assumption
    | intro _
    | extract_lets
    | with_reducible refine when_same ?_ ?_
    | with_reducible refine precise_same (Sub.trans (by decide) hl) ?_
    | with_reducible refine elementwise_same (Sub.trans (by decide) hl) ?_

theorem rcpEffect_same {σ : State} {π : List Part} {c : Nat} {w : Dword} {env : MemEnv} {s : State} (hl : Sub [.win, .cells, .cellMem, .mesh, .prec, .budget, .link, .ports, .ocl] π) (h_s : Same π σ s) :
    Same π σ (rcpEffect c w env s) := by
  unfold rcpEffect
  repeat' first
    | with_reducible assumption
    | intro _
    | extract_lets
    | with_reducible refine when_same ?_ ?_
    | with_reducible refine precise_same (Sub.trans (by decide) hl) ?_
    | with_reducible refine elementwise_same (Sub.trans (by decide) hl) ?_

theorem rsqrtEffect_same {σ : State} {π : List Part} {c : Nat} {w : Dword} {env : MemEnv} {s : State} (hl : Sub [.win, .cells, .cellMem, .mesh, .prec, .budget, .link, .ports, .ocl] π) (h_s : Same π σ s) :
    Same π σ (rsqrtEffect c w env s) := by
  unfold rsqrtEffect
  repeat' first
    | with_reducible assumption
    | intro _
    | extract_lets
    | with_reducible refine elementwise_same (Sub.trans (by decide) hl) ?_

theorem sumredEffect_same {σ : State} {π : List Part} {c : Nat} {w : Dword} {env : MemEnv} {s : State} (hl : Sub [.win, .cells, .cellMem, .mesh, .budget, .link, .ports, .ocl] π) (h_s : Same π σ s) :
    Same π σ (sumredEffect c w env s) := by
  unfold sumredEffect
  repeat' first
    | with_reducible assumption
    | intro _
    | extract_lets
    | with_reducible refine same_ite ?_ ?_
    | with_reducible refine chargeVec_same (Sub.trans (by decide) hl) ?_
    | with_reducible refine writeGranule_same (Sub.trans (by decide) hl) ?_
    | with_reducible refine reads_same (Sub.trans (by decide) hl) ?_
    | split

theorem maxredEffect_same {σ : State} {π : List Part} {c : Nat} {w : Dword} {env : MemEnv} {s : State} (hl : Sub [.win, .cells, .cellMem, .mesh, .budget, .link, .ports, .ocl] π) (h_s : Same π σ s) :
    Same π σ (maxredEffect c w env s) := by
  unfold maxredEffect
  repeat' first
    | with_reducible assumption
    | intro _
    | extract_lets
    | with_reducible refine same_ite ?_ ?_
    | with_reducible refine chargeVec_same (Sub.trans (by decide) hl) ?_
    | with_reducible refine writeGranule_same (Sub.trans (by decide) hl) ?_
    | with_reducible refine reads_same (Sub.trans (by decide) hl) ?_
    | split

theorem scaleEffect_same {σ : State} {π : List Part} {c : Nat} {w : Dword} {env : MemEnv} {s : State} (hl : Sub [.win, .cells, .cellMem, .mesh, .prec, .budget, .link, .ports, .ocl] π) (h_s : Same π σ s) :
    Same π σ (scaleEffect c w env s) := by
  unfold scaleEffect
  repeat' first
    | with_reducible assumption
    | intro _
    | extract_lets
    | with_reducible refine elementwise_same (Sub.trans (by decide) hl) ?_

theorem cvtEffect_same {σ : State} {π : List Part} {c : Nat} {w : Dword} {env : MemEnv} {s : State} (hl : Sub [.win, .cells, .cellMem, .mesh, .prec, .budget, .link, .ports, .ocl] π) (h_s : Same π σ s) :
    Same π σ (cvtEffect c w env s) := by
  unfold cvtEffect
  repeat' first
    | with_reducible assumption
    | intro _
    | extract_lets
    | with_reducible refine writeGranules_same (Sub.trans (by decide) hl) ?_
    | with_reducible refine reads_same (Sub.trans (by decide) hl) ?_
    | with_reducible refine chargeVec_same (Sub.trans (by decide) hl) ?_
    | with_reducible refine when_same ?_ ?_
    | with_reducible refine precise_same (Sub.trans (by decide) hl) ?_

theorem s24encEffect_same {σ : State} {π : List Part} {c : Nat} {w : Dword} {env : MemEnv} {s : State} (hl : Sub [.win, .cells, .cellMem, .mesh, .prec, .budget, .link, .ports, .ocl] π) (h_s : Same π σ s) :
    Same π σ (s24encEffect c w env s) := by
  unfold s24encEffect
  repeat' first
    | with_reducible assumption
    | intro _
    | extract_lets
    | with_reducible refine writeGranules_same (Sub.trans (by decide) hl) ?_
    | with_reducible refine reads_same (Sub.trans (by decide) hl) ?_
    | with_reducible refine chargeVec_same (Sub.trans (by decide) hl) ?_
    | with_reducible refine when_same ?_ ?_
    | with_reducible refine precise_same (Sub.trans (by decide) hl) ?_
    | fail_if_no_progress with_reducible refine same_upd ?_ (fun p hp => by cases p <;> first | exact absurd (hl.mem (by decide)) hp | exact rfl | exact ⟨rfl, rfl⟩ | exact ⟨rfl, rfl, rfl, rfl⟩)

theorem s24decEffect_same {σ : State} {π : List Part} {c : Nat} {w : Dword} {env : MemEnv} {s : State} (hl : Sub [.win, .cells, .cellMem, .mesh, .budget, .link, .ports, .ocl] π) (h_s : Same π σ s) :
    Same π σ (s24decEffect c w env s) := by
  unfold s24decEffect
  repeat' first
    | with_reducible assumption
    | intro _
    | extract_lets
    | with_reducible refine same_ite ?_ ?_
    | with_reducible refine chargeVec_same (Sub.trans (by decide) hl) ?_
    | with_reducible refine writeGranules_same (Sub.trans (by decide) hl) ?_
    | with_reducible refine reads_same (Sub.trans (by decide) hl) ?_
    | split

theorem rngEffect_same {σ : State} {π : List Part} {c : Nat} {w : Dword} {env : MemEnv} {s : State} (hl : Sub [.win, .cells, .cellMem, .mesh, .budget, .link, .ports, .ocl] π) (h_s : Same π σ s) :
    Same π σ (rngEffect c w env s) := by
  unfold rngEffect
  repeat' first
    | with_reducible assumption
    | intro _
    | extract_lets
    | with_reducible refine same_ite ?_ ?_
    | with_reducible refine chargeVec_same (Sub.trans (by decide) hl) ?_
    | with_reducible refine writeGranules_same (Sub.trans (by decide) hl) ?_
    | with_reducible refine reads_same (Sub.trans (by decide) hl) ?_
    | with_reducible refine modCell_same (Sub.trans (by decide) hl) ?_
    | fail_if_no_progress with_reducible refine same_upd ?_ (fun p hp => by cases p <;> first | exact absurd (hl.mem (by decide)) hp | exact rfl | exact ⟨rfl, rfl⟩ | exact ⟨rfl, rfl, rfl, rfl⟩)
    | split

theorem keepRow_same {σ : State} {π : List Part} {c : Nat} {kvr : Option (KvRow × StepSeq)} {k : Nat} {t : Word} {elems : List Granule} {idx : Granule} {carry : Option (List Granule)} {s : State} (hl : Sub [.kv] π) (h_s : Same π σ s) :
    Same π σ (keepRow c kvr k t elems idx carry s) := by
  unfold keepRow
  repeat' first
    | with_reducible assumption
    | intro _
    | extract_lets
    | with_reducible refine stageKv_same (Sub.trans (by decide) hl) ?_
    | with_reducible refine putScale_same (Sub.trans (by decide) hl) ?_
    | with_reducible refine putCarry_same (Sub.trans (by decide) hl) ?_
    | fail_if_no_progress with_reducible refine same_upd ?_ (fun p hp => by cases p <;> first | exact absurd (hl.mem (by decide)) hp | exact rfl | exact ⟨rfl, rfl⟩ | exact ⟨rfl, rfl, rfl, rfl⟩)
    | split
    | dsimp +zetaDelta only

theorem qntWrites_same {σ : State} {π : List Part} {c : Nat} {v : VectorWord} {q : QntResult} {s : State}
    (hl : Sub [.win, .cells, .cellMem, .mesh, .prec, .budget, .link, .ports, .ocl] π) (h_s : Same π σ s) :
    Same π σ (qntWrites c v q s) := by
  unfold qntWrites
  repeat' first
    | with_reducible assumption
    | intro _
    | extract_lets
    | with_reducible refine writeGranule_same (Sub.trans (by decide) hl) ?_
    | with_reducible refine writeGranules_same (Sub.trans (by decide) hl) ?_
    | split
    | dsimp +zetaDelta only

theorem qntEffect_same {σ : State} {π : List Part} {c : Nat} {w : Dword} {env : MemEnv} {s : State} (hl : Sub [.win, .cells, .cellMem, .mesh, .prec, .budget, .kv, .link, .ports, .ocl] π) (h_s : Same π σ s) :
    Same π σ (qntEffect c w env s) := by
  unfold qntEffect
  repeat' first
    | with_reducible assumption
    | intro _
    | extract_lets
    | with_reducible refine same_ite ?_ ?_
    | with_reducible refine reads_same (Sub.trans (by decide) hl) ?_
    | with_reducible refine qntWrites_same (Sub.trans (by decide) hl) ?_
    | with_reducible refine keepRow_same (Sub.trans (by decide) hl) ?_
    | with_reducible refine when_same ?_ ?_
    | with_reducible refine precise_same (Sub.trans (by decide) hl) ?_
    | with_reducible refine raise_same (Sub.trans (by decide) hl) ?_
    | with_reducible refine chargeVec_same (Sub.trans (by decide) hl) ?_
    | fail_if_no_progress with_reducible refine same_upd ?_ (fun p hp => by cases p <;> first | exact absurd (hl.mem (by decide)) hp | exact rfl | exact ⟨rfl, rfl⟩ | exact ⟨rfl, rfl, rfl, rfl⟩)
    | split
    | dsimp +zetaDelta only

end Sys2Proof.Machine
end

