-- ==== Sys2Proof/Laws/FrameSeq.lean ====
section
/-!
SUPPORT. The parts that may change, for every function of Machine/Seq.lean that changes the state.
-/
set_option Elab.async false
namespace Sys2Proof.Machine
open Sys2Proof

theorem fetchGranule_same {σ : State} {π : List Part} {c : Nat} {g : Nat} {env : MemEnv} {s : State} (hl : Sub [.win, .cells, .mesh, .link, .ports, .ocl] π) (h_s : Same π σ s) :
    Same π σ (fetchGranule c g env s) := by
  unfold fetchGranule
  repeat' first
    | with_reducible assumption
    | intro _
    | extract_lets
    | with_reducible refine readChecks_same (Sub.trans (by decide) hl) ?_
    | with_reducible refine countAccess_same (Sub.trans (by decide) hl) ?_
    | with_reducible refine modCell_same (Sub.trans (by decide) hl) ?_
    | fail_if_no_progress with_reducible refine same_upd ?_ (fun p hp => by cases p <;> first | exact absurd (hl.mem (by decide)) hp | exact rfl | exact ⟨rfl, rfl⟩ | exact ⟨rfl, rfl, rfl, rfl⟩)

theorem fill_same {σ : State} {π : List Part} {c : Nat} {env : MemEnv} {s : State} (hl : Sub [.win, .cells, .mesh, .link, .ports, .ocl] π) (h_s : Same π σ s) :
    Same π σ (fill c env s) := by
  unfold fill
  repeat' first
    | with_reducible assumption
    | intro _
    | extract_lets
    | with_reducible refine same_ite ?_ ?_
    | with_reducible refine fetchGranule_same (Sub.trans (by decide) hl) ?_
    | with_reducible refine modCell_same (Sub.trans (by decide) hl) ?_
    | fail_if_no_progress with_reducible refine same_upd ?_ (fun p hp => by cases p <;> first | exact absurd (hl.mem (by decide)) hp | exact rfl | exact ⟨rfl, rfl⟩ | exact ⟨rfl, rfl, rfl, rfl⟩)
    | split

theorem advance_same {σ : State} {π : List Part} {c : Nat} {s : State} (hl : Sub [.cells] π) (h_s : Same π σ s) :
    Same π σ (advance c s) := by
  unfold advance
  repeat' first
    | with_reducible assumption
    | intro _
    | extract_lets
    | with_reducible refine modCell_same (Sub.trans (by decide) hl) ?_
    | fail_if_no_progress with_reducible refine same_upd ?_ (fun p hp => by cases p <;> first | exact absurd (hl.mem (by decide)) hp | exact rfl | exact ⟨rfl, rfl⟩ | exact ⟨rfl, rfl, rfl, rfl⟩)

theorem issue_same {σ : State} {π : List Part} {c : Nat} {want : Kind → Bool} {env : MemEnv} {body : Dword → State → State} {stay : Bool} {s : State} (hl : Sub [.win, .cells, .mesh, .link, .ports, .ocl] π) (h_body : ∀ y0 y1, Same π σ y1 → Same π σ (body y0 y1)) (h_s : Same π σ s) :
    Same π σ (issue c want env body stay s) := by
  unfold issue
  repeat' first
    | with_reducible assumption
    | with_reducible apply h_body
    | intro _
    | extract_lets
    | with_reducible refine same_ite ?_ ?_
    | with_reducible refine fill_same (Sub.trans (by decide) hl) ?_
    | with_reducible refine advance_same (Sub.trans (by decide) hl) ?_
    | split

theorem issueVector_same {σ : State} {π : List Part} {op : Nat} {c : Nat} {env : MemEnv} {body : Nat → Dword → MemEnv → State → State} {s : State} (hl : Sub [.win, .cells, .mesh, .link, .ports, .ocl] π) (h_body : ∀ y0 y1 y2 y3, Same π σ y3 → Same π σ (body y0 y1 y2 y3)) (h_s : Same π σ s) :
    Same π σ (issueVector op c env body s) := by
  unfold issueVector
  repeat' first
    | with_reducible assumption
    | with_reducible apply h_body
    | intro _
    | with_reducible refine issue_same (Sub.trans (by decide) hl) ?_ ?_

theorem seqChecks_same {σ : State} {π : List Part} {c : Nat} {env : MemEnv} {s : State} (hl : Sub [.mesh] π) (h_s : Same π σ s) :
    Same π σ (seqChecks c env s) := by
  unfold seqChecks
  repeat' first
    | with_reducible assumption
    | intro _
    | with_reducible refine forEach_same ?_ ?_
    | with_reducible refine report_same (Sub.trans (by decide) hl) ?_

theorem execNop_same {σ : State} {π : List Part} {c : Nat} {env : MemEnv} {s : State} (hl : Sub [.win, .cells, .mesh, .link, .ports, .ocl] π) (h_s : Same π σ s) :
    ∃ τ, execNop c env s = .next τ ∧ Same π σ τ := by
  refine ⟨_, rfl, ?_⟩
  repeat' first
    | with_reducible assumption
    | intro _
    | with_reducible refine issue_same (Sub.trans (by decide) hl) ?_ ?_
    | with_reducible refine seqChecks_same (Sub.trans (by decide) hl) ?_

theorem execTensor_same {σ : State} {π : List Part} {c : Nat} {env : MemEnv} {s : State} (hl : Sub [.win, .cells, .accs, .cellMem, .mesh, .prec, .budget, .link, .ports, .ocl] π) (h_s : Same π σ s) :
    ∃ τ, execTensor c env s = .next τ ∧ Same π σ τ := by
  refine ⟨_, rfl, ?_⟩
  repeat' first
    | with_reducible assumption
    | intro _
    | with_reducible refine issue_same (Sub.trans (by decide) hl) ?_ ?_
    | with_reducible refine tensorEffect_same (Sub.trans (by decide) hl) ?_

theorem execAdd_same {σ : State} {π : List Part} {c : Nat} {env : MemEnv} {s : State} (hl : Sub [.win, .cells, .cellMem, .mesh, .prec, .budget, .link, .ports, .ocl] π) (h_s : Same π σ s) :
    ∃ τ, execAdd c env s = .next τ ∧ Same π σ τ := by
  refine ⟨_, rfl, ?_⟩
  repeat' first
    | with_reducible assumption
    | intro _
    | with_reducible refine issueVector_same (Sub.trans (by decide) hl) ?_ ?_
    | with_reducible refine addEffect_same (Sub.trans (by decide) hl) ?_

theorem execMul_same {σ : State} {π : List Part} {c : Nat} {env : MemEnv} {s : State} (hl : Sub [.win, .cells, .cellMem, .mesh, .prec, .budget, .link, .ports, .ocl] π) (h_s : Same π σ s) :
    ∃ τ, execMul c env s = .next τ ∧ Same π σ τ := by
  refine ⟨_, rfl, ?_⟩
  repeat' first
    | with_reducible assumption
    | intro _
    | with_reducible refine issueVector_same (Sub.trans (by decide) hl) ?_ ?_
    | with_reducible refine mulEffect_same (Sub.trans (by decide) hl) ?_

theorem execFma_same {σ : State} {π : List Part} {c : Nat} {env : MemEnv} {s : State} (hl : Sub [.win, .cells, .cellMem, .mesh, .prec, .budget, .link, .ports, .ocl] π) (h_s : Same π σ s) :
    ∃ τ, execFma c env s = .next τ ∧ Same π σ τ := by
  refine ⟨_, rfl, ?_⟩
  repeat' first
    | with_reducible assumption
    | intro _
    | with_reducible refine issueVector_same (Sub.trans (by decide) hl) ?_ ?_
    | with_reducible refine fmaEffect_same (Sub.trans (by decide) hl) ?_

theorem execMax_same {σ : State} {π : List Part} {c : Nat} {env : MemEnv} {s : State} (hl : Sub [.win, .cells, .cellMem, .mesh, .prec, .budget, .link, .ports, .ocl] π) (h_s : Same π σ s) :
    ∃ τ, execMax c env s = .next τ ∧ Same π σ τ := by
  refine ⟨_, rfl, ?_⟩
  repeat' first
    | with_reducible assumption
    | intro _
    | with_reducible refine issueVector_same (Sub.trans (by decide) hl) ?_ ?_
    | with_reducible refine maxEffect_same (Sub.trans (by decide) hl) ?_

theorem execExp_same {σ : State} {π : List Part} {c : Nat} {env : MemEnv} {s : State} (hl : Sub [.win, .cells, .cellMem, .mesh, .prec, .budget, .link, .ports, .ocl] π) (h_s : Same π σ s) :
    ∃ τ, execExp c env s = .next τ ∧ Same π σ τ := by
  refine ⟨_, rfl, ?_⟩
  repeat' first
    | with_reducible assumption
    | intro _
    | with_reducible refine issueVector_same (Sub.trans (by decide) hl) ?_ ?_
    | with_reducible refine expEffect_same (Sub.trans (by decide) hl) ?_

theorem execRcp_same {σ : State} {π : List Part} {c : Nat} {env : MemEnv} {s : State} (hl : Sub [.win, .cells, .cellMem, .mesh, .prec, .budget, .link, .ports, .ocl] π) (h_s : Same π σ s) :
    ∃ τ, execRcp c env s = .next τ ∧ Same π σ τ := by
  refine ⟨_, rfl, ?_⟩
  repeat' first
    | with_reducible assumption
    | intro _
    | with_reducible refine issueVector_same (Sub.trans (by decide) hl) ?_ ?_
    | with_reducible refine rcpEffect_same (Sub.trans (by decide) hl) ?_

theorem execRsqrt_same {σ : State} {π : List Part} {c : Nat} {env : MemEnv} {s : State} (hl : Sub [.win, .cells, .cellMem, .mesh, .prec, .budget, .link, .ports, .ocl] π) (h_s : Same π σ s) :
    ∃ τ, execRsqrt c env s = .next τ ∧ Same π σ τ := by
  refine ⟨_, rfl, ?_⟩
  repeat' first
    | with_reducible assumption
    | intro _
    | with_reducible refine issueVector_same (Sub.trans (by decide) hl) ?_ ?_
    | with_reducible refine rsqrtEffect_same (Sub.trans (by decide) hl) ?_

theorem execSumred_same {σ : State} {π : List Part} {c : Nat} {env : MemEnv} {s : State} (hl : Sub [.win, .cells, .cellMem, .mesh, .budget, .link, .ports, .ocl] π) (h_s : Same π σ s) :
    ∃ τ, execSumred c env s = .next τ ∧ Same π σ τ := by
  refine ⟨_, rfl, ?_⟩
  repeat' first
    | with_reducible assumption
    | intro _
    | with_reducible refine issueVector_same (Sub.trans (by decide) hl) ?_ ?_
    | with_reducible refine sumredEffect_same (Sub.trans (by decide) hl) ?_

theorem execMaxred_same {σ : State} {π : List Part} {c : Nat} {env : MemEnv} {s : State} (hl : Sub [.win, .cells, .cellMem, .mesh, .budget, .link, .ports, .ocl] π) (h_s : Same π σ s) :
    ∃ τ, execMaxred c env s = .next τ ∧ Same π σ τ := by
  refine ⟨_, rfl, ?_⟩
  repeat' first
    | with_reducible assumption
    | intro _
    | with_reducible refine issueVector_same (Sub.trans (by decide) hl) ?_ ?_
    | with_reducible refine maxredEffect_same (Sub.trans (by decide) hl) ?_

theorem execCvt_same {σ : State} {π : List Part} {c : Nat} {env : MemEnv} {s : State} (hl : Sub [.win, .cells, .cellMem, .mesh, .prec, .budget, .link, .ports, .ocl] π) (h_s : Same π σ s) :
    ∃ τ, execCvt c env s = .next τ ∧ Same π σ τ := by
  refine ⟨_, rfl, ?_⟩
  repeat' first
    | with_reducible assumption
    | intro _
    | with_reducible refine issueVector_same (Sub.trans (by decide) hl) ?_ ?_
    | with_reducible refine cvtEffect_same (Sub.trans (by decide) hl) ?_

theorem execScale_same {σ : State} {π : List Part} {c : Nat} {env : MemEnv} {s : State} (hl : Sub [.win, .cells, .cellMem, .mesh, .prec, .budget, .link, .ports, .ocl] π) (h_s : Same π σ s) :
    ∃ τ, execScale c env s = .next τ ∧ Same π σ τ := by
  refine ⟨_, rfl, ?_⟩
  repeat' first
    | with_reducible assumption
    | intro _
    | with_reducible refine issueVector_same (Sub.trans (by decide) hl) ?_ ?_
    | with_reducible refine scaleEffect_same (Sub.trans (by decide) hl) ?_

theorem execQnt_same {σ : State} {π : List Part} {c : Nat} {env : MemEnv} {s : State} (hl : Sub [.win, .cells, .cellMem, .mesh, .prec, .budget, .kv, .link, .ports, .ocl] π) (h_s : Same π σ s) :
    ∃ τ, execQnt c env s = .next τ ∧ Same π σ τ := by
  refine ⟨_, rfl, ?_⟩
  repeat' first
    | with_reducible assumption
    | intro _
    | with_reducible refine issueVector_same (Sub.trans (by decide) hl) ?_ ?_
    | with_reducible refine qntEffect_same (Sub.trans (by decide) hl) ?_

theorem execS24enc_same {σ : State} {π : List Part} {c : Nat} {env : MemEnv} {s : State} (hl : Sub [.win, .cells, .cellMem, .mesh, .prec, .budget, .link, .ports, .ocl] π) (h_s : Same π σ s) :
    ∃ τ, execS24enc c env s = .next τ ∧ Same π σ τ := by
  refine ⟨_, rfl, ?_⟩
  repeat' first
    | with_reducible assumption
    | intro _
    | with_reducible refine issueVector_same (Sub.trans (by decide) hl) ?_ ?_
    | with_reducible refine s24encEffect_same (Sub.trans (by decide) hl) ?_

theorem execS24dec_same {σ : State} {π : List Part} {c : Nat} {env : MemEnv} {s : State} (hl : Sub [.win, .cells, .cellMem, .mesh, .budget, .link, .ports, .ocl] π) (h_s : Same π σ s) :
    ∃ τ, execS24dec c env s = .next τ ∧ Same π σ τ := by
  refine ⟨_, rfl, ?_⟩
  repeat' first
    | with_reducible assumption
    | intro _
    | with_reducible refine issueVector_same (Sub.trans (by decide) hl) ?_ ?_
    | with_reducible refine s24decEffect_same (Sub.trans (by decide) hl) ?_

theorem execRng_same {σ : State} {π : List Part} {c : Nat} {env : MemEnv} {s : State} (hl : Sub [.win, .cells, .cellMem, .mesh, .budget, .link, .ports, .ocl] π) (h_s : Same π σ s) :
    ∃ τ, execRng c env s = .next τ ∧ Same π σ τ := by
  refine ⟨_, rfl, ?_⟩
  repeat' first
    | with_reducible assumption
    | intro _
    | with_reducible refine issueVector_same (Sub.trans (by decide) hl) ?_ ?_
    | with_reducible refine rngEffect_same (Sub.trans (by decide) hl) ?_

theorem waitEffect_same {σ : State} {π : List Part} {c : Nat} {w : Dword} {s : State} (hl : Sub [.cells, .counters] π) (h_s : Same π σ s) :
    Same π σ (waitEffect c w s) := by
  unfold waitEffect
  repeat' first
    | with_reducible assumption
    | intro _
    | extract_lets
    | with_reducible refine same_ite ?_ ?_
    | with_reducible refine advance_same (Sub.trans (by decide) hl) ?_
    | with_reducible refine takeThreshold_same (Sub.trans (by decide) hl) ?_
    | with_reducible refine modCell_same (Sub.trans (by decide) hl) ?_
    | fail_if_no_progress with_reducible refine same_upd ?_ (fun p hp => by cases p <;> first | exact absurd (hl.mem (by decide)) hp | exact rfl | exact ⟨rfl, rfl⟩ | exact ⟨rfl, rfl, rfl, rfl⟩)
    | split

theorem execWait_same {σ : State} {π : List Part} {c : Nat} {env : MemEnv} {s : State} (hl : Sub [.win, .cells, .counters, .mesh, .link, .ports, .ocl] π) (h_s : Same π σ s) :
    ∃ τ, execWait c env s = .next τ ∧ Same π σ τ := by
  refine ⟨_, rfl, ?_⟩
  repeat' first
    | with_reducible assumption
    | intro _
    | with_reducible refine issue_same (Sub.trans (by decide) hl) ?_ ?_
    | with_reducible refine waitEffect_same (Sub.trans (by decide) hl) ?_
    | with_reducible refine seqChecks_same (Sub.trans (by decide) hl) ?_

theorem waitComplete_same {σ : State} {π : List Part} {c : Nat} {s : State} (hl : Sub [.cells, .counters] π) (h_s : Same π σ s) :
    Same π σ (waitComplete c s) := by
  unfold waitComplete
  repeat' first
    | with_reducible assumption
    | intro _
    | with_reducible refine same_ite ?_ ?_
    | with_reducible refine advance_same (Sub.trans (by decide) hl) ?_
    | with_reducible refine modCell_same (Sub.trans (by decide) hl) ?_
    | with_reducible refine takeThreshold_same (Sub.trans (by decide) hl) ?_
    | fail_if_no_progress with_reducible refine same_upd ?_ (fun p hp => by cases p <;> first | exact absurd (hl.mem (by decide)) hp | exact rfl | exact ⟨rfl, rfl⟩ | exact ⟨rfl, rfl, rfl, rfl⟩)
    | split

theorem execWaitComplete_same {σ : State} {π : List Part} {c : Nat} {s : State} (hl : Sub [.cells, .counters] π) (h_s : Same π σ s) :
    ∃ τ, execWaitComplete c s = .next τ ∧ Same π σ τ := by
  refine ⟨_, rfl, ?_⟩
  repeat' first
    | with_reducible assumption
    | intro _
    | with_reducible refine waitComplete_same (Sub.trans (by decide) hl) ?_

theorem completeSync_same {σ : State} {π : List Part} {c : Nat} {s : State} (hl : Sub [.cells] π) (h_s : Same π σ s) :
    Same π σ (completeSync c s) := by
  unfold completeSync
  repeat' first
    | with_reducible assumption
    | intro _
    | with_reducible refine advance_same (Sub.trans (by decide) hl) ?_
    | with_reducible refine modCell_same (Sub.trans (by decide) hl) ?_
    | fail_if_no_progress with_reducible refine same_upd ?_ (fun p hp => by cases p <;> first | exact absurd (hl.mem (by decide)) hp | exact rfl | exact ⟨rfl, rfl⟩ | exact ⟨rfl, rfl, rfl, rfl⟩)

theorem syncEffect_same {σ : State} {π : List Part} {c : Nat} {s : State} (hl : Sub [.cells] π) (h_s : Same π σ s) :
    Same π σ (syncEffect c s) := by
  unfold syncEffect
  repeat' first
    | with_reducible assumption
    | intro _
    | extract_lets
    | with_reducible refine same_ite ?_ ?_
    | with_reducible refine completeSync_same (Sub.trans (by decide) hl) ?_
    | with_reducible refine modCell_same (Sub.trans (by decide) hl) ?_
    | fail_if_no_progress with_reducible refine same_upd ?_ (fun p hp => by cases p <;> first | exact absurd (hl.mem (by decide)) hp | exact rfl | exact ⟨rfl, rfl⟩ | exact ⟨rfl, rfl, rfl, rfl⟩)
    | split

theorem execSync_same {σ : State} {π : List Part} {c : Nat} {env : MemEnv} {s : State} (hl : Sub [.win, .cells, .mesh, .link, .ports, .ocl] π) (h_s : Same π σ s) :
    ∃ τ, execSync c env s = .next τ ∧ Same π σ τ := by
  refine ⟨_, rfl, ?_⟩
  repeat' first
    | with_reducible assumption
    | intro _
    | with_reducible refine issue_same (Sub.trans (by decide) hl) ?_ ?_
    | with_reducible refine syncEffect_same (Sub.trans (by decide) hl) ?_
    | with_reducible refine seqChecks_same (Sub.trans (by decide) hl) ?_

theorem execJump_same {σ : State} {π : List Part} {c : Nat} {env : MemEnv} {s : State} (hl : Sub [.win, .cells, .mesh, .link, .ports, .ocl] π) (h_s : Same π σ s) :
    ∃ τ, execJump c env s = .next τ ∧ Same π σ τ := by
  refine ⟨_, rfl, ?_⟩
  repeat' first
    | with_reducible assumption
    | intro _
    | with_reducible refine issue_same (Sub.trans (by decide) hl) ?_ ?_
    | with_reducible refine modCell_same (Sub.trans (by decide) hl) ?_
    | with_reducible refine seqChecks_same (Sub.trans (by decide) hl) ?_
    | fail_if_no_progress with_reducible refine same_upd ?_ (fun p hp => by cases p <;> first | exact absurd (hl.mem (by decide)) hp | exact rfl | exact ⟨rfl, rfl⟩ | exact ⟨rfl, rfl, rfl, rfl⟩)

theorem execIllegalInstruction_same {σ : State} {π : List Part} {c : Nat} {env : MemEnv} {s : State} (hl : Sub [.win, .cells, .mesh, .link, .ports, .ocl] π) (h_s : Same π σ s) :
    ∃ τ, execIllegalInstruction c env s = .next τ ∧ Same π σ τ := by
  refine ⟨_, rfl, ?_⟩
  repeat' first
    | with_reducible assumption
    | intro _
    | with_reducible refine issue_same (Sub.trans (by decide) hl) ?_ ?_
    | with_reducible refine report_same (Sub.trans (by decide) hl) ?_
    | with_reducible refine raise_same (Sub.trans (by decide) hl) ?_
    | with_reducible refine modCell_same (Sub.trans (by decide) hl) ?_
    | with_reducible refine seqChecks_same (Sub.trans (by decide) hl) ?_
    | fail_if_no_progress with_reducible refine same_upd ?_ (fun p hp => by cases p <;> first | exact absurd (hl.mem (by decide)) hp | exact rfl | exact ⟨rfl, rfl⟩ | exact ⟨rfl, rfl, rfl, rfl⟩)

end Sys2Proof.Machine
end

