-- ==== Sys2Proof/Laws/KeepLanes.lean ====
section
/-!
SUPPORT. What `Keeps` says, for every function of Machine/Lanes.lean that changes the state.
-/
set_option Elab.async false
namespace Sys2Proof.Machine
open Sys2Proof

theorem emit_keeps {σ : State} {i : Nat} {raw : BitVec 2048} {s : State} (h_s : Keeps σ s) :
    Keeps σ (emit i raw s) := by
  unfold emit
  repeat' first
    | with_reducible assumption
    | intro _
    | extract_lets
    | with_reducible refine modLink_keeps ?_
    | fail_if_no_progress with_reducible refine keeps_upd ?_ rfl rfl rfl rfl rfl rfl rfl rfl rfl rfl rfl rfl rfl rfl rfl rfl rfl rfl rfl rfl rfl

theorem takeOff_keeps {σ : State} {i : Nat} {raw : BitVec 2048} {s : State} (h_s : Keeps σ s) :
    Keeps σ (takeOff i raw s).2 := by
  unfold takeOff
  repeat' first
    | with_reducible assumption
    | intro _
    | extract_lets
    | with_reducible refine modLink_keeps ?_
    | fail_if_no_progress with_reducible refine keeps_upd ?_ rfl rfl rfl rfl rfl rfl rfl rfl rfl rfl rfl rfl rfl rfl rfl rfl rfl rfl rfl rfl rfl
    | with_reducible refine keeps_snd_ite ?_ ?_

theorem sendCtl_keeps {σ : State} {i : Nat} {type : Nat} {s : State} (h_s : Keeps σ s) :
    Keeps σ (sendCtl i type s) := by
  unfold sendCtl
  repeat' first
    | with_reducible assumption
    | intro _
    | extract_lets
    | with_reducible refine emit_keeps ?_
    | with_reducible refine modLink_keeps ?_
    | fail_if_no_progress with_reducible refine keeps_upd ?_ rfl rfl rfl rfl rfl rfl rfl rfl rfl rfl rfl rfl rfl rfl rfl rfl rfl rfl rfl rfl rfl

end Sys2Proof.Machine
end

