-- ==== Sys2Proof/Laws/KeepLink.lean ====
section
/-!
SUPPORT. What `Keeps` says, for every function of Machine/Link.lean that changes the state.
-/
set_option Elab.async false
namespace Sys2Proof.Machine
open Sys2Proof

theorem setTxKey_keeps {σ : State} {k : KeySlot} {s : State} (h_s : Keeps σ s) :
    Keeps σ (setTxKey k s) := by
  unfold setTxKey
  repeat' first
    | with_reducible assumption
    | intro _
    | with_reducible refine keeps_ite ?_ ?_
    | fail_if_no_progress with_reducible refine keeps_upd ?_ rfl rfl rfl rfl rfl rfl rfl rfl rfl rfl rfl rfl rfl rfl rfl rfl rfl rfl rfl rfl rfl
    | split

theorem dropEvent_keeps {σ : State} {s : State} (h_s : Keeps σ s) :
    Keeps σ (dropEvent s) := by
  unfold dropEvent
  repeat' first
    | with_reducible assumption
    | intro _
    | with_reducible refine wr_keeps ?_
    | with_reducible refine bumpBy_keeps ?_

theorem queueEvent_keeps {σ : State} {off : Nat} {bits : Nat} {s : State} (h_s : Keeps σ s) :
    Keeps σ (queueEvent off bits s) := by
  unfold queueEvent
  repeat' first
    | with_reducible assumption
    | intro _
    | extract_lets
    | with_reducible refine keeps_ite ?_ ?_
    | with_reducible refine dropEvent_keeps ?_
    | fail_if_no_progress with_reducible refine keeps_upd ?_ rfl rfl rfl rfl rfl rfl rfl rfl rfl rfl rfl rfl rfl rfl rfl rfl rfl rfl rfl rfl rfl
    | split
    | dsimp +zetaDelta only

theorem raiseQuiet_keeps {σ : State} {f : Fld} {s : State} (h_s : Keeps σ s) :
    Keeps σ (raiseQuiet f s) := by
  unfold raiseQuiet
  repeat' first
    | with_reducible assumption
    | intro _
    | extract_lets
    | with_reducible refine keeps_ite ?_ ?_
    | with_reducible refine wr_keeps ?_
    | with_reducible refine queueEvent_keeps ?_
    | split

theorem sealMsg_keeps {σ : State} {m : OutMsg} {s : State} (h_s : Keeps σ s) :
    Keeps σ (sealMsg m s).2 := by
  unfold sealMsg
  repeat' first
    | with_reducible assumption
    | intro _
    | extract_lets
    | with_reducible refine keeps_ite ?_ ?_
    | with_reducible refine setTxKey_keeps ?_
    | with_reducible refine raiseQuiet_keeps ?_
    | fail_if_no_progress with_reducible refine keeps_upd ?_ rfl rfl rfl rfl rfl rfl rfl rfl rfl rfl rfl rfl rfl rfl rfl rfl rfl rfl rfl rfl rfl
    | with_reducible refine keeps_snd_ite ?_ ?_
    | split

theorem pushFlits_keeps {σ : State} {x0 : Nat} {x1 : Nat} {x2 : List TxSlot} {x3 : State} (h_x3 : Keeps σ x3) :
    Keeps σ (pushFlits x0 x1 x2 x3) := by
  induction x0 generalizing x1 x2 x3 with
  | zero => (unfold pushFlits; repeat' first
      | with_reducible assumption
      | intro _
      | extract_lets
      | with_reducible refine keeps_ite ?_ ?_
      | with_reducible refine setLink_keeps ?_
      | with_reducible refine emit_keeps ?_
      | fail_if_no_progress with_reducible refine keeps_upd ?_ rfl rfl rfl rfl rfl rfl rfl rfl rfl rfl rfl rfl rfl rfl rfl rfl rfl rfl rfl rfl rfl
      | split)
  | succ _ ih => (unfold pushFlits; repeat' first
      | with_reducible assumption
      | with_reducible apply ih
      | (injections; subst_vars; with_reducible apply ih)
      | intro _
      | extract_lets
      | with_reducible refine keeps_ite ?_ ?_
      | with_reducible refine setLink_keeps ?_
      | with_reducible refine emit_keeps ?_
      | fail_if_no_progress with_reducible refine keeps_upd ?_ rfl rfl rfl rfl rfl rfl rfl rfl rfl rfl rfl rfl rfl rfl rfl rfl rfl rfl rfl rfl rfl
      | split)

theorem takeCredits_keeps {σ : State} {i : Nat} {m : OutMsg} {s : State} (h_s : Keeps σ s) :
    Keeps σ (takeCredits i m s) := by
  unfold takeCredits
  repeat' first
    | with_reducible assumption
    | intro _
    | with_reducible refine modLink_keeps ?_
    | fail_if_no_progress with_reducible refine keeps_upd ?_ rfl rfl rfl rfl rfl rfl rfl rfl rfl rfl rfl rfl rfl rfl rfl rfl rfl rfl rfl rfl rfl
    | split

theorem setModeration_keeps {σ : State} {m : Moderation} {s : State} (h_s : Keeps σ s) :
    Keeps σ (setModeration m s) := by
  unfold setModeration
  repeat' first
    | with_reducible assumption
    | intro _
    | fail_if_no_progress with_reducible refine keeps_upd ?_ rfl rfl rfl rfl rfl rfl rfl rfl rfl rfl rfl rfl rfl rfl rfl rfl rfl rfl rfl rfl rfl

theorem stampIntr_keeps {σ : State} {i : Nat} {m : OutMsg} {s : State} (h_s : Keeps σ s) :
    Keeps σ (stampIntr i m s) := by
  unfold stampIntr
  repeat' first
    | with_reducible assumption
    | intro _
    | with_reducible refine keeps_ite ?_ ?_
    | with_reducible refine setModeration_keeps ?_
    | fail_if_no_progress with_reducible refine keeps_upd ?_ rfl rfl rfl rfl rfl rfl rfl rfl rfl rfl rfl rfl rfl rfl rfl rfl rfl rfl rfl rfl rfl
    | split

theorem transmit_keeps {σ : State} {i : Nat} {m : OutMsg} {s : State} (h_s : Keeps σ s) :
    Keeps σ (transmit i m s).2 := by
  unfold transmit
  repeat' first
    | with_reducible assumption
    | intro _
    | extract_lets
    | with_reducible refine sealMsg_keeps ?_
    | with_reducible refine stampIntr_keeps ?_
    | with_reducible refine takeCredits_keeps ?_
    | with_reducible refine keeps_snd_ite ?_ ?_

theorem pumpList_keeps {σ : State} {i : Nat} {x0 : List OutMsg} {x1 : List OutMsg} {x2 : List TxSlot} {x3 : State} (h_x3 : Keeps σ x3) :
    Keeps σ (pumpList i x0 x1 x2 x3).2 := by
  induction x0 generalizing i x1 x2 x3 with
  | nil => (unfold pumpList; repeat' first
      | with_reducible assumption
      | intro _
      | extract_lets
      | with_reducible refine keeps_ite ?_ ?_
      | with_reducible refine transmit_keeps ?_
      | with_reducible refine keeps_snd_ite ?_ ?_
      | split)
  | cons _ _ ih => (unfold pumpList; repeat' first
      | with_reducible assumption
      | with_reducible apply ih
      | (injections; subst_vars; with_reducible apply ih)
      | intro _
      | extract_lets
      | with_reducible refine keeps_ite ?_ ?_
      | with_reducible refine transmit_keeps ?_
      | with_reducible refine keeps_snd_ite ?_ ?_
      | split)

theorem pump_keeps {σ : State} {i : Nat} {s : State} (h_s : Keeps σ s) :
    Keeps σ (pump i s) := by
  unfold pump
  repeat' first
    | with_reducible assumption
    | intro _
    | extract_lets
    | with_reducible refine pumpList_keeps ?_
    | with_reducible refine pushFlits_keeps ?_
    | with_reducible refine modLink_keeps ?_
    | fail_if_no_progress with_reducible refine keeps_upd ?_ rfl rfl rfl rfl rfl rfl rfl rfl rfl rfl rfl rfl rfl rfl rfl rfl rfl rfl rfl rfl rfl

theorem sendOut_keeps {σ : State} {i : Nat} {m : OutMsg} {s : State} (h_s : Keeps σ s) :
    Keeps σ (sendOut i m s) := by
  unfold sendOut
  repeat' first
    | with_reducible assumption
    | intro _
    | with_reducible refine pump_keeps ?_
    | with_reducible refine modLink_keeps ?_
    | fail_if_no_progress with_reducible refine keeps_upd ?_ rfl rfl rfl rfl rfl rfl rfl rfl rfl rfl rfl rfl rfl rfl rfl rfl rfl rfl rfl rfl rfl

theorem sendWr_keeps {σ : State} {addr : Nat} {lines : Nat} {data : List Byte} {marks : List AckMark} {s : State} (h_s : Keeps σ s) :
    Keeps σ (sendWr addr lines data marks s) := by
  unfold sendWr
  repeat' first
    | with_reducible assumption
    | intro _
    | with_reducible refine sendOut_keeps ?_

theorem sendWrPart_keeps {σ : State} {addr : Nat} {data : List Byte} {marks : List AckMark} {s : State} (h_s : Keeps σ s) :
    Keeps σ (sendWrPart addr data marks s) := by
  unfold sendWrPart
  repeat' first
    | with_reducible assumption
    | intro _
    | with_reducible refine sendOut_keeps ?_

theorem sendIntr_keeps {σ : State} {vector : Nat} {s : State} (h_s : Keeps σ s) :
    Keeps σ (sendIntr vector s) := by
  unfold sendIntr
  repeat' first
    | with_reducible assumption
    | intro _
    | with_reducible refine sendOut_keeps ?_

theorem sendUnwatch_keeps {σ : State} {addr : Nat} {s : State} (h_s : Keeps σ s) :
    Keeps σ (sendUnwatch addr s) := by
  unfold sendUnwatch
  repeat' first
    | with_reducible assumption
    | intro _
    | with_reducible refine sendOut_keeps ?_

theorem sendCpl_keeps {σ : State} {tag : Nat} {status : Nat} {data : Nat} {mailbox : Bool} {s : State} (h_s : Keeps σ s) :
    Keeps σ (sendCpl tag status data mailbox s) := by
  unfold sendCpl
  repeat' first
    | with_reducible assumption
    | intro _
    | with_reducible refine sendOut_keeps ?_

theorem sendSnpAck_keeps {σ : State} {addr : Nat} {s : State} (h_s : Keeps σ s) :
    Keeps σ (sendSnpAck addr s) := by
  unfold sendSnpAck
  repeat' first
    | with_reducible assumption
    | intro _
    | with_reducible refine sendOut_keeps ?_

theorem sendCredit_keeps {σ : State} {req : Nat} {post : Nat} {init : Bool} {s : State} (h_s : Keeps σ s) :
    Keeps σ (sendCredit req post init s) := by
  unfold sendCredit
  repeat' first
    | with_reducible assumption
    | intro _
    | with_reducible refine sendOut_keeps ?_

theorem sendRead_keeps {σ : State} {r : HostRead} {s : State} (h_s : Keeps σ s) :
    Keeps σ (sendRead r s) := by
  unfold sendRead
  repeat' first
    | with_reducible assumption
    | intro _
    | with_reducible refine keeps_ite ?_ ?_
    | with_reducible refine sendOut_keeps ?_
    | split

theorem issueRead_keeps {σ : State} {r0 : HostRead} {s : State} (h_s : Keeps σ s) :
    Keeps σ (issueRead r0 s) := by
  unfold issueRead
  repeat' first
    | with_reducible assumption
    | intro _
    | extract_lets
    | with_reducible refine sendRead_keeps ?_
    | with_reducible refine reads_keeps ?_
    | fail_if_no_progress with_reducible refine keeps_upd ?_ rfl rfl rfl rfl rfl rfl rfl rfl rfl rfl rfl rfl rfl rfl rfl rfl rfl rfl rfl rfl rfl
    | split
    | dsimp +zetaDelta only

theorem hostRead_keeps {σ : State} {addr : Nat} {lenm1 : Nat} {watch : Bool} {use : ReadUse} {s : State} (h_s : Keeps σ s) :
    Keeps σ (hostRead addr lenm1 watch use s) := by
  unfold hostRead
  repeat' first
    | with_reducible assumption
    | intro _
    | with_reducible refine issueRead_keeps ?_

theorem issueWaiting_keeps {σ : State} {s : State} (h_s : Keeps σ s) :
    Keeps σ (issueWaiting s) := by
  unfold issueWaiting
  repeat' first
    | with_reducible assumption
    | intro _
    | with_reducible refine forEach_keeps ?_ ?_
    | with_reducible refine issueRead_keeps ?_
    | fail_if_no_progress with_reducible refine keeps_upd ?_ rfl rfl rfl rfl rfl rfl rfl rfl rfl rfl rfl rfl rfl rfl rfl rfl rfl rfl rfl rfl rfl

theorem dropFetches_keeps {σ : State} {p : FetchUse → Bool} {s : State} (h_s : Keeps σ s) :
    Keeps σ (dropFetches p s) := by
  unfold dropFetches
  repeat' first
    | with_reducible assumption
    | intro _
    | fail_if_no_progress with_reducible refine keeps_upd ?_ rfl rfl rfl rfl rfl rfl rfl rfl rfl rfl rfl rfl rfl rfl rfl rfl rfl rfl rfl rfl rfl

theorem fetchNext_keeps {σ : State} {f : Fetch} {s : State} (h_s : Keeps σ s) :
    Keeps σ (fetchNext f s) := by
  unfold fetchNext
  repeat' first
    | with_reducible assumption
    | intro _
    | with_reducible refine hostRead_keeps ?_
    | fail_if_no_progress with_reducible refine keeps_upd ?_ rfl rfl rfl rfl rfl rfl rfl rfl rfl rfl rfl rfl rfl rfl rfl rfl rfl rfl rfl rfl rfl

theorem startFetch_keeps {σ : State} {u : FetchUse} {addr : Nat} {n : Nat} {s : State} (h_s : Keeps σ s) :
    Keeps σ (startFetch u addr n s) := by
  unfold startFetch
  repeat' first
    | with_reducible assumption
    | intro _
    | with_reducible refine fetchNext_keeps ?_
    | with_reducible refine dropFetches_keeps ?_
    | fail_if_no_progress with_reducible refine keeps_upd ?_ rfl rfl rfl rfl rfl rfl rfl rfl rfl rfl rfl rfl rfl rfl rfl rfl rfl rfl rfl rfl rfl

theorem sendOnPort_keeps {σ : State} {k : Nat} {m : SpanMsg} {s : State} (h_s : Keeps σ s) :
    Keeps σ (sendOnPort k m s) := by
  unfold sendOnPort
  repeat' first
    | with_reducible assumption
    | intro _
    | with_reducible refine sendOut_keeps ?_

theorem putSpan_keeps {σ : State} {m : SpanMsg} {st : Nat} {s : State} (h_s : Keeps σ s) :
    Keeps σ (putSpan m st s) := by
  unfold putSpan
  repeat' first
    | with_reducible assumption
    | intro _
    | extract_lets
    | with_reducible refine keeps_ite ?_ ?_
    | with_reducible refine takeFree_keeps ?_
    | with_reducible refine sendOnPort_keeps ?_
    | fail_if_no_progress with_reducible refine keeps_upd ?_ rfl rfl rfl rfl rfl rfl rfl rfl rfl rfl rfl rfl rfl rfl rfl rfl rfl rfl rfl rfl rfl
    | split
    | dsimp +zetaDelta only

theorem takePsn_keeps {σ : State} {st : Nat} {s : State} (h_s : Keeps σ s) :
    Keeps σ (takePsn st s) := by
  unfold takePsn
  repeat' first
    | with_reducible assumption
    | intro _
    | with_reducible refine keeps_ite ?_ ?_
    | fail_if_no_progress with_reducible refine keeps_upd ?_ rfl rfl rfl rfl rfl rfl rfl rfl rfl rfl rfl rfl rfl rfl rfl rfl rfl rfl rfl rfl rfl
    | split

theorem sendSpan_keeps {σ : State} {op : Nat} {model : Nat} {arg : Nat} {data : List Slot16} {s : State} (h_s : Keeps σ s) :
    Keeps σ (sendSpan op model arg data s) := by
  unfold sendSpan
  repeat' first
    | with_reducible assumption
    | intro _
    | extract_lets
    | with_reducible refine keeps_ite ?_ ?_
    | with_reducible refine putSpan_keeps ?_
    | with_reducible refine takePsn_keeps ?_
    | split

theorem sendEveryPort_keeps {σ : State} {op : Nat} {arg : Nat} {s : State} (h_s : Keeps σ s) :
    Keeps σ (sendEveryPort op arg s) := by
  unfold sendEveryPort
  repeat' first
    | with_reducible assumption
    | intro _
    | with_reducible refine forEach_keeps ?_ ?_
    | with_reducible refine sendOnPort_keeps ?_

end Sys2Proof.Machine
end

