-- ==== Sys2Proof/Laws/KeepFlags.lean ====
section
/-!
SUPPORT. What `Keeps` says, for every function of Machine/Flags.lean that changes the state.
-/
set_option Elab.async false
namespace Sys2Proof.Machine
open Sys2Proof

theorem oweIntr_keeps {σ : State} {v : Nat} {owed : Bool} {s : State} (h_s : Keeps σ s) :
    Keeps σ (oweIntr v owed s) := by
  unfold oweIntr
  repeat' first
    | with_reducible assumption
    | intro _
    | with_reducible refine setModeration_keeps ?_
    | with_reducible refine when_keeps ?_ ?_
    | fail_if_no_progress with_reducible refine keeps_upd ?_ rfl rfl rfl rfl rfl rfl rfl rfl rfl rfl rfl rfl rfl rfl rfl rfl rfl rfl rfl rfl rfl
    | split

theorem interrupt_keeps {σ : State} {v : Nat} {s : State} (h_s : Keeps σ s) :
    Keeps σ (interrupt v s) := by
  unfold interrupt
  repeat' first
    | with_reducible assumption
    | intro _
    | extract_lets
    | with_reducible refine keeps_ite ?_ ?_
    | with_reducible refine sendIntr_keeps ?_
    | with_reducible refine oweIntr_keeps ?_
    | split

theorem writeEvents_keeps {σ : State} {x0 : List EvRec} {x1 : Bool} {x2 : State} (h_x2 : Keeps σ x2) :
    Keeps σ (writeEvents x0 x1 x2).2 := by
  induction x0 generalizing x1 x2 with
  | nil => (unfold writeEvents; repeat' first
      | with_reducible assumption
      | intro _
      | extract_lets
      | with_reducible refine keeps_ite ?_ ?_
      | with_reducible refine dropEvent_keeps ?_
      | with_reducible refine sendWrPart_keeps ?_
      | fail_if_no_progress with_reducible refine keeps_upd ?_ rfl rfl rfl rfl rfl rfl rfl rfl rfl rfl rfl rfl rfl rfl rfl rfl rfl rfl rfl rfl rfl
      | with_reducible refine keeps_snd_ite ?_ ?_
      | split)
  | cons _ _ ih => (unfold writeEvents; repeat' first
      | with_reducible assumption
      | with_reducible apply ih
      | (injections; subst_vars; with_reducible apply ih)
      | intro _
      | extract_lets
      | with_reducible refine keeps_ite ?_ ?_
      | with_reducible refine dropEvent_keeps ?_
      | with_reducible refine sendWrPart_keeps ?_
      | fail_if_no_progress with_reducible refine keeps_upd ?_ rfl rfl rfl rfl rfl rfl rfl rfl rfl rfl rfl rfl rfl rfl rfl rfl rfl rfl rfl rfl rfl
      | with_reducible refine keeps_snd_ite ?_ ?_
      | split)

theorem flushEvents_keeps {σ : State} {s : State} (h_s : Keeps σ s) :
    Keeps σ (flushEvents s) := by
  unfold flushEvents
  repeat' first
    | with_reducible assumption
    | intro _
    | extract_lets
    | with_reducible refine keeps_ite ?_ ?_
    | with_reducible refine writeEvents_keeps ?_
    | with_reducible refine sendWrPart_keeps ?_
    | with_reducible refine when_keeps ?_ ?_
    | with_reducible refine interrupt_keeps ?_
    | fail_if_no_progress with_reducible refine keeps_upd ?_ rfl rfl rfl rfl rfl rfl rfl rfl rfl rfl rfl rfl rfl rfl rfl rfl rfl rfl rfl rfl rfl
    | split
    | dsimp +zetaDelta only

theorem raise_keeps {σ : State} {f : Fld} {s : State} (h_s : Keeps σ s) :
    Keeps σ (raise f s) := by
  unfold raise
  repeat' first
    | with_reducible assumption
    | intro _
    | with_reducible refine flushEvents_keeps ?_
    | with_reducible refine raiseQuiet_keeps ?_

theorem raiseBoth_keeps {σ : State} {f : Fld} {g : Fld} {s : State} (h_s : Keeps σ s) :
    Keeps σ (raiseBoth f g s) := by
  unfold raiseBoth
  repeat' first
    | with_reducible assumption
    | intro _
    | with_reducible refine flushEvents_keeps ?_
    | with_reducible refine raiseQuiet_keeps ?_

theorem pldm_keeps {σ : State} {code : Nat} {detail : Nat} {s : State} (h_s : Keeps σ s) :
    Keeps σ (pldm code detail s) := by
  unfold pldm
  repeat' first
    | with_reducible assumption
    | intro _
    | extract_lets
    | with_reducible refine keeps_ite ?_ ?_
    | with_reducible refine raise_keeps ?_
    | with_reducible refine bump_keeps ?_
    | fail_if_no_progress with_reducible refine keeps_upd ?_ rfl rfl rfl rfl rfl rfl rfl rfl rfl rfl rfl rfl rfl rfl rfl rfl rfl rfl rfl rfl rfl
    | split

theorem warn_keeps {σ : State} {code : Nat} {field : Nat} {f : Fld} {s : State} (h_s : Keeps σ s) :
    Keeps σ (warn code field f s) := by
  unfold warn
  repeat' first
    | with_reducible assumption
    | intro _
    | with_reducible refine pldm_keeps ?_
    | with_reducible refine raise_keeps ?_

theorem journal_keeps {σ : State} {type : Nat} {payload : List Nat} {after : Durable} {s : State} (h_s : Keeps σ s) :
    Keeps σ (journal type payload after s) := by
  unfold journal
  repeat' first
    | with_reducible assumption
    | intro _
    | extract_lets
    | with_reducible refine keeps_ite ?_ ?_
    | fail_if_no_progress with_reducible refine keeps_upd ?_ rfl rfl rfl rfl rfl rfl rfl rfl rfl rfl rfl rfl rfl rfl rfl rfl rfl rfl rfl rfl rfl
    | split

theorem sendReport_keeps {σ : State} {r : Report} {s : State} (h_s : Keeps σ s) :
    Keeps σ (sendReport r s) := by
  unfold sendReport
  repeat' first
    | with_reducible assumption
    | intro _
    | fail_if_no_progress with_reducible refine keeps_upd ?_ rfl rfl rfl rfl rfl rfl rfl rfl rfl rfl rfl rfl rfl rfl rfl rfl rfl rfl rfl rfl rfl

theorem report_keeps {σ : State} {cause : Nat} {c : Nat} {s : State} (h_s : Keeps σ s) :
    Keeps σ (report cause c s) := by
  unfold report
  repeat' first
    | with_reducible assumption
    | intro _
    | with_reducible refine sendReport_keeps ?_
    | fail_if_no_progress with_reducible refine keeps_upd ?_ rfl rfl rfl rfl rfl rfl rfl rfl rfl rfl rfl rfl rfl rfl rfl rfl rfl rfl rfl rfl rfl

theorem holdFw_keeps {σ : State} {code : Nat} {s : State} (h_s : Keeps σ s) :
    Keeps σ (holdFw code s) := by
  unfold holdFw
  repeat' first
    | with_reducible assumption
    | intro _
    | with_reducible refine keeps_ite ?_ ?_
    | fail_if_no_progress with_reducible refine keeps_upd ?_ rfl rfl rfl rfl rfl rfl rfl rfl rfl rfl rfl rfl rfl rfl rfl rfl rfl rfl rfl rfl rfl
    | split

theorem releaseFw_keeps {σ : State} {code : Nat} {s : State} (h_s : Keeps σ s) :
    Keeps σ (releaseFw code s) := by
  unfold releaseFw
  repeat' first
    | with_reducible assumption
    | intro _
    | fail_if_no_progress with_reducible refine keeps_upd ?_ rfl rfl rfl rfl rfl rfl rfl rfl rfl rfl rfl rfl rfl rfl rfl rfl rfl rfl rfl rfl rfl

end Sys2Proof.Machine
end

