-- ==== Sys2Proof/Laws/KeepBudget.lean ====
section
/-!
SUPPORT. What `Keeps` says, for every function of Machine/Budget.lean that changes the state.
-/
set_option Elab.async false
namespace Sys2Proof.Machine
open Sys2Proof

theorem checkHeld_keeps {σ : State} {a : Nat} {s : State} (h_s : Keeps σ s) :
    Keeps σ (checkHeld a s) := by
  unfold checkHeld
  repeat' first
    | with_reducible assumption
    | intro _
    | with_reducible refine keeps_ite ?_ ?_
    | with_reducible refine raise_keeps ?_
    | with_reducible refine wr_keeps ?_
    | split

theorem charge_keeps {σ : State} {a : Nat} {kind : Nat} {n : Nat} {s : State} (h_s : Keeps σ s) :
    Keeps σ (charge a kind n s) := by
  unfold charge
  exact checkHeld_keeps (wr_keeps (keeps_tables h_s rfl rfl rfl rfl rfl rfl fun t => { t with part := Table.wf_set _ _ _ _ t.part }))

theorem chargeEnergy_keeps {σ : State} {a : Nat} {kind : Nat} {n : Nat} {s : State} (h_s : Keeps σ s) :
    Keeps σ (chargeEnergy a kind n s) := by
  unfold chargeEnergy
  repeat' first
    | with_reducible assumption
    | intro _
    | with_reducible refine charge_keeps ?_

end Sys2Proof.Machine
end

