-- ==== Sys2Proof/Laws/KeepMemory.lean ====
section
/-!
SUPPORT. What `Keeps` says, for every function of Machine/Memory.lean that changes the state.
-/
set_option Elab.async false
namespace Sys2Proof.Machine
open Sys2Proof

theorem rangeFault_keeps {σ : State} {c : Nat} {s : State} (h_s : Keeps σ s) :
    Keeps σ (rangeFault c s) := by
  unfold rangeFault
  repeat' first
    | with_reducible assumption
    | intro _
    | with_reducible refine report_keeps ?_
    | with_reducible refine raise_keeps ?_

theorem countAccess_keeps {σ : State} {c : Nat} {port : Nat} {g : Nat} {s : State} (h_s : Keeps σ s) :
    Keeps σ (countAccess c port g s) := by
  unfold countAccess
  repeat' first
    | with_reducible assumption
    | intro _
    | with_reducible refine keeps_ite ?_ ?_
    | with_reducible refine when_keeps ?_ ?_
    | with_reducible refine bump_keeps ?_
    | with_reducible refine rangeFault_keeps ?_
    | split

theorem countAccesses_keeps {σ : State} {c : Nat} {port : Nat} {gs : List Nat} {s : State} (h_s : Keeps σ s) :
    Keeps σ (countAccesses c port gs s) := by
  unfold countAccesses
  repeat' first
    | with_reducible assumption
    | intro _
    | with_reducible refine forEach_keeps ?_ ?_
    | with_reducible refine countAccess_keeps ?_

theorem countLoaded_keeps {σ : State} {c : Nat} {port : Nat} {g : Nat} {s : State} (h_s : Keeps σ s) :
    Keeps σ (countLoaded c port g s) := by
  unfold countLoaded
  repeat' first
    | with_reducible assumption
    | intro _
    | with_reducible refine keeps_ite ?_ ?_
    | with_reducible refine when_keeps ?_ ?_
    | with_reducible refine bump_keeps ?_
    | with_reducible refine rangeFault_keeps ?_
    | split

theorem captureColl_keeps {σ : State} {c : Nat} {m : Meet} {win : Nat × Bool} {s : State} (h_s : Keeps σ s) :
    Keeps σ (captureColl c m win s) := by
  unfold captureColl
  repeat' first
    | with_reducible assumption
    | intro _
    | extract_lets
    | with_reducible refine wr_keeps ?_
    | with_reducible refine wrB_keeps ?_
    | fail_if_no_progress with_reducible refine keeps_upd ?_ rfl rfl rfl rfl rfl rfl rfl rfl rfl rfl rfl rfl rfl rfl rfl rfl rfl rfl rfl rfl rfl

theorem collide_keeps {σ : State} {c : Nat} {m : Meet} {s : State} (h_s : Keeps σ s) :
    Keeps σ (collide c m s) := by
  unfold collide
  repeat' first
    | with_reducible assumption
    | intro _
    | extract_lets
    | with_reducible refine bumpBy_keeps ?_
    | with_reducible refine modCell_keeps ?_
    | with_reducible refine when_keeps ?_ ?_
    | with_reducible refine captureColl_keeps ?_
    | fail_if_no_progress with_reducible refine keeps_upd ?_ rfl rfl rfl rfl rfl rfl rfl rfl rfl rfl rfl rfl rfl rfl rfl rfl rfl rfl rfl rfl rfl
    | split
    | dsimp +zetaDelta only

theorem portDone_keeps {σ : State} {c : Nat} {port : Nat} {s : State} (h_s : Keeps σ s) :
    Keeps σ (portDone c port s) := by
  unfold portDone
  repeat' first
    | with_reducible assumption
    | intro _
    | with_reducible refine keeps_ite ?_ ?_
    | with_reducible refine modCell_keeps ?_
    | fail_if_no_progress with_reducible refine keeps_upd ?_ rfl rfl rfl rfl rfl rfl rfl rfl rfl rfl rfl rfl rfl rfl rfl rfl rfl rfl rfl rfl rfl
    | split

theorem captureEcc_keeps {σ : State} {c : Nat} {w : Nat} {ue : Bool} {s : State} (h_s : Keeps σ s) :
    Keeps σ (captureEcc c w ue s) := by
  unfold captureEcc
  repeat' first
    | with_reducible assumption
    | intro _
    | extract_lets
    | with_reducible refine keeps_ite ?_ ?_
    | with_reducible refine wr_keeps ?_
    | with_reducible refine wrB_keeps ?_
    | split

theorem correctWord_keeps {σ : State} {c : Nat} {w : Nat} {s : State} (h_s : Keeps σ s) :
    Keeps σ (correctWord c w s) := by
  unfold correctWord
  repeat' first
    | with_reducible assumption
    | intro _
    | extract_lets
    | with_reducible refine keeps_ite ?_ ?_
    | with_reducible refine captureEcc_keeps ?_
    | with_reducible refine raise_keeps ?_
    | with_reducible refine bump_keeps ?_
    | with_reducible refine modCell_keeps ?_
    | with_reducible refine when_keeps ?_ ?_
    | with_reducible refine report_keeps ?_
    | fail_if_no_progress with_reducible refine keeps_upd ?_ rfl rfl rfl rfl rfl rfl rfl rfl rfl rfl rfl rfl rfl rfl rfl rfl rfl rfl rfl rfl rfl
    | split

theorem uncorrectable_keeps {σ : State} {c : Nat} {w : Nat} {s : State} (h_s : Keeps σ s) :
    Keeps σ (uncorrectable c w s) := by
  unfold uncorrectable
  repeat' first
    | with_reducible assumption
    | intro _
    | extract_lets
    | with_reducible refine report_keeps ?_
    | with_reducible refine captureEcc_keeps ?_
    | with_reducible refine raise_keeps ?_
    | with_reducible refine bump_keeps ?_

theorem readChecks_keeps {σ : State} {c : Nat} {gs : List Nat} {env : MemEnv} {s : State} (h_s : Keeps σ s) :
    Keeps σ (readChecks c gs env s) := by
  unfold readChecks
  repeat' first
    | with_reducible assumption
    | intro _
    | extract_lets
    | with_reducible refine forEach_keeps ?_ ?_
    | with_reducible refine correctWord_keeps ?_
    | with_reducible refine modCell_keeps ?_
    | with_reducible refine uncorrectable_keeps ?_
    | fail_if_no_progress with_reducible refine keeps_upd ?_ rfl rfl rfl rfl rfl rfl rfl rfl rfl rfl rfl rfl rfl rfl rfl rfl rfl rfl rfl rfl rfl

theorem reads_keeps {σ : State} {c : Nat} {port : Nat} {gs : List Nat} {env : MemEnv} {s : State} (h_s : Keeps σ s) :
    Keeps σ (reads c port gs env s) := by
  unfold reads
  repeat' first
    | with_reducible assumption
    | intro _
    | extract_lets
    | with_reducible refine readChecks_keeps ?_
    | with_reducible refine countAccesses_keeps ?_
    | with_reducible refine forEach_keeps ?_ ?_
    | with_reducible refine report_keeps ?_
    | with_reducible refine portDone_keeps ?_
    | with_reducible refine collide_keeps ?_

theorem loadReads_keeps {σ : State} {c : Nat} {port : Nat} {gs : List Nat} {env : MemEnv} {s : State} (h_s : Keeps σ s) :
    Keeps σ (loadReads c port gs env s) := by
  unfold loadReads
  repeat' first
    | with_reducible assumption
    | intro _
    | extract_lets
    | with_reducible refine readChecks_keeps ?_
    | with_reducible refine forEach_keeps ?_ ?_
    | with_reducible refine countLoaded_keeps ?_
    | with_reducible refine report_keeps ?_
    | with_reducible refine portDone_keeps ?_
    | with_reducible refine collide_keeps ?_

theorem storeGranule_keeps {σ : State} {c : Nat} {g : Nat} {v : Granule} {s : State} (h_s : Keeps σ s) :
    Keeps σ (storeGranule c g v s) := by
  unfold storeGranule
  repeat' first
    | with_reducible assumption
    | intro _
    | with_reducible refine keeps_ite ?_ ?_
    | with_reducible refine modCell_keeps ?_
    | with_reducible refine setGranule_keeps ?_
    | fail_if_no_progress with_reducible refine keeps_upd ?_ rfl rfl rfl rfl rfl rfl rfl rfl rfl rfl rfl rfl rfl rfl rfl rfl rfl rfl rfl rfl rfl
    | split

theorem putGranule_keeps {σ : State} {c : Nat} {g : Nat} {v : Granule} {s : State} (h_s : Keeps σ s) :
    Keeps σ (putGranule c g v s) := by
  unfold putGranule
  repeat' first
    | with_reducible assumption
    | intro _
    | with_reducible refine keeps_ite ?_ ?_
    | with_reducible refine storeGranule_keeps ?_
    | split

theorem loadGranule_keeps {σ : State} {c : Nat} {g : Nat} {v : Granule} {s : State} (h_s : Keeps σ s) :
    Keeps σ (loadGranule c g v s) := by
  unfold loadGranule
  repeat' first
    | with_reducible assumption
    | intro _
    | with_reducible refine keeps_ite ?_ ?_
    | with_reducible refine storeGranule_keeps ?_
    | with_reducible refine rangeFault_keeps ?_
    | split

theorem writeGranule_keeps {σ : State} {c : Nat} {port : Nat} {g : Nat} {v : Granule} {s : State} (h_s : Keeps σ s) :
    Keeps σ (writeGranule c port g v s) := by
  unfold writeGranule
  repeat' first
    | with_reducible assumption
    | intro _
    | with_reducible refine putGranule_keeps ?_
    | with_reducible refine countAccess_keeps ?_

theorem writeGranules_keeps {σ : State} {c : Nat} {port : Nat} {x0 : Nat} {x1 : List Granule} {x2 : State} (h_x2 : Keeps σ x2) :
    Keeps σ (writeGranules c port x0 x1 x2) := by
  induction x1 generalizing c port x0 x2 with
  | nil => (unfold writeGranules; repeat' first
      | with_reducible assumption
      | intro _
      | with_reducible refine writeGranule_keeps ?_)
  | cons _ _ ih => (unfold writeGranules; repeat' first
      | with_reducible assumption
      | with_reducible apply ih
      | (injections; subst_vars; with_reducible apply ih)
      | intro _
      | with_reducible refine writeGranule_keeps ?_)

theorem arrive_keeps {σ : State} {c : Nat} {n : Nat} {s : State} (h_s : Keeps σ s) :
    Keeps σ (arrive c n s) := by
  unfold arrive
  repeat' first
    | with_reducible assumption
    | intro _
    | extract_lets
    | with_reducible refine keeps_ite ?_ ?_
    | with_reducible refine modCell_keeps ?_
    | with_reducible refine raise_keeps ?_
    | with_reducible refine setArrival_keeps ?_
    | fail_if_no_progress with_reducible refine keeps_upd ?_ rfl rfl rfl rfl rfl rfl rfl rfl rfl rfl rfl rfl rfl rfl rfl rfl rfl rfl rfl rfl rfl
    | split

theorem takeThreshold_keeps {σ : State} {c : Nat} {n : Nat} {t : BitVec 24} {s : State} (h_s : Keeps σ s) :
    Keeps σ (takeThreshold c n t s) := by
  unfold takeThreshold
  repeat' first
    | with_reducible assumption
    | intro _
    | with_reducible refine modCell_keeps ?_
    | with_reducible refine setArrival_keeps ?_
    | fail_if_no_progress with_reducible refine keeps_upd ?_ rfl rfl rfl rfl rfl rfl rfl rfl rfl rfl rfl rfl rfl rfl rfl rfl rfl rfl rfl rfl rfl

theorem precise_keeps {σ : State} {c : Nat} {kind : Nat} {n : Nat} {s : State} (h_s : Keeps σ s) :
    Keeps σ (precise c kind n s) := by
  unfold precise
  repeat' first
    | with_reducible assumption
    | intro _
    | fail_if_no_progress with_reducible refine keeps_upd ?_ rfl rfl rfl rfl rfl rfl rfl rfl rfl rfl rfl rfl rfl rfl rfl rfl rfl rfl rfl rfl rfl
    | split

theorem accessAged_keeps {σ : State} {c : Nat} {x : LosingAccess} {s : State} (h_s : Keeps σ s) :
    Keeps σ (accessAged c x s) := by
  unfold accessAged
  repeat' first
    | with_reducible assumption
    | intro _
    | with_reducible refine keeps_ite ?_ ?_
    | with_reducible refine modCell_keeps ?_
    | fail_if_no_progress with_reducible refine keeps_upd ?_ rfl rfl rfl rfl rfl rfl rfl rfl rfl rfl rfl rfl rfl rfl rfl rfl rfl rfl rfl rfl rfl
    | split

theorem eccWriteback_keeps {σ : State} {c : Nat} {g : Nat} {w : Nat} {s : State} (h_s : Keeps σ s) :
    Keeps σ (eccWriteback c g w s) := by
  unfold eccWriteback
  repeat' first
    | with_reducible assumption
    | intro _
    | extract_lets
    | with_reducible refine keeps_ite ?_ ?_
    | with_reducible refine modCell_keeps ?_
    | fail_if_no_progress with_reducible refine keeps_upd ?_ rfl rfl rfl rfl rfl rfl rfl rfl rfl rfl rfl rfl rfl rfl rfl rfl rfl rfl rfl rfl rfl
    | split

theorem scrubRead_keeps {σ : State} {c : Nat} {t : Nat} {env : MemEnv} {s : State} (h_s : Keeps σ s) :
    Keeps σ (scrubRead c t env s) := by
  unfold scrubRead
  repeat' first
    | with_reducible assumption
    | intro _
    | extract_lets
    | with_reducible refine keeps_ite ?_ ?_
    | with_reducible refine forEach_keeps ?_ ?_
    | with_reducible refine collide_keeps ?_
    | with_reducible refine readChecks_keeps ?_
    | with_reducible refine atTime_keeps ?_
    | with_reducible refine report_keeps ?_
    | with_reducible refine modCell_keeps ?_
    | with_reducible refine scrubAged_keeps ?_
    | with_reducible refine when_keeps ?_ ?_
    | with_reducible refine bump_keeps ?_
    | fail_if_no_progress with_reducible refine keeps_upd ?_ rfl rfl rfl rfl rfl rfl rfl rfl rfl rfl rfl rfl rfl rfl rfl rfl rfl rfl rfl rfl rfl
    | split

theorem scrubAged_keeps {σ : State} {c : Nat} {s : State} (h_s : Keeps σ s) :
    Keeps σ (scrubAged c s) := by
  unfold scrubAged
  repeat' first
    | with_reducible assumption
    | intro _
    | with_reducible refine keeps_ite ?_ ?_
    | with_reducible refine modCell_keeps ?_
    | fail_if_no_progress with_reducible refine keeps_upd ?_ rfl rfl rfl rfl rfl rfl rfl rfl rfl rfl rfl rfl rfl rfl rfl rfl rfl rfl rfl rfl rfl
    | split

theorem scrubLate_keeps {σ : State} {c : Nat} {t : Nat} {s : State} (h_s : Keeps σ s) :
    Keeps σ (scrubLate c t s) := by
  unfold scrubLate
  repeat' first
    | with_reducible assumption
    | intro _
    | with_reducible refine keeps_ite ?_ ?_
    | with_reducible refine raise_keeps ?_
    | with_reducible refine modCell_keeps ?_
    | with_reducible refine atTime_keeps ?_
    | fail_if_no_progress with_reducible refine keeps_upd ?_ rfl rfl rfl rfl rfl rfl rfl rfl rfl rfl rfl rfl rfl rfl rfl rfl rfl rfl rfl rfl rfl
    | split

theorem execAccessAged_keeps {σ : State} {c : Nat} {x : LosingAccess} {s : State} (h_s : Keeps σ s) :
    ∃ τ, execAccessAged c x s = .next τ ∧ Keeps σ τ := by
  refine ⟨_, rfl, ?_⟩
  repeat' first
    | with_reducible assumption
    | intro _
    | with_reducible refine accessAged_keeps ?_

theorem execEccWriteback_keeps {σ : State} {c : Nat} {g : Nat} {w : Nat} {s : State} (h_s : Keeps σ s) :
    ∃ τ, execEccWriteback c g w s = .next τ ∧ Keeps σ τ := by
  refine ⟨_, rfl, ?_⟩
  repeat' first
    | with_reducible assumption
    | intro _
    | with_reducible refine eccWriteback_keeps ?_

theorem execScrubRead_keeps {σ : State} {c : Nat} {t : Nat} {env : MemEnv} {s : State} (h_s : Keeps σ s) :
    ∃ τ, execScrubRead c t env s = .next τ ∧ Keeps σ τ := by
  refine ⟨_, rfl, ?_⟩
  repeat' first
    | with_reducible assumption
    | intro _
    | with_reducible refine scrubRead_keeps ?_

theorem execScrubAged_keeps {σ : State} {c : Nat} {s : State} (h_s : Keeps σ s) :
    ∃ τ, execScrubAged c s = .next τ ∧ Keeps σ τ := by
  refine ⟨_, rfl, ?_⟩
  repeat' first
    | with_reducible assumption
    | intro _
    | with_reducible refine scrubAged_keeps ?_

theorem execScrubLate_keeps {σ : State} {c : Nat} {t : Nat} {s : State} (h_s : Keeps σ s) :
    ∃ τ, execScrubLate c t s = .next τ ∧ Keeps σ τ := by
  refine ⟨_, rfl, ?_⟩
  repeat' first
    | with_reducible assumption
    | intro _
    | with_reducible refine scrubLate_keeps ?_

end Sys2Proof.Machine
end

