-- ==== Sys2Proof/Laws/KeepTensor.lean ====
section
/-!
SUPPORT. What `Keeps` says, for every function of Machine/Tensor.lean that changes the state.
-/
set_option Elab.async false
namespace Sys2Proof.Machine
open Sys2Proof

theorem accumulate_keeps {σ : State} {c : Nat} {arr : Nat} {v : Nat} {i : Nat} {r : Word} {s : State} (h_s : Keeps σ s) :
    Keeps σ (accumulate c arr v i r s) := by
  unfold accumulate
  repeat' first
    | with_reducible assumption
    | intro _
    | with_reducible refine setAcc_keeps ?_

theorem clearFile_keeps {σ : State} {c : Nat} {arr : Nat} {s : State} (h_s : Keeps σ s) :
    Keeps σ (clearFile c arr s) := by
  unfold clearFile
  exact keeps_tables h_s rfl rfl rfl rfl rfl rfl fun t => { t with accs := Table.wf_clear _ _ _ _ t.accs }

theorem tileStep_keeps {σ : State} {c : Nat} {arr : Nat} {nv : Nat} {tr : Bool} {tile : List Dy} {vecs : List (List Dy)} {s : State} (h_s : Keeps σ s) :
    Keeps σ (tileStep c arr nv tr tile vecs s) := by
  unfold tileStep
  repeat' first
    | with_reducible assumption
    | intro _
    | with_reducible refine forEach_keeps ?_ ?_
    | with_reducible refine accumulate_keeps ?_

theorem rowStats_keeps {σ : State} {c : Nat} {arrays : List Nat} {env : MemEnv} {r : Machine.State} {s : State} (h_s : Keeps σ s) :
    Keeps σ (rowStats c arrays env r s) := by
  unfold rowStats
  repeat' first
    | with_reducible assumption
    | intro _
    | extract_lets
    | with_reducible refine keeps_ite ?_ ?_
    | with_reducible refine writeGranule_keeps ?_
    | with_reducible refine precise_keeps ?_
    | with_reducible refine forEach_keeps ?_ ?_
    | with_reducible refine clearFile_keeps ?_
    | fail_if_no_progress with_reducible refine keeps_upd ?_ rfl rfl rfl rfl rfl rfl rfl rfl rfl rfl rfl rfl rfl rfl rfl rfl rfl rfl rfl rfl rfl
    | split
    | dsimp +zetaDelta only

theorem tensorEffect_keeps {σ : State} {c : Nat} {w : Dword} {env : MemEnv} {s : State} (h_s : Keeps σ s) :
    Keeps σ (tensorEffect c w env s) := by
  unfold tensorEffect
  repeat' first
    | with_reducible assumption
    | intro _
    | extract_lets
    | with_reducible refine keeps_ite ?_ ?_
    | with_reducible refine reads_keeps ?_
    | with_reducible refine forEach_keeps ?_ ?_
    | with_reducible refine clearFile_keeps ?_
    | with_reducible refine tileStep_keeps ?_
    | with_reducible refine when_keeps ?_ ?_
    | with_reducible refine report_keeps ?_
    | with_reducible refine raise_keeps ?_
    | with_reducible refine rowStats_keeps ?_
    | with_reducible refine precise_keeps ?_
    | with_reducible refine chargeEnergy_keeps ?_
    | fail_if_no_progress with_reducible refine keeps_upd ?_ rfl rfl rfl rfl rfl rfl rfl rfl rfl rfl rfl rfl rfl rfl rfl rfl rfl rfl rfl rfl rfl
    | split
    | dsimp +zetaDelta only

end Sys2Proof.Machine
end

