-- ==== Sys2Proof/Laws/KeepKvCell.lean ====
section
/-!
SUPPORT. What `Keeps` says, for every function of Machine/KvCell.lean that changes the state.
-/
set_option Elab.async false
namespace Sys2Proof.Machine
open Sys2Proof

theorem putCarry_keeps {σ : State} {c : Nat} {r : KvRow} {x : StepSeq} {data : List Granule} {s : State} (h_s : Keeps σ s) :
    Keeps σ (putCarry c r x data s) := by
  unfold putCarry
  repeat' first
    | with_reducible assumption
    | intro _
    | extract_lets
    | fail_if_no_progress with_reducible refine keeps_upd ?_ rfl rfl rfl rfl rfl rfl rfl rfl rfl rfl rfl rfl rfl rfl rfl rfl rfl rfl rfl rfl rfl

theorem putScale_keeps {σ : State} {r : KvRow} {x : StepSeq} {k : Nat} {t : Word} {s : State} (h_s : Keeps σ s) :
    Keeps σ (putScale r x k t s) := by
  unfold putScale
  repeat' first
    | with_reducible assumption
    | intro _
    | with_reducible refine keeps_ite ?_ ?_
    | fail_if_no_progress with_reducible refine keeps_upd ?_ rfl rfl rfl rfl rfl rfl rfl rfl rfl rfl rfl rfl rfl rfl rfl rfl rfl rfl rfl rfl rfl
    | split

theorem stageKv_keeps {σ : State} {r : KvRow} {x : StepSeq} {elems : List Granule} {idx : Granule} {s : State} (h_s : Keeps σ s) :
    Keeps σ (stageKv r x elems idx s) := by
  unfold stageKv
  repeat' first
    | with_reducible assumption
    | intro _
    | fail_if_no_progress with_reducible refine keeps_upd ?_ rfl rfl rfl rfl rfl rfl rfl rfl rfl rfl rfl rfl rfl rfl rfl rfl rfl rfl rfl rfl rfl

theorem commitKv_keeps {σ : State} {x : StepSeq} {s : State} (h_s : Keeps σ s) :
    Keeps σ (commitKv x s) := by
  unfold commitKv
  repeat' first
    | with_reducible assumption
    | intro _
    | extract_lets
    | fail_if_no_progress with_reducible refine keeps_upd ?_ rfl rfl rfl rfl rfl rfl rfl rfl rfl rfl rfl rfl rfl rfl rfl rfl rfl rfl rfl rfl rfl
    | with_reducible refine foldl_keeps ?_ ?_

theorem discardKv_keeps {σ : State} {q : Nat} {s : State} (h_s : Keeps σ s) :
    Keeps σ (discardKv q s) := by
  unfold discardKv
  repeat' first
    | with_reducible assumption
    | intro _
    | fail_if_no_progress with_reducible refine keeps_upd ?_ rfl rfl rfl rfl rfl rfl rfl rfl rfl rfl rfl rfl rfl rfl rfl rfl rfl rfl rfl rfl rfl

theorem forgetKv_keeps {σ : State} {q : Nat} {s : State} (h_s : Keeps σ s) :
    Keeps σ (forgetKv q s) := by
  unfold forgetKv
  repeat' first
    | with_reducible assumption
    | intro _
    | fail_if_no_progress with_reducible refine keeps_upd ?_ rfl rfl rfl rfl rfl rfl rfl rfl rfl rfl rfl rfl rfl rfl rfl rfl rfl rfl rfl rfl rfl

end Sys2Proof.Machine
end

