-- ==== Sys2Proof/Laws/KeepVector.lean ====
section
/-!
SUPPORT. What `Keeps` says, for every function of Machine/Vector.lean that changes the state.
-/
set_option Elab.async false
namespace Sys2Proof.Machine
open Sys2Proof

theorem chargeVec_keeps {σ : State} {c : Nat} {n : Nat} {s : State} (h_s : Keeps σ s) :
    Keeps σ (chargeVec c n s) := by
  unfold chargeVec
  repeat' first
    | with_reducible assumption
    | intro _
    | with_reducible refine chargeEnergy_keeps ?_

theorem elementwise_keeps {σ : State} {c : Nat} {v : VectorWord} {rdGran : List Nat} {out : List Word} {env : MemEnv} {s : State} (h_s : Keeps σ s) :
    Keeps σ (elementwise c v rdGran out env s) := by
  unfold elementwise
  repeat' first
    | with_reducible assumption
    | intro _
    | extract_lets
    | with_reducible refine chargeVec_keeps ?_
    | with_reducible refine when_keeps ?_ ?_
    | with_reducible refine precise_keeps ?_
    | with_reducible refine writeGranules_keeps ?_
    | with_reducible refine reads_keeps ?_

theorem addEffect_keeps {σ : State} {c : Nat} {w : Dword} {env : MemEnv} {s : State} (h_s : Keeps σ s) :
    Keeps σ (addEffect c w env s) := by
  unfold addEffect
  repeat' first
    | with_reducible assumption
    | intro _
    | extract_lets
    | with_reducible refine elementwise_keeps ?_

theorem mulEffect_keeps {σ : State} {c : Nat} {w : Dword} {env : MemEnv} {s : State} (h_s : Keeps σ s) :
    Keeps σ (mulEffect c w env s) := by
  unfold mulEffect
  repeat' first
    | with_reducible assumption
    | intro _
    | extract_lets
    | with_reducible refine elementwise_keeps ?_

theorem fmaEffect_keeps {σ : State} {c : Nat} {w : Dword} {env : MemEnv} {s : State} (h_s : Keeps σ s) :
    Keeps σ (fmaEffect c w env s) := by
  unfold fmaEffect
  repeat' first
    | with_reducible assumption
    | intro _
    | extract_lets
    | with_reducible refine elementwise_keeps ?_

theorem maxEffect_keeps {σ : State} {c : Nat} {w : Dword} {env : MemEnv} {s : State} (h_s : Keeps σ s) :
    Keeps σ (maxEffect c w env s) := by
  unfold maxEffect
  repeat' first
    | with_reducible assumption
    | intro _
    | extract_lets
    | with_reducible refine elementwise_keeps ?_

theorem expEffect_keeps {σ : State} {c : Nat} {w : Dword} {env : MemEnv} {s : State} (h_s : Keeps σ s) :
    Keeps σ (expEffect c w env s) := by
  unfold expEffect
  repeat' first
    | with_reducible assumption
    | intro _
    | extract_lets
    | with_reducible refine when_keeps ?_ ?_
    | with_reducible refine precise_keeps ?_
    | with_reducible refine elementwise_keeps ?_

theorem rcpEffect_keeps {σ : State} {c : Nat} {w : Dword} {env : MemEnv} {s : State} (h_s : Keeps σ s) :
    Keeps σ (rcpEffect c w env s) := by
  unfold rcpEffect
  repeat' first
    | with_reducible assumption
    | intro _
    | extract_lets
    | with_reducible refine when_keeps ?_ ?_
    | with_reducible refine precise_keeps ?_
    | with_reducible refine elementwise_keeps ?_

theorem rsqrtEffect_keeps {σ : State} {c : Nat} {w : Dword} {env : MemEnv} {s : State} (h_s : Keeps σ s) :
    Keeps σ (rsqrtEffect c w env s) := by
  unfold rsqrtEffect
  repeat' first
    | with_reducible assumption
    | intro _
    | extract_lets
    | with_reducible refine elementwise_keeps ?_

theorem sumredEffect_keeps {σ : State} {c : Nat} {w : Dword} {env : MemEnv} {s : State} (h_s : Keeps σ s) :
    Keeps σ (sumredEffect c w env s) := by
  unfold sumredEffect
  repeat' first
    | with_reducible assumption
    | intro _
    | extract_lets
    | with_reducible refine keeps_ite ?_ ?_
    | with_reducible refine chargeVec_keeps ?_
    | with_reducible refine writeGranule_keeps ?_
    | with_reducible refine reads_keeps ?_
    | split

theorem maxredEffect_keeps {σ : State} {c : Nat} {w : Dword} {env : MemEnv} {s : State} (h_s : Keeps σ s) :
    Keeps σ (maxredEffect c w env s) := by
  unfold maxredEffect
  repeat' first
    | with_reducible assumption
    | intro _
    | extract_lets
    | with_reducible refine keeps_ite ?_ ?_
    | with_reducible refine chargeVec_keeps ?_
    | with_reducible refine writeGranule_keeps ?_
    | with_reducible refine reads_keeps ?_
    | split

theorem scaleEffect_keeps {σ : State} {c : Nat} {w : Dword} {env : MemEnv} {s : State} (h_s : Keeps σ s) :
    Keeps σ (scaleEffect c w env s) := by
  unfold scaleEffect
  repeat' first
    | with_reducible assumption
    | intro _
    | extract_lets
    | with_reducible refine elementwise_keeps ?_

theorem cvtEffect_keeps {σ : State} {c : Nat} {w : Dword} {env : MemEnv} {s : State} (h_s : Keeps σ s) :
    Keeps σ (cvtEffect c w env s) := by
  unfold cvtEffect
  repeat' first
    | with_reducible assumption
    | intro _
    | extract_lets
    | with_reducible refine writeGranules_keeps ?_
    | with_reducible refine reads_keeps ?_
    | with_reducible refine chargeVec_keeps ?_
    | with_reducible refine when_keeps ?_ ?_
    | with_reducible refine precise_keeps ?_

theorem s24encEffect_keeps {σ : State} {c : Nat} {w : Dword} {env : MemEnv} {s : State} (h_s : Keeps σ s) :
    Keeps σ (s24encEffect c w env s) := by
  unfold s24encEffect
  repeat' first
    | with_reducible assumption
    | intro _
    | extract_lets
    | with_reducible refine writeGranules_keeps ?_
    | with_reducible refine reads_keeps ?_
    | with_reducible refine chargeVec_keeps ?_
    | with_reducible refine when_keeps ?_ ?_
    | with_reducible refine precise_keeps ?_
    | fail_if_no_progress with_reducible refine keeps_upd ?_ rfl rfl rfl rfl rfl rfl rfl rfl rfl rfl rfl rfl rfl rfl rfl rfl rfl rfl rfl rfl rfl

theorem s24decEffect_keeps {σ : State} {c : Nat} {w : Dword} {env : MemEnv} {s : State} (h_s : Keeps σ s) :
    Keeps σ (s24decEffect c w env s) := by
  unfold s24decEffect
  repeat' first
    | with_reducible assumption
    | intro _
    | extract_lets
    | with_reducible refine keeps_ite ?_ ?_
    | with_reducible refine chargeVec_keeps ?_
    | with_reducible refine writeGranules_keeps ?_
    | with_reducible refine reads_keeps ?_
    | split

theorem rngEffect_keeps {σ : State} {c : Nat} {w : Dword} {env : MemEnv} {s : State} (h_s : Keeps σ s) :
    Keeps σ (rngEffect c w env s) := by
  unfold rngEffect
  repeat' first
    | with_reducible assumption
    | intro _
    | extract_lets
    | with_reducible refine keeps_ite ?_ ?_
    | with_reducible refine chargeVec_keeps ?_
    | with_reducible refine writeGranules_keeps ?_
    | with_reducible refine reads_keeps ?_
    | with_reducible refine modCell_keeps ?_
    | fail_if_no_progress with_reducible refine keeps_upd ?_ rfl rfl rfl rfl rfl rfl rfl rfl rfl rfl rfl rfl rfl rfl rfl rfl rfl rfl rfl rfl rfl
    | split

theorem keepRow_keeps {σ : State} {c : Nat} {kvr : Option (KvRow × StepSeq)} {k : Nat} {t : Word} {elems : List Granule} {idx : Granule} {carry : Option (List Granule)} {s : State} (h_s : Keeps σ s) :
    Keeps σ (keepRow c kvr k t elems idx carry s) := by
  unfold keepRow
  repeat' first
    | with_reducible assumption
    | intro _
    | extract_lets
    | with_reducible refine stageKv_keeps ?_
    | with_reducible refine putScale_keeps ?_
    | with_reducible refine putCarry_keeps ?_
    | fail_if_no_progress with_reducible refine keeps_upd ?_ rfl rfl rfl rfl rfl rfl rfl rfl rfl rfl rfl rfl rfl rfl rfl rfl rfl rfl rfl rfl rfl
    | split
    | dsimp +zetaDelta only

theorem qntWrites_keeps {σ : State} {c : Nat} {v : VectorWord} {q : QntResult} {s : State} (h_s : Keeps σ s) :
    Keeps σ (qntWrites c v q s) := by
  unfold qntWrites
  repeat' first
    | with_reducible assumption
    | intro _
    | extract_lets
    | with_reducible refine writeGranule_keeps ?_
    | with_reducible refine writeGranules_keeps ?_
    | split
    | dsimp +zetaDelta only

theorem qntEffect_keeps {σ : State} {c : Nat} {w : Dword} {env : MemEnv} {s : State} (h_s : Keeps σ s) :
    Keeps σ (qntEffect c w env s) := by
  unfold qntEffect
  repeat' first
    | with_reducible assumption
    | intro _
    | extract_lets
    | with_reducible refine keeps_ite ?_ ?_
    | with_reducible refine reads_keeps ?_
    | with_reducible refine qntWrites_keeps ?_
    | with_reducible refine keepRow_keeps ?_
    | with_reducible refine when_keeps ?_ ?_
    | with_reducible refine precise_keeps ?_
    | with_reducible refine raise_keeps ?_
    | with_reducible refine chargeVec_keeps ?_
    | fail_if_no_progress with_reducible refine keeps_upd ?_ rfl rfl rfl rfl rfl rfl rfl rfl rfl rfl rfl rfl rfl rfl rfl rfl rfl rfl rfl rfl rfl
    | split
    | dsimp +zetaDelta only

end Sys2Proof.Machine
end

