-- ==== Sys2Proof/Laws/KeepSeq.lean ====
section
/-!
SUPPORT. What `Keeps` says, for every function of Machine/Seq.lean that changes the state.
-/
set_option Elab.async false
namespace Sys2Proof.Machine
open Sys2Proof

theorem fetchGranule_keeps {σ : State} {c : Nat} {g : Nat} {env : MemEnv} {s : State} (h_s : Keeps σ s) :
    Keeps σ (fetchGranule c g env s) := by
  unfold fetchGranule
  repeat' first
    | with_reducible assumption
    | intro _
    | extract_lets
    | with_reducible refine readChecks_keeps ?_
    | with_reducible refine countAccess_keeps ?_
    | with_reducible refine modCell_keeps ?_
    | fail_if_no_progress with_reducible refine keeps_upd ?_ rfl rfl rfl rfl rfl rfl rfl rfl rfl rfl rfl rfl rfl rfl rfl rfl rfl rfl rfl rfl rfl

theorem fill_keeps {σ : State} {c : Nat} {env : MemEnv} {s : State} (h_s : Keeps σ s) :
    Keeps σ (fill c env s) := by
  unfold fill
  repeat' first
    | with_reducible assumption
    | intro _
    | extract_lets
    | with_reducible refine keeps_ite ?_ ?_
    | with_reducible refine fetchGranule_keeps ?_
    | with_reducible refine modCell_keeps ?_
    | fail_if_no_progress with_reducible refine keeps_upd ?_ rfl rfl rfl rfl rfl rfl rfl rfl rfl rfl rfl rfl rfl rfl rfl rfl rfl rfl rfl rfl rfl
    | split

theorem advance_keeps {σ : State} {c : Nat} {s : State} (h_s : Keeps σ s) :
    Keeps σ (advance c s) := by
  unfold advance
  repeat' first
    | with_reducible assumption
    | intro _
    | extract_lets
    | with_reducible refine modCell_keeps ?_
    | fail_if_no_progress with_reducible refine keeps_upd ?_ rfl rfl rfl rfl rfl rfl rfl rfl rfl rfl rfl rfl rfl rfl rfl rfl rfl rfl rfl rfl rfl

theorem issue_keeps {σ : State} {c : Nat} {want : Kind → Bool} {env : MemEnv} {body : Dword → State → State} {stay : Bool} {s : State} (h_body : ∀ y0 y1, Keeps σ y1 → Keeps σ (body y0 y1)) (h_s : Keeps σ s) :
    Keeps σ (issue c want env body stay s) := by
  unfold issue
  repeat' first
    | with_reducible assumption
    | with_reducible apply h_body
    | intro _
    | extract_lets
    | with_reducible refine keeps_ite ?_ ?_
    | with_reducible refine fill_keeps ?_
    | with_reducible refine advance_keeps ?_
    | split

theorem issueVector_keeps {σ : State} {op : Nat} {c : Nat} {env : MemEnv} {body : Nat → Dword → MemEnv → State → State} {s : State} (h_body : ∀ y0 y1 y2 y3, Keeps σ y3 → Keeps σ (body y0 y1 y2 y3)) (h_s : Keeps σ s) :
    Keeps σ (issueVector op c env body s) := by
  unfold issueVector
  repeat' first
    | with_reducible assumption
    | with_reducible apply h_body
    | intro _
    | with_reducible refine issue_keeps ?_ ?_

theorem seqChecks_keeps {σ : State} {c : Nat} {env : MemEnv} {s : State} (h_s : Keeps σ s) :
    Keeps σ (seqChecks c env s) := by
  unfold seqChecks
  repeat' first
    | with_reducible assumption
    | intro _
    | with_reducible refine forEach_keeps ?_ ?_
    | with_reducible refine report_keeps ?_

theorem execNop_keeps {σ : State} {c : Nat} {env : MemEnv} {s : State} (h_s : Keeps σ s) :
    ∃ τ, execNop c env s = .next τ ∧ Keeps σ τ := by
  refine ⟨_, rfl, ?_⟩
  repeat' first
    | with_reducible assumption
    | intro _
    | with_reducible refine issue_keeps ?_ ?_
    | with_reducible refine seqChecks_keeps ?_

theorem execTensor_keeps {σ : State} {c : Nat} {env : MemEnv} {s : State} (h_s : Keeps σ s) :
    ∃ τ, execTensor c env s = .next τ ∧ Keeps σ τ := by
  refine ⟨_, rfl, ?_⟩
  repeat' first
    | with_reducible assumption
    | intro _
    | with_reducible refine issue_keeps ?_ ?_
    | with_reducible refine tensorEffect_keeps ?_

theorem execAdd_keeps {σ : State} {c : Nat} {env : MemEnv} {s : State} (h_s : Keeps σ s) :
    ∃ τ, execAdd c env s = .next τ ∧ Keeps σ τ := by
  refine ⟨_, rfl, ?_⟩
  repeat' first
    | with_reducible assumption
    | intro _
    | with_reducible refine issueVector_keeps ?_ ?_
    | with_reducible refine addEffect_keeps ?_

theorem execMul_keeps {σ : State} {c : Nat} {env : MemEnv} {s : State} (h_s : Keeps σ s) :
    ∃ τ, execMul c env s = .next τ ∧ Keeps σ τ := by
  refine ⟨_, rfl, ?_⟩
  repeat' first
    | with_reducible assumption
    | intro _
    | with_reducible refine issueVector_keeps ?_ ?_
    | with_reducible refine mulEffect_keeps ?_

theorem execFma_keeps {σ : State} {c : Nat} {env : MemEnv} {s : State} (h_s : Keeps σ s) :
    ∃ τ, execFma c env s = .next τ ∧ Keeps σ τ := by
  refine ⟨_, rfl, ?_⟩
  repeat' first
    | with_reducible assumption
    | intro _
    | with_reducible refine issueVector_keeps ?_ ?_
    | with_reducible refine fmaEffect_keeps ?_

theorem execMax_keeps {σ : State} {c : Nat} {env : MemEnv} {s : State} (h_s : Keeps σ s) :
    ∃ τ, execMax c env s = .next τ ∧ Keeps σ τ := by
  refine ⟨_, rfl, ?_⟩
  repeat' first
    | with_reducible assumption
    | intro _
    | with_reducible refine issueVector_keeps ?_ ?_
    | with_reducible refine maxEffect_keeps ?_

theorem execExp_keeps {σ : State} {c : Nat} {env : MemEnv} {s : State} (h_s : Keeps σ s) :
    ∃ τ, execExp c env s = .next τ ∧ Keeps σ τ := by
  refine ⟨_, rfl, ?_⟩
  repeat' first
    | with_reducible assumption
    | intro _
    | with_reducible refine issueVector_keeps ?_ ?_
    | with_reducible refine expEffect_keeps ?_

theorem execRcp_keeps {σ : State} {c : Nat} {env : MemEnv} {s : State} (h_s : Keeps σ s) :
    ∃ τ, execRcp c env s = .next τ ∧ Keeps σ τ := by
  refine ⟨_, rfl, ?_⟩
  repeat' first
    | with_reducible assumption
    | intro _
    | with_reducible refine issueVector_keeps ?_ ?_
    | with_reducible refine rcpEffect_keeps ?_

theorem execRsqrt_keeps {σ : State} {c : Nat} {env : MemEnv} {s : State} (h_s : Keeps σ s) :
    ∃ τ, execRsqrt c env s = .next τ ∧ Keeps σ τ := by
  refine ⟨_, rfl, ?_⟩
  repeat' first
    | with_reducible assumption
    | intro _
    | with_reducible refine issueVector_keeps ?_ ?_
    | with_reducible refine rsqrtEffect_keeps ?_

theorem execSumred_keeps {σ : State} {c : Nat} {env : MemEnv} {s : State} (h_s : Keeps σ s) :
    ∃ τ, execSumred c env s = .next τ ∧ Keeps σ τ := by
  refine ⟨_, rfl, ?_⟩
  repeat' first
    | with_reducible assumption
    | intro _
    | with_reducible refine issueVector_keeps ?_ ?_
    | with_reducible refine sumredEffect_keeps ?_

theorem execMaxred_keeps {σ : State} {c : Nat} {env : MemEnv} {s : State} (h_s : Keeps σ s) :
    ∃ τ, execMaxred c env s = .next τ ∧ Keeps σ τ := by
  refine ⟨_, rfl, ?_⟩
  repeat' first
    | with_reducible assumption
    | intro _
    | with_reducible refine issueVector_keeps ?_ ?_
    | with_reducible refine maxredEffect_keeps ?_

theorem execCvt_keeps {σ : State} {c : Nat} {env : MemEnv} {s : State} (h_s : Keeps σ s) :
    ∃ τ, execCvt c env s = .next τ ∧ Keeps σ τ := by
  refine ⟨_, rfl, ?_⟩
  repeat' first
    | with_reducible assumption
    | intro _
    | with_reducible refine issueVector_keeps ?_ ?_
    | with_reducible refine cvtEffect_keeps ?_

theorem execScale_keeps {σ : State} {c : Nat} {env : MemEnv} {s : State} (h_s : Keeps σ s) :
    ∃ τ, execScale c env s = .next τ ∧ Keeps σ τ := by
  refine ⟨_, rfl, ?_⟩
  repeat' first
    | with_reducible assumption
    | intro _
    | with_reducible refine issueVector_keeps ?_ ?_
    | with_reducible refine scaleEffect_keeps ?_

theorem execQnt_keeps {σ : State} {c : Nat} {env : MemEnv} {s : State} (h_s : Keeps σ s) :
    ∃ τ, execQnt c env s = .next τ ∧ Keeps σ τ := by
  refine ⟨_, rfl, ?_⟩
  repeat' first
    | with_reducible assumption
    | intro _
    | with_reducible refine issueVector_keeps ?_ ?_
    | with_reducible refine qntEffect_keeps ?_

theorem execS24enc_keeps {σ : State} {c : Nat} {env : MemEnv} {s : State} (h_s : Keeps σ s) :
    ∃ τ, execS24enc c env s = .next τ ∧ Keeps σ τ := by
  refine ⟨_, rfl, ?_⟩
  repeat' first
    | with_reducible assumption
    | intro _
    | with_reducible refine issueVector_keeps ?_ ?_
    | with_reducible refine s24encEffect_keeps ?_

theorem execS24dec_keeps {σ : State} {c : Nat} {env : MemEnv} {s : State} (h_s : Keeps σ s) :
    ∃ τ, execS24dec c env s = .next τ ∧ Keeps σ τ := by
  refine ⟨_, rfl, ?_⟩
  repeat' first
    | with_reducible assumption
    | intro _
    | with_reducible refine issueVector_keeps ?_ ?_
    | with_reducible refine s24decEffect_keeps ?_

theorem execRng_keeps {σ : State} {c : Nat} {env : MemEnv} {s : State} (h_s : Keeps σ s) :
    ∃ τ, execRng c env s = .next τ ∧ Keeps σ τ := by
  refine ⟨_, rfl, ?_⟩
  repeat' first
    | with_reducible assumption
    | intro _
    | with_reducible refine issueVector_keeps ?_ ?_
    | with_reducible refine rngEffect_keeps ?_

theorem waitEffect_keeps {σ : State} {c : Nat} {w : Dword} {s : State} (h_s : Keeps σ s) :
    Keeps σ (waitEffect c w s) := by
  unfold waitEffect
  repeat' first
    | with_reducible assumption
    | intro _
    | extract_lets
    | with_reducible refine keeps_ite ?_ ?_
    | with_reducible refine advance_keeps ?_
    | with_reducible refine takeThreshold_keeps ?_
    | with_reducible refine modCell_keeps ?_
    | fail_if_no_progress with_reducible refine keeps_upd ?_ rfl rfl rfl rfl rfl rfl rfl rfl rfl rfl rfl rfl rfl rfl rfl rfl rfl rfl rfl rfl rfl
    | split

theorem execWait_keeps {σ : State} {c : Nat} {env : MemEnv} {s : State} (h_s : Keeps σ s) :
    ∃ τ, execWait c env s = .next τ ∧ Keeps σ τ := by
  refine ⟨_, rfl, ?_⟩
  repeat' first
    | with_reducible assumption
    | intro _
    | with_reducible refine issue_keeps ?_ ?_
    | with_reducible refine waitEffect_keeps ?_
    | with_reducible refine seqChecks_keeps ?_

theorem waitComplete_keeps {σ : State} {c : Nat} {s : State} (h_s : Keeps σ s) :
    Keeps σ (waitComplete c s) := by
  unfold waitComplete
  repeat' first
    | with_reducible assumption
    | intro _
    | with_reducible refine keeps_ite ?_ ?_
    | with_reducible refine advance_keeps ?_
    | with_reducible refine modCell_keeps ?_
    | with_reducible refine takeThreshold_keeps ?_
    | fail_if_no_progress with_reducible refine keeps_upd ?_ rfl rfl rfl rfl rfl rfl rfl rfl rfl rfl rfl rfl rfl rfl rfl rfl rfl rfl rfl rfl rfl
    | split

theorem execWaitComplete_keeps {σ : State} {c : Nat} {s : State} (h_s : Keeps σ s) :
    ∃ τ, execWaitComplete c s = .next τ ∧ Keeps σ τ := by
  refine ⟨_, rfl, ?_⟩
  repeat' first
    | with_reducible assumption
    | intro _
    | with_reducible refine waitComplete_keeps ?_

theorem completeSync_keeps {σ : State} {c : Nat} {s : State} (h_s : Keeps σ s) :
    Keeps σ (completeSync c s) := by
  unfold completeSync
  repeat' first
    | with_reducible assumption
    | intro _
    | with_reducible refine advance_keeps ?_
    | with_reducible refine modCell_keeps ?_
    | fail_if_no_progress with_reducible refine keeps_upd ?_ rfl rfl rfl rfl rfl rfl rfl rfl rfl rfl rfl rfl rfl rfl rfl rfl rfl rfl rfl rfl rfl

theorem syncEffect_keeps {σ : State} {c : Nat} {s : State} (h_s : Keeps σ s) :
    Keeps σ (syncEffect c s) := by
  unfold syncEffect
  repeat' first
    | with_reducible assumption
    | intro _
    | extract_lets
    | with_reducible refine keeps_ite ?_ ?_
    | with_reducible refine completeSync_keeps ?_
    | with_reducible refine modCell_keeps ?_
    | fail_if_no_progress with_reducible refine keeps_upd ?_ rfl rfl rfl rfl rfl rfl rfl rfl rfl rfl rfl rfl rfl rfl rfl rfl rfl rfl rfl rfl rfl
    | split

theorem execSync_keeps {σ : State} {c : Nat} {env : MemEnv} {s : State} (h_s : Keeps σ s) :
    ∃ τ, execSync c env s = .next τ ∧ Keeps σ τ := by
  refine ⟨_, rfl, ?_⟩
  repeat' first
    | with_reducible assumption
    | intro _
    | with_reducible refine issue_keeps ?_ ?_
    | with_reducible refine syncEffect_keeps ?_
    | with_reducible refine seqChecks_keeps ?_

theorem execJump_keeps {σ : State} {c : Nat} {env : MemEnv} {s : State} (h_s : Keeps σ s) :
    ∃ τ, execJump c env s = .next τ ∧ Keeps σ τ := by
  refine ⟨_, rfl, ?_⟩
  repeat' first
    | with_reducible assumption
    | intro _
    | with_reducible refine issue_keeps ?_ ?_
    | with_reducible refine modCell_keeps ?_
    | with_reducible refine seqChecks_keeps ?_
    | fail_if_no_progress with_reducible refine keeps_upd ?_ rfl rfl rfl rfl rfl rfl rfl rfl rfl rfl rfl rfl rfl rfl rfl rfl rfl rfl rfl rfl rfl

theorem execIllegalInstruction_keeps {σ : State} {c : Nat} {env : MemEnv} {s : State} (h_s : Keeps σ s) :
    ∃ τ, execIllegalInstruction c env s = .next τ ∧ Keeps σ τ := by
  refine ⟨_, rfl, ?_⟩
  repeat' first
    | with_reducible assumption
    | intro _
    | with_reducible refine issue_keeps ?_ ?_
    | with_reducible refine report_keeps ?_
    | with_reducible refine raise_keeps ?_
    | with_reducible refine modCell_keeps ?_
    | with_reducible refine seqChecks_keeps ?_
    | fail_if_no_progress with_reducible refine keeps_upd ?_ rfl rfl rfl rfl rfl rfl rfl rfl rfl rfl rfl rfl rfl rfl rfl rfl rfl rfl rfl rfl rfl

end Sys2Proof.Machine
end

