-- ==== Sys2Proof/Laws/State.lean ====
section
/-!
SUPPORT. One lemma per field and per update of the state: what an update leaves alone.
-/
set_option Elab.async false
namespace Sys2Proof.Machine
open Sys2Proof

variable (s : State)

@[simp] theorem setReg_pending (off : Nat) (v : Word) : (setReg off v s).pending = s.pending := rfl
@[simp] theorem setReg_latchOcl (off : Nat) (v : Word) : (setReg off v s).latchOcl = s.latchOcl := rfl
@[simp] theorem setReg_latchMgmt (off : Nat) (v : Word) : (setReg off v s).latchMgmt = s.latchMgmt := rfl
@[simp] theorem setReg_cells (off : Nat) (v : Word) : (setReg off v s).cells = s.cells := rfl
@[simp] theorem setReg_counters (off : Nat) (v : Word) : (setReg off v s).counters = s.counters := rfl
@[simp] theorem setReg_accs (off : Nat) (v : Word) : (setReg off v s).accs = s.accs := rfl
@[simp] theorem setReg_cellMem (off : Nat) (v : Word) : (setReg off v s).cellMem = s.cellMem := rfl
@[simp] theorem setReg_stackMem (off : Nat) (v : Word) : (setReg off v s).stackMem = s.stackMem := rfl
@[simp] theorem setReg_mesh (off : Nat) (v : Word) : (setReg off v s).mesh = s.mesh := rfl
@[simp] theorem setReg_prec (off : Nat) (v : Word) : (setReg off v s).prec = s.prec := rfl
@[simp] theorem setReg_sched (off : Nat) (v : Word) : (setReg off v s).sched = s.sched := rfl
@[simp] theorem setReg_beat (off : Nat) (v : Word) : (setReg off v s).beat = s.beat := rfl
@[simp] theorem setReg_budget (off : Nat) (v : Word) : (setReg off v s).budget = s.budget := rfl
@[simp] theorem setReg_kv (off : Nat) (v : Word) : (setReg off v s).kv = s.kv := rfl
@[simp] theorem setReg_svc (off : Nat) (v : Word) : (setReg off v s).svc = s.svc := rfl
@[simp] theorem setReg_ledger (off : Nat) (v : Word) : (setReg off v s).ledger = s.ledger := rfl
@[simp] theorem setReg_tune (off : Nat) (v : Word) : (setReg off v s).tune = s.tune := rfl
@[simp] theorem setReg_link (off : Nat) (v : Word) : (setReg off v s).link = s.link := rfl
@[simp] theorem setReg_ocl (off : Nat) (v : Word) : (setReg off v s).ocl = s.ocl := rfl
@[simp] theorem setReg_pair (off : Nat) (v : Word) : (setReg off v s).pair = s.pair := rfl
@[simp] theorem setReg_faults (off : Nat) (v : Word) : (setReg off v s).faults = s.faults := rfl
@[simp] theorem setReg_power (off : Nat) (v : Word) : (setReg off v s).power = s.power := rfl
@[simp] theorem setReg_boot (off : Nat) (v : Word) : (setReg off v s).boot = s.boot := rfl
@[simp] theorem setReg_fuses (off : Nat) (v : Word) : (setReg off v s).fuses = s.fuses := rfl
@[simp] theorem setReg_sec (off : Nat) (v : Word) : (setReg off v s).sec = s.sec := rfl
@[simp] theorem setReg_agent (off : Nat) (v : Word) : (setReg off v s).agent = s.agent := rfl
@[simp] theorem setReg_mgmt (off : Nat) (v : Word) : (setReg off v s).mgmt = s.mgmt := rfl
@[simp] theorem setReg_now (off : Nat) (v : Word) : (setReg off v s).now = s.now := rfl
@[simp] theorem setReg_free (off : Nat) (v : Word) : (setReg off v s).free = s.free := rfl

@[simp] theorem wr_pending (f : Fld) (v : Nat) : (wr f v s).pending = s.pending := rfl
@[simp] theorem wr_latchOcl (f : Fld) (v : Nat) : (wr f v s).latchOcl = s.latchOcl := rfl
@[simp] theorem wr_latchMgmt (f : Fld) (v : Nat) : (wr f v s).latchMgmt = s.latchMgmt := rfl
@[simp] theorem wr_cells (f : Fld) (v : Nat) : (wr f v s).cells = s.cells := rfl
@[simp] theorem wr_counters (f : Fld) (v : Nat) : (wr f v s).counters = s.counters := rfl
@[simp] theorem wr_accs (f : Fld) (v : Nat) : (wr f v s).accs = s.accs := rfl
@[simp] theorem wr_cellMem (f : Fld) (v : Nat) : (wr f v s).cellMem = s.cellMem := rfl
@[simp] theorem wr_stackMem (f : Fld) (v : Nat) : (wr f v s).stackMem = s.stackMem := rfl
@[simp] theorem wr_mesh (f : Fld) (v : Nat) : (wr f v s).mesh = s.mesh := rfl
@[simp] theorem wr_prec (f : Fld) (v : Nat) : (wr f v s).prec = s.prec := rfl
@[simp] theorem wr_sched (f : Fld) (v : Nat) : (wr f v s).sched = s.sched := rfl
@[simp] theorem wr_beat (f : Fld) (v : Nat) : (wr f v s).beat = s.beat := rfl
@[simp] theorem wr_budget (f : Fld) (v : Nat) : (wr f v s).budget = s.budget := rfl
@[simp] theorem wr_kv (f : Fld) (v : Nat) : (wr f v s).kv = s.kv := rfl
@[simp] theorem wr_svc (f : Fld) (v : Nat) : (wr f v s).svc = s.svc := rfl
@[simp] theorem wr_ledger (f : Fld) (v : Nat) : (wr f v s).ledger = s.ledger := rfl
@[simp] theorem wr_tune (f : Fld) (v : Nat) : (wr f v s).tune = s.tune := rfl
@[simp] theorem wr_link (f : Fld) (v : Nat) : (wr f v s).link = s.link := rfl
@[simp] theorem wr_ocl (f : Fld) (v : Nat) : (wr f v s).ocl = s.ocl := rfl
@[simp] theorem wr_pair (f : Fld) (v : Nat) : (wr f v s).pair = s.pair := rfl
@[simp] theorem wr_faults (f : Fld) (v : Nat) : (wr f v s).faults = s.faults := rfl
@[simp] theorem wr_power (f : Fld) (v : Nat) : (wr f v s).power = s.power := rfl
@[simp] theorem wr_boot (f : Fld) (v : Nat) : (wr f v s).boot = s.boot := rfl
@[simp] theorem wr_fuses (f : Fld) (v : Nat) : (wr f v s).fuses = s.fuses := rfl
@[simp] theorem wr_sec (f : Fld) (v : Nat) : (wr f v s).sec = s.sec := rfl
@[simp] theorem wr_agent (f : Fld) (v : Nat) : (wr f v s).agent = s.agent := rfl
@[simp] theorem wr_mgmt (f : Fld) (v : Nat) : (wr f v s).mgmt = s.mgmt := rfl
@[simp] theorem wr_now (f : Fld) (v : Nat) : (wr f v s).now = s.now := rfl
@[simp] theorem wr_free (f : Fld) (v : Nat) : (wr f v s).free = s.free := rfl

@[simp] theorem wrB_pending (f : Fld) (b : Bool) : (wrB f b s).pending = s.pending := rfl
@[simp] theorem wrB_latchOcl (f : Fld) (b : Bool) : (wrB f b s).latchOcl = s.latchOcl := rfl
@[simp] theorem wrB_latchMgmt (f : Fld) (b : Bool) : (wrB f b s).latchMgmt = s.latchMgmt := rfl
@[simp] theorem wrB_cells (f : Fld) (b : Bool) : (wrB f b s).cells = s.cells := rfl
@[simp] theorem wrB_counters (f : Fld) (b : Bool) : (wrB f b s).counters = s.counters := rfl
@[simp] theorem wrB_accs (f : Fld) (b : Bool) : (wrB f b s).accs = s.accs := rfl
@[simp] theorem wrB_cellMem (f : Fld) (b : Bool) : (wrB f b s).cellMem = s.cellMem := rfl
@[simp] theorem wrB_stackMem (f : Fld) (b : Bool) : (wrB f b s).stackMem = s.stackMem := rfl
@[simp] theorem wrB_mesh (f : Fld) (b : Bool) : (wrB f b s).mesh = s.mesh := rfl
@[simp] theorem wrB_prec (f : Fld) (b : Bool) : (wrB f b s).prec = s.prec := rfl
@[simp] theorem wrB_sched (f : Fld) (b : Bool) : (wrB f b s).sched = s.sched := rfl
@[simp] theorem wrB_beat (f : Fld) (b : Bool) : (wrB f b s).beat = s.beat := rfl
@[simp] theorem wrB_budget (f : Fld) (b : Bool) : (wrB f b s).budget = s.budget := rfl
@[simp] theorem wrB_kv (f : Fld) (b : Bool) : (wrB f b s).kv = s.kv := rfl
@[simp] theorem wrB_svc (f : Fld) (b : Bool) : (wrB f b s).svc = s.svc := rfl
@[simp] theorem wrB_ledger (f : Fld) (b : Bool) : (wrB f b s).ledger = s.ledger := rfl
@[simp] theorem wrB_tune (f : Fld) (b : Bool) : (wrB f b s).tune = s.tune := rfl
@[simp] theorem wrB_link (f : Fld) (b : Bool) : (wrB f b s).link = s.link := rfl
@[simp] theorem wrB_ocl (f : Fld) (b : Bool) : (wrB f b s).ocl = s.ocl := rfl
@[simp] theorem wrB_pair (f : Fld) (b : Bool) : (wrB f b s).pair = s.pair := rfl
@[simp] theorem wrB_faults (f : Fld) (b : Bool) : (wrB f b s).faults = s.faults := rfl
@[simp] theorem wrB_power (f : Fld) (b : Bool) : (wrB f b s).power = s.power := rfl
@[simp] theorem wrB_boot (f : Fld) (b : Bool) : (wrB f b s).boot = s.boot := rfl
@[simp] theorem wrB_fuses (f : Fld) (b : Bool) : (wrB f b s).fuses = s.fuses := rfl
@[simp] theorem wrB_sec (f : Fld) (b : Bool) : (wrB f b s).sec = s.sec := rfl
@[simp] theorem wrB_agent (f : Fld) (b : Bool) : (wrB f b s).agent = s.agent := rfl
@[simp] theorem wrB_mgmt (f : Fld) (b : Bool) : (wrB f b s).mgmt = s.mgmt := rfl
@[simp] theorem wrB_now (f : Fld) (b : Bool) : (wrB f b s).now = s.now := rfl
@[simp] theorem wrB_free (f : Fld) (b : Bool) : (wrB f b s).free = s.free := rfl

@[simp] theorem setCnt_pending (off n : Nat) : (setCnt off n s).pending = s.pending := rfl
@[simp] theorem setCnt_latchOcl (off n : Nat) : (setCnt off n s).latchOcl = s.latchOcl := rfl
@[simp] theorem setCnt_latchMgmt (off n : Nat) : (setCnt off n s).latchMgmt = s.latchMgmt := rfl
@[simp] theorem setCnt_cells (off n : Nat) : (setCnt off n s).cells = s.cells := rfl
@[simp] theorem setCnt_counters (off n : Nat) : (setCnt off n s).counters = s.counters := rfl
@[simp] theorem setCnt_accs (off n : Nat) : (setCnt off n s).accs = s.accs := rfl
@[simp] theorem setCnt_cellMem (off n : Nat) : (setCnt off n s).cellMem = s.cellMem := rfl
@[simp] theorem setCnt_stackMem (off n : Nat) : (setCnt off n s).stackMem = s.stackMem := rfl
@[simp] theorem setCnt_mesh (off n : Nat) : (setCnt off n s).mesh = s.mesh := rfl
@[simp] theorem setCnt_prec (off n : Nat) : (setCnt off n s).prec = s.prec := rfl
@[simp] theorem setCnt_sched (off n : Nat) : (setCnt off n s).sched = s.sched := rfl
@[simp] theorem setCnt_beat (off n : Nat) : (setCnt off n s).beat = s.beat := rfl
@[simp] theorem setCnt_budget (off n : Nat) : (setCnt off n s).budget = s.budget := rfl
@[simp] theorem setCnt_kv (off n : Nat) : (setCnt off n s).kv = s.kv := rfl
@[simp] theorem setCnt_svc (off n : Nat) : (setCnt off n s).svc = s.svc := rfl
@[simp] theorem setCnt_ledger (off n : Nat) : (setCnt off n s).ledger = s.ledger := rfl
@[simp] theorem setCnt_tune (off n : Nat) : (setCnt off n s).tune = s.tune := rfl
@[simp] theorem setCnt_link (off n : Nat) : (setCnt off n s).link = s.link := rfl
@[simp] theorem setCnt_ocl (off n : Nat) : (setCnt off n s).ocl = s.ocl := rfl
@[simp] theorem setCnt_pair (off n : Nat) : (setCnt off n s).pair = s.pair := rfl
@[simp] theorem setCnt_faults (off n : Nat) : (setCnt off n s).faults = s.faults := rfl
@[simp] theorem setCnt_power (off n : Nat) : (setCnt off n s).power = s.power := rfl
@[simp] theorem setCnt_boot (off n : Nat) : (setCnt off n s).boot = s.boot := rfl
@[simp] theorem setCnt_fuses (off n : Nat) : (setCnt off n s).fuses = s.fuses := rfl
@[simp] theorem setCnt_sec (off n : Nat) : (setCnt off n s).sec = s.sec := rfl
@[simp] theorem setCnt_agent (off n : Nat) : (setCnt off n s).agent = s.agent := rfl
@[simp] theorem setCnt_mgmt (off n : Nat) : (setCnt off n s).mgmt = s.mgmt := rfl
@[simp] theorem setCnt_now (off n : Nat) : (setCnt off n s).now = s.now := rfl
@[simp] theorem setCnt_free (off n : Nat) : (setCnt off n s).free = s.free := rfl

@[simp] theorem bumpBy_pending (off n : Nat) : (bumpBy off n s).pending = s.pending := rfl
@[simp] theorem bumpBy_latchOcl (off n : Nat) : (bumpBy off n s).latchOcl = s.latchOcl := rfl
@[simp] theorem bumpBy_latchMgmt (off n : Nat) : (bumpBy off n s).latchMgmt = s.latchMgmt := rfl
@[simp] theorem bumpBy_cells (off n : Nat) : (bumpBy off n s).cells = s.cells := rfl
@[simp] theorem bumpBy_counters (off n : Nat) : (bumpBy off n s).counters = s.counters := rfl
@[simp] theorem bumpBy_accs (off n : Nat) : (bumpBy off n s).accs = s.accs := rfl
@[simp] theorem bumpBy_cellMem (off n : Nat) : (bumpBy off n s).cellMem = s.cellMem := rfl
@[simp] theorem bumpBy_stackMem (off n : Nat) : (bumpBy off n s).stackMem = s.stackMem := rfl
@[simp] theorem bumpBy_mesh (off n : Nat) : (bumpBy off n s).mesh = s.mesh := rfl
@[simp] theorem bumpBy_prec (off n : Nat) : (bumpBy off n s).prec = s.prec := rfl
@[simp] theorem bumpBy_sched (off n : Nat) : (bumpBy off n s).sched = s.sched := rfl
@[simp] theorem bumpBy_beat (off n : Nat) : (bumpBy off n s).beat = s.beat := rfl
@[simp] theorem bumpBy_budget (off n : Nat) : (bumpBy off n s).budget = s.budget := rfl
@[simp] theorem bumpBy_kv (off n : Nat) : (bumpBy off n s).kv = s.kv := rfl
@[simp] theorem bumpBy_svc (off n : Nat) : (bumpBy off n s).svc = s.svc := rfl
@[simp] theorem bumpBy_ledger (off n : Nat) : (bumpBy off n s).ledger = s.ledger := rfl
@[simp] theorem bumpBy_tune (off n : Nat) : (bumpBy off n s).tune = s.tune := rfl
@[simp] theorem bumpBy_link (off n : Nat) : (bumpBy off n s).link = s.link := rfl
@[simp] theorem bumpBy_ocl (off n : Nat) : (bumpBy off n s).ocl = s.ocl := rfl
@[simp] theorem bumpBy_pair (off n : Nat) : (bumpBy off n s).pair = s.pair := rfl
@[simp] theorem bumpBy_faults (off n : Nat) : (bumpBy off n s).faults = s.faults := rfl
@[simp] theorem bumpBy_power (off n : Nat) : (bumpBy off n s).power = s.power := rfl
@[simp] theorem bumpBy_boot (off n : Nat) : (bumpBy off n s).boot = s.boot := rfl
@[simp] theorem bumpBy_fuses (off n : Nat) : (bumpBy off n s).fuses = s.fuses := rfl
@[simp] theorem bumpBy_sec (off n : Nat) : (bumpBy off n s).sec = s.sec := rfl
@[simp] theorem bumpBy_agent (off n : Nat) : (bumpBy off n s).agent = s.agent := rfl
@[simp] theorem bumpBy_mgmt (off n : Nat) : (bumpBy off n s).mgmt = s.mgmt := rfl
@[simp] theorem bumpBy_now (off n : Nat) : (bumpBy off n s).now = s.now := rfl
@[simp] theorem bumpBy_free (off n : Nat) : (bumpBy off n s).free = s.free := rfl

@[simp] theorem bump_pending (off : Nat) : (bump off s).pending = s.pending := rfl
@[simp] theorem bump_latchOcl (off : Nat) : (bump off s).latchOcl = s.latchOcl := rfl
@[simp] theorem bump_latchMgmt (off : Nat) : (bump off s).latchMgmt = s.latchMgmt := rfl
@[simp] theorem bump_cells (off : Nat) : (bump off s).cells = s.cells := rfl
@[simp] theorem bump_counters (off : Nat) : (bump off s).counters = s.counters := rfl
@[simp] theorem bump_accs (off : Nat) : (bump off s).accs = s.accs := rfl
@[simp] theorem bump_cellMem (off : Nat) : (bump off s).cellMem = s.cellMem := rfl
@[simp] theorem bump_stackMem (off : Nat) : (bump off s).stackMem = s.stackMem := rfl
@[simp] theorem bump_mesh (off : Nat) : (bump off s).mesh = s.mesh := rfl
@[simp] theorem bump_prec (off : Nat) : (bump off s).prec = s.prec := rfl
@[simp] theorem bump_sched (off : Nat) : (bump off s).sched = s.sched := rfl
@[simp] theorem bump_beat (off : Nat) : (bump off s).beat = s.beat := rfl
@[simp] theorem bump_budget (off : Nat) : (bump off s).budget = s.budget := rfl
@[simp] theorem bump_kv (off : Nat) : (bump off s).kv = s.kv := rfl
@[simp] theorem bump_svc (off : Nat) : (bump off s).svc = s.svc := rfl
@[simp] theorem bump_ledger (off : Nat) : (bump off s).ledger = s.ledger := rfl
@[simp] theorem bump_tune (off : Nat) : (bump off s).tune = s.tune := rfl
@[simp] theorem bump_link (off : Nat) : (bump off s).link = s.link := rfl
@[simp] theorem bump_ocl (off : Nat) : (bump off s).ocl = s.ocl := rfl
@[simp] theorem bump_pair (off : Nat) : (bump off s).pair = s.pair := rfl
@[simp] theorem bump_faults (off : Nat) : (bump off s).faults = s.faults := rfl
@[simp] theorem bump_power (off : Nat) : (bump off s).power = s.power := rfl
@[simp] theorem bump_boot (off : Nat) : (bump off s).boot = s.boot := rfl
@[simp] theorem bump_fuses (off : Nat) : (bump off s).fuses = s.fuses := rfl
@[simp] theorem bump_sec (off : Nat) : (bump off s).sec = s.sec := rfl
@[simp] theorem bump_agent (off : Nat) : (bump off s).agent = s.agent := rfl
@[simp] theorem bump_mgmt (off : Nat) : (bump off s).mgmt = s.mgmt := rfl
@[simp] theorem bump_now (off : Nat) : (bump off s).now = s.now := rfl
@[simp] theorem bump_free (off : Nat) : (bump off s).free = s.free := rfl

@[simp] theorem atTime_pending (t : Nat) : (atTime t s).pending = s.pending := rfl
@[simp] theorem atTime_win (t : Nat) : (atTime t s).win = s.win := rfl
@[simp] theorem atTime_latchOcl (t : Nat) : (atTime t s).latchOcl = s.latchOcl := rfl
@[simp] theorem atTime_latchMgmt (t : Nat) : (atTime t s).latchMgmt = s.latchMgmt := rfl
@[simp] theorem atTime_cells (t : Nat) : (atTime t s).cells = s.cells := rfl
@[simp] theorem atTime_counters (t : Nat) : (atTime t s).counters = s.counters := rfl
@[simp] theorem atTime_accs (t : Nat) : (atTime t s).accs = s.accs := rfl
@[simp] theorem atTime_cellMem (t : Nat) : (atTime t s).cellMem = s.cellMem := rfl
@[simp] theorem atTime_stackMem (t : Nat) : (atTime t s).stackMem = s.stackMem := rfl
@[simp] theorem atTime_mesh (t : Nat) : (atTime t s).mesh = s.mesh := rfl
@[simp] theorem atTime_prec (t : Nat) : (atTime t s).prec = s.prec := rfl
@[simp] theorem atTime_sched (t : Nat) : (atTime t s).sched = s.sched := rfl
@[simp] theorem atTime_beat (t : Nat) : (atTime t s).beat = s.beat := rfl
@[simp] theorem atTime_budget (t : Nat) : (atTime t s).budget = s.budget := rfl
@[simp] theorem atTime_kv (t : Nat) : (atTime t s).kv = s.kv := rfl
@[simp] theorem atTime_svc (t : Nat) : (atTime t s).svc = s.svc := rfl
@[simp] theorem atTime_ledger (t : Nat) : (atTime t s).ledger = s.ledger := rfl
@[simp] theorem atTime_tune (t : Nat) : (atTime t s).tune = s.tune := rfl
@[simp] theorem atTime_link (t : Nat) : (atTime t s).link = s.link := rfl
@[simp] theorem atTime_ocl (t : Nat) : (atTime t s).ocl = s.ocl := rfl
@[simp] theorem atTime_pair (t : Nat) : (atTime t s).pair = s.pair := rfl
@[simp] theorem atTime_faults (t : Nat) : (atTime t s).faults = s.faults := rfl
@[simp] theorem atTime_power (t : Nat) : (atTime t s).power = s.power := rfl
@[simp] theorem atTime_boot (t : Nat) : (atTime t s).boot = s.boot := rfl
@[simp] theorem atTime_fuses (t : Nat) : (atTime t s).fuses = s.fuses := rfl
@[simp] theorem atTime_sec (t : Nat) : (atTime t s).sec = s.sec := rfl
@[simp] theorem atTime_agent (t : Nat) : (atTime t s).agent = s.agent := rfl
@[simp] theorem atTime_mgmt (t : Nat) : (atTime t s).mgmt = s.mgmt := rfl
@[simp] theorem atTime_free (t : Nat) : (atTime t s).free = s.free := rfl

@[simp] theorem takeFree_pending : (takeFree s).pending = s.pending := rfl
@[simp] theorem takeFree_win : (takeFree s).win = s.win := rfl
@[simp] theorem takeFree_latchOcl : (takeFree s).latchOcl = s.latchOcl := rfl
@[simp] theorem takeFree_latchMgmt : (takeFree s).latchMgmt = s.latchMgmt := rfl
@[simp] theorem takeFree_cells : (takeFree s).cells = s.cells := rfl
@[simp] theorem takeFree_counters : (takeFree s).counters = s.counters := rfl
@[simp] theorem takeFree_accs : (takeFree s).accs = s.accs := rfl
@[simp] theorem takeFree_cellMem : (takeFree s).cellMem = s.cellMem := rfl
@[simp] theorem takeFree_stackMem : (takeFree s).stackMem = s.stackMem := rfl
@[simp] theorem takeFree_mesh : (takeFree s).mesh = s.mesh := rfl
@[simp] theorem takeFree_prec : (takeFree s).prec = s.prec := rfl
@[simp] theorem takeFree_sched : (takeFree s).sched = s.sched := rfl
@[simp] theorem takeFree_beat : (takeFree s).beat = s.beat := rfl
@[simp] theorem takeFree_budget : (takeFree s).budget = s.budget := rfl
@[simp] theorem takeFree_kv : (takeFree s).kv = s.kv := rfl
@[simp] theorem takeFree_svc : (takeFree s).svc = s.svc := rfl
@[simp] theorem takeFree_ledger : (takeFree s).ledger = s.ledger := rfl
@[simp] theorem takeFree_tune : (takeFree s).tune = s.tune := rfl
@[simp] theorem takeFree_link : (takeFree s).link = s.link := rfl
@[simp] theorem takeFree_ocl : (takeFree s).ocl = s.ocl := rfl
@[simp] theorem takeFree_pair : (takeFree s).pair = s.pair := rfl
@[simp] theorem takeFree_faults : (takeFree s).faults = s.faults := rfl
@[simp] theorem takeFree_power : (takeFree s).power = s.power := rfl
@[simp] theorem takeFree_boot : (takeFree s).boot = s.boot := rfl
@[simp] theorem takeFree_fuses : (takeFree s).fuses = s.fuses := rfl
@[simp] theorem takeFree_sec : (takeFree s).sec = s.sec := rfl
@[simp] theorem takeFree_agent : (takeFree s).agent = s.agent := rfl
@[simp] theorem takeFree_mgmt : (takeFree s).mgmt = s.mgmt := rfl
@[simp] theorem takeFree_now : (takeFree s).now = s.now := rfl

@[simp] theorem setCell_pending (c : Nat) (x : Cell) : (setCell c x s).pending = s.pending := rfl
@[simp] theorem setCell_win (c : Nat) (x : Cell) : (setCell c x s).win = s.win := rfl
@[simp] theorem setCell_latchOcl (c : Nat) (x : Cell) : (setCell c x s).latchOcl = s.latchOcl := rfl
@[simp] theorem setCell_latchMgmt (c : Nat) (x : Cell) : (setCell c x s).latchMgmt = s.latchMgmt := rfl
@[simp] theorem setCell_counters (c : Nat) (x : Cell) : (setCell c x s).counters = s.counters := rfl
@[simp] theorem setCell_accs (c : Nat) (x : Cell) : (setCell c x s).accs = s.accs := rfl
@[simp] theorem setCell_cellMem (c : Nat) (x : Cell) : (setCell c x s).cellMem = s.cellMem := rfl
@[simp] theorem setCell_stackMem (c : Nat) (x : Cell) : (setCell c x s).stackMem = s.stackMem := rfl
@[simp] theorem setCell_mesh (c : Nat) (x : Cell) : (setCell c x s).mesh = s.mesh := rfl
@[simp] theorem setCell_prec (c : Nat) (x : Cell) : (setCell c x s).prec = s.prec := rfl
@[simp] theorem setCell_sched (c : Nat) (x : Cell) : (setCell c x s).sched = s.sched := rfl
@[simp] theorem setCell_beat (c : Nat) (x : Cell) : (setCell c x s).beat = s.beat := rfl
@[simp] theorem setCell_budget (c : Nat) (x : Cell) : (setCell c x s).budget = s.budget := rfl
@[simp] theorem setCell_kv (c : Nat) (x : Cell) : (setCell c x s).kv = s.kv := rfl
@[simp] theorem setCell_svc (c : Nat) (x : Cell) : (setCell c x s).svc = s.svc := rfl
@[simp] theorem setCell_ledger (c : Nat) (x : Cell) : (setCell c x s).ledger = s.ledger := rfl
@[simp] theorem setCell_tune (c : Nat) (x : Cell) : (setCell c x s).tune = s.tune := rfl
@[simp] theorem setCell_link (c : Nat) (x : Cell) : (setCell c x s).link = s.link := rfl
@[simp] theorem setCell_ocl (c : Nat) (x : Cell) : (setCell c x s).ocl = s.ocl := rfl
@[simp] theorem setCell_pair (c : Nat) (x : Cell) : (setCell c x s).pair = s.pair := rfl
@[simp] theorem setCell_faults (c : Nat) (x : Cell) : (setCell c x s).faults = s.faults := rfl
@[simp] theorem setCell_power (c : Nat) (x : Cell) : (setCell c x s).power = s.power := rfl
@[simp] theorem setCell_boot (c : Nat) (x : Cell) : (setCell c x s).boot = s.boot := rfl
@[simp] theorem setCell_fuses (c : Nat) (x : Cell) : (setCell c x s).fuses = s.fuses := rfl
@[simp] theorem setCell_sec (c : Nat) (x : Cell) : (setCell c x s).sec = s.sec := rfl
@[simp] theorem setCell_agent (c : Nat) (x : Cell) : (setCell c x s).agent = s.agent := rfl
@[simp] theorem setCell_mgmt (c : Nat) (x : Cell) : (setCell c x s).mgmt = s.mgmt := rfl
@[simp] theorem setCell_now (c : Nat) (x : Cell) : (setCell c x s).now = s.now := rfl
@[simp] theorem setCell_free (c : Nat) (x : Cell) : (setCell c x s).free = s.free := rfl

@[simp] theorem modCell_pending (c : Nat) (f : Cell → Cell) : (modCell c f s).pending = s.pending := rfl
@[simp] theorem modCell_win (c : Nat) (f : Cell → Cell) : (modCell c f s).win = s.win := rfl
@[simp] theorem modCell_latchOcl (c : Nat) (f : Cell → Cell) : (modCell c f s).latchOcl = s.latchOcl := rfl
@[simp] theorem modCell_latchMgmt (c : Nat) (f : Cell → Cell) : (modCell c f s).latchMgmt = s.latchMgmt := rfl
@[simp] theorem modCell_counters (c : Nat) (f : Cell → Cell) : (modCell c f s).counters = s.counters := rfl
@[simp] theorem modCell_accs (c : Nat) (f : Cell → Cell) : (modCell c f s).accs = s.accs := rfl
@[simp] theorem modCell_cellMem (c : Nat) (f : Cell → Cell) : (modCell c f s).cellMem = s.cellMem := rfl
@[simp] theorem modCell_stackMem (c : Nat) (f : Cell → Cell) : (modCell c f s).stackMem = s.stackMem := rfl
@[simp] theorem modCell_mesh (c : Nat) (f : Cell → Cell) : (modCell c f s).mesh = s.mesh := rfl
@[simp] theorem modCell_prec (c : Nat) (f : Cell → Cell) : (modCell c f s).prec = s.prec := rfl
@[simp] theorem modCell_sched (c : Nat) (f : Cell → Cell) : (modCell c f s).sched = s.sched := rfl
@[simp] theorem modCell_beat (c : Nat) (f : Cell → Cell) : (modCell c f s).beat = s.beat := rfl
@[simp] theorem modCell_budget (c : Nat) (f : Cell → Cell) : (modCell c f s).budget = s.budget := rfl
@[simp] theorem modCell_kv (c : Nat) (f : Cell → Cell) : (modCell c f s).kv = s.kv := rfl
@[simp] theorem modCell_svc (c : Nat) (f : Cell → Cell) : (modCell c f s).svc = s.svc := rfl
@[simp] theorem modCell_ledger (c : Nat) (f : Cell → Cell) : (modCell c f s).ledger = s.ledger := rfl
@[simp] theorem modCell_tune (c : Nat) (f : Cell → Cell) : (modCell c f s).tune = s.tune := rfl
@[simp] theorem modCell_link (c : Nat) (f : Cell → Cell) : (modCell c f s).link = s.link := rfl
@[simp] theorem modCell_ocl (c : Nat) (f : Cell → Cell) : (modCell c f s).ocl = s.ocl := rfl
@[simp] theorem modCell_pair (c : Nat) (f : Cell → Cell) : (modCell c f s).pair = s.pair := rfl
@[simp] theorem modCell_faults (c : Nat) (f : Cell → Cell) : (modCell c f s).faults = s.faults := rfl
@[simp] theorem modCell_power (c : Nat) (f : Cell → Cell) : (modCell c f s).power = s.power := rfl
@[simp] theorem modCell_boot (c : Nat) (f : Cell → Cell) : (modCell c f s).boot = s.boot := rfl
@[simp] theorem modCell_fuses (c : Nat) (f : Cell → Cell) : (modCell c f s).fuses = s.fuses := rfl
@[simp] theorem modCell_sec (c : Nat) (f : Cell → Cell) : (modCell c f s).sec = s.sec := rfl
@[simp] theorem modCell_agent (c : Nat) (f : Cell → Cell) : (modCell c f s).agent = s.agent := rfl
@[simp] theorem modCell_mgmt (c : Nat) (f : Cell → Cell) : (modCell c f s).mgmt = s.mgmt := rfl
@[simp] theorem modCell_now (c : Nat) (f : Cell → Cell) : (modCell c f s).now = s.now := rfl
@[simp] theorem modCell_free (c : Nat) (f : Cell → Cell) : (modCell c f s).free = s.free := rfl

@[simp] theorem setSeqSlot_pending (q : Nat) (x : SeqSlot) : (setSeqSlot q x s).pending = s.pending := rfl
@[simp] theorem setSeqSlot_win (q : Nat) (x : SeqSlot) : (setSeqSlot q x s).win = s.win := rfl
@[simp] theorem setSeqSlot_latchOcl (q : Nat) (x : SeqSlot) : (setSeqSlot q x s).latchOcl = s.latchOcl := rfl
@[simp] theorem setSeqSlot_latchMgmt (q : Nat) (x : SeqSlot) : (setSeqSlot q x s).latchMgmt = s.latchMgmt := rfl
@[simp] theorem setSeqSlot_cells (q : Nat) (x : SeqSlot) : (setSeqSlot q x s).cells = s.cells := rfl
@[simp] theorem setSeqSlot_counters (q : Nat) (x : SeqSlot) : (setSeqSlot q x s).counters = s.counters := rfl
@[simp] theorem setSeqSlot_accs (q : Nat) (x : SeqSlot) : (setSeqSlot q x s).accs = s.accs := rfl
@[simp] theorem setSeqSlot_cellMem (q : Nat) (x : SeqSlot) : (setSeqSlot q x s).cellMem = s.cellMem := rfl
@[simp] theorem setSeqSlot_stackMem (q : Nat) (x : SeqSlot) : (setSeqSlot q x s).stackMem = s.stackMem := rfl
@[simp] theorem setSeqSlot_mesh (q : Nat) (x : SeqSlot) : (setSeqSlot q x s).mesh = s.mesh := rfl
@[simp] theorem setSeqSlot_prec (q : Nat) (x : SeqSlot) : (setSeqSlot q x s).prec = s.prec := rfl
@[simp] theorem setSeqSlot_sched (q : Nat) (x : SeqSlot) : (setSeqSlot q x s).sched = s.sched := rfl
@[simp] theorem setSeqSlot_beat (q : Nat) (x : SeqSlot) : (setSeqSlot q x s).beat = s.beat := rfl
@[simp] theorem setSeqSlot_budget (q : Nat) (x : SeqSlot) : (setSeqSlot q x s).budget = s.budget := rfl
@[simp] theorem setSeqSlot_svc (q : Nat) (x : SeqSlot) : (setSeqSlot q x s).svc = s.svc := rfl
@[simp] theorem setSeqSlot_ledger (q : Nat) (x : SeqSlot) : (setSeqSlot q x s).ledger = s.ledger := rfl
@[simp] theorem setSeqSlot_tune (q : Nat) (x : SeqSlot) : (setSeqSlot q x s).tune = s.tune := rfl
@[simp] theorem setSeqSlot_link (q : Nat) (x : SeqSlot) : (setSeqSlot q x s).link = s.link := rfl
@[simp] theorem setSeqSlot_ocl (q : Nat) (x : SeqSlot) : (setSeqSlot q x s).ocl = s.ocl := rfl
@[simp] theorem setSeqSlot_pair (q : Nat) (x : SeqSlot) : (setSeqSlot q x s).pair = s.pair := rfl
@[simp] theorem setSeqSlot_faults (q : Nat) (x : SeqSlot) : (setSeqSlot q x s).faults = s.faults := rfl
@[simp] theorem setSeqSlot_power (q : Nat) (x : SeqSlot) : (setSeqSlot q x s).power = s.power := rfl
@[simp] theorem setSeqSlot_boot (q : Nat) (x : SeqSlot) : (setSeqSlot q x s).boot = s.boot := rfl
@[simp] theorem setSeqSlot_fuses (q : Nat) (x : SeqSlot) : (setSeqSlot q x s).fuses = s.fuses := rfl
@[simp] theorem setSeqSlot_sec (q : Nat) (x : SeqSlot) : (setSeqSlot q x s).sec = s.sec := rfl
@[simp] theorem setSeqSlot_agent (q : Nat) (x : SeqSlot) : (setSeqSlot q x s).agent = s.agent := rfl
@[simp] theorem setSeqSlot_mgmt (q : Nat) (x : SeqSlot) : (setSeqSlot q x s).mgmt = s.mgmt := rfl
@[simp] theorem setSeqSlot_now (q : Nat) (x : SeqSlot) : (setSeqSlot q x s).now = s.now := rfl
@[simp] theorem setSeqSlot_free (q : Nat) (x : SeqSlot) : (setSeqSlot q x s).free = s.free := rfl

@[simp] theorem setModelSlot_pending (m : Nat) (x : ModelSlot) : (setModelSlot m x s).pending = s.pending := rfl
@[simp] theorem setModelSlot_win (m : Nat) (x : ModelSlot) : (setModelSlot m x s).win = s.win := rfl
@[simp] theorem setModelSlot_latchOcl (m : Nat) (x : ModelSlot) : (setModelSlot m x s).latchOcl = s.latchOcl := rfl
@[simp] theorem setModelSlot_latchMgmt (m : Nat) (x : ModelSlot) : (setModelSlot m x s).latchMgmt = s.latchMgmt := rfl
@[simp] theorem setModelSlot_cells (m : Nat) (x : ModelSlot) : (setModelSlot m x s).cells = s.cells := rfl
@[simp] theorem setModelSlot_counters (m : Nat) (x : ModelSlot) : (setModelSlot m x s).counters = s.counters := rfl
@[simp] theorem setModelSlot_accs (m : Nat) (x : ModelSlot) : (setModelSlot m x s).accs = s.accs := rfl
@[simp] theorem setModelSlot_cellMem (m : Nat) (x : ModelSlot) : (setModelSlot m x s).cellMem = s.cellMem := rfl
@[simp] theorem setModelSlot_stackMem (m : Nat) (x : ModelSlot) : (setModelSlot m x s).stackMem = s.stackMem := rfl
@[simp] theorem setModelSlot_mesh (m : Nat) (x : ModelSlot) : (setModelSlot m x s).mesh = s.mesh := rfl
@[simp] theorem setModelSlot_prec (m : Nat) (x : ModelSlot) : (setModelSlot m x s).prec = s.prec := rfl
@[simp] theorem setModelSlot_sched (m : Nat) (x : ModelSlot) : (setModelSlot m x s).sched = s.sched := rfl
@[simp] theorem setModelSlot_beat (m : Nat) (x : ModelSlot) : (setModelSlot m x s).beat = s.beat := rfl
@[simp] theorem setModelSlot_budget (m : Nat) (x : ModelSlot) : (setModelSlot m x s).budget = s.budget := rfl
@[simp] theorem setModelSlot_kv (m : Nat) (x : ModelSlot) : (setModelSlot m x s).kv = s.kv := rfl
@[simp] theorem setModelSlot_ledger (m : Nat) (x : ModelSlot) : (setModelSlot m x s).ledger = s.ledger := rfl
@[simp] theorem setModelSlot_tune (m : Nat) (x : ModelSlot) : (setModelSlot m x s).tune = s.tune := rfl
@[simp] theorem setModelSlot_link (m : Nat) (x : ModelSlot) : (setModelSlot m x s).link = s.link := rfl
@[simp] theorem setModelSlot_ocl (m : Nat) (x : ModelSlot) : (setModelSlot m x s).ocl = s.ocl := rfl
@[simp] theorem setModelSlot_pair (m : Nat) (x : ModelSlot) : (setModelSlot m x s).pair = s.pair := rfl
@[simp] theorem setModelSlot_faults (m : Nat) (x : ModelSlot) : (setModelSlot m x s).faults = s.faults := rfl
@[simp] theorem setModelSlot_power (m : Nat) (x : ModelSlot) : (setModelSlot m x s).power = s.power := rfl
@[simp] theorem setModelSlot_boot (m : Nat) (x : ModelSlot) : (setModelSlot m x s).boot = s.boot := rfl
@[simp] theorem setModelSlot_fuses (m : Nat) (x : ModelSlot) : (setModelSlot m x s).fuses = s.fuses := rfl
@[simp] theorem setModelSlot_sec (m : Nat) (x : ModelSlot) : (setModelSlot m x s).sec = s.sec := rfl
@[simp] theorem setModelSlot_agent (m : Nat) (x : ModelSlot) : (setModelSlot m x s).agent = s.agent := rfl
@[simp] theorem setModelSlot_mgmt (m : Nat) (x : ModelSlot) : (setModelSlot m x s).mgmt = s.mgmt := rfl
@[simp] theorem setModelSlot_now (m : Nat) (x : ModelSlot) : (setModelSlot m x s).now = s.now := rfl
@[simp] theorem setModelSlot_free (m : Nat) (x : ModelSlot) : (setModelSlot m x s).free = s.free := rfl

@[simp] theorem modModelSlot_pending (m : Nat) (f : ModelSlot → ModelSlot) : (modModelSlot m f s).pending = s.pending := rfl
@[simp] theorem modModelSlot_win (m : Nat) (f : ModelSlot → ModelSlot) : (modModelSlot m f s).win = s.win := rfl
@[simp] theorem modModelSlot_latchOcl (m : Nat) (f : ModelSlot → ModelSlot) : (modModelSlot m f s).latchOcl = s.latchOcl := rfl
@[simp] theorem modModelSlot_latchMgmt (m : Nat) (f : ModelSlot → ModelSlot) : (modModelSlot m f s).latchMgmt = s.latchMgmt := rfl
@[simp] theorem modModelSlot_cells (m : Nat) (f : ModelSlot → ModelSlot) : (modModelSlot m f s).cells = s.cells := rfl
@[simp] theorem modModelSlot_counters (m : Nat) (f : ModelSlot → ModelSlot) : (modModelSlot m f s).counters = s.counters := rfl
@[simp] theorem modModelSlot_accs (m : Nat) (f : ModelSlot → ModelSlot) : (modModelSlot m f s).accs = s.accs := rfl
@[simp] theorem modModelSlot_cellMem (m : Nat) (f : ModelSlot → ModelSlot) : (modModelSlot m f s).cellMem = s.cellMem := rfl
@[simp] theorem modModelSlot_stackMem (m : Nat) (f : ModelSlot → ModelSlot) : (modModelSlot m f s).stackMem = s.stackMem := rfl
@[simp] theorem modModelSlot_mesh (m : Nat) (f : ModelSlot → ModelSlot) : (modModelSlot m f s).mesh = s.mesh := rfl
@[simp] theorem modModelSlot_prec (m : Nat) (f : ModelSlot → ModelSlot) : (modModelSlot m f s).prec = s.prec := rfl
@[simp] theorem modModelSlot_sched (m : Nat) (f : ModelSlot → ModelSlot) : (modModelSlot m f s).sched = s.sched := rfl
@[simp] theorem modModelSlot_beat (m : Nat) (f : ModelSlot → ModelSlot) : (modModelSlot m f s).beat = s.beat := rfl
@[simp] theorem modModelSlot_budget (m : Nat) (f : ModelSlot → ModelSlot) : (modModelSlot m f s).budget = s.budget := rfl
@[simp] theorem modModelSlot_kv (m : Nat) (f : ModelSlot → ModelSlot) : (modModelSlot m f s).kv = s.kv := rfl
@[simp] theorem modModelSlot_ledger (m : Nat) (f : ModelSlot → ModelSlot) : (modModelSlot m f s).ledger = s.ledger := rfl
@[simp] theorem modModelSlot_tune (m : Nat) (f : ModelSlot → ModelSlot) : (modModelSlot m f s).tune = s.tune := rfl
@[simp] theorem modModelSlot_link (m : Nat) (f : ModelSlot → ModelSlot) : (modModelSlot m f s).link = s.link := rfl
@[simp] theorem modModelSlot_ocl (m : Nat) (f : ModelSlot → ModelSlot) : (modModelSlot m f s).ocl = s.ocl := rfl
@[simp] theorem modModelSlot_pair (m : Nat) (f : ModelSlot → ModelSlot) : (modModelSlot m f s).pair = s.pair := rfl
@[simp] theorem modModelSlot_faults (m : Nat) (f : ModelSlot → ModelSlot) : (modModelSlot m f s).faults = s.faults := rfl
@[simp] theorem modModelSlot_power (m : Nat) (f : ModelSlot → ModelSlot) : (modModelSlot m f s).power = s.power := rfl
@[simp] theorem modModelSlot_boot (m : Nat) (f : ModelSlot → ModelSlot) : (modModelSlot m f s).boot = s.boot := rfl
@[simp] theorem modModelSlot_fuses (m : Nat) (f : ModelSlot → ModelSlot) : (modModelSlot m f s).fuses = s.fuses := rfl
@[simp] theorem modModelSlot_sec (m : Nat) (f : ModelSlot → ModelSlot) : (modModelSlot m f s).sec = s.sec := rfl
@[simp] theorem modModelSlot_agent (m : Nat) (f : ModelSlot → ModelSlot) : (modModelSlot m f s).agent = s.agent := rfl
@[simp] theorem modModelSlot_mgmt (m : Nat) (f : ModelSlot → ModelSlot) : (modModelSlot m f s).mgmt = s.mgmt := rfl
@[simp] theorem modModelSlot_now (m : Nat) (f : ModelSlot → ModelSlot) : (modModelSlot m f s).now = s.now := rfl
@[simp] theorem modModelSlot_free (m : Nat) (f : ModelSlot → ModelSlot) : (modModelSlot m f s).free = s.free := rfl

@[simp] theorem setImage_pending (m : Nat) (x : Image) : (setImage m x s).pending = s.pending := rfl
@[simp] theorem setImage_win (m : Nat) (x : Image) : (setImage m x s).win = s.win := rfl
@[simp] theorem setImage_latchOcl (m : Nat) (x : Image) : (setImage m x s).latchOcl = s.latchOcl := rfl
@[simp] theorem setImage_latchMgmt (m : Nat) (x : Image) : (setImage m x s).latchMgmt = s.latchMgmt := rfl
@[simp] theorem setImage_cells (m : Nat) (x : Image) : (setImage m x s).cells = s.cells := rfl
@[simp] theorem setImage_counters (m : Nat) (x : Image) : (setImage m x s).counters = s.counters := rfl
@[simp] theorem setImage_accs (m : Nat) (x : Image) : (setImage m x s).accs = s.accs := rfl
@[simp] theorem setImage_cellMem (m : Nat) (x : Image) : (setImage m x s).cellMem = s.cellMem := rfl
@[simp] theorem setImage_stackMem (m : Nat) (x : Image) : (setImage m x s).stackMem = s.stackMem := rfl
@[simp] theorem setImage_mesh (m : Nat) (x : Image) : (setImage m x s).mesh = s.mesh := rfl
@[simp] theorem setImage_prec (m : Nat) (x : Image) : (setImage m x s).prec = s.prec := rfl
@[simp] theorem setImage_beat (m : Nat) (x : Image) : (setImage m x s).beat = s.beat := rfl
@[simp] theorem setImage_budget (m : Nat) (x : Image) : (setImage m x s).budget = s.budget := rfl
@[simp] theorem setImage_kv (m : Nat) (x : Image) : (setImage m x s).kv = s.kv := rfl
@[simp] theorem setImage_svc (m : Nat) (x : Image) : (setImage m x s).svc = s.svc := rfl
@[simp] theorem setImage_ledger (m : Nat) (x : Image) : (setImage m x s).ledger = s.ledger := rfl
@[simp] theorem setImage_tune (m : Nat) (x : Image) : (setImage m x s).tune = s.tune := rfl
@[simp] theorem setImage_link (m : Nat) (x : Image) : (setImage m x s).link = s.link := rfl
@[simp] theorem setImage_ocl (m : Nat) (x : Image) : (setImage m x s).ocl = s.ocl := rfl
@[simp] theorem setImage_pair (m : Nat) (x : Image) : (setImage m x s).pair = s.pair := rfl
@[simp] theorem setImage_faults (m : Nat) (x : Image) : (setImage m x s).faults = s.faults := rfl
@[simp] theorem setImage_power (m : Nat) (x : Image) : (setImage m x s).power = s.power := rfl
@[simp] theorem setImage_boot (m : Nat) (x : Image) : (setImage m x s).boot = s.boot := rfl
@[simp] theorem setImage_fuses (m : Nat) (x : Image) : (setImage m x s).fuses = s.fuses := rfl
@[simp] theorem setImage_sec (m : Nat) (x : Image) : (setImage m x s).sec = s.sec := rfl
@[simp] theorem setImage_agent (m : Nat) (x : Image) : (setImage m x s).agent = s.agent := rfl
@[simp] theorem setImage_mgmt (m : Nat) (x : Image) : (setImage m x s).mgmt = s.mgmt := rfl
@[simp] theorem setImage_now (m : Nat) (x : Image) : (setImage m x s).now = s.now := rfl
@[simp] theorem setImage_free (m : Nat) (x : Image) : (setImage m x s).free = s.free := rfl

@[simp] theorem modImage_pending (m : Nat) (f : Image → Image) : (modImage m f s).pending = s.pending := rfl
@[simp] theorem modImage_win (m : Nat) (f : Image → Image) : (modImage m f s).win = s.win := rfl
@[simp] theorem modImage_latchOcl (m : Nat) (f : Image → Image) : (modImage m f s).latchOcl = s.latchOcl := rfl
@[simp] theorem modImage_latchMgmt (m : Nat) (f : Image → Image) : (modImage m f s).latchMgmt = s.latchMgmt := rfl
@[simp] theorem modImage_cells (m : Nat) (f : Image → Image) : (modImage m f s).cells = s.cells := rfl
@[simp] theorem modImage_counters (m : Nat) (f : Image → Image) : (modImage m f s).counters = s.counters := rfl
@[simp] theorem modImage_accs (m : Nat) (f : Image → Image) : (modImage m f s).accs = s.accs := rfl
@[simp] theorem modImage_cellMem (m : Nat) (f : Image → Image) : (modImage m f s).cellMem = s.cellMem := rfl
@[simp] theorem modImage_stackMem (m : Nat) (f : Image → Image) : (modImage m f s).stackMem = s.stackMem := rfl
@[simp] theorem modImage_mesh (m : Nat) (f : Image → Image) : (modImage m f s).mesh = s.mesh := rfl
@[simp] theorem modImage_prec (m : Nat) (f : Image → Image) : (modImage m f s).prec = s.prec := rfl
@[simp] theorem modImage_beat (m : Nat) (f : Image → Image) : (modImage m f s).beat = s.beat := rfl
@[simp] theorem modImage_budget (m : Nat) (f : Image → Image) : (modImage m f s).budget = s.budget := rfl
@[simp] theorem modImage_kv (m : Nat) (f : Image → Image) : (modImage m f s).kv = s.kv := rfl
@[simp] theorem modImage_svc (m : Nat) (f : Image → Image) : (modImage m f s).svc = s.svc := rfl
@[simp] theorem modImage_ledger (m : Nat) (f : Image → Image) : (modImage m f s).ledger = s.ledger := rfl
@[simp] theorem modImage_tune (m : Nat) (f : Image → Image) : (modImage m f s).tune = s.tune := rfl
@[simp] theorem modImage_link (m : Nat) (f : Image → Image) : (modImage m f s).link = s.link := rfl
@[simp] theorem modImage_ocl (m : Nat) (f : Image → Image) : (modImage m f s).ocl = s.ocl := rfl
@[simp] theorem modImage_pair (m : Nat) (f : Image → Image) : (modImage m f s).pair = s.pair := rfl
@[simp] theorem modImage_faults (m : Nat) (f : Image → Image) : (modImage m f s).faults = s.faults := rfl
@[simp] theorem modImage_power (m : Nat) (f : Image → Image) : (modImage m f s).power = s.power := rfl
@[simp] theorem modImage_boot (m : Nat) (f : Image → Image) : (modImage m f s).boot = s.boot := rfl
@[simp] theorem modImage_fuses (m : Nat) (f : Image → Image) : (modImage m f s).fuses = s.fuses := rfl
@[simp] theorem modImage_sec (m : Nat) (f : Image → Image) : (modImage m f s).sec = s.sec := rfl
@[simp] theorem modImage_agent (m : Nat) (f : Image → Image) : (modImage m f s).agent = s.agent := rfl
@[simp] theorem modImage_mgmt (m : Nat) (f : Image → Image) : (modImage m f s).mgmt = s.mgmt := rfl
@[simp] theorem modImage_now (m : Nat) (f : Image → Image) : (modImage m f s).now = s.now := rfl
@[simp] theorem modImage_free (m : Nat) (f : Image → Image) : (modImage m f s).free = s.free := rfl

@[simp] theorem setFieldPower_pending (f : Nat) (x : FieldPower) : (setFieldPower f x s).pending = s.pending := rfl
@[simp] theorem setFieldPower_win (f : Nat) (x : FieldPower) : (setFieldPower f x s).win = s.win := rfl
@[simp] theorem setFieldPower_latchOcl (f : Nat) (x : FieldPower) : (setFieldPower f x s).latchOcl = s.latchOcl := rfl
@[simp] theorem setFieldPower_latchMgmt (f : Nat) (x : FieldPower) : (setFieldPower f x s).latchMgmt = s.latchMgmt := rfl
@[simp] theorem setFieldPower_cells (f : Nat) (x : FieldPower) : (setFieldPower f x s).cells = s.cells := rfl
@[simp] theorem setFieldPower_counters (f : Nat) (x : FieldPower) : (setFieldPower f x s).counters = s.counters := rfl
@[simp] theorem setFieldPower_accs (f : Nat) (x : FieldPower) : (setFieldPower f x s).accs = s.accs := rfl
@[simp] theorem setFieldPower_cellMem (f : Nat) (x : FieldPower) : (setFieldPower f x s).cellMem = s.cellMem := rfl
@[simp] theorem setFieldPower_stackMem (f : Nat) (x : FieldPower) : (setFieldPower f x s).stackMem = s.stackMem := rfl
@[simp] theorem setFieldPower_mesh (f : Nat) (x : FieldPower) : (setFieldPower f x s).mesh = s.mesh := rfl
@[simp] theorem setFieldPower_prec (f : Nat) (x : FieldPower) : (setFieldPower f x s).prec = s.prec := rfl
@[simp] theorem setFieldPower_sched (f : Nat) (x : FieldPower) : (setFieldPower f x s).sched = s.sched := rfl
@[simp] theorem setFieldPower_beat (f : Nat) (x : FieldPower) : (setFieldPower f x s).beat = s.beat := rfl
@[simp] theorem setFieldPower_budget (f : Nat) (x : FieldPower) : (setFieldPower f x s).budget = s.budget := rfl
@[simp] theorem setFieldPower_kv (f : Nat) (x : FieldPower) : (setFieldPower f x s).kv = s.kv := rfl
@[simp] theorem setFieldPower_svc (f : Nat) (x : FieldPower) : (setFieldPower f x s).svc = s.svc := rfl
@[simp] theorem setFieldPower_ledger (f : Nat) (x : FieldPower) : (setFieldPower f x s).ledger = s.ledger := rfl
@[simp] theorem setFieldPower_tune (f : Nat) (x : FieldPower) : (setFieldPower f x s).tune = s.tune := rfl
@[simp] theorem setFieldPower_link (f : Nat) (x : FieldPower) : (setFieldPower f x s).link = s.link := rfl
@[simp] theorem setFieldPower_ocl (f : Nat) (x : FieldPower) : (setFieldPower f x s).ocl = s.ocl := rfl
@[simp] theorem setFieldPower_pair (f : Nat) (x : FieldPower) : (setFieldPower f x s).pair = s.pair := rfl
@[simp] theorem setFieldPower_faults (f : Nat) (x : FieldPower) : (setFieldPower f x s).faults = s.faults := rfl
@[simp] theorem setFieldPower_boot (f : Nat) (x : FieldPower) : (setFieldPower f x s).boot = s.boot := rfl
@[simp] theorem setFieldPower_fuses (f : Nat) (x : FieldPower) : (setFieldPower f x s).fuses = s.fuses := rfl
@[simp] theorem setFieldPower_sec (f : Nat) (x : FieldPower) : (setFieldPower f x s).sec = s.sec := rfl
@[simp] theorem setFieldPower_agent (f : Nat) (x : FieldPower) : (setFieldPower f x s).agent = s.agent := rfl
@[simp] theorem setFieldPower_mgmt (f : Nat) (x : FieldPower) : (setFieldPower f x s).mgmt = s.mgmt := rfl
@[simp] theorem setFieldPower_now (f : Nat) (x : FieldPower) : (setFieldPower f x s).now = s.now := rfl
@[simp] theorem setFieldPower_free (f : Nat) (x : FieldPower) : (setFieldPower f x s).free = s.free := rfl

@[simp] theorem setOutRing_pending (r : Nat) (x : OutRing) : (setOutRing r x s).pending = s.pending := rfl
@[simp] theorem setOutRing_win (r : Nat) (x : OutRing) : (setOutRing r x s).win = s.win := rfl
@[simp] theorem setOutRing_latchOcl (r : Nat) (x : OutRing) : (setOutRing r x s).latchOcl = s.latchOcl := rfl
@[simp] theorem setOutRing_latchMgmt (r : Nat) (x : OutRing) : (setOutRing r x s).latchMgmt = s.latchMgmt := rfl
@[simp] theorem setOutRing_cells (r : Nat) (x : OutRing) : (setOutRing r x s).cells = s.cells := rfl
@[simp] theorem setOutRing_counters (r : Nat) (x : OutRing) : (setOutRing r x s).counters = s.counters := rfl
@[simp] theorem setOutRing_accs (r : Nat) (x : OutRing) : (setOutRing r x s).accs = s.accs := rfl
@[simp] theorem setOutRing_cellMem (r : Nat) (x : OutRing) : (setOutRing r x s).cellMem = s.cellMem := rfl
@[simp] theorem setOutRing_stackMem (r : Nat) (x : OutRing) : (setOutRing r x s).stackMem = s.stackMem := rfl
@[simp] theorem setOutRing_mesh (r : Nat) (x : OutRing) : (setOutRing r x s).mesh = s.mesh := rfl
@[simp] theorem setOutRing_prec (r : Nat) (x : OutRing) : (setOutRing r x s).prec = s.prec := rfl
@[simp] theorem setOutRing_sched (r : Nat) (x : OutRing) : (setOutRing r x s).sched = s.sched := rfl
@[simp] theorem setOutRing_beat (r : Nat) (x : OutRing) : (setOutRing r x s).beat = s.beat := rfl
@[simp] theorem setOutRing_budget (r : Nat) (x : OutRing) : (setOutRing r x s).budget = s.budget := rfl
@[simp] theorem setOutRing_kv (r : Nat) (x : OutRing) : (setOutRing r x s).kv = s.kv := rfl
@[simp] theorem setOutRing_ledger (r : Nat) (x : OutRing) : (setOutRing r x s).ledger = s.ledger := rfl
@[simp] theorem setOutRing_tune (r : Nat) (x : OutRing) : (setOutRing r x s).tune = s.tune := rfl
@[simp] theorem setOutRing_link (r : Nat) (x : OutRing) : (setOutRing r x s).link = s.link := rfl
@[simp] theorem setOutRing_ocl (r : Nat) (x : OutRing) : (setOutRing r x s).ocl = s.ocl := rfl
@[simp] theorem setOutRing_pair (r : Nat) (x : OutRing) : (setOutRing r x s).pair = s.pair := rfl
@[simp] theorem setOutRing_faults (r : Nat) (x : OutRing) : (setOutRing r x s).faults = s.faults := rfl
@[simp] theorem setOutRing_power (r : Nat) (x : OutRing) : (setOutRing r x s).power = s.power := rfl
@[simp] theorem setOutRing_boot (r : Nat) (x : OutRing) : (setOutRing r x s).boot = s.boot := rfl
@[simp] theorem setOutRing_fuses (r : Nat) (x : OutRing) : (setOutRing r x s).fuses = s.fuses := rfl
@[simp] theorem setOutRing_sec (r : Nat) (x : OutRing) : (setOutRing r x s).sec = s.sec := rfl
@[simp] theorem setOutRing_agent (r : Nat) (x : OutRing) : (setOutRing r x s).agent = s.agent := rfl
@[simp] theorem setOutRing_mgmt (r : Nat) (x : OutRing) : (setOutRing r x s).mgmt = s.mgmt := rfl
@[simp] theorem setOutRing_now (r : Nat) (x : OutRing) : (setOutRing r x s).now = s.now := rfl
@[simp] theorem setOutRing_free (r : Nat) (x : OutRing) : (setOutRing r x s).free = s.free := rfl

@[simp] theorem setCmdRing_pending (r : Nat) (x : CmdRing) : (setCmdRing r x s).pending = s.pending := rfl
@[simp] theorem setCmdRing_win (r : Nat) (x : CmdRing) : (setCmdRing r x s).win = s.win := rfl
@[simp] theorem setCmdRing_latchOcl (r : Nat) (x : CmdRing) : (setCmdRing r x s).latchOcl = s.latchOcl := rfl
@[simp] theorem setCmdRing_latchMgmt (r : Nat) (x : CmdRing) : (setCmdRing r x s).latchMgmt = s.latchMgmt := rfl
@[simp] theorem setCmdRing_cells (r : Nat) (x : CmdRing) : (setCmdRing r x s).cells = s.cells := rfl
@[simp] theorem setCmdRing_counters (r : Nat) (x : CmdRing) : (setCmdRing r x s).counters = s.counters := rfl
@[simp] theorem setCmdRing_accs (r : Nat) (x : CmdRing) : (setCmdRing r x s).accs = s.accs := rfl
@[simp] theorem setCmdRing_cellMem (r : Nat) (x : CmdRing) : (setCmdRing r x s).cellMem = s.cellMem := rfl
@[simp] theorem setCmdRing_stackMem (r : Nat) (x : CmdRing) : (setCmdRing r x s).stackMem = s.stackMem := rfl
@[simp] theorem setCmdRing_mesh (r : Nat) (x : CmdRing) : (setCmdRing r x s).mesh = s.mesh := rfl
@[simp] theorem setCmdRing_prec (r : Nat) (x : CmdRing) : (setCmdRing r x s).prec = s.prec := rfl
@[simp] theorem setCmdRing_sched (r : Nat) (x : CmdRing) : (setCmdRing r x s).sched = s.sched := rfl
@[simp] theorem setCmdRing_beat (r : Nat) (x : CmdRing) : (setCmdRing r x s).beat = s.beat := rfl
@[simp] theorem setCmdRing_budget (r : Nat) (x : CmdRing) : (setCmdRing r x s).budget = s.budget := rfl
@[simp] theorem setCmdRing_kv (r : Nat) (x : CmdRing) : (setCmdRing r x s).kv = s.kv := rfl
@[simp] theorem setCmdRing_ledger (r : Nat) (x : CmdRing) : (setCmdRing r x s).ledger = s.ledger := rfl
@[simp] theorem setCmdRing_tune (r : Nat) (x : CmdRing) : (setCmdRing r x s).tune = s.tune := rfl
@[simp] theorem setCmdRing_link (r : Nat) (x : CmdRing) : (setCmdRing r x s).link = s.link := rfl
@[simp] theorem setCmdRing_ocl (r : Nat) (x : CmdRing) : (setCmdRing r x s).ocl = s.ocl := rfl
@[simp] theorem setCmdRing_pair (r : Nat) (x : CmdRing) : (setCmdRing r x s).pair = s.pair := rfl
@[simp] theorem setCmdRing_faults (r : Nat) (x : CmdRing) : (setCmdRing r x s).faults = s.faults := rfl
@[simp] theorem setCmdRing_power (r : Nat) (x : CmdRing) : (setCmdRing r x s).power = s.power := rfl
@[simp] theorem setCmdRing_boot (r : Nat) (x : CmdRing) : (setCmdRing r x s).boot = s.boot := rfl
@[simp] theorem setCmdRing_fuses (r : Nat) (x : CmdRing) : (setCmdRing r x s).fuses = s.fuses := rfl
@[simp] theorem setCmdRing_sec (r : Nat) (x : CmdRing) : (setCmdRing r x s).sec = s.sec := rfl
@[simp] theorem setCmdRing_agent (r : Nat) (x : CmdRing) : (setCmdRing r x s).agent = s.agent := rfl
@[simp] theorem setCmdRing_mgmt (r : Nat) (x : CmdRing) : (setCmdRing r x s).mgmt = s.mgmt := rfl
@[simp] theorem setCmdRing_now (r : Nat) (x : CmdRing) : (setCmdRing r x s).now = s.now := rfl
@[simp] theorem setCmdRing_free (r : Nat) (x : CmdRing) : (setCmdRing r x s).free = s.free := rfl

end Sys2Proof.Machine
end

