-- ==== Sys2Proof/Laws/Regs.lean ====
section
/-!
SUPPORT. Reading a register, a field or a counter after a write of one.
-/
set_option Elab.async false
namespace Sys2Proof.Machine
open Sys2Proof

namespace Table
variable {α : Type} [DecidableEq α] (d : Nat → α)

/-- A store leaves every other key, whatever the table looks like. -/
theorem get_set_ne (t : Table α) {k j : Nat} (v : α) (h : j ≠ k) : get d (set d t k v) j = get d t j := by
  induction t with
  | nil =>
    simp only [set, cons]
    split
    · rfl
    · simp only [get, if_neg (Ne.symm h)]
  | cons p t ih =>
    obtain ⟨q, w⟩ := p
    simp only [set]
    split
    · simp only [cons]
      split
      · rfl
      · simp only [get, if_neg (Ne.symm h)]
    · split
      · rename_i hq
        subst hq
        simp only [cons]
        split <;> simp only [get, if_neg (Ne.symm h)]
      · simp only [get, ih]

theorem get_set_self {t : Table α} (h : wf d t = true) (k : Nat) (v : α) : get d (set d t k v) k = v := by
  rw [get_set d t k k v ((wf_iff d t).1 h).1, if_pos rfl]

/-- A value other than the one an unlisted key reads as is read back, whatever the table looks like. -/
theorem get_set_of_ne_default (t : Table α) {k : Nat} {v : α} (hv : v ≠ d k) : get d (set d t k v) k = v := by
  induction t with
  | nil => simp [set, cons, if_neg hv, get]
  | cons p t ih =>
    obtain ⟨q, w⟩ := p
    simp only [set]
    split
    · simp [cons, if_neg hv, get]
    · split
      · simp [cons, if_neg hv, get]
      · rename_i hq
        simp only [get, if_neg hq, ih]

end Table

variable {s : State}

theorem reg_setReg_ne {o off : Nat} (h : o ≠ off) (v : Word) (s : State) : reg o (setReg off v s) = reg o s :=
  Table.get_set_ne _ _ _ h

theorem reg_setReg_self (h : Table.wf resetWord s.win = true) (off : Nat) (v : Word) : reg off (setReg off v s) = v :=
  Table.get_set_self _ h _ _

theorem win_setReg (h : Table.wf resetWord s.win = true) (off : Nat) (v : Word) : Table.wf resetWord (setReg off v s).win = true :=
  Table.wf_set _ _ _ _ h

theorem win_wr (h : Table.wf resetWord s.win = true) (f : Fld) (v : Nat) : Table.wf resetWord (wr f v s).win = true := win_setReg h _ _

theorem win_wrB (h : Table.wf resetWord s.win = true) (f : Fld) (b : Bool) : Table.wf resetWord (wrB f b s).win = true := win_setReg h _ _

theorem win_setCnt (h : Table.wf resetWord s.win = true) (off n : Nat) : Table.wf resetWord (setCnt off n s).win = true :=
  win_setReg (win_setReg h _ _) _ _

theorem win_bumpBy (h : Table.wf resetWord s.win = true) (off n : Nat) : Table.wf resetWord (bumpBy off n s).win = true := win_setCnt h _ _

theorem win_bump (h : Table.wf resetWord s.win = true) (off : Nat) : Table.wf resetWord (bump off s).win = true := win_setCnt h _ _

theorem reg_wr_ne {o : Nat} {g : Fld} (h : o ≠ g.off) (v : Nat) (s : State) : reg o (wr g v s) = reg o s := reg_setReg_ne h _ _

theorem rd_wr_ne {f g : Fld} (h : f.off ≠ g.off) (v : Nat) (s : State) : rd f (wr g v s) = rd f s := by
  unfold rd
  rw [reg_wr_ne h]

theorem on_wr_ne {f g : Fld} (h : f.off ≠ g.off) (v : Nat) (s : State) : on f (wr g v s) = on f s := by
  unfold on
  rw [rd_wr_ne h]

theorem bitsOf_lt (n lo w : Nat) : bitsOf n lo w < 2 ^ w := Nat.mod_lt _ (Nat.two_pow_pos w)

/-- A number with `w` of its bits from `lo` on replaced. -/
theorem putBits_toNat {r : Word} {lo w v : Nat} (h : lo + w ≤ 32) :
    (putBits r lo w v).toNat = r.toNat % 2 ^ lo + v % 2 ^ w * 2 ^ lo + r.toNat / 2 ^ (lo + w) * 2 ^ (lo + w) := by
  have e1 : r.toNat = r.toNat % 2 ^ lo + bitsOf r.toNat lo w * 2 ^ lo + r.toNat / 2 ^ (lo + w) * 2 ^ (lo + w) := by
    have h1 := Nat.mod_add_div r.toNat (2 ^ lo)
    have h2 := Nat.mod_add_div (r.toNat / 2 ^ lo) (2 ^ w)
    have h3 : r.toNat / 2 ^ lo / 2 ^ w = r.toNat / 2 ^ (lo + w) := by rw [Nat.div_div_eq_div_mul, ← pow_add]
    rw [h3] at h2
    have h4 : bitsOf r.toNat lo w = r.toNat / 2 ^ lo % 2 ^ w := by rw [bitsOf, Nat.shiftRight_eq_div_pow]
    rw [h4, pow_add]
    rw [pow_add] at h2
    calc r.toNat = r.toNat % 2 ^ lo + 2 ^ lo * (r.toNat / 2 ^ lo) := h1.symm
      _ = r.toNat % 2 ^ lo + 2 ^ lo * (r.toNat / 2 ^ lo % 2 ^ w + 2 ^ w * (r.toNat / (2 ^ lo * 2 ^ w))) := by rw [h2]
      _ = _ := by ring
  have e2 : r.toNat - bitsOf r.toNat lo w * 2 ^ lo = r.toNat % 2 ^ lo + r.toNat / 2 ^ (lo + w) * 2 ^ (lo + w) := by omega
  have hv : v % 2 ^ w ≤ 2 ^ w - 1 := Nat.le_sub_one_of_lt (Nat.mod_lt _ (Nat.two_pow_pos w))
  have hlt : r.toNat % 2 ^ lo + v % 2 ^ w * 2 ^ lo + r.toNat / 2 ^ (lo + w) * 2 ^ (lo + w) < 2 ^ 32 := by
    have a1 : r.toNat % 2 ^ lo < 2 ^ lo := Nat.mod_lt _ (Nat.two_pow_pos lo)
    have a2 : v % 2 ^ w * 2 ^ lo ≤ (2 ^ w - 1) * 2 ^ lo := Nat.mul_le_mul_right _ hv
    have a3 : (2 ^ w - 1) * 2 ^ lo + 2 ^ lo = 2 ^ (lo + w) := by
      have : 0 < 2 ^ w := Nat.two_pow_pos w
      rw [Nat.sub_mul, one_mul, ← pow_add, Nat.add_comm w lo]
      have : 2 ^ lo ≤ 2 ^ (lo + w) := Nat.pow_le_pow_right (by norm_num) (by omega)
      omega
    have a4 : r.toNat / 2 ^ (lo + w) < 2 ^ (32 - (lo + w)) := by
      apply Nat.div_lt_of_lt_mul
      rw [← pow_add, show lo + w + (32 - (lo + w)) = 32 by omega]
      exact r.isLt
    have a5 : r.toNat / 2 ^ (lo + w) * 2 ^ (lo + w) + 2 ^ (lo + w) ≤ 2 ^ 32 := by
      have : (r.toNat / 2 ^ (lo + w) + 1) * 2 ^ (lo + w) ≤ 2 ^ (32 - (lo + w)) * 2 ^ (lo + w) := Nat.mul_le_mul_right _ a4
      rw [← pow_add, show 32 - (lo + w) + (lo + w) = 32 by omega] at this
      linarith
    omega
  unfold putBits
  rw [BitVec.toNat_ofNat, e2, Nat.mod_eq_of_lt (by omega)]
  omega

/-- A field of a word after the field itself was replaced. -/
theorem bitsOf_putBits_self {r : Word} {lo w v : Nat} (h : lo + w ≤ 32) : bitsOf (putBits r lo w v).toNat lo w = v % 2 ^ w := by
  rw [putBits_toNat h, bitsOf, Nat.shiftRight_eq_div_pow]
  have h1 : (r.toNat % 2 ^ lo + v % 2 ^ w * 2 ^ lo + r.toNat / 2 ^ (lo + w) * 2 ^ (lo + w)) / 2 ^ lo =
      v % 2 ^ w + 2 ^ w * (r.toNat / 2 ^ (lo + w)) := by
    have : r.toNat % 2 ^ lo + v % 2 ^ w * 2 ^ lo + r.toNat / 2 ^ (lo + w) * 2 ^ (lo + w) =
        r.toNat % 2 ^ lo + 2 ^ lo * (v % 2 ^ w + 2 ^ w * (r.toNat / 2 ^ (lo + w))) := by rw [pow_add]; ring
    rw [this, Nat.add_mul_div_left _ _ (Nat.two_pow_pos lo), Nat.div_eq_of_lt (Nat.mod_lt _ (Nat.two_pow_pos lo)), Nat.zero_add]
  rw [h1, Nat.add_mul_mod_self_left, Nat.mod_mod]

/-- A field of a word after another field was replaced. -/
theorem bitsOf_putBits_ne {r : Word} {lo w v a b : Nat} (h : lo + w ≤ 32) (hd : a + b ≤ lo ∨ lo + w ≤ a) :
    bitsOf (putBits r lo w v).toNat a b = bitsOf r.toNat a b := by
  apply Nat.eq_of_testBit_eq
  intro i
  have key : ∀ j, (j < lo ∨ lo + w ≤ j) → (putBits r lo w v).toNat.testBit j = r.toNat.testBit j := by
    intro j hj
    rw [putBits_toNat h]
    rcases hj with hj | hj
    · have e : r.toNat % 2 ^ lo + v % 2 ^ w * 2 ^ lo + r.toNat / 2 ^ (lo + w) * 2 ^ (lo + w) =
          2 ^ lo * (v % 2 ^ w + 2 ^ w * (r.toNat / 2 ^ (lo + w))) + r.toNat % 2 ^ lo := by rw [pow_add]; ring
      rw [e, Nat.testBit_two_pow_mul_add _ (Nat.mod_lt _ (Nat.two_pow_pos lo)), if_pos hj, Nat.testBit_mod_two_pow]
      simp [hj]
    · have hlt : r.toNat % 2 ^ lo + v % 2 ^ w * 2 ^ lo < 2 ^ (lo + w) := by
        have a1 : r.toNat % 2 ^ lo < 2 ^ lo := Nat.mod_lt _ (Nat.two_pow_pos lo)
        have a2 : v % 2 ^ w + 1 ≤ 2 ^ w := Nat.mod_lt _ (Nat.two_pow_pos w)
        have a3 := Nat.mul_le_mul_right (2 ^ lo) a2
        rw [← pow_add, Nat.add_comm w lo] at a3
        linarith
      have e : r.toNat % 2 ^ lo + v % 2 ^ w * 2 ^ lo + r.toNat / 2 ^ (lo + w) * 2 ^ (lo + w) =
          2 ^ (lo + w) * (r.toNat / 2 ^ (lo + w)) + (r.toNat % 2 ^ lo + v % 2 ^ w * 2 ^ lo) := by ring
      rw [e, Nat.testBit_two_pow_mul_add _ hlt, if_neg (by omega), Nat.testBit_div_two_pow]
      congr 1
      omega
  unfold bitsOf
  rw [Nat.testBit_mod_two_pow, Nat.testBit_mod_two_pow, Nat.testBit_shiftRight, Nat.testBit_shiftRight]
  by_cases hi : i < b
  · rw [key (a + i) (by omega)]
  · simp [hi]

/-- A field reads back what was written to it. -/
theorem rd_wr_self (h : Table.wf resetWord s.win = true) {f : Fld} (hf : f.lo + f.w ≤ 32) (v : Nat) : rd f (wr f v s) = v % 2 ^ f.w := by
  unfold rd wr
  rw [reg_setReg_self h, bitsOf_putBits_self hf]

/-- Another field of the same register is left alone. -/
theorem rd_wr_field (h : Table.wf resetWord s.win = true) {f g : Fld} (ho : f.off = g.off) (hg : g.lo + g.w ≤ 32)
    (hd : f.lo + f.w ≤ g.lo ∨ g.lo + g.w ≤ f.lo) (v : Nat) : rd f (wr g v s) = rd f s := by
  unfold rd wr
  rw [ho, reg_setReg_self h, bitsOf_putBits_ne hg hd]

theorem rd_wrB_self (h : Table.wf resetWord s.win = true) {f : Fld} (hf : f.lo + f.w ≤ 32) (hw : f.w = 1) (b : Bool) :
    rd f (wrB f b s) = bitN b := by
  unfold wrB
  rw [rd_wr_self h hf, hw]
  cases b <;> rfl

theorem rd_lt (f : Fld) (s : State) : rd f s < 2 ^ f.w := bitsOf_lt _ _ _

/-- A counter reads back what was stored, modulo 2⁶⁴. -/
theorem cnt_setCnt (h : Table.wf resetWord s.win = true) (off n : Nat) : cnt off (setCnt off n s) = n % 2 ^ 64 := by
  unfold cnt setCnt
  rw [reg_setReg_ne (by omega : off ≠ off + 4), reg_setReg_self h, reg_setReg_self (win_setReg h _ _), BitVec.toNat_ofNat,
    BitVec.toNat_ofNat]
  omega

theorem cnt_bump (h : Table.wf resetWord s.win = true) (off : Nat) : cnt off (bump off s) = (cnt off s + 1) % 2 ^ 64 := cnt_setCnt h _ _

theorem reg_setCnt_ne {o off : Nat} (h1 : o ≠ off) (h2 : o ≠ off + 4) (n : Nat) (s : State) : reg o (setCnt off n s) = reg o s := by
  unfold setCnt
  rw [reg_setReg_ne h2, reg_setReg_ne h1]

theorem reg_bump_ne {o off : Nat} (h1 : o ≠ off) (h2 : o ≠ off + 4) (s : State) : reg o (bump off s) = reg o s := reg_setCnt_ne h1 h2 _ _

theorem cnt_wr_ne {off : Nat} {f : Fld} (h1 : off ≠ f.off) (h2 : off + 4 ≠ f.off) (v : Nat) (s : State) : cnt off (wr f v s) = cnt off s := by
  unfold cnt
  rw [reg_wr_ne h1, reg_wr_ne h2]

theorem rd_bump_ne {f : Fld} {off : Nat} (h1 : f.off ≠ off) (h2 : f.off ≠ off + 4) (s : State) : rd f (bump off s) = rd f s := by
  unfold rd
  rw [reg_bump_ne h1 h2]

/-- Registers are read in the window alone. -/
theorem reg_congr {s t : State} (h : t.win = s.win) (o : Nat) : reg o t = reg o s := by
  unfold reg
  rw [h]

theorem rd_congr {s t : State} (h : t.win = s.win) (f : Fld) : rd f t = rd f s := by
  unfold rd
  rw [reg_congr h]

theorem cnt_congr {s t : State} (h : t.win = s.win) (o : Nat) : cnt o t = cnt o s := by
  unfold cnt
  rw [reg_congr h, reg_congr h]

end Sys2Proof.Machine
end

