-- ==== Sys2Proof/Laws/Memory.lean ====
section
/-!
SUPPORT. Laws of the byte memories: bytes and numbers, what a store of bytes or of a granule leaves, read after write.
-/
set_option Elab.async false
namespace Sys2Proof.Machine
open Sys2Proof

@[simp] theorem natToBytes_length (n v : Nat) : (natToBytes n v).length = n := by
  induction n generalizing v with
  | zero => rfl
  | succ n ih => simp [natToBytes, ih]

/-- The `n` low bytes of a number are its value modulo 256ⁿ. -/
theorem bytesToNat_natToBytes (n v : Nat) : bytesToNat (natToBytes n v) = v % 256 ^ n := by
  induction n generalizing v with
  | zero => simp [natToBytes, bytesToNat, Nat.mod_one]
  | succ n ih =>
    simp only [natToBytes, bytesToNat, ih, BitVec.toNat_ofNat]
    rw [show 256 ^ (n + 1) = 256 * 256 ^ n from Nat.pow_succ', Nat.mod_mul]

theorem bytesToNat_lt (l : List Byte) : bytesToNat l < 256 ^ l.length := by
  induction l with
  | nil => simp [bytesToNat]
  | cons b l ih =>
    simp only [bytesToNat, List.length_cons, pow_succ]
    have := b.isLt
    omega

namespace Table
variable {α : Type} [DecidableEq α] (d : Nat → α)

omit [DecidableEq α] in
theorem getMany_length (t : Table α) (k n : Nat) : (getMany d t k n).length = n := by
  induction n generalizing k with
  | zero => rfl
  | succ n ih => simp [getMany, ih]

omit [DecidableEq α] in
/-- Keys read alike give lists read alike. -/
theorem getMany_congr {t u : Table α} {k n : Nat} (h : ∀ j, k ≤ j → j < k + n → get d t j = get d u j) : getMany d t k n = getMany d u k n := by
  induction n generalizing k with
  | zero => rfl
  | succ n ih =>
    simp only [getMany]
    rw [h k (Nat.le_refl _) (by omega), ih fun j hj hk => h j (by omega) (by omega)]

theorem sorted_setMany (t : Table α) (k : Nat) (vs : List α) (h : Sorted t) : Sorted (setMany d t k vs) := by
  induction vs generalizing t k with
  | nil => exact h
  | cons v vs ih => exact ih _ _ (sorted_set d t k v h)

/-- Consecutive keys read back what was stored to them. -/
theorem getMany_setMany (t : Table α) (k : Nat) (vs : List α) (h : Sorted t) : getMany d (setMany d t k vs) k vs.length = vs := by
  induction vs generalizing t k with
  | nil => rfl
  | cons v vs ih =>
    simp only [setMany, List.length_cons, getMany]
    rw [get_setMany_out d _ _ _ vs (sorted_set d t k v h) (by omega), get_set d t k k v h, if_pos rfl, ih _ _ (sorted_set d t k v h)]

end Table

variable {m : Table Byte}

theorem Memory.sorted (h : Memory.wf m = true) : Table.Sorted m := ((Table.wf_iff byte0 m).1 h).1

theorem memPut_keeps_form (h : Memory.wf m = true) (a n v : Nat) : Memory.wf (memPut m a n v) = true := Table.wf_setMany _ _ _ _ h

/-- Read after write. -/
theorem memNat_memPut (h : Memory.wf m = true) (a n v : Nat) : memNat (memPut m a n v) a n = v % 256 ^ n := by
  unfold memNat memPut
  have := Table.getMany_setMany byte0 m a (natToBytes n v) (Memory.sorted h)
  rw [natToBytes_length] at this
  rw [this, bytesToNat_natToBytes]

/-- A store leaves every byte outside it. -/
theorem byteAt_memPut (h : Memory.wf m = true) {a n v b : Nat} (hb : b < a ∨ a + n ≤ b) : byteAt (memPut m a n v) b = byteAt m b :=
  Table.get_setMany_out byte0 m a b _ (Memory.sorted h) (by rw [natToBytes_length]; exact hb)

theorem memNat_memPut_out (h : Memory.wf m = true) {a n v b k : Nat} (hb : b + k ≤ a ∨ a + n ≤ b) :
    memNat (memPut m a n v) b k = memNat m b k := by
  unfold memNat
  rw [Table.getMany_congr byte0 fun j h1 h2 => byteAt_memPut h (by omega)]

theorem pow256 (n : Nat) : 256 ^ n = 2 ^ (8 * n) := by
  rw [pow_mul]
  norm_num

variable {s : State}

/-- A granule of cell memory reads back what was written. -/
theorem granule_setGranule (h : Memory.wf s.cellMem = true) {c g : Nat} (hg : g < cellGranules) (v : Granule) :
    granule c g (setGranule c g v s) = v := by
  unfold granule setGranule
  simp only [if_pos hg]
  rw [memNat_memPut h, pow256]
  apply BitVec.eq_of_toNat_eq
  rw [BitVec.toNat_ofNat]
  have := v.isLt
  omega

/-- It leaves every other granule of every cell. -/
theorem granule_setGranule_ne (h : Memory.wf s.cellMem = true) {c g d k : Nat} (hne : d ≠ c ∨ k ≠ g) (v : Granule) :
    granule d k (setGranule c g v s) = granule d k s := by
  unfold granule setGranule
  by_cases hg : g < cellGranules
  · by_cases hk : k < cellGranules
    · simp only [if_pos hg, if_pos hk]
      rw [memNat_memPut_out h]
      unfold cellGranules at hg hk
      unfold cellBytes
      omega
    · simp only [if_neg hk]
  · simp only [if_neg hg]

theorem stackMem_set (a : Nat) (v : Granule) (s : State) :
    (setStackGranule a v s).stackMem = memPut s.stackMem a 64 v.toNat := by
  simp only [setStackGranule]

theorem cellMem_set {c g : Nat} (hg : g < cellGranules) (v : Granule) (s : State) :
    (setGranule c g v s).cellMem = memPut s.cellMem (c * cellBytes + g * 64) 64 v.toNat := by
  simp only [setGranule, if_pos hg]

theorem cellMem_set_out {c g : Nat} (hg : ¬ g < cellGranules) (v : Granule) (s : State) : (setGranule c g v s).cellMem = s.cellMem := by
  simp only [setGranule, if_neg hg]

/-- A granule of a stack reads back what was written. -/
theorem stackGranule_set (h : Memory.wf s.stackMem = true) (a : Nat) (v : Granule) : stackGranule a (setStackGranule a v s) = v := by
  unfold stackGranule
  rw [stackMem_set, memNat_memPut h, pow256]
  apply BitVec.eq_of_toNat_eq
  rw [BitVec.toNat_ofNat]
  have := v.isLt
  omega

/-- A stack's other bytes are left alone. -/
theorem stackByte_set (h : Memory.wf s.stackMem = true) {a b : Nat} (hb : b < a ∨ a + 64 ≤ b) (v : Granule) :
    byteAt (setStackGranule a v s).stackMem b = byteAt s.stackMem b := by
  rw [stackMem_set]
  exact byteAt_memPut h hb

/-- Cell memory's other bytes are left alone. -/
theorem cellByte_set (h : Memory.wf s.cellMem = true) {c g b : Nat} (hb : b < c * cellBytes + g * 64 ∨ c * cellBytes + g * 64 + 64 ≤ b)
    (v : Granule) : byteAt (setGranule c g v s).cellMem b = byteAt s.cellMem b := by
  by_cases hg : g < cellGranules
  · rw [cellMem_set hg]
    exact byteAt_memPut h hb
  · rw [cellMem_set_out hg]

theorem cellMem_set_wf (h : Memory.wf s.cellMem = true) (c g : Nat) (v : Granule) : Memory.wf (setGranule c g v s).cellMem = true := by
  by_cases hg : g < cellGranules
  · rw [cellMem_set hg]
    exact memPut_keeps_form h _ _ _
  · rw [cellMem_set_out hg]
    exact h

end Sys2Proof.Machine
end

