-- ==== Sys2Proof/Laws/Quiet.lean ====
section
/-!
SUPPORT. Frames by registers: `Regs l a s` says that every register not listed in `l` reads in `s` as in `a`. The Quiet files give it
for sending on a link, for status bits, warnings, management events, journal requests, charges and holds.
-/
set_option Elab.async false
namespace Sys2Proof.Machine
open Sys2Proof

/-- Every register outside the list reads the same. -/
structure Regs (l : List Nat) (a s : State) : Prop where
  reg : ∀ o, o ∉ l → reg o s = reg o a

/-- Every number of one list stands in the other. -/
abbrev SubN (a b : List Nat) : Prop := (a.all fun p => b.contains p) = true

theorem SubN.mem {a b : List Nat} (h : SubN a b) {p : Nat} (hp : p ∈ a) : p ∈ b := by
  have := List.all_eq_true.1 h p hp
  simpa using this

theorem SubN.trans {a b c : List Nat} (h : SubN a b) (k : SubN b c) : SubN a c := by
  refine List.all_eq_true.2 fun p hp => ?_
  simpa using k.mem (h.mem hp)

variable {σ e s : State} {ρ : List Nat}

theorem Regs.refl (l : List Nat) (a : State) : Regs l a a := ⟨fun _ _ => rfl⟩

theorem Regs.rd (h : Regs ρ σ s) {f : Fld} (hf : f.off ∉ ρ) : rd f s = rd f σ := by
  unfold Machine.rd
  rw [h.reg _ hf]

theorem Regs.cnt (h : Regs ρ σ s) {o : Nat} (h1 : o ∉ ρ) (h2 : o + 4 ∉ ρ) : cnt o s = cnt o σ := by
  unfold Machine.cnt
  rw [h.reg _ h1, h.reg _ h2]

theorem Regs.of_win (h : Regs ρ σ e) (hw : s.win = e.win) : Regs ρ σ s := ⟨fun o ho => (reg_congr hw o).trans (h.reg o ho)⟩

/-- Registers are in the window alone. -/
theorem regs_upd {latchOcl latchMgmt cells counters accs cellMem stackMem} {mesh : Mesh} {prec : Prec} {sched : Sched} {beat : Beat}
    {budget : Budget} {kv : Kv} {svc : Svc} {ledger : Ledger} {tune : Tune} {link : LinkState} {ocl : Ocl} {pair : Pair}
    {faults : Faults} {power : Power} {boot : Boot} {fuses : Fuses} {sec : Sec} {agent : Agent} {mgmt : Mgmt} {now free : Nat}
    (h : Regs ρ σ e) :
    Regs ρ σ {
      pending := e.pending, win := e.win, latchOcl := latchOcl, latchMgmt := latchMgmt, cells := cells, counters := counters,
      accs := accs, cellMem := cellMem, stackMem := stackMem, mesh := mesh, prec := prec, sched := sched, beat := beat,
      budget := budget, kv := kv, svc := svc, ledger := ledger, tune := tune, link := link, ocl := ocl, pair := pair,
      faults := faults, power := power, boot := boot, fuses := fuses, sec := sec, agent := agent, mgmt := mgmt, now := now,
      free := free } := h.of_win rfl

theorem regs_ite {c : Prop} [Decidable c] {x y : State} (hx : Regs ρ σ x) (hy : Regs ρ σ y) : Regs ρ σ (if c then x else y) := by
  split <;> assumption

theorem regs_snd_ite {α : Type} {c : Prop} [Decidable c] {x y : α × State} (hx : Regs ρ σ x.2) (hy : Regs ρ σ y.2) :
    Regs ρ σ (if c then x else y).2 := by
  split <;> assumption

theorem when_regs {b : Bool} {f : State → State} (hf : ∀ t, Regs ρ σ t → Regs ρ σ (f t)) (h : Regs ρ σ s) : Regs ρ σ (when b f s) := by
  unfold when
  exact regs_ite (hf _ h) h

theorem foldl_regs {α : Type} {xs : List α} {f : State → α → State} (hf : ∀ x t, Regs ρ σ t → Regs ρ σ (f t x)) (h : Regs ρ σ s) :
    Regs ρ σ (xs.foldl f s) := by
  induction xs generalizing s with
  | nil => exact h
  | cons x xs ih => exact ih (hf x s h)

theorem forEach_regs {α : Type} {xs : List α} {f : α → State → State} (hf : ∀ x t, Regs ρ σ t → Regs ρ σ (f x t)) (h : Regs ρ σ s) :
    Regs ρ σ (forEach xs f s) := by
  unfold forEach
  exact foldl_regs hf h

theorem setReg_regs {off : Nat} {v : Word} (m : off ∈ ρ) (h : Regs ρ σ s) : Regs ρ σ (setReg off v s) :=
  ⟨fun o ho => (reg_setReg_ne (fun he => ho (by rw [he]; exact m)) v s).trans (h.reg o ho)⟩

theorem wr_regs {f : Fld} {v : Nat} (m : f.off ∈ ρ) (h : Regs ρ σ s) : Regs ρ σ (wr f v s) := setReg_regs m h

theorem wrB_regs {f : Fld} {b : Bool} (m : f.off ∈ ρ) (h : Regs ρ σ s) : Regs ρ σ (wrB f b s) := setReg_regs m h

theorem setCnt_regs {off n : Nat} (m : off ∈ ρ) (m4 : off + 4 ∈ ρ) (h : Regs ρ σ s) : Regs ρ σ (setCnt off n s) :=
  setReg_regs m4 (setReg_regs m h)

theorem bumpBy_regs {off n : Nat} (m : off ∈ ρ) (m4 : off + 4 ∈ ρ) (h : Regs ρ σ s) : Regs ρ σ (bumpBy off n s) := setCnt_regs m m4 h

theorem bump_regs {off : Nat} (m : off ∈ ρ) (m4 : off + 4 ∈ ρ) (h : Regs ρ σ s) : Regs ρ σ (bump off s) := setCnt_regs m m4 h

theorem setLink_regs {i : Nat} {x : LinkState} (h : Regs ρ σ s) : Regs ρ σ (setLink i x s) :=
  h.of_win (by unfold setLink; split <;> rfl)

theorem modLink_regs {i : Nat} {f : LinkState → LinkState} (h : Regs ρ σ s) : Regs ρ σ (modLink i f s) := setLink_regs h

theorem atTime_regs {t : Nat} (h : Regs ρ σ s) : Regs ρ σ (atTime t s) := h.of_win rfl

theorem takeFree_regs (h : Regs ρ σ s) : Regs ρ σ (takeFree s) := h.of_win rfl

theorem setCell_regs {c : Nat} {x : Cell} (h : Regs ρ σ s) : Regs ρ σ (setCell c x s) := h.of_win rfl

theorem modCell_regs {c : Nat} {f : Cell → Cell} (h : Regs ρ σ s) : Regs ρ σ (modCell c f s) := h.of_win rfl

end Sys2Proof.Machine
end

