-- ==== Sys2Proof/Laws/QuietLanes.lean ====
section
/-!
SUPPORT. The registers that may change, for every function of Machine/Lanes.lean that changes the state.
-/
set_option Elab.async false
namespace Sys2Proof.Machine
open Sys2Proof

theorem emit_regs {σ : State} {ρ : List Nat} {i : Nat} {raw : BitVec 2048} {s : State} (hl : SubN [] ρ) (h_s : Regs ρ σ s) :
    Regs ρ σ (emit i raw s) := by
  unfold emit
  repeat' first
    | with_reducible assumption
    | exact hl.mem (by decide)
    | intro _
    | extract_lets
    | with_reducible refine modLink_regs ?_
    | fail_if_no_progress with_reducible refine regs_upd ?_

theorem takeOff_regs {σ : State} {ρ : List Nat} {i : Nat} {raw : BitVec 2048} {s : State} (hl : SubN [] ρ) (h_s : Regs ρ σ s) :
    Regs ρ σ (takeOff i raw s).2 := by
  unfold takeOff
  repeat' first
    | with_reducible assumption
    | exact hl.mem (by decide)
    | intro _
    | extract_lets
    | with_reducible refine modLink_regs ?_
    | fail_if_no_progress with_reducible refine regs_upd ?_
    | with_reducible refine regs_snd_ite ?_ ?_

theorem sendCtl_regs {σ : State} {ρ : List Nat} {i : Nat} {type : Nat} {s : State} (hl : SubN [] ρ) (h_s : Regs ρ σ s) :
    Regs ρ σ (sendCtl i type s) := by
  unfold sendCtl
  repeat' first
    | with_reducible assumption
    | exact hl.mem (by decide)
    | intro _
    | extract_lets
    | with_reducible refine emit_regs (SubN.trans (by decide) hl) ?_
    | with_reducible refine modLink_regs ?_
    | fail_if_no_progress with_reducible refine regs_upd ?_

end Sys2Proof.Machine
end

