-- ==== Sys2Proof/Laws/QuietLink.lean ====
section
/-!
SUPPORT. The registers that may change, for every function of Machine/Link.lean that changes the state.
-/
set_option Elab.async false
namespace Sys2Proof.Machine
open Sys2Proof

theorem setTxKey_regs {σ : State} {ρ : List Nat} {k : KeySlot} {s : State} (hl : SubN [] ρ) (h_s : Regs ρ σ s) :
    Regs ρ σ (setTxKey k s) := by
  unfold setTxKey
  repeat' first
    | with_reducible assumption
    | exact hl.mem (by decide)
    | intro _
    | with_reducible refine regs_ite ?_ ?_
    | fail_if_no_progress with_reducible refine regs_upd ?_
    | split

theorem dropEvent_regs {σ : State} {ρ : List Nat} {s : State} (hl : SubN [0xa000, 0xa070, 0xa074] ρ) (h_s : Regs ρ σ s) :
    Regs ρ σ (dropEvent s) := by
  unfold dropEvent
  repeat' first
    | with_reducible assumption
    | exact hl.mem (by decide)
    | intro _
    | with_reducible refine wr_regs ?_ ?_
    | with_reducible refine bumpBy_regs ?_ ?_ ?_

theorem queueEvent_regs {σ : State} {ρ : List Nat} {off : Nat} {bits : Nat} {s : State} (hl : SubN [0xa000, 0xa070, 0xa074] ρ) (h_s : Regs ρ σ s) :
    Regs ρ σ (queueEvent off bits s) := by
  unfold queueEvent
  repeat' first
    | with_reducible assumption
    | exact hl.mem (by decide)
    | intro _
    | extract_lets
    | with_reducible refine regs_ite ?_ ?_
    | with_reducible refine dropEvent_regs (SubN.trans (by decide) hl) ?_
    | fail_if_no_progress with_reducible refine regs_upd ?_
    | split
    | dsimp +zetaDelta only

theorem raiseQuiet_regs {σ : State} {ρ : List Nat} {f : Fld} {s : State} (hl : SubN [0xa000, 0xa070, 0xa074] ρ) (m_f : f.off ∈ ρ) (h_s : Regs ρ σ s) :
    Regs ρ σ (raiseQuiet f s) := by
  unfold raiseQuiet
  repeat' first
    | with_reducible assumption
    | exact hl.mem (by decide)
    | intro _
    | extract_lets
    | with_reducible refine regs_ite ?_ ?_
    | with_reducible refine wr_regs ?_ ?_
    | with_reducible refine queueEvent_regs (SubN.trans (by decide) hl) ?_
    | split

theorem sealMsg_regs {σ : State} {ρ : List Nat} {m : OutMsg} {s : State} (hl : SubN [0xa000, 0xa070, 0xa074] ρ) (h_s : Regs ρ σ s) :
    Regs ρ σ (sealMsg m s).2 := by
  unfold sealMsg
  repeat' first
    | with_reducible assumption
    | exact hl.mem (by decide)
    | intro _
    | extract_lets
    | with_reducible refine regs_ite ?_ ?_
    | with_reducible refine setTxKey_regs (SubN.trans (by decide) hl) ?_
    | with_reducible refine raiseQuiet_regs (SubN.trans (by decide) hl) ?_ ?_
    | fail_if_no_progress with_reducible refine regs_upd ?_
    | with_reducible refine regs_snd_ite ?_ ?_
    | split

theorem pushFlits_regs {σ : State} {ρ : List Nat} {x0 : Nat} {x1 : Nat} {x2 : List TxSlot} {x3 : State} (hl : SubN [] ρ) (h_x3 : Regs ρ σ x3) :
    Regs ρ σ (pushFlits x0 x1 x2 x3) := by
  induction x0 generalizing x1 x2 x3 with
  | zero => (unfold pushFlits; repeat' first
      | with_reducible assumption
      | exact hl.mem (by decide)
      | intro _
      | extract_lets
      | with_reducible refine regs_ite ?_ ?_
      | with_reducible refine setLink_regs ?_
      | with_reducible refine emit_regs (SubN.trans (by decide) hl) ?_
      | fail_if_no_progress with_reducible refine regs_upd ?_
      | split)
  | succ _ ih => (unfold pushFlits; repeat' first
      | with_reducible assumption
      | with_reducible apply ih
      | (injections; subst_vars; with_reducible apply ih)
      | exact hl.mem (by decide)
      | intro _
      | extract_lets
      | with_reducible refine regs_ite ?_ ?_
      | with_reducible refine setLink_regs ?_
      | with_reducible refine emit_regs (SubN.trans (by decide) hl) ?_
      | fail_if_no_progress with_reducible refine regs_upd ?_
      | split)

theorem takeCredits_regs {σ : State} {ρ : List Nat} {i : Nat} {m : OutMsg} {s : State} (hl : SubN [] ρ) (h_s : Regs ρ σ s) :
    Regs ρ σ (takeCredits i m s) := by
  unfold takeCredits
  repeat' first
    | with_reducible assumption
    | exact hl.mem (by decide)
    | intro _
    | with_reducible refine modLink_regs ?_
    | fail_if_no_progress with_reducible refine regs_upd ?_
    | split

theorem setModeration_regs {σ : State} {ρ : List Nat} {m : Moderation} {s : State} (hl : SubN [] ρ) (h_s : Regs ρ σ s) :
    Regs ρ σ (setModeration m s) := by
  unfold setModeration
  repeat' first
    | with_reducible assumption
    | exact hl.mem (by decide)
    | intro _
    | fail_if_no_progress with_reducible refine regs_upd ?_

theorem stampIntr_regs {σ : State} {ρ : List Nat} {i : Nat} {m : OutMsg} {s : State} (hl : SubN [] ρ) (h_s : Regs ρ σ s) :
    Regs ρ σ (stampIntr i m s) := by
  unfold stampIntr
  repeat' first
    | with_reducible assumption
    | exact hl.mem (by decide)
    | intro _
    | with_reducible refine regs_ite ?_ ?_
    | with_reducible refine setModeration_regs (SubN.trans (by decide) hl) ?_
    | fail_if_no_progress with_reducible refine regs_upd ?_
    | split

theorem transmit_regs {σ : State} {ρ : List Nat} {i : Nat} {m : OutMsg} {s : State} (hl : SubN [0xa000, 0xa070, 0xa074] ρ) (h_s : Regs ρ σ s) :
    Regs ρ σ (transmit i m s).2 := by
  unfold transmit
  repeat' first
    | with_reducible assumption
    | exact hl.mem (by decide)
    | intro _
    | extract_lets
    | with_reducible refine sealMsg_regs (SubN.trans (by decide) hl) ?_
    | with_reducible refine stampIntr_regs (SubN.trans (by decide) hl) ?_
    | with_reducible refine takeCredits_regs (SubN.trans (by decide) hl) ?_
    | with_reducible refine regs_snd_ite ?_ ?_

theorem pumpList_regs {σ : State} {ρ : List Nat} {i : Nat} {x0 : List OutMsg} {x1 : List OutMsg} {x2 : List TxSlot} {x3 : State} (hl : SubN [0xa000, 0xa070, 0xa074] ρ) (h_x3 : Regs ρ σ x3) :
    Regs ρ σ (pumpList i x0 x1 x2 x3).2 := by
  induction x0 generalizing i x1 x2 x3 with
  | nil => (unfold pumpList; repeat' first
      | with_reducible assumption
      | exact hl.mem (by decide)
      | intro _
      | extract_lets
      | with_reducible refine regs_ite ?_ ?_
      | with_reducible refine transmit_regs (SubN.trans (by decide) hl) ?_
      | with_reducible refine regs_snd_ite ?_ ?_
      | split)
  | cons _ _ ih => (unfold pumpList; repeat' first
      | with_reducible assumption
      | with_reducible apply ih
      | (injections; subst_vars; with_reducible apply ih)
      | exact hl.mem (by decide)
      | intro _
      | extract_lets
      | with_reducible refine regs_ite ?_ ?_
      | with_reducible refine transmit_regs (SubN.trans (by decide) hl) ?_
      | with_reducible refine regs_snd_ite ?_ ?_
      | split)

theorem pump_regs {σ : State} {ρ : List Nat} {i : Nat} {s : State} (hl : SubN [0xa000, 0xa070, 0xa074] ρ) (h_s : Regs ρ σ s) :
    Regs ρ σ (pump i s) := by
  unfold pump
  repeat' first
    | with_reducible assumption
    | exact hl.mem (by decide)
    | intro _
    | extract_lets
    | with_reducible refine pumpList_regs (SubN.trans (by decide) hl) ?_
    | with_reducible refine pushFlits_regs (SubN.trans (by decide) hl) ?_
    | with_reducible refine modLink_regs ?_
    | fail_if_no_progress with_reducible refine regs_upd ?_

theorem sendOut_regs {σ : State} {ρ : List Nat} {i : Nat} {m : OutMsg} {s : State} (hl : SubN [0xa000, 0xa070, 0xa074] ρ) (h_s : Regs ρ σ s) :
    Regs ρ σ (sendOut i m s) := by
  unfold sendOut
  repeat' first
    | with_reducible assumption
    | exact hl.mem (by decide)
    | intro _
    | with_reducible refine pump_regs (SubN.trans (by decide) hl) ?_
    | with_reducible refine modLink_regs ?_
    | fail_if_no_progress with_reducible refine regs_upd ?_

theorem sendWr_regs {σ : State} {ρ : List Nat} {addr : Nat} {lines : Nat} {data : List Byte} {marks : List AckMark} {s : State} (hl : SubN [0xa000, 0xa070, 0xa074] ρ) (h_s : Regs ρ σ s) :
    Regs ρ σ (sendWr addr lines data marks s) := by
  unfold sendWr
  repeat' first
    | with_reducible assumption
    | exact hl.mem (by decide)
    | intro _
    | with_reducible refine sendOut_regs (SubN.trans (by decide) hl) ?_

theorem sendWrPart_regs {σ : State} {ρ : List Nat} {addr : Nat} {data : List Byte} {marks : List AckMark} {s : State} (hl : SubN [0xa000, 0xa070, 0xa074] ρ) (h_s : Regs ρ σ s) :
    Regs ρ σ (sendWrPart addr data marks s) := by
  unfold sendWrPart
  repeat' first
    | with_reducible assumption
    | exact hl.mem (by decide)
    | intro _
    | with_reducible refine sendOut_regs (SubN.trans (by decide) hl) ?_

theorem sendIntr_regs {σ : State} {ρ : List Nat} {vector : Nat} {s : State} (hl : SubN [0xa000, 0xa070, 0xa074] ρ) (h_s : Regs ρ σ s) :
    Regs ρ σ (sendIntr vector s) := by
  unfold sendIntr
  repeat' first
    | with_reducible assumption
    | exact hl.mem (by decide)
    | intro _
    | with_reducible refine sendOut_regs (SubN.trans (by decide) hl) ?_

theorem sendUnwatch_regs {σ : State} {ρ : List Nat} {addr : Nat} {s : State} (hl : SubN [0xa000, 0xa070, 0xa074] ρ) (h_s : Regs ρ σ s) :
    Regs ρ σ (sendUnwatch addr s) := by
  unfold sendUnwatch
  repeat' first
    | with_reducible assumption
    | exact hl.mem (by decide)
    | intro _
    | with_reducible refine sendOut_regs (SubN.trans (by decide) hl) ?_

theorem sendCpl_regs {σ : State} {ρ : List Nat} {tag : Nat} {status : Nat} {data : Nat} {mailbox : Bool} {s : State} (hl : SubN [0xa000, 0xa070, 0xa074] ρ) (h_s : Regs ρ σ s) :
    Regs ρ σ (sendCpl tag status data mailbox s) := by
  unfold sendCpl
  repeat' first
    | with_reducible assumption
    | exact hl.mem (by decide)
    | intro _
    | with_reducible refine sendOut_regs (SubN.trans (by decide) hl) ?_

theorem sendSnpAck_regs {σ : State} {ρ : List Nat} {addr : Nat} {s : State} (hl : SubN [0xa000, 0xa070, 0xa074] ρ) (h_s : Regs ρ σ s) :
    Regs ρ σ (sendSnpAck addr s) := by
  unfold sendSnpAck
  repeat' first
    | with_reducible assumption
    | exact hl.mem (by decide)
    | intro _
    | with_reducible refine sendOut_regs (SubN.trans (by decide) hl) ?_

theorem sendCredit_regs {σ : State} {ρ : List Nat} {req : Nat} {post : Nat} {init : Bool} {s : State} (hl : SubN [0xa000, 0xa070, 0xa074] ρ) (h_s : Regs ρ σ s) :
    Regs ρ σ (sendCredit req post init s) := by
  unfold sendCredit
  repeat' first
    | with_reducible assumption
    | exact hl.mem (by decide)
    | intro _
    | with_reducible refine sendOut_regs (SubN.trans (by decide) hl) ?_

theorem sendRead_regs {σ : State} {ρ : List Nat} {r : HostRead} {s : State} (hl : SubN [0xa000, 0xa070, 0xa074] ρ) (h_s : Regs ρ σ s) :
    Regs ρ σ (sendRead r s) := by
  unfold sendRead
  repeat' first
    | with_reducible assumption
    | exact hl.mem (by decide)
    | intro _
    | with_reducible refine regs_ite ?_ ?_
    | with_reducible refine sendOut_regs (SubN.trans (by decide) hl) ?_
    | split

theorem issueRead_regs {σ : State} {ρ : List Nat} {r0 : HostRead} {s : State} (hl : SubN [0xa000, 0xa070, 0xa074] ρ) (h_s : Regs ρ σ s) :
    Regs ρ σ (issueRead r0 s) := by
  unfold issueRead
  repeat' first
    | with_reducible assumption
    | exact hl.mem (by decide)
    | intro _
    | extract_lets
    | with_reducible refine sendRead_regs (SubN.trans (by decide) hl) ?_
    | fail_if_no_progress with_reducible refine regs_upd ?_
    | split
    | dsimp +zetaDelta only

theorem hostRead_regs {σ : State} {ρ : List Nat} {addr : Nat} {lenm1 : Nat} {watch : Bool} {use : ReadUse} {s : State} (hl : SubN [0xa000, 0xa070, 0xa074] ρ) (h_s : Regs ρ σ s) :
    Regs ρ σ (hostRead addr lenm1 watch use s) := by
  unfold hostRead
  repeat' first
    | with_reducible assumption
    | exact hl.mem (by decide)
    | intro _
    | with_reducible refine issueRead_regs (SubN.trans (by decide) hl) ?_

theorem issueWaiting_regs {σ : State} {ρ : List Nat} {s : State} (hl : SubN [0xa000, 0xa070, 0xa074] ρ) (h_s : Regs ρ σ s) :
    Regs ρ σ (issueWaiting s) := by
  unfold issueWaiting
  repeat' first
    | with_reducible assumption
    | exact hl.mem (by decide)
    | intro _
    | with_reducible refine forEach_regs ?_ ?_
    | with_reducible refine issueRead_regs (SubN.trans (by decide) hl) ?_
    | fail_if_no_progress with_reducible refine regs_upd ?_

theorem dropFetches_regs {σ : State} {ρ : List Nat} {p : FetchUse → Bool} {s : State} (hl : SubN [] ρ) (h_s : Regs ρ σ s) :
    Regs ρ σ (dropFetches p s) := by
  unfold dropFetches
  repeat' first
    | with_reducible assumption
    | exact hl.mem (by decide)
    | intro _
    | fail_if_no_progress with_reducible refine regs_upd ?_

theorem fetchNext_regs {σ : State} {ρ : List Nat} {f : Fetch} {s : State} (hl : SubN [0xa000, 0xa070, 0xa074] ρ) (h_s : Regs ρ σ s) :
    Regs ρ σ (fetchNext f s) := by
  unfold fetchNext
  repeat' first
    | with_reducible assumption
    | exact hl.mem (by decide)
    | intro _
    | with_reducible refine hostRead_regs (SubN.trans (by decide) hl) ?_
    | fail_if_no_progress with_reducible refine regs_upd ?_

theorem startFetch_regs {σ : State} {ρ : List Nat} {u : FetchUse} {addr : Nat} {n : Nat} {s : State} (hl : SubN [0xa000, 0xa070, 0xa074] ρ) (h_s : Regs ρ σ s) :
    Regs ρ σ (startFetch u addr n s) := by
  unfold startFetch
  repeat' first
    | with_reducible assumption
    | exact hl.mem (by decide)
    | intro _
    | with_reducible refine fetchNext_regs (SubN.trans (by decide) hl) ?_
    | with_reducible refine dropFetches_regs (SubN.trans (by decide) hl) ?_
    | fail_if_no_progress with_reducible refine regs_upd ?_

theorem sendOnPort_regs {σ : State} {ρ : List Nat} {k : Nat} {m : SpanMsg} {s : State} (hl : SubN [0xa000, 0xa070, 0xa074] ρ) (h_s : Regs ρ σ s) :
    Regs ρ σ (sendOnPort k m s) := by
  unfold sendOnPort
  repeat' first
    | with_reducible assumption
    | exact hl.mem (by decide)
    | intro _
    | with_reducible refine sendOut_regs (SubN.trans (by decide) hl) ?_

theorem putSpan_regs {σ : State} {ρ : List Nat} {m : SpanMsg} {st : Nat} {s : State} (hl : SubN [0xa000, 0xa070, 0xa074] ρ) (h_s : Regs ρ σ s) :
    Regs ρ σ (putSpan m st s) := by
  unfold putSpan
  repeat' first
    | with_reducible assumption
    | exact hl.mem (by decide)
    | intro _
    | extract_lets
    | with_reducible refine regs_ite ?_ ?_
    | with_reducible refine takeFree_regs ?_
    | with_reducible refine sendOnPort_regs (SubN.trans (by decide) hl) ?_
    | fail_if_no_progress with_reducible refine regs_upd ?_
    | split
    | dsimp +zetaDelta only

theorem takePsn_regs {σ : State} {ρ : List Nat} {st : Nat} {s : State} (hl : SubN [] ρ) (h_s : Regs ρ σ s) :
    Regs ρ σ (takePsn st s) := by
  unfold takePsn
  repeat' first
    | with_reducible assumption
    | exact hl.mem (by decide)
    | intro _
    | with_reducible refine regs_ite ?_ ?_
    | fail_if_no_progress with_reducible refine regs_upd ?_
    | split

theorem sendSpan_regs {σ : State} {ρ : List Nat} {op : Nat} {model : Nat} {arg : Nat} {data : List Slot16} {s : State} (hl : SubN [0xa000, 0xa070, 0xa074] ρ) (h_s : Regs ρ σ s) :
    Regs ρ σ (sendSpan op model arg data s) := by
  unfold sendSpan
  repeat' first
    | with_reducible assumption
    | exact hl.mem (by decide)
    | intro _
    | extract_lets
    | with_reducible refine regs_ite ?_ ?_
    | with_reducible refine putSpan_regs (SubN.trans (by decide) hl) ?_
    | with_reducible refine takePsn_regs (SubN.trans (by decide) hl) ?_
    | split

theorem sendEveryPort_regs {σ : State} {ρ : List Nat} {op : Nat} {arg : Nat} {s : State} (hl : SubN [0xa000, 0xa070, 0xa074] ρ) (h_s : Regs ρ σ s) :
    Regs ρ σ (sendEveryPort op arg s) := by
  unfold sendEveryPort
  repeat' first
    | with_reducible assumption
    | exact hl.mem (by decide)
    | intro _
    | with_reducible refine forEach_regs ?_ ?_
    | with_reducible refine sendOnPort_regs (SubN.trans (by decide) hl) ?_

end Sys2Proof.Machine
end

