-- ==== Sys2Proof/Laws/QuietFlags.lean ====
section
/-!
SUPPORT. The registers that may change, for every function of Machine/Flags.lean that changes the state.
-/
set_option Elab.async false
namespace Sys2Proof.Machine
open Sys2Proof

theorem oweIntr_regs {σ : State} {ρ : List Nat} {v : Nat} {owed : Bool} {s : State} (hl : SubN [] ρ) (h_s : Regs ρ σ s) :
    Regs ρ σ (oweIntr v owed s) := by
  unfold oweIntr
  repeat' first
    | with_reducible assumption
    | exact hl.mem (by decide)
    | intro _
    | with_reducible refine setModeration_regs (SubN.trans (by decide) hl) ?_
    | with_reducible refine when_regs ?_ ?_
    | fail_if_no_progress with_reducible refine regs_upd ?_
    | split

theorem interrupt_regs {σ : State} {ρ : List Nat} {v : Nat} {s : State} (hl : SubN [0xa000, 0xa070, 0xa074] ρ) (h_s : Regs ρ σ s) :
    Regs ρ σ (interrupt v s) := by
  unfold interrupt
  repeat' first
    | with_reducible assumption
    | exact hl.mem (by decide)
    | intro _
    | extract_lets
    | with_reducible refine regs_ite ?_ ?_
    | with_reducible refine sendIntr_regs (SubN.trans (by decide) hl) ?_
    | with_reducible refine oweIntr_regs (SubN.trans (by decide) hl) ?_
    | split

theorem writeEvents_regs {σ : State} {ρ : List Nat} {x0 : List EvRec} {x1 : Bool} {x2 : State} (hl : SubN [0xa000, 0xa070, 0xa074] ρ) (h_x2 : Regs ρ σ x2) :
    Regs ρ σ (writeEvents x0 x1 x2).2 := by
  induction x0 generalizing x1 x2 with
  | nil => (unfold writeEvents; repeat' first
      | with_reducible assumption
      | exact hl.mem (by decide)
      | intro _
      | extract_lets
      | with_reducible refine regs_ite ?_ ?_
      | with_reducible refine dropEvent_regs (SubN.trans (by decide) hl) ?_
      | with_reducible refine sendWrPart_regs (SubN.trans (by decide) hl) ?_
      | fail_if_no_progress with_reducible refine regs_upd ?_
      | with_reducible refine regs_snd_ite ?_ ?_
      | split)
  | cons _ _ ih => (unfold writeEvents; repeat' first
      | with_reducible assumption
      | with_reducible apply ih
      | (injections; subst_vars; with_reducible apply ih)
      | exact hl.mem (by decide)
      | intro _
      | extract_lets
      | with_reducible refine regs_ite ?_ ?_
      | with_reducible refine dropEvent_regs (SubN.trans (by decide) hl) ?_
      | with_reducible refine sendWrPart_regs (SubN.trans (by decide) hl) ?_
      | fail_if_no_progress with_reducible refine regs_upd ?_
      | with_reducible refine regs_snd_ite ?_ ?_
      | split)

theorem flushEvents_regs {σ : State} {ρ : List Nat} {s : State} (hl : SubN [0xa000, 0xa070, 0xa074] ρ) (h_s : Regs ρ σ s) :
    Regs ρ σ (flushEvents s) := by
  unfold flushEvents
  repeat' first
    | with_reducible assumption
    | exact hl.mem (by decide)
    | intro _
    | extract_lets
    | with_reducible refine regs_ite ?_ ?_
    | with_reducible refine writeEvents_regs (SubN.trans (by decide) hl) ?_
    | with_reducible refine sendWrPart_regs (SubN.trans (by decide) hl) ?_
    | with_reducible refine when_regs ?_ ?_
    | with_reducible refine interrupt_regs (SubN.trans (by decide) hl) ?_
    | fail_if_no_progress with_reducible refine regs_upd ?_
    | split
    | dsimp +zetaDelta only

theorem raise_regs {σ : State} {ρ : List Nat} {f : Fld} {s : State} (hl : SubN [0xa000, 0xa070, 0xa074] ρ) (m_f : f.off ∈ ρ) (h_s : Regs ρ σ s) :
    Regs ρ σ (raise f s) := by
  unfold raise
  repeat' first
    | with_reducible assumption
    | exact hl.mem (by decide)
    | intro _
    | with_reducible refine flushEvents_regs (SubN.trans (by decide) hl) ?_
    | with_reducible refine raiseQuiet_regs (SubN.trans (by decide) hl) ?_ ?_

theorem raiseBoth_regs {σ : State} {ρ : List Nat} {f : Fld} {g : Fld} {s : State} (hl : SubN [0xa000, 0xa070, 0xa074] ρ) (m_f : f.off ∈ ρ)
    (m_g : g.off ∈ ρ) (h_s : Regs ρ σ s) :
    Regs ρ σ (raiseBoth f g s) := by
  unfold raiseBoth
  repeat' first
    | with_reducible assumption
    | exact hl.mem (by decide)
    | intro _
    | with_reducible refine flushEvents_regs (SubN.trans (by decide) hl) ?_
    | with_reducible refine raiseQuiet_regs (SubN.trans (by decide) hl) ?_ ?_

theorem pldm_regs {σ : State} {ρ : List Nat} {code : Nat} {detail : Nat} {s : State} (hl : SubN [0x100, 0x130, 0x134, 0xa000, 0xa070, 0xa074] ρ) (h_s : Regs ρ σ s) :
    Regs ρ σ (pldm code detail s) := by
  unfold pldm
  repeat' first
    | with_reducible assumption
    | exact hl.mem (by decide)
    | intro _
    | extract_lets
    | with_reducible refine regs_ite ?_ ?_
    | with_reducible refine raise_regs (SubN.trans (by decide) hl) ?_ ?_
    | with_reducible refine bump_regs ?_ ?_ ?_
    | fail_if_no_progress with_reducible refine regs_upd ?_
    | split

theorem warn_regs {σ : State} {ρ : List Nat} {code : Nat} {field : Nat} {f : Fld} {s : State} (hl : SubN [0x100, 0x130, 0x134, 0xa000, 0xa070, 0xa074] ρ) (m_f : f.off ∈ ρ) (h_s : Regs ρ σ s) :
    Regs ρ σ (warn code field f s) := by
  unfold warn
  repeat' first
    | with_reducible assumption
    | exact hl.mem (by decide)
    | intro _
    | with_reducible refine pldm_regs (SubN.trans (by decide) hl) ?_
    | with_reducible refine raise_regs (SubN.trans (by decide) hl) ?_ ?_

theorem journal_regs {σ : State} {ρ : List Nat} {type : Nat} {payload : List Nat} {after : Durable} {s : State} (hl : SubN [] ρ) (h_s : Regs ρ σ s) :
    Regs ρ σ (journal type payload after s) := by
  unfold journal
  repeat' first
    | with_reducible assumption
    | exact hl.mem (by decide)
    | intro _
    | extract_lets
    | with_reducible refine regs_ite ?_ ?_
    | fail_if_no_progress with_reducible refine regs_upd ?_
    | split

theorem sendReport_regs {σ : State} {ρ : List Nat} {r : Report} {s : State} (hl : SubN [] ρ) (h_s : Regs ρ σ s) :
    Regs ρ σ (sendReport r s) := by
  unfold sendReport
  repeat' first
    | with_reducible assumption
    | exact hl.mem (by decide)
    | intro _
    | fail_if_no_progress with_reducible refine regs_upd ?_

theorem report_regs {σ : State} {ρ : List Nat} {cause : Nat} {c : Nat} {s : State} (hl : SubN [] ρ) (h_s : Regs ρ σ s) :
    Regs ρ σ (report cause c s) := by
  unfold report
  repeat' first
    | with_reducible assumption
    | exact hl.mem (by decide)
    | intro _
    | with_reducible refine sendReport_regs (SubN.trans (by decide) hl) ?_
    | fail_if_no_progress with_reducible refine regs_upd ?_

theorem holdFw_regs {σ : State} {ρ : List Nat} {code : Nat} {s : State} (hl : SubN [] ρ) (h_s : Regs ρ σ s) :
    Regs ρ σ (holdFw code s) := by
  unfold holdFw
  repeat' first
    | with_reducible assumption
    | exact hl.mem (by decide)
    | intro _
    | with_reducible refine regs_ite ?_ ?_
    | fail_if_no_progress with_reducible refine regs_upd ?_
    | split

theorem releaseFw_regs {σ : State} {ρ : List Nat} {code : Nat} {s : State} (hl : SubN [] ρ) (h_s : Regs ρ σ s) :
    Regs ρ σ (releaseFw code s) := by
  unfold releaseFw
  repeat' first
    | with_reducible assumption
    | exact hl.mem (by decide)
    | intro _
    | fail_if_no_progress with_reducible refine regs_upd ?_

end Sys2Proof.Machine
end

