-- ==== Sys2Proof/Laws/Raise.lean ====
section
/-!
SUPPORT. What raising a status bit, warning the BMC, and asking for a journal record say once and for all.
-/
set_option Elab.async false
namespace Sys2Proof.Machine
open Sys2Proof

variable {s : State}

/-- A one-bit field is set after it was raised. -/
theorem rd_raise (h : Table.wf resetWord s.win = true) {f : Fld} (hw : f.w = 1) (hf : f.lo < 32)
    (hq : f.off ∉ [0xa000, 0xa070, 0xa074]) : rd f (raise f s) = 1 := by
  have h1 : rd f (wr f 1 s) = 1 := by rw [rd_wr_self h (by omega), hw]; rfl
  have h2 : rd f (raiseQuiet f s) = 1 := by
    unfold raiseQuiet
    dsimp only
    split
    · exact h1
    · split
      · rw [(queueEvent_regs (ρ := [0xa000, 0xa070, 0xa074]) rfl (Regs.refl _ _)).rd hq, h1]
      · exact h1
  unfold raise
  rw [(flushEvents_regs (ρ := [0xa000, 0xa070, 0xa074]) rfl (Regs.refl _ _)).rd hq, h2]

/-- Raising a status bit writes its own register and the event path's. -/
theorem raise_writes (f : Fld) (s : State) : Regs [f.off, 0xa000, 0xa070, 0xa074] s (raise f s) :=
  raise_regs (by simp [SubN]) (by simp) (Regs.refl _ _)

/-- A warning's status bit is set. -/
theorem rd_warn (h : Table.wf resetWord s.win = true) {f : Fld} (hw : f.w = 1) (hf : f.lo < 32)
    (hq : f.off ∉ [0x100, 0x130, 0x134, 0xa000, 0xa070, 0xa074]) (code field : Nat) : rd f (warn code field f s) = 1 := by
  unfold warn
  rw [(pldm_regs (ρ := [0x100, 0x130, 0x134, 0xa000, 0xa070, 0xa074]) rfl (Regs.refl _ _)).rd hq]
  exact rd_raise h hw hf (by simp only [List.mem_cons, not_or] at hq ⊢; tauto)

/-- A warning writes its own status register, the event path's and the count of dropped management events. -/
theorem warn_writes (code field : Nat) (f : Fld) (s : State) :
    Regs [f.off, 0x100, 0x130, 0x134, 0xa000, 0xa070, 0xa074] s (warn code field f s) :=
  warn_regs (by simp [SubN]) (by simp) (Regs.refl _ _)

/-- While fewer than 64 events are queued, a new one goes to the end. -/
theorem pldm_room (h : s.mgmt.events_.length < 64) (code detail : Nat) :
    (pldm code detail s).mgmt.events_ = s.mgmt.events_ ++ [⟨code, pldmStamp s, detail % 2 ^ 32, false⟩] := by
  unfold pldm
  simp only [if_pos h]

@[simp] theorem journal_win (type : Nat) (payload : List Nat) (after : Durable) (s : State) : (journal type payload after s).win = s.win := by
  unfold journal
  split <;> rfl

/-- Part by part, what raising a status bit leaves alone. -/
theorem raise_same_refl (f : Fld) (s : State) : Same [.win, .link, .ports, .ocl] s (raise f s) := raise_same rfl (Same.refl _ _)

theorem warn_same_refl (code field : Nat) (f : Fld) (s : State) : Same [.win, .link, .ports, .ocl, .mgmt] s (warn code field f s) :=
  warn_same rfl (Same.refl _ _)

end Sys2Proof.Machine
end

