-- ==== Sys2Proof/Laws/Cells.lean ====
section
/-!
SUPPORT. Laws of a cell's engines: what reads and writes of granules leave in the cell, in its memory and in the registers.
-/
set_option Elab.async false
namespace Sys2Proof.Machine
open Sys2Proof

variable {s t : State}

theorem cell_setCell (h : Table.wf (fun _ => Cell.reset) s.cells = true) (c : Nat) (x : Cell) : cell c (setCell c x s) = x :=
  Table.get_set_self _ h _ _

theorem cell_setCell_ne {c d : Nat} (h : d ≠ c) (x : Cell) (s : State) : cell d (setCell c x s) = cell d s := Table.get_set_ne _ _ _ h

theorem cell_modCell (h : Table.wf (fun _ => Cell.reset) s.cells = true) (c : Nat) (f : Cell → Cell) :
    cell c (modCell c f s) = f (cell c s) := cell_setCell h _ _

theorem cell_modCell_ne {c d : Nat} (h : d ≠ c) (f : Cell → Cell) (s : State) : cell d (modCell c f s) = cell d s := cell_setCell_ne h _ _

theorem cell_congr (h : t.cells = s.cells) (c : Nat) : cell c t = cell c s := by
  unfold cell
  rw [h]

/-- The parts of a cell that its engines' accesses to memory leave alone: all but the fetch buffer, the control granule's shadow, the
words that wait for a write-back or a re-read, and the accesses that wait for a bank. -/
def Cell.calm (x : Cell) : Cell :=
  { x with fetch := [], shadow0 := 0, writeBack := [], corrected := [], waiting := [], tensorHeld := [] }

/-- Accesses of a cell's engines leave the rest of the cell, and every other cell. -/
structure Steady (c : Nat) (a s : State) : Prop where
  form : Table.wf (fun _ => Cell.reset) s.cells = true
  calm : (cell c s).calm = (cell c a).calm
  other : ∀ d, d ≠ c → cell d s = cell d a

theorem Steady.refl (h : Table.wf (fun _ => Cell.reset) s.cells = true) (c : Nat) : Steady c s s := ⟨h, rfl, fun _ _ => rfl⟩

variable {σ : State} {c : Nat}

theorem Steady.of_cells (h : Steady c σ s) (hc : t.cells = s.cells) : Steady c σ t :=
  ⟨hc ▸ h.form, by rw [cell_congr hc]; exact h.calm, fun d hd => by rw [cell_congr hc]; exact h.other d hd⟩

theorem modCell_steady {f : Cell → Cell} (hf : ∀ x, (f x).calm = x.calm) (h : Steady c σ s) : Steady c σ (modCell c f s) :=
  ⟨Table.wf_set _ _ _ _ h.form, by rw [cell_modCell h.form, hf]; exact h.calm,
    fun d hd => by rw [cell_modCell_ne hd]; exact h.other d hd⟩

theorem forEach_steady {α : Type} {l : List α} {f : α → State → State} (hf : ∀ x t, Steady c σ t → Steady c σ (f x t)) (h : Steady c σ s) :
    Steady c σ (forEach l f s) := by
  unfold forEach
  induction l generalizing s with
  | nil => exact h
  | cons x l ih => exact ih (hf x s h)

theorem Same.cells_eq {l : List Part} (h : Same l s t) (hc : Part.cells ∉ l) : t.cells = s.cells := h.part .cells hc

theorem when_steady {b : Bool} {f : State → State} (hf : ∀ t, Steady c σ t → Steady c σ (f t)) (h : Steady c σ s) : Steady c σ (when b f s) := by
  unfold when
  split
  · exact hf _ h
  · exact h

theorem countAccess_steady {port g : Nat} (h : Steady c σ s) : Steady c σ (countAccess c port g s) :=
  h.of_cells ((countAccess_same rfl (Same.refl [.win, .mesh, .link, .ports, .ocl] s)).cells_eq (by decide))

theorem correctWord_steady {w : Nat} (h : Steady c σ s) : Steady c σ (correctWord c w s) := by
  unfold correctWord
  dsimp only
  refine when_steady (fun t ht => ht.of_cells ?_) (modCell_steady (fun _ => rfl) (h.of_cells ?_))
  · exact (report_same (π := [.win, .mesh, .link, .ports, .ocl]) (by decide) (raise_same rfl (Same.refl [.win, .mesh, .link, .ports, .ocl] t))).cells_eq (by decide)
  · exact (captureEcc_same rfl (raise_same rfl (bump_same rfl (Same.refl [.win, .link, .ports, .ocl] s)))).cells_eq (by decide)

theorem uncorrectable_steady {w : Nat} (h : Steady c σ s) : Steady c σ (uncorrectable c w s) :=
  h.of_cells ((uncorrectable_same rfl (Same.refl [.win, .mesh, .link, .ports, .ocl] s)).cells_eq (by decide))

theorem readChecks_steady {gs : List Nat} {env : MemEnv} (h : Steady c σ s) : Steady c σ (readChecks c gs env s) := by
  unfold readChecks
  dsimp only
  exact forEach_steady (fun _ _ => uncorrectable_steady) (modCell_steady (fun _ => rfl) (forEach_steady (fun _ _ => correctWord_steady) h))

theorem captureColl_cells (m : Meet) (w : Nat × Bool) (s : State) : (captureColl c m w s).cells = s.cells :=
  (captureColl_same rfl (Same.refl [.win, .mesh] s)).cells_eq (by decide)

theorem collide_steady {m : Meet} (h : Steady c σ s) : Steady c σ (collide c m s) := by
  unfold collide
  split
  · exact h
  · exact when_steady (fun t ht => ht.of_cells (captureColl_cells _ _ t))
      ((modCell_steady (f := retry m _) (fun _ => rfl) h).of_cells ((bumpBy_same (l := [.win]) rfl (Same.refl [.win] _)).cells_eq (by decide)))

theorem portDone_steady {port : Nat} (h : Steady c σ s) : Steady c σ (portDone c port s) := modCell_steady (fun _ => rfl) h

theorem reads_steady {port : Nat} {gs : List Nat} {env : MemEnv} (h : Steady c σ s) : Steady c σ (reads c port gs env s) := by
  unfold reads
  dsimp only
  refine forEach_steady (fun k t ht => ht.of_cells ?_) (portDone_steady (forEach_steady (fun _ _ => collide_steady) (readChecks_steady ?_)))
  · exact (report_same rfl (Same.refl [.mesh] t)).cells_eq (by decide)
  · unfold countAccesses
    exact forEach_steady (fun _ _ => countAccess_steady) h

theorem putGranule_steady {g : Nat} {v : Granule} (h : Steady c σ s) : Steady c σ (putGranule c g v s) := by
  unfold putGranule storeGranule
  split
  · refine modCell_steady (fun _ => rfl) (h.of_cells ?_)
    unfold setGranule
    split <;> rfl
  · exact h

theorem writeGranule_steady {port g : Nat} {v : Granule} (h : Steady c σ s) : Steady c σ (writeGranule c port g v s) :=
  putGranule_steady (countAccess_steady h)

theorem writeGranules_steady {port g : Nat} {vs : List Granule} (h : Steady c σ s) : Steady c σ (writeGranules c port g vs s) := by
  induction vs generalizing g s with
  | nil => simpa only [writeGranules] using h
  | cons v vs ih =>
    rw [writeGranules]
    exact ih (writeGranule_steady h)

theorem fetchGranule_steady {g : Nat} {env : MemEnv} (h : Steady c σ s) : Steady c σ (fetchGranule c g env s) := by
  unfold fetchGranule
  dsimp only
  exact modCell_steady (fun _ => rfl) (readChecks_steady (countAccess_steady h))

theorem fill_steady {env : MemEnv} (h : Steady c σ s) : Steady c σ (fill c env s) := by
  unfold fill
  extract_lets g s1
  have h1 : Steady c σ s1 := by
    unfold s1
    split
    · exact h
    · exact fetchGranule_steady (modCell_steady (fun _ => rfl) h)
  split
  · exact h1
  · exact fetchGranule_steady h1

theorem Steady.pc (h : Steady c σ s) : (cell c s).pc = (cell c σ).pc := by
  have := congrArg Cell.pc h.calm
  exact this

theorem advance_pc (h : Table.wf (fun _ => Cell.reset) s.cells = true) (c : Nat) : (cell c (advance c s)).pc = (cell c s).pc + 1 := by
  unfold advance
  rw [cell_modCell h]

end Sys2Proof.Machine
end

