-- ==== Sys2Proof/Laws/CellRegs.lean ====
section
/-!
SUPPORT. Which registers a cell's engines write, and what their writes leave in memory.
-/
set_option Elab.async false
namespace Sys2Proof.Machine
open Sys2Proof

variable {s t σ : State} {c : Nat} {ρ : List Nat}

theorem cellRegs_events (c : Nat) : SubN [0xa000, 0xa070, 0xa074] (cellRegs c) := by simp [SubN, cellRegs, O.OCL_STS, F.EVT_DROP_CNT]

theorem rangeFault_regs (hl : SubN (cellRegs c) ρ) (h : Regs ρ σ s) : Regs ρ σ (rangeFault c s) :=
  report_regs rfl (raise_regs ((cellRegs_events c).trans hl) (hl.mem (by simp [cellRegs, F.MEM_ERR_STS.RANGE]; omega)) h)

theorem countAccess_regs {port g : Nat} (hl : SubN (cellRegs c) ρ) (h : Regs ρ σ s) : Regs ρ σ (countAccess c port g s) := by
  unfold countAccess
  split
  · exact when_regs (fun t ht => bump_regs (hl.mem (by simp [cellRegs, F.MEM_OFFCLASS_CNT]; omega))
      (hl.mem (by simp [cellRegs, F.MEM_OFFCLASS_CNT]; omega)) ht) h
  · exact rangeFault_regs hl h

theorem countAccesses_regs {port : Nat} {gs : List Nat} (hl : SubN (cellRegs c) ρ) (h : Regs ρ σ s) :
    Regs ρ σ (countAccesses c port gs s) := forEach_regs (fun _ _ ht => countAccess_regs hl ht) h

theorem captureColl_regs {m : Meet} {w : Nat × Bool} (hl : SubN (cellRegs c) ρ) (h : Regs ρ σ s) : Regs ρ σ (captureColl c m w s) := by
  unfold captureColl
  dsimp only
  refine regs_upd ?_
  repeat' (first | exact h | refine wr_regs (hl.mem ?_) ?_ | refine wrB_regs (hl.mem ?_) ?_)
  all_goals (simp [cellRegs, F.MEM_COLL_LAST.V, F.MEM_COLL_LAST.AGED, F.MEM_COLL_LAST.LOSER, F.MEM_COLL_LAST.WINNER,
    F.MEM_COLL_LAST.BANK, F.MEM_COLL_LAST.ROW, F.MEM_COLL_LAST.COL]; omega)

theorem collide_regs {m : Meet} (hl : SubN (cellRegs c) ρ) (h : Regs ρ σ s) : Regs ρ σ (collide c m s) := by
  unfold collide
  split
  · exact h
  · exact when_regs (fun t ht => captureColl_regs hl ht) (setCnt_regs (hl.mem (by simp [cellRegs, F.MEM_COLL_CNT]; omega))
      (hl.mem (by simp [cellRegs, F.MEM_COLL_CNT]; omega)) (modCell_regs h))

theorem captureEcc_regs {w : Nat} {ue : Bool} (hl : SubN (cellRegs c) ρ) (h : Regs ρ σ s) : Regs ρ σ (captureEcc c w ue s) := by
  unfold captureEcc
  dsimp only
  split
  · exact h
  · repeat' (first | exact h | refine wr_regs (hl.mem ?_) ?_ | refine wrB_regs (hl.mem ?_) ?_)
    all_goals (simp [cellRegs, F.MEM_ECC_LAST.V, F.MEM_ECC_LAST.UE, F.MEM_ECC_LAST.WORD, F.MEM_ECC_LAST.GRANULE,
      F.MEM_ECC_LAST.ROW, F.MEM_ECC_LAST.COL]; omega)

theorem correctWord_regs {w : Nat} (hl : SubN (cellRegs c) ρ) (h : Regs ρ σ s) : Regs ρ σ (correctWord c w s) := by
  unfold correctWord
  dsimp only
  refine when_regs (fun t ht => report_regs rfl (raise_regs ((cellRegs_events c).trans hl)
    (hl.mem (by simp [cellRegs, F.MEM_ERR_STS.HARD]; omega)) ht)) (modCell_regs (captureEcc_regs hl (raise_regs
      ((cellRegs_events c).trans hl) (hl.mem (by simp [cellRegs, F.MEM_ERR_STS.CE]; omega)) (bump_regs (hl.mem ?_) (hl.mem ?_) h)))) <;>
    (simp [cellRegs, F.MEM_CE_CNT]; omega)

theorem uncorrectable_regs {w : Nat} (hl : SubN (cellRegs c) ρ) (h : Regs ρ σ s) : Regs ρ σ (uncorrectable c w s) := by
  unfold uncorrectable
  dsimp only
  refine report_regs rfl (captureEcc_regs hl (raise_regs
      ((cellRegs_events c).trans hl) (hl.mem (by simp [cellRegs, F.MEM_ERR_STS.UE]; omega)) (bump_regs (hl.mem ?_) (hl.mem ?_) h))) <;>
    (simp [cellRegs, F.MEM_UE_CNT]; omega)

theorem readChecks_regs {gs : List Nat} {env : MemEnv} (hl : SubN (cellRegs c) ρ) (h : Regs ρ σ s) :
    Regs ρ σ (readChecks c gs env s) :=
  forEach_regs (fun _ _ ht => uncorrectable_regs hl ht) (modCell_regs (forEach_regs (fun _ _ ht => correctWord_regs hl ht) h))

theorem reads_regs {port : Nat} {gs : List Nat} {env : MemEnv} (hl : SubN (cellRegs c) ρ) (h : Regs ρ σ s) :
    Regs ρ σ (reads c port gs env s) :=
  forEach_regs (fun _ _ ht => report_regs rfl ht)
    (modCell_regs (forEach_regs (fun _ _ ht => collide_regs hl ht) (readChecks_regs hl (countAccesses_regs hl h))))

theorem setGranule_regs {g : Nat} {v : Granule} (h : Regs ρ σ s) : Regs ρ σ (setGranule c g v s) :=
  h.of_win (by unfold setGranule; split <;> rfl)

theorem putGranule_regs {g : Nat} {v : Granule} (h : Regs ρ σ s) : Regs ρ σ (putGranule c g v s) := by
  unfold putGranule storeGranule
  split
  · exact modCell_regs (setGranule_regs h)
  · exact h

theorem writeGranule_regs {port g : Nat} {v : Granule} (hl : SubN (cellRegs c) ρ) (h : Regs ρ σ s) :
    Regs ρ σ (writeGranule c port g v s) := putGranule_regs (countAccess_regs hl h)

theorem writeGranules_regs {port g : Nat} {vs : List Granule} (hl : SubN (cellRegs c) ρ) (h : Regs ρ σ s) :
    Regs ρ σ (writeGranules c port g vs s) := by
  induction vs generalizing g s with
  | nil => simpa only [writeGranules] using h
  | cons v vs ih =>
    rw [writeGranules]
    exact ih (writeGranule_regs hl h)

theorem fetchGranule_regs {g : Nat} {env : MemEnv} (hl : SubN (cellRegs c) ρ) (h : Regs ρ σ s) : Regs ρ σ (fetchGranule c g env s) := by
  unfold fetchGranule
  exact modCell_regs (readChecks_regs hl (countAccess_regs hl h))

theorem fill_regs {env : MemEnv} (hl : SubN (cellRegs c) ρ) (h : Regs ρ σ s) : Regs ρ σ (fill c env s) := by
  unfold fill
  extract_lets g s1
  have h1 : Regs ρ σ s1 := by
    unfold s1
    split
    · exact h
    · exact fetchGranule_regs hl (modCell_regs h)
  split
  · exact h1
  · exact fetchGranule_regs hl h1

theorem chargeEnergy_regs {a kind n : Nat} (hl : SubN (energyRegs a) ρ) (h : Regs ρ σ s) : Regs ρ σ (chargeEnergy a kind n s) := by
  have he : SubN [0xa000, 0xa070, 0xa074] ρ := SubN.trans (by simp [SubN, energyRegs, O.OCL_STS, F.EVT_DROP_CNT]) hl
  unfold chargeEnergy charge checkHeld
  extract_lets total s0 s1
  have h1 : Regs ρ σ (wr (usedFld a 2) (satN (usedFld a 2).w (rd (usedFld a 2) s1 + total / unitOf 2)) s1) :=
    wr_regs (hl.mem (by simp [energyRegs, usedFld, F.USED_MJ.VALUE, O.USED_MJ])) (regs_upd h)
  split
  · split
    · exact h1
    · exact raise_regs he (hl.mem (by simp [energyRegs, bitFld])) (wr_regs (hl.mem (by simp [energyRegs, bitFld])) h1)
  · exact h1

/-! ### Exposure -/

/-- What a cell exposes depends on `MODEL_SCHED`, the model slots and the images. -/
theorem exposed_congr (hr : ∀ m, m < 16 → rd (F.MODEL_SCHED.STATE m) t = rd (F.MODEL_SCHED.STATE m) s) (hs : t.svc.models = s.svc.models)
    (hi : t.sched.images = s.sched.images) (c : Nat) : exposed c t = exposed c s := by
  have h1 : modelOfField (fieldOfCell c) t = modelOfField (fieldOfCell c) s := by
    unfold modelOfField modelSlot
    rw [hs]
    refine List.find?_congr ?_
    intro m hm
    rw [hr m (by simpa using hm)]
  unfold exposed inT36 image
  rw [h1, hi]

/-- The registers of a cell's accesses hold no `MODEL_SCHED`. -/
theorem sched_notin_cellRegs (c m : Nat) (hm : m < 16) : 0x30c0 + m * 4 ∉ cellRegs c := by
  simp [cellRegs, O.OCL_STS, F.EVT_DROP_CNT]
  omega

theorem exposed_of {ρ : List Nat} (h : Regs ρ s t) (hρ : ∀ m, m < 16 → 0x30c0 + m * 4 ∉ ρ) {l : List Part} (k : Same l s t)
    (h1 : Part.svc ∉ l) (h2 : Part.sched ∉ l) (c : Nat) : exposed c t = exposed c s :=
  exposed_congr (fun m hm => h.rd (hρ m hm)) (congrArg Svc.models (k.part .svc h1)) (congrArg Sched.images (k.part .sched h2)) c

/-! ### Memory -/

theorem granule_congr (h : t.cellMem = s.cellMem) (d k : Nat) : granule d k t = granule d k s := by
  unfold granule
  rw [h]

theorem cellMem_countAccess (c port g : Nat) (s : State) : (countAccess c port g s).cellMem = s.cellMem :=
  (countAccess_same rfl (Same.refl [.win, .mesh, .link, .ports, .ocl] s)).part .cellMem (by decide)

theorem cellMem_putGranule (c g : Nat) (v : Granule) (s : State) :
    (putGranule c g v s).cellMem = if g < exposed c s then (setGranule c g v s).cellMem else s.cellMem := by
  unfold putGranule
  split <;> rfl

theorem cellMem_writeGranule (c port g : Nat) (v : Granule) (s : State) :
    (writeGranule c port g v s).cellMem = if g < exposed c s then (setGranule c g v s).cellMem else s.cellMem := by
  unfold writeGranule
  have he : exposed c (countAccess c port g s) = exposed c s :=
    exposed_of (countAccess_regs (ρ := cellRegs c) (by simp [SubN]) (Regs.refl _ s)) (fun m hm => sched_notin_cellRegs c m hm)
      (countAccess_same rfl (Same.refl [.win, .mesh, .link, .ports, .ocl] s)) (by decide) (by decide) c
  rw [cellMem_putGranule, he]
  have hc := cellMem_countAccess c port g s
  split
  · unfold setGranule
    split
    · simp only [hc]
    · exact hc
  · exact hc

theorem exposed_writeGranule (c port g : Nat) (v : Granule) (s : State) : exposed c (writeGranule c port g v s) = exposed c s :=
  exposed_of (writeGranule_regs (ρ := cellRegs c) (by simp [SubN]) (Regs.refl _ s)) (fun m hm => sched_notin_cellRegs c m hm)
    (writeGranule_same rfl (Same.refl [.win, .cells, .cellMem, .mesh, .link, .ports, .ocl] s)) (by decide) (by decide) c

theorem exposed_reads (c port : Nat) (gs : List Nat) (env : MemEnv) (s : State) : exposed c (reads c port gs env s) = exposed c s :=
  exposed_of (reads_regs (ρ := cellRegs c) (by simp [SubN]) (Regs.refl _ s)) (fun m hm => sched_notin_cellRegs c m hm)
    (reads_same rfl (Same.refl [.win, .cells, .mesh, .link, .ports, .ocl] s)) (by decide) (by decide) c

theorem exposed_fill (c : Nat) (env : MemEnv) (s : State) : exposed c (fill c env s) = exposed c s :=
  exposed_of (fill_regs (ρ := cellRegs c) (by simp [SubN]) (Regs.refl _ s)) (fun m hm => sched_notin_cellRegs c m hm)
    (fill_same rfl (Same.refl [.win, .cells, .mesh, .link, .ports, .ocl] s)) (by decide) (by decide) c

theorem exposed_le (c : Nat) (s : State) : exposed c s ≤ cellGranules := by
  unfold exposed
  split <;> decide

theorem cellMem_reads (c port : Nat) (gs : List Nat) (env : MemEnv) (s : State) : (reads c port gs env s).cellMem = s.cellMem :=
  (reads_same rfl (Same.refl [.win, .cells, .mesh, .link, .ports, .ocl] s)).part .cellMem (by decide)

theorem cellMem_fill (c : Nat) (env : MemEnv) (s : State) : (fill c env s).cellMem = s.cellMem :=
  (fill_same rfl (Same.refl [.win, .cells, .mesh, .link, .ports, .ocl] s)).part .cellMem (by decide)

/-- What a run of writes leaves: the written granules, every other granule as before, every byte outside the run as before. -/
theorem writeGranules_memory (c port : Nat) (vs : List Granule) (g : Nat) (s : State) (hm : Memory.wf s.cellMem = true) :
    (g + vs.length ≤ exposed c s → ∀ k (hk : k < vs.length), granule c (g + k) (writeGranules c port g vs s) = vs[k]) ∧
    (∀ d k, (d ≠ c ∨ k < g ∨ g + vs.length ≤ k) → granule d k (writeGranules c port g vs s) = granule d k s) ∧
    (∀ b, (b < c * cellBytes + g * 64 ∨ c * cellBytes + (g + vs.length) * 64 ≤ b) →
      byteAt (writeGranules c port g vs s).cellMem b = byteAt s.cellMem b) := by
  induction vs generalizing g s with
  | nil => exact ⟨fun _ k hk => absurd hk (by simp), fun _ _ _ => rfl, fun _ _ => rfl⟩
  | cons v vs ih =>
    rw [writeGranules]
    have hw := cellMem_writeGranule c port g v s
    have hm1 : Memory.wf (writeGranule c port g v s).cellMem = true := by
      rw [hw]
      split
      · exact cellMem_set_wf hm c g v
      · exact hm
    obtain ⟨i1, i2, i3⟩ := ih (g + 1) _ hm1
    rw [exposed_writeGranule] at i1
    have hl : (v :: vs).length = vs.length + 1 := rfl
    refine ⟨fun hfit k hk => ?_, fun d k hdk => ?_, fun b hb => ?_⟩
    · cases k with
      | zero =>
        rw [i2 c (g + 0) (by omega)]
        have hg : g < exposed c s := by omega
        rw [if_pos hg] at hw
        rw [Nat.add_zero, granule_congr hw, granule_setGranule hm (Nat.lt_of_lt_of_le hg (exposed_le c s))]
        rfl
      | succ k =>
        rw [show g + (k + 1) = g + 1 + k by omega, i1 (by omega) k (by omega)]
        rfl
    · rw [i2 d k (by omega)]
      split at hw
      · rw [granule_congr hw, granule_setGranule_ne hm (by omega)]
      · rw [granule_congr hw]
    · rw [i3 b (by omega), hw]
      split
      · exact cellByte_set hm (by omega) v
      · rfl

end Sys2Proof.Machine
end

