-- ==== Sys2Proof/Laws/FrameMesh.lean ====
section
/-!
SUPPORT. The parts that may change, for every function of Machine/Mesh.lean that changes the state.
-/
set_option Elab.async false
namespace Sys2Proof.Machine
open Sys2Proof

theorem setRow_same {σ : State} {π : List Part} {field : Nat} {row : Nat} {w : Word} {s : State} (hl : Sub [.win, .mesh] π) (h_s : Same π σ s) :
    Same π σ (setRow field row w s) := by
  unfold setRow
  repeat' first
    | with_reducible assumption
    | intro _
    | extract_lets
    | with_reducible refine setReg_same (Sub.trans (by decide) hl) ?_
    | fail_if_no_progress with_reducible refine same_upd ?_ (fun p hp => by cases p <;> first | exact absurd (hl.mem (by decide)) hp | exact rfl | exact ⟨rfl, rfl⟩ | exact ⟨rfl, rfl, rfl, rfl⟩)

theorem setLinkDir_same {σ : State} {π : List Part} {r : Nat} {port : Nat} {l : LinkDir} {s : State} (hl : Sub [.mesh] π) (h_s : Same π σ s) :
    Same π σ (setLinkDir r port l s) := by
  unfold setLinkDir
  repeat' first
    | with_reducible assumption
    | intro _
    | fail_if_no_progress with_reducible refine same_upd ?_ (fun p hp => by cases p <;> first | exact absurd (hl.mem (by decide)) hp | exact rfl | exact ⟨rfl, rfl⟩ | exact ⟨rfl, rfl, rfl, rfl⟩)

theorem passLink_same {σ : State} {π : List Part} {f : Flit} {r : Nat} {port : Nat} {s : State} (hl : Sub [.mesh] π) (h_s : Same π σ s) :
    Same π σ (passLink f r port s) := by
  unfold passLink
  repeat' first
    | with_reducible assumption
    | intro _
    | extract_lets
    | with_reducible refine setLinkDir_same (Sub.trans (by decide) hl) ?_
    | fail_if_no_progress with_reducible refine same_upd ?_ (fun p hp => by cases p <;> first | exact absurd (hl.mem (by decide)) hp | exact rfl | exact ⟨rfl, rfl⟩ | exact ⟨rfl, rfl, rfl, rfl⟩)

theorem passLink0_same {σ : State} {π : List Part} {w : Word} {r : Nat} {port : Nat} {s : State} (hl : Sub [.mesh] π) (h_s : Same π σ s) :
    Same π σ (passLink0 w r port s) := by
  unfold passLink0
  repeat' first
    | with_reducible assumption
    | intro _
    | extract_lets
    | with_reducible refine setLinkDir_same (Sub.trans (by decide) hl) ?_
    | fail_if_no_progress with_reducible refine same_upd ?_ (fun p hp => by cases p <;> first | exact absurd (hl.mem (by decide)) hp | exact rfl | exact ⟨rfl, rfl⟩ | exact ⟨rfl, rfl, rfl, rfl⟩)

theorem passRoute_same {σ : State} {π : List Part} {f : Flit} {rt : List (Nat × Nat)} {s : State} (hl : Sub [.mesh] π) (h_s : Same π σ s) :
    Same π σ (passRoute f rt s) := by
  unfold passRoute
  repeat' first
    | with_reducible assumption
    | intro _
    | with_reducible refine forEach_same ?_ ?_
    | with_reducible refine passLink_same (Sub.trans (by decide) hl) ?_

theorem passRoute0_same {σ : State} {π : List Part} {ws : List Word} {rt : List (Nat × Nat)} {s : State} (hl : Sub [.mesh] π) (h_s : Same π σ s) :
    Same π σ (passRoute0 ws rt s) := by
  unfold passRoute0
  repeat' first
    | with_reducible assumption
    | intro _
    | with_reducible refine forEach_same ?_ ?_
    | with_reducible refine passLink0_same (Sub.trans (by decide) hl) ?_

theorem setUsed3_same {σ : State} {π : List Part} {r : Nat} {port : Nat} {n : Nat} {s : State} (hl : Sub [.mesh] π) (h_s : Same π σ s) :
    Same π σ (setUsed3 r port n s) := by
  unfold setUsed3
  repeat' first
    | with_reducible assumption
    | intro _
    | fail_if_no_progress with_reducible refine same_upd ?_ (fun p hp => by cases p <;> first | exact absurd (hl.mem (by decide)) hp | exact rfl | exact ⟨rfl, rfl⟩ | exact ⟨rfl, rfl, rfl, rfl⟩)

theorem enter3_same {σ : State} {π : List Part} {f : Flit} {p : Option (Nat × Nat)} {s : State} (hl : Sub [.mesh] π) (h_s : Same π σ s) :
    Same π σ (enter3 f p s) := by
  unfold enter3
  repeat' first
    | with_reducible assumption
    | intro _
    | with_reducible refine when_same ?_ ?_
    | with_reducible refine setUsed3_same (Sub.trans (by decide) hl) ?_
    | fail_if_no_progress with_reducible refine same_upd ?_ (fun p hp => by cases p <;> first | exact absurd (hl.mem (by decide)) hp | exact rfl | exact ⟨rfl, rfl⟩ | exact ⟨rfl, rfl, rfl, rfl⟩)
    | split

theorem leave3_same {σ : State} {π : List Part} {f : Flit} {p : Option (Nat × Nat)} {s : State} (hl : Sub [.mesh] π) (h_s : Same π σ s) :
    Same π σ (leave3 f p s) := by
  unfold leave3
  repeat' first
    | with_reducible assumption
    | intro _
    | with_reducible refine when_same ?_ ?_
    | with_reducible refine setUsed3_same (Sub.trans (by decide) hl) ?_
    | fail_if_no_progress with_reducible refine same_upd ?_ (fun p hp => by cases p <;> first | exact absurd (hl.mem (by decide)) hp | exact rfl | exact ⟨rfl, rfl⟩ | exact ⟨rfl, rfl, rfl, rfl⟩)
    | split

theorem keepFlight_same {σ : State} {π : List Part} {x : Flight} {s : State} (hl : Sub [.mesh] π) (h_s : Same π σ s) :
    Same π σ (keepFlight x s) := by
  unfold keepFlight
  repeat' first
    | with_reducible assumption
    | intro _
    | fail_if_no_progress with_reducible refine same_upd ?_ (fun p hp => by cases p <;> first | exact absurd (hl.mem (by decide)) hp | exact rfl | exact ⟨rfl, rfl⟩ | exact ⟨rfl, rfl, rfl, rfl⟩)

theorem settle_same {σ : State} {π : List Part} {x : Flight} {s : State} (hl : Sub [.win, .mesh, .link, .ports, .ocl, .pair, .free] π) (h_s : Same π σ s) :
    Same π σ (settle x s) := by
  unfold settle
  repeat' first
    | with_reducible assumption
    | intro _
    | extract_lets
    | with_reducible refine same_ite ?_ ?_
    | with_reducible refine leave3_same (Sub.trans (by decide) hl) ?_
    | with_reducible refine sendSpan_same (Sub.trans (by decide) hl) ?_
    | with_reducible refine keepFlight_same (Sub.trans (by decide) hl) ?_
    | fail_if_no_progress with_reducible refine same_upd ?_ (fun p hp => by cases p <;> first | exact absurd (hl.mem (by decide)) hp | exact rfl | exact ⟨rfl, rfl⟩ | exact ⟨rfl, rfl, rfl, rfl⟩)
    | split
    | dsimp +zetaDelta only

theorem goOn_same {σ : State} {π : List Part} {x : Flight} {s : State} (hl : Sub [.win, .mesh, .link, .ports, .ocl, .pair, .free] π) (h_s : Same π σ s) :
    Same π σ (goOn x s) := by
  unfold goOn
  repeat' first
    | with_reducible assumption
    | intro _
    | extract_lets
    | with_reducible refine same_ite ?_ ?_
    | with_reducible refine settle_same (Sub.trans (by decide) hl) ?_
    | with_reducible refine enter3_same (Sub.trans (by decide) hl) ?_
    | with_reducible refine leave3_same (Sub.trans (by decide) hl) ?_
    | with_reducible refine passRoute_same (Sub.trans (by decide) hl) ?_
    | fail_if_no_progress with_reducible refine same_upd ?_ (fun p hp => by cases p <;> first | exact absurd (hl.mem (by decide)) hp | exact rfl | exact ⟨rfl, rfl⟩ | exact ⟨rfl, rfl, rfl, rfl⟩)
    | split

theorem moveOn_same {σ : State} {π : List Part} {s : State} (hl : Sub [.win, .mesh, .link, .ports, .ocl, .pair, .free] π) (h_s : Same π σ s) :
    Same π σ (moveOn s) := by
  unfold moveOn
  repeat' first
    | with_reducible assumption
    | intro _
    | with_reducible refine forEach_same ?_ ?_
    | with_reducible refine goOn_same (Sub.trans (by decide) hl) ?_
    | fail_if_no_progress with_reducible refine same_upd ?_ (fun p hp => by cases p <;> first | exact absurd (hl.mem (by decide)) hp | exact rfl | exact ⟨rfl, rfl⟩ | exact ⟨rfl, rfl, rfl, rfl⟩)

theorem sendFlit_same {σ : State} {π : List Part} {at_ : Nat} {act : Nat} {f : Flit} {rt : List (Nat × Nat)} {s : State} (hl : Sub [.win, .mesh, .link, .ports, .ocl, .pair, .free] π) (h_s : Same π σ s) :
    Same π σ (sendFlit at_ act f rt s) := by
  unfold sendFlit
  repeat' first
    | with_reducible assumption
    | intro _
    | with_reducible refine goOn_same (Sub.trans (by decide) hl) ?_
    | fail_if_no_progress with_reducible refine same_upd ?_ (fun p hp => by cases p <;> first | exact absurd (hl.mem (by decide)) hp | exact rfl | exact ⟨rfl, rfl⟩ | exact ⟨rfl, rfl, rfl, rfl⟩)

theorem launchFlit_same {σ : State} {π : List Part} {at_ : Nat} {act : Nat} {f : Flit} {via : List (Nat × Nat)} {s : State} (hl : Sub [.mesh] π) (h_s : Same π σ s) :
    Same π σ (launchFlit at_ act f via s) := by
  unfold launchFlit
  repeat' first
    | with_reducible assumption
    | intro _
    | with_reducible refine keepFlight_same (Sub.trans (by decide) hl) ?_
    | fail_if_no_progress with_reducible refine same_upd ?_ (fun p hp => by cases p <;> first | exact absurd (hl.mem (by decide)) hp | exact rfl | exact ⟨rfl, rfl⟩ | exact ⟨rfl, rfl, rfl, rfl⟩)

theorem liftFlit_same {σ : State} {π : List Part} {x : Flight} {s : State} (hl : Sub [.win, .mesh, .link, .ports, .ocl, .pair, .free] π) (h_s : Same π σ s) :
    Same π σ (liftFlit x s) := by
  unfold liftFlit
  repeat' first
    | with_reducible assumption
    | intro _
    | with_reducible refine moveOn_same (Sub.trans (by decide) hl) ?_
    | with_reducible refine leave3_same (Sub.trans (by decide) hl) ?_
    | with_reducible refine passRoute_same (Sub.trans (by decide) hl) ?_
    | fail_if_no_progress with_reducible refine same_upd ?_ (fun p hp => by cases p <;> first | exact absurd (hl.mem (by decide)) hp | exact rfl | exact ⟨rfl, rfl⟩ | exact ⟨rfl, rfl, rfl, rfl⟩)

theorem takeBound_same {σ : State} {π : List Part} {dst : Nat} {g : Granule} {s : State} (hl : Sub [.win, .mesh, .link, .ports, .ocl, .pair, .free] π) (h_s : Same π σ s) :
    Same π σ (takeBound dst g s) := by
  unfold takeBound
  repeat' first
    | with_reducible assumption
    | intro _
    | with_reducible refine liftFlit_same (Sub.trans (by decide) hl) ?_
    | fail_if_no_progress with_reducible refine same_upd ?_ (fun p hp => by cases p <;> first | exact absurd (hl.mem (by decide)) hp | exact rfl | exact ⟨rfl, rfl⟩ | exact ⟨rfl, rfl, rfl, rfl⟩)
    | split

theorem queueSum_same {σ : State} {π : List Part} {r : Nat} {tree : Nat} {port : Nat} {act : Nat} {f : Flit} {s : State} (hl : Sub [.mesh] π) (h_s : Same π σ s) :
    Same π σ (queueSum r tree port act f s) := by
  unfold queueSum
  repeat' first
    | with_reducible assumption
    | intro _
    | extract_lets
    | fail_if_no_progress with_reducible refine same_upd ?_ (fun p hp => by cases p <;> first | exact absurd (hl.mem (by decide)) hp | exact rfl | exact ⟨rfl, rfl⟩ | exact ⟨rfl, rfl, rfl, rfl⟩)

theorem chargeHops_same {σ : State} {π : List Part} {c : Nat} {vc : Nat} {n : Nat} {h : Nat} {s : State} (hl : Sub [.win, .budget, .link, .ports, .ocl] π) (h_s : Same π σ s) :
    Same π σ (chargeHops c vc n h s) := by
  unfold chargeHops
  repeat' first
    | with_reducible assumption
    | intro _
    | extract_lets
    | with_reducible refine same_ite ?_ ?_
    | with_reducible refine charge_same (Sub.trans (by decide) hl) ?_
    | with_reducible refine chargeEnergy_same (Sub.trans (by decide) hl) ?_
    | split

theorem moveEffect_same {σ : State} {π : List Part} {c : Nat} {w : Dword} {env : MemEnv} {s : State} (hl : Sub [.win, .cells, .mesh, .budget, .link, .ports, .ocl, .pair, .free] π) (h_s : Same π σ s) :
    Same π σ (moveEffect c w env s) := by
  unfold moveEffect
  repeat' first
    | with_reducible assumption
    | intro _
    | extract_lets
    | with_reducible refine same_ite ?_ ?_
    | with_reducible refine reads_same (Sub.trans (by decide) hl) ?_
    | with_reducible refine forEach_same ?_ ?_
    | with_reducible refine queueSum_same (Sub.trans (by decide) hl) ?_
    | with_reducible refine launchFlit_same (Sub.trans (by decide) hl) ?_
    | with_reducible refine report_same (Sub.trans (by decide) hl) ?_
    | with_reducible refine goOn_same (Sub.trans (by decide) hl) ?_
    | with_reducible refine chargeHops_same (Sub.trans (by decide) hl) ?_
    | fail_if_no_progress with_reducible refine same_upd ?_ (fun p hp => by cases p <;> first | exact absurd (hl.mem (by decide)) hp | exact rfl | exact ⟨rfl, rfl⟩ | exact ⟨rfl, rfl, rfl, rfl⟩)
    | split

theorem execMove_same {σ : State} {π : List Part} {c : Nat} {env : MemEnv} {s : State} (hl : Sub [.win, .cells, .mesh, .budget, .link, .ports, .ocl, .pair, .free] π) (h_s : Same π σ s) :
    ∃ τ, execMove c env s = .next τ ∧ Same π σ τ := by
  refine ⟨_, rfl, ?_⟩
  repeat' first
    | with_reducible assumption
    | intro _
    | with_reducible refine issue_same (Sub.trans (by decide) hl) ?_ ?_
    | with_reducible refine moveEffect_same (Sub.trans (by decide) hl) ?_

theorem vc1Meets_same {σ : State} {π : List Part} {rs : List Nat} {s : State} (hl : Sub [.win, .link, .ports, .ocl] π) (h_s : Same π σ s) :
    Same π σ (vc1Meets rs s) := by
  unfold vc1Meets
  repeat' first
    | with_reducible assumption
    | intro _
    | with_reducible refine forEach_same ?_ ?_
    | with_reducible refine raise_same (Sub.trans (by decide) hl) ?_
    | with_reducible refine bump_same (Sub.trans (by decide) hl) ?_

theorem landWrite_same {σ : State} {π : List Part} {c : Nat} {g : Nat} {n : Nat} {v : Granule} {env : MemEnv} {s : State} (hl : Sub [.win, .cells, .counters, .cellMem, .mesh, .link, .ports, .ocl] π) (h_s : Same π σ s) :
    Same π σ (landWrite c g n v env s) := by
  unfold landWrite
  repeat' first
    | with_reducible assumption
    | intro _
    | extract_lets
    | with_reducible refine same_ite ?_ ?_
    | with_reducible refine bump_same (Sub.trans (by decide) hl) ?_
    | with_reducible refine forEach_same ?_ ?_
    | with_reducible refine report_same (Sub.trans (by decide) hl) ?_
    | with_reducible refine collide_same (Sub.trans (by decide) hl) ?_
    | with_reducible refine writeGranule_same (Sub.trans (by decide) hl) ?_
    | with_reducible refine arrive_same (Sub.trans (by decide) hl) ?_
    | split

theorem misroute_same {σ : State} {π : List Part} {c : Nat} {s : State} (hl : Sub [.mesh] π) (h_s : Same π σ s) :
    Same π σ (misroute c s) := by
  unfold misroute
  repeat' first
    | with_reducible assumption
    | intro _
    | with_reducible refine report_same (Sub.trans (by decide) hl) ?_

theorem setCrossed_same {σ : State} {π : List Part} {m : Nat} {dir : Nat} {n : Nat} {s : State} (hl : Sub [.pair] π) (h_s : Same π σ s) :
    Same π σ (setCrossed m dir n s) := by
  unfold setCrossed
  repeat' first
    | with_reducible assumption
    | intro _
    | fail_if_no_progress with_reducible refine same_upd ?_ (fun p hp => by cases p <;> first | exact absurd (hl.mem (by decide)) hp | exact rfl | exact ⟨rfl, rfl⟩ | exact ⟨rfl, rfl, rfl, rfl⟩)

theorem landFlit_same {σ : State} {π : List Part} {x : Flight} {s : State} (hl : Sub [.win, .mesh, .link, .ports, .ocl, .pair, .free] π) (h_s : Same π σ s) :
    Same π σ (landFlit x s) := by
  unfold landFlit
  repeat' first
    | with_reducible assumption
    | intro _
    | with_reducible refine setCrossed_same (Sub.trans (by decide) hl) ?_
    | with_reducible refine liftFlit_same (Sub.trans (by decide) hl) ?_
    | fail_if_no_progress with_reducible refine same_upd ?_ (fun p hp => by cases p <;> first | exact absurd (hl.mem (by decide)) hp | exact rfl | exact ⟨rfl, rfl⟩ | exact ⟨rfl, rfl, rfl, rfl⟩)
    | split

theorem flitLanding_same {σ : State} {π : List Part} {c : Nat} {f : Flit} {env : MemEnv} {s0 : State} (hl : Sub [.win, .cells, .counters, .cellMem, .mesh, .link, .ports, .ocl, .pair, .free] π) (h_s0 : Same π σ s0) :
    Same π σ (flitLanding c f env s0) := by
  unfold flitLanding
  repeat' first
    | with_reducible assumption
    | intro _
    | extract_lets
    | with_reducible refine same_ite ?_ ?_
    | with_reducible refine vc1Meets_same (Sub.trans (by decide) hl) ?_
    | with_reducible refine landFlit_same (Sub.trans (by decide) hl) ?_
    | with_reducible refine bump_same (Sub.trans (by decide) hl) ?_
    | with_reducible refine landWrite_same (Sub.trans (by decide) hl) ?_
    | with_reducible refine misroute_same (Sub.trans (by decide) hl) ?_
    | fail_if_no_progress with_reducible refine same_upd ?_ (fun p hp => by cases p <;> first | exact absurd (hl.mem (by decide)) hp | exact rfl | exact ⟨rfl, rfl⟩ | exact ⟨rfl, rfl, rfl, rfl⟩)
    | with_reducible refine same_snd_ite ?_ ?_
    | split
    | dsimp +zetaDelta only

theorem execFlitLanding_same {σ : State} {π : List Part} {c : Nat} {f : Flit} {env : MemEnv} {s : State} (hl : Sub [.win, .cells, .counters, .cellMem, .mesh, .link, .ports, .ocl, .pair, .free] π) (h_s : Same π σ s) :
    ∃ τ, execFlitLanding c f env s = .next τ ∧ Same π σ τ := by
  refine ⟨_, rfl, ?_⟩
  repeat' first
    | with_reducible assumption
    | intro _
    | with_reducible refine flitLanding_same (Sub.trans (by decide) hl) ?_

theorem treeMiss_same {σ : State} {π : List Part} {r : Nat} {s : State} (hl : Sub [.win, .link, .ports, .ocl] π) (h_s : Same π σ s) :
    Same π σ (treeMiss r s) := by
  unfold treeMiss
  repeat' first
    | with_reducible assumption
    | intro _
    | with_reducible refine raise_same (Sub.trans (by decide) hl) ?_

theorem hopEnergy_same {σ : State} {π : List Part} {act : Nat} {vc : Nat} {s : State} (hl : Sub [.win, .budget, .link, .ports, .ocl] π) (h_s : Same π σ s) :
    Same π σ (hopEnergy act vc s) := by
  unfold hopEnergy
  repeat' first
    | with_reducible assumption
    | intro _
    | with_reducible refine chargeEnergy_same (Sub.trans (by decide) hl) ?_

theorem copyTo_same {σ : State} {π : List Part} {r : Nat} {act : Nat} {f : Flit} {env : MemEnv} {port : Nat} {s : State} (hl : Sub [.win, .cells, .counters, .cellMem, .mesh, .budget, .link, .ports, .ocl] π) (h_s : Same π σ s) :
    Same π σ (copyTo r act f env port s) := by
  unfold copyTo
  repeat' first
    | with_reducible assumption
    | intro _
    | with_reducible refine same_ite ?_ ?_
    | with_reducible refine landWrite_same (Sub.trans (by decide) hl) ?_
    | with_reducible refine launchFlit_same (Sub.trans (by decide) hl) ?_
    | with_reducible refine passLink_same (Sub.trans (by decide) hl) ?_
    | with_reducible refine hopEnergy_same (Sub.trans (by decide) hl) ?_
    | fail_if_no_progress with_reducible refine same_upd ?_ (fun p hp => by cases p <;> first | exact absurd (hl.mem (by decide)) hp | exact rfl | exact ⟨rfl, rfl⟩ | exact ⟨rfl, rfl, rfl, rfl⟩)
    | split

theorem multicastCopy_same {σ : State} {π : List Part} {r : Nat} {f : Flit} {env : MemEnv} {s0 : State} (hl : Sub [.win, .cells, .counters, .cellMem, .mesh, .budget, .link, .ports, .ocl, .pair, .free] π) (h_s0 : Same π σ s0) :
    Same π σ (multicastCopy r f env s0) := by
  unfold multicastCopy
  repeat' first
    | with_reducible assumption
    | intro _
    | extract_lets
    | with_reducible refine same_ite ?_ ?_
    | with_reducible refine vc1Meets_same (Sub.trans (by decide) hl) ?_
    | with_reducible refine liftFlit_same (Sub.trans (by decide) hl) ?_
    | with_reducible refine forEach_same ?_ ?_
    | with_reducible refine copyTo_same (Sub.trans (by decide) hl) ?_
    | with_reducible refine treeMiss_same (Sub.trans (by decide) hl) ?_
    | fail_if_no_progress with_reducible refine same_upd ?_ (fun p hp => by cases p <;> first | exact absurd (hl.mem (by decide)) hp | exact rfl | exact ⟨rfl, rfl⟩ | exact ⟨rfl, rfl, rfl, rfl⟩)
    | split
    | dsimp +zetaDelta only

theorem execMulticastCopy_same {σ : State} {π : List Part} {r : Nat} {f : Flit} {env : MemEnv} {s : State} (hl : Sub [.win, .cells, .counters, .cellMem, .mesh, .budget, .link, .ports, .ocl, .pair, .free] π) (h_s : Same π σ s) :
    ∃ τ, execMulticastCopy r f env s = .next τ ∧ Same π σ τ := by
  refine ⟨_, rfl, ?_⟩
  repeat' first
    | with_reducible assumption
    | intro _
    | with_reducible refine multicastCopy_same (Sub.trans (by decide) hl) ?_

theorem popSum_same {σ : State} {π : List Part} {r : Nat} {tree : Nat} {port : Nat} {s : State} (hl : Sub [.mesh] π) (h_s : Same π σ s) :
    Same π σ (popSum r tree port s) := by
  unfold popSum
  repeat' first
    | with_reducible assumption
    | intro _
    | extract_lets
    | fail_if_no_progress with_reducible refine same_upd ?_ (fun p hp => by cases p <;> first | exact absurd (hl.mem (by decide)) hp | exact rfl | exact ⟨rfl, rfl⟩ | exact ⟨rfl, rfl, rfl, rfl⟩)
    | split
    | dsimp +zetaDelta only

theorem sendSum_same {σ : State} {π : List Part} {r : Nat} {tree : Nat} {port : Nat} {act : Nat} {f : Flit} {s : State} (hl : Sub [.win, .mesh, .budget, .link, .ports, .ocl] π) (h_s : Same π σ s) :
    Same π σ (sendSum r tree port act f s) := by
  unfold sendSum
  repeat' first
    | with_reducible assumption
    | intro _
    | extract_lets
    | with_reducible refine passLink_same (Sub.trans (by decide) hl) ?_
    | with_reducible refine queueSum_same (Sub.trans (by decide) hl) ?_
    | with_reducible refine hopEnergy_same (Sub.trans (by decide) hl) ?_
    | fail_if_no_progress with_reducible refine same_upd ?_ (fun p hp => by cases p <;> first | exact absurd (hl.mem (by decide)) hp | exact rfl | exact ⟨rfl, rfl⟩ | exact ⟨rfl, rfl, rfl, rfl⟩)
    | split
    | dsimp +zetaDelta only

theorem reductionCombine_same {σ : State} {π : List Part} {r : Nat} {tree : Nat} {env : MemEnv} {s : State} (hl : Sub [.win, .cells, .counters, .cellMem, .mesh, .prec, .budget, .link, .ports, .ocl] π) (h_s : Same π σ s) :
    Same π σ (reductionCombine r tree env s) := by
  unfold reductionCombine
  repeat' first
    | with_reducible assumption
    | intro _
    | extract_lets
    | with_reducible refine same_ite ?_ ?_
    | with_reducible refine treeMiss_same (Sub.trans (by decide) hl) ?_
    | with_reducible refine forEach_same ?_ ?_
    | with_reducible refine popSum_same (Sub.trans (by decide) hl) ?_
    | with_reducible refine report_same (Sub.trans (by decide) hl) ?_
    | with_reducible refine raise_same (Sub.trans (by decide) hl) ?_
    | with_reducible refine when_same ?_ ?_
    | with_reducible refine precise_same (Sub.trans (by decide) hl) ?_
    | with_reducible refine landWrite_same (Sub.trans (by decide) hl) ?_
    | with_reducible refine sendSum_same (Sub.trans (by decide) hl) ?_
    | fail_if_no_progress with_reducible refine same_upd ?_ (fun p hp => by cases p <;> first | exact absurd (hl.mem (by decide)) hp | exact rfl | exact ⟨rfl, rfl⟩ | exact ⟨rfl, rfl, rfl, rfl⟩)
    | with_reducible refine same_snd_ite ?_ ?_
    | split
    | dsimp +zetaDelta only

theorem execReductionCombine_same {σ : State} {π : List Part} {r : Nat} {tree : Nat} {env : MemEnv} {s : State} (hl : Sub [.win, .cells, .counters, .cellMem, .mesh, .prec, .budget, .link, .ports, .ocl] π) (h_s : Same π σ s) :
    ∃ τ, execReductionCombine r tree env s = .next τ ∧ Same π σ τ := by
  refine ⟨_, rfl, ?_⟩
  repeat' first
    | with_reducible assumption
    | intro _
    | with_reducible refine reductionCombine_same (Sub.trans (by decide) hl) ?_

theorem linkCrcError_same {σ : State} {π : List Part} {r : Nat} {port : Nat} {seq : Nat} {frame : LineFrame} {s : State} (hl : Sub [.mesh] π) (h_s : Same π σ s) :
    Same π σ (linkCrcError r port seq frame s) := by
  unfold linkCrcError
  repeat' first
    | with_reducible assumption
    | intro _
    | extract_lets
    | with_reducible refine same_ite ?_ ?_
    | with_reducible refine passLink0_same (Sub.trans (by decide) hl) ?_
    | with_reducible refine setLinkDir_same (Sub.trans (by decide) hl) ?_
    | fail_if_no_progress with_reducible refine same_upd ?_ (fun p hp => by cases p <;> first | exact absurd (hl.mem (by decide)) hp | exact rfl | exact ⟨rfl, rfl⟩ | exact ⟨rfl, rfl, rfl, rfl⟩)
    | split
    | dsimp +zetaDelta only

theorem execLinkCrcError_same {σ : State} {π : List Part} {r : Nat} {port : Nat} {seq : Nat} {frame : LineFrame} {s : State} (hl : Sub [.mesh] π) (h_s : Same π σ s) :
    ∃ τ, execLinkCrcError r port seq frame s = .next τ ∧ Same π σ τ := by
  refine ⟨_, rfl, ?_⟩
  repeat' first
    | with_reducible assumption
    | intro _
    | with_reducible refine linkCrcError_same (Sub.trans (by decide) hl) ?_

theorem nakWord_same {σ : State} {π : List Part} {r : Nat} {port : Nat} {vc0 : Bool} {seq : Nat} {s : State} (hl : Sub [.win, .mesh, .link, .ports, .ocl] π) (h_s : Same π σ s) :
    Same π σ (nakWord r port vc0 seq s) := by
  unfold nakWord
  repeat' first
    | with_reducible assumption
    | intro _
    | extract_lets
    | with_reducible refine same_ite ?_ ?_
    | with_reducible refine raise_same (Sub.trans (by decide) hl) ?_
    | with_reducible refine bump_same (Sub.trans (by decide) hl) ?_
    | with_reducible refine setLinkDir_same (Sub.trans (by decide) hl) ?_
    | split

theorem execNak_same {σ : State} {π : List Part} {r : Nat} {port : Nat} {vc0 : Bool} {seq : Nat} {s : State} (hl : Sub [.win, .mesh, .link, .ports, .ocl] π) (h_s : Same π σ s) :
    ∃ τ, execNak r port vc0 seq s = .next τ ∧ Same π σ τ := by
  refine ⟨_, rfl, ?_⟩
  repeat' first
    | with_reducible assumption
    | intro _
    | with_reducible refine nakWord_same (Sub.trans (by decide) hl) ?_

theorem meshLinkFail_same {σ : State} {π : List Part} {r : Nat} {port : Nat} {s : State} (hl : Sub [.win, .mesh, .link, .ports, .ocl] π) (h_s : Same π σ s) :
    Same π σ (meshLinkFail r port s) := by
  unfold meshLinkFail
  repeat' first
    | with_reducible assumption
    | intro _
    | extract_lets
    | with_reducible refine same_ite ?_ ?_
    | with_reducible refine report_same (Sub.trans (by decide) hl) ?_
    | with_reducible refine raise_same (Sub.trans (by decide) hl) ?_
    | with_reducible refine setLinkDir_same (Sub.trans (by decide) hl) ?_
    | fail_if_no_progress with_reducible refine same_upd ?_ (fun p hp => by cases p <;> first | exact absurd (hl.mem (by decide)) hp | exact rfl | exact ⟨rfl, rfl⟩ | exact ⟨rfl, rfl, rfl, rfl⟩)
    | split
    | dsimp +zetaDelta only

theorem execLinkFail_same {σ : State} {π : List Part} {r : Nat} {port : Nat} {s : State} (hl : Sub [.win, .mesh, .link, .ports, .ocl] π) (h_s : Same π σ s) :
    ∃ τ, execLinkFail r port s = .next τ ∧ Same π σ τ := by
  refine ⟨_, rfl, ?_⟩
  repeat' first
    | with_reducible assumption
    | intro _
    | with_reducible refine meshLinkFail_same (Sub.trans (by decide) hl) ?_

theorem replayRelease_same {σ : State} {π : List Part} {r : Nat} {port : Nat} {vc0 : Bool} {s : State} (hl : Sub [.win, .mesh, .link, .ports, .ocl, .pair, .free] π) (h_s : Same π σ s) :
    Same π σ (replayRelease r port vc0 s) := by
  unfold replayRelease
  repeat' first
    | with_reducible assumption
    | intro _
    | extract_lets
    | with_reducible refine same_ite ?_ ?_
    | with_reducible refine setLinkDir_same (Sub.trans (by decide) hl) ?_
    | with_reducible refine moveOn_same (Sub.trans (by decide) hl) ?_
    | fail_if_no_progress with_reducible refine same_upd ?_ (fun p hp => by cases p <;> first | exact absurd (hl.mem (by decide)) hp | exact rfl | exact ⟨rfl, rfl⟩ | exact ⟨rfl, rfl, rfl, rfl⟩)
    | split
    | dsimp +zetaDelta only

theorem execReplayBufferRelease_same {σ : State} {π : List Part} {r : Nat} {port : Nat} {vc0 : Bool} {s : State} (hl : Sub [.win, .mesh, .link, .ports, .ocl, .pair, .free] π) (h_s : Same π σ s) :
    ∃ τ, execReplayBufferRelease r port vc0 s = .next τ ∧ Same π σ τ := by
  refine ⟨_, rfl, ?_⟩
  repeat' first
    | with_reducible assumption
    | intro _
    | with_reducible refine replayRelease_same (Sub.trans (by decide) hl) ?_

theorem vc0Discard_same {σ : State} {π : List Part} {r : Nat} {w : Word} {s : State} (hl : Sub [.win] π) (h_s : Same π σ s) :
    Same π σ (vc0Discard r w s) := by
  unfold vc0Discard
  repeat' first
    | with_reducible assumption
    | intro _
    | extract_lets
    | with_reducible refine same_ite ?_ ?_
    | with_reducible refine bump_same (Sub.trans (by decide) hl) ?_
    | split

theorem execVc0Discard_same {σ : State} {π : List Part} {r : Nat} {w : Word} {s : State} (hl : Sub [.win] π) (h_s : Same π σ s) :
    ∃ τ, execVc0Discard r w s = .next τ ∧ Same π σ τ := by
  refine ⟨_, rfl, ?_⟩
  repeat' first
    | with_reducible assumption
    | intro _
    | with_reducible refine vc0Discard_same (Sub.trans (by decide) hl) ?_

theorem respond_same {σ : State} {π : List Part} {c : Nat} {err : Bool} {data : Option Word} {s : State} (hl : Sub [.mesh, .agent] π) (h_s : Same π σ s) :
    Same π σ (respond c err data s) := by
  unfold respond
  repeat' first
    | with_reducible assumption
    | intro _
    | extract_lets
    | with_reducible refine passRoute0_same (Sub.trans (by decide) hl) ?_
    | fail_if_no_progress with_reducible refine same_upd ?_ (fun p hp => by cases p <;> first | exact absurd (hl.mem (by decide)) hp | exact rfl | exact ⟨rfl, rfl⟩ | exact ⟨rfl, rfl, rfl, rfl⟩)

theorem cfgRead_same {σ : State} {π : List Part} {c : Nat} {addr : Nat} {s : State} (hl : Sub [.mesh, .agent] π) (h_s : Same π σ s) :
    Same π σ (cfgRead c addr s) := by
  unfold cfgRead
  repeat' first
    | with_reducible assumption
    | intro _
    | with_reducible refine same_ite ?_ ?_
    | with_reducible refine respond_same (Sub.trans (by decide) hl) ?_
    | fail_if_no_progress with_reducible refine same_upd ?_ (fun p hp => by cases p <;> first | exact absurd (hl.mem (by decide)) hp | exact rfl | exact ⟨rfl, rfl⟩ | exact ⟨rfl, rfl, rfl, rfl⟩)
    | split

theorem execCfgRead_same {σ : State} {π : List Part} {c : Nat} {addr : Nat} {s : State} (hl : Sub [.mesh, .agent] π) (h_s : Same π σ s) :
    ∃ τ, execCfgRead c addr s = .next τ ∧ Same π σ τ := by
  refine ⟨_, rfl, ?_⟩
  repeat' first
    | with_reducible assumption
    | intro _
    | with_reducible refine cfgRead_same (Sub.trans (by decide) hl) ?_

theorem setRun_same {σ : State} {π : List Part} {c : Nat} {t36 : Bool} {env : MemEnv} {s : State} (hl : Sub [.win, .cells, .mesh, .link, .ports, .ocl] π) (h_s : Same π σ s) :
    Same π σ (setRun c t36 env s) := by
  unfold setRun
  repeat' first
    | with_reducible assumption
    | intro _
    | extract_lets
    | with_reducible refine loadReads_same (Sub.trans (by decide) hl) ?_
    | with_reducible refine modCell_same (Sub.trans (by decide) hl) ?_
    | fail_if_no_progress with_reducible refine same_upd ?_ (fun p hp => by cases p <;> first | exact absurd (hl.mem (by decide)) hp | exact rfl | exact ⟨rfl, rfl⟩ | exact ⟨rfl, rfl, rfl, rfl⟩)

theorem writeSeqCtrl_same {σ : State} {π : List Part} {c : Nat} {d : Word} {env : MemEnv} {s : State} (hl : Sub [.win, .cells, .mesh, .link, .ports, .ocl] π) (h_s : Same π σ s) :
    Same π σ (writeSeqCtrl c d env s) := by
  unfold writeSeqCtrl
  repeat' first
    | with_reducible assumption
    | intro _
    | extract_lets
    | with_reducible refine same_ite ?_ ?_
    | with_reducible refine modCell_same (Sub.trans (by decide) hl) ?_
    | with_reducible refine setRun_same (Sub.trans (by decide) hl) ?_
    | fail_if_no_progress with_reducible refine same_upd ?_ (fun p hp => by cases p <;> first | exact absurd (hl.mem (by decide)) hp | exact rfl | exact ⟨rfl, rfl⟩ | exact ⟨rfl, rfl, rfl, rfl⟩)
    | split

theorem writeTable_same {σ : State} {π : List Part} {c : Nat} {red : Bool} {tree : Nat} {d : Word} {s : State} (hl : Sub [.mesh] π) (h_s : Same π σ s) :
    Same π σ (writeTable c red tree d s) := by
  unfold writeTable
  repeat' first
    | with_reducible assumption
    | intro _
    | fail_if_no_progress with_reducible refine same_upd ?_ (fun p hp => by cases p <;> first | exact absurd (hl.mem (by decide)) hp | exact rfl | exact ⟨rfl, rfl⟩ | exact ⟨rfl, rfl, rfl, rfl⟩)

theorem writeCfg_same {σ : State} {π : List Part} {c : Nat} {addr : Nat} {d : Word} {env : MemEnv} {s : State} (hl : Sub [.win, .cells, .counters, .mesh, .link, .ports, .ocl, .agent] π) (h_s : Same π σ s) :
    Same π σ (writeCfg c addr d env s) := by
  unfold writeCfg
  repeat' first
    | with_reducible assumption
    | intro _
    | with_reducible refine same_ite ?_ ?_
    | with_reducible refine respond_same (Sub.trans (by decide) hl) ?_
    | with_reducible refine writeTable_same (Sub.trans (by decide) hl) ?_
    | with_reducible refine writeSeqCtrl_same (Sub.trans (by decide) hl) ?_
    | with_reducible refine when_same ?_ ?_
    | with_reducible refine modCell_same (Sub.trans (by decide) hl) ?_
    | with_reducible refine setArrival_same (Sub.trans (by decide) hl) ?_
    | fail_if_no_progress with_reducible refine same_upd ?_ (fun p hp => by cases p <;> first | exact absurd (hl.mem (by decide)) hp | exact rfl | exact ⟨rfl, rfl⟩ | exact ⟨rfl, rfl, rfl, rfl⟩)
    | split

theorem cfgWrite_same {σ : State} {π : List Part} {c : Nat} {addr : Nat} {d : Word} {env : MemEnv} {s : State} (hl : Sub [.win, .cells, .counters, .mesh, .link, .ports, .ocl, .agent] π) (h_s : Same π σ s) :
    Same π σ (cfgWrite c addr d env s) := by
  unfold cfgWrite
  repeat' first
    | with_reducible assumption
    | intro _
    | with_reducible refine same_ite ?_ ?_
    | with_reducible refine writeCfg_same (Sub.trans (by decide) hl) ?_
    | split

theorem execCfgWrite_same {σ : State} {π : List Part} {c : Nat} {w : CfgWord} {env : MemEnv} {s : State} (hl : Sub [.win, .cells, .counters, .mesh, .link, .ports, .ocl, .agent] π) (h_s : Same π σ s) :
    ∃ τ, execCfgWrite c w env s = .next τ ∧ Same π σ τ := by
  refine ⟨_, rfl, ?_⟩
  repeat' first
    | with_reducible assumption
    | intro _
    | with_reducible refine cfgWrite_same (Sub.trans (by decide) hl) ?_

theorem fabCalderaWrite_same {σ : State} {π : List Part} {f : Nat} {v : Word} {s : State} (hl : Sub [.win, .link, .ports, .ocl] π) (h_s : Same π σ s) :
    Same π σ (fabCalderaWrite f v s) := by
  unfold fabCalderaWrite
  repeat' first
    | with_reducible assumption
    | intro _
    | with_reducible refine same_ite ?_ ?_
    | with_reducible refine raise_same (Sub.trans (by decide) hl) ?_
    | with_reducible refine wr_same (Sub.trans (by decide) hl) ?_
    | split

theorem execFabCalderaWrite_same {σ : State} {π : List Part} {f : Nat} {v : Word} {s : State} (hl : Sub [.win, .link, .ports, .ocl] π) (h_s : Same π σ s) :
    ∃ τ, execFabCalderaWrite f v s = .next τ ∧ Same π σ τ := by
  refine ⟨_, rfl, ?_⟩
  repeat' first
    | with_reducible assumption
    | intro _
    | with_reducible refine fabCalderaWrite_same (Sub.trans (by decide) hl) ?_

theorem ringFill_same {σ : State} {π : List Part} {c : Nat} {w : Word} {s : State} (hl : Sub [.cells] π) (h_s : Same π σ s) :
    Same π σ (ringFill c w s) := by
  unfold ringFill
  repeat' first
    | with_reducible assumption
    | intro _
    | extract_lets
    | with_reducible refine same_ite ?_ ?_
    | with_reducible refine modCell_same (Sub.trans (by decide) hl) ?_
    | fail_if_no_progress with_reducible refine same_upd ?_ (fun p hp => by cases p <;> first | exact absurd (hl.mem (by decide)) hp | exact rfl | exact ⟨rfl, rfl⟩ | exact ⟨rfl, rfl, rfl, rfl⟩)
    | split

theorem execRingFill_same {σ : State} {π : List Part} {c : Nat} {w : Word} {s : State} (hl : Sub [.cells] π) (h_s : Same π σ s) :
    ∃ τ, execRingFill c w s = .next τ ∧ Same π σ τ := by
  refine ⟨_, rfl, ?_⟩
  repeat' first
    | with_reducible assumption
    | intro _
    | with_reducible refine ringFill_same (Sub.trans (by decide) hl) ?_

theorem slotFill_same {σ : State} {π : List Part} {c : Nat} {w : Word} {s : State} (hl : Sub [.cells] π) (h_s : Same π σ s) :
    Same π σ (slotFill c w s) := by
  unfold slotFill
  repeat' first
    | with_reducible assumption
    | intro _
    | extract_lets
    | with_reducible refine same_ite ?_ ?_
    | with_reducible refine modCell_same (Sub.trans (by decide) hl) ?_
    | fail_if_no_progress with_reducible refine same_upd ?_ (fun p hp => by cases p <;> first | exact absurd (hl.mem (by decide)) hp | exact rfl | exact ⟨rfl, rfl⟩ | exact ⟨rfl, rfl, rfl, rfl⟩)
    | split

theorem execSlotFill_same {σ : State} {π : List Part} {c : Nat} {w : Word} {s : State} (hl : Sub [.cells] π) (h_s : Same π σ s) :
    ∃ τ, execSlotFill c w s = .next τ ∧ Same π σ τ := by
  refine ⟨_, rfl, ?_⟩
  repeat' first
    | with_reducible assumption
    | intro _
    | with_reducible refine slotFill_same (Sub.trans (by decide) hl) ?_

end Sys2Proof.Machine
end

