-- ==== Sys2Proof/Laws/FramePrec.lean ====
section
/-!
SUPPORT. The parts that may change, for every function of Machine/Prec.lean that changes the state.
-/
set_option Elab.async false
namespace Sys2Proof.Machine
open Sys2Proof

theorem setRecipeEntry_same {σ : State} {π : List Part} {r : Nat} {l : Nat} {v : Word} {s : State} (hl : Sub [.prec] π) (h_s : Same π σ s) :
    Same π σ (setRecipeEntry r l v s) := by
  unfold setRecipeEntry
  repeat' first
    | with_reducible assumption
    | intro _
    | fail_if_no_progress with_reducible refine same_upd ?_ (fun p hp => by cases p <;> first | exact absurd (hl.mem (by decide)) hp | exact rfl | exact ⟨rfl, rfl⟩ | exact ⟨rfl, rfl, rfl, rfl⟩)

theorem queueWiden_same {σ : State} {π : List Part} {m : Nat} {l : Nat} {wide : Bool} {s : State} (hl : Sub [.prec] π) (h_s : Same π σ s) :
    Same π σ (queueWiden m l wide s) := by
  unfold queueWiden
  repeat' first
    | with_reducible assumption
    | intro _
    | fail_if_no_progress with_reducible refine same_upd ?_ (fun p hp => by cases p <;> first | exact absurd (hl.mem (by decide)) hp | exact rfl | exact ⟨rfl, rfl⟩ | exact ⟨rfl, rfl, rfl, rfl⟩)

theorem keepWide_same {σ : State} {π : List Part} {m : Nat} {l : Nat} {s : State} (hl : Sub [.prec] π) (h_s : Same π σ s) :
    Same π σ (keepWide m l s) := by
  unfold keepWide
  repeat' first
    | with_reducible assumption
    | intro _
    | with_reducible refine same_ite ?_ ?_
    | fail_if_no_progress with_reducible refine same_upd ?_ (fun p hp => by cases p <;> first | exact absurd (hl.mem (by decide)) hp | exact rfl | exact ⟨rfl, rfl⟩ | exact ⟨rfl, rfl, rfl, rfl⟩)
    | split

theorem refuseWiden_same {σ : State} {π : List Part} {m : Nat} {l : Nat} {s : State} (hl : Sub [.win, .prec, .link, .ports, .ocl] π) (h_s : Same π σ s) :
    Same π σ (refuseWiden m l s) := by
  unfold refuseWiden
  repeat' first
    | with_reducible assumption
    | intro _
    | extract_lets
    | with_reducible refine same_ite ?_ ?_
    | with_reducible refine setLayerPrec_same (Sub.trans (by decide) hl) ?_
    | with_reducible refine wr_same (Sub.trans (by decide) hl) ?_
    | with_reducible refine raise_same (Sub.trans (by decide) hl) ?_
    | fail_if_no_progress with_reducible refine same_upd ?_ (fun p hp => by cases p <;> first | exact absurd (hl.mem (by decide)) hp | exact rfl | exact ⟨rfl, rfl⟩ | exact ⟨rfl, rfl, rfl, rfl⟩)
    | split

theorem grantWiden_same {σ : State} {π : List Part} {m : Nat} {l : Nat} {s : State} (hl : Sub [.win, .prec] π) (h_s : Same π σ s) :
    Same π σ (grantWiden m l s) := by
  unfold grantWiden
  repeat' first
    | with_reducible assumption
    | intro _
    | extract_lets
    | with_reducible refine setLayerPrec_same (Sub.trans (by decide) hl) ?_
    | with_reducible refine queueWiden_same (Sub.trans (by decide) hl) ?_
    | with_reducible refine wr_same (Sub.trans (by decide) hl) ?_
    | fail_if_no_progress with_reducible refine same_upd ?_ (fun p hp => by cases p <;> first | exact absurd (hl.mem (by decide)) hp | exact rfl | exact ⟨rfl, rfl⟩ | exact ⟨rfl, rfl, rfl, rfl⟩)

theorem requestWiden_same {σ : State} {π : List Part} {m : Nat} {l : Nat} {s : State} (hl : Sub [.win, .prec, .link, .ports, .ocl] π) (h_s : Same π σ s) :
    Same π σ (requestWiden m l s) := by
  unfold requestWiden
  repeat' first
    | with_reducible assumption
    | intro _
    | extract_lets
    | with_reducible refine same_ite ?_ ?_
    | with_reducible refine keepWide_same (Sub.trans (by decide) hl) ?_
    | with_reducible refine setLayerPrec_same (Sub.trans (by decide) hl) ?_
    | with_reducible refine grantWiden_same (Sub.trans (by decide) hl) ?_
    | with_reducible refine refuseWiden_same (Sub.trans (by decide) hl) ?_
    | fail_if_no_progress with_reducible refine same_upd ?_ (fun p hp => by cases p <;> first | exact absurd (hl.mem (by decide)) hp | exact rfl | exact ⟨rfl, rfl⟩ | exact ⟨rfl, rfl, rfl, rfl⟩)
    | split

theorem collectEvent_same {σ : State} {π : List Part} {e : PrecEvent} {s : State} (hl : Sub [.win, .prec, .link, .ports, .ocl] π) (h_s : Same π σ s) :
    Same π σ (collectEvent e s) := by
  unfold collectEvent
  repeat' first
    | with_reducible assumption
    | intro _
    | extract_lets
    | with_reducible refine same_ite ?_ ?_
    | with_reducible refine setLayerPrec_same (Sub.trans (by decide) hl) ?_
    | with_reducible refine raise_same (Sub.trans (by decide) hl) ?_
    | with_reducible refine requestWiden_same (Sub.trans (by decide) hl) ?_
    | fail_if_no_progress with_reducible refine same_upd ?_ (fun p hp => by cases p <;> first | exact absurd (hl.mem (by decide)) hp | exact rfl | exact ⟨rfl, rfl⟩ | exact ⟨rfl, rfl, rfl, rfl⟩)
    | split
    | dsimp +zetaDelta only

theorem collectEvents_same {σ : State} {π : List Part} {s : State} (hl : Sub [.win, .prec, .link, .ports, .ocl] π) (h_s : Same π σ s) :
    Same π σ (collectEvents s) := by
  unfold collectEvents
  repeat' first
    | with_reducible assumption
    | intro _
    | extract_lets
    | with_reducible refine forEach_same ?_ ?_
    | with_reducible refine collectEvent_same (Sub.trans (by decide) hl) ?_
    | fail_if_no_progress with_reducible refine same_upd ?_ (fun p hp => by cases p <;> first | exact absurd (hl.mem (by decide)) hp | exact rfl | exact ⟨rfl, rfl⟩ | exact ⟨rfl, rfl, rfl, rfl⟩)
    | with_reducible refine foldl_same ?_ ?_

theorem execPrecisionEventCollect_same {σ : State} {π : List Part} {s : State} (hl : Sub [.win, .prec, .link, .ports, .ocl] π) (h_s : Same π σ s) :
    ∃ τ, execPrecisionEventCollect s = .next τ ∧ Same π σ τ := by
  refine ⟨_, rfl, ?_⟩
  repeat' first
    | with_reducible assumption
    | intro _
    | with_reducible refine collectEvents_same (Sub.trans (by decide) hl) ?_

theorem widenEnd_same {σ : State} {π : List Part} {m : Nat} {l : Nat} {s : State} (hl : Sub [.prec] π) (h_s : Same π σ s) :
    Same π σ (widenEnd m l s) := by
  unfold widenEnd
  repeat' first
    | with_reducible assumption
    | intro _
    | extract_lets
    | with_reducible refine same_ite ?_ ?_
    | with_reducible refine queueWiden_same (Sub.trans (by decide) hl) ?_
    | split

theorem execWidenEnd_same {σ : State} {π : List Part} {m : Nat} {l : Nat} {s : State} (hl : Sub [.prec] π) (h_s : Same π σ s) :
    ∃ τ, execWidenEnd m l s = .next τ ∧ Same π σ τ := by
  refine ⟨_, rfl, ?_⟩
  repeat' first
    | with_reducible assumption
    | intro _
    | with_reducible refine widenEnd_same (Sub.trans (by decide) hl) ?_

theorem carryWiden_same {σ : State} {π : List Part} {s : State} (hl : Sub [.prec] π) (h_s : Same π σ s) :
    Same π σ (carryWiden s).2 := by
  unfold carryWiden
  repeat' first
    | with_reducible assumption
    | intro _
    | fail_if_no_progress with_reducible refine same_upd ?_ (fun p hp => by cases p <;> first | exact absurd (hl.mem (by decide)) hp | exact rfl | exact ⟨rfl, rfl⟩ | exact ⟨rfl, rfl, rfl, rfl⟩)
    | with_reducible refine same_snd_ite ?_ ?_
    | split

theorem keepRecipe_same {σ : State} {π : List Part} {m : Nat} {s : State} (hl : Sub [.prec] π) (h_s : Same π σ s) :
    Same π σ (keepRecipe m s) := by
  unfold keepRecipe
  repeat' first
    | with_reducible assumption
    | intro _
    | extract_lets
    | with_reducible refine same_ite ?_ ?_
    | fail_if_no_progress with_reducible refine same_upd ?_ (fun p hp => by cases p <;> first | exact absurd (hl.mem (by decide)) hp | exact rfl | exact ⟨rfl, rfl⟩ | exact ⟨rfl, rfl, rfl, rfl⟩)
    | split

theorem switchRecipe_same {σ : State} {π : List Part} {m : Nat} {s : State} (hl : Sub [.win, .prec, .link, .ports, .ocl] π) (h_s : Same π σ s) :
    Same π σ (switchRecipe m s) := by
  unfold switchRecipe
  repeat' first
    | with_reducible assumption
    | intro _
    | extract_lets
    | with_reducible refine same_ite ?_ ?_
    | with_reducible refine wr_same (Sub.trans (by decide) hl) ?_
    | with_reducible refine keepRecipe_same (Sub.trans (by decide) hl) ?_
    | with_reducible refine raise_same (Sub.trans (by decide) hl) ?_
    | split

theorem modelRecipeWrite_same {σ : State} {π : List Part} {m : Nat} {v : Word} {s : State} (hl : Sub [.win] π) (h_s : Same π σ s) :
    Same π σ (modelRecipeWrite m v s) := by
  unfold modelRecipeWrite
  repeat' first
    | with_reducible assumption
    | intro _
    | with_reducible refine same_ite ?_ ?_
    | with_reducible refine when_same ?_ ?_
    | with_reducible refine wr_same (Sub.trans (by decide) hl) ?_
    | split

theorem execModelRecipeWrite_same {σ : State} {π : List Part} {m : Nat} {v : Word} {s : State} (hl : Sub [.win] π) (h_s : Same π σ s) :
    ∃ τ, execModelRecipeWrite m v s = .next τ ∧ Same π σ τ := by
  refine ⟨_, rfl, ?_⟩
  repeat' first
    | with_reducible assumption
    | intro _
    | with_reducible refine modelRecipeWrite_same (Sub.trans (by decide) hl) ?_

theorem recipeWinDataWrite_same {σ : State} {π : List Part} {v : Word} {s : State} (hl : Sub [.win, .prec, .link, .ports, .ocl] π) (h_s : Same π σ s) :
    Same π σ (recipeWinDataWrite v s) := by
  unfold recipeWinDataWrite
  repeat' first
    | with_reducible assumption
    | intro _
    | extract_lets
    | with_reducible refine same_ite ?_ ?_
    | with_reducible refine raise_same (Sub.trans (by decide) hl) ?_
    | with_reducible refine setRecipeEntry_same (Sub.trans (by decide) hl) ?_
    | split

theorem execRecipeWinDataWrite_same {σ : State} {π : List Part} {v : Word} {s : State} (hl : Sub [.win, .prec, .link, .ports, .ocl] π) (h_s : Same π σ s) :
    ∃ τ, execRecipeWinDataWrite v s = .next τ ∧ Same π σ τ := by
  refine ⟨_, rfl, ?_⟩
  repeat' first
    | with_reducible assumption
    | intro _
    | with_reducible refine recipeWinDataWrite_same (Sub.trans (by decide) hl) ?_

end Sys2Proof.Machine
end

