-- ==== Sys2Proof/Laws/FrameHold.lean ====
section
/-!
SUPPORT. The parts that may change, for every function of Machine/Hold.lean that changes the state.
-/
set_option Elab.async false
namespace Sys2Proof.Machine
open Sys2Proof

theorem dueReads_same {σ : State} {π : List Part} {n : Nat} {c : Nat} {env : MemEnv} {s : State} (hl : Sub [.win, .cells, .mesh, .link, .ports, .ocl] π) (h_s : Same π σ s) :
    Same π σ (dueReads n c env s) := by
  unfold dueReads
  repeat' first
    | with_reducible assumption
    | intro _
    | extract_lets
    | with_reducible refine same_ite ?_ ?_
    | with_reducible refine loadReads_same (Sub.trans (by decide) hl) ?_
    | fail_if_no_progress with_reducible refine same_upd ?_ (fun p hp => by cases p <;> first | exact absurd (hl.mem (by decide)) hp | exact rfl | exact ⟨rfl, rfl⟩ | exact ⟨rfl, rfl, rfl, rfl⟩)
    | split
    | dsimp +zetaDelta only

theorem captureHold_same {σ : State} {π : List Part} {r : HoldReq} {s : State} (hl : Sub [.win] π) (h_s : Same π σ s) :
    Same π σ (captureHold r s) := by
  unfold captureHold
  repeat' first
    | with_reducible assumption
    | intro _
    | extract_lets
    | with_reducible refine same_ite ?_ ?_
    | with_reducible refine bump_same (Sub.trans (by decide) hl) ?_
    | with_reducible refine wr_same (Sub.trans (by decide) hl) ?_
    | split

theorem holdTest_same {σ : State} {π : List Part} {s : State} (hl : Sub [.win, .cells, .mesh, .sched, .link, .ports, .ocl] π) (h_s : Same π σ s) :
    Same π σ (holdTest s) := by
  unfold holdTest
  repeat' first
    | with_reducible assumption
    | intro _
    | extract_lets
    | with_reducible refine forEach_same ?_ ?_
    | with_reducible refine modCell_same (Sub.trans (by decide) hl) ?_
    | with_reducible refine dueReads_same (Sub.trans (by decide) hl) ?_
    | with_reducible refine captureHold_same (Sub.trans (by decide) hl) ?_
    | fail_if_no_progress with_reducible refine same_upd ?_ (fun p hp => by cases p <;> first | exact absurd (hl.mem (by decide)) hp | exact rfl | exact ⟨rfl, rfl⟩ | exact ⟨rfl, rfl, rfl, rfl⟩)

theorem execHoldTest_same {σ : State} {π : List Part} {s : State} (hl : Sub [.win, .cells, .mesh, .sched, .link, .ports, .ocl] π) (h_s : Same π σ s) :
    ∃ τ, execHoldTest s = .next τ ∧ Same π σ τ := by
  refine ⟨_, rfl, ?_⟩
  repeat' first
    | with_reducible assumption
    | intro _
    | with_reducible refine holdTest_same (Sub.trans (by decide) hl) ?_

theorem stallReport_same {σ : State} {π : List Part} {c : Nat} {s : State} (hl : Sub [.cells, .mesh] π) (h_s : Same π σ s) :
    Same π σ (stallReport c s) := by
  unfold stallReport
  repeat' first
    | with_reducible assumption
    | intro _
    | with_reducible refine same_ite ?_ ?_
    | with_reducible refine report_same (Sub.trans (by decide) hl) ?_
    | with_reducible refine modCell_same (Sub.trans (by decide) hl) ?_
    | fail_if_no_progress with_reducible refine same_upd ?_ (fun p hp => by cases p <;> first | exact absurd (hl.mem (by decide)) hp | exact rfl | exact ⟨rfl, rfl⟩ | exact ⟨rfl, rfl, rfl, rfl⟩)
    | split

theorem execStall_same {σ : State} {π : List Part} {c : Nat} {s : State} (hl : Sub [.cells, .mesh] π) (h_s : Same π σ s) :
    ∃ τ, execStall c s = .next τ ∧ Same π σ τ := by
  refine ⟨_, rfl, ?_⟩
  repeat' first
    | with_reducible assumption
    | intro _
    | with_reducible refine stallReport_same (Sub.trans (by decide) hl) ?_

theorem longHold_same {σ : State} {π : List Part} {s : State} (hl : Sub [.win, .sched, .link, .ports, .ocl] π) (h_s : Same π σ s) :
    Same π σ (longHold s) := by
  unfold longHold
  repeat' first
    | with_reducible assumption
    | intro _
    | with_reducible refine same_ite ?_ ?_
    | with_reducible refine raise_same (Sub.trans (by decide) hl) ?_
    | fail_if_no_progress with_reducible refine same_upd ?_ (fun p hp => by cases p <;> first | exact absurd (hl.mem (by decide)) hp | exact rfl | exact ⟨rfl, rfl⟩ | exact ⟨rfl, rfl, rfl, rfl⟩)
    | split

theorem execLongHold_same {σ : State} {π : List Part} {s : State} (hl : Sub [.win, .sched, .link, .ports, .ocl] π) (h_s : Same π σ s) :
    ∃ τ, execLongHold s = .next τ ∧ Same π σ τ := by
  refine ⟨_, rfl, ?_⟩
  repeat' first
    | with_reducible assumption
    | intro _
    | with_reducible refine longHold_same (Sub.trans (by decide) hl) ?_

theorem execHostHold_same {σ : State} {π : List Part} {b : Bool} {s : State} (hl : Sub [.win] π) (h_s : Same π σ s) :
    ∃ τ, execHostHold b s = .next τ ∧ Same π σ τ := by
  refine ⟨_, rfl, ?_⟩
  repeat' first
    | with_reducible assumption
    | intro _
    | with_reducible refine wrB_same (Sub.trans (by decide) hl) ?_

theorem extEn_same {σ : State} {π : List Part} {b : Bool} {s : State} (hl : Sub [.win, .mgmt] π) (h_s : Same π σ s) :
    Same π σ (extEn b s) := by
  unfold extEn
  repeat' first
    | with_reducible assumption
    | intro _
    | extract_lets
    | with_reducible refine same_ite ?_ ?_
    | with_reducible refine wrB_same (Sub.trans (by decide) hl) ?_
    | fail_if_no_progress with_reducible refine same_upd ?_ (fun p hp => by cases p <;> first | exact absurd (hl.mem (by decide)) hp | exact rfl | exact ⟨rfl, rfl⟩ | exact ⟨rfl, rfl, rfl, rfl⟩)
    | split

theorem execExtEn_same {σ : State} {π : List Part} {b : Bool} {s : State} (hl : Sub [.win, .mgmt] π) (h_s : Same π σ s) :
    ∃ τ, execExtEn b s = .next τ ∧ Same π σ τ := by
  refine ⟨_, rfl, ?_⟩
  repeat' first
    | with_reducible assumption
    | intro _
    | with_reducible refine extEn_same (Sub.trans (by decide) hl) ?_

end Sys2Proof.Machine
end

