-- ==== Sys2Proof/Laws/FrameKvBase.lean ====
section
/-!
SUPPORT. The parts that may change, for every function of Machine/KvBase.lean that changes the state.
-/
set_option Elab.async false
namespace Sys2Proof.Machine
open Sys2Proof

theorem countSpan_same {σ : State} {π : List Part} {wrt : Bool} {a : Nat} {n : Nat} {s : State} (hl : Sub [.win] π) (h_s : Same π σ s) :
    Same π σ (countSpan wrt a n s) := by
  unfold countSpan
  repeat' first
    | with_reducible assumption
    | intro _
    | extract_lets
    | with_reducible refine same_ite ?_ ?_
    | with_reducible refine forEach_same ?_ ?_
    | with_reducible refine bumpBy_same (Sub.trans (by decide) hl) ?_
    | split

theorem setFreeList_same {σ : State} {π : List Part} {m : Nat} {l : List Nat} {s : State} (hl : Sub [.kv] π) (h_s : Same π σ s) :
    Same π σ (setFreeList m l s) := by
  unfold setFreeList
  repeat' first
    | with_reducible assumption
    | intro _
    | fail_if_no_progress with_reducible refine same_upd ?_ (fun p hp => by cases p <;> first | exact absurd (hl.mem (by decide)) hp | exact rfl | exact ⟨rfl, rfl⟩ | exact ⟨rfl, rfl, rfl, rfl⟩)

theorem putFree_same {σ : State} {π : List Part} {m : Nat} {i : Nat} {p : Nat} {s : State} (hl : Sub [.stackMem] π) (h_s : Same π σ s) :
    Same π σ (putFree m i p s) := by
  unfold putFree
  repeat' first
    | with_reducible assumption
    | intro _
    | with_reducible refine stackPut_same (Sub.trans (by decide) hl) ?_

theorem freePages_same {σ : State} {π : List Part} {m : Nat} {ps : List Nat} {s : State} (hl : Sub [.win, .stackMem, .kv] π) (h_s : Same π σ s) :
    Same π σ (freePages m ps s) := by
  unfold freePages
  repeat' first
    | with_reducible assumption
    | intro _
    | extract_lets
    | with_reducible refine forEach_same ?_ ?_
    | with_reducible refine setFreeList_same (Sub.trans (by decide) hl) ?_
    | with_reducible refine putFree_same (Sub.trans (by decide) hl) ?_
    | with_reducible refine wr_same (Sub.trans (by decide) hl) ?_

theorem poolEnable_same {σ : State} {π : List Part} {m : Nat} {s : State} (hl : Sub [.win, .stackMem, .kv, .link, .ports, .ocl] π) (h_s : Same π σ s) :
    Same π σ (poolEnable m s) := by
  unfold poolEnable
  repeat' first
    | with_reducible assumption
    | intro _
    | with_reducible refine same_ite ?_ ?_
    | with_reducible refine raise_same (Sub.trans (by decide) hl) ?_
    | with_reducible refine freePages_same (Sub.trans (by decide) hl) ?_
    | with_reducible refine setFreeList_same (Sub.trans (by decide) hl) ?_
    | with_reducible refine wr_same (Sub.trans (by decide) hl) ?_
    | split

theorem execPoolEnable_same {σ : State} {π : List Part} {m : Nat} {s : State} (hl : Sub [.win, .stackMem, .kv, .link, .ports, .ocl] π) (h_s : Same π σ s) :
    ∃ τ, execPoolEnable m s = .next τ ∧ Same π σ τ := by
  refine ⟨_, rfl, ?_⟩
  repeat' first
    | with_reducible assumption
    | intro _
    | with_reducible refine poolEnable_same (Sub.trans (by decide) hl) ?_

theorem disablePool_same {σ : State} {π : List Part} {m : Nat} {s : State} (hl : Sub [.win, .kv] π) (h_s : Same π σ s) :
    Same π σ (disablePool m s) := by
  unfold disablePool
  repeat' first
    | with_reducible assumption
    | intro _
    | with_reducible refine setFreeList_same (Sub.trans (by decide) hl) ?_
    | with_reducible refine wr_same (Sub.trans (by decide) hl) ?_

theorem poolDisable_same {σ : State} {π : List Part} {m : Nat} {s : State} (hl : Sub [.win, .kv, .link, .ports, .ocl] π) (h_s : Same π σ s) :
    Same π σ (poolDisable m s) := by
  unfold poolDisable
  repeat' first
    | with_reducible assumption
    | intro _
    | with_reducible refine same_ite ?_ ?_
    | with_reducible refine raise_same (Sub.trans (by decide) hl) ?_
    | with_reducible refine disablePool_same (Sub.trans (by decide) hl) ?_
    | split

theorem execPoolDisable_same {σ : State} {π : List Part} {m : Nat} {s : State} (hl : Sub [.win, .kv, .link, .ports, .ocl] π) (h_s : Same π σ s) :
    ∃ τ, execPoolDisable m s = .next τ ∧ Same π σ τ := by
  refine ⟨_, rfl, ?_⟩
  repeat' first
    | with_reducible assumption
    | intro _
    | with_reducible refine poolDisable_same (Sub.trans (by decide) hl) ?_

theorem posLimitWrite_same {σ : State} {π : List Part} {m : Nat} {v : Word} {s : State} (hl : Sub [.win, .link, .ports, .ocl] π) (h_s : Same π σ s) :
    Same π σ (posLimitWrite m v s) := by
  unfold posLimitWrite
  repeat' first
    | with_reducible assumption
    | intro _
    | extract_lets
    | with_reducible refine same_ite ?_ ?_
    | with_reducible refine raise_same (Sub.trans (by decide) hl) ?_
    | with_reducible refine wr_same (Sub.trans (by decide) hl) ?_
    | split

theorem execPosLimitWrite_same {σ : State} {π : List Part} {m : Nat} {v : Word} {s : State} (hl : Sub [.win, .link, .ports, .ocl] π) (h_s : Same π σ s) :
    ∃ τ, execPosLimitWrite m v s = .next τ ∧ Same π σ τ := by
  refine ⟨_, rfl, ?_⟩
  repeat' first
    | with_reducible assumption
    | intro _
    | with_reducible refine posLimitWrite_same (Sub.trans (by decide) hl) ?_

theorem setPage_same {σ : State} {π : List Part} {q : Nat} {e : PageEntry} {s : State} (hl : Sub [.stackMem, .kv] π) (h_s : Same π σ s) :
    Same π σ (setPage q e s) := by
  unfold setPage
  repeat' first
    | with_reducible assumption
    | intro _
    | with_reducible refine stackPut_same (Sub.trans (by decide) hl) ?_
    | with_reducible refine modSeqSlot_same (Sub.trans (by decide) hl) ?_
    | fail_if_no_progress with_reducible refine same_upd ?_ (fun p hp => by cases p <;> first | exact absurd (hl.mem (by decide)) hp | exact rfl | exact ⟨rfl, rfl⟩ | exact ⟨rfl, rfl, rfl, rfl⟩)

theorem setPages_same {σ : State} {π : List Part} {q : Nat} {ps : List PageEntry} {s : State} (hl : Sub [.stackMem, .kv] π) (h_s : Same π σ s) :
    Same π σ (setPages q ps s) := by
  unfold setPages
  repeat' first
    | with_reducible assumption
    | intro _
    | with_reducible refine forEach_same ?_ ?_
    | with_reducible refine setPage_same (Sub.trans (by decide) hl) ?_

theorem clearList_same {σ : State} {π : List Part} {q : Nat} {ps : List PageEntry} {s : State} (hl : Sub [.stackMem] π) (h_s : Same π σ s) :
    Same π σ (clearList q ps s) := by
  unfold clearList
  repeat' first
    | with_reducible assumption
    | intro _
    | with_reducible refine forEach_same ?_ ?_
    | with_reducible refine stackPut_same (Sub.trans (by decide) hl) ?_

theorem takePage_same {σ : State} {π : List Part} {q p : Nat} {s t : State} (hl : Sub [.win, .kv] π) (h : takePage q s = some (p, t))
    (h_s : Same π σ s) : Same π σ t := by
  unfold takePage at h
  dsimp only at h
  split at h
  · cases h
  · cases h
    exact setSeqSlot_same (Sub.trans (by decide) hl) (wr_same (Sub.trans (by decide) hl) (wr_same (Sub.trans (by decide) hl)
      (setFreeList_same (Sub.trans (by decide) hl) h_s)))

theorem stackCopy_same {σ : State} {π : List Part} {src : Nat} {dst : Nat} {n : Nat} {s : State} (hl : Sub [.stackMem] π) (h_s : Same π σ s) :
    Same π σ (stackCopy src dst n s) := by
  unfold stackCopy
  repeat' first
    | with_reducible assumption
    | intro _
    | extract_lets
    | with_reducible refine same_ite ?_ ?_
    | fail_if_no_progress with_reducible refine same_upd ?_ (fun p hp => by cases p <;> first | exact absurd (hl.mem (by decide)) hp | exact rfl | exact ⟨rfl, rfl⟩ | exact ⟨rfl, rfl, rfl, rfl⟩)
    | with_reducible refine foldl_same ?_ ?_
    | split

theorem stackZero_same {σ : State} {π : List Part} {a : Nat} {n : Nat} {s : State} (hl : Sub [.stackMem] π) (h_s : Same π σ s) :
    Same π σ (stackZero a n s) := by
  unfold stackZero
  repeat' first
    | with_reducible assumption
    | intro _
    | fail_if_no_progress with_reducible refine same_upd ?_ (fun p hp => by cases p <;> first | exact absurd (hl.mem (by decide)) hp | exact rfl | exact ⟨rfl, rfl⟩ | exact ⟨rfl, rfl, rfl, rfl⟩)

theorem countPage_same {σ : State} {π : List Part} {wrt : Bool} {m : Nat} {n : Nat} {s : State} (hl : Sub [.win] π) (h_s : Same π σ s) :
    Same π σ (countPage wrt m n s) := by
  unfold countPage
  repeat' first
    | with_reducible assumption
    | intro _
    | with_reducible refine countSpan_same (Sub.trans (by decide) hl) ?_

theorem copyPage_same {σ : State} {π : List Part} {m : Nat} {src : Nat} {dst : Nat} {s : State} (hl : Sub [.win, .stackMem] π) (h_s : Same π σ s) :
    Same π σ (copyPage m src dst s) := by
  unfold copyPage
  repeat' first
    | with_reducible assumption
    | intro _
    | with_reducible refine countPage_same (Sub.trans (by decide) hl) ?_
    | with_reducible refine stackCopy_same (Sub.trans (by decide) hl) ?_

theorem zeroPage_same {σ : State} {π : List Part} {m : Nat} {n : Nat} {s : State} (hl : Sub [.win, .stackMem] π) (h_s : Same π σ s) :
    Same π σ (zeroPage m n s) := by
  unfold zeroPage
  repeat' first
    | with_reducible assumption
    | intro _
    | with_reducible refine countPage_same (Sub.trans (by decide) hl) ?_
    | with_reducible refine stackZero_same (Sub.trans (by decide) hl) ?_

theorem clearPages_same {σ : State} {π : List Part} {m : Nat} {handle : Nat} {ps : List PageEntry} {s : State} (hl : Sub [.kv] π) (h_s : Same π σ s) :
    Same π σ (clearPages m handle ps s) := by
  unfold clearPages
  repeat' first
    | with_reducible assumption
    | intro _
    | fail_if_no_progress with_reducible refine same_upd ?_ (fun p hp => by cases p <;> first | exact absurd (hl.mem (by decide)) hp | exact rfl | exact ⟨rfl, rfl⟩ | exact ⟨rfl, rfl, rfl, rfl⟩)

theorem returnResv_same {σ : State} {π : List Part} {m : Nat} {n : Nat} {s : State} (hl : Sub [.win] π) (h_s : Same π σ s) :
    Same π σ (returnResv m n s) := by
  unfold returnResv
  repeat' first
    | with_reducible assumption
    | intro _
    | with_reducible refine wr_same (Sub.trans (by decide) hl) ?_

theorem putSideHead_same {σ : State} {π : List Part} {m : Nat} {p : Nat} {l : Nat} {f : Option PageFmt} {s : State} (hl : Sub [.stackMem] π) (h_s : Same π σ s) :
    Same π σ (putSideHead m p l f s) := by
  unfold putSideHead
  repeat' first
    | with_reducible assumption
    | intro _
    | extract_lets
    | with_reducible refine stackPut_same (Sub.trans (by decide) hl) ?_
    | with_reducible refine forEach_same ?_ ?_
    | fail_if_no_progress with_reducible refine same_upd ?_ (fun p hp => by cases p <;> first | exact absurd (hl.mem (by decide)) hp | exact rfl | exact ⟨rfl, rfl⟩ | exact ⟨rfl, rfl, rfl, rfl⟩)
    | split
    | dsimp +zetaDelta only

theorem openPages_same {σ : State} {π : List Part} {q : Nat} {spans : List Nat} {s : State} (hl : Sub [.stackMem] π) (h_s : Same π σ s) :
    Same π σ (openPages q spans s) := by
  unfold openPages
  repeat' first
    | with_reducible assumption
    | intro _
    | extract_lets
    | with_reducible refine forEach_same ?_ ?_
    | with_reducible refine putSideHead_same (Sub.trans (by decide) hl) ?_
    | fail_if_no_progress with_reducible refine same_upd ?_ (fun p hp => by cases p <;> first | exact absurd (hl.mem (by decide)) hp | exact rfl | exact ⟨rfl, rfl⟩ | exact ⟨rfl, rfl, rfl, rfl⟩)
    | split
    | dsimp +zetaDelta only

theorem releaseSeq_same {σ : State} {π : List Part} {q : Nat} {kept : Bool} {s : State} (hl : Sub [.win, .stackMem, .kv] π) (h_s : Same π σ s) :
    Same π σ (releaseSeq q kept s) := by
  unfold releaseSeq
  repeat' first
    | with_reducible assumption
    | intro _
    | extract_lets
    | with_reducible refine same_ite ?_ ?_
    | with_reducible refine clearPages_same (Sub.trans (by decide) hl) ?_
    | with_reducible refine returnResv_same (Sub.trans (by decide) hl) ?_
    | with_reducible refine setSeqSlot_same (Sub.trans (by decide) hl) ?_
    | with_reducible refine forgetKv_same (Sub.trans (by decide) hl) ?_
    | with_reducible refine clearList_same (Sub.trans (by decide) hl) ?_
    | fail_if_no_progress with_reducible refine same_upd ?_ (fun p hp => by cases p <;> first | exact absurd (hl.mem (by decide)) hp | exact rfl | exact ⟨rfl, rfl⟩ | exact ⟨rfl, rfl, rfl, rfl⟩)
    | split

theorem ageReleases_same {σ : State} {π : List Part} {s : State} (hl : Sub [.kv] π) (h_s : Same π σ s) :
    Same π σ (ageReleases s) := by
  unfold ageReleases
  repeat' first
    | with_reducible assumption
    | intro _
    | extract_lets
    | with_reducible refine forEach_same ?_ ?_
    | with_reducible refine setSeqSlot_same (Sub.trans (by decide) hl) ?_
    | fail_if_no_progress with_reducible refine same_upd ?_ (fun p hp => by cases p <;> first | exact absurd (hl.mem (by decide)) hp | exact rfl | exact ⟨rfl, rfl⟩ | exact ⟨rfl, rfl, rfl, rfl⟩)
    | split
    | dsimp +zetaDelta only

theorem releaseFlit_same {σ : State} {π : List Part} {c : Nat} {q : Nat} {env : MemEnv} {s : State} (hl : Sub [.win, .cells, .cellMem, .mesh, .kv, .link, .ports, .ocl] π) (h_s : Same π σ s) :
    Same π σ (releaseFlit c q env s) := by
  unfold releaseFlit
  repeat' first
    | with_reducible assumption
    | intro _
    | extract_lets
    | with_reducible refine same_ite ?_ ?_
    | with_reducible refine reads_same (Sub.trans (by decide) hl) ?_
    | with_reducible refine forEach_same ?_ ?_
    | with_reducible refine writeGranule_same (Sub.trans (by decide) hl) ?_
    | fail_if_no_progress with_reducible refine same_upd ?_ (fun p hp => by cases p <;> first | exact absurd (hl.mem (by decide)) hp | exact rfl | exact ⟨rfl, rfl⟩ | exact ⟨rfl, rfl, rfl, rfl⟩)
    | split

theorem execReleaseFlit_same {σ : State} {π : List Part} {c : Nat} {x : ReleaseAsk} {s : State} (hl : Sub [.win, .cells, .cellMem, .mesh, .kv, .link, .ports, .ocl] π) (h_s : Same π σ s) :
    ∃ τ, execReleaseFlit c x s = .next τ ∧ Same π σ τ := by
  refine ⟨_, rfl, ?_⟩
  repeat' first
    | with_reducible assumption
    | intro _
    | with_reducible refine releaseFlit_same (Sub.trans (by decide) hl) ?_

end Sys2Proof.Machine
end

