-- ==== Sys2Proof/Laws/FrameRings.lean ====
section
/-!
SUPPORT. The parts that may change, for every function of Machine/Rings.lean that changes the state.
-/
set_option Elab.async false
namespace Sys2Proof.Machine
open Sys2Proof

theorem writeEntry_same {σ : State} {π : List Part} {r : Nat} {e : OutEntry} {s : State} (hl : Sub [.win, .svc, .link, .ports, .ocl] π) (h_s : Same π σ s) :
    Same π σ (writeEntry r e s) := by
  unfold writeEntry
  repeat' first
    | with_reducible assumption
    | intro _
    | extract_lets
    | with_reducible refine same_ite ?_ ?_
    | with_reducible refine setOutRing_same (Sub.trans (by decide) hl) ?_
    | with_reducible refine sendWr_same (Sub.trans (by decide) hl) ?_
    | with_reducible refine sendWrPart_same (Sub.trans (by decide) hl) ?_
    | with_reducible refine when_same ?_ ?_
    | with_reducible refine interrupt_same (Sub.trans (by decide) hl) ?_
    | fail_if_no_progress with_reducible refine same_upd ?_ (fun p hp => by cases p <;> first | exact absurd (hl.mem (by decide)) hp | exact rfl | exact ⟨rfl, rfl⟩ | exact ⟨rfl, rfl, rfl, rfl⟩)
    | split

theorem drainRing_same {σ : State} {π : List Part} {x0 : Nat} {x1 : Nat} {x2 : State} (hl : Sub [.win, .svc, .link, .ports, .ocl] π) (h_x2 : Same π σ x2) :
    Same π σ (drainRing x0 x1 x2) := by
  induction x0 generalizing x1 x2 with
  | zero => (unfold drainRing; repeat' first
      | with_reducible assumption
      | intro _
      | extract_lets
      | with_reducible refine same_ite ?_ ?_
      | with_reducible refine writeEntry_same (Sub.trans (by decide) hl) ?_
      | with_reducible refine setOutRing_same (Sub.trans (by decide) hl) ?_
      | fail_if_no_progress with_reducible refine same_upd ?_ (fun p hp => by cases p <;> first | exact absurd (hl.mem (by decide)) hp | exact rfl | exact ⟨rfl, rfl⟩ | exact ⟨rfl, rfl, rfl, rfl⟩)
      | split
      | dsimp +zetaDelta only)
  | succ _ ih => (unfold drainRing; repeat' first
      | with_reducible assumption
      | with_reducible apply ih
      | (injections; subst_vars; with_reducible apply ih)
      | intro _
      | extract_lets
      | with_reducible refine same_ite ?_ ?_
      | with_reducible refine writeEntry_same (Sub.trans (by decide) hl) ?_
      | with_reducible refine setOutRing_same (Sub.trans (by decide) hl) ?_
      | fail_if_no_progress with_reducible refine same_upd ?_ (fun p hp => by cases p <;> first | exact absurd (hl.mem (by decide)) hp | exact rfl | exact ⟨rfl, rfl⟩ | exact ⟨rfl, rfl, rfl, rfl⟩)
      | split
      | dsimp +zetaDelta only)

theorem drain_same {σ : State} {π : List Part} {r : Nat} {s : State} (hl : Sub [.win, .svc, .link, .ports, .ocl] π) (h_s : Same π σ s) :
    Same π σ (drain r s) := by
  unfold drain
  repeat' first
    | with_reducible assumption
    | intro _
    | with_reducible refine drainRing_same (Sub.trans (by decide) hl) ?_

theorem putEntry_same {σ : State} {π : List Part} {r : Nat} {e : OutEntry} {s : State} (hl : Sub [.win, .svc, .link, .ports, .ocl] π) (h_s : Same π σ s) :
    Same π σ (putEntry r e s) := by
  unfold putEntry
  repeat' first
    | with_reducible assumption
    | intro _
    | with_reducible refine drain_same (Sub.trans (by decide) hl) ?_
    | with_reducible refine setOutRing_same (Sub.trans (by decide) hl) ?_
    | fail_if_no_progress with_reducible refine same_upd ?_ (fun p hp => by cases p <;> first | exact absurd (hl.mem (by decide)) hp | exact rfl | exact ⟨rfl, rfl⟩ | exact ⟨rfl, rfl, rfl, rfl⟩)

theorem putDone_same {σ : State} {π : List Part} {r : Nat} {model : Nat} {reqId : Nat} {status : Nat} {s : State} (hl : Sub [.win, .svc, .link, .ports, .ocl] π) (h_s : Same π σ s) :
    Same π σ (putDone r model reqId status s) := by
  unfold putDone
  repeat' first
    | with_reducible assumption
    | intro _
    | with_reducible refine putEntry_same (Sub.trans (by decide) hl) ?_

theorem putCmdDone_same {σ : State} {π : List Part} {r : Nat} {model : Nat} {reqId : Nat} {status : Nat} {data : Nat} {s : State} (hl : Sub [.win, .svc, .link, .ports, .ocl] π) (h_s : Same π σ s) :
    Same π σ (putCmdDone r model reqId status data s) := by
  unfold putCmdDone
  repeat' first
    | with_reducible assumption
    | intro _
    | with_reducible refine putEntry_same (Sub.trans (by decide) hl) ?_

theorem putError_same {σ : State} {π : List Part} {r : Nat} {model : Nat} {reqId : Nat} {code : Nat} {s : State} (hl : Sub [.win, .svc, .link, .ports, .ocl] π) (h_s : Same π σ s) :
    Same π σ (putError r model reqId code s) := by
  unfold putError
  repeat' first
    | with_reducible assumption
    | intro _
    | with_reducible refine putEntry_same (Sub.trans (by decide) hl) ?_
    | with_reducible refine raise_same (Sub.trans (by decide) hl) ?_

theorem putDecision_same {σ : State} {π : List Part} {r : Nat} {model : Nat} {reqId : Nat} {code : Nat} {reason : Nat} {s : State} (hl : Sub [.win, .svc, .link, .ports, .ocl] π) (h_s : Same π σ s) :
    Same π σ (putDecision r model reqId code reason s) := by
  unfold putDecision
  repeat' first
    | with_reducible assumption
    | intro _
    | with_reducible refine putEntry_same (Sub.trans (by decide) hl) ?_

theorem reserveEntry_same {σ : State} {π : List Part} {r : Nat} {s : State} (hl : Sub [.svc] π) (h_s : Same π σ s) :
    Same π σ (reserveEntry r s) := by
  unfold reserveEntry
  repeat' first
    | with_reducible assumption
    | intro _
    | with_reducible refine setOutRing_same (Sub.trans (by decide) hl) ?_
    | fail_if_no_progress with_reducible refine same_upd ?_ (fun p hp => by cases p <;> first | exact absurd (hl.mem (by decide)) hp | exact rfl | exact ⟨rfl, rfl⟩ | exact ⟨rfl, rfl, rfl, rfl⟩)

theorem unreserve_same {σ : State} {π : List Part} {r : Nat} {s : State} (hl : Sub [.svc] π) (h_s : Same π σ s) :
    Same π σ (unreserve r s) := by
  unfold unreserve
  repeat' first
    | with_reducible assumption
    | intro _
    | with_reducible refine setOutRing_same (Sub.trans (by decide) hl) ?_
    | fail_if_no_progress with_reducible refine same_upd ?_ (fun p hp => by cases p <;> first | exact absurd (hl.mem (by decide)) hp | exact rfl | exact ⟨rfl, rfl⟩ | exact ⟨rfl, rfl, rfl, rfl⟩)

theorem modLedger_same {σ : State} {π : List Part} {i : Nat} {f : LedgerEntry → LedgerEntry} {s : State} (hl : Sub [.ledger] π) (h_s : Same π σ s) :
    Same π σ (modLedger i f s) := by
  unfold modLedger
  repeat' first
    | with_reducible assumption
    | intro _
    | with_reducible refine same_ite ?_ ?_
    | fail_if_no_progress with_reducible refine same_upd ?_ (fun p hp => by cases p <;> first | exact absurd (hl.mem (by decide)) hp | exact rfl | exact ⟨rfl, rfl⟩ | exact ⟨rfl, rfl, rfl, rfl⟩)
    | split

theorem showLedger_same {σ : State} {π : List Part} {s : State} (hl : Sub [.win] π) (h_s : Same π σ s) :
    Same π σ (showLedger s) := by
  unfold showLedger
  repeat' first
    | with_reducible assumption
    | intro _
    | with_reducible refine wr_same (Sub.trans (by decide) hl) ?_

theorem freeLedger_same {σ : State} {π : List Part} {i : Nat} {s : State} (hl : Sub [.win, .ledger] π) (h_s : Same π σ s) :
    Same π σ (freeLedger i s) := by
  unfold freeLedger
  repeat' first
    | with_reducible assumption
    | intro _
    | with_reducible refine same_ite ?_ ?_
    | with_reducible refine showLedger_same (Sub.trans (by decide) hl) ?_
    | fail_if_no_progress with_reducible refine same_upd ?_ (fun p hp => by cases p <;> first | exact absurd (hl.mem (by decide)) hp | exact rfl | exact ⟨rfl, rfl⟩ | exact ⟨rfl, rfl, rfl, rfl⟩)
    | split

theorem abandonLedger_same {σ : State} {π : List Part} {i : Nat} {s : State} (hl : Sub [.win, .ledger] π) (h_s : Same π σ s) :
    Same π σ (abandonLedger i s) := by
  unfold abandonLedger
  repeat' first
    | with_reducible assumption
    | intro _
    | with_reducible refine same_ite ?_ ?_
    | with_reducible refine showLedger_same (Sub.trans (by decide) hl) ?_
    | fail_if_no_progress with_reducible refine same_upd ?_ (fun p hp => by cases p <;> first | exact absurd (hl.mem (by decide)) hp | exact rfl | exact ⟨rfl, rfl⟩ | exact ⟨rfl, rfl, rfl, rfl⟩)
    | split

theorem settleLedger_same {σ : State} {π : List Part} {i : Nat} {s : State} (hl : Sub [.win, .ledger] π) (h_s : Same π σ s) :
    Same π σ (settleLedger i s) := by
  unfold settleLedger
  repeat' first
    | with_reducible assumption
    | intro _
    | with_reducible refine same_ite ?_ ?_
    | with_reducible refine freeLedger_same (Sub.trans (by decide) hl) ?_
    | fail_if_no_progress with_reducible refine same_upd ?_ (fun p hp => by cases p <;> first | exact absurd (hl.mem (by decide)) hp | exact rfl | exact ⟨rfl, rfl⟩ | exact ⟨rfl, rfl, rfl, rfl⟩)
    | split

theorem releaseHeld_same {σ : State} {π : List Part} {r : Nat} {e : OutEntry} {s : State} (hl : Sub [.win, .svc, .link, .ports, .ocl] π) (h_s : Same π σ s) :
    Same π σ (releaseHeld r e s) := by
  unfold releaseHeld
  repeat' first
    | with_reducible assumption
    | intro _
    | with_reducible refine writeEntry_same (Sub.trans (by decide) hl) ?_
    | with_reducible refine setOutRing_same (Sub.trans (by decide) hl) ?_
    | fail_if_no_progress with_reducible refine same_upd ?_ (fun p hp => by cases p <;> first | exact absurd (hl.mem (by decide)) hp | exact rfl | exact ⟨rfl, rfl⟩ | exact ⟨rfl, rfl, rfl, rfl⟩)

theorem flushHeldList_same {σ : State} {π : List Part} {r : Nat} {x0 : List OutEntry} {x1 : State} (hl : Sub [.win, .svc, .link, .ports, .ocl] π) (h_x1 : Same π σ x1) :
    Same π σ (flushHeldList r x0 x1) := by
  induction x0 generalizing r x1 with
  | nil => (unfold flushHeldList; repeat' first
      | with_reducible assumption
      | intro _
      | with_reducible refine same_ite ?_ ?_
      | with_reducible refine releaseHeld_same (Sub.trans (by decide) hl) ?_
      | split)
  | cons _ _ ih => (unfold flushHeldList; repeat' first
      | with_reducible assumption
      | with_reducible apply ih
      | (injections; subst_vars; with_reducible apply ih)
      | intro _
      | with_reducible refine same_ite ?_ ?_
      | with_reducible refine releaseHeld_same (Sub.trans (by decide) hl) ?_
      | split)

theorem flushHeld_same {σ : State} {π : List Part} {r : Nat} {s : State} (hl : Sub [.win, .svc, .link, .ports, .ocl] π) (h_s : Same π σ s) :
    Same π σ (flushHeld r s) := by
  unfold flushHeld
  repeat' first
    | with_reducible assumption
    | intro _
    | with_reducible refine same_ite ?_ ?_
    | with_reducible refine drain_same (Sub.trans (by decide) hl) ?_
    | with_reducible refine flushHeldList_same (Sub.trans (by decide) hl) ?_
    | split

theorem flushRings_same {σ : State} {π : List Part} {s : State} (hl : Sub [.win, .svc, .link, .ports, .ocl] π) (h_s : Same π σ s) :
    Same π σ (flushRings s) := by
  unfold flushRings
  repeat' first
    | with_reducible assumption
    | intro _
    | with_reducible refine forEach_same ?_ ?_
    | with_reducible refine flushHeld_same (Sub.trans (by decide) hl) ?_

theorem putTokens_same {σ : State} {π : List Part} {r : Nat} {e : OutEntry} {s : State} (hl : Sub [.win, .svc, .link, .ports, .ocl] π) (h_s : Same π σ s) :
    Same π σ (putTokens r e s) := by
  unfold putTokens
  repeat' first
    | with_reducible assumption
    | intro _
    | with_reducible refine flushHeld_same (Sub.trans (by decide) hl) ?_
    | with_reducible refine setOutRing_same (Sub.trans (by decide) hl) ?_
    | fail_if_no_progress with_reducible refine same_upd ?_ (fun p hp => by cases p <;> first | exact absurd (hl.mem (by decide)) hp | exact rfl | exact ⟨rfl, rfl⟩ | exact ⟨rfl, rfl, rfl, rfl⟩)

theorem deliverOne_same {σ : State} {π : List Part} {u : Undelivered} {s : State} (hl : Sub [.win, .svc, .ledger] π) (h_s : Same π σ s) :
    Same π σ (deliverOne u s) := by
  unfold deliverOne
  repeat' first
    | with_reducible assumption
    | intro _
    | extract_lets
    | with_reducible refine same_ite ?_ ?_
    | with_reducible refine bumpBy_same (Sub.trans (by decide) hl) ?_
    | with_reducible refine settleLedger_same (Sub.trans (by decide) hl) ?_
    | fail_if_no_progress with_reducible refine same_upd ?_ (fun p hp => by cases p <;> first | exact absurd (hl.mem (by decide)) hp | exact rfl | exact ⟨rfl, rfl⟩ | exact ⟨rfl, rfl, rfl, rfl⟩)
    | split

theorem deliver_same {σ : State} {π : List Part} {m : AckMark} {s : State} (hl : Sub [.win, .svc, .ledger] π) (h_s : Same π σ s) :
    Same π σ (deliver m s) := by
  unfold deliver
  repeat' first
    | with_reducible assumption
    | intro _
    | extract_lets
    | with_reducible refine setOutRing_same (Sub.trans (by decide) hl) ?_
    | with_reducible refine forEach_same ?_ ?_
    | with_reducible refine deliverOne_same (Sub.trans (by decide) hl) ?_
    | fail_if_no_progress with_reducible refine same_upd ?_ (fun p hp => by cases p <;> first | exact absurd (hl.mem (by decide)) hp | exact rfl | exact ⟨rfl, rfl⟩ | exact ⟨rfl, rfl, rfl, rfl⟩)

theorem outputRoomWrite_same {σ : State} {π : List Part} {r : Nat} {cons : Nat} {s : State} (hl : Sub [.win, .svc, .link, .ports, .ocl] π) (h_s : Same π σ s) :
    Same π σ (outputRoomWrite r cons s) := by
  unfold outputRoomWrite
  repeat' first
    | with_reducible assumption
    | intro _
    | with_reducible refine same_ite ?_ ?_
    | with_reducible refine flushHeld_same (Sub.trans (by decide) hl) ?_
    | with_reducible refine setOutRing_same (Sub.trans (by decide) hl) ?_
    | fail_if_no_progress with_reducible refine same_upd ?_ (fun p hp => by cases p <;> first | exact absurd (hl.mem (by decide)) hp | exact rfl | exact ⟨rfl, rfl⟩ | exact ⟨rfl, rfl, rfl, rfl⟩)
    | split

theorem execOutputRoomWrite_same {σ : State} {π : List Part} {r : Nat} {cons : Nat} {s : State} (hl : Sub [.win, .svc, .link, .ports, .ocl] π) (h_s : Same π σ s) :
    ∃ τ, execOutputRoomWrite r cons s = .next τ ∧ Same π σ τ := by
  refine ⟨_, rfl, ?_⟩
  repeat' first
    | with_reducible assumption
    | intro _
    | with_reducible refine outputRoomWrite_same (Sub.trans (by decide) hl) ?_

end Sys2Proof.Machine
end

