-- ==== Sys2Proof/Laws/FrameRequests.lean ====
section
/-!
SUPPORT. The parts that may change, for every function of Machine/Requests.lean that changes the state.
-/
set_option Elab.async false
namespace Sys2Proof.Machine
open Sys2Proof

theorem modRequest_same {σ : State} {π : List Part} {id : Nat} {f : Request → Request} {s : State} (hl : Sub [.svc] π) (h_s : Same π σ s) :
    Same π σ (modRequest id f s) := by
  unfold modRequest
  repeat' first
    | with_reducible assumption
    | intro _
    | with_reducible refine same_ite ?_ ?_
    | fail_if_no_progress with_reducible refine same_upd ?_ (fun p hp => by cases p <;> first | exact absurd (hl.mem (by decide)) hp | exact rfl | exact ⟨rfl, rfl⟩ | exact ⟨rfl, rfl, rfl, rfl⟩)
    | split

theorem modPfx_same {σ : State} {π : List Part} {h : Nat} {f : PfxEntry → PfxEntry} {s : State} (hl : Sub [.svc] π) (h_s : Same π σ s) :
    Same π σ (modPfx h f s) := by
  unfold modPfx
  repeat' first
    | with_reducible assumption
    | intro _
    | with_reducible refine same_ite ?_ ?_
    | fail_if_no_progress with_reducible refine same_upd ?_ (fun p hp => by cases p <;> first | exact absurd (hl.mem (by decide)) hp | exact rfl | exact ⟨rfl, rfl⟩ | exact ⟨rfl, rfl, rfl, rfl⟩)
    | split

theorem dropPfx_same {σ : State} {π : List Part} {h : Nat} {s : State} (hl : Sub [.svc] π) (h_s : Same π σ s) :
    Same π σ (dropPfx h s) := by
  unfold dropPfx
  repeat' first
    | with_reducible assumption
    | intro _
    | fail_if_no_progress with_reducible refine same_upd ?_ (fun p hp => by cases p <;> first | exact absurd (hl.mem (by decide)) hp | exact rfl | exact ⟨rfl, rfl⟩ | exact ⟨rfl, rfl, rfl, rfl⟩)

theorem finishPfx_same {σ : State} {π : List Part} {h : Nat} {s : State} (hl : Sub [.win, .svc, .link, .ports, .ocl] π) (h_s : Same π σ s) :
    Same π σ (finishPfx h s) := by
  unfold finishPfx
  repeat' first
    | with_reducible assumption
    | intro _
    | with_reducible refine forEach_same ?_ ?_
    | with_reducible refine putCmdDone_same (Sub.trans (by decide) hl) ?_
    | with_reducible refine dropPfx_same (Sub.trans (by decide) hl) ?_
    | fail_if_no_progress with_reducible refine same_upd ?_ (fun p hp => by cases p <;> first | exact absurd (hl.mem (by decide)) hp | exact rfl | exact ⟨rfl, rfl⟩ | exact ⟨rfl, rfl, rfl, rfl⟩)
    | split

theorem retirePfx_same {σ : State} {π : List Part} {h : Nat} {s : State} (hl : Sub [.win, .kv, .svc, .link, .ports, .ocl] π) (h_s : Same π σ s) :
    Same π σ (retirePfx h s) := by
  unfold retirePfx
  repeat' first
    | with_reducible assumption
    | intro _
    | with_reducible refine same_ite ?_ ?_
    | with_reducible refine finishPfx_same (Sub.trans (by decide) hl) ?_
    | with_reducible refine modPfx_same (Sub.trans (by decide) hl) ?_
    | with_reducible refine clearPages_same (Sub.trans (by decide) hl) ?_
    | fail_if_no_progress with_reducible refine same_upd ?_ (fun p hp => by cases p <;> first | exact absurd (hl.mem (by decide)) hp | exact rfl | exact ⟨rfl, rfl⟩ | exact ⟨rfl, rfl, rfl, rfl⟩)
    | split

theorem withdrawPfx_same {σ : State} {π : List Part} {h : Nat} {s : State} (hl : Sub [.win, .kv, .svc, .link, .ports, .ocl] π) (h_s : Same π σ s) :
    Same π σ (withdrawPfx h s) := by
  unfold withdrawPfx
  repeat' first
    | with_reducible assumption
    | intro _
    | with_reducible refine retirePfx_same (Sub.trans (by decide) hl) ?_
    | with_reducible refine modPfx_same (Sub.trans (by decide) hl) ?_
    | fail_if_no_progress with_reducible refine same_upd ?_ (fun p hp => by cases p <;> first | exact absurd (hl.mem (by decide)) hp | exact rfl | exact ⟨rfl, rfl⟩ | exact ⟨rfl, rfl, rfl, rfl⟩)

theorem unusePfx_same {σ : State} {π : List Part} {h : Nat} {s : State} (hl : Sub [.win, .kv, .svc, .link, .ports, .ocl] π) (h_s : Same π σ s) :
    Same π σ (unusePfx h s) := by
  unfold unusePfx
  repeat' first
    | with_reducible assumption
    | intro _
    | with_reducible refine retirePfx_same (Sub.trans (by decide) hl) ?_
    | with_reducible refine modPfx_same (Sub.trans (by decide) hl) ?_
    | fail_if_no_progress with_reducible refine same_upd ?_ (fun p hp => by cases p <;> first | exact absurd (hl.mem (by decide)) hp | exact rfl | exact ⟨rfl, rfl⟩ | exact ⟨rfl, rfl, rfl, rfl⟩)

theorem pageZeroiseDone_same {σ : State} {π : List Part} {m : Nat} {p : Nat} {s : State} (hl : Sub [.win, .stackMem, .kv, .svc, .link, .ports, .ocl] π) (h_s : Same π σ s) :
    Same π σ (pageZeroiseDone m p s) := by
  unfold pageZeroiseDone
  repeat' first
    | with_reducible assumption
    | intro _
    | extract_lets
    | with_reducible refine same_ite ?_ ?_
    | with_reducible refine zeroPage_same (Sub.trans (by decide) hl) ?_
    | with_reducible refine when_same ?_ ?_
    | with_reducible refine freePages_same (Sub.trans (by decide) hl) ?_
    | with_reducible refine finishPfx_same (Sub.trans (by decide) hl) ?_
    | fail_if_no_progress with_reducible refine same_upd ?_ (fun p hp => by cases p <;> first | exact absurd (hl.mem (by decide)) hp | exact rfl | exact ⟨rfl, rfl⟩ | exact ⟨rfl, rfl, rfl, rfl⟩)
    | split
    | dsimp +zetaDelta only

theorem execPageZeroiseDone_same {σ : State} {π : List Part} {m : Nat} {p : Nat} {s : State} (hl : Sub [.win, .stackMem, .kv, .svc, .link, .ports, .ocl] π) (h_s : Same π σ s) :
    ∃ τ, execPageZeroiseDone m p s = .next τ ∧ Same π σ τ := by
  refine ⟨_, rfl, ?_⟩
  repeat' first
    | with_reducible assumption
    | intro _
    | with_reducible refine pageZeroiseDone_same (Sub.trans (by decide) hl) ?_

theorem endEntry_same {σ : State} {π : List Part} {q : Request} {status : Nat} {s : State} (hl : Sub [.win, .svc, .link, .ports, .ocl] π) (h_s : Same π σ s) :
    Same π σ (endEntry q status s) := by
  unfold endEntry
  repeat' first
    | with_reducible assumption
    | intro _
    | with_reducible refine same_ite ?_ ?_
    | with_reducible refine putCmdDone_same (Sub.trans (by decide) hl) ?_
    | with_reducible refine putDone_same (Sub.trans (by decide) hl) ?_
    | split

theorem endRequest_same {σ : State} {π : List Part} {id : Nat} {status : Nat} {s : State} (hl : Sub [.win, .stackMem, .kv, .svc, .link, .ports, .ocl] π) (h_s : Same π σ s) :
    Same π σ (endRequest id status s) := by
  unfold endRequest
  repeat' first
    | with_reducible assumption
    | intro _
    | extract_lets
    | with_reducible refine endEntry_same (Sub.trans (by decide) hl) ?_
    | with_reducible refine when_same ?_ ?_
    | with_reducible refine raise_same (Sub.trans (by decide) hl) ?_
    | with_reducible refine bump_same (Sub.trans (by decide) hl) ?_
    | with_reducible refine releaseSeq_same (Sub.trans (by decide) hl) ?_
    | with_reducible refine unusePfx_same (Sub.trans (by decide) hl) ?_
    | with_reducible refine dropPfx_same (Sub.trans (by decide) hl) ?_
    | with_reducible refine forEach_same ?_ ?_
    | with_reducible refine putCmdDone_same (Sub.trans (by decide) hl) ?_
    | fail_if_no_progress with_reducible refine same_upd ?_ (fun p hp => by cases p <;> first | exact absurd (hl.mem (by decide)) hp | exact rfl | exact ⟨rfl, rfl⟩ | exact ⟨rfl, rfl, rfl, rfl⟩)
    | split
    | dsimp +zetaDelta only

theorem endWhenQuiet_same {σ : State} {π : List Part} {id : Nat} {status : Nat} {s : State} (hl : Sub [.win, .stackMem, .kv, .svc, .link, .ports, .ocl] π) (h_s : Same π σ s) :
    Same π σ (endWhenQuiet id status s) := by
  unfold endWhenQuiet
  repeat' first
    | with_reducible assumption
    | intro _
    | with_reducible refine same_ite ?_ ?_
    | with_reducible refine modRequest_same (Sub.trans (by decide) hl) ?_
    | with_reducible refine endRequest_same (Sub.trans (by decide) hl) ?_
    | fail_if_no_progress with_reducible refine same_upd ?_ (fun p hp => by cases p <;> first | exact absurd (hl.mem (by decide)) hp | exact rfl | exact ⟨rfl, rfl⟩ | exact ⟨rfl, rfl, rfl, rfl⟩)
    | split

theorem refuseHandle_same {σ : State} {π : List Part} {ring : Nat} {model : Nat} {reqId : Nat} {isPrefix : Bool} {s : State} (hl : Sub [.win, .svc, .link, .ports, .ocl] π) (h_s : Same π σ s) :
    Same π σ (refuseHandle ring model reqId isPrefix s) := by
  unfold refuseHandle
  repeat' first
    | with_reducible assumption
    | intro _
    | with_reducible refine same_ite ?_ ?_
    | with_reducible refine putCmdDone_same (Sub.trans (by decide) hl) ?_
    | with_reducible refine putDone_same (Sub.trans (by decide) hl) ?_
    | split

theorem loseKvPage_same {σ : State} {π : List Part} {m : Nat} {p : Nat} {s : State} (hl : Sub [.win, .stackMem, .kv, .svc, .link, .ports, .ocl] π) (h_s : Same π σ s) :
    Same π σ (loseKvPage m p s) := by
  unfold loseKvPage
  repeat' first
    | with_reducible assumption
    | intro _
    | extract_lets
    | with_reducible refine forEach_same ?_ ?_
    | with_reducible refine withdrawPfx_same (Sub.trans (by decide) hl) ?_
    | with_reducible refine endWhenQuiet_same (Sub.trans (by decide) hl) ?_
    | with_reducible refine raise_same (Sub.trans (by decide) hl) ?_
    | fail_if_no_progress with_reducible refine same_upd ?_ (fun p hp => by cases p <;> first | exact absurd (hl.mem (by decide)) hp | exact rfl | exact ⟨rfl, rfl⟩ | exact ⟨rfl, rfl, rfl, rfl⟩)

end Sys2Proof.Machine
end

