-- ==== Sys2Proof/Laws/FrameFatal.lean ====
section
/-!
SUPPORT. The parts that may change, for every function of Machine/Fatal.lean that changes the state.
-/
set_option Elab.async false
namespace Sys2Proof.Machine
open Sys2Proof

theorem dropAckWaits_same {σ : State} {π : List Part} {s : State} (hl : Sub [.ledger] π) (h_s : Same π σ s) :
    Same π σ (dropAckWaits s) := by
  unfold dropAckWaits
  repeat' first
    | with_reducible assumption
    | intro _
    | fail_if_no_progress with_reducible refine same_upd ?_ (fun p hp => by cases p <;> first | exact absurd (hl.mem (by decide)) hp | exact rfl | exact ⟨rfl, rfl⟩ | exact ⟨rfl, rfl, rfl, rfl⟩)

theorem endAll_same {σ : State} {π : List Part} {status : Nat} {s : State} (hl : Sub [.win, .stackMem, .kv, .svc, .link, .ports, .ocl] π) (h_s : Same π σ s) :
    Same π σ (endAll status s) := by
  unfold endAll
  repeat' first
    | with_reducible assumption
    | intro _
    | with_reducible refine forEach_same ?_ ?_
    | with_reducible refine endRequest_same (Sub.trans (by decide) hl) ?_

theorem endJob_same {σ : State} {π : List Part} {s : State} (hl : Sub [.win, .cells, .faults, .power] π) (h_s : Same π σ s) :
    Same π σ (endJob s) := by
  unfold endJob
  repeat' first
    | with_reducible assumption
    | intro _
    | extract_lets
    | with_reducible refine forEach_same ?_ ?_
    | with_reducible refine modCell_same (Sub.trans (by decide) hl) ?_
    | with_reducible refine wr_same (Sub.trans (by decide) hl) ?_
    | fail_if_no_progress with_reducible refine same_upd ?_ (fun p hp => by cases p <;> first | exact absurd (hl.mem (by decide)) hp | exact rfl | exact ⟨rfl, rfl⟩ | exact ⟨rfl, rfl, rfl, rfl⟩)

theorem fatalWith_same {σ : State} {π : List Part} {code : Nat} {detail : Nat} {src : Nat} {after : Durable} {s : State} (hl : Sub [.win, .cells, .stackMem, .sched, .kv, .svc, .ledger, .link, .ports, .ocl, .faults, .power, .boot, .mgmt] π) (h_s : Same π σ s) :
    Same π σ (fatalWith code detail src after s) := by
  unfold fatalWith
  repeat' first
    | with_reducible assumption
    | intro _
    | extract_lets
    | with_reducible refine same_ite ?_ ?_
    | with_reducible refine endJob_same (Sub.trans (by decide) hl) ?_
    | with_reducible refine holdFw_same (Sub.trans (by decide) hl) ?_
    | with_reducible refine sendEveryPort_same (Sub.trans (by decide) hl) ?_
    | with_reducible refine wr_same (Sub.trans (by decide) hl) ?_
    | with_reducible refine when_same ?_ ?_
    | with_reducible refine pldm_same (Sub.trans (by decide) hl) ?_
    | with_reducible refine raise_same (Sub.trans (by decide) hl) ?_
    | with_reducible refine journal_same (Sub.trans (by decide) hl) ?_
    | with_reducible refine endAll_same (Sub.trans (by decide) hl) ?_
    | with_reducible refine flushRings_same (Sub.trans (by decide) hl) ?_
    | with_reducible refine dropAckWaits_same (Sub.trans (by decide) hl) ?_
    | fail_if_no_progress with_reducible refine same_upd ?_ (fun p hp => by cases p <;> first | exact absurd (hl.mem (by decide)) hp | exact rfl | exact ⟨rfl, rfl⟩ | exact ⟨rfl, rfl, rfl, rfl⟩)
    | split

theorem fatal_same {σ : State} {π : List Part} {code : Nat} {detail : Nat} {s : State} (hl : Sub [.win, .cells, .stackMem, .sched, .kv, .svc, .ledger, .link, .ports, .ocl, .faults, .power, .boot, .mgmt] π) (h_s : Same π σ s) :
    Same π σ (fatal code detail s) := by
  unfold fatal
  repeat' first
    | with_reducible assumption
    | intro _
    | with_reducible refine fatalWith_same (Sub.trans (by decide) hl) ?_

theorem execForceFatal_same {σ : State} {π : List Part} {s : State} (hl : Sub [.win, .cells, .stackMem, .sched, .kv, .svc, .ledger, .link, .ports, .ocl, .faults, .power, .boot, .mgmt] π) (h_s : Same π σ s) :
    ∃ τ, execForceFatal s = .next τ ∧ Same π σ τ := by
  refine ⟨_, rfl, ?_⟩
  repeat' first
    | with_reducible assumption
    | intro _
    | with_reducible refine fatal_same (Sub.trans (by decide) hl) ?_

theorem execBrynodorWatchdog_same {σ : State} {π : List Part} {s : State} (hl : Sub [.win, .cells, .stackMem, .sched, .kv, .svc, .ledger, .link, .ports, .ocl, .faults, .power, .boot, .mgmt] π) (h_s : Same π σ s) :
    ∃ τ, execBrynodorWatchdog s = .next τ ∧ Same π σ τ := by
  refine ⟨_, rfl, ?_⟩
  repeat' first
    | with_reducible assumption
    | intro _
    | with_reducible refine fatal_same (Sub.trans (by decide) hl) ?_

theorem stackLost_same {σ : State} {π : List Part} {n : Nat} {s : State} (hl : Sub [.win, .cells, .stackMem, .sched, .kv, .svc, .ledger, .link, .ports, .ocl, .faults, .power, .boot, .mgmt] π) (h_s : Same π σ s) :
    Same π σ (stackLost n s) := by
  unfold stackLost
  repeat' first
    | with_reducible assumption
    | intro _
    | with_reducible refine same_ite ?_ ?_
    | with_reducible refine fatal_same (Sub.trans (by decide) hl) ?_
    | with_reducible refine wr_same (Sub.trans (by decide) hl) ?_
    | split

theorem execStackLost_same {σ : State} {π : List Part} {n : Nat} {s : State} (hl : Sub [.win, .cells, .stackMem, .sched, .kv, .svc, .ledger, .link, .ports, .ocl, .faults, .power, .boot, .mgmt] π) (h_s : Same π σ s) :
    ∃ τ, execStackLost n s = .next τ ∧ Same π σ τ := by
  refine ⟨_, rfl, ?_⟩
  repeat' first
    | with_reducible assumption
    | intro _
    | with_reducible refine stackLost_same (Sub.trans (by decide) hl) ?_

theorem oclDownTimeout_same {σ : State} {π : List Part} {s : State} (hl : Sub [.win, .cells, .stackMem, .sched, .kv, .svc, .ledger, .link, .ports, .ocl, .faults, .power, .boot, .mgmt] π) (h_s : Same π σ s) :
    Same π σ (oclDownTimeout s) := by
  unfold oclDownTimeout
  repeat' first
    | with_reducible assumption
    | intro _
    | with_reducible refine same_ite ?_ ?_
    | with_reducible refine fatal_same (Sub.trans (by decide) hl) ?_
    | split

theorem execOclDownTimeout_same {σ : State} {π : List Part} {s : State} (hl : Sub [.win, .cells, .stackMem, .sched, .kv, .svc, .ledger, .link, .ports, .ocl, .faults, .power, .boot, .mgmt] π) (h_s : Same π σ s) :
    ∃ τ, execOclDownTimeout s = .next τ ∧ Same π σ τ := by
  refine ⟨_, rfl, ?_⟩
  repeat' first
    | with_reducible assumption
    | intro _
    | with_reducible refine oclDownTimeout_same (Sub.trans (by decide) hl) ?_

theorem audit_same {σ : State} {π : List Part} {r : Nat} {port : Nat} {w : Word} {s : State} (hl : Sub [.win, .cells, .stackMem, .sched, .kv, .svc, .ledger, .link, .ports, .ocl, .faults, .power, .boot, .mgmt] π) (h_s : Same π σ s) :
    Same π σ (audit r port w s) := by
  unfold audit
  repeat' first
    | with_reducible assumption
    | intro _
    | extract_lets
    | with_reducible refine same_ite ?_ ?_
    | with_reducible refine fatal_same (Sub.trans (by decide) hl) ?_
    | split

theorem execAudit_same {σ : State} {π : List Part} {r : Nat} {port : Nat} {w : Word} {s : State} (hl : Sub [.win, .cells, .stackMem, .sched, .kv, .svc, .ledger, .link, .ports, .ocl, .faults, .power, .boot, .mgmt] π) (h_s : Same π σ s) :
    ∃ τ, execAudit r port w s = .next τ ∧ Same π σ τ := by
  refine ⟨_, rfl, ?_⟩
  repeat' first
    | with_reducible assumption
    | intro _
    | with_reducible refine audit_same (Sub.trans (by decide) hl) ?_

end Sys2Proof.Machine
end

