-- ==== Sys2Proof/Laws/FrameKv.lean ====
section
/-!
SUPPORT. The parts that may change, for every function of Machine/Kv.lean that changes the state.
-/
set_option Elab.async false
namespace Sys2Proof.Machine
open Sys2Proof

theorem kvRange_same {σ : State} {π : List Part} {r : StackReq} {s : State} (hl : Sub [.win, .mesh, .link, .ports, .ocl] π) (h_s : Same π σ s) :
    Same π σ (kvRange r s) := by
  unfold kvRange
  repeat' first
    | with_reducible assumption
    | intro _
    | with_reducible refine report_same (Sub.trans (by decide) hl) ?_
    | with_reducible refine raise_same (Sub.trans (by decide) hl) ?_

theorem kvMiss_same {σ : State} {π : List Part} {r : StackReq} {s : State} (hl : Sub [.win, .mesh, .link, .ports, .ocl] π) (h_s : Same π σ s) :
    Same π σ (kvMiss r s) := by
  unfold kvMiss
  repeat' first
    | with_reducible assumption
    | intro _
    | with_reducible refine report_same (Sub.trans (by decide) hl) ?_
    | with_reducible refine raise_same (Sub.trans (by decide) hl) ?_

theorem chargeStack_same {σ : State} {π : List Part} {r : StackReq} {n : Nat} {s : State} (hl : Sub [.win, .budget, .link, .ports, .ocl] π) (h_s : Same π σ s) :
    Same π σ (chargeStack r n s) := by
  unfold chargeStack
  repeat' first
    | with_reducible assumption
    | intro _
    | with_reducible refine charge_same (Sub.trans (by decide) hl) ?_
    | with_reducible refine chargeEnergy_same (Sub.trans (by decide) hl) ?_

theorem captureLoss_same {σ : State} {π : List Part} {n : Nat} {m : Nat} {p : Nat} {seq : Option Nat} {s : State} (hl : Sub [.win] π) (h_s : Same π σ s) :
    Same π σ (captureLoss n m p seq s) := by
  unfold captureLoss
  repeat' first
    | with_reducible assumption
    | intro _
    | with_reducible refine same_ite ?_ ?_
    | with_reducible refine wr_same (Sub.trans (by decide) hl) ?_
    | with_reducible refine wrB_same (Sub.trans (by decide) hl) ?_
    | split

theorem losePage_same {σ : State} {π : List Part} {n : Nat} {m : Nat} {p : Nat} {seq : Option Nat} {s : State} (hl : Sub [.win, .stackMem, .kv, .svc, .link, .ports, .ocl] π) (h_s : Same π σ s) :
    Same π σ (losePage n m p seq s) := by
  unfold losePage
  repeat' first
    | with_reducible assumption
    | intro _
    | with_reducible refine loseKvPage_same (Sub.trans (by decide) hl) ?_
    | with_reducible refine captureLoss_same (Sub.trans (by decide) hl) ?_

theorem askPage_same {σ : State} {π : List Part} {r : PageReq} {s : State} (hl : Sub [.win, .link, .ports, .ocl, .pair, .free] π) (h_s : Same π σ s) :
    Same π σ (askPage r s) := by
  unfold askPage
  repeat' first
    | with_reducible assumption
    | intro _
    | with_reducible refine same_ite ?_ ?_
    | with_reducible refine sendSpan_same (Sub.trans (by decide) hl) ?_
    | fail_if_no_progress with_reducible refine same_upd ?_ (fun p hp => by cases p <;> first | exact absurd (hl.mem (by decide)) hp | exact rfl | exact ⟨rfl, rfl⟩ | exact ⟨rfl, rfl, rfl, rfl⟩)
    | split

theorem badPage_same {σ : State} {π : List Part} {n : Nat} {m : Nat} {p : Nat} {l : Nat} {seq : Option Nat} {s : State} (hl : Sub [.win, .stackMem, .kv, .svc, .link, .ports, .ocl, .pair, .free] π) (h_s : Same π σ s) :
    Same π σ (badPage n m p l seq s) := by
  unfold badPage
  repeat' first
    | with_reducible assumption
    | intro _
    | with_reducible refine same_ite ?_ ?_
    | with_reducible refine askPage_same (Sub.trans (by decide) hl) ?_
    | with_reducible refine losePage_same (Sub.trans (by decide) hl) ?_
    | fail_if_no_progress with_reducible refine same_upd ?_ (fun p hp => by cases p <;> first | exact absurd (hl.mem (by decide)) hp | exact rfl | exact ⟨rfl, rfl⟩ | exact ⟨rfl, rfl, rfl, rfl⟩)
    | split

theorem stackUe_same {σ : State} {π : List Part} {c : Nat} {seq : Option Nat} {a : Nat} {s : State} (hl : Sub [.win, .stackMem, .mesh, .kv, .svc, .link, .ports, .ocl, .pair, .boot, .free] π) (h_s : Same π σ s) :
    Same π σ (stackUe c seq a s) := by
  unfold stackUe
  repeat' first
    | with_reducible assumption
    | intro _
    | extract_lets
    | with_reducible refine same_ite ?_ ?_
    | with_reducible refine raise_same (Sub.trans (by decide) hl) ?_
    | with_reducible refine bump_same (Sub.trans (by decide) hl) ?_
    | with_reducible refine wr_same (Sub.trans (by decide) hl) ?_
    | with_reducible refine journal_same (Sub.trans (by decide) hl) ?_
    | with_reducible refine sendReport_same (Sub.trans (by decide) hl) ?_
    | with_reducible refine badPage_same (Sub.trans (by decide) hl) ?_
    | fail_if_no_progress with_reducible refine same_upd ?_ (fun p hp => by cases p <;> first | exact absurd (hl.mem (by decide)) hp | exact rfl | exact ⟨rfl, rfl⟩ | exact ⟨rfl, rfl, rfl, rfl⟩)
    | split
    | dsimp +zetaDelta only

theorem retryStack_same {σ : State} {π : List Part} {env : StackEnv} {a : Nat} {s : State} (hl : Sub [.win, .link, .ports, .ocl] π) (h_s : Same π σ s) :
    Same π σ (retryStack env a s) := by
  unfold retryStack
  repeat' first
    | with_reducible assumption
    | intro _
    | extract_lets
    | with_reducible refine when_same ?_ ?_
    | with_reducible refine raise_same (Sub.trans (by decide) hl) ?_
    | with_reducible refine bumpBy_same (Sub.trans (by decide) hl) ?_

theorem correctStack_same {σ : State} {π : List Part} {a : Nat} {s : State} (hl : Sub [.win, .link, .ports, .ocl] π) (h_s : Same π σ s) :
    Same π σ (correctStack a s) := by
  unfold correctStack
  repeat' first
    | with_reducible assumption
    | intro _
    | with_reducible refine raise_same (Sub.trans (by decide) hl) ?_
    | with_reducible refine bump_same (Sub.trans (by decide) hl) ?_

theorem stackMetOf_same {σ : State} {π : List Part} {c : Nat} {seq : Option Nat} {p : Nat → Bool} {env : StackEnv} {s : State} (hl : Sub [.win, .stackMem, .mesh, .kv, .svc, .link, .ports, .ocl, .pair, .boot, .free] π) (h_s : Same π σ s) :
    Same π σ (stackMetOf c seq p env s) := by
  unfold stackMetOf
  repeat' first
    | with_reducible assumption
    | intro _
    | extract_lets
    | with_reducible refine forEach_same ?_ ?_
    | with_reducible refine retryStack_same (Sub.trans (by decide) hl) ?_
    | with_reducible refine correctStack_same (Sub.trans (by decide) hl) ?_
    | with_reducible refine stackUe_same (Sub.trans (by decide) hl) ?_

theorem stackMet_same {σ : State} {π : List Part} {c : Nat} {seq : Option Nat} {as_ : List Nat} {env : StackEnv} {s : State} (hl : Sub [.win, .stackMem, .mesh, .kv, .svc, .link, .ports, .ocl, .pair, .boot, .free] π) (h_s : Same π σ s) :
    Same π σ (stackMet c seq as_ env s) := by
  unfold stackMet
  repeat' first
    | with_reducible assumption
    | intro _
    | with_reducible refine stackMetOf_same (Sub.trans (by decide) hl) ?_

theorem replyFlits_same {σ : State} {π : List Part} {ctl : Nat} {r : StackReq} {gs : List Granule} {s : State} (hl : Sub [.win, .mesh, .budget, .link, .ports, .ocl, .pair, .free] π) (h_s : Same π σ s) :
    Same π σ (replyFlits ctl r gs s) := by
  unfold replyFlits
  repeat' first
    | with_reducible assumption
    | intro _
    | extract_lets
    | with_reducible refine charge_same (Sub.trans (by decide) hl) ?_
    | with_reducible refine chargeEnergy_same (Sub.trans (by decide) hl) ?_
    | with_reducible refine forEach_same ?_ ?_
    | with_reducible refine sendFlit_same (Sub.trans (by decide) hl) ?_
    | fail_if_no_progress with_reducible refine same_upd ?_ (fun p hp => by cases p <;> first | exact absurd (hl.mem (by decide)) hp | exact rfl | exact ⟨rfl, rfl⟩ | exact ⟨rfl, rfl, rfl, rfl⟩)

theorem ackFlit_same {σ : State} {π : List Part} {ctl : Nat} {r : StackReq} {err : Bool} {s : State} (hl : Sub [.win, .mesh, .budget, .link, .ports, .ocl, .pair, .free] π) (h_s : Same π σ s) :
    Same π σ (ackFlit ctl r err s) := by
  unfold ackFlit
  repeat' first
    | with_reducible assumption
    | intro _
    | with_reducible refine replyFlits_same (Sub.trans (by decide) hl) ?_

theorem copyShared_same {σ : State} {π : List Part} {r : StackReq} {m : Nat} {src : Nat} {dst : Nat} {env : StackEnv} {s : State} (hl : Sub [.win, .stackMem, .mesh, .kv, .svc, .link, .ports, .ocl, .pair, .boot, .free] π) (h_s : Same π σ s) :
    Same π σ (copyShared r m src dst env s) := by
  unfold copyShared
  repeat' first
    | with_reducible assumption
    | intro _
    | extract_lets
    | with_reducible refine setStackGranule_same (Sub.trans (by decide) hl) ?_
    | with_reducible refine forEach_same ?_ ?_
    | with_reducible refine copyPage_same (Sub.trans (by decide) hl) ?_
    | with_reducible refine stackMetOf_same (Sub.trans (by decide) hl) ?_

theorem countGranules_same {σ : State} {π : List Part} {wrt : Bool} {as_ : List Nat} {s : State} (hl : Sub [.win] π) (h_s : Same π σ s) :
    Same π σ (countGranules wrt as_ s) := by
  unfold countGranules
  repeat' first
    | with_reducible assumption
    | intro _
    | with_reducible refine same_ite ?_ ?_
    | with_reducible refine forEach_same ?_ ?_
    | with_reducible refine bump_same (Sub.trans (by decide) hl) ?_
    | split

theorem takeRequest_same {σ : State} {π : List Part} {ctl : Nat} {req : Granule} {data : List Granule} {s : State} (hl : Sub [.win, .mesh, .link, .ports, .ocl, .pair, .free] π) (h_s : Same π σ s) :
    Same π σ (takeRequest ctl req data s) := by
  unfold takeRequest
  repeat' first
    | with_reducible assumption
    | intro _
    | with_reducible refine same_ite ?_ ?_
    | with_reducible refine forEach_same ?_ ?_
    | with_reducible refine takeBound_same (Sub.trans (by decide) hl) ?_
    | split

theorem kvRead_same {σ : State} {π : List Part} {ctl : Nat} {req : Granule} {env : StackEnv} {s : State} (hl : Sub [.win, .stackMem, .mesh, .budget, .kv, .svc, .link, .ports, .ocl, .pair, .boot, .free] π) (h_s : Same π σ s) :
    Same π σ (kvRead ctl req env s) := by
  unfold kvRead
  repeat' first
    | with_reducible assumption
    | intro _
    | extract_lets
    | with_reducible refine same_ite ?_ ?_
    | with_reducible refine kvRange_same (Sub.trans (by decide) hl) ?_
    | with_reducible refine bumpBy_same (Sub.trans (by decide) hl) ?_
    | with_reducible refine replyFlits_same (Sub.trans (by decide) hl) ?_
    | with_reducible refine when_same ?_ ?_
    | with_reducible refine chargeStack_same (Sub.trans (by decide) hl) ?_
    | with_reducible refine kvMiss_same (Sub.trans (by decide) hl) ?_
    | with_reducible refine stackMet_same (Sub.trans (by decide) hl) ?_
    | with_reducible refine countGranules_same (Sub.trans (by decide) hl) ?_
    | fail_if_no_progress with_reducible refine same_upd ?_ (fun p hp => by cases p <;> first | exact absurd (hl.mem (by decide)) hp | exact rfl | exact ⟨rfl, rfl⟩ | exact ⟨rfl, rfl, rfl, rfl⟩)
    | split
    | dsimp +zetaDelta only

theorem execKvRead_same {σ : State} {π : List Part} {ctl : Nat} {req : Granule} {env : StackEnv} {s : State} (hl : Sub [.win, .stackMem, .mesh, .budget, .kv, .svc, .link, .ports, .ocl, .pair, .boot, .free] π) (h_s : Same π σ s) :
    ∃ τ, execKvRead ctl req env s = .next τ ∧ Same π σ τ := by
  refine ⟨_, rfl, ?_⟩
  repeat' first
    | with_reducible assumption
    | intro _
    | with_reducible refine kvRead_same (Sub.trans (by decide) hl) ?_
    | with_reducible refine takeRequest_same (Sub.trans (by decide) hl) ?_

theorem modStepSeq_same {σ : State} {π : List Part} {q : Nat} {f : StepSeq → StepSeq} {s : State} (hl : Sub [.ledger] π) (h_s : Same π σ s) :
    Same π σ (modStepSeq q f s) := by
  unfold modStepSeq
  repeat' first
    | with_reducible assumption
    | intro _
    | with_reducible refine same_ite ?_ ?_
    | fail_if_no_progress with_reducible refine same_upd ?_ (fun p hp => by cases p <;> first | exact absurd (hl.mem (by decide)) hp | exact rfl | exact ⟨rfl, rfl⟩ | exact ⟨rfl, rfl, rfl, rfl⟩)
    | split

theorem commitPage_same {σ : State} {π : List Part} {q span p : Nat} {r : StackReq} {env : StackEnv} {s t : State}
    (hl : Sub [.win, .stackMem, .mesh, .budget, .kv, .svc, .ledger, .link, .ports, .ocl, .pair, .boot, .free] π)
    (h : commitPage q span r env s = some (p, t)) (h_s : Same π σ s) : Same π σ t := by
  have fresh : ∀ x : Nat × State, (match recordedPage q span s with
      | some p => some (p, s)
      | none => (takePage q s).map fun (t : Nat × State) =>
          (t.1, chargeStack r 4 <| modStepSeq q (fun x => { x with pages := putPage ⟨span, t.1, false⟩ x.pages }) t.2)) = some x → Same π σ x.2 := by
    intro x hx
    split at hx
    · cases hx; exact h_s
    · obtain ⟨y, hy, rfl⟩ := Option.map_eq_some_iff.1 hx
      exact chargeStack_same (Sub.trans (by decide) hl) (modStepSeq_same (Sub.trans (by decide) hl) (takePage_same (Sub.trans (by decide) hl) hy h_s))
  unfold commitPage at h
  dsimp only at h
  split at h
  · split at h
    · obtain ⟨y, hy, hp⟩ := Option.map_eq_some_iff.1 h
      cases hp
      exact setPage_same (Sub.trans (by decide) hl) (bump_same (Sub.trans (by decide) hl) (chargeStack_same (Sub.trans (by decide) hl)
        (copyShared_same (Sub.trans (by decide) hl) (fresh y hy))))
    · cases h
      exact h_s
  · obtain ⟨y, hy, hp⟩ := Option.map_eq_some_iff.1 h
    cases hp
    exact setPage_same (Sub.trans (by decide) hl) (chargeStack_same (Sub.trans (by decide) hl) (fresh y hy))

theorem storeGranules_same {σ : State} {π : List Part} {x0 : List Nat} {x1 : List Granule} {x2 : State} (hl : Sub [.stackMem] π) (h_x2 : Same π σ x2) :
    Same π σ (storeGranules x0 x1 x2) := by
  induction x0 generalizing x1 x2 with
  | nil => simpa only [storeGranules] using h_x2
  | cons p l ih =>
    cases x1 with
    | nil => simpa only [storeGranules] using h_x2
    | cons g gs => exact ih (setStackGranule_same hl h_x2)

theorem ackWrites_same {σ : State} {π : List Part} {q : Nat} {n : Nat} {s : State} (hl : Sub [.ledger, .pair] π) (h_s : Same π σ s) :
    Same π σ (ackWrites q n s) := by
  unfold ackWrites
  repeat' first
    | with_reducible assumption
    | intro _
    | extract_lets
    | with_reducible refine same_ite ?_ ?_
    | fail_if_no_progress with_reducible refine same_upd ?_ (fun p hp => by cases p <;> first | exact absurd (hl.mem (by decide)) hp | exact rfl | exact ⟨rfl, rfl⟩ | exact ⟨rfl, rfl, rfl, rfl⟩)
    | split

theorem kvWrite_same {σ : State} {π : List Part} {ctl : Nat} {req : Granule} {data : List Granule} {env : StackEnv} {s : State}
    (hl : Sub [.win, .cells, .stackMem, .mesh, .sched, .budget, .kv, .svc, .ledger, .link, .ports, .ocl, .pair, .faults, .power, .boot, .mgmt, .free] π) (h_s : Same π σ s) :
    Same π σ (kvWrite ctl req data env s) := by
  unfold kvWrite
  dsimp only
  split
  · exact h_s
  · split
    · exact kvRange_same (Sub.trans (by decide) hl) h_s
    · split
      · exact fatal_same (Sub.trans (by decide) hl) h_s
      · rename_i heq
        exact ackFlit_same (Sub.trans (by decide) hl) (ackWrites_same (Sub.trans (by decide) hl) (stackMet_same (Sub.trans (by decide) hl)
          (countGranules_same (Sub.trans (by decide) hl) (storeGranules_same (Sub.trans (by decide) hl)
            (chargeStack_same (Sub.trans (by decide) hl) (commitPage_same (Sub.trans (by decide) hl) heq h_s))))))

theorem execKvWrite_same {σ : State} {π : List Part} {ctl : Nat} {req : Granule} {data : List Granule} {env : StackEnv} {s : State} (hl : Sub [.win, .cells, .stackMem, .mesh, .sched, .budget, .kv, .svc, .ledger, .link, .ports, .ocl, .pair, .faults, .power, .boot, .mgmt, .free] π) (h_s : Same π σ s) :
    ∃ τ, execKvWrite ctl req data env s = .next τ ∧ Same π σ τ := by
  refine ⟨_, rfl, ?_⟩
  repeat' first
    | with_reducible assumption
    | intro _
    | with_reducible refine kvWrite_same (Sub.trans (by decide) hl) ?_
    | with_reducible refine takeRequest_same (Sub.trans (by decide) hl) ?_

theorem linRead_same {σ : State} {π : List Part} {ctl : Nat} {req : Granule} {env : StackEnv} {s : State} (hl : Sub [.win, .stackMem, .mesh, .budget, .kv, .svc, .link, .ports, .ocl, .pair, .boot, .free] π) (h_s : Same π σ s) :
    Same π σ (linRead ctl req env s) := by
  unfold linRead
  repeat' first
    | with_reducible assumption
    | intro _
    | extract_lets
    | with_reducible refine same_ite ?_ ?_
    | with_reducible refine kvRange_same (Sub.trans (by decide) hl) ?_
    | with_reducible refine replyFlits_same (Sub.trans (by decide) hl) ?_
    | with_reducible refine stackMet_same (Sub.trans (by decide) hl) ?_
    | with_reducible refine countGranules_same (Sub.trans (by decide) hl) ?_
    | with_reducible refine chargeStack_same (Sub.trans (by decide) hl) ?_
    | split

theorem execLinRead_same {σ : State} {π : List Part} {ctl : Nat} {req : Granule} {env : StackEnv} {s : State} (hl : Sub [.win, .stackMem, .mesh, .budget, .kv, .svc, .link, .ports, .ocl, .pair, .boot, .free] π) (h_s : Same π σ s) :
    ∃ τ, execLinRead ctl req env s = .next τ ∧ Same π σ τ := by
  refine ⟨_, rfl, ?_⟩
  repeat' first
    | with_reducible assumption
    | intro _
    | with_reducible refine linRead_same (Sub.trans (by decide) hl) ?_
    | with_reducible refine takeRequest_same (Sub.trans (by decide) hl) ?_

theorem linWrite_same {σ : State} {π : List Part} {ctl : Nat} {req : Granule} {data : List Granule} {env : StackEnv} {s : State} (hl : Sub [.win, .stackMem, .mesh, .budget, .kv, .svc, .link, .ports, .ocl, .pair, .boot, .free] π) (h_s : Same π σ s) :
    Same π σ (linWrite ctl req data env s) := by
  unfold linWrite
  repeat' first
    | with_reducible assumption
    | intro _
    | extract_lets
    | with_reducible refine same_ite ?_ ?_
    | with_reducible refine kvRange_same (Sub.trans (by decide) hl) ?_
    | with_reducible refine storeGranules_same (Sub.trans (by decide) hl) ?_
    | with_reducible refine chargeStack_same (Sub.trans (by decide) hl) ?_
    | with_reducible refine stackMet_same (Sub.trans (by decide) hl) ?_
    | with_reducible refine countGranules_same (Sub.trans (by decide) hl) ?_
    | with_reducible refine ackFlit_same (Sub.trans (by decide) hl) ?_
    | with_reducible refine bumpBy_same (Sub.trans (by decide) hl) ?_
    | fail_if_no_progress with_reducible refine same_upd ?_ (fun p hp => by cases p <;> first | exact absurd (hl.mem (by decide)) hp | exact rfl | exact ⟨rfl, rfl⟩ | exact ⟨rfl, rfl, rfl, rfl⟩)
    | split

theorem execLinWrite_same {σ : State} {π : List Part} {ctl : Nat} {req : Granule} {data : List Granule} {env : StackEnv} {s : State} (hl : Sub [.win, .stackMem, .mesh, .budget, .kv, .svc, .link, .ports, .ocl, .pair, .boot, .free] π) (h_s : Same π σ s) :
    ∃ τ, execLinWrite ctl req data env s = .next τ ∧ Same π σ τ := by
  refine ⟨_, rfl, ?_⟩
  repeat' first
    | with_reducible assumption
    | intro _
    | with_reducible refine linWrite_same (Sub.trans (by decide) hl) ?_
    | with_reducible refine takeRequest_same (Sub.trans (by decide) hl) ?_

theorem patrolRead_same {σ : State} {π : List Part} {n : Nat} {t : Nat} {env : StackEnv} {s : State} (hl : Sub [.win, .stackMem, .mesh, .budget, .kv, .svc, .link, .ports, .ocl, .pair, .boot, .now, .free] π) (h_s : Same π σ s) :
    Same π σ (patrolRead n t env s) := by
  unfold patrolRead
  repeat' first
    | with_reducible assumption
    | intro _
    | extract_lets
    | with_reducible refine same_ite ?_ ?_
    | with_reducible refine chargeEnergy_same (Sub.trans (by decide) hl) ?_
    | with_reducible refine charge_same (Sub.trans (by decide) hl) ?_
    | with_reducible refine atTime_same (Sub.trans (by decide) hl) ?_
    | with_reducible refine stackMet_same (Sub.trans (by decide) hl) ?_
    | with_reducible refine wr_same (Sub.trans (by decide) hl) ?_
    | with_reducible refine when_same ?_ ?_
    | with_reducible refine bump_same (Sub.trans (by decide) hl) ?_
    | fail_if_no_progress with_reducible refine same_upd ?_ (fun p hp => by cases p <;> first | exact absurd (hl.mem (by decide)) hp | exact rfl | exact ⟨rfl, rfl⟩ | exact ⟨rfl, rfl, rfl, rfl⟩)
    | split

theorem execPatrolRead_same {σ : State} {π : List Part} {n : Nat} {t : Nat} {env : StackEnv} {s : State} (hl : Sub [.win, .stackMem, .mesh, .budget, .kv, .svc, .link, .ports, .ocl, .pair, .boot, .now, .free] π) (h_s : Same π σ s) :
    ∃ τ, execPatrolRead n t env s = .next τ ∧ Same π σ τ := by
  refine ⟨_, rfl, ?_⟩
  repeat' first
    | with_reducible assumption
    | intro _
    | with_reducible refine patrolRead_same (Sub.trans (by decide) hl) ?_

theorem stackScrubLate_same {σ : State} {π : List Part} {n : Nat} {t : Nat} {s : State} (hl : Sub [.win, .link, .ports, .ocl, .now] π) (h_s : Same π σ s) :
    Same π σ (stackScrubLate n t s) := by
  unfold stackScrubLate
  repeat' first
    | with_reducible assumption
    | intro _
    | with_reducible refine same_ite ?_ ?_
    | with_reducible refine raise_same (Sub.trans (by decide) hl) ?_
    | with_reducible refine atTime_same (Sub.trans (by decide) hl) ?_
    | split

theorem execStackScrubLate_same {σ : State} {π : List Part} {n : Nat} {t : Nat} {s : State} (hl : Sub [.win, .link, .ports, .ocl, .now] π) (h_s : Same π σ s) :
    ∃ τ, execStackScrubLate n t s = .next τ ∧ Same π σ τ := by
  refine ⟨_, rfl, ?_⟩
  repeat' first
    | with_reducible assumption
    | intro _
    | with_reducible refine stackScrubLate_same (Sub.trans (by decide) hl) ?_

end Sys2Proof.Machine
end

