-- ==== Sys2Proof/Laws/FrameTune.lean ====
section
/-!
SUPPORT. The parts that may change, for every function of Machine/Tune.lean that changes the state.
-/
set_option Elab.async false
namespace Sys2Proof.Machine
open Sys2Proof

theorem tuneRefuse_same {σ : State} {π : List Part} {s : State} (hl : Sub [.win, .link, .ports, .ocl] π) (h_s : Same π σ s) :
    Same π σ (tuneRefuse s) := by
  unfold tuneRefuse
  repeat' first
    | with_reducible assumption
    | intro _
    | with_reducible refine raise_same (Sub.trans (by decide) hl) ?_

theorem watchLine_same {σ : State} {π : List Part} {addr : Nat} {use : ReadUse} {s : State} (hl : Sub [.ocl] π) (h_s : Same π σ s) :
    Same π σ (watchLine addr use s) := by
  unfold watchLine
  repeat' first
    | with_reducible assumption
    | intro _
    | extract_lets
    | fail_if_no_progress with_reducible refine same_upd ?_ (fun p hp => by cases p <;> first | exact absurd (hl.mem (by decide)) hp | exact rfl | exact ⟨rfl, rfl⟩ | exact ⟨rfl, rfl, rfl, rfl⟩)

theorem watchRing_same {σ : State} {π : List Part} {k : Nat} {s : State} (hl : Sub [.win, .link, .ports, .ocl] π) (h_s : Same π σ s) :
    Same π σ (watchRing k s) := by
  unfold watchRing
  repeat' first
    | with_reducible assumption
    | intro _
    | with_reducible refine same_ite ?_ ?_
    | with_reducible refine hostRead_same (Sub.trans (by decide) hl) ?_
    | with_reducible refine watchLine_same (Sub.trans (by decide) hl) ?_
    | split

theorem unwatchRing_same {σ : State} {π : List Part} {k : Nat} {s : State} (hl : Sub [.win, .link, .ports, .ocl] π) (h_s : Same π σ s) :
    Same π σ (unwatchRing k s) := by
  unfold unwatchRing
  repeat' first
    | with_reducible assumption
    | intro _
    | extract_lets
    | with_reducible refine same_ite ?_ ?_
    | with_reducible refine sendUnwatch_same (Sub.trans (by decide) hl) ?_
    | fail_if_no_progress with_reducible refine same_upd ?_ (fun p hp => by cases p <;> first | exact absurd (hl.mem (by decide)) hp | exact rfl | exact ⟨rfl, rfl⟩ | exact ⟨rfl, rfl, rfl, rfl⟩)
    | split

theorem watchTune_same {σ : State} {π : List Part} {s : State} (hl : Sub [.win, .link, .ports, .ocl] π) (h_s : Same π σ s) :
    Same π σ (watchTune s) := by
  unfold watchTune
  repeat' first
    | with_reducible assumption
    | intro _
    | with_reducible refine same_ite ?_ ?_
    | with_reducible refine unwatchRing_same (Sub.trans (by decide) hl) ?_
    | with_reducible refine watchRing_same (Sub.trans (by decide) hl) ?_
    | split

theorem tuneEnd_same {σ : State} {π : List Part} {st : Nat} {fail : Nat} {s : State} (hl : Sub [.win, .link, .ports, .ocl] π) (h_s : Same π σ s) :
    Same π σ (tuneEnd st fail s) := by
  unfold tuneEnd
  repeat' first
    | with_reducible assumption
    | intro _
    | with_reducible refine watchTune_same (Sub.trans (by decide) hl) ?_
    | with_reducible refine raise_same (Sub.trans (by decide) hl) ?_
    | with_reducible refine wr_same (Sub.trans (by decide) hl) ?_

theorem writeExample_same {σ : State} {π : List Part} {i : Nat} {b : Nat} {n : Nat} {v : Nat} {s : State} (hl : Sub [.win, .link, .ports, .ocl] π) (h_s : Same π σ s) :
    Same π σ (writeExample i b n v s) := by
  unfold writeExample
  repeat' first
    | with_reducible assumption
    | intro _
    | with_reducible refine sendWrPart_same (Sub.trans (by decide) hl) ?_

theorem writeTuneCons_same {σ : State} {π : List Part} {c : Nat} {s : State} (hl : Sub [.win, .tune, .link, .ports, .ocl] π) (h_s : Same π σ s) :
    Same π σ (writeTuneCons c s) := by
  unfold writeTuneCons
  repeat' first
    | with_reducible assumption
    | intro _
    | with_reducible refine sendWrPart_same (Sub.trans (by decide) hl) ?_
    | fail_if_no_progress with_reducible refine same_upd ?_ (fun p hp => by cases p <;> first | exact absurd (hl.mem (by decide)) hp | exact rfl | exact ⟨rfl, rfl⟩ | exact ⟨rfl, rfl, rfl, rfl⟩)

theorem rewind_same {σ : State} {π : List Part} {i : Nat} {s : State} (hl : Sub [.tune] π) (h_s : Same π σ s) :
    Same π σ (rewind i s) := by
  unfold rewind
  repeat' first
    | with_reducible assumption
    | intro _
    | fail_if_no_progress with_reducible refine same_upd ?_ (fun p hp => by cases p <;> first | exact absurd (hl.mem (by decide)) hp | exact rfl | exact ⟨rfl, rfl⟩ | exact ⟨rfl, rfl, rfl, rfl⟩)

theorem markDiscarded_same {σ : State} {π : List Part} {es : List Example} {s : State} (hl : Sub [.win, .link, .ports, .ocl] π) (h_s : Same π σ s) :
    Same π σ (markDiscarded es s) := by
  unfold markDiscarded
  repeat' first
    | with_reducible assumption
    | intro _
    | with_reducible refine raise_same (Sub.trans (by decide) hl) ?_
    | with_reducible refine forEach_same ?_ ?_
    | with_reducible refine writeExample_same (Sub.trans (by decide) hl) ?_

theorem discardGroup_same {σ : State} {π : List Part} {s : State} (hl : Sub [.win, .tune, .link, .ports, .ocl] π) (h_s : Same π σ s) :
    Same π σ (discardGroup s) := by
  unfold discardGroup
  repeat' first
    | with_reducible assumption
    | intro _
    | with_reducible refine rewind_same (Sub.trans (by decide) hl) ?_
    | with_reducible refine markDiscarded_same (Sub.trans (by decide) hl) ?_

theorem tuneRun_same {σ : State} {π : List Part} {s : State} (hl : Sub [.win, .link, .ports, .ocl] π) (h_s : Same π σ s) :
    Same π σ (tuneRun s) := by
  unfold tuneRun
  repeat' first
    | with_reducible assumption
    | intro _
    | with_reducible refine same_ite ?_ ?_
    | with_reducible refine watchTune_same (Sub.trans (by decide) hl) ?_
    | with_reducible refine wr_same (Sub.trans (by decide) hl) ?_
    | with_reducible refine tuneRefuse_same (Sub.trans (by decide) hl) ?_
    | split

theorem execRun_same {σ : State} {π : List Part} {s : State} (hl : Sub [.win, .link, .ports, .ocl] π) (h_s : Same π σ s) :
    ∃ τ, execRun s = .next τ ∧ Same π σ τ := by
  refine ⟨_, rfl, ?_⟩
  repeat' first
    | with_reducible assumption
    | intro _
    | with_reducible refine tuneRun_same (Sub.trans (by decide) hl) ?_

theorem tunePause_same {σ : State} {π : List Part} {s : State} (hl : Sub [.win, .link, .ports, .ocl] π) (h_s : Same π σ s) :
    Same π σ (tunePause s) := by
  unfold tunePause
  repeat' first
    | with_reducible assumption
    | intro _
    | with_reducible refine same_ite ?_ ?_
    | with_reducible refine wr_same (Sub.trans (by decide) hl) ?_
    | with_reducible refine tuneRefuse_same (Sub.trans (by decide) hl) ?_
    | split

theorem execPause_same {σ : State} {π : List Part} {s : State} (hl : Sub [.win, .link, .ports, .ocl] π) (h_s : Same π σ s) :
    ∃ τ, execPause s = .next τ ∧ Same π σ τ := by
  refine ⟨_, rfl, ?_⟩
  repeat' first
    | with_reducible assumption
    | intro _
    | with_reducible refine tunePause_same (Sub.trans (by decide) hl) ?_

theorem tuneAbort_same {σ : State} {π : List Part} {s : State} (hl : Sub [.win, .tune, .link, .ports, .ocl] π) (h_s : Same π σ s) :
    Same π σ (tuneAbort s) := by
  unfold tuneAbort
  repeat' first
    | with_reducible assumption
    | intro _
    | extract_lets
    | with_reducible refine same_ite ?_ ?_
    | with_reducible refine discardGroup_same (Sub.trans (by decide) hl) ?_
    | with_reducible refine tuneEnd_same (Sub.trans (by decide) hl) ?_
    | with_reducible refine wr_same (Sub.trans (by decide) hl) ?_
    | with_reducible refine tuneRefuse_same (Sub.trans (by decide) hl) ?_
    | split

theorem execAbort_same {σ : State} {π : List Part} {s : State} (hl : Sub [.win, .tune, .link, .ports, .ocl] π) (h_s : Same π σ s) :
    ∃ τ, execAbort s = .next τ ∧ Same π σ τ := by
  refine ⟨_, rfl, ?_⟩
  repeat' first
    | with_reducible assumption
    | intro _
    | with_reducible refine tuneAbort_same (Sub.trans (by decide) hl) ?_

theorem tuneDiscard_same {σ : State} {π : List Part} {s : State} (hl : Sub [.win, .tune, .link, .ports, .ocl] π) (h_s : Same π σ s) :
    Same π σ (tuneDiscard s) := by
  unfold tuneDiscard
  repeat' first
    | with_reducible assumption
    | intro _
    | with_reducible refine same_ite ?_ ?_
    | with_reducible refine discardGroup_same (Sub.trans (by decide) hl) ?_
    | with_reducible refine tuneRefuse_same (Sub.trans (by decide) hl) ?_
    | split

theorem execDiscard_same {σ : State} {π : List Part} {s : State} (hl : Sub [.win, .tune, .link, .ports, .ocl] π) (h_s : Same π σ s) :
    ∃ τ, execDiscard s = .next τ ∧ Same π σ τ := by
  refine ⟨_, rfl, ?_⟩
  repeat' first
    | with_reducible assumption
    | intro _
    | with_reducible refine tuneDiscard_same (Sub.trans (by decide) hl) ?_

theorem tuneCtrl_same {σ : State} {π : List Part} {v : Word} {s : State} (hl : Sub [.win, .tune, .link, .ports, .ocl] π) (h_s : Same π σ s) :
    Same π σ (tuneCtrl v s) := by
  unfold tuneCtrl
  repeat' first
    | with_reducible assumption
    | intro _
    | with_reducible refine when_same ?_ ?_
    | with_reducible refine tuneRun_same (Sub.trans (by decide) hl) ?_
    | with_reducible refine tuneDiscard_same (Sub.trans (by decide) hl) ?_
    | with_reducible refine tunePause_same (Sub.trans (by decide) hl) ?_
    | with_reducible refine tuneAbort_same (Sub.trans (by decide) hl) ?_

theorem dropBlocks_same {σ : State} {π : List Part} {s : State} (hl : Sub [.win, .stackMem, .kv, .tune] π) (h_s : Same π σ s) :
    Same π σ (dropBlocks s) := by
  unfold dropBlocks
  repeat' first
    | with_reducible assumption
    | intro _
    | extract_lets
    | with_reducible refine forEach_same ?_ ?_
    | with_reducible refine releaseSeq_same (Sub.trans (by decide) hl) ?_
    | fail_if_no_progress with_reducible refine same_upd ?_ (fun p hp => by cases p <;> first | exact absurd (hl.mem (by decide)) hp | exact rfl | exact ⟨rfl, rfl⟩ | exact ⟨rfl, rfl, rfl, rfl⟩)

theorem tuneFail_same {σ : State} {π : List Part} {cause : Nat} {s : State} (hl : Sub [.win, .stackMem, .kv, .tune, .link, .ports, .ocl] π) (h_s : Same π σ s) :
    Same π σ (tuneFail cause s) := by
  unfold tuneFail
  repeat' first
    | with_reducible assumption
    | intro _
    | with_reducible refine same_ite ?_ ?_
    | with_reducible refine tuneEnd_same (Sub.trans (by decide) hl) ?_
    | with_reducible refine rewind_same (Sub.trans (by decide) hl) ?_
    | with_reducible refine dropBlocks_same (Sub.trans (by decide) hl) ?_
    | split

theorem tuneFault_same {σ : State} {π : List Part} {m : Nat} {s : State} (hl : Sub [.win, .stackMem, .kv, .tune, .link, .ports, .ocl] π) (h_s : Same π σ s) :
    Same π σ (tuneFault m s) := by
  unfold tuneFault
  repeat' first
    | with_reducible assumption
    | intro _
    | extract_lets
    | with_reducible refine same_ite ?_ ?_
    | with_reducible refine tuneFail_same (Sub.trans (by decide) hl) ?_
    | with_reducible refine markDiscarded_same (Sub.trans (by decide) hl) ?_
    | with_reducible refine dropBlocks_same (Sub.trans (by decide) hl) ?_
    | with_reducible refine wr_same (Sub.trans (by decide) hl) ?_
    | with_reducible refine discardGroup_same (Sub.trans (by decide) hl) ?_
    | with_reducible refine tuneEnd_same (Sub.trans (by decide) hl) ?_
    | split

theorem noBlockYet_same {σ : State} {π : List Part} {s : State} (hl : Sub [.tune] π) (h_s : Same π σ s) :
    Same π σ (noBlockYet s) := by
  unfold noBlockYet
  repeat' first
    | with_reducible assumption
    | intro _
    | fail_if_no_progress with_reducible refine same_upd ?_ (fun p hp => by cases p <;> first | exact absurd (hl.mem (by decide)) hp | exact rfl | exact ⟨rfl, rfl⟩ | exact ⟨rfl, rfl, rfl, rfl⟩)

theorem tuneEvict_same {σ : State} {π : List Part} {m : Nat} {s : State} (hl : Sub [.win, .stackMem, .kv, .tune, .link, .ports, .ocl] π) (h_s : Same π σ s) :
    Same π σ (tuneEvict m s) := by
  unfold tuneEvict
  repeat' first
    | with_reducible assumption
    | intro _
    | with_reducible refine same_ite ?_ ?_
    | with_reducible refine noBlockYet_same (Sub.trans (by decide) hl) ?_
    | with_reducible refine tuneFail_same (Sub.trans (by decide) hl) ?_
    | split

theorem tuneFailover_same {σ : State} {π : List Part} {s : State} (hl : Sub [.win, .stackMem, .kv, .tune, .link, .ports, .ocl] π) (h_s : Same π σ s) :
    Same π σ (tuneFailover s) := by
  unfold tuneFailover
  repeat' first
    | with_reducible assumption
    | intro _
    | with_reducible refine tuneFail_same (Sub.trans (by decide) hl) ?_

theorem tuneReloaded_same {σ : State} {π : List Part} {m : Nat} {s : State} (hl : Sub [.win] π) (h_s : Same π σ s) :
    Same π σ (tuneReloaded m s) := by
  unfold tuneReloaded
  repeat' first
    | with_reducible assumption
    | intro _
    | with_reducible refine same_ite ?_ ?_
    | with_reducible refine wr_same (Sub.trans (by decide) hl) ?_
    | split

theorem sendOptRecord_same {σ : State} {π : List Part} {g : Granule} {c : Nat} {s : State} (hl : Sub [.win, .mesh, .budget, .link, .ports, .ocl, .pair, .free] π) (h_s : Same π σ s) :
    Same π σ (sendOptRecord g c s) := by
  unfold sendOptRecord
  repeat' first
    | with_reducible assumption
    | intro _
    | extract_lets
    | with_reducible refine sendFlit_same (Sub.trans (by decide) hl) ?_
    | with_reducible refine charge_same (Sub.trans (by decide) hl) ?_
    | with_reducible refine chargeEnergy_same (Sub.trans (by decide) hl) ?_
    | fail_if_no_progress with_reducible refine same_upd ?_ (fun p hp => by cases p <;> first | exact absurd (hl.mem (by decide)) hp | exact rfl | exact ⟨rfl, rfl⟩ | exact ⟨rfl, rfl, rfl, rfl⟩)

theorem takeTuneSeq_same {σ : State} {π : List Part} {m : Nat} {q : Nat} {s : State} (hl : Sub [.kv] π) (h_s : Same π σ s) :
    Same π σ (takeTuneSeq m q s) := by
  unfold takeTuneSeq
  repeat' first
    | with_reducible assumption
    | intro _
    | with_reducible refine setSeqSlot_same (Sub.trans (by decide) hl) ?_
    | fail_if_no_progress with_reducible refine same_upd ?_ (fun p hp => by cases p <;> first | exact absurd (hl.mem (by decide)) hp | exact rfl | exact ⟨rfl, rfl⟩ | exact ⟨rfl, rfl, rfl, rfl⟩)

theorem formTune_same {σ : State} {π : List Part} {m : Nat} {launch : Nat} {s : State} (hl : Sub [.win, .mesh, .budget, .kv, .tune, .link, .ports, .ocl, .pair, .free] π) (h_s : Same π σ s) :
    Same π σ (formTune m launch s) := by
  unfold formTune
  repeat' first
    | with_reducible assumption
    | intro _
    | extract_lets
    | with_reducible refine forEach_same ?_ ?_
    | with_reducible refine takeTuneSeq_same (Sub.trans (by decide) hl) ?_
    | with_reducible refine bumpBy_same (Sub.trans (by decide) hl) ?_
    | with_reducible refine sendOptRecord_same (Sub.trans (by decide) hl) ?_
    | fail_if_no_progress with_reducible refine same_upd ?_ (fun p hp => by cases p <;> first | exact absurd (hl.mem (by decide)) hp | exact rfl | exact ⟨rfl, rfl⟩ | exact ⟨rfl, rfl, rfl, rfl⟩)
    | with_reducible refine foldl_same ?_ ?_
    | split
    | dsimp +zetaDelta only

theorem writeLosses_same {σ : State} {π : List Part} {x0 : List Nat} {x1 : List Word} {x2 : State} (hl : Sub [.win, .link, .ports, .ocl] π) (h_x2 : Same π σ x2) :
    Same π σ (writeLosses x0 x1 x2) := by
  induction x0 generalizing x1 x2 with
  | nil => simpa only [writeLosses] using h_x2
  | cons p l ih =>
    cases x1 with
    | nil => simpa only [writeLosses] using h_x2
    | cons g gs => exact ih (writeExample_same hl h_x2)

theorem closeGroup_same {σ : State} {π : List Part} {last : Nat} {s : State} (hl : Sub [.win, .tune, .link, .ports, .ocl] π) (h_s : Same π σ s) :
    Same π σ (closeGroup last s) := by
  unfold closeGroup
  repeat' first
    | with_reducible assumption
    | intro _
    | extract_lets
    | with_reducible refine forEach_same ?_ ?_
    | with_reducible refine writeExample_same (Sub.trans (by decide) hl) ?_
    | with_reducible refine wr_same (Sub.trans (by decide) hl) ?_
    | with_reducible refine writeTuneCons_same (Sub.trans (by decide) hl) ?_
    | with_reducible refine raise_same (Sub.trans (by decide) hl) ?_
    | with_reducible refine bumpBy_same (Sub.trans (by decide) hl) ?_
    | fail_if_no_progress with_reducible refine same_upd ?_ (fun p hp => by cases p <;> first | exact absurd (hl.mem (by decide)) hp | exact rfl | exact ⟨rfl, rfl⟩ | exact ⟨rfl, rfl, rfl, rfl⟩)

theorem afterBlock_same {σ : State} {π : List Part} {s : State} (hl : Sub [.win, .link, .ports, .ocl] π) (h_s : Same π σ s) :
    Same π σ (afterBlock s) := by
  unfold afterBlock
  repeat' first
    | with_reducible assumption
    | intro _
    | with_reducible refine same_ite ?_ ?_
    | with_reducible refine wr_same (Sub.trans (by decide) hl) ?_
    | with_reducible refine tuneEnd_same (Sub.trans (by decide) hl) ?_
    | split

theorem tuneBlockComplete_same {σ : State} {π : List Part} {losses : List Word} {s : State} (hl : Sub [.win, .stackMem, .kv, .tune, .link, .ports, .ocl] π) (h_s : Same π σ s) :
    Same π σ (tuneBlockComplete losses s) := by
  unfold tuneBlockComplete
  repeat' first
    | with_reducible assumption
    | intro _
    | extract_lets
    | with_reducible refine same_ite ?_ ?_
    | with_reducible refine forEach_same ?_ ?_
    | with_reducible refine releaseSeq_same (Sub.trans (by decide) hl) ?_
    | with_reducible refine bump_same (Sub.trans (by decide) hl) ?_
    | with_reducible refine writeLosses_same (Sub.trans (by decide) hl) ?_
    | with_reducible refine afterBlock_same (Sub.trans (by decide) hl) ?_
    | with_reducible refine closeGroup_same (Sub.trans (by decide) hl) ?_
    | fail_if_no_progress with_reducible refine same_upd ?_ (fun p hp => by cases p <;> first | exact absurd (hl.mem (by decide)) hp | exact rfl | exact ⟨rfl, rfl⟩ | exact ⟨rfl, rfl, rfl, rfl⟩)
    | split
    | dsimp +zetaDelta only

theorem execTuneBlockComplete_same {σ : State} {π : List Part} {losses : List Word} {s : State} (hl : Sub [.win, .stackMem, .kv, .tune, .link, .ports, .ocl] π) (h_s : Same π σ s) :
    ∃ τ, execTuneBlockComplete losses s = .next τ ∧ Same π σ τ := by
  refine ⟨_, rfl, ?_⟩
  repeat' first
    | with_reducible assumption
    | intro _
    | with_reducible refine tuneBlockComplete_same (Sub.trans (by decide) hl) ?_

theorem readTokens_same {σ : State} {π : List Part} {a : Nat} {left : Nat} {use : ReadUse} {s : State} (hl : Sub [.win, .link, .ports, .ocl] π) (h_s : Same π σ s) :
    Same π σ (readTokens a left use s) := by
  unfold readTokens
  repeat' first
    | with_reducible assumption
    | intro _
    | with_reducible refine hostRead_same (Sub.trans (by decide) hl) ?_

theorem tuneFetch_same {σ : State} {π : List Part} {s : State} (hl : Sub [.win, .link, .ports, .ocl] π) (h_s : Same π σ s) :
    Same π σ (tuneFetch s) := by
  unfold tuneFetch
  repeat' first
    | with_reducible assumption
    | intro _
    | with_reducible refine same_ite ?_ ?_
    | with_reducible refine readTokens_same (Sub.trans (by decide) hl) ?_
    | with_reducible refine hostRead_same (Sub.trans (by decide) hl) ?_
    | fail_if_no_progress with_reducible refine same_upd ?_ (fun p hp => by cases p <;> first | exact absurd (hl.mem (by decide)) hp | exact rfl | exact ⟨rfl, rfl⟩ | exact ⟨rfl, rfl, rfl, rfl⟩)
    | split

theorem tuneEntryRead_same {σ : State} {π : List Part} {g : BitVec 512} {s : State} (hl : Sub [.win, .tune, .link, .ports, .ocl] π) (h_s : Same π σ s) :
    Same π σ (tuneEntryRead g s) := by
  unfold tuneEntryRead
  repeat' first
    | with_reducible assumption
    | intro _
    | extract_lets
    | with_reducible refine tuneFetch_same (Sub.trans (by decide) hl) ?_
    | with_reducible refine when_same ?_ ?_
    | with_reducible refine raise_same (Sub.trans (by decide) hl) ?_
    | fail_if_no_progress with_reducible refine same_upd ?_ (fun p hp => by cases p <;> first | exact absurd (hl.mem (by decide)) hp | exact rfl | exact ⟨rfl, rfl⟩ | exact ⟨rfl, rfl, rfl, rfl⟩)

theorem tuneTokensRead_same {σ : State} {π : List Part} {e : Example} {bytes : List Byte} {s : State} (hl : Sub [.win, .tune, .link, .ports, .ocl] π) (h_s : Same π σ s) :
    Same π σ (tuneTokensRead e bytes s) := by
  unfold tuneTokensRead
  repeat' first
    | with_reducible assumption
    | intro _
    | extract_lets
    | with_reducible refine same_ite ?_ ?_
    | with_reducible refine tuneFetch_same (Sub.trans (by decide) hl) ?_
    | with_reducible refine when_same ?_ ?_
    | with_reducible refine raise_same (Sub.trans (by decide) hl) ?_
    | fail_if_no_progress with_reducible refine same_upd ?_ (fun p hp => by cases p <;> first | exact absurd (hl.mem (by decide)) hp | exact rfl | exact ⟨rfl, rfl⟩ | exact ⟨rfl, rfl, rfl, rfl⟩)
    | split

end Sys2Proof.Machine
end

