-- ==== Sys2Proof/Laws/FrameMirror.lean ====
section
/-!
SUPPORT. The parts that may change, for every function of Machine/Mirror.lean that changes the state.
-/
set_option Elab.async false
namespace Sys2Proof.Machine
open Sys2Proof

theorem chargeSpan_same {σ : State} {π : List Part} {a : Nat} {c : Nat} {flits : Nat} {s : State} (hl : Sub [.win, .budget, .link, .ports, .ocl] π) (h_s : Same π σ s) :
    Same π σ (chargeSpan a c flits s) := by
  unfold chargeSpan
  repeat' first
    | with_reducible assumption
    | intro _
    | extract_lets
    | with_reducible refine charge_same (Sub.trans (by decide) hl) ?_
    | with_reducible refine chargeEnergy_same (Sub.trans (by decide) hl) ?_

theorem chargeBytes_same {σ : State} {π : List Part} {a : Nat} {n : Nat} {s : State} (hl : Sub [.win, .budget, .link, .ports, .ocl] π) (h_s : Same π σ s) :
    Same π σ (chargeBytes a n s) := by
  unfold chargeBytes
  repeat' first
    | with_reducible assumption
    | intro _
    | with_reducible refine charge_same (Sub.trans (by decide) hl) ?_
    | with_reducible refine chargeEnergy_same (Sub.trans (by decide) hl) ?_

theorem chargeSpanStack_same {σ : State} {π : List Part} {a : Nat} {n : Nat} {s : State} (hl : Sub [.win, .budget, .link, .ports, .ocl] π) (h_s : Same π σ s) :
    Same π σ (chargeSpanStack a n s) := by
  unfold chargeSpanStack
  repeat' first
    | with_reducible assumption
    | intro _
    | with_reducible refine chargeSpan_same (Sub.trans (by decide) hl) ?_
    | with_reducible refine chargeBytes_same (Sub.trans (by decide) hl) ?_

theorem chargeMirrorSlots_same {σ : State} {π : List Part} {op : Nat} {n : Nat} {recv : Bool} {s : State} (hl : Sub [.win, .budget, .link, .ports, .ocl] π) (h_s : Same π σ s) :
    Same π σ (chargeMirrorSlots op n recv s) := by
  unfold chargeMirrorSlots
  repeat' first
    | with_reducible assumption
    | intro _
    | extract_lets
    | with_reducible refine same_ite ?_ ?_
    | with_reducible refine bumpBy_same (Sub.trans (by decide) hl) ?_
    | with_reducible refine chargeSpan_same (Sub.trans (by decide) hl) ?_
    | with_reducible refine chargeSpanStack_same (Sub.trans (by decide) hl) ?_
    | with_reducible refine when_same ?_ ?_
    | with_reducible refine chargeBytes_same (Sub.trans (by decide) hl) ?_
    | split

theorem chargeMirror_same {σ : State} {π : List Part} {m : SpanMsg} {recv : Bool} {s : State} (hl : Sub [.win, .budget, .link, .ports, .ocl] π) (h_s : Same π σ s) :
    Same π σ (chargeMirror m recv s) := by
  unfold chargeMirror
  repeat' first
    | with_reducible assumption
    | intro _
    | with_reducible refine chargeMirrorSlots_same (Sub.trans (by decide) hl) ?_

theorem flushMirrorList_same {σ : State} {π : List Part} {x0 : List SpanMsg} {x1 : State} (hl : Sub [.win, .budget, .link, .ports, .ocl, .pair, .free] π) (h_x1 : Same π σ x1) :
    Same π σ (flushMirrorList x0 x1).2 := by
  induction x0 generalizing x1 with
  | nil => (unfold flushMirrorList; repeat' first
      | with_reducible assumption
      | intro _
      | with_reducible refine same_ite ?_ ?_
      | with_reducible refine putSpan_same (Sub.trans (by decide) hl) ?_
      | with_reducible refine chargeMirror_same (Sub.trans (by decide) hl) ?_
      | with_reducible refine same_snd_ite ?_ ?_
      | split)
  | cons _ _ ih => (unfold flushMirrorList; repeat' first
      | with_reducible assumption
      | with_reducible apply ih
      | (injections; subst_vars; with_reducible apply ih)
      | intro _
      | with_reducible refine same_ite ?_ ?_
      | with_reducible refine putSpan_same (Sub.trans (by decide) hl) ?_
      | with_reducible refine chargeMirror_same (Sub.trans (by decide) hl) ?_
      | with_reducible refine same_snd_ite ?_ ?_
      | split)

theorem flushMirror_same {σ : State} {π : List Part} {s : State} (hl : Sub [.win, .budget, .link, .ports, .ocl, .pair, .free] π) (h_s : Same π σ s) :
    Same π σ (flushMirror s) := by
  unfold flushMirror
  repeat' first
    | with_reducible assumption
    | intro _
    | extract_lets
    | with_reducible refine flushMirrorList_same (Sub.trans (by decide) hl) ?_
    | fail_if_no_progress with_reducible refine same_upd ?_ (fun p hp => by cases p <;> first | exact absurd (hl.mem (by decide)) hp | exact rfl | exact ⟨rfl, rfl⟩ | exact ⟨rfl, rfl, rfl, rfl⟩)

theorem mirrorMsg_same {σ : State} {π : List Part} {op : Nat} {model : Nat} {arg : Nat} {data : List Slot16} {s : State} (hl : Sub [.win, .budget, .link, .ports, .ocl, .pair, .free] π) (h_s : Same π σ s) :
    Same π σ (mirrorMsg op model arg data s) := by
  unfold mirrorMsg
  repeat' first
    | with_reducible assumption
    | intro _
    | extract_lets
    | with_reducible refine takePsn_same (Sub.trans (by decide) hl) ?_
    | with_reducible refine flushMirror_same (Sub.trans (by decide) hl) ?_
    | fail_if_no_progress with_reducible refine same_upd ?_ (fun p hp => by cases p <;> first | exact absurd (hl.mem (by decide)) hp | exact rfl | exact ⟨rfl, rfl⟩ | exact ⟨rfl, rfl, rfl, rfl⟩)

theorem mirrorCmd_same {σ : State} {π : List Part} {model : Nat} {e : BitVec 1024} {s : State} (hl : Sub [.win, .budget, .link, .ports, .ocl, .pair, .free] π) (h_s : Same π σ s) :
    Same π σ (mirrorCmd model e s) := by
  unfold mirrorCmd
  repeat' first
    | with_reducible assumption
    | intro _
    | with_reducible refine same_ite ?_ ?_
    | with_reducible refine mirrorMsg_same (Sub.trans (by decide) hl) ?_
    | split

theorem tokenParts_same {σ : State} {π : List Part} {model : Nat} {reqId : Nat} {req : Nat} {x0 : Nat} {x1 : Nat} {x2 : List Nat} {x3 : State} (hl : Sub [.win, .budget, .link, .ports, .ocl, .pair, .free] π) (h_x3 : Same π σ x3) :
    Same π σ (tokenParts model reqId req x0 x1 x2 x3) := by
  induction x0 generalizing model reqId req x1 x2 x3 with
  | zero => (unfold tokenParts; repeat' first
      | with_reducible assumption
      | intro _
      | extract_lets
      | with_reducible refine mirrorMsg_same (Sub.trans (by decide) hl) ?_
      | fail_if_no_progress with_reducible refine same_upd ?_ (fun p hp => by cases p <;> first | exact absurd (hl.mem (by decide)) hp | exact rfl | exact ⟨rfl, rfl⟩ | exact ⟨rfl, rfl, rfl, rfl⟩)
      | split
      | dsimp +zetaDelta only)
  | succ _ ih => (unfold tokenParts; repeat' first
      | with_reducible assumption
      | with_reducible apply ih
      | (injections; subst_vars; with_reducible apply ih)
      | intro _
      | extract_lets
      | with_reducible refine mirrorMsg_same (Sub.trans (by decide) hl) ?_
      | fail_if_no_progress with_reducible refine same_upd ?_ (fun p hp => by cases p <;> first | exact absurd (hl.mem (by decide)) hp | exact rfl | exact ⟨rfl, rfl⟩ | exact ⟨rfl, rfl, rfl, rfl⟩)
      | split
      | dsimp +zetaDelta only)

theorem mirrorTokens_same {σ : State} {π : List Part} {q : Request} {ts : List Nat} {s : State} (hl : Sub [.win, .budget, .link, .ports, .ocl, .pair, .free] π) (h_s : Same π σ s) :
    Same π σ (mirrorTokens q ts s) := by
  unfold mirrorTokens
  repeat' first
    | with_reducible assumption
    | intro _
    | with_reducible refine same_ite ?_ ?_
    | with_reducible refine tokenParts_same (Sub.trans (by decide) hl) ?_
    | split

theorem kvMessages_same {σ : State} {π : List Part} {q : Nat} {m : Nat} {l : Nat} {p : Nat} {n : Nat} {gs : List Granule} {s : State} (hl : Sub [.win, .budget, .link, .ports, .ocl, .pair, .free] π) (h_s : Same π σ s) :
    Same π σ (kvMessages q m l p n gs s) := by
  unfold kvMessages
  repeat' first
    | with_reducible assumption
    | intro _
    | with_reducible refine forEach_same ?_ ?_
    | with_reducible refine mirrorMsg_same (Sub.trans (by decide) hl) ?_

theorem kvParts_same {σ : State} {π : List Part} {q : Nat} {m : Nat} {page : Nat} {l : Nat} {x0 : Nat} {x1 : Nat} {x2 : Nat} {x3 : State} (hl : Sub [.win, .budget, .link, .ports, .ocl, .pair, .free] π) (h_x3 : Same π σ x3) :
    Same π σ (kvParts q m page l x0 x1 x2 x3) := by
  induction x0 generalizing q m page l x1 x2 x3 with
  | zero => (unfold kvParts; repeat' first
      | with_reducible assumption
      | intro _
      | extract_lets
      | with_reducible refine same_ite ?_ ?_
      | with_reducible refine kvMessages_same (Sub.trans (by decide) hl) ?_
      | split)
  | succ _ ih => (unfold kvParts; repeat' first
      | with_reducible assumption
      | with_reducible apply ih
      | (injections; subst_vars; with_reducible apply ih)
      | intro _
      | extract_lets
      | with_reducible refine same_ite ?_ ?_
      | with_reducible refine kvMessages_same (Sub.trans (by decide) hl) ?_
      | split)

theorem mirrorPage_same {σ : State} {π : List Part} {q : Nat} {m : Nat} {a : Nat} {b : Nat} {e : PageEntry} {s : State} (hl : Sub [.win, .budget, .link, .ports, .ocl, .pair, .free] π) (h_s : Same π σ s) :
    Same π σ (mirrorPage q m a b e s) := by
  unfold mirrorPage
  repeat' first
    | with_reducible assumption
    | intro _
    | with_reducible refine forEach_same ?_ ?_
    | with_reducible refine kvParts_same (Sub.trans (by decide) hl) ?_

theorem mirrorKv_same {σ : State} {π : List Part} {q : Nat} {a : Nat} {b : Nat} {s : State} (hl : Sub [.win, .budget, .link, .ports, .ocl, .pair, .free] π) (h_s : Same π σ s) :
    Same π σ (mirrorKv q a b s) := by
  unfold mirrorKv
  repeat' first
    | with_reducible assumption
    | intro _
    | with_reducible refine same_ite ?_ ?_
    | with_reducible refine forEach_same ?_ ?_
    | with_reducible refine mirrorPage_same (Sub.trans (by decide) hl) ?_
    | fail_if_no_progress with_reducible refine same_upd ?_ (fun p hp => by cases p <;> first | exact absurd (hl.mem (by decide)) hp | exact rfl | exact ⟨rfl, rfl⟩ | exact ⟨rfl, rfl, rfl, rfl⟩)
    | split

theorem mirrorLayer_same {σ : State} {π : List Part} {q : Nat} {m : Nat} {l : Nat} {rec_ : Slot16} {xs : List Slot16} {s : State} (hl : Sub [.win, .budget, .link, .ports, .ocl, .pair, .free] π) (h_s : Same π σ s) :
    Same π σ (mirrorLayer q m l rec_ xs s) := by
  unfold mirrorLayer
  repeat' first
    | with_reducible assumption
    | intro _
    | with_reducible refine same_ite ?_ ?_
    | with_reducible refine forEach_same ?_ ?_
    | with_reducible refine mirrorMsg_same (Sub.trans (by decide) hl) ?_
    | split

theorem mirrorState_same {σ : State} {π : List Part} {q : Nat} {s : State} (hl : Sub [.win, .budget, .link, .ports, .ocl, .pair, .free] π) (h_s : Same π σ s) :
    Same π σ (mirrorState q s) := by
  unfold mirrorState
  repeat' first
    | with_reducible assumption
    | intro _
    | extract_lets
    | with_reducible refine forEach_same ?_ ?_
    | with_reducible refine mirrorLayer_same (Sub.trans (by decide) hl) ?_

theorem mirrorPfx_same {σ : State} {π : List Part} {model : Nat} {handle : Nat} {seq : Option Nat} {lp : Nat} {s : State} (hl : Sub [.win, .budget, .link, .ports, .ocl, .pair, .free] π) (h_s : Same π σ s) :
    Same π σ (mirrorPfx model handle seq lp s) := by
  unfold mirrorPfx
  repeat' first
    | with_reducible assumption
    | intro _
    | with_reducible refine same_ite ?_ ?_
    | with_reducible refine mirrorMsg_same (Sub.trans (by decide) hl) ?_
    | fail_if_no_progress with_reducible refine same_upd ?_ (fun p hp => by cases p <;> first | exact absurd (hl.mem (by decide)) hp | exact rfl | exact ⟨rfl, rfl⟩ | exact ⟨rfl, rfl, rfl, rfl⟩)
    | split

theorem mirrorCommit_same {σ : State} {π : List Part} {i : Nat} {model : Nat} {launch : Nat} {data : List Slot16} {s : State} (hl : Sub [.win, .budget, .link, .ports, .ocl, .pair, .free] π) (h_s : Same π σ s) :
    Same π σ (mirrorCommit i model launch data s) := by
  unfold mirrorCommit
  repeat' first
    | with_reducible assumption
    | intro _
    | extract_lets
    | with_reducible refine mirrorMsg_same (Sub.trans (by decide) hl) ?_
    | with_reducible refine when_same ?_ ?_
    | with_reducible refine raise_same (Sub.trans (by decide) hl) ?_
    | fail_if_no_progress with_reducible refine same_upd ?_ (fun p hp => by cases p <;> first | exact absurd (hl.mem (by decide)) hp | exact rfl | exact ⟨rfl, rfl⟩ | exact ⟨rfl, rfl, rfl, rfl⟩)

end Sys2Proof.Machine
end

