-- ==== Sys2Proof/Laws/FrameService.lean ====
section
/-!
SUPPORT. The parts that may change, for every function of Machine/Service.lean that changes the state.
-/
set_option Elab.async false
namespace Sys2Proof.Machine
open Sys2Proof

theorem setTeleBase_same {σ : State} {π : List Part} {k : Nat} {n : Nat} {s : State} (hl : Sub [.svc] π) (h_s : Same π σ s) :
    Same π σ (setTeleBase k n s) := by
  unfold setTeleBase
  repeat' first
    | with_reducible assumption
    | intro _
    | fail_if_no_progress with_reducible refine same_upd ?_ (fun p hp => by cases p <;> first | exact absurd (hl.mem (by decide)) hp | exact rfl | exact ⟨rfl, rfl⟩ | exact ⟨rfl, rfl, rfl, rfl⟩)

theorem keepTele_same {σ : State} {π : List Part} {m : Nat} {s : State} (hl : Sub [.svc] π) (h_s : Same π σ s) :
    Same π σ (keepTele m s) := by
  unfold keepTele
  repeat' first
    | with_reducible assumption
    | intro _
    | with_reducible refine forEach_same ?_ ?_
    | with_reducible refine setTeleBase_same (Sub.trans (by decide) hl) ?_

theorem markRead_same {σ : State} {π : List Part} {k : Nat} {s : State} (hl : Sub [.svc] π) (h_s : Same π σ s) :
    Same π σ (markRead k s) := by
  unfold markRead
  repeat' first
    | with_reducible assumption
    | intro _
    | fail_if_no_progress with_reducible refine same_upd ?_ (fun p hp => by cases p <;> first | exact absurd (hl.mem (by decide)) hp | exact rfl | exact ⟨rfl, rfl⟩ | exact ⟨rfl, rfl, rfl, rfl⟩)

theorem setIndices_same {σ : State} {π : List Part} {k : Nat} {p : Nat} {c : Nat} {s : State} (hl : Sub [.svc, .tune, .ocl] π) (h_s : Same π σ s) :
    Same π σ (setIndices k p c s) := by
  unfold setIndices
  repeat' first
    | with_reducible assumption
    | intro _
    | with_reducible refine same_ite ?_ ?_
    | with_reducible refine setCmdRing_same (Sub.trans (by decide) hl) ?_
    | with_reducible refine setOutRing_same (Sub.trans (by decide) hl) ?_
    | fail_if_no_progress with_reducible refine same_upd ?_ (fun p hp => by cases p <;> first | exact absurd (hl.mem (by decide)) hp | exact rfl | exact ⟨rfl, rfl⟩ | exact ⟨rfl, rfl, rfl, rfl⟩)
    | split

theorem ringUnread_same {σ : State} {π : List Part} {k : Nat} {s : State} (hl : Sub [.win, .svc, .ocl] π) (h_s : Same π σ s) :
    Same π σ (ringUnread k s) := by
  unfold ringUnread
  repeat' first
    | with_reducible assumption
    | intro _
    | with_reducible refine same_ite ?_ ?_
    | with_reducible refine wr_same (Sub.trans (by decide) hl) ?_
    | with_reducible refine markRead_same (Sub.trans (by decide) hl) ?_
    | with_reducible refine setOutRing_same (Sub.trans (by decide) hl) ?_
    | fail_if_no_progress with_reducible refine same_upd ?_ (fun p hp => by cases p <;> first | exact absurd (hl.mem (by decide)) hp | exact rfl | exact ⟨rfl, rfl⟩ | exact ⟨rfl, rfl, rfl, rfl⟩)
    | split

theorem readEntries_same {σ : State} {π : List Part} {r : Nat} {old : Nat} {new : Nat} {s : State} (hl : Sub [.win, .link, .ports, .ocl] π) (h_s : Same π σ s) :
    Same π σ (readEntries r old new s) := by
  unfold readEntries
  repeat' first
    | with_reducible assumption
    | intro _
    | extract_lets
    | with_reducible refine forEach_same ?_ ?_
    | with_reducible refine hostRead_same (Sub.trans (by decide) hl) ?_

theorem ringHeader_same {σ : State} {π : List Part} {k : Nat} {p : Nat} {c : Nat} {s0 : State} (hl : Sub [.win, .svc, .tune, .link, .ports, .ocl] π) (h_s0 : Same π σ s0) :
    Same π σ (ringHeader k p c s0) := by
  unfold ringHeader
  repeat' first
    | with_reducible assumption
    | intro _
    | extract_lets
    | with_reducible refine same_ite ?_ ?_
    | with_reducible refine markRead_same (Sub.trans (by decide) hl) ?_
    | with_reducible refine wr_same (Sub.trans (by decide) hl) ?_
    | with_reducible refine watchRing_same (Sub.trans (by decide) hl) ?_
    | with_reducible refine setIndices_same (Sub.trans (by decide) hl) ?_
    | with_reducible refine readEntries_same (Sub.trans (by decide) hl) ?_
    | with_reducible refine flushEvents_same (Sub.trans (by decide) hl) ?_
    | with_reducible refine flushHeld_same (Sub.trans (by decide) hl) ?_
    | with_reducible refine tuneFetch_same (Sub.trans (by decide) hl) ?_
    | split

theorem beginRing_same {σ : State} {π : List Part} {k : Nat} {s : State} (hl : Sub [.win, .svc] π) (h_s : Same π σ s) :
    Same π σ (beginRing k s) := by
  unfold beginRing
  repeat' first
    | with_reducible assumption
    | intro _
    | with_reducible refine wr_same (Sub.trans (by decide) hl) ?_
    | fail_if_no_progress with_reducible refine same_upd ?_ (fun p hp => by cases p <;> first | exact absurd (hl.mem (by decide)) hp | exact rfl | exact ⟨rfl, rfl⟩ | exact ⟨rfl, rfl, rfl, rfl⟩)

theorem ringEnable_same {σ : State} {π : List Part} {k : Nat} {h : Option (Nat × Nat)} {s : State} (hl : Sub [.win, .svc, .tune, .link, .ports, .ocl] π) (h_s : Same π σ s) :
    Same π σ (ringEnable k h s) := by
  unfold ringEnable
  repeat' first
    | with_reducible assumption
    | intro _
    | extract_lets
    | with_reducible refine same_ite ?_ ?_
    | with_reducible refine beginRing_same (Sub.trans (by decide) hl) ?_
    | with_reducible refine ringUnread_same (Sub.trans (by decide) hl) ?_
    | with_reducible refine ringHeader_same (Sub.trans (by decide) hl) ?_
    | fail_if_no_progress with_reducible refine same_upd ?_ (fun p hp => by cases p <;> first | exact absurd (hl.mem (by decide)) hp | exact rfl | exact ⟨rfl, rfl⟩ | exact ⟨rfl, rfl, rfl, rfl⟩)
    | split
    | dsimp +zetaDelta only

theorem execRingEnable_same {σ : State} {π : List Part} {k : Nat} {h : Option (Nat × Nat)} {s : State} (hl : Sub [.win, .svc, .tune, .link, .ports, .ocl] π) (h_s : Same π σ s) :
    ∃ τ, execRingEnable k h s = .next τ ∧ Same π σ τ := by
  refine ⟨_, rfl, ?_⟩
  repeat' first
    | with_reducible assumption
    | intro _
    | with_reducible refine ringEnable_same (Sub.trans (by decide) hl) ?_

theorem passTurn_same {σ : State} {π : List Part} {r : Nat} {s : State} (hl : Sub [.svc] π) (h_s : Same π σ s) :
    Same π σ (passTurn r s) := by
  unfold passTurn
  repeat' first
    | with_reducible assumption
    | intro _
    | fail_if_no_progress with_reducible refine same_upd ?_ (fun p hp => by cases p <;> first | exact absurd (hl.mem (by decide)) hp | exact rfl | exact ⟨rfl, rfl⟩ | exact ⟨rfl, rfl, rfl, rfl⟩)

theorem waitEntry_same {σ : State} {π : List Part} {r : Nat} {op : Nat} {e : BitVec 1024} {s : State} (hl : Sub [.svc] π) (h_s : Same π σ s) :
    Same π σ (waitEntry r op e s) := by
  unfold waitEntry
  repeat' first
    | with_reducible assumption
    | intro _
    | with_reducible refine same_ite ?_ ?_
    | with_reducible refine passTurn_same (Sub.trans (by decide) hl) ?_
    | split

theorem passEntry_same {σ : State} {π : List Part} {r : Nat} {code : Nat} {e : BitVec 1024} {s : State} (hl : Sub [.win, .budget, .svc, .link, .ports, .ocl, .pair, .free] π) (h_s : Same π σ s) :
    Same π σ (passEntry r code e s) := by
  unfold passEntry
  repeat' first
    | with_reducible assumption
    | intro _
    | extract_lets
    | with_reducible refine same_ite ?_ ?_
    | with_reducible refine mirrorCmd_same (Sub.trans (by decide) hl) ?_
    | with_reducible refine sendWrPart_same (Sub.trans (by decide) hl) ?_
    | with_reducible refine setCmdRing_same (Sub.trans (by decide) hl) ?_
    | with_reducible refine passTurn_same (Sub.trans (by decide) hl) ?_
    | fail_if_no_progress with_reducible refine same_upd ?_ (fun p hp => by cases p <;> first | exact absurd (hl.mem (by decide)) hp | exact rfl | exact ⟨rfl, rfl⟩ | exact ⟨rfl, rfl, rfl, rfl⟩)
    | split

theorem takeEntry_same {σ : State} {π : List Part} {r : Nat} {op : Nat} {e : BitVec 1024} {code : Nat} {act : State → State} {s : State} (hl : Sub [.win, .budget, .svc, .link, .ports, .ocl, .pair, .free] π) (h_act : ∀ y0, Same π σ y0 → Same π σ (act y0)) (h_s : Same π σ s) :
    Same π σ (takeEntry r op e code act s) := by
  unfold takeEntry
  repeat' first
    | with_reducible assumption
    | with_reducible apply h_act
    | intro _
    | extract_lets
    | with_reducible refine same_ite ?_ ?_
    | with_reducible refine passEntry_same (Sub.trans (by decide) hl) ?_
    | with_reducible refine putError_same (Sub.trans (by decide) hl) ?_
    | split

theorem enqueue_same {σ : State} {π : List Part} {q : Request} {s : State} (hl : Sub [.svc] π) (h_s : Same π σ s) :
    Same π σ (enqueue q s) := by
  unfold enqueue
  repeat' first
    | with_reducible assumption
    | intro _
    | fail_if_no_progress with_reducible refine same_upd ?_ (fun p hp => by cases p <;> first | exact absurd (hl.mem (by decide)) hp | exact rfl | exact ⟨rfl, rfl⟩ | exact ⟨rfl, rfl, rfl, rfl⟩)

theorem submitAct_same {σ : State} {π : List Part} {e : BitVec 1024} {s : State} (hl : Sub [.win, .svc, .link, .ports, .ocl] π) (h_s : Same π σ s) :
    Same π σ (submitAct e s) := by
  unfold submitAct
  repeat' first
    | with_reducible assumption
    | intro _
    | extract_lets
    | with_reducible refine same_ite ?_ ?_
    | with_reducible refine enqueue_same (Sub.trans (by decide) hl) ?_
    | with_reducible refine modPfx_same (Sub.trans (by decide) hl) ?_
    | with_reducible refine refuseHandle_same (Sub.trans (by decide) hl) ?_
    | fail_if_no_progress with_reducible refine same_upd ?_ (fun p hp => by cases p <;> first | exact absurd (hl.mem (by decide)) hp | exact rfl | exact ⟨rfl, rfl⟩ | exact ⟨rfl, rfl, rfl, rfl⟩)
    | split
    | dsimp +zetaDelta only

theorem prefixCreateAct_same {σ : State} {π : List Part} {e : BitVec 1024} {s : State} (hl : Sub [.win, .svc, .link, .ports, .ocl] π) (h_s : Same π σ s) :
    Same π σ (prefixCreateAct e s) := by
  unfold prefixCreateAct
  repeat' first
    | with_reducible assumption
    | intro _
    | extract_lets
    | with_reducible refine same_ite ?_ ?_
    | with_reducible refine refuseHandle_same (Sub.trans (by decide) hl) ?_
    | with_reducible refine enqueue_same (Sub.trans (by decide) hl) ?_
    | fail_if_no_progress with_reducible refine same_upd ?_ (fun p hp => by cases p <;> first | exact absurd (hl.mem (by decide)) hp | exact rfl | exact ⟨rfl, rfl⟩ | exact ⟨rfl, rfl, rfl, rfl⟩)
    | split

theorem submit_same {σ : State} {π : List Part} {r : Nat} {e : BitVec 1024} {s : State} (hl : Sub [.win, .budget, .svc, .link, .ports, .ocl, .pair, .free] π) (h_s : Same π σ s) :
    Same π σ (submit r e s) := by
  unfold submit
  repeat' first
    | with_reducible assumption
    | intro _
    | with_reducible refine takeEntry_same (Sub.trans (by decide) hl) ?_ ?_
    | with_reducible refine submitAct_same (Sub.trans (by decide) hl) ?_

theorem execSubmit_same {σ : State} {π : List Part} {r : Nat} {e : BitVec 1024} {s : State} (hl : Sub [.win, .budget, .svc, .link, .ports, .ocl, .pair, .free] π) (h_s : Same π σ s) :
    ∃ τ, execSubmit r e s = .next τ ∧ Same π σ τ := by
  refine ⟨_, rfl, ?_⟩
  repeat' first
    | with_reducible assumption
    | intro _
    | with_reducible refine submit_same (Sub.trans (by decide) hl) ?_

theorem prefixCreate_same {σ : State} {π : List Part} {r : Nat} {e : BitVec 1024} {s : State} (hl : Sub [.win, .budget, .svc, .link, .ports, .ocl, .pair, .free] π) (h_s : Same π σ s) :
    Same π σ (prefixCreate r e s) := by
  unfold prefixCreate
  repeat' first
    | with_reducible assumption
    | intro _
    | with_reducible refine takeEntry_same (Sub.trans (by decide) hl) ?_ ?_
    | with_reducible refine prefixCreateAct_same (Sub.trans (by decide) hl) ?_

theorem execPrefixCreate_same {σ : State} {π : List Part} {r : Nat} {e : BitVec 1024} {s : State} (hl : Sub [.win, .budget, .svc, .link, .ports, .ocl, .pair, .free] π) (h_s : Same π σ s) :
    ∃ τ, execPrefixCreate r e s = .next τ ∧ Same π σ τ := by
  refine ⟨_, rfl, ?_⟩
  repeat' first
    | with_reducible assumption
    | intro _
    | with_reducible refine prefixCreate_same (Sub.trans (by decide) hl) ?_

theorem cancelAct_same {σ : State} {π : List Part} {m : Nat} {out : Nat} {reqId : Nat} {target : Nat} {s : State} (hl : Sub [.win, .stackMem, .kv, .svc, .link, .ports, .ocl] π) (h_s : Same π σ s) :
    Same π σ (cancelAct m out reqId target s) := by
  unfold cancelAct
  repeat' first
    | with_reducible assumption
    | intro _
    | with_reducible refine putError_same (Sub.trans (by decide) hl) ?_
    | with_reducible refine endWhenQuiet_same (Sub.trans (by decide) hl) ?_
    | with_reducible refine modRequest_same (Sub.trans (by decide) hl) ?_
    | fail_if_no_progress with_reducible refine same_upd ?_ (fun p hp => by cases p <;> first | exact absurd (hl.mem (by decide)) hp | exact rfl | exact ⟨rfl, rfl⟩ | exact ⟨rfl, rfl, rfl, rfl⟩)
    | split

theorem cancel_same {σ : State} {π : List Part} {r : Nat} {e : BitVec 1024} {s : State} (hl : Sub [.win, .stackMem, .budget, .kv, .svc, .link, .ports, .ocl, .pair, .free] π) (h_s : Same π σ s) :
    Same π σ (cancel r e s) := by
  unfold cancel
  repeat' first
    | with_reducible assumption
    | intro _
    | with_reducible refine takeEntry_same (Sub.trans (by decide) hl) ?_ ?_
    | with_reducible refine cancelAct_same (Sub.trans (by decide) hl) ?_

theorem execCancel_same {σ : State} {π : List Part} {r : Nat} {e : BitVec 1024} {s : State} (hl : Sub [.win, .stackMem, .budget, .kv, .svc, .link, .ports, .ocl, .pair, .free] π) (h_s : Same π σ s) :
    ∃ τ, execCancel r e s = .next τ ∧ Same π σ τ := by
  refine ⟨_, rfl, ?_⟩
  repeat' first
    | with_reducible assumption
    | intro _
    | with_reducible refine cancel_same (Sub.trans (by decide) hl) ?_

theorem prefixReleaseAct_same {σ : State} {π : List Part} {m : Nat} {out : Nat} {reqId : Nat} {h : Nat} {s : State} (hl : Sub [.win, .kv, .svc, .link, .ports, .ocl] π) (h_s : Same π σ s) :
    Same π σ (prefixReleaseAct m out reqId h s) := by
  unfold prefixReleaseAct
  repeat' first
    | with_reducible assumption
    | intro _
    | with_reducible refine putCmdDone_same (Sub.trans (by decide) hl) ?_
    | with_reducible refine withdrawPfx_same (Sub.trans (by decide) hl) ?_
    | with_reducible refine modPfx_same (Sub.trans (by decide) hl) ?_
    | fail_if_no_progress with_reducible refine same_upd ?_ (fun p hp => by cases p <;> first | exact absurd (hl.mem (by decide)) hp | exact rfl | exact ⟨rfl, rfl⟩ | exact ⟨rfl, rfl, rfl, rfl⟩)
    | split

theorem prefixRelease_same {σ : State} {π : List Part} {r : Nat} {e : BitVec 1024} {s : State} (hl : Sub [.win, .budget, .kv, .svc, .link, .ports, .ocl, .pair, .free] π) (h_s : Same π σ s) :
    Same π σ (prefixRelease r e s) := by
  unfold prefixRelease
  repeat' first
    | with_reducible assumption
    | intro _
    | with_reducible refine takeEntry_same (Sub.trans (by decide) hl) ?_ ?_
    | with_reducible refine prefixReleaseAct_same (Sub.trans (by decide) hl) ?_

theorem execPrefixRelease_same {σ : State} {π : List Part} {r : Nat} {e : BitVec 1024} {s : State} (hl : Sub [.win, .budget, .kv, .svc, .link, .ports, .ocl, .pair, .free] π) (h_s : Same π σ s) :
    ∃ τ, execPrefixRelease r e s = .next τ ∧ Same π σ τ := by
  refine ⟨_, rfl, ?_⟩
  repeat' first
    | with_reducible assumption
    | intro _
    | with_reducible refine prefixRelease_same (Sub.trans (by decide) hl) ?_

theorem outOfStep_same {σ : State} {π : List Part} {e : LedgerEntry} {s : State} (hl : Sub [.svc] π) (h_s : Same π σ s) :
    Same π σ (outOfStep e s) := by
  unfold outOfStep
  repeat' first
    | with_reducible assumption
    | intro _
    | with_reducible refine forEach_same ?_ ?_
    | with_reducible refine modRequest_same (Sub.trans (by decide) hl) ?_
    | fail_if_no_progress with_reducible refine same_upd ?_ (fun p hp => by cases p <;> first | exact absurd (hl.mem (by decide)) hp | exact rfl | exact ⟨rfl, rfl⟩ | exact ⟨rfl, rfl, rfl, rfl⟩)

theorem abandonStep_same {σ : State} {π : List Part} {e : LedgerEntry} {s : State} (hl : Sub [.win, .kv, .svc, .ledger] π) (h_s : Same π σ s) :
    Same π σ (abandonStep e s) := by
  unfold abandonStep
  repeat' first
    | with_reducible assumption
    | intro _
    | with_reducible refine abandonLedger_same (Sub.trans (by decide) hl) ?_
    | with_reducible refine outOfStep_same (Sub.trans (by decide) hl) ?_
    | with_reducible refine forEach_same ?_ ?_
    | with_reducible refine discardKv_same (Sub.trans (by decide) hl) ?_
    | with_reducible refine unreserve_same (Sub.trans (by decide) hl) ?_

theorem stopCells_same {σ : State} {π : List Part} {m : Nat} {s : State} (hl : Sub [.cells] π) (h_s : Same π σ s) :
    Same π σ (stopCells m s) := by
  unfold stopCells
  repeat' first
    | with_reducible assumption
    | intro _
    | with_reducible refine forEach_same ?_ ?_
    | with_reducible refine modCell_same (Sub.trans (by decide) hl) ?_
    | fail_if_no_progress with_reducible refine same_upd ?_ (fun p hp => by cases p <;> first | exact absurd (hl.mem (by decide)) hp | exact rfl | exact ⟨rfl, rfl⟩ | exact ⟨rfl, rfl, rfl, rfl⟩)

theorem failSlot_same {σ : State} {π : List Part} {m : Nat} {s : State} (hl : Sub [.win, .cells, .stackMem, .sched, .kv, .svc, .ledger, .link, .ports, .ocl] π) (h_s : Same π σ s) :
    Same π σ (failSlot m s) := by
  unfold failSlot
  repeat' first
    | with_reducible assumption
    | intro _
    | extract_lets
    | with_reducible refine forEach_same ?_ ?_
    | with_reducible refine abandonStep_same (Sub.trans (by decide) hl) ?_
    | with_reducible refine wr_same (Sub.trans (by decide) hl) ?_
    | with_reducible refine endRequest_same (Sub.trans (by decide) hl) ?_
    | with_reducible refine modImage_same (Sub.trans (by decide) hl) ?_
    | with_reducible refine stopCells_same (Sub.trans (by decide) hl) ?_
    | fail_if_no_progress with_reducible refine same_upd ?_ (fun p hp => by cases p <;> first | exact absurd (hl.mem (by decide)) hp | exact rfl | exact ⟨rfl, rfl⟩ | exact ⟨rfl, rfl, rfl, rfl⟩)

theorem abandonCheck_same {σ : State} {π : List Part} {m : Nat} {s : State} (hl : Sub [.win, .sched, .ocl] π) (h_s : Same π σ s) :
    Same π σ (abandonCheck m s) := by
  unfold abandonCheck
  repeat' first
    | with_reducible assumption
    | intro _
    | with_reducible refine same_ite ?_ ?_
    | with_reducible refine wr_same (Sub.trans (by decide) hl) ?_
    | with_reducible refine dropFetches_same (Sub.trans (by decide) hl) ?_
    | fail_if_no_progress with_reducible refine same_upd ?_ (fun p hp => by cases p <;> first | exact absurd (hl.mem (by decide)) hp | exact rfl | exact ⟨rfl, rfl⟩ | exact ⟨rfl, rfl, rfl, rfl⟩)
    | split

theorem endReceive_same {σ : State} {π : List Part} {m : Nat} {status : Nat} {s : State} (hl : Sub [.win, .svc, .link, .ports, .ocl] π) (h_s : Same π σ s) :
    Same π σ (endReceive m status s) := by
  unfold endReceive
  repeat' first
    | with_reducible assumption
    | intro _
    | with_reducible refine when_same ?_ ?_
    | with_reducible refine raise_same (Sub.trans (by decide) hl) ?_
    | with_reducible refine putCmdDone_same (Sub.trans (by decide) hl) ?_
    | with_reducible refine modModelSlot_same (Sub.trans (by decide) hl) ?_
    | fail_if_no_progress with_reducible refine same_upd ?_ (fun p hp => by cases p <;> first | exact absurd (hl.mem (by decide)) hp | exact rfl | exact ⟨rfl, rfl⟩ | exact ⟨rfl, rfl, rfl, rfl⟩)
    | split

theorem endLoading_same {σ : State} {π : List Part} {m : Nat} {status : Nat} {s : State} (hl : Sub [.win, .svc, .link, .ports, .ocl, .pair] π) (h_s : Same π σ s) :
    Same π σ (endLoading m status s) := by
  unfold endLoading
  repeat' first
    | with_reducible assumption
    | intro _
    | extract_lets
    | with_reducible refine dropFetches_same (Sub.trans (by decide) hl) ?_
    | with_reducible refine modModelSlot_same (Sub.trans (by decide) hl) ?_
    | with_reducible refine when_same ?_ ?_
    | with_reducible refine raise_same (Sub.trans (by decide) hl) ?_
    | with_reducible refine putCmdDone_same (Sub.trans (by decide) hl) ?_
    | fail_if_no_progress with_reducible refine same_upd ?_ (fun p hp => by cases p <;> first | exact absurd (hl.mem (by decide)) hp | exact rfl | exact ⟨rfl, rfl⟩ | exact ⟨rfl, rfl, rfl, rfl⟩)
    | split
    | dsimp +zetaDelta only

theorem beginClose_same {σ : State} {π : List Part} {m : Nat} {s : State} (hl : Sub [.win, .stackMem, .sched, .kv, .svc, .tune, .link, .ports, .ocl, .pair] π) (h_s : Same π σ s) :
    Same π σ (beginClose m s) := by
  unfold beginClose
  repeat' first
    | with_reducible assumption
    | intro _
    | extract_lets
    | with_reducible refine modModelSlot_same (Sub.trans (by decide) hl) ?_
    | with_reducible refine forEach_same ?_ ?_
    | with_reducible refine endRequest_same (Sub.trans (by decide) hl) ?_
    | with_reducible refine endWhenQuiet_same (Sub.trans (by decide) hl) ?_
    | with_reducible refine withdrawPfx_same (Sub.trans (by decide) hl) ?_
    | with_reducible refine tuneEvict_same (Sub.trans (by decide) hl) ?_
    | with_reducible refine endLoading_same (Sub.trans (by decide) hl) ?_
    | with_reducible refine endReceive_same (Sub.trans (by decide) hl) ?_
    | with_reducible refine abandonCheck_same (Sub.trans (by decide) hl) ?_
    | fail_if_no_progress with_reducible refine same_upd ?_ (fun p hp => by cases p <;> first | exact absurd (hl.mem (by decide)) hp | exact rfl | exact ⟨rfl, rfl⟩ | exact ⟨rfl, rfl, rfl, rfl⟩)

theorem zeroCell_same {σ : State} {π : List Part} {c : Nat} {s : State} (hl : Sub [.cells, .cellMem] π) (h_s : Same π σ s) :
    Same π σ (zeroCell c s) := by
  unfold zeroCell
  repeat' first
    | with_reducible assumption
    | intro _
    | with_reducible refine modCell_same (Sub.trans (by decide) hl) ?_
    | fail_if_no_progress with_reducible refine same_upd ?_ (fun p hp => by cases p <;> first | exact absurd (hl.mem (by decide)) hp | exact rfl | exact ⟨rfl, rfl⟩ | exact ⟨rfl, rfl, rfl, rfl⟩)

theorem zeroField_same {σ : State} {π : List Part} {f : Nat} {s : State} (hl : Sub [.cells, .cellMem] π) (h_s : Same π σ s) :
    Same π σ (zeroField f s) := by
  unfold zeroField
  repeat' first
    | with_reducible assumption
    | intro _
    | with_reducible refine forEach_same ?_ ?_
    | with_reducible refine zeroCell_same (Sub.trans (by decide) hl) ?_

theorem dropKv_same {σ : State} {π : List Part} {m : Nat} {s : State} (hl : Sub [.win, .kv, .svc, .link, .ports, .ocl] π) (h_s : Same π σ s) :
    Same π σ (dropKv m s) := by
  unfold dropKv
  repeat' first
    | with_reducible assumption
    | intro _
    | extract_lets
    | with_reducible refine forEach_same ?_ ?_
    | with_reducible refine finishPfx_same (Sub.trans (by decide) hl) ?_
    | fail_if_no_progress with_reducible refine same_upd ?_ (fun p hp => by cases p <;> first | exact absurd (hl.mem (by decide)) hp | exact rfl | exact ⟨rfl, rfl⟩ | exact ⟨rfl, rfl, rfl, rfl⟩)

theorem freeSlot_same {σ : State} {π : List Part} {m : Nat} {s : State} (hl : Sub [.win, .cells, .cellMem, .stackMem, .prec, .sched, .kv, .svc, .link, .ports, .ocl] π) (h_s : Same π σ s) :
    Same π σ (freeSlot m s) := by
  unfold freeSlot
  repeat' first
    | with_reducible assumption
    | intro _
    | extract_lets
    | with_reducible refine same_ite ?_ ?_
    | with_reducible refine disablePool_same (Sub.trans (by decide) hl) ?_
    | with_reducible refine dropKv_same (Sub.trans (by decide) hl) ?_
    | with_reducible refine stopCells_same (Sub.trans (by decide) hl) ?_
    | with_reducible refine keepTele_same (Sub.trans (by decide) hl) ?_
    | with_reducible refine forEach_same ?_ ?_
    | with_reducible refine zeroField_same (Sub.trans (by decide) hl) ?_
    | with_reducible refine stackZero_same (Sub.trans (by decide) hl) ?_
    | with_reducible refine wr_same (Sub.trans (by decide) hl) ?_
    | fail_if_no_progress with_reducible refine same_upd ?_ (fun p hp => by cases p <;> first | exact absurd (hl.mem (by decide)) hp | exact rfl | exact ⟨rfl, rfl⟩ | exact ⟨rfl, rfl, rfl, rfl⟩)
    | split

theorem claimSlot_same {σ : State} {π : List Part} {o : Opening} {fs : List Nat} {base : Nat} {s : State} (hl : Sub [.win, .svc, .link, .ports, .ocl, .sec] π) (h_s : Same π σ s) :
    Same π σ (claimSlot o fs base s) := by
  unfold claimSlot
  repeat' first
    | with_reducible assumption
    | intro _
    | extract_lets
    | with_reducible refine setModelSlot_same (Sub.trans (by decide) hl) ?_
    | with_reducible refine wr_same (Sub.trans (by decide) hl) ?_
    | with_reducible refine putCmdDone_same (Sub.trans (by decide) hl) ?_
    | fail_if_no_progress with_reducible refine same_upd ?_ (fun p hp => by cases p <;> first | exact absurd (hl.mem (by decide)) hp | exact rfl | exact ⟨rfl, rfl⟩ | exact ⟨rfl, rfl, rfl, rfl⟩)
    | with_reducible refine foldl_same ?_ ?_

theorem tryClaim_same {σ : State} {π : List Part} {o : Opening} {s : State} (hl : Sub [.win, .svc, .link, .ports, .ocl, .sec] π) (h_s : Same π σ s) :
    Same π σ (tryClaim o s) := by
  unfold tryClaim
  repeat' first
    | with_reducible assumption
    | intro _
    | with_reducible refine claimSlot_same (Sub.trans (by decide) hl) ?_
    | with_reducible refine putCmdDone_same (Sub.trans (by decide) hl) ?_
    | fail_if_no_progress with_reducible refine same_upd ?_ (fun p hp => by cases p <;> first | exact absurd (hl.mem (by decide)) hp | exact rfl | exact ⟨rfl, rfl⟩ | exact ⟨rfl, rfl, rfl, rfl⟩)
    | split

theorem openAct_same {σ : State} {π : List Part} {e : BitVec 1024} {s : State} (hl : Sub [.win, .stackMem, .sched, .kv, .svc, .tune, .link, .ports, .ocl, .pair, .sec] π) (h_s : Same π σ s) :
    Same π σ (openAct e s) := by
  unfold openAct
  repeat' first
    | with_reducible assumption
    | intro _
    | extract_lets
    | with_reducible refine same_ite ?_ ?_
    | with_reducible refine tryClaim_same (Sub.trans (by decide) hl) ?_
    | with_reducible refine raise_same (Sub.trans (by decide) hl) ?_
    | with_reducible refine forEach_same ?_ ?_
    | with_reducible refine beginClose_same (Sub.trans (by decide) hl) ?_
    | fail_if_no_progress with_reducible refine same_upd ?_ (fun p hp => by cases p <;> first | exact absurd (hl.mem (by decide)) hp | exact rfl | exact ⟨rfl, rfl⟩ | exact ⟨rfl, rfl, rfl, rfl⟩)
    | split
    | dsimp +zetaDelta only

theorem openModel_same {σ : State} {π : List Part} {r : Nat} {e : BitVec 1024} {s : State} (hl : Sub [.win, .stackMem, .sched, .budget, .kv, .svc, .tune, .link, .ports, .ocl, .pair, .sec, .free] π) (h_s : Same π σ s) :
    Same π σ (openModel r e s) := by
  unfold openModel
  repeat' first
    | with_reducible assumption
    | intro _
    | with_reducible refine takeEntry_same (Sub.trans (by decide) hl) ?_ ?_
    | with_reducible refine openAct_same (Sub.trans (by decide) hl) ?_

theorem execOpenModel_same {σ : State} {π : List Part} {r : Nat} {e : BitVec 1024} {s : State} (hl : Sub [.win, .stackMem, .sched, .budget, .kv, .svc, .tune, .link, .ports, .ocl, .pair, .sec, .free] π) (h_s : Same π σ s) :
    ∃ τ, execOpenModel r e s = .next τ ∧ Same π σ τ := by
  refine ⟨_, rfl, ?_⟩
  repeat' first
    | with_reducible assumption
    | intro _
    | with_reducible refine openModel_same (Sub.trans (by decide) hl) ?_

theorem closeAct_same {σ : State} {π : List Part} {e : BitVec 1024} {s : State} (hl : Sub [.win, .stackMem, .sched, .kv, .svc, .tune, .link, .ports, .ocl, .pair] π) (h_s : Same π σ s) :
    Same π σ (closeAct e s) := by
  unfold closeAct
  repeat' first
    | with_reducible assumption
    | intro _
    | extract_lets
    | with_reducible refine same_ite ?_ ?_
    | with_reducible refine modModelSlot_same (Sub.trans (by decide) hl) ?_
    | with_reducible refine beginClose_same (Sub.trans (by decide) hl) ?_
    | fail_if_no_progress with_reducible refine same_upd ?_ (fun p hp => by cases p <;> first | exact absurd (hl.mem (by decide)) hp | exact rfl | exact ⟨rfl, rfl⟩ | exact ⟨rfl, rfl, rfl, rfl⟩)
    | split

theorem closeModel_same {σ : State} {π : List Part} {r : Nat} {e : BitVec 1024} {s : State} (hl : Sub [.win, .stackMem, .sched, .budget, .kv, .svc, .tune, .link, .ports, .ocl, .pair, .free] π) (h_s : Same π σ s) :
    Same π σ (closeModel r e s) := by
  unfold closeModel
  repeat' first
    | with_reducible assumption
    | intro _
    | with_reducible refine takeEntry_same (Sub.trans (by decide) hl) ?_ ?_
    | with_reducible refine closeAct_same (Sub.trans (by decide) hl) ?_

theorem execCloseModel_same {σ : State} {π : List Part} {r : Nat} {e : BitVec 1024} {s : State} (hl : Sub [.win, .stackMem, .sched, .budget, .kv, .svc, .tune, .link, .ports, .ocl, .pair, .free] π) (h_s : Same π σ s) :
    ∃ τ, execCloseModel r e s = .next τ ∧ Same π σ τ := by
  refine ⟨_, rfl, ?_⟩
  repeat' first
    | with_reducible assumption
    | intro _
    | with_reducible refine closeModel_same (Sub.trans (by decide) hl) ?_

theorem resumeOpen_same {σ : State} {π : List Part} {m : Nat} {s : State} (hl : Sub [.win, .svc, .link, .ports, .ocl, .sec] π) (h_s : Same π σ s) :
    Same π σ (resumeOpen m s) := by
  unfold resumeOpen
  repeat' first
    | with_reducible assumption
    | intro _
    | extract_lets
    | with_reducible refine same_ite ?_ ?_
    | with_reducible refine tryClaim_same (Sub.trans (by decide) hl) ?_
    | fail_if_no_progress with_reducible refine same_upd ?_ (fun p hp => by cases p <;> first | exact absurd (hl.mem (by decide)) hp | exact rfl | exact ⟨rfl, rfl⟩ | exact ⟨rfl, rfl, rfl, rfl⟩)
    | split
    | dsimp +zetaDelta only

theorem closeComplete_same {σ : State} {π : List Part} {m : Nat} {s : State} (hl : Sub [.win, .cells, .cellMem, .stackMem, .prec, .sched, .kv, .svc, .link, .ports, .ocl, .sec] π) (h_s : Same π σ s) :
    Same π σ (closeComplete m s) := by
  unfold closeComplete
  repeat' first
    | with_reducible assumption
    | intro _
    | extract_lets
    | with_reducible refine same_ite ?_ ?_
    | with_reducible refine resumeOpen_same (Sub.trans (by decide) hl) ?_
    | with_reducible refine forEach_same ?_ ?_
    | with_reducible refine putCmdDone_same (Sub.trans (by decide) hl) ?_
    | with_reducible refine freeSlot_same (Sub.trans (by decide) hl) ?_
    | split

theorem pinnedWrite_same {σ : State} {π : List Part} {m : Nat} {b : Bool} {s : State} (hl : Sub [.win] π) (h_s : Same π σ s) :
    Same π σ (pinnedWrite m b s) := by
  unfold pinnedWrite
  repeat' first
    | with_reducible assumption
    | intro _
    | with_reducible refine same_ite ?_ ?_
    | with_reducible refine wrB_same (Sub.trans (by decide) hl) ?_
    | split

theorem execPinnedWrite_same {σ : State} {π : List Part} {m : Nat} {b : Bool} {s : State} (hl : Sub [.win] π) (h_s : Same π σ s) :
    ∃ τ, execPinnedWrite m b s = .next τ ∧ Same π σ τ := by
  refine ⟨_, rfl, ?_⟩
  repeat' first
    | with_reducible assumption
    | intro _
    | with_reducible refine pinnedWrite_same (Sub.trans (by decide) hl) ?_

end Sys2Proof.Machine
end

