-- ==== Sys2Proof/Laws/FrameLoading.lean ====
section
/-!
SUPPORT. The parts that may change, for every function of Machine/Loading.lean that changes the state.
-/
set_option Elab.async false
namespace Sys2Proof.Machine
open Sys2Proof

theorem chargeLoad_same {σ : State} {π : List Part} {c : Nat} {n : Nat} {s : State} (hl : Sub [.win, .budget, .link, .ports, .ocl] π) (h_s : Same π σ s) :
    Same π σ (chargeLoad c n s) := by
  unfold chargeLoad
  repeat' first
    | with_reducible assumption
    | intro _
    | with_reducible refine chargeEnergy_same (Sub.trans (by decide) hl) ?_
    | with_reducible refine charge_same (Sub.trans (by decide) hl) ?_

theorem loadWord_same {σ : State} {π : List Part} {c : Nat} {a : Nat} {d : Word} {s : State} (hl : Sub [.win, .cells, .counters, .mesh, .link, .ports, .ocl, .agent] π) (h_s : Same π σ s) :
    Same π σ (loadWord c a d s) := by
  unfold loadWord
  repeat' first
    | with_reducible assumption
    | intro _
    | extract_lets
    | with_reducible refine writeCfg_same (Sub.trans (by decide) hl) ?_
    | fail_if_no_progress with_reducible refine same_upd ?_ (fun p hp => by cases p <;> first | exact absurd (hl.mem (by decide)) hp | exact rfl | exact ⟨rfl, rfl⟩ | exact ⟨rfl, rfl, rfl, rfl⟩)

theorem loadWords_same {σ : State} {π : List Part} {c : Nat} {a : Nat} {g : Granule} {s : State} (hl : Sub [.win, .cells, .counters, .mesh, .link, .ports, .ocl, .agent] π) (h_s : Same π σ s) :
    Same π σ (loadWords c a g s) := by
  unfold loadWords
  repeat' first
    | with_reducible assumption
    | intro _
    | with_reducible refine forEach_same ?_ ?_
    | with_reducible refine loadWord_same (Sub.trans (by decide) hl) ?_

theorem placeGranule_same {σ : State} {π : List Part} {x : Slice} {o : Nat} {g : Granule} {s : State} (hl : Sub [.win, .cells, .counters, .cellMem, .stackMem, .mesh, .link, .ports, .ocl, .agent] π) (h_s : Same π σ s) :
    Same π σ (placeGranule x o g s) := by
  unfold placeGranule
  repeat' first
    | with_reducible assumption
    | intro _
    | with_reducible refine same_ite ?_ ?_
    | with_reducible refine loadGranule_same (Sub.trans (by decide) hl) ?_
    | with_reducible refine loadWords_same (Sub.trans (by decide) hl) ?_
    | with_reducible refine setStackGranule_same (Sub.trans (by decide) hl) ?_
    | split

theorem placeGranules_same {σ : State} {π : List Part} {x : Slice} {x0 : Nat} {x1 : List Granule} {x2 : State} (hl : Sub [.win, .cells, .counters, .cellMem, .stackMem, .mesh, .link, .ports, .ocl, .agent] π) (h_x2 : Same π σ x2) :
    Same π σ (placeGranules x x0 x1 x2) := by
  induction x1 generalizing x x0 x2 with
  | nil => (unfold placeGranules; repeat' first
      | with_reducible assumption
      | intro _
      | with_reducible refine placeGranule_same (Sub.trans (by decide) hl) ?_)
  | cons _ _ ih => (unfold placeGranules; repeat' first
      | with_reducible assumption
      | with_reducible apply ih
      | (injections; subst_vars; with_reducible apply ih)
      | intro _
      | with_reducible refine placeGranule_same (Sub.trans (by decide) hl) ?_)

theorem placeSegment_same {σ : State} {π : List Part} {x : Slice} {o : Nat} {gs : List Granule} {s : State} (hl : Sub [.win, .cells, .counters, .cellMem, .stackMem, .mesh, .budget, .link, .ports, .ocl, .agent] π) (h_s : Same π σ s) :
    Same π σ (placeSegment x o gs s) := by
  unfold placeSegment
  repeat' first
    | with_reducible assumption
    | intro _
    | extract_lets
    | with_reducible refine same_ite ?_ ?_
    | with_reducible refine charge_same (Sub.trans (by decide) hl) ?_
    | with_reducible refine chargeLoad_same (Sub.trans (by decide) hl) ?_
    | with_reducible refine placeGranules_same (Sub.trans (by decide) hl) ?_
    | with_reducible refine countSpan_same (Sub.trans (by decide) hl) ?_
    | with_reducible refine chargeEnergy_same (Sub.trans (by decide) hl) ?_
    | split

theorem placeAll_same {σ : State} {π : List Part} {slices : List Slice} {x0 : List (Option Segment)} {x1 : State} (hl : Sub [.win, .cells, .counters, .cellMem, .stackMem, .mesh, .budget, .link, .ports, .ocl, .agent] π) (h_x1 : Same π σ x1) :
    Same π σ (placeAll slices x0 x1).2 := by
  induction x0 generalizing slices x1 with
  | nil => (unfold placeAll; repeat' first
      | with_reducible assumption
      | intro _
      | with_reducible refine placeSegment_same (Sub.trans (by decide) hl) ?_
      | fail_if_no_progress with_reducible refine same_upd ?_ (fun p hp => by cases p <;> first | exact absurd (hl.mem (by decide)) hp | exact rfl | exact ⟨rfl, rfl⟩ | exact ⟨rfl, rfl, rfl, rfl⟩)
      | with_reducible refine same_snd_ite ?_ ?_
      | split)
  | cons _ _ ih => (unfold placeAll; repeat' first
      | with_reducible assumption
      | with_reducible apply ih
      | (injections; subst_vars; with_reducible apply ih)
      | intro _
      | with_reducible refine placeSegment_same (Sub.trans (by decide) hl) ?_
      | fail_if_no_progress with_reducible refine same_upd ?_ (fun p hp => by cases p <;> first | exact absurd (hl.mem (by decide)) hp | exact rfl | exact ⟨rfl, rfl⟩ | exact ⟨rfl, rfl, rfl, rfl⟩)
      | with_reducible refine same_snd_ite ?_ ?_
      | split)

theorem reloadSlot_same {σ : State} {π : List Part} {m : Nat} {s : State} (hl : Sub [.win] π) (h_s : Same π σ s) :
    Same π σ (reloadSlot m s) := by
  unfold reloadSlot
  repeat' first
    | with_reducible assumption
    | intro _
    | with_reducible refine same_ite ?_ ?_
    | with_reducible refine wr_same (Sub.trans (by decide) hl) ?_
    | split

theorem sendPart_same {σ : State} {π : List Part} {p : PassPart} {s : State} (hl : Sub [.win, .budget, .link, .ports, .ocl, .pair, .free] π) (h_s : Same π σ s) :
    Same π σ (sendPart p s) := by
  unfold sendPart
  repeat' first
    | with_reducible assumption
    | intro _
    | extract_lets
    | with_reducible refine sendSpan_same (Sub.trans (by decide) hl) ?_
    | with_reducible refine chargeEnergy_same (Sub.trans (by decide) hl) ?_
    | with_reducible refine charge_same (Sub.trans (by decide) hl) ?_
    | fail_if_no_progress with_reducible refine same_upd ?_ (fun p hp => by cases p <;> first | exact absurd (hl.mem (by decide)) hp | exact rfl | exact ⟨rfl, rfl⟩ | exact ⟨rfl, rfl, rfl, rfl⟩)

theorem flushPassList_same {σ : State} {π : List Part} {x0 : List PassPart} {x1 : State} (hl : Sub [.win, .budget, .link, .ports, .ocl, .pair, .free] π) (h_x1 : Same π σ x1) :
    Same π σ (flushPassList x0 x1).2 := by
  induction x0 generalizing x1 with
  | nil => (unfold flushPassList; repeat' first
      | with_reducible assumption
      | intro _
      | with_reducible refine same_ite ?_ ?_
      | with_reducible refine sendPart_same (Sub.trans (by decide) hl) ?_
      | with_reducible refine same_snd_ite ?_ ?_
      | split)
  | cons _ _ ih => (unfold flushPassList; repeat' first
      | with_reducible assumption
      | with_reducible apply ih
      | (injections; subst_vars; with_reducible apply ih)
      | intro _
      | with_reducible refine same_ite ?_ ?_
      | with_reducible refine sendPart_same (Sub.trans (by decide) hl) ?_
      | with_reducible refine same_snd_ite ?_ ?_
      | split)

theorem flushPass_same {σ : State} {π : List Part} {s : State} (hl : Sub [.win, .budget, .link, .ports, .ocl, .pair, .free] π) (h_s : Same π σ s) :
    Same π σ (flushPass s) := by
  unfold flushPass
  repeat' first
    | with_reducible assumption
    | intro _
    | extract_lets
    | with_reducible refine flushPassList_same (Sub.trans (by decide) hl) ?_
    | fail_if_no_progress with_reducible refine same_upd ?_ (fun p hp => by cases p <;> first | exact absurd (hl.mem (by decide)) hp | exact rfl | exact ⟨rfl, rfl⟩ | exact ⟨rfl, rfl, rfl, rfl⟩)

theorem passAll_same {σ : State} {π : List Part} {m : Nat} {manifest : Nat} {key : Nat × Nat} {segs : List (Option Segment)} {s : State} (hl : Sub [.win, .budget, .link, .ports, .ocl, .pair, .free] π) (h_s : Same π σ s) :
    Same π σ (passAll m manifest key segs s) := by
  unfold passAll
  repeat' first
    | with_reducible assumption
    | intro _
    | extract_lets
    | with_reducible refine flushPass_same (Sub.trans (by decide) hl) ?_
    | fail_if_no_progress with_reducible refine same_upd ?_ (fun p hp => by cases p <;> first | exact absurd (hl.mem (by decide)) hp | exact rfl | exact ⟨rfl, rfl⟩ | exact ⟨rfl, rfl, rfl, rfl⟩)
    | split
    | dsimp +zetaDelta only

theorem loadPlaced_same {σ : State} {π : List Part} {m : Nat} {key : Nat × Nat} {s : State} (hl : Sub [.win, .svc, .link, .ports, .ocl, .pair] π) (h_s : Same π σ s) :
    Same π σ (loadPlaced m key s) := by
  unfold loadPlaced
  repeat' first
    | with_reducible assumption
    | intro _
    | extract_lets
    | with_reducible refine same_ite ?_ ?_
    | with_reducible refine modModelSlot_same (Sub.trans (by decide) hl) ?_
    | with_reducible refine endLoading_same (Sub.trans (by decide) hl) ?_
    | fail_if_no_progress with_reducible refine same_upd ?_ (fun p hp => by cases p <;> first | exact absurd (hl.mem (by decide)) hp | exact rfl | exact ⟨rfl, rfl⟩ | exact ⟨rfl, rfl, rfl, rfl⟩)
    | split

theorem loadNext_same {σ : State} {π : List Part} {m : Nat} {s : State} (hl : Sub [.win, .svc, .link, .ports, .ocl, .pair] π) (h_s : Same π σ s) :
    Same π σ (loadNext m s) := by
  unfold loadNext
  repeat' first
    | with_reducible assumption
    | intro _
    | with_reducible refine same_ite ?_ ?_
    | with_reducible refine loadPlaced_same (Sub.trans (by decide) hl) ?_
    | with_reducible refine endLoading_same (Sub.trans (by decide) hl) ?_
    | with_reducible refine modModelSlot_same (Sub.trans (by decide) hl) ?_
    | with_reducible refine startFetch_same (Sub.trans (by decide) hl) ?_
    | fail_if_no_progress with_reducible refine same_upd ?_ (fun p hp => by cases p <;> first | exact absurd (hl.mem (by decide)) hp | exact rfl | exact ⟨rfl, rfl⟩ | exact ⟨rfl, rfl, rfl, rfl⟩)
    | split

theorem dropEmpty_same {σ : State} {π : List Part} {m : Nat} {s : State} (hl : Sub [.svc] π) (h_s : Same π σ s) :
    Same π σ (dropEmpty m s) := by
  unfold dropEmpty
  repeat' first
    | with_reducible assumption
    | intro _
    | with_reducible refine modModelSlot_same (Sub.trans (by decide) hl) ?_
    | fail_if_no_progress with_reducible refine same_upd ?_ (fun p hp => by cases p <;> first | exact absurd (hl.mem (by decide)) hp | exact rfl | exact ⟨rfl, rfl⟩ | exact ⟨rfl, rfl, rfl, rfl⟩)

theorem loadList_same {σ : State} {π : List Part} {m : Nat} {s : State} (hl : Sub [.win, .svc, .link, .ports, .ocl, .pair] π) (h_s : Same π σ s) :
    Same π σ (loadList m s) := by
  unfold loadList
  repeat' first
    | with_reducible assumption
    | intro _
    | extract_lets
    | with_reducible refine same_ite ?_ ?_
    | with_reducible refine loadNext_same (Sub.trans (by decide) hl) ?_
    | with_reducible refine startFetch_same (Sub.trans (by decide) hl) ?_
    | split

theorem loadSegment_same {σ : State} {π : List Part} {m : Nat} {key : Nat × Nat} {g : SegRec} {gs : List Granule} {s : State} (hl : Sub [.win, .cells, .counters, .cellMem, .stackMem, .mesh, .budget, .svc, .link, .ports, .ocl, .pair, .agent, .free] π) (h_s : Same π σ s) :
    Same π σ (loadSegment m key g gs s) := by
  unfold loadSegment
  repeat' first
    | with_reducible assumption
    | intro _
    | extract_lets
    | with_reducible refine same_ite ?_ ?_
    | with_reducible refine modModelSlot_same (Sub.trans (by decide) hl) ?_
    | with_reducible refine placeSegment_same (Sub.trans (by decide) hl) ?_
    | with_reducible refine passAll_same (Sub.trans (by decide) hl) ?_
    | fail_if_no_progress with_reducible refine same_upd ?_ (fun p hp => by cases p <;> first | exact absurd (hl.mem (by decide)) hp | exact rfl | exact ⟨rfl, rfl⟩ | exact ⟨rfl, rfl, rfl, rfl⟩)
    | split
    | dsimp +zetaDelta only

theorem loadPartRead_same {σ : State} {π : List Part} {m : Nat} {part : Nat} {bs : List Byte} {s : State} (hl : Sub [.win, .cells, .counters, .cellMem, .stackMem, .mesh, .budget, .svc, .link, .ports, .ocl, .pair, .agent, .free] π) (h_s : Same π σ s) :
    Same π σ (loadPartRead m part bs s) := by
  unfold loadPartRead
  repeat' first
    | with_reducible assumption
    | intro _
    | with_reducible refine loadList_same (Sub.trans (by decide) hl) ?_
    | with_reducible refine modModelSlot_same (Sub.trans (by decide) hl) ?_
    | with_reducible refine loadNext_same (Sub.trans (by decide) hl) ?_
    | with_reducible refine dropEmpty_same (Sub.trans (by decide) hl) ?_
    | with_reducible refine loadSegment_same (Sub.trans (by decide) hl) ?_
    | fail_if_no_progress with_reducible refine same_upd ?_ (fun p hp => by cases p <;> first | exact absurd (hl.mem (by decide)) hp | exact rfl | exact ⟨rfl, rfl⟩ | exact ⟨rfl, rfl, rfl, rfl⟩)
    | split

theorem loadAct_same {σ : State} {π : List Part} {e : BitVec 1024} {s : State} (hl : Sub [.win, .svc, .link, .ports, .ocl, .pair] π) (h_s : Same π σ s) :
    Same π σ (loadAct e s) := by
  unfold loadAct
  repeat' first
    | with_reducible assumption
    | intro _
    | extract_lets
    | with_reducible refine same_ite ?_ ?_
    | with_reducible refine modModelSlot_same (Sub.trans (by decide) hl) ?_
    | with_reducible refine reloadSlot_same (Sub.trans (by decide) hl) ?_
    | with_reducible refine loadList_same (Sub.trans (by decide) hl) ?_
    | with_reducible refine startFetch_same (Sub.trans (by decide) hl) ?_
    | fail_if_no_progress with_reducible refine same_upd ?_ (fun p hp => by cases p <;> first | exact absurd (hl.mem (by decide)) hp | exact rfl | exact ⟨rfl, rfl⟩ | exact ⟨rfl, rfl, rfl, rfl⟩)
    | split

theorem resumeLoads_same {σ : State} {π : List Part} {s : State} (hl : Sub [.win, .svc, .link, .ports, .ocl, .pair] π) (h_s : Same π σ s) :
    Same π σ (resumeLoads s) := by
  unfold resumeLoads
  repeat' first
    | with_reducible assumption
    | intro _
    | with_reducible refine forEach_same ?_ ?_
    | with_reducible refine when_same ?_ ?_
    | with_reducible refine loadNext_same (Sub.trans (by decide) hl) ?_

theorem loadWeights_same {σ : State} {π : List Part} {r : Nat} {e : BitVec 1024} {s : State} (hl : Sub [.win, .budget, .svc, .link, .ports, .ocl, .pair, .free] π) (h_s : Same π σ s) :
    Same π σ (loadWeights r e s) := by
  unfold loadWeights
  repeat' first
    | with_reducible assumption
    | intro _
    | with_reducible refine same_ite ?_ ?_
    | with_reducible refine waitEntry_same (Sub.trans (by decide) hl) ?_
    | with_reducible refine takeEntry_same (Sub.trans (by decide) hl) ?_ ?_
    | with_reducible refine loadAct_same (Sub.trans (by decide) hl) ?_
    | split

theorem execLoadWeights_same {σ : State} {π : List Part} {r : Nat} {lower : BitVec 512} {upper : BitVec 512} {s : State} (hl : Sub [.win, .budget, .svc, .link, .ports, .ocl, .pair, .free] π) (h_s : Same π σ s) :
    ∃ τ, execLoadWeights r lower upper s = .next τ ∧ Same π σ τ := by
  refine ⟨_, rfl, ?_⟩
  repeat' first
    | with_reducible assumption
    | intro _
    | with_reducible refine loadWeights_same (Sub.trans (by decide) hl) ?_

theorem fetchSlices_same {σ : State} {π : List Part} {m : Nat} {s : State} (hl : Sub [.win, .link, .ports, .ocl] π) (h_s : Same π σ s) :
    Same π σ (fetchSlices m s) := by
  unfold fetchSlices
  repeat' first
    | with_reducible assumption
    | intro _
    | extract_lets
    | with_reducible refine same_ite ?_ ?_
    | with_reducible refine readTokens_same (Sub.trans (by decide) hl) ?_
    | split

theorem receiveAct_same {σ : State} {π : List Part} {e : BitVec 1024} {s : State} (hl : Sub [.win, .svc, .link, .ports, .ocl] π) (h_s : Same π σ s) :
    Same π σ (receiveAct e s) := by
  unfold receiveAct
  repeat' first
    | with_reducible assumption
    | intro _
    | extract_lets
    | with_reducible refine same_ite ?_ ?_
    | with_reducible refine fetchSlices_same (Sub.trans (by decide) hl) ?_
    | with_reducible refine modModelSlot_same (Sub.trans (by decide) hl) ?_
    | with_reducible refine reloadSlot_same (Sub.trans (by decide) hl) ?_
    | fail_if_no_progress with_reducible refine same_upd ?_ (fun p hp => by cases p <;> first | exact absurd (hl.mem (by decide)) hp | exact rfl | exact ⟨rfl, rfl⟩ | exact ⟨rfl, rfl, rfl, rfl⟩)
    | split

theorem loadReceive_same {σ : State} {π : List Part} {r : Nat} {e : BitVec 1024} {s : State} (hl : Sub [.win, .budget, .svc, .link, .ports, .ocl, .pair, .free] π) (h_s : Same π σ s) :
    Same π σ (loadReceive r e s) := by
  unfold loadReceive
  repeat' first
    | with_reducible assumption
    | intro _
    | with_reducible refine takeEntry_same (Sub.trans (by decide) hl) ?_ ?_
    | with_reducible refine receiveAct_same (Sub.trans (by decide) hl) ?_

theorem execLoadReceive_same {σ : State} {π : List Part} {r : Nat} {e : BitVec 1024} {s : State} (hl : Sub [.win, .budget, .svc, .link, .ports, .ocl, .pair, .free] π) (h_s : Same π σ s) :
    ∃ τ, execLoadReceive r e s = .next τ ∧ Same π σ τ := by
  refine ⟨_, rfl, ?_⟩
  repeat' first
    | with_reducible assumption
    | intro _
    | with_reducible refine loadReceive_same (Sub.trans (by decide) hl) ?_

theorem loadReceiveTimeout_same {σ : State} {π : List Part} {m : Nat} {s : State} (hl : Sub [.win, .svc, .link, .ports, .ocl] π) (h_s : Same π σ s) :
    Same π σ (loadReceiveTimeout m s) := by
  unfold loadReceiveTimeout
  repeat' first
    | with_reducible assumption
    | intro _
    | with_reducible refine same_ite ?_ ?_
    | with_reducible refine endReceive_same (Sub.trans (by decide) hl) ?_
    | fail_if_no_progress with_reducible refine same_upd ?_ (fun p hp => by cases p <;> first | exact absurd (hl.mem (by decide)) hp | exact rfl | exact ⟨rfl, rfl⟩ | exact ⟨rfl, rfl, rfl, rfl⟩)
    | split

theorem execLoadReceiveTimeout_same {σ : State} {π : List Part} {m : Nat} {s : State} (hl : Sub [.win, .svc, .link, .ports, .ocl] π) (h_s : Same π σ s) :
    ∃ τ, execLoadReceiveTimeout m s = .next τ ∧ Same π σ τ := by
  refine ⟨_, rfl, ?_⟩
  repeat' first
    | with_reducible assumption
    | intro _
    | with_reducible refine loadReceiveTimeout_same (Sub.trans (by decide) hl) ?_

theorem sliceReads_same {σ : State} {π : List Part} {envs : CellEnvs} {x : Slice} {s : State} (hl : Sub [.win, .cells, .mesh, .budget, .link, .ports, .ocl] π) (h_s : Same π σ s) :
    Same π σ (sliceReads envs x s) := by
  unfold sliceReads
  repeat' first
    | with_reducible assumption
    | intro _
    | extract_lets
    | with_reducible refine same_ite ?_ ?_
    | with_reducible refine charge_same (Sub.trans (by decide) hl) ?_
    | with_reducible refine chargeLoad_same (Sub.trans (by decide) hl) ?_
    | with_reducible refine loadReads_same (Sub.trans (by decide) hl) ?_
    | with_reducible refine countSpan_same (Sub.trans (by decide) hl) ?_
    | with_reducible refine chargeEnergy_same (Sub.trans (by decide) hl) ?_
    | split

theorem writeHost_same {σ : State} {π : List Part} {a : Nat} {g : Granule} {s : State} (hl : Sub [.win, .link, .ports, .ocl] π) (h_s : Same π σ s) :
    Same π σ (writeHost a g s) := by
  unfold writeHost
  repeat' first
    | with_reducible assumption
    | intro _
    | extract_lets
    | with_reducible refine same_ite ?_ ?_
    | with_reducible refine sendWr_same (Sub.trans (by decide) hl) ?_
    | with_reducible refine sendWrPart_same (Sub.trans (by decide) hl) ?_
    | split

theorem writeHostAll_same {σ : State} {π : List Part} {x0 : Nat} {x1 : List Granule} {x2 : State} (hl : Sub [.win, .link, .ports, .ocl] π) (h_x2 : Same π σ x2) :
    Same π σ (writeHostAll x0 x1 x2) := by
  induction x1 generalizing x0 x2 with
  | nil => (unfold writeHostAll; repeat' first
      | with_reducible assumption
      | intro _
      | with_reducible refine writeHost_same (Sub.trans (by decide) hl) ?_)
  | cons _ _ ih => (unfold writeHostAll; repeat' first
      | with_reducible assumption
      | with_reducible apply ih
      | (injections; subst_vars; with_reducible apply ih)
      | intro _
      | with_reducible refine writeHost_same (Sub.trans (by decide) hl) ?_)

theorem readbackAct_same {σ : State} {π : List Part} {envs : CellEnvs} {e : BitVec 1024} {s : State} (hl : Sub [.win, .cells, .mesh, .budget, .svc, .link, .ports, .ocl] π) (h_s : Same π σ s) :
    Same π σ (readbackAct envs e s) := by
  unfold readbackAct
  repeat' first
    | with_reducible assumption
    | intro _
    | extract_lets
    | with_reducible refine forEach_same ?_ ?_
    | with_reducible refine sliceReads_same (Sub.trans (by decide) hl) ?_
    | with_reducible refine putCmdDone_same (Sub.trans (by decide) hl) ?_
    | with_reducible refine writeHostAll_same (Sub.trans (by decide) hl) ?_

theorem readback_same {σ : State} {π : List Part} {r : Nat} {x : ReadbackTake} {s : State} (hl : Sub [.win, .cells, .mesh, .budget, .svc, .link, .ports, .ocl, .pair, .free] π) (h_s : Same π σ s) :
    Same π σ (readback r x s) := by
  unfold readback
  repeat' first
    | with_reducible assumption
    | intro _
    | extract_lets
    | with_reducible refine same_ite ?_ ?_
    | with_reducible refine waitEntry_same (Sub.trans (by decide) hl) ?_
    | with_reducible refine takeEntry_same (Sub.trans (by decide) hl) ?_ ?_
    | with_reducible refine readbackAct_same (Sub.trans (by decide) hl) ?_
    | split

theorem execReadback_same {σ : State} {π : List Part} {r : Nat} {x : ReadbackTake} {s : State} (hl : Sub [.win, .cells, .mesh, .budget, .svc, .link, .ports, .ocl, .pair, .free] π) (h_s : Same π σ s) :
    ∃ τ, execReadback r x s = .next τ ∧ Same π σ τ := by
  refine ⟨_, rfl, ?_⟩
  repeat' first
    | with_reducible assumption
    | intro _
    | with_reducible refine readback_same (Sub.trans (by decide) hl) ?_

theorem fillKv_same {σ : State} {π : List Part} {q : Request} {s : State} (hl : Sub [.kv] π) (h_s : Same π σ s) :
    Same π σ (fillKv q s) := by
  unfold fillKv
  repeat' first
    | with_reducible assumption
    | intro _
    | extract_lets
    | fail_if_no_progress with_reducible refine same_upd ?_ (fun p hp => by cases p <;> first | exact absurd (hl.mem (by decide)) hp | exact rfl | exact ⟨rfl, rfl⟩ | exact ⟨rfl, rfl, rfl, rfl⟩)
    | split
    | dsimp +zetaDelta only

theorem hotWindowFill_same {σ : State} {π : List Part} {id : Nat} {s : State} (hl : Sub [.win, .budget, .kv, .svc, .link, .ports, .ocl] π) (h_s : Same π σ s) :
    Same π σ (hotWindowFill id s) := by
  unfold hotWindowFill
  repeat' first
    | with_reducible assumption
    | intro _
    | extract_lets
    | with_reducible refine same_ite ?_ ?_
    | with_reducible refine charge_same (Sub.trans (by decide) hl) ?_
    | with_reducible refine chargeEnergy_same (Sub.trans (by decide) hl) ?_
    | with_reducible refine modRequest_same (Sub.trans (by decide) hl) ?_
    | with_reducible refine forEach_same ?_ ?_
    | with_reducible refine countSpan_same (Sub.trans (by decide) hl) ?_
    | with_reducible refine fillKv_same (Sub.trans (by decide) hl) ?_
    | fail_if_no_progress with_reducible refine same_upd ?_ (fun p hp => by cases p <;> first | exact absurd (hl.mem (by decide)) hp | exact rfl | exact ⟨rfl, rfl⟩ | exact ⟨rfl, rfl, rfl, rfl⟩)
    | split
    | dsimp +zetaDelta only

theorem execHotWindowFill_same {σ : State} {π : List Part} {id : Nat} {s : State} (hl : Sub [.win, .budget, .kv, .svc, .link, .ports, .ocl] π) (h_s : Same π σ s) :
    ∃ τ, execHotWindowFill id s = .next τ ∧ Same π σ τ := by
  refine ⟨_, rfl, ?_⟩
  repeat' first
    | with_reducible assumption
    | intro _
    | with_reducible refine hotWindowFill_same (Sub.trans (by decide) hl) ?_

end Sys2Proof.Machine
end

