-- ==== Sys2Proof/Laws/FrameSteps.lean ====
section
/-!
SUPPORT. The parts that may change, for every function of Machine/Steps.lean that changes the state.
-/
set_option Elab.async false
namespace Sys2Proof.Machine
open Sys2Proof

theorem addTele_same {σ : State} {π : List Part} {m : Nat} {k : Nat} {n : Nat} {s : State} (hl : Sub [.svc] π) (h_s : Same π σ s) :
    Same π σ (addTele m k n s) := by
  unfold addTele
  repeat' first
    | with_reducible assumption
    | intro _
    | with_reducible refine modModelSlot_same (Sub.trans (by decide) hl) ?_
    | fail_if_no_progress with_reducible refine same_upd ?_ (fun p hp => by cases p <;> first | exact absurd (hl.mem (by decide)) hp | exact rfl | exact ⟨rfl, rfl⟩ | exact ⟨rfl, rfl, rfl, rfl⟩)

theorem joinStep_same {σ : State} {π : List Part} {p : Request × StepSeq} {s : State} (hl : Sub [.svc] π) (h_s : Same π σ s) :
    Same π σ (joinStep p s) := by
  unfold joinStep
  repeat' first
    | with_reducible assumption
    | intro _
    | extract_lets
    | with_reducible refine same_ite ?_ ?_
    | with_reducible refine modRequest_same (Sub.trans (by decide) hl) ?_
    | with_reducible refine when_same ?_ ?_
    | with_reducible refine reserveEntry_same (Sub.trans (by decide) hl) ?_
    | fail_if_no_progress with_reducible refine same_upd ?_ (fun p hp => by cases p <;> first | exact absurd (hl.mem (by decide)) hp | exact rfl | exact ⟨rfl, rfl⟩ | exact ⟨rfl, rfl, rfl, rfl⟩)
    | split

theorem formStep_same {σ : State} {π : List Part} {m : Nat} {launch : Nat} {entry : Nat} {l : List (Request × StepSeq)} {s : State} (hl : Sub [.win, .svc, .ledger] π) (h_s : Same π σ s) :
    Same π σ (formStep m launch entry l s) := by
  unfold formStep
  repeat' first
    | with_reducible assumption
    | intro _
    | extract_lets
    | with_reducible refine showLedger_same (Sub.trans (by decide) hl) ?_
    | with_reducible refine forEach_same ?_ ?_
    | with_reducible refine joinStep_same (Sub.trans (by decide) hl) ?_
    | with_reducible refine addTele_same (Sub.trans (by decide) hl) ?_
    | with_reducible refine modModelSlot_same (Sub.trans (by decide) hl) ?_
    | fail_if_no_progress with_reducible refine same_upd ?_ (fun p hp => by cases p <;> first | exact absurd (hl.mem (by decide)) hp | exact rfl | exact ⟨rfl, rfl⟩ | exact ⟨rfl, rfl, rfl, rfl⟩)

theorem relaunch_same {σ : State} {π : List Part} {e : LedgerEntry} {launch : Nat} {s : State} (hl : Sub [.win, .svc, .ledger] π) (h_s : Same π σ s) :
    Same π σ (relaunch e launch s) := by
  unfold relaunch
  repeat' first
    | with_reducible assumption
    | intro _
    | with_reducible refine addTele_same (Sub.trans (by decide) hl) ?_
    | with_reducible refine bump_same (Sub.trans (by decide) hl) ?_
    | with_reducible refine modLedger_same (Sub.trans (by decide) hl) ?_
    | fail_if_no_progress with_reducible refine same_upd ?_ (fun p hp => by cases p <;> first | exact absurd (hl.mem (by decide)) hp | exact rfl | exact ⟨rfl, rfl⟩ | exact ⟨rfl, rfl, rfl, rfl⟩)

theorem splitStep_same {σ : State} {π : List Part} {e : LedgerEntry} {s : State} (hl : Sub [.win, .ledger] π) (h_s : Same π σ s) :
    Same π σ (splitStep e s) := by
  unfold splitStep
  repeat' first
    | with_reducible assumption
    | intro _
    | extract_lets
    | with_reducible refine same_ite ?_ ?_
    | with_reducible refine modLedger_same (Sub.trans (by decide) hl) ?_
    | with_reducible refine forEach_same ?_ ?_
    | with_reducible refine showLedger_same (Sub.trans (by decide) hl) ?_
    | fail_if_no_progress with_reducible refine same_upd ?_ (fun p hp => by cases p <;> first | exact absurd (hl.mem (by decide)) hp | exact rfl | exact ⟨rfl, rfl⟩ | exact ⟨rfl, rfl, rfl, rfl⟩)
    | split
    | dsimp +zetaDelta only

theorem markReplay_same {σ : State} {π : List Part} {e : LedgerEntry} {s : State} (hl : Sub [.win, .stackMem, .kv, .svc, .ledger, .link, .ports, .ocl] π) (h_s : Same π σ s) :
    Same π σ (markReplay e s) := by
  unfold markReplay
  repeat' first
    | with_reducible assumption
    | intro _
    | extract_lets
    | with_reducible refine same_ite ?_ ?_
    | with_reducible refine forEach_same ?_ ?_
    | with_reducible refine endRequest_same (Sub.trans (by decide) hl) ?_
    | with_reducible refine abandonStep_same (Sub.trans (by decide) hl) ?_
    | with_reducible refine modLedger_same (Sub.trans (by decide) hl) ?_
    | with_reducible refine discardKv_same (Sub.trans (by decide) hl) ?_
    | with_reducible refine splitStep_same (Sub.trans (by decide) hl) ?_
    | fail_if_no_progress with_reducible refine same_upd ?_ (fun p hp => by cases p <;> first | exact absurd (hl.mem (by decide)) hp | exact rfl | exact ⟨rfl, rfl⟩ | exact ⟨rfl, rfl, rfl, rfl⟩)
    | split

theorem setResult_same {σ : State} {π : List Part} {i : Nat} {xs : List StepSeq} {s : State} (hl : Sub [.ledger] π) (h_s : Same π σ s) :
    Same π σ (setResult i xs s) := by
  unfold setResult
  repeat' first
    | with_reducible assumption
    | intro _
    | with_reducible refine modLedger_same (Sub.trans (by decide) hl) ?_
    | fail_if_no_progress with_reducible refine same_upd ?_ (fun p hp => by cases p <;> first | exact absurd (hl.mem (by decide)) hp | exact rfl | exact ⟨rfl, rfl⟩ | exact ⟨rfl, rfl, rfl, rfl⟩)

theorem backSlot_same {σ : State} {π : List Part} {m : Nat} {x : StepSeq} {s : State} (hl : Sub [.win, .stackMem, .kv] π) (h_s : Same π σ s) :
    Same π σ (backSlot m x s) := by
  unfold backSlot
  repeat' first
    | with_reducible assumption
    | intro _
    | extract_lets
    | with_reducible refine same_ite ?_ ?_
    | with_reducible refine setSeqSlot_same (Sub.trans (by decide) hl) ?_
    | with_reducible refine clearPages_same (Sub.trans (by decide) hl) ?_
    | with_reducible refine returnResv_same (Sub.trans (by decide) hl) ?_
    | with_reducible refine clearList_same (Sub.trans (by decide) hl) ?_
    | with_reducible refine wr_same (Sub.trans (by decide) hl) ?_
    | fail_if_no_progress with_reducible refine same_upd ?_ (fun p hp => by cases p <;> first | exact absurd (hl.mem (by decide)) hp | exact rfl | exact ⟨rfl, rfl⟩ | exact ⟨rfl, rfl, rfl, rfl⟩)
    | split

theorem launchBack_same {σ : State} {π : List Part} {b : BackStep} {s : State} (hl : Sub [.win, .stackMem, .kv, .svc, .pair] π) (h_s : Same π σ s) :
    Same π σ (launchBack b s) := by
  unfold launchBack
  repeat' first
    | with_reducible assumption
    | intro _
    | extract_lets
    | with_reducible refine forEach_same ?_ ?_
    | with_reducible refine backSlot_same (Sub.trans (by decide) hl) ?_
    | with_reducible refine addTele_same (Sub.trans (by decide) hl) ?_
    | fail_if_no_progress with_reducible refine same_upd ?_ (fun p hp => by cases p <;> first | exact absurd (hl.mem (by decide)) hp | exact rfl | exact ⟨rfl, rfl⟩ | exact ⟨rfl, rfl, rfl, rfl⟩)

theorem backResult_same {σ : State} {π : List Part} {b : BackStep} {scores : List SeqScores} {s : State} (hl : Sub [.win, .link, .ports, .ocl, .pair, .free] π) (h_s : Same π σ s) :
    Same π σ (backResult b scores s) := by
  unfold backResult
  repeat' first
    | with_reducible assumption
    | intro _
    | extract_lets
    | with_reducible refine same_ite ?_ ?_
    | with_reducible refine sendSpan_same (Sub.trans (by decide) hl) ?_
    | fail_if_no_progress with_reducible refine same_upd ?_ (fun p hp => by cases p <;> first | exact absurd (hl.mem (by decide)) hp | exact rfl | exact ⟨rfl, rfl⟩ | exact ⟨rfl, rfl, rfl, rfl⟩)
    | split

theorem scommitted_same {σ : State} {π : List Part} {m : Nat} {launch : Nat} {s : State} (hl : Sub [.pair] π) (h_s : Same π σ s) :
    Same π σ (scommitted m launch s) := by
  unfold scommitted
  repeat' first
    | with_reducible assumption
    | intro _
    | with_reducible refine same_ite ?_ ?_
    | fail_if_no_progress with_reducible refine same_upd ?_ (fun p hp => by cases p <;> first | exact absurd (hl.mem (by decide)) hp | exact rfl | exact ⟨rfl, rfl⟩ | exact ⟨rfl, rfl, rfl, rfl⟩)
    | split

theorem stepResult_same {σ : State} {π : List Part} {i : Nat} {scores : List SeqScores} {s : State} (hl : Sub [.win, .ledger, .link, .ports, .ocl, .pair, .free] π) (h_s : Same π σ s) :
    Same π σ (stepResult i scores s) := by
  unfold stepResult
  repeat' first
    | with_reducible assumption
    | intro _
    | with_reducible refine same_ite ?_ ?_
    | with_reducible refine setResult_same (Sub.trans (by decide) hl) ?_
    | with_reducible refine backResult_same (Sub.trans (by decide) hl) ?_
    | fail_if_no_progress with_reducible refine same_upd ?_ (fun p hp => by cases p <;> first | exact absurd (hl.mem (by decide)) hp | exact rfl | exact ⟨rfl, rfl⟩ | exact ⟨rfl, rfl, rfl, rfl⟩)
    | split

theorem execStepResult_same {σ : State} {π : List Part} {i : Nat} {scores : List SeqScores} {s : State} (hl : Sub [.win, .ledger, .link, .ports, .ocl, .pair, .free] π) (h_s : Same π σ s) :
    ∃ τ, execStepResult i scores s = .next τ ∧ Same π σ τ := by
  refine ⟨_, rfl, ?_⟩
  repeat' first
    | with_reducible assumption
    | intro _
    | with_reducible refine stepResult_same (Sub.trans (by decide) hl) ?_

theorem completePfx_same {σ : State} {π : List Part} {q : Request} {s : State} (hl : Sub [.svc] π) (h_s : Same π σ s) :
    Same π σ (completePfx q s) := by
  unfold completePfx
  repeat' first
    | with_reducible assumption
    | intro _
    | extract_lets
    | with_reducible refine modPfx_same (Sub.trans (by decide) hl) ?_
    | fail_if_no_progress with_reducible refine same_upd ?_ (fun p hp => by cases p <;> first | exact absurd (hl.mem (by decide)) hp | exact rfl | exact ⟨rfl, rfl⟩ | exact ⟨rfl, rfl, rfl, rfl⟩)

theorem advanceRequest_same {σ : State} {π : List Part} {e : LedgerEntry} {x : StepSeq} {s : State} (hl : Sub [.svc] π) (h_s : Same π σ s) :
    Same π σ (advanceRequest e x s) := by
  unfold advanceRequest
  repeat' first
    | with_reducible assumption
    | intro _
    | extract_lets
    | with_reducible refine same_ite ?_ ?_
    | with_reducible refine modRequest_same (Sub.trans (by decide) hl) ?_
    | fail_if_no_progress with_reducible refine same_upd ?_ (fun p hp => by cases p <;> first | exact absurd (hl.mem (by decide)) hp | exact rfl | exact ⟨rfl, rfl⟩ | exact ⟨rfl, rfl, rfl, rfl⟩)
    | split

theorem noteLate_same {σ : State} {π : List Part} {m : Nat} {s : State} (hl : Sub [.win, .svc, .link, .ports, .ocl] π) (h_s : Same π σ s) :
    Same π σ (noteLate m s) :=
  modModelSlot_same (Sub.trans (by decide) hl) (raise_same (Sub.trans (by decide) hl) h_s)

theorem commitSeq_same {σ : State} {π : List Part} {e : LedgerEntry} {x : StepSeq} {s : State} (hl : Sub [.win, .stackMem, .budget, .kv, .svc, .link, .ports, .ocl, .pair, .free] π) (h_s : Same π σ s) :
    Same π σ (commitSeq e x s) := by
  unfold commitSeq
  repeat' first
    | with_reducible assumption
    | intro _
    | extract_lets
    | with_reducible refine openPages_same (Sub.trans (by decide) hl) ?_
    | with_reducible refine commitKv_same (Sub.trans (by decide) hl) ?_
    | with_reducible refine modSeqSlot_same (Sub.trans (by decide) hl) ?_
    | with_reducible refine when_same ?_ ?_
    | with_reducible refine raise_same (Sub.trans (by decide) hl) ?_
    | with_reducible refine noteLate_same (Sub.trans (by decide) hl) ?_
    | with_reducible refine advanceRequest_same (Sub.trans (by decide) hl) ?_
    | with_reducible refine putTokens_same (Sub.trans (by decide) hl) ?_
    | with_reducible refine completePfx_same (Sub.trans (by decide) hl) ?_
    | fail_if_no_progress with_reducible refine same_upd ?_ (fun p hp => by cases p <;> first | exact absurd (hl.mem (by decide)) hp | exact rfl | exact ⟨rfl, rfl⟩ | exact ⟨rfl, rfl, rfl, rfl⟩)
    | split
    | dsimp +zetaDelta only

theorem finishSeq_same {σ : State} {π : List Part} {ends : List (Nat × Nat)} {s : State} (hl : Sub [.win, .stackMem, .kv, .svc, .link, .ports, .ocl] π) (h_s : Same π σ s) :
    Same π σ (finishSeq ends s) := by
  unfold finishSeq
  repeat' first
    | with_reducible assumption
    | intro _
    | with_reducible refine forEach_same ?_ ?_
    | with_reducible refine endRequest_same (Sub.trans (by decide) hl) ?_

theorem mirrorStepSeq_same {σ : State} {π : List Part} {x : StepSeq} {s : State} (hl : Sub [.win, .budget, .link, .ports, .ocl, .pair, .free] π) (h_s : Same π σ s) :
    Same π σ (mirrorStepSeq x s) := by
  unfold mirrorStepSeq
  repeat' first
    | with_reducible assumption
    | intro _
    | extract_lets
    | with_reducible refine mirrorState_same (Sub.trans (by decide) hl) ?_
    | with_reducible refine mirrorKv_same (Sub.trans (by decide) hl) ?_
    | with_reducible refine when_same ?_ ?_
    | with_reducible refine mirrorPfx_same (Sub.trans (by decide) hl) ?_
    | fail_if_no_progress with_reducible refine same_upd ?_ (fun p hp => by cases p <;> first | exact absurd (hl.mem (by decide)) hp | exact rfl | exact ⟨rfl, rfl⟩ | exact ⟨rfl, rfl, rfl, rfl⟩)
    | split
    | dsimp +zetaDelta only

theorem mirrorStep_same {σ : State} {π : List Part} {e : LedgerEntry} {s : State} (hl : Sub [.win, .budget, .ledger, .link, .ports, .ocl, .pair, .free] π) (h_s : Same π σ s) :
    Same π σ (mirrorStep e s) := by
  unfold mirrorStep
  repeat' first
    | with_reducible assumption
    | intro _
    | extract_lets
    | with_reducible refine same_ite ?_ ?_
    | with_reducible refine forEach_same ?_ ?_
    | with_reducible refine mirrorStepSeq_same (Sub.trans (by decide) hl) ?_
    | with_reducible refine mirrorCommit_same (Sub.trans (by decide) hl) ?_
    | with_reducible refine modLedger_same (Sub.trans (by decide) hl) ?_
    | fail_if_no_progress with_reducible refine same_upd ?_ (fun p hp => by cases p <;> first | exact absurd (hl.mem (by decide)) hp | exact rfl | exact ⟨rfl, rfl⟩ | exact ⟨rfl, rfl, rfl, rfl⟩)
    | split
    | dsimp +zetaDelta only

theorem sendScommit_same {σ : State} {π : List Part} {e : LedgerEntry} {s : State} (hl : Sub [.win, .link, .ports, .ocl, .pair, .free] π) (h_s : Same π σ s) :
    Same π σ (sendScommit e s) := by
  unfold sendScommit
  repeat' first
    | with_reducible assumption
    | intro _
    | with_reducible refine same_ite ?_ ?_
    | with_reducible refine sendSpan_same (Sub.trans (by decide) hl) ?_
    | split

theorem backCommitSeq_same {σ : State} {π : List Part} {m : Nat} {x : StepSeq} {s : State} (hl : Sub [.win, .stackMem, .kv, .link, .ports, .ocl] π) (h_s : Same π σ s) :
    Same π σ (backCommitSeq m x s) := by
  unfold backCommitSeq
  repeat' first
    | with_reducible assumption
    | intro _
    | extract_lets
    | with_reducible refine modSeqSlot_same (Sub.trans (by decide) hl) ?_
    | with_reducible refine openPages_same (Sub.trans (by decide) hl) ?_
    | with_reducible refine commitKv_same (Sub.trans (by decide) hl) ?_
    | with_reducible refine when_same ?_ ?_
    | with_reducible refine raise_same (Sub.trans (by decide) hl) ?_
    | fail_if_no_progress with_reducible refine same_upd ?_ (fun p hp => by cases p <;> first | exact absurd (hl.mem (by decide)) hp | exact rfl | exact ⟨rfl, rfl⟩ | exact ⟨rfl, rfl, rfl, rfl⟩)

theorem backCommit_same {σ : State} {π : List Part} {b : BackStep} {s : State} (hl : Sub [.win, .stackMem, .kv, .link, .ports, .ocl, .pair] π) (h_s : Same π σ s) :
    Same π σ (backCommit b s) := by
  unfold backCommit
  repeat' first
    | with_reducible assumption
    | intro _
    | with_reducible refine same_ite ?_ ?_
    | with_reducible refine forEach_same ?_ ?_
    | with_reducible refine backCommitSeq_same (Sub.trans (by decide) hl) ?_
    | fail_if_no_progress with_reducible refine same_upd ?_ (fun p hp => by cases p <;> first | exact absurd (hl.mem (by decide)) hp | exact rfl | exact ⟨rfl, rfl⟩ | exact ⟨rfl, rfl, rfl, rfl⟩)
    | split

theorem stepCommit_same {σ : State} {π : List Part} {i : Nat} {s : State} (hl : Sub [.win, .stackMem, .budget, .kv, .svc, .ledger, .link, .ports, .ocl, .pair, .free] π) (h_s : Same π σ s) :
    Same π σ (stepCommit i s) := by
  unfold stepCommit
  repeat' first
    | with_reducible assumption
    | intro _
    | extract_lets
    | with_reducible refine same_ite ?_ ?_
    | with_reducible refine backCommit_same (Sub.trans (by decide) hl) ?_
    | with_reducible refine addTele_same (Sub.trans (by decide) hl) ?_
    | with_reducible refine bumpBy_same (Sub.trans (by decide) hl) ?_
    | with_reducible refine modLedger_same (Sub.trans (by decide) hl) ?_
    | with_reducible refine forEach_same ?_ ?_
    | with_reducible refine commitSeq_same (Sub.trans (by decide) hl) ?_
    | with_reducible refine sendScommit_same (Sub.trans (by decide) hl) ?_
    | with_reducible refine mirrorStep_same (Sub.trans (by decide) hl) ?_
    | with_reducible refine settleLedger_same (Sub.trans (by decide) hl) ?_
    | with_reducible refine finishSeq_same (Sub.trans (by decide) hl) ?_
    | fail_if_no_progress with_reducible refine same_upd ?_ (fun p hp => by cases p <;> first | exact absurd (hl.mem (by decide)) hp | exact rfl | exact ⟨rfl, rfl⟩ | exact ⟨rfl, rfl, rfl, rfl⟩)
    | with_reducible refine foldl_same ?_ ?_
    | split
    | dsimp +zetaDelta only

theorem execStepCommit_same {σ : State} {π : List Part} {i : Nat} {s : State} (hl : Sub [.win, .stackMem, .budget, .kv, .svc, .ledger, .link, .ports, .ocl, .pair, .free] π) (h_s : Same π σ s) :
    ∃ τ, execStepCommit i s = .next τ ∧ Same π σ τ := by
  refine ⟨_, rfl, ?_⟩
  repeat' first
    | with_reducible assumption
    | intro _
    | with_reducible refine stepCommit_same (Sub.trans (by decide) hl) ?_

end Sys2Proof.Machine
end

