-- ==== Sys2Proof/Laws/FrameSched.lean ====
section
/-!
SUPPORT. The parts that may change, for every function of Machine/Sched.lean that changes the state.
-/
set_option Elab.async false
namespace Sys2Proof.Machine
open Sys2Proof

theorem noteBlocked_same {σ : State} {π : List Part} {ps : List LaunchPlan} {s : State} (hl : Sub [.win, .link, .ports, .ocl] π) (h_s : Same π σ s) :
    Same π σ (noteBlocked ps s) := by
  unfold noteBlocked
  repeat' first
    | with_reducible assumption
    | intro _
    | with_reducible refine when_same ?_ ?_
    | with_reducible refine raise_same (Sub.trans (by decide) hl) ?_

theorem decideHold_same {σ : State} {π : List Part} {s : State} (hl : Sub [.win, .prec, .sched, .link, .ports, .ocl] π) (h_s : Same π σ s) :
    Same π σ (decideHold s) := by
  unfold decideHold
  repeat' first
    | with_reducible assumption
    | intro _
    | extract_lets
    | with_reducible refine same_ite ?_ ?_
    | with_reducible refine carryWiden_same (Sub.trans (by decide) hl) ?_
    | with_reducible refine noteBlocked_same (Sub.trans (by decide) hl) ?_
    | fail_if_no_progress with_reducible refine same_upd ?_ (fun p hp => by cases p <;> first | exact absurd (hl.mem (by decide)) hp | exact rfl | exact ⟨rfl, rfl⟩ | exact ⟨rfl, rfl, rfl, rfl⟩)
    | split

theorem slotMismatch_same {σ : State} {π : List Part} {c : Nat} {s : State} (hl : Sub [.win, .mesh, .link, .ports, .ocl] π) (h_s : Same π σ s) :
    Same π σ (slotMismatch c s) := by
  unfold slotMismatch
  repeat' first
    | with_reducible assumption
    | intro _
    | with_reducible refine same_ite ?_ ?_
    | with_reducible refine report_same (Sub.trans (by decide) hl) ?_
    | with_reducible refine raise_same (Sub.trans (by decide) hl) ?_
    | split

theorem holdDecision_same {σ : State} {π : List Part} {x : SlotInputs} {s : State} (hl : Sub [.win, .mesh, .prec, .sched, .link, .ports, .ocl] π) (h_s : Same π σ s) :
    Same π σ (holdDecision x s) := by
  unfold holdDecision
  repeat' first
    | with_reducible assumption
    | intro _
    | extract_lets
    | with_reducible refine forEach_same ?_ ?_
    | with_reducible refine slotMismatch_same (Sub.trans (by decide) hl) ?_
    | with_reducible refine decideHold_same (Sub.trans (by decide) hl) ?_
    | fail_if_no_progress with_reducible refine same_upd ?_ (fun p hp => by cases p <;> first | exact absurd (hl.mem (by decide)) hp | exact rfl | exact ⟨rfl, rfl⟩ | exact ⟨rfl, rfl, rfl, rfl⟩)
    | split
    | dsimp +zetaDelta only

theorem execHoldDecision_same {σ : State} {π : List Part} {x : SlotInputs} {s : State} (hl : Sub [.win, .mesh, .prec, .sched, .link, .ports, .ocl] π) (h_s : Same π σ s) :
    ∃ τ, execHoldDecision x s = .next τ ∧ Same π σ τ := by
  refine ⟨_, rfl, ?_⟩
  repeat' first
    | with_reducible assumption
    | intro _
    | with_reducible refine holdDecision_same (Sub.trans (by decide) hl) ?_

theorem shiftCells_same {σ : State} {π : List Part} {field : Nat} {row : Nat} {g : Nat} {d : Nat} {s : State} (hl : Sub [.cellMem] π) (h_s : Same π σ s) :
    Same π σ (shiftCells field row g d s) := by
  unfold shiftCells
  repeat' first
    | with_reducible assumption
    | intro _
    | extract_lets
    | fail_if_no_progress with_reducible refine same_upd ?_ (fun p hp => by cases p <;> first | exact absurd (hl.mem (by decide)) hp | exact rfl | exact ⟨rfl, rfl⟩ | exact ⟨rfl, rfl, rfl, rfl⟩)

theorem noteShift_same {σ : State} {π : List Part} {p : PlaceChange} {s : State} (hl : Sub [.cellMem] π) (h_s : Same π σ s) :
    Same π σ (noteShift p s) := by
  unfold noteShift
  repeat' first
    | with_reducible assumption
    | intro _
    | extract_lets
    | with_reducible refine forEach_same ?_ ?_
    | with_reducible refine when_same ?_ ?_
    | with_reducible refine shiftCells_same (Sub.trans (by decide) hl) ?_

theorem placeRow_same {σ : State} {π : List Part} {p : PlaceChange} {s : State} (hl : Sub [.win, .cellMem, .mesh] π) (h_s : Same π σ s) :
    Same π σ (placeRow p s) := by
  unfold placeRow
  repeat' first
    | with_reducible assumption
    | intro _
    | with_reducible refine setRow_same (Sub.trans (by decide) hl) ?_
    | with_reducible refine noteShift_same (Sub.trans (by decide) hl) ?_

theorem applyPlaces_same {σ : State} {π : List Part} {s : State} (hl : Sub [.win, .cellMem, .mesh] π) (h_s : Same π σ s) :
    Same π σ (applyPlaces s) := by
  unfold applyPlaces
  repeat' first
    | with_reducible assumption
    | intro _
    | with_reducible refine forEach_same ?_ ?_
    | with_reducible refine placeRow_same (Sub.trans (by decide) hl) ?_
    | fail_if_no_progress with_reducible refine same_upd ?_ (fun p hp => by cases p <;> first | exact absurd (hl.mem (by decide)) hp | exact rfl | exact ⟨rfl, rfl⟩ | exact ⟨rfl, rfl, rfl, rfl⟩)

theorem applyTable_same {σ : State} {π : List Part} {w : TableWrite} {s : State} (hl : Sub [.mesh] π) (h_s : Same π σ s) :
    Same π σ (applyTable w s) := by
  unfold applyTable
  repeat' first
    | with_reducible assumption
    | intro _
    | extract_lets
    | with_reducible refine same_ite ?_ ?_
    | fail_if_no_progress with_reducible refine same_upd ?_ (fun p hp => by cases p <;> first | exact absurd (hl.mem (by decide)) hp | exact rfl | exact ⟨rfl, rfl⟩ | exact ⟨rfl, rfl, rfl, rfl⟩)
    | split

theorem applyTables_same {σ : State} {π : List Part} {s : State} (hl : Sub [.mesh] π) (h_s : Same π σ s) :
    Same π σ (applyTables s) := by
  unfold applyTables
  repeat' first
    | with_reducible assumption
    | intro _
    | with_reducible refine forEach_same ?_ ?_
    | with_reducible refine applyTable_same (Sub.trans (by decide) hl) ?_
    | fail_if_no_progress with_reducible refine same_upd ?_ (fun p hp => by cases p <;> first | exact absurd (hl.mem (by decide)) hp | exact rfl | exact ⟨rfl, rfl⟩ | exact ⟨rfl, rfl, rfl, rfl⟩)

theorem applyClasses_same {σ : State} {π : List Part} {s : State} (hl : Sub [.cells] π) (h_s : Same π σ s) :
    Same π σ (applyClasses s) := by
  unfold applyClasses
  repeat' first
    | with_reducible assumption
    | intro _
    | fail_if_no_progress with_reducible refine same_upd ?_ (fun p hp => by cases p <;> first | exact absurd (hl.mem (by decide)) hp | exact rfl | exact ⟨rfl, rfl⟩ | exact ⟨rfl, rfl, rfl, rfl⟩)

theorem ageGuards_same {σ : State} {π : List Part} {s : State} (hl : Sub [.ledger] π) (h_s : Same π σ s) :
    Same π σ (ageGuards s) := by
  unfold ageGuards
  repeat' first
    | with_reducible assumption
    | intro _
    | with_reducible refine same_ite ?_ ?_
    | fail_if_no_progress with_reducible refine same_upd ?_ (fun p hp => by cases p <;> first | exact absurd (hl.mem (by decide)) hp | exact rfl | exact ⟨rfl, rfl⟩ | exact ⟨rfl, rfl, rfl, rfl⟩)
    | split

theorem gateSlot_same {σ : State} {π : List Part} {s : State} (hl : Sub [.win, .sched] π) (h_s : Same π σ s) :
    Same π σ (gateSlot s) := by
  unfold gateSlot
  repeat' first
    | with_reducible assumption
    | intro _
    | extract_lets
    | with_reducible refine same_ite ?_ ?_
    | with_reducible refine when_same ?_ ?_
    | with_reducible refine bump_same (Sub.trans (by decide) hl) ?_
    | fail_if_no_progress with_reducible refine same_upd ?_ (fun p hp => by cases p <;> first | exact absurd (hl.mem (by decide)) hp | exact rfl | exact ⟨rfl, rfl⟩ | exact ⟨rfl, rfl, rfl, rfl⟩)
    | split

theorem boundaryCommon_same {σ : State} {π : List Part} {s : State} (hl : Sub [.win, .cells, .cellMem, .mesh, .sched, .ledger, .now] π) (h_s : Same π σ s) :
    Same π σ (boundaryCommon s) := by
  unfold boundaryCommon
  repeat' first
    | with_reducible assumption
    | intro _
    | extract_lets
    | with_reducible refine ageGuards_same (Sub.trans (by decide) hl) ?_
    | with_reducible refine applyClasses_same (Sub.trans (by decide) hl) ?_
    | with_reducible refine applyTables_same (Sub.trans (by decide) hl) ?_
    | with_reducible refine applyPlaces_same (Sub.trans (by decide) hl) ?_
    | with_reducible refine gateSlot_same (Sub.trans (by decide) hl) ?_
    | fail_if_no_progress with_reducible refine same_upd ?_ (fun p hp => by cases p <;> first | exact absurd (hl.mem (by decide)) hp | exact rfl | exact ⟨rfl, rfl⟩ | exact ⟨rfl, rfl, rfl, rfl⟩)

theorem heldBoundary_same {σ : State} {π : List Part} {s : State} (hl : Sub [.win, .sched, .link, .ports, .ocl] π) (h_s : Same π σ s) :
    Same π σ (heldBoundary s) := by
  unfold heldBoundary
  repeat' first
    | with_reducible assumption
    | intro _
    | extract_lets
    | with_reducible refine raise_same (Sub.trans (by decide) hl) ?_
    | with_reducible refine bump_same (Sub.trans (by decide) hl) ?_
    | with_reducible refine forEach_same ?_ ?_
    | fail_if_no_progress with_reducible refine same_upd ?_ (fun p hp => by cases p <;> first | exact absurd (hl.mem (by decide)) hp | exact rfl | exact ⟨rfl, rfl⟩ | exact ⟨rfl, rfl, rfl, rfl⟩)

theorem releaseSyncs_same {σ : State} {π : List Part} {s : State} (hl : Sub [.cells] π) (h_s : Same π σ s) :
    Same π σ (releaseSyncs s) := by
  unfold releaseSyncs
  repeat' first
    | with_reducible assumption
    | intro _
    | extract_lets
    | with_reducible refine forEach_same ?_ ?_
    | with_reducible refine completeSync_same (Sub.trans (by decide) hl) ?_
    | fail_if_no_progress with_reducible refine same_upd ?_ (fun p hp => by cases p <;> first | exact absurd (hl.mem (by decide)) hp | exact rfl | exact ⟨rfl, rfl⟩ | exact ⟨rfl, rfl, rfl, rfl⟩)
    | split
    | dsimp +zetaDelta only

theorem startCell_same {σ : State} {π : List Part} {env : MemEnv} {t36 : Bool} {c : Nat} {s : State} (hl : Sub [.win, .cells, .mesh, .link, .ports, .ocl] π) (h_s : Same π σ s) :
    Same π σ (startCell env t36 c s) := by
  unfold startCell
  repeat' first
    | with_reducible assumption
    | intro _
    | with_reducible refine modCell_same (Sub.trans (by decide) hl) ?_
    | with_reducible refine setRun_same (Sub.trans (by decide) hl) ?_
    | fail_if_no_progress with_reducible refine same_upd ?_ (fun p hp => by cases p <;> first | exact absurd (hl.mem (by decide)) hp | exact rfl | exact ⟨rfl, rfl⟩ | exact ⟨rfl, rfl, rfl, rfl⟩)

theorem clearRings_same {σ : State} {π : List Part} {cs : List Nat} {s : State} (hl : Sub [.cells] π) (h_s : Same π σ s) :
    Same π σ (clearRings cs s) := by
  unfold clearRings
  repeat' first
    | with_reducible assumption
    | intro _
    | with_reducible refine forEach_same ?_ ?_
    | with_reducible refine modCell_same (Sub.trans (by decide) hl) ?_
    | fail_if_no_progress with_reducible refine same_upd ?_ (fun p hp => by cases p <;> first | exact absurd (hl.mem (by decide)) hp | exact rfl | exact ⟨rfl, rfl⟩ | exact ⟨rfl, rfl, rfl, rfl⟩)

theorem startImages_same {σ : State} {π : List Part} {s : State} (hl : Sub [.win, .cells, .mesh, .sched, .link, .ports, .ocl] π) (h_s : Same π σ s) :
    Same π σ (startImages s) := by
  unfold startImages
  repeat' first
    | with_reducible assumption
    | intro _
    | extract_lets
    | with_reducible refine start_same (Sub.trans (by decide) hl) ?_
    | with_reducible refine forEach_same ?_ ?_
    | with_reducible refine startCell_same (Sub.trans (by decide) hl) ?_
    | with_reducible refine clearRings_same (Sub.trans (by decide) hl) ?_
    | with_reducible refine setImage_same (Sub.trans (by decide) hl) ?_
    | fail_if_no_progress with_reducible refine same_upd ?_ (fun p hp => by cases p <;> first | exact absurd (hl.mem (by decide)) hp | exact rfl | exact ⟨rfl, rfl⟩ | exact ⟨rfl, rfl, rfl, rfl⟩)

theorem writeRing_same {σ : State} {π : List Part} {m : Nat} {launch : Nat} {entry : Nat} {s : State} (hl : Sub [.cells, .sched] π) (h_s : Same π σ s) :
    Same π σ (writeRing m launch entry s) := by
  unfold writeRing
  repeat' first
    | with_reducible assumption
    | intro _
    | extract_lets
    | with_reducible refine forEach_same ?_ ?_
    | with_reducible refine modCell_same (Sub.trans (by decide) hl) ?_
    | fail_if_no_progress with_reducible refine same_upd ?_ (fun p hp => by cases p <;> first | exact absurd (hl.mem (by decide)) hp | exact rfl | exact ⟨rfl, rfl⟩ | exact ⟨rfl, rfl, rfl, rfl⟩)

theorem applyWiden_same {σ : State} {π : List Part} {w : WidenChange} {s : State} (hl : Sub [.win, .prec] π) (h_s : Same π σ s) :
    Same π σ (applyWiden w s) := by
  unfold applyWiden
  repeat' first
    | with_reducible assumption
    | intro _
    | extract_lets
    | with_reducible refine same_ite ?_ ?_
    | with_reducible refine setLayerPrec_same (Sub.trans (by decide) hl) ?_
    | with_reducible refine wr_same (Sub.trans (by decide) hl) ?_
    | fail_if_no_progress with_reducible refine same_upd ?_ (fun p hp => by cases p <;> first | exact absurd (hl.mem (by decide)) hp | exact rfl | exact ⟨rfl, rfl⟩ | exact ⟨rfl, rfl, rfl, rfl⟩)
    | split

theorem fixWiden_same {σ : State} {π : List Part} {w : WidenChange} {s : State} (hl : Sub [.prec] π) (h_s : Same π σ s) :
    Same π σ (fixWiden w s) := by
  unfold fixWiden
  repeat' first
    | with_reducible assumption
    | intro _
    | extract_lets
    | fail_if_no_progress with_reducible refine same_upd ?_ (fun p hp => by cases p <;> first | exact absurd (hl.mem (by decide)) hp | exact rfl | exact ⟨rfl, rfl⟩ | exact ⟨rfl, rfl, rfl, rfl⟩)

theorem enterLayer_same {σ : State} {π : List Part} {n : Nat} {key : Nat} {s : State} (hl : Sub [.win, .prec] π) (h_s : Same π σ s) :
    Same π σ (enterLayer n key s) := by
  unfold enterLayer
  repeat' first
    | with_reducible assumption
    | intro _
    | extract_lets
    | with_reducible refine same_ite ?_ ?_
    | with_reducible refine applyWiden_same (Sub.trans (by decide) hl) ?_
    | with_reducible refine when_same ?_ ?_
    | with_reducible refine setLayerPrec_same (Sub.trans (by decide) hl) ?_
    | fail_if_no_progress with_reducible refine same_upd ?_ (fun p hp => by cases p <;> first | exact absurd (hl.mem (by decide)) hp | exact rfl | exact ⟨rfl, rfl⟩ | exact ⟨rfl, rfl, rfl, rfl⟩)
    | split
    | dsimp +zetaDelta only

theorem enterLayers_same {σ : State} {π : List Part} {s : State} (hl : Sub [.win, .prec] π) (h_s : Same π σ s) :
    Same π σ (enterLayers s) := by
  unfold enterLayers
  repeat' first
    | with_reducible assumption
    | intro _
    | with_reducible refine forEach_same ?_ ?_
    | with_reducible refine enterLayer_same (Sub.trans (by decide) hl) ?_

theorem fixCarried_same {σ : State} {π : List Part} {s : State} (hl : Sub [.win, .prec] π) (h_s : Same π σ s) :
    Same π σ (fixCarried s) := by
  unfold fixCarried
  repeat' first
    | with_reducible assumption
    | intro _
    | with_reducible refine forEach_same ?_ ?_
    | with_reducible refine fixWiden_same (Sub.trans (by decide) hl) ?_
    | fail_if_no_progress with_reducible refine same_upd ?_ (fun p hp => by cases p <;> first | exact absurd (hl.mem (by decide)) hp | exact rfl | exact ⟨rfl, rfl⟩ | exact ⟨rfl, rfl, rfl, rfl⟩)

theorem fillLaunch_same {σ : State} {π : List Part} {p : LaunchPlan} {s : State} (hl : Sub [.win, .stackMem, .mesh, .budget, .kv, .svc, .ledger, .tune, .link, .ports, .ocl, .pair, .free] π) (h_s : Same π σ s) :
    Same π σ (fillLaunch p s).2 := by
  unfold fillLaunch
  repeat' first
    | with_reducible assumption
    | intro _
    | extract_lets
    | with_reducible refine same_ite ?_ ?_
    | with_reducible refine addTele_same (Sub.trans (by decide) hl) ?_
    | with_reducible refine formTune_same (Sub.trans (by decide) hl) ?_
    | with_reducible refine launchBack_same (Sub.trans (by decide) hl) ?_
    | with_reducible refine relaunch_same (Sub.trans (by decide) hl) ?_
    | with_reducible refine formStep_same (Sub.trans (by decide) hl) ?_
    | fail_if_no_progress with_reducible refine same_upd ?_ (fun p hp => by cases p <;> first | exact absurd (hl.mem (by decide)) hp | exact rfl | exact ⟨rfl, rfl⟩ | exact ⟨rfl, rfl, rfl, rfl⟩)
    | with_reducible refine same_snd_ite ?_ ?_
    | split
    | dsimp +zetaDelta only

theorem doLaunch_same {σ : State} {π : List Part} {p : LaunchPlan} {s : State} (hl : Sub [.win, .cells, .stackMem, .mesh, .sched, .budget, .kv, .svc, .ledger, .tune, .link, .ports, .ocl, .pair, .free] π) (h_s : Same π σ s) :
    Same π σ (doLaunch p s) := by
  unfold doLaunch
  repeat' first
    | with_reducible assumption
    | intro _
    | extract_lets
    | with_reducible refine same_ite ?_ ?_
    | with_reducible refine fillLaunch_same (Sub.trans (by decide) hl) ?_
    | with_reducible refine when_same ?_ ?_
    | with_reducible refine addTele_same (Sub.trans (by decide) hl) ?_
    | with_reducible refine writeRing_same (Sub.trans (by decide) hl) ?_
    | split

theorem beginIter_same {σ : State} {π : List Part} {c : Nat} {k : Nat} {s : State} (hl : Sub [.cells] π) (h_s : Same π σ s) :
    Same π σ (beginIter c k s) := by
  unfold beginIter
  repeat' first
    | with_reducible assumption
    | intro _
    | extract_lets
    | with_reducible refine same_ite ?_ ?_
    | with_reducible refine setCell_same (Sub.trans (by decide) hl) ?_
    | fail_if_no_progress with_reducible refine same_upd ?_ (fun p hp => by cases p <;> first | exact absurd (hl.mem (by decide)) hp | exact rfl | exact ⟨rfl, rfl⟩ | exact ⟨rfl, rfl, rfl, rfl⟩)
    | split

theorem startIters_same {σ : State} {π : List Part} {s : State} (hl : Sub [.cells] π) (h_s : Same π σ s) :
    Same π σ (startIters s) := by
  unfold startIters
  repeat' first
    | with_reducible assumption
    | intro _
    | with_reducible refine forEach_same ?_ ?_
    | with_reducible refine beginIter_same (Sub.trans (by decide) hl) ?_
    | fail_if_no_progress with_reducible refine same_upd ?_ (fun p hp => by cases p <;> first | exact absurd (hl.mem (by decide)) hp | exact rfl | exact ⟨rfl, rfl⟩ | exact ⟨rfl, rfl, rfl, rfl⟩)
    | split

theorem advanceBoundary_same {σ : State} {π : List Part} {s : State} (hl : Sub [.win, .cells, .stackMem, .mesh, .prec, .sched, .budget, .kv, .svc, .ledger, .tune, .link, .ports, .ocl, .pair, .free] π) (h_s : Same π σ s) :
    Same π σ (advanceBoundary s) := by
  unfold advanceBoundary
  repeat' first
    | with_reducible assumption
    | intro _
    | extract_lets
    | with_reducible refine setCnt_same (Sub.trans (by decide) hl) ?_
    | with_reducible refine fixCarried_same (Sub.trans (by decide) hl) ?_
    | with_reducible refine startImages_same (Sub.trans (by decide) hl) ?_
    | with_reducible refine releaseSyncs_same (Sub.trans (by decide) hl) ?_
    | with_reducible refine startIters_same (Sub.trans (by decide) hl) ?_
    | with_reducible refine enterLayers_same (Sub.trans (by decide) hl) ?_
    | with_reducible refine forEach_same ?_ ?_
    | with_reducible refine doLaunch_same (Sub.trans (by decide) hl) ?_
    | fail_if_no_progress with_reducible refine same_upd ?_ (fun p hp => by cases p <;> first | exact absurd (hl.mem (by decide)) hp | exact rfl | exact ⟨rfl, rfl⟩ | exact ⟨rfl, rfl, rfl, rfl⟩)

theorem slotBoundary_same {σ : State} {π : List Part} {s : State} (hl : Sub [.win, .cells, .cellMem, .stackMem, .mesh, .prec, .sched, .budget, .kv, .svc, .ledger, .tune, .link, .ports, .ocl, .pair, .now, .free] π) (h_s : Same π σ s) :
    Same π σ (slotBoundary s) := by
  unfold slotBoundary
  repeat' first
    | with_reducible assumption
    | intro _
    | extract_lets
    | with_reducible refine same_ite ?_ ?_
    | with_reducible refine decideHold_same (Sub.trans (by decide) hl) ?_
    | with_reducible refine boundaryCommon_same (Sub.trans (by decide) hl) ?_
    | with_reducible refine heldBoundary_same (Sub.trans (by decide) hl) ?_
    | with_reducible refine advanceBoundary_same (Sub.trans (by decide) hl) ?_
    | fail_if_no_progress with_reducible refine same_upd ?_ (fun p hp => by cases p <;> first | exact absurd (hl.mem (by decide)) hp | exact rfl | exact ⟨rfl, rfl⟩ | exact ⟨rfl, rfl, rfl, rfl⟩)
    | split

theorem execSlotBoundary_same {σ : State} {π : List Part} {s : State} (hl : Sub [.win, .cells, .cellMem, .stackMem, .mesh, .prec, .sched, .budget, .kv, .svc, .ledger, .tune, .link, .ports, .ocl, .pair, .now, .free] π) (h_s : Same π σ s) :
    ∃ τ, execSlotBoundary s = .next τ ∧ Same π σ τ := by
  refine ⟨_, rfl, ?_⟩
  repeat' first
    | with_reducible assumption
    | intro _
    | with_reducible refine slotBoundary_same (Sub.trans (by decide) hl) ?_

end Sys2Proof.Machine
end

