-- ==== Sys2Proof/Laws/FrameLoad.lean ====
section
/-!
SUPPORT. The parts that may change, for every function of Machine/Load.lean that changes the state.
-/
set_option Elab.async false
namespace Sys2Proof.Machine
open Sys2Proof

theorem withTables_same {σ : State} {π : List Part} {vars : List CalVariant} {r : Rec} {s : State} (hl : Sub [.mesh] π) (h_s : Same π σ s) :
    Same π σ (withTables vars r s) := by
  unfold withTables
  repeat' first
    | with_reducible assumption
    | intro _
    | with_reducible refine same_ite ?_ ?_
    | with_reducible refine forEach_same ?_ ?_
    | with_reducible refine applyTable_same (Sub.trans (by decide) hl) ?_
    | fail_if_no_progress with_reducible refine same_upd ?_ (fun p hp => by cases p <;> first | exact absurd (hl.mem (by decide)) hp | exact rfl | exact ⟨rfl, rfl⟩ | exact ⟨rfl, rfl, rfl, rfl⟩)
    | split

theorem asBound_same {σ : State} {π : List Part} {m : Nat} {h : BitVec 512} {inp : LoadInput} {s : State} (hl : Sub [.sched] π) (h_s : Same π σ s) :
    Same π σ (asBound m h inp s) := by
  unfold asBound
  repeat' first
    | with_reducible assumption
    | intro _
    | with_reducible refine setImage_same (Sub.trans (by decide) hl) ?_
    | fail_if_no_progress with_reducible refine same_upd ?_ (fun p hp => by cases p <;> first | exact absurd (hl.mem (by decide)) hp | exact rfl | exact ⟨rfl, rfl⟩ | exact ⟨rfl, rfl, rfl, rfl⟩)

theorem readContents_same {σ : State} {π : List Part} {m : Nat} {h : BitVec 512} {inp : LoadInput} {envs : CellEnvs} {f : Option LoadFail} {s : State} (hl : Sub [.win, .cells, .mesh, .sched, .link, .ports, .ocl] π) (h_s : Same π σ s) :
    Same π σ (readContents m h inp envs f s) := by
  unfold readContents
  repeat' first
    | with_reducible assumption
    | intro _
    | extract_lets
    | with_reducible refine asBound_same (Sub.trans (by decide) hl) ?_
    | with_reducible refine forEach_same ?_ ?_
    | with_reducible refine loadReads_same (Sub.trans (by decide) hl) ?_

theorem readCheck_same {σ : State} {π : List Part} {c : LoadRead} {part : Nat} {s : State} (hl : Sub [.win, .sched, .link, .ports, .ocl] π) (h_s : Same π σ s) :
    Same π σ (readCheck c part s) := by
  unfold readCheck
  repeat' first
    | with_reducible assumption
    | intro _
    | with_reducible refine startFetch_same (Sub.trans (by decide) hl) ?_
    | fail_if_no_progress with_reducible refine same_upd ?_ (fun p hp => by cases p <;> first | exact absurd (hl.mem (by decide)) hp | exact rfl | exact ⟨rfl, rfl⟩ | exact ⟨rfl, rfl, rfl, rfl⟩)
    | with_reducible refine same_snd_ite ?_ ?_
    | split

theorem checkPartRead_same {σ : State} {π : List Part} {m : Nat} {part : Nat} {bs : List Byte} {s : State} (hl : Sub [.win, .sched, .link, .ports, .ocl] π) (h_s : Same π σ s) :
    Same π σ (checkPartRead m part bs s) := by
  unfold checkPartRead
  repeat' first
    | with_reducible assumption
    | intro _
    | with_reducible refine same_ite ?_ ?_
    | with_reducible refine readCheck_same (Sub.trans (by decide) hl) ?_
    | fail_if_no_progress with_reducible refine same_upd ?_ (fun p hp => by cases p <;> first | exact absurd (hl.mem (by decide)) hp | exact rfl | exact ⟨rfl, rfl⟩ | exact ⟨rfl, rfl, rfl, rfl⟩)
    | split

theorem checkPartFailed_same {σ : State} {π : List Part} {m : Nat} {part : Nat} {bs : List Byte} {s : State} (hl : Sub [.sched] π) (h_s : Same π σ s) :
    Same π σ (checkPartFailed m part bs s) := by
  unfold checkPartFailed
  repeat' first
    | with_reducible assumption
    | intro _
    | extract_lets
    | with_reducible refine same_ite ?_ ?_
    | fail_if_no_progress with_reducible refine same_upd ?_ (fun p hp => by cases p <;> first | exact absurd (hl.mem (by decide)) hp | exact rfl | exact ⟨rfl, rfl⟩ | exact ⟨rfl, rfl, rfl, rfl⟩)
    | split
    | dsimp +zetaDelta only

theorem loadGo_same {σ : State} {π : List Part} {v : Word} {s : State} (hl : Sub [.win, .sched, .link, .ports, .ocl] π) (h_s : Same π σ s) :
    Same π σ (loadGo v s) := by
  unfold loadGo
  repeat' first
    | with_reducible assumption
    | intro _
    | extract_lets
    | with_reducible refine same_ite ?_ ?_
    | with_reducible refine wr_same (Sub.trans (by decide) hl) ?_
    | with_reducible refine readCheck_same (Sub.trans (by decide) hl) ?_
    | with_reducible refine start_same (Sub.trans (by decide) hl) ?_
    | split

theorem execLoadGo_same {σ : State} {π : List Part} {v : Word} {s : State} (hl : Sub [.win, .sched, .link, .ports, .ocl] π) (h_s : Same π σ s) :
    ∃ τ, execLoadGo v s = .next τ ∧ Same π σ τ := by
  refine ⟨_, rfl, ?_⟩
  repeat' first
    | with_reducible assumption
    | intro _
    | with_reducible refine loadGo_same (Sub.trans (by decide) hl) ?_

theorem loadFailed_same {σ : State} {π : List Part} {m : Nat} {f : LoadFail} {s : State} (hl : Sub [.win, .cells, .stackMem, .sched, .kv, .svc, .ledger, .link, .ports, .ocl] π) (h_s : Same π σ s) :
    Same π σ (loadFailed m f s) := by
  unfold loadFailed
  repeat' first
    | with_reducible assumption
    | intro _
    | with_reducible refine failSlot_same (Sub.trans (by decide) hl) ?_
    | with_reducible refine wr_same (Sub.trans (by decide) hl) ?_
    | with_reducible refine raise_same (Sub.trans (by decide) hl) ?_

theorem loadPassed_same {σ : State} {π : List Part} {m : Nat} {inp : LoadInput} {s : State} (hl : Sub [.win, .sched, .svc, .link, .ports, .ocl] π) (h_s : Same π σ s) :
    Same π σ (loadPassed m inp s) := by
  unfold loadPassed
  repeat' first
    | with_reducible assumption
    | intro _
    | extract_lets
    | with_reducible refine same_ite ?_ ?_
    | with_reducible refine start_same (Sub.trans (by decide) hl) ?_
    | with_reducible refine modModelSlot_same (Sub.trans (by decide) hl) ?_
    | with_reducible refine setImage_same (Sub.trans (by decide) hl) ?_
    | with_reducible refine wr_same (Sub.trans (by decide) hl) ?_
    | with_reducible refine tuneReloaded_same (Sub.trans (by decide) hl) ?_
    | with_reducible refine raise_same (Sub.trans (by decide) hl) ?_
    | fail_if_no_progress with_reducible refine same_upd ?_ (fun p hp => by cases p <;> first | exact absurd (hl.mem (by decide)) hp | exact rfl | exact ⟨rfl, rfl⟩ | exact ⟨rfl, rfl, rfl, rfl⟩)
    | split

theorem loadCheckDone_same {σ : State} {π : List Part} {x : LoadRest} {s : State} (hl : Sub [.win, .cells, .stackMem, .mesh, .sched, .kv, .svc, .ledger, .link, .ports, .ocl] π) (h_s : Same π σ s) :
    Same π σ (loadCheckDone x s) := by
  unfold loadCheckDone
  repeat' first
    | with_reducible assumption
    | intro _
    | extract_lets
    | with_reducible refine same_ite ?_ ?_
    | with_reducible refine wr_same (Sub.trans (by decide) hl) ?_
    | with_reducible refine loadFailed_same (Sub.trans (by decide) hl) ?_
    | with_reducible refine applyTables_same (Sub.trans (by decide) hl) ?_
    | with_reducible refine readContents_same (Sub.trans (by decide) hl) ?_
    | with_reducible refine loadPassed_same (Sub.trans (by decide) hl) ?_
    | fail_if_no_progress with_reducible refine same_upd ?_ (fun p hp => by cases p <;> first | exact absurd (hl.mem (by decide)) hp | exact rfl | exact ⟨rfl, rfl⟩ | exact ⟨rfl, rfl, rfl, rfl⟩)
    | split
    | dsimp +zetaDelta only

theorem execLoadCheckDone_same {σ : State} {π : List Part} {x : LoadRest} {s : State} (hl : Sub [.win, .cells, .stackMem, .mesh, .sched, .kv, .svc, .ledger, .link, .ports, .ocl] π) (h_s : Same π σ s) :
    ∃ τ, execLoadCheckDone x s = .next τ ∧ Same π σ τ := by
  refine ⟨_, rfl, ?_⟩
  repeat' first
    | with_reducible assumption
    | intro _
    | with_reducible refine loadCheckDone_same (Sub.trans (by decide) hl) ?_

end Sys2Proof.Machine
end

