-- ==== Sys2Proof/Laws/FrameBeat.lean ====
section
/-!
SUPPORT. The parts that may change, for every function of Machine/Beat.lean that changes the state.
-/
set_option Elab.async false
namespace Sys2Proof.Machine
open Sys2Proof

theorem beginBeat_same {σ : State} {π : List Part} {t : Nat} {s : State} (hl : Sub [.win, .beat, .mgmt] π) (h_s : Same π σ s) :
    Same π σ (beginBeat t s) := by
  unfold beginBeat
  repeat' first
    | with_reducible assumption
    | intro _
    | extract_lets
    | with_reducible refine setCnt_same (Sub.trans (by decide) hl) ?_
    | with_reducible refine when_same ?_ ?_
    | fail_if_no_progress with_reducible refine same_upd ?_ (fun p hp => by cases p <;> first | exact absurd (hl.mem (by decide)) hp | exact rfl | exact ⟨rfl, rfl⟩ | exact ⟨rfl, rfl, rfl, rfl⟩)

theorem rejectEdge_same {σ : State} {π : List Part} {s : State} (hl : Sub [.win, .beat, .link, .ports, .ocl] π) (h_s : Same π σ s) :
    Same π σ (rejectEdge s) := by
  unfold rejectEdge
  repeat' first
    | with_reducible assumption
    | intro _
    | with_reducible refine raise_same (Sub.trans (by decide) hl) ?_
    | with_reducible refine bump_same (Sub.trans (by decide) hl) ?_
    | fail_if_no_progress with_reducible refine same_upd ?_ (fun p hp => by cases p <;> first | exact absurd (hl.mem (by decide)) hp | exact rfl | exact ⟨rfl, rfl⟩ | exact ⟨rfl, rfl, rfl, rfl⟩)

theorem relock_same {σ : State} {π : List Part} {t : Nat} {s : State} (hl : Sub [.win, .beat, .link, .ports, .ocl, .mgmt] π) (h_s : Same π σ s) :
    Same π σ (relock t s) := by
  unfold relock
  repeat' first
    | with_reducible assumption
    | intro _
    | extract_lets
    | with_reducible refine same_ite ?_ ?_
    | with_reducible refine raise_same (Sub.trans (by decide) hl) ?_
    | with_reducible refine wr_same (Sub.trans (by decide) hl) ?_
    | with_reducible refine beginBeat_same (Sub.trans (by decide) hl) ?_
    | fail_if_no_progress with_reducible refine same_upd ?_ (fun p hp => by cases p <;> first | exact absurd (hl.mem (by decide)) hp | exact rfl | exact ⟨rfl, rfl⟩ | exact ⟨rfl, rfl, rfl, rfl⟩)
    | split

theorem acceptEdge_same {σ : State} {π : List Part} {t : Nat} {p : Nat} {s : State} (hl : Sub [.win, .beat, .link, .ports, .ocl, .mgmt] π) (h_s : Same π σ s) :
    Same π σ (acceptEdge t p s) := by
  unfold acceptEdge
  repeat' first
    | with_reducible assumption
    | intro _
    | extract_lets
    | with_reducible refine same_ite ?_ ?_
    | with_reducible refine wr_same (Sub.trans (by decide) hl) ?_
    | with_reducible refine beginBeat_same (Sub.trans (by decide) hl) ?_
    | with_reducible refine relock_same (Sub.trans (by decide) hl) ?_
    | fail_if_no_progress with_reducible refine same_upd ?_ (fun p hp => by cases p <;> first | exact absurd (hl.mem (by decide)) hp | exact rfl | exact ⟨rfl, rfl⟩ | exact ⟨rfl, rfl, rfl, rfl⟩)
    | split

theorem judgeEdge_same {σ : State} {π : List Part} {t : Nat} {s : State} (hl : Sub [.win, .beat, .link, .ports, .ocl, .mgmt] π) (h_s : Same π σ s) :
    Same π σ (judgeEdge t s) := by
  unfold judgeEdge
  repeat' first
    | with_reducible assumption
    | intro _
    | extract_lets
    | with_reducible refine same_ite ?_ ?_
    | with_reducible refine rejectEdge_same (Sub.trans (by decide) hl) ?_
    | with_reducible refine acceptEdge_same (Sub.trans (by decide) hl) ?_
    | fail_if_no_progress with_reducible refine same_upd ?_ (fun p hp => by cases p <;> first | exact absurd (hl.mem (by decide)) hp | exact rfl | exact ⟨rfl, rfl⟩ | exact ⟨rfl, rfl, rfl, rfl⟩)
    | split
    | dsimp +zetaDelta only

theorem beatEdge_same {σ : State} {π : List Part} {t : Nat} {highNs : Nat} {s0 : State} (hl : Sub [.win, .beat, .link, .ports, .ocl, .mgmt, .now] π) (h_s0 : Same π σ s0) :
    Same π σ (beatEdge t highNs s0) := by
  unfold beatEdge
  repeat' first
    | with_reducible assumption
    | intro _
    | extract_lets
    | with_reducible refine same_ite ?_ ?_
    | with_reducible refine atTime_same (Sub.trans (by decide) hl) ?_
    | with_reducible refine raise_same (Sub.trans (by decide) hl) ?_
    | with_reducible refine bump_same (Sub.trans (by decide) hl) ?_
    | with_reducible refine judgeEdge_same (Sub.trans (by decide) hl) ?_
    | fail_if_no_progress with_reducible refine same_upd ?_ (fun p hp => by cases p <;> first | exact absurd (hl.mem (by decide)) hp | exact rfl | exact ⟨rfl, rfl⟩ | exact ⟨rfl, rfl, rfl, rfl⟩)
    | split

theorem execBeatEdge_same {σ : State} {π : List Part} {t : Nat} {highNs : Nat} {s : State} (hl : Sub [.win, .beat, .link, .ports, .ocl, .mgmt, .now] π) (h_s : Same π σ s) :
    ∃ τ, execBeatEdge t highNs s = .next τ ∧ Same π σ τ := by
  refine ⟨_, rfl, ?_⟩
  repeat' first
    | with_reducible assumption
    | intro _
    | with_reducible refine beatEdge_same (Sub.trans (by decide) hl) ?_

theorem countBeat_same {σ : State} {π : List Part} {s : State} (hl : Sub [.win, .beat] π) (h_s : Same π σ s) :
    Same π σ (countBeat s) := by
  unfold countBeat
  repeat' first
    | with_reducible assumption
    | intro _
    | extract_lets
    | with_reducible refine wr_same (Sub.trans (by decide) hl) ?_
    | fail_if_no_progress with_reducible refine same_upd ?_ (fun p hp => by cases p <;> first | exact absurd (hl.mem (by decide)) hp | exact rfl | exact ⟨rfl, rfl⟩ | exact ⟨rfl, rfl, rfl, rfl⟩)

theorem holdover_same {σ : State} {π : List Part} {t : Nat} {s0 : State} (hl : Sub [.win, .beat, .link, .ports, .ocl, .mgmt, .now] π) (h_s0 : Same π σ s0) :
    Same π σ (holdover t s0) := by
  unfold holdover
  repeat' first
    | with_reducible assumption
    | intro _
    | extract_lets
    | with_reducible refine same_ite ?_ ?_
    | with_reducible refine atTime_same (Sub.trans (by decide) hl) ?_
    | with_reducible refine wr_same (Sub.trans (by decide) hl) ?_
    | with_reducible refine raise_same (Sub.trans (by decide) hl) ?_
    | with_reducible refine countBeat_same (Sub.trans (by decide) hl) ?_
    | with_reducible refine beginBeat_same (Sub.trans (by decide) hl) ?_
    | fail_if_no_progress with_reducible refine same_upd ?_ (fun p hp => by cases p <;> first | exact absurd (hl.mem (by decide)) hp | exact rfl | exact ⟨rfl, rfl⟩ | exact ⟨rfl, rfl, rfl, rfl⟩)
    | split

theorem execHoldover_same {σ : State} {π : List Part} {t : Nat} {s : State} (hl : Sub [.win, .beat, .link, .ports, .ocl, .mgmt, .now] π) (h_s : Same π σ s) :
    ∃ τ, execHoldover t s = .next τ ∧ Same π σ τ := by
  refine ⟨_, rfl, ?_⟩
  repeat' first
    | with_reducible assumption
    | intro _
    | with_reducible refine holdover_same (Sub.trans (by decide) hl) ?_

theorem loseBeat_same {σ : State} {π : List Part} {s : State} (hl : Sub [.win, .beat, .link, .ports, .ocl, .mgmt] π) (h_s : Same π σ s) :
    Same π σ (loseBeat s) := by
  unfold loseBeat
  repeat' first
    | with_reducible assumption
    | intro _
    | with_reducible refine pldm_same (Sub.trans (by decide) hl) ?_
    | with_reducible refine raise_same (Sub.trans (by decide) hl) ?_
    | with_reducible refine wr_same (Sub.trans (by decide) hl) ?_
    | fail_if_no_progress with_reducible refine same_upd ?_ (fun p hp => by cases p <;> first | exact absurd (hl.mem (by decide)) hp | exact rfl | exact ⟨rfl, rfl⟩ | exact ⟨rfl, rfl, rfl, rfl⟩)

theorem internalBeat_same {σ : State} {π : List Part} {s : State} (hl : Sub [.win, .beat, .link, .ports, .ocl, .mgmt] π) (h_s : Same π σ s) :
    Same π σ (internalBeat s) := by
  unfold internalBeat
  repeat' first
    | with_reducible assumption
    | intro _
    | extract_lets
    | with_reducible refine same_ite ?_ ?_
    | with_reducible refine beginBeat_same (Sub.trans (by decide) hl) ?_
    | with_reducible refine loseBeat_same (Sub.trans (by decide) hl) ?_
    | with_reducible refine countBeat_same (Sub.trans (by decide) hl) ?_
    | split

theorem internalBeatAt_same {σ : State} {π : List Part} {t : Nat} {s0 : State} (hl : Sub [.win, .beat, .link, .ports, .ocl, .mgmt, .now] π) (h_s0 : Same π σ s0) :
    Same π σ (internalBeatAt t s0) := by
  unfold internalBeatAt
  repeat' first
    | with_reducible assumption
    | intro _
    | extract_lets
    | with_reducible refine same_ite ?_ ?_
    | with_reducible refine atTime_same (Sub.trans (by decide) hl) ?_
    | with_reducible refine internalBeat_same (Sub.trans (by decide) hl) ?_
    | split

theorem execInternalBeat_same {σ : State} {π : List Part} {t : Nat} {s : State} (hl : Sub [.win, .beat, .link, .ports, .ocl, .mgmt, .now] π) (h_s : Same π σ s) :
    ∃ τ, execInternalBeat t s = .next τ ∧ Same π σ τ := by
  refine ⟨_, rfl, ?_⟩
  repeat' first
    | with_reducible assumption
    | intro _
    | with_reducible refine internalBeatAt_same (Sub.trans (by decide) hl) ?_

theorem beatLoss_same {σ : State} {π : List Part} {t : Nat} {s0 : State} (hl : Sub [.win, .beat, .link, .ports, .ocl, .mgmt, .now] π) (h_s0 : Same π σ s0) :
    Same π σ (beatLoss t s0) := by
  unfold beatLoss
  repeat' first
    | with_reducible assumption
    | intro _
    | extract_lets
    | with_reducible refine same_ite ?_ ?_
    | with_reducible refine atTime_same (Sub.trans (by decide) hl) ?_
    | with_reducible refine internalBeat_same (Sub.trans (by decide) hl) ?_
    | split

theorem execBeatLoss_same {σ : State} {π : List Part} {t : Nat} {s : State} (hl : Sub [.win, .beat, .link, .ports, .ocl, .mgmt, .now] π) (h_s : Same π σ s) :
    ∃ τ, execBeatLoss t s = .next τ ∧ Same π σ τ := by
  refine ⟨_, rfl, ?_⟩
  repeat' first
    | with_reducible assumption
    | intro _
    | with_reducible refine beatLoss_same (Sub.trans (by decide) hl) ?_

end Sys2Proof.Machine
end

