-- ==== Sys2Proof/Laws/FrameAdmission.lean ====
section
/-!
SUPPORT. The parts that may change, for every function of Machine/Admission.lean that changes the state.
-/
set_option Elab.async false
namespace Sys2Proof.Machine
open Sys2Proof

theorem decide__same {σ : State} {π : List Part} {q : Request} {code : Nat} {reason : Nat} {seq : Nat} {entry : Bool} {s : State} (hl : Sub [.win, .svc, .link, .ports, .ocl] π) (h_s : Same π σ s) :
    Same π σ (decide_ q code reason seq entry s) := by
  unfold decide_
  repeat' first
    | with_reducible assumption
    | intro _
    | extract_lets
    | with_reducible refine when_same ?_ ?_
    | with_reducible refine putDecision_same (Sub.trans (by decide) hl) ?_
    | fail_if_no_progress with_reducible refine same_upd ?_ (fun p hp => by cases p <;> first | exact absurd (hl.mem (by decide)) hp | exact rfl | exact ⟨rfl, rfl⟩ | exact ⟨rfl, rfl, rfl, rfl⟩)

theorem rejectReq_same {σ : State} {π : List Part} {q : Request} {reason : Nat} {s : State} (hl : Sub [.win, .stackMem, .kv, .svc, .link, .ports, .ocl] π) (h_s : Same π σ s) :
    Same π σ (rejectReq q reason s) := by
  unfold rejectReq
  repeat' first
    | with_reducible assumption
    | intro _
    | with_reducible refine endRequest_same (Sub.trans (by decide) hl) ?_
    | with_reducible refine bump_same (Sub.trans (by decide) hl) ?_
    | with_reducible refine raise_same (Sub.trans (by decide) hl) ?_
    | with_reducible refine decide__same (Sub.trans (by decide) hl) ?_

theorem deferReq_same {σ : State} {π : List Part} {q : Request} {reason : Nat} {s : State} (hl : Sub [.win, .svc, .link, .ports, .ocl] π) (h_s : Same π σ s) :
    Same π σ (deferReq q reason s) := by
  unfold deferReq
  repeat' first
    | with_reducible assumption
    | intro _
    | with_reducible refine bump_same (Sub.trans (by decide) hl) ?_
    | with_reducible refine decide__same (Sub.trans (by decide) hl) ?_
    | with_reducible refine modRequest_same (Sub.trans (by decide) hl) ?_
    | fail_if_no_progress with_reducible refine same_upd ?_ (fun p hp => by cases p <;> first | exact absurd (hl.mem (by decide)) hp | exact rfl | exact ⟨rfl, rfl⟩ | exact ⟨rfl, rfl, rfl, rfl⟩)

theorem admitInto_same {σ : State} {π : List Part} {q : Request} {seq : Nat} {s : State} (hl : Sub [.win, .stackMem, .kv, .svc] π) (h_s : Same π σ s) :
    Same π σ (admitInto q seq s) := by
  unfold admitInto
  repeat' first
    | with_reducible assumption
    | intro _
    | extract_lets
    | with_reducible refine same_ite ?_ ?_
    | with_reducible refine setPages_same (Sub.trans (by decide) hl) ?_
    | with_reducible refine setSeqSlot_same (Sub.trans (by decide) hl) ?_
    | with_reducible refine wr_same (Sub.trans (by decide) hl) ?_
    | with_reducible refine modRequest_same (Sub.trans (by decide) hl) ?_
    | fail_if_no_progress with_reducible refine same_upd ?_ (fun p hp => by cases p <;> first | exact absurd (hl.mem (by decide)) hp | exact rfl | exact ⟨rfl, rfl⟩ | exact ⟨rfl, rfl, rfl, rfl⟩)
    | split

theorem admitReq_same {σ : State} {π : List Part} {q : Request} {s : State} (hl : Sub [.win, .stackMem, .kv, .svc, .link, .ports, .ocl] π) (h_s : Same π σ s) :
    Same π σ (admitReq q s) := by
  unfold admitReq
  repeat' first
    | with_reducible assumption
    | intro _
    | extract_lets
    | with_reducible refine bump_same (Sub.trans (by decide) hl) ?_
    | with_reducible refine decide__same (Sub.trans (by decide) hl) ?_
    | with_reducible refine admitInto_same (Sub.trans (by decide) hl) ?_
    | with_reducible refine readTokens_same (Sub.trans (by decide) hl) ?_
    | with_reducible refine modRequest_same (Sub.trans (by decide) hl) ?_
    | fail_if_no_progress with_reducible refine same_upd ?_ (fun p hp => by cases p <;> first | exact absurd (hl.mem (by decide)) hp | exact rfl | exact ⟨rfl, rfl⟩ | exact ⟨rfl, rfl, rfl, rfl⟩)
    | split
    | dsimp +zetaDelta only

theorem consider_same {σ : State} {π : List Part} {id : Nat} {s : State} (hl : Sub [.win, .stackMem, .kv, .svc, .link, .ports, .ocl] π) (h_s : Same π σ s) :
    Same π σ (consider id s) := by
  unfold consider
  repeat' first
    | with_reducible assumption
    | intro _
    | extract_lets
    | with_reducible refine same_ite ?_ ?_
    | with_reducible refine putError_same (Sub.trans (by decide) hl) ?_
    | with_reducible refine when_same ?_ ?_
    | with_reducible refine unusePfx_same (Sub.trans (by decide) hl) ?_
    | with_reducible refine rejectReq_same (Sub.trans (by decide) hl) ?_
    | with_reducible refine admitReq_same (Sub.trans (by decide) hl) ?_
    | with_reducible refine deferReq_same (Sub.trans (by decide) hl) ?_
    | fail_if_no_progress with_reducible refine same_upd ?_ (fun p hp => by cases p <;> first | exact absurd (hl.mem (by decide)) hp | exact rfl | exact ⟨rfl, rfl⟩ | exact ⟨rfl, rfl, rfl, rfl⟩)
    | split
    | dsimp +zetaDelta only

theorem admission_same {σ : State} {π : List Part} {s : State} (hl : Sub [.win, .stackMem, .kv, .svc, .link, .ports, .ocl] π) (h_s : Same π σ s) :
    Same π σ (admission s) := by
  unfold admission
  repeat' first
    | with_reducible assumption
    | intro _
    | with_reducible refine same_ite ?_ ?_
    | with_reducible refine forEach_same ?_ ?_
    | with_reducible refine consider_same (Sub.trans (by decide) hl) ?_
    | split

end Sys2Proof.Machine
end

