-- ==== Sys2Proof/Laws/FramePair.lean ====
section
/-!
SUPPORT. The parts that may change, for every function of Machine/Pair.lean that changes the state.
-/
set_option Elab.async false
namespace Sys2Proof.Machine
open Sys2Proof

theorem setPairSt_same {σ : State} {π : List Part} {n : Nat} {s : State} (hl : Sub [.win] π) (h_s : Same π σ s) :
    Same π σ (setPairSt n s) := by
  unfold setPairSt
  repeat' first
    | with_reducible assumption
    | intro _
    | with_reducible refine wr_same (Sub.trans (by decide) hl) ?_

theorem raiseEpoch_same {σ : State} {π : List Part} {e : Nat} {after : Durable} {s : State} (hl : Sub [.win, .boot] π) (h_s : Same π σ s) :
    Same π σ (raiseEpoch e after s) := by
  unfold raiseEpoch
  repeat' first
    | with_reducible assumption
    | intro _
    | with_reducible refine same_ite ?_ ?_
    | with_reducible refine journal_same (Sub.trans (by decide) hl) ?_
    | with_reducible refine wr_same (Sub.trans (by decide) hl) ?_
    | split

theorem leavePrimary_same {σ : State} {π : List Part} {s : State} (hl : Sub [.win, .svc, .ledger, .link, .ports, .ocl, .pair] π) (h_s : Same π σ s) :
    Same π σ (leavePrimary s) := by
  unfold leavePrimary
  repeat' first
    | with_reducible assumption
    | intro _
    | extract_lets
    | with_reducible refine dropAckWaits_same (Sub.trans (by decide) hl) ?_
    | with_reducible refine flushRings_same (Sub.trans (by decide) hl) ?_
    | fail_if_no_progress with_reducible refine same_upd ?_ (fun p hp => by cases p <;> first | exact absurd (hl.mem (by decide)) hp | exact rfl | exact ⟨rfl, rfl⟩ | exact ⟨rfl, rfl, rfl, rfl⟩)

theorem endSplit_same {σ : State} {π : List Part} {s : State} (hl : Sub [.win, .stackMem, .kv, .svc, .ledger, .link, .ports, .ocl] π) (h_s : Same π σ s) :
    Same π σ (endSplit s) := by
  unfold endSplit
  repeat' first
    | with_reducible assumption
    | intro _
    | extract_lets
    | with_reducible refine forEach_same ?_ ?_
    | with_reducible refine abandonStep_same (Sub.trans (by decide) hl) ?_
    | with_reducible refine endRequest_same (Sub.trans (by decide) hl) ?_

theorem leaveSplit_same {σ : State} {π : List Part} {s : State} (hl : Sub [.kv, .pair] π) (h_s : Same π σ s) :
    Same π σ (leaveSplit s) := by
  unfold leaveSplit
  repeat' first
    | with_reducible assumption
    | intro _
    | with_reducible refine forEach_same ?_ ?_
    | with_reducible refine discardKv_same (Sub.trans (by decide) hl) ?_
    | fail_if_no_progress with_reducible refine same_upd ?_ (fun p hp => by cases p <;> first | exact absurd (hl.mem (by decide)) hp | exact rfl | exact ⟨rfl, rfl⟩ | exact ⟨rfl, rfl, rfl, rfl⟩)

theorem dropSeq_same {σ : State} {π : List Part} {q : Nat} {s : State} (hl : Sub [.win, .stackMem, .kv] π) (h_s : Same π σ s) :
    Same π σ (dropSeq q s) := by
  unfold dropSeq
  repeat' first
    | with_reducible assumption
    | intro _
    | with_reducible refine releaseSeq_same (Sub.trans (by decide) hl) ?_

theorem discardMirror_same {σ : State} {π : List Part} {s : State} (hl : Sub [.win, .stackMem, .kv, .svc, .pair] π) (h_s : Same π σ s) :
    Same π σ (discardMirror s) := by
  unfold discardMirror
  repeat' first
    | with_reducible assumption
    | intro _
    | extract_lets
    | with_reducible refine forEach_same ?_ ?_
    | with_reducible refine dropSeq_same (Sub.trans (by decide) hl) ?_
    | with_reducible refine clearPages_same (Sub.trans (by decide) hl) ?_
    | fail_if_no_progress with_reducible refine same_upd ?_ (fun p hp => by cases p <;> first | exact absurd (hl.mem (by decide)) hp | exact rfl | exact ⟨rfl, rfl⟩ | exact ⟨rfl, rfl, rfl, rfl⟩)

theorem freezeMirror_same {σ : State} {π : List Part} {s : State} (hl : Sub [.pair] π) (h_s : Same π σ s) :
    Same π σ (freezeMirror s) := by
  unfold freezeMirror
  repeat' first
    | with_reducible assumption
    | intro _
    | fail_if_no_progress with_reducible refine same_upd ?_ (fun p hp => by cases p <;> first | exact absurd (hl.mem (by decide)) hp | exact rfl | exact ⟨rfl, rfl⟩ | exact ⟨rfl, rfl, rfl, rfl⟩)

theorem loseRequested_same {σ : State} {π : List Part} {r : PageReq} {s : State} (hl : Sub [.win, .stackMem, .kv, .svc, .link, .ports, .ocl] π) (h_s : Same π σ s) :
    Same π σ (loseRequested r s) := by
  unfold loseRequested
  repeat' first
    | with_reducible assumption
    | intro _
    | with_reducible refine losePage_same (Sub.trans (by decide) hl) ?_
    | fail_if_no_progress with_reducible refine same_upd ?_ (fun p hp => by cases p <;> first | exact absurd (hl.mem (by decide)) hp | exact rfl | exact ⟨rfl, rfl⟩ | exact ⟨rfl, rfl, rfl, rfl⟩)
    | split

theorem losePageReqs_same {σ : State} {π : List Part} {s : State} (hl : Sub [.win, .stackMem, .kv, .svc, .link, .ports, .ocl, .pair] π) (h_s : Same π σ s) :
    Same π σ (losePageReqs s) := by
  unfold losePageReqs
  repeat' first
    | with_reducible assumption
    | intro _
    | with_reducible refine forEach_same ?_ ?_
    | with_reducible refine loseRequested_same (Sub.trans (by decide) hl) ?_
    | fail_if_no_progress with_reducible refine same_upd ?_ (fun p hp => by cases p <;> first | exact absurd (hl.mem (by decide)) hp | exact rfl | exact ⟨rfl, rfl⟩ | exact ⟨rfl, rfl, rfl, rfl⟩)

theorem setWatch_same {σ : State} {π : List Part} {w : Option Nat} {s : State} (hl : Sub [.pair] π) (h_s : Same π σ s) :
    Same π σ (setWatch w s) := by
  unfold setWatch
  repeat' first
    | with_reducible assumption
    | intro _
    | fail_if_no_progress with_reducible refine same_upd ?_ (fun p hp => by cases p <;> first | exact absurd (hl.mem (by decide)) hp | exact rfl | exact ⟨rfl, rfl⟩ | exact ⟨rfl, rfl, rfl, rfl⟩)

theorem isolatePair_same {σ : State} {π : List Part} {s : State} (hl : Sub [.win, .stackMem, .kv, .svc, .ledger, .link, .ports, .ocl, .pair, .mgmt] π) (h_s : Same π σ s) :
    Same π σ (isolatePair s) := by
  unfold isolatePair
  repeat' first
    | with_reducible assumption
    | intro _
    | extract_lets
    | with_reducible refine same_ite ?_ ?_
    | with_reducible refine setWatch_same (Sub.trans (by decide) hl) ?_
    | with_reducible refine pldm_same (Sub.trans (by decide) hl) ?_
    | with_reducible refine raise_same (Sub.trans (by decide) hl) ?_
    | with_reducible refine setPairSt_same (Sub.trans (by decide) hl) ?_
    | with_reducible refine when_same ?_ ?_
    | with_reducible refine leaveSplit_same (Sub.trans (by decide) hl) ?_
    | with_reducible refine endSplit_same (Sub.trans (by decide) hl) ?_
    | with_reducible refine leavePrimary_same (Sub.trans (by decide) hl) ?_
    | with_reducible refine losePageReqs_same (Sub.trans (by decide) hl) ?_
    | with_reducible refine freezeMirror_same (Sub.trans (by decide) hl) ?_
    | fail_if_no_progress with_reducible refine same_upd ?_ (fun p hp => by cases p <;> first | exact absurd (hl.mem (by decide)) hp | exact rfl | exact ⟨rfl, rfl⟩ | exact ⟨rfl, rfl, rfl, rfl⟩)
    | split

theorem isolate_same {σ : State} {π : List Part} {t : Nat} {s0 : State} (hl : Sub [.win, .stackMem, .kv, .svc, .ledger, .link, .ports, .ocl, .pair, .mgmt, .now] π) (h_s0 : Same π σ s0) :
    Same π σ (isolate t s0) := by
  unfold isolate
  repeat' first
    | with_reducible assumption
    | intro _
    | extract_lets
    | with_reducible refine same_ite ?_ ?_
    | with_reducible refine atTime_same (Sub.trans (by decide) hl) ?_
    | with_reducible refine isolatePair_same (Sub.trans (by decide) hl) ?_
    | fail_if_no_progress with_reducible refine same_upd ?_ (fun p hp => by cases p <;> first | exact absurd (hl.mem (by decide)) hp | exact rfl | exact ⟨rfl, rfl⟩ | exact ⟨rfl, rfl, rfl, rfl⟩)
    | with_reducible refine foldl_same ?_ ?_
    | split
    | dsimp +zetaDelta only

theorem execIsolate_same {σ : State} {π : List Part} {t : Nat} {s : State} (hl : Sub [.win, .stackMem, .kv, .svc, .ledger, .link, .ports, .ocl, .pair, .mgmt, .now] π) (h_s : Same π σ s) :
    ∃ τ, execIsolate t s = .next τ ∧ Same π σ τ := by
  refine ⟨_, rfl, ?_⟩
  repeat' first
    | with_reducible assumption
    | intro _
    | with_reducible refine isolate_same (Sub.trans (by decide) hl) ?_

theorem watchPartner_same {σ : State} {π : List Part} {s : State} (hl : Sub [.win, .stackMem, .kv, .svc, .ledger, .link, .ports, .ocl, .pair, .mgmt] π) (h_s : Same π σ s) :
    Same π σ (watchPartner s) := by
  unfold watchPartner
  repeat' first
    | with_reducible assumption
    | intro _
    | extract_lets
    | with_reducible refine same_ite ?_ ?_
    | with_reducible refine isolatePair_same (Sub.trans (by decide) hl) ?_
    | fail_if_no_progress with_reducible refine same_upd ?_ (fun p hp => by cases p <;> first | exact absurd (hl.mem (by decide)) hp | exact rfl | exact ⟨rfl, rfl⟩ | exact ⟨rfl, rfl, rfl, rfl⟩)
    | split

theorem syncSeq_same {σ : State} {π : List Part} {q : Nat} {s : State} (hl : Sub [.win, .budget, .link, .ports, .ocl, .pair, .free] π) (h_s : Same π σ s) :
    Same π σ (syncSeq q s) := by
  unfold syncSeq
  repeat' first
    | with_reducible assumption
    | intro _
    | extract_lets
    | with_reducible refine mirrorState_same (Sub.trans (by decide) hl) ?_
    | with_reducible refine mirrorKv_same (Sub.trans (by decide) hl) ?_
    | fail_if_no_progress with_reducible refine same_upd ?_ (fun p hp => by cases p <;> first | exact absurd (hl.mem (by decide)) hp | exact rfl | exact ⟨rfl, rfl⟩ | exact ⟨rfl, rfl, rfl, rfl⟩)

theorem syncPfx_same {σ : State} {π : List Part} {e : PfxEntry} {s : State} (hl : Sub [.win, .budget, .link, .ports, .ocl, .pair, .free] π) (h_s : Same π σ s) :
    Same π σ (syncPfx e s) := by
  unfold syncPfx
  repeat' first
    | with_reducible assumption
    | intro _
    | extract_lets
    | with_reducible refine forEach_same ?_ ?_
    | with_reducible refine mirrorPage_same (Sub.trans (by decide) hl) ?_
    | with_reducible refine mirrorPfx_same (Sub.trans (by decide) hl) ?_
    | with_reducible refine mirrorLayer_same (Sub.trans (by decide) hl) ?_
    | fail_if_no_progress with_reducible refine same_upd ?_ (fun p hp => by cases p <;> first | exact absurd (hl.mem (by decide)) hp | exact rfl | exact ⟨rfl, rfl⟩ | exact ⟨rfl, rfl, rfl, rfl⟩)
    | split
    | dsimp +zetaDelta only

theorem syncAll_same {σ : State} {π : List Part} {s : State} (hl : Sub [.win, .budget, .svc, .link, .ports, .ocl, .pair, .free] π) (h_s : Same π σ s) :
    Same π σ (syncAll s) := by
  unfold syncAll
  repeat' first
    | with_reducible assumption
    | intro _
    | extract_lets
    | with_reducible refine forEach_same ?_ ?_
    | with_reducible refine syncPfx_same (Sub.trans (by decide) hl) ?_
    | with_reducible refine mirrorCmd_same (Sub.trans (by decide) hl) ?_
    | with_reducible refine syncSeq_same (Sub.trans (by decide) hl) ?_
    | fail_if_no_progress with_reducible refine same_upd ?_ (fun p hp => by cases p <;> first | exact absurd (hl.mem (by decide)) hp | exact rfl | exact ⟨rfl, rfl⟩ | exact ⟨rfl, rfl, rfl, rfl⟩)

theorem joinPair_same {σ : State} {π : List Part} {s : State} (hl : Sub [.win, .stackMem, .budget, .kv, .svc, .link, .ports, .ocl, .pair, .free] π) (h_s : Same π σ s) :
    Same π σ (joinPair s) := by
  unfold joinPair
  repeat' first
    | with_reducible assumption
    | intro _
    | with_reducible refine same_ite ?_ ?_
    | with_reducible refine setPairSt_same (Sub.trans (by decide) hl) ?_
    | with_reducible refine syncAll_same (Sub.trans (by decide) hl) ?_
    | with_reducible refine discardMirror_same (Sub.trans (by decide) hl) ?_
    | split

theorem settleSenior_same {σ : State} {π : List Part} {p : Params} {s : State} (hl : Sub [.win, .stackMem, .kv, .svc, .ledger, .link, .ports, .ocl, .pair, .mgmt] π) (h_s : Same π σ s) :
    Same π σ (settleSenior p s) := by
  unfold settleSenior
  repeat' first
    | with_reducible assumption
    | intro _
    | extract_lets
    | with_reducible refine same_ite ?_ ?_
    | with_reducible refine when_same ?_ ?_
    | with_reducible refine pldm_same (Sub.trans (by decide) hl) ?_
    | with_reducible refine raise_same (Sub.trans (by decide) hl) ?_
    | with_reducible refine wr_same (Sub.trans (by decide) hl) ?_
    | with_reducible refine discardMirror_same (Sub.trans (by decide) hl) ?_
    | with_reducible refine endAll_same (Sub.trans (by decide) hl) ?_
    | with_reducible refine leavePrimary_same (Sub.trans (by decide) hl) ?_
    | split

theorem meetPartner_same {σ : State} {π : List Part} {p : Params} {s0 : State} (hl : Sub [.win, .stackMem, .budget, .kv, .svc, .ledger, .link, .ports, .ocl, .pair, .boot, .mgmt, .free] π) (h_s0 : Same π σ s0) :
    Same π σ (meetPartner p s0) := by
  unfold meetPartner
  repeat' first
    | with_reducible assumption
    | intro _
    | extract_lets
    | with_reducible refine same_ite ?_ ?_
    | with_reducible refine joinPair_same (Sub.trans (by decide) hl) ?_
    | with_reducible refine setWatch_same (Sub.trans (by decide) hl) ?_
    | with_reducible refine raiseEpoch_same (Sub.trans (by decide) hl) ?_
    | with_reducible refine settleSenior_same (Sub.trans (by decide) hl) ?_
    | fail_if_no_progress with_reducible refine same_upd ?_ (fun p hp => by cases p <;> first | exact absurd (hl.mem (by decide)) hp | exact rfl | exact ⟨rfl, rfl⟩ | exact ⟨rfl, rfl, rfl, rfl⟩)
    | split

theorem rxAdvance_same {σ : State} {π : List Part} {st : Nat} {s : State} (hl : Sub [.pair] π) (h_s : Same π σ s) :
    Same π σ (rxAdvance st s) := by
  unfold rxAdvance
  repeat' first
    | with_reducible assumption
    | intro _
    | fail_if_no_progress with_reducible refine same_upd ?_ (fun p hp => by cases p <;> first | exact absurd (hl.mem (by decide)) hp | exact rfl | exact ⟨rfl, rfl⟩ | exact ⟨rfl, rfl, rfl, rfl⟩)

theorem sendSpanAck_same {σ : State} {π : List Part} {st : Nat} {s : State} (hl : Sub [.win, .link, .ports, .ocl, .pair, .free] π) (h_s : Same π σ s) :
    Same π σ (sendSpanAck st s) := by
  unfold sendSpanAck
  repeat' first
    | with_reducible assumption
    | intro _
    | with_reducible refine sendSpan_same (Sub.trans (by decide) hl) ?_

theorem mirrorTake_same {σ : State} {π : List Part} {e : BitVec 1024} {s : State} (hl : Sub [.win, .stackMem, .kv, .svc, .link, .ports, .ocl] π) (h_s : Same π σ s) :
    Same π σ (mirrorTake e s) := by
  unfold mirrorTake
  repeat' first
    | with_reducible assumption
    | intro _
    | extract_lets
    | with_reducible refine same_ite ?_ ?_
    | with_reducible refine enqueue_same (Sub.trans (by decide) hl) ?_
    | with_reducible refine modPfx_same (Sub.trans (by decide) hl) ?_
    | with_reducible refine when_same ?_ ?_
    | with_reducible refine unusePfx_same (Sub.trans (by decide) hl) ?_
    | with_reducible refine dropSeq_same (Sub.trans (by decide) hl) ?_
    | with_reducible refine prefixCreateAct_same (Sub.trans (by decide) hl) ?_
    | with_reducible refine withdrawPfx_same (Sub.trans (by decide) hl) ?_
    | fail_if_no_progress with_reducible refine same_upd ?_ (fun p hp => by cases p <;> first | exact absurd (hl.mem (by decide)) hp | exact rfl | exact ⟨rfl, rfl⟩ | exact ⟨rfl, rfl, rfl, rfl⟩)
    | split
    | dsimp +zetaDelta only

theorem admitCopied_same {σ : State} {π : List Part} {q : Request} {seq : Nat} {s : State} (hl : Sub [.win, .stackMem, .kv, .svc] π) (h_s : Same π σ s) :
    Same π σ (admitCopied q seq s) := by
  unfold admitCopied
  repeat' first
    | with_reducible assumption
    | intro _
    | extract_lets
    | with_reducible refine same_ite ?_ ?_
    | with_reducible refine setSeqSlot_same (Sub.trans (by decide) hl) ?_
    | with_reducible refine wr_same (Sub.trans (by decide) hl) ?_
    | with_reducible refine setPages_same (Sub.trans (by decide) hl) ?_
    | with_reducible refine modRequest_same (Sub.trans (by decide) hl) ?_
    | fail_if_no_progress with_reducible refine same_upd ?_ (fun p hp => by cases p <;> first | exact absurd (hl.mem (by decide)) hp | exact rfl | exact ⟨rfl, rfl⟩ | exact ⟨rfl, rfl, rfl, rfl⟩)
    | split

theorem mirrorDecision_same {σ : State} {π : List Part} {d : Decided} {s : State} (hl : Sub [.win, .stackMem, .kv, .svc, .link, .ports, .ocl] π) (h_s : Same π σ s) :
    Same π σ (mirrorDecision d s) := by
  unfold mirrorDecision
  repeat' first
    | with_reducible assumption
    | intro _
    | extract_lets
    | with_reducible refine same_ite ?_ ?_
    | with_reducible refine admitCopied_same (Sub.trans (by decide) hl) ?_
    | with_reducible refine admitInto_same (Sub.trans (by decide) hl) ?_
    | with_reducible refine modRequest_same (Sub.trans (by decide) hl) ?_
    | with_reducible refine when_same ?_ ?_
    | with_reducible refine unusePfx_same (Sub.trans (by decide) hl) ?_
    | with_reducible refine dropPfx_same (Sub.trans (by decide) hl) ?_
    | fail_if_no_progress with_reducible refine same_upd ?_ (fun p hp => by cases p <;> first | exact absurd (hl.mem (by decide)) hp | exact rfl | exact ⟨rfl, rfl⟩ | exact ⟨rfl, rfl, rfl, rfl⟩)
    | split
    | dsimp +zetaDelta only

theorem copySlot_same {σ : State} {π : List Part} {q : Nat} {m : Nat} {s : State} (hl : Sub [.kv] π) (h_s : Same π σ s) :
    Same π σ (copySlot q m s) := by
  unfold copySlot
  repeat' first
    | with_reducible assumption
    | intro _
    | with_reducible refine same_ite ?_ ?_
    | with_reducible refine setSeqSlot_same (Sub.trans (by decide) hl) ?_
    | fail_if_no_progress with_reducible refine same_upd ?_ (fun p hp => by cases p <;> first | exact absurd (hl.mem (by decide)) hp | exact rfl | exact ⟨rfl, rfl⟩ | exact ⟨rfl, rfl, rfl, rfl⟩)
    | split

theorem lendPage_same {σ : State} {π : List Part} {q : Nat} {span : Nat} {s : State} (hl : Sub [.win, .kv] π) (h_s : Same π σ s) :
    Same π σ (lendPage q span s) := by
  unfold lendPage
  repeat' first
    | with_reducible assumption
    | intro _
    | extract_lets
    | with_reducible refine same_ite ?_ ?_
    | with_reducible refine setSeqSlot_same (Sub.trans (by decide) hl) ?_
    | with_reducible refine wr_same (Sub.trans (by decide) hl) ?_
    | fail_if_no_progress with_reducible refine same_upd ?_ (fun p hp => by cases p <;> first | exact absurd (hl.mem (by decide)) hp | exact rfl | exact ⟨rfl, rfl⟩ | exact ⟨rfl, rfl, rfl, rfl⟩)
    | split

theorem applyKv_same {σ : State} {π : List Part} {p : SpanPart} {s : State} (hl : Sub [.win, .stackMem, .mesh, .budget, .kv, .svc, .ledger, .link, .ports, .ocl, .pair, .boot, .free] π) (h_s : Same π σ s) :
    Same π σ (applyKv p s) := by
  unfold applyKv
  dsimp only
  split
  · exact h_s
  · rename_i heq
    exact storeGranules_same (Sub.trans (by decide) hl) (commitPage_same (Sub.trans (by decide) hl) heq
      (lendPage_same (Sub.trans (by decide) hl) (copySlot_same (Sub.trans (by decide) hl) h_s)))

theorem applyState_same {σ : State} {π : List Part} {p : SpanPart} {s : State} (hl : Sub [.kv, .pair] π) (h_s : Same π σ s) :
    Same π σ (applyState p s) := by
  unfold applyState
  repeat' first
    | with_reducible assumption
    | intro _
    | extract_lets
    | with_reducible refine same_ite ?_ ?_
    | with_reducible refine modSeqSlot_same (Sub.trans (by decide) hl) ?_
    | with_reducible refine copySlot_same (Sub.trans (by decide) hl) ?_
    | fail_if_no_progress with_reducible refine same_upd ?_ (fun p hp => by cases p <;> first | exact absurd (hl.mem (by decide)) hp | exact rfl | exact ⟨rfl, rfl⟩ | exact ⟨rfl, rfl, rfl, rfl⟩)
    | split

theorem applyPfx_same {σ : State} {π : List Part} {d : PfxChange} {s : State} (hl : Sub [.win, .stackMem, .kv, .svc, .link, .ports, .ocl, .pair] π) (h_s : Same π σ s) :
    Same π σ (applyPfx d s) := by
  unfold applyPfx
  repeat' first
    | with_reducible assumption
    | intro _
    | extract_lets
    | with_reducible refine same_ite ?_ ?_
    | with_reducible refine withdrawPfx_same (Sub.trans (by decide) hl) ?_
    | with_reducible refine modPfx_same (Sub.trans (by decide) hl) ?_
    | with_reducible refine setSeqSlot_same (Sub.trans (by decide) hl) ?_
    | with_reducible refine clearList_same (Sub.trans (by decide) hl) ?_
    | with_reducible refine returnResv_same (Sub.trans (by decide) hl) ?_
    | fail_if_no_progress with_reducible refine same_upd ?_ (fun p hp => by cases p <;> first | exact absurd (hl.mem (by decide)) hp | exact rfl | exact ⟨rfl, rfl⟩ | exact ⟨rfl, rfl, rfl, rfl⟩)
    | split
    | dsimp +zetaDelta only

theorem applyPart_same {σ : State} {π : List Part} {p : SpanPart} {s : State} (hl : Sub [.win, .stackMem, .mesh, .budget, .kv, .svc, .ledger, .link, .ports, .ocl, .pair, .boot, .free] π) (h_s : Same π σ s) :
    Same π σ (applyPart p s) := by
  unfold applyPart
  repeat' first
    | with_reducible assumption
    | intro _
    | extract_lets
    | with_reducible refine same_ite ?_ ?_
    | with_reducible refine applyKv_same (Sub.trans (by decide) hl) ?_
    | with_reducible refine applyState_same (Sub.trans (by decide) hl) ?_
    | with_reducible refine applyPfx_same (Sub.trans (by decide) hl) ?_
    | split

theorem keepEnded_same {σ : State} {π : List Part} {m : Nat} {q : Request} {status : Nat} {len : Nat} {s : State} (hl : Sub [.pair] π) (h_s : Same π σ s) :
    Same π σ (keepEnded m q status len s) := by
  unfold keepEnded
  repeat' first
    | with_reducible assumption
    | intro _
    | with_reducible refine same_ite ?_ ?_
    | fail_if_no_progress with_reducible refine same_upd ?_ (fun p hp => by cases p <;> first | exact absurd (hl.mem (by decide)) hp | exact rfl | exact ⟨rfl, rfl⟩ | exact ⟨rfl, rfl, rfl, rfl⟩)
    | split

theorem applyCommitSeq_same {σ : State} {π : List Part} {m : Nat} {c : CommitSeq} {s : State} (hl : Sub [.win, .stackMem, .kv, .svc, .link, .ports, .ocl, .pair] π) (h_s : Same π σ s) :
    Same π σ (applyCommitSeq m c s) := by
  unfold applyCommitSeq
  repeat' first
    | with_reducible assumption
    | intro _
    | extract_lets
    | with_reducible refine same_ite ?_ ?_
    | with_reducible refine keepEnded_same (Sub.trans (by decide) hl) ?_
    | with_reducible refine when_same ?_ ?_
    | with_reducible refine unusePfx_same (Sub.trans (by decide) hl) ?_
    | with_reducible refine releaseSeq_same (Sub.trans (by decide) hl) ?_
    | with_reducible refine modRequest_same (Sub.trans (by decide) hl) ?_
    | fail_if_no_progress with_reducible refine same_upd ?_ (fun p hp => by cases p <;> first | exact absurd (hl.mem (by decide)) hp | exact rfl | exact ⟨rfl, rfl⟩ | exact ⟨rfl, rfl, rfl, rfl⟩)
    | split
    | dsimp +zetaDelta only

theorem applyCommit_same {σ : State} {π : List Part} {d : CommitData} {s : State} (hl : Sub [.win, .stackMem, .mesh, .budget, .kv, .svc, .ledger, .link, .ports, .ocl, .pair, .boot, .free] π) (h_s : Same π σ s) :
    Same π σ (applyCommit d s) := by
  unfold applyCommit
  repeat' first
    | with_reducible assumption
    | intro _
    | extract_lets
    | with_reducible refine forEach_same ?_ ?_
    | with_reducible refine applyPart_same (Sub.trans (by decide) hl) ?_
    | with_reducible refine applyCommitSeq_same (Sub.trans (by decide) hl) ?_
    | fail_if_no_progress with_reducible refine same_upd ?_ (fun p hp => by cases p <;> first | exact absurd (hl.mem (by decide)) hp | exact rfl | exact ⟨rfl, rfl⟩ | exact ⟨rfl, rfl, rfl, rfl⟩)

theorem takePart_same {σ : State} {π : List Part} {p : SpanPart} {s : State} (hl : Sub [.win, .stackMem, .mesh, .budget, .kv, .svc, .ledger, .link, .ports, .ocl, .pair, .boot, .free] π) (h_s : Same π σ s) :
    Same π σ (takePart p s) := by
  unfold takePart
  repeat' first
    | with_reducible assumption
    | intro _
    | with_reducible refine same_ite ?_ ?_
    | with_reducible refine applyPart_same (Sub.trans (by decide) hl) ?_
    | fail_if_no_progress with_reducible refine same_upd ?_ (fun p hp => by cases p <;> first | exact absurd (hl.mem (by decide)) hp | exact rfl | exact ⟨rfl, rfl⟩ | exact ⟨rfl, rfl, rfl, rfl⟩)
    | split

theorem keepTokensIn_same {σ : State} {π : List Part} {m : SpanMsg} {s : State} (hl : Sub [.pair] π) (h_s : Same π σ s) :
    Same π σ (keepTokensIn m s) := by
  unfold keepTokensIn
  repeat' first
    | with_reducible assumption
    | intro _
    | extract_lets
    | fail_if_no_progress with_reducible refine same_upd ?_ (fun p hp => by cases p <;> first | exact absurd (hl.mem (by decide)) hp | exact rfl | exact ⟨rfl, rfl⟩ | exact ⟨rfl, rfl, rfl, rfl⟩)

theorem syncAgain_same {σ : State} {π : List Part} {s : State} (hl : Sub [.win, .stackMem, .kv, .svc, .link, .ports, .ocl, .pair, .free] π) (h_s : Same π σ s) :
    Same π σ (syncAgain s) := by
  unfold syncAgain
  repeat' first
    | with_reducible assumption
    | intro _
    | with_reducible refine sendSpan_same (Sub.trans (by decide) hl) ?_
    | with_reducible refine setPairSt_same (Sub.trans (by decide) hl) ?_
    | with_reducible refine discardMirror_same (Sub.trans (by decide) hl) ?_

theorem applyFrame_same {σ : State} {π : List Part} {d : FrameData} {s : State} (hl : Sub [.win, .stackMem, .kv, .svc, .link, .ports, .ocl, .pair, .free] π) (h_s : Same π σ s) :
    Same π σ (applyFrame d s) := by
  unfold applyFrame
  repeat' first
    | with_reducible assumption
    | intro _
    | extract_lets
    | with_reducible refine same_ite ?_ ?_
    | with_reducible refine forEach_same ?_ ?_
    | with_reducible refine mirrorDecision_same (Sub.trans (by decide) hl) ?_
    | with_reducible refine wr_same (Sub.trans (by decide) hl) ?_
    | with_reducible refine when_same ?_ ?_
    | with_reducible refine raise_same (Sub.trans (by decide) hl) ?_
    | with_reducible refine syncAgain_same (Sub.trans (by decide) hl) ?_
    | fail_if_no_progress with_reducible refine same_upd ?_ (fun p hp => by cases p <;> first | exact absurd (hl.mem (by decide)) hp | exact rfl | exact ⟨rfl, rfl⟩ | exact ⟨rfl, rfl, rfl, rfl⟩)
    | with_reducible refine foldl_same ?_ ?_
    | split

theorem chargeCross_same {σ : State} {π : List Part} {act : Nat} {h : Nat} {s : State} (hl : Sub [.win, .budget, .link, .ports, .ocl] π) (h_s : Same π σ s) :
    Same π σ (chargeCross act h s) := by
  unfold chargeCross
  repeat' first
    | with_reducible assumption
    | intro _
    | with_reducible refine charge_same (Sub.trans (by decide) hl) ?_
    | with_reducible refine chargeEnergy_same (Sub.trans (by decide) hl) ?_

theorem crossIn_same {σ : State} {π : List Part} {m : Nat} {act : Nat} {r : BitVec 128} {x0 : Nat} {x1 : List Granule} {x2 : State} (hl : Sub [.win, .mesh, .link, .ports, .ocl, .pair, .free] π) (h_x2 : Same π σ x2) :
    Same π σ (crossIn m act r x0 x1 x2) := by
  induction x1 generalizing m act r x0 x2 with
  | nil => (unfold crossIn; repeat' first
      | with_reducible assumption
      | intro _
      | with_reducible refine goOn_same (Sub.trans (by decide) hl) ?_
      | fail_if_no_progress with_reducible refine same_upd ?_ (fun p hp => by cases p <;> first | exact absurd (hl.mem (by decide)) hp | exact rfl | exact ⟨rfl, rfl⟩ | exact ⟨rfl, rfl, rfl, rfl⟩))
  | cons _ _ ih => (unfold crossIn; repeat' first
      | with_reducible assumption
      | with_reducible apply ih
      | (injections; subst_vars; with_reducible apply ih)
      | intro _
      | with_reducible refine goOn_same (Sub.trans (by decide) hl) ?_
      | fail_if_no_progress with_reducible refine same_upd ?_ (fun p hp => by cases p <;> first | exact absurd (hl.mem (by decide)) hp | exact rfl | exact ⟨rfl, rfl⟩ | exact ⟨rfl, rfl, rfl, rfl⟩))

theorem applyXing_same {σ : State} {π : List Part} {x : SpanMsg} {s : State} (hl : Sub [.win, .mesh, .budget, .link, .ports, .ocl, .pair, .free] π) (h_s : Same π σ s) :
    Same π σ (applyXing x s) := by
  unfold applyXing
  repeat' first
    | with_reducible assumption
    | intro _
    | extract_lets
    | with_reducible refine same_ite ?_ ?_
    | with_reducible refine crossIn_same (Sub.trans (by decide) hl) ?_
    | with_reducible refine when_same ?_ ?_
    | with_reducible refine chargeCross_same (Sub.trans (by decide) hl) ?_
    | fail_if_no_progress with_reducible refine same_upd ?_ (fun p hp => by cases p <;> first | exact absurd (hl.mem (by decide)) hp | exact rfl | exact ⟨rfl, rfl⟩ | exact ⟨rfl, rfl, rfl, rfl⟩)
    | split
    | dsimp +zetaDelta only

theorem applyResult_same {σ : State} {π : List Part} {d : SplitResult} {s : State} (hl : Sub [.ledger, .pair] π) (h_s : Same π σ s) :
    Same π σ (applyResult d s) := by
  unfold applyResult
  repeat' first
    | with_reducible assumption
    | intro _
    | extract_lets
    | with_reducible refine setResult_same (Sub.trans (by decide) hl) ?_
    | with_reducible refine setCrossed_same (Sub.trans (by decide) hl) ?_
    | fail_if_no_progress with_reducible refine same_upd ?_ (fun p hp => by cases p <;> first | exact absurd (hl.mem (by decide)) hp | exact rfl | exact ⟨rfl, rfl⟩ | exact ⟨rfl, rfl, rfl, rfl⟩)
    | split
    | dsimp +zetaDelta only

theorem passRsp__same {σ : State} {π : List Part} {m : Nat} {code : Nat} {s : State} (hl : Sub [.win, .link, .ports, .ocl, .pair, .free] π) (h_s : Same π σ s) :
    Same π σ (passRsp_ m code s) := by
  unfold passRsp_
  repeat' first
    | with_reducible assumption
    | intro _
    | with_reducible refine sendSpan_same (Sub.trans (by decide) hl) ?_

theorem placePart_same {σ : State} {π : List Part} {m : Nat} {slice : Nat} {off : Nat} {lastOne : Bool} {gs : List Granule} {r : LoadRecv} {s : State} (hl : Sub [.win, .cells, .counters, .cellMem, .stackMem, .mesh, .budget, .svc, .link, .ports, .ocl, .pair, .agent, .free] π) (h_s : Same π σ s) :
    Same π σ (placePart m slice off lastOne gs r s) := by
  unfold placePart
  repeat' first
    | with_reducible assumption
    | intro _
    | extract_lets
    | with_reducible refine same_ite ?_ ?_
    | with_reducible refine endReceive_same (Sub.trans (by decide) hl) ?_
    | with_reducible refine passRsp__same (Sub.trans (by decide) hl) ?_
    | with_reducible refine modModelSlot_same (Sub.trans (by decide) hl) ?_
    | with_reducible refine placeSegment_same (Sub.trans (by decide) hl) ?_
    | fail_if_no_progress with_reducible refine same_upd ?_ (fun p hp => by cases p <;> first | exact absurd (hl.mem (by decide)) hp | exact rfl | exact ⟨rfl, rfl⟩ | exact ⟨rfl, rfl, rfl, rfl⟩)
    | split
    | dsimp +zetaDelta only

theorem dropPart_same {σ : State} {π : List Part} {m : Nat} {lastOne : Bool} {s : State} (hl : Sub [.win, .link, .ports, .ocl, .pair, .free] π) (h_s : Same π σ s) :
    Same π σ (dropPart m lastOne s) := by
  unfold dropPart
  repeat' first
    | with_reducible assumption
    | intro _
    | with_reducible refine passRsp__same (Sub.trans (by decide) hl) ?_
    | with_reducible refine when_same ?_ ?_
    | with_reducible refine bump_same (Sub.trans (by decide) hl) ?_

theorem applyPass_same {σ : State} {π : List Part} {x : SpanMsg} {s : State} (hl : Sub [.win, .cells, .counters, .cellMem, .stackMem, .mesh, .budget, .svc, .link, .ports, .ocl, .pair, .agent, .free] π) (h_s : Same π σ s) :
    Same π σ (applyPass x s) := by
  unfold applyPass
  repeat' first
    | with_reducible assumption
    | intro _
    | extract_lets
    | with_reducible refine same_ite ?_ ?_
    | with_reducible refine placePart_same (Sub.trans (by decide) hl) ?_
    | with_reducible refine dropPart_same (Sub.trans (by decide) hl) ?_
    | fail_if_no_progress with_reducible refine same_upd ?_ (fun p hp => by cases p <;> first | exact absurd (hl.mem (by decide)) hp | exact rfl | exact ⟨rfl, rfl⟩ | exact ⟨rfl, rfl, rfl, rfl⟩)
    | split
    | dsimp +zetaDelta only

theorem applySpan_same {σ : State} {π : List Part} {x : SpanIn} {s : State} (hl : Sub [.win, .cells, .counters, .cellMem, .stackMem, .mesh, .budget, .kv, .svc, .ledger, .link, .ports, .ocl, .pair, .boot, .agent, .free] π) (h_s : Same π σ s) :
    Same π σ (applySpan x s) := by
  unfold applySpan
  repeat' first
    | with_reducible assumption
    | intro _
    | extract_lets
    | with_reducible refine same_ite ?_ ?_
    | with_reducible refine applyXing_same (Sub.trans (by decide) hl) ?_
    | with_reducible refine applyPass_same (Sub.trans (by decide) hl) ?_
    | with_reducible refine chargeMirror_same (Sub.trans (by decide) hl) ?_
    | with_reducible refine mirrorTake_same (Sub.trans (by decide) hl) ?_
    | with_reducible refine sendSpanAck_same (Sub.trans (by decide) hl) ?_
    | with_reducible refine keepTokensIn_same (Sub.trans (by decide) hl) ?_
    | with_reducible refine takePart_same (Sub.trans (by decide) hl) ?_
    | with_reducible refine applyCommit_same (Sub.trans (by decide) hl) ?_
    | with_reducible refine chargeMirrorSlots_same (Sub.trans (by decide) hl) ?_
    | with_reducible refine applyFrame_same (Sub.trans (by decide) hl) ?_
    | with_reducible refine applyResult_same (Sub.trans (by decide) hl) ?_
    | with_reducible refine scommitted_same (Sub.trans (by decide) hl) ?_
    | fail_if_no_progress with_reducible refine same_upd ?_ (fun p hp => by cases p <;> first | exact absurd (hl.mem (by decide)) hp | exact rfl | exact ⟨rfl, rfl⟩ | exact ⟨rfl, rfl, rfl, rfl⟩)
    | split
    | dsimp +zetaDelta only

theorem drainAhead_same {σ : State} {π : List Part} {st : Nat} {x0 : Nat} {x1 : State} (hl : Sub [.win, .cells, .counters, .cellMem, .stackMem, .mesh, .budget, .kv, .svc, .ledger, .link, .ports, .ocl, .pair, .boot, .agent, .free] π) (h_x1 : Same π σ x1) :
    Same π σ (drainAhead st x0 x1) := by
  induction x0 generalizing st x1 with
  | zero => (unfold drainAhead; repeat' first
      | with_reducible assumption
      | intro _
      | extract_lets
      | with_reducible refine same_ite ?_ ?_
      | with_reducible refine applySpan_same (Sub.trans (by decide) hl) ?_
      | with_reducible refine rxAdvance_same (Sub.trans (by decide) hl) ?_
      | fail_if_no_progress with_reducible refine same_upd ?_ (fun p hp => by cases p <;> first | exact absurd (hl.mem (by decide)) hp | exact rfl | exact ⟨rfl, rfl⟩ | exact ⟨rfl, rfl, rfl, rfl⟩)
      | split
      | dsimp +zetaDelta only)
  | succ _ ih => (unfold drainAhead; repeat' first
      | with_reducible assumption
      | with_reducible apply ih
      | (injections; subst_vars; with_reducible apply ih)
      | intro _
      | extract_lets
      | with_reducible refine same_ite ?_ ?_
      | with_reducible refine applySpan_same (Sub.trans (by decide) hl) ?_
      | with_reducible refine rxAdvance_same (Sub.trans (by decide) hl) ?_
      | fail_if_no_progress with_reducible refine same_upd ?_ (fun p hp => by cases p <;> first | exact absurd (hl.mem (by decide)) hp | exact rfl | exact ⟨rfl, rfl⟩ | exact ⟨rfl, rfl, rfl, rfl⟩)
      | split
      | dsimp +zetaDelta only)

theorem receiveSpan_same {σ : State} {π : List Part} {st : Nat} {psn : Nat} {x : SpanIn} {s : State} (hl : Sub [.win, .cells, .counters, .cellMem, .stackMem, .mesh, .budget, .kv, .svc, .ledger, .link, .ports, .ocl, .pair, .boot, .agent, .free] π) (h_s : Same π σ s) :
    Same π σ (receiveSpan st psn x s) := by
  unfold receiveSpan
  repeat' first
    | with_reducible assumption
    | intro _
    | extract_lets
    | with_reducible refine same_ite ?_ ?_
    | with_reducible refine applySpan_same (Sub.trans (by decide) hl) ?_
    | with_reducible refine rxAdvance_same (Sub.trans (by decide) hl) ?_
    | with_reducible refine drainAhead_same (Sub.trans (by decide) hl) ?_
    | fail_if_no_progress with_reducible refine same_upd ?_ (fun p hp => by cases p <;> first | exact absurd (hl.mem (by decide)) hp | exact rfl | exact ⟨rfl, rfl⟩ | exact ⟨rfl, rfl, rfl, rfl⟩)
    | split

theorem takeInbox_same {σ : State} {π : List Part} {op : Nat} {s : State} (hl : Sub [.pair] π) (h_s : Same π σ s) :
    Same π σ (takeInbox op s) := by
  unfold takeInbox
  repeat' first
    | with_reducible assumption
    | intro _
    | fail_if_no_progress with_reducible refine same_upd ?_ (fun p hp => by cases p <;> first | exact absurd (hl.mem (by decide)) hp | exact rfl | exact ⟨rfl, rfl⟩ | exact ⟨rfl, rfl, rfl, rfl⟩)
    | split

theorem startTakeover_same {σ : State} {π : List Part} {epoch : Nat} {durable : Bool} {s : State} (hl : Sub [.win, .stackMem, .kv, .svc, .link, .ports, .ocl, .pair, .boot] π) (h_s : Same π σ s) :
    Same π σ (startTakeover epoch durable s) := by
  unfold startTakeover
  repeat' first
    | with_reducible assumption
    | intro _
    | extract_lets
    | with_reducible refine same_ite ?_ ?_
    | with_reducible refine setWatch_same (Sub.trans (by decide) hl) ?_
    | with_reducible refine freezeMirror_same (Sub.trans (by decide) hl) ?_
    | with_reducible refine setPairSt_same (Sub.trans (by decide) hl) ?_
    | with_reducible refine durable_same (Sub.trans (by decide) hl) ?_
    | with_reducible refine wr_same (Sub.trans (by decide) hl) ?_
    | with_reducible refine raiseEpoch_same (Sub.trans (by decide) hl) ?_
    | with_reducible refine forEach_same ?_ ?_
    | with_reducible refine endRequest_same (Sub.trans (by decide) hl) ?_
    | with_reducible refine losePageReqs_same (Sub.trans (by decide) hl) ?_
    | fail_if_no_progress with_reducible refine same_upd ?_ (fun p hp => by cases p <;> first | exact absurd (hl.mem (by decide)) hp | exact rfl | exact ⟨rfl, rfl⟩ | exact ⟨rfl, rfl, rfl, rfl⟩)
    | split

theorem writeKept_same {σ : State} {π : List Part} {q : Request} {len : Nat} {kept : List (Nat × List Nat)} {s : State} (hl : Sub [.win, .svc, .link, .ports, .ocl] π) (h_s : Same π σ s) :
    Same π σ (writeKept q len kept s) := by
  unfold writeKept
  repeat' first
    | with_reducible assumption
    | intro _
    | with_reducible refine forEach_same ?_ ?_
    | with_reducible refine putEntry_same (Sub.trans (by decide) hl) ?_
    | with_reducible refine bumpBy_same (Sub.trans (by decide) hl) ?_

theorem rewriteTokens_same {σ : State} {π : List Part} {m : MirrorReq} {s : State} (hl : Sub [.win, .svc, .link, .ports, .ocl] π) (h_s : Same π σ s) :
    Same π σ (rewriteTokens m s) := by
  unfold rewriteTokens
  repeat' first
    | with_reducible assumption
    | intro _
    | with_reducible refine same_ite ?_ ?_
    | with_reducible refine endEntry_same (Sub.trans (by decide) hl) ?_
    | with_reducible refine writeKept_same (Sub.trans (by decide) hl) ?_
    | fail_if_no_progress with_reducible refine same_upd ?_ (fun p hp => by cases p <;> first | exact absurd (hl.mem (by decide)) hp | exact rfl | exact ⟨rfl, rfl⟩ | exact ⟨rfl, rfl, rfl, rfl⟩)
    | split

theorem takeoverComplete_same {σ : State} {π : List Part} {s : State} (hl : Sub [.win, .svc, .link, .ports, .ocl, .pair] π) (h_s : Same π σ s) :
    Same π σ (takeoverComplete s) := by
  unfold takeoverComplete
  repeat' first
    | with_reducible assumption
    | intro _
    | extract_lets
    | with_reducible refine same_ite ?_ ?_
    | with_reducible refine raise_same (Sub.trans (by decide) hl) ?_
    | with_reducible refine setPairSt_same (Sub.trans (by decide) hl) ?_
    | with_reducible refine wr_same (Sub.trans (by decide) hl) ?_
    | with_reducible refine forEach_same ?_ ?_
    | with_reducible refine rewriteTokens_same (Sub.trans (by decide) hl) ?_
    | fail_if_no_progress with_reducible refine same_upd ?_ (fun p hp => by cases p <;> first | exact absurd (hl.mem (by decide)) hp | exact rfl | exact ⟨rfl, rfl⟩ | exact ⟨rfl, rfl, rfl, rfl⟩)
    | split

theorem execTakeoverComplete_same {σ : State} {π : List Part} {s : State} (hl : Sub [.win, .svc, .link, .ports, .ocl, .pair] π) (h_s : Same π σ s) :
    ∃ τ, execTakeoverComplete s = .next τ ∧ Same π σ τ := by
  refine ⟨_, rfl, ?_⟩
  repeat' first
    | with_reducible assumption
    | intro _
    | with_reducible refine takeoverComplete_same (Sub.trans (by decide) hl) ?_

theorem syncingComplete_same {σ : State} {π : List Part} {s : State} (hl : Sub [.win] π) (h_s : Same π σ s) :
    Same π σ (syncingComplete s) := by
  unfold syncingComplete
  repeat' first
    | with_reducible assumption
    | intro _
    | with_reducible refine same_ite ?_ ?_
    | with_reducible refine setPairSt_same (Sub.trans (by decide) hl) ?_
    | split

theorem execSyncingComplete_same {σ : State} {π : List Part} {s : State} (hl : Sub [.win] π) (h_s : Same π σ s) :
    ∃ τ, execSyncingComplete s = .next τ ∧ Same π σ τ := by
  refine ⟨_, rfl, ?_⟩
  repeat' first
    | with_reducible assumption
    | intro _
    | with_reducible refine syncingComplete_same (Sub.trans (by decide) hl) ?_

theorem arbitrate_same {σ : State} {π : List Part} {action : Nat} {s : State} (hl : Sub [.win, .link, .ports, .ocl, .pair, .boot] π) (h_s : Same π σ s) :
    Same π σ (arbitrate action s) := by
  unfold arbitrate
  repeat' first
    | with_reducible assumption
    | intro _
    | extract_lets
    | with_reducible refine same_ite ?_ ?_
    | with_reducible refine journal_same (Sub.trans (by decide) hl) ?_
    | with_reducible refine raise_same (Sub.trans (by decide) hl) ?_
    | fail_if_no_progress with_reducible refine same_upd ?_ (fun p hp => by cases p <;> first | exact absurd (hl.mem (by decide)) hp | exact rfl | exact ⟨rfl, rfl⟩ | exact ⟨rfl, rfl, rfl, rfl⟩)
    | split

theorem execTakeover_same {σ : State} {π : List Part} {s : State} (hl : Sub [.win, .link, .ports, .ocl, .pair, .boot] π) (h_s : Same π σ s) :
    ∃ τ, execTakeover s = .next τ ∧ Same π σ τ := by
  refine ⟨_, rfl, ?_⟩
  repeat' first
    | with_reducible assumption
    | intro _
    | with_reducible refine arbitrate_same (Sub.trans (by decide) hl) ?_

theorem execRelease_same {σ : State} {π : List Part} {s : State} (hl : Sub [.win, .link, .ports, .ocl, .pair, .boot] π) (h_s : Same π σ s) :
    ∃ τ, execRelease s = .next τ ∧ Same π σ τ := by
  refine ⟨_, rfl, ?_⟩
  repeat' first
    | with_reducible assumption
    | intro _
    | with_reducible refine arbitrate_same (Sub.trans (by decide) hl) ?_

theorem execResync_same {σ : State} {π : List Part} {s : State} (hl : Sub [.win, .link, .ports, .ocl, .pair, .boot] π) (h_s : Same π σ s) :
    ∃ τ, execResync s = .next τ ∧ Same π σ τ := by
  refine ⟨_, rfl, ?_⟩
  repeat' first
    | with_reducible assumption
    | intro _
    | with_reducible refine arbitrate_same (Sub.trans (by decide) hl) ?_

theorem epochDurable_same {σ : State} {π : List Part} {s : State} (hl : Sub [.win, .stackMem, .kv, .svc, .link, .ports, .ocl, .pair, .boot, .free] π) (h_s : Same π σ s) :
    Same π σ (epochDurable s) := by
  unfold epochDurable
  repeat' first
    | with_reducible assumption
    | intro _
    | extract_lets
    | with_reducible refine wr_same (Sub.trans (by decide) hl) ?_
    | with_reducible refine startTakeover_same (Sub.trans (by decide) hl) ?_
    | with_reducible refine setPairSt_same (Sub.trans (by decide) hl) ?_
    | with_reducible refine discardMirror_same (Sub.trans (by decide) hl) ?_
    | with_reducible refine syncAgain_same (Sub.trans (by decide) hl) ?_
    | fail_if_no_progress with_reducible refine same_upd ?_ (fun p hp => by cases p <;> first | exact absurd (hl.mem (by decide)) hp | exact rfl | exact ⟨rfl, rfl⟩ | exact ⟨rfl, rfl, rfl, rfl⟩)
    | split
    | dsimp +zetaDelta only

theorem enterMode_same {σ : State} {π : List Part} {mode : Nat} {s0 : State} (hl : Sub [.win, .stackMem, .budget, .kv, .svc, .ledger, .link, .ports, .ocl, .pair, .boot, .mgmt, .free] π) (h_s0 : Same π σ s0) :
    Same π σ (enterMode mode s0) := by
  unfold enterMode
  repeat' first
    | with_reducible assumption
    | intro _
    | extract_lets
    | with_reducible refine same_ite ?_ ?_
    | with_reducible refine when_same ?_ ?_
    | with_reducible refine leaveSplit_same (Sub.trans (by decide) hl) ?_
    | with_reducible refine setPairSt_same (Sub.trans (by decide) hl) ?_
    | with_reducible refine setWatch_same (Sub.trans (by decide) hl) ?_
    | with_reducible refine meetPartner_same (Sub.trans (by decide) hl) ?_
    | fail_if_no_progress with_reducible refine same_upd ?_ (fun p hp => by cases p <;> first | exact absurd (hl.mem (by decide)) hp | exact rfl | exact ⟨rfl, rfl⟩ | exact ⟨rfl, rfl, rfl, rfl⟩)
    | split
    | dsimp +zetaDelta only

theorem pairModeWrite_same {σ : State} {π : List Part} {v : Word} {s : State} (hl : Sub [.win, .stackMem, .budget, .kv, .svc, .ledger, .link, .ports, .ocl, .pair, .boot, .mgmt, .free] π) (h_s : Same π σ s) :
    Same π σ (pairModeWrite v s) := by
  unfold pairModeWrite
  repeat' first
    | with_reducible assumption
    | intro _
    | extract_lets
    | with_reducible refine same_ite ?_ ?_
    | with_reducible refine wr_same (Sub.trans (by decide) hl) ?_
    | with_reducible refine enterMode_same (Sub.trans (by decide) hl) ?_
    | split

theorem execPairModeWrite_same {σ : State} {π : List Part} {v : Word} {s : State} (hl : Sub [.win, .stackMem, .budget, .kv, .svc, .ledger, .link, .ports, .ocl, .pair, .boot, .mgmt, .free] π) (h_s : Same π σ s) :
    ∃ τ, execPairModeWrite v s = .next τ ∧ Same π σ τ := by
  refine ⟨_, rfl, ?_⟩
  repeat' first
    | with_reducible assumption
    | intro _
    | with_reducible refine pairModeWrite_same (Sub.trans (by decide) hl) ?_

end Sys2Proof.Machine
end

