-- ==== Sys2Proof/Laws/FramePages.lean ====
section
/-!
SUPPORT. The parts that may change, for every function of Machine/Pages.lean that changes the state.
-/
set_option Elab.async false
namespace Sys2Proof.Machine
open Sys2Proof

theorem sendPage_same {σ : State} {π : List Part} {m : Nat} {p : Nat} {l : Nat} {arg : Nat} {x0 : Nat} {x1 : Nat} {x2 : State} (hl : Sub [.win, .link, .ports, .ocl, .pair, .free] π) (h_x2 : Same π σ x2) :
    Same π σ (sendPage m p l arg x0 x1 x2) := by
  induction x0 generalizing m p l arg x1 x2 with
  | zero => (unfold sendPage; repeat' first
      | with_reducible assumption
      | intro _
      | extract_lets
      | with_reducible refine same_ite ?_ ?_
      | with_reducible refine sendSpan_same (Sub.trans (by decide) hl) ?_
      | split)
  | succ _ ih => (unfold sendPage; repeat' first
      | with_reducible assumption
      | with_reducible apply ih
      | (injections; subst_vars; with_reducible apply ih)
      | intro _
      | extract_lets
      | with_reducible refine same_ite ?_ ?_
      | with_reducible refine sendSpan_same (Sub.trans (by decide) hl) ?_
      | split)

theorem countLayer_same {σ : State} {π : List Part} {wrt : Bool} {m : Nat} {p : Nat} {l : Nat} {s : State} (hl : Sub [.win] π) (h_s : Same π σ s) :
    Same π σ (countLayer wrt m p l s) := by
  unfold countLayer
  repeat' first
    | with_reducible assumption
    | intro _
    | with_reducible refine countSpan_same (Sub.trans (by decide) hl) ?_

theorem answerPage_same {σ : State} {π : List Part} {arg : Nat} {env : StackEnv} {s : State} (hl : Sub [.win, .stackMem, .mesh, .budget, .kv, .svc, .link, .ports, .ocl, .pair, .boot, .free] π) (h_s : Same π σ s) :
    Same π σ (answerPage arg env s) := by
  unfold answerPage
  repeat' first
    | with_reducible assumption
    | intro _
    | extract_lets
    | with_reducible refine same_ite ?_ ?_
    | with_reducible refine sendSpan_same (Sub.trans (by decide) hl) ?_
    | with_reducible refine stackMetOf_same (Sub.trans (by decide) hl) ?_
    | with_reducible refine countLayer_same (Sub.trans (by decide) hl) ?_
    | with_reducible refine chargeSpanStack_same (Sub.trans (by decide) hl) ?_
    | with_reducible refine sendPage_same (Sub.trans (by decide) hl) ?_
    | fail_if_no_progress with_reducible refine same_upd ?_ (fun p hp => by cases p <;> first | exact absurd (hl.mem (by decide)) hp | exact rfl | exact ⟨rfl, rfl⟩ | exact ⟨rfl, rfl, rfl, rfl⟩)
    | split
    | dsimp +zetaDelta only

theorem fillPage_same {σ : State} {π : List Part} {m : Nat} {p : Nat} {l : Nat} {x0 : Nat} {x1 : List Slot16} {x2 : State} (hl : Sub [.stackMem] π) (h_x2 : Same π σ x2) :
    Same π σ (fillPage m p l x0 x1 x2) := by
  induction x1 generalizing m p l x0 x2 with
  | nil => (unfold fillPage; repeat' first
      | with_reducible assumption
      | intro _
      | with_reducible refine stackPut_same (Sub.trans (by decide) hl) ?_)
  | cons _ _ ih => (unfold fillPage; repeat' first
      | with_reducible assumption
      | with_reducible apply ih
      | (injections; subst_vars; with_reducible apply ih)
      | intro _
      | with_reducible refine stackPut_same (Sub.trans (by decide) hl) ?_)

theorem restorePart_same {σ : State} {π : List Part} {r : PageReq} {data : List Slot16} {s : State} (hl : Sub [.win, .stackMem, .budget, .kv, .svc, .link, .ports, .ocl, .pair] π) (h_s : Same π σ s) :
    Same π σ (restorePart r data s) := by
  unfold restorePart
  repeat' first
    | with_reducible assumption
    | intro _
    | extract_lets
    | with_reducible refine same_ite ?_ ?_
    | with_reducible refine loseRequested_same (Sub.trans (by decide) hl) ?_
    | with_reducible refine chargeSpanStack_same (Sub.trans (by decide) hl) ?_
    | with_reducible refine fillPage_same (Sub.trans (by decide) hl) ?_
    | with_reducible refine countLayer_same (Sub.trans (by decide) hl) ?_
    | fail_if_no_progress with_reducible refine same_upd ?_ (fun p hp => by cases p <;> first | exact absurd (hl.mem (by decide)) hp | exact rfl | exact ⟨rfl, rfl⟩ | exact ⟨rfl, rfl, rfl, rfl⟩)
    | split
    | dsimp +zetaDelta only

theorem pageMessage_same {σ : State} {π : List Part} {x : SpanMsg × StackEnv} {s : State} (hl : Sub [.win, .stackMem, .mesh, .budget, .kv, .svc, .link, .ports, .ocl, .pair, .boot, .free] π) (h_s : Same π σ s) :
    Same π σ (pageMessage x s) := by
  unfold pageMessage
  repeat' first
    | with_reducible assumption
    | intro _
    | with_reducible refine same_ite ?_ ?_
    | with_reducible refine answerPage_same (Sub.trans (by decide) hl) ?_
    | with_reducible refine restorePart_same (Sub.trans (by decide) hl) ?_
    | fail_if_no_progress with_reducible refine same_upd ?_ (fun p hp => by cases p <;> first | exact absurd (hl.mem (by decide)) hp | exact rfl | exact ⟨rfl, rfl⟩ | exact ⟨rfl, rfl, rfl, rfl⟩)
    | split

theorem flushPages_same {σ : State} {π : List Part} {s : State} (hl : Sub [.win, .stackMem, .mesh, .budget, .kv, .svc, .link, .ports, .ocl, .pair, .boot, .free] π) (h_s : Same π σ s) :
    Same π σ (flushPages s) := by
  unfold flushPages
  repeat' first
    | with_reducible assumption
    | intro _
    | with_reducible refine forEach_same ?_ ?_
    | with_reducible refine pageMessage_same (Sub.trans (by decide) hl) ?_
    | fail_if_no_progress with_reducible refine same_upd ?_ (fun p hp => by cases p <;> first | exact absurd (hl.mem (by decide)) hp | exact rfl | exact ⟨rfl, rfl⟩ | exact ⟨rfl, rfl, rfl, rfl⟩)

theorem pageReq_same {σ : State} {π : List Part} {m : SpanMsg} {env : StackEnv} {s : State} (hl : Sub [.win, .stackMem, .mesh, .budget, .kv, .svc, .link, .ports, .ocl, .pair, .boot, .free] π) (h_s : Same π σ s) :
    Same π σ (pageReq m env s) := by
  unfold pageReq
  repeat' first
    | with_reducible assumption
    | intro _
    | with_reducible refine pageMessage_same (Sub.trans (by decide) hl) ?_
    | with_reducible refine takeInbox_same (Sub.trans (by decide) hl) ?_
    | fail_if_no_progress with_reducible refine same_upd ?_ (fun p hp => by cases p <;> first | exact absurd (hl.mem (by decide)) hp | exact rfl | exact ⟨rfl, rfl⟩ | exact ⟨rfl, rfl, rfl, rfl⟩)

theorem pageData_same {σ : State} {π : List Part} {m : SpanMsg} {s : State} (hl : Sub [.win, .stackMem, .mesh, .budget, .kv, .svc, .link, .ports, .ocl, .pair, .boot, .free] π) (h_s : Same π σ s) :
    Same π σ (pageData m s) := by
  unfold pageData
  repeat' first
    | with_reducible assumption
    | intro _
    | with_reducible refine pageMessage_same (Sub.trans (by decide) hl) ?_
    | with_reducible refine takeInbox_same (Sub.trans (by decide) hl) ?_
    | fail_if_no_progress with_reducible refine same_upd ?_ (fun p hp => by cases p <;> first | exact absurd (hl.mem (by decide)) hp | exact rfl | exact ⟨rfl, rfl⟩ | exact ⟨rfl, rfl, rfl, rfl⟩)

theorem execPageReq_same {σ : State} {π : List Part} {x : PageAsk} {s : State} (hl : Sub [.win, .stackMem, .mesh, .budget, .kv, .svc, .link, .ports, .ocl, .pair, .boot, .free] π) (h_s : Same π σ s) :
    ∃ τ, execPageReq x s = .next τ ∧ Same π σ τ := by
  refine ⟨_, rfl, ?_⟩
  repeat' first
    | with_reducible assumption
    | intro _
    | with_reducible refine pageReq_same (Sub.trans (by decide) hl) ?_

theorem execPageData_same {σ : State} {π : List Part} {m : SpanMsg} {s : State} (hl : Sub [.win, .stackMem, .mesh, .budget, .kv, .svc, .link, .ports, .ocl, .pair, .boot, .free] π) (h_s : Same π σ s) :
    ∃ τ, execPageData m s = .next τ ∧ Same π σ τ := by
  refine ⟨_, rfl, ?_⟩
  repeat' first
    | with_reducible assumption
    | intro _
    | with_reducible refine pageData_same (Sub.trans (by decide) hl) ?_

end Sys2Proof.Machine
end

