-- ==== Sys2Proof/Laws/FrameFrame.lean ====
section
/-!
SUPPORT. The parts that may change, for every function of Machine/Frame.lean that changes the state.
-/
set_option Elab.async false
namespace Sys2Proof.Machine
open Sys2Proof

theorem checkInvariants_same {σ : State} {π : List Part} {s : State} (hl : Sub [.win, .cells, .stackMem, .sched, .kv, .svc, .ledger, .link, .ports, .ocl, .faults, .power, .boot, .mgmt] π) (h_s : Same π σ s) :
    Same π σ (checkInvariants s) := by
  unfold checkInvariants
  repeat' first
    | with_reducible assumption
    | intro _
    | extract_lets
    | with_reducible refine fatal_same (Sub.trans (by decide) hl) ?_
    | fail_if_no_progress with_reducible refine same_upd ?_ (fun p hp => by cases p <;> first | exact absurd (hl.mem (by decide)) hp | exact rfl | exact ⟨rfl, rfl⟩ | exact ⟨rfl, rfl, rfl, rfl⟩)
    | split
    | dsimp +zetaDelta only

theorem rollOne_same {σ : State} {π : List Part} {a : Nat} {k : Nat} {s : State} (hl : Sub [.win, .budget] π) (h_s : Same π σ s) :
    Same π σ (rollOne a k s) := by
  unfold rollOne
  repeat' first
    | with_reducible assumption
    | intro _
    | extract_lets
    | with_reducible refine same_ite ?_ ?_
    | with_reducible refine wr_same (Sub.trans (by decide) hl) ?_
    | with_reducible refine when_same ?_ ?_
    | fail_if_no_progress with_reducible refine same_upd ?_ (fun p hp => by cases p <;> first | exact absurd (hl.mem (by decide)) hp | exact rfl | exact ⟨rfl, rfl⟩ | exact ⟨rfl, rfl, rfl, rfl⟩)
    | split

theorem noteFrame_same {σ : State} {π : List Part} {a : Nat} {s : State} (hl : Sub [.svc] π) (h_s : Same π σ s) :
    Same π σ (noteFrame a s) := by
  unfold noteFrame
  repeat' first
    | with_reducible assumption
    | intro _
    | extract_lets
    | with_reducible refine setTeleBase_same (Sub.trans (by decide) hl) ?_

theorem rollActivity_same {σ : State} {π : List Part} {a : Nat} {s : State} (hl : Sub [.win, .budget, .svc, .link, .ports, .ocl] π) (h_s : Same π σ s) :
    Same π σ (rollActivity a s) := by
  unfold rollActivity
  repeat' first
    | with_reducible assumption
    | intro _
    | extract_lets
    | with_reducible refine wr_same (Sub.trans (by decide) hl) ?_
    | with_reducible refine noteFrame_same (Sub.trans (by decide) hl) ?_
    | with_reducible refine forEach_same ?_ ?_
    | with_reducible refine rollOne_same (Sub.trans (by decide) hl) ?_
    | with_reducible refine checkHeld_same (Sub.trans (by decide) hl) ?_
    | with_reducible refine setTeleBase_same (Sub.trans (by decide) hl) ?_

theorem drainStream_same {σ : State} {π : List Part} {st : Nat} {s : State} (hl : Sub [.win, .cells, .counters, .cellMem, .stackMem, .mesh, .budget, .kv, .svc, .ledger, .link, .ports, .ocl, .pair, .boot, .agent, .free] π) (h_s : Same π σ s) :
    Same π σ (drainStream st s) := by
  unfold drainStream
  repeat' first
    | with_reducible assumption
    | intro _
    | with_reducible refine drainAhead_same (Sub.trans (by decide) hl) ?_

theorem resumePass_same {σ : State} {π : List Part} {s : State} (hl : Sub [.win, .cells, .counters, .cellMem, .stackMem, .mesh, .budget, .kv, .svc, .ledger, .link, .ports, .ocl, .pair, .boot, .agent, .free] π) (h_s : Same π σ s) :
    Same π σ (resumePass s) := by
  unfold resumePass
  repeat' first
    | with_reducible assumption
    | intro _
    | with_reducible refine drainStream_same (Sub.trans (by decide) hl) ?_
    | with_reducible refine flushPass_same (Sub.trans (by decide) hl) ?_
    | with_reducible refine resumeLoads_same (Sub.trans (by decide) hl) ?_

theorem rollBudgets_same {σ : State} {π : List Part} {s : State} (hl : Sub [.win, .cells, .counters, .cellMem, .stackMem, .mesh, .budget, .kv, .svc, .ledger, .link, .ports, .ocl, .pair, .boot, .agent, .free] π) (h_s : Same π σ s) :
    Same π σ (rollBudgets s) := by
  unfold rollBudgets
  repeat' first
    | with_reducible assumption
    | intro _
    | with_reducible refine resumePass_same (Sub.trans (by decide) hl) ?_
    | with_reducible refine drainStream_same (Sub.trans (by decide) hl) ?_
    | with_reducible refine flushMirror_same (Sub.trans (by decide) hl) ?_
    | with_reducible refine flushPages_same (Sub.trans (by decide) hl) ?_
    | with_reducible refine forEach_same ?_ ?_
    | with_reducible refine rollActivity_same (Sub.trans (by decide) hl) ?_

theorem rollUse_same {σ : State} {π : List Part} {m : Nat} {s : State} (hl : Sub [.win, .svc] π) (h_s : Same π σ s) :
    Same π σ (rollUse m s) := by
  unfold rollUse
  repeat' first
    | with_reducible assumption
    | intro _
    | extract_lets
    | with_reducible refine same_ite ?_ ?_
    | with_reducible refine wr_same (Sub.trans (by decide) hl) ?_
    | with_reducible refine setModelSlot_same (Sub.trans (by decide) hl) ?_
    | fail_if_no_progress with_reducible refine same_upd ?_ (fun p hp => by cases p <;> first | exact absurd (hl.mem (by decide)) hp | exact rfl | exact ⟨rfl, rfl⟩ | exact ⟨rfl, rfl, rfl, rfl⟩)
    | split

theorem ageReceive_same {σ : State} {π : List Part} {m : Nat} {s : State} (hl : Sub [.svc] π) (h_s : Same π σ s) :
    Same π σ (ageReceive m s) := by
  unfold ageReceive
  repeat' first
    | with_reducible assumption
    | intro _
    | with_reducible refine modModelSlot_same (Sub.trans (by decide) hl) ?_
    | fail_if_no_progress with_reducible refine same_upd ?_ (fun p hp => by cases p <;> first | exact absurd (hl.mem (by decide)) hp | exact rfl | exact ⟨rfl, rfl⟩ | exact ⟨rfl, rfl, rfl, rfl⟩)

theorem retryHeader_same {σ : State} {π : List Part} {k : Nat} {s : State} (hl : Sub [.win, .link, .ports, .ocl] π) (h_s : Same π σ s) :
    Same π σ (retryHeader k s) := by
  unfold retryHeader
  repeat' first
    | with_reducible assumption
    | intro _
    | with_reducible refine same_ite ?_ ?_
    | with_reducible refine hostRead_same (Sub.trans (by decide) hl) ?_
    | split

theorem rereadWatches_same {σ : State} {π : List Part} {s : State} (hl : Sub [.win, .link, .ports, .ocl] π) (h_s : Same π σ s) :
    Same π σ (rereadWatches s) := by
  unfold rereadWatches
  repeat' first
    | with_reducible assumption
    | intro _
    | with_reducible refine same_ite ?_ ?_
    | with_reducible refine forEach_same ?_ ?_
    | with_reducible refine retryHeader_same (Sub.trans (by decide) hl) ?_
    | with_reducible refine hostRead_same (Sub.trans (by decide) hl) ?_
    | split

theorem ageOcl_same {σ : State} {π : List Part} {s : State} (hl : Sub [.link, .ports] π) (h_s : Same π σ s) :
    Same π σ (ageOcl s) := by
  unfold ageOcl
  repeat' first
    | with_reducible assumption
    | intro _
    | extract_lets
    | with_reducible refine same_ite ?_ ?_
    | with_reducible refine modLink_same (Sub.trans (by decide) hl) ?_
    | fail_if_no_progress with_reducible refine same_upd ?_ (fun p hp => by cases p <;> first | exact absurd (hl.mem (by decide)) hp | exact rfl | exact ⟨rfl, rfl⟩ | exact ⟨rfl, rfl, rfl, rfl⟩)
    | split

theorem clearLate_same {σ : State} {π : List Part} {s : State} (hl : Sub [.svc] π) (h_s : Same π σ s) :
    Same π σ (clearLate s) := by
  unfold clearLate
  repeat' first
    | with_reducible assumption
    | intro _
    | with_reducible refine forEach_same ?_ ?_
    | with_reducible refine modModelSlot_same (Sub.trans (by decide) hl) ?_
    | fail_if_no_progress with_reducible refine same_upd ?_ (fun p hp => by cases p <;> first | exact absurd (hl.mem (by decide)) hp | exact rfl | exact ⟨rfl, rfl⟩ | exact ⟨rfl, rfl, rfl, rfl⟩)

theorem agePast_same {σ : State} {π : List Part} {s : State} (hl : Sub [.faults] π) (h_s : Same π σ s) :
    Same π σ (agePast s) := by
  unfold agePast
  repeat' first
    | with_reducible assumption
    | intro _
    | fail_if_no_progress with_reducible refine same_upd ?_ (fun p hp => by cases p <;> first | exact absurd (hl.mem (by decide)) hp | exact rfl | exact ⟨rfl, rfl⟩ | exact ⟨rfl, rfl, rfl, rfl⟩)

theorem mirrorFrame_same {σ : State} {π : List Part} {s : State} (hl : Sub [.win, .budget, .link, .ports, .ocl, .pair, .free] π) (h_s : Same π σ s) :
    Same π σ (mirrorFrame s) := by
  unfold mirrorFrame
  repeat' first
    | with_reducible assumption
    | intro _
    | extract_lets
    | with_reducible refine forEach_same ?_ ?_
    | with_reducible refine mirrorMsg_same (Sub.trans (by decide) hl) ?_

theorem sendFrame_same {σ : State} {π : List Part} {s : State} (hl : Sub [.win, .budget, .svc, .link, .ports, .ocl, .pair, .free] π) (h_s : Same π σ s) :
    Same π σ (sendFrame s) := by
  unfold sendFrame
  repeat' first
    | with_reducible assumption
    | intro _
    | extract_lets
    | with_reducible refine same_ite ?_ ?_
    | with_reducible refine mirrorFrame_same (Sub.trans (by decide) hl) ?_
    | with_reducible refine sendSpan_same (Sub.trans (by decide) hl) ?_
    | fail_if_no_progress with_reducible refine same_upd ?_ (fun p hp => by cases p <;> first | exact absurd (hl.mem (by decide)) hp | exact rfl | exact ⟨rfl, rfl⟩ | exact ⟨rfl, rfl, rfl, rfl⟩)
    | split

theorem gatherFields_same {σ : State} {π : List Part} {s : State} (hl : Sub [.win, .budget, .link, .ports, .ocl] π) (h_s : Same π σ s) :
    Same π σ (gatherFields s) := by
  unfold gatherFields
  repeat' first
    | with_reducible assumption
    | intro _
    | extract_lets
    | with_reducible refine charge_same (Sub.trans (by decide) hl) ?_
    | with_reducible refine chargeEnergy_same (Sub.trans (by decide) hl) ?_

theorem writeTele_same {σ : State} {π : List Part} {x0 : List (List Byte)} {x1 : State} (hl : Sub [.win, .svc, .link, .ports, .ocl] π) (h_x1 : Same π σ x1) :
    Same π σ (writeTele x0 x1) := by
  induction x0 generalizing x1 with
  | nil => (unfold writeTele; repeat' first
      | with_reducible assumption
      | intro _
      | extract_lets
      | with_reducible refine sendWr_same (Sub.trans (by decide) hl) ?_
      | fail_if_no_progress with_reducible refine same_upd ?_ (fun p hp => by cases p <;> first | exact absurd (hl.mem (by decide)) hp | exact rfl | exact ⟨rfl, rfl⟩ | exact ⟨rfl, rfl, rfl, rfl⟩))
  | cons _ _ ih => (unfold writeTele; repeat' first
      | with_reducible assumption
      | with_reducible apply ih
      | (injections; subst_vars; with_reducible apply ih)
      | intro _
      | extract_lets
      | with_reducible refine sendWr_same (Sub.trans (by decide) hl) ?_
      | fail_if_no_progress with_reducible refine same_upd ?_ (fun p hp => by cases p <;> first | exact absurd (hl.mem (by decide)) hp | exact rfl | exact ⟨rfl, rfl⟩ | exact ⟨rfl, rfl, rfl, rfl⟩))

theorem rebase_same {σ : State} {π : List Part} {s : State} (hl : Sub [.svc] π) (h_s : Same π σ s) :
    Same π σ (rebase s) := by
  unfold rebase
  repeat' first
    | with_reducible assumption
    | intro _
    | extract_lets
    | with_reducible refine forEach_same ?_ ?_
    | with_reducible refine setTeleBase_same (Sub.trans (by decide) hl) ?_

theorem endPeriod_same {σ : State} {π : List Part} {frame : Nat} {s0 : State} (hl : Sub [.win, .budget, .svc, .link, .ports, .ocl] π) (h_s0 : Same π σ s0) :
    Same π σ (endPeriod frame s0) := by
  unfold endPeriod
  repeat' first
    | with_reducible assumption
    | intro _
    | extract_lets
    | with_reducible refine same_ite ?_ ?_
    | with_reducible refine gatherFields_same (Sub.trans (by decide) hl) ?_
    | with_reducible refine raise_same (Sub.trans (by decide) hl) ?_
    | with_reducible refine bump_same (Sub.trans (by decide) hl) ?_
    | with_reducible refine writeTele_same (Sub.trans (by decide) hl) ?_
    | with_reducible refine rebase_same (Sub.trans (by decide) hl) ?_
    | with_reducible refine sendWrPart_same (Sub.trans (by decide) hl) ?_
    | fail_if_no_progress with_reducible refine same_upd ?_ (fun p hp => by cases p <;> first | exact absurd (hl.mem (by decide)) hp | exact rfl | exact ⟨rfl, rfl⟩ | exact ⟨rfl, rfl, rfl, rfl⟩)
    | split

theorem telemetry_same {σ : State} {π : List Part} {frame : Nat} {s : State} (hl : Sub [.win, .budget, .svc, .link, .ports, .ocl] π) (h_s : Same π σ s) :
    Same π σ (telemetry frame s) := by
  unfold telemetry
  repeat' first
    | with_reducible assumption
    | intro _
    | extract_lets
    | with_reducible refine same_ite ?_ ?_
    | with_reducible refine endPeriod_same (Sub.trans (by decide) hl) ?_
    | fail_if_no_progress with_reducible refine same_upd ?_ (fun p hp => by cases p <;> first | exact absurd (hl.mem (by decide)) hp | exact rfl | exact ⟨rfl, rfl⟩ | exact ⟨rfl, rfl, rfl, rfl⟩)
    | split

theorem resetRefused_same {σ : State} {π : List Part} {s : State} (hl : Sub [.win, .prec] π) (h_s : Same π σ s) :
    Same π σ (resetRefused s) := by
  unfold resetRefused
  repeat' first
    | with_reducible assumption
    | intro _
    | with_reducible refine wr_same (Sub.trans (by decide) hl) ?_
    | fail_if_no_progress with_reducible refine same_upd ?_ (fun p hp => by cases p <;> first | exact absurd (hl.mem (by decide)) hp | exact rfl | exact ⟨rfl, rfl⟩ | exact ⟨rfl, rfl, rfl, rfl⟩)

theorem tuneStopped_same {σ : State} {π : List Part} {s : State} (hl : Sub [.win, .stackMem, .kv, .tune, .link, .ports, .ocl] π) (h_s : Same π σ s) :
    Same π σ (tuneStopped s) := by
  unfold tuneStopped
  repeat' first
    | with_reducible assumption
    | intro _
    | with_reducible refine when_same ?_ ?_
    | with_reducible refine tuneFailover_same (Sub.trans (by decide) hl) ?_

theorem frameActs_same {σ : State} {π : List Part} {frame : Nat} {s : State} (hl : Sub [.win, .cells, .counters, .cellMem, .stackMem, .mesh, .prec, .sched, .budget, .kv, .svc, .ledger, .tune, .link, .ports, .ocl, .pair, .faults, .power, .boot, .agent, .mgmt, .free] π) (h_s : Same π σ s) :
    Same π σ (frameActs frame s) := by
  unfold frameActs
  repeat' first
    | with_reducible assumption
    | intro _
    | with_reducible refine checkInvariants_same (Sub.trans (by decide) hl) ?_
    | with_reducible refine rollBudgets_same (Sub.trans (by decide) hl) ?_
    | with_reducible refine forEach_same ?_ ?_
    | with_reducible refine switchRecipe_same (Sub.trans (by decide) hl) ?_
    | with_reducible refine resetRefused_same (Sub.trans (by decide) hl) ?_
    | with_reducible refine admission_same (Sub.trans (by decide) hl) ?_
    | with_reducible refine clearLate_same (Sub.trans (by decide) hl) ?_
    | with_reducible refine rollUse_same (Sub.trans (by decide) hl) ?_
    | with_reducible refine ageReceive_same (Sub.trans (by decide) hl) ?_
    | with_reducible refine ageReleases_same (Sub.trans (by decide) hl) ?_
    | with_reducible refine ageOcl_same (Sub.trans (by decide) hl) ?_
    | with_reducible refine agePast_same (Sub.trans (by decide) hl) ?_
    | with_reducible refine tuneStopped_same (Sub.trans (by decide) hl) ?_
    | with_reducible refine telemetry_same (Sub.trans (by decide) hl) ?_
    | with_reducible refine watchPartner_same (Sub.trans (by decide) hl) ?_
    | with_reducible refine sendFrame_same (Sub.trans (by decide) hl) ?_
    | with_reducible refine rereadWatches_same (Sub.trans (by decide) hl) ?_

theorem frameStart_same {σ : State} {π : List Part} {t : Nat} {s0 : State} (hl : Sub [.win, .cells, .counters, .cellMem, .stackMem, .mesh, .prec, .sched, .beat, .budget, .kv, .svc, .ledger, .tune, .link, .ports, .ocl, .pair, .faults, .power, .boot, .agent, .mgmt, .now, .free] π) (h_s0 : Same π σ s0) :
    Same π σ (frameStart t s0) := by
  unfold frameStart
  repeat' first
    | with_reducible assumption
    | intro _
    | extract_lets
    | with_reducible refine same_ite ?_ ?_
    | with_reducible refine atTime_same (Sub.trans (by decide) hl) ?_
    | with_reducible refine frameActs_same (Sub.trans (by decide) hl) ?_
    | fail_if_no_progress with_reducible refine same_upd ?_ (fun p hp => by cases p <;> first | exact absurd (hl.mem (by decide)) hp | exact rfl | exact ⟨rfl, rfl⟩ | exact ⟨rfl, rfl, rfl, rfl⟩)
    | split

theorem execFrameStart_same {σ : State} {π : List Part} {t : Nat} {s : State} (hl : Sub [.win, .cells, .counters, .cellMem, .stackMem, .mesh, .prec, .sched, .beat, .budget, .kv, .svc, .ledger, .tune, .link, .ports, .ocl, .pair, .faults, .power, .boot, .agent, .mgmt, .now, .free] π) (h_s : Same π σ s) :
    ∃ τ, execFrameStart t s = .next τ ∧ Same π σ τ := by
  refine ⟨_, rfl, ?_⟩
  repeat' first
    | with_reducible assumption
    | intro _
    | with_reducible refine frameStart_same (Sub.trans (by decide) hl) ?_

end Sys2Proof.Machine
end

