-- ==== Sys2Proof/Laws/FrameSpanRows.lean ====
section
/-!
SUPPORT. The parts that may change, for every function of Machine/SpanRows.lean that changes the state.
-/
set_option Elab.async false
namespace Sys2Proof.Machine
open Sys2Proof

theorem partnerFailed_same {σ : State} {π : List Part} {arg : Nat} {s : State} (hl : Sub [.win, .stackMem, .kv, .svc, .ledger, .link, .ports, .ocl, .pair, .boot, .mgmt] π) (h_s : Same π σ s) :
    Same π σ (partnerFailed arg s) := by
  unfold partnerFailed
  repeat' first
    | with_reducible assumption
    | intro _
    | extract_lets
    | with_reducible refine same_ite ?_ ?_
    | with_reducible refine pldm_same (Sub.trans (by decide) hl) ?_
    | with_reducible refine raise_same (Sub.trans (by decide) hl) ?_
    | with_reducible refine setPairSt_same (Sub.trans (by decide) hl) ?_
    | with_reducible refine endSplit_same (Sub.trans (by decide) hl) ?_
    | with_reducible refine leaveSplit_same (Sub.trans (by decide) hl) ?_
    | with_reducible refine leavePrimary_same (Sub.trans (by decide) hl) ?_
    | with_reducible refine losePageReqs_same (Sub.trans (by decide) hl) ?_
    | with_reducible refine startTakeover_same (Sub.trans (by decide) hl) ?_
    | split

theorem failRow_same {σ : State} {π : List Part} {port : Nat} {arg : Nat} {s : State} (hl : Sub [.win, .stackMem, .kv, .svc, .ledger, .link, .ports, .ocl, .pair, .boot, .mgmt] π) (h_s : Same π σ s) :
    Same π σ (failRow port arg s) := by
  unfold failRow
  repeat' first
    | with_reducible assumption
    | intro _
    | with_reducible refine same_ite ?_ ?_
    | with_reducible refine partnerFailed_same (Sub.trans (by decide) hl) ?_
    | with_reducible refine setWatch_same (Sub.trans (by decide) hl) ?_
    | with_reducible refine takeInbox_same (Sub.trans (by decide) hl) ?_
    | split

theorem execFail_same {σ : State} {π : List Part} {port : Nat} {arg : Nat} {s : State} (hl : Sub [.win, .stackMem, .kv, .svc, .ledger, .link, .ports, .ocl, .pair, .boot, .mgmt] π) (h_s : Same π σ s) :
    ∃ τ, execFail port arg s = .next τ ∧ Same π σ τ := by
  refine ⟨_, rfl, ?_⟩
  repeat' first
    | with_reducible assumption
    | intro _
    | with_reducible refine failRow_same (Sub.trans (by decide) hl) ?_

theorem frameRow_same {σ : State} {π : List Part} {port : Nat} {d : FrameData} {s : State} (hl : Sub [.win, .cells, .counters, .cellMem, .stackMem, .mesh, .budget, .kv, .svc, .ledger, .link, .ports, .ocl, .pair, .boot, .agent, .free] π) (h_s : Same π σ s) :
    Same π σ (frameRow port d s) := by
  unfold frameRow
  repeat' first
    | with_reducible assumption
    | intro _
    | extract_lets
    | with_reducible refine same_ite ?_ ?_
    | with_reducible refine takeInbox_same (Sub.trans (by decide) hl) ?_
    | with_reducible refine raiseEpoch_same (Sub.trans (by decide) hl) ?_
    | with_reducible refine receiveSpan_same (Sub.trans (by decide) hl) ?_
    | fail_if_no_progress with_reducible refine same_upd ?_ (fun p hp => by cases p <;> first | exact absurd (hl.mem (by decide)) hp | exact rfl | exact ⟨rfl, rfl⟩ | exact ⟨rfl, rfl, rfl, rfl⟩)
    | split

theorem execFrame_same {σ : State} {π : List Part} {port : Nat} {d : FrameData} {s : State} (hl : Sub [.win, .cells, .counters, .cellMem, .stackMem, .mesh, .budget, .kv, .svc, .ledger, .link, .ports, .ocl, .pair, .boot, .agent, .free] π) (h_s : Same π σ s) :
    ∃ τ, execFrame port d s = .next τ ∧ Same π σ τ := by
  refine ⟨_, rfl, ?_⟩
  repeat' first
    | with_reducible assumption
    | intro _
    | with_reducible refine frameRow_same (Sub.trans (by decide) hl) ?_

theorem forgetSent_same {σ : State} {π : List Part} {st : Nat} {psn : Nat} {s : State} (hl : Sub [.pair] π) (h_s : Same π σ s) :
    Same π σ (forgetSent st psn s) := by
  unfold forgetSent
  repeat' first
    | with_reducible assumption
    | intro _
    | fail_if_no_progress with_reducible refine same_upd ?_ (fun p hp => by cases p <;> first | exact absurd (hl.mem (by decide)) hp | exact rfl | exact ⟨rfl, rfl⟩ | exact ⟨rfl, rfl, rfl, rfl⟩)

theorem groupAcked_same {σ : State} {π : List Part} {p : Nat × Nat} {s : State} (hl : Sub [.win, .ledger] π) (h_s : Same π σ s) :
    Same π σ (groupAcked p s) := by
  unfold groupAcked
  repeat' first
    | with_reducible assumption
    | intro _
    | with_reducible refine same_ite ?_ ?_
    | with_reducible refine bump_same (Sub.trans (by decide) hl) ?_
    | with_reducible refine modLedger_same (Sub.trans (by decide) hl) ?_
    | fail_if_no_progress with_reducible refine same_upd ?_ (fun p hp => by cases p <;> first | exact absurd (hl.mem (by decide)) hp | exact rfl | exact ⟨rfl, rfl⟩ | exact ⟨rfl, rfl, rfl, rfl⟩)
    | split

theorem ackMirror_same {σ : State} {π : List Part} {psn : Nat} {s : State} (hl : Sub [.win, .svc, .ledger, .link, .ports, .ocl, .pair] π) (h_s : Same π σ s) :
    Same π σ (ackMirror psn s) := by
  unfold ackMirror
  repeat' first
    | with_reducible assumption
    | intro _
    | extract_lets
    | with_reducible refine flushRings_same (Sub.trans (by decide) hl) ?_
    | with_reducible refine forEach_same ?_ ?_
    | with_reducible refine groupAcked_same (Sub.trans (by decide) hl) ?_
    | with_reducible refine settleLedger_same (Sub.trans (by decide) hl) ?_
    | fail_if_no_progress with_reducible refine same_upd ?_ (fun p hp => by cases p <;> first | exact absurd (hl.mem (by decide)) hp | exact rfl | exact ⟨rfl, rfl⟩ | exact ⟨rfl, rfl, rfl, rfl⟩)

theorem ackRow_same {σ : State} {π : List Part} {arg : Nat} {s : State} (hl : Sub [.win, .budget, .svc, .ledger, .link, .ports, .ocl, .pair, .free] π) (h_s : Same π σ s) :
    Same π σ (ackRow arg s) := by
  unfold ackRow
  repeat' first
    | with_reducible assumption
    | intro _
    | extract_lets
    | with_reducible refine same_ite ?_ ?_
    | with_reducible refine takeInbox_same (Sub.trans (by decide) hl) ?_
    | with_reducible refine forgetSent_same (Sub.trans (by decide) hl) ?_
    | with_reducible refine ackMirror_same (Sub.trans (by decide) hl) ?_
    | with_reducible refine when_same ?_ ?_
    | with_reducible refine syncAll_same (Sub.trans (by decide) hl) ?_
    | split

theorem execAck_same {σ : State} {π : List Part} {arg : Nat} {s : State} (hl : Sub [.win, .budget, .svc, .ledger, .link, .ports, .ocl, .pair, .free] π) (h_s : Same π σ s) :
    ∃ τ, execAck arg s = .next τ ∧ Same π σ τ := by
  refine ⟨_, rfl, ?_⟩
  repeat' first
    | with_reducible assumption
    | intro _
    | with_reducible refine ackRow_same (Sub.trans (by decide) hl) ?_

theorem streamRow_same {σ : State} {π : List Part} {st : Nat} {op : Nat} {psn : Nat} {x : SpanIn} {s : State} (hl : Sub [.win, .cells, .counters, .cellMem, .stackMem, .mesh, .budget, .kv, .svc, .ledger, .link, .ports, .ocl, .pair, .boot, .agent, .free] π) (h_s : Same π σ s) :
    Same π σ (streamRow st op psn x s) := by
  unfold streamRow
  repeat' first
    | with_reducible assumption
    | intro _
    | with_reducible refine same_ite ?_ ?_
    | with_reducible refine receiveSpan_same (Sub.trans (by decide) hl) ?_
    | with_reducible refine takeInbox_same (Sub.trans (by decide) hl) ?_
    | split

theorem execCmd_same {σ : State} {π : List Part} {m : SpanMsg} {s : State} (hl : Sub [.win, .cells, .counters, .cellMem, .stackMem, .mesh, .budget, .kv, .svc, .ledger, .link, .ports, .ocl, .pair, .boot, .agent, .free] π) (h_s : Same π σ s) :
    ∃ τ, execCmd m s = .next τ ∧ Same π σ τ := by
  refine ⟨_, rfl, ?_⟩
  repeat' first
    | with_reducible assumption
    | intro _
    | with_reducible refine streamRow_same (Sub.trans (by decide) hl) ?_
    | fail_if_no_progress with_reducible refine same_upd ?_ (fun p hp => by cases p <;> first | exact absurd (hl.mem (by decide)) hp | exact rfl | exact ⟨rfl, rfl⟩ | exact ⟨rfl, rfl, rfl, rfl⟩)

theorem execTokensIn_same {σ : State} {π : List Part} {m : SpanMsg} {s : State} (hl : Sub [.win, .cells, .counters, .cellMem, .stackMem, .mesh, .budget, .kv, .svc, .ledger, .link, .ports, .ocl, .pair, .boot, .agent, .free] π) (h_s : Same π σ s) :
    ∃ τ, execTokensIn m s = .next τ ∧ Same π σ τ := by
  refine ⟨_, rfl, ?_⟩
  repeat' first
    | with_reducible assumption
    | intro _
    | with_reducible refine streamRow_same (Sub.trans (by decide) hl) ?_
    | fail_if_no_progress with_reducible refine same_upd ?_ (fun p hp => by cases p <;> first | exact absurd (hl.mem (by decide)) hp | exact rfl | exact ⟨rfl, rfl⟩ | exact ⟨rfl, rfl, rfl, rfl⟩)

theorem execKv_same {σ : State} {π : List Part} {m : SpanMsg} {s : State} (hl : Sub [.win, .cells, .counters, .cellMem, .stackMem, .mesh, .budget, .kv, .svc, .ledger, .link, .ports, .ocl, .pair, .boot, .agent, .free] π) (h_s : Same π σ s) :
    ∃ τ, execKv m s = .next τ ∧ Same π σ τ := by
  refine ⟨_, rfl, ?_⟩
  repeat' first
    | with_reducible assumption
    | intro _
    | with_reducible refine streamRow_same (Sub.trans (by decide) hl) ?_
    | fail_if_no_progress with_reducible refine same_upd ?_ (fun p hp => by cases p <;> first | exact absurd (hl.mem (by decide)) hp | exact rfl | exact ⟨rfl, rfl⟩ | exact ⟨rfl, rfl, rfl, rfl⟩)

theorem execSeqstate_same {σ : State} {π : List Part} {m : SpanMsg} {s : State} (hl : Sub [.win, .cells, .counters, .cellMem, .stackMem, .mesh, .budget, .kv, .svc, .ledger, .link, .ports, .ocl, .pair, .boot, .agent, .free] π) (h_s : Same π σ s) :
    ∃ τ, execSeqstate m s = .next τ ∧ Same π σ τ := by
  refine ⟨_, rfl, ?_⟩
  repeat' first
    | with_reducible assumption
    | intro _
    | with_reducible refine streamRow_same (Sub.trans (by decide) hl) ?_
    | fail_if_no_progress with_reducible refine same_upd ?_ (fun p hp => by cases p <;> first | exact absurd (hl.mem (by decide)) hp | exact rfl | exact ⟨rfl, rfl⟩ | exact ⟨rfl, rfl, rfl, rfl⟩)

theorem execCommit_same {σ : State} {π : List Part} {d : CommitData} {s : State} (hl : Sub [.win, .cells, .counters, .cellMem, .stackMem, .mesh, .budget, .kv, .svc, .ledger, .link, .ports, .ocl, .pair, .boot, .agent, .free] π) (h_s : Same π σ s) :
    ∃ τ, execCommit d s = .next τ ∧ Same π σ τ := by
  refine ⟨_, rfl, ?_⟩
  repeat' first
    | with_reducible assumption
    | intro _
    | with_reducible refine streamRow_same (Sub.trans (by decide) hl) ?_

theorem execPfx_same {σ : State} {π : List Part} {d : PfxChange} {s : State} (hl : Sub [.win, .cells, .counters, .cellMem, .stackMem, .mesh, .budget, .kv, .svc, .ledger, .link, .ports, .ocl, .pair, .boot, .agent, .free] π) (h_s : Same π σ s) :
    ∃ τ, execPfx d s = .next τ ∧ Same π σ τ := by
  refine ⟨_, rfl, ?_⟩
  repeat' first
    | with_reducible assumption
    | intro _
    | with_reducible refine streamRow_same (Sub.trans (by decide) hl) ?_

theorem execPass_same {σ : State} {π : List Part} {m : SpanMsg} {s : State} (hl : Sub [.win, .cells, .counters, .cellMem, .stackMem, .mesh, .budget, .kv, .svc, .ledger, .link, .ports, .ocl, .pair, .boot, .agent, .free] π) (h_s : Same π σ s) :
    ∃ τ, execPass m s = .next τ ∧ Same π σ τ := by
  refine ⟨_, rfl, ?_⟩
  repeat' first
    | with_reducible assumption
    | intro _
    | with_reducible refine same_ite ?_ ?_
    | with_reducible refine streamRow_same (Sub.trans (by decide) hl) ?_
    | fail_if_no_progress with_reducible refine same_upd ?_ (fun p hp => by cases p <;> first | exact absurd (hl.mem (by decide)) hp | exact rfl | exact ⟨rfl, rfl⟩ | exact ⟨rfl, rfl, rfl, rfl⟩)
    | split

theorem execXing_same {σ : State} {π : List Part} {m : SpanMsg} {s : State} (hl : Sub [.win, .cells, .counters, .cellMem, .stackMem, .mesh, .budget, .kv, .svc, .ledger, .link, .ports, .ocl, .pair, .boot, .agent, .free] π) (h_s : Same π σ s) :
    ∃ τ, execXing m s = .next τ ∧ Same π σ τ := by
  refine ⟨_, rfl, ?_⟩
  repeat' first
    | with_reducible assumption
    | intro _
    | with_reducible refine same_ite ?_ ?_
    | with_reducible refine streamRow_same (Sub.trans (by decide) hl) ?_
    | fail_if_no_progress with_reducible refine same_upd ?_ (fun p hp => by cases p <;> first | exact absurd (hl.mem (by decide)) hp | exact rfl | exact ⟨rfl, rfl⟩ | exact ⟨rfl, rfl, rfl, rfl⟩)
    | split

theorem execResult_same {σ : State} {π : List Part} {d : SplitResult} {s : State} (hl : Sub [.win, .cells, .counters, .cellMem, .stackMem, .mesh, .budget, .kv, .svc, .ledger, .link, .ports, .ocl, .pair, .boot, .agent, .free] π) (h_s : Same π σ s) :
    ∃ τ, execResult d s = .next τ ∧ Same π σ τ := by
  refine ⟨_, rfl, ?_⟩
  repeat' first
    | with_reducible assumption
    | intro _
    | with_reducible refine same_ite ?_ ?_
    | with_reducible refine streamRow_same (Sub.trans (by decide) hl) ?_
    | split

theorem execScommit_same {σ : State} {π : List Part} {model : Nat} {launch : Nat} {psn : Nat} {s : State} (hl : Sub [.win, .cells, .counters, .cellMem, .stackMem, .mesh, .budget, .kv, .svc, .ledger, .link, .ports, .ocl, .pair, .boot, .agent, .free] π) (h_s : Same π σ s) :
    ∃ τ, execScommit model launch psn s = .next τ ∧ Same π σ τ := by
  refine ⟨_, rfl, ?_⟩
  repeat' first
    | with_reducible assumption
    | intro _
    | with_reducible refine same_ite ?_ ?_
    | with_reducible refine streamRow_same (Sub.trans (by decide) hl) ?_
    | split

theorem passRsp_same {σ : State} {π : List Part} {m : SpanMsg} {s : State} (hl : Sub [.win, .svc, .link, .ports, .ocl, .pair] π) (h_s : Same π σ s) :
    Same π σ (passRsp m s) := by
  unfold passRsp
  repeat' first
    | with_reducible assumption
    | intro _
    | extract_lets
    | with_reducible refine same_ite ?_ ?_
    | with_reducible refine takeInbox_same (Sub.trans (by decide) hl) ?_
    | with_reducible refine endLoading_same (Sub.trans (by decide) hl) ?_
    | fail_if_no_progress with_reducible refine same_upd ?_ (fun p hp => by cases p <;> first | exact absurd (hl.mem (by decide)) hp | exact rfl | exact ⟨rfl, rfl⟩ | exact ⟨rfl, rfl, rfl, rfl⟩)
    | split
    | dsimp +zetaDelta only

theorem execPassRsp_same {σ : State} {π : List Part} {m : SpanMsg} {s : State} (hl : Sub [.win, .svc, .link, .ports, .ocl, .pair] π) (h_s : Same π σ s) :
    ∃ τ, execPassRsp m s = .next τ ∧ Same π σ τ := by
  refine ⟨_, rfl, ?_⟩
  repeat' first
    | with_reducible assumption
    | intro _
    | with_reducible refine passRsp_same (Sub.trans (by decide) hl) ?_

theorem spanCredit_same {σ : State} {π : List Part} {port : Nat} {slots : Nat} {init : Bool} {s : State} (hl : Sub [.win, .link, .ports, .ocl, .pair] π) (h_s : Same π σ s) :
    Same π σ (spanCredit port slots init s) := by
  unfold spanCredit
  repeat' first
    | with_reducible assumption
    | intro _
    | with_reducible refine same_ite ?_ ?_
    | with_reducible refine pump_same (Sub.trans (by decide) hl) ?_
    | with_reducible refine modLink_same (Sub.trans (by decide) hl) ?_
    | with_reducible refine takeInbox_same (Sub.trans (by decide) hl) ?_
    | fail_if_no_progress with_reducible refine same_upd ?_ (fun p hp => by cases p <;> first | exact absurd (hl.mem (by decide)) hp | exact rfl | exact ⟨rfl, rfl⟩ | exact ⟨rfl, rfl, rfl, rfl⟩)
    | split

theorem execSpanCredit_same {σ : State} {π : List Part} {port : Nat} {slots : Nat} {init : Bool} {s : State} (hl : Sub [.win, .link, .ports, .ocl, .pair] π) (h_s : Same π σ s) :
    ∃ τ, execSpanCredit port slots init s = .next τ ∧ Same π σ τ := by
  refine ⟨_, rfl, ?_⟩
  repeat' first
    | with_reducible assumption
    | intro _
    | with_reducible refine spanCredit_same (Sub.trans (by decide) hl) ?_

theorem splitLaunch_same {σ : State} {π : List Part} {m : Nat} {entry : Nat} {launch : Nat} {seqs : List (Request × StepSeq)} {s : State} (hl : Sub [.win, .budget, .link, .ports, .ocl, .pair] π) (h_s : Same π σ s) :
    Same π σ (splitLaunch m entry launch seqs s) := by
  unfold splitLaunch
  repeat' first
    | with_reducible assumption
    | intro _
    | extract_lets
    | with_reducible refine same_ite ?_ ?_
    | with_reducible refine chargeCross_same (Sub.trans (by decide) hl) ?_
    | with_reducible refine setCrossed_same (Sub.trans (by decide) hl) ?_
    | fail_if_no_progress with_reducible refine same_upd ?_ (fun p hp => by cases p <;> first | exact absurd (hl.mem (by decide)) hp | exact rfl | exact ⟨rfl, rfl⟩ | exact ⟨rfl, rfl, rfl, rfl⟩)
    | split

theorem execSplitLaunch_same {σ : State} {π : List Part} {m : Nat} {b : BackLaunch} {s : State} (hl : Sub [.win, .budget, .link, .ports, .ocl, .pair] π) (h_s : Same π σ s) :
    ∃ τ, execSplitLaunch m b s = .next τ ∧ Same π σ τ := by
  refine ⟨_, rfl, ?_⟩
  repeat' first
    | with_reducible assumption
    | intro _
    | with_reducible refine splitLaunch_same (Sub.trans (by decide) hl) ?_

end Sys2Proof.Machine
end

