-- ==== Sys2Proof/Laws/FrameLinkRows.lean ====
section
/-!
SUPPORT. The parts that may change, for every function of Machine/LinkRows.lean that changes the state.
-/
set_option Elab.async false
namespace Sys2Proof.Machine
open Sys2Proof

theorem discardMsg_same {σ : State} {π : List Part} {i : Nat} {s : State} (hl : Sub [.win, .link, .ports, .ocl] π) (h_s : Same π σ s) :
    Same π σ (discardMsg i s) := by
  unfold discardMsg
  repeat' first
    | with_reducible assumption
    | intro _
    | with_reducible refine raise_same (Sub.trans (by decide) hl) ?_
    | with_reducible refine bump_same (Sub.trans (by decide) hl) ?_

theorem showPorts_same {σ : State} {π : List Part} {s : State} (hl : Sub [.win, .link, .ports, .ocl] π) (h_s : Same π σ s) :
    Same π σ (showPorts s) := by
  unfold showPorts
  repeat' first
    | with_reducible assumption
    | intro _
    | extract_lets
    | with_reducible refine wr_same (Sub.trans (by decide) hl) ?_
    | with_reducible refine when_same ?_ ?_
    | with_reducible refine raise_same (Sub.trans (by decide) hl) ?_
    | with_reducible refine foldl_same ?_ ?_

theorem setLinkSt_same {σ : State} {π : List Part} {i : Nat} {n : Nat} {s : State} (hl : Sub [.win, .link, .ports, .ocl] π) (h_s : Same π σ s) :
    Same π σ (setLinkSt i n s) := by
  unfold setLinkSt
  repeat' first
    | with_reducible assumption
    | intro _
    | extract_lets
    | with_reducible refine same_ite ?_ ?_
    | with_reducible refine wr_same (Sub.trans (by decide) hl) ?_
    | with_reducible refine showPorts_same (Sub.trans (by decide) hl) ?_
    | split

theorem moveSpan_same {σ : State} {π : List Part} {k : Nat} {s : State} (hl : Sub [.win, .link, .ports, .ocl, .pair, .free] π) (h_s : Same π σ s) :
    Same π σ (moveSpan k s) := by
  unfold moveSpan
  repeat' first
    | with_reducible assumption
    | intro _
    | extract_lets
    | with_reducible refine modLink_same (Sub.trans (by decide) hl) ?_
    | with_reducible refine forEach_same ?_ ?_
    | with_reducible refine putSpan_same (Sub.trans (by decide) hl) ?_
    | fail_if_no_progress with_reducible refine same_upd ?_ (fun p hp => by cases p <;> first | exact absurd (hl.mem (by decide)) hp | exact rfl | exact ⟨rfl, rfl⟩ | exact ⟨rfl, rfl, rfl, rfl⟩)

theorem goDown_same {σ : State} {π : List Part} {i : Nat} {t : Nat} {s : State} (hl : Sub [.win, .link, .ports, .ocl, .pair, .mgmt, .free] π) (h_s : Same π σ s) :
    Same π σ (goDown i t s) := by
  unfold goDown
  repeat' first
    | with_reducible assumption
    | intro _
    | extract_lets
    | with_reducible refine same_ite ?_ ?_
    | with_reducible refine setLinkSt_same (Sub.trans (by decide) hl) ?_
    | with_reducible refine modLink_same (Sub.trans (by decide) hl) ?_
    | with_reducible refine raise_same (Sub.trans (by decide) hl) ?_
    | with_reducible refine pldm_same (Sub.trans (by decide) hl) ?_
    | with_reducible refine moveSpan_same (Sub.trans (by decide) hl) ?_
    | fail_if_no_progress with_reducible refine same_upd ?_ (fun p hp => by cases p <;> first | exact absurd (hl.mem (by decide)) hp | exact rfl | exact ⟨rfl, rfl⟩ | exact ⟨rfl, rfl, rfl, rfl⟩)
    | split

theorem resendSpan_same {σ : State} {π : List Part} {k : Nat} {s : State} (hl : Sub [.win, .link, .ports, .ocl, .pair] π) (h_s : Same π σ s) :
    Same π σ (resendSpan k s) := by
  unfold resendSpan
  repeat' first
    | with_reducible assumption
    | intro _
    | extract_lets
    | with_reducible refine forEach_same ?_ ?_
    | with_reducible refine sendOnPort_same (Sub.trans (by decide) hl) ?_
    | fail_if_no_progress with_reducible refine same_upd ?_ (fun p hp => by cases p <;> first | exact absurd (hl.mem (by decide)) hp | exact rfl | exact ⟨rfl, rfl⟩ | exact ⟨rfl, rfl, rfl, rfl⟩)

theorem resume_same {σ : State} {π : List Part} {i : Nat} {s : State} (hl : Sub [.win, .budget, .svc, .link, .ports, .ocl, .pair, .free] π) (h_s : Same π σ s) :
    Same π σ (resume i s) := by
  unfold resume
  repeat' first
    | with_reducible assumption
    | intro _
    | with_reducible refine same_ite ?_ ?_
    | with_reducible refine flushEvents_same (Sub.trans (by decide) hl) ?_
    | with_reducible refine flushRings_same (Sub.trans (by decide) hl) ?_
    | with_reducible refine pump_same (Sub.trans (by decide) hl) ?_
    | with_reducible refine flushMirror_same (Sub.trans (by decide) hl) ?_
    | split

theorem presenceDetect_same {σ : State} {π : List Part} {i : Nat} {lanes : Nat} {s : State} (hl : Sub [.win, .link, .ports, .ocl] π) (h_s : Same π σ s) :
    Same π σ (presenceDetect i lanes s) := by
  unfold presenceDetect
  repeat' first
    | with_reducible assumption
    | intro _
    | with_reducible refine same_ite ?_ ?_
    | with_reducible refine setLinkSt_same (Sub.trans (by decide) hl) ?_
    | split

theorem execPresenceDetect_same {σ : State} {π : List Part} {i : Nat} {lanes : Nat} {s : State} (hl : Sub [.win, .link, .ports, .ocl] π) (h_s : Same π σ s) :
    ∃ τ, execPresenceDetect i lanes s = .next τ ∧ Same π σ τ := by
  refine ⟨_, rfl, ?_⟩
  repeat' first
    | with_reducible assumption
    | intro _
    | with_reducible refine presenceDetect_same (Sub.trans (by decide) hl) ?_

theorem equalisationEnd_same {σ : State} {π : List Part} {i : Nat} {failed : Nat} {s : State} (hl : Sub [.win, .link, .ports, .ocl] π) (h_s : Same π σ s) :
    Same π σ (equalisationEnd i failed s) := by
  unfold equalisationEnd
  repeat' first
    | with_reducible assumption
    | intro _
    | with_reducible refine same_ite ?_ ?_
    | with_reducible refine setLinkSt_same (Sub.trans (by decide) hl) ?_
    | with_reducible refine modLink_same (Sub.trans (by decide) hl) ?_
    | fail_if_no_progress with_reducible refine same_upd ?_ (fun p hp => by cases p <;> first | exact absurd (hl.mem (by decide)) hp | exact rfl | exact ⟨rfl, rfl⟩ | exact ⟨rfl, rfl, rfl, rfl⟩)
    | split

theorem execEqualisationEnd_same {σ : State} {π : List Part} {i : Nat} {failed : Nat} {s : State} (hl : Sub [.win, .link, .ports, .ocl] π) (h_s : Same π σ s) :
    ∃ τ, execEqualisationEnd i failed s = .next τ ∧ Same π σ τ := by
  refine ⟨_, rfl, ?_⟩
  repeat' first
    | with_reducible assumption
    | intro _
    | with_reducible refine equalisationEnd_same (Sub.trans (by decide) hl) ?_

theorem offerParams_same {σ : State} {π : List Part} {i : Nat} {s : State} (hl : Sub [.win, .link, .ports, .ocl] π) (h_s : Same π σ s) :
    Same π σ (offerParams i s) := by
  unfold offerParams
  repeat' first
    | with_reducible assumption
    | intro _
    | extract_lets
    | with_reducible refine same_ite ?_ ?_
    | with_reducible refine modLink_same (Sub.trans (by decide) hl) ?_
    | with_reducible refine sendCredit_same (Sub.trans (by decide) hl) ?_
    | with_reducible refine sendOnPort_same (Sub.trans (by decide) hl) ?_
    | fail_if_no_progress with_reducible refine same_upd ?_ (fun p hp => by cases p <;> first | exact absurd (hl.mem (by decide)) hp | exact rfl | exact ⟨rfl, rfl⟩ | exact ⟨rfl, rfl, rfl, rfl⟩)
    | split

theorem relink_same {σ : State} {π : List Part} {i : Nat} {s : State} (hl : Sub [.win, .pair] π) (h_s : Same π σ s) :
    Same π σ (relink i s) := by
  unfold relink
  repeat' first
    | with_reducible assumption
    | intro _
    | with_reducible refine same_ite ?_ ?_
    | with_reducible refine setPairSt_same (Sub.trans (by decide) hl) ?_
    | fail_if_no_progress with_reducible refine same_upd ?_ (fun p hp => by cases p <;> first | exact absurd (hl.mem (by decide)) hp | exact rfl | exact ⟨rfl, rfl⟩ | exact ⟨rfl, rfl, rfl, rfl⟩)
    | split

theorem alignment_same {σ : State} {π : List Part} {i : Nat} {reversed : Bool} {s : State} (hl : Sub [.win, .link, .ports, .ocl, .pair, .mgmt, .free] π) (h_s : Same π σ s) :
    Same π σ (alignment i reversed s) := by
  unfold alignment
  repeat' first
    | with_reducible assumption
    | intro _
    | extract_lets
    | with_reducible refine same_ite ?_ ?_
    | with_reducible refine goDown_same (Sub.trans (by decide) hl) ?_
    | with_reducible refine seedLanes_same (Sub.trans (by decide) hl) 
    | with_reducible refine relink_same (Sub.trans (by decide) hl) ?_
    | with_reducible refine offerParams_same (Sub.trans (by decide) hl) ?_
    | with_reducible refine when_same ?_ ?_
    | with_reducible refine raise_same (Sub.trans (by decide) hl) ?_
    | with_reducible refine setLinkSt_same (Sub.trans (by decide) hl) ?_
    | with_reducible refine modLink_same (Sub.trans (by decide) hl) ?_
    | with_reducible refine wrB_same (Sub.trans (by decide) hl) ?_
    | with_reducible refine wr_same (Sub.trans (by decide) hl) ?_
    | fail_if_no_progress with_reducible refine same_upd ?_ (fun p hp => by cases p <;> first | exact absurd (hl.mem (by decide)) hp | exact rfl | exact ⟨rfl, rfl⟩ | exact ⟨rfl, rfl, rfl, rfl⟩)
    | split
    | dsimp +zetaDelta only

theorem execAlignment_same {σ : State} {π : List Part} {i : Nat} {reversed : Bool} {s : State} (hl : Sub [.win, .link, .ports, .ocl, .pair, .mgmt, .free] π) (h_s : Same π σ s) :
    ∃ τ, execAlignment i reversed s = .next τ ∧ Same π σ τ := by
  refine ⟨_, rfl, ?_⟩
  repeat' first
    | with_reducible assumption
    | intro _
    | with_reducible refine alignment_same (Sub.trans (by decide) hl) ?_

theorem becomeActive_same {σ : State} {π : List Part} {i : Nat} {p : Params} {s : State} (hl : Sub [.win, .link, .ports, .ocl] π) (h_s : Same π σ s) :
    Same π σ (becomeActive i p s) := by
  unfold becomeActive
  repeat' first
    | with_reducible assumption
    | intro _
    | with_reducible refine setLinkSt_same (Sub.trans (by decide) hl) ?_
    | with_reducible refine modLink_same (Sub.trans (by decide) hl) ?_
    | fail_if_no_progress with_reducible refine same_upd ?_ (fun p hp => by cases p <;> first | exact absurd (hl.mem (by decide)) hp | exact rfl | exact ⟨rfl, rfl⟩ | exact ⟨rfl, rfl, rfl, rfl⟩)

theorem paramsRow_same {σ : State} {π : List Part} {i : Nat} {p : Params} {t : Nat} {s0 : State} (hl : Sub [.win, .stackMem, .budget, .kv, .svc, .ledger, .link, .ports, .ocl, .pair, .boot, .mgmt, .now, .free] π) (h_s0 : Same π σ s0) :
    Same π σ (paramsRow i p t s0) := by
  unfold paramsRow
  repeat' first
    | with_reducible assumption
    | intro _
    | extract_lets
    | with_reducible refine same_ite ?_ ?_
    | with_reducible refine atTime_same (Sub.trans (by decide) hl) ?_
    | with_reducible refine goDown_same (Sub.trans (by decide) hl) ?_
    | with_reducible refine resume_same (Sub.trans (by decide) hl) ?_
    | with_reducible refine becomeActive_same (Sub.trans (by decide) hl) ?_
    | with_reducible refine raise_same (Sub.trans (by decide) hl) ?_
    | with_reducible refine meetPartner_same (Sub.trans (by decide) hl) ?_
    | with_reducible refine resendSpan_same (Sub.trans (by decide) hl) ?_
    | fail_if_no_progress with_reducible refine same_upd ?_ (fun p hp => by cases p <;> first | exact absurd (hl.mem (by decide)) hp | exact rfl | exact ⟨rfl, rfl⟩ | exact ⟨rfl, rfl, rfl, rfl⟩)
    | split

theorem execParams_same {σ : State} {π : List Part} {i : Nat} {p : Params} {t : Nat} {s : State} (hl : Sub [.win, .stackMem, .budget, .kv, .svc, .ledger, .link, .ports, .ocl, .pair, .boot, .mgmt, .now, .free] π) (h_s : Same π σ s) :
    ∃ τ, execParams i p t s = .next τ ∧ Same π σ τ := by
  refine ⟨_, rfl, ?_⟩
  repeat' first
    | with_reducible assumption
    | intro _
    | with_reducible refine paramsRow_same (Sub.trans (by decide) hl) ?_

theorem enterRetrain_same {σ : State} {π : List Part} {i : Nat} {t : Nat} {s : State} (hl : Sub [.win, .link, .ports, .ocl] π) (h_s : Same π σ s) :
    Same π σ (enterRetrain i t s) := by
  unfold enterRetrain
  repeat' first
    | with_reducible assumption
    | intro _
    | extract_lets
    | with_reducible refine modLink_same (Sub.trans (by decide) hl) ?_
    | with_reducible refine raise_same (Sub.trans (by decide) hl) ?_
    | with_reducible refine bump_same (Sub.trans (by decide) hl) ?_
    | with_reducible refine setLinkSt_same (Sub.trans (by decide) hl) ?_
    | with_reducible refine sendCtl_same (Sub.trans (by decide) hl) ?_
    | fail_if_no_progress with_reducible refine same_upd ?_ (fun p hp => by cases p <;> first | exact absurd (hl.mem (by decide)) hp | exact rfl | exact ⟨rfl, rfl⟩ | exact ⟨rfl, rfl, rfl, rfl⟩)

theorem retrainComplete_same {σ : State} {π : List Part} {i : Nat} {ok : Bool} {t : Nat} {s0 : State} (hl : Sub [.win, .budget, .svc, .link, .ports, .ocl, .pair, .now, .free] π) (h_s0 : Same π σ s0) :
    Same π σ (retrainComplete i ok t s0) := by
  unfold retrainComplete
  repeat' first
    | with_reducible assumption
    | intro _
    | extract_lets
    | with_reducible refine same_ite ?_ ?_
    | with_reducible refine atTime_same (Sub.trans (by decide) hl) ?_
    | with_reducible refine resume_same (Sub.trans (by decide) hl) ?_
    | with_reducible refine setLinkSt_same (Sub.trans (by decide) hl) ?_
    | with_reducible refine modLink_same (Sub.trans (by decide) hl) ?_
    | with_reducible refine seedLanes_same (Sub.trans (by decide) hl) 
    | with_reducible refine enterRetrain_same (Sub.trans (by decide) hl) ?_
    | fail_if_no_progress with_reducible refine same_upd ?_ (fun p hp => by cases p <;> first | exact absurd (hl.mem (by decide)) hp | exact rfl | exact ⟨rfl, rfl⟩ | exact ⟨rfl, rfl, rfl, rfl⟩)
    | split

theorem execRetrainComplete_same {σ : State} {π : List Part} {i : Nat} {ok : Bool} {t : Nat} {s : State} (hl : Sub [.win, .budget, .svc, .link, .ports, .ocl, .pair, .now, .free] π) (h_s : Same π σ s) :
    ∃ τ, execRetrainComplete i ok t s = .next τ ∧ Same π σ τ := by
  refine ⟨_, rfl, ?_⟩
  repeat' first
    | with_reducible assumption
    | intro _
    | with_reducible refine retrainComplete_same (Sub.trans (by decide) hl) ?_

theorem linkDown_same {σ : State} {π : List Part} {i : Nat} {t : Nat} {s0 : State} (hl : Sub [.win, .link, .ports, .ocl, .pair, .mgmt, .now, .free] π) (h_s0 : Same π σ s0) :
    Same π σ (linkDown i t s0) := by
  unfold linkDown
  repeat' first
    | with_reducible assumption
    | intro _
    | extract_lets
    | with_reducible refine same_ite ?_ ?_
    | with_reducible refine atTime_same (Sub.trans (by decide) hl) ?_
    | with_reducible refine goDown_same (Sub.trans (by decide) hl) ?_
    | split

theorem execLinkDown_same {σ : State} {π : List Part} {i : Nat} {t : Nat} {s : State} (hl : Sub [.win, .link, .ports, .ocl, .pair, .mgmt, .now, .free] π) (h_s : Same π σ s) :
    ∃ τ, execLinkDown i t s = .next τ ∧ Same π σ τ := by
  refine ⟨_, rfl, ?_⟩
  repeat' first
    | with_reducible assumption
    | intro _
    | with_reducible refine linkDown_same (Sub.trans (by decide) hl) ?_

theorem linkRetry_same {σ : State} {π : List Part} {i : Nat} {t : Nat} {s0 : State} (hl : Sub [.win, .link, .ports, .ocl, .now] π) (h_s0 : Same π σ s0) :
    Same π σ (linkRetry i t s0) := by
  unfold linkRetry
  repeat' first
    | with_reducible assumption
    | intro _
    | extract_lets
    | with_reducible refine same_ite ?_ ?_
    | with_reducible refine atTime_same (Sub.trans (by decide) hl) ?_
    | with_reducible refine setLinkSt_same (Sub.trans (by decide) hl) ?_
    | split

theorem execLinkRetry_same {σ : State} {π : List Part} {i : Nat} {t : Nat} {s : State} (hl : Sub [.win, .link, .ports, .ocl, .now] π) (h_s : Same π σ s) :
    ∃ τ, execLinkRetry i t s = .next τ ∧ Same π σ τ := by
  refine ⟨_, rfl, ?_⟩
  repeat' first
    | with_reducible assumption
    | intro _
    | with_reducible refine linkRetry_same (Sub.trans (by decide) hl) ?_

theorem oclCtrlRetrain_same {σ : State} {π : List Part} {t : Nat} {s0 : State} (hl : Sub [.win, .link, .ports, .ocl, .now] π) (h_s0 : Same π σ s0) :
    Same π σ (oclCtrlRetrain t s0) := by
  unfold oclCtrlRetrain
  repeat' first
    | with_reducible assumption
    | intro _
    | extract_lets
    | with_reducible refine same_ite ?_ ?_
    | with_reducible refine atTime_same (Sub.trans (by decide) hl) ?_
    | with_reducible refine enterRetrain_same (Sub.trans (by decide) hl) ?_
    | split

theorem execOclCtrlRetrain_same {σ : State} {π : List Part} {t : Nat} {s : State} (hl : Sub [.win, .link, .ports, .ocl, .now] π) (h_s : Same π σ s) :
    ∃ τ, execOclCtrlRetrain t s = .next τ ∧ Same π σ τ := by
  refine ⟨_, rfl, ?_⟩
  repeat' first
    | with_reducible assumption
    | intro _
    | with_reducible refine oclCtrlRetrain_same (Sub.trans (by decide) hl) ?_

theorem portClear_same {σ : State} {π : List Part} {i : Nat} {s : State} (hl : Sub [.pair] π) (h_s : Same π σ s) :
    Same π σ (portClear i s) := by
  unfold portClear
  repeat' first
    | with_reducible assumption
    | intro _
    | extract_lets
    | with_reducible refine same_ite ?_ ?_
    | fail_if_no_progress with_reducible refine same_upd ?_ (fun p hp => by cases p <;> first | exact absurd (hl.mem (by decide)) hp | exact rfl | exact ⟨rfl, rfl⟩ | exact ⟨rfl, rfl, rfl, rfl⟩)
    | split

theorem takeAck_same {σ : State} {π : List Part} {i : Nat} {f : RxFlit} {s : State} (hl : Sub [.win, .svc, .ledger, .link, .ports, .ocl, .pair] π) (h_s : Same π σ s) :
    Same π σ (takeAck i f s) := by
  unfold takeAck
  repeat' first
    | with_reducible assumption
    | intro _
    | extract_lets
    | with_reducible refine same_ite ?_ ?_
    | with_reducible refine modLink_same (Sub.trans (by decide) hl) ?_
    | with_reducible refine portClear_same (Sub.trans (by decide) hl) ?_
    | with_reducible refine pump_same (Sub.trans (by decide) hl) ?_
    | with_reducible refine forEach_same ?_ ?_
    | with_reducible refine deliver_same (Sub.trans (by decide) hl) ?_
    | fail_if_no_progress with_reducible refine same_upd ?_ (fun p hp => by cases p <;> first | exact absurd (hl.mem (by decide)) hp | exact rfl | exact ⟨rfl, rfl⟩ | exact ⟨rfl, rfl, rfl, rfl⟩)
    | split

theorem replayFlits_same {σ : State} {π : List Part} {i : Nat} {t : Nat} {s : State} (hl : Sub [.win, .link, .ports, .ocl] π) (h_s : Same π σ s) :
    Same π σ (replayFlits i t s) := by
  unfold replayFlits
  repeat' first
    | with_reducible assumption
    | intro _
    | extract_lets
    | with_reducible refine same_ite ?_ ?_
    | with_reducible refine bump_same (Sub.trans (by decide) hl) ?_
    | with_reducible refine setLink_same (Sub.trans (by decide) hl) ?_
    | with_reducible refine forEach_same ?_ ?_
    | with_reducible refine emit_same (Sub.trans (by decide) hl) ?_
    | with_reducible refine enterRetrain_same (Sub.trans (by decide) hl) ?_
    | fail_if_no_progress with_reducible refine same_upd ?_ (fun p hp => by cases p <;> first | exact absurd (hl.mem (by decide)) hp | exact rfl | exact ⟨rfl, rfl⟩ | exact ⟨rfl, rfl, rfl, rfl⟩)
    | split
    | dsimp +zetaDelta only

theorem ackTimeout_same {σ : State} {π : List Part} {i : Nat} {t : Nat} {s0 : State} (hl : Sub [.win, .link, .ports, .ocl, .now] π) (h_s0 : Same π σ s0) :
    Same π σ (ackTimeout i t s0) := by
  unfold ackTimeout
  repeat' first
    | with_reducible assumption
    | intro _
    | extract_lets
    | with_reducible refine same_ite ?_ ?_
    | with_reducible refine atTime_same (Sub.trans (by decide) hl) ?_
    | with_reducible refine replayFlits_same (Sub.trans (by decide) hl) ?_
    | with_reducible refine modLink_same (Sub.trans (by decide) hl) ?_
    | with_reducible refine enterRetrain_same (Sub.trans (by decide) hl) ?_
    | fail_if_no_progress with_reducible refine same_upd ?_ (fun p hp => by cases p <;> first | exact absurd (hl.mem (by decide)) hp | exact rfl | exact ⟨rfl, rfl⟩ | exact ⟨rfl, rfl, rfl, rfl⟩)
    | split

theorem execAckTimeout_same {σ : State} {π : List Part} {i : Nat} {t : Nat} {s : State} (hl : Sub [.win, .link, .ports, .ocl, .now] π) (h_s : Same π σ s) :
    ∃ τ, execAckTimeout i t s = .next τ ∧ Same π σ τ := by
  refine ⟨_, rfl, ?_⟩
  repeat' first
    | with_reducible assumption
    | intro _
    | with_reducible refine ackTimeout_same (Sub.trans (by decide) hl) ?_

theorem putNak_same {σ : State} {π : List Part} {i : Nat} {s : State} (hl : Sub [.link, .ports] π) (h_s : Same π σ s) :
    Same π σ (putNak i s) := by
  unfold putNak
  repeat' first
    | with_reducible assumption
    | intro _
    | with_reducible refine sendCtl_same (Sub.trans (by decide) hl) ?_
    | with_reducible refine modLink_same (Sub.trans (by decide) hl) ?_
    | fail_if_no_progress with_reducible refine same_upd ?_ (fun p hp => by cases p <;> first | exact absurd (hl.mem (by decide)) hp | exact rfl | exact ⟨rfl, rfl⟩ | exact ⟨rfl, rfl, rfl, rfl⟩)

theorem sendNak_same {σ : State} {π : List Part} {i : Nat} {s : State} (hl : Sub [.link, .ports] π) (h_s : Same π σ s) :
    Same π σ (sendNak i s) := by
  unfold sendNak
  repeat' first
    | with_reducible assumption
    | intro _
    | with_reducible refine same_ite ?_ ?_
    | with_reducible refine putNak_same (Sub.trans (by decide) hl) ?_
    | split

theorem nakResend_same {σ : State} {π : List Part} {i : Nat} {s : State} (hl : Sub [.link, .ports] π) (h_s : Same π σ s) :
    Same π σ (nakResend i s) := by
  unfold nakResend
  repeat' first
    | with_reducible assumption
    | intro _
    | with_reducible refine same_ite ?_ ?_
    | with_reducible refine putNak_same (Sub.trans (by decide) hl) ?_
    | split

theorem execNakResend_same {σ : State} {π : List Part} {i : Nat} {s : State} (hl : Sub [.link, .ports] π) (h_s : Same π σ s) :
    ∃ τ, execNakResend i s = .next τ ∧ Same π σ τ := by
  refine ⟨_, rfl, ?_⟩
  repeat' first
    | with_reducible assumption
    | intro _
    | with_reducible refine nakResend_same (Sub.trans (by decide) hl) ?_

theorem takeOcl_same {σ : State} {π : List Part} {m : Msg} {s : State} (hl : Sub [.win, .link, .ports, .ocl] π) (h_s : Same π σ s) :
    Same π σ (takeOcl m s) := by
  unfold takeOcl
  repeat' first
    | with_reducible assumption
    | intro _
    | extract_lets
    | with_reducible refine same_ite ?_ ?_
    | with_reducible refine discardMsg_same (Sub.trans (by decide) hl) ?_
    | with_reducible refine raiseBoth_same (Sub.trans (by decide) hl) ?_
    | with_reducible refine bump_same (Sub.trans (by decide) hl) ?_
    | with_reducible refine sendCredit_same (Sub.trans (by decide) hl) ?_
    | with_reducible refine sendCpl_same (Sub.trans (by decide) hl) ?_
    | with_reducible refine modLink_same (Sub.trans (by decide) hl) ?_
    | fail_if_no_progress with_reducible refine same_upd ?_ (fun p hp => by cases p <;> first | exact absurd (hl.mem (by decide)) hp | exact rfl | exact ⟨rfl, rfl⟩ | exact ⟨rfl, rfl, rfl, rfl⟩)
    | split
    | dsimp +zetaDelta only

theorem takeSpan_same {σ : State} {π : List Part} {k : Nat} {h : Slot16} {data : List Slot16} {s : State} (hl : Sub [.win, .link, .ports, .ocl, .pair] π) (h_s : Same π σ s) :
    Same π σ (takeSpan k h data s) := by
  unfold takeSpan
  repeat' first
    | with_reducible assumption
    | intro _
    | extract_lets
    | with_reducible refine same_ite ?_ ?_
    | with_reducible refine discardMsg_same (Sub.trans (by decide) hl) ?_
    | with_reducible refine sendOnPort_same (Sub.trans (by decide) hl) ?_
    | fail_if_no_progress with_reducible refine same_upd ?_ (fun p hp => by cases p <;> first | exact absurd (hl.mem (by decide)) hp | exact rfl | exact ⟨rfl, rfl⟩ | exact ⟨rfl, rfl, rfl, rfl⟩)
    | split

theorem parseSlots_same {σ : State} {π : List Part} {i : Nat} {x0 : Nat} {x1 : List Slot16} {x2 : State} (hl : Sub [.win, .link, .ports, .ocl, .pair] π) (h_x2 : Same π σ x2) :
    Same π σ (parseSlots i x0 x1 x2).2 := by
  induction x0 generalizing i x1 x2 with
  | zero => (unfold parseSlots; repeat' first
      | with_reducible assumption
      | intro _
      | extract_lets
      | with_reducible refine same_ite ?_ ?_
      | with_reducible refine takeOcl_same (Sub.trans (by decide) hl) ?_
      | with_reducible refine takeSpan_same (Sub.trans (by decide) hl) ?_
      | with_reducible refine same_snd_ite ?_ ?_
      | split)
  | succ _ ih => (unfold parseSlots; repeat' first
      | with_reducible assumption
      | with_reducible apply ih
      | (injections; subst_vars; with_reducible apply ih)
      | intro _
      | extract_lets
      | with_reducible refine same_ite ?_ ?_
      | with_reducible refine takeOcl_same (Sub.trans (by decide) hl) ?_
      | with_reducible refine takeSpan_same (Sub.trans (by decide) hl) ?_
      | with_reducible refine same_snd_ite ?_ ?_
      | split)

theorem deliverSlots_same {σ : State} {π : List Part} {i : Nat} {slots : List Slot16} {s : State} (hl : Sub [.win, .link, .ports, .ocl, .pair] π) (h_s : Same π σ s) :
    Same π σ (deliverSlots i slots s) := by
  unfold deliverSlots
  repeat' first
    | with_reducible assumption
    | intro _
    | extract_lets
    | with_reducible refine parseSlots_same (Sub.trans (by decide) hl) ?_
    | with_reducible refine modLink_same (Sub.trans (by decide) hl) ?_
    | fail_if_no_progress with_reducible refine same_upd ?_ (fun p hp => by cases p <;> first | exact absurd (hl.mem (by decide)) hp | exact rfl | exact ⟨rfl, rfl⟩ | exact ⟨rfl, rfl, rfl, rfl⟩)

theorem countFlit_same {σ : State} {π : List Part} {i : Nat} {f : RxFlit} {s : State} (hl : Sub [.win, .svc, .ledger, .link, .ports, .ocl, .pair] π) (h_s : Same π σ s) :
    Same π σ (countFlit i f s) := by
  unfold countFlit
  repeat' first
    | with_reducible assumption
    | intro _
    | extract_lets
    | with_reducible refine same_ite ?_ ?_
    | with_reducible refine when_same ?_ ?_
    | with_reducible refine bump_same (Sub.trans (by decide) hl) ?_
    | with_reducible refine takeAck_same (Sub.trans (by decide) hl) ?_
    | split

theorem deliverFlit_same {σ : State} {π : List Part} {i : Nat} {f : RxFlit} {s : State} (hl : Sub [.win, .link, .ports, .ocl, .pair] π) (h_s : Same π σ s) :
    Same π σ (deliverFlit i f s) := by
  unfold deliverFlit
  repeat' first
    | with_reducible assumption
    | intro _
    | extract_lets
    | with_reducible refine same_ite ?_ ?_
    | with_reducible refine deliverSlots_same (Sub.trans (by decide) hl) ?_
    | with_reducible refine modLink_same (Sub.trans (by decide) hl) ?_
    | with_reducible refine sendCtl_same (Sub.trans (by decide) hl) ?_
    | fail_if_no_progress with_reducible refine same_upd ?_ (fun p hp => by cases p <;> first | exact absurd (hl.mem (by decide)) hp | exact rfl | exact ⟨rfl, rfl⟩ | exact ⟨rfl, rfl, rfl, rfl⟩)
    | split

theorem payloadFlit_same {σ : State} {π : List Part} {i : Nat} {raw : BitVec 2048} {t : Nat} {s0 : State} (hl : Sub [.win, .svc, .ledger, .link, .ports, .ocl, .pair, .now] π) (h_s0 : Same π σ s0) :
    Same π σ (payloadFlit i raw t s0) := by
  unfold payloadFlit
  repeat' first
    | with_reducible assumption
    | intro _
    | extract_lets
    | with_reducible refine same_ite ?_ ?_
    | with_reducible refine atTime_same (Sub.trans (by decide) hl) ?_
    | with_reducible refine takeOff_same (Sub.trans (by decide) hl) ?_
    | with_reducible refine countFlit_same (Sub.trans (by decide) hl) ?_
    | with_reducible refine sendNak_same (Sub.trans (by decide) hl) ?_
    | with_reducible refine deliverFlit_same (Sub.trans (by decide) hl) ?_
    | split

theorem execPayloadFlit_same {σ : State} {π : List Part} {i : Nat} {raw : BitVec 2048} {t : Nat} {s : State} (hl : Sub [.win, .svc, .ledger, .link, .ports, .ocl, .pair, .now] π) (h_s : Same π σ s) :
    ∃ τ, execPayloadFlit i raw t s = .next τ ∧ Same π σ τ := by
  refine ⟨_, rfl, ?_⟩
  repeat' first
    | with_reducible assumption
    | intro _
    | with_reducible refine payloadFlit_same (Sub.trans (by decide) hl) ?_

theorem idleFlit_same {σ : State} {π : List Part} {i : Nat} {raw : BitVec 2048} {t : Nat} {s0 : State} (hl : Sub [.win, .svc, .ledger, .link, .ports, .ocl, .pair, .now] π) (h_s0 : Same π σ s0) :
    Same π σ (idleFlit i raw t s0) := by
  unfold idleFlit
  repeat' first
    | with_reducible assumption
    | intro _
    | extract_lets
    | with_reducible refine same_ite ?_ ?_
    | with_reducible refine atTime_same (Sub.trans (by decide) hl) ?_
    | with_reducible refine takeOff_same (Sub.trans (by decide) hl) ?_
    | with_reducible refine countFlit_same (Sub.trans (by decide) hl) ?_
    | with_reducible refine sendNak_same (Sub.trans (by decide) hl) ?_
    | split

theorem execIdleFlit_same {σ : State} {π : List Part} {i : Nat} {raw : BitVec 2048} {t : Nat} {s : State} (hl : Sub [.win, .svc, .ledger, .link, .ports, .ocl, .pair, .now] π) (h_s : Same π σ s) :
    ∃ τ, execIdleFlit i raw t s = .next τ ∧ Same π σ τ := by
  refine ⟨_, rfl, ?_⟩
  repeat' first
    | with_reducible assumption
    | intro _
    | with_reducible refine idleFlit_same (Sub.trans (by decide) hl) ?_

theorem nakFlit_same {σ : State} {π : List Part} {i : Nat} {raw : BitVec 2048} {t : Nat} {s0 : State} (hl : Sub [.win, .svc, .ledger, .link, .ports, .ocl, .pair, .now] π) (h_s0 : Same π σ s0) :
    Same π σ (nakFlit i raw t s0) := by
  unfold nakFlit
  repeat' first
    | with_reducible assumption
    | intro _
    | extract_lets
    | with_reducible refine same_ite ?_ ?_
    | with_reducible refine atTime_same (Sub.trans (by decide) hl) ?_
    | with_reducible refine takeOff_same (Sub.trans (by decide) hl) ?_
    | with_reducible refine countFlit_same (Sub.trans (by decide) hl) ?_
    | with_reducible refine sendNak_same (Sub.trans (by decide) hl) ?_
    | with_reducible refine replayFlits_same (Sub.trans (by decide) hl) ?_
    | split

theorem execNakFlit_same {σ : State} {π : List Part} {i : Nat} {raw : BitVec 2048} {t : Nat} {s : State} (hl : Sub [.win, .svc, .ledger, .link, .ports, .ocl, .pair, .now] π) (h_s : Same π σ s) :
    ∃ τ, execNakFlit i raw t s = .next τ ∧ Same π σ τ := by
  refine ⟨_, rfl, ?_⟩
  repeat' first
    | with_reducible assumption
    | intro _
    | with_reducible refine nakFlit_same (Sub.trans (by decide) hl) ?_

theorem retrainFlit_same {σ : State} {π : List Part} {i : Nat} {raw : BitVec 2048} {t : Nat} {s0 : State} (hl : Sub [.win, .svc, .ledger, .link, .ports, .ocl, .pair, .now] π) (h_s0 : Same π σ s0) :
    Same π σ (retrainFlit i raw t s0) := by
  unfold retrainFlit
  repeat' first
    | with_reducible assumption
    | intro _
    | extract_lets
    | with_reducible refine same_ite ?_ ?_
    | with_reducible refine atTime_same (Sub.trans (by decide) hl) ?_
    | with_reducible refine takeOff_same (Sub.trans (by decide) hl) ?_
    | with_reducible refine countFlit_same (Sub.trans (by decide) hl) ?_
    | with_reducible refine sendNak_same (Sub.trans (by decide) hl) ?_
    | with_reducible refine enterRetrain_same (Sub.trans (by decide) hl) ?_
    | split

theorem execRetrainFlit_same {σ : State} {π : List Part} {i : Nat} {raw : BitVec 2048} {t : Nat} {s : State} (hl : Sub [.win, .svc, .ledger, .link, .ports, .ocl, .pair, .now] π) (h_s : Same π σ s) :
    ∃ τ, execRetrainFlit i raw t s = .next τ ∧ Same π σ τ := by
  refine ⟨_, rfl, ?_⟩
  repeat' first
    | with_reducible assumption
    | intro _
    | with_reducible refine retrainFlit_same (Sub.trans (by decide) hl) ?_

end Sys2Proof.Machine
end

