-- ==== Sys2Proof/Laws/FrameFault.lean ====
section
/-!
SUPPORT. The parts that may change, for every function of Machine/Fault.lean that changes the state.
-/
set_option Elab.async false
namespace Sys2Proof.Machine
open Sys2Proof

theorem addDefect_same {σ : State} {π : List Part} {pos : Nat} {router : Bool} {s : State} (hl : Sub [.mesh] π) (h_s : Same π σ s) :
    Same π σ (addDefect pos router s) := by
  unfold addDefect
  repeat' first
    | with_reducible assumption
    | intro _
    | extract_lets
    | with_reducible refine same_ite ?_ ?_
    | fail_if_no_progress with_reducible refine same_upd ?_ (fun p hp => by cases p <;> first | exact absurd (hl.mem (by decide)) hp | exact rfl | exact ⟨rfl, rfl⟩ | exact ⟨rfl, rfl, rfl, rfl⟩)
    | split

theorem declareDefect_same {σ : State} {π : List Part} {pos : Nat} {router : Bool} {s : State} (hl : Sub [.win, .cells, .stackMem, .mesh, .sched, .kv, .svc, .ledger, .link, .ports, .ocl, .faults, .power, .boot, .mgmt] π) (h_s : Same π σ s) :
    Same π σ (declareDefect pos router s).2 := by
  unfold declareDefect
  repeat' first
    | with_reducible assumption
    | intro _
    | extract_lets
    | with_reducible refine same_ite ?_ ?_
    | with_reducible refine addDefect_same (Sub.trans (by decide) hl) ?_
    | with_reducible refine journal_same (Sub.trans (by decide) hl) ?_
    | with_reducible refine when_same ?_ ?_
    | with_reducible refine raise_same (Sub.trans (by decide) hl) ?_
    | with_reducible refine bump_same (Sub.trans (by decide) hl) ?_
    | with_reducible refine fatal_same (Sub.trans (by decide) hl) ?_
    | fail_if_no_progress with_reducible refine same_upd ?_ (fun p hp => by cases p <;> first | exact absurd (hl.mem (by decide)) hp | exact rfl | exact ⟨rfl, rfl⟩ | exact ⟨rfl, rfl, rfl, rfl⟩)
    | with_reducible refine same_snd_ite ?_ ?_
    | split

theorem captureReport_same {σ : State} {π : List Part} {r : Report} {s : State} (hl : Sub [.win, .link, .ports, .ocl] π) (h_s : Same π σ s) :
    Same π σ (captureReport r s) := by
  unfold captureReport
  repeat' first
    | with_reducible assumption
    | intro _
    | extract_lets
    | with_reducible refine same_ite ?_ ?_
    | with_reducible refine bump_same (Sub.trans (by decide) hl) ?_
    | with_reducible refine wr_same (Sub.trans (by decide) hl) ?_
    | with_reducible refine raise_same (Sub.trans (by decide) hl) ?_
    | with_reducible refine wrB_same (Sub.trans (by decide) hl) ?_
    | split

theorem notePast_same {σ : State} {π : List Part} {cause : Nat} {pos : Nat} {s : State} (hl : Sub [.faults] π) (h_s : Same π σ s) :
    Same π σ (notePast cause pos s) := by
  unfold notePast
  repeat' first
    | with_reducible assumption
    | intro _
    | fail_if_no_progress with_reducible refine same_upd ?_ (fun p hp => by cases p <;> first | exact absurd (hl.mem (by decide)) hp | exact rfl | exact ⟨rfl, rfl⟩ | exact ⟨rfl, rfl, rfl, rfl⟩)

theorem taintSteps_same {σ : State} {π : List Part} {ms : List Nat} {r : Report} {s : State} (hl : Sub [.ledger] π) (h_s : Same π σ s) :
    Same π σ (taintSteps ms r s) := by
  unfold taintSteps
  repeat' first
    | with_reducible assumption
    | intro _
    | extract_lets
    | with_reducible refine same_ite ?_ ?_
    | fail_if_no_progress with_reducible refine same_upd ?_ (fun p hp => by cases p <;> first | exact absurd (hl.mem (by decide)) hp | exact rfl | exact ⟨rfl, rfl⟩ | exact ⟨rfl, rfl, rfl, rfl⟩)
    | split

theorem joinJob_same {σ : State} {π : List Part} {cells : List Nat} {fields : List Nat} {s : State} (hl : Sub [.win, .faults] π) (h_s : Same π σ s) :
    Same π σ (joinJob cells fields s) := by
  unfold joinJob
  repeat' first
    | with_reducible assumption
    | intro _
    | extract_lets
    | with_reducible refine wr_same (Sub.trans (by decide) hl) ?_
    | fail_if_no_progress with_reducible refine same_upd ?_ (fun p hp => by cases p <;> first | exact absurd (hl.mem (by decide)) hp | exact rfl | exact ⟨rfl, rfl⟩ | exact ⟨rfl, rfl, rfl, rfl⟩)

theorem modJob_same {σ : State} {π : List Part} {f : ResetJob → ResetJob} {s : State} (hl : Sub [.faults] π) (h_s : Same π σ s) :
    Same π σ (modJob f s) := by
  unfold modJob
  repeat' first
    | with_reducible assumption
    | intro _
    | fail_if_no_progress with_reducible refine same_upd ?_ (fun p hp => by cases p <;> first | exact absurd (hl.mem (by decide)) hp | exact rfl | exact ⟨rfl, rfl⟩ | exact ⟨rfl, rfl, rfl, rfl⟩)

theorem failService_same {σ : State} {π : List Part} {m : Nat} {s : State} (hl : Sub [.win, .cells, .stackMem, .sched, .kv, .svc, .ledger, .link, .ports, .ocl] π) (h_s : Same π σ s) :
    Same π σ (failService m s) := by
  unfold failService
  repeat' first
    | with_reducible assumption
    | intro _
    | with_reducible refine raise_same (Sub.trans (by decide) hl) ?_
    | with_reducible refine failSlot_same (Sub.trans (by decide) hl) ?_

theorem stopImage_same {σ : State} {π : List Part} {m : Nat} {s : State} (hl : Sub [.win, .stackMem, .sched, .kv, .svc, .ledger, .link, .ports, .ocl] π) (h_s : Same π σ s) :
    Same π σ (stopImage m s) := by
  unfold stopImage
  repeat' first
    | with_reducible assumption
    | intro _
    | extract_lets
    | with_reducible refine same_ite ?_ ?_
    | with_reducible refine forEach_same ?_ ?_
    | with_reducible refine markReplay_same (Sub.trans (by decide) hl) ?_
    | with_reducible refine setImage_same (Sub.trans (by decide) hl) ?_
    | fail_if_no_progress with_reducible refine same_upd ?_ (fun p hp => by cases p <;> first | exact absurd (hl.mem (by decide)) hp | exact rfl | exact ⟨rfl, rfl⟩ | exact ⟨rfl, rfl, rfl, rfl⟩)
    | split

theorem countRestart_same {σ : State} {π : List Part} {m : Nat} {s : State} (hl : Sub [.win, .cells, .stackMem, .sched, .kv, .svc, .ledger, .link, .ports, .ocl] π) (h_s : Same π σ s) :
    Same π σ (countRestart m s) := by
  unfold countRestart
  repeat' first
    | with_reducible assumption
    | intro _
    | extract_lets
    | with_reducible refine same_ite ?_ ?_
    | with_reducible refine modModelSlot_same (Sub.trans (by decide) hl) ?_
    | with_reducible refine failService_same (Sub.trans (by decide) hl) ?_
    | fail_if_no_progress with_reducible refine same_upd ?_ (fun p hp => by cases p <;> first | exact absurd (hl.mem (by decide)) hp | exact rfl | exact ⟨rfl, rfl⟩ | exact ⟨rfl, rfl, rfl, rfl⟩)
    | split

theorem restartImage_same {σ : State} {π : List Part} {counted : Bool} {m : Nat} {s : State} (hl : Sub [.win, .cells, .stackMem, .sched, .kv, .svc, .ledger, .tune, .link, .ports, .ocl, .faults] π) (h_s : Same π σ s) :
    Same π σ (restartImage counted m s) := by
  unfold restartImage
  repeat' first
    | with_reducible assumption
    | intro _
    | extract_lets
    | with_reducible refine same_ite ?_ ?_
    | with_reducible refine holdFw_same (Sub.trans (by decide) hl) ?_
    | with_reducible refine raise_same (Sub.trans (by decide) hl) ?_
    | with_reducible refine bump_same (Sub.trans (by decide) hl) ?_
    | with_reducible refine joinJob_same (Sub.trans (by decide) hl) ?_
    | with_reducible refine tuneFault_same (Sub.trans (by decide) hl) ?_
    | with_reducible refine stopImage_same (Sub.trans (by decide) hl) ?_
    | with_reducible refine modJob_same (Sub.trans (by decide) hl) ?_
    | with_reducible refine when_same ?_ ?_
    | with_reducible refine countRestart_same (Sub.trans (by decide) hl) ?_
    | fail_if_no_progress with_reducible refine same_upd ?_ (fun p hp => by cases p <;> first | exact absurd (hl.mem (by decide)) hp | exact rfl | exact ⟨rfl, rfl⟩ | exact ⟨rfl, rfl, rfl, rfl⟩)
    | split

theorem restartImages_same {σ : State} {π : List Part} {counted : Bool} {ms : List Nat} {s : State} (hl : Sub [.win, .cells, .stackMem, .sched, .kv, .svc, .ledger, .tune, .link, .ports, .ocl, .faults] π) (h_s : Same π σ s) :
    Same π σ (restartImages counted ms s) := by
  unfold restartImages
  repeat' first
    | with_reducible assumption
    | intro _
    | with_reducible refine forEach_same ?_ ?_
    | with_reducible refine restartImage_same (Sub.trans (by decide) hl) ?_

theorem moveCluster_same {σ : State} {π : List Part} {m : Nat} {field : Nat} {row : Nat} {g : Nat} {s : State} (hl : Sub [.win, .cells, .stackMem, .sched, .kv, .svc, .ledger, .link, .ports, .ocl, .faults] π) (h_s : Same π σ s) :
    Same π σ (moveCluster m field row g s) := by
  unfold moveCluster
  repeat' first
    | with_reducible assumption
    | intro _
    | extract_lets
    | with_reducible refine same_ite ?_ ?_
    | with_reducible refine modJob_same (Sub.trans (by decide) hl) ?_
    | with_reducible refine failService_same (Sub.trans (by decide) hl) ?_
    | fail_if_no_progress with_reducible refine same_upd ?_ (fun p hp => by cases p <;> first | exact absurd (hl.mem (by decide)) hp | exact rfl | exact ⟨rfl, rfl⟩ | exact ⟨rfl, rfl, rfl, rfl⟩)
    | split
    | dsimp +zetaDelta only

theorem followMove_same {σ : State} {π : List Part} {mv : Moved} {s : State} (hl : Sub [.win, .cells, .stackMem, .sched, .kv, .svc, .ledger, .tune, .link, .ports, .ocl, .faults] π) (h_s : Same π σ s) :
    Same π σ (followMove mv s) := by
  unfold followMove
  repeat' first
    | with_reducible assumption
    | intro _
    | extract_lets
    | with_reducible refine modJob_same (Sub.trans (by decide) hl) ?_
    | with_reducible refine restartImages_same (Sub.trans (by decide) hl) ?_
    | with_reducible refine forEach_same ?_ ?_
    | with_reducible refine moveCluster_same (Sub.trans (by decide) hl) ?_
    | fail_if_no_progress with_reducible refine same_upd ?_ (fun p hp => by cases p <;> first | exact absurd (hl.mem (by decide)) hp | exact rfl | exact ⟨rfl, rfl⟩ | exact ⟨rfl, rfl, rfl, rfl⟩)
    | split
    | dsimp +zetaDelta only

theorem respondImage_same {σ : State} {π : List Part} {m : Nat} {r : Report} {mv : Moved} {s : State} (hl : Sub [.win, .cells, .stackMem, .sched, .kv, .svc, .ledger, .tune, .link, .ports, .ocl, .faults] π) (h_s : Same π σ s) :
    Same π σ (respondImage m r mv s) := by
  unfold respondImage
  repeat' first
    | with_reducible assumption
    | intro _
    | extract_lets
    | with_reducible refine same_ite ?_ ?_
    | with_reducible refine restartImages_same (Sub.trans (by decide) hl) ?_
    | with_reducible refine taintSteps_same (Sub.trans (by decide) hl) ?_
    | with_reducible refine modJob_same (Sub.trans (by decide) hl) ?_
    | with_reducible refine followMove_same (Sub.trans (by decide) hl) ?_
    | fail_if_no_progress with_reducible refine same_upd ?_ (fun p hp => by cases p <;> first | exact absurd (hl.mem (by decide)) hp | exact rfl | exact ⟨rfl, rfl⟩ | exact ⟨rfl, rfl, rfl, rfl⟩)
    | split

theorem respondCell_same {σ : State} {π : List Part} {c : Nat} {mv : Moved} {s : State} (hl : Sub [.win, .cells, .stackMem, .sched, .kv, .svc, .ledger, .tune, .link, .ports, .ocl, .faults] π) (h_s : Same π σ s) :
    Same π σ (respondCell c mv s) := by
  unfold respondCell
  repeat' first
    | with_reducible assumption
    | intro _
    | with_reducible refine same_ite ?_ ?_
    | with_reducible refine followMove_same (Sub.trans (by decide) hl) ?_
    | with_reducible refine joinJob_same (Sub.trans (by decide) hl) ?_
    | split

theorem respond350_same {σ : State} {π : List Part} {x : Report} {s : State} (hl : Sub [.win, .cells, .stackMem, .mesh, .sched, .kv, .svc, .ledger, .tune, .link, .ports, .ocl, .faults, .power, .boot, .mgmt] π) (h_s : Same π σ s) :
    Same π σ (respond350 x s) := by
  have hr : ∀ pos : Nat, ∀ k : Option Bool, Same π σ (match k with
      | some router => declareDefect pos router (notePast x.cause pos s)
      | none => (Moved.none, notePast x.cause pos s)).2 := by
    intro pos k
    cases k with
    | none => exact notePast_same (Sub.trans (by decide) hl) h_s
    | some b => exact declareDefect_same (Sub.trans (by decide) hl) (notePast_same (Sub.trans (by decide) hl) h_s)
  unfold respond350
  extract_lets cause c info pos k s1 r
  have h1 : Same π σ r.2 := hr pos k
  clear_value r
  refine same_ite (fatal_same (Sub.trans (by decide) hl) h_s) (same_ite (fatal_same (Sub.trans (by decide) hl) h_s) (same_ite h1 ?_))
  split
  · exact respondImage_same (Sub.trans (by decide) hl) h1
  · exact respondCell_same (Sub.trans (by decide) hl) h1

theorem faultReport_same {σ : State} {π : List Part} {cause : Nat} {c : Nat} {s : State} (hl : Sub [.win, .cells, .stackMem, .mesh, .sched, .kv, .svc, .ledger, .tune, .link, .ports, .ocl, .faults, .power, .boot, .mgmt] π) (h_s : Same π σ s) :
    Same π σ (faultReport cause c s) := by
  unfold faultReport
  repeat' first
    | with_reducible assumption
    | intro _
    | extract_lets
    | with_reducible refine same_ite ?_ ?_
    | with_reducible refine captureReport_same (Sub.trans (by decide) hl) ?_
    | with_reducible refine respond350_same (Sub.trans (by decide) hl) ?_
    | fail_if_no_progress with_reducible refine same_upd ?_ (fun p hp => by cases p <;> first | exact absurd (hl.mem (by decide)) hp | exact rfl | exact ⟨rfl, rfl⟩ | exact ⟨rfl, rfl, rfl, rfl⟩)
    | split

theorem execFaultReport_same {σ : State} {π : List Part} {cause : Nat} {c : Nat} {s : State} (hl : Sub [.win, .cells, .stackMem, .mesh, .sched, .kv, .svc, .ledger, .tune, .link, .ports, .ocl, .faults, .power, .boot, .mgmt] π) (h_s : Same π σ s) :
    ∃ τ, execFaultReport cause c s = .next τ ∧ Same π σ τ := by
  refine ⟨_, rfl, ?_⟩
  repeat' first
    | with_reducible assumption
    | intro _
    | with_reducible refine faultReport_same (Sub.trans (by decide) hl) ?_

theorem requestReset_same {σ : State} {π : List Part} {scope : Nat} {c : Nat} {cells : List Nat} {fields : List Nat} {s0 : State} (hl : Sub [.win, .cells, .stackMem, .sched, .kv, .svc, .ledger, .tune, .link, .ports, .ocl, .faults] π) (h_s0 : Same π σ s0) :
    Same π σ (requestReset scope c cells fields s0) := by
  unfold requestReset
  repeat' first
    | with_reducible assumption
    | intro _
    | extract_lets
    | with_reducible refine same_ite ?_ ?_
    | with_reducible refine wr_same (Sub.trans (by decide) hl) ?_
    | with_reducible refine raise_same (Sub.trans (by decide) hl) ?_
    | with_reducible refine joinJob_same (Sub.trans (by decide) hl) ?_
    | with_reducible refine restartImages_same (Sub.trans (by decide) hl) ?_
    | split

theorem execCellReset_same {σ : State} {π : List Part} {c : Nat} {s : State} (hl : Sub [.win, .cells, .stackMem, .sched, .kv, .svc, .ledger, .tune, .link, .ports, .ocl, .faults] π) (h_s : Same π σ s) :
    ∃ τ, execCellReset c s = .next τ ∧ Same π σ τ := by
  refine ⟨_, rfl, ?_⟩
  repeat' first
    | with_reducible assumption
    | intro _
    | with_reducible refine requestReset_same (Sub.trans (by decide) hl) ?_

theorem execClusterReset_same {σ : State} {π : List Part} {c : Nat} {s : State} (hl : Sub [.win, .cells, .stackMem, .sched, .kv, .svc, .ledger, .tune, .link, .ports, .ocl, .faults] π) (h_s : Same π σ s) :
    ∃ τ, execClusterReset c s = .next τ ∧ Same π σ τ := by
  refine ⟨_, rfl, ?_⟩
  repeat' first
    | with_reducible assumption
    | intro _
    | with_reducible refine requestReset_same (Sub.trans (by decide) hl) ?_

theorem execPartitionReset_same {σ : State} {π : List Part} {c : Nat} {s : State} (hl : Sub [.win, .cells, .stackMem, .sched, .kv, .svc, .ledger, .tune, .link, .ports, .ocl, .faults] π) (h_s : Same π σ s) :
    ∃ τ, execPartitionReset c s = .next τ ∧ Same π σ τ := by
  refine ⟨_, rfl, ?_⟩
  repeat' first
    | with_reducible assumption
    | intro _
    | with_reducible refine requestReset_same (Sub.trans (by decide) hl) ?_

theorem resetCell_same {σ : State} {π : List Part} {c : Nat} {s : State} (hl : Sub [.cells, .counters, .accs] π) (h_s : Same π σ s) :
    Same π σ (resetCell c s) := by
  unfold resetCell
  repeat' first
    | with_reducible assumption
    | intro _
    | extract_lets
    | with_reducible refine modCell_same (Sub.trans (by decide) hl) ?_
    | fail_if_no_progress with_reducible refine same_upd ?_ (fun p hp => by cases p <;> first | exact absurd (hl.mem (by decide)) hp | exact rfl | exact ⟨rfl, rfl⟩ | exact ⟨rfl, rfl, rfl, rfl⟩)

theorem resetWords_same {σ : State} {π : List Part} {s : State} (hl : Sub [.win, .cells, .counters, .accs, .svc, .link, .ports, .ocl] π) (h_s : Same π σ s) :
    Same π σ (resetWords s) := by
  unfold resetWords
  repeat' first
    | with_reducible assumption
    | intro _
    | with_reducible refine forEach_same ?_ ?_
    | with_reducible refine modCell_same (Sub.trans (by decide) hl) ?_
    | with_reducible refine drain_same (Sub.trans (by decide) hl) ?_
    | with_reducible refine resetCell_same (Sub.trans (by decide) hl) ?_
    | fail_if_no_progress with_reducible refine same_upd ?_ (fun p hp => by cases p <;> first | exact absurd (hl.mem (by decide)) hp | exact rfl | exact ⟨rfl, rfl⟩ | exact ⟨rfl, rfl, rfl, rfl⟩)
    | split

theorem execReset_same {σ : State} {π : List Part} {s : State} (hl : Sub [.win, .cells, .counters, .accs, .svc, .link, .ports, .ocl] π) (h_s : Same π σ s) :
    ∃ τ, execReset s = .next τ ∧ Same π σ τ := by
  refine ⟨_, rfl, ?_⟩
  repeat' first
    | with_reducible assumption
    | intro _
    | with_reducible refine resetWords_same (Sub.trans (by decide) hl) ?_

theorem enterPhase_same {σ : State} {π : List Part} {n : Nat} {s : State} (hl : Sub [.win, .faults] π) (h_s : Same π σ s) :
    Same π σ (enterPhase n s) := by
  unfold enterPhase
  repeat' first
    | with_reducible assumption
    | intro _
    | with_reducible refine wr_same (Sub.trans (by decide) hl) ?_
    | with_reducible refine modJob_same (Sub.trans (by decide) hl) ?_
    | fail_if_no_progress with_reducible refine same_upd ?_ (fun p hp => by cases p <;> first | exact absurd (hl.mem (by decide)) hp | exact rfl | exact ⟨rfl, rfl⟩ | exact ⟨rfl, rfl, rfl, rfl⟩)

theorem drainDone_same {σ : State} {π : List Part} {s : State} (hl : Sub [.win, .svc, .link, .ports, .ocl, .faults] π) (h_s : Same π σ s) :
    Same π σ (drainDone s) := by
  unfold drainDone
  repeat' first
    | with_reducible assumption
    | intro _
    | with_reducible refine same_ite ?_ ?_
    | with_reducible refine drain_same (Sub.trans (by decide) hl) ?_
    | with_reducible refine enterPhase_same (Sub.trans (by decide) hl) ?_
    | fail_if_no_progress with_reducible refine same_upd ?_ (fun p hp => by cases p <;> first | exact absurd (hl.mem (by decide)) hp | exact rfl | exact ⟨rfl, rfl⟩ | exact ⟨rfl, rfl, rfl, rfl⟩)
    | split

theorem execDrainDone_same {σ : State} {π : List Part} {s : State} (hl : Sub [.win, .svc, .link, .ports, .ocl, .faults] π) (h_s : Same π σ s) :
    ∃ τ, execDrainDone s = .next τ ∧ Same π σ τ := by
  refine ⟨_, rfl, ?_⟩
  repeat' first
    | with_reducible assumption
    | intro _
    | with_reducible refine drainDone_same (Sub.trans (by decide) hl) ?_

theorem zeroStores_same {σ : State} {π : List Part} {c : Nat} {s : State} (hl : Sub [.kv] π) (h_s : Same π σ s) :
    Same π σ (zeroStores c s) := by
  unfold zeroStores
  repeat' first
    | with_reducible assumption
    | intro _
    | with_reducible refine same_ite ?_ ?_
    | fail_if_no_progress with_reducible refine same_upd ?_ (fun p hp => by cases p <;> first | exact absurd (hl.mem (by decide)) hp | exact rfl | exact ⟨rfl, rfl⟩ | exact ⟨rfl, rfl, rfl, rfl⟩)
    | split

theorem restoreKv_same {σ : State} {π : List Part} {m : Nat} {c : Nat} {s0 : State} (hl : Sub [.win, .cells, .cellMem, .mesh, .kv, .svc, .link, .ports, .ocl] π) (h_s0 : Same π σ s0) :
    Same π σ (restoreKv m c s0) := by
  unfold restoreKv
  repeat' first
    | with_reducible assumption
    | intro _
    | extract_lets
    | with_reducible refine same_ite ?_ ?_
    | with_reducible refine zeroStores_same (Sub.trans (by decide) hl) ?_
    | with_reducible refine forEach_same ?_ ?_
    | with_reducible refine putGranule_same (Sub.trans (by decide) hl) ?_
    | with_reducible refine fill_same (Sub.trans (by decide) hl) ?_
    | with_reducible refine when_same ?_ ?_
    | with_reducible refine raise_same (Sub.trans (by decide) hl) ?_
    | fail_if_no_progress with_reducible refine same_upd ?_ (fun p hp => by cases p <;> first | exact absurd (hl.mem (by decide)) hp | exact rfl | exact ⟨rfl, rfl⟩ | exact ⟨rfl, rfl, rfl, rfl⟩)
    | split

theorem rewriteModel_same {σ : State} {π : List Part} {w : Rewrite} {s : State} (hl : Sub [.win, .cells, .counters, .cellMem, .stackMem, .mesh, .sched, .budget, .kv, .svc, .ledger, .tune, .link, .ports, .ocl, .agent] π) (h_s : Same π σ s) :
    Same π σ (rewriteModel w s) := by
  unfold rewriteModel
  repeat' first
    | with_reducible assumption
    | intro _
    | extract_lets
    | with_reducible refine same_ite ?_ ?_
    | with_reducible refine failService_same (Sub.trans (by decide) hl) ?_
    | with_reducible refine tuneFail_same (Sub.trans (by decide) hl) ?_
    | with_reducible refine placeAll_same (Sub.trans (by decide) hl) ?_
    | with_reducible refine forEach_same ?_ ?_
    | with_reducible refine restoreKv_same (Sub.trans (by decide) hl) ?_
    | split

theorem installVariant_same {σ : State} {π : List Part} {w : Rewrite} {i : Nat} {s : State} (hl : Sub [.win, .cells, .cellMem, .stackMem, .mesh, .sched, .budget, .kv, .svc, .ledger, .link, .ports, .ocl] π) (h_s : Same π σ s) :
    Same π σ (installVariant w i s) := by
  unfold installVariant
  repeat' first
    | with_reducible assumption
    | intro _
    | extract_lets
    | with_reducible refine same_ite ?_ ?_
    | with_reducible refine chargeLoad_same (Sub.trans (by decide) hl) ?_
    | with_reducible refine loadGranule_same (Sub.trans (by decide) hl) ?_
    | with_reducible refine forEach_same ?_ ?_
    | with_reducible refine zeroCell_same (Sub.trans (by decide) hl) ?_
    | with_reducible refine modImage_same (Sub.trans (by decide) hl) ?_
    | with_reducible refine raise_same (Sub.trans (by decide) hl) ?_
    | with_reducible refine bump_same (Sub.trans (by decide) hl) ?_
    | with_reducible refine failService_same (Sub.trans (by decide) hl) ?_
    | fail_if_no_progress with_reducible refine same_upd ?_ (fun p hp => by cases p <;> first | exact absurd (hl.mem (by decide)) hp | exact rfl | exact ⟨rfl, rfl⟩ | exact ⟨rfl, rfl, rfl, rfl⟩)
    | with_reducible refine foldl_same ?_ ?_
    | split
    | dsimp +zetaDelta only

theorem relocDone_same {σ : State} {π : List Part} {s : State} (hl : Sub [.win, .link, .ports, .ocl, .power] π) (h_s : Same π σ s) :
    Same π σ (relocDone s) := by
  unfold relocDone
  repeat' first
    | with_reducible assumption
    | intro _
    | with_reducible refine when_same ?_ ?_
    | with_reducible refine raise_same (Sub.trans (by decide) hl) ?_
    | fail_if_no_progress with_reducible refine same_upd ?_ (fun p hp => by cases p <;> first | exact absurd (hl.mem (by decide)) hp | exact rfl | exact ⟨rfl, rfl⟩ | exact ⟨rfl, rfl, rfl, rfl⟩)
    | split

theorem modWork_same {σ : State} {π : List Part} {m : Nat} {v : Option Nat} {f : Rewrite → Rewrite} {s : State} (hl : Sub [.faults] π) (h_s : Same π σ s) :
    Same π σ (modWork m v f s) := by
  unfold modWork
  repeat' first
    | with_reducible assumption
    | intro _
    | with_reducible refine same_ite ?_ ?_
    | with_reducible refine modJob_same (Sub.trans (by decide) hl) ?_
    | fail_if_no_progress with_reducible refine same_upd ?_ (fun p hp => by cases p <;> first | exact absurd (hl.mem (by decide)) hp | exact rfl | exact ⟨rfl, rfl⟩ | exact ⟨rfl, rfl, rfl, rfl⟩)
    | split

theorem installWork_same {σ : State} {π : List Part} {w : Rewrite} {s : State} (hl : Sub [.win, .cells, .cellMem, .stackMem, .mesh, .sched, .budget, .kv, .svc, .ledger, .link, .ports, .ocl] π) (h_s : Same π σ s) :
    Same π σ (installWork w s) := by
  unfold installWork
  repeat' first
    | with_reducible assumption
    | intro _
    | with_reducible refine installVariant_same (Sub.trans (by decide) hl) ?_
    | fail_if_no_progress with_reducible refine same_upd ?_ (fun p hp => by cases p <;> first | exact absurd (hl.mem (by decide)) hp | exact rfl | exact ⟨rfl, rfl⟩ | exact ⟨rfl, rfl, rfl, rfl⟩)
    | split

theorem endAbsorb_same {σ : State} {π : List Part} {j : ResetJob} {s : State} (hl : Sub [.win, .cells, .counters, .cellMem, .stackMem, .mesh, .sched, .budget, .kv, .svc, .ledger, .tune, .link, .ports, .ocl, .faults, .power, .agent] π) (h_s : Same π σ s) :
    Same π σ (endAbsorb j s) := by
  unfold endAbsorb
  repeat' first
    | with_reducible assumption
    | intro _
    | extract_lets
    | with_reducible refine forEach_same ?_ ?_
    | with_reducible refine rewriteModel_same (Sub.trans (by decide) hl) ?_
    | with_reducible refine installWork_same (Sub.trans (by decide) hl) ?_
    | with_reducible refine enterPhase_same (Sub.trans (by decide) hl) ?_
    | with_reducible refine relocDone_same (Sub.trans (by decide) hl) ?_
    | with_reducible refine modJob_same (Sub.trans (by decide) hl) ?_
    | fail_if_no_progress with_reducible refine same_upd ?_ (fun p hp => by cases p <;> first | exact absurd (hl.mem (by decide)) hp | exact rfl | exact ⟨rfl, rfl⟩ | exact ⟨rfl, rfl, rfl, rfl⟩)

theorem startWork_same {σ : State} {π : List Part} {w : Rewrite} {s : State} (hl : Sub [.win, .link, .ports, .ocl, .faults] π) (h_s : Same π σ s) :
    Same π σ (startWork w s) := by
  unfold startWork
  repeat' first
    | with_reducible assumption
    | intro _
    | extract_lets
    | with_reducible refine same_ite ?_ ?_
    | with_reducible refine startFetch_same (Sub.trans (by decide) hl) ?_
    | with_reducible refine modWork_same (Sub.trans (by decide) hl) ?_
    | fail_if_no_progress with_reducible refine same_upd ?_ (fun p hp => by cases p <;> first | exact absurd (hl.mem (by decide)) hp | exact rfl | exact ⟨rfl, rfl⟩ | exact ⟨rfl, rfl, rfl, rfl⟩)
    | split
    | dsimp +zetaDelta only

theorem beginWork_same {σ : State} {π : List Part} {s : State} (hl : Sub [.win, .link, .ports, .ocl, .faults] π) (h_s : Same π σ s) :
    Same π σ (beginWork s) := by
  unfold beginWork
  repeat' first
    | with_reducible assumption
    | intro _
    | extract_lets
    | with_reducible refine forEach_same ?_ ?_
    | with_reducible refine startWork_same (Sub.trans (by decide) hl) ?_
    | with_reducible refine modJob_same (Sub.trans (by decide) hl) ?_
    | fail_if_no_progress with_reducible refine same_upd ?_ (fun p hp => by cases p <;> first | exact absurd (hl.mem (by decide)) hp | exact rfl | exact ⟨rfl, rfl⟩ | exact ⟨rfl, rfl, rfl, rfl⟩)
    | split
    | dsimp +zetaDelta only

theorem stepWork_same {σ : State} {π : List Part} {s : State} (hl : Sub [.win, .cells, .counters, .cellMem, .stackMem, .mesh, .sched, .budget, .kv, .svc, .ledger, .tune, .link, .ports, .ocl, .faults, .power, .agent] π) (h_s : Same π σ s) :
    Same π σ (stepWork s) := by
  unfold stepWork
  repeat' first
    | with_reducible assumption
    | intro _
    | with_reducible refine same_ite ?_ ?_
    | with_reducible refine endAbsorb_same (Sub.trans (by decide) hl) ?_
    | with_reducible refine beginWork_same (Sub.trans (by decide) hl) ?_
    | fail_if_no_progress with_reducible refine same_upd ?_ (fun p hp => by cases p <;> first | exact absurd (hl.mem (by decide)) hp | exact rfl | exact ⟨rfl, rfl⟩ | exact ⟨rfl, rfl, rfl, rfl⟩)
    | split

theorem nextWork_same {σ : State} {π : List Part} {w : Rewrite} {s : State} (hl : Sub [.win, .cells, .counters, .cellMem, .stackMem, .mesh, .sched, .budget, .kv, .svc, .ledger, .tune, .link, .ports, .ocl, .faults, .power, .agent] π) (h_s : Same π σ s) :
    Same π σ (nextWork w s) := by
  unfold nextWork
  repeat' first
    | with_reducible assumption
    | intro _
    | with_reducible refine stepWork_same (Sub.trans (by decide) hl) ?_
    | with_reducible refine modWork_same (Sub.trans (by decide) hl) ?_
    | with_reducible refine startFetch_same (Sub.trans (by decide) hl) ?_
    | fail_if_no_progress with_reducible refine same_upd ?_ (fun p hp => by cases p <;> first | exact absurd (hl.mem (by decide)) hp | exact rfl | exact ⟨rfl, rfl⟩ | exact ⟨rfl, rfl, rfl, rfl⟩)
    | split

theorem goOnWork_same {σ : State} {π : List Part} {w : Rewrite} {s : State} (hl : Sub [.win, .cells, .counters, .cellMem, .stackMem, .mesh, .sched, .budget, .kv, .svc, .ledger, .tune, .link, .ports, .ocl, .faults, .power, .agent] π) (h_s : Same π σ s) :
    Same π σ (goOnWork w s) := by
  unfold goOnWork
  repeat' first
    | with_reducible assumption
    | intro _
    | with_reducible refine nextWork_same (Sub.trans (by decide) hl) ?_
    | with_reducible refine modWork_same (Sub.trans (by decide) hl) ?_

theorem workPartRead_same {σ : State} {π : List Part} {m : Nat} {v : Option Nat} {part : Nat} {bs : List Byte} {s : State} (hl : Sub [.win, .cells, .counters, .cellMem, .stackMem, .mesh, .sched, .budget, .kv, .svc, .ledger, .tune, .link, .ports, .ocl, .faults, .power, .agent] π) (h_s : Same π σ s) :
    Same π σ (workPartRead m v part bs s) := by
  unfold workPartRead
  repeat' first
    | with_reducible assumption
    | intro _
    | extract_lets
    | with_reducible refine goOnWork_same (Sub.trans (by decide) hl) ?_
    | fail_if_no_progress with_reducible refine same_upd ?_ (fun p hp => by cases p <;> first | exact absurd (hl.mem (by decide)) hp | exact rfl | exact ⟨rfl, rfl⟩ | exact ⟨rfl, rfl, rfl, rfl⟩)
    | split
    | dsimp +zetaDelta only

theorem workFailed_same {σ : State} {π : List Part} {m : Nat} {v : Option Nat} {s : State} (hl : Sub [.win, .cells, .counters, .cellMem, .stackMem, .mesh, .sched, .budget, .kv, .svc, .ledger, .tune, .link, .ports, .ocl, .faults, .power, .agent] π) (h_s : Same π σ s) :
    Same π σ (workFailed m v s) := by
  unfold workFailed
  repeat' first
    | with_reducible assumption
    | intro _
    | with_reducible refine stepWork_same (Sub.trans (by decide) hl) ?_
    | with_reducible refine modWork_same (Sub.trans (by decide) hl) ?_
    | fail_if_no_progress with_reducible refine same_upd ?_ (fun p hp => by cases p <;> first | exact absurd (hl.mem (by decide)) hp | exact rfl | exact ⟨rfl, rfl⟩ | exact ⟨rfl, rfl, rfl, rfl⟩)
    | split

theorem absorbDone_same {σ : State} {π : List Part} {s : State} (hl : Sub [.win, .cells, .counters, .cellMem, .stackMem, .mesh, .sched, .budget, .kv, .svc, .ledger, .tune, .link, .ports, .ocl, .faults, .power, .agent] π) (h_s : Same π σ s) :
    Same π σ (absorbDone s) := by
  unfold absorbDone
  repeat' first
    | with_reducible assumption
    | intro _
    | with_reducible refine same_ite ?_ ?_
    | with_reducible refine stepWork_same (Sub.trans (by decide) hl) ?_
    | with_reducible refine beginWork_same (Sub.trans (by decide) hl) ?_
    | fail_if_no_progress with_reducible refine same_upd ?_ (fun p hp => by cases p <;> first | exact absurd (hl.mem (by decide)) hp | exact rfl | exact ⟨rfl, rfl⟩ | exact ⟨rfl, rfl, rfl, rfl⟩)
    | split

theorem execAbsorbDone_same {σ : State} {π : List Part} {quiet : Nat} {s : State} (hl : Sub [.win, .cells, .counters, .cellMem, .stackMem, .mesh, .sched, .budget, .kv, .svc, .ledger, .tune, .link, .ports, .ocl, .faults, .power, .agent] π) (h_s : Same π σ s) :
    ∃ τ, execAbsorbDone quiet s = .next τ ∧ Same π σ τ := by
  refine ⟨_, rfl, ?_⟩
  unfold when
  repeat' first
    | with_reducible assumption
    | intro _
    | with_reducible refine same_ite ?_ ?_
    | with_reducible refine absorbDone_same (Sub.trans (by decide) hl) ?_

theorem releaseDone_same {σ : State} {π : List Part} {s : State} (hl : Sub [.win, .cells, .sched, .faults] π) (h_s : Same π σ s) :
    Same π σ (releaseDone s) := by
  unfold releaseDone
  repeat' first
    | with_reducible assumption
    | intro _
    | extract_lets
    | with_reducible refine same_ite ?_ ?_
    | with_reducible refine forEach_same ?_ ?_
    | with_reducible refine modCell_same (Sub.trans (by decide) hl) ?_
    | with_reducible refine modImage_same (Sub.trans (by decide) hl) ?_
    | with_reducible refine releaseFw_same (Sub.trans (by decide) hl) ?_
    | with_reducible refine wr_same (Sub.trans (by decide) hl) ?_
    | fail_if_no_progress with_reducible refine same_upd ?_ (fun p hp => by cases p <;> first | exact absurd (hl.mem (by decide)) hp | exact rfl | exact ⟨rfl, rfl⟩ | exact ⟨rfl, rfl, rfl, rfl⟩)
    | split
    | dsimp +zetaDelta only

theorem execReleaseDone_same {σ : State} {π : List Part} {s : State} (hl : Sub [.win, .cells, .sched, .faults] π) (h_s : Same π σ s) :
    ∃ τ, execReleaseDone s = .next τ ∧ Same π σ τ := by
  refine ⟨_, rfl, ?_⟩
  repeat' first
    | with_reducible assumption
    | intro _
    | with_reducible refine releaseDone_same (Sub.trans (by decide) hl) ?_

theorem drainTimeout_same {σ : State} {π : List Part} {s : State} (hl : Sub [.win, .cells, .stackMem, .sched, .kv, .svc, .ledger, .link, .ports, .ocl, .faults, .power, .boot, .mgmt] π) (h_s : Same π σ s) :
    Same π σ (drainTimeout s) := by
  unfold drainTimeout
  repeat' first
    | with_reducible assumption
    | intro _
    | with_reducible refine same_ite ?_ ?_
    | with_reducible refine fatal_same (Sub.trans (by decide) hl) ?_
    | fail_if_no_progress with_reducible refine same_upd ?_ (fun p hp => by cases p <;> first | exact absurd (hl.mem (by decide)) hp | exact rfl | exact ⟨rfl, rfl⟩ | exact ⟨rfl, rfl, rfl, rfl⟩)
    | split

theorem execDrainTimeout_same {σ : State} {π : List Part} {s : State} (hl : Sub [.win, .cells, .stackMem, .sched, .kv, .svc, .ledger, .link, .ports, .ocl, .faults, .power, .boot, .mgmt] π) (h_s : Same π σ s) :
    ∃ τ, execDrainTimeout s = .next τ ∧ Same π σ τ := by
  refine ⟨_, rfl, ?_⟩
  repeat' first
    | with_reducible assumption
    | intro _
    | with_reducible refine drainTimeout_same (Sub.trans (by decide) hl) ?_

theorem showPins_same {σ : State} {π : List Part} {s : State} (hl : Sub [.win] π) (h_s : Same π σ s) :
    Same π σ (showPins s) := by
  unfold showPins
  repeat' first
    | with_reducible assumption
    | intro _
    | with_reducible refine wrB_same (Sub.trans (by decide) hl) ?_

theorem wholeReset_same {σ : State} {π : List Part} {s : State} (hl : Sub [.win, .latch, .cells, .counters, .accs, .cellMem, .stackMem, .mesh, .prec, .sched, .beat, .budget, .kv, .svc, .ledger, .tune, .link, .ports, .ocl, .pair, .faults, .power, .boot, .sec, .agent, .mgmt, .now] π) (h_s : Same π σ s) :
    Same π σ (wholeReset s) := by
  unfold wholeReset
  refine showPins_same (Sub.trans (by decide) hl) (wr_same (Sub.trans (by decide) hl) (wr_same (Sub.trans (by decide) hl) ?_))
  exact same_upd h_s (fun p hp => by cases p <;> first | exact absurd (hl.mem (by decide)) hp | exact rfl)

theorem wholeRequest_same {σ : State} {π : List Part} {s : State} (hl : Sub [.win, .latch, .cells, .counters, .accs, .cellMem, .stackMem, .mesh, .prec, .sched, .beat, .budget, .kv, .svc, .ledger, .tune, .link, .ports, .ocl, .pair, .faults, .power, .boot, .sec, .agent, .mgmt, .now] π) (h_s : Same π σ s) :
    Same π σ (wholeRequest s) := by
  unfold wholeRequest
  repeat' first
    | with_reducible assumption
    | intro _
    | with_reducible refine same_ite ?_ ?_
    | with_reducible refine raise_same (Sub.trans (by decide) hl) ?_
    | with_reducible refine wholeReset_same (Sub.trans (by decide) hl) ?_
    | split

theorem execWholeReset_same {σ : State} {π : List Part} {s : State} (hl : Sub [.win, .latch, .cells, .counters, .accs, .cellMem, .stackMem, .mesh, .prec, .sched, .beat, .budget, .kv, .svc, .ledger, .tune, .link, .ports, .ocl, .pair, .faults, .power, .boot, .sec, .agent, .mgmt, .now] π) (h_s : Same π σ s) :
    ∃ τ, execWholeReset s = .next τ ∧ Same π σ τ := by
  refine ⟨_, rfl, ?_⟩
  repeat' first
    | with_reducible assumption
    | intro _
    | with_reducible refine wholeRequest_same (Sub.trans (by decide) hl) ?_

theorem relocRefuse_same {σ : State} {π : List Part} {s : State} (hl : Sub [.win, .link, .ports, .ocl] π) (h_s : Same π σ s) :
    Same π σ (relocRefuse s) := by
  unfold relocRefuse
  repeat' first
    | with_reducible assumption
    | intro _
    | with_reducible refine raise_same (Sub.trans (by decide) hl) ?_

theorem thrReloc_same {σ : State} {π : List Part} {v : Word} {s0 : State} (hl : Sub [.win, .cells, .stackMem, .sched, .kv, .svc, .ledger, .tune, .link, .ports, .ocl, .faults, .power] π) (h_s0 : Same π σ s0) :
    Same π σ (thrReloc v s0) := by
  unfold thrReloc
  repeat' first
    | with_reducible assumption
    | intro _
    | extract_lets
    | with_reducible refine same_ite ?_ ?_
    | with_reducible refine wr_same (Sub.trans (by decide) hl) ?_
    | with_reducible refine relocRefuse_same (Sub.trans (by decide) hl) ?_
    | with_reducible refine modJob_same (Sub.trans (by decide) hl) ?_
    | with_reducible refine restartImage_same (Sub.trans (by decide) hl) ?_
    | fail_if_no_progress with_reducible refine same_upd ?_ (fun p hp => by cases p <;> first | exact absurd (hl.mem (by decide)) hp | exact rfl | exact ⟨rfl, rfl⟩ | exact ⟨rfl, rfl, rfl, rfl⟩)
    | split
    | dsimp +zetaDelta only

theorem execThrReloc_same {σ : State} {π : List Part} {v : Word} {s : State} (hl : Sub [.win, .cells, .stackMem, .sched, .kv, .svc, .ledger, .tune, .link, .ports, .ocl, .faults, .power] π) (h_s : Same π σ s) :
    ∃ τ, execThrReloc v s = .next τ ∧ Same π σ τ := by
  refine ⟨_, rfl, ?_⟩
  repeat' first
    | with_reducible assumption
    | intro _
    | with_reducible refine thrReloc_same (Sub.trans (by decide) hl) ?_

end Sys2Proof.Machine
end

