-- ==== Sys2Proof/Laws/FramePower.lean ====
section
/-!
SUPPORT. The parts that may change, for every function of Machine/Power.lean that changes the state.
-/
set_option Elab.async false
namespace Sys2Proof.Machine
open Sys2Proof

theorem fatalPower_same {σ : State} {π : List Part} {src : Nat} {s : State} (hl : Sub [.win, .cells, .stackMem, .sched, .kv, .svc, .ledger, .link, .ports, .ocl, .faults, .power, .boot, .mgmt] π) (h_s : Same π σ s) :
    Same π σ (fatalPower src s) := by
  unfold fatalPower
  repeat' first
    | with_reducible assumption
    | intro _
    | with_reducible refine fatalWith_same (Sub.trans (by decide) hl) ?_

theorem powerUp_same {σ : State} {π : List Part} {s : State} (hl : Sub [.win, .latch, .cells, .counters, .accs, .cellMem, .stackMem, .mesh, .prec, .sched, .beat, .budget, .kv, .svc, .ledger, .tune, .link, .ports, .ocl, .pair, .faults, .power, .boot, .sec, .agent, .mgmt, .now] π) (h_s : Same π σ s) :
    Same π σ (powerUp s) := by
  unfold powerUp
  repeat' first
    | with_reducible assumption
    | intro _
    | with_reducible refine wholeReset_same (Sub.trans (by decide) hl) ?_
    | fail_if_no_progress with_reducible refine same_upd ?_ (fun p hp => by cases p <;> first | exact absurd (hl.mem (by decide)) hp | exact rfl | exact ⟨rfl, rfl⟩ | exact ⟨rfl, rfl, rfl, rfl⟩)

theorem powerGone_same {σ : State} {π : List Part} {s : State} (hl : Sub [.win, .power] π) (h_s : Same π σ s) :
    Same π σ (powerGone s) := by
  unfold powerGone
  repeat' first
    | with_reducible assumption
    | intro _
    | with_reducible refine forEach_same ?_ ?_
    | with_reducible refine wr_same (Sub.trans (by decide) hl) ?_
    | fail_if_no_progress with_reducible refine same_upd ?_ (fun p hp => by cases p <;> first | exact absurd (hl.mem (by decide)) hp | exact rfl | exact ⟨rfl, rfl⟩ | exact ⟨rfl, rfl, rfl, rfl⟩)

theorem feedOk_same {σ : State} {π : List Part} {n : Nat} {s : State} (hl : Sub [.win, .latch, .cells, .counters, .accs, .cellMem, .stackMem, .mesh, .prec, .sched, .beat, .budget, .kv, .svc, .ledger, .tune, .link, .ports, .ocl, .pair, .faults, .power, .boot, .sec, .agent, .mgmt, .now] π) (h_s : Same π σ s) :
    Same π σ (feedOk n s) := by
  unfold feedOk
  repeat' first
    | with_reducible assumption
    | intro _
    | with_reducible refine same_ite ?_ ?_
    | with_reducible refine wr_same (Sub.trans (by decide) hl) ?_
    | with_reducible refine powerUp_same (Sub.trans (by decide) hl) ?_
    | split

theorem execFeedOk_same {σ : State} {π : List Part} {n : Nat} {s : State} (hl : Sub [.win, .latch, .cells, .counters, .accs, .cellMem, .stackMem, .mesh, .prec, .sched, .beat, .budget, .kv, .svc, .ledger, .tune, .link, .ports, .ocl, .pair, .faults, .power, .boot, .sec, .agent, .mgmt, .now] π) (h_s : Same π σ s) :
    ∃ τ, execFeedOk n s = .next τ ∧ Same π σ τ := by
  refine ⟨_, rfl, ?_⟩
  repeat' first
    | with_reducible assumption
    | intro _
    | with_reducible refine feedOk_same (Sub.trans (by decide) hl) ?_

theorem feedLost_same {σ : State} {π : List Part} {n : Nat} {s : State} (hl : Sub [.win, .link, .ports, .ocl, .mgmt] π) (h_s : Same π σ s) :
    Same π σ (feedLost n s) := by
  unfold feedLost
  repeat' first
    | with_reducible assumption
    | intro _
    | with_reducible refine same_ite ?_ ?_
    | with_reducible refine warn_same (Sub.trans (by decide) hl) ?_
    | with_reducible refine wr_same (Sub.trans (by decide) hl) ?_
    | split

theorem execFeedLost_same {σ : State} {π : List Part} {n : Nat} {s : State} (hl : Sub [.win, .link, .ports, .ocl, .mgmt] π) (h_s : Same π σ s) :
    ∃ τ, execFeedLost n s = .next τ ∧ Same π σ τ := by
  refine ⟨_, rfl, ?_⟩
  repeat' first
    | with_reducible assumption
    | intro _
    | with_reducible refine feedLost_same (Sub.trans (by decide) hl) ?_

theorem bothFeedsLost_same {σ : State} {π : List Part} {s : State} (hl : Sub [.win, .cells, .stackMem, .sched, .kv, .svc, .ledger, .link, .ports, .ocl, .faults, .power, .boot, .mgmt] π) (h_s : Same π σ s) :
    Same π σ (bothFeedsLost s) := by
  unfold bothFeedsLost
  repeat' first
    | with_reducible assumption
    | intro _
    | with_reducible refine same_ite ?_ ?_
    | with_reducible refine powerGone_same (Sub.trans (by decide) hl) ?_
    | with_reducible refine fatalPower_same (Sub.trans (by decide) hl) ?_
    | split

theorem execBothFeedsLost_same {σ : State} {π : List Part} {s : State} (hl : Sub [.win, .cells, .stackMem, .sched, .kv, .svc, .ledger, .link, .ports, .ocl, .faults, .power, .boot, .mgmt] π) (h_s : Same π σ s) :
    ∃ τ, execBothFeedsLost s = .next τ ∧ Same π σ τ := by
  refine ⟨_, rfl, ?_⟩
  repeat' first
    | with_reducible assumption
    | intro _
    | with_reducible refine bothFeedsLost_same (Sub.trans (by decide) hl) ?_

theorem feedShare_same {σ : State} {π : List Part} {s : State} (hl : Sub [.win, .link, .ports, .ocl, .power, .mgmt] π) (h_s : Same π σ s) :
    Same π σ (feedShare s) := by
  unfold feedShare
  repeat' first
    | with_reducible assumption
    | intro _
    | with_reducible refine same_ite ?_ ?_
    | with_reducible refine warn_same (Sub.trans (by decide) hl) ?_
    | fail_if_no_progress with_reducible refine same_upd ?_ (fun p hp => by cases p <;> first | exact absurd (hl.mem (by decide)) hp | exact rfl | exact ⟨rfl, rfl⟩ | exact ⟨rfl, rfl, rfl, rfl⟩)
    | split

theorem execFeedShare_same {σ : State} {π : List Part} {s : State} (hl : Sub [.win, .link, .ports, .ocl, .power, .mgmt] π) (h_s : Same π σ s) :
    ∃ τ, execFeedShare s = .next τ ∧ Same π σ τ := by
  refine ⟨_, rfl, ?_⟩
  repeat' first
    | with_reducible assumption
    | intro _
    | with_reducible refine feedShare_same (Sub.trans (by decide) hl) ?_

theorem phaseFault_same {σ : State} {π : List Part} {f : Nat} {p : Nat} {s : State} (hl : Sub [.win, .cells, .stackMem, .sched, .kv, .svc, .ledger, .link, .ports, .ocl, .faults, .power, .boot, .mgmt] π) (h_s : Same π σ s) :
    Same π σ (phaseFault f p s) := by
  unfold phaseFault
  repeat' first
    | with_reducible assumption
    | intro _
    | extract_lets
    | with_reducible refine same_ite ?_ ?_
    | with_reducible refine wr_same (Sub.trans (by decide) hl) ?_
    | with_reducible refine warn_same (Sub.trans (by decide) hl) ?_
    | with_reducible refine raise_same (Sub.trans (by decide) hl) ?_
    | with_reducible refine journal_same (Sub.trans (by decide) hl) ?_
    | with_reducible refine fatalPower_same (Sub.trans (by decide) hl) ?_
    | split

theorem execPhaseFault_same {σ : State} {π : List Part} {f : Nat} {p : Nat} {s : State} (hl : Sub [.win, .cells, .stackMem, .sched, .kv, .svc, .ledger, .link, .ports, .ocl, .faults, .power, .boot, .mgmt] π) (h_s : Same π σ s) :
    ∃ τ, execPhaseFault f p s = .next τ ∧ Same π σ τ := by
  refine ⟨_, rfl, ?_⟩
  repeat' first
    | with_reducible assumption
    | intro _
    | with_reducible refine phaseFault_same (Sub.trans (by decide) hl) ?_

theorem powerLevelAdjust_same {σ : State} {π : List Part} {f : Nat} {s : State} (hl : Sub [.win, .link, .ports, .ocl, .power, .mgmt] π) (h_s : Same π σ s) :
    Same π σ (powerLevelAdjust f s) := by
  unfold powerLevelAdjust
  repeat' first
    | with_reducible assumption
    | intro _
    | extract_lets
    | with_reducible refine same_ite ?_ ?_
    | with_reducible refine setFieldPower_same (Sub.trans (by decide) hl) ?_
    | with_reducible refine when_same ?_ ?_
    | with_reducible refine warn_same (Sub.trans (by decide) hl) ?_
    | with_reducible refine raise_same (Sub.trans (by decide) hl) ?_
    | fail_if_no_progress with_reducible refine same_upd ?_ (fun p hp => by cases p <;> first | exact absurd (hl.mem (by decide)) hp | exact rfl | exact ⟨rfl, rfl⟩ | exact ⟨rfl, rfl, rfl, rfl⟩)
    | split

theorem execPowerLevelAdjust_same {σ : State} {π : List Part} {f : Nat} {s : State} (hl : Sub [.win, .link, .ports, .ocl, .power, .mgmt] π) (h_s : Same π σ s) :
    ∃ τ, execPowerLevelAdjust f s = .next τ ∧ Same π σ τ := by
  refine ⟨_, rfl, ?_⟩
  repeat' first
    | with_reducible assumption
    | intro _
    | with_reducible refine powerLevelAdjust_same (Sub.trans (by decide) hl) ?_

theorem capAdjust_same {σ : State} {π : List Part} {s : State} (hl : Sub [.win, .link, .ports, .ocl, .power, .mgmt] π) (h_s : Same π σ s) :
    Same π σ (capAdjust s) := by
  unfold capAdjust
  repeat' first
    | with_reducible assumption
    | intro _
    | extract_lets
    | with_reducible refine same_ite ?_ ?_
    | with_reducible refine wr_same (Sub.trans (by decide) hl) ?_
    | with_reducible refine when_same ?_ ?_
    | with_reducible refine warn_same (Sub.trans (by decide) hl) ?_
    | fail_if_no_progress with_reducible refine same_upd ?_ (fun p hp => by cases p <;> first | exact absurd (hl.mem (by decide)) hp | exact rfl | exact ⟨rfl, rfl⟩ | exact ⟨rfl, rfl, rfl, rfl⟩)
    | split

theorem execCapAdjust_same {σ : State} {π : List Part} {s : State} (hl : Sub [.win, .link, .ports, .ocl, .power, .mgmt] π) (h_s : Same π σ s) :
    ∃ τ, execCapAdjust s = .next τ ∧ Same π σ τ := by
  refine ⟨_, rfl, ?_⟩
  repeat' first
    | with_reducible assumption
    | intro _
    | with_reducible refine capAdjust_same (Sub.trans (by decide) hl) ?_

theorem pwrCapWrite_same {σ : State} {π : List Part} {v : Word} {s : State} (hl : Sub [.win, .link, .ports, .ocl] π) (h_s : Same π σ s) :
    Same π σ (pwrCapWrite v s) := by
  unfold pwrCapWrite
  repeat' first
    | with_reducible assumption
    | intro _
    | extract_lets
    | with_reducible refine same_ite ?_ ?_
    | with_reducible refine wr_same (Sub.trans (by decide) hl) ?_
    | with_reducible refine raise_same (Sub.trans (by decide) hl) ?_
    | split

theorem execPwrCapWrite_same {σ : State} {π : List Part} {v : Word} {s : State} (hl : Sub [.win, .link, .ports, .ocl] π) (h_s : Same π σ s) :
    ∃ τ, execPwrCapWrite v s = .next τ ∧ Same π σ τ := by
  refine ⟨_, rfl, ?_⟩
  repeat' first
    | with_reducible assumption
    | intro _
    | with_reducible refine pwrCapWrite_same (Sub.trans (by decide) hl) ?_

theorem sampleInput_same {σ : State} {π : List Part} {v : VoltSample} {s : State} (hl : Sub [.win, .power] π) (h_s : Same π σ s) :
    Same π σ (sampleInput v s) := by
  unfold sampleInput
  repeat' first
    | with_reducible assumption
    | intro _
    | extract_lets
    | with_reducible refine same_ite ?_ ?_
    | with_reducible refine wr_same (Sub.trans (by decide) hl) ?_
    | with_reducible refine bumpBy_same (Sub.trans (by decide) hl) ?_
    | fail_if_no_progress with_reducible refine same_upd ?_ (fun p hp => by cases p <;> first | exact absurd (hl.mem (by decide)) hp | exact rfl | exact ⟨rfl, rfl⟩ | exact ⟨rfl, rfl, rfl, rfl⟩)
    | split

theorem sampleRail_same {σ : State} {π : List Part} {v : VoltSample} {s : State} (hl : Sub [.win, .power] π) (h_s : Same π σ s) :
    Same π σ (sampleRail v s) := by
  unfold sampleRail
  repeat' first
    | with_reducible assumption
    | intro _
    | extract_lets
    | with_reducible refine same_ite ?_ ?_
    | with_reducible refine wr_same (Sub.trans (by decide) hl) ?_
    | fail_if_no_progress with_reducible refine same_upd ?_ (fun p hp => by cases p <;> first | exact absurd (hl.mem (by decide)) hp | exact rfl | exact ⟨rfl, rfl⟩ | exact ⟨rfl, rfl, rfl, rfl⟩)
    | with_reducible refine foldl_same ?_ ?_
    | split

theorem sampleField_same {σ : State} {π : List Part} {m2 : Int} {f : Nat} {v : FieldVolt} {s : State} (hl : Sub [.win, .power] π) (h_s : Same π σ s) :
    Same π σ (sampleField m2 f v s).2 := by
  unfold sampleField
  repeat' first
    | with_reducible assumption
    | intro _
    | extract_lets
    | with_reducible refine same_ite ?_ ?_
    | with_reducible refine setFieldPower_same (Sub.trans (by decide) hl) ?_
    | with_reducible refine wr_same (Sub.trans (by decide) hl) ?_
    | fail_if_no_progress with_reducible refine same_upd ?_ (fun p hp => by cases p <;> first | exact absurd (hl.mem (by decide)) hp | exact rfl | exact ⟨rfl, rfl⟩ | exact ⟨rfl, rfl, rfl, rfl⟩)
    | with_reducible refine same_snd_ite ?_ ?_
    | split

theorem sampleFields_same {σ : State} {π : List Part} {m2 : Int} {x0 : Nat} {x1 : List FieldVolt} {x2 : State} (hl : Sub [.win, .power] π) (h_x2 : Same π σ x2) :
    Same π σ (sampleFields m2 x0 x1 x2).2 := by
  induction x1 generalizing m2 x0 x2 with
  | nil => (unfold sampleFields; repeat' first
      | with_reducible assumption
      | intro _
      | extract_lets
      | with_reducible refine same_ite ?_ ?_
      | with_reducible refine sampleField_same (Sub.trans (by decide) hl) ?_
      | with_reducible refine same_snd_ite ?_ ?_
      | split)
  | cons _ _ ih => (unfold sampleFields; repeat' first
      | with_reducible assumption
      | with_reducible apply ih
      | (injections; subst_vars; with_reducible apply ih)
      | intro _
      | extract_lets
      | with_reducible refine same_ite ?_ ?_
      | with_reducible refine sampleField_same (Sub.trans (by decide) hl) ?_
      | with_reducible refine same_snd_ite ?_ ?_
      | split)

theorem markSuspect_same {σ : State} {π : List Part} {f : Nat} {s : State} (hl : Sub [.win, .link, .ports, .ocl, .boot, .mgmt] π) (h_s : Same π σ s) :
    Same π σ (markSuspect f s) := by
  unfold markSuspect
  repeat' first
    | with_reducible assumption
    | intro _
    | with_reducible refine warn_same (Sub.trans (by decide) hl) ?_
    | with_reducible refine raise_same (Sub.trans (by decide) hl) ?_
    | with_reducible refine journal_same (Sub.trans (by decide) hl) ?_
    | with_reducible refine wr_same (Sub.trans (by decide) hl) ?_

theorem vcmEvent_same {σ : State} {π : List Part} {fs : List Nat} {s : State} (hl : Sub [.win, .cells, .stackMem, .sched, .kv, .svc, .ledger, .link, .ports, .ocl, .faults, .power, .boot, .mgmt] π) (h_s : Same π σ s) :
    Same π σ (vcmEvent fs s) := by
  unfold vcmEvent
  repeat' first
    | with_reducible assumption
    | intro _
    | extract_lets
    | with_reducible refine same_ite ?_ ?_
    | with_reducible refine fatalPower_same (Sub.trans (by decide) hl) ?_
    | with_reducible refine holdFw_same (Sub.trans (by decide) hl) ?_
    | with_reducible refine forEach_same ?_ ?_
    | with_reducible refine markSuspect_same (Sub.trans (by decide) hl) ?_
    | fail_if_no_progress with_reducible refine same_upd ?_ (fun p hp => by cases p <;> first | exact absurd (hl.mem (by decide)) hp | exact rfl | exact ⟨rfl, rfl⟩ | exact ⟨rfl, rfl, rfl, rfl⟩)
    | split

theorem countCalm_same {σ : State} {π : List Part} {v : VoltSample} {s : State} (hl : Sub [.power] π) (h_s : Same π σ s) :
    Same π σ (countCalm v s) := by
  unfold countCalm
  repeat' first
    | with_reducible assumption
    | intro _
    | extract_lets
    | with_reducible refine same_ite ?_ ?_
    | fail_if_no_progress with_reducible refine same_upd ?_ (fun p hp => by cases p <;> first | exact absurd (hl.mem (by decide)) hp | exact rfl | exact ⟨rfl, rfl⟩ | exact ⟨rfl, rfl, rfl, rfl⟩)
    | split

theorem failApart_same {σ : State} {π : List Part} {s : State} (hl : Sub [.win, .cells, .stackMem, .sched, .kv, .svc, .ledger, .link, .ports, .ocl, .faults, .power, .boot, .mgmt] π) (h_s : Same π σ s) :
    Same π σ (failApart s) := by
  unfold failApart
  repeat' first
    | with_reducible assumption
    | intro _
    | with_reducible refine forEach_same ?_ ?_
    | with_reducible refine phaseFault_same (Sub.trans (by decide) hl) ?_

theorem voltageSample_same {σ : State} {π : List Part} {v : VoltSample} {s : State} (hl : Sub [.win, .cells, .stackMem, .sched, .kv, .svc, .ledger, .link, .ports, .ocl, .faults, .power, .boot, .mgmt, .now] π) (h_s : Same π σ s) :
    Same π σ (voltageSample v s) := by
  unfold voltageSample
  repeat' first
    | with_reducible assumption
    | intro _
    | extract_lets
    | with_reducible refine sampleRail_same (Sub.trans (by decide) hl) ?_
    | with_reducible refine sampleInput_same (Sub.trans (by decide) hl) ?_
    | with_reducible refine atTime_same (Sub.trans (by decide) hl) ?_
    | with_reducible refine sampleFields_same (Sub.trans (by decide) hl) ?_
    | with_reducible refine failApart_same (Sub.trans (by decide) hl) ?_
    | with_reducible refine countCalm_same (Sub.trans (by decide) hl) ?_
    | with_reducible refine vcmEvent_same (Sub.trans (by decide) hl) ?_
    | fail_if_no_progress with_reducible refine same_upd ?_ (fun p hp => by cases p <;> first | exact absurd (hl.mem (by decide)) hp | exact rfl | exact ⟨rfl, rfl⟩ | exact ⟨rfl, rfl, rfl, rfl⟩)
    | split
    | dsimp +zetaDelta only

theorem execVoltageSample_same {σ : State} {π : List Part} {v : VoltSample} {s : State} (hl : Sub [.win, .cells, .stackMem, .sched, .kv, .svc, .ledger, .link, .ports, .ocl, .faults, .power, .boot, .mgmt, .now] π) (h_s : Same π σ s) :
    ∃ τ, execVoltageSample v s = .next τ ∧ Same π σ τ := by
  refine ⟨_, rfl, ?_⟩
  repeat' first
    | with_reducible assumption
    | intro _
    | with_reducible refine voltageSample_same (Sub.trans (by decide) hl) ?_

theorem vcmRecovered_same {σ : State} {π : List Part} {s : State} (hl : Sub [.win, .cells, .stackMem, .sched, .kv, .svc, .ledger, .tune, .link, .ports, .ocl, .faults, .power] π) (h_s : Same π σ s) :
    Same π σ (vcmRecovered s) := by
  unfold vcmRecovered
  repeat' first
    | with_reducible assumption
    | intro _
    | extract_lets
    | with_reducible refine same_ite ?_ ?_
    | with_reducible refine restartImages_same (Sub.trans (by decide) hl) ?_
    | with_reducible refine releaseFw_same (Sub.trans (by decide) hl) ?_
    | with_reducible refine modJob_same (Sub.trans (by decide) hl) ?_
    | fail_if_no_progress with_reducible refine same_upd ?_ (fun p hp => by cases p <;> first | exact absurd (hl.mem (by decide)) hp | exact rfl | exact ⟨rfl, rfl⟩ | exact ⟨rfl, rfl, rfl, rfl⟩)
    | split
    | dsimp +zetaDelta only

theorem execVcmRecovered_same {σ : State} {π : List Part} {s : State} (hl : Sub [.win, .cells, .stackMem, .sched, .kv, .svc, .ledger, .tune, .link, .ports, .ocl, .faults, .power] π) (h_s : Same π σ s) :
    ∃ τ, execVcmRecovered s = .next τ ∧ Same π σ τ := by
  refine ⟨_, rfl, ?_⟩
  repeat' first
    | with_reducible assumption
    | intro _
    | with_reducible refine vcmRecovered_same (Sub.trans (by decide) hl) ?_

theorem vcmNorecover_same {σ : State} {π : List Part} {s : State} (hl : Sub [.win, .cells, .stackMem, .sched, .kv, .svc, .ledger, .link, .ports, .ocl, .faults, .power, .boot, .mgmt] π) (h_s : Same π σ s) :
    Same π σ (vcmNorecover s) := by
  unfold vcmNorecover
  repeat' first
    | with_reducible assumption
    | intro _
    | with_reducible refine same_ite ?_ ?_
    | with_reducible refine fatalPower_same (Sub.trans (by decide) hl) ?_
    | fail_if_no_progress with_reducible refine same_upd ?_ (fun p hp => by cases p <;> first | exact absurd (hl.mem (by decide)) hp | exact rfl | exact ⟨rfl, rfl⟩ | exact ⟨rfl, rfl, rfl, rfl⟩)
    | split

theorem execVcmNorecover_same {σ : State} {π : List Part} {s : State} (hl : Sub [.win, .cells, .stackMem, .sched, .kv, .svc, .ledger, .link, .ports, .ocl, .faults, .power, .boot, .mgmt] π) (h_s : Same π σ s) :
    ∃ τ, execVcmNorecover s = .next τ ∧ Same π σ τ := by
  refine ⟨_, rfl, ?_⟩
  repeat' first
    | with_reducible assumption
    | intro _
    | with_reducible refine vcmNorecover_same (Sub.trans (by decide) hl) ?_

end Sys2Proof.Machine
end

