-- ==== Sys2Proof/Laws/FrameThermal.lean ====
section
/-!
SUPPORT. The parts that may change, for every function of Machine/Thermal.lean that changes the state.
-/
set_option Elab.async false
namespace Sys2Proof.Machine
open Sys2Proof

theorem assertPwrOff_same {σ : State} {π : List Part} {s : State} (hl : Sub [.win, .power] π) (h_s : Same π σ s) :
    Same π σ (assertPwrOff s) := by
  unfold assertPwrOff
  repeat' first
    | with_reducible assumption
    | intro _
    | with_reducible refine wr_same (Sub.trans (by decide) hl) ?_
    | fail_if_no_progress with_reducible refine same_upd ?_ (fun p hp => by cases p <;> first | exact absurd (hl.mem (by decide)) hp | exact rfl | exact ⟨rfl, rfl⟩ | exact ⟨rfl, rfl, rfl, rfl⟩)

theorem execPwrOffReq_same {σ : State} {π : List Part} {s : State} (hl : Sub [.win, .power] π) (h_s : Same π σ s) :
    ∃ τ, execPwrOffReq s = .next τ ∧ Same π σ τ := by
  refine ⟨_, rfl, ?_⟩
  repeat' first
    | with_reducible assumption
    | intro _
    | with_reducible refine when_same ?_ ?_
    | with_reducible refine assertPwrOff_same (Sub.trans (by decide) hl) ?_

theorem criticalHeat_same {σ : State} {π : List Part} {s : State} (hl : Sub [.win, .cells, .stackMem, .sched, .kv, .svc, .ledger, .link, .ports, .ocl, .faults, .power, .boot, .mgmt] π) (h_s : Same π σ s) :
    Same π σ (criticalHeat s) := by
  unfold criticalHeat
  repeat' first
    | with_reducible assumption
    | intro _
    | with_reducible refine fatalWith_same (Sub.trans (by decide) hl) ?_
    | fail_if_no_progress with_reducible refine same_upd ?_ (fun p hp => by cases p <;> first | exact absurd (hl.mem (by decide)) hp | exact rfl | exact ⟨rfl, rfl⟩ | exact ⟨rfl, rfl, rfl, rfl⟩)

theorem execThermalTrip_same {σ : State} {π : List Part} {s : State} (hl : Sub [.win, .power] π) (h_s : Same π σ s) :
    ∃ τ, execThermalTrip s = .next τ ∧ Same π σ τ := by
  refine ⟨_, rfl, ?_⟩
  repeat' first
    | with_reducible assumption
    | intro _
    | with_reducible refine assertPwrOff_same (Sub.trans (by decide) hl) ?_
    | fail_if_no_progress with_reducible refine same_upd ?_ (fun p hp => by cases p <;> first | exact absurd (hl.mem (by decide)) hp | exact rfl | exact ⟨rfl, rfl⟩ | exact ⟨rfl, rfl, rfl, rfl⟩)

theorem samplePair_same {σ : State} {π : List Part} {ref f p : Nat} {r : Nat × Nat} {s : State} (hl : Sub [.win, .power] π)
    (h_s : Same π σ s) : Same π σ (samplePair ref f p r s).2 := by
  unfold samplePair
  exact wrB_same (Sub.trans (by decide) hl) (wrB_same (Sub.trans (by decide) hl) (wrB_same (Sub.trans (by decide) hl)
    (wr_same (Sub.trans (by decide) hl) (wr_same (Sub.trans (by decide) hl) (setFieldPower_same (Sub.trans (by decide) hl) h_s)))))

theorem samplePairs_same {σ : State} {π : List Part} {ref f p : Nat} {xs : List (Nat × Nat)} {s : State} (hl : Sub [.win, .power] π)
    (h_s : Same π σ s) : Same π σ (samplePairs ref f p xs s).2 := by
  induction xs generalizing p s with
  | nil => exact h_s
  | cons r xs ih =>
    unfold samplePairs
    exact ih (samplePair_same hl h_s)

theorem throttleRise_same {σ : State} {π : List Part} {f : Nat} {was : Nat} {g : Nat} {s : State} (hl : Sub [.win, .link, .ports, .ocl, .mgmt] π) (h_s : Same π σ s) :
    Same π σ (throttleRise f was g s) := by
  unfold throttleRise
  repeat' first
    | with_reducible assumption
    | intro _
    | with_reducible refine when_same ?_ ?_
    | with_reducible refine warn_same (Sub.trans (by decide) hl) ?_
    | with_reducible refine raise_same (Sub.trans (by decide) hl) ?_

theorem followHeat_same {σ : State} {π : List Part} {f : Nat} {t : Nat} {s : State} (hl : Sub [.win, .link, .ports, .ocl, .power, .mgmt] π) (h_s : Same π σ s) :
    Same π σ (followHeat f t s) := by
  unfold followHeat
  repeat' first
    | with_reducible assumption
    | intro _
    | extract_lets
    | with_reducible refine same_ite ?_ ?_
    | with_reducible refine throttleRise_same (Sub.trans (by decide) hl) ?_
    | with_reducible refine setFieldPower_same (Sub.trans (by decide) hl) ?_
    | with_reducible refine noPairs_same (Sub.trans (by decide) hl) ?_
    | fail_if_no_progress with_reducible refine same_upd ?_ (fun p hp => by cases p <;> first | exact absurd (hl.mem (by decide)) hp | exact rfl | exact ⟨rfl, rfl⟩ | exact ⟨rfl, rfl, rfl, rfl⟩)
    | split

theorem sampleHeat_same {σ : State} {π : List Part} {ref : Nat} {f : Nat} {rs : List (Nat × Nat)} {s : State} (hl : Sub [.win, .link, .ports, .ocl, .power, .mgmt] π) (h_s : Same π σ s) :
    Same π σ (sampleHeat ref f rs s).2 := by
  unfold sampleHeat
  repeat' first
    | with_reducible assumption
    | intro _
    | extract_lets
    | with_reducible refine samplePairs_same (Sub.trans (by decide) hl) ?_
    | with_reducible refine followHeat_same (Sub.trans (by decide) hl) ?_
    | with_reducible refine wr_same (Sub.trans (by decide) hl) ?_
    | with_reducible refine setFieldPower_same (Sub.trans (by decide) hl) ?_
    | with_reducible refine noPairs_same (Sub.trans (by decide) hl) ?_
    | fail_if_no_progress with_reducible refine same_upd ?_ (fun p hp => by cases p <;> first | exact absurd (hl.mem (by decide)) hp | exact rfl | exact ⟨rfl, rfl⟩ | exact ⟨rfl, rfl, rfl, rfl⟩)
    | with_reducible refine same_snd_ite ?_ ?_
    | split
    | dsimp +zetaDelta only

theorem sampleHeats_same {σ : State} {π : List Part} {ref : Nat} {x0 : Nat} {x1 : List (List (Nat × Nat))} {x2 : State} (hl : Sub [.win, .link, .ports, .ocl, .power, .mgmt] π) (h_x2 : Same π σ x2) :
    Same π σ (sampleHeats ref x0 x1 x2).2 := by
  induction x1 generalizing ref x0 x2 with
  | nil => (unfold sampleHeats; repeat' first
      | with_reducible assumption
      | intro _
      | extract_lets
      | with_reducible refine sampleHeat_same (Sub.trans (by decide) hl) ?_
      | with_reducible refine same_snd_ite ?_ ?_)
  | cons _ _ ih => (unfold sampleHeats; repeat' first
      | with_reducible assumption
      | with_reducible apply ih
      | (injections; subst_vars; with_reducible apply ih)
      | intro _
      | extract_lets
      | with_reducible refine sampleHeat_same (Sub.trans (by decide) hl) ?_
      | with_reducible refine same_snd_ite ?_ ?_)

theorem heatEndsTest_same {σ : State} {π : List Part} {s : State} (hl : Sub [.boot] π) (h_s : Same π σ s) :
    Same π σ (heatEndsTest s) := by
  unfold heatEndsTest
  repeat' first
    | with_reducible assumption
    | intro _
    | extract_lets
    | with_reducible refine same_ite ?_ ?_
    | fail_if_no_progress with_reducible refine same_upd ?_ (fun p hp => by cases p <;> first | exact absurd (hl.mem (by decide)) hp | exact rfl | exact ⟨rfl, rfl⟩ | exact ⟨rfl, rfl, rfl, rfl⟩)

theorem showHottest_same {σ : State} {π : List Part} {s : State} (hl : Sub [.win] π) (h_s : Same π σ s) :
    Same π σ (showHottest s) := by
  unfold showHottest
  repeat' first
    | with_reducible assumption
    | intro _
    | extract_lets
    | with_reducible refine same_ite ?_ ?_
    | with_reducible refine wr_same (Sub.trans (by decide) hl) ?_
    | with_reducible refine foldl_same ?_ ?_
    | split

theorem sampleStack_same {σ : State} {π : List Part} {n : Nat} {t : Nat} {s : State} (hl : Sub [.win, .link, .ports, .ocl, .mgmt] π) (h_s : Same π σ s) :
    Same π σ (sampleStack n t s) := by
  unfold sampleStack
  repeat' first
    | with_reducible assumption
    | intro _
    | extract_lets
    | with_reducible refine wr_same (Sub.trans (by decide) hl) ?_
    | with_reducible refine when_same ?_ ?_
    | with_reducible refine raise_same (Sub.trans (by decide) hl) ?_
    | with_reducible refine warn_same (Sub.trans (by decide) hl) ?_

theorem sampleStacks_same {σ : State} {π : List Part} {x0 : Nat} {x1 : List Nat} {x2 : State} (hl : Sub [.win, .link, .ports, .ocl, .mgmt] π) (h_x2 : Same π σ x2) :
    Same π σ (sampleStacks x0 x1 x2) := by
  induction x1 generalizing x0 x2 with
  | nil => (unfold sampleStacks; repeat' first
      | with_reducible assumption
      | intro _
      | with_reducible refine sampleStack_same (Sub.trans (by decide) hl) ?_)
  | cons _ _ ih => (unfold sampleStacks; repeat' first
      | with_reducible assumption
      | with_reducible apply ih
      | (injections; subst_vars; with_reducible apply ih)
      | intro _
      | with_reducible refine sampleStack_same (Sub.trans (by decide) hl) ?_)

theorem sampleInlet_same {σ : State} {π : List Part} {v : ThermSample} {s : State} (hl : Sub [.win, .power] π) (h_s : Same π σ s) :
    Same π σ (sampleInlet v s) := by
  unfold sampleInlet
  repeat' first
    | with_reducible assumption
    | intro _
    | extract_lets
    | with_reducible refine same_ite ?_ ?_
    | with_reducible refine wr_same (Sub.trans (by decide) hl) ?_
    | fail_if_no_progress with_reducible refine same_upd ?_ (fun p hp => by cases p <;> first | exact absurd (hl.mem (by decide)) hp | exact rfl | exact ⟨rfl, rfl⟩ | exact ⟨rfl, rfl, rfl, rfl⟩)
    | split

theorem thermalSample_same {σ : State} {π : List Part} {v : ThermSample} {s : State} (hl : Sub [.win, .cells, .stackMem, .sched, .kv, .svc, .ledger, .link, .ports, .ocl, .faults, .power, .boot, .mgmt, .now] π) (h_s : Same π σ s) :
    Same π σ (thermalSample v s) := by
  unfold thermalSample
  repeat' first
    | with_reducible assumption
    | intro _
    | extract_lets
    | with_reducible refine same_ite ?_ ?_
    | with_reducible refine sampleInlet_same (Sub.trans (by decide) hl) ?_
    | with_reducible refine atTime_same (Sub.trans (by decide) hl) ?_
    | with_reducible refine sampleHeats_same (Sub.trans (by decide) hl) ?_
    | with_reducible refine sampleStacks_same (Sub.trans (by decide) hl) ?_
    | with_reducible refine heatEndsTest_same (Sub.trans (by decide) hl) ?_
    | with_reducible refine showHottest_same (Sub.trans (by decide) hl) ?_
    | with_reducible refine when_same ?_ ?_
    | with_reducible refine criticalHeat_same (Sub.trans (by decide) hl) ?_
    | fail_if_no_progress with_reducible refine same_upd ?_ (fun p hp => by cases p <;> first | exact absurd (hl.mem (by decide)) hp | exact rfl | exact ⟨rfl, rfl⟩ | exact ⟨rfl, rfl, rfl, rfl⟩)
    | split

theorem execThermalSample_same {σ : State} {π : List Part} {v : ThermSample} {s : State} (hl : Sub [.win, .cells, .stackMem, .sched, .kv, .svc, .ledger, .link, .ports, .ocl, .faults, .power, .boot, .mgmt, .now] π) (h_s : Same π σ s) :
    ∃ τ, execThermalSample v s = .next τ ∧ Same π σ τ := by
  refine ⟨_, rfl, ?_⟩
  repeat' first
    | with_reducible assumption
    | intro _
    | with_reducible refine thermalSample_same (Sub.trans (by decide) hl) ?_

theorem pairSuspect_same {σ : State} {π : List Part} {f : Nat} {p : Nat} {s : State} (hl : Sub [.win, .link, .ports, .ocl, .boot, .mgmt] π) (h_s : Same π σ s) :
    Same π σ (pairSuspect f p s) := by
  unfold pairSuspect
  repeat' first
    | with_reducible assumption
    | intro _
    | extract_lets
    | with_reducible refine same_ite ?_ ?_
    | with_reducible refine wr_same (Sub.trans (by decide) hl) ?_
    | with_reducible refine warn_same (Sub.trans (by decide) hl) ?_
    | with_reducible refine raise_same (Sub.trans (by decide) hl) ?_
    | with_reducible refine journal_same (Sub.trans (by decide) hl) ?_
    | split

theorem execPairSuspect_same {σ : State} {π : List Part} {f : Nat} {p : Nat} {s : State} (hl : Sub [.win, .link, .ports, .ocl, .boot, .mgmt] π) (h_s : Same π σ s) :
    ∃ τ, execPairSuspect f p s = .next τ ∧ Same π σ τ := by
  refine ⟨_, rfl, ?_⟩
  repeat' first
    | with_reducible assumption
    | intro _
    | with_reducible refine pairSuspect_same (Sub.trans (by decide) hl) ?_

theorem noPairs_same {σ : State} {π : List Part} {f : Nat} {s : State} (hl : Sub [.win, .link, .ports, .ocl, .power, .mgmt] π) (h_s : Same π σ s) :
    Same π σ (noPairs f s) := by
  unfold noPairs
  repeat' first
    | with_reducible assumption
    | intro _
    | extract_lets
    | with_reducible refine same_ite ?_ ?_
    | with_reducible refine setFieldPower_same (Sub.trans (by decide) hl) ?_
    | with_reducible refine throttleRise_same (Sub.trans (by decide) hl) ?_
    | with_reducible refine warn_same (Sub.trans (by decide) hl) ?_
    | with_reducible refine raise_same (Sub.trans (by decide) hl) ?_
    | fail_if_no_progress with_reducible refine same_upd ?_ (fun p hp => by cases p <;> first | exact absurd (hl.mem (by decide)) hp | exact rfl | exact ⟨rfl, rfl⟩ | exact ⟨rfl, rfl, rfl, rfl⟩)
    | split

theorem execNoPairs_same {σ : State} {π : List Part} {f : Nat} {s : State} (hl : Sub [.win, .link, .ports, .ocl, .power, .mgmt] π) (h_s : Same π σ s) :
    ∃ τ, execNoPairs f s = .next τ ∧ Same π σ τ := by
  refine ⟨_, rfl, ?_⟩
  repeat' first
    | with_reducible assumption
    | intro _
    | with_reducible refine noPairs_same (Sub.trans (by decide) hl) ?_

theorem inletWarn_same {σ : State} {π : List Part} {s : State} (hl : Sub [.win, .link, .ports, .ocl, .power, .mgmt] π) (h_s : Same π σ s) :
    Same π σ (inletWarn s) := by
  unfold inletWarn
  repeat' first
    | with_reducible assumption
    | intro _
    | extract_lets
    | with_reducible refine same_ite ?_ ?_
    | with_reducible refine warn_same (Sub.trans (by decide) hl) ?_
    | fail_if_no_progress with_reducible refine same_upd ?_ (fun p hp => by cases p <;> first | exact absurd (hl.mem (by decide)) hp | exact rfl | exact ⟨rfl, rfl⟩ | exact ⟨rfl, rfl, rfl, rfl⟩)
    | split

theorem execInlet_same {σ : State} {π : List Part} {s : State} (hl : Sub [.win, .link, .ports, .ocl, .power, .mgmt] π) (h_s : Same π σ s) :
    ∃ τ, execInlet s = .next τ ∧ Same π σ τ := by
  refine ⟨_, rfl, ?_⟩
  repeat' first
    | with_reducible assumption
    | intro _
    | with_reducible refine inletWarn_same (Sub.trans (by decide) hl) ?_

theorem flowPulse_same {σ : State} {π : List Part} {t : Nat} {highNs : Nat} {s0 : State} (hl : Sub [.win, .link, .ports, .ocl, .power, .mgmt, .now] π) (h_s0 : Same π σ s0) :
    Same π σ (flowPulse t highNs s0) := by
  unfold flowPulse
  repeat' first
    | with_reducible assumption
    | intro _
    | extract_lets
    | with_reducible refine same_ite ?_ ?_
    | with_reducible refine atTime_same (Sub.trans (by decide) hl) ?_
    | with_reducible refine raise_same (Sub.trans (by decide) hl) ?_
    | with_reducible refine bump_same (Sub.trans (by decide) hl) ?_
    | fail_if_no_progress with_reducible refine same_upd ?_ (fun p hp => by cases p <;> first | exact absurd (hl.mem (by decide)) hp | exact rfl | exact ⟨rfl, rfl⟩ | exact ⟨rfl, rfl, rfl, rfl⟩)
    | split

theorem execFlowPulse_same {σ : State} {π : List Part} {t : Nat} {highNs : Nat} {s : State} (hl : Sub [.win, .link, .ports, .ocl, .power, .mgmt, .now] π) (h_s : Same π σ s) :
    ∃ τ, execFlowPulse t highNs s = .next τ ∧ Same π σ τ := by
  refine ⟨_, rfl, ?_⟩
  repeat' first
    | with_reducible assumption
    | intro _
    | with_reducible refine flowPulse_same (Sub.trans (by decide) hl) ?_

theorem flowNoise_same {σ : State} {π : List Part} {t : Nat} {s : State} (hl : Sub [.win, .link, .ports, .ocl, .mgmt, .now] π) (h_s : Same π σ s) :
    Same π σ (flowNoise t s) := by
  unfold flowNoise
  repeat' first
    | with_reducible assumption
    | intro _
    | with_reducible refine same_ite ?_ ?_
    | with_reducible refine pldm_same (Sub.trans (by decide) hl) ?_
    | with_reducible refine atTime_same (Sub.trans (by decide) hl) ?_
    | fail_if_no_progress with_reducible refine same_upd ?_ (fun p hp => by cases p <;> first | exact absurd (hl.mem (by decide)) hp | exact rfl | exact ⟨rfl, rfl⟩ | exact ⟨rfl, rfl, rfl, rfl⟩)
    | split

theorem execFlowNoise_same {σ : State} {π : List Part} {t : Nat} {s : State} (hl : Sub [.win, .link, .ports, .ocl, .mgmt, .now] π) (h_s : Same π σ s) :
    ∃ τ, execFlowNoise t s = .next τ ∧ Same π σ τ := by
  refine ⟨_, rfl, ?_⟩
  repeat' first
    | with_reducible assumption
    | intro _
    | with_reducible refine flowNoise_same (Sub.trans (by decide) hl) ?_

theorem enterCool_same {σ : State} {π : List Part} {n : Nat} {s : State} (hl : Sub [.win, .link, .ports, .ocl, .mgmt] π) (h_s : Same π σ s) :
    Same π σ (enterCool n s) := by
  unfold enterCool
  repeat' first
    | with_reducible assumption
    | intro _
    | extract_lets
    | with_reducible refine same_ite ?_ ?_
    | with_reducible refine wr_same (Sub.trans (by decide) hl) ?_
    | with_reducible refine warn_same (Sub.trans (by decide) hl) ?_
    | split

theorem flowUpdate_same {σ : State} {π : List Part} {s : State} (hl : Sub [.win, .link, .ports, .ocl, .power, .mgmt] π) (h_s : Same π σ s) :
    Same π σ (flowUpdate s) := by
  unfold flowUpdate
  repeat' first
    | with_reducible assumption
    | intro _
    | extract_lets
    | with_reducible refine same_ite ?_ ?_
    | with_reducible refine wr_same (Sub.trans (by decide) hl) ?_
    | with_reducible refine wrB_same (Sub.trans (by decide) hl) ?_
    | with_reducible refine enterCool_same (Sub.trans (by decide) hl) ?_
    | fail_if_no_progress with_reducible refine same_upd ?_ (fun p hp => by cases p <;> first | exact absurd (hl.mem (by decide)) hp | exact rfl | exact ⟨rfl, rfl⟩ | exact ⟨rfl, rfl, rfl, rfl⟩)
    | split

theorem execFlowUpdate_same {σ : State} {π : List Part} {s : State} (hl : Sub [.win, .link, .ports, .ocl, .power, .mgmt] π) (h_s : Same π σ s) :
    ∃ τ, execFlowUpdate s = .next τ ∧ Same π σ τ := by
  refine ⟨_, rfl, ?_⟩
  repeat' first
    | with_reducible assumption
    | intro _
    | with_reducible refine flowUpdate_same (Sub.trans (by decide) hl) ?_

theorem enterStopping_same {σ : State} {π : List Part} {t : Nat} {s : State} (hl : Sub [.win, .link, .ports, .ocl, .power, .mgmt] π) (h_s : Same π σ s) :
    Same π σ (enterStopping t s) := by
  unfold enterStopping
  repeat' first
    | with_reducible assumption
    | intro _
    | extract_lets
    | with_reducible refine same_ite ?_ ?_
    | with_reducible refine wr_same (Sub.trans (by decide) hl) ?_
    | with_reducible refine warn_same (Sub.trans (by decide) hl) ?_
    | with_reducible refine bump_same (Sub.trans (by decide) hl) ?_
    | fail_if_no_progress with_reducible refine same_upd ?_ (fun p hp => by cases p <;> first | exact absurd (hl.mem (by decide)) hp | exact rfl | exact ⟨rfl, rfl⟩ | exact ⟨rfl, rfl, rfl, rfl⟩)
    | split

theorem flowPulseTimeout_same {σ : State} {π : List Part} {t : Nat} {s : State} (hl : Sub [.win, .link, .ports, .ocl, .power, .mgmt, .now] π) (h_s : Same π σ s) :
    Same π σ (flowPulseTimeout t s) := by
  unfold flowPulseTimeout
  repeat' first
    | with_reducible assumption
    | intro _
    | with_reducible refine same_ite ?_ ?_
    | with_reducible refine enterStopping_same (Sub.trans (by decide) hl) ?_
    | with_reducible refine atTime_same (Sub.trans (by decide) hl) ?_
    | split

theorem execFlowPulseTimeout_same {σ : State} {π : List Part} {t : Nat} {s : State} (hl : Sub [.win, .link, .ports, .ocl, .power, .mgmt, .now] π) (h_s : Same π σ s) :
    ∃ τ, execFlowPulseTimeout t s = .next τ ∧ Same π σ τ := by
  refine ⟨_, rfl, ?_⟩
  repeat' first
    | with_reducible assumption
    | intro _
    | with_reducible refine flowPulseTimeout_same (Sub.trans (by decide) hl) ?_

theorem coolOk_same {σ : State} {π : List Part} {level : Bool} {heldUs : Nat} {t : Nat} {s0 : State} (hl : Sub [.win, .link, .ports, .ocl, .power, .mgmt, .now] π) (h_s0 : Same π σ s0) :
    Same π σ (coolOk level heldUs t s0) := by
  unfold coolOk
  repeat' first
    | with_reducible assumption
    | intro _
    | extract_lets
    | with_reducible refine same_ite ?_ ?_
    | with_reducible refine atTime_same (Sub.trans (by decide) hl) ?_
    | with_reducible refine raise_same (Sub.trans (by decide) hl) ?_
    | with_reducible refine bump_same (Sub.trans (by decide) hl) ?_
    | with_reducible refine wrB_same (Sub.trans (by decide) hl) ?_
    | with_reducible refine enterStopping_same (Sub.trans (by decide) hl) ?_
    | fail_if_no_progress with_reducible refine same_upd ?_ (fun p hp => by cases p <;> first | exact absurd (hl.mem (by decide)) hp | exact rfl | exact ⟨rfl, rfl⟩ | exact ⟨rfl, rfl, rfl, rfl⟩)
    | split

theorem coolantStopped_same {σ : State} {π : List Part} {s : State} (hl : Sub [.win, .stackMem, .sched, .kv, .svc, .ledger, .link, .ports, .ocl] π) (h_s : Same π σ s) :
    Same π σ (coolantStopped s) := by
  unfold coolantStopped
  repeat' first
    | with_reducible assumption
    | intro _
    | extract_lets
    | with_reducible refine same_ite ?_ ?_
    | with_reducible refine forEach_same ?_ ?_
    | with_reducible refine markReplay_same (Sub.trans (by decide) hl) ?_
    | with_reducible refine wr_same (Sub.trans (by decide) hl) ?_
    | with_reducible refine holdFw_same (Sub.trans (by decide) hl) ?_
    | split

theorem execCoolantStopped_same {σ : State} {π : List Part} {s : State} (hl : Sub [.win, .stackMem, .sched, .kv, .svc, .ledger, .link, .ports, .ocl] π) (h_s : Same π σ s) :
    ∃ τ, execCoolantStopped s = .next τ ∧ Same π σ τ := by
  refine ⟨_, rfl, ?_⟩
  repeat' first
    | with_reducible assumption
    | intro _
    | with_reducible refine coolantStopped_same (Sub.trans (by decide) hl) ?_

theorem coolantResume_same {σ : State} {π : List Part} {s : State} (hl : Sub [.win, .cells, .stackMem, .sched, .kv, .svc, .ledger, .tune, .link, .ports, .ocl, .faults, .mgmt] π) (h_s : Same π σ s) :
    Same π σ (coolantResume s) := by
  unfold coolantResume
  repeat' first
    | with_reducible assumption
    | intro _
    | extract_lets
    | with_reducible refine same_ite ?_ ?_
    | with_reducible refine warn_same (Sub.trans (by decide) hl) ?_
    | with_reducible refine wr_same (Sub.trans (by decide) hl) ?_
    | with_reducible refine releaseFw_same (Sub.trans (by decide) hl) ?_
    | with_reducible refine restartImages_same (Sub.trans (by decide) hl) ?_
    | split

theorem execCoolantResume_same {σ : State} {π : List Part} {s : State} (hl : Sub [.win, .cells, .stackMem, .sched, .kv, .svc, .ledger, .tune, .link, .ports, .ocl, .faults, .mgmt] π) (h_s : Same π σ s) :
    ∃ τ, execCoolantResume s = .next τ ∧ Same π σ τ := by
  refine ⟨_, rfl, ?_⟩
  repeat' first
    | with_reducible assumption
    | intro _
    | with_reducible refine coolantResume_same (Sub.trans (by decide) hl) ?_

theorem coolCfgWrite_same {σ : State} {π : List Part} {v : Word} {s : State} (hl : Sub [.win, .link, .ports, .ocl] π) (h_s : Same π σ s) :
    Same π σ (coolCfgWrite v s) := by
  unfold coolCfgWrite
  repeat' first
    | with_reducible assumption
    | intro _
    | extract_lets
    | with_reducible refine same_ite ?_ ?_
    | with_reducible refine raise_same (Sub.trans (by decide) hl) ?_
    | with_reducible refine wr_same (Sub.trans (by decide) hl) ?_
    | split

theorem execCoolCfgWrite_same {σ : State} {π : List Part} {v : Word} {s : State} (hl : Sub [.win, .link, .ports, .ocl] π) (h_s : Same π σ s) :
    ∃ τ, execCoolCfgWrite v s = .next τ ∧ Same π σ τ := by
  refine ⟨_, rfl, ?_⟩
  repeat' first
    | with_reducible assumption
    | intro _
    | with_reducible refine coolCfgWrite_same (Sub.trans (by decide) hl) ?_

theorem history_same {σ : State} {π : List Part} {t : Nat} {s0 : State} (hl : Sub [.power, .boot, .now] π) (h_s0 : Same π σ s0) :
    Same π σ (history t s0) := by
  unfold history
  repeat' first
    | with_reducible assumption
    | intro _
    | extract_lets
    | with_reducible refine same_ite ?_ ?_
    | with_reducible refine atTime_same (Sub.trans (by decide) hl) ?_
    | with_reducible refine journal_same (Sub.trans (by decide) hl) ?_
    | fail_if_no_progress with_reducible refine same_upd ?_ (fun p hp => by cases p <;> first | exact absurd (hl.mem (by decide)) hp | exact rfl | exact ⟨rfl, rfl⟩ | exact ⟨rfl, rfl, rfl, rfl⟩)
    | with_reducible refine foldl_same ?_ ?_
    | split

theorem execHistory_same {σ : State} {π : List Part} {t : Nat} {s : State} (hl : Sub [.power, .boot, .now] π) (h_s : Same π σ s) :
    ∃ τ, execHistory t s = .next τ ∧ Same π σ τ := by
  refine ⟨_, rfl, ?_⟩
  repeat' first
    | with_reducible assumption
    | intro _
    | with_reducible refine history_same (Sub.trans (by decide) hl) ?_

end Sys2Proof.Machine
end

