-- ==== Sys2Proof/Laws/FrameJournal.lean ====
section
/-!
SUPPORT. The parts that may change, for every function of Machine/Journal.lean that changes the state.
-/
set_option Elab.async false
namespace Sys2Proof.Machine
open Sys2Proof

theorem setArea_same {σ : State} {π : List Part} {n : Nat} {a : JArea} {s : State} (hl : Sub [.boot] π) (h_s : Same π σ s) :
    Same π σ (setArea n a s) := by
  unfold setArea
  repeat' first
    | with_reducible assumption
    | intro _
    | with_reducible refine same_ite ?_ ?_
    | fail_if_no_progress with_reducible refine same_upd ?_ (fun p hp => by cases p <;> first | exact absurd (hl.mem (by decide)) hp | exact rfl | exact ⟨rfl, rfl⟩ | exact ⟨rfl, rfl, rfl, rfl⟩)
    | split

theorem showJournal_same {σ : State} {π : List Part} {s : State} (hl : Sub [.win] π) (h_s : Same π σ s) :
    Same π σ (showJournal s) := by
  unfold showJournal
  repeat' first
    | with_reducible assumption
    | intro _
    | extract_lets
    | with_reducible refine wr_same (Sub.trans (by decide) hl) ?_

theorem pressStart_same {σ : State} {π : List Part} {s : State} (hl : Sub [.win, .boot] π) (h_s : Same π σ s) :
    Same π σ (pressStart s) := by
  unfold pressStart
  repeat' first
    | with_reducible assumption
    | intro _
    | extract_lets
    | with_reducible refine same_ite ?_ ?_
    | with_reducible refine wr_same (Sub.trans (by decide) hl) ?_
    | with_reducible refine setArea_same (Sub.trans (by decide) hl) ?_
    | fail_if_no_progress with_reducible refine same_upd ?_ (fun p hp => by cases p <;> first | exact absurd (hl.mem (by decide)) hp | exact rfl | exact ⟨rfl, rfl⟩ | exact ⟨rfl, rfl, rfl, rfl⟩)
    | split

theorem pressComplete_same {σ : State} {π : List Part} {s : State} (hl : Sub [.win, .link, .ports, .ocl, .boot] π) (h_s : Same π σ s) :
    Same π σ (pressComplete s) := by
  unfold pressComplete
  repeat' first
    | with_reducible assumption
    | intro _
    | extract_lets
    | with_reducible refine same_ite ?_ ?_
    | with_reducible refine setArea_same (Sub.trans (by decide) hl) ?_
    | with_reducible refine wr_same (Sub.trans (by decide) hl) ?_
    | with_reducible refine raise_same (Sub.trans (by decide) hl) ?_
    | with_reducible refine showJournal_same (Sub.trans (by decide) hl) ?_
    | fail_if_no_progress with_reducible refine same_upd ?_ (fun p hp => by cases p <;> first | exact absurd (hl.mem (by decide)) hp | exact rfl | exact ⟨rfl, rfl⟩ | exact ⟨rfl, rfl, rfl, rfl⟩)
    | split

theorem execPressComplete_same {σ : State} {π : List Part} {s : State} (hl : Sub [.win, .link, .ports, .ocl, .boot] π) (h_s : Same π σ s) :
    ∃ τ, execPressComplete s = .next τ ∧ Same π σ τ := by
  refine ⟨_, rfl, ?_⟩
  repeat' first
    | with_reducible assumption
    | intro _
    | with_reducible refine pressComplete_same (Sub.trans (by decide) hl) ?_

theorem journalEraseDone_same {σ : State} {π : List Part} {s : State} (hl : Sub [.win, .boot] π) (h_s : Same π σ s) :
    Same π σ (journalEraseDone s) := by
  unfold journalEraseDone
  repeat' first
    | with_reducible assumption
    | intro _
    | extract_lets
    | with_reducible refine same_ite ?_ ?_
    | with_reducible refine pressStart_same (Sub.trans (by decide) hl) ?_
    | with_reducible refine wr_same (Sub.trans (by decide) hl) ?_
    | with_reducible refine setArea_same (Sub.trans (by decide) hl) ?_
    | fail_if_no_progress with_reducible refine same_upd ?_ (fun p hp => by cases p <;> first | exact absurd (hl.mem (by decide)) hp | exact rfl | exact ⟨rfl, rfl⟩ | exact ⟨rfl, rfl, rfl, rfl⟩)
    | split

theorem execJournalEraseDone_same {σ : State} {π : List Part} {s : State} (hl : Sub [.win, .boot] π) (h_s : Same π σ s) :
    ∃ τ, execJournalEraseDone s = .next τ ∧ Same π σ τ := by
  refine ⟨_, rfl, ?_⟩
  repeat' first
    | with_reducible assumption
    | intro _
    | with_reducible refine journalEraseDone_same (Sub.trans (by decide) hl) ?_

theorem durable_same {σ : State} {π : List Part} {p : JPending} {s : State} (hl : Sub [.win, .boot] π) (h_s : Same π σ s) :
    Same π σ (durable p s) := by
  unfold durable
  repeat' first
    | with_reducible assumption
    | intro _
    | extract_lets
    | with_reducible refine same_ite ?_ ?_
    | with_reducible refine start_same (Sub.trans (by decide) hl) ?_
    | with_reducible refine setArea_same (Sub.trans (by decide) hl) ?_
    | with_reducible refine pressStart_same (Sub.trans (by decide) hl) ?_
    | with_reducible refine showJournal_same (Sub.trans (by decide) hl) ?_
    | fail_if_no_progress with_reducible refine same_upd ?_ (fun p hp => by cases p <;> first | exact absurd (hl.mem (by decide)) hp | exact rfl | exact ⟨rfl, rfl⟩ | exact ⟨rfl, rfl, rfl, rfl⟩)
    | split

theorem journalFail_same {σ : State} {π : List Part} {s : State} (hl : Sub [.win, .link, .ports, .ocl, .boot, .mgmt] π) (h_s : Same π σ s) :
    Same π σ (journalFail s) := by
  unfold journalFail
  repeat' first
    | with_reducible assumption
    | intro _
    | with_reducible refine pldm_same (Sub.trans (by decide) hl) ?_
    | with_reducible refine raise_same (Sub.trans (by decide) hl) ?_
    | fail_if_no_progress with_reducible refine same_upd ?_ (fun p hp => by cases p <;> first | exact absurd (hl.mem (by decide)) hp | exact rfl | exact ⟨rfl, rfl⟩ | exact ⟨rfl, rfl, rfl, rfl⟩)

theorem programFailed_same {σ : State} {π : List Part} {type : Nat} {s : State} (hl : Sub [.win, .link, .ports, .ocl, .boot, .mgmt] π) (h_s : Same π σ s) :
    Same π σ (programFailed type s) := by
  unfold programFailed
  repeat' first
    | with_reducible assumption
    | intro _
    | extract_lets
    | with_reducible refine same_ite ?_ ?_
    | with_reducible refine setArea_same (Sub.trans (by decide) hl) ?_
    | with_reducible refine journalFail_same (Sub.trans (by decide) hl) ?_
    | with_reducible refine pressStart_same (Sub.trans (by decide) hl) ?_
    | with_reducible refine showJournal_same (Sub.trans (by decide) hl) ?_
    | split

theorem journalStep_same {σ : State} {π : List Part} {ok : Bool} {s : State} (hl : Sub [.win, .link, .ports, .ocl, .boot, .mgmt] π) (h_s : Same π σ s) :
    Same π σ (journalStep ok s).2 := by
  unfold journalStep
  repeat' first
    | with_reducible assumption
    | intro _
    | extract_lets
    | with_reducible refine same_ite ?_ ?_
    | with_reducible refine journalFail_same (Sub.trans (by decide) hl) ?_
    | with_reducible refine pressStart_same (Sub.trans (by decide) hl) ?_
    | with_reducible refine durable_same (Sub.trans (by decide) hl) ?_
    | with_reducible refine programFailed_same (Sub.trans (by decide) hl) ?_
    | fail_if_no_progress with_reducible refine same_upd ?_ (fun p hp => by cases p <;> first | exact absurd (hl.mem (by decide)) hp | exact rfl | exact ⟨rfl, rfl⟩ | exact ⟨rfl, rfl, rfl, rfl⟩)
    | with_reducible refine same_snd_ite ?_ ?_
    | split
    | dsimp +zetaDelta only

theorem startDurable_same {σ : State} {π : List Part} {d : Option Durable} {s : State} (hl : Sub [.power] π) (h_s : Same π σ s) :
    Same π σ (startDurable d s) := by
  unfold startDurable
  repeat' first
    | with_reducible assumption
    | intro _
    | with_reducible refine same_ite ?_ ?_
    | fail_if_no_progress with_reducible refine same_upd ?_ (fun p hp => by cases p <;> first | exact absurd (hl.mem (by decide)) hp | exact rfl | exact ⟨rfl, rfl⟩ | exact ⟨rfl, rfl, rfl, rfl⟩)
    | split

theorem drainJournal_same {σ : State} {π : List Part} {x0 : Nat} {x1 : State} (hl : Sub [.win, .link, .ports, .ocl, .power, .boot, .mgmt] π) (h_x1 : Same π σ x1) :
    Same π σ (drainJournal x0 x1) := by
  induction x0 generalizing x1 with
  | zero => (unfold drainJournal; repeat' first
      | with_reducible assumption
      | intro _
      | extract_lets
      | with_reducible refine same_ite ?_ ?_
      | with_reducible refine pressComplete_same (Sub.trans (by decide) hl) ?_
      | with_reducible refine pressStart_same (Sub.trans (by decide) hl) ?_
      | with_reducible refine journalStep_same (Sub.trans (by decide) hl) ?_
      | with_reducible refine startDurable_same (Sub.trans (by decide) hl) ?_
      | fail_if_no_progress with_reducible refine same_upd ?_ (fun p hp => by cases p <;> first | exact absurd (hl.mem (by decide)) hp | exact rfl | exact ⟨rfl, rfl⟩ | exact ⟨rfl, rfl, rfl, rfl⟩)
      | split
      | dsimp +zetaDelta only)
  | succ _ ih => (unfold drainJournal; repeat' first
      | with_reducible assumption
      | with_reducible apply ih
      | (injections; subst_vars; with_reducible apply ih)
      | intro _
      | extract_lets
      | with_reducible refine same_ite ?_ ?_
      | with_reducible refine pressComplete_same (Sub.trans (by decide) hl) ?_
      | with_reducible refine pressStart_same (Sub.trans (by decide) hl) ?_
      | with_reducible refine journalStep_same (Sub.trans (by decide) hl) ?_
      | with_reducible refine startDurable_same (Sub.trans (by decide) hl) ?_
      | fail_if_no_progress with_reducible refine same_upd ?_ (fun p hp => by cases p <;> first | exact absurd (hl.mem (by decide)) hp | exact rfl | exact ⟨rfl, rfl⟩ | exact ⟨rfl, rfl, rfl, rfl⟩)
      | split
      | dsimp +zetaDelta only)

theorem writeWaiting_same {σ : State} {π : List Part} {s : State} (hl : Sub [.win, .link, .ports, .ocl, .power, .boot, .mgmt] π) (h_s : Same π σ s) :
    Same π σ (writeWaiting s) := by
  unfold writeWaiting
  repeat' first
    | with_reducible assumption
    | intro _
    | with_reducible refine drainJournal_same (Sub.trans (by decide) hl) ?_

theorem journalNow_same {σ : State} {π : List Part} {type : Nat} {payload : List Nat} {s : State} (hl : Sub [.win, .link, .ports, .ocl, .power, .boot, .mgmt] π) (h_s : Same π σ s) :
    Same π σ (journalNow type payload s) := by
  unfold journalNow
  repeat' first
    | with_reducible assumption
    | intro _
    | with_reducible refine writeWaiting_same (Sub.trans (by decide) hl) ?_
    | with_reducible refine journal_same (Sub.trans (by decide) hl) ?_

end Sys2Proof.Machine
end

