-- ==== Sys2Proof/Laws/FrameSecurity.lean ====
section
/-!
SUPPORT. The parts that may change, for every function of Machine/Security.lean that changes the state.
-/
set_option Elab.async false
namespace Sys2Proof.Machine
open Sys2Proof

theorem mbxWait_same {σ : State} {π : List Part} {w : MbxWait} {s : State} (hl : Sub [.win, .sec] π) (h_s : Same π σ s) :
    Same π σ (mbxWait w s) := by
  unfold mbxWait
  repeat' first
    | with_reducible assumption
    | intro _
    | with_reducible refine wr_same (Sub.trans (by decide) hl) ?_
    | fail_if_no_progress with_reducible refine same_upd ?_ (fun p hp => by cases p <;> first | exact absurd (hl.mem (by decide)) hp | exact rfl | exact ⟨rfl, rfl⟩ | exact ⟨rfl, rfl, rfl, rfl⟩)

theorem mbxDone_same {σ : State} {π : List Part} {n : Nat} {s : State} (hl : Sub [.win, .link, .ports, .ocl, .sec] π) (h_s : Same π σ s) :
    Same π σ (mbxDone n s) := by
  unfold mbxDone
  repeat' first
    | with_reducible assumption
    | intro _
    | with_reducible refine raise_same (Sub.trans (by decide) hl) ?_
    | with_reducible refine wr_same (Sub.trans (by decide) hl) ?_
    | fail_if_no_progress with_reducible refine same_upd ?_ (fun p hp => by cases p <;> first | exact absurd (hl.mem (by decide)) hp | exact rfl | exact ⟨rfl, rfl⟩ | exact ⟨rfl, rfl, rfl, rfl⟩)

theorem mbxFail_same {σ : State} {π : List Part} {code : Nat} {s : State} (hl : Sub [.win, .link, .ports, .ocl, .sec] π) (h_s : Same π σ s) :
    Same π σ (mbxFail code s) := by
  unfold mbxFail
  repeat' first
    | with_reducible assumption
    | intro _
    | with_reducible refine raise_same (Sub.trans (by decide) hl) ?_
    | with_reducible refine wr_same (Sub.trans (by decide) hl) ?_
    | fail_if_no_progress with_reducible refine same_upd ?_ (fun p hp => by cases p <;> first | exact absurd (hl.mem (by decide)) hp | exact rfl | exact ⟨rfl, rfl⟩ | exact ⟨rfl, rfl, rfl, rfl⟩)

theorem mbxCommand_same {σ : State} {π : List Part} {op : Nat} {act : State → State} {s : State} (hl : Sub [.win, .link, .ports, .ocl] π) (h_act : ∀ y0, Same π σ y0 → Same π σ (act y0)) (h_s : Same π σ s) :
    Same π σ (mbxCommand op act s) := by
  unfold mbxCommand
  repeat' first
    | with_reducible assumption
    | with_reducible apply h_act
    | intro _
    | extract_lets
    | with_reducible refine same_ite ?_ ?_
    | with_reducible refine wr_same (Sub.trans (by decide) hl) ?_
    | with_reducible refine raise_same (Sub.trans (by decide) hl) ?_
    | split

theorem mbxWrite_same {σ : State} {π : List Part} {a : Nat} {bs : List Byte} {s : State} (hl : Sub [.sec] π) (h_s : Same π σ s) :
    Same π σ (mbxWrite a bs s) := by
  unfold mbxWrite
  repeat' first
    | with_reducible assumption
    | intro _
    | fail_if_no_progress with_reducible refine same_upd ?_ (fun p hp => by cases p <;> first | exact absurd (hl.mem (by decide)) hp | exact rfl | exact ⟨rfl, rfl⟩ | exact ⟨rfl, rfl, rfl, rfl⟩)

theorem showIdentity_same {σ : State} {π : List Part} {s : State} (hl : Sub [.win] π) (h_s : Same π σ s) :
    Same π σ (showIdentity s) := by
  unfold showIdentity
  repeat' first
    | with_reducible assumption
    | intro _
    | with_reducible refine wr_same (Sub.trans (by decide) hl) ?_

theorem reserve_same {σ : State} {π : List Part} {tree : Nat} {first : Nat} {s : State} (hl : Sub [.boot] π) (h_s : Same π σ s) :
    Same π σ (reserve tree first s) := by
  unfold reserve
  repeat' first
    | with_reducible assumption
    | intro _
    | with_reducible refine same_ite ?_ ?_
    | with_reducible refine journal_same (Sub.trans (by decide) hl) ?_
    | split

theorem warnTop_same {σ : State} {π : List Part} {s : State} (hl : Sub [.win, .link, .ports, .ocl] π) (h_s : Same π σ s) :
    Same π σ (warnTop s) := by
  unfold warnTop
  repeat' first
    | with_reducible assumption
    | intro _
    | with_reducible refine when_same ?_ ?_
    | with_reducible refine raise_same (Sub.trans (by decide) hl) ?_

theorem openLower_same {σ : State} {π : List Part} {s : State} (hl : Sub [.win, .link, .ports, .ocl, .boot, .sec] π) (h_s : Same π σ s) :
    Same π σ (openLower s) := by
  unfold openLower
  repeat' first
    | with_reducible assumption
    | intro _
    | with_reducible refine same_ite ?_ ?_
    | with_reducible refine warnTop_same (Sub.trans (by decide) hl) ?_
    | with_reducible refine reserve_same (Sub.trans (by decide) hl) ?_
    | fail_if_no_progress with_reducible refine same_upd ?_ (fun p hp => by cases p <;> first | exact absurd (hl.mem (by decide)) hp | exact rfl | exact ⟨rfl, rfl⟩ | exact ⟨rfl, rfl, rfl, rfl⟩)
    | split

theorem switchLower_same {σ : State} {π : List Part} {s : State} (hl : Sub [.sec] π) (h_s : Same π σ s) :
    Same π σ (switchLower s) := by
  unfold switchLower
  repeat' first
    | with_reducible assumption
    | intro _
    | fail_if_no_progress with_reducible refine same_upd ?_ (fun p hp => by cases p <;> first | exact absurd (hl.mem (by decide)) hp | exact rfl | exact ⟨rfl, rfl⟩ | exact ⟨rfl, rfl, rfl, rfl⟩)
    | split

theorem settleTrees_same {σ : State} {π : List Part} {s : State} (hl : Sub [.win, .link, .ports, .ocl, .boot, .sec] π) (h_s : Same π σ s) :
    Same π σ (settleTrees s) := by
  unfold settleTrees
  repeat' first
    | with_reducible assumption
    | intro _
    | extract_lets
    | with_reducible refine same_ite ?_ ?_
    | with_reducible refine switchLower_same (Sub.trans (by decide) hl) ?_
    | with_reducible refine openLower_same (Sub.trans (by decide) hl) ?_
    | with_reducible refine showIdentity_same (Sub.trans (by decide) hl) ?_
    | split

theorem askIndex_same {σ : State} {π : List Part} {s : State} (hl : Sub [.boot] π) (h_s : Same π σ s) :
    Same π σ (askIndex s) := by
  unfold askIndex
  repeat' first
    | with_reducible assumption
    | intro _
    | with_reducible refine same_ite ?_ ?_
    | with_reducible refine reserve_same (Sub.trans (by decide) hl) ?_
    | split

theorem sign_same {σ : State} {π : List Part} {msg : List Byte} {s : State} (hl : Sub [.win, .link, .ports, .ocl, .boot, .sec] π) (h_s : Same π σ s) :
    Same π σ (sign msg s).2 := by
  unfold sign
  repeat' first
    | with_reducible assumption
    | intro _
    | extract_lets
    | with_reducible refine settleTrees_same (Sub.trans (by decide) hl) ?_
    | fail_if_no_progress with_reducible refine same_upd ?_ (fun p hp => by cases p <;> first | exact absurd (hl.mem (by decide)) hp | exact rfl | exact ⟨rfl, rfl⟩ | exact ⟨rfl, rfl, rfl, rfl⟩)
    | with_reducible refine same_snd_ite ?_ ?_

theorem signing_same {σ : State} {π : List Part} {w : MbxWait} {act : State → State} {s : State} (hl : Sub [.win, .link, .ports, .ocl, .boot, .sec] π) (h_act : ∀ y0, Same π σ y0 → Same π σ (act y0)) (h_s : Same π σ s) :
    Same π σ (signing w act s) := by
  unfold signing
  repeat' first
    | with_reducible assumption
    | with_reducible apply h_act
    | intro _
    | with_reducible refine askIndex_same (Sub.trans (by decide) hl) ?_
    | with_reducible refine mbxWait_same (Sub.trans (by decide) hl) ?_
    | with_reducible refine mbxFail_same (Sub.trans (by decide) hl) ?_
    | with_reducible refine raise_same (Sub.trans (by decide) hl) ?_
    | fail_if_no_progress with_reducible refine same_upd ?_ (fun p hp => by cases p <;> first | exact absurd (hl.mem (by decide)) hp | exact rfl | exact ⟨rfl, rfl⟩ | exact ⟨rfl, rfl, rfl, rfl⟩)
    | split

theorem writeLines_same {σ : State} {π : List Part} {x0 : Nat} {x1 : Nat} {x2 : List Byte} {x3 : State} (hl : Sub [.win, .link, .ports, .ocl] π) (h_x3 : Same π σ x3) :
    Same π σ (writeLines x0 x1 x2 x3) := by
  induction x0 generalizing x1 x2 x3 with
  | zero => (unfold writeLines; repeat' first
      | with_reducible assumption
      | intro _
      | extract_lets
      | with_reducible refine same_ite ?_ ?_
      | with_reducible refine sendWr_same (Sub.trans (by decide) hl) ?_
      | split)
  | succ _ ih => (unfold writeLines; repeat' first
      | with_reducible assumption
      | with_reducible apply ih
      | (injections; subst_vars; with_reducible apply ih)
      | intro _
      | extract_lets
      | with_reducible refine same_ite ?_ ?_
      | with_reducible refine sendWr_same (Sub.trans (by decide) hl) ?_
      | split)

theorem attestNow_same {σ : State} {π : List Part} {s : State} (hl : Sub [.win, .link, .ports, .ocl, .boot, .sec] π) (h_s : Same π σ s) :
    Same π σ (attestNow s) := by
  unfold attestNow
  repeat' first
    | with_reducible assumption
    | intro _
    | extract_lets
    | with_reducible refine sign_same (Sub.trans (by decide) hl) ?_
    | with_reducible refine mbxDone_same (Sub.trans (by decide) hl) ?_
    | with_reducible refine raise_same (Sub.trans (by decide) hl) ?_
    | with_reducible refine writeLines_same (Sub.trans (by decide) hl) ?_

theorem attest_same {σ : State} {π : List Part} {s : State} (hl : Sub [.win, .link, .ports, .ocl, .boot, .sec] π) (h_s : Same π σ s) :
    Same π σ (attest s) := by
  unfold attest
  repeat' first
    | with_reducible assumption
    | intro _
    | with_reducible refine same_ite ?_ ?_
    | with_reducible refine mbxFail_same (Sub.trans (by decide) hl) ?_
    | with_reducible refine signing_same (Sub.trans (by decide) hl) ?_ ?_
    | with_reducible refine attestNow_same (Sub.trans (by decide) hl) ?_
    | split

theorem execAttest_same {σ : State} {π : List Part} {s : State} (hl : Sub [.win, .link, .ports, .ocl, .boot, .sec] π) (h_s : Same π σ s) :
    ∃ τ, execAttest s = .next τ ∧ Same π σ τ := by
  refine ⟨_, rfl, ?_⟩
  repeat' first
    | with_reducible assumption
    | intro _
    | with_reducible refine mbxCommand_same (Sub.trans (by decide) hl) ?_ ?_
    | with_reducible refine attest_same (Sub.trans (by decide) hl) ?_

theorem dropKem_same {σ : State} {π : List Part} {s : State} (hl : Sub [.sec] π) (h_s : Same π σ s) :
    Same π σ (dropKem s) := by
  unfold dropKem
  repeat' first
    | with_reducible assumption
    | intro _
    | fail_if_no_progress with_reducible refine same_upd ?_ (fun p hp => by cases p <;> first | exact absurd (hl.mem (by decide)) hp | exact rfl | exact ⟨rfl, rfl⟩ | exact ⟨rfl, rfl, rfl, rfl⟩)

theorem kemStartNow_same {σ : State} {π : List Part} {s : State} (hl : Sub [.win, .link, .ports, .ocl, .boot, .sec] π) (h_s : Same π σ s) :
    Same π σ (kemStartNow s) := by
  unfold kemStartNow
  repeat' first
    | with_reducible assumption
    | intro _
    | extract_lets
    | with_reducible refine sign_same (Sub.trans (by decide) hl) ?_
    | with_reducible refine mbxDone_same (Sub.trans (by decide) hl) ?_
    | with_reducible refine mbxWrite_same (Sub.trans (by decide) hl) ?_
    | fail_if_no_progress with_reducible refine same_upd ?_ (fun p hp => by cases p <;> first | exact absurd (hl.mem (by decide)) hp | exact rfl | exact ⟨rfl, rfl⟩ | exact ⟨rfl, rfl, rfl, rfl⟩)

theorem kemStart_same {σ : State} {π : List Part} {s : State} (hl : Sub [.win, .link, .ports, .ocl, .boot, .sec] π) (h_s : Same π σ s) :
    Same π σ (kemStart s) := by
  unfold kemStart
  repeat' first
    | with_reducible assumption
    | intro _
    | extract_lets
    | with_reducible refine same_ite ?_ ?_
    | with_reducible refine dropKem_same (Sub.trans (by decide) hl) ?_
    | with_reducible refine mbxFail_same (Sub.trans (by decide) hl) ?_
    | with_reducible refine signing_same (Sub.trans (by decide) hl) ?_ ?_
    | with_reducible refine kemStartNow_same (Sub.trans (by decide) hl) ?_
    | split

theorem execKemStart_same {σ : State} {π : List Part} {s : State} (hl : Sub [.win, .link, .ports, .ocl, .boot, .sec] π) (h_s : Same π σ s) :
    ∃ τ, execKemStart s = .next τ ∧ Same π σ τ := by
  refine ⟨_, rfl, ?_⟩
  repeat' first
    | with_reducible assumption
    | intro _
    | with_reducible refine mbxCommand_same (Sub.trans (by decide) hl) ?_ ?_
    | with_reducible refine kemStart_same (Sub.trans (by decide) hl) ?_

theorem installKeys_same {σ : State} {π : List Part} {ss : Nat} {h : Nat} {e : Nat} {s : State} (hl : Sub [.win, .link, .ports, .ocl, .sec] π) (h_s : Same π σ s) :
    Same π σ (installKeys ss h e s) := by
  unfold installKeys
  repeat' first
    | with_reducible assumption
    | intro _
    | extract_lets
    | with_reducible refine same_ite ?_ ?_
    | with_reducible refine raise_same (Sub.trans (by decide) hl) ?_
    | with_reducible refine wr_same (Sub.trans (by decide) hl) ?_
    | fail_if_no_progress with_reducible refine same_upd ?_ (fun p hp => by cases p <;> first | exact absurd (hl.mem (by decide)) hp | exact rfl | exact ⟨rfl, rfl⟩ | exact ⟨rfl, rfl, rfl, rfl⟩)
    | split

theorem kemFinish_same {σ : State} {π : List Part} {s : State} (hl : Sub [.win, .link, .ports, .ocl, .sec] π) (h_s : Same π σ s) :
    Same π σ (kemFinish s).2 := by
  unfold kemFinish
  repeat' first
    | with_reducible assumption
    | intro _
    | extract_lets
    | with_reducible refine same_ite ?_ ?_
    | with_reducible refine mbxFail_same (Sub.trans (by decide) hl) ?_
    | with_reducible refine dropKem_same (Sub.trans (by decide) hl) ?_
    | with_reducible refine mbxDone_same (Sub.trans (by decide) hl) ?_
    | with_reducible refine mbxWrite_same (Sub.trans (by decide) hl) ?_
    | with_reducible refine installKeys_same (Sub.trans (by decide) hl) ?_
    | fail_if_no_progress with_reducible refine same_upd ?_ (fun p hp => by cases p <;> first | exact absurd (hl.mem (by decide)) hp | exact rfl | exact ⟨rfl, rfl⟩ | exact ⟨rfl, rfl, rfl, rfl⟩)
    | with_reducible refine same_snd_ite ?_ ?_
    | split
    | dsimp +zetaDelta only

theorem kemSwitch_same {σ : State} {π : List Part} {s : State} (hl : Sub [.win, .link, .ports, .ocl, .sec] π) (h_s : Same π σ s) :
    Same π σ (kemSwitch s) := by
  unfold kemSwitch
  repeat' first
    | with_reducible assumption
    | intro _
    | extract_lets
    | with_reducible refine same_ite ?_ ?_
    | with_reducible refine mbxFail_same (Sub.trans (by decide) hl) ?_
    | with_reducible refine wr_same (Sub.trans (by decide) hl) ?_
    | with_reducible refine pump_same (Sub.trans (by decide) hl) ?_
    | with_reducible refine mbxDone_same (Sub.trans (by decide) hl) ?_
    | fail_if_no_progress with_reducible refine same_upd ?_ (fun p hp => by cases p <;> first | exact absurd (hl.mem (by decide)) hp | exact rfl | exact ⟨rfl, rfl⟩ | exact ⟨rfl, rfl, rfl, rfl⟩)
    | split

theorem execKemSwitch_same {σ : State} {π : List Part} {s : State} (hl : Sub [.win, .link, .ports, .ocl, .sec] π) (h_s : Same π σ s) :
    ∃ τ, execKemSwitch s = .next τ ∧ Same π σ τ := by
  refine ⟨_, rfl, ?_⟩
  repeat' first
    | with_reducible assumption
    | intro _
    | with_reducible refine mbxCommand_same (Sub.trans (by decide) hl) ?_ ?_
    | with_reducible refine kemSwitch_same (Sub.trans (by decide) hl) ?_

theorem execKemKeyExpiry_same {σ : State} {π : List Part} {s : State} (hl : Sub [.sec] π) (h_s : Same π σ s) :
    ∃ τ, execKemKeyExpiry s = .next τ ∧ Same π σ τ := by
  refine ⟨_, rfl, ?_⟩
  repeat' first
    | with_reducible assumption
    | intro _
    | with_reducible refine dropKem_same (Sub.trans (by decide) hl) ?_

theorem identity_same {σ : State} {π : List Part} {s : State} (hl : Sub [.win, .link, .ports, .ocl, .sec] π) (h_s : Same π σ s) :
    Same π σ (identity s) := by
  unfold identity
  repeat' first
    | with_reducible assumption
    | intro _
    | with_reducible refine mbxDone_same (Sub.trans (by decide) hl) ?_
    | with_reducible refine mbxWrite_same (Sub.trans (by decide) hl) ?_

theorem execIdentity_same {σ : State} {π : List Part} {s : State} (hl : Sub [.win, .link, .ports, .ocl, .sec] π) (h_s : Same π σ s) :
    ∃ τ, execIdentity s = .next τ ∧ Same π σ τ := by
  refine ⟨_, rfl, ?_⟩
  repeat' first
    | with_reducible assumption
    | intro _
    | with_reducible refine mbxCommand_same (Sub.trans (by decide) hl) ?_ ?_
    | with_reducible refine identity_same (Sub.trans (by decide) hl) ?_

theorem svnCommit_same {σ : State} {π : List Part} {s : State} (hl : Sub [.win, .link, .ports, .ocl, .fuses, .sec] π) (h_s : Same π σ s) :
    Same π σ (svnCommit s) := by
  unfold svnCommit
  repeat' first
    | with_reducible assumption
    | intro _
    | with_reducible refine same_ite ?_ ?_
    | with_reducible refine mbxFail_same (Sub.trans (by decide) hl) ?_
    | with_reducible refine mbxDone_same (Sub.trans (by decide) hl) ?_
    | with_reducible refine raise_same (Sub.trans (by decide) hl) ?_
    | fail_if_no_progress with_reducible refine same_upd ?_ (fun p hp => by cases p <;> first | exact absurd (hl.mem (by decide)) hp | exact rfl | exact ⟨rfl, rfl⟩ | exact ⟨rfl, rfl, rfl, rfl⟩)
    | split

theorem execSvnCommit_same {σ : State} {π : List Part} {s : State} (hl : Sub [.win, .link, .ports, .ocl, .fuses, .sec] π) (h_s : Same π σ s) :
    ∃ τ, execSvnCommit s = .next τ ∧ Same π σ τ := by
  refine ⟨_, rfl, ?_⟩
  repeat' first
    | with_reducible assumption
    | intro _
    | with_reducible refine mbxCommand_same (Sub.trans (by decide) hl) ?_ ?_
    | with_reducible refine svnCommit_same (Sub.trans (by decide) hl) ?_

theorem resumeSigning_same {σ : State} {π : List Part} {s : State} (hl : Sub [.win, .link, .ports, .ocl, .boot, .sec] π) (h_s : Same π σ s) :
    Same π σ (resumeSigning s) := by
  unfold resumeSigning
  repeat' first
    | with_reducible assumption
    | intro _
    | with_reducible refine attest_same (Sub.trans (by decide) hl) ?_
    | with_reducible refine signing_same (Sub.trans (by decide) hl) ?_ ?_
    | with_reducible refine attestNow_same (Sub.trans (by decide) hl) ?_
    | with_reducible refine kemStart_same (Sub.trans (by decide) hl) ?_
    | with_reducible refine kemStartNow_same (Sub.trans (by decide) hl) ?_
    | fail_if_no_progress with_reducible refine same_upd ?_ (fun p hp => by cases p <;> first | exact absurd (hl.mem (by decide)) hp | exact rfl | exact ⟨rfl, rfl⟩ | exact ⟨rfl, rfl, rfl, rfl⟩)
    | split

theorem identityBuilt_same {σ : State} {π : List Part} {s : State} (hl : Sub [.win, .link, .ports, .ocl, .boot, .sec] π) (h_s : Same π σ s) :
    Same π σ (identityBuilt s) := by
  unfold identityBuilt
  repeat' first
    | with_reducible assumption
    | intro _
    | with_reducible refine same_ite ?_ ?_
    | with_reducible refine resumeSigning_same (Sub.trans (by decide) hl) ?_
    | with_reducible refine wr_same (Sub.trans (by decide) hl) ?_
    | with_reducible refine settleTrees_same (Sub.trans (by decide) hl) ?_
    | split

theorem execIdentityBuilt_same {σ : State} {π : List Part} {s : State} (hl : Sub [.win, .link, .ports, .ocl, .boot, .sec] π) (h_s : Same π σ s) :
    ∃ τ, execIdentityBuilt s = .next τ ∧ Same π σ τ := by
  refine ⟨_, rfl, ?_⟩
  repeat' first
    | with_reducible assumption
    | intro _
    | with_reducible refine identityBuilt_same (Sub.trans (by decide) hl) ?_

theorem lmsDurable_same {σ : State} {π : List Part} {tree : Nat} {s : State} (hl : Sub [.win, .link, .ports, .ocl, .boot, .sec] π) (h_s : Same π σ s) :
    Same π σ (lmsDurable tree s) := by
  unfold lmsDurable
  repeat' first
    | with_reducible assumption
    | intro _
    | extract_lets
    | with_reducible refine same_ite ?_ ?_
    | with_reducible refine openLower_same (Sub.trans (by decide) hl) ?_
    | with_reducible refine resumeSigning_same (Sub.trans (by decide) hl) ?_
    | with_reducible refine settleTrees_same (Sub.trans (by decide) hl) ?_
    | fail_if_no_progress with_reducible refine same_upd ?_ (fun p hp => by cases p <;> first | exact absurd (hl.mem (by decide)) hp | exact rfl | exact ⟨rfl, rfl⟩ | exact ⟨rfl, rfl, rfl, rfl⟩)
    | split

theorem startIdentity_same {σ : State} {π : List Part} {s : State} (hl : Sub [.win, .link, .ports, .ocl, .boot, .sec] π) (h_s : Same π σ s) :
    Same π σ (startIdentity s) := by
  unfold startIdentity
  repeat' first
    | with_reducible assumption
    | intro _
    | extract_lets
    | with_reducible refine same_ite ?_ ?_
    | with_reducible refine settleTrees_same (Sub.trans (by decide) hl) ?_
    | with_reducible refine warnTop_same (Sub.trans (by decide) hl) ?_
    | with_reducible refine wr_same (Sub.trans (by decide) hl) ?_
    | fail_if_no_progress with_reducible refine same_upd ?_ (fun p hp => by cases p <;> first | exact absurd (hl.mem (by decide)) hp | exact rfl | exact ⟨rfl, rfl⟩ | exact ⟨rfl, rfl, rfl, rfl⟩)
    | with_reducible refine foldl_same ?_ ?_
    | split

theorem zeroMemory_same {σ : State} {π : List Part} {s : State} (hl : Sub [.cells, .cellMem, .stackMem] π) (h_s : Same π σ s) :
    Same π σ (zeroMemory s) := by
  unfold zeroMemory
  repeat' first
    | with_reducible assumption
    | intro _
    | extract_lets
    | fail_if_no_progress with_reducible refine same_upd ?_ (fun p hp => by cases p <;> first | exact absurd (hl.mem (by decide)) hp | exact rfl | exact ⟨rfl, rfl⟩ | exact ⟨rfl, rfl, rfl, rfl⟩)

theorem leavePair_same {σ : State} {π : List Part} {s : State} (hl : Sub [.win, .stackMem, .kv, .svc, .ledger, .link, .ports, .ocl, .pair] π) (h_s : Same π σ s) :
    Same π σ (leavePair s) := by
  unfold leavePair
  repeat' first
    | with_reducible assumption
    | intro _
    | extract_lets
    | with_reducible refine same_ite ?_ ?_
    | with_reducible refine setPairSt_same (Sub.trans (by decide) hl) ?_
    | with_reducible refine sendEveryPort_same (Sub.trans (by decide) hl) ?_
    | with_reducible refine endSplit_same (Sub.trans (by decide) hl) ?_
    | with_reducible refine leaveSplit_same (Sub.trans (by decide) hl) ?_
    | with_reducible refine discardMirror_same (Sub.trans (by decide) hl) ?_
    | with_reducible refine leavePrimary_same (Sub.trans (by decide) hl) ?_
    | fail_if_no_progress with_reducible refine same_upd ?_ (fun p hp => by cases p <;> first | exact absurd (hl.mem (by decide)) hp | exact rfl | exact ⟨rfl, rfl⟩ | exact ⟨rfl, rfl, rfl, rfl⟩)
    | split

theorem forceFree_same {σ : State} {π : List Part} {m : Nat} {s : State} (hl : Sub [.win, .cells, .cellMem, .stackMem, .prec, .sched, .kv, .svc, .ledger, .link, .ports, .ocl, .pair] π) (h_s : Same π σ s) :
    Same π σ (forceFree m s) := by
  unfold forceFree
  repeat' first
    | with_reducible assumption
    | intro _
    | extract_lets
    | with_reducible refine same_ite ?_ ?_
    | with_reducible refine forEach_same ?_ ?_
    | with_reducible refine abandonStep_same (Sub.trans (by decide) hl) ?_
    | with_reducible refine endLoading_same (Sub.trans (by decide) hl) ?_
    | with_reducible refine endReceive_same (Sub.trans (by decide) hl) ?_
    | with_reducible refine abandonCheck_same (Sub.trans (by decide) hl) ?_
    | with_reducible refine endRequest_same (Sub.trans (by decide) hl) ?_
    | with_reducible refine putCmdDone_same (Sub.trans (by decide) hl) ?_
    | with_reducible refine freeSlot_same (Sub.trans (by decide) hl) ?_
    | split

theorem forceFreeAll_same {σ : State} {π : List Part} {s : State} (hl : Sub [.win, .cells, .cellMem, .stackMem, .prec, .sched, .kv, .svc, .ledger, .link, .ports, .ocl, .pair] π) (h_s : Same π σ s) :
    Same π σ (forceFreeAll s) := by
  unfold forceFreeAll
  repeat' first
    | with_reducible assumption
    | intro _
    | extract_lets
    | with_reducible refine forEach_same ?_ ?_
    | with_reducible refine forceFree_same (Sub.trans (by decide) hl) ?_
    | with_reducible refine putCmdDone_same (Sub.trans (by decide) hl) ?_
    | fail_if_no_progress with_reducible refine same_upd ?_ (fun p hp => by cases p <;> first | exact absurd (hl.mem (by decide)) hp | exact rfl | exact ⟨rfl, rfl⟩ | exact ⟨rfl, rfl, rfl, rfl⟩)
    | split
    | dsimp +zetaDelta only

theorem zeroRecords_same {σ : State} {π : List Part} {s : State} (hl : Sub [.win, .kv, .ledger, .ocl, .pair, .sec] π) (h_s : Same π σ s) :
    Same π σ (zeroRecords s) := by
  unfold zeroRecords
  repeat' first
    | with_reducible assumption
    | intro _
    | extract_lets
    | with_reducible refine dropKem_same (Sub.trans (by decide) hl) ?_
    | with_reducible refine wr_same (Sub.trans (by decide) hl) ?_
    | fail_if_no_progress with_reducible refine same_upd ?_ (fun p hp => by cases p <;> first | exact absurd (hl.mem (by decide)) hp | exact rfl | exact ⟨rfl, rfl⟩ | exact ⟨rfl, rfl, rfl, rfl⟩)

theorem zeroBegin_same {σ : State} {π : List Part} {mgmt : Bool} {s : State} (hl : Sub [.win, .sec] π) (h_s : Same π σ s) :
    Same π σ (zeroBegin mgmt s) := by
  unfold zeroBegin
  repeat' first
    | with_reducible assumption
    | intro _
    | with_reducible refine mbxWait_same (Sub.trans (by decide) hl) ?_
    | with_reducible refine zeroise_same (Sub.trans (by decide) hl) ?_
    | with_reducible refine wr_same (Sub.trans (by decide) hl) ?_
    | with_reducible refine dropKem_same (Sub.trans (by decide) hl) ?_

theorem zeroEnd_same {σ : State} {π : List Part} {mgmt : Bool} {s : State} (hl : Sub [.win, .link, .ports, .ocl, .sec, .mgmt] π) (h_s : Same π σ s) :
    Same π σ (zeroEnd mgmt s) := by
  unfold zeroEnd
  repeat' first
    | with_reducible assumption
    | intro _
    | extract_lets
    | with_reducible refine mbxDone_same (Sub.trans (by decide) hl) ?_
    | with_reducible refine wr_same (Sub.trans (by decide) hl) ?_
    | with_reducible refine when_same ?_ ?_
    | with_reducible refine pldm_same (Sub.trans (by decide) hl) ?_

theorem zeroReady_same {σ : State} {π : List Part} {mgmt : Bool} {s : State} (hl : Sub [.win, .cells, .cellMem, .stackMem, .prec, .sched, .kv, .svc, .ledger, .tune, .link, .ports, .ocl, .pair, .faults, .sec] π) (h_s : Same π σ s) :
    Same π σ (zeroReady mgmt s) := by
  unfold zeroReady
  repeat' first
    | with_reducible assumption
    | intro _
    | extract_lets
    | with_reducible refine wr_same (Sub.trans (by decide) hl) ?_
    | with_reducible refine holdFw_same (Sub.trans (by decide) hl) ?_
    | with_reducible refine zeroBegin_same (Sub.trans (by decide) hl) ?_
    | with_reducible refine leavePair_same (Sub.trans (by decide) hl) ?_
    | with_reducible refine tuneEvict_same (Sub.trans (by decide) hl) ?_
    | with_reducible refine modJob_same (Sub.trans (by decide) hl) ?_
    | with_reducible refine forceFreeAll_same (Sub.trans (by decide) hl) ?_
    | with_reducible refine zeroRecords_same (Sub.trans (by decide) hl) ?_
    | with_reducible refine zeroMemory_same (Sub.trans (by decide) hl) ?_
    | fail_if_no_progress with_reducible refine same_upd ?_ (fun p hp => by cases p <;> first | exact absurd (hl.mem (by decide)) hp | exact rfl | exact ⟨rfl, rfl⟩ | exact ⟨rfl, rfl, rfl, rfl⟩)

theorem zeroise_same {σ : State} {π : List Part} {mgmt : Bool} {s : State} (hl : Sub [.win, .cells, .cellMem, .stackMem, .prec, .sched, .kv, .svc, .ledger, .tune, .link, .ports, .ocl, .pair, .faults, .sec, .mgmt] π) (h_s : Same π σ s) :
    Same π σ (zeroise mgmt s) := by
  unfold zeroise
  repeat' first
    | with_reducible assumption
    | intro _
    | with_reducible refine same_ite ?_ ?_
    | with_reducible refine mbxFail_same (Sub.trans (by decide) hl) ?_
    | with_reducible refine zeroReady_same (Sub.trans (by decide) hl) ?_
    | with_reducible refine zeroMemory_same (Sub.trans (by decide) hl) ?_
    | with_reducible refine zeroBegin_same (Sub.trans (by decide) hl) ?_
    | with_reducible refine zeroEnd_same (Sub.trans (by decide) hl) ?_
    | with_reducible refine dropKem_same (Sub.trans (by decide) hl) ?_
    | fail_if_no_progress with_reducible refine same_upd ?_ (fun p hp => by cases p <;> first | exact absurd (hl.mem (by decide)) hp | exact rfl | exact ⟨rfl, rfl⟩ | exact ⟨rfl, rfl, rfl, rfl⟩)
    | split

theorem execZeroise_same {σ : State} {π : List Part} {mgmt : Bool} {s : State} (hl : Sub [.win, .cells, .cellMem, .stackMem, .prec, .sched, .kv, .svc, .ledger, .tune, .link, .ports, .ocl, .pair, .faults, .sec, .mgmt] π) (h_s : Same π σ s) :
    ∃ τ, execZeroise mgmt s = .next τ ∧ Same π σ τ := by
  refine ⟨_, rfl, ?_⟩
  repeat' first
    | with_reducible assumption
    | intro _
    | with_reducible refine mbxCommand_same (Sub.trans (by decide) hl) ?_ ?_
    | with_reducible refine zeroise_same (Sub.trans (by decide) hl) ?_

theorem zeroiseDone_same {σ : State} {π : List Part} {s : State} (hl : Sub [.win, .cells, .cellMem, .stackMem, .prec, .sched, .kv, .svc, .ledger, .tune, .link, .ports, .ocl, .pair, .faults, .sec, .mgmt] π) (h_s : Same π σ s) :
    Same π σ (zeroiseDone s) := by
  unfold zeroiseDone
  repeat' first
    | with_reducible assumption
    | intro _
    | extract_lets
    | with_reducible refine zeroise_same (Sub.trans (by decide) hl) ?_
    | with_reducible refine releaseFw_same (Sub.trans (by decide) hl) ?_
    | with_reducible refine raise_same (Sub.trans (by decide) hl) ?_
    | with_reducible refine zeroEnd_same (Sub.trans (by decide) hl) ?_
    | with_reducible refine when_same ?_ ?_
    | fail_if_no_progress with_reducible refine same_upd ?_ (fun p hp => by cases p <;> first | exact absurd (hl.mem (by decide)) hp | exact rfl | exact ⟨rfl, rfl⟩ | exact ⟨rfl, rfl, rfl, rfl⟩)
    | split
    | dsimp +zetaDelta only

theorem execZeroiseDone_same {σ : State} {π : List Part} {s : State} (hl : Sub [.win, .cells, .cellMem, .stackMem, .prec, .sched, .kv, .svc, .ledger, .tune, .link, .ports, .ocl, .pair, .faults, .sec, .mgmt] π) (h_s : Same π σ s) :
    ∃ τ, execZeroiseDone s = .next τ ∧ Same π σ τ := by
  refine ⟨_, rfl, ?_⟩
  repeat' first
    | with_reducible assumption
    | intro _
    | with_reducible refine zeroiseDone_same (Sub.trans (by decide) hl) ?_

end Sys2Proof.Machine
end

