-- ==== Sys2Proof/Laws/FrameBoot.lean ====
section
/-!
SUPPORT. The parts that may change, for every function of Machine/Boot.lean that changes the state.
-/
set_option Elab.async false
namespace Sys2Proof.Machine
open Sys2Proof

theorem setStartRec_same {σ : State} {π : List Part} {n : Nat} {r : StartRecord} {s : State} (hl : Sub [.boot] π) (h_s : Same π σ s) :
    Same π σ (setStartRec n r s) := by
  unfold setStartRec
  repeat' first
    | with_reducible assumption
    | intro _
    | with_reducible refine same_ite ?_ ?_
    | fail_if_no_progress with_reducible refine same_upd ?_ (fun p hp => by cases p <;> first | exact absurd (hl.mem (by decide)) hp | exact rfl | exact ⟨rfl, rfl⟩ | exact ⟨rfl, rfl, rfl, rfl⟩)
    | split

theorem setImageSlot_same {σ : State} {π : List Part} {n : Nat} {b : ImageSlot} {s : State} (hl : Sub [.boot] π) (h_s : Same π σ s) :
    Same π σ (setImageSlot n b s) := by
  unfold setImageSlot
  repeat' first
    | with_reducible assumption
    | intro _
    | with_reducible refine same_ite ?_ ?_
    | fail_if_no_progress with_reducible refine same_upd ?_ (fun p hp => by cases p <;> first | exact absurd (hl.mem (by decide)) hp | exact rfl | exact ⟨rfl, rfl⟩ | exact ⟨rfl, rfl, rfl, rfl⟩)
    | split

theorem minimal_same {σ : State} {π : List Part} {s : State} (hl : Sub [.win, .sched, .link, .ports, .ocl, .power, .boot, .mgmt] π) (h_s : Same π σ s) :
    Same π σ (minimal s) := by
  unfold minimal
  repeat' first
    | with_reducible assumption
    | intro _
    | extract_lets
    | with_reducible refine same_ite ?_ ?_
    | with_reducible refine wr_same (Sub.trans (by decide) hl) ?_
    | with_reducible refine holdFw_same (Sub.trans (by decide) hl) ?_
    | with_reducible refine journalNow_same (Sub.trans (by decide) hl) ?_
    | with_reducible refine pldm_same (Sub.trans (by decide) hl) ?_
    | fail_if_no_progress with_reducible refine same_upd ?_ (fun p hp => by cases p <;> first | exact absurd (hl.mem (by decide)) hp | exact rfl | exact ⟨rfl, rfl⟩ | exact ⟨rfl, rfl, rfl, rfl⟩)
    | split

theorem setReason_same {σ : State} {π : List Part} {code : Nat} {detail : Nat} {s : State} (hl : Sub [.win] π) (h_s : Same π σ s) :
    Same π σ (setReason code detail s) := by
  unfold setReason
  repeat' first
    | with_reducible assumption
    | intro _
    | with_reducible refine wr_same (Sub.trans (by decide) hl) ?_

theorem failStart_same {σ : State} {π : List Part} {code : Nat} {detail : Nat} {s : State} (hl : Sub [.win, .latch, .cells, .counters, .accs, .cellMem, .stackMem, .mesh, .prec, .sched, .beat, .budget, .kv, .svc, .ledger, .tune, .link, .ports, .ocl, .pair, .faults, .power, .boot, .sec, .agent, .mgmt, .now] π) (h_s : Same π σ s) :
    Same π σ (failStart code detail s) := by
  unfold failStart
  repeat' first
    | with_reducible assumption
    | intro _
    | extract_lets
    | with_reducible refine same_ite ?_ ?_
    | with_reducible refine raise_same (Sub.trans (by decide) hl) ?_
    | with_reducible refine setReason_same (Sub.trans (by decide) hl) ?_
    | with_reducible refine minimal_same (Sub.trans (by decide) hl) ?_
    | with_reducible refine wholeReset_same (Sub.trans (by decide) hl) ?_
    | with_reducible refine journalNow_same (Sub.trans (by decide) hl) ?_
    | fail_if_no_progress with_reducible refine same_upd ?_ (fun p hp => by cases p <;> first | exact absurd (hl.mem (by decide)) hp | exact rfl | exact ⟨rfl, rfl⟩ | exact ⟨rfl, rfl, rfl, rfl⟩)
    | split

theorem readDevice_same {σ : State} {π : List Part} {i : StartInput} {s : State} (hl : Sub [.boot] π) (h_s : Same π σ s) :
    Same π σ (readDevice i s) := by
  unfold readDevice
  repeat' first
    | with_reducible assumption
    | intro _
    | extract_lets
    | fail_if_no_progress with_reducible refine same_upd ?_ (fun p hp => by cases p <;> first | exact absurd (hl.mem (by decide)) hp | exact rfl | exact ⟨rfl, rfl⟩ | exact ⟨rfl, rfl, rfl, rfl⟩)

theorem scanJournal_same {σ : State} {π : List Part} {n : Nat} {s : State} (hl : Sub [.win, .boot] π) (h_s : Same π σ s) :
    Same π σ (scanJournal n s) := by
  unfold scanJournal
  repeat' first
    | with_reducible assumption
    | intro _
    | extract_lets
    | with_reducible refine same_ite ?_ ?_
    | with_reducible refine wr_same (Sub.trans (by decide) hl) ?_
    | with_reducible refine setArea_same (Sub.trans (by decide) hl) ?_
    | with_reducible refine showJournal_same (Sub.trans (by decide) hl) ?_
    | fail_if_no_progress with_reducible refine same_upd ?_ (fun p hp => by cases p <;> first | exact absurd (hl.mem (by decide)) hp | exact rfl | exact ⟨rfl, rfl⟩ | exact ⟨rfl, rfl, rfl, rfl⟩)
    | split

theorem applyPhase_same {σ : State} {π : List Part} {f : Nat} {p : Nat} {s : State} (hl : Sub [.win, .power] π) (h_s : Same π σ s) :
    Same π σ (applyPhase f p s) := by
  unfold applyPhase
  repeat' first
    | with_reducible assumption
    | intro _
    | with_reducible refine same_ite ?_ ?_
    | with_reducible refine wr_same (Sub.trans (by decide) hl) ?_
    | fail_if_no_progress with_reducible refine same_upd ?_ (fun p hp => by cases p <;> first | exact absurd (hl.mem (by decide)) hp | exact rfl | exact ⟨rfl, rfl⟩ | exact ⟨rfl, rfl, rfl, rfl⟩)
    | split

theorem applySensor_same {σ : State} {π : List Part} {f : Nat} {key : Nat} {set : Nat} {s : State} (hl : Sub [.win, .power] π) (h_s : Same π σ s) :
    Same π σ (applySensor f key set s) := by
  unfold applySensor
  repeat' first
    | with_reducible assumption
    | intro _
    | extract_lets
    | with_reducible refine same_ite ?_ ?_
    | with_reducible refine wr_same (Sub.trans (by decide) hl) ?_
    | fail_if_no_progress with_reducible refine same_upd ?_ (fun p hp => by cases p <;> first | exact absurd (hl.mem (by decide)) hp | exact rfl | exact ⟨rfl, rfl⟩ | exact ⟨rfl, rfl, rfl, rfl⟩)
    | split

theorem applyRecord_same {σ : State} {π : List Part} {r : JRecord} {s : State} (hl : Sub [.win, .kv, .power] π) (h_s : Same π σ s) :
    Same π σ (applyRecord r s) := by
  unfold applyRecord
  repeat' first
    | with_reducible assumption
    | intro _
    | with_reducible refine applyPhase_same (Sub.trans (by decide) hl) ?_
    | with_reducible refine applySensor_same (Sub.trans (by decide) hl) ?_
    | with_reducible refine wr_same (Sub.trans (by decide) hl) ?_
    | fail_if_no_progress with_reducible refine same_upd ?_ (fun p hp => by cases p <;> first | exact absurd (hl.mem (by decide)) hp | exact rfl | exact ⟨rfl, rfl⟩ | exact ⟨rfl, rfl, rfl, rfl⟩)
    | split

theorem loadConfig_same {σ : State} {π : List Part} {r : StartRecord} {s : State} (hl : Sub [.win] π) (h_s : Same π σ s) :
    Same π σ (loadConfig r s) := by
  unfold loadConfig
  repeat' first
    | with_reducible assumption
    | intro _
    | extract_lets
    | with_reducible refine same_ite ?_ ?_
    | with_reducible refine wr_same (Sub.trans (by decide) hl) ?_
    | split

theorem runBundle_same {σ : State} {π : List Part} {r : StartRecord} {slot : Nat} {s : State} (hl : Sub [.win, .link, .ports, .ocl, .boot, .sec] π) (h_s : Same π σ s) :
    Same π σ (runBundle r slot s) := by
  unfold runBundle
  repeat' first
    | with_reducible assumption
    | intro _
    | extract_lets
    | with_reducible refine wr_same (Sub.trans (by decide) hl) ?_
    | with_reducible refine wrB_same (Sub.trans (by decide) hl) ?_
    | with_reducible refine setCnt_same (Sub.trans (by decide) hl) ?_
    | with_reducible refine startIdentity_same (Sub.trans (by decide) hl) ?_
    | with_reducible refine when_same ?_ ?_
    | with_reducible refine raise_same (Sub.trans (by decide) hl) ?_
    | fail_if_no_progress with_reducible refine same_upd ?_ (fun p hp => by cases p <;> first | exact absurd (hl.mem (by decide)) hp | exact rfl | exact ⟨rfl, rfl⟩ | exact ⟨rfl, rfl, rfl, rfl⟩)

theorem minimalAtStart_same {σ : State} {π : List Part} {r : StartRecord} {s : State} (hl : Sub [.win, .sched, .link, .ports, .ocl, .power, .boot, .sec, .mgmt] π) (h_s : Same π σ s) :
    Same π σ (minimalAtStart r s) := by
  unfold minimalAtStart
  repeat' first
    | with_reducible assumption
    | intro _
    | extract_lets
    | with_reducible refine setReason_same (Sub.trans (by decide) hl) ?_
    | with_reducible refine minimal_same (Sub.trans (by decide) hl) ?_
    | with_reducible refine runBundle_same (Sub.trans (by decide) hl) ?_
    | fail_if_no_progress with_reducible refine same_upd ?_ (fun p hp => by cases p <;> first | exact absurd (hl.mem (by decide)) hp | exact rfl | exact ⟨rfl, rfl⟩ | exact ⟨rfl, rfl, rfl, rfl⟩)
    | split
    | dsimp +zetaDelta only

theorem noteTrip_same {σ : State} {π : List Part} {s : State} (hl : Sub [.win, .link, .ports, .ocl, .boot] π) (h_s : Same π σ s) :
    Same π σ (noteTrip s) := by
  unfold noteTrip
  repeat' first
    | with_reducible assumption
    | intro _
    | with_reducible refine same_ite ?_ ?_
    | with_reducible refine journal_same (Sub.trans (by decide) hl) ?_
    | with_reducible refine raise_same (Sub.trans (by decide) hl) ?_
    | split

theorem beginRun_same {σ : State} {π : List Part} {i : StartInput} {r : StartRecord} {s : State} (hl : Sub [.win, .latch, .cells, .counters, .accs, .cellMem, .stackMem, .mesh, .prec, .sched, .beat, .budget, .kv, .svc, .ledger, .tune, .link, .ports, .ocl, .pair, .faults, .power, .boot, .sec, .agent, .mgmt, .now] π) (h_s : Same π σ s) :
    Same π σ (beginRun i r s).2 := by
  unfold beginRun
  repeat' first
    | with_reducible assumption
    | intro _
    | extract_lets
    | with_reducible refine wr_same (Sub.trans (by decide) hl) ?_
    | with_reducible refine journalNow_same (Sub.trans (by decide) hl) ?_
    | with_reducible refine failStart_same (Sub.trans (by decide) hl) ?_
    | with_reducible refine wrB_same (Sub.trans (by decide) hl) ?_
    | with_reducible refine when_same ?_ ?_
    | with_reducible refine raise_same (Sub.trans (by decide) hl) ?_
    | with_reducible refine runBundle_same (Sub.trans (by decide) hl) ?_
    | with_reducible refine loadConfig_same (Sub.trans (by decide) hl) ?_
    | with_reducible refine noteTrip_same (Sub.trans (by decide) hl) ?_
    | with_reducible refine forEach_same ?_ ?_
    | with_reducible refine applyRecord_same (Sub.trans (by decide) hl) ?_
    | fail_if_no_progress with_reducible refine same_upd ?_ (fun p hp => by cases p <;> first | exact absurd (hl.mem (by decide)) hp | exact rfl | exact ⟨rfl, rfl⟩ | exact ⟨rfl, rfl, rfl, rfl⟩)
    | with_reducible refine same_snd_ite ?_ ?_
    | split
    | dsimp +zetaDelta only

theorem startSteps12_same {σ : State} {π : List Part} {i : StartInput} {s0 : State} (hl : Sub [.win, .latch, .cells, .counters, .accs, .cellMem, .stackMem, .mesh, .prec, .sched, .beat, .budget, .kv, .svc, .ledger, .tune, .link, .ports, .ocl, .pair, .faults, .power, .boot, .sec, .agent, .mgmt, .now] π) (h_s0 : Same π σ s0) :
    Same π σ (startSteps12 i s0).2 := by
  unfold startSteps12
  repeat' first
    | with_reducible assumption
    | intro _
    | extract_lets
    | with_reducible refine same_ite ?_ ?_
    | with_reducible refine wr_same (Sub.trans (by decide) hl) ?_
    | with_reducible refine atTime_same (Sub.trans (by decide) hl) ?_
    | with_reducible refine failStart_same (Sub.trans (by decide) hl) ?_
    | with_reducible refine readDevice_same (Sub.trans (by decide) hl) ?_
    | with_reducible refine scanJournal_same (Sub.trans (by decide) hl) ?_
    | with_reducible refine minimalAtStart_same (Sub.trans (by decide) hl) ?_
    | with_reducible refine beginRun_same (Sub.trans (by decide) hl) ?_
    | fail_if_no_progress with_reducible refine same_upd ?_ (fun p hp => by cases p <;> first | exact absurd (hl.mem (by decide)) hp | exact rfl | exact ⟨rfl, rfl⟩ | exact ⟨rfl, rfl, rfl, rfl⟩)
    | with_reducible refine same_snd_ite ?_ ?_
    | split
    | dsimp +zetaDelta only

theorem joinDefects_same {σ : State} {π : List Part} {l : List (Nat × Bool)} {s : State} (hl : Sub [.mesh] π) (h_s : Same π σ s) :
    Same π σ (joinDefects l s) := by
  unfold joinDefects
  repeat' first
    | with_reducible assumption
    | intro _
    | with_reducible refine same_ite ?_ ?_
    | with_reducible refine forEach_same ?_ ?_
    | with_reducible refine addDefect_same (Sub.trans (by decide) hl) ?_
    | split

theorem writeSpareMaps_same {σ : State} {π : List Part} {s : State} (hl : Sub [.win, .mesh] π) (h_s : Same π σ s) :
    Same π σ (writeSpareMaps s) := by
  unfold writeSpareMaps
  repeat' first
    | with_reducible assumption
    | intro _
    | with_reducible refine forEach_same ?_ ?_
    | with_reducible refine setRow_same (Sub.trans (by decide) hl) ?_

theorem noteDiscrep_same {σ : State} {π : List Part} {fuse : List Nat} {jrnl : List Nat} {s : State} (hl : Sub [.win, .link, .ports, .ocl, .power, .boot, .mgmt] π) (h_s : Same π σ s) :
    Same π σ (noteDiscrep fuse jrnl s) := by
  unfold noteDiscrep
  repeat' first
    | with_reducible assumption
    | intro _
    | extract_lets
    | with_reducible refine forEach_same ?_ ?_
    | with_reducible refine journalNow_same (Sub.trans (by decide) hl) ?_
    | with_reducible refine wr_same (Sub.trans (by decide) hl) ?_
    | with_reducible refine when_same ?_ ?_
    | with_reducible refine raise_same (Sub.trans (by decide) hl) ?_

theorem defectUnion_same {σ : State} {π : List Part} {i : StartInput} {s : State} (hl : Sub [.win, .mesh, .link, .ports, .ocl, .power, .boot, .mgmt] π) (h_s : Same π σ s) :
    Same π σ (defectUnion i s) := by
  unfold defectUnion
  repeat' first
    | with_reducible assumption
    | intro _
    | extract_lets
    | with_reducible refine joinDefects_same (Sub.trans (by decide) hl) ?_
    | with_reducible refine forEach_same ?_ ?_
    | with_reducible refine journalNow_same (Sub.trans (by decide) hl) ?_
    | with_reducible refine noteDiscrep_same (Sub.trans (by decide) hl) ?_
    | with_reducible refine writeSpareMaps_same (Sub.trans (by decide) hl) ?_
    | with_reducible refine wr_same (Sub.trans (by decide) hl) ?_

theorem cultureStep_same {σ : State} {π : List Part} {i : StartInput} {s : State} (hl : Sub [.win, .cellMem, .mesh, .link, .ports, .ocl, .power, .boot, .mgmt] π) (h_s : Same π σ s) :
    Same π σ (cultureStep i s) := by
  unfold cultureStep
  repeat' first
    | with_reducible assumption
    | intro _
    | extract_lets
    | with_reducible refine forEach_same ?_ ?_
    | with_reducible refine journalNow_same (Sub.trans (by decide) hl) ?_
    | with_reducible refine joinDefects_same (Sub.trans (by decide) hl) ?_
    | with_reducible refine wr_same (Sub.trans (by decide) hl) ?_
    | with_reducible refine writeSpareMaps_same (Sub.trans (by decide) hl) ?_
    | fail_if_no_progress with_reducible refine same_upd ?_ (fun p hp => by cases p <;> first | exact absurd (hl.mem (by decide)) hp | exact rfl | exact ⟨rfl, rfl⟩ | exact ⟨rfl, rfl, rfl, rfl⟩)

theorem patrolBegins_same {σ : State} {π : List Part} {n : Nat} {s : State} (hl : Sub [.kv] π) (h_s : Same π σ s) :
    Same π σ (patrolBegins n s) := by
  unfold patrolBegins
  repeat' first
    | with_reducible assumption
    | intro _
    | fail_if_no_progress with_reducible refine same_upd ?_ (fun p hp => by cases p <;> first | exact absurd (hl.mem (by decide)) hp | exact rfl | exact ⟨rfl, rfl⟩ | exact ⟨rfl, rfl, rfl, rfl⟩)

theorem stackActive_same {σ : State} {π : List Part} {n : Nat} {rate : Nat} {settings : Nat} {s : State} (hl : Sub [.win, .kv] π) (h_s : Same π σ s) :
    Same π σ (stackActive n rate settings s) := by
  unfold stackActive
  repeat' first
    | with_reducible assumption
    | intro _
    | with_reducible refine patrolBegins_same (Sub.trans (by decide) hl) ?_
    | with_reducible refine wr_same (Sub.trans (by decide) hl) ?_
    | fail_if_no_progress with_reducible refine same_upd ?_ (fun p hp => by cases p <;> first | exact absurd (hl.mem (by decide)) hp | exact rfl | exact ⟨rfl, rfl⟩ | exact ⟨rfl, rfl, rfl, rfl⟩)

theorem trainStack_same {σ : State} {π : List Part} {n : Nat} {x : StackTrain} {s : State} (hl : Sub [.win, .kv, .link, .ports, .ocl, .power, .boot, .mgmt] π) (h_s : Same π σ s) :
    Same π σ (trainStack n x s) := by
  unfold trainStack
  repeat' first
    | with_reducible assumption
    | intro _
    | with_reducible refine same_ite ?_ ?_
    | with_reducible refine journalNow_same (Sub.trans (by decide) hl) ?_
    | with_reducible refine stackActive_same (Sub.trans (by decide) hl) ?_
    | with_reducible refine raise_same (Sub.trans (by decide) hl) ?_
    | with_reducible refine wr_same (Sub.trans (by decide) hl) ?_
    | split

theorem bringUp_same {σ : State} {π : List Part} {fast : Bool} {l : List JRecord} {hbm : List StackTrain} {n : Nat} {s : State} (hl : Sub [.win, .kv, .link, .ports, .ocl, .power, .boot, .mgmt] π) (h_s : Same π σ s) :
    Same π σ (bringUp fast l hbm n s) := by
  unfold bringUp
  repeat' first
    | with_reducible assumption
    | intro _
    | extract_lets
    | with_reducible refine same_ite ?_ ?_
    | with_reducible refine stackActive_same (Sub.trans (by decide) hl) ?_
    | with_reducible refine trainStack_same (Sub.trans (by decide) hl) ?_
    | with_reducible refine raise_same (Sub.trans (by decide) hl) ?_
    | fail_if_no_progress with_reducible refine same_upd ?_ (fun p hp => by cases p <;> first | exact absurd (hl.mem (by decide)) hp | exact rfl | exact ⟨rfl, rfl⟩ | exact ⟨rfl, rfl, rfl, rfl⟩)
    | split
    | dsimp +zetaDelta only

theorem stackStep_same {σ : State} {π : List Part} {i : StartInput} {s : State} (hl : Sub [.win, .stackMem, .kv, .link, .ports, .ocl, .power, .boot, .mgmt] π) (h_s : Same π σ s) :
    Same π σ (stackStep i s) := by
  unfold stackStep
  repeat' first
    | with_reducible assumption
    | intro _
    | extract_lets
    | with_reducible refine forEach_same ?_ ?_
    | with_reducible refine bringUp_same (Sub.trans (by decide) hl) ?_
    | fail_if_no_progress with_reducible refine same_upd ?_ (fun p hp => by cases p <;> first | exact absurd (hl.mem (by decide)) hp | exact rfl | exact ⟨rfl, rfl⟩ | exact ⟨rfl, rfl, rfl, rfl⟩)

theorem rewriteStartRecord_same {σ : State} {π : List Part} {r : StartRecord} {s : State} (hl : Sub [.boot] π) (h_s : Same π σ s) :
    Same π σ (rewriteStartRecord r s) := by
  unfold rewriteStartRecord
  repeat' first
    | with_reducible assumption
    | intro _
    | extract_lets
    | with_reducible refine same_ite ?_ ?_
    | with_reducible refine setStartRec_same (Sub.trans (by decide) hl) ?_
    | fail_if_no_progress with_reducible refine same_upd ?_ (fun p hp => by cases p <;> first | exact absurd (hl.mem (by decide)) hp | exact rfl | exact ⟨rfl, rfl⟩ | exact ⟨rfl, rfl, rfl, rfl⟩)
    | split

theorem declareReady_same {σ : State} {π : List Part} {i : StartInput} {r : StartRecord} {s : State} (hl : Sub [.win, .link, .ports, .ocl, .power, .boot, .agent, .mgmt] π) (h_s : Same π σ s) :
    Same π σ (declareReady i r s) := by
  unfold declareReady
  repeat' first
    | with_reducible assumption
    | intro _
    | extract_lets
    | with_reducible refine journalNow_same (Sub.trans (by decide) hl) ?_
    | with_reducible refine rewriteStartRecord_same (Sub.trans (by decide) hl) ?_
    | with_reducible refine wr_same (Sub.trans (by decide) hl) ?_
    | with_reducible refine pldm_same (Sub.trans (by decide) hl) ?_
    | with_reducible refine raise_same (Sub.trans (by decide) hl) ?_
    | with_reducible refine when_same ?_ ?_
    | with_reducible refine warn_same (Sub.trans (by decide) hl) ?_
    | fail_if_no_progress with_reducible refine same_upd ?_ (fun p hp => by cases p <;> first | exact absurd (hl.mem (by decide)) hp | exact rfl | exact ⟨rfl, rfl⟩ | exact ⟨rfl, rfl, rfl, rfl⟩)

theorem readyStep_same {σ : State} {π : List Part} {i : StartInput} {s0 : State} (hl : Sub [.win, .latch, .cells, .counters, .accs, .cellMem, .stackMem, .mesh, .prec, .sched, .beat, .budget, .kv, .svc, .ledger, .tune, .link, .ports, .ocl, .pair, .faults, .power, .boot, .sec, .agent, .mgmt, .now] π) (h_s0 : Same π σ s0) :
    Same π σ (readyStep i s0) := by
  unfold readyStep
  repeat' first
    | with_reducible assumption
    | intro _
    | extract_lets
    | with_reducible refine same_ite ?_ ?_
    | with_reducible refine wr_same (Sub.trans (by decide) hl) ?_
    | with_reducible refine failStart_same (Sub.trans (by decide) hl) ?_
    | with_reducible refine declareReady_same (Sub.trans (by decide) hl) ?_
    | fail_if_no_progress with_reducible refine same_upd ?_ (fun p hp => by cases p <;> first | exact absurd (hl.mem (by decide)) hp | exact rfl | exact ⟨rfl, rfl⟩ | exact ⟨rfl, rfl, rfl, rfl⟩)
    | split
    | dsimp +zetaDelta only

theorem noteResult_same {σ : State} {π : List Part} {x : Nat × Nat} {s : State} (hl : Sub [.boot] π) (h_s : Same π σ s) :
    Same π σ (noteResult x s) := by
  unfold noteResult
  repeat' first
    | with_reducible assumption
    | intro _
    | extract_lets
    | with_reducible refine same_ite ?_ ?_
    | with_reducible refine journal_same (Sub.trans (by decide) hl) ?_
    | split

theorem startSteps4_same {σ : State} {π : List Part} {i : StartInput} {s0 : State} (hl : Sub [.win, .latch, .cells, .counters, .accs, .cellMem, .stackMem, .mesh, .prec, .sched, .beat, .budget, .kv, .svc, .ledger, .tune, .link, .ports, .ocl, .pair, .faults, .power, .boot, .sec, .agent, .mgmt, .now] π) (h_s0 : Same π σ s0) :
    Same π σ (startSteps4 i s0) := by
  unfold startSteps4
  repeat' first
    | with_reducible assumption
    | intro _
    | extract_lets
    | with_reducible refine same_ite ?_ ?_
    | with_reducible refine wr_same (Sub.trans (by decide) hl) ?_
    | with_reducible refine failStart_same (Sub.trans (by decide) hl) ?_
    | with_reducible refine forEach_same ?_ ?_
    | with_reducible refine noteResult_same (Sub.trans (by decide) hl) ?_
    | with_reducible refine defectUnion_same (Sub.trans (by decide) hl) ?_
    | with_reducible refine readyStep_same (Sub.trans (by decide) hl) ?_
    | with_reducible refine stackStep_same (Sub.trans (by decide) hl) ?_
    | with_reducible refine cultureStep_same (Sub.trans (by decide) hl) ?_
    | fail_if_no_progress with_reducible refine same_upd ?_ (fun p hp => by cases p <;> first | exact absurd (hl.mem (by decide)) hp | exact rfl | exact ⟨rfl, rfl⟩ | exact ⟨rfl, rfl, rfl, rfl⟩)
    | split

theorem startStep3_same {σ : State} {π : List Part} {i : StartInput} {s0 : State} (hl : Sub [.win, .latch, .cells, .counters, .accs, .cellMem, .stackMem, .mesh, .prec, .sched, .beat, .budget, .kv, .svc, .ledger, .tune, .link, .ports, .ocl, .pair, .faults, .power, .boot, .sec, .agent, .mgmt, .now] π) (h_s0 : Same π σ s0) :
    Same π σ (startStep3 i s0) := by
  unfold startStep3
  repeat' first
    | with_reducible assumption
    | intro _
    | extract_lets
    | with_reducible refine same_ite ?_ ?_
    | with_reducible refine wr_same (Sub.trans (by decide) hl) ?_
    | with_reducible refine failStart_same (Sub.trans (by decide) hl) ?_
    | with_reducible refine startSteps4_same (Sub.trans (by decide) hl) ?_
    | fail_if_no_progress with_reducible refine same_upd ?_ (fun p hp => by cases p <;> first | exact absurd (hl.mem (by decide)) hp | exact rfl | exact ⟨rfl, rfl⟩ | exact ⟨rfl, rfl, rfl, rfl⟩)
    | split

theorem start_same {σ : State} {π : List Part} {i : StartInput} {s : State} (hl : Sub [.win, .latch, .cells, .counters, .accs, .cellMem, .stackMem, .mesh, .prec, .sched, .beat, .budget, .kv, .svc, .ledger, .tune, .link, .ports, .ocl, .pair, .faults, .power, .boot, .sec, .agent, .mgmt, .now] π) (h_s : Same π σ s) :
    Same π σ (start i s) := by
  unfold start
  repeat' first
    | with_reducible assumption
    | intro _
    | extract_lets
    | with_reducible refine same_ite ?_ ?_
    | with_reducible refine startSteps12_same (Sub.trans (by decide) hl) ?_
    | with_reducible refine startStep3_same (Sub.trans (by decide) hl) ?_
    | split

theorem execStart_same {σ : State} {π : List Part} {input : StartInput} {s : State} (hl : Sub [.win, .latch, .cells, .counters, .accs, .cellMem, .stackMem, .mesh, .prec, .sched, .beat, .budget, .kv, .svc, .ledger, .tune, .link, .ports, .ocl, .pair, .faults, .power, .boot, .sec, .agent, .mgmt, .now] π) (h_s : Same π σ s) :
    ∃ τ, execStart input s = .next τ ∧ Same π σ τ := by
  refine ⟨_, rfl, ?_⟩
  repeat' first
    | with_reducible assumption
    | intro _
    | with_reducible refine start_same (Sub.trans (by decide) hl) ?_

theorem coolOkRow_same {σ : State} {π : List Part} {level : Bool} {heldUs : Nat} {t : Nat} {s : State} (hl : Sub [.win, .latch, .cells, .counters, .accs, .cellMem, .stackMem, .mesh, .prec, .sched, .beat, .budget, .kv, .svc, .ledger, .tune, .link, .ports, .ocl, .pair, .faults, .power, .boot, .sec, .agent, .mgmt, .now] π) (h_s : Same π σ s) :
    Same π σ (coolOkRow level heldUs t s) := by
  unfold coolOkRow
  repeat' first
    | with_reducible assumption
    | intro _
    | extract_lets
    | with_reducible refine coolOk_same (Sub.trans (by decide) hl) ?_
    | with_reducible refine startSteps4_same (Sub.trans (by decide) hl) ?_
    | fail_if_no_progress with_reducible refine same_upd ?_ (fun p hp => by cases p <;> first | exact absurd (hl.mem (by decide)) hp | exact rfl | exact ⟨rfl, rfl⟩ | exact ⟨rfl, rfl, rfl, rfl⟩)
    | split
    | dsimp +zetaDelta only

theorem execCoolOk_same {σ : State} {π : List Part} {level : Bool} {heldUs : Nat} {t : Nat} {s : State} (hl : Sub [.win, .latch, .cells, .counters, .accs, .cellMem, .stackMem, .mesh, .prec, .sched, .beat, .budget, .kv, .svc, .ledger, .tune, .link, .ports, .ocl, .pair, .faults, .power, .boot, .sec, .agent, .mgmt, .now] π) (h_s : Same π σ s) :
    ∃ τ, execCoolOk level heldUs t s = .next τ ∧ Same π σ τ := by
  refine ⟨_, rfl, ?_⟩
  repeat' first
    | with_reducible assumption
    | intro _
    | with_reducible refine coolOkRow_same (Sub.trans (by decide) hl) ?_

theorem failWaiting_same {σ : State} {π : List Part} {code : Nat} {s : State} (hl : Sub [.win, .latch, .cells, .counters, .accs, .cellMem, .stackMem, .mesh, .prec, .sched, .beat, .budget, .kv, .svc, .ledger, .tune, .link, .ports, .ocl, .pair, .faults, .power, .boot, .sec, .agent, .mgmt, .now] π) (h_s : Same π σ s) :
    Same π σ (failWaiting code s) := by
  unfold failWaiting
  repeat' first
    | with_reducible assumption
    | intro _
    | with_reducible refine failStart_same (Sub.trans (by decide) hl) ?_
    | fail_if_no_progress with_reducible refine same_upd ?_ (fun p hp => by cases p <;> first | exact absurd (hl.mem (by decide)) hp | exact rfl | exact ⟨rfl, rfl⟩ | exact ⟨rfl, rfl, rfl, rfl⟩)
    | split

theorem execCoolOkTimeout_same {σ : State} {π : List Part} {s : State} (hl : Sub [.win, .latch, .cells, .counters, .accs, .cellMem, .stackMem, .mesh, .prec, .sched, .beat, .budget, .kv, .svc, .ledger, .tune, .link, .ports, .ocl, .pair, .faults, .power, .boot, .sec, .agent, .mgmt, .now] π) (h_s : Same π σ s) :
    ∃ τ, execCoolOkTimeout s = .next τ ∧ Same π σ τ := by
  refine ⟨_, rfl, ?_⟩
  repeat' first
    | with_reducible assumption
    | intro _
    | with_reducible refine failWaiting_same (Sub.trans (by decide) hl) ?_

theorem execStartTimeout_same {σ : State} {π : List Part} {s : State} (hl : Sub [.win, .latch, .cells, .counters, .accs, .cellMem, .stackMem, .mesh, .prec, .sched, .beat, .budget, .kv, .svc, .ledger, .tune, .link, .ports, .ocl, .pair, .faults, .power, .boot, .sec, .agent, .mgmt, .now] π) (h_s : Same π σ s) :
    ∃ τ, execStartTimeout s = .next τ ∧ Same π σ τ := by
  refine ⟨_, rfl, ?_⟩
  repeat' first
    | with_reducible assumption
    | intro _
    | with_reducible refine failWaiting_same (Sub.trans (by decide) hl) ?_

theorem clearFails_same {σ : State} {π : List Part} {s : State} (hl : Sub [.win, .boot] π) (h_s : Same π σ s) :
    Same π σ (clearFails s) := by
  unfold clearFails
  repeat' first
    | with_reducible assumption
    | intro _
    | with_reducible refine same_ite ?_ ?_
    | with_reducible refine journal_same (Sub.trans (by decide) hl) ?_
    | with_reducible refine wr_same (Sub.trans (by decide) hl) ?_
    | fail_if_no_progress with_reducible refine same_upd ?_ (fun p hp => by cases p <;> first | exact absurd (hl.mem (by decide)) hp | exact rfl | exact ⟨rfl, rfl⟩ | exact ⟨rfl, rfl, rfl, rfl⟩)
    | split

theorem execClr_same {σ : State} {π : List Part} {s : State} (hl : Sub [.win, .boot] π) (h_s : Same π σ s) :
    ∃ τ, execClr s = .next τ ∧ Same π σ τ := by
  refine ⟨_, rfl, ?_⟩
  repeat' first
    | with_reducible assumption
    | intro _
    | with_reducible refine clearFails_same (Sub.trans (by decide) hl) ?_

theorem restart_same {σ : State} {π : List Part} {s : State} (hl : Sub [.win, .latch, .cells, .counters, .accs, .cellMem, .stackMem, .mesh, .prec, .sched, .beat, .budget, .kv, .svc, .ledger, .tune, .link, .ports, .ocl, .pair, .faults, .power, .boot, .sec, .agent, .mgmt, .now] π) (h_s : Same π σ s) :
    Same π σ (restart s) := by
  unfold restart
  repeat' first
    | with_reducible assumption
    | intro _
    | with_reducible refine same_ite ?_ ?_
    | with_reducible refine wholeReset_same (Sub.trans (by decide) hl) ?_
    | with_reducible refine writeWaiting_same (Sub.trans (by decide) hl) ?_
    | split

theorem execRestart_same {σ : State} {π : List Part} {s : State} (hl : Sub [.win, .latch, .cells, .counters, .accs, .cellMem, .stackMem, .mesh, .prec, .sched, .beat, .budget, .kv, .svc, .ledger, .tune, .link, .ports, .ocl, .pair, .faults, .power, .boot, .sec, .agent, .mgmt, .now] π) (h_s : Same π σ s) :
    ∃ τ, execRestart s = .next τ ∧ Same π σ τ := by
  refine ⟨_, rfl, ?_⟩
  repeat' first
    | with_reducible assumption
    | intro _
    | with_reducible refine restart_same (Sub.trans (by decide) hl) ?_

theorem stageBegin_same {σ : State} {π : List Part} {target : Nat} {s : State} (hl : Sub [.win, .link, .ports, .ocl, .boot] π) (h_s : Same π σ s) :
    Same π σ (stageBegin target s) := by
  unfold stageBegin
  repeat' first
    | with_reducible assumption
    | intro _
    | extract_lets
    | with_reducible refine same_ite ?_ ?_
    | with_reducible refine setReg_same (Sub.trans (by decide) hl) ?_
    | with_reducible refine wr_same (Sub.trans (by decide) hl) ?_
    | with_reducible refine startFetch_same (Sub.trans (by decide) hl) ?_
    | fail_if_no_progress with_reducible refine same_upd ?_ (fun p hp => by cases p <;> first | exact absurd (hl.mem (by decide)) hp | exact rfl | exact ⟨rfl, rfl⟩ | exact ⟨rfl, rfl, rfl, rfl⟩)
    | split

theorem stageGo_same {σ : State} {π : List Part} {target : Nat} {s : State} (hl : Sub [.win, .link, .ports, .ocl, .boot] π) (h_s : Same π σ s) :
    Same π σ (stageGo target s) := by
  unfold stageGo
  repeat' first
    | with_reducible assumption
    | intro _
    | with_reducible refine same_ite ?_ ?_
    | with_reducible refine wr_same (Sub.trans (by decide) hl) ?_
    | with_reducible refine stageBegin_same (Sub.trans (by decide) hl) ?_
    | split

theorem stageImage_same {σ : State} {π : List Part} {b : ImageSlot} {s : State} (hl : Sub [.win, .link, .ports, .ocl, .boot] π) (h_s : Same π σ s) :
    Same π σ (stageImage b s) := by
  unfold stageImage
  repeat' first
    | with_reducible assumption
    | intro _
    | extract_lets
    | with_reducible refine same_ite ?_ ?_
    | with_reducible refine stageGo_same (Sub.trans (by decide) hl) ?_
    | with_reducible refine stageBegin_same (Sub.trans (by decide) hl) ?_
    | fail_if_no_progress with_reducible refine same_upd ?_ (fun p hp => by cases p <;> first | exact absurd (hl.mem (by decide)) hp | exact rfl | exact ⟨rfl, rfl⟩ | exact ⟨rfl, rfl, rfl, rfl⟩)
    | split

theorem stageCtrl_same {σ : State} {π : List Part} {v : Word} {s : State} (hl : Sub [.win, .link, .ports, .ocl, .boot] π) (h_s : Same π σ s) :
    Same π σ (stageCtrl v s) := by
  unfold stageCtrl
  repeat' first
    | with_reducible assumption
    | intro _
    | extract_lets
    | with_reducible refine same_ite ?_ ?_
    | with_reducible refine wr_same (Sub.trans (by decide) hl) ?_
    | with_reducible refine stageBegin_same (Sub.trans (by decide) hl) ?_
    | split

theorem execStageImage_same {σ : State} {π : List Part} {bundle : ImageSlot} {s : State} (hl : Sub [.win, .link, .ports, .ocl, .boot] π) (h_s : Same π σ s) :
    ∃ τ, execStageImage bundle s = .next τ ∧ Same π σ τ := by
  refine ⟨_, rfl, ?_⟩
  repeat' first
    | with_reducible assumption
    | intro _
    | with_reducible refine stageImage_same (Sub.trans (by decide) hl) ?_

theorem execStageStartRecord_same {σ : State} {π : List Part} {v : Word} {s : State} (hl : Sub [.win, .link, .ports, .ocl, .boot] π) (h_s : Same π σ s) :
    ∃ τ, execStageStartRecord v s = .next τ ∧ Same π σ τ := by
  refine ⟨_, rfl, ?_⟩
  unfold when
  repeat' first
    | with_reducible assumption
    | intro _
    | with_reducible refine same_ite ?_ ?_
    | with_reducible refine stageGo_same (Sub.trans (by decide) hl) ?_

theorem execStageJournalDump_same {σ : State} {π : List Part} {s : State} (hl : Sub [.win, .link, .ports, .ocl, .boot] π) (h_s : Same π σ s) :
    ∃ τ, execStageJournalDump s = .next τ ∧ Same π σ τ := by
  refine ⟨_, rfl, ?_⟩
  repeat' first
    | with_reducible assumption
    | intro _
    | with_reducible refine stageGo_same (Sub.trans (by decide) hl) ?_

theorem stageRead_same {σ : State} {π : List Part} {bs : List Byte} {s : State} (hl : Sub [.boot] π) (h_s : Same π σ s) :
    Same π σ (stageRead bs s) := by
  unfold stageRead
  repeat' first
    | with_reducible assumption
    | intro _
    | fail_if_no_progress with_reducible refine same_upd ?_ (fun p hp => by cases p <;> first | exact absurd (hl.mem (by decide)) hp | exact rfl | exact ⟨rfl, rfl⟩ | exact ⟨rfl, rfl, rfl, rfl⟩)

theorem stageFailed_same {σ : State} {π : List Part} {s : State} (hl : Sub [.boot] π) (h_s : Same π σ s) :
    Same π σ (stageFailed s) := by
  unfold stageFailed
  repeat' first
    | with_reducible assumption
    | intro _
    | fail_if_no_progress with_reducible refine same_upd ?_ (fun p hp => by cases p <;> first | exact absurd (hl.mem (by decide)) hp | exact rfl | exact ⟨rfl, rfl⟩ | exact ⟨rfl, rfl, rfl, rfl⟩)

theorem stagePut_same {σ : State} {π : List Part} {x : Staged} {bs : List Byte} {s : State} (hl : Sub [.win, .link, .ports, .ocl, .boot] π) (h_s : Same π σ s) :
    Same π σ (stagePut x bs s) := by
  unfold stagePut
  repeat' first
    | with_reducible assumption
    | intro _
    | extract_lets
    | with_reducible refine setImageSlot_same (Sub.trans (by decide) hl) ?_
    | with_reducible refine setStartRec_same (Sub.trans (by decide) hl) ?_
    | with_reducible refine writeLines_same (Sub.trans (by decide) hl) ?_
    | fail_if_no_progress with_reducible refine same_upd ?_ (fun p hp => by cases p <;> first | exact absurd (hl.mem (by decide)) hp | exact rfl | exact ⟨rfl, rfl⟩ | exact ⟨rfl, rfl, rfl, rfl⟩)
    | split
    | dsimp +zetaDelta only

theorem stageDone_same {σ : State} {π : List Part} {error : Nat} {s : State} (hl : Sub [.win, .link, .ports, .ocl, .boot] π) (h_s : Same π σ s) :
    Same π σ (stageDone error s) := by
  unfold stageDone
  repeat' first
    | with_reducible assumption
    | intro _
    | extract_lets
    | with_reducible refine same_ite ?_ ?_
    | with_reducible refine stagePut_same (Sub.trans (by decide) hl) ?_
    | with_reducible refine raise_same (Sub.trans (by decide) hl) ?_
    | with_reducible refine setReg_same (Sub.trans (by decide) hl) ?_
    | fail_if_no_progress with_reducible refine same_upd ?_ (fun p hp => by cases p <;> first | exact absurd (hl.mem (by decide)) hp | exact rfl | exact ⟨rfl, rfl⟩ | exact ⟨rfl, rfl, rfl, rfl⟩)
    | split
    | dsimp +zetaDelta only

theorem execStageDone_same {σ : State} {π : List Part} {error : Nat} {s : State} (hl : Sub [.win, .link, .ports, .ocl, .boot] π) (h_s : Same π σ s) :
    ∃ τ, execStageDone error s = .next τ ∧ Same π σ τ := by
  refine ⟨_, rfl, ?_⟩
  repeat' first
    | with_reducible assumption
    | intro _
    | with_reducible refine stageDone_same (Sub.trans (by decide) hl) ?_

theorem writeShutdown_same {σ : State} {π : List Part} {ok : Bool} {ran : Bool} {s : State} (hl : Sub [.boot] π) (h_s : Same π σ s) :
    Same π σ (writeShutdown ok ran s) := by
  unfold writeShutdown
  repeat' first
    | with_reducible assumption
    | intro _
    | with_reducible refine journal_same (Sub.trans (by decide) hl) ?_
    | with_reducible refine shutdown_same (Sub.trans (by decide) hl) ?_
    | fail_if_no_progress with_reducible refine same_upd ?_ (fun p hp => by cases p <;> first | exact absurd (hl.mem (by decide)) hp | exact rfl | exact ⟨rfl, rfl⟩ | exact ⟨rfl, rfl, rfl, rfl⟩)

theorem shutdownGoOn_same {σ : State} {π : List Part} {s : State} (hl : Sub [.win, .cells, .cellMem, .stackMem, .prec, .sched, .kv, .svc, .ledger, .tune, .link, .ports, .ocl, .pair, .faults, .boot, .sec, .mgmt] π) (h_s : Same π σ s) :
    Same π σ (shutdownGoOn s) := by
  unfold shutdownGoOn
  repeat' first
    | with_reducible assumption
    | intro _
    | extract_lets
    | with_reducible refine same_ite ?_ ?_
    | with_reducible refine shutdown_same (Sub.trans (by decide) hl) ?_
    | with_reducible refine zeroMemory_same (Sub.trans (by decide) hl) ?_
    | with_reducible refine holdFw_same (Sub.trans (by decide) hl) ?_
    | with_reducible refine zeroise_same (Sub.trans (by decide) hl) ?_
    | with_reducible refine zeroEnd_same (Sub.trans (by decide) hl) ?_
    | with_reducible refine writeShutdown_same (Sub.trans (by decide) hl) ?_
    | with_reducible refine wr_same (Sub.trans (by decide) hl) ?_
    | fail_if_no_progress with_reducible refine same_upd ?_ (fun p hp => by cases p <;> first | exact absurd (hl.mem (by decide)) hp | exact rfl | exact ⟨rfl, rfl⟩ | exact ⟨rfl, rfl, rfl, rfl⟩)
    | split
    | dsimp +zetaDelta only

theorem shutdown_same {σ : State} {π : List Part} {v : Word} {s0 : State} (hl : Sub [.win, .cells, .cellMem, .stackMem, .prec, .sched, .kv, .svc, .ledger, .tune, .link, .ports, .ocl, .pair, .faults, .boot, .sec, .mgmt] π) (h_s0 : Same π σ s0) :
    Same π σ (shutdown v s0) := by
  unfold shutdown
  repeat' first
    | with_reducible assumption
    | intro _
    | extract_lets
    | with_reducible refine same_ite ?_ ?_
    | with_reducible refine wr_same (Sub.trans (by decide) hl) ?_
    | with_reducible refine raise_same (Sub.trans (by decide) hl) ?_
    | with_reducible refine when_same ?_ ?_
    | with_reducible refine leavePair_same (Sub.trans (by decide) hl) ?_
    | with_reducible refine forEach_same ?_ ?_
    | with_reducible refine abandonStep_same (Sub.trans (by decide) hl) ?_
    | with_reducible refine shutdownGoOn_same (Sub.trans (by decide) hl) ?_
    | with_reducible refine beginClose_same (Sub.trans (by decide) hl) ?_
    | fail_if_no_progress with_reducible refine same_upd ?_ (fun p hp => by cases p <;> first | exact absurd (hl.mem (by decide)) hp | exact rfl | exact ⟨rfl, rfl⟩ | exact ⟨rfl, rfl, rfl, rfl⟩)
    | split

theorem execShutdown_same {σ : State} {π : List Part} {value : Word} {s : State} (hl : Sub [.win, .cells, .cellMem, .stackMem, .prec, .sched, .kv, .svc, .ledger, .tune, .link, .ports, .ocl, .pair, .faults, .boot, .sec, .mgmt] π) (h_s : Same π σ s) :
    ∃ τ, execShutdown value s = .next τ ∧ Same π σ τ := by
  refine ⟨_, rfl, ?_⟩
  repeat' first
    | with_reducible assumption
    | intro _
    | with_reducible refine shutdown_same (Sub.trans (by decide) hl) ?_

theorem execCloseComplete_same {σ : State} {π : List Part} {m : Nat} {s : State} (hl : Sub [.win, .cells, .cellMem, .stackMem, .prec, .sched, .kv, .svc, .ledger, .tune, .link, .ports, .ocl, .pair, .faults, .boot, .sec, .mgmt] π) (h_s : Same π σ s) :
    ∃ τ, execCloseComplete m s = .next τ ∧ Same π σ τ := by
  refine ⟨_, rfl, ?_⟩
  repeat' first
    | with_reducible assumption
    | intro _
    | with_reducible refine shutdownGoOn_same (Sub.trans (by decide) hl) ?_
    | with_reducible refine closeComplete_same (Sub.trans (by decide) hl) ?_

theorem clearMarks_same {σ : State} {π : List Part} {l : List (Nat × Nat)} {s : State} (hl : Sub [.win, .power, .boot] π) (h_s : Same π σ s) :
    Same π σ (clearMarks l s) := by
  unfold clearMarks
  repeat' first
    | with_reducible assumption
    | intro _
    | with_reducible refine forEach_same ?_ ?_
    | with_reducible refine journal_same (Sub.trans (by decide) hl) ?_
    | with_reducible refine applySensor_same (Sub.trans (by decide) hl) ?_

theorem journalBist_same {σ : State} {π : List Part} {x0 : Nat} {x1 : List (Nat × Nat)} {x2 : State} (hl : Sub [.boot] π) (h_x2 : Same π σ x2) :
    Same π σ (journalBist x0 x1 x2) := by
  induction x0 generalizing x1 x2 with
  | zero => (unfold journalBist; repeat' first
      | with_reducible assumption
      | intro _
      | extract_lets
      | with_reducible refine same_ite ?_ ?_
      | with_reducible refine journal_same (Sub.trans (by decide) hl) ?_
      | split)
  | succ _ ih => (unfold journalBist; repeat' first
      | with_reducible assumption
      | with_reducible apply ih
      | (injections; subst_vars; with_reducible apply ih)
      | intro _
      | extract_lets
      | with_reducible refine same_ite ?_ ?_
      | with_reducible refine journal_same (Sub.trans (by decide) hl) ?_
      | split)

theorem endBist_same {σ : State} {π : List Part} {s : State} (hl : Sub [.win, .link, .ports, .ocl, .power, .boot] π) (h_s : Same π σ s) :
    Same π σ (endBist s) := by
  unfold endBist
  repeat' first
    | with_reducible assumption
    | intro _
    | extract_lets
    | with_reducible refine clearMarks_same (Sub.trans (by decide) hl) ?_
    | with_reducible refine journalBist_same (Sub.trans (by decide) hl) ?_
    | with_reducible refine writeShutdown_same (Sub.trans (by decide) hl) ?_
    | with_reducible refine when_same ?_ ?_
    | with_reducible refine raise_same (Sub.trans (by decide) hl) ?_

theorem bistWave_same {σ : State} {π : List Part} {wave : Nat} {results : List (Nat × Nat)} {s : State} (hl : Sub [.win, .link, .ports, .ocl, .power, .boot] π) (h_s : Same π σ s) :
    Same π σ (bistWave wave results s) := by
  unfold bistWave
  repeat' first
    | with_reducible assumption
    | intro _
    | extract_lets
    | with_reducible refine same_ite ?_ ?_
    | with_reducible refine forEach_same ?_ ?_
    | with_reducible refine noteResult_same (Sub.trans (by decide) hl) ?_
    | with_reducible refine wr_same (Sub.trans (by decide) hl) ?_
    | with_reducible refine endBist_same (Sub.trans (by decide) hl) ?_
    | fail_if_no_progress with_reducible refine same_upd ?_ (fun p hp => by cases p <;> first | exact absurd (hl.mem (by decide)) hp | exact rfl | exact ⟨rfl, rfl⟩ | exact ⟨rfl, rfl, rfl, rfl⟩)
    | split

theorem execBistWave_same {σ : State} {π : List Part} {wave : Nat} {results : List (Nat × Nat)} {s : State} (hl : Sub [.win, .link, .ports, .ocl, .power, .boot] π) (h_s : Same π σ s) :
    ∃ τ, execBistWave wave results s = .next τ ∧ Same π σ τ := by
  refine ⟨_, rfl, ?_⟩
  repeat' first
    | with_reducible assumption
    | intro _
    | with_reducible refine bistWave_same (Sub.trans (by decide) hl) ?_

theorem halt_same {σ : State} {π : List Part} {s : State} (hl : Sub [.win, .cells, .cellMem, .stackMem, .prec, .sched, .kv, .svc, .ledger, .tune, .link, .ports, .ocl, .pair, .faults, .power, .boot, .sec, .mgmt] π) (h_s : Same π σ s) :
    Same π σ (halt s) := by
  unfold halt
  repeat' first
    | with_reducible assumption
    | intro _
    | extract_lets
    | with_reducible refine wr_same (Sub.trans (by decide) hl) ?_
    | with_reducible refine shutdown_same (Sub.trans (by decide) hl) ?_
    | with_reducible refine when_same ?_ ?_
    | with_reducible refine assertPwrOff_same (Sub.trans (by decide) hl) ?_
    | fail_if_no_progress with_reducible refine same_upd ?_ (fun p hp => by cases p <;> first | exact absurd (hl.mem (by decide)) hp | exact rfl | exact ⟨rfl, rfl⟩ | exact ⟨rfl, rfl, rfl, rfl⟩)

theorem afterDurable_same {σ : State} {π : List Part} {d : Durable} {s : State} (hl : Sub [.win, .cells, .cellMem, .stackMem, .prec, .sched, .kv, .svc, .ledger, .tune, .link, .ports, .ocl, .pair, .faults, .power, .boot, .sec, .mgmt, .free] π) (h_s : Same π σ s) :
    Same π σ (afterDurable d s) := by
  unfold afterDurable
  repeat' first
    | with_reducible assumption
    | intro _
    | with_reducible refine same_ite ?_ ?_
    | with_reducible refine epochDurable_same (Sub.trans (by decide) hl) ?_
    | with_reducible refine assertPwrOff_same (Sub.trans (by decide) hl) ?_
    | with_reducible refine shutdown_same (Sub.trans (by decide) hl) ?_
    | with_reducible refine halt_same (Sub.trans (by decide) hl) ?_
    | with_reducible refine lmsDurable_same (Sub.trans (by decide) hl) ?_
    | fail_if_no_progress with_reducible refine same_upd ?_ (fun p hp => by cases p <;> first | exact absurd (hl.mem (by decide)) hp | exact rfl | exact ⟨rfl, rfl⟩ | exact ⟨rfl, rfl, rfl, rfl⟩)
    | split

theorem journalWrite_same {σ : State} {π : List Part} {ok : Bool} {s : State} (hl : Sub [.win, .cells, .cellMem, .stackMem, .prec, .sched, .kv, .svc, .ledger, .tune, .link, .ports, .ocl, .pair, .faults, .power, .boot, .sec, .mgmt, .free] π) (h_s : Same π σ s) :
    Same π σ (journalWrite ok s) := by
  unfold journalWrite
  repeat' first
    | with_reducible assumption
    | intro _
    | extract_lets
    | with_reducible refine same_ite ?_ ?_
    | with_reducible refine journalStep_same (Sub.trans (by decide) hl) ?_
    | with_reducible refine afterDurable_same (Sub.trans (by decide) hl) ?_
    | with_reducible refine resumeSigning_same (Sub.trans (by decide) hl) ?_
    | fail_if_no_progress with_reducible refine same_upd ?_ (fun p hp => by cases p <;> first | exact absurd (hl.mem (by decide)) hp | exact rfl | exact ⟨rfl, rfl⟩ | exact ⟨rfl, rfl, rfl, rfl⟩)
    | split
    | dsimp +zetaDelta only

theorem execJournalWrite_same {σ : State} {π : List Part} {ok : Bool} {s : State} (hl : Sub [.win, .cells, .cellMem, .stackMem, .prec, .sched, .kv, .svc, .ledger, .tune, .link, .ports, .ocl, .pair, .faults, .power, .boot, .sec, .mgmt, .free] π) (h_s : Same π σ s) :
    ∃ τ, execJournalWrite ok s = .next τ ∧ Same π σ τ := by
  refine ⟨_, rfl, ?_⟩
  repeat' first
    | with_reducible assumption
    | intro _
    | with_reducible refine journalWrite_same (Sub.trans (by decide) hl) ?_

end Sys2Proof.Machine
end

