-- ==== Sys2Proof/Laws/FrameCellWin.lean ====
section
/-!
SUPPORT. The parts that may change, for every function of Machine/CellWin.lean that changes the state.
-/
set_option Elab.async false
namespace Sys2Proof.Machine
open Sys2Proof

theorem sendCfg_same {σ : State} {π : List Part} {a : CfgAccess} {s : State} (hl : Sub [.win, .mesh, .agent] π) (h_s : Same π σ s) :
    Same π σ (sendCfg a s) := by
  unfold sendCfg
  repeat' first
    | with_reducible assumption
    | intro _
    | with_reducible refine same_ite ?_ ?_
    | with_reducible refine passRoute0_same (Sub.trans (by decide) hl) ?_
    | with_reducible refine wr_same (Sub.trans (by decide) hl) ?_
    | fail_if_no_progress with_reducible refine same_upd ?_ (fun p hp => by cases p <;> first | exact absurd (hl.mem (by decide)) hp | exact rfl | exact ⟨rfl, rfl⟩ | exact ⟨rfl, rfl, rfl, rfl⟩)
    | split

theorem cellWinFail_same {σ : State} {π : List Part} {code : Nat} {s : State} (hl : Sub [.win, .link, .ports, .ocl, .agent] π) (h_s : Same π σ s) :
    Same π σ (cellWinFail code s) := by
  unfold cellWinFail
  repeat' first
    | with_reducible assumption
    | intro _
    | with_reducible refine raise_same (Sub.trans (by decide) hl) ?_
    | with_reducible refine wr_same (Sub.trans (by decide) hl) ?_
    | fail_if_no_progress with_reducible refine same_upd ?_ (fun p hp => by cases p <;> first | exact absurd (hl.mem (by decide)) hp | exact rfl | exact ⟨rfl, rfl⟩ | exact ⟨rfl, rfl, rfl, rfl⟩)

theorem cellWinGo_same {σ : State} {π : List Part} {write : Bool} {s : State} (hl : Sub [.win, .mesh, .link, .ports, .ocl, .agent] π) (h_s : Same π σ s) :
    Same π σ (cellWinGo write s) := by
  unfold cellWinGo
  repeat' first
    | with_reducible assumption
    | intro _
    | extract_lets
    | with_reducible refine same_ite ?_ ?_
    | with_reducible refine raise_same (Sub.trans (by decide) hl) ?_
    | with_reducible refine wrB_same (Sub.trans (by decide) hl) ?_
    | with_reducible refine wr_same (Sub.trans (by decide) hl) ?_
    | with_reducible refine cellWinFail_same (Sub.trans (by decide) hl) ?_
    | with_reducible refine sendCfg_same (Sub.trans (by decide) hl) ?_
    | fail_if_no_progress with_reducible refine same_upd ?_ (fun p hp => by cases p <;> first | exact absurd (hl.mem (by decide)) hp | exact rfl | exact ⟨rfl, rfl⟩ | exact ⟨rfl, rfl, rfl, rfl⟩)
    | split

theorem onWindow_same {σ : State} {π : List Part} {off : Nat} {act : State → State} {s : State} (hl : Sub [] π) (h_act : ∀ y0, Same π σ y0 → Same π σ (act y0)) (h_s : Same π σ s) :
    Same π σ (onWindow off act s) := by
  unfold onWindow
  repeat' first
    | with_reducible assumption
    | with_reducible apply h_act
    | intro _
    | with_reducible refine same_ite ?_ ?_
    | split

theorem execCellWinRead_same {σ : State} {π : List Part} {s : State} (hl : Sub [.win, .mesh, .link, .ports, .ocl, .agent] π) (h_s : Same π σ s) :
    ∃ τ, execCellWinRead s = .next τ ∧ Same π σ τ := by
  refine ⟨_, rfl, ?_⟩
  repeat' first
    | with_reducible assumption
    | intro _
    | with_reducible refine onWindow_same (Sub.trans (by decide) hl) ?_ ?_
    | with_reducible refine cellWinGo_same (Sub.trans (by decide) hl) ?_

theorem execCellWinWrite_same {σ : State} {π : List Part} {s : State} (hl : Sub [.win, .mesh, .link, .ports, .ocl, .agent] π) (h_s : Same π σ s) :
    ∃ τ, execCellWinWrite s = .next τ ∧ Same π σ τ := by
  refine ⟨_, rfl, ?_⟩
  repeat' first
    | with_reducible assumption
    | intro _
    | with_reducible refine onWindow_same (Sub.trans (by decide) hl) ?_ ?_
    | with_reducible refine cellWinGo_same (Sub.trans (by decide) hl) ?_

theorem cellWinDone_same {σ : State} {π : List Part} {a : CfgAccess} {d : Word} {s : State} (hl : Sub [.win, .link, .ports, .ocl, .agent] π) (h_s : Same π σ s) :
    Same π σ (cellWinDone a d s) := by
  unfold cellWinDone
  repeat' first
    | with_reducible assumption
    | intro _
    | extract_lets
    | with_reducible refine when_same ?_ ?_
    | with_reducible refine wr_same (Sub.trans (by decide) hl) ?_
    | with_reducible refine setReg_same (Sub.trans (by decide) hl) ?_
    | with_reducible refine raise_same (Sub.trans (by decide) hl) ?_
    | fail_if_no_progress with_reducible refine same_upd ?_ (fun p hp => by cases p <;> first | exact absurd (hl.mem (by decide)) hp | exact rfl | exact ⟨rfl, rfl⟩ | exact ⟨rfl, rfl, rfl, rfl⟩)

theorem cfgRsp_same {σ : State} {π : List Part} {err : Bool} {d : Word} {s : State} (hl : Sub [.win, .link, .ports, .ocl, .agent] π) (h_s : Same π σ s) :
    Same π σ (cfgRsp err d s) := by
  unfold cfgRsp
  repeat' first
    | with_reducible assumption
    | intro _
    | extract_lets
    | with_reducible refine same_ite ?_ ?_
    | with_reducible refine cellWinFail_same (Sub.trans (by decide) hl) ?_
    | with_reducible refine cellWinDone_same (Sub.trans (by decide) hl) ?_
    | fail_if_no_progress with_reducible refine same_upd ?_ (fun p hp => by cases p <;> first | exact absurd (hl.mem (by decide)) hp | exact rfl | exact ⟨rfl, rfl⟩ | exact ⟨rfl, rfl, rfl, rfl⟩)
    | split
    | dsimp +zetaDelta only

theorem execCfgRsp_same {σ : State} {π : List Part} {err : Bool} {d : Word} {s : State} (hl : Sub [.win, .link, .ports, .ocl, .agent] π) (h_s : Same π σ s) :
    ∃ τ, execCfgRsp err d s = .next τ ∧ Same π σ τ := by
  refine ⟨_, rfl, ?_⟩
  repeat' first
    | with_reducible assumption
    | intro _
    | with_reducible refine cfgRsp_same (Sub.trans (by decide) hl) ?_

theorem cellWinTimeout_same {σ : State} {π : List Part} {s : State} (hl : Sub [.win, .link, .ports, .ocl, .agent] π) (h_s : Same π σ s) :
    Same π σ (cellWinTimeout s) := by
  unfold cellWinTimeout
  repeat' first
    | with_reducible assumption
    | intro _
    | with_reducible refine same_ite ?_ ?_
    | with_reducible refine cellWinFail_same (Sub.trans (by decide) hl) ?_
    | fail_if_no_progress with_reducible refine same_upd ?_ (fun p hp => by cases p <;> first | exact absurd (hl.mem (by decide)) hp | exact rfl | exact ⟨rfl, rfl⟩ | exact ⟨rfl, rfl, rfl, rfl⟩)
    | split

theorem execCellWinTimeout_same {σ : State} {π : List Part} {s : State} (hl : Sub [.win, .link, .ports, .ocl, .agent] π) (h_s : Same π σ s) :
    ∃ τ, execCellWinTimeout s = .next τ ∧ Same π σ τ := by
  refine ⟨_, rfl, ?_⟩
  repeat' first
    | with_reducible assumption
    | intro _
    | with_reducible refine cellWinTimeout_same (Sub.trans (by decide) hl) ?_

theorem cellWinAgentFree_same {σ : State} {π : List Part} {s : State} (hl : Sub [.win, .mesh, .agent] π) (h_s : Same π σ s) :
    Same π σ (cellWinAgentFree s) := by
  unfold cellWinAgentFree
  repeat' first
    | with_reducible assumption
    | intro _
    | extract_lets
    | with_reducible refine same_ite ?_ ?_
    | with_reducible refine sendCfg_same (Sub.trans (by decide) hl) ?_
    | fail_if_no_progress with_reducible refine same_upd ?_ (fun p hp => by cases p <;> first | exact absurd (hl.mem (by decide)) hp | exact rfl | exact ⟨rfl, rfl⟩ | exact ⟨rfl, rfl, rfl, rfl⟩)
    | split
    | dsimp +zetaDelta only

theorem execCellWinAgentFree_same {σ : State} {π : List Part} {s : State} (hl : Sub [.win, .mesh, .agent] π) (h_s : Same π σ s) :
    ∃ τ, execCellWinAgentFree s = .next τ ∧ Same π σ τ := by
  refine ⟨_, rfl, ?_⟩
  repeat' first
    | with_reducible assumption
    | intro _
    | with_reducible refine cellWinAgentFree_same (Sub.trans (by decide) hl) ?_

end Sys2Proof.Machine
end

