-- ==== Sys2Proof/Laws/FrameOclRows.lean ====
section
/-!
SUPPORT. The parts that may change, for every function of Machine/OclRows.lean that changes the state.
-/
set_option Elab.async false
namespace Sys2Proof.Machine
open Sys2Proof

theorem takeMsg_same {σ : State} {π : List Part} {p : Msg → Bool} {s : State} (hl : Sub [.win, .link, .ports, .ocl] π) (h_s : Same π σ s) :
    Same π σ (takeMsg p s) := by
  unfold takeMsg
  repeat' first
    | with_reducible assumption
    | intro _
    | extract_lets
    | with_reducible refine same_ite ?_ ?_
    | with_reducible refine sendCredit_same (Sub.trans (by decide) hl) ?_
    | with_reducible refine modLink_same (Sub.trans (by decide) hl) ?_
    | fail_if_no_progress with_reducible refine same_upd ?_ (fun p hp => by cases p <;> first | exact absurd (hl.mem (by decide)) hp | exact rfl | exact ⟨rfl, rfl⟩ | exact ⟨rfl, rfl, rfl, rfl⟩)
    | split
    | dsimp +zetaDelta only

theorem setRxKey_same {σ : State} {π : List Part} {slot : Bool} {k : KeySlot} {s : State} (hl : Sub [.ocl] π) (h_s : Same π σ s) :
    Same π σ (setRxKey slot k s) := by
  unfold setRxKey
  repeat' first
    | with_reducible assumption
    | intro _
    | with_reducible refine same_ite ?_ ?_
    | fail_if_no_progress with_reducible refine same_upd ?_ (fun p hp => by cases p <;> first | exact absurd (hl.mem (by decide)) hp | exact rfl | exact ⟨rfl, rfl⟩ | exact ⟨rfl, rfl, rfl, rfl⟩)
    | split

theorem acceptSec_same {σ : State} {π : List Part} {m : Msg} {s : State} (hl : Sub [.win, .ocl] π) (h_s : Same π σ s) :
    Same π σ (acceptSec m s) := by
  unfold acceptSec
  repeat' first
    | with_reducible assumption
    | intro _
    | extract_lets
    | with_reducible refine same_ite ?_ ?_
    | with_reducible refine setRxKey_same (Sub.trans (by decide) hl) ?_
    | with_reducible refine wrB_same (Sub.trans (by decide) hl) ?_
    | fail_if_no_progress with_reducible refine same_upd ?_ (fun p hp => by cases p <;> first | exact absurd (hl.mem (by decide)) hp | exact rfl | exact ⟨rfl, rfl⟩ | exact ⟨rfl, rfl, rfl, rfl⟩)
    | split

theorem failSec_same {σ : State} {π : List Part} {s : State} (hl : Sub [.win, .link, .ports, .ocl] π) (h_s : Same π σ s) :
    Same π σ (failSec s) := by
  unfold failSec
  repeat' first
    | with_reducible assumption
    | intro _
    | with_reducible refine raise_same (Sub.trans (by decide) hl) ?_
    | fail_if_no_progress with_reducible refine same_upd ?_ (fun p hp => by cases p <;> first | exact absurd (hl.mem (by decide)) hp | exact rfl | exact ⟨rfl, rfl⟩ | exact ⟨rfl, rfl, rfl, rfl⟩)

theorem checked_same {σ : State} {π : List Part} {need : Bool} {m : Msg} {act : List Slot16 → State → State} {s : State} (hl : Sub [.win, .link, .ports, .ocl] π) (h_act : ∀ y0 y1, Same π σ y1 → Same π σ (act y0 y1)) (h_s : Same π σ s) :
    Same π σ (checked need m act s) := by
  unfold checked
  repeat' first
    | with_reducible assumption
    | with_reducible apply h_act
    | intro _
    | with_reducible refine same_ite ?_ ?_
    | with_reducible refine acceptSec_same (Sub.trans (by decide) hl) ?_
    | with_reducible refine failSec_same (Sub.trans (by decide) hl) ?_
    | split

theorem ringLine_same {σ : State} {π : List Part} {use : ReadUse} {v : Nat} {s : State} (hl : Sub [.win, .svc, .tune, .link, .ports, .ocl] π) (h_s : Same π σ s) :
    Same π σ (ringLine use v s) := by
  unfold ringLine
  repeat' first
    | with_reducible assumption
    | intro _
    | extract_lets
    | with_reducible refine same_ite ?_ ?_
    | with_reducible refine readEntries_same (Sub.trans (by decide) hl) ?_
    | with_reducible refine setCmdRing_same (Sub.trans (by decide) hl) ?_
    | with_reducible refine tuneFetch_same (Sub.trans (by decide) hl) ?_
    | with_reducible refine outputRoomWrite_same (Sub.trans (by decide) hl) ?_
    | with_reducible refine flushEvents_same (Sub.trans (by decide) hl) ?_
    | with_reducible refine when_same ?_ ?_
    | fail_if_no_progress with_reducible refine same_upd ?_ (fun p hp => by cases p <;> first | exact absurd (hl.mem (by decide)) hp | exact rfl | exact ⟨rfl, rfl⟩ | exact ⟨rfl, rfl, rfl, rfl⟩)
    | split
    | dsimp +zetaDelta only

theorem tokensRead_same {σ : State} {π : List Part} {id : Nat} {bs : List Byte} {s : State} (hl : Sub [.win, .stackMem, .budget, .kv, .svc, .link, .ports, .ocl, .pair, .free] π) (h_s : Same π σ s) :
    Same π σ (tokensRead id bs s) := by
  unfold tokensRead
  repeat' first
    | with_reducible assumption
    | intro _
    | extract_lets
    | with_reducible refine same_ite ?_ ?_
    | with_reducible refine modRequest_same (Sub.trans (by decide) hl) ?_
    | with_reducible refine endWhenQuiet_same (Sub.trans (by decide) hl) ?_
    | with_reducible refine readTokens_same (Sub.trans (by decide) hl) ?_
    | with_reducible refine mirrorTokens_same (Sub.trans (by decide) hl) ?_
    | fail_if_no_progress with_reducible refine same_upd ?_ (fun p hp => by cases p <;> first | exact absurd (hl.mem (by decide)) hp | exact rfl | exact ⟨rfl, rfl⟩ | exact ⟨rfl, rfl, rfl, rfl⟩)
    | split
    | dsimp +zetaDelta only

theorem sliceMapRead_same {σ : State} {π : List Part} {m : Nat} {bs : List Byte} {s : State} (hl : Sub [.win, .cells, .counters, .cellMem, .stackMem, .mesh, .budget, .kv, .svc, .ledger, .link, .ports, .ocl, .pair, .boot, .agent, .free] π) (h_s : Same π σ s) :
    Same π σ (sliceMapRead m bs s) := by
  unfold sliceMapRead
  repeat' first
    | with_reducible assumption
    | intro _
    | extract_lets
    | with_reducible refine same_ite ?_ ?_
    | with_reducible refine fetchSlices_same (Sub.trans (by decide) hl) ?_
    | with_reducible refine modModelSlot_same (Sub.trans (by decide) hl) ?_
    | with_reducible refine drainAhead_same (Sub.trans (by decide) hl) ?_
    | fail_if_no_progress with_reducible refine same_upd ?_ (fun p hp => by cases p <;> first | exact absurd (hl.mem (by decide)) hp | exact rfl | exact ⟨rfl, rfl⟩ | exact ⟨rfl, rfl, rfl, rfl⟩)
    | split

theorem fetchDone_same {σ : State} {π : List Part} {u : FetchUse} {bs : List Byte} {s : State} (hl : Sub [.win, .cells, .counters, .cellMem, .stackMem, .mesh, .sched, .budget, .kv, .svc, .ledger, .tune, .link, .ports, .ocl, .pair, .faults, .power, .boot, .agent, .free] π) (h_s : Same π σ s) :
    Same π σ (fetchDone u bs s) := by
  unfold fetchDone
  repeat' first
    | with_reducible assumption
    | intro _
    | with_reducible refine checkPartRead_same (Sub.trans (by decide) hl) ?_
    | with_reducible refine loadPartRead_same (Sub.trans (by decide) hl) ?_
    | with_reducible refine workPartRead_same (Sub.trans (by decide) hl) ?_
    | with_reducible refine stageRead_same (Sub.trans (by decide) hl) ?_
    | fail_if_no_progress with_reducible refine same_upd ?_ (fun p hp => by cases p <;> first | exact absurd (hl.mem (by decide)) hp | exact rfl | exact ⟨rfl, rfl⟩ | exact ⟨rfl, rfl, rfl, rfl⟩)
    | split

theorem fetchFailed_same {σ : State} {π : List Part} {u : FetchUse} {bs : List Byte} {s : State} (hl : Sub [.win, .cells, .counters, .cellMem, .stackMem, .mesh, .sched, .budget, .kv, .svc, .ledger, .tune, .link, .ports, .ocl, .pair, .faults, .power, .boot, .agent] π) (h_s : Same π σ s) :
    Same π σ (fetchFailed u bs s) := by
  unfold fetchFailed
  repeat' first
    | with_reducible assumption
    | intro _
    | with_reducible refine checkPartFailed_same (Sub.trans (by decide) hl) ?_
    | with_reducible refine endLoading_same (Sub.trans (by decide) hl) ?_
    | with_reducible refine workFailed_same (Sub.trans (by decide) hl) ?_
    | with_reducible refine stageFailed_same (Sub.trans (by decide) hl) ?_
    | fail_if_no_progress with_reducible refine same_upd ?_ (fun p hp => by cases p <;> first | exact absurd (hl.mem (by decide)) hp | exact rfl | exact ⟨rfl, rfl⟩ | exact ⟨rfl, rfl, rfl, rfl⟩)
    | split

theorem fetchLines_same {σ : State} {π : List Part} {u : FetchUse} {r : HostRead} {bs : List Byte} {s : State} (hl : Sub [.win, .cells, .counters, .cellMem, .stackMem, .mesh, .sched, .budget, .kv, .svc, .ledger, .tune, .link, .ports, .ocl, .pair, .faults, .power, .boot, .agent, .free] π) (h_s : Same π σ s) :
    Same π σ (fetchLines u r bs s) := by
  unfold fetchLines
  repeat' first
    | with_reducible assumption
    | intro _
    | extract_lets
    | with_reducible refine same_ite ?_ ?_
    | with_reducible refine dropFetches_same (Sub.trans (by decide) hl) ?_
    | with_reducible refine fetchDone_same (Sub.trans (by decide) hl) ?_
    | with_reducible refine fetchNext_same (Sub.trans (by decide) hl) ?_
    | fail_if_no_progress with_reducible refine same_upd ?_ (fun p hp => by cases p <;> first | exact absurd (hl.mem (by decide)) hp | exact rfl | exact ⟨rfl, rfl⟩ | exact ⟨rfl, rfl, rfl, rfl⟩)
    | split
    | dsimp +zetaDelta only

theorem fetchLost_same {σ : State} {π : List Part} {u : FetchUse} {r : HostRead} {s : State} (hl : Sub [.win, .cells, .counters, .cellMem, .stackMem, .mesh, .sched, .budget, .kv, .svc, .ledger, .tune, .link, .ports, .ocl, .pair, .faults, .power, .boot, .agent] π) (h_s : Same π σ s) :
    Same π σ (fetchLost u r s) := by
  unfold fetchLost
  repeat' first
    | with_reducible assumption
    | intro _
    | with_reducible refine same_ite ?_ ?_
    | with_reducible refine fetchFailed_same (Sub.trans (by decide) hl) ?_
    | with_reducible refine dropFetches_same (Sub.trans (by decide) hl) ?_
    | fail_if_no_progress with_reducible refine same_upd ?_ (fun p hp => by cases p <;> first | exact absurd (hl.mem (by decide)) hp | exact rfl | exact ⟨rfl, rfl⟩ | exact ⟨rfl, rfl, rfl, rfl⟩)
    | split

theorem readDone_same {σ : State} {π : List Part} {r : HostRead} {data : List Slot16} {s : State} (hl : Sub [.win, .cells, .counters, .cellMem, .stackMem, .mesh, .sched, .budget, .kv, .svc, .ledger, .tune, .link, .ports, .ocl, .pair, .faults, .power, .boot, .agent, .free] π) (h_s : Same π σ s) :
    Same π σ (readDone r data s) := by
  unfold readDone
  repeat' first
    | with_reducible assumption
    | intro _
    | extract_lets
    | with_reducible refine same_ite ?_ ?_
    | with_reducible refine when_same ?_ ?_
    | with_reducible refine ringHeader_same (Sub.trans (by decide) hl) ?_
    | with_reducible refine ringLine_same (Sub.trans (by decide) hl) ?_
    | with_reducible refine tokensRead_same (Sub.trans (by decide) hl) ?_
    | with_reducible refine sliceMapRead_same (Sub.trans (by decide) hl) ?_
    | with_reducible refine tuneTokensRead_same (Sub.trans (by decide) hl) ?_
    | with_reducible refine tuneEntryRead_same (Sub.trans (by decide) hl) ?_
    | with_reducible refine fetchLines_same (Sub.trans (by decide) hl) ?_
    | fail_if_no_progress with_reducible refine same_upd ?_ (fun p hp => by cases p <;> first | exact absurd (hl.mem (by decide)) hp | exact rfl | exact ⟨rfl, rfl⟩ | exact ⟨rfl, rfl, rfl, rfl⟩)
    | split
    | dsimp +zetaDelta only

theorem tuneReadFailed_same {σ : State} {π : List Part} {s : State} (hl : Sub [.win, .tune, .link, .ports, .ocl] π) (h_s : Same π σ s) :
    Same π σ (tuneReadFailed s) := by
  unfold tuneReadFailed
  repeat' first
    | with_reducible assumption
    | intro _
    | extract_lets
    | with_reducible refine same_ite ?_ ?_
    | with_reducible refine tuneFetch_same (Sub.trans (by decide) hl) ?_
    | with_reducible refine raise_same (Sub.trans (by decide) hl) ?_
    | with_reducible refine tuneEntryRead_same (Sub.trans (by decide) hl) ?_
    | fail_if_no_progress with_reducible refine same_upd ?_ (fun p hp => by cases p <;> first | exact absurd (hl.mem (by decide)) hp | exact rfl | exact ⟨rfl, rfl⟩ | exact ⟨rfl, rfl, rfl, rfl⟩)
    | split
    | dsimp +zetaDelta only

theorem readFailed_same {σ : State} {π : List Part} {r : HostRead} {s : State} (hl : Sub [.win, .cells, .counters, .cellMem, .stackMem, .mesh, .sched, .budget, .kv, .svc, .ledger, .tune, .link, .ports, .ocl, .pair, .faults, .power, .boot, .agent] π) (h_s : Same π σ s) :
    Same π σ (readFailed r s) := by
  unfold readFailed
  repeat' first
    | with_reducible assumption
    | intro _
    | with_reducible refine same_ite ?_ ?_
    | with_reducible refine ringUnread_same (Sub.trans (by decide) hl) ?_
    | with_reducible refine endWhenQuiet_same (Sub.trans (by decide) hl) ?_
    | with_reducible refine endReceive_same (Sub.trans (by decide) hl) ?_
    | with_reducible refine tuneReadFailed_same (Sub.trans (by decide) hl) ?_
    | with_reducible refine fetchLost_same (Sub.trans (by decide) hl) ?_
    | fail_if_no_progress with_reducible refine same_upd ?_ (fun p hp => by cases p <;> first | exact absurd (hl.mem (by decide)) hp | exact rfl | exact ⟨rfl, rfl⟩ | exact ⟨rfl, rfl, rfl, rfl⟩)
    | split

theorem readError_same {σ : State} {π : List Part} {late : Bool} {r : HostRead} {s : State} (hl : Sub [.win, .cells, .counters, .cellMem, .stackMem, .mesh, .sched, .budget, .kv, .svc, .ledger, .tune, .link, .ports, .ocl, .pair, .faults, .power, .boot, .agent] π) (h_s : Same π σ s) :
    Same π σ (readError late r s) := by
  unfold readError
  repeat' first
    | with_reducible assumption
    | intro _
    | extract_lets
    | with_reducible refine same_ite ?_ ?_
    | with_reducible refine bump_same (Sub.trans (by decide) hl) ?_
    | with_reducible refine reads_same (Sub.trans (by decide) hl) ?_
    | with_reducible refine setReg_same (Sub.trans (by decide) hl) ?_
    | with_reducible refine issueWaiting_same (Sub.trans (by decide) hl) ?_
    | with_reducible refine readFailed_same (Sub.trans (by decide) hl) ?_
    | with_reducible refine raise_same (Sub.trans (by decide) hl) ?_
    | with_reducible refine raiseBoth_same (Sub.trans (by decide) hl) ?_
    | with_reducible refine when_same ?_ ?_
    | with_reducible refine sendRead_same (Sub.trans (by decide) hl) ?_
    | fail_if_no_progress with_reducible refine same_upd ?_ (fun p hp => by cases p <;> first | exact absurd (hl.mem (by decide)) hp | exact rfl | exact ⟨rfl, rfl⟩ | exact ⟨rfl, rfl, rfl, rfl⟩)
    | split

theorem completeRead_same {σ : State} {π : List Part} {r : HostRead} {status : Nat} {poison : Bool} {data : List Slot16} {s : State} (hl : Sub [.win, .cells, .counters, .cellMem, .stackMem, .mesh, .sched, .budget, .kv, .svc, .ledger, .tune, .link, .ports, .ocl, .pair, .faults, .power, .boot, .agent, .free] π) (h_s : Same π σ s) :
    Same π σ (completeRead r status poison data s) := by
  unfold completeRead
  repeat' first
    | with_reducible assumption
    | intro _
    | with_reducible refine same_ite ?_ ?_
    | with_reducible refine readError_same (Sub.trans (by decide) hl) ?_
    | with_reducible refine discardMsg_same (Sub.trans (by decide) hl) ?_
    | with_reducible refine issueWaiting_same (Sub.trans (by decide) hl) ?_
    | with_reducible refine readDone_same (Sub.trans (by decide) hl) ?_
    | with_reducible refine reads_same (Sub.trans (by decide) hl) ?_
    | fail_if_no_progress with_reducible refine same_upd ?_ (fun p hp => by cases p <;> first | exact absurd (hl.mem (by decide)) hp | exact rfl | exact ⟨rfl, rfl⟩ | exact ⟨rfl, rfl, rfl, rfl⟩)
    | split

theorem cplData_same {σ : State} {π : List Part} {tag : Nat} {status : Nat} {poison : Bool} {data : List Slot16} {sec : MsgSec} {s0 : State} (hl : Sub [.win, .cells, .counters, .cellMem, .stackMem, .mesh, .sched, .budget, .kv, .svc, .ledger, .tune, .link, .ports, .ocl, .pair, .faults, .power, .boot, .agent, .free] π) (h_s0 : Same π σ s0) :
    Same π σ (cplData tag status poison data sec s0) := by
  unfold cplData
  repeat' first
    | with_reducible assumption
    | intro _
    | extract_lets
    | with_reducible refine same_ite ?_ ?_
    | with_reducible refine takeMsg_same (Sub.trans (by decide) hl) ?_
    | with_reducible refine discardMsg_same (Sub.trans (by decide) hl) ?_
    | with_reducible refine checked_same (Sub.trans (by decide) hl) ?_ ?_
    | with_reducible refine bump_same (Sub.trans (by decide) hl) ?_
    | with_reducible refine completeRead_same (Sub.trans (by decide) hl) ?_
    | fail_if_no_progress with_reducible refine same_upd ?_ (fun p hp => by cases p <;> first | exact absurd (hl.mem (by decide)) hp | exact rfl | exact ⟨rfl, rfl⟩ | exact ⟨rfl, rfl, rfl, rfl⟩)
    | split
    | dsimp +zetaDelta only

theorem execCplData_same {σ : State} {π : List Part} {tag : Nat} {status : Nat} {poison : Bool} {data : List Slot16} {sec : MsgSec} {s : State} (hl : Sub [.win, .cells, .counters, .cellMem, .stackMem, .mesh, .sched, .budget, .kv, .svc, .ledger, .tune, .link, .ports, .ocl, .pair, .faults, .power, .boot, .agent, .free] π) (h_s : Same π σ s) :
    ∃ τ, execCplData tag status poison data sec s = .next τ ∧ Same π σ τ := by
  refine ⟨_, rfl, ?_⟩
  repeat' first
    | with_reducible assumption
    | intro _
    | with_reducible refine cplData_same (Sub.trans (by decide) hl) ?_

theorem cplTimeout_same {σ : State} {π : List Part} {tag : Nat} {s : State} (hl : Sub [.win, .cells, .counters, .cellMem, .stackMem, .mesh, .sched, .budget, .kv, .svc, .ledger, .tune, .link, .ports, .ocl, .pair, .faults, .power, .boot, .agent] π) (h_s : Same π σ s) :
    Same π σ (cplTimeout tag s) := by
  unfold cplTimeout
  repeat' first
    | with_reducible assumption
    | intro _
    | with_reducible refine same_ite ?_ ?_
    | with_reducible refine readError_same (Sub.trans (by decide) hl) ?_
    | fail_if_no_progress with_reducible refine same_upd ?_ (fun p hp => by cases p <;> first | exact absurd (hl.mem (by decide)) hp | exact rfl | exact ⟨rfl, rfl⟩ | exact ⟨rfl, rfl, rfl, rfl⟩)
    | split

theorem execCplTimeout_same {σ : State} {π : List Part} {tag : Nat} {s : State} (hl : Sub [.win, .cells, .counters, .cellMem, .stackMem, .mesh, .sched, .budget, .kv, .svc, .ledger, .tune, .link, .ports, .ocl, .pair, .faults, .power, .boot, .agent] π) (h_s : Same π σ s) :
    ∃ τ, execCplTimeout tag s = .next τ ∧ Same π σ τ := by
  refine ⟨_, rfl, ?_⟩
  repeat' first
    | with_reducible assumption
    | intro _
    | with_reducible refine cplTimeout_same (Sub.trans (by decide) hl) ?_

theorem snpInv_same {σ : State} {π : List Part} {addr : Nat} {s0 : State} (hl : Sub [.win, .link, .ports, .ocl] π) (h_s0 : Same π σ s0) :
    Same π σ (snpInv addr s0) := by
  unfold snpInv
  repeat' first
    | with_reducible assumption
    | intro _
    | extract_lets
    | with_reducible refine same_ite ?_ ?_
    | with_reducible refine takeMsg_same (Sub.trans (by decide) hl) ?_
    | with_reducible refine discardMsg_same (Sub.trans (by decide) hl) ?_
    | with_reducible refine sendSnpAck_same (Sub.trans (by decide) hl) ?_
    | with_reducible refine hostRead_same (Sub.trans (by decide) hl) ?_
    | fail_if_no_progress with_reducible refine same_upd ?_ (fun p hp => by cases p <;> first | exact absurd (hl.mem (by decide)) hp | exact rfl | exact ⟨rfl, rfl⟩ | exact ⟨rfl, rfl, rfl, rfl⟩)
    | split
    | dsimp +zetaDelta only

theorem execSnpInv_same {σ : State} {π : List Part} {addr : Nat} {s : State} (hl : Sub [.win, .link, .ports, .ocl] π) (h_s : Same π σ s) :
    ∃ τ, execSnpInv addr s = .next τ ∧ Same π σ τ := by
  refine ⟨_, rfl, ?_⟩
  repeat' first
    | with_reducible assumption
    | intro _
    | with_reducible refine snpInv_same (Sub.trans (by decide) hl) ?_

theorem creditRow_same {σ : State} {π : List Part} {req : Nat} {post : Nat} {init : Bool} {s0 : State} (hl : Sub [.win, .link, .ports, .ocl] π) (h_s0 : Same π σ s0) :
    Same π σ (creditRow req post init s0) := by
  unfold creditRow
  repeat' first
    | with_reducible assumption
    | intro _
    | extract_lets
    | with_reducible refine same_ite ?_ ?_
    | with_reducible refine takeMsg_same (Sub.trans (by decide) hl) ?_
    | with_reducible refine pump_same (Sub.trans (by decide) hl) ?_
    | with_reducible refine modLink_same (Sub.trans (by decide) hl) ?_
    | fail_if_no_progress with_reducible refine same_upd ?_ (fun p hp => by cases p <;> first | exact absurd (hl.mem (by decide)) hp | exact rfl | exact ⟨rfl, rfl⟩ | exact ⟨rfl, rfl, rfl, rfl⟩)
    | split

theorem execCredit_same {σ : State} {π : List Part} {req : Nat} {post : Nat} {init : Bool} {s : State} (hl : Sub [.win, .link, .ports, .ocl] π) (h_s : Same π σ s) :
    ∃ τ, execCredit req post init s = .next τ ∧ Same π σ τ := by
  refine ⟨_, rfl, ?_⟩
  repeat' first
    | with_reducible assumption
    | intro _
    | with_reducible refine creditRow_same (Sub.trans (by decide) hl) ?_

theorem intrModeration_same {σ : State} {π : List Part} {v : Nat} {s : State} (hl : Sub [.win, .link, .ports, .ocl] π) (h_s : Same π σ s) :
    Same π σ (intrModeration v s) := by
  unfold intrModeration
  repeat' first
    | with_reducible assumption
    | intro _
    | with_reducible refine same_ite ?_ ?_
    | with_reducible refine interrupt_same (Sub.trans (by decide) hl) ?_
    | split

theorem execIntrModeration_same {σ : State} {π : List Part} {vector : Nat} {s : State} (hl : Sub [.win, .link, .ports, .ocl] π) (h_s : Same π σ s) :
    ∃ τ, execIntrModeration vector s = .next τ ∧ Same π σ τ := by
  refine ⟨_, rfl, ?_⟩
  repeat' first
    | with_reducible assumption
    | intro _
    | with_reducible refine intrModeration_same (Sub.trans (by decide) hl) ?_

theorem doorbell_same {σ : State} {π : List Part} {v : Word} {s : State} (hl : Sub [.win, .link, .ports, .ocl] π) (h_s : Same π σ s) :
    Same π σ (doorbell v s) := by
  unfold doorbell
  repeat' first
    | with_reducible assumption
    | intro _
    | extract_lets
    | with_reducible refine same_ite ?_ ?_
    | with_reducible refine when_same ?_ ?_
    | with_reducible refine hostRead_same (Sub.trans (by decide) hl) ?_
    | with_reducible refine forEach_same ?_ ?_
    | split

theorem execDoorbell_same {σ : State} {π : List Part} {value : Word} {s : State} (hl : Sub [.win, .link, .ports, .ocl] π) (h_s : Same π σ s) :
    ∃ τ, execDoorbell value s = .next τ ∧ Same π σ τ := by
  refine ⟨_, rfl, ?_⟩
  repeat' first
    | with_reducible assumption
    | intro _
    | with_reducible refine onWindow_same (Sub.trans (by decide) hl) ?_ ?_
    | with_reducible refine doorbell_same (Sub.trans (by decide) hl) ?_

theorem oclEncMode_same {σ : State} {π : List Part} {mode : Nat} {s : State} (hl : Sub [.win, .link, .ports, .ocl] π) (h_s : Same π σ s) :
    Same π σ (oclEncMode mode s) := by
  unfold oclEncMode
  repeat' first
    | with_reducible assumption
    | intro _
    | extract_lets
    | with_reducible refine same_ite ?_ ?_
    | with_reducible refine raise_same (Sub.trans (by decide) hl) ?_
    | with_reducible refine wr_same (Sub.trans (by decide) hl) ?_
    | split

theorem execOclEncMode_same {σ : State} {π : List Part} {mode : Nat} {s : State} (hl : Sub [.win, .link, .ports, .ocl] π) (h_s : Same π σ s) :
    ∃ τ, execOclEncMode mode s = .next τ ∧ Same π σ τ := by
  refine ⟨_, rfl, ?_⟩
  repeat' first
    | with_reducible assumption
    | intro _
    | with_reducible refine onWindow_same (Sub.trans (by decide) hl) ?_ ?_
    | with_reducible refine oclEncMode_same (Sub.trans (by decide) hl) ?_

theorem reopen_same {σ : State} {π : List Part} {s : State} (hl : Sub [.win, .cells, .counters, .cellMem, .stackMem, .mesh, .sched, .budget, .kv, .svc, .ledger, .tune, .link, .ports, .ocl, .pair, .faults, .power, .boot, .agent, .free] π) (h_s : Same π σ s) :
    Same π σ (reopen s) := by
  unfold reopen
  repeat' first
    | with_reducible assumption
    | intro _
    | extract_lets
    | with_reducible refine same_ite ?_ ?_
    | with_reducible refine resume_same (Sub.trans (by decide) hl) ?_
    | with_reducible refine forEach_same ?_ ?_
    | with_reducible refine readError_same (Sub.trans (by decide) hl) ?_
    | fail_if_no_progress with_reducible refine same_upd ?_ (fun p hp => by cases p <;> first | exact absurd (hl.mem (by decide)) hp | exact rfl | exact ⟨rfl, rfl⟩ | exact ⟨rfl, rfl, rfl, rfl⟩)
    | split

theorem kemFinishRow_same {σ : State} {π : List Part} {s : State} (hl : Sub [.win, .cells, .counters, .cellMem, .stackMem, .mesh, .sched, .budget, .kv, .svc, .ledger, .tune, .link, .ports, .ocl, .pair, .faults, .power, .boot, .sec, .agent, .free] π) (h_s : Same π σ s) :
    Same π σ (kemFinishRow s) := by
  unfold kemFinishRow
  repeat' first
    | with_reducible assumption
    | intro _
    | extract_lets
    | with_reducible refine same_ite ?_ ?_
    | with_reducible refine kemFinish_same (Sub.trans (by decide) hl) ?_
    | with_reducible refine reopen_same (Sub.trans (by decide) hl) ?_
    | split

theorem execKemFinish_same {σ : State} {π : List Part} {s : State} (hl : Sub [.win, .cells, .counters, .cellMem, .stackMem, .mesh, .sched, .budget, .kv, .svc, .ledger, .tune, .link, .ports, .ocl, .pair, .faults, .power, .boot, .sec, .agent, .free] π) (h_s : Same π σ s) :
    ∃ τ, execKemFinish s = .next τ ∧ Same π σ τ := by
  refine ⟨_, rfl, ?_⟩
  repeat' first
    | with_reducible assumption
    | intro _
    | with_reducible refine mbxCommand_same (Sub.trans (by decide) hl) ?_ ?_
    | with_reducible refine kemFinishRow_same (Sub.trans (by decide) hl) ?_

end Sys2Proof.Machine
end

