-- ==== Sys2Proof/Laws/FrameWindow.lean ====
section
/-!
SUPPORT. The parts that may change, for every function of Machine/Window.lean that changes the state.
-/
set_option Elab.async false
namespace Sys2Proof.Machine
open Sys2Proof

theorem setLatch_same {σ : State} {π : List Part} {mgmt : Bool} {off : Nat} {v : Word} {s : State} (hl : Sub [.latch] π) (h_s : Same π σ s) :
    Same π σ (setLatch mgmt off v s) := by
  unfold setLatch
  repeat' first
    | with_reducible assumption
    | intro _
    | with_reducible refine same_ite ?_ ?_
    | fail_if_no_progress with_reducible refine same_upd ?_ (fun p hp => by cases p <;> first | exact absurd (hl.mem (by decide)) hp | exact rfl | exact ⟨rfl, rfl⟩ | exact ⟨rfl, rfl, rfl, rfl⟩)
    | split

theorem clearOnRead_same {σ : State} {π : List Part} {off : Nat} {r : RegRow} {s : State} (hl : Sub [.win, .prec, .free] π) (h_s : Same π σ s) :
    Same π σ (clearOnRead off r s) := by
  unfold clearOnRead
  repeat' first
    | with_reducible assumption
    | intro _
    | extract_lets
    | with_reducible refine same_ite ?_ ?_
    | with_reducible refine setLayerPrec_same (Sub.trans (by decide) hl) ?_
    | with_reducible refine takeFree_same (Sub.trans (by decide) hl) ?_
    | with_reducible refine setReg_same (Sub.trans (by decide) hl) ?_
    | fail_if_no_progress with_reducible refine same_upd ?_ (fun p hp => by cases p <;> first | exact absurd (hl.mem (by decide)) hp | exact rfl | exact ⟨rfl, rfl⟩ | exact ⟨rfl, rfl, rfl, rfl⟩)
    | split

theorem readReg_same {σ : State} {π : List Part} {mgmt : Bool} {plain : Bool} {off : Nat} {s : State} (hl : Sub [.win, .latch, .prec, .free] π) (h_s : Same π σ s) :
    Same π σ (readReg mgmt plain off s).2 := by
  unfold readReg
  repeat' first
    | with_reducible assumption
    | intro _
    | extract_lets
    | with_reducible refine same_ite ?_ ?_
    | with_reducible refine when_same ?_ ?_
    | with_reducible refine setLatch_same (Sub.trans (by decide) hl) ?_
    | with_reducible refine clearOnRead_same (Sub.trans (by decide) hl) ?_
    | fail_if_no_progress with_reducible refine same_upd ?_ (fun p hp => by cases p <;> first | exact absurd (hl.mem (by decide)) hp | exact rfl | exact ⟨rfl, rfl⟩ | exact ⟨rfl, rfl, rfl, rfl⟩)
    | with_reducible refine same_snd_ite ?_ ?_
    | split
    | dsimp +zetaDelta only

theorem readWord_same {σ : State} {π : List Part} {mgmt : Bool} {off : Nat} {s : State} (hl : Sub [.win, .latch, .prec, .free] π) (h_s : Same π σ s) :
    Same π σ (readWord mgmt off s).2 := by
  unfold readWord
  repeat' first
    | with_reducible assumption
    | intro _
    | extract_lets
    | with_reducible refine same_ite ?_ ?_
    | with_reducible refine readReg_same (Sub.trans (by decide) hl) ?_
    | with_reducible refine same_snd_ite ?_ ?_
    | split

theorem readWindow_same {σ : State} {π : List Part} {mgmt : Bool} {off : Nat} {size : Nat} {s : State} (hl : Sub [.win, .latch, .prec, .free] π) (h_s : Same π σ s) :
    Same π σ (readWindow mgmt off size s).2 := by
  unfold readWindow
  repeat' first
    | with_reducible assumption
    | intro _
    | extract_lets
    | with_reducible refine same_ite ?_ ?_
    | with_reducible refine readWord_same (Sub.trans (by decide) hl) ?_
    | with_reducible refine same_snd_ite ?_ ?_
    | split

theorem putReg_same {σ : State} {π : List Part} {off : Nat} {rw : Nat} {v : Word} {s : State} (hl : Sub [.win] π) (h_s : Same π σ s) :
    Same π σ (putReg off rw v s) := by
  unfold putReg
  repeat' first
    | with_reducible assumption
    | intro _
    | extract_lets
    | with_reducible refine setReg_same (Sub.trans (by decide) hl) ?_

theorem writeCellWin_same {σ : State} {π : List Part} {off : Nat} {r : RegRow} {v : Word} {s : State} (hl : Sub [.win, .mesh, .link, .ports, .ocl, .agent] π) (h_s : Same π σ s) :
    Same π σ (writeCellWin off r v s) := by
  unfold writeCellWin
  repeat' first
    | with_reducible assumption
    | intro _
    | with_reducible refine same_ite ?_ ?_
    | with_reducible refine cellWinGo_same (Sub.trans (by decide) hl) ?_
    | with_reducible refine raise_same (Sub.trans (by decide) hl) ?_
    | with_reducible refine putReg_same (Sub.trans (by decide) hl) ?_
    | split

theorem writeSched_same {σ : State} {π : List Part} {off : Nat} {r : RegRow} {v : Word} {s : State} (hl : Sub [.win, .sched, .link, .ports, .ocl, .mgmt] π) (h_s : Same π σ s) :
    Same π σ (writeSched off r v s) := by
  unfold writeSched
  repeat' first
    | with_reducible assumption
    | intro _
    | with_reducible refine same_ite ?_ ?_
    | with_reducible refine extEn_same (Sub.trans (by decide) hl) ?_
    | with_reducible refine wrB_same (Sub.trans (by decide) hl) ?_
    | with_reducible refine loadGo_same (Sub.trans (by decide) hl) ?_
    | with_reducible refine putReg_same (Sub.trans (by decide) hl) ?_
    | split

theorem writePrec_same {σ : State} {π : List Part} {off : Nat} {r : RegRow} {v : Word} {s : State} (hl : Sub [.win, .prec, .link, .ports, .ocl] π) (h_s : Same π σ s) :
    Same π σ (writePrec off r v s) := by
  unfold writePrec
  repeat' first
    | with_reducible assumption
    | intro _
    | with_reducible refine same_ite ?_ ?_
    | with_reducible refine recipeWinDataWrite_same (Sub.trans (by decide) hl) ?_
    | with_reducible refine modelRecipeWrite_same (Sub.trans (by decide) hl) ?_
    | with_reducible refine putReg_same (Sub.trans (by decide) hl) ?_
    | split

theorem writeKv_same {σ : State} {π : List Part} {off : Nat} {r : RegRow} {v : Word} {s : State} (hl : Sub [.win, .stackMem, .kv, .link, .ports, .ocl] π) (h_s : Same π σ s) :
    Same π σ (writeKv off r v s) := by
  unfold writeKv
  repeat' first
    | with_reducible assumption
    | intro _
    | extract_lets
    | with_reducible refine same_ite ?_ ?_
    | with_reducible refine putReg_same (Sub.trans (by decide) hl) ?_
    | with_reducible refine poolEnable_same (Sub.trans (by decide) hl) ?_
    | with_reducible refine poolDisable_same (Sub.trans (by decide) hl) ?_
    | with_reducible refine posLimitWrite_same (Sub.trans (by decide) hl) ?_
    | with_reducible refine raise_same (Sub.trans (by decide) hl) ?_
    | split

theorem openRing_same {σ : State} {π : List Part} {k : Nat} {s : State} (hl : Sub [.win, .svc, .link, .ports, .ocl] π) (h_s : Same π σ s) :
    Same π σ (openRing k s) := by
  unfold openRing
  repeat' first
    | with_reducible assumption
    | intro _
    | with_reducible refine same_ite ?_ ?_
    | with_reducible refine hostRead_same (Sub.trans (by decide) hl) ?_
    | with_reducible refine beginRing_same (Sub.trans (by decide) hl) ?_
    | split

theorem closeRing_same {σ : State} {π : List Part} {k : Nat} {s : State} (hl : Sub [.win, .svc, .link, .ports, .ocl] π) (h_s : Same π σ s) :
    Same π σ (closeRing k s) := by
  unfold closeRing
  repeat' first
    | with_reducible assumption
    | intro _
    | with_reducible refine unwatchRing_same (Sub.trans (by decide) hl) ?_
    | with_reducible refine wr_same (Sub.trans (by decide) hl) ?_
    | with_reducible refine markRead_same (Sub.trans (by decide) hl) ?_

theorem writeRingBase_same {σ : State} {π : List Part} {k : Nat} {off : Nat} {r : RegRow} {v : Word} {s : State} (hl : Sub [.win] π) (h_s : Same π σ s) :
    Same π σ (writeRingBase k off r v s) := by
  unfold writeRingBase
  repeat' first
    | with_reducible assumption
    | intro _
    | with_reducible refine same_ite ?_ ?_
    | with_reducible refine putReg_same (Sub.trans (by decide) hl) ?_
    | split

theorem writeRingCfg_same {σ : State} {π : List Part} {k : Nat} {off : Nat} {r : RegRow} {v : Word} {s : State} (hl : Sub [.win, .svc, .link, .ports, .ocl] π) (h_s : Same π σ s) :
    Same π σ (writeRingCfg k off r v s) := by
  unfold writeRingCfg
  repeat' first
    | with_reducible assumption
    | intro _
    | extract_lets
    | with_reducible refine same_ite ?_ ?_
    | with_reducible refine putReg_same (Sub.trans (by decide) hl) ?_
    | with_reducible refine closeRing_same (Sub.trans (by decide) hl) ?_
    | with_reducible refine openRing_same (Sub.trans (by decide) hl) ?_
    | split

theorem writeService_same {σ : State} {π : List Part} {off : Nat} {r : RegRow} {v : Word} {s : State} (hl : Sub [.win, .svc, .link, .ports, .ocl] π) (h_s : Same π σ s) :
    Same π σ (writeService off r v s) := by
  unfold writeService
  repeat' first
    | with_reducible assumption
    | intro _
    | extract_lets
    | with_reducible refine same_ite ?_ ?_
    | with_reducible refine putReg_same (Sub.trans (by decide) hl) ?_
    | with_reducible refine writeRingCfg_same (Sub.trans (by decide) hl) ?_
    | with_reducible refine writeRingBase_same (Sub.trans (by decide) hl) ?_
    | split

theorem writeTune_same {σ : State} {π : List Part} {off : Nat} {r : RegRow} {v : Word} {s : State} (hl : Sub [.win, .svc, .tune, .link, .ports, .ocl] π) (h_s : Same π σ s) :
    Same π σ (writeTune off r v s) := by
  unfold writeTune
  repeat' first
    | with_reducible assumption
    | intro _
    | with_reducible refine same_ite ?_ ?_
    | with_reducible refine tuneCtrl_same (Sub.trans (by decide) hl) ?_
    | with_reducible refine putReg_same (Sub.trans (by decide) hl) ?_
    | with_reducible refine when_same ?_ ?_
    | with_reducible refine noBlockYet_same (Sub.trans (by decide) hl) ?_
    | with_reducible refine tuneRefuse_same (Sub.trans (by decide) hl) ?_
    | with_reducible refine writeRingCfg_same (Sub.trans (by decide) hl) ?_
    | with_reducible refine writeRingBase_same (Sub.trans (by decide) hl) ?_
    | split

theorem writeOcl_same {σ : State} {π : List Part} {off : Nat} {r : RegRow} {v : Word} {s : State} (hl : Sub [.win, .svc, .link, .ports, .ocl] π) (h_s : Same π σ s) :
    Same π σ (writeOcl off r v s) := by
  unfold writeOcl
  repeat' first
    | with_reducible assumption
    | intro _
    | with_reducible refine same_ite ?_ ?_
    | with_reducible refine when_same ?_ ?_
    | with_reducible refine enterRetrain_same (Sub.trans (by decide) hl) ?_
    | with_reducible refine oclEncMode_same (Sub.trans (by decide) hl) ?_
    | with_reducible refine doorbell_same (Sub.trans (by decide) hl) ?_
    | with_reducible refine writeRingCfg_same (Sub.trans (by decide) hl) ?_
    | with_reducible refine writeRingBase_same (Sub.trans (by decide) hl) ?_
    | with_reducible refine putReg_same (Sub.trans (by decide) hl) ?_
    | split

theorem resetGo_same {σ : State} {π : List Part} {scope : Nat} {c : Nat} {s : State} (hl : Sub [.win, .latch, .cells, .counters, .accs, .cellMem, .stackMem, .mesh, .prec, .sched, .beat, .budget, .kv, .svc, .ledger, .tune, .link, .ports, .ocl, .pair, .faults, .power, .boot, .sec, .agent, .mgmt, .now] π) (h_s : Same π σ s) :
    Same π σ (resetGo scope c s) := by
  unfold resetGo
  repeat' first
    | with_reducible assumption
    | intro _
    | with_reducible refine requestReset_same (Sub.trans (by decide) hl) ?_
    | with_reducible refine wholeRequest_same (Sub.trans (by decide) hl) ?_
    | with_reducible refine wr_same (Sub.trans (by decide) hl) ?_
    | fail_if_no_progress with_reducible refine same_upd ?_ (fun p hp => by cases p <;> first | exact absurd (hl.mem (by decide)) hp | exact rfl | exact ⟨rfl, rfl⟩ | exact ⟨rfl, rfl, rfl, rfl⟩)
    | split

theorem writeFault_same {σ : State} {π : List Part} {off : Nat} {r : RegRow} {v : Word} {s : State} (hl : Sub [.win, .latch, .cells, .counters, .accs, .cellMem, .stackMem, .mesh, .prec, .sched, .beat, .budget, .kv, .svc, .ledger, .tune, .link, .ports, .ocl, .pair, .faults, .power, .boot, .sec, .agent, .mgmt, .now] π) (h_s : Same π σ s) :
    Same π σ (writeFault off r v s) := by
  unfold writeFault
  repeat' first
    | with_reducible assumption
    | intro _
    | with_reducible refine same_ite ?_ ?_
    | with_reducible refine when_same ?_ ?_
    | with_reducible refine fatal_same (Sub.trans (by decide) hl) ?_
    | with_reducible refine putReg_same (Sub.trans (by decide) hl) ?_
    | with_reducible refine resetGo_same (Sub.trans (by decide) hl) ?_
    | split

theorem writeBoot_same {σ : State} {π : List Part} {off : Nat} {r : RegRow} {v : Word} {s : State} (hl : Sub [.win, .latch, .cells, .counters, .accs, .cellMem, .stackMem, .mesh, .prec, .sched, .beat, .budget, .kv, .svc, .ledger, .tune, .link, .ports, .ocl, .pair, .faults, .power, .boot, .sec, .agent, .mgmt, .now] π) (h_s : Same π σ s) :
    Same π σ (writeBoot off r v s) := by
  unfold writeBoot
  repeat' first
    | with_reducible assumption
    | intro _
    | with_reducible refine same_ite ?_ ?_
    | with_reducible refine when_same ?_ ?_
    | with_reducible refine restart_same (Sub.trans (by decide) hl) ?_
    | with_reducible refine clearFails_same (Sub.trans (by decide) hl) ?_
    | with_reducible refine shutdown_same (Sub.trans (by decide) hl) ?_
    | with_reducible refine stageCtrl_same (Sub.trans (by decide) hl) ?_
    | with_reducible refine putReg_same (Sub.trans (by decide) hl) ?_
    | split

theorem writeModel_same {σ : State} {π : List Part} {off : Nat} {r : RegRow} {v : Word} {s : State} (hl : Sub [.win] π) (h_s : Same π σ s) :
    Same π σ (writeModel off r v s) := by
  unfold writeModel
  repeat' first
    | with_reducible assumption
    | intro _
    | extract_lets
    | with_reducible refine same_ite ?_ ?_
    | with_reducible refine pinnedWrite_same (Sub.trans (by decide) hl) ?_
    | with_reducible refine putReg_same (Sub.trans (by decide) hl) ?_
    | split

theorem writeSpan_same {σ : State} {π : List Part} {off : Nat} {r : RegRow} {v : Word} {s : State} (hl : Sub [.win, .stackMem, .budget, .kv, .svc, .ledger, .link, .ports, .ocl, .pair, .boot, .mgmt, .free] π) (h_s : Same π σ s) :
    Same π σ (writeSpan off r v s) := by
  unfold writeSpan
  repeat' first
    | with_reducible assumption
    | intro _
    | extract_lets
    | with_reducible refine same_ite ?_ ?_
    | with_reducible refine pairModeWrite_same (Sub.trans (by decide) hl) ?_
    | with_reducible refine arbitrate_same (Sub.trans (by decide) hl) ?_
    | with_reducible refine putReg_same (Sub.trans (by decide) hl) ?_
    | with_reducible refine when_same ?_ ?_
    | with_reducible refine enterRetrain_same (Sub.trans (by decide) hl) ?_
    | split

theorem mbxGo_same {σ : State} {π : List Part} {mgmt : Bool} {op : Nat} {s : State} (hl : Sub [.win, .cells, .counters, .cellMem, .stackMem, .mesh, .prec, .sched, .budget, .kv, .svc, .ledger, .tune, .link, .ports, .ocl, .pair, .faults, .power, .boot, .fuses, .sec, .agent, .mgmt, .free] π) (h_s : Same π σ s) :
    Same π σ (mbxGo mgmt op s) := by
  unfold mbxGo
  repeat' first
    | with_reducible assumption
    | intro _
    | with_reducible refine mbxCommand_same (Sub.trans (by decide) hl) ?_ ?_
    | with_reducible refine attest_same (Sub.trans (by decide) hl) ?_
    | with_reducible refine kemStart_same (Sub.trans (by decide) hl) ?_
    | with_reducible refine kemFinishRow_same (Sub.trans (by decide) hl) ?_
    | with_reducible refine kemSwitch_same (Sub.trans (by decide) hl) ?_
    | with_reducible refine zeroise_same (Sub.trans (by decide) hl) ?_
    | with_reducible refine identity_same (Sub.trans (by decide) hl) ?_
    | with_reducible refine svnCommit_same (Sub.trans (by decide) hl) ?_
    | with_reducible refine wr_same (Sub.trans (by decide) hl) ?_
    | fail_if_no_progress with_reducible refine same_upd ?_ (fun p hp => by cases p <;> first | exact absurd (hl.mem (by decide)) hp | exact rfl | exact ⟨rfl, rfl⟩ | exact ⟨rfl, rfl, rfl, rfl⟩)
    | split

theorem writeMbx_same {σ : State} {π : List Part} {mgmt : Bool} {off : Nat} {r : RegRow} {v : Word} {s : State} (hl : Sub [.win, .cells, .counters, .cellMem, .stackMem, .mesh, .prec, .sched, .budget, .kv, .svc, .ledger, .tune, .link, .ports, .ocl, .pair, .faults, .power, .boot, .fuses, .sec, .agent, .mgmt, .free] π) (h_s : Same π σ s) :
    Same π σ (writeMbx mgmt off r v s) := by
  unfold writeMbx
  repeat' first
    | with_reducible assumption
    | intro _
    | with_reducible refine same_ite ?_ ?_
    | with_reducible refine mbxGo_same (Sub.trans (by decide) hl) ?_
    | with_reducible refine putReg_same (Sub.trans (by decide) hl) ?_
    | split

theorem writeReg_same {σ : State} {π : List Part} {mgmt : Bool} {off : Nat} {r : RegRow} {v : Word} {s : State} (hl : Sub [.win, .latch, .cells, .counters, .accs, .cellMem, .stackMem, .mesh, .prec, .sched, .beat, .budget, .kv, .svc, .ledger, .tune, .link, .ports, .ocl, .pair, .faults, .power, .boot, .fuses, .sec, .agent, .mgmt, .now, .free] π) (h_s : Same π σ s) :
    Same π σ (writeReg mgmt off r v s) := by
  unfold writeReg
  repeat' first
    | with_reducible assumption
    | intro _
    | with_reducible refine same_ite ?_ ?_
    | with_reducible refine writeMbx_same (Sub.trans (by decide) hl) ?_
    | with_reducible refine writeSpan_same (Sub.trans (by decide) hl) ?_
    | with_reducible refine fabCalderaWrite_same (Sub.trans (by decide) hl) ?_
    | with_reducible refine putReg_same (Sub.trans (by decide) hl) ?_
    | with_reducible refine writeCellWin_same (Sub.trans (by decide) hl) ?_
    | with_reducible refine writeSched_same (Sub.trans (by decide) hl) ?_
    | with_reducible refine writePrec_same (Sub.trans (by decide) hl) ?_
    | with_reducible refine writeKv_same (Sub.trans (by decide) hl) ?_
    | with_reducible refine writeService_same (Sub.trans (by decide) hl) ?_
    | with_reducible refine writeTune_same (Sub.trans (by decide) hl) ?_
    | with_reducible refine writeOcl_same (Sub.trans (by decide) hl) ?_
    | with_reducible refine writeFault_same (Sub.trans (by decide) hl) ?_
    | with_reducible refine pwrCapWrite_same (Sub.trans (by decide) hl) ?_
    | with_reducible refine coolCfgWrite_same (Sub.trans (by decide) hl) ?_
    | with_reducible refine thrReloc_same (Sub.trans (by decide) hl) ?_
    | with_reducible refine writeBoot_same (Sub.trans (by decide) hl) ?_
    | with_reducible refine writeModel_same (Sub.trans (by decide) hl) ?_
    | fail_if_no_progress with_reducible refine same_upd ?_ (fun p hp => by cases p <;> first | exact absurd (hl.mem (by decide)) hp | exact rfl | exact ⟨rfl, rfl⟩ | exact ⟨rfl, rfl, rfl, rfl⟩)
    | split

theorem writeWord_same {σ : State} {π : List Part} {mgmt : Bool} {off : Nat} {v : Word} {s : State} (hl : Sub [.win, .latch, .cells, .counters, .accs, .cellMem, .stackMem, .mesh, .prec, .sched, .beat, .budget, .kv, .svc, .ledger, .tune, .link, .ports, .ocl, .pair, .faults, .power, .boot, .fuses, .sec, .agent, .mgmt, .now, .free] π) (h_s : Same π σ s) :
    Same π σ (writeWord mgmt off v s) := by
  unfold writeWord
  repeat' first
    | with_reducible assumption
    | intro _
    | extract_lets
    | with_reducible refine same_ite ?_ ?_
    | with_reducible refine mbxWrite_same (Sub.trans (by decide) hl) ?_
    | with_reducible refine writeReg_same (Sub.trans (by decide) hl) ?_
    | fail_if_no_progress with_reducible refine same_upd ?_ (fun p hp => by cases p <;> first | exact absurd (hl.mem (by decide)) hp | exact rfl | exact ⟨rfl, rfl⟩ | exact ⟨rfl, rfl, rfl, rfl⟩)
    | split
    | dsimp +zetaDelta only

theorem writeWindow_same {σ : State} {π : List Part} {mgmt : Bool} {off : Nat} {size : Nat} {d : Dword} {s : State} (hl : Sub [.win, .latch, .cells, .counters, .accs, .cellMem, .stackMem, .mesh, .prec, .sched, .beat, .budget, .kv, .svc, .ledger, .tune, .link, .ports, .ocl, .pair, .faults, .power, .boot, .fuses, .sec, .agent, .mgmt, .now, .free] π) (h_s : Same π σ s) :
    Same π σ (writeWindow mgmt off size d s) := by
  unfold writeWindow
  repeat' first
    | with_reducible assumption
    | intro _
    | extract_lets
    | with_reducible refine same_ite ?_ ?_
    | with_reducible refine writeWord_same (Sub.trans (by decide) hl) ?_
    | split

theorem badAccess_same {σ : State} {π : List Part} {s : State} (hl : Sub [.win, .link, .ports, .ocl] π) (h_s : Same π σ s) :
    Same π σ (badAccess s) := by
  unfold badAccess
  repeat' first
    | with_reducible assumption
    | intro _
    | with_reducible refine raise_same (Sub.trans (by decide) hl) ?_
    | with_reducible refine bump_same (Sub.trans (by decide) hl) ?_

theorem mmioRd_same {σ : State} {π : List Part} {off : Nat} {size : Nat} {tag : Nat} {s0 : State} (hl : Sub [.win, .latch, .prec, .link, .ports, .ocl, .free] π) (h_s0 : Same π σ s0) :
    Same π σ (mmioRd off size tag s0) := by
  unfold mmioRd
  repeat' first
    | with_reducible assumption
    | intro _
    | extract_lets
    | with_reducible refine same_ite ?_ ?_
    | with_reducible refine takeMsg_same (Sub.trans (by decide) hl) ?_
    | with_reducible refine sendCpl_same (Sub.trans (by decide) hl) ?_
    | with_reducible refine badAccess_same (Sub.trans (by decide) hl) ?_
    | with_reducible refine readWindow_same (Sub.trans (by decide) hl) ?_
    | split

theorem execMmioRd_same {σ : State} {π : List Part} {off : Nat} {size : Nat} {tag : Nat} {s : State} (hl : Sub [.win, .latch, .prec, .link, .ports, .ocl, .free] π) (h_s : Same π σ s) :
    ∃ τ, execMmioRd off size tag s = .next τ ∧ Same π σ τ := by
  refine ⟨_, rfl, ?_⟩
  repeat' first
    | with_reducible assumption
    | intro _
    | with_reducible refine mmioRd_same (Sub.trans (by decide) hl) ?_

theorem mmioWr_same {σ : State} {π : List Part} {off : Nat} {size : Nat} {data : Slot16} {sec : MsgSec} {s0 : State} (hl : Sub [.win, .latch, .cells, .counters, .accs, .cellMem, .stackMem, .mesh, .prec, .sched, .beat, .budget, .kv, .svc, .ledger, .tune, .link, .ports, .ocl, .pair, .faults, .power, .boot, .fuses, .sec, .agent, .mgmt, .now, .free] π) (h_s0 : Same π σ s0) :
    Same π σ (mmioWr off size data sec s0) := by
  unfold mmioWr
  repeat' first
    | with_reducible assumption
    | intro _
    | extract_lets
    | with_reducible refine same_ite ?_ ?_
    | with_reducible refine takeMsg_same (Sub.trans (by decide) hl) ?_
    | with_reducible refine writeWindow_same (Sub.trans (by decide) hl) ?_
    | with_reducible refine badAccess_same (Sub.trans (by decide) hl) ?_
    | with_reducible refine failSec_same (Sub.trans (by decide) hl) ?_
    | with_reducible refine checked_same (Sub.trans (by decide) hl) ?_ ?_
    | split

theorem execMmioWr_same {σ : State} {π : List Part} {off : Nat} {size : Nat} {data : Slot16} {sec : MsgSec} {s : State} (hl : Sub [.win, .latch, .cells, .counters, .accs, .cellMem, .stackMem, .mesh, .prec, .sched, .beat, .budget, .kv, .svc, .ledger, .tune, .link, .ports, .ocl, .pair, .faults, .power, .boot, .fuses, .sec, .agent, .mgmt, .now, .free] π) (h_s : Same π σ s) :
    ∃ τ, execMmioWr off size data sec s = .next τ ∧ Same π σ τ := by
  refine ⟨_, rfl, ?_⟩
  repeat' first
    | with_reducible assumption
    | intro _
    | with_reducible refine mmioWr_same (Sub.trans (by decide) hl) ?_

theorem registerWrite_same {σ : State} {π : List Part} {off : Nat} {v : Word} {s : State} (hl : Sub [.win, .latch, .cells, .counters, .accs, .cellMem, .stackMem, .mesh, .prec, .sched, .beat, .budget, .kv, .svc, .ledger, .tune, .link, .ports, .ocl, .pair, .faults, .power, .boot, .fuses, .sec, .agent, .mgmt, .now, .free] π) (h_s : Same π σ s) :
    Same π σ (registerWrite off v s) := by
  unfold registerWrite
  repeat' first
    | with_reducible assumption
    | intro _
    | with_reducible refine same_ite ?_ ?_
    | with_reducible refine writeWord_same (Sub.trans (by decide) hl) ?_
    | split

theorem execRegisterWrite_same {σ : State} {π : List Part} {off : Nat} {value : Word} {s : State} (hl : Sub [.win, .latch, .cells, .counters, .accs, .cellMem, .stackMem, .mesh, .prec, .sched, .beat, .budget, .kv, .svc, .ledger, .tune, .link, .ports, .ocl, .pair, .faults, .power, .boot, .fuses, .sec, .agent, .mgmt, .now, .free] π) (h_s : Same π σ s) :
    ∃ τ, execRegisterWrite off value s = .next τ ∧ Same π σ τ := by
  refine ⟨_, rfl, ?_⟩
  repeat' first
    | with_reducible assumption
    | intro _
    | with_reducible refine registerWrite_same (Sub.trans (by decide) hl) ?_

end Sys2Proof.Machine
end

