-- ==== Sys2Proof/Laws/FramePins.lean ====
section
/-!
SUPPORT. The parts that may change, for every function of Machine/Pins.lean that changes the state.
-/
set_option Elab.async false
namespace Sys2Proof.Machine
open Sys2Proof

theorem nresetAssert_same {σ : State} {π : List Part} {s : State} (hl : Sub [.win, .latch, .cells, .counters, .accs, .cellMem, .stackMem, .mesh, .prec, .sched, .beat, .budget, .kv, .svc, .ledger, .tune, .link, .ports, .ocl, .pair, .faults, .power, .boot, .sec, .agent, .mgmt, .now] π) (h_s : Same π σ s) :
    Same π σ (nresetAssert s) := by
  unfold nresetAssert
  repeat' first
    | with_reducible assumption
    | intro _
    | extract_lets
    | with_reducible refine same_ite ?_ ?_
    | with_reducible refine wholeReset_same (Sub.trans (by decide) hl) ?_
    | fail_if_no_progress with_reducible refine same_upd ?_ (fun p hp => by cases p <;> first | exact absurd (hl.mem (by decide)) hp | exact rfl | exact ⟨rfl, rfl⟩ | exact ⟨rfl, rfl, rfl, rfl⟩)
    | split

theorem execNresetAssert_same {σ : State} {π : List Part} {s : State} (hl : Sub [.win, .latch, .cells, .counters, .accs, .cellMem, .stackMem, .mesh, .prec, .sched, .beat, .budget, .kv, .svc, .ledger, .tune, .link, .ports, .ocl, .pair, .faults, .power, .boot, .sec, .agent, .mgmt, .now] π) (h_s : Same π σ s) :
    ∃ τ, execNresetAssert s = .next τ ∧ Same π σ τ := by
  refine ⟨_, rfl, ?_⟩
  repeat' first
    | with_reducible assumption
    | intro _
    | with_reducible refine nresetAssert_same (Sub.trans (by decide) hl) ?_

theorem nresetRelease_same {σ : State} {π : List Part} {senior : Bool} {s : State} (hl : Sub [.win, .mgmt] π) (h_s : Same π σ s) :
    Same π σ (nresetRelease senior s) := by
  unfold nresetRelease
  repeat' first
    | with_reducible assumption
    | intro _
    | with_reducible refine same_ite ?_ ?_
    | with_reducible refine showPins_same (Sub.trans (by decide) hl) ?_
    | fail_if_no_progress with_reducible refine same_upd ?_ (fun p hp => by cases p <;> first | exact absurd (hl.mem (by decide)) hp | exact rfl | exact ⟨rfl, rfl⟩ | exact ⟨rfl, rfl, rfl, rfl⟩)
    | split

theorem execNresetRelease_same {σ : State} {π : List Part} {senior : Bool} {s : State} (hl : Sub [.win, .mgmt] π) (h_s : Same π σ s) :
    ∃ τ, execNresetRelease senior s = .next τ ∧ Same π σ τ := by
  refine ⟨_, rfl, ?_⟩
  repeat' first
    | with_reducible assumption
    | intro _
    | with_reducible refine nresetRelease_same (Sub.trans (by decide) hl) ?_

theorem resetShort_same {σ : State} {π : List Part} {s : State} (hl : Sub [.win, .link, .ports, .ocl] π) (h_s : Same π σ s) :
    Same π σ (resetShort s) := by
  unfold resetShort
  repeat' first
    | with_reducible assumption
    | intro _
    | with_reducible refine same_ite ?_ ?_
    | with_reducible refine raise_same (Sub.trans (by decide) hl) ?_
    | with_reducible refine bump_same (Sub.trans (by decide) hl) ?_
    | split

theorem execResetShort_same {σ : State} {π : List Part} {s : State} (hl : Sub [.win, .link, .ports, .ocl] π) (h_s : Same π σ s) :
    ∃ τ, execResetShort s = .next τ ∧ Same π σ τ := by
  refine ⟨_, rfl, ?_⟩
  repeat' first
    | with_reducible assumption
    | intro _
    | with_reducible refine resetShort_same (Sub.trans (by decide) hl) ?_

theorem holdAccept_same {σ : State} {π : List Part} {asserted : Bool} {t : Nat} {s : State} (hl : Sub [.win, .mgmt] π) (h_s : Same π σ s) :
    Same π σ (holdAccept asserted t s) := by
  unfold holdAccept
  repeat' first
    | with_reducible assumption
    | intro _
    | with_reducible refine wrB_same (Sub.trans (by decide) hl) ?_
    | fail_if_no_progress with_reducible refine same_upd ?_ (fun p hp => by cases p <;> first | exact absurd (hl.mem (by decide)) hp | exact rfl | exact ⟨rfl, rfl⟩ | exact ⟨rfl, rfl, rfl, rfl⟩)

theorem nholdExt_same {σ : State} {π : List Part} {level : Bool} {heldNs : Nat} {t : Nat} {s0 : State} (hl : Sub [.win, .link, .ports, .ocl, .mgmt, .now] π) (h_s0 : Same π σ s0) :
    Same π σ (nholdExt level heldNs t s0) := by
  unfold nholdExt
  repeat' first
    | with_reducible assumption
    | intro _
    | extract_lets
    | with_reducible refine same_ite ?_ ?_
    | with_reducible refine atTime_same (Sub.trans (by decide) hl) ?_
    | with_reducible refine raise_same (Sub.trans (by decide) hl) ?_
    | with_reducible refine bump_same (Sub.trans (by decide) hl) ?_
    | with_reducible refine holdAccept_same (Sub.trans (by decide) hl) ?_
    | split

theorem execNholdExt_same {σ : State} {π : List Part} {level : Bool} {heldNs : Nat} {t : Nat} {s : State} (hl : Sub [.win, .link, .ports, .ocl, .mgmt, .now] π) (h_s : Same π σ s) :
    ∃ τ, execNholdExt level heldNs t s = .next τ ∧ Same π σ τ := by
  refine ⟨_, rfl, ?_⟩
  repeat' first
    | with_reducible assumption
    | intro _
    | with_reducible refine nholdExt_same (Sub.trans (by decide) hl) ?_

theorem extStuck_same {σ : State} {π : List Part} {s : State} (hl : Sub [.win, .link, .ports, .ocl, .mgmt] π) (h_s : Same π σ s) :
    Same π σ (extStuck s) := by
  unfold extStuck
  repeat' first
    | with_reducible assumption
    | intro _
    | with_reducible refine same_ite ?_ ?_
    | with_reducible refine pldm_same (Sub.trans (by decide) hl) ?_
    | with_reducible refine raise_same (Sub.trans (by decide) hl) ?_
    | with_reducible refine wr_same (Sub.trans (by decide) hl) ?_
    | fail_if_no_progress with_reducible refine same_upd ?_ (fun p hp => by cases p <;> first | exact absurd (hl.mem (by decide)) hp | exact rfl | exact ⟨rfl, rfl⟩ | exact ⟨rfl, rfl, rfl, rfl⟩)
    | split

theorem execExtStuck_same {σ : State} {π : List Part} {s : State} (hl : Sub [.win, .link, .ports, .ocl, .mgmt] π) (h_s : Same π σ s) :
    ∃ τ, execExtStuck s = .next τ ∧ Same π σ τ := by
  refine ⟨_, rfl, ?_⟩
  repeat' first
    | with_reducible assumption
    | intro _
    | with_reducible refine extStuck_same (Sub.trans (by decide) hl) ?_

end Sys2Proof.Machine
end

