-- ==== Sys2Proof/Laws/FrameMgmtBus.lean ====
section
/-!
SUPPORT. The parts that may change, for every function of Machine/MgmtBus.lean that changes the state.
-/
set_option Elab.async false
namespace Sys2Proof.Machine
open Sys2Proof

theorem answer_same {σ : State} {π : List Part} {bs : List Byte} {s : State} (hl : Sub [.mgmt] π) (h_s : Same π σ s) :
    Same π σ (answer bs s) := by
  unfold answer
  repeat' first
    | with_reducible assumption
    | intro _
    | fail_if_no_progress with_reducible refine same_upd ?_ (fun p hp => by cases p <;> first | exact absurd (hl.mem (by decide)) hp | exact rfl | exact ⟨rfl, rfl⟩ | exact ⟨rfl, rfl, rfl, rfl⟩)

theorem takeAddress_same {σ : State} {π : List Part} {a : Nat} {s : State} (hl : Sub [.mgmt] π) (h_s : Same π σ s) :
    Same π σ (takeAddress a s) := by
  unfold takeAddress
  repeat' first
    | with_reducible assumption
    | intro _
    | with_reducible refine same_ite ?_ ?_
    | fail_if_no_progress with_reducible refine same_upd ?_ (fun p hp => by cases p <;> first | exact absurd (hl.mem (by decide)) hp | exact rfl | exact ⟨rfl, rfl⟩ | exact ⟨rfl, rfl, rfl, rfl⟩)
    | split

theorem entdaa_same {σ : State} {π : List Part} {a : Nat} {s : State} (hl : Sub [.mgmt] π) (h_s : Same π σ s) :
    Same π σ (entdaa a s) := by
  unfold entdaa
  repeat' first
    | with_reducible assumption
    | intro _
    | with_reducible refine same_ite ?_ ?_
    | with_reducible refine takeAddress_same (Sub.trans (by decide) hl) ?_
    | with_reducible refine answer_same (Sub.trans (by decide) hl) ?_
    | split

theorem execEntdaa_same {σ : State} {π : List Part} {address : Nat} {s : State} (hl : Sub [.mgmt] π) (h_s : Same π σ s) :
    ∃ τ, execEntdaa address s = .next τ ∧ Same π σ τ := by
  refine ⟨_, rfl, ?_⟩
  repeat' first
    | with_reducible assumption
    | intro _
    | with_reducible refine entdaa_same (Sub.trans (by decide) hl) ?_

theorem execSetdasa_same {σ : State} {π : List Part} {address : Nat} {s : State} (hl : Sub [.mgmt] π) (h_s : Same π σ s) :
    ∃ τ, execSetdasa address s = .next τ ∧ Same π σ τ := by
  refine ⟨_, rfl, ?_⟩
  repeat' first
    | with_reducible assumption
    | intro _
    | with_reducible refine takeAddress_same (Sub.trans (by decide) hl) ?_

theorem rstdaa_same {σ : State} {π : List Part} {s : State} (hl : Sub [.mgmt] π) (h_s : Same π σ s) :
    Same π σ (rstdaa s) := by
  unfold rstdaa
  repeat' first
    | with_reducible assumption
    | intro _
    | with_reducible refine same_ite ?_ ?_
    | fail_if_no_progress with_reducible refine same_upd ?_ (fun p hp => by cases p <;> first | exact absurd (hl.mem (by decide)) hp | exact rfl | exact ⟨rfl, rfl⟩ | exact ⟨rfl, rfl, rfl, rfl⟩)
    | split

theorem execRstdaa_same {σ : State} {π : List Part} {s : State} (hl : Sub [.mgmt] π) (h_s : Same π σ s) :
    ∃ τ, execRstdaa s = .next τ ∧ Same π σ τ := by
  refine ⟨_, rfl, ?_⟩
  repeat' first
    | with_reducible assumption
    | intro _
    | with_reducible refine rstdaa_same (Sub.trans (by decide) hl) ?_

theorem enec_same {σ : State} {π : List Part} {e : Nat} {s : State} (hl : Sub [.mgmt] π) (h_s : Same π σ s) :
    Same π σ (enec e s) := by
  unfold enec
  repeat' first
    | with_reducible assumption
    | intro _
    | with_reducible refine same_ite ?_ ?_
    | fail_if_no_progress with_reducible refine same_upd ?_ (fun p hp => by cases p <;> first | exact absurd (hl.mem (by decide)) hp | exact rfl | exact ⟨rfl, rfl⟩ | exact ⟨rfl, rfl, rfl, rfl⟩)
    | split

theorem execEnec_same {σ : State} {π : List Part} {events : Nat} {s : State} (hl : Sub [.mgmt] π) (h_s : Same π σ s) :
    ∃ τ, execEnec events s = .next τ ∧ Same π σ τ := by
  refine ⟨_, rfl, ?_⟩
  repeat' first
    | with_reducible assumption
    | intro _
    | with_reducible refine enec_same (Sub.trans (by decide) hl) ?_

theorem disec_same {σ : State} {π : List Part} {e : Nat} {s : State} (hl : Sub [.mgmt] π) (h_s : Same π σ s) :
    Same π σ (disec e s) := by
  unfold disec
  repeat' first
    | with_reducible assumption
    | intro _
    | with_reducible refine same_ite ?_ ?_
    | fail_if_no_progress with_reducible refine same_upd ?_ (fun p hp => by cases p <;> first | exact absurd (hl.mem (by decide)) hp | exact rfl | exact ⟨rfl, rfl⟩ | exact ⟨rfl, rfl, rfl, rfl⟩)
    | split

theorem execDisec_same {σ : State} {π : List Part} {events : Nat} {s : State} (hl : Sub [.mgmt] π) (h_s : Same π σ s) :
    ∃ τ, execDisec events s = .next τ ∧ Same π σ τ := by
  refine ⟨_, rfl, ?_⟩
  repeat' first
    | with_reducible assumption
    | intro _
    | with_reducible refine disec_same (Sub.trans (by decide) hl) ?_

theorem answered_same {σ : State} {π : List Part} {bs : State → List Byte} {s : State} (hl : Sub [.mgmt] π) (h_s : Same π σ s) :
    Same π σ (answered bs s) := by
  unfold answered
  repeat' first
    | with_reducible assumption
    | intro _
    | with_reducible refine same_ite ?_ ?_
    | with_reducible refine answer_same (Sub.trans (by decide) hl) ?_
    | split

theorem execGetpid_same {σ : State} {π : List Part} {s : State} (hl : Sub [.mgmt] π) (h_s : Same π σ s) :
    ∃ τ, execGetpid s = .next τ ∧ Same π σ τ := by
  refine ⟨_, rfl, ?_⟩
  repeat' first
    | with_reducible assumption
    | intro _
    | with_reducible refine answered_same (Sub.trans (by decide) hl) ?_

theorem execGetbcr_same {σ : State} {π : List Part} {s : State} (hl : Sub [.mgmt] π) (h_s : Same π σ s) :
    ∃ τ, execGetbcr s = .next τ ∧ Same π σ τ := by
  refine ⟨_, rfl, ?_⟩
  repeat' first
    | with_reducible assumption
    | intro _
    | with_reducible refine answered_same (Sub.trans (by decide) hl) ?_

theorem execGetdcr_same {σ : State} {π : List Part} {s : State} (hl : Sub [.mgmt] π) (h_s : Same π σ s) :
    ∃ τ, execGetdcr s = .next τ ∧ Same π σ τ := by
  refine ⟨_, rfl, ?_⟩
  repeat' first
    | with_reducible assumption
    | intro _
    | with_reducible refine answered_same (Sub.trans (by decide) hl) ?_

theorem execGetstatus_same {σ : State} {π : List Part} {s : State} (hl : Sub [.mgmt] π) (h_s : Same π σ s) :
    ∃ τ, execGetstatus s = .next τ ∧ Same π σ τ := by
  refine ⟨_, rfl, ?_⟩
  repeat' first
    | with_reducible assumption
    | intro _
    | with_reducible refine answered_same (Sub.trans (by decide) hl) ?_

theorem execGetmxds_same {σ : State} {π : List Part} {s : State} (hl : Sub [.mgmt] π) (h_s : Same π σ s) :
    ∃ τ, execGetmxds s = .next τ ∧ Same π σ τ := by
  refine ⟨_, rfl, ?_⟩
  repeat' first
    | with_reducible assumption
    | intro _
    | with_reducible refine answered_same (Sub.trans (by decide) hl) ?_

theorem setmwl_same {σ : State} {π : List Part} {n : Nat} {s : State} (hl : Sub [.mgmt] π) (h_s : Same π σ s) :
    Same π σ (setmwl n s) := by
  unfold setmwl
  repeat' first
    | with_reducible assumption
    | intro _
    | with_reducible refine same_ite ?_ ?_
    | fail_if_no_progress with_reducible refine same_upd ?_ (fun p hp => by cases p <;> first | exact absurd (hl.mem (by decide)) hp | exact rfl | exact ⟨rfl, rfl⟩ | exact ⟨rfl, rfl, rfl, rfl⟩)
    | split

theorem execSetmwl_same {σ : State} {π : List Part} {length : Nat} {s : State} (hl : Sub [.mgmt] π) (h_s : Same π σ s) :
    ∃ τ, execSetmwl length s = .next τ ∧ Same π σ τ := by
  refine ⟨_, rfl, ?_⟩
  repeat' first
    | with_reducible assumption
    | intro _
    | with_reducible refine setmwl_same (Sub.trans (by decide) hl) ?_

theorem setmrl_same {σ : State} {π : List Part} {n : Nat} {s : State} (hl : Sub [.mgmt] π) (h_s : Same π σ s) :
    Same π σ (setmrl n s) := by
  unfold setmrl
  repeat' first
    | with_reducible assumption
    | intro _
    | with_reducible refine same_ite ?_ ?_
    | fail_if_no_progress with_reducible refine same_upd ?_ (fun p hp => by cases p <;> first | exact absurd (hl.mem (by decide)) hp | exact rfl | exact ⟨rfl, rfl⟩ | exact ⟨rfl, rfl, rfl, rfl⟩)
    | split

theorem execSetmrl_same {σ : State} {π : List Part} {length : Nat} {s : State} (hl : Sub [.mgmt] π) (h_s : Same π σ s) :
    ∃ τ, execSetmrl length s = .next τ ∧ Same π σ τ := by
  refine ⟨_, rfl, ?_⟩
  repeat' first
    | with_reducible assumption
    | intro _
    | with_reducible refine setmrl_same (Sub.trans (by decide) hl) ?_

theorem rstact_same {σ : State} {π : List Part} {a : Nat} {s : State} (hl : Sub [.mgmt] π) (h_s : Same π σ s) :
    Same π σ (rstact a s) := by
  unfold rstact
  repeat' first
    | with_reducible assumption
    | intro _
    | with_reducible refine same_ite ?_ ?_
    | fail_if_no_progress with_reducible refine same_upd ?_ (fun p hp => by cases p <;> first | exact absurd (hl.mem (by decide)) hp | exact rfl | exact ⟨rfl, rfl⟩ | exact ⟨rfl, rfl, rfl, rfl⟩)
    | split

theorem execRstact_same {σ : State} {π : List Part} {action : Nat} {s : State} (hl : Sub [.mgmt] π) (h_s : Same π σ s) :
    ∃ τ, execRstact action s = .next τ ∧ Same π σ τ := by
  refine ⟨_, rfl, ?_⟩
  repeat' first
    | with_reducible assumption
    | intro _
    | with_reducible refine rstact_same (Sub.trans (by decide) hl) ?_

theorem setEndpointId_same {σ : State} {π : List Part} {eid : Nat} {source : Nat} {s : State} (hl : Sub [.mgmt] π) (h_s : Same π σ s) :
    Same π σ (setEndpointId eid source s) := by
  unfold setEndpointId
  repeat' first
    | with_reducible assumption
    | intro _
    | extract_lets
    | with_reducible refine same_ite ?_ ?_
    | with_reducible refine answer_same (Sub.trans (by decide) hl) ?_
    | fail_if_no_progress with_reducible refine same_upd ?_ (fun p hp => by cases p <;> first | exact absurd (hl.mem (by decide)) hp | exact rfl | exact ⟨rfl, rfl⟩ | exact ⟨rfl, rfl, rfl, rfl⟩)
    | split

theorem execSetEndpointId_same {σ : State} {π : List Part} {eid : Nat} {source : Nat} {s : State} (hl : Sub [.mgmt] π) (h_s : Same π σ s) :
    ∃ τ, execSetEndpointId eid source s = .next τ ∧ Same π σ τ := by
  refine ⟨_, rfl, ?_⟩
  repeat' first
    | with_reducible assumption
    | intro _
    | with_reducible refine setEndpointId_same (Sub.trans (by decide) hl) ?_

theorem execGetEndpointId_same {σ : State} {π : List Part} {s : State} (hl : Sub [.mgmt] π) (h_s : Same π σ s) :
    ∃ τ, execGetEndpointId s = .next τ ∧ Same π σ τ := by
  refine ⟨_, rfl, ?_⟩
  repeat' first
    | with_reducible assumption
    | intro _
    | with_reducible refine answered_same (Sub.trans (by decide) hl) ?_

theorem execGetMctpVersionSupport_same {σ : State} {π : List Part} {s : State} (hl : Sub [.mgmt] π) (h_s : Same π σ s) :
    ∃ τ, execGetMctpVersionSupport s = .next τ ∧ Same π σ τ := by
  refine ⟨_, rfl, ?_⟩
  repeat' first
    | with_reducible assumption
    | intro _
    | with_reducible refine answered_same (Sub.trans (by decide) hl) ?_

theorem execGetMessageTypeSupport_same {σ : State} {π : List Part} {s : State} (hl : Sub [.mgmt] π) (h_s : Same π σ s) :
    ∃ τ, execGetMessageTypeSupport s = .next τ ∧ Same π σ τ := by
  refine ⟨_, rfl, ?_⟩
  repeat' first
    | with_reducible assumption
    | intro _
    | with_reducible refine answered_same (Sub.trans (by decide) hl) ?_

theorem execGetTid_same {σ : State} {π : List Part} {s : State} (hl : Sub [.mgmt] π) (h_s : Same π σ s) :
    ∃ τ, execGetTid s = .next τ ∧ Same π σ τ := by
  refine ⟨_, rfl, ?_⟩
  repeat' first
    | with_reducible assumption
    | intro _
    | with_reducible refine answered_same (Sub.trans (by decide) hl) ?_

theorem execGetPldmVersion_same {σ : State} {π : List Part} {pldmType : Nat} {s : State} (hl : Sub [.mgmt] π) (h_s : Same π σ s) :
    ∃ τ, execGetPldmVersion pldmType s = .next τ ∧ Same π σ τ := by
  refine ⟨_, rfl, ?_⟩
  repeat' first
    | with_reducible assumption
    | intro _
    | with_reducible refine answered_same (Sub.trans (by decide) hl) ?_

theorem execGetPldmTypes_same {σ : State} {π : List Part} {s : State} (hl : Sub [.mgmt] π) (h_s : Same π σ s) :
    ∃ τ, execGetPldmTypes s = .next τ ∧ Same π σ τ := by
  refine ⟨_, rfl, ?_⟩
  repeat' first
    | with_reducible assumption
    | intro _
    | with_reducible refine answered_same (Sub.trans (by decide) hl) ?_

theorem execGetPldmCommands_same {σ : State} {π : List Part} {pldmType : Nat} {s : State} (hl : Sub [.mgmt] π) (h_s : Same π σ s) :
    ∃ τ, execGetPldmCommands pldmType s = .next τ ∧ Same π σ τ := by
  refine ⟨_, rfl, ?_⟩
  repeat' first
    | with_reducible assumption
    | intro _
    | with_reducible refine answered_same (Sub.trans (by decide) hl) ?_

theorem execGetPdr_same {σ : State} {π : List Part} {record : Nat} {s : State} (hl : Sub [.mgmt] π) (h_s : Same π σ s) :
    ∃ τ, execGetPdr record s = .next τ ∧ Same π σ τ := by
  refine ⟨_, rfl, ?_⟩
  repeat' first
    | with_reducible assumption
    | intro _
    | with_reducible refine answered_same (Sub.trans (by decide) hl) ?_

theorem execGetPdrRepositoryInfo_same {σ : State} {π : List Part} {s : State} (hl : Sub [.mgmt] π) (h_s : Same π σ s) :
    ∃ τ, execGetPdrRepositoryInfo s = .next τ ∧ Same π σ τ := by
  refine ⟨_, rfl, ?_⟩
  repeat' first
    | with_reducible assumption
    | intro _
    | with_reducible refine answered_same (Sub.trans (by decide) hl) ?_

theorem execGetNumericSensorReading_same {σ : State} {π : List Part} {sensor : Nat} {s : State} (hl : Sub [.mgmt] π) (h_s : Same π σ s) :
    ∃ τ, execGetNumericSensorReading sensor s = .next τ ∧ Same π σ τ := by
  refine ⟨_, rfl, ?_⟩
  repeat' first
    | with_reducible assumption
    | intro _
    | with_reducible refine answered_same (Sub.trans (by decide) hl) ?_

theorem execGetStateSensorReadings_same {σ : State} {π : List Part} {sensor : Nat} {s : State} (hl : Sub [.mgmt] π) (h_s : Same π σ s) :
    ∃ τ, execGetStateSensorReadings sensor s = .next τ ∧ Same π σ τ := by
  refine ⟨_, rfl, ?_⟩
  repeat' first
    | with_reducible assumption
    | intro _
    | with_reducible refine answered_same (Sub.trans (by decide) hl) ?_

theorem execEventMessageSupported_same {σ : State} {π : List Part} {s : State} (hl : Sub [.mgmt] π) (h_s : Same π σ s) :
    ∃ τ, execEventMessageSupported s = .next τ ∧ Same π σ τ := by
  refine ⟨_, rfl, ?_⟩
  repeat' first
    | with_reducible assumption
    | intro _
    | with_reducible refine answered_same (Sub.trans (by decide) hl) ?_

theorem eventBufferSize_same {σ : State} {π : List Part} {n : Nat} {s : State} (hl : Sub [.mgmt] π) (h_s : Same π σ s) :
    Same π σ (eventBufferSize n s) := by
  unfold eventBufferSize
  repeat' first
    | with_reducible assumption
    | intro _
    | with_reducible refine same_ite ?_ ?_
    | with_reducible refine answer_same (Sub.trans (by decide) hl) ?_
    | fail_if_no_progress with_reducible refine same_upd ?_ (fun p hp => by cases p <;> first | exact absurd (hl.mem (by decide)) hp | exact rfl | exact ⟨rfl, rfl⟩ | exact ⟨rfl, rfl, rfl, rfl⟩)
    | split

theorem execEventMessageBufferSize_same {σ : State} {π : List Part} {size : Nat} {s : State} (hl : Sub [.mgmt] π) (h_s : Same π σ s) :
    ∃ τ, execEventMessageBufferSize size s = .next τ ∧ Same π σ τ := by
  refine ⟨_, rfl, ?_⟩
  repeat' first
    | with_reducible assumption
    | intro _
    | with_reducible refine eventBufferSize_same (Sub.trans (by decide) hl) ?_

theorem pollEvent_same {σ : State} {π : List Part} {ack : Bool} {s : State} (hl : Sub [.mgmt] π) (h_s : Same π σ s) :
    Same π σ (pollEvent ack s) := by
  unfold pollEvent
  repeat' first
    | with_reducible assumption
    | intro _
    | with_reducible refine same_ite ?_ ?_
    | with_reducible refine answer_same (Sub.trans (by decide) hl) ?_
    | fail_if_no_progress with_reducible refine same_upd ?_ (fun p hp => by cases p <;> first | exact absurd (hl.mem (by decide)) hp | exact rfl | exact ⟨rfl, rfl⟩ | exact ⟨rfl, rfl, rfl, rfl⟩)
    | split

theorem execPollForPlatformEventMessage_same {σ : State} {π : List Part} {ack : Bool} {s : State} (hl : Sub [.mgmt] π) (h_s : Same π σ s) :
    ∃ τ, execPollForPlatformEventMessage ack s = .next τ ∧ Same π σ τ := by
  refine ⟨_, rfl, ?_⟩
  repeat' first
    | with_reducible assumption
    | intro _
    | with_reducible refine pollEvent_same (Sub.trans (by decide) hl) ?_

theorem execGetFruRecordTableMetadata_same {σ : State} {π : List Part} {s : State} (hl : Sub [.mgmt] π) (h_s : Same π σ s) :
    ∃ τ, execGetFruRecordTableMetadata s = .next τ ∧ Same π σ τ := by
  refine ⟨_, rfl, ?_⟩
  repeat' first
    | with_reducible assumption
    | intro _
    | with_reducible refine answered_same (Sub.trans (by decide) hl) ?_

theorem execGetFruRecordTable_same {σ : State} {π : List Part} {s : State} (hl : Sub [.mgmt] π) (h_s : Same π σ s) :
    ∃ τ, execGetFruRecordTable s = .next τ ∧ Same π σ τ := by
  refine ⟨_, rfl, ?_⟩
  repeat' first
    | with_reducible assumption
    | intro _
    | with_reducible refine answered_same (Sub.trans (by decide) hl) ?_

theorem winRead_same {σ : State} {π : List Part} {off : Nat} {size : Nat} {s : State} (hl : Sub [.win, .latch, .prec, .mgmt, .free] π) (h_s : Same π σ s) :
    Same π σ (winRead off size s) := by
  unfold winRead
  repeat' first
    | with_reducible assumption
    | intro _
    | extract_lets
    | with_reducible refine same_ite ?_ ?_
    | with_reducible refine answer_same (Sub.trans (by decide) hl) ?_
    | with_reducible refine readWindow_same (Sub.trans (by decide) hl) ?_
    | split

theorem execWinRead_same {σ : State} {π : List Part} {off : Nat} {size : Nat} {s : State} (hl : Sub [.win, .latch, .prec, .mgmt, .free] π) (h_s : Same π σ s) :
    ∃ τ, execWinRead off size s = .next τ ∧ Same π σ τ := by
  refine ⟨_, rfl, ?_⟩
  repeat' first
    | with_reducible assumption
    | intro _
    | with_reducible refine winRead_same (Sub.trans (by decide) hl) ?_

theorem winWrite_same {σ : State} {π : List Part} {off : Nat} {size : Nat} {d : Dword} {s : State} (hl : Sub [.win, .latch, .cells, .counters, .accs, .cellMem, .stackMem, .mesh, .prec, .sched, .beat, .budget, .kv, .svc, .ledger, .tune, .link, .ports, .ocl, .pair, .faults, .power, .boot, .fuses, .sec, .agent, .mgmt, .now, .free] π) (h_s : Same π σ s) :
    Same π σ (winWrite off size d s) := by
  unfold winWrite
  repeat' first
    | with_reducible assumption
    | intro _
    | with_reducible refine same_ite ?_ ?_
    | with_reducible refine answer_same (Sub.trans (by decide) hl) ?_
    | with_reducible refine writeWindow_same (Sub.trans (by decide) hl) ?_
    | with_reducible refine raise_same (Sub.trans (by decide) hl) ?_
    | split

theorem execWinWrite_same {σ : State} {π : List Part} {off : Nat} {size : Nat} {data : Dword} {s : State} (hl : Sub [.win, .latch, .cells, .counters, .accs, .cellMem, .stackMem, .mesh, .prec, .sched, .beat, .budget, .kv, .svc, .ledger, .tune, .link, .ports, .ocl, .pair, .faults, .power, .boot, .fuses, .sec, .agent, .mgmt, .now, .free] π) (h_s : Same π σ s) :
    ∃ τ, execWinWrite off size data s = .next τ ∧ Same π σ τ := by
  refine ⟨_, rfl, ?_⟩
  repeat' first
    | with_reducible assumption
    | intro _
    | with_reducible refine winWrite_same (Sub.trans (by decide) hl) ?_

end Sys2Proof.Machine
end

