-- ==== Sys2Proof/Laws/FrameStep.lean ====
section
/-!
SUPPORT. The frame of every command: what `mayChange` does not list is left as it is.
-/
set_option Elab.async false
namespace Sys2Proof.Machine
open Sys2Proof

theorem exec_same (i : Instr) (s : State) : ∃ t, exec i s = .next t ∧ Same (mayChange i) s t := by
  have h := fun l => Same.refl l s
  cases i with
  | nop _ _ => exact execNop_same rfl (h _)
  | tensor _ _ => exact execTensor_same rfl (h _)
  | add _ _ => exact execAdd_same rfl (h _)
  | mul _ _ => exact execMul_same rfl (h _)
  | fma _ _ => exact execFma_same rfl (h _)
  | max _ _ => exact execMax_same rfl (h _)
  | exp _ _ => exact execExp_same rfl (h _)
  | rcp _ _ => exact execRcp_same rfl (h _)
  | rsqrt _ _ => exact execRsqrt_same rfl (h _)
  | sumred _ _ => exact execSumred_same rfl (h _)
  | maxred _ _ => exact execMaxred_same rfl (h _)
  | cvt _ _ => exact execCvt_same rfl (h _)
  | scale _ _ => exact execScale_same rfl (h _)
  | qnt _ _ => exact execQnt_same rfl (h _)
  | s24enc _ _ => exact execS24enc_same rfl (h _)
  | s24dec _ _ => exact execS24dec_same rfl (h _)
  | rng _ _ => exact execRng_same rfl (h _)
  | move _ _ => exact execMove_same rfl (h _)
  | wait _ _ => exact execWait_same rfl (h _)
  | waitComplete _ => exact execWaitComplete_same rfl (h _)
  | sync _ _ => exact execSync_same rfl (h _)
  | jump _ _ => exact execJump_same rfl (h _)
  | illegalInstruction _ _ => exact execIllegalInstruction_same rfl (h _)
  | accessAged _ _ => exact execAccessAged_same rfl (h _)
  | flitLanding _ _ _ => exact execFlitLanding_same rfl (h _)
  | multicastCopy _ _ _ => exact execMulticastCopy_same rfl (h _)
  | reductionCombine _ _ _ => exact execReductionCombine_same rfl (h _)
  | linkCrcError _ _ _ _ => exact execLinkCrcError_same rfl (h _)
  | nak _ _ _ _ => exact execNak_same rfl (h _)
  | linkFail _ _ => exact execLinkFail_same rfl (h _)
  | replayBufferRelease _ _ _ => exact execReplayBufferRelease_same rfl (h _)
  | vc0Discard _ _ => exact execVc0Discard_same rfl (h _)
  | cfgRead _ _ => exact execCfgRead_same rfl (h _)
  | cfgWrite _ _ _ => exact execCfgWrite_same rfl (h _)
  | cfgRsp _ _ => exact execCfgRsp_same rfl (h _)
  | fabCalderaWrite _ _ => exact execFabCalderaWrite_same rfl (h _)
  | eccWriteback _ _ _ => exact execEccWriteback_same rfl (h _)
  | scrubRead _ _ _ => exact execScrubRead_same rfl (h _)
  | scrubAged _ => exact execScrubAged_same rfl (h _)
  | scrubLate _ _ => exact execScrubLate_same rfl (h _)
  | precisionEventCollect => exact execPrecisionEventCollect_same rfl (h _)
  | widenEnd _ _ => exact execWidenEnd_same rfl (h _)
  | modelRecipeWrite _ _ => exact execModelRecipeWrite_same rfl (h _)
  | recipeWinDataWrite _ => exact execRecipeWinDataWrite_same rfl (h _)
  | holdTest => exact execHoldTest_same rfl (h _)
  | holdDecision _ => exact execHoldDecision_same rfl (h _)
  | slotBoundary => exact execSlotBoundary_same rfl (h _)
  | longHold => exact execLongHold_same rfl (h _)
  | stall _ => exact execStall_same rfl (h _)
  | loadGo _ => exact execLoadGo_same rfl (h _)
  | loadCheckDone _ => exact execLoadCheckDone_same rfl (h _)
  | hostHold _ => exact execHostHold_same rfl (h _)
  | extEn _ => exact execExtEn_same rfl (h _)
  | beatEdge _ _ => exact execBeatEdge_same rfl (h _)
  | internalBeat _ => exact execInternalBeat_same rfl (h _)
  | holdover _ => exact execHoldover_same rfl (h _)
  | beatLoss _ => exact execBeatLoss_same rfl (h _)
  | frameStart _ => exact execFrameStart_same rfl (h _)
  | kvRead _ _ _ => exact execKvRead_same rfl (h _)
  | kvWrite _ _ _ _ => exact execKvWrite_same rfl (h _)
  | linRead _ _ _ => exact execLinRead_same rfl (h _)
  | linWrite _ _ _ _ => exact execLinWrite_same rfl (h _)
  | patrolRead _ _ _ => exact execPatrolRead_same rfl (h _)
  | stackScrubLate _ _ => exact execStackScrubLate_same rfl (h _)
  | poolEnable _ => exact execPoolEnable_same rfl (h _)
  | poolDisable _ => exact execPoolDisable_same rfl (h _)
  | posLimitWrite _ _ => exact execPosLimitWrite_same rfl (h _)
  | ringEnable _ _ => exact execRingEnable_same rfl (h _)
  | submit _ _ => exact execSubmit_same rfl (h _)
  | cancel _ _ => exact execCancel_same rfl (h _)
  | prefixCreate _ _ => exact execPrefixCreate_same rfl (h _)
  | prefixRelease _ _ => exact execPrefixRelease_same rfl (h _)
  | openModel _ _ => exact execOpenModel_same rfl (h _)
  | closeModel _ _ => exact execCloseModel_same rfl (h _)
  | closeComplete _ => exact execCloseComplete_same rfl (h _)
  | loadWeights _ _ _ => exact execLoadWeights_same rfl (h _)
  | loadReceive _ _ => exact execLoadReceive_same rfl (h _)
  | loadReceiveTimeout _ => exact execLoadReceiveTimeout_same rfl (h _)
  | readback _ _ => exact execReadback_same rfl (h _)
  | stepResult _ _ => exact execStepResult_same rfl (h _)
  | stepCommit _ => exact execStepCommit_same rfl (h _)
  | outputRoomWrite _ _ => exact execOutputRoomWrite_same rfl (h _)
  | hotWindowFill _ => exact execHotWindowFill_same rfl (h _)
  | pinnedWrite _ _ => exact execPinnedWrite_same rfl (h _)
  | run => exact execRun_same rfl (h _)
  | pause => exact execPause_same rfl (h _)
  | abort => exact execAbort_same rfl (h _)
  | discard => exact execDiscard_same rfl (h _)
  | tuneBlockComplete _ => exact execTuneBlockComplete_same rfl (h _)
  | presenceDetect _ _ => exact execPresenceDetect_same rfl (h _)
  | equalisationEnd _ _ => exact execEqualisationEnd_same rfl (h _)
  | alignment _ _ => exact execAlignment_same rfl (h _)
  | params _ _ _ => exact execParams_same rfl (h _)
  | retrainComplete _ _ _ => exact execRetrainComplete_same rfl (h _)
  | linkDown _ _ => exact execLinkDown_same rfl (h _)
  | linkRetry _ _ => exact execLinkRetry_same rfl (h _)
  | oclDownTimeout => exact execOclDownTimeout_same rfl (h _)
  | payloadFlit _ _ _ => exact execPayloadFlit_same rfl (h _)
  | idleFlit _ _ _ => exact execIdleFlit_same rfl (h _)
  | nakFlit _ _ _ => exact execNakFlit_same rfl (h _)
  | retrainFlit _ _ _ => exact execRetrainFlit_same rfl (h _)
  | nakResend _ => exact execNakResend_same rfl (h _)
  | ackTimeout _ _ => exact execAckTimeout_same rfl (h _)
  | mmioRd _ _ _ => exact execMmioRd_same rfl (h _)
  | mmioWr _ _ _ _ => exact execMmioWr_same rfl (h _)
  | snpInv _ => exact execSnpInv_same rfl (h _)
  | cplData _ _ _ _ _ => exact execCplData_same rfl (h _)
  | credit _ _ _ => exact execCredit_same rfl (h _)
  | intrModeration _ => exact execIntrModeration_same rfl (h _)
  | cplTimeout _ => exact execCplTimeout_same rfl (h _)
  | doorbell _ => exact execDoorbell_same rfl (h _)
  | oclEncMode _ => exact execOclEncMode_same rfl (h _)
  | oclCtrlRetrain _ => exact execOclCtrlRetrain_same rfl (h _)
  | fail _ _ => exact execFail_same rfl (h _)
  | frame _ _ => exact execFrame_same rfl (h _)
  | ack _ => exact execAck_same rfl (h _)
  | cmd _ => exact execCmd_same rfl (h _)
  | tokensIn _ => exact execTokensIn_same rfl (h _)
  | kv _ => exact execKv_same rfl (h _)
  | seqstate _ => exact execSeqstate_same rfl (h _)
  | commit _ => exact execCommit_same rfl (h _)
  | pfx _ => exact execPfx_same rfl (h _)
  | pageReq _ => exact execPageReq_same rfl (h _)
  | pageData _ => exact execPageData_same rfl (h _)
  | pass _ => exact execPass_same rfl (h _)
  | passRsp _ => exact execPassRsp_same rfl (h _)
  | xing _ => exact execXing_same rfl (h _)
  | result _ => exact execResult_same rfl (h _)
  | scommit _ _ _ => exact execScommit_same rfl (h _)
  | spanCredit _ _ _ => exact execSpanCredit_same rfl (h _)
  | splitLaunch _ _ => exact execSplitLaunch_same rfl (h _)
  | pairModeWrite _ => exact execPairModeWrite_same rfl (h _)
  | isolate _ => exact execIsolate_same rfl (h _)
  | takeover => exact execTakeover_same rfl (h _)
  | release => exact execRelease_same rfl (h _)
  | resync => exact execResync_same rfl (h _)
  | takeoverComplete => exact execTakeoverComplete_same rfl (h _)
  | syncingComplete => exact execSyncingComplete_same rfl (h _)
  | faultReport _ _ => exact execFaultReport_same rfl (h _)
  | cellReset _ => exact execCellReset_same rfl (h _)
  | clusterReset _ => exact execClusterReset_same rfl (h _)
  | partitionReset _ => exact execPartitionReset_same rfl (h _)
  | wholeReset => exact execWholeReset_same rfl (h _)
  | reset => exact execReset_same rfl (h _)
  | drainDone => exact execDrainDone_same rfl (h _)
  | absorbDone _ => exact execAbsorbDone_same rfl (h _)
  | releaseDone => exact execReleaseDone_same rfl (h _)
  | drainTimeout => exact execDrainTimeout_same rfl (h _)
  | ringFill _ _ => exact execRingFill_same rfl (h _)
  | slotFill _ _ => exact execSlotFill_same rfl (h _)
  | audit _ _ _ => exact execAudit_same rfl (h _)
  | forceFatal => exact execForceFatal_same rfl (h _)
  | voltageSample _ => exact execVoltageSample_same rfl (h _)
  | vcmRecovered => exact execVcmRecovered_same rfl (h _)
  | vcmNorecover => exact execVcmNorecover_same rfl (h _)
  | feedOk _ => exact execFeedOk_same rfl (h _)
  | feedLost _ => exact execFeedLost_same rfl (h _)
  | bothFeedsLost => exact execBothFeedsLost_same rfl (h _)
  | feedShare => exact execFeedShare_same rfl (h _)
  | phaseFault _ _ => exact execPhaseFault_same rfl (h _)
  | powerLevelAdjust _ => exact execPowerLevelAdjust_same rfl (h _)
  | capAdjust => exact execCapAdjust_same rfl (h _)
  | pwrCapWrite _ => exact execPwrCapWrite_same rfl (h _)
  | thermalSample _ => exact execThermalSample_same rfl (h _)
  | pairSuspect _ _ => exact execPairSuspect_same rfl (h _)
  | noPairs _ => exact execNoPairs_same rfl (h _)
  | thermalTrip => exact execThermalTrip_same rfl (h _)
  | pwrOffReq => exact execPwrOffReq_same rfl (h _)
  | inlet => exact execInlet_same rfl (h _)
  | flowPulse _ _ => exact execFlowPulse_same rfl (h _)
  | flowUpdate => exact execFlowUpdate_same rfl (h _)
  | flowPulseTimeout _ => exact execFlowPulseTimeout_same rfl (h _)
  | coolOk _ _ _ => exact execCoolOk_same rfl (h _)
  | coolantStopped => exact execCoolantStopped_same rfl (h _)
  | coolantResume => exact execCoolantResume_same rfl (h _)
  | coolCfgWrite _ => exact execCoolCfgWrite_same rfl (h _)
  | thrReloc _ => exact execThrReloc_same rfl (h _)
  | start _ => exact execStart_same rfl (h _)
  | coolOkTimeout => exact execCoolOkTimeout_same rfl (h _)
  | startTimeout => exact execStartTimeout_same rfl (h _)
  | stageImage _ => exact execStageImage_same rfl (h _)
  | stageStartRecord _ => exact execStageStartRecord_same rfl (h _)
  | stageJournalDump => exact execStageJournalDump_same rfl (h _)
  | stageDone _ => exact execStageDone_same rfl (h _)
  | journalWrite _ => exact execJournalWrite_same rfl (h _)
  | pressComplete => exact execPressComplete_same rfl (h _)
  | journalEraseDone => exact execJournalEraseDone_same rfl (h _)
  | shutdown _ => exact execShutdown_same rfl (h _)
  | bistWave _ _ => exact execBistWave_same rfl (h _)
  | clr => exact execClr_same rfl (h _)
  | restart => exact execRestart_same rfl (h _)
  | attest => exact execAttest_same rfl (h _)
  | identityBuilt => exact execIdentityBuilt_same rfl (h _)
  | kemStart => exact execKemStart_same rfl (h _)
  | kemFinish => exact execKemFinish_same rfl (h _)
  | kemSwitch => exact execKemSwitch_same rfl (h _)
  | kemKeyExpiry => exact execKemKeyExpiry_same rfl (h _)
  | zeroise _ => exact execZeroise_same rfl (h _)
  | zeroiseDone => exact execZeroiseDone_same rfl (h _)
  | identity => exact execIdentity_same rfl (h _)
  | svnCommit => exact execSvnCommit_same rfl (h _)
  | releaseFlit _ _ => exact execReleaseFlit_same rfl (h _)
  | pageZeroiseDone _ _ => exact execPageZeroiseDone_same rfl (h _)
  | cellWinRead => exact execCellWinRead_same rfl (h _)
  | cellWinWrite => exact execCellWinWrite_same rfl (h _)
  | cellWinTimeout => exact execCellWinTimeout_same rfl (h _)
  | cellWinAgentFree => exact execCellWinAgentFree_same rfl (h _)
  | registerWrite _ _ => exact execRegisterWrite_same rfl (h _)
  | nresetAssert => exact execNresetAssert_same rfl (h _)
  | nresetRelease _ => exact execNresetRelease_same rfl (h _)
  | resetShort => exact execResetShort_same rfl (h _)
  | nholdExt _ _ _ => exact execNholdExt_same rfl (h _)
  | extStuck => exact execExtStuck_same rfl (h _)
  | flowNoise _ => exact execFlowNoise_same rfl (h _)
  | entdaa _ => exact execEntdaa_same rfl (h _)
  | setdasa _ => exact execSetdasa_same rfl (h _)
  | rstdaa => exact execRstdaa_same rfl (h _)
  | enec _ => exact execEnec_same rfl (h _)
  | disec _ => exact execDisec_same rfl (h _)
  | getpid => exact execGetpid_same rfl (h _)
  | getbcr => exact execGetbcr_same rfl (h _)
  | getdcr => exact execGetdcr_same rfl (h _)
  | getstatus => exact execGetstatus_same rfl (h _)
  | getmxds => exact execGetmxds_same rfl (h _)
  | setmwl _ => exact execSetmwl_same rfl (h _)
  | setmrl _ => exact execSetmrl_same rfl (h _)
  | rstact _ => exact execRstact_same rfl (h _)
  | setEndpointId _ _ => exact execSetEndpointId_same rfl (h _)
  | getEndpointId => exact execGetEndpointId_same rfl (h _)
  | getMctpVersionSupport => exact execGetMctpVersionSupport_same rfl (h _)
  | getMessageTypeSupport => exact execGetMessageTypeSupport_same rfl (h _)
  | getTid => exact execGetTid_same rfl (h _)
  | getPldmVersion _ => exact execGetPldmVersion_same rfl (h _)
  | getPldmTypes => exact execGetPldmTypes_same rfl (h _)
  | getPldmCommands _ => exact execGetPldmCommands_same rfl (h _)
  | getPdr _ => exact execGetPdr_same rfl (h _)
  | getPdrRepositoryInfo => exact execGetPdrRepositoryInfo_same rfl (h _)
  | getNumericSensorReading _ => exact execGetNumericSensorReading_same rfl (h _)
  | getStateSensorReadings _ => exact execGetStateSensorReadings_same rfl (h _)
  | eventMessageSupported => exact execEventMessageSupported_same rfl (h _)
  | eventMessageBufferSize _ => exact execEventMessageBufferSize_same rfl (h _)
  | pollForPlatformEventMessage _ => exact execPollForPlatformEventMessage_same rfl (h _)
  | getFruRecordTableMetadata => exact execGetFruRecordTableMetadata_same rfl (h _)
  | getFruRecordTable => exact execGetFruRecordTable_same rfl (h _)
  | winRead _ _ => exact execWinRead_same rfl (h _)
  | winWrite _ _ _ => exact execWinWrite_same rfl (h _)
  | stackLost _ => exact execStackLost_same rfl (h _)
  | brynodorWatchdog => exact execBrynodorWatchdog_same rfl (h _)
  | history _ => exact execHistory_same rfl (h _)

/-- What one command leaves alone. -/
theorem same_of_exec {i : Instr} {s t : State} (h : exec i s = .next t) : Same (mayChange i) s t := by
  obtain ⟨u, hu, k⟩ := exec_same i s
  rw [hu] at h
  cases h
  exact k

end Sys2Proof.Machine
end

