-- ==== Sys2Proof/Laws/KeepMesh.lean ====
section
/-!
SUPPORT. What `Keeps` says, for every function of Machine/Mesh.lean that changes the state.
-/
set_option Elab.async false
namespace Sys2Proof.Machine
open Sys2Proof

theorem setRow_keeps {σ : State} {field row : Nat} {w : Word} {s : State} (h_s : Keeps σ s) : Keeps σ (setRow field row w s) := by
  unfold setRow
  exact keeps_tables (setReg_keeps h_s) rfl rfl rfl rfl rfl rfl fun t => { t with rowMap := Table.wf_set _ _ _ _ t.rowMap }

theorem setLinkDir_keeps {σ : State} {r : Nat} {port : Nat} {l : LinkDir} {s : State} (h_s : Keeps σ s) :
    Keeps σ (setLinkDir r port l s) := by
  unfold setLinkDir
  exact keeps_tables h_s rfl rfl rfl rfl rfl rfl fun t => { t with links := Table.wf_set _ _ _ _ t.links }

theorem passLink_keeps {σ : State} {f : Flit} {r : Nat} {port : Nat} {s : State} (h_s : Keeps σ s) :
    Keeps σ (passLink f r port s) := by
  unfold passLink
  repeat' first
    | with_reducible assumption
    | intro _
    | extract_lets
    | with_reducible refine setLinkDir_keeps ?_
    | fail_if_no_progress with_reducible refine keeps_upd ?_ rfl rfl rfl rfl rfl rfl rfl rfl rfl rfl rfl rfl rfl rfl rfl rfl rfl rfl rfl rfl rfl

theorem passLink0_keeps {σ : State} {w : Word} {r : Nat} {port : Nat} {s : State} (h_s : Keeps σ s) :
    Keeps σ (passLink0 w r port s) := by
  unfold passLink0
  repeat' first
    | with_reducible assumption
    | intro _
    | extract_lets
    | with_reducible refine setLinkDir_keeps ?_
    | fail_if_no_progress with_reducible refine keeps_upd ?_ rfl rfl rfl rfl rfl rfl rfl rfl rfl rfl rfl rfl rfl rfl rfl rfl rfl rfl rfl rfl rfl

theorem passRoute_keeps {σ : State} {f : Flit} {rt : List (Nat × Nat)} {s : State} (h_s : Keeps σ s) :
    Keeps σ (passRoute f rt s) := by
  unfold passRoute
  repeat' first
    | with_reducible assumption
    | intro _
    | with_reducible refine forEach_keeps ?_ ?_
    | with_reducible refine passLink_keeps ?_

theorem passRoute0_keeps {σ : State} {ws : List Word} {rt : List (Nat × Nat)} {s : State} (h_s : Keeps σ s) :
    Keeps σ (passRoute0 ws rt s) := by
  unfold passRoute0
  repeat' first
    | with_reducible assumption
    | intro _
    | with_reducible refine forEach_keeps ?_ ?_
    | with_reducible refine passLink0_keeps ?_

theorem setUsed3_keeps {σ : State} {r : Nat} {port : Nat} {n : Nat} {s : State} (h_s : Keeps σ s) :
    Keeps σ (setUsed3 r port n s) :=
  keeps_tables h_s rfl rfl rfl rfl rfl rfl fun t => { t with used3 := Table.wf_set _ _ _ _ t.used3 }

theorem enter3_keeps {σ : State} {f : Flit} {p : Option (Nat × Nat)} {s : State} (h_s : Keeps σ s) :
    Keeps σ (enter3 f p s) := by
  unfold enter3
  repeat' first
    | with_reducible assumption
    | intro _
    | with_reducible refine when_keeps ?_ ?_
    | with_reducible refine setUsed3_keeps ?_
    | fail_if_no_progress with_reducible refine keeps_upd ?_ rfl rfl rfl rfl rfl rfl rfl rfl rfl rfl rfl rfl rfl rfl rfl rfl rfl rfl rfl rfl rfl
    | split

theorem leave3_keeps {σ : State} {f : Flit} {p : Option (Nat × Nat)} {s : State} (h_s : Keeps σ s) :
    Keeps σ (leave3 f p s) := by
  unfold leave3
  repeat' first
    | with_reducible assumption
    | intro _
    | with_reducible refine when_keeps ?_ ?_
    | with_reducible refine setUsed3_keeps ?_
    | fail_if_no_progress with_reducible refine keeps_upd ?_ rfl rfl rfl rfl rfl rfl rfl rfl rfl rfl rfl rfl rfl rfl rfl rfl rfl rfl rfl rfl rfl
    | split

theorem keepFlight_keeps {σ : State} {x : Flight} {s : State} (h_s : Keeps σ s) :
    Keeps σ (keepFlight x s) := by
  unfold keepFlight
  repeat' first
    | with_reducible assumption
    | intro _
    | fail_if_no_progress with_reducible refine keeps_upd ?_ rfl rfl rfl rfl rfl rfl rfl rfl rfl rfl rfl rfl rfl rfl rfl rfl rfl rfl rfl rfl rfl

theorem settle_keeps {σ : State} {x : Flight} {s : State} (h_s : Keeps σ s) :
    Keeps σ (settle x s) := by
  unfold settle
  repeat' first
    | with_reducible assumption
    | intro _
    | extract_lets
    | with_reducible refine keeps_ite ?_ ?_
    | with_reducible refine leave3_keeps ?_
    | with_reducible refine sendSpan_keeps ?_
    | with_reducible refine keepFlight_keeps ?_
    | fail_if_no_progress with_reducible refine keeps_upd ?_ rfl rfl rfl rfl rfl rfl rfl rfl rfl rfl rfl rfl rfl rfl rfl rfl rfl rfl rfl rfl rfl
    | split
    | dsimp +zetaDelta only

theorem goOn_keeps {σ : State} {x : Flight} {s : State} (h_s : Keeps σ s) :
    Keeps σ (goOn x s) := by
  unfold goOn
  repeat' first
    | with_reducible assumption
    | intro _
    | extract_lets
    | with_reducible refine keeps_ite ?_ ?_
    | with_reducible refine settle_keeps ?_
    | with_reducible refine enter3_keeps ?_
    | with_reducible refine leave3_keeps ?_
    | with_reducible refine passRoute_keeps ?_
    | fail_if_no_progress with_reducible refine keeps_upd ?_ rfl rfl rfl rfl rfl rfl rfl rfl rfl rfl rfl rfl rfl rfl rfl rfl rfl rfl rfl rfl rfl
    | split

theorem moveOn_keeps {σ : State} {s : State} (h_s : Keeps σ s) :
    Keeps σ (moveOn s) := by
  unfold moveOn
  repeat' first
    | with_reducible assumption
    | intro _
    | with_reducible refine forEach_keeps ?_ ?_
    | with_reducible refine goOn_keeps ?_
    | fail_if_no_progress with_reducible refine keeps_upd ?_ rfl rfl rfl rfl rfl rfl rfl rfl rfl rfl rfl rfl rfl rfl rfl rfl rfl rfl rfl rfl rfl

theorem sendFlit_keeps {σ : State} {at_ : Nat} {act : Nat} {f : Flit} {rt : List (Nat × Nat)} {s : State} (h_s : Keeps σ s) :
    Keeps σ (sendFlit at_ act f rt s) := by
  unfold sendFlit
  repeat' first
    | with_reducible assumption
    | intro _
    | with_reducible refine goOn_keeps ?_
    | fail_if_no_progress with_reducible refine keeps_upd ?_ rfl rfl rfl rfl rfl rfl rfl rfl rfl rfl rfl rfl rfl rfl rfl rfl rfl rfl rfl rfl rfl

theorem launchFlit_keeps {σ : State} {at_ : Nat} {act : Nat} {f : Flit} {via : List (Nat × Nat)} {s : State} (h_s : Keeps σ s) :
    Keeps σ (launchFlit at_ act f via s) := by
  unfold launchFlit
  repeat' first
    | with_reducible assumption
    | intro _
    | with_reducible refine keepFlight_keeps ?_
    | fail_if_no_progress with_reducible refine keeps_upd ?_ rfl rfl rfl rfl rfl rfl rfl rfl rfl rfl rfl rfl rfl rfl rfl rfl rfl rfl rfl rfl rfl

theorem liftFlit_keeps {σ : State} {x : Flight} {s : State} (h_s : Keeps σ s) :
    Keeps σ (liftFlit x s) := by
  unfold liftFlit
  repeat' first
    | with_reducible assumption
    | intro _
    | with_reducible refine moveOn_keeps ?_
    | with_reducible refine leave3_keeps ?_
    | with_reducible refine passRoute_keeps ?_
    | fail_if_no_progress with_reducible refine keeps_upd ?_ rfl rfl rfl rfl rfl rfl rfl rfl rfl rfl rfl rfl rfl rfl rfl rfl rfl rfl rfl rfl rfl

theorem takeBound_keeps {σ : State} {dst : Nat} {g : Granule} {s : State} (h_s : Keeps σ s) :
    Keeps σ (takeBound dst g s) := by
  unfold takeBound
  repeat' first
    | with_reducible assumption
    | intro _
    | with_reducible refine liftFlit_keeps ?_
    | fail_if_no_progress with_reducible refine keeps_upd ?_ rfl rfl rfl rfl rfl rfl rfl rfl rfl rfl rfl rfl rfl rfl rfl rfl rfl rfl rfl rfl rfl
    | split

theorem queueSum_keeps {σ : State} {r tree port act : Nat} {f : Flit} {s : State} (h_s : Keeps σ s) :
    Keeps σ (queueSum r tree port act f s) := by
  unfold queueSum
  exact keeps_tables h_s rfl rfl rfl rfl rfl rfl fun t => { t with redQ := Table.wf_set _ _ _ _ t.redQ }

theorem chargeHops_keeps {σ : State} {c : Nat} {vc : Nat} {n : Nat} {h : Nat} {s : State} (h_s : Keeps σ s) :
    Keeps σ (chargeHops c vc n h s) := by
  unfold chargeHops
  repeat' first
    | with_reducible assumption
    | intro _
    | extract_lets
    | with_reducible refine keeps_ite ?_ ?_
    | with_reducible refine charge_keeps ?_
    | with_reducible refine chargeEnergy_keeps ?_
    | split

theorem moveEffect_keeps {σ : State} {c : Nat} {w : Dword} {env : MemEnv} {s : State} (h_s : Keeps σ s) :
    Keeps σ (moveEffect c w env s) := by
  unfold moveEffect
  repeat' first
    | with_reducible assumption
    | intro _
    | extract_lets
    | with_reducible refine keeps_ite ?_ ?_
    | with_reducible refine reads_keeps ?_
    | with_reducible refine forEach_keeps ?_ ?_
    | with_reducible refine queueSum_keeps ?_
    | with_reducible refine launchFlit_keeps ?_
    | with_reducible refine report_keeps ?_
    | with_reducible refine goOn_keeps ?_
    | with_reducible refine chargeHops_keeps ?_
    | fail_if_no_progress with_reducible refine keeps_upd ?_ rfl rfl rfl rfl rfl rfl rfl rfl rfl rfl rfl rfl rfl rfl rfl rfl rfl rfl rfl rfl rfl
    | split

theorem execMove_keeps {σ : State} {c : Nat} {env : MemEnv} {s : State} (h_s : Keeps σ s) :
    ∃ τ, execMove c env s = .next τ ∧ Keeps σ τ := by
  refine ⟨_, rfl, ?_⟩
  repeat' first
    | with_reducible assumption
    | intro _
    | with_reducible refine issue_keeps ?_ ?_
    | with_reducible refine moveEffect_keeps ?_

theorem vc1Meets_keeps {σ : State} {rs : List Nat} {s : State} (h_s : Keeps σ s) :
    Keeps σ (vc1Meets rs s) := by
  unfold vc1Meets
  repeat' first
    | with_reducible assumption
    | intro _
    | with_reducible refine forEach_keeps ?_ ?_
    | with_reducible refine raise_keeps ?_
    | with_reducible refine bump_keeps ?_

theorem landWrite_keeps {σ : State} {c : Nat} {g : Nat} {n : Nat} {v : Granule} {env : MemEnv} {s : State} (h_s : Keeps σ s) :
    Keeps σ (landWrite c g n v env s) := by
  unfold landWrite
  repeat' first
    | with_reducible assumption
    | intro _
    | extract_lets
    | with_reducible refine keeps_ite ?_ ?_
    | with_reducible refine bump_keeps ?_
    | with_reducible refine forEach_keeps ?_ ?_
    | with_reducible refine report_keeps ?_
    | with_reducible refine collide_keeps ?_
    | with_reducible refine writeGranule_keeps ?_
    | with_reducible refine arrive_keeps ?_
    | split

theorem misroute_keeps {σ : State} {c : Nat} {s : State} (h_s : Keeps σ s) :
    Keeps σ (misroute c s) := by
  unfold misroute
  repeat' first
    | with_reducible assumption
    | intro _
    | with_reducible refine report_keeps ?_

theorem setCrossed_keeps {σ : State} {m : Nat} {dir : Nat} {n : Nat} {s : State} (h_s : Keeps σ s) :
    Keeps σ (setCrossed m dir n s) := by
  unfold setCrossed
  repeat' first
    | with_reducible assumption
    | intro _
    | fail_if_no_progress with_reducible refine keeps_upd ?_ rfl rfl rfl rfl rfl rfl rfl rfl rfl rfl rfl rfl rfl rfl rfl rfl rfl rfl rfl rfl rfl

theorem landFlit_keeps {σ : State} {x : Flight} {s : State} (h_s : Keeps σ s) :
    Keeps σ (landFlit x s) := by
  unfold landFlit
  repeat' first
    | with_reducible assumption
    | intro _
    | with_reducible refine setCrossed_keeps ?_
    | with_reducible refine liftFlit_keeps ?_
    | fail_if_no_progress with_reducible refine keeps_upd ?_ rfl rfl rfl rfl rfl rfl rfl rfl rfl rfl rfl rfl rfl rfl rfl rfl rfl rfl rfl rfl rfl
    | split

theorem flitLanding_keeps {σ : State} {c : Nat} {f : Flit} {env : MemEnv} {s0 : State} (h_s0 : Keeps σ s0) :
    Keeps σ (flitLanding c f env s0) := by
  unfold flitLanding
  repeat' first
    | with_reducible assumption
    | intro _
    | extract_lets
    | with_reducible refine keeps_ite ?_ ?_
    | with_reducible refine vc1Meets_keeps ?_
    | with_reducible refine landFlit_keeps ?_
    | with_reducible refine bump_keeps ?_
    | with_reducible refine landWrite_keeps ?_
    | with_reducible refine misroute_keeps ?_
    | fail_if_no_progress with_reducible refine keeps_upd ?_ rfl rfl rfl rfl rfl rfl rfl rfl rfl rfl rfl rfl rfl rfl rfl rfl rfl rfl rfl rfl rfl
    | with_reducible refine keeps_snd_ite ?_ ?_
    | split
    | dsimp +zetaDelta only

theorem execFlitLanding_keeps {σ : State} {c : Nat} {f : Flit} {env : MemEnv} {s : State} (h_s : Keeps σ s) :
    ∃ τ, execFlitLanding c f env s = .next τ ∧ Keeps σ τ := by
  refine ⟨_, rfl, ?_⟩
  repeat' first
    | with_reducible assumption
    | intro _
    | with_reducible refine flitLanding_keeps ?_

theorem treeMiss_keeps {σ : State} {r : Nat} {s : State} (h_s : Keeps σ s) :
    Keeps σ (treeMiss r s) := by
  unfold treeMiss
  repeat' first
    | with_reducible assumption
    | intro _
    | with_reducible refine raise_keeps ?_

theorem hopEnergy_keeps {σ : State} {act : Nat} {vc : Nat} {s : State} (h_s : Keeps σ s) :
    Keeps σ (hopEnergy act vc s) := by
  unfold hopEnergy
  repeat' first
    | with_reducible assumption
    | intro _
    | with_reducible refine chargeEnergy_keeps ?_

theorem copyTo_keeps {σ : State} {r : Nat} {act : Nat} {f : Flit} {env : MemEnv} {port : Nat} {s : State} (h_s : Keeps σ s) :
    Keeps σ (copyTo r act f env port s) := by
  unfold copyTo
  repeat' first
    | with_reducible assumption
    | intro _
    | with_reducible refine keeps_ite ?_ ?_
    | with_reducible refine landWrite_keeps ?_
    | with_reducible refine launchFlit_keeps ?_
    | with_reducible refine passLink_keeps ?_
    | with_reducible refine hopEnergy_keeps ?_
    | fail_if_no_progress with_reducible refine keeps_upd ?_ rfl rfl rfl rfl rfl rfl rfl rfl rfl rfl rfl rfl rfl rfl rfl rfl rfl rfl rfl rfl rfl
    | split

theorem multicastCopy_keeps {σ : State} {r : Nat} {f : Flit} {env : MemEnv} {s0 : State} (h_s0 : Keeps σ s0) :
    Keeps σ (multicastCopy r f env s0) := by
  unfold multicastCopy
  repeat' first
    | with_reducible assumption
    | intro _
    | extract_lets
    | with_reducible refine keeps_ite ?_ ?_
    | with_reducible refine vc1Meets_keeps ?_
    | with_reducible refine liftFlit_keeps ?_
    | with_reducible refine forEach_keeps ?_ ?_
    | with_reducible refine copyTo_keeps ?_
    | with_reducible refine treeMiss_keeps ?_
    | fail_if_no_progress with_reducible refine keeps_upd ?_ rfl rfl rfl rfl rfl rfl rfl rfl rfl rfl rfl rfl rfl rfl rfl rfl rfl rfl rfl rfl rfl
    | split
    | dsimp +zetaDelta only

theorem execMulticastCopy_keeps {σ : State} {r : Nat} {f : Flit} {env : MemEnv} {s : State} (h_s : Keeps σ s) :
    ∃ τ, execMulticastCopy r f env s = .next τ ∧ Keeps σ τ := by
  refine ⟨_, rfl, ?_⟩
  repeat' first
    | with_reducible assumption
    | intro _
    | with_reducible refine multicastCopy_keeps ?_

theorem used2Set_keeps {σ e : State} {u n : Nat} (h : Keeps σ e) :
    Keeps σ { e with mesh := { e.mesh with used2 := Table.set (fun _ => 0) e.mesh.used2 u n } } :=
  keeps_tables h rfl rfl rfl rfl rfl rfl fun t => { t with used2 := Table.wf_set _ _ _ _ t.used2 }

theorem redQ_keeps {σ e : State} {k : Nat} {q : List (Nat × Flit)} (h : Keeps σ e) :
    Keeps σ { e with mesh := { e.mesh with redQ := Table.set (fun _ => []) e.mesh.redQ k q } } :=
  keeps_tables h rfl rfl rfl rfl rfl rfl fun t => { t with redQ := Table.wf_set _ _ _ _ t.redQ }

theorem popSum_keeps {σ : State} {r : Nat} {tree : Nat} {port : Nat} {s : State} (h_s : Keeps σ s) :
    Keeps σ (popSum r tree port s) := by
  unfold popSum
  split
  · exact redQ_keeps h_s
  · exact used2Set_keeps (redQ_keeps h_s)

theorem sendSum_keeps {σ : State} {r tree port act : Nat} {f : Flit} {s : State} (h_s : Keeps σ s) :
    Keeps σ (sendSum r tree port act f s) := by
  unfold sendSum
  split
  · exact h_s
  · exact used2Set_keeps (passLink_keeps (queueSum_keeps (hopEnergy_keeps h_s)))

theorem reductionCombine_keeps {σ : State} {r : Nat} {tree : Nat} {env : MemEnv} {s : State} (h_s : Keeps σ s) :
    Keeps σ (reductionCombine r tree env s) := by
  unfold reductionCombine
  repeat' first
    | with_reducible assumption
    | intro _
    | extract_lets
    | with_reducible refine keeps_ite ?_ ?_
    | with_reducible refine treeMiss_keeps ?_
    | with_reducible refine forEach_keeps ?_ ?_
    | with_reducible refine popSum_keeps ?_
    | with_reducible refine report_keeps ?_
    | with_reducible refine raise_keeps ?_
    | with_reducible refine when_keeps ?_ ?_
    | with_reducible refine precise_keeps ?_
    | with_reducible refine landWrite_keeps ?_
    | with_reducible refine sendSum_keeps ?_
    | fail_if_no_progress with_reducible refine keeps_upd ?_ rfl rfl rfl rfl rfl rfl rfl rfl rfl rfl rfl rfl rfl rfl rfl rfl rfl rfl rfl rfl rfl
    | with_reducible refine keeps_snd_ite ?_ ?_
    | split
    | dsimp +zetaDelta only

theorem execReductionCombine_keeps {σ : State} {r : Nat} {tree : Nat} {env : MemEnv} {s : State} (h_s : Keeps σ s) :
    ∃ τ, execReductionCombine r tree env s = .next τ ∧ Keeps σ τ := by
  refine ⟨_, rfl, ?_⟩
  repeat' first
    | with_reducible assumption
    | intro _
    | with_reducible refine reductionCombine_keeps ?_

theorem linkCrcError_keeps {σ : State} {r : Nat} {port : Nat} {seq : Nat} {frame : LineFrame} {s : State} (h_s : Keeps σ s) :
    Keeps σ (linkCrcError r port seq frame s) := by
  unfold linkCrcError
  repeat' first
    | with_reducible assumption
    | intro _
    | extract_lets
    | with_reducible refine keeps_ite ?_ ?_
    | with_reducible refine passLink0_keeps ?_
    | with_reducible refine setLinkDir_keeps ?_
    | fail_if_no_progress with_reducible refine keeps_upd ?_ rfl rfl rfl rfl rfl rfl rfl rfl rfl rfl rfl rfl rfl rfl rfl rfl rfl rfl rfl rfl rfl
    | split
    | dsimp +zetaDelta only

theorem execLinkCrcError_keeps {σ : State} {r : Nat} {port : Nat} {seq : Nat} {frame : LineFrame} {s : State} (h_s : Keeps σ s) :
    ∃ τ, execLinkCrcError r port seq frame s = .next τ ∧ Keeps σ τ := by
  refine ⟨_, rfl, ?_⟩
  repeat' first
    | with_reducible assumption
    | intro _
    | with_reducible refine linkCrcError_keeps ?_

theorem nakWord_keeps {σ : State} {r : Nat} {port : Nat} {vc0 : Bool} {seq : Nat} {s : State} (h_s : Keeps σ s) :
    Keeps σ (nakWord r port vc0 seq s) := by
  unfold nakWord
  repeat' first
    | with_reducible assumption
    | intro _
    | extract_lets
    | with_reducible refine keeps_ite ?_ ?_
    | with_reducible refine raise_keeps ?_
    | with_reducible refine bump_keeps ?_
    | with_reducible refine setLinkDir_keeps ?_
    | split

theorem execNak_keeps {σ : State} {r : Nat} {port : Nat} {vc0 : Bool} {seq : Nat} {s : State} (h_s : Keeps σ s) :
    ∃ τ, execNak r port vc0 seq s = .next τ ∧ Keeps σ τ := by
  refine ⟨_, rfl, ?_⟩
  repeat' first
    | with_reducible assumption
    | intro _
    | with_reducible refine nakWord_keeps ?_

theorem meshLinkFail_keeps {σ : State} {r : Nat} {port : Nat} {s : State} (h_s : Keeps σ s) :
    Keeps σ (meshLinkFail r port s) := by
  unfold meshLinkFail
  repeat' first
    | with_reducible assumption
    | intro _
    | extract_lets
    | with_reducible refine keeps_ite ?_ ?_
    | with_reducible refine report_keeps ?_
    | with_reducible refine raise_keeps ?_
    | with_reducible refine setLinkDir_keeps ?_
    | fail_if_no_progress with_reducible refine keeps_upd ?_ rfl rfl rfl rfl rfl rfl rfl rfl rfl rfl rfl rfl rfl rfl rfl rfl rfl rfl rfl rfl rfl
    | split
    | dsimp +zetaDelta only

theorem execLinkFail_keeps {σ : State} {r : Nat} {port : Nat} {s : State} (h_s : Keeps σ s) :
    ∃ τ, execLinkFail r port s = .next τ ∧ Keeps σ τ := by
  refine ⟨_, rfl, ?_⟩
  repeat' first
    | with_reducible assumption
    | intro _
    | with_reducible refine meshLinkFail_keeps ?_

theorem replayRelease_keeps {σ : State} {r : Nat} {port : Nat} {vc0 : Bool} {s : State} (h_s : Keeps σ s) :
    Keeps σ (replayRelease r port vc0 s) := by
  unfold replayRelease
  repeat' first
    | with_reducible assumption
    | intro _
    | extract_lets
    | with_reducible refine keeps_ite ?_ ?_
    | with_reducible refine setLinkDir_keeps ?_
    | with_reducible refine moveOn_keeps ?_
    | fail_if_no_progress with_reducible refine keeps_upd ?_ rfl rfl rfl rfl rfl rfl rfl rfl rfl rfl rfl rfl rfl rfl rfl rfl rfl rfl rfl rfl rfl
    | split
    | dsimp +zetaDelta only

theorem execReplayBufferRelease_keeps {σ : State} {r : Nat} {port : Nat} {vc0 : Bool} {s : State} (h_s : Keeps σ s) :
    ∃ τ, execReplayBufferRelease r port vc0 s = .next τ ∧ Keeps σ τ := by
  refine ⟨_, rfl, ?_⟩
  repeat' first
    | with_reducible assumption
    | intro _
    | with_reducible refine replayRelease_keeps ?_

theorem vc0Discard_keeps {σ : State} {r : Nat} {w : Word} {s : State} (h_s : Keeps σ s) :
    Keeps σ (vc0Discard r w s) := by
  unfold vc0Discard
  repeat' first
    | with_reducible assumption
    | intro _
    | extract_lets
    | with_reducible refine keeps_ite ?_ ?_
    | with_reducible refine bump_keeps ?_
    | split

theorem execVc0Discard_keeps {σ : State} {r : Nat} {w : Word} {s : State} (h_s : Keeps σ s) :
    ∃ τ, execVc0Discard r w s = .next τ ∧ Keeps σ τ := by
  refine ⟨_, rfl, ?_⟩
  repeat' first
    | with_reducible assumption
    | intro _
    | with_reducible refine vc0Discard_keeps ?_

theorem respond_keeps {σ : State} {c : Nat} {err : Bool} {data : Option Word} {s : State} (h_s : Keeps σ s) :
    Keeps σ (respond c err data s) := by
  unfold respond
  repeat' first
    | with_reducible assumption
    | intro _
    | extract_lets
    | with_reducible refine passRoute0_keeps ?_
    | fail_if_no_progress with_reducible refine keeps_upd ?_ rfl rfl rfl rfl rfl rfl rfl rfl rfl rfl rfl rfl rfl rfl rfl rfl rfl rfl rfl rfl rfl

theorem cfgRead_keeps {σ : State} {c : Nat} {addr : Nat} {s : State} (h_s : Keeps σ s) :
    Keeps σ (cfgRead c addr s) := by
  unfold cfgRead
  repeat' first
    | with_reducible assumption
    | intro _
    | with_reducible refine keeps_ite ?_ ?_
    | with_reducible refine respond_keeps ?_
    | fail_if_no_progress with_reducible refine keeps_upd ?_ rfl rfl rfl rfl rfl rfl rfl rfl rfl rfl rfl rfl rfl rfl rfl rfl rfl rfl rfl rfl rfl
    | split

theorem execCfgRead_keeps {σ : State} {c : Nat} {addr : Nat} {s : State} (h_s : Keeps σ s) :
    ∃ τ, execCfgRead c addr s = .next τ ∧ Keeps σ τ := by
  refine ⟨_, rfl, ?_⟩
  repeat' first
    | with_reducible assumption
    | intro _
    | with_reducible refine cfgRead_keeps ?_

theorem setRun_keeps {σ : State} {c : Nat} {t36 : Bool} {env : MemEnv} {s : State} (h_s : Keeps σ s) :
    Keeps σ (setRun c t36 env s) := by
  unfold setRun
  repeat' first
    | with_reducible assumption
    | intro _
    | extract_lets
    | with_reducible refine loadReads_keeps ?_
    | with_reducible refine modCell_keeps ?_
    | fail_if_no_progress with_reducible refine keeps_upd ?_ rfl rfl rfl rfl rfl rfl rfl rfl rfl rfl rfl rfl rfl rfl rfl rfl rfl rfl rfl rfl rfl

theorem writeSeqCtrl_keeps {σ : State} {c : Nat} {d : Word} {env : MemEnv} {s : State} (h_s : Keeps σ s) :
    Keeps σ (writeSeqCtrl c d env s) := by
  unfold writeSeqCtrl
  repeat' first
    | with_reducible assumption
    | intro _
    | extract_lets
    | with_reducible refine keeps_ite ?_ ?_
    | with_reducible refine modCell_keeps ?_
    | with_reducible refine setRun_keeps ?_
    | fail_if_no_progress with_reducible refine keeps_upd ?_ rfl rfl rfl rfl rfl rfl rfl rfl rfl rfl rfl rfl rfl rfl rfl rfl rfl rfl rfl rfl rfl
    | split

theorem writeTable_keeps {σ : State} {c : Nat} {red : Bool} {tree : Nat} {d : Word} {s : State} (h_s : Keeps σ s) :
    Keeps σ (writeTable c red tree d s) := by
  unfold writeTable
  repeat' first
    | with_reducible assumption
    | intro _
    | fail_if_no_progress with_reducible refine keeps_upd ?_ rfl rfl rfl rfl rfl rfl rfl rfl rfl rfl rfl rfl rfl rfl rfl rfl rfl rfl rfl rfl rfl

theorem writeCfg_keeps {σ : State} {c : Nat} {addr : Nat} {d : Word} {env : MemEnv} {s : State} (h_s : Keeps σ s) :
    Keeps σ (writeCfg c addr d env s) := by
  unfold writeCfg
  repeat' first
    | with_reducible assumption
    | intro _
    | with_reducible refine keeps_ite ?_ ?_
    | with_reducible refine respond_keeps ?_
    | with_reducible refine writeTable_keeps ?_
    | with_reducible refine writeSeqCtrl_keeps ?_
    | with_reducible refine when_keeps ?_ ?_
    | with_reducible refine modCell_keeps ?_
    | with_reducible refine setArrival_keeps ?_
    | fail_if_no_progress with_reducible refine keeps_upd ?_ rfl rfl rfl rfl rfl rfl rfl rfl rfl rfl rfl rfl rfl rfl rfl rfl rfl rfl rfl rfl rfl
    | split

theorem cfgWrite_keeps {σ : State} {c : Nat} {addr : Nat} {d : Word} {env : MemEnv} {s : State} (h_s : Keeps σ s) :
    Keeps σ (cfgWrite c addr d env s) := by
  unfold cfgWrite
  repeat' first
    | with_reducible assumption
    | intro _
    | with_reducible refine keeps_ite ?_ ?_
    | with_reducible refine writeCfg_keeps ?_
    | split

theorem execCfgWrite_keeps {σ : State} {c : Nat} {w : CfgWord} {env : MemEnv} {s : State} (h_s : Keeps σ s) :
    ∃ τ, execCfgWrite c w env s = .next τ ∧ Keeps σ τ := by
  refine ⟨_, rfl, ?_⟩
  repeat' first
    | with_reducible assumption
    | intro _
    | with_reducible refine cfgWrite_keeps ?_

theorem fabCalderaWrite_keeps {σ : State} {f : Nat} {v : Word} {s : State} (h_s : Keeps σ s) :
    Keeps σ (fabCalderaWrite f v s) := by
  unfold fabCalderaWrite
  repeat' first
    | with_reducible assumption
    | intro _
    | with_reducible refine keeps_ite ?_ ?_
    | with_reducible refine raise_keeps ?_
    | with_reducible refine wr_keeps ?_
    | split

theorem execFabCalderaWrite_keeps {σ : State} {f : Nat} {v : Word} {s : State} (h_s : Keeps σ s) :
    ∃ τ, execFabCalderaWrite f v s = .next τ ∧ Keeps σ τ := by
  refine ⟨_, rfl, ?_⟩
  repeat' first
    | with_reducible assumption
    | intro _
    | with_reducible refine fabCalderaWrite_keeps ?_

theorem ringFill_keeps {σ : State} {c : Nat} {w : Word} {s : State} (h_s : Keeps σ s) :
    Keeps σ (ringFill c w s) := by
  unfold ringFill
  repeat' first
    | with_reducible assumption
    | intro _
    | extract_lets
    | with_reducible refine keeps_ite ?_ ?_
    | with_reducible refine modCell_keeps ?_
    | fail_if_no_progress with_reducible refine keeps_upd ?_ rfl rfl rfl rfl rfl rfl rfl rfl rfl rfl rfl rfl rfl rfl rfl rfl rfl rfl rfl rfl rfl
    | split

theorem execRingFill_keeps {σ : State} {c : Nat} {w : Word} {s : State} (h_s : Keeps σ s) :
    ∃ τ, execRingFill c w s = .next τ ∧ Keeps σ τ := by
  refine ⟨_, rfl, ?_⟩
  repeat' first
    | with_reducible assumption
    | intro _
    | with_reducible refine ringFill_keeps ?_

theorem slotFill_keeps {σ : State} {c : Nat} {w : Word} {s : State} (h_s : Keeps σ s) :
    Keeps σ (slotFill c w s) := by
  unfold slotFill
  repeat' first
    | with_reducible assumption
    | intro _
    | extract_lets
    | with_reducible refine keeps_ite ?_ ?_
    | with_reducible refine modCell_keeps ?_
    | fail_if_no_progress with_reducible refine keeps_upd ?_ rfl rfl rfl rfl rfl rfl rfl rfl rfl rfl rfl rfl rfl rfl rfl rfl rfl rfl rfl rfl rfl
    | split

theorem execSlotFill_keeps {σ : State} {c : Nat} {w : Word} {s : State} (h_s : Keeps σ s) :
    ∃ τ, execSlotFill c w s = .next τ ∧ Keeps σ τ := by
  refine ⟨_, rfl, ?_⟩
  repeat' first
    | with_reducible assumption
    | intro _
    | with_reducible refine slotFill_keeps ?_

end Sys2Proof.Machine
end

