-- ==== Sys2Proof/Laws/KeepPrec.lean ====
section
/-!
SUPPORT. What `Keeps` says, for every function of Machine/Prec.lean that changes the state.
-/
set_option Elab.async false
namespace Sys2Proof.Machine
open Sys2Proof

theorem setRecipeEntry_keeps {σ : State} {r : Nat} {l : Nat} {v : Word} {s : State} (h_s : Keeps σ s) :
    Keeps σ (setRecipeEntry r l v s) := by
  unfold setRecipeEntry
  exact keeps_tables h_s rfl rfl rfl rfl rfl rfl fun t => { t with recipes := Table.wf_set _ _ _ _ t.recipes }

theorem queueWiden_keeps {σ : State} {m : Nat} {l : Nat} {wide : Bool} {s : State} (h_s : Keeps σ s) :
    Keeps σ (queueWiden m l wide s) := by
  unfold queueWiden
  repeat' first
    | with_reducible assumption
    | intro _
    | fail_if_no_progress with_reducible refine keeps_upd ?_ rfl rfl rfl rfl rfl rfl rfl rfl rfl rfl rfl rfl rfl rfl rfl rfl rfl rfl rfl rfl rfl

theorem keepWide_keeps {σ : State} {m : Nat} {l : Nat} {s : State} (h_s : Keeps σ s) :
    Keeps σ (keepWide m l s) := by
  unfold keepWide
  repeat' first
    | with_reducible assumption
    | intro _
    | with_reducible refine keeps_ite ?_ ?_
    | fail_if_no_progress with_reducible refine keeps_upd ?_ rfl rfl rfl rfl rfl rfl rfl rfl rfl rfl rfl rfl rfl rfl rfl rfl rfl rfl rfl rfl rfl
    | split

theorem refuseWiden_keeps {σ : State} {m : Nat} {l : Nat} {s : State} (h_s : Keeps σ s) :
    Keeps σ (refuseWiden m l s) := by
  unfold refuseWiden
  repeat' first
    | with_reducible assumption
    | intro _
    | extract_lets
    | with_reducible refine keeps_ite ?_ ?_
    | with_reducible refine setLayerPrec_keeps ?_
    | with_reducible refine wr_keeps ?_
    | with_reducible refine raise_keeps ?_
    | fail_if_no_progress with_reducible refine keeps_upd ?_ rfl rfl rfl rfl rfl rfl rfl rfl rfl rfl rfl rfl rfl rfl rfl rfl rfl rfl rfl rfl rfl
    | split

theorem grantWiden_keeps {σ : State} {m : Nat} {l : Nat} {s : State} (h_s : Keeps σ s) :
    Keeps σ (grantWiden m l s) := by
  unfold grantWiden
  repeat' first
    | with_reducible assumption
    | intro _
    | extract_lets
    | with_reducible refine setLayerPrec_keeps ?_
    | with_reducible refine queueWiden_keeps ?_
    | with_reducible refine wr_keeps ?_
    | fail_if_no_progress with_reducible refine keeps_upd ?_ rfl rfl rfl rfl rfl rfl rfl rfl rfl rfl rfl rfl rfl rfl rfl rfl rfl rfl rfl rfl rfl

theorem requestWiden_keeps {σ : State} {m : Nat} {l : Nat} {s : State} (h_s : Keeps σ s) :
    Keeps σ (requestWiden m l s) := by
  unfold requestWiden
  repeat' first
    | with_reducible assumption
    | intro _
    | extract_lets
    | with_reducible refine keeps_ite ?_ ?_
    | with_reducible refine keepWide_keeps ?_
    | with_reducible refine setLayerPrec_keeps ?_
    | with_reducible refine grantWiden_keeps ?_
    | with_reducible refine refuseWiden_keeps ?_
    | fail_if_no_progress with_reducible refine keeps_upd ?_ rfl rfl rfl rfl rfl rfl rfl rfl rfl rfl rfl rfl rfl rfl rfl rfl rfl rfl rfl rfl rfl
    | split

theorem collectEvent_keeps {σ : State} {e : PrecEvent} {s : State} (h_s : Keeps σ s) :
    Keeps σ (collectEvent e s) := by
  unfold collectEvent
  repeat' first
    | with_reducible assumption
    | intro _
    | extract_lets
    | with_reducible refine keeps_ite ?_ ?_
    | with_reducible refine setLayerPrec_keeps ?_
    | with_reducible refine raise_keeps ?_
    | with_reducible refine requestWiden_keeps ?_
    | fail_if_no_progress with_reducible refine keeps_upd ?_ rfl rfl rfl rfl rfl rfl rfl rfl rfl rfl rfl rfl rfl rfl rfl rfl rfl rfl rfl rfl rfl
    | split
    | dsimp +zetaDelta only

theorem collectEvents_keeps {σ : State} {s : State} (h_s : Keeps σ s) :
    Keeps σ (collectEvents s) := by
  unfold collectEvents
  repeat' first
    | with_reducible assumption
    | intro _
    | extract_lets
    | with_reducible refine forEach_keeps ?_ ?_
    | with_reducible refine collectEvent_keeps ?_
    | fail_if_no_progress with_reducible refine keeps_upd ?_ rfl rfl rfl rfl rfl rfl rfl rfl rfl rfl rfl rfl rfl rfl rfl rfl rfl rfl rfl rfl rfl
    | with_reducible refine foldl_keeps ?_ ?_

theorem execPrecisionEventCollect_keeps {σ : State} {s : State} (h_s : Keeps σ s) :
    ∃ τ, execPrecisionEventCollect s = .next τ ∧ Keeps σ τ := by
  refine ⟨_, rfl, ?_⟩
  repeat' first
    | with_reducible assumption
    | intro _
    | with_reducible refine collectEvents_keeps ?_

theorem widenEnd_keeps {σ : State} {m : Nat} {l : Nat} {s : State} (h_s : Keeps σ s) :
    Keeps σ (widenEnd m l s) := by
  unfold widenEnd
  repeat' first
    | with_reducible assumption
    | intro _
    | extract_lets
    | with_reducible refine keeps_ite ?_ ?_
    | with_reducible refine queueWiden_keeps ?_
    | split

theorem execWidenEnd_keeps {σ : State} {m : Nat} {l : Nat} {s : State} (h_s : Keeps σ s) :
    ∃ τ, execWidenEnd m l s = .next τ ∧ Keeps σ τ := by
  refine ⟨_, rfl, ?_⟩
  repeat' first
    | with_reducible assumption
    | intro _
    | with_reducible refine widenEnd_keeps ?_

theorem carryWiden_keeps {σ : State} {s : State} (h_s : Keeps σ s) :
    Keeps σ (carryWiden s).2 := by
  unfold carryWiden
  repeat' first
    | with_reducible assumption
    | intro _
    | fail_if_no_progress with_reducible refine keeps_upd ?_ rfl rfl rfl rfl rfl rfl rfl rfl rfl rfl rfl rfl rfl rfl rfl rfl rfl rfl rfl rfl rfl
    | with_reducible refine keeps_snd_ite ?_ ?_
    | split

theorem keepRecipe_keeps {σ : State} {m : Nat} {s : State} (h_s : Keeps σ s) :
    Keeps σ (keepRecipe m s) := by
  unfold keepRecipe
  repeat' first
    | with_reducible assumption
    | intro _
    | extract_lets
    | with_reducible refine keeps_ite ?_ ?_
    | fail_if_no_progress with_reducible refine keeps_upd ?_ rfl rfl rfl rfl rfl rfl rfl rfl rfl rfl rfl rfl rfl rfl rfl rfl rfl rfl rfl rfl rfl
    | split

theorem switchRecipe_keeps {σ : State} {m : Nat} {s : State} (h_s : Keeps σ s) :
    Keeps σ (switchRecipe m s) := by
  unfold switchRecipe
  repeat' first
    | with_reducible assumption
    | intro _
    | extract_lets
    | with_reducible refine keeps_ite ?_ ?_
    | with_reducible refine wr_keeps ?_
    | with_reducible refine keepRecipe_keeps ?_
    | with_reducible refine raise_keeps ?_
    | split

theorem modelRecipeWrite_keeps {σ : State} {m : Nat} {v : Word} {s : State} (h_s : Keeps σ s) :
    Keeps σ (modelRecipeWrite m v s) := by
  unfold modelRecipeWrite
  repeat' first
    | with_reducible assumption
    | intro _
    | with_reducible refine keeps_ite ?_ ?_
    | with_reducible refine when_keeps ?_ ?_
    | with_reducible refine wr_keeps ?_
    | split

theorem execModelRecipeWrite_keeps {σ : State} {m : Nat} {v : Word} {s : State} (h_s : Keeps σ s) :
    ∃ τ, execModelRecipeWrite m v s = .next τ ∧ Keeps σ τ := by
  refine ⟨_, rfl, ?_⟩
  repeat' first
    | with_reducible assumption
    | intro _
    | with_reducible refine modelRecipeWrite_keeps ?_

theorem recipeWinDataWrite_keeps {σ : State} {v : Word} {s : State} (h_s : Keeps σ s) :
    Keeps σ (recipeWinDataWrite v s) := by
  unfold recipeWinDataWrite
  repeat' first
    | with_reducible assumption
    | intro _
    | extract_lets
    | with_reducible refine keeps_ite ?_ ?_
    | with_reducible refine raise_keeps ?_
    | with_reducible refine setRecipeEntry_keeps ?_
    | split

theorem execRecipeWinDataWrite_keeps {σ : State} {v : Word} {s : State} (h_s : Keeps σ s) :
    ∃ τ, execRecipeWinDataWrite v s = .next τ ∧ Keeps σ τ := by
  refine ⟨_, rfl, ?_⟩
  repeat' first
    | with_reducible assumption
    | intro _
    | with_reducible refine recipeWinDataWrite_keeps ?_

end Sys2Proof.Machine
end

