-- ==== Sys2Proof/Laws/KeepHold.lean ====
section
/-!
SUPPORT. What `Keeps` says, for every function of Machine/Hold.lean that changes the state.
-/
set_option Elab.async false
namespace Sys2Proof.Machine
open Sys2Proof

theorem dueReads_keeps {σ : State} {n : Nat} {c : Nat} {env : MemEnv} {s : State} (h_s : Keeps σ s) :
    Keeps σ (dueReads n c env s) := by
  unfold dueReads
  repeat' first
    | with_reducible assumption
    | intro _
    | extract_lets
    | with_reducible refine keeps_ite ?_ ?_
    | with_reducible refine loadReads_keeps ?_
    | fail_if_no_progress with_reducible refine keeps_upd ?_ rfl rfl rfl rfl rfl rfl rfl rfl rfl rfl rfl rfl rfl rfl rfl rfl rfl rfl rfl rfl rfl
    | split
    | dsimp +zetaDelta only

theorem captureHold_keeps {σ : State} {r : HoldReq} {s : State} (h_s : Keeps σ s) :
    Keeps σ (captureHold r s) := by
  unfold captureHold
  repeat' first
    | with_reducible assumption
    | intro _
    | extract_lets
    | with_reducible refine keeps_ite ?_ ?_
    | with_reducible refine bump_keeps ?_
    | with_reducible refine wr_keeps ?_
    | split

theorem holdTest_keeps {σ : State} {s : State} (h_s : Keeps σ s) :
    Keeps σ (holdTest s) := by
  unfold holdTest
  repeat' first
    | with_reducible assumption
    | intro _
    | extract_lets
    | with_reducible refine forEach_keeps ?_ ?_
    | with_reducible refine modCell_keeps ?_
    | with_reducible refine dueReads_keeps ?_
    | with_reducible refine captureHold_keeps ?_
    | fail_if_no_progress with_reducible refine keeps_upd ?_ rfl rfl rfl rfl rfl rfl rfl rfl rfl rfl rfl rfl rfl rfl rfl rfl rfl rfl rfl rfl rfl

theorem execHoldTest_keeps {σ : State} {s : State} (h_s : Keeps σ s) :
    ∃ τ, execHoldTest s = .next τ ∧ Keeps σ τ := by
  refine ⟨_, rfl, ?_⟩
  repeat' first
    | with_reducible assumption
    | intro _
    | with_reducible refine holdTest_keeps ?_

theorem stallReport_keeps {σ : State} {c : Nat} {s : State} (h_s : Keeps σ s) :
    Keeps σ (stallReport c s) := by
  unfold stallReport
  repeat' first
    | with_reducible assumption
    | intro _
    | with_reducible refine keeps_ite ?_ ?_
    | with_reducible refine report_keeps ?_
    | with_reducible refine modCell_keeps ?_
    | fail_if_no_progress with_reducible refine keeps_upd ?_ rfl rfl rfl rfl rfl rfl rfl rfl rfl rfl rfl rfl rfl rfl rfl rfl rfl rfl rfl rfl rfl
    | split

theorem execStall_keeps {σ : State} {c : Nat} {s : State} (h_s : Keeps σ s) :
    ∃ τ, execStall c s = .next τ ∧ Keeps σ τ := by
  refine ⟨_, rfl, ?_⟩
  repeat' first
    | with_reducible assumption
    | intro _
    | with_reducible refine stallReport_keeps ?_

theorem longHold_keeps {σ : State} {s : State} (h_s : Keeps σ s) :
    Keeps σ (longHold s) := by
  unfold longHold
  repeat' first
    | with_reducible assumption
    | intro _
    | with_reducible refine keeps_ite ?_ ?_
    | with_reducible refine raise_keeps ?_
    | fail_if_no_progress with_reducible refine keeps_upd ?_ rfl rfl rfl rfl rfl rfl rfl rfl rfl rfl rfl rfl rfl rfl rfl rfl rfl rfl rfl rfl rfl
    | split

theorem execLongHold_keeps {σ : State} {s : State} (h_s : Keeps σ s) :
    ∃ τ, execLongHold s = .next τ ∧ Keeps σ τ := by
  refine ⟨_, rfl, ?_⟩
  repeat' first
    | with_reducible assumption
    | intro _
    | with_reducible refine longHold_keeps ?_

theorem execHostHold_keeps {σ : State} {b : Bool} {s : State} (h_s : Keeps σ s) :
    ∃ τ, execHostHold b s = .next τ ∧ Keeps σ τ := by
  refine ⟨_, rfl, ?_⟩
  repeat' first
    | with_reducible assumption
    | intro _
    | with_reducible refine wrB_keeps ?_

theorem extEn_keeps {σ : State} {b : Bool} {s : State} (h_s : Keeps σ s) :
    Keeps σ (extEn b s) := by
  unfold extEn
  repeat' first
    | with_reducible assumption
    | intro _
    | extract_lets
    | with_reducible refine keeps_ite ?_ ?_
    | with_reducible refine wrB_keeps ?_
    | fail_if_no_progress with_reducible refine keeps_upd ?_ rfl rfl rfl rfl rfl rfl rfl rfl rfl rfl rfl rfl rfl rfl rfl rfl rfl rfl rfl rfl rfl
    | split

theorem execExtEn_keeps {σ : State} {b : Bool} {s : State} (h_s : Keeps σ s) :
    ∃ τ, execExtEn b s = .next τ ∧ Keeps σ τ := by
  refine ⟨_, rfl, ?_⟩
  repeat' first
    | with_reducible assumption
    | intro _
    | with_reducible refine extEn_keeps ?_

end Sys2Proof.Machine
end

