-- ==== Sys2Proof/Laws/KeepKvBase.lean ====
section
/-!
SUPPORT. What `Keeps` says, for every function of Machine/KvBase.lean that changes the state.
-/
set_option Elab.async false
namespace Sys2Proof.Machine
open Sys2Proof

theorem countSpan_keeps {σ : State} {wrt : Bool} {a : Nat} {n : Nat} {s : State} (h_s : Keeps σ s) :
    Keeps σ (countSpan wrt a n s) := by
  unfold countSpan
  repeat' first
    | with_reducible assumption
    | intro _
    | extract_lets
    | with_reducible refine keeps_ite ?_ ?_
    | with_reducible refine forEach_keeps ?_ ?_
    | with_reducible refine bumpBy_keeps ?_
    | split

theorem setFreeList_keeps {σ : State} {m : Nat} {l : List Nat} {s : State} (h_s : Keeps σ s) :
    Keeps σ (setFreeList m l s) := by
  unfold setFreeList
  exact keeps_tables h_s rfl rfl rfl rfl rfl rfl fun t => { t with freeList := Table.wf_set _ _ _ _ t.freeList }

theorem putFree_keeps {σ : State} {m : Nat} {i : Nat} {p : Nat} {s : State} (h_s : Keeps σ s) :
    Keeps σ (putFree m i p s) := by
  unfold putFree
  repeat' first
    | with_reducible assumption
    | intro _
    | with_reducible refine stackPut_keeps ?_

theorem freePages_keeps {σ : State} {m : Nat} {ps : List Nat} {s : State} (h_s : Keeps σ s) :
    Keeps σ (freePages m ps s) := by
  unfold freePages
  repeat' first
    | with_reducible assumption
    | intro _
    | extract_lets
    | with_reducible refine forEach_keeps ?_ ?_
    | with_reducible refine setFreeList_keeps ?_
    | with_reducible refine putFree_keeps ?_
    | with_reducible refine wr_keeps ?_

theorem poolEnable_keeps {σ : State} {m : Nat} {s : State} (h_s : Keeps σ s) :
    Keeps σ (poolEnable m s) := by
  unfold poolEnable
  repeat' first
    | with_reducible assumption
    | intro _
    | with_reducible refine keeps_ite ?_ ?_
    | with_reducible refine raise_keeps ?_
    | with_reducible refine freePages_keeps ?_
    | with_reducible refine setFreeList_keeps ?_
    | with_reducible refine wr_keeps ?_
    | split

theorem execPoolEnable_keeps {σ : State} {m : Nat} {s : State} (h_s : Keeps σ s) :
    ∃ τ, execPoolEnable m s = .next τ ∧ Keeps σ τ := by
  refine ⟨_, rfl, ?_⟩
  repeat' first
    | with_reducible assumption
    | intro _
    | with_reducible refine poolEnable_keeps ?_

theorem disablePool_keeps {σ : State} {m : Nat} {s : State} (h_s : Keeps σ s) :
    Keeps σ (disablePool m s) := by
  unfold disablePool
  repeat' first
    | with_reducible assumption
    | intro _
    | with_reducible refine setFreeList_keeps ?_
    | with_reducible refine wr_keeps ?_

theorem poolDisable_keeps {σ : State} {m : Nat} {s : State} (h_s : Keeps σ s) :
    Keeps σ (poolDisable m s) := by
  unfold poolDisable
  repeat' first
    | with_reducible assumption
    | intro _
    | with_reducible refine keeps_ite ?_ ?_
    | with_reducible refine raise_keeps ?_
    | with_reducible refine disablePool_keeps ?_
    | split

theorem execPoolDisable_keeps {σ : State} {m : Nat} {s : State} (h_s : Keeps σ s) :
    ∃ τ, execPoolDisable m s = .next τ ∧ Keeps σ τ := by
  refine ⟨_, rfl, ?_⟩
  repeat' first
    | with_reducible assumption
    | intro _
    | with_reducible refine poolDisable_keeps ?_

theorem posLimitWrite_keeps {σ : State} {m : Nat} {v : Word} {s : State} (h_s : Keeps σ s) :
    Keeps σ (posLimitWrite m v s) := by
  unfold posLimitWrite
  repeat' first
    | with_reducible assumption
    | intro _
    | extract_lets
    | with_reducible refine keeps_ite ?_ ?_
    | with_reducible refine raise_keeps ?_
    | with_reducible refine wr_keeps ?_
    | split

theorem execPosLimitWrite_keeps {σ : State} {m : Nat} {v : Word} {s : State} (h_s : Keeps σ s) :
    ∃ τ, execPosLimitWrite m v s = .next τ ∧ Keeps σ τ := by
  refine ⟨_, rfl, ?_⟩
  repeat' first
    | with_reducible assumption
    | intro _
    | with_reducible refine posLimitWrite_keeps ?_

theorem setPage_keeps {σ : State} {q : Nat} {e : PageEntry} {s : State} (h_s : Keeps σ s) :
    Keeps σ (setPage q e s) := by
  unfold setPage
  repeat' first
    | with_reducible assumption
    | intro _
    | with_reducible refine stackPut_keeps ?_
    | with_reducible refine modSeqSlot_keeps ?_
    | fail_if_no_progress with_reducible refine keeps_upd ?_ rfl rfl rfl rfl rfl rfl rfl rfl rfl rfl rfl rfl rfl rfl rfl rfl rfl rfl rfl rfl rfl

theorem setPages_keeps {σ : State} {q : Nat} {ps : List PageEntry} {s : State} (h_s : Keeps σ s) :
    Keeps σ (setPages q ps s) := by
  unfold setPages
  repeat' first
    | with_reducible assumption
    | intro _
    | with_reducible refine forEach_keeps ?_ ?_
    | with_reducible refine setPage_keeps ?_

theorem clearList_keeps {σ : State} {q : Nat} {ps : List PageEntry} {s : State} (h_s : Keeps σ s) :
    Keeps σ (clearList q ps s) := by
  unfold clearList
  repeat' first
    | with_reducible assumption
    | intro _
    | with_reducible refine forEach_keeps ?_ ?_
    | with_reducible refine stackPut_keeps ?_

theorem takePage_keeps {σ : State} {q p : Nat} {s t : State} (h : takePage q s = some (p, t)) (h_s : Keeps σ s) : Keeps σ t := by
  unfold takePage at h
  dsimp only at h
  split at h
  · cases h
  · cases h
    exact setSeqSlot_keeps (wr_keeps (wr_keeps (setFreeList_keeps h_s)))

theorem stackCopy_keeps {σ : State} {src : Nat} {dst : Nat} {n : Nat} {s : State} (h_s : Keeps σ s) :
    Keeps σ (stackCopy src dst n s) := by
  unfold stackCopy
  refine stackMem_keeps h_s fun hm => ?_
  have main : ∀ l : List (Nat × Byte), ∀ t : Table Byte, Memory.wf t = true → Memory.wf (l.foldl (fun t p =>
      if src ≤ p.1 ∧ p.1 < src + n then Table.set byte0 t (dst + (p.1 - src)) p.2 else t) t) = true := by
    intro l
    induction l with
    | nil => exact fun _ h => h
    | cons p l ih =>
      intro t h
      refine ih _ ?_
      dsimp only
      split
      · exact Table.wf_set _ _ _ _ h
      · exact h
  exact main _ _ (Table.wf_clear _ _ _ _ hm)

theorem stackZero_keeps {σ : State} {a : Nat} {n : Nat} {s : State} (h_s : Keeps σ s) :
    Keeps σ (stackZero a n s) := by
  unfold stackZero
  exact stackMem_keeps h_s fun hm => Table.wf_clear _ _ _ _ hm

theorem countPage_keeps {σ : State} {wrt : Bool} {m : Nat} {n : Nat} {s : State} (h_s : Keeps σ s) :
    Keeps σ (countPage wrt m n s) := by
  unfold countPage
  repeat' first
    | with_reducible assumption
    | intro _
    | with_reducible refine countSpan_keeps ?_

theorem copyPage_keeps {σ : State} {m : Nat} {src : Nat} {dst : Nat} {s : State} (h_s : Keeps σ s) :
    Keeps σ (copyPage m src dst s) := by
  unfold copyPage
  repeat' first
    | with_reducible assumption
    | intro _
    | with_reducible refine countPage_keeps ?_
    | with_reducible refine stackCopy_keeps ?_

theorem zeroPage_keeps {σ : State} {m : Nat} {n : Nat} {s : State} (h_s : Keeps σ s) :
    Keeps σ (zeroPage m n s) := by
  unfold zeroPage
  repeat' first
    | with_reducible assumption
    | intro _
    | with_reducible refine countPage_keeps ?_
    | with_reducible refine stackZero_keeps ?_

theorem clearPages_keeps {σ : State} {m : Nat} {handle : Nat} {ps : List PageEntry} {s : State} (h_s : Keeps σ s) :
    Keeps σ (clearPages m handle ps s) := by
  unfold clearPages
  repeat' first
    | with_reducible assumption
    | intro _
    | fail_if_no_progress with_reducible refine keeps_upd ?_ rfl rfl rfl rfl rfl rfl rfl rfl rfl rfl rfl rfl rfl rfl rfl rfl rfl rfl rfl rfl rfl

theorem returnResv_keeps {σ : State} {m : Nat} {n : Nat} {s : State} (h_s : Keeps σ s) :
    Keeps σ (returnResv m n s) := by
  unfold returnResv
  repeat' first
    | with_reducible assumption
    | intro _
    | with_reducible refine wr_keeps ?_

theorem putSideHead_keeps {σ : State} {m : Nat} {p : Nat} {l : Nat} {f : Option PageFmt} {s : State} (h_s : Keeps σ s) :
    Keeps σ (putSideHead m p l f s) := by
  unfold putSideHead
  repeat' first
    | with_reducible assumption
    | intro _
    | extract_lets
    | with_reducible refine stackPut_keeps ?_
    | with_reducible refine forEach_keeps ?_ ?_
    | fail_if_no_progress with_reducible refine keeps_upd ?_ rfl rfl rfl rfl rfl rfl rfl rfl rfl rfl rfl rfl rfl rfl rfl rfl rfl rfl rfl rfl rfl
    | split
    | dsimp +zetaDelta only

theorem openPages_keeps {σ : State} {q : Nat} {spans : List Nat} {s : State} (h_s : Keeps σ s) :
    Keeps σ (openPages q spans s) := by
  unfold openPages
  repeat' first
    | with_reducible assumption
    | intro _
    | extract_lets
    | with_reducible refine forEach_keeps ?_ ?_
    | with_reducible refine putSideHead_keeps ?_
    | fail_if_no_progress with_reducible refine keeps_upd ?_ rfl rfl rfl rfl rfl rfl rfl rfl rfl rfl rfl rfl rfl rfl rfl rfl rfl rfl rfl rfl rfl
    | split
    | dsimp +zetaDelta only

theorem releaseSeq_keeps {σ : State} {q : Nat} {kept : Bool} {s : State} (h_s : Keeps σ s) :
    Keeps σ (releaseSeq q kept s) := by
  unfold releaseSeq
  repeat' first
    | with_reducible assumption
    | intro _
    | extract_lets
    | with_reducible refine keeps_ite ?_ ?_
    | with_reducible refine clearPages_keeps ?_
    | with_reducible refine returnResv_keeps ?_
    | with_reducible refine setSeqSlot_keeps ?_
    | with_reducible refine forgetKv_keeps ?_
    | with_reducible refine clearList_keeps ?_
    | fail_if_no_progress with_reducible refine keeps_upd ?_ rfl rfl rfl rfl rfl rfl rfl rfl rfl rfl rfl rfl rfl rfl rfl rfl rfl rfl rfl rfl rfl
    | split

theorem ageReleases_keeps {σ : State} {s : State} (h_s : Keeps σ s) :
    Keeps σ (ageReleases s) := by
  unfold ageReleases
  repeat' first
    | with_reducible assumption
    | intro _
    | extract_lets
    | with_reducible refine forEach_keeps ?_ ?_
    | with_reducible refine setSeqSlot_keeps ?_
    | fail_if_no_progress with_reducible refine keeps_upd ?_ rfl rfl rfl rfl rfl rfl rfl rfl rfl rfl rfl rfl rfl rfl rfl rfl rfl rfl rfl rfl rfl
    | split
    | dsimp +zetaDelta only

theorem releaseFlit_keeps {σ : State} {c : Nat} {q : Nat} {env : MemEnv} {s : State} (h_s : Keeps σ s) :
    Keeps σ (releaseFlit c q env s) := by
  unfold releaseFlit
  repeat' first
    | with_reducible assumption
    | intro _
    | extract_lets
    | with_reducible refine keeps_ite ?_ ?_
    | with_reducible refine reads_keeps ?_
    | with_reducible refine forEach_keeps ?_ ?_
    | with_reducible refine writeGranule_keeps ?_
    | fail_if_no_progress with_reducible refine keeps_upd ?_ rfl rfl rfl rfl rfl rfl rfl rfl rfl rfl rfl rfl rfl rfl rfl rfl rfl rfl rfl rfl rfl
    | split

theorem execReleaseFlit_keeps {σ : State} {c : Nat} {x : ReleaseAsk} {s : State} (h_s : Keeps σ s) :
    ∃ τ, execReleaseFlit c x s = .next τ ∧ Keeps σ τ := by
  refine ⟨_, rfl, ?_⟩
  repeat' first
    | with_reducible assumption
    | intro _
    | with_reducible refine releaseFlit_keeps ?_

end Sys2Proof.Machine
end

