-- ==== Sys2Proof/Laws/KeepRings.lean ====
section
/-!
SUPPORT. What `Keeps` says, for every function of Machine/Rings.lean that changes the state.
-/
set_option Elab.async false
namespace Sys2Proof.Machine
open Sys2Proof

theorem writeEntry_keeps {σ : State} {r : Nat} {e : OutEntry} {s : State} (h_s : Keeps σ s) :
    Keeps σ (writeEntry r e s) := by
  unfold writeEntry
  repeat' first
    | with_reducible assumption
    | intro _
    | extract_lets
    | with_reducible refine keeps_ite ?_ ?_
    | with_reducible refine setOutRing_keeps ?_
    | with_reducible refine sendWr_keeps ?_
    | with_reducible refine sendWrPart_keeps ?_
    | with_reducible refine when_keeps ?_ ?_
    | with_reducible refine interrupt_keeps ?_
    | fail_if_no_progress with_reducible refine keeps_upd ?_ rfl rfl rfl rfl rfl rfl rfl rfl rfl rfl rfl rfl rfl rfl rfl rfl rfl rfl rfl rfl rfl
    | split

theorem drainRing_keeps {σ : State} {x0 : Nat} {x1 : Nat} {x2 : State} (h_x2 : Keeps σ x2) :
    Keeps σ (drainRing x0 x1 x2) := by
  induction x0 generalizing x1 x2 with
  | zero => (unfold drainRing; repeat' first
      | with_reducible assumption
      | intro _
      | extract_lets
      | with_reducible refine keeps_ite ?_ ?_
      | with_reducible refine writeEntry_keeps ?_
      | with_reducible refine setOutRing_keeps ?_
      | fail_if_no_progress with_reducible refine keeps_upd ?_ rfl rfl rfl rfl rfl rfl rfl rfl rfl rfl rfl rfl rfl rfl rfl rfl rfl rfl rfl rfl rfl
      | split
      | dsimp +zetaDelta only)
  | succ _ ih => (unfold drainRing; repeat' first
      | with_reducible assumption
      | with_reducible apply ih
      | (injections; subst_vars; with_reducible apply ih)
      | intro _
      | extract_lets
      | with_reducible refine keeps_ite ?_ ?_
      | with_reducible refine writeEntry_keeps ?_
      | with_reducible refine setOutRing_keeps ?_
      | fail_if_no_progress with_reducible refine keeps_upd ?_ rfl rfl rfl rfl rfl rfl rfl rfl rfl rfl rfl rfl rfl rfl rfl rfl rfl rfl rfl rfl rfl
      | split
      | dsimp +zetaDelta only)

theorem drain_keeps {σ : State} {r : Nat} {s : State} (h_s : Keeps σ s) :
    Keeps σ (drain r s) := by
  unfold drain
  repeat' first
    | with_reducible assumption
    | intro _
    | with_reducible refine drainRing_keeps ?_

theorem putEntry_keeps {σ : State} {r : Nat} {e : OutEntry} {s : State} (h_s : Keeps σ s) :
    Keeps σ (putEntry r e s) := by
  unfold putEntry
  repeat' first
    | with_reducible assumption
    | intro _
    | with_reducible refine drain_keeps ?_
    | with_reducible refine setOutRing_keeps ?_
    | fail_if_no_progress with_reducible refine keeps_upd ?_ rfl rfl rfl rfl rfl rfl rfl rfl rfl rfl rfl rfl rfl rfl rfl rfl rfl rfl rfl rfl rfl

theorem putDone_keeps {σ : State} {r : Nat} {model : Nat} {reqId : Nat} {status : Nat} {s : State} (h_s : Keeps σ s) :
    Keeps σ (putDone r model reqId status s) := by
  unfold putDone
  repeat' first
    | with_reducible assumption
    | intro _
    | with_reducible refine putEntry_keeps ?_

theorem putCmdDone_keeps {σ : State} {r : Nat} {model : Nat} {reqId : Nat} {status : Nat} {data : Nat} {s : State} (h_s : Keeps σ s) :
    Keeps σ (putCmdDone r model reqId status data s) := by
  unfold putCmdDone
  repeat' first
    | with_reducible assumption
    | intro _
    | with_reducible refine putEntry_keeps ?_

theorem putError_keeps {σ : State} {r : Nat} {model : Nat} {reqId : Nat} {code : Nat} {s : State} (h_s : Keeps σ s) :
    Keeps σ (putError r model reqId code s) := by
  unfold putError
  repeat' first
    | with_reducible assumption
    | intro _
    | with_reducible refine putEntry_keeps ?_
    | with_reducible refine raise_keeps ?_

theorem putDecision_keeps {σ : State} {r : Nat} {model : Nat} {reqId : Nat} {code : Nat} {reason : Nat} {s : State} (h_s : Keeps σ s) :
    Keeps σ (putDecision r model reqId code reason s) := by
  unfold putDecision
  repeat' first
    | with_reducible assumption
    | intro _
    | with_reducible refine putEntry_keeps ?_

theorem reserveEntry_keeps {σ : State} {r : Nat} {s : State} (h_s : Keeps σ s) :
    Keeps σ (reserveEntry r s) := by
  unfold reserveEntry
  repeat' first
    | with_reducible assumption
    | intro _
    | with_reducible refine setOutRing_keeps ?_
    | fail_if_no_progress with_reducible refine keeps_upd ?_ rfl rfl rfl rfl rfl rfl rfl rfl rfl rfl rfl rfl rfl rfl rfl rfl rfl rfl rfl rfl rfl

theorem unreserve_keeps {σ : State} {r : Nat} {s : State} (h_s : Keeps σ s) :
    Keeps σ (unreserve r s) := by
  unfold unreserve
  repeat' first
    | with_reducible assumption
    | intro _
    | with_reducible refine setOutRing_keeps ?_
    | fail_if_no_progress with_reducible refine keeps_upd ?_ rfl rfl rfl rfl rfl rfl rfl rfl rfl rfl rfl rfl rfl rfl rfl rfl rfl rfl rfl rfl rfl

theorem modLedger_keeps {σ : State} {i : Nat} {f : LedgerEntry → LedgerEntry} {s : State} (h_s : Keeps σ s) :
    Keeps σ (modLedger i f s) := by
  unfold modLedger
  repeat' first
    | with_reducible assumption
    | intro _
    | with_reducible refine keeps_ite ?_ ?_
    | fail_if_no_progress with_reducible refine keeps_upd ?_ rfl rfl rfl rfl rfl rfl rfl rfl rfl rfl rfl rfl rfl rfl rfl rfl rfl rfl rfl rfl rfl
    | split

theorem showLedger_keeps {σ : State} {s : State} (h_s : Keeps σ s) :
    Keeps σ (showLedger s) := by
  unfold showLedger
  repeat' first
    | with_reducible assumption
    | intro _
    | with_reducible refine wr_keeps ?_

theorem freeLedger_keeps {σ : State} {i : Nat} {s : State} (h_s : Keeps σ s) :
    Keeps σ (freeLedger i s) := by
  unfold freeLedger
  repeat' first
    | with_reducible assumption
    | intro _
    | with_reducible refine keeps_ite ?_ ?_
    | with_reducible refine showLedger_keeps ?_
    | fail_if_no_progress with_reducible refine keeps_upd ?_ rfl rfl rfl rfl rfl rfl rfl rfl rfl rfl rfl rfl rfl rfl rfl rfl rfl rfl rfl rfl rfl
    | split

theorem abandonLedger_keeps {σ : State} {i : Nat} {s : State} (h_s : Keeps σ s) :
    Keeps σ (abandonLedger i s) := by
  unfold abandonLedger
  repeat' first
    | with_reducible assumption
    | intro _
    | with_reducible refine keeps_ite ?_ ?_
    | with_reducible refine showLedger_keeps ?_
    | fail_if_no_progress with_reducible refine keeps_upd ?_ rfl rfl rfl rfl rfl rfl rfl rfl rfl rfl rfl rfl rfl rfl rfl rfl rfl rfl rfl rfl rfl
    | split

theorem settleLedger_keeps {σ : State} {i : Nat} {s : State} (h_s : Keeps σ s) :
    Keeps σ (settleLedger i s) := by
  unfold settleLedger
  repeat' first
    | with_reducible assumption
    | intro _
    | with_reducible refine keeps_ite ?_ ?_
    | with_reducible refine freeLedger_keeps ?_
    | fail_if_no_progress with_reducible refine keeps_upd ?_ rfl rfl rfl rfl rfl rfl rfl rfl rfl rfl rfl rfl rfl rfl rfl rfl rfl rfl rfl rfl rfl
    | split

theorem releaseHeld_keeps {σ : State} {r : Nat} {e : OutEntry} {s : State} (h_s : Keeps σ s) :
    Keeps σ (releaseHeld r e s) := by
  unfold releaseHeld
  repeat' first
    | with_reducible assumption
    | intro _
    | with_reducible refine writeEntry_keeps ?_
    | with_reducible refine setOutRing_keeps ?_
    | fail_if_no_progress with_reducible refine keeps_upd ?_ rfl rfl rfl rfl rfl rfl rfl rfl rfl rfl rfl rfl rfl rfl rfl rfl rfl rfl rfl rfl rfl

theorem flushHeldList_keeps {σ : State} {r : Nat} {x0 : List OutEntry} {x1 : State} (h_x1 : Keeps σ x1) :
    Keeps σ (flushHeldList r x0 x1) := by
  induction x0 generalizing r x1 with
  | nil => (unfold flushHeldList; repeat' first
      | with_reducible assumption
      | intro _
      | with_reducible refine keeps_ite ?_ ?_
      | with_reducible refine releaseHeld_keeps ?_
      | split)
  | cons _ _ ih => (unfold flushHeldList; repeat' first
      | with_reducible assumption
      | with_reducible apply ih
      | (injections; subst_vars; with_reducible apply ih)
      | intro _
      | with_reducible refine keeps_ite ?_ ?_
      | with_reducible refine releaseHeld_keeps ?_
      | split)

theorem flushHeld_keeps {σ : State} {r : Nat} {s : State} (h_s : Keeps σ s) :
    Keeps σ (flushHeld r s) := by
  unfold flushHeld
  repeat' first
    | with_reducible assumption
    | intro _
    | with_reducible refine keeps_ite ?_ ?_
    | with_reducible refine drain_keeps ?_
    | with_reducible refine flushHeldList_keeps ?_
    | split

theorem flushRings_keeps {σ : State} {s : State} (h_s : Keeps σ s) :
    Keeps σ (flushRings s) := by
  unfold flushRings
  repeat' first
    | with_reducible assumption
    | intro _
    | with_reducible refine forEach_keeps ?_ ?_
    | with_reducible refine flushHeld_keeps ?_

theorem putTokens_keeps {σ : State} {r : Nat} {e : OutEntry} {s : State} (h_s : Keeps σ s) :
    Keeps σ (putTokens r e s) := by
  unfold putTokens
  repeat' first
    | with_reducible assumption
    | intro _
    | with_reducible refine flushHeld_keeps ?_
    | with_reducible refine setOutRing_keeps ?_
    | fail_if_no_progress with_reducible refine keeps_upd ?_ rfl rfl rfl rfl rfl rfl rfl rfl rfl rfl rfl rfl rfl rfl rfl rfl rfl rfl rfl rfl rfl

theorem deliverOne_keeps {σ : State} {u : Undelivered} {s : State} (h_s : Keeps σ s) :
    Keeps σ (deliverOne u s) := by
  unfold deliverOne
  repeat' first
    | with_reducible assumption
    | intro _
    | extract_lets
    | with_reducible refine keeps_ite ?_ ?_
    | with_reducible refine bumpBy_keeps ?_
    | with_reducible refine settleLedger_keeps ?_
    | fail_if_no_progress with_reducible refine keeps_upd ?_ rfl rfl rfl rfl rfl rfl rfl rfl rfl rfl rfl rfl rfl rfl rfl rfl rfl rfl rfl rfl rfl
    | split

theorem deliver_keeps {σ : State} {m : AckMark} {s : State} (h_s : Keeps σ s) :
    Keeps σ (deliver m s) := by
  unfold deliver
  repeat' first
    | with_reducible assumption
    | intro _
    | extract_lets
    | with_reducible refine setOutRing_keeps ?_
    | with_reducible refine forEach_keeps ?_ ?_
    | with_reducible refine deliverOne_keeps ?_
    | fail_if_no_progress with_reducible refine keeps_upd ?_ rfl rfl rfl rfl rfl rfl rfl rfl rfl rfl rfl rfl rfl rfl rfl rfl rfl rfl rfl rfl rfl

theorem outputRoomWrite_keeps {σ : State} {r : Nat} {cons : Nat} {s : State} (h_s : Keeps σ s) :
    Keeps σ (outputRoomWrite r cons s) := by
  unfold outputRoomWrite
  repeat' first
    | with_reducible assumption
    | intro _
    | with_reducible refine keeps_ite ?_ ?_
    | with_reducible refine flushHeld_keeps ?_
    | with_reducible refine setOutRing_keeps ?_
    | fail_if_no_progress with_reducible refine keeps_upd ?_ rfl rfl rfl rfl rfl rfl rfl rfl rfl rfl rfl rfl rfl rfl rfl rfl rfl rfl rfl rfl rfl
    | split

theorem execOutputRoomWrite_keeps {σ : State} {r : Nat} {cons : Nat} {s : State} (h_s : Keeps σ s) :
    ∃ τ, execOutputRoomWrite r cons s = .next τ ∧ Keeps σ τ := by
  refine ⟨_, rfl, ?_⟩
  repeat' first
    | with_reducible assumption
    | intro _
    | with_reducible refine outputRoomWrite_keeps ?_

end Sys2Proof.Machine
end

