-- ==== Sys2Proof/Laws/KeepRequests.lean ====
section
/-!
SUPPORT. What `Keeps` says, for every function of Machine/Requests.lean that changes the state.
-/
set_option Elab.async false
namespace Sys2Proof.Machine
open Sys2Proof

theorem modRequest_keeps {σ : State} {id : Nat} {f : Request → Request} {s : State} (h_s : Keeps σ s) :
    Keeps σ (modRequest id f s) := by
  unfold modRequest
  repeat' first
    | with_reducible assumption
    | intro _
    | with_reducible refine keeps_ite ?_ ?_
    | fail_if_no_progress with_reducible refine keeps_upd ?_ rfl rfl rfl rfl rfl rfl rfl rfl rfl rfl rfl rfl rfl rfl rfl rfl rfl rfl rfl rfl rfl
    | split

theorem modPfx_keeps {σ : State} {h : Nat} {f : PfxEntry → PfxEntry} {s : State} (h_s : Keeps σ s) :
    Keeps σ (modPfx h f s) := by
  unfold modPfx
  repeat' first
    | with_reducible assumption
    | intro _
    | with_reducible refine keeps_ite ?_ ?_
    | fail_if_no_progress with_reducible refine keeps_upd ?_ rfl rfl rfl rfl rfl rfl rfl rfl rfl rfl rfl rfl rfl rfl rfl rfl rfl rfl rfl rfl rfl
    | split

theorem dropPfx_keeps {σ : State} {h : Nat} {s : State} (h_s : Keeps σ s) :
    Keeps σ (dropPfx h s) := by
  unfold dropPfx
  repeat' first
    | with_reducible assumption
    | intro _
    | fail_if_no_progress with_reducible refine keeps_upd ?_ rfl rfl rfl rfl rfl rfl rfl rfl rfl rfl rfl rfl rfl rfl rfl rfl rfl rfl rfl rfl rfl

theorem finishPfx_keeps {σ : State} {h : Nat} {s : State} (h_s : Keeps σ s) :
    Keeps σ (finishPfx h s) := by
  unfold finishPfx
  repeat' first
    | with_reducible assumption
    | intro _
    | with_reducible refine forEach_keeps ?_ ?_
    | with_reducible refine putCmdDone_keeps ?_
    | with_reducible refine dropPfx_keeps ?_
    | fail_if_no_progress with_reducible refine keeps_upd ?_ rfl rfl rfl rfl rfl rfl rfl rfl rfl rfl rfl rfl rfl rfl rfl rfl rfl rfl rfl rfl rfl
    | split

theorem retirePfx_keeps {σ : State} {h : Nat} {s : State} (h_s : Keeps σ s) :
    Keeps σ (retirePfx h s) := by
  unfold retirePfx
  repeat' first
    | with_reducible assumption
    | intro _
    | with_reducible refine keeps_ite ?_ ?_
    | with_reducible refine finishPfx_keeps ?_
    | with_reducible refine modPfx_keeps ?_
    | with_reducible refine clearPages_keeps ?_
    | fail_if_no_progress with_reducible refine keeps_upd ?_ rfl rfl rfl rfl rfl rfl rfl rfl rfl rfl rfl rfl rfl rfl rfl rfl rfl rfl rfl rfl rfl
    | split

theorem withdrawPfx_keeps {σ : State} {h : Nat} {s : State} (h_s : Keeps σ s) :
    Keeps σ (withdrawPfx h s) := by
  unfold withdrawPfx
  repeat' first
    | with_reducible assumption
    | intro _
    | with_reducible refine retirePfx_keeps ?_
    | with_reducible refine modPfx_keeps ?_
    | fail_if_no_progress with_reducible refine keeps_upd ?_ rfl rfl rfl rfl rfl rfl rfl rfl rfl rfl rfl rfl rfl rfl rfl rfl rfl rfl rfl rfl rfl

theorem unusePfx_keeps {σ : State} {h : Nat} {s : State} (h_s : Keeps σ s) :
    Keeps σ (unusePfx h s) := by
  unfold unusePfx
  repeat' first
    | with_reducible assumption
    | intro _
    | with_reducible refine retirePfx_keeps ?_
    | with_reducible refine modPfx_keeps ?_
    | fail_if_no_progress with_reducible refine keeps_upd ?_ rfl rfl rfl rfl rfl rfl rfl rfl rfl rfl rfl rfl rfl rfl rfl rfl rfl rfl rfl rfl rfl

theorem pageZeroiseDone_keeps {σ : State} {m : Nat} {p : Nat} {s : State} (h_s : Keeps σ s) :
    Keeps σ (pageZeroiseDone m p s) := by
  unfold pageZeroiseDone
  repeat' first
    | with_reducible assumption
    | intro _
    | extract_lets
    | with_reducible refine keeps_ite ?_ ?_
    | with_reducible refine zeroPage_keeps ?_
    | with_reducible refine when_keeps ?_ ?_
    | with_reducible refine freePages_keeps ?_
    | with_reducible refine finishPfx_keeps ?_
    | fail_if_no_progress with_reducible refine keeps_upd ?_ rfl rfl rfl rfl rfl rfl rfl rfl rfl rfl rfl rfl rfl rfl rfl rfl rfl rfl rfl rfl rfl
    | split
    | dsimp +zetaDelta only

theorem execPageZeroiseDone_keeps {σ : State} {m : Nat} {p : Nat} {s : State} (h_s : Keeps σ s) :
    ∃ τ, execPageZeroiseDone m p s = .next τ ∧ Keeps σ τ := by
  refine ⟨_, rfl, ?_⟩
  repeat' first
    | with_reducible assumption
    | intro _
    | with_reducible refine pageZeroiseDone_keeps ?_

theorem endEntry_keeps {σ : State} {q : Request} {status : Nat} {s : State} (h_s : Keeps σ s) :
    Keeps σ (endEntry q status s) := by
  unfold endEntry
  repeat' first
    | with_reducible assumption
    | intro _
    | with_reducible refine keeps_ite ?_ ?_
    | with_reducible refine putCmdDone_keeps ?_
    | with_reducible refine putDone_keeps ?_
    | split

theorem endRequest_keeps {σ : State} {id : Nat} {status : Nat} {s : State} (h_s : Keeps σ s) :
    Keeps σ (endRequest id status s) := by
  unfold endRequest
  repeat' first
    | with_reducible assumption
    | intro _
    | extract_lets
    | with_reducible refine endEntry_keeps ?_
    | with_reducible refine when_keeps ?_ ?_
    | with_reducible refine raise_keeps ?_
    | with_reducible refine bump_keeps ?_
    | with_reducible refine releaseSeq_keeps ?_
    | with_reducible refine unusePfx_keeps ?_
    | with_reducible refine dropPfx_keeps ?_
    | with_reducible refine forEach_keeps ?_ ?_
    | with_reducible refine putCmdDone_keeps ?_
    | fail_if_no_progress with_reducible refine keeps_upd ?_ rfl rfl rfl rfl rfl rfl rfl rfl rfl rfl rfl rfl rfl rfl rfl rfl rfl rfl rfl rfl rfl
    | split
    | dsimp +zetaDelta only

theorem endWhenQuiet_keeps {σ : State} {id : Nat} {status : Nat} {s : State} (h_s : Keeps σ s) :
    Keeps σ (endWhenQuiet id status s) := by
  unfold endWhenQuiet
  repeat' first
    | with_reducible assumption
    | intro _
    | with_reducible refine keeps_ite ?_ ?_
    | with_reducible refine modRequest_keeps ?_
    | with_reducible refine endRequest_keeps ?_
    | fail_if_no_progress with_reducible refine keeps_upd ?_ rfl rfl rfl rfl rfl rfl rfl rfl rfl rfl rfl rfl rfl rfl rfl rfl rfl rfl rfl rfl rfl
    | split

theorem refuseHandle_keeps {σ : State} {ring : Nat} {model : Nat} {reqId : Nat} {isPrefix : Bool} {s : State} (h_s : Keeps σ s) :
    Keeps σ (refuseHandle ring model reqId isPrefix s) := by
  unfold refuseHandle
  repeat' first
    | with_reducible assumption
    | intro _
    | with_reducible refine keeps_ite ?_ ?_
    | with_reducible refine putCmdDone_keeps ?_
    | with_reducible refine putDone_keeps ?_
    | split

theorem loseKvPage_keeps {σ : State} {m : Nat} {p : Nat} {s : State} (h_s : Keeps σ s) :
    Keeps σ (loseKvPage m p s) := by
  unfold loseKvPage
  repeat' first
    | with_reducible assumption
    | intro _
    | extract_lets
    | with_reducible refine forEach_keeps ?_ ?_
    | with_reducible refine withdrawPfx_keeps ?_
    | with_reducible refine endWhenQuiet_keeps ?_
    | with_reducible refine raise_keeps ?_
    | fail_if_no_progress with_reducible refine keeps_upd ?_ rfl rfl rfl rfl rfl rfl rfl rfl rfl rfl rfl rfl rfl rfl rfl rfl rfl rfl rfl rfl rfl

end Sys2Proof.Machine
end

