-- ==== Sys2Proof/Laws/KeepFatal.lean ====
section
/-!
SUPPORT. What `Keeps` says, for every function of Machine/Fatal.lean that changes the state.
-/
set_option Elab.async false
namespace Sys2Proof.Machine
open Sys2Proof

theorem dropAckWaits_keeps {σ : State} {s : State} (h_s : Keeps σ s) :
    Keeps σ (dropAckWaits s) := by
  unfold dropAckWaits
  repeat' first
    | with_reducible assumption
    | intro _
    | fail_if_no_progress with_reducible refine keeps_upd ?_ rfl rfl rfl rfl rfl rfl rfl rfl rfl rfl rfl rfl rfl rfl rfl rfl rfl rfl rfl rfl rfl

theorem endAll_keeps {σ : State} {status : Nat} {s : State} (h_s : Keeps σ s) :
    Keeps σ (endAll status s) := by
  unfold endAll
  repeat' first
    | with_reducible assumption
    | intro _
    | with_reducible refine forEach_keeps ?_ ?_
    | with_reducible refine endRequest_keeps ?_

theorem endJob_keeps {σ : State} {s : State} (h_s : Keeps σ s) :
    Keeps σ (endJob s) := by
  unfold endJob
  repeat' first
    | with_reducible assumption
    | intro _
    | extract_lets
    | with_reducible refine forEach_keeps ?_ ?_
    | with_reducible refine modCell_keeps ?_
    | with_reducible refine wr_keeps ?_
    | fail_if_no_progress with_reducible refine keeps_upd ?_ rfl rfl rfl rfl rfl rfl rfl rfl rfl rfl rfl rfl rfl rfl rfl rfl rfl rfl rfl rfl rfl

theorem fatalWith_keeps {σ : State} {code : Nat} {detail : Nat} {src : Nat} {after : Durable} {s : State} (h_s : Keeps σ s) :
    Keeps σ (fatalWith code detail src after s) := by
  unfold fatalWith
  repeat' first
    | with_reducible assumption
    | intro _
    | extract_lets
    | with_reducible refine keeps_ite ?_ ?_
    | with_reducible refine endJob_keeps ?_
    | with_reducible refine holdFw_keeps ?_
    | with_reducible refine sendEveryPort_keeps ?_
    | with_reducible refine wr_keeps ?_
    | with_reducible refine when_keeps ?_ ?_
    | with_reducible refine pldm_keeps ?_
    | with_reducible refine raise_keeps ?_
    | with_reducible refine journal_keeps ?_
    | with_reducible refine endAll_keeps ?_
    | with_reducible refine flushRings_keeps ?_
    | with_reducible refine dropAckWaits_keeps ?_
    | fail_if_no_progress with_reducible refine keeps_upd ?_ rfl rfl rfl rfl rfl rfl rfl rfl rfl rfl rfl rfl rfl rfl rfl rfl rfl rfl rfl rfl rfl
    | split

theorem fatal_keeps {σ : State} {code : Nat} {detail : Nat} {s : State} (h_s : Keeps σ s) :
    Keeps σ (fatal code detail s) := by
  unfold fatal
  repeat' first
    | with_reducible assumption
    | intro _
    | with_reducible refine fatalWith_keeps ?_

theorem execForceFatal_keeps {σ : State} {s : State} (h_s : Keeps σ s) :
    ∃ τ, execForceFatal s = .next τ ∧ Keeps σ τ := by
  refine ⟨_, rfl, ?_⟩
  repeat' first
    | with_reducible assumption
    | intro _
    | with_reducible refine fatal_keeps ?_

theorem execBrynodorWatchdog_keeps {σ : State} {s : State} (h_s : Keeps σ s) :
    ∃ τ, execBrynodorWatchdog s = .next τ ∧ Keeps σ τ := by
  refine ⟨_, rfl, ?_⟩
  repeat' first
    | with_reducible assumption
    | intro _
    | with_reducible refine fatal_keeps ?_

theorem stackLost_keeps {σ : State} {n : Nat} {s : State} (h_s : Keeps σ s) :
    Keeps σ (stackLost n s) := by
  unfold stackLost
  repeat' first
    | with_reducible assumption
    | intro _
    | with_reducible refine keeps_ite ?_ ?_
    | with_reducible refine fatal_keeps ?_
    | with_reducible refine wr_keeps ?_
    | split

theorem execStackLost_keeps {σ : State} {n : Nat} {s : State} (h_s : Keeps σ s) :
    ∃ τ, execStackLost n s = .next τ ∧ Keeps σ τ := by
  refine ⟨_, rfl, ?_⟩
  repeat' first
    | with_reducible assumption
    | intro _
    | with_reducible refine stackLost_keeps ?_

theorem oclDownTimeout_keeps {σ : State} {s : State} (h_s : Keeps σ s) :
    Keeps σ (oclDownTimeout s) := by
  unfold oclDownTimeout
  repeat' first
    | with_reducible assumption
    | intro _
    | with_reducible refine keeps_ite ?_ ?_
    | with_reducible refine fatal_keeps ?_
    | split

theorem execOclDownTimeout_keeps {σ : State} {s : State} (h_s : Keeps σ s) :
    ∃ τ, execOclDownTimeout s = .next τ ∧ Keeps σ τ := by
  refine ⟨_, rfl, ?_⟩
  repeat' first
    | with_reducible assumption
    | intro _
    | with_reducible refine oclDownTimeout_keeps ?_

theorem audit_keeps {σ : State} {r : Nat} {port : Nat} {w : Word} {s : State} (h_s : Keeps σ s) :
    Keeps σ (audit r port w s) := by
  unfold audit
  repeat' first
    | with_reducible assumption
    | intro _
    | extract_lets
    | with_reducible refine keeps_ite ?_ ?_
    | with_reducible refine fatal_keeps ?_
    | split

theorem execAudit_keeps {σ : State} {r : Nat} {port : Nat} {w : Word} {s : State} (h_s : Keeps σ s) :
    ∃ τ, execAudit r port w s = .next τ ∧ Keeps σ τ := by
  refine ⟨_, rfl, ?_⟩
  repeat' first
    | with_reducible assumption
    | intro _
    | with_reducible refine audit_keeps ?_

end Sys2Proof.Machine
end

