-- ==== Sys2Proof/Laws/KeepKv.lean ====
section
/-!
SUPPORT. What `Keeps` says, for every function of Machine/Kv.lean that changes the state.
-/
set_option Elab.async false
namespace Sys2Proof.Machine
open Sys2Proof

theorem kvRange_keeps {σ : State} {r : StackReq} {s : State} (h_s : Keeps σ s) :
    Keeps σ (kvRange r s) := by
  unfold kvRange
  repeat' first
    | with_reducible assumption
    | intro _
    | with_reducible refine report_keeps ?_
    | with_reducible refine raise_keeps ?_

theorem kvMiss_keeps {σ : State} {r : StackReq} {s : State} (h_s : Keeps σ s) :
    Keeps σ (kvMiss r s) := by
  unfold kvMiss
  repeat' first
    | with_reducible assumption
    | intro _
    | with_reducible refine report_keeps ?_
    | with_reducible refine raise_keeps ?_

theorem chargeStack_keeps {σ : State} {r : StackReq} {n : Nat} {s : State} (h_s : Keeps σ s) :
    Keeps σ (chargeStack r n s) := by
  unfold chargeStack
  repeat' first
    | with_reducible assumption
    | intro _
    | with_reducible refine charge_keeps ?_
    | with_reducible refine chargeEnergy_keeps ?_

theorem captureLoss_keeps {σ : State} {n : Nat} {m : Nat} {p : Nat} {seq : Option Nat} {s : State} (h_s : Keeps σ s) :
    Keeps σ (captureLoss n m p seq s) := by
  unfold captureLoss
  repeat' first
    | with_reducible assumption
    | intro _
    | with_reducible refine keeps_ite ?_ ?_
    | with_reducible refine wr_keeps ?_
    | with_reducible refine wrB_keeps ?_
    | split

theorem losePage_keeps {σ : State} {n : Nat} {m : Nat} {p : Nat} {seq : Option Nat} {s : State} (h_s : Keeps σ s) :
    Keeps σ (losePage n m p seq s) := by
  unfold losePage
  repeat' first
    | with_reducible assumption
    | intro _
    | with_reducible refine loseKvPage_keeps ?_
    | with_reducible refine captureLoss_keeps ?_

theorem askPage_keeps {σ : State} {r : PageReq} {s : State} (h_s : Keeps σ s) :
    Keeps σ (askPage r s) := by
  unfold askPage
  repeat' first
    | with_reducible assumption
    | intro _
    | with_reducible refine keeps_ite ?_ ?_
    | with_reducible refine sendSpan_keeps ?_
    | fail_if_no_progress with_reducible refine keeps_upd ?_ rfl rfl rfl rfl rfl rfl rfl rfl rfl rfl rfl rfl rfl rfl rfl rfl rfl rfl rfl rfl rfl
    | split

theorem badPage_keeps {σ : State} {n : Nat} {m : Nat} {p : Nat} {l : Nat} {seq : Option Nat} {s : State} (h_s : Keeps σ s) :
    Keeps σ (badPage n m p l seq s) := by
  unfold badPage
  repeat' first
    | with_reducible assumption
    | intro _
    | with_reducible refine keeps_ite ?_ ?_
    | with_reducible refine askPage_keeps ?_
    | with_reducible refine losePage_keeps ?_
    | fail_if_no_progress with_reducible refine keeps_upd ?_ rfl rfl rfl rfl rfl rfl rfl rfl rfl rfl rfl rfl rfl rfl rfl rfl rfl rfl rfl rfl rfl
    | split

theorem stackUe_keeps {σ : State} {c : Nat} {seq : Option Nat} {a : Nat} {s : State} (h_s : Keeps σ s) :
    Keeps σ (stackUe c seq a s) := by
  unfold stackUe
  repeat' first
    | with_reducible assumption
    | intro _
    | extract_lets
    | with_reducible refine keeps_ite ?_ ?_
    | with_reducible refine raise_keeps ?_
    | with_reducible refine bump_keeps ?_
    | with_reducible refine wr_keeps ?_
    | with_reducible refine journal_keeps ?_
    | with_reducible refine sendReport_keeps ?_
    | with_reducible refine badPage_keeps ?_
    | fail_if_no_progress with_reducible refine keeps_upd ?_ rfl rfl rfl rfl rfl rfl rfl rfl rfl rfl rfl rfl rfl rfl rfl rfl rfl rfl rfl rfl rfl
    | split
    | dsimp +zetaDelta only

theorem retryStack_keeps {σ : State} {env : StackEnv} {a : Nat} {s : State} (h_s : Keeps σ s) :
    Keeps σ (retryStack env a s) := by
  unfold retryStack
  repeat' first
    | with_reducible assumption
    | intro _
    | extract_lets
    | with_reducible refine when_keeps ?_ ?_
    | with_reducible refine raise_keeps ?_
    | with_reducible refine bumpBy_keeps ?_

theorem correctStack_keeps {σ : State} {a : Nat} {s : State} (h_s : Keeps σ s) :
    Keeps σ (correctStack a s) := by
  unfold correctStack
  repeat' first
    | with_reducible assumption
    | intro _
    | with_reducible refine raise_keeps ?_
    | with_reducible refine bump_keeps ?_

theorem stackMetOf_keeps {σ : State} {c : Nat} {seq : Option Nat} {p : Nat → Bool} {env : StackEnv} {s : State} (h_s : Keeps σ s) :
    Keeps σ (stackMetOf c seq p env s) := by
  unfold stackMetOf
  repeat' first
    | with_reducible assumption
    | intro _
    | extract_lets
    | with_reducible refine forEach_keeps ?_ ?_
    | with_reducible refine retryStack_keeps ?_
    | with_reducible refine correctStack_keeps ?_
    | with_reducible refine stackUe_keeps ?_

theorem stackMet_keeps {σ : State} {c : Nat} {seq : Option Nat} {as_ : List Nat} {env : StackEnv} {s : State} (h_s : Keeps σ s) :
    Keeps σ (stackMet c seq as_ env s) := by
  unfold stackMet
  repeat' first
    | with_reducible assumption
    | intro _
    | with_reducible refine stackMetOf_keeps ?_

theorem replyFlits_keeps {σ : State} {ctl : Nat} {r : StackReq} {gs : List Granule} {s : State} (h_s : Keeps σ s) :
    Keeps σ (replyFlits ctl r gs s) := by
  unfold replyFlits
  repeat' first
    | with_reducible assumption
    | intro _
    | extract_lets
    | with_reducible refine charge_keeps ?_
    | with_reducible refine chargeEnergy_keeps ?_
    | with_reducible refine forEach_keeps ?_ ?_
    | with_reducible refine sendFlit_keeps ?_
    | fail_if_no_progress with_reducible refine keeps_upd ?_ rfl rfl rfl rfl rfl rfl rfl rfl rfl rfl rfl rfl rfl rfl rfl rfl rfl rfl rfl rfl rfl

theorem ackFlit_keeps {σ : State} {ctl : Nat} {r : StackReq} {err : Bool} {s : State} (h_s : Keeps σ s) :
    Keeps σ (ackFlit ctl r err s) := by
  unfold ackFlit
  repeat' first
    | with_reducible assumption
    | intro _
    | with_reducible refine replyFlits_keeps ?_

theorem copyShared_keeps {σ : State} {r : StackReq} {m : Nat} {src : Nat} {dst : Nat} {env : StackEnv} {s : State} (h_s : Keeps σ s) :
    Keeps σ (copyShared r m src dst env s) := by
  unfold copyShared
  repeat' first
    | with_reducible assumption
    | intro _
    | extract_lets
    | with_reducible refine setStackGranule_keeps ?_
    | with_reducible refine forEach_keeps ?_ ?_
    | with_reducible refine copyPage_keeps ?_
    | with_reducible refine stackMetOf_keeps ?_

theorem countGranules_keeps {σ : State} {wrt : Bool} {as_ : List Nat} {s : State} (h_s : Keeps σ s) :
    Keeps σ (countGranules wrt as_ s) := by
  unfold countGranules
  repeat' first
    | with_reducible assumption
    | intro _
    | with_reducible refine keeps_ite ?_ ?_
    | with_reducible refine forEach_keeps ?_ ?_
    | with_reducible refine bump_keeps ?_
    | split

theorem takeRequest_keeps {σ : State} {ctl : Nat} {req : Granule} {data : List Granule} {s : State} (h_s : Keeps σ s) :
    Keeps σ (takeRequest ctl req data s) := by
  unfold takeRequest
  repeat' first
    | with_reducible assumption
    | intro _
    | with_reducible refine keeps_ite ?_ ?_
    | with_reducible refine forEach_keeps ?_ ?_
    | with_reducible refine takeBound_keeps ?_
    | split

theorem kvRead_keeps {σ : State} {ctl : Nat} {req : Granule} {env : StackEnv} {s : State} (h_s : Keeps σ s) :
    Keeps σ (kvRead ctl req env s) := by
  unfold kvRead
  repeat' first
    | with_reducible assumption
    | intro _
    | extract_lets
    | with_reducible refine keeps_ite ?_ ?_
    | with_reducible refine kvRange_keeps ?_
    | with_reducible refine bumpBy_keeps ?_
    | with_reducible refine replyFlits_keeps ?_
    | with_reducible refine when_keeps ?_ ?_
    | with_reducible refine chargeStack_keeps ?_
    | with_reducible refine kvMiss_keeps ?_
    | with_reducible refine stackMet_keeps ?_
    | with_reducible refine countGranules_keeps ?_
    | fail_if_no_progress with_reducible refine keeps_upd ?_ rfl rfl rfl rfl rfl rfl rfl rfl rfl rfl rfl rfl rfl rfl rfl rfl rfl rfl rfl rfl rfl
    | split
    | dsimp +zetaDelta only

theorem execKvRead_keeps {σ : State} {ctl : Nat} {req : Granule} {env : StackEnv} {s : State} (h_s : Keeps σ s) :
    ∃ τ, execKvRead ctl req env s = .next τ ∧ Keeps σ τ := by
  refine ⟨_, rfl, ?_⟩
  repeat' first
    | with_reducible assumption
    | intro _
    | with_reducible refine kvRead_keeps ?_
    | with_reducible refine takeRequest_keeps ?_

theorem modStepSeq_keeps {σ : State} {q : Nat} {f : StepSeq → StepSeq} {s : State} (h_s : Keeps σ s) :
    Keeps σ (modStepSeq q f s) := by
  unfold modStepSeq
  repeat' first
    | with_reducible assumption
    | intro _
    | with_reducible refine keeps_ite ?_ ?_
    | fail_if_no_progress with_reducible refine keeps_upd ?_ rfl rfl rfl rfl rfl rfl rfl rfl rfl rfl rfl rfl rfl rfl rfl rfl rfl rfl rfl rfl rfl
    | split

theorem commitPage_keeps {σ : State} {q span p : Nat} {r : StackReq} {env : StackEnv} {s t : State}
    (h : commitPage q span r env s = some (p, t)) (h_s : Keeps σ s) : Keeps σ t := by
  have fresh : ∀ x : Nat × State, (match recordedPage q span s with
      | some p => some (p, s)
      | none => (takePage q s).map fun (t : Nat × State) =>
          (t.1, chargeStack r 4 <| modStepSeq q (fun x => { x with pages := putPage ⟨span, t.1, false⟩ x.pages }) t.2)) = some x → Keeps σ x.2 := by
    intro x hx
    split at hx
    · cases hx; exact h_s
    · obtain ⟨y, hy, rfl⟩ := Option.map_eq_some_iff.1 hx
      exact chargeStack_keeps (modStepSeq_keeps (takePage_keeps hy h_s))
  unfold commitPage at h
  dsimp only at h
  split at h
  · split at h
    · obtain ⟨y, hy, hp⟩ := Option.map_eq_some_iff.1 h
      cases hp
      exact setPage_keeps (bump_keeps (chargeStack_keeps (copyShared_keeps (fresh y hy))))
    · cases h
      exact h_s
  · obtain ⟨y, hy, hp⟩ := Option.map_eq_some_iff.1 h
    cases hp
    exact setPage_keeps (chargeStack_keeps (fresh y hy))

theorem storeGranules_keeps {σ : State} {x0 : List Nat} {x1 : List Granule} {x2 : State} (h_x2 : Keeps σ x2) :
    Keeps σ (storeGranules x0 x1 x2) := by
  induction x0 generalizing x1 x2 with
  | nil => simpa only [storeGranules] using h_x2
  | cons p l ih =>
    cases x1 with
    | nil => simpa only [storeGranules] using h_x2
    | cons g gs => exact ih (setStackGranule_keeps h_x2)

theorem ackWrites_keeps {σ : State} {q : Nat} {n : Nat} {s : State} (h_s : Keeps σ s) :
    Keeps σ (ackWrites q n s) := by
  unfold ackWrites
  repeat' first
    | with_reducible assumption
    | intro _
    | extract_lets
    | with_reducible refine keeps_ite ?_ ?_
    | fail_if_no_progress with_reducible refine keeps_upd ?_ rfl rfl rfl rfl rfl rfl rfl rfl rfl rfl rfl rfl rfl rfl rfl rfl rfl rfl rfl rfl rfl
    | split

theorem kvWrite_keeps {σ : State} {ctl : Nat} {req : Granule} {data : List Granule} {env : StackEnv} {s : State} (h_s : Keeps σ s) :
    Keeps σ (kvWrite ctl req data env s) := by
  unfold kvWrite
  dsimp only
  split
  · exact h_s
  · split
    · exact kvRange_keeps h_s
    · split
      · exact fatal_keeps h_s
      · rename_i heq
        exact ackFlit_keeps (ackWrites_keeps (stackMet_keeps (countGranules_keeps (storeGranules_keeps (chargeStack_keeps
          (commitPage_keeps heq h_s))))))

theorem execKvWrite_keeps {σ : State} {ctl : Nat} {req : Granule} {data : List Granule} {env : StackEnv} {s : State} (h_s : Keeps σ s) :
    ∃ τ, execKvWrite ctl req data env s = .next τ ∧ Keeps σ τ := by
  refine ⟨_, rfl, ?_⟩
  repeat' first
    | with_reducible assumption
    | intro _
    | with_reducible refine kvWrite_keeps ?_
    | with_reducible refine takeRequest_keeps ?_

theorem linRead_keeps {σ : State} {ctl : Nat} {req : Granule} {env : StackEnv} {s : State} (h_s : Keeps σ s) :
    Keeps σ (linRead ctl req env s) := by
  unfold linRead
  repeat' first
    | with_reducible assumption
    | intro _
    | extract_lets
    | with_reducible refine keeps_ite ?_ ?_
    | with_reducible refine kvRange_keeps ?_
    | with_reducible refine replyFlits_keeps ?_
    | with_reducible refine stackMet_keeps ?_
    | with_reducible refine countGranules_keeps ?_
    | with_reducible refine chargeStack_keeps ?_
    | split

theorem execLinRead_keeps {σ : State} {ctl : Nat} {req : Granule} {env : StackEnv} {s : State} (h_s : Keeps σ s) :
    ∃ τ, execLinRead ctl req env s = .next τ ∧ Keeps σ τ := by
  refine ⟨_, rfl, ?_⟩
  repeat' first
    | with_reducible assumption
    | intro _
    | with_reducible refine linRead_keeps ?_
    | with_reducible refine takeRequest_keeps ?_

theorem linWrite_keeps {σ : State} {ctl : Nat} {req : Granule} {data : List Granule} {env : StackEnv} {s : State} (h_s : Keeps σ s) :
    Keeps σ (linWrite ctl req data env s) := by
  unfold linWrite
  repeat' first
    | with_reducible assumption
    | intro _
    | extract_lets
    | with_reducible refine keeps_ite ?_ ?_
    | with_reducible refine kvRange_keeps ?_
    | with_reducible refine storeGranules_keeps ?_
    | with_reducible refine chargeStack_keeps ?_
    | with_reducible refine stackMet_keeps ?_
    | with_reducible refine countGranules_keeps ?_
    | with_reducible refine ackFlit_keeps ?_
    | with_reducible refine bumpBy_keeps ?_
    | fail_if_no_progress with_reducible refine keeps_upd ?_ rfl rfl rfl rfl rfl rfl rfl rfl rfl rfl rfl rfl rfl rfl rfl rfl rfl rfl rfl rfl rfl
    | split

theorem execLinWrite_keeps {σ : State} {ctl : Nat} {req : Granule} {data : List Granule} {env : StackEnv} {s : State} (h_s : Keeps σ s) :
    ∃ τ, execLinWrite ctl req data env s = .next τ ∧ Keeps σ τ := by
  refine ⟨_, rfl, ?_⟩
  repeat' first
    | with_reducible assumption
    | intro _
    | with_reducible refine linWrite_keeps ?_
    | with_reducible refine takeRequest_keeps ?_

theorem patrolRead_keeps {σ : State} {n : Nat} {t : Nat} {env : StackEnv} {s : State} (h_s : Keeps σ s) :
    Keeps σ (patrolRead n t env s) := by
  unfold patrolRead
  repeat' first
    | with_reducible assumption
    | intro _
    | extract_lets
    | with_reducible refine keeps_ite ?_ ?_
    | with_reducible refine chargeEnergy_keeps ?_
    | with_reducible refine charge_keeps ?_
    | with_reducible refine atTime_keeps ?_
    | with_reducible refine stackMet_keeps ?_
    | with_reducible refine wr_keeps ?_
    | with_reducible refine when_keeps ?_ ?_
    | with_reducible refine bump_keeps ?_
    | fail_if_no_progress with_reducible refine keeps_upd ?_ rfl rfl rfl rfl rfl rfl rfl rfl rfl rfl rfl rfl rfl rfl rfl rfl rfl rfl rfl rfl rfl
    | split

theorem execPatrolRead_keeps {σ : State} {n : Nat} {t : Nat} {env : StackEnv} {s : State} (h_s : Keeps σ s) :
    ∃ τ, execPatrolRead n t env s = .next τ ∧ Keeps σ τ := by
  refine ⟨_, rfl, ?_⟩
  repeat' first
    | with_reducible assumption
    | intro _
    | with_reducible refine patrolRead_keeps ?_

theorem stackScrubLate_keeps {σ : State} {n : Nat} {t : Nat} {s : State} (h_s : Keeps σ s) :
    Keeps σ (stackScrubLate n t s) := by
  unfold stackScrubLate
  repeat' first
    | with_reducible assumption
    | intro _
    | with_reducible refine keeps_ite ?_ ?_
    | with_reducible refine raise_keeps ?_
    | with_reducible refine atTime_keeps ?_
    | split

theorem execStackScrubLate_keeps {σ : State} {n : Nat} {t : Nat} {s : State} (h_s : Keeps σ s) :
    ∃ τ, execStackScrubLate n t s = .next τ ∧ Keeps σ τ := by
  refine ⟨_, rfl, ?_⟩
  repeat' first
    | with_reducible assumption
    | intro _
    | with_reducible refine stackScrubLate_keeps ?_

end Sys2Proof.Machine
end

