-- ==== Sys2Proof/Laws/KeepTune.lean ====
section
/-!
SUPPORT. What `Keeps` says, for every function of Machine/Tune.lean that changes the state.
-/
set_option Elab.async false
namespace Sys2Proof.Machine
open Sys2Proof

theorem tuneRefuse_keeps {σ : State} {s : State} (h_s : Keeps σ s) :
    Keeps σ (tuneRefuse s) := by
  unfold tuneRefuse
  repeat' first
    | with_reducible assumption
    | intro _
    | with_reducible refine raise_keeps ?_

theorem watchLine_keeps {σ : State} {addr : Nat} {use : ReadUse} {s : State} (h_s : Keeps σ s) :
    Keeps σ (watchLine addr use s) := by
  unfold watchLine
  repeat' first
    | with_reducible assumption
    | intro _
    | extract_lets
    | fail_if_no_progress with_reducible refine keeps_upd ?_ rfl rfl rfl rfl rfl rfl rfl rfl rfl rfl rfl rfl rfl rfl rfl rfl rfl rfl rfl rfl rfl

theorem watchRing_keeps {σ : State} {k : Nat} {s : State} (h_s : Keeps σ s) :
    Keeps σ (watchRing k s) := by
  unfold watchRing
  repeat' first
    | with_reducible assumption
    | intro _
    | with_reducible refine keeps_ite ?_ ?_
    | with_reducible refine hostRead_keeps ?_
    | with_reducible refine watchLine_keeps ?_
    | split

theorem unwatchRing_keeps {σ : State} {k : Nat} {s : State} (h_s : Keeps σ s) :
    Keeps σ (unwatchRing k s) := by
  unfold unwatchRing
  repeat' first
    | with_reducible assumption
    | intro _
    | extract_lets
    | with_reducible refine keeps_ite ?_ ?_
    | with_reducible refine sendUnwatch_keeps ?_
    | fail_if_no_progress with_reducible refine keeps_upd ?_ rfl rfl rfl rfl rfl rfl rfl rfl rfl rfl rfl rfl rfl rfl rfl rfl rfl rfl rfl rfl rfl
    | split

theorem watchTune_keeps {σ : State} {s : State} (h_s : Keeps σ s) :
    Keeps σ (watchTune s) := by
  unfold watchTune
  repeat' first
    | with_reducible assumption
    | intro _
    | with_reducible refine keeps_ite ?_ ?_
    | with_reducible refine unwatchRing_keeps ?_
    | with_reducible refine watchRing_keeps ?_
    | split

theorem tuneEnd_keeps {σ : State} {st : Nat} {fail : Nat} {s : State} (h_s : Keeps σ s) :
    Keeps σ (tuneEnd st fail s) := by
  unfold tuneEnd
  repeat' first
    | with_reducible assumption
    | intro _
    | with_reducible refine watchTune_keeps ?_
    | with_reducible refine raise_keeps ?_
    | with_reducible refine wr_keeps ?_

theorem writeExample_keeps {σ : State} {i : Nat} {b : Nat} {n : Nat} {v : Nat} {s : State} (h_s : Keeps σ s) :
    Keeps σ (writeExample i b n v s) := by
  unfold writeExample
  repeat' first
    | with_reducible assumption
    | intro _
    | with_reducible refine sendWrPart_keeps ?_

theorem writeTuneCons_keeps {σ : State} {c : Nat} {s : State} (h_s : Keeps σ s) :
    Keeps σ (writeTuneCons c s) := by
  unfold writeTuneCons
  repeat' first
    | with_reducible assumption
    | intro _
    | with_reducible refine sendWrPart_keeps ?_
    | fail_if_no_progress with_reducible refine keeps_upd ?_ rfl rfl rfl rfl rfl rfl rfl rfl rfl rfl rfl rfl rfl rfl rfl rfl rfl rfl rfl rfl rfl

theorem rewind_keeps {σ : State} {i : Nat} {s : State} (h_s : Keeps σ s) :
    Keeps σ (rewind i s) := by
  unfold rewind
  repeat' first
    | with_reducible assumption
    | intro _
    | fail_if_no_progress with_reducible refine keeps_upd ?_ rfl rfl rfl rfl rfl rfl rfl rfl rfl rfl rfl rfl rfl rfl rfl rfl rfl rfl rfl rfl rfl

theorem markDiscarded_keeps {σ : State} {es : List Example} {s : State} (h_s : Keeps σ s) :
    Keeps σ (markDiscarded es s) := by
  unfold markDiscarded
  repeat' first
    | with_reducible assumption
    | intro _
    | with_reducible refine raise_keeps ?_
    | with_reducible refine forEach_keeps ?_ ?_
    | with_reducible refine writeExample_keeps ?_

theorem discardGroup_keeps {σ : State} {s : State} (h_s : Keeps σ s) :
    Keeps σ (discardGroup s) := by
  unfold discardGroup
  repeat' first
    | with_reducible assumption
    | intro _
    | with_reducible refine rewind_keeps ?_
    | with_reducible refine markDiscarded_keeps ?_

theorem tuneRun_keeps {σ : State} {s : State} (h_s : Keeps σ s) :
    Keeps σ (tuneRun s) := by
  unfold tuneRun
  repeat' first
    | with_reducible assumption
    | intro _
    | with_reducible refine keeps_ite ?_ ?_
    | with_reducible refine watchTune_keeps ?_
    | with_reducible refine wr_keeps ?_
    | with_reducible refine tuneRefuse_keeps ?_
    | split

theorem execRun_keeps {σ : State} {s : State} (h_s : Keeps σ s) :
    ∃ τ, execRun s = .next τ ∧ Keeps σ τ := by
  refine ⟨_, rfl, ?_⟩
  repeat' first
    | with_reducible assumption
    | intro _
    | with_reducible refine tuneRun_keeps ?_

theorem tunePause_keeps {σ : State} {s : State} (h_s : Keeps σ s) :
    Keeps σ (tunePause s) := by
  unfold tunePause
  repeat' first
    | with_reducible assumption
    | intro _
    | with_reducible refine keeps_ite ?_ ?_
    | with_reducible refine wr_keeps ?_
    | with_reducible refine tuneRefuse_keeps ?_
    | split

theorem execPause_keeps {σ : State} {s : State} (h_s : Keeps σ s) :
    ∃ τ, execPause s = .next τ ∧ Keeps σ τ := by
  refine ⟨_, rfl, ?_⟩
  repeat' first
    | with_reducible assumption
    | intro _
    | with_reducible refine tunePause_keeps ?_

theorem tuneAbort_keeps {σ : State} {s : State} (h_s : Keeps σ s) :
    Keeps σ (tuneAbort s) := by
  unfold tuneAbort
  repeat' first
    | with_reducible assumption
    | intro _
    | extract_lets
    | with_reducible refine keeps_ite ?_ ?_
    | with_reducible refine discardGroup_keeps ?_
    | with_reducible refine tuneEnd_keeps ?_
    | with_reducible refine wr_keeps ?_
    | with_reducible refine tuneRefuse_keeps ?_
    | split

theorem execAbort_keeps {σ : State} {s : State} (h_s : Keeps σ s) :
    ∃ τ, execAbort s = .next τ ∧ Keeps σ τ := by
  refine ⟨_, rfl, ?_⟩
  repeat' first
    | with_reducible assumption
    | intro _
    | with_reducible refine tuneAbort_keeps ?_

theorem tuneDiscard_keeps {σ : State} {s : State} (h_s : Keeps σ s) :
    Keeps σ (tuneDiscard s) := by
  unfold tuneDiscard
  repeat' first
    | with_reducible assumption
    | intro _
    | with_reducible refine keeps_ite ?_ ?_
    | with_reducible refine discardGroup_keeps ?_
    | with_reducible refine tuneRefuse_keeps ?_
    | split

theorem execDiscard_keeps {σ : State} {s : State} (h_s : Keeps σ s) :
    ∃ τ, execDiscard s = .next τ ∧ Keeps σ τ := by
  refine ⟨_, rfl, ?_⟩
  repeat' first
    | with_reducible assumption
    | intro _
    | with_reducible refine tuneDiscard_keeps ?_

theorem tuneCtrl_keeps {σ : State} {v : Word} {s : State} (h_s : Keeps σ s) :
    Keeps σ (tuneCtrl v s) := by
  unfold tuneCtrl
  repeat' first
    | with_reducible assumption
    | intro _
    | with_reducible refine when_keeps ?_ ?_
    | with_reducible refine tuneRun_keeps ?_
    | with_reducible refine tuneDiscard_keeps ?_
    | with_reducible refine tunePause_keeps ?_
    | with_reducible refine tuneAbort_keeps ?_

theorem dropBlocks_keeps {σ : State} {s : State} (h_s : Keeps σ s) :
    Keeps σ (dropBlocks s) := by
  unfold dropBlocks
  repeat' first
    | with_reducible assumption
    | intro _
    | extract_lets
    | with_reducible refine forEach_keeps ?_ ?_
    | with_reducible refine releaseSeq_keeps ?_
    | fail_if_no_progress with_reducible refine keeps_upd ?_ rfl rfl rfl rfl rfl rfl rfl rfl rfl rfl rfl rfl rfl rfl rfl rfl rfl rfl rfl rfl rfl

theorem tuneFail_keeps {σ : State} {cause : Nat} {s : State} (h_s : Keeps σ s) :
    Keeps σ (tuneFail cause s) := by
  unfold tuneFail
  repeat' first
    | with_reducible assumption
    | intro _
    | with_reducible refine keeps_ite ?_ ?_
    | with_reducible refine tuneEnd_keeps ?_
    | with_reducible refine rewind_keeps ?_
    | with_reducible refine dropBlocks_keeps ?_
    | split

theorem tuneFault_keeps {σ : State} {m : Nat} {s : State} (h_s : Keeps σ s) :
    Keeps σ (tuneFault m s) := by
  unfold tuneFault
  repeat' first
    | with_reducible assumption
    | intro _
    | extract_lets
    | with_reducible refine keeps_ite ?_ ?_
    | with_reducible refine tuneFail_keeps ?_
    | with_reducible refine markDiscarded_keeps ?_
    | with_reducible refine dropBlocks_keeps ?_
    | with_reducible refine wr_keeps ?_
    | with_reducible refine discardGroup_keeps ?_
    | with_reducible refine tuneEnd_keeps ?_
    | split

theorem noBlockYet_keeps {σ : State} {s : State} (h_s : Keeps σ s) :
    Keeps σ (noBlockYet s) := by
  unfold noBlockYet
  repeat' first
    | with_reducible assumption
    | intro _
    | fail_if_no_progress with_reducible refine keeps_upd ?_ rfl rfl rfl rfl rfl rfl rfl rfl rfl rfl rfl rfl rfl rfl rfl rfl rfl rfl rfl rfl rfl

theorem tuneEvict_keeps {σ : State} {m : Nat} {s : State} (h_s : Keeps σ s) :
    Keeps σ (tuneEvict m s) := by
  unfold tuneEvict
  repeat' first
    | with_reducible assumption
    | intro _
    | with_reducible refine keeps_ite ?_ ?_
    | with_reducible refine noBlockYet_keeps ?_
    | with_reducible refine tuneFail_keeps ?_
    | split

theorem tuneFailover_keeps {σ : State} {s : State} (h_s : Keeps σ s) :
    Keeps σ (tuneFailover s) := by
  unfold tuneFailover
  repeat' first
    | with_reducible assumption
    | intro _
    | with_reducible refine tuneFail_keeps ?_

theorem tuneReloaded_keeps {σ : State} {m : Nat} {s : State} (h_s : Keeps σ s) :
    Keeps σ (tuneReloaded m s) := by
  unfold tuneReloaded
  repeat' first
    | with_reducible assumption
    | intro _
    | with_reducible refine keeps_ite ?_ ?_
    | with_reducible refine wr_keeps ?_
    | split

theorem sendOptRecord_keeps {σ : State} {g : Granule} {c : Nat} {s : State} (h_s : Keeps σ s) :
    Keeps σ (sendOptRecord g c s) := by
  unfold sendOptRecord
  repeat' first
    | with_reducible assumption
    | intro _
    | extract_lets
    | with_reducible refine sendFlit_keeps ?_
    | with_reducible refine charge_keeps ?_
    | with_reducible refine chargeEnergy_keeps ?_
    | fail_if_no_progress with_reducible refine keeps_upd ?_ rfl rfl rfl rfl rfl rfl rfl rfl rfl rfl rfl rfl rfl rfl rfl rfl rfl rfl rfl rfl rfl

theorem takeTuneSeq_keeps {σ : State} {m : Nat} {q : Nat} {s : State} (h_s : Keeps σ s) :
    Keeps σ (takeTuneSeq m q s) := by
  unfold takeTuneSeq
  repeat' first
    | with_reducible assumption
    | intro _
    | with_reducible refine setSeqSlot_keeps ?_
    | fail_if_no_progress with_reducible refine keeps_upd ?_ rfl rfl rfl rfl rfl rfl rfl rfl rfl rfl rfl rfl rfl rfl rfl rfl rfl rfl rfl rfl rfl

theorem formTune_keeps {σ : State} {m : Nat} {launch : Nat} {s : State} (h_s : Keeps σ s) :
    Keeps σ (formTune m launch s) := by
  unfold formTune
  repeat' first
    | with_reducible assumption
    | intro _
    | extract_lets
    | with_reducible refine forEach_keeps ?_ ?_
    | with_reducible refine takeTuneSeq_keeps ?_
    | with_reducible refine bumpBy_keeps ?_
    | with_reducible refine sendOptRecord_keeps ?_
    | fail_if_no_progress with_reducible refine keeps_upd ?_ rfl rfl rfl rfl rfl rfl rfl rfl rfl rfl rfl rfl rfl rfl rfl rfl rfl rfl rfl rfl rfl
    | with_reducible refine foldl_keeps ?_ ?_
    | split
    | dsimp +zetaDelta only

theorem writeLosses_keeps {σ : State} {x0 : List Nat} {x1 : List Word} {x2 : State} (h_x2 : Keeps σ x2) :
    Keeps σ (writeLosses x0 x1 x2) := by
  induction x0 generalizing x1 x2 with
  | nil => simpa only [writeLosses] using h_x2
  | cons p l ih =>
    cases x1 with
    | nil => simpa only [writeLosses] using h_x2
    | cons g gs => exact ih (writeExample_keeps h_x2)

theorem closeGroup_keeps {σ : State} {last : Nat} {s : State} (h_s : Keeps σ s) :
    Keeps σ (closeGroup last s) := by
  unfold closeGroup
  repeat' first
    | with_reducible assumption
    | intro _
    | extract_lets
    | with_reducible refine forEach_keeps ?_ ?_
    | with_reducible refine wr_keeps ?_
    | with_reducible refine writeExample_keeps ?_
    | with_reducible refine writeTuneCons_keeps ?_
    | with_reducible refine raise_keeps ?_
    | with_reducible refine bumpBy_keeps ?_
    | fail_if_no_progress with_reducible refine keeps_upd ?_ rfl rfl rfl rfl rfl rfl rfl rfl rfl rfl rfl rfl rfl rfl rfl rfl rfl rfl rfl rfl rfl

theorem afterBlock_keeps {σ : State} {s : State} (h_s : Keeps σ s) :
    Keeps σ (afterBlock s) := by
  unfold afterBlock
  repeat' first
    | with_reducible assumption
    | intro _
    | with_reducible refine keeps_ite ?_ ?_
    | with_reducible refine wr_keeps ?_
    | with_reducible refine tuneEnd_keeps ?_
    | split

theorem tuneBlockComplete_keeps {σ : State} {losses : List Word} {s : State} (h_s : Keeps σ s) :
    Keeps σ (tuneBlockComplete losses s) := by
  unfold tuneBlockComplete
  repeat' first
    | with_reducible assumption
    | intro _
    | extract_lets
    | with_reducible refine keeps_ite ?_ ?_
    | with_reducible refine forEach_keeps ?_ ?_
    | with_reducible refine releaseSeq_keeps ?_
    | with_reducible refine bump_keeps ?_
    | with_reducible refine writeLosses_keeps ?_
    | with_reducible refine afterBlock_keeps ?_
    | with_reducible refine closeGroup_keeps ?_
    | fail_if_no_progress with_reducible refine keeps_upd ?_ rfl rfl rfl rfl rfl rfl rfl rfl rfl rfl rfl rfl rfl rfl rfl rfl rfl rfl rfl rfl rfl
    | split
    | dsimp +zetaDelta only

theorem execTuneBlockComplete_keeps {σ : State} {losses : List Word} {s : State} (h_s : Keeps σ s) :
    ∃ τ, execTuneBlockComplete losses s = .next τ ∧ Keeps σ τ := by
  refine ⟨_, rfl, ?_⟩
  repeat' first
    | with_reducible assumption
    | intro _
    | with_reducible refine tuneBlockComplete_keeps ?_

theorem readTokens_keeps {σ : State} {a : Nat} {left : Nat} {use : ReadUse} {s : State} (h_s : Keeps σ s) :
    Keeps σ (readTokens a left use s) := by
  unfold readTokens
  repeat' first
    | with_reducible assumption
    | intro _
    | with_reducible refine hostRead_keeps ?_

theorem tuneFetch_keeps {σ : State} {s : State} (h_s : Keeps σ s) :
    Keeps σ (tuneFetch s) := by
  unfold tuneFetch
  repeat' first
    | with_reducible assumption
    | intro _
    | with_reducible refine keeps_ite ?_ ?_
    | with_reducible refine readTokens_keeps ?_
    | with_reducible refine hostRead_keeps ?_
    | fail_if_no_progress with_reducible refine keeps_upd ?_ rfl rfl rfl rfl rfl rfl rfl rfl rfl rfl rfl rfl rfl rfl rfl rfl rfl rfl rfl rfl rfl
    | split

theorem tuneEntryRead_keeps {σ : State} {g : BitVec 512} {s : State} (h_s : Keeps σ s) :
    Keeps σ (tuneEntryRead g s) := by
  unfold tuneEntryRead
  repeat' first
    | with_reducible assumption
    | intro _
    | extract_lets
    | with_reducible refine tuneFetch_keeps ?_
    | with_reducible refine when_keeps ?_ ?_
    | with_reducible refine raise_keeps ?_
    | fail_if_no_progress with_reducible refine keeps_upd ?_ rfl rfl rfl rfl rfl rfl rfl rfl rfl rfl rfl rfl rfl rfl rfl rfl rfl rfl rfl rfl rfl

theorem tuneTokensRead_keeps {σ : State} {e : Example} {bytes : List Byte} {s : State} (h_s : Keeps σ s) :
    Keeps σ (tuneTokensRead e bytes s) := by
  unfold tuneTokensRead
  repeat' first
    | with_reducible assumption
    | intro _
    | extract_lets
    | with_reducible refine keeps_ite ?_ ?_
    | with_reducible refine tuneFetch_keeps ?_
    | with_reducible refine when_keeps ?_ ?_
    | with_reducible refine raise_keeps ?_
    | fail_if_no_progress with_reducible refine keeps_upd ?_ rfl rfl rfl rfl rfl rfl rfl rfl rfl rfl rfl rfl rfl rfl rfl rfl rfl rfl rfl rfl rfl
    | split

end Sys2Proof.Machine
end

