-- ==== Sys2Proof/Laws/KeepMirror.lean ====
section
/-!
SUPPORT. What `Keeps` says, for every function of Machine/Mirror.lean that changes the state.
-/
set_option Elab.async false
namespace Sys2Proof.Machine
open Sys2Proof

theorem chargeSpan_keeps {σ : State} {a : Nat} {c : Nat} {flits : Nat} {s : State} (h_s : Keeps σ s) :
    Keeps σ (chargeSpan a c flits s) := by
  unfold chargeSpan
  repeat' first
    | with_reducible assumption
    | intro _
    | extract_lets
    | with_reducible refine charge_keeps ?_
    | with_reducible refine chargeEnergy_keeps ?_

theorem chargeBytes_keeps {σ : State} {a : Nat} {n : Nat} {s : State} (h_s : Keeps σ s) :
    Keeps σ (chargeBytes a n s) := by
  unfold chargeBytes
  repeat' first
    | with_reducible assumption
    | intro _
    | with_reducible refine charge_keeps ?_
    | with_reducible refine chargeEnergy_keeps ?_

theorem chargeSpanStack_keeps {σ : State} {a : Nat} {n : Nat} {s : State} (h_s : Keeps σ s) :
    Keeps σ (chargeSpanStack a n s) := by
  unfold chargeSpanStack
  repeat' first
    | with_reducible assumption
    | intro _
    | with_reducible refine chargeSpan_keeps ?_
    | with_reducible refine chargeBytes_keeps ?_

theorem chargeMirrorSlots_keeps {σ : State} {op : Nat} {n : Nat} {recv : Bool} {s : State} (h_s : Keeps σ s) :
    Keeps σ (chargeMirrorSlots op n recv s) := by
  unfold chargeMirrorSlots
  repeat' first
    | with_reducible assumption
    | intro _
    | extract_lets
    | with_reducible refine keeps_ite ?_ ?_
    | with_reducible refine bumpBy_keeps ?_
    | with_reducible refine chargeSpan_keeps ?_
    | with_reducible refine chargeSpanStack_keeps ?_
    | with_reducible refine when_keeps ?_ ?_
    | with_reducible refine chargeBytes_keeps ?_
    | split

theorem chargeMirror_keeps {σ : State} {m : SpanMsg} {recv : Bool} {s : State} (h_s : Keeps σ s) :
    Keeps σ (chargeMirror m recv s) := by
  unfold chargeMirror
  repeat' first
    | with_reducible assumption
    | intro _
    | with_reducible refine chargeMirrorSlots_keeps ?_

theorem flushMirrorList_keeps {σ : State} {x0 : List SpanMsg} {x1 : State} (h_x1 : Keeps σ x1) :
    Keeps σ (flushMirrorList x0 x1).2 := by
  induction x0 generalizing x1 with
  | nil => (unfold flushMirrorList; repeat' first
      | with_reducible assumption
      | intro _
      | with_reducible refine keeps_ite ?_ ?_
      | with_reducible refine putSpan_keeps ?_
      | with_reducible refine chargeMirror_keeps ?_
      | with_reducible refine keeps_snd_ite ?_ ?_
      | split)
  | cons _ _ ih => (unfold flushMirrorList; repeat' first
      | with_reducible assumption
      | with_reducible apply ih
      | (injections; subst_vars; with_reducible apply ih)
      | intro _
      | with_reducible refine keeps_ite ?_ ?_
      | with_reducible refine putSpan_keeps ?_
      | with_reducible refine chargeMirror_keeps ?_
      | with_reducible refine keeps_snd_ite ?_ ?_
      | split)

theorem flushMirror_keeps {σ : State} {s : State} (h_s : Keeps σ s) :
    Keeps σ (flushMirror s) := by
  unfold flushMirror
  repeat' first
    | with_reducible assumption
    | intro _
    | extract_lets
    | with_reducible refine flushMirrorList_keeps ?_
    | fail_if_no_progress with_reducible refine keeps_upd ?_ rfl rfl rfl rfl rfl rfl rfl rfl rfl rfl rfl rfl rfl rfl rfl rfl rfl rfl rfl rfl rfl

theorem mirrorMsg_keeps {σ : State} {op : Nat} {model : Nat} {arg : Nat} {data : List Slot16} {s : State} (h_s : Keeps σ s) :
    Keeps σ (mirrorMsg op model arg data s) := by
  unfold mirrorMsg
  repeat' first
    | with_reducible assumption
    | intro _
    | extract_lets
    | with_reducible refine takePsn_keeps ?_
    | with_reducible refine flushMirror_keeps ?_
    | fail_if_no_progress with_reducible refine keeps_upd ?_ rfl rfl rfl rfl rfl rfl rfl rfl rfl rfl rfl rfl rfl rfl rfl rfl rfl rfl rfl rfl rfl

theorem mirrorCmd_keeps {σ : State} {model : Nat} {e : BitVec 1024} {s : State} (h_s : Keeps σ s) :
    Keeps σ (mirrorCmd model e s) := by
  unfold mirrorCmd
  repeat' first
    | with_reducible assumption
    | intro _
    | with_reducible refine keeps_ite ?_ ?_
    | with_reducible refine mirrorMsg_keeps ?_
    | split

theorem tokenParts_keeps {σ : State} {model : Nat} {reqId : Nat} {req : Nat} {x0 : Nat} {x1 : Nat} {x2 : List Nat} {x3 : State} (h_x3 : Keeps σ x3) :
    Keeps σ (tokenParts model reqId req x0 x1 x2 x3) := by
  induction x0 generalizing model reqId req x1 x2 x3 with
  | zero => (unfold tokenParts; repeat' first
      | with_reducible assumption
      | intro _
      | extract_lets
      | with_reducible refine mirrorMsg_keeps ?_
      | fail_if_no_progress with_reducible refine keeps_upd ?_ rfl rfl rfl rfl rfl rfl rfl rfl rfl rfl rfl rfl rfl rfl rfl rfl rfl rfl rfl rfl rfl
      | split
      | dsimp +zetaDelta only)
  | succ _ ih => (unfold tokenParts; repeat' first
      | with_reducible assumption
      | with_reducible apply ih
      | (injections; subst_vars; with_reducible apply ih)
      | intro _
      | extract_lets
      | with_reducible refine mirrorMsg_keeps ?_
      | fail_if_no_progress with_reducible refine keeps_upd ?_ rfl rfl rfl rfl rfl rfl rfl rfl rfl rfl rfl rfl rfl rfl rfl rfl rfl rfl rfl rfl rfl
      | split
      | dsimp +zetaDelta only)

theorem mirrorTokens_keeps {σ : State} {q : Request} {ts : List Nat} {s : State} (h_s : Keeps σ s) :
    Keeps σ (mirrorTokens q ts s) := by
  unfold mirrorTokens
  repeat' first
    | with_reducible assumption
    | intro _
    | with_reducible refine keeps_ite ?_ ?_
    | with_reducible refine tokenParts_keeps ?_
    | split

theorem kvMessages_keeps {σ : State} {q : Nat} {m : Nat} {l : Nat} {p : Nat} {n : Nat} {gs : List Granule} {s : State} (h_s : Keeps σ s) :
    Keeps σ (kvMessages q m l p n gs s) := by
  unfold kvMessages
  repeat' first
    | with_reducible assumption
    | intro _
    | with_reducible refine forEach_keeps ?_ ?_
    | with_reducible refine mirrorMsg_keeps ?_

theorem kvParts_keeps {σ : State} {q : Nat} {m : Nat} {page : Nat} {l : Nat} {x0 : Nat} {x1 : Nat} {x2 : Nat} {x3 : State} (h_x3 : Keeps σ x3) :
    Keeps σ (kvParts q m page l x0 x1 x2 x3) := by
  induction x0 generalizing q m page l x1 x2 x3 with
  | zero => (unfold kvParts; repeat' first
      | with_reducible assumption
      | intro _
      | extract_lets
      | with_reducible refine keeps_ite ?_ ?_
      | with_reducible refine kvMessages_keeps ?_
      | split)
  | succ _ ih => (unfold kvParts; repeat' first
      | with_reducible assumption
      | with_reducible apply ih
      | (injections; subst_vars; with_reducible apply ih)
      | intro _
      | extract_lets
      | with_reducible refine keeps_ite ?_ ?_
      | with_reducible refine kvMessages_keeps ?_
      | split)

theorem mirrorPage_keeps {σ : State} {q : Nat} {m : Nat} {a : Nat} {b : Nat} {e : PageEntry} {s : State} (h_s : Keeps σ s) :
    Keeps σ (mirrorPage q m a b e s) := by
  unfold mirrorPage
  repeat' first
    | with_reducible assumption
    | intro _
    | with_reducible refine forEach_keeps ?_ ?_
    | with_reducible refine kvParts_keeps ?_

theorem mirrorKv_keeps {σ : State} {q : Nat} {a : Nat} {b : Nat} {s : State} (h_s : Keeps σ s) :
    Keeps σ (mirrorKv q a b s) := by
  unfold mirrorKv
  repeat' first
    | with_reducible assumption
    | intro _
    | with_reducible refine keeps_ite ?_ ?_
    | with_reducible refine forEach_keeps ?_ ?_
    | with_reducible refine mirrorPage_keeps ?_
    | fail_if_no_progress with_reducible refine keeps_upd ?_ rfl rfl rfl rfl rfl rfl rfl rfl rfl rfl rfl rfl rfl rfl rfl rfl rfl rfl rfl rfl rfl
    | split

theorem mirrorLayer_keeps {σ : State} {q : Nat} {m : Nat} {l : Nat} {rec_ : Slot16} {xs : List Slot16} {s : State} (h_s : Keeps σ s) :
    Keeps σ (mirrorLayer q m l rec_ xs s) := by
  unfold mirrorLayer
  repeat' first
    | with_reducible assumption
    | intro _
    | with_reducible refine keeps_ite ?_ ?_
    | with_reducible refine forEach_keeps ?_ ?_
    | with_reducible refine mirrorMsg_keeps ?_
    | split

theorem mirrorState_keeps {σ : State} {q : Nat} {s : State} (h_s : Keeps σ s) :
    Keeps σ (mirrorState q s) := by
  unfold mirrorState
  repeat' first
    | with_reducible assumption
    | intro _
    | extract_lets
    | with_reducible refine forEach_keeps ?_ ?_
    | with_reducible refine mirrorLayer_keeps ?_

theorem mirrorPfx_keeps {σ : State} {model : Nat} {handle : Nat} {seq : Option Nat} {lp : Nat} {s : State} (h_s : Keeps σ s) :
    Keeps σ (mirrorPfx model handle seq lp s) := by
  unfold mirrorPfx
  repeat' first
    | with_reducible assumption
    | intro _
    | with_reducible refine keeps_ite ?_ ?_
    | with_reducible refine mirrorMsg_keeps ?_
    | fail_if_no_progress with_reducible refine keeps_upd ?_ rfl rfl rfl rfl rfl rfl rfl rfl rfl rfl rfl rfl rfl rfl rfl rfl rfl rfl rfl rfl rfl
    | split

theorem mirrorCommit_keeps {σ : State} {i : Nat} {model : Nat} {launch : Nat} {data : List Slot16} {s : State} (h_s : Keeps σ s) :
    Keeps σ (mirrorCommit i model launch data s) := by
  unfold mirrorCommit
  repeat' first
    | with_reducible assumption
    | intro _
    | extract_lets
    | with_reducible refine mirrorMsg_keeps ?_
    | with_reducible refine when_keeps ?_ ?_
    | with_reducible refine raise_keeps ?_
    | fail_if_no_progress with_reducible refine keeps_upd ?_ rfl rfl rfl rfl rfl rfl rfl rfl rfl rfl rfl rfl rfl rfl rfl rfl rfl rfl rfl rfl rfl

end Sys2Proof.Machine
end

