-- ==== Sys2Proof/Laws/KeepService.lean ====
section
/-!
SUPPORT. What `Keeps` says, for every function of Machine/Service.lean that changes the state.
-/
set_option Elab.async false
namespace Sys2Proof.Machine
open Sys2Proof

theorem setTeleBase_keeps {σ : State} {k : Nat} {n : Nat} {s : State} (h_s : Keeps σ s) :
    Keeps σ (setTeleBase k n s) := by
  unfold setTeleBase
  repeat' first
    | with_reducible assumption
    | intro _
    | fail_if_no_progress with_reducible refine keeps_upd ?_ rfl rfl rfl rfl rfl rfl rfl rfl rfl rfl rfl rfl rfl rfl rfl rfl rfl rfl rfl rfl rfl

theorem keepTele_keeps {σ : State} {m : Nat} {s : State} (h_s : Keeps σ s) :
    Keeps σ (keepTele m s) := by
  unfold keepTele
  repeat' first
    | with_reducible assumption
    | intro _
    | with_reducible refine forEach_keeps ?_ ?_
    | with_reducible refine setTeleBase_keeps ?_

theorem markRead_keeps {σ : State} {k : Nat} {s : State} (h_s : Keeps σ s) :
    Keeps σ (markRead k s) := by
  unfold markRead
  repeat' first
    | with_reducible assumption
    | intro _
    | fail_if_no_progress with_reducible refine keeps_upd ?_ rfl rfl rfl rfl rfl rfl rfl rfl rfl rfl rfl rfl rfl rfl rfl rfl rfl rfl rfl rfl rfl

theorem setIndices_keeps {σ : State} {k : Nat} {p : Nat} {c : Nat} {s : State} (h_s : Keeps σ s) :
    Keeps σ (setIndices k p c s) := by
  unfold setIndices
  repeat' first
    | with_reducible assumption
    | intro _
    | with_reducible refine keeps_ite ?_ ?_
    | with_reducible refine setCmdRing_keeps ?_
    | with_reducible refine setOutRing_keeps ?_
    | fail_if_no_progress with_reducible refine keeps_upd ?_ rfl rfl rfl rfl rfl rfl rfl rfl rfl rfl rfl rfl rfl rfl rfl rfl rfl rfl rfl rfl rfl
    | split

theorem ringUnread_keeps {σ : State} {k : Nat} {s : State} (h_s : Keeps σ s) :
    Keeps σ (ringUnread k s) := by
  unfold ringUnread
  repeat' first
    | with_reducible assumption
    | intro _
    | with_reducible refine keeps_ite ?_ ?_
    | with_reducible refine wr_keeps ?_
    | with_reducible refine markRead_keeps ?_
    | with_reducible refine setOutRing_keeps ?_
    | fail_if_no_progress with_reducible refine keeps_upd ?_ rfl rfl rfl rfl rfl rfl rfl rfl rfl rfl rfl rfl rfl rfl rfl rfl rfl rfl rfl rfl rfl
    | split

theorem readEntries_keeps {σ : State} {r : Nat} {old : Nat} {new : Nat} {s : State} (h_s : Keeps σ s) :
    Keeps σ (readEntries r old new s) := by
  unfold readEntries
  repeat' first
    | with_reducible assumption
    | intro _
    | extract_lets
    | with_reducible refine forEach_keeps ?_ ?_
    | with_reducible refine hostRead_keeps ?_

theorem ringHeader_keeps {σ : State} {k : Nat} {p : Nat} {c : Nat} {s0 : State} (h_s0 : Keeps σ s0) :
    Keeps σ (ringHeader k p c s0) := by
  unfold ringHeader
  repeat' first
    | with_reducible assumption
    | intro _
    | extract_lets
    | with_reducible refine keeps_ite ?_ ?_
    | with_reducible refine markRead_keeps ?_
    | with_reducible refine wr_keeps ?_
    | with_reducible refine watchRing_keeps ?_
    | with_reducible refine setIndices_keeps ?_
    | with_reducible refine readEntries_keeps ?_
    | with_reducible refine flushEvents_keeps ?_
    | with_reducible refine flushHeld_keeps ?_
    | with_reducible refine tuneFetch_keeps ?_
    | split

theorem beginRing_keeps {σ : State} {k : Nat} {s : State} (h_s : Keeps σ s) :
    Keeps σ (beginRing k s) := by
  unfold beginRing
  repeat' first
    | with_reducible assumption
    | intro _
    | with_reducible refine wr_keeps ?_
    | fail_if_no_progress with_reducible refine keeps_upd ?_ rfl rfl rfl rfl rfl rfl rfl rfl rfl rfl rfl rfl rfl rfl rfl rfl rfl rfl rfl rfl rfl

theorem ringEnable_keeps {σ : State} {k : Nat} {h : Option (Nat × Nat)} {s : State} (h_s : Keeps σ s) :
    Keeps σ (ringEnable k h s) := by
  unfold ringEnable
  repeat' first
    | with_reducible assumption
    | intro _
    | extract_lets
    | with_reducible refine keeps_ite ?_ ?_
    | with_reducible refine beginRing_keeps ?_
    | with_reducible refine ringUnread_keeps ?_
    | with_reducible refine ringHeader_keeps ?_
    | fail_if_no_progress with_reducible refine keeps_upd ?_ rfl rfl rfl rfl rfl rfl rfl rfl rfl rfl rfl rfl rfl rfl rfl rfl rfl rfl rfl rfl rfl
    | split
    | dsimp +zetaDelta only

theorem execRingEnable_keeps {σ : State} {k : Nat} {h : Option (Nat × Nat)} {s : State} (h_s : Keeps σ s) :
    ∃ τ, execRingEnable k h s = .next τ ∧ Keeps σ τ := by
  refine ⟨_, rfl, ?_⟩
  repeat' first
    | with_reducible assumption
    | intro _
    | with_reducible refine ringEnable_keeps ?_

theorem passTurn_keeps {σ : State} {r : Nat} {s : State} (h_s : Keeps σ s) :
    Keeps σ (passTurn r s) := by
  unfold passTurn
  repeat' first
    | with_reducible assumption
    | intro _
    | fail_if_no_progress with_reducible refine keeps_upd ?_ rfl rfl rfl rfl rfl rfl rfl rfl rfl rfl rfl rfl rfl rfl rfl rfl rfl rfl rfl rfl rfl

theorem waitEntry_keeps {σ : State} {r : Nat} {op : Nat} {e : BitVec 1024} {s : State} (h_s : Keeps σ s) :
    Keeps σ (waitEntry r op e s) := by
  unfold waitEntry
  repeat' first
    | with_reducible assumption
    | intro _
    | with_reducible refine keeps_ite ?_ ?_
    | with_reducible refine passTurn_keeps ?_
    | split

theorem passEntry_keeps {σ : State} {r : Nat} {code : Nat} {e : BitVec 1024} {s : State} (h_s : Keeps σ s) :
    Keeps σ (passEntry r code e s) := by
  unfold passEntry
  repeat' first
    | with_reducible assumption
    | intro _
    | extract_lets
    | with_reducible refine keeps_ite ?_ ?_
    | with_reducible refine mirrorCmd_keeps ?_
    | with_reducible refine sendWrPart_keeps ?_
    | with_reducible refine setCmdRing_keeps ?_
    | with_reducible refine passTurn_keeps ?_
    | fail_if_no_progress with_reducible refine keeps_upd ?_ rfl rfl rfl rfl rfl rfl rfl rfl rfl rfl rfl rfl rfl rfl rfl rfl rfl rfl rfl rfl rfl
    | split

theorem takeEntry_keeps {σ : State} {r : Nat} {op : Nat} {e : BitVec 1024} {code : Nat} {act : State → State} {s : State} (h_act : ∀ y0, Keeps σ y0 → Keeps σ (act y0)) (h_s : Keeps σ s) :
    Keeps σ (takeEntry r op e code act s) := by
  unfold takeEntry
  repeat' first
    | with_reducible assumption
    | with_reducible apply h_act
    | intro _
    | extract_lets
    | with_reducible refine keeps_ite ?_ ?_
    | with_reducible refine passEntry_keeps ?_
    | with_reducible refine putError_keeps ?_
    | split

theorem enqueue_keeps {σ : State} {q : Request} {s : State} (h_s : Keeps σ s) :
    Keeps σ (enqueue q s) := by
  unfold enqueue
  repeat' first
    | with_reducible assumption
    | intro _
    | fail_if_no_progress with_reducible refine keeps_upd ?_ rfl rfl rfl rfl rfl rfl rfl rfl rfl rfl rfl rfl rfl rfl rfl rfl rfl rfl rfl rfl rfl

theorem submitAct_keeps {σ : State} {e : BitVec 1024} {s : State} (h_s : Keeps σ s) :
    Keeps σ (submitAct e s) := by
  unfold submitAct
  repeat' first
    | with_reducible assumption
    | intro _
    | extract_lets
    | with_reducible refine keeps_ite ?_ ?_
    | with_reducible refine enqueue_keeps ?_
    | with_reducible refine modPfx_keeps ?_
    | with_reducible refine refuseHandle_keeps ?_
    | fail_if_no_progress with_reducible refine keeps_upd ?_ rfl rfl rfl rfl rfl rfl rfl rfl rfl rfl rfl rfl rfl rfl rfl rfl rfl rfl rfl rfl rfl
    | split
    | dsimp +zetaDelta only

theorem prefixCreateAct_keeps {σ : State} {e : BitVec 1024} {s : State} (h_s : Keeps σ s) :
    Keeps σ (prefixCreateAct e s) := by
  unfold prefixCreateAct
  repeat' first
    | with_reducible assumption
    | intro _
    | extract_lets
    | with_reducible refine keeps_ite ?_ ?_
    | with_reducible refine refuseHandle_keeps ?_
    | with_reducible refine enqueue_keeps ?_
    | fail_if_no_progress with_reducible refine keeps_upd ?_ rfl rfl rfl rfl rfl rfl rfl rfl rfl rfl rfl rfl rfl rfl rfl rfl rfl rfl rfl rfl rfl
    | split

theorem submit_keeps {σ : State} {r : Nat} {e : BitVec 1024} {s : State} (h_s : Keeps σ s) :
    Keeps σ (submit r e s) := by
  unfold submit
  repeat' first
    | with_reducible assumption
    | intro _
    | with_reducible refine takeEntry_keeps ?_ ?_
    | with_reducible refine submitAct_keeps ?_

theorem execSubmit_keeps {σ : State} {r : Nat} {e : BitVec 1024} {s : State} (h_s : Keeps σ s) :
    ∃ τ, execSubmit r e s = .next τ ∧ Keeps σ τ := by
  refine ⟨_, rfl, ?_⟩
  repeat' first
    | with_reducible assumption
    | intro _
    | with_reducible refine submit_keeps ?_

theorem prefixCreate_keeps {σ : State} {r : Nat} {e : BitVec 1024} {s : State} (h_s : Keeps σ s) :
    Keeps σ (prefixCreate r e s) := by
  unfold prefixCreate
  repeat' first
    | with_reducible assumption
    | intro _
    | with_reducible refine takeEntry_keeps ?_ ?_
    | with_reducible refine prefixCreateAct_keeps ?_

theorem execPrefixCreate_keeps {σ : State} {r : Nat} {e : BitVec 1024} {s : State} (h_s : Keeps σ s) :
    ∃ τ, execPrefixCreate r e s = .next τ ∧ Keeps σ τ := by
  refine ⟨_, rfl, ?_⟩
  repeat' first
    | with_reducible assumption
    | intro _
    | with_reducible refine prefixCreate_keeps ?_

theorem cancelAct_keeps {σ : State} {m : Nat} {out : Nat} {reqId : Nat} {target : Nat} {s : State} (h_s : Keeps σ s) :
    Keeps σ (cancelAct m out reqId target s) := by
  unfold cancelAct
  repeat' first
    | with_reducible assumption
    | intro _
    | with_reducible refine putError_keeps ?_
    | with_reducible refine endWhenQuiet_keeps ?_
    | with_reducible refine modRequest_keeps ?_
    | fail_if_no_progress with_reducible refine keeps_upd ?_ rfl rfl rfl rfl rfl rfl rfl rfl rfl rfl rfl rfl rfl rfl rfl rfl rfl rfl rfl rfl rfl
    | split

theorem cancel_keeps {σ : State} {r : Nat} {e : BitVec 1024} {s : State} (h_s : Keeps σ s) :
    Keeps σ (cancel r e s) := by
  unfold cancel
  repeat' first
    | with_reducible assumption
    | intro _
    | with_reducible refine takeEntry_keeps ?_ ?_
    | with_reducible refine cancelAct_keeps ?_

theorem execCancel_keeps {σ : State} {r : Nat} {e : BitVec 1024} {s : State} (h_s : Keeps σ s) :
    ∃ τ, execCancel r e s = .next τ ∧ Keeps σ τ := by
  refine ⟨_, rfl, ?_⟩
  repeat' first
    | with_reducible assumption
    | intro _
    | with_reducible refine cancel_keeps ?_

theorem prefixReleaseAct_keeps {σ : State} {m : Nat} {out : Nat} {reqId : Nat} {h : Nat} {s : State} (h_s : Keeps σ s) :
    Keeps σ (prefixReleaseAct m out reqId h s) := by
  unfold prefixReleaseAct
  repeat' first
    | with_reducible assumption
    | intro _
    | with_reducible refine putCmdDone_keeps ?_
    | with_reducible refine withdrawPfx_keeps ?_
    | with_reducible refine modPfx_keeps ?_
    | fail_if_no_progress with_reducible refine keeps_upd ?_ rfl rfl rfl rfl rfl rfl rfl rfl rfl rfl rfl rfl rfl rfl rfl rfl rfl rfl rfl rfl rfl
    | split

theorem prefixRelease_keeps {σ : State} {r : Nat} {e : BitVec 1024} {s : State} (h_s : Keeps σ s) :
    Keeps σ (prefixRelease r e s) := by
  unfold prefixRelease
  repeat' first
    | with_reducible assumption
    | intro _
    | with_reducible refine takeEntry_keeps ?_ ?_
    | with_reducible refine prefixReleaseAct_keeps ?_

theorem execPrefixRelease_keeps {σ : State} {r : Nat} {e : BitVec 1024} {s : State} (h_s : Keeps σ s) :
    ∃ τ, execPrefixRelease r e s = .next τ ∧ Keeps σ τ := by
  refine ⟨_, rfl, ?_⟩
  repeat' first
    | with_reducible assumption
    | intro _
    | with_reducible refine prefixRelease_keeps ?_

theorem outOfStep_keeps {σ : State} {e : LedgerEntry} {s : State} (h_s : Keeps σ s) :
    Keeps σ (outOfStep e s) := by
  unfold outOfStep
  repeat' first
    | with_reducible assumption
    | intro _
    | with_reducible refine forEach_keeps ?_ ?_
    | with_reducible refine modRequest_keeps ?_
    | fail_if_no_progress with_reducible refine keeps_upd ?_ rfl rfl rfl rfl rfl rfl rfl rfl rfl rfl rfl rfl rfl rfl rfl rfl rfl rfl rfl rfl rfl

theorem abandonStep_keeps {σ : State} {e : LedgerEntry} {s : State} (h_s : Keeps σ s) :
    Keeps σ (abandonStep e s) := by
  unfold abandonStep
  repeat' first
    | with_reducible assumption
    | intro _
    | with_reducible refine abandonLedger_keeps ?_
    | with_reducible refine outOfStep_keeps ?_
    | with_reducible refine forEach_keeps ?_ ?_
    | with_reducible refine discardKv_keeps ?_
    | with_reducible refine unreserve_keeps ?_

theorem stopCells_keeps {σ : State} {m : Nat} {s : State} (h_s : Keeps σ s) :
    Keeps σ (stopCells m s) := by
  unfold stopCells
  repeat' first
    | with_reducible assumption
    | intro _
    | with_reducible refine forEach_keeps ?_ ?_
    | with_reducible refine modCell_keeps ?_
    | fail_if_no_progress with_reducible refine keeps_upd ?_ rfl rfl rfl rfl rfl rfl rfl rfl rfl rfl rfl rfl rfl rfl rfl rfl rfl rfl rfl rfl rfl

theorem failSlot_keeps {σ : State} {m : Nat} {s : State} (h_s : Keeps σ s) :
    Keeps σ (failSlot m s) := by
  unfold failSlot
  repeat' first
    | with_reducible assumption
    | intro _
    | extract_lets
    | with_reducible refine forEach_keeps ?_ ?_
    | with_reducible refine abandonStep_keeps ?_
    | with_reducible refine wr_keeps ?_
    | with_reducible refine endRequest_keeps ?_
    | with_reducible refine modImage_keeps ?_
    | with_reducible refine stopCells_keeps ?_
    | fail_if_no_progress with_reducible refine keeps_upd ?_ rfl rfl rfl rfl rfl rfl rfl rfl rfl rfl rfl rfl rfl rfl rfl rfl rfl rfl rfl rfl rfl

theorem abandonCheck_keeps {σ : State} {m : Nat} {s : State} (h_s : Keeps σ s) :
    Keeps σ (abandonCheck m s) := by
  unfold abandonCheck
  repeat' first
    | with_reducible assumption
    | intro _
    | with_reducible refine keeps_ite ?_ ?_
    | with_reducible refine wr_keeps ?_
    | with_reducible refine dropFetches_keeps ?_
    | fail_if_no_progress with_reducible refine keeps_upd ?_ rfl rfl rfl rfl rfl rfl rfl rfl rfl rfl rfl rfl rfl rfl rfl rfl rfl rfl rfl rfl rfl
    | split

theorem endReceive_keeps {σ : State} {m : Nat} {status : Nat} {s : State} (h_s : Keeps σ s) :
    Keeps σ (endReceive m status s) := by
  unfold endReceive
  repeat' first
    | with_reducible assumption
    | intro _
    | with_reducible refine when_keeps ?_ ?_
    | with_reducible refine raise_keeps ?_
    | with_reducible refine putCmdDone_keeps ?_
    | with_reducible refine modModelSlot_keeps ?_
    | fail_if_no_progress with_reducible refine keeps_upd ?_ rfl rfl rfl rfl rfl rfl rfl rfl rfl rfl rfl rfl rfl rfl rfl rfl rfl rfl rfl rfl rfl
    | split

theorem endLoading_keeps {σ : State} {m : Nat} {status : Nat} {s : State} (h_s : Keeps σ s) :
    Keeps σ (endLoading m status s) := by
  unfold endLoading
  repeat' first
    | with_reducible assumption
    | intro _
    | extract_lets
    | with_reducible refine dropFetches_keeps ?_
    | with_reducible refine modModelSlot_keeps ?_
    | with_reducible refine when_keeps ?_ ?_
    | with_reducible refine raise_keeps ?_
    | with_reducible refine putCmdDone_keeps ?_
    | fail_if_no_progress with_reducible refine keeps_upd ?_ rfl rfl rfl rfl rfl rfl rfl rfl rfl rfl rfl rfl rfl rfl rfl rfl rfl rfl rfl rfl rfl
    | split
    | dsimp +zetaDelta only

theorem beginClose_keeps {σ : State} {m : Nat} {s : State} (h_s : Keeps σ s) :
    Keeps σ (beginClose m s) := by
  unfold beginClose
  repeat' first
    | with_reducible assumption
    | intro _
    | extract_lets
    | with_reducible refine modModelSlot_keeps ?_
    | with_reducible refine forEach_keeps ?_ ?_
    | with_reducible refine endRequest_keeps ?_
    | with_reducible refine endWhenQuiet_keeps ?_
    | with_reducible refine withdrawPfx_keeps ?_
    | with_reducible refine tuneEvict_keeps ?_
    | with_reducible refine endLoading_keeps ?_
    | with_reducible refine endReceive_keeps ?_
    | with_reducible refine abandonCheck_keeps ?_
    | fail_if_no_progress with_reducible refine keeps_upd ?_ rfl rfl rfl rfl rfl rfl rfl rfl rfl rfl rfl rfl rfl rfl rfl rfl rfl rfl rfl rfl rfl

theorem zeroCell_keeps {σ : State} {c : Nat} {s : State} (h_s : Keeps σ s) :
    Keeps σ (zeroCell c s) := by
  unfold zeroCell
  exact modCell_keeps (cellMem_keeps h_s fun hm => Table.wf_clear _ _ _ _ hm)

theorem zeroField_keeps {σ : State} {f : Nat} {s : State} (h_s : Keeps σ s) :
    Keeps σ (zeroField f s) := by
  unfold zeroField
  repeat' first
    | with_reducible assumption
    | intro _
    | with_reducible refine forEach_keeps ?_ ?_
    | with_reducible refine zeroCell_keeps ?_

theorem dropKv_keeps {σ : State} {m : Nat} {s : State} (h_s : Keeps σ s) :
    Keeps σ (dropKv m s) := by
  unfold dropKv
  dsimp only
  exact keeps_tables (forEach_keeps (fun _ _ h => finishPfx_keeps h) h_s) rfl rfl rfl rfl rfl rfl
    fun t => { t with seqs := Table.wf_filter _ _ _ t.seqs }

theorem freeTables_keeps {σ s : State} {sched : Sched} {prec : Prec} {svc : Svc} (h : Keeps σ s)
    (h1 : Table.wf (fun _ => Image.reset) s.sched.images = true → Table.wf (fun _ => Image.reset) sched.images = true)
    (h2 : Table.wf (fun _ => LayerPrec.reset) s.prec.layers = true → Table.wf (fun _ => LayerPrec.reset) prec.layers = true)
    (h3 : Table.wf (fun _ => ModelSlot.reset) s.svc.models = true → Table.wf (fun _ => ModelSlot.reset) svc.models = true)
    (h4 : svc.out = s.svc.out) (h5 : svc.cmd = s.svc.cmd) (h6 : prec.recipes = s.prec.recipes) : Keeps σ { s with sched := sched, prec := prec, svc := svc } :=
  keeps_tables h rfl rfl rfl rfl rfl rfl fun t => { t with
    images := h1 t.images, layers := h2 t.layers, models := h3 t.models, out := h4 ▸ t.out, cmd := h5 ▸ t.cmd, recipes := h6 ▸ t.recipes }

theorem freeSlot_keeps {σ : State} {m : Nat} {s : State} (h_s : Keeps σ s) :
    Keeps σ (freeSlot m s) := by
  unfold freeSlot
  refine wr_keeps (wr_keeps (wr_keeps (wr_keeps (wr_keeps ?_))))
  exact freeTables_keeps (forEach_keeps (fun _ _ h => stackZero_keeps h) (stackZero_keeps (forEach_keeps (fun _ _ h => zeroField_keeps h)
    (disablePool_keeps (dropKv_keeps (stopCells_keeps (keepTele_keeps h_s))))))) (fun w => Table.wf_clear _ _ _ _ w) (fun w => by dsimp only; exact Table.wf_mapVals _ _ _ w)
    (fun w => Table.wf_clear _ _ _ _ w) rfl rfl rfl

theorem claimSlot_keeps {σ : State} {o : Opening} {fs : List Nat} {base : Nat} {s : State} (h_s : Keeps σ s) :
    Keeps σ (claimSlot o fs base s) := by
  unfold claimSlot
  repeat' first
    | with_reducible assumption
    | intro _
    | extract_lets
    | with_reducible refine setModelSlot_keeps ?_
    | with_reducible refine wr_keeps ?_
    | with_reducible refine putCmdDone_keeps ?_
    | fail_if_no_progress with_reducible refine keeps_upd ?_ rfl rfl rfl rfl rfl rfl rfl rfl rfl rfl rfl rfl rfl rfl rfl rfl rfl rfl rfl rfl rfl
    | with_reducible refine foldl_keeps ?_ ?_

theorem tryClaim_keeps {σ : State} {o : Opening} {s : State} (h_s : Keeps σ s) :
    Keeps σ (tryClaim o s) := by
  unfold tryClaim
  repeat' first
    | with_reducible assumption
    | intro _
    | with_reducible refine claimSlot_keeps ?_
    | with_reducible refine putCmdDone_keeps ?_
    | fail_if_no_progress with_reducible refine keeps_upd ?_ rfl rfl rfl rfl rfl rfl rfl rfl rfl rfl rfl rfl rfl rfl rfl rfl rfl rfl rfl rfl rfl
    | split

theorem openAct_keeps {σ : State} {e : BitVec 1024} {s : State} (h_s : Keeps σ s) :
    Keeps σ (openAct e s) := by
  unfold openAct
  repeat' first
    | with_reducible assumption
    | intro _
    | extract_lets
    | with_reducible refine keeps_ite ?_ ?_
    | with_reducible refine tryClaim_keeps ?_
    | with_reducible refine raise_keeps ?_
    | with_reducible refine forEach_keeps ?_ ?_
    | with_reducible refine beginClose_keeps ?_
    | fail_if_no_progress with_reducible refine keeps_upd ?_ rfl rfl rfl rfl rfl rfl rfl rfl rfl rfl rfl rfl rfl rfl rfl rfl rfl rfl rfl rfl rfl
    | split
    | dsimp +zetaDelta only

theorem openModel_keeps {σ : State} {r : Nat} {e : BitVec 1024} {s : State} (h_s : Keeps σ s) :
    Keeps σ (openModel r e s) := by
  unfold openModel
  repeat' first
    | with_reducible assumption
    | intro _
    | with_reducible refine takeEntry_keeps ?_ ?_
    | with_reducible refine openAct_keeps ?_

theorem execOpenModel_keeps {σ : State} {r : Nat} {e : BitVec 1024} {s : State} (h_s : Keeps σ s) :
    ∃ τ, execOpenModel r e s = .next τ ∧ Keeps σ τ := by
  refine ⟨_, rfl, ?_⟩
  repeat' first
    | with_reducible assumption
    | intro _
    | with_reducible refine openModel_keeps ?_

theorem closeAct_keeps {σ : State} {e : BitVec 1024} {s : State} (h_s : Keeps σ s) :
    Keeps σ (closeAct e s) := by
  unfold closeAct
  repeat' first
    | with_reducible assumption
    | intro _
    | extract_lets
    | with_reducible refine keeps_ite ?_ ?_
    | with_reducible refine modModelSlot_keeps ?_
    | with_reducible refine beginClose_keeps ?_
    | fail_if_no_progress with_reducible refine keeps_upd ?_ rfl rfl rfl rfl rfl rfl rfl rfl rfl rfl rfl rfl rfl rfl rfl rfl rfl rfl rfl rfl rfl
    | split

theorem closeModel_keeps {σ : State} {r : Nat} {e : BitVec 1024} {s : State} (h_s : Keeps σ s) :
    Keeps σ (closeModel r e s) := by
  unfold closeModel
  repeat' first
    | with_reducible assumption
    | intro _
    | with_reducible refine takeEntry_keeps ?_ ?_
    | with_reducible refine closeAct_keeps ?_

theorem execCloseModel_keeps {σ : State} {r : Nat} {e : BitVec 1024} {s : State} (h_s : Keeps σ s) :
    ∃ τ, execCloseModel r e s = .next τ ∧ Keeps σ τ := by
  refine ⟨_, rfl, ?_⟩
  repeat' first
    | with_reducible assumption
    | intro _
    | with_reducible refine closeModel_keeps ?_

theorem resumeOpen_keeps {σ : State} {m : Nat} {s : State} (h_s : Keeps σ s) :
    Keeps σ (resumeOpen m s) := by
  unfold resumeOpen
  repeat' first
    | with_reducible assumption
    | intro _
    | extract_lets
    | with_reducible refine keeps_ite ?_ ?_
    | with_reducible refine tryClaim_keeps ?_
    | fail_if_no_progress with_reducible refine keeps_upd ?_ rfl rfl rfl rfl rfl rfl rfl rfl rfl rfl rfl rfl rfl rfl rfl rfl rfl rfl rfl rfl rfl
    | split
    | dsimp +zetaDelta only

theorem closeComplete_keeps {σ : State} {m : Nat} {s : State} (h_s : Keeps σ s) :
    Keeps σ (closeComplete m s) := by
  unfold closeComplete
  repeat' first
    | with_reducible assumption
    | intro _
    | extract_lets
    | with_reducible refine keeps_ite ?_ ?_
    | with_reducible refine resumeOpen_keeps ?_
    | with_reducible refine forEach_keeps ?_ ?_
    | with_reducible refine putCmdDone_keeps ?_
    | with_reducible refine freeSlot_keeps ?_
    | split

theorem pinnedWrite_keeps {σ : State} {m : Nat} {b : Bool} {s : State} (h_s : Keeps σ s) :
    Keeps σ (pinnedWrite m b s) := by
  unfold pinnedWrite
  repeat' first
    | with_reducible assumption
    | intro _
    | with_reducible refine keeps_ite ?_ ?_
    | with_reducible refine wrB_keeps ?_
    | split

theorem execPinnedWrite_keeps {σ : State} {m : Nat} {b : Bool} {s : State} (h_s : Keeps σ s) :
    ∃ τ, execPinnedWrite m b s = .next τ ∧ Keeps σ τ := by
  refine ⟨_, rfl, ?_⟩
  repeat' first
    | with_reducible assumption
    | intro _
    | with_reducible refine pinnedWrite_keeps ?_

end Sys2Proof.Machine
end

