-- ==== Sys2Proof/Laws/KeepLoading.lean ====
section
/-!
SUPPORT. What `Keeps` says, for every function of Machine/Loading.lean that changes the state.
-/
set_option Elab.async false
namespace Sys2Proof.Machine
open Sys2Proof

theorem chargeLoad_keeps {σ : State} {c : Nat} {n : Nat} {s : State} (h_s : Keeps σ s) :
    Keeps σ (chargeLoad c n s) := by
  unfold chargeLoad
  repeat' first
    | with_reducible assumption
    | intro _
    | with_reducible refine chargeEnergy_keeps ?_
    | with_reducible refine charge_keeps ?_

theorem loadWord_keeps {σ : State} {c : Nat} {a : Nat} {d : Word} {s : State} (h_s : Keeps σ s) :
    Keeps σ (loadWord c a d s) := by
  unfold loadWord
  have h1 := writeCfg_keeps (c := c) (addr := a) (d := d) (env := .quiet) h_s
  exact ⟨h1.pending, h1.free, h1.fuses, fun w => { h1.tables w with links := (h_s.tables w).links },
    fun w => ⟨(h1.memory w).cellMem, (h1.memory w).stackMem, (h1.memory w).mbx⟩⟩

theorem loadWords_keeps {σ : State} {c : Nat} {a : Nat} {g : Granule} {s : State} (h_s : Keeps σ s) :
    Keeps σ (loadWords c a g s) := by
  unfold loadWords
  repeat' first
    | with_reducible assumption
    | intro _
    | with_reducible refine forEach_keeps ?_ ?_
    | with_reducible refine loadWord_keeps ?_

theorem placeGranule_keeps {σ : State} {x : Slice} {o : Nat} {g : Granule} {s : State} (h_s : Keeps σ s) :
    Keeps σ (placeGranule x o g s) := by
  unfold placeGranule
  repeat' first
    | with_reducible assumption
    | intro _
    | with_reducible refine keeps_ite ?_ ?_
    | with_reducible refine loadGranule_keeps ?_
    | with_reducible refine loadWords_keeps ?_
    | with_reducible refine setStackGranule_keeps ?_
    | split

theorem placeGranules_keeps {σ : State} {x : Slice} {x0 : Nat} {x1 : List Granule} {x2 : State} (h_x2 : Keeps σ x2) :
    Keeps σ (placeGranules x x0 x1 x2) := by
  induction x1 generalizing x x0 x2 with
  | nil => (unfold placeGranules; repeat' first
      | with_reducible assumption
      | intro _
      | with_reducible refine placeGranule_keeps ?_)
  | cons _ _ ih => (unfold placeGranules; repeat' first
      | with_reducible assumption
      | with_reducible apply ih
      | (injections; subst_vars; with_reducible apply ih)
      | intro _
      | with_reducible refine placeGranule_keeps ?_)

theorem placeSegment_keeps {σ : State} {x : Slice} {o : Nat} {gs : List Granule} {s : State} (h_s : Keeps σ s) :
    Keeps σ (placeSegment x o gs s) := by
  unfold placeSegment
  repeat' first
    | with_reducible assumption
    | intro _
    | extract_lets
    | with_reducible refine keeps_ite ?_ ?_
    | with_reducible refine charge_keeps ?_
    | with_reducible refine chargeLoad_keeps ?_
    | with_reducible refine placeGranules_keeps ?_
    | with_reducible refine countSpan_keeps ?_
    | with_reducible refine chargeEnergy_keeps ?_
    | split

theorem placeAll_keeps {σ : State} {slices : List Slice} {x0 : List (Option Segment)} {x1 : State} (h_x1 : Keeps σ x1) :
    Keeps σ (placeAll slices x0 x1).2 := by
  induction x0 generalizing slices x1 with
  | nil => (unfold placeAll; repeat' first
      | with_reducible assumption
      | intro _
      | with_reducible refine placeSegment_keeps ?_
      | fail_if_no_progress with_reducible refine keeps_upd ?_ rfl rfl rfl rfl rfl rfl rfl rfl rfl rfl rfl rfl rfl rfl rfl rfl rfl rfl rfl rfl rfl
      | with_reducible refine keeps_snd_ite ?_ ?_
      | split)
  | cons _ _ ih => (unfold placeAll; repeat' first
      | with_reducible assumption
      | with_reducible apply ih
      | (injections; subst_vars; with_reducible apply ih)
      | intro _
      | with_reducible refine placeSegment_keeps ?_
      | fail_if_no_progress with_reducible refine keeps_upd ?_ rfl rfl rfl rfl rfl rfl rfl rfl rfl rfl rfl rfl rfl rfl rfl rfl rfl rfl rfl rfl rfl
      | with_reducible refine keeps_snd_ite ?_ ?_
      | split)

theorem reloadSlot_keeps {σ : State} {m : Nat} {s : State} (h_s : Keeps σ s) :
    Keeps σ (reloadSlot m s) := by
  unfold reloadSlot
  repeat' first
    | with_reducible assumption
    | intro _
    | with_reducible refine keeps_ite ?_ ?_
    | with_reducible refine wr_keeps ?_
    | split

theorem sendPart_keeps {σ : State} {p : PassPart} {s : State} (h_s : Keeps σ s) :
    Keeps σ (sendPart p s) := by
  unfold sendPart
  repeat' first
    | with_reducible assumption
    | intro _
    | extract_lets
    | with_reducible refine sendSpan_keeps ?_
    | with_reducible refine chargeEnergy_keeps ?_
    | with_reducible refine charge_keeps ?_
    | fail_if_no_progress with_reducible refine keeps_upd ?_ rfl rfl rfl rfl rfl rfl rfl rfl rfl rfl rfl rfl rfl rfl rfl rfl rfl rfl rfl rfl rfl

theorem flushPassList_keeps {σ : State} {x0 : List PassPart} {x1 : State} (h_x1 : Keeps σ x1) :
    Keeps σ (flushPassList x0 x1).2 := by
  induction x0 generalizing x1 with
  | nil => (unfold flushPassList; repeat' first
      | with_reducible assumption
      | intro _
      | with_reducible refine keeps_ite ?_ ?_
      | with_reducible refine sendPart_keeps ?_
      | with_reducible refine keeps_snd_ite ?_ ?_
      | split)
  | cons _ _ ih => (unfold flushPassList; repeat' first
      | with_reducible assumption
      | with_reducible apply ih
      | (injections; subst_vars; with_reducible apply ih)
      | intro _
      | with_reducible refine keeps_ite ?_ ?_
      | with_reducible refine sendPart_keeps ?_
      | with_reducible refine keeps_snd_ite ?_ ?_
      | split)

theorem flushPass_keeps {σ : State} {s : State} (h_s : Keeps σ s) :
    Keeps σ (flushPass s) := by
  unfold flushPass
  repeat' first
    | with_reducible assumption
    | intro _
    | extract_lets
    | with_reducible refine flushPassList_keeps ?_
    | fail_if_no_progress with_reducible refine keeps_upd ?_ rfl rfl rfl rfl rfl rfl rfl rfl rfl rfl rfl rfl rfl rfl rfl rfl rfl rfl rfl rfl rfl

theorem passAll_keeps {σ : State} {m : Nat} {manifest : Nat} {key : Nat × Nat} {segs : List (Option Segment)} {s : State} (h_s : Keeps σ s) :
    Keeps σ (passAll m manifest key segs s) := by
  unfold passAll
  repeat' first
    | with_reducible assumption
    | intro _
    | extract_lets
    | with_reducible refine flushPass_keeps ?_
    | fail_if_no_progress with_reducible refine keeps_upd ?_ rfl rfl rfl rfl rfl rfl rfl rfl rfl rfl rfl rfl rfl rfl rfl rfl rfl rfl rfl rfl rfl
    | split
    | dsimp +zetaDelta only

theorem loadPlaced_keeps {σ : State} {m : Nat} {key : Nat × Nat} {s : State} (h_s : Keeps σ s) :
    Keeps σ (loadPlaced m key s) := by
  unfold loadPlaced
  repeat' first
    | with_reducible assumption
    | intro _
    | extract_lets
    | with_reducible refine keeps_ite ?_ ?_
    | with_reducible refine modModelSlot_keeps ?_
    | with_reducible refine endLoading_keeps ?_
    | fail_if_no_progress with_reducible refine keeps_upd ?_ rfl rfl rfl rfl rfl rfl rfl rfl rfl rfl rfl rfl rfl rfl rfl rfl rfl rfl rfl rfl rfl
    | split

theorem loadNext_keeps {σ : State} {m : Nat} {s : State} (h_s : Keeps σ s) :
    Keeps σ (loadNext m s) := by
  unfold loadNext
  repeat' first
    | with_reducible assumption
    | intro _
    | with_reducible refine keeps_ite ?_ ?_
    | with_reducible refine loadPlaced_keeps ?_
    | with_reducible refine endLoading_keeps ?_
    | with_reducible refine modModelSlot_keeps ?_
    | with_reducible refine startFetch_keeps ?_
    | fail_if_no_progress with_reducible refine keeps_upd ?_ rfl rfl rfl rfl rfl rfl rfl rfl rfl rfl rfl rfl rfl rfl rfl rfl rfl rfl rfl rfl rfl
    | split

theorem dropEmpty_keeps {σ : State} {m : Nat} {s : State} (h_s : Keeps σ s) :
    Keeps σ (dropEmpty m s) := by
  unfold dropEmpty
  repeat' first
    | with_reducible assumption
    | intro _
    | with_reducible refine modModelSlot_keeps ?_
    | fail_if_no_progress with_reducible refine keeps_upd ?_ rfl rfl rfl rfl rfl rfl rfl rfl rfl rfl rfl rfl rfl rfl rfl rfl rfl rfl rfl rfl rfl

theorem loadList_keeps {σ : State} {m : Nat} {s : State} (h_s : Keeps σ s) :
    Keeps σ (loadList m s) := by
  unfold loadList
  repeat' first
    | with_reducible assumption
    | intro _
    | extract_lets
    | with_reducible refine keeps_ite ?_ ?_
    | with_reducible refine loadNext_keeps ?_
    | with_reducible refine startFetch_keeps ?_
    | split

theorem loadSegment_keeps {σ : State} {m : Nat} {key : Nat × Nat} {g : SegRec} {gs : List Granule} {s : State} (h_s : Keeps σ s) :
    Keeps σ (loadSegment m key g gs s) := by
  unfold loadSegment
  repeat' first
    | with_reducible assumption
    | intro _
    | extract_lets
    | with_reducible refine keeps_ite ?_ ?_
    | with_reducible refine modModelSlot_keeps ?_
    | with_reducible refine placeSegment_keeps ?_
    | with_reducible refine passAll_keeps ?_
    | fail_if_no_progress with_reducible refine keeps_upd ?_ rfl rfl rfl rfl rfl rfl rfl rfl rfl rfl rfl rfl rfl rfl rfl rfl rfl rfl rfl rfl rfl
    | split
    | dsimp +zetaDelta only

theorem loadPartRead_keeps {σ : State} {m : Nat} {part : Nat} {bs : List Byte} {s : State} (h_s : Keeps σ s) :
    Keeps σ (loadPartRead m part bs s) := by
  unfold loadPartRead
  repeat' first
    | with_reducible assumption
    | intro _
    | with_reducible refine loadList_keeps ?_
    | with_reducible refine modModelSlot_keeps ?_
    | with_reducible refine loadNext_keeps ?_
    | with_reducible refine dropEmpty_keeps ?_
    | with_reducible refine loadSegment_keeps ?_
    | fail_if_no_progress with_reducible refine keeps_upd ?_ rfl rfl rfl rfl rfl rfl rfl rfl rfl rfl rfl rfl rfl rfl rfl rfl rfl rfl rfl rfl rfl
    | split

theorem loadAct_keeps {σ : State} {e : BitVec 1024} {s : State} (h_s : Keeps σ s) :
    Keeps σ (loadAct e s) := by
  unfold loadAct
  repeat' first
    | with_reducible assumption
    | intro _
    | extract_lets
    | with_reducible refine keeps_ite ?_ ?_
    | with_reducible refine modModelSlot_keeps ?_
    | with_reducible refine reloadSlot_keeps ?_
    | with_reducible refine loadList_keeps ?_
    | with_reducible refine startFetch_keeps ?_
    | fail_if_no_progress with_reducible refine keeps_upd ?_ rfl rfl rfl rfl rfl rfl rfl rfl rfl rfl rfl rfl rfl rfl rfl rfl rfl rfl rfl rfl rfl
    | split

theorem resumeLoads_keeps {σ : State} {s : State} (h_s : Keeps σ s) :
    Keeps σ (resumeLoads s) := by
  unfold resumeLoads
  repeat' first
    | with_reducible assumption
    | intro _
    | with_reducible refine forEach_keeps ?_ ?_
    | with_reducible refine when_keeps ?_ ?_
    | with_reducible refine loadNext_keeps ?_

theorem loadWeights_keeps {σ : State} {r : Nat} {e : BitVec 1024} {s : State} (h_s : Keeps σ s) :
    Keeps σ (loadWeights r e s) := by
  unfold loadWeights
  repeat' first
    | with_reducible assumption
    | intro _
    | with_reducible refine keeps_ite ?_ ?_
    | with_reducible refine waitEntry_keeps ?_
    | with_reducible refine takeEntry_keeps ?_ ?_
    | with_reducible refine loadAct_keeps ?_
    | split

theorem execLoadWeights_keeps {σ : State} {r : Nat} {lower : BitVec 512} {upper : BitVec 512} {s : State} (h_s : Keeps σ s) :
    ∃ τ, execLoadWeights r lower upper s = .next τ ∧ Keeps σ τ := by
  refine ⟨_, rfl, ?_⟩
  repeat' first
    | with_reducible assumption
    | intro _
    | with_reducible refine loadWeights_keeps ?_

theorem fetchSlices_keeps {σ : State} {m : Nat} {s : State} (h_s : Keeps σ s) :
    Keeps σ (fetchSlices m s) := by
  unfold fetchSlices
  repeat' first
    | with_reducible assumption
    | intro _
    | extract_lets
    | with_reducible refine keeps_ite ?_ ?_
    | with_reducible refine readTokens_keeps ?_
    | split

theorem receiveAct_keeps {σ : State} {e : BitVec 1024} {s : State} (h_s : Keeps σ s) :
    Keeps σ (receiveAct e s) := by
  unfold receiveAct
  repeat' first
    | with_reducible assumption
    | intro _
    | extract_lets
    | with_reducible refine keeps_ite ?_ ?_
    | with_reducible refine fetchSlices_keeps ?_
    | with_reducible refine modModelSlot_keeps ?_
    | with_reducible refine reloadSlot_keeps ?_
    | fail_if_no_progress with_reducible refine keeps_upd ?_ rfl rfl rfl rfl rfl rfl rfl rfl rfl rfl rfl rfl rfl rfl rfl rfl rfl rfl rfl rfl rfl
    | split

theorem loadReceive_keeps {σ : State} {r : Nat} {e : BitVec 1024} {s : State} (h_s : Keeps σ s) :
    Keeps σ (loadReceive r e s) := by
  unfold loadReceive
  repeat' first
    | with_reducible assumption
    | intro _
    | with_reducible refine takeEntry_keeps ?_ ?_
    | with_reducible refine receiveAct_keeps ?_

theorem execLoadReceive_keeps {σ : State} {r : Nat} {e : BitVec 1024} {s : State} (h_s : Keeps σ s) :
    ∃ τ, execLoadReceive r e s = .next τ ∧ Keeps σ τ := by
  refine ⟨_, rfl, ?_⟩
  repeat' first
    | with_reducible assumption
    | intro _
    | with_reducible refine loadReceive_keeps ?_

theorem loadReceiveTimeout_keeps {σ : State} {m : Nat} {s : State} (h_s : Keeps σ s) :
    Keeps σ (loadReceiveTimeout m s) := by
  unfold loadReceiveTimeout
  repeat' first
    | with_reducible assumption
    | intro _
    | with_reducible refine keeps_ite ?_ ?_
    | with_reducible refine endReceive_keeps ?_
    | fail_if_no_progress with_reducible refine keeps_upd ?_ rfl rfl rfl rfl rfl rfl rfl rfl rfl rfl rfl rfl rfl rfl rfl rfl rfl rfl rfl rfl rfl
    | split

theorem execLoadReceiveTimeout_keeps {σ : State} {m : Nat} {s : State} (h_s : Keeps σ s) :
    ∃ τ, execLoadReceiveTimeout m s = .next τ ∧ Keeps σ τ := by
  refine ⟨_, rfl, ?_⟩
  repeat' first
    | with_reducible assumption
    | intro _
    | with_reducible refine loadReceiveTimeout_keeps ?_

theorem sliceReads_keeps {σ : State} {envs : CellEnvs} {x : Slice} {s : State} (h_s : Keeps σ s) :
    Keeps σ (sliceReads envs x s) := by
  unfold sliceReads
  repeat' first
    | with_reducible assumption
    | intro _
    | extract_lets
    | with_reducible refine keeps_ite ?_ ?_
    | with_reducible refine charge_keeps ?_
    | with_reducible refine chargeLoad_keeps ?_
    | with_reducible refine loadReads_keeps ?_
    | with_reducible refine countSpan_keeps ?_
    | with_reducible refine chargeEnergy_keeps ?_
    | split

theorem writeHost_keeps {σ : State} {a : Nat} {g : Granule} {s : State} (h_s : Keeps σ s) :
    Keeps σ (writeHost a g s) := by
  unfold writeHost
  repeat' first
    | with_reducible assumption
    | intro _
    | extract_lets
    | with_reducible refine keeps_ite ?_ ?_
    | with_reducible refine sendWr_keeps ?_
    | with_reducible refine sendWrPart_keeps ?_
    | split

theorem writeHostAll_keeps {σ : State} {x0 : Nat} {x1 : List Granule} {x2 : State} (h_x2 : Keeps σ x2) :
    Keeps σ (writeHostAll x0 x1 x2) := by
  induction x1 generalizing x0 x2 with
  | nil => (unfold writeHostAll; repeat' first
      | with_reducible assumption
      | intro _
      | with_reducible refine writeHost_keeps ?_)
  | cons _ _ ih => (unfold writeHostAll; repeat' first
      | with_reducible assumption
      | with_reducible apply ih
      | (injections; subst_vars; with_reducible apply ih)
      | intro _
      | with_reducible refine writeHost_keeps ?_)

theorem readbackAct_keeps {σ : State} {envs : CellEnvs} {e : BitVec 1024} {s : State} (h_s : Keeps σ s) :
    Keeps σ (readbackAct envs e s) := by
  unfold readbackAct
  repeat' first
    | with_reducible assumption
    | intro _
    | extract_lets
    | with_reducible refine forEach_keeps ?_ ?_
    | with_reducible refine sliceReads_keeps ?_
    | with_reducible refine putCmdDone_keeps ?_
    | with_reducible refine writeHostAll_keeps ?_

theorem readback_keeps {σ : State} {r : Nat} {x : ReadbackTake} {s : State} (h_s : Keeps σ s) :
    Keeps σ (readback r x s) := by
  unfold readback
  repeat' first
    | with_reducible assumption
    | intro _
    | extract_lets
    | with_reducible refine keeps_ite ?_ ?_
    | with_reducible refine waitEntry_keeps ?_
    | with_reducible refine takeEntry_keeps ?_ ?_
    | with_reducible refine readbackAct_keeps ?_
    | split

theorem execReadback_keeps {σ : State} {r : Nat} {x : ReadbackTake} {s : State} (h_s : Keeps σ s) :
    ∃ τ, execReadback r x s = .next τ ∧ Keeps σ τ := by
  refine ⟨_, rfl, ?_⟩
  repeat' first
    | with_reducible assumption
    | intro _
    | with_reducible refine readback_keeps ?_

theorem fillKv_keeps {σ : State} {q : Request} {s : State} (h_s : Keeps σ s) :
    Keeps σ (fillKv q s) := by
  unfold fillKv
  repeat' first
    | with_reducible assumption
    | intro _
    | extract_lets
    | fail_if_no_progress with_reducible refine keeps_upd ?_ rfl rfl rfl rfl rfl rfl rfl rfl rfl rfl rfl rfl rfl rfl rfl rfl rfl rfl rfl rfl rfl
    | split
    | dsimp +zetaDelta only

theorem hotWindowFill_keeps {σ : State} {id : Nat} {s : State} (h_s : Keeps σ s) :
    Keeps σ (hotWindowFill id s) := by
  unfold hotWindowFill
  repeat' first
    | with_reducible assumption
    | intro _
    | extract_lets
    | with_reducible refine keeps_ite ?_ ?_
    | with_reducible refine charge_keeps ?_
    | with_reducible refine chargeEnergy_keeps ?_
    | with_reducible refine modRequest_keeps ?_
    | with_reducible refine forEach_keeps ?_ ?_
    | with_reducible refine countSpan_keeps ?_
    | with_reducible refine fillKv_keeps ?_
    | fail_if_no_progress with_reducible refine keeps_upd ?_ rfl rfl rfl rfl rfl rfl rfl rfl rfl rfl rfl rfl rfl rfl rfl rfl rfl rfl rfl rfl rfl
    | split
    | dsimp +zetaDelta only

theorem execHotWindowFill_keeps {σ : State} {id : Nat} {s : State} (h_s : Keeps σ s) :
    ∃ τ, execHotWindowFill id s = .next τ ∧ Keeps σ τ := by
  refine ⟨_, rfl, ?_⟩
  repeat' first
    | with_reducible assumption
    | intro _
    | with_reducible refine hotWindowFill_keeps ?_

end Sys2Proof.Machine
end

