-- ==== Sys2Proof/Laws/KeepSteps.lean ====
section
/-!
SUPPORT. What `Keeps` says, for every function of Machine/Steps.lean that changes the state.
-/
set_option Elab.async false
namespace Sys2Proof.Machine
open Sys2Proof

theorem addTele_keeps {σ : State} {m : Nat} {k : Nat} {n : Nat} {s : State} (h_s : Keeps σ s) :
    Keeps σ (addTele m k n s) := by
  unfold addTele
  repeat' first
    | with_reducible assumption
    | intro _
    | with_reducible refine modModelSlot_keeps ?_
    | fail_if_no_progress with_reducible refine keeps_upd ?_ rfl rfl rfl rfl rfl rfl rfl rfl rfl rfl rfl rfl rfl rfl rfl rfl rfl rfl rfl rfl rfl

theorem joinStep_keeps {σ : State} {p : Request × StepSeq} {s : State} (h_s : Keeps σ s) :
    Keeps σ (joinStep p s) := by
  unfold joinStep
  repeat' first
    | with_reducible assumption
    | intro _
    | extract_lets
    | with_reducible refine keeps_ite ?_ ?_
    | with_reducible refine modRequest_keeps ?_
    | with_reducible refine when_keeps ?_ ?_
    | with_reducible refine reserveEntry_keeps ?_
    | fail_if_no_progress with_reducible refine keeps_upd ?_ rfl rfl rfl rfl rfl rfl rfl rfl rfl rfl rfl rfl rfl rfl rfl rfl rfl rfl rfl rfl rfl
    | split

theorem formStep_keeps {σ : State} {m : Nat} {launch : Nat} {entry : Nat} {l : List (Request × StepSeq)} {s : State} (h_s : Keeps σ s) :
    Keeps σ (formStep m launch entry l s) := by
  unfold formStep
  repeat' first
    | with_reducible assumption
    | intro _
    | extract_lets
    | with_reducible refine showLedger_keeps ?_
    | with_reducible refine forEach_keeps ?_ ?_
    | with_reducible refine joinStep_keeps ?_
    | with_reducible refine addTele_keeps ?_
    | with_reducible refine modModelSlot_keeps ?_
    | fail_if_no_progress with_reducible refine keeps_upd ?_ rfl rfl rfl rfl rfl rfl rfl rfl rfl rfl rfl rfl rfl rfl rfl rfl rfl rfl rfl rfl rfl

theorem relaunch_keeps {σ : State} {e : LedgerEntry} {launch : Nat} {s : State} (h_s : Keeps σ s) :
    Keeps σ (relaunch e launch s) := by
  unfold relaunch
  repeat' first
    | with_reducible assumption
    | intro _
    | with_reducible refine addTele_keeps ?_
    | with_reducible refine bump_keeps ?_
    | with_reducible refine modLedger_keeps ?_
    | fail_if_no_progress with_reducible refine keeps_upd ?_ rfl rfl rfl rfl rfl rfl rfl rfl rfl rfl rfl rfl rfl rfl rfl rfl rfl rfl rfl rfl rfl

theorem splitStep_keeps {σ : State} {e : LedgerEntry} {s : State} (h_s : Keeps σ s) :
    Keeps σ (splitStep e s) := by
  unfold splitStep
  repeat' first
    | with_reducible assumption
    | intro _
    | extract_lets
    | with_reducible refine keeps_ite ?_ ?_
    | with_reducible refine modLedger_keeps ?_
    | with_reducible refine forEach_keeps ?_ ?_
    | with_reducible refine showLedger_keeps ?_
    | fail_if_no_progress with_reducible refine keeps_upd ?_ rfl rfl rfl rfl rfl rfl rfl rfl rfl rfl rfl rfl rfl rfl rfl rfl rfl rfl rfl rfl rfl
    | split
    | dsimp +zetaDelta only

theorem markReplay_keeps {σ : State} {e : LedgerEntry} {s : State} (h_s : Keeps σ s) :
    Keeps σ (markReplay e s) := by
  unfold markReplay
  repeat' first
    | with_reducible assumption
    | intro _
    | extract_lets
    | with_reducible refine keeps_ite ?_ ?_
    | with_reducible refine forEach_keeps ?_ ?_
    | with_reducible refine endRequest_keeps ?_
    | with_reducible refine abandonStep_keeps ?_
    | with_reducible refine modLedger_keeps ?_
    | with_reducible refine discardKv_keeps ?_
    | with_reducible refine splitStep_keeps ?_
    | fail_if_no_progress with_reducible refine keeps_upd ?_ rfl rfl rfl rfl rfl rfl rfl rfl rfl rfl rfl rfl rfl rfl rfl rfl rfl rfl rfl rfl rfl
    | split

theorem setResult_keeps {σ : State} {i : Nat} {xs : List StepSeq} {s : State} (h_s : Keeps σ s) :
    Keeps σ (setResult i xs s) := by
  unfold setResult
  repeat' first
    | with_reducible assumption
    | intro _
    | with_reducible refine modLedger_keeps ?_
    | fail_if_no_progress with_reducible refine keeps_upd ?_ rfl rfl rfl rfl rfl rfl rfl rfl rfl rfl rfl rfl rfl rfl rfl rfl rfl rfl rfl rfl rfl

theorem backSlot_keeps {σ : State} {m : Nat} {x : StepSeq} {s : State} (h_s : Keeps σ s) :
    Keeps σ (backSlot m x s) := by
  unfold backSlot
  repeat' first
    | with_reducible assumption
    | intro _
    | extract_lets
    | with_reducible refine keeps_ite ?_ ?_
    | with_reducible refine setSeqSlot_keeps ?_
    | with_reducible refine clearPages_keeps ?_
    | with_reducible refine returnResv_keeps ?_
    | with_reducible refine clearList_keeps ?_
    | with_reducible refine wr_keeps ?_
    | fail_if_no_progress with_reducible refine keeps_upd ?_ rfl rfl rfl rfl rfl rfl rfl rfl rfl rfl rfl rfl rfl rfl rfl rfl rfl rfl rfl rfl rfl
    | split

theorem launchBack_keeps {σ : State} {b : BackStep} {s : State} (h_s : Keeps σ s) :
    Keeps σ (launchBack b s) := by
  unfold launchBack
  repeat' first
    | with_reducible assumption
    | intro _
    | extract_lets
    | with_reducible refine forEach_keeps ?_ ?_
    | with_reducible refine backSlot_keeps ?_
    | with_reducible refine addTele_keeps ?_
    | fail_if_no_progress with_reducible refine keeps_upd ?_ rfl rfl rfl rfl rfl rfl rfl rfl rfl rfl rfl rfl rfl rfl rfl rfl rfl rfl rfl rfl rfl

theorem backResult_keeps {σ : State} {b : BackStep} {scores : List SeqScores} {s : State} (h_s : Keeps σ s) :
    Keeps σ (backResult b scores s) := by
  unfold backResult
  repeat' first
    | with_reducible assumption
    | intro _
    | extract_lets
    | with_reducible refine keeps_ite ?_ ?_
    | with_reducible refine sendSpan_keeps ?_
    | fail_if_no_progress with_reducible refine keeps_upd ?_ rfl rfl rfl rfl rfl rfl rfl rfl rfl rfl rfl rfl rfl rfl rfl rfl rfl rfl rfl rfl rfl
    | split

theorem scommitted_keeps {σ : State} {m : Nat} {launch : Nat} {s : State} (h_s : Keeps σ s) :
    Keeps σ (scommitted m launch s) := by
  unfold scommitted
  repeat' first
    | with_reducible assumption
    | intro _
    | with_reducible refine keeps_ite ?_ ?_
    | fail_if_no_progress with_reducible refine keeps_upd ?_ rfl rfl rfl rfl rfl rfl rfl rfl rfl rfl rfl rfl rfl rfl rfl rfl rfl rfl rfl rfl rfl
    | split

theorem stepResult_keeps {σ : State} {i : Nat} {scores : List SeqScores} {s : State} (h_s : Keeps σ s) :
    Keeps σ (stepResult i scores s) := by
  unfold stepResult
  repeat' first
    | with_reducible assumption
    | intro _
    | with_reducible refine keeps_ite ?_ ?_
    | with_reducible refine setResult_keeps ?_
    | with_reducible refine backResult_keeps ?_
    | fail_if_no_progress with_reducible refine keeps_upd ?_ rfl rfl rfl rfl rfl rfl rfl rfl rfl rfl rfl rfl rfl rfl rfl rfl rfl rfl rfl rfl rfl
    | split

theorem execStepResult_keeps {σ : State} {i : Nat} {scores : List SeqScores} {s : State} (h_s : Keeps σ s) :
    ∃ τ, execStepResult i scores s = .next τ ∧ Keeps σ τ := by
  refine ⟨_, rfl, ?_⟩
  repeat' first
    | with_reducible assumption
    | intro _
    | with_reducible refine stepResult_keeps ?_

theorem completePfx_keeps {σ : State} {q : Request} {s : State} (h_s : Keeps σ s) :
    Keeps σ (completePfx q s) := by
  unfold completePfx
  repeat' first
    | with_reducible assumption
    | intro _
    | extract_lets
    | with_reducible refine modPfx_keeps ?_
    | fail_if_no_progress with_reducible refine keeps_upd ?_ rfl rfl rfl rfl rfl rfl rfl rfl rfl rfl rfl rfl rfl rfl rfl rfl rfl rfl rfl rfl rfl

theorem advanceRequest_keeps {σ : State} {e : LedgerEntry} {x : StepSeq} {s : State} (h_s : Keeps σ s) :
    Keeps σ (advanceRequest e x s) := by
  unfold advanceRequest
  repeat' first
    | with_reducible assumption
    | intro _
    | extract_lets
    | with_reducible refine keeps_ite ?_ ?_
    | with_reducible refine modRequest_keeps ?_
    | fail_if_no_progress with_reducible refine keeps_upd ?_ rfl rfl rfl rfl rfl rfl rfl rfl rfl rfl rfl rfl rfl rfl rfl rfl rfl rfl rfl rfl rfl
    | split

theorem noteLate_keeps {σ : State} {m : Nat} {s : State} (h_s : Keeps σ s) : Keeps σ (noteLate m s) :=
  modModelSlot_keeps (raise_keeps h_s)

theorem commitSeq_keeps {σ : State} {e : LedgerEntry} {x : StepSeq} {s : State} (h_s : Keeps σ s) :
    Keeps σ (commitSeq e x s) := by
  unfold commitSeq
  repeat' first
    | with_reducible assumption
    | intro _
    | extract_lets
    | with_reducible refine openPages_keeps ?_
    | with_reducible refine commitKv_keeps ?_
    | with_reducible refine modSeqSlot_keeps ?_
    | with_reducible refine when_keeps ?_ ?_
    | with_reducible refine raise_keeps ?_
    | with_reducible refine noteLate_keeps ?_
    | with_reducible refine advanceRequest_keeps ?_
    | with_reducible refine putTokens_keeps ?_
    | with_reducible refine completePfx_keeps ?_
    | fail_if_no_progress with_reducible refine keeps_upd ?_ rfl rfl rfl rfl rfl rfl rfl rfl rfl rfl rfl rfl rfl rfl rfl rfl rfl rfl rfl rfl rfl
    | split
    | dsimp +zetaDelta only

theorem finishSeq_keeps {σ : State} {ends : List (Nat × Nat)} {s : State} (h_s : Keeps σ s) :
    Keeps σ (finishSeq ends s) := by
  unfold finishSeq
  repeat' first
    | with_reducible assumption
    | intro _
    | with_reducible refine forEach_keeps ?_ ?_
    | with_reducible refine endRequest_keeps ?_

theorem mirrorStepSeq_keeps {σ : State} {x : StepSeq} {s : State} (h_s : Keeps σ s) :
    Keeps σ (mirrorStepSeq x s) := by
  unfold mirrorStepSeq
  repeat' first
    | with_reducible assumption
    | intro _
    | extract_lets
    | with_reducible refine mirrorState_keeps ?_
    | with_reducible refine mirrorKv_keeps ?_
    | with_reducible refine when_keeps ?_ ?_
    | with_reducible refine mirrorPfx_keeps ?_
    | fail_if_no_progress with_reducible refine keeps_upd ?_ rfl rfl rfl rfl rfl rfl rfl rfl rfl rfl rfl rfl rfl rfl rfl rfl rfl rfl rfl rfl rfl
    | split
    | dsimp +zetaDelta only

theorem mirrorStep_keeps {σ : State} {e : LedgerEntry} {s : State} (h_s : Keeps σ s) :
    Keeps σ (mirrorStep e s) := by
  unfold mirrorStep
  repeat' first
    | with_reducible assumption
    | intro _
    | extract_lets
    | with_reducible refine keeps_ite ?_ ?_
    | with_reducible refine forEach_keeps ?_ ?_
    | with_reducible refine mirrorStepSeq_keeps ?_
    | with_reducible refine mirrorCommit_keeps ?_
    | with_reducible refine modLedger_keeps ?_
    | fail_if_no_progress with_reducible refine keeps_upd ?_ rfl rfl rfl rfl rfl rfl rfl rfl rfl rfl rfl rfl rfl rfl rfl rfl rfl rfl rfl rfl rfl
    | split
    | dsimp +zetaDelta only

theorem sendScommit_keeps {σ : State} {e : LedgerEntry} {s : State} (h_s : Keeps σ s) :
    Keeps σ (sendScommit e s) := by
  unfold sendScommit
  repeat' first
    | with_reducible assumption
    | intro _
    | with_reducible refine keeps_ite ?_ ?_
    | with_reducible refine sendSpan_keeps ?_
    | split

theorem backCommitSeq_keeps {σ : State} {m : Nat} {x : StepSeq} {s : State} (h_s : Keeps σ s) :
    Keeps σ (backCommitSeq m x s) := by
  unfold backCommitSeq
  repeat' first
    | with_reducible assumption
    | intro _
    | extract_lets
    | with_reducible refine modSeqSlot_keeps ?_
    | with_reducible refine openPages_keeps ?_
    | with_reducible refine commitKv_keeps ?_
    | with_reducible refine when_keeps ?_ ?_
    | with_reducible refine raise_keeps ?_
    | fail_if_no_progress with_reducible refine keeps_upd ?_ rfl rfl rfl rfl rfl rfl rfl rfl rfl rfl rfl rfl rfl rfl rfl rfl rfl rfl rfl rfl rfl

theorem backCommit_keeps {σ : State} {b : BackStep} {s : State} (h_s : Keeps σ s) :
    Keeps σ (backCommit b s) := by
  unfold backCommit
  repeat' first
    | with_reducible assumption
    | intro _
    | with_reducible refine keeps_ite ?_ ?_
    | with_reducible refine forEach_keeps ?_ ?_
    | with_reducible refine backCommitSeq_keeps ?_
    | fail_if_no_progress with_reducible refine keeps_upd ?_ rfl rfl rfl rfl rfl rfl rfl rfl rfl rfl rfl rfl rfl rfl rfl rfl rfl rfl rfl rfl rfl
    | split

theorem stepCommit_keeps {σ : State} {i : Nat} {s : State} (h_s : Keeps σ s) :
    Keeps σ (stepCommit i s) := by
  unfold stepCommit
  repeat' first
    | with_reducible assumption
    | intro _
    | extract_lets
    | with_reducible refine keeps_ite ?_ ?_
    | with_reducible refine backCommit_keeps ?_
    | with_reducible refine addTele_keeps ?_
    | with_reducible refine bumpBy_keeps ?_
    | with_reducible refine modLedger_keeps ?_
    | with_reducible refine forEach_keeps ?_ ?_
    | with_reducible refine commitSeq_keeps ?_
    | with_reducible refine sendScommit_keeps ?_
    | with_reducible refine mirrorStep_keeps ?_
    | with_reducible refine settleLedger_keeps ?_
    | with_reducible refine finishSeq_keeps ?_
    | fail_if_no_progress with_reducible refine keeps_upd ?_ rfl rfl rfl rfl rfl rfl rfl rfl rfl rfl rfl rfl rfl rfl rfl rfl rfl rfl rfl rfl rfl
    | with_reducible refine foldl_keeps ?_ ?_
    | split
    | dsimp +zetaDelta only

theorem execStepCommit_keeps {σ : State} {i : Nat} {s : State} (h_s : Keeps σ s) :
    ∃ τ, execStepCommit i s = .next τ ∧ Keeps σ τ := by
  refine ⟨_, rfl, ?_⟩
  repeat' first
    | with_reducible assumption
    | intro _
    | with_reducible refine stepCommit_keeps ?_

end Sys2Proof.Machine
end

