-- ==== Sys2Proof/Laws/KeepSched.lean ====
section
/-!
SUPPORT. What `Keeps` says, for every function of Machine/Sched.lean that changes the state.
-/
set_option Elab.async false
namespace Sys2Proof.Machine
open Sys2Proof

theorem noteBlocked_keeps {σ : State} {ps : List LaunchPlan} {s : State} (h_s : Keeps σ s) :
    Keeps σ (noteBlocked ps s) := by
  unfold noteBlocked
  repeat' first
    | with_reducible assumption
    | intro _
    | with_reducible refine when_keeps ?_ ?_
    | with_reducible refine raise_keeps ?_

theorem decideHold_keeps {σ : State} {s : State} (h_s : Keeps σ s) :
    Keeps σ (decideHold s) := by
  unfold decideHold
  repeat' first
    | with_reducible assumption
    | intro _
    | extract_lets
    | with_reducible refine keeps_ite ?_ ?_
    | with_reducible refine carryWiden_keeps ?_
    | with_reducible refine noteBlocked_keeps ?_
    | fail_if_no_progress with_reducible refine keeps_upd ?_ rfl rfl rfl rfl rfl rfl rfl rfl rfl rfl rfl rfl rfl rfl rfl rfl rfl rfl rfl rfl rfl
    | split

theorem slotMismatch_keeps {σ : State} {c : Nat} {s : State} (h_s : Keeps σ s) :
    Keeps σ (slotMismatch c s) := by
  unfold slotMismatch
  repeat' first
    | with_reducible assumption
    | intro _
    | with_reducible refine keeps_ite ?_ ?_
    | with_reducible refine report_keeps ?_
    | with_reducible refine raise_keeps ?_
    | split

theorem holdDecision_keeps {σ : State} {x : SlotInputs} {s : State} (h_s : Keeps σ s) :
    Keeps σ (holdDecision x s) := by
  unfold holdDecision
  repeat' first
    | with_reducible assumption
    | intro _
    | extract_lets
    | with_reducible refine forEach_keeps ?_ ?_
    | with_reducible refine slotMismatch_keeps ?_
    | with_reducible refine decideHold_keeps ?_
    | fail_if_no_progress with_reducible refine keeps_upd ?_ rfl rfl rfl rfl rfl rfl rfl rfl rfl rfl rfl rfl rfl rfl rfl rfl rfl rfl rfl rfl rfl
    | split
    | dsimp +zetaDelta only

theorem execHoldDecision_keeps {σ : State} {x : SlotInputs} {s : State} (h_s : Keeps σ s) :
    ∃ τ, execHoldDecision x s = .next τ ∧ Keeps σ τ := by
  refine ⟨_, rfl, ?_⟩
  repeat' first
    | with_reducible assumption
    | intro _
    | with_reducible refine holdDecision_keeps ?_

theorem shiftCells_keeps {σ : State} {field : Nat} {row : Nat} {g : Nat} {d : Nat} {s : State} (h_s : Keeps σ s) :
    Keeps σ (shiftCells field row g d s) := by
  unfold shiftCells
  refine cellMem_keeps h_s fun hm => Table.wf_shift 0 _ _ ?_ hm
  intro p q x y hpq hx hy
  unfold shiftKey at hx hy
  dsimp only at hx hy
  split at hx <;> split at hy <;> (try split at hx) <;> (try split at hy) <;> simp at hx hy <;> omega

theorem noteShift_keeps {σ : State} {p : PlaceChange} {s : State} (h_s : Keeps σ s) :
    Keeps σ (noteShift p s) := by
  unfold noteShift
  repeat' first
    | with_reducible assumption
    | intro _
    | extract_lets
    | with_reducible refine forEach_keeps ?_ ?_
    | with_reducible refine when_keeps ?_ ?_
    | with_reducible refine shiftCells_keeps ?_

theorem placeRow_keeps {σ : State} {p : PlaceChange} {s : State} (h_s : Keeps σ s) : Keeps σ (placeRow p s) := by
  unfold placeRow
  exact keeps_tables (setReg_keeps (noteShift_keeps h_s)) rfl rfl rfl rfl rfl rfl fun t => { t with rowMap := Table.wf_set _ _ _ _ t.rowMap }

theorem applyPlaces_keeps {σ : State} {s : State} (h_s : Keeps σ s) :
    Keeps σ (applyPlaces s) := by
  unfold applyPlaces
  repeat' first
    | with_reducible assumption
    | intro _
    | with_reducible refine forEach_keeps ?_ ?_
    | with_reducible refine placeRow_keeps ?_
    | fail_if_no_progress with_reducible refine keeps_upd ?_ rfl rfl rfl rfl rfl rfl rfl rfl rfl rfl rfl rfl rfl rfl rfl rfl rfl rfl rfl rfl rfl

theorem applyTable_keeps {σ : State} {w : TableWrite} {s : State} (h_s : Keeps σ s) :
    Keeps σ (applyTable w s) := by
  unfold applyTable
  dsimp only
  refine keeps_ite (keeps_tables h_s rfl rfl rfl rfl rfl rfl fun t => { t with redTab := Table.wf_set _ _ _ _ t.redTab })
    (keeps_tables h_s rfl rfl rfl rfl rfl rfl fun t => { t with mcast := Table.wf_set _ _ _ _ t.mcast })

theorem applyTables_keeps {σ : State} {s : State} (h_s : Keeps σ s) :
    Keeps σ (applyTables s) := by
  unfold applyTables
  repeat' first
    | with_reducible assumption
    | intro _
    | with_reducible refine forEach_keeps ?_ ?_
    | with_reducible refine applyTable_keeps ?_
    | fail_if_no_progress with_reducible refine keeps_upd ?_ rfl rfl rfl rfl rfl rfl rfl rfl rfl rfl rfl rfl rfl rfl rfl rfl rfl rfl rfl rfl rfl

theorem applyClasses_keeps {σ : State} {s : State} (h_s : Keeps σ s) :
    Keeps σ (applyClasses s) := by
  unfold applyClasses
  exact cells_keeps h_s fun w => Table.wf_mapVals _ _ _ w

theorem ageGuards_keeps {σ : State} {s : State} (h_s : Keeps σ s) :
    Keeps σ (ageGuards s) := by
  unfold ageGuards
  repeat' first
    | with_reducible assumption
    | intro _
    | with_reducible refine keeps_ite ?_ ?_
    | fail_if_no_progress with_reducible refine keeps_upd ?_ rfl rfl rfl rfl rfl rfl rfl rfl rfl rfl rfl rfl rfl rfl rfl rfl rfl rfl rfl rfl rfl
    | split

theorem gateSlot_keeps {σ : State} {s : State} (h_s : Keeps σ s) :
    Keeps σ (gateSlot s) := by
  unfold gateSlot
  repeat' first
    | with_reducible assumption
    | intro _
    | extract_lets
    | with_reducible refine keeps_ite ?_ ?_
    | with_reducible refine when_keeps ?_ ?_
    | with_reducible refine bump_keeps ?_
    | fail_if_no_progress with_reducible refine keeps_upd ?_ rfl rfl rfl rfl rfl rfl rfl rfl rfl rfl rfl rfl rfl rfl rfl rfl rfl rfl rfl rfl rfl
    | split

theorem boundaryCommon_keeps {σ : State} {s : State} (h_s : Keeps σ s) :
    Keeps σ (boundaryCommon s) := by
  unfold boundaryCommon
  repeat' first
    | with_reducible assumption
    | intro _
    | extract_lets
    | with_reducible refine ageGuards_keeps ?_
    | with_reducible refine applyClasses_keeps ?_
    | with_reducible refine applyTables_keeps ?_
    | with_reducible refine applyPlaces_keeps ?_
    | with_reducible refine gateSlot_keeps ?_
    | fail_if_no_progress with_reducible refine keeps_upd ?_ rfl rfl rfl rfl rfl rfl rfl rfl rfl rfl rfl rfl rfl rfl rfl rfl rfl rfl rfl rfl rfl

theorem heldBoundary_keeps {σ : State} {s : State} (h_s : Keeps σ s) :
    Keeps σ (heldBoundary s) := by
  unfold heldBoundary
  repeat' first
    | with_reducible assumption
    | intro _
    | extract_lets
    | with_reducible refine raise_keeps ?_
    | with_reducible refine bump_keeps ?_
    | with_reducible refine forEach_keeps ?_ ?_
    | fail_if_no_progress with_reducible refine keeps_upd ?_ rfl rfl rfl rfl rfl rfl rfl rfl rfl rfl rfl rfl rfl rfl rfl rfl rfl rfl rfl rfl rfl

theorem releaseSyncs_keeps {σ : State} {s : State} (h_s : Keeps σ s) :
    Keeps σ (releaseSyncs s) := by
  unfold releaseSyncs
  repeat' first
    | with_reducible assumption
    | intro _
    | extract_lets
    | with_reducible refine forEach_keeps ?_ ?_
    | with_reducible refine completeSync_keeps ?_
    | fail_if_no_progress with_reducible refine keeps_upd ?_ rfl rfl rfl rfl rfl rfl rfl rfl rfl rfl rfl rfl rfl rfl rfl rfl rfl rfl rfl rfl rfl
    | split
    | dsimp +zetaDelta only

theorem startCell_keeps {σ : State} {env : MemEnv} {t36 : Bool} {c : Nat} {s : State} (h_s : Keeps σ s) :
    Keeps σ (startCell env t36 c s) := by
  unfold startCell
  repeat' first
    | with_reducible assumption
    | intro _
    | with_reducible refine modCell_keeps ?_
    | with_reducible refine setRun_keeps ?_
    | fail_if_no_progress with_reducible refine keeps_upd ?_ rfl rfl rfl rfl rfl rfl rfl rfl rfl rfl rfl rfl rfl rfl rfl rfl rfl rfl rfl rfl rfl

theorem clearRings_keeps {σ : State} {cs : List Nat} {s : State} (h_s : Keeps σ s) :
    Keeps σ (clearRings cs s) := by
  unfold clearRings
  repeat' first
    | with_reducible assumption
    | intro _
    | with_reducible refine forEach_keeps ?_ ?_
    | with_reducible refine modCell_keeps ?_
    | fail_if_no_progress with_reducible refine keeps_upd ?_ rfl rfl rfl rfl rfl rfl rfl rfl rfl rfl rfl rfl rfl rfl rfl rfl rfl rfl rfl rfl rfl

theorem startImages_keeps {σ : State} {s : State} (h_s : Keeps σ s) :
    Keeps σ (startImages s) := by
  unfold startImages
  repeat' first
    | with_reducible assumption
    | intro _
    | extract_lets
    | with_reducible refine start_keeps ?_
    | with_reducible refine forEach_keeps ?_ ?_
    | with_reducible refine startCell_keeps ?_
    | with_reducible refine clearRings_keeps ?_
    | with_reducible refine setImage_keeps ?_
    | fail_if_no_progress with_reducible refine keeps_upd ?_ rfl rfl rfl rfl rfl rfl rfl rfl rfl rfl rfl rfl rfl rfl rfl rfl rfl rfl rfl rfl rfl

theorem writeRing_keeps {σ : State} {m : Nat} {launch : Nat} {entry : Nat} {s : State} (h_s : Keeps σ s) :
    Keeps σ (writeRing m launch entry s) := by
  unfold writeRing
  repeat' first
    | with_reducible assumption
    | intro _
    | extract_lets
    | with_reducible refine forEach_keeps ?_ ?_
    | with_reducible refine modCell_keeps ?_
    | fail_if_no_progress with_reducible refine keeps_upd ?_ rfl rfl rfl rfl rfl rfl rfl rfl rfl rfl rfl rfl rfl rfl rfl rfl rfl rfl rfl rfl rfl

theorem applyWiden_keeps {σ : State} {w : WidenChange} {s : State} (h_s : Keeps σ s) :
    Keeps σ (applyWiden w s) := by
  unfold applyWiden
  repeat' first
    | with_reducible assumption
    | intro _
    | extract_lets
    | with_reducible refine keeps_ite ?_ ?_
    | with_reducible refine setLayerPrec_keeps ?_
    | with_reducible refine wr_keeps ?_
    | fail_if_no_progress with_reducible refine keeps_upd ?_ rfl rfl rfl rfl rfl rfl rfl rfl rfl rfl rfl rfl rfl rfl rfl rfl rfl rfl rfl rfl rfl
    | split

theorem fixWiden_keeps {σ : State} {w : WidenChange} {s : State} (h_s : Keeps σ s) :
    Keeps σ (fixWiden w s) := by
  unfold fixWiden
  repeat' first
    | with_reducible assumption
    | intro _
    | extract_lets
    | fail_if_no_progress with_reducible refine keeps_upd ?_ rfl rfl rfl rfl rfl rfl rfl rfl rfl rfl rfl rfl rfl rfl rfl rfl rfl rfl rfl rfl rfl

theorem enterLayer_keeps {σ : State} {n : Nat} {key : Nat} {s : State} (h_s : Keeps σ s) :
    Keeps σ (enterLayer n key s) := by
  unfold enterLayer
  repeat' first
    | with_reducible assumption
    | intro _
    | extract_lets
    | with_reducible refine keeps_ite ?_ ?_
    | with_reducible refine applyWiden_keeps ?_
    | with_reducible refine when_keeps ?_ ?_
    | with_reducible refine setLayerPrec_keeps ?_
    | fail_if_no_progress with_reducible refine keeps_upd ?_ rfl rfl rfl rfl rfl rfl rfl rfl rfl rfl rfl rfl rfl rfl rfl rfl rfl rfl rfl rfl rfl
    | split
    | dsimp +zetaDelta only

theorem enterLayers_keeps {σ : State} {s : State} (h_s : Keeps σ s) :
    Keeps σ (enterLayers s) := by
  unfold enterLayers
  repeat' first
    | with_reducible assumption
    | intro _
    | with_reducible refine forEach_keeps ?_ ?_
    | with_reducible refine enterLayer_keeps ?_

theorem fixCarried_keeps {σ : State} {s : State} (h_s : Keeps σ s) :
    Keeps σ (fixCarried s) := by
  unfold fixCarried
  repeat' first
    | with_reducible assumption
    | intro _
    | with_reducible refine forEach_keeps ?_ ?_
    | with_reducible refine fixWiden_keeps ?_
    | fail_if_no_progress with_reducible refine keeps_upd ?_ rfl rfl rfl rfl rfl rfl rfl rfl rfl rfl rfl rfl rfl rfl rfl rfl rfl rfl rfl rfl rfl

theorem fillLaunch_keeps {σ : State} {p : LaunchPlan} {s : State} (h_s : Keeps σ s) :
    Keeps σ (fillLaunch p s).2 := by
  unfold fillLaunch
  repeat' first
    | with_reducible assumption
    | intro _
    | extract_lets
    | with_reducible refine keeps_ite ?_ ?_
    | with_reducible refine addTele_keeps ?_
    | with_reducible refine formTune_keeps ?_
    | with_reducible refine launchBack_keeps ?_
    | with_reducible refine relaunch_keeps ?_
    | with_reducible refine formStep_keeps ?_
    | fail_if_no_progress with_reducible refine keeps_upd ?_ rfl rfl rfl rfl rfl rfl rfl rfl rfl rfl rfl rfl rfl rfl rfl rfl rfl rfl rfl rfl rfl
    | with_reducible refine keeps_snd_ite ?_ ?_
    | split
    | dsimp +zetaDelta only

theorem doLaunch_keeps {σ : State} {p : LaunchPlan} {s : State} (h_s : Keeps σ s) :
    Keeps σ (doLaunch p s) := by
  unfold doLaunch
  repeat' first
    | with_reducible assumption
    | intro _
    | extract_lets
    | with_reducible refine keeps_ite ?_ ?_
    | with_reducible refine fillLaunch_keeps ?_
    | with_reducible refine when_keeps ?_ ?_
    | with_reducible refine addTele_keeps ?_
    | with_reducible refine writeRing_keeps ?_
    | split

theorem beginIter_keeps {σ : State} {c : Nat} {k : Nat} {s : State} (h_s : Keeps σ s) :
    Keeps σ (beginIter c k s) := by
  unfold beginIter
  repeat' first
    | with_reducible assumption
    | intro _
    | extract_lets
    | with_reducible refine keeps_ite ?_ ?_
    | with_reducible refine setCell_keeps ?_
    | fail_if_no_progress with_reducible refine keeps_upd ?_ rfl rfl rfl rfl rfl rfl rfl rfl rfl rfl rfl rfl rfl rfl rfl rfl rfl rfl rfl rfl rfl
    | split

theorem startIters_keeps {σ : State} {s : State} (h_s : Keeps σ s) :
    Keeps σ (startIters s) := by
  unfold startIters
  repeat' first
    | with_reducible assumption
    | intro _
    | with_reducible refine forEach_keeps ?_ ?_
    | with_reducible refine beginIter_keeps ?_
    | fail_if_no_progress with_reducible refine keeps_upd ?_ rfl rfl rfl rfl rfl rfl rfl rfl rfl rfl rfl rfl rfl rfl rfl rfl rfl rfl rfl rfl rfl
    | split

theorem advanceBoundary_keeps {σ : State} {s : State} (h_s : Keeps σ s) :
    Keeps σ (advanceBoundary s) := by
  unfold advanceBoundary
  repeat' first
    | with_reducible assumption
    | intro _
    | extract_lets
    | with_reducible refine setCnt_keeps ?_
    | with_reducible refine fixCarried_keeps ?_
    | with_reducible refine startImages_keeps ?_
    | with_reducible refine releaseSyncs_keeps ?_
    | with_reducible refine startIters_keeps ?_
    | with_reducible refine enterLayers_keeps ?_
    | with_reducible refine forEach_keeps ?_ ?_
    | with_reducible refine doLaunch_keeps ?_
    | fail_if_no_progress with_reducible refine keeps_upd ?_ rfl rfl rfl rfl rfl rfl rfl rfl rfl rfl rfl rfl rfl rfl rfl rfl rfl rfl rfl rfl rfl

theorem slotBoundary_keeps {σ : State} {s : State} (h_s : Keeps σ s) :
    Keeps σ (slotBoundary s) := by
  unfold slotBoundary
  repeat' first
    | with_reducible assumption
    | intro _
    | extract_lets
    | with_reducible refine keeps_ite ?_ ?_
    | with_reducible refine decideHold_keeps ?_
    | with_reducible refine boundaryCommon_keeps ?_
    | with_reducible refine heldBoundary_keeps ?_
    | with_reducible refine advanceBoundary_keeps ?_
    | fail_if_no_progress with_reducible refine keeps_upd ?_ rfl rfl rfl rfl rfl rfl rfl rfl rfl rfl rfl rfl rfl rfl rfl rfl rfl rfl rfl rfl rfl
    | split

theorem execSlotBoundary_keeps {σ : State} {s : State} (h_s : Keeps σ s) :
    ∃ τ, execSlotBoundary s = .next τ ∧ Keeps σ τ := by
  refine ⟨_, rfl, ?_⟩
  repeat' first
    | with_reducible assumption
    | intro _
    | with_reducible refine slotBoundary_keeps ?_

end Sys2Proof.Machine
end

