-- ==== Sys2Proof/Laws/KeepLoad.lean ====
section
/-!
SUPPORT. What `Keeps` says, for every function of Machine/Load.lean that changes the state.
-/
set_option Elab.async false
namespace Sys2Proof.Machine
open Sys2Proof

theorem withTables_keeps {σ : State} {vars : List CalVariant} {r : Rec} {s : State} (h_s : Keeps σ s) :
    Keeps σ (withTables vars r s) := by
  unfold withTables
  repeat' first
    | with_reducible assumption
    | intro _
    | with_reducible refine keeps_ite ?_ ?_
    | with_reducible refine forEach_keeps ?_ ?_
    | with_reducible refine applyTable_keeps ?_
    | fail_if_no_progress with_reducible refine keeps_upd ?_ rfl rfl rfl rfl rfl rfl rfl rfl rfl rfl rfl rfl rfl rfl rfl rfl rfl rfl rfl rfl rfl
    | split

theorem asBound_keeps {σ : State} {m : Nat} {h : BitVec 512} {inp : LoadInput} {s : State} (h_s : Keeps σ s) :
    Keeps σ (asBound m h inp s) := by
  unfold asBound
  repeat' first
    | with_reducible assumption
    | intro _
    | with_reducible refine setImage_keeps ?_
    | fail_if_no_progress with_reducible refine keeps_upd ?_ rfl rfl rfl rfl rfl rfl rfl rfl rfl rfl rfl rfl rfl rfl rfl rfl rfl rfl rfl rfl rfl

theorem readContents_keeps {σ : State} {m : Nat} {h : BitVec 512} {inp : LoadInput} {envs : CellEnvs} {f : Option LoadFail} {s : State} (h_s : Keeps σ s) :
    Keeps σ (readContents m h inp envs f s) := by
  unfold readContents
  repeat' first
    | with_reducible assumption
    | intro _
    | extract_lets
    | with_reducible refine asBound_keeps ?_
    | with_reducible refine forEach_keeps ?_ ?_
    | with_reducible refine loadReads_keeps ?_

theorem readCheck_keeps {σ : State} {c : LoadRead} {part : Nat} {s : State} (h_s : Keeps σ s) :
    Keeps σ (readCheck c part s) := by
  unfold readCheck
  repeat' first
    | with_reducible assumption
    | intro _
    | with_reducible refine startFetch_keeps ?_
    | fail_if_no_progress with_reducible refine keeps_upd ?_ rfl rfl rfl rfl rfl rfl rfl rfl rfl rfl rfl rfl rfl rfl rfl rfl rfl rfl rfl rfl rfl
    | with_reducible refine keeps_snd_ite ?_ ?_
    | split

theorem checkPartRead_keeps {σ : State} {m : Nat} {part : Nat} {bs : List Byte} {s : State} (h_s : Keeps σ s) :
    Keeps σ (checkPartRead m part bs s) := by
  unfold checkPartRead
  repeat' first
    | with_reducible assumption
    | intro _
    | with_reducible refine keeps_ite ?_ ?_
    | with_reducible refine readCheck_keeps ?_
    | fail_if_no_progress with_reducible refine keeps_upd ?_ rfl rfl rfl rfl rfl rfl rfl rfl rfl rfl rfl rfl rfl rfl rfl rfl rfl rfl rfl rfl rfl
    | split

theorem checkPartFailed_keeps {σ : State} {m : Nat} {part : Nat} {bs : List Byte} {s : State} (h_s : Keeps σ s) :
    Keeps σ (checkPartFailed m part bs s) := by
  unfold checkPartFailed
  repeat' first
    | with_reducible assumption
    | intro _
    | extract_lets
    | with_reducible refine keeps_ite ?_ ?_
    | fail_if_no_progress with_reducible refine keeps_upd ?_ rfl rfl rfl rfl rfl rfl rfl rfl rfl rfl rfl rfl rfl rfl rfl rfl rfl rfl rfl rfl rfl
    | split
    | dsimp +zetaDelta only

theorem loadGo_keeps {σ : State} {v : Word} {s : State} (h_s : Keeps σ s) :
    Keeps σ (loadGo v s) := by
  unfold loadGo
  repeat' first
    | with_reducible assumption
    | intro _
    | extract_lets
    | with_reducible refine keeps_ite ?_ ?_
    | with_reducible refine wr_keeps ?_
    | with_reducible refine readCheck_keeps ?_
    | with_reducible refine start_keeps ?_
    | split

theorem execLoadGo_keeps {σ : State} {v : Word} {s : State} (h_s : Keeps σ s) :
    ∃ τ, execLoadGo v s = .next τ ∧ Keeps σ τ := by
  refine ⟨_, rfl, ?_⟩
  repeat' first
    | with_reducible assumption
    | intro _
    | with_reducible refine loadGo_keeps ?_

theorem loadFailed_keeps {σ : State} {m : Nat} {f : LoadFail} {s : State} (h_s : Keeps σ s) :
    Keeps σ (loadFailed m f s) := by
  unfold loadFailed
  repeat' first
    | with_reducible assumption
    | intro _
    | with_reducible refine failSlot_keeps ?_
    | with_reducible refine wr_keeps ?_
    | with_reducible refine raise_keeps ?_

theorem loadPassed_keeps {σ : State} {m : Nat} {inp : LoadInput} {s : State} (h_s : Keeps σ s) :
    Keeps σ (loadPassed m inp s) := by
  unfold loadPassed
  repeat' first
    | with_reducible assumption
    | intro _
    | extract_lets
    | with_reducible refine keeps_ite ?_ ?_
    | with_reducible refine start_keeps ?_
    | with_reducible refine modModelSlot_keeps ?_
    | with_reducible refine setImage_keeps ?_
    | with_reducible refine wr_keeps ?_
    | with_reducible refine tuneReloaded_keeps ?_
    | with_reducible refine raise_keeps ?_
    | fail_if_no_progress with_reducible refine keeps_upd ?_ rfl rfl rfl rfl rfl rfl rfl rfl rfl rfl rfl rfl rfl rfl rfl rfl rfl rfl rfl rfl rfl
    | split

theorem loadCheckDone_keeps {σ : State} {x : LoadRest} {s : State} (h_s : Keeps σ s) :
    Keeps σ (loadCheckDone x s) := by
  unfold loadCheckDone
  repeat' first
    | with_reducible assumption
    | intro _
    | extract_lets
    | with_reducible refine keeps_ite ?_ ?_
    | with_reducible refine wr_keeps ?_
    | with_reducible refine loadFailed_keeps ?_
    | with_reducible refine applyTables_keeps ?_
    | with_reducible refine readContents_keeps ?_
    | with_reducible refine loadPassed_keeps ?_
    | fail_if_no_progress with_reducible refine keeps_upd ?_ rfl rfl rfl rfl rfl rfl rfl rfl rfl rfl rfl rfl rfl rfl rfl rfl rfl rfl rfl rfl rfl
    | split
    | dsimp +zetaDelta only

theorem execLoadCheckDone_keeps {σ : State} {x : LoadRest} {s : State} (h_s : Keeps σ s) :
    ∃ τ, execLoadCheckDone x s = .next τ ∧ Keeps σ τ := by
  refine ⟨_, rfl, ?_⟩
  repeat' first
    | with_reducible assumption
    | intro _
    | with_reducible refine loadCheckDone_keeps ?_

end Sys2Proof.Machine
end

