-- ==== Sys2Proof/Laws/KeepBeat.lean ====
section
/-!
SUPPORT. What `Keeps` says, for every function of Machine/Beat.lean that changes the state.
-/
set_option Elab.async false
namespace Sys2Proof.Machine
open Sys2Proof

theorem beginBeat_keeps {σ : State} {t : Nat} {s : State} (h_s : Keeps σ s) :
    Keeps σ (beginBeat t s) := by
  unfold beginBeat
  repeat' first
    | with_reducible assumption
    | intro _
    | extract_lets
    | with_reducible refine setCnt_keeps ?_
    | with_reducible refine when_keeps ?_ ?_
    | fail_if_no_progress with_reducible refine keeps_upd ?_ rfl rfl rfl rfl rfl rfl rfl rfl rfl rfl rfl rfl rfl rfl rfl rfl rfl rfl rfl rfl rfl

theorem rejectEdge_keeps {σ : State} {s : State} (h_s : Keeps σ s) :
    Keeps σ (rejectEdge s) := by
  unfold rejectEdge
  repeat' first
    | with_reducible assumption
    | intro _
    | with_reducible refine raise_keeps ?_
    | with_reducible refine bump_keeps ?_
    | fail_if_no_progress with_reducible refine keeps_upd ?_ rfl rfl rfl rfl rfl rfl rfl rfl rfl rfl rfl rfl rfl rfl rfl rfl rfl rfl rfl rfl rfl

theorem relock_keeps {σ : State} {t : Nat} {s : State} (h_s : Keeps σ s) :
    Keeps σ (relock t s) := by
  unfold relock
  repeat' first
    | with_reducible assumption
    | intro _
    | extract_lets
    | with_reducible refine keeps_ite ?_ ?_
    | with_reducible refine raise_keeps ?_
    | with_reducible refine wr_keeps ?_
    | with_reducible refine beginBeat_keeps ?_
    | fail_if_no_progress with_reducible refine keeps_upd ?_ rfl rfl rfl rfl rfl rfl rfl rfl rfl rfl rfl rfl rfl rfl rfl rfl rfl rfl rfl rfl rfl
    | split

theorem acceptEdge_keeps {σ : State} {t : Nat} {p : Nat} {s : State} (h_s : Keeps σ s) :
    Keeps σ (acceptEdge t p s) := by
  unfold acceptEdge
  repeat' first
    | with_reducible assumption
    | intro _
    | extract_lets
    | with_reducible refine keeps_ite ?_ ?_
    | with_reducible refine wr_keeps ?_
    | with_reducible refine beginBeat_keeps ?_
    | with_reducible refine relock_keeps ?_
    | fail_if_no_progress with_reducible refine keeps_upd ?_ rfl rfl rfl rfl rfl rfl rfl rfl rfl rfl rfl rfl rfl rfl rfl rfl rfl rfl rfl rfl rfl
    | split

theorem judgeEdge_keeps {σ : State} {t : Nat} {s : State} (h_s : Keeps σ s) :
    Keeps σ (judgeEdge t s) := by
  unfold judgeEdge
  repeat' first
    | with_reducible assumption
    | intro _
    | extract_lets
    | with_reducible refine keeps_ite ?_ ?_
    | with_reducible refine rejectEdge_keeps ?_
    | with_reducible refine acceptEdge_keeps ?_
    | fail_if_no_progress with_reducible refine keeps_upd ?_ rfl rfl rfl rfl rfl rfl rfl rfl rfl rfl rfl rfl rfl rfl rfl rfl rfl rfl rfl rfl rfl
    | split
    | dsimp +zetaDelta only

theorem beatEdge_keeps {σ : State} {t : Nat} {highNs : Nat} {s0 : State} (h_s0 : Keeps σ s0) :
    Keeps σ (beatEdge t highNs s0) := by
  unfold beatEdge
  repeat' first
    | with_reducible assumption
    | intro _
    | extract_lets
    | with_reducible refine keeps_ite ?_ ?_
    | with_reducible refine atTime_keeps ?_
    | with_reducible refine raise_keeps ?_
    | with_reducible refine bump_keeps ?_
    | with_reducible refine judgeEdge_keeps ?_
    | fail_if_no_progress with_reducible refine keeps_upd ?_ rfl rfl rfl rfl rfl rfl rfl rfl rfl rfl rfl rfl rfl rfl rfl rfl rfl rfl rfl rfl rfl
    | split

theorem execBeatEdge_keeps {σ : State} {t : Nat} {highNs : Nat} {s : State} (h_s : Keeps σ s) :
    ∃ τ, execBeatEdge t highNs s = .next τ ∧ Keeps σ τ := by
  refine ⟨_, rfl, ?_⟩
  repeat' first
    | with_reducible assumption
    | intro _
    | with_reducible refine beatEdge_keeps ?_

theorem countBeat_keeps {σ : State} {s : State} (h_s : Keeps σ s) :
    Keeps σ (countBeat s) := by
  unfold countBeat
  repeat' first
    | with_reducible assumption
    | intro _
    | extract_lets
    | with_reducible refine wr_keeps ?_
    | fail_if_no_progress with_reducible refine keeps_upd ?_ rfl rfl rfl rfl rfl rfl rfl rfl rfl rfl rfl rfl rfl rfl rfl rfl rfl rfl rfl rfl rfl

theorem holdover_keeps {σ : State} {t : Nat} {s0 : State} (h_s0 : Keeps σ s0) :
    Keeps σ (holdover t s0) := by
  unfold holdover
  repeat' first
    | with_reducible assumption
    | intro _
    | extract_lets
    | with_reducible refine keeps_ite ?_ ?_
    | with_reducible refine atTime_keeps ?_
    | with_reducible refine wr_keeps ?_
    | with_reducible refine raise_keeps ?_
    | with_reducible refine countBeat_keeps ?_
    | with_reducible refine beginBeat_keeps ?_
    | fail_if_no_progress with_reducible refine keeps_upd ?_ rfl rfl rfl rfl rfl rfl rfl rfl rfl rfl rfl rfl rfl rfl rfl rfl rfl rfl rfl rfl rfl
    | split

theorem execHoldover_keeps {σ : State} {t : Nat} {s : State} (h_s : Keeps σ s) :
    ∃ τ, execHoldover t s = .next τ ∧ Keeps σ τ := by
  refine ⟨_, rfl, ?_⟩
  repeat' first
    | with_reducible assumption
    | intro _
    | with_reducible refine holdover_keeps ?_

theorem loseBeat_keeps {σ : State} {s : State} (h_s : Keeps σ s) :
    Keeps σ (loseBeat s) := by
  unfold loseBeat
  repeat' first
    | with_reducible assumption
    | intro _
    | with_reducible refine pldm_keeps ?_
    | with_reducible refine raise_keeps ?_
    | with_reducible refine wr_keeps ?_
    | fail_if_no_progress with_reducible refine keeps_upd ?_ rfl rfl rfl rfl rfl rfl rfl rfl rfl rfl rfl rfl rfl rfl rfl rfl rfl rfl rfl rfl rfl

theorem internalBeat_keeps {σ : State} {s : State} (h_s : Keeps σ s) :
    Keeps σ (internalBeat s) := by
  unfold internalBeat
  repeat' first
    | with_reducible assumption
    | intro _
    | extract_lets
    | with_reducible refine keeps_ite ?_ ?_
    | with_reducible refine beginBeat_keeps ?_
    | with_reducible refine loseBeat_keeps ?_
    | with_reducible refine countBeat_keeps ?_
    | split

theorem internalBeatAt_keeps {σ : State} {t : Nat} {s0 : State} (h_s0 : Keeps σ s0) :
    Keeps σ (internalBeatAt t s0) := by
  unfold internalBeatAt
  repeat' first
    | with_reducible assumption
    | intro _
    | extract_lets
    | with_reducible refine keeps_ite ?_ ?_
    | with_reducible refine atTime_keeps ?_
    | with_reducible refine internalBeat_keeps ?_
    | split

theorem execInternalBeat_keeps {σ : State} {t : Nat} {s : State} (h_s : Keeps σ s) :
    ∃ τ, execInternalBeat t s = .next τ ∧ Keeps σ τ := by
  refine ⟨_, rfl, ?_⟩
  repeat' first
    | with_reducible assumption
    | intro _
    | with_reducible refine internalBeatAt_keeps ?_

theorem beatLoss_keeps {σ : State} {t : Nat} {s0 : State} (h_s0 : Keeps σ s0) :
    Keeps σ (beatLoss t s0) := by
  unfold beatLoss
  repeat' first
    | with_reducible assumption
    | intro _
    | extract_lets
    | with_reducible refine keeps_ite ?_ ?_
    | with_reducible refine atTime_keeps ?_
    | with_reducible refine internalBeat_keeps ?_
    | split

theorem execBeatLoss_keeps {σ : State} {t : Nat} {s : State} (h_s : Keeps σ s) :
    ∃ τ, execBeatLoss t s = .next τ ∧ Keeps σ τ := by
  refine ⟨_, rfl, ?_⟩
  repeat' first
    | with_reducible assumption
    | intro _
    | with_reducible refine beatLoss_keeps ?_

end Sys2Proof.Machine
end

