-- ==== Sys2Proof/Laws/KeepAdmission.lean ====
section
/-!
SUPPORT. What `Keeps` says, for every function of Machine/Admission.lean that changes the state.
-/
set_option Elab.async false
namespace Sys2Proof.Machine
open Sys2Proof

theorem decide__keeps {σ : State} {q : Request} {code : Nat} {reason : Nat} {seq : Nat} {entry : Bool} {s : State} (h_s : Keeps σ s) :
    Keeps σ (decide_ q code reason seq entry s) := by
  unfold decide_
  repeat' first
    | with_reducible assumption
    | intro _
    | extract_lets
    | with_reducible refine when_keeps ?_ ?_
    | with_reducible refine putDecision_keeps ?_
    | fail_if_no_progress with_reducible refine keeps_upd ?_ rfl rfl rfl rfl rfl rfl rfl rfl rfl rfl rfl rfl rfl rfl rfl rfl rfl rfl rfl rfl rfl

theorem rejectReq_keeps {σ : State} {q : Request} {reason : Nat} {s : State} (h_s : Keeps σ s) :
    Keeps σ (rejectReq q reason s) := by
  unfold rejectReq
  repeat' first
    | with_reducible assumption
    | intro _
    | with_reducible refine endRequest_keeps ?_
    | with_reducible refine bump_keeps ?_
    | with_reducible refine raise_keeps ?_
    | with_reducible refine decide__keeps ?_

theorem deferReq_keeps {σ : State} {q : Request} {reason : Nat} {s : State} (h_s : Keeps σ s) :
    Keeps σ (deferReq q reason s) := by
  unfold deferReq
  repeat' first
    | with_reducible assumption
    | intro _
    | with_reducible refine bump_keeps ?_
    | with_reducible refine decide__keeps ?_
    | with_reducible refine modRequest_keeps ?_
    | fail_if_no_progress with_reducible refine keeps_upd ?_ rfl rfl rfl rfl rfl rfl rfl rfl rfl rfl rfl rfl rfl rfl rfl rfl rfl rfl rfl rfl rfl

theorem admitInto_keeps {σ : State} {q : Request} {seq : Nat} {s : State} (h_s : Keeps σ s) :
    Keeps σ (admitInto q seq s) := by
  unfold admitInto
  repeat' first
    | with_reducible assumption
    | intro _
    | extract_lets
    | with_reducible refine keeps_ite ?_ ?_
    | with_reducible refine setPages_keeps ?_
    | with_reducible refine setSeqSlot_keeps ?_
    | with_reducible refine wr_keeps ?_
    | with_reducible refine modRequest_keeps ?_
    | fail_if_no_progress with_reducible refine keeps_upd ?_ rfl rfl rfl rfl rfl rfl rfl rfl rfl rfl rfl rfl rfl rfl rfl rfl rfl rfl rfl rfl rfl
    | split

theorem admitReq_keeps {σ : State} {q : Request} {s : State} (h_s : Keeps σ s) :
    Keeps σ (admitReq q s) := by
  unfold admitReq
  repeat' first
    | with_reducible assumption
    | intro _
    | extract_lets
    | with_reducible refine bump_keeps ?_
    | with_reducible refine decide__keeps ?_
    | with_reducible refine admitInto_keeps ?_
    | with_reducible refine readTokens_keeps ?_
    | with_reducible refine modRequest_keeps ?_
    | fail_if_no_progress with_reducible refine keeps_upd ?_ rfl rfl rfl rfl rfl rfl rfl rfl rfl rfl rfl rfl rfl rfl rfl rfl rfl rfl rfl rfl rfl
    | split
    | dsimp +zetaDelta only

theorem consider_keeps {σ : State} {id : Nat} {s : State} (h_s : Keeps σ s) :
    Keeps σ (consider id s) := by
  unfold consider
  repeat' first
    | with_reducible assumption
    | intro _
    | extract_lets
    | with_reducible refine keeps_ite ?_ ?_
    | with_reducible refine putError_keeps ?_
    | with_reducible refine when_keeps ?_ ?_
    | with_reducible refine unusePfx_keeps ?_
    | with_reducible refine rejectReq_keeps ?_
    | with_reducible refine admitReq_keeps ?_
    | with_reducible refine deferReq_keeps ?_
    | fail_if_no_progress with_reducible refine keeps_upd ?_ rfl rfl rfl rfl rfl rfl rfl rfl rfl rfl rfl rfl rfl rfl rfl rfl rfl rfl rfl rfl rfl
    | split
    | dsimp +zetaDelta only

theorem admission_keeps {σ : State} {s : State} (h_s : Keeps σ s) :
    Keeps σ (admission s) := by
  unfold admission
  repeat' first
    | with_reducible assumption
    | intro _
    | with_reducible refine keeps_ite ?_ ?_
    | with_reducible refine forEach_keeps ?_ ?_
    | with_reducible refine consider_keeps ?_
    | split

end Sys2Proof.Machine
end

