-- ==== Sys2Proof/Laws/KeepPair.lean ====
section
/-!
SUPPORT. What `Keeps` says, for every function of Machine/Pair.lean that changes the state.
-/
set_option Elab.async false
namespace Sys2Proof.Machine
open Sys2Proof

theorem setPairSt_keeps {σ : State} {n : Nat} {s : State} (h_s : Keeps σ s) :
    Keeps σ (setPairSt n s) := by
  unfold setPairSt
  repeat' first
    | with_reducible assumption
    | intro _
    | with_reducible refine wr_keeps ?_

theorem raiseEpoch_keeps {σ : State} {e : Nat} {after : Durable} {s : State} (h_s : Keeps σ s) :
    Keeps σ (raiseEpoch e after s) := by
  unfold raiseEpoch
  repeat' first
    | with_reducible assumption
    | intro _
    | with_reducible refine keeps_ite ?_ ?_
    | with_reducible refine journal_keeps ?_
    | with_reducible refine wr_keeps ?_
    | split

theorem leavePrimary_keeps {σ : State} {s : State} (h_s : Keeps σ s) :
    Keeps σ (leavePrimary s) := by
  unfold leavePrimary
  repeat' first
    | with_reducible assumption
    | intro _
    | extract_lets
    | with_reducible refine dropAckWaits_keeps ?_
    | with_reducible refine flushRings_keeps ?_
    | fail_if_no_progress with_reducible refine keeps_upd ?_ rfl rfl rfl rfl rfl rfl rfl rfl rfl rfl rfl rfl rfl rfl rfl rfl rfl rfl rfl rfl rfl

theorem endSplit_keeps {σ : State} {s : State} (h_s : Keeps σ s) :
    Keeps σ (endSplit s) := by
  unfold endSplit
  repeat' first
    | with_reducible assumption
    | intro _
    | extract_lets
    | with_reducible refine forEach_keeps ?_ ?_
    | with_reducible refine abandonStep_keeps ?_
    | with_reducible refine endRequest_keeps ?_

theorem leaveSplit_keeps {σ : State} {s : State} (h_s : Keeps σ s) :
    Keeps σ (leaveSplit s) := by
  unfold leaveSplit
  repeat' first
    | with_reducible assumption
    | intro _
    | with_reducible refine forEach_keeps ?_ ?_
    | with_reducible refine discardKv_keeps ?_
    | fail_if_no_progress with_reducible refine keeps_upd ?_ rfl rfl rfl rfl rfl rfl rfl rfl rfl rfl rfl rfl rfl rfl rfl rfl rfl rfl rfl rfl rfl

theorem dropSeq_keeps {σ : State} {q : Nat} {s : State} (h_s : Keeps σ s) :
    Keeps σ (dropSeq q s) := by
  unfold dropSeq
  repeat' first
    | with_reducible assumption
    | intro _
    | with_reducible refine releaseSeq_keeps ?_

theorem discardMirror_keeps {σ : State} {s : State} (h_s : Keeps σ s) :
    Keeps σ (discardMirror s) := by
  unfold discardMirror
  repeat' first
    | with_reducible assumption
    | intro _
    | extract_lets
    | with_reducible refine forEach_keeps ?_ ?_
    | with_reducible refine dropSeq_keeps ?_
    | with_reducible refine clearPages_keeps ?_
    | fail_if_no_progress with_reducible refine keeps_upd ?_ rfl rfl rfl rfl rfl rfl rfl rfl rfl rfl rfl rfl rfl rfl rfl rfl rfl rfl rfl rfl rfl

theorem freezeMirror_keeps {σ : State} {s : State} (h_s : Keeps σ s) :
    Keeps σ (freezeMirror s) := by
  unfold freezeMirror
  repeat' first
    | with_reducible assumption
    | intro _
    | fail_if_no_progress with_reducible refine keeps_upd ?_ rfl rfl rfl rfl rfl rfl rfl rfl rfl rfl rfl rfl rfl rfl rfl rfl rfl rfl rfl rfl rfl

theorem loseRequested_keeps {σ : State} {r : PageReq} {s : State} (h_s : Keeps σ s) :
    Keeps σ (loseRequested r s) := by
  unfold loseRequested
  repeat' first
    | with_reducible assumption
    | intro _
    | with_reducible refine losePage_keeps ?_
    | fail_if_no_progress with_reducible refine keeps_upd ?_ rfl rfl rfl rfl rfl rfl rfl rfl rfl rfl rfl rfl rfl rfl rfl rfl rfl rfl rfl rfl rfl
    | split

theorem losePageReqs_keeps {σ : State} {s : State} (h_s : Keeps σ s) :
    Keeps σ (losePageReqs s) := by
  unfold losePageReqs
  repeat' first
    | with_reducible assumption
    | intro _
    | with_reducible refine forEach_keeps ?_ ?_
    | with_reducible refine loseRequested_keeps ?_
    | fail_if_no_progress with_reducible refine keeps_upd ?_ rfl rfl rfl rfl rfl rfl rfl rfl rfl rfl rfl rfl rfl rfl rfl rfl rfl rfl rfl rfl rfl

theorem setWatch_keeps {σ : State} {w : Option Nat} {s : State} (h_s : Keeps σ s) :
    Keeps σ (setWatch w s) := by
  unfold setWatch
  repeat' first
    | with_reducible assumption
    | intro _
    | fail_if_no_progress with_reducible refine keeps_upd ?_ rfl rfl rfl rfl rfl rfl rfl rfl rfl rfl rfl rfl rfl rfl rfl rfl rfl rfl rfl rfl rfl

theorem isolatePair_keeps {σ : State} {s : State} (h_s : Keeps σ s) :
    Keeps σ (isolatePair s) := by
  unfold isolatePair
  repeat' first
    | with_reducible assumption
    | intro _
    | extract_lets
    | with_reducible refine keeps_ite ?_ ?_
    | with_reducible refine setWatch_keeps ?_
    | with_reducible refine pldm_keeps ?_
    | with_reducible refine raise_keeps ?_
    | with_reducible refine setPairSt_keeps ?_
    | with_reducible refine when_keeps ?_ ?_
    | with_reducible refine leaveSplit_keeps ?_
    | with_reducible refine endSplit_keeps ?_
    | with_reducible refine leavePrimary_keeps ?_
    | with_reducible refine losePageReqs_keeps ?_
    | with_reducible refine freezeMirror_keeps ?_
    | fail_if_no_progress with_reducible refine keeps_upd ?_ rfl rfl rfl rfl rfl rfl rfl rfl rfl rfl rfl rfl rfl rfl rfl rfl rfl rfl rfl rfl rfl
    | split

theorem isolate_keeps {σ : State} {t : Nat} {s0 : State} (h_s0 : Keeps σ s0) :
    Keeps σ (isolate t s0) := by
  unfold isolate
  repeat' first
    | with_reducible assumption
    | intro _
    | extract_lets
    | with_reducible refine keeps_ite ?_ ?_
    | with_reducible refine atTime_keeps ?_
    | with_reducible refine isolatePair_keeps ?_
    | fail_if_no_progress with_reducible refine keeps_upd ?_ rfl rfl rfl rfl rfl rfl rfl rfl rfl rfl rfl rfl rfl rfl rfl rfl rfl rfl rfl rfl rfl
    | with_reducible refine foldl_keeps ?_ ?_
    | split
    | dsimp +zetaDelta only

theorem execIsolate_keeps {σ : State} {t : Nat} {s : State} (h_s : Keeps σ s) :
    ∃ τ, execIsolate t s = .next τ ∧ Keeps σ τ := by
  refine ⟨_, rfl, ?_⟩
  repeat' first
    | with_reducible assumption
    | intro _
    | with_reducible refine isolate_keeps ?_

theorem watchPartner_keeps {σ : State} {s : State} (h_s : Keeps σ s) :
    Keeps σ (watchPartner s) := by
  unfold watchPartner
  repeat' first
    | with_reducible assumption
    | intro _
    | extract_lets
    | with_reducible refine keeps_ite ?_ ?_
    | with_reducible refine isolatePair_keeps ?_
    | fail_if_no_progress with_reducible refine keeps_upd ?_ rfl rfl rfl rfl rfl rfl rfl rfl rfl rfl rfl rfl rfl rfl rfl rfl rfl rfl rfl rfl rfl
    | split

theorem syncSeq_keeps {σ : State} {q : Nat} {s : State} (h_s : Keeps σ s) :
    Keeps σ (syncSeq q s) := by
  unfold syncSeq
  repeat' first
    | with_reducible assumption
    | intro _
    | extract_lets
    | with_reducible refine mirrorState_keeps ?_
    | with_reducible refine mirrorKv_keeps ?_
    | fail_if_no_progress with_reducible refine keeps_upd ?_ rfl rfl rfl rfl rfl rfl rfl rfl rfl rfl rfl rfl rfl rfl rfl rfl rfl rfl rfl rfl rfl

theorem syncPfx_keeps {σ : State} {e : PfxEntry} {s : State} (h_s : Keeps σ s) :
    Keeps σ (syncPfx e s) := by
  unfold syncPfx
  repeat' first
    | with_reducible assumption
    | intro _
    | extract_lets
    | with_reducible refine forEach_keeps ?_ ?_
    | with_reducible refine mirrorPage_keeps ?_
    | with_reducible refine mirrorPfx_keeps ?_
    | with_reducible refine mirrorLayer_keeps ?_
    | fail_if_no_progress with_reducible refine keeps_upd ?_ rfl rfl rfl rfl rfl rfl rfl rfl rfl rfl rfl rfl rfl rfl rfl rfl rfl rfl rfl rfl rfl
    | split
    | dsimp +zetaDelta only

theorem syncAll_keeps {σ : State} {s : State} (h_s : Keeps σ s) :
    Keeps σ (syncAll s) := by
  unfold syncAll
  repeat' first
    | with_reducible assumption
    | intro _
    | extract_lets
    | with_reducible refine forEach_keeps ?_ ?_
    | with_reducible refine syncPfx_keeps ?_
    | with_reducible refine mirrorCmd_keeps ?_
    | with_reducible refine syncSeq_keeps ?_
    | fail_if_no_progress with_reducible refine keeps_upd ?_ rfl rfl rfl rfl rfl rfl rfl rfl rfl rfl rfl rfl rfl rfl rfl rfl rfl rfl rfl rfl rfl

theorem joinPair_keeps {σ : State} {s : State} (h_s : Keeps σ s) :
    Keeps σ (joinPair s) := by
  unfold joinPair
  repeat' first
    | with_reducible assumption
    | intro _
    | with_reducible refine keeps_ite ?_ ?_
    | with_reducible refine setPairSt_keeps ?_
    | with_reducible refine syncAll_keeps ?_
    | with_reducible refine discardMirror_keeps ?_
    | split

theorem settleSenior_keeps {σ : State} {p : Params} {s : State} (h_s : Keeps σ s) :
    Keeps σ (settleSenior p s) := by
  unfold settleSenior
  repeat' first
    | with_reducible assumption
    | intro _
    | extract_lets
    | with_reducible refine keeps_ite ?_ ?_
    | with_reducible refine when_keeps ?_ ?_
    | with_reducible refine pldm_keeps ?_
    | with_reducible refine raise_keeps ?_
    | with_reducible refine wr_keeps ?_
    | with_reducible refine discardMirror_keeps ?_
    | with_reducible refine endAll_keeps ?_
    | with_reducible refine leavePrimary_keeps ?_
    | split

theorem meetPartner_keeps {σ : State} {p : Params} {s0 : State} (h_s0 : Keeps σ s0) :
    Keeps σ (meetPartner p s0) := by
  unfold meetPartner
  repeat' first
    | with_reducible assumption
    | intro _
    | extract_lets
    | with_reducible refine keeps_ite ?_ ?_
    | with_reducible refine joinPair_keeps ?_
    | with_reducible refine setWatch_keeps ?_
    | with_reducible refine raiseEpoch_keeps ?_
    | with_reducible refine settleSenior_keeps ?_
    | fail_if_no_progress with_reducible refine keeps_upd ?_ rfl rfl rfl rfl rfl rfl rfl rfl rfl rfl rfl rfl rfl rfl rfl rfl rfl rfl rfl rfl rfl
    | split

theorem rxAdvance_keeps {σ : State} {st : Nat} {s : State} (h_s : Keeps σ s) :
    Keeps σ (rxAdvance st s) := by
  unfold rxAdvance
  repeat' first
    | with_reducible assumption
    | intro _
    | fail_if_no_progress with_reducible refine keeps_upd ?_ rfl rfl rfl rfl rfl rfl rfl rfl rfl rfl rfl rfl rfl rfl rfl rfl rfl rfl rfl rfl rfl

theorem sendSpanAck_keeps {σ : State} {st : Nat} {s : State} (h_s : Keeps σ s) :
    Keeps σ (sendSpanAck st s) := by
  unfold sendSpanAck
  repeat' first
    | with_reducible assumption
    | intro _
    | with_reducible refine sendSpan_keeps ?_

theorem mirrorTake_keeps {σ : State} {e : BitVec 1024} {s : State} (h_s : Keeps σ s) :
    Keeps σ (mirrorTake e s) := by
  unfold mirrorTake
  repeat' first
    | with_reducible assumption
    | intro _
    | extract_lets
    | with_reducible refine keeps_ite ?_ ?_
    | with_reducible refine enqueue_keeps ?_
    | with_reducible refine modPfx_keeps ?_
    | with_reducible refine when_keeps ?_ ?_
    | with_reducible refine unusePfx_keeps ?_
    | with_reducible refine dropSeq_keeps ?_
    | with_reducible refine prefixCreateAct_keeps ?_
    | with_reducible refine withdrawPfx_keeps ?_
    | fail_if_no_progress with_reducible refine keeps_upd ?_ rfl rfl rfl rfl rfl rfl rfl rfl rfl rfl rfl rfl rfl rfl rfl rfl rfl rfl rfl rfl rfl
    | split
    | dsimp +zetaDelta only

theorem admitCopied_keeps {σ : State} {q : Request} {seq : Nat} {s : State} (h_s : Keeps σ s) :
    Keeps σ (admitCopied q seq s) := by
  unfold admitCopied
  repeat' first
    | with_reducible assumption
    | intro _
    | extract_lets
    | with_reducible refine keeps_ite ?_ ?_
    | with_reducible refine setSeqSlot_keeps ?_
    | with_reducible refine wr_keeps ?_
    | with_reducible refine setPages_keeps ?_
    | with_reducible refine modRequest_keeps ?_
    | fail_if_no_progress with_reducible refine keeps_upd ?_ rfl rfl rfl rfl rfl rfl rfl rfl rfl rfl rfl rfl rfl rfl rfl rfl rfl rfl rfl rfl rfl
    | split

theorem mirrorDecision_keeps {σ : State} {d : Decided} {s : State} (h_s : Keeps σ s) :
    Keeps σ (mirrorDecision d s) := by
  unfold mirrorDecision
  repeat' first
    | with_reducible assumption
    | intro _
    | extract_lets
    | with_reducible refine keeps_ite ?_ ?_
    | with_reducible refine admitCopied_keeps ?_
    | with_reducible refine admitInto_keeps ?_
    | with_reducible refine modRequest_keeps ?_
    | with_reducible refine when_keeps ?_ ?_
    | with_reducible refine unusePfx_keeps ?_
    | with_reducible refine dropPfx_keeps ?_
    | fail_if_no_progress with_reducible refine keeps_upd ?_ rfl rfl rfl rfl rfl rfl rfl rfl rfl rfl rfl rfl rfl rfl rfl rfl rfl rfl rfl rfl rfl
    | split
    | dsimp +zetaDelta only

theorem copySlot_keeps {σ : State} {q : Nat} {m : Nat} {s : State} (h_s : Keeps σ s) :
    Keeps σ (copySlot q m s) := by
  unfold copySlot
  repeat' first
    | with_reducible assumption
    | intro _
    | with_reducible refine keeps_ite ?_ ?_
    | with_reducible refine setSeqSlot_keeps ?_
    | fail_if_no_progress with_reducible refine keeps_upd ?_ rfl rfl rfl rfl rfl rfl rfl rfl rfl rfl rfl rfl rfl rfl rfl rfl rfl rfl rfl rfl rfl
    | split

theorem lendPage_keeps {σ : State} {q : Nat} {span : Nat} {s : State} (h_s : Keeps σ s) :
    Keeps σ (lendPage q span s) := by
  unfold lendPage
  repeat' first
    | with_reducible assumption
    | intro _
    | extract_lets
    | with_reducible refine keeps_ite ?_ ?_
    | with_reducible refine setSeqSlot_keeps ?_
    | with_reducible refine wr_keeps ?_
    | fail_if_no_progress with_reducible refine keeps_upd ?_ rfl rfl rfl rfl rfl rfl rfl rfl rfl rfl rfl rfl rfl rfl rfl rfl rfl rfl rfl rfl rfl
    | split

theorem applyKv_keeps {σ : State} {p : SpanPart} {s : State} (h_s : Keeps σ s) :
    Keeps σ (applyKv p s) := by
  unfold applyKv
  dsimp only
  split
  · exact h_s
  · rename_i heq
    exact storeGranules_keeps (commitPage_keeps heq (lendPage_keeps (copySlot_keeps h_s)))

theorem applyState_keeps {σ : State} {p : SpanPart} {s : State} (h_s : Keeps σ s) :
    Keeps σ (applyState p s) := by
  unfold applyState
  repeat' first
    | with_reducible assumption
    | intro _
    | extract_lets
    | with_reducible refine keeps_ite ?_ ?_
    | with_reducible refine modSeqSlot_keeps ?_
    | with_reducible refine copySlot_keeps ?_
    | fail_if_no_progress with_reducible refine keeps_upd ?_ rfl rfl rfl rfl rfl rfl rfl rfl rfl rfl rfl rfl rfl rfl rfl rfl rfl rfl rfl rfl rfl
    | split

theorem applyPfx_keeps {σ : State} {d : PfxChange} {s : State} (h_s : Keeps σ s) :
    Keeps σ (applyPfx d s) := by
  unfold applyPfx
  repeat' first
    | with_reducible assumption
    | intro _
    | extract_lets
    | with_reducible refine keeps_ite ?_ ?_
    | with_reducible refine withdrawPfx_keeps ?_
    | with_reducible refine modPfx_keeps ?_
    | with_reducible refine setSeqSlot_keeps ?_
    | with_reducible refine clearList_keeps ?_
    | with_reducible refine returnResv_keeps ?_
    | fail_if_no_progress with_reducible refine keeps_upd ?_ rfl rfl rfl rfl rfl rfl rfl rfl rfl rfl rfl rfl rfl rfl rfl rfl rfl rfl rfl rfl rfl
    | split
    | dsimp +zetaDelta only

theorem applyPart_keeps {σ : State} {p : SpanPart} {s : State} (h_s : Keeps σ s) :
    Keeps σ (applyPart p s) := by
  unfold applyPart
  repeat' first
    | with_reducible assumption
    | intro _
    | extract_lets
    | with_reducible refine keeps_ite ?_ ?_
    | with_reducible refine applyKv_keeps ?_
    | with_reducible refine applyState_keeps ?_
    | with_reducible refine applyPfx_keeps ?_
    | split

theorem keepEnded_keeps {σ : State} {m : Nat} {q : Request} {status : Nat} {len : Nat} {s : State} (h_s : Keeps σ s) :
    Keeps σ (keepEnded m q status len s) := by
  unfold keepEnded
  repeat' first
    | with_reducible assumption
    | intro _
    | with_reducible refine keeps_ite ?_ ?_
    | fail_if_no_progress with_reducible refine keeps_upd ?_ rfl rfl rfl rfl rfl rfl rfl rfl rfl rfl rfl rfl rfl rfl rfl rfl rfl rfl rfl rfl rfl
    | split

theorem applyCommitSeq_keeps {σ : State} {m : Nat} {c : CommitSeq} {s : State} (h_s : Keeps σ s) :
    Keeps σ (applyCommitSeq m c s) := by
  unfold applyCommitSeq
  repeat' first
    | with_reducible assumption
    | intro _
    | extract_lets
    | with_reducible refine keeps_ite ?_ ?_
    | with_reducible refine keepEnded_keeps ?_
    | with_reducible refine when_keeps ?_ ?_
    | with_reducible refine unusePfx_keeps ?_
    | with_reducible refine releaseSeq_keeps ?_
    | with_reducible refine modRequest_keeps ?_
    | fail_if_no_progress with_reducible refine keeps_upd ?_ rfl rfl rfl rfl rfl rfl rfl rfl rfl rfl rfl rfl rfl rfl rfl rfl rfl rfl rfl rfl rfl
    | split
    | dsimp +zetaDelta only

theorem applyCommit_keeps {σ : State} {d : CommitData} {s : State} (h_s : Keeps σ s) :
    Keeps σ (applyCommit d s) := by
  unfold applyCommit
  repeat' first
    | with_reducible assumption
    | intro _
    | extract_lets
    | with_reducible refine forEach_keeps ?_ ?_
    | with_reducible refine applyPart_keeps ?_
    | with_reducible refine applyCommitSeq_keeps ?_
    | fail_if_no_progress with_reducible refine keeps_upd ?_ rfl rfl rfl rfl rfl rfl rfl rfl rfl rfl rfl rfl rfl rfl rfl rfl rfl rfl rfl rfl rfl

theorem takePart_keeps {σ : State} {p : SpanPart} {s : State} (h_s : Keeps σ s) :
    Keeps σ (takePart p s) := by
  unfold takePart
  repeat' first
    | with_reducible assumption
    | intro _
    | with_reducible refine keeps_ite ?_ ?_
    | with_reducible refine applyPart_keeps ?_
    | fail_if_no_progress with_reducible refine keeps_upd ?_ rfl rfl rfl rfl rfl rfl rfl rfl rfl rfl rfl rfl rfl rfl rfl rfl rfl rfl rfl rfl rfl
    | split

theorem keepTokensIn_keeps {σ : State} {m : SpanMsg} {s : State} (h_s : Keeps σ s) :
    Keeps σ (keepTokensIn m s) := by
  unfold keepTokensIn
  repeat' first
    | with_reducible assumption
    | intro _
    | extract_lets
    | fail_if_no_progress with_reducible refine keeps_upd ?_ rfl rfl rfl rfl rfl rfl rfl rfl rfl rfl rfl rfl rfl rfl rfl rfl rfl rfl rfl rfl rfl

theorem syncAgain_keeps {σ : State} {s : State} (h_s : Keeps σ s) :
    Keeps σ (syncAgain s) := by
  unfold syncAgain
  repeat' first
    | with_reducible assumption
    | intro _
    | with_reducible refine sendSpan_keeps ?_
    | with_reducible refine setPairSt_keeps ?_
    | with_reducible refine discardMirror_keeps ?_

theorem applyFrame_keeps {σ : State} {d : FrameData} {s : State} (h_s : Keeps σ s) :
    Keeps σ (applyFrame d s) := by
  unfold applyFrame
  repeat' first
    | with_reducible assumption
    | intro _
    | extract_lets
    | with_reducible refine keeps_ite ?_ ?_
    | with_reducible refine forEach_keeps ?_ ?_
    | with_reducible refine mirrorDecision_keeps ?_
    | with_reducible refine wr_keeps ?_
    | with_reducible refine when_keeps ?_ ?_
    | with_reducible refine raise_keeps ?_
    | with_reducible refine syncAgain_keeps ?_
    | fail_if_no_progress with_reducible refine keeps_upd ?_ rfl rfl rfl rfl rfl rfl rfl rfl rfl rfl rfl rfl rfl rfl rfl rfl rfl rfl rfl rfl rfl
    | with_reducible refine foldl_keeps ?_ ?_
    | split

theorem chargeCross_keeps {σ : State} {act : Nat} {h : Nat} {s : State} (h_s : Keeps σ s) :
    Keeps σ (chargeCross act h s) := by
  unfold chargeCross
  repeat' first
    | with_reducible assumption
    | intro _
    | with_reducible refine charge_keeps ?_
    | with_reducible refine chargeEnergy_keeps ?_

theorem crossIn_keeps {σ : State} {m : Nat} {act : Nat} {r : BitVec 128} {x0 : Nat} {x1 : List Granule} {x2 : State} (h_x2 : Keeps σ x2) :
    Keeps σ (crossIn m act r x0 x1 x2) := by
  induction x1 generalizing m act r x0 x2 with
  | nil => (unfold crossIn; repeat' first
      | with_reducible assumption
      | intro _
      | with_reducible refine goOn_keeps ?_
      | fail_if_no_progress with_reducible refine keeps_upd ?_ rfl rfl rfl rfl rfl rfl rfl rfl rfl rfl rfl rfl rfl rfl rfl rfl rfl rfl rfl rfl rfl)
  | cons _ _ ih => (unfold crossIn; repeat' first
      | with_reducible assumption
      | with_reducible apply ih
      | (injections; subst_vars; with_reducible apply ih)
      | intro _
      | with_reducible refine goOn_keeps ?_
      | fail_if_no_progress with_reducible refine keeps_upd ?_ rfl rfl rfl rfl rfl rfl rfl rfl rfl rfl rfl rfl rfl rfl rfl rfl rfl rfl rfl rfl rfl)

theorem applyXing_keeps {σ : State} {x : SpanMsg} {s : State} (h_s : Keeps σ s) :
    Keeps σ (applyXing x s) := by
  unfold applyXing
  repeat' first
    | with_reducible assumption
    | intro _
    | extract_lets
    | with_reducible refine keeps_ite ?_ ?_
    | with_reducible refine crossIn_keeps ?_
    | with_reducible refine when_keeps ?_ ?_
    | with_reducible refine chargeCross_keeps ?_
    | fail_if_no_progress with_reducible refine keeps_upd ?_ rfl rfl rfl rfl rfl rfl rfl rfl rfl rfl rfl rfl rfl rfl rfl rfl rfl rfl rfl rfl rfl
    | split
    | dsimp +zetaDelta only

theorem applyResult_keeps {σ : State} {d : SplitResult} {s : State} (h_s : Keeps σ s) :
    Keeps σ (applyResult d s) := by
  unfold applyResult
  repeat' first
    | with_reducible assumption
    | intro _
    | extract_lets
    | with_reducible refine setResult_keeps ?_
    | with_reducible refine setCrossed_keeps ?_
    | fail_if_no_progress with_reducible refine keeps_upd ?_ rfl rfl rfl rfl rfl rfl rfl rfl rfl rfl rfl rfl rfl rfl rfl rfl rfl rfl rfl rfl rfl
    | split
    | dsimp +zetaDelta only

theorem passRsp__keeps {σ : State} {m : Nat} {code : Nat} {s : State} (h_s : Keeps σ s) :
    Keeps σ (passRsp_ m code s) := by
  unfold passRsp_
  repeat' first
    | with_reducible assumption
    | intro _
    | with_reducible refine sendSpan_keeps ?_

theorem placePart_keeps {σ : State} {m : Nat} {slice : Nat} {off : Nat} {lastOne : Bool} {gs : List Granule} {r : LoadRecv} {s : State} (h_s : Keeps σ s) :
    Keeps σ (placePart m slice off lastOne gs r s) := by
  unfold placePart
  repeat' first
    | with_reducible assumption
    | intro _
    | extract_lets
    | with_reducible refine keeps_ite ?_ ?_
    | with_reducible refine endReceive_keeps ?_
    | with_reducible refine passRsp__keeps ?_
    | with_reducible refine modModelSlot_keeps ?_
    | with_reducible refine placeSegment_keeps ?_
    | fail_if_no_progress with_reducible refine keeps_upd ?_ rfl rfl rfl rfl rfl rfl rfl rfl rfl rfl rfl rfl rfl rfl rfl rfl rfl rfl rfl rfl rfl
    | split
    | dsimp +zetaDelta only

theorem dropPart_keeps {σ : State} {m : Nat} {lastOne : Bool} {s : State} (h_s : Keeps σ s) :
    Keeps σ (dropPart m lastOne s) := by
  unfold dropPart
  repeat' first
    | with_reducible assumption
    | intro _
    | with_reducible refine passRsp__keeps ?_
    | with_reducible refine when_keeps ?_ ?_
    | with_reducible refine bump_keeps ?_

theorem applyPass_keeps {σ : State} {x : SpanMsg} {s : State} (h_s : Keeps σ s) :
    Keeps σ (applyPass x s) := by
  unfold applyPass
  repeat' first
    | with_reducible assumption
    | intro _
    | extract_lets
    | with_reducible refine keeps_ite ?_ ?_
    | with_reducible refine placePart_keeps ?_
    | with_reducible refine dropPart_keeps ?_
    | fail_if_no_progress with_reducible refine keeps_upd ?_ rfl rfl rfl rfl rfl rfl rfl rfl rfl rfl rfl rfl rfl rfl rfl rfl rfl rfl rfl rfl rfl
    | split
    | dsimp +zetaDelta only

theorem applySpan_keeps {σ : State} {x : SpanIn} {s : State} (h_s : Keeps σ s) :
    Keeps σ (applySpan x s) := by
  unfold applySpan
  repeat' first
    | with_reducible assumption
    | intro _
    | extract_lets
    | with_reducible refine keeps_ite ?_ ?_
    | with_reducible refine applyXing_keeps ?_
    | with_reducible refine applyPass_keeps ?_
    | with_reducible refine chargeMirror_keeps ?_
    | with_reducible refine mirrorTake_keeps ?_
    | with_reducible refine sendSpanAck_keeps ?_
    | with_reducible refine keepTokensIn_keeps ?_
    | with_reducible refine takePart_keeps ?_
    | with_reducible refine applyCommit_keeps ?_
    | with_reducible refine chargeMirrorSlots_keeps ?_
    | with_reducible refine applyFrame_keeps ?_
    | with_reducible refine applyResult_keeps ?_
    | with_reducible refine scommitted_keeps ?_
    | fail_if_no_progress with_reducible refine keeps_upd ?_ rfl rfl rfl rfl rfl rfl rfl rfl rfl rfl rfl rfl rfl rfl rfl rfl rfl rfl rfl rfl rfl
    | split
    | dsimp +zetaDelta only

theorem drainAhead_keeps {σ : State} {st : Nat} {x0 : Nat} {x1 : State} (h_x1 : Keeps σ x1) :
    Keeps σ (drainAhead st x0 x1) := by
  induction x0 generalizing st x1 with
  | zero => (unfold drainAhead; repeat' first
      | with_reducible assumption
      | intro _
      | extract_lets
      | with_reducible refine keeps_ite ?_ ?_
      | with_reducible refine applySpan_keeps ?_
      | with_reducible refine rxAdvance_keeps ?_
      | fail_if_no_progress with_reducible refine keeps_upd ?_ rfl rfl rfl rfl rfl rfl rfl rfl rfl rfl rfl rfl rfl rfl rfl rfl rfl rfl rfl rfl rfl
      | split
      | dsimp +zetaDelta only)
  | succ _ ih => (unfold drainAhead; repeat' first
      | with_reducible assumption
      | with_reducible apply ih
      | (injections; subst_vars; with_reducible apply ih)
      | intro _
      | extract_lets
      | with_reducible refine keeps_ite ?_ ?_
      | with_reducible refine applySpan_keeps ?_
      | with_reducible refine rxAdvance_keeps ?_
      | fail_if_no_progress with_reducible refine keeps_upd ?_ rfl rfl rfl rfl rfl rfl rfl rfl rfl rfl rfl rfl rfl rfl rfl rfl rfl rfl rfl rfl rfl
      | split
      | dsimp +zetaDelta only)

theorem receiveSpan_keeps {σ : State} {st : Nat} {psn : Nat} {x : SpanIn} {s : State} (h_s : Keeps σ s) :
    Keeps σ (receiveSpan st psn x s) := by
  unfold receiveSpan
  repeat' first
    | with_reducible assumption
    | intro _
    | extract_lets
    | with_reducible refine keeps_ite ?_ ?_
    | with_reducible refine applySpan_keeps ?_
    | with_reducible refine rxAdvance_keeps ?_
    | with_reducible refine drainAhead_keeps ?_
    | fail_if_no_progress with_reducible refine keeps_upd ?_ rfl rfl rfl rfl rfl rfl rfl rfl rfl rfl rfl rfl rfl rfl rfl rfl rfl rfl rfl rfl rfl
    | split

theorem takeInbox_keeps {σ : State} {op : Nat} {s : State} (h_s : Keeps σ s) :
    Keeps σ (takeInbox op s) := by
  unfold takeInbox
  repeat' first
    | with_reducible assumption
    | intro _
    | fail_if_no_progress with_reducible refine keeps_upd ?_ rfl rfl rfl rfl rfl rfl rfl rfl rfl rfl rfl rfl rfl rfl rfl rfl rfl rfl rfl rfl rfl
    | split

theorem startTakeover_keeps {σ : State} {epoch : Nat} {durable : Bool} {s : State} (h_s : Keeps σ s) :
    Keeps σ (startTakeover epoch durable s) := by
  unfold startTakeover
  repeat' first
    | with_reducible assumption
    | intro _
    | extract_lets
    | with_reducible refine keeps_ite ?_ ?_
    | with_reducible refine setWatch_keeps ?_
    | with_reducible refine freezeMirror_keeps ?_
    | with_reducible refine setPairSt_keeps ?_
    | with_reducible refine durable_keeps ?_
    | with_reducible refine wr_keeps ?_
    | with_reducible refine raiseEpoch_keeps ?_
    | with_reducible refine forEach_keeps ?_ ?_
    | with_reducible refine endRequest_keeps ?_
    | with_reducible refine losePageReqs_keeps ?_
    | fail_if_no_progress with_reducible refine keeps_upd ?_ rfl rfl rfl rfl rfl rfl rfl rfl rfl rfl rfl rfl rfl rfl rfl rfl rfl rfl rfl rfl rfl
    | split

theorem writeKept_keeps {σ : State} {q : Request} {len : Nat} {kept : List (Nat × List Nat)} {s : State} (h_s : Keeps σ s) :
    Keeps σ (writeKept q len kept s) := by
  unfold writeKept
  repeat' first
    | with_reducible assumption
    | intro _
    | with_reducible refine forEach_keeps ?_ ?_
    | with_reducible refine putEntry_keeps ?_
    | with_reducible refine bumpBy_keeps ?_

theorem rewriteTokens_keeps {σ : State} {m : MirrorReq} {s : State} (h_s : Keeps σ s) :
    Keeps σ (rewriteTokens m s) := by
  unfold rewriteTokens
  repeat' first
    | with_reducible assumption
    | intro _
    | with_reducible refine keeps_ite ?_ ?_
    | with_reducible refine endEntry_keeps ?_
    | with_reducible refine writeKept_keeps ?_
    | fail_if_no_progress with_reducible refine keeps_upd ?_ rfl rfl rfl rfl rfl rfl rfl rfl rfl rfl rfl rfl rfl rfl rfl rfl rfl rfl rfl rfl rfl
    | split

theorem takeoverComplete_keeps {σ : State} {s : State} (h_s : Keeps σ s) :
    Keeps σ (takeoverComplete s) := by
  unfold takeoverComplete
  repeat' first
    | with_reducible assumption
    | intro _
    | extract_lets
    | with_reducible refine keeps_ite ?_ ?_
    | with_reducible refine raise_keeps ?_
    | with_reducible refine setPairSt_keeps ?_
    | with_reducible refine wr_keeps ?_
    | with_reducible refine forEach_keeps ?_ ?_
    | with_reducible refine rewriteTokens_keeps ?_
    | fail_if_no_progress with_reducible refine keeps_upd ?_ rfl rfl rfl rfl rfl rfl rfl rfl rfl rfl rfl rfl rfl rfl rfl rfl rfl rfl rfl rfl rfl
    | split

theorem execTakeoverComplete_keeps {σ : State} {s : State} (h_s : Keeps σ s) :
    ∃ τ, execTakeoverComplete s = .next τ ∧ Keeps σ τ := by
  refine ⟨_, rfl, ?_⟩
  repeat' first
    | with_reducible assumption
    | intro _
    | with_reducible refine takeoverComplete_keeps ?_

theorem syncingComplete_keeps {σ : State} {s : State} (h_s : Keeps σ s) :
    Keeps σ (syncingComplete s) := by
  unfold syncingComplete
  repeat' first
    | with_reducible assumption
    | intro _
    | with_reducible refine keeps_ite ?_ ?_
    | with_reducible refine setPairSt_keeps ?_
    | split

theorem execSyncingComplete_keeps {σ : State} {s : State} (h_s : Keeps σ s) :
    ∃ τ, execSyncingComplete s = .next τ ∧ Keeps σ τ := by
  refine ⟨_, rfl, ?_⟩
  repeat' first
    | with_reducible assumption
    | intro _
    | with_reducible refine syncingComplete_keeps ?_

theorem arbitrate_keeps {σ : State} {action : Nat} {s : State} (h_s : Keeps σ s) :
    Keeps σ (arbitrate action s) := by
  unfold arbitrate
  repeat' first
    | with_reducible assumption
    | intro _
    | extract_lets
    | with_reducible refine keeps_ite ?_ ?_
    | with_reducible refine journal_keeps ?_
    | with_reducible refine raise_keeps ?_
    | fail_if_no_progress with_reducible refine keeps_upd ?_ rfl rfl rfl rfl rfl rfl rfl rfl rfl rfl rfl rfl rfl rfl rfl rfl rfl rfl rfl rfl rfl
    | split

theorem execTakeover_keeps {σ : State} {s : State} (h_s : Keeps σ s) :
    ∃ τ, execTakeover s = .next τ ∧ Keeps σ τ := by
  refine ⟨_, rfl, ?_⟩
  repeat' first
    | with_reducible assumption
    | intro _
    | with_reducible refine arbitrate_keeps ?_

theorem execRelease_keeps {σ : State} {s : State} (h_s : Keeps σ s) :
    ∃ τ, execRelease s = .next τ ∧ Keeps σ τ := by
  refine ⟨_, rfl, ?_⟩
  repeat' first
    | with_reducible assumption
    | intro _
    | with_reducible refine arbitrate_keeps ?_

theorem execResync_keeps {σ : State} {s : State} (h_s : Keeps σ s) :
    ∃ τ, execResync s = .next τ ∧ Keeps σ τ := by
  refine ⟨_, rfl, ?_⟩
  repeat' first
    | with_reducible assumption
    | intro _
    | with_reducible refine arbitrate_keeps ?_

theorem epochDurable_keeps {σ : State} {s : State} (h_s : Keeps σ s) :
    Keeps σ (epochDurable s) := by
  unfold epochDurable
  repeat' first
    | with_reducible assumption
    | intro _
    | extract_lets
    | with_reducible refine wr_keeps ?_
    | with_reducible refine startTakeover_keeps ?_
    | with_reducible refine setPairSt_keeps ?_
    | with_reducible refine discardMirror_keeps ?_
    | with_reducible refine syncAgain_keeps ?_
    | fail_if_no_progress with_reducible refine keeps_upd ?_ rfl rfl rfl rfl rfl rfl rfl rfl rfl rfl rfl rfl rfl rfl rfl rfl rfl rfl rfl rfl rfl
    | split
    | dsimp +zetaDelta only

theorem enterMode_keeps {σ : State} {mode : Nat} {s0 : State} (h_s0 : Keeps σ s0) :
    Keeps σ (enterMode mode s0) := by
  unfold enterMode
  repeat' first
    | with_reducible assumption
    | intro _
    | extract_lets
    | with_reducible refine keeps_ite ?_ ?_
    | with_reducible refine when_keeps ?_ ?_
    | with_reducible refine leaveSplit_keeps ?_
    | with_reducible refine setPairSt_keeps ?_
    | with_reducible refine setWatch_keeps ?_
    | with_reducible refine meetPartner_keeps ?_
    | fail_if_no_progress with_reducible refine keeps_upd ?_ rfl rfl rfl rfl rfl rfl rfl rfl rfl rfl rfl rfl rfl rfl rfl rfl rfl rfl rfl rfl rfl
    | split
    | dsimp +zetaDelta only

theorem pairModeWrite_keeps {σ : State} {v : Word} {s : State} (h_s : Keeps σ s) :
    Keeps σ (pairModeWrite v s) := by
  unfold pairModeWrite
  repeat' first
    | with_reducible assumption
    | intro _
    | extract_lets
    | with_reducible refine keeps_ite ?_ ?_
    | with_reducible refine wr_keeps ?_
    | with_reducible refine enterMode_keeps ?_
    | split

theorem execPairModeWrite_keeps {σ : State} {v : Word} {s : State} (h_s : Keeps σ s) :
    ∃ τ, execPairModeWrite v s = .next τ ∧ Keeps σ τ := by
  refine ⟨_, rfl, ?_⟩
  repeat' first
    | with_reducible assumption
    | intro _
    | with_reducible refine pairModeWrite_keeps ?_

end Sys2Proof.Machine
end

