-- ==== Sys2Proof/Laws/KeepPages.lean ====
section
/-!
SUPPORT. What `Keeps` says, for every function of Machine/Pages.lean that changes the state.
-/
set_option Elab.async false
namespace Sys2Proof.Machine
open Sys2Proof

theorem sendPage_keeps {σ : State} {m : Nat} {p : Nat} {l : Nat} {arg : Nat} {x0 : Nat} {x1 : Nat} {x2 : State} (h_x2 : Keeps σ x2) :
    Keeps σ (sendPage m p l arg x0 x1 x2) := by
  induction x0 generalizing m p l arg x1 x2 with
  | zero => (unfold sendPage; repeat' first
      | with_reducible assumption
      | intro _
      | extract_lets
      | with_reducible refine keeps_ite ?_ ?_
      | with_reducible refine sendSpan_keeps ?_
      | split)
  | succ _ ih => (unfold sendPage; repeat' first
      | with_reducible assumption
      | with_reducible apply ih
      | (injections; subst_vars; with_reducible apply ih)
      | intro _
      | extract_lets
      | with_reducible refine keeps_ite ?_ ?_
      | with_reducible refine sendSpan_keeps ?_
      | split)

theorem countLayer_keeps {σ : State} {wrt : Bool} {m : Nat} {p : Nat} {l : Nat} {s : State} (h_s : Keeps σ s) :
    Keeps σ (countLayer wrt m p l s) := by
  unfold countLayer
  repeat' first
    | with_reducible assumption
    | intro _
    | with_reducible refine countSpan_keeps ?_

theorem answerPage_keeps {σ : State} {arg : Nat} {env : StackEnv} {s : State} (h_s : Keeps σ s) :
    Keeps σ (answerPage arg env s) := by
  unfold answerPage
  repeat' first
    | with_reducible assumption
    | intro _
    | extract_lets
    | with_reducible refine keeps_ite ?_ ?_
    | with_reducible refine sendSpan_keeps ?_
    | with_reducible refine stackMetOf_keeps ?_
    | with_reducible refine countLayer_keeps ?_
    | with_reducible refine chargeSpanStack_keeps ?_
    | with_reducible refine sendPage_keeps ?_
    | fail_if_no_progress with_reducible refine keeps_upd ?_ rfl rfl rfl rfl rfl rfl rfl rfl rfl rfl rfl rfl rfl rfl rfl rfl rfl rfl rfl rfl rfl
    | split
    | dsimp +zetaDelta only

theorem fillPage_keeps {σ : State} {m : Nat} {p : Nat} {l : Nat} {x0 : Nat} {x1 : List Slot16} {x2 : State} (h_x2 : Keeps σ x2) :
    Keeps σ (fillPage m p l x0 x1 x2) := by
  induction x1 generalizing m p l x0 x2 with
  | nil => (unfold fillPage; repeat' first
      | with_reducible assumption
      | intro _
      | with_reducible refine stackPut_keeps ?_)
  | cons _ _ ih => (unfold fillPage; repeat' first
      | with_reducible assumption
      | with_reducible apply ih
      | (injections; subst_vars; with_reducible apply ih)
      | intro _
      | with_reducible refine stackPut_keeps ?_)

theorem restorePart_keeps {σ : State} {r : PageReq} {data : List Slot16} {s : State} (h_s : Keeps σ s) :
    Keeps σ (restorePart r data s) := by
  unfold restorePart
  repeat' first
    | with_reducible assumption
    | intro _
    | extract_lets
    | with_reducible refine keeps_ite ?_ ?_
    | with_reducible refine loseRequested_keeps ?_
    | with_reducible refine chargeSpanStack_keeps ?_
    | with_reducible refine fillPage_keeps ?_
    | with_reducible refine countLayer_keeps ?_
    | fail_if_no_progress with_reducible refine keeps_upd ?_ rfl rfl rfl rfl rfl rfl rfl rfl rfl rfl rfl rfl rfl rfl rfl rfl rfl rfl rfl rfl rfl
    | split
    | dsimp +zetaDelta only

theorem pageMessage_keeps {σ : State} {x : SpanMsg × StackEnv} {s : State} (h_s : Keeps σ s) :
    Keeps σ (pageMessage x s) := by
  unfold pageMessage
  repeat' first
    | with_reducible assumption
    | intro _
    | with_reducible refine keeps_ite ?_ ?_
    | with_reducible refine answerPage_keeps ?_
    | with_reducible refine restorePart_keeps ?_
    | fail_if_no_progress with_reducible refine keeps_upd ?_ rfl rfl rfl rfl rfl rfl rfl rfl rfl rfl rfl rfl rfl rfl rfl rfl rfl rfl rfl rfl rfl
    | split

theorem flushPages_keeps {σ : State} {s : State} (h_s : Keeps σ s) :
    Keeps σ (flushPages s) := by
  unfold flushPages
  repeat' first
    | with_reducible assumption
    | intro _
    | with_reducible refine forEach_keeps ?_ ?_
    | with_reducible refine pageMessage_keeps ?_
    | fail_if_no_progress with_reducible refine keeps_upd ?_ rfl rfl rfl rfl rfl rfl rfl rfl rfl rfl rfl rfl rfl rfl rfl rfl rfl rfl rfl rfl rfl

theorem pageReq_keeps {σ : State} {m : SpanMsg} {env : StackEnv} {s : State} (h_s : Keeps σ s) :
    Keeps σ (pageReq m env s) := by
  unfold pageReq
  repeat' first
    | with_reducible assumption
    | intro _
    | with_reducible refine pageMessage_keeps ?_
    | with_reducible refine takeInbox_keeps ?_
    | fail_if_no_progress with_reducible refine keeps_upd ?_ rfl rfl rfl rfl rfl rfl rfl rfl rfl rfl rfl rfl rfl rfl rfl rfl rfl rfl rfl rfl rfl

theorem pageData_keeps {σ : State} {m : SpanMsg} {s : State} (h_s : Keeps σ s) :
    Keeps σ (pageData m s) := by
  unfold pageData
  repeat' first
    | with_reducible assumption
    | intro _
    | with_reducible refine pageMessage_keeps ?_
    | with_reducible refine takeInbox_keeps ?_
    | fail_if_no_progress with_reducible refine keeps_upd ?_ rfl rfl rfl rfl rfl rfl rfl rfl rfl rfl rfl rfl rfl rfl rfl rfl rfl rfl rfl rfl rfl

theorem execPageReq_keeps {σ : State} {x : PageAsk} {s : State} (h_s : Keeps σ s) :
    ∃ τ, execPageReq x s = .next τ ∧ Keeps σ τ := by
  refine ⟨_, rfl, ?_⟩
  repeat' first
    | with_reducible assumption
    | intro _
    | with_reducible refine pageReq_keeps ?_

theorem execPageData_keeps {σ : State} {m : SpanMsg} {s : State} (h_s : Keeps σ s) :
    ∃ τ, execPageData m s = .next τ ∧ Keeps σ τ := by
  refine ⟨_, rfl, ?_⟩
  repeat' first
    | with_reducible assumption
    | intro _
    | with_reducible refine pageData_keeps ?_

end Sys2Proof.Machine
end

