-- ==== Sys2Proof/Laws/KeepFrame.lean ====
section
/-!
SUPPORT. What `Keeps` says, for every function of Machine/Frame.lean that changes the state.
-/
set_option Elab.async false
namespace Sys2Proof.Machine
open Sys2Proof

theorem checkInvariants_keeps {σ : State} {s : State} (h_s : Keeps σ s) :
    Keeps σ (checkInvariants s) := by
  unfold checkInvariants
  have h1 : Keeps σ (match violated s with
      | [] => s
      | c :: _ => fatal 0x01 c s) := by
    split
    · exact h_s
    · exact fatal_keeps h_s
  exact cells_keeps h1 fun w => Table.wf_mapVals _ _ _ w

theorem rollOne_keeps {σ : State} {a : Nat} {k : Nat} {s : State} (h_s : Keeps σ s) :
    Keeps σ (rollOne a k s) := by
  unfold rollOne
  extract_lets u p lim past capped keep part s1 s2
  have h2 : Keeps σ s2 := when_keeps (fun _ h => wr_keeps h) (wr_keeps (wr_keeps h_s))
  exact keeps_tables h2 rfl rfl rfl rfl rfl rfl fun t => { t with
    part := Table.wf_set _ _ _ _ t.part, limits := Table.wf_set _ _ _ _ t.limits }

theorem noteFrame_keeps {σ : State} {a : Nat} {s : State} (h_s : Keeps σ s) :
    Keeps σ (noteFrame a s) := by
  unfold noteFrame
  repeat' first
    | with_reducible assumption
    | intro _
    | extract_lets
    | with_reducible refine setTeleBase_keeps ?_

theorem rollActivity_keeps {σ : State} {a : Nat} {s : State} (h_s : Keeps σ s) :
    Keeps σ (rollActivity a s) := by
  unfold rollActivity
  repeat' first
    | with_reducible assumption
    | intro _
    | extract_lets
    | with_reducible refine wr_keeps ?_
    | with_reducible refine noteFrame_keeps ?_
    | with_reducible refine forEach_keeps ?_ ?_
    | with_reducible refine rollOne_keeps ?_
    | with_reducible refine checkHeld_keeps ?_
    | with_reducible refine setTeleBase_keeps ?_

theorem drainStream_keeps {σ : State} {st : Nat} {s : State} (h_s : Keeps σ s) :
    Keeps σ (drainStream st s) := by
  unfold drainStream
  repeat' first
    | with_reducible assumption
    | intro _
    | with_reducible refine drainAhead_keeps ?_

theorem resumePass_keeps {σ : State} {s : State} (h_s : Keeps σ s) :
    Keeps σ (resumePass s) := by
  unfold resumePass
  repeat' first
    | with_reducible assumption
    | intro _
    | with_reducible refine drainStream_keeps ?_
    | with_reducible refine flushPass_keeps ?_
    | with_reducible refine resumeLoads_keeps ?_

theorem rollBudgets_keeps {σ : State} {s : State} (h_s : Keeps σ s) :
    Keeps σ (rollBudgets s) := by
  unfold rollBudgets
  repeat' first
    | with_reducible assumption
    | intro _
    | with_reducible refine resumePass_keeps ?_
    | with_reducible refine drainStream_keeps ?_
    | with_reducible refine flushMirror_keeps ?_
    | with_reducible refine flushPages_keeps ?_
    | with_reducible refine forEach_keeps ?_ ?_
    | with_reducible refine rollActivity_keeps ?_

theorem rollUse_keeps {σ : State} {m : Nat} {s : State} (h_s : Keeps σ s) :
    Keeps σ (rollUse m s) := by
  unfold rollUse
  repeat' first
    | with_reducible assumption
    | intro _
    | extract_lets
    | with_reducible refine keeps_ite ?_ ?_
    | with_reducible refine wr_keeps ?_
    | with_reducible refine setModelSlot_keeps ?_
    | fail_if_no_progress with_reducible refine keeps_upd ?_ rfl rfl rfl rfl rfl rfl rfl rfl rfl rfl rfl rfl rfl rfl rfl rfl rfl rfl rfl rfl rfl
    | split

theorem ageReceive_keeps {σ : State} {m : Nat} {s : State} (h_s : Keeps σ s) :
    Keeps σ (ageReceive m s) := by
  unfold ageReceive
  repeat' first
    | with_reducible assumption
    | intro _
    | with_reducible refine modModelSlot_keeps ?_
    | fail_if_no_progress with_reducible refine keeps_upd ?_ rfl rfl rfl rfl rfl rfl rfl rfl rfl rfl rfl rfl rfl rfl rfl rfl rfl rfl rfl rfl rfl

theorem retryHeader_keeps {σ : State} {k : Nat} {s : State} (h_s : Keeps σ s) :
    Keeps σ (retryHeader k s) := by
  unfold retryHeader
  repeat' first
    | with_reducible assumption
    | intro _
    | with_reducible refine keeps_ite ?_ ?_
    | with_reducible refine hostRead_keeps ?_
    | split

theorem rereadWatches_keeps {σ : State} {s : State} (h_s : Keeps σ s) :
    Keeps σ (rereadWatches s) := by
  unfold rereadWatches
  repeat' first
    | with_reducible assumption
    | intro _
    | with_reducible refine keeps_ite ?_ ?_
    | with_reducible refine forEach_keeps ?_ ?_
    | with_reducible refine retryHeader_keeps ?_
    | with_reducible refine hostRead_keeps ?_
    | split

theorem ageOcl_keeps {σ : State} {s : State} (h_s : Keeps σ s) :
    Keeps σ (ageOcl s) := by
  unfold ageOcl
  repeat' first
    | with_reducible assumption
    | intro _
    | extract_lets
    | with_reducible refine keeps_ite ?_ ?_
    | with_reducible refine modLink_keeps ?_
    | fail_if_no_progress with_reducible refine keeps_upd ?_ rfl rfl rfl rfl rfl rfl rfl rfl rfl rfl rfl rfl rfl rfl rfl rfl rfl rfl rfl rfl rfl
    | split

theorem clearLate_keeps {σ : State} {s : State} (h_s : Keeps σ s) :
    Keeps σ (clearLate s) := by
  unfold clearLate
  repeat' first
    | with_reducible assumption
    | intro _
    | with_reducible refine forEach_keeps ?_ ?_
    | with_reducible refine modModelSlot_keeps ?_
    | fail_if_no_progress with_reducible refine keeps_upd ?_ rfl rfl rfl rfl rfl rfl rfl rfl rfl rfl rfl rfl rfl rfl rfl rfl rfl rfl rfl rfl rfl

theorem agePast_keeps {σ : State} {s : State} (h_s : Keeps σ s) :
    Keeps σ (agePast s) := by
  unfold agePast
  repeat' first
    | with_reducible assumption
    | intro _
    | fail_if_no_progress with_reducible refine keeps_upd ?_ rfl rfl rfl rfl rfl rfl rfl rfl rfl rfl rfl rfl rfl rfl rfl rfl rfl rfl rfl rfl rfl

theorem mirrorFrame_keeps {σ : State} {s : State} (h_s : Keeps σ s) :
    Keeps σ (mirrorFrame s) := by
  unfold mirrorFrame
  repeat' first
    | with_reducible assumption
    | intro _
    | extract_lets
    | with_reducible refine forEach_keeps ?_ ?_
    | with_reducible refine mirrorMsg_keeps ?_

theorem sendFrame_keeps {σ : State} {s : State} (h_s : Keeps σ s) :
    Keeps σ (sendFrame s) := by
  unfold sendFrame
  repeat' first
    | with_reducible assumption
    | intro _
    | extract_lets
    | with_reducible refine keeps_ite ?_ ?_
    | with_reducible refine mirrorFrame_keeps ?_
    | with_reducible refine sendSpan_keeps ?_
    | fail_if_no_progress with_reducible refine keeps_upd ?_ rfl rfl rfl rfl rfl rfl rfl rfl rfl rfl rfl rfl rfl rfl rfl rfl rfl rfl rfl rfl rfl
    | split

theorem gatherFields_keeps {σ : State} {s : State} (h_s : Keeps σ s) :
    Keeps σ (gatherFields s) := by
  unfold gatherFields
  repeat' first
    | with_reducible assumption
    | intro _
    | extract_lets
    | with_reducible refine chargeEnergy_keeps ?_
    | with_reducible refine charge_keeps ?_

theorem writeTele_keeps {σ : State} {x0 : List (List Byte)} {x1 : State} (h_x1 : Keeps σ x1) :
    Keeps σ (writeTele x0 x1) := by
  induction x0 generalizing x1 with
  | nil => (unfold writeTele; repeat' first
      | with_reducible assumption
      | intro _
      | extract_lets
      | with_reducible refine sendWr_keeps ?_
      | fail_if_no_progress with_reducible refine keeps_upd ?_ rfl rfl rfl rfl rfl rfl rfl rfl rfl rfl rfl rfl rfl rfl rfl rfl rfl rfl rfl rfl rfl)
  | cons _ _ ih => (unfold writeTele; repeat' first
      | with_reducible assumption
      | with_reducible apply ih
      | (injections; subst_vars; with_reducible apply ih)
      | intro _
      | extract_lets
      | with_reducible refine sendWr_keeps ?_
      | fail_if_no_progress with_reducible refine keeps_upd ?_ rfl rfl rfl rfl rfl rfl rfl rfl rfl rfl rfl rfl rfl rfl rfl rfl rfl rfl rfl rfl rfl)

theorem rebase_keeps {σ : State} {s : State} (h_s : Keeps σ s) :
    Keeps σ (rebase s) := by
  unfold rebase
  repeat' first
    | with_reducible assumption
    | intro _
    | extract_lets
    | with_reducible refine forEach_keeps ?_ ?_
    | with_reducible refine setTeleBase_keeps ?_

theorem endPeriod_keeps {σ : State} {frame : Nat} {s0 : State} (h_s0 : Keeps σ s0) :
    Keeps σ (endPeriod frame s0) := by
  unfold endPeriod
  repeat' first
    | with_reducible assumption
    | intro _
    | extract_lets
    | with_reducible refine keeps_ite ?_ ?_
    | with_reducible refine gatherFields_keeps ?_
    | with_reducible refine raise_keeps ?_
    | with_reducible refine bump_keeps ?_
    | with_reducible refine writeTele_keeps ?_
    | with_reducible refine rebase_keeps ?_
    | with_reducible refine sendWrPart_keeps ?_
    | fail_if_no_progress with_reducible refine keeps_upd ?_ rfl rfl rfl rfl rfl rfl rfl rfl rfl rfl rfl rfl rfl rfl rfl rfl rfl rfl rfl rfl rfl
    | split

theorem telemetry_keeps {σ : State} {frame : Nat} {s : State} (h_s : Keeps σ s) :
    Keeps σ (telemetry frame s) := by
  unfold telemetry
  repeat' first
    | with_reducible assumption
    | intro _
    | extract_lets
    | with_reducible refine keeps_ite ?_ ?_
    | with_reducible refine endPeriod_keeps ?_
    | fail_if_no_progress with_reducible refine keeps_upd ?_ rfl rfl rfl rfl rfl rfl rfl rfl rfl rfl rfl rfl rfl rfl rfl rfl rfl rfl rfl rfl rfl
    | split

theorem resetRefused_keeps {σ : State} {s : State} (h_s : Keeps σ s) :
    Keeps σ (resetRefused s) := by
  unfold resetRefused
  repeat' first
    | with_reducible assumption
    | intro _
    | with_reducible refine wr_keeps ?_
    | fail_if_no_progress with_reducible refine keeps_upd ?_ rfl rfl rfl rfl rfl rfl rfl rfl rfl rfl rfl rfl rfl rfl rfl rfl rfl rfl rfl rfl rfl

theorem tuneStopped_keeps {σ : State} {s : State} (h_s : Keeps σ s) :
    Keeps σ (tuneStopped s) := by
  unfold tuneStopped
  repeat' first
    | with_reducible assumption
    | intro _
    | with_reducible refine when_keeps ?_ ?_
    | with_reducible refine tuneFailover_keeps ?_

theorem frameActs_keeps {σ : State} {frame : Nat} {s : State} (h_s : Keeps σ s) :
    Keeps σ (frameActs frame s) := by
  unfold frameActs
  repeat' first
    | with_reducible assumption
    | intro _
    | with_reducible refine checkInvariants_keeps ?_
    | with_reducible refine rollBudgets_keeps ?_
    | with_reducible refine forEach_keeps ?_ ?_
    | with_reducible refine switchRecipe_keeps ?_
    | with_reducible refine resetRefused_keeps ?_
    | with_reducible refine admission_keeps ?_
    | with_reducible refine clearLate_keeps ?_
    | with_reducible refine rollUse_keeps ?_
    | with_reducible refine ageReceive_keeps ?_
    | with_reducible refine ageReleases_keeps ?_
    | with_reducible refine ageOcl_keeps ?_
    | with_reducible refine agePast_keeps ?_
    | with_reducible refine tuneStopped_keeps ?_
    | with_reducible refine telemetry_keeps ?_
    | with_reducible refine watchPartner_keeps ?_
    | with_reducible refine sendFrame_keeps ?_
    | with_reducible refine rereadWatches_keeps ?_

theorem frameStart_keeps {σ : State} {t : Nat} {s0 : State} (h_s0 : Keeps σ s0) :
    Keeps σ (frameStart t s0) := by
  unfold frameStart
  repeat' first
    | with_reducible assumption
    | intro _
    | extract_lets
    | with_reducible refine keeps_ite ?_ ?_
    | with_reducible refine atTime_keeps ?_
    | with_reducible refine frameActs_keeps ?_
    | fail_if_no_progress with_reducible refine keeps_upd ?_ rfl rfl rfl rfl rfl rfl rfl rfl rfl rfl rfl rfl rfl rfl rfl rfl rfl rfl rfl rfl rfl
    | split

theorem execFrameStart_keeps {σ : State} {t : Nat} {s : State} (h_s : Keeps σ s) :
    ∃ τ, execFrameStart t s = .next τ ∧ Keeps σ τ := by
  refine ⟨_, rfl, ?_⟩
  repeat' first
    | with_reducible assumption
    | intro _
    | with_reducible refine frameStart_keeps ?_

end Sys2Proof.Machine
end

