-- ==== Sys2Proof/Laws/KeepSpanRows.lean ====
section
/-!
SUPPORT. What `Keeps` says, for every function of Machine/SpanRows.lean that changes the state.
-/
set_option Elab.async false
namespace Sys2Proof.Machine
open Sys2Proof

theorem partnerFailed_keeps {σ : State} {arg : Nat} {s : State} (h_s : Keeps σ s) :
    Keeps σ (partnerFailed arg s) := by
  unfold partnerFailed
  repeat' first
    | with_reducible assumption
    | intro _
    | extract_lets
    | with_reducible refine keeps_ite ?_ ?_
    | with_reducible refine pldm_keeps ?_
    | with_reducible refine raise_keeps ?_
    | with_reducible refine setPairSt_keeps ?_
    | with_reducible refine endSplit_keeps ?_
    | with_reducible refine leaveSplit_keeps ?_
    | with_reducible refine leavePrimary_keeps ?_
    | with_reducible refine losePageReqs_keeps ?_
    | with_reducible refine startTakeover_keeps ?_
    | split

theorem failRow_keeps {σ : State} {port : Nat} {arg : Nat} {s : State} (h_s : Keeps σ s) :
    Keeps σ (failRow port arg s) := by
  unfold failRow
  repeat' first
    | with_reducible assumption
    | intro _
    | with_reducible refine keeps_ite ?_ ?_
    | with_reducible refine partnerFailed_keeps ?_
    | with_reducible refine setWatch_keeps ?_
    | with_reducible refine takeInbox_keeps ?_
    | split

theorem execFail_keeps {σ : State} {port : Nat} {arg : Nat} {s : State} (h_s : Keeps σ s) :
    ∃ τ, execFail port arg s = .next τ ∧ Keeps σ τ := by
  refine ⟨_, rfl, ?_⟩
  repeat' first
    | with_reducible assumption
    | intro _
    | with_reducible refine failRow_keeps ?_

theorem frameRow_keeps {σ : State} {port : Nat} {d : FrameData} {s : State} (h_s : Keeps σ s) :
    Keeps σ (frameRow port d s) := by
  unfold frameRow
  repeat' first
    | with_reducible assumption
    | intro _
    | extract_lets
    | with_reducible refine keeps_ite ?_ ?_
    | with_reducible refine takeInbox_keeps ?_
    | with_reducible refine raiseEpoch_keeps ?_
    | with_reducible refine receiveSpan_keeps ?_
    | fail_if_no_progress with_reducible refine keeps_upd ?_ rfl rfl rfl rfl rfl rfl rfl rfl rfl rfl rfl rfl rfl rfl rfl rfl rfl rfl rfl rfl rfl
    | split

theorem execFrame_keeps {σ : State} {port : Nat} {d : FrameData} {s : State} (h_s : Keeps σ s) :
    ∃ τ, execFrame port d s = .next τ ∧ Keeps σ τ := by
  refine ⟨_, rfl, ?_⟩
  repeat' first
    | with_reducible assumption
    | intro _
    | with_reducible refine frameRow_keeps ?_

theorem forgetSent_keeps {σ : State} {st : Nat} {psn : Nat} {s : State} (h_s : Keeps σ s) :
    Keeps σ (forgetSent st psn s) := by
  unfold forgetSent
  repeat' first
    | with_reducible assumption
    | intro _
    | fail_if_no_progress with_reducible refine keeps_upd ?_ rfl rfl rfl rfl rfl rfl rfl rfl rfl rfl rfl rfl rfl rfl rfl rfl rfl rfl rfl rfl rfl

theorem groupAcked_keeps {σ : State} {p : Nat × Nat} {s : State} (h_s : Keeps σ s) :
    Keeps σ (groupAcked p s) := by
  unfold groupAcked
  repeat' first
    | with_reducible assumption
    | intro _
    | with_reducible refine keeps_ite ?_ ?_
    | with_reducible refine bump_keeps ?_
    | with_reducible refine modLedger_keeps ?_
    | fail_if_no_progress with_reducible refine keeps_upd ?_ rfl rfl rfl rfl rfl rfl rfl rfl rfl rfl rfl rfl rfl rfl rfl rfl rfl rfl rfl rfl rfl
    | split

theorem ackMirror_keeps {σ : State} {psn : Nat} {s : State} (h_s : Keeps σ s) :
    Keeps σ (ackMirror psn s) := by
  unfold ackMirror
  repeat' first
    | with_reducible assumption
    | intro _
    | extract_lets
    | with_reducible refine flushRings_keeps ?_
    | with_reducible refine forEach_keeps ?_ ?_
    | with_reducible refine groupAcked_keeps ?_
    | with_reducible refine settleLedger_keeps ?_
    | fail_if_no_progress with_reducible refine keeps_upd ?_ rfl rfl rfl rfl rfl rfl rfl rfl rfl rfl rfl rfl rfl rfl rfl rfl rfl rfl rfl rfl rfl

theorem ackRow_keeps {σ : State} {arg : Nat} {s : State} (h_s : Keeps σ s) :
    Keeps σ (ackRow arg s) := by
  unfold ackRow
  repeat' first
    | with_reducible assumption
    | intro _
    | extract_lets
    | with_reducible refine keeps_ite ?_ ?_
    | with_reducible refine takeInbox_keeps ?_
    | with_reducible refine forgetSent_keeps ?_
    | with_reducible refine ackMirror_keeps ?_
    | with_reducible refine when_keeps ?_ ?_
    | with_reducible refine syncAll_keeps ?_
    | split

theorem execAck_keeps {σ : State} {arg : Nat} {s : State} (h_s : Keeps σ s) :
    ∃ τ, execAck arg s = .next τ ∧ Keeps σ τ := by
  refine ⟨_, rfl, ?_⟩
  repeat' first
    | with_reducible assumption
    | intro _
    | with_reducible refine ackRow_keeps ?_

theorem streamRow_keeps {σ : State} {st : Nat} {op : Nat} {psn : Nat} {x : SpanIn} {s : State} (h_s : Keeps σ s) :
    Keeps σ (streamRow st op psn x s) := by
  unfold streamRow
  repeat' first
    | with_reducible assumption
    | intro _
    | with_reducible refine keeps_ite ?_ ?_
    | with_reducible refine receiveSpan_keeps ?_
    | with_reducible refine takeInbox_keeps ?_
    | split

theorem execCmd_keeps {σ : State} {m : SpanMsg} {s : State} (h_s : Keeps σ s) :
    ∃ τ, execCmd m s = .next τ ∧ Keeps σ τ := by
  refine ⟨_, rfl, ?_⟩
  repeat' first
    | with_reducible assumption
    | intro _
    | with_reducible refine streamRow_keeps ?_
    | fail_if_no_progress with_reducible refine keeps_upd ?_ rfl rfl rfl rfl rfl rfl rfl rfl rfl rfl rfl rfl rfl rfl rfl rfl rfl rfl rfl rfl rfl

theorem execTokensIn_keeps {σ : State} {m : SpanMsg} {s : State} (h_s : Keeps σ s) :
    ∃ τ, execTokensIn m s = .next τ ∧ Keeps σ τ := by
  refine ⟨_, rfl, ?_⟩
  repeat' first
    | with_reducible assumption
    | intro _
    | with_reducible refine streamRow_keeps ?_
    | fail_if_no_progress with_reducible refine keeps_upd ?_ rfl rfl rfl rfl rfl rfl rfl rfl rfl rfl rfl rfl rfl rfl rfl rfl rfl rfl rfl rfl rfl

theorem execKv_keeps {σ : State} {m : SpanMsg} {s : State} (h_s : Keeps σ s) :
    ∃ τ, execKv m s = .next τ ∧ Keeps σ τ := by
  refine ⟨_, rfl, ?_⟩
  repeat' first
    | with_reducible assumption
    | intro _
    | with_reducible refine streamRow_keeps ?_
    | fail_if_no_progress with_reducible refine keeps_upd ?_ rfl rfl rfl rfl rfl rfl rfl rfl rfl rfl rfl rfl rfl rfl rfl rfl rfl rfl rfl rfl rfl

theorem execSeqstate_keeps {σ : State} {m : SpanMsg} {s : State} (h_s : Keeps σ s) :
    ∃ τ, execSeqstate m s = .next τ ∧ Keeps σ τ := by
  refine ⟨_, rfl, ?_⟩
  repeat' first
    | with_reducible assumption
    | intro _
    | with_reducible refine streamRow_keeps ?_
    | fail_if_no_progress with_reducible refine keeps_upd ?_ rfl rfl rfl rfl rfl rfl rfl rfl rfl rfl rfl rfl rfl rfl rfl rfl rfl rfl rfl rfl rfl

theorem execCommit_keeps {σ : State} {d : CommitData} {s : State} (h_s : Keeps σ s) :
    ∃ τ, execCommit d s = .next τ ∧ Keeps σ τ := by
  refine ⟨_, rfl, ?_⟩
  repeat' first
    | with_reducible assumption
    | intro _
    | with_reducible refine streamRow_keeps ?_

theorem execPfx_keeps {σ : State} {d : PfxChange} {s : State} (h_s : Keeps σ s) :
    ∃ τ, execPfx d s = .next τ ∧ Keeps σ τ := by
  refine ⟨_, rfl, ?_⟩
  repeat' first
    | with_reducible assumption
    | intro _
    | with_reducible refine streamRow_keeps ?_

theorem execPass_keeps {σ : State} {m : SpanMsg} {s : State} (h_s : Keeps σ s) :
    ∃ τ, execPass m s = .next τ ∧ Keeps σ τ := by
  refine ⟨_, rfl, ?_⟩
  repeat' first
    | with_reducible assumption
    | intro _
    | with_reducible refine keeps_ite ?_ ?_
    | with_reducible refine streamRow_keeps ?_
    | fail_if_no_progress with_reducible refine keeps_upd ?_ rfl rfl rfl rfl rfl rfl rfl rfl rfl rfl rfl rfl rfl rfl rfl rfl rfl rfl rfl rfl rfl
    | split

theorem execXing_keeps {σ : State} {m : SpanMsg} {s : State} (h_s : Keeps σ s) :
    ∃ τ, execXing m s = .next τ ∧ Keeps σ τ := by
  refine ⟨_, rfl, ?_⟩
  repeat' first
    | with_reducible assumption
    | intro _
    | with_reducible refine keeps_ite ?_ ?_
    | with_reducible refine streamRow_keeps ?_
    | fail_if_no_progress with_reducible refine keeps_upd ?_ rfl rfl rfl rfl rfl rfl rfl rfl rfl rfl rfl rfl rfl rfl rfl rfl rfl rfl rfl rfl rfl
    | split

theorem execResult_keeps {σ : State} {d : SplitResult} {s : State} (h_s : Keeps σ s) :
    ∃ τ, execResult d s = .next τ ∧ Keeps σ τ := by
  refine ⟨_, rfl, ?_⟩
  repeat' first
    | with_reducible assumption
    | intro _
    | with_reducible refine keeps_ite ?_ ?_
    | with_reducible refine streamRow_keeps ?_
    | split

theorem execScommit_keeps {σ : State} {model : Nat} {launch : Nat} {psn : Nat} {s : State} (h_s : Keeps σ s) :
    ∃ τ, execScommit model launch psn s = .next τ ∧ Keeps σ τ := by
  refine ⟨_, rfl, ?_⟩
  repeat' first
    | with_reducible assumption
    | intro _
    | with_reducible refine keeps_ite ?_ ?_
    | with_reducible refine streamRow_keeps ?_
    | split

theorem passRsp_keeps {σ : State} {m : SpanMsg} {s : State} (h_s : Keeps σ s) :
    Keeps σ (passRsp m s) := by
  unfold passRsp
  repeat' first
    | with_reducible assumption
    | intro _
    | extract_lets
    | with_reducible refine keeps_ite ?_ ?_
    | with_reducible refine takeInbox_keeps ?_
    | with_reducible refine endLoading_keeps ?_
    | fail_if_no_progress with_reducible refine keeps_upd ?_ rfl rfl rfl rfl rfl rfl rfl rfl rfl rfl rfl rfl rfl rfl rfl rfl rfl rfl rfl rfl rfl
    | split
    | dsimp +zetaDelta only

theorem execPassRsp_keeps {σ : State} {m : SpanMsg} {s : State} (h_s : Keeps σ s) :
    ∃ τ, execPassRsp m s = .next τ ∧ Keeps σ τ := by
  refine ⟨_, rfl, ?_⟩
  repeat' first
    | with_reducible assumption
    | intro _
    | with_reducible refine passRsp_keeps ?_

theorem spanCredit_keeps {σ : State} {port : Nat} {slots : Nat} {init : Bool} {s : State} (h_s : Keeps σ s) :
    Keeps σ (spanCredit port slots init s) := by
  unfold spanCredit
  repeat' first
    | with_reducible assumption
    | intro _
    | with_reducible refine keeps_ite ?_ ?_
    | with_reducible refine pump_keeps ?_
    | with_reducible refine modLink_keeps ?_
    | with_reducible refine takeInbox_keeps ?_
    | fail_if_no_progress with_reducible refine keeps_upd ?_ rfl rfl rfl rfl rfl rfl rfl rfl rfl rfl rfl rfl rfl rfl rfl rfl rfl rfl rfl rfl rfl
    | split

theorem execSpanCredit_keeps {σ : State} {port : Nat} {slots : Nat} {init : Bool} {s : State} (h_s : Keeps σ s) :
    ∃ τ, execSpanCredit port slots init s = .next τ ∧ Keeps σ τ := by
  refine ⟨_, rfl, ?_⟩
  repeat' first
    | with_reducible assumption
    | intro _
    | with_reducible refine spanCredit_keeps ?_

theorem splitLaunch_keeps {σ : State} {m : Nat} {entry : Nat} {launch : Nat} {seqs : List (Request × StepSeq)} {s : State} (h_s : Keeps σ s) :
    Keeps σ (splitLaunch m entry launch seqs s) := by
  unfold splitLaunch
  repeat' first
    | with_reducible assumption
    | intro _
    | extract_lets
    | with_reducible refine keeps_ite ?_ ?_
    | with_reducible refine chargeCross_keeps ?_
    | with_reducible refine setCrossed_keeps ?_
    | fail_if_no_progress with_reducible refine keeps_upd ?_ rfl rfl rfl rfl rfl rfl rfl rfl rfl rfl rfl rfl rfl rfl rfl rfl rfl rfl rfl rfl rfl
    | split

theorem execSplitLaunch_keeps {σ : State} {m : Nat} {b : BackLaunch} {s : State} (h_s : Keeps σ s) :
    ∃ τ, execSplitLaunch m b s = .next τ ∧ Keeps σ τ := by
  refine ⟨_, rfl, ?_⟩
  repeat' first
    | with_reducible assumption
    | intro _
    | with_reducible refine splitLaunch_keeps ?_

end Sys2Proof.Machine
end

