-- ==== Sys2Proof/Laws/KeepLinkRows.lean ====
section
/-!
SUPPORT. What `Keeps` says, for every function of Machine/LinkRows.lean that changes the state.
-/
set_option Elab.async false
namespace Sys2Proof.Machine
open Sys2Proof

theorem discardMsg_keeps {σ : State} {i : Nat} {s : State} (h_s : Keeps σ s) :
    Keeps σ (discardMsg i s) := by
  unfold discardMsg
  repeat' first
    | with_reducible assumption
    | intro _
    | with_reducible refine raise_keeps ?_
    | with_reducible refine bump_keeps ?_

theorem showPorts_keeps {σ : State} {s : State} (h_s : Keeps σ s) :
    Keeps σ (showPorts s) := by
  unfold showPorts
  repeat' first
    | with_reducible assumption
    | intro _
    | extract_lets
    | with_reducible refine wr_keeps ?_
    | with_reducible refine when_keeps ?_ ?_
    | with_reducible refine raise_keeps ?_
    | with_reducible refine foldl_keeps ?_ ?_

theorem setLinkSt_keeps {σ : State} {i : Nat} {n : Nat} {s : State} (h_s : Keeps σ s) :
    Keeps σ (setLinkSt i n s) := by
  unfold setLinkSt
  repeat' first
    | with_reducible assumption
    | intro _
    | extract_lets
    | with_reducible refine keeps_ite ?_ ?_
    | with_reducible refine wr_keeps ?_
    | with_reducible refine showPorts_keeps ?_
    | split

theorem moveSpan_keeps {σ : State} {k : Nat} {s : State} (h_s : Keeps σ s) :
    Keeps σ (moveSpan k s) := by
  unfold moveSpan
  repeat' first
    | with_reducible assumption
    | intro _
    | extract_lets
    | with_reducible refine modLink_keeps ?_
    | with_reducible refine forEach_keeps ?_ ?_
    | with_reducible refine putSpan_keeps ?_
    | fail_if_no_progress with_reducible refine keeps_upd ?_ rfl rfl rfl rfl rfl rfl rfl rfl rfl rfl rfl rfl rfl rfl rfl rfl rfl rfl rfl rfl rfl

theorem goDown_keeps {σ : State} {i : Nat} {t : Nat} {s : State} (h_s : Keeps σ s) :
    Keeps σ (goDown i t s) := by
  unfold goDown
  repeat' first
    | with_reducible assumption
    | intro _
    | extract_lets
    | with_reducible refine keeps_ite ?_ ?_
    | with_reducible refine setLinkSt_keeps ?_
    | with_reducible refine modLink_keeps ?_
    | with_reducible refine raise_keeps ?_
    | with_reducible refine pldm_keeps ?_
    | with_reducible refine moveSpan_keeps ?_
    | fail_if_no_progress with_reducible refine keeps_upd ?_ rfl rfl rfl rfl rfl rfl rfl rfl rfl rfl rfl rfl rfl rfl rfl rfl rfl rfl rfl rfl rfl
    | split

theorem resendSpan_keeps {σ : State} {k : Nat} {s : State} (h_s : Keeps σ s) :
    Keeps σ (resendSpan k s) := by
  unfold resendSpan
  repeat' first
    | with_reducible assumption
    | intro _
    | extract_lets
    | with_reducible refine forEach_keeps ?_ ?_
    | with_reducible refine sendOnPort_keeps ?_
    | fail_if_no_progress with_reducible refine keeps_upd ?_ rfl rfl rfl rfl rfl rfl rfl rfl rfl rfl rfl rfl rfl rfl rfl rfl rfl rfl rfl rfl rfl

theorem resume_keeps {σ : State} {i : Nat} {s : State} (h_s : Keeps σ s) :
    Keeps σ (resume i s) := by
  unfold resume
  repeat' first
    | with_reducible assumption
    | intro _
    | with_reducible refine keeps_ite ?_ ?_
    | with_reducible refine flushEvents_keeps ?_
    | with_reducible refine flushRings_keeps ?_
    | with_reducible refine pump_keeps ?_
    | with_reducible refine flushMirror_keeps ?_
    | split

theorem presenceDetect_keeps {σ : State} {i : Nat} {lanes : Nat} {s : State} (h_s : Keeps σ s) :
    Keeps σ (presenceDetect i lanes s) := by
  unfold presenceDetect
  repeat' first
    | with_reducible assumption
    | intro _
    | with_reducible refine keeps_ite ?_ ?_
    | with_reducible refine setLinkSt_keeps ?_
    | split

theorem execPresenceDetect_keeps {σ : State} {i : Nat} {lanes : Nat} {s : State} (h_s : Keeps σ s) :
    ∃ τ, execPresenceDetect i lanes s = .next τ ∧ Keeps σ τ := by
  refine ⟨_, rfl, ?_⟩
  repeat' first
    | with_reducible assumption
    | intro _
    | with_reducible refine presenceDetect_keeps ?_

theorem equalisationEnd_keeps {σ : State} {i : Nat} {failed : Nat} {s : State} (h_s : Keeps σ s) :
    Keeps σ (equalisationEnd i failed s) := by
  unfold equalisationEnd
  repeat' first
    | with_reducible assumption
    | intro _
    | with_reducible refine keeps_ite ?_ ?_
    | with_reducible refine setLinkSt_keeps ?_
    | with_reducible refine modLink_keeps ?_
    | fail_if_no_progress with_reducible refine keeps_upd ?_ rfl rfl rfl rfl rfl rfl rfl rfl rfl rfl rfl rfl rfl rfl rfl rfl rfl rfl rfl rfl rfl
    | split

theorem execEqualisationEnd_keeps {σ : State} {i : Nat} {failed : Nat} {s : State} (h_s : Keeps σ s) :
    ∃ τ, execEqualisationEnd i failed s = .next τ ∧ Keeps σ τ := by
  refine ⟨_, rfl, ?_⟩
  repeat' first
    | with_reducible assumption
    | intro _
    | with_reducible refine equalisationEnd_keeps ?_

theorem offerParams_keeps {σ : State} {i : Nat} {s : State} (h_s : Keeps σ s) :
    Keeps σ (offerParams i s) := by
  unfold offerParams
  repeat' first
    | with_reducible assumption
    | intro _
    | extract_lets
    | with_reducible refine keeps_ite ?_ ?_
    | with_reducible refine modLink_keeps ?_
    | with_reducible refine sendCredit_keeps ?_
    | with_reducible refine sendOnPort_keeps ?_
    | fail_if_no_progress with_reducible refine keeps_upd ?_ rfl rfl rfl rfl rfl rfl rfl rfl rfl rfl rfl rfl rfl rfl rfl rfl rfl rfl rfl rfl rfl
    | split

theorem relink_keeps {σ : State} {i : Nat} {s : State} (h_s : Keeps σ s) :
    Keeps σ (relink i s) := by
  unfold relink
  repeat' first
    | with_reducible assumption
    | intro _
    | with_reducible refine keeps_ite ?_ ?_
    | with_reducible refine setPairSt_keeps ?_
    | fail_if_no_progress with_reducible refine keeps_upd ?_ rfl rfl rfl rfl rfl rfl rfl rfl rfl rfl rfl rfl rfl rfl rfl rfl rfl rfl rfl rfl rfl
    | split

theorem alignment_keeps {σ : State} {i : Nat} {reversed : Bool} {s : State} (h_s : Keeps σ s) :
    Keeps σ (alignment i reversed s) := by
  unfold alignment
  repeat' first
    | with_reducible assumption
    | intro _
    | extract_lets
    | with_reducible refine keeps_ite ?_ ?_
    | with_reducible refine goDown_keeps ?_
    | with_reducible refine seedLanes_keeps 
    | with_reducible refine relink_keeps ?_
    | with_reducible refine offerParams_keeps ?_
    | with_reducible refine when_keeps ?_ ?_
    | with_reducible refine raise_keeps ?_
    | with_reducible refine setLinkSt_keeps ?_
    | with_reducible refine modLink_keeps ?_
    | with_reducible refine wrB_keeps ?_
    | with_reducible refine wr_keeps ?_
    | fail_if_no_progress with_reducible refine keeps_upd ?_ rfl rfl rfl rfl rfl rfl rfl rfl rfl rfl rfl rfl rfl rfl rfl rfl rfl rfl rfl rfl rfl
    | split
    | dsimp +zetaDelta only

theorem execAlignment_keeps {σ : State} {i : Nat} {reversed : Bool} {s : State} (h_s : Keeps σ s) :
    ∃ τ, execAlignment i reversed s = .next τ ∧ Keeps σ τ := by
  refine ⟨_, rfl, ?_⟩
  repeat' first
    | with_reducible assumption
    | intro _
    | with_reducible refine alignment_keeps ?_

theorem becomeActive_keeps {σ : State} {i : Nat} {p : Params} {s : State} (h_s : Keeps σ s) :
    Keeps σ (becomeActive i p s) := by
  unfold becomeActive
  repeat' first
    | with_reducible assumption
    | intro _
    | with_reducible refine setLinkSt_keeps ?_
    | with_reducible refine modLink_keeps ?_
    | fail_if_no_progress with_reducible refine keeps_upd ?_ rfl rfl rfl rfl rfl rfl rfl rfl rfl rfl rfl rfl rfl rfl rfl rfl rfl rfl rfl rfl rfl

theorem paramsRow_keeps {σ : State} {i : Nat} {p : Params} {t : Nat} {s0 : State} (h_s0 : Keeps σ s0) :
    Keeps σ (paramsRow i p t s0) := by
  unfold paramsRow
  repeat' first
    | with_reducible assumption
    | intro _
    | extract_lets
    | with_reducible refine keeps_ite ?_ ?_
    | with_reducible refine atTime_keeps ?_
    | with_reducible refine goDown_keeps ?_
    | with_reducible refine resume_keeps ?_
    | with_reducible refine becomeActive_keeps ?_
    | with_reducible refine raise_keeps ?_
    | with_reducible refine meetPartner_keeps ?_
    | with_reducible refine resendSpan_keeps ?_
    | fail_if_no_progress with_reducible refine keeps_upd ?_ rfl rfl rfl rfl rfl rfl rfl rfl rfl rfl rfl rfl rfl rfl rfl rfl rfl rfl rfl rfl rfl
    | split

theorem execParams_keeps {σ : State} {i : Nat} {p : Params} {t : Nat} {s : State} (h_s : Keeps σ s) :
    ∃ τ, execParams i p t s = .next τ ∧ Keeps σ τ := by
  refine ⟨_, rfl, ?_⟩
  repeat' first
    | with_reducible assumption
    | intro _
    | with_reducible refine paramsRow_keeps ?_

theorem enterRetrain_keeps {σ : State} {i : Nat} {t : Nat} {s : State} (h_s : Keeps σ s) :
    Keeps σ (enterRetrain i t s) := by
  unfold enterRetrain
  repeat' first
    | with_reducible assumption
    | intro _
    | extract_lets
    | with_reducible refine modLink_keeps ?_
    | with_reducible refine raise_keeps ?_
    | with_reducible refine bump_keeps ?_
    | with_reducible refine setLinkSt_keeps ?_
    | with_reducible refine sendCtl_keeps ?_
    | fail_if_no_progress with_reducible refine keeps_upd ?_ rfl rfl rfl rfl rfl rfl rfl rfl rfl rfl rfl rfl rfl rfl rfl rfl rfl rfl rfl rfl rfl

theorem retrainComplete_keeps {σ : State} {i : Nat} {ok : Bool} {t : Nat} {s0 : State} (h_s0 : Keeps σ s0) :
    Keeps σ (retrainComplete i ok t s0) := by
  unfold retrainComplete
  repeat' first
    | with_reducible assumption
    | intro _
    | extract_lets
    | with_reducible refine keeps_ite ?_ ?_
    | with_reducible refine atTime_keeps ?_
    | with_reducible refine resume_keeps ?_
    | with_reducible refine setLinkSt_keeps ?_
    | with_reducible refine modLink_keeps ?_
    | with_reducible refine seedLanes_keeps 
    | with_reducible refine enterRetrain_keeps ?_
    | fail_if_no_progress with_reducible refine keeps_upd ?_ rfl rfl rfl rfl rfl rfl rfl rfl rfl rfl rfl rfl rfl rfl rfl rfl rfl rfl rfl rfl rfl
    | split

theorem execRetrainComplete_keeps {σ : State} {i : Nat} {ok : Bool} {t : Nat} {s : State} (h_s : Keeps σ s) :
    ∃ τ, execRetrainComplete i ok t s = .next τ ∧ Keeps σ τ := by
  refine ⟨_, rfl, ?_⟩
  repeat' first
    | with_reducible assumption
    | intro _
    | with_reducible refine retrainComplete_keeps ?_

theorem linkDown_keeps {σ : State} {i : Nat} {t : Nat} {s0 : State} (h_s0 : Keeps σ s0) :
    Keeps σ (linkDown i t s0) := by
  unfold linkDown
  repeat' first
    | with_reducible assumption
    | intro _
    | extract_lets
    | with_reducible refine keeps_ite ?_ ?_
    | with_reducible refine atTime_keeps ?_
    | with_reducible refine goDown_keeps ?_
    | split

theorem execLinkDown_keeps {σ : State} {i : Nat} {t : Nat} {s : State} (h_s : Keeps σ s) :
    ∃ τ, execLinkDown i t s = .next τ ∧ Keeps σ τ := by
  refine ⟨_, rfl, ?_⟩
  repeat' first
    | with_reducible assumption
    | intro _
    | with_reducible refine linkDown_keeps ?_

theorem linkRetry_keeps {σ : State} {i : Nat} {t : Nat} {s0 : State} (h_s0 : Keeps σ s0) :
    Keeps σ (linkRetry i t s0) := by
  unfold linkRetry
  repeat' first
    | with_reducible assumption
    | intro _
    | extract_lets
    | with_reducible refine keeps_ite ?_ ?_
    | with_reducible refine atTime_keeps ?_
    | with_reducible refine setLinkSt_keeps ?_
    | split

theorem execLinkRetry_keeps {σ : State} {i : Nat} {t : Nat} {s : State} (h_s : Keeps σ s) :
    ∃ τ, execLinkRetry i t s = .next τ ∧ Keeps σ τ := by
  refine ⟨_, rfl, ?_⟩
  repeat' first
    | with_reducible assumption
    | intro _
    | with_reducible refine linkRetry_keeps ?_

theorem oclCtrlRetrain_keeps {σ : State} {t : Nat} {s0 : State} (h_s0 : Keeps σ s0) :
    Keeps σ (oclCtrlRetrain t s0) := by
  unfold oclCtrlRetrain
  repeat' first
    | with_reducible assumption
    | intro _
    | extract_lets
    | with_reducible refine keeps_ite ?_ ?_
    | with_reducible refine atTime_keeps ?_
    | with_reducible refine enterRetrain_keeps ?_
    | split

theorem execOclCtrlRetrain_keeps {σ : State} {t : Nat} {s : State} (h_s : Keeps σ s) :
    ∃ τ, execOclCtrlRetrain t s = .next τ ∧ Keeps σ τ := by
  refine ⟨_, rfl, ?_⟩
  repeat' first
    | with_reducible assumption
    | intro _
    | with_reducible refine oclCtrlRetrain_keeps ?_

theorem portClear_keeps {σ : State} {i : Nat} {s : State} (h_s : Keeps σ s) :
    Keeps σ (portClear i s) := by
  unfold portClear
  repeat' first
    | with_reducible assumption
    | intro _
    | extract_lets
    | with_reducible refine keeps_ite ?_ ?_
    | fail_if_no_progress with_reducible refine keeps_upd ?_ rfl rfl rfl rfl rfl rfl rfl rfl rfl rfl rfl rfl rfl rfl rfl rfl rfl rfl rfl rfl rfl
    | split

theorem takeAck_keeps {σ : State} {i : Nat} {f : RxFlit} {s : State} (h_s : Keeps σ s) :
    Keeps σ (takeAck i f s) := by
  unfold takeAck
  repeat' first
    | with_reducible assumption
    | intro _
    | extract_lets
    | with_reducible refine keeps_ite ?_ ?_
    | with_reducible refine modLink_keeps ?_
    | with_reducible refine portClear_keeps ?_
    | with_reducible refine pump_keeps ?_
    | with_reducible refine forEach_keeps ?_ ?_
    | with_reducible refine deliver_keeps ?_
    | fail_if_no_progress with_reducible refine keeps_upd ?_ rfl rfl rfl rfl rfl rfl rfl rfl rfl rfl rfl rfl rfl rfl rfl rfl rfl rfl rfl rfl rfl
    | split

theorem replayFlits_keeps {σ : State} {i : Nat} {t : Nat} {s : State} (h_s : Keeps σ s) :
    Keeps σ (replayFlits i t s) := by
  unfold replayFlits
  repeat' first
    | with_reducible assumption
    | intro _
    | extract_lets
    | with_reducible refine keeps_ite ?_ ?_
    | with_reducible refine bump_keeps ?_
    | with_reducible refine setLink_keeps ?_
    | with_reducible refine forEach_keeps ?_ ?_
    | with_reducible refine emit_keeps ?_
    | with_reducible refine enterRetrain_keeps ?_
    | fail_if_no_progress with_reducible refine keeps_upd ?_ rfl rfl rfl rfl rfl rfl rfl rfl rfl rfl rfl rfl rfl rfl rfl rfl rfl rfl rfl rfl rfl
    | split
    | dsimp +zetaDelta only

theorem ackTimeout_keeps {σ : State} {i : Nat} {t : Nat} {s0 : State} (h_s0 : Keeps σ s0) :
    Keeps σ (ackTimeout i t s0) := by
  unfold ackTimeout
  repeat' first
    | with_reducible assumption
    | intro _
    | extract_lets
    | with_reducible refine keeps_ite ?_ ?_
    | with_reducible refine atTime_keeps ?_
    | with_reducible refine replayFlits_keeps ?_
    | with_reducible refine modLink_keeps ?_
    | with_reducible refine enterRetrain_keeps ?_
    | fail_if_no_progress with_reducible refine keeps_upd ?_ rfl rfl rfl rfl rfl rfl rfl rfl rfl rfl rfl rfl rfl rfl rfl rfl rfl rfl rfl rfl rfl
    | split

theorem execAckTimeout_keeps {σ : State} {i : Nat} {t : Nat} {s : State} (h_s : Keeps σ s) :
    ∃ τ, execAckTimeout i t s = .next τ ∧ Keeps σ τ := by
  refine ⟨_, rfl, ?_⟩
  repeat' first
    | with_reducible assumption
    | intro _
    | with_reducible refine ackTimeout_keeps ?_

theorem putNak_keeps {σ : State} {i : Nat} {s : State} (h_s : Keeps σ s) :
    Keeps σ (putNak i s) := by
  unfold putNak
  repeat' first
    | with_reducible assumption
    | intro _
    | with_reducible refine sendCtl_keeps ?_
    | with_reducible refine modLink_keeps ?_
    | fail_if_no_progress with_reducible refine keeps_upd ?_ rfl rfl rfl rfl rfl rfl rfl rfl rfl rfl rfl rfl rfl rfl rfl rfl rfl rfl rfl rfl rfl

theorem sendNak_keeps {σ : State} {i : Nat} {s : State} (h_s : Keeps σ s) :
    Keeps σ (sendNak i s) := by
  unfold sendNak
  repeat' first
    | with_reducible assumption
    | intro _
    | with_reducible refine keeps_ite ?_ ?_
    | with_reducible refine putNak_keeps ?_
    | split

theorem nakResend_keeps {σ : State} {i : Nat} {s : State} (h_s : Keeps σ s) :
    Keeps σ (nakResend i s) := by
  unfold nakResend
  repeat' first
    | with_reducible assumption
    | intro _
    | with_reducible refine keeps_ite ?_ ?_
    | with_reducible refine putNak_keeps ?_
    | split

theorem execNakResend_keeps {σ : State} {i : Nat} {s : State} (h_s : Keeps σ s) :
    ∃ τ, execNakResend i s = .next τ ∧ Keeps σ τ := by
  refine ⟨_, rfl, ?_⟩
  repeat' first
    | with_reducible assumption
    | intro _
    | with_reducible refine nakResend_keeps ?_

theorem takeOcl_keeps {σ : State} {m : Msg} {s : State} (h_s : Keeps σ s) :
    Keeps σ (takeOcl m s) := by
  unfold takeOcl
  repeat' first
    | with_reducible assumption
    | intro _
    | extract_lets
    | with_reducible refine keeps_ite ?_ ?_
    | with_reducible refine discardMsg_keeps ?_
    | with_reducible refine raiseBoth_keeps ?_
    | with_reducible refine bump_keeps ?_
    | with_reducible refine sendCredit_keeps ?_
    | with_reducible refine sendCpl_keeps ?_
    | with_reducible refine modLink_keeps ?_
    | fail_if_no_progress with_reducible refine keeps_upd ?_ rfl rfl rfl rfl rfl rfl rfl rfl rfl rfl rfl rfl rfl rfl rfl rfl rfl rfl rfl rfl rfl
    | split
    | dsimp +zetaDelta only

theorem takeSpan_keeps {σ : State} {k : Nat} {h : Slot16} {data : List Slot16} {s : State} (h_s : Keeps σ s) :
    Keeps σ (takeSpan k h data s) := by
  unfold takeSpan
  repeat' first
    | with_reducible assumption
    | intro _
    | extract_lets
    | with_reducible refine keeps_ite ?_ ?_
    | with_reducible refine discardMsg_keeps ?_
    | with_reducible refine sendOnPort_keeps ?_
    | fail_if_no_progress with_reducible refine keeps_upd ?_ rfl rfl rfl rfl rfl rfl rfl rfl rfl rfl rfl rfl rfl rfl rfl rfl rfl rfl rfl rfl rfl
    | split

theorem parseSlots_keeps {σ : State} {i : Nat} {x0 : Nat} {x1 : List Slot16} {x2 : State} (h_x2 : Keeps σ x2) :
    Keeps σ (parseSlots i x0 x1 x2).2 := by
  induction x0 generalizing i x1 x2 with
  | zero => (unfold parseSlots; repeat' first
      | with_reducible assumption
      | intro _
      | extract_lets
      | with_reducible refine keeps_ite ?_ ?_
      | with_reducible refine takeOcl_keeps ?_
      | with_reducible refine takeSpan_keeps ?_
      | with_reducible refine keeps_snd_ite ?_ ?_
      | split)
  | succ _ ih => (unfold parseSlots; repeat' first
      | with_reducible assumption
      | with_reducible apply ih
      | (injections; subst_vars; with_reducible apply ih)
      | intro _
      | extract_lets
      | with_reducible refine keeps_ite ?_ ?_
      | with_reducible refine takeOcl_keeps ?_
      | with_reducible refine takeSpan_keeps ?_
      | with_reducible refine keeps_snd_ite ?_ ?_
      | split)

theorem deliverSlots_keeps {σ : State} {i : Nat} {slots : List Slot16} {s : State} (h_s : Keeps σ s) :
    Keeps σ (deliverSlots i slots s) := by
  unfold deliverSlots
  repeat' first
    | with_reducible assumption
    | intro _
    | extract_lets
    | with_reducible refine parseSlots_keeps ?_
    | with_reducible refine modLink_keeps ?_
    | fail_if_no_progress with_reducible refine keeps_upd ?_ rfl rfl rfl rfl rfl rfl rfl rfl rfl rfl rfl rfl rfl rfl rfl rfl rfl rfl rfl rfl rfl

theorem countFlit_keeps {σ : State} {i : Nat} {f : RxFlit} {s : State} (h_s : Keeps σ s) :
    Keeps σ (countFlit i f s) := by
  unfold countFlit
  repeat' first
    | with_reducible assumption
    | intro _
    | extract_lets
    | with_reducible refine keeps_ite ?_ ?_
    | with_reducible refine when_keeps ?_ ?_
    | with_reducible refine bump_keeps ?_
    | with_reducible refine takeAck_keeps ?_
    | split

theorem deliverFlit_keeps {σ : State} {i : Nat} {f : RxFlit} {s : State} (h_s : Keeps σ s) :
    Keeps σ (deliverFlit i f s) := by
  unfold deliverFlit
  repeat' first
    | with_reducible assumption
    | intro _
    | extract_lets
    | with_reducible refine keeps_ite ?_ ?_
    | with_reducible refine deliverSlots_keeps ?_
    | with_reducible refine modLink_keeps ?_
    | with_reducible refine sendCtl_keeps ?_
    | fail_if_no_progress with_reducible refine keeps_upd ?_ rfl rfl rfl rfl rfl rfl rfl rfl rfl rfl rfl rfl rfl rfl rfl rfl rfl rfl rfl rfl rfl
    | split

theorem payloadFlit_keeps {σ : State} {i : Nat} {raw : BitVec 2048} {t : Nat} {s0 : State} (h_s0 : Keeps σ s0) :
    Keeps σ (payloadFlit i raw t s0) := by
  unfold payloadFlit
  repeat' first
    | with_reducible assumption
    | intro _
    | extract_lets
    | with_reducible refine keeps_ite ?_ ?_
    | with_reducible refine atTime_keeps ?_
    | with_reducible refine takeOff_keeps ?_
    | with_reducible refine countFlit_keeps ?_
    | with_reducible refine sendNak_keeps ?_
    | with_reducible refine deliverFlit_keeps ?_
    | split

theorem execPayloadFlit_keeps {σ : State} {i : Nat} {raw : BitVec 2048} {t : Nat} {s : State} (h_s : Keeps σ s) :
    ∃ τ, execPayloadFlit i raw t s = .next τ ∧ Keeps σ τ := by
  refine ⟨_, rfl, ?_⟩
  repeat' first
    | with_reducible assumption
    | intro _
    | with_reducible refine payloadFlit_keeps ?_

theorem idleFlit_keeps {σ : State} {i : Nat} {raw : BitVec 2048} {t : Nat} {s0 : State} (h_s0 : Keeps σ s0) :
    Keeps σ (idleFlit i raw t s0) := by
  unfold idleFlit
  repeat' first
    | with_reducible assumption
    | intro _
    | extract_lets
    | with_reducible refine keeps_ite ?_ ?_
    | with_reducible refine atTime_keeps ?_
    | with_reducible refine takeOff_keeps ?_
    | with_reducible refine countFlit_keeps ?_
    | with_reducible refine sendNak_keeps ?_
    | split

theorem execIdleFlit_keeps {σ : State} {i : Nat} {raw : BitVec 2048} {t : Nat} {s : State} (h_s : Keeps σ s) :
    ∃ τ, execIdleFlit i raw t s = .next τ ∧ Keeps σ τ := by
  refine ⟨_, rfl, ?_⟩
  repeat' first
    | with_reducible assumption
    | intro _
    | with_reducible refine idleFlit_keeps ?_

theorem nakFlit_keeps {σ : State} {i : Nat} {raw : BitVec 2048} {t : Nat} {s0 : State} (h_s0 : Keeps σ s0) :
    Keeps σ (nakFlit i raw t s0) := by
  unfold nakFlit
  repeat' first
    | with_reducible assumption
    | intro _
    | extract_lets
    | with_reducible refine keeps_ite ?_ ?_
    | with_reducible refine atTime_keeps ?_
    | with_reducible refine takeOff_keeps ?_
    | with_reducible refine countFlit_keeps ?_
    | with_reducible refine sendNak_keeps ?_
    | with_reducible refine replayFlits_keeps ?_
    | split

theorem execNakFlit_keeps {σ : State} {i : Nat} {raw : BitVec 2048} {t : Nat} {s : State} (h_s : Keeps σ s) :
    ∃ τ, execNakFlit i raw t s = .next τ ∧ Keeps σ τ := by
  refine ⟨_, rfl, ?_⟩
  repeat' first
    | with_reducible assumption
    | intro _
    | with_reducible refine nakFlit_keeps ?_

theorem retrainFlit_keeps {σ : State} {i : Nat} {raw : BitVec 2048} {t : Nat} {s0 : State} (h_s0 : Keeps σ s0) :
    Keeps σ (retrainFlit i raw t s0) := by
  unfold retrainFlit
  repeat' first
    | with_reducible assumption
    | intro _
    | extract_lets
    | with_reducible refine keeps_ite ?_ ?_
    | with_reducible refine atTime_keeps ?_
    | with_reducible refine takeOff_keeps ?_
    | with_reducible refine countFlit_keeps ?_
    | with_reducible refine sendNak_keeps ?_
    | with_reducible refine enterRetrain_keeps ?_
    | split

theorem execRetrainFlit_keeps {σ : State} {i : Nat} {raw : BitVec 2048} {t : Nat} {s : State} (h_s : Keeps σ s) :
    ∃ τ, execRetrainFlit i raw t s = .next τ ∧ Keeps σ τ := by
  refine ⟨_, rfl, ?_⟩
  repeat' first
    | with_reducible assumption
    | intro _
    | with_reducible refine retrainFlit_keeps ?_

end Sys2Proof.Machine
end

