-- ==== Sys2Proof/Laws/KeepFault.lean ====
section
/-!
SUPPORT. What `Keeps` says, for every function of Machine/Fault.lean that changes the state.
-/
set_option Elab.async false
namespace Sys2Proof.Machine
open Sys2Proof

theorem addDefect_keeps {σ : State} {pos : Nat} {router : Bool} {s : State} (h_s : Keeps σ s) :
    Keeps σ (addDefect pos router s) := by
  unfold addDefect
  repeat' first
    | with_reducible assumption
    | intro _
    | extract_lets
    | with_reducible refine keeps_ite ?_ ?_
    | fail_if_no_progress with_reducible refine keeps_upd ?_ rfl rfl rfl rfl rfl rfl rfl rfl rfl rfl rfl rfl rfl rfl rfl rfl rfl rfl rfl rfl rfl
    | split

theorem declareDefect_keeps {σ : State} {pos : Nat} {router : Bool} {s : State} (h_s : Keeps σ s) :
    Keeps σ (declareDefect pos router s).2 := by
  unfold declareDefect
  repeat' first
    | with_reducible assumption
    | intro _
    | extract_lets
    | with_reducible refine keeps_ite ?_ ?_
    | with_reducible refine addDefect_keeps ?_
    | with_reducible refine journal_keeps ?_
    | with_reducible refine when_keeps ?_ ?_
    | with_reducible refine raise_keeps ?_
    | with_reducible refine bump_keeps ?_
    | with_reducible refine fatal_keeps ?_
    | fail_if_no_progress with_reducible refine keeps_upd ?_ rfl rfl rfl rfl rfl rfl rfl rfl rfl rfl rfl rfl rfl rfl rfl rfl rfl rfl rfl rfl rfl
    | with_reducible refine keeps_snd_ite ?_ ?_
    | split

theorem captureReport_keeps {σ : State} {r : Report} {s : State} (h_s : Keeps σ s) :
    Keeps σ (captureReport r s) := by
  unfold captureReport
  repeat' first
    | with_reducible assumption
    | intro _
    | extract_lets
    | with_reducible refine keeps_ite ?_ ?_
    | with_reducible refine bump_keeps ?_
    | with_reducible refine wr_keeps ?_
    | with_reducible refine raise_keeps ?_
    | with_reducible refine wrB_keeps ?_
    | split

theorem notePast_keeps {σ : State} {cause : Nat} {pos : Nat} {s : State} (h_s : Keeps σ s) :
    Keeps σ (notePast cause pos s) := by
  unfold notePast
  repeat' first
    | with_reducible assumption
    | intro _
    | fail_if_no_progress with_reducible refine keeps_upd ?_ rfl rfl rfl rfl rfl rfl rfl rfl rfl rfl rfl rfl rfl rfl rfl rfl rfl rfl rfl rfl rfl

theorem taintSteps_keeps {σ : State} {ms : List Nat} {r : Report} {s : State} (h_s : Keeps σ s) :
    Keeps σ (taintSteps ms r s) := by
  unfold taintSteps
  repeat' first
    | with_reducible assumption
    | intro _
    | extract_lets
    | with_reducible refine keeps_ite ?_ ?_
    | fail_if_no_progress with_reducible refine keeps_upd ?_ rfl rfl rfl rfl rfl rfl rfl rfl rfl rfl rfl rfl rfl rfl rfl rfl rfl rfl rfl rfl rfl
    | split

theorem joinJob_keeps {σ : State} {cells : List Nat} {fields : List Nat} {s : State} (h_s : Keeps σ s) :
    Keeps σ (joinJob cells fields s) := by
  unfold joinJob
  repeat' first
    | with_reducible assumption
    | intro _
    | extract_lets
    | with_reducible refine wr_keeps ?_
    | fail_if_no_progress with_reducible refine keeps_upd ?_ rfl rfl rfl rfl rfl rfl rfl rfl rfl rfl rfl rfl rfl rfl rfl rfl rfl rfl rfl rfl rfl

theorem modJob_keeps {σ : State} {f : ResetJob → ResetJob} {s : State} (h_s : Keeps σ s) :
    Keeps σ (modJob f s) := by
  unfold modJob
  repeat' first
    | with_reducible assumption
    | intro _
    | fail_if_no_progress with_reducible refine keeps_upd ?_ rfl rfl rfl rfl rfl rfl rfl rfl rfl rfl rfl rfl rfl rfl rfl rfl rfl rfl rfl rfl rfl

theorem failService_keeps {σ : State} {m : Nat} {s : State} (h_s : Keeps σ s) :
    Keeps σ (failService m s) := by
  unfold failService
  repeat' first
    | with_reducible assumption
    | intro _
    | with_reducible refine raise_keeps ?_
    | with_reducible refine failSlot_keeps ?_

theorem stopImage_keeps {σ : State} {m : Nat} {s : State} (h_s : Keeps σ s) :
    Keeps σ (stopImage m s) := by
  unfold stopImage
  repeat' first
    | with_reducible assumption
    | intro _
    | extract_lets
    | with_reducible refine keeps_ite ?_ ?_
    | with_reducible refine forEach_keeps ?_ ?_
    | with_reducible refine markReplay_keeps ?_
    | with_reducible refine setImage_keeps ?_
    | fail_if_no_progress with_reducible refine keeps_upd ?_ rfl rfl rfl rfl rfl rfl rfl rfl rfl rfl rfl rfl rfl rfl rfl rfl rfl rfl rfl rfl rfl
    | split

theorem countRestart_keeps {σ : State} {m : Nat} {s : State} (h_s : Keeps σ s) :
    Keeps σ (countRestart m s) := by
  unfold countRestart
  repeat' first
    | with_reducible assumption
    | intro _
    | extract_lets
    | with_reducible refine keeps_ite ?_ ?_
    | with_reducible refine modModelSlot_keeps ?_
    | with_reducible refine failService_keeps ?_
    | fail_if_no_progress with_reducible refine keeps_upd ?_ rfl rfl rfl rfl rfl rfl rfl rfl rfl rfl rfl rfl rfl rfl rfl rfl rfl rfl rfl rfl rfl
    | split

theorem restartImage_keeps {σ : State} {counted : Bool} {m : Nat} {s : State} (h_s : Keeps σ s) :
    Keeps σ (restartImage counted m s) := by
  unfold restartImage
  repeat' first
    | with_reducible assumption
    | intro _
    | extract_lets
    | with_reducible refine keeps_ite ?_ ?_
    | with_reducible refine holdFw_keeps ?_
    | with_reducible refine raise_keeps ?_
    | with_reducible refine bump_keeps ?_
    | with_reducible refine joinJob_keeps ?_
    | with_reducible refine tuneFault_keeps ?_
    | with_reducible refine stopImage_keeps ?_
    | with_reducible refine modJob_keeps ?_
    | with_reducible refine when_keeps ?_ ?_
    | with_reducible refine countRestart_keeps ?_
    | fail_if_no_progress with_reducible refine keeps_upd ?_ rfl rfl rfl rfl rfl rfl rfl rfl rfl rfl rfl rfl rfl rfl rfl rfl rfl rfl rfl rfl rfl
    | split

theorem restartImages_keeps {σ : State} {counted : Bool} {ms : List Nat} {s : State} (h_s : Keeps σ s) :
    Keeps σ (restartImages counted ms s) := by
  unfold restartImages
  repeat' first
    | with_reducible assumption
    | intro _
    | with_reducible refine forEach_keeps ?_ ?_
    | with_reducible refine restartImage_keeps ?_

theorem moveCluster_keeps {σ : State} {m : Nat} {field : Nat} {row : Nat} {g : Nat} {s : State} (h_s : Keeps σ s) :
    Keeps σ (moveCluster m field row g s) := by
  unfold moveCluster
  repeat' first
    | with_reducible assumption
    | intro _
    | extract_lets
    | with_reducible refine keeps_ite ?_ ?_
    | with_reducible refine modJob_keeps ?_
    | with_reducible refine failService_keeps ?_
    | fail_if_no_progress with_reducible refine keeps_upd ?_ rfl rfl rfl rfl rfl rfl rfl rfl rfl rfl rfl rfl rfl rfl rfl rfl rfl rfl rfl rfl rfl
    | split
    | dsimp +zetaDelta only

theorem followMove_keeps {σ : State} {mv : Moved} {s : State} (h_s : Keeps σ s) :
    Keeps σ (followMove mv s) := by
  unfold followMove
  repeat' first
    | with_reducible assumption
    | intro _
    | extract_lets
    | with_reducible refine modJob_keeps ?_
    | with_reducible refine restartImages_keeps ?_
    | with_reducible refine forEach_keeps ?_ ?_
    | with_reducible refine moveCluster_keeps ?_
    | fail_if_no_progress with_reducible refine keeps_upd ?_ rfl rfl rfl rfl rfl rfl rfl rfl rfl rfl rfl rfl rfl rfl rfl rfl rfl rfl rfl rfl rfl
    | split
    | dsimp +zetaDelta only

theorem respondImage_keeps {σ : State} {m : Nat} {r : Report} {mv : Moved} {s : State} (h_s : Keeps σ s) :
    Keeps σ (respondImage m r mv s) := by
  unfold respondImage
  repeat' first
    | with_reducible assumption
    | intro _
    | extract_lets
    | with_reducible refine keeps_ite ?_ ?_
    | with_reducible refine restartImages_keeps ?_
    | with_reducible refine taintSteps_keeps ?_
    | with_reducible refine modJob_keeps ?_
    | with_reducible refine followMove_keeps ?_
    | fail_if_no_progress with_reducible refine keeps_upd ?_ rfl rfl rfl rfl rfl rfl rfl rfl rfl rfl rfl rfl rfl rfl rfl rfl rfl rfl rfl rfl rfl
    | split

theorem respondCell_keeps {σ : State} {c : Nat} {mv : Moved} {s : State} (h_s : Keeps σ s) :
    Keeps σ (respondCell c mv s) := by
  unfold respondCell
  repeat' first
    | with_reducible assumption
    | intro _
    | with_reducible refine keeps_ite ?_ ?_
    | with_reducible refine followMove_keeps ?_
    | with_reducible refine joinJob_keeps ?_
    | split

theorem respond350_keeps {σ : State} {x : Report} {s : State} (h_s : Keeps σ s) :
    Keeps σ (respond350 x s) := by
  have hr : ∀ pos : Nat, ∀ k : Option Bool, Keeps σ (match k with
      | some router => declareDefect pos router (notePast x.cause pos s)
      | none => (Moved.none, notePast x.cause pos s)).2 := by
    intro pos k
    cases k with
    | none => exact notePast_keeps h_s
    | some b => exact declareDefect_keeps (notePast_keeps h_s)
  unfold respond350
  extract_lets cause c info pos k s1 r
  have h1 : Keeps σ r.2 := hr pos k
  clear_value r
  refine keeps_ite (fatal_keeps h_s) (keeps_ite (fatal_keeps h_s) (keeps_ite h1 ?_))
  split
  · exact respondImage_keeps h1
  · exact respondCell_keeps h1

theorem faultReport_keeps {σ : State} {cause : Nat} {c : Nat} {s : State} (h_s : Keeps σ s) :
    Keeps σ (faultReport cause c s) := by
  unfold faultReport
  repeat' first
    | with_reducible assumption
    | intro _
    | extract_lets
    | with_reducible refine keeps_ite ?_ ?_
    | with_reducible refine captureReport_keeps ?_
    | with_reducible refine respond350_keeps ?_
    | fail_if_no_progress with_reducible refine keeps_upd ?_ rfl rfl rfl rfl rfl rfl rfl rfl rfl rfl rfl rfl rfl rfl rfl rfl rfl rfl rfl rfl rfl
    | split

theorem execFaultReport_keeps {σ : State} {cause : Nat} {c : Nat} {s : State} (h_s : Keeps σ s) :
    ∃ τ, execFaultReport cause c s = .next τ ∧ Keeps σ τ := by
  refine ⟨_, rfl, ?_⟩
  repeat' first
    | with_reducible assumption
    | intro _
    | with_reducible refine faultReport_keeps ?_

theorem requestReset_keeps {σ : State} {scope : Nat} {c : Nat} {cells : List Nat} {fields : List Nat} {s0 : State} (h_s0 : Keeps σ s0) :
    Keeps σ (requestReset scope c cells fields s0) := by
  unfold requestReset
  repeat' first
    | with_reducible assumption
    | intro _
    | extract_lets
    | with_reducible refine keeps_ite ?_ ?_
    | with_reducible refine wr_keeps ?_
    | with_reducible refine raise_keeps ?_
    | with_reducible refine joinJob_keeps ?_
    | with_reducible refine restartImages_keeps ?_
    | split

theorem execCellReset_keeps {σ : State} {c : Nat} {s : State} (h_s : Keeps σ s) :
    ∃ τ, execCellReset c s = .next τ ∧ Keeps σ τ := by
  refine ⟨_, rfl, ?_⟩
  repeat' first
    | with_reducible assumption
    | intro _
    | with_reducible refine requestReset_keeps ?_

theorem execClusterReset_keeps {σ : State} {c : Nat} {s : State} (h_s : Keeps σ s) :
    ∃ τ, execClusterReset c s = .next τ ∧ Keeps σ τ := by
  refine ⟨_, rfl, ?_⟩
  repeat' first
    | with_reducible assumption
    | intro _
    | with_reducible refine requestReset_keeps ?_

theorem execPartitionReset_keeps {σ : State} {c : Nat} {s : State} (h_s : Keeps σ s) :
    ∃ τ, execPartitionReset c s = .next τ ∧ Keeps σ τ := by
  refine ⟨_, rfl, ?_⟩
  repeat' first
    | with_reducible assumption
    | intro _
    | with_reducible refine requestReset_keeps ?_

theorem resetCell_keeps {σ : State} {c : Nat} {s : State} (h_s : Keeps σ s) :
    Keeps σ (resetCell c s) := by
  unfold resetCell
  exact keeps_tables (modCell_keeps h_s) rfl rfl rfl rfl rfl rfl fun t => { t with
    counters := Table.wf_clear _ _ _ _ t.counters
    accs := Table.wf_clear _ _ _ _ t.accs }

theorem resetWords_keeps {σ : State} {s : State} (h_s : Keeps σ s) :
    Keeps σ (resetWords s) := by
  unfold resetWords
  repeat' first
    | with_reducible assumption
    | intro _
    | with_reducible refine forEach_keeps ?_ ?_
    | with_reducible refine modCell_keeps ?_
    | with_reducible refine drain_keeps ?_
    | with_reducible refine resetCell_keeps ?_
    | fail_if_no_progress with_reducible refine keeps_upd ?_ rfl rfl rfl rfl rfl rfl rfl rfl rfl rfl rfl rfl rfl rfl rfl rfl rfl rfl rfl rfl rfl
    | split

theorem execReset_keeps {σ : State} {s : State} (h_s : Keeps σ s) :
    ∃ τ, execReset s = .next τ ∧ Keeps σ τ := by
  refine ⟨_, rfl, ?_⟩
  repeat' first
    | with_reducible assumption
    | intro _
    | with_reducible refine resetWords_keeps ?_

theorem enterPhase_keeps {σ : State} {n : Nat} {s : State} (h_s : Keeps σ s) :
    Keeps σ (enterPhase n s) := by
  unfold enterPhase
  repeat' first
    | with_reducible assumption
    | intro _
    | with_reducible refine wr_keeps ?_
    | with_reducible refine modJob_keeps ?_
    | fail_if_no_progress with_reducible refine keeps_upd ?_ rfl rfl rfl rfl rfl rfl rfl rfl rfl rfl rfl rfl rfl rfl rfl rfl rfl rfl rfl rfl rfl

theorem drainDone_keeps {σ : State} {s : State} (h_s : Keeps σ s) :
    Keeps σ (drainDone s) := by
  unfold drainDone
  repeat' first
    | with_reducible assumption
    | intro _
    | with_reducible refine keeps_ite ?_ ?_
    | with_reducible refine drain_keeps ?_
    | with_reducible refine enterPhase_keeps ?_
    | fail_if_no_progress with_reducible refine keeps_upd ?_ rfl rfl rfl rfl rfl rfl rfl rfl rfl rfl rfl rfl rfl rfl rfl rfl rfl rfl rfl rfl rfl
    | split

theorem execDrainDone_keeps {σ : State} {s : State} (h_s : Keeps σ s) :
    ∃ τ, execDrainDone s = .next τ ∧ Keeps σ τ := by
  refine ⟨_, rfl, ?_⟩
  repeat' first
    | with_reducible assumption
    | intro _
    | with_reducible refine drainDone_keeps ?_

theorem zeroStores_keeps {σ : State} {c : Nat} {s : State} (h_s : Keeps σ s) :
    Keeps σ (zeroStores c s) := by
  unfold zeroStores
  repeat' first
    | with_reducible assumption
    | intro _
    | with_reducible refine keeps_ite ?_ ?_
    | fail_if_no_progress with_reducible refine keeps_upd ?_ rfl rfl rfl rfl rfl rfl rfl rfl rfl rfl rfl rfl rfl rfl rfl rfl rfl rfl rfl rfl rfl
    | split

theorem restoreKv_keeps {σ : State} {m : Nat} {c : Nat} {s0 : State} (h_s0 : Keeps σ s0) :
    Keeps σ (restoreKv m c s0) := by
  unfold restoreKv
  repeat' first
    | with_reducible assumption
    | intro _
    | extract_lets
    | with_reducible refine keeps_ite ?_ ?_
    | with_reducible refine zeroStores_keeps ?_
    | with_reducible refine forEach_keeps ?_ ?_
    | with_reducible refine putGranule_keeps ?_
    | with_reducible refine fill_keeps ?_
    | with_reducible refine when_keeps ?_ ?_
    | with_reducible refine raise_keeps ?_
    | fail_if_no_progress with_reducible refine keeps_upd ?_ rfl rfl rfl rfl rfl rfl rfl rfl rfl rfl rfl rfl rfl rfl rfl rfl rfl rfl rfl rfl rfl
    | split

theorem rewriteModel_keeps {σ : State} {w : Rewrite} {s : State} (h_s : Keeps σ s) :
    Keeps σ (rewriteModel w s) := by
  unfold rewriteModel
  repeat' first
    | with_reducible assumption
    | intro _
    | extract_lets
    | with_reducible refine keeps_ite ?_ ?_
    | with_reducible refine failService_keeps ?_
    | with_reducible refine tuneFail_keeps ?_
    | with_reducible refine placeAll_keeps ?_
    | with_reducible refine forEach_keeps ?_ ?_
    | with_reducible refine restoreKv_keeps ?_
    | split

theorem installVariant_keeps {σ : State} {w : Rewrite} {i : Nat} {s : State} (h_s : Keeps σ s) :
    Keeps σ (installVariant w i s) := by
  unfold installVariant
  repeat' first
    | with_reducible assumption
    | intro _
    | extract_lets
    | with_reducible refine keeps_ite ?_ ?_
    | with_reducible refine chargeLoad_keeps ?_
    | with_reducible refine loadGranule_keeps ?_
    | with_reducible refine forEach_keeps ?_ ?_
    | with_reducible refine zeroCell_keeps ?_
    | with_reducible refine modImage_keeps ?_
    | with_reducible refine raise_keeps ?_
    | with_reducible refine bump_keeps ?_
    | with_reducible refine failService_keeps ?_
    | fail_if_no_progress with_reducible refine keeps_upd ?_ rfl rfl rfl rfl rfl rfl rfl rfl rfl rfl rfl rfl rfl rfl rfl rfl rfl rfl rfl rfl rfl
    | with_reducible refine foldl_keeps ?_ ?_
    | split
    | dsimp +zetaDelta only

theorem relocDone_keeps {σ : State} {s : State} (h_s : Keeps σ s) :
    Keeps σ (relocDone s) := by
  unfold relocDone
  repeat' first
    | with_reducible assumption
    | intro _
    | with_reducible refine when_keeps ?_ ?_
    | with_reducible refine raise_keeps ?_
    | fail_if_no_progress with_reducible refine keeps_upd ?_ rfl rfl rfl rfl rfl rfl rfl rfl rfl rfl rfl rfl rfl rfl rfl rfl rfl rfl rfl rfl rfl
    | split

theorem modWork_keeps {σ : State} {m : Nat} {v : Option Nat} {f : Rewrite → Rewrite} {s : State} (h_s : Keeps σ s) :
    Keeps σ (modWork m v f s) := by
  unfold modWork
  repeat' first
    | with_reducible assumption
    | intro _
    | with_reducible refine keeps_ite ?_ ?_
    | with_reducible refine modJob_keeps ?_
    | fail_if_no_progress with_reducible refine keeps_upd ?_ rfl rfl rfl rfl rfl rfl rfl rfl rfl rfl rfl rfl rfl rfl rfl rfl rfl rfl rfl rfl rfl
    | split

theorem installWork_keeps {σ : State} {w : Rewrite} {s : State} (h_s : Keeps σ s) :
    Keeps σ (installWork w s) := by
  unfold installWork
  repeat' first
    | with_reducible assumption
    | intro _
    | with_reducible refine installVariant_keeps ?_
    | fail_if_no_progress with_reducible refine keeps_upd ?_ rfl rfl rfl rfl rfl rfl rfl rfl rfl rfl rfl rfl rfl rfl rfl rfl rfl rfl rfl rfl rfl
    | split

theorem endAbsorb_keeps {σ : State} {j : ResetJob} {s : State} (h_s : Keeps σ s) :
    Keeps σ (endAbsorb j s) := by
  unfold endAbsorb
  repeat' first
    | with_reducible assumption
    | intro _
    | extract_lets
    | with_reducible refine forEach_keeps ?_ ?_
    | with_reducible refine rewriteModel_keeps ?_
    | with_reducible refine installWork_keeps ?_
    | with_reducible refine enterPhase_keeps ?_
    | with_reducible refine relocDone_keeps ?_
    | with_reducible refine modJob_keeps ?_
    | fail_if_no_progress with_reducible refine keeps_upd ?_ rfl rfl rfl rfl rfl rfl rfl rfl rfl rfl rfl rfl rfl rfl rfl rfl rfl rfl rfl rfl rfl

theorem startWork_keeps {σ : State} {w : Rewrite} {s : State} (h_s : Keeps σ s) :
    Keeps σ (startWork w s) := by
  unfold startWork
  repeat' first
    | with_reducible assumption
    | intro _
    | extract_lets
    | with_reducible refine keeps_ite ?_ ?_
    | with_reducible refine startFetch_keeps ?_
    | with_reducible refine modWork_keeps ?_
    | fail_if_no_progress with_reducible refine keeps_upd ?_ rfl rfl rfl rfl rfl rfl rfl rfl rfl rfl rfl rfl rfl rfl rfl rfl rfl rfl rfl rfl rfl
    | split
    | dsimp +zetaDelta only

theorem beginWork_keeps {σ : State} {s : State} (h_s : Keeps σ s) :
    Keeps σ (beginWork s) := by
  unfold beginWork
  repeat' first
    | with_reducible assumption
    | intro _
    | extract_lets
    | with_reducible refine forEach_keeps ?_ ?_
    | with_reducible refine startWork_keeps ?_
    | with_reducible refine modJob_keeps ?_
    | fail_if_no_progress with_reducible refine keeps_upd ?_ rfl rfl rfl rfl rfl rfl rfl rfl rfl rfl rfl rfl rfl rfl rfl rfl rfl rfl rfl rfl rfl
    | split
    | dsimp +zetaDelta only

theorem stepWork_keeps {σ : State} {s : State} (h_s : Keeps σ s) :
    Keeps σ (stepWork s) := by
  unfold stepWork
  repeat' first
    | with_reducible assumption
    | intro _
    | with_reducible refine keeps_ite ?_ ?_
    | with_reducible refine endAbsorb_keeps ?_
    | with_reducible refine beginWork_keeps ?_
    | fail_if_no_progress with_reducible refine keeps_upd ?_ rfl rfl rfl rfl rfl rfl rfl rfl rfl rfl rfl rfl rfl rfl rfl rfl rfl rfl rfl rfl rfl
    | split

theorem nextWork_keeps {σ : State} {w : Rewrite} {s : State} (h_s : Keeps σ s) :
    Keeps σ (nextWork w s) := by
  unfold nextWork
  repeat' first
    | with_reducible assumption
    | intro _
    | with_reducible refine stepWork_keeps ?_
    | with_reducible refine modWork_keeps ?_
    | with_reducible refine startFetch_keeps ?_
    | fail_if_no_progress with_reducible refine keeps_upd ?_ rfl rfl rfl rfl rfl rfl rfl rfl rfl rfl rfl rfl rfl rfl rfl rfl rfl rfl rfl rfl rfl
    | split

theorem goOnWork_keeps {σ : State} {w : Rewrite} {s : State} (h_s : Keeps σ s) :
    Keeps σ (goOnWork w s) := by
  unfold goOnWork
  repeat' first
    | with_reducible assumption
    | intro _
    | with_reducible refine nextWork_keeps ?_
    | with_reducible refine modWork_keeps ?_

theorem workPartRead_keeps {σ : State} {m : Nat} {v : Option Nat} {part : Nat} {bs : List Byte} {s : State} (h_s : Keeps σ s) :
    Keeps σ (workPartRead m v part bs s) := by
  unfold workPartRead
  repeat' first
    | with_reducible assumption
    | intro _
    | extract_lets
    | with_reducible refine goOnWork_keeps ?_
    | fail_if_no_progress with_reducible refine keeps_upd ?_ rfl rfl rfl rfl rfl rfl rfl rfl rfl rfl rfl rfl rfl rfl rfl rfl rfl rfl rfl rfl rfl
    | split
    | dsimp +zetaDelta only

theorem workFailed_keeps {σ : State} {m : Nat} {v : Option Nat} {s : State} (h_s : Keeps σ s) :
    Keeps σ (workFailed m v s) := by
  unfold workFailed
  repeat' first
    | with_reducible assumption
    | intro _
    | with_reducible refine stepWork_keeps ?_
    | with_reducible refine modWork_keeps ?_
    | fail_if_no_progress with_reducible refine keeps_upd ?_ rfl rfl rfl rfl rfl rfl rfl rfl rfl rfl rfl rfl rfl rfl rfl rfl rfl rfl rfl rfl rfl
    | split

theorem absorbDone_keeps {σ : State} {s : State} (h_s : Keeps σ s) :
    Keeps σ (absorbDone s) := by
  unfold absorbDone
  repeat' first
    | with_reducible assumption
    | intro _
    | with_reducible refine keeps_ite ?_ ?_
    | with_reducible refine stepWork_keeps ?_
    | with_reducible refine beginWork_keeps ?_
    | fail_if_no_progress with_reducible refine keeps_upd ?_ rfl rfl rfl rfl rfl rfl rfl rfl rfl rfl rfl rfl rfl rfl rfl rfl rfl rfl rfl rfl rfl
    | split

theorem execAbsorbDone_keeps {σ : State} {quiet : Nat} {s : State} (h_s : Keeps σ s) :
    ∃ τ, execAbsorbDone quiet s = .next τ ∧ Keeps σ τ := by
  refine ⟨_, rfl, ?_⟩
  unfold when
  repeat' first
    | with_reducible assumption
    | intro _
    | with_reducible refine keeps_ite ?_ ?_
    | with_reducible refine absorbDone_keeps ?_

theorem releaseDone_keeps {σ : State} {s : State} (h_s : Keeps σ s) :
    Keeps σ (releaseDone s) := by
  unfold releaseDone
  repeat' first
    | with_reducible assumption
    | intro _
    | extract_lets
    | with_reducible refine keeps_ite ?_ ?_
    | with_reducible refine forEach_keeps ?_ ?_
    | with_reducible refine modCell_keeps ?_
    | with_reducible refine modImage_keeps ?_
    | with_reducible refine releaseFw_keeps ?_
    | with_reducible refine wr_keeps ?_
    | fail_if_no_progress with_reducible refine keeps_upd ?_ rfl rfl rfl rfl rfl rfl rfl rfl rfl rfl rfl rfl rfl rfl rfl rfl rfl rfl rfl rfl rfl
    | split
    | dsimp +zetaDelta only

theorem execReleaseDone_keeps {σ : State} {s : State} (h_s : Keeps σ s) :
    ∃ τ, execReleaseDone s = .next τ ∧ Keeps σ τ := by
  refine ⟨_, rfl, ?_⟩
  repeat' first
    | with_reducible assumption
    | intro _
    | with_reducible refine releaseDone_keeps ?_

theorem drainTimeout_keeps {σ : State} {s : State} (h_s : Keeps σ s) :
    Keeps σ (drainTimeout s) := by
  unfold drainTimeout
  repeat' first
    | with_reducible assumption
    | intro _
    | with_reducible refine keeps_ite ?_ ?_
    | with_reducible refine fatal_keeps ?_
    | fail_if_no_progress with_reducible refine keeps_upd ?_ rfl rfl rfl rfl rfl rfl rfl rfl rfl rfl rfl rfl rfl rfl rfl rfl rfl rfl rfl rfl rfl
    | split

theorem execDrainTimeout_keeps {σ : State} {s : State} (h_s : Keeps σ s) :
    ∃ τ, execDrainTimeout s = .next τ ∧ Keeps σ τ := by
  refine ⟨_, rfl, ?_⟩
  repeat' first
    | with_reducible assumption
    | intro _
    | with_reducible refine drainTimeout_keeps ?_

theorem showPins_keeps {σ : State} {s : State} (h_s : Keeps σ s) :
    Keeps σ (showPins s) := by
  unfold showPins
  repeat' first
    | with_reducible assumption
    | intro _
    | with_reducible refine wrB_keeps ?_

theorem wholeReset_keeps {σ : State} {s : State} (h_s : Keeps σ s) :
    Keeps σ (wholeReset s) := by
  unfold wholeReset
  refine showPins_keeps (wr_keeps (wr_keeps ⟨h_s.pending, h_s.free, h_s.fuses, fun _ => ?_, fun _ => ?_⟩))
  · exact ⟨rfl, rfl, rfl, rfl, rfl, rfl, rfl, rfl, rfl, rfl, rfl, rfl, rfl, rfl, rfl, rfl, rfl, rfl, rfl, rfl, rfl, rfl, rfl, rfl, rfl⟩
  · exact ⟨rfl, rfl, rfl⟩

theorem wholeRequest_keeps {σ : State} {s : State} (h_s : Keeps σ s) :
    Keeps σ (wholeRequest s) := by
  unfold wholeRequest
  repeat' first
    | with_reducible assumption
    | intro _
    | with_reducible refine keeps_ite ?_ ?_
    | with_reducible refine raise_keeps ?_
    | with_reducible refine wholeReset_keeps ?_
    | split

theorem execWholeReset_keeps {σ : State} {s : State} (h_s : Keeps σ s) :
    ∃ τ, execWholeReset s = .next τ ∧ Keeps σ τ := by
  refine ⟨_, rfl, ?_⟩
  repeat' first
    | with_reducible assumption
    | intro _
    | with_reducible refine wholeRequest_keeps ?_

theorem relocRefuse_keeps {σ : State} {s : State} (h_s : Keeps σ s) :
    Keeps σ (relocRefuse s) := by
  unfold relocRefuse
  repeat' first
    | with_reducible assumption
    | intro _
    | with_reducible refine raise_keeps ?_

theorem thrReloc_keeps {σ : State} {v : Word} {s0 : State} (h_s0 : Keeps σ s0) :
    Keeps σ (thrReloc v s0) := by
  unfold thrReloc
  repeat' first
    | with_reducible assumption
    | intro _
    | extract_lets
    | with_reducible refine keeps_ite ?_ ?_
    | with_reducible refine wr_keeps ?_
    | with_reducible refine relocRefuse_keeps ?_
    | with_reducible refine modJob_keeps ?_
    | with_reducible refine restartImage_keeps ?_
    | fail_if_no_progress with_reducible refine keeps_upd ?_ rfl rfl rfl rfl rfl rfl rfl rfl rfl rfl rfl rfl rfl rfl rfl rfl rfl rfl rfl rfl rfl
    | split
    | dsimp +zetaDelta only

theorem execThrReloc_keeps {σ : State} {v : Word} {s : State} (h_s : Keeps σ s) :
    ∃ τ, execThrReloc v s = .next τ ∧ Keeps σ τ := by
  refine ⟨_, rfl, ?_⟩
  repeat' first
    | with_reducible assumption
    | intro _
    | with_reducible refine thrReloc_keeps ?_

end Sys2Proof.Machine
end

