-- ==== Sys2Proof/Laws/KeepPower.lean ====
section
/-!
SUPPORT. What `Keeps` says, for every function of Machine/Power.lean that changes the state.
-/
set_option Elab.async false
namespace Sys2Proof.Machine
open Sys2Proof

theorem fatalPower_keeps {σ : State} {src : Nat} {s : State} (h_s : Keeps σ s) :
    Keeps σ (fatalPower src s) := by
  unfold fatalPower
  repeat' first
    | with_reducible assumption
    | intro _
    | with_reducible refine fatalWith_keeps ?_

theorem powerUp_keeps {σ : State} {s : State} (h_s : Keeps σ s) :
    Keeps σ (powerUp s) := by
  unfold powerUp
  repeat' first
    | with_reducible assumption
    | intro _
    | with_reducible refine wholeReset_keeps ?_
    | fail_if_no_progress with_reducible refine keeps_upd ?_ rfl rfl rfl rfl rfl rfl rfl rfl rfl rfl rfl rfl rfl rfl rfl rfl rfl rfl rfl rfl rfl

theorem powerGone_keeps {σ : State} {s : State} (h_s : Keeps σ s) :
    Keeps σ (powerGone s) := by
  unfold powerGone
  repeat' first
    | with_reducible assumption
    | intro _
    | with_reducible refine forEach_keeps ?_ ?_
    | with_reducible refine wr_keeps ?_
    | fail_if_no_progress with_reducible refine keeps_upd ?_ rfl rfl rfl rfl rfl rfl rfl rfl rfl rfl rfl rfl rfl rfl rfl rfl rfl rfl rfl rfl rfl

theorem feedOk_keeps {σ : State} {n : Nat} {s : State} (h_s : Keeps σ s) :
    Keeps σ (feedOk n s) := by
  unfold feedOk
  repeat' first
    | with_reducible assumption
    | intro _
    | with_reducible refine keeps_ite ?_ ?_
    | with_reducible refine wr_keeps ?_
    | with_reducible refine powerUp_keeps ?_
    | split

theorem execFeedOk_keeps {σ : State} {n : Nat} {s : State} (h_s : Keeps σ s) :
    ∃ τ, execFeedOk n s = .next τ ∧ Keeps σ τ := by
  refine ⟨_, rfl, ?_⟩
  repeat' first
    | with_reducible assumption
    | intro _
    | with_reducible refine feedOk_keeps ?_

theorem feedLost_keeps {σ : State} {n : Nat} {s : State} (h_s : Keeps σ s) :
    Keeps σ (feedLost n s) := by
  unfold feedLost
  repeat' first
    | with_reducible assumption
    | intro _
    | with_reducible refine keeps_ite ?_ ?_
    | with_reducible refine warn_keeps ?_
    | with_reducible refine wr_keeps ?_
    | split

theorem execFeedLost_keeps {σ : State} {n : Nat} {s : State} (h_s : Keeps σ s) :
    ∃ τ, execFeedLost n s = .next τ ∧ Keeps σ τ := by
  refine ⟨_, rfl, ?_⟩
  repeat' first
    | with_reducible assumption
    | intro _
    | with_reducible refine feedLost_keeps ?_

theorem bothFeedsLost_keeps {σ : State} {s : State} (h_s : Keeps σ s) :
    Keeps σ (bothFeedsLost s) := by
  unfold bothFeedsLost
  repeat' first
    | with_reducible assumption
    | intro _
    | with_reducible refine keeps_ite ?_ ?_
    | with_reducible refine powerGone_keeps ?_
    | with_reducible refine fatalPower_keeps ?_
    | split

theorem execBothFeedsLost_keeps {σ : State} {s : State} (h_s : Keeps σ s) :
    ∃ τ, execBothFeedsLost s = .next τ ∧ Keeps σ τ := by
  refine ⟨_, rfl, ?_⟩
  repeat' first
    | with_reducible assumption
    | intro _
    | with_reducible refine bothFeedsLost_keeps ?_

theorem feedShare_keeps {σ : State} {s : State} (h_s : Keeps σ s) :
    Keeps σ (feedShare s) := by
  unfold feedShare
  repeat' first
    | with_reducible assumption
    | intro _
    | with_reducible refine keeps_ite ?_ ?_
    | with_reducible refine warn_keeps ?_
    | fail_if_no_progress with_reducible refine keeps_upd ?_ rfl rfl rfl rfl rfl rfl rfl rfl rfl rfl rfl rfl rfl rfl rfl rfl rfl rfl rfl rfl rfl
    | split

theorem execFeedShare_keeps {σ : State} {s : State} (h_s : Keeps σ s) :
    ∃ τ, execFeedShare s = .next τ ∧ Keeps σ τ := by
  refine ⟨_, rfl, ?_⟩
  repeat' first
    | with_reducible assumption
    | intro _
    | with_reducible refine feedShare_keeps ?_

theorem phaseFault_keeps {σ : State} {f : Nat} {p : Nat} {s : State} (h_s : Keeps σ s) :
    Keeps σ (phaseFault f p s) := by
  unfold phaseFault
  repeat' first
    | with_reducible assumption
    | intro _
    | extract_lets
    | with_reducible refine keeps_ite ?_ ?_
    | with_reducible refine wr_keeps ?_
    | with_reducible refine warn_keeps ?_
    | with_reducible refine raise_keeps ?_
    | with_reducible refine journal_keeps ?_
    | with_reducible refine fatalPower_keeps ?_
    | split

theorem execPhaseFault_keeps {σ : State} {f : Nat} {p : Nat} {s : State} (h_s : Keeps σ s) :
    ∃ τ, execPhaseFault f p s = .next τ ∧ Keeps σ τ := by
  refine ⟨_, rfl, ?_⟩
  repeat' first
    | with_reducible assumption
    | intro _
    | with_reducible refine phaseFault_keeps ?_

theorem powerLevelAdjust_keeps {σ : State} {f : Nat} {s : State} (h_s : Keeps σ s) :
    Keeps σ (powerLevelAdjust f s) := by
  unfold powerLevelAdjust
  repeat' first
    | with_reducible assumption
    | intro _
    | extract_lets
    | with_reducible refine keeps_ite ?_ ?_
    | with_reducible refine setFieldPower_keeps ?_
    | with_reducible refine when_keeps ?_ ?_
    | with_reducible refine warn_keeps ?_
    | with_reducible refine raise_keeps ?_
    | fail_if_no_progress with_reducible refine keeps_upd ?_ rfl rfl rfl rfl rfl rfl rfl rfl rfl rfl rfl rfl rfl rfl rfl rfl rfl rfl rfl rfl rfl
    | split

theorem execPowerLevelAdjust_keeps {σ : State} {f : Nat} {s : State} (h_s : Keeps σ s) :
    ∃ τ, execPowerLevelAdjust f s = .next τ ∧ Keeps σ τ := by
  refine ⟨_, rfl, ?_⟩
  repeat' first
    | with_reducible assumption
    | intro _
    | with_reducible refine powerLevelAdjust_keeps ?_

theorem capAdjust_keeps {σ : State} {s : State} (h_s : Keeps σ s) :
    Keeps σ (capAdjust s) := by
  unfold capAdjust
  repeat' first
    | with_reducible assumption
    | intro _
    | extract_lets
    | with_reducible refine keeps_ite ?_ ?_
    | with_reducible refine wr_keeps ?_
    | with_reducible refine when_keeps ?_ ?_
    | with_reducible refine warn_keeps ?_
    | fail_if_no_progress with_reducible refine keeps_upd ?_ rfl rfl rfl rfl rfl rfl rfl rfl rfl rfl rfl rfl rfl rfl rfl rfl rfl rfl rfl rfl rfl
    | split

theorem execCapAdjust_keeps {σ : State} {s : State} (h_s : Keeps σ s) :
    ∃ τ, execCapAdjust s = .next τ ∧ Keeps σ τ := by
  refine ⟨_, rfl, ?_⟩
  repeat' first
    | with_reducible assumption
    | intro _
    | with_reducible refine capAdjust_keeps ?_

theorem pwrCapWrite_keeps {σ : State} {v : Word} {s : State} (h_s : Keeps σ s) :
    Keeps σ (pwrCapWrite v s) := by
  unfold pwrCapWrite
  repeat' first
    | with_reducible assumption
    | intro _
    | extract_lets
    | with_reducible refine keeps_ite ?_ ?_
    | with_reducible refine wr_keeps ?_
    | with_reducible refine raise_keeps ?_
    | split

theorem execPwrCapWrite_keeps {σ : State} {v : Word} {s : State} (h_s : Keeps σ s) :
    ∃ τ, execPwrCapWrite v s = .next τ ∧ Keeps σ τ := by
  refine ⟨_, rfl, ?_⟩
  repeat' first
    | with_reducible assumption
    | intro _
    | with_reducible refine pwrCapWrite_keeps ?_

theorem sampleInput_keeps {σ : State} {v : VoltSample} {s : State} (h_s : Keeps σ s) :
    Keeps σ (sampleInput v s) := by
  unfold sampleInput
  repeat' first
    | with_reducible assumption
    | intro _
    | extract_lets
    | with_reducible refine keeps_ite ?_ ?_
    | with_reducible refine wr_keeps ?_
    | with_reducible refine bumpBy_keeps ?_
    | fail_if_no_progress with_reducible refine keeps_upd ?_ rfl rfl rfl rfl rfl rfl rfl rfl rfl rfl rfl rfl rfl rfl rfl rfl rfl rfl rfl rfl rfl
    | split

theorem sampleRail_keeps {σ : State} {v : VoltSample} {s : State} (h_s : Keeps σ s) :
    Keeps σ (sampleRail v s) := by
  unfold sampleRail
  repeat' first
    | with_reducible assumption
    | intro _
    | extract_lets
    | with_reducible refine keeps_ite ?_ ?_
    | with_reducible refine wr_keeps ?_
    | fail_if_no_progress with_reducible refine keeps_upd ?_ rfl rfl rfl rfl rfl rfl rfl rfl rfl rfl rfl rfl rfl rfl rfl rfl rfl rfl rfl rfl rfl
    | with_reducible refine foldl_keeps ?_ ?_
    | split

theorem sampleField_keeps {σ : State} {m2 : Int} {f : Nat} {v : FieldVolt} {s : State} (h_s : Keeps σ s) :
    Keeps σ (sampleField m2 f v s).2 := by
  unfold sampleField
  repeat' first
    | with_reducible assumption
    | intro _
    | extract_lets
    | with_reducible refine keeps_ite ?_ ?_
    | with_reducible refine setFieldPower_keeps ?_
    | with_reducible refine wr_keeps ?_
    | fail_if_no_progress with_reducible refine keeps_upd ?_ rfl rfl rfl rfl rfl rfl rfl rfl rfl rfl rfl rfl rfl rfl rfl rfl rfl rfl rfl rfl rfl
    | with_reducible refine keeps_snd_ite ?_ ?_
    | split

theorem sampleFields_keeps {σ : State} {m2 : Int} {x0 : Nat} {x1 : List FieldVolt} {x2 : State} (h_x2 : Keeps σ x2) :
    Keeps σ (sampleFields m2 x0 x1 x2).2 := by
  induction x1 generalizing m2 x0 x2 with
  | nil => (unfold sampleFields; repeat' first
      | with_reducible assumption
      | intro _
      | extract_lets
      | with_reducible refine keeps_ite ?_ ?_
      | with_reducible refine sampleField_keeps ?_
      | with_reducible refine keeps_snd_ite ?_ ?_
      | split)
  | cons _ _ ih => (unfold sampleFields; repeat' first
      | with_reducible assumption
      | with_reducible apply ih
      | (injections; subst_vars; with_reducible apply ih)
      | intro _
      | extract_lets
      | with_reducible refine keeps_ite ?_ ?_
      | with_reducible refine sampleField_keeps ?_
      | with_reducible refine keeps_snd_ite ?_ ?_
      | split)

theorem markSuspect_keeps {σ : State} {f : Nat} {s : State} (h_s : Keeps σ s) :
    Keeps σ (markSuspect f s) := by
  unfold markSuspect
  repeat' first
    | with_reducible assumption
    | intro _
    | with_reducible refine warn_keeps ?_
    | with_reducible refine raise_keeps ?_
    | with_reducible refine journal_keeps ?_
    | with_reducible refine wr_keeps ?_

theorem vcmEvent_keeps {σ : State} {fs : List Nat} {s : State} (h_s : Keeps σ s) :
    Keeps σ (vcmEvent fs s) := by
  unfold vcmEvent
  repeat' first
    | with_reducible assumption
    | intro _
    | extract_lets
    | with_reducible refine keeps_ite ?_ ?_
    | with_reducible refine fatalPower_keeps ?_
    | with_reducible refine holdFw_keeps ?_
    | with_reducible refine forEach_keeps ?_ ?_
    | with_reducible refine markSuspect_keeps ?_
    | fail_if_no_progress with_reducible refine keeps_upd ?_ rfl rfl rfl rfl rfl rfl rfl rfl rfl rfl rfl rfl rfl rfl rfl rfl rfl rfl rfl rfl rfl
    | split

theorem countCalm_keeps {σ : State} {v : VoltSample} {s : State} (h_s : Keeps σ s) :
    Keeps σ (countCalm v s) := by
  unfold countCalm
  repeat' first
    | with_reducible assumption
    | intro _
    | extract_lets
    | with_reducible refine keeps_ite ?_ ?_
    | fail_if_no_progress with_reducible refine keeps_upd ?_ rfl rfl rfl rfl rfl rfl rfl rfl rfl rfl rfl rfl rfl rfl rfl rfl rfl rfl rfl rfl rfl
    | split

theorem failApart_keeps {σ : State} {s : State} (h_s : Keeps σ s) :
    Keeps σ (failApart s) := by
  unfold failApart
  repeat' first
    | with_reducible assumption
    | intro _
    | with_reducible refine forEach_keeps ?_ ?_
    | with_reducible refine phaseFault_keeps ?_

theorem voltageSample_keeps {σ : State} {v : VoltSample} {s : State} (h_s : Keeps σ s) :
    Keeps σ (voltageSample v s) := by
  unfold voltageSample
  repeat' first
    | with_reducible assumption
    | intro _
    | extract_lets
    | with_reducible refine sampleRail_keeps ?_
    | with_reducible refine sampleInput_keeps ?_
    | with_reducible refine atTime_keeps ?_
    | with_reducible refine sampleFields_keeps ?_
    | with_reducible refine failApart_keeps ?_
    | with_reducible refine countCalm_keeps ?_
    | with_reducible refine vcmEvent_keeps ?_
    | fail_if_no_progress with_reducible refine keeps_upd ?_ rfl rfl rfl rfl rfl rfl rfl rfl rfl rfl rfl rfl rfl rfl rfl rfl rfl rfl rfl rfl rfl
    | split
    | dsimp +zetaDelta only

theorem execVoltageSample_keeps {σ : State} {v : VoltSample} {s : State} (h_s : Keeps σ s) :
    ∃ τ, execVoltageSample v s = .next τ ∧ Keeps σ τ := by
  refine ⟨_, rfl, ?_⟩
  repeat' first
    | with_reducible assumption
    | intro _
    | with_reducible refine voltageSample_keeps ?_

theorem vcmRecovered_keeps {σ : State} {s : State} (h_s : Keeps σ s) :
    Keeps σ (vcmRecovered s) := by
  unfold vcmRecovered
  repeat' first
    | with_reducible assumption
    | intro _
    | extract_lets
    | with_reducible refine keeps_ite ?_ ?_
    | with_reducible refine restartImages_keeps ?_
    | with_reducible refine releaseFw_keeps ?_
    | with_reducible refine modJob_keeps ?_
    | fail_if_no_progress with_reducible refine keeps_upd ?_ rfl rfl rfl rfl rfl rfl rfl rfl rfl rfl rfl rfl rfl rfl rfl rfl rfl rfl rfl rfl rfl
    | split
    | dsimp +zetaDelta only

theorem execVcmRecovered_keeps {σ : State} {s : State} (h_s : Keeps σ s) :
    ∃ τ, execVcmRecovered s = .next τ ∧ Keeps σ τ := by
  refine ⟨_, rfl, ?_⟩
  repeat' first
    | with_reducible assumption
    | intro _
    | with_reducible refine vcmRecovered_keeps ?_

theorem vcmNorecover_keeps {σ : State} {s : State} (h_s : Keeps σ s) :
    Keeps σ (vcmNorecover s) := by
  unfold vcmNorecover
  repeat' first
    | with_reducible assumption
    | intro _
    | with_reducible refine keeps_ite ?_ ?_
    | with_reducible refine fatalPower_keeps ?_
    | fail_if_no_progress with_reducible refine keeps_upd ?_ rfl rfl rfl rfl rfl rfl rfl rfl rfl rfl rfl rfl rfl rfl rfl rfl rfl rfl rfl rfl rfl
    | split

theorem execVcmNorecover_keeps {σ : State} {s : State} (h_s : Keeps σ s) :
    ∃ τ, execVcmNorecover s = .next τ ∧ Keeps σ τ := by
  refine ⟨_, rfl, ?_⟩
  repeat' first
    | with_reducible assumption
    | intro _
    | with_reducible refine vcmNorecover_keeps ?_

end Sys2Proof.Machine
end

