-- ==== Sys2Proof/Laws/KeepThermal.lean ====
section
/-!
SUPPORT. What `Keeps` says, for every function of Machine/Thermal.lean that changes the state.
-/
set_option Elab.async false
namespace Sys2Proof.Machine
open Sys2Proof

theorem assertPwrOff_keeps {σ : State} {s : State} (h_s : Keeps σ s) :
    Keeps σ (assertPwrOff s) := by
  unfold assertPwrOff
  repeat' first
    | with_reducible assumption
    | intro _
    | with_reducible refine wr_keeps ?_
    | fail_if_no_progress with_reducible refine keeps_upd ?_ rfl rfl rfl rfl rfl rfl rfl rfl rfl rfl rfl rfl rfl rfl rfl rfl rfl rfl rfl rfl rfl

theorem execPwrOffReq_keeps {σ : State} {s : State} (h_s : Keeps σ s) :
    ∃ τ, execPwrOffReq s = .next τ ∧ Keeps σ τ := by
  refine ⟨_, rfl, ?_⟩
  repeat' first
    | with_reducible assumption
    | intro _
    | with_reducible refine when_keeps ?_ ?_
    | with_reducible refine assertPwrOff_keeps ?_

theorem criticalHeat_keeps {σ : State} {s : State} (h_s : Keeps σ s) :
    Keeps σ (criticalHeat s) := by
  unfold criticalHeat
  repeat' first
    | with_reducible assumption
    | intro _
    | with_reducible refine fatalWith_keeps ?_
    | fail_if_no_progress with_reducible refine keeps_upd ?_ rfl rfl rfl rfl rfl rfl rfl rfl rfl rfl rfl rfl rfl rfl rfl rfl rfl rfl rfl rfl rfl

theorem execThermalTrip_keeps {σ : State} {s : State} (h_s : Keeps σ s) :
    ∃ τ, execThermalTrip s = .next τ ∧ Keeps σ τ := by
  refine ⟨_, rfl, ?_⟩
  repeat' first
    | with_reducible assumption
    | intro _
    | with_reducible refine assertPwrOff_keeps ?_
    | fail_if_no_progress with_reducible refine keeps_upd ?_ rfl rfl rfl rfl rfl rfl rfl rfl rfl rfl rfl rfl rfl rfl rfl rfl rfl rfl rfl rfl rfl

theorem samplePair_keeps {σ : State} {ref f p : Nat} {r : Nat × Nat} {s : State} (h_s : Keeps σ s) : Keeps σ (samplePair ref f p r s).2 := by
  unfold samplePair
  exact wrB_keeps (wrB_keeps (wrB_keeps (wr_keeps (wr_keeps (setFieldPower_keeps h_s)))))

theorem samplePairs_keeps {σ : State} {ref f p : Nat} {l : List (Nat × Nat)} {s : State} (h_s : Keeps σ s) :
    Keeps σ (samplePairs ref f p l s).2 := by
  induction l generalizing p s with
  | nil => exact h_s
  | cons r l ih =>
    unfold samplePairs
    exact ih (samplePair_keeps h_s)

theorem throttleRise_keeps {σ : State} {f : Nat} {was : Nat} {g : Nat} {s : State} (h_s : Keeps σ s) :
    Keeps σ (throttleRise f was g s) := by
  unfold throttleRise
  repeat' first
    | with_reducible assumption
    | intro _
    | with_reducible refine when_keeps ?_ ?_
    | with_reducible refine warn_keeps ?_
    | with_reducible refine raise_keeps ?_

theorem followHeat_keeps {σ : State} {f : Nat} {t : Nat} {s : State} (h_s : Keeps σ s) :
    Keeps σ (followHeat f t s) := by
  unfold followHeat
  repeat' first
    | with_reducible assumption
    | intro _
    | extract_lets
    | with_reducible refine keeps_ite ?_ ?_
    | with_reducible refine throttleRise_keeps ?_
    | with_reducible refine setFieldPower_keeps ?_
    | with_reducible refine noPairs_keeps ?_
    | fail_if_no_progress with_reducible refine keeps_upd ?_ rfl rfl rfl rfl rfl rfl rfl rfl rfl rfl rfl rfl rfl rfl rfl rfl rfl rfl rfl rfl rfl
    | split

theorem sampleHeat_keeps {σ : State} {ref : Nat} {f : Nat} {rs : List (Nat × Nat)} {s : State} (h_s : Keeps σ s) :
    Keeps σ (sampleHeat ref f rs s).2 := by
  unfold sampleHeat
  repeat' first
    | with_reducible assumption
    | intro _
    | extract_lets
    | with_reducible refine samplePairs_keeps ?_
    | with_reducible refine followHeat_keeps ?_
    | with_reducible refine wr_keeps ?_
    | with_reducible refine setFieldPower_keeps ?_
    | with_reducible refine noPairs_keeps ?_
    | fail_if_no_progress with_reducible refine keeps_upd ?_ rfl rfl rfl rfl rfl rfl rfl rfl rfl rfl rfl rfl rfl rfl rfl rfl rfl rfl rfl rfl rfl
    | with_reducible refine keeps_snd_ite ?_ ?_
    | split
    | dsimp +zetaDelta only

theorem sampleHeats_keeps {σ : State} {ref : Nat} {x0 : Nat} {x1 : List (List (Nat × Nat))} {x2 : State} (h_x2 : Keeps σ x2) :
    Keeps σ (sampleHeats ref x0 x1 x2).2 := by
  induction x1 generalizing ref x0 x2 with
  | nil => (unfold sampleHeats; repeat' first
      | with_reducible assumption
      | intro _
      | extract_lets
      | with_reducible refine sampleHeat_keeps ?_
      | with_reducible refine keeps_snd_ite ?_ ?_)
  | cons _ _ ih => (unfold sampleHeats; repeat' first
      | with_reducible assumption
      | with_reducible apply ih
      | (injections; subst_vars; with_reducible apply ih)
      | intro _
      | extract_lets
      | with_reducible refine sampleHeat_keeps ?_
      | with_reducible refine keeps_snd_ite ?_ ?_)

theorem heatEndsTest_keeps {σ : State} {s : State} (h_s : Keeps σ s) : Keeps σ (heatEndsTest s) := by
  unfold heatEndsTest
  repeat' first
    | with_reducible assumption
    | intro _
    | extract_lets
    | with_reducible refine keeps_ite ?_ ?_
    | fail_if_no_progress with_reducible refine keeps_upd ?_ rfl rfl rfl rfl rfl rfl rfl rfl rfl rfl rfl rfl rfl rfl rfl rfl rfl rfl rfl rfl rfl

theorem showHottest_keeps {σ : State} {s : State} (h_s : Keeps σ s) :
    Keeps σ (showHottest s) := by
  unfold showHottest
  repeat' first
    | with_reducible assumption
    | intro _
    | extract_lets
    | with_reducible refine keeps_ite ?_ ?_
    | with_reducible refine wr_keeps ?_
    | with_reducible refine foldl_keeps ?_ ?_
    | split

theorem sampleStack_keeps {σ : State} {n : Nat} {t : Nat} {s : State} (h_s : Keeps σ s) :
    Keeps σ (sampleStack n t s) := by
  unfold sampleStack
  repeat' first
    | with_reducible assumption
    | intro _
    | extract_lets
    | with_reducible refine wr_keeps ?_
    | with_reducible refine when_keeps ?_ ?_
    | with_reducible refine raise_keeps ?_
    | with_reducible refine warn_keeps ?_

theorem sampleStacks_keeps {σ : State} {x0 : Nat} {x1 : List Nat} {x2 : State} (h_x2 : Keeps σ x2) :
    Keeps σ (sampleStacks x0 x1 x2) := by
  induction x1 generalizing x0 x2 with
  | nil => (unfold sampleStacks; repeat' first
      | with_reducible assumption
      | intro _
      | with_reducible refine sampleStack_keeps ?_)
  | cons _ _ ih => (unfold sampleStacks; repeat' first
      | with_reducible assumption
      | with_reducible apply ih
      | (injections; subst_vars; with_reducible apply ih)
      | intro _
      | with_reducible refine sampleStack_keeps ?_)

theorem sampleInlet_keeps {σ : State} {v : ThermSample} {s : State} (h_s : Keeps σ s) :
    Keeps σ (sampleInlet v s) := by
  unfold sampleInlet
  repeat' first
    | with_reducible assumption
    | intro _
    | extract_lets
    | with_reducible refine keeps_ite ?_ ?_
    | with_reducible refine wr_keeps ?_
    | fail_if_no_progress with_reducible refine keeps_upd ?_ rfl rfl rfl rfl rfl rfl rfl rfl rfl rfl rfl rfl rfl rfl rfl rfl rfl rfl rfl rfl rfl
    | split

theorem thermalSample_keeps {σ : State} {v : ThermSample} {s : State} (h_s : Keeps σ s) :
    Keeps σ (thermalSample v s) := by
  unfold thermalSample
  repeat' first
    | with_reducible assumption
    | intro _
    | extract_lets
    | with_reducible refine keeps_ite ?_ ?_
    | with_reducible refine sampleInlet_keeps ?_
    | with_reducible refine atTime_keeps ?_
    | with_reducible refine sampleHeats_keeps ?_
    | with_reducible refine sampleStacks_keeps ?_
    | with_reducible refine heatEndsTest_keeps ?_
    | with_reducible refine showHottest_keeps ?_
    | with_reducible refine when_keeps ?_ ?_
    | with_reducible refine criticalHeat_keeps ?_
    | fail_if_no_progress with_reducible refine keeps_upd ?_ rfl rfl rfl rfl rfl rfl rfl rfl rfl rfl rfl rfl rfl rfl rfl rfl rfl rfl rfl rfl rfl
    | split

theorem execThermalSample_keeps {σ : State} {v : ThermSample} {s : State} (h_s : Keeps σ s) :
    ∃ τ, execThermalSample v s = .next τ ∧ Keeps σ τ := by
  refine ⟨_, rfl, ?_⟩
  repeat' first
    | with_reducible assumption
    | intro _
    | with_reducible refine thermalSample_keeps ?_

theorem pairSuspect_keeps {σ : State} {f : Nat} {p : Nat} {s : State} (h_s : Keeps σ s) :
    Keeps σ (pairSuspect f p s) := by
  unfold pairSuspect
  repeat' first
    | with_reducible assumption
    | intro _
    | extract_lets
    | with_reducible refine keeps_ite ?_ ?_
    | with_reducible refine wr_keeps ?_
    | with_reducible refine warn_keeps ?_
    | with_reducible refine raise_keeps ?_
    | with_reducible refine journal_keeps ?_
    | split

theorem execPairSuspect_keeps {σ : State} {f : Nat} {p : Nat} {s : State} (h_s : Keeps σ s) :
    ∃ τ, execPairSuspect f p s = .next τ ∧ Keeps σ τ := by
  refine ⟨_, rfl, ?_⟩
  repeat' first
    | with_reducible assumption
    | intro _
    | with_reducible refine pairSuspect_keeps ?_

theorem noPairs_keeps {σ : State} {f : Nat} {s : State} (h_s : Keeps σ s) :
    Keeps σ (noPairs f s) := by
  unfold noPairs
  repeat' first
    | with_reducible assumption
    | intro _
    | extract_lets
    | with_reducible refine keeps_ite ?_ ?_
    | with_reducible refine setFieldPower_keeps ?_
    | with_reducible refine throttleRise_keeps ?_
    | with_reducible refine warn_keeps ?_
    | with_reducible refine raise_keeps ?_
    | fail_if_no_progress with_reducible refine keeps_upd ?_ rfl rfl rfl rfl rfl rfl rfl rfl rfl rfl rfl rfl rfl rfl rfl rfl rfl rfl rfl rfl rfl
    | split

theorem execNoPairs_keeps {σ : State} {f : Nat} {s : State} (h_s : Keeps σ s) :
    ∃ τ, execNoPairs f s = .next τ ∧ Keeps σ τ := by
  refine ⟨_, rfl, ?_⟩
  repeat' first
    | with_reducible assumption
    | intro _
    | with_reducible refine noPairs_keeps ?_

theorem inletWarn_keeps {σ : State} {s : State} (h_s : Keeps σ s) :
    Keeps σ (inletWarn s) := by
  unfold inletWarn
  repeat' first
    | with_reducible assumption
    | intro _
    | extract_lets
    | with_reducible refine keeps_ite ?_ ?_
    | with_reducible refine warn_keeps ?_
    | fail_if_no_progress with_reducible refine keeps_upd ?_ rfl rfl rfl rfl rfl rfl rfl rfl rfl rfl rfl rfl rfl rfl rfl rfl rfl rfl rfl rfl rfl
    | split

theorem execInlet_keeps {σ : State} {s : State} (h_s : Keeps σ s) :
    ∃ τ, execInlet s = .next τ ∧ Keeps σ τ := by
  refine ⟨_, rfl, ?_⟩
  repeat' first
    | with_reducible assumption
    | intro _
    | with_reducible refine inletWarn_keeps ?_

theorem flowPulse_keeps {σ : State} {t : Nat} {highNs : Nat} {s0 : State} (h_s0 : Keeps σ s0) :
    Keeps σ (flowPulse t highNs s0) := by
  unfold flowPulse
  repeat' first
    | with_reducible assumption
    | intro _
    | extract_lets
    | with_reducible refine keeps_ite ?_ ?_
    | with_reducible refine atTime_keeps ?_
    | with_reducible refine raise_keeps ?_
    | with_reducible refine bump_keeps ?_
    | fail_if_no_progress with_reducible refine keeps_upd ?_ rfl rfl rfl rfl rfl rfl rfl rfl rfl rfl rfl rfl rfl rfl rfl rfl rfl rfl rfl rfl rfl
    | split

theorem execFlowPulse_keeps {σ : State} {t : Nat} {highNs : Nat} {s : State} (h_s : Keeps σ s) :
    ∃ τ, execFlowPulse t highNs s = .next τ ∧ Keeps σ τ := by
  refine ⟨_, rfl, ?_⟩
  repeat' first
    | with_reducible assumption
    | intro _
    | with_reducible refine flowPulse_keeps ?_

theorem flowNoise_keeps {σ : State} {t : Nat} {s : State} (h_s : Keeps σ s) :
    Keeps σ (flowNoise t s) := by
  unfold flowNoise
  repeat' first
    | with_reducible assumption
    | intro _
    | with_reducible refine keeps_ite ?_ ?_
    | with_reducible refine pldm_keeps ?_
    | with_reducible refine atTime_keeps ?_
    | fail_if_no_progress with_reducible refine keeps_upd ?_ rfl rfl rfl rfl rfl rfl rfl rfl rfl rfl rfl rfl rfl rfl rfl rfl rfl rfl rfl rfl rfl
    | split

theorem execFlowNoise_keeps {σ : State} {t : Nat} {s : State} (h_s : Keeps σ s) :
    ∃ τ, execFlowNoise t s = .next τ ∧ Keeps σ τ := by
  refine ⟨_, rfl, ?_⟩
  repeat' first
    | with_reducible assumption
    | intro _
    | with_reducible refine flowNoise_keeps ?_

theorem enterCool_keeps {σ : State} {n : Nat} {s : State} (h_s : Keeps σ s) :
    Keeps σ (enterCool n s) := by
  unfold enterCool
  repeat' first
    | with_reducible assumption
    | intro _
    | extract_lets
    | with_reducible refine keeps_ite ?_ ?_
    | with_reducible refine wr_keeps ?_
    | with_reducible refine warn_keeps ?_
    | split

theorem flowUpdate_keeps {σ : State} {s : State} (h_s : Keeps σ s) :
    Keeps σ (flowUpdate s) := by
  unfold flowUpdate
  repeat' first
    | with_reducible assumption
    | intro _
    | extract_lets
    | with_reducible refine keeps_ite ?_ ?_
    | with_reducible refine wr_keeps ?_
    | with_reducible refine wrB_keeps ?_
    | with_reducible refine enterCool_keeps ?_
    | fail_if_no_progress with_reducible refine keeps_upd ?_ rfl rfl rfl rfl rfl rfl rfl rfl rfl rfl rfl rfl rfl rfl rfl rfl rfl rfl rfl rfl rfl
    | split

theorem execFlowUpdate_keeps {σ : State} {s : State} (h_s : Keeps σ s) :
    ∃ τ, execFlowUpdate s = .next τ ∧ Keeps σ τ := by
  refine ⟨_, rfl, ?_⟩
  repeat' first
    | with_reducible assumption
    | intro _
    | with_reducible refine flowUpdate_keeps ?_

theorem enterStopping_keeps {σ : State} {t : Nat} {s : State} (h_s : Keeps σ s) :
    Keeps σ (enterStopping t s) := by
  unfold enterStopping
  repeat' first
    | with_reducible assumption
    | intro _
    | extract_lets
    | with_reducible refine keeps_ite ?_ ?_
    | with_reducible refine wr_keeps ?_
    | with_reducible refine warn_keeps ?_
    | with_reducible refine bump_keeps ?_
    | fail_if_no_progress with_reducible refine keeps_upd ?_ rfl rfl rfl rfl rfl rfl rfl rfl rfl rfl rfl rfl rfl rfl rfl rfl rfl rfl rfl rfl rfl
    | split

theorem flowPulseTimeout_keeps {σ : State} {t : Nat} {s : State} (h_s : Keeps σ s) :
    Keeps σ (flowPulseTimeout t s) := by
  unfold flowPulseTimeout
  repeat' first
    | with_reducible assumption
    | intro _
    | with_reducible refine keeps_ite ?_ ?_
    | with_reducible refine enterStopping_keeps ?_
    | with_reducible refine atTime_keeps ?_
    | split

theorem execFlowPulseTimeout_keeps {σ : State} {t : Nat} {s : State} (h_s : Keeps σ s) :
    ∃ τ, execFlowPulseTimeout t s = .next τ ∧ Keeps σ τ := by
  refine ⟨_, rfl, ?_⟩
  repeat' first
    | with_reducible assumption
    | intro _
    | with_reducible refine flowPulseTimeout_keeps ?_

theorem coolOk_keeps {σ : State} {level : Bool} {heldUs : Nat} {t : Nat} {s0 : State} (h_s0 : Keeps σ s0) :
    Keeps σ (coolOk level heldUs t s0) := by
  unfold coolOk
  repeat' first
    | with_reducible assumption
    | intro _
    | extract_lets
    | with_reducible refine keeps_ite ?_ ?_
    | with_reducible refine atTime_keeps ?_
    | with_reducible refine raise_keeps ?_
    | with_reducible refine bump_keeps ?_
    | with_reducible refine wrB_keeps ?_
    | with_reducible refine enterStopping_keeps ?_
    | fail_if_no_progress with_reducible refine keeps_upd ?_ rfl rfl rfl rfl rfl rfl rfl rfl rfl rfl rfl rfl rfl rfl rfl rfl rfl rfl rfl rfl rfl
    | split

theorem coolantStopped_keeps {σ : State} {s : State} (h_s : Keeps σ s) :
    Keeps σ (coolantStopped s) := by
  unfold coolantStopped
  repeat' first
    | with_reducible assumption
    | intro _
    | extract_lets
    | with_reducible refine keeps_ite ?_ ?_
    | with_reducible refine forEach_keeps ?_ ?_
    | with_reducible refine markReplay_keeps ?_
    | with_reducible refine wr_keeps ?_
    | with_reducible refine holdFw_keeps ?_
    | split

theorem execCoolantStopped_keeps {σ : State} {s : State} (h_s : Keeps σ s) :
    ∃ τ, execCoolantStopped s = .next τ ∧ Keeps σ τ := by
  refine ⟨_, rfl, ?_⟩
  repeat' first
    | with_reducible assumption
    | intro _
    | with_reducible refine coolantStopped_keeps ?_

theorem coolantResume_keeps {σ : State} {s : State} (h_s : Keeps σ s) :
    Keeps σ (coolantResume s) := by
  unfold coolantResume
  repeat' first
    | with_reducible assumption
    | intro _
    | extract_lets
    | with_reducible refine keeps_ite ?_ ?_
    | with_reducible refine warn_keeps ?_
    | with_reducible refine wr_keeps ?_
    | with_reducible refine releaseFw_keeps ?_
    | with_reducible refine restartImages_keeps ?_
    | split

theorem execCoolantResume_keeps {σ : State} {s : State} (h_s : Keeps σ s) :
    ∃ τ, execCoolantResume s = .next τ ∧ Keeps σ τ := by
  refine ⟨_, rfl, ?_⟩
  repeat' first
    | with_reducible assumption
    | intro _
    | with_reducible refine coolantResume_keeps ?_

theorem coolCfgWrite_keeps {σ : State} {v : Word} {s : State} (h_s : Keeps σ s) :
    Keeps σ (coolCfgWrite v s) := by
  unfold coolCfgWrite
  repeat' first
    | with_reducible assumption
    | intro _
    | extract_lets
    | with_reducible refine keeps_ite ?_ ?_
    | with_reducible refine raise_keeps ?_
    | with_reducible refine wr_keeps ?_
    | split

theorem execCoolCfgWrite_keeps {σ : State} {v : Word} {s : State} (h_s : Keeps σ s) :
    ∃ τ, execCoolCfgWrite v s = .next τ ∧ Keeps σ τ := by
  refine ⟨_, rfl, ?_⟩
  repeat' first
    | with_reducible assumption
    | intro _
    | with_reducible refine coolCfgWrite_keeps ?_

theorem history_keeps {σ : State} {t : Nat} {s0 : State} (h_s0 : Keeps σ s0) :
    Keeps σ (history t s0) := by
  unfold history
  repeat' first
    | with_reducible assumption
    | intro _
    | extract_lets
    | with_reducible refine keeps_ite ?_ ?_
    | with_reducible refine atTime_keeps ?_
    | with_reducible refine journal_keeps ?_
    | fail_if_no_progress with_reducible refine keeps_upd ?_ rfl rfl rfl rfl rfl rfl rfl rfl rfl rfl rfl rfl rfl rfl rfl rfl rfl rfl rfl rfl rfl
    | with_reducible refine foldl_keeps ?_ ?_
    | split

theorem execHistory_keeps {σ : State} {t : Nat} {s : State} (h_s : Keeps σ s) :
    ∃ τ, execHistory t s = .next τ ∧ Keeps σ τ := by
  refine ⟨_, rfl, ?_⟩
  repeat' first
    | with_reducible assumption
    | intro _
    | with_reducible refine history_keeps ?_

end Sys2Proof.Machine
end

