-- ==== Sys2Proof/Laws/KeepJournal.lean ====
section
/-!
SUPPORT. What `Keeps` says, for every function of Machine/Journal.lean that changes the state.
-/
set_option Elab.async false
namespace Sys2Proof.Machine
open Sys2Proof

theorem setArea_keeps {σ : State} {n : Nat} {a : JArea} {s : State} (h_s : Keeps σ s) :
    Keeps σ (setArea n a s) := by
  unfold setArea
  repeat' first
    | with_reducible assumption
    | intro _
    | with_reducible refine keeps_ite ?_ ?_
    | fail_if_no_progress with_reducible refine keeps_upd ?_ rfl rfl rfl rfl rfl rfl rfl rfl rfl rfl rfl rfl rfl rfl rfl rfl rfl rfl rfl rfl rfl
    | split

theorem showJournal_keeps {σ : State} {s : State} (h_s : Keeps σ s) :
    Keeps σ (showJournal s) := by
  unfold showJournal
  repeat' first
    | with_reducible assumption
    | intro _
    | extract_lets
    | with_reducible refine wr_keeps ?_

theorem pressStart_keeps {σ : State} {s : State} (h_s : Keeps σ s) :
    Keeps σ (pressStart s) := by
  unfold pressStart
  repeat' first
    | with_reducible assumption
    | intro _
    | extract_lets
    | with_reducible refine keeps_ite ?_ ?_
    | with_reducible refine wr_keeps ?_
    | with_reducible refine setArea_keeps ?_
    | fail_if_no_progress with_reducible refine keeps_upd ?_ rfl rfl rfl rfl rfl rfl rfl rfl rfl rfl rfl rfl rfl rfl rfl rfl rfl rfl rfl rfl rfl
    | split

theorem pressComplete_keeps {σ : State} {s : State} (h_s : Keeps σ s) :
    Keeps σ (pressComplete s) := by
  unfold pressComplete
  repeat' first
    | with_reducible assumption
    | intro _
    | extract_lets
    | with_reducible refine keeps_ite ?_ ?_
    | with_reducible refine setArea_keeps ?_
    | with_reducible refine wr_keeps ?_
    | with_reducible refine raise_keeps ?_
    | with_reducible refine showJournal_keeps ?_
    | fail_if_no_progress with_reducible refine keeps_upd ?_ rfl rfl rfl rfl rfl rfl rfl rfl rfl rfl rfl rfl rfl rfl rfl rfl rfl rfl rfl rfl rfl
    | split

theorem execPressComplete_keeps {σ : State} {s : State} (h_s : Keeps σ s) :
    ∃ τ, execPressComplete s = .next τ ∧ Keeps σ τ := by
  refine ⟨_, rfl, ?_⟩
  repeat' first
    | with_reducible assumption
    | intro _
    | with_reducible refine pressComplete_keeps ?_

theorem journalEraseDone_keeps {σ : State} {s : State} (h_s : Keeps σ s) :
    Keeps σ (journalEraseDone s) := by
  unfold journalEraseDone
  repeat' first
    | with_reducible assumption
    | intro _
    | extract_lets
    | with_reducible refine keeps_ite ?_ ?_
    | with_reducible refine pressStart_keeps ?_
    | with_reducible refine wr_keeps ?_
    | with_reducible refine setArea_keeps ?_
    | fail_if_no_progress with_reducible refine keeps_upd ?_ rfl rfl rfl rfl rfl rfl rfl rfl rfl rfl rfl rfl rfl rfl rfl rfl rfl rfl rfl rfl rfl
    | split

theorem execJournalEraseDone_keeps {σ : State} {s : State} (h_s : Keeps σ s) :
    ∃ τ, execJournalEraseDone s = .next τ ∧ Keeps σ τ := by
  refine ⟨_, rfl, ?_⟩
  repeat' first
    | with_reducible assumption
    | intro _
    | with_reducible refine journalEraseDone_keeps ?_

theorem durable_keeps {σ : State} {p : JPending} {s : State} (h_s : Keeps σ s) :
    Keeps σ (durable p s) := by
  unfold durable
  repeat' first
    | with_reducible assumption
    | intro _
    | extract_lets
    | with_reducible refine keeps_ite ?_ ?_
    | with_reducible refine start_keeps ?_
    | with_reducible refine setArea_keeps ?_
    | with_reducible refine pressStart_keeps ?_
    | with_reducible refine showJournal_keeps ?_
    | fail_if_no_progress with_reducible refine keeps_upd ?_ rfl rfl rfl rfl rfl rfl rfl rfl rfl rfl rfl rfl rfl rfl rfl rfl rfl rfl rfl rfl rfl
    | split

theorem journalFail_keeps {σ : State} {s : State} (h_s : Keeps σ s) :
    Keeps σ (journalFail s) := by
  unfold journalFail
  repeat' first
    | with_reducible assumption
    | intro _
    | with_reducible refine pldm_keeps ?_
    | with_reducible refine raise_keeps ?_
    | fail_if_no_progress with_reducible refine keeps_upd ?_ rfl rfl rfl rfl rfl rfl rfl rfl rfl rfl rfl rfl rfl rfl rfl rfl rfl rfl rfl rfl rfl

theorem programFailed_keeps {σ : State} {type : Nat} {s : State} (h_s : Keeps σ s) :
    Keeps σ (programFailed type s) := by
  unfold programFailed
  repeat' first
    | with_reducible assumption
    | intro _
    | extract_lets
    | with_reducible refine keeps_ite ?_ ?_
    | with_reducible refine setArea_keeps ?_
    | with_reducible refine journalFail_keeps ?_
    | with_reducible refine pressStart_keeps ?_
    | with_reducible refine showJournal_keeps ?_
    | split

theorem journalStep_keeps {σ : State} {ok : Bool} {s : State} (h_s : Keeps σ s) :
    Keeps σ (journalStep ok s).2 := by
  unfold journalStep
  repeat' first
    | with_reducible assumption
    | intro _
    | extract_lets
    | with_reducible refine keeps_ite ?_ ?_
    | with_reducible refine journalFail_keeps ?_
    | with_reducible refine pressStart_keeps ?_
    | with_reducible refine durable_keeps ?_
    | with_reducible refine programFailed_keeps ?_
    | fail_if_no_progress with_reducible refine keeps_upd ?_ rfl rfl rfl rfl rfl rfl rfl rfl rfl rfl rfl rfl rfl rfl rfl rfl rfl rfl rfl rfl rfl
    | with_reducible refine keeps_snd_ite ?_ ?_
    | split
    | dsimp +zetaDelta only

theorem startDurable_keeps {σ : State} {d : Option Durable} {s : State} (h_s : Keeps σ s) :
    Keeps σ (startDurable d s) := by
  unfold startDurable
  repeat' first
    | with_reducible assumption
    | intro _
    | with_reducible refine keeps_ite ?_ ?_
    | fail_if_no_progress with_reducible refine keeps_upd ?_ rfl rfl rfl rfl rfl rfl rfl rfl rfl rfl rfl rfl rfl rfl rfl rfl rfl rfl rfl rfl rfl
    | split

theorem drainJournal_keeps {σ : State} {x0 : Nat} {x1 : State} (h_x1 : Keeps σ x1) :
    Keeps σ (drainJournal x0 x1) := by
  induction x0 generalizing x1 with
  | zero => (unfold drainJournal; repeat' first
      | with_reducible assumption
      | intro _
      | extract_lets
      | with_reducible refine keeps_ite ?_ ?_
      | with_reducible refine pressComplete_keeps ?_
      | with_reducible refine pressStart_keeps ?_
      | with_reducible refine journalStep_keeps ?_
      | with_reducible refine startDurable_keeps ?_
      | fail_if_no_progress with_reducible refine keeps_upd ?_ rfl rfl rfl rfl rfl rfl rfl rfl rfl rfl rfl rfl rfl rfl rfl rfl rfl rfl rfl rfl rfl
      | split
      | dsimp +zetaDelta only)
  | succ _ ih => (unfold drainJournal; repeat' first
      | with_reducible assumption
      | with_reducible apply ih
      | (injections; subst_vars; with_reducible apply ih)
      | intro _
      | extract_lets
      | with_reducible refine keeps_ite ?_ ?_
      | with_reducible refine pressComplete_keeps ?_
      | with_reducible refine pressStart_keeps ?_
      | with_reducible refine journalStep_keeps ?_
      | with_reducible refine startDurable_keeps ?_
      | fail_if_no_progress with_reducible refine keeps_upd ?_ rfl rfl rfl rfl rfl rfl rfl rfl rfl rfl rfl rfl rfl rfl rfl rfl rfl rfl rfl rfl rfl
      | split
      | dsimp +zetaDelta only)

theorem writeWaiting_keeps {σ : State} {s : State} (h_s : Keeps σ s) :
    Keeps σ (writeWaiting s) := by
  unfold writeWaiting
  repeat' first
    | with_reducible assumption
    | intro _
    | with_reducible refine drainJournal_keeps ?_

theorem journalNow_keeps {σ : State} {type : Nat} {payload : List Nat} {s : State} (h_s : Keeps σ s) :
    Keeps σ (journalNow type payload s) := by
  unfold journalNow
  repeat' first
    | with_reducible assumption
    | intro _
    | with_reducible refine writeWaiting_keeps ?_
    | with_reducible refine journal_keeps ?_

end Sys2Proof.Machine
end

