-- ==== Sys2Proof/Laws/KeepSecurity.lean ====
section
/-!
SUPPORT. What `Keeps` says, for every function of Machine/Security.lean that changes the state.
-/
set_option Elab.async false
namespace Sys2Proof.Machine
open Sys2Proof

theorem mbxWait_keeps {σ : State} {w : MbxWait} {s : State} (h_s : Keeps σ s) :
    Keeps σ (mbxWait w s) := by
  unfold mbxWait
  repeat' first
    | with_reducible assumption
    | intro _
    | with_reducible refine wr_keeps ?_
    | fail_if_no_progress with_reducible refine keeps_upd ?_ rfl rfl rfl rfl rfl rfl rfl rfl rfl rfl rfl rfl rfl rfl rfl rfl rfl rfl rfl rfl rfl

theorem mbxDone_keeps {σ : State} {n : Nat} {s : State} (h_s : Keeps σ s) :
    Keeps σ (mbxDone n s) := by
  unfold mbxDone
  repeat' first
    | with_reducible assumption
    | intro _
    | with_reducible refine raise_keeps ?_
    | with_reducible refine wr_keeps ?_
    | fail_if_no_progress with_reducible refine keeps_upd ?_ rfl rfl rfl rfl rfl rfl rfl rfl rfl rfl rfl rfl rfl rfl rfl rfl rfl rfl rfl rfl rfl

theorem mbxFail_keeps {σ : State} {code : Nat} {s : State} (h_s : Keeps σ s) :
    Keeps σ (mbxFail code s) := by
  unfold mbxFail
  repeat' first
    | with_reducible assumption
    | intro _
    | with_reducible refine raise_keeps ?_
    | with_reducible refine wr_keeps ?_
    | fail_if_no_progress with_reducible refine keeps_upd ?_ rfl rfl rfl rfl rfl rfl rfl rfl rfl rfl rfl rfl rfl rfl rfl rfl rfl rfl rfl rfl rfl

theorem mbxCommand_keeps {σ : State} {op : Nat} {act : State → State} {s : State} (h_act : ∀ y0, Keeps σ y0 → Keeps σ (act y0)) (h_s : Keeps σ s) :
    Keeps σ (mbxCommand op act s) := by
  unfold mbxCommand
  repeat' first
    | with_reducible assumption
    | with_reducible apply h_act
    | intro _
    | extract_lets
    | with_reducible refine keeps_ite ?_ ?_
    | with_reducible refine wr_keeps ?_
    | with_reducible refine raise_keeps ?_
    | split

theorem mbxWrite_keeps {σ : State} {a : Nat} {bs : List Byte} {s : State} (h_s : Keeps σ s) :
    Keeps σ (mbxWrite a bs s) := by
  unfold mbxWrite
  exact keeps_memory h_s rfl rfl rfl (fun t => { t with }) fun t => { t with mbx := Table.wf_setMany _ _ _ _ t.mbx }

theorem showIdentity_keeps {σ : State} {s : State} (h_s : Keeps σ s) :
    Keeps σ (showIdentity s) := by
  unfold showIdentity
  repeat' first
    | with_reducible assumption
    | intro _
    | with_reducible refine wr_keeps ?_

theorem reserve_keeps {σ : State} {tree : Nat} {first : Nat} {s : State} (h_s : Keeps σ s) :
    Keeps σ (reserve tree first s) := by
  unfold reserve
  repeat' first
    | with_reducible assumption
    | intro _
    | with_reducible refine keeps_ite ?_ ?_
    | with_reducible refine journal_keeps ?_
    | split

theorem warnTop_keeps {σ : State} {s : State} (h_s : Keeps σ s) :
    Keeps σ (warnTop s) := by
  unfold warnTop
  repeat' first
    | with_reducible assumption
    | intro _
    | with_reducible refine when_keeps ?_ ?_
    | with_reducible refine raise_keeps ?_

theorem openLower_keeps {σ : State} {s : State} (h_s : Keeps σ s) :
    Keeps σ (openLower s) := by
  unfold openLower
  repeat' first
    | with_reducible assumption
    | intro _
    | with_reducible refine keeps_ite ?_ ?_
    | with_reducible refine warnTop_keeps ?_
    | with_reducible refine reserve_keeps ?_
    | fail_if_no_progress with_reducible refine keeps_upd ?_ rfl rfl rfl rfl rfl rfl rfl rfl rfl rfl rfl rfl rfl rfl rfl rfl rfl rfl rfl rfl rfl
    | split

theorem switchLower_keeps {σ : State} {s : State} (h_s : Keeps σ s) :
    Keeps σ (switchLower s) := by
  unfold switchLower
  repeat' first
    | with_reducible assumption
    | intro _
    | fail_if_no_progress with_reducible refine keeps_upd ?_ rfl rfl rfl rfl rfl rfl rfl rfl rfl rfl rfl rfl rfl rfl rfl rfl rfl rfl rfl rfl rfl
    | split

theorem settleTrees_keeps {σ : State} {s : State} (h_s : Keeps σ s) :
    Keeps σ (settleTrees s) := by
  unfold settleTrees
  repeat' first
    | with_reducible assumption
    | intro _
    | extract_lets
    | with_reducible refine keeps_ite ?_ ?_
    | with_reducible refine switchLower_keeps ?_
    | with_reducible refine openLower_keeps ?_
    | with_reducible refine showIdentity_keeps ?_
    | split

theorem askIndex_keeps {σ : State} {s : State} (h_s : Keeps σ s) :
    Keeps σ (askIndex s) := by
  unfold askIndex
  repeat' first
    | with_reducible assumption
    | intro _
    | with_reducible refine keeps_ite ?_ ?_
    | with_reducible refine reserve_keeps ?_
    | split

theorem sign_keeps {σ : State} {msg : List Byte} {s : State} (h_s : Keeps σ s) :
    Keeps σ (sign msg s).2 := by
  unfold sign
  repeat' first
    | with_reducible assumption
    | intro _
    | extract_lets
    | with_reducible refine settleTrees_keeps ?_
    | fail_if_no_progress with_reducible refine keeps_upd ?_ rfl rfl rfl rfl rfl rfl rfl rfl rfl rfl rfl rfl rfl rfl rfl rfl rfl rfl rfl rfl rfl
    | with_reducible refine keeps_snd_ite ?_ ?_

theorem signing_keeps {σ : State} {w : MbxWait} {act : State → State} {s : State} (h_act : ∀ y0, Keeps σ y0 → Keeps σ (act y0)) (h_s : Keeps σ s) :
    Keeps σ (signing w act s) := by
  unfold signing
  repeat' first
    | with_reducible assumption
    | with_reducible apply h_act
    | intro _
    | with_reducible refine askIndex_keeps ?_
    | with_reducible refine mbxWait_keeps ?_
    | with_reducible refine mbxFail_keeps ?_
    | with_reducible refine raise_keeps ?_
    | fail_if_no_progress with_reducible refine keeps_upd ?_ rfl rfl rfl rfl rfl rfl rfl rfl rfl rfl rfl rfl rfl rfl rfl rfl rfl rfl rfl rfl rfl
    | split

theorem writeLines_keeps {σ : State} {x0 : Nat} {x1 : Nat} {x2 : List Byte} {x3 : State} (h_x3 : Keeps σ x3) :
    Keeps σ (writeLines x0 x1 x2 x3) := by
  induction x0 generalizing x1 x2 x3 with
  | zero => (unfold writeLines; repeat' first
      | with_reducible assumption
      | intro _
      | extract_lets
      | with_reducible refine keeps_ite ?_ ?_
      | with_reducible refine sendWr_keeps ?_
      | split)
  | succ _ ih => (unfold writeLines; repeat' first
      | with_reducible assumption
      | with_reducible apply ih
      | (injections; subst_vars; with_reducible apply ih)
      | intro _
      | extract_lets
      | with_reducible refine keeps_ite ?_ ?_
      | with_reducible refine sendWr_keeps ?_
      | split)

theorem attestNow_keeps {σ : State} {s : State} (h_s : Keeps σ s) :
    Keeps σ (attestNow s) := by
  unfold attestNow
  repeat' first
    | with_reducible assumption
    | intro _
    | extract_lets
    | with_reducible refine sign_keeps ?_
    | with_reducible refine mbxDone_keeps ?_
    | with_reducible refine raise_keeps ?_
    | with_reducible refine writeLines_keeps ?_

theorem attest_keeps {σ : State} {s : State} (h_s : Keeps σ s) :
    Keeps σ (attest s) := by
  unfold attest
  repeat' first
    | with_reducible assumption
    | intro _
    | with_reducible refine keeps_ite ?_ ?_
    | with_reducible refine mbxFail_keeps ?_
    | with_reducible refine signing_keeps ?_ ?_
    | with_reducible refine attestNow_keeps ?_
    | split

theorem execAttest_keeps {σ : State} {s : State} (h_s : Keeps σ s) :
    ∃ τ, execAttest s = .next τ ∧ Keeps σ τ := by
  refine ⟨_, rfl, ?_⟩
  repeat' first
    | with_reducible assumption
    | intro _
    | with_reducible refine mbxCommand_keeps ?_ ?_
    | with_reducible refine attest_keeps ?_

theorem dropKem_keeps {σ : State} {s : State} (h_s : Keeps σ s) :
    Keeps σ (dropKem s) := by
  unfold dropKem
  repeat' first
    | with_reducible assumption
    | intro _
    | fail_if_no_progress with_reducible refine keeps_upd ?_ rfl rfl rfl rfl rfl rfl rfl rfl rfl rfl rfl rfl rfl rfl rfl rfl rfl rfl rfl rfl rfl

theorem kemStartNow_keeps {σ : State} {s : State} (h_s : Keeps σ s) :
    Keeps σ (kemStartNow s) := by
  unfold kemStartNow
  repeat' first
    | with_reducible assumption
    | intro _
    | extract_lets
    | with_reducible refine sign_keeps ?_
    | with_reducible refine mbxDone_keeps ?_
    | with_reducible refine mbxWrite_keeps ?_
    | fail_if_no_progress with_reducible refine keeps_upd ?_ rfl rfl rfl rfl rfl rfl rfl rfl rfl rfl rfl rfl rfl rfl rfl rfl rfl rfl rfl rfl rfl

theorem kemStart_keeps {σ : State} {s : State} (h_s : Keeps σ s) :
    Keeps σ (kemStart s) := by
  unfold kemStart
  repeat' first
    | with_reducible assumption
    | intro _
    | extract_lets
    | with_reducible refine keeps_ite ?_ ?_
    | with_reducible refine dropKem_keeps ?_
    | with_reducible refine mbxFail_keeps ?_
    | with_reducible refine signing_keeps ?_ ?_
    | with_reducible refine kemStartNow_keeps ?_
    | split

theorem execKemStart_keeps {σ : State} {s : State} (h_s : Keeps σ s) :
    ∃ τ, execKemStart s = .next τ ∧ Keeps σ τ := by
  refine ⟨_, rfl, ?_⟩
  repeat' first
    | with_reducible assumption
    | intro _
    | with_reducible refine mbxCommand_keeps ?_ ?_
    | with_reducible refine kemStart_keeps ?_

theorem installKeys_keeps {σ : State} {ss : Nat} {h : Nat} {e : Nat} {s : State} (h_s : Keeps σ s) :
    Keeps σ (installKeys ss h e s) := by
  unfold installKeys
  repeat' first
    | with_reducible assumption
    | intro _
    | extract_lets
    | with_reducible refine keeps_ite ?_ ?_
    | with_reducible refine raise_keeps ?_
    | with_reducible refine wr_keeps ?_
    | fail_if_no_progress with_reducible refine keeps_upd ?_ rfl rfl rfl rfl rfl rfl rfl rfl rfl rfl rfl rfl rfl rfl rfl rfl rfl rfl rfl rfl rfl
    | split

theorem kemFinish_keeps {σ : State} {s : State} (h_s : Keeps σ s) :
    Keeps σ (kemFinish s).2 := by
  unfold kemFinish
  repeat' first
    | with_reducible assumption
    | intro _
    | extract_lets
    | with_reducible refine keeps_ite ?_ ?_
    | with_reducible refine mbxFail_keeps ?_
    | with_reducible refine dropKem_keeps ?_
    | with_reducible refine mbxDone_keeps ?_
    | with_reducible refine mbxWrite_keeps ?_
    | with_reducible refine installKeys_keeps ?_
    | fail_if_no_progress with_reducible refine keeps_upd ?_ rfl rfl rfl rfl rfl rfl rfl rfl rfl rfl rfl rfl rfl rfl rfl rfl rfl rfl rfl rfl rfl
    | with_reducible refine keeps_snd_ite ?_ ?_
    | split
    | dsimp +zetaDelta only

theorem kemSwitch_keeps {σ : State} {s : State} (h_s : Keeps σ s) :
    Keeps σ (kemSwitch s) := by
  unfold kemSwitch
  repeat' first
    | with_reducible assumption
    | intro _
    | extract_lets
    | with_reducible refine keeps_ite ?_ ?_
    | with_reducible refine mbxFail_keeps ?_
    | with_reducible refine wr_keeps ?_
    | with_reducible refine pump_keeps ?_
    | with_reducible refine mbxDone_keeps ?_
    | fail_if_no_progress with_reducible refine keeps_upd ?_ rfl rfl rfl rfl rfl rfl rfl rfl rfl rfl rfl rfl rfl rfl rfl rfl rfl rfl rfl rfl rfl
    | split

theorem execKemSwitch_keeps {σ : State} {s : State} (h_s : Keeps σ s) :
    ∃ τ, execKemSwitch s = .next τ ∧ Keeps σ τ := by
  refine ⟨_, rfl, ?_⟩
  repeat' first
    | with_reducible assumption
    | intro _
    | with_reducible refine mbxCommand_keeps ?_ ?_
    | with_reducible refine kemSwitch_keeps ?_

theorem execKemKeyExpiry_keeps {σ : State} {s : State} (h_s : Keeps σ s) :
    ∃ τ, execKemKeyExpiry s = .next τ ∧ Keeps σ τ := by
  refine ⟨_, rfl, ?_⟩
  repeat' first
    | with_reducible assumption
    | intro _
    | with_reducible refine dropKem_keeps ?_

theorem identity_keeps {σ : State} {s : State} (h_s : Keeps σ s) :
    Keeps σ (identity s) := by
  unfold identity
  repeat' first
    | with_reducible assumption
    | intro _
    | with_reducible refine mbxDone_keeps ?_
    | with_reducible refine mbxWrite_keeps ?_

theorem execIdentity_keeps {σ : State} {s : State} (h_s : Keeps σ s) :
    ∃ τ, execIdentity s = .next τ ∧ Keeps σ τ := by
  refine ⟨_, rfl, ?_⟩
  repeat' first
    | with_reducible assumption
    | intro _
    | with_reducible refine mbxCommand_keeps ?_ ?_
    | with_reducible refine identity_keeps ?_

theorem svnCommit_keeps {σ : State} {s : State} (h_s : Keeps σ s) :
    Keeps σ (svnCommit s) := by
  unfold svnCommit
  refine keeps_ite (mbxFail_keeps h_s) ?_
  split
  · exact mbxFail_keeps h_s
  · rename_i h
    refine mbxDone_keeps (raise_keeps ⟨h_s.pending, h_s.free, h_s.fuses.trans ⟨?_, rfl⟩, fun w => { h_s.tables w with }, fun w => { h_s.memory w with }⟩)
    simp only [not_or, Nat.not_le] at h
    exact Nat.le_of_lt h.2.2

theorem execSvnCommit_keeps {σ : State} {s : State} (h_s : Keeps σ s) :
    ∃ τ, execSvnCommit s = .next τ ∧ Keeps σ τ := by
  refine ⟨_, rfl, ?_⟩
  repeat' first
    | with_reducible assumption
    | intro _
    | with_reducible refine mbxCommand_keeps ?_ ?_
    | with_reducible refine svnCommit_keeps ?_

theorem resumeSigning_keeps {σ : State} {s : State} (h_s : Keeps σ s) :
    Keeps σ (resumeSigning s) := by
  unfold resumeSigning
  repeat' first
    | with_reducible assumption
    | intro _
    | with_reducible refine attest_keeps ?_
    | with_reducible refine signing_keeps ?_ ?_
    | with_reducible refine attestNow_keeps ?_
    | with_reducible refine kemStart_keeps ?_
    | with_reducible refine kemStartNow_keeps ?_
    | fail_if_no_progress with_reducible refine keeps_upd ?_ rfl rfl rfl rfl rfl rfl rfl rfl rfl rfl rfl rfl rfl rfl rfl rfl rfl rfl rfl rfl rfl
    | split

theorem identityBuilt_keeps {σ : State} {s : State} (h_s : Keeps σ s) :
    Keeps σ (identityBuilt s) := by
  unfold identityBuilt
  repeat' first
    | with_reducible assumption
    | intro _
    | with_reducible refine keeps_ite ?_ ?_
    | with_reducible refine resumeSigning_keeps ?_
    | with_reducible refine wr_keeps ?_
    | with_reducible refine settleTrees_keeps ?_
    | split

theorem execIdentityBuilt_keeps {σ : State} {s : State} (h_s : Keeps σ s) :
    ∃ τ, execIdentityBuilt s = .next τ ∧ Keeps σ τ := by
  refine ⟨_, rfl, ?_⟩
  repeat' first
    | with_reducible assumption
    | intro _
    | with_reducible refine identityBuilt_keeps ?_

theorem lmsDurable_keeps {σ : State} {tree : Nat} {s : State} (h_s : Keeps σ s) :
    Keeps σ (lmsDurable tree s) := by
  unfold lmsDurable
  repeat' first
    | with_reducible assumption
    | intro _
    | extract_lets
    | with_reducible refine keeps_ite ?_ ?_
    | with_reducible refine openLower_keeps ?_
    | with_reducible refine resumeSigning_keeps ?_
    | with_reducible refine settleTrees_keeps ?_
    | fail_if_no_progress with_reducible refine keeps_upd ?_ rfl rfl rfl rfl rfl rfl rfl rfl rfl rfl rfl rfl rfl rfl rfl rfl rfl rfl rfl rfl rfl
    | split

theorem startIdentity_keeps {σ : State} {s : State} (h_s : Keeps σ s) :
    Keeps σ (startIdentity s) := by
  unfold startIdentity
  repeat' first
    | with_reducible assumption
    | intro _
    | extract_lets
    | with_reducible refine keeps_ite ?_ ?_
    | with_reducible refine settleTrees_keeps ?_
    | with_reducible refine warnTop_keeps ?_
    | with_reducible refine wr_keeps ?_
    | fail_if_no_progress with_reducible refine keeps_upd ?_ rfl rfl rfl rfl rfl rfl rfl rfl rfl rfl rfl rfl rfl rfl rfl rfl rfl rfl rfl rfl rfl
    | with_reducible refine foldl_keeps ?_ ?_
    | split

theorem zeroMemory_keeps {σ : State} {s : State} (h_s : Keeps σ s) :
    Keeps σ (zeroMemory s) := by
  unfold zeroMemory
  dsimp only
  refine keeps_memory h_s rfl rfl rfl (fun t => { t with cells := ?_ }) fun t => { t with cellMem := rfl, stackMem := ?_ }
  · dsimp only
    exact Table.wf_mapVals _ _ _ t.cells
  · dsimp only
    exact Table.wf_filter _ _ _ t.stackMem

theorem leavePair_keeps {σ : State} {s : State} (h_s : Keeps σ s) :
    Keeps σ (leavePair s) := by
  unfold leavePair
  repeat' first
    | with_reducible assumption
    | intro _
    | extract_lets
    | with_reducible refine keeps_ite ?_ ?_
    | with_reducible refine setPairSt_keeps ?_
    | with_reducible refine sendEveryPort_keeps ?_
    | with_reducible refine endSplit_keeps ?_
    | with_reducible refine leaveSplit_keeps ?_
    | with_reducible refine discardMirror_keeps ?_
    | with_reducible refine leavePrimary_keeps ?_
    | fail_if_no_progress with_reducible refine keeps_upd ?_ rfl rfl rfl rfl rfl rfl rfl rfl rfl rfl rfl rfl rfl rfl rfl rfl rfl rfl rfl rfl rfl
    | split

theorem forceFree_keeps {σ : State} {m : Nat} {s : State} (h_s : Keeps σ s) :
    Keeps σ (forceFree m s) := by
  unfold forceFree
  repeat' first
    | with_reducible assumption
    | intro _
    | extract_lets
    | with_reducible refine keeps_ite ?_ ?_
    | with_reducible refine forEach_keeps ?_ ?_
    | with_reducible refine abandonStep_keeps ?_
    | with_reducible refine endLoading_keeps ?_
    | with_reducible refine endReceive_keeps ?_
    | with_reducible refine abandonCheck_keeps ?_
    | with_reducible refine endRequest_keeps ?_
    | with_reducible refine putCmdDone_keeps ?_
    | with_reducible refine freeSlot_keeps ?_
    | split

theorem forceFreeAll_keeps {σ : State} {s : State} (h_s : Keeps σ s) :
    Keeps σ (forceFreeAll s) := by
  unfold forceFreeAll
  repeat' first
    | with_reducible assumption
    | intro _
    | extract_lets
    | with_reducible refine forEach_keeps ?_ ?_
    | with_reducible refine forceFree_keeps ?_
    | with_reducible refine putCmdDone_keeps ?_
    | fail_if_no_progress with_reducible refine keeps_upd ?_ rfl rfl rfl rfl rfl rfl rfl rfl rfl rfl rfl rfl rfl rfl rfl rfl rfl rfl rfl rfl rfl
    | split
    | dsimp +zetaDelta only

theorem zeroRecords_keeps {σ : State} {s : State} (h_s : Keeps σ s) :
    Keeps σ (zeroRecords s) := by
  unfold zeroRecords
  refine wr_keeps (dropKem_keeps ?_)
  exact keeps_memory h_s rfl rfl rfl (fun t => { t with seqs := rfl }) fun t => { t with mbx := rfl }

theorem zeroBegin_keeps {σ : State} {mgmt : Bool} {s : State} (h_s : Keeps σ s) :
    Keeps σ (zeroBegin mgmt s) := by
  unfold zeroBegin
  repeat' first
    | with_reducible assumption
    | intro _
    | with_reducible refine mbxWait_keeps ?_
    | with_reducible refine zeroise_keeps ?_
    | with_reducible refine wr_keeps ?_
    | with_reducible refine dropKem_keeps ?_

theorem zeroEnd_keeps {σ : State} {mgmt : Bool} {s : State} (h_s : Keeps σ s) :
    Keeps σ (zeroEnd mgmt s) := by
  unfold zeroEnd
  repeat' first
    | with_reducible assumption
    | intro _
    | extract_lets
    | with_reducible refine mbxDone_keeps ?_
    | with_reducible refine wr_keeps ?_
    | with_reducible refine when_keeps ?_ ?_
    | with_reducible refine pldm_keeps ?_

theorem zeroReady_keeps {σ : State} {mgmt : Bool} {s : State} (h_s : Keeps σ s) :
    Keeps σ (zeroReady mgmt s) := by
  unfold zeroReady
  repeat' first
    | with_reducible assumption
    | intro _
    | extract_lets
    | with_reducible refine wr_keeps ?_
    | with_reducible refine holdFw_keeps ?_
    | with_reducible refine zeroBegin_keeps ?_
    | with_reducible refine leavePair_keeps ?_
    | with_reducible refine tuneEvict_keeps ?_
    | with_reducible refine modJob_keeps ?_
    | with_reducible refine forceFreeAll_keeps ?_
    | with_reducible refine zeroRecords_keeps ?_
    | with_reducible refine zeroMemory_keeps ?_
    | fail_if_no_progress with_reducible refine keeps_upd ?_ rfl rfl rfl rfl rfl rfl rfl rfl rfl rfl rfl rfl rfl rfl rfl rfl rfl rfl rfl rfl rfl

theorem zeroise_keeps {σ : State} {mgmt : Bool} {s : State} (h_s : Keeps σ s) :
    Keeps σ (zeroise mgmt s) := by
  unfold zeroise
  repeat' first
    | with_reducible assumption
    | intro _
    | with_reducible refine keeps_ite ?_ ?_
    | with_reducible refine mbxFail_keeps ?_
    | with_reducible refine zeroReady_keeps ?_
    | with_reducible refine zeroMemory_keeps ?_
    | with_reducible refine zeroBegin_keeps ?_
    | with_reducible refine zeroEnd_keeps ?_
    | with_reducible refine dropKem_keeps ?_
    | fail_if_no_progress with_reducible refine keeps_upd ?_ rfl rfl rfl rfl rfl rfl rfl rfl rfl rfl rfl rfl rfl rfl rfl rfl rfl rfl rfl rfl rfl
    | split

theorem execZeroise_keeps {σ : State} {mgmt : Bool} {s : State} (h_s : Keeps σ s) :
    ∃ τ, execZeroise mgmt s = .next τ ∧ Keeps σ τ := by
  refine ⟨_, rfl, ?_⟩
  repeat' first
    | with_reducible assumption
    | intro _
    | with_reducible refine mbxCommand_keeps ?_ ?_
    | with_reducible refine zeroise_keeps ?_

theorem zeroiseDone_keeps {σ : State} {s : State} (h_s : Keeps σ s) :
    Keeps σ (zeroiseDone s) := by
  unfold zeroiseDone
  repeat' first
    | with_reducible assumption
    | intro _
    | extract_lets
    | with_reducible refine zeroise_keeps ?_
    | with_reducible refine releaseFw_keeps ?_
    | with_reducible refine raise_keeps ?_
    | with_reducible refine zeroEnd_keeps ?_
    | with_reducible refine when_keeps ?_ ?_
    | fail_if_no_progress with_reducible refine keeps_upd ?_ rfl rfl rfl rfl rfl rfl rfl rfl rfl rfl rfl rfl rfl rfl rfl rfl rfl rfl rfl rfl rfl
    | split
    | dsimp +zetaDelta only

theorem execZeroiseDone_keeps {σ : State} {s : State} (h_s : Keeps σ s) :
    ∃ τ, execZeroiseDone s = .next τ ∧ Keeps σ τ := by
  refine ⟨_, rfl, ?_⟩
  repeat' first
    | with_reducible assumption
    | intro _
    | with_reducible refine zeroiseDone_keeps ?_

end Sys2Proof.Machine
end

