-- ==== Sys2Proof/Laws/KeepBoot.lean ====
section
/-!
SUPPORT. What `Keeps` says, for every function of Machine/Boot.lean that changes the state.
-/
set_option Elab.async false
namespace Sys2Proof.Machine
open Sys2Proof

theorem setStartRec_keeps {σ : State} {n : Nat} {r : StartRecord} {s : State} (h_s : Keeps σ s) :
    Keeps σ (setStartRec n r s) := by
  unfold setStartRec
  repeat' first
    | with_reducible assumption
    | intro _
    | with_reducible refine keeps_ite ?_ ?_
    | fail_if_no_progress with_reducible refine keeps_upd ?_ rfl rfl rfl rfl rfl rfl rfl rfl rfl rfl rfl rfl rfl rfl rfl rfl rfl rfl rfl rfl rfl
    | split

theorem setImageSlot_keeps {σ : State} {n : Nat} {b : ImageSlot} {s : State} (h_s : Keeps σ s) :
    Keeps σ (setImageSlot n b s) := by
  unfold setImageSlot
  repeat' first
    | with_reducible assumption
    | intro _
    | with_reducible refine keeps_ite ?_ ?_
    | fail_if_no_progress with_reducible refine keeps_upd ?_ rfl rfl rfl rfl rfl rfl rfl rfl rfl rfl rfl rfl rfl rfl rfl rfl rfl rfl rfl rfl rfl
    | split

theorem minimal_keeps {σ : State} {s : State} (h_s : Keeps σ s) :
    Keeps σ (minimal s) := by
  unfold minimal
  repeat' first
    | with_reducible assumption
    | intro _
    | extract_lets
    | with_reducible refine keeps_ite ?_ ?_
    | with_reducible refine wr_keeps ?_
    | with_reducible refine holdFw_keeps ?_
    | with_reducible refine journalNow_keeps ?_
    | with_reducible refine pldm_keeps ?_
    | fail_if_no_progress with_reducible refine keeps_upd ?_ rfl rfl rfl rfl rfl rfl rfl rfl rfl rfl rfl rfl rfl rfl rfl rfl rfl rfl rfl rfl rfl
    | split

theorem setReason_keeps {σ : State} {code : Nat} {detail : Nat} {s : State} (h_s : Keeps σ s) :
    Keeps σ (setReason code detail s) := by
  unfold setReason
  repeat' first
    | with_reducible assumption
    | intro _
    | with_reducible refine wr_keeps ?_

theorem failStart_keeps {σ : State} {code : Nat} {detail : Nat} {s : State} (h_s : Keeps σ s) :
    Keeps σ (failStart code detail s) := by
  unfold failStart
  repeat' first
    | with_reducible assumption
    | intro _
    | extract_lets
    | with_reducible refine keeps_ite ?_ ?_
    | with_reducible refine raise_keeps ?_
    | with_reducible refine setReason_keeps ?_
    | with_reducible refine minimal_keeps ?_
    | with_reducible refine wholeReset_keeps ?_
    | with_reducible refine journalNow_keeps ?_
    | fail_if_no_progress with_reducible refine keeps_upd ?_ rfl rfl rfl rfl rfl rfl rfl rfl rfl rfl rfl rfl rfl rfl rfl rfl rfl rfl rfl rfl rfl
    | split

theorem readDevice_keeps {σ : State} {i : StartInput} {s : State} (h_s : Keeps σ s) :
    Keeps σ (readDevice i s) := by
  unfold readDevice
  repeat' first
    | with_reducible assumption
    | intro _
    | extract_lets
    | fail_if_no_progress with_reducible refine keeps_upd ?_ rfl rfl rfl rfl rfl rfl rfl rfl rfl rfl rfl rfl rfl rfl rfl rfl rfl rfl rfl rfl rfl

theorem scanJournal_keeps {σ : State} {n : Nat} {s : State} (h_s : Keeps σ s) :
    Keeps σ (scanJournal n s) := by
  unfold scanJournal
  repeat' first
    | with_reducible assumption
    | intro _
    | extract_lets
    | with_reducible refine keeps_ite ?_ ?_
    | with_reducible refine wr_keeps ?_
    | with_reducible refine setArea_keeps ?_
    | with_reducible refine showJournal_keeps ?_
    | fail_if_no_progress with_reducible refine keeps_upd ?_ rfl rfl rfl rfl rfl rfl rfl rfl rfl rfl rfl rfl rfl rfl rfl rfl rfl rfl rfl rfl rfl
    | split

theorem applyPhase_keeps {σ : State} {f : Nat} {p : Nat} {s : State} (h_s : Keeps σ s) :
    Keeps σ (applyPhase f p s) := by
  unfold applyPhase
  repeat' first
    | with_reducible assumption
    | intro _
    | with_reducible refine keeps_ite ?_ ?_
    | with_reducible refine wr_keeps ?_
    | fail_if_no_progress with_reducible refine keeps_upd ?_ rfl rfl rfl rfl rfl rfl rfl rfl rfl rfl rfl rfl rfl rfl rfl rfl rfl rfl rfl rfl rfl
    | split

theorem applySensor_keeps {σ : State} {f : Nat} {key : Nat} {set : Nat} {s : State} (h_s : Keeps σ s) :
    Keeps σ (applySensor f key set s) := by
  unfold applySensor
  repeat' first
    | with_reducible assumption
    | intro _
    | extract_lets
    | with_reducible refine keeps_ite ?_ ?_
    | with_reducible refine wr_keeps ?_
    | fail_if_no_progress with_reducible refine keeps_upd ?_ rfl rfl rfl rfl rfl rfl rfl rfl rfl rfl rfl rfl rfl rfl rfl rfl rfl rfl rfl rfl rfl
    | split

theorem applyRecord_keeps {σ : State} {r : JRecord} {s : State} (h_s : Keeps σ s) :
    Keeps σ (applyRecord r s) := by
  unfold applyRecord
  repeat' first
    | with_reducible assumption
    | intro _
    | with_reducible refine applyPhase_keeps ?_
    | with_reducible refine applySensor_keeps ?_
    | with_reducible refine wr_keeps ?_
    | fail_if_no_progress with_reducible refine keeps_upd ?_ rfl rfl rfl rfl rfl rfl rfl rfl rfl rfl rfl rfl rfl rfl rfl rfl rfl rfl rfl rfl rfl
    | split

theorem loadConfig_keeps {σ : State} {r : StartRecord} {s : State} (h_s : Keeps σ s) :
    Keeps σ (loadConfig r s) := by
  unfold loadConfig
  repeat' first
    | with_reducible assumption
    | intro _
    | extract_lets
    | with_reducible refine keeps_ite ?_ ?_
    | with_reducible refine wr_keeps ?_
    | split

theorem runBundle_keeps {σ : State} {r : StartRecord} {slot : Nat} {s : State} (h_s : Keeps σ s) :
    Keeps σ (runBundle r slot s) := by
  unfold runBundle
  repeat' first
    | with_reducible assumption
    | intro _
    | extract_lets
    | with_reducible refine wr_keeps ?_
    | with_reducible refine wrB_keeps ?_
    | with_reducible refine setCnt_keeps ?_
    | with_reducible refine startIdentity_keeps ?_
    | with_reducible refine when_keeps ?_ ?_
    | with_reducible refine raise_keeps ?_
    | fail_if_no_progress with_reducible refine keeps_upd ?_ rfl rfl rfl rfl rfl rfl rfl rfl rfl rfl rfl rfl rfl rfl rfl rfl rfl rfl rfl rfl rfl

theorem minimalAtStart_keeps {σ : State} {r : StartRecord} {s : State} (h_s : Keeps σ s) :
    Keeps σ (minimalAtStart r s) := by
  unfold minimalAtStart
  repeat' first
    | with_reducible assumption
    | intro _
    | extract_lets
    | with_reducible refine setReason_keeps ?_
    | with_reducible refine minimal_keeps ?_
    | with_reducible refine runBundle_keeps ?_
    | fail_if_no_progress with_reducible refine keeps_upd ?_ rfl rfl rfl rfl rfl rfl rfl rfl rfl rfl rfl rfl rfl rfl rfl rfl rfl rfl rfl rfl rfl
    | split
    | dsimp +zetaDelta only

theorem noteTrip_keeps {σ : State} {s : State} (h_s : Keeps σ s) :
    Keeps σ (noteTrip s) := by
  unfold noteTrip
  repeat' first
    | with_reducible assumption
    | intro _
    | with_reducible refine keeps_ite ?_ ?_
    | with_reducible refine journal_keeps ?_
    | with_reducible refine raise_keeps ?_
    | split

theorem beginRun_keeps {σ : State} {i : StartInput} {r : StartRecord} {s : State} (h_s : Keeps σ s) :
    Keeps σ (beginRun i r s).2 := by
  unfold beginRun
  repeat' first
    | with_reducible assumption
    | intro _
    | extract_lets
    | with_reducible refine wr_keeps ?_
    | with_reducible refine journalNow_keeps ?_
    | with_reducible refine failStart_keeps ?_
    | with_reducible refine wrB_keeps ?_
    | with_reducible refine when_keeps ?_ ?_
    | with_reducible refine raise_keeps ?_
    | with_reducible refine runBundle_keeps ?_
    | with_reducible refine loadConfig_keeps ?_
    | with_reducible refine noteTrip_keeps ?_
    | with_reducible refine forEach_keeps ?_ ?_
    | with_reducible refine applyRecord_keeps ?_
    | fail_if_no_progress with_reducible refine keeps_upd ?_ rfl rfl rfl rfl rfl rfl rfl rfl rfl rfl rfl rfl rfl rfl rfl rfl rfl rfl rfl rfl rfl
    | with_reducible refine keeps_snd_ite ?_ ?_
    | split
    | dsimp +zetaDelta only

theorem startSteps12_keeps {σ : State} {i : StartInput} {s0 : State} (h_s0 : Keeps σ s0) :
    Keeps σ (startSteps12 i s0).2 := by
  unfold startSteps12
  repeat' first
    | with_reducible assumption
    | intro _
    | extract_lets
    | with_reducible refine keeps_ite ?_ ?_
    | with_reducible refine wr_keeps ?_
    | with_reducible refine atTime_keeps ?_
    | with_reducible refine failStart_keeps ?_
    | with_reducible refine readDevice_keeps ?_
    | with_reducible refine scanJournal_keeps ?_
    | with_reducible refine minimalAtStart_keeps ?_
    | with_reducible refine beginRun_keeps ?_
    | fail_if_no_progress with_reducible refine keeps_upd ?_ rfl rfl rfl rfl rfl rfl rfl rfl rfl rfl rfl rfl rfl rfl rfl rfl rfl rfl rfl rfl rfl
    | with_reducible refine keeps_snd_ite ?_ ?_
    | split
    | dsimp +zetaDelta only

theorem joinDefects_keeps {σ : State} {l : List (Nat × Bool)} {s : State} (h_s : Keeps σ s) :
    Keeps σ (joinDefects l s) := by
  unfold joinDefects
  repeat' first
    | with_reducible assumption
    | intro _
    | with_reducible refine keeps_ite ?_ ?_
    | with_reducible refine forEach_keeps ?_ ?_
    | with_reducible refine addDefect_keeps ?_
    | split

theorem writeSpareMaps_keeps {σ : State} {s : State} (h_s : Keeps σ s) :
    Keeps σ (writeSpareMaps s) := by
  unfold writeSpareMaps
  repeat' first
    | with_reducible assumption
    | intro _
    | with_reducible refine forEach_keeps ?_ ?_
    | with_reducible refine setRow_keeps ?_

theorem noteDiscrep_keeps {σ : State} {fuse : List Nat} {jrnl : List Nat} {s : State} (h_s : Keeps σ s) :
    Keeps σ (noteDiscrep fuse jrnl s) := by
  unfold noteDiscrep
  repeat' first
    | with_reducible assumption
    | intro _
    | extract_lets
    | with_reducible refine forEach_keeps ?_ ?_
    | with_reducible refine journalNow_keeps ?_
    | with_reducible refine wr_keeps ?_
    | with_reducible refine when_keeps ?_ ?_
    | with_reducible refine raise_keeps ?_

theorem defectUnion_keeps {σ : State} {i : StartInput} {s : State} (h_s : Keeps σ s) :
    Keeps σ (defectUnion i s) := by
  unfold defectUnion
  repeat' first
    | with_reducible assumption
    | intro _
    | extract_lets
    | with_reducible refine joinDefects_keeps ?_
    | with_reducible refine forEach_keeps ?_ ?_
    | with_reducible refine journalNow_keeps ?_
    | with_reducible refine noteDiscrep_keeps ?_
    | with_reducible refine writeSpareMaps_keeps ?_
    | with_reducible refine wr_keeps ?_

theorem cultureStep_keeps {σ : State} {i : StartInput} {s : State} (h_s : Keeps σ s) :
    Keeps σ (cultureStep i s) := by
  unfold cultureStep
  dsimp only
  exact cellMem_keeps (writeSpareMaps_keeps (wr_keeps (forEach_keeps (fun _ _ h => journalNow_keeps h) (joinDefects_keeps h_s)))) fun _ => rfl

theorem patrolBegins_keeps {σ : State} {n : Nat} {s : State} (h_s : Keeps σ s) :
    Keeps σ (patrolBegins n s) := by
  unfold patrolBegins
  repeat' first
    | with_reducible assumption
    | intro _
    | fail_if_no_progress with_reducible refine keeps_upd ?_ rfl rfl rfl rfl rfl rfl rfl rfl rfl rfl rfl rfl rfl rfl rfl rfl rfl rfl rfl rfl rfl

theorem settingsSet_keeps {σ e : State} {n v : Nat} (h : Keeps σ e) :
    Keeps σ { e with kv := { e.kv with settings := Table.set (fun _ => 0) e.kv.settings n v } } :=
  keeps_tables h rfl rfl rfl rfl rfl rfl fun t => { t with settings := Table.wf_set _ _ _ _ t.settings }

theorem stackActive_keeps {σ : State} {n : Nat} {rate : Nat} {settings : Nat} {s : State} (h_s : Keeps σ s) :
    Keeps σ (stackActive n rate settings s) := by
  unfold stackActive
  repeat' first
    | with_reducible refine patrolBegins_keeps ?_
    | with_reducible refine wr_keeps ?_
    | with_reducible refine settingsSet_keeps ?_
    | with_reducible assumption

theorem trainStack_keeps {σ : State} {n : Nat} {x : StackTrain} {s : State} (h_s : Keeps σ s) :
    Keeps σ (trainStack n x s) := by
  unfold trainStack
  repeat' first
    | with_reducible assumption
    | intro _
    | with_reducible refine keeps_ite ?_ ?_
    | with_reducible refine journalNow_keeps ?_
    | with_reducible refine stackActive_keeps ?_
    | with_reducible refine raise_keeps ?_
    | with_reducible refine wr_keeps ?_
    | split

theorem bringUp_keeps {σ : State} {fast : Bool} {l : List JRecord} {hbm : List StackTrain} {n : Nat} {s : State} (h_s : Keeps σ s) :
    Keeps σ (bringUp fast l hbm n s) := by
  unfold bringUp
  repeat' first
    | with_reducible assumption
    | intro _
    | extract_lets
    | with_reducible refine keeps_ite ?_ ?_
    | with_reducible refine stackActive_keeps ?_
    | with_reducible refine trainStack_keeps ?_
    | with_reducible refine raise_keeps ?_
    | fail_if_no_progress with_reducible refine keeps_upd ?_ rfl rfl rfl rfl rfl rfl rfl rfl rfl rfl rfl rfl rfl rfl rfl rfl rfl rfl rfl rfl rfl
    | split
    | dsimp +zetaDelta only

theorem stackStep_keeps {σ : State} {i : StartInput} {s : State} (h_s : Keeps σ s) :
    Keeps σ (stackStep i s) := by
  unfold stackStep
  dsimp only
  exact stackMem_keeps (forEach_keeps (fun _ _ h => bringUp_keeps h) h_s) fun _ => rfl

theorem rewriteStartRecord_keeps {σ : State} {r : StartRecord} {s : State} (h_s : Keeps σ s) :
    Keeps σ (rewriteStartRecord r s) := by
  unfold rewriteStartRecord
  repeat' first
    | with_reducible assumption
    | intro _
    | extract_lets
    | with_reducible refine keeps_ite ?_ ?_
    | with_reducible refine setStartRec_keeps ?_
    | fail_if_no_progress with_reducible refine keeps_upd ?_ rfl rfl rfl rfl rfl rfl rfl rfl rfl rfl rfl rfl rfl rfl rfl rfl rfl rfl rfl rfl rfl
    | split

theorem declareReady_keeps {σ : State} {i : StartInput} {r : StartRecord} {s : State} (h_s : Keeps σ s) :
    Keeps σ (declareReady i r s) := by
  unfold declareReady
  repeat' first
    | with_reducible assumption
    | intro _
    | extract_lets
    | with_reducible refine journalNow_keeps ?_
    | with_reducible refine rewriteStartRecord_keeps ?_
    | with_reducible refine wr_keeps ?_
    | with_reducible refine pldm_keeps ?_
    | with_reducible refine raise_keeps ?_
    | with_reducible refine when_keeps ?_ ?_
    | with_reducible refine warn_keeps ?_
    | fail_if_no_progress with_reducible refine keeps_upd ?_ rfl rfl rfl rfl rfl rfl rfl rfl rfl rfl rfl rfl rfl rfl rfl rfl rfl rfl rfl rfl rfl

theorem readyStep_keeps {σ : State} {i : StartInput} {s0 : State} (h_s0 : Keeps σ s0) :
    Keeps σ (readyStep i s0) := by
  unfold readyStep
  repeat' first
    | with_reducible assumption
    | intro _
    | extract_lets
    | with_reducible refine keeps_ite ?_ ?_
    | with_reducible refine wr_keeps ?_
    | with_reducible refine failStart_keeps ?_
    | with_reducible refine declareReady_keeps ?_
    | fail_if_no_progress with_reducible refine keeps_upd ?_ rfl rfl rfl rfl rfl rfl rfl rfl rfl rfl rfl rfl rfl rfl rfl rfl rfl rfl rfl rfl rfl
    | split
    | dsimp +zetaDelta only

theorem noteResult_keeps {σ : State} {x : Nat × Nat} {s : State} (h_s : Keeps σ s) :
    Keeps σ (noteResult x s) := by
  unfold noteResult
  repeat' first
    | with_reducible assumption
    | intro _
    | extract_lets
    | with_reducible refine keeps_ite ?_ ?_
    | with_reducible refine journal_keeps ?_
    | split

theorem startSteps4_keeps {σ : State} {i : StartInput} {s0 : State} (h_s0 : Keeps σ s0) :
    Keeps σ (startSteps4 i s0) := by
  unfold startSteps4
  repeat' first
    | with_reducible assumption
    | intro _
    | extract_lets
    | with_reducible refine keeps_ite ?_ ?_
    | with_reducible refine wr_keeps ?_
    | with_reducible refine failStart_keeps ?_
    | with_reducible refine forEach_keeps ?_ ?_
    | with_reducible refine noteResult_keeps ?_
    | with_reducible refine defectUnion_keeps ?_
    | with_reducible refine readyStep_keeps ?_
    | with_reducible refine stackStep_keeps ?_
    | with_reducible refine cultureStep_keeps ?_
    | fail_if_no_progress with_reducible refine keeps_upd ?_ rfl rfl rfl rfl rfl rfl rfl rfl rfl rfl rfl rfl rfl rfl rfl rfl rfl rfl rfl rfl rfl
    | split

theorem startStep3_keeps {σ : State} {i : StartInput} {s0 : State} (h_s0 : Keeps σ s0) :
    Keeps σ (startStep3 i s0) := by
  unfold startStep3
  repeat' first
    | with_reducible assumption
    | intro _
    | extract_lets
    | with_reducible refine keeps_ite ?_ ?_
    | with_reducible refine wr_keeps ?_
    | with_reducible refine failStart_keeps ?_
    | with_reducible refine startSteps4_keeps ?_
    | fail_if_no_progress with_reducible refine keeps_upd ?_ rfl rfl rfl rfl rfl rfl rfl rfl rfl rfl rfl rfl rfl rfl rfl rfl rfl rfl rfl rfl rfl
    | split

theorem start_keeps {σ : State} {i : StartInput} {s : State} (h_s : Keeps σ s) :
    Keeps σ (start i s) := by
  unfold start
  repeat' first
    | with_reducible assumption
    | intro _
    | extract_lets
    | with_reducible refine keeps_ite ?_ ?_
    | with_reducible refine startSteps12_keeps ?_
    | with_reducible refine startStep3_keeps ?_
    | split

theorem execStart_keeps {σ : State} {input : StartInput} {s : State} (h_s : Keeps σ s) :
    ∃ τ, execStart input s = .next τ ∧ Keeps σ τ := by
  refine ⟨_, rfl, ?_⟩
  repeat' first
    | with_reducible assumption
    | intro _
    | with_reducible refine start_keeps ?_

theorem coolOkRow_keeps {σ : State} {level : Bool} {heldUs : Nat} {t : Nat} {s : State} (h_s : Keeps σ s) :
    Keeps σ (coolOkRow level heldUs t s) := by
  unfold coolOkRow
  repeat' first
    | with_reducible assumption
    | intro _
    | extract_lets
    | with_reducible refine coolOk_keeps ?_
    | with_reducible refine startSteps4_keeps ?_
    | fail_if_no_progress with_reducible refine keeps_upd ?_ rfl rfl rfl rfl rfl rfl rfl rfl rfl rfl rfl rfl rfl rfl rfl rfl rfl rfl rfl rfl rfl
    | split
    | dsimp +zetaDelta only

theorem execCoolOk_keeps {σ : State} {level : Bool} {heldUs : Nat} {t : Nat} {s : State} (h_s : Keeps σ s) :
    ∃ τ, execCoolOk level heldUs t s = .next τ ∧ Keeps σ τ := by
  refine ⟨_, rfl, ?_⟩
  repeat' first
    | with_reducible assumption
    | intro _
    | with_reducible refine coolOkRow_keeps ?_

theorem failWaiting_keeps {σ : State} {code : Nat} {s : State} (h_s : Keeps σ s) :
    Keeps σ (failWaiting code s) := by
  unfold failWaiting
  repeat' first
    | with_reducible assumption
    | intro _
    | with_reducible refine failStart_keeps ?_
    | fail_if_no_progress with_reducible refine keeps_upd ?_ rfl rfl rfl rfl rfl rfl rfl rfl rfl rfl rfl rfl rfl rfl rfl rfl rfl rfl rfl rfl rfl
    | split

theorem execCoolOkTimeout_keeps {σ : State} {s : State} (h_s : Keeps σ s) :
    ∃ τ, execCoolOkTimeout s = .next τ ∧ Keeps σ τ := by
  refine ⟨_, rfl, ?_⟩
  repeat' first
    | with_reducible assumption
    | intro _
    | with_reducible refine failWaiting_keeps ?_

theorem execStartTimeout_keeps {σ : State} {s : State} (h_s : Keeps σ s) :
    ∃ τ, execStartTimeout s = .next τ ∧ Keeps σ τ := by
  refine ⟨_, rfl, ?_⟩
  repeat' first
    | with_reducible assumption
    | intro _
    | with_reducible refine failWaiting_keeps ?_

theorem clearFails_keeps {σ : State} {s : State} (h_s : Keeps σ s) :
    Keeps σ (clearFails s) := by
  unfold clearFails
  repeat' first
    | with_reducible assumption
    | intro _
    | with_reducible refine keeps_ite ?_ ?_
    | with_reducible refine journal_keeps ?_
    | with_reducible refine wr_keeps ?_
    | fail_if_no_progress with_reducible refine keeps_upd ?_ rfl rfl rfl rfl rfl rfl rfl rfl rfl rfl rfl rfl rfl rfl rfl rfl rfl rfl rfl rfl rfl
    | split

theorem execClr_keeps {σ : State} {s : State} (h_s : Keeps σ s) :
    ∃ τ, execClr s = .next τ ∧ Keeps σ τ := by
  refine ⟨_, rfl, ?_⟩
  repeat' first
    | with_reducible assumption
    | intro _
    | with_reducible refine clearFails_keeps ?_

theorem restart_keeps {σ : State} {s : State} (h_s : Keeps σ s) :
    Keeps σ (restart s) := by
  unfold restart
  repeat' first
    | with_reducible assumption
    | intro _
    | with_reducible refine keeps_ite ?_ ?_
    | with_reducible refine wholeReset_keeps ?_
    | with_reducible refine writeWaiting_keeps ?_
    | split

theorem execRestart_keeps {σ : State} {s : State} (h_s : Keeps σ s) :
    ∃ τ, execRestart s = .next τ ∧ Keeps σ τ := by
  refine ⟨_, rfl, ?_⟩
  repeat' first
    | with_reducible assumption
    | intro _
    | with_reducible refine restart_keeps ?_

theorem stageBegin_keeps {σ : State} {target : Nat} {s : State} (h_s : Keeps σ s) :
    Keeps σ (stageBegin target s) := by
  unfold stageBegin
  repeat' first
    | with_reducible assumption
    | intro _
    | extract_lets
    | with_reducible refine keeps_ite ?_ ?_
    | with_reducible refine setReg_keeps ?_
    | with_reducible refine wr_keeps ?_
    | with_reducible refine startFetch_keeps ?_
    | fail_if_no_progress with_reducible refine keeps_upd ?_ rfl rfl rfl rfl rfl rfl rfl rfl rfl rfl rfl rfl rfl rfl rfl rfl rfl rfl rfl rfl rfl
    | split

theorem stageGo_keeps {σ : State} {target : Nat} {s : State} (h_s : Keeps σ s) :
    Keeps σ (stageGo target s) := by
  unfold stageGo
  repeat' first
    | with_reducible assumption
    | intro _
    | with_reducible refine keeps_ite ?_ ?_
    | with_reducible refine wr_keeps ?_
    | with_reducible refine stageBegin_keeps ?_
    | split

theorem stageImage_keeps {σ : State} {b : ImageSlot} {s : State} (h_s : Keeps σ s) :
    Keeps σ (stageImage b s) := by
  unfold stageImage
  repeat' first
    | with_reducible assumption
    | intro _
    | extract_lets
    | with_reducible refine keeps_ite ?_ ?_
    | with_reducible refine stageGo_keeps ?_
    | with_reducible refine stageBegin_keeps ?_
    | fail_if_no_progress with_reducible refine keeps_upd ?_ rfl rfl rfl rfl rfl rfl rfl rfl rfl rfl rfl rfl rfl rfl rfl rfl rfl rfl rfl rfl rfl
    | split

theorem stageCtrl_keeps {σ : State} {v : Word} {s : State} (h_s : Keeps σ s) :
    Keeps σ (stageCtrl v s) := by
  unfold stageCtrl
  repeat' first
    | with_reducible assumption
    | intro _
    | extract_lets
    | with_reducible refine keeps_ite ?_ ?_
    | with_reducible refine wr_keeps ?_
    | with_reducible refine stageBegin_keeps ?_
    | split

theorem execStageImage_keeps {σ : State} {bundle : ImageSlot} {s : State} (h_s : Keeps σ s) :
    ∃ τ, execStageImage bundle s = .next τ ∧ Keeps σ τ := by
  refine ⟨_, rfl, ?_⟩
  repeat' first
    | with_reducible assumption
    | intro _
    | with_reducible refine stageImage_keeps ?_

theorem execStageStartRecord_keeps {σ : State} {v : Word} {s : State} (h_s : Keeps σ s) :
    ∃ τ, execStageStartRecord v s = .next τ ∧ Keeps σ τ := by
  refine ⟨_, rfl, ?_⟩
  unfold when
  repeat' first
    | with_reducible assumption
    | intro _
    | with_reducible refine keeps_ite ?_ ?_
    | with_reducible refine stageGo_keeps ?_

theorem execStageJournalDump_keeps {σ : State} {s : State} (h_s : Keeps σ s) :
    ∃ τ, execStageJournalDump s = .next τ ∧ Keeps σ τ := by
  refine ⟨_, rfl, ?_⟩
  repeat' first
    | with_reducible assumption
    | intro _
    | with_reducible refine stageGo_keeps ?_

theorem stageRead_keeps {σ : State} {bs : List Byte} {s : State} (h_s : Keeps σ s) :
    Keeps σ (stageRead bs s) := by
  unfold stageRead
  repeat' first
    | with_reducible assumption
    | intro _
    | fail_if_no_progress with_reducible refine keeps_upd ?_ rfl rfl rfl rfl rfl rfl rfl rfl rfl rfl rfl rfl rfl rfl rfl rfl rfl rfl rfl rfl rfl

theorem stageFailed_keeps {σ : State} {s : State} (h_s : Keeps σ s) :
    Keeps σ (stageFailed s) := by
  unfold stageFailed
  repeat' first
    | with_reducible assumption
    | intro _
    | fail_if_no_progress with_reducible refine keeps_upd ?_ rfl rfl rfl rfl rfl rfl rfl rfl rfl rfl rfl rfl rfl rfl rfl rfl rfl rfl rfl rfl rfl

theorem stagePut_keeps {σ : State} {x : Staged} {bs : List Byte} {s : State} (h_s : Keeps σ s) :
    Keeps σ (stagePut x bs s) := by
  unfold stagePut
  repeat' first
    | with_reducible assumption
    | intro _
    | extract_lets
    | with_reducible refine setImageSlot_keeps ?_
    | with_reducible refine setStartRec_keeps ?_
    | with_reducible refine writeLines_keeps ?_
    | fail_if_no_progress with_reducible refine keeps_upd ?_ rfl rfl rfl rfl rfl rfl rfl rfl rfl rfl rfl rfl rfl rfl rfl rfl rfl rfl rfl rfl rfl
    | split
    | dsimp +zetaDelta only

theorem stageDone_keeps {σ : State} {error : Nat} {s : State} (h_s : Keeps σ s) :
    Keeps σ (stageDone error s) := by
  unfold stageDone
  repeat' first
    | with_reducible assumption
    | intro _
    | extract_lets
    | with_reducible refine keeps_ite ?_ ?_
    | with_reducible refine stagePut_keeps ?_
    | with_reducible refine raise_keeps ?_
    | with_reducible refine setReg_keeps ?_
    | fail_if_no_progress with_reducible refine keeps_upd ?_ rfl rfl rfl rfl rfl rfl rfl rfl rfl rfl rfl rfl rfl rfl rfl rfl rfl rfl rfl rfl rfl
    | split
    | dsimp +zetaDelta only

theorem execStageDone_keeps {σ : State} {error : Nat} {s : State} (h_s : Keeps σ s) :
    ∃ τ, execStageDone error s = .next τ ∧ Keeps σ τ := by
  refine ⟨_, rfl, ?_⟩
  repeat' first
    | with_reducible assumption
    | intro _
    | with_reducible refine stageDone_keeps ?_

theorem writeShutdown_keeps {σ : State} {ok : Bool} {ran : Bool} {s : State} (h_s : Keeps σ s) :
    Keeps σ (writeShutdown ok ran s) := by
  unfold writeShutdown
  repeat' first
    | with_reducible assumption
    | intro _
    | with_reducible refine journal_keeps ?_
    | with_reducible refine shutdown_keeps ?_
    | fail_if_no_progress with_reducible refine keeps_upd ?_ rfl rfl rfl rfl rfl rfl rfl rfl rfl rfl rfl rfl rfl rfl rfl rfl rfl rfl rfl rfl rfl

theorem shutdownGoOn_keeps {σ : State} {s : State} (h_s : Keeps σ s) :
    Keeps σ (shutdownGoOn s) := by
  unfold shutdownGoOn
  repeat' first
    | with_reducible assumption
    | intro _
    | extract_lets
    | with_reducible refine keeps_ite ?_ ?_
    | with_reducible refine shutdown_keeps ?_
    | with_reducible refine zeroMemory_keeps ?_
    | with_reducible refine holdFw_keeps ?_
    | with_reducible refine zeroise_keeps ?_
    | with_reducible refine zeroEnd_keeps ?_
    | with_reducible refine writeShutdown_keeps ?_
    | with_reducible refine wr_keeps ?_
    | fail_if_no_progress with_reducible refine keeps_upd ?_ rfl rfl rfl rfl rfl rfl rfl rfl rfl rfl rfl rfl rfl rfl rfl rfl rfl rfl rfl rfl rfl
    | split
    | dsimp +zetaDelta only

theorem shutdown_keeps {σ : State} {v : Word} {s0 : State} (h_s0 : Keeps σ s0) :
    Keeps σ (shutdown v s0) := by
  unfold shutdown
  repeat' first
    | with_reducible assumption
    | intro _
    | extract_lets
    | with_reducible refine keeps_ite ?_ ?_
    | with_reducible refine wr_keeps ?_
    | with_reducible refine raise_keeps ?_
    | with_reducible refine when_keeps ?_ ?_
    | with_reducible refine leavePair_keeps ?_
    | with_reducible refine forEach_keeps ?_ ?_
    | with_reducible refine abandonStep_keeps ?_
    | with_reducible refine shutdownGoOn_keeps ?_
    | with_reducible refine beginClose_keeps ?_
    | fail_if_no_progress with_reducible refine keeps_upd ?_ rfl rfl rfl rfl rfl rfl rfl rfl rfl rfl rfl rfl rfl rfl rfl rfl rfl rfl rfl rfl rfl
    | split

theorem execShutdown_keeps {σ : State} {value : Word} {s : State} (h_s : Keeps σ s) :
    ∃ τ, execShutdown value s = .next τ ∧ Keeps σ τ := by
  refine ⟨_, rfl, ?_⟩
  repeat' first
    | with_reducible assumption
    | intro _
    | with_reducible refine shutdown_keeps ?_

theorem execCloseComplete_keeps {σ : State} {m : Nat} {s : State} (h_s : Keeps σ s) :
    ∃ τ, execCloseComplete m s = .next τ ∧ Keeps σ τ := by
  refine ⟨_, rfl, ?_⟩
  repeat' first
    | with_reducible assumption
    | intro _
    | with_reducible refine shutdownGoOn_keeps ?_
    | with_reducible refine closeComplete_keeps ?_

theorem clearMarks_keeps {σ : State} {l : List (Nat × Nat)} {s : State} (h_s : Keeps σ s) :
    Keeps σ (clearMarks l s) := by
  unfold clearMarks
  repeat' first
    | with_reducible assumption
    | intro _
    | with_reducible refine forEach_keeps ?_ ?_
    | with_reducible refine journal_keeps ?_
    | with_reducible refine applySensor_keeps ?_

theorem journalBist_keeps {σ : State} {x0 : Nat} {x1 : List (Nat × Nat)} {x2 : State} (h_x2 : Keeps σ x2) :
    Keeps σ (journalBist x0 x1 x2) := by
  induction x0 generalizing x1 x2 with
  | zero => (unfold journalBist; repeat' first
      | with_reducible assumption
      | intro _
      | extract_lets
      | with_reducible refine keeps_ite ?_ ?_
      | with_reducible refine journal_keeps ?_
      | split)
  | succ _ ih => (unfold journalBist; repeat' first
      | with_reducible assumption
      | with_reducible apply ih
      | (injections; subst_vars; with_reducible apply ih)
      | intro _
      | extract_lets
      | with_reducible refine keeps_ite ?_ ?_
      | with_reducible refine journal_keeps ?_
      | split)

theorem endBist_keeps {σ : State} {s : State} (h_s : Keeps σ s) :
    Keeps σ (endBist s) := by
  unfold endBist
  repeat' first
    | with_reducible assumption
    | intro _
    | extract_lets
    | with_reducible refine clearMarks_keeps ?_
    | with_reducible refine journalBist_keeps ?_
    | with_reducible refine writeShutdown_keeps ?_
    | with_reducible refine when_keeps ?_ ?_
    | with_reducible refine raise_keeps ?_

theorem bistWave_keeps {σ : State} {wave : Nat} {results : List (Nat × Nat)} {s : State} (h_s : Keeps σ s) :
    Keeps σ (bistWave wave results s) := by
  unfold bistWave
  repeat' first
    | with_reducible assumption
    | intro _
    | extract_lets
    | with_reducible refine keeps_ite ?_ ?_
    | with_reducible refine forEach_keeps ?_ ?_
    | with_reducible refine noteResult_keeps ?_
    | with_reducible refine wr_keeps ?_
    | with_reducible refine endBist_keeps ?_
    | fail_if_no_progress with_reducible refine keeps_upd ?_ rfl rfl rfl rfl rfl rfl rfl rfl rfl rfl rfl rfl rfl rfl rfl rfl rfl rfl rfl rfl rfl
    | split

theorem execBistWave_keeps {σ : State} {wave : Nat} {results : List (Nat × Nat)} {s : State} (h_s : Keeps σ s) :
    ∃ τ, execBistWave wave results s = .next τ ∧ Keeps σ τ := by
  refine ⟨_, rfl, ?_⟩
  repeat' first
    | with_reducible assumption
    | intro _
    | with_reducible refine bistWave_keeps ?_

theorem halt_keeps {σ : State} {s : State} (h_s : Keeps σ s) :
    Keeps σ (halt s) := by
  unfold halt
  repeat' first
    | with_reducible assumption
    | intro _
    | extract_lets
    | with_reducible refine wr_keeps ?_
    | with_reducible refine shutdown_keeps ?_
    | with_reducible refine when_keeps ?_ ?_
    | with_reducible refine assertPwrOff_keeps ?_
    | fail_if_no_progress with_reducible refine keeps_upd ?_ rfl rfl rfl rfl rfl rfl rfl rfl rfl rfl rfl rfl rfl rfl rfl rfl rfl rfl rfl rfl rfl

theorem afterDurable_keeps {σ : State} {d : Durable} {s : State} (h_s : Keeps σ s) :
    Keeps σ (afterDurable d s) := by
  unfold afterDurable
  repeat' first
    | with_reducible assumption
    | intro _
    | with_reducible refine keeps_ite ?_ ?_
    | with_reducible refine epochDurable_keeps ?_
    | with_reducible refine assertPwrOff_keeps ?_
    | with_reducible refine shutdown_keeps ?_
    | with_reducible refine halt_keeps ?_
    | with_reducible refine lmsDurable_keeps ?_
    | fail_if_no_progress with_reducible refine keeps_upd ?_ rfl rfl rfl rfl rfl rfl rfl rfl rfl rfl rfl rfl rfl rfl rfl rfl rfl rfl rfl rfl rfl
    | split

theorem journalWrite_keeps {σ : State} {ok : Bool} {s : State} (h_s : Keeps σ s) :
    Keeps σ (journalWrite ok s) := by
  unfold journalWrite
  repeat' first
    | with_reducible assumption
    | intro _
    | extract_lets
    | with_reducible refine keeps_ite ?_ ?_
    | with_reducible refine journalStep_keeps ?_
    | with_reducible refine afterDurable_keeps ?_
    | with_reducible refine resumeSigning_keeps ?_
    | fail_if_no_progress with_reducible refine keeps_upd ?_ rfl rfl rfl rfl rfl rfl rfl rfl rfl rfl rfl rfl rfl rfl rfl rfl rfl rfl rfl rfl rfl
    | split
    | dsimp +zetaDelta only

theorem execJournalWrite_keeps {σ : State} {ok : Bool} {s : State} (h_s : Keeps σ s) :
    ∃ τ, execJournalWrite ok s = .next τ ∧ Keeps σ τ := by
  refine ⟨_, rfl, ?_⟩
  repeat' first
    | with_reducible assumption
    | intro _
    | with_reducible refine journalWrite_keeps ?_

end Sys2Proof.Machine
end

