-- ==== Sys2Proof/Laws/KeepCellWin.lean ====
section
/-!
SUPPORT. What `Keeps` says, for every function of Machine/CellWin.lean that changes the state.
-/
set_option Elab.async false
namespace Sys2Proof.Machine
open Sys2Proof

theorem sendCfg_keeps {σ : State} {a : CfgAccess} {s : State} (h_s : Keeps σ s) :
    Keeps σ (sendCfg a s) := by
  unfold sendCfg
  repeat' first
    | with_reducible assumption
    | intro _
    | with_reducible refine keeps_ite ?_ ?_
    | with_reducible refine passRoute0_keeps ?_
    | with_reducible refine wr_keeps ?_
    | fail_if_no_progress with_reducible refine keeps_upd ?_ rfl rfl rfl rfl rfl rfl rfl rfl rfl rfl rfl rfl rfl rfl rfl rfl rfl rfl rfl rfl rfl
    | split

theorem cellWinFail_keeps {σ : State} {code : Nat} {s : State} (h_s : Keeps σ s) :
    Keeps σ (cellWinFail code s) := by
  unfold cellWinFail
  repeat' first
    | with_reducible assumption
    | intro _
    | with_reducible refine raise_keeps ?_
    | with_reducible refine wr_keeps ?_
    | fail_if_no_progress with_reducible refine keeps_upd ?_ rfl rfl rfl rfl rfl rfl rfl rfl rfl rfl rfl rfl rfl rfl rfl rfl rfl rfl rfl rfl rfl

theorem cellWinGo_keeps {σ : State} {write : Bool} {s : State} (h_s : Keeps σ s) :
    Keeps σ (cellWinGo write s) := by
  unfold cellWinGo
  repeat' first
    | with_reducible assumption
    | intro _
    | extract_lets
    | with_reducible refine keeps_ite ?_ ?_
    | with_reducible refine raise_keeps ?_
    | with_reducible refine wr_keeps ?_
    | with_reducible refine wrB_keeps ?_
    | with_reducible refine cellWinFail_keeps ?_
    | with_reducible refine sendCfg_keeps ?_
    | fail_if_no_progress with_reducible refine keeps_upd ?_ rfl rfl rfl rfl rfl rfl rfl rfl rfl rfl rfl rfl rfl rfl rfl rfl rfl rfl rfl rfl rfl
    | split

theorem onWindow_keeps {σ : State} {off : Nat} {act : State → State} {s : State} (h_act : ∀ y0, Keeps σ y0 → Keeps σ (act y0)) (h_s : Keeps σ s) :
    Keeps σ (onWindow off act s) := by
  unfold onWindow
  repeat' first
    | with_reducible assumption
    | with_reducible apply h_act
    | intro _
    | with_reducible refine keeps_ite ?_ ?_
    | split

theorem execCellWinRead_keeps {σ : State} {s : State} (h_s : Keeps σ s) :
    ∃ τ, execCellWinRead s = .next τ ∧ Keeps σ τ := by
  refine ⟨_, rfl, ?_⟩
  repeat' first
    | with_reducible assumption
    | intro _
    | with_reducible refine onWindow_keeps ?_ ?_
    | with_reducible refine cellWinGo_keeps ?_

theorem execCellWinWrite_keeps {σ : State} {s : State} (h_s : Keeps σ s) :
    ∃ τ, execCellWinWrite s = .next τ ∧ Keeps σ τ := by
  refine ⟨_, rfl, ?_⟩
  repeat' first
    | with_reducible assumption
    | intro _
    | with_reducible refine onWindow_keeps ?_ ?_
    | with_reducible refine cellWinGo_keeps ?_

theorem cellWinDone_keeps {σ : State} {a : CfgAccess} {d : Word} {s : State} (h_s : Keeps σ s) :
    Keeps σ (cellWinDone a d s) := by
  unfold cellWinDone
  repeat' first
    | with_reducible assumption
    | intro _
    | extract_lets
    | with_reducible refine when_keeps ?_ ?_
    | with_reducible refine wr_keeps ?_
    | with_reducible refine setReg_keeps ?_
    | with_reducible refine raise_keeps ?_
    | fail_if_no_progress with_reducible refine keeps_upd ?_ rfl rfl rfl rfl rfl rfl rfl rfl rfl rfl rfl rfl rfl rfl rfl rfl rfl rfl rfl rfl rfl

theorem cfgRsp_keeps {σ : State} {err : Bool} {d : Word} {s : State} (h_s : Keeps σ s) :
    Keeps σ (cfgRsp err d s) := by
  unfold cfgRsp
  repeat' first
    | with_reducible assumption
    | intro _
    | extract_lets
    | with_reducible refine keeps_ite ?_ ?_
    | with_reducible refine cellWinFail_keeps ?_
    | with_reducible refine cellWinDone_keeps ?_
    | fail_if_no_progress with_reducible refine keeps_upd ?_ rfl rfl rfl rfl rfl rfl rfl rfl rfl rfl rfl rfl rfl rfl rfl rfl rfl rfl rfl rfl rfl
    | split
    | dsimp +zetaDelta only

theorem execCfgRsp_keeps {σ : State} {err : Bool} {d : Word} {s : State} (h_s : Keeps σ s) :
    ∃ τ, execCfgRsp err d s = .next τ ∧ Keeps σ τ := by
  refine ⟨_, rfl, ?_⟩
  repeat' first
    | with_reducible assumption
    | intro _
    | with_reducible refine cfgRsp_keeps ?_

theorem cellWinTimeout_keeps {σ : State} {s : State} (h_s : Keeps σ s) :
    Keeps σ (cellWinTimeout s) := by
  unfold cellWinTimeout
  repeat' first
    | with_reducible assumption
    | intro _
    | with_reducible refine keeps_ite ?_ ?_
    | with_reducible refine cellWinFail_keeps ?_
    | fail_if_no_progress with_reducible refine keeps_upd ?_ rfl rfl rfl rfl rfl rfl rfl rfl rfl rfl rfl rfl rfl rfl rfl rfl rfl rfl rfl rfl rfl
    | split

theorem execCellWinTimeout_keeps {σ : State} {s : State} (h_s : Keeps σ s) :
    ∃ τ, execCellWinTimeout s = .next τ ∧ Keeps σ τ := by
  refine ⟨_, rfl, ?_⟩
  repeat' first
    | with_reducible assumption
    | intro _
    | with_reducible refine cellWinTimeout_keeps ?_

theorem cellWinAgentFree_keeps {σ : State} {s : State} (h_s : Keeps σ s) :
    Keeps σ (cellWinAgentFree s) := by
  unfold cellWinAgentFree
  repeat' first
    | with_reducible assumption
    | intro _
    | extract_lets
    | with_reducible refine keeps_ite ?_ ?_
    | with_reducible refine sendCfg_keeps ?_
    | fail_if_no_progress with_reducible refine keeps_upd ?_ rfl rfl rfl rfl rfl rfl rfl rfl rfl rfl rfl rfl rfl rfl rfl rfl rfl rfl rfl rfl rfl
    | split
    | dsimp +zetaDelta only

theorem execCellWinAgentFree_keeps {σ : State} {s : State} (h_s : Keeps σ s) :
    ∃ τ, execCellWinAgentFree s = .next τ ∧ Keeps σ τ := by
  refine ⟨_, rfl, ?_⟩
  repeat' first
    | with_reducible assumption
    | intro _
    | with_reducible refine cellWinAgentFree_keeps ?_

end Sys2Proof.Machine
end

