-- ==== Sys2Proof/Laws/KeepOclRows.lean ====
section
/-!
SUPPORT. What `Keeps` says, for every function of Machine/OclRows.lean that changes the state.
-/
set_option Elab.async false
namespace Sys2Proof.Machine
open Sys2Proof

theorem takeMsg_keeps {σ : State} {p : Msg → Bool} {s : State} (h_s : Keeps σ s) :
    Keeps σ (takeMsg p s) := by
  unfold takeMsg
  repeat' first
    | with_reducible assumption
    | intro _
    | extract_lets
    | with_reducible refine keeps_ite ?_ ?_
    | with_reducible refine sendCredit_keeps ?_
    | with_reducible refine modLink_keeps ?_
    | fail_if_no_progress with_reducible refine keeps_upd ?_ rfl rfl rfl rfl rfl rfl rfl rfl rfl rfl rfl rfl rfl rfl rfl rfl rfl rfl rfl rfl rfl
    | split
    | dsimp +zetaDelta only

theorem setRxKey_keeps {σ : State} {slot : Bool} {k : KeySlot} {s : State} (h_s : Keeps σ s) :
    Keeps σ (setRxKey slot k s) := by
  unfold setRxKey
  repeat' first
    | with_reducible assumption
    | intro _
    | with_reducible refine keeps_ite ?_ ?_
    | fail_if_no_progress with_reducible refine keeps_upd ?_ rfl rfl rfl rfl rfl rfl rfl rfl rfl rfl rfl rfl rfl rfl rfl rfl rfl rfl rfl rfl rfl
    | split

theorem acceptSec_keeps {σ : State} {m : Msg} {s : State} (h_s : Keeps σ s) :
    Keeps σ (acceptSec m s) := by
  unfold acceptSec
  repeat' first
    | with_reducible assumption
    | intro _
    | extract_lets
    | with_reducible refine keeps_ite ?_ ?_
    | with_reducible refine setRxKey_keeps ?_
    | with_reducible refine wrB_keeps ?_
    | fail_if_no_progress with_reducible refine keeps_upd ?_ rfl rfl rfl rfl rfl rfl rfl rfl rfl rfl rfl rfl rfl rfl rfl rfl rfl rfl rfl rfl rfl
    | split

theorem failSec_keeps {σ : State} {s : State} (h_s : Keeps σ s) :
    Keeps σ (failSec s) := by
  unfold failSec
  repeat' first
    | with_reducible assumption
    | intro _
    | with_reducible refine raise_keeps ?_
    | fail_if_no_progress with_reducible refine keeps_upd ?_ rfl rfl rfl rfl rfl rfl rfl rfl rfl rfl rfl rfl rfl rfl rfl rfl rfl rfl rfl rfl rfl

theorem checked_keeps {σ : State} {need : Bool} {m : Msg} {act : List Slot16 → State → State} {s : State} (h_act : ∀ y0 y1, Keeps σ y1 → Keeps σ (act y0 y1)) (h_s : Keeps σ s) :
    Keeps σ (checked need m act s) := by
  unfold checked
  repeat' first
    | with_reducible assumption
    | with_reducible apply h_act
    | intro _
    | with_reducible refine keeps_ite ?_ ?_
    | with_reducible refine acceptSec_keeps ?_
    | with_reducible refine failSec_keeps ?_
    | split

theorem ringLine_keeps {σ : State} {use : ReadUse} {v : Nat} {s : State} (h_s : Keeps σ s) :
    Keeps σ (ringLine use v s) := by
  unfold ringLine
  repeat' first
    | with_reducible assumption
    | intro _
    | extract_lets
    | with_reducible refine keeps_ite ?_ ?_
    | with_reducible refine readEntries_keeps ?_
    | with_reducible refine setCmdRing_keeps ?_
    | with_reducible refine tuneFetch_keeps ?_
    | with_reducible refine outputRoomWrite_keeps ?_
    | with_reducible refine flushEvents_keeps ?_
    | with_reducible refine when_keeps ?_ ?_
    | fail_if_no_progress with_reducible refine keeps_upd ?_ rfl rfl rfl rfl rfl rfl rfl rfl rfl rfl rfl rfl rfl rfl rfl rfl rfl rfl rfl rfl rfl
    | split
    | dsimp +zetaDelta only

theorem tokensRead_keeps {σ : State} {id : Nat} {bs : List Byte} {s : State} (h_s : Keeps σ s) :
    Keeps σ (tokensRead id bs s) := by
  unfold tokensRead
  repeat' first
    | with_reducible assumption
    | intro _
    | extract_lets
    | with_reducible refine keeps_ite ?_ ?_
    | with_reducible refine modRequest_keeps ?_
    | with_reducible refine endWhenQuiet_keeps ?_
    | with_reducible refine readTokens_keeps ?_
    | with_reducible refine mirrorTokens_keeps ?_
    | fail_if_no_progress with_reducible refine keeps_upd ?_ rfl rfl rfl rfl rfl rfl rfl rfl rfl rfl rfl rfl rfl rfl rfl rfl rfl rfl rfl rfl rfl
    | split
    | dsimp +zetaDelta only

theorem sliceMapRead_keeps {σ : State} {m : Nat} {bs : List Byte} {s : State} (h_s : Keeps σ s) :
    Keeps σ (sliceMapRead m bs s) := by
  unfold sliceMapRead
  repeat' first
    | with_reducible assumption
    | intro _
    | extract_lets
    | with_reducible refine keeps_ite ?_ ?_
    | with_reducible refine fetchSlices_keeps ?_
    | with_reducible refine modModelSlot_keeps ?_
    | with_reducible refine drainAhead_keeps ?_
    | fail_if_no_progress with_reducible refine keeps_upd ?_ rfl rfl rfl rfl rfl rfl rfl rfl rfl rfl rfl rfl rfl rfl rfl rfl rfl rfl rfl rfl rfl
    | split

theorem fetchDone_keeps {σ : State} {u : FetchUse} {bs : List Byte} {s : State} (h_s : Keeps σ s) :
    Keeps σ (fetchDone u bs s) := by
  unfold fetchDone
  repeat' first
    | with_reducible assumption
    | intro _
    | with_reducible refine checkPartRead_keeps ?_
    | with_reducible refine loadPartRead_keeps ?_
    | with_reducible refine workPartRead_keeps ?_
    | with_reducible refine stageRead_keeps ?_
    | fail_if_no_progress with_reducible refine keeps_upd ?_ rfl rfl rfl rfl rfl rfl rfl rfl rfl rfl rfl rfl rfl rfl rfl rfl rfl rfl rfl rfl rfl
    | split

theorem fetchFailed_keeps {σ : State} {u : FetchUse} {bs : List Byte} {s : State} (h_s : Keeps σ s) :
    Keeps σ (fetchFailed u bs s) := by
  unfold fetchFailed
  repeat' first
    | with_reducible assumption
    | intro _
    | with_reducible refine checkPartFailed_keeps ?_
    | with_reducible refine endLoading_keeps ?_
    | with_reducible refine workFailed_keeps ?_
    | with_reducible refine stageFailed_keeps ?_
    | fail_if_no_progress with_reducible refine keeps_upd ?_ rfl rfl rfl rfl rfl rfl rfl rfl rfl rfl rfl rfl rfl rfl rfl rfl rfl rfl rfl rfl rfl
    | split

theorem fetchLines_keeps {σ : State} {u : FetchUse} {r : HostRead} {bs : List Byte} {s : State} (h_s : Keeps σ s) :
    Keeps σ (fetchLines u r bs s) := by
  unfold fetchLines
  repeat' first
    | with_reducible assumption
    | intro _
    | extract_lets
    | with_reducible refine keeps_ite ?_ ?_
    | with_reducible refine dropFetches_keeps ?_
    | with_reducible refine fetchDone_keeps ?_
    | with_reducible refine fetchNext_keeps ?_
    | fail_if_no_progress with_reducible refine keeps_upd ?_ rfl rfl rfl rfl rfl rfl rfl rfl rfl rfl rfl rfl rfl rfl rfl rfl rfl rfl rfl rfl rfl
    | split
    | dsimp +zetaDelta only

theorem fetchLost_keeps {σ : State} {u : FetchUse} {r : HostRead} {s : State} (h_s : Keeps σ s) :
    Keeps σ (fetchLost u r s) := by
  unfold fetchLost
  repeat' first
    | with_reducible assumption
    | intro _
    | with_reducible refine keeps_ite ?_ ?_
    | with_reducible refine fetchFailed_keeps ?_
    | with_reducible refine dropFetches_keeps ?_
    | fail_if_no_progress with_reducible refine keeps_upd ?_ rfl rfl rfl rfl rfl rfl rfl rfl rfl rfl rfl rfl rfl rfl rfl rfl rfl rfl rfl rfl rfl
    | split

theorem readDone_keeps {σ : State} {r : HostRead} {data : List Slot16} {s : State} (h_s : Keeps σ s) :
    Keeps σ (readDone r data s) := by
  unfold readDone
  repeat' first
    | with_reducible assumption
    | intro _
    | extract_lets
    | with_reducible refine keeps_ite ?_ ?_
    | with_reducible refine when_keeps ?_ ?_
    | with_reducible refine ringHeader_keeps ?_
    | with_reducible refine ringLine_keeps ?_
    | with_reducible refine tokensRead_keeps ?_
    | with_reducible refine sliceMapRead_keeps ?_
    | with_reducible refine tuneTokensRead_keeps ?_
    | with_reducible refine tuneEntryRead_keeps ?_
    | with_reducible refine fetchLines_keeps ?_
    | fail_if_no_progress with_reducible refine keeps_upd ?_ rfl rfl rfl rfl rfl rfl rfl rfl rfl rfl rfl rfl rfl rfl rfl rfl rfl rfl rfl rfl rfl
    | split
    | dsimp +zetaDelta only

theorem tuneReadFailed_keeps {σ : State} {s : State} (h_s : Keeps σ s) :
    Keeps σ (tuneReadFailed s) := by
  unfold tuneReadFailed
  repeat' first
    | with_reducible assumption
    | intro _
    | extract_lets
    | with_reducible refine keeps_ite ?_ ?_
    | with_reducible refine tuneFetch_keeps ?_
    | with_reducible refine raise_keeps ?_
    | with_reducible refine tuneEntryRead_keeps ?_
    | fail_if_no_progress with_reducible refine keeps_upd ?_ rfl rfl rfl rfl rfl rfl rfl rfl rfl rfl rfl rfl rfl rfl rfl rfl rfl rfl rfl rfl rfl
    | split
    | dsimp +zetaDelta only

theorem readFailed_keeps {σ : State} {r : HostRead} {s : State} (h_s : Keeps σ s) :
    Keeps σ (readFailed r s) := by
  unfold readFailed
  repeat' first
    | with_reducible assumption
    | intro _
    | with_reducible refine keeps_ite ?_ ?_
    | with_reducible refine ringUnread_keeps ?_
    | with_reducible refine endWhenQuiet_keeps ?_
    | with_reducible refine endReceive_keeps ?_
    | with_reducible refine tuneReadFailed_keeps ?_
    | with_reducible refine fetchLost_keeps ?_
    | fail_if_no_progress with_reducible refine keeps_upd ?_ rfl rfl rfl rfl rfl rfl rfl rfl rfl rfl rfl rfl rfl rfl rfl rfl rfl rfl rfl rfl rfl
    | split

theorem readError_keeps {σ : State} {late : Bool} {r : HostRead} {s : State} (h_s : Keeps σ s) :
    Keeps σ (readError late r s) := by
  unfold readError
  repeat' first
    | with_reducible assumption
    | intro _
    | extract_lets
    | with_reducible refine keeps_ite ?_ ?_
    | with_reducible refine bump_keeps ?_
    | with_reducible refine reads_keeps ?_
    | with_reducible refine setReg_keeps ?_
    | with_reducible refine issueWaiting_keeps ?_
    | with_reducible refine readFailed_keeps ?_
    | with_reducible refine raise_keeps ?_
    | with_reducible refine raiseBoth_keeps ?_
    | with_reducible refine when_keeps ?_ ?_
    | with_reducible refine sendRead_keeps ?_
    | fail_if_no_progress with_reducible refine keeps_upd ?_ rfl rfl rfl rfl rfl rfl rfl rfl rfl rfl rfl rfl rfl rfl rfl rfl rfl rfl rfl rfl rfl
    | split

theorem completeRead_keeps {σ : State} {r : HostRead} {status : Nat} {poison : Bool} {data : List Slot16} {s : State} (h_s : Keeps σ s) :
    Keeps σ (completeRead r status poison data s) := by
  unfold completeRead
  repeat' first
    | with_reducible assumption
    | intro _
    | with_reducible refine keeps_ite ?_ ?_
    | with_reducible refine readError_keeps ?_
    | with_reducible refine discardMsg_keeps ?_
    | with_reducible refine issueWaiting_keeps ?_
    | with_reducible refine readDone_keeps ?_
    | with_reducible refine reads_keeps ?_
    | fail_if_no_progress with_reducible refine keeps_upd ?_ rfl rfl rfl rfl rfl rfl rfl rfl rfl rfl rfl rfl rfl rfl rfl rfl rfl rfl rfl rfl rfl
    | split

theorem cplData_keeps {σ : State} {tag : Nat} {status : Nat} {poison : Bool} {data : List Slot16} {sec : MsgSec} {s0 : State} (h_s0 : Keeps σ s0) :
    Keeps σ (cplData tag status poison data sec s0) := by
  unfold cplData
  repeat' first
    | with_reducible assumption
    | intro _
    | extract_lets
    | with_reducible refine keeps_ite ?_ ?_
    | with_reducible refine takeMsg_keeps ?_
    | with_reducible refine discardMsg_keeps ?_
    | with_reducible refine checked_keeps ?_ ?_
    | with_reducible refine bump_keeps ?_
    | with_reducible refine completeRead_keeps ?_
    | fail_if_no_progress with_reducible refine keeps_upd ?_ rfl rfl rfl rfl rfl rfl rfl rfl rfl rfl rfl rfl rfl rfl rfl rfl rfl rfl rfl rfl rfl
    | split
    | dsimp +zetaDelta only

theorem execCplData_keeps {σ : State} {tag : Nat} {status : Nat} {poison : Bool} {data : List Slot16} {sec : MsgSec} {s : State} (h_s : Keeps σ s) :
    ∃ τ, execCplData tag status poison data sec s = .next τ ∧ Keeps σ τ := by
  refine ⟨_, rfl, ?_⟩
  repeat' first
    | with_reducible assumption
    | intro _
    | with_reducible refine cplData_keeps ?_

theorem cplTimeout_keeps {σ : State} {tag : Nat} {s : State} (h_s : Keeps σ s) :
    Keeps σ (cplTimeout tag s) := by
  unfold cplTimeout
  repeat' first
    | with_reducible assumption
    | intro _
    | with_reducible refine keeps_ite ?_ ?_
    | with_reducible refine readError_keeps ?_
    | fail_if_no_progress with_reducible refine keeps_upd ?_ rfl rfl rfl rfl rfl rfl rfl rfl rfl rfl rfl rfl rfl rfl rfl rfl rfl rfl rfl rfl rfl
    | split

theorem execCplTimeout_keeps {σ : State} {tag : Nat} {s : State} (h_s : Keeps σ s) :
    ∃ τ, execCplTimeout tag s = .next τ ∧ Keeps σ τ := by
  refine ⟨_, rfl, ?_⟩
  repeat' first
    | with_reducible assumption
    | intro _
    | with_reducible refine cplTimeout_keeps ?_

theorem snpInv_keeps {σ : State} {addr : Nat} {s0 : State} (h_s0 : Keeps σ s0) :
    Keeps σ (snpInv addr s0) := by
  unfold snpInv
  repeat' first
    | with_reducible assumption
    | intro _
    | extract_lets
    | with_reducible refine keeps_ite ?_ ?_
    | with_reducible refine takeMsg_keeps ?_
    | with_reducible refine discardMsg_keeps ?_
    | with_reducible refine sendSnpAck_keeps ?_
    | with_reducible refine hostRead_keeps ?_
    | fail_if_no_progress with_reducible refine keeps_upd ?_ rfl rfl rfl rfl rfl rfl rfl rfl rfl rfl rfl rfl rfl rfl rfl rfl rfl rfl rfl rfl rfl
    | split
    | dsimp +zetaDelta only

theorem execSnpInv_keeps {σ : State} {addr : Nat} {s : State} (h_s : Keeps σ s) :
    ∃ τ, execSnpInv addr s = .next τ ∧ Keeps σ τ := by
  refine ⟨_, rfl, ?_⟩
  repeat' first
    | with_reducible assumption
    | intro _
    | with_reducible refine snpInv_keeps ?_

theorem creditRow_keeps {σ : State} {req : Nat} {post : Nat} {init : Bool} {s0 : State} (h_s0 : Keeps σ s0) :
    Keeps σ (creditRow req post init s0) := by
  unfold creditRow
  repeat' first
    | with_reducible assumption
    | intro _
    | extract_lets
    | with_reducible refine keeps_ite ?_ ?_
    | with_reducible refine takeMsg_keeps ?_
    | with_reducible refine pump_keeps ?_
    | with_reducible refine modLink_keeps ?_
    | fail_if_no_progress with_reducible refine keeps_upd ?_ rfl rfl rfl rfl rfl rfl rfl rfl rfl rfl rfl rfl rfl rfl rfl rfl rfl rfl rfl rfl rfl
    | split

theorem execCredit_keeps {σ : State} {req : Nat} {post : Nat} {init : Bool} {s : State} (h_s : Keeps σ s) :
    ∃ τ, execCredit req post init s = .next τ ∧ Keeps σ τ := by
  refine ⟨_, rfl, ?_⟩
  repeat' first
    | with_reducible assumption
    | intro _
    | with_reducible refine creditRow_keeps ?_

theorem intrModeration_keeps {σ : State} {v : Nat} {s : State} (h_s : Keeps σ s) :
    Keeps σ (intrModeration v s) := by
  unfold intrModeration
  repeat' first
    | with_reducible assumption
    | intro _
    | with_reducible refine keeps_ite ?_ ?_
    | with_reducible refine interrupt_keeps ?_
    | split

theorem execIntrModeration_keeps {σ : State} {vector : Nat} {s : State} (h_s : Keeps σ s) :
    ∃ τ, execIntrModeration vector s = .next τ ∧ Keeps σ τ := by
  refine ⟨_, rfl, ?_⟩
  repeat' first
    | with_reducible assumption
    | intro _
    | with_reducible refine intrModeration_keeps ?_

theorem doorbell_keeps {σ : State} {v : Word} {s : State} (h_s : Keeps σ s) :
    Keeps σ (doorbell v s) := by
  unfold doorbell
  repeat' first
    | with_reducible assumption
    | intro _
    | extract_lets
    | with_reducible refine keeps_ite ?_ ?_
    | with_reducible refine when_keeps ?_ ?_
    | with_reducible refine hostRead_keeps ?_
    | with_reducible refine forEach_keeps ?_ ?_
    | split

theorem execDoorbell_keeps {σ : State} {value : Word} {s : State} (h_s : Keeps σ s) :
    ∃ τ, execDoorbell value s = .next τ ∧ Keeps σ τ := by
  refine ⟨_, rfl, ?_⟩
  repeat' first
    | with_reducible assumption
    | intro _
    | with_reducible refine onWindow_keeps ?_ ?_
    | with_reducible refine doorbell_keeps ?_

theorem oclEncMode_keeps {σ : State} {mode : Nat} {s : State} (h_s : Keeps σ s) :
    Keeps σ (oclEncMode mode s) := by
  unfold oclEncMode
  repeat' first
    | with_reducible assumption
    | intro _
    | extract_lets
    | with_reducible refine keeps_ite ?_ ?_
    | with_reducible refine raise_keeps ?_
    | with_reducible refine wr_keeps ?_
    | split

theorem execOclEncMode_keeps {σ : State} {mode : Nat} {s : State} (h_s : Keeps σ s) :
    ∃ τ, execOclEncMode mode s = .next τ ∧ Keeps σ τ := by
  refine ⟨_, rfl, ?_⟩
  repeat' first
    | with_reducible assumption
    | intro _
    | with_reducible refine onWindow_keeps ?_ ?_
    | with_reducible refine oclEncMode_keeps ?_

theorem reopen_keeps {σ : State} {s : State} (h_s : Keeps σ s) :
    Keeps σ (reopen s) := by
  unfold reopen
  repeat' first
    | with_reducible assumption
    | intro _
    | extract_lets
    | with_reducible refine keeps_ite ?_ ?_
    | with_reducible refine resume_keeps ?_
    | with_reducible refine forEach_keeps ?_ ?_
    | with_reducible refine readError_keeps ?_
    | fail_if_no_progress with_reducible refine keeps_upd ?_ rfl rfl rfl rfl rfl rfl rfl rfl rfl rfl rfl rfl rfl rfl rfl rfl rfl rfl rfl rfl rfl
    | split

theorem kemFinishRow_keeps {σ : State} {s : State} (h_s : Keeps σ s) :
    Keeps σ (kemFinishRow s) := by
  unfold kemFinishRow
  repeat' first
    | with_reducible assumption
    | intro _
    | extract_lets
    | with_reducible refine keeps_ite ?_ ?_
    | with_reducible refine kemFinish_keeps ?_
    | with_reducible refine reopen_keeps ?_
    | split

theorem execKemFinish_keeps {σ : State} {s : State} (h_s : Keeps σ s) :
    ∃ τ, execKemFinish s = .next τ ∧ Keeps σ τ := by
  refine ⟨_, rfl, ?_⟩
  repeat' first
    | with_reducible assumption
    | intro _
    | with_reducible refine mbxCommand_keeps ?_ ?_
    | with_reducible refine kemFinishRow_keeps ?_

end Sys2Proof.Machine
end

