-- ==== Sys2Proof/Laws/KeepWindow.lean ====
section
/-!
SUPPORT. What `Keeps` says, for every function of Machine/Window.lean that changes the state.
-/
set_option Elab.async false
namespace Sys2Proof.Machine
open Sys2Proof

theorem setLatch_keeps {σ : State} {mgmt : Bool} {off : Nat} {v : Word} {s : State} (h_s : Keeps σ s) :
    Keeps σ (setLatch mgmt off v s) := by
  unfold setLatch
  exact keeps_ite (keeps_tables h_s rfl rfl rfl rfl rfl rfl fun t => { t with latchMgmt := Table.wf_set _ _ _ _ t.latchMgmt })
    (keeps_tables h_s rfl rfl rfl rfl rfl rfl fun t => { t with latchOcl := Table.wf_set _ _ _ _ t.latchOcl })

theorem clearOnRead_keeps {σ : State} {off : Nat} {r : RegRow} {s : State} (h_s : Keeps σ s) :
    Keeps σ (clearOnRead off r s) := by
  unfold clearOnRead
  repeat' first
    | with_reducible assumption
    | intro _
    | extract_lets
    | with_reducible refine keeps_ite ?_ ?_
    | with_reducible refine setLayerPrec_keeps ?_
    | with_reducible refine takeFree_keeps ?_
    | with_reducible refine setReg_keeps ?_
    | fail_if_no_progress with_reducible refine keeps_upd ?_ rfl rfl rfl rfl rfl rfl rfl rfl rfl rfl rfl rfl rfl rfl rfl rfl rfl rfl rfl rfl rfl
    | split

theorem readReg_keeps {σ : State} {mgmt : Bool} {plain : Bool} {off : Nat} {s : State} (h_s : Keeps σ s) :
    Keeps σ (readReg mgmt plain off s).2 := by
  unfold readReg
  repeat' first
    | with_reducible assumption
    | intro _
    | extract_lets
    | with_reducible refine keeps_ite ?_ ?_
    | with_reducible refine when_keeps ?_ ?_
    | with_reducible refine setLatch_keeps ?_
    | with_reducible refine clearOnRead_keeps ?_
    | fail_if_no_progress with_reducible refine keeps_upd ?_ rfl rfl rfl rfl rfl rfl rfl rfl rfl rfl rfl rfl rfl rfl rfl rfl rfl rfl rfl rfl rfl
    | with_reducible refine keeps_snd_ite ?_ ?_
    | split
    | dsimp +zetaDelta only

theorem readWord_keeps {σ : State} {mgmt : Bool} {off : Nat} {s : State} (h_s : Keeps σ s) :
    Keeps σ (readWord mgmt off s).2 := by
  unfold readWord
  repeat' first
    | with_reducible assumption
    | intro _
    | extract_lets
    | with_reducible refine keeps_ite ?_ ?_
    | with_reducible refine readReg_keeps ?_
    | with_reducible refine keeps_snd_ite ?_ ?_
    | split

theorem readWindow_keeps {σ : State} {mgmt : Bool} {off : Nat} {size : Nat} {s : State} (h_s : Keeps σ s) :
    Keeps σ (readWindow mgmt off size s).2 := by
  unfold readWindow
  repeat' first
    | with_reducible assumption
    | intro _
    | extract_lets
    | with_reducible refine keeps_ite ?_ ?_
    | with_reducible refine readWord_keeps ?_
    | with_reducible refine keeps_snd_ite ?_ ?_
    | split

theorem putReg_keeps {σ : State} {off : Nat} {rw : Nat} {v : Word} {s : State} (h_s : Keeps σ s) :
    Keeps σ (putReg off rw v s) := by
  unfold putReg
  repeat' first
    | with_reducible assumption
    | intro _
    | extract_lets
    | with_reducible refine setReg_keeps ?_

theorem writeCellWin_keeps {σ : State} {off : Nat} {r : RegRow} {v : Word} {s : State} (h_s : Keeps σ s) :
    Keeps σ (writeCellWin off r v s) := by
  unfold writeCellWin
  repeat' first
    | with_reducible assumption
    | intro _
    | with_reducible refine keeps_ite ?_ ?_
    | with_reducible refine cellWinGo_keeps ?_
    | with_reducible refine raise_keeps ?_
    | with_reducible refine putReg_keeps ?_
    | split

theorem writeSched_keeps {σ : State} {off : Nat} {r : RegRow} {v : Word} {s : State} (h_s : Keeps σ s) :
    Keeps σ (writeSched off r v s) := by
  unfold writeSched
  repeat' first
    | with_reducible assumption
    | intro _
    | with_reducible refine keeps_ite ?_ ?_
    | with_reducible refine extEn_keeps ?_
    | with_reducible refine wrB_keeps ?_
    | with_reducible refine loadGo_keeps ?_
    | with_reducible refine putReg_keeps ?_
    | split

theorem writePrec_keeps {σ : State} {off : Nat} {r : RegRow} {v : Word} {s : State} (h_s : Keeps σ s) :
    Keeps σ (writePrec off r v s) := by
  unfold writePrec
  repeat' first
    | with_reducible assumption
    | intro _
    | with_reducible refine keeps_ite ?_ ?_
    | with_reducible refine recipeWinDataWrite_keeps ?_
    | with_reducible refine modelRecipeWrite_keeps ?_
    | with_reducible refine putReg_keeps ?_
    | split

theorem writeKv_keeps {σ : State} {off : Nat} {r : RegRow} {v : Word} {s : State} (h_s : Keeps σ s) :
    Keeps σ (writeKv off r v s) := by
  unfold writeKv
  repeat' first
    | with_reducible assumption
    | intro _
    | extract_lets
    | with_reducible refine keeps_ite ?_ ?_
    | with_reducible refine putReg_keeps ?_
    | with_reducible refine poolEnable_keeps ?_
    | with_reducible refine poolDisable_keeps ?_
    | with_reducible refine posLimitWrite_keeps ?_
    | with_reducible refine raise_keeps ?_
    | split

theorem openRing_keeps {σ : State} {k : Nat} {s : State} (h_s : Keeps σ s) :
    Keeps σ (openRing k s) := by
  unfold openRing
  repeat' first
    | with_reducible assumption
    | intro _
    | with_reducible refine keeps_ite ?_ ?_
    | with_reducible refine hostRead_keeps ?_
    | with_reducible refine beginRing_keeps ?_
    | split

theorem closeRing_keeps {σ : State} {k : Nat} {s : State} (h_s : Keeps σ s) :
    Keeps σ (closeRing k s) := by
  unfold closeRing
  repeat' first
    | with_reducible assumption
    | intro _
    | with_reducible refine unwatchRing_keeps ?_
    | with_reducible refine wr_keeps ?_
    | with_reducible refine markRead_keeps ?_

theorem writeRingBase_keeps {σ : State} {k : Nat} {off : Nat} {r : RegRow} {v : Word} {s : State} (h_s : Keeps σ s) :
    Keeps σ (writeRingBase k off r v s) := by
  unfold writeRingBase
  repeat' first
    | with_reducible assumption
    | intro _
    | with_reducible refine keeps_ite ?_ ?_
    | with_reducible refine putReg_keeps ?_
    | split

theorem writeRingCfg_keeps {σ : State} {k : Nat} {off : Nat} {r : RegRow} {v : Word} {s : State} (h_s : Keeps σ s) :
    Keeps σ (writeRingCfg k off r v s) := by
  unfold writeRingCfg
  repeat' first
    | with_reducible assumption
    | intro _
    | extract_lets
    | with_reducible refine keeps_ite ?_ ?_
    | with_reducible refine putReg_keeps ?_
    | with_reducible refine closeRing_keeps ?_
    | with_reducible refine openRing_keeps ?_
    | split

theorem writeService_keeps {σ : State} {off : Nat} {r : RegRow} {v : Word} {s : State} (h_s : Keeps σ s) :
    Keeps σ (writeService off r v s) := by
  unfold writeService
  repeat' first
    | with_reducible assumption
    | intro _
    | extract_lets
    | with_reducible refine keeps_ite ?_ ?_
    | with_reducible refine putReg_keeps ?_
    | with_reducible refine writeRingCfg_keeps ?_
    | with_reducible refine writeRingBase_keeps ?_
    | split

theorem writeTune_keeps {σ : State} {off : Nat} {r : RegRow} {v : Word} {s : State} (h_s : Keeps σ s) :
    Keeps σ (writeTune off r v s) := by
  unfold writeTune
  repeat' first
    | with_reducible assumption
    | intro _
    | with_reducible refine keeps_ite ?_ ?_
    | with_reducible refine tuneCtrl_keeps ?_
    | with_reducible refine putReg_keeps ?_
    | with_reducible refine when_keeps ?_ ?_
    | with_reducible refine noBlockYet_keeps ?_
    | with_reducible refine tuneRefuse_keeps ?_
    | with_reducible refine writeRingCfg_keeps ?_
    | with_reducible refine writeRingBase_keeps ?_
    | split

theorem writeOcl_keeps {σ : State} {off : Nat} {r : RegRow} {v : Word} {s : State} (h_s : Keeps σ s) :
    Keeps σ (writeOcl off r v s) := by
  unfold writeOcl
  repeat' first
    | with_reducible assumption
    | intro _
    | with_reducible refine keeps_ite ?_ ?_
    | with_reducible refine when_keeps ?_ ?_
    | with_reducible refine enterRetrain_keeps ?_
    | with_reducible refine oclEncMode_keeps ?_
    | with_reducible refine doorbell_keeps ?_
    | with_reducible refine writeRingCfg_keeps ?_
    | with_reducible refine writeRingBase_keeps ?_
    | with_reducible refine putReg_keeps ?_
    | split

theorem resetGo_keeps {σ : State} {scope : Nat} {c : Nat} {s : State} (h_s : Keeps σ s) :
    Keeps σ (resetGo scope c s) := by
  unfold resetGo
  repeat' first
    | with_reducible assumption
    | intro _
    | with_reducible refine requestReset_keeps ?_
    | with_reducible refine wholeRequest_keeps ?_
    | with_reducible refine wr_keeps ?_
    | fail_if_no_progress with_reducible refine keeps_upd ?_ rfl rfl rfl rfl rfl rfl rfl rfl rfl rfl rfl rfl rfl rfl rfl rfl rfl rfl rfl rfl rfl
    | split

theorem writeFault_keeps {σ : State} {off : Nat} {r : RegRow} {v : Word} {s : State} (h_s : Keeps σ s) :
    Keeps σ (writeFault off r v s) := by
  unfold writeFault
  repeat' first
    | with_reducible assumption
    | intro _
    | with_reducible refine keeps_ite ?_ ?_
    | with_reducible refine when_keeps ?_ ?_
    | with_reducible refine fatal_keeps ?_
    | with_reducible refine putReg_keeps ?_
    | with_reducible refine resetGo_keeps ?_
    | split

theorem writeBoot_keeps {σ : State} {off : Nat} {r : RegRow} {v : Word} {s : State} (h_s : Keeps σ s) :
    Keeps σ (writeBoot off r v s) := by
  unfold writeBoot
  repeat' first
    | with_reducible assumption
    | intro _
    | with_reducible refine keeps_ite ?_ ?_
    | with_reducible refine when_keeps ?_ ?_
    | with_reducible refine restart_keeps ?_
    | with_reducible refine clearFails_keeps ?_
    | with_reducible refine shutdown_keeps ?_
    | with_reducible refine stageCtrl_keeps ?_
    | with_reducible refine putReg_keeps ?_
    | split

theorem writeModel_keeps {σ : State} {off : Nat} {r : RegRow} {v : Word} {s : State} (h_s : Keeps σ s) :
    Keeps σ (writeModel off r v s) := by
  unfold writeModel
  repeat' first
    | with_reducible assumption
    | intro _
    | extract_lets
    | with_reducible refine keeps_ite ?_ ?_
    | with_reducible refine pinnedWrite_keeps ?_
    | with_reducible refine putReg_keeps ?_
    | split

theorem writeSpan_keeps {σ : State} {off : Nat} {r : RegRow} {v : Word} {s : State} (h_s : Keeps σ s) :
    Keeps σ (writeSpan off r v s) := by
  unfold writeSpan
  repeat' first
    | with_reducible assumption
    | intro _
    | extract_lets
    | with_reducible refine keeps_ite ?_ ?_
    | with_reducible refine pairModeWrite_keeps ?_
    | with_reducible refine arbitrate_keeps ?_
    | with_reducible refine putReg_keeps ?_
    | with_reducible refine when_keeps ?_ ?_
    | with_reducible refine enterRetrain_keeps ?_
    | split

theorem mbxGo_keeps {σ : State} {mgmt : Bool} {op : Nat} {s : State} (h_s : Keeps σ s) :
    Keeps σ (mbxGo mgmt op s) := by
  unfold mbxGo
  repeat' first
    | with_reducible assumption
    | intro _
    | with_reducible refine mbxCommand_keeps ?_ ?_
    | with_reducible refine attest_keeps ?_
    | with_reducible refine kemStart_keeps ?_
    | with_reducible refine kemFinishRow_keeps ?_
    | with_reducible refine kemSwitch_keeps ?_
    | with_reducible refine zeroise_keeps ?_
    | with_reducible refine identity_keeps ?_
    | with_reducible refine svnCommit_keeps ?_
    | with_reducible refine wr_keeps ?_
    | fail_if_no_progress with_reducible refine keeps_upd ?_ rfl rfl rfl rfl rfl rfl rfl rfl rfl rfl rfl rfl rfl rfl rfl rfl rfl rfl rfl rfl rfl
    | split

theorem writeMbx_keeps {σ : State} {mgmt : Bool} {off : Nat} {r : RegRow} {v : Word} {s : State} (h_s : Keeps σ s) :
    Keeps σ (writeMbx mgmt off r v s) := by
  unfold writeMbx
  repeat' first
    | with_reducible assumption
    | intro _
    | with_reducible refine keeps_ite ?_ ?_
    | with_reducible refine mbxGo_keeps ?_
    | with_reducible refine putReg_keeps ?_
    | split

theorem writeReg_keeps {σ : State} {mgmt : Bool} {off : Nat} {r : RegRow} {v : Word} {s : State} (h_s : Keeps σ s) :
    Keeps σ (writeReg mgmt off r v s) := by
  unfold writeReg
  repeat' first
    | with_reducible assumption
    | intro _
    | with_reducible refine keeps_ite ?_ ?_
    | with_reducible refine writeMbx_keeps ?_
    | with_reducible refine writeSpan_keeps ?_
    | with_reducible refine fabCalderaWrite_keeps ?_
    | with_reducible refine putReg_keeps ?_
    | with_reducible refine writeCellWin_keeps ?_
    | with_reducible refine writeSched_keeps ?_
    | with_reducible refine writePrec_keeps ?_
    | with_reducible refine writeKv_keeps ?_
    | with_reducible refine writeService_keeps ?_
    | with_reducible refine writeTune_keeps ?_
    | with_reducible refine writeOcl_keeps ?_
    | with_reducible refine writeFault_keeps ?_
    | with_reducible refine pwrCapWrite_keeps ?_
    | with_reducible refine coolCfgWrite_keeps ?_
    | with_reducible refine thrReloc_keeps ?_
    | with_reducible refine writeBoot_keeps ?_
    | with_reducible refine writeModel_keeps ?_
    | fail_if_no_progress with_reducible refine keeps_upd ?_ rfl rfl rfl rfl rfl rfl rfl rfl rfl rfl rfl rfl rfl rfl rfl rfl rfl rfl rfl rfl rfl
    | split

theorem writeWord_keeps {σ : State} {mgmt : Bool} {off : Nat} {v : Word} {s : State} (h_s : Keeps σ s) :
    Keeps σ (writeWord mgmt off v s) := by
  unfold writeWord
  repeat' first
    | with_reducible assumption
    | intro _
    | extract_lets
    | with_reducible refine keeps_ite ?_ ?_
    | with_reducible refine mbxWrite_keeps ?_
    | with_reducible refine writeReg_keeps ?_
    | fail_if_no_progress with_reducible refine keeps_upd ?_ rfl rfl rfl rfl rfl rfl rfl rfl rfl rfl rfl rfl rfl rfl rfl rfl rfl rfl rfl rfl rfl
    | split
    | dsimp +zetaDelta only

theorem writeWindow_keeps {σ : State} {mgmt : Bool} {off : Nat} {size : Nat} {d : Dword} {s : State} (h_s : Keeps σ s) :
    Keeps σ (writeWindow mgmt off size d s) := by
  unfold writeWindow
  repeat' first
    | with_reducible assumption
    | intro _
    | extract_lets
    | with_reducible refine keeps_ite ?_ ?_
    | with_reducible refine writeWord_keeps ?_
    | split

theorem badAccess_keeps {σ : State} {s : State} (h_s : Keeps σ s) :
    Keeps σ (badAccess s) := by
  unfold badAccess
  repeat' first
    | with_reducible assumption
    | intro _
    | with_reducible refine raise_keeps ?_
    | with_reducible refine bump_keeps ?_

theorem mmioRd_keeps {σ : State} {off : Nat} {size : Nat} {tag : Nat} {s0 : State} (h_s0 : Keeps σ s0) :
    Keeps σ (mmioRd off size tag s0) := by
  unfold mmioRd
  repeat' first
    | with_reducible assumption
    | intro _
    | extract_lets
    | with_reducible refine keeps_ite ?_ ?_
    | with_reducible refine takeMsg_keeps ?_
    | with_reducible refine sendCpl_keeps ?_
    | with_reducible refine badAccess_keeps ?_
    | with_reducible refine readWindow_keeps ?_
    | split

theorem execMmioRd_keeps {σ : State} {off : Nat} {size : Nat} {tag : Nat} {s : State} (h_s : Keeps σ s) :
    ∃ τ, execMmioRd off size tag s = .next τ ∧ Keeps σ τ := by
  refine ⟨_, rfl, ?_⟩
  repeat' first
    | with_reducible assumption
    | intro _
    | with_reducible refine mmioRd_keeps ?_

theorem mmioWr_keeps {σ : State} {off : Nat} {size : Nat} {data : Slot16} {sec : MsgSec} {s0 : State} (h_s0 : Keeps σ s0) :
    Keeps σ (mmioWr off size data sec s0) := by
  unfold mmioWr
  repeat' first
    | with_reducible assumption
    | intro _
    | extract_lets
    | with_reducible refine keeps_ite ?_ ?_
    | with_reducible refine takeMsg_keeps ?_
    | with_reducible refine writeWindow_keeps ?_
    | with_reducible refine badAccess_keeps ?_
    | with_reducible refine failSec_keeps ?_
    | with_reducible refine checked_keeps ?_ ?_
    | split

theorem execMmioWr_keeps {σ : State} {off : Nat} {size : Nat} {data : Slot16} {sec : MsgSec} {s : State} (h_s : Keeps σ s) :
    ∃ τ, execMmioWr off size data sec s = .next τ ∧ Keeps σ τ := by
  refine ⟨_, rfl, ?_⟩
  repeat' first
    | with_reducible assumption
    | intro _
    | with_reducible refine mmioWr_keeps ?_

theorem registerWrite_keeps {σ : State} {off : Nat} {v : Word} {s : State} (h_s : Keeps σ s) :
    Keeps σ (registerWrite off v s) := by
  unfold registerWrite
  repeat' first
    | with_reducible assumption
    | intro _
    | with_reducible refine keeps_ite ?_ ?_
    | with_reducible refine writeWord_keeps ?_
    | split

theorem execRegisterWrite_keeps {σ : State} {off : Nat} {value : Word} {s : State} (h_s : Keeps σ s) :
    ∃ τ, execRegisterWrite off value s = .next τ ∧ Keeps σ τ := by
  refine ⟨_, rfl, ?_⟩
  repeat' first
    | with_reducible assumption
    | intro _
    | with_reducible refine registerWrite_keeps ?_

end Sys2Proof.Machine
end

