-- ==== Sys2Proof/Laws/KeepPins.lean ====
section
/-!
SUPPORT. What `Keeps` says, for every function of Machine/Pins.lean that changes the state.
-/
set_option Elab.async false
namespace Sys2Proof.Machine
open Sys2Proof

theorem nresetAssert_keeps {σ : State} {s : State} (h_s : Keeps σ s) :
    Keeps σ (nresetAssert s) := by
  unfold nresetAssert
  repeat' first
    | with_reducible assumption
    | intro _
    | extract_lets
    | with_reducible refine keeps_ite ?_ ?_
    | with_reducible refine wholeReset_keeps ?_
    | fail_if_no_progress with_reducible refine keeps_upd ?_ rfl rfl rfl rfl rfl rfl rfl rfl rfl rfl rfl rfl rfl rfl rfl rfl rfl rfl rfl rfl rfl
    | split

theorem execNresetAssert_keeps {σ : State} {s : State} (h_s : Keeps σ s) :
    ∃ τ, execNresetAssert s = .next τ ∧ Keeps σ τ := by
  refine ⟨_, rfl, ?_⟩
  repeat' first
    | with_reducible assumption
    | intro _
    | with_reducible refine nresetAssert_keeps ?_

theorem nresetRelease_keeps {σ : State} {senior : Bool} {s : State} (h_s : Keeps σ s) :
    Keeps σ (nresetRelease senior s) := by
  unfold nresetRelease
  repeat' first
    | with_reducible assumption
    | intro _
    | with_reducible refine keeps_ite ?_ ?_
    | with_reducible refine showPins_keeps ?_
    | fail_if_no_progress with_reducible refine keeps_upd ?_ rfl rfl rfl rfl rfl rfl rfl rfl rfl rfl rfl rfl rfl rfl rfl rfl rfl rfl rfl rfl rfl
    | split

theorem execNresetRelease_keeps {σ : State} {senior : Bool} {s : State} (h_s : Keeps σ s) :
    ∃ τ, execNresetRelease senior s = .next τ ∧ Keeps σ τ := by
  refine ⟨_, rfl, ?_⟩
  repeat' first
    | with_reducible assumption
    | intro _
    | with_reducible refine nresetRelease_keeps ?_

theorem resetShort_keeps {σ : State} {s : State} (h_s : Keeps σ s) :
    Keeps σ (resetShort s) := by
  unfold resetShort
  repeat' first
    | with_reducible assumption
    | intro _
    | with_reducible refine keeps_ite ?_ ?_
    | with_reducible refine raise_keeps ?_
    | with_reducible refine bump_keeps ?_
    | split

theorem execResetShort_keeps {σ : State} {s : State} (h_s : Keeps σ s) :
    ∃ τ, execResetShort s = .next τ ∧ Keeps σ τ := by
  refine ⟨_, rfl, ?_⟩
  repeat' first
    | with_reducible assumption
    | intro _
    | with_reducible refine resetShort_keeps ?_

theorem holdAccept_keeps {σ : State} {asserted : Bool} {t : Nat} {s : State} (h_s : Keeps σ s) :
    Keeps σ (holdAccept asserted t s) := by
  unfold holdAccept
  repeat' first
    | with_reducible assumption
    | intro _
    | with_reducible refine wrB_keeps ?_
    | fail_if_no_progress with_reducible refine keeps_upd ?_ rfl rfl rfl rfl rfl rfl rfl rfl rfl rfl rfl rfl rfl rfl rfl rfl rfl rfl rfl rfl rfl

theorem nholdExt_keeps {σ : State} {level : Bool} {heldNs : Nat} {t : Nat} {s0 : State} (h_s0 : Keeps σ s0) :
    Keeps σ (nholdExt level heldNs t s0) := by
  unfold nholdExt
  repeat' first
    | with_reducible assumption
    | intro _
    | extract_lets
    | with_reducible refine keeps_ite ?_ ?_
    | with_reducible refine atTime_keeps ?_
    | with_reducible refine raise_keeps ?_
    | with_reducible refine bump_keeps ?_
    | with_reducible refine holdAccept_keeps ?_
    | split

theorem execNholdExt_keeps {σ : State} {level : Bool} {heldNs : Nat} {t : Nat} {s : State} (h_s : Keeps σ s) :
    ∃ τ, execNholdExt level heldNs t s = .next τ ∧ Keeps σ τ := by
  refine ⟨_, rfl, ?_⟩
  repeat' first
    | with_reducible assumption
    | intro _
    | with_reducible refine nholdExt_keeps ?_

theorem extStuck_keeps {σ : State} {s : State} (h_s : Keeps σ s) :
    Keeps σ (extStuck s) := by
  unfold extStuck
  repeat' first
    | with_reducible assumption
    | intro _
    | with_reducible refine keeps_ite ?_ ?_
    | with_reducible refine pldm_keeps ?_
    | with_reducible refine raise_keeps ?_
    | with_reducible refine wr_keeps ?_
    | fail_if_no_progress with_reducible refine keeps_upd ?_ rfl rfl rfl rfl rfl rfl rfl rfl rfl rfl rfl rfl rfl rfl rfl rfl rfl rfl rfl rfl rfl
    | split

theorem execExtStuck_keeps {σ : State} {s : State} (h_s : Keeps σ s) :
    ∃ τ, execExtStuck s = .next τ ∧ Keeps σ τ := by
  refine ⟨_, rfl, ?_⟩
  repeat' first
    | with_reducible assumption
    | intro _
    | with_reducible refine extStuck_keeps ?_

end Sys2Proof.Machine
end

