-- ==== Sys2Proof/Laws/KeepMgmtBus.lean ====
section
/-!
SUPPORT. What `Keeps` says, for every function of Machine/MgmtBus.lean that changes the state.
-/
set_option Elab.async false
namespace Sys2Proof.Machine
open Sys2Proof

theorem answer_keeps {σ : State} {bs : List Byte} {s : State} (h_s : Keeps σ s) :
    Keeps σ (answer bs s) := by
  unfold answer
  repeat' first
    | with_reducible assumption
    | intro _
    | fail_if_no_progress with_reducible refine keeps_upd ?_ rfl rfl rfl rfl rfl rfl rfl rfl rfl rfl rfl rfl rfl rfl rfl rfl rfl rfl rfl rfl rfl

theorem takeAddress_keeps {σ : State} {a : Nat} {s : State} (h_s : Keeps σ s) :
    Keeps σ (takeAddress a s) := by
  unfold takeAddress
  repeat' first
    | with_reducible assumption
    | intro _
    | with_reducible refine keeps_ite ?_ ?_
    | fail_if_no_progress with_reducible refine keeps_upd ?_ rfl rfl rfl rfl rfl rfl rfl rfl rfl rfl rfl rfl rfl rfl rfl rfl rfl rfl rfl rfl rfl
    | split

theorem entdaa_keeps {σ : State} {a : Nat} {s : State} (h_s : Keeps σ s) :
    Keeps σ (entdaa a s) := by
  unfold entdaa
  repeat' first
    | with_reducible assumption
    | intro _
    | with_reducible refine keeps_ite ?_ ?_
    | with_reducible refine takeAddress_keeps ?_
    | with_reducible refine answer_keeps ?_
    | split

theorem execEntdaa_keeps {σ : State} {address : Nat} {s : State} (h_s : Keeps σ s) :
    ∃ τ, execEntdaa address s = .next τ ∧ Keeps σ τ := by
  refine ⟨_, rfl, ?_⟩
  repeat' first
    | with_reducible assumption
    | intro _
    | with_reducible refine entdaa_keeps ?_

theorem execSetdasa_keeps {σ : State} {address : Nat} {s : State} (h_s : Keeps σ s) :
    ∃ τ, execSetdasa address s = .next τ ∧ Keeps σ τ := by
  refine ⟨_, rfl, ?_⟩
  repeat' first
    | with_reducible assumption
    | intro _
    | with_reducible refine takeAddress_keeps ?_

theorem rstdaa_keeps {σ : State} {s : State} (h_s : Keeps σ s) :
    Keeps σ (rstdaa s) := by
  unfold rstdaa
  repeat' first
    | with_reducible assumption
    | intro _
    | with_reducible refine keeps_ite ?_ ?_
    | fail_if_no_progress with_reducible refine keeps_upd ?_ rfl rfl rfl rfl rfl rfl rfl rfl rfl rfl rfl rfl rfl rfl rfl rfl rfl rfl rfl rfl rfl
    | split

theorem execRstdaa_keeps {σ : State} {s : State} (h_s : Keeps σ s) :
    ∃ τ, execRstdaa s = .next τ ∧ Keeps σ τ := by
  refine ⟨_, rfl, ?_⟩
  repeat' first
    | with_reducible assumption
    | intro _
    | with_reducible refine rstdaa_keeps ?_

theorem enec_keeps {σ : State} {e : Nat} {s : State} (h_s : Keeps σ s) :
    Keeps σ (enec e s) := by
  unfold enec
  repeat' first
    | with_reducible assumption
    | intro _
    | with_reducible refine keeps_ite ?_ ?_
    | fail_if_no_progress with_reducible refine keeps_upd ?_ rfl rfl rfl rfl rfl rfl rfl rfl rfl rfl rfl rfl rfl rfl rfl rfl rfl rfl rfl rfl rfl
    | split

theorem execEnec_keeps {σ : State} {events : Nat} {s : State} (h_s : Keeps σ s) :
    ∃ τ, execEnec events s = .next τ ∧ Keeps σ τ := by
  refine ⟨_, rfl, ?_⟩
  repeat' first
    | with_reducible assumption
    | intro _
    | with_reducible refine enec_keeps ?_

theorem disec_keeps {σ : State} {e : Nat} {s : State} (h_s : Keeps σ s) :
    Keeps σ (disec e s) := by
  unfold disec
  repeat' first
    | with_reducible assumption
    | intro _
    | with_reducible refine keeps_ite ?_ ?_
    | fail_if_no_progress with_reducible refine keeps_upd ?_ rfl rfl rfl rfl rfl rfl rfl rfl rfl rfl rfl rfl rfl rfl rfl rfl rfl rfl rfl rfl rfl
    | split

theorem execDisec_keeps {σ : State} {events : Nat} {s : State} (h_s : Keeps σ s) :
    ∃ τ, execDisec events s = .next τ ∧ Keeps σ τ := by
  refine ⟨_, rfl, ?_⟩
  repeat' first
    | with_reducible assumption
    | intro _
    | with_reducible refine disec_keeps ?_

theorem answered_keeps {σ : State} {bs : State → List Byte} {s : State} (h_s : Keeps σ s) :
    Keeps σ (answered bs s) := by
  unfold answered
  repeat' first
    | with_reducible assumption
    | intro _
    | with_reducible refine keeps_ite ?_ ?_
    | with_reducible refine answer_keeps ?_
    | split

theorem execGetpid_keeps {σ : State} {s : State} (h_s : Keeps σ s) :
    ∃ τ, execGetpid s = .next τ ∧ Keeps σ τ := by
  refine ⟨_, rfl, ?_⟩
  repeat' first
    | with_reducible assumption
    | intro _
    | with_reducible refine answered_keeps ?_

theorem execGetbcr_keeps {σ : State} {s : State} (h_s : Keeps σ s) :
    ∃ τ, execGetbcr s = .next τ ∧ Keeps σ τ := by
  refine ⟨_, rfl, ?_⟩
  repeat' first
    | with_reducible assumption
    | intro _
    | with_reducible refine answered_keeps ?_

theorem execGetdcr_keeps {σ : State} {s : State} (h_s : Keeps σ s) :
    ∃ τ, execGetdcr s = .next τ ∧ Keeps σ τ := by
  refine ⟨_, rfl, ?_⟩
  repeat' first
    | with_reducible assumption
    | intro _
    | with_reducible refine answered_keeps ?_

theorem execGetstatus_keeps {σ : State} {s : State} (h_s : Keeps σ s) :
    ∃ τ, execGetstatus s = .next τ ∧ Keeps σ τ := by
  refine ⟨_, rfl, ?_⟩
  repeat' first
    | with_reducible assumption
    | intro _
    | with_reducible refine answered_keeps ?_

theorem execGetmxds_keeps {σ : State} {s : State} (h_s : Keeps σ s) :
    ∃ τ, execGetmxds s = .next τ ∧ Keeps σ τ := by
  refine ⟨_, rfl, ?_⟩
  repeat' first
    | with_reducible assumption
    | intro _
    | with_reducible refine answered_keeps ?_

theorem setmwl_keeps {σ : State} {n : Nat} {s : State} (h_s : Keeps σ s) :
    Keeps σ (setmwl n s) := by
  unfold setmwl
  repeat' first
    | with_reducible assumption
    | intro _
    | with_reducible refine keeps_ite ?_ ?_
    | fail_if_no_progress with_reducible refine keeps_upd ?_ rfl rfl rfl rfl rfl rfl rfl rfl rfl rfl rfl rfl rfl rfl rfl rfl rfl rfl rfl rfl rfl
    | split

theorem execSetmwl_keeps {σ : State} {length : Nat} {s : State} (h_s : Keeps σ s) :
    ∃ τ, execSetmwl length s = .next τ ∧ Keeps σ τ := by
  refine ⟨_, rfl, ?_⟩
  repeat' first
    | with_reducible assumption
    | intro _
    | with_reducible refine setmwl_keeps ?_

theorem setmrl_keeps {σ : State} {n : Nat} {s : State} (h_s : Keeps σ s) :
    Keeps σ (setmrl n s) := by
  unfold setmrl
  repeat' first
    | with_reducible assumption
    | intro _
    | with_reducible refine keeps_ite ?_ ?_
    | fail_if_no_progress with_reducible refine keeps_upd ?_ rfl rfl rfl rfl rfl rfl rfl rfl rfl rfl rfl rfl rfl rfl rfl rfl rfl rfl rfl rfl rfl
    | split

theorem execSetmrl_keeps {σ : State} {length : Nat} {s : State} (h_s : Keeps σ s) :
    ∃ τ, execSetmrl length s = .next τ ∧ Keeps σ τ := by
  refine ⟨_, rfl, ?_⟩
  repeat' first
    | with_reducible assumption
    | intro _
    | with_reducible refine setmrl_keeps ?_

theorem rstact_keeps {σ : State} {a : Nat} {s : State} (h_s : Keeps σ s) :
    Keeps σ (rstact a s) := by
  unfold rstact
  repeat' first
    | with_reducible assumption
    | intro _
    | with_reducible refine keeps_ite ?_ ?_
    | fail_if_no_progress with_reducible refine keeps_upd ?_ rfl rfl rfl rfl rfl rfl rfl rfl rfl rfl rfl rfl rfl rfl rfl rfl rfl rfl rfl rfl rfl
    | split

theorem execRstact_keeps {σ : State} {action : Nat} {s : State} (h_s : Keeps σ s) :
    ∃ τ, execRstact action s = .next τ ∧ Keeps σ τ := by
  refine ⟨_, rfl, ?_⟩
  repeat' first
    | with_reducible assumption
    | intro _
    | with_reducible refine rstact_keeps ?_

theorem setEndpointId_keeps {σ : State} {eid : Nat} {source : Nat} {s : State} (h_s : Keeps σ s) :
    Keeps σ (setEndpointId eid source s) := by
  unfold setEndpointId
  repeat' first
    | with_reducible assumption
    | intro _
    | extract_lets
    | with_reducible refine keeps_ite ?_ ?_
    | with_reducible refine answer_keeps ?_
    | fail_if_no_progress with_reducible refine keeps_upd ?_ rfl rfl rfl rfl rfl rfl rfl rfl rfl rfl rfl rfl rfl rfl rfl rfl rfl rfl rfl rfl rfl
    | split

theorem execSetEndpointId_keeps {σ : State} {eid : Nat} {source : Nat} {s : State} (h_s : Keeps σ s) :
    ∃ τ, execSetEndpointId eid source s = .next τ ∧ Keeps σ τ := by
  refine ⟨_, rfl, ?_⟩
  repeat' first
    | with_reducible assumption
    | intro _
    | with_reducible refine setEndpointId_keeps ?_

theorem execGetEndpointId_keeps {σ : State} {s : State} (h_s : Keeps σ s) :
    ∃ τ, execGetEndpointId s = .next τ ∧ Keeps σ τ := by
  refine ⟨_, rfl, ?_⟩
  repeat' first
    | with_reducible assumption
    | intro _
    | with_reducible refine answered_keeps ?_

theorem execGetMctpVersionSupport_keeps {σ : State} {s : State} (h_s : Keeps σ s) :
    ∃ τ, execGetMctpVersionSupport s = .next τ ∧ Keeps σ τ := by
  refine ⟨_, rfl, ?_⟩
  repeat' first
    | with_reducible assumption
    | intro _
    | with_reducible refine answered_keeps ?_

theorem execGetMessageTypeSupport_keeps {σ : State} {s : State} (h_s : Keeps σ s) :
    ∃ τ, execGetMessageTypeSupport s = .next τ ∧ Keeps σ τ := by
  refine ⟨_, rfl, ?_⟩
  repeat' first
    | with_reducible assumption
    | intro _
    | with_reducible refine answered_keeps ?_

theorem execGetTid_keeps {σ : State} {s : State} (h_s : Keeps σ s) :
    ∃ τ, execGetTid s = .next τ ∧ Keeps σ τ := by
  refine ⟨_, rfl, ?_⟩
  repeat' first
    | with_reducible assumption
    | intro _
    | with_reducible refine answered_keeps ?_

theorem execGetPldmVersion_keeps {σ : State} {pldmType : Nat} {s : State} (h_s : Keeps σ s) :
    ∃ τ, execGetPldmVersion pldmType s = .next τ ∧ Keeps σ τ := by
  refine ⟨_, rfl, ?_⟩
  repeat' first
    | with_reducible assumption
    | intro _
    | with_reducible refine answered_keeps ?_

theorem execGetPldmTypes_keeps {σ : State} {s : State} (h_s : Keeps σ s) :
    ∃ τ, execGetPldmTypes s = .next τ ∧ Keeps σ τ := by
  refine ⟨_, rfl, ?_⟩
  repeat' first
    | with_reducible assumption
    | intro _
    | with_reducible refine answered_keeps ?_

theorem execGetPldmCommands_keeps {σ : State} {pldmType : Nat} {s : State} (h_s : Keeps σ s) :
    ∃ τ, execGetPldmCommands pldmType s = .next τ ∧ Keeps σ τ := by
  refine ⟨_, rfl, ?_⟩
  repeat' first
    | with_reducible assumption
    | intro _
    | with_reducible refine answered_keeps ?_

theorem execGetPdr_keeps {σ : State} {record : Nat} {s : State} (h_s : Keeps σ s) :
    ∃ τ, execGetPdr record s = .next τ ∧ Keeps σ τ := by
  refine ⟨_, rfl, ?_⟩
  repeat' first
    | with_reducible assumption
    | intro _
    | with_reducible refine answered_keeps ?_

theorem execGetPdrRepositoryInfo_keeps {σ : State} {s : State} (h_s : Keeps σ s) :
    ∃ τ, execGetPdrRepositoryInfo s = .next τ ∧ Keeps σ τ := by
  refine ⟨_, rfl, ?_⟩
  repeat' first
    | with_reducible assumption
    | intro _
    | with_reducible refine answered_keeps ?_

theorem execGetNumericSensorReading_keeps {σ : State} {sensor : Nat} {s : State} (h_s : Keeps σ s) :
    ∃ τ, execGetNumericSensorReading sensor s = .next τ ∧ Keeps σ τ := by
  refine ⟨_, rfl, ?_⟩
  repeat' first
    | with_reducible assumption
    | intro _
    | with_reducible refine answered_keeps ?_

theorem execGetStateSensorReadings_keeps {σ : State} {sensor : Nat} {s : State} (h_s : Keeps σ s) :
    ∃ τ, execGetStateSensorReadings sensor s = .next τ ∧ Keeps σ τ := by
  refine ⟨_, rfl, ?_⟩
  repeat' first
    | with_reducible assumption
    | intro _
    | with_reducible refine answered_keeps ?_

theorem execEventMessageSupported_keeps {σ : State} {s : State} (h_s : Keeps σ s) :
    ∃ τ, execEventMessageSupported s = .next τ ∧ Keeps σ τ := by
  refine ⟨_, rfl, ?_⟩
  repeat' first
    | with_reducible assumption
    | intro _
    | with_reducible refine answered_keeps ?_

theorem eventBufferSize_keeps {σ : State} {n : Nat} {s : State} (h_s : Keeps σ s) :
    Keeps σ (eventBufferSize n s) := by
  unfold eventBufferSize
  repeat' first
    | with_reducible assumption
    | intro _
    | with_reducible refine keeps_ite ?_ ?_
    | with_reducible refine answer_keeps ?_
    | fail_if_no_progress with_reducible refine keeps_upd ?_ rfl rfl rfl rfl rfl rfl rfl rfl rfl rfl rfl rfl rfl rfl rfl rfl rfl rfl rfl rfl rfl
    | split

theorem execEventMessageBufferSize_keeps {σ : State} {size : Nat} {s : State} (h_s : Keeps σ s) :
    ∃ τ, execEventMessageBufferSize size s = .next τ ∧ Keeps σ τ := by
  refine ⟨_, rfl, ?_⟩
  repeat' first
    | with_reducible assumption
    | intro _
    | with_reducible refine eventBufferSize_keeps ?_

theorem pollEvent_keeps {σ : State} {ack : Bool} {s : State} (h_s : Keeps σ s) :
    Keeps σ (pollEvent ack s) := by
  unfold pollEvent
  repeat' first
    | with_reducible assumption
    | intro _
    | with_reducible refine keeps_ite ?_ ?_
    | with_reducible refine answer_keeps ?_
    | fail_if_no_progress with_reducible refine keeps_upd ?_ rfl rfl rfl rfl rfl rfl rfl rfl rfl rfl rfl rfl rfl rfl rfl rfl rfl rfl rfl rfl rfl
    | split

theorem execPollForPlatformEventMessage_keeps {σ : State} {ack : Bool} {s : State} (h_s : Keeps σ s) :
    ∃ τ, execPollForPlatformEventMessage ack s = .next τ ∧ Keeps σ τ := by
  refine ⟨_, rfl, ?_⟩
  repeat' first
    | with_reducible assumption
    | intro _
    | with_reducible refine pollEvent_keeps ?_

theorem execGetFruRecordTableMetadata_keeps {σ : State} {s : State} (h_s : Keeps σ s) :
    ∃ τ, execGetFruRecordTableMetadata s = .next τ ∧ Keeps σ τ := by
  refine ⟨_, rfl, ?_⟩
  repeat' first
    | with_reducible assumption
    | intro _
    | with_reducible refine answered_keeps ?_

theorem execGetFruRecordTable_keeps {σ : State} {s : State} (h_s : Keeps σ s) :
    ∃ τ, execGetFruRecordTable s = .next τ ∧ Keeps σ τ := by
  refine ⟨_, rfl, ?_⟩
  repeat' first
    | with_reducible assumption
    | intro _
    | with_reducible refine answered_keeps ?_

theorem winRead_keeps {σ : State} {off : Nat} {size : Nat} {s : State} (h_s : Keeps σ s) :
    Keeps σ (winRead off size s) := by
  unfold winRead
  repeat' first
    | with_reducible assumption
    | intro _
    | extract_lets
    | with_reducible refine keeps_ite ?_ ?_
    | with_reducible refine answer_keeps ?_
    | with_reducible refine readWindow_keeps ?_
    | split

theorem execWinRead_keeps {σ : State} {off : Nat} {size : Nat} {s : State} (h_s : Keeps σ s) :
    ∃ τ, execWinRead off size s = .next τ ∧ Keeps σ τ := by
  refine ⟨_, rfl, ?_⟩
  repeat' first
    | with_reducible assumption
    | intro _
    | with_reducible refine winRead_keeps ?_

theorem winWrite_keeps {σ : State} {off : Nat} {size : Nat} {d : Dword} {s : State} (h_s : Keeps σ s) :
    Keeps σ (winWrite off size d s) := by
  unfold winWrite
  repeat' first
    | with_reducible assumption
    | intro _
    | with_reducible refine keeps_ite ?_ ?_
    | with_reducible refine answer_keeps ?_
    | with_reducible refine writeWindow_keeps ?_
    | with_reducible refine raise_keeps ?_
    | split

theorem execWinWrite_keeps {σ : State} {off : Nat} {size : Nat} {data : Dword} {s : State} (h_s : Keeps σ s) :
    ∃ τ, execWinWrite off size data s = .next τ ∧ Keeps σ τ := by
  refine ⟨_, rfl, ?_⟩
  repeat' first
    | with_reducible assumption
    | intro _
    | with_reducible refine winWrite_keeps ?_

end Sys2Proof.Machine
end

