-- ==== Sys2Proof/Laws/KeepStep.lean ====
section
/-!
SUPPORT. No command and no step changes what `Keeps` names: every arm of `exec` answers a next state that keeps it.
-/
set_option Elab.async false
namespace Sys2Proof.Machine
open Sys2Proof

theorem exec_keeps (i : Instr) (s : State) : ∃ t, exec i s = .next t ∧ Keeps s t := by
  have h := Keeps.refl s
  cases i with
  | nop _ _ => exact execNop_keeps h
  | tensor _ _ => exact execTensor_keeps h
  | add _ _ => exact execAdd_keeps h
  | mul _ _ => exact execMul_keeps h
  | fma _ _ => exact execFma_keeps h
  | max _ _ => exact execMax_keeps h
  | exp _ _ => exact execExp_keeps h
  | rcp _ _ => exact execRcp_keeps h
  | rsqrt _ _ => exact execRsqrt_keeps h
  | sumred _ _ => exact execSumred_keeps h
  | maxred _ _ => exact execMaxred_keeps h
  | cvt _ _ => exact execCvt_keeps h
  | scale _ _ => exact execScale_keeps h
  | qnt _ _ => exact execQnt_keeps h
  | s24enc _ _ => exact execS24enc_keeps h
  | s24dec _ _ => exact execS24dec_keeps h
  | rng _ _ => exact execRng_keeps h
  | move _ _ => exact execMove_keeps h
  | wait _ _ => exact execWait_keeps h
  | waitComplete _ => exact execWaitComplete_keeps h
  | sync _ _ => exact execSync_keeps h
  | jump _ _ => exact execJump_keeps h
  | illegalInstruction _ _ => exact execIllegalInstruction_keeps h
  | accessAged _ _ => exact execAccessAged_keeps h
  | flitLanding _ _ _ => exact execFlitLanding_keeps h
  | multicastCopy _ _ _ => exact execMulticastCopy_keeps h
  | reductionCombine _ _ _ => exact execReductionCombine_keeps h
  | linkCrcError _ _ _ _ => exact execLinkCrcError_keeps h
  | nak _ _ _ _ => exact execNak_keeps h
  | linkFail _ _ => exact execLinkFail_keeps h
  | replayBufferRelease _ _ _ => exact execReplayBufferRelease_keeps h
  | vc0Discard _ _ => exact execVc0Discard_keeps h
  | cfgRead _ _ => exact execCfgRead_keeps h
  | cfgWrite _ _ _ => exact execCfgWrite_keeps h
  | cfgRsp _ _ => exact execCfgRsp_keeps h
  | fabCalderaWrite _ _ => exact execFabCalderaWrite_keeps h
  | eccWriteback _ _ _ => exact execEccWriteback_keeps h
  | scrubRead _ _ _ => exact execScrubRead_keeps h
  | scrubAged _ => exact execScrubAged_keeps h
  | scrubLate _ _ => exact execScrubLate_keeps h
  | precisionEventCollect => exact execPrecisionEventCollect_keeps h
  | widenEnd _ _ => exact execWidenEnd_keeps h
  | modelRecipeWrite _ _ => exact execModelRecipeWrite_keeps h
  | recipeWinDataWrite _ => exact execRecipeWinDataWrite_keeps h
  | holdTest => exact execHoldTest_keeps h
  | holdDecision _ => exact execHoldDecision_keeps h
  | slotBoundary => exact execSlotBoundary_keeps h
  | longHold => exact execLongHold_keeps h
  | stall _ => exact execStall_keeps h
  | loadGo _ => exact execLoadGo_keeps h
  | loadCheckDone _ => exact execLoadCheckDone_keeps h
  | hostHold _ => exact execHostHold_keeps h
  | extEn _ => exact execExtEn_keeps h
  | beatEdge _ _ => exact execBeatEdge_keeps h
  | internalBeat _ => exact execInternalBeat_keeps h
  | holdover _ => exact execHoldover_keeps h
  | beatLoss _ => exact execBeatLoss_keeps h
  | frameStart _ => exact execFrameStart_keeps h
  | kvRead _ _ _ => exact execKvRead_keeps h
  | kvWrite _ _ _ _ => exact execKvWrite_keeps h
  | linRead _ _ _ => exact execLinRead_keeps h
  | linWrite _ _ _ _ => exact execLinWrite_keeps h
  | patrolRead _ _ _ => exact execPatrolRead_keeps h
  | stackScrubLate _ _ => exact execStackScrubLate_keeps h
  | poolEnable _ => exact execPoolEnable_keeps h
  | poolDisable _ => exact execPoolDisable_keeps h
  | posLimitWrite _ _ => exact execPosLimitWrite_keeps h
  | ringEnable _ _ => exact execRingEnable_keeps h
  | submit _ _ => exact execSubmit_keeps h
  | cancel _ _ => exact execCancel_keeps h
  | prefixCreate _ _ => exact execPrefixCreate_keeps h
  | prefixRelease _ _ => exact execPrefixRelease_keeps h
  | openModel _ _ => exact execOpenModel_keeps h
  | closeModel _ _ => exact execCloseModel_keeps h
  | closeComplete _ => exact execCloseComplete_keeps h
  | loadWeights _ _ _ => exact execLoadWeights_keeps h
  | loadReceive _ _ => exact execLoadReceive_keeps h
  | loadReceiveTimeout _ => exact execLoadReceiveTimeout_keeps h
  | readback _ _ => exact execReadback_keeps h
  | stepResult _ _ => exact execStepResult_keeps h
  | stepCommit _ => exact execStepCommit_keeps h
  | outputRoomWrite _ _ => exact execOutputRoomWrite_keeps h
  | hotWindowFill _ => exact execHotWindowFill_keeps h
  | pinnedWrite _ _ => exact execPinnedWrite_keeps h
  | run => exact execRun_keeps h
  | pause => exact execPause_keeps h
  | abort => exact execAbort_keeps h
  | discard => exact execDiscard_keeps h
  | tuneBlockComplete _ => exact execTuneBlockComplete_keeps h
  | presenceDetect _ _ => exact execPresenceDetect_keeps h
  | equalisationEnd _ _ => exact execEqualisationEnd_keeps h
  | alignment _ _ => exact execAlignment_keeps h
  | params _ _ _ => exact execParams_keeps h
  | retrainComplete _ _ _ => exact execRetrainComplete_keeps h
  | linkDown _ _ => exact execLinkDown_keeps h
  | linkRetry _ _ => exact execLinkRetry_keeps h
  | oclDownTimeout => exact execOclDownTimeout_keeps h
  | payloadFlit _ _ _ => exact execPayloadFlit_keeps h
  | idleFlit _ _ _ => exact execIdleFlit_keeps h
  | nakFlit _ _ _ => exact execNakFlit_keeps h
  | retrainFlit _ _ _ => exact execRetrainFlit_keeps h
  | nakResend _ => exact execNakResend_keeps h
  | ackTimeout _ _ => exact execAckTimeout_keeps h
  | mmioRd _ _ _ => exact execMmioRd_keeps h
  | mmioWr _ _ _ _ => exact execMmioWr_keeps h
  | snpInv _ => exact execSnpInv_keeps h
  | cplData _ _ _ _ _ => exact execCplData_keeps h
  | credit _ _ _ => exact execCredit_keeps h
  | intrModeration _ => exact execIntrModeration_keeps h
  | cplTimeout _ => exact execCplTimeout_keeps h
  | doorbell _ => exact execDoorbell_keeps h
  | oclEncMode _ => exact execOclEncMode_keeps h
  | oclCtrlRetrain _ => exact execOclCtrlRetrain_keeps h
  | fail _ _ => exact execFail_keeps h
  | frame _ _ => exact execFrame_keeps h
  | ack _ => exact execAck_keeps h
  | cmd _ => exact execCmd_keeps h
  | tokensIn _ => exact execTokensIn_keeps h
  | kv _ => exact execKv_keeps h
  | seqstate _ => exact execSeqstate_keeps h
  | commit _ => exact execCommit_keeps h
  | pfx _ => exact execPfx_keeps h
  | pageReq _ => exact execPageReq_keeps h
  | pageData _ => exact execPageData_keeps h
  | pass _ => exact execPass_keeps h
  | passRsp _ => exact execPassRsp_keeps h
  | xing _ => exact execXing_keeps h
  | result _ => exact execResult_keeps h
  | scommit _ _ _ => exact execScommit_keeps h
  | spanCredit _ _ _ => exact execSpanCredit_keeps h
  | splitLaunch _ _ => exact execSplitLaunch_keeps h
  | pairModeWrite _ => exact execPairModeWrite_keeps h
  | isolate _ => exact execIsolate_keeps h
  | takeover => exact execTakeover_keeps h
  | release => exact execRelease_keeps h
  | resync => exact execResync_keeps h
  | takeoverComplete => exact execTakeoverComplete_keeps h
  | syncingComplete => exact execSyncingComplete_keeps h
  | faultReport _ _ => exact execFaultReport_keeps h
  | cellReset _ => exact execCellReset_keeps h
  | clusterReset _ => exact execClusterReset_keeps h
  | partitionReset _ => exact execPartitionReset_keeps h
  | wholeReset => exact execWholeReset_keeps h
  | reset => exact execReset_keeps h
  | drainDone => exact execDrainDone_keeps h
  | absorbDone _ => exact execAbsorbDone_keeps h
  | releaseDone => exact execReleaseDone_keeps h
  | drainTimeout => exact execDrainTimeout_keeps h
  | ringFill _ _ => exact execRingFill_keeps h
  | slotFill _ _ => exact execSlotFill_keeps h
  | audit _ _ _ => exact execAudit_keeps h
  | forceFatal => exact execForceFatal_keeps h
  | voltageSample _ => exact execVoltageSample_keeps h
  | vcmRecovered => exact execVcmRecovered_keeps h
  | vcmNorecover => exact execVcmNorecover_keeps h
  | feedOk _ => exact execFeedOk_keeps h
  | feedLost _ => exact execFeedLost_keeps h
  | bothFeedsLost => exact execBothFeedsLost_keeps h
  | feedShare => exact execFeedShare_keeps h
  | phaseFault _ _ => exact execPhaseFault_keeps h
  | powerLevelAdjust _ => exact execPowerLevelAdjust_keeps h
  | capAdjust => exact execCapAdjust_keeps h
  | pwrCapWrite _ => exact execPwrCapWrite_keeps h
  | thermalSample _ => exact execThermalSample_keeps h
  | pairSuspect _ _ => exact execPairSuspect_keeps h
  | noPairs _ => exact execNoPairs_keeps h
  | thermalTrip => exact execThermalTrip_keeps h
  | pwrOffReq => exact execPwrOffReq_keeps h
  | inlet => exact execInlet_keeps h
  | flowPulse _ _ => exact execFlowPulse_keeps h
  | flowUpdate => exact execFlowUpdate_keeps h
  | flowPulseTimeout _ => exact execFlowPulseTimeout_keeps h
  | coolOk _ _ _ => exact execCoolOk_keeps h
  | coolantStopped => exact execCoolantStopped_keeps h
  | coolantResume => exact execCoolantResume_keeps h
  | coolCfgWrite _ => exact execCoolCfgWrite_keeps h
  | thrReloc _ => exact execThrReloc_keeps h
  | start _ => exact execStart_keeps h
  | coolOkTimeout => exact execCoolOkTimeout_keeps h
  | startTimeout => exact execStartTimeout_keeps h
  | stageImage _ => exact execStageImage_keeps h
  | stageStartRecord _ => exact execStageStartRecord_keeps h
  | stageJournalDump => exact execStageJournalDump_keeps h
  | stageDone _ => exact execStageDone_keeps h
  | journalWrite _ => exact execJournalWrite_keeps h
  | pressComplete => exact execPressComplete_keeps h
  | journalEraseDone => exact execJournalEraseDone_keeps h
  | shutdown _ => exact execShutdown_keeps h
  | bistWave _ _ => exact execBistWave_keeps h
  | clr => exact execClr_keeps h
  | restart => exact execRestart_keeps h
  | attest => exact execAttest_keeps h
  | identityBuilt => exact execIdentityBuilt_keeps h
  | kemStart => exact execKemStart_keeps h
  | kemFinish => exact execKemFinish_keeps h
  | kemSwitch => exact execKemSwitch_keeps h
  | kemKeyExpiry => exact execKemKeyExpiry_keeps h
  | zeroise _ => exact execZeroise_keeps h
  | zeroiseDone => exact execZeroiseDone_keeps h
  | identity => exact execIdentity_keeps h
  | svnCommit => exact execSvnCommit_keeps h
  | releaseFlit _ _ => exact execReleaseFlit_keeps h
  | pageZeroiseDone _ _ => exact execPageZeroiseDone_keeps h
  | cellWinRead => exact execCellWinRead_keeps h
  | cellWinWrite => exact execCellWinWrite_keeps h
  | cellWinTimeout => exact execCellWinTimeout_keeps h
  | cellWinAgentFree => exact execCellWinAgentFree_keeps h
  | registerWrite _ _ => exact execRegisterWrite_keeps h
  | nresetAssert => exact execNresetAssert_keeps h
  | nresetRelease _ => exact execNresetRelease_keeps h
  | resetShort => exact execResetShort_keeps h
  | nholdExt _ _ _ => exact execNholdExt_keeps h
  | extStuck => exact execExtStuck_keeps h
  | flowNoise _ => exact execFlowNoise_keeps h
  | entdaa _ => exact execEntdaa_keeps h
  | setdasa _ => exact execSetdasa_keeps h
  | rstdaa => exact execRstdaa_keeps h
  | enec _ => exact execEnec_keeps h
  | disec _ => exact execDisec_keeps h
  | getpid => exact execGetpid_keeps h
  | getbcr => exact execGetbcr_keeps h
  | getdcr => exact execGetdcr_keeps h
  | getstatus => exact execGetstatus_keeps h
  | getmxds => exact execGetmxds_keeps h
  | setmwl _ => exact execSetmwl_keeps h
  | setmrl _ => exact execSetmrl_keeps h
  | rstact _ => exact execRstact_keeps h
  | setEndpointId _ _ => exact execSetEndpointId_keeps h
  | getEndpointId => exact execGetEndpointId_keeps h
  | getMctpVersionSupport => exact execGetMctpVersionSupport_keeps h
  | getMessageTypeSupport => exact execGetMessageTypeSupport_keeps h
  | getTid => exact execGetTid_keeps h
  | getPldmVersion _ => exact execGetPldmVersion_keeps h
  | getPldmTypes => exact execGetPldmTypes_keeps h
  | getPldmCommands _ => exact execGetPldmCommands_keeps h
  | getPdr _ => exact execGetPdr_keeps h
  | getPdrRepositoryInfo => exact execGetPdrRepositoryInfo_keeps h
  | getNumericSensorReading _ => exact execGetNumericSensorReading_keeps h
  | getStateSensorReadings _ => exact execGetStateSensorReadings_keeps h
  | eventMessageSupported => exact execEventMessageSupported_keeps h
  | eventMessageBufferSize _ => exact execEventMessageBufferSize_keeps h
  | pollForPlatformEventMessage _ => exact execPollForPlatformEventMessage_keeps h
  | getFruRecordTableMetadata => exact execGetFruRecordTableMetadata_keeps h
  | getFruRecordTable => exact execGetFruRecordTable_keeps h
  | winRead _ _ => exact execWinRead_keeps h
  | winWrite _ _ _ => exact execWinWrite_keeps h
  | stackLost _ => exact execStackLost_keeps h
  | brynodorWatchdog => exact execBrynodorWatchdog_keeps h
  | history _ => exact execHistory_keeps h

/-- What one command keeps. -/
theorem keeps_of_exec {i : Instr} {s t : State} (h : exec i s = .next t) : Keeps s t := by
  obtain ⟨u, hu, k⟩ := exec_keeps i s
  rw [hu] at h
  cases h
  exact k

/-- A step performs the command at the front, with the rest of the queue in place. -/
theorem step_cons {i : Instr} {l : List Instr} {s : State} (h : s.pending = i :: l) : step s = exec i { s with pending := l } := by
  unfold step
  rw [h]

theorem step_nil {s : State} (h : s.pending = []) : step s = .next s := by
  unfold step
  rw [h]

/-- What a step does, queue and all. -/
theorem step_cases {s t : State} (h : step s = .next t) :
    (s.pending = [] ∧ t = s) ∨ ∃ i l, s.pending = i :: l ∧ exec i { s with pending := l } = .next t := by
  cases hp : s.pending with
  | nil =>
    rw [step_nil hp] at h
    cases h
    exact .inl ⟨rfl, rfl⟩
  | cons i l =>
    rw [step_cons hp] at h
    exact .inr ⟨i, l, rfl, h⟩

end Sys2Proof.Machine
end

