-- ==== Sys2Proof/Laws/PerInstr.lean ====
section
/-!
SUPPORT. A statement of every command as syntax: the cell or router that a well-formed command names is a cell of the wafer, with a
field, a row and a column that give its linear number back (R6 to R8).
-/
set_option Elab.async false
namespace Sys2Proof.Laws
open Sys2Proof Sys2Proof.Machine

/-- The cell or router that a command names. -/
def cellNamed (i : Instr) : Option Nat :=
  match i with
  | .nop cell _ => some cell
  | .tensor cell _ => some cell
  | .add cell _ => some cell
  | .mul cell _ => some cell
  | .fma cell _ => some cell
  | .max cell _ => some cell
  | .exp cell _ => some cell
  | .rcp cell _ => some cell
  | .rsqrt cell _ => some cell
  | .sumred cell _ => some cell
  | .maxred cell _ => some cell
  | .cvt cell _ => some cell
  | .scale cell _ => some cell
  | .qnt cell _ => some cell
  | .s24enc cell _ => some cell
  | .s24dec cell _ => some cell
  | .rng cell _ => some cell
  | .move cell _ => some cell
  | .wait cell _ => some cell
  | .waitComplete cell => some cell
  | .sync cell _ => some cell
  | .jump cell _ => some cell
  | .illegalInstruction cell _ => some cell
  | .accessAged cell _ => some cell
  | .flitLanding cell _ _ => some cell
  | .multicastCopy router _ _ => some router
  | .reductionCombine router _ _ => some router
  | .linkCrcError router _ _ _ => some router
  | .nak router _ _ _ => some router
  | .linkFail router _ => some router
  | .replayBufferRelease router _ _ => some router
  | .vc0Discard router _ => some router
  | .cfgRead cell _ => some cell
  | .cfgWrite cell _ _ => some cell
  | .cfgRsp _ _ => none
  | .fabCalderaWrite _ _ => none
  | .eccWriteback cell _ _ => some cell
  | .scrubRead cell _ _ => some cell
  | .scrubAged cell => some cell
  | .scrubLate cell _ => some cell
  | .precisionEventCollect => none
  | .widenEnd _ _ => none
  | .modelRecipeWrite _ _ => none
  | .recipeWinDataWrite _ => none
  | .holdTest => none
  | .holdDecision _ => none
  | .slotBoundary => none
  | .longHold => none
  | .stall cell => some cell
  | .loadGo _ => none
  | .loadCheckDone _ => none
  | .hostHold _ => none
  | .extEn _ => none
  | .beatEdge _ _ => none
  | .internalBeat _ => none
  | .holdover _ => none
  | .beatLoss _ => none
  | .frameStart _ => none
  | .kvRead _ _ _ => none
  | .kvWrite _ _ _ _ => none
  | .linRead _ _ _ => none
  | .linWrite _ _ _ _ => none
  | .patrolRead _ _ _ => none
  | .stackScrubLate _ _ => none
  | .poolEnable _ => none
  | .poolDisable _ => none
  | .posLimitWrite _ _ => none
  | .ringEnable _ _ => none
  | .submit _ _ => none
  | .cancel _ _ => none
  | .prefixCreate _ _ => none
  | .prefixRelease _ _ => none
  | .openModel _ _ => none
  | .closeModel _ _ => none
  | .closeComplete _ => none
  | .loadWeights _ _ _ => none
  | .loadReceive _ _ => none
  | .loadReceiveTimeout _ => none
  | .readback _ _ => none
  | .stepResult _ _ => none
  | .stepCommit _ => none
  | .outputRoomWrite _ _ => none
  | .hotWindowFill _ => none
  | .pinnedWrite _ _ => none
  | .run => none
  | .pause => none
  | .abort => none
  | .discard => none
  | .tuneBlockComplete _ => none
  | .presenceDetect _ _ => none
  | .equalisationEnd _ _ => none
  | .alignment _ _ => none
  | .params _ _ _ => none
  | .retrainComplete _ _ _ => none
  | .linkDown _ _ => none
  | .linkRetry _ _ => none
  | .oclDownTimeout => none
  | .payloadFlit _ _ _ => none
  | .idleFlit _ _ _ => none
  | .nakFlit _ _ _ => none
  | .retrainFlit _ _ _ => none
  | .nakResend _ => none
  | .ackTimeout _ _ => none
  | .mmioRd _ _ _ => none
  | .mmioWr _ _ _ _ => none
  | .snpInv _ => none
  | .cplData _ _ _ _ _ => none
  | .credit _ _ _ => none
  | .intrModeration _ => none
  | .cplTimeout _ => none
  | .doorbell _ => none
  | .oclEncMode _ => none
  | .oclCtrlRetrain _ => none
  | .fail _ _ => none
  | .frame _ _ => none
  | .ack _ => none
  | .cmd _ => none
  | .tokensIn _ => none
  | .kv _ => none
  | .seqstate _ => none
  | .commit _ => none
  | .pfx _ => none
  | .pageReq _ => none
  | .pageData _ => none
  | .pass _ => none
  | .passRsp _ => none
  | .xing _ => none
  | .result _ => none
  | .scommit _ _ _ => none
  | .spanCredit _ _ _ => none
  | .splitLaunch _ _ => none
  | .pairModeWrite _ => none
  | .isolate _ => none
  | .takeover => none
  | .release => none
  | .resync => none
  | .takeoverComplete => none
  | .syncingComplete => none
  | .faultReport _ cell => some cell
  | .cellReset cell => some cell
  | .clusterReset cell => some cell
  | .partitionReset cell => some cell
  | .wholeReset => none
  | .reset => none
  | .drainDone => none
  | .absorbDone _ => none
  | .releaseDone => none
  | .drainTimeout => none
  | .ringFill cell _ => some cell
  | .slotFill cell _ => some cell
  | .audit router _ _ => some router
  | .forceFatal => none
  | .voltageSample _ => none
  | .vcmRecovered => none
  | .vcmNorecover => none
  | .feedOk _ => none
  | .feedLost _ => none
  | .bothFeedsLost => none
  | .feedShare => none
  | .phaseFault _ _ => none
  | .powerLevelAdjust _ => none
  | .capAdjust => none
  | .pwrCapWrite _ => none
  | .thermalSample _ => none
  | .pairSuspect _ _ => none
  | .noPairs _ => none
  | .thermalTrip => none
  | .pwrOffReq => none
  | .inlet => none
  | .flowPulse _ _ => none
  | .flowUpdate => none
  | .flowPulseTimeout _ => none
  | .coolOk _ _ _ => none
  | .coolantStopped => none
  | .coolantResume => none
  | .coolCfgWrite _ => none
  | .thrReloc _ => none
  | .start _ => none
  | .coolOkTimeout => none
  | .startTimeout => none
  | .stageImage _ => none
  | .stageStartRecord _ => none
  | .stageJournalDump => none
  | .stageDone _ => none
  | .journalWrite _ => none
  | .pressComplete => none
  | .journalEraseDone => none
  | .shutdown _ => none
  | .bistWave _ _ => none
  | .clr => none
  | .restart => none
  | .attest => none
  | .identityBuilt => none
  | .kemStart => none
  | .kemFinish => none
  | .kemSwitch => none
  | .kemKeyExpiry => none
  | .zeroise _ => none
  | .zeroiseDone => none
  | .identity => none
  | .svnCommit => none
  | .releaseFlit cell _ => some cell
  | .pageZeroiseDone _ _ => none
  | .cellWinRead => none
  | .cellWinWrite => none
  | .cellWinTimeout => none
  | .cellWinAgentFree => none
  | .registerWrite _ _ => none
  | .nresetAssert => none
  | .nresetRelease _ => none
  | .resetShort => none
  | .nholdExt _ _ _ => none
  | .extStuck => none
  | .flowNoise _ => none
  | .entdaa _ => none
  | .setdasa _ => none
  | .rstdaa => none
  | .enec _ => none
  | .disec _ => none
  | .getpid => none
  | .getbcr => none
  | .getdcr => none
  | .getstatus => none
  | .getmxds => none
  | .setmwl _ => none
  | .setmrl _ => none
  | .rstact _ => none
  | .setEndpointId _ _ => none
  | .getEndpointId => none
  | .getMctpVersionSupport => none
  | .getMessageTypeSupport => none
  | .getTid => none
  | .getPldmVersion _ => none
  | .getPldmTypes => none
  | .getPldmCommands _ => none
  | .getPdr _ => none
  | .getPdrRepositoryInfo => none
  | .getNumericSensorReading _ => none
  | .getStateSensorReadings _ => none
  | .eventMessageSupported => none
  | .eventMessageBufferSize _ => none
  | .pollForPlatformEventMessage _ => none
  | .getFruRecordTableMetadata => none
  | .getFruRecordTable => none
  | .winRead _ _ => none
  | .winWrite _ _ _ => none
  | .stackLost _ => none
  | .brynodorWatchdog => none
  | .history _ => none

/-- A cell number below 221,184 lies in one of the 72 fields and is given back by its field, row and column. -/
theorem cell_in_field (c : Nat) (h : c < 221184) :
    fieldOfCell c < 72 ∧ rowOf c < 24 ∧ colOf c < 128 ∧ cellAt (fieldOfCell c) (rowOf c) (colOf c) = c := by
  simp only [fieldOfCell, rowOf, colOf, cellAt, grow, gcol]
  omega

/-- The cell that a well-formed command names has a place on the wafer. -/
def NamesACell.Statement (i : Instr) : Prop :=
  i.wellFormed = true → ∀ c, cellNamed i = some c →
    fieldOfCell c < 72 ∧ rowOf c < 24 ∧ colOf c < 128 ∧ cellAt (fieldOfCell c) (rowOf c) (colOf c) = c

/-- From the check of a command's cell. -/
theorem NamesACell.ofCheck {i : Instr} {d : Nat} (n : cellNamed i = some d) (h : i.wellFormed = true → isCell d = true) :
    NamesACell.Statement i := fun w c e => by
  rw [n] at e
  cases e
  exact cell_in_field d (of_decide_eq_true (h w))

/-- Of a command that names no cell. -/
theorem NamesACell.ofNone {i : Instr} (n : cellNamed i = none) : NamesACell.Statement i := fun _ c e => by
  rw [n] at e
  cases e

theorem NamesACell.nop : ∀ a0 a1, NamesACell.Statement (.nop a0 a1) := fun _ _ => NamesACell.ofCheck rfl id
theorem NamesACell.tensor : ∀ a0 a1, NamesACell.Statement (.tensor a0 a1) := fun _ _ => NamesACell.ofCheck rfl id
theorem NamesACell.add : ∀ a0 a1, NamesACell.Statement (.add a0 a1) := fun _ _ => NamesACell.ofCheck rfl id
theorem NamesACell.mul : ∀ a0 a1, NamesACell.Statement (.mul a0 a1) := fun _ _ => NamesACell.ofCheck rfl id
theorem NamesACell.fma : ∀ a0 a1, NamesACell.Statement (.fma a0 a1) := fun _ _ => NamesACell.ofCheck rfl id
theorem NamesACell.max : ∀ a0 a1, NamesACell.Statement (.max a0 a1) := fun _ _ => NamesACell.ofCheck rfl id
theorem NamesACell.exp : ∀ a0 a1, NamesACell.Statement (.exp a0 a1) := fun _ _ => NamesACell.ofCheck rfl id
theorem NamesACell.rcp : ∀ a0 a1, NamesACell.Statement (.rcp a0 a1) := fun _ _ => NamesACell.ofCheck rfl id
theorem NamesACell.rsqrt : ∀ a0 a1, NamesACell.Statement (.rsqrt a0 a1) := fun _ _ => NamesACell.ofCheck rfl id
theorem NamesACell.sumred : ∀ a0 a1, NamesACell.Statement (.sumred a0 a1) := fun _ _ => NamesACell.ofCheck rfl id
theorem NamesACell.maxred : ∀ a0 a1, NamesACell.Statement (.maxred a0 a1) := fun _ _ => NamesACell.ofCheck rfl id
theorem NamesACell.cvt : ∀ a0 a1, NamesACell.Statement (.cvt a0 a1) := fun _ _ => NamesACell.ofCheck rfl id
theorem NamesACell.scale : ∀ a0 a1, NamesACell.Statement (.scale a0 a1) := fun _ _ => NamesACell.ofCheck rfl id
theorem NamesACell.qnt : ∀ a0 a1, NamesACell.Statement (.qnt a0 a1) := fun _ _ => NamesACell.ofCheck rfl id
theorem NamesACell.s24enc : ∀ a0 a1, NamesACell.Statement (.s24enc a0 a1) := fun _ _ => NamesACell.ofCheck rfl id
theorem NamesACell.s24dec : ∀ a0 a1, NamesACell.Statement (.s24dec a0 a1) := fun _ _ => NamesACell.ofCheck rfl id
theorem NamesACell.rng : ∀ a0 a1, NamesACell.Statement (.rng a0 a1) := fun _ _ => NamesACell.ofCheck rfl id
theorem NamesACell.move : ∀ a0 a1, NamesACell.Statement (.move a0 a1) := fun _ _ => NamesACell.ofCheck rfl id
theorem NamesACell.wait : ∀ a0 a1, NamesACell.Statement (.wait a0 a1) := fun _ _ => NamesACell.ofCheck rfl id
theorem NamesACell.waitComplete : ∀ a0, NamesACell.Statement (.waitComplete a0) := fun _ => NamesACell.ofCheck rfl id
theorem NamesACell.sync : ∀ a0 a1, NamesACell.Statement (.sync a0 a1) := fun _ _ => NamesACell.ofCheck rfl id
theorem NamesACell.jump : ∀ a0 a1, NamesACell.Statement (.jump a0 a1) := fun _ _ => NamesACell.ofCheck rfl id
theorem NamesACell.illegalInstruction : ∀ a0 a1, NamesACell.Statement (.illegalInstruction a0 a1) := fun _ _ => NamesACell.ofCheck rfl id
theorem NamesACell.accessAged : ∀ a0 a1, NamesACell.Statement (.accessAged a0 a1) := fun _ _ => NamesACell.ofCheck rfl (fun w => (Bool.and_eq_true_iff.mp (Bool.and_eq_true_iff.mp w).1).1)
theorem NamesACell.flitLanding : ∀ a0 a1 a2, NamesACell.Statement (.flitLanding a0 a1 a2) := fun _ _ _ => NamesACell.ofCheck rfl id
theorem NamesACell.multicastCopy : ∀ a0 a1 a2, NamesACell.Statement (.multicastCopy a0 a1 a2) := fun _ _ _ => NamesACell.ofCheck rfl id
theorem NamesACell.reductionCombine : ∀ a0 a1 a2, NamesACell.Statement (.reductionCombine a0 a1 a2) := fun _ _ _ => NamesACell.ofCheck rfl (fun w => (Bool.and_eq_true_iff.mp w).1)
theorem NamesACell.linkCrcError : ∀ a0 a1 a2 a3, NamesACell.Statement (.linkCrcError a0 a1 a2 a3) := fun _ _ _ _ => NamesACell.ofCheck rfl (fun w => (Bool.and_eq_true_iff.mp (Bool.and_eq_true_iff.mp w).1).1)
theorem NamesACell.nak : ∀ a0 a1 a2 a3, NamesACell.Statement (.nak a0 a1 a2 a3) := fun _ _ _ _ => NamesACell.ofCheck rfl (fun w => (Bool.and_eq_true_iff.mp (Bool.and_eq_true_iff.mp w).1).1)
theorem NamesACell.linkFail : ∀ a0 a1, NamesACell.Statement (.linkFail a0 a1) := fun _ _ => NamesACell.ofCheck rfl (fun w => (Bool.and_eq_true_iff.mp w).1)
theorem NamesACell.replayBufferRelease : ∀ a0 a1 a2, NamesACell.Statement (.replayBufferRelease a0 a1 a2) := fun _ _ _ => NamesACell.ofCheck rfl (fun w => (Bool.and_eq_true_iff.mp w).1)
theorem NamesACell.vc0Discard : ∀ a0 a1, NamesACell.Statement (.vc0Discard a0 a1) := fun _ _ => NamesACell.ofCheck rfl id
theorem NamesACell.cfgRead : ∀ a0 a1, NamesACell.Statement (.cfgRead a0 a1) := fun _ _ => NamesACell.ofCheck rfl id
theorem NamesACell.cfgWrite : ∀ a0 a1 a2, NamesACell.Statement (.cfgWrite a0 a1 a2) := fun _ _ _ => NamesACell.ofCheck rfl id
theorem NamesACell.cfgRsp : ∀ a0 a1, NamesACell.Statement (.cfgRsp a0 a1) := fun _ _ => NamesACell.ofNone rfl
theorem NamesACell.fabCalderaWrite : ∀ a0 a1, NamesACell.Statement (.fabCalderaWrite a0 a1) := fun _ _ => NamesACell.ofNone rfl
theorem NamesACell.eccWriteback : ∀ a0 a1 a2, NamesACell.Statement (.eccWriteback a0 a1 a2) := fun _ _ _ => NamesACell.ofCheck rfl (fun w => (Bool.and_eq_true_iff.mp (Bool.and_eq_true_iff.mp w).1).1)
theorem NamesACell.scrubRead : ∀ a0 a1 a2, NamesACell.Statement (.scrubRead a0 a1 a2) := fun _ _ _ => NamesACell.ofCheck rfl id
theorem NamesACell.scrubAged : ∀ a0, NamesACell.Statement (.scrubAged a0) := fun _ => NamesACell.ofCheck rfl id
theorem NamesACell.scrubLate : ∀ a0 a1, NamesACell.Statement (.scrubLate a0 a1) := fun _ _ => NamesACell.ofCheck rfl id
theorem NamesACell.precisionEventCollect : NamesACell.Statement (.precisionEventCollect) := NamesACell.ofNone rfl
theorem NamesACell.widenEnd : ∀ a0 a1, NamesACell.Statement (.widenEnd a0 a1) := fun _ _ => NamesACell.ofNone rfl
theorem NamesACell.modelRecipeWrite : ∀ a0 a1, NamesACell.Statement (.modelRecipeWrite a0 a1) := fun _ _ => NamesACell.ofNone rfl
theorem NamesACell.recipeWinDataWrite : ∀ a0, NamesACell.Statement (.recipeWinDataWrite a0) := fun _ => NamesACell.ofNone rfl
theorem NamesACell.holdTest : NamesACell.Statement (.holdTest) := NamesACell.ofNone rfl
theorem NamesACell.holdDecision : ∀ a0, NamesACell.Statement (.holdDecision a0) := fun _ => NamesACell.ofNone rfl
theorem NamesACell.slotBoundary : NamesACell.Statement (.slotBoundary) := NamesACell.ofNone rfl
theorem NamesACell.longHold : NamesACell.Statement (.longHold) := NamesACell.ofNone rfl
theorem NamesACell.stall : ∀ a0, NamesACell.Statement (.stall a0) := fun _ => NamesACell.ofCheck rfl id
theorem NamesACell.loadGo : ∀ a0, NamesACell.Statement (.loadGo a0) := fun _ => NamesACell.ofNone rfl
theorem NamesACell.loadCheckDone : ∀ a0, NamesACell.Statement (.loadCheckDone a0) := fun _ => NamesACell.ofNone rfl
theorem NamesACell.hostHold : ∀ a0, NamesACell.Statement (.hostHold a0) := fun _ => NamesACell.ofNone rfl
theorem NamesACell.extEn : ∀ a0, NamesACell.Statement (.extEn a0) := fun _ => NamesACell.ofNone rfl
theorem NamesACell.beatEdge : ∀ a0 a1, NamesACell.Statement (.beatEdge a0 a1) := fun _ _ => NamesACell.ofNone rfl
theorem NamesACell.internalBeat : ∀ a0, NamesACell.Statement (.internalBeat a0) := fun _ => NamesACell.ofNone rfl
theorem NamesACell.holdover : ∀ a0, NamesACell.Statement (.holdover a0) := fun _ => NamesACell.ofNone rfl
theorem NamesACell.beatLoss : ∀ a0, NamesACell.Statement (.beatLoss a0) := fun _ => NamesACell.ofNone rfl
theorem NamesACell.frameStart : ∀ a0, NamesACell.Statement (.frameStart a0) := fun _ => NamesACell.ofNone rfl
theorem NamesACell.kvRead : ∀ a0 a1 a2, NamesACell.Statement (.kvRead a0 a1 a2) := fun _ _ _ => NamesACell.ofNone rfl
theorem NamesACell.kvWrite : ∀ a0 a1 a2 a3, NamesACell.Statement (.kvWrite a0 a1 a2 a3) := fun _ _ _ _ => NamesACell.ofNone rfl
theorem NamesACell.linRead : ∀ a0 a1 a2, NamesACell.Statement (.linRead a0 a1 a2) := fun _ _ _ => NamesACell.ofNone rfl
theorem NamesACell.linWrite : ∀ a0 a1 a2 a3, NamesACell.Statement (.linWrite a0 a1 a2 a3) := fun _ _ _ _ => NamesACell.ofNone rfl
theorem NamesACell.patrolRead : ∀ a0 a1 a2, NamesACell.Statement (.patrolRead a0 a1 a2) := fun _ _ _ => NamesACell.ofNone rfl
theorem NamesACell.stackScrubLate : ∀ a0 a1, NamesACell.Statement (.stackScrubLate a0 a1) := fun _ _ => NamesACell.ofNone rfl
theorem NamesACell.poolEnable : ∀ a0, NamesACell.Statement (.poolEnable a0) := fun _ => NamesACell.ofNone rfl
theorem NamesACell.poolDisable : ∀ a0, NamesACell.Statement (.poolDisable a0) := fun _ => NamesACell.ofNone rfl
theorem NamesACell.posLimitWrite : ∀ a0 a1, NamesACell.Statement (.posLimitWrite a0 a1) := fun _ _ => NamesACell.ofNone rfl
theorem NamesACell.ringEnable : ∀ a0 a1, NamesACell.Statement (.ringEnable a0 a1) := fun _ _ => NamesACell.ofNone rfl
theorem NamesACell.submit : ∀ a0 a1, NamesACell.Statement (.submit a0 a1) := fun _ _ => NamesACell.ofNone rfl
theorem NamesACell.cancel : ∀ a0 a1, NamesACell.Statement (.cancel a0 a1) := fun _ _ => NamesACell.ofNone rfl
theorem NamesACell.prefixCreate : ∀ a0 a1, NamesACell.Statement (.prefixCreate a0 a1) := fun _ _ => NamesACell.ofNone rfl
theorem NamesACell.prefixRelease : ∀ a0 a1, NamesACell.Statement (.prefixRelease a0 a1) := fun _ _ => NamesACell.ofNone rfl
theorem NamesACell.openModel : ∀ a0 a1, NamesACell.Statement (.openModel a0 a1) := fun _ _ => NamesACell.ofNone rfl
theorem NamesACell.closeModel : ∀ a0 a1, NamesACell.Statement (.closeModel a0 a1) := fun _ _ => NamesACell.ofNone rfl
theorem NamesACell.closeComplete : ∀ a0, NamesACell.Statement (.closeComplete a0) := fun _ => NamesACell.ofNone rfl
theorem NamesACell.loadWeights : ∀ a0 a1 a2, NamesACell.Statement (.loadWeights a0 a1 a2) := fun _ _ _ => NamesACell.ofNone rfl
theorem NamesACell.loadReceive : ∀ a0 a1, NamesACell.Statement (.loadReceive a0 a1) := fun _ _ => NamesACell.ofNone rfl
theorem NamesACell.loadReceiveTimeout : ∀ a0, NamesACell.Statement (.loadReceiveTimeout a0) := fun _ => NamesACell.ofNone rfl
theorem NamesACell.readback : ∀ a0 a1, NamesACell.Statement (.readback a0 a1) := fun _ _ => NamesACell.ofNone rfl
theorem NamesACell.stepResult : ∀ a0 a1, NamesACell.Statement (.stepResult a0 a1) := fun _ _ => NamesACell.ofNone rfl
theorem NamesACell.stepCommit : ∀ a0, NamesACell.Statement (.stepCommit a0) := fun _ => NamesACell.ofNone rfl
theorem NamesACell.outputRoomWrite : ∀ a0 a1, NamesACell.Statement (.outputRoomWrite a0 a1) := fun _ _ => NamesACell.ofNone rfl
theorem NamesACell.hotWindowFill : ∀ a0, NamesACell.Statement (.hotWindowFill a0) := fun _ => NamesACell.ofNone rfl
theorem NamesACell.pinnedWrite : ∀ a0 a1, NamesACell.Statement (.pinnedWrite a0 a1) := fun _ _ => NamesACell.ofNone rfl
theorem NamesACell.run : NamesACell.Statement (.run) := NamesACell.ofNone rfl
theorem NamesACell.pause : NamesACell.Statement (.pause) := NamesACell.ofNone rfl
theorem NamesACell.abort : NamesACell.Statement (.abort) := NamesACell.ofNone rfl
theorem NamesACell.discard : NamesACell.Statement (.discard) := NamesACell.ofNone rfl
theorem NamesACell.tuneBlockComplete : ∀ a0, NamesACell.Statement (.tuneBlockComplete a0) := fun _ => NamesACell.ofNone rfl
theorem NamesACell.presenceDetect : ∀ a0 a1, NamesACell.Statement (.presenceDetect a0 a1) := fun _ _ => NamesACell.ofNone rfl
theorem NamesACell.equalisationEnd : ∀ a0 a1, NamesACell.Statement (.equalisationEnd a0 a1) := fun _ _ => NamesACell.ofNone rfl
theorem NamesACell.alignment : ∀ a0 a1, NamesACell.Statement (.alignment a0 a1) := fun _ _ => NamesACell.ofNone rfl
theorem NamesACell.params : ∀ a0 a1 a2, NamesACell.Statement (.params a0 a1 a2) := fun _ _ _ => NamesACell.ofNone rfl
theorem NamesACell.retrainComplete : ∀ a0 a1 a2, NamesACell.Statement (.retrainComplete a0 a1 a2) := fun _ _ _ => NamesACell.ofNone rfl
theorem NamesACell.linkDown : ∀ a0 a1, NamesACell.Statement (.linkDown a0 a1) := fun _ _ => NamesACell.ofNone rfl
theorem NamesACell.linkRetry : ∀ a0 a1, NamesACell.Statement (.linkRetry a0 a1) := fun _ _ => NamesACell.ofNone rfl
theorem NamesACell.oclDownTimeout : NamesACell.Statement (.oclDownTimeout) := NamesACell.ofNone rfl
theorem NamesACell.payloadFlit : ∀ a0 a1 a2, NamesACell.Statement (.payloadFlit a0 a1 a2) := fun _ _ _ => NamesACell.ofNone rfl
theorem NamesACell.idleFlit : ∀ a0 a1 a2, NamesACell.Statement (.idleFlit a0 a1 a2) := fun _ _ _ => NamesACell.ofNone rfl
theorem NamesACell.nakFlit : ∀ a0 a1 a2, NamesACell.Statement (.nakFlit a0 a1 a2) := fun _ _ _ => NamesACell.ofNone rfl
theorem NamesACell.retrainFlit : ∀ a0 a1 a2, NamesACell.Statement (.retrainFlit a0 a1 a2) := fun _ _ _ => NamesACell.ofNone rfl
theorem NamesACell.nakResend : ∀ a0, NamesACell.Statement (.nakResend a0) := fun _ => NamesACell.ofNone rfl
theorem NamesACell.ackTimeout : ∀ a0 a1, NamesACell.Statement (.ackTimeout a0 a1) := fun _ _ => NamesACell.ofNone rfl
theorem NamesACell.mmioRd : ∀ a0 a1 a2, NamesACell.Statement (.mmioRd a0 a1 a2) := fun _ _ _ => NamesACell.ofNone rfl
theorem NamesACell.mmioWr : ∀ a0 a1 a2 a3, NamesACell.Statement (.mmioWr a0 a1 a2 a3) := fun _ _ _ _ => NamesACell.ofNone rfl
theorem NamesACell.snpInv : ∀ a0, NamesACell.Statement (.snpInv a0) := fun _ => NamesACell.ofNone rfl
theorem NamesACell.cplData : ∀ a0 a1 a2 a3 a4, NamesACell.Statement (.cplData a0 a1 a2 a3 a4) := fun _ _ _ _ _ => NamesACell.ofNone rfl
theorem NamesACell.credit : ∀ a0 a1 a2, NamesACell.Statement (.credit a0 a1 a2) := fun _ _ _ => NamesACell.ofNone rfl
theorem NamesACell.intrModeration : ∀ a0, NamesACell.Statement (.intrModeration a0) := fun _ => NamesACell.ofNone rfl
theorem NamesACell.cplTimeout : ∀ a0, NamesACell.Statement (.cplTimeout a0) := fun _ => NamesACell.ofNone rfl
theorem NamesACell.doorbell : ∀ a0, NamesACell.Statement (.doorbell a0) := fun _ => NamesACell.ofNone rfl
theorem NamesACell.oclEncMode : ∀ a0, NamesACell.Statement (.oclEncMode a0) := fun _ => NamesACell.ofNone rfl
theorem NamesACell.oclCtrlRetrain : ∀ a0, NamesACell.Statement (.oclCtrlRetrain a0) := fun _ => NamesACell.ofNone rfl
theorem NamesACell.fail : ∀ a0 a1, NamesACell.Statement (.fail a0 a1) := fun _ _ => NamesACell.ofNone rfl
theorem NamesACell.frame : ∀ a0 a1, NamesACell.Statement (.frame a0 a1) := fun _ _ => NamesACell.ofNone rfl
theorem NamesACell.ack : ∀ a0, NamesACell.Statement (.ack a0) := fun _ => NamesACell.ofNone rfl
theorem NamesACell.cmd : ∀ a0, NamesACell.Statement (.cmd a0) := fun _ => NamesACell.ofNone rfl
theorem NamesACell.tokensIn : ∀ a0, NamesACell.Statement (.tokensIn a0) := fun _ => NamesACell.ofNone rfl
theorem NamesACell.kv : ∀ a0, NamesACell.Statement (.kv a0) := fun _ => NamesACell.ofNone rfl
theorem NamesACell.seqstate : ∀ a0, NamesACell.Statement (.seqstate a0) := fun _ => NamesACell.ofNone rfl
theorem NamesACell.commit : ∀ a0, NamesACell.Statement (.commit a0) := fun _ => NamesACell.ofNone rfl
theorem NamesACell.pfx : ∀ a0, NamesACell.Statement (.pfx a0) := fun _ => NamesACell.ofNone rfl
theorem NamesACell.pageReq : ∀ a0, NamesACell.Statement (.pageReq a0) := fun _ => NamesACell.ofNone rfl
theorem NamesACell.pageData : ∀ a0, NamesACell.Statement (.pageData a0) := fun _ => NamesACell.ofNone rfl
theorem NamesACell.pass : ∀ a0, NamesACell.Statement (.pass a0) := fun _ => NamesACell.ofNone rfl
theorem NamesACell.passRsp : ∀ a0, NamesACell.Statement (.passRsp a0) := fun _ => NamesACell.ofNone rfl
theorem NamesACell.xing : ∀ a0, NamesACell.Statement (.xing a0) := fun _ => NamesACell.ofNone rfl
theorem NamesACell.result : ∀ a0, NamesACell.Statement (.result a0) := fun _ => NamesACell.ofNone rfl
theorem NamesACell.scommit : ∀ a0 a1 a2, NamesACell.Statement (.scommit a0 a1 a2) := fun _ _ _ => NamesACell.ofNone rfl
theorem NamesACell.spanCredit : ∀ a0 a1 a2, NamesACell.Statement (.spanCredit a0 a1 a2) := fun _ _ _ => NamesACell.ofNone rfl
theorem NamesACell.splitLaunch : ∀ a0 a1, NamesACell.Statement (.splitLaunch a0 a1) := fun _ _ => NamesACell.ofNone rfl
theorem NamesACell.pairModeWrite : ∀ a0, NamesACell.Statement (.pairModeWrite a0) := fun _ => NamesACell.ofNone rfl
theorem NamesACell.isolate : ∀ a0, NamesACell.Statement (.isolate a0) := fun _ => NamesACell.ofNone rfl
theorem NamesACell.takeover : NamesACell.Statement (.takeover) := NamesACell.ofNone rfl
theorem NamesACell.release : NamesACell.Statement (.release) := NamesACell.ofNone rfl
theorem NamesACell.resync : NamesACell.Statement (.resync) := NamesACell.ofNone rfl
theorem NamesACell.takeoverComplete : NamesACell.Statement (.takeoverComplete) := NamesACell.ofNone rfl
theorem NamesACell.syncingComplete : NamesACell.Statement (.syncingComplete) := NamesACell.ofNone rfl
theorem NamesACell.faultReport : ∀ a0 a1, NamesACell.Statement (.faultReport a0 a1) := fun _ _ => NamesACell.ofCheck rfl id
theorem NamesACell.cellReset : ∀ a0, NamesACell.Statement (.cellReset a0) := fun _ => NamesACell.ofCheck rfl id
theorem NamesACell.clusterReset : ∀ a0, NamesACell.Statement (.clusterReset a0) := fun _ => NamesACell.ofCheck rfl id
theorem NamesACell.partitionReset : ∀ a0, NamesACell.Statement (.partitionReset a0) := fun _ => NamesACell.ofCheck rfl id
theorem NamesACell.wholeReset : NamesACell.Statement (.wholeReset) := NamesACell.ofNone rfl
theorem NamesACell.reset : NamesACell.Statement (.reset) := NamesACell.ofNone rfl
theorem NamesACell.drainDone : NamesACell.Statement (.drainDone) := NamesACell.ofNone rfl
theorem NamesACell.absorbDone : ∀ a0, NamesACell.Statement (.absorbDone a0) := fun _ => NamesACell.ofNone rfl
theorem NamesACell.releaseDone : NamesACell.Statement (.releaseDone) := NamesACell.ofNone rfl
theorem NamesACell.drainTimeout : NamesACell.Statement (.drainTimeout) := NamesACell.ofNone rfl
theorem NamesACell.ringFill : ∀ a0 a1, NamesACell.Statement (.ringFill a0 a1) := fun _ _ => NamesACell.ofCheck rfl id
theorem NamesACell.slotFill : ∀ a0 a1, NamesACell.Statement (.slotFill a0 a1) := fun _ _ => NamesACell.ofCheck rfl id
theorem NamesACell.audit : ∀ a0 a1 a2, NamesACell.Statement (.audit a0 a1 a2) := fun _ _ _ => NamesACell.ofCheck rfl (fun w => (Bool.and_eq_true_iff.mp w).1)
theorem NamesACell.forceFatal : NamesACell.Statement (.forceFatal) := NamesACell.ofNone rfl
theorem NamesACell.voltageSample : ∀ a0, NamesACell.Statement (.voltageSample a0) := fun _ => NamesACell.ofNone rfl
theorem NamesACell.vcmRecovered : NamesACell.Statement (.vcmRecovered) := NamesACell.ofNone rfl
theorem NamesACell.vcmNorecover : NamesACell.Statement (.vcmNorecover) := NamesACell.ofNone rfl
theorem NamesACell.feedOk : ∀ a0, NamesACell.Statement (.feedOk a0) := fun _ => NamesACell.ofNone rfl
theorem NamesACell.feedLost : ∀ a0, NamesACell.Statement (.feedLost a0) := fun _ => NamesACell.ofNone rfl
theorem NamesACell.bothFeedsLost : NamesACell.Statement (.bothFeedsLost) := NamesACell.ofNone rfl
theorem NamesACell.feedShare : NamesACell.Statement (.feedShare) := NamesACell.ofNone rfl
theorem NamesACell.phaseFault : ∀ a0 a1, NamesACell.Statement (.phaseFault a0 a1) := fun _ _ => NamesACell.ofNone rfl
theorem NamesACell.powerLevelAdjust : ∀ a0, NamesACell.Statement (.powerLevelAdjust a0) := fun _ => NamesACell.ofNone rfl
theorem NamesACell.capAdjust : NamesACell.Statement (.capAdjust) := NamesACell.ofNone rfl
theorem NamesACell.pwrCapWrite : ∀ a0, NamesACell.Statement (.pwrCapWrite a0) := fun _ => NamesACell.ofNone rfl
theorem NamesACell.thermalSample : ∀ a0, NamesACell.Statement (.thermalSample a0) := fun _ => NamesACell.ofNone rfl
theorem NamesACell.pairSuspect : ∀ a0 a1, NamesACell.Statement (.pairSuspect a0 a1) := fun _ _ => NamesACell.ofNone rfl
theorem NamesACell.noPairs : ∀ a0, NamesACell.Statement (.noPairs a0) := fun _ => NamesACell.ofNone rfl
theorem NamesACell.thermalTrip : NamesACell.Statement (.thermalTrip) := NamesACell.ofNone rfl
theorem NamesACell.pwrOffReq : NamesACell.Statement (.pwrOffReq) := NamesACell.ofNone rfl
theorem NamesACell.inlet : NamesACell.Statement (.inlet) := NamesACell.ofNone rfl
theorem NamesACell.flowPulse : ∀ a0 a1, NamesACell.Statement (.flowPulse a0 a1) := fun _ _ => NamesACell.ofNone rfl
theorem NamesACell.flowUpdate : NamesACell.Statement (.flowUpdate) := NamesACell.ofNone rfl
theorem NamesACell.flowPulseTimeout : ∀ a0, NamesACell.Statement (.flowPulseTimeout a0) := fun _ => NamesACell.ofNone rfl
theorem NamesACell.coolOk : ∀ a0 a1 a2, NamesACell.Statement (.coolOk a0 a1 a2) := fun _ _ _ => NamesACell.ofNone rfl
theorem NamesACell.coolantStopped : NamesACell.Statement (.coolantStopped) := NamesACell.ofNone rfl
theorem NamesACell.coolantResume : NamesACell.Statement (.coolantResume) := NamesACell.ofNone rfl
theorem NamesACell.coolCfgWrite : ∀ a0, NamesACell.Statement (.coolCfgWrite a0) := fun _ => NamesACell.ofNone rfl
theorem NamesACell.thrReloc : ∀ a0, NamesACell.Statement (.thrReloc a0) := fun _ => NamesACell.ofNone rfl
theorem NamesACell.start : ∀ a0, NamesACell.Statement (.start a0) := fun _ => NamesACell.ofNone rfl
theorem NamesACell.coolOkTimeout : NamesACell.Statement (.coolOkTimeout) := NamesACell.ofNone rfl
theorem NamesACell.startTimeout : NamesACell.Statement (.startTimeout) := NamesACell.ofNone rfl
theorem NamesACell.stageImage : ∀ a0, NamesACell.Statement (.stageImage a0) := fun _ => NamesACell.ofNone rfl
theorem NamesACell.stageStartRecord : ∀ a0, NamesACell.Statement (.stageStartRecord a0) := fun _ => NamesACell.ofNone rfl
theorem NamesACell.stageJournalDump : NamesACell.Statement (.stageJournalDump) := NamesACell.ofNone rfl
theorem NamesACell.stageDone : ∀ a0, NamesACell.Statement (.stageDone a0) := fun _ => NamesACell.ofNone rfl
theorem NamesACell.journalWrite : ∀ a0, NamesACell.Statement (.journalWrite a0) := fun _ => NamesACell.ofNone rfl
theorem NamesACell.pressComplete : NamesACell.Statement (.pressComplete) := NamesACell.ofNone rfl
theorem NamesACell.journalEraseDone : NamesACell.Statement (.journalEraseDone) := NamesACell.ofNone rfl
theorem NamesACell.shutdown : ∀ a0, NamesACell.Statement (.shutdown a0) := fun _ => NamesACell.ofNone rfl
theorem NamesACell.bistWave : ∀ a0 a1, NamesACell.Statement (.bistWave a0 a1) := fun _ _ => NamesACell.ofNone rfl
theorem NamesACell.clr : NamesACell.Statement (.clr) := NamesACell.ofNone rfl
theorem NamesACell.restart : NamesACell.Statement (.restart) := NamesACell.ofNone rfl
theorem NamesACell.attest : NamesACell.Statement (.attest) := NamesACell.ofNone rfl
theorem NamesACell.identityBuilt : NamesACell.Statement (.identityBuilt) := NamesACell.ofNone rfl
theorem NamesACell.kemStart : NamesACell.Statement (.kemStart) := NamesACell.ofNone rfl
theorem NamesACell.kemFinish : NamesACell.Statement (.kemFinish) := NamesACell.ofNone rfl
theorem NamesACell.kemSwitch : NamesACell.Statement (.kemSwitch) := NamesACell.ofNone rfl
theorem NamesACell.kemKeyExpiry : NamesACell.Statement (.kemKeyExpiry) := NamesACell.ofNone rfl
theorem NamesACell.zeroise : ∀ a0, NamesACell.Statement (.zeroise a0) := fun _ => NamesACell.ofNone rfl
theorem NamesACell.zeroiseDone : NamesACell.Statement (.zeroiseDone) := NamesACell.ofNone rfl
theorem NamesACell.identity : NamesACell.Statement (.identity) := NamesACell.ofNone rfl
theorem NamesACell.svnCommit : NamesACell.Statement (.svnCommit) := NamesACell.ofNone rfl
theorem NamesACell.releaseFlit : ∀ a0 a1, NamesACell.Statement (.releaseFlit a0 a1) := fun _ _ => NamesACell.ofCheck rfl id
theorem NamesACell.pageZeroiseDone : ∀ a0 a1, NamesACell.Statement (.pageZeroiseDone a0 a1) := fun _ _ => NamesACell.ofNone rfl
theorem NamesACell.cellWinRead : NamesACell.Statement (.cellWinRead) := NamesACell.ofNone rfl
theorem NamesACell.cellWinWrite : NamesACell.Statement (.cellWinWrite) := NamesACell.ofNone rfl
theorem NamesACell.cellWinTimeout : NamesACell.Statement (.cellWinTimeout) := NamesACell.ofNone rfl
theorem NamesACell.cellWinAgentFree : NamesACell.Statement (.cellWinAgentFree) := NamesACell.ofNone rfl
theorem NamesACell.registerWrite : ∀ a0 a1, NamesACell.Statement (.registerWrite a0 a1) := fun _ _ => NamesACell.ofNone rfl
theorem NamesACell.nresetAssert : NamesACell.Statement (.nresetAssert) := NamesACell.ofNone rfl
theorem NamesACell.nresetRelease : ∀ a0, NamesACell.Statement (.nresetRelease a0) := fun _ => NamesACell.ofNone rfl
theorem NamesACell.resetShort : NamesACell.Statement (.resetShort) := NamesACell.ofNone rfl
theorem NamesACell.nholdExt : ∀ a0 a1 a2, NamesACell.Statement (.nholdExt a0 a1 a2) := fun _ _ _ => NamesACell.ofNone rfl
theorem NamesACell.extStuck : NamesACell.Statement (.extStuck) := NamesACell.ofNone rfl
theorem NamesACell.flowNoise : ∀ a0, NamesACell.Statement (.flowNoise a0) := fun _ => NamesACell.ofNone rfl
theorem NamesACell.entdaa : ∀ a0, NamesACell.Statement (.entdaa a0) := fun _ => NamesACell.ofNone rfl
theorem NamesACell.setdasa : ∀ a0, NamesACell.Statement (.setdasa a0) := fun _ => NamesACell.ofNone rfl
theorem NamesACell.rstdaa : NamesACell.Statement (.rstdaa) := NamesACell.ofNone rfl
theorem NamesACell.enec : ∀ a0, NamesACell.Statement (.enec a0) := fun _ => NamesACell.ofNone rfl
theorem NamesACell.disec : ∀ a0, NamesACell.Statement (.disec a0) := fun _ => NamesACell.ofNone rfl
theorem NamesACell.getpid : NamesACell.Statement (.getpid) := NamesACell.ofNone rfl
theorem NamesACell.getbcr : NamesACell.Statement (.getbcr) := NamesACell.ofNone rfl
theorem NamesACell.getdcr : NamesACell.Statement (.getdcr) := NamesACell.ofNone rfl
theorem NamesACell.getstatus : NamesACell.Statement (.getstatus) := NamesACell.ofNone rfl
theorem NamesACell.getmxds : NamesACell.Statement (.getmxds) := NamesACell.ofNone rfl
theorem NamesACell.setmwl : ∀ a0, NamesACell.Statement (.setmwl a0) := fun _ => NamesACell.ofNone rfl
theorem NamesACell.setmrl : ∀ a0, NamesACell.Statement (.setmrl a0) := fun _ => NamesACell.ofNone rfl
theorem NamesACell.rstact : ∀ a0, NamesACell.Statement (.rstact a0) := fun _ => NamesACell.ofNone rfl
theorem NamesACell.setEndpointId : ∀ a0 a1, NamesACell.Statement (.setEndpointId a0 a1) := fun _ _ => NamesACell.ofNone rfl
theorem NamesACell.getEndpointId : NamesACell.Statement (.getEndpointId) := NamesACell.ofNone rfl
theorem NamesACell.getMctpVersionSupport : NamesACell.Statement (.getMctpVersionSupport) := NamesACell.ofNone rfl
theorem NamesACell.getMessageTypeSupport : NamesACell.Statement (.getMessageTypeSupport) := NamesACell.ofNone rfl
theorem NamesACell.getTid : NamesACell.Statement (.getTid) := NamesACell.ofNone rfl
theorem NamesACell.getPldmVersion : ∀ a0, NamesACell.Statement (.getPldmVersion a0) := fun _ => NamesACell.ofNone rfl
theorem NamesACell.getPldmTypes : NamesACell.Statement (.getPldmTypes) := NamesACell.ofNone rfl
theorem NamesACell.getPldmCommands : ∀ a0, NamesACell.Statement (.getPldmCommands a0) := fun _ => NamesACell.ofNone rfl
theorem NamesACell.getPdr : ∀ a0, NamesACell.Statement (.getPdr a0) := fun _ => NamesACell.ofNone rfl
theorem NamesACell.getPdrRepositoryInfo : NamesACell.Statement (.getPdrRepositoryInfo) := NamesACell.ofNone rfl
theorem NamesACell.getNumericSensorReading : ∀ a0, NamesACell.Statement (.getNumericSensorReading a0) := fun _ => NamesACell.ofNone rfl
theorem NamesACell.getStateSensorReadings : ∀ a0, NamesACell.Statement (.getStateSensorReadings a0) := fun _ => NamesACell.ofNone rfl
theorem NamesACell.eventMessageSupported : NamesACell.Statement (.eventMessageSupported) := NamesACell.ofNone rfl
theorem NamesACell.eventMessageBufferSize : ∀ a0, NamesACell.Statement (.eventMessageBufferSize a0) := fun _ => NamesACell.ofNone rfl
theorem NamesACell.pollForPlatformEventMessage : ∀ a0, NamesACell.Statement (.pollForPlatformEventMessage a0) := fun _ => NamesACell.ofNone rfl
theorem NamesACell.getFruRecordTableMetadata : NamesACell.Statement (.getFruRecordTableMetadata) := NamesACell.ofNone rfl
theorem NamesACell.getFruRecordTable : NamesACell.Statement (.getFruRecordTable) := NamesACell.ofNone rfl
theorem NamesACell.winRead : ∀ a0 a1, NamesACell.Statement (.winRead a0 a1) := fun _ _ => NamesACell.ofNone rfl
theorem NamesACell.winWrite : ∀ a0 a1 a2, NamesACell.Statement (.winWrite a0 a1 a2) := fun _ _ _ => NamesACell.ofNone rfl
theorem NamesACell.stackLost : ∀ a0, NamesACell.Statement (.stackLost a0) := fun _ => NamesACell.ofNone rfl
theorem NamesACell.brynodorWatchdog : NamesACell.Statement (.brynodorWatchdog) := NamesACell.ofNone rfl
theorem NamesACell.history : ∀ a0, NamesACell.Statement (.history a0) := fun _ => NamesACell.ofNone rfl

end Sys2Proof.Laws
end

