-- ==== Sys2Proof/Laws/QuietMesh.lean ====
section
/-!
SUPPORT. Registers that flits on the mesh may change: a flit that goes on, or is taken off by a controller, changes none but those that
a span message sent may (R46, R194, R336).
-/
set_option Elab.async false
namespace Sys2Proof.Machine
open Sys2Proof

theorem setLinkDir_regs {σ : State} {ρ : List Nat} {r : Nat} {port : Nat} {l : LinkDir} {s : State} (hl : SubN [] ρ) (h_s : Regs ρ σ s) :
    Regs ρ σ (setLinkDir r port l s) := by
  unfold setLinkDir
  repeat' first
    | with_reducible assumption
    | intro _
    | fail_if_no_progress with_reducible refine regs_upd ?_

theorem passLink_regs {σ : State} {ρ : List Nat} {f : Flit} {r : Nat} {port : Nat} {s : State} (hl : SubN [] ρ) (h_s : Regs ρ σ s) :
    Regs ρ σ (passLink f r port s) := by
  unfold passLink
  repeat' first
    | with_reducible assumption
    | intro _
    | extract_lets
    | with_reducible refine setLinkDir_regs (SubN.trans (by decide) hl) ?_
    | fail_if_no_progress with_reducible refine regs_upd ?_

theorem passRoute_regs {σ : State} {ρ : List Nat} {f : Flit} {rt : List (Nat × Nat)} {s : State} (hl : SubN [] ρ) (h_s : Regs ρ σ s) :
    Regs ρ σ (passRoute f rt s) := by
  unfold passRoute
  repeat' first
    | with_reducible assumption
    | intro _
    | with_reducible refine forEach_regs ?_ ?_
    | with_reducible refine passLink_regs (SubN.trans (by decide) hl) ?_

theorem setUsed3_regs {σ : State} {ρ : List Nat} {r : Nat} {port : Nat} {n : Nat} {s : State} (hl : SubN [] ρ) (h_s : Regs ρ σ s) :
    Regs ρ σ (setUsed3 r port n s) := by
  unfold setUsed3
  repeat' first
    | with_reducible assumption
    | intro _
    | fail_if_no_progress with_reducible refine regs_upd ?_

theorem enter3_regs {σ : State} {ρ : List Nat} {f : Flit} {p : Option (Nat × Nat)} {s : State} (hl : SubN [] ρ) (h_s : Regs ρ σ s) :
    Regs ρ σ (enter3 f p s) := by
  unfold enter3
  repeat' first
    | with_reducible assumption
    | intro _
    | with_reducible refine when_regs ?_ ?_
    | with_reducible refine setUsed3_regs (SubN.trans (by decide) hl) ?_
    | fail_if_no_progress with_reducible refine regs_upd ?_
    | split

theorem leave3_regs {σ : State} {ρ : List Nat} {f : Flit} {p : Option (Nat × Nat)} {s : State} (hl : SubN [] ρ) (h_s : Regs ρ σ s) :
    Regs ρ σ (leave3 f p s) := by
  unfold leave3
  repeat' first
    | with_reducible assumption
    | intro _
    | with_reducible refine when_regs ?_ ?_
    | with_reducible refine setUsed3_regs (SubN.trans (by decide) hl) ?_
    | fail_if_no_progress with_reducible refine regs_upd ?_
    | split

theorem keepFlight_regs {σ : State} {ρ : List Nat} {x : Flight} {s : State} (hl : SubN [] ρ) (h_s : Regs ρ σ s) :
    Regs ρ σ (keepFlight x s) := by
  unfold keepFlight
  repeat' first
    | with_reducible assumption
    | intro _
    | fail_if_no_progress with_reducible refine regs_upd ?_

theorem settle_regs {σ : State} {ρ : List Nat} {x : Flight} {s : State} (hl : SubN [0xa000, 0xa070, 0xa074] ρ) (h_s : Regs ρ σ s) :
    Regs ρ σ (settle x s) := by
  unfold settle
  repeat' first
    | with_reducible assumption
    | intro _
    | extract_lets
    | with_reducible refine regs_ite ?_ ?_
    | with_reducible refine leave3_regs (SubN.trans (by decide) hl) ?_
    | with_reducible refine sendSpan_regs (SubN.trans (by decide) hl) ?_
    | with_reducible refine keepFlight_regs (SubN.trans (by decide) hl) ?_
    | fail_if_no_progress with_reducible refine regs_upd ?_
    | split
    | dsimp +zetaDelta only

theorem goOn_regs {σ : State} {ρ : List Nat} {x : Flight} {s : State} (hl : SubN [0xa000, 0xa070, 0xa074] ρ) (h_s : Regs ρ σ s) :
    Regs ρ σ (goOn x s) := by
  unfold goOn
  repeat' first
    | with_reducible assumption
    | intro _
    | extract_lets
    | with_reducible refine regs_ite ?_ ?_
    | with_reducible refine settle_regs (SubN.trans (by decide) hl) ?_
    | with_reducible refine enter3_regs (SubN.trans (by decide) hl) ?_
    | with_reducible refine leave3_regs (SubN.trans (by decide) hl) ?_
    | with_reducible refine passRoute_regs (SubN.trans (by decide) hl) ?_
    | fail_if_no_progress with_reducible refine regs_upd ?_
    | split

theorem moveOn_regs {σ : State} {ρ : List Nat} {s : State} (hl : SubN [0xa000, 0xa070, 0xa074] ρ) (h_s : Regs ρ σ s) :
    Regs ρ σ (moveOn s) := by
  unfold moveOn
  repeat' first
    | with_reducible assumption
    | intro _
    | with_reducible refine forEach_regs ?_ ?_
    | with_reducible refine goOn_regs (SubN.trans (by decide) hl) ?_
    | fail_if_no_progress with_reducible refine regs_upd ?_

theorem sendFlit_regs {σ : State} {ρ : List Nat} {at_ : Nat} {act : Nat} {f : Flit} {rt : List (Nat × Nat)} {s : State} (hl : SubN [0xa000, 0xa070, 0xa074] ρ) (h_s : Regs ρ σ s) :
    Regs ρ σ (sendFlit at_ act f rt s) := by
  unfold sendFlit
  repeat' first
    | with_reducible assumption
    | intro _
    | with_reducible refine goOn_regs (SubN.trans (by decide) hl) ?_
    | fail_if_no_progress with_reducible refine regs_upd ?_

theorem launchFlit_regs {σ : State} {ρ : List Nat} {at_ : Nat} {act : Nat} {f : Flit} {via : List (Nat × Nat)} {s : State} (hl : SubN [] ρ) (h_s : Regs ρ σ s) :
    Regs ρ σ (launchFlit at_ act f via s) := by
  unfold launchFlit
  repeat' first
    | with_reducible assumption
    | intro _
    | with_reducible refine keepFlight_regs (SubN.trans (by decide) hl) ?_
    | fail_if_no_progress with_reducible refine regs_upd ?_

theorem liftFlit_regs {σ : State} {ρ : List Nat} {x : Flight} {s : State} (hl : SubN [0xa000, 0xa070, 0xa074] ρ) (h_s : Regs ρ σ s) :
    Regs ρ σ (liftFlit x s) := by
  unfold liftFlit
  repeat' first
    | with_reducible assumption
    | intro _
    | with_reducible refine moveOn_regs (SubN.trans (by decide) hl) ?_
    | with_reducible refine leave3_regs (SubN.trans (by decide) hl) ?_
    | with_reducible refine passRoute_regs (SubN.trans (by decide) hl) ?_
    | fail_if_no_progress with_reducible refine regs_upd ?_

theorem takeBound_regs {σ : State} {ρ : List Nat} {dst : Nat} {g : Granule} {s : State} (hl : SubN [0xa000, 0xa070, 0xa074] ρ) (h_s : Regs ρ σ s) :
    Regs ρ σ (takeBound dst g s) := by
  unfold takeBound
  repeat' first
    | with_reducible assumption
    | intro _
    | with_reducible refine liftFlit_regs (SubN.trans (by decide) hl) ?_
    | fail_if_no_progress with_reducible refine regs_upd ?_
    | split

theorem takeRequest_regs {σ : State} {ρ : List Nat} {ctl : Nat} {req : Granule} {data : List Granule} {s : State} (hl : SubN [0xa000, 0xa070, 0xa074] ρ) (h_s : Regs ρ σ s) :
    Regs ρ σ (takeRequest ctl req data s) := by
  unfold takeRequest
  repeat' first
    | with_reducible assumption
    | intro _
    | with_reducible refine regs_ite ?_ ?_
    | with_reducible refine forEach_regs ?_ ?_
    | with_reducible refine takeBound_regs (SubN.trans (by decide) hl) ?_
    | split

end Sys2Proof.Machine
end

