-- ==== Sys2Proof/Laws/Vector.lean ====
section
/-!
SUPPORT. What issuing a word, and a vector operation, do once and for all.
-/
set_option Elab.async false
namespace Sys2Proof.Machine
open Sys2Proof

variable {s t σ : State} {c : Nat} {ρ : List Nat}

/-- The registers that a cell instruction may write. -/
abbrev vecRegs (c : Nat) (s : State) : List Nat := cellRegs c ++ energyRegs (activityOf (cell c s).serving)

theorem subN_left (a b : List Nat) : SubN a (a ++ b) := List.all_eq_true.2 fun p hp => by simpa using Or.inl hp

theorem subN_right (a b : List Nat) : SubN b (a ++ b) := List.all_eq_true.2 fun p hp => by simpa using Or.inr hp

theorem subN_refl (a : List Nat) : SubN a a := List.all_eq_true.2 fun p hp => by simpa using hp

theorem chargeEnergy_steady {a kind n : Nat} (h : Steady c σ s) : Steady c σ (chargeEnergy a kind n s) :=
  h.of_cells ((chargeEnergy_same rfl (Same.refl [.win, .budget, .link, .ports, .ocl] s)).cells_eq (by decide))

theorem precise_steady {kind n : Nat} (h : Steady c σ s) : Steady c σ (precise c kind n s) :=
  h.of_cells ((precise_same rfl (Same.refl [.prec] s)).cells_eq (by decide))

theorem precise_regs {kind n : Nat} (h : Regs ρ σ s) : Regs ρ σ (precise c kind n s) := by
  unfold precise
  split
  · exact h
  · exact regs_upd h

theorem cellMem_precise (c kind n : Nat) (s : State) : (precise c kind n s).cellMem = s.cellMem :=
  (precise_same rfl (Same.refl [.prec] s)).part .cellMem (by decide)

theorem cellMem_chargeEnergy (a kind n : Nat) (s : State) : (chargeEnergy a kind n s).cellMem = s.cellMem :=
  (chargeEnergy_same rfl (Same.refl [.win, .budget, .link, .ports, .ocl] s)).part .cellMem (by decide)

theorem Wrote.of_cellMem {u : State} {d : Nat} {out : List Granule} (h : Wrote c d out s t) (hm : u.cellMem = t.cellMem) : Wrote c d out s u :=
  ⟨fun k hk => (granule_congr hm c (d + k)).trans (h.granules k hk), fun b hb => by rw [hm]; exact h.bytes b hb⟩

theorem Wrote.from {u : State} {d : Nat} {out : List Granule} (h : Wrote c d out s t) (hm : s.cellMem = u.cellMem) : Wrote c d out u t :=
  ⟨h.granules, fun b hb => by rw [← hm]; exact h.bytes b hb⟩

/-- What reads and a run of writes within the exposed granules leave. -/
theorem writeGranules_wrote {port d : Nat} {out : List Granule} (hm : Memory.wf s.cellMem = true) (hfit : d + out.length ≤ exposed c s) :
    Wrote c d out s (writeGranules c port d out s) :=
  have h := writeGranules_memory c port out d s hm
  ⟨h.1 hfit, h.2.2⟩

theorem readsWrites_wrote {port d : Nat} {out : List Granule} {gs : List Nat} {env : MemEnv} (hm : Memory.wf s.cellMem = true)
    (hfit : d + out.length ≤ exposed c s) : Wrote c d out s (writeGranules c port d out (reads c port gs env s)) := by
  have hc := cellMem_reads c port gs env s
  exact (writeGranules_wrote (by rw [hc]; exact hm) (by rw [exposed_reads]; exact hfit)).from hc

/-- A word of the wanted kind is performed. -/
theorem issue_run {want : Kind → Bool} {env : MemEnv} {body : Dword → State → State} {stay : Bool} (hc : canIssue c s = true)
    (hk : want (kindOf c (nextWord c (fill c env s)) (seen c env (fill c env s))) = true) :
    issue c want env body stay s =
      if stay then body (nextWord c (fill c env s)) (fill c env s) else advance c (body (nextWord c (fill c env s)) (fill c env s)) := by
  unfold issue
  simp only [if_pos hc, if_pos hk]

/-- The word at the program counter was issued, and the sequencer goes on to the next. -/
theorem issued_advance {u : State} (hs : Steady c s u) (hr : Regs ρ s u) : Issued c ρ s (advance c u) := by
  refine ⟨?_, fun o ho => ?_, fun d hd => ?_⟩
  · rw [advance_pc hs.form, hs.pc]
  · exact (reg_congr (by unfold advance modCell setCell; rfl) o).trans (hr.reg o ho)
  · unfold advance
    rw [cell_modCell_ne hd]
    exact hs.other d hd

theorem cellMem_advance (c : Nat) (s : State) : (advance c s).cellMem = s.cellMem := by
  unfold advance modCell setCell
  rfl

theorem packFp32_length (n : Nat) (xs : List Word) : (packFp32 n xs).length = n := by
  induction n generalizing xs with
  | zero => rfl
  | succ n ih => simp [packFp32, ih]

theorem packBf16_length (n : Nat) (xs : List Word) : (packBf16 n xs).length = n := by
  induction n generalizing xs with
  | zero => rfl
  | succ n ih => simp [packBf16, ih]

theorem packResult_length (v : VectorWord) (xs : List Word) : (packResult v xs).length = v.len := by
  unfold packResult
  split
  · exact packFp32_length _ _
  · exact packBf16_length _ _

theorem vecResults_length (c : Nat) (v : VectorWord) (out : List Word) (env : MemEnv) (s : State) :
    (vecResults c v out env s).length = v.len := packResult_length _ _

theorem serving_fill (h : Table.wf (fun _ => Cell.reset) s.cells = true) (c : Nat) (env : MemEnv) :
    (cell c (fill c env s)).serving = (cell c s).serving := by
  have := congrArg Cell.serving (fill_steady (env := env) (Steady.refl h c)).calm
  exact this

theorem serving_of (h : Steady c σ s) : (cell c s).serving = (cell c σ).serving := by
  have := congrArg Cell.serving h.calm
  exact this

/-- Filling the fetch buffer, for use in the laws of the instructions. -/
theorem fill_done (h : Table.wf (fun _ => Cell.reset) s.cells = true) (c : Nat) (env : MemEnv) :
    Steady c s (fill c env s) ∧ Regs (vecRegs c s) s (fill c env s) ∧ (fill c env s).cellMem = s.cellMem :=
  ⟨fill_steady (Steady.refl h c), fill_regs (subN_left _ _) (Regs.refl _ _), cellMem_fill c env s⟩

/-- A run of reads, writes and the charge of a vector operation leaves the cell steady and writes its own registers. -/
theorem vec_steady {d n : Nat} {out : List Granule} {gs : List Nat} {env : MemEnv} {b : Bool} {kind k : Nat} (h : Steady c σ s) :
    Steady c σ (chargeVec c n (when b (precise c kind k) (writeGranules c 2 d out (reads c 2 gs env s)))) :=
  chargeEnergy_steady (when_steady (fun _ => precise_steady) (writeGranules_steady (reads_steady h)))

theorem chargeVec_regs {n : Nat} {w : State} (hw : (cell c w).serving = (cell c s).serving) (h : Regs (vecRegs c s) s w) :
    Regs (vecRegs c s) s (chargeVec c n w) := by
  unfold chargeVec
  rw [hw]
  exact chargeEnergy_regs (subN_right _ _) h

theorem cellMem_when {b : Bool} {f : State → State} (h : ∀ t, (f t).cellMem = t.cellMem) (s : State) : (when b f s).cellMem = s.cellMem := by
  unfold when
  split
  · exact h s
  · rfl

theorem vec_regs {d n : Nat} {out : List Granule} {gs : List Nat} {env : MemEnv} {b : Bool} {kind k : Nat} {u : State}
    (hu : Steady c s u) (h : Regs (vecRegs c s) s u) :
    Regs (vecRegs c s) s (chargeVec c n (when b (precise c kind k) (writeGranules c 2 d out (reads c 2 gs env u)))) :=
  chargeVec_regs (serving_of (when_steady (fun _ => precise_steady) (writeGranules_steady (reads_steady hu))))
    (when_regs (fun _ => precise_regs) (writeGranules_regs (subN_left _ _) (reads_regs (subN_left _ _) h)))

/-- An element-wise operation: its results stand at D, and the sequencer went on. -/
theorem elementwise_done (hf : Table.wf (fun _ => Cell.reset) s.cells = true) (hm : Memory.wf s.cellMem = true) {v : VectorWord}
    (hfit : v.d + v.len ≤ exposed c s) (gs : List Nat) (out : List Word) (env : MemEnv) :
    Issued c (vecRegs c s) s (advance c (elementwise c v gs out env (fill c env s))) ∧
      Wrote c v.d (vecResults c v out env (fill c env s)) s (advance c (elementwise c v gs out env (fill c env s))) := by
  obtain ⟨h1, h2, h3⟩ := fill_done hf c env
  refine ⟨issued_advance (vec_steady h1) (vec_regs h1 h2), Wrote.of_cellMem ?_ (cellMem_advance c _)⟩
  unfold elementwise chargeVec
  refine Wrote.of_cellMem ?_ ((cellMem_chargeEnergy _ _ _ _).trans (cellMem_when (fun t => cellMem_precise c 2 1 t) _))
  exact (readsWrites_wrote (by rw [h3]; exact hm) (by rw [vecResults_length, exposed_fill]; exact hfit)).from h3

/-- The same with a precision event after it. -/
theorem elementwise_event_done (hf : Table.wf (fun _ => Cell.reset) s.cells = true) (hm : Memory.wf s.cellMem = true) {v : VectorWord}
    (hfit : v.d + v.len ≤ exposed c s) (gs : List Nat) (out : List Word) (env : MemEnv) (b : Bool) (kind n : Nat) :
    Issued c (vecRegs c s) s (advance c (when b (precise c kind n) (elementwise c v gs out env (fill c env s)))) ∧
      Wrote c v.d (vecResults c v out env (fill c env s)) s
        (advance c (when b (precise c kind n) (elementwise c v gs out env (fill c env s)))) := by
  obtain ⟨h1, h2, h3⟩ := fill_done hf c env
  have hw := (elementwise_done hf hm hfit gs out env).2
  refine ⟨issued_advance (when_steady (fun _ => precise_steady) (vec_steady h1)) (when_regs (fun _ => precise_regs) (vec_regs h1 h2)),
    hw.of_cellMem ?_⟩
  rw [cellMem_advance, cellMem_advance]
  exact cellMem_when (fun t => cellMem_precise c kind n t) _

end Sys2Proof.Machine
end

