-- ==== Sys2Proof/Tests/Slice0.lean ====
section
/-!
SUPPORT. Tests: well-formedness refuses each ill-formed term, the spec's worked examples, and for the statements with hypotheses states
and operands that meet them.
-/
set_option Elab.async false
namespace Sys2Proof.Tests
open Sys2Proof Sys2Proof.Machine

/-- Every table of the state is canonical, as one test. -/
def tablesOk (s : State) : Bool :=
  Table.wf resetWord s.win && Table.wf (fun _ => 0) s.latchOcl && Table.wf (fun _ => 0) s.latchMgmt &&
    Table.wf (fun _ => Cell.reset) s.cells && Table.wf (fun _ => 0) s.counters && Table.wf (fun _ => 0) s.accs &&
    Table.wf (fun _ => 0) s.mesh.mcast && Table.wf (fun _ => 0) s.mesh.redTab && Table.wf (fun _ => LayerPrec.reset) s.prec.layers &&
    Table.wf (fun _ => Image.reset) s.sched.images && Table.wf (fun _ => SeqSlot.reset) s.kv.seqs &&
    Table.wf (fun _ => ModelSlot.reset) s.svc.models && Table.wf (fun _ => OutRing.reset) s.svc.out &&
    Table.wf (fun _ => CmdRing.mk 0 0) s.svc.cmd && Table.wf (fun _ => FieldPower.reset) s.power.fields &&
    Table.wf (fun _ => LinkDir.reset) s.mesh.links && Table.wf (fun _ => []) s.mesh.redQ && Table.wf (fun _ => 0) s.mesh.used2 && Table.wf (fun _ => 0) s.mesh.used3 &&
    Table.wf (fun _ => 0) s.mesh.rowMap && Table.wf (fun _ => 0) s.prec.recipes && Table.wf (fun k => noLimit (k % 4)) s.budget.limits &&
    Table.wf (fun _ => 0) s.budget.part && Table.wf (fun _ => []) s.kv.freeList && Table.wf (fun _ => 0) s.kv.settings

/-- Every byte memory of the state is canonical, as one test. -/
def memoryOk (s : State) : Bool := Memory.wf s.cellMem && Memory.wf s.stackMem && Memory.wf s.sec.mbx

theorem tables_of {s : State} (h : tablesOk s = true) : s.TablesWf := by
  simp only [tablesOk, Bool.and_eq_true] at h
  obtain ⟨⟨⟨⟨⟨⟨⟨⟨⟨⟨⟨⟨⟨⟨⟨⟨⟨⟨⟨⟨⟨⟨⟨⟨h1, h2⟩, h3⟩, h4⟩, h5⟩, h6⟩, h7⟩, h8⟩, h9⟩, h10⟩, h11⟩, h12⟩, h13⟩, h14⟩, h15⟩, h16⟩, h17⟩, h18⟩, h19⟩, h20⟩, h21⟩, h22⟩, h23⟩, h24⟩, h25⟩ := h
  exact ⟨h1, h2, h3, h4, h5, h6, h7, h8, h9, h10, h11, h12, h13, h14, h15, h16, h17, h18, h19, h20, h21, h22, h23, h24, h25⟩

theorem memory_of {s : State} (h : memoryOk s = true) : s.MemoryWf := by
  simp only [memoryOk, Bool.and_eq_true] at h
  exact ⟨h.1.1, h.1.2, h.2⟩

/-- The state after reset with these fields of registers written. -/
def up (l : List (Fld × Nat)) : State := l.foldl (fun s p => wr p.1 p.2 s) State.reset

/-- A module that is READY, with these fields written. -/
def live (l : List (Fld × Nat)) : State := up ((F.BOOT_STATE.MODE, 1) :: l)

/-- Cell 5 runs in a READY module and has this word at its program counter. -/
def atWord (w : Dword) : State :=
  { live [] with cells := [(5, { Cell.reset with run := true, inIter := true, fetch := [(0, BitVec.ofNat 512 w.toNat), (1, 0)] })] }

/-- No collision, no error. -/
def calm : MemEnv := .quiet

/-! ### The queue, invariants, reset -/

theorem witness_StepRunsTheFrontCommand : ({ live [] with pending := [Instr.slotBoundary, .holdTest] } : State).pending =
    .slotBoundary :: [.holdTest] := rfl

theorem witness_StepIdlesOnEmptyQueue : State.reset.pending = [] := rfl

/-- For StepKeepsByteMemoriesCanonical, StepKeepsTablesCanonical and StepNeverUndoesAFuse. -/
theorem witness_StepKeeps : State.reset.MemoryWf ∧ State.reset.TablesWf ∧ step State.reset = .next State.reset :=
  ⟨memory_of (by decide +kernel), tables_of (by decide +kernel), rfl⟩

/-! ### Cell instructions -/

/-- Cell 5 may issue the word at its program counter, and it spells this. -/
def mayRun (w : Dword) (k : Kind) : Bool :=
  tablesOk (atWord w) && memoryOk (atWord w) && canIssue 5 (atWord w) && decide (spells 5 calm (atWord w) = k)

/-- The VECTOR word of an operation: FP32, A at granule 16, B at 24, D at 32, four granules. -/
def vecWord (op : Nat) : Dword := BitVec.ofNat 64 (2 * 2 ^ 60 + op * 2 ^ 54 + 2 ^ 53 + 16 * 2 ^ 37 + 24 * 2 ^ 22 + 32 * 2 ^ 7 + 3)

theorem witness_FetchReadsMemoryAtPc : State.reset.TablesWf ∧ (cell 5 State.reset).fetch = [] := ⟨tables_of (by decide +kernel), rfl⟩

/-- For ElementwiseVectorResults and FunctionVectorResults. -/
theorem witness_VectorResults : ∀ op ∈ [0, 1, 2, 3, 4, 5, 6, 0xA, 0xD, 0xE], mayRun (vecWord op) (.vector op) = true ∧
    (vectorWord (vecWord op)).d + (vectorWord (vecWord op)).len ≤ exposed 5 (atWord (vecWord op)) := by decide +kernel

/-- For ReductionsWriteOneScalar and the conversions. -/
theorem witness_ReductionsAndConversions : ∀ op ∈ [7, 8, 9, 0xB, 0xC], mayRun (vecWord op) (.vector op) = true ∧
    (vectorWord (vecWord op)).d < exposed 5 (atWord (vecWord op)) := by decide +kernel

theorem witness_ConvertingVectorOpsComplete :
    let s : State := { atWord (vecWord 9) with cellMem := [(5 * cellBytes + 1026, 0xC0), (5 * cellBytes + 1027, 0x7F)] }
    tablesOk s = true ∧ memoryOk s = true ∧ canIssue 5 s = true ∧ spells 5 calm s = .vector 9 ∧ bound 5 s = some (0, 0) ∧
      ((srcA 5 (vectorWord (vecWord 9)) (fill 5 calm s)).any fun x => !isFin x) = true := by decide +kernel

/-- A TENSOR word of one tile and one vector in mode 2 with CLR and array 2 alone. -/
def tensorOne : Dword := BitVec.ofNat 64 (2 ^ 60 + 2 * 2 ^ 57 + 2 ^ 55 + 2 ^ 53 + 64 * 2 ^ 32 + 128 * 2 ^ 17)

theorem witness_TensorTileProduct : mayRun tensorOne .tensor = true ∧ cellWfmt (cell 5 (atWord tensorOne)) = some .c4f ∧
    cellAfmt (cell 5 (atWord tensorOne)) = some .c4f ∧ (tensorWord tensorOne).clr = true ∧ (tensorWord tensorOne).arrays = [2] ∧
    (tensorWord tensorOne).count = 1 ∧ (tensorWord tensorOne).nv = 1 := by decide +kernel

theorem witness_NopJumpAndIllegalWords : mayRun 0 .nop = true ∧ mayRun 0x6000040000000000 .jump = true ∧
    mayRun 0x7000000000000000 .illegal = true := by decide +kernel

/-- WAIT on counter 3 for 2 landings. -/
def waitWord : Dword := BitVec.ofNat 64 (4 * 2 ^ 60 + 3 * 2 ^ 55 + 2 * 2 ^ 31)

theorem witness_WaitTakesItsThreshold : mayRun waitWord .wait = true ∧
    (waitThresh waitWord).toNat ≤ (arrival 5 3 { atWord waitWord with counters := [(5 * 32 + 3, 2)] }).toNat ∧
    (arrival 5 3 { atWord waitWord with counters := [(5 * 32 + 3, 1)] }).toNat < (waitThresh waitWord).toNat := by decide +kernel

theorem witness_stalledWait :
    let s : State := { live [] with cells := [(5, { Cell.reset with stall := .wait 3 2 })], counters := [(163, 2)] }
    tablesOk s = true ∧ (cell 5 s).stall = .wait 3 2 ∧ (cell 5 s).phase = .none ∧ (2 : BitVec 24).toNat ≤ (arrival 5 3 s).toNat := by
  decide +kernel

/-- For SyncClosesItsSlot and MoveInjectsItsFlits. -/
theorem witness_SyncAndMove : mayRun 0x5000000000000000 .sync = true ∧
    (∀ vc ∈ [1, 2, 3], mayRun (BitVec.ofNat 64 (3 * 2 ^ 60 + vc * 2 ^ 58 + 7 * 2 ^ 39)) .move = true) := by decide +kernel

theorem witness_MoveForms : endpointOk 7 = true ∧ endpointOk 221196 = true ∧ endpointOk 221203 = false ∧ barred 5 7 (live []) = false ∧
    (moveWord (BitVec.ofNat 64 (3 * 2 ^ 60 + 2 ^ 58 + 2 ^ 57))).mc = true := by decide +kernel

/-- A VC1 flit from cell 4 to cell `d`, counter 2, granule 40. -/
def oneFlit (d : Nat) : Flit := ⟨BitVec.ofNat 48 (2 ^ 46 + 2 * 2 ^ 38 + 40 * 2 ^ 23 + d * 2 ^ 5), 9⟩

/-- A flit for cell 5 has come from router 4 over a link whose receiver awaits its replay. -/
def onItsWay : State :=
  { live [] with mesh := { Mesh.reset with
      flight := [⟨5, oneFlit 5, 0, [(4, 2)], [], none, none⟩]
      links := [(34, { LinkDir.reset with replay := [(3, oneFlit 5)], await := some 3 })] } }

theorem witness_LandingsStoreAndCount :
    bitAt (oneFlit 5).tag 45 = false ∧ fieldOf (oneFlit 5).tag 46 2 = 1 ∧ fieldOf (oneFlit 5).tag 5 18 = 5 ∧
    fieldOf (oneFlit 6).tag 5 18 ≠ 5 ∧ tablesOk (live []) = true ∧ memoryOk (live []) = true ∧ (cell 5 (live [])).phase ≠ .absorb ∧
    (cell 5 { live [] with cells := [(5, { Cell.reset with phase := .absorb })] }).phase = .absorb ∧
    arrival 5 2 (live []) ≠ 0xFFFFFF ∧ arrival 5 2 { live [] with counters := [(162, 0xFFFFFF)] } = 0xFFFFFF ∧
    (flightOf (fun x => sameFlit x.flit (oneFlit 5)) (live [])).any (·.stuck (live [])) = false ∧ absent 5 (live []) = false ∧
    (flightOf (fun x => sameFlit x.flit (oneFlit 5)) onItsWay).any (·.stuck onItsWay) = true ∧
    absent 5 { live [] with win := [(O.SPARE_MAP 0 0, 0x40)] } = true ∧ ({ calm with conflicts := [5] } : MemEnv).conflicts = [5] := by
  decide +kernel

/-- Router 5 with a multicast entry, a reduction entry of inputs 0 and 1 that sends east, and these heads in its queues. -/
def treeState (a b : List Flit) (credits : Nat) : State :=
  { live [] with mesh := { Mesh.reset with
      mcast := [(5 * 256 + 1, 0x25)], redTab := [(5 * 256 + 1, 0x143)]
      redQ := (if a.isEmpty then [] else [(10248, a.map fun f => (0, f))]) ++ (if b.isEmpty then [] else [(10249, b.map fun f => (0, f))])
      used2 := if credits = 0 then [] else [(42, credits)] } }

/-- A VC2 flit with this IDX. -/
def sumOf (i : Nat) : Flit := ⟨BitVec.ofNat 48 (2 * 2 ^ 46 + i * 2 ^ 15), 0⟩

/-- One input empty; two heads of one IDX, with and without a credit; two heads that differ. -/
theorem witness_TreesCopyAndCombine :
    let heads := fun s => sumHeads 5 1 [0, 1] s
    let s := treeState [sumOf 4] [sumOf 4] 0
    tablesOk s = true ∧ memoryOk s = true ∧ (copyAt 5 (oneFlit 5) s).any (·.stuck s) = false ∧ bitAt (mcastEntry 5 1 s) 5 = true ∧
      bitAt (mcastEntry 5 2 s) 5 = false ∧ bitAt (mcastEntry 5 1 s) 2 = true ∧ (neighbour 5 2).isSome = true ∧ bitAt (mcastEntry 5 1 s) 0 = true ∧
      bitAt (redEntry 5 1 s) 8 = true ∧ ((List.range 5).filter fun p => bitAt (redEntry 5 1 s) p) = [0, 1] ∧
      (neighbour 5 (fieldOf (redEntry 5 1 s) 5 3)).isSome = true ∧ ¬ 5 * 256 + 1 ∈ s.mesh.redStop ∧
      heads (treeState [sumOf 4] [] 0) = [sumOf 4] ∧ heads s = [sumOf 4, sumOf 4] ∧ noCredit 5 (fieldOf (redEntry 5 1 s) 5 3) s = false ∧
      noCredit 5 (fieldOf (redEntry 5 1 s) 5 3) (treeState [sumOf 4] [sumOf 4] 8) = true ∧ tablesOk (treeState [sumOf 4] [sumOf 4] 8) = true ∧
      sumIdx (sumOf 4) ≠ sumIdx (sumOf 5) ∧ heads (treeState [sumOf 4] [sumOf 5] 0) = [sumOf 4, sumOf 5] := by decide +kernel

/-- The row of an attention stage: maximum in granule 16, sum in granule 17, record in granule 40. -/
def attnEnv (scores : Bool) : MemEnv :=
  { calm with attn := some { seq := 0, row := 0, pos := 3, qhead := 1, maxAt := 16, sumAt := 17, recAt := 2560, scores := scores } }

/-- With and without an attention row; a row whose maximum is minus infinity and one whose maximum is zero. -/
theorem witness_attentionRows : calm.attn = none ∧ (attnEnv true).attn.any (·.scores) = true ∧ (attnEnv false).attn.any (!·.scores) = true ∧
    spells 5 (attnEnv false) (atWord tensorOne) = .tensor ∧ fieldOf (readGranule 5 16 (atWord tensorOne)) 0 32 ≠ 0xFF800000 ∧
    fieldOf (readGranule 5 16 { atWord tensorOne with
      cellMem := [(5 * cellBytes + 1026, 0x80), (5 * cellBytes + 1027, 0xFF)] }) 0 32 = 0xFF800000 ∧
    2560 / 64 < exposed 5 (atWord tensorOne) ∧ calm.ue = [] := by decide +kernel

/-- Cell 5 at a QNT word of one group, BF16, with MODE bits `mode` and T 1 at B; its recipe entry sets RSINTER and KSINTER, KFMT C4F. -/
def quantState (mode : Nat) : State :=
  { atWord (BitVec.ofNat 64 (2 * 2 ^ 60 + 0xB * 2 ^ 54 + 16 * 2 ^ 37 + 24 * 2 ^ 22 + 32 * 2 ^ 7 + 1)) with
    cells := [(5, { Cell.reset with run := true, inIter := true, recipe := 0x3000,
                                    fetch := [(0, BitVec.ofNat 512 (2 * 2 ^ 60 + 0xB * 2 ^ 54 + 16 * 2 ^ 37 + 24 * 2 ^ 22 + 32 * 2 ^ 7 + 1)), (1, 0)] })]
    cellMem := [(5 * cellBytes + 1538, 0x80), (5 * cellBytes + 1539, 0x3F)] ++
      (if mode = 0 then [] else [(5 * cellBytes + 1540, BitVec.ofNat 8 mode)]) }

/-- For QNT: a plain one, one that keeps its errors, one in KV mode. -/
theorem witness_QntForms :
    let v := vectorWord (wordAt 5 calm (quantState 0))
    let q := fun mode => qntResult 5 v calm (quantState mode) (quantState mode)
    tablesOk (quantState 4) = true ∧ memoryOk (quantState 6) = true ∧ canIssue 5 (quantState 0) = true ∧
      spells 5 calm (quantState 4) = .vector 0xB ∧ (q 0).header = none ∧ (q 0).kept = none ∧ (q 2).kept.isSome = true ∧
      (q 4).header.isSome = true ∧ (q 4).out.length = 1 ∧ v.d + (q 0).out.length ≤ exposed 5 (quantState 0) := by decide +kernel
/-! ### Links, configuration packets, cell memory -/

theorem witness_frames : (LineFrame.vc0 7 3 0).good = false ∧ (wordFrame 7 3).good = true := by decide +kernel

/-- A receiver that discards and one that does not, a held flit and word that a NAK names, and words of reserved types. -/
theorem witness_LinkReplayCommands :
    let s (a : Option Nat) : State := { live [] with mesh := { Mesh.reset with
      links := [(34, { LinkDir.reset with seq := 1, await := a }), (37, { LinkDir.reset with replay := [(3, oneFlit 5)], replay0 := [(4, 0)] })] } }
    tablesOk (s none) = true ∧ tablesOk (s (some 3)) = true ∧ senderOf 5 2 = some (6, 4) ∧ senderOf 5 4 = some (4, 2) ∧
      (linkDir 4 2 (s none)).discarding false = false ∧ (linkDir 4 2 (s (some 3))).discarding false = true ∧
      (linkDir 6 4 (s none)).discarding true = false ∧ (linkDir 4 5 (s none)).holds false 3 = true ∧
      (linkDir 4 5 (s none)).holds true 4 = true ∧ lost0 [nakOf false 3] (arrivesBy 4 5) (s none) = false ∧
      (s none).mesh.flight = [] ∧ fieldOf (0xC0000000 : Word) 28 4 = 12 ∧ fieldOf (0x70000000 : Word) 28 4 = 7 := by
  decide +kernel

theorem witness_LinkFail :
    let s : State := { live [] with mesh := { Mesh.reset with links := [(34, { LinkDir.reset with fails := 4 })] } }
    tablesOk s = true ∧ senderOf 5 4 = some (4, 2) ∧ (linkDir 4 2 s).failed = false ∧ 4 ≤ (linkDir 4 2 s).fails := by decide +kernel

theorem witness_ConfigurationPackets :
    let s : State := { live [] with agent := { Agent.reset with access := some ⟨5, 0x211, false, 0, true⟩, response := some (false, 7) } }
    tablesOk s = true ∧ (cell 5 s).phase ≠ .absorb ∧ lost0 (cfgPacket 5 0x200 (some 0)) (route agentCell 5) s = false ∧
      lost0 (cfgPacket 5 0x200 none) (route agentCell 5) s = false ∧ rspLost false 7 s = false ∧ s.agent.access = some ⟨5, 0x211, false, 0, true⟩ ∧
      s.agent.response = some (false, 7) ∧ absent 5 s = false ∧ Machine.mayRun 5 s = true ∧ ofCell 0x210 = true ∧
      absent 5 { live [] with win := [(O.SPARE_MAP 0 0, 0x40)] } = true ∧ fieldBound 71 s = false ∧ fieldOf (4 : Word) 0 3 = 4 ∧ fieldOf (5 : Word) 0 3 = 5 := by
  decide +kernel

theorem witness_CellMemoryUpkeep :
    let s : State := { live [] with cells := [(5, { Cell.reset with writeBack := [83] })] }
    tablesOk s = true ∧ 10 * 8 + 3 ∈ (cell 5 s).writeBack ∧ 63000000000 < 63000000001 - (cell 5 s).passStart ∧
      (cell 5 s).passLate = false ∧ scrubNext 5 s + 1 < scrubLimit 5 s ∧
      scrubLimit 5 s ≤ scrubNext 5 { s with cells := [(5, { Cell.reset with scrubPos := 27647 })] } + 1 := by decide +kernel

/-- A VECTOR access that has lost four cycles; ports 2 and 4 on bank 7 with and without it. -/
theorem witness_waitingAccesses :
    let s (l : List Waiting) : State := { live [] with cells := [(5, { Cell.reset with waiting := l })] }
    let m : Meet := { cy := 9, bank := 7, wants := [2, 4], clear := none, won := [] }
    tablesOk (s [⟨4, 7, 4, none⟩]) = true ∧ (cell 5 (s [⟨4, 7, 4, none⟩])).waiting = [⟨4, 7, 4, none⟩] ∧
      (served 5 m (s [])).map (fun w => w.1) = some 2 ∧ losers m 2 = [4] ∧
      (served 5 m (s [⟨4, 7, 4, some 8⟩])).map (fun w => w.1) = some 4 := by decide +kernel

/-! ### Precision, holds, slots, load checks, beats -/

theorem witness_PrecisionCollectAndRecipes :
    let s : State := { live [(F.RECIPE_WIN_SEL.RECIPE, 3)] with prec := { Prec.reset with
      queue := [⟨1, 2, 0⟩], layers := [(1 * 256 + 2, { LayerPrec.reset with granted := true, wide := true })] } }
    tablesOk s = true ∧ s.prec.queue = [⟨1, 2, 0⟩] ∧ (layerPrec 1 2 s).granted = true ∧ (layerPrec 1 2 s).wide = true ∧
      (layerPrec 1 2 s).remain = 0 ∧ s.prec.waiting = [] ∧ s.prec.carried = [] ∧ s.prec.fixed = [] ∧ recipeBusy 3 s = false ∧
      recipeBusy 3 (live [(F.MODEL_SCHED.STATE 2, 1), (F.MODEL_RECIPE.PENDING 2, 1), (F.MODEL_RECIPE.NEXT 2, 3)]) = true := by
  decide +kernel

theorem witness_HoldTestsAndDecision :
    let s : State := { live [] with
      cells := [(5, { Cell.reset with run := true, inIter := true }), (6, { Cell.reset with dueFails := 32768 })],
      sched := { Sched.reset with heldRun := 65536, reqPace := true } }
    tablesOk s = true ∧ 5 ∈ runningCells s ∧ (cell 5 s).inIter = true ∧ holdCauses s ≠ 0 ∧ (cell 6 s).dueFails = 32768 ∧
      s.sched.heldRun = 65536 ∧ s.sched.longHeld = false ∧ ({ Sched.reset with longHeld := true } : Sched).longHeld = true ∧
      slotNo s = (cell 5 s).iterStart ∧ (5 : Nat) ∈ [5] ∧ 5 < cellCount := by decide +kernel

theorem witness_BoundariesHoldOrAdvance :
    let s (w : Dword) : State := { live [] with sched := { Sched.reset with decided := true, slotWord := w } }
    tablesOk (s 0) = true ∧ tablesOk (s 0x100000000) = true ∧ (s 0x100000000).sched.decided = true ∧
      bitAt (s 0x100000000).sched.slotWord 32 = true ∧ bitAt (s 0).sched.slotWord 32 = false := by decide +kernel

theorem witness_LoadCheckRunsAndEnds :
    let s := live [(F.MODEL_SCHED.STATE 3, 1)]
    tablesOk s = true ∧ bitAt (0x13 : Word) 4 = true ∧ fieldOf (0x13 : Word) 0 4 = 3 ∧ s.sched.checking = none ∧ loadable 3 s = true ∧
      (LoadRead.start 3 0).ready = false ∧ (live []).sched.checking = none ∧
      (modelSlot 3 s).loading = none ∧ (modelSlot 3 s).recv = none := by decide +kernel

/-- What a check of slot 3 has read: a header, an empty transfer table, a slice map that names cell 5, and the shape table. -/
def checkRead (h : Nat) : LoadRead :=
  { LoadRead.start 3 0 with header := natToBytes 64 h, slices := natToBytes 32 5, shapes := natToBytes 224 0, ready := true }

/-- A header of INTERVAL 1 for slot 3 over field 0. -/
def goodHeader : Nat := 2 ^ 32 + 3 * 2 ^ 48 + 2 ^ 64

/-- Model slot 3 with field 0 reserved, one row of each kind, `n` slices, a check that has read, and a LOAD_WEIGHTS in progress or none. -/
def checkState (n h : Nat) (l : Option (Nat × Nat)) : State :=
  { live [(F.MODEL_SCHED.STATE 3, 1), (F.MODEL_SVC.GEN_ROWS 3, 1), (F.MODEL_SVC.PRE_ROWS 3, 1), (F.SLICE_COUNT.VALUE 3, n)] with
    sched := { Sched.reset with checking := some (checkRead h) }
    svc := { Svc.reset with models := [(3, { ModelSlot.reset with fields := [0], loading := l })] } }

/-- Tables that fail, tables that pass with and without a load in progress, contents that fail and that pass, and a header not read. -/
theorem witness_loadChecks :
    let x : LoadRest := ⟨[], [], 0, []⟩
    let inp := fun (n : Nat) => loadInput (checkRead n) x
    let h : BitVec 512 := BitVec.ofNat 512 goodHeader
    let u := fun (n : Nat) => applyTables (checkState n goodHeader none)
    tablesOk (checkState 0 goodHeader none) = true ∧ (checkState 0 0 none).sched.checking = some (checkRead 0) ∧
      (checkRead 0).ready = true ∧ (checkRead 0).model = 3 ∧ (inp 0).header = some 0 ∧ (inp goodHeader).header = some h ∧
      (loadInput { checkRead 0 with header := [] } x).header = none ∧ (checkTables 3 0 (inp 0) (u 0)).isSome = true ∧
      checkTables 3 h (inp goodHeader) (u 0) = none ∧ checkContents 3 h (inp goodHeader) [] (u 0) = none ∧
      checkTables 3 h (inp goodHeader) (u 1) = none ∧ (checkContents 3 h (inp goodHeader) [] (u 1)).isSome = true ∧
      (modelSlot 3 (checkState 0 goodHeader (some (0, 0)))).loading ≠ none := by decide +kernel

theorem witness_BeatEdgesAreJudged :
    let s (e r : Option Nat) : State := { live [] with mgmt := { Mgmt.reset with beatEdge := e }, beat := { Beat.reset with reference := r } }
    tablesOk (s (some 100) none) = true ∧ 4299 - 100 < 4200 ∧ (s none none).beat.reference = none ∧
      (s (some 100) (some 100)).beat.reference = some 100 ∧ 4200 ≤ 4300 - 100 ∧ 7659 - 100 < 7560 ∧ 36960 < 37061 - 100 ∧
      7560 ≤ 7660 - 100 ∧ 37060 - 100 ≤ 36960 ∧ beatMode (live [(F.BEAT_STATE.MODE, 0)]) = 0 := by decide +kernel

theorem witness_BeatsWithoutEdgesAndFrames :
    let s (m n : Nat) : State := { live [(F.BEAT_STATE.MODE, m)] with beat := { Beat.reset with counted := n, frames := 1 } }
    tablesOk (s 3 1) = true ∧ internalDue 100000 (s 3 1) = true ∧ lossDue (s 3 1) = false ∧ lossDue (s 1 4096) = true ∧
      internalDue 100000 (s 1 4096) = true ∧ beatMode (s 0 0) = 0 ∧ holdoverDue 100000 (s 0 0) = true ∧
      (s 1 4096).mgmt.events_.length < 64 ∧ beatNo (s 0 0) < (s 0 0).beat.frames * beatsPerFrame ∧
      (live []).beat.frames * beatsPerFrame ≤ beatNo (live []) := by decide +kernel

/-! ### Stacks and pools -/

/-- No retry and no error of a stack. -/
def still : StackEnv := ⟨[], [], []⟩

/-- A LIN request of `n` granules at stack address `a`. -/
def linReq (op a n : Nat) : Granule := BitVec.ofNat 512 (op + a * 2 ^ 192 + (n - 1) * 2 ^ 240)

theorem witness_LinearStackRequests :
    let s := live [(F.HS_STATE.SVC 0, 1)]
    tablesOk s = true ∧ memoryOk s = true ∧ on (F.HS_STATE.SVC 0) s = true ∧ inT36 5 s = false ∧
      inT36 5 { s with win := (live [(F.HS_STATE.SVC 0, 1), (F.MODEL_SCHED.STATE 0, 2)]).win,
                       svc := { Svc.reset with models := [(0, { ModelSlot.reset with fields := [0] })] },
                       sched := { Sched.reset with images := [(0, { Image.reset with t36 := true })] } } = true ∧
      (∀ op ∈ [3, 4], reservedSet (linReq op (stackCapacity s - 64) 1) = false ∧
        linShapeOk (stackReq (linReq op (stackCapacity s - 64) 1)) = true ∧ (stackReq (linReq op (stackCapacity s - 64) 1)).op = op ∧
        (stackReq (linReq op (stackCapacity s - 64) 1)).addr + 64 * 1 ≤ stackCapacity s ∧
        stackCapacity s < (stackReq (linReq op (stackCapacity s) 1)).addr + 64 * 1) := by decide +kernel

/-- A KV request of sequence slot 9, K and V of head 0 of layer 0, one position at `pos`. -/
def kvReq (op pos : Nat) : Granule := BitVec.ofNat 512 (op + 2 ^ 8 + 2 ^ 9 + 9 * 2 ^ 16 + 2 ^ 48 + pos * 2 ^ 64)

/-- Model slot 0 with an enabled pool of one layer and one head whose free list in stack memory holds page 4, and sequence slot 9 with one
page or none: its list entry, at address 65,536, is this word. -/
def kvState (w : Nat) : State :=
  { live [(F.HS_STATE.SVC 0, 1), (F.POOL_CTRL.ENABLE 0, 1), (F.POOL_GEOM.G 0, 1), (F.POOL_GEOM.PAGE_UNITS 0, 1), (F.MODEL_SCHED.STATE 0, 2),
      (F.POOL_FREE.VALUE 0, 1), (F.POOL_FREELIST.VALUE 0, 2), (F.POOL_BASE.VALUE 0, 16)] with
    stackMem := memPut (memPut [] 131072 4 4) 65536 4 w
    kv := { Kv.reset with
      seqs := [(9, { SeqSlot.reset with used := true, len := 256, resv := 1, list := 1024, pages := if w = 0 then [] else [⟨0, 3, false⟩] })],
      freeList := [(0, [4])] } }

theorem witness_KvRequestsWalkThePageList :
    let s := kvState (2 ^ 28 + 3)
    tablesOk s = true ∧ memoryOk s = true ∧ on (F.HS_STATE.SVC 0) s = true ∧ (∀ op ∈ [1, 2], ∀ pos ∈ [255, 256],
      reservedSet (kvReq op pos) = false ∧ kvFieldsOk (stackReq (kvReq op pos)) s = true ∧ (stackReq (kvReq op pos)).op = op) ∧
      inT36 (stackReq (kvReq 1 255)).reply s = false ∧
      (stackReq (kvReq 1 255)).pos + (stackReq (kvReq 1 255)).npos ≤ (seqSlot 9 s).len ∧ pageAt 9 0 s = some ⟨0, 3, false⟩ ∧
      pageAt 9 0 (kvState 0) = none ∧ (kvAddrs 0 3 (stackReq (kvReq 2 255)) s).length = 2 ∧
      (((kvAddrs 0 3 (stackReq (kvReq 2 255)) s).map (·.2)).Pairwise fun a b => a + 64 ≤ b ∨ b + 64 ≤ a) ∧
      recordedPage 9 0 (kvState 0) = none ∧ rd (F.POOL_FREE.VALUE 0) (kvState 0) = 1 ∧ freePage 0 0 (kvState 0) = 4 ∧
      0 < (seqSlot 9 (kvState 0)).resv ∧ tablesOk (kvState 0) = true ∧ memoryOk (kvState 0) = true ∧
      ((kvAddrs 0 4 (stackReq (kvReq 2 255)) (kvState 0)).map (·.2)).all (fun a => decide (listAddr 9 0 (kvState 0) + 4 ≤ a)) = true := by
  decide +kernel

/-- No transfer fails and no granule is lost. -/
theorem witness_still : (∀ a, still.failures a < 5) ∧ ∀ a, still.lost a = false :=
  ⟨fun _ => by simp [still, StackEnv.failures], fun _ => by simp [still, StackEnv.lost, StackEnv.failures]⟩

theorem witness_PoolsAndPatrol :
    let s (en : Nat) := live [(F.HS_STATE.SVC 0, 1), (F.POOL_CTRL.ENABLE 0, en), (F.POOL_GEOM.G 0, 1), (F.POOL_GEOM.PAGE_UNITS 0, 1),
      (F.MODEL_SCHED.STATE 0, 2)]
    tablesOk (s 0) = true ∧ poolOn 0 (s 0) = false ∧ poolOk 0 (s 0) = true ∧ poolOn 0 (s 1) = true ∧ pagesInUse 0 (s 1) = false ∧
      pagesInUse 0 (kvState (2 ^ 28 + 3)) = true ∧ fieldOf (16777216 : Word) 0 25 = 16777216 ∧ fieldOf (16777217 : Word) 0 25 = 16777217 ∧
      on (F.HS_STATE.SVC 0) (s 0) = true ∧ held 5 (s 0) = false ∧ held 5 (live [(bitFld O.BUDGET_HELD 5, 1)]) = true ∧
      63000000000 < 63000000001 - Table.get (fun _ => 0) (s 0).kv.patrolStart 0 := by decide +kernel

/-! ### The service -/

/-- A command entry for model slot 2 with REQ_ID 77; `rest` from byte 12 on. -/
def entry (op rest : Nat) : BitVec 1024 := BitVec.ofNat 1024 (op + 2 * 2 ^ 8 + 77 * 2 ^ 32 + rest * 2 ^ 96)

/-- A READY module with OCL up, command ring 0 enabled with an entry in it, and model slot 2 in a state. -/
def serviceState (st : Nat) (l : List (Fld × Nat)) : State :=
  { live (l ++ [(F.OCL_STATE.STATE, 4), (F.CMD_RING_CFG.ENABLE 0, 1), (F.MODEL_SCHED.STATE 2, st), (F.MODEL_SVC.GEN_ROWS 2, 1)]) with
    svc := { Svc.reset with cmd := [(0, ⟨1, 0⟩)] } }

/-- A request of model slot 2. -/
def someRequest : Request := newRequest (entry 1 0) false 0 State.reset

/-- A prefix handle of model slot 2 with a user. -/
def somePfx : PfxEntry := ⟨9, 2, false, false, 1, [], 0, [], []⟩

theorem witness_RequestCommandsAreTaken :
    let s := serviceState 2 []
    let full : State := { s with svc := { s.svc with reqs := [{ someRequest with inStep := true }], pfx := [somePfx] } }
    tablesOk s = true ∧ tablesOk full = true ∧ (∀ op ∈ [1, 2, 3, 4], cmdReady 0 op (entry op 9) s = true) ∧
      requestCode (entry 1 (2 ^ 64 + 2 ^ 160)) s = 0 ∧ cmdBytes (entry 1 (2 ^ 64 + 2 ^ 160)) 12 8 = 0 ∧
      requestCode (entry 1 0) s = 3 ∧ requestCode (entry 3 (9 + 2 ^ 64)) s = 0 ∧ pfxEntry 9 s = none ∧ s.svc.pfx.length < 65536 ∧
      shortCode (entry 2 9) 20 s = 0 ∧ cancelTarget 2 77 full = some { someRequest with inStep := true } ∧ cancelTarget 2 9 s = none ∧
      request 0 full = some { someRequest with inStep := true } ∧ usableHandle 2 9 full = some somePfx ∧ somePfx.users ≠ 0 ∧
      usableHandle 2 9 s = none := by decide +kernel

theorem witness_cancelOutsideAStep :
    let s := serviceState 2 []
    cancelTarget 2 77 { s with svc := { s.svc with reqs := [someRequest] } } = some someRequest ∧ someRequest.inStep = false := by
  decide +kernel

/-- OPEN_MODEL of 12 fields and no stack memory. -/
def openEntry : BitVec 1024 := entry 5 12

theorem witness_ModelsOpenAndClose :
    let s := serviceState 0 [(F.HS_STATE.SVC 0, 1)]
    let o : Opening := { model := 2, ring := 0, reqId := 77, fields := 12, stack := 0, flags := 0, victims := [] }
    let closing : State := { s with svc := { s.svc with models := [(2, { ModelSlot.reset with closing := true })] } }
    tablesOk s = true ∧ memoryOk s = true ∧ tablesOk closing = true ∧ cmdReady 0 5 openEntry s = true ∧ openCode openEntry s = 0 ∧
      s.svc.opening = none ∧ pickFields o [] s = some (List.range 12) ∧ pickStack 0 [] s = some 0 ∧
      pickFields { o with fields := 73 } [] s = none ∧ bitAt openEntry 160 = false ∧
      errorCode (commonReserved (entry 6 0) || bytesSet (entry 6 0) 12 128) (slotSt 2 (serviceState 1 []) == 0) false = 0 ∧
      cmdReady 0 6 (entry 6 0) (serviceState 1 []) = true ∧ (modelSlot 2 (serviceState 1 [])).closing = false ∧
      (modelSlot 2 closing).closing = true ∧ closeQuiet 2 closing = true ∧ slotSt 2 (serviceState 1 []) ≠ 0 := by decide +kernel

/-- A slice of one granule at granule 100 of cell 5. -/
def oneSlice : List Slice := [⟨5, 0, 100, 1, 0⟩]

theorem witness_WeightsAreLoadedReceivedAndReadBack :
    let s := serviceState 1 []
    let recv : State := { s with svc := { s.svc with models := [(2, { ModelSlot.reset with
      recv := some ⟨0, 77, 1024, 1024, 1, 0, 5⟩, slices := oneSlice })] } }
    let load : State := { s with svc := { s.svc with models := [(2, { ModelSlot.reset with
      loading := some (0, 77), slices := oneSlice, job := { LoadJob.reset with todo := [⟨0, 0, 1, 64⟩] } })] } }
    tablesOk s = true ∧ memoryOk s = true ∧ tablesOk recv = true ∧ tablesOk load = true ∧ cmdReady 0 7 (entry 7 0) s = true ∧
      loadCode (entry 7 0) s = 0 ∧ held 3 s = false ∧ (modelSlot 2 s).loading = none ∧ rd (F.SLICE_COUNT.VALUE 2) s = 0 ∧
      cmdBytes (entry 7 0) 20 4 = 0 ∧ cmdReady 0 7 (entry 7 (2 ^ 64)) s = true ∧ loadCode (entry 7 (2 ^ 64)) s = 0 ∧
      cmdBytes (entry 7 (2 ^ 64)) 20 4 = 1 ∧ rd (F.SLICE_COUNT.VALUE 2) (serviceState 1 [(F.SLICE_COUNT.VALUE 2, 3)]) = 3 ∧
      segmentSlice oneSlice 0 0 1 = some ⟨5, 0, 100, 1, 0⟩ ∧ (modelSlot 2 load).loading = some (0, 77) ∧
      (modelSlot 2 load).job.todo = [⟨0, 0, 1, 64⟩] ∧ (modelSlot 2 load).job.pass = false ∧
      (granulesOf (List.replicate 64 (7 : Byte))).length = 1 ∧ bitAt (entry 7 0) 256 = false ∧
      cmdReady 0 8 (entry 8 (2 ^ 64)) s = true ∧ receiveCode (entry 8 (2 ^ 64)) s = 0 ∧
      (modelSlot 2 recv).recv = some ⟨0, 77, 1024, 1024, 1, 0, 5⟩ ∧ cmdReady 0 9 (entry 9 (2 ^ 32)) recv = true ∧
      readbackSlices (entry 9 (2 ^ 32)) recv = some oneSlice ∧
      reachable 5 s = 27648 ∧ (⟨entry 9 (2 ^ 32), []⟩ : ReadbackTake).entry = entry 9 (2 ^ 32) ∧
      held 3 { recv with win := (serviceState 1 [(bitFld O.BUDGET_HELD 3, 1)]).win } = true := by decide +kernel

theorem witness_RingsOpenAndMakeRoom :
    let s := live [(F.CMD_RING_CFG.SIZE_LOG 0, 4), (F.OUT_RING_CFG.ENABLE 1, 1)]
    let q : Request := { someRequest with filling := true }
    tablesOk s = true ∧ on (ringEnFld 0) s = false ∧ ringSizeOk 0 s = true ∧ ringUsed 16 0 ≤ 2 ^ ringLog 0 s ∧
      2 ^ ringLog 0 s < ringUsed 17 0 ∧ outLive 1 s = true ∧ outLive 2 s = false ∧ (outRing 1 s).waiting = [] ∧ (outRing 1 s).held = [] ∧
      request 0 { s with svc := { s.svc with reqs := [q] } } = some q ∧ q.filling = true ∧ held 2 s = false := by decide +kernel

/-- A request that fills from handle 9, whose prefix keeps a sinter store. -/
theorem witness_fillsFromPrefix :
    let q : Request := { someRequest with filling := true, usesHandle := true, handle := 9 }
    let s : State := { live [] with svc := { Svc.reset with reqs := [q], pfx := [{ somePfx with sinter := [⟨0, 0, 4, 5, [7]⟩] }] } }
    tablesOk s = true ∧ request 0 s = some q ∧ s.pair.sinter = [] ∧ storesOf q.seq s = [] ∧
      (pfxEntry 9 s).map (fun e => e.sinter.length) = some 1 ∧ fillPositions 3 256 ≠ [] := by decide +kernel

/-- A step of model slot 2 with one sequence. -/
def someStep (st : LedState) (guard : Nat) : LedgerEntry :=
  { index := 3, model := 2, launch := 0, first := 0, isPrefill := false, recipe := 0, state := st, attempt := 0, replay := false, tainted := false
    seqs := [⟨9, 0, 77, 0, 0, 0, [], [], [], 0, false, [], 1, []⟩], guard := guard, group := none, awaitsAck := false, table := [] }

theorem witness_StepsReachTheirResultAndCommit :
    let s (e : LedgerEntry) : State := { live [] with ledger := { Ledger.reset with entries := [e] } }
    tablesOk (s (someStep .launched 0)) = true ∧ ledgerEntry 3 (s (someStep .launched 0)) = some (someStep .launched 0) ∧
      ledgerEntry 3 (s (someStep .result 3)) = some (someStep .result 3) ∧ commitReady (someStep .result 3) (s (someStep .result 3)) = true ∧
      commitReady (someStep .result 2) (s (someStep .result 2)) = false ∧ request 0 (s (someStep .result 3)) = none ∧
      spansOf 0 (0 + 1) = [0] := by decide +kernel

/-! ### The tune job, the links, the companion -/

/-- A block of one example that is in flight. -/
def oneBlock (apply : Bool) : TuneBlock := ⟨2, 10, 4, [0], [7], [], apply⟩

/-- A tune job of model slot 2 in a state, with these blocks. -/
def tuning (st : Nat) (bs : List TuneBlock) : State :=
  { live [(F.MODEL_SCHED.STATE 2, 2), (F.TUNE_CFG.MODEL, 2), (F.TUNE_CFG.EN, 1), (F.TUNE_CFG.TBLK, 4), (F.TUNE_RING_CFG.ENABLE, 1),
    (F.TUNE_STATE.STATE, st)] with tune := { Tune.reset with blocks := bs } }

theorem witness_TuneJobFollowsItsCommands :
    tablesOk (tuning 0 []) = true ∧ tablesOk (tuning 1 [oneBlock true]) = true ∧ tuneRunOk (tuning 0 []) = true ∧
      tuneRunOk (tuning 1 []) = false ∧ tuneSt (tuning 1 []) = 1 ∧ tuneSt (tuning 3 []) = 3 ∧ tuneSt (tuning 4 []) = 4 ∧
      (tuning 1 [oneBlock true]).tune.blocks = [oneBlock true] ∧ blockOver (oneBlock true) (tuning 1 [oneBlock true]) = true ∧
      blockOver (oneBlock false) (tuning 1 [oneBlock false]) = true ∧ (oneBlock true).apply = true ∧ (oneBlock true).examples ≠ [] ∧
      (oneBlock false).apply = false ∧ openFirst (tuning 1 []) = 0 := by decide +kernel

/-- A module whose OCL and span port 0 are in a state. -/
def linked (st : Nat) (l : LinkState) : State :=
  let s := live [(F.OCL_STATE.STATE, st), (F.SPAN_STATE.STATE 0, st)]
  { s with link := l, pair := { s.pair with port0 := l } }

/-- What a peer of port 0 offers. -/
def offer : Params := ⟨1, 64, 4096, 1024, 0, 9, false, 0, false⟩

theorem witness_LinksTrainAndGoDown :
    let l := LinkState.reset
    let worn : LinkState := { l with retrainFails := 3 }
    (∀ st ∈ [0, 1, 2, 3, 4, 5, 6], tablesOk (linked st worn) = true ∧ linkSt 0 (linked st l) = st ∧ linkSt 1 (linked st l) = st) ∧
      (live []).mgmt.inReset = false ∧ (live []).power.off = false ∧ l.peer.isSome = false ∧
      (linkOf 1 (linked 5 { l with peer := some offer })).peer.isSome = true ∧ chooseWidth 0 0 = some (0, 0) ∧ chooseWidth 1 1 = some (1, 1) ∧
      chooseWidth 0 (2 ^ 32 - 1) = none ∧ paramsRefused 0 offer = false ∧ paramsRefused 1 offer = false ∧
      paramsRefused 0 { offer with req := 127 } = true ∧ paramsRefused 1 { offer with req := 4095 } = true ∧
      miscabled 0 offer (linked 3 l) = false ∧ miscabled 0 { offer with port := 1 } (linked 3 l) = true ∧ pairMode (linked 3 l) = 0 ∧
      downCause 0 5 (linked 5 worn) = true ∧ downCause 1 5 (linked 4 worn) = true ∧
      (linkOf 0 (linked 6 l)).downAt + 100000 * cyPerUs ≤ 100000 * cyPerUs := by decide +kernel

/-- Flits of a type (PAYLOAD 0, NAK 2, RETRAIN 3) with SEQ 0 that acknowledge nothing. -/
def plainFlit (type : Nat) : BitVec 2048 := buildFlit (flitHeader LinkState.reset type 0) []

theorem witness_goodFlits : ∀ ty ∈ [0, 2, 3], (takeOff 0 (plainFlit ty) (linked 4 .reset)).1.bad = false ∧
    (takeOff 0 (plainFlit ty) (linked 4 .reset)).1.type = ty ∧ (takeOff 0 (plainFlit ty) (linked 4 .reset)).1.seq = 0 ∧
    (takeOff 0 (plainFlit ty) (linked 4 .reset)).1.ackV = false := by decide +kernel

/-- 256 bytes of zero are a codeword whose CRC is wrong. -/
theorem witness_badFlit : (takeOff 0 0 (linked 4 .reset)).1.bad = true := by decide +kernel

/-- Lane 0 of four meets bytes 0, 4, 8, ...; scrambling with the same states gives the bytes back. -/
theorem test_scramble : scrambleFlit (scrambleFlit 0x1234 [1, 2, 3, 4]).1 [1, 2, 3, 4] = (0x1234, (scrambleFlit 0 [1, 2, 3, 4]).2) := by
  decide +kernel

theorem witness_FlitsAreDeliveredAcknowledgedAndReplayed :
    let l : LinkState := { LinkState.reset with replay := [⟨0, 0, [], 0⟩], nakked := true, ackTimeouts := 3 }
    let ahead : LinkState := { LinkState.reset with rxSeq := 1 }
    let behind : LinkState := { LinkState.reset with rxSeq := 4095 }
    tablesOk (linked 4 l) = true ∧ linkSt 0 (linked 4 l) = 4 ∧ linkSt 1 (linked 4 l) = 4 ∧ l.waiting = [] ∧ l.replay ≠ [] ∧
      (readFlit (plainFlit 0)).seq = l.rxSeq ∧ (readFlit (plainFlit 0)).seq ≠ ahead.rxSeq ∧
      (ahead.rxSeq + 4096 - (readFlit (plainFlit 0)).seq) % 4096 < 2048 ∧ (readFlit (plainFlit 0)).seq ≠ behind.rxSeq ∧
      2048 ≤ (behind.rxSeq + 4096 - (readFlit (plainFlit 0)).seq) % 4096 ∧ 3 ≤ l.ackTimeouts := by decide +kernel

/-- A read of command ring 0's header line with TAG 5, tried before or not. -/
def ringRead (retried : Bool) : HostRead := ⟨5, 128, 1, true, retried, .cmdRing 0⟩

/-- A companion link that is up, with one read outstanding and one line watched. -/
def companion (r : HostRead) : State :=
  { live [(F.OCL_STATE.STATE, 4), (F.CMD_RING_CFG.ENABLE 0, 1), (F.OCL_ENC.KEYS, 1),
      (F.INTR_EN.EVT, 1), (F.INTR_CFG.EVT_VEC, 3)] with
    ocl := { Ocl.reset with reads := [r], nextTag := 6, watches := [⟨128, .cmdRing 0, some 0⟩], intr := [⟨3, 0, true⟩] } }

/-- A companion link whose inbox holds a write of the window and, behind it, a read. -/
def inboxed : State :=
  { companion (ringRead false) with ocl := { Ocl.reset with
      inbox := [rowMsg 0x11 0 0 0 0x44 0 false [7] .plain, rowMsg 0x10 9 0 0 0x44 0 false [] .plain], closed := false } }

/-- Messages whose turn it is and whose turn it is not, an encrypted one for which no key is held, and a closed session. -/
theorem witness_messagesInTurn :
    let rdOf := fun (m : Msg) => m.op == 0x10 && m.tag == 9 && accessOf 0x44 4 m
    let wrOf := fun (m : Msg) => m.op == 0x11 && accessOf 0x44 4 m
    let sealed := rowMsg 0x11 0 0 0 0x44 0 false [7] ⟨true, false, 0⟩
    tablesOk inboxed = true ∧ linkSt 0 inboxed = 4 ∧ msgTurn rdOf inboxed = false ∧ msgTurn wrOf inboxed = true ∧
      msgTurn rdOf (companion (ringRead false)) = true ∧ secOk (encMmio inboxed) sealed inboxed = false ∧ sealed.enc = true ∧
      secOk (encMmio inboxed) (rowMsg 0x11 0 0 0 0x44 0 false [7] .plain) inboxed = true ∧
      (rowMsg 0x20 5 7 0 0 0 false (List.replicate 32 0) .plain).status = 0 ∧
      (rowMsg 0x20 5 7 0 0 0 true [] .plain).poison = true ∧ (rowMsg 0x20 5 7 0 0 0 false [] .plain).poison = false ∧
      ({ inboxed with ocl := { inboxed.ocl with closed := true } } : State).ocl.closed = true ∧
      tuneRingOn (live [(F.TUNE_RING_CFG.ENABLE, 1)]) = true ∧ bitAt (0x101 : Word) 8 = true ∧ bitAt (0x101 : Word) 0 = true := by
  decide +kernel

theorem witness_CompanionMessagesAct :
    let s := companion (ringRead false)
    intrOn 3 s = true ∧ tablesOk s = true ∧ tablesOk (companion (ringRead true)) = true ∧ linkSt 0 s = 4 ∧ s.ocl.closed = false ∧ rd F.OCL_ENC.MODE s = 0 ∧
      s.ocl.inbox = [] ∧ accessOk 0x44 4 = true ∧ accessOk 0x42 4 = false ∧ 128 % 64 = 0 ∧
      s.ocl.watches.find? (·.addr == 128) = some ⟨128, .cmdRing 0, some 0⟩ ∧ freeTag s ≠ none ∧ readWith 6 s = none ∧ 0 ∉ s.svc.unread ∧
      readWith 5 s = some (ringRead false) ∧ (ringRead false).retried = false ∧
      readWith 5 (companion (ringRead true)) = some (ringRead true) ∧ (ringRead true).retried = true ∧
      on (F.CMD_RING_CFG.ENABLE 0) s = true ∧ (List.replicate 8 (0 : Slot16)).length = 4 * ((ringRead false).lenm1 + 1) ∧
      s.link.waiting = [] ∧ moderationOf 3 s = some ⟨3, 0, true⟩ ∧ intrFree 3 s = true ∧ on (ringEnFld 0) s = true ∧
      answersAt false O.DOORBELL s = true ∧ answersAt false O.OCL_ENC s = true ∧ on F.OCL_ENC.KEYS s = true ∧
      on F.OCL_ENC.KEYS (live []) = false := by decide +kernel

/-! ### The pair -/

/-- A message of model slot 1 with this PSN, ARG and data. -/
def spanMsg (op psn arg : Nat) (data : List Slot16) : SpanMsg := ⟨op, 1, psn, arg, data⟩

/-- Port 0 is ACTIVE and PAIR_STATE, MODE and SENIOR are these. -/
def paired_ (st mode sen : Nat) : State :=
  live [(F.SPAN_STATE.STATE 0, 4), (F.PAIR_STATE.STATE, st), (F.PAIR_CFG.MODE, mode), (F.PAIR_STATE.SENIOR, sen)]

theorem witness_MirrorStreamMessages :
    let s : State := { paired_ 4 1 0 with pair := { (paired_ 4 1 0).pair with rxPsn := [(1, 7)] } }
    tablesOk s = true ∧ activePorts s ≠ [] ∧ pairSt s = 4 ∧ inTurn 1 7 s ∧ held 4 s = false ∧ s.pair.ahead = [] ∧
      held 4 (live [(bitFld O.BUDGET_HELD 4, 1)]) = true ∧
      cmdOp (BitVec.ofNat 1024 (slotsNat (spanMsg 0x10 7 0 [1]).data)) = 1 ∧
      cmdBytes (BitVec.ofNat 1024 (slotsNat (spanMsg 0x10 7 0 [1]).data)) 12 8 = 0 ∧ 9 ≠ rxExpected 1 s ∧
      ringUsed 9 (rxExpected 1 s) < 2 ^ 31 ∧ 2 ^ 31 ≤ ringUsed 6 (rxExpected 1 s) := by decide +kernel

theorem witness_PassOnAndSplitMessages :
    let rec_ : BitVec 128 := BitVec.ofNat 128 0
    let e : LedgerEntry := { someStep .launched 0 with model := 1, launch := 3 }
    let s (sen : Nat) : State := { paired_ 5 2 sen with
      ledger := { Ledger.reset with entries := [e] }
      sched := { Sched.reset with images := [(1, { Image.reset with crossings := [rec_] })] }
      mesh := { Mesh.reset with flight := [⟨5, oneFlit 5, 0, [], [], none, some (1, 0)⟩] }
      pair := { (paired_ 5 2 sen).pair with passSent := [(1, 0)], crossed := [(2, 40)], backSteps := [⟨0, 1, 3, 1, [], true, false⟩] } }
    tablesOk (s 1) = true ∧ memoryOk (s 1) = true ∧ activePorts (s 1) ≠ [] ∧ inTurn 3 0 (s 1) ∧ inTurn 2 0 (s 1) ∧ pairMode (s 1) ≠ 0 ∧
      (modelSlot 1 (s 1)).recv = none ∧ pairSt (s 1) = 5 ∧ (image 1 (s 1)).crossings[bitsOf 0 0 15]? = some rec_ ∧
      (image 1 (s 1)).crossings[bitsOf 1 0 15]? = none ∧ senior (s 1) = true ∧ senior (s 0) = false ∧
      4 ≤ (spanMsg 0x30 0 0 [1, 2, 3, 4]).data.length ∧ crossCell rec_ < 221184 ∧ Table.wf (fun _ => 0) (s 0).pair.crossed = true ∧
      (flightOf (fun y => sameFlit y.flit (oneFlit 5)) (s 0)).any (fun x => !x.stuck (s 0) && x.xin == some (1, 0)) = true ∧
      (s 0).pair.backSteps = [⟨0, 1, 3, 1, [], true, false⟩] ∧
      (s 1).ledger.entries.find? (fun e => e.model == 1 && e.launch == 3 && e.state == .launched && !e.replay) = some e ∧
      (s 1).pair.passSent = [(1, 0)] ∧ (linkOf 1 (s 1)).waiting = [] := by decide +kernel

theorem witness_splitLaunch :
    let rec_ : BitVec 128 := BitVec.ofNat 128 (1 <<< 40)
    let s : State := { live [(F.SPAN_STATE.STATE 0, 4), (F.PAIR_STATE.STATE, 5), (F.PAIR_CFG.MODE, 2), (F.SPLIT_CTRL.EN 1, 1)] with
      sched := { Sched.reset with images := [(1, { Image.reset with crossings := [rec_] })] }
      pair := { Pair.reset with crossed := [(2, 5000)] } }
    tablesOk s = true ∧ splitBack 1 s = true ∧ pairSt s = 5 ∧ Table.wf (fun _ => 0) s.pair.crossed = true ∧ 0 < crossTotal 1 0 s ∧ crossTotal 1 0 s ≤ crossed 1 0 s := by decide +kernel

/-- Port 0 is ACTIVE in a pair; sequence slot 2 of model 1 holds page 4 for span 0 by its list entry at 65,536, and asks for its layer 0. -/
def pageState (st sen : Nat) : State :=
  let b := live [(F.SPAN_STATE.STATE 0, 4), (F.PAIR_STATE.STATE, st), (F.PAIR_CFG.MODE, 1), (F.PAIR_STATE.SENIOR, sen),
    (F.POOL_GEOM.PAGE_UNITS 1, 1)]
  { b with
    stackMem := memPut [] 65536 4 (2 ^ 28 + 4)
    kv := { b.kv with seqs := [(2, { SeqSlot.reset with used := true, model := 1, list := 1024, pages := [⟨0, 4, false⟩] })] }
    pair := { b.pair with pageReqs := [⟨1, 2, 0, 0, 0, none, 0⟩], rxPsn := [(1, 7)], lag := [(9, 3)] } }

theorem witness_PartnerMessages :
    let s := pageState 4 0
    tablesOk s = true ∧ memoryOk s = true ∧ linkSt 1 s = 4 ∧ pairMode s ≠ 0 ∧ senior s = false ∧ senior (pageState 3 1) = true ∧
      pairSt s = 4 ∧ pairSt (pageState 2 0) = 2 ∧ pairSt (pageState 5 0) = 5 ∧ pairSt (pageState 7 0) = 7 ∧ inTurn 1 7 s ∧
      isMirror s = true ∧ bitsOf 33 32 1 = 0 ∧ bitsOf (2 ^ 32 + 5) 32 1 = 1 ∧ pageAt 2 0 s = some ⟨0, 4, false⟩ ∧ pageAt 2 1 s = none ∧
      held 2 s = false ∧ held 4 s = false ∧ held 2 (live [(bitFld O.BUDGET_HELD 2, 1)]) = true ∧
      pageReqOf (pageArg 1 2 0 0) s = some ⟨1, 2, 0, 0, 0, none, 0⟩ ∧ pageReqOf (pageArg 1 2 1 0) s = none ∧
      (⟨1, 2, 0, 0, 0, none, 0⟩ : PageReq).page s = some 4 ∧ (⟨1, 2, 1, 0, 0, none, 0⟩ : PageReq).page s = none ∧
      still.lostIn (inLayer 1 4 0 s) = [] ∧ (⟨[], [], [pageElem 1 4 0 s]⟩ : StackEnv).lostIn (inLayer 1 4 0 s) ≠ [] ∧
      0 + 16 * 3 < pageBytes 1 s ∧ pageBytes 1 s ≤ 1000000 + 16 * 3 ∧
      (List.range 3).Pairwise (fun i j => pageByte 1 4 0 (16 * i) s + 16 ≤ pageByte 1 4 0 (16 * j) s) := by decide +kernel

theorem witness_PairStatesFollowHostAndPartner :
    let lone : State := live [(F.PAIR_STATE.STATE, 4), (F.PAIR_CFG.MODE, 1)]
    let arb (st : Nat) : State := live [(F.PAIR_STATE.STATE, st), (F.PAIR_CFG.MODE, 1), (F.PAIR_ARB_EPOCH.VALUE, 3)]
    tablesOk lone = true ∧ anyLoaded lone = false ∧ anyLoaded (serviceState 2 []) = true ∧ fieldOf (2 : Word) 0 2 ≠ pairMode lone ∧
      activePorts lone = [] ∧ activePorts (paired_ 0 0 1) ≠ [] ∧ senior (paired_ 0 0 1) = true ∧ senior (paired_ 0 0 0) = false ∧
      pairMode lone ≠ 0 ∧ lone.pair.partner = none ∧ lone.pair.watch = none ∧
      ({ (paired_ 0 0 1) with pair := { Pair.reset with partner := some offer, watch := some 0 } } : State).pair.partner = some offer ∧
      offer.senior ≠ senior (paired_ 0 0 1) ∧ offer.epoch < 2 ^ 32 ∧
      ({ lone with pair := { lone.pair with watch := some 0 } } : State).pair.watch = some 0 ∧
      ((List.range 4).map fun k => (linkOf (k + 1) lone).downAt).foldl max 0 + 1000 * cyPerUs ≤ 1000 * cyPerUs ∧
      rd F.PAIR_EPOCH.VALUE (arb 6) < rd F.PAIR_ARB_EPOCH.VALUE (arb 6) ∧ arbFits 1 (arb 6) = true ∧ arbFits 2 (arb 6) = true ∧
      arbFits 3 (arb 4) = true ∧ arbFits 3 (arb 6) = false ∧ (arb 6).pair.arb = none ∧ (arb 6).boot.failed = false ∧
      pairSt (arb 7) = 7 ∧ (arb 7).svc.reqs = [] ∧ (arb 7).pair.takeover = false ∧ pairSt (paired_ 2 1 0) = 2 ∧ (paired_ 2 1 0).pair.ahead = [] := by
  decide +kernel

/-! ### Faults, resets, power and temperature -/

/-- A plain reset of cell 5 in a phase. -/
def oneJob (phase : Nat) : ResetJob := ⟨[5], [], [], phase, 0, [], [], [], []⟩

/-- That job in progress, with the cell in its phase. -/
def resetting (phase : Nat) (p : RstPhase) : State :=
  { live [(F.RST_STATE.BUSY, 1), (F.RST_STATE.PHASE, phase)] with
    faults := { Faults.reset with job := some (oneJob phase) }, cells := [(5, { Cell.reset with phase := p })] }

theorem witness_FatalEventsStopTheModule :
    let late : State := { live [(F.HS_STATE.SVC 3, 1)] with
      link := { LinkState.reset with downFrames := 1024 }
      power := { Power.reset with samples := 1024, event := some ⟨[4], 0, 0, false⟩ } }
    let stuck : State := { setCnt F.BEAT_NO beatsPerFrame (resetting 0 .drain) with sched := Sched.reset }
    tablesOk late = true ∧ late.faults.stopped = false ∧ linkSt 0 late ≠ 4 ∧ 1024 ≤ late.link.downFrames ∧
      on (F.HS_STATE.SVC 3) late = true ∧ fieldOf (0x62800000 : Word) 28 4 = 6 ∧ bitAt (0x6A800000 : Word) 27 = true ∧
      4 < fieldOf (0x6A800000 : Word) 23 4 ∧ bitAt (0x62800000 : Word) 27 = false ∧
      fieldOf (0x62800000 : Word) 23 4 ≠ Table.get (fun _ => 0) late.mesh.used2 (5 * 8 + 1) ∧ tablesOk stuck = true ∧
      stuck.faults.job = some (oneJob 0) ∧ (oneJob 0).beat + beatsPerFrame ≤ beatNo stuck ∧ feedIsOk 0 (live []) = false ∧
      feedIsOk 1 (live []) = false ∧ (live []).power.off = false ∧
      ({ live [] with power := { Power.reset with off := true } } : State).power.off = true ∧ late.power.event = some ⟨[4], 0, 0, false⟩ ∧ 0 + 1024 ≤ late.power.samples ∧
      ({ late with faults := { late.faults with stopped := true } } : State).faults.stopped = true := by decide +kernel

/-- VALUE beside the account of the audited buffer, VC2 and VC3, equal and not. -/
theorem witness_audit :
    let s : State := { live [] with mesh := { Mesh.reset with used2 := [(41, 5)] } }
    tablesOk s = true ∧ 5 < cellCount ∧ fieldOf (0x62800000 : Word) 28 4 = 6 ∧ bitAt (0x62800000 : Word) 27 = false ∧
      fieldOf (0x62800000 : Word) 23 4 = used2 5 1 s ∧ fieldOf (0x62800000 : Word) 23 4 ≠ used2 5 2 s ∧
      bitAt (0x68000000 : Word) 27 = true ∧ fieldOf (0x68000000 : Word) 28 4 = 6 ∧ fieldOf (0x68000000 : Word) 23 4 = used3 5 1 s ∧
      fieldOf (0x6A800000 : Word) 23 4 ≠ used3 5 1 s := by decide +kernel

theorem witness_ReportsAndResetRequestsBeginJobs :
    tablesOk (live []) = true ∧ tablesOk (resetting 0 .drain) = true ∧ 221183 < cellCount ∧ rd F.FLT_LAST.V (live []) = 0 ∧
      rd F.FLT_LAST.V (live [(F.FLT_LAST.V, 1)]) = 1 ∧ (live []).faults.stopped = false ∧ runningModelOf 5 (live []) = none ∧
      rd F.RST_STATE.BUSY (live []) = 0 ∧ rd F.RST_STATE.BUSY (resetting 0 .drain) = 1 := by decide +kernel

theorem witness_ResetJobsRunTheirPhases :
    let s : State := { live [(F.MODEL_SCHED.STATE 2, 2)] with sched := { Sched.reset with images := [(2, { Image.reset with cells := [5] })] } }
    tablesOk (resetting 0 .drain) = true ∧ (resetting 1 .absorb).faults.job = some (oneJob 1) ∧ 5 ∈ (oneJob 0).cells ∧
      allIn .drain (oneJob 0) (resetting 0 .drain) = true ∧ allIn .absorb (oneJob 1) (resetting 1 .absorb) = true ∧
      allIn .release (oneJob 2) (resetting 2 .release) = true ∧ (oneJob 1).work = [] ∧ worksOf (oneJob 1) (resetting 1 .absorb) = [] ∧
      (resetting 1 .absorb).mesh.placing = [] ∧ (resetting 2 .release).mesh.tabWrites = [] ∧ rd F.RST_STATE.BUSY s = 0 ∧
      rd F.RST_CTRL.TARGET s < cellCount ∧ cellCount ≤ rd F.RST_CTRL.TARGET (live [(F.RST_CTRL.TARGET, 221184)]) ∧
      rd F.RST_STATE.BUSY (resetting 1 .absorb) = 1 ∧ tablesOk s = true ∧ fieldOf (0x22000000 : Word) 28 4 = 2 ∧
      modelOfCell 5 s = some (fieldOf (0x22000000 : Word) 24 4) ∧ fieldOf (0x38000000 : Word) 28 4 = 3 ∧
      bitAt (0x38000000 : Word) 27 = true ∧ bitAt (0x30000000 : Word) 27 = false := by decide +kernel

theorem witness_FeedsAndPowerLevels :
    let x : FieldPower := { FieldPower.reset with vclCount := 64 }
    let s (n sum : Nat) : State := { live [(F.FLD_PWR_STATE.PHASES 0, 16), (F.PWR_STATE.A_OK, 1)] with power := { Power.reset with
      fields := [(0, { x with vclSum := sum, sagged := n })], capCount := 64, inputs := [20000], event := some ⟨[4], 0, 64, true⟩ } }
    let far := live [(F.PWR_STATE.A_OK, 1), (F.PWR_STATE.B_OK, 1), (F.FEED_A.V, 100), (F.FEED_A.A, 100)]
    tablesOk (s 0 0) = true ∧ feedIsOk 0 (s 0 0) = true ∧ feedIsOk 1 (s 0 0) = false ∧
      tablesOk far = true ∧ shareOutside far = true ∧ far.power.shareOff = false ∧ phaseFailed 0 3 (s 0 0) = false ∧ (s 0 0).power.off = false ∧
      ({ s 0 0 with power := { (s 0 0).power with off := true } } : State).power.off = true ∧
      (gateLevel 0 (wr (F.FLD_PWR_STATE.PHASES 0) 15 (wr F.COOL_STATE.STATE 4 (s 0 0)))).1 = 16 ∧
      phases 0 (wr (F.FLD_PWR_STATE.PHASES 0) 15 (wr F.COOL_STATE.STATE 4 (s 0 0))) < 16 ∧
      1 ≤ phases 0 (s 0 0) ∧ 64 ≤ (fieldPower 0 (s 0 0)).vclCount ∧ (gateLevel 0 (s 0 0)).1 ≠ 16 ∧
      48 * phases 0 (s 0 0) * 64 < (fieldPower 0 (s 0 49153)).vclSum ∧ (fieldPower 0 (s 64 0)).sagged = 64 ∧
      10 * (fieldPower 0 (s 0 44236)).vclSum < 9 * (48 * phases 0 (s 0 0) * 64) ∧
      9 * (48 * phases 0 (s 0 0) * 64) ≤ 10 * (fieldPower 0 (s 0 44237)).vclSum ∧ 64 ≤ (s 0 0).power.capCount ∧
      fieldOf (12000 : Word) 0 16 = 12000 ∧ fieldOf (11999 : Word) 0 16 < 12000 ∧ 36000 < fieldOf (36001 : Word) 0 16 ∧
      (s 0 0).power.event = some ⟨[4], 0, 64, true⟩ ∧ coolStop (s 0 0) = false ∧ (s 0 0).faults.stopped = false := by decide +kernel

/-- Every input of the ceiling's three cases: far below it, within 5% below it, above it. -/
theorem witness_ceiling :
    let s (w : Nat) : State := { live [(F.PWR_CAP.VALUE, 30000)] with power := { Power.reset with capCount := 64, inputs := [w] } }
    let cap := rd F.PWR_CAP.VALUE (s 0) * (s 0).power.inputs.length
    cap < inputSum (s 30001) ∧ 100 * inputSum (s 28499) < 95 * cap ∧ inputSum (s 28500) ≤ cap ∧ 95 * cap ≤ 100 * inputSum (s 28500) := by
  decide +kernel

theorem witness_TemperaturesThrottleWarnAndStop :
    let x : FieldPower := { FieldPower.reset with disagree := [(3, 8)], noPairs := 8 }
    let s (i : Nat) : State := { live [(F.COOL_TEMP.INLET, i)] with power := { Power.reset with fields := [(0, x)] } }
    let v (r h : Nat) : ThermSample := ⟨0, 60, 80, [[(r, r)]], [h]⟩
    tablesOk (s 60) = true ∧ (s 60).faults.stopped = false ∧ (((v 100 105).hbm.take 12).any fun t => decide (105 ≤ t)) = true ∧
      (v 220 50).pairs[0]? = some [(220, 220)] ∧ [(220, 220)][0]? = some ((220, 220) : Nat × Nat) ∧ discarded 60 0 220 (s 60) = false ∧
      discarded 60 1 220 (s 60) = false ∧ (∀ rs ∈ (v 190 50).pairs, ∀ r ∈ rs, r.1 < 216 ∧ r.2 < 216) ∧ (∀ t ∈ (v 190 50).hbm, t < 105) ∧
      discarded 60 0 190 (s 60) = false ∧ suspect 0 0 (s 60) = false ∧ suspect 0 3 (s 60) = false ∧
      8 ≤ Table.get (fun _ => 0) (fieldPower 0 (s 60)).disagree 3 ∧ 8 ≤ (fieldPower 0 (s 60)).noPairs ∧
      (fieldPower 0 (s 60)).noPairsHold = false ∧ (s 60).power.critical = false ∧ rd F.COOL_TEMP.INLET (s 91) = 91 ∧
      rd F.COOL_TEMP.INLET (s 49) = 49 ∧ (s 49).power.inletOff = false ∧ rd F.COOL_TEMP.INLET (s 50) = 50 ∧
      (s 60).power.historyAt + 60000000 * usCycles ≤ 60000000 * usCycles ∧ (s 60).boot.failed = false := by decide +kernel

theorem witness_FlowAndCoolantStop :
    let s (st k : Nat) : State := { live [(F.COOL_STATE.STATE, st), (F.COOL_CFG.FLOW_K, k), (F.COOL_STATE.ARMED, 1)] with
      mgmt := { Mgmt.reset with flowEdge := some 0, noiseAt := some 0, coolOk := true }
      power := { Power.reset with lastPulse := some 0, thermals := 1 } }
    let plain := live []
    tablesOk (s 0 200) = true ∧ (s 0 200).mgmt.flowEdge = some 0 ∧ 249 * usCycles < 0 + 250 * usCycles ∧ flowK (s 0 0) = 0 ∧
      flowK (s 0 200) ≠ 0 ∧ coolSt (s 4 200) = 4 ∧ (s 0 200).mgmt.noiseAt = some 0 ∧ (s 0 200).mgmt.events_.length < 64 ∧
      on F.COOL_STATE.ARMED (s 0 200) = true ∧ (s 0 200).power.lastPulse = some 0 ∧ coolWatched (s 0 200) = true ∧
      coolStop (s 0 200) = false ∧ plain.boot.attempt = none ∧ plain.mgmt.coolOk = false ∧ (s 0 200).mgmt.coolOk = true ∧
      coolSt (s 3 200) = 3 ∧ inFlight (s 3 200) = [] ∧
      (let moving : State := { s 3 200 with ledger := { Ledger.reset with entries := [someStep .launched 0] } }
       inFlight moving ≠ [] ∧ moving.now < moving.power.coolTrigger + 2000 * usCycles) ∧ coolReady (s 4 0) = true ∧ coolReady (s 4 200) = false ∧ fieldOf (1333 : Word) 0 11 = 1333 ∧
      fieldOf (199 : Word) 0 11 = 199 ∧ fieldOf (1334 : Word) 0 11 = 1334 ∧ bitAt (0x80000005 : Word) 31 = true ∧
      fieldOf (0x80000005 : Word) 0 18 = 5 ∧ cellCount ≤ fieldOf (0x8003FFFF : Word) 0 18 := by decide +kernel

theorem witness_relocation :
    let v : CalVariant := ⟨fieldOfCell 5, rowOf 5, colOf 5 / 32, 3, true, [], [], []⟩
    let s : State := { live [(F.MODEL_SCHED.STATE 2, 2)] with
      sched := { Sched.reset with images := [(2, { Image.reset with cells := [5], variants := [v] })] } }
    tablesOk s = true ∧ s.faults.job = none ∧ s.faults.stopped = false ∧
      (oneJob 0).models = [] ∧ ({ oneJob 0 with models := [2] } : ResetJob).models ≠ [] ∧
      ((runningModels s).find? fun n => (image n s).cells.any fun x => (clusterCells 5).contains x) = some 2 ∧ (image 2 s).t36 = false ∧
      variantFor 2 (fieldOfCell 5) (rowOf 5) (colOf 5 / 32) s = some 0 := by decide +kernel

/-! ### Start, journal, mailbox, pins, management bus, registers -/

/-- A start record that names an image slot with digest 9. -/
def someRecord : StartRecord := { StartRecord.reset with seq := 1, digest := 9, valid := true }

/-- That image slot: a bundle that verifies. -/
def someImage : ImageSlot :=
  { ImageSlot.reset with magic := 0x44425A4C, format := 1, keyId := 1, svn := 1, sigLen := 2672, signed := true, partsOk := true, digest := 9 }

/-- What a start finds: a NOR device as the W3 left it, and every measurement good. -/
def startInput (nor : Bool) : StartInput :=
  { t := 0, norOk := nor, sr0 := none, sr1 := none, img0 := none, img1 := none, area0 := none, area1 := none, utc := none, rails := true
    plls := true, analogue := true, bist := [], fuseOk := true, reports := [], linkAgain := [], culture := true, cultureFail := []
    hbm := [], programs := [], ms := 900 }

/-- A module that has power and waits for its start, after this many failures; its device holds that record and image. -/
def powered (n : Nat) : State :=
  let s := up [(F.PWR_STATE.A_OK, 1)]
  { s with boot := { s.boot with
    ramFails := n, sr0 := someRecord, img0 := someImage, area0 := { JArea.reset with gen := 1, state := .active, units := 64 } } }

theorem witness_aStartThatWaitsForCoolant :
    tablesOk (powered 0) = true ∧ mayStart (powered 0) = true ∧ (startInput true).rails = true ∧ (startInput true).plls = true ∧
      (startSteps12 (startInput true) (powered 0)).1 = true ∧
      (startSteps12 (startInput true) (powered 0)).2.mgmt.coolOk = false := by decide +kernel

theorem witness_StartsAndShutdowns :
    let waiting : State := { powered 0 with boot := { (powered 0).boot with attempt := some (startInput true) } }
    let staging (x : Staged) : State :=
      { live [(F.STAGE_STATE.BUSY, 1)] with boot := { Boot.reset with staged := some x, stageData := some [] } }
    let ending : State := { live [(F.BOOT_STATE.MODE, 3), (F.BOOT_STATE.WAVE, 7)] with boot := { Boot.reset with shutdown := 4 } }
    mayStart (live []) = false ∧ (startInput false).norOk = false ∧ mayStart (powered 2) = true ∧ 2 ≤ (powered 2).boot.ramFails ∧
      (powered 1).boot.ramFails < 2 ∧ tablesOk waiting = true ∧ waiting.boot.attempt = some (startInput true) ∧
      (live []).boot.attempt = none ∧ mailboxUp (live []) = true ∧ on F.STAGE_STATE.BUSY (live []) = false ∧
      on F.STAGE_STATE.BUSY (staging .dump) = true ∧ (staging .dump).boot.staged = some .dump ∧ (staging .dump).boot.stageData = some [] ∧
      (staging .dump).boot.stageBad = false ∧ (live []).boot.stageData = none ∧
      ({ Boot.reset with stageData := some [], stageBad := true } : Boot).stageBad = true ∧ stageError .dump [] (staging .dump) = 0 ∧
      stageSizeBad 0 (live []) = true ∧ stageSizeBad 0 (live [(F.STAGE_LEN.VALUE, 64)]) = false ∧
      stageError (.image someImage) [] (staging (.image someImage)) = 2 ∧ tablesOk ending = true ∧ rd F.BOOT_STATE.MODE ending = 3 ∧
      ending.boot.shutdown = 4 ∧ ending.faults.stopped = false ∧ rd F.BOOT_STATE.WAVE ending = 7 ∧ (live []).boot.failed = false ∧
      rd F.BOOT_STATE.MODE (live [(F.BOOT_STATE.MODE, 2)]) = 2 ∧ mailboxUp (live [(F.BOOT_STATE.MODE, 2)]) = true ∧ rd F.BOOT_STATE.MODE (live []) ≠ 2 ∧
      rd F.BOOT_STATE.MODE (live []) ≠ 4 ∧ ready (live []) = true ∧ ready (powered 0) = false := by decide +kernel

/-- Journal records of a start that reached READY, and of a phase that failed (R417, R418). -/
def readyRecords : List JRecord := [⟨1, 0x02, 5, 77, [0, 0, 900]⟩, ⟨2, 0x0B, 5, 78, [3, 4]⟩]

/-- A header page and those two records, a torn unit behind them, and a record of the next page (R416, R417). -/
def journalImage (state : Byte) : List Byte :=
  let head := natToBytes 4 0x4C4E524A ++ natToBytes 4 7
  erasedTo 256 (head ++ [state, 0xFF, 0xFF, 0xFF] ++ natToBytes 4 (crcOf head)) ++
    erasedTo 256 (readyRecords.flatMap recordBytes ++ [0]) ++ recordBytes ⟨3, 0x10, 5, 79, []⟩

theorem test_journalScan_skipsATornUnit :
    scanArea 1 (journalImage 0x3F) = ⟨7, .active, readyRecords ++ [⟨3, 0x10, 5, 79, []⟩], 9, 1⟩ := by decide +kernel

theorem test_journalScan_states :
    headerState (journalImage 0x1F) = .retired ∧ headerState (journalImage 0x7F) = .opening ∧
      headerState (0 :: journalImage 0x3F) = .opening ∧ headerState (List.replicate 16 0xFF) = .erased ∧
      resumeAt (journalImage 0x3F) 6 = 12 := by decide +kernel

theorem test_startRecord_parses :
    let bs := natToBytes 4 0x33575A4C ++ natToBytes 4 9 ++ [1, 3] ++ natToBytes 2 600 ++ natToBytes 2 30000
    let r := parseRecord bs
    r.seq = 9 ∧ r.slot = 3 ∧ r.flowK = 600 ∧ r.capW = 30000 ∧ recordForm bs = true ∧ recordForm (0 :: bs) = false := by decide +kernel

/-- A module with area 0 active and one record waiting. -/
def journaling (n : Nat) (a : Durable) (units : Nat) : State :=
  { live [(F.JRNL_STATE.PRESSING, 1), (F.JRNL_STATE.ERASING, 1), (F.BOOT_STATE.MODE, 3)] with
    boot := { Boot.reset with area0 := { JArea.reset with gen := 1, state := .active, units := units, fails := n }
                              area1 := { JArea.reset with fails := n }
                              waiting := [⟨0x0D, [1], 0, false, a⟩] } }

theorem witness_JournalWritesPressesAndErases :
    tablesOk (journaling 2 .none 64) = true ∧ activeArea (journaling 2 .none 64) = 0 ∧ journalUp (journaling 2 .none 64) = true ∧
      fits (area 0 (journaling 2 .none 64)) 0x0D = true ∧ (live []).boot.waiting = [] ∧
      (journaling 2 .thermalFatal 64).boot.waiting = [⟨0x0D, [1], 0, false, .thermalFatal⟩] ∧
      rd F.BOOT_STATE.MODE (journaling 2 .shutdown 64) = 3 ∧ 3 ≤ (area 0 (journaling 2 .none 64)).fails + 1 ∧
      areaFailed (area 1 (journaling 3 .none 64)) = true ∧ (area 0 (journaling 1 .none 64)).fails + 1 < 3 ∧
      areaFailed (area 1 (journaling 2 .none 64)) = false ∧ on F.JRNL_STATE.PRESSING (journaling 2 .none 64) = true ∧
      on F.JRNL_STATE.PRESSING (live []) = false ∧ on F.JRNL_STATE.ERASING (journaling 2 .none 64) = true ∧
      on F.JRNL_STATE.ERASING (live []) = false ∧ wantsPress (journaling 2 .none 64) = false ∧
      wantsPress (journaling 3 .none 64) = true ∧ (area 1 (journaling 2 .none 64)).fails < 3 ∧
      on F.JRNL_STATE.PRESSING (wr F.JRNL_STATE.PRESSING 0 (journaling 2 .none areaUnits)) = false ∧
      wantsPress (wr F.JRNL_STATE.PRESSING 0 (journaling 2 .none areaUnits)) = true := by decide +kernel

theorem witness_MailboxCommandsAndZeroisation :
    let s (m : Nat) : State := { live [(F.BOOT_STATE.MODE, m), (F.IDENT_STATE.BUILT, 1)] with
      sec := { Sec.reset with lowNext := 0, lowLimit := 256, svn := 3, kem := some 4, kemReady := true } }
    let rom := live [(F.BOOT_STATE.MODE, 2), (F.BOOT_REASON.CODE, 1)]
    let busy : State := { live [(F.ZERO_STATE.BUSY, 1), (F.ZERO_STATE.STACKS, 2)] with sec := { Sec.reset with wait := .zeroise true } }
    let runs : State := { live [(F.POOL_CTRL.ENABLE 3, 1)] with
      kv := { Kv.reset with releases := [(5, 1)], clearing := [⟨3, 8, 0⟩] } }
    tablesOk (s 1) = true ∧ memoryOk (s 1) = true ∧ mailboxUp (s 1) = true ∧ mbxBusy (s 1) = false ∧ romOnly (s 1) = false ∧
      mbxAddr (s 1) + 5952 ≤ 2 ^ 64 ∧ signState (s 1) = 0 ∧ romOnly rom = true ∧ mailboxUp rom = true ∧ mbxBusy rom = false ∧
      starting (s 1) = false ∧ (live []).sec.kem = none ∧ (s 1).sec.kem = some 4 ∧ nextEpoch (s 1) < 2 ^ 32 ∧
      (s 1).sec.kemReady = true ∧ rd F.BOOT_STATE.TRIAL (s 1) = 0 ∧ (s 1).sec.fallback = false ∧ (s 1).fuses.svn < (s 1).sec.svn ∧
      (live []).sec.svn ≤ (live []).fuses.svn ∧ on F.ZERO_STATE.BUSY (s 1) = false ∧ rd F.BOOT_STATE.MODE (s 2) = 2 ∧
      rd F.BOOT_STATE.MODE (s 4) = 4 ∧ mailboxUp (up [(F.BOOT_STATE.STEP, 3)]) = true ∧ tablesOk busy = true ∧
      on F.ZERO_STATE.BUSY busy = true ∧ busy.sec.wait = .zeroise true ∧ rd F.BOOT_STATE.MODE busy ≠ 3 ∧
      rd F.ZERO_STATE.STACKS busy ≠ 0 ∧ (s 1).sec.lowNext < treeSize ∧ tablesOk runs = true ∧ runs.kv.releases.contains (5, 1) = true ∧
      runs.kv.releases.contains (5, 2) = false ∧ (runs.kv.clearing.find? fun c => c.model == 3 && c.page == 8).isSome = true ∧
      (runs.kv.clearing.find? fun c => c.model == 3 && c.page == 9) = none ∧ calm.ue = [] ∧ poolOn 3 runs = true := by decide +kernel

theorem witness_PinsAndCellWindow :
    let s (h : Nat) : State := { live [(F.SCHED_CTRL.EXT_EN, 1)] with
      mgmt := { Mgmt.reset with hold := true, holdEdge := some 0, holdBeats := h }
      agent := { Agent.reset with access := some ⟨5, 0x211, false, 0, decide (h = 4096)⟩ } }
    let gone := live [(F.CELL_WIN_CELL.CELL, 5), (⟨O.SPARE_MAP 0 0, 6, 1⟩, 1)]
    tablesOk (s 4096) = true ∧ (s 0).mgmt.inReset = false ∧ (s 0).mgmt.hold = true ∧ (s 0).mgmt.holdEdge = some 0 ∧
      usCycles - 1 < 0 + usCycles ∧ on F.SCHED_CTRL.EXT_EN (s 0) = true ∧ (s 0).mgmt.stuck = false ∧ 4096 ≤ (s 4096).mgmt.holdBeats ∧
      (s 4095).mgmt.holdBeats < 4096 ∧ ({ s 0 with mgmt := { (s 0).mgmt with inReset := true } } : State).mgmt.inReset = true ∧
      answersAt false O.CELL_WIN_CTRL (s 0) = true ∧ answersAt false O.CELL_WIN_CTRL (up []) = false ∧
      on F.CELL_WIN_STATE.BUSY (s 0) = false ∧ on F.CELL_WIN_STATE.BUSY (live [(F.CELL_WIN_STATE.BUSY, 1)]) = true ∧
      cellCount ≤ rd F.CELL_WIN_CELL.CELL (live [(F.CELL_WIN_CELL.CELL, 221184)]) ∧ rd F.CELL_WIN_CELL.CELL gone < cellCount ∧
      absent 5 gone = true ∧ absent 5 (live []) = false ∧ boundCell 5 (live []) = false ∧
      (s 0).agent.access = some ⟨5, 0x211, false, 0, false⟩ ∧ (s 4096).agent.access = some ⟨5, 0x211, false, 0, true⟩ ∧
      firmwareHolds { s 0 with agent := { (s 0).agent with firmware := false } } = false ∧ (live []).agent.access = none := by
  decide +kernel

/-- The page answers, no access is open, and the window's cell is 5 in a field that slot 2 has reserved, or has left. -/
theorem witness_reservedCell :
    let s (st : Nat) : State := { live [(F.CELL_WIN_CELL.CELL, 5), (F.MODEL_SCHED.STATE 2, st)] with
      svc := { Svc.reset with models := [(2, { ModelSlot.reset with fields := [0] })] } }
    tablesOk (s 1) = true ∧ answersAt false O.CELL_WIN_CTRL (s 1) = true ∧ on F.CELL_WIN_STATE.BUSY (s 1) = false ∧
      rd F.CELL_WIN_CELL.CELL (s 1) < cellCount ∧ absent (rd F.CELL_WIN_CELL.CELL (s 1)) (s 1) = false ∧
      ((List.range 16).any fun m => slotSt m (s 1) != 0 && (modelSlot m (s 1)).fields.contains (fieldOfCell 5)) = true ∧
      ((List.range 16).any fun m => slotSt m (s 0) != 0 && (modelSlot m (s 0)).fields.contains (fieldOfCell 5)) = false := by decide +kernel

/-- A read-only and a writable register of an enabled pool, and a cleared page that waits with and without its pool. -/
theorem witness_pools :
    let s (e : Nat) : State := { live [(F.POOL_CTRL.ENABLE 3, e), (F.POOL_GEOM.PAGE_UNITS 3, 1)] with
      kv := { Kv.reset with clearing := [⟨3, 8, 0⟩] } }
    let o := F.POOL_GEOM.PAGE_UNITS 3 |>.off
    tablesOk (s 1) = true ∧ poolOn 3 (s 1) = true ∧ poolOn 3 (s 0) = false ∧ o % 4 = 0 ∧ inBuffer o = false ∧ (regAt o).isSome = true ∧
      poolBlock o = true ∧ (o - 0x7100) % 0x30 ≠ 0x24 ∧ (o - 0x7100) % 0x30 ≠ 0x18 ∧ (o - 0x7100) / 0x30 = 3 ∧
      answersAt false o (s 1) = true ∧ ((s 1).kv.clearing.find? fun c => c.model == 3 && c.page == 8) = some ⟨3, 8, 0⟩ ∧
      pageElem 3 8 0 (s 1) < pageElem 3 8 0 (s 1) + elemBytes 3 (s 1) ∧
      freeAddr 3 (rd (F.POOL_FREE.VALUE 3) (s 1)) (s 1) + 4 ≤ pageElem 3 8 0 (s 1) := by decide +kernel

/-- A write of a cell in a field that belongs to a model. -/
theorem witness_boundCell :
    boundCell 5 { live [(F.MODEL_SCHED.STATE 2, 1)] with svc := { Svc.reset with models := [(2, { ModelSlot.reset with fields := [0] })] } } =
      true := by decide +kernel

/-- A module that holds a dynamic address and an event that was handed over. -/
def onBus (wrEn : Nat) : State :=
  { live [(F.MOD_CTRL.MGMT_WR, wrEn)] with mgmt := { Mgmt.reset with da := some 9, events_ := [⟨0x20, 0, 0, true⟩] } }

theorem witness_ManagementBusAnswers :
    tablesOk (onBus 0) = true ∧ addressed (onBus 0) = true ∧ addressed (live []) = false ∧ i3cUp (live []) = true ∧
      (live []).mgmt.da = none ∧ (onBus 0).mgmt.da.isSome = true ∧ (numericSensors (onBus 0))[1 - 1]? = some 0 ∧
      (stateSensors (onBus 0))[1 - 1]? = some 1 ∧ (onBus 0).mgmt.events_ = [⟨0x20, 0, 0, true⟩] ∧ accessOk 0x44 4 = true ∧
      accessOk 0x44 3 = false ∧ accessOk (2 ^ 26) 8 = true ∧ on F.MOD_CTRL.MGMT_WR (onBus 0) = false ∧
      on F.MOD_CTRL.MGMT_WR (onBus 1) = true ∧ isZeroise 0x44 0 = false ∧ isZeroise O.MBX_CMD (0x80000005 : Dword) = true := by
  decide +kernel

/-- An offset that does not answer, one with no register, one with read-only bits only, and one on a writable page. -/
theorem witness_RegisterWritesReachRegisters :
    let o := plainOff (windowOff 0x6804)
    tablesOk (live []) = true ∧ answersAt false (plainOff (windowOff O.MOD_CTRL)) (up []) = false ∧
      (inBuffer 0x1400 = false ∧ regAt 0x1400 = none) ∧ (regAt O.BEAT_STATE).any (fun r => r.rw == 0 && r.wo == 0) = true ∧
      o = 0x6004 ∧ viewOf (windowOff 0x6804) = 2 ∧ inBuffer o = false ∧ (regAt o).isSome = true ∧
      viewOf (windowOff O.MOD_CTRL) = 0 ∧ answersAt false O.MOD_CTRL (live []) = true ∧ O.MOD_CTRL / 0x1000 ∈ [0, 1, 4, 5] ∧
      (regAt O.MOD_CTRL).any (fun r => r.rw != 0) = true ∧ on (F.CMD_RING_CFG.ENABLE 0) (live []) = false := by decide +kernel

/-- For RegistersAnswerAtFourViews, AliasReadsHaveNoOtherEffect and SummariesFollowTheirSources. -/
theorem witness_ReadsAndSummaries :
    (0x800 < 0x400 * 4 ∧ (regAt 0x6004).isSome = true) ∧ viewOf 0x4410 ≠ 0 ∧ accessOk 0x4410 4 = true ∧ accessOk 0x4410 8 = true ∧
      inBuffer (plainOff 0x4410) = false ∧ isCounter (plainOff 0x4410) = true ∧ isCounter (plainOff 0x6404) = false ∧
      answersAt true (plainOff 0x4410) (onBus 0) = true ∧ (regAt (plainOff 0x4414)).any (fun r => r.cnt == 2) = true ∧
      addressed (onBus 0) = true ∧ wholeWindow (onBus 0) = true := by decide +kernel

theorem witness_StepsKeepWhatTheirCommandMayNotChange :
    Part.fuses ∉ mayChange (.winRead 0 4) ∧ Part.win ∉ mayChange .kemKeyExpiry ∧
      step { live [] with pending := [.kemKeyExpiry] } = exec .kemKeyExpiry { live [] with pending := [] } := ⟨by decide, by decide, rfl⟩

/-! ### Well-formedness refuses an operand at its bound -/

theorem test_illFormed_nop :
    (∀ x1, (Instr.nop 221184 x1).wellFormed = false) ∧ (∀ x1, (Instr.tensor 221184 x1).wellFormed = false) ∧
    (∀ x1, (Instr.add 221184 x1).wellFormed = false) ∧ (∀ x1, (Instr.mul 221184 x1).wellFormed = false) ∧
    (∀ x1, (Instr.fma 221184 x1).wellFormed = false) ∧ (∀ x1, (Instr.max 221184 x1).wellFormed = false) ∧
    (∀ x1, (Instr.exp 221184 x1).wellFormed = false) ∧ (∀ x1, (Instr.rcp 221184 x1).wellFormed = false) ∧
    (∀ x1, (Instr.rsqrt 221184 x1).wellFormed = false) ∧ (∀ x1, (Instr.sumred 221184 x1).wellFormed = false) ∧
    (∀ x1, (Instr.maxred 221184 x1).wellFormed = false) ∧ (∀ x1, (Instr.cvt 221184 x1).wellFormed = false) ∧
    (∀ x1, (Instr.scale 221184 x1).wellFormed = false) ∧ (∀ x1, (Instr.qnt 221184 x1).wellFormed = false) ∧
    (∀ x1, (Instr.s24enc 221184 x1).wellFormed = false) ∧ (∀ x1, (Instr.s24dec 221184 x1).wellFormed = false) ∧
    (∀ x1, (Instr.rng 221184 x1).wellFormed = false) ∧ (∀ x1, (Instr.move 221184 x1).wellFormed = false) ∧
    (∀ x1, (Instr.wait 221184 x1).wellFormed = false) ∧ (Instr.waitComplete 221184).wellFormed = false ∧
    (∀ x1, (Instr.sync 221184 x1).wellFormed = false) ∧ (∀ x1, (Instr.jump 221184 x1).wellFormed = false) ∧
    (∀ x1, (Instr.illegalInstruction 221184 x1).wellFormed = false) ∧ (∀ x1, (Instr.accessAged 221184 x1).wellFormed = false) := by
  and_intros <;> intros <;> rfl

theorem test_illFormed_accessAged :
    (Instr.accessAged 0 ⟨6, 0, 0⟩).wellFormed = false ∧ (Instr.accessAged 0 ⟨0, 120, 0⟩).wellFormed = false ∧
    (∀ x1 x2, (Instr.flitLanding 221184 x1 x2).wellFormed = false) ∧
    (∀ x1 x2, (Instr.multicastCopy 221184 x1 x2).wellFormed = false) ∧
    (∀ x2, (Instr.reductionCombine 221184 0 x2).wellFormed = false) ∧ (∀ x2, (Instr.reductionCombine 0 256 x2).wellFormed = false) ∧
    (∀ x3, (Instr.linkCrcError 221184 0 0 x3).wellFormed = false) ∧ (∀ x3, (Instr.linkCrcError 0 8 0 x3).wellFormed = false) ∧
    (∀ x3, (Instr.linkCrcError 0 0 16 x3).wellFormed = false) ∧ (∀ x2, (Instr.nak 221184 0 x2 0).wellFormed = false) ∧
    (∀ x2, (Instr.nak 0 8 x2 0).wellFormed = false) ∧ (∀ x2, (Instr.nak 0 0 x2 16).wellFormed = false) ∧
    (Instr.linkFail 221184 0).wellFormed = false ∧ (Instr.linkFail 0 8).wellFormed = false ∧
    (∀ x2, (Instr.replayBufferRelease 221184 0 x2).wellFormed = false) ∧
    (∀ x2, (Instr.replayBufferRelease 0 8 x2).wellFormed = false) ∧ (∀ x1, (Instr.vc0Discard 221184 x1).wellFormed = false) ∧
    (∀ x1, (Instr.cfgRead 221184 x1).wellFormed = false) ∧ (∀ x1 x2, (Instr.cfgWrite 221184 x1 x2).wellFormed = false) ∧
    (∀ x1, (Instr.fabCalderaWrite 72 x1).wellFormed = false) ∧ (Instr.eccWriteback 221184 0 0).wellFormed = false ∧
    (Instr.eccWriteback 0 27648 0).wellFormed = false ∧ (Instr.eccWriteback 0 0 8).wellFormed = false ∧
    (∀ x1 x2, (Instr.scrubRead 221184 x1 x2).wellFormed = false) := by
  and_intros <;> intros <;> rfl

theorem test_illFormed_scrubAged :
    (Instr.scrubAged 221184).wellFormed = false ∧ (∀ x1, (Instr.scrubLate 221184 x1).wellFormed = false) ∧
    (Instr.widenEnd 16 0).wellFormed = false ∧ (Instr.widenEnd 0 256).wellFormed = false ∧
    (∀ x1, (Instr.modelRecipeWrite 16 x1).wellFormed = false) ∧ (Instr.stall 221184).wellFormed = false ∧
    (∀ x1 x2, (Instr.kvRead 12 x1 x2).wellFormed = false) ∧ (∀ x1 x2 x3, (Instr.kvWrite 12 x1 x2 x3).wellFormed = false) ∧
    (∀ x1 x2, (Instr.linRead 12 x1 x2).wellFormed = false) ∧ (∀ x1 x2 x3, (Instr.linWrite 12 x1 x2 x3).wellFormed = false) ∧
    (∀ x1 x2, (Instr.patrolRead 12 x1 x2).wellFormed = false) ∧ (∀ x1, (Instr.stackScrubLate 12 x1).wellFormed = false) ∧
    (Instr.poolEnable 16).wellFormed = false ∧ (Instr.poolDisable 16).wellFormed = false ∧
    (∀ x1, (Instr.posLimitWrite 16 x1).wellFormed = false) ∧ (∀ x1, (Instr.ringEnable 19 x1).wellFormed = false) ∧
    (∀ x1, (Instr.submit 8 x1).wellFormed = false) ∧ (∀ x1, (Instr.cancel 8 x1).wellFormed = false) ∧
    (∀ x1, (Instr.prefixCreate 8 x1).wellFormed = false) ∧ (∀ x1, (Instr.prefixRelease 8 x1).wellFormed = false) ∧
    (∀ x1, (Instr.openModel 8 x1).wellFormed = false) ∧ (∀ x1, (Instr.closeModel 8 x1).wellFormed = false) ∧
    (Instr.closeComplete 16).wellFormed = false ∧ (∀ x1 x2, (Instr.loadWeights 8 x1 x2).wellFormed = false) := by
  and_intros <;> intros <;> rfl

theorem test_illFormed_loadReceive :
    (∀ x1, (Instr.loadReceive 8 x1).wellFormed = false) ∧ (Instr.loadReceiveTimeout 16).wellFormed = false ∧
    (∀ x1, (Instr.readback 8 x1).wellFormed = false) ∧ (∀ x1, (Instr.stepResult 1024 x1).wellFormed = false) ∧
    (Instr.stepCommit 1024).wellFormed = false ∧ (Instr.outputRoomWrite 8 0).wellFormed = false ∧
    (Instr.outputRoomWrite 0 4294967296).wellFormed = false ∧ (∀ x1, (Instr.pinnedWrite 16 x1).wellFormed = false) ∧
    (Instr.presenceDetect 5 0).wellFormed = false ∧ (Instr.presenceDetect 0 65).wellFormed = false ∧
    (∀ x1, (Instr.equalisationEnd 5 x1).wellFormed = false) ∧ (∀ x1, (Instr.alignment 5 x1).wellFormed = false) ∧
    (∀ x1 x2, (Instr.params 5 x1 x2).wellFormed = false) ∧ (∀ x1 x2, (Instr.retrainComplete 5 x1 x2).wellFormed = false) ∧
    (∀ x1, (Instr.linkDown 5 x1).wellFormed = false) ∧ (∀ x1, (Instr.linkRetry 5 x1).wellFormed = false) ∧
    (∀ x1 x2, (Instr.payloadFlit 5 x1 x2).wellFormed = false) ∧ (∀ x1 x2, (Instr.idleFlit 5 x1 x2).wellFormed = false) ∧
    (∀ x1 x2, (Instr.nakFlit 5 x1 x2).wellFormed = false) ∧ (∀ x1 x2, (Instr.retrainFlit 5 x1 x2).wellFormed = false) ∧
    (Instr.nakResend 5).wellFormed = false ∧ (∀ x1, (Instr.ackTimeout 5 x1).wellFormed = false) ∧
    (∀ x1, (Instr.mmioRd 4294967296 x1 0).wellFormed = false) ∧ (∀ x1, (Instr.mmioRd 0 x1 1024).wellFormed = false) := by
  and_intros <;> intros <;> rfl

theorem test_illFormed_mmioWr :
    (∀ x1 x2 x3, (Instr.mmioWr 4294967296 x1 x2 x3).wellFormed = false) ∧
    (∀ x2 x3 x4, (Instr.cplData 1024 0 x2 x3 x4).wellFormed = false) ∧ (∀ x2 x3 x4, (Instr.cplData 0 8 x2 x3 x4).wellFormed = false) ∧
    (∀ x2, (Instr.credit 65536 0 x2).wellFormed = false) ∧ (∀ x2, (Instr.credit 0 65536 x2).wellFormed = false) ∧
    (Instr.intrModeration 65536).wellFormed = false ∧ (Instr.cplTimeout 1024).wellFormed = false ∧
    (Instr.oclEncMode 4).wellFormed = false ∧ (∀ x1, (Instr.fail 4 x1).wellFormed = false) ∧
    (∀ x1, (Instr.frame 4 x1).wellFormed = false) ∧ (∀ x1, (Instr.scommit 16 x1 0).wellFormed = false) ∧
    (∀ x1, (Instr.scommit 0 x1 4294967296).wellFormed = false) ∧ (∀ x2, (Instr.spanCredit 4 0 x2).wellFormed = false) ∧
    (∀ x2, (Instr.spanCredit 0 65536 x2).wellFormed = false) ∧ (∀ x2 x3, (Instr.splitLaunch 16 ⟨0, x2, x3⟩).wellFormed = false) ∧
    (∀ x2 x3, (Instr.splitLaunch 0 ⟨1024, x2, x3⟩).wellFormed = false) ∧ (∀ x0, (Instr.faultReport x0 221184).wellFormed = false) ∧
    (Instr.cellReset 221184).wellFormed = false ∧ (Instr.clusterReset 221184).wellFormed = false ∧
    (Instr.partitionReset 221184).wellFormed = false ∧ (∀ x1, (Instr.ringFill 221184 x1).wellFormed = false) ∧
    (∀ x1, (Instr.slotFill 221184 x1).wellFormed = false) ∧ (∀ x2, (Instr.audit 221184 0 x2).wellFormed = false) ∧
    (∀ x2, (Instr.audit 0 4 x2).wellFormed = false) := by
  and_intros <;> intros <;> rfl

theorem test_illFormed_feedOk :
    (Instr.feedOk 2).wellFormed = false ∧ (Instr.feedLost 2).wellFormed = false ∧ (Instr.phaseFault 72 0).wellFormed = false ∧
    (Instr.phaseFault 0 16).wellFormed = false ∧ (Instr.powerLevelAdjust 72).wellFormed = false ∧
    (Instr.pairSuspect 72 0).wellFormed = false ∧ (Instr.pairSuspect 0 16).wellFormed = false ∧
    (Instr.noPairs 72).wellFormed = false ∧ (Instr.stageDone 6).wellFormed = false ∧
    (∀ x1, (Instr.bistWave 9 x1).wellFormed = false) ∧ (∀ x1, (Instr.releaseFlit 221184 x1).wellFormed = false) ∧
    (Instr.pageZeroiseDone 16 0).wellFormed = false ∧ (Instr.pageZeroiseDone 0 268435456).wellFormed = false ∧
    (∀ x1, (Instr.registerWrite 4294967296 x1).wellFormed = false) ∧ (Instr.entdaa 128).wellFormed = false ∧
    (Instr.setdasa 128).wellFormed = false ∧ (Instr.enec 256).wellFormed = false ∧ (Instr.disec 256).wellFormed = false ∧
    (Instr.setmwl 65536).wellFormed = false ∧ (Instr.setmrl 65536).wellFormed = false ∧ (Instr.rstact 256).wellFormed = false ∧
    (Instr.setEndpointId 256 0).wellFormed = false ∧ (Instr.setEndpointId 0 256).wellFormed = false ∧
    (Instr.getPldmVersion 64).wellFormed = false := by
  and_intros <;> intros <;> rfl

theorem test_illFormed_getPldmCommands :
    (Instr.getPldmCommands 64).wellFormed = false ∧ (Instr.getNumericSensorReading 65536).wellFormed = false ∧
    (Instr.getStateSensorReadings 65536).wellFormed = false ∧ (∀ x1, (Instr.winRead 4294967296 x1).wellFormed = false) ∧
    (∀ x1 x2, (Instr.winWrite 4294967296 x1 x2).wellFormed = false) ∧ (Instr.stackLost 12).wellFormed = false := by
  and_intros <;> intros <;> rfl

/-! ### The manual's worked examples -/

/-- The 64 values of the example group of *Worked example: one group overflowing its whey lane*; the plain ones alternate in sign. -/
def wheyExample : List Word := (List.range 64).map fun i =>
  match i with
  | 3 => 0x42200000
  | 17 => 0xC2100000
  | 21 => 0x41A00000
  | 40 => 0x41F00000
  | 50 => 0x41C00000
  | 60 => 0x41400000
  | _ => if i % 2 = 0 then 0x3F000000 else 0xBF000000

/-- The mean depends on a free value (R96), the rest does not: the four largest of its candidates, the blocks' scales, their W8F codes. -/
theorem test_whey_example :
    topBy wheyExample 4 [3, 17, 21, 40, 50, 60] = [3, 17, 40, 50] ∧
      ([0x3F000000, 0x41A00000, 0x41400000] : List Word).map (fun w => (scaleCode (fpVal (fpDiv w 0x40C00000))).1) = [0x5B, 0x86, 0x80] ∧
      ([0x42200000, 0xC2100000, 0x41F00000, 0x41C00000] : List Word).map (fun w => encodeElem .w8f (fpVal w)) = [0x62, 0xE1, 0x5F, 0x5C] ∧
      encodeElem .c4f (fpVal (fpDiv 0xBF000000 (ue5m3Val 0x5B).toFp)) = 0xF ∧ encodeElem .c4f (fpVal (fpDiv 0xBF000000 (ue5m3Val 0x86).toFp)) = 0 := by
  decide +kernel

/-- Its side record: 5B 86 5B 80 04 00 00 00 03 62 11 E1 28 5F 32 5C in byte order. -/
theorem test_side_record :
    sideRecord ⟨[], [0x5B, 0x86, 0x5B, 0x80], [(3, 0x62), (17, 0xE1), (40, 0x5F), (50, 0x5C)], [], false, true⟩ =
      0x5C325F28E111620300000004805B865B := by decide +kernel

/-- R6 to R8: the cell at (FX 4, FY 2, row 23, column 77). -/
theorem test_cell_numbers : cellAt 22 23 77 = 82381 ∧ gcol 82381 = 589 ∧ grow 82381 = 71 ∧ fieldOfCell 82381 = 22 := by decide

/-- R43: the travel times of the worked examples of the fabric and of the cell configuration window. -/
theorem test_travel_times : travel (cellAt 11 5 40) (cellAt 21 10 100) = 226 ∧ travel agentCell 146630 = 365 ∧ hops agentCell 146630 = 350 ∧
    stitches agentCell 146630 = 4 := by decide

/-- Banks of the granules 20,000 to 20,003 and 1,029. -/
theorem test_banks : [20000, 20001, 20002, 20003, 1029].map bankOf = [88, 89, 90, 91, 9] := by decide

/-- The pool example: PAGE_UNITS 5, G 1, KVH 10, D 128, L 104 gives SIDE_GR 162. -/
theorem test_side_records :
    let s := up [(F.POOL_GEOM.PAGE_UNITS 1, 5), (F.POOL_GEOM.G 1, 1), (F.POOL_GEOM.KVH 1, 9), (F.POOL_GEOM.D 1, 1), (F.POOL_GEOM.L 1, 104)]
    sideGr 1 s = 162 ∧ pageBytes 1 s = 327680 + 10368 := by decide +kernel

/-- PREC_CTRL after reset, after 0x10 to its clear alias, and after 0x10 to its toggle alias. -/
theorem test_aliases :
    let s0 := live []
    let s1 := registerWrite 0x6804 0x10 s0
    let s2 := registerWrite 0x6C04 0x10 s1
    reg O.PREC_CTRL s0 = 0x818 ∧ reg O.PREC_CTRL s1 = 0x808 ∧ reg O.PREC_CTRL s2 = 0x818 := by decide +kernel

/-- Bytes of SPARE_MAP in the example of fuses against test: USED_1 with DEF_1 = 7, then ABSENT; a defective spare alone gives 0. -/
theorem test_spare_bytes :
    rowWord [posKey 22 9 40] [] 22 9 = 0x8700 ∧ rowWord [posKey 22 9 40, posKey 22 9 53] [] 22 9 = 0x4000 ∧
      rowWord [posKey 22 12 131] [] 22 12 = 0 := by decide

/-- The edges of the example after R487, in cycles: ignored, too fast, accepted, below R159, accepted. -/
theorem test_beat_edges :
    let at_ (l : List (Nat × Nat)) : State := l.foldl (fun s e => beatEdge e.1 e.2 s)
      { live [(F.BEAT_STATE.MODE, 0)] with mgmt := { Mgmt.reset with beatEdge := some 0 },
                                           beat := { Beat.reset with reference := some 0, lastEdge := some 0 } }
    let e := [(1890, 60), (3150, 300), (16800, 4000), (23100, 200), (33600, 4000)]
    (at_ (e.take 1)).win = (at_ []).win ∧ rd F.PIN_STS.BEAT_FAST (at_ (e.take 2)) = 1 ∧ cnt F.BEAT_REJECT_CNT (at_ (e.take 3)) = 1 ∧
      beatNo (at_ (e.take 3)) = beatNo (at_ []) + 1 ∧ cnt F.BEAT_REJECT_CNT (at_ (e.take 4)) = 2 ∧
      cnt F.BEAT_REJECT_CNT (at_ e) = 2 ∧ beatNo (at_ e) = beatNo (at_ []) + 2 := by decide +kernel


/-- The example of FIPS 197, appendix C.3, and test case 14 of the GCM specification behind SP 800-38D: the standards that R303's AES-256-GCM
names. -/
theorem test_gcm :
    highFirst (aesBlock (aesKeys (List.range 32)) ((List.range 16).map (17 * ·))) = 0x8EA2B7CA516745BFEAFC49904B496089 ∧
      (gcmCrypt (gcmKeys 0) (List.replicate 12 0) [0]).map (fun x => highFirst (slotOctets x)) = [0xCEA7403D4D606B6E074EC5D3BAF39D18] ∧
      ghash (highFirst (aesBlock (gcmKeys 0) (List.replicate 16 0))) [0xCEA7403D4D606B6E074EC5D3BAF39D18, 128] =
        0x83DE425C5EDC5D498F382C441041CA92 := by decide +kernel


/-- The examples of FIPS 180-4 and FIPS 202 for the message abc: the hashes that R414 and R450 name. -/
theorem test_hashes :
    highFirst (sha256Bytes (label "abc")) = 0xba7816bf8f01cfea414140de5dae2223b00361a396177a9cb410ff61f20015ad ∧
      highFirst (sha3of256 (label "abc")) = 0x3a985da74fe225b2045c172d6bd390bd855f086e3e9d525b46bfe24511431532 := by decide +kernel
end Sys2Proof.Tests
end

section
/-!
SUPPORT. The mesh under the operations of cells and stacks: what leaves its flits, tables and queues alone, and where a flit that
enters the mesh comes to stand (R42, R45, R46).
-/
namespace Sys2Proof.Machine
open Sys2Proof

/-! ### Steps that leave a part of the state alone -/

/-- A value that no step of a run changes. -/
theorem forEach_fixed {α β : Type} (g : State → β) {f : α → State → State} (hf : ∀ x t, g (f x t) = g t) (l : List α) (s : State) :
    g (forEach l f s) = g s := by
  unfold forEach
  induction l generalizing s with
  | nil => rfl
  | cons x l ih => exact (ih (f x s)).trans (hf x s)

theorem when_fixed {β : Type} (g : State → β) {b : Bool} {f : State → State} (hf : ∀ t, g (f t) = g t) (s : State) :
    g (when b f s) = g s := by
  unfold when
  split
  · exact hf s
  · rfl

@[simp] theorem forEach_nil {α : Type} (f : α → State → State) (s : State) : forEach [] f s = s := rfl

@[simp] theorem forEach_cons {α : Type} (x : α) (l : List α) (f : α → State → State) (s : State) :
    forEach (x :: l) f s = forEach l f (f x s) := rfl

/-- The mesh but for the fault reports on their way and the cycles of captured collisions: what reading cell or stack memory cannot
change. -/
def Mesh.calm (x : Mesh) : Mesh := { x with reports := [], collAt := [] }

theorem calm_of_same {l : List Part} {s t : State} (h : Same l s t) (hl : Part.mesh ∉ l) : t.mesh.calm = s.mesh.calm :=
  congrArg Mesh.calm (h.part .mesh hl)

theorem flight_of_calm {s t : State} (h : t.mesh.calm = s.mesh.calm) : t.mesh.flight = s.mesh.flight := congrArg (·.flight) h

theorem mcast_of_calm {s t : State} (h : t.mesh.calm = s.mesh.calm) : t.mesh.mcast = s.mesh.mcast := congrArg (·.mcast) h

theorem redTab_of_calm {s t : State} (h : t.mesh.calm = s.mesh.calm) : t.mesh.redTab = s.mesh.redTab := congrArg (·.redTab) h

theorem redQ_of_calm {s t : State} (h : t.mesh.calm = s.mesh.calm) : t.mesh.redQ = s.mesh.redQ := congrArg (·.redQ) h

@[simp] theorem report_calm (cause c : Nat) (s : State) : (report cause c s).mesh.calm = s.mesh.calm := rfl

@[simp] theorem raise_mesh (f : Fld) (s : State) : (raise f s).mesh = s.mesh :=
  (raise_same rfl (Same.refl [.win, .link, .ports, .ocl] s)).part .mesh (by decide)

/-! ### Reads of cell memory -/

theorem countAccess_calm (c port g : Nat) (s : State) : (countAccess c port g s).mesh.calm = s.mesh.calm := by
  unfold countAccess rangeFault
  split
  · exact when_fixed (·.mesh.calm) (fun _ => by simp) s
  · simp

theorem correctWord_calm (c w : Nat) (s : State) : (correctWord c w s).mesh.calm = s.mesh.calm := by
  unfold correctWord
  dsimp only
  rw [when_fixed (·.mesh.calm) (fun _ => by simp), modCell_mesh]
  exact calm_of_same (captureEcc_same rfl (raise_same rfl (bump_same rfl (Same.refl [.win, .link, .ports, .ocl] s)))) (by decide)

theorem uncorrectable_calm (c w : Nat) (s : State) : (uncorrectable c w s).mesh.calm = s.mesh.calm := by
  unfold uncorrectable
  rw [report_calm]
  exact calm_of_same (captureEcc_same rfl (raise_same rfl (bump_same rfl (Same.refl [.win, .link, .ports, .ocl] s)))) (by decide)

theorem readChecks_calm (c : Nat) (gs : List Nat) (env : MemEnv) (s : State) : (readChecks c gs env s).mesh.calm = s.mesh.calm := by
  unfold readChecks
  dsimp only
  rw [forEach_fixed (·.mesh.calm) (uncorrectable_calm c), modCell_mesh, forEach_fixed (·.mesh.calm) (correctWord_calm c)]

theorem collide_calm (c : Nat) (m : Meet) (s : State) : (collide c m s).mesh.calm = s.mesh.calm := by
  unfold collide
  split
  · rfl
  · exact when_fixed (·.mesh.calm) (fun _ => by rfl) _

theorem reads_calm (c port : Nat) (gs : List Nat) (env : MemEnv) (s : State) : (reads c port gs env s).mesh.calm = s.mesh.calm := by
  unfold reads portDone countAccesses
  dsimp only
  rw [forEach_fixed (·.mesh.calm) (fun k => report_calm k c), modCell_mesh, forEach_fixed (·.mesh.calm) (collide_calm c), readChecks_calm,
    forEach_fixed (·.mesh.calm) (countAccess_calm c port)]

theorem fetchGranule_calm (c g : Nat) (env : MemEnv) (s : State) : (fetchGranule c g env s).mesh.calm = s.mesh.calm := by
  unfold fetchGranule
  dsimp only
  rw [modCell_mesh, readChecks_calm, countAccess_calm]

theorem fill_calm (c : Nat) (env : MemEnv) (s : State) : (fill c env s).mesh.calm = s.mesh.calm := by
  unfold fill
  extract_lets g s1
  have h1 : s1.mesh.calm = s.mesh.calm := by
    unfold s1
    split
    · rfl
    · rw [fetchGranule_calm, modCell_mesh]
  split
  · exact h1
  · rw [fetchGranule_calm, h1]

/-! ### Flits that enter the mesh -/

/-- What a flit on the mesh is, whatever links it has passed: where it entered, tag and data, and the activity that pays for it. -/
def Flight.core (x : Flight) : Nat × Flit × Nat := (x.at_, x.flit, x.act)

/-- The flit's destination is a span port or an OCL entry (R45). -/
def Flit.outward (f : Flit) : Prop := 221196 ≤ fieldOf f.tag 5 18 ∧ fieldOf f.tag 5 18 < 221203

theorem leavesMesh_outward {x : Flight} (h : leavesMesh x = true) : x.flit.outward := by
  unfold leavesMesh at h
  simp only [Bool.and_eq_true, decide_eq_true_eq] at h
  exact ⟨h.1.2, h.2⟩

theorem leave3_flight (f : Flit) (p : Option (Nat × Nat)) (s : State) : (leave3 f p s).mesh.flight = s.mesh.flight := by
  unfold leave3
  split
  · exact when_fixed (·.mesh.flight) (fun _ => by rfl) s
  · rfl

theorem enter3_flight (f : Flit) (p : Option (Nat × Nat)) (s : State) : (enter3 f p s).mesh.flight = s.mesh.flight := by
  unfold enter3
  split
  · exact when_fixed (·.mesh.flight) (fun _ => by rfl) s
  · rfl

theorem passRoute_flight (f : Flit) (rt : List (Nat × Nat)) (s : State) : (passRoute f rt s).mesh.flight = s.mesh.flight :=
  forEach_fixed (·.mesh.flight) (fun _ _ => by rfl) rt s

theorem sendSpan_mesh (op model arg : Nat) (data : List Slot16) (s : State) : (sendSpan op model arg data s).mesh = s.mesh :=
  (sendSpan_same rfl (Same.refl [.win, .link, .ports, .ocl, .pair, .free] s)).part .mesh (by decide)

/-- A flit that stands where it has come to is the youngest on the mesh, unless it has gone out by a span port or an OCL entry. -/
theorem settle_flight (x : Flight) (s : State) :
    (settle x s).mesh.flight = s.mesh.flight ++ if leavesMesh x then [] else [x] := by
  unfold settle
  split
  · dsimp only
    split
    · rw [sendSpan_mesh, leave3_flight, List.append_nil]
    · rw [leave3_flight, List.append_nil]
  · rfl

/-- A flit that goes on comes to stand on the mesh after the others, or has left it at the end of its route. -/
theorem goOn_flight (x : Flight) (s : State) :
    ∃ y : Flight, y.core = x.core ∧ (goOn x s).mesh.flight = s.mesh.flight ++ if leavesMesh y then [] else [y] := by
  unfold goOn
  dsimp only
  split
  · exact ⟨x, rfl, settle_flight x s⟩
  · refine ⟨_, ?_, by rw [settle_flight, enter3_flight, leave3_flight, passRoute_flight]⟩
    rfl

/-- Flits that enter the mesh one after the other join those on it in order; those not bound for a span port or an OCL entry all stay. -/
theorem forEach_goOn_flight {α : Type} (mk : α → Flight) (xs : List α) (s : State) :
    ∃ l, (forEach xs (fun a => goOn (mk a)) s).mesh.flight = s.mesh.flight ++ l ∧
      (l.map Flight.core).Sublist (xs.map fun a => (mk a).core) ∧
      ((∀ a ∈ xs, ¬ (mk a).flit.outward) → l.map Flight.core = xs.map fun a => (mk a).core) := by
  induction xs generalizing s with
  | nil => exact ⟨[], by simp⟩
  | cons a xs ih =>
    obtain ⟨y, hy, hf⟩ := goOn_flight (mk a) s
    obtain ⟨l, hl, hsub, hall⟩ := ih (goOn (mk a) s)
    refine ⟨(if leavesMesh y then [] else [y]) ++ l, by rw [forEach_cons, hl, hf, List.append_assoc], ?_, fun h => ?_⟩
    · split
      · exact hsub.cons _
      · simpa [hy] using hsub
    · have hin : ¬ leavesMesh y = true := fun he => h a (by simp) (by
        have := leavesMesh_outward he
        rwa [show y.flit = (mk a).flit from congrArg (·.2.1) hy] at this)
      simp [hin, hy, hall fun b hb => h b (by simp [hb])]

end Sys2Proof.Machine
end

section
/-!
SUPPORT. MOVE (R30, R45, R51, R54, R56): the flits it makes, and where each kind of MOVE puts them.
-/
namespace Sys2Proof.Machine
open Sys2Proof

/-! ### Tags -/

/-- The tag of a flit depends on the multicast tables alone. -/
theorem moveTag_congr {s t : State} (h : t.mesh.mcast = s.mesh.mcast) (c : Nat) (m : MoveWord) (i : Nat) :
    moveTag c m i t = moveTag c m i s := by
  have he : ∀ r tree, mcastEntry r tree t = mcastEntry r tree s := fun r tree => by unfold mcastEntry; rw [h]
  have ht : ∀ n r port tree, rowTurns n r port tree t = rowTurns n r port tree s := by
    intro n
    induction n with
    | zero => intros; rfl
    | succ n ih => intros; simp only [rowTurns, he, ih]
  unfold moveTag treeOwes
  simp only [he, ht]

theorem sumTag_congr {s t : State} (h : t.mesh.redTab = s.mesh.redTab) (c : Nat) (m : MoveWord) (exps : Granule) (i : Nat) :
    sumTag c m exps i t = sumTag c m exps i s := by
  unfold sumTag leafOwes redEntry
  rw [h]

/-- The destination of a unicast MOVE's flit, as its tag names it (R51). -/
theorem moveTag_dst {c : Nat} {m : MoveWord} {i : Nat} {s : State} (ht : ¬ (m.vc = 1 ∧ m.mc = true)) (hd : m.dst < 2 ^ 18) :
    fieldOf (moveTag c m i s) 5 18 = m.dst := by
  have hmc : (m.mc && m.vc == 1) = false := by
    rw [← Bool.not_eq_true]
    simpa [and_comm] using ht
  unfold moveTag fieldOf bitsOf
  rw [hmc]
  simp only [Bool.false_eq_true, if_false, BitVec.toNat_ofNat, Nat.shiftRight_eq_div_pow]
  omega

theorem moveWord_dst_lt (w : Dword) : (moveWord w).dst < 2 ^ 18 := Nat.mod_lt _ (by decide)

/-- Whether a cell is in a T36 image depends on `MODEL_SCHED`, the model slots and the images. -/
theorem inT36_congr {ρ : List Nat} {l : List Part} {s t : State} (h : Regs ρ s t) (hρ : ∀ m, m < 16 → 0x30c0 + m * 4 ∉ ρ)
    (k : Same l s t) (h1 : Part.svc ∉ l) (h2 : Part.sched ∉ l) (c : Nat) : inT36 c t = inT36 c s := by
  have hm : modelOfField (fieldOfCell c) t = modelOfField (fieldOfCell c) s := by
    unfold modelOfField modelSlot
    rw [k.part .svc h1]
    refine List.find?_congr fun m hm => ?_
    rw [h.rd (f := F.MODEL_SCHED.STATE m) (hρ m (by simpa using hm))]
  unfold inT36 image
  rw [hm, k.part .sched h2]

theorem inT36_fill (c : Nat) (env : MemEnv) (s : State) : inT36 c (fill c env s) = inT36 c s :=
  inT36_congr (fill_regs (ρ := cellRegs c) (subN_refl _) (Regs.refl _ s)) (fun m hm => sched_notin_cellRegs c m hm)
    (fill_same rfl (Same.refl [.win, .cells, .mesh, .link, .ports, .ocl] s)) (by decide) (by decide) c

theorem barred_fill (c dst : Nat) (env : MemEnv) (s : State) : barred c dst (fill c env s) = barred c dst s := by
  unfold barred
  rw [inT36_fill]

/-! ### The flits of a MOVE -/

/-- The flits of a MOVE on VC1 or VC3: tags by the tables of `s`, data as `u` reads them. -/
def moveFlits (c : Nat) (m : MoveWord) (u s : State) : List Flit :=
  (List.range m.len).map fun i => ⟨moveTag c m i s, readGranule c (m.laddr + i) u⟩

/-- The flits of a MOVE on VC2, with the exponents of the granule at LADDR. -/
def sumFlits (c : Nat) (m : MoveWord) (u s : State) : List Flit :=
  (List.range m.len).map fun i => ⟨sumTag c m (readGranule c m.laddr u) i s, readGranule c (m.laddr + 1 + i) u⟩

theorem moveFlits_congr {s t : State} (h : t.mesh.mcast = s.mesh.mcast) (c : Nat) (m : MoveWord) (u : State) :
    moveFlits c m u t = moveFlits c m u s := by
  unfold moveFlits
  simp only [moveTag_congr h]

theorem sumFlits_congr {s t : State} (h : t.mesh.redTab = s.mesh.redTab) (c : Nat) (m : MoveWord) (u : State) :
    sumFlits c m u t = sumFlits c m u s := by
  unfold sumFlits
  simp only [sumTag_congr h]

theorem moveFlits_outward {c : Nat} {m : MoveWord} {u s : State} (ht : ¬ (m.vc = 1 ∧ m.mc = true)) (hd : m.dst < 2 ^ 18) {f : Flit}
    (hf : f ∈ moveFlits c m u s) : f.outward ↔ 221196 ≤ m.dst ∧ m.dst < 221203 := by
  obtain ⟨i, -, rfl⟩ := List.mem_map.1 hf
  unfold Flit.outward
  rw [moveTag_dst ht hd]

/-! ### Flits put on the mesh, into a queue, or reported -/

/-- Multicast flits that enter the mesh at their root join those on it. -/
theorem forEach_launch_flight (c act : Nat) (fs : List Flit) (s : State) :
    (forEach fs (fun f => launchFlit c act f []) s).mesh.flight = s.mesh.flight ++ fs.map fun f => ⟨c, f, act, [], [], none, none⟩ := by
  induction fs generalizing s with
  | nil => simp
  | cons f fs ih =>
    rw [forEach_cons, ih, List.map_cons, List.append_cons]
    rfl

theorem forEach_queueSum_flight (c tree port act : Nat) (fs : List Flit) (s : State) :
    (forEach fs (fun f => queueSum c tree port act f) s).mesh.flight = s.mesh.flight :=
  forEach_fixed (·.mesh.flight) (fun _ _ => by rfl) fs s

/-- Flits put into a queue one after the other stand at its end, in order (R56). -/
theorem forEach_queueSum_queue (c tree port act : Nat) (fs : List Flit) (s : State) (h : Table.wf (fun _ => []) s.mesh.redQ = true) :
    sumQueue c tree port (forEach fs (fun f => queueSum c tree port act f) s) = sumQueue c tree port s ++ fs := by
  induction fs generalizing s with
  | nil => simp
  | cons f fs ih =>
    have h1 : sumQueue c tree port (queueSum c tree port act f s) = sumQueue c tree port s ++ [f] := by
      unfold sumQueue queueSum
      dsimp only
      rw [Table.get_set_self _ h, List.map_append]
      rfl
    rw [forEach_cons, ih _ (Table.wf_set _ _ _ _ h), h1, List.append_assoc]
    rfl

/-- One report for each element of a list: the youngest of the fault reports. -/
theorem forEach_report_reports {α : Type} (cause c : Nat) (l : List α) (s : State) :
    (forEach l (fun _ => report cause c) s).mesh.reports = s.mesh.reports ++ List.replicate l.length ⟨cause, c, 0, none, false⟩ := by
  induction l generalizing s with
  | nil => simp
  | cons a l ih =>
    rw [forEach_cons, ih, List.length_cons, List.replicate_succ, List.append_cons]
    rfl

/-! ### The kinds of MOVE -/

section
variable {c : Nat} {w : Dword} {env : MemEnv} {s : State}

/-- The activity that pays for a cell's flits. -/
abbrev payer (c : Nat) (s : State) : Nat := activityOf (cell c s).serving

/-- The state after the reads of a MOVE. -/
abbrev moveRead (c : Nat) (w : Dword) (env : MemEnv) (s : State) : State := reads c 3 (moveGranules (moveWord w)) env s

/-- The span message that goes out with the last flit of a MOVE to a span port (R336). -/
def moveXing (c : Nat) (m : MoveWord) (u s : State) : Option (Nat × Nat × List Slot16) :=
  if m.vc = 3 ∧ 221196 ≤ m.dst ∧ m.dst < 221200 then crossingMsg c m ((List.range m.len).map fun i => readGranule c (m.laddr + i) u) s
  else none

theorem moveEffect_sum (h : (moveWord w).vc = 2) :
    moveEffect c w env s = forEach (sumFlits c (moveWord w) (seen c env s) s)
      (fun f => queueSum c ((moveWord w).dst % 256) 0 (payer c s) f) (moveRead c w env s) := by
  unfold moveEffect
  exact if_pos h

theorem moveEffect_tree (h : (moveWord w).vc = 1 ∧ (moveWord w).mc = true) :
    moveEffect c w env s = forEach (moveFlits c (moveWord w) (seen c env s) s)
      (fun f => launchFlit c (payer c s) f []) (moveRead c w env s) := by
  unfold moveEffect
  have hvc : ¬ (moveWord w).vc = 2 := by omega
  refine (if_neg hvc).trans (if_pos ?_)
  simp [h.1, h.2]

theorem moveEffect_unreached (hvc : (moveWord w).vc ≠ 2) (ht : ¬ ((moveWord w).vc = 1 ∧ (moveWord w).mc = true))
    (hr : ¬ (endpointOk (moveWord w).dst = true ∧ barred c (moveWord w).dst s = false)) :
    moveEffect c w env s = forEach (moveFlits c (moveWord w) (seen c env s) s) (fun _ => report 0x0A c) (moveRead c w env s) := by
  unfold moveEffect
  refine (if_neg hvc).trans ((if_neg ?_).trans (if_pos ?_))
  · simpa [and_comm] using ht
  · rw [Decidable.not_and_iff_or_not] at hr
    simpa using hr

theorem moveEffect_unicast (hvc : (moveWord w).vc ≠ 2) (ht : ¬ ((moveWord w).vc = 1 ∧ (moveWord w).mc = true))
    (hr : endpointOk (moveWord w).dst = true ∧ barred c (moveWord w).dst s = false) :
    moveEffect c w env s = forEach (moveFlits c (moveWord w) (seen c env s) s)
      (fun f => goOn ⟨c, f, payer c s, [], route c (meshEnd c (moveWord w).dst),
        if bitAt f.tag 44 then moveXing c (moveWord w) (seen c env s) s else none, none⟩)
      (chargeHops c (moveWord w).vc (moveWord w).len (hops c (meshEnd c (moveWord w).dst)) (moveRead c w env s)) := by
  unfold moveEffect
  refine (if_neg hvc).trans ((if_neg ?_).trans (if_neg ?_))
  · simpa [and_comm] using ht
  · simp [hr.1, hr.2]

/-- A MOVE leaves its cell's sequencer and every other cell alone (R71). -/
theorem moveEffect_steady {σ : State} (h : Steady c σ s) : Steady c σ (moveEffect c w env s) := by
  have h1 : Steady c σ (moveRead c w env s) := reads_steady h
  by_cases hs : (moveWord w).vc = 2
  · rw [moveEffect_sum hs]
    exact forEach_steady (fun _ _ ht => ht.of_cells rfl) h1
  by_cases ht : (moveWord w).vc = 1 ∧ (moveWord w).mc = true
  · rw [moveEffect_tree ht]
    exact forEach_steady (fun _ _ ht => ht.of_cells rfl) h1
  by_cases hr : endpointOk (moveWord w).dst = true ∧ barred c (moveWord w).dst s = false
  · rw [moveEffect_unicast hs ht hr]
    refine forEach_steady (fun f t ht => ht.of_cells ?_) (h1.of_cells ?_)
    · exact (goOn_same rfl (Same.refl [.win, .mesh, .link, .ports, .ocl, .pair, .free] t)).cells_eq (by decide)
    · exact (chargeHops_same rfl (Same.refl [.win, .budget, .link, .ports, .ocl] _)).cells_eq (by decide)
  · rw [moveEffect_unreached hs ht hr]
    exact forEach_steady (fun _ _ ht => ht.of_cells rfl) h1

theorem moveRead_flight : (moveRead c w env s).mesh.flight = s.mesh.flight := flight_of_calm (reads_calm _ _ _ _ _)

/-- A MOVE on VC2 puts its flits into the queue of the cell's own input for the tree (R56). -/
theorem moveEffect_sum_queue (hq : Table.wf (fun _ => []) s.mesh.redQ = true) (h : (moveWord w).vc = 2) :
    (moveEffect c w env s).mesh.flight = s.mesh.flight ∧
      sumQueue c ((moveWord w).dst % 256) 0 (moveEffect c w env s) =
        sumQueue c ((moveWord w).dst % 256) 0 s ++ sumFlits c (moveWord w) (seen c env s) s := by
  have hc : (moveRead c w env s).mesh.redQ = s.mesh.redQ := redQ_of_calm (reads_calm _ _ _ _ _)
  rw [moveEffect_sum h]
  refine ⟨(forEach_queueSum_flight ..).trans moveRead_flight, ?_⟩
  rw [forEach_queueSum_queue _ _ _ _ _ _ (by rw [hc]; exact hq)]
  unfold sumQueue
  rw [hc]

/-- A multicast MOVE puts its flits on the mesh at the cell's router (R54). -/
theorem moveEffect_tree_flight (h : (moveWord w).vc = 1 ∧ (moveWord w).mc = true) :
    ∃ l, (moveEffect c w env s).mesh.flight = s.mesh.flight ++ l ∧
      l.map Flight.core = (moveFlits c (moveWord w) (seen c env s) s).map fun f => (c, f, payer c s) := by
  rw [moveEffect_tree h, forEach_launch_flight, moveRead_flight]
  exact ⟨_, rfl, by rw [List.map_map]; rfl⟩

/-- A unicast MOVE to an endpoint that the mesh has: its flits join those on the mesh, but for those that have left it by a span port or
an OCL entry (R45). -/
theorem moveEffect_unicast_flight (hvc : (moveWord w).vc ≠ 2) (ht : ¬ ((moveWord w).vc = 1 ∧ (moveWord w).mc = true))
    (hr : endpointOk (moveWord w).dst = true ∧ barred c (moveWord w).dst s = false) :
    ∃ l, (moveEffect c w env s).mesh.flight = s.mesh.flight ++ l ∧
      (l.map Flight.core).Sublist ((moveFlits c (moveWord w) (seen c env s) s).map fun f => (c, f, payer c s)) ∧
      (¬ (221196 ≤ (moveWord w).dst ∧ (moveWord w).dst < 221203) →
        l.map Flight.core = (moveFlits c (moveWord w) (seen c env s) s).map fun f => (c, f, payer c s)) := by
  have hm : (chargeHops c (moveWord w).vc (moveWord w).len (hops c (meshEnd c (moveWord w).dst)) (moveRead c w env s)).mesh.flight
      = s.mesh.flight := by
    rw [(chargeHops_same rfl (Same.refl [.win, .budget, .link, .ports, .ocl] _)).part .mesh (by decide), moveRead_flight]
  rw [moveEffect_unicast hvc ht hr, ← hm]
  obtain ⟨l, hl, hsub, hall⟩ := forEach_goOn_flight _ (moveFlits c (moveWord w) (seen c env s) s) _
  exact ⟨l, hl, hsub, fun ho => hall fun f hf h => ho ((moveFlits_outward ht (moveWord_dst_lt w) hf).1 h)⟩

/-- A MOVE to an endpoint that is none of the cell's: every flit of it is reported as a misroute (R348). -/
theorem moveEffect_unreached_reports (hvc : (moveWord w).vc ≠ 2) (ht : ¬ ((moveWord w).vc = 1 ∧ (moveWord w).mc = true))
    (hr : ¬ (endpointOk (moveWord w).dst = true ∧ barred c (moveWord w).dst s = false)) :
    (moveEffect c w env s).mesh.flight = s.mesh.flight ∧
      List.replicate (moveWord w).len ⟨0x0A, c, 0, none, false⟩ <:+ (moveEffect c w env s).mesh.reports := by
  rw [moveEffect_unreached hvc ht hr]
  refine ⟨(forEach_fixed (·.mesh.flight) (fun _ _ => by rfl) _ _).trans moveRead_flight, ?_⟩
  rw [forEach_report_reports, show (moveFlits c (moveWord w) (seen c env s) s).length = (moveWord w).len by simp [moveFlits]]
  exact List.suffix_append _ _

end

theorem exec_move {c : Nat} {env : MemEnv} {s : State} (hc : canIssue c s = true) (hk : spells c env s = .move) :
    exec (.move c env) s = .next (advance c (moveEffect c (wordAt c env s) env (fill c env s))) := by
  show execMove c env s = _
  unfold execMove
  rw [issue_run hc (decide_eq_true hk)]
  rfl

/-- Settles O17: each kind of MOVE is one equation of its effect, and the flits of each join the mesh, a queue or the fault reports one
after the other. -/
theorem moveInjectsItsFlits : Obligations.MoveInjectsItsFlits := by
  unfold Obligations.MoveInjectsItsFlits
  intro s c env hwf hc hk u m out tree reached act flits core
  have hcalm := fill_calm c env s
  have hfl : (fill c env s).mesh.flight = s.mesh.flight := flight_of_calm hcalm
  have hact : payer c (fill c env s) = act := congrArg activityOf (serving_fill hwf.cells c env)
  have hreach : reached ↔ endpointOk m.dst = true ∧ barred c m.dst (fill c env s) = false := by rw [barred_fill]
  have hflits : (moveFlits c m u (fill c env s)).map (fun f => (c, f, payer c (fill c env s))) = flits := by
    rw [moveFlits_congr (mcast_of_calm hcalm), hact]
    exact List.map_map
  have hs : Steady c s (moveEffect c (wordAt c env s) env (fill c env s)) := moveEffect_steady (fill_steady (Steady.refl hwf.cells c))
  have hmem : (moveEffect c (wordAt c env s) env (fill c env s)).cellMem = s.cellMem :=
    ((moveEffect_same rfl (Same.refl [.win, .cells, .mesh, .budget, .link, .ports, .ocl, .pair, .free] _)).part .cellMem
      (by decide)).trans (cellMem_fill c env s)
  refine ⟨_, exec_move hc hk, (advance_pc hs.form c).trans (by rw [hs.pc]), (cellMem_advance c _).trans hmem,
    fun d hd => (cell_modCell_ne hd _ _).trans (hs.other d hd), ?_, ?_, ?_, ?_⟩
  · intro h
    rw [← hfl, ← hflits]
    by_cases ht : tree
    · exact moveEffect_tree_flight ht
    · obtain ⟨hvc, hr, ho⟩ := h.resolve_left ht
      obtain ⟨l, hl, -, hall⟩ := moveEffect_unicast_flight (env := env) hvc ht (hreach.1 hr)
      exact ⟨l, hl, hall ho⟩
  · intro hvc ht hr _
    rw [← hfl, ← hflits]
    obtain ⟨l, hl, hsub, -⟩ := moveEffect_unicast_flight (env := env) hvc ht (hreach.1 hr)
    exact ⟨l, hl, hsub⟩
  · intro hvc
    obtain ⟨hf, hq⟩ := moveEffect_sum_queue (env := env) (fill_keeps (Keeps.refl s) |>.tables hwf).redQ hvc
    refine ⟨hf.trans hfl, hq.trans ?_⟩
    rw [sumFlits_congr (redTab_of_calm hcalm)]
    unfold sumQueue
    rw [redQ_of_calm hcalm]
    rfl
  · intro hvc ht hr
    obtain ⟨hf, hrep⟩ := moveEffect_unreached_reports (env := env) hvc ht (mt hreach.2 hr)
    exact ⟨hf.trans hfl, hrep⟩

end Sys2Proof.Machine
end

section
/-!
SUPPORT. Stack requests (R194, R196, R199, R206): what taking a request off the mesh, its charges, its transfers' errors and its reply
leave alone, and where the granules of a write stand.
-/
namespace Sys2Proof.Machine
open Sys2Proof

variable {s t σ : State} {ρ : List Nat}

/-! ### Charges -/

/-- Registers that a charge may write: `BUDGET_STS`, `BUDGET_HELD`, the activity's used counters and the event path's (R170, R175). -/
def chargeRegs (a : Nat) : List Nat :=
  [O.BUDGET_STS, O.BUDGET_HELD, O.USED_FLIT a, O.USED_STACK a, O.USED_MJ a, 0xa000, 0xa070, 0xa074]

theorem chargeRegs_events (a : Nat) : SubN [0xa000, 0xa070, 0xa074] (chargeRegs a) := by simp [SubN, chargeRegs]

theorem usedFld_mem_chargeRegs (a kind : Nat) : (usedFld a kind).off ∈ chargeRegs a := by
  unfold usedFld
  split <;>
    simp [chargeRegs, F.USED_FLIT.VALUE, F.USED_STACK.VALUE, F.USED_MJ.VALUE, O.USED_FLIT, O.USED_STACK, O.USED_MJ]

theorem charge_regs {a kind n : Nat} (hl : SubN (chargeRegs a) ρ) (h : Regs ρ σ s) : Regs ρ σ (charge a kind n s) := by
  unfold charge checkHeld
  extract_lets total part s1
  have h1 := wr_regs (v := satN (usedFld a kind).w (rd (usedFld a kind) s1 + total / unitOf kind))
    (hl.mem (usedFld_mem_chargeRegs a kind)) (regs_upd h : Regs ρ σ s1)
  split
  · split
    · exact h1
    · exact raise_regs ((chargeRegs_events a).trans hl) (hl.mem (by simp [chargeRegs, bitFld]))
        (wr_regs (hl.mem (by simp [chargeRegs, bitFld])) h1)
  · exact h1

/-! ### Taking a request off the mesh -/

section
variable (ctl : Nat) (req : Granule) (data : List Granule) (s : State)

theorem takeRequest_frame : Same [.win, .mesh, .link, .ports, .ocl, .pair, .free] s (takeRequest ctl req data s) :=
  takeRequest_same rfl (Same.refl _ s)

/-- Taking a request writes no register but the event path's. -/
theorem takeRequest_writes : Regs [0xa000, 0xa070, 0xa074] s (takeRequest ctl req data s) := takeRequest_regs rfl (Regs.refl _ s)

@[simp] theorem takeRequest_stackMem : (takeRequest ctl req data s).stackMem = s.stackMem :=
  (takeRequest_frame ctl req data s).part .stackMem (by decide)

@[simp] theorem takeRequest_cellMem : (takeRequest ctl req data s).cellMem = s.cellMem :=
  (takeRequest_frame ctl req data s).part .cellMem (by decide)

theorem stackRegs_notin_events {o : Nat} (h : 0x1300000 ≤ o) : o ∉ [0xa000, 0xa070, 0xa074] := by
  simp only [List.mem_cons, List.not_mem_nil, or_false, not_or]
  omega

@[simp] theorem takeRequest_serving (n : Nat) : on (F.HS_STATE.SVC n) (takeRequest ctl req data s) = on (F.HS_STATE.SVC n) s := by
  unfold on
  rw [(takeRequest_writes ctl req data s).rd (stackRegs_notin_events (Nat.le_trans (by decide) (Nat.le_add_right _ _)))]

@[simp] theorem takeRequest_capacity : stackCapacity (takeRequest ctl req data s) = stackCapacity s := by
  unfold stackCapacity stacksInService
  simp only [takeRequest_serving]

@[simp] theorem takeRequest_inT36 (c : Nat) : inT36 c (takeRequest ctl req data s) = inT36 c s := by
  refine inT36_congr (takeRequest_writes ctl req data s) (fun m hm => ?_) (takeRequest_frame ctl req data s) (by decide) (by decide) c
  simp only [List.mem_cons, List.not_mem_nil, or_false, not_or]
  omega

end

theorem deliveredGranule_congr (h : t.stackMem = s.stackMem) (a : Nat) (env : StackEnv) :
    deliveredGranule a env t = deliveredGranule a env s := by
  unfold deliveredGranule stackGranule
  rw [h]

/-! ### Transfers and their errors -/

theorem stackUe_calm (c : Nat) (seq : Option Nat) (a : Nat) (s : State) : (stackUe c seq a s).mesh.calm = s.mesh.calm := by
  unfold stackUe
  extract_lets n s1 s2 r kv s3 s4
  have h2 : s2.mesh = s.mesh := by
    unfold s2
    split <;> exact raise_mesh _ _
  have h3 : s3.mesh = s.mesh := ((journal_same rfl (Same.refl [.boot] _)).part .mesh (by decide)).trans h2
  have h4 : s4.mesh.calm = s.mesh.calm := by rw [← h3]; rfl
  split
  · rw [← h4]
    exact calm_of_same (badPage_same rfl (Same.refl [.win, .stackMem, .kv, .svc, .link, .ports, .ocl, .pair, .free] _)) (by decide)
  · exact h4

/-- Retries and corrected reads change registers and the event path alone. -/
theorem retries_corrections_frame {π : List Part} (hl : Sub [.win, .link, .ports, .ocl] π) (p : Nat → Bool) (env : StackEnv)
    (h : Same π σ s) :
    Same π σ (forEach (env.ce.filter p) correctStack (forEach (env.retries.filter p).eraseDups (retryStack env) s)) :=
  forEach_same (fun _ _ => correctStack_same hl) (forEach_same (fun _ _ => retryStack_same hl) h)

theorem stackMetOf_calm (c : Nat) (seq : Option Nat) (p : Nat → Bool) (env : StackEnv) (s : State) :
    (stackMetOf c seq p env s).mesh.calm = s.mesh.calm := by
  unfold stackMetOf
  dsimp only
  rw [forEach_fixed (·.mesh.calm) (stackUe_calm c seq),
    calm_of_same (retries_corrections_frame rfl p env (Same.refl [.win, .link, .ports, .ocl] s)) (by decide)]

theorem StackEnv.lostIn_nil {env : StackEnv} (h : ∀ a, env.lost a = false) (p : Nat → Bool) : env.lostIn p = [] := by
  unfold StackEnv.lostIn
  simp [h]

/-- A transfer that loses nothing changes registers and the event path alone. -/
theorem stackMetOf_frame {π : List Part} (hl : Sub [.win, .link, .ports, .ocl] π) {env : StackEnv} (he : ∀ a, env.lost a = false)
    (c : Nat) (seq : Option Nat) (p : Nat → Bool) (h : Same π σ s) : Same π σ (stackMetOf c seq p env s) := by
  unfold stackMetOf
  rw [StackEnv.lostIn_nil he]
  exact retries_corrections_frame hl p env h

/-- A write meets no uncorrectable word: it loses nothing where no transfer fails five times. -/
theorem StackEnv.write_lost {env : StackEnv} (h : ∀ a, env.failures a < 5) (a : Nat) : StackEnv.lost { env with ue := [] } a = false :=
  decide_eq_false (Nat.not_le.2 (h a))

/-! ### Stores -/

/-- What a run of stores at addresses of their own leaves: each granule at its address, every byte outside them as before. -/
theorem storeGranules_memory (as_ : List Nat) (gs : List Granule) (s : State) (hm : Memory.wf s.stackMem = true) :
    (as_.Pairwise (fun a b => a + 64 ≤ b ∨ b + 64 ≤ a) → ∀ k (h : k < as_.length) (h2 : k < gs.length),
      stackGranule as_[k] (storeGranules as_ gs s) = gs[k]) ∧
    ∀ b, (∀ a ∈ as_, b < a ∨ a + 64 ≤ b) → byteAt (storeGranules as_ gs s).stackMem b = byteAt s.stackMem b := by
  induction as_ generalizing gs s with
  | nil => exact ⟨fun _ _ h => absurd h (Nat.not_lt_zero _), fun _ _ => by rw [storeGranules]; simp⟩
  | cons a as_ ih =>
    cases gs with
    | nil => exact ⟨fun _ _ _ h => absurd h (Nat.not_lt_zero _), fun _ _ => by rw [storeGranules]; simp⟩
    | cons g gs =>
      obtain ⟨hin, hout⟩ := ih gs (setStackGranule a g s) (by rw [stackMem_set]; exact memPut_keeps_form hm _ _ _)
      rw [storeGranules]
      refine ⟨fun hd k h h2 => ?_, fun b hb => ?_⟩
      · obtain ⟨hfar, hd⟩ := List.pairwise_cons.1 hd
        cases k with
        | zero =>
          have hsame : stackGranule a (storeGranules as_ gs (setStackGranule a g s)) = stackGranule a (setStackGranule a g s) := by
            unfold stackGranule memNat
            rw [Table.getMany_congr byte0 fun j h1 h2 => hout j fun x hx => by have := hfar x hx; omega]
          exact hsame.trans (stackGranule_set hm a g)
        | succ k => exact hin hd k (Nat.lt_of_succ_lt_succ h) (Nat.lt_of_succ_lt_succ h2)
      · rw [hout b fun x hx => hb x (by simp [hx]), stackByte_set hm (hb a (by simp))]

theorem stackGranule_congr (h : t.stackMem = s.stackMem) (a : Nat) : stackGranule a t = stackGranule a s := by
  unfold stackGranule
  rw [h]

/-! ### The transfers of a request -/

/-- A write request's granules stored at addresses and counted, `n` bytes charged, and what the transfers met handled (R199, R201,
R206). -/
def stackWritten (r : StackReq) (as_ : List Nat) (n : Nat) (data : List Granule) (env : StackEnv) (s : State) : State :=
  stackMet r.reply (some r.seq) as_ { env with ue := [] } (countGranules true as_ (storeGranules as_ data (chargeStack r n s)))

/-- A read request's granules counted, `n` bytes charged, and what the transfers of `met` met handled. -/
def stackFetched (r : StackReq) (met as_ : List Nat) (n : Nat) (env : StackEnv) (s : State) : State :=
  stackMet r.reply (some r.seq) met env (countGranules false as_ (chargeStack r n s))

section
variable {r : StackReq} {met as_ : List Nat} {n : Nat} {data : List Granule} {env : StackEnv}

theorem stackWritten_calm : (stackWritten r as_ n data env s).mesh.calm = s.mesh.calm :=
  (stackMetOf_calm ..).trans (calm_of_same (countGranules_same rfl (storeGranules_same rfl
    (chargeStack_same rfl (Same.refl [.win, .budget, .link, .ports, .ocl, .stackMem] s)))) (by decide))

theorem stackFetched_calm : (stackFetched r met as_ n env s).mesh.calm = s.mesh.calm :=
  (stackMetOf_calm ..).trans (calm_of_same (countGranules_same rfl
    (chargeStack_same rfl (Same.refl [.win, .budget, .link, .ports, .ocl] s))) (by decide))

theorem stackWritten_frame (he : ∀ a, env.failures a < 5) :
    Same [.win, .stackMem, .budget, .link, .ports, .ocl] s (stackWritten r as_ n data env s) :=
  stackMetOf_frame rfl (StackEnv.write_lost he) _ _ _
    (countGranules_same rfl (storeGranules_same rfl (chargeStack_same rfl (Same.refl _ s))))

theorem stackFetched_stackMem (he : ∀ a, env.lost a = false) : (stackFetched r met as_ n env s).stackMem = s.stackMem :=
  (stackMetOf_frame rfl he _ _ _ (countGranules_same rfl
    (chargeStack_same rfl (Same.refl [.win, .budget, .link, .ports, .ocl] s)))).part .stackMem (by decide)

/-- What a write leaves in stack memory where no transfer fails five times: each address of its own holds its granule, every other byte
is as before. -/
theorem stackWritten_memory (hm : Memory.wf s.stackMem = true) (he : ∀ a, env.failures a < 5) :
    (as_.Pairwise (fun a b => a + 64 ≤ b ∨ b + 64 ≤ a) → ∀ k (h1 : k < as_.length) (h2 : k < data.length),
      stackGranule as_[k] (stackWritten r as_ n data env s) = data[k]) ∧
    ∀ b, (∀ a ∈ as_, b < a ∨ a + 64 ≤ b) → byteAt (stackWritten r as_ n data env s).stackMem b = byteAt s.stackMem b := by
  have hc : (chargeStack r n s).stackMem = s.stackMem :=
    (chargeStack_same rfl (Same.refl [.win, .budget, .link, .ports, .ocl] s)).part .stackMem (by decide)
  have hst : (stackWritten r as_ n data env s).stackMem = (storeGranules as_ data (chargeStack r n s)).stackMem :=
    (stackMetOf_frame rfl (StackEnv.write_lost he) _ _ _ (countGranules_same rfl (Same.refl [.win, .link, .ports, .ocl] _))).part
      .stackMem (by decide)
  obtain ⟨hin, hout⟩ := storeGranules_memory as_ data _ (hc.symm ▸ hm)
  exact ⟨fun hd k h1 h2 => (stackGranule_congr hst _).trans (hin hd k h1 h2), fun b hb => by rw [hst, hout b hb, hc]⟩

end

/-! ### Replies -/

section
variable {ctl : Nat} {r : StackReq}

/-- The reply's flits are bound for the requester (R51, R196). -/
theorem replyTag_dst {i n : Nat} (h : r.reply < 2 ^ 18) : fieldOf (replyTag ctl r i n) 5 18 = r.reply := by
  unfold replyTag fieldOf bitsOf
  simp only [BitVec.toNat_ofNat, Nat.shiftRight_eq_div_pow]
  omega

/-- A reply to a cell: its flits join those on the mesh, in order. -/
theorem replyFlits_flight (gs : List Granule) (s : State) (h : r.reply < 221184) :
    ∃ k, (replyFlits ctl r gs s).mesh.flight = s.mesh.flight ++ k ∧
      k.map Flight.core = (List.range gs.length).map fun i => (221184 + ctl, ⟨replyTag ctl r i gs.length, gs.getD i 0⟩, r.act) := by
  unfold replyFlits
  extract_lets n hp flit s1
  have h1 : s1.mesh.flight = s.mesh.flight := by
    rw [(chargeEnergy_same rfl (charge_same rfl (Same.refl [.win, .budget, .link, .ports, .ocl] s))).part .mesh (by decide)]
  obtain ⟨k, hk, -, hall⟩ := forEach_goOn_flight
    (fun i => ⟨221184 + ctl, flit i, r.act, [], route (replyCell ctl r i) r.reply, none, none⟩) (List.range n) s1
  refine ⟨k, hk.trans (by rw [h1]), hall fun i _ ho => ?_⟩
  unfold Flit.outward at ho
  rw [replyTag_dst (by omega)] at ho
  omega

/-- A reply of `n` flits with the data that `f` gives for each. -/
theorem replyFlits_range_flight (n : Nat) (f : Nat → Granule) (s : State) (h : r.reply < 221184) :
    ∃ k, (replyFlits ctl r ((List.range n).map f) s).mesh.flight = s.mesh.flight ++ k ∧
      k.map Flight.core = (List.range n).map fun i => (221184 + ctl, ⟨replyTag ctl r i n, f i⟩, r.act) := by
  obtain ⟨k, hk, hc⟩ := replyFlits_flight (ctl := ctl) ((List.range n).map f) s h
  refine ⟨k, hk, hc.trans ?_⟩
  rw [List.length_map, List.length_range]
  refine List.map_congr_left fun i hi => ?_
  simp [List.mem_range.1 hi]

/-- An acknowledgement is one flit to the requester. -/
theorem ackFlit_flight (err : Bool) (s : State) (h : r.reply < 221184) :
    ∃ k, (ackFlit ctl r err s).mesh.flight = s.mesh.flight ++ k ∧
      k.map Flight.core = [(221184 + ctl, ⟨replyTag ctl r 0 1, BitVec.ofNat 512 (r.op + 256 * bitN err)⟩, r.act)] :=
  replyFlits_range_flight 1 (fun _ => BitVec.ofNat 512 (r.op + 256 * bitN err)) s h

theorem replyFlits_regs {gs : List Granule} (h : Regs (chargeRegs r.act) σ s) : Regs (chargeRegs r.act) σ (replyFlits ctl r gs s) :=
  forEach_regs (fun _ _ ht => goOn_regs (chargeRegs_events _) ht) (charge_regs (subN_refl _) (charge_regs (subN_refl _) h))

/-- The registers of pools and stacks are none of a charge's. -/
theorem notin_chargeRegs {a o : Nat} (h : a < 8) (h1 : 0x7000 ≤ o) (h2 : o < 0xa000 ∨ 0xa078 ≤ o) : o ∉ chargeRegs a := by
  simp only [chargeRegs, O.BUDGET_STS, O.BUDGET_HELD, O.USED_FLIT, O.USED_STACK, O.USED_MJ, List.mem_cons, List.not_mem_nil, or_false,
    not_or]
  omega

theorem stackReq_act_lt (g : Granule) : (stackReq g).act < 8 := Nat.mod_lt _ (by decide)

/-- An error of a request shows in `KV_STS.RANGE` (R199). -/
theorem rd_kvRange (h : Table.wf resetWord s.win = true) : rd F.KV_STS.RANGE (kvRange r s) = 1 := rd_raise h rfl (by decide) (by decide)

/-- It still does after the reply. -/
theorem rd_kvRange_replied (h : Table.wf resetWord s.win = true) (ha : r.act < 8) (gs : List Granule) :
    rd F.KV_STS.RANGE (replyFlits ctl r gs (kvRange r s)) = 1 := by
  rw [(replyFlits_regs (Regs.refl _ _)).rd (notin_chargeRegs ha (by decide) (by decide)), rd_kvRange h]

theorem kvRange_flight : (kvRange r s).mesh.flight = s.mesh.flight := by
  unfold kvRange
  rw [flight_of_calm (report_calm ..), raise_mesh]

theorem kvRange_stackMem : (kvRange r s).stackMem = s.stackMem :=
  (kvRange_same rfl (Same.refl [.win, .mesh, .link, .ports, .ocl] s)).part .stackMem (by decide)

theorem replyFlits_stackMem (gs : List Granule) : (replyFlits ctl r gs s).stackMem = s.stackMem :=
  (replyFlits_same rfl (Same.refl [.win, .mesh, .budget, .link, .ports, .ocl, .pair, .free] s)).part .stackMem (by decide)

end

end Sys2Proof.Machine
end

section
/-!
SUPPORT. LIN requests (R196, R199): what LIN_WRITE and LIN_READ do within the capacity, past it, and for a cell of a T36 image.
-/
namespace Sys2Proof.Machine
open Sys2Proof

section
variable {ctl : Nat} {req : Granule} {data : List Granule} {env : StackEnv} {s : State}

/-- The state after a LIN_WRITE's granules are stored and its transfers done. -/
abbrev linStored (req : Granule) (data : List Granule) (env : StackEnv) (s : State) : State :=
  stackWritten (stackReq req) (linAddrs (stackReq req)) (64 * (stackReq req).len) data env s

/-- The state after a LIN_READ's transfers. -/
abbrev linFetched (req : Granule) (env : StackEnv) (s : State) : State :=
  stackFetched (stackReq req) (linAddrs (stackReq req)) (linAddrs (stackReq req)) (64 * (stackReq req).len) env s

/-! ### The cases of a well-formed request -/

section
variable (hctl : ctl < 12) (hon : on (F.HS_STATE.SVC ctl) s = true)
include hctl hon

theorem linWrite_t36 (hop : (stackReq req).op = 4) (h36 : inT36 (stackReq req).reply s = true) :
    linWrite ctl req data env s = kvRange (stackReq req) s := by
  unfold linWrite
  simp [hon, hop, h36, Nat.not_le.2 hctl]

theorem linRead_t36 (hop : (stackReq req).op = 3) (h36 : inT36 (stackReq req).reply s = true) :
    linRead ctl req env s = kvRange (stackReq req) s := by
  unfold linRead
  simp [hon, hop, h36, Nat.not_le.2 hctl]

variable (hres : reservedSet req = false) (hsh : linShapeOk (stackReq req) = true) (h36 : inT36 (stackReq req).reply s = false)
include hres hsh h36

theorem linWrite_inside (hop : (stackReq req).op = 4) (hlen : data.length = (stackReq req).len)
    (hin : (stackReq req).addr + 64 * (stackReq req).len ≤ stackCapacity s) :
    linWrite ctl req data env s = ackFlit ctl (stackReq req) false
      (bumpBy F.SPILL_GR_CNT ((linAddrs (stackReq req)).filter fun a => inSpill a s).length (linStored req data env s)) := by
  unfold linWrite
  simp [hon, hop, hres, hsh, h36, hlen, Nat.not_le.2 hctl, linInside, hin, stackWritten]

theorem linWrite_outside (hop : (stackReq req).op = 4) (hlen : data.length = (stackReq req).len)
    (hout : stackCapacity s < (stackReq req).addr + 64 * (stackReq req).len) :
    linWrite ctl req data env s = ackFlit ctl (stackReq req) true (kvRange (stackReq req) s) := by
  unfold linWrite
  simp [hon, hop, hres, hsh, h36, hlen, Nat.not_le.2 hctl, linInside, Nat.not_le.2 hout]

theorem linRead_inside (hop : (stackReq req).op = 3) (hin : (stackReq req).addr + 64 * (stackReq req).len ≤ stackCapacity s) :
    linRead ctl req env s = replyFlits ctl (stackReq req) ((linAddrs (stackReq req)).map fun a => deliveredGranule a env s)
      (linFetched req env s) := by
  unfold linRead
  simp [hon, hop, hres, hsh, h36, Nat.not_le.2 hctl, linInside, hin, stackFetched]

theorem linRead_outside (hop : (stackReq req).op = 3) (hout : stackCapacity s < (stackReq req).addr + 64 * (stackReq req).len) :
    linRead ctl req env s = replyFlits ctl (stackReq req) (List.replicate (stackReq req).len 0) (kvRange (stackReq req) s) := by
  unfold linRead
  simp [hon, hop, hres, hsh, h36, Nat.not_le.2 hctl, linInside, Nat.not_le.2 hout]

end

/-! ### What a LIN request leaves -/

theorem linAddrs_length (r : StackReq) : (linAddrs r).length = r.len := by simp [linAddrs]

theorem linAddrs_getElem (r : StackReq) {k : Nat} (h : k < (linAddrs r).length) : (linAddrs r)[k] = r.addr + 64 * k := by
  simp [linAddrs]

theorem linAddrs_apart (r : StackReq) : (linAddrs r).Pairwise fun a b => a + 64 ≤ b ∨ b + 64 ≤ a := by
  unfold linAddrs
  refine List.pairwise_map.2 (List.pairwise_lt_range.imp fun {i j} h => ?_)
  omega

/-- What a LIN_WRITE leaves in stack memory where no transfer fails five times. -/
theorem linStored_memory (hm : Memory.wf s.stackMem = true) (hlen : data.length = (stackReq req).len) (h : ∀ a, env.failures a < 5) :
    (∀ k (hk : k < data.length), stackGranule ((stackReq req).addr + 64 * k) (linStored req data env s) = data[k]) ∧
      ∀ b, (b < (stackReq req).addr ∨ (stackReq req).addr + 64 * (stackReq req).len ≤ b) →
        byteAt (linStored req data env s).stackMem b = byteAt s.stackMem b := by
  obtain ⟨hin, hout⟩ := stackWritten_memory (r := stackReq req) (as_ := linAddrs (stackReq req)) (n := 64 * (stackReq req).len)
    (data := data) hm h
  refine ⟨fun k hk => ?_, fun b hb => hout b fun a ha => ?_⟩
  · have := hin (linAddrs_apart _) k (by rw [linAddrs_length]; omega) hk
    rwa [linAddrs_getElem] at this
  · obtain ⟨i, hi, rfl⟩ := List.mem_map.1 ha
    have := List.mem_range.1 hi
    omega

theorem linWrite_cellMem : (linWrite ctl req data env (takeRequest ctl req data s)).cellMem = s.cellMem :=
  ((linWrite_same rfl (Same.refl [.win, .stackMem, .mesh, .budget, .kv, .svc, .link, .ports, .ocl, .pair, .boot, .free] _)).part .cellMem
    (by decide)).trans (takeRequest_cellMem ..)

theorem linRead_cellMem : (linRead ctl req env (takeRequest ctl req [] s)).cellMem = s.cellMem :=
  ((linRead_same rfl (Same.refl [.win, .stackMem, .mesh, .budget, .kv, .svc, .link, .ports, .ocl, .pair, .boot, .free] _)).part .cellMem
    (by decide)).trans (takeRequest_cellMem ..)

end

/-- Settles O29: each case of a LIN request is one equation of its effect; its stores, its transfers and its reply are judged by the
laws of stack requests. -/
theorem linearStackRequests : Obligations.LinearStackRequests := by
  unfold Obligations.LinearStackRequests
  intro s ctl req data env htab hmem hctl hon hres hsh r core flit sent
  have hact : r.act < 8 := stackReq_act_lt req
  have hon' : ∀ d, on (F.HS_STATE.SVC ctl) (takeRequest ctl req d s) = true := fun d => by rw [takeRequest_serving, hon]
  have hwin : ∀ d, Table.wf resetWord (takeRequest ctl req d s).win = true := fun d =>
    ((takeRequest_keeps (Keeps.refl s)).tables htab).win
  refine ⟨fun h36 hop hlen hin => ⟨_, rfl, linWrite_cellMem, ?_⟩, fun h36 hop hlen hout => ⟨_, rfl, ?_⟩,
    fun h36 hop hin => ⟨_, rfl, linRead_cellMem, ?_⟩, fun h36 hop hout => ⟨_, rfl, ?_⟩,
    fun h36 => ⟨fun hop => ⟨_, rfl, ?_⟩, fun hop => ⟨_, rfl, ?_⟩⟩⟩
  case refine_1 =>
    rw [linWrite_inside hctl (hon' data) hres hsh (by rwa [takeRequest_inT36]) hop hlen (by rwa [takeRequest_capacity])]
    refine ⟨fun hcell => ?_, fun hfail => ?_⟩
    · obtain ⟨k, hk, hcore⟩ := ackFlit_flight (ctl := ctl) (r := r) false _ hcell
      exact ⟨k, hk.trans (by rw [bumpBy_mesh, flight_of_calm stackWritten_calm]), hcore.trans (by rw [hop]; rfl)⟩
    · obtain ⟨hin, hout⟩ := linStored_memory (req := req) (s := takeRequest ctl req data s)
        (by rw [takeRequest_stackMem]; exact hmem.stackMem) hlen hfail
      refine ⟨fun k hk => (stackGranule_congr (replyFlits_stackMem _) _).trans (hin k hk), fun b hb => ?_⟩
      rw [ackFlit, replyFlits_stackMem, bumpBy_stackMem, hout b hb, takeRequest_stackMem]
  case refine_2 =>
    have hcm := linWrite_cellMem (ctl := ctl) (req := req) (data := data) (env := env) (s := s)
    rw [linWrite_outside hctl (hon' data) hres hsh (by rwa [takeRequest_inT36]) hop hlen (by rwa [takeRequest_capacity])] at hcm ⊢
    refine ⟨?_, hcm, rd_kvRange_replied (hwin data) hact _, fun hcell => ?_⟩
    · rw [ackFlit, replyFlits_stackMem, kvRange_stackMem, takeRequest_stackMem]
    · obtain ⟨k, hk, hcore⟩ := ackFlit_flight (ctl := ctl) (r := r) true _ hcell
      exact ⟨k, hk.trans (by rw [kvRange_flight]), hcore.trans (by rw [hop]; rfl)⟩
  case refine_3 =>
    rw [linRead_inside hctl (hon' []) hres hsh (by rwa [takeRequest_inT36]) hop (by rwa [takeRequest_capacity])]
    refine ⟨fun hlost => ?_, fun hcell => ?_⟩
    · rw [replyFlits_stackMem, stackFetched_stackMem hlost, takeRequest_stackMem]
    · unfold linAddrs
      rw [List.map_map]
      obtain ⟨k, hk, hcore⟩ := replyFlits_range_flight (ctl := ctl) (r := r) r.len _ _ hcell
      refine ⟨k, hk.trans (by rw [flight_of_calm stackFetched_calm]), hcore.trans ?_⟩
      simp only [Function.comp_apply, deliveredGranule_congr (takeRequest_stackMem ctl req [] s)]
      rfl
  case refine_4 =>
    have hcm := linRead_cellMem (ctl := ctl) (req := req) (env := env) (s := s)
    rw [linRead_outside hctl (hon' []) hres hsh (by rwa [takeRequest_inT36]) hop (by rwa [takeRequest_capacity])] at hcm ⊢
    refine ⟨?_, hcm, rd_kvRange_replied (hwin []) hact _, fun hcell => ?_⟩
    · rw [replyFlits_stackMem, kvRange_stackMem, takeRequest_stackMem]
    · rw [show List.replicate r.len (0 : Granule) = (List.range r.len).map fun _ => 0 by simp]
      obtain ⟨k, hk, hcore⟩ := replyFlits_range_flight (ctl := ctl) (r := r) r.len (fun _ => 0) _ hcell
      exact ⟨k, hk.trans (by rw [kvRange_flight]), hcore⟩
  case refine_5 =>
    rw [linRead_t36 hctl (hon' []) hop (by rwa [takeRequest_inT36])]
    exact ⟨rd_kvRange (hwin []), kvRange_stackMem.trans (takeRequest_stackMem ..), kvRange_flight⟩
  case refine_6 =>
    rw [linWrite_t36 hctl (hon' data) hop (by rwa [takeRequest_inT36])]
    exact ⟨rd_kvRange (hwin data), kvRange_stackMem.trans (takeRequest_stackMem ..), kvRange_flight⟩

end Sys2Proof.Machine
end

section
/-!
SUPPORT. KV requests (R192, R193, R196 to R199): what the page walk depends on, and what KV_READ and KV_WRITE do with the page they find
or take.
-/
namespace Sys2Proof.Machine
open Sys2Proof

variable {s t σ : State} {ρ : List Nat} {m q span p : Nat} {ctl : Nat} {req : Granule} {data : List Granule} {env : StackEnv}

/-! ### The pool registers of a model slot -/

/-- The registers of the shape of a model slot's pool (`POOL_BASE` to `POOL_PAGES`, R210) read in `t` as in `s`. -/
def PoolShape (m : Nat) (s t : State) : Prop := ∀ o, 0x7100 + m * 0x30 ≤ o → o < 0x7110 + m * 0x30 → reg o t = reg o s

/-- All pool registers of a model slot read in `t` as in `s`. -/
def PoolSame (m : Nat) (s t : State) : Prop := ∀ o, 0x7100 + m * 0x30 ≤ o → o < 0x7130 + m * 0x30 → reg o t = reg o s

theorem PoolSame.shape (h : PoolSame m s t) : PoolShape m s t := fun o h1 h2 => h o h1 (Nat.lt_of_lt_of_le h2 (by omega))

theorem PoolSame.rd (h : PoolSame m s t) {k lo w : Nat} (h1 : 0x7100 ≤ k) (h2 : k < 0x7130) :
    rd ⟨k + m * 0x30, lo, w⟩ t = rd ⟨k + m * 0x30, lo, w⟩ s := by
  unfold Machine.rd
  rw [h _ (Nat.add_le_add_right h1 _) (Nat.add_lt_add_right h2 _)]

theorem PoolShape.rd (h : PoolShape m s t) {k lo w : Nat} (h1 : 0x7100 ≤ k) (h2 : k < 0x7110) :
    rd ⟨k + m * 0x30, lo, w⟩ t = rd ⟨k + m * 0x30, lo, w⟩ s := by
  unfold Machine.rd
  rw [h _ (Nat.add_le_add_right h1 _) (Nat.add_lt_add_right h2 _)]

theorem Regs.pool (h : Regs ρ s t) (hρ : ∀ o ∈ ρ, o < 0x7100 + m * 0x30 ∨ 0x7130 + m * 0x30 ≤ o) : PoolSame m s t :=
  fun o h1 h2 => h.reg o fun ho => by have := hρ o ho; omega

theorem poolGeom_rd (h : PoolShape m s t) {lo w : Nat} : rd ⟨0x7104 + m * 0x30, lo, w⟩ t = rd ⟨0x7104 + m * 0x30, lo, w⟩ s :=
  h.rd (by decide) (by decide)

theorem poolG_congr (h : PoolShape m s t) : poolG m t = poolG m s := poolGeom_rd h

theorem poolKvh_congr (h : PoolShape m s t) : poolKvh m t = poolKvh m s := congrArg (· + 1) (poolGeom_rd h)

theorem poolD_congr (h : PoolShape m s t) : poolD m t = poolD m s := congrArg (fun n => (n + 1) * 64) (poolGeom_rd h)

theorem poolL_congr (h : PoolShape m s t) : poolL m t = poolL m s := congrArg (· + 1) (poolGeom_rd h)

theorem poolUnits_congr (h : PoolShape m s t) : poolUnits m t = poolUnits m s := poolGeom_rd h

theorem sideHead_congr (h : PoolShape m s t) : sideHead m t = sideHead m s := by
  unfold sideHead
  rw [poolKvh_congr h]

theorem sideGr_congr (h : PoolShape m s t) : sideGr m t = sideGr m s := by
  unfold sideGr
  rw [sideHead_congr h, poolKvh_congr h, poolD_congr h]

theorem pageElem_congr (h : PoolShape m s t) (n l : Nat) : pageElem m n l t = pageElem m n l s := by
  unfold pageElem F.POOL_BASE.VALUE
  rw [poolL_congr h, poolUnits_congr h, h.rd (by decide) (by decide)]

theorem pageSide_congr (h : PoolShape m s t) (n l : Nat) : pageSide m n l t = pageSide m n l s := by
  unfold pageSide F.SIDE_BASE.VALUE
  rw [poolL_congr h, sideGr_congr h, h.rd (by decide) (by decide)]

theorem poolOn_congr (h : PoolSame m s t) : poolOn m t = poolOn m s := congrArg (· != 0) (h.rd (by decide) (by decide))

theorem poolFree_congr (h : PoolSame m s t) : rd (F.POOL_FREE.VALUE m) t = rd (F.POOL_FREE.VALUE m) s := h.rd (by decide) (by decide)

theorem freeAddr_congr (h : PoolSame m s t) (i : Nat) : freeAddr m i t = freeAddr m i s := by
  unfold freeAddr F.POOL_FREELIST.VALUE
  rw [h.rd (by decide) (by decide)]

/-- A request's places in a page depend on the shape of its model slot's pool alone. -/
theorem kvAddrs_congr (h : PoolShape m s t) (p : Nat) (r : StackReq) : kvAddrs m p r t = kvAddrs m p r s := by
  unfold kvAddrs elemOffsets sideOffsets
  simp only [poolG_congr h, poolKvh_congr h, poolD_congr h, sideHead_congr h, pageElem_congr h, pageSide_congr h]

/-- Every element granule of a request belongs to one of its positions. -/
theorem kvAddrs_position {r : StackReq} {a : Option Nat × Nat} (h : a ∈ kvAddrs m p r s) {x : Nat} (hx : a.1 = some x) :
    x < r.pos + r.npos := by
  unfold kvAddrs at h
  rcases List.mem_append.1 h with h | h
  · obtain ⟨e, he, rfl⟩ := List.mem_map.1 h
    cases hx
    simp only [elemOffsets, List.mem_flatMap, List.mem_map, List.mem_range] at he
    obtain ⟨_, _, _, _, i, hi, _, _, rfl⟩ := he
    exact Nat.add_lt_add_left hi _
  · obtain ⟨o, -, rfl⟩ := List.mem_map.1 h
    cases hx

/-! ### The slot and its page list -/

theorem seqSlot_congr (h : t.kv.seqs = s.kv.seqs) (q : Nat) : seqSlot q t = seqSlot q s := by
  unfold seqSlot
  rw [h]

theorem seqSlot_set (h : Table.wf (fun _ => SeqSlot.reset) s.kv.seqs = true) (q : Nat) (x : SeqSlot) : seqSlot q (setSeqSlot q x s) = x :=
  Table.get_set_self _ h q x

theorem pageAt_congr (hk : (seqSlot q t).list = (seqSlot q s).list)
    (hm : stackNat (listAddr q span s) 4 t = stackNat (listAddr q span s) 4 s) :
    pageAt q span t = pageAt q span s := by
  unfold pageAt
  rw [show listAddr q span t = listAddr q span s by unfold listAddr; rw [hk]]
  dsimp only
  rw [hm]

theorem stackNat_congr (h : t.stackMem = s.stackMem) (a n : Nat) : stackNat a n t = stackNat a n s := by
  unfold stackNat
  rw [h]

/-- The word of an unshared page reads back as its entry. -/
theorem pageAt_of_listWord (h : stackNat (listAddr q span s) 4 s = listWord ⟨span, p, false⟩) (hp : p < 2 ^ 28) :
    pageAt q span s = some ⟨span, p, false⟩ := by
  have h1 : bitsOf (p % 2 ^ 28 + 2 ^ 28 + 2 ^ 29 * bitN false) 28 1 = 1 := by
    unfold bitsOf bitN
    rw [Nat.shiftRight_eq_div_pow]
    simp only [Bool.false_eq_true, if_false]
    omega
  have h2 : bitsOf (p % 2 ^ 28 + 2 ^ 28 + 2 ^ 29 * bitN false) 0 28 = p := by
    unfold bitsOf bitN
    simp only [Bool.false_eq_true, if_false, Nat.shiftRight_zero]
    omega
  have h3 : bitsOf (p % 2 ^ 28 + 2 ^ 28 + 2 ^ 29 * bitN false) 29 1 = 0 := by
    unfold bitsOf bitN
    rw [Nat.shiftRight_eq_div_pow]
    simp only [Bool.false_eq_true, if_false]
    omega
  unfold pageAt
  rw [h]
  unfold listWord
  dsimp only
  rw [h1, h2, h3]
  rfl

/-! ### What taking a request leaves of the page walk -/

theorem takeRequest_pool (hm : m < 16) (ctl : Nat) (req : Granule) (data : List Granule) (s : State) :
    PoolSame m s (takeRequest ctl req data s) :=
  (takeRequest_writes ctl req data s).pool (by simp; omega)

@[simp] theorem takeRequest_seqSlot (ctl : Nat) (req : Granule) (data : List Granule) (s : State) (q : Nat) :
    seqSlot q (takeRequest ctl req data s) = seqSlot q s :=
  seqSlot_congr (congrArg Kv.seqs ((takeRequest_frame ctl req data s).part .kv (by decide))) q

@[simp] theorem takeRequest_pageAt (ctl : Nat) (req : Granule) (data : List Granule) (s : State) (q span : Nat) :
    pageAt q span (takeRequest ctl req data s) = pageAt q span s :=
  pageAt_congr (by rw [takeRequest_seqSlot]) (stackNat_congr (takeRequest_stackMem ..) _ _)

theorem takeRequest_kvFieldsOk {r : StackReq} (hm : (seqSlot r.seq s).model < 16) (ctl : Nat) (req : Granule) (data : List Granule) :
    kvFieldsOk r (takeRequest ctl req data s) = kvFieldsOk r s := by
  have h := takeRequest_pool hm ctl req data s
  unfold kvFieldsOk
  rw [takeRequest_seqSlot]
  dsimp only
  rw [poolOn_congr h, poolL_congr h.shape, poolKvh_congr h.shape]

theorem takeRequest_recordedPage (ctl : Nat) (req : Granule) (data : List Granule) (s : State) (q span : Nat) :
    recordedPage q span (takeRequest ctl req data s) = recordedPage q span s := by
  unfold recordedPage
  rw [(takeRequest_frame ctl req data s).part .ledger (by decide)]

/-! ### KV_WRITE once its page is known -/

/-- Stack addresses of a request's places in a page. -/
abbrev kvPlaces (m p : Nat) (r : StackReq) (s : State) : List Nat := (kvAddrs m p r s).map (·.2)

/-- The state after a KV_WRITE's granules are stored in page `p` and its transfers done. -/
abbrev kvStored (m p : Nat) (r : StackReq) (data : List Granule) (env : StackEnv) (s : State) : State :=
  stackWritten r (kvPlaces m p r s) (64 * (kvPlaces m p r s).length + 4) data env s

/-- A controller takes up a KV request (R27, R194, R196): its stack is in service, the request is well formed, of a slot in use, and for
a cell that no T36 image binds. -/
structure KvTaken (ctl : Nat) (req : Granule) (s : State) : Prop where
  controller : ctl < 12
  serving : on (F.HS_STATE.SVC ctl) s = true
  unreserved : reservedSet req = false
  fields : kvFieldsOk (stackReq req) s = true
  native : inT36 (stackReq req).reply s = false

theorem kvWrite_committed (h : KvTaken ctl req s) (hop : (stackReq req).op = 2)
    (hlen : data.length = (kvAddrs (seqSlot (stackReq req).seq s).model 0 (stackReq req) s).length)
    (hcp : commitPage (stackReq req).seq ((stackReq req).pos / 256) (stackReq req) env s = some (p, t)) :
    kvWrite ctl req data env s = ackFlit ctl (stackReq req) false
      (ackWrites (stackReq req).seq (elemOffsets (seqSlot (stackReq req).seq s).model (stackReq req) s).length
        (kvStored (seqSlot (stackReq req).seq s).model p (stackReq req) data env t)) := by
  obtain ⟨hctl, hon, hres, hok, h36⟩ := h
  unfold kvWrite
  simp [hon, hop, hres, hok, h36, hlen, hcp, Nat.not_le.2 hctl, stackWritten]

/-- An entry of the sequence's own: the page is the list's (R193). -/
theorem commitPage_own {e : PageEntry} {r : StackReq} (h : pageAt q span s = some e) (hs : e.shared = false) :
    commitPage q span r env s = some (e.page, s) := by
  unfold commitPage
  simp [h, hs]

/-- The state after a sequence has taken the last free page from its reservation (R193). -/
def pageTaken (q : Nat) (s : State) : State :=
  setSeqSlot q { seqSlot q s with resv := (seqSlot q s).resv - 1 }
    (wr (F.POOL_RESV.VALUE (seqSlot q s).model) (rd (F.POOL_RESV.VALUE (seqSlot q s).model) s - 1)
      (wr (F.POOL_FREE.VALUE (seqSlot q s).model) (rd (F.POOL_FREE.VALUE (seqSlot q s).model) s - 1)
        (setFreeList (seqSlot q s).model (freeListOf (seqSlot q s).model s).dropLast s)))

/-- The page it took. -/
def nextFree (q : Nat) (s : State) : Nat := freePage (seqSlot q s).model (rd (F.POOL_FREE.VALUE (seqSlot q s).model) s - 1) s

theorem takePage_some (hf : 0 < rd (F.POOL_FREE.VALUE (seqSlot q s).model) s) (hr : 0 < (seqSlot q s).resv) :
    takePage q s = some (nextFree q s, pageTaken q s) := by
  unfold takePage
  exact if_neg (by omega)

/-- The state after a new page has been put into the ledger's record and the page list. -/
def pageGiven (q span : Nat) (r : StackReq) (s : State) : State :=
  setPage q ⟨span, nextFree q s, false⟩ (chargeStack r 4 (chargeStack r 4
    (modStepSeq q (fun x => { x with pages := putPage ⟨span, nextFree q s, false⟩ x.pages }) (pageTaken q s))))

/-- No entry and none recorded: the page is a new one from the reservation (R193). -/
theorem commitPage_new {r : StackReq} (h : pageAt q span s = none) (hrec : recordedPage q span s = none)
    (hf : 0 < rd (F.POOL_FREE.VALUE (seqSlot q s).model) s) (hr : 0 < (seqSlot q s).resv) :
    commitPage q span r env s = some (nextFree q s, pageGiven q span r s) := by
  unfold commitPage
  simp only [h, hrec, takePage_some hf hr]
  rfl

theorem chargeStack_regs {r : StackReq} {n : Nat} (h : Regs (chargeRegs r.act) σ s) : Regs (chargeRegs r.act) σ (chargeStack r n s) :=
  charge_regs (subN_refl _) (charge_regs (subN_refl _) h)

theorem setPage_win (q : Nat) (e : PageEntry) (s : State) : (setPage q e s).win = s.win := rfl

theorem modStepSeq_win (q : Nat) (f : StepSeq → StepSeq) (s : State) : (modStepSeq q f s).win = s.win := rfl

/-- Entering the page writes the registers of a charge alone. -/
theorem pageGiven_regs (q span : Nat) (r : StackReq) (s : State) : Regs (chargeRegs r.act) (pageTaken q s) (pageGiven q span r s) := by
  unfold pageGiven
  refine Regs.of_win (chargeStack_regs (chargeStack_regs ?_)) (setPage_win ..)
  exact (Regs.refl _ _).of_win (modStepSeq_win ..)

theorem storeGranules_win (as_ : List Nat) (gs : List Granule) (s : State) : (storeGranules as_ gs s).win = s.win :=
  (storeGranules_same rfl (Same.refl [.stackMem] s)).part .win (by decide)

/-- Which stack an address lies in depends on which stacks are in service. -/
theorem stackOf_congr (h : ∀ n, n < 12 → reg (F.HS_STATE.SVC n).off t = reg (F.HS_STATE.SVC n).off s) (a : Nat) :
    stackOf a t = stackOf a s := by
  have hs : stacksInService t = stacksInService s := by
    unfold stacksInService
    refine List.filter_congr fun n hn => ?_
    unfold on Machine.rd
    rw [h n (List.mem_range.1 hn)]
  unfold stackOf
  rw [hs]

/-- The low word of a counter after it has been raised. -/
theorem reg_bump_self (h : Table.wf resetWord s.win = true) (off : Nat) : reg off (bump off s) = BitVec.ofNat 32 (cnt off s + 1) := by
  unfold bump bumpBy setCnt
  rw [reg_setReg_ne (by omega), reg_setReg_self h]

/-- Without an error a transfer leaves nothing behind. -/
theorem stackMet_quiet (c : Nat) (seq : Option Nat) (as_ : List Nat) (s : State) :
    stackMet c seq as_ { StackEnv.quiet with ue := [] } s = s := rfl

theorem countGranules_written (a : Nat) (s : State) : countGranules true [a] s = bump (F.HS_WR_GR_CNT (stackOf a s)) s := rfl

end Sys2Proof.Machine
end

section
/-!
SUPPORT. What KV requests do for the sixteen model slots that there are (R189, R190, R192, R193, R196 to R199): for these each of the
four parts of KvRequestsWalkThePageList holds.
-/
namespace Sys2Proof.Machine
open Sys2Proof

variable {s t : State} {m q span p : Nat} {ctl : Nat} {req : Granule} {data : List Granule} {env : StackEnv} {e : PageEntry}

/-- Model slot of the request's sequence slot. -/
abbrev kvModel (req : Granule) (s : State) : Nat := (seqSlot (stackReq req).seq s).model

/-- Page span of the request. -/
abbrev kvSpan (req : Granule) : Nat := (stackReq req).pos / 256

theorem KvTaken.after (h : KvTaken ctl req s) (hm : kvModel req s < 16) (data : List Granule) :
    KvTaken ctl req (takeRequest ctl req data s) :=
  ⟨h.controller, by rw [takeRequest_serving, h.serving], h.unreserved, by rw [takeRequest_kvFieldsOk hm, h.fields],
    by rw [takeRequest_inT36, h.native]⟩

/-- The reply to a request with this data: its flits to a cell join those that the request has left on the mesh (R196). -/
def Replied (ctl : Nat) (req : Granule) (gs : List Granule) (s t : State) : Prop :=
  (stackReq req).reply < 221184 → ∃ k, t.mesh.flight = (takeRequest ctl req [] s).mesh.flight ++ k ∧
    k.map Flight.core = (List.range gs.length).map fun i =>
      (221184 + ctl, (⟨replyTag ctl (stackReq req) i gs.length, gs.getD i 0⟩ : Flit), (stackReq req).act)

theorem replied_of_calm {gs : List Granule} (h : t.mesh.calm = (takeRequest ctl req [] s).mesh.calm) :
    Replied ctl req gs s (replyFlits ctl (stackReq req) gs t) := fun hcell => by
  obtain ⟨k, hk, hcore⟩ := replyFlits_flight (ctl := ctl) gs t hcell
  exact ⟨k, hk.trans (by rw [flight_of_calm h]), hcore⟩

/-! ### KV_READ -/

/-- The state after a KV_READ's count and its charge for the list entry. -/
abbrev kvCounted (req : Granule) (s : State) : State :=
  chargeStack (stackReq req) 4 (bumpBy F.KV_GR_CNT (kvAddrs (kvModel req s) 0 (stackReq req) s).length s)

/-- The state after the transfers of a KV_READ of places in a page. -/
abbrev kvFetched (req : Granule) (places : List Nat) (env : StackEnv) (s : State) : State :=
  stackFetched (stackReq req) (listGranule (stackReq req).seq (kvSpan req) s :: places) places (64 * places.length) env (kvCounted req s)

theorem stackReq_npos_pos (g : Granule) : 0 < (stackReq g).npos := Nat.succ_pos _

theorem kvRead_listed (h : KvTaken ctl req s) (hop : (stackReq req).op = 1)
    (hlen : (stackReq req).pos + (stackReq req).npos ≤ (seqSlot (stackReq req).seq s).len)
    (he : pageAt (stackReq req).seq (kvSpan req) s = some e) :
    kvRead ctl req env s = replyFlits ctl (stackReq req)
      ((kvAddrs (kvModel req s) e.page (stackReq req) s).map fun a => deliveredGranule a.2 env s)
      (kvFetched req (kvPlaces (kvModel req s) e.page (stackReq req) s) env s) := by
  have hlive : (kvAddrs (kvModel req s) e.page (stackReq req) s).filter
      (fun a => a.1.all fun p => decide (p < (seqSlot (stackReq req).seq s).len)) = kvAddrs (kvModel req s) e.page (stackReq req) s := by
    refine List.filter_eq_self.2 fun a ha => ?_
    rw [Option.all_eq_true]
    exact fun x hx => decide_eq_true (Nat.lt_of_lt_of_le (kvAddrs_position ha hx) hlen)
  have hdata : (kvAddrs (kvModel req s) e.page (stackReq req) s).map (fun a =>
      if (kvAddrs (kvModel req s) e.page (stackReq req) s).contains a then deliveredGranule a.2 env s else 0) =
      (kvAddrs (kvModel req s) e.page (stackReq req) s).map fun a => deliveredGranule a.2 env s :=
    List.map_congr_left fun a ha => if_pos (List.contains_iff_mem.2 ha)
  have hpos := stackReq_npos_pos req
  obtain ⟨hctl, hon, hres, hok, h36⟩ := h
  unfold kvRead
  simp only [hon, hop, hres, hok, h36, he, hlive, hdata, Nat.not_le.2 hctl, when, Nat.not_lt.2 hlen,
    show ¬ (seqSlot (stackReq req).seq s).len ≤ (stackReq req).pos by omega]
  simp [stackFetched]

theorem kvRead_unlisted (h : KvTaken ctl req s) (hop : (stackReq req).op = 1)
    (hlen : (stackReq req).pos + (stackReq req).npos ≤ (seqSlot (stackReq req).seq s).len)
    (he : pageAt (stackReq req).seq (kvSpan req) s = none) :
    kvRead ctl req env s = replyFlits ctl (stackReq req)
      (List.replicate (kvAddrs (kvModel req s) 0 (stackReq req) s).length 0) (kvMiss (stackReq req) (kvCounted req s)) := by
  have hpos := stackReq_npos_pos req
  obtain ⟨hctl, hon, hres, hok, h36⟩ := h
  unfold kvRead
  simp only [hon, hop, hres, hok, h36, he, Nat.not_le.2 hctl, when, Nat.not_lt.2 hlen,
    show ¬ (seqSlot (stackReq req).seq s).len ≤ (stackReq req).pos by omega]
  simp

theorem kvCounted_frame : Same [.win, .budget, .link, .ports, .ocl] s (kvCounted req s) :=
  chargeStack_same rfl (bumpBy_same rfl (Same.refl _ s))

theorem kvCounted_calm : (kvCounted req s).mesh.calm = s.mesh.calm := calm_of_same kvCounted_frame (by decide)

/-- KV_READ of committed positions of a listed page answers the granules of that page at the request's places (R197). -/
theorem kvRead_answers_page (h : KvTaken ctl req s) (hm : kvModel req s < 16) (hop : (stackReq req).op = 1)
    (hlen : (stackReq req).pos + (stackReq req).npos ≤ (seqSlot (stackReq req).seq s).len)
    (he : pageAt (stackReq req).seq (kvSpan req) s = some e) :
    ∃ t, exec (.kvRead ctl req env) s = .next t ∧ t.cellMem = s.cellMem ∧ ((∀ a, env.lost a = false) → t.stackMem = s.stackMem) ∧
      Replied ctl req ((kvAddrs (kvModel req s) e.page (stackReq req) s).map fun a => deliveredGranule a.2 env s) s t := by
  have hread := kvRead_listed (env := env) (h.after hm []) hop (by rwa [takeRequest_seqSlot]) ((takeRequest_pageAt ..).trans he)
  rw [kvModel, takeRequest_seqSlot, kvAddrs_congr (takeRequest_pool hm ctl req [] s).shape] at hread
  simp only [deliveredGranule_congr (takeRequest_stackMem ctl req [] s)] at hread
  refine ⟨_, congrArg Host.Outcome.next hread, ?_, fun hlost => ?_, replied_of_calm (stackFetched_calm.trans kvCounted_calm)⟩
  · rw [← hread]
    exact ((kvRead_same rfl (Same.refl [.win, .stackMem, .mesh, .budget, .kv, .svc, .link, .ports, .ocl, .pair, .boot, .free] _)).part
      .cellMem (by decide)).trans (takeRequest_cellMem ..)
  · rw [replyFlits_stackMem, stackFetched_stackMem hlost, kvCounted_frame.part .stackMem (by decide), takeRequest_stackMem]

/-- KV_READ of committed positions of a page that is not listed answers zeros and shows in `KV_STS.PAGE_MISS` (R199). -/
theorem kvRead_misses_page (htab : s.TablesWf) (h : KvTaken ctl req s) (hm : kvModel req s < 16) (hop : (stackReq req).op = 1)
    (hlen : (stackReq req).pos + (stackReq req).npos ≤ (seqSlot (stackReq req).seq s).len)
    (he : pageAt (stackReq req).seq (kvSpan req) s = none) :
    ∃ t, exec (.kvRead ctl req env) s = .next t ∧ t.stackMem = s.stackMem ∧ rd F.KV_STS.PAGE_MISS t = 1 ∧
      Replied ctl req (List.replicate (kvAddrs (kvModel req s) 0 (stackReq req) s).length 0) s t := by
  have hread := kvRead_unlisted (env := env) (h.after hm []) hop (by rwa [takeRequest_seqSlot]) ((takeRequest_pageAt ..).trans he)
  rw [kvModel, takeRequest_seqSlot, kvAddrs_congr (takeRequest_pool hm ctl req [] s).shape] at hread
  have hwin : Table.wf resetWord (kvCounted req (takeRequest ctl req [] s)).win = true :=
    ((chargeStack_keeps (bumpBy_keeps (takeRequest_keeps (Keeps.refl s)))).tables htab).win
  have hframe := kvMiss_same (r := stackReq req) rfl
    (Same.refl [.win, .mesh, .link, .ports, .ocl] (kvCounted req (takeRequest ctl req [] s)))
  refine ⟨_, congrArg Host.Outcome.next hread, ?_, ?_, replied_of_calm ?_⟩
  · rw [replyFlits_stackMem, hframe.part .stackMem (by decide), kvCounted_frame.part .stackMem (by decide), takeRequest_stackMem]
  · rw [(replyFlits_regs (Regs.refl _ _)).rd (notin_chargeRegs (stackReq_act_lt req) (by decide) (by decide))]
    exact rd_raise hwin rfl (by decide) (by decide)
  · rw [kvMiss, report_calm, raise_mesh, kvCounted_calm]

/-! ### KV_WRITE -/

/-- KV_WRITE into a page of the sequence's own stores its granules at the request's places and no other byte (R193, R198). -/
theorem kvWrite_stores_in_page (hmem : s.MemoryWf) (h : KvTaken ctl req s) (hm : kvModel req s < 16) (hop : (stackReq req).op = 2)
    (hlen : data.length = (kvAddrs (kvModel req s) 0 (stackReq req) s).length) (he : pageAt (stackReq req).seq (kvSpan req) s = some e)
    (hown : e.shared = false) (hfail : ∀ a, env.failures a < 5)
    (hd : (kvPlaces (kvModel req s) e.page (stackReq req) s).Pairwise fun a b => a + 64 ≤ b ∨ b + 64 ≤ a) :
    ∃ t, exec (.kvWrite ctl req data env) s = .next t ∧ t.cellMem = s.cellMem ∧
      (∀ k (h1 : k < (kvPlaces (kvModel req s) e.page (stackReq req) s).length) (h2 : k < data.length),
        stackGranule (kvPlaces (kvModel req s) e.page (stackReq req) s)[k] t = data[k]) ∧
      ∀ b, (∀ a ∈ kvPlaces (kvModel req s) e.page (stackReq req) s, b < a ∨ a + 64 ≤ b) →
        byteAt t.stackMem b = byteAt s.stackMem b := by
  have hpool := (takeRequest_pool hm ctl req data s).shape
  have hwrite := kvWrite_committed (data := data) (h.after hm data) hop (by rw [takeRequest_seqSlot, kvAddrs_congr hpool, hlen])
    (commitPage_own (env := env) ((takeRequest_pageAt ..).trans he) hown)
  have hplaces : kvPlaces (kvModel req s) e.page (stackReq req) (takeRequest ctl req data s) =
      kvPlaces (kvModel req s) e.page (stackReq req) s := by rw [kvPlaces, kvAddrs_congr hpool]
  rw [takeRequest_seqSlot, kvStored, hplaces] at hwrite
  obtain ⟨hin, hout⟩ := stackWritten_memory (r := stackReq req) (as_ := kvPlaces (kvModel req s) e.page (stackReq req) s)
    (n := 64 * (kvPlaces (kvModel req s) e.page (stackReq req) s).length + 4) (data := data) (s := takeRequest ctl req data s)
    (by rw [takeRequest_stackMem]; exact hmem.stackMem) hfail
  refine ⟨_, congrArg Host.Outcome.next hwrite, ?_, fun k h1 h2 => ?_, fun b hb => ?_⟩
  · rw [← hwrite]
    exact ((kvWrite_same rfl (Same.refl [.win, .cells, .stackMem, .mesh, .sched, .budget, .kv, .svc, .ledger, .link, .ports, .ocl, .pair,
      .faults, .power, .boot, .mgmt, .free] _)).part .cellMem (by decide)).trans (takeRequest_cellMem ..)
  · exact (stackGranule_congr (replyFlits_stackMem _) _).trans (hin hd k h1 h2)
  · rw [ackFlit, replyFlits_stackMem]
    exact (hout b hb).trans (by rw [takeRequest_stackMem])

/-! ### KV_WRITE of a new page -/

theorem PoolSame.refl (m : Nat) (s : State) : PoolSame m s s := fun _ _ _ => rfl

theorem PoolSame.trans {u : State} (h : PoolSame m s t) (k : PoolSame m t u) : PoolSame m s u :=
  fun o h1 h2 => (k o h1 h2).trans (h o h1 h2)

theorem PoolSame.of_win {u : State} (h : PoolSame m s t) (hw : u.win = t.win) : PoolSame m s u :=
  fun o h1 h2 => (reg_congr hw o).trans (h o h1 h2)

theorem forEach_pool {α : Type} {f : α → State → State} (hf : ∀ x t, PoolSame m t (f x t)) (l : List α) (s : State) :
    PoolSame m s (forEach l f s) := by
  induction l generalizing s with
  | nil => exact .refl m s
  | cons x l ih => exact (hf x s).trans (ih (f x s))

/-- Charging an activity leaves the pool registers. -/
theorem chargeRegs_pool {a : Nat} (h : Regs (chargeRegs a) s t) (ha : a < 8) (hm : m < 16) : PoolSame m s t :=
  fun _ h1 h2 => h.reg _ (notin_chargeRegs ha (by omega) (by omega))

/-- So does raising a counter of a stack, or a bit of its status. -/
theorem bumpBy_pool (hm : m < 16) {o : Nat} (ho : 0x1300000 ≤ o) (n : Nat) (s : State) : PoolSame m s (bumpBy o n s) :=
  fun _ _ h2 => reg_setCnt_ne (by omega) (by omega) _ s

theorem raise_pool (hm : m < 16) {f : Fld} (hf : 0x1300000 ≤ f.off) (s : State) : PoolSame m s (raise f s) :=
  (raise_writes f s).pool (by simp only [List.mem_cons, List.not_mem_nil, or_false, forall_eq_or_imp, forall_eq]; omega)

theorem correctStack_pool (hm : m < 16) (a : Nat) (s : State) : PoolSame m s (correctStack a s) :=
  (bumpBy_pool hm (Nat.le_trans (by decide) (Nat.le_add_right 0x1300010 _)) 1 s).trans (raise_pool hm (Nat.le_add_right _ _) _)

theorem retryStack_pool (hm : m < 16) (env : StackEnv) (a : Nat) (s : State) : PoolSame m s (retryStack env a s) := by
  unfold retryStack when
  dsimp only
  split
  · exact (bumpBy_pool hm (Nat.le_trans (by decide) (Nat.le_add_right 0x1300020 _)) _ s).trans (raise_pool hm (Nat.le_add_right _ _) _)
  · exact .refl m s

theorem stackMetOf_pool (hm : m < 16) (h : ∀ a, env.lost a = false) (c : Nat) (seq : Option Nat) (p : Nat → Bool) (s : State) :
    PoolSame m s (stackMetOf c seq p env s) := by
  unfold stackMetOf
  rw [StackEnv.lostIn_nil h]
  exact (forEach_pool (retryStack_pool hm env) _ s).trans (forEach_pool (correctStack_pool hm) _ _)

theorem countGranules_pool (hm : m < 16) (as_ : List Nat) (s : State) : PoolSame m s (countGranules true as_ s) :=
  forEach_pool (fun _ t => bumpBy_pool hm (Nat.le_trans (by decide) (Nat.le_add_right 0x1300030 _)) 1 t) as_ s

theorem kvStored_pool (hm : m < 16) (h : ∀ a, env.failures a < 5) (p : Nat) {r : StackReq} (hr : r.act < 8) (data : List Granule)
    (s : State) : PoolSame m s (kvStored m p r data env s) :=
  (((chargeRegs_pool (chargeStack_regs (Regs.refl _ s)) hr hm).of_win (storeGranules_win ..)).trans (countGranules_pool hm _ _)).trans
    (stackMetOf_pool hm (StackEnv.write_lost h) _ _ _ _)

/-! ### The page taken and its entry -/

theorem nextFree_congr (hk : seqSlot q t = seqSlot q s) (hp : PoolSame (seqSlot q s).model s t) (hm : t.stackMem = s.stackMem) :
    nextFree q t = nextFree q s := by
  unfold nextFree freePage
  rw [hk, poolFree_congr hp, freeAddr_congr hp, stackNat_congr hm]

theorem nextFree_lt (q : Nat) (s : State) : nextFree q s < 2 ^ 28 := Nat.mod_lt _ (by decide)

theorem pageTaken_seqSlot (h : s.TablesWf) (q : Nat) :
    seqSlot q (pageTaken q s) = { seqSlot q s with resv := (seqSlot q s).resv - 1 } := seqSlot_set h.seqs _ _

theorem reg_setSeqSlot (o : Nat) (x : SeqSlot) : reg o (setSeqSlot q x s) = reg o s := rfl

theorem rd_setSeqSlot (f : Fld) (x : SeqSlot) : rd f (setSeqSlot q x s) = rd f s := rfl

/-- One page fewer is free. -/
theorem pageTaken_free (h : s.TablesWf) (q : Nat) :
    rd (F.POOL_FREE.VALUE (seqSlot q s).model) (pageTaken q s) = rd (F.POOL_FREE.VALUE (seqSlot q s).model) s - 1 := by
  have hlt := rd_lt (F.POOL_FREE.VALUE (seqSlot q s).model) s
  have hne : (F.POOL_FREE.VALUE (seqSlot q s).model).off ≠ (F.POOL_RESV.VALUE (seqSlot q s).model).off := by
    unfold F.POOL_FREE.VALUE F.POOL_RESV.VALUE
    dsimp only
    omega
  unfold pageTaken
  rw [rd_setSeqSlot, rd_wr_ne hne, rd_wr_self (by exact h.win) (show 0 + 28 ≤ 32 by decide)]
  exact Nat.mod_eq_of_lt (Nat.lt_of_le_of_lt (Nat.sub_le _ _) hlt)

/-- Taking a page leaves the shape of the pool. -/
theorem pageTaken_shape : PoolShape (seqSlot q s).model s (pageTaken q s) := fun o h1 h2 => by
  unfold pageTaken
  rw [reg_setSeqSlot, reg_wr_ne (by unfold F.POOL_RESV.VALUE; dsimp only; omega),
    reg_wr_ne (by unfold F.POOL_FREE.VALUE; dsimp only; omega)]
  rfl

/-- What is charged and recorded between the taking of the page and its entry in the list. -/
theorem pageCharged_frame (r : StackReq) (f : StepSeq → StepSeq) (s : State) :
    Same [.win, .ledger, .budget, .link, .ports, .ocl] s (chargeStack r 4 (chargeStack r 4 (modStepSeq q f s))) :=
  chargeStack_same rfl (chargeStack_same rfl (modStepSeq_same rfl (Same.refl _ s)))

theorem setPage_seqSlot (h : Table.wf (fun _ => SeqSlot.reset) s.kv.seqs = true) (q : Nat) (e : PageEntry) :
    seqSlot q (setPage q e s) = { seqSlot q s with pages := putPage e (seqSlot q s).pages } := seqSlot_set h _ _

theorem setPage_stackMem (q : Nat) (e : PageEntry) (s : State) :
    (setPage q e s).stackMem = memPut s.stackMem (listAddr q e.span s) 4 (listWord e) := rfl

/-- The slot with its page entered: one reserved page fewer, the same list. -/
theorem pageGiven_seqSlot (h : s.TablesWf) (q span : Nat) (r : StackReq) :
    (seqSlot q (pageGiven q span r s)).resv = (seqSlot q s).resv - 1 ∧
      (seqSlot q (pageGiven q span r s)).list = (seqSlot q s).list := by
  have hkv := (pageCharged_frame (q := q) r (fun x => { x with pages := putPage ⟨span, nextFree q s, false⟩ x.pages })
    (pageTaken q s)).part .kv (by decide)
  have hwf : Table.wf (fun _ => SeqSlot.reset) (pageTaken q s).kv.seqs = true := Table.wf_set _ _ _ _ h.seqs
  rw [pageGiven, setPage_seqSlot (by rw [hkv]; exact hwf), seqSlot_congr (congrArg Kv.seqs hkv), pageTaken_seqSlot h]
  exact ⟨rfl, rfl⟩

/-- Of stack memory the entry in the page list is written alone. -/
theorem pageGiven_stackMem (h : s.TablesWf) (q span : Nat) (r : StackReq) :
    (pageGiven q span r s).stackMem = memPut s.stackMem (listAddr q span s) 4 (listWord ⟨span, nextFree q s, false⟩) := by
  have hframe := pageCharged_frame (q := q) r (fun x => { x with pages := putPage ⟨span, nextFree q s, false⟩ x.pages }) (pageTaken q s)
  rw [pageGiven, setPage_stackMem, hframe.part .stackMem (by decide)]
  unfold listAddr
  rw [seqSlot_congr (congrArg Kv.seqs (hframe.part .kv (by decide))), pageTaken_seqSlot h]
  rfl

theorem listWord_lt (e : PageEntry) : listWord e < 256 ^ 4 := by
  unfold listWord bitN
  split <;> omega

/-- The state after a KV_WRITE to page `p` has been acknowledged. -/
abbrev kvAcked (ctl : Nat) (req : Granule) (n m p : Nat) (data : List Granule) (env : StackEnv) (s : State) : State :=
  ackFlit ctl (stackReq req) false (ackWrites (stackReq req).seq n (kvStored m p (stackReq req) data env s))

theorem kvAcked_pool (hm : m < 16) (h : ∀ a, env.failures a < 5) (n p : Nat) :
    PoolSame m s (kvAcked ctl req n m p data env s) :=
  ((kvStored_pool hm h p (stackReq_act_lt req) data s).of_win (u := ackWrites (stackReq req).seq n _) rfl).trans
    (chargeRegs_pool (replyFlits_regs (Regs.refl _ _)) (stackReq_act_lt req) hm)

theorem kvAcked_seqSlot (h : ∀ a, env.failures a < 5) (n p q : Nat) : seqSlot q (kvAcked ctl req n m p data env s) = seqSlot q s := by
  have h1 : (kvAcked ctl req n m p data env s).kv = (kvStored m p (stackReq req) data env s).kv :=
    (ackFlit_same rfl (ackWrites_same rfl
      (Same.refl [.win, .mesh, .budget, .link, .ports, .ocl, .pair, .free, .ledger] _))).part .kv (by decide)
  exact seqSlot_congr (congrArg Kv.seqs (h1.trans ((stackWritten_frame h).part .kv (by decide)))) q

theorem kvAcked_stackMem (n p : Nat) : (kvAcked ctl req n m p data env s).stackMem = (kvStored m p (stackReq req) data env s).stackMem :=
  (ackFlit_same rfl (ackWrites_same rfl
    (Same.refl [.win, .mesh, .budget, .link, .ports, .ocl, .pair, .free, .ledger] _))).part .stackMem (by decide)

/-- What a KV_WRITE to a new page leaves: its entry in the page list, one free and one reserved page fewer. -/
theorem kvAcked_pageGiven (htab : s.TablesWf) (hmem : s.MemoryWf) (hm : (seqSlot q s).model < 16)
    (hfail : ∀ a, env.failures a < 5) (n : Nat) (hapart : ∀ a ∈ kvPlaces (seqSlot q s).model (nextFree q s) (stackReq req) s,
      a + 64 ≤ listAddr q span s ∨ listAddr q span s + 4 ≤ a) :
    pageAt q span (kvAcked ctl req n (seqSlot q s).model (nextFree q s) data env (pageGiven q span (stackReq req) s)) =
        some ⟨span, nextFree q s, false⟩ ∧
      rd (F.POOL_FREE.VALUE (seqSlot q s).model)
          (kvAcked ctl req n (seqSlot q s).model (nextFree q s) data env (pageGiven q span (stackReq req) s)) =
        rd (F.POOL_FREE.VALUE (seqSlot q s).model) s - 1 ∧
      (seqSlot q (kvAcked ctl req n (seqSlot q s).model (nextFree q s) data env (pageGiven q span (stackReq req) s))).resv =
        (seqSlot q s).resv - 1 := by
  obtain ⟨hresv, hlist⟩ := pageGiven_seqSlot htab q span (stackReq req)
  have hgiven : PoolSame (seqSlot q s).model (pageTaken q s) (pageGiven q span (stackReq req) s) :=
    chargeRegs_pool (pageGiven_regs ..) (stackReq_act_lt req) hm
  have hshape : PoolShape (seqSlot q s).model s (pageGiven q span (stackReq req) s) :=
    fun o h1 h2 => (hgiven.shape o h1 h2).trans (pageTaken_shape o h1 h2)
  have hst := pageGiven_stackMem htab q span (stackReq req)
  refine ⟨pageAt_of_listWord ?_ (nextFree_lt q s), ?_, ?_⟩
  · have hplaces : kvPlaces (seqSlot q s).model (nextFree q s) (stackReq req) (pageGiven q span (stackReq req) s) =
        kvPlaces (seqSlot q s).model (nextFree q s) (stackReq req) s := by rw [kvPlaces, kvAddrs_congr hshape]
    have hout := (stackWritten_memory (r := stackReq req) (as_ := kvPlaces (seqSlot q s).model (nextFree q s) (stackReq req) s)
      (n := 64 * (kvPlaces (seqSlot q s).model (nextFree q s) (stackReq req) s).length + 4) (data := data) (env := env)
      (s := pageGiven q span (stackReq req) s) (by rw [hst]; exact memPut_keeps_form hmem.stackMem _ _ _) hfail).2
    have haddr : listAddr q span (kvAcked ctl req n (seqSlot q s).model (nextFree q s) data env (pageGiven q span (stackReq req) s)) =
        listAddr q span s := by
      unfold listAddr
      rw [kvAcked_seqSlot hfail, hlist]
    rw [haddr, stackNat_congr (kvAcked_stackMem ..), kvStored, hplaces, stackNat, memNat,
      Table.getMany_congr byte0 fun j h1 h2 => hout j fun a ha => by
      have := hapart a ha
      omega]
    rw [hst, ← memNat, memNat_memPut hmem.stackMem, Nat.mod_eq_of_lt (listWord_lt _)]
  · rw [poolFree_congr (kvAcked_pool hm hfail _ _), poolFree_congr hgiven, pageTaken_free htab]
  · rw [kvAcked_seqSlot hfail, hresv]

/-- KV_WRITE of a span with no entry and none recorded takes the last free page, enters it in the page list, and one free and one
reserved page fewer are left (R193). -/
theorem kvWrite_takes_page (htab : s.TablesWf) (hmem : s.MemoryWf) (h : KvTaken ctl req s) (hm : kvModel req s < 16)
    (hop : (stackReq req).op = 2) (hlen : data.length = (kvAddrs (kvModel req s) 0 (stackReq req) s).length)
    (hnone : pageAt (stackReq req).seq (kvSpan req) s = none) (hrec : recordedPage (stackReq req).seq (kvSpan req) s = none)
    (hfail : ∀ a, env.failures a < 5) (hfree : 0 < rd (F.POOL_FREE.VALUE (kvModel req s)) s)
    (hresv : 0 < (seqSlot (stackReq req).seq s).resv)
    (hapart : ∀ a ∈ kvPlaces (kvModel req s) (nextFree (stackReq req).seq s) (stackReq req) s,
      a + 64 ≤ listAddr (stackReq req).seq (kvSpan req) s ∨ listAddr (stackReq req).seq (kvSpan req) s + 4 ≤ a) :
    ∃ t, exec (.kvWrite ctl req data env) s = .next t ∧
      pageAt (stackReq req).seq (kvSpan req) t = some ⟨kvSpan req, nextFree (stackReq req).seq s, false⟩ ∧
      rd (F.POOL_FREE.VALUE (kvModel req s)) t = rd (F.POOL_FREE.VALUE (kvModel req s)) s - 1 ∧
      (seqSlot (stackReq req).seq t).resv = (seqSlot (stackReq req).seq s).resv - 1 := by
  have hpool := takeRequest_pool hm ctl req data s
  have hslot := takeRequest_seqSlot ctl req data s (stackReq req).seq
  have htab' : (takeRequest ctl req data s).TablesWf := (takeRequest_keeps (Keeps.refl s)).tables htab
  have hnext : nextFree (stackReq req).seq (takeRequest ctl req data s) = nextFree (stackReq req).seq s :=
    nextFree_congr hslot hpool (takeRequest_stackMem ..)
  have hcp := commitPage_new (env := env) (r := stackReq req) ((takeRequest_pageAt ctl req data s ..).trans hnone)
    ((takeRequest_recordedPage ..).trans hrec) (by rwa [hslot, poolFree_congr hpool]) (by rwa [hslot])
  rw [hnext] at hcp
  have hwrite := kvWrite_committed (data := data) (h.after hm data) hop (by rw [hslot, kvAddrs_congr hpool.shape, hlen]) hcp
  rw [hslot] at hwrite
  have hgiven := kvAcked_pageGiven (ctl := ctl) (req := req) (data := data) (env := env) (span := kvSpan req) htab'
    ((takeRequest_keeps (Keeps.refl s)).memory hmem) (by rwa [hslot]) hfail
    (elemOffsets (kvModel req s) (stackReq req) (takeRequest ctl req data s)).length (q := (stackReq req).seq) (by
      rw [hslot, hnext, kvPlaces, kvAddrs_congr hpool.shape]
      unfold listAddr
      rw [hslot]
      exact hapart)
  rw [hslot, hnext, poolFree_congr hpool] at hgiven
  exact ⟨_, congrArg Host.Outcome.next hwrite, hgiven⟩

end Sys2Proof.Machine
end

section
/-!
SUPPORT. A sequence slot that names a model slot past the sixteen: the pool registers of that number are registers of a stack, and a
KV_WRITE counts the granules it writes in one of them.
-/
namespace Sys2Proof.Machine
open Sys2Proof

/-- A number that no model slot has: its `POOL_FREE` has the offset of `HS_WR_GR_CNT` of stack 2. -/
def strayModel : Nat := 417190

/-- A KV_WRITE of sequence slot 0, K of head 0 of layer 0, position 0. -/
@[irreducible] def strayReq : Granule := BitVec.ofNat 512 (2 + 2 ^ 8 + 2 ^ 48)

/-- Stack 2 in service, and sequence slot 0 in use for that model number, with one page free and one reserved. -/
def strayState : State :=
  { State.reset with
    win := [(0x1320004, 4), (0x1320024, 0x101), (0x1320030, 1), (0x1320044, 1)]
    kv := { Kv.reset with seqs := [(0, { SeqSlot.reset with used := true, model := strayModel, list := 1, resv := 1 })] } }

theorem strayState_tables : strayState.TablesWf := by constructor <;> decide +kernel

theorem strayState_memory : strayState.MemoryWf := by constructor <;> decide +kernel

/-- The request is well formed, for a slot in use. -/
theorem strayReq_taken : KvTaken 2 strayReq strayState := by constructor <;> decide +kernel

theorem strayReq_fields :
    (stackReq strayReq).op = 2 ∧ (stackReq strayReq).seq = 0 ∧ (stackReq strayReq).pos / 256 = 0 ∧
      (seqSlot 0 strayState).model = strayModel := by decide +kernel

/-- The page list has no entry for it, a page is free and reserved, and its one place, at address 0 of page 0, is not in the page list. -/
theorem strayState_page :
    (kvAddrs strayModel 0 (stackReq strayReq) strayState).length = 1 ∧ pageAt 0 0 strayState = none ∧
      recordedPage 0 0 strayState = none ∧ rd (F.POOL_FREE.VALUE strayModel) strayState = 1 ∧ (seqSlot 0 strayState).resv = 1 ∧
      freePage strayModel 0 strayState = 0 ∧ kvPlaces strayModel 0 (stackReq strayReq) strayState = [0] ∧
      listAddr 0 0 strayState = 64 := by decide +kernel

/-- After the page is taken one granule's place stands at address 0 of stack 2, whose counter of written granules is 0. -/
theorem strayState_taken :
    kvPlaces strayModel 0 (stackReq strayReq) (pageTaken 0 strayState) = [0] ∧ stackOf 0 (pageTaken 0 strayState) = 2 ∧
      cnt (F.HS_WR_GR_CNT 2) (pageTaken 0 strayState) = 0 := by decide +kernel

theorem strayState_request : takeRequest 2 strayReq [0] strayState = strayState := by decide +kernel

/-- The state in which the page has been entered. -/
def strayGiven : State := pageGiven 0 0 (stackReq strayReq) strayState

/-- The state in which the granule has been stored, before it is counted. -/
def strayPut : State := storeGranules [0] [0] (chargeStack (stackReq strayReq) 68 strayGiven)

theorem strayGiven_far {o : Nat} (h : 0x1300000 ≤ o) : o ∉ chargeRegs (stackReq strayReq).act :=
  notin_chargeRegs (stackReq_act_lt _) (by omega) (by omega)

theorem strayGiven_addrs : kvAddrs strayModel 0 (stackReq strayReq) strayGiven =
    kvAddrs strayModel 0 (stackReq strayReq) (pageTaken 0 strayState) :=
  kvAddrs_congr (fun o h _ => (pageGiven_regs 0 0 (stackReq strayReq) strayState).reg o (strayGiven_far (Nat.le_trans (by decide) h))) ..

theorem strayPut_regs : Regs (chargeRegs (stackReq strayReq).act) (pageTaken 0 strayState) strayPut :=
  (chargeStack_regs (pageGiven_regs 0 0 (stackReq strayReq) strayState)).of_win (storeGranules_win ..)

theorem strayState_commit : commitPage 0 0 (stackReq strayReq) .quiet strayState = some (0, strayGiven) := by
  obtain ⟨-, -, -, hmodel⟩ := strayReq_fields
  obtain ⟨-, hnone, hrec, hfree, hresv, hpage, -⟩ := strayState_page
  rw [commitPage_new hnone hrec (by rw [hmodel, hfree]; decide) (by rw [hresv]; decide), nextFree, hmodel, hfree, hpage]
  rfl

theorem strayGiven_keeps : Keeps strayState strayGiven := commitPage_keeps strayState_commit (Keeps.refl _)

theorem strayPut_win : Table.wf resetWord strayPut.win = true :=
  ((storeGranules_keeps (chargeStack_keeps strayGiven_keeps)).tables strayState_tables).win

/-- The granule is stored and counted by its stack. -/
theorem kvStored_stray : kvStored strayModel 0 (stackReq strayReq) [0] .quiet strayGiven = bump (F.HS_WR_GR_CNT 2) strayPut := by
  obtain ⟨hplaces, hstack, -⟩ := strayState_taken
  have hin : stackOf 0 strayPut = 2 := (stackOf_congr (fun n _ => strayPut_regs.reg _ (strayGiven_far
    (Nat.le_trans (by decide) (Nat.le_add_right _ _)))) 0).trans hstack
  unfold kvStored stackWritten kvPlaces at *
  rw [strayGiven_addrs, hplaces, stackMet_quiet, countGranules_written]
  show bump (F.HS_WR_GR_CNT (stackOf 0 strayPut)) strayPut = _
  rw [hin]

/-- The count of written granules stands where the pool's number of free pages is read. -/
theorem strayPut_counted : rd (F.POOL_FREE.VALUE strayModel) (bump (F.HS_WR_GR_CNT 2) strayPut) = 1 := by
  obtain ⟨-, -, hcnt⟩ := strayState_taken
  unfold rd
  rw [show (F.POOL_FREE.VALUE strayModel).off = F.HS_WR_GR_CNT 2 by decide, reg_bump_self strayPut_win,
    strayPut_regs.cnt (strayGiven_far (by decide)) (strayGiven_far (by decide)), hcnt]
  rfl

/-- The acknowledgement does not change that count. -/
theorem strayState_written : rd (F.POOL_FREE.VALUE strayModel) (kvWrite 2 strayReq [0] .quiet strayState) = 1 := by
  obtain ⟨hop, hseq, hspan, hmodel⟩ := strayReq_fields
  obtain ⟨hlen, -⟩ := strayState_page
  rw [kvWrite_committed strayReq_taken hop (by rw [hseq, hmodel, hlen]; rfl) (by rw [hseq, hspan]; exact strayState_commit),
    hseq, hmodel, kvStored_stray]
  exact ((replyFlits_regs (Regs.refl _ _)).rd (strayGiven_far (by decide))).trans strayPut_counted

/-- Refutes O30: nothing bounds the model slot that a sequence slot names, and past the sixteen slots the offset of its `POOL_FREE` is that
of another register. For number 417,190 it is the low word of `HS_WR_GR_CNT` of stack 2: a KV_WRITE by stack 2 that takes the last free
page counts the granule it writes there, and `POOL_FREE` reads 1, not 0. With the bound of 16 that the slot's 4 bits give, all four parts
hold: `kvRead_answers_page`, `kvRead_misses_page`, `kvWrite_stores_in_page`, `kvWrite_takes_page`. -/
theorem not_kvRequestsWalkThePageList : ¬ Obligations.KvRequestsWalkThePageList := by
  unfold Obligations.KvRequestsWalkThePageList
  intro h
  obtain ⟨hctl, hon, hres, hok, h36⟩ := strayReq_taken
  obtain ⟨hop, hseq, hspan, hmodel⟩ := strayReq_fields
  obtain ⟨hlen, hnone, hrec, hfree, hresv, hpage, hplaces, hlist⟩ := strayState_page
  obtain ⟨-, -, -, hnew⟩ := h strayState 2 strayReq [0] .quiet strayState_tables strayState_memory hctl hon hres hok h36
  simp only [hseq, hspan, hmodel, hnone, hrec, hfree, hresv, hlist] at hnew
  obtain ⟨t, ht, -, hleft, -⟩ := hnew hop hlen.symm trivial trivial (fun _ => Nat.zero_lt_succ _) (by decide) (by decide) (by
    rw [Nat.sub_self, hpage, ← kvPlaces, hplaces]
    decide)
  have hkv : kvWrite 2 strayReq [0] .quiet (takeRequest 2 strayReq [0] strayState) = t := by
    injection ht
  rw [← hkv, strayState_request, strayState_written] at hleft
  exact absurd hleft (by decide)

end Sys2Proof.Machine
end

section
/-!
SUPPORT. Words that no engine performs, and what every step keeps (R28, R30, R60, R71, R105).
-/
namespace Sys2Proof.Machine
open Sys2Proof

variable {s t σ : State} {c : Nat} {env : MemEnv}

/-! ### What every step keeps -/

/-- Settles O5: every command keeps the tables' canonical form, and a step is a command with the rest of the queue in place. -/
theorem stepKeepsTablesCanonical : Obligations.StepKeepsTablesCanonical := by
  unfold Obligations.StepKeepsTablesCanonical
  intro s t h hstep
  rcases step_cases hstep with ⟨-, rfl⟩ | ⟨i, l, -, hexec⟩
  · exact h
  · exact (keeps_of_exec hexec).tables { h with }

/-! ### The fetch buffer (R71) -/

/-- A cell's fetch buffer holds these granules, in a canonical table of cells. -/
structure Fetched (c : Nat) (l : List (Nat × Granule)) (s : State) : Prop where
  form : Table.wf (fun _ => Cell.reset) s.cells = true
  fetch : (cell c s).fetch = l

variable {l : List (Nat × Granule)}

theorem Fetched.of_cells (h : Fetched c l s) (hc : t.cells = s.cells) : Fetched c l t :=
  ⟨hc ▸ h.form, by rw [cell_congr hc]; exact h.fetch⟩

theorem modCell_fetched {f : Cell → Cell} (hf : ∀ x, (f x).fetch = x.fetch) (h : Fetched c l s) : Fetched c l (modCell c f s) :=
  ⟨Table.wf_set _ _ _ _ h.form, by rw [cell_modCell h.form, hf, h.fetch]⟩

theorem forEach_fetched {α : Type} {xs : List α} {f : α → State → State} (hf : ∀ x t, Fetched c l t → Fetched c l (f x t))
    (h : Fetched c l s) : Fetched c l (forEach xs f s) := by
  unfold forEach
  induction xs generalizing s with
  | nil => exact h
  | cons x xs ih => exact ih (hf x s h)

theorem correctWord_fetched {w : Nat} (h : Fetched c l s) : Fetched c l (correctWord c w s) := by
  unfold correctWord when
  dsimp only
  have h1 : Fetched c l (captureEcc c w false (raise (F.MEM_ERR_STS.CE (fieldOfCell c)) (bump (F.MEM_CE_CNT (fieldOfCell c)) s))) :=
    h.of_cells ((captureEcc_same rfl (raise_same rfl (bump_same rfl (Same.refl [.win, .link, .ports, .ocl] s)))).cells_eq (by decide))
  split
  · refine Fetched.of_cells ?_ ((report_same (π := [.win, .mesh, .link, .ports, .ocl]) (by decide)
      (raise_same (by decide) (Same.refl _ (modCell c _ _)))).cells_eq (by decide))
    exact modCell_fetched (fun _ => rfl) h1
  · exact modCell_fetched (fun _ => rfl) h1

/-- The checks of a read leave the fetch buffer. -/
theorem readChecks_fetched {gs : List Nat} (h : Fetched c l s) : Fetched c l (readChecks c gs env s) := by
  unfold readChecks
  dsimp only
  refine forEach_fetched (fun w t ht => ht.of_cells ?_)
    (modCell_fetched (fun _ => rfl) (forEach_fetched (fun _ _ => correctWord_fetched) h))
  exact (uncorrectable_same rfl (Same.refl [.win, .mesh, .link, .ports, .ocl] t)).cells_eq (by decide)

/-- One fetch puts the granule, as it is read, behind the others of the buffer, and keeps the last two. -/
theorem fetchGranule_fetched {g : Nat} (h : Fetched c l s) :
    Fetched c ((l ++ [(g, readGranule c g (seen c env s))]).drop (l.length + 1 - 2)) (fetchGranule c g env s) := by
  unfold fetchGranule
  dsimp only
  have h1 : Fetched c l (readChecks c [g] env (countAccess c 4 g s)) := readChecks_fetched
    (h.of_cells ((countAccess_same rfl (Same.refl [.win, .mesh, .link, .ports, .ocl] s)).cells_eq (by decide)))
  exact ⟨Table.wf_set _ _ _ _ h1.form, by rw [cell_modCell h1.form]; dsimp only; rw [h1.fetch]⟩

/-- A granule is read alike before and after the cell's fetch buffer is emptied. -/
theorem readGranule_seen_modCell (f : Cell → Cell) (g : Nat) :
    readGranule c g (seen c env (modCell c f s)) = readGranule c g (seen c env s) := by
  unfold seen
  split <;> rfl

/-- With an empty buffer the granule of the next word and the one after it are fetched, in that order. -/
theorem fill_empty (h : Fetched c [] s) :
    ∃ v, Fetched c [((cell c s).pc.toNat / 8, readGranule c ((cell c s).pc.toNat / 8) (seen c env s)), ((cell c s).pc.toNat / 8 + 1, v)]
      (fill c env s) := by
  unfold fill
  extract_lets g s1
  have h1 : Fetched c [(g, readGranule c g (seen c env s))] s1 := by
    have h0 : Fetched c [] (modCell c (fun x => { x with fetch := [] }) s) :=
      ⟨Table.wf_set _ _ _ _ h.form, by rw [cell_modCell h.form]⟩
    have hs1 : s1 = fetchGranule c g env (modCell c (fun x => { x with fetch := [] }) s) := by
      unfold s1
      rw [h.fetch]
      rfl
    rw [hs1, ← readGranule_seen_modCell (fun x => { x with fetch := [] })]
    exact fetchGranule_fetched h0
  refine ⟨readGranule c (g + 1) (seen c env s1), ?_⟩
  rw [if_neg (by rw [h1.fetch]; simp)]
  exact fetchGranule_fetched h1

/-- Settles O8: the granule of the next word is fetched first, and is found again at the head of the buffer. -/
theorem fetchReadsMemoryAtPc : Obligations.FetchReadsMemoryAtPc := by
  unfold Obligations.FetchReadsMemoryAtPc
  intro s c env hwf hempty
  obtain ⟨v, hf⟩ := fill_empty (env := env) ⟨hwf.cells, hempty⟩
  have hpc : (cell c (fill c env s)).pc = (cell c s).pc := (fill_steady (Steady.refl hwf.cells c)).pc
  refine ⟨?_, fun hue => by simp [seen, hue]⟩
  unfold wordAt nextWord
  simp only [hf.fetch, hpc, List.find?_cons_of_pos, beq_self_eq_true]

/-! ### NOP, JUMP and illegal words -/

theorem exec_nop (hc : canIssue c s = true) (hk : spells c env s = .nop) :
    exec (.nop c env) s = .next (advance c (seqChecks c env (fill c env s))) := by
  show execNop c env s = _
  unfold execNop
  rw [issue_run hc (decide_eq_true hk)]
  rfl

theorem exec_jump (hc : canIssue c s = true) (hk : spells c env s = .jump) :
    exec (.jump c env) s = .next
      (modCell c (fun x => { x with pc := jumpTarget (wordAt c env s), fetch := [] }) (seqChecks c env (fill c env s))) := by
  show execJump c env s = _
  unfold execJump
  rw [issue_run hc (decide_eq_true hk)]
  rfl

theorem exec_illegal (hc : canIssue c s = true) (hk : spells c env s = .illegal) :
    exec (.illegalInstruction c env) s = .next (report 0x03 c (raise (F.FAB_ERR_STS.ILLEGAL (fieldOfCell c))
      (modCell c (fun x => { x with illegal := true }) (seqChecks c env (fill c env s))))) := by
  show execIllegalInstruction c env s = _
  unfold execIllegalInstruction
  rw [issue_run hc (decide_eq_true hk)]
  rfl

theorem seqChecks_cells (c : Nat) (env : MemEnv) (s : State) : (seqChecks c env s).cells = s.cells :=
  (seqChecks_same rfl (Same.refl [.mesh] s)).cells_eq (by decide)

theorem seqChecks_win (c : Nat) (env : MemEnv) (s : State) : (seqChecks c env s).win = s.win :=
  (seqChecks_same rfl (Same.refl [.mesh] s)).part .win (by decide)

/-- A sequencer that fills its buffer and finds what R347 checks keeps its own state and its other registers. -/
theorem seqChecks_fill (h : s.TablesWf) :
    Steady c s (seqChecks c env (fill c env s)) ∧ Regs (cellRegs c) s (seqChecks c env (fill c env s)) ∧
      Same [.win, .cells, .mesh, .link, .ports, .ocl] s (seqChecks c env (fill c env s)) :=
  ⟨(fill_steady (Steady.refl h.cells c)).of_cells (seqChecks_cells c env _),
    (fill_regs (subN_refl _) (Regs.refl _ s)).of_win (seqChecks_win c env _),
    seqChecks_same (by decide) (fill_same (by decide) (Same.refl _ s))⟩

/-- What a word that no engine performs leaves: memory, accumulators, counters, the other cells and the registers not the cell's. -/
def Unperformed (c : Nat) (s t : State) : Prop :=
  t.cellMem = s.cellMem ∧ t.accs = s.accs ∧ t.counters = s.counters ∧
    (∀ d, d ≠ c → cell d t = cell d s) ∧ ∀ o, o ∉ cellRegs c → reg o t = reg o s

theorem Unperformed.of_frames (k : Same [.win, .cells, .mesh, .link, .ports, .ocl] s t) (ho : ∀ d, d ≠ c → cell d t = cell d s)
    (hr : Regs (cellRegs c) s t) : Unperformed c s t :=
  ⟨k.part .cellMem (by decide), k.part .accs (by decide), k.part .counters (by decide), ho, hr.reg⟩

/-- A change of the cell after these checks leaves no less. -/
theorem unperformed_modCell (h : s.TablesWf) (f : Cell → Cell) : Unperformed c s (modCell c f (seqChecks c env (fill c env s))) :=
  have ⟨hs, hr, hk⟩ := seqChecks_fill (c := c) (env := env) h
  .of_frames (modCell_same (by decide) hk) (fun d hd => (cell_modCell_ne hd _ _).trans (hs.other d hd)) (modCell_regs hr)

/-- A report is the youngest of those on their way. -/
theorem report_reports_getLast (cause c : Nat) (s : State) :
    (report cause c s).mesh.reports.getLast? = some ⟨cause, c, 0, none, false⟩ := List.getLast?_concat

theorem illegal_off_ne (f : Nat) : (F.FAB_ERR_STS.ILLEGAL f).off ∉ [0xa000, 0xa070, 0xa074] := by
  simp [F.FAB_ERR_STS.ILLEGAL]
  omega

theorem fabErr_mem_cellRegs (c : Nat) : (F.FAB_ERR_STS.ILLEGAL (fieldOfCell c)).off ∈ cellRegs c := by
  simp [cellRegs, F.FAB_ERR_STS.ILLEGAL]
  omega

/-- Settles O14: each of the three words is one change of its cell after the buffer is filled; the illegal word also raises its bit and
its report. -/
theorem nopJumpAndIllegalWords : Obligations.NopJumpAndIllegalWords := by
  unfold Obligations.NopJumpAndIllegalWords
  intro s c env hwf hc rest
  obtain ⟨hs, hr, hk⟩ := seqChecks_fill (c := c) (env := env) hwf
  refine ⟨fun hw => ⟨_, exec_nop hc hw, (advance_pc hs.form c).trans (congrArg (· + 1) hs.pc), unperformed_modCell hwf _⟩,
    fun hw => ⟨_, exec_jump hc hw, ?_, ?_, unperformed_modCell hwf _⟩, fun hw => ⟨_, exec_illegal hc hw, ?_⟩⟩
  · rw [cell_modCell hs.form]
  · rw [cell_modCell hs.form]
  · set u := modCell c (fun x => { x with illegal := true }) (seqChecks c env (fill c env s)) with hu
    have hwin : Table.wf resetWord u.win = true := by
      show Table.wf resetWord (seqChecks c env (fill c env s)).win = true
      rw [seqChecks_win]
      exact ((fill_keeps (Keeps.refl s)).tables hwf).win
    have hcell : ∀ d, cell d (report 0x03 c (raise (F.FAB_ERR_STS.ILLEGAL (fieldOfCell c)) u)) = cell d u := fun d =>
      cell_congr
      ((report_same (by decide) (raise_same (by decide) (Same.refl [.win, .link, .ports, .ocl, .mesh] u))).cells_eq (by decide)) d
    refine ⟨by rw [hcell, hu, cell_modCell hs.form], by rw [hcell, hu, cell_modCell hs.form]; exact hs.pc,
      (rd_congr rfl _).trans (rd_raise hwin rfl (by decide : 6 < 32) (illegal_off_ne _)), report_reports_getLast _ _ _,
      Unperformed.of_frames ?_ (fun d hd => ?_) ?_⟩
    · exact report_same (by decide) (raise_same (by decide) (modCell_same (by decide) hk))
    · rw [hcell, hu, cell_modCell_ne hd]
      exact hs.other d hd
    · exact report_regs rfl (raise_regs (cellRegs_events c) (fabErr_mem_cellRegs c) (modCell_regs hr))

end Sys2Proof.Machine
end

section
/-!
SUPPORT. VECTOR operations that compute element by element, function by function, or one scalar (R33, R95, R118, R181, R231).
-/
namespace Sys2Proof.Machine
open Sys2Proof

variable {s t σ : State} {c : Nat} {env : MemEnv}

/-! ### Issuing a vector word -/

/-- A VECTOR word of the wanted operation is performed. -/
theorem issueVector_run {op : Nat} (hc : canIssue c s = true) (hk : spells c env s = .vector op)
    (body : Nat → Dword → MemEnv → State → State) :
    issueVector op c env body s = advance c (body c (wordAt c env s) env (fill c env s)) := by
  unfold issueVector
  rw [issue_run hc (decide_eq_true hk)]
  rfl

/-- Outside attention stages results are stored as computed (R181). -/
theorem vecResults_of_no_row (h : env.attn = none) (v : VectorWord) (out : List Word) (s : State) :
    vecResults c v out env s = packResult v out := by
  unfold vecResults rowOut scoreOut scoring
  simp only [h, Option.any_none, Bool.false_eq_true, if_false]

/-- Settles O9: each operation is one element-wise run of reads and writes. -/
theorem elementwiseVectorResults : Obligations.ElementwiseVectorResults := by
  unfold Obligations.ElementwiseVectorResults
  intro s c env htab hmem hc u x v hfit
  have done := fun gs out => elementwise_done htab.cells hmem.cellMem hfit gs out env
  refine ⟨fun hn out => vecResults_of_no_row hn v out x,
    fun hk => ⟨_, congrArg Host.Outcome.next (issueVector_run hc hk addEffect), ?_⟩,
    fun hk => ⟨_, congrArg Host.Outcome.next (issueVector_run hc hk mulEffect), ?_⟩,
    fun hk => ⟨_, congrArg Host.Outcome.next (issueVector_run hc hk fmaEffect), ?_⟩,
    fun hk => ⟨_, congrArg Host.Outcome.next (issueVector_run hc hk maxEffect), ?_⟩,
    fun hk => ⟨_, congrArg Host.Outcome.next (issueVector_run hc hk scaleEffect), ?_⟩⟩
  · rw [← List.map_uncurry_zip_eq_zipWith]
    exact done _ _
  · rw [← List.map_uncurry_zip_eq_zipWith]
    exact done _ _
  · rw [← List.map_uncurry_zip_eq_zipWith]
    exact done _ _
  · rw [← List.map_uncurry_zip_eq_zipWith]
    exact done _ _
  · exact done _ _

/-! ### Operations that store what they compute -/

/-- Reads, one run of writes within the exposed granules and the charge: the run stands at D, and the sequencer went on. -/
theorem plainWrites_done (htab : s.TablesWf) (hmem : s.MemoryWf) {d : Nat} {out : List Granule} (hfit : d + out.length ≤ exposed c s)
    (gs : List Nat) (n : Nat) :
    Steady c s (chargeVec c n (writeGranules c 2 d out (reads c 2 gs env (fill c env s)))) ∧
      Regs (vecRegs c s) s (chargeVec c n (writeGranules c 2 d out (reads c 2 gs env (fill c env s)))) ∧
      Wrote c d out s (chargeVec c n (writeGranules c 2 d out (reads c 2 gs env (fill c env s)))) := by
  obtain ⟨h1, h2, h3⟩ := fill_done htab.cells c env
  refine ⟨vec_steady (b := false) (kind := 0) (k := 0) h1, vec_regs (b := false) (kind := 0) (k := 0) h1 h2, ?_⟩
  unfold chargeVec
  refine Wrote.of_cellMem ?_ (cellMem_chargeEnergy _ _ _ _)
  exact (readsWrites_wrote (by rw [h3]; exact hmem.cellMem) (by rw [exposed_fill]; exact hfit)).from h3

/-- The same, the word being issued. -/
theorem plainWrites_issued (htab : s.TablesWf) (hmem : s.MemoryWf) {d : Nat} {out : List Granule} (hfit : d + out.length ≤ exposed c s)
    (gs : List Nat) (n : Nat) :
    Issued c (vecRegs c s) s (advance c (chargeVec c n (writeGranules c 2 d out (reads c 2 gs env (fill c env s))))) ∧
      Wrote c d out s (advance c (chargeVec c n (writeGranules c 2 d out (reads c 2 gs env (fill c env s))))) :=
  have ⟨hs, hr, hw⟩ := plainWrites_done (env := env) htab hmem hfit gs n
  ⟨issued_advance hs hr, hw.of_cellMem (cellMem_advance c _)⟩

/-- A word that also changes its cell, but not its program counter, was issued. -/
theorem issued_advance_modCell {ρ : List Nat} {f : Cell → Cell} (hf : ∀ x, (f x).pc = x.pc) (hs : Steady c s t) (hr : Regs ρ s t) :
    Issued c ρ s (advance c (modCell c f t)) := by
  refine ⟨?_, fun o ho => (reg_congr (by unfold advance modCell setCell; rfl) o).trans (hr.reg o ho), fun d hd => ?_⟩
  · rw [advance_pc (Table.wf_set _ _ _ _ hs.form), cell_modCell hs.form, hf, hs.pc]
  · unfold advance
    rw [cell_modCell_ne hd, cell_modCell_ne hd]
    exact hs.other d hd

/-- Filling the fetch buffer leaves the cell's generator. -/
theorem rng_fill (h : Table.wf (fun _ => Cell.reset) s.cells = true) (c : Nat) (env : MemEnv) :
    (cell c (fill c env s)).rng = (cell c s).rng :=
  have hcalm := congrArg Cell.rng (fill_steady (env := env) (Steady.refl h c)).calm
  hcalm

/-- Settles O10: EXP, RCP and RSQRT are element-wise runs, two of them with an event; S24DEC and RNG store what they compute. -/
theorem functionVectorResults : Obligations.FunctionVectorResults := by
  unfold Obligations.FunctionVectorResults
  intro s c env htab hmem hc u x v hfit
  have done := fun gs out => elementwise_done htab.cells hmem.cellMem hfit gs out env
  have event := fun gs out b => elementwise_event_done htab.cells hmem.cellMem hfit gs out env b 2 1
  refine ⟨fun hn out => vecResults_of_no_row hn v out x,
    fun hk => ⟨_, congrArg Host.Outcome.next (issueVector_run hc hk expEffect), event _ _ _⟩,
    fun hk => ⟨_, congrArg Host.Outcome.next (issueVector_run hc hk rcpEffect), event _ _ _⟩,
    fun hk => ⟨_, congrArg Host.Outcome.next (issueVector_run hc hk rsqrtEffect), done _ _⟩,
    fun hk => ⟨_, congrArg Host.Outcome.next (issueVector_run hc hk s24decEffect), ?_⟩,
    fun hk => ⟨_, congrArg Host.Outcome.next (issueVector_run hc hk rngEffect), ?_⟩⟩
  · exact plainWrites_issued htab hmem (by rw [packFp32_length]; exact hfit) _ _
  · rw [← rng_fill htab.cells c env]
    obtain ⟨hs, hr, hw⟩ := plainWrites_done (env := env) htab hmem (out := packResult v ((List.range v.elems).map fun i =>
      (uniform (fieldOf (srcGranule c v 0 u) 0 64) (Config.rngPosition (srcGranule c v 0 u) (cell c x).rng i)).toFp))
      (by rw [packResult_length]; exact hfit) (if v.acc then [] else [v.a]) v.elems
    exact ⟨issued_advance_modCell (fun _ => rfl) hs hr, hw.of_cellMem (cellMem_advance c _)⟩

/-! ### Reductions -/

/-- The scalar stands in the low bits of its granule, whatever the rest of it holds. -/
theorem fieldOf_scalarGranule {n : Nat} (hn : n ≤ 512) (x : Nat) (a : Granule) : fieldOf (scalarGranule n x a) 0 n = x % 2 ^ n := by
  unfold fieldOf bitsOf scalarGranule
  rw [Nat.shiftRight_zero, BitVec.toNat_ofNat, Nat.mod_mod_of_dvd _ (Nat.pow_dvd_pow 2 hn), Nat.mul_add_mod_self_right, Nat.mod_mod]

/-- A reduction's single write: the granule at D holds it. -/
theorem reduction_issued (htab : s.TablesWf) (hmem : s.MemoryWf) {d : Nat} (hfit : d < exposed c s) (g : Granule) (gs : List Nat)
    (n : Nat) :
    Issued c (vecRegs c s) s (advance c (chargeVec c n (writeGranule c 2 d g (reads c 2 gs env (fill c env s))))) ∧
      Wrote c d [g] s (advance c (chargeVec c n (writeGranule c 2 d g (reads c 2 gs env (fill c env s))))) :=
  plainWrites_issued htab hmem (out := [g]) hfit gs n

/-- Settles O11: one granule is written, and its low bits hold the scalar. -/
theorem reductionsWriteOneScalar : Obligations.ReductionsWriteOneScalar := by
  unfold Obligations.ReductionsWriteOneScalar
  intro s c env htab hmem hc u v hfit
  refine ⟨fun hk => ⟨_, _, congrArg Host.Outcome.next (issueVector_run hc hk sumredEffect), (reduction_issued htab hmem hfit _ _ _).1,
      (reduction_issued htab hmem hfit _ _ _).2, ?_⟩,
    fun hk => ⟨_, _, congrArg Host.Outcome.next (issueVector_run hc hk maxredEffect), (reduction_issued htab hmem hfit _ _ _).1,
      (reduction_issued htab hmem hfit _ _ _).2, ?_⟩⟩
  · rw [fieldOf_scalarGranule (by decide), Nat.mod_eq_of_lt (BitVec.isLt _)]
  · split
    · rw [fieldOf_scalarGranule (by decide), Nat.mod_eq_of_lt (BitVec.isLt _)]
    · rw [fieldOf_scalarGranule (by decide), Nat.mod_eq_of_lt (BitVec.isLt _)]

end Sys2Proof.Machine
end

section
/-!
SUPPORT. VECTOR operations that convert (R33, R98, R108, R113, R116, R121): precision events that are noted, and what the three runs of
writes of a QNT leave.
-/
namespace Sys2Proof.Machine
open Sys2Proof

variable {s t u σ : State} {c : Nat} {env : MemEnv}

/-! ### Precision events -/

/-- A cell's binding depends on the part of the cell that its accesses to memory leave alone. -/
theorem bound_of_steady (h : Steady c σ s) : bound c s = bound c σ := by
  have hrun := congrArg Cell.run h.calm
  have hrec := congrArg Cell.shadow1 h.calm
  dsimp only [Cell.calm] at hrun hrec
  unfold bound
  dsimp only
  rw [hrun, hrec]

/-- Where cell `c` is bound to a model slot and layer, a NONFIN event of them waits beyond those that waited before (R121). -/
def NonfinNoted (c : Nat) (s t : State) : Prop :=
  ∀ m l, bound c s = some (m, l) → s.prec.queue.length < t.prec.queue.length ∧ (⟨m, l, 2⟩ : PrecEvent) ∈ t.prec.queue

theorem queue_precise (c kind n : Nat) (s : State) : s.prec.queue <+: (precise c kind n s).prec.queue := by
  unfold precise
  split
  · exact List.prefix_rfl
  · exact List.prefix_append _ _

theorem queue_when_precise (b : Bool) (c kind n : Nat) (s : State) :
    s.prec.queue <+: (when b (precise c kind n) s).prec.queue := by
  unfold when
  split
  · exact queue_precise c kind n s
  · exact List.prefix_rfl

theorem queue_of_same {l : List Part} (h : Same l s t) (hl : Part.prec ∉ l) : t.prec.queue = s.prec.queue :=
  congrArg Prec.queue (h.part .prec hl)

/-- A precision event of a non-finite element is noted. -/
theorem nonfinNoted_precise (hb : bound c u = bound c s) (hq : s.prec.queue <+: u.prec.queue) : NonfinNoted c s (precise c 2 1 u) := by
  intro m l h
  unfold precise
  simp only [hb, h, List.replicate_one, List.length_append, List.length_singleton, List.mem_append, List.mem_singleton, or_true, and_true]
  exact Nat.lt_succ_of_le hq.length_le

theorem NonfinNoted.grow (h : NonfinNoted c s u) (hq : u.prec.queue <+: t.prec.queue) : NonfinNoted c s t := fun m l hb =>
  have ⟨hlen, hmem⟩ := h m l hb
  ⟨Nat.lt_of_lt_of_le hlen hq.length_le, hq.subset hmem⟩

theorem queue_chargeVec (c n : Nat) (s : State) : (chargeVec c n s).prec.queue = s.prec.queue :=
  queue_of_same (chargeVec_same rfl (Same.refl [.win, .budget, .link, .ports, .ocl] s)) (by decide)

theorem queue_advance (c : Nat) (s : State) : (advance c s).prec.queue = s.prec.queue := rfl

/-- Filling the buffer, reads and a run of writes leave the events that wait. -/
theorem queue_readsWrites (c port d : Nat) (out : List Granule) (gs : List Nat) (env : MemEnv) (s : State) :
    (writeGranules c port d out (reads c port gs env (fill c env s))).prec.queue = s.prec.queue :=
  queue_of_same (writeGranules_same (π := [.win, .cells, .cellMem, .mesh, .link, .ports, .ocl]) rfl
    (reads_same (by decide) (fill_same (by decide) (Same.refl _ s)))) (by decide)

/-! ### CVT and S24ENC -/

/-- A run of writes with its two kinds of events and its charge. -/
abbrev converted (c d n : Nat) (out : List Granule) (gs : List Nat) (sat nf : Bool) (env : MemEnv) (s : State) : State :=
  chargeVec c n (when sat (precise c 1 1) (when nf (precise c 2 1) (writeGranules c 2 d out (reads c 2 gs env (fill c env s)))))

theorem converted_steady (htab : s.TablesWf) (d : Nat) (out : List Granule) (gs : List Nat) (sat nf : Bool) :
    Steady c s (when sat (precise c 1 1) (when nf (precise c 2 1) (writeGranules c 2 d out (reads c 2 gs env (fill c env s))))) :=
  when_steady (fun _ => precise_steady) (when_steady (fun _ => precise_steady)
    (writeGranules_steady (reads_steady (fill_steady (Steady.refl htab.cells c)))))

/-- A conversion issues its word, writes from D on, and notes a non-finite source. -/
theorem converted_done (htab : s.TablesWf) (hmem : s.MemoryWf) (d n : Nat) (out : List Granule) (gs : List Nat) (sat nf : Bool) :
    Issued c (vecRegs c s) s (advance c (converted c d n out gs sat nf env s)) ∧
      (nf = true → NonfinNoted c s (advance c (converted c d n out gs sat nf env s))) ∧
      (d + out.length ≤ exposed c s → Wrote c d out s (advance c (converted c d n out gs sat nf env s))) := by
  obtain ⟨h1, h2, h3⟩ := fill_done htab.cells c env
  have hw : Steady c s (writeGranules c 2 d out (reads c 2 gs env (fill c env s))) := writeGranules_steady (reads_steady h1)
  have hs := converted_steady (c := c) (env := env) htab d out gs sat nf
  have hq := queue_readsWrites c 2 d out gs env s
  refine ⟨issued_advance (chargeEnergy_steady hs) (chargeVec_regs (serving_of hs)
    (when_regs (fun _ => precise_regs) (when_regs (fun _ => precise_regs)
      (writeGranules_regs (subN_left _ _) (reads_regs (subN_left _ _) h2))))), fun hnf => ?_, fun hfit => ?_⟩
  · refine (nonfinNoted_precise (bound_of_steady hw) (by rw [hq])).grow ?_
    rw [queue_advance, queue_chargeVec, hnf]
    exact queue_when_precise _ _ _ _ _
  · refine Wrote.of_cellMem (t := writeGranules c 2 d out (reads c 2 gs env (fill c env s)))
      ((readsWrites_wrote (by rw [h3]; exact hmem.cellMem) (by rw [exposed_fill]; exact hfit)).from h3) ?_
    rw [cellMem_advance]
    exact (cellMem_chargeEnergy _ _ _ _).trans ((cellMem_when (fun t => cellMem_precise c 1 1 t) _).trans
      (cellMem_when (fun t => cellMem_precise c 2 1 t) _))

/-! ### Runs of writes that do not all lie in exposed memory -/

/-- Each granule of a run that is exposed holds what was written to it, whether or not the rest of the run is. -/
theorem granule_writeGranules {port g : Nat} {vs : List Granule} (hm : Memory.wf s.cellMem = true) {k : Nat} (hk : k < vs.length)
    (hx : g + k < exposed c s) : granule c (g + k) (writeGranules c port g vs s) = vs[k] := by
  induction vs generalizing g k s with
  | nil => exact absurd hk (Nat.not_lt_zero _)
  | cons v vs ih =>
    have hg : g < exposed c s := by omega
    have hw := cellMem_writeGranule c port g v s
    rw [if_pos hg] at hw
    have hm1 : Memory.wf (writeGranule c port g v s).cellMem = true := by rw [hw]; exact cellMem_set_wf hm c g v
    rw [writeGranules]
    cases k with
    | zero =>
      rw [(writeGranules_memory c port vs (g + 1) _ hm1).2.1 c (g + 0) (by omega), Nat.add_zero, granule_congr hw,
        granule_setGranule hm (Nat.lt_of_lt_of_le hg (exposed_le c s))]
      rfl
    | succ k =>
      rw [show g + (k + 1) = g + 1 + k by omega, ih hm1 (Nat.lt_of_succ_lt_succ hk) (by rw [exposed_writeGranule]; omega)]
      rfl

theorem exposed_writeGranules (c port g : Nat) (vs : List Granule) (s : State) : exposed c (writeGranules c port g vs s) = exposed c s := by
  induction vs generalizing g s with
  | nil => rw [writeGranules]
  | cons v vs ih => rw [writeGranules, ih, exposed_writeGranule]

theorem writeGranules_cellMem_wf {port g : Nat} {vs : List Granule} (hm : Memory.wf s.cellMem = true) :
    Memory.wf (writeGranules c port g vs s).cellMem = true := by
  induction vs generalizing g s with
  | nil => rw [writeGranules]; exact hm
  | cons v vs ih =>
    rw [writeGranules]
    refine ih ?_
    rw [cellMem_writeGranule]
    split
    · exact cellMem_set_wf hm c g v
    · exact hm

/-- What a run leaves of the granules and bytes outside it. -/
theorem granule_writeGranules_out {port g : Nat} {vs : List Granule} (hm : Memory.wf s.cellMem = true) {k : Nat}
    (hk : k < g ∨ g + vs.length ≤ k) : granule c k (writeGranules c port g vs s) = granule c k s :=
  (writeGranules_memory c port vs g s hm).2.1 c k (.inr hk)

theorem byteAt_writeGranules_out {port g : Nat} {vs : List Granule} (hm : Memory.wf s.cellMem = true) {b : Nat}
    (hb : b < c * cellBytes + g * 64 ∨ c * cellBytes + (g + vs.length) * 64 ≤ b) :
    byteAt (writeGranules c port g vs s).cellMem b = byteAt s.cellMem b :=
  (writeGranules_memory c port vs g s hm).2.2 b hb

/-! ### QNT -/

/-- The writes of a QNT are three runs: the elements from D on, the header at B if there is one, the errors from B + 1 on. -/
theorem qntWrites_eq (c : Nat) (v : VectorWord) (q : QntResult) (s : State) :
    qntWrites c v q s =
      writeGranules c 2 (v.b + 1) (q.kept.getD []) (writeGranules c 2 v.b q.header.toList (writeGranules c 2 v.d q.out s)) := by
  unfold qntWrites
  cases q.header <;> cases q.kept <;> rfl

section
variable {v : VectorWord} {q : QntResult}

theorem qntWrites_wf (hm : Memory.wf s.cellMem = true) :
    Memory.wf (writeGranules c 2 v.b q.header.toList (writeGranules c 2 v.d q.out s)).cellMem = true :=
  writeGranules_cellMem_wf (writeGranules_cellMem_wf hm)

theorem qntWrites_wrote (hm : Memory.wf s.cellMem = true) (hh : q.header = none) (hk : q.kept = none)
    (hfit : v.d + q.out.length ≤ exposed c s) :
    Wrote c v.d q.out s (qntWrites c v q s) := by
  rw [qntWrites_eq, hh, hk]
  exact writeGranules_wrote hm hfit

theorem qntWrites_header (hm : Memory.wf s.cellMem = true) {h : Granule} (hh : q.header = some h) (hb : v.b < exposed c s) :
    granule c v.b (qntWrites c v q s) = h := by
  have h1 := granule_writeGranules (s := writeGranules c 2 v.d q.out s) (port := 2) (g := v.b) (vs := [h]) (k := 0) (c := c)
    (writeGranules_cellMem_wf hm) Nat.zero_lt_one (by rw [exposed_writeGranules]; exact hb)
  rw [qntWrites_eq, granule_writeGranules_out (qntWrites_wf hm) (.inl (Nat.lt_succ_self _)), hh]
  exact h1

theorem qntWrites_kept (hm : Memory.wf s.cellMem = true) {e : List Granule} (he : q.kept = some e) {k : Nat} (hk : k < e.length)
    (hb : v.b + 1 + k < exposed c s) : granule c (v.b + 1 + k) (qntWrites c v q s) = e[k] := by
  rw [qntWrites_eq, he]
  exact granule_writeGranules (qntWrites_wf hm) hk (by rw [exposed_writeGranules, exposed_writeGranules]; exact hb)

theorem header_toList_length (q : QntResult) : q.header.toList.length ≤ 1 := by cases q.header <;> simp

/-- Elements outside the header and the kept errors stand where they were written. -/
theorem qntWrites_out (hm : Memory.wf s.cellMem = true) {n : Nat} (hn : (q.kept.getD []).length ≤ n) {k : Nat} (hk : k < q.out.length)
    (hd : v.d + k < exposed c s) (ho : v.d + k < v.b ∨ v.b + n < v.d + k) : granule c (v.d + k) (qntWrites c v q s) = q.out[k] := by
  have := header_toList_length q
  rw [qntWrites_eq, granule_writeGranules_out (qntWrites_wf hm) (by omega),
    granule_writeGranules_out (writeGranules_cellMem_wf hm) (by omega)]
  exact granule_writeGranules hm hk hd

/-- Every byte outside the elements, the header and the kept errors is as before. -/
theorem qntWrites_bytes (hm : Memory.wf s.cellMem = true) {n : Nat} (hn : (q.kept.getD []).length ≤ n) {a : Nat}
    (h1 : ∀ k, k < q.out.length → ¬ (c * cellBytes + (v.d + k) * 64 ≤ a ∧ a < c * cellBytes + (v.d + k + 1) * 64))
    (h2 : ∀ k, k ≤ n → ¬ (c * cellBytes + (v.b + k) * 64 ≤ a ∧ a < c * cellBytes + (v.b + k + 1) * 64)) :
    byteAt (qntWrites c v q s).cellMem a = byteAt s.cellMem a := by
  have hl := header_toList_length q
  have run : ∀ g n, (∀ k, k < n → ¬ (c * cellBytes + (g + k) * 64 ≤ a ∧ a < c * cellBytes + (g + k + 1) * 64)) →
      a < c * cellBytes + g * 64 ∨ c * cellBytes + (g + n) * 64 ≤ a := by
    intro g n h
    by_contra hc
    exact h ((a - (c * cellBytes + g * 64)) / 64) (by omega) (by omega)
  rw [qntWrites_eq, byteAt_writeGranules_out (qntWrites_wf hm), byteAt_writeGranules_out (writeGranules_cellMem_wf hm),
    byteAt_writeGranules_out hm (run _ _ h1)]
  · exact run _ _ fun k hk => h2 k (by omega)
  · exact run _ _ fun k hk => by
      have := h2 (k + 1) (by omega)
      rwa [show v.b + (k + 1) = v.b + 1 + k by omega] at this

theorem qntWrites_steady (h : Steady c σ s) : Steady c σ (qntWrites c v q s) := by
  rw [qntWrites_eq]
  exact writeGranules_steady (writeGranules_steady (writeGranules_steady h))

theorem qntWrites_regs {ρ : List Nat} (hl : SubN (cellRegs c) ρ) (h : Regs ρ σ s) : Regs ρ σ (qntWrites c v q s) := by
  rw [qntWrites_eq]
  exact writeGranules_regs hl (writeGranules_regs hl (writeGranules_regs hl h))

end

/-- The errors that KEEP keeps take as many granules as the elements do in BF16 (R116). -/
theorem qntResult_kept_length (c : Nat) (v : VectorWord) (env : MemEnv) (r s : State) :
    ((qntResult c v env r s).kept.getD []).length ≤ cdiv v.elems 32 := by
  have key : ∀ (b : Bool) (vs q : List Word), vs.length = v.elems →
      ((if b then some (errorsOf vs q) else none).getD []).length ≤ cdiv v.elems 32 := by
    intro b vs q h
    cases b
    · exact Nat.zero_le _
    · simp [errorsOf, packBf16_length, h]
  unfold qntResult
  extract_lets
  split
  · exact key _ _ _ (by simp +zetaDelta)
  · exact key _ _ _ (by simp +zetaDelta)

/-- The state after the writes of a QNT, and what it keeps of its row (R116, R117, R187, R191). -/
abbrev qntKept (c : Nat) (v : VectorWord) (gs : List Nat) (hdr : Granule) (q : QntResult) (env : MemEnv) (x : State) : State :=
  keepRow c (qntRow hdr env x) q.kf.1 q.scale q.out q.idx q.kept (qntWrites c v q (reads c 2 gs env x))

/-- The same with its events of saturation and of whey, and `KV_STS.FMT_FIT`. -/
abbrev qntNoted (c : Nat) (sat fit : Bool) (ovfs : Nat) (w : State) : State :=
  when fit (raise F.KV_STS.FMT_FIT) (when sat (precise c 1 1) (precise c 0 ovfs w))

theorem keepRow_frame (c : Nat) (kvr : Option (KvRow × StepSeq)) (k : Nat) (t : Word) (elems : List Granule) (idx : Granule)
    (carry : Option (List Granule)) (s : State) : Same [.kv] s (keepRow c kvr k t elems idx carry s) :=
  keepRow_same rfl (Same.refl _ s)

theorem qntNoted_steady {sat fit : Bool} {ovfs : Nat} (h : Steady c σ s) : Steady c σ (qntNoted c sat fit ovfs s) :=
  when_steady (fun _ ht => ht.of_cells ((raise_same_refl _ _).cells_eq (by decide)))
    (when_steady (fun _ => precise_steady) (precise_steady h))

theorem qntNoted_regs {sat fit : Bool} {ovfs : Nat} {ρ : List Nat} (hk : O.KV_STS ∈ ρ) (he : SubN [0xa000, 0xa070, 0xa074] ρ)
    (h : Regs ρ σ s) : Regs ρ σ (qntNoted c sat fit ovfs s) :=
  when_regs (fun _ => raise_regs he hk) (when_regs (fun _ => precise_regs) (precise_regs h))

theorem qntNoted_cellMem (sat fit : Bool) (ovfs : Nat) (s : State) : (qntNoted c sat fit ovfs s).cellMem = s.cellMem :=
  (cellMem_when (fun _ => (raise_same_refl _ _).part .cellMem (by decide)) _).trans
    ((cellMem_when (fun t => cellMem_precise c 1 1 t) _).trans (cellMem_precise c 0 ovfs s))

theorem qntNoted_queue (sat fit : Bool) (ovfs : Nat) (s : State) : s.prec.queue <+: (qntNoted c sat fit ovfs s).prec.queue := by
  refine (queue_precise c 0 ovfs s).trans ((queue_when_precise sat c 1 1 _).trans ?_)
  rw [when_fixed (f := raise F.KV_STS.FMT_FIT) (·.prec.queue) (fun t => queue_of_same (raise_same_refl _ t) (by decide))]

/-- A QNT after its buffer is filled: its writes, what it keeps of its row, its events and its charge. -/
abbrev qntDone (c : Nat) (v : VectorWord) (gs : List Nat) (hdr : Granule) (fit : Bool) (q : QntResult) (env : MemEnv) (x : State) : State :=
  chargeVec c v.elems (when q.nonfin (precise c 2 1) (qntNoted c q.sat fit q.ovfs (qntKept c v gs hdr q env x)))

section
variable {v : VectorWord} {q : QntResult} {gs : List Nat} {hdr : Granule} {fit : Bool}

theorem qntKept_steady (h : Steady c σ s) : Steady c σ (qntKept c v gs hdr q env s) :=
  (qntWrites_steady (reads_steady h)).of_cells ((keepRow_frame _ _ _ _ _ _ _ _).cells_eq (by decide))

theorem qntKept_regs {ρ : List Nat} (hl : SubN (cellRegs c) ρ) (h : Regs ρ σ s) : Regs ρ σ (qntKept c v gs hdr q env s) :=
  (qntWrites_regs hl (reads_regs hl h)).of_win ((keepRow_frame _ _ _ _ _ _ _ _).part .win (by decide))

theorem qntKept_queue (c : Nat) (v : VectorWord) (gs : List Nat) (hdr : Granule) (q : QntResult) (env : MemEnv) (s : State) :
    (qntKept c v gs hdr q env (fill c env s)).prec.queue = s.prec.queue := by
  refine (queue_of_same (keepRow_frame _ _ _ _ _ _ _ _) (by decide)).trans ?_
  rw [qntWrites_eq]
  exact queue_of_same (l := [.win, .cells, .cellMem, .mesh, .link, .ports, .ocl]) (writeGranules_same rfl
    (writeGranules_same (by decide) (writeGranules_same (by decide) (reads_same (by decide) (fill_same (by decide) (Same.refl _ s))))))
    (by decide)

theorem qntDone_cellMem (c : Nat) (v : VectorWord) (gs : List Nat) (hdr : Granule) (fit : Bool) (q : QntResult) (env : MemEnv) (s : State) :
    (qntDone c v gs hdr fit q env s).cellMem = (qntWrites c v q (reads c 2 gs env s)).cellMem :=
  (cellMem_chargeEnergy _ _ _ _).trans ((cellMem_when (fun t => cellMem_precise c 2 1 t) _).trans
    ((qntNoted_cellMem _ _ _ _).trans ((keepRow_frame _ _ _ _ _ _ _ _).part .cellMem (by decide))))

/-- A QNT issues its word, and notes a non-finite source. -/
theorem qntDone_issued (htab : s.TablesWf) (v : VectorWord) (gs : List Nat) (hdr : Granule) (fit : Bool) (q : QntResult) :
    Issued c (O.KV_STS :: vecRegs c s) s (advance c (qntDone c v gs hdr fit q env (fill c env s))) ∧
      (q.nonfin = true → NonfinNoted c s (advance c (qntDone c v gs hdr fit q env (fill c env s)))) := by
  obtain ⟨h1, -, -⟩ := fill_done htab.cells c env
  have hsub : SubN (vecRegs c s) (O.KV_STS :: vecRegs c s) := subN_right [O.KV_STS] _
  have hcell : SubN (cellRegs c) (O.KV_STS :: vecRegs c s) := SubN.trans (subN_left _ _) hsub
  have hsteady : Steady c s (when q.nonfin (precise c 2 1) (qntNoted c q.sat fit q.ovfs (qntKept c v gs hdr q env (fill c env s)))) :=
    when_steady (fun _ => precise_steady) (qntNoted_steady (qntKept_steady h1))
  refine ⟨issued_advance (chargeEnergy_steady hsteady) (chargeEnergy_regs ?_ (when_regs (fun _ => precise_regs)
      (qntNoted_regs (List.mem_cons_self ..) (SubN.trans (cellRegs_events c) hcell)
        (qntKept_regs hcell (fill_regs hcell (Regs.refl _ s)))))),
    fun hnf => ?_⟩
  · rw [serving_of hsteady]
    exact SubN.trans (subN_right _ _) hsub
  · have hq : s.prec.queue <+: (qntNoted c q.sat fit q.ovfs (qntKept c v gs hdr q env (fill c env s))).prec.queue := by
      rw [← qntKept_queue c v gs hdr q env s]
      exact qntNoted_queue _ _ _ _
    refine (nonfinNoted_precise (bound_of_steady (qntNoted_steady (qntKept_steady h1))) hq).grow ?_
    rw [queue_advance, queue_chargeVec, hnf]
    exact List.prefix_rfl

end

/-- A non-finite element of the source makes a QNT's result non-finite (R113). -/
theorem qntResult_nonfin {v : VectorWord} {r x : State} (h : ((srcA c v r).any fun e => !isFin e) = true) :
    (qntResult c v env r x).nonfin = true := by
  unfold qntResult
  extract_lets
  split <;> exact Bool.or_eq_true_iff.2 (.inr h)

theorem exec_qnt (hc : canIssue c s = true) (hk : spells c env s = .vector 0x0B) :
    exec (.qnt c env) s = .next (advance c (qntEffect c (wordAt c env s) env (fill c env s))) :=
  congrArg Host.Outcome.next (issueVector_run hc hk qntEffect)

/-- Settles O12: CVT and S24ENC are one run of writes with their events; QNT is three, of which the last to reach a granule stands. -/
theorem convertingVectorOpsComplete : Obligations.ConvertingVectorOpsComplete := by
  unfold Obligations.ConvertingVectorOpsComplete
  intro s c env htab hmem hc u v b w event
  refine ⟨fun hk => ?_, fun hk => ?_, fun hk => ?_⟩
  · intro src
    obtain ⟨hi, hn, hw⟩ := converted_done (c := c) (env := env) (n := v.elems) htab hmem v.d (cvtResults v env b src)
      (cvtGranules v (BitVec.ofNat 32 (fieldOf b 0 32)) ++ [v.b]) (cvtClamps b src) (cvtNonfin env b src)
    exact ⟨_, congrArg Host.Outcome.next (issueVector_run hc hk cvtEffect), hi,
      fun m l hb ha => hn (Bool.or_eq_true_iff.2 (.inl ha)) m l hb, hw⟩
  · intro out
    obtain ⟨hi, hn, hw⟩ := converted_done (c := c) (env := env) (n := w.elems) htab hmem w.d out (aGranules w)
      ((s24Groups (cdiv w.len 2) (srcA c w u)).any (·.2)) ((srcA c w u).any fun x => !isFin x)
    exact ⟨_, congrArg Host.Outcome.next (issueVector_run hc hk s24encEffect), hi, fun m l hb ha => hn ha m l hb, hw⟩
  · intro q
    set gs := aGranules v ++ [v.b] ++ (if qntAdds b (cell c (fill c env s)) then granulesFrom (v.b + 1) (cdiv v.elems 32) else []) with hgs
    set x := reads c 2 gs env (fill c env s) with hx
    set t := advance c (qntDone c v gs b (qntMode b 2 && q.kf.2) q env (fill c env s)) with ht
    have hxm : x.cellMem = s.cellMem := (cellMem_reads _ _ _ _ _).trans (cellMem_fill _ _ _)
    have hxw : Memory.wf x.cellMem = true := by rw [hxm]; exact hmem.cellMem
    have hxe : exposed c x = exposed c s := (exposed_reads _ _ _ _ _).trans (exposed_fill _ _ _)
    have htm : t.cellMem = (qntWrites c v q x).cellMem := (cellMem_advance c _).trans (qntDone_cellMem c v gs b _ q env _)
    have hkept := qntResult_kept_length c v env u (fill c env s)
    obtain ⟨hi, hn⟩ := qntDone_issued (c := c) (env := env) htab v gs b (qntMode b 2 && q.kf.2) q
    refine ⟨t, exec_qnt hc hk, hi, fun m l hb ha => hn (qntResult_nonfin ha) m l hb, fun hh hk hfit => ?_, fun h hh hb => ?_,
      fun e he k hk hb => ?_, fun k hk hd ho => ?_, fun a h1 h2 => ?_⟩
    · exact ((qntWrites_wrote hxw hh hk (by rw [hxe]; exact hfit)).of_cellMem htm).from hxm
    · exact (granule_congr htm c _).trans (qntWrites_header hxw hh (by rw [hxe]; exact hb))
    · exact (granule_congr htm c _).trans (qntWrites_kept hxw he hk (by rw [hxe]; exact hb))
    · exact (granule_congr htm c _).trans (qntWrites_out hxw hkept hk (by rw [hxe]; exact hd) ho)
    · rw [htm, qntWrites_bytes hxw hkept h1 h2, hxm]

end Sys2Proof.Machine
end

section
/-!
SUPPORT. TENSOR (R31, R114, R181, R182): the accumulator file under a clear and under one tile, the row's record, and the whole
instruction on one tile and one vector.
-/
namespace Sys2Proof.Machine
open Sys2Proof

variable {s t u σ : State} {c : Nat} {env : MemEnv}

/-! ### Accumulator files -/

/-- Reading a key after a range of keys was cleared. -/
theorem Table.get_clear {α : Type} (d : Nat → α) (t : Table α) (lo n k : Nat) :
    Table.get d (Table.clear t lo n) k = if lo ≤ k ∧ k < lo + n then d k else Table.get d t k := by
  induction t with
  | nil => simp [Table.clear, Table.get]
  | cons p t ih =>
    obtain ⟨q, w⟩ := p
    unfold Table.clear at ih ⊢
    by_cases hq : lo ≤ q ∧ q < lo + n
    · rw [List.filter_cons_of_neg (by simp; omega), ih]
      split
      · rfl
      · rw [Table.get, if_neg (by omega)]
    · rw [List.filter_cons_of_pos (by simp; omega)]
      simp only [Table.get, ih]
      split
      · rw [if_neg (by omega)]
      · rfl

/-- A row of a vector of an array of a cell: in range as R31 has them. -/
abbrev AccPlace (a v i : Nat) : Prop := a < 4 ∧ v < 16 ∧ i < 8

theorem acc_congr (h : t.accs = s.accs) (d a v i : Nat) : acc d a v i t = acc d a v i s := by
  unfold acc
  rw [h]

theorem acc_clearFile {arr : Nat} (harr : arr < 4) {d a v i : Nat} (h : AccPlace a v i) (s : State) :
    acc d a v i (clearFile c arr s) = if d = c ∧ a = arr then 0 else acc d a v i s := by
  obtain ⟨ha, hv, hi⟩ := h
  unfold acc clearFile
  rw [Table.get_clear]
  exact if_congr (by omega) rfl rfl

theorem acc_setAcc (hw : Table.wf (fun _ => 0) s.accs = true) {arr w row : Nat} (hp : AccPlace arr w row) (x : Word) {d a v i : Nat}
    (h : AccPlace a v i) :
    acc d a v i (setAcc c arr w row x s) = if d = c ∧ a = arr ∧ v = w ∧ i = row then x else acc d a v i s := by
  obtain ⟨ha, hv, hi⟩ := h
  obtain ⟨ha', hv', hi'⟩ := hp
  unfold acc setAcc
  rw [Table.get_set _ _ _ _ _ ((Table.wf_iff _ _).1 hw).1]
  exact if_congr (by omega) rfl rfl

/-- Row after row, a tile adds its results into the rows of one vector. -/
theorem forEach_accumulate (hw : Table.wf (fun _ => 0) s.accs = true) {arr w : Nat} (harr : arr < 4) (hv : w < 16) (g : Nat → Word)
    {n : Nat} (hn : n ≤ 8) :
    Table.wf (fun _ => 0) (forEach (List.range n) (fun i q => accumulate c arr w i (g i) q) s).accs = true ∧
      ∀ {d a v i : Nat}, AccPlace a v i → acc d a v i (forEach (List.range n) (fun i q => accumulate c arr w i (g i) q) s) =
        if d = c ∧ a = arr ∧ v = w ∧ i < n then fpAdd (acc c arr w i s) (g i) else acc d a v i s := by
  induction n with
  | zero => exact ⟨hw, fun _ => by simp⟩
  | succ n ih =>
    obtain ⟨hform, hacc⟩ := ih (Nat.le_of_succ_le hn)
    rw [List.range_succ]
    unfold forEach at hform hacc ⊢
    simp only [List.foldl_append, List.foldl_cons, List.foldl_nil]
    refine ⟨Table.wf_set _ _ _ _ hform, fun {d a v i} h => ?_⟩
    unfold accumulate at hform hacc ⊢
    rw [acc_setAcc hform ⟨harr, hv, hn⟩ _ h, hacc h, hacc ⟨harr, hv, hn⟩]
    by_cases hi : d = c ∧ a = arr ∧ v = w ∧ i = n
    · obtain ⟨rfl, rfl, rfl, rfl⟩ := hi
      simp
    · rw [if_neg hi]
      exact if_congr (by omega) rfl rfl

/-- One tile against one vector. -/
theorem tileStep_one (c arr : Nat) (tr : Bool) (tile : List Dy) (vecs : List (List Dy)) (s : State) :
    tileStep c arr 1 tr tile vecs s =
      forEach (List.range 8) (fun i q => accumulate c arr 0 i (rowSum tile tr i (vecs.getD 0 [])) q) s := by
  unfold tileStep
  rw [List.range_one, forEach_cons, forEach_nil]

/-! ### What an instruction leaves in the files -/

/-- Outside the file of `arr` of cell `c`, every accumulator value is as before. -/
def OtherFiles (c arr : Nat) (s t : State) : Prop :=
  ∀ d a v i, AccPlace a v i → (d ≠ c ∨ a ≠ arr) → acc d a v i t = acc d a v i s

/-- The file holds one tile's rounded row sums, added to zero, and zeros. -/
def Product (c arr : Nat) (y : Nat → Word) (t : State) : Prop :=
  (∀ i, i < 8 → acc c arr 0 i t = fpAdd 0 (y i)) ∧ ∀ v i, v < 16 → i < 8 → v ≠ 0 → acc c arr v i t = 0

/-- The file holds zeros. -/
def Blank (c arr : Nat) (t : State) : Prop := ∀ v i, v < 16 → i < 8 → acc c arr v i t = 0

theorem OtherFiles.trans {arr : Nat} (h : OtherFiles c arr s t) (k : OtherFiles c arr t u) : OtherFiles c arr s u :=
  fun d a v i hp ho => (k d a v i hp ho).trans (h d a v i hp ho)

theorem OtherFiles.of_accs {arr : Nat} (h : t.accs = s.accs) : OtherFiles c arr s t := fun d a v i _ _ => acc_congr h d a v i

theorem Product.of_accs {arr : Nat} {y : Nat → Word} (h : Product c arr y s) (hm : t.accs = s.accs) : Product c arr y t :=
  ⟨fun i hi => (acc_congr hm ..).trans (h.1 i hi), fun v i hv hi h0 => (acc_congr hm ..).trans (h.2 v i hv hi h0)⟩

theorem Blank.of_accs {arr : Nat} (h : Blank c arr s) (hm : t.accs = s.accs) : Blank c arr t :=
  fun v i hv hi => (acc_congr hm ..).trans (h v i hv hi)

theorem clearFile_blank {arr : Nat} (harr : arr < 4) (s : State) :
    Blank c arr (clearFile c arr s) ∧ OtherFiles c arr s (clearFile c arr s) :=
  ⟨fun v i hv hi => (acc_clearFile harr ⟨harr, hv, hi⟩ s).trans (if_pos ⟨rfl, rfl⟩),
    fun d a v i hp ho => (acc_clearFile harr hp s).trans (if_neg (by omega))⟩

/-- Clearing a file and taking one tile against one vector leaves the tile's product. -/
theorem tileStep_product (hw : Table.wf (fun _ => 0) s.accs = true) {arr : Nat} (harr : arr < 4) (tr : Bool) (tile : List Dy)
    (vecs : List (List Dy)) :
    Product c arr (fun i => rowSum tile tr i (vecs.getD 0 [])) (tileStep c arr 1 tr tile vecs (clearFile c arr s)) ∧
      OtherFiles c arr s (tileStep c arr 1 tr tile vecs (clearFile c arr s)) := by
  obtain ⟨hb, ho⟩ := clearFile_blank (c := c) harr s
  obtain ⟨-, hacc⟩ := forEach_accumulate (c := c) (w := 0) (s := clearFile c arr s) (Table.wf_clear _ _ _ _ hw) harr (by decide)
    (fun i => rowSum tile tr i (vecs.getD 0 [])) (Nat.le_refl 8)
  rw [tileStep_one]
  refine ⟨⟨fun i hi => ?_, fun v i hv hi h0 => ?_⟩, fun d a v i hp hd => ?_⟩
  · rw [hacc ⟨harr, by decide, hi⟩, if_pos ⟨rfl, rfl, rfl, hi⟩, hb 0 i (by decide) hi]
  · rw [hacc ⟨harr, hv, hi⟩, if_neg (by omega), hb v i hv hi]
  · rw [hacc hp, if_neg (by omega), ho d a v i hp hd]

/-! ### The row's statistics (R181, R182) -/

section
variable {arrays : List Nat} {r : State}

/-- Without an attention row, or with one whose scores it writes, an instruction writes no statistics. -/
theorem rowStats_none (h : ∀ a, env.attn = some a → a.scores = true) : rowStats c arrays env r s = s := by
  unfold rowStats
  split
  · rfl
  · next a ha => rw [if_pos (h a ha)]

/-- The maximum of a row, as the instruction reads it. -/
abbrev rowMax (c : Nat) (a : AttnRow) (r : State) : Nat := fieldOf (readGranule c a.maxAt r) 0 32

/-- The granule with the row's record. -/
abbrev recordGranule (c : Nat) (a : AttnRow) (r s : State) : Granule :=
  putRecord (readGranule c (a.recAt / 64) s) a.recAt
    (rowRecord a (rowMax c a r) (if rowMax c a r = 0xFF800000 then 0 else fieldOf (readGranule c a.sumAt r) 0 32))

theorem rowStats_seen {a : AttnRow} (h : env.attn = some a) (hs : a.scores = false) (hm : rowMax c a r ≠ 0xFF800000) :
    rowStats c arrays env r s = writeGranule c 2 (a.recAt / 64) (recordGranule c a r s) s := by
  unfold rowStats
  simp only [h, hs, Bool.false_eq_true, if_false, decide_eq_true_eq, recordGranule, if_neg hm]

theorem rowStats_unseen {a : AttnRow} (h : env.attn = some a) (hs : a.scores = false) (hm : rowMax c a r = 0xFF800000) :
    rowStats c arrays env r s =
      precise c 2 1 (forEach arrays (clearFile c) (writeGranule c 2 (a.recAt / 64) (recordGranule c a r s) s)) := by
  unfold rowStats
  simp only [h, hs, Bool.false_eq_true, if_false, decide_eq_true_eq, recordGranule, if_pos hm]

end

/-! ### The whole instruction -/

theorem exec_tensor (hc : canIssue c s = true) (hk : spells c env s = .tensor) :
    exec (.tensor c env) s = .next (advance c (tensorEffect c (wordAt c env s) env (fill c env s))) := by
  show execTensor c env s = _
  unfold execTensor
  rw [issue_run hc (decide_eq_true hk)]
  rfl

/-- One tile of one array against one vector, with the file cleared first and the events of its decoding, before any statistics. -/
abbrev tensorRun (c arr : Nat) (tr : Bool) (tile x : List Dy) (gs : List Nat) (bad nf : Bool) (env : MemEnv) (s : State) : State :=
  when nf (precise c 2 1) (when bad (fun q => report 0x03 c (raise (F.FAB_ERR_STS.ILLEGAL (fieldOfCell c)) q))
    (tileStep c arr 1 tr tile [x] (clearFile c arr (reads c 1 gs env s))))

/-- The tile that a word of one tile takes: the first of the records that hold tile 0. -/
abbrev firstTile (c : Nat) (wf : Fmt) (w : TensorWord) (r : State) : List Dy :=
  match (tensorRecords c w wf r).find? (fun r => decide (r.tile0 ≤ 0 ∧ 0 < r.tile0 + r.n)) with
  | some q => (decodeTile c wf q 0 r).vals
  | none => []

theorem tensorEffect_single {wd : Dword} {wf af : Fmt} {arr : Nat} (hwf : cellWfmt (cell c s) = some wf)
    (haf : cellAfmt (cell c s) = some af) (hclr : (tensorWord wd).clr = true) (harr : (tensorWord wd).arrays = [arr]) (hcount : (tensorWord wd).count = 1)
    (hnv : (tensorWord wd).nv = 1) :
    ∃ gs bad nf a k n, tensorEffect c wd env s = chargeEnergy a k n (rowStats c [arr] env (seen c env s)
      (tensorRun c arr (tensorWord wd).tr (firstTile c wf (tensorWord wd) (seen c env s))
        ((decodeGroup c af (tensorWord wd).aaddr 0 (seen c env s)).vals.take 8) gs bad nf env s)) := by
  have htiles : tensorTiles (tensorWord wd) = 1 := by rw [tensorTiles, hcount, harr]; rfl
  have hgroups : cdiv (tensorVectors (tensorWord wd)) 8 = 1 := by rw [tensorVectors, hcount, hnv]; rfl
  unfold tensorEffect
  rw [hwf, haf]
  dsimp -zeta only
  extract_lets w r rs tiles groups vec s1 s2 s3 bad s4 nf s5
  have htile : (tiles.map (·.vals)).getD 0 [] = firstTile c wf w r := by
    unfold tiles firstTile
    rw [htiles, List.range_one]
    show List.getD [Decoded.vals (match rs.find? (fun r => decide (r.tile0 ≤ 0 ∧ 0 < r.tile0 + r.n)) with
      | some q => decodeTile c wf q 0 r
      | none => { vals := [], nonfin := false, illegal := false })] 0 [] = _
    cases rs.find? (fun r => decide (r.tile0 ≤ 0 ∧ 0 < r.tile0 + r.n)) <;> rfl
  have hvec : vec 0 = (decodeGroup c af w.aaddr 0 r).vals.take 8 := by
    unfold vec groups
    rw [hgroups, List.range_one]
    rfl
  replace hclr : w.clr = true := hclr
  replace harr : w.arrays = [arr] := harr
  replace hcount : w.count = 1 := hcount
  replace hnv : w.nv = 1 := hnv
  have hrun : s3 = tileStep c arr 1 w.tr (firstTile c wf w r) [(decodeGroup c af w.aaddr 0 r).vals.take 8] (clearFile c arr s1) := by
    unfold s3 s2
    rw [hclr, harr, hcount, hnv, if_pos rfl, List.length_singleton, List.range_one, List.zip_cons_cons, List.zip_nil_left, forEach_cons,
      forEach_nil, forEach_cons, forEach_nil, forEach_cons, forEach_nil, List.map_singleton, ← htile, ← hvec]
    rfl
  refine ⟨weightGranules c wf rs r ++ activationGranules w af, bad, nf, activityOf (cell c s).serving, energyMac w.mode,
    tensorTiles w * 64 * w.nv, ?_⟩
  unfold s5 s4
  rw [hrun, harr]

section
variable {arr : Nat} {tr : Bool} {tile x : List Dy} {gs : List Nat} {bad nf : Bool}

/-- What such a run leaves alone: memory, and the parts that say which granules are exposed. -/
theorem tensorRun_same (h : Same [.win, .cells, .accs, .mesh, .prec, .link, .ports, .ocl] σ s) :
    Same [.win, .cells, .accs, .mesh, .prec, .link, .ports, .ocl] σ (tensorRun c arr tr tile x gs bad nf env s) :=
  when_same (fun _ => precise_same (by decide)) (when_same (fun _ ht => report_same (by decide) (raise_same (by decide) ht))
    (tileStep_same (by decide) (clearFile_same (by decide) (reads_same (by decide) h))))

theorem tensorRun_regs (h : Regs (cellRegs c) σ s) : Regs (cellRegs c) σ (tensorRun c arr tr tile x gs bad nf env s) := by
  refine when_regs (fun _ => precise_regs) (when_regs (fun _ ht => report_regs rfl (raise_regs (cellRegs_events c)
    (fabErr_mem_cellRegs c) ht)) ?_)
  exact (reads_regs (subN_refl _) h).of_win
    ((tileStep_same rfl (clearFile_same (by decide) (Same.refl [.accs] _))).part .win (by decide))

theorem tensorRun_steady (h : Steady c σ s) : Steady c σ (tensorRun c arr tr tile x gs bad nf env s) :=
  when_steady (fun _ => precise_steady) (when_steady
    (fun _ ht => ht.of_cells
      ((report_same (by decide) (raise_same (by decide) (Same.refl [.win, .link, .ports, .ocl, .mesh] _))).cells_eq (by decide)))
    ((reads_steady h).of_cells ((tileStep_same rfl (clearFile_same (by decide) (Same.refl [.accs] _))).cells_eq (by decide))))

theorem tensorRun_accs : (tensorRun c arr tr tile x gs bad nf env s).accs =
    (tileStep c arr 1 tr tile [x] (clearFile c arr (reads c 1 gs env s))).accs :=
  (when_fixed (·.accs) (fun t => (precise_same rfl (Same.refl [.prec] t)).part .accs (by decide)) _).trans
    (when_fixed (·.accs) (fun t => (report_same (by decide)
      (raise_same (by decide) (Same.refl [.win, .link, .ports, .ocl, .mesh] t))).part .accs (by decide)) _)

/-- The run leaves the tile's product in the file. -/
theorem tensorRun_product (hw : Table.wf (fun _ => 0) s.accs = true) (harr : arr < 4) :
    Product c arr (fun i => rowSum tile tr i x) (tensorRun c arr tr tile x gs bad nf env s) ∧
      OtherFiles c arr s (tensorRun c arr tr tile x gs bad nf env s) := by
  have hr : (reads c 1 gs env s).accs = s.accs :=
    (reads_same rfl (Same.refl [.win, .cells, .mesh, .link, .ports, .ocl] s)).part .accs (by decide)
  obtain ⟨hp, ho⟩ := tileStep_product (c := c) (s := reads c 1 gs env s) (by rw [hr]; exact hw) harr tr tile [x]
  exact ⟨hp.of_accs tensorRun_accs, ((OtherFiles.of_accs hr).trans ho).trans (OtherFiles.of_accs tensorRun_accs)⟩

end

/-! ### The statistics after the run -/

theorem writeGranule_accs (c port g : Nat) (v : Granule) (s : State) : (writeGranule c port g v s).accs = s.accs :=
  (writeGranule_same rfl (Same.refl [.win, .cells, .cellMem, .mesh, .link, .ports, .ocl] s)).part .accs (by decide)

theorem precise_accs (c kind n : Nat) (s : State) : (precise c kind n s).accs = s.accs :=
  (precise_same rfl (Same.refl [.prec] s)).part .accs (by decide)

section
variable {arr : Nat} {r : State} {a : AttnRow}

/-- A row none of whose scores is seen clears the file, and touches no other. -/
theorem unseen_blank (harr : arr < 4) (g : Nat) (v : Granule) :
    Blank c arr (precise c 2 1 (forEach [arr] (clearFile c) (writeGranule c 2 g v s))) ∧
      OtherFiles c arr s (precise c 2 1 (forEach [arr] (clearFile c) (writeGranule c 2 g v s))) := by
  obtain ⟨hb, ho⟩ := clearFile_blank (c := c) harr (writeGranule c 2 g v s)
  exact ⟨hb.of_accs (precise_accs ..), ((OtherFiles.of_accs (writeGranule_accs ..)).trans ho).trans (.of_accs (precise_accs ..))⟩

/-- Statistics leave the cell steady, and the other files. -/
theorem rowStats_done (harr : arr < 4) (h : Steady c σ s) :
    Steady c σ (rowStats c [arr] env r s) ∧ OtherFiles c arr s (rowStats c [arr] env r s) := by
  by_cases hn : ∀ a, env.attn = some a → a.scores = true
  · rw [rowStats_none hn]
    exact ⟨h, .of_accs rfl⟩
  push Not at hn
  obtain ⟨a, ha, hs⟩ := hn
  rw [ne_eq, Bool.not_eq_true] at hs
  by_cases hm : rowMax c a r = 0xFF800000
  · rw [rowStats_unseen ha hs hm]
    refine ⟨precise_steady ?_, (unseen_blank harr _ _).2⟩
    exact (writeGranule_steady h).of_cells ((clearFile_same rfl (Same.refl [.accs] _)).cells_eq (by decide))
  · rw [rowStats_seen ha hs hm]
    exact ⟨writeGranule_steady h, .of_accs (writeGranule_accs ..)⟩

/-- Whether a row's scores are seen or not, its record stands in its granule where the cell exposes that. -/
theorem rowStats_wrote (hw : Memory.wf s.cellMem = true) (ha : env.attn = some a) (hs : a.scores = false)
    (hx : a.recAt / 64 < exposed c s) : Wrote c (a.recAt / 64) [recordGranule c a r s] s (rowStats c [arr] env r s) := by
  have hrec : Wrote c (a.recAt / 64) [recordGranule c a r s] s (writeGranule c 2 (a.recAt / 64) (recordGranule c a r s) s) :=
    writeGranules_wrote (port := 2) hw hx
  by_cases hm : rowMax c a r = 0xFF800000
  · rw [rowStats_unseen ha hs hm]
    exact hrec.of_cellMem (cellMem_precise c 2 1 _)
  · rw [rowStats_seen ha hs hm]
    exact hrec

end

/-- What reading a granule of a cell depends on. -/
theorem readGranule_congr (hm : t.cellMem = s.cellMem) (he : exposed c t = exposed c s) (g : Nat) :
    readGranule c g t = readGranule c g s := by
  unfold readGranule
  rw [he, granule_congr hm]

/-- Filling the buffer leaves the formats that a cell's recipe names. -/
theorem formats_fill (h : Table.wf (fun _ => Cell.reset) s.cells = true) (c : Nat) (env : MemEnv) :
    cellWfmt (cell c (fill c env s)) = cellWfmt (cell c s) ∧ cellAfmt (cell c (fill c env s)) = cellAfmt (cell c s) :=
  have hw := congrArg cellWfmt (fill_steady (c := c) (env := env) (Steady.refl h c)).calm
  have ha := congrArg cellAfmt (fill_steady (c := c) (env := env) (Steady.refl h c)).calm
  ⟨hw, ha⟩

/-- The selected arrays of a word are among the cell's four. -/
theorem arrays_lt {wd : Dword} {arr : Nat} (h : (tensorWord wd).arrays = [arr]) : arr < 4 := by
  have hmem : arr ∈ (tensorWord wd).arrays := by rw [h]; exact List.mem_singleton_self arr
  exact List.mem_range.1 (List.mem_filter.1 hmem).1

/-- What the run of one tile leaves, before any statistics. -/
structure RunDone (c arr : Nat) (y : Nat → Word) (s t : State) : Prop where
  steady : Steady c s t
  mem : t.cellMem = s.cellMem
  exposed : exposed c t = exposed c s
  product : Product c arr y t
  other : OtherFiles c arr s t

theorem tensorRun_done (htab : s.TablesWf) {arr : Nat} (hlt : arr < 4) (tr : Bool) (tile x : List Dy) (gs : List Nat) (bad nf : Bool) :
    RunDone c arr (fun i => rowSum tile tr i x) s (tensorRun c arr tr tile x gs bad nf env (fill c env s)) := by
  have hsame : Same [.win, .cells, .accs, .mesh, .prec, .link, .ports, .ocl] s (tensorRun c arr tr tile x gs bad nf env (fill c env s)) :=
    tensorRun_same (fill_same (by decide) (Same.refl _ s))
  have hfa : (fill c env s).accs = s.accs :=
    (fill_same rfl (Same.refl [.win, .cells, .mesh, .link, .ports, .ocl] s)).part .accs (by decide)
  obtain ⟨hproduct, hother⟩ := tensorRun_product (c := c) (env := env) (tr := tr) (tile := tile) (x := x) (gs := gs) (bad := bad)
    (nf := nf) (s := fill c env s) (by rw [hfa]; exact htab.accs) hlt
  exact ⟨tensorRun_steady (fill_steady (Steady.refl htab.cells c)), hsame.part .cellMem (by decide),
    exposed_of (tensorRun_regs (fill_regs (subN_refl _) (Regs.refl _ s))) (fun m hm => sched_notin_cellRegs c m hm) hsame (by decide)
      (by decide) c, hproduct, (OtherFiles.of_accs hfa).trans hother⟩

/-- The end of a TENSOR: the charge, and the next word. -/
theorem charged_accs (c a k n : Nat) (s : State) : (advance c (chargeEnergy a k n s)).accs = s.accs :=
  (chargeEnergy_same rfl (Same.refl [.win, .budget, .link, .ports, .ocl] s)).part .accs (by decide)

theorem charged_cellMem (c a k n : Nat) (s : State) : (advance c (chargeEnergy a k n s)).cellMem = s.cellMem :=
  (cellMem_advance c _).trans (cellMem_chargeEnergy _ _ _ _)

/-- Settles O13: the run leaves the product, and the statistics of an attention row follow it. -/
theorem tensorTileProduct : Obligations.TensorTileProduct := by
  unfold Obligations.TensorTileProduct
  intro s c env arr wf af htab hmem hc hk u w hwf haf hclr harr hcount hnv tile x product blank
  obtain ⟨hcw, hca⟩ := formats_fill htab.cells c env
  obtain ⟨gs, bad, nf, ac, k, n, heff⟩ := tensorEffect_single (env := env) (hcw.trans hwf) (hca.trans haf) hclr harr hcount hnv
  have hlt := arrays_lt harr
  have hrun := tensorRun_done (c := c) (env := env) htab hlt w.tr tile x gs bad nf
  have hexec := (exec_tensor hc hk).trans (congrArg (fun q => Host.Outcome.next (advance c q)) heff)
  obtain ⟨R, hR⟩ : ∃ R, tensorRun c arr w.tr tile x gs bad nf env (fill c env s) = R := ⟨_, rfl⟩
  rw [hR] at hrun
  obtain ⟨hsteady, hother⟩ := rowStats_done (env := env) (r := u) hlt hrun.steady
  refine ⟨advance c (chargeEnergy ac k n (rowStats c [arr] env u R)), ?_, ?_, ?_, fun hn => ?_, fun a ha hs => ?_⟩
  · rw [← hR]
    exact hexec
  · rw [advance_pc (chargeEnergy_steady hsteady).form, (chargeEnergy_steady hsteady).pc]
  · intro d a v i h1 h2 h3 ho
    rw [acc_congr (charged_accs ..), hother d a v i ⟨h1, h2, h3⟩ ho, hrun.other d a v i ⟨h1, h2, h3⟩ ho]
  · rw [rowStats_none hn]
    exact ⟨(charged_cellMem ..).trans hrun.mem, hrun.product.of_accs (charged_accs ..)⟩
  · intro m unseen g
    refine ⟨fun hm => ?_, fun hm => ?_, fun hx => ?_⟩
    · rw [rowStats_unseen ha hs hm]
      exact (unseen_blank hlt _ _).1.of_accs (charged_accs ..)
    · rw [rowStats_seen ha hs hm]
      exact hrun.product.of_accs ((charged_accs ..).trans (writeGranule_accs ..))
    · have hg : g = recordGranule c a u R := by
        unfold recordGranule
        rw [readGranule_congr hrun.mem hrun.exposed]
      rw [hg]
      exact ((rowStats_wrote (by rw [hrun.mem]; exact hmem.cellMem) ha hs (by rw [hrun.exposed]; exact hx)).of_cellMem
        (charged_cellMem ..)).from hrun.mem

end Sys2Proof.Machine
end

section
/-!
SUPPORT. Replay buffers of the links (R53): a state in which a link direction has two names.
-/
namespace Sys2Proof.Machine
open Sys2Proof

/-! ### Link directions are kept by router × 8 + port -/

/-- A flit of VC1 from cell 5 to cell 6. -/
def eastFlit : Flit := ⟨BitVec.ofNat 48 (2 ^ 46 + 2 * 2 ^ 38 + 40 * 2 ^ 23 + 6 * 2 ^ 5), 9⟩

/-- A flit stands at router 5 before the link of port 2, whose replay buffer still holds an older flit. -/
def replayWitness : State :=
  { State.reset with mesh := { Mesh.reset with
      flight := [⟨5, eastFlit, 0, [], [(5, 2)], none, none⟩]
      links := [(5 * 8 + 2, { LinkDir.reset with replay := [(3, eastFlit)], seq := 4 })] } }

theorem replayWitness_wf : replayWitness.TablesWf := by constructor <;> decide +kernel

theorem replayWitness_released : (linkDir 4 10 (replayRelease 4 10 false replayWitness)).replay ≠ [] := by decide +kernel

/-- Refutes O20: link directions are kept by router × 8 + port, and the statement bounds no port. Releasing port 10 of router 4 releases
port 2 of router 5, the freed place is taken by the flit that waits there, and no flit has link (4, 10) before it. -/
theorem not_linkReplayCommands : ¬ Obligations.LinkReplayCommands := by
  unfold Obligations.LinkReplayCommands
  intro h
  obtain ⟨-, -, -, -, ⟨t, hexec, -, hfree⟩, -⟩ := h replayWitness 4 10 0 replayWitness_wf (by decide)
  have ht : replayRelease 4 10 false replayWitness = t := Host.Outcome.next.inj hexec
  refine replayWitness_released ?_
  rw [ht, hfree (by decide +kernel)]
  decide +kernel

end Sys2Proof.Machine
end

section
/-!
SUPPORT. Flits that come out of the mesh at a cell (R37, R47, R53, R62, R66, R67, R80, R83, R348, R365): what leaves the mesh and meets on
its links, the registers a landing may write, and what it leaves in memory and in the counters.
-/
namespace Sys2Proof.Machine
open Sys2Proof

variable {s t u σ : State} {c : Nat} {env : MemEnv} {ρ : List Nat}

/-! ### The registers that a landing writes -/

/-- Registers that a landing at a cell may write: memory error and collision registers of the cell's field, and the event path's. -/
def landRegs (c : Nat) : List Nat :=
  [0xa000, 0xa070, 0xa074] ++ [0x2000, 0x200c, 0x2010, 0x2014, 0x2018, 0x201c].map (0x100000 + fieldOfCell c * 0x10000 + ·)

theorem landRegs_events (c : Nat) : SubN [0xa000, 0xa070, 0xa074] (landRegs c) := subN_left _ _

theorem landRegs_mem {k : Nat} (hk : k ∈ [0x2000, 0x200c, 0x2010, 0x2014, 0x2018, 0x201c]) :
    0x100000 + fieldOfCell c * 0x10000 + k ∈ landRegs c :=
  List.mem_append_right _ (List.mem_map_of_mem hk)

theorem memErr_mem_landRegs (c : Nat) : 0x102000 + fieldOfCell c * 0x10000 ∈ landRegs c := by
  rw [show 0x102000 + fieldOfCell c * 0x10000 = 0x100000 + fieldOfCell c * 0x10000 + 0x2000 by omega]
  exact landRegs_mem (by decide)

theorem countAccess_landRegs {port g : Nat} (hl : SubN (landRegs c) ρ) (h : Regs ρ σ s) : Regs ρ σ (countAccess c port g s) := by
  unfold countAccess rangeFault
  split
  · refine when_regs (fun t ht => bump_regs (hl.mem ?_) (hl.mem ?_) ht) h
    · rw [show F.MEM_OFFCLASS_CNT (fieldOfCell c) = 0x100000 + fieldOfCell c * 0x10000 + 0x2018 by unfold F.MEM_OFFCLASS_CNT; omega]
      exact landRegs_mem (by decide)
    · rw [show F.MEM_OFFCLASS_CNT (fieldOfCell c) + 4 = 0x100000 + fieldOfCell c * 0x10000 + 0x201c by unfold F.MEM_OFFCLASS_CNT; omega]
      exact landRegs_mem (by decide)
  · exact report_regs rfl (raise_regs ((landRegs_events c).trans hl) (hl.mem (memErr_mem_landRegs c)) h)

theorem collLast_mem_landRegs (c : Nat) : 0x10200c + fieldOfCell c * 0x10000 ∈ landRegs c := by
  rw [show 0x10200c + fieldOfCell c * 0x10000 = 0x100000 + fieldOfCell c * 0x10000 + 0x200c by omega]
  exact landRegs_mem (by decide)

theorem collide_landRegs {m : Meet} (hl : SubN (landRegs c) ρ) (h : Regs ρ σ s) : Regs ρ σ (collide c m s) := by
  have hv : 0x10200c + fieldOfCell c * 0x10000 ∈ ρ := hl.mem (collLast_mem_landRegs c)
  unfold collide
  split
  · exact h
  · refine when_regs (fun t ht => ?_) (setCnt_regs (hl.mem ?_) (hl.mem ?_) (modCell_regs h))
    · unfold captureColl
      exact regs_upd (wr_regs hv (wrB_regs hv (wr_regs hv (wr_regs hv (wr_regs hv (wr_regs hv (wr_regs hv ht)))))))
    · rw [show F.MEM_COLL_CNT (fieldOfCell c) = 0x100000 + fieldOfCell c * 0x10000 + 0x2010 by unfold F.MEM_COLL_CNT; omega]
      exact landRegs_mem (by decide)
    · rw [show F.MEM_COLL_CNT (fieldOfCell c) + 4 = 0x100000 + fieldOfCell c * 0x10000 + 0x2014 by unfold F.MEM_COLL_CNT; omega]
      exact landRegs_mem (by decide)

theorem arrive_landRegs {n : Nat} (hl : SubN (landRegs c) ρ) (h : Regs ρ σ s) : Regs ρ σ (arrive c n s) := by
  unfold arrive
  dsimp only
  split
  · exact modCell_regs (raise_regs ((landRegs_events c).trans hl) (hl.mem (memErr_mem_landRegs c)) (modCell_regs h))
  · exact h.of_win rfl

/-- The same with the count of what a cell in ABSORB consumes. -/
def landingRegs (c : Nat) : List Nat := [F.RST_ABSORB_CNT, F.RST_ABSORB_CNT + 4] ++ landRegs c

theorem absorb_mem_landingRegs (c : Nat) : F.RST_ABSORB_CNT ∈ landingRegs c ∧ F.RST_ABSORB_CNT + 4 ∈ landingRegs c :=
  ⟨List.mem_append_left _ (by decide), List.mem_append_left _ (by decide)⟩

/-! ### What a landing leaves -/

/-- A granule written by the mesh, with the collisions and the reports of its access. -/
abbrev landStored (c g : Nat) (v : Granule) (env : MemEnv) (s : State) : State :=
  forEach env.checks (fun k => report k c) (forEach env.meets (collide c) (writeGranule c 0 g v s))

theorem landWrite_eq (ha : absent c s = false) (hp : (cell c s).phase ≠ .absorb) (g n : Nat) (v : Granule) :
    landWrite c g n v env s = arrive c n (landStored c g v env s) := by
  unfold landWrite
  rw [ha, if_neg Bool.false_ne_true, if_neg hp]

theorem landWrite_absent (ha : absent c s = true) (g n : Nat) (v : Granule) : landWrite c g n v env s = s := by
  unfold landWrite
  rw [if_pos ha]

theorem landWrite_regs {g n : Nat} {v : Granule} (h : Regs (landingRegs c) σ s) : Regs (landingRegs c) σ (landWrite c g n v env s) := by
  have hl : SubN (landRegs c) (landingRegs c) := subN_right _ _
  unfold landWrite
  split
  · exact h
  split
  · exact bump_regs (absorb_mem_landingRegs c).1 (absorb_mem_landingRegs c).2 h
  · exact arrive_landRegs hl (forEach_regs (fun _ _ => report_regs rfl) (forEach_regs (fun _ _ => collide_landRegs hl)
      (putGranule_regs (countAccess_landRegs hl h))))

/-- Collisions and reports leave memory and counters. -/
theorem collide_report_frame (c : Nat) (env : MemEnv) (s : State) :
    Same [.win, .cells, .mesh] s (forEach env.checks (fun k => report k c) (forEach env.meets (collide c) s)) :=
  forEach_same (fun _ _ => report_same (by decide)) (forEach_same (fun _ _ => collide_same (by decide)) (Same.refl _ s))

theorem landStored_cellMem (c g : Nat) (v : Granule) (env : MemEnv) (s : State) :
    (landStored c g v env s).cellMem = (writeGranules c 0 g [v] s).cellMem :=
  (collide_report_frame c env _).part .cellMem (by decide)

theorem landStored_counters (c g : Nat) (v : Granule) (env : MemEnv) (s : State) : (landStored c g v env s).counters = s.counters :=
  ((collide_report_frame c env _).part .counters (by decide)).trans
    ((writeGranule_same rfl (Same.refl [.win, .cells, .cellMem, .mesh, .link, .ports, .ocl] s)).part .counters (by decide))

theorem landStored_keeps (h : Keeps σ s) (g : Nat) (v : Granule) : Keeps σ (landStored c g v env s) :=
  forEach_keeps (fun _ _ => report_keeps) (forEach_keeps (fun _ _ => collide_keeps) (writeGranule_keeps h))

theorem arrive_cellMem (c n : Nat) (s : State) : (arrive c n s).cellMem = s.cellMem :=
  (arrive_same rfl (Same.refl [.win, .cells, .counters, .link, .ports, .ocl] s)).part .cellMem (by decide)

theorem arrival_congr (h : t.counters = s.counters) (d k : Nat) : arrival d k t = arrival d k s := by
  unfold arrival
  rw [h]

theorem raise_counters (f : Fld) (s : State) : (raise f s).counters = s.counters := (raise_same_refl f s).part .counters (by decide)

theorem arrive_full {n : Nat} (hv : arrival c n s = 0xFFFFFF) :
    arrive c n s = modCell c (fun x => { x with cntOvf := true }) (raise (F.MEM_ERR_STS.CNT_OVF (fieldOfCell c))
      (modCell c (fun x => { x with landed := x.landed + 1 }) s)) := by
  unfold arrive
  dsimp only
  rw [if_pos (by rw [hv]; rfl)]

theorem arrive_room {n : Nat} (hv : arrival c n s ≠ 0xFFFFFF) :
    arrive c n s = setArrival c n (arrival c n s + 1) (modCell c (fun x => { x with landed := x.landed + 1 }) s) := by
  unfold arrive
  dsimp only
  rw [if_neg fun he : (arrival c n s).toNat = 0xFFFFFF => hv (BitVec.eq_of_toNat_eq he)]

/-- An arrival is counted, or saturates its counter and raises its bit; no other counter changes (R80, R83). -/
theorem arrive_counts (htab : s.TablesWf) (c n : Nat) :
    (arrival c n s ≠ 0xFFFFFF → arrival c n (arrive c n s) = arrival c n s + 1) ∧
      (arrival c n s = 0xFFFFFF → arrival c n (arrive c n s) = 0xFFFFFF ∧
        rd (F.MEM_ERR_STS.CNT_OVF (fieldOfCell c)) (arrive c n s) = 1) ∧
      ∀ d k, d * 32 + k ≠ c * 32 + n → arrival d k (arrive c n s) = arrival d k s := by
  refine ⟨fun hv => ?_, fun hv => ?_, fun d k hne => ?_⟩
  · rw [arrive_room hv]
    exact Table.get_set_self _ htab.counters _ _
  · rw [arrive_full hv]
    refine ⟨(arrival_congr (raise_counters _ _) c n).trans hv,
      (rd_congr rfl _).trans (rd_raise (s := modCell c _ s) htab.win rfl (by decide : 3 < 32) ?_)⟩
    · simp [F.MEM_ERR_STS.CNT_OVF]
      omega
  · by_cases hv : arrival c n s = 0xFFFFFF
    · rw [arrive_full hv]
      exact arrival_congr (raise_counters _ _) d k
    · rw [arrive_room hv]
      exact Table.get_set_ne _ _ _ hne

/-- A landing at a cell that exists and is outside ABSORB: its exposed granule holds the data, and every byte outside it is as before. -/
theorem landWrite_stores (hm : Memory.wf s.cellMem = true) (ha : absent c s = false) (hp : (cell c s).phase ≠ .absorb)
    (g n : Nat) (v : Granule) :
    (g < exposed c s → granule c g (landWrite c g n v env s) = v) ∧
      ∀ b, (b < c * cellBytes + g * 64 ∨ c * cellBytes + g * 64 + 64 ≤ b) →
        byteAt (landWrite c g n v env s).cellMem b = byteAt s.cellMem b := by
  obtain ⟨hin, -, hout⟩ := writeGranules_memory c 0 [v] g s hm
  have hmem : (landWrite c g n v env s).cellMem = (writeGranules c 0 g [v] s).cellMem := by
    rw [landWrite_eq ha hp, arrive_cellMem, landStored_cellMem]
  refine ⟨fun hx => (granule_congr hmem c g).trans (hin hx 0 Nat.zero_lt_one), fun b hb => ?_⟩
  rw [hmem]
  exact hout b (hb.imp_right fun h => by simp only [List.length_singleton]; omega)

/-- Such a landing is counted. -/
theorem landWrite_counts (htab : s.TablesWf) (ha : absent c s = false) (hp : (cell c s).phase ≠ .absorb) (g n : Nat) (v : Granule) :
    (arrival c n s ≠ 0xFFFFFF → arrival c n (landWrite c g n v env s) = arrival c n s + 1) ∧
      (arrival c n s = 0xFFFFFF → arrival c n (landWrite c g n v env s) = 0xFFFFFF ∧
        rd (F.MEM_ERR_STS.CNT_OVF (fieldOfCell c)) (landWrite c g n v env s) = 1) ∧
      ∀ d k, d * 32 + k ≠ c * 32 + n → arrival d k (landWrite c g n v env s) = arrival d k s := by
  have hc := fun d k => arrival_congr (landStored_counters c g v env s) d k
  have h := arrive_counts ((landStored_keeps (c := c) (env := env) (Keeps.refl s) g v).tables htab) c n
  simp only [hc] at h
  rw [landWrite_eq ha hp]
  exact h

/-! ### What leaves the mesh before a landing -/

/-- Registers that meetings of VC1 flits at these routers may write. -/
def conflictRegs (rs : List Nat) : List Nat :=
  [0xa000, 0xa070, 0xa074] ++ rs.flatMap fun r => [(F.FAB_ERR_STS.VC1_CONFLICT (fieldOfCell r)).off, F.VC1_CONFLICT_CNT (fieldOfCell r),
    F.VC1_CONFLICT_CNT (fieldOfCell r) + 4]

/-- They are the event path's, and three of some field's. -/
theorem of_mem_conflictRegs {rs : List Nat} {o : Nat} (h : o ∈ conflictRegs rs) :
    o ∈ [0xa000, 0xa070, 0xa074] ∨ ∃ f, o = 0x101004 + f * 0x10000 ∨ o = 0x101018 + f * 0x10000 ∨ o = 0x10101c + f * 0x10000 := by
  refine (List.mem_append.1 h).imp_right fun h => ?_
  obtain ⟨r, -, hr⟩ := List.mem_flatMap.1 h
  simp only [F.FAB_ERR_STS.VC1_CONFLICT, F.VC1_CONFLICT_CNT, List.mem_cons, List.not_mem_nil, or_false] at hr
  exact ⟨fieldOfCell r, by omega⟩

theorem vc1Meets_regs {rs : List Nat} (hl : ∀ o ∈ conflictRegs rs, o ∈ ρ) (h : Regs ρ σ s) : Regs ρ σ (vc1Meets rs s) := by
  have he : SubN [0xa000, 0xa070, 0xa074] ρ := List.all_eq_true.2 fun o ho => by
    simpa using hl o (List.mem_append_left _ ho)
  unfold vc1Meets
  induction rs generalizing s with
  | nil => exact h
  | cons r rs ih =>
    have hr : ∀ o ∈ [(F.FAB_ERR_STS.VC1_CONFLICT (fieldOfCell r)).off, F.VC1_CONFLICT_CNT (fieldOfCell r),
        F.VC1_CONFLICT_CNT (fieldOfCell r) + 4], o ∈ ρ := fun o ho => hl o (by simp [conflictRegs] at ho ⊢; tauto)
    rw [forEach_cons]
    refine ih (fun o ho => hl o ?_) (raise_regs he (hr _ (by simp)) (bump_regs (hr _ (by simp)) (hr _ (by simp)) h))
    simp only [conflictRegs, List.mem_append, List.flatMap_cons] at ho ⊢
    tauto

/-- `t` is `s` after a flit may have come out of the mesh, the others gone on, and meetings at these routers were counted. -/
structure OffMesh (rs : List Nat) (s t : State) : Prop where
  keeps : Keeps s t
  same : Same [.win, .mesh, .link, .ports, .ocl, .pair, .free] s t
  regs : Regs (conflictRegs rs) s t

theorem OffMesh.refl (s : State) : OffMesh [] s s := ⟨Keeps.refl s, Same.refl _ s, Regs.refl _ s⟩

theorem liftFlit_offMesh (x : Flight) (s : State) : OffMesh [] s (liftFlit x s) :=
  ⟨liftFlit_keeps (Keeps.refl s), liftFlit_same rfl (Same.refl _ s), liftFlit_regs rfl (Regs.refl _ s)⟩

theorem landFlit_offMesh (x : Flight) (s : State) : OffMesh [] s (landFlit x s) := by
  refine ⟨landFlit_keeps (Keeps.refl s), landFlit_same rfl (Same.refl _ s), ?_⟩
  unfold landFlit
  split
  · exact (liftFlit_offMesh x s).regs.of_win rfl
  · exact (liftFlit_offMesh x s).regs

theorem OffMesh.meets (h : OffMesh [] s t) (rs : List Nat) : OffMesh rs s (vc1Meets rs t) :=
  ⟨vc1Meets_keeps h.keeps, vc1Meets_same (by decide) h.same,
    vc1Meets_regs (fun _ ho => ho)
      ⟨fun o ho => h.regs.reg o fun he => ho (List.mem_append_left _ (by simpa [conflictRegs] using he))⟩⟩

section
variable {rs : List Nat} (h : OffMesh rs s t)
include h

theorem OffMesh.cell (d : Nat) : cell d t = Machine.cell d s := cell_congr (h.same.cells_eq (by decide)) d

theorem OffMesh.cellMem : t.cellMem = s.cellMem := h.same.part .cellMem (by decide)

theorem OffMesh.counters : t.counters = s.counters := h.same.part .counters (by decide)

theorem OffMesh.exposed (c : Nat) : exposed c t = Machine.exposed c s := by
  refine exposed_of h.regs (fun m hm ho => ?_) h.same (by decide) (by decide) c
  rcases of_mem_conflictRegs ho with ho | ⟨f, ho⟩
  · simp at ho
    omega
  · omega

/-- Which clusters are absent stands in `SPARE_MAP` (R37). -/
theorem OffMesh.absent (c : Nat) : absent c t = Machine.absent c s := by
  have hreg : reg (O.SPARE_MAP (fieldOfCell c) (rowOf c)) t = reg (O.SPARE_MAP (fieldOfCell c) (rowOf c)) s := by
    refine h.regs.reg _ fun ho => ?_
    have hrow : rowOf c < 32 := by unfold rowOf; omega
    rcases of_mem_conflictRegs ho with ho | ⟨f, ho⟩
    · simp [O.SPARE_MAP] at ho
      omega
    · unfold O.SPARE_MAP at ho
      omega
  unfold Machine.absent spareByte
  rw [hreg]

theorem OffMesh.absorbCnt : cnt F.RST_ABSORB_CNT t = cnt F.RST_ABSORB_CNT s := by
  refine h.regs.cnt ?_ ?_ <;> intro ho <;> rcases of_mem_conflictRegs ho with ho | ⟨f, ho⟩ <;>
    simp [F.RST_ABSORB_CNT] at ho <;> omega

end

/-- The state when a flit has come out of the mesh to land: off its links, the others gone on, and its meetings counted. -/
def cameOut (f : Flit) (env : MemEnv) (s : State) : State :=
  vc1Meets env.conflicts ((flightOf (fun x => sameFlit x.flit f) s).elim s (landFlit · s))

theorem landed_offMesh (f : Flit) (s : State) : OffMesh [] s ((flightOf (fun x => sameFlit x.flit f) s).elim s (landFlit · s)) := by
  cases flightOf (fun x => sameFlit x.flit f) s with
  | none => exact .refl s
  | some x => exact landFlit_offMesh x s

theorem cameOut_offMesh (f : Flit) (env : MemEnv) (s : State) : OffMesh env.conflicts s (cameOut f env s) := (landed_offMesh f s).meets _

/-! ### Landings of unicast flits -/

section
variable {f : Flit}

theorem flitLanding_waits (hw : (flightOf (fun x => sameFlit x.flit f) s).any (·.stuck s) = true) : flitLanding c f env s = s := by
  unfold flitLanding
  dsimp only
  rw [if_pos (.inr hw)]

/-- A unicast flit that has come to the end of its route is consumed in ABSORB, lands at its destination, and is misrouted elsewhere. -/
theorem flitLanding_unicast (hc : c < cellCount) (hmc : bitAt f.tag 45 = false) (hvc : fieldOf f.tag 46 2 ≠ 2)
    (hw : (flightOf (fun x => sameFlit x.flit f) s).any (·.stuck s) = false) :
    flitLanding c f env s =
      if (cell c s).phase = .absorb then bump F.RST_ABSORB_CNT (cameOut f env s)
      else if fieldOf f.tag 5 18 = c then landWrite c (fieldOf f.tag 23 15) (fieldOf f.tag 38 5) f.data env (cameOut f env s)
      else misroute c (cameOut f env s) := by
  have hcell := (cameOut_offMesh f env s).cell c
  unfold cameOut at hcell ⊢
  unfold flitLanding
  generalize flightOf (fun x => sameFlit x.flit f) s = x at hw hcell ⊢
  have hgo : ¬ (cellCount ≤ c ∨ x.any (·.stuck s) = true) := by simp [hw, hc]
  cases x with
  | none =>
    dsimp only [Option.elim] at hcell ⊢
    rw [if_neg hgo, hcell, hmc, if_neg hvc, if_neg Bool.false_ne_true]
  | some x =>
    dsimp only [Option.elim] at hcell ⊢
    rw [if_neg hgo, hcell, hmc, if_neg hvc, if_neg Bool.false_ne_true]

/-- Whatever becomes of it, only registers of landings change after it has come out of the mesh. -/
theorem flitLanding_regs (hc : c < cellCount) (hmc : bitAt f.tag 45 = false) (hvc : fieldOf f.tag 46 2 ≠ 2)
    (hw : (flightOf (fun x => sameFlit x.flit f) s).any (·.stuck s) = false) :
    Regs (landingRegs c) (cameOut f env s) (flitLanding c f env s) := by
  rw [flitLanding_unicast hc hmc hvc hw]
  split
  · exact bump_regs (absorb_mem_landingRegs c).1 (absorb_mem_landingRegs c).2 (Regs.refl _ _)
  split
  · exact landWrite_regs (Regs.refl _ _)
  · exact report_regs rfl (Regs.refl _ _)

/-- One meeting of VC1 flits is counted, and its bit raised (R47, R62). -/
theorem cameOut_conflict (htab : s.TablesWf) {r : Nat} (hr : env.conflicts = [r]) :
    rd (F.FAB_ERR_STS.VC1_CONFLICT (fieldOfCell r)) (cameOut f env s) = 1 ∧
      cnt (F.VC1_CONFLICT_CNT (fieldOfCell r)) (cameOut f env s) = (cnt (F.VC1_CONFLICT_CNT (fieldOfCell r)) s + 1) % 2 ^ 64 := by
  obtain ⟨hk, -, ho⟩ := landed_offMesh f s
  unfold cameOut
  rw [hr]
  unfold vc1Meets
  rw [forEach_cons, forEach_nil]
  generalize (flightOf (fun x => sameFlit x.flit f) s).elim s (landFlit · s) = u at hk ho
  have hwin := (hk.tables htab).win
  refine ⟨rd_raise (bump_keeps hk |>.tables htab).win rfl (by decide : 5 < 32) ?_, ?_⟩
  · simp [F.FAB_ERR_STS.VC1_CONFLICT]
    omega
  · rw [(raise_writes _ _).cnt, cnt_bump hwin, ho.cnt] <;> simp [F.FAB_ERR_STS.VC1_CONFLICT, F.VC1_CONFLICT_CNT, conflictRegs] <;> omega

end

/-- The bit and the count of meetings at a router are no registers of landings. -/
theorem conflict_notin_landingRegs (f c : Nat) : 0x101004 + f * 0x10000 ∉ landingRegs c ∧ 0x101018 + f * 0x10000 ∉ landingRegs c ∧
    0x101018 + f * 0x10000 + 4 ∉ landingRegs c := by
  simp only [landingRegs, landRegs, F.RST_ABSORB_CNT, List.mem_append, List.mem_cons, List.mem_map, List.not_mem_nil, or_false]
  omega

/-- Settles O18: a flit comes out of the mesh, which leaves the cells and their memory, and lands as R47, R66, R348 and R365 say. -/
theorem landingsStoreAndCount : Obligations.LandingsStoreAndCount := by
  unfold Obligations.LandingsStoreAndCount
  intro s c f env htab hmem hc hmc hvc waits g n
  have hout := cameOut_offMesh f env s
  have htab' := hout.keeps.tables htab
  have hmem' : Memory.wf (cameOut f env s).cellMem = true := by rw [hout.cellMem]; exact hmem.cellMem
  refine ⟨fun hw => congrArg Host.Outcome.next (flitLanding_waits hw), fun hw hp hd ha => ?_, fun hw hp hd ha => ?_, fun hw hp => ?_,
    fun hw hp hd => ?_, fun r hw hr henv => ?_⟩
  · have ha' : absent c (cameOut f env s) = false := by rw [hout.absent]; exact ha
    have hp' : (cell c (cameOut f env s)).phase ≠ .absorb := by rw [hout.cell]; exact hp
    have hcount := arrival_congr hout.counters
    obtain ⟨hin, hbytes⟩ := landWrite_stores (env := env) hmem' ha' hp' g n f.data
    obtain ⟨hroom, hfull, hother⟩ := landWrite_counts (env := env) htab' ha' hp' g n f.data
    rw [hout.exposed] at hin
    rw [hout.cellMem] at hbytes
    simp only [hcount] at hroom hfull hother
    refine ⟨_, congrArg Host.Outcome.next (flitLanding_unicast hc hmc hvc hw), ?_⟩
    rw [if_neg hp, if_pos hd]
    exact ⟨hin, hbytes, hroom, hfull, hother⟩
  · refine ⟨_, congrArg Host.Outcome.next (flitLanding_unicast hc hmc hvc hw), ?_⟩
    rw [if_neg hp, if_pos hd, landWrite_absent (by rw [hout.absent]; exact ha)]
    exact ⟨hout.cellMem, hout.counters⟩
  · refine ⟨_, congrArg Host.Outcome.next (flitLanding_unicast hc hmc hvc hw), ?_⟩
    rw [if_pos hp]
    exact ⟨hout.cellMem, hout.counters, by rw [cnt_bump htab'.win, hout.absorbCnt]⟩
  · refine ⟨_, congrArg Host.Outcome.next (flitLanding_unicast hc hmc hvc hw), ?_⟩
    rw [if_neg hp, if_neg hd]
    exact ⟨hout.cellMem, hout.counters, report_reports_getLast _ _ _⟩
  · have hregs := flitLanding_regs (env := env) hc hmc hvc hw
    obtain ⟨h1, h2, h3⟩ := conflict_notin_landingRegs (fieldOfCell r) c
    obtain ⟨hbit, hcnt⟩ := cameOut_conflict (f := f) htab henv
    exact ⟨_, rfl, (hregs.rd h1).trans hbit, (hregs.cnt h2 h3).trans hcnt⟩

end Sys2Proof.Machine
end

section
/-!
SUPPORT. Trees at a router (R51, R53, R54, R56, R57, R59, R66, R80, R99): the copies of a multicast flit and the sums of a reduction.
-/
namespace Sys2Proof.Machine
open Sys2Proof

variable {s t σ : State} {r : Nat} {f : Flit} {env : MemEnv}

/-! ### Flits that move on leave the tables of the routers -/

theorem leave3_mcast (f : Flit) (p : Option (Nat × Nat)) (s : State) : (leave3 f p s).mesh.mcast = s.mesh.mcast := by
  unfold leave3
  split
  · exact when_fixed (·.mesh.mcast) (fun _ => by rfl) s
  · rfl

theorem enter3_mcast (f : Flit) (p : Option (Nat × Nat)) (s : State) : (enter3 f p s).mesh.mcast = s.mesh.mcast := by
  unfold enter3
  split
  · exact when_fixed (·.mesh.mcast) (fun _ => by rfl) s
  · rfl

theorem passRoute_mcast (f : Flit) (rt : List (Nat × Nat)) (s : State) : (passRoute f rt s).mesh.mcast = s.mesh.mcast :=
  forEach_fixed (·.mesh.mcast) (fun _ _ => by rfl) rt s

theorem settle_mcast (x : Flight) (s : State) : (settle x s).mesh.mcast = s.mesh.mcast := by
  unfold settle
  split
  · dsimp only
    split
    · rw [sendSpan_mesh, leave3_mcast]
    · rw [leave3_mcast]
  · rfl

theorem goOn_mcast (x : Flight) (s : State) : (goOn x s).mesh.mcast = s.mesh.mcast := by
  unfold goOn
  dsimp only
  split
  · exact settle_mcast x s
  · rw [settle_mcast, enter3_mcast, leave3_mcast, passRoute_mcast]

theorem liftFlit_mcast (x : Flight) (s : State) : (liftFlit x s).mesh.mcast = s.mesh.mcast := by
  unfold liftFlit moveOn
  rw [forEach_fixed (·.mesh.mcast) goOn_mcast]
  exact (leave3_mcast _ _ _).trans (passRoute_mcast _ _ _)

theorem mcastEntry_congr (h : t.mesh.mcast = s.mesh.mcast) (r tree : Nat) : mcastEntry r tree t = mcastEntry r tree s := by
  unfold mcastEntry
  rw [h]

/-! ### The copies of a multicast flit -/

/-- The state when a multicast flit is copied: the flit off its router's input, the others gone on, and its meetings counted. -/
def copyOut (r : Nat) (f : Flit) (env : MemEnv) (s : State) : State :=
  vc1Meets env.conflicts ((copyAt r f s).elim s (liftFlit · s))

theorem lifted_offMesh (r : Nat) (f : Flit) (s : State) : OffMesh [] s ((copyAt r f s).elim s (liftFlit · s)) := by
  cases copyAt r f s with
  | none => exact .refl s
  | some x => exact liftFlit_offMesh x s

theorem copyOut_offMesh (r : Nat) (f : Flit) (env : MemEnv) (s : State) : OffMesh env.conflicts s (copyOut r f env s) :=
  (lifted_offMesh r f s).meets _

theorem copyOut_mcast (r : Nat) (f : Flit) (env : MemEnv) (s : State) : (copyOut r f env s).mesh.mcast = s.mesh.mcast := by
  have hmesh : (copyOut r f env s).mesh = ((copyAt r f s).elim s (liftFlit · s)).mesh :=
    (vc1Meets_same rfl (Same.refl [.win, .link, .ports, .ocl] _)).part .mesh (by decide)
  rw [hmesh]
  cases copyAt r f s with
  | none => rfl
  | some x => exact liftFlit_mcast x s

/-- A flit that has come to its router is copied to the ports of a valid entry, and is lost at an invalid one (R54). -/
theorem multicastCopy_eq (hr : r < cellCount) (hw : (copyAt r f s).any (·.stuck s) = false) :
    multicastCopy r f env s =
      if bitAt (mcastEntry r (fieldOf f.tag 5 8) s) 5 then
        forEach ((List.range 5).filter fun p => bitAt (mcastEntry r (fieldOf f.tag 5 8) s) p) (copyTo r (flightAct r f s) f env)
          (copyOut r f env s)
      else treeMiss r (copyOut r f env s) := by
  have hentry := mcastEntry_congr (copyOut_mcast r f env s) r (fieldOf f.tag 5 8)
  unfold copyOut at hentry ⊢
  unfold multicastCopy
  have hgo : ¬ (cellCount ≤ r ∨ (copyAt r f s).any (·.stuck s) = true) := by simp [hw, hr]
  rw [if_neg hgo]
  cases hx : copyAt r f s with
  | none =>
    rw [hx] at hentry
    dsimp only [Option.elim] at hentry ⊢
    rw [hentry]
  | some x =>
    rw [hx] at hentry
    dsimp only [Option.elim] at hentry ⊢
    rw [hentry]

theorem landWrite_calm (c g n : Nat) (v : Granule) (env : MemEnv) (s : State) : (landWrite c g n v env s).mesh.calm = s.mesh.calm := by
  unfold landWrite
  split
  · rfl
  split
  · rfl
  · refine (calm_of_same (arrive_same rfl (Same.refl [.win, .cells, .counters, .link, .ports, .ocl] _)) (by decide)).trans ?_
    rw [forEach_fixed (·.mesh.calm) (fun k => report_calm k c), forEach_fixed (·.mesh.calm) (collide_calm c)]
    exact (calm_of_same (putGranule_same rfl (Same.refl [.cells, .cellMem] _)) (by decide)).trans (countAccess_calm c 0 g s)

section
variable {act : Nat}

/-- A copy through an outer port is sent to the neighbour, and charged for its hop. -/
theorem copyTo_outer {p q : Nat} (hp : p ≠ 0) (hq : neighbour r p = some q) (s : State) :
    copyTo r act f env p s = launchFlit q act (turned p f) [(r, p)] (passLink f r p (hopEnergy act 1 s)) := by
  unfold copyTo
  rw [if_neg hp, hq]

theorem copyTo_edge {p : Nat} (hp : p ≠ 0) (hq : neighbour r p = none) (s : State) : copyTo r act f env p s = s := by
  unfold copyTo
  rw [if_neg hp, hq]

theorem hopEnergy_frame (act vc : Nat) (s : State) : Same [.win, .budget, .link, .ports, .ocl] s (hopEnergy act vc s) :=
  chargeEnergy_same rfl (Same.refl _ s)

theorem hopEnergy_mesh (act vc : Nat) (s : State) : (hopEnergy act vc s).mesh = s.mesh := (hopEnergy_frame act vc s).part .mesh (by decide)

/-- The copy stands at the neighbour, after the flits on the mesh. -/
theorem copyTo_outer_flight {p q : Nat} (hp : p ≠ 0) (hq : neighbour r p = some q) (s : State) :
    (copyTo r act f env p s).mesh.flight = s.mesh.flight ++ [⟨q, turned p f, act, [(r, p)], [], none, none⟩] := by
  rw [copyTo_outer hp hq]
  show (hopEnergy act 1 s).mesh.flight ++ _ = _
  rw [hopEnergy_mesh]

theorem copyTo_flight_subset (p : Nat) (s : State) : s.mesh.flight ⊆ (copyTo r act f env p s).mesh.flight := by
  by_cases hp : p = 0
  · subst hp
    exact fun x hx => by
      rw [show (copyTo r act f env 0 s).mesh.flight = s.mesh.flight from flight_of_calm (landWrite_calm _ _ _ _ _ s)]
      exact hx
  cases hq : neighbour r p with
  | none => rw [copyTo_edge hp hq]; exact fun _ hx => hx
  | some q => rw [copyTo_outer_flight hp hq]; exact List.subset_append_left _ _

theorem forEach_copyTo_flight_subset (ps : List Nat) (s : State) : s.mesh.flight ⊆ (forEach ps (copyTo r act f env) s).mesh.flight := by
  induction ps generalizing s with
  | nil => exact fun _ hx => hx
  | cons p ps ih => exact List.Subset.trans (copyTo_flight_subset p s) (ih _)

/-- A copy stands at the neighbour of every outer port that has one. -/
theorem forEach_copyTo_flight {ps : List Nat} {p q : Nat} (hmem : p ∈ ps) (hp : p ≠ 0) (hq : neighbour r p = some q) (s : State) :
    (⟨q, turned p f, act, [(r, p)], [], none, none⟩ : Flight) ∈ (forEach ps (copyTo r act f env) s).mesh.flight := by
  induction ps generalizing s with
  | nil => exact absurd hmem List.not_mem_nil
  | cons p' ps ih =>
    rw [forEach_cons]
    rcases List.mem_cons.1 hmem with rfl | hmem
    · refine forEach_copyTo_flight_subset ps _ ?_
      rw [copyTo_outer_flight hp hq]
      exact List.mem_append_right _ (List.mem_singleton_self _)
    · exact ih hmem _

theorem copyTo_outer_cellMem {p : Nat} (hp : p ≠ 0) (s : State) : (copyTo r act f env p s).cellMem = s.cellMem := by
  cases hq : neighbour r p with
  | none => rw [copyTo_edge hp hq]
  | some q =>
    have hhop : (hopEnergy act 1 s).cellMem = s.cellMem := (hopEnergy_frame act 1 s).part .cellMem (by decide)
    rw [copyTo_outer hp hq]
    exact hhop

theorem forEach_copyTo_cellMem {ps : List Nat} (hps : ∀ p ∈ ps, p ≠ 0) (s : State) :
    (forEach ps (copyTo r act f env) s).cellMem = s.cellMem := by
  induction ps generalizing s with
  | nil => rfl
  | cons p ps ih =>
    rw [forEach_cons, ih (fun q hq => hps q (List.mem_cons_of_mem _ hq)), copyTo_outer_cellMem (hps p (List.mem_cons_self ..))]

/-- The cell's own port comes first among those of an entry. -/
theorem ports_of_local {e : BitVec 16} (h : bitAt e 0 = true) :
    (List.range 5).filter (fun p => bitAt e p) = 0 :: [1, 2, 3, 4].filter fun p => bitAt e p := List.filter_cons_of_pos h

/-- With the L port set, the cell's granule holds the flit's data after the other copies too. -/
theorem forEach_copyTo_granule (hm : Memory.wf s.cellMem = true) {e : BitVec 16} (he : bitAt e 0 = true) (ha : absent r s = false)
    (hp : (cell r s).phase ≠ .absorb) (hx : fieldOf f.tag 23 15 < exposed r s) :
    granule r (fieldOf f.tag 23 15) (forEach ((List.range 5).filter fun p => bitAt e p) (copyTo r act f env) s) = f.data := by
  rw [ports_of_local he, forEach_cons, granule_congr (forEach_copyTo_cellMem (fun p hp => ?_) _)]
  · exact (landWrite_stores hm ha hp _ _ _).1 hx
  · rintro rfl
    exact absurd (List.mem_filter.1 hp).1 (by decide)

end

theorem treeMiss_raised (hw : Table.wf resetWord s.win = true) (r : Nat) :
    rd (F.FAB_ERR_STS.TREE_MISS (fieldOfCell r)) (treeMiss r s) = 1 := by
  refine rd_raise hw rfl (by decide : 3 < 32) ?_
  simp [F.FAB_ERR_STS.TREE_MISS]
  omega

theorem redSeq_raised (hw : Table.wf resetWord s.win = true) (r : Nat) :
    rd (F.FAB_ERR_STS.RED_SEQ (fieldOfCell r)) (report 0x09 r (raise (F.FAB_ERR_STS.RED_SEQ (fieldOfCell r)) s)) = 1 := by
  refine (rd_congr rfl _).trans (rd_raise hw rfl (by decide : 2 < 32) ?_)
  simp [F.FAB_ERR_STS.RED_SEQ]
  omega

theorem report_raise_redStop (cause r : Nat) (f : Fld) (s : State) : (report cause r (raise f s)).mesh.redStop = s.mesh.redStop :=
  congrArg (·.redStop) (raise_mesh f s)

/-! ### The sums of a reduction -/

theorem popSum_redQ (r tree p : Nat) (s : State) :
    (popSum r tree p s).mesh.redQ = Table.set (fun _ => []) s.mesh.redQ ((r * 256 + tree) * 8 + p)
      (Table.get (fun _ => []) s.mesh.redQ ((r * 256 + tree) * 8 + p)).tail := by
  unfold popSum
  dsimp only
  split <;> rfl

theorem sumQueue_congr (h : t.mesh.redQ = s.mesh.redQ) (r tree p : Nat) : sumQueue r tree p t = sumQueue r tree p s := by
  unfold sumQueue
  rw [h]

theorem sumQueue_popSum_ne {q tree p o : Nat} (h : (q * 256 + tree) * 8 + o ≠ (r * 256 + tree) * 8 + p) (s : State) :
    sumQueue q tree o (popSum r tree p s) = sumQueue q tree o s := by
  unfold sumQueue
  rw [popSum_redQ, Table.get_set_ne _ _ _ h]

/-- Heads that leave a router's inputs leave the canonical form, and the queues of other routers. -/
theorem popSums_queues {q tree o : Nat} {ins : List Nat} (hne : ∀ p ∈ ins, (q * 256 + tree) * 8 + o ≠ (r * 256 + tree) * 8 + p)
    (hw : Table.wf (fun _ => []) s.mesh.redQ = true) :
    Table.wf (fun _ => []) (forEach ins (fun p => popSum r tree p) s).mesh.redQ = true ∧
      sumQueue q tree o (forEach ins (fun p => popSum r tree p) s) = sumQueue q tree o s := by
  induction ins generalizing s with
  | nil => exact ⟨hw, rfl⟩
  | cons p ps ih =>
    obtain ⟨hform, hq⟩ := ih (s := popSum r tree p s) (fun p' hp' => hne p' (List.mem_cons_of_mem _ hp'))
      (by rw [popSum_redQ]; exact Table.wf_set _ _ _ _ hw)
    exact ⟨hform, hq.trans (sumQueue_popSum_ne (hne p (List.mem_cons_self ..)) s)⟩

/-- A sum that is sent joins the queue of the neighbour's input. -/
theorem sendSum_queue {tree p q act : Nat} (hq : neighbour r p = some q) (hw : Table.wf (fun _ => []) s.mesh.redQ = true) (g : Flit) :
    sumQueue q tree (opposite p) (sendSum r tree p act g s) = sumQueue q tree (opposite p) s ++ [g] := by
  have hredQ : (hopEnergy act 2 s).mesh.redQ = s.mesh.redQ := congrArg (·.redQ) (hopEnergy_mesh act 2 s)
  have h := forEach_queueSum_queue q tree (opposite p) act [g] (hopEnergy act 2 s) (by rw [hredQ]; exact hw)
  have hsend : (sendSum r tree p act g s).mesh.redQ = (queueSum q tree (opposite p) act g (hopEnergy act 2 s)).mesh.redQ := by
    unfold sendSum
    rw [hq]
    rfl
  rw [sumQueue_congr hredQ] at h
  exact (sumQueue_congr hsend _ _ _).trans h

/-- A neighbour is another router, and a port that has one is an outer port. -/
theorem neighbour_ne {p q : Nat} (h : neighbour r p = some q) : q ≠ r ∧ 1 ≤ p ∧ p ≤ 4 := by
  unfold neighbour grow gcol at h
  split at h <;> simp at h <;> omega

theorem opposite_lt {p : Nat} (h : p ≤ 4) : opposite p < 8 := by
  unfold opposite
  split <;> omega

/-- The checks that RED_SEQ passes: heads of one IDX. -/
theorem seq_agree {g : Flit} {gs : List Flit} (h : ∀ a ∈ g :: gs, sumIdx a = sumIdx g) :
    (gs.any fun x => sumIdx x != sumIdx g) = false := by
  simp only [List.any_eq_false, bne_iff_ne, ne_eq, Decidable.not_not]
  exact fun x hx => h x (List.mem_cons_of_mem _ hx)

section
variable {tree : Nat}

/-- The inputs of a tree at a router, and the heads of their queues. -/
abbrev treeIns (r tree : Nat) (s : State) : List Nat := (List.range 5).filter fun p => bitAt (redEntry r tree s) p

abbrev treeHeads (r tree : Nat) (s : State) : List Flit := sumHeads r tree (treeIns r tree s) s

/-- The sum of each of the two groups over the heads. -/
abbrev headSum (group : Flit → Sum24) (heads : List Flit) : Sum24 × Bool := Sum24.addAll (heads.map group)

/-- The state in which the heads have left and their sum is formed (R57, R121). -/
abbrev headsTaken (r tree : Nat) (heads : List Flit) (env : MemEnv) (s : State) : State :=
  when ((headSum (fun g => (flitGroups g).1) heads).2 || (headSum (fun g => (flitGroups g).2) heads).2) (precise r 1 1)
    (forEach env.checks (fun k => report k r) (forEach (treeIns r tree s) (fun p => popSum r tree p) s))

section
variable (hr : r < cellCount) (ht : tree < 256) (he : bitAt (redEntry r tree s) 8 = true) (hstop : r * 256 + tree ∉ s.mesh.redStop)
include hr ht he hstop

theorem reductionCombine_nil (hh : treeHeads r tree s = []) : reductionCombine r tree env s = s := by
  have hgo : ¬ (cellCount ≤ r ∨ 256 ≤ tree) := by omega
  unfold treeHeads treeIns at hh
  unfold reductionCombine
  dsimp only
  rw [if_neg hgo, he, if_neg (by decide), if_neg (by simpa using hstop), hh]

theorem reductionCombine_cons {g : Flit} {gs : List Flit} (hh : treeHeads r tree s = g :: gs) :
    reductionCombine r tree env s =
      if (gs.any fun x => sumIdx x != sumIdx g) = true then
        report 0x09 r (raise (F.FAB_ERR_STS.RED_SEQ (fieldOfCell r))
          { s with mesh := { s.mesh with redStop := (r * 256 + tree) :: s.mesh.redStop } })
      else if (g :: gs).length < (treeIns r tree s).length ∨ noCredit r (fieldOf (redEntry r tree s) 5 3) s = true then s
      else if fieldOf (redEntry r tree s) 5 3 = 0 then
        landWrite r (fieldOf (redEntry r tree s) 15 15 + sumIdx g) (fieldOf (redEntry r tree s) 9 5)
          (sumBf16 (headSum (fun g => (flitGroups g).1) (g :: gs)).1 (headSum (fun g => (flitGroups g).2) (g :: gs)).1)
          { env with checks := [] } (headsTaken r tree (g :: gs) env s)
      else sendSum r tree (fieldOf (redEntry r tree s) 5 3) (sumAct r tree (treeIns r tree s) s)
        (sumFlit g (headSum (fun g => (flitGroups g).1) (g :: gs)).1 (headSum (fun g => (flitGroups g).2) (g :: gs)).1)
        (headsTaken r tree (g :: gs) env s) := by
  have hgo : ¬ (cellCount ≤ r ∨ 256 ≤ tree) := by omega
  unfold treeHeads treeIns at hh
  unfold reductionCombine
  dsimp only
  rw [if_neg hgo, he, if_neg (by decide), if_neg (by simpa using hstop), hh]

/-- A tree whose heads agree waits while an input is empty or its port has no credit. -/
theorem reductionCombine_waits (hagree : ∀ a ∈ treeHeads r tree s, ∀ b ∈ treeHeads r tree s, sumIdx a = sumIdx b)
    (hw : (treeHeads r tree s).length < (treeIns r tree s).length ∨ noCredit r (fieldOf (redEntry r tree s) 5 3) s = true) :
    reductionCombine r tree env s = s := by
  cases hh : treeHeads r tree s with
  | nil => exact reductionCombine_nil hr ht he hstop hh
  | cons g gs =>
    rw [hh] at hagree hw
    rw [reductionCombine_cons hr ht he hstop hh, seq_agree fun a ha => hagree a ha g (List.mem_cons_self ..), if_neg Bool.false_ne_true,
      if_pos hw]

/-- With a head at every input, one IDX and a credit, the sum is sent on through the entry's outer port. -/
theorem reductionCombine_sends {g : Flit} (hg : (treeHeads r tree s).head? = some g)
    (hagree : ∀ a ∈ treeHeads r tree s, sumIdx a = sumIdx g) (hlen : (treeHeads r tree s).length = (treeIns r tree s).length)
    (hport : fieldOf (redEntry r tree s) 5 3 ≠ 0) (hcredit : noCredit r (fieldOf (redEntry r tree s) 5 3) s = false) :
    reductionCombine r tree env s = sendSum r tree (fieldOf (redEntry r tree s) 5 3) (sumAct r tree (treeIns r tree s) s)
      (sumFlit g (headSum (fun g => (flitGroups g).1) (treeHeads r tree s)).1 (headSum (fun g => (flitGroups g).2) (treeHeads r tree s)).1)
      (headsTaken r tree (treeHeads r tree s) env s) := by
  cases hh : treeHeads r tree s with
  | nil => simp [hh] at hg
  | cons g' gs =>
    rw [hh, List.head?_cons, Option.some.injEq] at hg
    subst hg
    rw [hh] at hagree hlen
    have hgo : ¬ ((g' :: gs).length < (treeIns r tree s).length ∨ noCredit r (fieldOf (redEntry r tree s) 5 3) s = true) :=
      not_or.2 ⟨by omega, by rw [hcredit]; exact Bool.false_ne_true⟩
    rw [reductionCombine_cons hr ht he hstop hh, seq_agree hagree, if_neg Bool.false_ne_true, if_neg hgo, if_neg hport]

/-- Heads of two IDX stop the tree at the router. -/
theorem reductionCombine_stops {a b : Flit} (ha : a ∈ treeHeads r tree s) (hb : b ∈ treeHeads r tree s) (hne : sumIdx a ≠ sumIdx b) :
    reductionCombine r tree env s = report 0x09 r (raise (F.FAB_ERR_STS.RED_SEQ (fieldOfCell r))
      { s with mesh := { s.mesh with redStop := (r * 256 + tree) :: s.mesh.redStop } }) := by
  cases hh : treeHeads r tree s with
  | nil => simp [hh] at ha
  | cons g gs =>
    rw [hh] at ha hb
    have hany : (gs.any fun x => sumIdx x != sumIdx g) = true := by
      by_contra hall
      rw [Bool.not_eq_true, List.any_eq_false] at hall
      have heq : ∀ x ∈ g :: gs, sumIdx x = sumIdx g := fun x hx => by
        rcases List.mem_cons.1 hx with rfl | hx
        · rfl
        · simpa using hall x hx
      exact hne ((heq a ha).trans (heq b hb).symm)
    rw [reductionCombine_cons hr ht he hstop hh, if_pos hany]

end

/-- Taking the heads of a router leaves the queues of another. -/
theorem headsTaken_queue {q o : Nat} (hne : q ≠ r) (ho : o < 8) (hw : Table.wf (fun _ => []) s.mesh.redQ = true) (heads : List Flit) :
    Table.wf (fun _ => []) (headsTaken r tree heads env s).mesh.redQ = true ∧
      sumQueue q tree o (headsTaken r tree heads env s) = sumQueue q tree o s := by
  have hkeys : ∀ p ∈ treeIns r tree s, (q * 256 + tree) * 8 + o ≠ (r * 256 + tree) * 8 + p := fun p hp => by
    have := List.mem_range.1 (List.mem_filter.1 hp).1
    omega
  obtain ⟨hform, hq⟩ := popSums_queues hkeys hw
  have hredQ : (headsTaken r tree heads env s).mesh.redQ = (forEach (treeIns r tree s) (fun p => popSum r tree p) s).mesh.redQ :=
    (when_fixed (·.mesh.redQ) (fun t => congrArg (·.redQ) ((precise_same rfl (Same.refl [.prec] t)).part .mesh (by decide))) _).trans
      (forEach_fixed (·.mesh.redQ) (fun _ _ => by rfl) _ _)
  exact ⟨by rw [hredQ]; exact hform, (sumQueue_congr hredQ q tree o).trans hq⟩

end

/-- Settles O19: copies are made port after port, the cell's own first; a tree waits, sends its sum, or stops. -/
theorem treesCopyAndCombine : Obligations.TreesCopyAndCombine := by
  unfold Obligations.TreesCopyAndCombine
  intro s r env htab hmem hr
  refine ⟨?_, ?_⟩
  · intro f hw e
    have hout := copyOut_offMesh r f env s
    refine ⟨_, congrArg Host.Outcome.next (multicastCopy_eq hr hw), fun hv => ⟨fun p q h1 h4 hp hq => ?_, fun h0 hph ha hx => ?_⟩,
      fun hv => ?_⟩
    · rw [if_pos hv]
      exact forEach_copyTo_flight (List.mem_filter.2 ⟨List.mem_range.2 (by omega), hp⟩) (by omega) hq _
    · rw [if_pos hv]
      exact forEach_copyTo_granule (by rw [hout.cellMem]; exact hmem.cellMem) h0 (by rw [hout.absent]; exact ha)
        (by rw [hout.cell]; exact hph) (by rw [hout.exposed]; exact hx)
    · rw [if_neg (by rw [hv]; exact Bool.false_ne_true)]
      exact ⟨treeMiss_raised (hout.keeps.tables htab).win r, ((raise_same_refl _ _).part .cellMem (by decide)).trans hout.cellMem⟩
  intro tree ht hstop e ins heads he
  refine ⟨fun hlen hagree => ?_, fun g q hg hlen hagree hq hcredit => ?_, fun hcredit hagree => ?_, fun hne => ?_⟩
  · exact congrArg Host.Outcome.next (reductionCombine_waits hr ht he hstop hagree (.inl hlen))
  · obtain ⟨hqr, h1, h4⟩ := neighbour_ne hq
    obtain ⟨hform, hqueue⟩ := headsTaken_queue (env := env) (tree := tree) hqr (opposite_lt h4) htab.redQ heads
    refine ⟨_, congrArg Host.Outcome.next (reductionCombine_sends hr ht he hstop hg hagree hlen
      (show fieldOf e 5 3 ≠ 0 by omega) hcredit), ?_⟩
    rw [sendSum_queue hq hform, hqueue]
  · exact congrArg Host.Outcome.next (reductionCombine_waits hr ht he hstop hagree (.inr hcredit))
  · obtain ⟨a, ha, b, hb, hne⟩ := hne
    refine ⟨_, congrArg Host.Outcome.next (reductionCombine_stops hr ht he hstop ha hb hne), redSeq_raised ?_ r,
      report_reports_getLast _ _ _, ?_⟩
    · exact htab.win
    · rw [report_raise_redStop]
      exact List.mem_cons_self ..

end Sys2Proof.Machine
end

section
/-!
SUPPORT. Configuration packets (R37, R53, R60, R61, R62, R84, R135, R149, R255, R365, R479): a target's answer, the writes of `SEQ_CTRL`,
of table entries and of arrival counters, and the agent's end of an access.
-/
namespace Sys2Proof.Machine
open Sys2Proof

variable {s t σ : State} {c addr : Nat} {d : Word} {env : MemEnv}

/-! ### The target's answer -/

theorem passRoute0_tabWrites (ws : List Word) (rt : List (Nat × Nat)) (s : State) :
    (passRoute0 ws rt s).mesh.tabWrites = s.mesh.tabWrites :=
  forEach_fixed (·.mesh.tabWrites) (fun _ _ => forEach_fixed (·.mesh.tabWrites) (fun _ _ => by rfl) _ _) rt s

/-- An answer is on its way to the agent; the words it sends change nothing but the links. -/
theorem respond_response (c : Nat) (err : Bool) (data : Option Word) (s : State) :
    (respond c err data s).agent.response = some (err, data.getD 0) := rfl

theorem respond_tabWrites (c : Nat) (err : Bool) (data : Option Word) (s : State) :
    (respond c err data s).mesh.tabWrites = s.mesh.tabWrites := passRoute0_tabWrites _ _ s

theorem respond_frame (c : Nat) (err : Bool) (data : Option Word) (s : State) : Same [.mesh, .agent] s (respond c err data s) :=
  respond_same rfl (Same.refl _ s)

theorem respond_cells (c : Nat) (err : Bool) (data : Option Word) (s : State) : (respond c err data s).cells = s.cells :=
  (respond_frame c err data s).cells_eq (by decide)

theorem respond_counters (c : Nat) (err : Bool) (data : Option Word) (s : State) : (respond c err data s).counters = s.counters :=
  (respond_frame c err data s).part .counters (by decide)

/-! ### Reads and writes of a word -/

/-- A word of a cell that does not exist is answered with an error. -/
theorem cfgWrite_notThere (hc : c < cellCount) (hg : lost0 (cfgPacket c addr (some d)) (route agentCell c) s = false)
    (hn : notThere c addr s = true) : cfgWrite c addr d env s = respond c true none s := by
  unfold cfgWrite writeCfg
  rw [hg, if_neg Bool.false_ne_true, if_neg (by omega), if_pos (.inr hn)]

section
variable (hc : c < cellCount) (hp : (cell c s).phase ≠ .absorb)
include hc hp

theorem cfgRead_response (hg : lost0 (cfgPacket c addr none) (route agentCell c) s = false) :
    (cfgRead c addr s).agent.response = some ((cfgWord c addr s).isNone, (cfgWord c addr s).getD 0) := by
  have hgo : ¬ (cellCount ≤ c ∨ lost0 (cfgPacket c addr none) (route agentCell c) s = true) := by simp [hg, hc]
  unfold cfgRead
  rw [if_neg hgo, if_neg hp]
  split
  · next w hw => rw [respond_response, hw]; rfl
  · next hw => rw [respond_response, hw]; rfl

section
variable (hg : lost0 (cfgPacket c addr (some d)) (route agentCell c) s = false)
include hg

/-- One that exists is written by its place in the cell's configuration space. -/
theorem cfgWrite_there (hn : notThere c addr s = false) :
    cfgWrite c addr d env s =
      if addr < 0x100 then respond c false none (writeTable c false addr d s)
      else if addr < 0x200 then respond c false none (writeTable c true (addr - 0x100) d s)
      else if addr = 0x200 then respond c false none (writeSeqCtrl c d env s)
      else if addr = 0x201 then
        respond c false none (when (!(cell c s).run) (modCell c (fun x => { x with pc := BitVec.ofNat 18 d.toNat, fetch := [] })) s)
      else if 0x210 ≤ addr ∧ addr < 0x230 then
        if (cell c s).run then respond c true none s
        else respond c false none (setArrival c (addr - 0x210) (BitVec.ofNat 24 d.toNat) s)
      else if addr = 0x300 ∨ addr = 0x301 then respond c false none s
      else respond c true none s := by
  have hgo : ¬ ((cell c s).phase = .absorb ∨ notThere c addr s = true) := by simp [hn, hp]
  unfold cfgWrite writeCfg
  rw [hg, if_neg Bool.false_ne_true, if_neg (by omega), if_neg hgo]

/-- A write to a table entry waits for the next slot boundary (R61). -/
theorem cfgWrite_table (h : addr < 0x200) :
    cfgWrite c addr d env s = respond c false none (writeTable c (decide (0x100 ≤ addr)) (addr % 0x100) d s) := by
  have hn : notThere c addr s = false := by
    unfold notThere ofCell
    simp only [Bool.and_eq_false_imp, Bool.or_eq_true, Bool.and_eq_true, beq_iff_eq, decide_eq_true_eq]
    omega
  rw [cfgWrite_there hc hp hg hn]
  by_cases hlow : addr < 0x100
  · rw [if_pos hlow, Nat.mod_eq_of_lt hlow, decide_eq_false (by omega)]
  · rw [if_neg hlow, if_pos h, decide_eq_true (by omega), show addr % 0x100 = addr - 0x100 by omega]

end

theorem cfgWrite_seqCtrl (ha : absent c s = false) (hg : lost0 (cfgPacket c 0x200 (some d)) (route agentCell c) s = false) :
    cfgWrite c 0x200 d env s = respond c false none (writeSeqCtrl c d env s) := by
  rw [cfgWrite_there hc hp hg (by unfold notThere; rw [ha, Bool.and_false])]
  rfl

theorem cfgWrite_counter {n : Nat} (hn : n < 32) (ha : absent c s = false)
    (hg : lost0 (cfgPacket c (0x210 + n) (some d)) (route agentCell c) s = false) :
    cfgWrite c (0x210 + n) d env s =
      if (cell c s).run then respond c true none s else respond c false none (setArrival c n (BitVec.ofNat 24 d.toNat) s) := by
  rw [cfgWrite_there hc hp hg (by unfold notThere; rw [ha, Bool.and_false]), if_neg (by omega), if_neg (by omega), if_neg (by omega),
    if_neg (by omega), if_pos (by omega), Nat.add_sub_cancel_left]

end

/-! ### SEQ_CTRL (R84, R135, R255) -/

theorem loadReads_steady {port : Nat} {gs : List Nat} (h : Steady c σ s) : Steady c σ (loadReads c port gs env s) := by
  unfold loadReads
  dsimp only
  refine forEach_steady (fun k t ht => ht.of_cells ?_) (portDone_steady (forEach_steady (fun _ _ => collide_steady)
    (readChecks_steady (forEach_steady (fun g t ht => ht.of_cells ?_) h))))
  · exact (report_same rfl (Same.refl [.mesh] t)).cells_eq (by decide)
  · exact (countLoaded_same rfl (Same.refl [.win, .mesh, .link, .ports, .ocl] t)).cells_eq (by decide)

/-- A change of a cell changes no granule that its loader reads. -/
theorem loadedGranule_seen_modCell (f : Cell → Cell) (g : Nat) :
    loadedGranule c g (seen c env (modCell c f s)) = loadedGranule c g (seen c env s) := by
  unfold seen
  split <;> rfl

/-- A cell that begins to run has its records in its shadows; ILLEGAL and the other cells are as before. -/
theorem setRun_cell (h : Table.wf (fun _ => Cell.reset) s.cells = true) (t36 : Bool) :
    (cell c (setRun c t36 env s)).run = true ∧ (cell c (setRun c t36 env s)).illegal = (cell c s).illegal ∧
      (cell c (setRun c t36 env s)).shadow1 = loadedGranule c (stageGranule t36) (seen c env s) ∧
      (cell c (setRun c t36 env s)).shadow2 = loadedGranule c 2 (seen c env s) ∧
      ∀ e, e ≠ c → cell e (setRun c t36 env s) = cell e s := by
  have hs : Steady c s (loadReads c 4 (recordGranules t36) env s) := loadReads_steady (Steady.refl h c)
  have hill := congrArg Cell.illegal hs.calm
  dsimp only [Cell.calm] at hill
  unfold setRun
  dsimp only
  rw [cell_modCell hs.form]
  exact ⟨rfl, hill, rfl, rfl, fun e he => (cell_modCell_ne he _ _).trans (hs.other e he)⟩

/-- A write of `SEQ_CTRL`: ILLEGAL takes its bit, RUN falls with its bit, and rises with it in a cell that may run, whose records are then
copied. -/
theorem writeSeqCtrl_cell (h : Table.wf (fun _ => Cell.reset) s.cells = true) :
    (cell c (writeSeqCtrl c d env s)).run = (bitAt d 0 && ((cell c s).run || mayRun c s)) ∧
      (cell c (writeSeqCtrl c d env s)).illegal = bitAt d 1 ∧
      ((cell c s).run = false → (cell c (writeSeqCtrl c d env s)).run = true →
        (cell c (writeSeqCtrl c d env s)).shadow1 = loadedGranule c (stageGranule (inT36 c s)) (seen c env s) ∧
        (cell c (writeSeqCtrl c d env s)).shadow2 = loadedGranule c 2 (seen c env s)) ∧
      ∀ e, e ≠ c → cell e (writeSeqCtrl c d env s) = cell e s := by
  set s1 := modCell c (fun x => { x with illegal := bitAt d 1, run := (cell c s).run && bitAt d 0 }) s with hs1
  have hform : Table.wf (fun _ => Cell.reset) s1.cells = true := Table.wf_set _ _ _ _ h
  have hcell : cell c s1 = { cell c s with illegal := bitAt d 1, run := (cell c s).run && bitAt d 0 } := cell_modCell h c _
  have hother : ∀ e, e ≠ c → cell e s1 = cell e s := fun e he => cell_modCell_ne he _ _
  unfold writeSeqCtrl
  dsimp only
  rw [← hs1]
  by_cases hrise : (bitAt d 0 && !(cell c s).run && mayRun c s) = true
  · obtain ⟨hrun, hill, h1, h2, ho⟩ := setRun_cell (env := env) hform (inT36 c s)
    simp only [Bool.and_eq_true, Bool.not_eq_true'] at hrise
    obtain ⟨⟨hbit, hwas⟩, hmay⟩ := hrise
    rw [if_pos (by simp [hbit, hwas, hmay])]
    refine ⟨by rw [hrun, hbit, hwas, hmay]; rfl, by rw [hill, hcell], fun _ _ => ⟨h1.trans ?_, h2.trans ?_⟩,
      fun e he => (ho e he).trans (hother e he)⟩
    · exact loadedGranule_seen_modCell _ _
    · exact loadedGranule_seen_modCell _ _
  · rw [if_neg hrise, hcell]
    refine ⟨?_, rfl, fun hwas hnow => ?_, hother⟩
    · revert hrise
      cases (cell c s).run <;> cases bitAt d 0 <;> cases mayRun c s <;> simp
    · rw [hwas] at hnow
      exact absurd hnow Bool.false_ne_true

/-! ### The agent's end of an access (R478, R479) -/

theorem cfgRsp_read {a : CfgAccess} (ha : s.agent.access = some a) (hsent : a.sent = true) (hr : s.agent.response = some (false, d))
    (hl : rspLost false d s = false) :
    cfgRsp false d s = cellWinDone a d { s with agent := { s.agent with response := none } } := by
  unfold cfgRsp
  rw [if_pos ⟨hr, by rw [hl]; rfl⟩, ha]
  dsimp only
  rw [hsent]
  rfl

/-- A read that ends without error leaves its word in the window, which is busy no more. -/
theorem cellWinDone_read (hw : Table.wf resetWord s.win = true) {a : CfgAccess} (ha : a.write = false) (d : Word) :
    reg O.CELL_WIN_DATA (cellWinDone a d s) = d ∧ rd F.CELL_WIN_STATE.BUSY (cellWinDone a d s) = 0 ∧
      rd F.CELL_WIN_STS.DONE (cellWinDone a d s) = 1 ∧ (cellWinDone a d s).agent = { s.agent with access := none } := by
  set u := when (on F.CELL_WIN_WORD.AINC s) (wr F.CELL_WIN_WORD.WORD (rd F.CELL_WIN_WORD.WORD s + 1)) (setReg O.CELL_WIN_DATA d s) with hu
  have huwin : Table.wf resetWord u.win = true := by
    unfold u when
    split
    · exact win_wr (win_setReg hw _ _) _ _
    · exact win_setReg hw _ _
  have hudata : reg O.CELL_WIN_DATA u = d := by
    unfold u when
    split
    · rw [reg_wr_ne (by decide), reg_setReg_self hw]
    · exact reg_setReg_self hw _ _
  have huagent : u.agent = s.agent := when_fixed (·.agent) (fun _ => by rfl) _
  have hdone : cellWinDone a d s = raise F.CELL_WIN_STS.DONE
      (wr F.CELL_WIN_STATE.ERROR 0 (wr F.CELL_WIN_STATE.BUSY 0 { u with agent := { u.agent with access := none } })) := by
    unfold cellWinDone
    rw [ha]
    rfl
  have hbusy := win_wr (s := { u with agent := { u.agent with access := none } }) huwin F.CELL_WIN_STATE.BUSY 0
  rw [hdone]
  refine ⟨?_, ?_, rd_raise (win_wr hbusy _ _) rfl (by decide) (by decide), ?_⟩
  · rw [(raise_writes _ _).reg _ (by decide), reg_wr_ne (by decide), reg_wr_ne (by decide)]
    exact hudata
  · rw [(raise_writes _ _).rd (by decide),
      rd_wr_field (f := F.CELL_WIN_STATE.BUSY) (g := F.CELL_WIN_STATE.ERROR) hbusy rfl (by decide) (by decide)]
    exact rd_wr_self (s := { u with agent := _ }) huwin (by decide) 0
  · rw [(raise_same_refl _ _).part .agent (by decide), ← huagent]
    rfl

/-! ### The caldera allowance (R62, R149) -/

theorem fabCalderaWrite_sets {f : Nat} (hf : f < 72) (hb : fieldBound f s = false) (hd : fieldOf d 0 3 ≤ 4) :
    fabCalderaWrite f d s = wr (F.FAB_CALDERA.ROWS f) (fieldOf d 0 3) s := by
  have hgo : ¬ (4 < fieldOf d 0 3 ∨ fieldBound f s = true) := by simp [hb, hd]
  unfold fabCalderaWrite
  rw [if_neg (by omega), if_neg hgo]

theorem fabCalderaWrite_refuses {f : Nat} (hf : f < 72) (hd : 4 < fieldOf d 0 3) :
    fabCalderaWrite f d s = raise (F.FAB_ERR_STS.CFG f) s := by
  unfold fabCalderaWrite
  rw [if_neg (by omega), if_pos (.inl hd)]

/-- Settles O21: a target answers by the place of the word, and the response ends the agent's access. -/
theorem configurationPackets : Obligations.ConfigurationPackets := by
  unfold Obligations.ConfigurationPackets
  intro s c d env htab hc gone
  refine ⟨fun addr => ⟨fun hg => ?_, fun hg => ?_⟩, fun hp => ⟨fun addr hg => ?_, fun addr hlt hg => ?_, fun ha hg => ?_,
    fun ha addr haddr hg => ?_, fun n hn ha hg => ?_⟩, fun a ha hsent hread hr hl => ?_, fun f hf hb hd => ?_, fun f hf hd => ?_⟩
  · exact congrArg Host.Outcome.next (if_pos (.inr hg))
  · exact congrArg Host.Outcome.next (if_pos hg)
  · exact ⟨_, rfl, cfgRead_response hc hp hg⟩
  · refine ⟨_, congrArg Host.Outcome.next (cfgWrite_table hc hp hg hlt), respond_response _ _ _ _, ?_⟩
    rw [respond_tabWrites]
    rfl
  · obtain ⟨hrun, hill, hsh, ho⟩ := writeSeqCtrl_cell (c := c) (d := d) (env := env) htab.cells
    refine ⟨_, congrArg Host.Outcome.next (cfgWrite_seqCtrl hc hp ha hg), respond_response _ _ _ _, ?_⟩
    simp only [fun e => cell_congr (respond_cells c false none (writeSeqCtrl c d env s)) e]
    exact ⟨hrun, hill, hsh, ho⟩
  · refine ⟨_, congrArg Host.Outcome.next (cfgWrite_notThere hc hg ?_), respond_response _ _ _ _, respond_cells _ _ _ _,
      respond_counters _ _ _ _⟩
    unfold notThere
    rw [haddr, ha]
    rfl
  · refine ⟨_, congrArg Host.Outcome.next (cfgWrite_counter hc hp hn ha hg), ?_⟩
    cases hrun : (cell c s).run with
    | true => exact ⟨rfl, arrival_congr (respond_counters _ _ _ _) c n⟩
    | false => exact ⟨rfl, (arrival_congr (respond_counters _ _ _ _) c n).trans (Table.get_set_self _ htab.counters _ _)⟩
  · obtain ⟨hdata, hbusy, hdone, hagent⟩ :=
      cellWinDone_read (s := { s with agent := { s.agent with response := none } }) htab.win hread d
    refine ⟨_, congrArg Host.Outcome.next (cfgRsp_read ha hsent hr hl), hdata, hbusy, hdone, ?_, ?_⟩ <;> rw [hagent]
  · refine ⟨_, congrArg Host.Outcome.next (fabCalderaWrite_sets hf hb hd), ?_⟩
    rw [rd_wr_self htab.win (by decide : 0 + 3 ≤ 32)]
    exact Nat.mod_eq_of_lt (show fieldOf d 0 3 < 2 ^ 3 by omega)
  · refine ⟨_, congrArg Host.Outcome.next (fabCalderaWrite_refuses hf hd), (raise_writes _ s).rd ?_,
      rd_raise htab.win rfl (by decide : 4 < 32) ?_⟩
    · simp [F.FAB_CALDERA.ROWS, F.FAB_ERR_STS.CFG]
      omega
    · simp [F.FAB_ERR_STS.CFG]
      omega

end Sys2Proof.Machine
end

section
/-!
SUPPORT. Cells' byte memories, WAIT, and the upkeep of cell memory (R64, R76 to R78, R80, R81, R85, R87, R88, R90, R203, R388, R447).
-/
namespace Sys2Proof.Machine
open Sys2Proof

variable {s t u : State} {c n : Nat} {th : BitVec 24} {w : Dword} {env : MemEnv} {m : Meet}

/-! ### The byte memories -/

/-- Settles O4: every command keeps the memories' canonical form, and a step is a command with the rest of the queue in place. -/
theorem stepKeepsByteMemoriesCanonical : Obligations.StepKeepsByteMemoriesCanonical := by
  unfold Obligations.StepKeepsByteMemoriesCanonical
  intro s t h hstep
  rcases step_cases hstep with ⟨-, rfl⟩ | ⟨i, l, -, hexec⟩
  · exact h
  · exact (keeps_of_exec hexec).memory { h with }

/-! ### WAIT (R81) -/

/-- What a WAIT on counter `n` of a cell leaves: cell memory, the other cells and the other counters. -/
def BesidesCounter (c n : Nat) (s t : State) : Prop :=
  t.cellMem = s.cellMem ∧ (∀ d, d ≠ c → cell d t = cell d s) ∧
    ∀ d k, d * 32 + k ≠ c * 32 + n → arrival d k t = arrival d k s

/-- A threshold was taken from counter `n` of a cell, whose program counter stays (R81). -/
structure Took (c n : Nat) (th : BitVec 24) (s t : State) : Prop where
  form : Table.wf (fun _ => Cell.reset) t.cells = true
  pc : (cell c t).pc = (cell c s).pc
  counter : arrival c n t = arrival c n s - th
  besides : BesidesCounter c n s t

/-- A WAIT on counter `n` of a cell has completed (R81). -/
structure WaitDone (c n : Nat) (th : BitVec 24) (s t : State) : Prop where
  pc : (cell c t).pc = (cell c s).pc + 1
  stall : (cell c t).stall = .none
  counter : arrival c n t = arrival c n s - th
  besides : BesidesCounter c n s t

theorem BesidesCounter.trans (h : BesidesCounter c n s t) (k : BesidesCounter c n t u) : BesidesCounter c n s u := by
  obtain ⟨hm, ho, hr⟩ := h
  obtain ⟨km, ko, kr⟩ := k
  exact ⟨km.trans hm, fun d hd => (ko d hd).trans (ho d hd), fun d i hne => (kr d i hne).trans (hr d i hne)⟩

theorem BesidesCounter.modCell (h : BesidesCounter c n s t) (f : Cell → Cell) : BesidesCounter c n s (modCell c f t) :=
  h.trans ⟨rfl, fun _ hd => cell_modCell_ne hd _ _, fun _ _ _ => rfl⟩

theorem Took.modCell {f : Cell → Cell} (hf : ∀ x, (f x).pc = x.pc) (h : Took c n th s t) : Took c n th s (modCell c f t) :=
  ⟨Table.wf_set _ _ _ _ h.form, by rw [cell_modCell h.form, hf, h.pc], h.counter, h.besides.modCell f⟩

/-- A cell that took its threshold and does not stall goes on to the next word. -/
theorem Took.advance (h : Took c n th s t) (hstall : (cell c t).stall = .none) : WaitDone c n th s (advance c t) := by
  refine ⟨(advance_pc h.form c).trans (congrArg (· + 1) h.pc), ?_, h.counter, h.besides.modCell _⟩
  rw [Machine.advance, cell_modCell h.form]
  exact hstall

/-- A WAIT is done as well from where nothing has been taken yet. -/
theorem Took.waitDone (h : Took c n 0 s t) (k : WaitDone c n th t u) : WaitDone c n th s u :=
  ⟨k.pc.trans (congrArg (· + 1) h.pc), k.stall, by rw [k.counter, h.counter, BitVec.ofNat_eq_ofNat, BitVec.sub_zero],
    h.besides.trans k.besides⟩

theorem Steady.stall (h : Steady c s t) : (cell c t).stall = (cell c s).stall := by
  have := congrArg Cell.stall h.calm
  exact this

/-- Accesses of a cell's engines take nothing from the counters. -/
theorem Steady.took (h : Steady c s t) (hm : t.cellMem = s.cellMem) (hc : t.counters = s.counters) (n : Nat) : Took c n 0 s t :=
  ⟨h.form, h.pc, (arrival_congr hc c n).trans (BitVec.sub_zero _).symm, hm, h.other, fun d k _ => arrival_congr hc d k⟩

theorem takeThreshold_took (htab : s.TablesWf) (c n : Nat) (th : BitVec 24) : Took c n th s (takeThreshold c n th s) :=
  Took.modCell (t := setArrival c n (arrival c n s - th) s) (fun _ => rfl)
    ⟨htab.cells, rfl, Table.get_set_self _ htab.counters _ _, rfl, fun _ _ => rfl, fun _ _ hne => Table.get_set_ne _ _ _ hne⟩

theorem takeThreshold_stall (htab : s.TablesWf) (c n : Nat) (th : BitVec 24) :
    (cell c (takeThreshold c n th s)).stall = (cell c s).stall := by
  unfold takeThreshold
  rw [cell_modCell (s := setArrival c n _ s) htab.cells]
  rfl

theorem meets_iff : meets c n th s = true ↔ th.toNat ≤ (arrival c n s).toNat := decide_eq_true_iff

/-- With its counter at the threshold WAIT completes; a threshold of 0 is met and takes nothing. -/
theorem waitEffect_met (htab : s.TablesWf) (hstall : (cell c s).stall = .none)
    (hle : (waitThresh w).toNat ≤ (arrival c (waitCnt w) s).toNat) :
    WaitDone c (waitCnt w) (waitThresh w) s (waitEffect c w s) := by
  unfold waitEffect
  dsimp only
  split
  · rename_i h0
    rw [h0]
    exact ((Steady.refl htab.cells c).took rfl rfl _).advance hstall
  · rw [if_pos (meets_iff.2 hle)]
    exact (takeThreshold_took htab c _ _).advance ((takeThreshold_stall htab c _ _).trans hstall)

theorem waitEffect_short (hlt : (arrival c (waitCnt w) s).toNat < (waitThresh w).toNat) :
    waitEffect c w s = modCell c (fun x => { x with stall := .wait (waitCnt w) (waitThresh w) }) s := by
  have h0 : waitThresh w ≠ 0 := fun h0 => by rw [h0] at hlt; exact absurd hlt (Nat.not_lt_zero _)
  unfold waitEffect
  dsimp only
  rw [if_neg h0, if_neg (fun hle => absurd (meets_iff.1 hle) (Nat.not_le.2 hlt))]

theorem exec_wait (hc : canIssue c s = true) (hk : spells c env s = .wait) :
    exec (.wait c env) s = .next (waitEffect c (wordAt c env s) (seqChecks c env (fill c env s))) := by
  show execWait c env s = _
  unfold execWait
  rw [issue_run hc (decide_eq_true hk)]
  rfl

/-- A cell that may issue stalls on nothing. -/
theorem stall_of_canIssue (h : canIssue c s = true) : (cell c s).stall = .none := by
  unfold canIssue at h
  simp only [Bool.and_eq_true, decide_eq_true_eq] at h
  obtain ⟨⟨⟨-, hstall⟩, -⟩, -⟩ := h
  exact hstall

/-- A stalled WAIT whose threshold is met, in a cell that no reset acts on and that is not gated, takes it and goes on (R81, R388). -/
theorem waitComplete_done (htab : s.TablesWf) (hstall : (cell c s).stall = .wait n th) (hphase : (cell c s).phase = .none)
    (hgate : fieldOfCell c ∉ s.sched.gated) (hle : th.toNat ≤ (arrival c n s).toNat) : WaitDone c n th s (waitComplete c s) := by
  have hgo : (meets c n th s && decide ((cell c s).phase = .none) && !s.sched.gated.contains (fieldOfCell c)) = true := by
    simp [meets_iff.2 hle, hphase, hgate]
  have htook := takeThreshold_took htab c n th
  unfold waitComplete
  rw [hstall]
  dsimp only
  rw [if_pos hgo]
  exact (htook.modCell (f := fun x => { x with stall := .none }) fun _ => rfl).advance (by rw [cell_modCell htook.form])

/-- Settles O15: an issued WAIT takes its threshold or stalls by the counter that filling the buffer leaves, and a stalled one takes it
later. -/
theorem waitTakesItsThreshold : Obligations.WaitTakesItsThreshold := by
  unfold Obligations.WaitTakesItsThreshold
  intro s c env htab w rest
  obtain ⟨hs, -, hk⟩ := seqChecks_fill (c := c) (env := env) htab
  set v := seqChecks c env (fill c env s)
  have hv : v.TablesWf := (seqChecks_keeps (fill_keeps (Keeps.refl s))).tables htab
  have hcnt : v.counters = s.counters := hk.part .counters (by decide)
  have harr : arrival c (waitCnt w) v = arrival c (waitCnt w) s := arrival_congr hcnt _ _
  have hf : Took c (waitCnt w) 0 s v := hs.took (hk.part .cellMem (by decide)) hcnt _
  refine ⟨fun hc hw hle => ⟨_, exec_wait hc hw, ?_⟩, fun hc hw hlt => ⟨_, exec_wait hc hw, ?_⟩,
    fun n th hstall hphase hgate hle => ⟨_, rfl, ?_⟩⟩
  · obtain ⟨hpc, hnone, htaken, hrest⟩ :=
      hf.waitDone (waitEffect_met hv (hs.stall.trans (stall_of_canIssue hc)) (by rw [harr]; exact hle))
    exact ⟨hpc, hnone, htaken, hrest⟩
  · rw [waitEffect_short (by rw [harr]; exact hlt)]
    refine ⟨?_, ?_, harr, hf.besides.modCell _⟩
    · rw [cell_modCell hv.cells]
      exact hs.pc
    · rw [cell_modCell hv.cells]
  · obtain ⟨hpc, hnone, htaken, hrest⟩ := waitComplete_done htab hstall hphase hgate hle
    exact ⟨hpc, hnone, htaken, hrest⟩

/-! ### Collisions (R76 to R78) -/

theorem oldestAged_congr {x y : Cell} (h : y.waiting = x.waiting) (bank : Nat) (ps : List Nat) :
    oldestAged y bank ps = oldestAged x bank ps := by
  have hage : ∀ p, y.agedAt p bank = x.agedAt p bank := fun p => by unfold Cell.agedAt Cell.waits; rw [h]
  induction ps with
  | nil => rfl
  | cons p ps ih => rw [oldestAged, oldestAged, hage, ih]

/-- The access that a bank serves depends on the accesses that wait, the scrub read's age and the bank's class. -/
theorem served_congr (hwait : (cell c t).waiting = (cell c s).waiting) (haged : (cell c t).scrubAged = (cell c s).scrubAged)
    (hsince : (cell c t).scrubSince = (cell c s).scrubSince) (hclass : classOf c m.bank t = classOf c m.bank s) :
    served c m t = served c m s := by
  have hscrub : agedScrub c m t = agedScrub c m s := by
    unfold agedScrub
    dsimp only
    rw [haged, hsince]
  unfold served
  dsimp only
  rw [hclass, hscrub, oldestAged_congr hwait]

/-- It does not depend on the words that the cell remembers as corrected. -/
theorem served_corrected (htab : s.TablesWf) (f : Cell → List Nat) (at_ : Nat) :
    served c m (modCell c (fun x => { x with corrected := f x }) (atTime at_ s)) = served c m s := by
  have hcell := cell_modCell (s := atTime at_ s) htab.cells c (fun x => { x with corrected := f x })
  refine served_congr (congrArg Cell.waiting hcell :) (congrArg Cell.scrubAged hcell :)
    (congrArg Cell.scrubSince hcell :) ?_
  unfold classOf
  rw [hcell]
  rfl

/-- A captured collision is one register. -/
theorem captureColl_writes (win : Nat × Bool) : Regs [0x10200c + fieldOfCell c * 0x10000] s (captureColl c m win s) := by
  have hv : 0x10200c + fieldOfCell c * 0x10000 ∈ [0x10200c + fieldOfCell c * 0x10000] := List.mem_singleton_self _
  unfold captureColl
  exact regs_upd (wr_regs hv (wrB_regs hv (wr_regs hv (wr_regs hv (wr_regs hv (wr_regs hv (wr_regs hv (Regs.refl _ s))))))))

theorem captureColl_cnt (win : Nat × Bool) :
    cnt (F.MEM_COLL_CNT (fieldOfCell c)) (captureColl c m win s) = cnt (F.MEM_COLL_CNT (fieldOfCell c)) s :=
  (captureColl_writes win).cnt (by simp [F.MEM_COLL_CNT]) (by simp [F.MEM_COLL_CNT]; omega)

/-- Each loss to the access served is a collision counted (R77). -/
theorem collide_counts (hw : Table.wf resetWord s.win = true) {win : Nat × Bool} (h : served c m s = some win) :
    cnt (F.MEM_COLL_CNT (fieldOfCell c)) (collide c m s) = (cnt (F.MEM_COLL_CNT (fieldOfCell c)) s + (losers m win.1).length) % 2 ^ 64 := by
  unfold collide
  rw [h]
  dsimp only
  rw [when_fixed (cnt (F.MEM_COLL_CNT (fieldOfCell c))) (fun _ => captureColl_cnt win)]
  exact cnt_setCnt (s := modCell c _ s) hw _ _

/-! ### Scrubbing (R85, R88) -/

/-- The state after a scrub read's checks and collisions, before the scrubber goes on. -/
def scrubMet (c at_ : Nat) (env : MemEnv) (s : State) : State :=
  forEach env.checks (fun k => report k c) (forEach env.meets (collide c) (readChecks c [scrubNext c s] env (atTime at_ s)))

/-- How the scrubber of a cell goes on from a read in `s`, once `u` holds what the read met. -/
def scrubOn (c at_ : Nat) (s u : State) (x : Cell) : Cell :=
  let wrap := decide (scrubLimit c s ≤ scrubNext c s + 1)
  { x with
    scrubPos := if wrap then 0 else scrubNext c s + 1
    scrubAged := false
    scrubStamp := timestamp u
    passes := if wrap then x.passes + 1 else x.passes
    passAt := if wrap then some (cnt (F.MEM_SCRUB_PASS_CNT (fieldOfCell c)) u) else x.passAt
    passStart := if wrap then at_ else x.passStart
    passLate := if wrap then false else x.passLate }

/-- A scrub read is what it meets, then the scrubber's step, then perhaps the count of the field's passes. -/
theorem scrubRead_eq (hc : c < cellCount) (at_ : Nat) (env : MemEnv) (s : State) :
    ∃ b, scrubRead c at_ env s = when b (bump (F.MEM_SCRUB_PASS_CNT (fieldOfCell c)))
      (modCell c (scrubOn c at_ s (scrubMet c at_ env s)) (scrubMet c at_ env s)) := by
  unfold scrubRead
  rw [if_pos hc]
  exact ⟨_, rfl⟩

theorem scrubMet_steady (htab : s.TablesWf) (at_ : Nat) (env : MemEnv) : Steady c s (scrubMet c at_ env s) := by
  unfold scrubMet
  refine forEach_steady (fun k t ht => ht.of_cells ((report_same rfl (Same.refl [.mesh] t)).cells_eq (by decide)))
    (forEach_steady (fun _ _ => collide_steady) (readChecks_steady ?_))
  exact (Steady.refl htab.cells c).of_cells rfl

theorem Steady.passes (h : Steady c s t) : (cell c t).passes = (cell c s).passes := by
  have := congrArg Cell.passes h.calm
  exact this

/-- The count of passes leaves the cells. -/
theorem scrubRead_cells (hc : c < cellCount) (at_ : Nat) (env : MemEnv) (s : State) :
    (scrubRead c at_ env s).cells = (modCell c (scrubOn c at_ s (scrubMet c at_ env s)) (scrubMet c at_ env s)).cells := by
  obtain ⟨b, hb⟩ := scrubRead_eq hc at_ env s
  rw [hb]
  exact when_fixed (·.cells) (f := bump _) (fun _ => rfl) _

theorem scrubRead_cell (htab : s.TablesWf) (hc : c < cellCount) (at_ : Nat) (env : MemEnv) :
    cell c (scrubRead c at_ env s) = scrubOn c at_ s (scrubMet c at_ env s) (cell c (scrubMet c at_ env s)) := by
  rw [cell_congr (scrubRead_cells hc at_ env s), cell_modCell (scrubMet_steady htab at_ env).form]

theorem scrubRead_other (htab : s.TablesWf) (hc : c < cellCount) (at_ : Nat) (env : MemEnv) {d : Nat} (hd : d ≠ c) :
    cell d (scrubRead c at_ env s) = cell d s := by
  rw [cell_congr (scrubRead_cells hc at_ env s), cell_modCell_ne hd]
  exact (scrubMet_steady htab at_ env).other d hd

/-- A scrub read goes on to the next granule, or ends its pass and begins the next one. -/
theorem scrubRead_advances (htab : s.TablesWf) (hc : c < cellCount) (at_ : Nat) (env : MemEnv) :
    if scrubLimit c s ≤ scrubNext c s + 1 then
      (cell c (scrubRead c at_ env s)).scrubPos = 0 ∧ (cell c (scrubRead c at_ env s)).passes = (cell c s).passes + 1 ∧
        (cell c (scrubRead c at_ env s)).passStart = at_
    else (cell c (scrubRead c at_ env s)).scrubPos = scrubNext c s + 1 ∧
      (cell c (scrubRead c at_ env s)).passes = (cell c s).passes := by
  have hp := (scrubMet_steady (c := c) htab at_ env).passes
  rw [scrubRead_cell htab hc]
  split
  · rename_i hwrap
    simp [scrubOn, hwrap, hp]
  · rename_i hwrap
    simp [scrubOn, hwrap, hp]

/-- A read without errors forgets the words of its granules that were corrected, and changes nothing else. -/
theorem readChecks_clean (hce : env.ce = []) (hue : env.ue = []) (gs : List Nat) (s : State) :
    readChecks c gs env s = modCell c (fun x => { x with corrected := x.corrected.filter fun w => !gs.contains (w / 8) }) s := by
  unfold readChecks
  simp [hce, hue]

/-- A scrub read that finds no error and meets others once counts the ports that lose (R77, R78). -/
theorem scrubMet_counts (htab : s.TablesWf) {at_ : Nat} {win : Nat × Bool} (h : served c m s = some win) :
    cnt (F.MEM_COLL_CNT (fieldOfCell c)) (scrubMet c at_ { MemEnv.quiet with meets := [m] } s) =
      (cnt (F.MEM_COLL_CNT (fieldOfCell c)) s + (losers m win.1).length) % 2 ^ 64 := by
  unfold scrubMet
  rw [readChecks_clean rfl rfl]
  exact collide_counts (s := modCell c _ (atTime at_ s)) htab.win ((served_corrected htab _ at_).trans h)

/-- The count of the field's passes is no count of collisions. -/
theorem scrubRead_cnt (hc : c < cellCount) (at_ : Nat) (env : MemEnv) (s : State) :
    cnt (F.MEM_COLL_CNT (fieldOfCell c)) (scrubRead c at_ env s) = cnt (F.MEM_COLL_CNT (fieldOfCell c)) (scrubMet c at_ env s) := by
  obtain ⟨b, hb⟩ := scrubRead_eq hc at_ env s
  have hbump : ∀ t, cnt (F.MEM_COLL_CNT (fieldOfCell c)) (bump (F.MEM_SCRUB_PASS_CNT (fieldOfCell c)) t) =
      cnt (F.MEM_COLL_CNT (fieldOfCell c)) t := fun t => by
    unfold cnt
    rw [reg_bump_ne (by simp [F.MEM_COLL_CNT, F.MEM_SCRUB_PASS_CNT]) (by simp [F.MEM_COLL_CNT, F.MEM_SCRUB_PASS_CNT]; omega),
      reg_bump_ne (by simp [F.MEM_COLL_CNT, F.MEM_SCRUB_PASS_CNT]; omega) (by simp [F.MEM_COLL_CNT, F.MEM_SCRUB_PASS_CNT])]
  rw [hb, when_fixed (cnt (F.MEM_COLL_CNT (fieldOfCell c))) hbump]
  rfl

theorem accessAged_eq (hc : c < cellCount) (x : LosingAccess) (s : State) :
    accessAged c x s = modCell c (fun y => { y with waiting := y.waiting.map fun w =>
      if w.port = x.port ∧ w.bank = x.bank ∧ 4 ≤ w.losses ∧ w.agedAt = none then { w with agedAt := some x.cy } else w }) s :=
  if_pos hc

theorem eccWriteback_eq {g k : Nat} (h : g * 8 + k ∈ (cell c s).writeBack) :
    eccWriteback c g k s = modCell c (fun x => { x with
      writeBack := x.writeBack.filter (· != g * 8 + k), corrected := (g * 8 + k) :: x.corrected }) s :=
  if_pos (List.contains_iff_mem.2 h)

theorem scrubAged_eq (hc : c < cellCount) (s : State) :
    scrubAged c s = modCell c (fun x => if x.scrubAged then x else { x with scrubAged := true, scrubSince := s.now }) s := if_pos hc

theorem scrubLate_eq (hc : c < cellCount) {at_ : Nat} (hlate : 63000000000 < at_ - (cell c s).passStart)
    (hnew : (cell c s).passLate = false) :
    scrubLate c at_ s = raise (F.MEM_ERR_STS.SCRUB_LATE (fieldOfCell c))
      (modCell c (fun x => { x with passLate := true }) (atTime at_ s)) :=
  if_pos ⟨hc, hlate, by rw [hnew]; rfl⟩

theorem scrubLate_off_ne (f : Nat) : (F.MEM_ERR_STS.SCRUB_LATE f).off ∉ [0xa000, 0xa070, 0xa074] := by
  simp [F.MEM_ERR_STS.SCRUB_LATE]
  omega

/-- Settles O22: each command is one change of its cell; a scrub read also meets what its read meets, and a late pass raises its bit. -/
theorem cellMemoryUpkeep : Obligations.CellMemoryUpkeep := by
  unfold Obligations.CellMemoryUpkeep
  intro s c htab hc
  refine ⟨fun x => ⟨_, congrArg Host.Outcome.next (accessAged_eq hc x s), rfl, rfl, fun d hd => cell_modCell_ne hd _ _,
      cell_modCell htab.cells _ _⟩,
    fun g k hk => ⟨_, congrArg Host.Outcome.next (eccWriteback_eq hk), rfl, ?_, ?_, fun d hd => cell_modCell_ne hd _ _⟩,
    fun at_ env => ⟨_, rfl, ?_, scrubRead_advances htab hc at_ env, ?_, fun d hd => scrubRead_other htab hc at_ env hd, ?_⟩,
    ⟨_, congrArg Host.Outcome.next (scrubAged_eq hc s), ?_, rfl, rfl, fun d hd => cell_modCell_ne hd _ _⟩,
    fun at_ hlate hnew => ⟨_, congrArg Host.Outcome.next (scrubLate_eq hc hlate hnew), ?_, ?_, ?_⟩⟩
  · rw [cell_modCell htab.cells]
    simp
  · rw [cell_modCell htab.cells]
    exact List.mem_cons_self
  · exact (scrubRead_same rfl (Same.refl [.win, .cells, .mesh, .link, .ports, .ocl, .now] s)).part .cellMem (by decide)
  · rw [scrubRead_cell htab hc]
    rfl
  · rintro m win rfl hserved
    rw [scrubRead_cnt hc]
    exact scrubMet_counts htab hserved
  · rw [cell_modCell htab.cells]
    split
    · assumption
    · rfl
  · exact rd_raise (s := modCell c _ (atTime at_ s)) htab.win rfl (by decide : 5 < 32) (scrubLate_off_ne _)
  · rw [cell_congr ((raise_same_refl _ _).cells_eq (by decide)), cell_modCell (s := atTime at_ s) htab.cells]
  · exact (raise_same_refl _ _).part .cellMem (by decide)

end Sys2Proof.Machine
end

section
/-!
SUPPORT. Precision events, recipes and auto-widen (R120 to R122, R125, R127 to R129, R133, R154).
-/
namespace Sys2Proof.Machine
open Sys2Proof

variable {s : State} {m l : Nat}

/-! ### Raising a status bit -/

@[simp] theorem raise_prec (f : Fld) (s : State) : (raise f s).prec = s.prec := (raise_same_refl f s).part .prec (by decide)

/-- A field outside the event path's registers reads after a raise as after the write of the bit. -/
theorem rd_raise_wr {f : Fld} (hq : f.off ∉ [0xa000, 0xa070, 0xa074]) (g : Fld) (s : State) : rd f (raise g s) = rd f (wr g 1 s) := by
  have hflush (t : State) : rd f (flushEvents t) = rd f t :=
    (flushEvents_regs (ρ := [0xa000, 0xa070, 0xa074]) rfl (Regs.refl _ _)).rd hq
  have hqueue (t : State) (o n : Nat) : rd f (queueEvent o n t) = rd f t :=
    (queueEvent_regs (ρ := [0xa000, 0xa070, 0xa074]) rfl (Regs.refl _ _)).rd hq
  unfold raise raiseQuiet
  rw [hflush]
  dsimp only
  split
  · rfl
  · split
    · exact hqueue _ _ _
    · rfl

/-! ### What auto-widen leaves of a layer's events -/

/-- The event counters of a layer, and its three event flags, are the same. -/
structure SameEvents (x y : LayerPrec) : Prop where
  whey : y.whey = x.whey
  sat : y.sat = x.sat
  nonfin : y.nonfin = x.nonfin
  flags : ∀ i < 3, y.flags.getLsbD i = x.flags.getLsbD i

theorem SameEvents.refl (x : LayerPrec) : SameEvents x x := ⟨rfl, rfl, rfl, fun _ _ => rfl⟩

/-- The flags of auto-widen, bits 3 and 4, are none of the event flags. -/
theorem getLsbD_or_widenFlag {i : Nat} (hi : i < 3) (x : BitVec 5) :
    (x ||| 0x08).getLsbD i = x.getLsbD i ∧ (x ||| 0x10).getLsbD i = x.getLsbD i := by
  have : i = 0 ∨ i = 1 ∨ i = 2 := by omega
  rcases this with rfl | rfl | rfl <;> simp

theorem layerPrec_setLayerPrec (h : Table.wf (fun _ => LayerPrec.reset) s.prec.layers = true) (m l : Nat) (x : LayerPrec) :
    layerPrec m l (setLayerPrec m l x s) = x := Table.get_set_self _ h _ _

theorem layerPrec_congr {t : State} (h : t.prec.layers = s.prec.layers) (m l : Nat) : layerPrec m l t = layerPrec m l s := by
  unfold layerPrec
  rw [h]

theorem keepWide_win (m l : Nat) (s : State) : (keepWide m l s).win = s.win := by
  unfold keepWide
  split <;> rfl

theorem keepWide_layers (m l : Nat) (s : State) : (keepWide m l s).prec.layers = s.prec.layers := by
  unfold keepWide
  split <;> rfl

theorem keepWide_queue (m l : Nat) (s : State) : (keepWide m l s).prec.queue = s.prec.queue := by
  unfold keepWide
  split <;> rfl

theorem grantWiden_layers (m l : Nat) (s : State) : (grantWiden m l s).prec.layers =
    (setLayerPrec m l { layerPrec m l s with flags := (layerPrec m l s).flags ||| 0x10, granted := true, remain := 64 } s).prec.layers := rfl

/-- A refusal is in its layer's flag and in `PREC_FRAME.REFUSED`; a storm has not been looked for yet. -/
def refusalCounted (m l : Nat) (s : State) : State :=
  let s1 := setLayerPrec m l { layerPrec m l s with flags := (layerPrec m l s).flags ||| 0x08 } s
  wr F.PREC_FRAME.REFUSED (satN 8 (rd F.PREC_FRAME.REFUSED s1 + 1)) s1

/-- A refusal is counted, and may begin a storm. -/
theorem refuseWiden_cases (m l : Nat) (s : State) : refuseWiden m l s = refusalCounted m l s ∨
    ∃ u, refuseWiden m l s = raise F.PREC_STS.STORM u ∧ u.win = (refusalCounted m l s).win ∧
      u.prec = { (refusalCounted m l s).prec with stormed := true } := by
  unfold refuseWiden
  dsimp only
  split
  · exact .inr ⟨_, rfl, rfl, rfl⟩
  · exact .inl rfl

theorem refusalCounted_prec (m l : Nat) (s : State) : (refusalCounted m l s).prec =
    (setLayerPrec m l { layerPrec m l s with flags := (layerPrec m l s).flags ||| 0x08 } s).prec := rfl

theorem rd_flag_refusalCounted (m l : Nat) (s : State) : rd F.PREC_STS.FLAG (refusalCounted m l s) = rd F.PREC_STS.FLAG s :=
  rd_wr_ne (by decide) _ _

theorem refuseWiden_layers (m l : Nat) (s : State) : (refuseWiden m l s).prec.layers = (refusalCounted m l s).prec.layers := by
  rcases refuseWiden_cases m l s with h | ⟨u, h, -, hu⟩
  · rw [h]
  · rw [h, raise_prec, hu]

theorem refuseWiden_queue (m l : Nat) (s : State) : (refuseWiden m l s).prec.queue = s.prec.queue := by
  rcases refuseWiden_cases m l s with h | ⟨u, h, -, hu⟩
  · rw [h, refusalCounted_prec]
    rfl
  · rw [h, raise_prec, hu, refusalCounted_prec]
    rfl

theorem rd_flag_refuseWiden (h : s.TablesWf) (m l : Nat) : rd F.PREC_STS.FLAG (refuseWiden m l s) = rd F.PREC_STS.FLAG s := by
  rcases refuseWiden_cases m l s with hr | ⟨u, hr, hw, -⟩
  · rw [hr, rd_flag_refusalCounted]
  · have hwin : Table.wf resetWord u.win = true := by
      rw [hw]
      exact win_wr h.win _ _
    rw [hr, rd_raise_wr (by decide), rd_wr_field (f := F.PREC_STS.FLAG) (g := F.PREC_STS.STORM) hwin rfl (by decide) (by decide),
      rd_congr hw, rd_flag_refusalCounted]

/-- A raised WHEY_OVF flag may widen its layer, keep it wide or be refused: its events stay as collected. -/
theorem requestWiden_events (h : s.TablesWf) (m l : Nat) : SameEvents (layerPrec m l s) (layerPrec m l (requestWiden m l s)) := by
  unfold requestWiden
  dsimp only
  split
  · rw [layerPrec_congr (keepWide_layers m l _), layerPrec_setLayerPrec h.layers]
    exact ⟨rfl, rfl, rfl, fun _ _ => rfl⟩
  · split
    · split
      · rw [layerPrec_congr (grantWiden_layers m l s), layerPrec_setLayerPrec h.layers]
        exact ⟨rfl, rfl, rfl, fun i hi => (getLsbD_or_widenFlag hi _).2⟩
      · rw [layerPrec_congr (refuseWiden_layers m l s), layerPrec_congr (congrArg Prec.layers (refusalCounted_prec m l s)),
          layerPrec_setLayerPrec h.layers]
        exact ⟨rfl, rfl, rfl, fun i hi => (getLsbD_or_widenFlag hi _).1⟩
    · exact .refl _

theorem requestWiden_queue (m l : Nat) (s : State) : (requestWiden m l s).prec.queue = s.prec.queue := by
  unfold requestWiden
  dsimp only
  split
  · exact keepWide_queue m l _
  · split
    · split
      · rfl
      · exact refuseWiden_queue m l s
    · rfl

theorem rd_flag_requestWiden (h : s.TablesWf) (m l : Nat) : rd F.PREC_STS.FLAG (requestWiden m l s) = rd F.PREC_STS.FLAG s := by
  unfold requestWiden
  dsimp only
  split
  · exact rd_congr (keepWide_win m l _) _
  · split
    · split
      · exact rd_wr_ne (by decide) _ _
      · exact rd_flag_refuseWiden h m l
    · rfl

/-! ### Collecting events -/

/-- A layer's flags and counters with one more event of a kind (R121). -/
def LayerPrec.noted (x : LayerPrec) (kind : Nat) : LayerPrec :=
  match kind with
  | 0 => { x with flags := x.flags ||| 0x01, whey := x.whey + 1 }
  | 1 => { x with flags := x.flags ||| 0x02, sat := x.sat + 1 }
  | _ => { x with flags := x.flags ||| 0x04, nonfin := x.nonfin + 1 }

/-- One event is in its layer's flag and counter, and the bits that tell of it are raised; auto-widen has not seen it yet. -/
def eventNoted (e : PrecEvent) (s : State) : State :=
  raise (bitFld O.PREC_MODEL_STS e.model) (raise F.PREC_STS.FLAG
    (setLayerPrec e.model e.layer ((layerPrec e.model e.layer s).noted e.kind) s))

theorem collectEvent_eq (e : PrecEvent) (s : State) :
    collectEvent e s = if e.kind = 0 then requestWiden e.model e.layer (eventNoted e s) else eventNoted e s := rfl

theorem eventNoted_keeps (e : PrecEvent) (s : State) : Keeps s (eventNoted e s) :=
  raise_keeps (raise_keeps (setLayerPrec_keeps (Keeps.refl s)))

theorem eventNoted_prec (e : PrecEvent) (s : State) : (eventNoted e s).prec =
    (setLayerPrec e.model e.layer ((layerPrec e.model e.layer s).noted e.kind) s).prec := by
  unfold eventNoted
  rw [raise_prec, raise_prec]

theorem layerPrec_eventNoted (h : s.TablesWf) (e : PrecEvent) :
    layerPrec e.model e.layer (eventNoted e s) = (layerPrec e.model e.layer s).noted e.kind := by
  rw [layerPrec_congr (congrArg Prec.layers (eventNoted_prec e s)), layerPrec_setLayerPrec h.layers]

theorem rd_flag_eventNoted (h : s.TablesWf) (e : PrecEvent) : rd F.PREC_STS.FLAG (eventNoted e s) = 1 := by
  unfold eventNoted
  rw [rd_raise_wr (by decide), rd_wr_ne (by decide : F.PREC_STS.FLAG.off ≠ O.PREC_MODEL_STS)]
  exact rd_raise ((setLayerPrec_keeps (Keeps.refl s)).tables h).win rfl (by decide) (by decide)

theorem collectEvent_queue (e : PrecEvent) (s : State) : (collectEvent e s).prec.queue = s.prec.queue := by
  have hn : (eventNoted e s).prec.queue = s.prec.queue := by
    rw [eventNoted_prec]
    rfl
  rw [collectEvent_eq]
  split
  · exact (requestWiden_queue _ _ _).trans hn
  · exact hn

theorem rd_flag_collectEvent (h : s.TablesWf) (e : PrecEvent) : rd F.PREC_STS.FLAG (collectEvent e s) = 1 := by
  rw [collectEvent_eq]
  split
  · rw [rd_flag_requestWiden ((eventNoted_keeps e s).tables h)]
    exact rd_flag_eventNoted h e
  · exact rd_flag_eventNoted h e

theorem collectEvent_events (h : s.TablesWf) (e : PrecEvent) :
    SameEvents ((layerPrec e.model e.layer s).noted e.kind) (layerPrec e.model e.layer (collectEvent e s)) := by
  rw [collectEvent_eq, ← layerPrec_eventNoted h]
  split
  · exact requestWiden_events ((eventNoted_keeps e s).tables h) _ _
  · exact .refl _

theorem insertEvent_ne_nil (e : PrecEvent) (q : List PrecEvent) : insertEvent e q ≠ [] := by
  cases q with
  | nil => exact List.cons_ne_nil _ _
  | cons x xs =>
    unfold insertEvent
    split <;> exact List.cons_ne_nil _ _

/-- Putting events in order loses none: where one waited, one is collected. -/
theorem sortedEvents_ne_nil {q : List PrecEvent} (hq : q ≠ []) : q.foldl (fun l e => insertEvent e l) [] ≠ [] := by
  rw [← List.dropLast_append_getLast hq, List.foldl_append]
  exact insertEvent_ne_nil _ _

/-- FLAG stands after the last event collected. -/
theorem rd_flag_forEach_collectEvent (h : s.TablesWf) {q : List PrecEvent} (hq : q ≠ []) :
    rd F.PREC_STS.FLAG (forEach q collectEvent s) = 1 := by
  have hk : Keeps s (forEach q.dropLast collectEvent s) := forEach_keeps (fun _ _ => collectEvent_keeps) (Keeps.refl s)
  rw [← List.dropLast_append_getLast hq]
  unfold forEach at hk ⊢
  rw [List.foldl_append]
  exact rd_flag_collectEvent (hk.tables h) _

theorem collectEvents_queue (s : State) : (collectEvents s).prec.queue = [] := forEach_fixed (·.prec.queue) collectEvent_queue _ _

/-- The queue is emptied before its events are taken. -/
theorem collectEvents_start_keeps (s : State) : Keeps s { s with prec := { s.prec with queue := [] } } :=
  keeps_upd (Keeps.refl s) rfl rfl rfl rfl rfl rfl rfl rfl rfl rfl rfl rfl rfl rfl rfl rfl rfl rfl rfl rfl rfl

theorem rd_flag_collectEvents (h : s.TablesWf) (hq : s.prec.queue ≠ []) : rd F.PREC_STS.FLAG (collectEvents s) = 1 :=
  rd_flag_forEach_collectEvent ((collectEvents_start_keeps s).tables h) (sortedEvents_ne_nil hq)

theorem collectEvents_single {e : PrecEvent} (hq : s.prec.queue = [e]) :
    collectEvents s = collectEvent e { s with prec := { s.prec with queue := [] } } := by
  unfold collectEvents
  rw [hq]
  rfl

/-- A lone event counts in its own layer, and raises that layer's flag of its kind. -/
theorem collectEvents_lone (h : s.TablesWf) {kind : Nat} (hq : s.prec.queue = [⟨m, l, kind⟩]) :
    SameEvents ((layerPrec m l s).noted kind) (layerPrec m l (collectEvents s)) := by
  rw [collectEvents_single hq]
  exact collectEvent_events ((collectEvents_start_keeps s).tables h) ⟨m, l, kind⟩

/-! ### Recipes and returns to narrow -/

/-- A return to narrow is queued where the count of a widened layer is at zero and nothing of the layer waits or is carried. -/
theorem widenEnd_queues (hg : (layerPrec m l s).granted = true) (hw : (layerPrec m l s).wide = true) (hr : (layerPrec m l s).remain = 0)
    (hwait : ∀ w ∈ s.prec.waiting, ¬(w.model = m ∧ w.layer = l)) (hcar : ∀ w ∈ s.prec.carried, ¬(w.model = m ∧ w.layer = l))
    (hfix : ((s.prec.fixed.filter fun w => w.change.model == m && w.change.layer == l).getLast?.any fun w => !w.change.wide) = false) :
    widenEnd m l s = queueWiden m l false s := by
  have hnone {q : List WidenChange} (hq : ∀ w ∈ q, ¬(w.model = m ∧ w.layer = l)) :
      (q.any fun w => w.model == m && w.layer == l) = false := List.any_eq_false.2 (by simpa using hq)
  unfold widenEnd
  simp only [hg, hw, hr, hnone hwait, hnone hcar, hfix]
  rfl

theorem modelRecipeWrite_eq (hm : m < 16) (v : Word) (s : State) : modelRecipeWrite m v s =
    when (bitAt v 8) (wr (F.MODEL_RECIPE.PENDING m) 1) (wr (F.MODEL_RECIPE.NEXT m) (fieldOf v 4 4) s) := if_neg (by omega)

theorem rd_next_modelRecipeWrite (h : s.TablesWf) (hm : m < 16) (v : Word) :
    rd (F.MODEL_RECIPE.NEXT m) (modelRecipeWrite m v s) = fieldOf v 4 4 := by
  have hn : rd (F.MODEL_RECIPE.NEXT m) (wr (F.MODEL_RECIPE.NEXT m) (fieldOf v 4 4) s) = fieldOf v 4 4 := by
    rw [rd_wr_self h.win (by decide : 4 + 4 ≤ 32)]
    exact Nat.mod_eq_of_lt (Nat.mod_lt _ (by decide))
  rw [modelRecipeWrite_eq hm]
  unfold when
  split
  · exact (rd_wr_field (f := F.MODEL_RECIPE.NEXT m) (g := F.MODEL_RECIPE.PENDING m) (win_wr h.win _ _) rfl (by decide : 8 + 1 ≤ 32)
      (.inl (by decide : 4 + 4 ≤ 8)) 1).trans hn
  · exact hn

theorem rd_pending_modelRecipeWrite (h : s.TablesWf) (hm : m < 16) (v : Word) : rd (F.MODEL_RECIPE.PENDING m) (modelRecipeWrite m v s) =
    if bitAt v 8 then 1 else rd (F.MODEL_RECIPE.PENDING m) s := by
  rw [modelRecipeWrite_eq hm]
  unfold when
  split
  · rw [rd_wr_self (win_wr h.win _ _) (by decide : 8 + 1 ≤ 32)]
    rfl
  · exact rd_wr_field (f := F.MODEL_RECIPE.PENDING m) (g := F.MODEL_RECIPE.NEXT m) h.win rfl (by decide : 4 + 4 ≤ 32)
      (.inr (by decide : 4 + 4 ≤ 8)) _

theorem recipeWinDataWrite_busy (h : recipeBusy (rd F.RECIPE_WIN_SEL.RECIPE s) s = true) (v : Word) :
    recipeWinDataWrite v s = raise F.PREC_STS.RECIPE_ERR s := if_pos h

theorem recipeWinDataWrite_idle (h : recipeBusy (rd F.RECIPE_WIN_SEL.RECIPE s) s = false) (v : Word) :
    recipeWinDataWrite v s = setRecipeEntry (rd F.RECIPE_WIN_SEL.RECIPE s) (rd F.RECIPE_WIN_SEL.LAYER s) v s :=
  if_neg (by rw [h]; decide)

theorem recipeEntry_set (h : s.TablesWf) (r l : Nat) (v : Word) : recipeEntry r l (setRecipeEntry r l v s) = v :=
  Table.get_set_self _ h.recipes _ _

theorem recipeEntry_set_ne {r k : Nat} (h : k * 256 + l ≠ r * 256 + m) (v : Word) (s : State) :
    recipeEntry k l (setRecipeEntry r m v s) = recipeEntry k l s := Table.get_set_ne _ _ _ h

/-- Settles O23: a lone event is noted in its layer before auto-widen looks at it, and the recipe commands are one write each. -/
theorem precisionCollectAndRecipes : Obligations.PrecisionCollectAndRecipes := by
  unfold Obligations.PrecisionCollectAndRecipes
  intro s h
  refine ⟨⟨_, rfl, collectEvents_queue s, rd_flag_collectEvents h, fun m l kind hq => ?_⟩,
    fun m l hg hw hr hwait hcar hfix => ⟨_, congrArg Host.Outcome.next (widenEnd_queues hg hw hr hwait hcar hfix), rfl, rfl⟩,
    fun m v hm => ⟨_, rfl, rd_next_modelRecipeWrite h hm v, rd_pending_modelRecipeWrite h hm v⟩,
    fun v hb => ⟨_, congrArg Host.Outcome.next (recipeWinDataWrite_idle hb v), rfl, recipeEntry_set h _ _ v,
      fun r l hne => recipeEntry_set_ne hne v s⟩,
    fun v hb => ⟨_, congrArg Host.Outcome.next (recipeWinDataWrite_busy hb v), rd_raise h.win rfl (by decide) (by decide), raise_prec _ s⟩⟩
  obtain ⟨hwhey, hsat, hnonfin, hflags⟩ := collectEvents_lone h hq
  refine ⟨?_, ?_, ?_⟩ <;> rintro rfl
  · exact ⟨hwhey, (hflags 0 (by decide)).trans (by simp [LayerPrec.noted])⟩
  · exact ⟨hsat, (hflags 1 (by decide)).trans (by simp [LayerPrec.noted])⟩
  · exact ⟨hnonfin, (hflags 2 (by decide)).trans (by simp [LayerPrec.noted])⟩

end Sys2Proof.Machine
end

section
/-!
SUPPORT. What a frame start leaves of `PREC_FRAME` (R130, R133, R163): rings, requests, the pair, the tune job and telemetry write registers
of their own.
-/
namespace Sys2Proof.Machine
open Sys2Proof

variable {s t : State}

/-- The word of `PREC_FRAME`: WIDE_NOW and REFUSED. -/
def frameWord (s : State) : Word := reg O.PREC_FRAME s

theorem frameWord_congr (h : t.win = s.win) : frameWord t = frameWord s := reg_congr h _

theorem frameWord_same {l : List Part} (h : Same l s t) (hl : Part.win ∉ l) : frameWord t = frameWord s := frameWord_congr (h.part .win hl)

theorem frameWord_regs {ρ : List Nat} (h : Regs ρ s t) (hρ : O.PREC_FRAME ∉ ρ) : frameWord t = frameWord s := h.reg _ hρ

theorem rd_refused_congr (h : frameWord t = frameWord s) : rd F.PREC_FRAME.REFUSED t = rd F.PREC_FRAME.REFUSED s :=
  congrArg (fun w : Word => bitsOf w.toNat 8 8) h

/-! ### Registers, messages and charges -/

theorem frameWord_wr {f : Fld} (hf : O.PREC_FRAME ≠ f.off) (v : Nat) (s : State) : frameWord (wr f v s) = frameWord s := reg_wr_ne hf v s

theorem frameWord_bump {o : Nat} (h : O.PREC_FRAME ≠ o) (h4 : O.PREC_FRAME ≠ o + 4) (s : State) : frameWord (bump o s) = frameWord s :=
  reg_bump_ne h h4 s

theorem frameWord_raise {f : Fld} (hf : O.PREC_FRAME ≠ f.off) (s : State) : frameWord (raise f s) = frameWord s :=
  frameWord_regs (raise_writes f s) (List.not_mem_cons_of_ne_of_not_mem hf (by decide))

theorem frameWord_pldm (code detail : Nat) (s : State) : frameWord (pldm code detail s) = frameWord s :=
  frameWord_regs (pldm_regs (ρ := [0x100, 0x130, 0x134, 0xa000, 0xa070, 0xa074]) rfl (Regs.refl _ _)) (by decide)

theorem frameWord_sendWr (a n : Nat) (data : List Byte) (marks : List AckMark) (s : State) :
    frameWord (sendWr a n data marks s) = frameWord s :=
  frameWord_regs (sendWr_regs (ρ := [0xa000, 0xa070, 0xa074]) rfl (Regs.refl _ _)) (by decide)

theorem frameWord_sendWrPart (a : Nat) (data : List Byte) (marks : List AckMark) (s : State) :
    frameWord (sendWrPart a data marks s) = frameWord s :=
  frameWord_regs (sendWrPart_regs (ρ := [0xa000, 0xa070, 0xa074]) rfl (Regs.refl _ _)) (by decide)

theorem frameWord_sendUnwatch (a : Nat) (s : State) : frameWord (sendUnwatch a s) = frameWord s :=
  frameWord_regs (sendUnwatch_regs (ρ := [0xa000, 0xa070, 0xa074]) rfl (Regs.refl _ _)) (by decide)

theorem frameWord_hostRead (a n : Nat) (watch : Bool) (use : ReadUse) (s : State) : frameWord (hostRead a n watch use s) = frameWord s :=
  frameWord_regs (hostRead_regs (ρ := [0xa000, 0xa070, 0xa074]) rfl (Regs.refl _ _)) (by decide)

theorem frameWord_interrupt (v : Nat) (s : State) : frameWord (interrupt v s) = frameWord s :=
  frameWord_regs (interrupt_regs (ρ := [0xa000, 0xa070, 0xa074]) rfl (Regs.refl _ _)) (by decide)

theorem frameWord_putSpan (m : SpanMsg) (st : Nat) (s : State) : frameWord (putSpan m st s) = frameWord s :=
  frameWord_regs (putSpan_regs (ρ := [0xa000, 0xa070, 0xa074]) rfl (Regs.refl _ _)) (by decide)

theorem frameWord_sendSpan (op model arg : Nat) (data : List Slot16) (s : State) : frameWord (sendSpan op model arg data s) = frameWord s :=
  frameWord_regs (sendSpan_regs (ρ := [0xa000, 0xa070, 0xa074]) rfl (Regs.refl _ _)) (by decide)

/-- Of the registers of an activity's budget, which lie 0x40 apart, none falls on `PREC_FRAME`. -/
theorem frame_notin_chargeRegs (a : Nat) : O.PREC_FRAME ∉ chargeRegs a := by
  simp [chargeRegs, O.PREC_FRAME, O.BUDGET_STS, O.BUDGET_HELD, O.USED_FLIT, O.USED_STACK, O.USED_MJ]
  omega

theorem frameWord_charge (a kind n : Nat) (s : State) : frameWord (charge a kind n s) = frameWord s :=
  frameWord_regs (charge_regs (subN_refl _) (Regs.refl _ _)) (frame_notin_chargeRegs a)

theorem frameWord_chargeEnergy (a kind n : Nat) (s : State) : frameWord (chargeEnergy a kind n s) = frameWord s := frameWord_charge a 2 _ s

/-! ### Output rings -/

theorem frameWord_writeEntry (r : Nat) (e : OutEntry) (s : State) : frameWord (writeEntry r e s) = frameWord s := by
  unfold writeEntry
  extract_lets base o prod mark und s1 s2 s3
  have h3 : frameWord s3 = frameWord s :=
    (frameWord_sendWrPart _ _ _ _).trans ((frameWord_sendWr _ _ _ _ _).trans (frameWord_congr rfl))
  exact (when_fixed frameWord (frameWord_interrupt _) s3).trans h3

theorem frameWord_drainRing (n r : Nat) (s : State) : frameWord (drainRing n r s) = frameWord s := by
  induction n generalizing s with
  | zero => rfl
  | succ n ih =>
    unfold drainRing
    dsimp only
    split
    · rfl
    · split
      · exact (ih _).trans ((frameWord_writeEntry _ _ _).trans (frameWord_congr rfl))
      · rfl

theorem frameWord_drain (r : Nat) (s : State) : frameWord (drain r s) = frameWord s := frameWord_drainRing _ r s

theorem frameWord_putEntry (r : Nat) (e : OutEntry) (s : State) : frameWord (putEntry r e s) = frameWord s :=
  (frameWord_drain r _).trans (frameWord_congr rfl)

theorem frameWord_putCmdDone (r model reqId status data : Nat) (s : State) :
    frameWord (putCmdDone r model reqId status data s) = frameWord s := frameWord_putEntry r _ s

theorem frameWord_putDone (r model reqId status : Nat) (s : State) : frameWord (putDone r model reqId status s) = frameWord s :=
  frameWord_putEntry r _ s

theorem frameWord_putDecision (r model reqId code reason : Nat) (s : State) :
    frameWord (putDecision r model reqId code reason s) = frameWord s := frameWord_putEntry r _ s

theorem frameWord_putError (r model reqId code : Nat) (s : State) : frameWord (putError r model reqId code s) = frameWord s :=
  (frameWord_putEntry r _ _).trans (frameWord_raise (by decide) s)

theorem frameWord_flushHeldList (r : Nat) (l : List OutEntry) (s : State) : frameWord (flushHeldList r l s) = frameWord s := by
  induction l generalizing s with
  | nil => rfl
  | cons e es ih =>
    unfold flushHeldList
    split
    · exact (ih _).trans ((frameWord_writeEntry r e _).trans (frameWord_congr rfl))
    · rfl

theorem frameWord_flushHeld (r : Nat) (s : State) : frameWord (flushHeld r s) = frameWord s := by
  unfold flushHeld
  split
  · rfl
  · exact (frameWord_drain r _).trans (frameWord_flushHeldList r _ s)

/-! ### Sequences, handles and requests that end -/

theorem frameWord_returnResv (m n : Nat) (s : State) : frameWord (returnResv m n s) = frameWord s :=
  frameWord_wr (by simp only [F.POOL_RESV.VALUE, O.PREC_FRAME]; omega) _ s

/-- A sequence slot's page list and sinter stores go. -/
theorem frameWord_slotCleared (q : Nat) (x : SeqSlot) (ps : List PageEntry) (s : State) :
    frameWord (setSeqSlot q x (forgetKv q (clearList q ps s))) = frameWord s :=
  frameWord_same (setSeqSlot_same rfl (forgetKv_same rfl (clearList_same rfl (Same.refl [.kv, .stackMem] s)))) (by decide)

theorem frameWord_releaseSeq (q : Nat) (kept : Bool) (s : State) : frameWord (releaseSeq q kept s) = frameWord s := by
  unfold releaseSeq
  dsimp only
  split
  · rfl
  · exact (frameWord_slotCleared _ _ _ _).trans ((frameWord_congr rfl).trans (frameWord_returnResv _ _ s))

theorem frameWord_finishPfx (h : Nat) (s : State) : frameWord (finishPfx h s) = frameWord s := by
  unfold finishPfx
  split
  · rfl
  · exact (forEach_fixed frameWord (fun r t => frameWord_putCmdDone _ _ _ _ _ t) _ _).trans (frameWord_congr rfl)

theorem frameWord_retirePfx (h : Nat) (s : State) : frameWord (retirePfx h s) = frameWord s := by
  unfold retirePfx
  split
  · rfl
  · split
    · split
      · exact frameWord_finishPfx h s
      · exact frameWord_congr rfl
    · rfl

theorem frameWord_unusePfx (h : Nat) (s : State) : frameWord (unusePfx h s) = frameWord s :=
  (frameWord_retirePfx h _).trans (frameWord_congr rfl)

theorem frameWord_withdrawPfx (h : Nat) (s : State) : frameWord (withdrawPfx h s) = frameWord s :=
  (frameWord_retirePfx h _).trans (frameWord_congr rfl)

theorem frameWord_endEntry (q : Request) (status : Nat) (s : State) : frameWord (endEntry q status s) = frameWord s := by
  unfold endEntry
  split
  · exact frameWord_putCmdDone _ _ _ _ _ s
  · exact frameWord_putDone _ _ _ _ s

theorem frameWord_endRequest (id status : Nat) (s : State) : frameWord (endRequest id status s) = frameWord s := by
  unfold endRequest
  split
  · rfl
  · next q _ =>
    extract_lets svc s1 s2 s3 s4 s5 s6
    calc frameWord (forEach q.cancels (fun c => putCmdDone c.2.1 c.1 c.2.2 0 0) s6) = frameWord s6 :=
        forEach_fixed frameWord (fun c t => frameWord_putCmdDone _ _ _ _ _ t) _ _
      _ = frameWord s5 := when_fixed frameWord (fun t => frameWord_congr (t := dropPfx q.handle t) rfl) s5
      _ = frameWord s4 := when_fixed frameWord (frameWord_unusePfx _) s4
      _ = frameWord s3 := when_fixed frameWord (frameWord_releaseSeq _ _) s3
      _ = frameWord s2 := when_fixed frameWord (fun t =>
        (frameWord_raise (by decide) _).trans (frameWord_bump (by decide) (by decide) t)) s2
      _ = frameWord s1 := frameWord_endEntry q status s1
      _ = frameWord s := frameWord_congr rfl

theorem frameWord_endWhenQuiet (id status : Nat) (s : State) : frameWord (endWhenQuiet id status s) = frameWord s := by
  unfold endWhenQuiet
  split
  · rfl
  · split
    · exact frameWord_congr rfl
    · exact frameWord_endRequest id status s

/-! ### Admission -/

theorem frameWord_decide (q : Request) (code reason seq : Nat) (entry : Bool) (s : State) :
    frameWord (decide_ q code reason seq entry s) = frameWord s :=
  (when_fixed frameWord (frameWord_putDecision _ _ _ _ _) _).trans (frameWord_congr rfl)

theorem frameWord_rejectReq (q : Request) (reason : Nat) (s : State) : frameWord (rejectReq q reason s) = frameWord s :=
  calc frameWord (rejectReq q reason s)
      = frameWord (bump F.ADM_REJECT_CNT (raise F.SVC_STS.REJECT (decide_ q 2 reason 0 true s))) := frameWord_endRequest q.id 8 _
    _ = frameWord (raise F.SVC_STS.REJECT (decide_ q 2 reason 0 true s)) := frameWord_bump (by decide) (by decide) _
    _ = frameWord (decide_ q 2 reason 0 true s) := frameWord_raise (by decide) _
    _ = frameWord s := frameWord_decide q 2 reason 0 true s

theorem frameWord_deferReq (q : Request) (reason : Nat) (s : State) : frameWord (deferReq q reason s) = frameWord s :=
  (frameWord_bump (by decide) (by decide) _).trans ((frameWord_decide q 1 reason 0 _ _).trans (frameWord_congr rfl))

theorem frameWord_admitInto (q : Request) (seq : Nat) (s : State) : frameWord (admitInto q seq s) = frameWord s := by
  unfold admitInto
  extract_lets n ps base x s1
  have h1 : frameWord s1 = frameWord s :=
    (frameWord_same (setPages_same rfl (setSeqSlot_same rfl (Same.refl [.stackMem, .kv] _))) (by decide)).trans
      (frameWord_wr (by simp only [F.POOL_RESV.VALUE, O.PREC_FRAME]; omega) _ s)
  exact (frameWord_congr rfl).trans h1

theorem frameWord_modRequest (id : Nat) (f : Request → Request) (s : State) : frameWord (modRequest id f s) = frameWord s :=
  frameWord_congr rfl

theorem frameWord_readTokens (a left : Nat) (use : ReadUse) (s : State) : frameWord (readTokens a left use s) = frameWord s :=
  frameWord_hostRead _ _ false use s

theorem frameWord_admitReq (q : Request) (s : State) : frameWord (admitReq q s) = frameWord s := by
  unfold admitReq
  split
  · rfl
  · next seq _ =>
    extract_lets s1
    have h1 : frameWord s1 = frameWord s :=
      (frameWord_bump (by decide) (by decide) _).trans ((frameWord_decide q 0 0 seq true _).trans (frameWord_admitInto q seq s))
    exact (frameWord_readTokens _ _ _ _).trans ((frameWord_modRequest _ _ s1).trans h1)

theorem frameWord_consider (id : Nat) (s : State) : frameWord (consider id s) = frameWord s := by
  unfold consider
  split
  · rfl
  · next q _ =>
    split
    · exact (frameWord_putError _ _ _ _ _).trans ((when_fixed frameWord (frameWord_unusePfx _) _).trans (frameWord_congr rfl))
    · split
      · exact frameWord_rejectReq q _ s
      · split
        · exact frameWord_admitReq q s
        · exact frameWord_deferReq q _ s
        · exact frameWord_rejectReq q _ s

theorem frameWord_admission (s : State) : frameWord (admission s) = frameWord s := by
  unfold admission
  split
  · exact forEach_fixed frameWord frameWord_consider _ s
  · rfl

theorem frameWord_rollUse (m : Nat) (s : State) : frameWord (rollUse m s) = frameWord s := by
  unfold rollUse
  split
  · rfl
  · exact (frameWord_wr (by simp only [F.MODEL_USE.VALUE, O.PREC_FRAME]; omega) _ _).trans (frameWord_congr rfl)

/-! ### The tune job -/

theorem frameWord_unwatchRing (k : Nat) (s : State) : frameWord (unwatchRing k s) = frameWord s := by
  unfold unwatchRing
  dsimp only
  split
  · exact (frameWord_sendUnwatch _ _).trans (frameWord_congr rfl)
  · rfl

theorem frameWord_watchRing (k : Nat) (s : State) : frameWord (watchRing k s) = frameWord s := by
  unfold watchRing
  split
  · rfl
  · exact (frameWord_hostRead _ _ _ _ _).trans (frameWord_congr rfl)

theorem frameWord_watchTune (s : State) : frameWord (watchTune s) = frameWord s := by
  unfold watchTune
  split
  · exact frameWord_unwatchRing 17 s
  · split
    · exact frameWord_watchRing 17 s
    · rfl

theorem frameWord_tuneEnd (st fail : Nat) (s : State) : frameWord (tuneEnd st fail s) = frameWord s :=
  (frameWord_watchTune _).trans ((frameWord_raise (by decide) _).trans
    ((frameWord_wr (by decide) _ _).trans (frameWord_wr (by decide) _ s)))

theorem frameWord_dropBlocks (s : State) : frameWord (dropBlocks s) = frameWord s :=
  (frameWord_congr rfl).trans (forEach_fixed frameWord (fun q t => frameWord_releaseSeq q false t) (tuneSeqs s) s)

theorem frameWord_tuneFail (cause : Nat) (s : State) : frameWord (tuneFail cause s) = frameWord s := by
  unfold tuneFail
  split
  · exact (frameWord_tuneEnd _ _ _).trans ((frameWord_congr rfl).trans (frameWord_dropBlocks s))
  · rfl

theorem frameWord_tuneStopped (s : State) : frameWord (tuneStopped s) = frameWord s := when_fixed frameWord (frameWord_tuneFail 4) s

/-! ### Telemetry -/

theorem frameWord_gatherFields (s : State) : frameWord (gatherFields s) = frameWord s :=
  (frameWord_chargeEnergy _ _ _ _).trans (frameWord_charge _ _ _ s)

theorem frameWord_writeTele (rs : List (List Byte)) (s : State) : frameWord (writeTele rs s) = frameWord s := by
  induction rs generalizing s with
  | nil => rfl
  | cons r rs ih => exact (ih _).trans ((frameWord_sendWr _ _ _ _ _).trans (frameWord_congr rfl))

theorem frameWord_rebase (s : State) : frameWord (rebase s) = frameWord s :=
  frameWord_same (rebase_same rfl (Same.refl [.svc] s)) (by decide)

theorem frameWord_endPeriod (frame : Nat) (s : State) : frameWord (endPeriod frame s) = frameWord s := by
  unfold endPeriod
  extract_lets svc s1 u rs s2
  have hu : frameWord u = frameWord s := by
    have h1 : frameWord s1 = frameWord s := frameWord_congr rfl
    unfold u
    split
    · exact h1
    · exact (frameWord_gatherFields s1).trans h1
  split
  · exact (frameWord_raise (by decide) _).trans ((frameWord_bump (by decide) (by decide) u).trans hu)
  · exact (frameWord_rebase _).trans ((frameWord_sendWrPart _ _ _ _).trans ((frameWord_writeTele rs u).trans hu))

theorem frameWord_telemetry (frame : Nat) (s : State) : frameWord (telemetry frame s) = frameWord s := by
  unfold telemetry
  dsimp only
  split
  · split
    · exact (frameWord_endPeriod _ _).trans (frameWord_congr rfl)
    · exact frameWord_congr rfl
  · rfl

/-! ### The pair -/

theorem frameWord_abandonLedger (i : Nat) (s : State) : frameWord (abandonLedger i s) = frameWord s := by
  unfold abandonLedger
  split
  · exact (frameWord_wr (by decide) _ _).trans (frameWord_congr rfl)
  · rfl

theorem frameWord_abandonStep (e : LedgerEntry) (s : State) : frameWord (abandonStep e s) = frameWord s := by
  unfold abandonStep
  refine (frameWord_abandonLedger _ _).trans ((frameWord_same (outOfStep_same rfl (Same.refl [.svc] _)) (by decide)).trans ?_)
  exact (forEach_fixed frameWord (fun q t => frameWord_congr (t := discardKv q t) rfl) _ _).trans
    (forEach_fixed frameWord (fun r t => frameWord_congr (t := unreserve r t) rfl) _ s)

theorem frameWord_endSplit (s : State) : frameWord (endSplit s) = frameWord s :=
  (forEach_fixed frameWord (fun id t => frameWord_endRequest id 7 t) _ _).trans
    (forEach_fixed frameWord (fun _ t => forEach_fixed frameWord frameWord_abandonStep _ t) _ s)

theorem frameWord_leavePrimary (s : State) : frameWord (leavePrimary s) = frameWord s := by
  unfold leavePrimary flushRings
  exact (forEach_fixed frameWord frameWord_flushHeld _ _).trans (frameWord_congr rfl)

theorem frameWord_captureLoss (n m p : Nat) (seq : Option Nat) (s : State) : frameWord (captureLoss n m p seq s) = frameWord s := by
  have hpage : O.PREC_FRAME ≠ 0x1300044 + n * 0x10000 := by simp only [O.PREC_FRAME]; omega
  have hseq : O.PREC_FRAME ≠ 0x1300048 + n * 0x10000 := by simp only [O.PREC_FRAME]; omega
  unfold captureLoss
  split
  · rfl
  · exact (frameWord_wr (f := F.HS_UE_SEQ.V n) hseq _ _).trans ((frameWord_wr (f := F.HS_UE_SEQ.PATROL n) hseq _ _).trans
      ((frameWord_wr (f := F.HS_UE_SEQ.SHARED n) hseq _ _).trans ((frameWord_wr (f := F.HS_UE_SEQ.SEQ n) hseq _ _).trans
        ((frameWord_wr (f := F.HS_UE_PAGE.MODEL n) hpage _ _).trans (frameWord_wr (f := F.HS_UE_PAGE.PAGE n) hpage _ s)))))

theorem frameWord_loseKvPage (m p : Nat) (s : State) : frameWord (loseKvPage m p s) = frameWord s :=
  (forEach_fixed frameWord frameWord_withdrawPfx _ _).trans
    ((forEach_fixed frameWord (fun id t => frameWord_endWhenQuiet id 0x06 t) _ _).trans (frameWord_raise (by decide) s))

theorem frameWord_loseRequested (r : PageReq) (s : State) : frameWord (loseRequested r s) = frameWord s := by
  unfold loseRequested
  split
  · exact (frameWord_loseKvPage _ _ _).trans (frameWord_captureLoss _ _ _ _ s)
  · rfl

theorem frameWord_losePageReqs (s : State) : frameWord (losePageReqs s) = frameWord s :=
  (forEach_fixed frameWord frameWord_loseRequested _ _).trans (frameWord_congr rfl)

theorem frameWord_leaveSplit (s : State) : frameWord (leaveSplit s) = frameWord s :=
  frameWord_same (leaveSplit_same rfl (Same.refl [.kv, .pair] s)) (by decide)

theorem frameWord_isolatePair (s : State) : frameWord (isolatePair s) = frameWord s := by
  unfold isolatePair
  extract_lets st s1 s2
  have h1 : frameWord s1 = frameWord s := (frameWord_congr rfl).trans
    ((frameWord_pldm _ _ _).trans ((frameWord_raise (by decide) _).trans (frameWord_wr (f := F.PAIR_STATE.STATE) (by decide) 6 s)))
  have h2 : frameWord s2 = frameWord s := (when_fixed frameWord frameWord_leaveSplit s1).trans h1
  split
  · split
    · exact (frameWord_endSplit s2).trans h2
    · exact (frameWord_leavePrimary _).trans ((frameWord_losePageReqs s2).trans h2)
  · exact (frameWord_congr rfl).trans h2

theorem frameWord_watchPartner (s : State) : frameWord (watchPartner s) = frameWord s := by
  unfold watchPartner
  dsimp only
  split
  · split
    · exact (frameWord_isolatePair _).trans (frameWord_congr rfl)
    · exact frameWord_congr rfl
  · exact frameWord_congr rfl

theorem frameWord_chargeSpan (a c n : Nat) (s : State) : frameWord (chargeSpan a c n s) = frameWord s :=
  (frameWord_chargeEnergy _ _ _ _).trans (frameWord_charge _ _ _ s)

theorem frameWord_chargeBytes (a n : Nat) (s : State) : frameWord (chargeBytes a n s) = frameWord s :=
  (frameWord_chargeEnergy _ _ _ _).trans (frameWord_charge _ _ _ s)

theorem frameWord_chargeMirror (m : SpanMsg) (recv : Bool) (s : State) : frameWord (chargeMirror m recv s) = frameWord s := by
  have hcount (n : Nat) : frameWord (bumpBy F.MIRROR_BYTE_CNT n s) = frameWord s := reg_setCnt_ne (by decide) (by decide) _ s
  unfold chargeMirror chargeMirrorSlots
  dsimp only
  split
  · exact (frameWord_chargeSpan _ _ _ _).trans ((frameWord_chargeBytes _ _ _).trans (hcount _))
  · exact (frameWord_chargeSpan _ _ _ _).trans ((when_fixed frameWord (frameWord_chargeBytes _ _) _).trans (hcount _))

theorem frameWord_flushMirrorList (ms : List SpanMsg) (s : State) : frameWord (flushMirrorList ms s).2 = frameWord s := by
  induction ms generalizing s with
  | nil => rfl
  | cons m ms ih =>
    unfold flushMirrorList
    split
    · rfl
    · exact (ih _).trans ((frameWord_putSpan _ _ _).trans (frameWord_chargeMirror m false s))

theorem frameWord_flushMirror (s : State) : frameWord (flushMirror s) = frameWord s :=
  (frameWord_congr (s := (flushMirrorList s.pair.mirrorQ s).2) rfl).trans (frameWord_flushMirrorList _ s)

theorem frameWord_takePsn (st : Nat) (s : State) : frameWord (takePsn st s) = frameWord s :=
  frameWord_same (takePsn_same rfl (Same.refl [.pair] s)) (by decide)

theorem frameWord_mirrorMsg (op model arg : Nat) (data : List Slot16) (s : State) :
    frameWord (mirrorMsg op model arg data s) = frameWord s :=
  (frameWord_flushMirror _).trans ((frameWord_congr (s := takePsn 1 s) rfl).trans (frameWord_takePsn 1 s))

theorem frameWord_sendFrame (s : State) : frameWord (sendFrame s) = frameWord s := by
  unfold sendFrame
  extract_lets s1
  refine (frameWord_congr rfl).trans (?_ : frameWord s1 = frameWord s)
  unfold s1
  split
  · rfl
  · split
    · exact forEach_fixed frameWord (fun i t => frameWord_mirrorMsg _ _ _ _ t) _ s
    · exact frameWord_sendSpan _ _ _ _ s

/-! ### The order of a frame's work -/

theorem frameWord_retryHeader (k : Nat) (s : State) : frameWord (retryHeader k s) = frameWord s := by
  unfold retryHeader
  split
  · rfl
  · exact frameWord_hostRead _ _ _ _ s

theorem frameWord_rereadWatches (s : State) : frameWord (rereadWatches s) = frameWord s := by
  unfold rereadWatches
  split
  · exact (forEach_fixed frameWord frameWord_retryHeader _ _).trans (forEach_fixed frameWord (fun w t => frameWord_hostRead _ _ _ _ t) _ s)
  · rfl

/-- What a frame start does before the refusals are counted afresh. -/
def frameOpened (s : State) : State := s |> checkInvariants |> rollBudgets |> forEach (List.range 16) switchRecipe

/-- What it does after them. -/
def frameClosed (frame : Nat) (s : State) : State :=
  s |> admission |> clearLate |> forEach (List.range 16) rollUse |> forEach (List.range 16) ageReceive |> ageReleases |> ageOcl |> agePast
    |> tuneStopped |> telemetry frame |> watchPartner |> sendFrame |> rereadWatches

theorem frameActs_eq (frame : Nat) (s : State) : frameActs frame s = frameClosed frame (resetRefused (frameOpened s)) := rfl

theorem frameOpened_keeps (s : State) : Keeps s (frameOpened s) :=
  forEach_keeps (fun _ _ => switchRecipe_keeps) (rollBudgets_keeps (checkInvariants_keeps (Keeps.refl s)))

theorem frameWord_aged (s : State) :
    frameWord (s |> forEach (List.range 16) ageReceive |> ageReleases |> ageOcl |> agePast) = frameWord s :=
  frameWord_same (agePast_same rfl (ageOcl_same rfl (ageReleases_same rfl
    (forEach_same (fun _ _ => ageReceive_same rfl) (Same.refl [.svc, .kv, .link, .ports, .faults] s))))) (by decide)

theorem frameWord_frameClosed (frame : Nat) (s : State) : frameWord (frameClosed frame s) = frameWord s := by
  unfold frameClosed
  rw [frameWord_rereadWatches, frameWord_sendFrame, frameWord_watchPartner, frameWord_telemetry, frameWord_tuneStopped, frameWord_aged,
    forEach_fixed frameWord frameWord_rollUse, frameWord_same (clearLate_same rfl (Same.refl [.svc] _)) (by decide), frameWord_admission]

/-- The refusals of the frame that starts are counted from 0 (R130). -/
theorem rd_refused_frameActs (h : s.TablesWf) (frame : Nat) : rd F.PREC_FRAME.REFUSED (frameActs frame s) = 0 := by
  rw [frameActs_eq, rd_refused_congr (frameWord_frameClosed frame _)]
  exact rd_wr_self (s := { frameOpened s with prec := { (frameOpened s).prec with stormed := false } })
    ((frameOpened_keeps s).tables h).win (by decide) 0

theorem frameActs_beat (frame : Nat) (s : State) : (frameActs frame s).beat = s.beat :=
  (frameActs_same rfl (Same.refl [.win, .cells, .counters, .cellMem, .stackMem, .mesh, .prec, .sched, .budget, .kv, .svc, .ledger, .tune,
    .link, .ports, .ocl, .pair, .faults, .power, .boot, .agent, .mgmt, .free] s)).part .beat (by decide)

end Sys2Proof.Machine
end

section
/-!
SUPPORT. Beats without edges, and frame starts (R130, R159 to R161, R163, R499).
-/
namespace Sys2Proof.Machine
open Sys2Proof

variable {s : State}

/-! ### A beat begins, a missing beat is counted -/

theorem beginBeat_keeps_refl (at_ : Nat) (s : State) : Keeps s (beginBeat at_ s) := beginBeat_keeps (Keeps.refl s)

/-- A beat that begins is counted in `BEAT_NO`, and its instant is noted. -/
theorem beginBeat_win (at_ : Nat) (s : State) : (beginBeat at_ s).win = (setCnt F.BEAT_NO ((beatNo s + 1) % 2 ^ 48) s).win := by
  unfold beginBeat when
  dsimp only
  split <;> rfl

theorem beginBeat_beat (at_ : Nat) (s : State) : (beginBeat at_ s).beat = { s.beat with beatStart := at_, lengthened := false } := by
  unfold beginBeat when
  dsimp only
  split <;> rfl

theorem beginBeat_events (at_ : Nat) (s : State) : (beginBeat at_ s).mgmt.events_ = s.mgmt.events_ := by
  unfold beginBeat when
  dsimp only
  split <;> rfl

theorem beatNo_beginBeat (h : s.TablesWf) (at_ : Nat) : beatNo (beginBeat at_ s) = (beatNo s + 1) % 2 ^ 48 := by
  unfold beatNo
  rw [cnt_congr (beginBeat_win at_ s), cnt_setCnt h.win]
  exact Nat.mod_eq_of_lt ((Nat.mod_lt _ (by decide)).trans (by decide))

theorem rd_beginBeat {f : Fld} (h : f.off ≠ F.BEAT_NO) (h4 : f.off ≠ F.BEAT_NO + 4) (at_ : Nat) (s : State) :
    rd f (beginBeat at_ s) = rd f s := by
  rw [rd_congr (beginBeat_win at_ s)]
  unfold rd
  rw [reg_setCnt_ne h h4]

theorem countBeat_beatStart (s : State) : (countBeat s).beat.beatStart = s.beat.beatStart := rfl

theorem countBeat_mode (h : s.TablesWf) : beatMode (countBeat s) = beatMode s :=
  rd_wr_field (f := F.BEAT_STATE.MODE) (g := F.BEAT_STATE.HO_BEATS) (s := { s with beat := { s.beat with counted := s.beat.counted + 1 } })
    h.win rfl (by decide) (by decide) _

theorem rd_hoBeats_countBeat (h : s.TablesWf) : rd F.BEAT_STATE.HO_BEATS (countBeat s) = min 4096 (s.beat.counted + 1) := by
  have hw := rd_wr_self (s := { s with beat := { s.beat with counted := s.beat.counted + 1 } }) h.win
    (by decide : F.BEAT_STATE.HO_BEATS.lo + F.BEAT_STATE.HO_BEATS.w ≤ 32) (min 4096 (s.beat.counted + 1))
  exact hw.trans (Nat.mod_eq_of_lt ((Nat.min_le_left _ _).trans_lt (by decide)))

theorem beatNo_wr {f : Fld} (h : F.BEAT_NO ≠ f.off) (h4 : F.BEAT_NO + 4 ≠ f.off) (v : Nat) (s : State) : beatNo (wr f v s) = beatNo s :=
  cnt_wr_ne h h4 v s

theorem beatNo_countBeat (s : State) : beatNo (countBeat s) = beatNo s := (beatNo_wr (by decide) (by decide) _ _).trans (cnt_congr rfl _)

theorem beatNo_raise {f : Fld} (h : F.BEAT_NO ≠ f.off) (h4 : F.BEAT_NO + 4 ≠ f.off) (s : State) : beatNo (raise f s) = beatNo s :=
  (raise_writes f s).cnt (List.not_mem_cons_of_ne_of_not_mem h (by decide)) (List.not_mem_cons_of_ne_of_not_mem h4 (by decide))

/-! ### Internal beats, HOLDOVER and loss -/

theorem internalBeatAt_due {at_ : Nat} (h : internalDue at_ s = true) : internalBeatAt at_ s = internalBeat (atTime at_ s) := if_pos h

/-- With no loss due, an internal beat begins one period after the last and may be counted towards the loss. -/
theorem internalBeat_cases (h : lossDue s = false) : internalBeat s = beginBeat (s.beat.beatStart + internalPeriod s) s ∨
    internalBeat s = countBeat (beginBeat (s.beat.beatStart + internalPeriod s) s) := by
  unfold internalBeat
  rw [if_neg (by rw [h]; decide)]
  split
  · exact .inl rfl
  · exact .inr rfl

theorem internalBeat_begins (hwf : s.TablesWf) (h : lossDue s = false) :
    beatNo (internalBeat s) = (beatNo s + 1) % 2 ^ 48 ∧ (internalBeat s).beat.beatStart = s.beat.beatStart + internalPeriod s := by
  have hno := beatNo_beginBeat hwf (s.beat.beatStart + internalPeriod s)
  have hstart := congrArg Beat.beatStart (beginBeat_beat (s.beat.beatStart + internalPeriod s) s)
  rcases internalBeat_cases h with e | e
  · rw [e]
    exact ⟨hno, hstart⟩
  · rw [e]
    exact ⟨(beatNo_countBeat _).trans hno, (countBeat_beatStart _).trans hstart⟩

theorem internalBeatAt_begins (h : s.TablesWf) {at_ : Nat} (hdue : internalDue at_ s = true) (hloss : lossDue s = false) :
    beatNo (internalBeatAt at_ s) = (beatNo s + 1) % 2 ^ 48 ∧
      (internalBeatAt at_ s).beat.beatStart = s.beat.beatStart + internalPeriod s := by
  rw [internalBeatAt_due hdue]
  exact internalBeat_begins ((atTime_keeps (Keeps.refl s)).tables h) hloss

/-- HOLDOVER is entered; its first missing beat has not begun yet. -/
def holdoverEntered (s : State) : State :=
  wr F.BEAT_STATE.MODE 1 { s with beat := { s.beat with streak := [], counted := 0, ownPeriod := beatPeriod s } }

theorem holdover_due {at_ : Nat} (hm : beatMode s = 0) (hd : holdoverDue at_ s = true) : holdover at_ s =
    raise F.BEAT_STS.HOLDOVER (countBeat (beginBeat (s.beat.beatStart + beatPeriod s) (holdoverEntered (atTime at_ s)))) :=
  if_pos ⟨hm, hd⟩

theorem holdoverEntered_keeps (s : State) : Keeps s (holdoverEntered s) :=
  wr_keeps (keeps_upd (Keeps.refl s) rfl rfl rfl rfl rfl rfl rfl rfl rfl rfl rfl rfl rfl rfl rfl rfl rfl rfl rfl rfl rfl)

theorem beatMode_holdoverEntered (h : s.TablesWf) : beatMode (holdoverEntered s) = 1 :=
  rd_wr_self (s := { s with beat := { s.beat with streak := [], counted := 0, ownPeriod := beatPeriod s } }) h.win (by decide) 1

theorem beatNo_holdoverEntered (s : State) : beatNo (holdoverEntered s) = beatNo s :=
  (beatNo_wr (by decide) (by decide) _ _).trans (cnt_congr rfl _)

/-- A raised bit of `BEAT_STS` leaves the mode and the count of missing beats. -/
theorem rd_beatState_raise {f g : Fld} (hf : f.off = F.BEAT_STATE.MODE.off) (hg : g.off = F.BEAT_STS.LOST.off) (s : State) :
    rd f (raise g s) = rd f s := (raise_writes g s).rd (by rw [hf, hg]; decide)

/-- The first missing beat begins, is counted, and HOLDOVER shows (R160). -/
theorem holdover_begins (h : s.TablesWf) {at_ : Nat} (hm : beatMode s = 0) (hd : holdoverDue at_ s = true) :
    beatMode (holdover at_ s) = 1 ∧ rd F.BEAT_STS.HOLDOVER (holdover at_ s) = 1 ∧ rd F.BEAT_STATE.HO_BEATS (holdover at_ s) = 1 ∧
      beatNo (holdover at_ s) = (beatNo s + 1) % 2 ^ 48 := by
  have hat : (atTime at_ s).TablesWf := (atTime_keeps (Keeps.refl s)).tables h
  have h1 := (holdoverEntered_keeps (atTime at_ s)).tables hat
  have h2 := (beginBeat_keeps_refl (s.beat.beatStart + beatPeriod s) (holdoverEntered (atTime at_ s))).tables h1
  have h3 := (countBeat_keeps (Keeps.refl _)).tables h2
  rw [holdover_due hm hd]
  refine ⟨?_, rd_raise h3.win rfl (by decide) (by decide), ?_, ?_⟩
  · unfold beatMode
    rw [rd_beatState_raise (f := F.BEAT_STATE.MODE) (g := F.BEAT_STS.HOLDOVER) rfl rfl]
    exact (countBeat_mode h2).trans ((rd_beginBeat (by decide) (by decide) _ _).trans (beatMode_holdoverEntered hat))
  · rw [rd_beatState_raise (f := F.BEAT_STATE.HO_BEATS) (g := F.BEAT_STS.HOLDOVER) rfl rfl, rd_hoBeats_countBeat h2, beginBeat_beat]
    rfl
  · rw [beatNo_raise (by decide) (by decide), beatNo_countBeat, beatNo_beginBeat h1, beatNo_holdoverEntered]
    rfl

/-- Queuing an event for the BMC writes no register of BEAT. -/
theorem rd_pldm {f : Fld} (hf : 0x4000 ≤ f.off ∧ f.off < 0x5000) (code detail : Nat) (s : State) :
    rd f (pldm code detail s) = rd f s :=
  (pldm_regs (ρ := [0x100, 0x130, 0x134, 0xa000, 0xa070, 0xa074]) rfl (Regs.refl _ _)).rd (by simp; omega)

theorem beatNo_pldm (code detail : Nat) (s : State) : beatNo (pldm code detail s) = beatNo s :=
  (pldm_regs (ρ := [0x100, 0x130, 0x134, 0xa000, 0xa070, 0xa074]) rfl (Regs.refl _ _)).cnt (by decide) (by decide)

theorem raise_mgmt (f : Fld) (s : State) : (raise f s).mgmt = s.mgmt := (raise_same_refl f s).part .mgmt (by decide)

/-- The mode is LOST; the loss does not show in `BEAT_STS` yet, nor is it reported. -/
def lossEntered (s : State) : State := wr F.BEAT_STATE.MODE 2 { s with beat := { s.beat with ownPeriod := internalPeriod s } }

/-- With the loss due, the beat that follows the last counted one begins and BEAT is lost. -/
theorem beatLoss_due {at_ : Nat} (h : internalDue at_ s = true) (hl : lossDue s = true) :
    beatLoss at_ s = loseBeat (beginBeat (s.beat.beatStart + internalPeriod s) (atTime at_ s)) :=
  (if_pos (Bool.and_eq_true_iff.2 ⟨h, hl⟩)).trans (if_pos hl)

theorem loseBeat_eq (s : State) : loseBeat s = pldm 0x23 0 (raise F.BEAT_STS.LOST (lossEntered s)) := rfl

theorem beatMode_lossEntered (h : s.TablesWf) : beatMode (lossEntered s) = 2 :=
  rd_wr_self (s := { s with beat := { s.beat with ownPeriod := internalPeriod s } }) h.win (by decide) 2

theorem beatNo_lossEntered (s : State) : beatNo (lossEntered s) = beatNo s :=
  (beatNo_wr (by decide) (by decide) _ _).trans (cnt_congr rfl _)

/-- The loss of BEAT shows, and is reported where the queue has room (R161, R499). -/
theorem loseBeat_shows (h : s.TablesWf) : beatMode (loseBeat s) = 2 ∧ rd F.BEAT_STS.LOST (loseBeat s) = 1 ∧
    beatNo (loseBeat s) = beatNo s := by
  rw [loseBeat_eq]
  refine ⟨?_, ?_, ?_⟩
  · exact (rd_pldm (by decide) _ _ _).trans
      ((rd_beatState_raise (f := F.BEAT_STATE.MODE) (g := F.BEAT_STS.LOST) rfl rfl _).trans (beatMode_lossEntered h))
  · rw [rd_pldm (by decide)]
    exact rd_raise (s := lossEntered s) (win_wr h.win _ _) rfl (by decide) (by decide)
  · rw [beatNo_pldm, beatNo_raise (by decide) (by decide), beatNo_lossEntered]

theorem loseBeat_reports (h : s.mgmt.events_.length < 64) : (loseBeat s).mgmt.events_.getLast?.map (·.code) = some 0x23 := by
  have hm : (raise F.BEAT_STS.LOST (lossEntered s)).mgmt.events_ = s.mgmt.events_ := by
    rw [raise_mgmt]
    rfl
  rw [loseBeat_eq, pldm_room (by rw [hm]; exact h), List.getLast?_concat]
  rfl

/-- BEAT_LOSS: one more beat, then the loss. -/
theorem beatLoss_loses (h : s.TablesWf) {at_ : Nat} (hdue : internalDue at_ s = true) (hloss : lossDue s = true)
    (hroom : s.mgmt.events_.length < 64) :
    beatMode (beatLoss at_ s) = 2 ∧ rd F.BEAT_STS.LOST (beatLoss at_ s) = 1 ∧ beatNo (beatLoss at_ s) = (beatNo s + 1) % 2 ^ 48 ∧
      (beatLoss at_ s).mgmt.events_.getLast?.map (·.code) = some 0x23 := by
  have hat : (atTime at_ s).TablesWf := (atTime_keeps (Keeps.refl s)).tables h
  obtain ⟨hmode, hlost, hno⟩ := loseBeat_shows ((beginBeat_keeps_refl (s.beat.beatStart + internalPeriod s) (atTime at_ s)).tables hat)
  rw [beatLoss_due hdue hloss]
  exact ⟨hmode, hlost, hno.trans (beatNo_beginBeat hat _), loseBeat_reports (by rw [beginBeat_events]; exact hroom)⟩

/-! ### Frame starts -/

/-- One more frame has started. -/
def frameCounted (s : State) : State := { s with beat := { s.beat with frames := s.beat.frames + 1 } }

theorem frameCounted_keeps (s : State) : Keeps s (frameCounted s) :=
  keeps_upd (Keeps.refl s) rfl rfl rfl rfl rfl rfl rfl rfl rfl rfl rfl rfl rfl rfl rfl rfl rfl rfl rfl rfl rfl

theorem frameStart_due {at_ : Nat} (h : s.beat.frames * beatsPerFrame ≤ beatNo s) :
    frameStart at_ s = frameActs s.beat.frames (frameCounted (atTime at_ s)) := if_pos h

theorem frameStart_waits {at_ : Nat} (h : beatNo s < s.beat.frames * beatsPerFrame) : frameStart at_ s = atTime at_ s :=
  if_neg (Nat.not_le.2 h)

theorem frameStart_starts (h : s.TablesWf) {at_ : Nat} (hdue : s.beat.frames * beatsPerFrame ≤ beatNo s) :
    (frameStart at_ s).beat.frames = s.beat.frames + 1 ∧ rd F.PREC_FRAME.REFUSED (frameStart at_ s) = 0 := by
  have hat : (atTime at_ s).TablesWf := (atTime_keeps (Keeps.refl s)).tables h
  rw [frameStart_due hdue]
  exact ⟨congrArg Beat.frames (frameActs_beat _ _), rd_refused_frameActs ((frameCounted_keeps _).tables hat) _⟩

/-- Settles O28: a beat without an edge is `beginBeat` with one more count or a change of mode; of a frame's work nothing after the reset of
the refusals writes REFUSED, and none of it touches the count of frames. -/
theorem beatsWithoutEdgesAndFrames : Obligations.BeatsWithoutEdgesAndFrames := by
  unfold Obligations.BeatsWithoutEdgesAndFrames
  intro s at_ h
  exact ⟨fun hdue hloss => ⟨_, rfl, internalBeatAt_begins h hdue hloss⟩,
    fun hmode hdue => ⟨_, rfl, holdover_begins h hmode hdue⟩,
    fun hdue hloss hroom => ⟨_, rfl, beatLoss_loses h hdue hloss hroom⟩,
    fun hdue => ⟨_, rfl, frameStart_starts h hdue⟩,
    fun hwait => congrArg Host.Outcome.next (frameStart_waits hwait)⟩

end Sys2Proof.Machine
end

section
/-!
SUPPORT. SYNC (R138, R141, R147): the slot it closes, and the cell's own copy of `SLOT_NO` that it is compared with.
-/
namespace Sys2Proof.Machine
open Sys2Proof

variable {s t : State} {c : Nat} {env : MemEnv}

/-- The schedule slot that the next SYNC of a cell closes (R138). -/
def syncSlot (c : Nat) (s : State) : Nat := (cell c s).iterStart + (cell c s).syncs

theorem Steady.syncSlot (h : Steady c s t) : syncSlot c t = syncSlot c s := by
  have hstart := congrArg Cell.iterStart h.calm
  have hcount := congrArg Cell.syncs h.calm
  exact congrArg₂ (· + ·) hstart hcount

theorem Steady.slotOff (h : Steady c s t) : (cell c t).slotOff = (cell c s).slotOff := by
  have := congrArg Cell.slotOff h.calm
  exact this

/-- A cell's copy of the slot number depends on the hub's and on the cell's offset (R147). -/
theorem cellSlot_congr (hn : slotNo t = slotNo s) (ho : (cell c t).slotOff = (cell c s).slotOff) : cellSlot c t = cellSlot c s := by
  unfold cellSlot
  rw [hn, ho]

/-- No register of a cell's accesses is `SLOT_NO`. -/
theorem slotNo_of_cellRegs (h : Regs (cellRegs c) s t) : slotNo t = slotNo s :=
  h.cnt (by simp [cellRegs, F.SLOT_NO, O.OCL_STS, F.EVT_DROP_CNT]; omega) (by simp [cellRegs, F.SLOT_NO, O.OCL_STS, F.EVT_DROP_CNT]; omega)

theorem syncEffect_late (h : syncSlot c s < cellSlot c s) : syncEffect c s = completeSync c s := if_pos h

theorem syncEffect_early (h : ¬ syncSlot c s < cellSlot c s) :
    syncEffect c s = modCell c (fun x => { x with stall := .sync (syncSlot c s) }) s := if_neg h

/-- A completed SYNC is counted and passed. -/
theorem completeSync_cell (h : Table.wf (fun _ => Cell.reset) s.cells = true) :
    (cell c (completeSync c s)).pc = (cell c s).pc + 1 ∧ (cell c (completeSync c s)).syncs = (cell c s).syncs + 1 ∧
      (cell c (completeSync c s)).stall = .none := by
  have hw : Table.wf (fun _ => Cell.reset) (modCell c (fun x => { x with stall := .none, syncs := x.syncs + 1 }) s).cells = true :=
    Table.wf_set _ _ _ _ h
  unfold completeSync advance
  rw [cell_modCell hw, cell_modCell h]
  exact ⟨rfl, rfl, rfl⟩

theorem syncEffect_other {d : Nat} (hd : d ≠ c) (s : State) : cell d (syncEffect c s) = cell d s := by
  unfold syncEffect
  dsimp only
  split
  · exact (cell_modCell_ne hd _ _).trans (cell_modCell_ne hd _ _)
  · exact cell_modCell_ne hd _ _

theorem exec_sync (hc : canIssue c s = true) (hk : spells c env s = .sync) :
    exec (.sync c env) s = .next (syncEffect c (seqChecks c env (fill c env s))) := by
  show execSync c env s = _
  unfold execSync
  rw [issue_run hc (decide_eq_true hk)]
  rfl

/-- Settles O16: filling the buffer moves neither the slot that the SYNC closes nor the cell's copy of `SLOT_NO`, so the comparison is that
of the state before. -/
theorem syncClosesItsSlot : Obligations.SyncClosesItsSlot := by
  unfold Obligations.SyncClosesItsSlot
  intro s c env htab hc hw
  obtain ⟨hs, hr, hk⟩ := seqChecks_fill (c := c) (env := env) htab
  have hslot : cellSlot c (seqChecks c env (fill c env s)) = cellSlot c s := cellSlot_congr (slotNo_of_cellRegs hr) hs.slotOff
  refine ⟨_, exec_sync hc hw, ?_, fun d hd => (syncEffect_other hd _).trans (hs.other d hd), ?_⟩
  · exact (syncEffect_same (by decide) hk).part .cellMem (by decide)
  · change if syncSlot c s < cellSlot c s then _ else _ ∧ _ = Stall.sync (syncSlot c s)
    split
    · next hlate =>
      rw [syncEffect_late (by rw [hs.syncSlot, hslot]; exact hlate)]
      obtain ⟨hpc, hcount, hstall⟩ := completeSync_cell (c := c) hs.form
      exact ⟨hpc.trans (congrArg (· + 1) hs.pc), hcount.trans (congrArg (· + 1) (congrArg Cell.syncs hs.calm :)), hstall⟩
    · next hearly =>
      rw [syncEffect_early (by rw [hs.syncSlot, hslot]; exact hearly), cell_modCell hs.form, hs.syncSlot]
      exact ⟨hs.pc, rfl⟩

end Sys2Proof.Machine
end

section
/-!
SUPPORT. Edges of BEAT (R159, R162, R486, R487): what the input filter and the range of accepted periods make of one.
-/
namespace Sys2Proof.Machine
open Sys2Proof

variable {s : State} {at_ high : Nat}

/-- An edge that is refused shows in `BEAT_STS` and is counted. -/
def edgeRefused (s : State) : State := raise F.BEAT_STS.REJECT (bump F.BEAT_REJECT_CNT s)

/-- An edge that passed the input filter: its instant is the filter's latest. -/
def edgePassed (at_ : Nat) (s : State) : State := { s with now := at_, mgmt := { s.mgmt with beatEdge := some at_ } }

/-- An edge was refused: the bit, the count, and no beat. -/
structure EdgeRefused (s t : State) : Prop where
  shown : rd F.BEAT_STS.REJECT t = 1
  counted : cnt F.BEAT_REJECT_CNT t = (cnt F.BEAT_REJECT_CNT s + 1) % 2 ^ 64
  beat : beatNo t = beatNo s

theorem edgeRefused_refused (h : Table.wf resetWord s.win = true) : EdgeRefused s (edgeRefused s) :=
  ⟨rd_raise (win_bump h _) rfl (by decide) (by decide),
    ((raise_writes _ _).cnt (by decide) (by decide)).trans (cnt_bump h _),
    (beatNo_raise (by decide) (by decide) _).trans
      (congrArg₂ (fun a b : Word => a.toNat + 2 ^ 32 * b.toNat) (reg_bump_ne (by decide) (by decide) s)
        (reg_bump_ne (by decide) (by decide) s))⟩

/-- What an edge leaves beside its registers does not matter to what they show. -/
theorem EdgeRefused.of_win {t u v : State} (h : EdgeRefused t u) (ht : t.win = s.win) (hv : v.win = u.win) : EdgeRefused s v :=
  ⟨(rd_congr hv _).trans h.shown,
    (cnt_congr hv _).trans (h.counted.trans (congrArg (fun n => (n + 1) % 2 ^ 64) (cnt_congr ht _))),
    (cnt_congr hv _).trans (h.beat.trans (cnt_congr ht _))⟩

theorem edgeRefused_beat (s : State) : (edgeRefused s).beat = s.beat := (raise_same_refl _ _).part .beat (by decide)

theorem beatEdge_short (h : high < 100) : beatEdge at_ high s = atTime at_ s := if_pos h

theorem beatEdge_fast (h : 100 ≤ high) {e : Nat} (he : s.mgmt.beatEdge = some e) (hlt : at_ - e < 4200) :
    beatEdge at_ high s = raise F.PIN_STS.BEAT_FAST (edgeRefused (atTime at_ s)) := by
  have hfast : beatTooFast at_ (atTime at_ s) = true := by
    show s.mgmt.beatEdge.any _ = true
    rw [he]
    exact decide_eq_true hlt
  exact (if_neg (Nat.not_lt.2 h)).trans (if_pos hfast)

theorem beatEdge_passed (h : 100 ≤ high) (hslow : ∀ e, s.mgmt.beatEdge = some e → 4200 ≤ at_ - e) :
    beatEdge at_ high s = judgeEdge at_ (edgePassed at_ s) := by
  have hpass : ¬ beatTooFast at_ (atTime at_ s) = true := by
    show ¬ s.mgmt.beatEdge.any _ = true
    intro hany
    obtain ⟨e, he, hlt⟩ := (Option.any_eq_true ..).1 hany
    exact absurd (of_decide_eq_true hlt) (Nat.not_lt.2 (hslow e he))
  exact (if_neg (Nat.not_lt.2 h)).trans (if_neg hpass)

theorem judgeEdge_first (h : s.beat.reference = none) (at_ : Nat) :
    judgeEdge at_ s = { s with beat := { s.beat with reference := some at_ } } := by
  unfold judgeEdge
  rw [h]

section
variable {r : Nat} (h : s.beat.reference = some r)
include h

theorem judgeEdge_short (hp : at_ - r < 7560) : judgeEdge at_ s = rejectEdge s := by
  unfold judgeEdge
  rw [h]
  exact if_pos hp

theorem judgeEdge_long (hp : 36960 < at_ - r) :
    judgeEdge at_ s = { rejectEdge s with beat := { (rejectEdge s).beat with reference := some at_ } } := by
  unfold judgeEdge
  rw [h]
  exact (if_neg (by simp only [beatMin]; omega)).trans (if_pos hp)

theorem judgeEdge_accepted (hmin : 7560 ≤ at_ - r) (hmax : at_ - r ≤ 36960) : judgeEdge at_ s = acceptEdge at_ (at_ - r) s := by
  unfold judgeEdge
  rw [h]
  exact (if_neg (Nat.not_lt.2 hmin)).trans (if_neg (Nat.not_lt.2 hmax))

end

/-- An accepted edge becomes the reference, and its period joins those that `BEAT_PERIOD` is the mean of. -/
def edgeTaken (at_ p : Nat) (s : State) : State :=
  wr F.BEAT_PERIOD.PERIOD (meanOf ((p :: s.beat.periods).take 16))
    { s with beat := { s.beat with reference := some at_, lastEdge := some at_, periods := (p :: s.beat.periods).take 16, streak := [] } }

theorem acceptEdge_locked (h : beatMode s = 0) (at_ p : Nat) : acceptEdge at_ p s = beginBeat at_ (edgeTaken at_ p s) := by
  unfold acceptEdge
  dsimp only
  rw [if_pos h, if_pos h]
  rfl

/-- In LOCKED an accepted edge begins a beat (R159). -/
theorem acceptEdge_begins (hwf : s.TablesWf) (h : beatMode s = 0) (at_ p : Nat) :
    (acceptEdge at_ p s).beat.reference = some at_ ∧ (acceptEdge at_ p s).beat.beatStart = at_ ∧
      beatNo (acceptEdge at_ p s) = (beatNo s + 1) % 2 ^ 48 := by
  have htaken : (edgeTaken at_ p s).TablesWf := by
    unfold edgeTaken
    exact (wr_keeps (keeps_upd (Keeps.refl s) rfl rfl rfl rfl rfl rfl rfl rfl rfl rfl rfl rfl rfl rfl rfl rfl rfl rfl rfl rfl rfl)).tables
      hwf
  have hno : beatNo (edgeTaken at_ p s) = beatNo s := (beatNo_wr (by decide) (by decide) _ _).trans (cnt_congr rfl _)
  rw [acceptEdge_locked h, beginBeat_beat, beatNo_beginBeat htaken, hno]
  exact ⟨rfl, rfl, rfl⟩

theorem edgePassed_keeps (at_ : Nat) (s : State) : Keeps s (edgePassed at_ s) :=
  keeps_upd (Keeps.refl s) rfl rfl rfl rfl rfl rfl rfl rfl rfl rfl rfl rfl rfl rfl rfl rfl rfl rfl rfl rfl rfl

/-- An edge out of the accepted range is refused, and breaks a run towards relock. -/
theorem rejectEdge_eq (s : State) : rejectEdge s = edgeRefused { s with beat := { s.beat with streak := [] } } := rfl

theorem rejectEdge_refused (h : Table.wf resetWord s.win = true) : EdgeRefused s (rejectEdge s) :=
  (edgeRefused_refused (s := { s with beat := { s.beat with streak := [] } }) h).of_win rfl rfl

theorem rejectEdge_reference (s : State) : (rejectEdge s).beat.reference = s.beat.reference := by
  rw [rejectEdge_eq, edgeRefused_beat]

/-- Settles O27: the width and the filter choose between three equations of BEAT_EDGE, the period between four of `judgeEdge`. -/
theorem beatEdgesAreJudged : Obligations.BeatEdgesAreJudged := by
  unfold Obligations.BeatEdgesAreJudged
  intro s at_ high htab
  refine ⟨fun hshort => congrArg Host.Outcome.next (beatEdge_short hshort), fun e hhigh he hlt => ?_, fun hhigh hslow => ?_⟩
  · refine ⟨_, congrArg Host.Outcome.next (beatEdge_fast hhigh he hlt), ?_⟩
    have href : EdgeRefused s (edgeRefused (atTime at_ s)) := (edgeRefused_refused (s := atTime at_ s) htab.win).of_win rfl rfl
    have hwin : Table.wf resetWord (edgeRefused (atTime at_ s)).win = true :=
      (raise_keeps (bump_keeps (atTime_keeps (Keeps.refl s)))).tables htab |>.win
    have hr := raise_writes F.PIN_STS.BEAT_FAST (edgeRefused (atTime at_ s))
    exact ⟨rd_raise hwin rfl (by decide) (by decide), (hr.rd (by decide)).trans href.shown,
      (hr.cnt (by decide) (by decide)).trans href.counted, (hr.cnt (by decide) (by decide)).trans href.beat,
      ((raise_same_refl _ _).part .beat (by decide)).trans (edgeRefused_beat _)⟩
  · have hexec : exec (.beatEdge at_ high) s = .next (judgeEdge at_ (edgePassed at_ s)) :=
      congrArg Host.Outcome.next (beatEdge_passed hhigh hslow)
    have href : EdgeRefused s (rejectEdge (edgePassed at_ s)) := (rejectEdge_refused (s := edgePassed at_ s) htab.win).of_win rfl rfl
    refine ⟨fun hnone => ⟨_, hexec, ?_⟩, fun r hr => ⟨fun hp => ⟨_, hexec, ?_⟩, fun hp => ⟨_, hexec, ?_⟩, fun hmin hmax hmode => ⟨_, hexec, ?_⟩⟩⟩
    · rw [judgeEdge_first (s := edgePassed at_ s) hnone]
      exact ⟨rfl, rfl⟩
    · rw [judgeEdge_short (s := edgePassed at_ s) hr hp]
      exact ⟨href.shown, (rejectEdge_reference _).trans hr, href.counted, href.beat⟩
    · rw [judgeEdge_long (s := edgePassed at_ s) hr hp]
      obtain ⟨hshown, hcount, hbeat⟩ := href.of_win (s := s) (v := { rejectEdge (edgePassed at_ s) with
        beat := { (rejectEdge (edgePassed at_ s)).beat with reference := some at_ } }) rfl rfl
      exact ⟨hshown, rfl, hcount, hbeat⟩
    · rw [judgeEdge_accepted (s := edgePassed at_ s) hr hmin hmax]
      obtain ⟨href, hstart, hno⟩ :=
        acceptEdge_begins (s := edgePassed at_ s) ((edgePassed_keeps at_ s).tables htab) ((rd_congr rfl _).trans hmode) at_ (at_ - r)
      exact ⟨href, hstart, hno⟩

end Sys2Proof.Machine
end

section
/-!
SUPPORT. A restart that names one model slot past the sixteen twice (R357, R364): the `MODEL_SCHED` of that number lies at the offset of
`EVT_DROP_CNT`, and putting the first read on its way drops an event record.
-/
namespace Sys2Proof.Machine
open Sys2Proof

/-- A number that no model slot has: its `MODEL_SCHED` has the offset of `EVT_DROP_CNT`, whose bits [13:12] its STATE shows. -/
def strayRestart : Nat := 7148

/-- A restart of that number, in ABSORB: no cells, and one stack slice to be read again. -/
def strayJob : ResetJob := ⟨[], [], [strayRestart, strayRestart], 1, 0, [], [(strayRestart, 0)], [], []⟩

/-- OCL is ACTIVE under encryption and an encrypted message waits for a pump, with which the key reaches its rekey count; `EVT_SEL` names
REKEY, the event queue is full, and one more dropped record carries `EVT_DROP_CNT` from 0x2FFF to 0x3000. -/
def strayAbsorb : State :=
  { State.reset with
    win := [(0xa004, 4), (0xa00c, 1), (0xa070, 0x2FFF), (0xa100, 0x89002800), (0x7eb2c, 1)]
    faults := { Faults.reset with job := some strayJob }
    link := { LinkState.reset with waiting := [⟨3, 0, [], 1, false, []⟩] }
    ocl := { Ocl.reset with
      tx0 := { KeySlot.reset with epoch := some 0, ctr := 2 ^ 40 }
      evQueue := List.replicate 256 ⟨0, 0, 0⟩ } }

theorem strayAbsorb_tables : strayAbsorb.TablesWf := by constructor <;> decide +kernel

/-- ABSORB may end: no cell is waited for and no placement is open. -/
theorem strayAbsorb_quiet : allIn .absorb strayJob strayAbsorb = true ∧ strayAbsorb.mesh.placing = [] := by decide +kernel

/-- Two rewrites are needed, one for each time that the number is named. -/
theorem strayAbsorb_works : (worksOf strayJob strayAbsorb).length = 2 := by decide +kernel

/-- Once the first read is on its way the number no longer shows RUNNABLE, so nothing is read for the second: both rewrites are ready and
write nothing, and step 4 begins once more with none left. ABSORB stays in progress. -/
theorem strayAbsorb_done : (absorbDone strayAbsorb).faults.job = some strayJob := by decide +kernel

theorem exec_absorbDone {quiet : Nat} (h : 128 ≤ quiet) (s : State) : exec (.absorbDone quiet) s = .next (absorbDone s) :=
  congrArg Host.Outcome.next (if_pos (decide_eq_true h))

/-- Refutes O47: of a job that names a model slot past the sixteen twice, ABSORB_DONE neither enters RELEASE nor leaves a rewrite in progress
for each model that needs one. -/
theorem not_resetJobsRunTheirPhases : ¬ Obligations.ResetJobsRunTheirPhases := by
  unfold Obligations.ResetJobsRunTheirPhases
  intro h
  obtain ⟨hjob, -⟩ := h strayAbsorb strayAbsorb_tables
  obtain ⟨-, -, -, habsorb, -⟩ := hjob strayJob rfl
  obtain ⟨hall, hplace⟩ := strayAbsorb_quiet
  obtain ⟨t, k, hexec, hk, hphase, -⟩ := habsorb 128 (by decide) rfl hall hplace rfl
  obtain rfl : absorbDone strayAbsorb = t := Host.Outcome.next.inj ((exec_absorbDone (by decide) strayAbsorb).symm.trans hexec)
  obtain rfl : strayJob = k := Option.some.inj (strayAbsorb_done.symm.trans hk)
  rcases hphase with ⟨-, hrelease⟩ | ⟨-, hwork⟩
  · exact absurd hrelease (by decide)
  · rw [strayAbsorb_works] at hwork
    exact absurd hwork (by decide)

end Sys2Proof.Machine
end

section
/-!
SUPPORT. Hold requests and the hold decision (R143 to R147, R173, R349).
-/
namespace Sys2Proof.Machine
open Sys2Proof

variable {s t u : State} {c : Nat}

/-! ### The PACE test -/

/-- What the PACE test of a cell depends on, and the cell's program counter. -/
def Cell.pace (x : Cell) : BitVec 18 × Nat × Bool × Bool × Nat := (x.pc, x.iterStart, x.lateSync, x.inIter, x.syncs)

/-- Every cell stands where it stood, with the same SYNCs complete. -/
structure Paced (s t : State) : Prop where
  form : Table.wf (fun _ => Cell.reset) t.cells = true
  same : ∀ c, (cell c t).pace = (cell c s).pace

theorem Paced.refl (h : Table.wf (fun _ => Cell.reset) s.cells = true) : Paced s s := ⟨h, fun _ => rfl⟩

theorem Paced.of_cells (h : Paced s t) (hc : u.cells = t.cells) : Paced s u :=
  ⟨hc ▸ h.form, fun c => (congrArg Cell.pace (cell_congr hc c)).trans (h.same c)⟩

theorem Paced.modCell {f : Cell → Cell} (hf : ∀ x, (f x).pace = x.pace) (h : Paced s t) (c : Nat) : Paced s (modCell c f t) := by
  refine ⟨Table.wf_set _ _ _ _ h.form, fun d => ?_⟩
  by_cases hd : d = c
  · subst hd
    rw [cell_modCell h.form, hf, h.same]
  · rw [cell_modCell_ne hd, h.same]

theorem Steady.pace (k : Steady c s t) : (cell c t).pace = (cell c s).pace := by
  have hcalm := congrArg Cell.pace k.calm
  exact hcalm

/-- Accesses of a cell's engines do not move it. -/
theorem Paced.steady (h : Paced s t) (k : Steady c t u) : Paced s u := by
  refine ⟨k.form, fun d => ?_⟩
  by_cases hd : d = c
  · subst hd
    exact (k.pace).trans (h.same d)
  · rw [k.other d hd, h.same]

theorem forEach_paced {α : Type} {l : List α} {f : α → State → State} (hf : ∀ x t, Paced s t → Paced s (f x t)) (h : Paced s t) :
    Paced s (forEach l f t) := by
  induction l generalizing t with
  | nil => exact h
  | cons x l ih => exact ih (hf x t h)

theorem dueReads_steady {n : Nat} {env : MemEnv} (h : Table.wf (fun _ => Cell.reset) s.cells = true) : Steady c s (dueReads n c env s) := by
  unfold dueReads
  dsimp only
  split
  · exact Steady.refl h c
  · split
    · exact Steady.refl h c
    · exact loadReads_steady (Steady.refl h c)

theorem paceLate_congr {x y : Cell} (h : x.pace = y.pace) (n : Nat) : paceLate n x = paceLate n y := by
  simp only [Cell.pace, Prod.mk.injEq] at h
  obtain ⟨-, hstart, hlate, hin, hcount⟩ := h
  unfold paceLate
  rw [hstart, hlate, hin, hcount]

theorem paceLate_iff (n : Nat) (x : Cell) : paceLate n x = true ↔
    if n = x.iterStart then x.lateSync = true else x.inIter = true ∧ x.iterStart + x.syncs + 1 ≤ n := by
  unfold paceLate
  split
  · rfl
  · rw [Bool.and_eq_true, decide_eq_true_iff]

/-! ### HOLD_TEST -/

/-- The state that the tests of a slot see: every test is counted, and what it needs is read. -/
def holdSeen (s : State) : State :=
  forEach (runningCells s) (fun c => dueReads (cellSlot c s) c (s.sched.dueEnvs.of c))
    (forEach (runningCells s) (fun c => modCell c (countStretch (cellSlot c s))) s)

/-- What one cell's tests give in that state. -/
def holdReq (s : State) (c : Nat) : HoldReq := holdTestCell (cellSlot c s) c (seen c (s.sched.dueEnvs.of c) (holdSeen s))

/-- The state once the failed tests of DUE are counted. -/
def holdCounted (s : State) : State :=
  forEach ((runningCells s).map (holdReq s))
    (fun r => modCell r.cell (countTests (cellSlot r.cell s) r.due (stallPaused (holdSeen s)))) (holdSeen s)

theorem holdSeen_paced (h : Table.wf (fun _ => Cell.reset) s.cells = true) : Paced s (holdSeen s) :=
  forEach_paced (fun _ _ k => k.steady (dueReads_steady k.form)) 
    (forEach_paced (fun c _ k => Paced.modCell (f := countStretch (cellSlot c s)) (fun _ => rfl) k c) (Paced.refl h))

theorem holdCounted_paced (h : Table.wf (fun _ => Cell.reset) s.cells = true) : Paced s (holdCounted s) :=
  forEach_paced
    (fun r _ k => Paced.modCell (f := countTests (cellSlot r.cell s) r.due (stallPaused (holdSeen s))) (fun _ => rfl) k r.cell)
    (holdSeen_paced h)

theorem captureHold_cells (r : HoldReq) (s : State) : (captureHold r s).cells = s.cells :=
  (captureHold_same rfl (Same.refl [.win] s)).part .cells (by decide)

theorem holdTest_cells (s : State) : (holdTest s).cells = (holdCounted s).cells :=
  forEach_fixed (·.cells) captureHold_cells _ (holdCounted s)

theorem seen_cells (c : Nat) (env : MemEnv) (s : State) : (seen c env s).cells = s.cells := by
  unfold seen
  split <;> rfl

theorem holdTestCell_pace (n c : Nat) (s : State) : (holdTestCell n c s).pace = paceLate n (cell c s) := by
  unfold holdTestCell
  dsimp only
  split <;> rfl

/-- The PACE test of a cell is that of the state before: nothing that a slot's tests count or read moves a cell. -/
theorem holdReq_pace (h : Table.wf (fun _ => Cell.reset) s.cells = true) (c : Nat) :
    (holdReq s c).pace = paceLate (cellSlot c s) (cell c s) := by
  unfold holdReq
  rw [holdTestCell_pace, cell_congr (seen_cells c _ _)]
  exact paceLate_congr ((holdSeen_paced h).same c) _

/-- PACE is requested where some running cell's test says so. -/
theorem holdTest_reqPace (s : State) : (holdTest s).sched.reqPace = true ↔ ∃ c ∈ runningCells s, (holdReq s c).pace = true := by
  have hreq : (holdTest s).sched.reqPace =
      (((runningCells s).map (holdReq s)).filter fun r => r.due || r.pace || r.stretch).any (·.pace) := rfl
  rw [hreq, List.any_eq_true]
  constructor
  · rintro ⟨r, hr, hpace⟩
    obtain ⟨c, hc, rfl⟩ := List.mem_map.1 (List.mem_of_mem_filter hr)
    exact ⟨c, hc, hpace⟩
  · rintro ⟨c, hc, hpace⟩
    exact ⟨holdReq s c, List.mem_filter.2 ⟨List.mem_map_of_mem hc, by simp [hpace]⟩, hpace⟩

/-! ### HOLD_DECISION -/

/-- The widen change of a slot word lies above its HOLD bit. -/
theorem carryWiden_word (s : State) : ∃ k, (carryWiden s).1 = 2 ^ 33 * k := by
  unfold carryWiden
  split
  · exact ⟨0, rfl⟩
  · next w ws _ => exact ⟨1 + 2 * w.model + 2 ^ 5 * w.layer + 2 ^ 13 * bitN w.wide, by dsimp only; ring⟩

/-- A slot word with nothing below its HOLD bit. -/
theorem heldWord (k : Nat) : bitAt (BitVec.ofNat 64 (2 ^ 32 + 2 ^ 33 * k)) 32 = true ∧
    fieldOf (BitVec.ofNat 64 (2 ^ 32 + 2 ^ 33 * k)) 0 32 = 0 := by
  constructor
  · simp only [bitAt, BitVec.getLsbD_ofNat, Nat.testBit_eq_decide_div_mod_eq, Bool.and_eq_true, decide_eq_true_eq]
    omega
  · simp only [fieldOf, bitsOf, BitVec.toNat_ofNat, Nat.shiftRight_zero]
    omega

/-- The slot word of the coming boundary, and what the hub remembers of its decision. -/
theorem decideHold_sched (s : State) : ∃ ps, (decideHold s).sched = { (carryWiden s).2.sched with
    slotWord := BitVec.ofNat 64 (launchBits ps + bitN (decide (holdCauses s ≠ 0)) * 2 ^ 32 + (carryWiden s).1)
    decided := true, plan := ps, causes := holdCauses s } ∧ (holdCauses s ≠ 0 → ps = []) := by
  refine ⟨if decide (holdCauses s ≠ 0) then [] else planAll (slotNo s + 1) s, ?_, fun h => if_pos (decide_eq_true h)⟩
  unfold decideHold
  exact (noteBlocked_same rfl (Same.refl [.win, .link, .ports, .ocl] _)).part .sched (by decide)

theorem decideHold_holds (h : holdCauses s ≠ 0) :
    bitAt (decideHold s).sched.slotWord 32 = true ∧ fieldOf (decideHold s).sched.slotWord 0 32 = 0 ∧ (decideHold s).sched.plan = [] := by
  obtain ⟨ps, hsched, hempty⟩ := decideHold_sched s
  obtain ⟨k, hk⟩ := carryWiden_word s
  obtain ⟨hheld, hlaunch⟩ := heldWord k
  have hword : launchBits [] + bitN true * 2 ^ 32 + 2 ^ 33 * k = 2 ^ 32 + 2 ^ 33 * k := by
    simp only [launchBits, bitN, List.map_nil, List.foldl_nil, if_true]
    ring
  rw [hsched, hempty h, hk, decide_eq_true h, hword]
  exact ⟨hheld, hlaunch, rfl⟩

/-- A cell whose copies of the slot word disagree shows, and is reported (R146). -/
structure Mismatched (c : Nat) (t : State) : Prop where
  shown : rd F.SCHED_STS.HOLD_MISMATCH t = 1
  reported : (⟨0x0C, c, 0, none, false⟩ : Report) ∈ t.mesh.reports

theorem slotMismatch_eq (h : c < cellCount) (s : State) : slotMismatch c s = report 0x0C c (raise F.SCHED_STS.HOLD_MISMATCH s) := if_pos h

theorem slotMismatch_reports (h : c < cellCount) (s : State) :
    (slotMismatch c s).mesh.reports = s.mesh.reports ++ [⟨0x0C, c, 0, none, false⟩] := by
  rw [slotMismatch_eq h]
  exact congrArg (fun m : Mesh => m.reports ++ [(⟨0x0C, c, 0, none, false⟩ : Report)]) (raise_mesh _ s)

theorem rd_slotMismatch (hw : s.TablesWf) (h : c < cellCount) : rd F.SCHED_STS.HOLD_MISMATCH (slotMismatch c s) = 1 := by
  rw [slotMismatch_eq h]
  exact (rd_congr rfl _).trans (rd_raise hw.win rfl (by decide) (by decide))

theorem slotMismatch_mismatched (hw : s.TablesWf) (h : c < cellCount) : Mismatched c (slotMismatch c s) :=
  ⟨rd_slotMismatch hw h, by rw [slotMismatch_reports h]; simp⟩

/-- A further cell's mismatch takes nothing back. -/
theorem Mismatched.step (hw : s.TablesWf) (h : Mismatched c s) (d : Nat) : Mismatched c (slotMismatch d s) := by
  by_cases hd : d < cellCount
  · exact ⟨rd_slotMismatch hw hd, by rw [slotMismatch_reports hd]; exact List.mem_append_left _ h.reported⟩
  · rw [show slotMismatch d s = s from if_neg hd]
    exact h

theorem Mismatched.forEach (h : Mismatched c s) (hw : s.TablesWf) (l : List Nat) : Mismatched c (forEach l slotMismatch s) := by
  induction l generalizing s with
  | nil => exact h
  | cons d l ih => exact ih (h.step hw d) ((slotMismatch_keeps (Keeps.refl s)).tables hw)

theorem forEach_slotMismatch {l : List Nat} (hw : s.TablesWf) (hc : c ∈ l) (h : c < cellCount) : Mismatched c (forEach l slotMismatch s) := by
  induction l generalizing s with
  | nil => exact absurd hc List.not_mem_nil
  | cons d l ih =>
    have hnext := (slotMismatch_keeps (c := d) (Keeps.refl s)).tables hw
    rcases List.mem_cons.1 hc with rfl | hl
    · exact (slotMismatch_mismatched hw h).forEach hnext l
    · exact ih hnext hl

/-- The reports of mismatches change nothing of the decision. -/
theorem holdDecision_sched (x : SlotInputs) (s : State) :
    (holdDecision x s).sched = { (decideHold s).sched with startEnvs := x.starts, dueEnvs := x.dues } := by
  have hsame : (forEach x.mismatch slotMismatch (decideHold s)).sched = (decideHold s).sched :=
    forEach_fixed (·.sched) (fun c t => (slotMismatch_same rfl (Same.refl [.win, .mesh, .link, .ports, .ocl] t)).part .sched (by decide)) _ _
  unfold holdDecision
  dsimp only
  rw [hsame]

theorem holdDecision_decides (x : SlotInputs) (s : State) :
    (holdDecision x s).sched.decided = true ∧ (holdDecision x s).sched.causes = holdCauses s := by
  obtain ⟨ps, hsched, -⟩ := decideHold_sched s
  rw [holdDecision_sched, hsched]
  exact ⟨rfl, rfl⟩

theorem holdDecision_mismatched (hw : s.TablesWf) {x : SlotInputs} (hc : c ∈ x.mismatch) (h : c < cellCount) :
    Mismatched c (holdDecision x s) := by
  obtain ⟨hshown, hreported⟩ := forEach_slotMismatch ((decideHold_keeps (Keeps.refl s)).tables hw) hc h
  exact ⟨(rd_congr rfl _).trans hshown, hreported⟩

/-! ### STALL, LONG_HOLD and the host's holds -/

theorem stallReport_full (h : (cell c s).dueFails = 32768) :
    stallReport c s = report 0x0D c (modCell c (fun x => { x with dueFails := 0 }) s) := if_pos h

theorem exec_stall_full (h : (cell c s).dueFails = 32768) :
    exec (.stall c) s = .next (report 0x0D c (modCell c (fun x => { x with dueFails := 0 }) s)) := by
  rw [← stallReport_full h]
  rfl

theorem exec_stall_reports (hw : s.TablesWf) (c : Nat) (h : (cell c s).dueFails = 32768) :
    ∃ t, exec (.stall c) s = .next t ∧ t.mesh.reports = s.mesh.reports ++ [⟨0x0D, c, 0, none, false⟩] ∧ (cell c t).dueFails = 0 ∧
      t.win = s.win := by
  refine ⟨_, exec_stall_full h, rfl, ?_, rfl⟩
  exact congrArg Cell.dueFails (cell_modCell hw.cells c fun x => { x with dueFails := 0 })

theorem longHold_due (h : s.sched.heldRun = 65536) (hfirst : s.sched.longHeld = false) :
    longHold s = raise F.SCHED_STS.LONG_HOLD { s with sched := { s.sched with longHeld := true } } :=
  if_pos ⟨h, by rw [hfirst]; rfl⟩

theorem exec_longHold (s : State) : exec .longHold s = .next (longHold s) := rfl

theorem exec_longHold_due (hw : s.TablesWf) (hrun : s.sched.heldRun = 65536) (hfirst : s.sched.longHeld = false) :
    ∃ t, exec .longHold s = .next t ∧ rd F.SCHED_STS.LONG_HOLD t = 1 ∧ t.sched.longHeld = true := by
  rw [exec_longHold, longHold_due hrun hfirst]
  refine ⟨_, rfl, rd_raise ?_ rfl (by decide) (by decide), ?_⟩
  · exact hw.win
  · rw [(raise_same_refl _ _).part .sched (by decide)]

theorem longHold_again (h : s.sched.longHeld = true) : longHold s = s := if_neg fun hdue => by simp [h] at hdue

theorem exec_longHold_again (h : s.sched.longHeld = true) : exec .longHold s = .next s := by
  rw [exec_longHold, longHold_again h]

/-- EXT_EN takes its bit, and clearing it ends the count of held beats (R173, R490). -/
theorem extEn_win (b : Bool) (s : State) : (extEn b s).win = (wrB F.SCHED_CTRL.EXT_EN b s).win := by
  cases b <;> rfl

theorem extEn_holdBeats (s : State) : (extEn false s).mgmt.holdBeats = 0 := rfl

/-- Settles O24: nothing that HOLD_TEST counts or reads moves a cell, so its PACE tests are those of the state before; a decision to hold
plans no launch, and its slot word has nothing below HOLD. -/
theorem holdTestsAndDecision : Obligations.HoldTestsAndDecision := by
  unfold Obligations.HoldTestsAndDecision
  intro s hwf
  refine ⟨⟨_, rfl, ?_, fun c => ?_, ?_⟩, paceLate_iff, fun x => ⟨_, rfl, ?_⟩, exec_stall_reports hwf,
    exec_longHold_due hwf,
    exec_longHold_again,
    fun b => ⟨_, rfl, rd_wrB_self hwf.win (by decide) rfl b, fun o ho => reg_wr_ne ho _ s⟩,
    fun b => ⟨_, rfl, ?_, ?_, fun o ho => (reg_congr (extEn_win b s) o).trans (reg_wr_ne ho _ s)⟩⟩
  · exact (holdTest_same rfl (Same.refl [.win, .cells, .mesh, .sched, .link, .ports, .ocl] s)).part .cellMem (by decide)
  · exact congrArg Prod.fst (((holdCounted_paced hwf.cells).of_cells (holdTest_cells s)).same c)
  · simp only [← holdReq_pace hwf.cells]
    exact holdTest_reqPace s
  · obtain ⟨hdecided, hcauses⟩ := holdDecision_decides x s
    refine ⟨hdecided, hcauses, fun h => ?_, fun c hc hlt => ?_⟩
    · rw [holdDecision_sched]
      exact decideHold_holds h
    · obtain ⟨hshown, hreported⟩ := holdDecision_mismatched hwf hc hlt
      exact ⟨hshown, hreported⟩
  · exact (rd_congr (extEn_win b s) _).trans (rd_wrB_self hwf.win (by decide) rfl b)
  · rintro rfl
    exact extEn_holdBeats s

end Sys2Proof.Machine
end

section
/-!
SUPPORT. The schedule's own registers (0x3000 to 0x30BF, R173): no service function, launch or read of a cell writes them.
-/
namespace Sys2Proof.Machine
open Sys2Proof

variable {s t : State} {c : Nat} {ρ : List Nat} {σ : State}

/-! ### Reads of the loader -/

theorem countLoaded_regs {port g : Nat} (hl : SubN (cellRegs c) ρ) (h : Regs ρ σ s) : Regs ρ σ (countLoaded c port g s) := by
  unfold countLoaded
  split
  · exact when_regs (fun t ht => bump_regs (hl.mem (by simp [cellRegs, F.MEM_OFFCLASS_CNT]; omega))
      (hl.mem (by simp [cellRegs, F.MEM_OFFCLASS_CNT]; omega)) ht) h
  · exact rangeFault_regs hl h

theorem loadReads_regs {port : Nat} {gs : List Nat} {env : MemEnv} (hl : SubN (cellRegs c) ρ) (h : Regs ρ σ s) :
    Regs ρ σ (loadReads c port gs env s) :=
  forEach_regs (fun _ _ ht => report_regs rfl ht)
    (modCell_regs (forEach_regs (fun _ _ ht => collide_regs hl ht)
      (readChecks_regs hl (forEach_regs (fun _ _ ht => countLoaded_regs hl ht) h))))

/-! ### The schedule's registers -/

/-- An offset outside the schedule's own registers. -/
abbrev OffSched (o : Nat) : Prop := o < 0x3000 ∨ 0x30c0 ≤ o

/-- The schedule's own registers, by their distance from 0x3000. -/
def schedWords (s : State) (i : Fin 0xc0) : Word := reg (0x3000 + i) s

theorem schedWords_congr (h : t.win = s.win) : schedWords t = schedWords s := funext fun _ => reg_congr h _

theorem schedWords_same {l : List Part} (h : Same l s t) (hl : Part.win ∉ l) : schedWords t = schedWords s :=
  schedWords_congr (h.part .win hl)

theorem schedWords_regs (h : Regs ρ s t) (hρ : ∀ p ∈ ρ, OffSched p) : schedWords t = schedWords s :=
  funext fun i => h.reg _ fun hi => by have := hρ _ hi; omega

theorem reg_of_schedWords (h : schedWords t = schedWords s) {o : Nat} (ho : 0x3000 ≤ o ∧ o < 0x30c0) : reg o t = reg o s := by
  have := congrFun h ⟨o - 0x3000, by omega⟩
  simpa only [schedWords, Nat.add_sub_cancel' ho.1] using this

theorem rd_of_schedWords (h : schedWords t = schedWords s) {f : Fld} (hf : 0x3000 ≤ f.off ∧ f.off < 0x30c0) : rd f t = rd f s := by
  unfold rd
  rw [reg_of_schedWords h hf]

theorem cnt_of_schedWords (h : schedWords t = schedWords s) {o : Nat} (ho : 0x3000 ≤ o ∧ o + 4 < 0x30c0) : cnt o t = cnt o s := by
  unfold cnt
  rw [reg_of_schedWords h ⟨ho.1, by omega⟩, reg_of_schedWords h ⟨by omega, ho.2⟩]

/-! ### Registers, messages and charges -/

theorem schedWords_setReg {o : Nat} (h : OffSched o) (v : Word) (s : State) : schedWords (setReg o v s) = schedWords s :=
  funext fun i => reg_setReg_ne (by omega) v s

theorem schedWords_wr {f : Fld} (hf : OffSched f.off) (v : Nat) (s : State) : schedWords (wr f v s) = schedWords s := schedWords_setReg hf _ s

theorem schedWords_bumpBy {o : Nat} (h : OffSched o) (h4 : OffSched (o + 4)) (n : Nat) (s : State) : schedWords (bumpBy o n s) = schedWords s :=
  (schedWords_setReg h4 _ _).trans (schedWords_setReg h _ s)

theorem schedWords_bump {o : Nat} (h : OffSched o) (h4 : OffSched (o + 4)) (s : State) : schedWords (bump o s) = schedWords s :=
  schedWords_bumpBy h h4 1 s

/-- The registers that counting a dropped event writes. -/
theorem events_offSched : ∀ p ∈ [0xa000, 0xa070, 0xa074], OffSched p := by decide

theorem schedWords_events (h : Regs [0xa000, 0xa070, 0xa074] s t) : schedWords t = schedWords s := schedWords_regs h events_offSched

theorem schedWords_raise {f : Fld} (hf : OffSched f.off) (s : State) : schedWords (raise f s) = schedWords s :=
  schedWords_regs (raise_writes f s) (List.forall_mem_cons.2 ⟨hf, events_offSched⟩)

theorem schedWords_sendWr (a n : Nat) (data : List Byte) (marks : List AckMark) (s : State) :
    schedWords (sendWr a n data marks s) = schedWords s := schedWords_events (sendWr_regs rfl (Regs.refl _ _))

theorem schedWords_sendWrPart (a : Nat) (data : List Byte) (marks : List AckMark) (s : State) :
    schedWords (sendWrPart a data marks s) = schedWords s := schedWords_events (sendWrPart_regs rfl (Regs.refl _ _))

theorem schedWords_interrupt (v : Nat) (s : State) : schedWords (interrupt v s) = schedWords s :=
  schedWords_events (interrupt_regs rfl (Regs.refl _ _))

theorem chargeRegs_offSched (a : Nat) : ∀ p ∈ chargeRegs a, OffSched p := by
  intro p hp
  simp only [chargeRegs, O.BUDGET_STS, O.BUDGET_HELD, O.USED_FLIT, O.USED_STACK, O.USED_MJ, List.mem_cons, List.not_mem_nil, or_false] at hp
  omega

theorem schedWords_charge (a kind n : Nat) (s : State) : schedWords (charge a kind n s) = schedWords s :=
  schedWords_regs (charge_regs (subN_refl _) (Regs.refl _ _)) (chargeRegs_offSched a)

/-- The registers of a field's cells lie from 0x100000 up. -/
theorem cellRegs_offSched (c : Nat) : ∀ p ∈ cellRegs c, OffSched p := by
  intro p hp
  rcases List.mem_append.1 hp with hevent | hcell
  · exact events_offSched p hevent
  · obtain ⟨k, -, rfl⟩ := List.mem_map.1 hcell
    omega

theorem schedWords_loadReads (c port : Nat) (gs : List Nat) (env : MemEnv) (s : State) :
    schedWords (loadReads c port gs env s) = schedWords s :=
  schedWords_regs (loadReads_regs (subN_refl _) (Regs.refl _ _)) (cellRegs_offSched c)

end Sys2Proof.Machine
end
section
/-!
SUPPORT. Slot boundaries (R137 to R141, R173).
-/
namespace Sys2Proof.Machine
open Sys2Proof

variable {s t : State} {c m : Nat}

/-! ### What every boundary does -/

theorem schedWords_applyPlaces (s : State) : schedWords (applyPlaces s) = schedWords s := by
  unfold applyPlaces
  refine (forEach_fixed schedWords (fun p t => ?_) _ _).trans (schedWords_congr rfl)
  have hrow : schedWords (placeRow p t) = schedWords (setReg (O.SPARE_MAP p.field p.row) p.word (noteShift p t)) := schedWords_congr rfl
  rw [hrow, schedWords_setReg (by simp only [O.SPARE_MAP]; omega)]
  exact schedWords_same (noteShift_same rfl (Same.refl [.cellMem] t)) (by decide)

theorem schedWords_gateSlot (s : State) : schedWords (gateSlot s) = schedWords s := by
  unfold gateSlot
  dsimp only
  exact (when_fixed schedWords (schedWords_bump (o := F.CAP_GATE_CNT) (by decide) (by decide)) _).trans
    ((when_fixed schedWords (schedWords_bump (o := F.THR_GATE_CNT) (by decide) (by decide)) _).trans (schedWords_congr rfl))

theorem schedWords_boundaryCommon (s : State) : schedWords (boundaryCommon s) = schedWords s := by
  unfold boundaryCommon
  dsimp only
  have htables (u : State) : schedWords (ageGuards (applyClasses (applyTables u))) = schedWords u :=
    schedWords_same (ageGuards_same rfl (applyClasses_same rfl (applyTables_same rfl (Same.refl [.mesh, .cells, .ledger] u)))) (by decide)
  exact (htables _).trans ((schedWords_applyPlaces _).trans ((schedWords_gateSlot _).trans (schedWords_congr rfl)))

/-- The physical slot count, whether a decision stands, and the run of held boundaries. -/
def clock (s : State) : Nat × Bool × Nat := (s.sched.phys, s.sched.decided, s.sched.heldRun)

theorem clock_same {l : List Part} (h : Same l s t) (hl : Part.sched ∉ l) : clock t = clock s :=
  congrArg (fun x : Sched => (x.phys, x.decided, x.heldRun)) (h.part .sched hl)

theorem clock_bump (o : Nat) (s : State) : clock (bump o s) = clock s := rfl

theorem clock_gateSlot (s : State) : clock (gateSlot s) = clock s := by
  unfold gateSlot
  dsimp only
  exact (when_fixed clock (clock_bump _) _).trans (when_fixed clock (clock_bump _) _)

theorem clock_boundaryCommon (s : State) : clock (boundaryCommon s) = (s.sched.phys + 1, false, s.sched.heldRun) := by
  unfold boundaryCommon
  dsimp only
  have hrest (u : State) : clock (ageGuards (applyClasses (applyTables (applyPlaces u)))) = clock u :=
    clock_same (ageGuards_same rfl (applyClasses_same rfl (applyTables_same rfl (applyPlaces_same rfl
      (Same.refl [.win, .cellMem, .mesh, .cells, .ledger] u))))) (by decide)
  exact (hrest _).trans (clock_gateSlot _)

/-! ### A held boundary -/

/-- The counters of hold causes are the schedule's registers from 0x3018 to 0x304F. -/
theorem causeCnt_place (i : Nat) : 0x3018 ≤ causeCnt i ∧ causeCnt i ≤ 0x3048 := by
  match i with
  | 0 | 1 | 2 | 3 | 4 | 5 | 6 => decide
  | n + 7 =>
    have hlast : causeCnt (n + 7) = F.HOLD_GATE_CNT := rfl
    rw [hlast]
    decide

/-- A held boundary before its causes are counted. -/
def heldShown (s : State) : State :=
  raise F.SCHED_STS.HELD (bump F.HELD_SLOT_CNT { s with sched := { s.sched with heldRun := s.sched.heldRun + 1 } })

theorem heldBoundary_eq (s : State) : heldBoundary s =
    forEach ((List.range 7).filter fun i => bitAt s.sched.causes i) (fun i => bump (causeCnt i)) (heldShown s) := rfl

theorem clock_heldShown (s : State) : clock (heldShown s) = (s.sched.phys, s.sched.decided, s.sched.heldRun + 1) := by
  unfold heldShown
  exact (clock_same (raise_same_refl _ _) (by decide)).trans rfl

theorem clock_heldBoundary (s : State) : clock (heldBoundary s) = (s.sched.phys, s.sched.decided, s.sched.heldRun + 1) := by
  rw [heldBoundary_eq]
  exact (forEach_fixed clock (fun _ _ => clock_bump _ _) _ _).trans (clock_heldShown s)

theorem reg_heldBoundary {o : Nat} (h : o < 0x3018) (s : State) : reg o (heldBoundary s) = reg o (heldShown s) := by
  rw [heldBoundary_eq]
  exact forEach_fixed (reg o) (fun i t => reg_bump_ne (by have := causeCnt_place i; omega) (by have := causeCnt_place i; omega) t) _ _

/-! ### Images that start -/

theorem schedWords_startCell (env : MemEnv) (t36 : Bool) (c : Nat) (s : State) : schedWords (startCell env t36 c s) = schedWords s := by
  unfold startCell setRun
  dsimp only
  exact (schedWords_congr rfl).trans (schedWords_loadReads c 4 _ env s)

theorem clock_startCell (env : MemEnv) (t36 : Bool) (c : Nat) (s : State) : clock (startCell env t36 c s) = clock s :=
  clock_same (startCell_same rfl (Same.refl [.win, .cells, .mesh, .link, .ports, .ocl] s)) (by decide)

theorem schedWords_clearRings (cs : List Nat) (s : State) : schedWords (clearRings cs s) = schedWords s :=
  schedWords_same (clearRings_same rfl (Same.refl [.cells] s)) (by decide)

theorem clock_clearRings (cs : List Nat) (s : State) : clock (clearRings cs s) = clock s :=
  clock_same (clearRings_same rfl (Same.refl [.cells] s)) (by decide)

theorem schedWords_setImage (m : Nat) (x : Image) (s : State) : schedWords (setImage m x s) = schedWords s := schedWords_congr rfl

theorem clock_setImage (m : Nat) (x : Image) (s : State) : clock (setImage m x s) = clock s := rfl

theorem schedWords_startImages (s : State) : schedWords (startImages s) = schedWords s := by
  unfold startImages
  dsimp only
  refine forEach_fixed schedWords (fun m t => ?_) _ s
  exact (forEach_fixed schedWords (fun c u => schedWords_startCell _ _ c u) _ _).trans
    ((schedWords_clearRings _ _).trans (schedWords_setImage _ _ t))

theorem clock_startImages (s : State) : clock (startImages s) = clock s := by
  unfold startImages
  dsimp only
  refine forEach_fixed clock (fun m t => ?_) _ s
  exact (forEach_fixed clock (fun c u => clock_startCell _ _ c u) _ _).trans ((clock_clearRings _ _).trans (clock_setImage _ _ t))

/-! ### Launches -/

theorem schedWords_returnResv (m n : Nat) (s : State) : schedWords (returnResv m n s) = schedWords s :=
  schedWords_wr (by simp only [F.POOL_RESV.VALUE]; omega) _ s

theorem schedWords_sendOptRecord (g : Granule) (c : Nat) (s : State) : schedWords (sendOptRecord g c s) = schedWords s :=
  (schedWords_events (sendFlit_regs rfl (Regs.refl _ _))).trans ((schedWords_charge 7 2 _ _).trans (schedWords_charge 7 0 _ s))

theorem schedWords_formTune (m launch : Nat) (s : State) : schedWords (formTune m launch s) = schedWords s := by
  unfold formTune
  dsimp only
  split
  · rfl
  · refine (forEach_fixed schedWords (fun c t => schedWords_sendOptRecord _ c t) _ _).trans
      ((schedWords_bumpBy (by decide) (by decide) _ _).trans ((schedWords_congr rfl).trans ?_))
    exact forEach_fixed schedWords
      (fun q t => schedWords_same (takeTuneSeq_same (m := m) (q := q) rfl (Same.refl [.kv] t)) (by decide)) _ s

theorem schedWords_addTele (m k n : Nat) (s : State) : schedWords (addTele m k n s) = schedWords s :=
  schedWords_same (addTele_same rfl (Same.refl [.svc] s)) (by decide)

theorem schedWords_formStep (m launch entry : Nat) (l : List (Request × StepSeq)) (s : State) :
    schedWords (formStep m launch entry l s) = schedWords s := by
  unfold formStep
  dsimp only
  refine (forEach_fixed schedWords (fun p t => schedWords_same (joinStep_same (p := p) rfl (Same.refl [.svc] t)) (by decide)) _ _).trans ?_
  refine (schedWords_addTele _ _ _ _).trans ((schedWords_addTele _ _ _ _).trans ?_)
  refine (schedWords_same (modModelSlot_same rfl (Same.refl [.svc] _)) (by decide)).trans ?_
  exact (schedWords_wr (by decide) _ _).trans (schedWords_congr rfl)

theorem schedWords_relaunch (e : LedgerEntry) (launch : Nat) (s : State) : schedWords (relaunch e launch s) = schedWords s :=
  (schedWords_addTele _ _ _ _).trans ((schedWords_bump (by decide) (by decide) _).trans (schedWords_congr rfl))

theorem schedWords_backSlot (m : Nat) (x : StepSeq) (s : State) : schedWords (backSlot m x s) = schedWords s := by
  unfold backSlot
  dsimp only
  refine (schedWords_same (setSeqSlot_same rfl (Same.refl [.kv] _)) (by decide)).trans ?_
  refine (schedWords_wr (by simp only [F.POOL_RESV.VALUE]; omega) _ _).trans ?_
  split
  · rfl
  · refine (schedWords_same (setSeqSlot_same rfl (clearPages_same rfl (Same.refl [.kv] _))) (by decide)).trans ?_
    exact (schedWords_returnResv _ _ _).trans (schedWords_same (clearList_same rfl (Same.refl [.stackMem] s)) (by decide))

theorem schedWords_launchBack (b : BackStep) (s : State) : schedWords (launchBack b s) = schedWords s := by
  have hslots (l : List (Request × StepSeq)) (t : State) : schedWords (forEach l (fun p => backSlot b.model p.2) t) = schedWords t := by
    refine forEach_fixed schedWords ?_ l t
    intro p u
    exact schedWords_backSlot b.model p.2 u
  unfold launchBack
  dsimp only
  rw [hslots, schedWords_addTele]
  exact schedWords_congr rfl

theorem schedWords_fillLaunch (p : LaunchPlan) (s : State) : schedWords (fillLaunch p s).2 = schedWords s := by
  unfold fillLaunch
  split
  · rfl
  · split
    · rfl
    · split
      · rfl
      · split
        · rfl
        · exact (schedWords_addTele _ _ _ _).trans (schedWords_formTune _ _ s)
    · split
      · split
        · split
          · exact schedWords_launchBack _ s
          · rfl
        · rfl
      · split
        · split
          · exact schedWords_relaunch _ _ s
          · rfl
        · dsimp only
          split
          · exact schedWords_formStep _ _ _ _ s
          · rfl

theorem clock_fillLaunch (p : LaunchPlan) (s : State) : clock (fillLaunch p s).2 = clock s :=
  clock_same (fillLaunch_same rfl (Same.refl [.win, .stackMem, .mesh, .budget, .kv, .svc, .ledger, .tune, .link, .ports, .ocl, .pair, .free] s))
    (by decide)

theorem schedWords_writeRing (m launch entry : Nat) (s : State) : schedWords (writeRing m launch entry s) = schedWords s :=
  schedWords_same (writeRing_same rfl (Same.refl [.cells, .sched] s)) (by decide)

theorem clock_writeRing (m launch entry : Nat) (s : State) : clock (writeRing m launch entry s) = clock s := by
  have hcells (f : Cell → Cell) : (forEach (image m s).cells (fun c => modCell c f) s).sched = s.sched :=
    forEach_fixed (f := fun c => modCell c f) (·.sched) (fun _ _ => rfl) _ s
  unfold writeRing clock
  dsimp only
  rw [hcells]

/-- A launch slot keeps what its launch's content, its count and its ring entry keep. -/
theorem doLaunch_fixed {β : Type} (g : State → β) (hfill : ∀ p t, g (fillLaunch p t).2 = g t) (hcount : ∀ m t, g (addTele m 3 1 t) = g t)
    (hring : ∀ m launch entry t, g (writeRing m launch entry t) = g t) (p : LaunchPlan) (s : State) : g (doLaunch p s) = g s := by
  unfold doLaunch
  split
  · exact (hring _ _ _ _).trans ((when_fixed g (hcount _) _).trans (hfill p s))
  · rfl

theorem schedWords_doLaunch (p : LaunchPlan) (s : State) : schedWords (doLaunch p s) = schedWords s :=
  doLaunch_fixed schedWords schedWords_fillLaunch (fun m t => schedWords_addTele m 3 1 t) schedWords_writeRing p s

theorem clock_doLaunch (p : LaunchPlan) (s : State) : clock (doLaunch p s) = clock s :=
  doLaunch_fixed clock clock_fillLaunch (fun _ _ => rfl) clock_writeRing p s

/-! ### Layers that change their form -/

theorem schedWords_setLayerPrec (m l : Nat) (x : LayerPrec) (s : State) : schedWords (setLayerPrec m l x s) = schedWords s :=
  schedWords_congr rfl

theorem schedWords_applyWiden (w : WidenChange) (s : State) : schedWords (applyWiden w s) = schedWords s := by
  unfold applyWiden
  dsimp only
  split
  · exact schedWords_setLayerPrec _ _ _ s
  · split
    · exact (schedWords_wr (by decide) _ _).trans (schedWords_setLayerPrec _ _ _ s)
    · exact schedWords_setLayerPrec _ _ _ s

theorem schedWords_enterLayer (n key : Nat) (s : State) : schedWords (enterLayer n key s) = schedWords s := by
  unfold enterLayer
  dsimp only
  split
  · rfl
  · refine (when_fixed schedWords (schedWords_setLayerPrec _ _ _) _).trans ?_
    split
    · rfl
    · exact schedWords_applyWiden _ s

theorem schedWords_fixCarried (s : State) : schedWords (fixCarried s) = schedWords s :=
  (forEach_fixed schedWords (fun w t => schedWords_congr (t := fixWiden w t) rfl) _ _).trans (schedWords_congr rfl)

/-! ### An advancing boundary -/

/-- The state in which SLOT_NO is one higher and the run of held boundaries is over. -/
def slotBegun (s : State) : State :=
  setCnt F.SLOT_NO ((slotNo s + 1) % 2 ^ 54) { s with sched := { s.sched with heldRun := 0, longHeld := false, plan := [] } }

/-- Syncs that complete, images that start and changes that are fixed. -/
def slotEntered (s : State) : State := fixCarried (startImages (releaseSyncs (slotBegun s)))

theorem advanceBoundary_eq (s : State) : advanceBoundary s =
    startIters (enterLayers (forEach (s.sched.plan ++ emptyStarts s.sched.plan (slotEntered s)) doLaunch (slotEntered s))) := rfl

theorem schedWords_advanceBoundary (s : State) : schedWords (advanceBoundary s) = schedWords (slotBegun s) :=
  calc schedWords (advanceBoundary s)
      = schedWords (forEach (s.sched.plan ++ emptyStarts s.sched.plan (slotEntered s)) doLaunch (slotEntered s)) := by
        rw [advanceBoundary_eq, schedWords_same (startIters_same rfl (Same.refl [.cells] _)) (by decide)]
        exact forEach_fixed schedWords (schedWords_enterLayer _) _ _
    _ = schedWords (slotEntered s) := forEach_fixed schedWords schedWords_doLaunch _ _
    _ = schedWords (releaseSyncs (slotBegun s)) := (schedWords_fixCarried _).trans (schedWords_startImages _)
    _ = schedWords (slotBegun s) := schedWords_same (releaseSyncs_same rfl (Same.refl [.cells] _)) (by decide)

theorem clock_advanceBoundary (s : State) : clock (advanceBoundary s) = (s.sched.phys, s.sched.decided, 0) :=
  calc clock (advanceBoundary s)
      = clock (forEach (s.sched.plan ++ emptyStarts s.sched.plan (slotEntered s)) doLaunch (slotEntered s)) := by
        rw [advanceBoundary_eq]
        exact clock_same (startIters_same rfl (enterLayers_same rfl (Same.refl [.win, .prec, .cells] _))) (by decide)
    _ = clock (slotEntered s) := forEach_fixed clock clock_doLaunch _ _
    _ = clock (startImages (releaseSyncs (slotBegun s))) := clock_same (fixCarried_same rfl (Same.refl [.win, .prec] _)) (by decide)
    _ = clock (releaseSyncs (slotBegun s)) := clock_startImages _
    _ = clock (slotBegun s) := clock_same (releaseSyncs_same rfl (Same.refl [.cells] _)) (by decide)

theorem slotNo_advanceBoundary (h : Table.wf resetWord s.win = true) : slotNo (advanceBoundary s) = (slotNo s + 1) % 2 ^ 54 := by
  have hbegun : slotNo (slotBegun s) = (slotNo s + 1) % 2 ^ 54 % 2 ^ 64 := cnt_setCnt h _ _
  rw [slotNo, cnt_of_schedWords (schedWords_advanceBoundary s) (by decide)]
  exact hbegun.trans (by omega)

/-! ### SLOT_BOUNDARY after a decision -/

theorem exec_slotBoundary (s : State) : exec .slotBoundary s = .next (slotBoundary s) := rfl

theorem slotBoundary_held (hd : s.sched.decided = true) (hh : bitAt s.sched.slotWord 32 = true) :
    slotBoundary s = heldBoundary (boundaryCommon s) := by
  unfold slotBoundary
  simp only [hd, hh, if_true]

/-- What the boundary brought for cells that start is used up. -/
def envsTaken (s : State) : State := { s with sched := { s.sched with startEnvs := [] } }

theorem clock_envsTaken (s : State) : clock (envsTaken s) = clock s := rfl

theorem slotNo_envsTaken (s : State) : slotNo (envsTaken s) = slotNo s := cnt_congr rfl _

theorem slotBoundary_advance (hd : s.sched.decided = true) (hh : bitAt s.sched.slotWord 32 = false) :
    slotBoundary s = envsTaken (advanceBoundary (boundaryCommon s)) := by
  unfold slotBoundary
  simp only [hd, hh, if_true, Bool.false_eq_true, if_false]
  rfl

theorem boundaryCommon_slotNo (s : State) : slotNo (boundaryCommon s) = slotNo s :=
  cnt_of_schedWords (schedWords_boundaryCommon s) (by decide)

theorem slotNo_heldBoundary (s : State) : slotNo (heldBoundary s) = slotNo s := by
  have hword {o : Nat} (ho : o = F.SLOT_NO ∨ o = F.SLOT_NO + 4) : reg o (heldBoundary s) = reg o s := by
    rw [reg_heldBoundary (by rcases ho with rfl | rfl <;> decide)]
    unfold heldShown
    rw [(raise_writes _ _).reg _ (by rcases ho with rfl | rfl <;> decide)]
    exact (reg_bump_ne (by rcases ho with rfl | rfl <;> decide) (by rcases ho with rfl | rfl <;> decide) _).trans (reg_congr rfl o)
  unfold slotNo cnt
  rw [hword (.inl rfl), hword (.inr rfl)]

theorem rd_heldBoundary (h : Table.wf resetWord s.win = true) : rd F.SCHED_STS.HELD (heldBoundary s) = 1 := by
  have hshown : rd F.SCHED_STS.HELD (heldBoundary s) = rd F.SCHED_STS.HELD (heldShown s) := by
    unfold rd
    rw [reg_heldBoundary (by decide)]
  have hwin : Table.wf resetWord (bump F.HELD_SLOT_CNT { s with sched := { s.sched with heldRun := s.sched.heldRun + 1 } }).win = true := by
    refine win_bump ?_ _
    exact h
  exact hshown.trans (rd_raise hwin rfl (by decide) (by decide))

theorem cnt_heldBoundary (h : Table.wf resetWord s.win = true) :
    cnt F.HELD_SLOT_CNT (heldBoundary s) = (cnt F.HELD_SLOT_CNT s + 1) % 2 ^ 64 := by
  have hraised (u : State) : cnt F.HELD_SLOT_CNT (raise F.SCHED_STS.HELD u) = cnt F.HELD_SLOT_CNT u :=
    (raise_writes _ u).cnt (by decide) (by decide)
  have hshown : cnt F.HELD_SLOT_CNT (heldBoundary s) = cnt F.HELD_SLOT_CNT (heldShown s) := by
    unfold cnt
    rw [reg_heldBoundary (by decide), reg_heldBoundary (by decide)]
  exact hshown.trans ((hraised _).trans (cnt_bump h _))

/-- Settles O25: what both boundaries do leaves the schedule's registers, a held one writes only its own flag and counters, and of an
advancing one nothing after the count of slots writes them. -/
theorem boundariesHoldOrAdvance : Obligations.BoundariesHoldOrAdvance := by
  unfold Obligations.BoundariesHoldOrAdvance
  intro s hwf hd
  have hwin : Table.wf resetWord (boundaryCommon s).win = true := ((boundaryCommon_keeps (Keeps.refl s)).tables hwf).win
  have hcommon := clock_boundaryCommon s
  simp only [clock, Prod.mk.injEq] at hcommon
  obtain ⟨hphys, hdecided, hrun⟩ := hcommon
  cases hh : bitAt s.sched.slotWord 32 with
  | true =>
    have hclock := clock_heldBoundary (boundaryCommon s)
    simp only [clock, Prod.mk.injEq, hphys, hdecided, hrun] at hclock
    obtain ⟨hphys', hdecided', hrun'⟩ := hclock
    rw [exec_slotBoundary, slotBoundary_held hd hh]
    refine ⟨_, rfl, hphys', hdecided', fun _ => ⟨?_, rd_heldBoundary hwin, hrun', ?_⟩, by simp⟩
    · rw [slotNo_heldBoundary, boundaryCommon_slotNo]
    · rw [cnt_heldBoundary hwin, cnt_of_schedWords (schedWords_boundaryCommon s) (by decide)]
  | false =>
    have hclock := (clock_envsTaken _).trans (clock_advanceBoundary (boundaryCommon s))
    simp only [clock, Prod.mk.injEq, hphys, hdecided] at hclock
    obtain ⟨hphys', hdecided', hrun'⟩ := hclock
    rw [exec_slotBoundary, slotBoundary_advance hd hh]
    refine ⟨_, rfl, hphys', hdecided', by simp, fun _ => ⟨?_, hrun'⟩⟩
    rw [slotNo_envsTaken, slotNo_advanceBoundary hwin, boundaryCommon_slotNo]

end Sys2Proof.Machine
end

section
/-!
SUPPORT. Requests that end and steps that are abandoned leave the schedule's registers (R173, R233, R240).
-/
namespace Sys2Proof.Machine
open Sys2Proof

variable {s t : State}

/-! ### Output rings -/

theorem schedWords_writeEntry (r : Nat) (e : OutEntry) (s : State) : schedWords (writeEntry r e s) = schedWords s := by
  unfold writeEntry
  dsimp only
  refine (when_fixed schedWords (schedWords_interrupt _) _).trans ?_
  rw [schedWords_sendWrPart, schedWords_sendWr]
  exact schedWords_congr rfl

theorem schedWords_drainRing (n r : Nat) (s : State) : schedWords (drainRing n r s) = schedWords s := by
  induction n generalizing s with
  | zero => rfl
  | succ n ih =>
    unfold drainRing
    dsimp only
    split
    · rfl
    · split
      · exact (ih _).trans ((schedWords_writeEntry _ _ _).trans (schedWords_congr rfl))
      · rfl

theorem schedWords_putEntry (r : Nat) (e : OutEntry) (s : State) : schedWords (putEntry r e s) = schedWords s :=
  (schedWords_drainRing _ r _).trans (schedWords_congr rfl)

theorem schedWords_putCmdDone (r model reqId status data : Nat) (s : State) :
    schedWords (putCmdDone r model reqId status data s) = schedWords s := schedWords_putEntry r _ s

theorem schedWords_putDone (r model reqId status : Nat) (s : State) : schedWords (putDone r model reqId status s) = schedWords s :=
  schedWords_putEntry r _ s

/-! ### Sequences, handles and requests that end -/

theorem schedWords_releaseSeq (q : Nat) (kept : Bool) (s : State) : schedWords (releaseSeq q kept s) = schedWords s := by
  have hcleared (x : SeqSlot) (ps : List PageEntry) (u : State) : schedWords (setSeqSlot q x (forgetKv q (clearList q ps u))) = schedWords u :=
    schedWords_same (setSeqSlot_same rfl (forgetKv_same rfl (clearList_same rfl (Same.refl [.kv, .stackMem] u)))) (by decide)
  unfold releaseSeq
  dsimp only
  split
  · rfl
  · exact (hcleared _ _ _).trans ((schedWords_congr rfl).trans (schedWords_returnResv _ _ s))

theorem schedWords_finishPfx (h : Nat) (s : State) : schedWords (finishPfx h s) = schedWords s := by
  unfold finishPfx
  split
  · rfl
  · exact (forEach_fixed schedWords (fun r t => schedWords_putCmdDone _ _ _ _ _ t) _ _).trans (schedWords_congr rfl)

theorem schedWords_retirePfx (h : Nat) (s : State) : schedWords (retirePfx h s) = schedWords s := by
  unfold retirePfx
  split
  · rfl
  · split
    · split
      · exact schedWords_finishPfx h s
      · exact schedWords_congr rfl
    · rfl

theorem schedWords_unusePfx (h : Nat) (s : State) : schedWords (unusePfx h s) = schedWords s :=
  (schedWords_retirePfx h _).trans (schedWords_congr rfl)

theorem schedWords_dropPfx (h : Nat) (s : State) : schedWords (dropPfx h s) = schedWords s := schedWords_congr rfl

theorem schedWords_endEntry (q : Request) (status : Nat) (s : State) : schedWords (endEntry q status s) = schedWords s := by
  unfold endEntry
  split
  · exact schedWords_putCmdDone _ _ _ _ _ s
  · exact schedWords_putDone _ _ _ _ s

/-- A request of which a fault left nothing to replay is shown and counted. -/
theorem schedWords_faultEnd (s : State) : schedWords (raise F.FLT_STS.REPLAY_FAIL (bump F.FAULT_END_CNT s)) = schedWords s :=
  (schedWords_raise (by decide) _).trans (schedWords_bump (by decide) (by decide) s)

theorem schedWords_endRequest (id status : Nat) (s : State) : schedWords (endRequest id status s) = schedWords s := by
  unfold endRequest
  split
  · rfl
  · dsimp only
    refine (forEach_fixed schedWords (fun c t => schedWords_putCmdDone _ _ _ _ _ t) _ _).trans ?_
    refine (when_fixed schedWords (schedWords_dropPfx _) _).trans ?_
    refine (when_fixed schedWords (schedWords_unusePfx _) _).trans ?_
    refine (when_fixed schedWords (schedWords_releaseSeq _ _) _).trans ?_
    refine (when_fixed schedWords schedWords_faultEnd _).trans ?_
    exact (schedWords_endEntry _ _ _).trans (schedWords_congr rfl)

/-! ### A slot that fails -/

theorem schedWords_abandonLedger (i : Nat) (s : State) : schedWords (abandonLedger i s) = schedWords s := by
  unfold abandonLedger
  split
  · exact (schedWords_wr (by decide) _ _).trans (schedWords_congr rfl)
  · rfl

theorem schedWords_unreserve (r : Nat) (s : State) : schedWords (unreserve r s) = schedWords s := schedWords_congr rfl

theorem schedWords_discardKv (q : Nat) (s : State) : schedWords (discardKv q s) = schedWords s := schedWords_congr rfl

theorem schedWords_abandonStep (e : LedgerEntry) (s : State) : schedWords (abandonStep e s) = schedWords s := by
  unfold abandonStep
  rw [schedWords_abandonLedger, schedWords_same (outOfStep_same rfl (Same.refl [.svc] _)) (by decide),
    forEach_fixed schedWords schedWords_discardKv, forEach_fixed schedWords schedWords_unreserve]

theorem schedWords_stopCells (m : Nat) (s : State) : schedWords (stopCells m s) = schedWords s :=
  schedWords_same (stopCells_same rfl (Same.refl [.cells] s)) (by decide)

theorem schedWords_failSlot (m : Nat) (s : State) : schedWords (failSlot m s) = schedWords s := by
  unfold failSlot modImage
  dsimp only
  refine (schedWords_setImage _ _ _).trans ((schedWords_stopCells _ _).trans ?_)
  refine (forEach_fixed schedWords (fun id t => schedWords_endRequest id 7 t) _ _).trans ?_
  refine (forEach_fixed schedWords schedWords_abandonStep _ _).trans ?_
  exact schedWords_wr (by simp only [F.MODEL_SCHED.STATE]; omega) _ s

end Sys2Proof.Machine
end
section
/-!
SUPPORT. The load check: GO, its reads and its end (R137, R150 to R152, R510).
-/
namespace Sys2Proof.Machine
open Sys2Proof

variable {s t : State} {m : Nat} {c : LoadRead} {x : LoadRest} {f : LoadFail} {h : BitVec 512}

/-- Two fields that share no bit. -/
abbrev Apart (f g : Fld) : Prop := f.off ≠ g.off ∨ g.lo + g.w ≤ 32 ∧ (f.lo + f.w ≤ g.lo ∨ g.lo + g.w ≤ f.lo)

theorem rd_wr_apart (hw : Table.wf resetWord s.win = true) {f g : Fld} (hd : Apart f g) (v : Nat) : rd f (wr g v s) = rd f s := by
  by_cases ho : f.off = g.off
  · obtain ⟨hg, hbits⟩ := hd.resolve_left (fun hne => hne ho)
    exact rd_wr_field hw ho hg hbits v
  · exact rd_wr_ne ho v s

/-! ### The check in progress -/

/-- The check that runs. -/
def checkOf (s : State) : Option LoadRead := s.sched.checking

theorem checkOf_same {l : List Part} (h : Same l s t) (hl : Part.sched ∉ l) : checkOf t = checkOf s :=
  congrArg Sched.checking (h.part .sched hl)

theorem checkOf_setImage (m : Nat) (x : Image) (s : State) : checkOf (setImage m x s) = checkOf s := rfl

theorem checkOf_wr (f : Fld) (v : Nat) (s : State) : checkOf (wr f v s) = checkOf s := rfl

theorem checkOf_raise (f : Fld) (s : State) : checkOf (raise f s) = checkOf s := checkOf_same (raise_same_refl f s) (by decide)

theorem checkOf_failSlot (m : Nat) (s : State) : checkOf (failSlot m s) = checkOf s := by
  unfold failSlot modImage
  dsimp only
  rw [checkOf_setImage, checkOf_same (stopCells_same rfl (Same.refl [.cells] _)) (by decide)]
  refine (forEach_fixed checkOf (fun id t => checkOf_same
    (endRequest_same rfl (Same.refl [.win, .stackMem, .kv, .svc, .link, .ports, .ocl] t)) (by decide)) _ _).trans ?_
  refine (forEach_fixed checkOf (fun e t => checkOf_same (abandonStep_same rfl (Same.refl [.win, .kv, .svc, .ledger] t)) (by decide)) _ _).trans ?_
  exact checkOf_wr _ _ s

/-! ### GO -/

/-- The registers as GO leaves them, before the check begins to read. -/
def goShown (v : Word) (s : State) : State :=
  wr F.LOAD_CELL.STRUCT 0 (wr F.LOAD_STATE.REASON 0 (wr F.LOAD_STATE.FAIL 0 (wr F.LOAD_STATE.PASS 0
    (wr F.LOAD_STATE.BUSY 1 (wr F.LOAD_CTRL.MODEL (fieldOf v 0 4) s)))))

/-- The check that GO begins. -/
def goCheck (v : Word) (s : State) : LoadRead := .start (fieldOf v 0 4) (tableAddr s)

theorem loadGo_starts {v : Word} (hgo : bitAt v 4 = true) (hidle : s.sched.checking = none) (hm : loadable (fieldOf v 0 4) s = true) :
    loadGo v s = readCheck (goCheck v s) 0 (goShown v s) := by
  unfold loadGo
  simp only [hgo, hidle, hm, Option.isSome_none, Bool.not_true, Bool.false_eq_true, or_self, if_false]
  rfl

/-- A check begins with the line at `LOAD_TABLE` (R149, R510). -/
theorem readCheck_begins (c : LoadRead) (s : State) : readCheck c 0 s =
    startFetch (.check c.model 0) c.table 64 { s with sched := { s.sched with checking := some c } } := rfl

theorem schedWords_startFetch (u : FetchUse) (a n : Nat) (s : State) : schedWords (startFetch u a n s) = schedWords s :=
  schedWords_events (startFetch_regs rfl (Regs.refl _ _))

theorem schedWords_readCheck (c : LoadRead) (s : State) : schedWords (readCheck c 0 s) = schedWords s := by
  rw [readCheck_begins, schedWords_startFetch]
  exact schedWords_congr rfl

theorem checkOf_readCheck (c : LoadRead) (s : State) : checkOf (readCheck c 0 s) = some c := by
  rw [readCheck_begins]
  exact checkOf_same (startFetch_same rfl (Same.refl [.win, .link, .ports, .ocl] _)) (by decide)

/-- What `LOAD_CTRL` and `LOAD_STATE` show once GO has begun a check. -/
theorem goShown_shows (hw : Table.wf resetWord s.win = true) (v : Word) :
    rd F.LOAD_CTRL.MODEL (goShown v s) = fieldOf v 0 4 ∧ rd F.LOAD_STATE.BUSY (goShown v s) = 1 ∧
      rd F.LOAD_STATE.PASS (goShown v s) = 0 ∧ rd F.LOAD_STATE.FAIL (goShown v s) = 0 := by
  have hmodel := win_wr hw F.LOAD_CTRL.MODEL (fieldOf v 0 4)
  have hbusy := win_wr hmodel F.LOAD_STATE.BUSY 1
  have hpass := win_wr hbusy F.LOAD_STATE.PASS 0
  have hfail := win_wr hpass F.LOAD_STATE.FAIL 0
  have hreason := win_wr hfail F.LOAD_STATE.REASON 0
  unfold goShown
  refine ⟨?_, ?_, ?_, ?_⟩
  · rw [rd_wr_apart hreason (by decide), rd_wr_apart hfail (by decide), rd_wr_apart hpass (by decide), rd_wr_apart hbusy (by decide),
      rd_wr_apart hmodel (by decide), rd_wr_self hw (by decide)]
    exact Nat.mod_eq_of_lt (Nat.mod_lt _ (by decide))
  · rw [rd_wr_apart hreason (by decide), rd_wr_apart hfail (by decide), rd_wr_apart hpass (by decide), rd_wr_apart hbusy (by decide),
      rd_wr_self hmodel (by decide)]
    rfl
  · rw [rd_wr_apart hreason (by decide), rd_wr_apart hfail (by decide), rd_wr_apart hpass (by decide), rd_wr_self hbusy (by decide)]
    rfl
  · rw [rd_wr_apart hreason (by decide), rd_wr_apart hfail (by decide), rd_wr_self hpass (by decide)]
    rfl

/-! ### The end of a check -/

/-- A check has come to its end, and what the schedule's registers say of it is still to be written. -/
structure CheckOver (s : State) : Prop where
  wf : s.TablesWf
  none : checkOf s = none
  idle : rd F.LOAD_STATE.BUSY s = 0

/-- No check runs and `SCHED_STS.LOAD_DONE` is set. -/
structure CheckEnded (s : State) : Prop where
  none : checkOf s = none
  idle : rd F.LOAD_STATE.BUSY s = 0
  shown : rd F.SCHED_STS.LOAD_DONE s = 1

/-- The state in which a check has ended. -/
def checkClosed (s : State) : State := wr F.LOAD_STATE.BUSY 0 { s with sched := { s.sched with checking := none } }

theorem checkClosed_over (hw : s.TablesWf) : CheckOver (checkClosed s) where
  wf := { hw with win := Table.wf_set _ _ _ _ hw.win }
  none := rfl
  idle := by
    unfold checkClosed
    refine rd_wr_self ?_ (by decide) 0
    exact hw.win

theorem schedWords_readContents (m : Nat) (h : BitVec 512) (inp : LoadInput) (envs : CellEnvs) (f : Option LoadFail) (s : State) :
    schedWords (readContents m h inp envs f s) = schedWords s :=
  forEach_fixed schedWords (fun c t => schedWords_loadReads c 4 _ _ t) _ s

theorem checkOf_readContents (m : Nat) (h : BitVec 512) (inp : LoadInput) (envs : CellEnvs) (f : Option LoadFail) (s : State) :
    checkOf (readContents m h inp envs f s) = checkOf s :=
  forEach_fixed checkOf (fun c t => checkOf_same (loadReads_same rfl (Same.refl [.win, .cells, .mesh, .link, .ports, .ocl] t)) (by decide)) _ s

theorem CheckOver.readContents (k : CheckOver s) (m : Nat) (h : BitVec 512) (inp : LoadInput) (envs : CellEnvs) (f : Option LoadFail) :
    CheckOver (readContents m h inp envs f s) where
  wf := (readContents_keeps (Keeps.refl s)).tables k.wf
  none := (checkOf_readContents ..).trans k.none
  idle := (rd_of_schedWords (schedWords_readContents ..) (by decide)).trans k.idle

/-! ### A check that fails -/

/-- What a failing check shows in the schedule's registers (R151, R173). -/
def failShown (f : LoadFail) (s : State) : State :=
  wr F.LOAD_DETAIL.DETAIL f.detail (wr F.LOAD_CELL.STRUCT f.struct (wr F.LOAD_CELL.CELL f.cell
    (wr F.LOAD_STATE.REASON f.reason (wr F.LOAD_STATE.FAIL 1 s))))

theorem checkOf_failShown (f : LoadFail) (s : State) : checkOf (failShown f s) = checkOf s := rfl

theorem loadFailed_eq (m : Nat) (f : LoadFail) (s : State) : loadFailed m f s = raise F.SCHED_STS.LOAD_DONE (failShown f (failSlot m s)) := rfl

/-- What `LOAD_STATE` shows of a failing check. -/
theorem failShown_shows (hw : Table.wf resetWord s.win = true) (f : LoadFail) :
    rd F.LOAD_STATE.BUSY (failShown f s) = rd F.LOAD_STATE.BUSY s ∧ rd F.LOAD_STATE.FAIL (failShown f s) = 1 ∧
      rd F.LOAD_STATE.REASON (failShown f s) = f.reason % 2 ^ F.LOAD_STATE.REASON.w := by
  have hfail := win_wr hw F.LOAD_STATE.FAIL 1
  unfold failShown
  refine ⟨?_, ?_, ?_⟩
  · rw [rd_wr_ne (by decide), rd_wr_ne (by decide), rd_wr_ne (by decide), rd_wr_apart hfail (by decide), rd_wr_apart hw (by decide)]
  · rw [rd_wr_ne (by decide), rd_wr_ne (by decide), rd_wr_ne (by decide), rd_wr_apart hfail (by decide), rd_wr_self hw (by decide)]
    rfl
  · rw [rd_wr_ne (by decide), rd_wr_ne (by decide), rd_wr_ne (by decide), rd_wr_self hfail (by decide)]

theorem failShown_win (hw : Table.wf resetWord s.win = true) (f : LoadFail) : Table.wf resetWord (failShown f s).win = true :=
  win_wr (win_wr (win_wr (win_wr (win_wr hw _ _) _ _) _ _) _ _) _ _

/-- `LOAD_STATE` is not the register whose bit is set. -/
theorem rd_loadState_done {f : Fld} (hf : f.off = 0x3084) (s : State) : rd f (raise F.SCHED_STS.LOAD_DONE s) = rd f s :=
  (raise_writes _ s).rd (by rw [hf]; decide)

theorem loadFailed_ends (k : CheckOver s) (m : Nat) (f : LoadFail) :
    CheckEnded (loadFailed m f s) ∧ rd F.LOAD_STATE.FAIL (loadFailed m f s) = 1 ∧
      rd F.LOAD_STATE.REASON (loadFailed m f s) = f.reason % 2 ^ F.LOAD_STATE.REASON.w := by
  have hw : Table.wf resetWord (failSlot m s).win = true := ((failSlot_keeps (Keeps.refl s)).tables k.wf).win
  obtain ⟨hbusy, hfail, hreason⟩ := failShown_shows hw f
  have hidle : rd F.LOAD_STATE.BUSY (failSlot m s) = 0 := (rd_of_schedWords (schedWords_failSlot m s) (by decide)).trans k.idle
  rw [loadFailed_eq, rd_loadState_done rfl, rd_loadState_done rfl]
  refine ⟨⟨?_, ?_, ?_⟩, hfail, hreason⟩
  · rw [checkOf_raise, checkOf_failShown, checkOf_failSlot, k.none]
  · rw [rd_loadState_done rfl, hbusy, hidle]
  · exact rd_raise (failShown_win hw f) rfl (by decide) (by decide)

/-! ### A check that passes -/

/-- What a passing check shows in the schedule's registers (R137, R151). -/
def passShown (m interval : Nat) (s : State) : State :=
  wr F.LOAD_STATE.PASS 1 (wr (F.MODEL_SCHED.STATE m) 2 (wr (F.MODEL_SCHED.INTERVAL m) interval s))

theorem image_setImage (h : Table.wf (fun _ => Image.reset) s.sched.images = true) (m : Nat) (x : Image) : image m (setImage m x s) = x :=
  Table.get_set_self _ h _ _

theorem image_congr (h : t.sched = s.sched) (m : Nat) : image m t = image m s := by
  unfold image
  rw [h]

/-- The image that a passing check makes waits to start. -/
theorem loadPassed_eq (m : Nat) (inp : LoadInput) (s : State) : ∃ im u, loadPassed m inp s =
    raise F.SCHED_STS.LOAD_DONE (tuneReloaded m (passShown m im.interval (setImage m im u))) ∧ im.toStart = true ∧ u.win = s.win ∧
      u.sched.images = s.sched.images ∧ checkOf u = checkOf s := ⟨_, _, rfl, rfl, rfl, rfl, rfl⟩

theorem reg_tuneReloaded {o : Nat} (ho : o ≠ O.TUNE_STATE) (m : Nat) (s : State) : reg o (tuneReloaded m s) = reg o s := by
  unfold tuneReloaded
  split
  · rw [reg_wr_ne ho, reg_wr_ne ho, reg_wr_ne ho]
  · rfl

theorem win_tuneReloaded (hw : Table.wf resetWord s.win = true) (m : Nat) : Table.wf resetWord (tuneReloaded m s).win = true := by
  unfold tuneReloaded
  split
  · exact win_wr (win_wr (win_wr hw _ _) _ _) _ _
  · exact hw

theorem tuneReloaded_sched (m : Nat) (s : State) : (tuneReloaded m s).sched = s.sched :=
  (tuneReloaded_same rfl (Same.refl [.win] s)).part .sched (by decide)

/-- The registers of a passing check, before `SCHED_STS.LOAD_DONE` is set. -/
theorem passShown_shows (hw : Table.wf resetWord s.win = true) (m interval : Nat) :
    rd F.LOAD_STATE.BUSY (passShown m interval s) = rd F.LOAD_STATE.BUSY s ∧ rd F.LOAD_STATE.PASS (passShown m interval s) = 1 ∧
      rd (F.MODEL_SCHED.STATE m) (passShown m interval s) = 2 := by
  have hm (f : Fld) (hf : f.off = 0x3084) : f.off ≠ 0x30c0 + m * 4 := by omega
  have hinterval := win_wr hw (F.MODEL_SCHED.INTERVAL m) interval
  have hstate := win_wr hinterval (F.MODEL_SCHED.STATE m) 2
  unfold passShown
  refine ⟨?_, ?_, ?_⟩
  · rw [rd_wr_apart hstate (by decide), rd_wr_ne (hm _ rfl), rd_wr_ne (hm _ rfl)]
  · rw [rd_wr_self hstate (by decide)]
    rfl
  · rw [rd_wr_ne (hm F.LOAD_STATE.PASS rfl).symm, rd_wr_self hinterval (by decide : 12 + 2 ≤ 32)]
    rfl

theorem loadPassed_ends (k : CheckOver s) (hm : m < 16) (inp : LoadInput) :
    CheckEnded (loadPassed m inp s) ∧ rd F.LOAD_STATE.PASS (loadPassed m inp s) = 1 ∧
      rd (F.MODEL_SCHED.STATE m) (loadPassed m inp s) = 2 ∧ (image m (loadPassed m inp s)).toStart = true := by
  obtain ⟨im, u, hpassed, hstart, hwin, himages, hcheck⟩ := loadPassed_eq m inp s
  have hu : Table.wf resetWord (setImage m im u).win = true := hwin ▸ k.wf.win
  have hidle : rd F.LOAD_STATE.BUSY (setImage m im u) = 0 := (rd_congr hwin _).trans k.idle
  obtain ⟨hbusy, hpass, hstate⟩ := passShown_shows hu m im.interval
  have hreloaded {f : Fld} (hf : f.off ≠ O.TUNE_STATE) (v : State) : rd f (tuneReloaded m v) = rd f v := by
    unfold rd
    rw [reg_tuneReloaded hf]
  have hlast := win_tuneReloaded (win_wr (win_wr (win_wr hu (F.MODEL_SCHED.INTERVAL m) im.interval) (F.MODEL_SCHED.STATE m) 2) F.LOAD_STATE.PASS 1) m
  have hsched : (raise F.SCHED_STS.LOAD_DONE (tuneReloaded m (passShown m im.interval (setImage m im u)))).sched = (setImage m im u).sched :=
    ((raise_same_refl _ _).part .sched (by decide)).trans (tuneReloaded_sched m _)
  rw [hpassed]
  refine ⟨⟨?_, ?_, ?_⟩, ?_, ?_, ?_⟩
  · exact (congrArg Sched.checking hsched).trans (hcheck.trans k.none)
  · rw [rd_loadState_done rfl, hreloaded (by decide), hbusy, hidle]
  · exact rd_raise hlast rfl (by decide) (by decide)
  · rw [rd_loadState_done rfl, hreloaded (by decide), hpass]
  · have hoff : (F.MODEL_SCHED.STATE m).off = 0x30c0 + m * 4 := rfl
    rw [(raise_writes _ _).rd (by rw [hoff]; simp [F.SCHED_STS.LOAD_DONE]; omega), hreloaded (by rw [hoff]; simp only [O.TUNE_STATE]; omega), hstate]
  · rw [image_congr hsched, image_setImage (himages ▸ k.wf.images), hstart]

/-! ### LOAD_CHECK_DONE, case by case -/

theorem loadCheckDone_reading (hc : s.sched.checking = some c) (hr : c.ready = false) : loadCheckDone x s = s := by
  unfold loadCheckDone
  simp [hc, hr]

theorem loadCheckDone_noTable (hc : s.sched.checking = some c) (hr : c.ready = true) (hh : (loadInput c x).header = none) :
    loadCheckDone x s = loadFailed c.model (tableFail 0 (loadInput c x).readAt) (checkClosed s) := by
  unfold loadCheckDone
  simp only [hc, hr, hh, Bool.not_true, Bool.false_eq_true, if_false]
  rfl

/-- Once a header has been read, the parts that need no weights are judged, and the contents where those pass and no load goes on. -/
theorem loadCheckDone_tables (hc : s.sched.checking = some c) (hr : c.ready = true) (hh : (loadInput c x).header = some h)
    (hf : checkTables c.model h (loadInput c x) (applyTables s) = some f) : loadCheckDone x s = loadFailed c.model f (checkClosed s) := by
  unfold loadCheckDone
  simp only [hc, hr, hh, hf, Bool.not_true, Bool.false_eq_true, if_false]
  rfl

section
variable (hc : s.sched.checking = some c) (hr : c.ready = true) (hh : (loadInput c x).header = some h)
  (hf : checkTables c.model h (loadInput c x) (applyTables s) = none)
include hc hr hh hf

theorem loadCheckDone_loading (hb : (modelSlot c.model s).loading ≠ none ∨ (modelSlot c.model s).recv ≠ none) : loadCheckDone x s = s := by
  unfold loadCheckDone
  simp only [Option.isSome_iff_ne_none, hc, hr, hh, hf, hb, Bool.not_true, Bool.false_eq_true, if_false, if_true]

theorem loadCheckDone_contents (hb : ¬ ((modelSlot c.model s).loading ≠ none ∨ (modelSlot c.model s).recv ≠ none))
    (hk : checkContents c.model h (loadInput c x) x.envs (applyTables s) = some f) :
    loadCheckDone x s = loadFailed c.model f (readContents c.model h (loadInput c x) x.envs (some f) (checkClosed s)) := by
  unfold loadCheckDone
  simp only [Option.isSome_iff_ne_none, hc, hr, hh, hf, hb, hk, Bool.not_true, Bool.false_eq_true, if_false]
  rfl

theorem loadCheckDone_passes (hb : ¬ ((modelSlot c.model s).loading ≠ none ∨ (modelSlot c.model s).recv ≠ none))
    (hk : checkContents c.model h (loadInput c x) x.envs (applyTables s) = none) :
    loadCheckDone x s = loadPassed c.model (loadInput c x) (readContents c.model h (loadInput c x) x.envs none (checkClosed s)) := by
  unfold loadCheckDone
  simp only [Option.isSome_iff_ne_none, hc, hr, hh, hf, hb, hk, Bool.not_true, Bool.false_eq_true, if_false]
  rfl

end

theorem exec_loadGo (v : Word) (s : State) : exec (.loadGo v) s = .next (loadGo v s) := rfl

theorem exec_loadCheckDone (x : LoadRest) (s : State) : exec (.loadCheckDone x) s = .next (loadCheckDone x s) := rfl

/-- GO of a slot that can be checked begins the check and shows it. -/
theorem loadGo_shows (hw : s.TablesWf) {v : Word} (hgo : bitAt v 4 = true) (hidle : s.sched.checking = none)
    (hm : loadable (fieldOf v 0 4) s = true) : checkOf (loadGo v s) = some (goCheck v s) ∧ rd F.LOAD_CTRL.MODEL (loadGo v s) = fieldOf v 0 4 ∧
      rd F.LOAD_STATE.BUSY (loadGo v s) = 1 ∧ rd F.LOAD_STATE.PASS (loadGo v s) = 0 ∧ rd F.LOAD_STATE.FAIL (loadGo v s) = 0 := by
  have hregs := schedWords_readCheck (goCheck v s) (goShown v s)
  rw [loadGo_starts hgo hidle hm, checkOf_readCheck, rd_of_schedWords hregs (by decide), rd_of_schedWords hregs (by decide),
    rd_of_schedWords hregs (by decide), rd_of_schedWords hregs (by decide)]
  exact ⟨rfl, goShown_shows hw.win v⟩

/-- Settles O26: GO's reads and the fault of a slot leave the schedule's registers, so `LOAD_STATE` shows what GO and the check's end wrote. -/
theorem loadCheckRunsAndEnds : Obligations.LoadCheckRunsAndEnds := by
  unfold Obligations.LoadCheckRunsAndEnds
  intro s hwf
  refine ⟨fun v hgo hidle hm => ?_, fun c x hc hr => ?_, fun c x hc hr hm => ?_⟩
  · obtain ⟨hcheck, hshown⟩ := loadGo_shows hwf hgo hidle hm
    exact ⟨_, exec_loadGo v s, ⟨goCheck v s, hcheck, rfl, rfl, rfl⟩, hshown⟩
  · rw [exec_loadCheckDone, loadCheckDone_reading hc hr]
  · have hover := checkClosed_over hwf
    dsimp only
    simp only [exec_loadCheckDone]
    refine ⟨fun hh => ?_, fun h f hh hf => ?_, fun h hh hf hb => ?_, fun h f hh hf hb hk => ?_, fun h hh hf hb hk => ?_⟩
    · obtain ⟨⟨hnone, hidle, hdone⟩, hfail⟩ := loadFailed_ends hover c.model (tableFail 0 (loadInput c x).readAt)
      exact ⟨_, congrArg Host.Outcome.next (loadCheckDone_noTable hc hr hh), ⟨hnone, hidle, hdone⟩, hfail⟩
    · obtain ⟨⟨hnone, hidle, hdone⟩, hfail⟩ := loadFailed_ends hover c.model f
      exact ⟨_, congrArg Host.Outcome.next (loadCheckDone_tables hc hr hh hf), ⟨hnone, hidle, hdone⟩, hfail⟩
    · rw [loadCheckDone_loading hc hr hh hf hb]
    · obtain ⟨⟨hnone, hidle, hdone⟩, hfail⟩ := loadFailed_ends (hover.readContents c.model h (loadInput c x) x.envs (some f)) c.model f
      exact ⟨_, congrArg Host.Outcome.next (loadCheckDone_contents hc hr hh hf hb hk), ⟨hnone, hidle, hdone⟩, hfail⟩
    · obtain ⟨⟨hnone, hidle, hdone⟩, hpass⟩ := loadPassed_ends (hover.readContents c.model h (loadInput c x) x.envs none) hm (loadInput c x)
      exact ⟨_, congrArg Host.Outcome.next (loadCheckDone_passes hc hr hh hf hb hk), ⟨hnone, hidle, hdone⟩, hpass⟩

end Sys2Proof.Machine
end

section
/-!
SUPPORT. What the ends of requests leave of the registers (R215, R216, R225 to R227, R236): rings, handles and sequences that end write few
registers, and whatever is read of the others stands.
-/
namespace Sys2Proof.Machine
open Sys2Proof

/-- Registers that entries of output rings and ends of requests write, beside POOL_RESV and FLT_STS: `OCL_STS` and the count of dropped
events, `LEDGER_USE`, `FAULT_END_CNT`. -/
def serviceRegs : List Nat := [0xa000, 0xa070, 0xa074, 0xb018, 0xb050, 0xb054]

/-- What is read of the registers stands over every write of a ring entry and over every end of a request. -/
structure Unserved {β : Type} (f : State → β) : Prop where
  /-- It reads no register of `serviceRegs`. -/
  regs : ∀ {s t : State}, Regs serviceRegs s t → f t = f s
  /-- It reads no POOL_RESV. -/
  resv : ∀ (m v : Nat) (s : State), f (wr (F.POOL_RESV.VALUE m) v s) = f s
  /-- It does not read FLT_STS.REPLAY_FAIL. -/
  fails : ∀ s : State, s.TablesWf → f (raise F.FLT_STS.REPLAY_FAIL s) = f s

/-- A step that keeps `P` changes no value read where `P` holds: nor does a run of such steps. -/
theorem forEach_fixed_of {α β : Type} (g : State → β) (P : State → Prop) {f : α → State → State} (hP : ∀ x t, P t → P (f x t))
    (hf : ∀ x t, P t → g (f x t) = g t) (l : List α) (s : State) (h : P s) : g (forEach l f s) = g s := by
  induction l generalizing s with
  | nil => rfl
  | cons x l ih => exact (ih (f x s) (hP x s h)).trans (hf x s h)

/-- A register that is none of those. -/
theorem unserved_reg {o : Nat} (hs : o ∉ 0xb000 :: serviceRegs) (hm : ∀ m, o ≠ 0xf014 + m * 0x40) : Unserved (reg o) where
  regs h := h.reg o (List.not_mem_of_not_mem_cons hs)
  resv m v s := reg_wr_ne (hm m) v s
  fails s _ := (raise_writes F.FLT_STS.REPLAY_FAIL s).reg o fun h =>
    hs ((by decide : ([0xb000, 0xa000, 0xa070, 0xa074] : List Nat) ⊆ 0xb000 :: serviceRegs) h)

/-- FLT_STS.FATAL lies beside REPLAY_FAIL. -/
theorem unserved_fatal : Unserved (rd F.FLT_STS.FATAL) where
  regs h := h.rd (by decide)
  resv m v s := rd_wr_ne (by simp only [F.FLT_STS.FATAL, F.POOL_RESV.VALUE]; omega) v s
  fails s hw := (rd_raise_wr (by decide) _ s).trans
    (rd_wr_field (f := F.FLT_STS.FATAL) (g := F.FLT_STS.REPLAY_FAIL) hw.win rfl (by decide) (by decide) 1)

theorem Unserved.rd {f : Fld} (h : Unserved (reg f.off)) : Unserved (rd f) where
  regs hr := congrArg (fun w : Word => bitsOf w.toNat f.lo f.w) (h.regs hr)
  resv m v s := congrArg (fun w : Word => bitsOf w.toNat f.lo f.w) (h.resv m v s)
  fails s hw := congrArg (fun w : Word => bitsOf w.toNat f.lo f.w) (h.fails s hw)

namespace Unserved

variable {β : Type} {f : State → β} (hf : Unserved f)
include hf

theorem congr {s t : State} (h : t.win = s.win) : f t = f s := hf.regs ((Regs.refl _ s).of_win h)

theorem same {l : List Part} {s t : State} (h : Same l s t) (hl : Part.win ∉ l) : f t = f s := hf.congr (h.part .win hl)

/-! ### Output rings -/

theorem writeEntry (r : Nat) (e : OutEntry) (s : State) : f (writeEntry r e s) = f s := by
  unfold Machine.writeEntry
  extract_lets base o prod mark und s1 s2 s3
  have h2 : Regs serviceRegs s s2 := sendWr_regs (by decide) ((Regs.refl _ s).of_win rfl)
  have h3 : Regs serviceRegs s s3 := sendWrPart_regs (by decide) h2
  exact hf.regs (when_regs (fun _ => interrupt_regs (by decide)) h3)

theorem drainRing (n r : Nat) (s : State) : f (drainRing n r s) = f s := by
  induction n generalizing s with
  | zero => rfl
  | succ n ih =>
    unfold Machine.drainRing
    dsimp only
    split
    · rfl
    · split
      · exact (ih _).trans ((hf.writeEntry _ _ _).trans (hf.congr rfl))
      · rfl

theorem drain (r : Nat) (s : State) : f (drain r s) = f s := hf.drainRing _ r s

theorem putEntry (r : Nat) (e : OutEntry) (s : State) : f (putEntry r e s) = f s := (hf.drain r _).trans (hf.congr rfl)

theorem putCmdDone (r model reqId status data : Nat) (s : State) : f (putCmdDone r model reqId status data s) = f s := hf.putEntry r _ s

theorem putDone (r model reqId status : Nat) (s : State) : f (putDone r model reqId status s) = f s := hf.putEntry r _ s

theorem flushHeldList (r : Nat) (l : List OutEntry) (s : State) : f (flushHeldList r l s) = f s := by
  induction l generalizing s with
  | nil => rfl
  | cons e es ih =>
    unfold Machine.flushHeldList
    split
    · exact (ih _).trans ((hf.writeEntry r e _).trans (hf.congr rfl))
    · rfl

theorem flushHeld (r : Nat) (s : State) : f (flushHeld r s) = f s := by
  unfold Machine.flushHeld
  split
  · rfl
  · exact (hf.drain r _).trans (hf.flushHeldList r _ s)

theorem flushRings (s : State) : f (flushRings s) = f s := forEach_fixed f hf.flushHeld _ s

/-! ### Handles and sequences that end -/

theorem finishPfx (h : Nat) (s : State) : f (finishPfx h s) = f s := by
  unfold Machine.finishPfx
  split
  · rfl
  · exact (forEach_fixed f (fun _ t => hf.putCmdDone _ _ _ _ _ t) _ _).trans (hf.congr rfl)

theorem retirePfx (h : Nat) (s : State) : f (retirePfx h s) = f s := by
  unfold Machine.retirePfx
  split
  · rfl
  · split
    · split
      · exact hf.finishPfx h s
      · exact hf.congr rfl
    · rfl

theorem unusePfx (h : Nat) (s : State) : f (unusePfx h s) = f s := (hf.retirePfx h _).trans (hf.congr rfl)

theorem returnResv (m n : Nat) (s : State) : f (returnResv m n s) = f s := hf.resv m _ s

theorem releaseSeq (q : Nat) (kept : Bool) (s : State) : f (releaseSeq q kept s) = f s := by
  unfold Machine.releaseSeq
  dsimp only
  split
  · rfl
  · have hslot (x : SeqSlot) (ps : List PageEntry) (t : State) : f (setSeqSlot q x (forgetKv q (clearList q ps t))) = f t :=
      hf.same (setSeqSlot_same rfl (forgetKv_same rfl (clearList_same rfl (Same.refl [.kv, .stackMem] t)))) (by decide)
    refine (hslot _ _ _).trans (Eq.trans ?_ (hf.returnResv (seqSlot q s).model (seqSlot q s).resv s))
    exact hf.congr rfl

/-! ### Requests that end -/

theorem endEntry (q : Request) (status : Nat) (s : State) : f (endEntry q status s) = f s := by
  unfold Machine.endEntry
  split
  · exact hf.putCmdDone _ _ _ _ _ s
  · exact hf.putDone _ _ _ _ s

/-- A request that ends for a fault is counted. -/
theorem faultEnd {s : State} (hw : s.TablesWf) : f (raise F.FLT_STS.REPLAY_FAIL (bump F.FAULT_END_CNT s)) = f s :=
  (hf.fails _ ((bump_keeps (Keeps.refl s)).tables hw)).trans (hf.regs (bump_regs (by decide) (by decide) (Regs.refl _ s)))

theorem endRequest (id status : Nat) {s : State} (hw : s.TablesWf) : f (endRequest id status s) = f s := by
  unfold Machine.endRequest
  split
  · rfl
  · next q _ =>
    extract_lets svc s1 s2 s3 s4 s5 s6
    have hw2 : s2.TablesWf := (endEntry_keeps (Keeps.refl s1)).tables { hw with }
    have h3 : f s3 = f s2 := by
      unfold s3 when
      split
      · exact hf.faultEnd hw2
      · rfl
    calc f (forEach q.cancels (fun c => Machine.putCmdDone c.2.1 c.1 c.2.2 0 0) s6) = f s6 :=
        forEach_fixed f (fun _ t => hf.putCmdDone _ _ _ _ _ t) _ _
      _ = f s5 := when_fixed f (fun t => hf.congr (t := dropPfx q.handle t) rfl) s5
      _ = f s4 := when_fixed f (hf.unusePfx _) s4
      _ = f s3 := when_fixed f (hf.releaseSeq _ _) s3
      _ = f s2 := h3
      _ = f s1 := hf.endEntry q status s1
      _ = f s := hf.congr rfl

theorem endAll (status : Nat) {s : State} (hw : s.TablesWf) : f (endAll status s) = f s :=
  forEach_fixed_of f State.TablesWf (fun _ t h => (endRequest_keeps (Keeps.refl t)).tables h) (fun id _ h => hf.endRequest id status h) _ s hw

end Unserved

end Sys2Proof.Machine
end

section
/-!
SUPPORT. What a fatal event shows (R371, R372).
-/
namespace Sys2Proof.Machine
open Sys2Proof

variable {s t : State}

/-! ### The stages of a fatal event -/

/-- The reset in progress is over, and firmware holds. -/
def fatalHalted (s : State) : State :=
  let s0 := endJob s
  holdFw 1 { s0 with faults := { s0.faults with stopped := true } }

/-- The partners have been told and cause, detail and power source are shown. -/
def fatalCaused (code detail src : Nat) (s : State) : State :=
  when (src != 0) (wr F.PWR_STATE.FATAL_SRC src)
    (wr F.FATAL_CAUSE.CODE code (wr F.FATAL_CAUSE.DETAIL detail (sendEveryPort 0x01 code (fatalHalted s))))

/-- The event is recorded. -/
def fatalRecorded (code detail src : Nat) (after : Durable) (s : State) : State :=
  journal 0x0E [code + 256 * detail, src] after (pldm 0x22 (code + 256 * detail) (raise F.FLT_STS.FATAL (fatalCaused code detail src s)))

/-- Without a partner every request ends. -/
def fatalEnds (partner : Bool) (s : State) : State := if partner then s else endAll 0x07 (flushRings (dropAckWaits s))

theorem fatalWith_stopped (h : s.faults.stopped = true) (code detail src : Nat) (after : Durable) : fatalWith code detail src after s = s :=
  if_pos h

theorem fatalWith_running (h : s.faults.stopped = false) (code detail src : Nat) (after : Durable) :
    fatalWith code detail src after s = fatalEnds (hasPartner s) (fatalRecorded code detail src after s) := by
  unfold fatalWith
  rw [if_neg (Bool.eq_false_iff.1 h)]
  rfl

/-! ### What stands over the ends -/

theorem Unserved.fatalEnds {β : Type} {f : State → β} (hf : Unserved f) (partner : Bool) (hw : s.TablesWf) : f (fatalEnds partner s) = f s := by
  unfold Machine.fatalEnds
  split
  · rfl
  · have hk : Keeps s (Machine.flushRings (dropAckWaits s)) := flushRings_keeps (dropAckWaits_keeps (Keeps.refl s))
    exact (hf.endAll _ (hk.tables hw)).trans ((hf.flushRings _).trans (hf.congr rfl))

theorem fatalEnds_faults (partner : Bool) (s : State) : (fatalEnds partner s).faults = s.faults := by
  unfold fatalEnds
  split
  · rfl
  · exact (endAll_same rfl (flushRings_same (by decide)
      (dropAckWaits_same (by decide) (Same.refl [.win, .stackMem, .kv, .svc, .ledger, .link, .ports, .ocl] s)))).part .faults (by decide)

/-! ### What the stages show -/

theorem rd_busy_cleared (hw : Table.wf resetWord s.win = true) : rd F.RST_STATE.BUSY (wr F.RST_STATE.PHASE 0 (wr F.RST_STATE.BUSY 0 s)) = 0 := by
  rw [rd_wr_field (f := F.RST_STATE.BUSY) (g := F.RST_STATE.PHASE) (win_wr hw _ _) rfl (by decide) (by decide), rd_wr_self hw (by decide)]
  rfl

theorem endJob_idle (hw : s.TablesWf) : rd F.RST_STATE.BUSY (endJob s) = 0 ∧ (endJob s).faults.job = none := by
  unfold endJob
  extract_lets s1
  have h1 : Keeps s s1 := forEach_keeps (fun _ _ => modCell_keeps) (Keeps.refl s)
  exact ⟨rd_busy_cleared (h1.tables hw).win, rfl⟩

theorem fatalHalted_tables (hw : s.TablesWf) : (fatalHalted s).TablesWf :=
  (holdFw_keeps (Keeps.refl _)).tables { (endJob_keeps (Keeps.refl s)).tables hw with }

theorem fatalHalted_faults (hw : s.TablesWf) : (fatalHalted s).faults.stopped = true ∧ (fatalHalted s).faults.job = none := by
  have h : (fatalHalted s).faults = { (endJob s).faults with stopped := true } :=
    (holdFw_same (by decide) (Same.refl [.sched] _)).part .faults (by decide)
  rw [h]
  exact ⟨rfl, (endJob_idle hw).2⟩

theorem fatalHalted_busy (hw : s.TablesWf) : rd F.RST_STATE.BUSY (fatalHalted s) = 0 :=
  ((holdFw_regs (by decide) (Regs.refl [] _)).rd (by decide)).trans (endJob_idle hw).1

theorem fatalCaused_keeps (code detail src : Nat) (s : State) : Keeps (fatalHalted s) (fatalCaused code detail src s) :=
  when_keeps (fun _ => wr_keeps) (wr_keeps (wr_keeps (sendEveryPort_keeps (Keeps.refl _))))

/-- Cause, detail and source are shown after the partners have been told. -/
theorem fatalCaused_regs (code detail src : Nat) (s : State) :
    Regs [0xb00c, 0xc004, 0xa000, 0xa070, 0xa074] (fatalHalted s) (fatalCaused code detail src s) :=
  when_regs (fun _ => wr_regs (by decide)) (wr_regs (by decide) (wr_regs (by decide) (sendEveryPort_regs (by decide) (Regs.refl _ _))))

theorem fatalCaused_cause (hw : s.TablesWf) {code detail : Nat} (hc : code < 2 ^ 8) (hd : detail < 2 ^ 8) (src : Nat) :
    rd F.FATAL_CAUSE.CODE (fatalCaused code detail src s) = code ∧ rd F.FATAL_CAUSE.DETAIL (fatalCaused code detail src s) = detail := by
  have h1 := ((sendEveryPort_keeps (op := 0x01) (arg := code) (Keeps.refl _)).tables (fatalHalted_tables hw)).win
  have hsrc {f : Fld} (hf : f.off ≠ F.PWR_STATE.FATAL_SRC.off) (t : State) : rd f (when (src != 0) (wr F.PWR_STATE.FATAL_SRC src) t) = rd f t :=
    when_fixed (rd f) (rd_wr_ne hf src) t
  constructor
  · unfold fatalCaused
    rw [hsrc (by decide), rd_wr_self (win_wr h1 _ _) (by decide)]
    exact Nat.mod_eq_of_lt hc
  · unfold fatalCaused
    rw [hsrc (by decide), rd_wr_field (f := F.FATAL_CAUSE.DETAIL) (g := F.FATAL_CAUSE.CODE) (win_wr h1 _ _) rfl (by decide) (by decide),
      rd_wr_self h1 (by decide)]
    exact Nat.mod_eq_of_lt hd

theorem fatalCaused_source (hw : s.TablesWf) (code detail : Nat) {src : Nat} (h0 : src ≠ 0) (hs : src < 2 ^ 3) :
    rd F.PWR_STATE.FATAL_SRC (fatalCaused code detail src s) = src := by
  have h1 := (sendEveryPort_keeps (op := 0x01) (arg := code) (Keeps.refl _)).tables (fatalHalted_tables hw)
  unfold fatalCaused when
  rw [if_pos (bne_iff_ne.2 h0), rd_wr_self (win_wr (win_wr h1.win _ _) _ _) (by decide)]
  exact Nat.mod_eq_of_lt hs

/-- Recording the event writes FLT_STS and what the management events and the event path write. -/
theorem fatalRecorded_raised (code detail src : Nat) (after : Durable) (s : State) :
    Regs [0x100, 0x130, 0x134, 0xa000, 0xa070, 0xa074] (raise F.FLT_STS.FATAL (fatalCaused code detail src s))
      (fatalRecorded code detail src after s) :=
  journal_regs (by decide) (pldm_regs (by decide) (Regs.refl _ _))

theorem fatalRecorded_regs (code detail src : Nat) (after : Durable) (s : State) :
    Regs [0xb000, 0x100, 0x130, 0x134, 0xa000, 0xa070, 0xa074] (fatalCaused code detail src s) (fatalRecorded code detail src after s) :=
  journal_regs (by decide) (pldm_regs (by decide) (raise_regs (by decide) (by decide) (Regs.refl _ _)))

theorem fatalRecorded_tables (hw : s.TablesWf) (code detail src : Nat) (after : Durable) :
    (fatalRecorded code detail src after s).TablesWf :=
  (journal_keeps (pldm_keeps (raise_keeps (fatalCaused_keeps code detail src s)))).tables (fatalHalted_tables hw)

theorem fatalRecorded_faults (code detail src : Nat) (after : Durable) (s : State) :
    (fatalRecorded code detail src after s).faults = (fatalHalted s).faults :=
  (journal_same (by decide) (pldm_same (by decide) (raise_same (by decide) (when_same (fun _ => wr_same (by decide)) (wr_same (by decide)
    (wr_same (by decide) (sendEveryPort_same (by decide) (Same.refl [.win, .link, .ports, .ocl, .mgmt, .boot] _)))))))).part .faults (by decide)

/-! ### Fatal events -/

/-- A module that was not stopped stands after a fatal event as R372 says. -/
theorem fatalWith_stops (hw : s.TablesWf) (hrun : s.faults.stopped = false) {code detail : Nat} (hc : code < 2 ^ 8) (hd : detail < 2 ^ 8)
    (src : Nat) (after : Durable) : stoppedBy code detail (fatalWith code detail src after s) := by
  have hr := fatalRecorded_regs code detail src after s
  have hrw := fatalRecorded_tables hw code detail src after
  have hreg {f : Fld} (h : Unserved (reg f.off)) : rd f (fatalEnds (hasPartner s) (fatalRecorded code detail src after s)) =
      rd f (fatalRecorded code detail src after s) := h.rd.fatalEnds _ hrw
  rw [fatalWith_running hrun]
  unfold stoppedBy
  rw [fatalEnds_faults, fatalRecorded_faults]
  obtain ⟨hstopped, hjob⟩ := fatalHalted_faults hw
  obtain ⟨hcode, hdetail⟩ := fatalCaused_cause hw hc hd src
  refine ⟨hstopped, hjob, ?_, ?_, ?_, ?_⟩
  · rw [hreg (unserved_reg (by decide) fun m => by simp only [F.RST_STATE.BUSY]; omega), hr.rd (by decide),
      (fatalCaused_regs code detail src s).rd (by decide), fatalHalted_busy hw]
  · rw [hreg (unserved_reg (by decide) fun m => by simp only [F.FATAL_CAUSE.CODE]; omega), hr.rd (by decide), hcode]
  · rw [hreg (unserved_reg (by decide) fun m => by simp only [F.FATAL_CAUSE.DETAIL]; omega), hr.rd (by decide), hdetail]
  · rw [unserved_fatal.fatalEnds _ hrw, (fatalRecorded_raised code detail src after s).rd (by decide)]
    exact rd_raise ((fatalCaused_keeps code detail src s).tables (fatalHalted_tables hw)).win rfl (by decide) (by decide)

/-- Registers that a fatal event writes beside those of the requests that it ends. -/
def fatalRegs : List Nat := [0xb000, 0xb00c, 0xb01c, 0xc004, 0x100, 0x130, 0x134, 0xa000, 0xa070, 0xa074]

theorem endJob_regs {ρ : List Nat} (h : 0xb01c ∈ ρ) (s : State) : Regs ρ s (endJob s) :=
  wr_regs h (wr_regs h ((forEach_regs (fun _ _ => modCell_regs) (Regs.refl ρ s)).of_win rfl))

theorem fatalRecorded_keepsRegs (code detail src : Nat) (after : Durable) (s : State) :
    Regs fatalRegs s (fatalRecorded code detail src after s) :=
  journal_regs (by decide) (pldm_regs (by decide) (raise_regs (by decide) (by decide) (when_regs (fun _ => wr_regs (by decide))
    (wr_regs (by decide) (wr_regs (by decide) (sendEveryPort_regs (by decide)
      (holdFw_regs (by decide) ((endJob_regs (by decide) s).of_win rfl))))))))

theorem fatalWith_keeps_rd (hw : s.TablesWf) (hrun : s.faults.stopped = false) {f : Fld} (hf : f.off ∉ fatalRegs)
    (h : Unserved (reg f.off)) (code detail src : Nat) (after : Durable) : rd f (fatalWith code detail src after s) = rd f s := by
  rw [fatalWith_running hrun, h.rd.fatalEnds _ (fatalRecorded_tables hw code detail src after),
    (fatalRecorded_keepsRegs code detail src after s).rd hf]

theorem fatalWith_source (hw : s.TablesWf) (hrun : s.faults.stopped = false) (code detail : Nat) {src : Nat} (h0 : src ≠ 0)
    (hs : src < 2 ^ 3) (after : Durable) : rd F.PWR_STATE.FATAL_SRC (fatalWith code detail src after s) = src := by
  have hu : Unserved (reg F.PWR_STATE.FATAL_SRC.off) := unserved_reg (by decide) fun m => by simp only [F.PWR_STATE.FATAL_SRC]; omega
  rw [fatalWith_running hrun, hu.rd.fatalEnds _ (fatalRecorded_tables hw code detail src after),
    (fatalRecorded_regs code detail src after s).rd (by decide), fatalCaused_source hw code detail h0 hs]

/-! ### Loss of both feeds -/

theorem linkStateFld_off_inj {i j : Nat} (h : i ≠ j) : (linkStateFld i).off ≠ (linkStateFld j).off := by
  unfold linkStateFld F.OCL_STATE.STATE F.SPAN_STATE.STATE
  split <;> split <;> dsimp only <;> omega

theorem linkSt_wr_zero (hw : Table.wf resetWord s.win = true) (i : Nat) : linkSt i (wr (linkStateFld i) 0 s) = 0 := by
  have hf : (linkStateFld i).lo + (linkStateFld i).w ≤ 32 := by
    unfold linkStateFld F.OCL_STATE.STATE F.SPAN_STATE.STATE
    split <;> exact Nat.le_of_ble_eq_true rfl
  exact (rd_wr_self hw hf 0).trans (Nat.zero_mod _)

/-- A link that is DOWN stays so while states of links are cleared. -/
theorem linkSt_zero_cleared {i : Nat} (l : List Nat) (hw : Table.wf resetWord s.win = true) (h : linkSt i s = 0) :
    linkSt i (forEach l (fun j => wr (linkStateFld j) 0) s) = 0 := by
  induction l generalizing s with
  | nil => exact h
  | cons j l ih =>
    refine ih (win_wr hw _ _) ?_
    by_cases hij : i = j
    · exact hij ▸ linkSt_wr_zero hw i
    · exact (rd_wr_ne (linkStateFld_off_inj hij) 0 s).trans h

theorem linkSt_cleared {i : Nat} {l : List Nat} (hi : i ∈ l) (hw : Table.wf resetWord s.win = true) :
    linkSt i (forEach l (fun j => wr (linkStateFld j) 0) s) = 0 := by
  induction hi generalizing s with
  | head l => exact linkSt_zero_cleared l (win_wr hw _ _) (linkSt_wr_zero hw i)
  | tail j _ ih => exact ih (win_wr hw _ _)

theorem powerGone_links (hw : s.TablesWf) {i : Nat} (hi : i < 5) : linkSt i (powerGone s) = 0 :=
  linkSt_cleared (List.mem_range.2 hi) (win_wr hw.win _ _)

/-- The states of the five links and PIN_STATE are written. -/
theorem powerGone_regs (s : State) : Regs [0x104, 0xa004, 0x1401004, 0x1402004, 0x1403004, 0x1404004] s (powerGone s) := by
  unfold powerGone
  simp only [List.range_succ, List.range_zero, List.nil_append, List.cons_append, forEach_cons, forEach_nil]
  iterate 5 refine wr_regs (by decide) ?_
  exact wr_regs (by decide) ((Regs.refl _ s).of_win rfl)

theorem powerGone_faults (s : State) : (powerGone s).faults = s.faults :=
  forEach_fixed (·.faults) (f := fun i => wr (linkStateFld i) 0) (fun _ _ => rfl) _ _

theorem powerGone_power (s : State) : (powerGone s).power = { s.power with off := true, pwrOff := false } :=
  forEach_fixed (·.power) (f := fun i => wr (linkStateFld i) 0) (fun _ _ => rfl) _ _

theorem fatalWith_after_stop (s : State) (code detail src : Nat) (after : Durable) (hw : s.TablesWf) :
    (fatalWith code detail src after s).faults.stopped = true := by
  cases hrun : s.faults.stopped with
  | true => rw [fatalWith_stopped hrun, hrun]
  | false =>
    rw [fatalWith_running hrun, fatalEnds_faults, fatalRecorded_faults]
    exact (fatalHalted_faults hw).1

/-- Power that is gone leaves what the fatal event shows. -/
theorem stoppedBy_powerGone {code detail : Nat} (h : stoppedBy code detail s) : stoppedBy code detail (powerGone s) := by
  have hr := powerGone_regs s
  unfold stoppedBy at h ⊢
  rw [powerGone_faults, hr.rd (by decide), hr.rd (by decide), hr.rd (by decide), hr.rd (by decide)]
  exact h

/-! ### The commands -/

theorem bothFeedsLost_lost (ha : feedIsOk 0 s = false) (hb : feedIsOk 1 s = false) (hp : s.power.off = false) :
    bothFeedsLost s = powerGone (fatalPower 4 s) := if_neg (by simp [ha, hb, hp])

theorem stackLost_inService {n : Nat} (hn : n < 12) (hsvc : on (F.HS_STATE.SVC n) s = true) :
    stackLost n s = fatal 0x02 0 (wr (F.HS_STATE.STATE n) 2 s) := if_pos ⟨hn, hsvc⟩

theorem stackLost_state (hw : s.TablesWf) (hrun : s.faults.stopped = false) {n : Nat} (hn : n < 12) (hsvc : on (F.HS_STATE.SVC n) s = true) :
    stoppedBy 0x02 0 (stackLost n s) ∧ rd (F.HS_STATE.STATE n) (stackLost n s) = 2 := by
  have hw1 : (wr (F.HS_STATE.STATE n) 2 s).TablesWf := (wr_keeps (Keeps.refl s)).tables hw
  have hlisted : (F.HS_STATE.STATE n).off ∉ 0xb000 :: (fatalRegs ++ serviceRegs) := by
    simp only [F.HS_STATE.STATE, fatalRegs, serviceRegs, List.cons_append, List.nil_append, List.mem_cons, List.not_mem_nil, or_false]
    omega
  rw [stackLost_inService hn hsvc]
  refine ⟨fatalWith_stops hw1 hrun (by decide) (by decide) 0 .none, ?_⟩
  refine (fatalWith_keeps_rd hw1 hrun (fun h => hlisted ?_) (unserved_reg (fun h => hlisted ?_) fun m => ?_) 0x02 0 0 .none).trans
    (rd_wr_self hw.win (Nat.le_of_ble_eq_true rfl) 2)
  · exact List.mem_cons_of_mem _ (List.mem_append_left _ h)
  · rcases List.mem_cons.1 h with h | h
    · exact h ▸ List.mem_cons_self
    · exact List.mem_cons_of_mem _ (List.mem_append_right _ h)
  · simp only [F.HS_STATE.STATE]
    omega

/-- Settles O45: each of the commands raises the fatal event of its cause, and what that shows no request that ends writes over. -/
theorem fatalEventsStopTheModule : Obligations.FatalEventsStopTheModule := by
  unfold Obligations.FatalEventsStopTheModule
  intro s hw
  refine ⟨fun hrun => ?_, fun ha hb hp => ?_, fun hp => ?_, fun hs => ?_⟩
  · have hstop {code detail : Nat} (hc : code < 2 ^ 8) (hd : detail < 2 ^ 8) : stoppedBy code detail (fatal code detail s) :=
      fatalWith_stops hw hrun hc hd 0 .none
    refine ⟨⟨_, rfl, hstop (by decide) (by decide)⟩, ⟨_, rfl, hstop (by decide) (by decide)⟩, fun hdown hframes => ?_, fun n hn hsvc => ?_,
      fun r port w hr hid => ?_, fun j hj hphase hlate => ?_, fun ha hb hp => ?_, fun e he hdone hlate => ?_⟩
    · exact ⟨_, congrArg Host.Outcome.next (if_pos ⟨hdown, hframes⟩), hstop (by decide) (by decide)⟩
    · exact ⟨_, rfl, stackLost_state hw hrun hn hsvc⟩
    · have haudit : exec (.audit r port w) s =
          .next (if fieldOf w 23 4 = (if bitAt w 27 then used3 r port s else used2 r port s) then s else fatal 0x01 0x01 s) :=
        congrArg Host.Outcome.next (if_neg (by simp [hid, Nat.not_le.2 hr]))
      exact ⟨fun hne => ⟨_, haudit.trans (congrArg _ (if_neg hne)), hstop (by decide) (by decide)⟩, fun heq =>
        haudit.trans (congrArg _ (if_pos heq))⟩
    · refine ⟨fatal 0x06 0 s, congrArg Host.Outcome.next ?_, hstop (by decide) (by decide)⟩
      unfold drainTimeout
      rw [hj]
      exact if_pos ⟨hphase, hlate⟩
    · refine ⟨_, congrArg Host.Outcome.next (bothFeedsLost_lost ha hb hp),
        stoppedBy_powerGone (fatalWith_stops hw hrun (by decide) (by decide) 4 .none), ?_⟩
      exact ((powerGone_regs _).rd (by decide)).trans (fatalWith_source hw hrun 0x08 0 (by decide) (by decide) .none)
    · refine ⟨fatalPower 3 s, congrArg Host.Outcome.next ?_, fatalWith_stops hw hrun (by decide) (by decide) 3 .none,
        fatalWith_source hw hrun 0x08 0 (by decide) (by decide) .none⟩
      unfold vcmNorecover
      rw [he]
      exact if_pos (by simp [hdone, hlate])
  · have hw1 : (fatalPower 4 s).TablesWf := (fatalWith_keeps (Keeps.refl s)).tables hw
    refine ⟨_, congrArg Host.Outcome.next (bothFeedsLost_lost ha hb hp), ?_, ?_, ?_, fun i hi => powerGone_links hw1 hi⟩
    · rw [powerGone_power]
    · rw [powerGone_faults]
      exact fatalWith_after_stop s 0x08 0 4 .none hw
    · rw [powerGone_power]
  · exact congrArg Host.Outcome.next (if_pos (by simp [hp]))
  · exact ⟨congrArg Host.Outcome.next (fatalWith_stopped hs 0x0B 0 0 .none), congrArg Host.Outcome.next (fatalWith_stopped hs 0x0A 0 0 .none)⟩

end Sys2Proof.Machine
end

section
/-!
SUPPORT. The frame of a step (R203, R293, R363, R438, R465).
-/
namespace Sys2Proof.Machine
open Sys2Proof

/-- Settles O60: every command leaves alone what `mayChange` does not list, and the queue is no command's to change. -/
theorem stepsKeepWhatTheirCommandMayNotChange : Obligations.StepsKeepWhatTheirCommandMayNotChange := by
  unfold Obligations.StepsKeepWhatTheirCommandMayNotChange
  intro i l s t hqueue hstep
  rw [step_cons hqueue] at hstep
  have hsame := (same_of_exec hstep).part
  have hmem (h : Part.cellMem ∉ mayChange i) (a : Nat) : byteAt t.cellMem a = byteAt s.cellMem a :=
    congrArg (byteAt · a) (hsame .cellMem h)
  refine ⟨(keeps_of_exec hstep).pending, fun h o => reg_congr (hsame .win h) o, hmem, fun h a => congrArg (byteAt · a) (hsame .stackMem h),
    fun h c => cell_congr (hsame .cells h) c, fun h c n => ?_, hsame .accs, hsame .fuses, hsame .sec, hsame .boot, hsame .kv,
    fun j raw t0 hi => ?_, fun off n tag hi => ?_⟩
  · unfold arrival
    rw [hsame .counters h]
  · rcases hi with rfl | rfl | rfl | rfl <;> exact ⟨hsame .fuses (by simp [mayChange]), hmem (by simp [mayChange])⟩
  · rcases hi with rfl | rfl <;> exact ⟨hsame .fuses (by simp [mayChange]), hmem (by simp [mayChange])⟩

end Sys2Proof.Machine
end

section
/-!
SUPPORT. POOL_ENABLE where stack memory is not in its canonical form (R193, R203, R204): the table of written bytes lists a byte of the
pool's free list behind a byte with a higher address.
-/
namespace Sys2Proof.Machine
open Sys2Proof

/-- The pool of a RUNNABLE model in slot 0: one page of one layer and one head, its elements at stack address 0, its side record at 65,536
and its free list at 131,072, where stack memory lists a byte 1 after a byte of a higher address. -/
def unsortedPool : State :=
  { State.reset with
    win := [(0x30c0, 0x2000), (0x7104, 0x10000101), (0x7108, 1), (0x710c, 1), (0x7114, 2), (0xf020, 3), (0x1300004, 4)]
    stackMem := [(131080, 7), (131072, 1)] }

theorem unsortedPool_tables : unsortedPool.TablesWf := by constructor <;> decide +kernel

/-- The pool is disabled, its geometry passes the check, and it has one page. -/
theorem unsortedPool_ready : poolOn 0 unsortedPool = false ∧ poolOk 0 unsortedPool = true ∧ poolPages 0 unsortedPool = 1 := by decide +kernel

/-- POOL_ENABLE writes page number 0 before the higher address and leaves the 1 behind it: the free list's first entry reads 1. -/
theorem unsortedPool_enabled : freePage 0 0 (poolEnable 0 unsortedPool) = 1 := by decide +kernel

/-- Refutes O31: the statement asks canonical register tables but not canonical memory, and where stack memory lists a byte of the free
list out of order POOL_ENABLE leaves a free list that names page 1 of a pool of one page. -/
theorem not_poolsAndPatrol : ¬ Obligations.PoolsAndPatrol := by
  unfold Obligations.PoolsAndPatrol
  intro h
  obtain ⟨hoff, hok, hpages⟩ := unsortedPool_ready
  obtain ⟨henable, -⟩ := h unsortedPool 0 unsortedPool_tables (by decide)
  obtain ⟨t, hexec, -, -, -, hfree⟩ := henable hoff hok
  obtain rfl : poolEnable 0 unsortedPool = t := Host.Outcome.next.inj hexec
  have hzero := hfree 0 (hpages ▸ Nat.one_pos)
  rw [unsortedPool_enabled] at hzero
  exact absurd hzero (by decide)

end Sys2Proof.Machine
end

section
/-!
SUPPORT. KEM_FINISH at a closed session (R305, R361, R450): the session reopens, an outstanding read ends as failed, and with it step 4 of a
restart of a model number past the sixteen, whose `MODEL_SCHED` lies at the offset of `KEY_EPOCH`.
-/
namespace Sys2Proof.Machine
open Sys2Proof

/-- A number that no model slot has: its `MODEL_SCHED` has the offset of `KEY_EPOCH`, whose bits [13:12] its STATE shows. -/
def epochModel : Nat := 5501915

/-- A restart of that number, in ABSORB: one stack slice is to be read again, and its slice map is being read. -/
def epochJob : ResetJob :=
  ⟨[], [], [epochModel], 1, 0, [], [(epochModel, 0)], [], [⟨epochModel, none, [], [0], [], [], [], false, false⟩]⟩

/-- The read of that slice map, retried once. -/
def epochRead : HostRead := ⟨0, 0, 0, false, true, .fetch (.rewrite epochModel 0)⟩

/-- READY with a KEM key held, the next epoch being 0x2002; the session is closed and the read is outstanding. -/
def epochState : State :=
  { State.reset with
    win := [(0xa00c, 1), (0xe004, 1), (0x150002c, 0x2001)]
    sec := { Sec.reset with kem := some 0 }
    ocl := { Ocl.reset with closed := true, reads := [epochRead], fetches := [⟨.rewrite epochModel 0, 0, 64, []⟩] }
    faults := { Faults.reset with job := some epochJob } }

theorem epochState_tables : epochState.TablesWf := by constructor <;> decide +kernel

theorem epochState_memory : epochState.MemoryWf := by constructor <;> decide +kernel

theorem epochState_ready : mailboxUp epochState = true ∧ mbxBusy epochState = false ∧ starting epochState = false ∧
    nextEpoch epochState = 0x2002 := by decide +kernel

/-- KEM_FINISH shows the epoch 0x2002, then the failed model's STATE 3 in its bits [13:12]. -/
theorem epochState_finished : rd F.KEY_EPOCH.VALUE (mbxCommand 3 kemFinishRow epochState) = 0x3002 := by decide +kernel

/-- Refutes O53: nothing bounds the model slots that a restart names. A KEM_FINISH that reopens a closed session ends the outstanding read of a
restart's slice map, the model takes FAILED, and of a number past the sixteen that changes `KEY_EPOCH`, which no longer shows the next
epoch. -/
theorem not_mailboxCommandsAndZeroisation : ¬ Obligations.MailboxCommandsAndZeroisation := by
  unfold Obligations.MailboxCommandsAndZeroisation
  intro h
  obtain ⟨hup, hfree, hstart, hnext⟩ := epochState_ready
  obtain ⟨hmbx, -⟩ := h epochState epochState_tables epochState_memory
  obtain ⟨-, -, -, -, hfinish, -⟩ := hmbx hup hfree
  obtain ⟨t, hexec, -, hepoch, -⟩ := hfinish 0 hstart rfl (hnext ▸ by decide)
  obtain rfl : mbxCommand 3 kemFinishRow epochState = t := Host.Outcome.next.inj hexec
  rw [epochState_finished, hnext] at hepoch
  exact absurd hepoch (by decide)

end Sys2Proof.Machine
end

section
/-!
SUPPORT. What mirroring a step (R312, R318, R320) and putting its entries (R215, R354) leave of the registers.
-/
namespace Sys2Proof.Machine
open Sys2Proof

variable {σ s t : State}

/-! ### Messages of the MIRROR stream -/

/-- Registers that a message of the MIRROR stream writes: its byte count, PAIR_STS, and the budget of Mirror. -/
def mirrorRegs : List Nat := F.MIRROR_BYTE_CNT :: (F.MIRROR_BYTE_CNT + 4) :: F.PAIR_STS.LAG_FULL.off :: chargeRegs 4

theorem mirrorRegs_events : SubN [0xa000, 0xa070, 0xa074] mirrorRegs := by decide

theorem mirrorCharge_regs {kind n : Nat} (h : Regs mirrorRegs σ s) : Regs mirrorRegs σ (charge 4 kind n s) := charge_regs (by decide) h

theorem chargeSpan_regs {c n : Nat} (h : Regs mirrorRegs σ s) : Regs mirrorRegs σ (chargeSpan 4 c n s) :=
  mirrorCharge_regs (mirrorCharge_regs h)

theorem chargeBytes_regs {n : Nat} (h : Regs mirrorRegs σ s) : Regs mirrorRegs σ (chargeBytes 4 n s) :=
  mirrorCharge_regs (mirrorCharge_regs h)

theorem chargeMirror_regs {m : SpanMsg} {recv : Bool} (h : Regs mirrorRegs σ s) : Regs mirrorRegs σ (chargeMirror m recv s) := by
  have h1 : Regs mirrorRegs σ (bumpBy F.MIRROR_BYTE_CNT (16 * (m.data.length + 1)) s) := bumpBy_regs (by decide) (by decide) h
  unfold chargeMirror chargeMirrorSlots
  dsimp only
  split
  · exact chargeSpan_regs (chargeBytes_regs h1)
  · exact chargeSpan_regs (when_regs (fun _ => chargeBytes_regs) h1)

theorem flushMirrorList_regs {ms : List SpanMsg} (h : Regs mirrorRegs σ s) : Regs mirrorRegs σ (flushMirrorList ms s).2 := by
  induction ms generalizing s with
  | nil => exact h
  | cons m ms ih =>
    unfold flushMirrorList
    split
    · exact h
    · exact ih (putSpan_regs mirrorRegs_events (chargeMirror_regs h))

theorem flushMirror_regs (h : Regs mirrorRegs σ s) : Regs mirrorRegs σ (flushMirror s) := (flushMirrorList_regs h).of_win rfl

theorem mirrorMsg_regs {op model arg : Nat} {data : List Slot16} (h : Regs mirrorRegs σ s) :
    Regs mirrorRegs σ (mirrorMsg op model arg data s) :=
  flushMirror_regs ((takePsn_regs (st := 1) (by decide) h).of_win rfl)

/-! ### The commit group of a step -/

theorem kvMessages_regs {q m l p n : Nat} {gs : List Granule} (h : Regs mirrorRegs σ s) :
    Regs mirrorRegs σ (kvMessages q m l p n gs s) := forEach_regs (fun _ _ => mirrorMsg_regs) h

theorem kvParts_regs {q m page l k p e : Nat} (h : Regs mirrorRegs σ s) : Regs mirrorRegs σ (kvParts q m page l k p e s) := by
  induction k generalizing p s with
  | zero => exact h
  | succ k ih =>
    unfold kvParts
    split
    · exact h
    · exact ih (kvMessages_regs h)

theorem mirrorKv_regs {q a b : Nat} (h : Regs mirrorRegs σ s) : Regs mirrorRegs σ (mirrorKv q a b s) := by
  refine forEach_regs (fun sp t ht => ?_) h
  split
  · exact ht
  · split
    · exact ht
    · exact forEach_regs (fun _ _ => kvParts_regs) ht

theorem mirrorState_regs {q : Nat} (h : Regs mirrorRegs σ s) : Regs mirrorRegs σ (mirrorState q s) :=
  forEach_regs (fun _ _ => forEach_regs fun _ _ => mirrorMsg_regs) h

theorem mirrorPfx_regs {model handle lp : Nat} {seq : Option Nat} (h : Regs mirrorRegs σ s) :
    Regs mirrorRegs σ (mirrorPfx model handle seq lp s) := by
  unfold mirrorPfx
  split
  · exact mirrorMsg_regs h
  · exact h

theorem mirrorStepSeq_regs {x : StepSeq} (h : Regs mirrorRegs σ s) : Regs mirrorRegs σ (mirrorStepSeq x s) := by
  unfold mirrorStepSeq
  dsimp only
  split
  · exact when_regs (fun _ => mirrorPfx_regs) (mirrorState_regs (mirrorKv_regs h))
  · exact mirrorState_regs (mirrorKv_regs h)

theorem mirrorCommit_regs {i model launch : Nat} {data : List Slot16} (h : Regs mirrorRegs σ s) :
    Regs mirrorRegs σ (mirrorCommit i model launch data s) :=
  when_regs (fun _ => raise_regs mirrorRegs_events (by decide)) ((mirrorMsg_regs h).of_win rfl)

theorem mirrorStep_regs (e : LedgerEntry) (s : State) : Regs mirrorRegs s (mirrorStep e s) := by
  unfold mirrorStep
  dsimp only
  split
  · exact Regs.refl _ s
  · exact mirrorCommit_regs ((forEach_regs (fun _ _ => mirrorStepSeq_regs) (Regs.refl _ s)).of_win rfl)

theorem sendScommit_regs (e : LedgerEntry) (s : State) : Regs mirrorRegs s (sendScommit e s) := by
  unfold sendScommit
  split
  · exact sendSpan_regs mirrorRegs_events (Regs.refl _ s)
  · exact Regs.refl _ s

/-! ### TOKENS entries and the ledger -/

namespace Unserved

variable {β : Type} {f : State → β} (hf : Unserved f)
include hf

theorem putTokens (r : Nat) (e : OutEntry) (s : State) : f (putTokens r e s) = f s := (hf.flushHeld r _).trans (hf.congr rfl)

theorem freeLedger (i : Nat) (s : State) : f (freeLedger i s) = f s := by
  unfold Machine.freeLedger
  split
  · exact hf.regs (wr_regs (by decide) ((Regs.refl _ s).of_win rfl))
  · rfl

theorem settleLedger (i : Nat) (s : State) : f (settleLedger i s) = f s := by
  unfold Machine.settleLedger
  split
  · split
    · exact hf.freeLedger i s
    · rfl
  · rfl

theorem finishSeq (l : List (Nat × Nat)) {s : State} (hw : s.TablesWf) : f (finishSeq l s) = f s :=
  forEach_fixed_of f State.TablesWf (fun _ t h => (endRequest_keeps (Keeps.refl t)).tables h) (fun p _ h => hf.endRequest p.1 p.2 h) l s hw

end Unserved

end Sys2Proof.Machine
end

section
/-!
SUPPORT. Pages that a commit opens (R190, R191): which bytes of stack memory the heads of their side records take. Writes are followed byte by
byte, so nothing is asked of the order in which stack memory lists them.
-/
namespace Sys2Proof.Machine
open Sys2Proof

variable {s t : State}

/-! ### Bytes of memory -/

theorem get_setMany_ne {α : Type} [DecidableEq α] (d : Nat → α) {j k : Nat} {vs : List α} (tb : Table α) (h : j < k ∨ k + vs.length ≤ j) :
    Table.get d (Table.setMany d tb k vs) j = Table.get d tb j := by
  induction vs generalizing tb k with
  | nil => rfl
  | cons v vs ih =>
    rw [List.length_cons] at h
    exact (ih _ (by omega)).trans (Table.get_set_ne d tb v (by omega))

/-- A byte outside those written stays, in canonical order or not. -/
theorem byteAt_memPut_ne {a n b : Nat} (m : Table Byte) (v : Nat) (h : b < a ∨ a + n ≤ b) : byteAt (memPut m a n v) b = byteAt m b :=
  get_setMany_ne byte0 m (by rwa [natToBytes_length])

theorem byteAt_memPut_one (m : Table Byte) (a : Nat) : byteAt (memPut m a 1 1) a = 1 :=
  Table.get_set_of_ne_default byte0 m (k := a) (by decide : (1 : Byte) ≠ 0)

/-- The second of two bytes written, where it is 1. -/
theorem byteAt_memPut_second (m : Table Byte) (a v : Nat) (h : v < 256) : byteAt (memPut m a 2 (v + 256)) (a + 1) = 1 := by
  have hsecond : natToBytes 2 (v + 256) = [BitVec.ofNat 8 (v + 256), 1] := by
    have hdiv : (v + 256) / 256 = 1 := by omega
    simp [natToBytes, hdiv]
  unfold memPut
  rw [hsecond]
  exact Table.get_set_of_ne_default byte0 _ (k := a + 1) (by decide : (1 : Byte) ≠ 0)

/-! ### The head of one side record -/

/-- First byte after the head of a side record of a model slot's pages. -/
def headEnd (m p l : Nat) (s : State) : Nat := pageSide m p l s + 4 + 8 * poolKvh m s

/-- A page's format names parts of the model's heads alone. -/
def FormatsFit (n : Nat) (l : List PageFmt) : Prop := ∀ f ∈ l, ∀ k ∈ f.scales, k.1 < n

theorem forEach_byte {α : Type} {f : α → State → State} {b : Nat} {l : List α}
    (hf : ∀ x ∈ l, ∀ t, byteAt (f x t).stackMem b = byteAt t.stackMem b) (s : State) :
    byteAt (forEach l f s).stackMem b = byteAt s.stackMem b := by
  induction l generalizing s with
  | nil => rfl
  | cons x l ih => exact (ih (fun y hy => hf y (List.mem_cons_of_mem _ hy)) _).trans (hf x List.mem_cons_self s)

/-- The scales lie from the record's fifth byte on. -/
theorem putSideHead_scales {a b : Nat} {l : List (Nat × Word)} (h : ∀ k ∈ l, b < a + 4 + 4 * k.1 ∨ a + 4 + 4 * k.1 + 4 ≤ b) (s : State) :
    byteAt (forEach l (fun k t => stackPut (a + 4 + 4 * k.1) 4 k.2.toNat t) s).stackMem b = byteAt s.stackMem b :=
  forEach_byte (fun k hk t => byteAt_memPut_ne t.stackMem _ (h k hk)) s

theorem putSideHead_open (m p l : Nat) (f : Option PageFmt) (s : State) :
    byteAt (putSideHead m p l f s).stackMem (pageSide m p l s + 1) = 1 := by
  unfold putSideHead
  dsimp only
  split
  · exact byteAt_memPut_one _ _
  · exact (putSideHead_scales (fun k _ => Or.inl (by omega)) _).trans (byteAt_memPut_second _ _ _ (Nat.mod_lt _ (by decide)))

theorem putSideHead_out {m p l b : Nat} {f : Option PageFmt} (hf : ∀ x, f = some x → ∀ k ∈ x.scales, k.1 < 2 * poolKvh m s)
    (hb : b < pageSide m p l s ∨ headEnd m p l s ≤ b) : byteAt (putSideHead m p l f s).stackMem b = byteAt s.stackMem b := by
  unfold headEnd at hb
  have hkvh : 1 ≤ poolKvh m s := Nat.le_add_left _ _
  unfold putSideHead
  dsimp only
  split
  · exact byteAt_memPut_ne _ _ (by omega)
  · next x =>
    refine (putSideHead_scales (fun k hk => ?_) _).trans (byteAt_memPut_ne _ _ (by omega))
    have := hf x rfl k hk
    omega

/-! ### The heads of a page's layers -/

/-- A side record is as long as its head at least. -/
theorem head_le_side (m : Nat) (s : State) : 4 + 8 * poolKvh m s ≤ sideGr m s * 64 := by
  unfold sideGr sideHead cdiv
  omega

/-- Side records of a page's layers follow one another. -/
theorem pageSide_le {m p l k : Nat} (h : l < k) : headEnd m p l s ≤ pageSide m p k s := by
  have hlen := head_le_side m s
  have hnext : (p * poolL m s + l) * sideGr m s * 64 + sideGr m s * 64 ≤ (p * poolL m s + k) * sideGr m s * 64 := by
    have h1 : (p * poolL m s + l + 1) * (sideGr m s * 64) ≤ (p * poolL m s + k) * (sideGr m s * 64) := Nat.mul_le_mul_right _ (by omega)
    rwa [Nat.succ_mul, ← Nat.mul_assoc, ← Nat.mul_assoc] at h1
  unfold headEnd pageSide
  omega

/-- The heads of one page's side records lie apart. -/
theorem heads_apart {m p l k : Nat} (h : l ≠ k) :
    pageSide m p l s + 1 < pageSide m p k s ∨ headEnd m p k s ≤ pageSide m p l s + 1 := by
  rcases Nat.lt_or_gt_of_ne h with h | h
  · have := pageSide_le (s := s) (m := m) (p := p) h
    unfold headEnd at this
    omega
  · exact Or.inr (Nat.le_succ_of_le (pageSide_le h))

/-- Open one layer of a sequence's page in a span. -/
def openLayer (q sp m p l : Nat) (s : State) : State :=
  putSideHead m p l (s.kv.formats.find? fun f => f.seq == q && f.span == sp && f.layer == l && f.by_.isNone) s

theorem openLayer_frame (q sp m p l : Nat) (s : State) : Same [.stackMem] s (openLayer q sp m p l s) := putSideHead_same rfl (Same.refl _ s)

theorem openLayer_side (q sp m p l k : Nat) (s : State) : pageSide m p k (openLayer q sp m p l s) = pageSide m p k s :=
  pageSide_congr (fun o _ _ => reg_congr ((openLayer_frame q sp m p l s).part .win (by decide)) o) p k

theorem openLayer_kvh (q sp m p l : Nat) (s : State) : poolKvh m (openLayer q sp m p l s) = poolKvh m s :=
  poolKvh_congr fun o _ _ => reg_congr ((openLayer_frame q sp m p l s).part .win (by decide)) o

theorem openLayer_out {q sp m p l b : Nat} (hf : FormatsFit (2 * poolKvh m s) s.kv.formats)
    (hb : b < pageSide m p l s ∨ headEnd m p l s ≤ b) : byteAt (openLayer q sp m p l s).stackMem b = byteAt s.stackMem b :=
  putSideHead_out (fun x hx => hf x (List.mem_of_find?_eq_some hx)) hb

theorem openLayer_open (q sp m p l : Nat) (s : State) : byteAt (openLayer q sp m p l s).stackMem (pageSide m p l s + 1) = 1 :=
  putSideHead_open m p l _ s

theorem openLayer_fit {q sp m p l : Nat} (hf : FormatsFit (2 * poolKvh m s) s.kv.formats) :
    FormatsFit (2 * poolKvh m (openLayer q sp m p l s)) (openLayer q sp m p l s).kv.formats := by
  rw [openLayer_kvh, (openLayer_frame q sp m p l s).part .kv (by decide)]
  exact hf

theorem openLayer_headEnd (q sp m p l k : Nat) (s : State) : headEnd m p k (openLayer q sp m p l s) = headEnd m p k s := by
  unfold headEnd
  rw [openLayer_side, openLayer_kvh]

theorem openLayers_out {q sp m p b : Nat} {ls : List Nat} (hf : FormatsFit (2 * poolKvh m s) s.kv.formats)
    (hb : ∀ l ∈ ls, b < pageSide m p l s ∨ headEnd m p l s ≤ b) :
    byteAt (forEach ls (openLayer q sp m p) s).stackMem b = byteAt s.stackMem b := by
  induction ls generalizing s with
  | nil => rfl
  | cons l ls ih =>
    refine (ih (openLayer_fit hf) fun k hk => ?_).trans (openLayer_out hf (hb l List.mem_cons_self))
    rw [openLayer_side, openLayer_headEnd]
    exact hb k (List.mem_cons_of_mem _ hk)

/-- A layer that is OPEN stays so while layers are opened. -/
theorem openLayers_still_open {q sp m p l : Nat} (ls : List Nat) (hf : FormatsFit (2 * poolKvh m s) s.kv.formats)
    (h : byteAt s.stackMem (pageSide m p l s + 1) = 1) :
    byteAt (forEach ls (openLayer q sp m p) s).stackMem (pageSide m p l s + 1) = 1 := by
  induction ls generalizing s with
  | nil => exact h
  | cons k ls ih =>
    rw [← openLayer_side q sp m p k l s]
    refine ih (openLayer_fit hf) ?_
    rw [openLayer_side]
    by_cases hk : l = k
    · exact hk ▸ openLayer_open q sp m p l s
    · exact (openLayer_out hf (heads_apart hk)).trans h

theorem openLayers_open {q sp m p l : Nat} {ls : List Nat} (hl : l ∈ ls) (hf : FormatsFit (2 * poolKvh m s) s.kv.formats) :
    byteAt (forEach ls (openLayer q sp m p) s).stackMem (pageSide m p l s + 1) = 1 := by
  induction hl generalizing s with
  | head ls =>
    rw [← openLayer_side q sp m p l l s]
    refine openLayers_still_open ls (openLayer_fit hf) ?_
    rw [openLayer_side]
    exact openLayer_open q sp m p l s
  | tail k _ ih =>
    rw [← openLayer_side q sp m p k l s]
    exact ih (openLayer_fit hf)

/-! ### The page of one span -/

theorem openPages_none {q sp : Nat} (h : pageAt q sp s = none) : openPages q [sp] s = s := by
  unfold openPages
  rw [forEach_cons, forEach_nil, h]

theorem openPages_some {q sp : Nat} {g : PageEntry} (h : pageAt q sp s = some g) :
    openPages q [sp] s = forEach (List.range (poolL (seqSlot q s).model s)) (openLayer q sp (seqSlot q s).model g.page) s := by
  unfold openPages
  rw [forEach_cons, forEach_nil, h]
  rfl

end Sys2Proof.Machine
end

section
/-!
SUPPORT. The result and the commit point of a step (R229, R232, R353, R354).
-/
namespace Sys2Proof.Machine
open Sys2Proof

variable {s t : State} {i : Nat} {e : LedgerEntry} {x : StepSeq}

/-! ### Ledger entries -/

theorem ledgerEntry_index (h : ledgerEntry i s = some e) : e.index = i := by
  simpa using List.find?_some h

theorem ledgerEntry_modLedger {f : LedgerEntry → LedgerEntry} (hf : ∀ y, (f y).index = y.index) (j : Nat) (s : State) :
    ledgerEntry j (modLedger i f s) = (ledgerEntry j s).map fun y => if y.index == i then f y else y := by
  have hp : ((fun y : LedgerEntry => y.index == j) ∘ fun y => if y.index == i then f y else y) = fun y => y.index == j := by
    funext y
    simp only [Function.comp_apply]
    split
    · rw [hf]
    · rfl
  exact List.find?_map.trans (congrArg (fun p => (s.ledger.entries.find? p).map _) hp)

theorem ledgerEntry_modLedger_self {f : LedgerEntry → LedgerEntry} (hf : ∀ y, (f y).index = y.index) (h : ledgerEntry i s = some e) :
    ledgerEntry i (modLedger i f s) = some (f e) := by
  rw [ledgerEntry_modLedger hf, h, Option.map_some, if_pos (beq_iff_eq.2 (ledgerEntry_index h))]

theorem ledgerEntry_modLedger_ne {f : LedgerEntry → LedgerEntry} (hf : ∀ y, (f y).index = y.index) {j : Nat} (hj : j ≠ i) (s : State) :
    ledgerEntry j (modLedger i f s) = ledgerEntry j s := by
  rw [ledgerEntry_modLedger hf]
  cases h : ledgerEntry j s with
  | none => rfl
  | some y => rw [Option.map_some, if_neg (by rw [ledgerEntry_index h, beq_iff_eq]; exact hj)]

/-! ### STEP_RESULT -/

/-- A launched entry that is neither tainted nor to be replayed takes its result. -/
theorem stepResult_launched {scores : List SeqScores} (he : ledgerEntry i s = some e) (hl : e.state = .launched) (hr : e.replay = false)
    (ht : e.tainted = false) : stepResult i scores s = setResult i (seqResults e.isPrefill s e.seqs scores) s := by
  unfold stepResult
  rw [he]
  exact if_pos (by simp [hl, hr, ht])

/-! ### What the commit does to the ledger -/

/-- Entries of a number are COMMITTED. -/
def CommittedAt (i : Nat) (s : State) : Prop := ∀ y ∈ s.ledger.entries, y.index = i → y.state = .committed

theorem CommittedAt.congr (h : CommittedAt i s) (hs : t.ledger = s.ledger) : CommittedAt i t := by
  unfold CommittedAt
  rw [hs]
  exact h

/-- A change that keeps numbers and states. -/
theorem CommittedAt.modLedger {j : Nat} {f : LedgerEntry → LedgerEntry} (h : CommittedAt i s)
    (hf : ∀ y, (f y).index = y.index ∧ (f y).state = y.state) : CommittedAt i (modLedger j f s) := by
  intro y hy hi
  obtain ⟨z, hz, rfl⟩ := List.mem_map.1 hy
  by_cases hj : (z.index == j) = true
  · rw [if_pos hj] at hi ⊢
    exact (hf z).2.trans (h z hz ((hf z).1.symm.trans hi))
  · rw [if_neg hj] at hi ⊢
    exact h z hz hi

theorem CommittedAt.settleLedger (h : CommittedAt i s) (j : Nat) : CommittedAt i (settleLedger j s) := by
  unfold Machine.settleLedger Machine.freeLedger
  split
  · split
    · split
      · exact fun y hy => h y (List.mem_of_mem_filter hy)
      · exact h
    · exact h
  · exact h

theorem CommittedAt.mirrorStep (h : CommittedAt i s) (e : LedgerEntry) : CommittedAt i (mirrorStep e s) := by
  unfold Machine.mirrorStep
  extract_lets xs s1 data
  split
  · exact h
  · have h1 : CommittedAt i s1 := h.congr
      ((forEach_same (fun _ _ => mirrorStepSeq_same (by decide)) (Same.refl [.win, .budget, .link, .ports, .ocl, .pair, .free] s)).part
        .ledger (by decide))
    have h2 : CommittedAt i (Machine.modLedger e.index (fun y => { y with group := some (nextPsn 1 s1) }) s1) :=
      h1.modLedger fun _ => ⟨rfl, rfl⟩
    exact h2.congr
      ((mirrorCommit_same (by decide) (Same.refl [.win, .budget, .link, .ports, .ocl, .pair, .free] _)).part .ledger (by decide))

/-! ### The stages of a commit -/

/-- Tokens that a step commits. -/
def stepTokens (e : LedgerEntry) : Nat := (e.seqs.map fun x => x.out.length).foldl (· + ·) 0

/-- The entry is COMMITTED and its tokens are counted. -/
def commitCounted (i : Nat) (e : LedgerEntry) (s : State) : State :=
  addTele e.model 5 (stepTokens e) (bumpBy F.TOK_GEN_CNT (stepTokens e)
    (modLedger i (fun y => { y with state := .committed, awaitsAck := e.seqs.any fun x => seqMirrored x.seq s }) s))

/-- Every sequence is committed, and the mirror and the back half are told. -/
def commitSent (i : Nat) (e : LedgerEntry) (s : State) : State :=
  sendScommit e (mirrorStep e (forEach e.seqs (commitSeq e) (commitCounted i e s)))

theorem stepCommit_ready (he : ledgerEntry i s = some e) (hr : commitReady e s = true) :
    stepCommit i s = settleLedger i (finishSeq (commitEnds e s (commitSent i e s)) (commitSent i e s)) := by
  unfold stepCommit
  rw [he]
  dsimp only
  rw [if_pos hr]
  rfl

theorem stepCommit_notReady (he : ledgerEntry i s = some e) (hr : commitReady e s = false) : stepCommit i s = s := by
  unfold stepCommit
  rw [he]
  exact if_neg (Bool.eq_false_iff.1 hr)

theorem commitCounted_committed (i : Nat) (e : LedgerEntry) (s : State) : CommittedAt i (commitCounted i e s) := by
  intro y hy hi
  obtain ⟨z, -, rfl⟩ := List.mem_map.1 hy
  by_cases hz : (z.index == i) = true
  · rw [if_pos hz]
  · rw [if_neg hz] at hi
    exact absurd (beq_iff_eq.2 hi) hz

theorem commitSent_committed (i : Nat) (e : LedgerEntry) (s : State) : CommittedAt i (commitSent i e s) :=
  ((CommittedAt.congr (commitCounted_committed i e s) ((forEach_same (fun _ _ => commitSeq_same (by decide))
    (Same.refl [.win, .stackMem, .budget, .kv, .svc, .link, .ports, .ocl, .pair, .free] _)).part .ledger (by decide))).mirrorStep e).congr
    ((sendScommit_same (by decide) (Same.refl [.win, .link, .ports, .ocl, .pair, .free] _)).part .ledger (by decide))

theorem stepCommit_committed (he : ledgerEntry i s = some e) (hr : commitReady e s = true) : CommittedAt i (stepCommit i s) := by
  rw [stepCommit_ready he hr]
  exact ((commitSent_committed i e s).congr
    ((finishSeq_same (by decide) (Same.refl [.win, .stackMem, .kv, .svc, .link, .ports, .ocl] _)).part .ledger (by decide))).settleLedger i

theorem commitSent_tables (hw : s.TablesWf) (i : Nat) (e : LedgerEntry) : (commitSent i e s).TablesWf :=
  (sendScommit_keeps (mirrorStep_keeps (forEach_keeps (fun _ _ => commitSeq_keeps)
    (addTele_keeps (bumpBy_keeps (modLedger_keeps (Keeps.refl s))))))).tables hw

/-! ### TOK_GEN_CNT -/

theorem Unserved.cnt {o : Nat} (h : Unserved (reg o)) (h4 : Unserved (reg (o + 4))) : Unserved (cnt o) where
  regs hr := by
    unfold Machine.cnt
    rw [h.regs hr, h4.regs hr]
  resv m v s := by
    unfold Machine.cnt
    rw [h.resv, h4.resv]
  fails s hw := by
    unfold Machine.cnt
    rw [h.fails s hw, h4.fails s hw]

theorem tokGen_unserved : Unserved (cnt F.TOK_GEN_CNT) :=
  (unserved_reg (by decide) fun m => by simp only [F.TOK_GEN_CNT]; omega).cnt
    (unserved_reg (by decide) fun m => by simp only [F.TOK_GEN_CNT]; omega)

theorem tokGen_raise {f : Fld} (h : F.TOK_GEN_CNT ∉ [f.off, 0xa000, 0xa070, 0xa074]) (h4 : F.TOK_GEN_CNT + 4 ∉ [f.off, 0xa000, 0xa070, 0xa074])
    (s : State) : cnt F.TOK_GEN_CNT (raise f s) = cnt F.TOK_GEN_CNT s := (raise_writes f s).cnt h h4

theorem tokGen_noteLate (m : Nat) (s : State) : cnt F.TOK_GEN_CNT (noteLate m s) = cnt F.TOK_GEN_CNT s :=
  (tokGen_unserved.same (modModelSlot_same (by decide) (Same.refl [.svc] _)) (by decide)).trans (tokGen_raise (by decide) (by decide) s)

theorem tokGen_advanceRequest (e : LedgerEntry) (x : StepSeq) (s : State) :
    cnt F.TOK_GEN_CNT (advanceRequest e x s) = cnt F.TOK_GEN_CNT s :=
  tokGen_unserved.same (advanceRequest_same (by decide) (Same.refl [.svc] s)) (by decide)

/-- Committing a sequence counts no token again. -/
theorem tokGen_commitSeq (e : LedgerEntry) (x : StepSeq) (s : State) : cnt F.TOK_GEN_CNT (commitSeq e x s) = cnt F.TOK_GEN_CNT s := by
  unfold commitSeq
  extract_lets s0 s1 s2
  have h1 : cnt F.TOK_GEN_CNT s1 = cnt F.TOK_GEN_CNT s :=
    tokGen_unserved.same (modSeqSlot_same (by decide) (openPages_same (by decide) (commitKv_same (by decide) (Same.refl [.kv, .stackMem] s))))
      (by decide)
  have h2 : cnt F.TOK_GEN_CNT s2 = cnt F.TOK_GEN_CNT s := (when_fixed _ (tokGen_raise (by decide) (by decide)) s1).trans h1
  split
  · exact h2
  · next q _ =>
    extract_lets late s3 s4
    have h3 : cnt F.TOK_GEN_CNT s3 = cnt F.TOK_GEN_CNT s2 :=
      (when_fixed (cnt F.TOK_GEN_CNT) (tokGen_noteLate e.model) _).trans (tokGen_advanceRequest e x s2)
    have h4 : cnt F.TOK_GEN_CNT s4 = cnt F.TOK_GEN_CNT s3 := when_fixed _ (tokGen_unserved.putTokens _ _) s3
    exact (when_fixed _ (fun t => tokGen_unserved.same (completePfx_same (by decide) (Same.refl [.svc] t)) (by decide)) s4).trans
      (h4.trans (h3.trans h2))

theorem tokGen_mirrored {s t : State} (h : Regs mirrorRegs s t) : cnt F.TOK_GEN_CNT t = cnt F.TOK_GEN_CNT s := h.cnt (by decide) (by decide)

theorem tokGen_commitSent (hw : s.TablesWf) (i : Nat) (e : LedgerEntry) :
    cnt F.TOK_GEN_CNT (commitSent i e s) = (cnt F.TOK_GEN_CNT s + stepTokens e) % 2 ^ 64 :=
  calc cnt F.TOK_GEN_CNT (commitSent i e s)
      = cnt F.TOK_GEN_CNT (mirrorStep e (forEach e.seqs (commitSeq e) (commitCounted i e s))) := tokGen_mirrored (sendScommit_regs e _)
    _ = cnt F.TOK_GEN_CNT (forEach e.seqs (commitSeq e) (commitCounted i e s)) := tokGen_mirrored (mirrorStep_regs e _)
    _ = cnt F.TOK_GEN_CNT (commitCounted i e s) := forEach_fixed _ (tokGen_commitSeq e) _ _
    _ = (cnt F.TOK_GEN_CNT s + stepTokens e) % 2 ^ 64 := cnt_setCnt (s := modLedger i _ s) hw.win _ _

theorem tokGen_stepCommit (hw : s.TablesWf) (he : ledgerEntry i s = some e) (hr : commitReady e s = true) :
    cnt F.TOK_GEN_CNT (stepCommit i s) = (cnt F.TOK_GEN_CNT s + stepTokens e) % 2 ^ 64 := by
  rw [stepCommit_ready he hr, tokGen_unserved.settleLedger, tokGen_unserved.finishSeq _ (commitSent_tables hw i e), tokGen_commitSent hw]

end Sys2Proof.Machine
end

section
/-!
SUPPORT. A commit of one sequence whose request goes on without a token or has ended (R190, R191, R232).
-/
namespace Sys2Proof.Machine
open Sys2Proof

variable {s t : State} {i : Nat} {e : LedgerEntry} {x : StepSeq}

/-- A sequence that no request is answered for by this commit: its request has ended, or goes on without a token. -/
def CommitsSilently (x : StepSeq) (s : State) : Prop :=
  request x.req s = none ∨ ∃ q, request x.req s = some q ∧ q.isPrefix = false ∧ x.out = [] ∧ q.ending = none

/-- The rows accepted of a sequence are committed: pages open, LEN rises. -/
def commitRows (x : StepSeq) (s : State) : State :=
  modSeqSlot x.seq (fun y => { y with len := y.len + x.accepted })
    (openPages x.seq (spansOf x.start (x.start + x.accepted)) (commitKv x s))

theorem commitRows_frame (x : StepSeq) (s : State) : Same [.kv, .stackMem] s (commitRows x s) :=
  modSeqSlot_same (by decide) (openPages_same (by decide) (commitKv_same (by decide) (Same.refl _ s)))

theorem commitRows_stackMem (x : StepSeq) (s : State) :
    (commitRows x s).stackMem = (openPages x.seq (spansOf x.start (x.start + x.accepted)) (commitKv x s)).stackMem := rfl

theorem commitRows_len (hw : s.TablesWf) (x : StepSeq) :
    (seqSlot x.seq (commitRows x s)).len = (seqSlot x.seq s).len + x.accepted := by
  have hkv : (openPages x.seq (spansOf x.start (x.start + x.accepted)) (commitKv x s)).kv = (commitKv x s).kv :=
    (openPages_same (by decide) (Same.refl [.stackMem] _)).part .kv (by decide)
  unfold commitRows modSeqSlot
  rw [seqSlot_set (by rw [hkv]; exact hw.seqs), seqSlot_congr (congrArg Kv.seqs hkv)]
  rfl

/-- Nothing is told of such a sequence: its slot and stack memory are as the commit of its rows leaves them. -/
theorem commitSeq_silent (h : CommitsSilently x s) (e : LedgerEntry) : Same [.win, .svc, .link, .ports, .ocl] (commitRows x s) (commitSeq e x s) := by
  unfold commitSeq
  extract_lets s0 s1 s2
  have h2 : Same [.win, .svc, .link, .ports, .ocl] (commitRows x s) s2 := when_same (fun _ => raise_same (by decide)) (Same.refl _ s1)
  have hreq : request x.req s2 = request x.req s := by
    have hsvc : s2.svc = s.svc :=
      ((when_same (fun _ => raise_same (by decide)) (Same.refl [.win, .link, .ports, .ocl] s1)).part .svc (by decide)).trans
        ((commitRows_frame x s).part .svc (by decide))
    unfold request
    rw [hsvc]
  rw [hreq]
  rcases h with h | ⟨q, h, hpre, hout, -⟩
  · rw [h]
    exact h2
  · rw [h]
    dsimp only
    rw [hpre, hout]
    simp only [List.isEmpty_nil, Bool.not_true, Bool.and_false, Bool.false_and, when, Bool.false_eq_true, if_false]
    split
    · exact noteLate_same (by decide) (advanceRequest_same (by decide) h2)
    · exact advanceRequest_same (by decide) h2

theorem commitEnds_silent (hx : e.seqs = [x]) (h : CommitsSilently x s) (t : State) : commitEnds e s t = [] := by
  unfold commitEnds
  rw [hx]
  rcases h with h | ⟨q, h, hpre, hout, hend⟩
  · simp [h]
  · simp [h, commitEnd, hpre, hout, hend]

theorem commitCounted_frame (i : Nat) (e : LedgerEntry) (s : State) : Same [.win, .svc, .ledger] s (commitCounted i e s) :=
  addTele_same (by decide) (bumpBy_same (by decide) (modLedger_same (by decide) (Same.refl _ s)))

theorem commitCounted_silent (h : CommitsSilently x s) (i : Nat) (e : LedgerEntry) : CommitsSilently x (commitCounted i e s) := h

/-- Of such a step, what the commit point leaves of the sequence's slot and of stack memory is what the commit of its rows left. -/
theorem stepCommit_silent (he : ledgerEntry i s = some e) (hr : commitReady e s = true) (hx : e.seqs = [x]) (h : CommitsSilently x s) :
    Same [.win, .budget, .svc, .ledger, .link, .ports, .ocl, .pair, .free] (commitRows x (commitCounted i e s)) (stepCommit i s) := by
  rw [stepCommit_ready he hr, commitEnds_silent hx h]
  refine settleLedger_same (by decide) (sendScommit_same (by decide) (mirrorStep_same (by decide) ?_))
  rw [hx]
  exact ⟨fun p hp => (commitSeq_silent (commitCounted_silent h i e) e).part p fun hm =>
    hp ((by decide : ([.win, .svc, .link, .ports, .ocl] : List Part) ⊆ [.win, .budget, .svc, .ledger, .link, .ports, .ocl, .pair, .free]) hm)⟩

/-! ### The page of the rows -/

/-- Counting tokens leaves the shape of every pool. -/
theorem commitKv_shape (x : StepSeq) (i : Nat) (e : LedgerEntry) (m : Nat) (s : State) : PoolShape m s (commitKv x (commitCounted i e s)) := by
  intro o h1 h2
  have hne (k : Nat) (hk : k = F.TOK_GEN_CNT ∨ k = F.TOK_GEN_CNT + 4) : o ≠ k := by
    unfold F.TOK_GEN_CNT at hk
    omega
  exact reg_setCnt_ne (s := modLedger i _ s) (hne _ (Or.inl rfl)) (hne _ (Or.inr rfl)) _

theorem openFormats_fit {n q : Nat} {rows : List Nat} {l : List PageFmt} (h : FormatsFit n l) : FormatsFit n (openFormats q rows l) := by
  intro f hf
  obtain ⟨g, hg, rfl⟩ := List.mem_map.1 hf
  have hg := h g (List.mem_of_mem_filter hg)
  split
  · exact hg
  · exact hg

/-- The sequence's slot before the commit. -/
theorem commitKv_slot (x : StepSeq) (i : Nat) (e : LedgerEntry) (s : State) :
    seqSlot x.seq (commitKv x (commitCounted i e s)) = seqSlot x.seq s := rfl

theorem commitKv_page (x : StepSeq) (i : Nat) (e : LedgerEntry) (sp : Nat) (s : State) :
    pageAt x.seq sp (commitKv x (commitCounted i e s)) = pageAt x.seq sp s := rfl

theorem openPages_counted {g : PageEntry} {sp : Nat} (hg : pageAt x.seq sp s = some g) (i : Nat) (e : LedgerEntry) :
    openPages x.seq [sp] (commitKv x (commitCounted i e s)) =
      forEach (List.range (poolL (seqSlot x.seq s).model s)) (openLayer x.seq sp (seqSlot x.seq s).model g.page)
        (commitKv x (commitCounted i e s)) := by
  rw [openPages_some ((commitKv_page x i e sp s).trans hg), commitKv_slot, poolL_congr (commitKv_shape x i e _ s)]

theorem commitRows_open {g : PageEntry} {sp l : Nat} (hsp : spansOf x.start (x.start + x.accepted) = [sp]) (hg : pageAt x.seq sp s = some g)
    (hf : FormatsFit (2 * poolKvh (seqSlot x.seq s).model s) s.kv.formats) (hl : l < poolL (seqSlot x.seq s).model s) :
    stackNat (pageSide (seqSlot x.seq s).model g.page l s + 1) 1 (commitRows x (commitCounted i e s)) = 1 := by
  have hshape := commitKv_shape x i e (seqSlot x.seq s).model s
  have hfit : FormatsFit (2 * poolKvh (seqSlot x.seq s).model (commitKv x (commitCounted i e s))) (commitKv x (commitCounted i e s)).kv.formats := by
    rw [poolKvh_congr hshape]
    exact openFormats_fit hf
  have hopen := openLayers_open (q := x.seq) (sp := sp) (p := g.page) (List.mem_range.2 hl) hfit
  rw [pageSide_congr hshape] at hopen
  unfold stackNat memNat
  rw [commitRows_stackMem, hsp, openPages_counted hg]
  change bytesToNat [byteAt _ _] = 1
  rw [hopen]
  decide

theorem commitRows_out {g : PageEntry} {sp b : Nat} (hsp : spansOf x.start (x.start + x.accepted) = [sp]) (hg : pageAt x.seq sp s = some g)
    (hf : FormatsFit (2 * poolKvh (seqSlot x.seq s).model s) s.kv.formats)
    (hb : ∀ l, l < poolL (seqSlot x.seq s).model s →
      b < pageSide (seqSlot x.seq s).model g.page l s ∨ headEnd (seqSlot x.seq s).model g.page l s ≤ b) :
    byteAt (commitRows x (commitCounted i e s)).stackMem b = byteAt s.stackMem b := by
  have hshape := commitKv_shape x i e (seqSlot x.seq s).model s
  have hfit : FormatsFit (2 * poolKvh (seqSlot x.seq s).model (commitKv x (commitCounted i e s))) (commitKv x (commitCounted i e s)).kv.formats := by
    rw [poolKvh_congr hshape]
    exact openFormats_fit hf
  rw [commitRows_stackMem, hsp, openPages_counted hg]
  refine openLayers_out hfit fun l hl => ?_
  unfold headEnd
  rw [pageSide_congr hshape, poolKvh_congr hshape]
  exact hb l (List.mem_range.1 hl)

theorem stepCommit_frame (i : Nat) (s : State) :
    Same [.win, .stackMem, .budget, .kv, .svc, .ledger, .link, .ports, .ocl, .pair, .free] s (stepCommit i s) :=
  stepCommit_same rfl (Same.refl _ s)

theorem exec_stepCommit (i : Nat) (s : State) : exec (.stepCommit i) s = .next (stepCommit i s) := rfl

/-- Settles O36: a result is a change of one ledger entry, and a commit counts its tokens once, whatever it sends afterwards. -/
theorem stepsReachTheirResultAndCommit : Obligations.StepsReachTheirResultAndCommit := by
  unfold Obligations.StepsReachTheirResultAndCommit
  intro s i hw
  refine ⟨fun e scores he hl hr ht => ?_, fun e he hr => ?_, fun e he hr => congrArg Host.Outcome.next (stepCommit_notReady he hr)⟩
  · refine ⟨_, congrArg Host.Outcome.next (stepResult_launched he hl hr ht), ?_, fun j hj => ?_, rfl⟩
    · exact ledgerEntry_modLedger_self (fun _ => rfl) he
    · refine ledgerEntry_modLedger_ne ?_ hj s
      exact fun _ => rfl
  · refine ⟨_, exec_stepCommit i s, tokGen_stepCommit hw he hr, stepCommit_committed he hr,
      (stepCommit_frame i s).part .cellMem (by decide), fun x hx hsilent => ?_⟩
    have hrows := stepCommit_silent he hr hx hsilent
    have hstack : (stepCommit i s).stackMem = (commitRows x (commitCounted i e s)).stackMem := hrows.part .stackMem (by decide)
    have hcounted : (commitCounted i e s).TablesWf := (addTele_keeps (bumpBy_keeps (modLedger_keeps (Keeps.refl s)))).tables hw
    refine ⟨?_, fun sp hsp => ⟨fun hnone => ?_, fun g hg hf => ⟨fun l hl => ?_, fun b hb => ?_⟩⟩⟩
    · rw [seqSlot_congr (congrArg Kv.seqs (hrows.part .kv (by decide)))]
      exact commitRows_len hcounted x
    · rw [hstack, commitRows_stackMem, hsp, openPages_none ((commitKv_page x i e sp s).trans hnone)]
      rfl
    · rw [stackNat_congr hstack]
      exact commitRows_open hsp hg hf hl
    · rw [hstack]
      exact commitRows_out hsp hg hf hb

end Sys2Proof.Machine
end

section
/-!
SUPPORT. Rings that open (R212, R294), output rings that make room (R215) and hot windows that fill (R186, R226).
-/
namespace Sys2Proof.Machine
open Sys2Proof

variable {s t : State} {k p c : Nat}

/-! ### ENABLE and SIZE_LOG of a ring -/

theorem ringEnFld_bit (k : Nat) : (ringEnFld k).lo = 31 ∧ (ringEnFld k).w = 1 := by
  unfold ringEnFld
  repeat' split
  all_goals exact ⟨rfl, rfl⟩

/-- The register of a ring's ENABLE is none that entries or ends of requests write. -/
theorem ringEnFld_unserved (k : Nat) : Unserved (reg (ringEnFld k).off) := by
  have hoff : 0x8108 ≤ (ringEnFld k).off ∧ (ringEnFld k).off < 0xb000 ∧ (ringEnFld k).off ∉ [0xa000, 0xa070, 0xa074] := by
    simp only [List.mem_cons, List.not_mem_nil, or_false]
    unfold ringEnFld F.CMD_RING_CFG.ENABLE F.OUT_RING_CFG.ENABLE
    repeat' split
    · dsimp only
      omega
    · dsimp only
      omega
    all_goals decide
  obtain ⟨hmin, hmax, hevents⟩ := hoff
  refine unserved_reg (fun h => ?_) fun m => by omega
  simp only [serviceRegs, List.mem_cons, List.not_mem_nil, or_false] at h hevents
  omega

/-- SIZE_LOG lies beside ENABLE. -/
theorem ringLog_wr_enable (hw : Table.wf resetWord s.win = true) (k v : Nat) : ringLog k (wr (ringEnFld k) v s) = ringLog k s := by
  unfold ringLog ringEnFld
  split_ifs
  all_goals
    refine rd_wr_field hw ?_ ?_ (Or.inl ?_) v
    · rfl
    · exact Nat.le_of_ble_eq_true rfl
    · exact Nat.le_of_ble_eq_true rfl

theorem on_wr_enable (hw : Table.wf resetWord s.win = true) (k v : Nat) : on (ringEnFld k) (wr (ringEnFld k) v s) = (v % 2 != 0) := by
  obtain ⟨hlo, hwid⟩ := ringEnFld_bit k
  unfold on
  rw [rd_wr_self hw (by omega), hwid]
  rfl

/-! ### A ring's header -/

theorem setIndices_win (k p c : Nat) (s : State) : (setIndices k p c s).win = s.win := by
  unfold setIndices
  repeat' split
  all_goals rfl

theorem watchRing_regs (k : Nat) (s : State) : Regs [0xa000, 0xa070, 0xa074] s (watchRing k s) := by
  unfold watchRing
  split
  · exact Regs.refl _ s
  · exact hostRead_regs (by decide) ((Regs.refl _ s).of_win rfl)

theorem tuneFetch_regs (s : State) : Regs [0xa000, 0xa070, 0xa074] s (tuneFetch s) := by
  unfold tuneFetch readTokens
  split
  · exact Regs.refl _ s
  · split
    · exact hostRead_regs (by decide) (Regs.refl _ s)
    · split
      · exact Regs.refl _ s
      · exact hostRead_regs (by decide) (Regs.refl _ s)

theorem Unserved.events {β : Type} {f : State → β} (hf : Unserved f) (h : Regs [0xa000, 0xa070, 0xa074] s t) : f t = f s :=
  hf.regs ⟨fun o ho => h.reg o fun hm => ho ((by decide : ([0xa000, 0xa070, 0xa074] : List Nat) ⊆ serviceRegs) hm)⟩

/-- A header whose indices fit writes no register of the rings. -/
theorem Unserved.ringHeader {β : Type} {f : State → β} (hf : Unserved f) (hfit : ringUsed p c ≤ 2 ^ ringLog k s) :
    f (ringHeader k p c s) = f s := by
  unfold Machine.ringHeader
  extract_lets s' s2 s1
  rw [if_neg (show ¬ 2 ^ ringLog k s' < ringUsed p c from Nat.not_lt.2 hfit)]
  have h2 : f s2 = f s := (hf.events (watchRing_regs k _)).trans (hf.congr (setIndices_win k p c s'))
  have h1 : f s1 = f s := by
    unfold s1
    split
    · exact (forEach_fixed f (fun _ _ => hf.events (hostRead_regs (by decide) (Regs.refl _ _))) _ _).trans h2
    · exact h2
  split
  · exact (hf.events (flushEvents_regs (by decide) (Regs.refl _ _))).trans h1
  · split
    · exact (hf.flushHeld _ _).trans h1
    · split
      · exact (hf.events (tuneFetch_regs _)).trans h1
      · exact h1

theorem cmdRing_congr (h : t.svc = s.svc) (k : Nat) : cmdRing k t = cmdRing k s := by
  unfold cmdRing
  rw [h]

/-- A command ring starts at the indices of its header. -/
theorem ringHeader_cmdRing (hk : k < 8) (hw : s.TablesWf) (hfit : ringUsed p c ≤ 2 ^ ringLog k s) :
    cmdRing k (ringHeader k p c s) = ⟨p, c⟩ := by
  unfold ringHeader
  extract_lets s' s2 s1
  rw [if_neg (show ¬ 2 ^ ringLog k s' < ringUsed p c from Nat.not_lt.2 hfit), if_neg (by omega), if_neg (by omega), if_neg (by omega)]
  unfold s1
  rw [if_pos hk, cmdRing_congr ((readEntries_same (by decide) (Same.refl [.win, .link, .ports, .ocl] s2)).part .svc (by decide)),
    cmdRing_congr ((watchRing_same (by decide) (Same.refl [.win, .link, .ports, .ocl] _)).part .svc (by decide))]
  unfold setIndices
  rw [if_pos hk]
  exact Table.get_set_self _ hw.cmd k _

/-- A header whose indices lie too far apart disables the ring. -/
theorem ringHeader_off (hw : Table.wf resetWord s.win = true) (hfar : 2 ^ ringLog k s < ringUsed p c) :
    on (ringEnFld k) (ringHeader k p c s) = false := by
  unfold ringHeader
  dsimp only
  rw [if_pos (show 2 ^ ringLog k (markRead k s) < ringUsed p c from hfar)]
  exact on_wr_enable (s := markRead k s) hw k 0

/-! ### RING_ENABLE -/

theorem beginRing_tables (hw : s.TablesWf) (k : Nat) : (beginRing k s).TablesWf := (wr_keeps (Keeps.refl _)).tables { hw with }

theorem beginRing_on (hw : s.TablesWf) (k : Nat) : on (ringEnFld k) (beginRing k s) = true := on_wr_enable hw.win k 1

theorem beginRing_log (hw : s.TablesWf) (k : Nat) : ringLog k (beginRing k s) = ringLog k s := ringLog_wr_enable hw.win k 1

theorem ringEnable_begins (hk : k < 19) (hoff : on (ringEnFld k) s = false) (hsize : ringSizeOk k s = true) (h : Option (Nat × Nat)) :
    ringEnable k h s = match h with
      | none => ringUnread k (beginRing k s)
      | some (p, c) => ringHeader k (p % 2 ^ 32) (c % 2 ^ 32) (beginRing k s) :=
  if_neg (by simp [hoff, hsize, hk])

/-! ### OUTPUT_ROOM_WRITE -/

/-- With nothing waiting or held, making room writes no entry. -/
theorem flushHeld_empty {r : Nat} (hwait : (outRing r s).waiting = []) (hheld : (outRing r s).held = []) : flushHeld r s = s := by
  unfold flushHeld drain
  rw [hheld]
  split
  · rfl
  · show drainRing (outRing r s).waiting.length r s = s
    rw [hwait]
    rfl

theorem outRing_setOutRing (hw : s.TablesWf) (r : Nat) (x : OutRing) : outRing r (setOutRing r x s) = x := Table.get_set_self _ hw.out r x

theorem outRing_setOutRing_ne {q r : Nat} (h : q ≠ r) (x : OutRing) (s : State) : outRing q (setOutRing r x s) = outRing q s :=
  Table.get_set_ne _ _ _ h

/-! ### HOT_WINDOW_FILL -/

theorem request_modRequest {id : Nat} {f : Request → Request} (hf : ∀ q, (f q).id = q.id) {q : Request} (h : request id s = some q) :
    request id (modRequest id f s) = some (f q) := by
  have hp : ((fun q : Request => q.id == id) ∘ fun q => if q.id == id then f q else q) = fun q => q.id == id := by
    funext q
    simp only [Function.comp_apply]
    split
    · rw [hf]
    · rfl
  have hid : (q.id == id) = true := List.find?_some (p := fun q : Request => q.id == id) h
  have hmap : request id (modRequest id f s) = (request id s).map fun q => if q.id == id then f q else q :=
    List.find?_map.trans (congrArg (fun p => (s.svc.reqs.find? p).map _) hp)
  rw [hmap, h, Option.map_some, if_pos hid]

/-- The request fills no more: what the fill moved is in its cells, and what it reads is counted. -/
def hotFilled (id : Nat) (q : Request) (s : State) : State :=
  modRequest id (fun x => { x with filling := false })
    (forEach (fillReads q.seq (hotWindow q.hot) s) (fun r => countSpan false r.1 r.2.1) (fillKv q s))

theorem hotWindowFill_frame {id : Nat} {q : Request} (hq : request id s = some q) (hfill : q.filling = true) (hfree : held 2 s = false) :
    Same [.win, .budget, .link, .ports, .ocl] (hotFilled id q s) (hotWindowFill id s) := by
  unfold hotWindowFill
  rw [hq]
  dsimp only
  rw [if_pos (by simp [hfill, hfree])]
  exact chargeEnergy_same (by decide) (charge_same (by decide) (chargeEnergy_same (by decide) (charge_same (by decide) (Same.refl _ _))))

theorem hotFilled_counted (id : Nat) (q : Request) (s : State) : Same [.win, .svc] (fillKv q s) (hotFilled id q s) :=
  modRequest_same (by decide) (forEach_same (fun _ _ => countSpan_same (by decide)) (Same.refl _ _))

theorem hotFilled_kv (id : Nat) (q : Request) (s : State) : (hotFilled id q s).kv = (fillKv q s).kv :=
  (hotFilled_counted id q s).part .kv (by decide)

theorem hotFilled_request {id : Nat} {q : Request} (hq : request id s = some q) :
    request id (hotFilled id q s) = some { q with filling := false } := by
  refine request_modRequest (f := fun x => { x with filling := false }) (fun _ => rfl) ?_
  have hsvc := forEach_fixed (·.svc) (f := fun r : Nat × Nat × Nat => countSpan false r.1 r.2.1)
    (fun _ t => (countSpan_same (by decide) (Same.refl [.win] t)).part .svc (by decide)) (fillReads q.seq (hotWindow q.hot) s) (fillKv q s)
  unfold request
  rw [hsvc]
  exact hq

theorem fillKv_hot {q : Request} {l part pos : Nat} (hl : l < poolL q.model s) (hp : part < 2 * poolKvh q.model s)
    (hpos : pos ∈ fillPositions (seqSlot q.seq s).len (hotWindow q.hot)) :
    hotFrom q.seq (hotWindow q.hot) l part pos s ∈ (fillKv q s).kv.hot :=
  List.mem_append_right _ (List.mem_flatMap.2 ⟨l, List.mem_range.2 hl, List.mem_flatMap.2 ⟨part, List.mem_range.2 hp,
    List.mem_map_of_mem hpos⟩⟩)

theorem fillKv_others {q : Request} {h : HotKv} (hh : h ∈ s.kv.hot) (hne : h.seq ≠ q.seq) : h ∈ (fillKv q s).kv.hot :=
  List.mem_append_left _ (List.mem_filter.2 ⟨hh, bne_iff_ne.2 hne⟩)

/-- A sequence that has no sinter stores takes those of its handle, where the mirror left no copies. -/
theorem fillStores_handle {q : Request} {e : PfxEntry} (hmirror : s.pair.sinter.filter (·.1 == q.seq) = []) (huse : q.usesHandle = true)
    (hnone : storesOf q.seq s = []) (he : pfxEntry q.handle s = some e) : fillStores q s = e.sinter := by
  unfold fillStores
  rw [hmirror, huse, hnone, he]
  rfl

theorem fillKv_stores {q : Request} {y : SinterStore} (h : y ∈ fillStores q s) : (q.seq, y) ∈ (fillKv q s).kv.stores :=
  List.mem_append_left _ (List.mem_map_of_mem h)

/-- Settles O35: a header's reads and what an opened ring sends write none of the rings' registers, and a fill changes what the cells keep of
its own sequence alone. -/
theorem ringsOpenAndMakeRoom : Obligations.RingsOpenAndMakeRoom := by
  unfold Obligations.RingsOpenAndMakeRoom
  intro s k r p c id hw
  have hbegun := beginRing_tables hw k
  refine ⟨fun hk hoff hsize => ⟨⟨_, congrArg Host.Outcome.next (ringEnable_begins hk hoff hsize (some (p, c))), fun hfit => ?_,
    fun hfar => ?_⟩, fun h8 => ⟨_, congrArg Host.Outcome.next (ringEnable_begins hk hoff hsize none), ?_⟩⟩, fun hr hlive => ?_, fun hr hlive hwait hheld => ?_,
    fun q hq hfill hfree => ?_⟩
  · rw [← beginRing_log hw k] at hfit
    refine ⟨?_, fun h8 => ringHeader_cmdRing h8 hbegun hfit⟩
    rw [← beginRing_on hw k]
    exact congrArg (· != 0) ((ringEnFld_unserved k).rd.ringHeader hfit)
  · rw [← beginRing_log hw k] at hfar
    exact ringHeader_off hbegun.win hfar
  · show on (ringEnFld k) (ringUnread k (beginRing k s)) = false
    unfold ringUnread
    rw [if_pos h8]
    exact on_wr_enable (s := markRead k (beginRing k s)) hbegun.win k 0
  · exact congrArg Host.Outcome.next (if_pos (by simp [hlive]))
  · have hnew := outRing_setOutRing hw r { outRing r s with cons := c % 2 ^ 32, full := false }
    refine ⟨_, congrArg Host.Outcome.next ((if_neg (by simp [hlive, hr])).trans (flushHeld_empty ?_ ?_)), hnew,
      fun q hq => outRing_setOutRing_ne hq _ s, rfl⟩
    · rw [hnew]
      exact hwait
    · rw [hnew]
      exact hheld
  · have hframe := hotWindowFill_frame hq hfill hfree
    have hkv : (hotWindowFill id s).kv = (fillKv q s).kv := (hframe.part .kv (by decide)).trans (hotFilled_kv id q s)
    have hsvc : (hotWindowFill id s).svc = (hotFilled id q s).svc := hframe.part .svc (by decide)
    refine ⟨_, rfl, ?_, ?_, ?_, ?_, fun l part hl hp pos hpos => ?_, fun h hh hne => ?_, fun e hmirror huse hnone he x hx => ?_⟩
    · unfold request
      rw [hsvc]
      exact hotFilled_request hq
    · exact (hframe.part .cellMem (by decide)).trans ((hotFilled_counted id q s).part .cellMem (by decide))
    · exact (hframe.part .stackMem (by decide)).trans ((hotFilled_counted id q s).part .stackMem (by decide))
    · rw [hkv]
      rfl
    · rw [hkv]
      exact fillKv_hot hl hp hpos
    · rw [hkv]
      exact fillKv_others hh hne
    · rw [hkv]
      exact fillKv_stores ((fillStores_handle hmirror huse hnone he).symm ▸ hx)

end Sys2Proof.Machine
end

section
/-!
SUPPORT. Messages on their way out leave the watches on host memory (R292, R294).
-/
namespace Sys2Proof.Machine
open Sys2Proof

variable (s : State)

theorem setLink_ocl (i : Nat) (l : LinkState) : (setLink i l s).ocl = s.ocl := by
  unfold setLink
  split <;> rfl

theorem modLink_ocl (i : Nat) (f : LinkState → LinkState) : (modLink i f s).ocl = s.ocl := setLink_ocl s i _

theorem setTxKey_watches (k : KeySlot) : (setTxKey k s).ocl.watches = s.ocl.watches := by
  unfold setTxKey
  split <;> rfl

theorem queueEvent_watches (off bits : Nat) : (queueEvent off bits s).ocl.watches = s.ocl.watches := by
  unfold queueEvent
  dsimp only
  split_ifs <;> rfl

theorem raiseQuiet_watches (f : Fld) : (raiseQuiet f s).ocl.watches = s.ocl.watches := by
  unfold raiseQuiet
  dsimp only
  split_ifs
  · rfl
  · exact queueEvent_watches _ _ _
  · rfl

theorem sealMsg_watches (m : OutMsg) : (sealMsg m s).2.ocl.watches = s.ocl.watches := by
  unfold sealMsg
  dsimp only
  split_ifs
  · exact (raiseQuiet_watches _ _).trans (setTxKey_watches _ _)
  · exact setTxKey_watches _ _
  · rfl

theorem stampIntr_watches (i : Nat) (m : OutMsg) : (stampIntr i m s).ocl.watches = s.ocl.watches := by
  unfold stampIntr
  split <;> rfl

theorem transmit_watches (i : Nat) (m : OutMsg) : (transmit i m s).2.ocl.watches = s.ocl.watches :=
  calc (transmit i m s).2.ocl.watches
      = (stampIntr i m (takeCredits i m s)).ocl.watches := sealMsg_watches _ m
    _ = (takeCredits i m s).ocl.watches := stampIntr_watches _ i m
    _ = s.ocl.watches := congrArg (·.watches) (modLink_ocl s i _)

theorem pumpList_watches (i : Nat) (ms blocked : List OutMsg) (out : List TxSlot) :
    (pumpList i ms blocked out s).2.ocl.watches = s.ocl.watches := by
  induction ms generalizing blocked out s with
  | nil => rfl
  | cons m ms ih =>
    unfold pumpList
    split
    · exact (ih _ _ _).trans (transmit_watches s i m)
    · exact ih _ _ _

theorem pushFlits_ocl (n i : Nat) (slots : List TxSlot) : (pushFlits n i slots s).ocl = s.ocl := by
  induction n generalizing slots s with
  | zero => rfl
  | succ n ih =>
    unfold pushFlits
    split
    · rfl
    · exact (ih _ _).trans ((modLink_ocl _ i _).trans (setLink_ocl s i _))

theorem sendOut_watches (i : Nat) (m : OutMsg) : (sendOut i m s).ocl.watches = s.ocl.watches := by
  unfold sendOut pump
  rw [pushFlits_ocl, modLink_ocl, pumpList_watches, modLink_ocl]

theorem hostRead_watches (addr n : Nat) (watch : Bool) (use : ReadUse) :
    (hostRead addr n watch use s).ocl.watches = s.ocl.watches := by
  unfold hostRead issueRead
  split
  · rfl
  · exact sendOut_watches _ 0 _

end Sys2Proof.Machine
end

section
/-!
SUPPORT. Sequence slots that are released one after another (R193, R236, R454): which bytes of stack memory their page lists lose. A slot
that stands twice in a list has no pages the second time.
-/
namespace Sys2Proof.Machine
open Sys2Proof

variable {s : State} {a q : Nat}

/-- Byte `a` lies in no entry of these pages in the page list of sequence slot `q`. -/
def OffList (a q : Nat) (ps : List PageEntry) (s : State) : Prop :=
  ∀ g ∈ ps, a < listAddr q g.span s ∨ listAddr q g.span s + 4 ≤ a

theorem clearList_byte {ps : List PageEntry} (h : OffList a q ps s) : byteAt (clearList q ps s).stackMem a = byteAt s.stackMem a := by
  induction ps generalizing s with
  | nil => rfl
  | cons g ps ih =>
    have hrest : OffList a q ps (stackPut (listAddr q g.span s) 4 0 s) := fun x hx => h x (List.mem_cons_of_mem _ hx)
    exact (ih hrest).trans (byteAt_memPut_ne s.stackMem 0 (h g List.mem_cons_self))

/-- A slot that is not in use, or is being freed, is not released. -/
theorem releaseSeq_idle (h : (!(seqSlot q s).used) = true ∨ (seqSlot q s).freeing.isSome = true) (kept : Bool) :
    releaseSeq q kept s = s := if_pos h

/-- A sequence slot that has been released and whose release flits are on their way. -/
def SeqSlot.released (x : SeqSlot) : SeqSlot := { x with pages := [], len := 0, resv := 0, freeing := some 2 }

theorem releaseSeq_seqs (h : ¬ ((!(seqSlot q s).used) = true ∨ (seqSlot q s).freeing.isSome = true)) (kept : Bool) :
    (releaseSeq q kept s).kv.seqs = Table.set (fun _ => SeqSlot.reset) s.kv.seqs q (seqSlot q s).released := by
  unfold releaseSeq
  dsimp only
  rw [if_neg h]
  have hclear (ps : List PageEntry) (t : State) : (clearList q ps t).kv = t.kv :=
    (clearList_same (by decide) (Same.refl [.stackMem] t)).part .kv (by decide)
  show Table.set _ (clearList q _ _).kv.seqs q _ = _
  rw [hclear]
  rfl

theorem releaseSeq_byte (h : OffList a q (seqSlot q s).pages s) (kept : Bool) :
    byteAt (releaseSeq q kept s).stackMem a = byteAt s.stackMem a := by
  unfold releaseSeq
  dsimp only
  split
  · rfl
  · exact clearList_byte h

/-- A release takes pages from slots and moves no page list. -/
theorem releaseSeq_slot (hw : s.TablesWf) (q r : Nat) (kept : Bool) :
    (seqSlot r (releaseSeq q kept s)).list = (seqSlot r s).list ∧ (seqSlot r (releaseSeq q kept s)).pages ⊆ (seqSlot r s).pages := by
  by_cases hidle : (!(seqSlot q s).used) = true ∨ (seqSlot q s).freeing.isSome = true
  · rw [releaseSeq_idle hidle]
    exact ⟨rfl, List.Subset.refl _⟩
  · have hseqs := releaseSeq_seqs hidle kept
    by_cases hr : r = q
    · subst hr
      have hslot : seqSlot r (releaseSeq r kept s) = (seqSlot r s).released := by
        unfold seqSlot at hseqs ⊢
        rw [hseqs]
        exact Table.get_set_self _ hw.seqs r _
      rw [hslot]
      exact ⟨rfl, List.nil_subset _⟩
    · have hslot : seqSlot r (releaseSeq q kept s) = seqSlot r s := by
        unfold seqSlot at hseqs ⊢
        rw [hseqs]
        exact Table.get_set_ne _ _ _ hr
      rw [hslot]
      exact ⟨rfl, List.Subset.refl _⟩

theorem OffList.releaseSeq {r : Nat} (hw : s.TablesWf) (h : OffList a r (seqSlot r s).pages s) (q : Nat) (kept : Bool) :
    OffList a r (seqSlot r (releaseSeq q kept s)).pages (releaseSeq q kept s) := by
  obtain ⟨hlist, hpages⟩ := releaseSeq_slot hw q r kept
  intro g hg
  unfold listAddr
  rw [hlist]
  exact h g (hpages hg)

/-- Of stack memory a run of releases takes the page list entries of the slots' pages. -/
theorem forEach_releaseSeq_byte {qs : List Nat} (hw : s.TablesWf) (h : ∀ q ∈ qs, OffList a q (seqSlot q s).pages s) :
    byteAt (forEach qs (fun q => releaseSeq q false) s).stackMem a = byteAt s.stackMem a := by
  induction qs generalizing s with
  | nil => rfl
  | cons q qs ih =>
    have hw' : (releaseSeq q false s).TablesWf := (releaseSeq_keeps (Keeps.refl s)).tables hw
    have hrest : ∀ r ∈ qs, OffList a r (seqSlot r (releaseSeq q false s)).pages (releaseSeq q false s) :=
      fun r hr => (h r (List.mem_cons_of_mem _ hr)).releaseSeq hw q false
    exact (ih hw' hrest).trans (releaseSeq_byte (h q List.mem_cons_self) false)

end Sys2Proof.Machine
end

section
/-!
SUPPORT. The tune job (R260, R262, R267 to R269): its commands and its blocks write registers of their own, and what host memory is sent of
examples and watches writes none but the event path's.
-/
namespace Sys2Proof.Machine
open Sys2Proof

variable {s : State}

/-- Registers of the event path: `OCL_STS` and the count of dropped events (R299, R300). -/
def eventRegs : List Nat := [0xa000, 0xa070, 0xa074]

/-! ### Messages of the job -/

theorem writeExample_regs {ρ : List Nat} {σ : State} (hρ : SubN eventRegs ρ) (i b n v : Nat) (h : Regs ρ σ s) :
    Regs ρ σ (writeExample i b n v s) := sendWrPart_regs hρ h

theorem unwatchRing_regs {ρ : List Nat} {σ : State} (hρ : SubN eventRegs ρ) (k : Nat) (h : Regs ρ σ s) : Regs ρ σ (unwatchRing k s) := by
  unfold unwatchRing
  dsimp only
  split
  · exact sendUnwatch_regs hρ (h.of_win rfl)
  · exact h

theorem watchTune_regs (s : State) : Regs eventRegs s (watchTune s) := by
  unfold watchTune
  split
  · exact unwatchRing_regs (by decide) 17 (Regs.refl _ s)
  · split
    · exact watchRing_regs 17 s
    · exact Regs.refl _ s

theorem writeLosses_regs (is : List Nat) (ls : List Word) (s : State) : Regs eventRegs s (writeLosses is ls s) := by
  suffices h : ∀ (σ t : State), Regs eventRegs σ t → Regs eventRegs σ (writeLosses is ls t) from h s s (Regs.refl _ s)
  intro σ t ht
  induction is generalizing ls t with
  | nil => exact ht
  | cons i is ih =>
    cases ls with
    | nil => exact ht
    | cons l ls => exact ih ls _ (writeExample_regs (by decide) i 36 8 _ ht)

/-! ### The watch on the ring -/

/-- With room for one more watch the ring of a job that runs is watched. -/
theorem watchTune_watches (hrun : tuneRuns s = true) (hon : tuneRingOn s = true) (hread : s.svc.unread.contains 17 = false)
    (hroom : s.ocl.watches.length < 32) : (watchTune s).ocl.watches.any (·.addr == watchedLine 17 s) = true := by
  unfold watchTune
  rw [if_neg (by simp [hrun])]
  split
  · unfold watchRing
    rw [if_neg (by simp [hrun]), hostRead_watches]
    unfold watchLine
    dsimp only
    have hlen := List.length_filter_le (fun w : Watch => w.addr != watchedLine 17 s) s.ocl.watches
    rw [List.take_of_length_le (by rw [List.length_append, List.length_singleton]; omega), List.any_append]
    simp
  · next hno =>
    rw [hon, hread] at hno
    simpa using hno

theorem watchedLine_wr_tune {f : Fld} (hf : f.off = O.TUNE_STATE) (v : Nat) (s : State) :
    watchedLine 17 (wr f v s) = watchedLine 17 s := by
  have hreg {o : Nat} (h : o ≠ O.TUNE_STATE) : reg o (wr f v s) = reg o s := reg_wr_ne (hf ▸ h) v s
  unfold watchedLine ringBase addr64
  rw [hreg (by decide : O.TUNE_RING_BASE ≠ O.TUNE_STATE), hreg (by decide : O.TUNE_RING_BASE_HI ≠ O.TUNE_STATE)]
  rfl

/-! ### The job's state and its status bits -/

theorem tuneSt_wr (hw : s.TablesWf) {v : Nat} (hv : v < 8) : tuneSt (wr F.TUNE_STATE.STATE v s) = v :=
  (rd_wr_self hw.win (by decide) v).trans (Nat.mod_eq_of_lt hv)

theorem tuneRefuse_refused (hw : s.TablesWf) : rd F.TUNE_STS.REFUSED (tuneRefuse s) = 1 := rd_raise hw.win rfl (by decide) (by decide)

theorem tuneSt_tuneRefuse (s : State) : tuneSt (tuneRefuse s) = tuneSt s := (raise_writes _ s).rd (by decide)

theorem tuneSt_watchTune (s : State) : tuneSt (watchTune s) = tuneSt s := (watchTune_regs s).rd (by decide)

theorem tuneSt_tuneEnd (hw : s.TablesWf) {st : Nat} (hst : st < 8) (fail : Nat) : tuneSt (tuneEnd st fail s) = st :=
  calc tuneSt (tuneEnd st fail s)
      = tuneSt (raise F.TUNE_STS.ENDED (wr F.TUNE_STATE.FAIL fail (wr F.TUNE_STATE.STATE st s))) := tuneSt_watchTune _
    _ = tuneSt (wr F.TUNE_STATE.FAIL fail (wr F.TUNE_STATE.STATE st s)) := (raise_writes _ _).rd (by decide)
    _ = tuneSt (wr F.TUNE_STATE.STATE st s) :=
      rd_wr_field (f := F.TUNE_STATE.STATE) (g := F.TUNE_STATE.FAIL) (win_wr hw.win _ _) rfl (by decide) (by decide) fail
    _ = st := tuneSt_wr hw hst

/-- A status bit of the job other than ENDED stands over the job's end. -/
theorem rd_tuneEnd (hw : s.TablesWf) {f : Fld} (hoff : f.off = O.TUNE_STS) (hlo : f.lo + f.w ≤ 4) (st fail : Nat) :
    rd f (tuneEnd st fail s) = rd f s := by
  have hevents : f.off ∉ eventRegs := hoff ▸ (by decide)
  have hstate : f.off ≠ O.TUNE_STATE := hoff ▸ (by decide)
  calc rd f (tuneEnd st fail s)
      = rd f (raise F.TUNE_STS.ENDED (wr F.TUNE_STATE.FAIL fail (wr F.TUNE_STATE.STATE st s))) := (watchTune_regs _).rd hevents
    _ = rd f (wr F.TUNE_STS.ENDED 1 (wr F.TUNE_STATE.FAIL fail (wr F.TUNE_STATE.STATE st s))) := rd_raise_wr hevents _ _
    _ = rd f (wr F.TUNE_STATE.FAIL fail (wr F.TUNE_STATE.STATE st s)) :=
      rd_wr_field (win_wr (win_wr hw.win _ _) _ _) hoff (by decide) (Or.inl hlo) 1
    _ = rd f s := (rd_wr_ne hstate _ _).trans (rd_wr_ne hstate _ _)

theorem tuneEnd_regs (st fail : Nat) (s : State) : Regs (O.TUNE_STS :: O.TUNE_STATE :: eventRegs) s (tuneEnd st fail s) := by
  have hraise := raise_regs (f := F.TUNE_STS.ENDED) (ρ := O.TUNE_STS :: O.TUNE_STATE :: eventRegs) (by decide) (by decide)
    (wr_regs (f := F.TUNE_STATE.FAIL) (v := fail) (by decide) (wr_regs (f := F.TUNE_STATE.STATE) (v := st) (by decide) (Regs.refl _ s)))
  exact ⟨fun o ho => ((watchTune_regs _).reg o (List.not_mem_of_not_mem_cons (List.not_mem_of_not_mem_cons ho))).trans
    (hraise.reg o ho)⟩

/-! ### RUN -/

theorem tuneRun_ok (h : tuneRunOk s = true) : tuneRun s = watchTune (wr F.TUNE_STATE.STATE 1 s) := if_pos h

theorem tuneRun_refused (h : tuneRunOk s = false) : tuneRun s = tuneRefuse s := if_neg (by simp [h])

theorem tuneRunOk_ringOn (h : tuneRunOk s = true) : tuneRingOn s = true := by
  simp only [tuneRunOk, Bool.and_eq_true] at h
  obtain ⟨⟨⟨-, hring⟩, -⟩, -⟩ := h
  exact hring

theorem tuneRun_regs (h : tuneRunOk s = true) : Regs (O.TUNE_STATE :: eventRegs) s (tuneRun s) := by
  rw [tuneRun_ok h]
  have hstate : Regs (O.TUNE_STATE :: eventRegs) s (wr F.TUNE_STATE.STATE 1 s) := wr_regs (by decide) (Regs.refl _ s)
  exact ⟨fun o ho => ((watchTune_regs _).reg o (List.not_mem_of_not_mem_cons ho)).trans (hstate.reg o ho)⟩

theorem tuneSt_tuneRun (hw : s.TablesWf) (h : tuneRunOk s = true) : tuneSt (tuneRun s) = 1 := by
  rw [tuneRun_ok h, tuneSt_watchTune]
  exact tuneSt_wr hw (by decide)

theorem tuneRun_watches (hw : s.TablesWf) (h : tuneRunOk s = true) (hread : s.svc.unread.contains 17 = false)
    (hroom : s.ocl.watches.length < 32) : (tuneRun s).ocl.watches.any (·.addr == watchedLine 17 s) = true := by
  have hrun : tuneRuns (wr F.TUNE_STATE.STATE 1 s) = true := by
    unfold tuneRuns
    rw [tuneSt_wr hw (by decide)]
    rfl
  have hon : tuneRingOn (wr F.TUNE_STATE.STATE 1 s) = true := (on_wr_ne (by decide) 1 s).trans (tuneRunOk_ringOn h)
  rw [tuneRun_ok h, ← watchedLine_wr_tune (f := F.TUNE_STATE.STATE) rfl 1 s]
  exact watchTune_watches hrun hon hread hroom

/-! ### PAUSE -/

theorem tunePause_running (h : tuneSt s = 1) : tunePause s = wr F.TUNE_STATE.STATE (if s.tune.blocks.isEmpty then 3 else 2) s := if_pos h

theorem tunePause_refused (h : tuneSt s ≠ 1) : tunePause s = tuneRefuse s := if_neg h

theorem tuneSt_tunePause (hw : s.TablesWf) (h : tuneSt s = 1) :
    tuneSt (tunePause s) = if s.tune.blocks.isEmpty then 3 else 2 := by
  rw [tunePause_running h]
  exact tuneSt_wr hw (by split <;> decide)

/-! ### The open group -/

/-- The examples of a discarded group, with STATUS DISCARDED written into them (R261, R269). -/
def groupMarked (es : List Example) (s : State) : State := forEach (es.filter (!·.bad)) (fun e => writeExample e.index 32 1 3) s

theorem groupMarked_tables (hw : s.TablesWf) (es : List Example) : (groupMarked es s).TablesWf :=
  (forEach_keeps (fun _ _ => writeExample_keeps) (Keeps.refl s)).tables hw

theorem groupMarked_regs (es : List Example) (s : State) : Regs eventRegs s (groupMarked es s) :=
  forEach_regs (fun _ _ => writeExample_regs (by decide) _ _ _ _) (Regs.refl _ s)

theorem discardGroup_tune (s : State) : (discardGroup s).tune = { s.tune with next := openFirst s, fresh := true } := by
  have hmark : (markDiscarded (openRun s) s).tune = s.tune :=
    (markDiscarded_same (by decide) (Same.refl [.win, .link, .ports, .ocl] s)).part .tune (by decide)
  unfold discardGroup rewind
  dsimp only
  rw [hmark]

theorem discardGroup_marks (hw : s.TablesWf) : rd F.TUNE_STS.DISCARD (discardGroup s) = 1 :=
  rd_raise (groupMarked_tables hw (openRun s)).win (f := F.TUNE_STS.DISCARD) rfl (by decide) (by decide)

theorem tuneSt_discardGroup (s : State) : tuneSt (discardGroup s) = tuneSt s :=
  ((raise_writes F.TUNE_STS.DISCARD (groupMarked (openRun s) s)).rd (by decide)).trans ((groupMarked_regs (openRun s) s).rd (by decide))

theorem discardGroup_tables (hw : s.TablesWf) : (discardGroup s).TablesWf := (discardGroup_keeps (Keeps.refl s)).tables hw

/-! ### ABORT and DISCARD -/

theorem tuneAbort_open (h1 : 1 ≤ tuneSt s) (h3 : tuneSt s ≤ 3) :
    tuneAbort s = if s.tune.blocks.isEmpty then tuneEnd 0 0 (discardGroup s) else wr F.TUNE_STATE.STATE 4 (discardGroup s) := by
  unfold tuneAbort
  dsimp only
  rw [if_pos ⟨h1, h3⟩, discardGroup_tune]

theorem tuneAbort_refused (h : tuneSt s = 0 ∨ 3 < tuneSt s) : tuneAbort s = tuneRefuse s := if_neg (by omega)

theorem tuneAbort_tune (h1 : 1 ≤ tuneSt s) (h3 : tuneSt s ≤ 3) :
    (tuneAbort s).tune = { s.tune with next := openFirst s, fresh := true } := by
  rw [tuneAbort_open h1 h3, ← discardGroup_tune]
  split
  · exact (tuneEnd_same (by decide) (Same.refl [.win, .link, .ports, .ocl] _)).part .tune (by decide)
  · rfl

theorem tuneAbort_marks (hw : s.TablesWf) (h1 : 1 ≤ tuneSt s) (h3 : tuneSt s ≤ 3) : rd F.TUNE_STS.DISCARD (tuneAbort s) = 1 := by
  rw [tuneAbort_open h1 h3, ← discardGroup_marks hw]
  split
  · exact rd_tuneEnd (discardGroup_tables hw) rfl (by decide) 0 0
  · exact rd_wr_ne (by decide) 4 _

theorem tuneSt_tuneAbort (hw : s.TablesWf) (h1 : 1 ≤ tuneSt s) (h3 : tuneSt s ≤ 3) :
    tuneSt (tuneAbort s) = if s.tune.blocks.isEmpty then 0 else 4 := by
  rw [tuneAbort_open h1 h3]
  split
  · exact tuneSt_tuneEnd (discardGroup_tables hw) (by decide) 0
  · exact tuneSt_wr (discardGroup_tables hw) (by decide)

theorem tuneDiscard_open (h1 : 1 ≤ tuneSt s) (h3 : tuneSt s ≤ 3) : tuneDiscard s = discardGroup s := if_pos ⟨h1, h3⟩

theorem tuneDiscard_refused (h : tuneSt s = 0 ∨ 3 < tuneSt s) : tuneDiscard s = tuneRefuse s := if_neg (by omega)

theorem tuneRefuse_tune (s : State) : (tuneRefuse s).tune = s.tune := (raise_same_refl F.TUNE_STS.REFUSED s).part .tune (by decide)

/-- In every state of the job a command is taken or refused. -/
theorem tuneSt_cases (s : State) : (1 ≤ tuneSt s ∧ tuneSt s ≤ 3) ∨ (tuneSt s = 0 ∨ 3 < tuneSt s) := by omega

theorem tuneAbort_blocks (s : State) : (tuneAbort s).tune.blocks = s.tune.blocks := by
  rcases tuneSt_cases s with ⟨h1, h3⟩ | h
  · rw [tuneAbort_tune h1 h3]
  · rw [tuneAbort_refused h, tuneRefuse_tune]

theorem tuneDiscard_keepsJob (s : State) : (tuneDiscard s).tune.blocks = s.tune.blocks ∧ tuneSt (tuneDiscard s) = tuneSt s := by
  rcases tuneSt_cases s with ⟨h1, h3⟩ | h
  · rw [tuneDiscard_open h1 h3, discardGroup_tune]
    exact ⟨rfl, tuneSt_discardGroup s⟩
  · rw [tuneDiscard_refused h, tuneRefuse_tune]
    exact ⟨rfl, tuneSt_tuneRefuse s⟩

/-! ### TUNE_BLOCK_COMPLETE -/

/-- A block leaves the job and its slots are released. -/
def blockReleased (b : TuneBlock) (bs : List TuneBlock) (s : State) : State :=
  forEach b.seqs (fun q => releaseSeq q false) { s with tune := { s.tune with blocks := bs } }

/-- Its losses are written, and it is counted. -/
def blockCounted (b : TuneBlock) (bs : List TuneBlock) (losses : List Word) (s : State) : State :=
  bump F.TUNE_BLOCK_CNT (writeLosses b.examples losses (blockReleased b bs s))

/-- The last example of the group that a block ends. -/
def groupEnd (b : TuneBlock) : Option Nat := if b.apply then b.examples.getLast? else none

/-- The group that a block ends is closed. -/
def groupClosed (b : TuneBlock) (s : State) : State := (groupEnd b).elim s fun l => closeGroup l s

theorem tuneBlockComplete_over {b : TuneBlock} {bs : List TuneBlock} (hb : s.tune.blocks = b :: bs) (hover : blockOver b s = true)
    (losses : List Word) : tuneBlockComplete losses s = afterBlock (groupClosed b (blockCounted b bs losses s)) := by
  unfold tuneBlockComplete
  rw [hb]
  dsimp only
  rw [if_pos hover]
  unfold groupClosed groupEnd
  cases b.apply with
  | false => rfl
  | true => cases b.examples.getLast? <;> rfl

/-- Losses and the count of blocks change registers and what is sent, no more. -/
theorem blockCounted_same (b : TuneBlock) (bs : List TuneBlock) (losses : List Word) (s : State) :
    Same [.win, .link, .ports, .ocl] (blockReleased b bs s) (blockCounted b bs losses s) :=
  bump_same (by decide) (writeLosses_same (by decide) (Same.refl _ _))

theorem blockReleased_tables (hw : s.TablesWf) (b : TuneBlock) (bs : List TuneBlock) : (blockReleased b bs s).TablesWf :=
  (forEach_keeps (fun _ _ => releaseSeq_keeps) (Keeps.refl _)).tables { hw with }

theorem blockCounted_tables (hw : s.TablesWf) (b : TuneBlock) (bs : List TuneBlock) (losses : List Word) :
    (blockCounted b bs losses s).TablesWf :=
  (bump_keeps (writeLosses_keeps (Keeps.refl _))).tables (blockReleased_tables hw b bs)

theorem blockCounted_blocks (b : TuneBlock) (bs : List TuneBlock) (losses : List Word) (s : State) :
    (blockCounted b bs losses s).tune.blocks = bs := by
  have hrelease : (blockReleased b bs s).tune = { s.tune with blocks := bs } :=
    (forEach_same (fun _ _ => releaseSeq_same (by decide)) (Same.refl [.win, .stackMem, .kv] _)).part .tune (by decide)
  rw [(blockCounted_same b bs losses s).part .tune (by decide), hrelease]

/-- Releases write POOL_RESV, whose registers lie above those of the job. -/
theorem reg_blockReleased {o : Nat} (ho : o < 0xa000) (b : TuneBlock) (bs : List TuneBlock) (s : State) :
    reg o (blockReleased b bs s) = reg o s := by
  have hreg : Unserved (reg o) := unserved_reg (fun h => by
    simp only [serviceRegs, List.mem_cons, List.not_mem_nil, or_false] at h
    omega) fun m => by omega
  exact (forEach_fixed (reg o) (fun q t => hreg.releaseSeq q false t) b.seqs _).trans (hreg.congr rfl)

theorem cnt_blockCounted (hw : s.TablesWf) (b : TuneBlock) (bs : List TuneBlock) (losses : List Word) :
    cnt F.TUNE_BLOCK_CNT (blockCounted b bs losses s) = (cnt F.TUNE_BLOCK_CNT s + 1) % 2 ^ 64 := by
  have hlosses : (writeLosses b.examples losses (blockReleased b bs s)).TablesWf :=
    (writeLosses_keeps (Keeps.refl _)).tables (blockReleased_tables hw b bs)
  have hcnt : cnt F.TUNE_BLOCK_CNT (blockReleased b bs s) = cnt F.TUNE_BLOCK_CNT s := by
    unfold cnt
    rw [reg_blockReleased (by decide), reg_blockReleased (by decide)]
  unfold blockCounted
  rw [cnt_bump hlosses.win, (writeLosses_regs _ _ _).cnt (by decide) (by decide), hcnt]

theorem optStep_blockCounted (b : TuneBlock) (bs : List TuneBlock) (losses : List Word) (s : State) :
    rd F.OPT_STEP.VALUE (blockCounted b bs losses s) = rd F.OPT_STEP.VALUE s := by
  have hrelease : rd F.OPT_STEP.VALUE (blockReleased b bs s) = rd F.OPT_STEP.VALUE s :=
    congrArg (fun w : Word => bitsOf w.toNat 0 32) (reg_blockReleased (by decide) b bs s)
  unfold blockCounted
  rw [rd_bump_ne (by decide) (by decide), (writeLosses_regs _ _ _).rd (by decide), hrelease]

/-! ### The end of a group -/

/-- Registers that the end of a group writes, beside OPT_STEP. -/
def groupRegs : List Nat := [O.TUNE_STS, O.TUNE_STATE, F.TUNE_EX_CNT, F.TUNE_EX_CNT + 4] ++ eventRegs

/-- OPT_STEP after one more group. -/
def stepTaken (s : State) : State := wr F.OPT_STEP.VALUE ((rd F.OPT_STEP.VALUE s + 1) % 2 ^ 32) s

theorem closeGroup_regs {ρ : List Nat} {σ : State} (hρ : SubN groupRegs ρ) (last : Nat) (h : Regs ρ σ (stepTaken s)) :
    Regs ρ σ (closeGroup last s) := by
  have hevents : SubN eventRegs ρ := SubN.trans (by decide) hρ
  have hsend {i b n v : Nat} {t : State} (ht : Regs ρ σ t) : Regs ρ σ (writeExample i b n v t) := writeExample_regs hevents i b n v ht
  unfold closeGroup
  extract_lets step mine good s1 s2 keep tune s3
  have h1 : Regs ρ σ s1 := forEach_regs (fun _ _ ht => hsend (hsend ht)) h
  have h2 : Regs ρ σ s2 := forEach_regs (fun _ _ ht => hsend ht) h1
  have h3 : Regs ρ σ s3 := sendWrPart_regs hevents (h2.of_win rfl)
  exact raise_regs hevents (hρ.mem (by decide)) (wr_regs (hρ.mem (by decide)) (bumpBy_regs (hρ.mem (by decide)) (hρ.mem (by decide)) h3))

theorem closeGroup_raises (hw : s.TablesWf) (last : Nat) : rd F.TUNE_STS.GROUP (closeGroup last s) = 1 := by
  unfold closeGroup
  extract_lets step mine good s1 s2 keep tune s3
  have h1 : s1.TablesWf := (forEach_keeps (fun _ _ h => writeExample_keeps (writeExample_keeps h)) (wr_keeps (Keeps.refl s))).tables hw
  have h2 : s2.TablesWf := (forEach_keeps (fun _ _ => writeExample_keeps) (Keeps.refl s1)).tables h1
  have h3 : s3.TablesWf := (writeTuneCons_keeps (Keeps.refl _)).tables { h2 with }
  exact rd_raise (win_wr (win_bumpBy h3.win _ _) _ _) rfl (by decide) (by decide)

theorem optStep_closeGroup (hw : s.TablesWf) (last : Nat) :
    rd F.OPT_STEP.VALUE (closeGroup last s) = (rd F.OPT_STEP.VALUE s + 1) % 2 ^ 32 :=
  calc rd F.OPT_STEP.VALUE (closeGroup last s)
      = rd F.OPT_STEP.VALUE (stepTaken s) := (closeGroup_regs (ρ := groupRegs) (by decide) last (Regs.refl _ _)).rd (by decide)
    _ = (rd F.OPT_STEP.VALUE s + 1) % 2 ^ 32 % 2 ^ 32 := rd_wr_self hw.win (by decide) _
    _ = (rd F.OPT_STEP.VALUE s + 1) % 2 ^ 32 := Nat.mod_mod _ _

theorem closeGroup_blocks (last : Nat) (s : State) : (closeGroup last s).tune.blocks = s.tune.blocks := by
  have hsend (i b n v : Nat) (t : State) : (writeExample i b n v t).tune = t.tune :=
    (writeExample_same (by decide) (Same.refl [.win, .link, .ports, .ocl] t)).part .tune (by decide)
  unfold closeGroup
  extract_lets step mine good s1 s2 keep tune s3
  have h1 : s1.tune = s.tune := forEach_fixed (·.tune) (fun e t => (hsend _ _ _ _ _).trans (hsend _ _ _ _ t)) good _
  have h2 : s2.tune = s1.tune := forEach_fixed (·.tune) (fun e t => hsend _ _ _ _ t) _ s1
  have h3 : s3.tune.blocks = s2.tune.blocks :=
    congrArg (·.blocks) ((sendWrPart_same (by decide) (Same.refl [.win, .link, .ports, .ocl] _)).part .tune (by decide))
  rw [(raise_same_refl _ _).part .tune (by decide), ← h1, ← h2, ← h3]
  rfl

/-! ### After a block -/

theorem afterBlock_regs (s : State) : Regs (O.TUNE_STS :: O.TUNE_STATE :: eventRegs) s (afterBlock s) := by
  unfold afterBlock
  split_ifs
  · exact wr_regs (by decide) (Regs.refl _ s)
  · exact tuneEnd_regs 0 0 s
  · exact Regs.refl _ s
  · exact Regs.refl _ s

theorem afterBlock_group (hw : s.TablesWf) : rd F.TUNE_STS.GROUP (afterBlock s) = rd F.TUNE_STS.GROUP s := by
  unfold afterBlock
  split_ifs
  · exact rd_wr_ne (by decide) 3 s
  · exact rd_tuneEnd hw rfl (by decide) 0 0
  · rfl
  · rfl

theorem groupClosed_open {b : TuneBlock} (h : b.apply = false) (s : State) : groupClosed b s = s := by
  unfold groupClosed groupEnd
  rw [h]
  rfl

theorem groupClosed_ended {b : TuneBlock} (h : b.apply = true) (hne : b.examples ≠ []) (s : State) :
    groupClosed b s = closeGroup (b.examples.getLast hne) s := by
  unfold groupClosed groupEnd
  rw [h, if_pos rfl, List.getLast?_eq_some_getLast hne]
  rfl

/-- The end of a block's group is no change, or that of `closeGroup`. -/
theorem groupClosed_cases (b : TuneBlock) (s : State) : groupClosed b s = s ∨ ∃ l, groupClosed b s = closeGroup l s := by
  unfold groupClosed
  cases groupEnd b with
  | none => exact Or.inl rfl
  | some l => exact Or.inr ⟨l, rfl⟩

section Completed
variable {b : TuneBlock} {bs : List TuneBlock} (hb : s.tune.blocks = b :: bs) (hover : blockOver b s = true) (losses : List Word)
include hb hover

theorem tuneBlockComplete_blocks : (tuneBlockComplete losses s).tune.blocks = bs := by
  rw [tuneBlockComplete_over hb hover,
    (afterBlock_same (by decide) (Same.refl [.win, .link, .ports, .ocl] _)).part .tune (by decide)]
  rcases groupClosed_cases b (blockCounted b bs losses s) with hsame | ⟨l, hclose⟩
  · rw [hsame, blockCounted_blocks]
  · rw [hclose, closeGroup_blocks, blockCounted_blocks]

theorem tuneBlockComplete_counts (hw : s.TablesWf) :
    cnt F.TUNE_BLOCK_CNT (tuneBlockComplete losses s) = (cnt F.TUNE_BLOCK_CNT s + 1) % 2 ^ 64 := by
  rw [tuneBlockComplete_over hb hover, (afterBlock_regs _).cnt (by decide) (by decide), ← cnt_blockCounted hw b bs losses]
  rcases groupClosed_cases b (blockCounted b bs losses s) with hsame | ⟨l, hclose⟩
  · rw [hsame]
  · rw [hclose]
    exact (closeGroup_regs (ρ := O.OPT_STEP :: groupRegs) (by decide) l (wr_regs (by decide) (Regs.refl _ _))).cnt (by decide) (by decide)

theorem tuneBlockComplete_byte (hw : s.TablesWf) {a : Nat} (ha : ∀ q ∈ b.seqs, OffList a q (seqSlot q s).pages s) :
    byteAt (tuneBlockComplete losses s).stackMem a = byteAt s.stackMem a := by
  rw [tuneBlockComplete_over hb hover,
    (afterBlock_same (by decide) (Same.refl [.win, .link, .ports, .ocl] _)).part .stackMem (by decide)]
  have hclosed : (groupClosed b (blockCounted b bs losses s)).stackMem = (blockCounted b bs losses s).stackMem := by
    rcases groupClosed_cases b (blockCounted b bs losses s) with hsame | ⟨l, hclose⟩
    · rw [hsame]
    · rw [hclose]
      exact (closeGroup_same (by decide) (Same.refl [.win, .tune, .link, .ports, .ocl] _)).part .stackMem (by decide)
  rw [hclosed, (blockCounted_same b bs losses s).part .stackMem (by decide)]
  exact forEach_releaseSeq_byte (s := { s with tune := { s.tune with blocks := bs } }) { hw with } ha

theorem tuneBlockComplete_group (hw : s.TablesWf) (happly : b.apply = true) (hne : b.examples ≠ []) :
    rd F.OPT_STEP.VALUE (tuneBlockComplete losses s) = (rd F.OPT_STEP.VALUE s + 1) % 2 ^ 32 ∧
      rd F.TUNE_STS.GROUP (tuneBlockComplete losses s) = 1 := by
  have hcounted := blockCounted_tables hw b bs losses
  have hclosed : (closeGroup (b.examples.getLast hne) (blockCounted b bs losses s)).TablesWf :=
    (closeGroup_keeps (Keeps.refl _)).tables hcounted
  rw [tuneBlockComplete_over hb hover, groupClosed_ended happly hne]
  constructor
  · rw [(afterBlock_regs _).rd (by decide), optStep_closeGroup hcounted, optStep_blockCounted]
  · rw [afterBlock_group hclosed, closeGroup_raises hcounted]

theorem tuneBlockComplete_noGroup (happly : b.apply = false) :
    rd F.OPT_STEP.VALUE (tuneBlockComplete losses s) = rd F.OPT_STEP.VALUE s := by
  rw [tuneBlockComplete_over hb hover, groupClosed_open happly, (afterBlock_regs _).rd (by decide), optStep_blockCounted]

end Completed

/-- Settles O37: each command of the job is one change of its state or a refusal (DISCARD is taken in the states that log entry 36 names), and
of a block that is over the releases, the results and the end of its group each write registers of their own. -/
theorem tuneJobFollowsItsCommands : Obligations.TuneJobFollowsItsCommands := by
  unfold Obligations.TuneJobFollowsItsCommands
  intro s hw
  have hrun : Same [.win, .link, .ports, .ocl] s (tuneRun s) := tuneRun_same (by decide) (Same.refl _ s)
  have hpause : Same [.win, .link, .ports, .ocl] s (tunePause s) := tunePause_same (by decide) (Same.refl _ s)
  have habort : Same [.win, .tune, .link, .ports, .ocl] s (tuneAbort s) := tuneAbort_same (by decide) (Same.refl _ s)
  have hdiscard : Same [.win, .tune, .link, .ports, .ocl] s (tuneDiscard s) := tuneDiscard_same (by decide) (Same.refl _ s)
  have hrefused := tuneRefuse_refused hw
  have hstays := tuneSt_tuneRefuse s
  obtain ⟨hblocks, hstate⟩ := tuneDiscard_keepsJob s
  refine ⟨⟨_, rfl, hrun.part .tune (by decide), hrun.part .cellMem (by decide), hrun.part .stackMem (by decide), fun hok => ?_, fun hno => ?_⟩,
    ⟨_, rfl, hpause.part .tune (by decide), hpause.part .cellMem (by decide), hpause.part .stackMem (by decide),
      tuneSt_tunePause hw, fun hno => ?_⟩,
    ⟨_, rfl, tuneAbort_blocks s, habort.part .cellMem (by decide), habort.part .stackMem (by decide), fun h1 h3 => ?_, fun hno => ?_⟩,
    ⟨_, rfl, hblocks, hstate, hdiscard.part .cellMem (by decide), hdiscard.part .stackMem (by decide), fun h1 h3 => ?_, fun hno => ?_⟩,
    fun b bs losses hb hover => ⟨_, rfl, tuneBlockComplete_blocks hb hover losses, tuneBlockComplete_counts hb hover losses hw,
      (tuneBlockComplete_same (by decide) (Same.refl [.win, .stackMem, .kv, .tune, .link, .ports, .ocl] s)).part .cellMem (by decide),
      fun a ha => tuneBlockComplete_byte hb hover losses hw ha, tuneBlockComplete_group hb hover losses hw,
      tuneBlockComplete_noGroup hb hover losses⟩⟩
  · exact ⟨tuneSt_tuneRun hw hok, (tuneRun_regs hok).reg, tuneRun_watches hw hok⟩
  · rw [tuneRun_refused hno]
    exact ⟨hrefused, hstays⟩
  · rw [tunePause_refused hno]
    exact ⟨hrefused, hstays⟩
  · rw [tuneAbort_tune h1 h3]
    exact ⟨rfl, tuneAbort_marks hw h1 h3, tuneSt_tuneAbort hw h1 h3⟩
  · rw [tuneAbort_refused hno]
    exact ⟨hrefused, hstays, tuneRefuse_tune s⟩
  · rw [tuneDiscard_open h1 h3, discardGroup_tune]
    exact ⟨rfl, discardGroup_marks hw⟩
  · rw [tuneDiscard_refused hno]
    exact ⟨hrefused, tuneRefuse_tune s⟩

end Sys2Proof.Machine
end

section
/-!
SUPPORT. CPL_TIMEOUT of a restart's read (R290, R357, R361): the read has failed twice, and with it step 4 of a restart of a model number past
the sixteen, whose `MODEL_SCHED` lies at the offset of `OCL_CPL_ERR_CNT`.
-/
namespace Sys2Proof.Machine
open Sys2Proof

/-- A number that no model slot has: its `MODEL_SCHED` has the offset of `OCL_CPL_ERR_CNT`, whose bits [13:12] its STATE shows. -/
def errorCountModel : Nat := 7144

/-- A restart of that number, in ABSORB: one stack slice is to be read again, and its slice map is being read. -/
def errorCountJob : ResetJob :=
  ⟨[], [], [errorCountModel], 1, 0, [], [(errorCountModel, 0)], [], [⟨errorCountModel, none, [], [0], [], [], [], false, false⟩]⟩

/-- The read of that slice map, retried once. -/
def errorCountRead : HostRead := ⟨0, 0, 0, false, true, .fetch (.rewrite errorCountModel 0)⟩

/-- OCL is ACTIVE, 0x1FFF reads have failed, and the read is outstanding. -/
def errorCountState : State :=
  { State.reset with
    win := [(0xa004, 4), (0xa060, 0x1fff)]
    ocl := { Ocl.reset with reads := [errorCountRead], fetches := [⟨.rewrite errorCountModel 0, 0, 64, []⟩] }
    faults := { Faults.reset with job := some errorCountJob } }

theorem errorCountState_tables : errorCountState.TablesWf := by constructor <;> decide +kernel

theorem errorCountState_ready : linkSt 0 errorCountState = 4 ∧ readWith 0 errorCountState = some errorCountRead ∧
    cnt F.OCL_CPL_ERR_CNT errorCountState = 0x1fff := by decide +kernel

/-- The failure is counted, 0x2000, then the failed model shows STATE 3 in bits [13:12] of the count. -/
theorem errorCountState_timedOut : cnt F.OCL_CPL_ERR_CNT (cplTimeout 0 errorCountState) = 0x3000 := by decide +kernel

/-- Refutes O40: nothing bounds the model slots that a restart names. The second CPL_TIMEOUT of a restart's read of a slice map is counted,
the model takes FAILED, and of a number past the sixteen that changes `OCL_CPL_ERR_CNT`, which no longer shows one more. -/
theorem not_companionMessagesAct : ¬ Obligations.CompanionMessagesAct := by
  unfold Obligations.CompanionMessagesAct
  intro h
  obtain ⟨hactive, hread, hcount⟩ := errorCountState_ready
  obtain ⟨-, -, -, -, -, -, htimeout, -⟩ := h errorCountState errorCountState_tables hactive
  obtain ⟨t, hexec, -, hcounted, -⟩ := htimeout 0 errorCountRead rfl hread
  obtain rfl : cplTimeout 0 errorCountState = t := Host.Outcome.next.inj hexec
  rw [errorCountState_timedOut, hcount] at hcounted
  exact absurd hcounted (by decide)

end Sys2Proof.Machine
end

section
/-!
SUPPORT. Messages put on links (R281, R285 to R288, R298 to R301, R311, R313) and links that change their state (R277, R314): what stands over
all of it. A property of the state is judged once by the updates that this work is made of.
-/
namespace Sys2Proof.Machine
open Sys2Proof

variable {s t σ : State} {i j : Nat}

/-! ### The flit layers of the links -/

theorem linkOf_setLink_self (i : Nat) (l : LinkState) (s : State) : linkOf i (setLink i l s) = l := by
  match i with
  | 0 | 1 | 2 | 3 | _ + 4 => rfl

theorem linkOf_modLink_self (i : Nat) (f : LinkState → LinkState) (s : State) : linkOf i (modLink i f s) = f (linkOf i s) :=
  linkOf_setLink_self i _ s

/-- Storing a flit layer reaches the link that is read, or leaves it alone. -/
theorem linkOf_setLink (i j : Nat) (l : LinkState) (s : State) :
    linkOf i (setLink j l s) = l ∧ linkOf i s = linkOf j s ∨ linkOf i (setLink j l s) = linkOf i s := by
  unfold linkOf setLink
  split <;> split <;> simp

theorem linkOf_congr (h0 : t.link = s.link) (h : t.pair.port0 = s.pair.port0 ∧ t.pair.port1 = s.pair.port1 ∧
    t.pair.port2 = s.pair.port2 ∧ t.pair.port3 = s.pair.port3) (i : Nat) : linkOf i t = linkOf i s := by
  obtain ⟨h1, h2, h3, h4⟩ := h
  unfold linkOf
  split
  · exact h0
  · exact h1
  · exact h2
  · exact h3
  · exact h4

theorem linkOf_of_same {l : List Part} (h : Same l s t) (hlink : Part.link ∉ l) (hports : Part.ports ∉ l) (i : Nat) :
    linkOf i t = linkOf i s := linkOf_congr (h.part .link hlink) (h.part .ports hports) i

/-- A flit layer but for what sending on its link changes: credits, what waits, the replay buffer, the sending lanes and what they carry. -/
def LinkState.still (l : LinkState) : LinkState :=
  { l with creditReq := 0, creditPost := 0, waiting := [], txSeq := 0, replay := [], unacked := 0, line := none, txLanes := [],
           ctl := none }

/-! ### Properties that sending leaves alone -/

/-- Registers that sending, the event path and the states of ports write: `OCL_STS`, the counts of dropped events, `PIN_STS`, `PAIR_STS` and
`PAIR_STATE`. -/
def sideRegs : List Nat := [0xa000, 0xa070, 0xa074, 0x100, 0x130, 0x134, 0x1400000, 0x1400008]

/-- Status bits that they set. -/
def sideBits : List Fld := [F.OCL_STS.EVT_OVF, F.OCL_STS.REKEY, F.PAIR_STS.DEGRADED, F.PIN_STS.EVT_DROP]

/-- What holds of the state stands over every message that is put on a link, over the event path, and over the showing of the ports'
states. -/
structure Undisturbed (P : State → Prop) : Prop where
  link : ∀ {i : Nat} {l : LinkState} {s : State}, l.still = (linkOf i s).still → P s → P (setLink i l s)
  ocl : ∀ {o : Ocl} {s : State}, o.inbox = s.ocl.inbox → P s → P { s with ocl := o }
  bit : ∀ {f : Fld} {s : State}, f ∈ sideBits → P s → P (wr f 1 s)
  count : ∀ {o n : Nat} {s : State}, o ∈ [F.EVT_DROP_CNT, F.PLDM_DROP_CNT] → P s → P (setCnt o n s)
  ports : ∀ {v : Nat} {s : State}, P s → P (wr F.PAIR_STATE.PORTS v s)
  mgmt : ∀ {m : Mgmt} {s : State}, P s → P { s with mgmt := m }
  sent : ∀ {x : List (Nat × Nat × SpanMsg)} {n : Nat} {s : State}, P s →
    P { s with pair := { s.pair with outstanding := x }, free := n }

/-- No register but those of `sideRegs` is written. -/
theorem undisturbed_regs {ρ : List Nat} (hρ : SubN sideRegs ρ) (σ : State) : Undisturbed (Regs ρ σ) where
  link _ h := setLink_regs h
  ocl _ h := h.of_win rfl
  bit hf h := wr_regs (hρ.mem ((by decide : ∀ f ∈ sideBits, f.off ∈ sideRegs) _ hf)) h
  count ho h :=
    have hoff := (by decide : ∀ o ∈ [F.EVT_DROP_CNT, F.PLDM_DROP_CNT], o ∈ sideRegs ∧ o + 4 ∈ sideRegs) _ ho
    setCnt_regs (hρ.mem hoff.1) (hρ.mem hoff.2) h
  ports h := wr_regs (hρ.mem (by decide)) h
  mgmt h := h.of_win rfl
  sent h := h.of_win rfl

/-- Of a link, what is read of its flit layer beside what sending changes. -/
theorem undisturbed_link {β : Type} {g : LinkState → β} (hg : ∀ l : LinkState, g l.still = g l) (i : Nat) (c : β) :
    Undisturbed (fun t => g (linkOf i t) = c) where
  link {j l s} hl h := by
    obtain ⟨hself, hsame⟩ | hother := linkOf_setLink i j l s
    · rw [hself, ← hg l, hl, hg, ← hsame, h]
    · rw [hother, h]
  ocl _ h := h
  bit _ h := h
  count _ h := h
  ports h := h
  mgmt h := h
  sent h := h

/-- Setting a one-bit field clears none. -/
theorem rd_wr_one_of_set (hw : Table.wf resetWord s.win = true) {f g : Fld} (hf : f.w = 1) (hg : g.w = 1) (hlo : g.lo < 32)
    (h : rd f s = 1) : rd f (wr g 1 s) = 1 := by
  by_cases hoff : f.off = g.off
  · by_cases hbit : f.lo = g.lo
    · have hfg : f = g := by
        cases f
        cases g
        simp_all
      rw [hfg, rd_wr_self hw (by omega), hg]
      rfl
    · rw [rd_wr_field hw hoff (by omega) (by omega), h]
  · rw [rd_wr_ne hoff, h]

/-- A status bit that is set stands; it is none of `PAIR_STATE` or of the counts. -/
theorem undisturbed_set {f : Fld} (hf : f.w = 1) (hoff : f.off ∉ [0xa070, 0xa074, 0x130, 0x134, 0x1400008]) :
    Undisturbed (fun t => Table.wf resetWord t.win = true ∧ rd f t = 1) where
  link {i l s} _ h := by
    have hwin : (setLink i l s).win = s.win := by
      unfold setLink
      split <;> rfl
    exact ⟨hwin ▸ h.1, (rd_congr hwin f).trans h.2⟩
  ocl _ h := h
  bit hg h := ⟨win_wr h.1 _ _, by
    obtain ⟨hw, hlo⟩ := (by decide : ∀ g ∈ sideBits, g.w = 1 ∧ g.lo < 32) _ hg
    exact rd_wr_one_of_set h.1 hf hw hlo h.2⟩
  count {o n s} ho h := ⟨win_setCnt h.1 _ _, by
    have hne : f.off ≠ o ∧ f.off ≠ o + 4 := by
      simp only [List.mem_cons, List.not_mem_nil, or_false, F.EVT_DROP_CNT, F.PLDM_DROP_CNT] at ho hoff
      omega
    unfold rd
    rw [reg_setCnt_ne hne.1 hne.2]
    exact h.2⟩
  ports h := ⟨win_wr h.1 _ _, (rd_wr_ne (fun he => hoff (by rw [he]; decide)) _ _).trans h.2⟩
  mgmt h := h
  sent h := h

/-- What OCL has received and not yet performed. -/
theorem undisturbed_inbox (c : List Msg) : Undisturbed (fun t => t.ocl.inbox = c) where
  link {i l s} _ h := by rw [setLink_ocl, h]
  ocl ho h := ho.trans h
  bit _ h := h
  count _ h := h
  ports h := h
  mgmt h := h
  sent h := h

/-- What the span ports have received and not yet performed. -/
theorem undisturbed_pairInbox (c : List SpanMsg) : Undisturbed (fun t => t.pair.inbox = c) where
  link {i l s} _ h := by
    unfold setLink
    split <;> exact h
  ocl _ h := h
  bit _ h := h
  count _ h := h
  ports h := h
  mgmt h := h
  sent h := h

namespace Undisturbed

variable {P : State → Prop} (hP : Undisturbed P)
include hP

theorem modLink {f : LinkState → LinkState} (hf : (f (linkOf i s)).still = (linkOf i s).still) (h : P s) : P (modLink i f s) :=
  hP.link hf h

/-! ### Flits and control flits -/

theorem emit {raw : BitVec 2048} (h : P s) : P (emit i raw s) := hP.modLink rfl h

theorem sendCtl {type : Nat} (h : P s) : P (sendCtl i type s) := hP.emit (hP.modLink rfl h)

theorem pushFlits {n : Nat} {slots : List TxSlot} (h : P s) : P (pushFlits n i slots s) := by
  induction n generalizing slots s with
  | zero => exact h
  | succ n ih =>
    unfold Machine.pushFlits
    split
    · exact h
    · exact ih (hP.emit (hP.link rfl h))

/-! ### The event path -/

theorem dropEvent (h : P s) : P (dropEvent s) := hP.bit (by decide) (hP.count (by decide) h)

theorem queueEvent {off bits : Nat} (h : P s) : P (queueEvent off bits s) := by
  unfold Machine.queueEvent
  dsimp only
  split_ifs
  · exact hP.ocl rfl h
  · exact hP.ocl rfl h
  · exact hP.dropEvent h

theorem raiseQuiet {f : Fld} (h : P (wr f 1 s)) : P (raiseQuiet f s) := by
  unfold Machine.raiseQuiet
  dsimp only
  split_ifs
  · exact h
  · exact hP.queueEvent h
  · exact h

/-! ### Messages -/

theorem setTxKey {k : KeySlot} (h : P s) : P (setTxKey k s) := by
  unfold Machine.setTxKey
  split <;> exact hP.ocl rfl h

theorem sealMsg {m : OutMsg} (h : P s) : P (sealMsg m s).2 := by
  unfold Machine.sealMsg
  dsimp only
  split_ifs
  · exact hP.raiseQuiet (hP.bit (by decide) (hP.setTxKey h))
  · exact hP.setTxKey h
  · exact h

theorem takeCredits {m : OutMsg} (h : P s) : P (takeCredits i m s) := by
  refine hP.modLink ?_ h
  split <;> rfl

theorem stampIntr {m : OutMsg} (h : P s) : P (stampIntr i m s) := by
  unfold Machine.stampIntr
  split
  · exact hP.ocl rfl h
  · exact h

theorem pumpList {ms blocked : List OutMsg} {out : List TxSlot} (h : P s) : P (pumpList i ms blocked out s).2 := by
  induction ms generalizing blocked out s with
  | nil => exact h
  | cons m ms ih =>
    unfold Machine.pumpList
    split
    · exact ih (hP.sealMsg (hP.stampIntr (hP.takeCredits h)))
    · exact ih h

theorem pump (h : P s) : P (pump i s) := hP.pushFlits (hP.modLink rfl (hP.pumpList h))

theorem sendOut {m : OutMsg} (h : P s) : P (sendOut i m s) := hP.pump (hP.modLink rfl h)

theorem oweIntr {v : Nat} {owed : Bool} (h : P s) : P (oweIntr v owed s) := by
  unfold Machine.oweIntr
  split
  · exact hP.ocl rfl h
  · unfold when
    split
    · exact hP.ocl rfl h
    · exact h

theorem interrupt {v : Nat} (h : P s) : P (interrupt v s) := by
  unfold Machine.interrupt
  dsimp only
  split
  · exact hP.sendOut (hP.oweIntr h)
  · exact hP.oweIntr h

theorem writeEvents {es : List EvRec} {w : Bool} (h : P s) : P (writeEvents es w s).2 := by
  induction es generalizing w s with
  | nil => exact h
  | cons e es ih =>
    unfold Machine.writeEvents
    split
    · exact ih (hP.dropEvent h)
    · exact ih (hP.sendOut (hP.ocl rfl h))

theorem flushEvents (h : P s) : P (flushEvents s) := by
  unfold Machine.flushEvents
  split
  · exact h
  · split
    · exact hP.ocl rfl h
    · split
      · have hwritten : P (Machine.writeEvents s.ocl.evQueue false { s with ocl := { s.ocl with evQueue := [] } }).2 :=
          hP.writeEvents (hP.ocl rfl h)
        dsimp only
        split
        · unfold when
          split
          · exact hP.interrupt (hP.sendOut hwritten)
          · exact hP.sendOut hwritten
        · exact hwritten
      · exact h

theorem raise {f : Fld} (h : P (wr f 1 s)) : P (raise f s) := hP.flushEvents (hP.raiseQuiet h)

theorem pldm {code detail : Nat} (h : P s) : P (pldm code detail s) := by
  unfold Machine.pldm
  dsimp only
  split_ifs
  · exact hP.mgmt h
  · exact hP.mgmt h
  · exact hP.raise (hP.bit (by decide) (hP.count (by decide) h))

/-! ### Span messages -/

theorem putSpan {m : SpanMsg} {st : Nat} (h : P s) : P (putSpan m st s) := by
  unfold Machine.putSpan
  split
  · split
    · exact h
    · exact hP.sent h
  · dsimp only
    refine hP.sendOut ?_
    split
    · exact hP.sent (s := s) (x := s.pair.outstanding) (n := s.free + 1) h
    · exact hP.sent (s := s) (n := s.free + 1) h

/-! ### States of links -/

theorem setLinkSt {n : Nat} (h : P (wr (linkStateFld i) n s)) : P (setLinkSt i n s) := by
  unfold Machine.setLinkSt
  dsimp only
  split
  · exact h
  · unfold showPorts when
    dsimp only
    split
    · exact hP.raise (hP.bit (by decide) (hP.ports h))
    · exact hP.ports h

end Undisturbed

end Sys2Proof.Machine
end

section
/-!
SUPPORT. What a link shows when it takes a state (R277), goes DOWN (R284) or retrains (R283), and when its traffic flows again.
-/
namespace Sys2Proof.Machine
open Sys2Proof

variable {s t σ : State} {i j : Nat}

/-! ### Status bits -/

/-- A bit of the window is set. -/
def BitSet (f : Fld) (t : State) : Prop := Table.wf resetWord t.win = true ∧ rd f t = 1

/-- A one-bit field that is none of `PAIR_STATE` or of the counts. -/
abbrev Fld.IsStatus (f : Fld) : Prop := f.w = 1 ∧ f.lo < 32 ∧ f.off ∉ [0xa070, 0xa074, 0x130, 0x134, 0x1400008]

theorem wr_bitSet {f : Fld} (hf : f.IsStatus) (hw : Table.wf resetWord s.win = true) : BitSet f (wr f 1 s) := by
  obtain ⟨hone, hlo, -⟩ := hf
  refine ⟨win_wr hw _ _, ?_⟩
  rw [rd_wr_self hw (by omega), hone]
  rfl

theorem Fld.IsStatus.undisturbed {f : Fld} (hf : f.IsStatus) : Undisturbed (BitSet f) :=
  undisturbed_set hf.1 hf.2.2

/-- A status bit is set after it was raised, though its own record or another goes out. -/
theorem raise_bitSet {f : Fld} (hf : f.IsStatus) (hw : Table.wf resetWord s.win = true) : BitSet f (raise f s) :=
  hf.undisturbed.raise (wr_bitSet hf hw)

theorem BitSet.of_win {f : Fld} (h : BitSet f s) (hw : t.win = s.win) : BitSet f t := ⟨hw ▸ h.1, (rd_congr hw f).trans h.2⟩

/-! ### Where a link's registers lie -/

theorem linkBits_status : ∀ i ≤ 4, (degradedFld i).IsStatus ∧ (retrainFld i).IsStatus ∧ (downFld i).IsStatus := by decide

theorem linkStateFld_side : ∀ i ≤ 4, (linkStateFld i).off ∉ (retrainFld i).off :: sideRegs := by decide

theorem linkStateFld_fits : ∀ i ≤ 4, (linkStateFld i).lo + (linkStateFld i).w ≤ 32 ∧ (linkStateFld i).w = 3 := by decide

/-! ### Flit layers -/

theorem setLink_win (i : Nat) (l : LinkState) (s : State) : (setLink i l s).win = s.win := by
  unfold setLink
  split <;> rfl

theorem modLink_win (i : Nat) (f : LinkState → LinkState) (s : State) : (modLink i f s).win = s.win := setLink_win i _ s

/-- What a change of a flit layer does not change is read as before, of every link. -/
theorem linkOf_modLink_read {β : Type} {g : LinkState → β} {f : LinkState → LinkState} (hg : ∀ l, g (f l) = g l) (i j : Nat) (s : State) :
    g (linkOf j (modLink i f s)) = g (linkOf j s) := by
  obtain ⟨hself, hsame⟩ | hother := linkOf_setLink j i (f (linkOf i s)) s
  · exact (congrArg g hself).trans ((hg _).trans (congrArg g hsame.symm))
  · exact congrArg g hother

theorem forEach_preserves {α : Type} {P : State → Prop} {f : α → State → State} (hf : ∀ x t, P t → P (f x t)) (l : List α) (h : P s) :
    P (forEach l f s) := by
  induction l generalizing s with
  | nil => exact h
  | cons x l ih => exact ih (hf x s h)

/-! ### A link takes a state -/

theorem setLinkSt_regs (i n : Nat) (s : State) : Regs ((linkStateFld i).off :: sideRegs) s (setLinkSt i n s) :=
  (undisturbed_regs (by simp [SubN, sideRegs]) s).setLinkSt (wr_regs (by simp) (Regs.refl _ s))

theorem linkSt_setLinkSt (hw : Table.wf resetWord s.win = true) (hi : i ≤ 4) {n : Nat} (hn : n < 8) : linkSt i (setLinkSt i n s) = n := by
  obtain ⟨hfit, hwidth⟩ := linkStateFld_fits i hi
  have hshown : Regs sideRegs (wr (linkStateFld i) n s) (setLinkSt i n s) := (undisturbed_regs (by decide) _).setLinkSt (Regs.refl _ _)
  unfold linkSt
  rw [hshown.rd fun h => linkStateFld_side i hi (List.mem_cons_of_mem _ h), rd_wr_self hw hfit, hwidth]
  exact Nat.mod_eq_of_lt hn

theorem linkOf_setLinkSt {β : Type} {g : LinkState → β} (hg : ∀ l : LinkState, g l.still = g l) (i j n : Nat) (s : State) :
    g (linkOf j (setLinkSt i n s)) = g (linkOf j s) := (undisturbed_link hg j _).setLinkSt rfl

/-! ### DOWN (R284) -/

/-- The flit layer of a link that goes DOWN at an instant. -/
def wentDown (i at_ : Nat) (s : State) : State :=
  modLink i (fun l => { l with downAt := at_, retrainFails := 0, retrains := [], ackTimeouts := 0, nakked := false }) s

/-- The flit layer of a span port whose messages another port takes. -/
def emptied (k : Nat) (s : State) : State :=
  modLink (k + 1) (fun l => { l with waiting := [], replay := [], partSlots := [], txSeq := 0, rxSeq := 0, gotAny := false }) s

theorem emptied_downAt (k i : Nat) (s : State) : (linkOf i (emptied k s)).downAt = (linkOf i s).downAt := by
  refine linkOf_modLink_read (g := LinkState.downAt) ?_ (k + 1) i s
  intro l
  rfl

/-- The BMC is told that OCL is DOWN; a span port's messages move to another. -/
def downTold (i : Nat) (s : State) : State := if i = 0 then pldm 0x24 0 s else moveSpan (i - 1) s

theorem goDown_eq (i at_ : Nat) (s : State) :
    goDown i at_ s = downTold i (raise (downFld i) (setLinkSt i 6 (wentDown i at_ s))) := rfl

theorem Undisturbed.moveSpan {P : State → Prop} (hP : Undisturbed P) {k : Nat} (hempty : ∀ u, P u → P (emptied k u)) (h : P s) :
    P (moveSpan k s) := by
  unfold Machine.moveSpan
  extract_lets prim mine plain s1 pair s2 s3
  have h2 : P s2 := hP.sent (n := s1.free) (hempty s h)
  have h3 : P s3 := forEach_preserves (P := P) (fun _ _ => hP.putSpan) mine h2
  exact forEach_preserves (P := P) (fun _ _ => hP.putSpan) plain h3

theorem Undisturbed.downTold {P : State → Prop} (hP : Undisturbed P) (hempty : ∀ k u, P u → P (emptied k u)) (h : P s) :
    P (downTold i s) := by
  unfold Machine.downTold
  split
  · exact hP.pldm h
  · exact hP.moveSpan (hempty _) h

/-- A link that has gone DOWN shows it, with its bit, and keeps the instant. -/
theorem goDown_shows (hw : s.TablesWf) (hi : i ≤ 4) (at_ : Nat) :
    linkSt i (goDown i at_ s) = 6 ∧ rd (downFld i) (goDown i at_ s) = 1 ∧ (linkOf i (goDown i at_ s)).downAt = at_ := by
  have hwent : (wentDown i at_ s).TablesWf := (modLink_keeps (Keeps.refl s)).tables hw
  have hset : (setLinkSt i 6 (wentDown i at_ s)).TablesWf := (setLinkSt_keeps (Keeps.refl _)).tables hwent
  obtain ⟨-, -, hstatus⟩ := linkBits_status i hi
  have hregs : Regs ((retrainFld i).off :: sideRegs) (setLinkSt i 6 (wentDown i at_ s)) (goDown i at_ s) := by
    have hoff : (downFld i).off = (retrainFld i).off := by
      unfold downFld retrainFld
      split <;> rfl
    have hside := undisturbed_regs (ρ := (retrainFld i).off :: sideRegs) (by simp [SubN, sideRegs]) (setLinkSt i 6 (wentDown i at_ s))
    exact hside.downTold (fun _ _ => modLink_regs) (hside.raise (wr_regs (by simp [hoff]) (Regs.refl _ _)))
  refine ⟨?_, ?_, ?_⟩
  · exact (hregs.rd (linkStateFld_side i hi)).trans (linkSt_setLinkSt hwent.win hi (by decide))
  · exact (hstatus.undisturbed.downTold (fun _ _ h => h.of_win (modLink_win _ _ _)) (raise_bitSet hstatus hset.win)).2
  · have hlink := undisturbed_link (g := LinkState.downAt) (fun _ => rfl) i at_
    refine hlink.downTold (fun k u h => (emptied_downAt k i u).trans h) (hlink.raise ?_)
    exact hlink.setLinkSt (congrArg LinkState.downAt (linkOf_modLink_self i _ s))

/-! ### RETRAIN (R283) -/

/-- The flit layer of a link that begins a retrain at an instant. -/
def retrainNoted (i at_ : Nat) (s : State) : State :=
  modLink i (fun l => { l with
    retrains := (l.retrains.filter fun x => decide (at_ < x + 1000000 * cyPerUs)) ++ [at_], replayedN := 0, ackTimeouts := 0
    replay := l.replay.map fun f => { f with replays := 0 } }) s

theorem enterRetrain_eq (i at_ : Nat) (s : State) :
    enterRetrain i at_ s = raise (retrainFld i) (bump (retrainCnt i) (setLinkSt i 5 (sendCtl i 3 (retrainNoted i at_ s)))) := rfl

/-- Registers that a retrain of a link writes. -/
def retrainRegs (i : Nat) : List Nat := [(linkStateFld i).off, retrainCnt i, retrainCnt i + 4, (retrainFld i).off] ++ sideRegs

theorem retrainCnt_off : ∀ i ≤ 4, ∀ o ∈ [retrainCnt i, retrainCnt i + 4],
    o ∉ (retrainFld i).off :: sideRegs ∧ o ∉ (linkStateFld i).off :: sideRegs ∧ (linkStateFld i).off ≠ o := by decide

theorem sendCtl_win (i type : Nat) (s : State) : (sendCtl i type s).win = s.win := by
  unfold sendCtl emit
  rw [modLink_win, modLink_win]

theorem enterRetrain_regs (i at_ : Nat) (s : State) : Regs (retrainRegs i) s (enterRetrain i at_ s) := by
  have hside := undisturbed_regs (ρ := retrainRegs i) (by simp [SubN, retrainRegs, sideRegs]) s
  refine hside.raise (wr_regs (by simp [retrainRegs]) (bump_regs (by simp [retrainRegs]) (by simp [retrainRegs]) ?_))
  exact hside.setLinkSt (wr_regs (by simp [retrainRegs]) (sendCtl_regs (by simp [SubN]) (modLink_regs (Regs.refl _ s))))

/-- A link that retrains shows it, with its bit, and the retrain is counted. -/
theorem enterRetrain_shows (hw : s.TablesWf) (hi : i ≤ 4) (at_ : Nat) :
    linkSt i (enterRetrain i at_ s) = 5 ∧ rd (retrainFld i) (enterRetrain i at_ s) = 1 ∧
      cnt (retrainCnt i) (enterRetrain i at_ s) = (cnt (retrainCnt i) s + 1) % 2 ^ 64 := by
  have hsent : (sendCtl i 3 (retrainNoted i at_ s)).TablesWf := (sendCtl_keeps (modLink_keeps (Keeps.refl s))).tables hw
  have hset : (setLinkSt i 5 (sendCtl i 3 (retrainNoted i at_ s))).TablesWf := (setLinkSt_keeps (Keeps.refl _)).tables hsent
  obtain ⟨-, hstatus, -⟩ := linkBits_status i hi
  obtain ⟨hlow, hlow', hstate⟩ := retrainCnt_off i hi (retrainCnt i) (by simp)
  obtain ⟨hhigh, hhigh', hstate'⟩ := retrainCnt_off i hi (retrainCnt i + 4) (by simp)
  have hraise : Regs ((retrainFld i).off :: sideRegs) (bump (retrainCnt i) (setLinkSt i 5 (sendCtl i 3 (retrainNoted i at_ s))))
      (enterRetrain i at_ s) := (undisturbed_regs (by simp [SubN, sideRegs]) _).raise (wr_regs (by simp) (Regs.refl _ _))
  refine ⟨?_, ?_, ?_⟩
  · exact (hraise.rd (linkStateFld_side i hi)).trans ((rd_bump_ne hstate hstate' _).trans (linkSt_setLinkSt hsent.win hi (by decide)))
  · exact (raise_bitSet hstatus (win_bump hset.win _)).2
  · have hwin : (sendCtl i 3 (retrainNoted i at_ s)).win = s.win := (sendCtl_win _ _ _).trans (modLink_win _ _ s)
    rw [hraise.cnt hlow hhigh, cnt_bump hset.win, (setLinkSt_regs i 5 _).cnt hlow' hhigh', cnt_congr hwin]

theorem linkOf_enterRetrain {β : Type} {g : LinkState → β} (hg : ∀ l : LinkState, g l.still = g l) (i j at_ : Nat)
    (s : State) : g (linkOf j (enterRetrain i at_ s)) = g (linkOf j (retrainNoted i at_ s)) :=
  have hlink := undisturbed_link hg j (g (linkOf j (retrainNoted i at_ s)))
  hlink.raise ((congrArg g (linkOf_congr rfl ⟨rfl, rfl, rfl, rfl⟩ j)).trans (hlink.setLinkSt (hlink.sendCtl rfl)))

/-! ### Traffic flows again -/

theorem linkStateFld_unserved (hi : i ≤ 4) : Unserved (reg (linkStateFld i).off) := by
  obtain ⟨hservice, hplace⟩ := (by decide : ∀ i ≤ 4, (linkStateFld i).off ∉ 0xb000 :: serviceRegs ∧ (linkStateFld i).off % 64 = 4) i hi
  exact unserved_reg hservice fun m => by omega

/-- What waits to be sent when a link comes up shows in no link's state. -/
theorem linkSt_resume (hi : i ≤ 4) (j : Nat) (s : State) : linkSt i (resume j s) = linkSt i s := by
  have hmirror := (by decide : ∀ i ≤ 4, (linkStateFld i).off ∉ mirrorRegs) i hi
  unfold resume
  split
  · calc linkSt i (flushEvents (flushRings (pump 0 s)))
        = linkSt i (flushRings (pump 0 s)) :=
          (linkStateFld_unserved hi).rd.events (flushEvents_regs (by decide) (Regs.refl _ _))
      _ = linkSt i (pump 0 s) := (linkStateFld_unserved hi).rd.flushRings _
      _ = linkSt i s := (linkStateFld_unserved hi).rd.events (pump_regs (by decide) (Regs.refl _ s))
  · exact (flushMirror_regs (pump_regs mirrorRegs_events (Regs.refl _ s))).rd hmirror

end Sys2Proof.Machine
end

section
/-!
SUPPORT. Training and its ends (R276, R277, R283, R284, R307, R309).
-/
namespace Sys2Proof.Machine
open Sys2Proof

variable {s t : State} {i at_ : Nat}

theorem linkOk_le (hi : i ≤ 4) : linkOk i = true := decide_eq_true hi

/-! ### Presence and equalisation -/

theorem presenceDetect_few {lanes : Nat} (h : lanes < 8) : presenceDetect i lanes s = s := if_neg fun hc => by omega

theorem presenceDetect_enough (hi : i ≤ 4) {lanes : Nat} (hst : linkSt i s = 0) (h : 8 ≤ lanes) (hreset : s.mgmt.inReset = false)
    (hoff : s.power.off = false) : presenceDetect i lanes s = setLinkSt i 1 s :=
  if_pos ⟨linkOk_le hi, hst, h, by rw [hreset]; rfl, by rw [hoff]; rfl⟩

theorem equalisationEnd_shows (hw : s.TablesWf) (hi : i ≤ 4) (failed : Nat) (hst : linkSt i s = 1) :
    linkSt i (equalisationEnd i failed s) = 2 ∧ (linkOf i (equalisationEnd i failed s)).laneFail = failed := by
  have htaken : equalisationEnd i failed s = setLinkSt i 2 (modLink i (fun l => { l with laneFail := failed }) s) :=
    if_pos ⟨linkOk_le hi, hst⟩
  rw [htaken]
  refine ⟨linkSt_setLinkSt ((modLink_keeps (Keeps.refl s)).tables hw).win hi (by decide), ?_⟩
  exact (linkOf_setLinkSt (g := LinkState.laneFail) (fun _ => rfl) i i 2 _).trans (congrArg _ (linkOf_modLink_self i _ s))

/-! ### The width (R276) -/

theorem cleanRun_lt {failed n k p : Nat} (h : cleanRun failed n k = some p) : p < k :=
  List.mem_range.1 (List.mem_of_find?_eq_some h)

/-- A width code is at most 2, and its lanes are one of four runs. -/
theorem chooseWidth_lt {failed w p : Nat} (h : chooseWidth i failed = some (w, p)) : w < 4 ∧ p < 4 := by
  unfold chooseWidth at h
  dsimp only at h
  split at h
  · next hrun =>
    have := cleanRun_lt hrun
    grind
  · next hrun _ =>
    have := cleanRun_lt hrun
    grind
  · next hrun _ _ =>
    have := cleanRun_lt hrun
    grind
  · exact absurd h (by simp)

/-- The lanes of a width are in use, their scramblers seeded (R275). -/
def widthTaken (i w p : Nat) (rev : Bool) (s : State) : State :=
  modLink i (fun l => seedLanes i { l with lane0 := p * (linkLanes i / 2 ^ w), laneN := linkLanes i / 2 ^ w, laneRev := rev }) s

/-- The link is in PARAMS, and DEGRADED where its width is not the full one. -/
def paramsEntered (i w : Nat) (s : State) : State := when (w != 0) (raise (degradedFld i)) (setLinkSt i 3 s)

/-- This end's parameters are on their way. -/
def paramsOwn (i : Nat) (s : State) : State := modLink i (fun l => { l with own := some (ownParams i s), peer := none }) s

/-- The width is shown. -/
def widthShown (i w p : Nat) (rev : Bool) (s : State) : State :=
  if i = 0 then wrB F.OCL_STATE.REVERSED rev (wr F.OCL_STATE.PART p (wr F.OCL_STATE.WIDTH w s)) else wr (F.SPAN_STATE.WIDTH (i - 1)) w s

/-- A link that has its width, before that is shown. -/
def paramsBegun (i w p : Nat) (rev : Bool) (s : State) : State :=
  relink i (offerParams i (paramsEntered i w (widthTaken i w p rev s)))

theorem alignment_width (hi : i ≤ 4) (hst : linkSt i s = 2) {w p : Nat} (hc : chooseWidth i (linkOf i s).laneFail = some (w, p))
    (rev : Bool) : alignment i rev s = widthShown i w p rev (paramsBegun i w p rev s) := by
  unfold alignment
  rw [if_pos ⟨linkOk_le hi, hst⟩, hc]
  rfl

theorem alignment_none (hi : i ≤ 4) (hst : linkSt i s = 2) (hc : chooseWidth i (linkOf i s).laneFail = none) (rev : Bool) :
    alignment i rev s = goDown i s.now s := by
  unfold alignment
  rw [if_pos ⟨linkOk_le hi, hst⟩, hc]

/-! ### PARAMS begins -/

theorem Undisturbed.offerParams {P : State → Prop} (hP : Undisturbed P) (h : P (paramsOwn i s)) : P (offerParams i s) := by
  unfold Machine.offerParams
  dsimp only
  split
  · exact hP.sendOut h
  · exact hP.sendOut h

theorem Undisturbed.paramsEntered {P : State → Prop} (hP : Undisturbed P) {w : Nat} (hdeg : ∀ u, P u → P (wr (degradedFld i) 1 u))
    (h : P (Machine.setLinkSt i 3 s)) : P (paramsEntered i w s) := by
  unfold Machine.paramsEntered when
  split
  · exact hP.raise (hdeg _ h)
  · exact h

theorem linkOf_relink (i j : Nat) (s : State) : linkOf j (relink i s) = linkOf j s := by
  unfold relink
  split
  · exact linkOf_congr rfl ⟨rfl, rfl, rfl, rfl⟩ j
  · rfl

theorem relink_regs {ρ : List Nat} {σ : State} (hρ : 0x1400008 ∈ ρ) (h : Regs ρ σ s) : Regs ρ σ (relink i s) := by
  unfold relink
  split
  · exact wr_regs hρ (h.of_win rfl)
  · exact h

theorem BitSet.relink {f : Fld} (hf : f.IsStatus) (h : BitSet f s) : BitSet f (relink i s) := by
  obtain ⟨-, -, hoff⟩ := hf
  unfold Machine.relink
  split
  · exact ⟨win_wr (h.of_win (t := { s with pair := { s.pair with watch := some s.now } }) rfl).1 _ _,
      (rd_wr_ne (fun he => hoff (by rw [he]; decide)) _ _).trans h.2⟩
  · exact h

/-- SENIOR lies beside PORTS. -/
theorem undisturbed_senior (c : Nat) : Undisturbed (fun t => Table.wf resetWord t.win = true ∧ rd F.PAIR_STATE.SENIOR t = c) where
  link {i l s} _ h := ⟨(setLink_win i l s) ▸ h.1, (rd_congr (setLink_win i l s) _).trans h.2⟩
  ocl _ h := h
  bit hg h := ⟨win_wr h.1 _ _, (rd_wr_ne (Ne.symm ((by decide : ∀ g ∈ sideBits, g.off ≠ F.PAIR_STATE.SENIOR.off) _ hg)) _ _).trans h.2⟩
  count {o n s} ho h := ⟨win_setCnt h.1 _ _, by
    obtain ⟨h1, h2⟩ := (by decide : ∀ o ∈ [F.EVT_DROP_CNT, F.PLDM_DROP_CNT], F.PAIR_STATE.SENIOR.off ≠ o ∧ F.PAIR_STATE.SENIOR.off ≠ o + 4) _ ho
    unfold rd
    rw [reg_setCnt_ne h1 h2]
    exact h.2⟩
  ports h := ⟨win_wr h.1 _ _, (rd_wr_field (f := F.PAIR_STATE.SENIOR) (g := F.PAIR_STATE.PORTS) h.1 rfl (by decide) (by decide) _).trans h.2⟩
  mgmt h := h
  sent h := h

/-! ### A link with its width -/

theorem widthTaken_win (i w p : Nat) (rev : Bool) (s : State) : (widthTaken i w p rev s).win = s.win := modLink_win _ _ _

theorem paramsBegun_regs (i w p : Nat) (rev : Bool) (s : State) :
    Regs ((degradedFld i).off :: sideRegs) (setLinkSt i 3 (widthTaken i w p rev s)) (paramsBegun i w p rev s) :=
  have hside := undisturbed_regs (ρ := (degradedFld i).off :: sideRegs) (by simp [SubN, sideRegs])
    (setLinkSt i 3 (widthTaken i w p rev s))
  relink_regs (by simp [sideRegs])
    (hside.offerParams (modLink_regs (hside.paramsEntered (fun _ => wr_regs (by simp)) (Regs.refl _ _))))

theorem linkSt_paramsBegun (hw : s.TablesWf) (hi : i ≤ 4) (w p : Nat) (rev : Bool) : linkSt i (paramsBegun i w p rev s) = 3 :=
  have hoff := (by decide : ∀ i ≤ 4, (linkStateFld i).off ∉ (degradedFld i).off :: sideRegs) i hi
  ((paramsBegun_regs i w p rev s).rd hoff).trans
    (linkSt_setLinkSt (show Table.wf resetWord (widthTaken i w p rev s).win = true from widthTaken_win i w p rev s ▸ hw.win) hi (by decide))

theorem paramsBegun_degraded (hw : s.TablesWf) (hi : i ≤ 4) {w : Nat} (hne : w ≠ 0) (p : Nat) (rev : Bool) :
    BitSet (degradedFld i) (paramsBegun i w p rev s) := by
  obtain ⟨hstatus, -, -⟩ := linkBits_status i hi
  have hset : (setLinkSt i 3 (widthTaken i w p rev s)).TablesWf := (setLinkSt_keeps (modLink_keeps (Keeps.refl s))).tables hw
  have hentered : BitSet (degradedFld i) (paramsEntered i w (widthTaken i w p rev s)) := by
    unfold paramsEntered when
    rw [if_pos (by simpa using hne)]
    exact raise_bitSet hstatus hset.win
  exact BitSet.relink hstatus (hstatus.undisturbed.offerParams (hentered.of_win (modLink_win _ _ _)))

theorem linkOf_paramsEntered {β : Type} {g : LinkState → β} (hg : ∀ l : LinkState, g l.still = g l) (w : Nat) (s : State) :
    g (linkOf i (paramsEntered i w s)) = g (linkOf i s) :=
  (undisturbed_link hg i _).paramsEntered (fun _ h => h) (linkOf_setLinkSt hg i i 3 s)

/-- What PARAMS and sending do not change of a flit layer is what the width left. -/
theorem linkOf_paramsBegun {β : Type} {g : LinkState → β} (hg : ∀ l : LinkState, g l.still = g l)
    (hown : ∀ (l : LinkState) o p, g { l with own := o, peer := p } = g l) (w p : Nat) (rev : Bool) (s : State) :
    g (linkOf i (paramsBegun i w p rev s)) = g (linkOf i (widthTaken i w p rev s)) := by
  refine (congrArg g (linkOf_relink i i _)).trans ((undisturbed_link hg i _).offerParams ?_)
  exact (congrArg g (linkOf_modLink_self i _ _)).trans ((hown _ _ _).trans (linkOf_paramsEntered hg w _))

/-- This end's parameters are those of the module as it was. -/
theorem ownParams_paramsEntered (hw : s.TablesWf) (hi : i ≤ 4) (w p : Nat) (rev : Bool) :
    ownParams i (paramsEntered i w (widthTaken i w p rev s)) = ownParams i s := by
  have hregs : Regs ((degradedFld i).off :: (linkStateFld i).off :: sideRegs) s (paramsEntered i w (widthTaken i w p rev s)) := by
    have hside := undisturbed_regs (ρ := (degradedFld i).off :: (linkStateFld i).off :: sideRegs) (by simp [SubN, sideRegs]) s
    exact hside.paramsEntered (fun _ => wr_regs (by simp)) (hside.setLinkSt (i := i) (wr_regs (by simp) (modLink_regs (Regs.refl _ s))))
  have hsenior : rd F.PAIR_STATE.SENIOR (paramsEntered i w (widthTaken i w p rev s)) = rd F.PAIR_STATE.SENIOR s := by
    have hbeside := undisturbed_senior (rd F.PAIR_STATE.SENIOR s)
    obtain ⟨hdeg, hst⟩ := (by decide : ∀ i ≤ 4, F.PAIR_STATE.SENIOR.off ≠ (degradedFld i).off ∧
      F.PAIR_STATE.SENIOR.off ≠ (linkStateFld i).off) i hi
    refine (hbeside.paramsEntered (fun u h => ⟨win_wr h.1 _ _, (rd_wr_ne hdeg _ _).trans h.2⟩) (hbeside.setLinkSt ?_)).2
    have hwin := widthTaken_win i w p rev s
    exact ⟨win_wr (hwin ▸ hw.win) _ _, (rd_wr_ne hst _ _).trans (rd_congr hwin _)⟩
  have hfuses : (paramsEntered i w (widthTaken i w p rev s)).fuses = s.fuses :=
    (when_same (l := [.win, .link, .ports, .ocl]) (fun _ => raise_same (by decide))
      (setLinkSt_same (by decide) (modLink_same (by decide) (Same.refl _ s)))).part .fuses (by decide)
  obtain ⟨hepoch, hstrap⟩ := (by decide : ∀ i ≤ 4, F.PAIR_EPOCH.VALUE.off ∉ (degradedFld i).off :: (linkStateFld i).off :: sideRegs ∧
    F.PIN_STATE.SENIOR_STRAP.off ∉ (degradedFld i).off :: (linkStateFld i).off :: sideRegs) i hi
  unfold ownParams on
  rw [hfuses, hsenior, hregs.rd hepoch, hregs.rd hstrap]

theorem paramsBegun_own (hw : s.TablesWf) (hi : i ≤ 4) (w p : Nat) (rev : Bool) :
    (linkOf i (paramsBegun i w p rev s)).own = some (ownParams i s) := by
  refine (congrArg LinkState.own (linkOf_relink i i _)).trans
    ((undisturbed_link (g := LinkState.own) (fun _ => rfl) i _).offerParams ?_)
  exact (congrArg LinkState.own (linkOf_modLink_self i _ _)).trans (congrArg some (ownParams_paramsEntered hw hi w p rev))

/-! ### The width is shown -/

theorem linkOf_widthShown (j w p : Nat) (rev : Bool) (s : State) : linkOf j (widthShown i w p rev s) = linkOf j s := by
  unfold widthShown
  split <;> exact linkOf_congr rfl ⟨rfl, rfl, rfl, rfl⟩ j

theorem widthShown_rd_ne {f : Fld} (hi : i ≤ 4) (hf : f.off ≠ (linkStateFld i).off) (w p : Nat) (rev : Bool) (s : State) :
    rd f (widthShown i w p rev s) = rd f s := by
  have hoff := (by decide : ∀ i ≤ 4, (linkStateFld i).off = if i = 0 then 0xa004 else (F.SPAN_STATE.WIDTH (i - 1)).off) i hi
  unfold widthShown
  split
  · next h0 =>
    rw [if_pos h0] at hoff
    have hne (g : Fld) (hg : g.off = 0xa004) : f.off ≠ g.off := fun he => hf (by rw [hoff, he, hg])
    exact (rd_wr_ne (hne _ rfl) _ _).trans ((rd_wr_ne (hne _ rfl) _ _).trans (rd_wr_ne (hne _ rfl) _ _))
  · next h0 =>
    rw [if_neg h0] at hoff
    exact rd_wr_ne (fun he => hf (by rw [hoff, he])) _ _

/-- The state stays, and the width is the one that was chosen; OCL also shows its part and whether it is reversed. -/
theorem widthShown_shows (hw : Table.wf resetWord s.win = true) {w p : Nat} (hw4 : w < 4) (hp : p < 4) (rev : Bool) :
    linkSt i (widthShown i w p rev s) = linkSt i s ∧
      rd (if i = 0 then F.OCL_STATE.WIDTH else F.SPAN_STATE.WIDTH (i - 1)) (widthShown i w p rev s) = w ∧
      (i = 0 → rd F.OCL_STATE.PART (widthShown i w p rev s) = p ∧ rd F.OCL_STATE.REVERSED (widthShown i w p rev s) = bitN rev) := by
  have h1 := win_wr hw F.OCL_STATE.WIDTH w
  have h2 := win_wr h1 F.OCL_STATE.PART p
  unfold widthShown linkSt linkStateFld
  split
  · refine ⟨?_, ?_, fun _ => ⟨?_, ?_⟩⟩
    · calc rd F.OCL_STATE.STATE (wrB F.OCL_STATE.REVERSED rev (wr F.OCL_STATE.PART p (wr F.OCL_STATE.WIDTH w s)))
          = rd F.OCL_STATE.STATE (wr F.OCL_STATE.PART p (wr F.OCL_STATE.WIDTH w s)) :=
            rd_wr_field (f := F.OCL_STATE.STATE) (g := F.OCL_STATE.REVERSED) h2 rfl (by decide) (by decide) _
        _ = rd F.OCL_STATE.STATE (wr F.OCL_STATE.WIDTH w s) :=
            rd_wr_field (f := F.OCL_STATE.STATE) (g := F.OCL_STATE.PART) h1 rfl (by decide) (by decide) _
        _ = rd F.OCL_STATE.STATE s := rd_wr_field (f := F.OCL_STATE.STATE) (g := F.OCL_STATE.WIDTH) hw rfl (by decide) (by decide) _
    · calc rd F.OCL_STATE.WIDTH (wrB F.OCL_STATE.REVERSED rev (wr F.OCL_STATE.PART p (wr F.OCL_STATE.WIDTH w s)))
          = rd F.OCL_STATE.WIDTH (wr F.OCL_STATE.PART p (wr F.OCL_STATE.WIDTH w s)) :=
            rd_wr_field (f := F.OCL_STATE.WIDTH) (g := F.OCL_STATE.REVERSED) h2 rfl (by decide) (by decide) _
        _ = rd F.OCL_STATE.WIDTH (wr F.OCL_STATE.WIDTH w s) :=
            rd_wr_field (f := F.OCL_STATE.WIDTH) (g := F.OCL_STATE.PART) h1 rfl (by decide) (by decide) _
        _ = w := (rd_wr_self hw (by decide) w).trans (Nat.mod_eq_of_lt hw4)
    · calc rd F.OCL_STATE.PART (wrB F.OCL_STATE.REVERSED rev (wr F.OCL_STATE.PART p (wr F.OCL_STATE.WIDTH w s)))
          = rd F.OCL_STATE.PART (wr F.OCL_STATE.PART p (wr F.OCL_STATE.WIDTH w s)) :=
            rd_wr_field (f := F.OCL_STATE.PART) (g := F.OCL_STATE.REVERSED) h2 rfl (by decide) (by decide) _
        _ = p := (rd_wr_self h1 (by decide) p).trans (Nat.mod_eq_of_lt hp)
    · exact rd_wrB_self h2 (by decide) rfl rev
  · next h0 =>
    refine ⟨?_, ?_, fun h => absurd h h0⟩
    · exact rd_wr_field (f := F.SPAN_STATE.STATE (i - 1)) (g := F.SPAN_STATE.WIDTH (i - 1)) hw rfl
        (Nat.le_of_ble_eq_true rfl) (Or.inl (Nat.le_of_ble_eq_true rfl)) w
    · exact (rd_wr_self hw (f := F.SPAN_STATE.WIDTH (i - 1)) (Nat.le_of_ble_eq_true rfl) w).trans (Nat.mod_eq_of_lt hw4)

/-! ### PARAMS (R277, R309, R332) -/

/-- The parameters of a port's peer, its serial kept. -/
def serialKept (k : Nat) (p : Params) (s : State) : State :=
  { s with pair := { s.pair with serials := Table.set (fun _ => 0) s.pair.serials k p.serial } }

section
variable {p : Params} (hi : i ≤ 4) (hst : linkSt i s = 3)
include hi hst

theorem paramsRow_refused (h : paramsRefused i p = true) : paramsRow i p at_ s = goDown i at_ (atTime at_ s) := by
  have hskip : ¬ (!linkOk i || linkSt i (atTime at_ s) != 3) = true := by
    rw [linkOk_le hi, show linkSt i (atTime at_ s) = 3 from hst]
    decide
  unfold paramsRow
  dsimp only
  rw [if_neg hskip, if_pos h]

theorem paramsRow_taken (h : paramsRefused i p = false) : paramsRow i p at_ s =
    if i = 0 then resume 0 (becomeActive 0 p (atTime at_ s))
    else if miscabled (i - 1) p s then goDown i at_ (raise F.PAIR_STS.CABLE (atTime at_ s))
    else resume i (meetPartner p (resendSpan (i - 1) (becomeActive i p (serialKept (i - 1) p (atTime at_ s))))) := by
  have hskip : ¬ (!linkOk i || linkSt i (atTime at_ s) != 3) = true := by
    rw [linkOk_le hi, show linkSt i (atTime at_ s) = 3 from hst]
    decide
  unfold paramsRow
  dsimp only
  rw [if_neg hskip, if_neg (by simp [h])]
  rfl

end

theorem linkSt_becomeActive (hw : s.TablesWf) (hi : i ≤ 4) (p : Params) : linkSt i (becomeActive i p s) = 4 :=
  linkSt_setLinkSt ((modLink_keeps (Keeps.refl s)).tables hw).win hi (by decide)

/-- A status bit stands when a link goes DOWN. -/
theorem goDown_bitSet {f : Fld} (hi : i ≤ 4) (hf : f.IsStatus) (hoff : f.off ≠ (linkStateFld i).off) (h : BitSet f s) :
    BitSet f (goDown i at_ s) := by
  obtain ⟨hdone, hdlo, -⟩ := (linkBits_status i hi).2.2
  have hwent : BitSet f (wentDown i at_ s) := h.of_win (modLink_win _ _ s)
  have hset : BitSet f (setLinkSt i 6 (wentDown i at_ s)) :=
    hf.undisturbed.setLinkSt ⟨win_wr hwent.1 _ _, (rd_wr_ne hoff _ _).trans hwent.2⟩
  exact hf.undisturbed.downTold (fun _ _ h => h.of_win (modLink_win _ _ _))
    (hf.undisturbed.raise ⟨win_wr hset.1 _ _, rd_wr_one_of_set hset.1 hf.1 hdone hdlo hset.2⟩)

theorem resendSpan_regs {ρ : List Nat} {σ : State} (hρ : SubN [0xa000, 0xa070, 0xa074] ρ) (k : Nat) (h : Regs ρ σ s) :
    Regs ρ σ (resendSpan k s) :=
  forEach_regs (fun _ _ ht => sendOnPort_regs hρ (ht.of_win rfl)) (h.of_win rfl)

/-- In MODE NONE a partner's PARAMS raise the epoch and no more. -/
theorem linkSt_meetPartner (hi : i ≤ 4) (hmode : pairMode s = 0) (p : Params) : linkSt i (meetPartner p s) = linkSt i s := by
  have hoff := (by decide : ∀ i ≤ 4, (linkStateFld i).off ≠ F.PAIR_EPOCH.VALUE.off) i hi
  unfold meetPartner
  dsimp only
  rw [if_neg fun h => h.1 hmode]
  unfold raiseEpoch
  split
  · exact (rd_congr (journal_win _ _ _ _) _).trans (rd_wr_ne hoff _ _)
  · rfl

/-- A span port in MODE NONE whose peer offers enough on the right cable is ACTIVE. -/
theorem spanActive_shows (hw : s.TablesWf) (hi : i ≤ 4) (hmode : pairMode s = 0) (p : Params) :
    linkSt i (resume i (meetPartner p (resendSpan (i - 1) (becomeActive i p (serialKept (i - 1) p s))))) = 4 := by
  have hkept : (serialKept (i - 1) p s).TablesWf := { hw with }
  obtain ⟨hpair, hstate⟩ := (by decide : ∀ i ≤ 4, F.PAIR_CFG.MODE.off ∉ (linkStateFld i).off :: sideRegs ∧
    (linkStateFld i).off ∉ [0xa000, 0xa070, 0xa074]) i hi
  have hactive : Regs ((linkStateFld i).off :: sideRegs) s (becomeActive i p (serialKept (i - 1) p s)) :=
    ⟨fun o ho => ((setLinkSt_regs i 4 _).reg o ho).trans (reg_congr (modLink_win i _ _) o)⟩
  have hresent (ρ : List Nat) (hρ : SubN [0xa000, 0xa070, 0xa074] ρ) := resendSpan_regs hρ (i - 1) (Regs.refl ρ (becomeActive i p (serialKept (i - 1) p s)))
  have hstill : pairMode (resendSpan (i - 1) (becomeActive i p (serialKept (i - 1) p s))) = 0 :=
    ((hresent [0xa000, 0xa070, 0xa074] (by decide)).rd (f := F.PAIR_CFG.MODE) (by decide)).trans ((hactive.rd hpair).trans hmode)
  rw [linkSt_resume hi, linkSt_meetPartner hi hstill]
  exact ((hresent [0xa000, 0xa070, 0xa074] (by decide)).rd hstate).trans (linkSt_becomeActive hkept hi p)

end Sys2Proof.Machine
end

section
/-!
SUPPORT. Each step of a link's training, and each way it goes down (R276, R277, R283, R284, R287, R307, R309).
-/
namespace Sys2Proof.Machine
open Sys2Proof

variable {s : State} {i : Nat}

/-! ### Each command in its own state -/

theorem presenceDetect_shows (hw : s.TablesWf) (hi : i ≤ 4) {lanes : Nat} (hst : linkSt i s = 0) (h : 8 ≤ lanes)
    (hreset : s.mgmt.inReset = false) (hoff : s.power.off = false) : linkSt i (presenceDetect i lanes s) = 1 :=
  presenceDetect_enough hi hst h hreset hoff ▸ linkSt_setLinkSt hw.win hi (by decide)

/-- A width is left: the link is in PARAMS with that width. -/
theorem alignment_shows (hw : s.TablesWf) (hi : i ≤ 4) (rev : Bool) (hst : linkSt i s = 2) {w p : Nat}
    (hc : chooseWidth i (linkOf i s).laneFail = some (w, p)) :
    linkSt i (alignment i rev s) = 3 ∧
      rd (if i = 0 then F.OCL_STATE.WIDTH else F.SPAN_STATE.WIDTH (i - 1)) (alignment i rev s) = w ∧
      (w ≠ 0 → rd (degradedFld i) (alignment i rev s) = 1) ∧
      (i = 0 → rd F.OCL_STATE.PART (alignment i rev s) = p ∧ rd F.OCL_STATE.REVERSED (alignment i rev s) = bitN rev) := by
  obtain ⟨hw4, hp⟩ := chooseWidth_lt hc
  have hbegun : (paramsBegun i w p rev s).TablesWf := by
    refine (relink_keeps (offerParams_keeps (when_keeps (fun _ => raise_keeps) (setLinkSt_keeps (modLink_keeps (Keeps.refl s)))))).tables hw
  obtain ⟨hstate, hwidth, hpart⟩ := widthShown_shows (i := i) hbegun.win hw4 hp rev
  have hoff := (by decide : ∀ i ≤ 4, (degradedFld i).off ≠ (linkStateFld i).off) i hi
  rw [alignment_width hi hst hc]
  exact ⟨hstate.trans (linkSt_paramsBegun hw hi w p rev), hwidth,
    fun hne => (widthShown_rd_ne hi hoff w p rev _).trans (paramsBegun_degraded hw hi hne p rev).2, hpart⟩

/-- A width is left: the flit layer holds its lanes, their scramblers and this end's parameters. -/
theorem alignment_layer (hw : s.TablesWf) (hi : i ≤ 4) (rev : Bool) (hst : linkSt i s = 2) {w p : Nat}
    (hc : chooseWidth i (linkOf i s).laneFail = some (w, p)) :
    (linkOf i (alignment i rev s)).laneN = linkLanes i / 2 ^ w ∧
      (linkOf i (alignment i rev s)).lane0 = p * (linkLanes i / 2 ^ w) ∧ (linkOf i (alignment i rev s)).own = some (ownParams i s) ∧
      (linkOf i (alignment i rev s)).rxLanes.length = linkLanes i / 2 ^ w ∧
      (rev = false → (linkOf i (alignment i rev s)).rxLanes =
        (List.range (linkLanes i / 2 ^ w)).map fun k => p * (linkLanes i / 2 ^ w) + k + 1) := by
  have htaken := linkOf_modLink_self i (fun l =>
    seedLanes i { l with lane0 := p * (linkLanes i / 2 ^ w), laneN := linkLanes i / 2 ^ w, laneRev := rev }) s
  have hrx := (linkOf_paramsBegun (g := LinkState.rxLanes) (fun _ => rfl) (fun _ _ _ => rfl) w p rev s).trans
    (congrArg LinkState.rxLanes htaken)
  rw [alignment_width hi hst hc, linkOf_widthShown]
  refine ⟨?_, ?_, paramsBegun_own hw hi w p rev, ?_, fun hrev => ?_⟩
  · exact (linkOf_paramsBegun (g := LinkState.laneN) (fun _ => rfl) (fun _ _ _ => rfl) w p rev s).trans
      (congrArg LinkState.laneN htaken)
  · exact (linkOf_paramsBegun (g := LinkState.lane0) (fun _ => rfl) (fun _ _ _ => rfl) w p rev s).trans
      (congrArg LinkState.lane0 htaken)
  · simp [hrx, seedLanes]
  · rw [hrx, hrev]
    rfl

section
variable {ok : Bool} {t0 : Nat}

theorem retrainComplete_ok (hi : i ≤ 4) (hst : linkSt i s = 5) : retrainComplete i true t0 s =
    resume i (setLinkSt i (if (linkOf i s).peer.isSome then 4 else 3)
      (modLink i (fun l => seedLanes i { l with retrainFails := 0 }) (atTime t0 s))) := by
  unfold retrainComplete
  dsimp only
  rw [if_neg (by rw [linkOk_le hi, show linkSt i (atTime t0 s) = 5 from hst]; decide), if_pos rfl]
  rw [linkOf_congr (s := s) (t := atTime t0 s) rfl ⟨rfl, rfl, rfl, rfl⟩]

/-- One more failed retrain. -/
def retrainFailed (i t0 : Nat) (s : State) : State := modLink i (fun l => { l with retrainFails := l.retrainFails + 1 }) (atTime t0 s)

theorem linkOf_retrainFailed (i t0 : Nat) (s : State) :
    (linkOf i (retrainFailed i t0 s)).retrainFails = (linkOf i s).retrainFails + 1 := by
  unfold retrainFailed
  rw [linkOf_modLink_self, linkOf_congr (s := s) (t := atTime t0 s) rfl ⟨rfl, rfl, rfl, rfl⟩]

theorem retrainComplete_failed (hi : i ≤ 4) (hst : linkSt i s = 5) : retrainComplete i false t0 s =
    if 3 ≤ (linkOf i s).retrainFails + 1 then retrainFailed i t0 s else enterRetrain i t0 (retrainFailed i t0 s) := by
  rw [← linkOf_retrainFailed i t0 s]
  unfold retrainComplete
  dsimp only
  rw [if_neg (by rw [linkOk_le hi, show linkSt i (atTime t0 s) = 5 from hst]; decide), if_neg (by decide)]
  rfl

theorem retrainComplete_resumes (hw : s.TablesWf) (hi : i ≤ 4) (hst : linkSt i s = 5) :
    linkSt i (retrainComplete i true t0 s) = (if (linkOf i s).peer.isSome then 4 else 3) ∧ (retrainComplete i true t0 s).now = t0 := by
  have hmod : (modLink i (fun l => seedLanes i { l with retrainFails := 0 }) (atTime t0 s)).TablesWf :=
    (modLink_keeps (atTime_keeps (Keeps.refl s))).tables hw
  rw [retrainComplete_ok hi hst]
  refine ⟨(linkSt_resume hi i _).trans (linkSt_setLinkSt hmod.win hi (by split <;> decide)), ?_⟩
  exact (resume_same (by decide) (setLinkSt_same (by decide) (modLink_same (by decide)
    (Same.refl [.win, .budget, .svc, .link, .ports, .ocl, .pair, .free] (atTime t0 s))))).part .now (by decide)

/-- A failed retrain is counted among the link's failures, and before the third the link retrains again. -/
theorem retrainComplete_retries (hw : s.TablesWf) (hi : i ≤ 4) (hst : linkSt i s = 5) :
    linkSt i (retrainComplete i false t0 s) = 5 ∧
      (linkOf i (retrainComplete i false t0 s)).retrainFails = (linkOf i s).retrainFails + 1 ∧
      (2 ≤ (linkOf i s).retrainFails → (retrainComplete i false t0 s).win = s.win) ∧
      ((linkOf i s).retrainFails < 2 → rd (retrainFld i) (retrainComplete i false t0 s) = 1 ∧
        cnt (retrainCnt i) (retrainComplete i false t0 s) = (cnt (retrainCnt i) s + 1) % 2 ^ 64) := by
  have hwin : (retrainFailed i t0 s).win = s.win := modLink_win i _ _
  have hfailed : (retrainFailed i t0 s).TablesWf := (modLink_keeps (atTime_keeps (Keeps.refl s))).tables hw
  rw [retrainComplete_failed hi hst]
  split
  · next hthird =>
    exact ⟨(rd_congr hwin _).trans hst, linkOf_retrainFailed i t0 s, fun _ => hwin, fun h => absurd hthird (by omega)⟩
  · next hfew =>
    obtain ⟨hstate, hbit, hcount⟩ := enterRetrain_shows hfailed hi t0
    refine ⟨hstate, ?_, fun h => absurd h (by omega), fun _ => ⟨hbit, hcount.trans (by rw [cnt_congr hwin])⟩⟩
    calc (linkOf i (enterRetrain i t0 (retrainFailed i t0 s))).retrainFails
        = (linkOf i (retrainNoted i t0 (retrainFailed i t0 s))).retrainFails :=
          linkOf_enterRetrain (g := LinkState.retrainFails) (fun _ => rfl) i i t0 _
      _ = (linkOf i (retrainFailed i t0 s)).retrainFails := by
          unfold retrainNoted
          rw [linkOf_modLink_self]
      _ = _ := linkOf_retrainFailed i t0 s

theorem linkDown_down (hi : i ≤ 4) (hst : linkSt i s = 4 ∨ linkSt i s = 5) (hcause : downCause i t0 s = true) :
    linkDown i t0 s = goDown i t0 (atTime t0 s) := by
  have hl : linkOf i (atTime t0 s) = linkOf i s := linkOf_congr rfl ⟨rfl, rfl, rfl, rfl⟩ i
  refine if_pos ⟨linkOk_le hi, hst, ?_⟩
  unfold downCause at hcause ⊢
  rw [hl]
  exact hcause

theorem linkRetry_due (hi : i ≤ 4) (hst : linkSt i (atTime t0 s) = 6)
    (h : (linkOf i (atTime t0 s)).downAt + 100000 * cyPerUs ≤ t0) : linkRetry i t0 s = setLinkSt i 0 (atTime t0 s) := by
  unfold linkRetry
  extract_lets now
  exact if_pos ⟨linkOk_le hi, hst, h⟩

theorem linkRetry_detects (hw : s.TablesWf) (hi : i ≤ 4) (hst : linkSt i s = 6) (h : (linkOf i s).downAt + 100000 * cyPerUs ≤ t0) :
    linkSt i (linkRetry i t0 s) = 0 := by
  have hl : linkOf i (atTime t0 s) = linkOf i s := linkOf_congr rfl ⟨rfl, rfl, rfl, rfl⟩ i
  have hshown : linkSt i (atTime t0 s) = 6 := hst
  rw [linkRetry_due hi hshown (by rw [hl]; exact h)]
  exact linkSt_setLinkSt (s := atTime t0 s) hw.win hi (by decide)

theorem oclCtrlRetrain_active (hst : linkSt 0 s = 4) : oclCtrlRetrain t0 s = enterRetrain 0 t0 (atTime t0 s) := by
  unfold oclCtrlRetrain linkActive
  dsimp only
  rw [if_pos (by rw [show linkSt 0 (atTime t0 s) = 4 from hst]; rfl)]

end

/-- Settles O38: each command in the state it belongs to is one change of the flit layer and one `setLinkSt`, `goDown` or `enterRetrain`;
what is sent, raised and resumed afterwards leaves the link's state, its lanes and its bits alone. The counting of retrains, a wrong cable
and reset or power at PRESENCE_DETECT are as log entries 37, 61 and 82 have them. -/
theorem linksTrainAndGoDown : Obligations.LinksTrainAndGoDown := by
  unfold Obligations.LinksTrainAndGoDown
  intro s i t0 hw hi
  have hnow : (atTime t0 s).TablesWf := (atTime_keeps (Keeps.refl s)).tables hw
  refine ⟨fun lanes hst => ⟨fun hl hr hp => ⟨_, rfl, presenceDetect_shows hw hi hst hl hr hp⟩, fun hl => ?_⟩,
    fun failed hst => ⟨_, rfl, equalisationEnd_shows hw hi failed hst⟩, fun rev hst => ⟨fun w p hc => ?_, fun hc => ?_⟩,
    fun p hst => ⟨fun hr => ?_, fun hr h0 => ?_, fun hr h1 hcable => ?_, fun hr h1 hcable hmode => ?_⟩,
    fun hst => ⟨⟨_, rfl, retrainComplete_resumes hw hi hst⟩, _, rfl, retrainComplete_retries hw hi hst⟩,
    fun hst hcause => ?_, fun hst hlast => ⟨_, rfl, linkRetry_detects hw hi hst hlast⟩, fun hst => ?_⟩
  case refine_1 => exact congrArg Host.Outcome.next (presenceDetect_few hl)
  case refine_2 =>
    obtain ⟨hstate, hwidth, hdeg, hpart⟩ := alignment_shows hw hi rev hst hc
    obtain ⟨hn, h0, hown, hlen, hrx⟩ := alignment_layer hw hi rev hst hc
    refine ⟨_, rfl, hstate, hwidth, hdeg, hn, h0, hown, hlen.trans hn.symm, fun hrev => ?_, hpart⟩
    rw [hn, h0]
    exact hrx hrev
  case refine_3 =>
    obtain ⟨hstate, hbit, -⟩ := goDown_shows hw hi s.now
    exact ⟨_, congrArg Host.Outcome.next (alignment_none hi hst hc rev), hstate, hbit⟩
  case refine_4 =>
    obtain ⟨hstate, hbit, -⟩ := goDown_shows hnow hi t0
    exact ⟨_, congrArg Host.Outcome.next (paramsRow_refused hi hst hr), hstate, hbit⟩
  case refine_5 =>
    refine ⟨_, congrArg Host.Outcome.next ((paramsRow_taken hi hst hr).trans (if_pos h0)), ?_⟩
    subst h0
    exact (linkSt_resume hi 0 _).trans (linkSt_becomeActive hnow hi p)
  case refine_6 =>
    refine ⟨_, congrArg Host.Outcome.next ((paramsRow_taken hi hst hr).trans ((if_neg (by omega)).trans (if_pos hcable))), ?_⟩
    have hraised : (raise F.PAIR_STS.CABLE (atTime t0 s)).TablesWf := (raise_keeps (Keeps.refl _)).tables hnow
    have hoff := (by decide : ∀ i ≤ 4, F.PAIR_STS.CABLE.off ≠ (linkStateFld i).off) i hi
    obtain ⟨hstate, -⟩ := goDown_shows hraised hi t0
    exact ⟨hstate, (goDown_bitSet hi (by decide) hoff (raise_bitSet (by decide) hnow.win)).2⟩
  case refine_7 =>
    refine ⟨_, congrArg Host.Outcome.next ((paramsRow_taken hi hst hr).trans
      ((if_neg (by omega)).trans (if_neg (by simp [hcable])))), ?_⟩
    exact spanActive_shows hnow hi hmode p
  case refine_8 =>
    exact ⟨_, congrArg Host.Outcome.next (linkDown_down hi hst hcause), goDown_shows hnow hi t0⟩
  case refine_9 =>
    refine ⟨_, congrArg Host.Outcome.next (oclCtrlRetrain_active hst), ?_⟩
    exact enterRetrain_shows hnow (Nat.zero_le 4) t0

end Sys2Proof.Machine
end

section
/-!
SUPPORT. Flits that arrive, their acknowledgements and replays (R278 to R283): what every received flit does first, what a NAK sends and what a
replay counts.
-/
namespace Sys2Proof.Machine
open Sys2Proof

variable {s t : State} {i t0 : Nat} {raw : BitVec 2048} {f : RxFlit}

theorem flitsFlow_of (hi : i ≤ 4) (hst : linkSt i s = 4 ∨ linkSt i s = 3) : flitsFlow i s = true := by
  unfold flitsFlow linkActive
  rw [linkOk_le hi]
  obtain h | h := hst <;> simp [h]

theorem linkOf_atTime (i t0 : Nat) (s : State) : linkOf i (atTime t0 s) = linkOf i s := linkOf_congr rfl ⟨rfl, rfl, rfl, rfl⟩ i

/-! ### The receiving end of a link -/

/-- The receiving end: the expected SEQ, whether a flit was delivered, whether a NAK is pending, and the NAKs sent. -/
def LinkState.rx (l : LinkState) : Nat × Bool × Bool × Nat := (l.rxSeq, l.gotAny, l.nakked, l.naks)

theorem rx_eq {l m : LinkState} (h : l.rx = m.rx) : l.rxSeq = m.rxSeq ∧ l.gotAny = m.gotAny ∧ l.nakked = m.nakked ∧ l.naks = m.naks := by
  simpa [LinkState.rx] using h

/-- A flit's header is made of TYPE, SEQ and what the receiving end acknowledges. -/
theorem flitHeader_rx {l m : LinkState} (h : l.rx = m.rx) (type seq : Nat) : flitHeader l type seq = flitHeader m type seq := by
  obtain ⟨hseq, hgot, -, -⟩ := rx_eq h
  unfold flitHeader
  rw [hseq, hgot]

theorem undisturbed_rx (i : Nat) (c : Nat × Bool × Bool × Nat) : Undisturbed (fun t => (linkOf i t).rx = c) :=
  undisturbed_link (fun _ => rfl) i c

/-! ### A NAK flit (R281) -/

/-- One more NAK flit goes out and a NAK is pending; nothing else of the link's numbers or of its replay buffer changes. -/
theorem linkOf_putNak (i : Nat) (s : State) :
    (linkOf i (putNak i s)).naks = (linkOf i s).naks + 1 ∧ (linkOf i (putNak i s)).nakked = true ∧
      (linkOf i (putNak i s)).ctl = some (buildFlit (flitHeader (linkOf i s) 2 0) []) ∧
      (linkOf i (putNak i s)).rxSeq = (linkOf i s).rxSeq ∧ (linkOf i (putNak i s)).txSeq = (linkOf i s).txSeq ∧
      (linkOf i (putNak i s)).replay = (linkOf i s).replay := by
  unfold putNak sendCtl emit
  rw [linkOf_modLink_self, linkOf_modLink_self, linkOf_modLink_self, linkOf_modLink_self]
  exact ⟨rfl, rfl, rfl, rfl, rfl, rfl⟩

theorem putNak_win (i : Nat) (s : State) : (putNak i s).win = s.win := (sendCtl_win _ _ _).trans (modLink_win _ _ _)

theorem sendNak_first (h : (linkOf i s).nakked = false) : sendNak i s = putNak i s := if_neg (by simp [h])

/-- After a NAK is due it is pending, and the expected SEQ and the replay buffer are as before. -/
theorem linkOf_sendNak (i : Nat) (s : State) : (linkOf i (sendNak i s)).nakked = true ∧
    (linkOf i (sendNak i s)).rxSeq = (linkOf i s).rxSeq ∧ (linkOf i (sendNak i s)).replay = (linkOf i s).replay := by
  obtain ⟨-, hnakked, -, hseq, -, hreplay⟩ := linkOf_putNak i s
  unfold sendNak
  split
  · next hpending => exact ⟨hpending, rfl, rfl⟩
  · exact ⟨hnakked, hseq, hreplay⟩

theorem sendNak_win (i : Nat) (s : State) : (sendNak i s).win = s.win := by
  unfold sendNak
  split
  · rfl
  · exact putNak_win i s

theorem pairInbox_of_same {l : List Part} (h : Same l s t) (hl : Part.pair ∉ l) : t.pair.inbox = s.pair.inbox := by
  have hpair : { t.pair with port0 := .reset, port1 := .reset, port2 := .reset, port3 := .reset } =
      { s.pair with port0 := .reset, port1 := .reset, port2 := .reset, port3 := .reset } := h.part .pair hl
  injection hpair

theorem sendNak_inboxes (i : Nat) (s : State) : (sendNak i s).ocl.inbox = s.ocl.inbox ∧ (sendNak i s).pair.inbox = s.pair.inbox :=
  have hsame : Same [.link, .ports] s (sendNak i s) := sendNak_same (by decide) (Same.refl _ s)
  ⟨congrArg Ocl.inbox (hsame.part .ocl (by decide)), pairInbox_of_same hsame (by decide)⟩

/-! ### What every received flit does first (R279 to R281) -/

/-- A flit comes off the lanes at an instant, is counted, and its ACK is taken. -/
def received (i : Nat) (raw : BitVec 2048) (t0 : Nat) (s : State) : State :=
  countFlit i (takeOff i raw s).1 (takeOff i raw (atTime t0 s)).2

theorem takeOff_atTime (i : Nat) (raw : BitVec 2048) (t0 : Nat) (s : State) : (takeOff i raw (atTime t0 s)).1 = (takeOff i raw s).1 := by
  unfold takeOff
  rw [linkOf_atTime]

theorem linkOf_takeOff (i : Nat) (raw : BitVec 2048) (t0 : Nat) (s : State) : linkOf i (takeOff i raw (atTime t0 s)).2 =
    { linkOf i s with rxLanes := (scrambleFlit raw (linkOf i s).rxLanes).2 } := by
  unfold takeOff
  dsimp only
  rw [linkOf_modLink_self, linkOf_atTime]

/-- What holds of the state stands over sending and over the taking of a flit and its ACK. -/
structure Unreceived (i : Nat) (P : State → Prop) : Prop extends Undisturbed P where
  now : ∀ {t0 : Nat} {s : State}, P s → P (atTime t0 s)
  lanes : ∀ {r : List Nat} {s : State}, P s → P (modLink i (fun l => { l with rxLanes := r }) s)
  counted : ∀ {o : Nat} {s : State}, o ∈ [fecCnt i, crcCnt i] → P s → P (bump o s)
  acked : ∀ {r : List SentFlit} {s : State}, P s → P (modLink i (fun l => { l with replay := r, ackTimeouts := 0 }) s)
  delivered : ∀ {m : AckMark} {s : State}, P s → P (deliver m s)

namespace Unreceived

variable {P : State → Prop} (hP : Unreceived i P)
include hP

theorem portClear {j : Nat} (h : P s) : P (portClear j s) := by
  unfold Machine.portClear
  dsimp only
  split
  · exact hP.sent (n := s.free) h
  · exact h

theorem takeAck (h : P s) : P (takeAck i f s) := by
  unfold Machine.takeAck
  dsimp only
  split
  · exact h
  · exact hP.portClear (hP.pump (forEach_preserves (P := P) (fun _ _ => hP.delivered) _ (hP.acked h)))

theorem countFlit (h : P s) : P (countFlit i f s) := by
  have hcorrected : P (when f.corrected (bump (fecCnt i)) s) := by
    unfold when
    split
    · exact hP.counted (by simp) h
    · exact h
  unfold Machine.countFlit
  dsimp only
  split
  · exact hP.counted (by simp) hcorrected
  · exact hP.takeAck hcorrected

theorem received (h : P s) : P (received i raw t0 s) := hP.countFlit (hP.lanes (hP.now h))

end Unreceived

theorem deliver_quiet (m : AckMark) (s : State) : Same [.win, .svc, .ledger] s (deliver m s) := deliver_same (by decide) (Same.refl _ s)

theorem unreceived_rx (i : Nat) (c : Nat × Bool × Bool × Nat) : Unreceived i (fun t => (linkOf i t).rx = c) where
  toUndisturbed := undisturbed_rx i c
  now h := h
  lanes h := (congrArg LinkState.rx (linkOf_modLink_self i _ _)).trans h
  counted _ h := h
  acked h := (congrArg LinkState.rx (linkOf_modLink_self i _ _)).trans h
  delivered h := (congrArg LinkState.rx (linkOf_of_same (deliver_quiet _ _) (by decide) (by decide) i)).trans h

theorem unreceived_inbox (i : Nat) (c : List Msg) : Unreceived i (fun t => t.ocl.inbox = c) where
  toUndisturbed := undisturbed_inbox c
  now h := h
  lanes h := (congrArg Ocl.inbox (modLink_ocl _ i _)).trans h
  counted _ h := h
  acked h := (congrArg Ocl.inbox (modLink_ocl _ i _)).trans h
  delivered h := (congrArg Ocl.inbox ((deliver_quiet _ _).part .ocl (by decide))).trans h

theorem modLink_pairInbox (i : Nat) (g : LinkState → LinkState) (s : State) : (modLink i g s).pair.inbox = s.pair.inbox :=
  pairInbox_of_same (l := [.link, .ports]) (modLink_same (by decide) (Same.refl _ s)) (by decide)

theorem unreceived_pairInbox (i : Nat) (c : List SpanMsg) : Unreceived i (fun t => t.pair.inbox = c) where
  toUndisturbed := undisturbed_pairInbox c
  now h := h
  lanes h := (modLink_pairInbox i _ _).trans h
  counted _ h := h
  acked h := (modLink_pairInbox i _ _).trans h
  delivered h := (pairInbox_of_same (deliver_quiet _ _) (by decide)).trans h

/-- Registers that a received flit and its ACK write. -/
def receivedRegs (i : Nat) : List Nat :=
  [fecCnt i, fecCnt i + 4, crcCnt i, crcCnt i + 4, F.TOK_DELIV_CNT, F.TOK_DELIV_CNT + 4, F.LEDGER_USE.VALUE.off] ++ sideRegs

theorem settleLedger_regs {σ : State} {ρ : List Nat} (hρ : F.LEDGER_USE.VALUE.off ∈ ρ) {j : Nat} (h : Regs ρ σ s) :
    Regs ρ σ (settleLedger j s) := by
  unfold settleLedger freeLedger
  split
  · split
    · split
      · exact wr_regs hρ (h.of_win rfl)
      · exact h
    · exact h
  · exact h

theorem deliver_regs {σ : State} {m : AckMark} (h : Regs (receivedRegs i) σ s) : Regs (receivedRegs i) σ (deliver m s) := by
  unfold deliver deliverOne
  refine forEach_regs (fun u t ht => settleLedger_regs (by simp [receivedRegs]) ?_) (h.of_win rfl)
  have hcounted : Regs (receivedRegs i) σ (bumpBy F.TOK_DELIV_CNT u.tokens t) :=
    bumpBy_regs (by simp [receivedRegs]) (by simp [receivedRegs]) ht
  exact hcounted.of_win rfl

theorem unreceived_regs (i : Nat) (σ : State) : Unreceived i (Regs (receivedRegs i) σ) where
  toUndisturbed := undisturbed_regs (by simp [SubN, receivedRegs, sideRegs]) σ
  now h := h.of_win rfl
  lanes h := modLink_regs h
  counted ho h := by
    obtain rfl | rfl : _ = fecCnt i ∨ _ = crcCnt i := by simpa using ho
    · exact bump_regs (by simp [receivedRegs]) (by simp [receivedRegs]) h
    · exact bump_regs (by simp [receivedRegs]) (by simp [receivedRegs]) h
  acked h := modLink_regs h
  delivered h := deliver_regs h

theorem received_rx (i : Nat) (raw : BitVec 2048) (t0 : Nat) (s : State) : (linkOf i (received i raw t0 s)).rx = (linkOf i s).rx :=
  (unreceived_rx i _).received rfl

theorem received_inboxes (i : Nat) (raw : BitVec 2048) (t0 : Nat) (s : State) :
    (received i raw t0 s).ocl.inbox = s.ocl.inbox ∧ (received i raw t0 s).pair.inbox = s.pair.inbox :=
  ⟨(unreceived_inbox i _).received rfl, (unreceived_pairInbox i _).received rfl⟩

theorem received_replays (hi : i ≤ 4) (raw : BitVec 2048) (t0 : Nat) (s : State) :
    cnt (replayCnt i) (received i raw t0 s) = cnt (replayCnt i) s := by
  obtain ⟨hlow, hhigh⟩ := (by decide : ∀ i ≤ 4, replayCnt i ∉ receivedRegs i ∧ replayCnt i + 4 ∉ receivedRegs i) i hi
  exact ((unreceived_regs i s).received (Regs.refl _ s)).cnt hlow hhigh

theorem received_keeps (i : Nat) (raw : BitVec 2048) (t0 : Nat) (s : State) : Keeps s (received i raw t0 s) :=
  countFlit_keeps (takeOff_keeps (atTime_keeps (Keeps.refl s)))

/-- A bad flit is counted and its ACK is not taken. -/
theorem received_bad (hw : s.TablesWf) (hi : i ≤ 4) (hbad : (takeOff i raw s).1.bad = true) :
    cnt (crcCnt i) (received i raw t0 s) = (cnt (crcCnt i) s + 1) % 2 ^ 64 ∧
      (linkOf i (received i raw t0 s)).replay = (linkOf i s).replay := by
  have hoff := (by decide : ∀ i ≤ 4, ∀ o ∈ [crcCnt i, crcCnt i + 4], o ∉ [fecCnt i, fecCnt i + 4]) i hi
  have hwin : (takeOff i raw (atTime t0 s)).2.win = s.win := modLink_win _ _ _
  have htaken : Table.wf resetWord (takeOff i raw (atTime t0 s)).2.win = true := hwin ▸ hw.win
  have hreceived : received i raw t0 s =
      bump (crcCnt i) (when (takeOff i raw s).1.corrected (bump (fecCnt i)) (takeOff i raw (atTime t0 s)).2) := by
    unfold received countFlit
    dsimp only
    rw [if_pos hbad]
  rw [hreceived]
  constructor
  · have hregs : Regs [fecCnt i, fecCnt i + 4] (takeOff i raw (atTime t0 s)).2
        (when (takeOff i raw s).1.corrected (bump (fecCnt i)) (takeOff i raw (atTime t0 s)).2) :=
      when_regs (fun _ => bump_regs (by simp) (by simp)) (Regs.refl _ _)
    have hcounted : Table.wf resetWord
        (when (takeOff i raw s).1.corrected (bump (fecCnt i)) (takeOff i raw (atTime t0 s)).2).win = true := by
      unfold when
      split
      · exact win_bump htaken _
      · exact htaken
    rw [cnt_bump hcounted, hregs.cnt (hoff _ (by simp)) (hoff _ (by simp)), cnt_congr hwin]
  · have hcount : linkOf i (bump (crcCnt i) (when (takeOff i raw s).1.corrected (bump (fecCnt i)) (takeOff i raw (atTime t0 s)).2)) =
        linkOf i (takeOff i raw (atTime t0 s)).2 :=
      linkOf_of_same (bump_same (l := [.win]) (by decide)
        (when_same (fun _ => bump_same (by decide)) (Same.refl _ _))) (by decide) (by decide) i
    rw [hcount, linkOf_takeOff]

/-! ### The ACK (R281) -/

/-- What an ACK leaves in the replay buffer. -/
def ackLeft (f : RxFlit) (l : List SentFlit) : List SentFlit := if f.ackV then (splitAck f.ack l).2 else l

theorem splitAck_none {ack : Nat} {l : List SentFlit} (h : (splitAck ack l).1 = []) : (splitAck ack l).2 = l := by
  unfold splitAck at h ⊢
  split at h
  · next k _ =>
    have hnil : l = [] := by simpa using h
    rw [hnil]
    simp
  · rfl

theorem linkOf_portClear (i j : Nat) (s : State) : linkOf i (portClear j s) = linkOf i s := by
  unfold portClear
  dsimp only
  split
  · exact linkOf_congr rfl ⟨rfl, rfl, rfl, rfl⟩ i
  · rfl

/-- With nothing waiting nothing is sent. -/
theorem pump_idle (h : (linkOf i s).waiting = []) : pump i s = modLink i (fun l => { l with waiting := [] }) s := by
  unfold pump
  simp [h, pumpList, pushFlits, cdiv]

theorem takeAck_replay (h : (linkOf i s).waiting = []) : (linkOf i (takeAck i f s)).replay = ackLeft f (linkOf i s).replay := by
  unfold takeAck ackLeft
  extract_lets p s1
  split
  · next hnone =>
    split
    · next hv =>
      have hp : p.1 = [] := by simpa [hv] using hnone
      exact (splitAck_none hp).symm
    · rfl
  · next hsome =>
    have hv : f.ackV = true := by
      cases hv : f.ackV
      · simp [hv] at hsome
      · rfl
    have hs2 : linkOf i (forEach (p.1.flatMap (·.marks)) deliver s1) = linkOf i s1 :=
      linkOf_of_same (l := [.win, .svc, .ledger]) (forEach_same (fun _ _ => deliver_same (by decide)) (Same.refl _ s1)) (by decide)
        (by decide) i
    have hs1 : linkOf i s1 = { linkOf i s with replay := p.2, ackTimeouts := 0 } := linkOf_modLink_self i _ s
    have hidle : (linkOf i (forEach (p.1.flatMap (·.marks)) deliver s1)).waiting = [] := by
      rw [hs2, hs1]
      exact h
    rw [if_pos hv, linkOf_portClear, pump_idle hidle, linkOf_modLink_self, hs2, hs1]

/-- A flit that is not bad acknowledges what its ACK covers. -/
theorem received_replay (hbad : (takeOff i raw s).1.bad = false) (h : (linkOf i s).waiting = []) :
    (linkOf i (received i raw t0 s)).replay = ackLeft (takeOff i raw s).1 (linkOf i s).replay := by
  have hlink : linkOf i (when (takeOff i raw s).1.corrected (bump (fecCnt i)) (takeOff i raw (atTime t0 s)).2) =
      linkOf i (takeOff i raw (atTime t0 s)).2 :=
    linkOf_of_same (l := [.win]) (when_same (fun _ => bump_same (by decide)) (Same.refl _ _)) (by decide) (by decide) i
  have hreceived : received i raw t0 s = takeAck i (takeOff i raw s).1
      (when (takeOff i raw s).1.corrected (bump (fecCnt i)) (takeOff i raw (atTime t0 s)).2) := by
    unfold received countFlit
    dsimp only
    rw [if_neg (by simp [hbad])]
  rw [hreceived, takeAck_replay (by rw [hlink, linkOf_takeOff]; exact h), hlink, linkOf_takeOff]

/-! ### Replays (R281 to R283) -/

/-- A replay is counted and leaves the count of silences; it may bring a retrain. -/
theorem replayFlits_cases (hw : s.TablesWf) (hne : (linkOf i s).replay ≠ []) (t0 : Nat) : ∃ u : State, u.TablesWf ∧
    Regs [replayCnt i, replayCnt i + 4] s u ∧ cnt (replayCnt i) u = (cnt (replayCnt i) s + 1) % 2 ^ 64 ∧
    (linkOf i u).ackTimeouts = (linkOf i s).ackTimeouts ∧ (replayFlits i t0 s = u ∨ replayFlits i t0 s = enterRetrain i t0 u) := by
  unfold replayFlits
  split
  · next hnil => exact absurd hnil hne
  · next first rest _ =>
    extract_lets l n again s1 s2
    have hset : Keeps s (setLink i { l with replayedSeq := first.seq, replayedN := n, replay := again } s) := setLink_keeps (Keeps.refl s)
    have hs1 : Regs [replayCnt i, replayCnt i + 4] s s1 := bump_regs (by simp) (by simp) (setLink_regs (Regs.refl _ s))
    have hc1 : cnt (replayCnt i) s1 = (cnt (replayCnt i) s + 1) % 2 ^ 64 :=
      (cnt_bump (hset.tables hw).win _).trans (by rw [cnt_congr (setLink_win i _ s)])
    have ha1 : (linkOf i s1).ackTimeouts = (linkOf i s).ackTimeouts := by
      rw [show linkOf i s1 = _ from linkOf_setLink_self i _ s]
    have hwin : s2.win = s1.win :=
      forEach_preserves (P := fun t => t.win = s1.win) (fun _ _ h => (modLink_win i _ _).trans h) _ rfl
    have ha2 : (linkOf i s2).ackTimeouts = (linkOf i s1).ackTimeouts :=
      forEach_preserves (P := fun t => (linkOf i t).ackTimeouts = (linkOf i s1).ackTimeouts)
        (fun _ _ h => (congrArg LinkState.ackTimeouts (linkOf_modLink_self i _ _)).trans h) _ rfl
    have hkeeps : s2.TablesWf := (forEach_keeps (fun _ _ => emit_keeps) (bump_keeps hset)).tables hw
    refine ⟨s2, hkeeps, hs1.of_win hwin, (cnt_congr hwin _).trans hc1, ha2.trans ha1, ?_⟩
    split
    · exact Or.inr rfl
    · exact Or.inl rfl

theorem enterRetrain_replays (hi : i ≤ 4) (t0 : Nat) (s : State) : cnt (replayCnt i) (enterRetrain i t0 s) = cnt (replayCnt i) s := by
  obtain ⟨hlow, hhigh⟩ := (by decide : ∀ i ≤ 4, replayCnt i ∉ retrainRegs i ∧ replayCnt i + 4 ∉ retrainRegs i) i hi
  exact (enterRetrain_regs i t0 s).cnt hlow hhigh

theorem replayFlits_counts (hw : s.TablesWf) (hi : i ≤ 4) (hne : (linkOf i s).replay ≠ []) (t0 : Nat) :
    cnt (replayCnt i) (replayFlits i t0 s) = (cnt (replayCnt i) s + 1) % 2 ^ 64 := by
  obtain ⟨u, -, -, hcount, -, heq | heq⟩ := replayFlits_cases hw hne t0
  · rw [heq, hcount]
  · rw [heq, enterRetrain_replays hi, hcount]

/-! ### Silence (R282, R283) -/

/-- One more silence is noted. -/
def silent (i t0 : Nat) (s : State) : State := modLink i (fun l => { l with ackTimeouts := l.ackTimeouts + 1 }) (atTime t0 s)

theorem linkOf_silent (i t0 : Nat) (s : State) : linkOf i (silent i t0 s) = { linkOf i s with ackTimeouts := (linkOf i s).ackTimeouts + 1 } := by
  unfold silent
  rw [linkOf_modLink_self, linkOf_atTime]

theorem silent_win (i t0 : Nat) (s : State) : (silent i t0 s).win = s.win := modLink_win i _ (atTime t0 s)

theorem ackTimeout_eq (hflow : flitsFlow i s = true) (hne : (linkOf i s).replay ≠ []) : ackTimeout i t0 s =
    if 4 ≤ (linkOf i (replayFlits i t0 (silent i t0 s))).ackTimeouts ∧ flitsFlow i (replayFlits i t0 (silent i t0 s)) then
      enterRetrain i t0 (replayFlits i t0 (silent i t0 s))
    else replayFlits i t0 (silent i t0 s) := by
  have hcond : flitsFlow i (atTime t0 s) = true ∧ (!(linkOf i (atTime t0 s)).replay.isEmpty) = true := by
    rw [linkOf_atTime]
    exact ⟨hflow, by simpa using hne⟩
  unfold ackTimeout
  dsimp only
  rw [if_pos hcond]
  rfl

section
variable (hw : s.TablesWf) (hi : i ≤ 4) (hst : linkSt i s = 4 ∨ linkSt i s = 3) (hne : (linkOf i s).replay ≠ [])
include hw hi hst hne

theorem ackTimeout_counts (t0 : Nat) : cnt (replayCnt i) (ackTimeout i t0 s) = (cnt (replayCnt i) s + 1) % 2 ^ 64 := by
  have hsilent : (silent i t0 s).TablesWf := (modLink_keeps (atTime_keeps (Keeps.refl s))).tables hw
  have hcount : cnt (replayCnt i) (replayFlits i t0 (silent i t0 s)) = (cnt (replayCnt i) s + 1) % 2 ^ 64 := by
    rw [replayFlits_counts hsilent hi (by rw [linkOf_silent]; exact hne), cnt_congr (silent_win i t0 s)]
  rw [ackTimeout_eq (flitsFlow_of hi hst) hne]
  split
  · rw [enterRetrain_replays hi, hcount]
  · exact hcount

/-- The fourth silence in a row brings RETRAIN, unless its replay already has. -/
theorem ackTimeout_retrains (hfourth : 3 ≤ (linkOf i s).ackTimeouts) (t0 : Nat) :
    linkSt i (ackTimeout i t0 s) = 5 ∧ rd (retrainFld i) (ackTimeout i t0 s) = 1 := by
  have hsilent : (silent i t0 s).TablesWf := (modLink_keeps (atTime_keeps (Keeps.refl s))).tables hw
  obtain ⟨u, hu, hregs, -, htimeouts, heq⟩ := replayFlits_cases hsilent (by rw [linkOf_silent]; exact hne) t0
  obtain ⟨hstate, hbit, -⟩ := enterRetrain_shows hu hi t0
  rw [ackTimeout_eq (flitsFlow_of hi hst) hne]
  obtain heq | heq := heq
  · have hoff := (by decide : ∀ i ≤ 4, (linkStateFld i).off ∉ [replayCnt i, replayCnt i + 4]) i hi
    have hshown : linkSt i u = linkSt i s := (hregs.rd hoff).trans (rd_congr (silent_win i t0 s) _)
    rw [heq, if_pos ⟨by rw [htimeouts, linkOf_silent]; exact Nat.succ_le_succ hfourth, flitsFlow_of hi (hshown ▸ hst)⟩]
    exact ⟨hstate, hbit⟩
  · have hretrained : (linkOf i (enterRetrain i t0 u)).ackTimeouts = 0 :=
      (linkOf_enterRetrain (g := LinkState.ackTimeouts) (fun _ => rfl) i i t0 u).trans
        (congrArg LinkState.ackTimeouts (linkOf_modLink_self i _ u))
    rw [heq, if_neg fun h => absurd h.1 (by omega)]
    exact ⟨hstate, hbit⟩

end

end Sys2Proof.Machine
end

section
/-!
SUPPORT. Delivery of flits (R281, R285 to R287, R291, R311, R312) and the rows of received flits: what each row is once the flit has come off
the lanes.
-/
namespace Sys2Proof.Machine
open Sys2Proof

variable {s t : State} {i t0 : Nat} {raw : BitVec 2048} {f : RxFlit}

/-! ### Taking messages leaves the receiving end alone -/

theorem takeOcl_rx (i : Nat) (m : Msg) (s : State) : (linkOf i (takeOcl m s)).rx = (linkOf i s).rx := by
  have hrx := undisturbed_rx i (linkOf i s).rx
  have hdiscard : (linkOf i (discardMsg 0 s)).rx = (linkOf i s).rx := hrx.raise rfl
  unfold takeOcl
  split
  · exact hdiscard
  · split
    · exact hdiscard
    · split
      · extract_lets n s0 s1
        have hs0 : (linkOf i s0).rx = (linkOf i s).rx := by
          unfold s0
          split
          · exact hrx.flushEvents (hrx.raiseQuiet (hrx.raiseQuiet rfl))
          · exact hdiscard
        have hs1 : (linkOf i s1).rx = (linkOf i s).rx := by
          unfold s1
          split
          · exact hs0
          · exact hrx.sendOut hs0
        split
        · exact hrx.sendOut hs1
        · exact hs1
      · extract_lets n s1
        have hs1 : (linkOf i s1).rx = (linkOf i s).rx := by
          refine linkOf_modLink_read (g := LinkState.rx) ?_ 0 i s
          exact fun _ => rfl
        exact hs1

theorem takeSpan_rx (i k : Nat) (h : Slot16) (data : List Slot16) (s : State) :
    (linkOf i (takeSpan k h data s)).rx = (linkOf i s).rx := by
  have hrx := undisturbed_rx i (linkOf i s).rx
  unfold takeSpan
  extract_lets m inbox s1
  have hs1 : (linkOf i s1).rx = (linkOf i s).rx := congrArg LinkState.rx (linkOf_congr rfl ⟨rfl, rfl, rfl, rfl⟩ i)
  split
  · exact hrx.raise rfl
  · split
    · exact hs1
    · exact hrx.sendOut hs1

theorem parseSlots_rx (i j n : Nat) (l : List Slot16) (s : State) : (linkOf i (parseSlots j n l s).2).rx = (linkOf i s).rx := by
  induction n generalizing l s with
  | zero => rfl
  | succ n ih =>
    cases l with
    | nil => rfl
    | cons h rest =>
      unfold parseSlots
      split
      · exact ih rest s
      · extract_lets k s1
        split
        · rfl
        · refine (ih _ s1).trans ?_
          unfold s1
          split
          · exact takeOcl_rx i _ s
          · exact takeSpan_rx i _ h _ s

theorem deliverSlots_rx (i : Nat) (slots : List Slot16) (s : State) : (linkOf i (deliverSlots i slots s)).rx = (linkOf i s).rx := by
  unfold deliverSlots
  rw [linkOf_modLink_self]
  exact parseSlots_rx i i _ _ s

/-- A delivered flit's SEQ is no longer the expected one, and no NAK is pending. -/
theorem deliverFlit_rx (i : Nat) (f : RxFlit) (s : State) :
    (linkOf i (deliverFlit i f s)).rx = (((linkOf i s).rxSeq + 1) % 4096, true, false, (linkOf i s).naks) := by
  unfold deliverFlit
  extract_lets s1
  have hs1 : (linkOf i s1).rx = (((linkOf i s).rxSeq + 1) % 4096, true, false, (linkOf i s).naks) := by
    refine (deliverSlots_rx i _ _).trans ?_
    rw [linkOf_modLink_self]
    rfl
  split
  · exact hs1
  · exact (undisturbed_rx i _).sendCtl hs1

/-! ### The rows of received flits -/

/-- A NAK is due after a flit was received: it is pending, the expected SEQ stays, and no message arrives. -/
theorem sendNak_received : (linkOf i (sendNak i (received i raw t0 s))).rxSeq = (linkOf i s).rxSeq ∧
    (linkOf i (sendNak i (received i raw t0 s))).nakked = true ∧
    (sendNak i (received i raw t0 s)).ocl.inbox = s.ocl.inbox ∧ (sendNak i (received i raw t0 s)).pair.inbox = s.pair.inbox := by
  obtain ⟨hnakked, hrxSeq, -⟩ := linkOf_sendNak i (received i raw t0 s)
  obtain ⟨hocl, hpair⟩ := sendNak_inboxes i (received i raw t0 s)
  obtain ⟨hinbox, hspan⟩ := received_inboxes i raw t0 s
  exact ⟨hrxSeq.trans (rx_eq (received_rx i raw t0 s)).1, hnakked, hocl.trans hinbox, hpair.trans hspan⟩

/-- Where no NAK was pending, the NAK flit names the last flit delivered. -/
theorem sendNak_received_first (h : (linkOf i s).nakked = false) :
    (linkOf i (sendNak i (received i raw t0 s))).naks = (linkOf i s).naks + 1 ∧
      (linkOf i (sendNak i (received i raw t0 s))).ctl = some (buildFlit (flitHeader (linkOf i s) 2 0) []) := by
  have hrx := received_rx i raw t0 s
  obtain ⟨-, -, hnakked, hnaks⟩ := rx_eq hrx
  obtain ⟨hsent, -, hctl, -, -, -⟩ := linkOf_putNak i (received i raw t0 s)
  rw [sendNak_first (hnakked.trans h)]
  exact ⟨by rw [hsent, hnaks], by rw [hctl, flitHeader_rx hrx]⟩

section
variable (hi : i ≤ 4) (hst : linkSt i s = 4 ∨ linkSt i s = 3)
include hi hst

theorem flitsFlow_atTime (t0 : Nat) : ¬ (!flitsFlow i (atTime t0 s)) = true := by
  rw [show flitsFlow i (atTime t0 s) = true from flitsFlow_of hi hst]
  decide

theorem payloadFlit_eq : payloadFlit i raw t0 s =
    if (takeOff i raw s).1.bad then sendNak i (received i raw t0 s)
    else if (takeOff i raw s).1.type ≠ 0 then received i raw t0 s
    else if (takeOff i raw s).1.seq = (linkOf i s).rxSeq then deliverFlit i (takeOff i raw s).1 (received i raw t0 s)
    else if ((linkOf i s).rxSeq + 4096 - (takeOff i raw s).1.seq) % 4096 < 2048 then received i raw t0 s
    else sendNak i (received i raw t0 s) := by
  obtain ⟨hseq, -, -, -⟩ := rx_eq (received_rx i raw t0 s)
  unfold received at hseq ⊢
  unfold payloadFlit
  dsimp only
  rw [if_neg (flitsFlow_atTime hi hst t0), takeOff_atTime, hseq]

theorem payloadFlit_bad (hbad : (takeOff i raw s).1.bad = true) : payloadFlit i raw t0 s = sendNak i (received i raw t0 s) := by
  rw [payloadFlit_eq hi hst, if_pos hbad]

theorem payloadFlit_earlier (hbad : (takeOff i raw s).1.bad = false) (htype : (takeOff i raw s).1.type = 0)
    (hne : (takeOff i raw s).1.seq ≠ (linkOf i s).rxSeq) (hold : ((linkOf i s).rxSeq + 4096 - (takeOff i raw s).1.seq) % 4096 < 2048) :
    payloadFlit i raw t0 s = received i raw t0 s := by
  rw [payloadFlit_eq hi hst, if_neg (by simp [hbad]), if_neg (by simp [htype]), if_neg hne, if_pos hold]

theorem payloadFlit_later (hbad : (takeOff i raw s).1.bad = false) (htype : (takeOff i raw s).1.type = 0)
    (hne : (takeOff i raw s).1.seq ≠ (linkOf i s).rxSeq) (hnew : 2048 ≤ ((linkOf i s).rxSeq + 4096 - (takeOff i raw s).1.seq) % 4096) :
    payloadFlit i raw t0 s = sendNak i (received i raw t0 s) := by
  rw [payloadFlit_eq hi hst, if_neg (by simp [hbad]), if_neg (by simp [htype]), if_neg hne, if_neg (by omega)]

theorem idleFlit_eq : idleFlit i raw t0 s =
    if (takeOff i raw s).1.bad then sendNak i (received i raw t0 s) else received i raw t0 s := by
  unfold idleFlit received
  dsimp only
  rw [if_neg (flitsFlow_atTime hi hst t0), takeOff_atTime]

theorem nakFlit_replays (hbad : (takeOff i raw s).1.bad = false) (htype : (takeOff i raw s).1.type = 2) :
    nakFlit i raw t0 s = replayFlits i t0 (received i raw t0 s) := by
  unfold nakFlit received
  dsimp only
  rw [if_neg (flitsFlow_atTime hi hst t0), takeOff_atTime, if_neg (by simp [hbad]), if_neg (by simp [htype])]

theorem retrainFlit_retrains (hbad : (takeOff i raw s).1.bad = false) (htype : (takeOff i raw s).1.type = 3) :
    retrainFlit i raw t0 s = enterRetrain i t0 (received i raw t0 s) := by
  unfold retrainFlit received
  dsimp only
  rw [if_neg (flitsFlow_atTime hi hst t0), takeOff_atTime, if_neg (by simp [hbad]), if_neg (by simp [htype])]

theorem nakResend_sends (hnak : (linkOf i s).nakked = true) : nakResend i s = putNak i s :=
  if_pos ⟨flitsFlow_of hi hst, hnak⟩

theorem payloadFlit_now : (payloadFlit i raw t0 s).now = t0 := by
  have hreceived : Same [.win, .svc, .ledger, .link, .ports, .ocl, .pair] (atTime t0 s) (received i raw t0 s) :=
    countFlit_same (by decide) (takeOff_same (by decide) (Same.refl _ _))
  rw [payloadFlit_eq hi hst]
  split_ifs
  · exact (sendNak_same (by decide) hreceived).part .now (by decide)
  · exact hreceived.part .now (by decide)
  · exact (deliverFlit_same (by decide) hreceived).part .now (by decide)
  · exact hreceived.part .now (by decide)
  · exact (sendNak_same (by decide) hreceived).part .now (by decide)

theorem payloadFlit_expected (hbad : (takeOff i raw s).1.bad = false) (htype : (takeOff i raw s).1.type = 0)
    (hseq : (takeOff i raw s).1.seq = (linkOf i s).rxSeq) : (linkOf i (payloadFlit i raw t0 s)).rxSeq = ((linkOf i s).rxSeq + 1) % 4096 ∧
      (linkOf i (payloadFlit i raw t0 s)).nakked = false ∧ (linkOf i (payloadFlit i raw t0 s)).gotAny = true := by
  obtain ⟨hrxSeq, -, -, -⟩ := rx_eq (received_rx i raw t0 s)
  have hrx := deliverFlit_rx i (takeOff i raw s).1 (received i raw t0 s)
  rw [payloadFlit_eq hi hst, if_neg (by simp [hbad]), if_neg (by simp [htype]), if_pos hseq]
  simp only [LinkState.rx, Prod.mk.injEq] at hrx
  obtain ⟨hnext, hgot, hnakked, -⟩ := hrx
  exact ⟨hnext.trans (by rw [hrxSeq]), hnakked, hgot⟩

/-- What an idle flit with nothing waiting leaves in the replay buffer, and a bad one. -/
theorem idleFlit_shows (hw : s.TablesWf) :
    ((takeOff i raw s).1.bad = true → cnt (crcCnt i) (idleFlit i raw t0 s) = (cnt (crcCnt i) s + 1) % 2 ^ 64 ∧
      (linkOf i (idleFlit i raw t0 s)).replay = (linkOf i s).replay ∧ (linkOf i (idleFlit i raw t0 s)).nakked = true) ∧
    ((takeOff i raw s).1.bad = false → (linkOf i s).waiting = [] →
      (linkOf i (idleFlit i raw t0 s)).replay = ackLeft (takeOff i raw s).1 (linkOf i s).replay) := by
  rw [idleFlit_eq hi hst]
  refine ⟨fun hbad => ?_, fun hbad hidle => ?_⟩
  · obtain ⟨hcount, hreplay⟩ := received_bad (t0 := t0) hw hi hbad
    obtain ⟨hnakked, -, hsame⟩ := linkOf_sendNak i (received i raw t0 s)
    rw [if_pos hbad]
    exact ⟨(cnt_congr (sendNak_win i _) _).trans hcount, hsame.trans hreplay, hnakked⟩
  · rw [if_neg (by simp [hbad])]
    exact received_replay hbad hidle

end

/-- Settles O39: every row is the flit off the lanes with its ACK taken, which leaves the receiving end and the inboxes alone, and then one of
a NAK, a delivery, a replay and a retrain. -/
theorem flitsAreDeliveredAcknowledgedAndReplayed : Obligations.FlitsAreDeliveredAcknowledgedAndReplayed := by
  unfold Obligations.FlitsAreDeliveredAcknowledgedAndReplayed
  intro s i t0 raw hw hi hst f l left
  have hreceived : (received i raw t0 s).TablesWf := (received_keeps i raw t0 s).tables hw
  have hstill : (received i raw t0 s).ocl.inbox = s.ocl.inbox ∧ (received i raw t0 s).pair.inbox = s.pair.inbox :=
    received_inboxes i raw t0 s
  obtain ⟨hseq, hnakked, hocl, hpair⟩ := sendNak_received (s := s) (i := i) (t0 := t0) (raw := raw)
  refine ⟨⟨_, rfl, payloadFlit_now hi hst, fun hbad => ?_, payloadFlit_expected hi hst, fun hbad htype hne hold => ?_,
    fun hbad htype hne hnew => ?_⟩, ⟨_, rfl, idleFlit_shows hi hst hw⟩, fun hbad htype hidle hleft => ?_, fun hbad htype => ?_,
    fun hpending => ?_, fun hne => ?_⟩
  · obtain ⟨hcount, -⟩ := received_bad (t0 := t0) hw hi hbad
    rw [payloadFlit_bad hi hst hbad]
    exact ⟨(cnt_congr (sendNak_win i _) _).trans hcount, hseq, hnakked, sendNak_received_first, hocl, hpair⟩
  · rw [payloadFlit_earlier hi hst hbad htype hne hold]
    exact ⟨(rx_eq (received_rx i raw t0 s)).1, hstill⟩
  · rw [payloadFlit_later hi hst hbad htype hne hnew]
    exact ⟨hseq, hnakked, hocl, hpair⟩
  · have hnonempty : (linkOf i (received i raw t0 s)).replay ≠ [] := by
      rw [received_replay hbad hidle]
      exact hleft
    refine ⟨_, congrArg Host.Outcome.next (nakFlit_replays hi hst hbad htype), ?_⟩
    rw [replayFlits_counts hreceived hi hnonempty, received_replays hi]
  · obtain ⟨hstate, hbit, -⟩ := enterRetrain_shows hreceived hi t0
    exact ⟨_, congrArg Host.Outcome.next (retrainFlit_retrains hi hst hbad htype), hstate, hbit⟩
  · obtain ⟨hnaks, hnak, hctl, hrx, htx, hreplay⟩ := linkOf_putNak i s
    exact ⟨_, congrArg Host.Outcome.next (nakResend_sends hi hst hpending), hnaks, hnak, hctl, hrx, htx, hreplay, putNak_win i s⟩
  · exact ⟨_, rfl, ackTimeout_counts hw hi hst hne t0, fun hfourth => ackTimeout_retrains hw hi hst hne hfourth t0⟩

end Sys2Proof.Machine
end
